-- ==== Sys2Proof/Word.lean ====
section
/-!
DEFINITION. Word.lean: the word types of the Kasyn model and their plainest operations. Bit 0 is the least
significant bit of any field, and a range [msb:lsb] includes both ends (R3).
-/

namespace Sys2Proof

/-- One byte of any memory. -/
abbrev Byte := BitVec 8

/-- A 64-bit word: a descriptor word, a lesson word, a register. -/
abbrev Word := BitVec 64

/-- A raw FP32 code, or any 32-bit lane. -/
abbrev W32 := BitVec 32

/-- A raw M40 code (R52). -/
abbrev W40 := BitVec 40

/-- The exact value of one floating-point or integer element: NaN, an infinity, or (-1)^neg * m * 2^e (R52). -/
inductive Fp where
  | nan
  | inf (neg : Bool)
  | fin (neg : Bool) (m : Nat) (e : Int)
  deriving DecidableEq, Repr

/-- A table keyed by numbers: entries at strictly rising keys. -/
abbrev Tbl (α : Type) := List (Nat × α)

/-- The number in bits [lo + len - 1 : lo] of a word (R3). -/
def fieldNat {n : Nat} (w : BitVec n) (lo len : Nat) : Nat := (w.toNat / 2 ^ lo) % 2 ^ len

/-- Bit `i` of a word. -/
def bitOf {n : Nat} (w : BitVec n) (i : Nat) : Bool := w.getLsbD i

/-- The number `k` placed at bits [lo + len - 1 : lo] of an otherwise zero number. -/
def placeNat (k lo len : Nat) : Nat := (k % 2 ^ len) * 2 ^ lo

end Sys2Proof
end

