-- ==== Sys2Proof/Syntax.lean ====
section
/-!
DEFINITION. Syntax.lean: the commands of the block. One constructor of Instr for each row of
spec/opcode_table.json, with the row's operands. A command is one whole, indivisible step of the part
(95_what_each_step_holds.md): a descriptor as the device fetches it, a lesson instruction as it issues, a
register or bell write as it reaches the device, an item or frame as it arrives, or an event as it falls due.
-/

namespace Sys2Proof

/-- Port A on I/O die 0 or Port B on I/O die 1 (R19). -/
inductive Port where
  | A
  | B
  deriving DecidableEq, Repr

/-- The places that run lessons (Table 06-1): a core by logical number, a link engine, a memory-side die. -/
inductive Place where
  | core (c : Fin 192)
  | link (l : Fin 36)
  | mem (m : Fin 24)
  deriving DecidableEq, Repr

/-- A submission descriptor as the device reads it from ring `ring` of channel slot `slot` (Table 02-6), less its
opcode byte, which the command's constructor names. `flags` is word 0 [31:8]: bit 0 FENCE, bit 1 IRQ, bit 2 QUIET,
bits 23 to 3 reserved. -/
structure Desc where
  slot : Fin 4096
  ring : Fin 8
  flags : BitVec 24
  handle : BitVec 32
  tag : Word
  w2 : Word
  w3 : Word
  w4 : Word
  w5 : Word
  w6 : Word
  w7 : Word
  deriving DecidableEq, Repr

/-- A control item of 64 bytes as it arrives (R304): words 0 to 5 and the 128-bit tag, with the NONCE_CTR position
and the key slot of the frame it began in. -/
structure Item where
  w0 : Word
  w1 : Word
  w2 : Word
  w3 : Word
  w4 : Word
  w5 : Word
  tag : BitVec 128
  nonce : Word
  keyId : Bool
  deriving DecidableEq, Repr

/-- A segment as it arrives (Table 12-4): words 0 to 5 of its header, the tag, the key slot of the frame it began in
and its data bytes as carried on the wire. -/
structure Segment where
  w0 : Word
  w1 : Word
  w2 : Word
  w3 : Word
  w4 : Word
  w5 : Word
  tag : BitVec 128
  keyId : Bool
  data : List Byte
  deriving DecidableEq, Repr

/-- A chip-to-chip frame (Table 12-3): its two header words and its body. -/
structure Frame where
  h0 : Word
  h1 : Word
  body : List Byte
  deriving DecidableEq, Repr

/-- A far frame (R348, Table 13-6): the Ethernet fields, the four words of the far header, its body, and whether its
FCS holds. -/
structure FarFrame where
  dest : BitVec 48
  src : BitVec 48
  ethertype : BitVec 16
  h0 : Word
  h1 : Word
  h2 : Word
  h3 : Word
  body : List Byte
  fcsOk : Bool
  deriving DecidableEq, Repr

/-- One command of the block. -/
inductive Instr where
  -- descriptors (chapter 02)
  | lessonRun (d : Desc)
  | tensorMove (d : Desc)
  | exchange (d : Desc)
  | roundSend (d : Desc)
  | ruleBind (d : Desc)
  | ruleRelease (d : Desc)
  | stepOpen (d : Desc)
  | stepCommit (d : Desc)
  | examOpen (d : Desc)
  | examClose (d : Desc)
  | deltaExport (d : Desc)
  | wait (d : Desc)
  | statsRead (d : Desc)
  | snapshot (d : Desc)
  | undefinedOpcode (opcode : BitVec 8) (d : Desc)
  -- admin descriptors
  | channelCreate (d : Desc)
  | channelAdopt (d : Desc)
  | channelDestroy (d : Desc)
  | mapMemory (d : Desc)
  | unmap (d : Desc)
  | groupDefine (d : Desc)
  | deskmatePair (d : Desc)
  | penPalDefine (d : Desc)
  | topologyLoad (d : Desc)
  | policyLimits (d : Desc)
  | keyInstall (d : Desc)
  -- descriptors held by the device, named by their fetch number
  | fencedDescriptorStart (id : Nat)
  | unmapRelease (id : Nat)
  | stepOpenRelease (id : Nat)
  | examOpenRelease (id : Nat)
  | ruleBindRelease (id : Nat)
  | waitSatisfied (id : Nat)
  | waitTimeout (id : Nat)
  | deskmatePairFormed (id : Nat)
  -- bells, completions, ports
  | sqTailWrite (p : Port) (slot : Fin 4096) (offset : BitVec 12) (size : Nat) (value : Word)
  | cqHeadWrite (p : Port) (slot : Fin 4096) (size : Nat) (value : Word)
  | completionWrite (slot : Fin 4096)
  | coalesceTimerExpiry (slot : Fin 4096)
  | portLinkDownTimeout (p : Port)
  | peerFenceWrite (p : Port)
  | selfFenceClear (p : Port) (coincident : Bool)
  | adminEnable (p : Port)
  | adminDisable (p : Port)
  | portReset (p : Port)
  | admissionDecision (id : Nat)
  | exchangeFinal (id : Nat)
  -- scalar instructions (chapter 06)
  | saluAdd (p : Place) (w : Word)
  | saluSub (p : Place) (w : Word)
  | saluMul (p : Place) (w : Word)
  | saluMulhu (p : Place) (w : Word)
  | saluDivu (p : Place) (w : Word)
  | saluRemu (p : Place) (w : Word)
  | saluAnd (p : Place) (w : Word)
  | saluOr (p : Place) (w : Word)
  | saluXor (p : Place) (w : Word)
  | saluShl (p : Place) (w : Word)
  | saluShr (p : Place) (w : Word)
  | saluSra (p : Place) (w : Word)
  | saluMin (p : Place) (w : Word)
  | saluMax (p : Place) (w : Word)
  | saluMinu (p : Place) (w : Word)
  | saluMaxu (p : Place) (w : Word)
  | scmpEq (p : Place) (w : Word)
  | scmpNe (p : Place) (w : Word)
  | scmpLt (p : Place) (w : Word)
  | scmpLtu (p : Place) (w : Word)
  | scmpGe (p : Place) (w : Word)
  | scmpGeu (p : Place) (w : Word)
  | li (p : Place) (w : Word)
  | lih (p : Place) (w : Word)
  | beqz (p : Place) (w : Word)
  | bnez (p : Place) (w : Word)
  | bltz (p : Place) (w : Word)
  | bgez (p : Place) (w : Word)
  | btok (p : Place) (w : Word)
  | nop (p : Place) (w : Word)
  | jmp (p : Place) (w : Word)
  | call (p : Place) (w : Word)
  | jr (p : Place) (w : Word)
  | halt (p : Place) (w : Word)
  | amov (p : Place) (w : Word)
  | aadd (p : Place) (w : Word)
  | aadds (p : Place) (w : Word)
  | ard (p : Place) (w : Word)
  | rdtime (p : Place) (w : Word)
  | rdid (p : Place) (w : Word)
  | rdflag (c : Fin 192) (w : Word)
  | clrflag (c : Fin 192) (w : Word) (coincident : BitVec 7)
  | setstream (c : Fin 192) (w : Word)
  | rdcyc (p : Place) (w : Word)
  | sld (p : Place) (w : Word)
  | sst (p : Place) (w : Word)
  -- memory, tile
  | dld (c : Fin 192) (w : Word)
  | dst (c : Fin 192) (w : Word)
  | gather (c : Fin 192) (w : Word)
  | scatter (c : Fin 192) (w : Word)
  | sadd (c : Fin 192) (w : Word)
  | smin (c : Fin 192) (w : Word)
  | smax (c : Fin 192) (w : Word)
  | fill (c : Fin 192) (w : Word)
  | swap (c : Fin 192) (w : Word)
  | stream (c : Fin 192) (w : Word)
  | drain (c : Fin 192) (w : Word)
  -- vector
  | vopAdd (c : Fin 192) (w : Word)
  | vopSub (c : Fin 192) (w : Word)
  | vopMul (c : Fin 192) (w : Word)
  | fma (c : Fin 192) (w : Word)
  | vopMax (c : Fin 192) (w : Word)
  | vopMin (c : Fin 192) (w : Word)
  | abs (c : Fin 192) (w : Word)
  | neg (c : Fin 192) (w : Word)
  | div (c : Fin 192) (w : Word)
  | rcp (c : Fin 192) (w : Word)
  | sqrt (c : Fin 192) (w : Word)
  | rsqrt (c : Fin 192) (w : Word)
  | exp (c : Fin 192) (w : Word)
  | exp2 (c : Fin 192) (w : Word)
  | log (c : Fin 192) (w : Word)
  | log2 (c : Fin 192) (w : Word)
  | tanh (c : Fin 192) (w : Word)
  | cvt (c : Fin 192) (w : Word)
  | cmp (c : Fin 192) (w : Word)
  | sel (c : Fin 192) (w : Word)
  | iadd (c : Fin 192) (w : Word)
  | isub (c : Fin 192) (w : Word)
  | imul (c : Fin 192) (w : Word)
  | imax (c : Fin 192) (w : Word)
  | imin (c : Fin 192) (w : Word)
  | vopAnd (c : Fin 192) (w : Word)
  | vopOr (c : Fin 192) (w : Word)
  | vopXor (c : Fin 192) (w : Word)
  | vopShl (c : Fin 192) (w : Word)
  | vopShr (c : Fin 192) (w : Word)
  | vopSra (c : Fin 192) (w : Word)
  | bcast (c : Fin 192) (w : Word)
  | iota (c : Fin 192) (w : Word)
  | rot (c : Fin 192) (w : Word)
  | mand (c : Fin 192) (w : Word)
  | mor (c : Fin 192) (w : Word)
  | mxor (c : Fin 192) (w : Word)
  | mnot (c : Fin 192) (w : Word)
  | rand (c : Fin 192) (w : Word)
  | reduce (c : Fin 192) (w : Word)
  | smxInit (c : Fin 192) (w : Word)
  | smxStep (c : Fin 192) (w : Word)
  | smxNorm (c : Fin 192) (w : Word)
  | tile (c : Fin 192) (w : Word)
  | load (c : Fin 192) (w : Word)
  | store (c : Fin 192) (w : Word)
  | pop (c : Fin 192) (w : Word)
  -- dispatch, synchronisation, posts, statistics
  | route (c : Fin 192) (w : Word)
  | predict (c : Fin 192) (w : Word)
  | confirm (c : Fin 192) (w : Word)
  | squash (c : Fin 192) (w : Word)
  | syncWait (p : Place) (w : Word)
  | signal (c : Fin 192) (w : Word)
  | waitev (c : Fin 192) (w : Word)
  | bar (c : Fin 192) (w : Word)
  | xpost (c : Fin 192) (w : Word)
  | statTag (c : Fin 192) (w : Word)
  | statRead (c : Fin 192) (w : Word)
  -- timetable and sweep instructions
  | slot (l : Fin 36) (w : Word)
  | send (l : Fin 36) (w : Word)
  | expect (l : Fin 36) (w : Word)
  | fold (l : Fin 36) (w : Word)
  | deliver (l : Fin 36) (w : Word)
  | scrub (m : Fin 24) (w : Word)
  | move (m : Fin 24) (w : Word)
  | exportRec (m : Fin 24) (w : Word)
  | catchup (m : Fin 24) (w : Word)
  -- completions and waits inside a place
  | dmaComplete (c : Fin 192) (toMemory : Bool)
  | narrowComplete (c : Fin 192) (seq : Nat)
  | fillComplete (c : Fin 192) (bank : Bool)
  | passStart (c : Fin 192)
  | passClose (c : Fin 192)
  | drainComplete (c : Fin 192)
  | popRowDeliver (c : Fin 192)
  | routeComplete (c : Fin 192)
  | predictLand (c : Fin 192) (handle : Nat)
  | predictCopyDone (c : Fin 192) (handle : Nat)
  | squashShareFreed (c : Fin 192) (handle : Nat)
  | signalLand (c : Fin 192) (event : Fin 8)
  | waitevRelease (c : Fin 192)
  | barRelease (run : Nat) (scope : Bool) (form : Fin 24)
  | setstreamReseedDone (c : Fin 192)
  | slotRelease (l : Fin 36)
  | linkOpComplete (l : Fin 36) (tok : Fin 32)
  | sweepOpComplete (m : Fin 24) (tok : Fin 32)
  | lessonRunComplete (run : Nat)
  | sequencerWatchdog (c : Fin 192)
  | coreFence (c : Fin 192)
  -- update, commit, deskmates
  | nmuUnitUpdate (pass : Nat) (unit : Nat)
  | ownerCommitReport (group : BitVec 16)
  | commitReportReceive (l : Fin 36) (it : Item)
  | mirrorAckReceive (l : Fin 36) (it : Item)
  | commitDecisionReceive (l : Fin 36) (it : Item)
  | mirrorRecordReceive (l : Fin 36) (sg : Segment)
  | heartbeatSend (l : Fin 36)
  | heartbeatReceive (l : Fin 36) (it : Item)
  | heartbeatTimeout
  | takeoverRequestReceive (l : Fin 36) (it : Item)
  | takeoverReplyReceive (l : Fin 36) (it : Item)
  | rankMovedReceive (l : Fin 36) (it : Item)
  | redoRequestReceive (l : Fin 36) (it : Item)
  | digestReceive (l : Fin 36) (it : Item)
  | repairRequestReceive (l : Fin 36) (it : Item)
  | exportAppend (id : Nat)
  -- memory
  | memUncorrectable (fastAddr : Nat)
  | dataRebuildDone (fastAddr : Nat)
  | repairLineReplace (ch : Fin 384) (line : Nat)
  | channelMapOut (ch : Fin 384) (cause : Fin 8)
  | slotMoveDone (slot : Fin 4096)
  | mapChangeAcked (slot : Fin 4096)
  | stackTempSample (m : Fin 24) (celsius : BitVec 8)
  | stackRetrainPark (m : Fin 24)
  | stackRetrainDone (m : Fin 24)
  | bdMissFill (entry : Nat)
  -- compression engines
  | streamContextGranted (engine : Fin 28)
  | engineQueueRelease (engine : Fin 28)
  | engineFence (engine : Fin 28)
  -- links
  | linkLock (l : Fin 36)
  | linkTrainingDone (l : Fin 36) (lanes : BitVec 4) (delayNs : Nat)
  | laneLost (l : Fin 36) (lane : Fin 4)
  | laneRetrainDone (l : Fin 36)
  | linkAckTimeout (l : Fin 36)
  | linkAutoRetrain (l : Fin 36)
  | frameTransmit (l : Fin 36)
  | frameReceive (l : Fin 36) (f : Frame)
  | segmentReceive (l : Fin 36) (sg : Segment)
  | abortReceive (l : Fin 36) (it : Item)
  | voidReceive (l : Fin 36) (it : Item)
  | resendReceive (l : Fin 36) (it : Item)
  | keyReadyReceive (l : Fin 36) (it : Item)
  | foldParkTimeout (l : Fin 36) (pass : Nat)
  | holdOutExpiry (l : Fin 36)
  | creditStallTimeout (l : Fin 36)
  | sorterFence (l : Fin 36)
  | linkFlushWrite (p : Port) (value : Word)
  | linkEnableWrite (p : Port) (l : Fin 36) (enable : Bool)
  | linkRetrainWrite (p : Port) (l : Fin 36)
  | linkReleaseWrite (p : Port) (l : Fin 36)
  | egressWmWrite (p : Port) (l : Fin 36) (value : W32)
  | linkFlagsClear (p : Port) (l : Fin 36) (value : BitVec 8) (coincident : BitVec 8)
  | retriedRead (p : Port) (l : Fin 36) (whole : Bool) (coincident : BitVec 32)
  | fecCorrectedRead (p : Port) (l : Fin 36) (whole : Bool) (coincident : BitVec 32)
  -- far links and pen pals
  | farFrameReceive (l : Fin 36) (f : FarFrame)
  | stripeOverdue (l : Fin 36) (stripe : BitVec 48)
  | repairRerequest (l : Fin 36) (stripe : BitVec 48)
  | farAckSend (l : Fin 36)
  | farAckReceive (l : Fin 36) (it : Item) (t3 : Word)
  | farResendReceive (l : Fin 36) (it : Item)
  | farSilenceTimeout (l : Fin 36)
  | pathOutOfContract (l : Fin 36)
  | pathBackInContract (l : Fin 36)
  | roundStateSend (pal : BitVec 16) (region : Nat)
  | roundStateReceive (l : Fin 36) (it : Item) (sender : Word) (region : Nat)
  | roundPullReceive (l : Fin 36) (it : Item) (sender : Word)
  | differenceReceive (l : Fin 36) (sender : Word) (group : BitVec 16) (record : List Byte)
  | roundMerge (region : Nat)
  | roundWaitTimeout (region : Nat) (site : Fin 8)
  | roundFormRelease (id : Nat)
  | palUnreachableTimeout (pal : BitVec 16)
  | farRekeyTimer (l : Fin 36)
  | keySlotExhausted (l : Fin 36)
  | kexDataReceive (l : Fin 36) (it : Item)
  | kexDoneReceive (l : Fin 36) (it : Item)
  | kexAbortReceive (l : Fin 36) (it : Item)
  | kexRequestReceive (l : Fin 36) (it : Item)
  | kexTimeout (l : Fin 36)
  | kexRetry (l : Fin 36)
  -- module faults, starts
  | memorySideDieLost (m : Fin 24)
  | moduleOffline
  | inputInRange
  | inputOutOfRange
  | modResetNLow
  | resetCtrlWarm (p : Port) (key : BitVec 16) (cold : Bool)
  | resetCtrlCold (p : Port) (key : BitVec 16) (warm : Bool)
  | warmHoldEnd
  | recoveryWarmStart
  | offlineRecoveryTimeout
  | stagePower
  | stageFirmware
  | stageClocks (ptpTime : Option Word)
  | stageMemory (trained : BitVec 384)
  | stageLinks
  | stageCores (goodSlots : BitVec 192)
  | rollCallPass
  | rollCallReceive (l : Fin 36) (it : Item)
  | rollCallResend (l : Fin 36)
  | leavingReceive (l : Fin 36) (it : Item)
  | leavingTimeout (sender : Word)
  | thermalTrip (sensor : Fin 10) (celsius : Int)
  -- time
  | ppsEdge
  | ptpMessage (domain : BitVec 8) (sync : Bool) (offsetNs : Int)
  | timeSourceLoss
  | holdoverExpiry
  | timeCtrlWrite (p : Port) (value : Word)
  | latchedRead (p : Port) (offset : BitVec 24) (size : Nat)
  -- SMBus
  | vin
  | iin
  | pin
  | temps
  | status
  | identity
  -- security mailbox
  | getIdentity (p : Port)
  | attest (p : Port)
  | fwStage (p : Port)
  | fwActivate (p : Port)
  | fwConfirm (p : Port)
  | fwStatus (p : Port)
  | getLog (p : Port)
  | mailboxResult (p : Port)
  | mbxStatusClear (p : Port) (value : Word) (coincident : Bool)
  | mbxFlagsClear (p : Port) (value : BitVec 4) (coincident : BitVec 4)
  -- flags and remaining registers
  | devFlagsClear (p : Port) (value : BitVec 29) (coincident : BitVec 29)
  | flagEnableWrite (p : Port) (value : BitVec 29)
  | chanBellClear (p : Port) (slot : Fin 4096) (coincident : Bool)
  | farFlagsClear (p : Port) (l : Fin 36) (value : BitVec 5) (coincident : BitVec 5)
  | farRepairedRead (p : Port) (l : Fin 36) (whole : Bool) (coincident : BitVec 32)
  | farContractWrite (p : Port) (l : Fin 36) (value : Word)
  | rcCfgWrite (p : Port) (value : W32)
  | rcDroppedRead (p : Port) (whole : Bool) (coincident : BitVec 32)
  | stackCountsRead (p : Port) (m : Fin 24) (size : Nat) (high : Bool) (coincident : Word)
  | memCtrlRetrain (p : Port) (m : Fin 32)
  | registerWrite (p : Port) (offset : BitVec 24) (size : Nat) (value : Word)
  | reportCardPlace (p : Port)
  | linkAvoidReview (l : Fin 36)
  | parkReturn (m : Fin 24)
  | portLinkDown (p : Port)
  | portLinkUp (p : Port) (width : BitVec 4) (speed : BitVec 4)
  | holdUpExhausted
  | tripSensorsCooled
  | ppsPresentLost
  | ref10PresentChange (present : Bool)
  | recordLands (binding : Nat) (unit : Nat)
  | writeBackAcknowledged (binding : Nat) (unit : Nat)
  | scrubSweepStart
  deriving DecidableEq, Repr

end Sys2Proof
end

