-- ==== Sys2Proof/Config.lean ====
section
/-!
DEFINITION. Config.lean: the values the spec leaves open, as constants with no body: nothing can be proved about what
they are, and every statement holds whatever they are. A fresh value each time is the constant applied to the counter
`free` of the state, which the step that draws it advances.
-/

namespace Sys2Proof

/-- Bytes of undefined contents: what an output holds where the spec says it holds no defined value
(notes/assumptions/6.md). -/
opaque Config.freeByte : Nat → BitVec 8

/-- A 64-bit value the spec leaves open: session numbers, random chunks, codes of unstated layout
(notes/assumptions/6.md). -/
opaque Config.freeWord : Nat → BitVec 64

/-- A choice the spec leaves open between two outcomes (notes/assumptions/6.md). -/
opaque Config.freeBit : Nat → Bool

/-- Falcon-1024 verification of a padded signature over a message under a public key (R401, R415): the published
standard, not reproduced by the spec (notes/assumptions/5.md). -/
opaque Config.falconVerify : List (BitVec 8) → List (BitVec 8) → List (BitVec 8) → Bool

/-- Falcon-1024 signature of a message with this device's attestation key, the third argument a fresh number
(notes/assumptions/5.md). -/
opaque Config.falconSign : List (BitVec 8) → List (BitVec 8) → Nat → List (BitVec 8)

/-- ML-KEM-1024 key pair of a 64-byte seed: encapsulation key (1,568 bytes) and decapsulation key
(notes/assumptions/5.md). -/
opaque Config.kemKeys : List (BitVec 8) → List (BitVec 8) × List (BitVec 8)

/-- ML-KEM-1024 encapsulation: ciphertext (1,568 bytes) and shared secret (32 bytes) of a key and a fresh number
(notes/assumptions/5.md). -/
opaque Config.kemEncaps : List (BitVec 8) → Nat → List (BitVec 8) × List (BitVec 8)

/-- ML-KEM-1024 decapsulation of a ciphertext with a decapsulation key (notes/assumptions/5.md). -/
opaque Config.kemDecaps : List (BitVec 8) → List (BitVec 8) → List (BitVec 8)

/-- The device secret the PUF yields (R411): known to no one outside the module (notes/assumptions/5.md). -/
opaque Config.deviceSecret : List (BitVec 8)

/-- The vendor's Falcon-1024 public key that the boot ROM holds (R415). -/
opaque Config.vendorKey : List (BitVec 8)

/-- Byte `i` of the identity record that module flash was given at manufacture: public key, digest of the KEM key, vendor
signature (R414; notes/assumptions/5.md). -/
opaque Config.identityByte : Nat → BitVec 8

/-- Byte `i` of the SHAKE256 digest of the boot ROM (Table 16-4; notes/assumptions/5.md). -/
opaque Config.romDigestByte : Nat → BitVec 8

/-- Byte `i` of the SHAKE256 digest of the variant record (Table 16-4; notes/assumptions/5.md). -/
opaque Config.variantDigestByte : Nat → BitVec 8

end Sys2Proof
end

