-- ==== Sys2Proof/Machine/State.lean ====
section
/-!
DEFINITION. Machine/State.lean: the whole state of the Kasyn as plain data, grouped by the unit that holds it, and
the machine right after reset. Each structure's docstring names the rules of spec/ that give its fields. Default
values of fields are the reset values; those the spec does not state are named in notes/assumptions/3.md.
-/

namespace Sys2Proof.Machine

/-! ## Time (chapters 01, 18, 19) -/

/-- The TCLK domain: DTIME (R12), Table 18-5, time inputs and holdover (R468, R469). `ticks` counts TCLK cycles since
power-on and is the model's own clock for RDCYC. -/
structure TimeSt where
  dtime : Word := 0
  ticks : Nat := 0
  firstLock : Bool := false
  source : BitVec 2 := 0
  timeLocked : Bool := false
  ppsPresent : Bool := false
  ref10Present : Bool := false
  slewing : Bool := false
  offset : Int := 0
  slewLeft : Int := 0
  slewPhase : Nat := 0
  sourceSel : BitVec 2 := 0
  ptpDomain : BitVec 8 := 0
  ppsCapture : Word := 0
  lastPps : Option Word := none
  ignoredPps : Nat := 0
  lastIgnored : Option Word := none
  lastPtp : Option Word := none
  lastSourceAt : Word := 0
  holdoverSince : Option Word := none
  clkLock : BitVec 31 := 0
  oscDisciplined : Bool := false
  deriving DecidableEq, Repr

/-! ## Variant, flash, bring-up, power (chapters 00, 15, 16, 19) -/

/-- The product variant (Table 00-1). -/
inductive Variant where
  | F
  | E
  | S
  deriving DecidableEq, Repr

/-- One entry of the channel map (Table 10-2). -/
structure MapEntry where
  channel : Nat
  position : Nat
  state : Nat
  homeChannel : Nat
  homePosition : Nat
  mark : Nat
  targetChannel : Nat
  targetPosition : Nat
  deriving DecidableEq, Repr

/-- A firmware image held in a slot (R416 to R418): whether it verifies, its SVN and its SHAKE256 digest. -/
structure FwImage where
  valid : Bool := true
  svn : BitVec 16 := 0
  digest : List Byte := []
  deriving DecidableEq, Repr

/-- The expected topology (R405, Table 15-6): its header fields, its devices (identity, site), edges, pairs and
domains. -/
structure Topology where
  generation : Word
  imageCrc : W32
  self : Nat
  devices : List (Word × Nat)
  edges : List (Nat × Nat × Nat × Nat × Bool)
  pairs : List (Nat × Nat)
  domains : List (Nat × List Nat)
  deriving DecidableEq, Repr

/-- Module flash and the defect map (R251, R393, R401 to R405, R414 to R418, R428). Core status: 0 good, 1 suspect,
2 defective. -/
structure FlashSt where
  variant : Variant := .F
  variantOk : Bool := true
  helperOk : Bool := true
  identityRecordOk : Bool := true
  identityRecord : List Byte := (List.range 3137).map Config.identityByte
  variantDigest : List Byte := (List.range 64).map Config.variantDigestByte
  romDigest : List Byte := (List.range 64).map Config.romDigestByte
  lastDtime : Word := 0
  slotA : FwImage := {}
  slotB : FwImage := {}
  activeB : Bool := false
  tryB : Option Bool := none
  tryCount : Nat := 0
  minSvn : BitVec 16 := 0
  counterWrites : Nat := 0
  lastKeySeq : Word := 0
  topology : Option Topology := none
  coreStatus : Tbl Nat := []
  laneFailed : Tbl Nat := []
  channelOut : List Nat := []
  stackIdentity : Tbl Word := []
  trainTemp : Tbl Nat := []
  physOf : Tbl Nat := []
  rewrites : Nat := 0
  map : List MapEntry := []
  cleanStop : Bool := false
  farMac : Tbl Nat := []
  recordsOk : Bool := true
  deriving DecidableEq, Repr

/-- Bring-up, reset control, power and telemetry (Table 15-1, R389 to R399, Tables 19-3 to 19-5, R471), and SCRATCH
(Table 18-2). Times are DTIME, `pins` are the last levels. -/
structure ModuleSt where
  stage : BitVec 4 := 0
  ready : Bool := false
  warm : Bool := false
  topologyWait : Bool := false
  timeUntraceable : Bool := false
  failStage : BitVec 4 := 0
  failCause : BitVec 4 := 0
  startMs : W32 := 0
  cause : BitVec 4 := 0
  coldReason : BitVec 8 := 0
  startTick : Nat := 0
  offline : Bool := false
  offlineTick : Nat := 0
  recoverable : Bool := false
  warmHold : Option Word := none
  stackPower : Bool := true
  inputInRange : Bool := true
  inputLostTick : Nat := 0
  holdUpExhausted : Bool := false
  pwrGood : Bool := false
  thermTrip : Bool := false
  tripCooled : Bool := true
  statusUnread : Bool := false
  smbResponse : List Byte := []
  scratch : Word := 0
  identity : Word := 0
  fwRunningB : Bool := false
  fwMeasure : List Byte := []
  fwBusyPort : Option Port := none
  leaving : List (Word × Word) := []
  pendingTopology : Option Topology := none
  scrubTick : Nat := 0
  deriving DecidableEq, Repr

/-! ## Channels, rings, completions (chapter 02) -/

/-- A submission ring (Table 02-4, R33). LOG2 0 is an absent ring. -/
structure Ring where
  base : Word := 0
  log2 : Nat := 0
  weight : Nat := 0
  head : W32 := 0
  tail : W32 := 0
  deriving DecidableEq, Repr

/-- The completion ring (Table 02-4, R38 to R40): `h` the last accepted CQ_HEAD, `w` the next entry to write. -/
structure CRing where
  base : Word := 0
  log2 : Nat := 0
  vector : Nat := 0
  irqEnable : Bool := false
  coalCount : Nat := 0
  coalUs : Nat := 0
  h : W32 := 0
  w : W32 := 0
  sinceMsg : Nat := 0
  oldest : Option Word := none
  deriving DecidableEq, Repr

/-- A completion waiting in the device (Table 02-10). -/
structure Compl where
  tag : Word
  status : BitVec 8
  opcode : BitVec 8
  ring : Nat
  detail : BitVec 16
  result0 : Word
  dtime : Word
  irq : Bool
  headSlot : Nat
  deriving DecidableEq, Repr

/-- A mapped 2 MiB page (R29): fast pages name a fast frame, slow pages a host address behind a port, alias pages a
page of another channel. -/
inductive PageKind where
  | fast (frame : Nat)
  | slow (p : Port) (host : Nat)
  | aliasOf (slot : Nat) (page : Nat)
  deriving DecidableEq, Repr

/-- A page of a channel's address space (R29). -/
structure Page where
  kind : PageKind
  readOnly : Bool
  deriving DecidableEq, Repr

/-- A live channel (R22 to R33, R40, R51, R192, R201, R420, Table 18-4). `running` falls when CHANNEL_DESTROY is fetched,
`tags` is the latest fetched descriptor of each tag (R44), `closing` the page ranges of UNMAPs that wait (R31), `routeU`
the count u of R179 by (layer, core index). -/
structure Chan where
  handle : W32
  cls : Nat
  owner : Port
  shared : Bool := false
  legacy : Bool := false
  fp16Ieee : Bool := false
  srBits : Nat := 8
  linkGbps : Nat := 0
  seed : Word := 0
  cores : List Nat := []
  rings : Vector Ring 8 := Vector.replicate 8 {}
  cq : CRing := {}
  waiting : List Compl := []
  lost : Nat := 0
  pages : Tbl Page := []
  groups : List Nat := []
  lessonGroups : List Nat := []
  tsuFull : Nat := 0
  tagTable : Tbl Word := []
  log : List (List Byte) := []
  logDigest : List Byte := List.replicate 32 0
  destroyId : Option Nat := none
  running : Bool := true
  force : Bool := false
  tags : List (Word × Nat) := []
  closing : List (Nat × Nat) := []
  routeU : List (Nat × Nat × Nat) := []
  deriving DecidableEq, Repr

/-- One of the 4,096 slots (R23, Table 18-4): the GEN its next or current channel carries, the last handle issued, the
BELL_ERROR flag and its counter, and the channel it holds. -/
structure Slot where
  gen : BitVec 16 := 1
  lastHandle : W32 := 0
  bellError : Bool := false
  bellCount : W32 := 0
  chan : Option Chan := none
  deriving DecidableEq, Repr

/-- Why the device holds a fetched descriptor. -/
inductive Hold where
  | fence
  | unmap
  | stepOpen
  | examOpen
  | ruleBind
  | wait
  | deskmate
  | admission
  | roundForm
  | commit
  | exporting
  | run
  | pass
  | destroy
  | notReady
  deriving DecidableEq, Repr

/-- A fetched descriptor that has not reached its final completion (R34, R47). `step` is the open step it belongs to
(R35), `waitOn` the descriptor a KIND 0 WAIT waits for, `since` the DTIME at which its hold began. -/
structure DescRec where
  id : Nat
  port : Port
  opcode : BitVec 8
  desc : Desc
  hold : Hold
  fetchedAt : Word
  group : Option Nat := none
  step : Option Word := none
  waitOn : Option Nat := none
  since : Word := 0
  replayed : Bool := false
  aux : Nat := 0
  deriving DecidableEq, Repr

/-! ## Ports (chapters 02, 16, 17, 18) -/

/-- A security mailbox (Table 16-2). `latched` is the command, tag, length and request taken at GO. -/
structure Mailbox where
  opcode : BitVec 8 := 0
  reqLength : BitVec 13 := 0
  tag : W32 := 0
  busy : Bool := false
  done : Bool := false
  result : BitVec 8 := 0
  respLength : BitVec 14 := 0
  statusTag : W32 := 0
  flags : BitVec 4 := 0
  counts : Vector W32 4 := Vector.replicate 4 0
  request : Tbl Byte := []
  response : List Byte := []
  latched : Option (BitVec 8 × Nat × W32 × List Byte) := none
  outcome : Option (Nat × List Byte) := none
  deriving DecidableEq, Repr

/-- A host port: link, fence, admin registers, MSI-X, mailbox, report ring, flag enables and the read latch
(Tables 17-1, 18-3, 18-7; R19 to R21, R431, R445, R450). `mem` is the host memory behind the port. -/
structure PortSt where
  linkUp : Bool := false
  width : BitVec 4 := 0
  speed : BitVec 4 := 0
  downSince : Option Word := none
  fenced : Bool := false
  fenceCount : W32 := 0
  adminEnable : Bool := false
  cfgError : Bool := false
  adminSqBase : Vector Word 8 := Vector.replicate 8 0
  adminSqCfg : Vector (BitVec 16) 8 := Vector.replicate 8 0
  adminCqBase : Word := 0
  adminCqCfg : Word := 0
  stale : List Compl := []
  mbxVector : BitVec 11 := 0
  mbxEn : Bool := false
  mailbox : Mailbox := {}
  rcBase : Word := 0
  rcLog2 : BitVec 5 := 16
  rcEnable : Bool := false
  rcIrq : Bool := false
  rcVector : BitVec 11 := 0
  rcWrite : Word := 0
  rcRead : Word := 0
  rcDropped : W32 := 0
  rcDroppedCard : Nat := 0
  cards : List (List Byte) := []
  flagEnable : BitVec 29 := 0
  flagVector : BitVec 11 := 0
  flagEn : Bool := false
  latch : Option (Nat × Nat × Nat) := none
  readData : Word := 0
  msixTable : Tbl W32 := []
  msixPending : List Nat := []
  bells : List (Nat × Nat × W32) := []
  mem : List Host.Cell := []
  deriving DecidableEq, Repr

/-! ## Cores and lesson places (chapters 04 to 07) -/

/-- The scalar state of every place (R134): s, a, token readiness, pc, engine scratch of link engines and memory-side
dies, instruction count base, and whether a lesson runs there. -/
structure Seq where
  running : Bool := false
  s : Vector Word 32 := Vector.replicate 32 0
  a : Vector (BitVec 48) 16 := Vector.replicate 16 0
  tok : Vector Bool 16 := Vector.replicate 16 true
  pc : Nat := 0
  code : List Word := []
  startTick : Nat := 0
  scratch : List Host.Cell := []
  stall : Option (Nat × Word) := none
  slotUntil : Option Word := none
  ops : List (Nat × Nat × Nat × Nat × Nat) := []
  passNo : Nat := 0
  deriving DecidableEq, Repr

/-- One physical 16 × 16 block of a weight bank (R99, R100): its selector and its expanded elements in row-major
order; an absent block is `none` in its bank. -/
structure WBlock where
  sel : Nat
  elems : List Fp
  deriving DecidableEq, Repr

/-- A weight bank (R82, R100, R101): the count P of packed K-tiles, the 64 physical blocks in index 8rb + cb, and the
64-bit non-finite mask. -/
structure Bank where
  p : Nat
  blocks : List (Option WBlock)
  nonFinite : BitVec 64
  deriving DecidableEq, Repr

/-- The state of a Tile Queue entry (Table 05-1). `waiting` is a pass that has issued and not yet reserved an entry
(R94); it is not held against the eight. -/
inductive EntrySt where
  | waiting
  | reserved
  | visible
  | draining
  | popping
  deriving DecidableEq, Repr

/-- A Tile Queue entry, or the accumulator of a pass that waits for one (R94 to R98, R106). `open'` while no pass with
CLOSE has issued into it, `used0` and `used1` the banks its passes were issued against, `bank` the bank and `closeSeq` the number of its closing
pass, `next` the lowest valid row not yet taken, `since` when it began to wait. -/
structure Entry where
  seq : Nat
  acc : Nat
  rows : Nat
  data : List (List W32)
  flags : BitVec 7
  trow : BitVec 16
  tcol : BitVec 16
  st : EntrySt
  open' : Bool
  used0 : Bool
  used1 : Bool
  bank : Bool
  next : Nat
  closeSeq : Nat := 0
  since : Word := 0
  deriving DecidableEq, Repr

/-- A DMA not yet complete (R145, R146): its direction, token, memory and Desk addresses, source bytes, formats, rounding,
codec and statistics tag; the bytes it will write, absent while a fence holds it (R151); its conversions' flags; and a
stream's rejection as DETAIL, row of Table 11-6 and device address (R289). -/
structure DmaOp where
  seq : Nat
  toMem : Bool
  tok : Option (Fin 16)
  mem : Nat
  desk : Nat
  len : Nat
  dlen : Nat
  sfmt : Nat
  dfmt : Nat
  round : Nat
  codec : Nat
  tag : Option Nat
  data : Option (List Byte)
  flags : BitVec 7
  engine : Option Nat := none
  fail : Option (Nat × Nat × Nat) := none
  deriving DecidableEq, Repr

/-- A NARROW not yet complete (R147, R256): FUNC, token, element type and its items as memory address, Desk address and
the 32 bytes captured, none while a fence holds it. -/
structure NarrowOp where
  seq : Nat
  func : Nat
  tok : Option (Fin 16)
  atype : Nat
  items : List (Nat × Nat × List Byte)
  late : Bool := false
  deriving DecidableEq, Repr

/-- A FILL not yet complete (R89, R90, R148): its bank and token, and the passes against that bank that still waited for
an entry when it issued. -/
structure FillOp where
  seq : Nat
  bank : Bool
  tok : Option (Fin 16)
  behind : List Nat
  deriving DecidableEq, Repr

/-- A DRAIN not yet complete (R91): the entry it takes, its token, and the flags its conversion raised. -/
structure DrainOp where
  seq : Nat
  entry : Nat
  tok : Option (Fin 16)
  deriving DecidableEq, Repr

/-- A prediction (R182 to R187). `st`: 0 fetching, 1 landed, 2 confirmed and copying, 3 squashed and draining. -/
structure Prediction where
  handle : Nat
  layer : Nat
  desk : Nat
  expertBytes : Nat
  experts : List Nat
  data : List Byte
  tok : Option (Fin 16)
  st : Nat
  resolved : Bool
  fenced : Bool
  bad : Bool
  deriving DecidableEq, Repr

/-- A dispatch-exchange operation not yet complete (R151, R153, R180): a ROUTE with its writes and their addresses, or
an XPOST with the number of its descriptor. -/
structure DispOp where
  seq : Nat
  tok : Option (Fin 16)
  writes : List (Nat × List Byte)
  xpost : Option Nat
  deriving DecidableEq, Repr

/-- An XPOST of a run (R153, R160): the post's ordinal within its core, its descriptor, registers and tokens, and the
status and result it returned. `live` falls at a rerun until the XPOST has issued again. -/
structure XpostRec where
  core : Nat
  nth : Nat
  desc : Nat
  sd : Nat
  ta : Option (Fin 16)
  tf : Option (Fin 16)
  answer : Option (Nat × Word) := none
  final : Bool := false
  live : Bool := true
  deriving DecidableEq, Repr

/-- An empty (reset) weight bank holds +0 unpacked, every block present, a clear non-finite mask (R99, R135). -/
def Bank.clear : Bank :=
  { p := 1
    blocks := (List.range 64).map fun i => some { sel := i / 8, elems := List.replicate 256 (.fin false 0 0) }
    nonFinite := 0 }

/-- The vector half of a core (R110, R125 to R127, Table 03-8): registers, masks, lane generators, STREAM, the three
flag words in the bit order of R48, the open output tile, and the flagged tiles closed. -/
structure VecSt where
  v : Vector (Vector W32 128) 32 := Vector.replicate 32 (Vector.replicate 128 0)
  m : Vector (BitVec 128) 8 := Vector.replicate 8 0
  gens : Vector Word 128 := Vector.replicate 128 1
  stream : Word := 0
  streamFlags : BitVec 7 := 0
  lessonFlags : BitVec 7 := 0
  tileFlags : BitVec 7 := 0
  otcRow : BitVec 16 := 0xFFFF
  otcCol : BitVec 16 := 0xFFFF
  flagged : Nat := 0
  firstFlagged : Option (BitVec 16 × BitVec 16) := none
  deriving DecidableEq, Repr

/-- The tile half of a core (R82 to R105): two banks, which is active, the Tile Queue in issue order, FILLs and DRAINs
in progress. -/
structure TileSt where
  bank0 : Bank := Bank.clear
  bank1 : Bank := Bank.clear
  active1 : Bool := false
  entries : List Entry := []
  fills : List FillOp := []
  drains : List DrainOp := []
  deriving DecidableEq, Repr

/-- A core by its logical number (R134, R152, R154, R182, R362 to R364). `event` are the counters e0 to e7, `desk` the
4 MiB Desk, `nseq` numbers the operations issued. The waits are those of POP, WAITEV, BAR, HALT and SETSTREAM. -/
structure Core where
  seq : Seq := {}
  vec : VecSt := {}
  tile : TileSt := {}
  desk : List Host.Cell := []
  event : Vector W32 8 := Vector.replicate 8 0
  run : Option Nat := none
  index : Nat := 0
  nseq : Nat := 0
  dmas : List DmaOp := []
  narrows : List NarrowOp := []
  disp : List DispOp := []
  preds : List Prediction := []
  predCount : Nat := 0
  xpostCount : Nat := 0
  signals : List (Nat × Nat) := []
  waitPop : Option (Nat × Nat) := none
  waitEv : Option (Nat × W32) := none
  waitBar : Option (Bool × List (Fin 16)) := none
  halting : Bool := false
  halted : Bool := false
  reseed : Option Word := none
  statTag : Option Nat := none
  lastIssueTick : Nat := 0
  deriving DecidableEq, Repr

/-- Counts of the Tensor Statistics Unit (R200): ELEMENTS, ZEROS, NONFINITE, SATURATIONS and MAX_MAG as FP32 bits. -/
structure Counts where
  elements : Nat := 0
  zeros : Nat := 0
  nonFinite : Nat := 0
  sats : Nat := 0
  maxMag : W32 := 0
  deriving DecidableEq, Repr

/-- A counter set given to a channel and tag (R201, R204, R205). -/
structure StatSet where
  slot : Nat
  tag : Nat
  merged : Counts := {}
  step : Counts := {}
  silentRun : Nat := 0
  lastElements : Nat := 0
  lastZeros : Nat := 0
  deriving DecidableEq, Repr

/-- A LESSON_RUN that has started (R27, R158 to R160, R172, R202, R365): its descriptor, cores, code and data, the
regions it declared, provisional statistics by tag, expert counts by (core index, layer, expert), ROUTE counts by (core
index, layer), the run count u and rows taken of R179 as (core index, layer, u, rows), rows deferred by (core index, layer), and
the posts of its XPOSTs. -/
structure Run where
  id : Nat
  desc : Nat
  slot : Nat
  cores : List Nat
  entry : Nat
  code : List Word
  dataDesk : Nat
  data : List Byte
  args : List Word
  ins : List (Nat × Nat)
  outs : List (Nat × Nat)
  group : Option Nat
  step : Option Word
  begun : Bool := false
  stop : Option (BitVec 8 × BitVec 16 × Word) := none
  gone : Bool := false
  rerun : Bool := false
  wroteOutside : Bool := false
  stats : List (Nat × Counts) := []
  expertCount : List (Nat × Nat × Nat × Nat) := []
  routeSeq : List (Nat × Nat × Nat) := []
  routeU : List (Nat × Nat × Nat × Nat) := []
  deferred : List (Nat × Nat × Nat) := []
  xposts : List XpostRec := []
  gradSat : Bool := false
  startedAt : Word := 0
  deriving DecidableEq, Repr

/-- What the Expert Dispatchers have loaded of a channel's expert page (R166 to R170), and the step it was loaded for:
the header, layer entries and routing entries as raw words of Tables 07-2 to 07-4. -/
structure ExpertPage where
  slot : Nat
  step : Option Word
  header : Word
  layers : List (Word × Word × Word × Word)
  routes : List (Word × Word)
  deriving DecidableEq, Repr

/-! ## Groups and steps (chapters 01, 08, 12, 14) -/

/-- The numerics control header as read at STEP_OPEN (Table 08-1). -/
structure ScaleCtl where
  fixed : Bool := false
  fixedCode : Nat := 0
  minCode : Nat := 0
  maxCode : Nat := 0
  growth : Nat := 0
  fast : Nat := 0
  rollbackLimit : Nat := 0
  satIgnore : Bool := false
  deriving DecidableEq, Repr

/-- A COMMIT_REPORT held or sent (Table 14-5). -/
structure Report where
  low : Nat
  ok : Bool
  overflow : Bool
  sat : Bool
  fault : Bool
  members : Nat
  crc : Word
  deriving DecidableEq, Repr

/-- A commit decision as it travels (R195, R377, Table 14-5): whether the step commits, whether it overflowed or hit a
fault, the new scale state, and its DTIME. -/
structure Decision where
  commit : Bool
  overflow : Bool
  e : Int
  fast : Bool
  clean : Nat
  rollbacks : Nat
  time : Word
  deriving DecidableEq, Repr

/-- A group on this device (R14, R45, R191 to R198, R306, R376 to R384). The scale is 2^e. `holders` records ranks moved
to other identities, `absent` taken-over ranks, `protected'` the step's protected input regions by slot, `early` the segments
and `voids` the VOIDs of ordinals not yet admitted here, `voidsSeen` those passed on, `refused` the ordinals this device refused (R307),
`heard` when each rank was last heard of, `stepSrc` the sources of the step's exchanges as (ordinal, slot, SRC, bytes, element bytes), `stepOuts` the
regions by slot that its lessons and moves write (Table 10-3), `copyCrcs` the working-copy value of each owner (R385). -/
structure Group where
  id : Nat
  rank : Nat
  sizeM1 : Nat
  sites : Nat
  members : List Word
  lastStep : Word
  open' : Option Word := none
  openSlot : Nat := 0
  ordinals : Nat := 0
  scaleKnown : Bool := false
  origin : Nat := 3
  e : Int := 16
  scaleUsed : Int := 16
  clean : Nat := 0
  fast : Bool := true
  rollbacks : Nat := 0
  ctl : ScaleCtl := {}
  protected' : List (Nat × Nat × Nat) := []
  overflow : Bool := false
  gradSat : Bool := false
  faulted : Bool := false
  faultedPass : Bool := false
  committing : Option Nat := none
  reported : Bool := false
  reports : List Report := []
  decided : Bool := false
  ackSeq : Option Nat := none
  decision : Option Decision := none
  satStep : Bool := false
  holders : List (Nat × Word) := []
  absent : List Nat := []
  lost : Bool := false
  freshBytes : Nat := 0
  forwarded : List (Nat × Nat) := []
  stepPasses : List (Nat × Nat × Nat) := []
  committedSince : Nat := 0
  backward : Option Word := none
  firstFuse : Option Word := none
  lastRunEnd : Option Word := none
  lastPassEnd : Option Word := none
  reportAt : Option Word := none
  openedAt : Word := 0
  replayed : Bool := false
  growthSet : Option Nat := none
  overflowSteps : List Word := []
  leaveHold : List Word := []
  repairs : Nat := 0
  early : List Segment := []
  voids : List (Nat × BitVec 8 × BitVec 16 × Word) := []
  voidsSeen : List Nat := []
  refused : List Nat := []
  heard : Tbl Word := []
  stepSrc : List (Nat × Nat × Nat × Nat × Nat) := []
  stepOuts : List (Nat × Nat × Nat) := []
  copyCrcs : Tbl Word := []
  deriving DecidableEq, Repr

/-- An exam window (R18, R216, R374); `gap` once a record it needs has been overwritten (R370);
`saved` the pages replaced by private `frames` that hold an earlier version (R374). -/
structure Exam where
  id : Nat
  slot : Nat
  group : Nat
  version : Word
  opened : Word := 0
  gap : Bool := false
  saved : List (Nat × Page) := []
  frames : List Nat := []
  deriving DecidableEq, Repr

/-! ## The parameter update (chapter 09) -/

/-- The coefficients of one step (R228): LR, WD, BETA1, BETA2, EPS, EPS1, omb1, omb2, bc1, bc2 as FP32 codes and c. -/
structure Coef where
  lr : W32 := 0
  wd : W32 := 0
  beta1 : W32 := 0
  beta2 : W32 := 0
  eps : W32 := 0
  eps1 : W32 := 0
  omb1 : W32 := 0
  omb2 : W32 := 0
  bc1 : W32 := 0
  bc2 : W32 := 0
  c : W32 := 0
  deriving DecidableEq, Repr

/-- A stripe record (Table 09-2): STRIPE_STEP, 1,024 masters, moments m and v. -/
structure Stripe where
  step : Word
  w : List W40
  m : List W32
  v : List W32
  deriving DecidableEq, Repr

/-- A block record of rules 4 and 5 (Tables 09-2, 09-3). -/
structure Block where
  step : Word
  statCount : Nat := 0
  fails : Nat := 0
  mode : Nat := 1
  rootValid : Bool := false
  rootStep : Word
  damp : W32
  successes : Nat := 0
  row : List W32
  col : List W32
  lstat : List W32 := []
  rstat : List W32 := []
  lroot : List W32 := []
  rroot : List W32 := []
  deriving DecidableEq, Repr

/-- A Block Directory entry (Table 10-8). -/
structure BdEntry where
  touched : Word := 0
  lastStep : Word := 0
  band : Nat := 0
  slotBase : Nat := 0
  offset : Nat := 0
  binding : Nat := 0
  rule : Nat := 0
  tier : Nat := 0
  valid : Bool := false
  fetching : Bool := false
  chanSlot : Nat := 0
  deriving DecidableEq, Repr

/-- A binding (R219 to R223, R228, R241 to R243). `hyper` holds the eight words of Table 09-1 as bound, `ring` the
coefficient ring at step mod 4,096, `staged` the units in transit with their gradients, `writeBack` those whose
write-back is not yet acknowledged, `stageUsed` the staging bytes in use, and `frames` the fast frames of its state. -/
structure Binding where
  num : Nat
  slot : Nat
  base : Nat
  count : Nat
  rule : Nat
  fmt : Nat
  hyperVa : Nat
  hyper : List Word
  group : Nat
  lbase : Nat
  bindStep : Word
  dirFirst : Nat
  frames : Nat
  ring : Tbl Coef := []
  stripes : Tbl Stripe := []
  blocks : Tbl Block := []
  staged : List (Nat × List W32) := []
  writeBack : List Nat := []
  stageUsed : Nat := 0
  touchedNow : List Nat := []
  deriving DecidableEq, Repr

/-- A gradebook record (Tables 14-2, 14-3). `undone` marks one that a rollback has applied. -/
structure JRec where
  kind : Nat
  journal : Nat
  step : Word
  binding : Nat
  mirror : Bool
  unit : Nat
  seq : Nat
  postCrc : Word
  chain : Word
  payload : List Byte
  undone : Bool := false
  deriving DecidableEq, Repr

/-- A journal of one memory-side die (R366 to R370); `lost` is the latest step of a record it has overwritten. -/
structure Journal where
  seq : Nat := 0
  chain : Word := 0
  lost : Option Word := none
  records : List JRec := []
  deriving DecidableEq, Repr

/-- A DELTA_EXPORT in progress (R372). -/
structure ExportSt where
  id : Nat
  slot : Nat
  dst : Nat
  size : Nat
  fromStep : Word
  lastAtFetch : Word
  continuous : Bool
  nextStep : Word
  write : Word
  gaps : Word
  deriving DecidableEq, Repr

/-- The NMU side of the device: bindings, the Block Directory and its caches, journals, exports, exam windows. Cache
lines are (entry, dirty), most recently used first, per compute die. -/
structure NmuSt where
  bindings : List Binding := []
  nextBinding : Nat := 0
  dir : Tbl BdEntry := []
  cache : Vector (List (Nat × Bool)) 4 := Vector.replicate 4 []
  misses : List Nat := []
  journals : Vector Journal 24 := Vector.replicate 24 {}
  exports : List ExportSt := []
  exams : List Exam := []
  nextExam : Nat := 0
  nmuFlags : BitVec 7 := 0
  deriving DecidableEq, Repr

/-! ## Memory (chapter 10) -/

/-- A memory channel (R247, R257 to R261, R265): out of service, lane corrections as (repair line, DTIME), uncorrectable
events, spare lines used, poisoned block addresses, failed trainings. -/
structure ChanMem where
  out : Bool := false
  corrections : List (Nat × Word) := []
  uncorrectable : List Word := []
  sparesUsed : Nat := 0
  poison : List Nat := []
  trainFails : Nat := 0
  deriving DecidableEq, Repr

/-- A stack (R265 to R267, Table 18-6): temperature, STACK_STATUS.LEVEL, RC counts, the phase of its retraining (0 none, 1
parking, 2 training, 3 returning; 16 + 4k and the phase when channel k is retrained alone), since when it has been 10 °C
away, since when it has been parked at or below 80 °C, and whether the Policy Engine parked it. -/
structure StackSt where
  temp : BitVec 8 := 0
  level : Nat := 0
  powered : Bool := true
  laneCorrected : W32 := 0
  uncorrectable : W32 := 0
  retraining : Nat := 0
  driftSince : Option Word := none
  parkedAt : Option Word := none
  parkedPolicy : Bool := false
  deriving DecidableEq, Repr

/-- The fast tier (R246 to R267): contents by fast address, free frames, the channel map in slot order, what is being
moved as (slot, kind) in queue order (kind 0 a map-out, 1 a drain, 2 parking for retraining, 3 parking by policy, 4 the way
home), the old places (slot, channel, position) that some copy of the map still names, channels and stacks, and the 64-byte
blocks whose data is being rebuilt (R259). -/
structure MemSt where
  fast : List Host.Cell := []
  framesUsed : List Nat := []
  privateFrames : Nat := 0
  map : List MapEntry := []
  moving : List (Nat × Nat) := []
  acks : List (Nat × Nat × Nat) := []
  chans : Tbl ChanMem := []
  stk : Vector StackSt 24 := Vector.replicate 24 {}
  pendingErr : List Nat := []
  moveShare : Nat := 32
  deriving DecidableEq, Repr

/-! ## Compression engines (chapter 11) -/

/-- The state of a decoder of one stream (R283, R288): its table slots as (slot, TABLE_ID, code lengths of symbols 0 to
256), the last TABLE_ID seen, and the next block's number and raw offset. -/
structure Decoder where
  tables : List (Nat × Nat × List Nat) := []
  last : Option Nat := none
  seq : Nat := 0
  off : Nat := 0
  deriving DecidableEq, Repr

/-- A compression engine (R272, R273, R289, R291): numbers 0 to 15 are memory-path, 16 to 27 wire-path. `waiting` are
streams without a context, `open'` streams with one, `failures` the counters of Table 11-6 in row order. -/
structure Engine where
  open' : List Nat := []
  waiting : List Nat := []
  queue : Nat := 0
  heldBytes : List (Nat × Nat) := []
  failures : Vector W32 7 := Vector.replicate 7 0
  fenced : Bool := false
  raw : Nat := 0
  stored : Nat := 0
  steps : Nat := 0
  deriving DecidableEq, Repr

/-! ## Links (chapters 12, 13, 16) -/

/-- A segment waiting to leave (R302, R322): its pass plus one, zero when it is no segment of this device's own passes; its
number in the pass's plan; order keys and content. `promise`, `prio` and `order` order the sorter. -/
structure OutSeg where
  pass : Nat
  num : Nat
  promise : Word
  prio : Nat
  order : Nat
  coll : Nat
  group : Nat
  level : Nat
  ordinal : Word
  element : Nat
  sig : W32
  srcRank : Nat
  dstRank : Nat
  postUs : Nat
  coded : Bool
  data : List Byte
  deriving DecidableEq, Repr

/-- A key slot of one direction (R303, R426): its key and direction constant, items carried, and when it came into
use. -/
structure KeySlot where
  key : BitVec 256 := 0
  const : W32 := 0
  valid : Bool := false
  items : Nat := 0
  since : Word := 0
  deriving DecidableEq, Repr

/-- A key agreement in progress (R424, R425): session, role, the slot it fills, its start, chunks received, the two messages,
the decapsulation key of the initiator, the 72 bytes derived, and the partner proved. -/
structure Kex where
  session : Word
  initiator : Bool
  slot : Bool
  started : Word
  inMsg : Tbl (List Byte) := []
  offer : List Byte := []
  accept : List Byte := []
  dk : List Byte := []
  keys : List Byte := []
  partner : Word := 0
  doneSent : Bool := false
  deriving DecidableEq, Repr

/-- The far half of a far-capable link (Tables 13-7, 13-9, R347 to R355): its registers, the stripe being sent with its
shard images, repairs to send and how often each shard was sent again, the retransmit buffer, stripes received with their shard
images, parity and first arrival, the last frame's DTIME_TX and arrival, delay samples of both directions, and its key state. -/
structure FarSt where
  peerMac : BitVec 48 := 0xFFFFFFFFFFFF
  mac : BitVec 48 := 0
  delayMaxUs : BitVec 13 := 1000
  lossMax : BitVec 16 := 1024
  parity : Nat := 4
  fwdNs : W32 := 0
  revNs : W32 := 0
  rttNs : W32 := 0
  repaired : W32 := 0
  flags : BitVec 5 := 0
  counts : Vector W32 5 := Vector.replicate 5 0
  txStripe : Nat := 0
  txShard : Nat := 0
  txParity : Nat := 4
  txBody : List (Nat × List Byte) := []
  repairQ : List (Nat × Nat) := []
  sentAgain : List (Nat × Nat × Nat) := []
  retransmit : Tbl (List (Nat × List Byte)) := []
  nextStripe : Nat := 0
  rxStripes : Tbl (List (Nat × List Byte) × Nat × Word) := []
  resent : List (Nat × Word) := []
  freeMib : Nat := 1024
  lastFrame : Word := 0
  lastArrival : Word := 0
  heardAt : Word := 0
  ackAt : Word := 0
  peerLocked : Bool := true
  delays : List (Word × Nat) := []
  fwds : List (Word × Nat) := []
  delayOff : Bool := false
  skewSince : Option Word := none
  overSince : Option Word := none
  outOfContract : Bool := false
  inContractSince : Option Word := none
  psk : List Byte := []
  pskId : W32 := 0
  reserved : Bool := false
  keyNext : Option Bool := none
  rekeyLate : Bool := false
  deriving DecidableEq, Repr

/-- A link (R294 to R329, Table 12-11, R403). `state` is the code of Table 12-2, `leaving` the segment that has begun to leave with
its bytes still to go, `unacked` those that have left with the number of their last frame or stripe, `rxData` the data-stream
bytes received in order and not yet taken as items, `transit` segments kept in the receive buffer for a held link, `win` and `last` the
frames and the resent or repaired ones of the current second and of the one before, `ctlGap` the frames that must pass before the
next control frame while data waits, `proved` the identity proved at this agreement. -/
structure Link where
  state : Nat := 0
  lanes : BitVec 4 := 0
  enable : Bool := true
  ctlCrypto : Bool := false
  ctlFar : Bool := false
  crypto : Bool := false
  keyTx : Bool := false
  keyRx : Bool := false
  sorterFenced : Bool := false
  hold : Bool := false
  farActive : Bool := false
  highKib : Nat := 3072
  lowKib : Nat := 2048
  flags : BitVec 8 := 0
  counts : Vector W32 8 := Vector.replicate 8 0
  retried : W32 := 0
  fecCorrected : W32 := 0
  partner : Word := 0
  partnerLink : Nat := 0
  delayNs : Nat := 0
  egress : List OutSeg := []
  leaving : Option (OutSeg × List Byte) := none
  unacked : List (OutSeg × Word) := []
  control : List Item := []
  ctlGap : Nat := 0
  txSeq : W32 := 0
  txAcked : W32 := 0
  txAckedAt : Word := 0
  retry : List (W32 × Frame × Nat) := []
  resend : List (W32 × Frame × Nat) := []
  rxNext : W32 := 0
  rxBad : Bool := false
  nakDue : Bool := false
  credit : Nat := 0
  sentSinceCredit : Nat := 0
  creditZeroSince : Option Word := none
  rxData : List Byte := []
  transit : List (Nat × OutSeg) := []
  winStart : Word := 0
  winFrames : Nat := 0
  winRetried : Nat := 0
  lastFrames : Nat := 0
  lastRetried : Nat := 0
  txKeys : Vector KeySlot 2 := Vector.replicate 2 {}
  rxKeys : Vector KeySlot 2 := Vector.replicate 2 {}
  rxNonce : Vector (Option Word) 2 := Vector.replicate 2 none
  txNonce : Vector Nat 2 := Vector.replicate 2 0
  tagFails : List Word := []
  formFails : List Word := []
  discards : List (Word × Nat) := []
  holdOutS : Nat := 0
  holdOutAt : Word := 0
  downAt : Word := 0
  retrainUntil : Option Word := none
  kex : Option Kex := none
  kexRetryAt : Option Word := none
  rollJudged : Bool := false
  rollOutcome : Nat := 0
  rollReady : Bool := false
  rollItem : Option Item := none
  proved : Word := 0
  rollSentAt : Word := 0
  flushes : Nat := 0
  avoidedAt : Option Word := none
  far : FarSt := {}
  pacePin : Bool := false
  deriving DecidableEq, Repr

/-- A value at a node of the rank tree (R209, R309): element, level, node index, FP32 or integer bits, when it arrived, and
whether it is parked in fast memory. -/
structure NodeVal where
  elem : Nat
  level : Nat
  node : Nat
  val : Word
  since : Word := 0
  parked : Bool := false
  deriving DecidableEq, Repr

/-- A pass: an EXCHANGE or ROUND_SEND from its fetch to its final status (R306 to R313, R315, R317). `outstanding` are the
numbers of its segments not yet sent and acknowledged, `queued` those that have been queued or delivered, `got` the
(rank, LEVEL, element) of the segments received, `arrivals` their count. `late` is the cause row of Table 12-7. -/
structure Pass where
  id : Nat
  desc : Nat
  slot : Nat
  tag : Word
  ring : Nat
  group : Nat
  ordinal : Nat
  coll : Nat
  op : Nat
  fmt : Nat
  fuse : Bool
  codecOk : Bool
  prio : Nat
  src : Nat
  dst : Nat
  length : Nat
  root : Nat
  deadline : Word
  postedAt : Word
  step : Option Word
  sig : W32
  srcData : List Byte
  admitted : Bool := false
  promise : Word := 0
  eVal : Nat := 0
  wire : Nat := 0
  order : Nat := 0
  links : List Nat := []
  outstanding : List Nat := []
  queued : List Nat := []
  got : List (Nat × Nat × Nat) := []
  arrivals : Nat := 0
  coded : Bool := false
  nodes : List NodeVal := []
  written : Nat := 0
  journalled : List Nat := []
  flags : BitVec 7 := 0
  firstFlag : Option Nat := none
  rerouted : Bool := false
  late : Option Nat := none
  lateRank : Nat := 0
  engine : Option Nat := none
  parkFrames : Nat := 0
  staging : Nat := 0
  delivered : Bool := false
  round : Option Nat := none
  recvBytes : List (Nat × Nat) := []
  deriving DecidableEq, Repr

/-- A calibration record (R318): kind 0 throughput, 1 route latency, 2 fold level, 3 ratio, 4 engine rate, 5 thermal. -/
structure Calib where
  kind : Nat
  subject : Nat
  value : Nat
  load : Nat
  samples : Nat
  at' : Word
  deriving DecidableEq, Repr

/-! ## Pen pals (chapter 13) -/

/-- A pen pal (R334, R356, R330): its definition, when its ROUND_STATE last came, the norms accepted of it, newest last, and the
rounds rejected in a row. -/
structure Pal where
  id : Nat
  partner : Word
  localSteps : Nat
  staleness : Nat
  farLinks : BitVec 4
  ethertype : BitVec 16
  lastState : Option Word := none
  reachable : Bool := false
  norms : List W32 := []
  rejected : Nat := 0
  deriving DecidableEq, Repr

/-- A difference record held in the ledger (R342, R343, R357): kept chunks as (chunk, 32 FP32 codes), and the record's bytes; no
bytes where the site counts as held empty (R358, R360). -/
structure DiffRec where
  round : Nat
  site : Nat
  empty : Bool
  stale : Nat
  chunks : List (Nat × List W32)
  bytes : List Byte
  deriving DecidableEq, Repr

/-- The round state of one parameter (Table 13-3); references are (round, M40). -/
structure RoundParam where
  af : W40
  bf : W32
  a : W40
  bm : W32
  e : W32
  c : List (Nat × W40)
  deriving DecidableEq, Repr

/-- A region of a pen-pal channel (R335 to R346, R356 to R360). `header` is the control header it was opened with, `lrMu` the
OUTER_LR, OUTER_MU and CONFIG_CRC of each round formed, `mergedSets` the sites held at each provisional merge, `unreachFor` the
(round, site) that count as unreachable, `localChange` a round length decided and the first round it applies to, `openId` the
ROUND_SEND 0 that waits, `joining` the site whose anchor was pulled, `said` what each site last reported (ROUND_SENT,
ROUND_FINAL, digest, DRIFTED), `stateSent` when each site was last told and what, `acked` the (round, site) acknowledged,
`frames` the fast frames of its state, and `current` whether the channel's latest ROUND_SEND named it. -/
structure Region where
  num : Nat
  slot : Nat
  base : Nat
  length : Nat
  binding : Nat
  firstParam : Nat
  header : List Word
  group : Nat
  site : Nat
  outerRule : Nat
  driftRounds : Nat
  roundWaitS : Nat
  pals : List Nat
  ledgerVa : Nat
  ledgerBytes : Nat
  roundSent : Nat := 0
  roundMerged : Nat := 0
  roundFinal : Nat := 0
  localSteps : Nat := 0
  localChange : Option (Nat × Nat) := none
  drifted : Nat := 0
  joined : Bool := false
  params : List RoundParam := []
  lrMu : Tbl (W32 × W32 × W32) := []
  ledger : List DiffRec := []
  mergedSets : Tbl (List Nat) := []
  unreachFor : List (Nat × Nat) := []
  stepsSince : Nat := 0
  openId : Option Nat := none
  joining : Option Nat := none
  sites : Nat := 1
  said : Tbl (Nat × Nat × W32 × Nat) := []
  stateSent : Tbl (Word × List Word) := []
  acked : List (Nat × Nat) := []
  frames : Nat := 0
  current : Bool := false
  deriving DecidableEq, Repr

/-! ## Deskmate (chapter 14) -/

/-- The deskmate pair (R379 to R386): partner and state of the pair, heartbeats by mirror link, own records not yet queued and not
yet acknowledged, the mirror of the partner (for each journal the last record applied in order, records applied ahead of it, unit
bytes by binding and unit, its SHARD_CRC and the step it is mirrored through), a record arriving in parts on each link, ranks
taken over, and units being resolved. -/
structure MateSt where
  partner : Option Word := none
  formed : Bool := false
  degraded : Bool := false
  dissolving : Option Nat := none
  reservedFrames : Nat := 0
  lastBeat : Vector (Option Word) 2 := Vector.replicate 2 none
  sentBeat : Vector Word 2 := Vector.replicate 2 0
  mirrorLink1 : Bool := false
  toSend : List JRec := []
  unacked : List JRec := []
  ackedSeq : Vector (Option Nat) 24 := Vector.replicate 24 none
  mirrorAt : Vector (Option Nat) 24 := Vector.replicate 24 none
  ahead : List (Nat × Nat) := []
  parts : Vector (List Byte) 2 := Vector.replicate 2 []
  units : List (Nat × Nat × List Byte) := []
  mirrorCrc : Word := 0
  mirrorStep : Word := 0
  takeoverAsked : Bool := false
  takenOver : List (Nat × Nat) := []
  repairing : List (Nat × Nat) := []
  deriving DecidableEq, Repr

/-! ## Report cards and policy (chapter 17) -/

/-- An event record (R436). -/
structure EventRec where
  code : Nat
  dtime : Word
  args : List Nat
  deriving DecidableEq, Repr

/-- A decision record (R440). -/
structure DecisionRec where
  setting : Nat
  applied : Bool
  group : Nat
  dtime : Word
  subject : Nat
  old : Nat
  new : Nat
  trigger : Nat
  measured : Nat
  deriving DecidableEq, Repr

/-- A group's entry of the POLICY_LIMITS image (Table 17-8); the defaults forbid every setting. -/
structure PolicyEntry where
  group : Nat
  forbid : Nat := 0x7F
  postSkewUs : Nat := 10
  grainUs : Nat := 50
  localMin : Nat := 1
  localMax : Nat := 4096
  scaleMin : Nat := 1
  scaleMax : Nat := 254
  growthMin : Nat := 1
  growthMax : Nat := 65535
  minRatio : Nat := 256
  avoidRatio : Nat := 0
  avoidMax : Nat := 0
  swapsMax : Nat := 0
  dropLimit : Nat := 255
  deriving DecidableEq, Repr

/-- The report card in the making and the Policy Engine (R432 to R443). Counter words are those of Table 17-3 in order;
stalls are (cause, count, ns); `policy` are the limits in force, `nextPolicy` an accepted image whose other limits wait for each group's
step boundary (R442); `routeDrops` counts by (channel, layer, expert) the rows that named it and those dropped or deferred (R439). -/
structure CardSt where
  seq : Nat := 0
  counters : Vector Nat 14 := Vector.replicate 14 0
  events : List EventRec := []
  decisions : List DecisionRec := []
  stalls : List (Nat × Nat × Nat) := []
  boundary : Word := 0
  deviceForbid : Nat := 0x7F
  moveMin : Nat := 32
  moveMax : Nat := 32
  parkMax : Nat := 1
  policy : List PolicyEntry := []
  nextPolicy : Option (List PolicyEntry) := none
  routeDrops : List (Nat × Nat × Nat × Nat × Nat) := []
  deriving DecidableEq, Repr

/-! ## The whole state -/

/-- Why a step stops for good. -/
inductive Fault where
  /-- Raised by a command that WellFormed refuses, and by no other: a lesson instruction whose word carries another MAJOR or FUNC
  than its row, or UNDEFINED_OPCODE with an opcode that is defined. Such a term names another command's work. Safe. -/
  | illFormed
  deriving DecidableEq, Repr

/-- Why a command has no meaning in the model. -/
inductive Refusal where
  /-- Raised by an arm of Machine/Dispatch.lean whose command has no meaning yet. Safe. -/
  | notModelled (mnemonic : String)
  deriving DecidableEq, Repr

/-- The state of the block. `pending` is the queue of waiting commands, first in first out. `free` is the model's own
counter of free values drawn (Config.lean). `msix` lists the messages sent as (port is B, vector), `sentFrames` and
`sentFar` what left on the links and far links, newest last. -/
structure State where
  pending : List Instr := []
  free : Nat := 0
  time : TimeSt := {}
  mod : ModuleSt := {}
  flash : FlashSt := {}
  portA : PortSt := {}
  portB : PortSt := {}
  slots : Tbl Slot := []
  descs : List DescRec := []
  nextDesc : Nat := 0
  cores : Tbl Core := []
  linkSeq : Tbl Seq := []
  memSeq : Tbl Seq := []
  runs : List Run := []
  expertPages : List ExpertPage := []
  stats : List StatSet := []
  groups : List Group := []
  nmu : NmuSt := {}
  memory : MemSt := {}
  engines : Tbl Engine := []
  links : Tbl Link := []
  passes : List Pass := []
  nextPass : Nat := 0
  calib : List Calib := []
  pals : List Pal := []
  regions : List Region := []
  mate : MateSt := {}
  card : CardSt := {}
  devFlags : BitVec 29 := 0
  devCounts : Vector W32 29 := Vector.replicate 29 0
  msix : List (Bool × Nat) := []
  sentFrames : List (Nat × Frame) := []
  sentFar : List (Nat × FarFrame) := []
  deriving DecidableEq, Repr

/-- The machine right after reset: a cold start has begun (R389, R392), stage 0, every register at the reset value of
its table, nothing in memory, and module flash as it left manufacture (notes/assumptions/3.md). -/
def State.reset : State := {}

end Sys2Proof.Machine
end

