-- ==== Sys2Proof/Machine/Formats.lean ====
section
/-!
DEFINITION. Machine/Formats.lean: the number formats of chapter 03, their exact values, and the one encoding step of
every conversion (R52 to R73). Format codes are those of Table 02-7; code 0x40 is the model's own name for IEEE
binary64, which chapter 09 uses for coefficients.
-/

namespace Sys2Proof.Machine

/-! ## Bytes -/

/-- The number a little-endian byte list holds (R4). -/
def leNat : List Byte → Nat
  | [] => 0
  | b :: bs => b.toNat + 256 * leNat bs

/-- The low `n` bytes of a number, least significant first (R4). -/
def leBytes : Nat → Nat → List Byte
  | 0, _ => []
  | n + 1, v => BitVec.ofNat 8 v :: leBytes n (v / 256)

/-- The bytes of a 64-bit word (R4). -/
def wordBytes (w : Word) : List Byte := leBytes 8 w.toNat

/-- A list cut into pieces of `n` elements, `k` pieces at most. -/
def chunksOf {α : Type} (n : Nat) : Nat → List α → List (List α)
  | 0, _ => []
  | _ + 1, [] => []
  | k + 1, x :: xs => (x :: xs).take n :: chunksOf n k ((x :: xs).drop n)

/-- A list cut into pieces of `n` elements, the last possibly shorter. -/
def chunks {α : Type} (n : Nat) (xs : List α) : List (List α) := chunksOf n xs.length xs

/-- An element put before the first one that it does not follow. -/
def insertBy {α : Type} (le : α → α → Bool) (x : α) : List α → List α
  | [] => [x]
  | y :: r => if le x y then x :: y :: r else y :: insertBy le x r

/-- A list in order, equal elements in the order they had. -/
def sortBy {α : Type} (le : α → α → Bool) (xs : List α) : List α := xs.foldr (insertBy le) []

/-- The sum of a list of numbers. -/
def sumNat (xs : List Nat) : Nat := xs.foldl (· + ·) 0

/-- The quotient rounded up. -/
def ceilDiv (a b : Nat) : Nat := (a + b - 1) / b

/-! ## Flags in the bit order of R48 -/

def flagINV : BitVec 7 := 0x01
def flagDZ : BitVec 7 := 0x02
def flagOF : BitVec 7 := 0x04
def flagUF : BitVec 7 := 0x08
def flagNX : BitVec 7 := 0x10
def flagSAT : BitVec 7 := 0x20
def flagEMPTY : BitVec 7 := 0x40

/-- The flags that turn DONE into DONE_FLAGGED: INV, DZ, OF, SAT and EMPTY, not UF and NX (R48). -/
def flagged (f : BitVec 7) : Bool := decide (f &&& 0x67 ≠ 0)

/-! ## Layouts (Tables 03-1 and 03-2) -/

/-- Exponent bits, fraction bits and bias of a floating-point format code. -/
def layOf : Nat → Option (Nat × Nat × Nat)
  | 0x01 => some (8, 23, 127)
  | 0x02 => some (8, 7, 127)
  | 0x03 => some (5, 10, 15)
  | 0x04 => some (4, 3, 7)
  | 0x05 => some (5, 2, 15)
  | 0x06 => some (2, 1, 1)
  | 0x07 => some (8, 31, 127)
  | 0x40 => some (11, 52, 1023)
  | _ => none

/-- Whether the format has codes for the infinities (Table 03-1). -/
def hasInf (fmt : Nat) : Bool := fmt != 0x04 && fmt != 0x06

/-- The code of the largest finite value, sign bit clear (Table 03-2). -/
def maxCode : Nat → Nat
  | 0x01 => 0x7F7FFFFF
  | 0x02 => 0x7F7F
  | 0x03 => 0x7BFF
  | 0x04 => 0x7E
  | 0x05 => 0x7B
  | 0x06 => 0x7
  | 0x07 => 0x7F7FFFFFFF
  | _ => 0x7FEFFFFFFFFFFFFF

/-- The canonical NaN (Table 03-2). -/
def nanCode : Nat → Nat
  | 0x01 => 0x7FC00000
  | 0x02 => 0x7FC0
  | 0x03 => 0x7E00
  | 0x04 => 0x7F
  | 0x05 => 0x7E
  | 0x07 => 0x7FC0000000
  | 0x40 => 0x7FF8000000000000
  | _ => 0

/-- Bits of one element of a format; an SSB32 element without its share of the scale byte. -/
def elemBits : Nat → Nat
  | 0x01 => 32
  | 0x02 => 16
  | 0x03 => 16
  | 0x04 => 8
  | 0x05 => 8
  | 0x06 => 4
  | 0x07 => 40
  | 0x08 => 8
  | 0x09 => 8
  | 0x0A => 4
  | 0x0B => 32
  | 0x0C => 64
  | 0x40 => 64
  | _ => 8

/-- The element format of an SSB32 format code (R56). -/
def ssbElem : Nat → Option Nat
  | 0x08 => some 0x04
  | 0x09 => some 0x05
  | 0x0A => some 0x06
  | _ => none

/-- The format codes of Table 02-7. -/
def fmtDefined (fmt : Nat) : Bool := decide (fmt ≤ 0x0C)

/-- Whether a code is an integer format (R55). -/
def fmtInt (fmt : Nat) : Bool := fmt == 0x0B || fmt == 0x0C

/-! ## Decoding (R52, R55, R56) -/

/-- The exact value of a floating-point code (R52). -/
def decodeFloat (fmt code : Nat) : Fp :=
  match layOf fmt with
  | none => .nan
  | some (eb, fb, bias) =>
    let f := code % 2 ^ fb
    let ex := code / 2 ^ fb % 2 ^ eb
    let neg := decide (code / 2 ^ (fb + eb) % 2 = 1)
    let allOnes := ex == 2 ^ eb - 1
    if fmt == 0x04 && allOnes && f == 7 then .nan
    else if hasInf fmt && allOnes then (if f == 0 then .inf neg else .nan)
    else if ex == 0 then .fin neg f (1 - (bias : Int) - fb)
    else .fin neg (2 ^ fb + f) ((ex : Int) - bias - fb)

/-- The value of a two's-complement integer of `w` bits (R55). -/
def decodeInt (w code : Nat) : Fp :=
  if code / 2 ^ (w - 1) % 2 = 1 then .fin true (2 ^ w - code % 2 ^ w) 0 else .fin false (code % 2 ^ w) 0

/-- The exact value of an element code of any unscaled format. -/
def decodeCode (fmt code : Nat) : Fp :=
  if fmtInt fmt then decodeInt (elemBits fmt) code else decodeFloat fmt code

/-- An element under an E8M0 scale code (R56). -/
def scaleBy (scale : Nat) (x : Fp) : Fp :=
  if scale == 0xFF then .nan
  else match x with
    | .fin s m e => .fin s m (e + scale - 127)
    | y => y

/-! ## The encoding step (R64 to R71) -/

/-- Rounding m * 2^e to a whole number of steps 2^q in a mode, with draw `r` of `k` bits for mode 4 (R70, R71): the
number of steps, and whether it was inexact. -/
def roundTo (mode k r : Nat) (neg : Bool) (m : Nat) (e q : Int) : Nat × Bool :=
  if q ≤ e then (m * 2 ^ (e - q).toNat, false)
  else
    let sh := (q - e).toNat
    let a := m / 2 ^ sh
    let rem := m % 2 ^ sh
    if rem == 0 then (a, false)
    else
      let up : Bool :=
        match mode with
        | 0 => decide (2 * rem > 2 ^ sh) || (2 * rem == 2 ^ sh && a % 2 == 1)
        | 1 => false
        | 2 => !neg
        | 3 => neg
        | _ => decide (r < rem * 2 ^ k / 2 ^ sh)
      (if up then a + 1 else a, true)

/-- The binary exponent of a non-zero m * 2^e. -/
def expOf (m : Nat) (e : Int) : Int := (Nat.log2 m : Int) + e

/-- The code with its sign bit. -/
def withSign (fmt : Nat) (neg : Bool) (mag : Nat) : Nat := if neg then mag + 2 ^ (elemBits fmt - 1) else mag

/-- A finite value beyond the destination's range (Table 03-5). `toInf` names the destinations of its first row. -/
def beyondRange (fmt mode : Nat) (toInf neg : Bool) : Nat × BitVec 7 :=
  if toInf then
    if fmt == 0x04 then (nanCode fmt, flagOF ||| flagNX)
    else
      let big : Bool := match mode with
        | 1 => false
        | 2 => !neg
        | 3 => neg
        | _ => true
      (withSign fmt neg (if big then maxCode fmt + 1 else maxCode fmt), flagOF ||| flagNX)
  else (withSign fmt neg (maxCode fmt), flagSAT ||| flagNX)

/-- Encoding an exact value into a floating-point format: the code and the flags raised (R64 to R68). `toInf` is the
overflow rule: true for overflow to infinity (E4M3: to NaN), false for saturation. -/
def encodeFloat (fmt mode k r : Nat) (toInf : Bool) (x : Fp) : Nat × BitVec 7 :=
  match layOf fmt with
  | none => (0, 0)
  | some (_, fb, bias) =>
    match x with
    | .nan => (nanCode fmt, 0)
    | .inf neg =>
      if hasInf fmt then (withSign fmt neg (maxCode fmt + 1), 0)
      else if toInf then (nanCode fmt, flagINV)
      else (withSign fmt neg (maxCode fmt), flagSAT)
    | .fin neg m e =>
      if m == 0 then (withSign fmt neg 0, 0)
      else
        let emin : Int := 1 - (bias : Int)
        let qFree := expOf m e - fb
        let q := max qFree (emin - fb)
        let (n, inexact) := roundTo mode k r neg m e q
        let mag := (q - (emin - fb)).toNat * 2 ^ fb + n
        if mag > maxCode fmt then beyondRange fmt mode toInf neg
        else
          let (nf, _) := roundTo mode k r neg m e qFree
          let tiny := decide (expOf nf qFree < emin)
          (withSign fmt neg mag,
            (if inexact then flagNX else 0) ||| (if inexact && tiny then flagUF else 0))

/-- Encoding an exact value into a two's-complement integer of `w` bits (R64, R66 to R68). -/
def encodeInt (w mode k r : Nat) (x : Fp) : Nat × BitVec 7 :=
  match x with
  | .nan => (0, flagINV)
  | .inf neg => (if neg then 2 ^ (w - 1) else 2 ^ (w - 1) - 1, flagSAT)
  | .fin neg m e =>
    let (n, inexact) := roundTo mode k r neg m e 0
    let lim := if neg then 2 ^ (w - 1) else 2 ^ (w - 1) - 1
    if n > lim then (lim, flagSAT ||| flagNX)
    else ((if neg then (2 ^ w - n) % 2 ^ w else n), if inexact then flagNX else 0)

/-- Whether an out-of-range value overflows to infinity (or NaN) rather than saturating (R65, Table 03-5): always for
FP32, BF16, M40 and binary64; by FP16_IEEE for FP16; by the overflow field for E4M3 and E5M2. -/
def overflowRule (fmt : Nat) (ovf fp16Ieee : Bool) : Bool :=
  match fmt with
  | 0x03 => fp16Ieee
  | 0x04 => ovf
  | 0x05 => ovf
  | 0x06 => false
  | _ => true

/-- The parameters of a conversion (R65): rounding mode, SR_BITS, the overflow field and FP16_IEEE. -/
abbrev ConvRule := Nat × Nat × Bool × Bool

/-- Encoding one element into an unscaled format under a conversion rule with draw `r`. -/
def encodeElem (fmt : Nat) (rule : ConvRule) (r : Nat) (x : Fp) : Nat × BitVec 7 :=
  if fmtInt fmt then encodeInt (elemBits fmt) rule.1 rule.2.1 r x
  else encodeFloat fmt rule.1 rule.2.1 r (overflowRule fmt rule.2.2.1 rule.2.2.2) x

/-- An arithmetic result: rounded once to nearest even, overflowing to infinity (R61, R79). -/
def roundArith (fmt : Nat) (x : Fp) : Nat × BitVec 7 := encodeFloat fmt 0 0 0 true x

/-! ## Shared-scale blocks (R57, R58) -/

/-- The larger of two exact non-negative values m * 2^e. -/
def dyadicLe (m₁ : Nat) (e₁ : Int) (m₂ : Nat) (e₂ : Int) : Bool :=
  let e := min e₁ e₂
  decide (m₁ * 2 ^ (e₁ - e).toNat ≤ m₂ * 2 ^ (e₂ - e).toNat)

/-- The largest magnitude among the finite elements, or none. -/
def largestFinite (xs : List Fp) : Nat × Int :=
  xs.foldl (fun acc x => match x with
    | .fin _ m e => if dyadicLe m e acc.1 acc.2 then acc else (m, e)
    | _ => acc) (0, 0)

/-- The scale code chosen for a block in an SSB32 element format (R58): emax is 1.75 * 2^8 for E4M3 and 1.75 * 2^15 for
E5M2. -/
def chooseScale (efmt : Nat) (xs : List Fp) : Nat :=
  let (m, e) := largestFinite xs
  if m == 0 then 0x7F
  else
    let top : Int := if efmt == 0x04 then 8 else 15
    let e0 := expOf m e - top
    let e1 := if dyadicLe m (e - e0) 7 (top - 2) then e0 else e0 + 1
    (max (-127) (min 127 e1) + 127).toNat

/-- Encoding one block of 32 elements: the scale byte, the element codes and each element's flags (R58). -/
def encodeBlock (efmt : Nat) (rule : ConvRule) (rs : List Nat) (xs : List Fp) : Nat × List (Nat × BitVec 7) :=
  let sc := chooseScale efmt xs
  (sc, List.zipWith (fun x r => encodeElem efmt rule r
    (match x with | .fin s m e => .fin s m (e - sc + 127) | y => y)) xs rs)

/-! ## Tensors in memory (R57, R59, R60) -/

/-- Bytes of one whole unit of a format: a block of 32 for SSB32, 64 elements for M40, two E2M1 elements, else one
element. -/
def unitBytes : Nat → Nat
  | 0x07 => 320
  | 0x08 => 33
  | 0x09 => 33
  | 0x0A => 17
  | 0x06 => 1
  | f => elemBits f / 8

/-- Elements of one whole unit of a format. -/
def unitElems : Nat → Nat
  | 0x07 => 64
  | 0x08 => 32
  | 0x09 => 32
  | 0x0A => 32
  | 0x06 => 2
  | _ => 1

/-- Bytes that `n` elements occupy in a format. -/
def tensorBytes (fmt n : Nat) : Nat := ceilDiv n (unitElems fmt) * unitBytes fmt

/-- Elements that `n` bytes of a format hold. -/
def tensorElems (fmt n : Nat) : Nat := n / unitBytes fmt * unitElems fmt

/-- The element codes of packed bytes (R59). -/
def unpackCodes (bits : Nat) (bs : List Byte) : List Nat :=
  if bits == 4 then bs.flatMap fun b => [b.toNat % 16, b.toNat / 16]
  else (chunks (bits / 8) bs).map leNat

/-- Element codes packed into bytes (R59). -/
def packCodes (bits : Nat) (cs : List Nat) : List Byte :=
  if bits == 4 then (chunks 2 cs).map fun p => BitVec.ofNat 8 (p.headD 0 + 16 * (p.drop 1).headD 0)
  else cs.flatMap (leBytes (bits / 8))

/-- The blocks of one SSB32 group as scale codes and element codes (R57). -/
def ssbGroup (fmt : Nat) (bs : List Byte) : List (Nat × List Nat) :=
  let k := bs.length / unitBytes fmt
  let scales := (bs.take k).map BitVec.toNat
  List.zip scales (chunks 32 (unpackCodes (elemBits fmt) (bs.drop k)))

/-- The blocks of an SSB32 tensor, group by group (R57). -/
def ssbBlocks (fmt : Nat) (bs : List Byte) : List (Nat × List Nat) :=
  (chunks (32 * unitBytes fmt) bs).flatMap (ssbGroup fmt)

/-- The bytes of an SSB32 tensor: groups of up to 32 blocks, scales first (R57). -/
def ssbBytes (fmt : Nat) (blocks : List (Nat × List Nat)) : List Byte :=
  (chunks 32 blocks).flatMap fun g =>
    g.map (fun b => BitVec.ofNat 8 b.1) ++ g.flatMap (fun b => packCodes (elemBits fmt) b.2)

/-- The element codes of M40 blocks (R60). -/
def unpackM40 (bs : List Byte) : List Nat :=
  (chunks 320 bs).flatMap fun b =>
    List.zipWith (fun hi lo => hi * 256 + lo) (unpackCodes 32 (b.take 256)) (unpackCodes 8 (b.drop 256))

/-- The bytes of M40 codes in blocks of 64 (R60). -/
def packM40 (cs : List Nat) : List Byte :=
  (chunks 64 cs).flatMap fun b => packCodes 32 (b.map (· / 256)) ++ packCodes 8 (b.map (· % 256))

/-- The exact values of a tensor's elements. -/
def decodeTensor (fmt : Nat) (bs : List Byte) : List Fp :=
  match ssbElem fmt with
  | some ef => (ssbBlocks fmt bs).flatMap fun b => b.2.map fun c => scaleBy b.1 (decodeFloat ef c)
  | none => if fmt == 0x07 then (unpackM40 bs).map (decodeFloat 0x07)
    else (unpackCodes (elemBits fmt) bs).map (decodeCode fmt)

/-- A tensor's elements encoded into a format, with each element's flags; `rs` are the draws, one an element (R73). -/
def encodeTensor (fmt : Nat) (rule : ConvRule) (rs : List Nat) (xs : List Fp) : List Byte × List (BitVec 7) :=
  match ssbElem fmt with
  | some ef =>
    let bl := List.zipWith (encodeBlock ef rule) (chunks 32 rs) (chunks 32 xs)
    (ssbBytes fmt (bl.map fun b => (b.1, b.2.map Prod.fst)), bl.flatMap fun b => b.2.map Prod.snd)
  | none =>
    let es := List.zipWith (encodeElem fmt rule) rs xs
    let cs := es.map Prod.fst
    (if fmt == 0x07 then packM40 cs else packCodes (elemBits fmt) cs, es.map Prod.snd)

/-- An SSB32 tensor copied block for block; a block whose scale is 0xFF becomes scale 0x7F and canonical NaNs (R58,
R65). -/
def copySsb (fmt : Nat) (bs : List Byte) : List Byte :=
  let ef := (ssbElem fmt).getD 0x04
  ssbBytes fmt ((ssbBlocks fmt bs).map fun b =>
    if b.1 == 0xFF then (0x7F, b.2.map fun _ => nanCode ef) else b)

/-- A whole conversion from one format to another with its per-element flags (R64, R65): raw bytes and equal SSB32
variants are copied. -/
def convertTensor (src dst : Nat) (rule : ConvRule) (rs : List Nat) (bs : List Byte) : List Byte × List (BitVec 7) :=
  if src == 0 then (bs, [])
  else if src == dst && (ssbElem src).isSome then (copySsb src bs, [])
  else encodeTensor dst rule rs (decodeTensor src bs)

/-- The OR of a list of flag words. -/
def orFlags (fs : List (BitVec 7)) : BitVec 7 := fs.foldl (· ||| ·) 0

/-! ## The stochastic-rounding generator (R72, R73) -/

/-- One advance of a generator (R72). -/
def genStep (x : Word) : Word :=
  let x := x ^^^ (x <<< 13)
  let x := x ^^^ (x >>> 7)
  x ^^^ (x <<< 17)

/-- The top `k` bits of an advanced state (R73). -/
def genTop (k : Nat) (x : Word) : Nat := x.toNat / 2 ^ (64 - k)

/-- `n` draws of `k` bits from a generator, in order. -/
def genDraws (k : Nat) : Nat → Word → List Nat
  | 0, _ => []
  | n + 1, x => genTop k (genStep x) :: genDraws k n (genStep x)

end Sys2Proof.Machine
end

