-- ==== Sys2Proof/Machine/Crypto.lean ====
section
/-!
DEFINITION. Machine/Crypto.lean: the checks and hashes the spec names: CRC-32C and CRC-64 (R284, R366), SHAKE256
(R74, R420), AES-256-GCM (R303). SHAKE256 and AES-256-GCM are the published standards the spec names but does not
reproduce (notes/assumptions/5.md, PRESUMED).
-/

namespace Sys2Proof.Machine

/-! ## Reflected CRCs -/

/-- One byte's eight steps of a reflected CRC with polynomial `poly`. -/
def crcByte {w : Nat} (poly : BitVec w) (c : BitVec w) (b : Byte) : BitVec w :=
  (List.range 8).foldl (fun c _ => if c.getLsbD 0 then (c >>> 1) ^^^ poly else c >>> 1) (c ^^^ b.setWidth w)

/-- A reflected CRC with initial value and final XOR all ones. -/
def crcOf {w : Nat} (poly : BitVec w) (bs : List Byte) : BitVec w :=
  ~~~ (bs.foldl (crcByte poly) (BitVec.allOnes w))

/-- CRC-32C: the Castagnoli polynomial, reflected. -/
def crc32c (bs : List Byte) : W32 := crcOf 0x82F63B78 bs

/-- CRC-64 with the ECMA-182 polynomial, reflected. -/
def crc64 (bs : List Byte) : Word := crcOf 0xC96C5795D7870F42 bs

/-- A CRC-64 running value advanced over bytes, before the final XOR. -/
def crc64Run (c : Word) (bs : List Byte) : Word := bs.foldl (crcByte 0xC96C5795D7870F42) c

/-! ## SHAKE256 -/

/-- The round constants of Keccak-f[1600]. -/
def keccakRC : List Word :=
  [0x0000000000000001, 0x0000000000008082, 0x800000000000808A, 0x8000000080008000, 0x000000000000808B,
   0x0000000080000001, 0x8000000080008081, 0x8000000000008009, 0x000000000000008A, 0x0000000000000088,
   0x0000000080008009, 0x000000008000000A, 0x000000008000808B, 0x800000000000008B, 0x8000000000008089,
   0x8000000000008003, 0x8000000000008002, 0x8000000000000080, 0x000000000000800A, 0x800000008000000A,
   0x8000000080008081, 0x8000000000008080, 0x0000000080000001, 0x8000000080008008]

/-- The rotation of lane x + 5y. -/
def keccakRot : List Nat :=
  [0, 1, 62, 28, 27, 36, 44, 6, 55, 20, 3, 10, 43, 25, 39, 41, 45, 15, 21, 8, 18, 2, 61, 56, 14]

/-- One round of Keccak-f[1600] on 25 lanes. -/
def keccakRound (a : List Word) (rc : Word) : List Word :=
  let at' (l : List Word) (i : Nat) : Word := l.getD i 0
  let c := (List.range 5).map fun x => at' a x ^^^ at' a (x + 5) ^^^ at' a (x + 10) ^^^ at' a (x + 15) ^^^ at' a (x + 20)
  let d := (List.range 5).map fun x => at' c ((x + 4) % 5) ^^^ (at' c ((x + 1) % 5)).rotateLeft 1
  let t := (List.range 25).map fun i => at' a i ^^^ at' d (i % 5)
  -- rho and pi: lane (x, y) of the result comes from lane ((x + 3y) mod 5, x)
  let b := (List.range 25).map fun i =>
    let x := i % 5
    let y := i / 5
    let src := (x + 3 * y) % 5 + 5 * x
    (at' t src).rotateLeft (keccakRot.getD src 0)
  let e := (List.range 25).map fun i =>
    let x := i % 5
    let y5 := i / 5 * 5
    at' b i ^^^ ((~~~ at' b (y5 + (x + 1) % 5)) &&& at' b (y5 + (x + 2) % 5))
  match e with
  | h :: r => (h ^^^ rc) :: r
  | [] => []

/-- Keccak-f[1600]. -/
def keccakF (a : List Word) : List Word := keccakRC.foldl keccakRound a

/-- Absorbing one padded 136-byte block. -/
def keccakAbsorb (a : List Word) (blk : List Byte) : List Word :=
  let ws := (chunks 8 blk).map fun b => BitVec.ofNat 64 (leNat b)
  keccakF (List.zipWith (· ^^^ ·) a (ws ++ List.replicate (25 - ws.length) 0))

/-- The padding of SHAKE256 to whole blocks of 136 bytes. -/
def shakePad (bs : List Byte) : List Byte :=
  let n := 136 - bs.length % 136
  if n == 1 then bs ++ [0x9F] else bs ++ [0x1F] ++ List.replicate (n - 2) 0 ++ [0x80]

/-- Squeezing `n` blocks. -/
def keccakSqueeze : Nat → List Word → List Byte
  | 0, _ => []
  | n + 1, a => (a.take 17).flatMap wordBytes ++ keccakSqueeze n (keccakF a)

/-- The first `n` bytes of SHAKE256. -/
def shake256 (n : Nat) (bs : List Byte) : List Byte :=
  (keccakSqueeze (n / 136 + 1) ((chunks 136 (shakePad bs)).foldl keccakAbsorb (List.replicate 25 0))).take n

/-- A generator's seed (R74): SHAKE256 of the channel seed, LANE and STREAM; zero becomes 1. -/
def genSeed (seed lane stream : Word) : Word :=
  let x := BitVec.ofNat 64 (leNat (shake256 8 (wordBytes seed ++ wordBytes lane ++ wordBytes stream)))
  if x == 0 then 1 else x

/-! ## AES-256-GCM -/

/-- Multiplication by x in the field of AES. -/
def gfX (b : BitVec 8) : BitVec 8 := if b.getLsbD 7 then (b <<< 1) ^^^ 0x1B else b <<< 1

/-- Multiplication in the field of AES. -/
def gfMul (a b : BitVec 8) : BitVec 8 :=
  ((List.range 8).foldl (fun (p : BitVec 8 × BitVec 8) i =>
    (if b.getLsbD i then p.1 ^^^ p.2 else p.1, gfX p.2)) (0, a)).1

/-- The inverse in the field of AES, a^254. -/
def gfInv (a : BitVec 8) : BitVec 8 :=
  ((List.range 7).foldl (fun (p : BitVec 8 × BitVec 8) _ => let s := gfMul p.2 p.2; (gfMul p.1 s, s)) (1, a)).1

/-- The S-box. -/
def aesSbox (a : BitVec 8) : BitVec 8 :=
  let b := gfInv a
  b ^^^ b.rotateLeft 1 ^^^ b.rotateLeft 2 ^^^ b.rotateLeft 3 ^^^ b.rotateLeft 4 ^^^ 0x63

/-- The key expansion of AES-256: 60 words of four bytes, built latest first. -/
def aesExpand : Nat → Nat → BitVec 8 → List (List Byte) → List (List Byte)
  | 0, _, _, ws => ws
  | n + 1, i, rc, ws =>
    let prev := ws.headD []
    let t :=
      if i % 8 == 0 then
        match prev.map aesSbox with
        | [a, b, c, d] => [b ^^^ rc, c, d, a]
        | l => l
      else if i % 8 == 4 then prev.map aesSbox
      else prev
    aesExpand n (i + 1) (if i % 8 == 0 then gfX rc else rc)
      (List.zipWith (· ^^^ ·) (ws.getD 7 []) t :: ws)

/-- The fifteen round keys of 16 bytes. -/
def aesRoundKeys (key : List Byte) : List (List Byte) :=
  chunks 16 ((aesExpand 52 8 1 (chunks 4 key).reverse).reverse.flatMap id)

/-- ShiftRows on sixteen column-major bytes. -/
def aesShiftRows (s : List Byte) : List Byte := (List.range 16).map fun i => s.getD ((i + 4 * (i % 4)) % 16) 0

/-- MixColumns on one column. -/
def aesMixColumn : List Byte → List Byte
  | [a, b, c, d] =>
    [gfX a ^^^ gfX b ^^^ b ^^^ c ^^^ d, a ^^^ gfX b ^^^ gfX c ^^^ c ^^^ d,
     a ^^^ b ^^^ gfX c ^^^ gfX d ^^^ d, gfX a ^^^ a ^^^ b ^^^ c ^^^ gfX d]
  | l => l

/-- AES-256 on one block. -/
def aesBlock (rks : List (List Byte)) (blk : List Byte) : List Byte :=
  let xor := List.zipWith (fun (a b : Byte) => a ^^^ b)
  let s0 := xor blk (rks.headD [])
  let mid := ((rks.drop 1).take 13).foldl (fun s rk =>
    xor ((chunks 4 (aesShiftRows (s.map aesSbox))).flatMap aesMixColumn) rk) s0
  xor (aesShiftRows (mid.map aesSbox)) (rks.getD 14 [])

/-- A big-endian number of bytes, as GCM counts. -/
def beNat (bs : List Byte) : Nat := leNat bs.reverse

/-- The low `n` bytes of a number, most significant first. -/
def beBytes (n v : Nat) : List Byte := (leBytes n v).reverse

/-- Multiplication in the field of GHASH, on bit strings read most significant bit first. -/
def ghashMul (x y : BitVec 128) : BitVec 128 :=
  ((List.range 128).foldl (fun (p : BitVec 128 × BitVec 128) i =>
    (if x.getLsbD (127 - i) then p.1 ^^^ p.2 else p.1,
      if p.2.getLsbD 0 then (p.2 >>> 1) ^^^ 0xE1000000000000000000000000000000 else p.2 >>> 1)) (0, y)).1

/-- Bytes padded with zeros to whole blocks of 16. -/
def pad16 (bs : List Byte) : List Byte := bs ++ List.replicate ((16 - bs.length % 16) % 16) 0

/-- GHASH of whole blocks. -/
def ghash (h : BitVec 128) (bs : List Byte) : BitVec 128 :=
  (chunks 16 bs).foldl (fun y b => ghashMul (y ^^^ BitVec.ofNat 128 (beNat b)) h) 0

/-- Counter-mode encryption from counter block number `ctr` under a 96-bit IV. -/
def gcmCtr (rks : List (List Byte)) (iv : List Byte) : Nat → List (List Byte) → List Byte
  | _, [] => []
  | ctr, b :: bs => List.zipWith (· ^^^ ·) b (aesBlock rks (iv ++ beBytes 4 ctr)) ++ gcmCtr rks iv (ctr + 1) bs

/-- Counter-mode encryption or decryption of the data of one GCM message. -/
def gcmCrypt (key iv data : List Byte) : List Byte := gcmCtr (aesRoundKeys key) iv 2 (chunks 16 data)

/-- The tag of one GCM message over associated data and ciphertext. -/
def gcmTag (key iv aad ct : List Byte) : BitVec 128 :=
  let rks := aesRoundKeys key
  let h := BitVec.ofNat 128 (beNat (aesBlock rks (List.replicate 16 0)))
  let s := ghash h (pad16 aad ++ pad16 ct ++ beBytes 8 (8 * aad.length) ++ beBytes 8 (8 * ct.length))
  s ^^^ BitVec.ofNat 128 (beNat (aesBlock rks (iv ++ beBytes 4 1)))

end Sys2Proof.Machine
end

