-- ==== Sys2Proof/Machine/Codec.lean ====
section
/-!
DEFINITION. Machine/Codec.lean: the compression format (chapter 11): canonical codes, table building, the stream encoder
and the decoder with its checks. A stream's items are a function of its raw bytes and parameters alone (R284).
-/

namespace Sys2Proof.Machine

/-! ## Codes (R279, R280) -/

/-- The symbols with a code, by ascending (length, symbol). -/
def codeOrder (lens : List Nat) : List (Nat × Nat) :=
  (List.range 15).flatMap fun l => (lens.zipIdx.filter fun x => x.1 == l + 1).map fun x => (l + 1, x.2)

/-- Canonical codes as (symbol, length, code) (R279). -/
def canonFrom : Nat → Nat → List (Nat × Nat) → List (Nat × Nat × Nat)
  | _, _, [] => []
  | next, prev, (l, sym) :: rest =>
    let c := next * 2 ^ (l - prev)
    (sym, l, c) :: canonFrom (c + 1) l rest

/-- The canonical codes of a table of lengths. -/
def canonCodes (lens : List Nat) : List (Nat × Nat × Nat) := canonFrom 0 0 (codeOrder lens)

/-- The `n` bits of a number, most significant first. -/
def msbBits (n v : Nat) : List Bool := (List.range n).map fun i => v.testBit (n - 1 - i)

/-- The bits of every symbol's code, by symbol; empty for a symbol without a code. -/
def codeTable (lens : List Nat) : Array (List Bool) :=
  (canonCodes lens).foldl (fun t c => t.set! c.1 (msbBits c.2.1 c.2.2)) (Array.replicate 257 [])

/-- The bits of one raw byte (R280). -/
def byteBits (t : Array (List Bool)) (b : Byte) : List Bool :=
  let c := t.getD b.toNat []
  if c.isEmpty then t.getD 256 [] ++ msbBits 8 b.toNat else c

/-- A bit string packed most significant bit first, completed with zeros (R280). -/
def packBits (bits : List Bool) : List Byte :=
  (chunks 8 bits).map fun g =>
    BitVec.ofNat 8 ((g ++ List.replicate (8 - g.length) false).foldl (fun a b => 2 * a + (if b then 1 else 0)) 0)

/-- The coded payload of raw bytes. -/
def codedPayload (lens : List Nat) (bs : List Byte) : List Byte :=
  let t := codeTable lens
  packBits (bs.flatMap (byteBits t))

/-! ## Building tables (R281, R282) -/

/-- A node of the tree in the making: weight, id, and its leaves as (symbol, depth). -/
abbrev HNode := Nat × Nat × List (Nat × Nat)

/-- Whether a node comes first by (weight, id). -/
def nodeFirst (a b : HNode) : Bool := decide (a.1 < b.1) || (a.1 == b.1 && decide (a.2.1 < b.2.1))

/-- A node inserted into a list in order. -/
def insertNode (x : HNode) : List HNode → List HNode
  | [] => [x]
  | y :: ys => if nodeFirst x y then x :: y :: ys else y :: insertNode x ys

/-- The merges of R281 on nodes in order. -/
def mergeNodes : Nat → Nat → List HNode → List HNode
  | fuel + 1, next, a :: b :: rest =>
    let m : HNode := (a.1 + b.1, next, (a.2.2 ++ b.2.2).map fun x => (x.1, x.2 + 1))
    mergeNodes fuel (next + 1) (insertNode m rest)
  | _, _, ns => ns

/-- The depths of the leaves for a histogram of 257 counts. -/
def treeLengths (cnt : List Nat) : List Nat :=
  let nodes := (cnt.zipIdx.filter fun x => x.1 != 0).foldl (fun ns x => insertNode (x.1, x.2, [(x.2, 0)]) ns) []
  match mergeNodes 257 257 nodes with
  | [r] => r.2.2.foldl (fun t x => setAt' t x.1 x.2) (List.replicate 257 0)
  | _ => List.replicate 257 0
where
  /-- One element of a list replaced. -/
  setAt' : List Nat → Nat → Nat → List Nat
    | [], _, _ => []
    | _ :: xs, 0, v => v :: xs
    | x :: xs, n + 1, v => x :: setAt' xs n v

/-- The lengths of R281: counts are halved until every length is at most 15. -/
def buildLengths : Nat → List Nat → List Nat
  | 0, cnt => treeLengths cnt
  | fuel + 1, cnt =>
    let l := treeLengths cnt
    if l.all fun x => decide (x ≤ 15) then l
    else buildLengths fuel (cnt.map fun c => if c == 0 then 0 else (c + 1) / 2)

/-- The histogram of bytes with the escape's count of 1. -/
def histogram (bs : List Byte) : List Nat :=
  (bs.foldl (fun (a : Array Nat) b => a.modify b.toNat (· + 1)) (Array.replicate 256 0)).toList ++ [1]

/-- The table built from bytes. -/
def buildTable (bs : List Byte) : List Nat := buildLengths 64 (histogram bs)

/-- The coded size in bits of a histogram under a table. -/
def codedBits (cnt lens : List Nat) : Nat :=
  let esc := lens.getD 256 0
  sumNat (List.zipWith (fun c l => c * (if l == 0 then esc + 8 else l)) (cnt.take 256) lens)

/-! ## Items (R275 to R278) -/

/-- Bytes padded with zeros to a multiple of 64. -/
def pad64 (bs : List Byte) : List Byte := bs ++ List.replicate ((64 - bs.length % 64) % 64) 0

/-- A 64-byte header of seven words, closed with the CRC-32C of words 0 to 6. -/
def crcHeader (ws : List Nat) : List Byte :=
  let b := ws.flatMap fun w => leBytes 8 w
  b ++ leBytes 8 (crc32c b).toNat

/-- A block item (Table 11-4). -/
def blockItem (mode table seq raw comp off : Nat) (crc : W32) (payload : List Byte) : List Byte :=
  crcHeader [0x1 + mode * 2 ^ 4 + table * 2 ^ 6 + seq * 2 ^ 32, raw + comp * 2 ^ 32, crc.toNat, off, 0, 0, 0] ++ pad64 payload

/-- A block of raw bytes under the table in force (R285). -/
def encodeRawBlock (table : Nat) (lens : List Nat) (seq off : Nat) (raw : List Byte) : List Byte :=
  let coded := codedPayload lens raw
  if raw.all fun b => b == 0 then blockItem 2 0 seq raw.length 0 off (crc32c raw) []
  else if coded.length < raw.length then blockItem 0 table seq raw.length coded.length off (crc32c raw) coded
  else blockItem 1 0 seq raw.length raw.length off (crc32c raw) raw

/-- A table record (Table 11-5). -/
def tableItem (id : Nat) (lens : List Nat) : List Byte :=
  let head := leBytes 8 (0x2 + id * 2 ^ 4) ++ leBytes 8 (lens.getD 256 0) ++ List.replicate 40 0
  let body := (chunks 2 (lens.take 256)).map fun p => BitVec.ofNat 8 (p.headD 0 + 16 * (p.drop 1).headD 0)
  head ++ leBytes 4 (crc32c (head ++ body)).toNat ++ List.replicate 4 0 ++ body

/-! ## The encoder (R282, R285) -/

/-- The table that takes over at a raw offset, when one does: the window of 1 MiB that ended 128 KiB before it is coded
again (R282). -/
def newTable (raw : List Byte) (off : Nat) (lens : List Nat) : Option (List Nat) :=
  if off % 1048576 == 131072 && decide (2097152 ≤ off) then
    let win := (raw.drop (off - 131072 - 1048576)).take 1048576
    let cnt := histogram win
    let old := codedBits cnt lens
    let new := buildTable win
    if old - codedBits cnt new > old / 16 + 1536 then some new else none
  else none

/-- The items of a stream from block `seq`, `n` blocks to go. -/
def encodeBlocks (log2 : Nat) (raw : List Byte) : Nat → Nat → Nat → List Nat → List Byte
  | 0, _, _, _ => []
  | n + 1, seq, table, lens =>
    let off := seq * 2 ^ log2
    let blk := (raw.drop off).take (2 ^ log2)
    match newTable raw off lens with
    | some l =>
      let t := (table + 1) % 256
      tableItem t l ++ encodeRawBlock t l seq off blk ++ encodeBlocks log2 raw n (seq + 1) t l
    | none => encodeRawBlock table lens seq off blk ++ encodeBlocks log2 raw n (seq + 1) table lens

/-- The items of a stream whose table records travel in it. -/
def streamItems (log2 : Nat) (raw : List Byte) : List Byte :=
  let l := buildTable (raw.take 1048576)
  tableItem 0 l ++ encodeBlocks log2 raw (ceilDiv raw.length (2 ^ log2)) 0 0 l

/-- A stream in memory with its header (Table 11-3). -/
def encodeStream (kind fmt log2 : Nat) (raw : List Byte) : List Byte :=
  let items := streamItems log2 raw
  crcHeader [0x4C594B43 + 0x01 * 2 ^ 32 + kind * 2 ^ 40 + log2 * 2 ^ 48, raw.length + fmt * 2 ^ 48,
    64 + items.length, 0, 0, 0, 0] ++ items

/-- The most bytes a memory stream of raw bytes can take (R285). -/
def maxStored (r : Nat) : Nat :=
  64 + 192 * (1 + ceilDiv r 1048576) +
    sumNat ((List.range (ceilDiv r 65536)).map fun b => 64 + 64 * ceilDiv (min 65536 (r - 65536 * b)) 64)

/-! ## The decoder (R283, R288) -/

/-- The failure class of a row of Table 11-6: 0 HEADER_BAD, 1 TABLE_BAD, 2 BLOCK_BAD, 3 TABLE_MISSING, 4 DECODE_SHORT,
5 DECODE_LONG, 6 CRC_BAD. The last row, counted here as 9 when short and 10 when long, is one of two classes. -/
def failClass (row : Nat) : Nat := [0, 0, 1, 2, 2, 3, 4, 5, 6, 4, 5].getD row 0

/-- Bits decoded one by one: the symbol that the bits so far spell, if any. -/
def symbolOf (codes : List (Nat × Nat × Nat)) (len code : Nat) : Option Nat :=
  (codes.find? fun c => c.2.1 == len && c.2.2 == code).map Prod.fst

/-- The number of the first `n` bits, most significant first. -/
def bitsNat (bs : List Bool) : Nat := bs.foldl (fun a b => 2 * a + (if b then 1 else 0)) 0

/-- The next symbol of a bit string and the bits after it. -/
def nextSymbol (codes : List (Nat × Nat × Nat)) : Nat → Nat → Nat → List Bool → Option (Nat × List Bool)
  | 0, _, _, _ => none
  | _ + 1, _, _, [] => none
  | fuel + 1, len, code, b :: bs =>
    let code := 2 * code + (if b then 1 else 0)
    match symbolOf codes (len + 1) code with
    | some s => some (s, bs)
    | none => nextSymbol codes fuel (len + 1) code bs

/-- `n` raw bytes decoded from a bit string: the bytes and the bits left, or none when they run out (R280). -/
def decodeBits (codes : List (Nat × Nat × Nat)) : Nat → List Bool → Option (List Byte × List Bool)
  | 0, bs => some ([], bs)
  | n + 1, bs =>
    match nextSymbol codes 15 0 0 bs with
    | none => none
    | some (s, r) =>
      if s == 256 then
        (if r.length < 8 then none
         else (decodeBits codes n (r.drop 8)).map fun x => (BitVec.ofNat 8 (bitsNat (r.take 8)) :: x.1, x.2))
      else (decodeBits codes n r).map fun x => (BitVec.ofNat 8 s :: x.1, x.2)

/-- The bits of bytes, most significant first. -/
def bytesBits (bs : List Byte) : List Bool := bs.flatMap fun b => msbBits 8 b.toNat

/-- A coded payload decoded to `n` bytes, or the row of Table 11-6 it fails. -/
def decodePayload (lens : List Nat) (n : Nat) (bs : List Byte) : Except Nat (List Byte) :=
  match decodeBits (canonCodes lens) n (bytesBits bs) with
  | none => .error 6
  | some (raw, rest) => if 8 ≤ rest.length || rest.any id then .error 7 else .ok raw

/-- A little-endian word of bytes. -/
def wordAt (bs : List Byte) (i : Nat) : Nat := leNat ((bs.drop (8 * i)).take 8)

/-- Whether a 64-byte header's CRC holds. -/
def headerCrcOk (h : List Byte) : Bool := (crc32c (h.take 56)).toNat == wordAt h 7 % 2 ^ 32

/-- A table record taken into the decoder (R278, R281, R283). -/
def takeTable (item : List Byte) (d : Decoder) : Except Nat Decoder :=
  let id := fieldNat (BitVec.ofNat 64 (wordAt item 0)) 4 8
  let esc := wordAt item 1 % 16
  let lens := ((item.drop 64).flatMap fun b => [b.toNat % 16, b.toNat / 16]) ++ [esc]
  let crc := leNat ((item.drop 56).take 4)
  let full := sumNat (lens.map fun l => if l == 0 then 0 else 2 ^ (15 - l))
  if item.length < 192 || (crc32c (item.take 56 ++ item.drop 64)).toNat != crc || esc == 0 || full != 2 ^ 15
      || id != (match d.last with | some i => (i + 1) % 256 | none => 0) then .error 2
  else .ok { d with
    tables := (d.tables.filter fun t => t.1 != id % 4) ++ [(id % 4, id, lens)], last := some id }

/-- A block item decoded: its raw bytes and the decoder after it, or the row it fails. `total` is the stream's raw length
when it is known. -/
def takeBlock (log2 : Nat) (total : Option Nat) (item : List Byte) (d : Decoder) : Except Nat (List Byte × Decoder) :=
  let w0 := wordAt item 0
  let mode := w0 / 2 ^ 4 % 4
  let table := w0 / 2 ^ 6 % 256
  let raw := wordAt item 1 % 2 ^ 32
  let comp := wordAt item 1 / 2 ^ 32
  let off := wordAt item 3 % 2 ^ 48
  let last := match total with | some t => off + raw == t | none => true
  if !headerCrcOk item || mode == 3 || w0 / 2 ^ 32 != d.seq % 2 ^ 32 || off != d.off || raw == 0
      || decide (2 ^ log2 < raw) || (raw != 2 ^ log2 && !last) then .error 3
  else if (mode == 2 && comp != 0) || (mode == 1 && comp != raw) || (mode == 0 && decide (raw ≤ comp)) then .error 4
  else
    let payload := (item.drop 64).take comp
    let got : Except Nat (List Byte) :=
      match mode with
      | 0 => (match d.tables.find? fun t => t.1 == table % 4 && t.2.1 == table with
        | none => .error 5
        | some t => decodePayload t.2.2 raw payload)
      | 1 => .ok payload
      | _ => .ok (List.replicate raw 0)
    match got with
    | .error e => .error e
    | .ok bs =>
      if (crc32c bs).toNat != wordAt item 2 % 2 ^ 32 then .error 8
      else .ok (bs, { d with seq := d.seq + 1, off := d.off + raw })

/-- The bytes of the item at the front of a list, or none when its kind is reserved or it runs past the end. -/
def itemBytes (bs : List Byte) : Option Nat :=
  match wordAt bs 0 % 16 with
  | 1 =>
    let n := 64 + 64 * ceilDiv (wordAt bs 1 / 2 ^ 32) 64
    if n ≤ bs.length then some n else none
  | 2 => if 192 ≤ bs.length then some 192 else none
  | _ => none

/-- What a decode gives: the raw bytes in order, the decoder, and the row and item offset of the first failure. -/
abbrev Decoded := List Byte × Decoder × Option (Nat × Nat)

/-- Items decoded one after another; the first failure ends it (R288). -/
def decodeItems (log2 : Nat) (total : Option Nat) : Nat → Nat → List Byte → Decoder → Decoded
  | 0, _, _, d => ([], d, none)
  | fuel + 1, at', bs, d =>
    if bs.isEmpty then ([], d, none)
    else match itemBytes bs with
      | none => ([], d, some (1, at'))
      | some n =>
        let item := bs.take n
        if wordAt item 0 % 16 == 2 then
          match takeTable item d with
          | .error e => ([], d, some (e, at'))
          | .ok d => decodeItems log2 total fuel (at' + n) (bs.drop n) d
        else match takeBlock log2 total item d with
          | .error e => ([], d, some (e, at'))
          | .ok (raw, d) =>
            let r := decodeItems log2 total fuel (at' + n) (bs.drop n) d
            (raw ++ r.1, r.2)

/-- The fields of a stream header: KIND, LAYOUT, BLOCK_LOG2, RAW_LENGTH, ELEM_FMT, STORED_LENGTH, TILE_COUNT. -/
def streamFields (h : List Byte) : Nat × Nat × Nat × Nat × Nat × Nat × Nat :=
  let w0 := wordAt h 0
  (w0 / 2 ^ 40 % 16, w0 / 2 ^ 44 % 2, w0 / 2 ^ 48 % 32, wordAt h 1 % 2 ^ 48, wordAt h 1 / 2 ^ 48 % 256,
    wordAt h 2 % 2 ^ 48, wordAt h 3 % 2 ^ 32)

/-- Whether a stream header's MAGIC, CRC and ranges hold; VERSION and KIND are checked against the reader (R286). -/
def streamHeaderOk (h : List Byte) : Bool :=
  let f := streamFields h
  h.length == 64 && wordAt h 0 % 2 ^ 32 == 0x4C594B43 && headerCrcOk h && decide (9 ≤ f.2.2.1) && decide (f.2.2.1 ≤ 16)
    && decide (64 ≤ f.2.2.2.2.2.1)

/-- A stream's raw bytes as far as they decode, with the row and offset of the first failure. -/
def decodeStream (bs : List Byte) : List Byte × Option (Nat × Nat) :=
  let f := streamFields (bs.take 64)
  let raw := f.2.2.2.1
  let r := decodeItems f.2.2.1 (some raw) (bs.length / 64 + 1) 64 (bs.drop 64) {}
  match r.2.2 with
  | some e => (r.1, some e)
  | none =>
    if r.1.length < raw then (r.1, some (9, bs.length))
    else if raw < r.1.length then (r.1, some (10, bs.length))
    else (r.1, none)

/-! ## Block-sparse tensors (R164, R287) -/

/-- One tile record's bytes: the mask and its present blocks, or none when the bytes run short. -/
def tileRecord (fmt : Nat) (bs : List Byte) : Option (Nat × List (List Byte) × List Byte) :=
  let mask := leNat (bs.take 8)
  let n := (List.range 64).countP fun i => mask.testBit i
  let sz := tensorBytes fmt 256
  if bs.length < 8 + n * sz then none
  else some (mask, chunks sz ((bs.drop 8).take (n * sz)), bs.drop (8 + n * sz))

/-- The blocks of a tile by index, absent ones empty. -/
def tileBlocks (mask : Nat) : Nat → Nat → List (List Byte) → List (List Byte)
  | 0, _, _ => []
  | n + 1, i, bl =>
    if mask.testBit i then bl.headD [] :: tileBlocks mask n (i + 1) (bl.drop 1) else [] :: tileBlocks mask n (i + 1) bl

/-- A dense tile of a format from its blocks (R287). -/
def denseTile (fmt : Nat) (bl : List (List Byte)) : List Byte :=
  if (ssbElem fmt).isSome then
    bl.flatMap fun b => if b.isEmpty then List.replicate 8 0x7F ++ List.replicate (tensorBytes fmt 256 - 8) 0 else b
  else
    let codes := (bl.map fun b => (unpackCodes (elemBits fmt) b).toArray).toArray
    packCodes (elemBits fmt) ((List.range 16384).map fun i =>
      let r := i / 128
      let c := i % 128
      (codes.getD (8 * (r / 16) + c / 16) #[]).getD (16 * (r % 16) + c % 16) 0)

/-- Tile records expanded to dense tiles: as many as there are whole, and whether they are exactly `n` with nothing left
over (R287). -/
def expandTiles (fmt : Nat) : Nat → List Byte → List Byte × Option Nat
  | 0, bs => ([], if bs.isEmpty then none else some 10)
  | n + 1, bs =>
    match tileRecord fmt bs with
    | none => ([], some 9)
    | some (mask, bl, rest) =>
      let r := expandTiles fmt n rest
      (denseTile fmt (tileBlocks mask 64 0 bl) ++ r.1, r.2)

end Sys2Proof.Machine
end

