-- ==== Sys2Proof/Machine/Arith.lean ====
section
/-!
DEFINITION. Machine/Arith.lean: exact arithmetic on the values of Word.lean's Fp and the correctly rounded operations
of R61, R76 to R79 and R114 to R118. An operation gives a result code of its format and the flags it raises.
-/

namespace Sys2Proof.Machine

/-! ## Exact operations -/

/-- The signed numerator of m * 2^e at exponent `e0 ≤ e`. -/
def signedAt (neg : Bool) (m : Nat) (e e0 : Int) : Int :=
  let v : Int := (m * 2 ^ (e - e0).toNat : Nat)
  if neg then -v else v

/-- The exact sum, and whether opposite infinities met (R79). An exact zero is -0 only when both addends are -0
(R76). -/
def addExact (x y : Fp) : Fp × Bool :=
  match x, y with
  | .nan, _ => (.nan, false)
  | _, .nan => (.nan, false)
  | .inf a, .inf b => if a == b then (.inf a, false) else (.nan, true)
  | .inf a, .fin _ _ _ => (.inf a, false)
  | .fin _ _ _, .inf b => (.inf b, false)
  | .fin a m e, .fin b n f =>
    let e0 := min e f
    let v := signedAt a m e e0 + signedAt b n f e0
    (.fin (if v == 0 then a && b else decide (v < 0)) v.natAbs e0, false)

/-- The exact negative. -/
def negExact : Fp → Fp
  | .nan => .nan
  | .inf a => .inf (!a)
  | .fin a m e => .fin (!a) m e

/-- The exact product, and whether a zero met an infinity (R79). -/
def mulExact (x y : Fp) : Fp × Bool :=
  match x, y with
  | .nan, _ => (.nan, false)
  | _, .nan => (.nan, false)
  | .inf a, .inf b => (.inf (a != b), false)
  | .inf a, .fin b m _ => if m == 0 then (.nan, true) else (.inf (a != b), false)
  | .fin a m _, .inf b => if m == 0 then (.nan, true) else (.inf (a != b), false)
  | .fin a m e, .fin b n f => (.fin (a != b) (m * n) (e + f), false)

/-- Whether a value is ±0. -/
def isZeroFp : Fp → Bool
  | .fin _ m _ => m == 0
  | _ => false

/-- Whether a value is ±∞ or NaN. -/
def nonFiniteFp : Fp → Bool
  | .fin _ _ _ => false
  | _ => true

/-- The order of two numbers that are not NaN: -∞ < finite < +∞; +0 and -0 are equal. -/
def ltFp (x y : Fp) : Bool :=
  match x, y with
  | .nan, _ => false
  | _, .nan => false
  | .inf a, .inf b => a && !b
  | .inf a, .fin _ _ _ => a
  | .fin _ _ _, .inf b => !b
  | .fin a m e, .fin b n f => decide (signedAt a m e (min e f) < signedAt b n f (min e f))

/-- A result code with an INV that arose before rounding. -/
def withInv (inv : Bool) (r : Nat × BitVec 7) : Nat × BitVec 7 := if inv then (r.1, r.2 ||| flagINV) else r

/-- Sum and rounding (Table 05-3). -/
def addOp (fmt : Nat) (x y : Fp) : Nat × BitVec 7 :=
  let (s, inv) := addExact x y
  withInv inv (roundArith fmt s)

/-- Difference and rounding; -0 only when both addends are -0 (R76). -/
def subOp (fmt : Nat) (x y : Fp) : Nat × BitVec 7 := addOp fmt x (negExact y)

/-- Product and rounding. -/
def mulOp (fmt : Nat) (x y : Fp) : Nat × BitVec 7 :=
  let (p, inv) := mulExact x y
  withInv inv (roundArith fmt p)

/-- a * b + c with one rounding; 0 × ∞ raises INV whatever c is (Table 05-3). -/
def fmaOp (fmt : Nat) (x y z : Fp) : Nat × BitVec 7 :=
  let p := match x, y with
    | .inf _, .fin _ 0 _ => (Fp.nan, true)
    | .fin _ 0 _, .inf _ => (Fp.nan, true)
    | _, _ => mulExact x y
  let (s, inv) := addExact p.1 z
  withInv (p.2 || inv) (roundArith fmt s)

/-- The exact quotient of two finite non-zero magnitudes with a sticky low bit: at least 80 bits (R114). -/
def divSticky (m : Nat) (e : Int) (n : Nat) (f : Int) : Nat × Int :=
  let sh := Nat.log2 n + 80
  let q := m * 2 ^ sh / n
  let r := m * 2 ^ sh % n
  (2 * q + (if r == 0 then 0 else 1), e - f - sh - 1)

/-- Quotient (Table 05-3). -/
def divOp (fmt : Nat) (x y : Fp) : Nat × BitVec 7 :=
  match x, y with
  | .nan, _ => roundArith fmt .nan
  | _, .nan => roundArith fmt .nan
  | .inf _, .inf _ => (nanCode fmt, flagINV)
  | .inf a, .fin b _ _ => roundArith fmt (.inf (a != b))
  | .fin a _ _, .inf b => roundArith fmt (.fin (a != b) 0 0)
  | .fin a m e, .fin b n f =>
    if n == 0 then
      if m == 0 then (nanCode fmt, flagINV)
      else ((roundArith fmt (.inf (a != b))).1, flagDZ)
    else if m == 0 then roundArith fmt (.fin (a != b) 0 0)
    else
      let (q, g) := divSticky m e n f
      roundArith fmt (.fin (a != b) q g)

/-- Reciprocal (Table 05-3). -/
def rcpOp (fmt : Nat) (x : Fp) : Nat × BitVec 7 := divOp fmt (.fin false 1 0) x

/-- The integer square root by bits: the largest s below 2^n with s * s ≤ x. -/
def isqrtBits (x : Nat) : Nat → Nat → Nat
  | 0, s => s
  | n + 1, s =>
    let t := s + 2 ^ n
    isqrtBits x n (if t * t ≤ x then t else s)

/-- The integer square root. -/
def isqrt (x : Nat) : Nat := isqrtBits x (Nat.log2 x / 2 + 1) 0

/-- The square root of m * 2^e, m non-zero, with a sticky low bit. -/
def sqrtSticky (m : Nat) (e : Int) : Nat × Int :=
  let odd := e % 2 == 1
  let m' := (if odd then 2 * m else m) * 2 ^ 200
  let e' := (if odd then e - 1 else e) - 200
  let s := isqrt m'
  (2 * s + (if s * s == m' then 0 else 1), e' / 2 - 1)

/-- 1 / √(m * 2^e), m non-zero, with a sticky low bit. -/
def rsqrtSticky (m : Nat) (e : Int) : Nat × Int :=
  let odd := e % 2 == 1
  let m' := if odd then 2 * m else m
  let e' := if odd then e - 1 else e
  let k := Nat.log2 m' / 2 + 100
  let q := 2 ^ (2 * k) / m'
  let s := isqrt q
  (2 * s + (if s * s == q && q * m' == 2 ^ (2 * k) then 0 else 1), -(e' / 2) - k - 1)

/-- Square root (Table 05-3). -/
def sqrtOp (fmt : Nat) (x : Fp) : Nat × BitVec 7 :=
  match x with
  | .nan => roundArith fmt .nan
  | .inf true => (nanCode fmt, flagINV)
  | .inf false => roundArith fmt x
  | .fin neg m e =>
    if m == 0 then roundArith fmt x
    else if neg then (nanCode fmt, flagINV)
    else let (s, g) := sqrtSticky m e; roundArith fmt (.fin false s g)

/-- Reciprocal square root (Table 05-3). -/
def rsqrtOp (fmt : Nat) (x : Fp) : Nat × BitVec 7 :=
  match x with
  | .nan => roundArith fmt .nan
  | .inf true => (nanCode fmt, flagINV)
  | .inf false => roundArith fmt (.fin false 0 0)
  | .fin neg m e =>
    if m == 0 then ((roundArith fmt (.inf neg)).1, flagDZ)
    else if neg then (nanCode fmt, flagINV)
    else let (s, g) := rsqrtSticky m e; roundArith fmt (.fin false s g)

/-! ## Transcendental functions, correctly rounded (R114)

A function value is bracketed by two fixed-point numbers lo < value < hi at `p` fraction bits. When both ends, taken
just inside the bracket, round alike with equal flags, that is the rounding of the value; otherwise the bracket is
computed again with twice the bits. -/

/-- Sum of n terms of the atanh series of num/den at p bits: Σ z^(2i+1)/(2i+1), each term rounded down; `pw` is z^(2i+1)
and `zz` is z² at p bits. -/
def atanhTerms (p zz : Nat) : Nat → Nat → Nat → Nat → Nat
  | 0, _, _, acc => acc
  | n + 1, pw, d, acc => atanhTerms p zz n (pw * zz / 2 ^ p) (d + 2) (acc + pw / d)

/-- atanh(num/den) for num/den ≤ 1/3, at p bits, from below; the error is under 4p units. -/
def atanhLow (p num den : Nat) : Nat :=
  let z := num * 2 ^ p / den
  atanhTerms p (z * z / 2 ^ p) (p / 3 + 2) z 1 0

/-- ln 2 at p bits from below; the error is under 8p units. -/
def ln2Low (p : Nat) : Nat := 2 * atanhLow p 1 3

/-- Sum of n terms of the exponential series of r/2^p. -/
def expTerms (p r : Nat) : Nat → Nat → Nat → Nat → Nat
  | 0, _, _, acc => acc
  | n + 1, t, i, acc => expTerms p r n (t * r / 2 ^ p / i) (i + 1) (acc + t)

/-- e^(r/2^p) for 0 ≤ r ≤ 2^p, at p bits from below; the error is under 4p units for p ≥ 64. -/
def expLow (p r : Nat) : Nat := expTerms p r (p / 2 + 8) (2 ^ p) 1 0

/-- A bracket: lower end, upper end and exponent of the unit, for the magnitude of a value. -/
abbrev Bracket := Nat × Nat × Int

/-- The value m * 2^e rounded down to p fraction bits as an integer. -/
def fixOf (p : Nat) (neg : Bool) (m : Nat) (e : Int) : Int :=
  let v : Int := if e + p < 0 then ((m / 2 ^ (-(e + p)).toNat : Nat) : Int) else ((m * 2 ^ (e + p).toNat : Nat) : Int)
  if neg then -v - 1 else v

/-- The bracket of e^x for a fixed-point x of p bits known to one unit. -/
def expBracket (p : Nat) (x : Int) : Bracket :=
  let l : Int := ln2Low p
  let k := x / l
  let r := (x - k * l).toNat
  let t := expLow p r
  let err := (k.natAbs + 2) * 8 * p * 4 + 8 * p
  (t - err, t + err, k - p)

/-- The bracket of 2^x for a fixed-point x of p bits known to one unit. -/
def exp2Bracket (p : Nat) (x : Int) : Bracket :=
  let k := x / 2 ^ p
  let f := (x - k * 2 ^ p).toNat
  let t := expLow p (f * ln2Low p / 2 ^ p)
  (t - 64 * p, t + 64 * p, k - p)

/-- ln of m * 2^e as a signed fixed-point number of p bits, with its error bound. -/
def lnFix (p m : Nat) (e : Int) : Int × Nat :=
  let l := Nat.log2 m
  let a := 2 * atanhLow p (m - 2 ^ l) (m + 2 ^ l)
  let k : Int := e + l
  (k * (ln2Low p : Int) + a, (k.natAbs + 1) * 8 * p + 8 * p)

/-- Rounding from brackets, refined while both ends do not agree; `br` gives the bracket at p bits. -/
def refine (fmt : Nat) (neg : Bool) (br : Nat → Bracket) : Nat → Nat → Nat × BitVec 7
  | 0, p =>
    let (lo, _, e) := br p
    roundArith fmt (.fin neg (2 * lo + 1) (e - 1))
  | n + 1, p =>
    let (lo, hi, e) := br p
    let a := roundArith fmt (.fin neg (2 * lo + 1) (e - 1))
    if a == roundArith fmt (.fin neg (2 * hi - 1) (e - 1)) then a else refine fmt neg br n (2 * p)

/-- A signed fixed-point result rounded from brackets. -/
def refineSigned (fmt : Nat) (f : Nat → Int × Nat) : Nat × BitVec 7 :=
  let neg := decide ((f 256).1 < 0)
  refine fmt neg (fun p => let (v, err) := f p; (v.natAbs - err, v.natAbs + err, -(p : Int))) 6 256

/-- e^x of a finite non-zero x: far outside every range the result is past the largest or below the smallest value. -/
def expFinite (fmt : Nat) (neg : Bool) (m : Nat) (e : Int) : Nat × BitVec 7 :=
  if expOf m e > 11 then roundArith fmt (.fin false 1 (if neg then -4000 else 4000))
  else refine fmt false (fun p => expBracket p (fixOf p neg m e)) 6 128

/-- Natural exponential (Table 05-3). -/
def expOp (fmt : Nat) (x : Fp) : Nat × BitVec 7 :=
  match x with
  | .nan => roundArith fmt .nan
  | .inf true => roundArith fmt (.fin false 0 0)
  | .inf false => roundArith fmt x
  | .fin neg m e => if m == 0 then roundArith fmt (.fin false 1 0) else expFinite fmt neg m e

/-- Base-2 exponential; a whole exponent gives an exact power (Table 05-3). -/
def exp2Op (fmt : Nat) (x : Fp) : Nat × BitVec 7 :=
  match x with
  | .nan => roundArith fmt .nan
  | .inf true => roundArith fmt (.fin false 0 0)
  | .inf false => roundArith fmt x
  | .fin neg m e =>
    if m == 0 then roundArith fmt (.fin false 1 0)
    else if expOf m e > 11 then roundArith fmt (.fin false 1 (if neg then -4000 else 4000))
    else if m * 2 ^ (e + 200).toNat % 2 ^ 200 == 0 && decide (-200 ≤ e) then
      let k : Int := (m * 2 ^ (e + 200).toNat / 2 ^ 200 : Nat)
      roundArith fmt (.fin false 1 (if neg then -k else k))
    else refine fmt false (fun p => exp2Bracket p (fixOf p neg m e)) 6 128

/-- Natural logarithm (Table 05-3). -/
def logOp (fmt : Nat) (x : Fp) : Nat × BitVec 7 :=
  match x with
  | .nan => roundArith fmt .nan
  | .inf true => (nanCode fmt, flagINV)
  | .inf false => roundArith fmt x
  | .fin neg m e =>
    if m == 0 then ((roundArith fmt (.inf true)).1, flagDZ)
    else if neg then (nanCode fmt, flagINV)
    else if m == 2 ^ Nat.log2 m && expOf m e == 0 then roundArith fmt (.fin false 0 0)
    else refineSigned fmt fun p => lnFix p m e

/-- log₂ of m * 2^e as a signed fixed-point number of p bits, with its error bound. -/
def log2Fix (p m : Nat) (e : Int) : Int × Nat :=
  let l := Nat.log2 m
  let a := 2 * atanhLow p (m - 2 ^ l) (m + 2 ^ l)
  ((e + l) * 2 ^ p + (a * 2 ^ p / ln2Low p : Nat), 64 * p)

/-- Base-2 logarithm; a power of two gives an exact integer (Table 05-3). -/
def log2Op (fmt : Nat) (x : Fp) : Nat × BitVec 7 :=
  match x with
  | .nan => roundArith fmt .nan
  | .inf true => (nanCode fmt, flagINV)
  | .inf false => roundArith fmt x
  | .fin neg m e =>
    if m == 0 then ((roundArith fmt (.inf true)).1, flagDZ)
    else if neg then (nanCode fmt, flagINV)
    else if m == 2 ^ Nat.log2 m then
      let k := expOf m e
      roundArith fmt (.fin (decide (k < 0)) k.natAbs 0)
    else refineSigned fmt fun p => log2Fix p m e

/-- The bracket of tanh of a positive fixed-point x: 1 - 2 / (e^2x + 1). -/
def tanhBracket (p : Nat) (x : Int) : Bracket :=
  let (lo, hi, e) := expBracket p (2 * x)
  let sh := (-e).toNat
  (2 ^ p - (2 ^ (p + 1) * 2 ^ sh / (lo + 2 ^ sh) + 2), 2 ^ p - 2 ^ (p + 1) * 2 ^ sh / (hi + 2 ^ sh), -(p : Int))

/-- Hyperbolic tangent (Table 05-3). Below 2^-30 it is x less a part too small to move a rounding, above 2^6 it is 1 less
such a part. -/
def tanhOp (fmt : Nat) (x : Fp) : Nat × BitVec 7 :=
  match x with
  | .nan => roundArith fmt .nan
  | .inf a => roundArith fmt (.fin a 1 0)
  | .fin neg m e =>
    if m == 0 then roundArith fmt x
    else if expOf m e < -30 then roundArith fmt (.fin neg (m * 2 ^ 64 - 1) (e - 64))
    else if expOf m e ≥ 6 then roundArith fmt (.fin neg (2 ^ 80 - 1) (-80))
    else refine fmt neg (fun p => tanhBracket p (fixOf p false m e)) 6 256

/-! ## Comparisons, extrema, sums (R76, R78, R116, R119) -/

/-- Maximum: NaN if either is; +0 over -0 (R76, R78). -/
def maxFp (x y : Fp) : Fp :=
  match x, y with
  | .nan, _ => .nan
  | _, .nan => .nan
  | .fin a 0 e, .fin b 0 _ => .fin (a && b) 0 e
  | x, y => if ltFp x y then y else x

/-- Minimum: NaN if either is; -0 under +0 (R76, R78). -/
def minFp (x y : Fp) : Fp :=
  match x, y with
  | .nan, _ => .nan
  | _, .nan => .nan
  | .fin a 0 e, .fin b 0 _ => .fin (a || b) 0 e
  | x, y => if ltFp y x then y else x

/-- An exact sum of a list, and whether opposite infinities met; a zero sum is +0, and a NaN element gives NaN with no
flag (R76, Table 05-4). -/
def sumExact (xs : List Fp) : Fp × Bool :=
  if xs.any (fun x => x == .nan) then (.nan, false)
  else xs.foldl (fun acc x => let (t, i) := addExact acc.1 x; (t, acc.2 || i)) (.fin false 0 0, false)

/-- One level of the product tree: p[2i] * p[2i+1], rounded (R119). -/
def prodLevel (fmt : Nat) : List Fp → List Fp × BitVec 7
  | x :: y :: rest =>
    let (c, f) := mulOp fmt x y
    let (zs, g) := prodLevel fmt rest
    (decodeFloat fmt c :: zs, f ||| g)
  | xs => (xs, 0)

/-- `n` levels of the product tree. -/
def prodTree (fmt : Nat) : Nat → List Fp → Fp × BitVec 7
  | 0, xs => (xs.headD (.fin false 1 0), 0)
  | n + 1, xs =>
    let (ys, f) := prodLevel fmt xs
    let (z, g) := prodTree fmt n ys
    (z, f ||| g)

/-- One accumulation of the Tile Array: exact product, one rounding into FP32, a zero result is +0 (R63, R76, R95). -/
def tileMac (acc : W32) (a w : Fp) : W32 × BitVec 7 :=
  let (p, i) := mulExact a w
  let (s, j) := addExact (decodeFloat 0x01 acc.toNat) p
  let (c, f) := roundArith 0x01 s
  let c := if c == 2 ^ 31 then 0 else c
  (BitVec.ofNat 32 c, if i || j then f ||| flagINV else f)

/-- Addition by the NMU: an exact zero is +0 (R76). -/
def nmuAdd (fmt : Nat) (x y : Fp) : Nat × BitVec 7 :=
  let (s, inv) := addExact x y
  withInv inv (roundArith fmt (match s with | .fin _ 0 e => .fin false 0 e | v => v))

/-- fma by the NMU: an exact zero is +0 (R76). -/
def nmuFma (fmt : Nat) (x y z : Fp) : Nat × BitVec 7 :=
  let (p, i) := mulExact x y
  let (s, j) := addExact p z
  withInv (i || j) (roundArith fmt (match s with | .fin _ 0 e => .fin false 0 e | v => v))

end Sys2Proof.Machine
end

