-- ==== Sys2Proof/Machine/Ops.lean ====
section
/-!
DEFINITION. Machine/Ops.lean: the named operations over tables, memories, units, flags, events, messages, completions and
addresses that the meanings are built from.
-/

namespace Sys2Proof.Machine

/-- What a meaning answers: it always has a next state unless it stops by name. -/
abbrev Out := Host.Outcome State Fault Refusal

/-! ## Tables keyed by numbers, keys strictly rising -/

/-- The entry at a key. -/
def tget? {α : Type} : Tbl α → Nat → Option α
  | [], _ => none
  | (j, x) :: t, k => if j == k then some x else tget? t k

/-- The table with the entry at a key set. -/
def tset {α : Type} : Tbl α → Nat → α → Tbl α
  | [], k, v => [(k, v)]
  | (j, x) :: t, k, v => if k < j then (k, v) :: (j, x) :: t else if k == j then (k, v) :: t else (j, x) :: tset t k v

/-- The table without a key. -/
def tdel {α : Type} (t : Tbl α) (k : Nat) : Tbl α := t.filter fun p => p.1 != k

/-- The entry at a key, or a default. -/
def tgetD {α : Type} (t : Tbl α) (k : Nat) (d : α) : α := (tget? t k).getD d

/-- One element of a list replaced by position. -/
def setAt {α : Type} : List α → Nat → α → List α
  | [], _, _ => []
  | _ :: xs, 0, v => v :: xs
  | x :: xs, n + 1, v => x :: setAt xs n v

/-- The elements for which `p` holds replaced by `f` of them. -/
def mapIf {α : Type} (p : α → Bool) (f : α → α) (xs : List α) : List α := xs.map fun x => if p x then f x else x

/-- A saturating or wrapping index into a vector: its element, or a default past the end. -/
def vget {α : Type} {n : Nat} (v : Vector α n) (i : Nat) (d : α) : α := v.toList.getD i d

/-- A vector with the element at an index set; past the end nothing changes. -/
def vset {α : Type} {n : Nat} (v : Vector α n) (i : Nat) (x : α) : Vector α n := v.setIfInBounds i x

/-- A vector with one element changed. -/
def vmod {α : Type} {n : Nat} (v : Vector α n) (i : Nat) (f : α → α) : Vector α n :=
  match v.toList[i]? with
  | some x => v.setIfInBounds i (f x)
  | none => v

/-! ## Byte memories in canonical form: addresses strictly rising, no zero byte listed -/

/-- A byte of memory; an unlisted byte is zero (notes/assumptions/2.md). -/
def memGet : List Host.Cell → Nat → Byte
  | [], _ => 0
  | (b, x) :: t, a => if b == a then x else memGet t a

/-- A byte written, the canonical form kept: writing zero removes the entry. -/
def memSet : List Host.Cell → Nat → Byte → List Host.Cell
  | [], a, v => if v == 0 then [] else [(a, v)]
  | (b, x) :: t, a, v =>
    if a < b then (if v == 0 then (b, x) :: t else (a, v) :: (b, x) :: t)
    else if a == b then (if v == 0 then t else (a, v) :: t)
    else (b, x) :: memSet t a v

/-- The canonical form: every entry non-zero, and each address above the one before. -/
def memWf : List Host.Cell → Bool
  | [] => true
  | (a, x) :: t => x != 0 && (match t with | [] => true | (b, _) :: _ => decide (a < b)) && memWf t

/-- `n` bytes from an address. -/
def memRead (m : List Host.Cell) (a n : Nat) : List Byte := (List.range n).map fun i => memGet m (a + i)

/-- Bytes written from an address upward. -/
def memWrite (m : List Host.Cell) (a : Nat) : List Byte → List Host.Cell
  | [] => m
  | b :: bs => memWrite (memSet m a b) (a + 1) bs

/-- A range of bytes cleared to zero. -/
def memClear (m : List Host.Cell) (a n : Nat) : List Host.Cell := m.filter fun c => !(decide (a ≤ c.1) && decide (c.1 < a + n))

/-- A little-endian word of memory. -/
def memWord (m : List Host.Cell) (a : Nat) : Word := BitVec.ofNat 64 (leNat (memRead m a 8))

/-! ## The units of the state -/

/-- A port. -/
def portOf (p : Port) (s : State) : PortSt := match p with | .A => s.portA | .B => s.portB

/-- A port changed. -/
def modPort (p : Port) (f : PortSt → PortSt) (s : State) : State :=
  match p with
  | .A => { s with portA := f s.portA }
  | .B => { s with portB := f s.portB }

/-- The other port. -/
def peerOf : Port → Port
  | .A => .B
  | .B => .A

/-- The slot number of a port's admin channel (R22). -/
def adminSlot : Port → Nat
  | .A => 0
  | .B => 1

/-- A slot of the channel table. -/
def slotOf (i : Nat) (s : State) : Slot := tgetD s.slots i {}

/-- A slot changed. -/
def modSlot (i : Nat) (f : Slot → Slot) (s : State) : State := { s with slots := tset s.slots i (f (slotOf i s)) }

/-- The live channel of a slot. -/
def chanOf (i : Nat) (s : State) : Option Chan := (slotOf i s).chan

/-- The live channel of a slot changed; a free slot is left alone. -/
def modChan (i : Nat) (f : Chan → Chan) (s : State) : State :=
  match chanOf i s with
  | some c => modSlot i (fun sl => { sl with chan := some (f c) }) s
  | none => s

/-- A core by logical number. -/
def coreOf (c : Nat) (s : State) : Core := tgetD s.cores c {}

/-- A core changed. -/
def modCore (c : Nat) (f : Core → Core) (s : State) : State := { s with cores := tset s.cores c (f (coreOf c s)) }

/-- The scalar state of a place (R133). -/
def seqOf (p : Place) (s : State) : Seq :=
  match p with
  | .core c => (coreOf c s).seq
  | .link l => tgetD s.linkSeq l {}
  | .mem m => tgetD s.memSeq m {}

/-- The scalar state of a place changed. -/
def modSeq (p : Place) (f : Seq → Seq) (s : State) : State :=
  match p with
  | .core c => modCore c (fun k => { k with seq := f k.seq }) s
  | .link l => { s with linkSeq := tset s.linkSeq l (f (tgetD s.linkSeq l {})) }
  | .mem m => { s with memSeq := tset s.memSeq m (f (tgetD s.memSeq m {})) }

/-- A link. -/
def linkOf (l : Nat) (s : State) : Link := tgetD s.links l {}

/-- A link changed. -/
def modLink (l : Nat) (f : Link → Link) (s : State) : State := { s with links := tset s.links l (f (linkOf l s)) }

/-- A compression engine. -/
def engineOf (e : Nat) (s : State) : Engine := tgetD s.engines e {}

/-- A compression engine changed. -/
def modEngine (e : Nat) (f : Engine → Engine) (s : State) : State :=
  { s with engines := tset s.engines e (f (engineOf e s)) }

/-- A group by identifier. -/
def groupOf (g : Nat) (s : State) : Option Group := s.groups.find? fun x => x.id == g

/-- A group changed. -/
def modGroup (g : Nat) (f : Group → Group) (s : State) : State :=
  { s with groups := mapIf (fun x => x.id == g) f s.groups }

/-- A run by number. -/
def runOf (r : Nat) (s : State) : Option Run := s.runs.find? fun x => x.id == r

/-- A run changed. -/
def modRun (r : Nat) (f : Run → Run) (s : State) : State := { s with runs := mapIf (fun x => x.id == r) f s.runs }

/-- A pass by number. -/
def passOf (p : Nat) (s : State) : Option Pass := s.passes.find? fun x => x.id == p

/-- A pass changed. -/
def modPass (p : Nat) (f : Pass → Pass) (s : State) : State :=
  { s with passes := mapIf (fun x => x.id == p) f s.passes }

/-- A held or started descriptor by its fetch number. -/
def descOf (i : Nat) (s : State) : Option DescRec := s.descs.find? fun x => x.id == i

/-- A held or started descriptor changed. -/
def modDesc (i : Nat) (f : DescRec → DescRec) (s : State) : State :=
  { s with descs := mapIf (fun x => x.id == i) f s.descs }

/-- A binding by number. -/
def bindingOf (b : Nat) (s : State) : Option Binding := s.nmu.bindings.find? fun x => x.num == b

/-- The update units changed. -/
def modNmu (f : NmuSt → NmuSt) (s : State) : State := { s with nmu := f s.nmu }

/-- A binding changed. -/
def modBinding (b : Nat) (f : Binding → Binding) (s : State) : State :=
  modNmu (fun n => { n with bindings := mapIf (fun x => x.num == b) f n.bindings }) s

/-- The fast tier changed. -/
def modMemory (f : MemSt → MemSt) (s : State) : State := { s with memory := f s.memory }

/-- A stack changed. -/
def modStack (i : Nat) (f : StackSt → StackSt) (s : State) : State :=
  modMemory (fun m => { m with stk := vmod m.stk i f }) s

/-- A memory channel. -/
def memChanOf (c : Nat) (s : State) : ChanMem := tgetD s.memory.chans c {}

/-- A memory channel changed. -/
def modMemChan (c : Nat) (f : ChanMem → ChanMem) (s : State) : State :=
  modMemory (fun m => { m with chans := tset m.chans c (f (tgetD m.chans c {})) }) s

/-- Bring-up, power and telemetry changed. -/
def modMod (f : ModuleSt → ModuleSt) (s : State) : State := { s with mod := f s.mod }

/-- Module flash changed. -/
def modFlash (f : FlashSt → FlashSt) (s : State) : State := { s with flash := f s.flash }

/-- The time domain changed. -/
def modTime (f : TimeSt → TimeSt) (s : State) : State := { s with time := f s.time }

/-- The report card in the making and the Policy Engine changed. -/
def modCard (f : CardSt → CardSt) (s : State) : State := { s with card := f s.card }

/-- The deskmate state changed. -/
def modMate (f : MateSt → MateSt) (s : State) : State := { s with mate := f s.mate }

/-- A pen pal by identifier. -/
def palOf (p : Nat) (s : State) : Option Pal := s.pals.find? fun x => x.id == p

/-- A pen pal changed. -/
def modPal (p : Nat) (f : Pal → Pal) (s : State) : State := { s with pals := mapIf (fun x => x.id == p) f s.pals }

/-- A pen-pal region by number. -/
def regionOf (r : Nat) (s : State) : Option Region := s.regions.find? fun x => x.num == r

/-- A pen-pal region changed. -/
def modRegion (r : Nat) (f : Region → Region) (s : State) : State :=
  { s with regions := mapIf (fun x => x.num == r) f s.regions }

/-- Device time now (R12). -/
def now (s : State) : Word := s.time.dtime

/-- The model's own running time in nanoseconds, 4 for each TCLK cycle since power-on: what durations are measured by. -/
def mono (s : State) : Word := BitVec.ofNat 64 (4 * s.time.ticks)

/-- Nanoseconds from one DTIME to another, zero when the second is not later. -/
def nsSince (t u : Word) : Nat := u.toNat - t.toNat

/-- Free values: `n` of them drawn, the counter advanced. -/
def drawFree (n : Nat) (s : State) : State := { s with free := s.free + n }

/-- `n` bytes of undefined contents from the free counter as it stands. -/
def freeBytes (n : Nat) (s : State) : List Byte := (List.range n).map fun i => Config.freeByte (s.free + i)

/-! ## The card's events and counters (R435, R436) -/

/-- An event recorded (R436). -/
def raiseEvent (code : Nat) (args : List Nat) (s : State) : State :=
  modCard (fun k => { k with events := k.events ++ [{ code := code, dtime := now s, args := args }] }) s

/-- A counter word of Table 17-3 advanced. -/
def countCard (word n : Nat) (s : State) : State :=
  modCard (fun k => { k with counters := vmod k.counters word (· + n) }) s

/-- Bits ORed into a counter word of Table 17-3. -/
def orCard (word bits : Nat) (s : State) : State :=
  modCard (fun k => { k with counters := vmod k.counters word (· ||| bits) }) s

/-- A stall interval of a cause added (R435). -/
def addStallTo (cause ns : Nat) : List (Nat × Nat × Nat) → List (Nat × Nat × Nat)
  | [] => [(cause, 1, ns)]
  | (c, n, t) :: r => if c == cause then (c, n + 1, t + ns) :: r else (c, n, t) :: addStallTo cause ns r

/-- A stall recorded (R435). -/
def addStall (cause ns : Nat) (s : State) : State :=
  modCard (fun k => { k with stalls := addStallTo cause ns k.stalls }) s

/-- A decision record (R440). -/
def addDecision (d : DecisionRec) (s : State) : State := modCard (fun k => { k with decisions := k.decisions ++ [d] }) s

/-! ## Policy decisions (R437, R440, R441) -/

/-- A group's entry of the limits image, or the defaults that forbid everything. -/
def policyOf (g : Nat) (s : State) : PolicyEntry := (s.card.policy.find? fun e => e.group == g).getD { group := g }

/-- Whether the Policy Engine may act on a setting: for one of the device alone the group is 0xFFFF. -/
def policyAllows (bit g : Nat) (s : State) : Bool :=
  !(s.card.deviceForbid.testBit bit) && (g == 0xFFFF || !((policyOf g s).forbid.testBit bit))

/-- A decision logged: what it would set, applied or blocked. -/
def logDecision (setting : Nat) (applied : Bool) (g subject old new trigger measured : Nat) (s : State) : State :=
  addDecision { setting := setting, applied := applied, group := g, dtime := now s, subject := subject, old := old, new := new
                trigger := trigger, measured := measured } s

/-- The move share (R264) set by the Policy Engine at a phase boundary (Table 17-7, bit 6); nothing is decided where it already
holds. -/
def setShare (v : Nat) (s : State) : State :=
  if s.memory.moveShare == v then s
  else
    let allow := policyAllows 6 0xFFFF s
    let s := logDecision 6 allow 0xFFFF 0 s.memory.moveShare v 0 0 s
    if allow then modMemory (fun m => { m with moveShare := v }) s else s

/-! ## Messages and flags (R8, R21, R40, R450, R456, R457) -/

/-- One MSI-X message of a vector: dropped while the port is fenced (R21), pended while the vector's mask bit is set
(R450). The mask is set in a vector that nothing has written (notes/assumptions/4.md). -/
def sendMsix (p : Port) (v : Nat) (s : State) : State :=
  if (portOf p s).fenced then s
  else if (tgetD (portOf p s).msixTable (4 * v + 3) 1).getLsbD 0 then
    modPort p (fun q => { q with msixPending := if q.msixPending.contains v then q.msixPending else q.msixPending ++ [v] }) s
  else { s with msix := s.msix ++ [(p == .B, v)] }

/-- The flag message of a port for DEV_FLAGS bit `i` set while 0 (R457). -/
def flagMessage (p : Port) (i : Nat) (s : State) : State :=
  if (portOf p s).flagEn && (portOf p s).flagEnable.getLsbD i then sendMsix p (portOf p s).flagVector.toNat s else s

/-- A hardware set of DEV_FLAGS bit `i`: the flag, its counter and its messages (R8, R456, R457). -/
def raiseDev (i : Nat) (s : State) : State :=
  let t := { s with devFlags := s.devFlags ||| BitVec.ofNat 29 (2 ^ i), devCounts := vmod s.devCounts i (· + 1) }
  if s.devFlags.getLsbD i then t else flagMessage .B i (flagMessage .A i t)

/-- A hardware set of BELL_ERROR of a slot (R36, R453) and of its summary bit 27. -/
def raiseBellError (slot : Nat) (s : State) : State :=
  raiseDev 27 (modSlot slot (fun x => { x with bellError := true, bellCount := x.bellCount + 1 }) s)

/-- A hardware set of a LINK_FLAGS bit (R327) and of its summary bit 28. -/
def raiseLink (l i : Nat) (s : State) : State :=
  raiseDev 28 (modLink l (fun x =>
    { x with flags := x.flags ||| BitVec.ofNat 8 (2 ^ i), counts := vmod x.counts i (· + 1) }) s)

/-- A hardware set of a FAR_FLAGS bit (R351) and of its summary bit 28. -/
def raiseFar (l i : Nat) (s : State) : State :=
  raiseDev 28 (modLink l (fun x =>
    { x with far := { x.far with flags := x.far.flags ||| BitVec.ofNat 5 (2 ^ i),
                                 counts := vmod x.far.counts i (· + 1) } }) s)

/-! ## Completions (R24, R38, R46, R47, R51) -/

/-- Statuses of Table 02-11. -/
def stDone : BitVec 8 := 0x00
def stReplayed : BitVec 8 := 0x01
def stFlagged : BitVec 8 := 0x02
def stAdmitted : BitVec 8 := 0x03
def stDeadline : BitVec 8 := 0x10
def stCapacity : BitVec 8 := 0x11
def stMalformed : BitVec 8 := 0x12
def stVoidPath : BitVec 8 := 0x20
def stFlushed : BitVec 8 := 0x21
def stRolledBack : BitVec 8 := 0x22
def stGone : BitVec 8 := 0x30
def stAuth : BitVec 8 := 0x31

/-- The list with its first DONE entry removed: what R51 discards. -/
def dropDone : List Compl → List Compl
  | [] => []
  | c :: cs => if c.status == stDone then cs else c :: dropDone cs

/-- A completion put to wait in a channel (R38, R51): past 4,096 waiting the oldest DONE is discarded and counted. -/
def waitCompl (c : Compl) (k : Chan) : Chan :=
  let w := k.waiting ++ [c]
  if w.length > 4096 && w.any (fun x => x.status == stDone) then { k with waiting := dropDone w, lost := k.lost + 1 }
  else { k with waiting := w }

/-- Whether the admin channel of a port is enabled. -/
def adminOn (p : Port) (s : State) : Bool := (portOf p s).adminEnable

/-- A completion sent to the completion ring of a slot; those of a disabled admin channel wait in the device
(R24, R451). -/
def postCompl (slot : Nat) (c : Compl) (s : State) : State :=
  if slot == 0 && !adminOn .A s then modPort .A (fun q => { q with stale := q.stale ++ [c] }) s
  else if slot == 1 && !adminOn .B s then modPort .B (fun q => { q with stale := q.stale ++ [c] }) s
  else modChan slot (waitCompl c) s

/-! ## Addresses (R29, R30) -/

/-- Bytes of a page. -/
def pageBytes : Nat := 2097152

/-- Where an address of a channel's space lies: space 0 the fast tier, 1 host memory behind Port A, 2 behind Port B; its
address there; and whether it may be written. -/
abbrev Loc := Nat × Nat × Bool

/-- The page that is not an alias. -/
def pageLoc (k : PageKind) (ro : Bool) (off : Nat) : Option Loc :=
  match k with
  | .fast f => some (0, f * pageBytes + off, !ro)
  | .slow .A h => some (1, h + off, !ro)
  | .slow .B h => some (2, h + off, !ro)
  | .aliasOf _ _ => none

/-- The location of a byte of a channel's address space, or none when it is unmapped. An alias page names the page it
resolves to (R29). -/
def locate (slot va : Nat) (s : State) : Option Loc :=
  match (chanOf slot s).bind fun c => tget? c.pages (va / pageBytes) with
  | none => none
  | some pg =>
    match pg.kind with
    | .aliasOf t p =>
      match (chanOf t s).bind fun c => tget? c.pages p with
      | none => none
      | some q => pageLoc q.kind (pg.readOnly || q.readOnly) (va % pageBytes)
    | k => pageLoc k pg.readOnly (va % pageBytes)

/-- The first address of a region at which a byte is unmapped, or not writable when `wr` (R30): `n` pages from `va`, all
below `stop`. -/
def firstBad (slot : Nat) (wr : Bool) (s : State) : Nat → Nat → Nat → Option Nat
  | 0, _, _ => none
  | n + 1, va, stop =>
    if stop ≤ va then none
    else match locate slot va s with
      | none => some va
      | some (_, _, w) => if wr && !w then some va else firstBad slot wr s n (va / pageBytes * pageBytes + pageBytes) stop

/-- The first offending address of a region, as R30 checks it. -/
def badRegion (slot va len : Nat) (wr : Bool) (s : State) : Option Nat :=
  firstBad slot wr s (len / pageBytes + 2) va (va + len)

/-- A byte of one of the three spaces. -/
def spaceGet (sp a : Nat) (s : State) : Byte :=
  match sp with
  | 0 => memGet s.memory.fast a
  | 1 => memGet s.portA.mem a
  | _ => memGet s.portB.mem a

/-- A byte of one of the three spaces written; nothing passes through a fenced port (R21). -/
def spaceSet (sp a : Nat) (v : Byte) (s : State) : State :=
  match sp with
  | 0 => { s with memory := { s.memory with fast := memSet s.memory.fast a v } }
  | 1 => if s.portA.fenced then s else { s with portA := { s.portA with mem := memSet s.portA.mem a v } }
  | _ => if s.portB.fenced then s else { s with portB := { s.portB with mem := memSet s.portB.mem a v } }

/-- A byte of a channel's space; an unmapped byte reads zero, and no meaning reads one it has not checked. -/
def vaGet (slot va : Nat) (s : State) : Byte :=
  match locate slot va s with
  | some (sp, a, _) => spaceGet sp a s
  | none => 0

/-- `n` bytes of a channel's space. -/
def vaRead (slot va n : Nat) (s : State) : List Byte := (List.range n).map fun i => vaGet slot (va + i) s

/-- A little-endian word of a channel's space. -/
def vaWord (slot va : Nat) (s : State) : Word := BitVec.ofNat 64 (leNat (vaRead slot va 8 s))

/-- Bytes written into a channel's space; bytes that may not be written are left alone. -/
def vaWrite (slot : Nat) : Nat → List Byte → State → State
  | _, [], s => s
  | va, b :: bs, s =>
    vaWrite slot (va + 1) bs
      (match locate slot va s with
        | some (sp, a, true) => spaceSet sp a b s
        | _ => s)

/-- Bytes written where a channel's page lies, READ_ONLY or not: the device's own writes (R194, R227). -/
def vaForce (slot : Nat) : Nat → List Byte → State → State
  | _, [], s => s
  | va, b :: bs, s =>
    vaForce slot (va + 1) bs
      (match locate slot va s with
        | some (sp, a, _) => spaceSet sp a b s
        | none => s)

/-- The contiguous pieces of a region as (space, address, length). -/
def piecesFrom (slot : Nat) (s : State) : Nat → Nat → Nat → List (Nat × Nat × Nat)
  | 0, _, _ => []
  | n + 1, va, stop =>
    if stop ≤ va then []
    else
      let nx := min stop (va / pageBytes * pageBytes + pageBytes)
      match locate slot va s with
      | some (sp, a, _) => (sp, a, nx - va) :: piecesFrom slot s n nx stop
      | none => piecesFrom slot s n nx stop

/-- The pieces of a region. -/
def pieces (slot va len : Nat) (s : State) : List (Nat × Nat × Nat) :=
  piecesFrom slot s (len / pageBytes + 2) va (va + len)

/-- Whether two piece lists share a byte. -/
def piecesMeet (xs ys : List (Nat × Nat × Nat)) : Bool :=
  xs.any fun x => ys.any fun y => x.1 == y.1 && decide (x.2.1 < y.2.1 + y.2.2) && decide (y.2.1 < x.2.1 + x.2.2)

/-- The device addresses of a channel's expert page (R166) and numerics page (R192). -/
def expertPageVa : Nat := 0xFFFFFFE00000
def numericsVa : Nat := 0xFFFFFFC00000

/-- Whether a channel is one of a group's channels (R192): its latest STEP_OPEN was posted there, the channel holds a
binding of the group, or has fetched a LESSON_RUN, TENSOR_MOVE or EXCHANGE that named it. -/
def groupChan (g : Group) (slot : Nat) (s : State) : Bool :=
  g.openSlot == slot || (s.nmu.bindings.any fun b => b.slot == slot && b.group == g.id)
    || ((chanOf slot s).map fun c => c.groups.contains g.id).getD false

/-- The expert pages an open step protects: those of the channels whose lessons have named its group (R166). -/
def protectedPages (g : Group) (s : State) : List (Nat × Nat × Nat) :=
  s.slots.filterMap fun e => e.2.chan.bind fun c =>
    if c.lessonGroups.contains g.id then some (e.1, expertPageVa, pageBytes) else none

/-- Whether a region overlaps an input region of some open step (R15). The numbers are slot, base and length. -/
def overlapsProtected (slot va len : Nat) (s : State) : Bool :=
  let mine := pieces slot va len s
  s.groups.any fun g => g.open'.isSome &&
    (g.protected' ++ protectedPages g s).any fun r => piecesMeet mine (pieces r.1 r.2.1 r.2.2 s)

/-- The regions of a fast-tier address range that the poison list holds (R260): the first poisoned block address. -/
def poisonedIn (pcs : List (Nat × Nat × Nat)) (s : State) : Option Nat :=
  ((s.memory.chans.flatMap fun c => c.2.poison).filter fun b =>
    pcs.any fun x => x.1 == 0 && decide (b < x.2.1 + x.2.2) && decide (x.2.1 < b + 64)).head?

/-- The device address of the first poisoned block that a region reads, piece by piece from its start (R260). -/
def poisonFrom (s : State) : Nat → List (Nat × Nat × Nat) → Option Nat
  | _, [] => none
  | va, (sp, a, n) :: rest =>
    match poisonedIn [(sp, a, n)] s with
    | some b => some (va + b - a)
    | none => poisonFrom s (va + n) rest

/-- Whether a piece lies in host memory behind a fenced port: an access to it is an uncorrectable one (R271). -/
def pieceFenced (x : Nat × Nat × Nat) (s : State) : Bool :=
  (x.1 == 1 && s.portA.fenced) || (x.1 == 2 && s.portB.fenced)

/-- The device address of the first byte of a region behind a fenced port. -/
def fencedFrom (s : State) : Nat → List (Nat × Nat × Nat) → Option Nat
  | _, [] => none
  | va, x :: rest => if pieceFenced x s then some va else fencedFrom s (va + x.2.2) rest

/-- The device address of the first block of a region that cannot be read: poisoned, or behind a fenced port (R260,
R271). -/
def poisonVa (slot va len : Nat) (s : State) : Option Nat :=
  match poisonFrom s va (pieces slot va len s), fencedFrom s va (pieces slot va len s) with
  | some a, some b => some (min a b)
  | some a, none => some a
  | none, x => x

/-- Whether pieces hold a block whose data is being rebuilt: an access to it waits (R259). -/
def blocksPending (pcs : List (Nat × Nat × Nat)) (s : State) : Bool :=
  s.memory.pendingErr.any fun b => pcs.any fun x => x.1 == 0 && decide (b < x.2.1 + x.2.2) && decide (x.2.1 < b + 64)

/-- Poison-list entries removed for blocks that the pieces cover whole (R260). -/
def unpoison (pcs : List (Nat × Nat × Nat)) (s : State) : State :=
  let covered (b : Nat) : Bool := pcs.any fun x => x.1 == 0 && decide (x.2.1 ≤ b) && decide (b + 64 ≤ x.2.1 + x.2.2)
  modMemory (fun m => { m with chans := m.chans.map fun c =>
    (c.1, { c.2 with poison := c.2.poison.filter fun b => !covered b }) }) s

/-- Bytes stored into a channel's space; whole blocks written leave the poison list (R260). -/
def vaStore (slot va : Nat) (bs : List Byte) (s : State) : State :=
  vaWrite slot va bs (unpoison (pieces slot va bs.length s) s)

/-! ## Host memory behind a port -/

/-- `n` bytes of host memory behind a port. -/
def hostRead (p : Port) (a n : Nat) (s : State) : List Byte := memRead (portOf p s).mem a n

/-- Bytes written to host memory behind a port; nothing passes through a fenced port (R21). -/
def hostWrite (p : Port) (a : Nat) (bs : List Byte) (s : State) : State :=
  if (portOf p s).fenced then s else modPort p (fun q => { q with mem := memWrite q.mem a bs }) s

/-- A little-endian word of host memory. -/
def hostWord (p : Port) (a : Nat) (s : State) : Word := memWord (portOf p s).mem a

end Sys2Proof.Machine
end

