-- ==== Sys2Proof/Machine/Nmu.lean ====
section
/-!
DEFINITION. Machine/Nmu.lean: the arithmetic of the parameter update (R190, R220, R227 to R240): coefficients, the rules of
the menu, catch-up, and the matrix work of Blockwise Preconditioned Momentum. Each NMU line is one exact operation rounded
once; the flags it raises travel with its value.
-/

namespace Sys2Proof.Machine

/-! ## One line of a rule (R229) -/

/-- A value with the flags of the lines it came from. -/
abbrev NV := Fp × BitVec 7

/-- A rounded result as a value of its format. -/
def nvOf (fmt : Nat) (r : Nat × BitVec 7) (f : BitVec 7) : NV := (decodeCode fmt r.1, r.2 ||| f)

/-- An FP32 code, an M40 code and an exact constant as values. -/
def nv32 (c : W32) : NV := (decodeCode 0x01 c.toNat, 0)
def nv40 (c : W40) : NV := (decodeCode 0x07 c.toNat, 0)
def nvPow2 (e : Int) : NV := (.fin false 1 e, 0)

/-- The code of a value that is already rounded. -/
def to32 (x : NV) : W32 := BitVec.ofNat 32 (roundArith 0x01 x.1).1
def to40 (x : NV) : W40 := BitVec.ofNat 40 (roundArith 0x07 x.1).1

def nFma (fmt : Nat) (a b c : NV) : NV := nvOf fmt (nmuFma fmt a.1 b.1 c.1) (a.2 ||| b.2 ||| c.2)
def nMul (fmt : Nat) (a b : NV) : NV := nvOf fmt (mulOp fmt a.1 b.1) (a.2 ||| b.2)
def nAdd (fmt : Nat) (a b : NV) : NV := nvOf fmt (nmuAdd fmt a.1 b.1) (a.2 ||| b.2)
def nDiv (a b : NV) : NV := nvOf 0x01 (divOp 0x01 a.1 b.1) (a.2 ||| b.2)
def nSqrt (a : NV) : NV := nvOf 0x01 (sqrtOp 0x01 a.1) a.2
def nNeg (a : NV) : NV := (negExact a.1, a.2)

/-- sign(x) of Table 09-4. -/
def nSign (a : NV) : NV :=
  match a.1 with
  | .nan => (.nan, a.2)
  | .inf s => (.fin s 1 0, a.2)
  | .fin s m _ => (if m == 0 then .fin false 0 0 else .fin s 1 0, a.2)

/-- An exact sum rounded once, an exact zero +0. -/
def nSum (xs : List NV) : NV :=
  let r := sumExact (xs.map Prod.fst)
  let z := match r.1 with
    | .fin _ 0 e => Fp.fin false 0 e
    | v => v
  nvOf 0x01 (withInv r.2 (roundArith 0x01 z)) (orFlags (xs.map Prod.snd))

/-! ## Coefficients (R228) -/

/-- An FP64 code rounded once to FP32. -/
def f64to32 (c : Nat) : W32 := BitVec.ofNat 32 (roundArith 0x01 (decodeCode 0x40 c)).1

/-- FP64 products, sums and differences of codes, each rounded to nearest even. -/
def f64Mul (a b : Nat) : Nat := (mulOp 0x40 (decodeCode 0x40 a) (decodeCode 0x40 b)).1
def f64Sub (a b : Nat) : Nat := (subOp 0x40 (decodeCode 0x40 a) (decodeCode 0x40 b)).1

/-- An FP32 code in FP64. -/
def f64Of (c : W32) : Nat := (roundArith 0x40 (decodeCode 0x01 c.toNat)).1

/-- 1.0 in FP64. -/
def f64One : Nat := 0x3FF0000000000000

/-- The loop of pow(b, t): square and multiply from the least significant bit; one turn for each bit of t. -/
def powLoop : Nat → Nat → Nat → Nat → Nat
  | 0, r, _, _ => r
  | fuel + 1, r, x, t =>
    if t == 0 then r else powLoop fuel (if t % 2 == 1 then f64Mul r x else r) (f64Mul x x) (t / 2)

/-- pow(b, t) of R228. -/
def f64Pow (b t : Nat) : Nat := powLoop 64 f64One b t

/-- The fields of a hyperparameter block (Table 09-1) with the defaults of zero fields. -/
def hyLr (h : List Word) : W32 := (h.getD 0 0).setWidth 32
def hyWd (h : List Word) : W32 := BitVec.ofNat 32 (fieldNat (h.getD 0 0) 32 32)
def hyBeta1 (h : List Word) : W32 := (h.getD 1 0).setWidth 32
def hyBeta2 (h : List Word) : W32 := BitVec.ofNat 32 (fieldNat (h.getD 1 0) 32 32)
def hyEps (h : List Word) : W32 := (h.getD 2 0).setWidth 32
def hyEps1 (h : List Word) : W32 :=
  let c := fieldNat (h.getD 2 0) 32 32
  if c == 0 then 0x0DA24260 else BitVec.ofNat 32 c
def hyLbase (h : List Word) : Nat := fieldNat (h.getD 3 0) 0 48
def hyGroup (h : List Word) : Nat := fieldNat (h.getD 3 0) 48 16
def hyNesterov (h : List Word) : Bool := bitOf (h.getD 4 0) 0
def hyTouchAll (h : List Word) : Bool := bitOf (h.getD 4 0) 1
def hyTier (h : List Word) : Nat := fieldNat (h.getD 4 0) 2 2
def hyInterval (h : List Word) : Nat :=
  let v := fieldNat (h.getD 4 0) 8 8
  if v == 0 then 64 else v
def hyMature (h : List Word) : Nat :=
  let v := fieldNat (h.getD 4 0) 16 16
  if v == 0 then 256 else v
def hyDamp (h : List Word) : W32 :=
  let c := fieldNat (h.getD 4 0) 32 32
  if c == 0 then 0x35800000 else BitVec.ofNat 32 c
def hySlow (h : List Word) : Nat := (h.getD 5 0).toNat
def hyStageVa (h : List Word) : Nat := fieldNat (h.getD 6 0) 0 48
def hyStageBytes (h : List Word) : Nat := fieldNat (h.getD 7 0) 0 48

/-- The coefficients of a step from the hyperparameter block as read at its STEP_OPEN, t steps after BIND_STEP (R228). -/
def coefOf (h : List Word) (t : Nat) : Coef :=
  let one := f64One
  let b1 := f64Of (hyBeta1 h)
  let b2 := f64Of (hyBeta2 h)
  { lr := hyLr h, wd := hyWd h, beta1 := hyBeta1 h, beta2 := hyBeta2 h, eps := hyEps h, eps1 := hyEps1 h
    omb1 := f64to32 (f64Sub one b1), omb2 := f64to32 (f64Sub one b2)
    bc1 := f64to32 (f64Sub one (f64Pow b1 t)), bc2 := f64to32 (f64Sub one (f64Pow b2 t))
    c := f64to32 (f64Sub one (f64Mul (f64Of (hyLr h)) (f64Of (hyWd h)))) }

/-! ## The elementwise rules (Table 09-4) -/

/-- What a rule leaves of a parameter: master, m and v. -/
abbrev Param := NV × NV × NV

def ruleSgd (k : Coef) (nesterov : Bool) (g w m v : NV) : Param :=
  let m := nFma 0x01 (nv32 k.beta1) m g
  let u := if nesterov then nFma 0x01 (nv32 k.beta1) m g else m
  let u := nFma 0x01 (nv32 k.wd) w u
  (nFma 0x07 (nNeg (nv32 k.lr)) u w, m, v)

/-- The second-moment lines shared by Adam and AdamW: m, v and mh ÷ d. -/
def adamCore (k : Coef) (g m v : NV) : NV × NV × NV :=
  let m := nFma 0x01 (nv32 k.beta1) m (nMul 0x01 (nv32 k.omb1) g)
  let b := nMul 0x01 (nv32 k.omb2) (nMul 0x01 g g)
  let v := nFma 0x01 (nv32 k.beta2) v b
  let mh := nDiv m (nv32 k.bc1)
  let vh := nDiv v (nv32 k.bc2)
  let d := nAdd 0x01 (nSqrt vh) (nv32 k.eps)
  (m, v, nDiv mh d)

def ruleAdam (k : Coef) (g w m v : NV) : Param :=
  let (m, v, u) := adamCore k (nFma 0x01 (nv32 k.wd) w g) m v
  (nFma 0x07 (nNeg (nv32 k.lr)) u w, m, v)

def ruleAdamW (k : Coef) (g w m v : NV) : Param :=
  let (m, v, u) := adamCore k g m v
  (nFma 0x07 (nNeg (nv32 k.lr)) (nFma 0x01 (nv32 k.wd) w u) w, m, v)

def ruleLion (k : Coef) (g w m v : NV) : Param :=
  let a := nFma 0x01 (nv32 k.beta1) m (nMul 0x01 (nv32 k.omb1) g)
  let u := nFma 0x01 (nv32 k.wd) w (nSign a)
  (nFma 0x07 (nNeg (nv32 k.lr)) u w, nFma 0x01 (nv32 k.beta2) m (nMul 0x01 (nv32 k.omb2) g), v)

/-- Rules 0 to 3 on one parameter. -/
def ruleElem (rule : Nat) (k : Coef) (nesterov : Bool) (g w m v : NV) : Param :=
  match rule with
  | 0 => ruleSgd k nesterov g w m v
  | 1 => ruleAdam k g w m v
  | 2 => ruleAdamW k g w m v
  | _ => ruleLion k g w m v

/-- Whether a rule keeps a second moment per parameter (Table 09-2). -/
def hasV (rule : Nat) : Bool := rule == 1 || rule == 2

/-- Whether a rule works on blocks. -/
def isBlockRule (rule : Nat) : Bool := rule == 4 || rule == 5

/-- A stripe's elements by position. -/
def at32 (xs : Array W32) (i : Nat) : NV := nv32 (xs.getD i 0)
def at40 (xs : Array W40) (i : Nat) : NV := nv40 (xs.getD i 0)

/-- Rules 0 to 3 on a stripe for step `n`: the stripe and the flags raised. -/
def ruleStripe (rule : Nat) (k : Coef) (nesterov : Bool) (n : Word) (g : List NV) (x : Stripe) : Stripe × BitVec 7 :=
  let ws := x.w.toArray
  let ms := x.m.toArray
  let vs := x.v.toArray
  let out := g.zipIdx.map fun y => ruleElem rule k nesterov y.1 (at40 ws y.2) (at32 ms y.2) (at32 vs y.2)
  ({ step := n, w := out.map fun p => to40 p.1, m := out.map fun p => to32 p.2.1
     v := if hasV rule then out.map fun p => to32 p.2.2 else x.v },
   orFlags (out.map fun p => p.1.2 ||| p.2.1.2 ||| (if hasV rule then p.2.2.2 else 0)))

/-! ## Catch-up (R230) -/

/-- The product of a coefficient over steps `a` to `a + n - 1`, in FP64, rounded once to FP32. -/
def factorOver (f : Coef → W32) (ring : Tbl Coef) (a n : Nat) : NV :=
  nv32 (f64to32 ((List.range n).foldl (fun p i => f64Mul p (f64Of (f (tgetD ring ((a + i) % 4096) {})))) f64One))

/-- The factors of Table 09-5 for steps `a` to `b`: of w, of m, of the statistics; none where unchanged. -/
def catchFactors (rule : Nat) (ring : Tbl Coef) (a b : Nat) : Option NV × NV × Option NV :=
  let n := b + 1 - a
  let fw := factorOver (fun k => k.c) ring a n
  let f1 := factorOver (fun k => k.beta1) ring a n
  let f2 := factorOver (fun k => k.beta2) ring a n
  match rule with
  | 0 => (some fw, f1, none)
  | 1 => (none, f1, some f2)
  | 2 => (some fw, f1, some f2)
  | 3 => (some fw, f2, none)
  | _ => (some fw, f1, some f2)

/-- An FP32 array multiplied by a factor. -/
def scale32 (f : NV) (xs : List W32) : List W32 × BitVec 7 :=
  let ys := xs.map fun x => nMul 0x01 (nv32 x) f
  (ys.map to32, orFlags (ys.map Prod.snd))

/-- A stripe caught up over steps `a` to `b`; its step is set by the caller. -/
def catchStripe (rule : Nat) (ring : Tbl Coef) (a b : Nat) (x : Stripe) : Stripe × BitVec 7 :=
  if b < a then (x, 0)
  else
    let (fw, fm, fv) := catchFactors rule ring a b
    let w := match fw with
      | some f => x.w.map fun c => nMul 0x07 (nv40 c) f
      | none => x.w.map nv40
    let m := scale32 fm x.m
    let v := match hasV rule, fv with
      | true, some f => scale32 f x.v
      | _, _ => (x.v, 0)
    ({ x with w := w.map to40, m := m.1, v := v.1 }, orFlags (w.map Prod.snd) ||| m.2 ||| v.2)

/-- A block record's statistics caught up over steps `a` to `b`; roots are not. -/
def catchBlock (rule : Nat) (ring : Tbl Coef) (a b : Nat) (x : Block) : Block × BitVec 7 :=
  if b < a then (x, 0)
  else
    let f := factorOver (fun k => k.beta2) ring a (b + 1 - a)
    let r := scale32 f x.row
    let c := scale32 f x.col
    let l := scale32 f x.lstat
    let q := scale32 f x.rstat
    if rule == 5 then ({ x with row := r.1, col := c.1, lstat := l.1, rstat := q.1 }, r.2 ||| c.2 ||| l.2 ||| q.2)
    else ({ x with row := r.1, col := c.1 }, r.2 ||| c.2)

/-! ## Factored Adam (rule 4) -/

/-- The 16,384 elements of a block as rows of 128. -/
def blockRows {α : Type} (xs : List α) : List (List α) := chunks 128 xs

/-- The columns of a block. -/
def blockCols (xs : Array NV) : List (List NV) :=
  (List.range 128).map fun j => (List.range 128).map fun i => xs.getD (128 * i + j) (.fin false 0 0, 0)

/-- A row or column statistic after the step: the sum of squares scaled by 2^-7 and folded in. -/
def statLine (k : Coef) (old : W32) (q : List NV) : NV :=
  let s := nMul 0x01 (nSum q) (nvPow2 (-7))
  nFma 0x01 (nv32 k.beta2) (nv32 old) (nMul 0x01 (nv32 k.omb2) s)

/-- The row and column statistics after a block's gradient. -/
def factorStats (k : Coef) (g : List NV) (row col : List W32) : List NV × List NV :=
  let q := g.map fun x => nFma 0x01 x x (nv32 k.eps1)
  (List.zipWith (statLine k) row (blockRows q), List.zipWith (statLine k) col (blockCols q.toArray))

/-- The line m = fma(beta1, m, omb1 * g). -/
def momentLine (k : Coef) (g m : NV) : NV := nFma 0x01 (nv32 k.beta1) m (nMul 0x01 (nv32 k.omb1) g)

/-- The lines of Factored Adam from vh onward, on an updated m. -/
def factorLine (k : Coef) (ri cj rbar m w : NV) : NV :=
  let vh := nDiv (nDiv (nMul 0x01 ri cj) rbar) (nv32 k.bc2)
  let d := nSqrt vh
  let u := nDiv (nDiv m (nv32 k.bc1)) d
  nFma 0x07 (nNeg (nv32 k.lr)) (nFma 0x01 (nv32 k.wd) w u) w

/-- The masters of a block under Factored Adam from its updated momentum and statistics. -/
def factorApply (k : Coef) (row col : List NV) (m w : List NV) : List NV :=
  let ra := row.toArray
  let ca := col.toArray
  let z : NV := (.fin false 0 0, 0)
  let rbar := nMul 0x01 (nSum row) (nvPow2 (-7))
  (List.zip m w).zipIdx.map fun x => factorLine k (ra.getD (x.2 / 128) z) (ca.getD (x.2 % 128) z) rbar x.1.1 x.1.2

/-! ## Matrices of Blockwise Preconditioned Momentum (R235, R236, R238) -/

/-- A 128 × 128 FP32 matrix, row-major. -/
abbrev Mat := Array W32

/-- The value of an element. -/
def matAt (a : Mat) (i j : Nat) : Fp := decodeCode 0x01 (a.getD (128 * i + j) 0).toNat

/-- A matrix from its elements. -/
def matOf (f : Nat → Nat → W32) : Mat := ((List.range 16384).map fun x => f (x / 128) (x % 128)).toArray

/-- A matrix of elementwise results. -/
def matMap (f : Fp → Nat × BitVec 7) (a : Mat) : Mat := a.map fun x => BitVec.ofNat 32 (f (decodeCode 0x01 x.toNat)).1

/-- The BF16 halves of an element: x_hi and x_lo (R236). -/
def halves (x : Fp) : Fp × Fp :=
  let hi := decodeCode 0x02 (roundArith 0x02 x).1
  let d := decodeCode 0x01 (subOp 0x01 x hi).1
  (hi, decodeCode 0x02 (roundArith 0x02 d).1)

/-- One pass of a product into an accumulator, in ascending K. -/
def passDot (acc : W32) (xs : List (Fp × Fp)) : W32 := xs.foldl (fun s p => (tileMac s p.1 p.2).1) acc

/-- The product of two matrices by three chained passes (R236). -/
def matMul (a b : Mat) : Mat :=
  let ah := a.map fun x => halves (decodeCode 0x01 x.toNat)
  let bh := b.map fun x => halves (decodeCode 0x01 x.toNat)
  let z : Fp × Fp := (.fin false 0 0, .fin false 0 0)
  matOf fun i j =>
    let row := (List.range 128).map fun k => ah.getD (128 * i + k) z
    let col := (List.range 128).map fun k => bh.getD (128 * k + j) z
    let s := passDot 0 (List.zipWith (fun x y => (x.1, y.1)) row col)
    let s := passDot s (List.zipWith (fun x y => (x.1, y.2)) row col)
    passDot s (List.zipWith (fun x y => (x.2, y.1)) row col)

/-- The transpose. -/
def matT (a : Mat) : Mat := matOf fun i j => a.getD (128 * j + i) 0

/-- One Vector Engine operation's FP32 value. -/
def ve (r : Nat × BitVec 7) : Fp := decodeCode 0x01 r.1

/-- The diagonal summed by REDUCE. -/
def matTrace (a : Mat) : Fp := ve (roundArith 0x01 (sumExact ((List.range 128).map fun i => matAt a i i)).1)

/-- A statistics matrix after a step: fma(beta2, stat, omb2 * s). -/
def statMat (k : Coef) (stat s : Mat) : Mat :=
  matOf fun i j =>
    let x := ve (mulOp 0x01 (decodeCode 0x01 k.omb2.toNat) (matAt s i j))
    BitVec.ofNat 32 (fmaOp 0x01 (decodeCode 0x01 k.beta2.toNat) (matAt stat i j) x).1

/-- A fraction m * 2^e as an exact value. -/
def fpc (m : Nat) (e : Int) (neg : Bool := false) : Fp := .fin neg m e

/-- Whether every element is finite. -/
def matFinite (a : Mat) : Bool := a.all fun x => !nonFiniteFp (decodeCode 0x01 x.toNat)

/-- Whether the largest |mm - identity| is at most 2^-12. -/
def matNearId (mm : Mat) : Bool :=
  (List.range 16384).all fun x =>
    let d := ve (subOp 0x01 (matAt mm (x / 128) (x % 128)) (if x / 128 == x % 128 then fpc 1 0 else fpc 0 0))
    match d with
    | .fin _ m e => !ltFp (fpc 1 (-12)) (.fin false m e)
    | _ => false

/-- The Newton iteration, up to `n` turns: the root, or none when it fails. -/
def newton : Nat → Mat → Mat → Option Mat
  | 0, _, _ => none
  | n + 1, x, mm =>
    let mi := matOf fun i j =>
      BitVec.ofNat 32 (fmaOp 0x01 (fpc 1 (-2) true) (matAt mm i j) (if i == j then fpc 5 (-2) else fpc 0 0)).1
    let x := matMul x mi
    let m2 := matMul mi mi
    let mm := matMul (matMul m2 m2) mm
    if !(matFinite x && matFinite mm) then none
    else if matNearId mm then some x
    else newton n x mm

/-- The inverse fourth root of a statistics matrix under a damping (R238). -/
def invRoot (a : Mat) (damp : W32) : Option Mat :=
  let tr := matTrace a
  if nonFiniteFp tr || !ltFp (fpc 0 0) tr then none
  else
    let shift := ve (mulOp 0x01 (ve (mulOp 0x01 (decodeCode 0x01 damp.toNat) tr)) (fpc 1 (-7)))
    let a1 := matOf fun i j => if i == j then BitVec.ofNat 32 (addOp 0x01 (matAt a i j) shift).1 else a.getD (128 * i + j) 0
    let z := ve (divOp 0x01 (fpc 5 (-1)) (matTrace a1))
    let mm := matMap (mulOp 0x01 z) a1
    let y := ve (sqrtOp 0x01 (ve (sqrtOp 0x01 z)))
    let x := matOf fun i j => BitVec.ofNat 32 (mulOp 0x01 y (if i == j then fpc 1 0 else fpc 0 0)).1
    newton 24 x mm

/-- The precondition pass: lstat, rstat and, when the block is in MODE 0, the preconditioned momentum (R235). -/
def precondPass (k : Coef) (full : Bool) (m lstat rstat lroot rroot : Mat) : Mat × Mat × Option Mat :=
  (statMat k lstat (matMul m (matT m)), statMat k rstat (matMul (matT m) m),
   if full then some (matMul (matMul lroot m) rroot) else none)

/-! ## The end of a block's step (R237, R239, R240) -/

/-- DAMP ÷ 10, no lower than DAMP_BASE; and DAMP × 10, no higher than 1.0: in FP32. -/
def dampDown (d base : W32) : W32 :=
  let q := (divOp 0x01 (decodeCode 0x01 d.toNat) (fpc 10 0)).1
  if ltFp (decodeCode 0x01 q) (decodeCode 0x01 base.toNat) then base else BitVec.ofNat 32 q
def dampUp (d : W32) : W32 :=
  let q := (mulOp 0x01 (decodeCode 0x01 d.toNat) (fpc 10 0)).1
  if ltFp (fpc 1 0) (decodeCode 0x01 q) then 0x3F800000 else BitVec.ofNat 32 q

/-- What a recomputation raises: 0 nothing, 1 PRECOND_DAMPED, 2 PRECOND_DAMPED with PRECOND_FALLBACK, 3
PRECOND_RECOVERED. -/
abbrev RootEvent := Nat

/-- A successful recomputation (Table 09-6, R240). -/
def rootSuccess (base : W32) (l r : Mat) (x : Block) : Block × RootEvent :=
  let n := min 255 (x.successes + 1)
  let ease := decide (4 ≤ n) && ltFp (decodeCode 0x01 base.toNat) (decodeCode 0x01 x.damp.toNat)
  ({ x with lroot := l.toList, rroot := r.toList, rootValid := true, fails := 0
            successes := if ease then 0 else n, damp := if ease then dampDown x.damp base else x.damp
            mode := if x.mode == 2 || x.mode == 3 then 0 else x.mode },
   if x.mode == 2 then 3 else 0)

/-- A failed recomputation. A block in MODE 1 stays there until a success (Table 09-7). -/
def rootFailure (x : Block) : Block × RootEvent :=
  let n := min 3 (x.fails + 1)
  let third := x.fails == 2
  ({ x with damp := dampUp x.damp, fails := n, successes := 0, mode := if third && x.mode != 1 then 2 else x.mode },
   if third then 2 else 1)

/-- Whether a block updated in step `n` is recomputed in it (R237, R240). -/
def rootDue (interval : Nat) (n : Word) (x : Block) : Bool :=
  (x.mode == 3 || decide (interval ≤ x.statCount)) && decide (interval ≤ (n - x.rootStep).toNat)

/-- The recomputation of a block in step `n`. -/
def recompute (base : W32) (n : Word) (x : Block) : Block × RootEvent :=
  let x := { x with rootStep := n }
  match invRoot x.lstat.toArray x.damp, invRoot x.rstat.toArray x.damp with
  | some l, some r => rootSuccess base l r x
  | _, _ => rootFailure x

/-- MODE 1 becomes 0 once the block is mature and has roots (R240). -/
def matureMode (mature : Nat) (x : Block) : Block :=
  if x.mode == 1 && decide (mature ≤ x.statCount) && x.rootValid then { x with mode := 0 } else x

end Sys2Proof.Machine
end

