-- ==== Sys2Proof/Machine/Journal.lean ====
section
/-!
DEFINITION. Machine/Journal.lean: the channel map as an address function (R246 to R251), the bytes of optimizer records and
directory entries (R60, R223, R241, R253, R269), and the gradebook: journalling, retention, undo and redo (R366 to R371).
-/

namespace Sys2Proof.Machine

/-! ## The hash and the channel map (R247, R249, R251) -/

/-- The canonical place of a slot. -/
def canonicalEntry (slot : Nat) : MapEntry :=
  let k := slot - 3840
  let c := if slot < 3840 then slot % 384 else 3 * (k / 2) + k % 2
  let p := if slot < 3840 then slot / 384 else 10
  { channel := c, position := p, state := 0, homeChannel := c, homePosition := p, mark := 0, targetChannel := 0, targetPosition := 0 }

/-- The canonical map. -/
def canonicalMap : List MapEntry := (List.range 4096).map canonicalEntry

/-- The map entry of a slot; before stage 3 has made a map, the canonical one. -/
def mapEntry (slot : Nat) (s : State) : MapEntry := s.memory.map.getD slot (canonicalEntry slot)

/-- The slot of a granule's fast address. -/
def slotOfFast (fa : Nat) : Nat :=
  let g := fa / 256
  let row := g / 4096
  Nat.xor (g % 4096) (row * 0x9E3779B1 % 2 ^ 32 / 2 ^ 20)

/-- The channel that holds a fast address. -/
def channelOfFast (fa : Nat) (s : State) : Nat := (mapEntry (slotOfFast fa) s).channel

/-- The rows of a slot in a variant (Table 10-1). -/
def rowsPerSlot (v : Variant) : Nat := match v with | .F => 1376256 | .E => 1032192 | .S => 688128

/-- The channel address of a fast address (R249). -/
def channelAddress (fa : Nat) (s : State) : Nat :=
  (mapEntry (slotOfFast fa) s).position * (256 * rowsPerSlot s.flash.variant) + fa / 1048576 * 256 + fa % 256

/-! ## The bytes of records (R60, R223, Tables 09-2, 09-3, 10-8) -/

def stripeSize (rule : Nat) : Nat := 64 + 5120 + 4096 + (if hasV rule then 4096 else 0)
def blockSize (rule : Nat) : Nat := 64 + 1024 + (if rule == 5 then 4 * 65536 else 0)

def bytes32 (xs : List W32) : List Byte := xs.flatMap fun x => leBytes 4 x.toNat
def list32 (bs : List Byte) : List W32 := (chunks 4 bs).map fun b => BitVec.ofNat 32 (leNat b)

/-- A stripe record. -/
def stripeBytes (rule : Nat) (x : Stripe) : List Byte :=
  wordBytes x.step ++ List.replicate 56 0 ++ packM40 (x.w.map fun c => c.toNat) ++ bytes32 x.m
    ++ (if hasV rule then bytes32 x.v else [])

/-- A stripe record read back. -/
def parseStripe (rule : Nat) (bs : List Byte) : Stripe :=
  { step := BitVec.ofNat 64 (wordAt bs 0), w := (unpackM40 ((bs.drop 64).take 5120)).map fun c => BitVec.ofNat 40 c
    m := list32 ((bs.drop 5184).take 4096), v := if hasV rule then list32 ((bs.drop 9280).take 4096) else [] }

/-- A block record. -/
def blockBytes (rule : Nat) (x : Block) : List Byte :=
  wordBytes x.step
    ++ leBytes 8 (x.statCount + x.fails * 2 ^ 32 + x.mode * 2 ^ 34 + (if x.rootValid then 2 ^ 36 else 0))
    ++ wordBytes x.rootStep ++ leBytes 8 (x.damp.toNat + x.successes * 2 ^ 32) ++ List.replicate 32 0
    ++ bytes32 x.row ++ bytes32 x.col
    ++ (if rule == 5 then bytes32 x.lstat ++ bytes32 x.rstat ++ bytes32 x.lroot ++ bytes32 x.rroot else [])

/-- A block record read back. -/
def parseBlock (rule : Nat) (bs : List Byte) : Block :=
  let w1 := BitVec.ofNat 64 (wordAt bs 1)
  let w3 := BitVec.ofNat 64 (wordAt bs 3)
  let mat (i : Nat) : List W32 := if rule == 5 then list32 ((bs.drop (1088 + 65536 * i)).take 65536) else []
  { step := BitVec.ofNat 64 (wordAt bs 0), statCount := fieldNat w1 0 32, fails := fieldNat w1 32 2, mode := fieldNat w1 34 2
    rootValid := bitOf w1 36, rootStep := BitVec.ofNat 64 (wordAt bs 2), damp := w3.setWidth 32
    successes := fieldNat w3 32 8, row := list32 ((bs.drop 64).take 512), col := list32 ((bs.drop 576).take 512)
    lstat := mat 0, rstat := mat 1, lroot := mat 2, rroot := mat 3 }

/-- A Block Directory entry. -/
def bdBytes (e : BdEntry) : List Byte :=
  wordBytes e.touched ++ wordBytes e.lastStep ++ leBytes 8 (e.band + e.slotBase * 2 ^ 10 + e.offset * 2 ^ 22)
    ++ leBytes 8 (e.binding + e.rule * 2 ^ 16 + e.tier * 2 ^ 20 + (if e.valid then 2 ^ 22 else 0)
        + (if e.fetching then 2 ^ 23 else 0) + e.chanSlot * 2 ^ 24)

/-- A Block Directory entry read back. -/
def parseBd (bs : List Byte) : BdEntry :=
  let w2 := BitVec.ofNat 64 (wordAt bs 2)
  let w3 := BitVec.ofNat 64 (wordAt bs 3)
  { touched := BitVec.ofNat 64 (wordAt bs 0), lastStep := BitVec.ofNat 64 (wordAt bs 1)
    band := fieldNat w2 0 10, slotBase := fieldNat w2 10 12, offset := fieldNat w2 22 11
    binding := fieldNat w3 0 16, rule := fieldNat w3 16 4, tier := fieldNat w3 20 2
    valid := bitOf w3 22, fetching := bitOf w3 23, chanSlot := fieldNat w3 24 12 }

/-! ## Where records lie (R241, R253) -/

/-- The port behind which a tiered binding keeps its records. -/
def tierPort (b : Binding) : Option Port :=
  match hyTier b.hyper with
  | 1 => some .A
  | 2 => some .B
  | _ => none

/-- Bytes of a segment's records. -/
def segRecordBytes (rule : Nat) : Nat := 64 * stripeSize rule + (if isBlockRule rule then 4 * blockSize rule else 0)

/-- The host address of a tiered stripe record: each block record follows its first stripe's. -/
def slowStripe (b : Binding) (i : Nat) : Nat :=
  let j := i % 64
  hySlow b.hyper + (i / 64) * segRecordBytes b.rule + j * stripeSize b.rule
    + (if isBlockRule b.rule then (j + 15) / 16 * blockSize b.rule else 0)

/-- The host address of a tiered block record. -/
def slowBlock (b : Binding) (q : Nat) : Nat :=
  let j := 16 * (q % 4)
  hySlow b.hyper + (q / 4) * segRecordBytes b.rule + (j + 1) * stripeSize b.rule + (q % 4) * blockSize b.rule

/-- The number of stripes and of blocks of a binding. -/
def stripeCount (b : Binding) : Nat := ceilDiv b.count 1024
def blockCount (b : Binding) : Nat := if isBlockRule b.rule then b.count / 16384 else 0

/-- A stripe whose masters and moments are +0. -/
def emptyStripe (rule : Nat) (n : Word) : Stripe :=
  { step := n, w := List.replicate 1024 0, m := List.replicate 1024 0, v := if hasV rule then List.replicate 1024 0 else [] }

/-- A stripe record of a binding. -/
def getStripe (b : Binding) (i : Nat) (s : State) : Stripe :=
  match tierPort b with
  | none => tgetD ((bindingOf b.num s).getD b).stripes i (emptyStripe b.rule b.bindStep)
  | some p => parseStripe b.rule (hostRead p (slowStripe b i) (stripeSize b.rule) s)

/-- A stripe record written. -/
def putStripe (b : Binding) (i : Nat) (x : Stripe) (s : State) : State :=
  match tierPort b with
  | none => modBinding b.num (fun y => { y with stripes := tset y.stripes i x }) s
  | some p => hostWrite p (slowStripe b i) (stripeBytes b.rule x) s

/-- A block at binding: start-up mode, all statistics and roots +0 (R220, R223). -/
def startBlock (b : Binding) (q : Nat) : Block :=
  { step := b.bindStep, rootStep := b.bindStep - BitVec.ofNat 64 ((b.lbase / 16384 + q) % hyInterval b.hyper)
    damp := hyDamp b.hyper, row := List.replicate 128 0, col := List.replicate 128 0
    lstat := if b.rule == 5 then List.replicate 16384 0 else [], rstat := if b.rule == 5 then List.replicate 16384 0 else []
    lroot := if b.rule == 5 then List.replicate 16384 0 else [], rroot := if b.rule == 5 then List.replicate 16384 0 else [] }

/-- A block record of a binding. -/
def getBlock (b : Binding) (q : Nat) (s : State) : Block :=
  match tierPort b with
  | none => tgetD ((bindingOf b.num s).getD b).blocks q (startBlock b q)
  | some p => parseBlock b.rule (hostRead p (slowBlock b q) (blockSize b.rule) s)

/-- A block record written. -/
def putBlock (b : Binding) (q : Nat) (x : Block) (s : State) : State :=
  match tierPort b with
  | none => modBinding b.num (fun y => { y with blocks := tset y.blocks q x }) s
  | some p => hostWrite p (slowBlock b q) (blockBytes b.rule x) s

/-- The Block Directory entry number of a stripe. -/
def dirOf (b : Binding) (i : Nat) : Nat := b.dirFirst + i / 64

/-- A Block Directory entry. -/
def bdOf (e : Nat) (s : State) : BdEntry := tgetD s.nmu.dir e {}

/-- The stack whose channel holds a stripe's column (R253). The records of a tiered binding are journalled as if in
column SLOT_BASE 0 (notes/assumptions/20.md). -/
def stackOfStripe (b : Binding) (i : Nat) (s : State) : Nat :=
  (mapEntry (((bdOf (dirOf b i) s).slotBase + 67 * (i % 64)) % 4096) s).channel / 16

/-- Bytes that a stripe's column holds for it: its record, and its block's record after a block's first stripe (R253). -/
def columnBytes (b : Binding) (i : Nat) : Nat := stripeSize b.rule + (if isBlockRule b.rule && i % 16 == 0 then blockSize b.rule else 0)

/-- The stripe of a binding whose column record holds a fast address, and the address's offset in the record (R253). -/
def recordAt (fa : Nat) (s : State) : Option (Binding × Nat × Nat) :=
  let slot := slotOfFast fa
  let row := fa / 1048576
  s.nmu.bindings.findSome? fun b =>
    (List.range (ceilDiv (stripeCount b) 64)).findSome? fun k =>
      let e := bdOf (b.dirFirst + k) s
      if e.tier == 0 && e.valid && e.band == row / 2048 && decide (e.offset ≤ row % 2048) then
        let off := (row % 2048 - e.offset) * 256 + fa % 256
        ((List.range 64).find? fun i => (e.slotBase + 67 * i) % 4096 == slot && decide (64 * k + i < stripeCount b)
          && decide (off < columnBytes b (64 * k + i))).map fun i => (b, 64 * k + i, off)
      else none

/-- Whether a unit's records hold a block that is being rebuilt: its NMU waits (R259). -/
def unitHeld (b : Binding) (u : Nat) (s : State) : Bool :=
  s.memory.pendingErr.any fun a => match recordAt a s with
    | some (x, i, _) => x.num == b.num && (if isBlockRule b.rule then i / 16 else i) == u
    | none => false

/-! ## Gradebook records (R367, Table 14-2) -/

/-- Words 0 to 5 of a record's header. -/
def recWords (r : JRec) : List Byte :=
  leBytes 8 (r.kind + r.journal * 2 ^ 8 + r.payload.length * 2 ^ 32) ++ wordBytes r.step
    ++ leBytes 8 (r.binding + (if r.mirror then 2 ^ 16 else 0)) ++ leBytes 8 r.unit ++ leBytes 8 r.seq ++ wordBytes r.postCrc

/-- A record's bytes. -/
def recBytes (r : JRec) : List Byte :=
  let h := recWords r ++ wordBytes r.chain
  h ++ leBytes 8 (crc32c h).toNat ++ r.payload

/-- A journal. -/
def journalOf (j : Nat) (s : State) : Journal := vget s.nmu.journals j {}

/-- A journal's record closed with its SEQ and CHAIN. -/
def sealRec (j : Journal) (r : JRec) : JRec :=
  let r := { r with seq := j.seq }
  { r with chain := crc64 (wordBytes j.chain ++ recWords r ++ r.payload) }

/-- The bytes of a journal's ring (R366). -/
def ringBytes (v : Variant) : Nat := match v with | .F => 1073741824 | .E => 805306368 | .S => 536870912

/-- The bytes that records take in a ring, as one stream of KIND 1 (R370). -/
def storedSize (rs : List JRec) : Nat := (encodeStream 1 0 16 (rs.flatMap recBytes)).length

/-- Whether records fit a ring. -/
def ringHolds (v : Variant) (rs : List JRec) : Bool :=
  decide (maxStored (sumNat (rs.map fun r => 64 + r.payload.length)) ≤ ringBytes v) || decide (storedSize rs ≤ ringBytes v)

/-- The group whose step a record belongs to. -/
def recGroup (r : JRec) (s : State) : Option Nat :=
  if r.kind == 5 || r.kind == 6 then some (wordAt r.payload 0 % 65536)
  else if r.mirror then none
  else if r.kind == 3 then (regionOf r.binding s).map fun x => x.group
  else (bindingOf r.binding s).map fun b => b.group

/-- Whether a record belongs to the open or the latest committed step, and so is never overwritten (R370). -/
def recHeld (r : JRec) (s : State) : Bool :=
  match recGroup r s with
  | some g => match groupOf g s with
    | some x => decide (x.lastStep.toNat ≤ r.step.toNat)
    | none => false
  | none => s.groups.any fun x => decide (x.lastStep.toNat ≤ r.step.toNat)

/-- Whether an export or an exam window still needs a record (R370). -/
def recWanted (r : JRec) (s : State) : Bool :=
  (s.nmu.exports.any fun e => decide (e.nextStep.toNat ≤ r.step.toNat))
    || s.nmu.exams.any fun e => decide (e.version.toNat ≤ r.step.toNat)

/-- EXPORT_GAP, and the gap noted with the exam windows that need the record; exports find it missing (R372). -/
def noteGap (j : Nat) (r : JRec) (s : State) : State :=
  raiseDev 17 (raiseEvent 0x62 [j, r.step.toNat] (modNmu (fun n => { n with exams := n.exams.map fun e =>
    if e.version.toNat ≤ r.step.toNat then { e with gap := true } else e }) s))

/-- JOURNAL_FULL: the open step must roll back as a fault. -/
def journalFull (j : Nat) (s : State) : State :=
  raiseDev 16 (raiseEvent 0x63 [j] { s with groups := s.groups.map fun g =>
    if g.open'.isSome then { g with faulted := true } else g })

/-- A journal brought within its ring: the oldest records that the first condition of R370 does not hold are
overwritten. -/
def trimJournal (j : Nat) : Nat → State → State
  | 0, s => s
  | fuel + 1, s =>
    let rs := (journalOf j s).records
    if ringHolds s.flash.variant rs then s
    else match rs.find? fun r => !recHeld r s with
      | none => journalFull j s
      | some r =>
        let s := if recWanted r s then noteGap j r s else s
        trimJournal j fuel (modNmu (fun n => { n with journals := vmod n.journals j (fun x =>
          { x with
            records := x.records.erase r
            lost := match x.lost with | some n => some (if n.toNat < r.step.toNat then r.step else n) | none => some r.step }) }) s)

/-- A record appended to its journal (R366, R367), and sent to the deskmate when it is the device's own (R380). -/
def appendRec (r : JRec) (s : State) : State :=
  let j := journalOf r.journal s
  let r := sealRec j r
  let s := modNmu (fun n => { n with journals := vmod n.journals r.journal (fun x =>
    { x with seq := x.seq + 1, chain := r.chain, records := x.records ++ [r] }) }) s
  let s := if s.mate.formed && !s.mate.degraded && !r.mirror then modMate (fun m => { m with toSend := m.toSend ++ [r] }) s else s
  trimJournal r.journal (journalOf r.journal s).records.length s

/-- The XOR of two byte lists of one length. -/
def xorBytes (a b : List Byte) : List Byte := List.zipWith (· ^^^ ·) a b

/-- An UPDATE or REPAIR record of a stripe changed from `old` to `new`, with its directory entry's change (R368). -/
def journalStripe (kind : Nat) (b : Binding) (i : Nat) (n : Word) (old new : Stripe) (e f : BdEntry) (s : State) : State :=
  let nb := stripeBytes b.rule new
  appendRec { kind := kind, journal := stackOfStripe b i s, step := n, binding := b.num, mirror := false
              unit := b.lbase + 1024 * i, seq := 0, postCrc := crc64 nb, chain := 0
              payload := xorBytes (stripeBytes b.rule old) nb ++ xorBytes (bdBytes e) (bdBytes f) } s

/-- The same of a block record, whose place is that of the block's first stripe. -/
def journalBlock (kind : Nat) (b : Binding) (q : Nat) (n : Word) (old new : Block) (e f : BdEntry) (s : State) : State :=
  let nb := blockBytes b.rule new
  appendRec { kind := kind, journal := stackOfStripe b (16 * q) s, step := n, binding := b.num, mirror := false
              unit := b.lbase + 16384 * q, seq := 0, postCrc := crc64 nb, chain := 0
              payload := xorBytes (blockBytes b.rule old) nb ++ xorBytes (bdBytes e) (bdBytes f) } s

/-! ## Undo (R369) -/

/-- A directory entry XORed with the tail of a payload. -/
def xorBd (e : Nat) (x : List Byte) (s : State) : State :=
  modNmu (fun n => { n with dir := tset n.dir e (parseBd (xorBytes (bdBytes (tgetD n.dir e {})) x)) }) s

/-- The round state of a parameter as bytes (Table 13-3): A_f, B_f, a, bm, e, and its references by round mod 8. -/
def roundBytes (x : RoundParam) : List Byte :=
  leBytes 5 x.af.toNat ++ leBytes 4 x.bf.toNat ++ leBytes 5 x.a.toNat ++ leBytes 4 x.bm.toNat ++ leBytes 4 x.e.toNat
    ++ (List.range 8).flatMap fun k => leBytes 5 (((x.c.find? fun c => c.1 % 8 == k).map fun c => c.2.toNat).getD 0)

/-- The round state of a parameter read back; the rounds of its references are those it holds. -/
def parseRound (x : RoundParam) (bs : List Byte) : RoundParam :=
  let m (i : Nat) : W40 := BitVec.ofNat 40 (leNat ((bs.drop i).take 5))
  let f (i : Nat) : W32 := BitVec.ofNat 32 (leNat ((bs.drop i).take 4))
  { af := m 0, bf := f 5, a := m 9, bm := f 14, e := f 18, c := x.c.map fun c => (c.1, m (22 + 5 * (c.1 % 8))) }

/-- The parameters of a region that lie in one stripe of its binding, by their place in the region. -/
def regionSpan (x : Region) (i : Nat) : List Nat :=
  (List.range 1024).filterMap fun j =>
    if decide (x.firstParam ≤ 1024 * i + j) && decide (1024 * i + j < x.firstParam + x.params.length) then some (1024 * i + j - x.firstParam) else none

/-- The bytes of a unit's masters and round state (R346, R368). -/
def roundUnit (x : Region) (b : Binding) (i : Nat) (s : State) : List Byte :=
  packM40 ((getStripe b i s).w.map fun c => c.toNat)
    ++ (regionSpan x i).flatMap fun k => match x.params[k]? with | some q => roundBytes q | none => []

/-- The same read back into the state. -/
def putRoundUnit (x : Region) (b : Binding) (i : Nat) (bs : List Byte) (s : State) : State :=
  let st := getStripe b i s
  let s := putStripe b i { st with w := (unpackM40 (bs.take 5120)).map fun c => BitVec.ofNat 40 c } s
  let rest := bs.drop 5120
  let ps := (regionSpan x i).zipIdx.foldl (fun (ps : List RoundParam) k =>
    match ps[k.1]? with
    | some q => setAt ps k.1 (parseRound q ((rest.drop (62 * k.2)).take 62))
    | none => ps) x.params
  modRegion x.num (fun y => { y with params := ps }) s

/-- A ROUND record's payload XORed into its unit. -/
def applyRoundRec (back : Bool) (r : JRec) (s : State) : State × Bool :=
  match regionOf r.binding s with
  | none => (s, true)
  | some x => match bindingOf x.binding s with
    | none => (s, true)
    | some b =>
      let i := (r.unit - b.lbase) / 1024
      let cur := crc64 (stripeBytes b.rule (getStripe b i s)) == r.postCrc
      let t := putRoundUnit x b i (xorBytes (roundUnit x b i s) r.payload) s
      (t, if back then cur else crc64 (stripeBytes b.rule (getStripe b i t)) == r.postCrc)

/-- A record's payload XORed into its unit, forward or back; whether the CRC of the unit that carries the change equalled
POST_CRC. -/
def applyRec (back : Bool) (r : JRec) (s : State) : State × Bool :=
  if r.kind == 3 then applyRoundRec back r s
  else match bindingOf r.binding s with
  | none => (s, true)
  | some b =>
    let n := r.payload.length - 32
    let x := r.payload.take n
    let rel := r.unit - b.lbase
    let s := xorBd (dirOf b (rel / 1024)) (r.payload.drop n) s
    if n == stripeSize b.rule then
      let cur := stripeBytes b.rule (getStripe b (rel / 1024) s)
      let nxt := xorBytes cur x
      (putStripe b (rel / 1024) (parseStripe b.rule nxt) s, crc64 (if back then cur else nxt) == r.postCrc)
    else
      let cur := blockBytes b.rule (getBlock b (rel / 16384) s)
      let nxt := xorBytes cur x
      (putBlock b (rel / 16384) (parseBlock b.rule nxt) s, crc64 (if back then cur else nxt) == r.postCrc)

/-- The records of one step of a group in a journal, in ascending SEQ: the updates, and with `rounds` the merges and corrections
made before the step opened. -/
def stepRecs (rounds : Bool) (j g : Nat) (n : Word) (s : State) : List JRec :=
  (journalOf j s).records.filter fun r => (r.kind == 1 || (rounds && r.kind == 3)) && !r.mirror && !r.undone && r.step == n && recGroup r s == some g

/-- A journal's records of a step marked as applied by an undo. -/
def markUndone (rounds : Bool) (j g : Nat) (n : Word) (s : State) : State :=
  let done := (stepRecs rounds j g n s).map fun r => r.seq
  modNmu (fun m => { m with journals := vmod m.journals j (fun x =>
    { x with records := mapIf (fun r => done.contains r.seq) (fun r => { r with undone := true }) x.records }) }) s

/-- The records of a step undone, journal by journal, in descending SEQ; whether every check held. -/
def undoStep (rounds : Bool) (g : Nat) (n : Word) (s : State) : State × Bool :=
  (List.range 24).foldl (fun p j =>
    let q := (stepRecs rounds j g n p.1).reverse.foldl (fun p r =>
      let q := applyRec true r p.1
      (q.1, p.2 && q.2)) p
    (markUndone rounds j g n q.1, q.2)) (s, true)

/-- Committed steps undone from `last` down to the state after step `n`, `k` steps at most. -/
def undoTo (g : Nat) (n : Word) : Nat → Word → State → State
  | 0, _, s => s
  | k + 1, last, s => if last.toNat ≤ n.toNat then s else undoTo g n k (last - 1) (undoStep true g last s).1

/-- Whether every journal retains the records of the steps after `n`, so that the state of step `n` can be rebuilt (R370). -/
def canRebuild (n : Word) (s : State) : Bool :=
  s.nmu.journals.toList.all fun j => match j.lost with | some m => decide (m.toNat ≤ n.toNat) | none => true

/-! ## The shard's CRC (R368) -/

/-- The XOR of the CRC-64 of every record this member owns in a group. -/
def shardCrc (g : Nat) (s : State) : Word :=
  (s.nmu.bindings.filter fun b => b.group == g).foldl (fun c b =>
    let c := (List.range (stripeCount b)).foldl (fun c i => c ^^^ crc64 (stripeBytes b.rule (getStripe b i s))) c
    (List.range (blockCount b)).foldl (fun c q => c ^^^ crc64 (blockBytes b.rule (getBlock b q s))) c) 0

end Sys2Proof.Machine
end

