-- ==== Sys2Proof/Machine/Descs.lean ====
section
/-!
DEFINITION. Machine/Descs.lean: fetching a descriptor, the checks every descriptor meets before it starts (R24, R25, R30,
R41), holding, finishing, and the end of a destroyed channel (R28).
-/

namespace Sys2Proof.Machine

/-! ## The end of a channel (R28, R29, R201, R219) -/

/-- The fast frames a channel's pages hold. -/
def chanFrames (c : Chan) : List Nat :=
  c.pages.filterMap fun p => match p.2.kind with | .fast f => some f | _ => none

/-- Fast frames freed and cleared to zero (R28). -/
def freeFrames (fs : List Nat) (s : State) : State :=
  modMemory (fun m => { m with
    fast := m.fast.filter fun c => !fs.contains (c.1 / pageBytes)
    chans := m.chans.map fun c => (c.1, { c.2 with poison := c.2.poison.filter fun b => !fs.contains (b / pageBytes) })
    pendingErr := m.pendingErr.filter fun b => !fs.contains (b / pageBytes)
    framesUsed := m.framesUsed.filter fun f => !fs.contains f }) s

/-- Alias pages of every channel that resolve to the named pages unmapped (R29). -/
def dropAliases (slot : Nat) (dead : Nat → Bool) (s : State) : State :=
  { s with slots := s.slots.map fun e => (e.1, { e.2 with chan := e.2.chan.map fun c =>
      { c with pages := c.pages.filter fun p => match p.2.kind with
          | .aliasOf t q => !(t == slot && dead q)
          | _ => true } }) }

/-- Bindings released with their state and directory entries (R219). -/
def releaseBindings (which : Binding → Bool) (s : State) : State :=
  let gone := (s.nmu.bindings.filter which).map fun b => b.num
  let frames := sumNat ((s.nmu.bindings.filter which).map fun b => b.frames)
  modMemory (fun m => { m with privateFrames := m.privateFrames - frames })
    (modNmu (fun n => { n with
      bindings := n.bindings.filter fun b => !which b
      dir := n.dir.filter fun e => !gone.contains e.2.binding }) s)

/-- Round regions dropped with the fast frames of their state (R336). -/
def dropRegions (which : Region → Bool) (s : State) : State :=
  modMemory (fun m => { m with privateFrames := m.privateFrames - sumNat ((s.regions.filter which).map fun x => x.frames) })
    { s with regions := s.regions.filter fun x => !which x }

/-- What a slot's end frees: its cores, pages, aliases of them, counter sets and bindings; the slot becomes free. -/
def freeSlot (slot : Nat) (s : State) : State :=
  match chanOf slot s with
  | none => s
  | some c =>
    let s := dropAliases slot (fun _ => true) (freeFrames (chanFrames c) s)
    let s := releaseBindings (fun b => b.slot == slot) s
    let s := dropRegions (fun x => x.slot == slot) s
    let s := { s with stats := s.stats.filter (fun x => x.slot != slot)
                      expertPages := s.expertPages.filter (fun x => x.slot != slot) }
    modSlot slot (fun x => { x with chan := none }) s

/-- The completion of a descriptor. -/
def complOf (r : DescRec) (status : BitVec 8) (detail : BitVec 16) (result0 : Word) (s : State) : Compl :=
  { tag := r.desc.tag, status := status, opcode := r.opcode, ring := r.desc.ring, detail := detail,
    result0 := result0, dtime := now s, irq := r.desc.flags.getLsbD 1, headSlot := r.desc.slot }

/-- Whether a destroyed channel has written its last completion (R28). -/
def destroyDue (slot : Nat) (c : Chan) (s : State) : Bool :=
  c.waiting.isEmpty && !(s.descs.any fun x => x.desc.slot == slot) && !(s.passes.any fun x => x.slot == slot)

/-- The end of a destroyed channel once its last completion is written: the slot is freed and CHANNEL_DESTROY
completes (R28). -/
def settleDestroy (slot : Nat) (s : State) : State :=
  match chanOf slot s with
  | none => s
  | some c =>
    match c.destroyId.bind fun i => descOf i s with
    | none => s
    | some r =>
      if destroyDue slot c s then
        let t := { freeSlot slot s with descs := s.descs.filter fun x => x.id != r.id }
        if r.desc.flags.getLsbD 2 then t else postCompl r.desc.slot (complOf r stDone 0 0 s) t
      else s

/-- A descriptor's final completion: QUIET writes none when the status is DONE (Table 02-6), and the descriptor is no
longer held. -/
def finish (r : DescRec) (status : BitVec 8) (detail : BitVec 16) (result0 : Word) (s : State) : State :=
  let t := { s with descs := s.descs.filter fun x => x.id != r.id }
  settleDestroy r.desc.slot
    (if r.desc.flags.getLsbD 2 && status == stDone then t
     else postCompl r.desc.slot (complOf r status detail result0 s) t)

/-- A completion that is not final (ADMITTED). -/
def interim (r : DescRec) (status : BitVec 8) (detail : BitVec 16) (result0 : Word) (s : State) : State :=
  postCompl r.desc.slot { complOf r status detail result0 s with irq := false } s

/-- A completion as CHANNEL_GONE for a stale handle: to the admin channel of the port that delivered it (R24). -/
def finishGone (r : DescRec) (s : State) : State :=
  settleDestroy r.desc.slot
    (postCompl (adminSlot r.port) (complOf r stGone 0 0 s)
      { s with descs := s.descs.filter fun x => x.id != r.id })

/-- A refusal as REFUSED_MALFORMED with a DETAIL and the offending address or 0. -/
def refuse (r : DescRec) (detail : BitVec 16) (addr : Nat) (s : State) : State :=
  finish r stMalformed detail (BitVec.ofNat 64 addr) s

/-- A refusal as REFUSED_CAPACITY with a DETAIL. -/
def refuseCap (r : DescRec) (detail : BitVec 16) (s : State) : State := finish r stCapacity detail 0 s

/-- A completion as DONE with a result. -/
def done (r : DescRec) (result0 : Nat) (s : State) : State := finish r stDone 0 (BitVec.ofNat 64 result0) s

/-- A descriptor kept by the device for a reason. -/
def holdAs (r : DescRec) (h : Hold) (s : State) : State :=
  if s.descs.any fun x => x.id == r.id then modDesc r.id (fun _ => { r with hold := h, since := mono s }) s
  else { s with descs := s.descs ++ [{ r with hold := h, since := mono s }] }

/-! ## The fields of descriptors (Tables 02-3, 02-8, 02-9) -/

/-- Whether an opcode is one of Table 02-8 or 02-9. -/
def opcodeDefined (op : BitVec 8) : Bool :=
  (decide (0x01 ≤ op.toNat) && decide (op.toNat ≤ 0x0D)) || (decide (0x40 ≤ op.toNat) && decide (op.toNat ≤ 0x49))

/-- The opcodes a channel class accepts (Table 02-3). -/
def classAccepts (cls : Nat) (op : BitVec 8) : Bool :=
  match cls with
  | 0 => (decide (0x40 ≤ op.toNat) && decide (op.toNat ≤ 0x49)) || op == 0x0B
  | 1 => [0x01, 0x02, 0x03, 0x05, 0x06, 0x07, 0x08, 0x09, 0x0A, 0x0B, 0x0C, 0x0D].contains op.toNat
  | 2 => [0x03, 0x02, 0x0B, 0x0C].contains op.toNat
  | 3 => [0x04, 0x02, 0x0B, 0x0C].contains op.toNat
  | _ => false

/-- The listed bits of words 2 to 7 of an opcode; every other bit is reserved (R43, R45). -/
def usedBits (op : BitVec 8) : List Word :=
  let full : Word := BitVec.allOnes 64
  let low (n : Nat) : Word := BitVec.ofNat 64 (2 ^ n - 1)
  match op.toNat with
  | 0x01 => [full, full, full, low 6, full, low 48]
  | 0x02 => [full, full, low 48, 0x0000FFFF0037FFFF, 0, 0]
  | 0x03 => [0x00FFFFFF03FFFFFF, full, full, low 48, full, low 14]
  | 0x04 => [full, low 16, full, low 48, full, 0]
  | 0x05 => [full, low 48, low 16, full, 0, 0]
  | 0x06 => [full, low 16, 0, 0, 0, 0]
  | 0x07 => [full, low 16, 0, 0, 0, 0]
  | 0x08 => [full, low 16, 0, 0, 0, 0]
  | 0x09 => [low 16, 0, 0, 0, 0, 0]
  | 0x0A => [full, low 48, full, low 1, 0, 0]
  | 0x0B => [low 2, full, full, 0, 0, 0]
  | 0x0C => [full, low 17, 0, 0, 0, 0]
  | 0x0D => [full, full, low 48, 0, 0, 0]
  | 0x40 => [0x007FFFFFFFFF003F, full, full, full, full, full]
  | 0x41 => [low 33, 0, 0, 0, 0, 0]
  | 0x42 => [low 32, low 48, 0x0000000F07FFFFFF, full, low 32, low 48]
  | 0x43 => [low 32, low 48, low 27, 0, 0, 0]
  | 0x44 => [0x000F3FFF3FFFFFFF, full, full, 0, 0, 0]
  | 0x45 => [full, low 1, 0, 0, 0, 0]
  | 0x46 => [low 16, full, 0x0000FFFF0F0F1FFF, 0, 0, 0]
  | 0x47 => [full, low 32, 0, 0, 0, 0]
  | 0x48 => [full, low 32, 0, 0, 0, 0]
  | 0x49 => [full, low 32, low 8, 0, 0, 0]
  | _ => [full, full, full, full, full, full]

/-- Whether a reserved field of a descriptor is non-zero (R41). -/
def reservedSet (op : BitVec 8) (d : Desc) : Bool :=
  d.flags &&& 0xFFFFF8 != 0 ||
  (List.zipWith (fun w u => w &&& ~~~ u != 0) [d.w2, d.w3, d.w4, d.w5, d.w6, d.w7] (usedBits op)).any id

/-- The parts of a handle (R22). -/
def handleClass (h : W32) : Nat := fieldNat h 28 4
def handleGen (h : W32) : Nat := fieldNat h 12 16
def handleSlot (h : W32) : Nat := fieldNat h 0 12

/-- A handle from its parts (R22). -/
def mkHandle (cls gen slot : Nat) : W32 := BitVec.ofNat 32 (cls * 2 ^ 28 + gen * 2 ^ 12 + slot)

/-- Whether a handle is stale: its slot is free or carries another GEN (R24). A destroyed channel's slot carries the
advanced GEN. -/
def handleStale (h : W32) (s : State) : Bool :=
  let sl := slotOf (handleSlot h) s
  match sl.chan with
  | none => true
  | some c => !c.running || sl.gen.toNat != handleGen h

/-- The group named by a LESSON_RUN, TENSOR_MOVE or EXCHANGE, by a STEP_OPEN or STEP_COMMIT (Table 02-8). -/
def descGroup (op : BitVec 8) (d : Desc) : Option Nat :=
  match op.toNat with
  | 0x01 => some (fieldNat d.w7 32 16)
  | 0x02 => some (fieldNat d.w5 32 16)
  | 0x03 => some (fieldNat d.w2 32 16)
  | 0x06 => some (fieldNat d.w3 0 16)
  | 0x07 => some (fieldNat d.w3 0 16)
  | _ => none

/-! ## Fetch (R21, R33, R34, R38, R409) -/

/-- The submission ring a descriptor is read from. -/
def ringOf (slot ring : Nat) (s : State) : Ring :=
  match chanOf slot s with
  | some c => vget c.rings ring {}
  | none => {}

/-- Whether the device may fetch from a ring now: the channel runs, the ring is present and holds an entry, its port is
neither fenced nor down, the device is ready (or, for an admin channel, at stage 4 or later), and fewer than 256
completions wait (R24, R38). -/
def canFetch (slot ring : Nat) (s : State) : Bool :=
  match chanOf slot s with
  | none => false
  | some c =>
    let r := vget c.rings ring {}
    let p := portOf c.owner s
    c.running && r.log2 != 0 && r.head != r.tail && !p.fenced && p.linkUp
      && (s.mod.stage == 7 || (decide (slot < 2) && decide (4 ≤ s.mod.stage.toNat) && decide (s.mod.stage.toNat ≤ 6)))
      && decide (c.waiting.length < 256)
      && decide ((p.stale.countP fun x => decide (2 ≤ x.headSlot)) < 256)

/-- The groups whose steps a channel's DELTA_EXPORT and SNAPSHOT speak of: those the channel is a channel of, or every
one when it is of none. -/
def exportGroups (slot : Nat) (s : State) : List Group :=
  let gs := s.groups.filter fun g => groupChan g slot s
  if gs.isEmpty then s.groups else gs

/-- The last step that all those groups have committed. -/
def lastCommitted (slot : Nat) (s : State) : Nat := (((exportGroups slot s).map fun g => g.lastStep.toNat).min?).getD 0

/-- The record of a descriptor as fetched: it belongs to the step open in the group it names (R35), and a KIND 0 WAIT
waits for the descriptor then carrying its tag (R44); a DELTA_EXPORT notes the last step committed (R372). -/
def recOf (op : BitVec 8) (d : Desc) (c : Chan) (s : State) : DescRec :=
  let g := descGroup op d
  { id := s.nextDesc, port := c.owner, opcode := op, desc := d, hold := .fence, fetchedAt := now s,
    group := g
    step := (g.bind fun g => groupOf g s).bind fun g => g.open'
    waitOn := if op == 0x0B && fieldNat d.w2 0 2 == 0 then (c.tags.find? fun t => t.1 == d.w3).map Prod.snd else none
    since := mono s
    aux := if op == 0x0A then lastCommitted d.slot s else 0 }

/-- The fetch itself: the ring's head and the fetch number advance; the channel notes the tag and the group named. -/
def noteFetch (r : DescRec) (s : State) : State :=
  let d := r.desc
  modChan d.slot (fun c => { c with
      rings := vmod c.rings d.ring (fun x => { x with head := x.head + 1 })
      tags := (d.tag, r.id) :: c.tags.filter (fun t => t.1 != d.tag)
      groups := match r.group with
        | some g => if r.opcode == 0x06 || r.opcode == 0x07 || c.groups.contains g then c.groups else c.groups ++ [g]
        | none => c.groups
      lessonGroups := match r.group with
        | some g => if r.opcode != 0x01 || c.lessonGroups.contains g then c.lessonGroups else c.lessonGroups ++ [g]
        | none => c.lessonGroups })
    { s with nextDesc := s.nextDesc + 1 }

/-- Whether a descriptor has not started. -/
def unstarted (r : DescRec) : Bool := r.hold == .fence || r.hold == .notReady

/-- Whether a descriptor must wait before it starts: an earlier descriptor of its ring has not started, or it carries
FENCE and an earlier one is not final (R34). -/
def mustWait (r : DescRec) (s : State) : Bool :=
  s.descs.any fun x => x.desc.slot == r.desc.slot && x.desc.ring == r.desc.ring && decide (x.id < r.id) &&
    (unstarted x || r.desc.flags.getLsbD 0)

/-- The admin opcodes that start before the device is ready (Table 15-9). -/
def earlyOpcode (op : BitVec 8) : Bool := op == 0x47 || op == 0x48 || op == 0x49

/-- The checks every descriptor meets as it starts, in this order: a stale handle (R24), a handle of another channel or
class (R24, Table 02-6), an undefined opcode (R41), one its class does not accept (R25), a reserved field (R41). -/
def checked (r : DescRec) (start : DescRec → State → State) (s : State) : State :=
  let h := r.desc.handle
  if handleStale h s then finishGone r s
  else if handleSlot h != r.desc.slot.val then refuse r 0x0004 0 s
  else match chanOf r.desc.slot s with
    | none => finishGone r s
    | some c =>
      if handleClass h != c.cls then refuse r 0x0004 0 s
      else if !opcodeDefined r.opcode then refuse r 0x0001 0 s
      else if !classAccepts c.cls r.opcode then refuse r 0x0002 0 s
      else if reservedSet r.opcode r.desc then refuse r 0x0003 0 s
      else start r s

/-- A descriptor as the device fetches it: fetched, then held or started. `onFetch` is what the fetch itself does for the
opcode (R306). -/
def fetchWith (op : BitVec 8) (d : Desc) (onFetch : DescRec → State → State) (start : DescRec → State → State)
    (s : State) : State :=
  if canFetch d.slot d.ring s then
    match chanOf d.slot s with
    | none => s
    | some c =>
      let r := recOf op d c s
      let s := onFetch r (noteFetch r s)
      if s.mod.stage != 7 && !earlyOpcode op then holdAs r .notReady s
      else if mustWait r s then holdAs r .fence s
      else checked r start s
  else s

/-- No effect of the fetch itself. -/
def noFetchEffect (_ : DescRec) (s : State) : State := s

/-- A held, fenced descriptor starts: it is at the head of its ring's unstarted ones, and with FENCE every earlier one
has reached its final completion (R34). -/
def startHeld (id : Nat) (start : DescRec → State → State) (s : State) : State :=
  match descOf id s with
  | none => s
  | some r =>
    if r.hold == .fence && !mustWait r s && s.mod.stage == 7 && (chanOf r.desc.slot s).isSome then
      checked { r with hold := .run } start s
    else s

/-! ## Regions of a descriptor (R15, R30, R31) -/

/-- Whether a page lies in a range that an UNMAP waits to unmap (R31). -/
def isClosing (slot page : Nat) (s : State) : Bool :=
  match chanOf slot s with
  | none => false
  | some c =>
    let inRange (cl : List (Nat × Nat)) (q : Nat) := cl.any fun x => decide (x.1 ≤ q) && decide (q < x.1 + x.2)
    inRange c.closing page ||
      (match tget? c.pages page with
       | some { kind := .aliasOf t q, readOnly := _ } =>
         (match chanOf t s with | some k => inRange k.closing q | none => false)
       | _ => false)

/-- The first page of a region, from a page upward, that an UNMAP is closing. -/
def firstClosing (slot : Nat) (s : State) : Nat → Nat → Nat → Option Nat
  | 0, _, _ => none
  | n + 1, va, stop =>
    if stop ≤ va then none
    else if isClosing slot (va / pageBytes) s then some va
    else firstClosing slot s n (va / pageBytes * pageBytes + pageBytes) stop

/-- The first offending address of a region a starting descriptor names (R30, R31). -/
def regionFault (slot va len : Nat) (wr : Bool) (s : State) : Option Nat :=
  match badRegion slot va len wr s, firstClosing slot s (len / pageBytes + 2) va (va + len) with
  | some a, some b => some (min a b)
  | some a, none => some a
  | none, x => x

/-- The first offending address among several regions (base, length, written), in order. -/
def regionsFault (slot : Nat) (rs : List (Nat × Nat × Bool)) (s : State) : Option Nat :=
  rs.findSome? fun r => regionFault slot r.1 r.2.1 r.2.2 s

/-- The regions that a started descriptor names, as base and length (R31). -/
def namedRegions (r : DescRec) (s : State) : List (Nat × Nat) :=
  let d := r.desc
  match r.opcode.toNat with
  | 0x01 =>
    let lst := match s.runs.find? fun x => x.desc == r.id with
      | some u => u.ins ++ u.outs
      | none => []
    [(d.w2.toNat, 64), (d.w4.toNat, 8 * fieldNat d.w5 0 6), (d.w6.toNat, 16 * (fieldNat d.w7 0 16 + fieldNat d.w7 16 16))]
      ++ lst
  | 0x02 => [(d.w2.toNat, fieldNat d.w4 0 48), (d.w3.toNat, fieldNat d.w4 0 48)]
  | 0x03 =>
    let n := match groupOf (fieldNat d.w2 32 16) s with
      | some g => g.sizeM1 + 1
      | none => 1
    [(d.w3.toNat, fieldNat d.w5 0 48), (d.w4.toNat, (if fieldNat d.w2 0 8 == 2 then n else 1) * fieldNat d.w5 0 48)]
  | 0x04 => [(d.w4.toNat, fieldNat d.w5 0 48)]
  | 0x05 => [(d.w2.toNat, 4 * fieldNat d.w3 0 48), (d.w5.toNat, 64)]
  | 0x0A => [(d.w2.toNat, fieldNat d.w3 0 48)]
  | 0x0C => [(d.w2.toNat, 128)]
  | 0x0D => [(d.w3.toNat, fieldNat d.w4 0 48)]
  | _ => []

/-- Whether a region of a channel touches pages `first` to `first + n - 1` of channel `slot`, directly or through an
alias. -/
def touchesPages (slot first n : Nat) (rslot va len : Nat) (s : State) : Bool :=
  (List.range (len / pageBytes + 2)).any fun i =>
    let q := va / pageBytes + i
    decide (q * pageBytes < va + len) &&
      ((rslot == slot && decide (first ≤ q) && decide (q < first + n)) ||
       (match (chanOf rslot s).bind fun c => tget? c.pages q with
        | some { kind := .aliasOf t p, readOnly := _ } => t == slot && decide (first ≤ p) && decide (p < first + n)
        | _ => false))

/-- Whether a started descriptor fetched before `id` names a page of the range (R31). -/
def pagesInUse (id slot first n : Nat) (s : State) : Bool :=
  s.descs.any fun r => decide (r.id < id) && !unstarted r &&
    (namedRegions r s).any fun x => touchesPages slot first n r.desc.slot x.1 x.2 s

end Sys2Proof.Machine
end

