-- ==== Sys2Proof/Machine/Operands.lean ====
section
/-!
DEFINITION. Machine/Operands.lean: the fields of lesson words (Tables 06-4 to 06-12, R153 to R156), the load check of
R140, and reading and writing the registers a word names.
-/

namespace Sys2Proof.Machine

/-! ## Fields -/

/-- A field of a lesson word. -/
def fld (w : Word) (lo len : Nat) : Nat := fieldNat w lo len

/-- A field of a lesson word, sign-extended to 64 bits (R143). -/
def sfld (w : Word) (lo len : Nat) : Word :=
  let v := fieldNat w lo len
  if v / 2 ^ (len - 1) % 2 == 1 then BitVec.ofNat 64 (2 ^ 64 - 2 ^ len + v) else BitVec.ofNat 64 v

def majorOf (w : Word) : Nat := fld w 0 6
def funcOf (w : Word) : Nat := fld w 6 6

/-- Whether a word carries a MAJOR and a FUNC. -/
def wordIs (w : Word) (major func : Nat) : Bool := majorOf w == major && funcOf w == func

/-- Bits lo to lo + len - 1 set. -/
def bitsAt (lo len : Nat) : Nat := (2 ^ len - 1) * 2 ^ lo

/-! ## The load check (R140, R142, R143) -/

/-- How many FUNCs, from 0 upward, a MAJOR defines; 0 for an undefined MAJOR (Tables 06-2, 06-4 to 06-12). -/
def funcsOf : Nat → Nat
  | 0x01 => 16
  | 0x02 => 6
  | 0x03 => 2
  | 0x04 => 5
  | 0x05 => 5
  | 0x06 => 4
  | 0x07 => 6
  | 0x08 => 2
  | 0x10 => 2
  | 0x11 => 5
  | 0x18 => 4
  | 0x20 => 0x2C
  | 0x21 => 3
  | 0x28 => 4
  | 0x30 => 4
  | 0x31 => 1
  | 0x34 => 2
  | 0x38 => 5
  | 0x3C => 4
  | _ => 0

/-- Whether a place, 0 core, 1 link engine, 2 memory-side die, accepts an instruction (Table 06-2). -/
def placeAccepts (place major func : Nat) : Bool :=
  match major with
  | 0x07 => place == 0 || func == 0 || func == 1 || func == 5
  | 0x30 => place == 0 || func == 0
  | 0x38 => place == 1
  | 0x3C => place == 2
  | m => decide (m ≤ 0x08) || place == 0

/-- The bits of the fields that a VOP FUNC uses (Table 06-9): D is a mask number in three bits for CMP and the mask
operations, C one for SEL. -/
def vopBits (f : Nat) : Nat :=
  let d := bitsAt 12 5
  let dm := bitsAt 12 3
  let a := bitsAt 17 5
  let b := bitsAt 22 5
  let c := bitsAt 27 5
  let t := bitsAt 32 4
  let m := bitsAt 36 3
  let x := bitsAt 51 5
  let sub := bitsAt 47 4
  if f ≤ 0x02 then d + a + b + t + m
  else match f with
    | 0x03 => d + a + b + c + t + m
    | 0x06 => d + a + t + m
    | 0x07 => d + a + t + m
    | 0x09 => d + a + t + m
    | 0x0A => d + a + t + m
    | 0x0B => d + a + t + m
    | 0x0C => d + a + t + m
    | 0x0D => d + a + t + m
    | 0x0E => d + a + t + m
    | 0x0F => d + a + t + m
    | 0x10 => d + a + t + m
    | 0x11 => d + a + t + m + bitsAt 39 3 + bitsAt 42 1 + bitsAt 43 4
    | 0x12 => dm + a + b + t + m + sub
    | 0x13 => d + a + b + bitsAt 27 3 + t + m
    | 0x1F => d + t + m + x
    | 0x20 => d + t + m
    | 0x21 => d + a + t + m + x
    | 0x22 => dm + a + b
    | 0x23 => dm + a + b
    | 0x24 => dm + a + b
    | 0x25 => dm + a
    | 0x26 => d + t + m
    | 0x27 => d + a + t + m + sub
    | 0x28 => d
    | 0x29 => d + a + m
    | 0x2A => d + a + b + m
    | 0x2B => x
    | _ => d + a + b + t + m

/-- The bits of the fields that a word uses besides MAJOR and FUNC (R140, R143, R145 to R156). -/
def fieldBits (w : Word) : Nat :=
  let f := funcOf w
  match majorOf w with
  | 0x01 => bitsAt 12 10 + bitsAt 27 1 + (if fld w 27 1 == 1 then bitsAt 28 36 else bitsAt 22 5)
  | 0x02 => bitsAt 12 10 + bitsAt 27 1 + (if fld w 27 1 == 1 then bitsAt 28 36 else bitsAt 22 5)
  | 0x03 => bitsAt 12 5 + (if f == 0 then bitsAt 18 46 else bitsAt 18 18)
  | 0x04 => (if f == 4 then bitsAt 12 4 else bitsAt 12 5) + bitsAt 32 32
  | 0x05 => (match f with
    | 1 => bitsAt 32 32
    | 2 => bitsAt 12 5 + bitsAt 32 32
    | 3 => bitsAt 12 5
    | _ => 0)
  | 0x06 => (match f with
    | 0 => bitsAt 12 4 + bitsAt 20 5
    | 1 => bitsAt 12 8 + bitsAt 32 32
    | 2 => bitsAt 12 16
    | _ => bitsAt 16 4 + bitsAt 20 5)
  | 0x07 => (match f with
    | 1 => bitsAt 12 8
    | 3 => bitsAt 20 7
    | _ => bitsAt 12 5)
  | 0x08 => bitsAt 12 12 + bitsAt 32 32 + (if f == 0 then bitsAt 24 1 else 0)
  | 0x10 => bitsAt 12 32
  | 0x11 => bitsAt 12 21 + (if f < 2 then 0 else bitsAt 33 4)
  | 0x18 => (match f with
    | 0 => bitsAt 12 17
    | 1 => 0
    | 2 => bitsAt 12 30
    | _ => bitsAt 12 20)
  | 0x20 => vopBits f
  | 0x21 =>
    if f == 2 then bitsAt 12 5 + bitsAt 37 3
    else bitsAt 12 25 + (if (0x08 ≤ fld w 26 4 && fld w 26 4 ≤ 0x0A) then bitsAt 40 5 else bitsAt 40 22)
  | 0x28 => (match f with
    | 0 => bitsAt 12 40
    | 1 => bitsAt 12 5 + bitsAt 22 29
    | 2 => bitsAt 12 13 + bitsAt 29 10
    | _ => bitsAt 34 5)
  | 0x30 => (match f with
    | 0 => bitsAt 32 16
    | 1 => bitsAt 12 8
    | 2 => bitsAt 17 3 + bitsAt 32 32
    | _ => bitsAt 20 2)
  | 0x31 => bitsAt 12 19
  | 0x34 => (if f == 0 then bitsAt 20 1 else bitsAt 12 8) + bitsAt 32 16
  | 0x38 => bitsAt 12 21
  | 0x3C => bitsAt 12 19
  | _ => 0

/-- The load check of one word for a place: the DETAIL of the first failing check (R140). -/
def wordFault (place : Nat) (w : Word) : Option (BitVec 16) :=
  if funcOf w ≥ funcsOf (majorOf w) then some 0x0001
  else if !placeAccepts place (majorOf w) (funcOf w) then some 0x0002
  else if w.toNat &&& (2 ^ 64 - 1 - (0xFFF + fieldBits w)) != 0 then some 0x0003
  else none

/-! ## Registers -/

/-- A scalar register of a place. -/
def sreg (q : Seq) (i : Nat) : Word := vget q.s i 0

/-- A scalar register written. -/
def setS (i : Nat) (v : Word) (q : Seq) : Seq := { q with s := vset q.s i v }

/-- An address register of a place, 48 bits (R134). -/
def areg (q : Seq) (i : Nat) : Nat := (vget q.a i 0).toNat

/-- An address register written, mod 2^48 (R143). -/
def setA (i : Nat) (v : Nat) (q : Seq) : Seq := { q with a := vset q.a i (BitVec.ofNat 48 v) }

/-- A token field: none for 0x1F (R138); 0x10 to 0x1E are reserved. -/
def tokField (n : Nat) : Option (Fin 16) := if h : n < 16 then some ⟨n, h⟩ else none

/-- Whether a token field holds a reserved value (R138). -/
def tokReserved (n : Nat) : Bool := decide (16 ≤ n) && n != 0x1F

/-- Whether a token is ready; no token is always ready. -/
def tokReady (q : Seq) (t : Option (Fin 16)) : Bool :=
  match t with
  | some i => q.tok[i]
  | none => true

/-- A token set ready or busy. -/
def setTok (t : Option (Fin 16)) (v : Bool) (q : Seq) : Seq :=
  match t with
  | some i => { q with tok := q.tok.set i v }
  | none => q

/-- A vector register: 128 lanes. -/
def vreg (v : VecSt) (i : Nat) : Vector W32 128 := vget v.v i (Vector.replicate 128 0)

/-- A mask register; m0 always reads as all ones (R110). -/
def mreg (v : VecSt) (i : Nat) : BitVec 128 := if i == 0 then BitVec.allOnes 128 else vget v.m i 0

/-- A mask register written; writes to m0 are discarded (R110). -/
def setM (i : Nat) (b : BitVec 128) (v : VecSt) : VecSt := if i == 0 then v else { v with m := vset v.m i b }

/-- A vector register written in the lanes of a mask; other lanes keep their values (R112). -/
def setV (i : Nat) (mask : BitVec 128) (f : Fin 128 → W32) (v : VecSt) : VecSt :=
  { v with v := vset v.v i (Vector.ofFn fun l => if mask.getLsbD l then f l else (vreg v i)[l]) }

/-- The arithmetic types of the Vector Engine (R111): FP32, BF16, FP16 and INT32. -/
def arithType (t : Nat) : Bool := t == 0x01 || t == 0x02 || t == 0x03 || t == 0x0B

/-- The floating-point types of the Vector Engine. -/
def floatType (t : Nat) : Bool := t == 0x01 || t == 0x02 || t == 0x03

/-- The width of a vector type. -/
def typeWidth (t : Nat) : Nat := if t == 0x02 || t == 0x03 then 16 else 32

/-- A lane's value of a type: bits [w - 1:0], those above ignored (R111). -/
def laneVal (t : Nat) (x : W32) : Fp := decodeCode t (x.toNat % 2 ^ typeWidth t)

end Sys2Proof.Machine
end

