-- ==== Sys2Proof/Machine/Flags.lean ====
section
/-!
DEFINITION. Machine/Flags.lean: the three flag words of a core and the closing of its output tile (R125 to R127).
-/

namespace Sys2Proof.Machine

/-- Flags raised by a vector instruction: ORed into the stream, lesson and output-tile words (R125). -/
def raiseVec (f : BitVec 7) (v : VecSt) : VecSt :=
  { v with streamFlags := v.streamFlags ||| f, lessonFlags := v.lessonFlags ||| f, tileFlags := v.tileFlags ||| f }

/-- Flags that reach the stream and lesson words alone: those of a drained or popped entry (R125). -/
def raiseEntry (f : BitVec 7) (v : VecSt) : VecSt :=
  { v with streamFlags := v.streamFlags ||| f, lessonFlags := v.lessonFlags ||| f }

/-- A closed tile counted when its word is flagged; the first keeps its coordinates (R126, R127). -/
def noteTile (f : BitVec 7) (row col : BitVec 16) (v : VecSt) : VecSt :=
  if flagged f then
    { v with flagged := v.flagged + 1, firstFlagged := some (v.firstFlagged.getD (row, col)) }
  else v

/-- The output tile closed and a new one opened (R126). -/
def openTile (row col : BitVec 16) (f : BitVec 7) (v : VecSt) : VecSt :=
  let v := noteTile v.tileFlags v.otcRow v.otcCol v
  { v with otcRow := row, otcCol := col, tileFlags := f }

/-- The output tile closed at lesson end (R126). -/
def closeTile (v : VecSt) : VecSt := { noteTile v.tileFlags v.otcRow v.otcCol v with tileFlags := 0 }

/-- An entry's flags and coordinates meet the output tile when a POP takes its first row (R125, R126). -/
def popFlags (e : Entry) (v : VecSt) : VecSt :=
  let v := raiseEntry e.flags v
  if e.trow == v.otcRow && e.tcol == v.otcCol then { v with tileFlags := v.tileFlags ||| e.flags }
  else openTile e.trow e.tcol e.flags v

/-- CLRFLAG: the named bits of the stream word fall, except those raised in the same cycle (R7, R143). -/
def clearStream (mask coincident : BitVec 7) (v : VecSt) : VecSt :=
  let w := raiseVec coincident v
  { w with streamFlags := (v.streamFlags &&& ~~~ mask) ||| coincident }

end Sys2Proof.Machine
end

