-- ==== Sys2Proof/Machine/Lessons.lean ====
section
/-!
DEFINITION. Machine/Lessons.lean: issuing an instruction at a place, advancing and stopping it, and the end of a core's
lesson (R133 to R143, R159). Effects of a core instruction take place as it issues, in program order (R130); the
completion events of the asynchronous units follow (notes/assumptions/10.md).
-/

namespace Sys2Proof.Machine

/-! ## Physical cores and forms -/

/-- The physical slot 48d + 8f + s of a logical core (R402); a core with no assignment stands at its own number. -/
def physOf (c : Nat) (s : State) : Nat := tgetD s.flash.physOf c c

/-- The form of a logical core, 0 to 23. -/
def formOf (c : Nat) (s : State) : Nat := physOf c s / 8

/-- The compute die of a logical core. -/
def dieOf (c : Nat) (s : State) : Nat := physOf c s / 48

/-! ## The end of a lesson on a core (R105, R126, R159) -/

/-- Whether every asynchronous operation of a core has completed, TF tokens apart (R159). -/
def coreIdle (k : Core) : Bool :=
  k.dmas.isEmpty && k.narrows.isEmpty && k.disp.isEmpty && k.tile.fills.isEmpty && k.tile.drains.isEmpty
    && !(k.preds.any fun p => p.st == 0 || p.st == 2)

/-- Entries held against the eight (Table 05-1). -/
def heldEntries (t : TileSt) : Nat := t.entries.countP fun e => e.st != .waiting

/-- Whether a pass waits for an entry while all eight are held and no DRAIN is in progress (R109). -/
def tileStuck (t : TileSt) : Bool :=
  decide (8 ≤ heldEntries t) && t.drains.isEmpty && t.entries.any fun e => e.st == .waiting

/-- Whether a FILL stands behind a pass that can never start (R109). -/
def fillStuck (k : Core) : Bool :=
  tileStuck k.tile && k.tile.fills.any fun f => f.behind.any fun q => k.tile.entries.any fun e => e.seq == q && e.st == .waiting

/-- Every unresolved prediction of a core squashed, as its lesson ends (R186): one still fetching drains, one landed is
gone. -/
def squashAll (k : Core) : Core :=
  { k with preds := (k.preds.filter fun p => p.resolved || p.st == 0).map fun p =>
      if p.resolved then p else { p with st := 3, resolved := true, fenced := false } }

/-- A core whose lesson ends: its output tile closes, entries and accumulators are discarded (R105, R126). -/
def endCore (k : Core) : Core :=
  { squashAll k with
           seq := { k.seq with running := false }, vec := closeTile k.vec, tile := { k.tile with entries := [] },
           halting := false, halted := true, waitPop := none, waitEv := none, waitBar := none }

/-- Whether a core stopped in the middle of a lesson has completed what can complete: a FILL behind a pass for which no
entry will be freed has not begun (R109, R159). -/
def stoppedIdle (k : Core) : Bool := coreIdle { k with tile := if fillStuck k then { k.tile with fills := [] } else k.tile }

/-- A core that is halting ends once it is idle. -/
def settleHalt (k : Core) : Core := if k.halting && coreIdle k then endCore k else k

/-- A core stopped in the middle of a lesson: it issues nothing more, and issued operations complete (R159). -/
def haltStopped (k : Core) : Core :=
  { squashAll k with
           seq := { k.seq with running := false }, halting := false, halted := true,
           waitPop := none, waitEv := none, waitBar := none, reseed := none }

/-- A run that ends with a status other than its own: the first stop decides, and every core of the run issues nothing
more (R28, R141, R159). -/
def stopRun (r : Nat) (status : BitVec 8) (detail : BitVec 16) (result0 : Word) (s : State) : State :=
  match runOf r s with
  | none => s
  | some u =>
    u.cores.foldl (fun s c => modCore c haltStopped s)
      (modRun r (fun x => { x with stop := some (x.stop.getD (status, detail, result0)) }) s)

/-- A core stops its lesson as REFUSED_MALFORMED with a DETAIL and RESULT0 (R141). -/
def stopCoreAt (c : Nat) (detail : BitVec 16) (result0 : Word) (s : State) : State :=
  match (coreOf c s).run with
  | none => modCore c haltStopped s
  | some r => stopRun r stMalformed detail result0 s

/-- A core stops at the instruction its program counter names, RESULT0 its word index (R141). -/
def stopCore (c : Nat) (detail : BitVec 16) (s : State) : State :=
  stopCoreAt c detail (BitVec.ofNat 64 (coreOf c s).seq.pc) s

/-- A place stops at its instruction; a timetable or sweep lesson, for which the spec names no stop, stays at it. -/
def stopPlace (p : Place) (detail : BitVec 16) (s : State) : State :=
  match p with
  | .core c => stopCore c detail s
  | _ => s

/-! ## Issue (R136, R138, R139) -/

/-- The stall of a place that has just issued, recorded (R435). -/
def endStall (p : Place) (s : State) : State :=
  match (seqOf p s).stall with
  | some (cause, since) => modSeq p (fun q => { q with stall := none }) (addStall cause (nsSince since (mono s)) s)
  | none => s

/-- An instruction held at issue: the cause and when it began are kept, and nothing else changes. -/
def holdIssue (p : Place) (cause : Nat) (s : State) : State :=
  modSeq p (fun q => { q with stall := some (q.stall.getD (cause, mono s)) }) s

/-- The time of a core's last issue, for the watchdog (R362). -/
def noteIssue (p : Place) (s : State) : State :=
  match p with
  | .core c => modCore c (fun k => { k with lastIssueTick := s.time.ticks }) s
  | _ => s

/-- The next instruction of a place: a core whose next program counter lies outside the code section stops (Table
06-3). -/
def goTo (p : Place) (pc : Nat) (s : State) : State :=
  match p with
  | .core c =>
    if pc < (coreOf c s).seq.code.length then modSeq p (fun q => { q with pc := pc }) (endStall p (noteIssue p s))
    else stopCore c 0x0004 s
  | _ => modSeq p (fun q => { q with pc := pc }) (endStall p s)

/-- The instruction after the one at the program counter. -/
def advance (p : Place) (s : State) : State := goTo p ((seqOf p s).pc + 1) s

/-- The target of a branch or jump: an offset in instruction words from the instruction itself (R143). -/
def branchTo (p : Place) (off : Word) (s : State) : State :=
  let t := (seqOf p s).pc + off.toInt
  if t < 0 then stopPlace p 0x0004 s else goTo p t.toNat s

/-- Whether a place may issue this word now. A core must be running, hold the word at its program counter and wait on
nothing; a timetable or sweep lesson takes the words its firmware gives it, one after another, unless a SLOT holds it. -/
def canIssue (p : Place) (w : Word) (s : State) : Bool :=
  match p with
  | .core c =>
    let k := coreOf c s
    k.seq.running && k.seq.code[k.seq.pc]? == some w && !k.halting && k.waitPop.isNone && k.waitEv.isNone
      && k.waitBar.isNone
  | _ => (seqOf p s).slotUntil.isNone

/-- The scalar registers an instruction word reads (Tables 06-4 to 06-12). -/
def scalarReads (w : Word) : List Nat :=
  match majorOf w, funcOf w with
  | 0x01, _ => fld w 17 5 :: (if fld w 27 1 == 1 then [] else [fld w 22 5])
  | 0x02, _ => fld w 17 5 :: (if fld w 27 1 == 1 then [] else [fld w 22 5])
  | 0x03, 1 => [fld w 12 5]
  | 0x04, f => if f < 4 then [fld w 12 5] else []
  | 0x05, 3 => [fld w 12 5]
  | 0x06, f => if f == 0 || f == 2 then [fld w 20 5] else []
  | 0x07, 4 => [fld w 12 5]
  | 0x08, 1 => [fld w 12 5]
  | 0x10, _ => [fld w 12 5]
  | 0x18, 2 => [fld w 37 5]
  | 0x20, f => if f == 0x1F || f == 0x21 || f == 0x2B then [fld w 51 5] else []
  | 0x21, f => if f < 2 && (ssbElem (fld w 26 4)).isSome then [fld w 40 5] else []
  | 0x28, f => if f == 0 || f == 2 || f == 3 then [fld w 34 5] else []
  | 0x30, 1 => [fld w 12 5]
  | _, _ => []

/-- The scalar registers of a core whose XPOST awaits its admission (R153). -/
def postPending (k : Core) (s : State) : List Nat :=
  match k.run.bind fun r => runOf r s with
  | none => []
  | some u => u.xposts.flatMap fun x => if k.disp.any fun o => o.xpost == some x.desc then [x.sd, x.sd + 1] else []

/-- Whether an instruction of a place reads a register whose result is still pending (R136). -/
def readsPending (p : Place) (w : Word) (s : State) : Bool :=
  match p with
  | .core c => (scalarReads w).any fun r => (postPending (coreOf c s) s).contains r
  | _ => false

/-- One instruction of a place: a word of another MAJOR or FUNC is ill-formed; one that may not issue now changes
nothing, and one that reads a pending register is held. -/
def instr (p : Place) (w : Word) (major func : Nat) (body : State → State) (s : State) : Out :=
  if !wordIs w major func then .fault .illFormed
  else if canIssue p w s then .next (if readsPending p w s then holdIssue p 0x03 s else body s)
  else .next s

/-- A change of the scalar state of a place, then the next instruction. -/
def stepSeq (p : Place) (f : Seq → Seq) (s : State) : State := advance p (modSeq p f s)

/-- The token of an instruction: a reserved value stops the place, a busy token holds it at issue (R138). -/
def withTok (p : Place) (n : Nat) (body : Option (Fin 16) → State → State) (s : State) : State :=
  if tokReserved n then stopPlace p 0x0004 s
  else if !tokReady (seqOf p s) (tokField n) then holdIssue p 0x01 s
  else body (tokField n) s

end Sys2Proof.Machine
end

