-- ==== Sys2Proof/Machine/Channels.lean ====
section
/-!
DEFINITION. Machine/Channels.lean: bells, completions, ports, WAIT, and the admin commands that create and adopt channels
and map their memory (chapter 02, R451, R452).
-/

namespace Sys2Proof.Machine

/-! ## Bells (R20, R36, R37, R39, R409) -/

/-- The window test of R37. -/
def tailAccepted (h t v : W32) (n : Nat) : Bool :=
  decide ((v - h).toNat ≤ n) && decide ((v - t).toNat ≤ n - (t - h).toNat)

/-- A tail written to a present ring, accepted or discarded (R36, R37). -/
def takeTail (slot ring : Nat) (v : W32) (s : State) : State :=
  let r := ringOf slot ring s
  if r.log2 == 0 then raiseBellError slot s
  else if tailAccepted r.head r.tail v (2 ^ r.log2) then
    modChan slot (fun c => { c with rings := vmod c.rings ring (fun x => { x with tail := v }) }) s
  else raiseBellError slot s

/-- A completion head written, accepted or discarded (R39). -/
def takeHead (slot : Nat) (v : W32) (s : State) : State :=
  match chanOf slot s with
  | none => s
  | some c =>
    if (v - c.cq.h).toNat ≤ (c.cq.w - c.cq.h).toNat then modChan slot (fun c => { c with cq := { c.cq with h := v } }) s
    else raiseBellError slot s

/-- A bell as taken: ring 8 is the completion head. -/
def takeBell (slot ring : Nat) (v : W32) (s : State) : State :=
  if ring == 8 then takeHead slot v s else takeTail slot ring v s

/-- The register a bell offset names: ring number, 8 for CQ_HEAD, none when reserved (Table 02-5). -/
def bellReg (offset : Nat) : Option Nat :=
  if offset == 0x200 then some 8
  else if offset % 0x40 == 0 && decide (offset < 0x200) then some (offset / 0x40)
  else none

/-- A bell kept while the module is not ready: the latest of each ring (R409). -/
def keepBell (p : Port) (slot ring : Nat) (v : W32) (s : State) : State :=
  modPort p (fun q => { q with bells := (q.bells.filter fun b => !(b.1 == slot && b.2.1 == ring)) ++ [(slot, ring, v)] }) s

/-- A write to a bell page as it reaches the device (R20, R21, R36, R409). -/
def bellWrite (p : Port) (slot offset size : Nat) (value : Word) (s : State) : State :=
  if (portOf p s).fenced || !(portOf p s).linkUp then s
  else
    let s := modPort p (fun q => { q with latch := none }) s
    match chanOf slot s with
    | none => s
    | some c =>
      if c.owner != p || !c.running then s
      else if size != 4 || offset % 4 != 0 then raiseBellError slot s
      else match bellReg offset with
        | none => raiseBellError slot s
        | some ring =>
          let v : W32 := value.setWidth 32
          if s.mod.stage == 7 || (decide (slot < 2) && decide (4 ≤ s.mod.stage.toNat) && decide (s.mod.stage.toNat ≤ 6)) then
            takeBell slot ring v s
          else if decide (4 ≤ s.mod.stage.toNat) && decide (s.mod.stage.toNat ≤ 6) then keepBell p slot ring v s
          else s

/-- SQ_TAIL_WRITE (R37): a bell write of a submission ring's tail. -/
def execSqTailWrite (p : Port) (slot : Fin 4096) (offset : BitVec 12) (size : Nat) (value : Word) (s : State) : Out :=
  .next (bellWrite p slot offset.toNat size value s)

/-- CQ_HEAD_WRITE (R39): a bell write of the completion ring head. -/
def execCqHeadWrite (p : Port) (slot : Fin 4096) (size : Nat) (value : Word) (s : State) : Out :=
  .next (bellWrite p slot 0x200 size value s)

/-! ## Completions (R38, R40, R46) -/

/-- The stages at which a channel's work runs: an admin channel's from stage 4, every other's at stage 7 (R409). -/
def stageServes (slot : Nat) (s : State) : Bool :=
  s.mod.stage == 7 || (decide (slot < 2) && decide (4 ≤ s.mod.stage.toNat) && decide (s.mod.stage.toNat ≤ 6))

/-- The submission head of the ring a completion names, mod 65,536; a ring whose channel is gone has none, and the field
is a free value (R24, R46). -/
def complHead (x : Compl) (s : State) : Nat :=
  match chanOf x.headSlot s with
  | some c => (vget c.rings x.ring {}).head.toNat % 65536
  | none => (Config.freeWord s.free).toNat % 65536

/-- The 32 bytes of a completion entry at index `w` of a ring of 2^log2 entries (Table 02-10). -/
def complBytes (x : Compl) (w : W32) (log2 head : Nat) : List Byte :=
  let phase := if (w.toNat / 2 ^ log2) % 2 == 0 then 1 else 0
  wordBytes x.tag ++
  wordBytes (BitVec.ofNat 64 (x.status.toNat + x.opcode.toNat * 2 ^ 8 + (x.ring % 8) * 2 ^ 16 + phase * 2 ^ 31
    + x.detail.toNat * 2 ^ 32 + head * 2 ^ 48)) ++
  wordBytes x.result0 ++ wordBytes x.dtime

/-- The interrupt state of a completion ring after an entry, and whether a message falls due (R40). -/
def afterEntry (irq : Bool) (t : Word) (q : CRing) : CRing × Bool :=
  let n := q.sinceMsg + 1
  if q.irqEnable && (irq || (q.coalCount != 0 && decide (q.coalCount ≤ n))) then
    ({ q with sinceMsg := 0, oldest := none }, true)
  else ({ q with sinceMsg := n, oldest := some (q.oldest.getD t) }, false)

/-- Whether a waiting completion of a channel may be written now (R21, R38). -/
def complDue (slot : Nat) (c : Chan) (s : State) : Bool :=
  !c.waiting.isEmpty && decide ((c.cq.w - c.cq.h).toNat < 2 ^ c.cq.log2) && !(portOf c.owner s).fenced
    && (portOf c.owner s).linkUp && stageServes slot s

/-- COMPLETION_WRITE (R38, R46): the oldest completion waiting in a channel is written, and a message follows (R40). -/
def execCompletionWrite (slot : Fin 4096) (s : State) : Out :=
  .next <|
    match chanOf slot s with
    | none => s
    | some c =>
      match c.waiting with
      | [] => s
      | x :: rest =>
        if complDue slot c s then
          let bytes := complBytes x c.cq.w c.cq.log2 (complHead x s)
          let at' := c.cq.base.toNat + 32 * (c.cq.w.toNat % 2 ^ c.cq.log2)
          let q := afterEntry x.irq (mono s) { c.cq with w := c.cq.w + 1 }
          let s := if (chanOf x.headSlot s).isNone then drawFree 1 s else s
          let s := hostWrite c.owner at' bytes s
          let s := modChan slot (fun c => { c with waiting := rest, cq := q.1 }) s
          settleDestroy slot (if q.2 then sendMsix c.owner c.cq.vector s else s)
        else s

/-- COALESCE_TIMER_EXPIRY (R40): COALESCE_US have passed since the oldest entry written after the last message. -/
def execCoalesceTimerExpiry (slot : Fin 4096) (s : State) : Out :=
  .next <|
    match chanOf slot s with
    | none => s
    | some c =>
      match c.cq.oldest with
      | none => s
      | some t =>
        if c.cq.irqEnable && c.cq.coalUs != 0 && decide (c.cq.coalUs * 1000 ≤ nsSince t (mono s)) then
          sendMsix c.owner c.cq.vector
            (modChan slot (fun c => { c with cq := { c.cq with sinceMsg := 0, oldest := none } }) s)
        else s

/-! ## Ports (R21, R410, R451, R452) -/

/-- The fence of a port set by hardware (R8, R21). -/
def fencePort (p : Port) (s : State) : State :=
  modPort p (fun q => { q with fenced := true, fenceCount := q.fenceCount + 1 }) s

/-- PORT_LINK_DOWN (R21): the link goes down and the 100 ms timer starts. -/
def execPortLinkDown (p : Port) (s : State) : Out :=
  .next <|
    if (portOf p s).linkUp then
      modPort p (fun q => { q with linkUp := false, width := 0, speed := 0, downSince := some (mono s) }) s
    else s

/-- PORT_LINK_UP (R21): the link comes up at a width and speed, and the timer is cancelled. -/
def execPortLinkUp (p : Port) (width speed : BitVec 4) (s : State) : Out :=
  .next (modPort p (fun q => { q with linkUp := true, width := width, speed := speed, downSince := none }) s)

/-- PORT_LINK_DOWN_TIMEOUT (R21): the link has been down for 100 ms and the port is fenced. -/
def execPortLinkDownTimeout (p : Port) (s : State) : Out :=
  .next <|
    match (portOf p s).downSince with
    | some t =>
      if !(portOf p s).linkUp && decide (100000000 ≤ nsSince t (mono s)) then
        fencePort p (modPort p (fun q => { q with downSince := none }) s)
      else s
    | none => s

/-- PEER_FENCE_WRITE (R21): port `p` writes 1 to PEER_FENCE and the other port is fenced. -/
def execPeerFenceWrite (p : Port) (s : State) : Out :=
  .next (if (portOf p s).fenced then s else fencePort (peerOf p) (modPort p (fun q => { q with latch := none }) s))

/-- SELF_FENCE_CLEAR (R452): a fenced port writes 1 to its SELF_FENCE. `coincident`: the other port sets the fence, or
the 100 ms timer expires, in the same cycle. -/
def execSelfFenceClear (p : Port) (coincident : Bool) (s : State) : Out :=
  .next (modPort p (fun q => { q with
    latch := none
    fenced := coincident || (q.fenced && !q.linkUp)
    fenceCount := if coincident then q.fenceCount + 1 else q.fenceCount }) s)

/-- A ring's configuration in word form (Table 02-4): a zero weight counts as 1. -/
def ringFrom (base cfg : Word) : Ring :=
  { base := base, log2 := fieldNat cfg 0 5, weight := max 1 (fieldNat cfg 8 8) }

/-- A completion ring's configuration (Table 02-4). -/
def cringFrom (base cfg : Word) : CRing :=
  { base := base, log2 := fieldNat cfg 0 5, vector := fieldNat cfg 16 11, irqEnable := bitOf cfg 27,
    coalCount := fieldNat cfg 32 16, coalUs := fieldNat cfg 48 16 }

/-- Whether a ring's base and size lie in range (R32). -/
def ringInRange (absentOk : Bool) (base : Word) (log2 : Nat) : Bool :=
  (absentOk && log2 == 0) || (decide (6 ≤ log2) && decide (log2 ≤ 16) && fieldNat base 0 12 == 0)

/-- The admin channel of a port from its registers (R451). -/
def adminChan (p : Port) (q : PortSt) : Chan :=
  { handle := mkHandle 0 1 (adminSlot p), cls := 0, owner := p
    rings := Vector.ofFn fun i : Fin 8 => ringFrom q.adminSqBase[i] (q.adminSqCfg[i].setWidth 64)
    cq := cringFrom q.adminCqBase q.adminCqCfg
    waiting := q.stale }

/-- Whether the admin ring fields are in range (R451). -/
def adminInRange (q : PortSt) : Bool :=
  (List.finRange 8).all (fun i : Fin 8 => ringInRange true q.adminSqBase[i] (fieldNat q.adminSqCfg[i] 0 5)) &&
  ringInRange false q.adminCqBase (fieldNat q.adminCqCfg 0 5)

/-- ADMIN_ENABLE (R451): ENABLE goes from 0 to 1. -/
def execAdminEnable (p : Port) (s : State) : Out :=
  .next <|
    let q := portOf p s
    if q.fenced || q.adminEnable || decide (s.mod.stage.toNat < 2) then s
    else
      let s := modPort p (fun q => { q with latch := none }) s
      if adminInRange q then
        modSlot (adminSlot p) (fun x => { x with lastHandle := mkHandle 0 1 (adminSlot p), chan := some (adminChan p q) })
          (modPort p (fun q => { q with adminEnable := true, cfgError := false, stale := [] }) s)
      else modPort p (fun q => { q with cfgError := true }) s

/-- ADMIN_DISABLE (R451): ENABLE goes to 0; what still waits is written first at the next enable. -/
def execAdminDisable (p : Port) (s : State) : Out :=
  .next <|
    let q := portOf p s
    if q.fenced || !q.adminEnable then s
    else
      let w := match chanOf (adminSlot p) s with | some c => c.waiting | none => []
      modSlot (adminSlot p) (fun x => { x with chan := none })
        (modPort p (fun q => { q with latch := none, adminEnable := false, stale := w ++ q.stale }) s)

/-- PORT_RESET (R410): one PCIe port restarts alone. -/
def execPortReset (p : Port) (s : State) : Out :=
  .next (modPort p (fun q => { q with
    linkUp := false, width := 0, speed := 0, latch := none, msixTable := [], msixPending := []
    downSince := if q.linkUp then some (mono s) else q.downSince }) s)

/-! ## WAIT (R44) -/

/-- Whether what a WAIT waits for has come. -/
def waitReady (r : DescRec) (s : State) : Bool :=
  match fieldNat r.desc.w2 0 2 with
  | 0 => match r.waitOn with
    | some i => (descOf i s).isNone
    | none => true
  | 1 => decide (r.desc.w3.toNat ≤ (now s).toNat)
  | _ => s.groups.any fun g => decide (r.desc.w3.toNat ≤ g.lastStep.toNat)

/-- A WAIT as it starts. -/
def startWait (r : DescRec) (s : State) : State :=
  if fieldNat r.desc.w2 0 2 == 3 then refuse r 0x0004 0 s
  else if waitReady r s then done r 0 s
  else holdAs r .wait s

/-- WAIT (R44). -/
def execWait (d : Desc) (s : State) : Out := .next (fetchWith 0x0B d noFetchEffect startWait s)

/-- WAIT_SATISFIED (R44): a waiting WAIT's condition is met. -/
def execWaitSatisfied (id : Nat) (s : State) : Out :=
  .next <|
    match descOf id s with
    | some r => if r.hold == .wait && waitReady r s then done r 0 s else s
    | none => s

/-- WAIT_TIMEOUT (R44): a WAIT still waits at its TIMEOUT. -/
def execWaitTimeout (id : Nat) (s : State) : Out :=
  .next <|
    match descOf id s with
    | some r =>
      if r.hold == .wait && !waitReady r s && r.desc.w4 != 0 && decide (r.desc.w4.toNat ≤ (now s).toNat) then
        finish r stDeadline 0x0201 0 s
      else s
    | none => s

/-- UNDEFINED_OPCODE (R41): the checks refuse it; an opcode of the tables is another command's. -/
def execUndefinedOpcode (opcode : BitVec 8) (d : Desc) (s : State) : Out :=
  if opcodeDefined opcode then .fault .illFormed
  else .next (fetchWith opcode d noFetchEffect (fun r s => refuse r 0x0001 0 s) s)

/-! ## CHANNEL_CREATE and CHANNEL_ADOPT (R23, R26, R27, R32, R50) -/

/-- The rings of a ring-configuration block, or the DETAIL that refuses it (R32): a reserved field before a value out of
range. -/
def readRingBlock (p : Port) (addr : Nat) (s : State) : Except (BitVec 16) (Vector Ring 8 × CRing) :=
  let sqBase (i : Nat) := hostWord p (addr + 16 * i) s
  let sqCfg (i : Nat) := hostWord p (addr + 16 * i + 8) s
  let cqBase := hostWord p (addr + 0x80) s
  let cqCfg := hostWord p (addr + 0x88) s
  if addr % 4096 != 0 then .error 0x0004
  else if (List.range 8).any (fun i => sqCfg i &&& ~~~ (0xFF1F : Word) != 0)
      || cqCfg &&& ~~~ (0xFFFFFFFF0FFF001F : Word) != 0
      || (hostRead p (addr + 0x90) 0x70 s).any (fun b => b != 0)
      || (hostRead p (addr + 0x120) 0xE0 s).any (fun b => b != 0) then .error 0x0003
  else if (List.range 8).any (fun i => !ringInRange true (sqBase i) (fieldNat (sqCfg i) 0 5))
      || !ringInRange false cqBase (fieldNat cqCfg 0 5) then .error 0x0004
  else .ok (Vector.ofFn fun i : Fin 8 => ringFrom (sqBase i) (sqCfg i), cringFrom cqBase cqCfg)

/-- The live channels, by slot. -/
def liveChans (s : State) : List (Nat × Chan) := s.slots.filterMap fun e => e.2.chan.map fun c => (e.1, c)

/-- Whether a logical core may be given to a new channel (R27, R402). -/
def coreFree (shared : Bool) (c : Nat) (s : State) : Bool :=
  (tget? s.flash.physOf c).isSome && (liveChans s).all fun x => !x.2.cores.contains c || (shared && x.2.shared)

/-- The cores a CHANNEL_CREATE names or counts, lowest first; none when they are not available (R26). -/
def coresFor (mask : Nat) (count : Nat) (shared : Bool) (s : State) : Option (List Nat) :=
  if mask != 0 then
    let cs := (List.range 192).filter fun c => mask.testBit c
    if cs.all fun c => coreFree shared c s then some cs else none
  else
    let cs := ((List.range 192).filter fun c => coreFree shared c s).take count
    if cs.length == count then some cs else none

/-- The data rate of a link for admission, in hundredths of a Gb/s (Table 12-1). -/
def laneRate (lanes : Nat) : Nat := match lanes with | 4 => 79375 | 3 => 59531 | 2 => 39688 | _ => 0

/-- The number of lanes of a link that run. -/
def laneCount (l : Link) : Nat := (List.range 4).countP fun i => l.lanes.getLsbD i

/-- Link bandwidth not yet reserved by a channel, in hundredths of a Gb/s. -/
def linkFree (s : State) : Nat :=
  sumNat ((s.links.filter fun l => l.2.state == 3).map fun l => laneRate (laneCount l.2))
    - 100 * sumNat ((liveChans s).map fun c => c.2.linkGbps)

/-- The lowest free slot from 2 upward (R23). -/
def freeSlotNo (s : State) : Option Nat := ((List.range 4094).map (· + 2)).find? fun i => (chanOf i s).isNone

/-- CHANNEL_CREATE without ADOPT as it starts. -/
def createChannel (r : DescRec) (s : State) : State :=
  let w := r.desc.w2
  let cls := fieldNat w 0 4
  let count := fieldNat w 16 16
  let mask := r.desc.w3.toNat + r.desc.w4.toNat * 2 ^ 64 + r.desc.w5.toNat * 2 ^ 128
  let sr := fieldNat w 48 5
  let named := mask != 0 || count != 0
  if cls == 0 || decide (3 < cls) || decide (16 < sr) || named != (cls == 1) then refuse r 0x0004 0 s
  else match readRingBlock r.port r.desc.w6.toNat s with
    | .error d => refuse r d 0 s
    | .ok (rings, cq) =>
      let cores := if cls == 1 then coresFor mask count (bitOf w 5) s else some []
      match freeSlotNo s, cores with
      | some slot, some cs =>
        if linkFree s < 100 * fieldNat w 32 16 then refuseCap r 0 s
        else
          let h := mkHandle cls (slotOf slot s).gen.toNat slot
          let c : Chan :=
            { handle := h, cls := cls, owner := r.port, shared := bitOf w 5, legacy := bitOf w 53, fp16Ieee := bitOf w 54
              srBits := if sr == 0 then 8 else sr, linkGbps := fieldNat w 32 16, seed := r.desc.w7, cores := cs
              rings := rings, cq := cq }
          done r h.toNat
            (modSlot slot (fun x => { x with lastHandle := h, bellError := false, bellCount := 0, chan := some c }) s)
      | _, _ => refuseCap r 0 s

/-- The heads of a channel's submission rings as the 32 bytes written at ADOPT_HEAD (Table 02-4). -/
def adoptHeads (c : Chan) : List Byte := c.rings.toList.flatMap fun x => leBytes 4 x.head.toNat

/-- CHANNEL_CREATE with ADOPT as it starts (R50, R51). -/
def adoptChannel (r : DescRec) (s : State) : State :=
  let h : W32 := r.desc.w3.setWidth 32
  let slot := handleSlot h
  if handleStale h s then finishGone r s
  else match chanOf slot s with
    | none => finishGone r s
    | some c =>
      if decide (slot < 2) || handleClass h != c.cls then refuse r 0x0004 0 s
      else if !(portOf c.owner s).fenced then refuse r 0x0301 0 s
      else match readRingBlock r.port r.desc.w6.toNat s with
        | .error d => refuse r d 0 s
        | .ok (rings, cq) =>
          let lost := c.lost
          done r (h.toNat + (lost % 65536) * 2 ^ 32)
            (modChan slot (fun c => { c with owner := r.port, rings := rings, cq := cq, lost := 0 })
              (hostWrite r.port (r.desc.w6.toNat + 0x100) (adoptHeads c) s))

/-- CHANNEL_CREATE or its ADOPT form, by the ADOPT bit. -/
def startCreate (r : DescRec) (s : State) : State :=
  if bitOf r.desc.w2 4 then adoptChannel r s else createChannel r s

/-- CHANNEL_CREATE (R26). -/
def execChannelCreate (d : Desc) (s : State) : Out := .next (fetchWith 0x40 d noFetchEffect startCreate s)

/-- CHANNEL_ADOPT (R50). -/
def execChannelAdopt (d : Desc) (s : State) : Out := .next (fetchWith 0x40 d noFetchEffect startCreate s)

/-! ## Naming a channel (R45) -/

/-- A user channel that an admin descriptor names, owned by the port that submitted it: none when the handle is
stale. -/
def ownedChan (h : W32) (r : DescRec) (s : State) : Option (Nat × Chan × Bool) :=
  if handleStale h s then none
  else (chanOf (handleSlot h) s).map fun c =>
    (handleSlot h, c, c.owner == r.port && handleClass h == c.cls && decide (2 ≤ handleSlot h))

/-! ## MAP_MEMORY and UNMAP (R29, R31) -/

/-- The fast frames of 2 MiB that a variant's memory holds for mapping (Table 00-1). -/
def frameCapacity (v : Variant) : Nat :=
  match v with | .F => 688128 | .E => 516096 | .S => 344064

/-- The `n` lowest frames not in use, from frame `i`. -/
def lowestFrames (used : List Nat) : Nat → Nat → Nat → List Nat
  | 0, _, _ => []
  | _ + 1, 0, _ => []
  | fuel + 1, n + 1, i =>
    if used.contains i then lowestFrames used fuel (n + 1) (i + 1) else i :: lowestFrames used fuel n (i + 1)

/-- The first page from `q` for `n` pages for which `p` holds. -/
def firstPage (p : Nat → Bool) : Nat → Nat → Option Nat
  | 0, _ => none
  | n + 1, q => if p q then some q else firstPage p n (q + 1)

/-- The page that an alias of a page resolves to (R29). -/
def resolveAlias (slot page : Nat) (c : Chan) : PageKind :=
  match tget? c.pages page with
  | some { kind := .aliasOf t q, readOnly := _ } => .aliasOf t q
  | _ => .aliasOf slot page

/-- Pages mapped from page `q`, with the kind of the i-th given. -/
def mapPages (slot q : Nat) (ro : Bool) (kinds : List PageKind) (s : State) : State :=
  modChan slot (fun c => { c with pages :=
    (kinds.zipIdx.foldl (fun t k => tset t (q + k.2) { kind := k.1, readOnly := ro }) c.pages) }) s

/-- Whether the page range of a MAP_MEMORY or UNMAP breaks its field rules (R31, Table 02-9). -/
def badRange (va pages : Nat) : Bool :=
  pages == 0 || va % pageBytes != 0 || decide (2 ^ 48 < va + pages * pageBytes)

/-- What refuses an alias before its pages are looked at (R31). -/
def badAlias (r : DescRec) (pages : Nat) (s : State) : Bool :=
  let h : W32 := r.desc.w6.setWidth 32
  h == r.desc.w2.setWidth 32 || handleStale h s || badRange (fieldNat r.desc.w7 0 48) pages
    || (match chanOf (handleSlot h) s with
        | some c => c.owner != r.port || handleClass h != c.cls
        | none => true)

/-- MAP_MEMORY as it starts, checked in the order of R31. -/
def startMap (r : DescRec) (s : State) : State :=
  match ownedChan (r.desc.w2.setWidth 32) r s with
  | none => finishGone r s
  | some (slot, c, ok) =>
    let va := fieldNat r.desc.w3 0 48
    let n := fieldNat r.desc.w4 0 27
    let kind := fieldNat r.desc.w4 32 3
    let ro := bitOf r.desc.w4 35
    let q := va / pageBytes
    let aslot := handleSlot (r.desc.w6.setWidth 32)
    let aq := fieldNat r.desc.w7 0 48 / pageBytes
    if !ok || badRange va n || decide (3 < kind) || (kind == 3 && badAlias r n s)
        || ((kind == 1 || kind == 2) && r.desc.w5.toNat % pageBytes != 0) then refuse r 0x0004 0 s
    else match (if kind == 3 then firstPage (fun x => (locate aslot (x * pageBytes) s).isNone) n aq else none) with
      | some x => refuse r 0x0101 (x * pageBytes) s
      | none =>
        if (firstPage (fun x => (tget? c.pages x).isSome) n q).isSome then refuse r 0x0102 0 s
        else match kind with
          | 0 =>
            let used := s.memory.framesUsed
            if frameCapacity s.flash.variant < used.length + s.memory.privateFrames + n then refuseCap r 0 s
            else
              let fs := lowestFrames used (n + used.length) n 0
              done r 0 (mapPages slot q ro (fs.map .fast)
                (modMemory (fun m => { m with framesUsed := m.framesUsed ++ fs }) s))
          | 3 =>
            match chanOf aslot s with
            | none => refuse r 0x0004 0 s
            | some a => done r 0 (mapPages slot q ro ((List.range n).map fun i => resolveAlias aslot (aq + i) a) s)
          | k =>
            let p := if k == 1 then Port.A else Port.B
            done r 0 (mapPages slot q ro
              ((List.range n).map fun i => .slow p (r.desc.w5.toNat + i * pageBytes)) s)

/-- MAP_MEMORY (R31). -/
def execMapMemory (d : Desc) (s : State) : Out := .next (fetchWith 0x42 d noFetchEffect startMap s)

/-- The pages of an UNMAP taken out of the channel: their fast frames are freed, aliases of them go (R29), and the range
closes no longer. -/
def unmapPages (slot q n : Nat) (s : State) : State :=
  let inR (x : Nat) : Bool := decide (q ≤ x) && decide (x < q + n)
  let fs := match chanOf slot s with
    | some c => chanFrames { c with pages := c.pages.filter fun x => inR x.1 }
    | none => []
  let s := modChan slot (fun c => { c with pages := c.pages.filter (fun x => !inR x.1), closing := c.closing.erase (q, n) }) s
  dropAliases slot inR (freeFrames fs s)

/-- UNMAP as it starts: checked, then done at once or held until no started descriptor names its pages (R31). -/
def startUnmap (r : DescRec) (s : State) : State :=
  match ownedChan (r.desc.w2.setWidth 32) r s with
  | none => finishGone r s
  | some (slot, c, ok) =>
    let va := fieldNat r.desc.w3 0 48
    let n := fieldNat r.desc.w4 0 27
    let q := va / pageBytes
    if !ok || badRange va n then refuse r 0x0004 0 s
    else match firstPage (fun x => (tget? c.pages x).isNone) n q with
      | some x => refuse r 0x0101 (x * pageBytes) s
      | none =>
        if pagesInUse r.id slot q n s then
          holdAs r .unmap (modChan slot (fun c => { c with closing := c.closing ++ [(q, n)] }) s)
        else done r 0 (unmapPages slot q n s)

/-- UNMAP (R31). -/
def execUnmap (d : Desc) (s : State) : Out := .next (fetchWith 0x43 d noFetchEffect startUnmap s)

/-- UNMAP_RELEASE (R31): no started descriptor names the pages any more. -/
def execUnmapRelease (id : Nat) (s : State) : Out :=
  .next <|
    match descOf id s with
    | none => s
    | some r =>
      let slot := handleSlot (r.desc.w2.setWidth 32)
      let q := fieldNat r.desc.w3 0 48 / pageBytes
      let n := fieldNat r.desc.w4 0 27
      if r.hold == .unmap && !pagesInUse r.id slot q n s then done r 0 (unmapPages slot q n s) else s

end Sys2Proof.Machine
end

