-- ==== Sys2Proof/Machine/Engines.lean ====
section
/-!
DEFINITION. Machine/Engines.lean: the compression engines' contexts, queues, failure counters and fencing (R272, R273, R289,
R291, R293).
-/

namespace Sys2Proof.Machine

/-- Bytes of an engine's queue (R291). -/
def engineQueueBytes : Nat := 4194304

/-- The number of a stream: of a core's DMA, of a descriptor, of a pass's segments. -/
def dmaStream (c seq : Nat) : Nat := 4 * (192 * seq + c)
def descStream (id : Nat) : Nat := 4 * id + 1
def passStream (pass : Nat) : Nat := 4 * pass + 2

/-- The memory-path engines of a compute die (R272). -/
def dieEngines (die : Nat) : List Nat := [4 * die, 4 * die + 1, 4 * die + 2, 4 * die + 3]

/-- The load of an engine: its streams. -/
def engineLoad (e : Nat) (s : State) : Nat := (engineOf e s).open'.length + (engineOf e s).waiting.length

/-- The least loaded of engines not fenced, the lowest number first (R272). -/
def leastLoaded (es : List Nat) (s : State) : Option Nat :=
  match es.filter fun e => !(engineOf e s).fenced with
  | [] => none
  | e :: r => some (r.foldl (fun b x => if engineLoad x s < engineLoad b s then x else b) e)

/-- A stream given to an engine: it opens when one of 64 contexts is free, else waits (R273). -/
def openStream (e id : Nat) (s : State) : State :=
  modEngine e (fun x => if x.open'.length < 64 && x.waiting.isEmpty then { x with open' := x.open' ++ [id] }
    else { x with waiting := x.waiting ++ [id] }) s

/-- Bytes that a stream brings to its engine's queue: held with its producer when they do not fit (R291). A stream of more
than a queue holds passes through it piece by piece. -/
def queueBytes (e id n : Nat) (s : State) : State :=
  modEngine e (fun x =>
    let n := min n engineQueueBytes
    if x.heldBytes.isEmpty && decide (x.queue + n ≤ engineQueueBytes) then { x with queue := x.queue + n }
    else { x with heldBytes := x.heldBytes ++ [(id, n)] }) s

/-- Whether a stream has a context and its producer is not held. -/
def streamFree (e id : Nat) (s : State) : Bool :=
  (engineOf e s).open'.contains id && !((engineOf e s).heldBytes.any fun h => h.1 == id)

/-- The end of a stream: its context and its queue bytes are free, and its bytes are counted (R292). -/
def closeStream (e id n raw stored : Nat) (s : State) : State :=
  modEngine e (fun x => { x with
    open' := x.open'.filter fun i => i != id, waiting := x.waiting.filter fun i => i != id
    heldBytes := x.heldBytes.filter fun h => h.1 != id
    queue := x.queue - min n engineQueueBytes, raw := x.raw + raw, stored := x.stored + stored
    steps := x.steps + ceilDiv raw 64 }) s

/-- A decoder's rejection of an item (R289): the engine's counter of its class, the card, the event and the flag. The last
row of Table 11-6 is row 9 whichever class it falls in. -/
def rejectItem (e row kind : Nat) (s : State) : State :=
  raiseDev 14 (raiseEvent 0x38 [e, min row 9, kind] (modEngine e (fun x =>
    { x with failures := vmod x.failures (failClass row) (· + 1) }) s))

/-- STREAM_CONTEXT_GRANTED (R273): a stream that waits receives a free context. -/
def execStreamContextGranted (engine : Fin 28) (s : State) : Out :=
  .next (modEngine engine (fun x =>
    match x.waiting with
    | i :: r => if x.open'.length < 64 && !x.fenced then { x with open' := x.open' ++ [i], waiting := r } else x
    | [] => x) s)

/-- ENGINE_QUEUE_RELEASE (R291): a producer held by a full queue resumes once its bytes fit. -/
def execEngineQueueRelease (engine : Fin 28) (s : State) : Out :=
  .next (modEngine engine (fun x =>
    match x.heldBytes with
    | h :: r => if x.queue + h.2 ≤ engineQueueBytes then { x with heldBytes := r, queue := x.queue + h.2 } else x
    | [] => x) s)

/-- The streams of a fenced engine given to another: memory streams to the least loaded memory-path engine, wire streams
to another wire-path engine of the same I/O die (R293). -/
def moveStream (src id : Nat) (s : State) : State :=
  let pool := if src < 16 then List.range 16 else if src < 22 then [16, 17, 18, 19, 20, 21] else [22, 23, 24, 25, 26, 27]
  match leastLoaded pool s with
  | none => s
  | some e =>
    let s := openStream e id s
    let re (o : DmaOp) (c : Nat) : DmaOp :=
      if o.engine == some src && dmaStream c o.seq == id then { o with engine := some e } else o
    { s with
      cores := s.cores.map fun k => (k.1, { k.2 with dmas := k.2.dmas.map fun o => re o k.1 })
      passes := mapIf (fun p => p.engine == some src && passStream p.id == id) (fun p => { p with engine := some e }) s.passes }

/-- ENGINE_FENCE (R293): an engine is fenced, and its streams are reassigned or rerun elsewhere. -/
def execEngineFence (engine : Fin 28) (s : State) : Out :=
  .next <|
    let x := engineOf engine s
    if x.fenced then s
    else
      let t := modEngine engine (fun x => { x with fenced := true, open' := [], waiting := [], queue := 0, heldBytes := [] }) s
      (x.open' ++ x.waiting).foldl (fun s i => moveStream engine i s) t

end Sys2Proof.Machine
end

