-- ==== Sys2Proof/Machine/Scalar.lean ====
section
/-!
DEFINITION. Machine/Scalar.lean: the scalar, branch, address, special-register and scratch instructions (R139, R143,
R144), and HALT (R159).
-/

namespace Sys2Proof.Machine

/-! ## SALU and SCMP -/

/-- Operand b of SALU and SCMP: IMM36 when I is 1, else SB (Table 06-4). -/
def operandB (w : Word) (q : Seq) : Word := if fld w 27 1 == 1 then sfld w 28 36 else sreg q (fld w 22 5)

/-- A scalar operation on SA and operand b into SD. -/
def scalarOp (p : Place) (w : Word) (f : Word → Word → Word) (s : State) : State :=
  stepSeq p (fun q => setS (fld w 12 5) (f (sreg q (fld w 17 5)) (operandB w q)) q) s

/-- A truth value as SCMP writes it. -/
def truth (b : Bool) : Word := if b then 1 else 0

/-- The high 64 bits of the unsigned product. -/
def mulHigh (a b : Word) : Word := BitVec.ofNat 64 (a.toNat * b.toNat / 2 ^ 64)

/-- Unsigned division: all ones by zero (R143). -/
def divu (a b : Word) : Word := if b == 0 then BitVec.allOnes 64 else BitVec.ofNat 64 (a.toNat / b.toNat)

/-- Unsigned remainder: the dividend by zero (R143). -/
def remu (a b : Word) : Word := if b == 0 then a else BitVec.ofNat 64 (a.toNat % b.toNat)

/-- SALU ADD: SD = the sum (R143). -/
def execSaluAdd (p : Place) (w : Word) (s : State) : Out :=
  instr p w 0x01 0x00 (scalarOp p w fun a b => a + b) s

/-- SALU SUB: SD = the difference (R143). -/
def execSaluSub (p : Place) (w : Word) (s : State) : Out :=
  instr p w 0x01 0x01 (scalarOp p w fun a b => a - b) s

/-- SALU MUL: SD = the low 64 bits of the product (R143). -/
def execSaluMul (p : Place) (w : Word) (s : State) : Out :=
  instr p w 0x01 0x02 (scalarOp p w fun a b => a * b) s

/-- SALU MULHU: SD = the high 64 bits of the unsigned product (R143). -/
def execSaluMulhu (p : Place) (w : Word) (s : State) : Out :=
  instr p w 0x01 0x03 (scalarOp p w fun a b => mulHigh a b) s

/-- SALU DIVU: SD = the unsigned quotient (R143). -/
def execSaluDivu (p : Place) (w : Word) (s : State) : Out :=
  instr p w 0x01 0x04 (scalarOp p w fun a b => divu a b) s

/-- SALU REMU: SD = the unsigned remainder (R143). -/
def execSaluRemu (p : Place) (w : Word) (s : State) : Out :=
  instr p w 0x01 0x05 (scalarOp p w fun a b => remu a b) s

/-- SALU AND: SD = the bitwise AND (R143). -/
def execSaluAnd (p : Place) (w : Word) (s : State) : Out :=
  instr p w 0x01 0x06 (scalarOp p w fun a b => a &&& b) s

/-- SALU OR: SD = the bitwise OR (R143). -/
def execSaluOr (p : Place) (w : Word) (s : State) : Out :=
  instr p w 0x01 0x07 (scalarOp p w fun a b => a ||| b) s

/-- SALU XOR: SD = the bitwise XOR (R143). -/
def execSaluXor (p : Place) (w : Word) (s : State) : Out :=
  instr p w 0x01 0x08 (scalarOp p w fun a b => a ^^^ b) s

/-- SALU SHL: SD = the left shift, count mod 64 (R143). -/
def execSaluShl (p : Place) (w : Word) (s : State) : Out :=
  instr p w 0x01 0x09 (scalarOp p w fun a b => a <<< (b.toNat % 64)) s

/-- SALU SHR: SD = the logical right shift, count mod 64 (R143). -/
def execSaluShr (p : Place) (w : Word) (s : State) : Out :=
  instr p w 0x01 0x0A (scalarOp p w fun a b => a >>> (b.toNat % 64)) s

/-- SALU SRA: SD = the arithmetic right shift, count mod 64 (R143). -/
def execSaluSra (p : Place) (w : Word) (s : State) : Out :=
  instr p w 0x01 0x0B (scalarOp p w fun a b => a.sshiftRight (b.toNat % 64)) s

/-- SALU MIN: SD = the signed minimum (R143). -/
def execSaluMin (p : Place) (w : Word) (s : State) : Out :=
  instr p w 0x01 0x0C (scalarOp p w fun a b => if a.slt b then a else b) s

/-- SALU MAX: SD = the signed maximum (R143). -/
def execSaluMax (p : Place) (w : Word) (s : State) : Out :=
  instr p w 0x01 0x0D (scalarOp p w fun a b => if a.slt b then b else a) s

/-- SALU MINU: SD = the unsigned minimum (R143). -/
def execSaluMinu (p : Place) (w : Word) (s : State) : Out :=
  instr p w 0x01 0x0E (scalarOp p w fun a b => if a.ult b then a else b) s

/-- SALU MAXU: SD = the unsigned maximum (R143). -/
def execSaluMaxu (p : Place) (w : Word) (s : State) : Out :=
  instr p w 0x01 0x0F (scalarOp p w fun a b => if a.ult b then b else a) s

/-- SCMP EQ: SD = 1 when true, else 0 (R143). -/
def execScmpEq (p : Place) (w : Word) (s : State) : Out :=
  instr p w 0x02 0x00 (scalarOp p w fun a b => truth (a == b)) s

/-- SCMP NE: SD = 1 when true, else 0 (R143). -/
def execScmpNe (p : Place) (w : Word) (s : State) : Out :=
  instr p w 0x02 0x01 (scalarOp p w fun a b => truth (a != b)) s

/-- SCMP LT: SD = 1 when true, else 0 (R143). -/
def execScmpLt (p : Place) (w : Word) (s : State) : Out :=
  instr p w 0x02 0x02 (scalarOp p w fun a b => truth (a.slt b)) s

/-- SCMP LTU: SD = 1 when true, else 0 (R143). -/
def execScmpLtu (p : Place) (w : Word) (s : State) : Out :=
  instr p w 0x02 0x03 (scalarOp p w fun a b => truth (a.ult b)) s

/-- SCMP GE: SD = 1 when true, else 0 (R143). -/
def execScmpGe (p : Place) (w : Word) (s : State) : Out :=
  instr p w 0x02 0x04 (scalarOp p w fun a b => truth (!a.slt b)) s

/-- SCMP GEU: SD = 1 when true, else 0 (R143). -/
def execScmpGeu (p : Place) (w : Word) (s : State) : Out :=
  instr p w 0x02 0x05 (scalarOp p w fun a b => truth (!a.ult b)) s

/-! ## SLI -/

/-- LI: SD = IMM46, sign-extended (R143). -/
def execLi (p : Place) (w : Word) (s : State) : Out :=
  instr p w 0x03 0x00 (stepSeq p fun q => setS (fld w 12 5) (sfld w 18 46) q) s

/-- LIH: SD[63:46] = IMM46[17:0], the other bits kept (R143). -/
def execLih (p : Place) (w : Word) (s : State) : Out :=
  instr p w 0x03 0x01 (stepSeq p fun q =>
    setS (fld w 12 5) (BitVec.ofNat 64 ((sreg q (fld w 12 5)).toNat % 2 ^ 46 + fld w 18 18 * 2 ^ 46)) q) s

/-! ## BR and FLOW -/

/-- A conditional branch by OFF32 (R139, R143). -/
def branchIf (p : Place) (w : Word) (taken : Bool) (s : State) : State :=
  if taken then branchTo p (sfld w 32 32) s else advance p s

/-- BEQZ on SA (R139). -/
def execBeqz (p : Place) (w : Word) (s : State) : Out :=
  instr p w 0x04 0x00 (fun s => let x := sreg (seqOf p s) (fld w 12 5); branchIf p w (x == 0) s) s

/-- BNEZ on SA (R139). -/
def execBnez (p : Place) (w : Word) (s : State) : Out :=
  instr p w 0x04 0x01 (fun s => let x := sreg (seqOf p s) (fld w 12 5); branchIf p w (x != 0) s) s

/-- BLTZ on SA (R139). -/
def execBltz (p : Place) (w : Word) (s : State) : Out :=
  instr p w 0x04 0x02 (fun s => let x := sreg (seqOf p s) (fld w 12 5); branchIf p w (x.msb) s) s

/-- BGEZ on SA (R139). -/
def execBgez (p : Place) (w : Word) (s : State) : Out :=
  instr p w 0x04 0x03 (fun s => let x := sreg (seqOf p s) (fld w 12 5); branchIf p w (!x.msb) s) s

/-- BTOK: taken when token SA[3:0] is ready (R143). -/
def execBtok (p : Place) (w : Word) (s : State) : Out :=
  instr p w 0x04 0x04 (fun s => branchIf p w (tokReady (seqOf p s) (tokField (fld w 12 4))) s) s

/-- NOP (R143). -/
def execNop (p : Place) (w : Word) (s : State) : Out := instr p w 0x05 0x00 (advance p) s

/-- JMP by OFF32 (R139). -/
def execJmp (p : Place) (w : Word) (s : State) : Out := instr p w 0x05 0x01 (branchTo p (sfld w 32 32)) s

/-- CALL: SD = the word index of the next instruction, then the jump (R143). -/
def execCall (p : Place) (w : Word) (s : State) : Out :=
  instr p w 0x05 0x02 (fun s =>
    branchTo p (sfld w 32 32)
      (modSeq p (fun q => setS (fld w 12 5) (BitVec.ofNat 64 (q.pc + 1)) q) s)) s

/-- JR: a jump to the word index in SA (R139). -/
def execJr (p : Place) (w : Word) (s : State) : Out :=
  instr p w 0x05 0x03 (fun s => goTo p (sreg (seqOf p s) (fld w 12 5)).toNat s) s

/-! ## WAITEV and BAR that can never be satisfied (R152) -/

/-- Whether every other core of a run has halted. -/
def othersHalted (u : Run) (c : Nat) (s : State) : Bool :=
  u.cores.all fun x => x == c || (coreOf x s).halted

/-- Whether two cores of a run share a barrier's scope: SCOPE 1 is the whole run, SCOPE 0 the form. -/
def inScope (scope : Bool) (c d : Nat) (s : State) : Bool := scope || formOf c s == formOf d s

/-- Whether a core of the run waits on a WAITEV or BAR that can never be satisfied. -/
def hopelessWait (u : Run) (c : Nat) (s : State) : Bool :=
  let k := coreOf c s
  (match k.waitEv with
   | some (e, n) => othersHalted u c s && k.signals.isEmpty && decide ((vget k.event e 0).toNat < n.toNat)
   | none => false) ||
  (match k.waitBar with
   | some (scope, _) => u.cores.any fun d => d != c && inScope scope c d s && (coreOf d s).halted
   | none => false)

/-- A run in which a core waits for what cannot happen stops at that core's WAITEV or BAR (R141, R152). -/
def settleWaits (r : Nat) (s : State) : State :=
  match runOf r s with
  | none => s
  | some u =>
    match u.cores.find? fun c => hopelessWait u c s with
    | none => s
    | some c => stopCoreAt c 0x0004 (BitVec.ofNat 64 ((coreOf c s).seq.pc - 1)) s

/-- After a change that may end a halting core's lesson: the core settles, and so do its run's waits. A HALT that waits for a
FILL behind a pass that can never start stops (R109). -/
def settleCore (c : Nat) (s : State) : State :=
  if (coreOf c s).halting && fillStuck (coreOf c s) then stopCore c 0x0004 s else
  let t := modCore c settleHalt s
  match (coreOf c t).run with
  | some r => if (coreOf c t).halted then settleWaits r t else t
  | none => t

/-- HALT: the lesson on a core ends once its asynchronous operations, TF tokens apart, have completed (R159). A timetable
or sweep lesson ends at once, and the next one counts its words and cycles afresh. -/
def execHalt (p : Place) (w : Word) (s : State) : Out :=
  instr p w 0x05 0x04 (fun s =>
    match p with
    | .core c => settleCore c (modCore c (fun k => { k with halting := true }) (endStall p (noteIssue p s)))
    | _ => modSeq p (fun q => { q with pc := 0, startTick := s.time.ticks }) s) s

/-! ## AGEN -/

/-- AMOV: AD = S[47:0] (R143). -/
def execAmov (p : Place) (w : Word) (s : State) : Out :=
  instr p w 0x06 0x00 (stepSeq p fun q => setA (fld w 12 4) (sreg q (fld w 20 5)).toNat q) s

/-- AADD: AD = AA + IMM32, mod 2^48 (R143). -/
def execAadd (p : Place) (w : Word) (s : State) : Out :=
  instr p w 0x06 0x01 (stepSeq p fun q => setA (fld w 12 4) (areg q (fld w 16 4) + (sfld w 32 32).toNat) q) s

/-- AADDS: AD = AA + (S << SH), mod 2^48 (R143). -/
def execAadds (p : Place) (w : Word) (s : State) : Out :=
  instr p w 0x06 0x02 (stepSeq p fun q =>
    setA (fld w 12 4) (areg q (fld w 16 4) + (sreg q (fld w 20 5)).toNat * 2 ^ fld w 25 3) q) s

/-- ARD: S = AA (R143). -/
def execArd (p : Place) (w : Word) (s : State) : Out :=
  instr p w 0x06 0x03 (stepSeq p fun q => setS (fld w 20 5) (BitVec.ofNat 64 (areg q (fld w 16 4))) q) s

/-! ## SPEC -/

/-- RDTIME: S = DTIME (R13, R143). -/
def execRdtime (p : Place) (w : Word) (s : State) : Out :=
  instr p w 0x07 0x00 (stepSeq p fun q => setS (fld w 12 5) (now s) q) s

/-- The run of a core and what RDID reads of it. -/
def rdidCore (c sel : Nat) (s : State) : Option Word :=
  let u := (coreOf c s).run.bind fun r => runOf r s
  match sel with
  | 0 => some (BitVec.ofNat 64 c)
  | 1 => some (BitVec.ofNat 64 (coreOf c s).index)
  | 2 => some (BitVec.ofNat 64 ((u.map fun u => u.cores.length).getD 0))
  | 3 => some ((u.bind fun u => u.step).getD (BitVec.allOnes 64))
  | 4 => some (((u.bind fun u => chanOf u.slot s).map fun c => c.handle.setWidth 64).getD 0)
  | _ => none

/-- RDID (R143): in a timetable or sweep lesson SEL 0 and 4 read zero, SEL 3 reads all ones, and SEL 1 and 2, for which
the spec gives no value there, read a free value. -/
def execRdid (p : Place) (w : Word) (s : State) : Out :=
  instr p w 0x07 0x01 (fun s =>
    let sel := fld w 17 3
    match p with
    | .core c =>
      (match rdidCore c sel s with
       | some v => stepSeq p (setS (fld w 12 5) v) s
       | none => stopCore c 0x0004 s)
    | _ =>
      if sel == 0 || sel == 4 then stepSeq p (setS (fld w 12 5) 0) s
      else if sel == 3 then stepSeq p (setS (fld w 12 5) (BitVec.allOnes 64)) s
      else drawFree 1 (stepSeq p (setS (fld w 12 5) (Config.freeWord s.free)) s)) s

/-- RDFLAG: S[6:0] = the stream flag word (R143). -/
def execRdflag (c : Fin 192) (w : Word) (s : State) : Out :=
  instr (.core c) w 0x07 0x02
    (stepSeq (.core c) (setS (fld w 12 5) ((coreOf c s).vec.streamFlags.setWidth 64))) s

/-- CLRFLAG: the stream-flag bits set in MASK7 fall; `coincident` are bits raised in the same cycle, which stay (R7,
R143). -/
def execClrflag (c : Fin 192) (w : Word) (coincident : BitVec 7) (s : State) : Out :=
  instr (.core c) w 0x07 0x03 (fun s =>
    advance (.core c) (modCore c (fun k =>
      { k with vec := clearStream (BitVec.ofNat 7 (fld w 20 7)) coincident k.vec }) s)) s

/-- SETSTREAM: STREAM takes S, and the lane generators are reseeded; instructions that draw wait for the reseed
(R144). -/
def execSetstream (c : Fin 192) (w : Word) (s : State) : Out :=
  instr (.core c) w 0x07 0x04 (fun s =>
    let v := sreg (coreOf c s).seq (fld w 12 5)
    advance (.core c) (modCore c (fun k => { k with vec := { k.vec with stream := v }, reseed := some v }) s)) s

/-- Cycles of a place's clock in `n` TCLK cycles (R10): ACLK 4, ICLK 6, MCLK 24/5. -/
def placeCycles (p : Place) (n : Nat) : Nat :=
  match p with
  | .core _ => 4 * n
  | .link _ => 6 * n
  | .mem _ => 24 * n / 5

/-- RDCYC: place-clock cycles since lesson start (R143). -/
def execRdcyc (p : Place) (w : Word) (s : State) : Out :=
  instr p w 0x07 0x05 (stepSeq p fun q =>
    setS (fld w 12 5) (BitVec.ofNat 64 (placeCycles p (s.time.ticks - q.startTick))) q) s

/-- The channel seed of a core's run. -/
def coreSeed (c : Nat) (s : State) : Word :=
  ((((coreOf c s).run.bind fun r => runOf r s).bind fun u => chanOf u.slot s).map fun c => c.seed).getD 0

/-- The 128 lane generators of a STREAM value (R74). -/
def seedLanes (seed stream : Word) : Vector Word 128 := Vector.ofFn fun l => genSeed seed (BitVec.ofNat 64 l.val) stream

/-- The reseed of a SETSTREAM completes, and held drawing instructions may issue (R144). -/
def execSetstreamReseedDone (c : Fin 192) (s : State) : Out :=
  match (coreOf c s).reseed with
  | none => .next s
  | some v =>
    let g := seedLanes (coreSeed c s) v
    .next (modCore c (fun k => { k with vec := { k.vec with gens := g }, reseed := none }) s)

/-! ## SMEM -/

/-- Bytes of local scratch of a place (Table 06-1). -/
def scratchBytes : Place → Nat
  | .core _ => 4194304
  | _ => 65536

/-- The scratch of a place. -/
def scratchOf (p : Place) (s : State) : List Host.Cell :=
  match p with
  | .core c => (coreOf c s).desk
  | q => (seqOf q s).scratch

/-- Bytes written to a place's scratch. -/
def scratchWrite (p : Place) (a : Nat) (bs : List Byte) (s : State) : State :=
  match p with
  | .core c => modCore c (fun k => { k with desk := memWrite k.desk a bs }) s
  | q => modSeq q (fun x => { x with scratch := memWrite x.scratch a bs }) s

/-- The scratch address AR + OFF32 and the bytes of SIZE; none when it is not naturally aligned, lies beyond the scratch,
or SIZE is above 3 (Table 06-3). -/
def smemAddr (p : Place) (w : Word) (s : State) : Option (Nat × Nat) :=
  let n := 2 ^ fld w 21 3
  let a := (areg (seqOf p s) (fld w 17 4) + (sfld w 32 32).toNat) % 2 ^ 48
  if fld w 21 3 ≤ 3 && a % n == 0 && decide (a + n ≤ scratchBytes p) then some (a, n) else none

/-- A value of `n` bytes extended to 64 bits. -/
def extendBytes (signed : Bool) (n v : Nat) : Word :=
  if signed && v / 2 ^ (8 * n - 1) % 2 == 1 then BitVec.ofNat 64 (2 ^ 64 - 2 ^ (8 * n) + v) else BitVec.ofNat 64 v

/-- SLD: S = bytes at AR + OFF32, zero- or sign-extended (R143). -/
def execSld (p : Place) (w : Word) (s : State) : Out :=
  instr p w 0x08 0x00 (fun s =>
    match smemAddr p w s with
    | none => stopPlace p 0x0004 s
    | some (a, n) =>
      stepSeq p (setS (fld w 12 5) (extendBytes (fld w 24 1 == 1) n (leNat (memRead (scratchOf p s) a n)))) s) s

/-- SST: the low bytes of S stored (R143). -/
def execSst (p : Place) (w : Word) (s : State) : Out :=
  instr p w 0x08 0x01 (fun s =>
    match smemAddr p w s with
    | none => stopPlace p 0x0004 s
    | some (a, n) => advance p (scratchWrite p a (leBytes n (sreg (seqOf p s) (fld w 12 5)).toNat) s)) s

end Sys2Proof.Machine
end

