-- ==== Sys2Proof/Machine/Desk.lean ====
section
/-!
DEFINITION. Machine/Desk.lean: what the tile, vector, memory-access and dispatch instructions share: Desk access with
operations in flight (R130, R146), fenced spans (R151, R186), conversions and lane draws (R65, R113), and the Tensor
Statistics Unit's counts (R200 to R202).
-/

namespace Sys2Proof.Machine

/-! ## The run and channel of a core -/

/-- The run that a core carries out. -/
def coreRun (c : Nat) (s : State) : Option Run := (coreOf c s).run.bind fun r => runOf r s

/-- The channel slot whose lesson a core runs. -/
def coreSlot (c : Nat) (s : State) : Nat := ((coreRun c s).map fun u => u.slot).getD 0

/-- The channel whose lesson a core runs. -/
def coreChan (c : Nat) (s : State) : Option Chan := (coreRun c s).bind fun u => chanOf u.slot s

/-- Whether a core's channel emulates the LYK-1216 (R104, R212, R213). -/
def coreLegacy (c : Nat) (s : State) : Bool := ((coreChan c s).map fun k => k.legacy).getD false

/-- The conversion rule of a core's channel with a rounding mode and an overflow field (R65). -/
def coreRule (c mode : Nat) (ovf : Bool) (s : State) : ConvRule :=
  match coreChan c s with
  | some k => (mode, k.srBits, ovf, k.fp16Ieee)
  | none => (mode, 8, ovf, false)

/-! ## Tokens and units (R137, R138) -/

/-- The next operation number of a core, and the token it names set busy. -/
def beginOp (t : Option (Fin 16)) (k : Core) : Core := { k with nseq := k.nseq + 1, seq := setTok t false k.seq }

/-- The end of an operation: its token is ready. -/
def endOp (t : Option (Fin 16)) (k : Core) : Core := { k with seq := setTok t true k.seq }

/-! ## The Desk (R130, R146) -/

/-- Bytes of a Desk. -/
def deskBytes : Nat := 4194304

/-- Whether a Desk span lies within the Desk (Table 06-3). -/
def deskSpan (a n : Nat) : Bool := decide (a + n ≤ deskBytes)

/-- What DMAs and NARROWs in flight will write to the Desk: address and bytes. -/
def pendingDesk (k : Core) : List (Nat × List Byte) :=
  (k.dmas.filterMap fun o => if o.toMem then none else o.data.map fun d => (o.desk, d)) ++
  (k.narrows.filter fun o => o.func == 0).flatMap fun o => o.items.map fun x => (x.2.1, x.2.2)

/-- The byte an operation in flight will write at a Desk address. -/
def pendingAt (ps : List (Nat × List Byte)) (a : Nat) : Option Byte :=
  ps.findSome? fun p => if p.1 ≤ a then p.2[a - p.1]? else none

/-- Whether two spans share a byte. -/
def spansMeet (a n b m : Nat) : Bool := decide (a < b + m) && decide (b < a + n)

/-- Whether an operation in flight writes into a span. -/
def pendingMeets (k : Core) (a n : Nat) : Bool := (pendingDesk k).any fun p => spansMeet a n p.1 p.2.length

/-- Desk bytes as an instruction finds them: a byte that an operation in flight writes is old or new, which of the two a
free value (R146). -/
def deskRead (k : Core) (free a n : Nat) : List Byte :=
  let ps := pendingDesk k
  (List.range n).map fun i =>
    match pendingAt ps (a + i) with
    | some b => if Config.freeBit (free + i) then b else memGet k.desk (a + i)
    | none => memGet k.desk (a + i)

/-- The free values a Desk access draws: none unless an operation in flight meets the span. -/
def deskDraw (c a n : Nat) (s : State) : State := if pendingMeets (coreOf c s) a n then drawFree deskBytes s else s

/-- The bytes that an operation in flight will leave once an instruction has written into its span: at each byte either
write may be the last (R146). -/
def raceBytes (free a : Nat) (bs : List Byte) (at' : Nat) (old : List Byte) : List Byte :=
  old.mapIdx fun i b =>
    if decide (a ≤ at' + i) && Config.freeBit (free + i) then (bs[at' + i - a]?).getD b else b

/-- Bytes that an instruction writes to the Desk. -/
def deskPut (free a : Nat) (bs : List Byte) (k : Core) : Core :=
  { k with
    desk := memWrite k.desk a bs
    dmas := k.dmas.map fun o => if o.toMem then o else { o with data := o.data.map (raceBytes free a bs o.desk) }
    narrows := k.narrows.map fun o => if o.func == 0 then
      { o with items := o.items.map fun x => (x.1, x.2.1, raceBytes free a bs x.2.1 x.2.2) } else o }

/-- Bytes that an instruction of a core writes to its Desk. -/
def deskWrite (c a : Nat) (bs : List Byte) (s : State) : State :=
  deskDraw c a bs.length (modCore c (deskPut s.free a bs) s)

/-! ## Fenced spans (R151, R182, R186) -/

/-- The span of a prediction: Desk address and bytes. -/
def predSpan (p : Prediction) : Nat × Nat := (p.desk, p.experts.length * p.expertBytes)

/-- Whether a span touches one that is fenced. -/
def fenceMeets (k : Core) (a n : Nat) : Bool :=
  k.preds.any fun p => p.fenced && spansMeet a n (predSpan p).1 (predSpan p).2

/-- Whether a span touches one fenced by a prediction that is neither confirmed nor squashed. -/
def openFenceMeets (k : Core) (a n : Nat) : Bool :=
  k.preds.any fun p => p.fenced && !p.resolved && spansMeet a n (predSpan p).1 (predSpan p).2

/-! ## Formats a core accepts (R54, R83, R111) -/

/-- The feeder formats (R83). -/
def feederFmt (f : Nat) : Bool := (decide (2 ≤ f) && decide (f ≤ 6)) || (decide (8 ≤ f) && decide (f ≤ 10))

/-- Whether OVF may be 1 for a target (R149). -/
def ovfAllowed (f : Nat) : Bool := f == 4 || f == 5 || f == 8 || f == 9

/-- Memory formats that LOAD reads: the arithmetic types and the memory formats (R111). -/
def loadFmt (f : Nat) : Bool := (decide (1 ≤ f) && decide (f ≤ 6)) || (decide (8 ≤ f) && decide (f ≤ 11))

/-- Memory formats that STORE writes: those of LOAD but the source-only ones (R54, R111). -/
def storeFmt (f : Nat) : Bool := loadFmt f && f != 6 && f != 10

/-- Targets that a DRAIN writes (R54, R64): every format but raw bytes and the source-only ones. -/
def drainFmt (f : Nat) : Bool := decide (1 ≤ f) && decide (f ≤ 12) && f != 6 && f != 10

/-! ## Lane generators (R73, R113) -/

/-- Every lane generator advanced once, with each lane's draw of `k` bits. -/
def drawLanes (k : Nat) (v : VecSt) : VecSt × List Nat :=
  let g := v.gens.map genStep
  ({ v with gens := g }, g.toList.map (genTop k))

/-- `n` draws of every lane in turn, row after row. -/
def drawRows (k : Nat) : Nat → VecSt → VecSt × List Nat
  | 0, v => (v, [])
  | n + 1, v =>
    let (v, r) := drawLanes k v
    let (v, rs) := drawRows k n v
    (v, r ++ rs)

/-! ## Statistics of tagged writes (R200 to R203) -/

/-- The magnitude of a finite value as FP32 bits, rounded toward +∞ (R200). -/
def magBits (x : Fp) : W32 :=
  match x with
  | .fin _ m e => BitVec.ofNat 32 (encodeFloat 0x01 2 0 0 true (.fin false m e)).1
  | _ => 0

/-- The counts of a list of elements as written, with the saturations of the write. -/
def countsOf (xs : List Fp) (sats : Nat) : Counts :=
  { elements := xs.length
    zeros := xs.countP isZeroFp
    nonFinite := xs.countP nonFiniteFp
    sats := sats
    maxMag := xs.foldl (fun m x => if nonFiniteFp x then m else if m.ult (magBits x) then magBits x else m) 0 }

/-- Counts added. -/
def addCounts (a b : Counts) : Counts :=
  { elements := a.elements + b.elements, zeros := a.zeros + b.zeros, nonFinite := a.nonFinite + b.nonFinite
    sats := a.sats + b.sats, maxMag := if a.maxMag.ult b.maxMag then b.maxMag else a.maxMag }

/-- Counts added under a tag of a list. -/
def addTagged (tag : Nat) (x : Counts) : List (Nat × Counts) → List (Nat × Counts)
  | [] => [(tag, x)]
  | (t, y) :: r => if t == tag then (t, addCounts y x) :: r else (t, y) :: addTagged tag x r

/-- The entry of a tag in a channel's tag table, as read at the last STEP_OPEN (R192, R203). -/
def tagEntry (c : Chan) (tag : Nat) : Word := tgetD c.tagTable tag 0

/-- A counted write of a core's run under a tag: its counts are held by the run, a set is given at the pair's first
counted write, and elements that find no set are added to TSU_FULL (R201, R202). A saturation under a GRAD tag is noted
for R195. -/
def countWrite (c tag : Nat) (x : Counts) (s : State) : State :=
  match coreRun c s with
  | none => s
  | some u =>
    let has := s.stats.any fun z => z.slot == u.slot && z.tag == tag
    let grad := match chanOf u.slot s with
      | some k => bitOf (tagEntry k tag) 0
      | none => false
    let s := if grad && x.sats != 0 then modRun u.id (fun r => { r with gradSat := true }) s else s
    if x.elements == 0 then s
    else if has || s.stats.length < 16384 then
      modRun u.id (fun r => { r with stats := addTagged tag x r.stats })
        (if has then s else { s with stats := s.stats ++ [{ slot := u.slot, tag := tag }] })
    else
      raiseEvent 0x15 [x.elements] (modChan u.slot (fun k => { k with tsuFull := k.tsuFull + x.elements }) s)

/-- The counts of a tensor just written in a format: nothing is counted for raw bytes (R200). -/
def countTensor (c : Nat) (tag : Option Nat) (fmt : Nat) (bs : List Byte) (fs : List (BitVec 7)) (s : State) : State :=
  match tag with
  | none => s
  | some t => if fmt == 0 then s
    else countWrite c t (countsOf (decodeTensor fmt bs) (fs.countP fun f => f.getLsbD 5)) s

end Sys2Proof.Machine
end

