-- ==== Sys2Proof/Machine/Tile.lean ====
section
/-!
DEFINITION. Machine/Tile.lean: the Tile Array (chapter 04, R148, R212, R213): FILL, SWAP, STREAM, DRAIN and the events of
their fills, passes and drains. Results are those of program order (R130, R214); the events carry what timing decides:
when an entry is reserved, visible and free, and when a token is ready.
-/

namespace Sys2Proof.Machine

/-! ## Weight banks (R82, R99 to R101) -/

/-- A bank of a core. -/
def bankOf (b : Bool) (t : TileSt) : Bank := if b then t.bank1 else t.bank0

/-- A bank of a core set. -/
def setBank (b : Bool) (x : Bank) (t : TileSt) : TileSt := if b then { t with bank1 := x } else { t with bank0 := x }

/-- The non-finite mask of a bank's blocks (R101). -/
def nonFiniteMask (bs : List (Option WBlock)) : BitVec 64 :=
  BitVec.ofNat 64 (sumNat (bs.zipIdx.map fun p => match p.1 with
    | some b => if b.elems.any nonFiniteFp then 2 ^ p.2 else 0
    | none => 0))

/-- A bank of blocks. -/
def mkBank (p : Nat) (bs : List (Option WBlock)) : Bank := { p := p, blocks := bs, nonFinite := nonFiniteMask bs }

/-- The elements of block (rb, cb) of a dense 128 × 128 tile (R99). -/
def tileBlock (xs : Array Fp) (rb cb : Nat) : List Fp :=
  (List.range 256).map fun i => xs.getD ((16 * rb + i / 16) * 128 + 16 * cb + i % 16) (.fin false 0 0)

/-- A bank filled dense: a pack with P = 1 whose every block is present (R99). -/
def denseBank (fmt : Nat) (bs : List Byte) : Bank :=
  let xs := (decodeTensor fmt bs).toArray
  mkBank 1 ((List.range 64).map fun i => some { sel := i / 8, elems := tileBlock xs (i / 8) (i % 8) })

/-- The present blocks of occupancy masks as (logical K-block, block column), by K-tile, block row, block column
(R100). -/
def presentBlocks (masks : List Nat) : List (Nat × Nat) :=
  masks.zipIdx.flatMap fun m => ((List.range 64).filter fun i => m.1.testBit i).map fun i => (8 * m.2 + i / 8, i % 8)

/-- Whether some block column holds more than eight present blocks (R100). -/
def columnOverfull (present : List (Nat × Nat)) : Bool :=
  (List.range 8).any fun cb => decide (8 < present.countP fun b => b.2 == cb)

/-- A packed bank: physical row r of a column holds the column's r-th present block (R100). -/
def packedBank (p fmt : Nat) (present : List (Nat × Nat)) (bs : List Byte) : Bank :=
  let elems := (chunks (tensorBytes fmt 256) bs).map (decodeTensor fmt)
  let bl := List.zipWith (fun b es => (b.2, WBlock.mk b.1 es)) present elems
  mkBank p ((List.range 64).map fun i => ((bl.filter fun b => b.1 == i % 8)[i / 8]?).map Prod.snd)

/-! ## FILL and SWAP (R85, R89, R90, R100, R104, R148) -/

/-- Operations of the tile unit not yet complete (R137). -/
def tileOps (t : TileSt) : Nat := t.fills.length + t.drains.length

/-- Whether a busy token is that of a FILL that stands behind a pass which can never start (R109). -/
def tokenStuck (k : Core) (t : Option (Fin 16)) : Bool :=
  fillStuck k && t.isSome && k.tile.fills.any fun f => f.tok == t &&
    f.behind.any fun q => k.tile.entries.any fun e => e.seq == q && e.st == .waiting

/-- A core held at issue on a busy token: it stops where the token stands behind a pass that can never start (R109,
R138). -/
def holdToken (c : Fin 192) (t : Option (Fin 16)) (s : State) : State :=
  if tokenStuck (coreOf c s) t then stopCore c 0x0004 s else holdIssue (.core c) 0x01 s

/-- An instruction of a core with a token field: a reserved value stops the lesson, a busy token holds it (R138). -/
def withCoreTok (c : Fin 192) (n : Nat) (body : Option (Fin 16) → State → State) (s : State) : State :=
  if tokReserved n then stopCore c 0x0004 s
  else if !tokReady (coreOf c s).seq (tokField n) then holdToken c (tokField n) s
  else body (tokField n) s

/-- The bytes a FILL reads and the bank they give, or none when a column is overfull; the masks are read first. -/
def fillBank (k : Core) (free a fmt pack : Nat) : Option (Nat × Bank) :=
  if pack == 0 then
    let n := tensorBytes fmt 16384
    some (n, denseBank fmt (deskRead k free a n))
  else
    let present := presentBlocks ((chunks 8 (deskRead k free a (8 * pack))).map leNat)
    let n := 8 * pack + present.length * tensorBytes fmt 256
    if columnOverfull present then none
    else some (n, packedBank pack fmt present ((deskRead k free a n).drop (8 * pack)))

/-- The bytes that a FILL reads from the Desk. -/
def fillBytes (k : Core) (a fmt pack : Nat) : Nat :=
  if pack == 0 then tensorBytes fmt 16384
  else 8 * pack + (presentBlocks ((chunks 8 (memRead k.desk a (8 * pack))).map leNat)).length * tensorBytes fmt 256

/-- A FILL issued into the staging bank. -/
def beginFill (tok : Option (Fin 16)) (b : Bank) (k : Core) : Core :=
  let bank := !k.tile.active1
  let behind := (k.tile.entries.filter fun e => e.st == .waiting && (if bank then e.used1 else e.used0)).map fun e => e.seq
  let t := setBank bank b k.tile
  beginOp tok { k with tile := { t with fills := t.fills ++ [{ seq := k.nseq, bank := bank, tok := tok, behind := behind }] } }

/-- The body of FILL. -/
def fillBody (c : Fin 192) (w : Word) (s : State) : State :=
  let k := coreOf c s
  let fmt := fld w 16 4
  let pack := fld w 20 4
  let a := areg k.seq (fld w 12 4)
  let legacy := coreLegacy c s
  if !feederFmt fmt || decide (8 < pack) || (legacy && (decide (1 < pack) || (fmt != 2 && fmt != 3)))
      || tokReserved (fld w 24 5) then stopCore c 0x0004 s
  else
    let tok := tokField (fld w 24 5)
    if !tokReady k.seq tok then holdToken c tok s
    else if 4 ≤ tileOps k.tile then (if tileStuck k.tile then stopCore c 0x0004 s else holdIssue (.core c) 0x01 s)
    else if !deskSpan a (max (8 * pack) (fillBytes k a fmt pack)) then stopCore c 0x0004 s
    else if fenceMeets k a (fillBytes k a fmt pack) then holdIssue (.core c) 0x05 s
    else match fillBank k s.free a fmt pack with
      | none => stopCore c 0x0004 (deskDraw c a (8 * pack) s)
      | some (n, b) =>
        if !deskSpan a n then stopCore c 0x0004 (deskDraw c a n s)
        else advance (.core c) (deskDraw c a n (modCore c (beginFill tok b) s))

/-- FILL (R85, R100, R148). -/
def execFill (c : Fin 192) (w : Word) (s : State) : Out := instr (.core c) w 0x18 0x00 (fillBody c w) s

/-- FILL_COMPLETE (R148): the oldest FILL of a bank writes its last row and its token becomes ready. -/
def execFillComplete (c : Fin 192) (bank : Bool) (s : State) : Out :=
  .next <|
    let t := (coreOf c s).tile
    match t.fills.find? fun f => f.bank == bank with
    | none => s
    | some f =>
      if f.behind.any fun q => t.entries.any fun e => e.seq == q && e.st == .waiting then s
      else settleCore c (modCore c (fun k => endOp f.tok
        { k with tile := { k.tile with fills := k.tile.fills.filter fun x => x.seq != f.seq } }) s)

/-- SWAP (R85): the banks exchange roles for every slot issued after it. -/
def execSwap (c : Fin 192) (w : Word) (s : State) : Out :=
  instr (.core c) w 0x18 0x01 (fun s =>
    advance (.core c) (modCore c (fun k => { k with tile := { k.tile with active1 := !k.tile.active1 } }) s)) s

/-! ## One pass (R81, R95, R98, R102, R212) -/

/-- The streamed and stationary elements that meet in one cell column, with the cells of an absent block empty, in
ascending cell row (R95). -/
def columnCells (b : Bank) (row : Array Fp) (n : Nat) : List (List (Fp × Fp)) :=
  (List.range 8).map fun r =>
    match (b.blocks[8 * r + n / 16]?).join with
    | none => []
    | some blk => (List.range 16).map fun i =>
        (row.getD (16 * blk.sel + i) (.fin false 0 0), blk.elems.getD (16 * i + n % 16) (.fin false 0 0))

/-- A column's sum: each product added in turn, each addition rounded (R95). -/
def columnSum (acc : W32) (cells : List (Fp × Fp)) : W32 × BitVec 7 :=
  cells.foldl (fun x p => let y := tileMac x.1 p.1 p.2; (y.1, x.2 ||| y.2)) (acc, 0)

/-- Four products and the partial sum added exactly, then rounded toward zero (R212). -/
def legacyGroup (acc : W32) (g : List (Fp × Fp)) : W32 × BitVec 7 :=
  let t := g.foldl (fun x p =>
    let m := mulExact p.1 p.2
    let a := addExact x.1 m.1
    (a.1, x.2 || m.2 || a.2)) (decodeFloat 0x01 acc.toNat, false)
  let r := encodeFloat 0x01 1 0 0 true t.1
  (BitVec.ofNat 32 (if r.1 == 2 ^ 31 then 0 else r.1), if t.2 then r.2 ||| flagINV else r.2)

/-- A column's sum on a LEGACY_1216 channel: an absent block's positions count within their groups (R212). -/
def legacyColumn (acc : W32) (blocks : List (List (Fp × Fp))) : W32 × BitVec 7 :=
  let groups := blocks.flatMap fun b => if b.isEmpty then List.replicate 4 [] else chunks 4 b
  groups.foldl (fun x g => let y := legacyGroup x.1 g; (y.1, x.2 ||| y.2)) (acc, 0)

/-- One output row of a pass, from the accumulator's row. -/
def passRow (legacy : Bool) (b : Bank) (row : Array Fp) (acc : List W32) : List W32 × BitVec 7 :=
  let outs := acc.zipIdx.map fun x =>
    let cells := columnCells b row x.2
    if legacy then legacyColumn x.1 cells else columnSum x.1 cells.flatten
  (outs.map Prod.fst, orFlags (outs.map Prod.snd))

/-- The logical K-blocks that the selectors of a bank name. -/
def bankSelectors (b : Bank) : List Nat := (b.blocks.filterMap fun x => x.map fun y => y.sel).eraseDups

/-- Whether a streamed group of rows is skipped (R102). -/
def groupSkipped (b : Bank) (rows : List (Array Fp)) : Bool :=
  b.nonFinite == 0 &&
  rows.all fun r => (bankSelectors b).all fun k => (List.range 16).all fun i => isZeroFp (r.getD (16 * k + i) (.fin false 0 0))

/-- The rows of an accumulator after a pass: `valid` rows count, the others are issued as invalid slots (R98); skipped
groups keep their rows (R102). -/
def passRows (legacy : Bool) (b : Bank) (valid : Nat) (rows : List (Array Fp)) (data : List (List W32)) :
    List (List W32) × BitVec 7 :=
  let skips := (chunks 16 rows).map fun g => !legacy && groupSkipped b g
  let outs := data.zipIdx.map fun x =>
    match rows[x.2]? with
    | none => (x.1, (0 : BitVec 7))
    | some r => if x.2 < valid && !skips.getD (x.2 / 16) false then passRow legacy b r x.1 else (x.1, 0)
  (outs.map Prod.fst, orFlags (outs.map Prod.snd))

/-! ## STREAM (R85, R94 to R98, R148, R474) -/

/-- A new accumulator's rows: +0 (R95). -/
def zeroRows (n : Nat) : List (List W32) := List.replicate n (List.replicate 128 0)

/-- The core as the operation that holds a token will leave its Desk: what a STREAM that chases it reads (R474). -/
def chased (t : Option (Fin 16)) (k : Core) : Core :=
  match t with
  | none => k
  | some _ =>
    let mine := (k.dmas.filterMap fun o => if !o.toMem && o.tok == t then o.data.map fun d => (o.desk, d) else none) ++
      (k.narrows.filter fun o => o.func == 0 && o.tok == t).flatMap fun o => o.items.map fun x => (x.2.1, x.2.2)
    { k with desk := mine.foldl (fun d x => memWrite d x.1 x.2) k.desk
             dmas := k.dmas.filter fun o => o.toMem || o.tok != t
             narrows := k.narrows.filter fun o => o.func != 0 || o.tok != t }

/-- Whether the operation that holds a token is itself held by a fence and has no data yet. -/
def chaseHeld (t : Option (Fin 16)) (k : Core) : Bool :=
  t.isSome && ((k.dmas.any fun o => o.tok == t && o.data.isNone) || k.narrows.any fun o => o.tok == t && o.late)

/-- An entry after a pass. -/
def passInto (k : Core) (legacy : Bool) (rows : List (Array Fp)) (close : Bool) (trow tcol : BitVec 16) (e : Entry) : Entry :=
  let bank := k.tile.active1
  let r := passRows legacy (bankOf bank k.tile) e.rows rows e.data
  { e with
    data := r.1, flags := e.flags ||| r.2, trow := trow, tcol := tcol, open' := !close
    used0 := e.used0 || !bank, used1 := e.used1 || bank, bank := bank
    closeSeq := if close then k.nseq else e.closeSeq }

/-- A new entry, or a waiting accumulator when all eight are held or an earlier pass waits (R94). -/
def openEntry (k : Core) (t : Word) (acc rows : Nat) : Entry :=
  let wait := decide (8 ≤ heldEntries k.tile) || k.tile.entries.any fun e => e.st == .waiting
  { seq := k.nseq, acc := acc, rows := rows, data := zeroRows rows, flags := 0, trow := 0, tcol := 0
    st := if wait then .waiting else .reserved, open' := true, used0 := false, used1 := false, bank := false, next := 0
    since := t }

/-- A pass issued into a core's accumulator. -/
def issuePass (t : Word) (legacy : Bool) (acc nrows : Nat) (chain close : Bool) (trow tcol : BitVec 16)
    (rows : List (Array Fp)) (k : Core) : Core :=
  let f := passInto k legacy rows close trow tcol
  let es := if chain then mapIf (fun e => e.acc == acc && e.open') f k.tile.entries
    else k.tile.entries ++ [f (openEntry k t acc nrows)]
  { k with nseq := k.nseq + 1, tile := { k.tile with entries := es } }

/-- The body of STREAM. -/
def streamBody (c : Fin 192) (w : Word) (s : State) : State :=
  let k := coreOf c s
  let fmt := fld w 16 4
  let n := fld w 20 7 + 1
  let acc := fld w 27 3
  let chain := fld w 30 1 == 1
  let close := fld w 31 1 == 1
  let a := areg k.seq (fld w 12 4)
  let sc := sreg k.seq (fld w 37 5)
  let legacy := coreLegacy c s
  let width := 128 * (bankOf k.tile.active1 k.tile).p
  let bytes := tensorBytes fmt (n * width)
  if !feederFmt fmt || (legacy && fmt != 2 && fmt != 3) || tokReserved (fld w 32 5)
      || (k.tile.entries.any fun e => e.acc == acc && e.open') != chain || !deskSpan a bytes then stopCore c 0x0004 s
  else
    let tok := tokField (fld w 32 5)
    let tok := if tokReady k.seq tok then none else tok
    if fenceMeets k a bytes || chaseHeld tok k then holdIssue (.core c) 0x05 s
    else
      let src := chased tok k
      let rows := (chunks width (decodeTensor fmt (deskRead src s.free a bytes))).map List.toArray
      let s := if pendingMeets src a bytes then drawFree deskBytes s else s
      advance (.core c)
        (modCore c (issuePass (mono s) legacy acc n chain close (sc.extractLsb' 0 16) (sc.extractLsb' 16 16) rows) s)

/-- STREAM (R85, R95, R148). -/
def execStream (c : Fin 192) (w : Word) (s : State) : Out := instr (.core c) w 0x18 0x02 (streamBody c w) s

/-- PASS_START (R94): the oldest waiting pass reserves a freed entry. -/
def execPassStart (c : Fin 192) (s : State) : Out :=
  .next <|
    let t := (coreOf c s).tile
    match t.entries.find? fun e => e.st == .waiting with
    | none => s
    | some e =>
      if 8 ≤ heldEntries t then s
      else settleCore c (addStall 0x02 (nsSince e.since (mono s)) (modCore c (fun k => { k with tile := { k.tile with
        entries := mapIf (fun x => x.seq == e.seq) (fun x => { x with st := .reserved }) k.tile.entries } }) s))

/-- Of two entries, the one whose closing pass issued first. -/
def earlierClose (a b : Entry) : Entry := if b.closeSeq < a.closeSeq then b else a

/-- The entry whose closing pass ends next: reserved, closed, and of these the one whose closing pass issued first. -/
def nextClose (t : TileSt) : Option Entry :=
  match t.entries.filter fun e => e.st == .reserved && !e.open' with
  | [] => none
  | e :: es => some (es.foldl earlierClose e)

/-- PASS_CLOSE (R87): a closing pass ends and its entry becomes visible, once the fills it was issued behind are
complete (R90). -/
def execPassClose (c : Fin 192) (s : State) : Out :=
  .next <|
    let t := (coreOf c s).tile
    match nextClose t with
    | none => s
    | some e =>
      if t.fills.any fun f => f.bank == e.bank && decide (f.seq < e.closeSeq) then s
      else modCore c (fun k => { k with tile := { k.tile with
        entries := mapIf (fun x => x.seq == e.seq) (fun x => { x with st := .visible }) k.tile.entries } }) s

/-! ## DRAIN (R91, R97, R109, R148) -/

/-- The entries of an accumulator that no DRAIN has taken, in issue order. -/
def accEntries (acc : Nat) (t : TileSt) : List Entry := t.entries.filter fun e => e.acc == acc && e.st != .draining

/-- The Desk bytes and flags of a drained entry's valid rows. -/
def drainTensor (e : Entry) (fmt : Nat) (rule : ConvRule) (rs : List Nat) : List Byte × List (BitVec 7) :=
  encodeTensor fmt rule rs (e.data.flatMap fun r => r.map fun x => decodeFloat 0x01 x.toNat)

/-- A DRAIN issued on a visible entry. -/
def beginDrain (tok : Option (Fin 16)) (e : Entry) (f : BitVec 7) (k : Core) : Core :=
  beginOp tok { k with tile := { k.tile with
    entries := mapIf (fun x => x.seq == e.seq) (fun x => { x with st := .draining, flags := x.flags ||| f }) k.tile.entries
    drains := k.tile.drains ++ [{ seq := k.nseq, entry := e.seq, tok := tok }] } }

/-- Valid rows not yet taken of an entry. -/
def rowsLeft (e : Entry) : Nat := e.rows - e.next

/-- The body of DRAIN. -/
def drainBody (c : Fin 192) (w : Word) (s : State) : State :=
  let k := coreOf c s
  let fmt := fld w 16 4
  let acc := fld w 20 3
  let round := fld w 23 3
  let ovf := fld w 26 1 == 1
  let a := areg k.seq (fld w 12 4)
  if !drainFmt fmt || decide (4 < round) || (ovf && !ovfAllowed fmt) || tokReserved (fld w 27 5) then stopCore c 0x0004 s
  else
    let tok := tokField (fld w 27 5)
    match (accEntries acc k.tile).head? with
    | none => stopCore c 0x0004 s
    | some e =>
      let n := tensorBytes fmt (e.rows * 128)
      if e.st == .popping || e.open' || !deskSpan a n || fenceMeets k a n then stopCore c 0x0004 s
      else if !tokReady k.seq tok then holdToken c tok s
      else if 4 ≤ tileOps k.tile then (if tileStuck k.tile then stopCore c 0x0004 s else holdIssue (.core c) 0x01 s)
      else if e.st != .visible then
        (if e.st == .waiting && tileStuck k.tile then stopCore c 0x0004 s else holdIssue (.core c) 0x02 s)
      else if round == 4 && k.reseed.isSome then holdIssue (.core c) 0x03 s
      else
        let rule := coreRule c round ovf s
        let d := if round == 4 then drawRows rule.2.1 e.rows k.vec else (k.vec, List.replicate (e.rows * 128) 0)
        let r := drainTensor e fmt rule d.2
        let s := countTensor c k.statTag fmt r.1 r.2 s
        let s := modCore c (fun k => beginDrain tok e (orFlags r.2) { k with vec := d.1 }) s
        advance (.core c) (deskWrite c a r.1 s)

/-- DRAIN (R91, R148). -/
def execDrain (c : Fin 192) (w : Word) (s : State) : Out := instr (.core c) w 0x18 0x03 (drainBody c w) s

/-- A drained entry's end: its flags reach the stream and lesson words, its tile closes and the entry is free (R91, R125,
R126). -/
def endDrain (d : DrainOp) (e : Entry) (k : Core) : Core :=
  endOp d.tok { k with
    vec := noteTile e.flags e.trow e.tcol (raiseEntry e.flags k.vec)
    tile := { k.tile with
      entries := k.tile.entries.filter fun x => x.seq != e.seq
      drains := k.tile.drains.filter fun x => x.seq != d.seq } }

/-- DRAIN_COMPLETE (R91): the oldest DRAIN makes its last write. -/
def execDrainComplete (c : Fin 192) (s : State) : Out :=
  .next <|
    let t := (coreOf c s).tile
    match t.drains with
    | [] => s
    | d :: _ =>
      match t.entries.find? fun e => e.seq == d.entry with
      | none => modCore c (fun k => endOp d.tok { k with tile := { k.tile with drains := k.tile.drains.filter fun x => x.seq != d.seq } }) s
      | some e => settleCore c (modCore c (endDrain d e) s)

end Sys2Proof.Machine
end

