-- ==== Sys2Proof/Machine/MemAccess.lean ====
section
/-!
DEFINITION. Machine/MemAccess.lean: DMA and NARROW instructions and their completions (R145 to R147, R254 to R256, R260, R271,
R286, R288, R289). What an operation reads is taken as it issues, in program order (R146), unless a fence holds it
(R151); its bytes land at its completion.
-/

namespace Sys2Proof.Machine

/-! ## Checks of the memory a lesson touches (R15, R30, R141, R260) -/

/-- Whether regions together cover the bytes from `a` below `stop`. -/
def coveredBy (rs : List (Nat × Nat)) : Nat → Nat → Nat → Bool
  | 0, a, stop => decide (stop ≤ a)
  | n + 1, a, stop =>
    if stop ≤ a then true
    else match rs.find? fun r => decide (r.1 ≤ a) && decide (a < r.1 + r.2) with
      | some r => coveredBy rs n (r.1 + r.2) stop
      | none => false

/-- Whether a write of a core's run lies inside its declared outputs. -/
def insideOuts (u : Run) (va len : Nat) : Bool := coveredBy u.outs (u.outs.length + 1) va (va + len)

/-- The DETAIL and RESULT0 with which a lesson's read of memory stops it: none when it may go on. A poisoned block gives
its own device address (R260), any other cause the instruction's word index (R141). -/
def readFault (c : Nat) (va len : Nat) (s : State) : Option (BitVec 16 × Word) :=
  let pc := BitVec.ofNat 64 (coreOf c s).seq.pc
  match badRegion (coreSlot c s) va len false s, poisonVa (coreSlot c s) va len s with
  | some _, _ => some (0x0101, pc)
  | none, some b => some (0x0104, BitVec.ofNat 64 b)
  | none, none => none

/-- The same for a write (R15, R30, Table 06-3). -/
def writeFault (c : Nat) (va len : Nat) (s : State) : Option (BitVec 16 × Word) :=
  let pc := BitVec.ofNat 64 (coreOf c s).seq.pc
  if (badRegion (coreSlot c s) va len true s).isSome then some (0x0101, pc)
  else if overlapsProtected (coreSlot c s) va len s then some (0x0103, pc)
  else match coreRun c s with
    | some u => if u.step.isSome && !insideOuts u va len then some (0x0004, pc) else none
    | none => none

/-- A write outside the declared outputs noted: such a run cannot be rerun (R365). -/
def noteWrite (c : Nat) (va len : Nat) (s : State) : State :=
  match coreRun c s with
  | some u => if insideOuts u va len then s else modRun u.id (fun r => { r with wroteOutside := true }) s
  | none => s

/-! ## DMA (R145, R286) -/

def dSlen (w : Word) : Nat := fld w 12 5
def dSfmt (w : Word) : Nat := fld w 31 4
def dDfmt (w : Word) : Nat := fld w 35 4
def dRound (w : Word) : Nat := fld w 39 3
def dCodec (w : Word) : Nat := fld w 42 2

/-- Whether the static fields of a DMA are in range (R54, R57, R60, R145): `codec` is the one its direction allows, `len`
the source length. -/
def dmaFieldsOk (w : Word) (codec len : Nat) : Bool :=
  let sf := dSfmt w
  let df := dDfmt w
  decide (dRound w ≤ 3) && (dCodec w == 0 || dCodec w == codec) && fmtDefined sf && fmtDefined df && df != 6 && df != 10
    && (sf == 0) == (df == 0) && decide (1 ≤ len) && decide (len ≤ 4194304)
    && (dCodec w == 2 || (len % unitBytes sf == 0 && tensorElems sf len % unitElems df == 0))

/-- The conversion rule of a DMA (R145): saturating for E4M3 and E5M2, FP16_IEEE for FP16. -/
def dmaRule (c round : Nat) (s : State) : ConvRule := coreRule c round false s

/-- A whole conversion of raw bytes; what is not a whole unit is left out. -/
def convertWhole (sf df : Nat) (rule : ConvRule) (bs : List Byte) : List Byte × List (BitVec 7) :=
  convertTensor sf df rule (List.replicate (tensorElems sf bs.length) 0) (bs.take (bs.length / unitBytes sf * unitBytes sf))

/-- What a compressed stream gives its reader: the raw bytes in ELEM_FMT with tiles expanded, and the first failure as
row of Table 11-6 and offset (R287, R288). -/
def readStream (bs : List Byte) : List Byte × Option (Nat × Nat) :=
  let f := streamFields (bs.take 64)
  let r := decodeStream bs
  if f.2.1 == 1 then
    let x := expandTiles f.2.2.2.2.1 f.2.2.2.2.2.2 r.1
    (x.1, match r.2 with
      | some e => some e
      | none => x.2.map fun row => (row, bs.length))
  else r

/-- The bytes a stream header says a stream decodes to. -/
def streamRaw (h : List Byte) : Nat :=
  let f := streamFields h
  if f.2.1 == 1 then f.2.2.2.2.2.2 * tensorBytes f.2.2.2.2.1 16384 else f.2.2.2.1

/-- Whether a stream header agrees with its reader: VERSION 1, KIND memory, LENGTH and format (R286). -/
def streamAgrees (h : List Byte) (len sf : Nat) : Bool :=
  let f := streamFields h
  wordAt h 0 / 2 ^ 32 % 256 == 1 && f.1 == 0 && f.2.2.2.2.2.1 == len && f.2.2.2.2.1 == sf

/-- What a DLD brings to the Desk from memory as it stands: its bytes, flags and the rejection of its stream. -/
def loadData (c : Nat) (o : DmaOp) (s : State) : List Byte × BitVec 7 × Option (Nat × Nat × Nat) :=
  let bs := vaRead (coreSlot c s) o.mem o.len s
  let raw := if o.codec == 2 then readStream bs else (bs, none)
  let r := convertWhole o.sfmt o.dfmt (dmaRule c o.round s) raw.1
  (r.1, orFlags r.2, raw.2.map fun e => (0x0105, e.1, o.mem + e.2))

/-- What a DST writes to memory from the Desk as it stands: its destination bytes, and their flags element by element. -/
def storeRaw (c : Nat) (o : DmaOp) (s : State) : List Byte × List (BitVec 7) :=
  convertWhole o.sfmt o.dfmt (dmaRule c o.round s) (deskRead (coreOf c s) s.free o.desk o.len)

/-- A DST's bytes as stored: with CODEC 1 one stream (R286). -/
def storedBytes (o : DmaOp) (raw : List Byte) : List Byte := if o.codec == 1 then encodeStream 0 o.dfmt 16 raw else raw

/-- A DMA of a codec joins the least loaded engine of its die (R272, Table 11-1). -/
def dmaEngine (c : Nat) (o : DmaOp) (s : State) : DmaOp × State :=
  if o.codec == 0 then (o, s)
  else match leastLoaded (dieEngines (dieOf c s)) s with
    | some e => ({ o with engine := some e }, queueBytes e (dmaStream c o.seq) o.len (openStream e (dmaStream c o.seq) s))
    | none => (o, s)

/-- A DMA that issues: its token is busy, its registers advance with INC, and it joins its unit. -/
def beginDma (c : Fin 192) (w : Word) (o : DmaOp) (s : State) : State :=
  let x := dmaEngine c o s
  let ms := if o.toMem then o.dlen else o.len
  let ds := if o.toMem then o.len else o.dlen
  advance (.core c) (modCore c (fun k =>
    let k := beginOp o.tok k
    let q := k.seq
    let q := if fld w 30 1 == 1 then
        setA (fld w 21 4) (areg (coreOf c s).seq (fld w 21 4) + ds) (setA (fld w 17 4) (areg (coreOf c s).seq (fld w 17 4) + ms) q)
      else q
    { k with seq := q, dmas := k.dmas ++ [x.1] }) x.2)

/-- The operation a DMA word names. -/
def dmaOp (k : Core) (toMem : Bool) (w : Word) (tok : Option (Fin 16)) (dlen : Nat) : DmaOp :=
  { seq := k.nseq, toMem := toMem, tok := tok, mem := areg k.seq (fld w 17 4), desk := areg k.seq (fld w 21 4)
    len := (sreg k.seq (dSlen w)).toNat % 2 ^ 32, dlen := dlen, sfmt := dSfmt w, dfmt := dDfmt w, round := dRound w
    codec := dCodec w, tag := if toMem then k.statTag else none, data := none, flags := 0 }

/-- A DMA unit holds four operations (R137). -/
def dmaFull (k : Core) : Bool := decide (4 ≤ k.dmas.length)

/-- A DLD with its fields checked issues: its memory is checked, then read, unless a fence holds it (R151). -/
def issueLoad (c : Fin 192) (w : Word) (o : DmaOp) (s : State) : State :=
  if !deskSpan o.desk o.dlen then stopCore c 0x0004 s
  else if fenceMeets (coreOf c s) o.desk o.dlen then beginDma c w o s
  else
    let r := loadData c o s
    beginDma c w { o with data := some r.1, flags := r.2.1, fail := r.2.2 } s

/-- The body of DLD. -/
def dldBody (c : Fin 192) (w : Word) (s : State) : State :=
  let k := coreOf c s
  let len := (sreg k.seq (dSlen w)).toNat % 2 ^ 32
  if !dmaFieldsOk w 2 len then stopCore c 0x0004 s
  else withCoreTok c (fld w 25 5) (fun tok s =>
    if dmaFull k then holdIssue (.core c) 0x01 s
    else
      let o := dmaOp k false w tok (tensorBytes (dDfmt w) (tensorElems (dSfmt w) len))
      match readFault c o.mem len s with
      | some f => stopCoreAt c f.1 f.2 s
      | none =>
        if dCodec w == 2 then
          let h := vaRead (coreSlot c s) o.mem 64 s
          if len < 64 then stopCore c 0x0004 s
          else if !streamHeaderOk h then
            stopCoreAt c 0x0105 (BitVec.ofNat 64 o.mem) (rejectItem (4 * dieOf c s) 0 0 s)
          else if !streamAgrees h len (dSfmt w) then stopCore c 0x0004 s
          else issueLoad c w { o with dlen := tensorBytes (dDfmt w) (tensorElems (dSfmt w) (streamRaw h)) } s
        else issueLoad c w o s) s

/-- DLD (R145). -/
def execDld (c : Fin 192) (w : Word) (s : State) : Out := instr (.core c) w 0x10 0x00 (dldBody c w) s

/-- The body of DST. Its destination is checked as its longest possible stream with CODEC 1 (R286). -/
def dstBody (c : Fin 192) (w : Word) (s : State) : State :=
  let k := coreOf c s
  let len := (sreg k.seq (dSlen w)).toNat % 2 ^ 32
  if !dmaFieldsOk w 1 len then stopCore c 0x0004 s
  else withCoreTok c (fld w 25 5) (fun tok s =>
    if dmaFull k then holdIssue (.core c) 0x01 s
    else
      let dlen := tensorBytes (dDfmt w) (tensorElems (dSfmt w) len)
      let o := dmaOp k true w tok dlen
      let span := if dCodec w == 1 then maxStored dlen else dlen
      if !deskSpan o.desk len then stopCore c 0x0004 s
      else match writeFault c o.mem span s with
        | some f => stopCoreAt c f.1 f.2 s
        | none =>
          let s := noteWrite c o.mem span s
          if fenceMeets k o.desk len then beginDma c w o s
          else
            let r := storeRaw c o s
            let s := deskDraw c o.desk len (countTensor c o.tag o.dfmt r.1 r.2 s)
            beginDma c w { o with data := some (storedBytes o r.1), flags := orFlags r.2 } s) s

/-- DST (R145). -/
def execDst (c : Fin 192) (w : Word) (s : State) : Out := instr (.core c) w 0x10 0x01 (dstBody c w) s

/-- The Desk span that a DMA touches. -/
def dmaDeskLen (o : DmaOp) : Nat := if o.toMem then o.len else o.dlen

/-- A DMA that a fence held reads its source once the fence has lifted (R151); a tagged DST is counted then. -/
def lateDma (c : Nat) (o : DmaOp) (s : State) : DmaOp × State :=
  if o.data.isSome then (o, s)
  else if o.toMem then
    let r := storeRaw c o s
    ({ o with data := some (storedBytes o r.1), flags := orFlags r.2 }, countTensor c o.tag o.dfmt r.1 r.2 s)
  else
    let r := loadData c o s
    ({ o with data := some r.1, flags := r.2.1, fail := r.2.2 }, s)

/-- Whether a DMA may complete: no fence holds it, it reads no block that is being rebuilt
(R259), and its stream has a context and its bytes are in the queue. -/
def dmaDue (c : Nat) (o : DmaOp) (s : State) : Bool :=
  (o.toMem || !blocksPending (pieces (coreSlot c s) o.mem o.len s) s) &&
  (o.data.isSome || !fenceMeets (coreOf c s) o.desk (dmaDeskLen o)) &&
  (match o.engine with
   | some e => streamFree e (dmaStream c o.seq) s
   | none => true)

/-- The last unit of a DMA lands: its bytes, its token, its flags, the end of its stream. -/
def landDma (c : Nat) (o : DmaOp) (s : State) : State :=
  let bs := o.data.getD []
  let s := modCore c (fun k =>
    let k := endOp o.tok { k with dmas := k.dmas.filter fun x => x.seq != o.seq }
    { k with vec := raiseVec o.flags k.vec }) s
  let s := if o.toMem then vaStore (coreSlot c s) o.mem bs s else deskWrite c o.desk bs s
  let s := match o.engine with
    | some e =>
      if o.codec == 1 then closeStream e (dmaStream c o.seq) o.len o.dlen bs.length s
      else closeStream e (dmaStream c o.seq) o.len bs.length o.len s
    | none => s
  match o.fail with
  | some (d, row, a) =>
    stopCoreAt c (BitVec.ofNat 16 d) (BitVec.ofNat 64 a) (rejectItem (o.engine.getD (4 * dieOf c s)) row 0 s)
  | none => s

/-- DMA_COMPLETE (R145): the oldest DMA of a direction makes its last write. -/
def execDmaComplete (c : Fin 192) (toMemory : Bool) (s : State) : Out :=
  .next <|
    match (coreOf c s).dmas.find? fun o => o.toMem == toMemory with
    | none => s
    | some o =>
      if dmaDue c o s then
        let x := lateDma c o s
        settleCore c (landDma c x.1 x.2)
      else s

/-! ## NARROW (R147, R255, R256) -/

/-- Bytes of a narrow item. -/
def itemSize : Nat := 32

/-- The items of a NARROW word: memory and Desk address of each unmasked lane, lowest lane first. -/
def narrowItems (k : Core) (w : Word) : List (Nat × Nat) :=
  let mk := mreg k.vec (fld w 30 3)
  let am := areg k.seq (fld w 17 4)
  let ad := areg k.seq (fld w 21 4)
  ((List.finRange 128).filter fun (l : Fin 128) => mk.getLsbD l).map fun (l : Fin 128) =>
    ((((am : Int) + 32 * ((vreg k.vec (fld w 12 5))[l]).toInt) % 2 ^ 48).toNat, ad + 32 * l.val)

/-- The element types of the atomics. -/
def atomicType (t : Nat) : Bool := arithType t || t == 0x0C

/-- Whether a region touches a slow page (R271). -/
def slowIn (slot va len : Nat) (s : State) : Bool := (pieces slot va len s).any fun p => p.1 != 0

/-- The first stop of a NARROW's items, lowest lane first: `rd` those that read memory, `wr` those that write it, `at'`
the atomics. -/
def narrowFault (c : Nat) (rd wr atomic : Bool) (items : List (Nat × Nat)) (s : State) : Option (BitVec 16 × Word) :=
  items.findSome? fun x =>
    match (if wr then writeFault c x.1 itemSize s else none) with
    | some f => some f
    | none =>
      match (if rd then readFault c x.1 itemSize s else none) with
      | some f => some f
      | none =>
        if atomic && slowIn (coreSlot c s) x.1 itemSize s then some (0x0004, BitVec.ofNat 64 (coreOf c s).seq.pc) else none

/-- The bytes of a NARROW's items as its source stands: memory for GATHER, else the Desk. -/
def narrowData (c : Nat) (gather : Bool) (items : List (Nat × Nat)) (s : State) : List (Nat × Nat × List Byte) :=
  items.map fun x =>
    (x.1, x.2, if gather then vaRead (coreSlot c s) x.1 itemSize s
      else deskRead (coreOf c s) (s.free + x.2) x.2 itemSize)

/-- A NARROW issues. -/
def narrowBody (c : Fin 192) (w : Word) (func : Nat) (s : State) : State :=
  let k := coreOf c s
  let gather := func == 0
  let atomic := decide (2 ≤ func)
  let ty := fld w 33 4
  let inStep := ((coreRun c s).bind fun u => u.step).isSome
  let items := narrowItems k w
  if atomic && (!atomicType ty || inStep) then stopCore c 0x0004 s
  else withCoreTok c (fld w 25 5) (fun tok s =>
    if 4 ≤ k.narrows.length then holdIssue (.core c) 0x01 s
    else if items.any fun x => !deskSpan x.2 itemSize then stopCore c 0x0004 s
    else match narrowFault c (gather || atomic) (!gather) atomic items s with
      | some f => stopCoreAt c f.1 f.2 s
      | none =>
        let s := if gather then s else items.foldl (fun s x => noteWrite c x.1 itemSize s) s
        let late := items.any fun x => fenceMeets k x.2 itemSize
        let s' := if gather || late then s else deskDraw c (areg k.seq (fld w 21 4)) 4096 s
        let o : NarrowOp :=
          { seq := k.nseq, func := func, tok := tok, atype := ty, items := narrowData c gather items s, late := late }
        advance (.core c) (modCore c (fun k => { beginOp tok k with narrows := k.narrows ++ [o] }) s')) s

/-- GATHER (R147). -/
def execGather (c : Fin 192) (w : Word) (s : State) : Out := instr (.core c) w 0x11 0x00 (narrowBody c w 0) s

/-- SCATTER (R147). -/
def execScatter (c : Fin 192) (w : Word) (s : State) : Out := instr (.core c) w 0x11 0x01 (narrowBody c w 1) s

/-- SADD (R147, R256). -/
def execSadd (c : Fin 192) (w : Word) (s : State) : Out := instr (.core c) w 0x11 0x02 (narrowBody c w 2) s

/-- SMIN (R147, R256). -/
def execSmin (c : Fin 192) (w : Word) (s : State) : Out := instr (.core c) w 0x11 0x03 (narrowBody c w 3) s

/-- SMAX (R147, R256). -/
def execSmax (c : Fin 192) (w : Word) (s : State) : Out := instr (.core c) w 0x11 0x04 (narrowBody c w 4) s

/-- Two integers of `n` bits combined: a wrapping sum, or the signed minimum or maximum. -/
def atomicInt (func n a b : Nat) : Nat :=
  let lo (x : Nat) : Nat := (x + 2 ^ (n - 1)) % 2 ^ n
  match func with
  | 2 => (a + b) % 2 ^ n
  | 3 => if lo a ≤ lo b then a else b
  | _ => if lo a ≤ lo b then b else a

/-- One element combined into memory at the memory-side adders (R61, R76, R78, R256). -/
def atomicElem (func ty a b : Nat) : Nat × BitVec 7 :=
  if fmtInt ty then (atomicInt func (elemBits ty) a b, 0)
  else
    let x := decodeCode ty a
    let y := decodeCode ty b
    match func with
    | 2 => addOp ty x y
    | 3 => encodeElem ty (0, 8, false, true) 0 (minFp x y)
    | _ => encodeElem ty (0, 8, false, true) 0 (maxFp x y)

/-- An item combined into memory element by element. -/
def atomicItem (func ty : Nat) (old new : List Byte) : List Byte × BitVec 7 :=
  let r := List.zipWith (atomicElem func ty) (unpackCodes (elemBits ty) old) (unpackCodes (elemBits ty) new)
  (packCodes (elemBits ty) (r.map Prod.fst), orFlags (r.map Prod.snd))

/-- One item of a NARROW done: GATHER writes the Desk, SCATTER memory, the atomics combine into memory. -/
def landItem (c : Nat) (o : NarrowOp) (x : Nat × Nat × List Byte) (s : State) : State :=
  let slot := coreSlot c s
  match o.func with
  | 0 => deskWrite c x.2.1 x.2.2 s
  | 1 => vaStore slot x.1 x.2.2 s
  | f =>
    let r := atomicItem f o.atype (vaRead slot x.1 itemSize s) x.2.2
    modCore c (fun k => { k with vec := raiseVec r.2 k.vec }) (vaStore slot x.1 r.1 s)

/-- Whether a NARROW reads a block that is being rebuilt (R259). -/
def narrowHeld (c : Nat) (o : NarrowOp) (s : State) : Bool :=
  o.func != 1 && o.items.any fun x => blocksPending (pieces (coreSlot c s) x.1 itemSize s) s

/-- NARROW_COMPLETE (R147): a NARROW's items land in ascending lane order and its token is ready. One that a fence held
waits for the fence (R151). -/
def execNarrowComplete (c : Fin 192) (seq : Nat) (s : State) : Out :=
  .next <|
    let k := coreOf c s
    match k.narrows.find? fun o => o.seq == seq with
    | none => s
    | some o =>
      if (o.late && o.items.any fun x => fenceMeets k x.2.1 itemSize) || narrowHeld c o s then s
      else
        let s := modCore c (fun k => endOp o.tok { k with narrows := k.narrows.filter fun x => x.seq != seq }) s
        let items := if o.late then narrowData c (o.func == 0) (o.items.map fun x => (x.1, x.2.1)) s else o.items
        settleCore c (items.foldl (fun s x => landItem c o x s) (countCard 7 items.length s))

end Sys2Proof.Machine
end

