-- ==== Sys2Proof/Machine/Experts.lean ====
section
/-!
DEFINITION. Machine/Experts.lean: the Expert Dispatcher: ROUTE, PREDICT, CONFIRM, SQUASH and their completions (chapter 07,
R151).
-/

namespace Sys2Proof.Machine

/-! ## The expert page as loaded (R166 to R169) -/

/-- A layer entry: the four words of Table 07-3. -/
abbrev LayerEntry := Word × Word × Word × Word

def lyBase (y : LayerEntry) : Nat := fieldNat y.1 48 12
def lyExperts (y : LayerEntry) : Nat := fieldNat y.2.1 0 13
def lyCap (y : LayerEntry) : Nat := fieldNat y.2.1 16 14
def lySenders (y : LayerEntry) : Nat := fieldNat y.2.1 32 8
def lyRow (y : LayerEntry) : Nat := 32 * fieldNat y.2.1 40 12
def lyPerRank (y : LayerEntry) : Nat := fieldNat y.2.2.1 0 13
def lyRanks (y : LayerEntry) : Nat := fieldNat y.2.2.1 16 14 + 1
def lyDefer (y : LayerEntry) : Nat := fieldNat y.2.2.1 32 16
def lyWeight (y : LayerEntry) : Nat := 1024 * fieldNat y.2.2.2 48 10


/-- The expert page that a core's channel has loaded; none where it is unmapped. -/
def corePage (c : Nat) (s : State) : Option ExpertPage :=
  if (locate (coreSlot c s) expertPageVa s).isNone then none
  else s.expertPages.find? fun p => p.slot == coreSlot c s

/-- A layer of a page below LAYER_COUNT. -/
def layerEntry (pg : ExpertPage) (l : Nat) : Option LayerEntry :=
  if l < fieldNat pg.header 0 13 then pg.layers[l]? else none

/-- The routing entry of an expert of a layer (R169). -/
def routeEntry (pg : ExpertPage) (y : LayerEntry) (e : Nat) : Option (Word × Word) :=
  if e < lyExperts y then pg.routes[lyBase y + e]? else none

/-- Whether an expert may be named by a ROUTE: below EXPERTS, its entry ENABLED and its RANK within the group (R171). -/
def expertOk (pg : ExpertPage) (y : LayerEntry) (e : Nat) : Bool :=
  match routeEntry pg y e with
  | some r => bitOf r.1 32 && decide (fieldNat r.1 0 14 < lyRanks y)
  | none => false

/-- The address of an expert's routing entry in the page as memory holds it (R167, R169). -/
def routeVa (slot layer e : Nat) (s : State) : Nat :=
  expertPageVa + 0x40000 + 16 * (fieldNat (vaWord slot (expertPageVa + 0x1000 + 32 * layer) s) 48 12 + e)

/-- RANK and LOCAL of two experts of a layer exchanged in a channel's expert page (R439). -/
def applySwap (slot layer e f : Nat) (s : State) : State :=
  let m : Word := 0x0FFF3FFF
  let a := vaWord slot (routeVa slot layer e s) s
  let b := vaWord slot (routeVa slot layer f s) s
  vaForce slot (routeVa slot layer f s) (wordBytes ((b &&& ~~~ m) ||| (a &&& m)))
    (vaForce slot (routeVa slot layer e s) (wordBytes ((a &&& ~~~ m) ||| (b &&& m))) s)

/-! ## Slots and headers (R175 to R177) -/

/-- Slots per segment. -/
def segSlots (y : LayerEntry) : Nat := lyPerRank y * lySenders y * lyCap y

/-- Bytes of a segment. -/
def segBytes (y : LayerEntry) : Nat := segSlots y * (32 + lyRow y)

/-- The base of the segment of a rank. -/
def segBase (y : LayerEntry) (rank : Nat) : Nat := fieldNat y.1 0 48 + rank * segBytes y

/-- The slot of core `i`, position `k`, of a local expert. -/
def slotIndex (y : LayerEntry) (loc i k : Nat) : Nat := (loc * lySenders y + i) * lyCap y + k

/-- The writes of a header and its row into the slot of an expert's position (R175). -/
def slotWrites (pg : ExpertPage) (y : LayerEntry) (i e k : Nat) (hdr row : List Byte) : List (Nat × List Byte) :=
  match routeEntry pg y e with
  | none => []
  | some r =>
    let base := segBase y (fieldNat r.1 0 14)
    let q := slotIndex y (fieldNat r.1 16 12) i k
    [(base + 32 * q, hdr), (base + 32 * segSlots y + lyRow y * q, row)]

/-- The clearing of every slot of a core in every segment (R177). -/
def initWrites (y : LayerEntry) (i : Nat) : List (Nat × List Byte) :=
  (List.range (lyRanks y)).flatMap fun r => (List.range (lyPerRank y)).flatMap fun loc =>
    let q := slotIndex y loc i 0
    [(segBase y r + 32 * q, List.replicate (32 * lyCap y) (0 : Byte)),
     (segBase y r + 32 * segSlots y + lyRow y * q, List.replicate (lyRow y * lyCap y) (0 : Byte))]

/-- A slot header (Table 07-5): VALID 1, DEFERRED 0. -/
def slotHeader (alt choice : Bool) (rank core lane : Nat) (gate : W32) (seq : Nat) (step : Word) (e : Nat) : List Byte :=
  wordBytes (BitVec.ofNat 64 (1 + (if alt then 2 else 0) + (if choice then 8 else 0) + rank % 2 ^ 14 * 2 ^ 8
    + core % 256 * 2 ^ 22 + lane % 128 * 2 ^ 32)) ++
  wordBytes (BitVec.ofNat 64 (gate.toNat + seq % 2 ^ 32 * 2 ^ 32)) ++ wordBytes step ++
  wordBytes (BitVec.ofNat 64 (e % 4096))

/-! ## Placing rows (R172, R173, R179) -/

/-- The count of an expert. -/
def countFor (cs : List (Nat × Nat)) (e : Nat) : Nat := ((cs.find? fun x => x.1 == e).map Prod.snd).getD 0

/-- A row placed with an expert: its position, and the counts after; none when the expert is full (R172). -/
def placeRow (y : LayerEntry) (e : Nat) (cs : List (Nat × Nat)) : Option (Nat × List (Nat × Nat)) :=
  let k := countFor cs e
  if k < lyCap y then some (k, (e, k + 1) :: cs.filter fun x => x.1 != e) else none

/-- What a ROUTE builds up: expert counts, writes in order, rows in the deferral half. -/
abbrev RouteAcc := List (Nat × Nat) × List (Nat × List Byte) × Nat

/-- A deferral block (R179): of core index `i` and half `h`. -/
def deferBlock (y : LayerEntry) (i h : Nat) : Nat :=
  fieldNat y.2.2.2 0 48 + (2 * i + h) * (64 + lyDefer y * (32 + lyRow y))

/-- A row of a ROUTE: the word's fields with the row's bytes and header maker. -/
def routeRow (pg : ExpertPage) (y : LayerEntry) (i half : Nat) (step : Word) (e alt : Nat) (hdr : Bool → Nat → List Byte)
    (row : List Byte) (a : RouteAcc) : W32 × RouteAcc :=
  let out (code k e : Nat) : W32 := BitVec.ofNat 32 (e + k * 2 ^ 16 + code * 2 ^ 30)
  match placeRow y e a.1 with
  | some (k, cs) => (out 0 k e, (cs, a.2.1 ++ slotWrites pg y i e k (hdr false e) row, a.2.2))
  | none =>
    match fieldNat pg.header 32 2 with
    | 1 =>
      (match (if alt == 0xFFFF then none else placeRow y alt a.1) with
       | some (k, cs) => (out 1 k alt, (cs, a.2.1 ++ slotWrites pg y i alt k (hdr true alt) row, a.2.2))
       | none => (out 2 0 e, a))
    | 2 =>
      if a.2.2 < lyDefer y then
        let b := deferBlock y i half
        let at' := b + 64 + a.2.2 * (32 + lyRow y)
        (out 3 0 e, (a.1, a.2.1 ++ [(at', hdr false e), (at' + 32, row),
          (b, leBytes 8 (a.2.2 + 1) ++ wordBytes step)], a.2.2 + 1))
      else (out 2 0 e, a)
    | _ => (out 2 0 e, a)

/-- The rows of a ROUTE in ascending lane order: the outcome of each with its lane. -/
def routeRows (f : Fin 128 → RouteAcc → W32 × RouteAcc) : List (Fin 128) → RouteAcc → List (Nat × W32) × RouteAcc
  | [], a => ([], a)
  | l :: ls, a =>
    let r := f l a
    let t := routeRows f ls r.2
    ((l.val, r.1) :: t.1, t.2)

/-- A deferred row taken back: placed with DEFERRED set, or none when its expert is full (R179). -/
def takeDeferred (pg : ExpertPage) (y : LayerEntry) (i : Nat) (hdr row : List Byte) (a : RouteAcc) : Option RouteAcc :=
  let e := wordAt hdr 3 % 4096
  match placeRow y e a.1 with
  | none => none
  | some (k, cs) =>
    let h := leBytes 8 ((wordAt hdr 0) ||| 5) ++ hdr.drop 8
    some (cs, a.2.1 ++ slotWrites pg y i e k h row, a.2.2)

/-- Deferred rows taken back in order, with how many found their expert full. -/
def takeAll (pg : ExpertPage) (y : LayerEntry) (i : Nat) : List (List Byte) → RouteAcc → Nat × RouteAcc
  | [], a => (0, a)
  | r :: rs, a =>
    match takeDeferred pg y i (r.take 32) (r.drop 32) a with
    | some b => takeAll pg y i rs b
    | none =>
      let t := takeAll pg y i rs a
      (t.1 + 1, t.2)

/-! ## ROUTE (R171 to R180) -/

/-- What a run holds for a core index and layer. -/
def runCounts (u : Run) (i layer : Nat) : List (Nat × Nat) :=
  (u.expertCount.filter fun x => x.1 == i && x.2.1 == layer).map fun x => x.2.2

/-- How many ROUTEs of a layer a core index has issued in a run; none before its first. -/
def routesBefore (u : Run) (i layer : Nat) : Option Nat :=
  (u.routeSeq.find? fun x => x.1 == i && x.2.1 == layer).map fun x => x.2.2

/-- The run count u of R179 for a run's ROUTEs of a layer, and the rows it takes back: those the run already has, so that
a rerun keeps them, or the channel's next. -/
def runU (u : Run) (k : Chan) (i layer : Nat) : Nat × Option Nat :=
  match u.routeU.find? fun x => x.1 == i && x.2.1 == layer with
  | some x => (x.2.2.1, some x.2.2.2)
  | none => (((k.routeU.find? fun x => x.1 == layer && x.2.1 == i).map fun x => x.2.2).getD 0, none)

/-- An entry of a three-part count list set. -/
def setCount (i l n : Nat) (xs : List (Nat × Nat × Nat)) : List (Nat × Nat × Nat) :=
  (i, l, n) :: xs.filter fun x => !(x.1 == i && x.2.1 == l)

/-- The deferred rows that a core's first ROUTE of a layer takes, as (taken now or by the first run, expired, rows). -/
def deferredRows (slot : Nat) (y : LayerEntry) (i u : Nat) (kept : Option Nat) (step : Word) (s : State) :
    Nat × Bool × List (List Byte) :=
  let b := deferBlock y i (u % 2)
  let n := kept.getD (min (fieldNat (vaWord slot b s) 0 16) (lyDefer y))
  let rows := (List.range n).map fun j => vaRead slot (b + 64 + j * (32 + lyRow y)) (32 + lyRow y) s
  (n, vaWord slot (b + 8) s != step, rows)

/-- The counts of rows that named an expert of a layer and of those dropped or deferred (R439). -/
def noteDrops (slot layer : Nat) (outs : List (Nat × Bool)) (s : State) : State :=
  let add (xs : List (Nat × Nat × Nat × Nat × Nat)) (o : Nat × Bool) : List (Nat × Nat × Nat × Nat × Nat) :=
    let old := (xs.find? fun x => x.1 == slot && x.2.1 == layer && x.2.2.1 == o.1).map fun x => x.2.2.2
    let old := old.getD (0, 0)
    (slot, layer, o.1, old.1 + 1, old.2 + (if o.2 then 1 else 0)) ::
      xs.filter fun x => !(x.1 == slot && x.2.1 == layer && x.2.2.1 == o.1)
  modCard (fun k => { k with routeDrops := outs.foldl add k.routeDrops }) s

/-- Whether the dispatch-exchange unit of a core holds four operations (R137). -/
def dispFull (k : Core) : Bool := decide (4 ≤ k.disp.length + k.preds.countP fun p => p.st == 0)

/-- The rank by which a run's device is known in the layer's exchange group: that of the run's group; a free value for a
run that names none (R176). -/
def sourceRank (u : Run) (s : State) : Nat :=
  match u.group.bind fun g => groupOf g s with
  | some g => g.rank
  | none => (Config.freeWord s.free).toNat % 2 ^ 14

/-- The deferral block whose rows a ROUTE takes back, if it takes any (R179). -/
def routeTakes (layer : Nat) (u : Run) (ch : Chan) (pg : ExpertPage) (y : LayerEntry) (i : Nat) : Option Nat :=
  let un := (runU u ch i layer).1
  if fieldNat pg.header 32 2 == 2 && lyDefer y != 0 && (routesBefore u i layer).isNone && un != 0 then
    some (deferBlock y i (un % 2)) else none

/-- What a ROUTE will do: the deferred rows it takes as (rows, expired), how many of them find their expert full, the outcome
of each unmasked lane, and the counts, writes and deferred rows at its end (R172, R173, R177, R179). -/
def routePlan (c : Nat) (w : Word) (u : Run) (ch : Chan) (pg : ExpertPage) (y : LayerEntry) (s : State) :
    (Nat × Bool) × Nat × List (Nat × W32) × RouteAcc :=
  let k := coreOf c s
  let layer := fld w 39 12
  let i := k.index
  let b := lyRow y
  let step := u.step.getD (BitVec.allOnes 64)
  let mk := mreg k.vec (fld w 22 3)
  let before := routesBefore u i layer
  let ru := runU u ch i layer
  let takes := routeTakes layer u ch pg y i
  let d := if takes.isSome then deferredRows u.slot y i ru.1 ru.2 step s else (0, false, [])
  let acc0 : RouteAcc :=
    (runCounts u i layer, (if before.isNone then initWrites y i else []),
      ((u.deferred.find? fun x => x.1 == i && x.2.1 == layer).map fun x => x.2.2).getD 0)
  let t := if d.2.1 then (0, acc0) else takeAll pg y i d.2.2 acc0
  let acc1 : RouteAcc := (t.2.1, t.2.2.1 ++ takes.toList.map (fun a => (a, List.replicate 8 (0 : Byte))), t.2.2.2)
  let rank := sourceRank u s
  let row (l : Fin 128) : RouteAcc → W32 × RouteAcc :=
    let x : W32 := (vreg k.vec (fld w 12 5))[l]
    routeRow pg y i ((ru.1 + 1) % 2) step (fieldNat x 0 16) (fieldNat x 16 16)
      (fun alt e => slotHeader alt (fld w 51 1 == 1) rank i l.val (vreg k.vec (fld w 17 5))[l] (before.getD 0) step e)
      (deskRead k (s.free + l.val * b) (areg k.seq (fld w 25 4) + l.val * b) b)
  ((d.1, d.2.1), t.1, routeRows row ((List.finRange 128).filter fun (l : Fin 128) => mk.getLsbD l) acc1)

/-- A ROUTE whose fields are checked: it places its rows, and its writes are checked before any is made. -/
def routeIssue (c : Fin 192) (w : Word) (tok : Option (Fin 16)) (u : Run) (ch : Chan) (pg : ExpertPage) (y : LayerEntry)
    (s : State) : State :=
  let k := coreOf c s
  let layer := fld w 39 12
  let i := k.index
  let b := lyRow y
  let mk := mreg k.vec (fld w 22 3)
  let lns := (List.finRange 128).filter fun (l : Fin 128) => mk.getLsbD l
  let base := areg k.seq (fld w 25 4)
  let before := routesBefore u i layer
  let ru := runU u ch i layer
  match (routeTakes layer u ch pg y i).bind fun a => readFault c a (64 + lyDefer y * (32 + b)) s with
  | some f => stopCoreAt c f.1 f.2 s
  | none =>
    let r := routePlan c w u ch pg y s
    let vi (l : Fin 128) : W32 := (vreg k.vec (fld w 12 5))[l]
    match r.2.2.2.2.1.findSome? fun x => writeFault c x.1 x.2.length s with
    | some f => stopCoreAt c f.1 f.2 s
    | none =>
      let outs (l : Fin 128) : W32 := ((r.2.2.1.find? fun x => x.1 == l.val).map Prod.snd).getD 0
      let s := r.2.2.2.2.1.foldl (fun s x => noteWrite c x.1 x.2.length s) s
      let s := if r.1.2 && r.1.1 != 0 then raiseEvent 0x28 [layer, i, r.1.1] s else s
      let s := if r.2.1 != 0 then raiseEvent 0x29 [layer, i, r.2.1] s else s
      let s := if u.step.isNone then s else noteDrops u.slot layer (lns.map fun (l : Fin 128) => (fieldNat (vi l) 0 16, fieldNat (outs l) 31 1 == 1)) s
      let s := modRun u.id (fun x => { x with
        expertCount := (r.2.2.2.1.map fun z => (i, layer, z)) ++ x.expertCount.filter fun z => !(z.1 == i && z.2.1 == layer)
        routeSeq := setCount i layer (before.getD 0 + 1) x.routeSeq
        deferred := setCount i layer r.2.2.2.2.2 x.deferred
        routeU := if ru.2.isSome then x.routeU else (i, layer, ru.1, r.1.1) :: x.routeU }) s
      let s := if ru.2.isSome then s
        else modChan u.slot (fun x => { x with routeU := setCount layer i (ru.1 + 1) x.routeU }) s
      let s := if pendingMeets k base (128 * b) then drawFree deskBytes s else drawFree 1 s
      let o : DispOp := { seq := k.nseq, tok := tok, writes := r.2.2.2.2.1, xpost := none }
      advance (.core c) (modCore c (fun k =>
        let k := beginOp tok k
        { k with disp := k.disp ++ [o], vec := setV (fld w 12 5) mk outs k.vec }) s)

/-- The body of ROUTE. -/
def routeBody (c : Fin 192) (w : Word) (s : State) : State :=
  let k := coreOf c s
  match corePage c s, coreRun c s, coreChan c s with
  | some pg, some u, some ch =>
    (match layerEntry pg (fld w 39 12) with
     | none => stopCore c 0x0004 s
     | some y =>
       let mk := mreg k.vec (fld w 22 3)
       let lns := (List.finRange 128).filter fun (l : Fin 128) => mk.getLsbD l
       let base := areg k.seq (fld w 25 4)
       let bad (l : Fin 128) : Bool :=
         let x := (vreg k.vec (fld w 12 5))[l]
         !expertOk pg y (fieldNat x 0 16) || (fieldNat x 16 16 != 0xFFFF && !expertOk pg y (fieldNat x 16 16))
           || !deskSpan (base + l.val * lyRow y) (lyRow y)
       if (sreg k.seq (fld w 34 5)).toNat % 2 ^ 32 != lyRow y || lns.any bad then stopCore c 0x0004 s
       else withCoreTok c (fld w 29 5) (fun tok s =>
         if dispFull k then holdIssue (.core c) 0x01 s else routeIssue c w tok u ch pg y s) s)
  | none, _, _ => stopCore c 0x0101 s
  | _, _, _ => s

/-- ROUTE (R171). -/
def execRoute (c : Fin 192) (w : Word) (s : State) : Out := instr (.core c) w 0x28 0x00 (routeBody c w) s

/-- ROUTE_COMPLETE (R180): the oldest ROUTE's writes become visible in their order, and its token is ready. -/
def execRouteComplete (c : Fin 192) (s : State) : Out :=
  .next <|
    match (coreOf c s).disp.find? fun o => o.xpost.isNone with
    | none => s
    | some o =>
      let slot := coreSlot c s
      let s := modCore c (fun k => endOp o.tok { k with disp := k.disp.filter fun x => x.seq != o.seq }) s
      settleCore c (o.writes.foldl (fun s x => vaStore slot x.1 x.2 s) s)

/-! ## PREDICT, CONFIRM, SQUASH (R182 to R187) -/

/-- Bytes of a core's share of the prefetch store. -/
def shareBytes : Nat := 524288

/-- The distinct experts named by bits [15:0] of unmasked lanes, ascending. -/
def namedExperts (v : VecSt) (vi : Nat) (mk : BitVec 128) : List Nat :=
  sortBy (fun a b => decide (a ≤ b)) (((List.finRange 128).filter fun (l : Fin 128) => mk.getLsbD l).map fun (l : Fin 128) =>
    fieldNat (vreg v vi)[l] 0 16).eraseDups

/-- Those of them whose weights are in this device's memory. -/
def localExperts (pg : ExpertPage) (y : LayerEntry) (es : List Nat) : List Nat :=
  es.filter fun e => match routeEntry pg y e with | some r => bitOf r.1 33 | none => false

/-- Where an expert's weights lie. -/
def weightVa (pg : ExpertPage) (y : LayerEntry) (e : Nat) : Nat :=
  match routeEntry pg y e with
  | some r => fieldNat r.2 0 48
  | none => 0

/-- The body of PREDICT. -/
def predictBody (c : Fin 192) (w : Word) (s : State) : State :=
  let k := coreOf c s
  match corePage c s with
  | none => stopCore c 0x0101 s
  | some pg =>
    match layerEntry pg (fld w 39 12) with
    | none => stopCore c 0x0004 s
    | some y =>
      let named := namedExperts k.vec (fld w 12 5) (mreg k.vec (fld w 22 3))
      let wb := lyWeight y
      let held := sumNat ((k.preds.filter fun p => !p.resolved).map fun p => (predSpan p).2)
      let es := (localExperts pg y named).take ((shareBytes - held) / wb)
      let desk := areg k.seq (fld w 25 4)
      let n := es.length * wb
      if wb == 0 || (named.any fun e => decide (lyExperts y ≤ e)) || decide (4 ≤ k.preds.countP fun p => !p.resolved)
          || !deskSpan desk n || fenceMeets k desk n then stopCore c 0x0004 s
      else withCoreTok c (fld w 29 5) (fun tok s =>
        if dispFull k then holdIssue (.core c) 0x01 s
        else if es.any fun e => (badRegion (coreSlot c s) (weightVa pg y e) wb false s).isSome then stopCore c 0x0101 s
        else
          let p : Prediction :=
            { handle := k.predCount, layer := fld w 39 12, desk := desk, expertBytes := wb, experts := es
              data := es.flatMap fun e => vaRead (coreSlot c s) (weightVa pg y e) wb s
              tok := tok, st := 0, resolved := false, fenced := true
              bad := es.any fun e => (poisonVa (coreSlot c s) (weightVa pg y e) wb s).isSome }
          advance (.core c) (modCore c (fun k =>
            let k := beginOp tok k
            { k with preds := k.preds ++ [p], predCount := k.predCount + 1
                     seq := setS (fld w 34 5) (BitVec.ofNat 64 p.handle) k.seq }) s)) s

/-- PREDICT (R182). -/
def execPredict (c : Fin 192) (w : Word) (s : State) : Out := instr (.core c) w 0x28 0x01 (predictBody c w) s

/-- A prediction of a core changed. -/
def modPred (h : Nat) (f : Prediction → Prediction) (k : Core) : Core :=
  { k with preds := mapIf (fun p => p.handle == h) f k.preds }

/-- A prediction squashed (R185): the fence lifts, and a share whose units have all landed is free at once. -/
def squashPred (h : Nat) (k : Core) : Core :=
  { k with preds := (k.preds.filter fun p => p.handle != h || p.st == 0).map fun p =>
      if p.handle == h then { p with st := 3, resolved := true, fenced := false } else p }

/-- A prediction confirmed (R184): its copy starts once it has landed. -/
def confirmPred (h : Nat) (k : Core) : Core :=
  modPred h (fun p => { p with resolved := true, st := if p.st == 1 then 2 else p.st }) k

/-- The unresolved prediction that a register names. -/
def unresolved (k : Core) (r : Nat) : Option Prediction :=
  k.preds.find? fun p => !p.resolved && (sreg k.seq r).toNat == p.handle

/-- The body of CONFIRM. -/
def confirmBody (c : Fin 192) (w : Word) (s : State) : State :=
  let k := coreOf c s
  match corePage c s with
  | none => stopCore c 0x0101 s
  | some pg =>
    match unresolved k (fld w 34 5) with
    | none => stopCore c 0x0004 s
    | some p =>
      match layerEntry pg p.layer with
      | none => stopCore c 0x0004 s
      | some y =>
        let named := namedExperts k.vec (fld w 12 5) (mreg k.vec (fld w 22 3))
        if named.any fun e => decide (lyExperts y ≤ e) then stopCore c 0x0004 s
        else withCoreTok c (fld w 29 5) (fun _ s =>
          let ok := !p.bad && (localExperts pg y named).all fun e => p.experts.contains e
          advance (.core c) (modCore c (fun k =>
            let k := if ok then confirmPred p.handle k else squashPred p.handle k
            { k with seq := setS (fld w 17 5) (truth ok) k.seq }) s)) s

/-- CONFIRM (R184). -/
def execConfirm (c : Fin 192) (w : Word) (s : State) : Out := instr (.core c) w 0x28 0x02 (confirmBody c w) s

/-- SQUASH (R185). -/
def execSquash (c : Fin 192) (w : Word) (s : State) : Out :=
  instr (.core c) w 0x28 0x03 (fun s =>
    if (corePage c s).isNone then stopCore c 0x0101 s
    else match unresolved (coreOf c s) (fld w 34 5) with
      | none => stopCore c 0x0004 s
      | some p => advance (.core c) (modCore c (squashPred p.handle) s)) s

/-- PREDICT_LAND (R183): a prediction's last unit lands, its token is ready, and a confirmed one starts its copy. -/
def execPredictLand (c : Fin 192) (handle : Nat) (s : State) : Out :=
  .next <|
    match (coreOf c s).preds.find? fun p => p.handle == handle && p.st == 0 with
    | none => s
    | some p =>
      settleCore c (modCore c (fun k =>
        endOp p.tok (modPred handle (fun p => { p with st := if p.resolved then 2 else 1 }) k)) s)

/-- PREDICT_COPY_DONE (R184): the copy of a confirmed prediction ends, its fence lifts and its share is free. -/
def execPredictCopyDone (c : Fin 192) (handle : Nat) (s : State) : Out :=
  .next <|
    match (coreOf c s).preds.find? fun p => p.handle == handle && p.st == 2 with
    | none => s
    | some p =>
      settleCore c (modCore c (fun k =>
        { k with desk := memWrite k.desk p.desk p.data, preds := k.preds.filter fun x => x.handle != handle }) s)

/-- SQUASH_SHARE_FREED (R185): the units a squashed prediction had requested have landed, and its share is free. -/
def execSquashShareFreed (c : Fin 192) (handle : Nat) (s : State) : Out :=
  .next <|
    match (coreOf c s).preds.find? fun p => p.handle == handle && p.st == 3 with
    | none => s
    | some p =>
      settleCore c (modCore c (fun k =>
        endOp p.tok { k with preds := k.preds.filter fun x => x.handle != handle }) s)

end Sys2Proof.Machine
end

