-- ==== Sys2Proof/Machine/Sync.lean ====
section
/-!
DEFINITION. Machine/Sync.lean: synchronisation and statistics instructions (R152, R154, R188, R202) and SLOT (R155).
-/

namespace Sys2Proof.Machine

/-! ## WAIT (R152) -/

/-- The tokens a WAIT names. -/
def waitTokens (w : Word) : List (Fin 16) := (List.finRange 16).filter fun t => fld w (32 + t.val) 1 == 1

/-- Whether every named token of a place is ready. -/
def allReady (q : Seq) (ts : List (Fin 16)) : Bool := ts.all fun t => tokReady q (some t)

/-- The body of WAIT. One that names a token which can never become ready stops its lesson (R109). -/
def waitBody (p : Place) (w : Word) (s : State) : State :=
  let ts := waitTokens w
  if allReady (seqOf p s) ts then advance p s
  else match p with
    | .core c =>
      if ts.any fun t => !tokReady (seqOf p s) (some t) && tokenStuck (coreOf c s) (some t) then stopCore c 0x0004 s
      else holdIssue p 0x01 s
    | _ => holdIssue p 0x01 s

/-- WAIT of a lesson (R152). -/
def execSyncWait (p : Place) (w : Word) (s : State) : Out := instr p w 0x30 0x00 (waitBody p w) s

/-! ## SIGNAL and WAITEV (R152) -/

/-- The waits of a core's run judged. -/
def settleRunOf (c : Nat) (s : State) : State :=
  match (coreOf c s).run with
  | some r => settleWaits r s
  | none => s

/-- SIGNAL (R152): an increment sets out for the core of that index in the run. -/
def execSignal (c : Fin 192) (w : Word) (s : State) : Out :=
  instr (.core c) w 0x30 0x01 (fun s =>
    match (coreRun c s).bind fun u => u.cores[(sreg (coreOf c s).seq (fld w 12 5)).toNat]? with
    | none => stopCore c 0x0004 s
    | some d => advance (.core c) (modCore d (fun k => { k with signals := k.signals ++ [(c.val, fld w 17 3)] }) s)) s

/-- A counter advanced, saturating at 2^32 - 1. -/
def bumpEvent (e : Nat) (k : Core) : Core :=
  { k with event := vmod k.event e (fun x => if x == BitVec.allOnes 32 then x else x + 1) }

/-- SIGNAL_LAND (R152): the oldest SIGNAL of an event in flight to a core lands; one that reaches a halted core is
discarded. -/
def execSignalLand (c : Fin 192) (event : Fin 8) (s : State) : Out :=
  .next <|
    match (coreOf c s).signals.find? fun x => x.2 == event.val with
    | none => s
    | some x =>
      settleRunOf c (modCore c (fun k =>
        let k := { k with signals := k.signals.erase x }
        if k.halted then k else bumpEvent event k) s)

/-- COUNT subtracted from a counter. -/
def takeEvent (e : Nat) (n : W32) (k : Core) : Core := { k with event := vmod k.event e (fun x => x - n), waitEv := none }

/-- Whether a counter has reached COUNT. -/
def eventReached (k : Core) (e : Nat) (n : W32) : Bool := decide (n.toNat ≤ (vget k.event e 0).toNat)

/-- WAITEV (R152). -/
def execWaitev (c : Fin 192) (w : Word) (s : State) : Out :=
  instr (.core c) w 0x30 0x02 (fun s =>
    let e := fld w 17 3
    let n : W32 := BitVec.ofNat 32 (fld w 32 32)
    if eventReached (coreOf c s) e n then advance (.core c) (modCore c (takeEvent e n) s)
    else
      let t := advance (.core c) s
      if (coreOf c t).halted then t
      else settleRunOf c (holdIssue (.core c) 0x04 (modCore c (fun k => { k with waitEv := some (e, n) }) t))) s

/-- WAITEV_RELEASE (R152): a waiting core's counter has reached COUNT. -/
def execWaitevRelease (c : Fin 192) (s : State) : Out :=
  .next <|
    match (coreOf c s).waitEv with
    | none => s
    | some (e, n) => if eventReached (coreOf c s) e n then modCore c (takeEvent e n) s else s

/-! ## BAR (R152) -/

/-- The tokens of a core's DSTs and NARROWs that are busy. -/
def orderTokens (k : Core) : List (Fin 16) :=
  ((k.dmas.filter fun o => o.toMem).filterMap fun o => o.tok) ++ k.narrows.filterMap fun o => o.tok

/-- BAR (R152). -/
def execBar (c : Fin 192) (w : Word) (s : State) : Out :=
  instr (.core c) w 0x30 0x03 (fun s =>
    let ts := if fld w 21 1 == 1 then orderTokens (coreOf c s) else []
    let t := advance (.core c) s
    if (coreOf c t).halted then t
    else settleRunOf c (holdIssue (.core c) 0x04 (modCore c (fun k => { k with waitBar := some (fld w 20 1 == 1, ts) }) t))) s

/-- Whether a core has arrived at a barrier of a scope. -/
def arrived (scope : Bool) (k : Core) : Bool :=
  match k.waitBar with
  | some (x, ts) => x == scope && allReady k.seq ts
  | none => false

/-- BAR_RELEASE (R152): every core of the run, or of the run in one form, has arrived, and all go on. -/
def execBarRelease (run : Nat) (scope : Bool) (form : Fin 24) (s : State) : Out :=
  .next <|
    match runOf run s with
    | none => s
    | some u =>
      let cs := u.cores.filter fun c => scope || formOf c s == form.val
      if cs.all fun c => arrived scope (coreOf c s) then
        cs.foldl (fun s c => modCore c (fun k => { k with waitBar := none }) s) s
      else s

/-! ## Statistics (R154, R188, R202) -/

/-- The backward phase of a step begins at its first STAT.TAG that enables a GRAD tag (R434). -/
def noteBackward (c tag : Nat) (s : State) : State :=
  match coreRun c s, coreChan c s with
  | some u, some k =>
    if u.step.isSome && bitOf (tagEntry k tag) 0 then
      match u.group with
      | some g =>
        let first := ((groupOf g s).map fun x => x.backward.isNone).getD false
        let s := modGroup g (fun x => { x with backward := some (x.backward.getD (now s)) }) s
        if first then setShare s.card.moveMin s else s
      | none => s
    else s
  | _, _ => s

/-- STAT.TAG (R154). -/
def execStatTag (c : Fin 192) (w : Word) (s : State) : Out :=
  instr (.core c) w 0x34 0x00 (fun s =>
    let tag := fld w 32 16
    let en := fld w 20 1 == 1
    if tag == 0xFFFF then stopCore c 0x0004 s
    else advance (.core c) (modCore c (fun k => { k with statTag := if en then some tag else none })
      (if en then noteBackward c tag s else s))) s

/-- The counts of a tag that a core's run reads: those merged into its channel's set and its own run's (R202). -/
def statCounts (c tag : Nat) (s : State) : Counts :=
  let merged := ((s.stats.find? fun x => x.slot == coreSlot c s && x.tag == tag).map fun x => x.merged).getD {}
  let own := ((coreRun c s).bind fun u => (u.stats.find? fun x => x.1 == tag).map Prod.snd).getD {}
  addCounts merged own

/-- The count that SEL names. -/
def statSel (sel : Nat) (x : Counts) : Option Word :=
  match sel with
  | 0 => some (BitVec.ofNat 64 x.zeros)
  | 1 => some (BitVec.ofNat 64 x.sats)
  | 2 => some (BitVec.ofNat 64 x.nonFinite)
  | 3 => some (x.maxMag.setWidth 64)
  | 4 => some (BitVec.ofNat 64 x.elements)
  | _ => none

/-- STAT.READ (R154). -/
def execStatRead (c : Fin 192) (w : Word) (s : State) : Out :=
  instr (.core c) w 0x34 0x01 (fun s =>
    match statSel (fld w 17 3) (statCounts c (fld w 32 16) s) with
    | none => stopCore c 0x0004 s
    | some v => stepSeq (.core c) (setS (fld w 12 5) v) s) s

/-! ## SLOT (R155) -/

/-- SLOT: the timetable lesson holds until DTIME reaches the value in SA. -/
def execSlot (l : Fin 36) (w : Word) (s : State) : Out :=
  instr (.link l) w 0x38 0x00 (fun s =>
    let v := sreg (seqOf (.link l) s) (fld w 12 5)
    if v.toNat ≤ (now s).toNat then advance (.link l) s
    else stepSeq (.link l) (fun q => { q with slotUntil := some v }) s) s

/-- SLOT_RELEASE (R155): DTIME has reached a SLOT's value. -/
def execSlotRelease (l : Fin 36) (s : State) : Out :=
  .next <|
    match (seqOf (.link l) s).slotUntil with
    | none => s
    | some v => if v.toNat ≤ (now s).toNat then modSeq (.link l) (fun q => { q with slotUntil := none }) s else s

end Sys2Proof.Machine
end

