-- ==== Sys2Proof/Machine/Runs.lean ====
section
/-!
DEFINITION. Machine/Runs.lean: LESSON_RUN from its start to its completion, the sequencer watchdog, and fencing a core with
the rerun that follows (R27, R127, R133, R135, R157 to R160, R166, R170, R362 to R365, R382, R420, R473).
-/

namespace Sys2Proof.Machine

/-! ## The lesson image (R157, R158) -/

/-- The header of a lesson image: CODE_WORDS, DATA_BYTES and DATA_DESK, or none when a header check fails. -/
def imageHeader (h : List Byte) : Option (Nat × Nat × Nat) :=
  let w0 := wordAt h 0
  let code := wordAt h 1 % 2 ^ 32
  let data := wordAt h 1 / 2 ^ 32
  let desk := wordAt h 2
  if w0 == 0x4C594B4C + 2 ^ 32 && decide (1 ≤ code) && decide (code ≤ 16384) && decide (data ≤ deskBytes) && data % 64 == 0
      && desk % 64 == 0 && decide (desk < 2 ^ 22) && decide (desk + data ≤ deskBytes) && wordAt h 3 == 0 then some (code, data, desk)
  else none

/-- The first word of a code section that fails the load check (R140), with its index. -/
def firstBadWord (ws : List Word) : Option (Nat × BitVec 16) :=
  ws.zipIdx.findSome? fun x => (wordFault 0 x.1).map fun d => (x.2, d)

/-- The words of bytes. -/
def wordsOf (bs : List Byte) : List Word := (chunks 8 bs).map fun b => BitVec.ofNat 64 (leNat b)

/-! ## The expert page (R166, R170) -/

/-- The expert page as memory holds it. -/
def readExpertPage (slot : Nat) (step : Option Word) (s : State) : ExpertPage :=
  let h := vaWord slot expertPageVa s
  let w (a : Nat) : Word := vaWord slot a s
  { slot := slot, step := step, header := h
    layers := (List.range (min 4096 (fieldNat h 0 13))).map fun l =>
      let a := expertPageVa + 0x1000 + 32 * l
      (w a, w (a + 8), w (a + 16), w (a + 24))
    routes := (List.range (min 4096 (fieldNat h 16 13))).map fun e =>
      let a := expertPageVa + 0x40000 + 16 * e
      (w a, w (a + 8)) }

/-- The forms that hold cores of a channel. -/
def chanForms (c : Chan) (s : State) : List Nat := (c.cores.map fun l => formOf l s).eraseDups

/-- Whether an Expert Dispatcher can hold a page beside those of the other channels with cores in its form (R170). -/
def pageFits (slot : Nat) (c : Chan) (pg : ExpertPage) (s : State) : Bool :=
  (chanForms c s).all fun f =>
    let others := s.expertPages.filter fun p => p.slot != slot &&
      (match chanOf p.slot s with | some k => (chanForms k s).contains f | none => false)
    decide (pg.layers.length + sumNat (others.map fun p => p.layers.length) ≤ 4096) &&
    decide (pg.routes.length + sumNat (others.map fun p => p.routes.length) ≤ 4096)

/-- Whether a run loads its channel's expert page: outside a step always, in a step at the step's first run. -/
def loadsPage (slot : Nat) (step : Option Word) (s : State) : Bool :=
  (locate slot expertPageVa s).isSome &&
  (step.isNone || !(s.expertPages.any fun p => p.slot == slot && p.step == step))

/-- An expert page loaded. -/
def setPage (pg : ExpertPage) (s : State) : State :=
  { s with expertPages := s.expertPages.filter (fun p => p.slot != pg.slot) ++ [pg] }

/-! ## Protected inputs and forwarding to the deskmate (R15, R166, R382) -/

/-- Regions added to those the open step of a group protects (R15). -/
def protect (g slot : Nat) (rs : List (Nat × Nat)) (s : State) : State :=
  modGroup g (fun x => if x.open'.isSome then { x with protected' := x.protected' ++ rs.map fun r => (slot, r.1, r.2) } else x) s

/-- Whether a region holds working copies of a binding of the group, which the deskmate also holds (R382). -/
def isWorkingCopy (slot g va len : Nat) (s : State) : Bool :=
  s.nmu.bindings.any fun b => b.slot == slot && b.group == g && decide (b.base ≤ va)
    && decide (va + len ≤ b.base + tensorBytes b.fmt b.count)

/-- The fresh inputs among regions: not written earlier in the step, nor forwarded already, nor working copies (R382). -/
def freshInputs (slot g : Nat) (rs : List (Nat × Nat)) (s : State) : List (Nat × Nat) :=
  match groupOf g s with
  | none => []
  | some x => rs.filter fun r => !coveredBy x.forwarded (x.forwarded.length + 1) r.1 (r.1 + r.2) && !isWorkingCopy slot g r.1 r.2 s

/-- Whether this device forwards the step's descriptors to a deskmate. -/
def forwards (s : State) : Bool := s.mate.formed && !s.mate.degraded

/-- A descriptor of an open step forwarded with its fresh inputs and what it will write; none when the step's fresh inputs
would exceed 1 GiB (R382). What
it writes is noted for a rebuild (Table 10-3). -/
def forwardDesc (g : Option Nat) (step : Option Word) (slot : Nat) (ins outs : List (Nat × Nat)) (s : State) : Option State :=
  match g, step with
  | some g, some _ =>
    let s := modGroup g (fun x => { x with stepOuts := x.stepOuts ++ outs.map fun r => (slot, r.1, r.2) }) s
    if forwards s then
      let f := freshInputs slot g ins s
      let n := sumNat (f.map Prod.snd)
      match groupOf g s with
      | none => some s
      | some x =>
        if 1073741824 < x.freshBytes + n then none
        else some (modGroup g (fun x => { x with freshBytes := x.freshBytes + n, forwarded := x.forwarded ++ f ++ outs }) s)
    else some s
  | _, _ => some s

/-! ## The start of a run (R27, R135) -/

/-- The STREAM of a core at lesson start (Table 03-8). -/
def startStream (step : Option Word) (c : Nat) : Word :=
  match step with
  | some n => BitVec.ofNat 64 (n.toNat * 65536 + c)
  | none => BitVec.ofNat 64 c

/-- A core as its lesson starts (R110, R125, R135); Desk bytes beyond the data section are unwritten
(notes/assumptions/2.md). -/
def startedCore (u : Run) (c i : Nat) (seed : Word) (ticks : Nat) : Core :=
  let st := startStream u.step c
  { seq := { running := true, s := Vector.ofFn fun j : Fin 32 => u.args.getD j 0, pc := u.entry, code := u.code
             startTick := ticks }
    vec := { gens := seedLanes seed st, stream := st }
    desk := memWrite [] u.dataDesk u.data
    run := some u.id, index := i, lastIssueTick := ticks }

/-- A run begins: every core of it starts. -/
def beginRun (u : Run) (s : State) : State :=
  let seed := ((chanOf u.slot s).map fun c => c.seed).getD 0
  u.cores.zipIdx.foldl (fun s x => { s with cores := tset s.cores x.1 (startedCore u x.1 x.2 seed s.time.ticks) })
    (modRun u.id (fun r => { r with begun := true, startedAt := now s }) s)

/-- Whether an earlier run still holds a physical core that a run needs (R27, R364). -/
def coresTaken (u : Run) (s : State) : Bool :=
  s.runs.any fun v => decide (v.id < u.id) && v.cores.any fun c => u.cores.any fun d => physOf c s == physOf d s

/-- Every run whose cores are free begins, in fetch order (R27). -/
def beginReady (s : State) : State :=
  (s.runs.filter fun u => !u.begun && !coresTaken u s).foldl (fun s u => beginRun u s) s

/-! ## LESSON_RUN (R30, R133, R157, R158, R473) -/

/-- The cores a LESSON_RUN names (R473). -/
def runCores (d : Desc) (c : Chan) : Option (List Nat) :=
  let b := fieldNat d.w3 32 16
  let n := fieldNat d.w3 48 16
  let cs := sortBy (fun a b => decide (a ≤ b)) c.cores
  if cs.length ≤ b || cs.length < b + n then none
  else some (if n == 0 then cs.drop b else (cs.drop b).take n)

/-- The regions of a region list: base and length. -/
def regionList (slot va n : Nat) (s : State) : List (Nat × Nat) :=
  (List.range n).map fun i => ((vaWord slot (va + 16 * i) s).toNat, (vaWord slot (va + 16 * i + 8) s).toNat)

/-- The first poisoned block among regions (R260). -/
def poisonAmong (slot : Nat) (rs : List (Nat × Nat)) (s : State) : Option Nat := rs.findSome? fun r => poisonVa slot r.1 r.2 s

/-- A LESSON_RUN with its regions and image checked: its page, its measure, its forwarding, then the run. -/
def admitRun (r : DescRec) (c : Chan) (u : Run) (measure : List Byte) (s : State) : State :=
  let d := r.desc
  let slot : Nat := d.slot
  let pg := readExpertPage slot r.step s
  let loads := loadsPage slot r.step s
  if loads && !pageFits slot c pg s then refuseCap r 0 s
  else if s.nmu.exams.any fun e => e.slot == slot && e.gap then refuseCap r 0 s
  else
    let page := if loads then [(expertPageVa, pageBytes)] else []
    let image := [(d.w2.toNat, 64 + 8 * u.code.length + u.data.length)]
    match forwardDesc r.group r.step slot (u.ins ++ image ++ page) u.outs s with
    | none => refuseCap r 0x0604 s
    | some s =>
      let s := if loads then setPage pg s else s
      let s := match r.group with
        | some g => protect g slot (u.ins ++ page) s
        | none => s
      let s := modChan slot (fun k => if k.log.contains measure then k else
        { k with log := k.log ++ [measure], logDigest := shake256 32 (k.logDigest ++ measure) }) s
      let s := holdAs r .run s
      beginReady { s with runs := s.runs ++ [u] }

/-- LESSON_RUN as it starts. -/
def startLesson (r : DescRec) (s : State) : State :=
  let d := r.desc
  let slot : Nat := d.slot
  let image := d.w2.toNat
  let argc := fieldNat d.w5 0 6
  let nin := fieldNat d.w7 0 16
  let nreg := nin + fieldNat d.w7 16 16
  match chanOf slot s with
  | none => finishGone r s
  | some c =>
    match runCores d c with
    | none => refuse r 0x0004 0 s
    | some cores =>
      if 32 < argc then refuse r 0x0004 0 s
      else
        let base := [(d.w4.toNat, 8 * argc, false), (d.w6.toNat, 16 * nreg, false)]
        match regionsFault slot base s with
        | some a => refuse r 0x0101 a s
        | none =>
          let regs := regionList slot d.w6.toNat nreg s
          match regionsFault slot (regs.zipIdx.map fun x => (x.1.1, x.1.2, decide (nin ≤ x.2))) s with
          | some a => refuse r 0x0101 a s
          | none =>
            if image % 64 != 0 then refuse r 0x0004 image s
            else match regionFault slot image 64 false s with
            | some a => refuse r 0x0101 a s
            | none =>
              match poisonAmong slot [(d.w4.toNat, 8 * argc), (d.w6.toNat, 16 * nreg), (image, 64)] s with
              | some a => refuse r 0x0104 a s
              | none =>
                let h := vaRead slot image 64 s
                match imageHeader h with
                | none => refuse r 0x0004 image s
                | some (cw, db, desk) =>
                  let entry := fieldNat d.w3 0 32
                  if cw ≤ entry then refuse r 0x0004 image s
                  else match regionFault slot image (64 + 8 * cw + db) false s with
                  | some a => refuse r 0x0101 a s
                  | none =>
                    match poisonVa slot image (64 + 8 * cw + db) s with
                    | some a => refuse r 0x0104 a s
                    | none =>
                      let code := vaRead slot (image + 64) (8 * cw) s
                      let data := vaRead slot (image + 64 + 8 * cw) db s
                      let measure := h.drop 32
                      if shake256 32 (code ++ data) != measure then refuse r 0x0004 image s
                      else match firstBadWord (wordsOf code) with
                        | some (i, det) => refuse r det (image + 64 + 8 * i) s
                        | none =>
                          admitRun r c
                            { id := r.id, desc := r.id, slot := slot, cores := cores, entry := entry, code := wordsOf code
                              dataDesk := desk, data := data, args := wordsOf (vaRead slot d.w4.toNat (8 * argc) s)
                              ins := regs.take nin, outs := regs.drop nin, group := r.group, step := r.step } measure s

/-- LESSON_RUN (R473). -/
def execLessonRun (d : Desc) (s : State) : Out := .next (fetchWith 0x01 d noFetchEffect startLesson s)

/-! ## The end of a run (R127, R159, R202) -/

/-- Whether a core of a run has halted and completed all it had issued. -/
def coreFinished (stopped : Bool) (k : Core) : Bool := k.halted && if stopped then stoppedIdle k else coreIdle k

/-- The lesson flags of a run's cores. -/
def runFlags (u : Run) (s : State) : BitVec 7 := orFlags (u.cores.map fun c => (coreOf c s).vec.lessonFlags)

/-- RESULT0 of a flagged run: the first flagged tile of the lowest logical core, and the count (R127). -/
def flaggedResult (u : Run) (s : State) : Word :=
  let cs := sortBy (fun a b => decide (a ≤ b)) (u.cores.filter fun c => decide (0 < (coreOf c s).vec.flagged))
  let n := min 65535 (sumNat (cs.map fun c => (coreOf c s).vec.flagged))
  match cs with
  | [] => 0
  | c :: _ =>
    let t := (coreOf c s).vec.firstFlagged.getD (0, 0)
    BitVec.ofNat 64 (t.1.toNat + t.2.toNat * 2 ^ 16 + c * 2 ^ 32 + n * 2 ^ 48)

/-- A run's counts merged into its channel's counter sets, and into the step's when it belongs to one (R202, R204). -/
def mergeCounts (u : Run) (s : State) : State :=
  u.stats.foldl (fun s x =>
    let upd (z : StatSet) : StatSet := { z with
      merged := addCounts z.merged x.2
      step := if u.step.isSome then addCounts z.step x.2 else z.step }
    if s.stats.any fun z => z.slot == u.slot && z.tag == x.1 then
      { s with stats := mapIf (fun z => z.slot == u.slot && z.tag == x.1) upd s.stats }
    else if s.stats.length < 16384 then { s with stats := s.stats ++ [upd { slot := u.slot, tag := x.1 }] }
    else raiseEvent 0x15 [x.2.elements] (modChan u.slot (fun k => { k with tsuFull := k.tsuFull + x.2.elements }) s)) s

/-- What a run leaves with its step: a saturation under a GRAD tag, and when its last lesson ended (R195, R434). -/
def noteRunEnd (u : Run) (s : State) : State :=
  match u.group, u.step with
  | some g, some n =>
    modGroup g (fun x => if x.open' == some n then
      { x with gradSat := x.gradSat || u.gradSat, lastRunEnd := some (now s) } else x) s
  | _, _ => s

/-- The status, DETAIL and RESULT0 of a run whose cores have all finished. -/
def runOutcome (u : Run) (s : State) : BitVec 8 × BitVec 16 × Word :=
  let f := runFlags u s
  match u.stop with
  | some x => x
  | none =>
    if flagged f then (stFlagged, f.setWidth 16, flaggedResult u s)
    else (if u.rerun then stReplayed else stDone, 0, 0)

/-- The card's counts of a run that completes (Table 17-3). -/
def cardRun (u : Run) (f : BitVec 7) (s : State) : State :=
  let s := orCard 9 (f.toNat * (if u.stop.isSome then 2 ^ 24 else 1)) s
  countCard 10 (1 + (if u.rerun then 2 ^ 32 else 0)) s

/-- LESSON_RUN_COMPLETE (R159): every core of a run has halted, or one has stopped, and all operations issued have
completed. -/
def execLessonRunComplete (run : Nat) (s : State) : Out :=
  .next <|
    match runOf run s with
    | none => s
    | some u =>
      if u.begun && u.cores.all fun c => coreFinished u.stop.isSome (coreOf c s) then
        let o := runOutcome u s
        let t := cardRun u (runFlags u s) (noteRunEnd u (mergeCounts u s))
        let t := u.cores.foldl (fun s c => modCore c (fun k => { k with run := none }) s) t
        let t := { t with runs := t.runs.filter fun x => x.id != u.id }
        let t := match descOf u.desc t with
          | some r => finish r o.1 o.2.1 o.2.2 t
          | none => t
        beginReady t
      else s

/-! ## Fencing a core (R160, R362 to R365, R402) -/

/-- Ring hops between compute dies (R9). -/
def ringHops (a b : Nat) : Nat := min ((a + 4 - b) % 4) ((b + 4 - a) % 4)

/-- The physical slots that are free substitutes: good and holding no logical number. -/
def freeSubstitutes (s : State) : List Nat :=
  (List.range 192).filter fun p => tgetD s.flash.coreStatus p 0 == 0 && !(s.flash.physOf.any fun x => x.2 == p)

/-- The substitute for a fenced slot: of the same die, else of the die with fewest hops, the lowest-numbered die and slot
first (R363). -/
def substituteFor (p : Nat) (s : State) : Option Nat :=
  let key (q : Nat) : Nat := ringHops (p / 48) (q / 48) * 1024 + q
  match freeSubstitutes s with
  | [] => none
  | q :: r => some (r.foldl (fun b x => if key x < key b then x else b) q)

/-- The number of enabled cores in service. -/
def enabledCores (s : State) : Nat := (s.flash.physOf.map Prod.snd).eraseDups.length

/-- A logical number given to a slot, or, with none free, to the enabled core of its channel with the lowest number
(R363, R364); CORE_CAPACITY_LOST is raised then. -/
def reassign (c p : Nat) (s : State) : State :=
  match substituteFor p s with
  | some q => modFlash (fun f => { f with physOf := tset f.physOf c q, rewrites := f.rewrites + 1 }) s
  | none =>
    let mates := ((liveChans s).filter fun x => x.2.cores.contains c).flatMap fun x => x.2.cores
    let mates := sortBy (fun a b => decide (a ≤ b)) (mates.filter fun d => physOf d s != p && (tget? s.flash.physOf d).isSome)
    let s := modFlash (fun f => { f with
      physOf := match mates with
        | d :: _ => tset f.physOf c (physOf d s)
        | [] => tdel f.physOf c
      rewrites := f.rewrites + 1 }) s
    raiseDev 15 (raiseEvent 0x61 [c, p, 0, enabledCores s] s)

/-- Whether a run may be rerun: in a step always; outside one when it wrote only its outputs and no output overlaps an
input (R365). -/
def canRerun (u : Run) (s : State) : Bool :=
  u.step.isSome || (!u.wroteOutside && !(u.ins.any fun a => u.outs.any fun b =>
    piecesMeet (pieces u.slot a.1 a.2 s) (pieces u.slot b.1 b.2 s)))

/-- The streams of a core's discarded operations leave their engines. -/
def dropStreams (c : Nat) (s : State) : State :=
  (coreOf c s).dmas.foldl (fun s o =>
    match o.engine with
    | some e => closeStream e (dmaStream c o.seq) o.len 0 0 s
    | none => s) s

/-- A core's in-flight work discarded (R362). -/
def dropWork (c : Nat) (s : State) : State :=
  modCore c (fun k => { k with dmas := [], narrows := [], disp := [], preds := []
                               tile := { k.tile with fills := [], drains := [], entries := [] } }) (dropStreams c s)

/-- The outputs of a run that cannot be rerun hold no defined value (R365). -/
def spoilOutputs (u : Run) (s : State) : State :=
  u.outs.foldl (fun s r => drawFree r.2 (vaWrite u.slot r.1 (freeBytes r.2 s) s)) s

/-- A run that lost a core: rerun from lesson start, or ended (R160, R365). Its provisional counts are discarded (R202). -/
def rerunRun (u : Run) (s : State) : State :=
  let s := u.cores.foldl (fun s c => dropWork c s) s
  if u.stop.isSome then u.cores.foldl (fun s c => modCore c haltStopped s) s
  else if canRerun u s then
    let v := { u with rerun := true, stats := [], expertCount := [], routeSeq := [], deferred := [], gradSat := false,
                            xposts := u.xposts.map fun x => { x with live := false } }
    beginRun v (modRun u.id (fun _ => v) s)
  else stopRun u.id stRolledBack 0x0601 (BitVec.allOnes 64) (spoilOutputs u s)

/-- A physical slot fenced: marked suspect, its logical numbers passed on, and the runs of their cores rerun. -/
def fenceSlot (c p : Nat) (s : State) : State :=
  let lgs := (s.flash.physOf.filter fun x => x.2 == p).map Prod.fst
  let hit := s.runs.filter fun u => u.begun && u.cores.any fun d => lgs.contains d
  let s := modFlash (fun f => { f with coreStatus := tset f.coreStatus p 1, rewrites := f.rewrites + 1 }) s
  let s := lgs.foldl (fun s d => reassign d p s) s
  let s := raiseEvent 0x60 [c, p, 0, enabledCores s] s
  hit.foldl (fun s u => rerunRun u s) s

/-- A core fenced by a detector; a core in no service, or fenced already, is left alone. -/
def fenceCore (c : Nat) (s : State) : State :=
  match tget? s.flash.physOf c with
  | some p => if tgetD s.flash.coreStatus p 0 == 0 then fenceSlot c p s else s
  | none => s

/-- CORE_FENCE (R363). -/
def execCoreFence (c : Fin 192) (s : State) : Out := .next (fenceCore c s)

/-- Whether a sequencer is held, rather than stuck (R136 to R138, R152). -/
def seqHeld (k : Core) : Bool :=
  k.seq.stall.isSome || k.halting || k.waitPop.isSome || k.waitEv.isSome || k.waitBar.isSome || k.reseed.isSome

/-- SEQUENCER_WATCHDOG (R362): a running sequencer that is not held has issued nothing for 1 ms. -/
def execSequencerWatchdog (c : Fin 192) (s : State) : Out :=
  .next <|
    let k := coreOf c s
    if k.seq.running && !seqHeld k && decide (1000000 ≤ 4 * (s.time.ticks - k.lastIssueTick)) then fenceCore c s else s

end Sys2Proof.Machine
end

