-- ==== Sys2Proof/Machine/Route.lean ====
section
/-!
DEFINITION. Machine/Route.lean: routes over the expected topology (R317, R405), ranks and their holders (R306, R383), egress
queues and their watermarks (R322 to R325), control items and the policing every received item meets (R303, R304, R328,
R329), and links going Down or being held out (R297, R329, R331).
-/

namespace Sys2Proof.Machine

/-! ## Devices, ranks and routes -/

/-- The number of ranks of a group. -/
def groupN (g : Group) : Nat := g.sizeM1 + 1

/-- The identity that holds a rank: its member, or the one it moved to (R383). -/
def rankHolder (g : Group) (r : Nat) : Word :=
  match g.holders.find? fun x => x.1 == r with
  | some x => x.2
  | none => g.members.getD r 0

/-- The rank an identity holds by definition. -/
def rankOf (g : Group) (ident : Word) : Option Nat := g.members.findIdx? fun m => m == ident

/-- The entry of an identity in the topology. -/
def deviceOf (t : Topology) (ident : Word) : Option Nat := t.devices.findIdx? fun d => d.1 == ident

/-- Whether this device's link may carry traffic in plans: Up, its path in contract (R353), and not avoided unless avoided links are
allowed. -/
def linkUsable (avoided : Bool) (l : Nat) (s : State) : Bool :=
  (linkOf l s).state == 3 && !(linkOf l s).far.outOfContract && (avoided || (linkOf l s).avoidedAt.isNone)

/-- The edges out of a device as (its link, the neighbour, the neighbour's link, far), lowest link first. Of this device's own
edges, only those whose link may be used; another device's links are taken as Up (notes/assumptions/21.md). -/
def edgesFrom (t : Topology) (avoided : Bool) (skip : Option Nat) (v : Nat) (s : State) : List (Nat × Nat × Nat × Bool) :=
  let usable (x : Nat × Nat × Nat × Bool) : Bool :=
    let mine := if v == t.self then some x.1 else if x.2.1 == t.self then some x.2.2.1 else none
    match mine with
    | some l => linkUsable avoided l s && skip != some l
    | none => true
  let es := t.edges.filterMap fun e =>
    if e.1 == v then some (e.2.1, e.2.2.1, e.2.2.2.1, e.2.2.2.2)
    else if e.2.2.1 == v then some (e.2.2.2.1, e.1, e.2.1, e.2.2.2.2) else none
  sortBy (fun a b => decide (a.1 ≤ b.1)) (es.filter usable)

/-- Hop counts outward from a frontier, breadth first. -/
def hopsFrom (t : Topology) (avoided : Bool) (skip : Option Nat) (s : State) : Nat → Nat → List Nat → Tbl Nat → Tbl Nat
  | 0, _, _, dist => dist
  | fuel + 1, d, front, dist =>
    let step := front.foldl (fun (p : List Nat × Tbl Nat) v =>
      (edgesFrom t avoided skip v s).foldl (fun p e =>
        if (tget? p.2 e.2.1).isSome then p else (p.1 ++ [e.2.1], tset p.2 e.2.1 (d + 1))) p) ([], dist)
    if step.1.isEmpty then step.2 else hopsFrom t avoided skip s fuel (d + 1) step.1 step.2

/-- The path downhill in hop counts, the lowest link number first. -/
def descend (t : Topology) (avoided : Bool) (skip : Option Nat) (dist : Tbl Nat) (s : State) : Nat → Nat → List (Nat × Nat × Bool)
  | 0, _ => []
  | fuel + 1, v =>
    match tget? dist v with
    | none => []
    | some 0 => []
    | some d =>
      match (edgesFrom t avoided skip v s).find? fun e => tget? dist e.2.1 == some (d - 1) with
      | some e => (v, e.1, e.2.2.2) :: descend t avoided skip dist s fuel e.2.1
      | none => []

/-- The path of fewest hops to a device as (device, link, far), none when it cannot be reached. -/
def pathOver (avoided : Bool) (skip : Option Nat) (ident : Word) (s : State) : Option (List (Nat × Nat × Bool)) :=
  if ident == s.mod.identity then some []
  else match s.flash.topology with
    | none => none
    | some t =>
      match deviceOf t ident with
      | none => none
      | some d =>
        let dist := hopsFrom t avoided skip s t.devices.length 0 [d] [(d, 0)]
        if (tget? dist t.self).isSome then some (descend t avoided skip dist s t.devices.length t.self) else none

/-- The route to a device: an avoided link is used only when nothing else reaches it (Table 17-7). -/
def routeSkip (skip : Option Nat) (ident : Word) (s : State) : Option (List (Nat × Nat × Bool)) :=
  match pathOver false skip ident s with
  | some p => some p
  | none => pathOver true skip ident s

/-- The route to a device. -/
def routeTo (ident : Word) (s : State) : Option (List (Nat × Nat × Bool)) := routeSkip none ident s

/-- This device's link toward a device. -/
def linkTo (ident : Word) (s : State) : Option Nat :=
  match routeTo ident s with
  | some ((_, l, _) :: _) => some l
  | _ => none

/-- Whether a device has been heard of on any route within 1 ms: a link to it is Up, or a segment of its rank has come. -/
def heardOf (w : Word) (s : State) : Bool :=
  (s.links.any fun e => e.2.state == 3 && e.2.partner == w) ||
    s.groups.any fun g => match rankOf g w with
      | some r => (match tget? g.heard r with | some t => decide (nsSince t (mono s) < 1000000) | none => false)
      | none => false

/-- Whether a device is lost to this one: no route reaches it, nothing has come from it for 1 ms, and it has not said that it
was leaving (R381, R399). -/
def deviceLost (w : Word) (s : State) : Bool :=
  w != s.mod.identity && (routeTo w s).isNone && !heardOf w s && !(s.mod.leaving.any fun x => x.1 == w)

/-- The other module of a device's deskmate pair, as the topology declares it. -/
def pairMate (w : Word) (s : State) : Option Word :=
  match s.flash.topology with
  | none => none
  | some t =>
    match deviceOf t w with
    | none => none
    | some d => (t.pairs.findSome? fun p => if p.1 == d then some p.2 else if p.2 == d then some p.1 else none).bind fun m =>
        (t.devices[m]?).map Prod.fst

/-- Whether a group has lost a member for good: one with no deskmate, or both of a pair (Table 14-6, R388). -/
def memberLost (g : Group) (s : State) : Bool :=
  (List.range (groupN g)).any fun r =>
    let w := rankHolder g r
    deviceLost w s && (match pairMate w s with | none => true | some m => deviceLost m s)

/-! ## Egress queues (R322 to R325) -/

/-- Bytes a segment takes on the wire: its header and its data padded to 64. -/
def segBytesOf (n : Nat) : Nat := 64 + ceilDiv n 64 * 64

/-- Bytes in a link's egress queue (EGRESS_OCC). -/
def egressOcc (l : Link) : Nat :=
  sumNat (l.egress.map fun x => segBytesOf x.data.length) + (match l.leaving with | some x => x.2.length | none => 0)

/-- The links that can run in far mode, and their PACE_OUT pins. -/
def farCapable (l : Nat) : Bool := l == 16 || l == 17 || l == 34 || l == 35

/-- HOLD and the PACE_OUT pin of a link brought up to date (R324, R325). -/
def settleHold (l : Nat) (s : State) : State :=
  modLink l (fun x =>
    let o := egressOcc x
    let h := if x.highKib * 1024 ≤ o then true else if o ≤ x.lowKib * 1024 then false else x.hold
    { x with hold := h, pacePin := h && farCapable l && x.farActive && x.state == 3 }) s

/-- The sorter's order: promise, then higher PRIO, then earlier admission (R322). -/
def sortsBefore (a b : OutSeg) : Bool :=
  decide (a.promise.toNat < b.promise.toNat) || (a.promise == b.promise &&
    (decide (b.prio < a.prio) || (a.prio == b.prio && decide (a.order < b.order))))

/-- A segment inserted into a sorted queue behind its equals. -/
def insertSeg (x : OutSeg) : List OutSeg → List OutSeg
  | [] => [x]
  | y :: r => if sortsBefore x y then x :: y :: r else y :: insertSeg x r

/-- A segment queued on a link; a fenced sorter appends it (R323). -/
def enqueueSeg (l : Nat) (x : OutSeg) (s : State) : State :=
  settleHold l (modLink l (fun k => { k with egress := if k.sorterFenced then k.egress ++ [x] else insertSeg x k.egress }) s)

/-! ## Control items (R304, R305) -/

/-- A control item of this device; its tag, nonce and key slot are set as it leaves. -/
def mkItem (kind extra : Nat) (w1 w2 w3 w4 w5 : Word) : Item :=
  { w0 := BitVec.ofNat 64 (4 + kind * 16 + extra), w1 := w1, w2 := w2, w3 := w3, w4 := w4, w5 := w5, tag := 0, nonce := 0
    keyId := false }

/-- A control item queued on a link. -/
def sendItem (l : Nat) (it : Item) (s : State) : State := modLink l (fun k => { k with control := k.control ++ [it] }) s

/-- A control item sent toward a device; none reaches one that cannot be reached. -/
def sendTo (ident : Word) (it : Item) (s : State) : State :=
  match linkTo ident s with
  | some l => sendItem l it s
  | none => s

/-- A control item sent to every other member of a group. -/
def sendAll (g : Group) (it : Item) (s : State) : State :=
  ((List.range (groupN g)).map (rankHolder g)).eraseDups.foldl (fun s m => if m == s.mod.identity then s else sendTo m it s) s

/-- The topology's device at the other end of one of this device's links. -/
def neighbourOf (t : Topology) (l : Nat) : Option Nat :=
  t.edges.findSome? fun e =>
    if e.1 == t.self && e.2.1 == l then some e.2.2.1 else if e.2.2.1 == t.self && e.2.2.2.1 == l then some e.1 else none

/-- Whether the route from the device at the other end of a link to another device passes through this one. -/
def routedThrough (l : Nat) (ident : Word) (s : State) : Bool :=
  match s.flash.topology with
  | none => false
  | some t =>
    match neighbourOf t l, deviceOf t ident with
    | some v, some d =>
      let dist := hopsFrom t true none s t.devices.length 0 [d] [(d, 0)]
      match tget? dist v with
      | none => false
      | some h => match (edgesFrom t true none v s).find? fun e => tget? dist e.2.1 == some (h - 1) with
        | some e => h != 0 && e.2.1 == t.self && e.2.2.1 == l
        | none => false
    | _, _ => false

/-- A notice to the members of a group sent on to those whose route from the link it came by passes through this device
(R317; control items name no destination, notes/assumptions/36.md). -/
def sendBeyond (l : Nat) (g : Group) (it : Item) (s : State) : State :=
  ((((List.range (groupN g)).map (rankHolder g)).eraseDups.filter fun m => m != s.mod.identity && routedThrough l m s).filterMap
    fun m => linkTo m s).eraseDups.foldl (fun s k => sendItem k it s) s

/-- The KIND of a control item. -/
def itemKind (it : Item) : Nat := fieldNat it.w0 4 8

/-! ## Links going Down (R297, R331) -/

/-- The far links a pen pal's traffic may leave by (R334), that can carry it now. -/
def palFarLinks (p : Pal) (s : State) : List Nat :=
  ([(0, 16), (1, 17), (2, 34), (3, 35)].filter fun x => p.farLinks.getLsbD x.1 && linkUsable true x.2 s).map Prod.snd

/-- This device's link toward a pen pal: the first of FAR_LINKS, or the route of the topology when it names none. -/
def palLink (p : Pal) (s : State) : Option Nat := if p.farLinks != 0 then (palFarLinks p s).head? else linkTo p.partner s

/-- The pen pal of a region's site. -/
def sitePal (x : Region) (j : Nat) (s : State) : Option Pal := palOf (x.pals.getD j 0) s

/-- The link toward a segment's destination: for a difference, that of the pen pal at its site, a pass's ROOT holding the
region. -/
def segLink (x : OutSeg) (s : State) : Option Nat :=
  if x.coll == 5 then ((passOf (x.pass - 1) s).bind fun p => regionOf p.root s).bind fun y => (sitePal y x.dstRank s).bind fun p => palLink p s
  else if x.coll == 6 then s.mate.partner.bind fun m => linkTo m s
  else (groupOf x.group s).bind fun g => linkTo (rankHolder g x.dstRank) s

/-- A segment that loses its link goes to the next route; with no route it waits on its link. -/
def rerouteSeg (l : Nat) (x : OutSeg) (s : State) : State :=
  match segLink x s with
  | some k =>
    enqueueSeg k x (if x.pass == 0 then s else modPass (x.pass - 1) (fun p => { p with
      rerouted := true, links := if p.links.contains k then p.links else p.links ++ [k] }) s)
  | none => modLink l (fun k => { k with egress := k.egress ++ [x] }) s

/-- Every segment that a link has not sent, or whose acknowledgment it still waits for, rerouted (R331). -/
def rerouteLink (l : Nat) (s : State) : State :=
  let k := linkOf l s
  let xs := k.unacked.map Prod.fst ++ (match k.leaving with | some x => [x.1] | none => []) ++ k.egress
  let s := modLink l (fun k => { k with egress := [], leaving := none, unacked := [] }) s
  xs.foldl (fun s x => rerouteSeg l x s) s

/-- Lanes that run on a link. -/
def lanesLeft (l : Nat) (s : State) : Nat := laneCount (linkOf l s)

/-- Passes that could leave by this link alone become late under Table 12-7. -/
def notePasses (l : Nat) (s : State) : State :=
  { s with passes := s.passes.map fun p =>
      if p.admitted && p.links == [l] then { p with late := some (p.late.getD 6) } else p }

/-- What a link drops when it stops carrying frames: frames, retry and receive state, agreement and roll call; a far link's
two buffers of 512 frames each go back to free memory (R350). -/
def stopFrames (l : Nat) (s : State) : State :=
  let s := if (linkOf l s).far.reserved then modMemory (fun m => { m with privateFrames := m.privateFrames - 1024 }) s else s
  modLink l (fun k => { k with
    farActive := false, retry := [], resend := [], rxBad := false, nakDue := false, retrainUntil := none, rxData := []
    creditZeroSince := none, kex := none, kexRetryAt := none, rollReady := false, rollItem := none
    far := { k.far with
      retransmit := [], rxStripes := [], resent := [], txShard := 0, txBody := [], repairQ := [], sentAgain := [], reserved := false, keyNext := none } }) s

/-- A link to Down (R297): LINK_DOWN is raised, frames and retry state go, segments are rerouted. -/
def linkDown (l : Nat) (s : State) : State :=
  let s := raiseLink l 1 (raiseEvent 0x41 [l, lanesLeft l s] s)
  let s := modLink l (fun k => { k with state := 0, lanes := 0, downAt := mono s, rollJudged := false, proved := 0 }) (stopFrames l s)
  settleHold l (rerouteLink l (notePasses l s))

/-! ## Policing (R328, R329) -/

/-- A partner held out (R329): 1 s, doubled on each repeat within 60 s, up to 64 s. `check` is its row of Table 12-12. -/
def holdOut (l check : Nat) (s : State) : State :=
  let k := linkOf l s
  let again := k.holdOutS != 0 && decide (nsSince k.holdOutAt (mono s) ≤ 60000000000)
  let secs := if again then min 64 (2 * k.holdOutS) else 1
  let s := raiseLink l 2 (raiseEvent 0x42 [l, k.partner.toNat, check, secs] s)
  let s := modLink l (fun k => { k with
    state := 4, holdOutS := secs, holdOutAt := mono s }) (stopFrames l s)
  settleHold l (rerouteLink l (notePasses l s))

/-- The times within the last `ns` of a list of times, and now. -/
def recent (ns : Nat) (ts : List Word) (s : State) : List Word := ts.filter (fun t => decide (nsSince t (mono s) ≤ ns)) ++ [mono s]

/-- The IV of an item: the direction constant, then NONCE_CTR (R303). -/
def itemIv (const : W32) (nonce : Word) : List Byte := leBytes 4 const.toNat ++ wordBytes nonce

/-- The authenticated words of an item (R303, R304). -/
def itemAad (it : Item) : List Byte :=
  wordBytes it.w0 ++ wordBytes it.w1 ++ wordBytes it.w2 ++ wordBytes it.w3 ++ wordBytes it.w4 ++ wordBytes it.w5

/-- A key slot's index. -/
def slotIx (b : Bool) : Nat := if b then 1 else 0

/-- The bytes of a key. -/
def keyBytes (k : BitVec 256) : List Byte := leBytes 32 k.toNat

/-- Whether a received item's tag verifies under the receive key of its slot. -/
def tagOk (k : Link) (keyId : Bool) (nonce : Word) (aad ct : List Byte) (tag : BitVec 128) : Bool :=
  let s := vget k.rxKeys (slotIx keyId) {}
  s.valid && gcmTag (keyBytes s.key) (itemIv s.const nonce) aad ct == tag

/-- A tag that fails: the item is discarded, and the fourth within a second holds the partner out. -/
def tagFailure (l : Nat) (s : State) : State :=
  let ts := recent 1000000000 (linkOf l s).tagFails s
  let s := modLink l (fun k => { k with tagFails := ts }) s
  if 4 ≤ ts.length then holdOut l 0 (modLink l (fun k => { k with tagFails := [] }) s) else s

/-- An item whose NONCE_CTR does not rise: REPLAY is raised and the partner is held out at once. -/
def replayFailure (l : Nat) (s : State) : State := holdOut l 1 (raiseLink l 5 s)

/-- An item that is not well formed: DECODE_REJECT is raised, and the third within a second holds the partner out. -/
def formFailure (l : Nat) (s : State) : State :=
  let ts := recent 1000000000 (linkOf l s).formFails s
  let s := raiseLink l 6 (modLink l (fun k => { k with formFails := ts }) s)
  if 3 ≤ ts.length then holdOut l 3 (modLink l (fun k => { k with formFails := [] }) s) else s

/-- Whether a nonce is above the last accepted in its slot. -/
def nonceFresh (k : Link) (keyId : Bool) (nonce : Word) : Bool :=
  match vget k.rxNonce (slotIx keyId) none with
  | some n => decide (n.toNat < nonce.toNat)
  | none => true

/-- A nonce accepted. -/
def takeNonce (l : Nat) (keyId : Bool) (nonce : Word) (s : State) : State :=
  modLink l (fun k => { k with rxNonce := vset k.rxNonce (slotIx keyId) (some nonce) }) s

/-- Whether a kind is one of key agreement (Table 16-5). -/
def isKexKind (kind : Nat) : Bool := decide (0x24 ≤ kind) && decide (kind ≤ 0x27)

/-- Whether a link takes control items in its state: all when Up, KEY_READY and roll call while Held out, key agreement and roll
call while Authenticating (Table 12-2, R295, R407, R424). -/
def itemAllowed (state kind : Nat) : Bool :=
  state == 3 || (state == 4 && (kind == 4 || kind == 0x30 || kind == 0x31)) || (state == 2 && (kind == 0x30 || isKexKind kind))

/-- A control item as received: policed, then acted on (R304, R328). Agreement items that come before any key carry no tag
(R424). -/
def withItem (l : Nat) (it : Item) (kind : Nat) (act : State → State) (s : State) : State :=
  let k := linkOf l s
  if fieldNat it.w0 0 4 != 4 || itemKind it != kind || !itemAllowed k.state kind then s
  else if isKexKind kind && !(vget k.rxKeys 0 {}).valid && !(vget k.rxKeys 1 {}).valid then act s
  else if !tagOk k it.keyId it.nonce (itemAad it) [] it.tag then tagFailure l s
  else if !nonceFresh k it.keyId it.nonce then replayFailure l s
  else act (takeNonce l it.keyId it.nonce s)

end Sys2Proof.Machine
end

