-- ==== Sys2Proof/Machine/Plan.lean ====
section
/-!
DEFINITION. Machine/Plan.lean: what a collective moves (R302, R308 to R310): shares, the holders of the rank tree, the
segments a member sends and expects, the values of tree nodes, and the bytes of each segment.
-/

namespace Sys2Proof.Machine

/-! ## Shares and holders (R308, R309) -/

/-- The rounded-up logarithm to base 2. -/
def clog2 (n : Nat) : Nat := if n ≤ 1 then 0 else Nat.log2 (n - 1) + 1

/-- Bytes of an element of a format that a collective reduces. -/
def fmtBytes (fmt : Nat) : Nat := elemBits fmt / 8

/-- Whether a collective reduces. -/
def reduces (p : Pass) : Bool := decide (p.coll ≤ 1)

/-- The elements of a reducing collective. -/
def passElems (p : Pass) : Nat := p.length / fmtBytes p.fmt

/-- The first element of a rank's share. -/
def shareLo (p : Pass) (n r : Nat) : Nat := r * passElems p / n

/-- The elements in a rank's share. -/
def shareLen (p : Pass) (n r : Nat) : Nat := shareLo p n (r + 1) - shareLo p n r

/-- The rank that owns an element. -/
def elemOwner (p : Pass) (n e : Nat) : Nat := ((e + 1) * n - 1) / passElems p

/-- The levels L1, L2, ... at which the stages of a group end, the last being the first to cover every rank. -/
def stagesFrom (n : Nat) : Nat → List Nat → List Nat
  | l, [] => if n ≤ 2 ^ l && l != 0 then [] else [max l (clog2 n)]
  | l, d :: ds => if n ≤ 2 ^ (l + d) then [l + d] else (l + d) :: stagesFrom n (l + d) ds

/-- The stage levels of a group under the domains its topology image declares. -/
def stageLevels (g : Group) (s : State) : List Nat :=
  let ds := match s.flash.topology with
    | some t => ((t.domains.find? fun d => d.1 == g.id).map Prod.snd).getD []
    | none => []
  stagesFrom (groupN g) 0 ds

/-- The holder, at a stage ending at level `l`, of the subtree that contains rank `r`, for an element of owner `o`. -/
def holderAt (n l o r : Nat) : Nat :=
  let base := r / 2 ^ l * 2 ^ l
  let h := base + o % 2 ^ l
  if h < n then h else min (n - 1) (base + 2 ^ l - 1)

/-! ## The segments a member sends -/

/-- A segment of a plan: destination rank, LEVEL, and the first element and count, in bytes for a collective that does not
reduce. A destination that is this member's own rank is a delivery to DST. -/
abbrev PlanSeg := Nat × Nat × Nat × Nat

/-- A range cut into pieces. -/
def cutFrom (per : Nat) : Nat → Nat → Nat → List (Nat × Nat)
  | 0, _, _ => []
  | k + 1, lo, n => if n == 0 then [] else (lo, min per n) :: cutFrom per k (lo + min per n) (n - min per n)

/-- A range cut into pieces of at most `per`. -/
def cutRange (per lo n : Nat) : List (Nat × Nat) := cutFrom per (ceilDiv n (max 1 per)) lo n

/-- Bytes of one element as it travels at a LEVEL: FMT, or FP32 for tree results; integers keep their width. -/
def levelBytes (p : Pass) (level : Nat) : Nat :=
  if reduces p then (if level == 0 || level == 15 then fmtBytes p.fmt else if fmtInt p.fmt then fmtBytes p.fmt else 4) else 1

/-- The largest count of one segment. -/
def levelPer (p : Pass) (level : Nat) : Nat :=
  if reduces p then 65536 / levelBytes p level else 65536 / max 1 (unitBytes p.fmt) * max 1 (unitBytes p.fmt)

/-- The segments that carry a range of elements. -/
def segsTo (p : Pass) (dst level lo n : Nat) : List PlanSeg := (cutRange (levelPer p level) lo n).map fun x => (dst, level, x.1, x.2)

/-- The results of a stage that a member holds and sends on. -/
def stageSegs (p : Pass) (n me : Nat) : List Nat → List PlanSeg
  | a :: b :: r =>
    ((List.range n).flatMap fun o =>
      if holderAt n a o me == me && holderAt n b o me != me then segsTo p (holderAt n b o me) a (shareLo p n o) (shareLen p n o)
      else []) ++ stageSegs p n me (b :: r)
  | _ => []

/-- Every segment of a member's plan, in segment-number order. -/
def planOf (p : Pass) (g : Group) (s : State) : List PlanSeg :=
  let n := groupN g
  let me := g.rank
  let others := (List.range n).filter fun r => r != me
  let blk := p.length / n
  if p.round.isSome then []
  else if reduces p then
    let ls := stageLevels g s
    let l1 := ls.headD 0
    ((List.range n).flatMap fun o =>
      if holderAt n l1 o me != me then segsTo p (holderAt n l1 o me) 0 (shareLo p n o) (shareLen p n o) else [])
    ++ stageSegs p n me ls
    ++ (if p.coll == 0 then others.flatMap fun r => segsTo p r 15 (shareLo p n me) (shareLen p n me) else [])
    ++ (if p.fuse then [] else segsTo p me 15 (shareLo p n me) (shareLen p n me))
  else if p.coll == 2 then others.flatMap fun r => segsTo p r 15 0 p.length
  else if p.coll == 3 then others.flatMap fun r => segsTo p r 15 (r * blk) blk
  else if p.root == me then others.flatMap fun r => segsTo p r 15 0 p.length
  else []

/-- The bytes a plan segment carries. -/
def segLen (p : Pass) (x : PlanSeg) : Nat := x.2.2.2 * levelBytes p x.2.1

/-- The ELEMENT field of a plan segment (R302): the first element carried, counted in the destination's block for an
all-to-all, in bytes for raw data. -/
def segElement (p : Pass) (n : Nat) (x : PlanSeg) : Nat :=
  if reduces p then x.2.2.1
  else
    let off := if p.coll == 3 then x.2.2.1 - x.1 * (p.length / n) else x.2.2.1
    if p.fmt == 0 then off else off / unitBytes p.fmt * unitElems p.fmt

/-- The segments of a plan that leave the device, with their numbers. -/
def outSegs (p : Pass) (g : Group) (s : State) : List (PlanSeg × Nat) :=
  (planOf p g s).zipIdx.filter fun x => x.1.1 != g.rank && rankHolder g x.1.1 != s.mod.identity

/-- The bytes due to a member's DST (Table 12-6). -/
def dueBytes (p : Pass) (g : Group) : Nat :=
  let n := groupN g
  match p.coll with
  | 0 => p.length
  | 1 => if p.fuse then 0 else shareLen p n g.rank * fmtBytes p.fmt
  | 2 => n * p.length
  | _ => p.length

/-! ## Tree values (R209, R309, R310) -/

/-- A leaf value: an FP32 code, or the bits of an integer. -/
def leafVal (fmt code : Nat) : Word :=
  if fmtInt fmt then BitVec.ofNat 64 code else BitVec.ofNat 64 (roundArith 0x01 (decodeCode fmt code)).1

/-- A signed integer of a width. -/
def intVal (w : Nat) (x : Word) : Int := let v := x.toNat % 2 ^ w; if 2 ^ (w - 1) ≤ v then (v : Int) - 2 ^ w else v

/-- Left child with right child: one FP32 rounding for a sum, wrapping for integers, exact for MAX and MIN. -/
def combineVals (fmt op : Nat) (a b : Word) : Word × BitVec 7 :=
  if fmtInt fmt then
    let w := elemBits fmt
    match op with
    | 0 => (BitVec.ofNat 64 ((a.toNat + b.toNat) % 2 ^ w), 0)
    | 1 => (if intVal w a < intVal w b then b else a, 0)
    | _ => (if intVal w b < intVal w a then b else a, 0)
  else
    let x := decodeCode 0x01 (a.toNat % 2 ^ 32)
    let y := decodeCode 0x01 (b.toNat % 2 ^ 32)
    let r := match op with
      | 0 => addOp 0x01 x y
      | 1 => roundArith 0x01 (maxFp x y)
      | _ => roundArith 0x01 (minFp x y)
    (BitVec.ofNat 64 r.1, r.2)

/-- A value held for a node. -/
def heldVal (p : Pass) (e l i : Nat) : Option Word :=
  (p.nodes.find? fun v => v.elem == e && v.level == l && v.node == i).map fun v => v.val

/-- Left and right child of a node: an empty child's sibling passes up unchanged. -/
def joinVals (p : Pass) : Option (Word × BitVec 7) → Option (Word × BitVec 7) → Option (Word × BitVec 7)
  | none, b => b
  | a, none => a
  | some a, some b =>
    let r := combineVals p.fmt p.op a.1 b.1
    some (r.1, a.2 ||| b.2 ||| r.2)

/-- The value of a node of the tree over `n` ranks, `empty` of them absent (R384): none while a value below it is still to
come; an unpaired node passes up unchanged. -/
def nodeVal (p : Pass) (empty : List Nat) (n e : Nat) : Nat → Nat → Option (Option (Word × BitVec 7))
  | 0, i => match heldVal p e 0 i with
    | some v => some (some (v, 0))
    | none => if empty.contains i || n ≤ i then some none else none
  | l + 1, i =>
    match heldVal p e (l + 1) i with
    | some v => some (some (v, 0))
    | none =>
      match nodeVal p empty n e l (2 * i), nodeVal p empty n e l (2 * i + 1) with
      | some a, some b => some (joinVals p a b)
      | _, _ => none

/-- A reduced element. -/
def rootVal (p : Pass) (g : Group) (e : Nat) : Option (Word × BitVec 7) :=
  (nodeVal p g.absent (groupN g) e (clog2 (groupN g)) 0).bind id

/-- A reduced element converted to FMT by its owner (R65, R310): its code and flags. -/
def deliverVal (p : Pass) (g : Group) (ieee : Bool) (e : Nat) : Option (Nat × BitVec 7) :=
  (rootVal p g e).map fun v =>
    if fmtInt p.fmt then (v.1.toNat, v.2)
    else
      let r := encodeElem p.fmt (0, 8, false, ieee) 0 (decodeCode 0x01 (v.1.toNat % 2 ^ 32))
      (r.1, v.2 ||| r.2)

/-- All of a list, or none when one is missing. -/
def allSome {α : Type} : List (Option α) → Option (List α)
  | [] => some []
  | none :: _ => none
  | some x :: r => (allSome r).map fun t => x :: t

/-- The data of a plan segment, once it is complete. -/
def segData (p : Pass) (g : Group) (ieee : Bool) (x : PlanSeg) : Option (List Byte) :=
  let es := (List.range x.2.2.2).map fun i => x.2.2.1 + i
  if !reduces p then some ((p.srcData.drop x.2.2.1).take x.2.2.2)
  else if x.2.1 == 0 then some ((p.srcData.drop (x.2.2.1 * fmtBytes p.fmt)).take (x.2.2.2 * fmtBytes p.fmt))
  else if x.2.1 == 15 then (allSome (es.map fun e => deliverVal p g ieee e)).map fun vs => vs.flatMap fun v => leBytes (fmtBytes p.fmt) v.1
  else (allSome (es.map fun e => (nodeVal p g.absent (groupN g) e x.2.1 (g.rank / 2 ^ x.2.1)).bind id)).map fun vs =>
    vs.flatMap fun v => leBytes (levelBytes p x.2.1) v.1.toNat

/-- FP16_IEEE of a pass's channel (R65). -/
def passIeee (p : Pass) (s : State) : Bool := ((chanOf p.slot s).map fun c => c.fp16Ieee).getD false

/-! ## What a member expects -/

/-- Whether a member expects an element from a rank at a LEVEL. -/
def expectsElem (p : Pass) (g : Group) (s : State) (level src e : Nat) : Bool :=
  let n := groupN g
  let me := g.rank
  let o := elemOwner p n e
  let ls := stageLevels g s
  if level == 15 then p.coll == 0 && o == src && src != me
  else if level == 0 then holderAt n (ls.headD 0) o src == me && src != me
  else match ls.findIdx? fun l => l == level with
    | some k => src % 2 ^ level == 0 && (match ls[k + 1]? with
        | some b => holderAt n b o src == me && holderAt n level o src != me
        | none => false)
    | none => false

/-- The bytes of a collective that does not reduce that a member expects from a rank. -/
def expectsRaw (p : Pass) (g : Group) (src : Nat) : Nat :=
  if src == g.rank then 0
  else match p.coll with
    | 2 => p.length
    | 3 => p.length / groupN g
    | _ => if p.root == src then p.length else 0

/-- Where the bytes of a received segment begin, from its ELEMENT. -/
def rawOffset (p : Pass) (element : Nat) : Nat := if p.fmt == 0 then element else element / unitElems p.fmt * unitBytes p.fmt

/-- Whether `len` bytes from ELEMENT at a LEVEL from a rank lie within what a member expects of it. -/
def expectsSeg (p : Pass) (g : Group) (s : State) (level src element len : Nat) : Bool :=
  if reduces p then
    let w := levelBytes p level
    len % w == 0 && decide (element + len / w ≤ passElems p) && (List.range (len / w)).all fun i => expectsElem p g s level src (element + i)
  else level == 15 && decide (rawOffset p element + len ≤ expectsRaw p g src)

/-- The bytes a member receives in a pass, for parking and the memory bound (R317). -/
def recvTotal (p : Pass) (g : Group) (s : State) : Nat :=
  let n := groupN g
  let me := g.rank
  let ls := stageLevels g s
  let others := (List.range n).filter fun r => r != me
  if reduces p then
    let lv (src o level : Nat) : Nat :=
      if shareLen p n o != 0 && expectsElem p g s level src (shareLo p n o) then shareLen p n o * levelBytes p level else 0
    sumNat ((0 :: ls).flatMap fun level => others.flatMap fun src => (List.range n).map fun o => lv src o level)
      + (if p.coll == 0 then sumNat (others.map fun r => shareLen p n r * fmtBytes p.fmt) else 0)
  else sumNat (others.map fun r => expectsRaw p g r)

/-- This member's own contributions at the nodes it holds itself. -/
def ownNodes (p : Pass) (g : Group) (s : State) : List NodeVal :=
  if !reduces p then []
  else
    let n := groupN g
    let l1 := (stageLevels g s).headD 0
    ((chunks (fmtBytes p.fmt) p.srcData).zipIdx.filter fun x => holderAt n l1 (elemOwner p n x.2) g.rank == g.rank).map fun x =>
      { elem := x.2, level := 0, node := g.rank, val := leafVal p.fmt (leNat x.1) }

/-- The values a segment of a reducing collective carries. -/
def segVals (p : Pass) (level src element : Nat) (data : List Byte) (t : Word) : List NodeVal :=
  (chunks (levelBytes p level) data).zipIdx.map fun x =>
    { elem := element + x.2, level := level, node := src / 2 ^ level, since := t
      val := if level == 0 then leafVal p.fmt (leNat x.1) else BitVec.ofNat 64 (leNat x.1) }

end Sys2Proof.Machine
end

