-- ==== Sys2Proof/Machine/Passes.lean ====
section
/-!
DEFINITION. Machine/Passes.lean: hall passes from their admission to their final status: the timetable instructions that
carry them (R155), the segments and notices that arrive (R302 to R311, R328), and how a pass ends (R311 to R313, R326).
-/

namespace Sys2Proof.Machine

/-! ## The answers of XPOST (R153, R160) -/

/-- What an XPOST's core receives: the status and RESULT0 when admission decides, with TA; TF at the final status. -/
def answerPost (x : XpostRec) (first final : Bool) (status : BitVec 8) (result0 : Word) (k : Core) : Core :=
  let k := if first then
      { k with seq := setTok x.ta true (setS (x.sd + 1) result0 (setS x.sd (BitVec.ofNat 64 status.toNat) k.seq))
               disp := k.disp.filter fun o => o.xpost != some x.desc }
    else k
  if final then { k with seq := setTok x.tf true k.seq } else k

/-- The answer to an XPOST reaches its run: `first` when admission decides, `final` at the final status. -/
def answerXpost (desc : Nat) (first final : Bool) (status : BitVec 8) (result0 : Word) (s : State) : State :=
  match s.runs.find? fun u => u.xposts.any fun x => x.desc == desc with
  | none => s
  | some u =>
    match u.xposts.find? fun x => x.desc == desc with
    | none => s
    | some x =>
      let s := modRun u.id (fun v => { v with xposts := mapIf (fun y => y.desc == desc) (fun y =>
        { y with answer := if first then some (status.toNat, result0) else y.answer, final := y.final || final }) v.xposts }) s
      if x.live && u.begun && (coreOf x.core s).run == some u.id then
        settleCore x.core (modCore x.core (answerPost x first final status result0) s)
      else s

/-! ## The end of a pass -/

/-- A VOID item of a collective (Table 12-5). -/
def voidItem (group ordinal : Nat) (t : Word) (status : BitVec 8) (detail : BitVec 16) : Item :=
  mkItem 0x02 0 (BitVec.ofNat 64 group) (BitVec.ofNat 64 ordinal) t (BitVec.ofNat 64 (status.toNat + detail.toNat * 2 ^ 16)) 0

/-- VOID sent to every other member of a group (R307). -/
def sendVoid (p : Pass) (status : BitVec 8) (detail : BitVec 16) (s : State) : State :=
  if p.round.isSome then s
  else match groupOf p.group s with
  | some g => sendAll g (voidItem p.group p.ordinal (now s) status detail) s
  | none => s

/-- The binding a fused pass delivers to, with the first and the number of its units: stripes, or blocks under rules 4 and
5 (R224). The destination must be whole parameters inside it. -/
def fusedUnits (slot group dst n : Nat) (s : State) : Option (Binding × Nat × Nat) :=
  (s.nmu.bindings.find? fun b => b.slot == slot && b.group == group && decide (b.base ≤ dst)
    && (dst - b.base) % fmtBytes b.fmt == 0 && decide ((dst - b.base) / fmtBytes b.fmt + n ≤ b.count)).map fun b =>
    let first := (dst - b.base) / fmtBytes b.fmt
    let per := if isBlockRule b.rule then 16384 else 1024
    (b, first / per, if n == 0 then 0 else (first + n - 1) / per - first / per + 1)

/-- The binding and units of an admitted fused pass. -/
def passUnits (p : Pass) (s : State) : Option (Binding × Nat × Nat) :=
  (groupOf p.group s).bind fun g => fusedUnits p.slot p.group p.dst (shareLen p (groupN g) g.rank) s

/-- The staging a pass still holds in its tiered binding is freed (R243). -/
def releaseStaging (p : Pass) (s : State) : State :=
  if p.staging == 0 then s
  else match passUnits p s with
    | none => s
    | some (b, _, _) => modBinding b.num (fun b => { b with stageUsed := b.stageUsed - p.staging }) s

/-- A pass leaves the hall-pass table: its parking, its staging and its queued segments go with it. -/
def dropPass (p : Pass) (s : State) : State :=
  let s := { s with passes := s.passes.filter fun q => q.id != p.id }
  let s := modMemory (fun m => { m with privateFrames := m.privateFrames - p.parkFrames }) (releaseStaging p s)
  { s with links := s.links.map fun l => (l.1, { l.2 with egress := l.2.egress.filter fun x => x.pass != p.id + 1 }) }

/-- The card's counts of a pass that ends (Table 17-3). -/
def cardPass (p : Pass) (late : Bool) (s : State) : State :=
  orCard 9 (p.flags.toNat * 2 ^ 16) (countCard 11 (1 + (if late then 2 ^ 32 else 0)) s)

/-- A pass's destination holds no defined value (R306, R307). -/
def spoilDst (p : Pass) (s : State) : State :=
  match groupOf p.group s with
  | some g => drawFree (dueBytes p g) (vaWrite p.slot p.dst (freeBytes (dueBytes p g) s) s)
  | none => s

/-- Table 12-7's late end recorded (R313). -/
def noteLate (p : Pass) (s : State) : State :=
  raiseEvent 0x43 [p.tag.toNat, p.late.getD 0, p.lateRank, nsSince p.promise (now s)] s

/-- A fused pass that ends for the group's step: refused after ADMITTED it applied no unit and counts no more (R226, R307);
void, its step rolls back as a fault. -/
def endFused (p : Pass) (status : BitVec 8) (s : State) : State :=
  if !p.fuse then s
  else modGroup p.group (fun g => { g with
    stepPasses := match passUnits p s with
      | some (b, q, n) =>
        if status == stMalformed || status == stCapacity || status == stDeadline then g.stepPasses.erase (b.num, q, n) else g.stepPasses
      | none => g.stepPasses
    faultedPass := g.faultedPass || ((status == stVoidPath || status == stFlushed) && g.open'.isSome && g.open' == p.step)
    lastPassEnd := some (now s) }) s

/-- An admitted pass ends without its data: voided, refused after ADMITTED, or rolled back. -/
def voidPass (p : Pass) (status : BitVec 8) (detail : BitVec 16) (result0 : Word) (s : State) : State :=
  let s := spoilDst p (endFused p status (cardPass p false (dropPass p s)))
  let s := if detail == 0x0403 || status == stDeadline || status == stCapacity || status == stMalformed then
      modGroup p.group (fun g => { g with refused := g.refused ++ [p.ordinal] }) s else s
  match descOf p.desc s with
  | some r => answerXpost p.desc false true status result0 (finish r status detail result0 s)
  | none => s

/-- The most recent completion of a descriptor. -/
def lastCompl (slot : Nat) (tag : Word) (s : State) : Option Compl :=
  let own := match chanOf slot s with | some c => c.waiting | none => []
  let admin := [0, 1].flatMap fun i => match chanOf i s with | some c => c.waiting | none => []
  ((s.portA.stale ++ s.portB.stale ++ admin ++ own).reverse).find? fun c => c.tag == tag && c.headSlot == slot

/-- A pass that was refused before its admission: VOID goes to every member, an XPOST receives its answer, and the ordinal is
noted (R307). -/
def settleRefused (p : Pass) (s : State) : State :=
  let c := lastCompl p.slot p.tag s
  let st := (c.map fun c => c.status).getD stGone
  let s := sendVoid p st ((c.map fun c => c.detail).getD 0) { s with passes := s.passes.filter fun q => q.id != p.id }
  let s := modGroup p.group (fun g => { g with
    refused := g.refused ++ [p.ordinal]
    early := g.early.filter fun x => x.w1.toNat != p.ordinal }) s
  answerXpost p.desc true true st ((c.map fun c => c.result0).getD 0) s

/-- Every pass whose descriptor has ended before its admission settled. -/
def settlePasses (s : State) : State :=
  (s.passes.filter fun p => !p.admitted && p.round.isNone && (descOf p.desc s).isNone).foldl (fun s p => settleRefused p s) s

/-! ## Sending (R155, R302, R321) -/

/-- The pass a hall-pass number names. -/
def passNumber (n : Nat) (s : State) : Option Pass := s.passes.find? fun p => p.admitted && p.id % 16384 == n

/-- This device's link toward a rank. -/
def linkToRank (g : Group) (r : Nat) (s : State) : Option Nat := linkTo (rankHolder g r) s

/-- A plan segment as it waits in an egress queue. -/
def outSegOf (p : Pass) (g : Group) (x : PlanSeg) (num : Nat) (coded : Bool) (data : List Byte) : OutSeg :=
  let c := coded && decide (maxStored data.length ≤ 65536)
  { pass := p.id + 1, num := num, promise := p.promise, prio := p.prio, order := p.order, coll := p.coll, group := p.group
    level := x.2.1, ordinal := BitVec.ofNat 64 p.ordinal, element := segElement p (groupN g) x, sig := p.sig
    srcRank := if x.2.1 == 0 || x.2.1 == 15 then g.rank else g.rank / 2 ^ x.2.1 * 2 ^ x.2.1, dstRank := x.1
    postUs := p.postedAt.toNat / 1024 % 2 ^ 36, coded := c, data := if c then streamItems 16 data else data }

/-- A plan segment queued on a link. -/
def queueSeg (p : Pass) (g : Group) (x : PlanSeg) (num l : Nat) (coded : Bool) (data : List Byte) (s : State) : State :=
  enqueueSeg l (outSegOf p g x num coded data) (modPass p.id (fun q => { q with
    queued := if q.queued.contains num then q.queued else q.queued ++ [num] }) s)

/-- A member's own share of an unfused reduction delivered to DST, with its flags (R310). -/
def deliverShare (p : Pass) (g : Group) (x : PlanSeg) (num : Nat) (data : List Byte) (s : State) : State :=
  let w := fmtBytes p.fmt
  let off := if p.coll == 0 then x.2.2.1 else x.2.2.1 - shareLo p (groupN g) g.rank
  let fs := (List.range x.2.2.2).map fun i => (((deliverVal p g (passIeee p s) (x.2.2.1 + i)).map Prod.snd).getD 0)
  let first := (fs.findIdx? flagged).map fun i => x.2.2.1 + i
  modPass p.id (fun q => { q with
      queued := q.queued ++ [num], written := q.written + data.length, flags := q.flags ||| orFlags fs
      firstFlag := match q.firstFlag, first with
        | some a, some b => some (min a b)
        | none, y => y
        | y, none => y })
    (vaStore p.slot (p.dst + off * w) data s)

/-- The fields of a LINK word: hall-pass number, segment number, link and token. -/
def lwPass (l : Fin 36) (w : Word) (s : State) : Nat := fieldNat (sreg (seqOf (.link l) s) (fld w 12 5)) 0 14
def lwSeg (l : Fin 36) (w : Word) (s : State) : Nat := fieldNat (sreg (seqOf (.link l) s) (fld w 12 5)) 16 32
def lwLink (w : Word) : Nat := fld w 22 6
def lwTok (w : Word) : Nat := fld w 28 5

/-- A link engine's unit holds four operations (R137). -/
def linkFull (l : Fin 36) (s : State) : Bool := decide (4 ≤ (seqOf (.link l) s).ops.length)

/-- An operation of a timetable lesson begun: its token turns busy. -/
def beginPlaceOp (p : Place) (kind a b c tok : Nat) (s : State) : State :=
  stepSeq p (fun q => setTok (tokField tok) false { q with ops := q.ops ++ [(kind, a, b, c, tok)] }) s

/-- A LINK instruction with a token: a word naming no admitted pass begins nothing. -/
def linkInstr (l : Fin 36) (w : Word) (func : Nat) (body : Pass → Group → State → State) (s : State) : Out :=
  instr (.link l) w 0x38 func (fun s =>
    withTok (.link l) (lwTok w) (fun _ s =>
      if linkFull l s then holdIssue (.link l) 0x04 s
      else match passNumber (lwPass l w s) s with
        | none => advance (.link l) s
        | some p =>
          match groupOf p.group s with
          | none => advance (.link l) s
          | some g => body p g s) s) s

/-- The plan segment of a number, when it leaves the device. -/
def outgoing (p : Pass) (g : Group) (num : Nat) (s : State) : Option PlanSeg :=
  match (planOf p g s)[num]? with
  | some x => if x.1 != g.rank then some x else none
  | none => none

/-- SEND (R155, R324): the segment is queued on LINK, once its data is complete and, chip to chip, the link is not held. -/
def execSend (l : Fin 36) (w : Word) (s : State) : Out :=
  linkInstr l w 0x01 (fun p g s =>
    let k := lwLink w
    let num := lwSeg l w s
    match outgoing p g num s with
    | none => advance (.link l) s
    | some x =>
      match segData p g (passIeee p s) x with
      | none => holdIssue (.link l) 0x04 s
      | some data =>
        if (linkOf k s).hold && !(linkOf k s).farActive then holdIssue (.link l) 0x04 s
        else beginPlaceOp (.link l) 1 p.id num k (lwTok w)
          (if p.queued.contains num || decide (36 ≤ k) then s else queueSeg p g x num k p.coded data s)) s

/-- EXPECT (R155): the segment is declared inbound. -/
def execExpect (l : Fin 36) (w : Word) (s : State) : Out :=
  linkInstr l w 0x02 (fun p _ s => beginPlaceOp (.link l) 2 p.id (lwSeg l w s) (lwLink w) (lwTok w) s) s

/-- FOLD (R155, R309): the contributions of a segment are combined, then forwarded or delivered. -/
def execFold (l : Fin 36) (w : Word) (s : State) : Out :=
  linkInstr l w 0x03 (fun p _ s => beginPlaceOp (.link l) 3 p.id (lwSeg l w s) (lwLink w) (lwTok w) s) s

/-- The bytes of a collective that does not reduce that ranks taken over by this device would have sent it (R384). -/
def takenBytes (p : Pass) (g : Group) (s : State) : Nat :=
  if reduces p then 0 else sumNat ((g.absent.filter fun r => rankHolder g r == s.mod.identity).map fun r => expectsRaw p g r)

/-- Whether every byte due to a pass's DST has been written or, fused, journalled. -/
def passFilled (p : Pass) (g : Group) (s : State) : Bool :=
  if p.fuse then
    match passUnits p s with
    | none => true
    | some (_, q, n) => (List.range n).all fun i => p.journalled.contains (q + i)
  else decide (dueBytes p g ≤ p.written + takenBytes p g s)

/-- DELIVER (R155): the hall pass is marked delivered once its bytes are in place. -/
def execDeliver (l : Fin 36) (w : Word) (s : State) : Out :=
  linkInstr l w 0x04 (fun p g s =>
    if passFilled p g s then advance (.link l) (modPass p.id (fun q => { q with delivered := true }) s)
    else holdIssue (.link l) 0x04 s) s

/-- Whether a segment still waits on a link or is leaving it. -/
def segWaiting (pass num k : Nat) (s : State) : Bool :=
  let here (x : OutSeg) : Bool := x.pass == pass + 1 && x.num == num
  (linkOf k s).egress.any here || (match (linkOf k s).leaving with | some x => here x.1 | none => false)

/-- Whether an operation of a link engine has finished. -/
def linkOpDone (o : Nat × Nat × Nat × Nat × Nat) (s : State) : Bool :=
  match passOf o.2.1 s with
  | none => true
  | some p =>
    match o.1 with
    | 1 => !segWaiting p.id o.2.2.1 o.2.2.2.1 s
    | 2 => decide (o.2.2.1 < p.arrivals)
    | _ => match groupOf p.group s with
      | none => true
      | some g => match (planOf p g s)[o.2.2.1]? with
        | none => true
        | some x => (segData p g (passIeee p s) x).isSome

/-- What FOLD leaves as it finishes: a result of this member forwarded on its link, or its own share delivered. -/
def foldEffect (pass num k : Nat) (s : State) : State :=
  match passOf pass s with
  | none => s
  | some p =>
    if p.queued.contains num then s
    else match groupOf p.group s with
      | none => s
      | some g => match (planOf p g s)[num]? with
        | none => s
        | some x => match segData p g (passIeee p s) x with
          | none => s
          | some data =>
            if x.1 == g.rank then deliverShare p g x num data s
            else if k < 36 then queueSeg p g x num k p.coded data s else s

/-- LINK_OP_COMPLETE (R155): an operation under a token (31: none) has left, arrived or been combined, and the token is
ready. -/
def execLinkOpComplete (l : Fin 36) (tok : Fin 32) (s : State) : Out :=
  .next <|
    match (seqOf (.link l) s).ops.find? fun o => o.2.2.2.2 == tok.val && linkOpDone o s with
    | none => s
    | some o =>
      let s := if o.1 == 3 then foldEffect o.2.1 o.2.2.1 o.2.2.2.1 s else s
      modSeq (.link l) (fun q => setTok (tokField tok.val) true { q with ops := q.ops.erase o }) s

/-! ## Arriving segments (R302, R306, R309, R328) -/

/-- Bytes discarded from a partner: more than 1 MiB within 1 ms holds it out (R328). -/
def discardBytes (l n : Nat) (s : State) : State :=
  let ds := ((linkOf l s).discards.filter fun d => decide (nsSince d.1 (mono s) ≤ 1000000)) ++ [(mono s, n)]
  let s := modLink l (fun k => { k with discards := ds }) s
  if 1048576 < sumNat (ds.map Prod.snd) then holdOut l 2 (modLink l (fun k => { k with discards := [] }) s) else s

/-- The authenticated words of a segment header. -/
def segAad (x : Segment) : List Byte :=
  wordBytes x.w0 ++ wordBytes x.w1 ++ wordBytes x.w2 ++ wordBytes x.w3 ++ wordBytes x.w4 ++ wordBytes x.w5

/-- A segment's header fields. -/
def sgColl (x : Segment) : Nat := fieldNat x.w0 5 3
def sgGroup (x : Segment) : Nat := fieldNat x.w0 8 16
def sgLevel (x : Segment) : Nat := fieldNat x.w0 24 4
def sgElement (x : Segment) : Nat := fieldNat x.w2 0 48
def sgLength (x : Segment) : Nat := fieldNat x.w3 0 17
def sgSig (x : Segment) : Nat := fieldNat x.w3 32 32
def sgSrc (x : Segment) : Nat := fieldNat x.w4 0 14
def sgDst (x : Segment) : Nat := fieldNat x.w4 14 14

/-- Whether a segment is well formed, its coded data apart (Table 12-4). -/
def segFormOk (x : Segment) : Bool :=
  fieldNat x.w0 0 4 == 3 && fieldNat x.w0 28 36 == 0 && fieldNat x.w2 48 16 == 0 && fieldNat x.w3 17 15 == 0
    && decide (1 ≤ sgLength x) && decide (sgLength x ≤ 65536) && sgLength x == x.data.length

/-- A RESEND request for a segment (Table 12-5). -/
def resendItem (x : Segment) (plain : Nat) : Item :=
  mkItem 0x03 0 (BitVec.ofNat 64 (sgGroup x)) x.w1 (BitVec.ofNat 64 (sgElement x)) (BitVec.ofNat 64 plain) 0

/-- A segment as received: policed, decrypted and decoded; `act` takes the segment and its raw data. -/
def withSegment (l : Nat) (x : Segment) (act : Segment → List Byte → State → State) (s : State) : State :=
  let k := linkOf l s
  if k.state != 3 then s
  else
    let s := modLink l (fun k => { k with rxData := k.rxData.drop (segBytesOf x.data.length) }) s
    let key := vget k.rxKeys (slotIx x.keyId) {}
    let iv := itemIv key.const x.w5
    let ok := if k.crypto then tagOk k x.keyId x.w5 (segAad x ++ x.data) [] x.tag else tagOk k x.keyId x.w5 (segAad x) x.data x.tag
    if !ok then tagFailure l s
    else if !nonceFresh k x.keyId x.w5 then replayFailure l s
    else
      let s := takeNonce l x.keyId x.w5 s
      let data := if k.crypto then x.data else gcmCrypt (keyBytes key.key) iv x.data
      if !segFormOk x then sendItem l (resendItem x 1) (formFailure l s)
      else if bitOf x.w0 4 then
        let r := decodeItems 16 none (data.length / 64 + 1) 0 data {}
        if r.2.2.isSome || decide (65536 < r.1.length) || r.1.isEmpty then
          sendItem l (resendItem x 1) (formFailure l (rejectItem (if l < 18 then 16 else 22) ((r.2.2.map Prod.fst).getD 9) 2 s))
        else act x r.1 (countCard 3 (64 + r.1.length) s)
      else act x data (countCard 3 (64 + data.length) s)

/-- The values or bytes of an accepted segment taken into a pass. -/
def takeData (p : Pass) (g : Group) (x : Segment) (data : List Byte) (s : State) : State :=
  let src := sgSrc x
  let el := sgElement x
  let s := modPass p.id (fun q => { q with got := q.got ++ [(src, sgLevel x, el)], arrivals := q.arrivals + 1 }) s
  if reduces p && sgLevel x != 15 then
    let buffered := 4 * (s.passes.foldl (fun n q => n + q.nodes.countP fun v => !v.parked) 0)
    let vs := (segVals p (sgLevel x) src el data (mono s)).map fun v => { v with parked := decide (6291456 < buffered + 4 * data.length) }
    modPass p.id (fun q => { q with nodes := q.nodes ++ vs }) s
  else
    let off := if reduces p then el * fmtBytes p.fmt
      else if p.coll == 2 then src * p.length + rawOffset p el
      else if p.coll == 3 then src * (p.length / groupN g) + rawOffset p el
      else rawOffset p el
    modPass p.id (fun q => { q with written := q.written + data.length }) (vaStore p.slot (p.dst + off) data s)

/-- A segment bound for this member meets its pass: a difference of signature refuses the collective (R306), bytes that are
not expected are discarded (R328). -/
def acceptSeg (l : Nat) (p : Pass) (g : Group) (x : Segment) (data : List Byte) (s : State) : State :=
  if sgSig x != p.sig.toNat then voidPass p stMalformed 0x0403 0 (sendVoid p stMalformed 0x0403 s)
  else if p.got.contains (sgSrc x, sgLevel x, sgElement x) || !expectsSeg p g s (sgLevel x) (sgSrc x) (sgElement x) data.length then
    discardBytes l data.length s
  else takeData p g x data s

/-- A segment of another rank sent on toward it (R324): it stays in the receive buffer while HOLD is asserted there chip to
chip. One of a group or rank this device does not know is discarded. -/
def forwardSeg (l : Nat) (x : Segment) (data : List Byte) (s : State) : State :=
  match (groupOf (sgGroup x) s).bind fun g => linkToRank g (sgDst x) s with
  | none => discardBytes l data.length s
  | some k =>
    let o : OutSeg :=
      { pass := 0, num := 0, promise := 0, prio := 0, order := 0, coll := sgColl x, group := sgGroup x, level := sgLevel x
        ordinal := x.w1, element := sgElement x, sig := BitVec.ofNat 32 (sgSig x), srcRank := sgSrc x, dstRank := sgDst x
        postUs := fieldNat x.w4 28 36, coded := false, data := data }
    if (linkOf k s).hold && !(linkOf k s).farActive then modLink l (fun y => { y with transit := y.transit ++ [(k, o)] }) s
    else enqueueSeg k o s

/-- A group's channels that have an expert page. -/
def pageChans (g : Nat) (s : State) : List Nat :=
  ((liveChans s).filter fun c => ((groupOf g s).map fun h => groupChan h c.1 s).getD false && (locate c.1 expertPageVa s).isSome).map Prod.fst

/-- The segment that tells a member of an expert swap (R439), in this model's own layout (notes/assumptions/32.md): GROUP, the member,
the layer, and the two experts. -/
def swapSeg (g : Group) (dest : Word) (layer e f : Nat) (s : State) : OutSeg :=
  { pass := 0, num := 0, promise := 0, prio := 0, order := 0, coll := 7, group := 0xFFFF, level := 15, ordinal := 0, element := 0, sig := 0
    srcRank := g.rank, dstRank := 0, postUs := (now s).toNat / 1024 % 2 ^ 36, coded := false
    data := leBytes 8 g.id ++ wordBytes dest ++ leBytes 8 layer ++ leBytes 8 (e + f * 2 ^ 16) }

/-- A swap segment arrives: another member's goes on toward it, this device's rewrites its expert pages. -/
def takeSwap (x : Segment) (data : List Byte) (s : State) : State :=
  let w (i : Nat) : Nat := leNat ((data.drop (8 * i)).take 8)
  match groupOf (w 0) s with
  | none => s
  | some g =>
    let dest : Word := BitVec.ofNat 64 (w 1)
    let e := w 3 % 65536
    let f := w 3 / 65536
    if dest != s.mod.identity then
      match linkTo dest s with
      | some l => enqueueSeg l { swapSeg g dest (w 2) e f s with srcRank := sgSrc x } s
      | none => s
    else (pageChans g.id s).foldl (fun s c => applySwap c (w 2) e f s) s

/-- A policed segment acted on. -/
def actSegment (l : Nat) (x : Segment) (data : List Byte) (s : State) : State :=
  if sgColl x == 7 then takeSwap x data s
  else if 4 < sgColl x then s
  else match groupOf (sgGroup x) s with
    | none => discardBytes l data.length s
    | some g =>
      let s := modGroup g.id (fun g => { g with heard := tset g.heard (sgSrc x) (mono s) }) s
      if sgDst x != g.rank then (if rankHolder g (sgDst x) == s.mod.identity then s else forwardSeg l x data s)
      else if g.absent.contains (sgSrc x) then s
      else if g.refused.contains x.w1.toNat then s
      else
        let x := { x with data := data, w0 := x.w0 &&& ~~~ (0x10 : Word) }
        match s.passes.find? fun p => p.group == g.id && p.ordinal == x.w1.toNat && p.round.isNone with
        | some p =>
          if p.admitted then acceptSeg l p g x data s
          else modGroup g.id (fun g => { g with early := g.early ++ [x] }) s
        | none =>
          if g.ordinals ≤ x.w1.toNat then modGroup g.id (fun g => { g with early := g.early ++ [x] }) s
          else discardBytes l data.length s

/-- SEGMENT_RECEIVE (R328): mirror traffic and differences are the business of their own commands. -/
def execSegmentReceive (l : Fin 36) (sg : Segment) (s : State) : Out := .next (withSegment l sg (actSegment l) s)

/-! ## Notices (R303, R304, R307, R309) -/

/-- The pass a notice names: GROUP in word 1, ORDINAL in word 2. -/
def noticePass (it : Item) (s : State) : Option Pass :=
  s.passes.find? fun p => p.group == fieldNat it.w1 0 16 && p.ordinal == it.w2.toNat && p.round.isNone

/-- A VOID passed on toward the members it still has to reach, once. -/
def passVoid (l : Nat) (it : Item) (s : State) : State :=
  match groupOf (fieldNat it.w1 0 16) s with
  | none => s
  | some g =>
    if g.voidsSeen.contains it.w2.toNat then s
    else modGroup g.id (fun g => { g with voidsSeen := g.voidsSeen ++ [it.w2.toNat] }) (sendBeyond l g it s)

/-- VOID_RECEIVE (R307): the pass completes with the status and DETAIL the item carries; a DTIME for a path or a flush. A
VOID that comes before the pass is admitted here is kept for it; a member that refused keeps its own status. -/
def execVoidReceive (l : Fin 36) (it : Item) (s : State) : Out :=
  .next (withItem l it 0x02 (fun s =>
    let st : BitVec 8 := BitVec.ofNat 8 (fieldNat it.w4 0 8)
    let det : BitVec 16 := BitVec.ofNat 16 (fieldNat it.w4 16 16)
    let r0 : Word := if st == stVoidPath || st == stFlushed then it.w3 else 0
    let keep (s : State) : State := modGroup (fieldNat it.w1 0 16) (fun g =>
      if g.refused.contains it.w2.toNat then g else { g with voids := g.voids ++ [(it.w2.toNat, st, det, r0)] }) s
    let s := passVoid l it s
    match noticePass it s with
    | some p => if p.admitted then voidPass p st det r0 s else keep s
    | none =>
      match groupOf (fieldNat it.w1 0 16) s with
      | some g => if g.ordinals ≤ it.w2.toNat then keep s else s
      | none => s) s)

/-- RESEND_RECEIVE (R304): the segments of that element bound out of this link are sent again, uncoded when PLAIN is 1. -/
def execResendReceive (l : Fin 36) (it : Item) (s : State) : Out :=
  .next (withItem l it 0x03 (fun s =>
    match noticePass it s with
    | none => s
    | some p =>
      match groupOf p.group s with
      | none => s
      | some g =>
        ((outSegs p g s).filter fun x => segElement p (groupN g) x.1 == fieldNat it.w3 0 48 && linkToRank g x.1.1 s == some l.val
            && p.queued.contains x.2).foldl (fun s x =>
          match segData p g (passIeee p s) x.1 with
          | none => s
          | some data => queueSeg p g x.1 x.2 l (p.coded && !bitOf it.w4 0) data (modPass p.id (fun q => { q with
              rerouted := true, outstanding := if q.outstanding.contains x.2 then q.outstanding else q.outstanding ++ [x.2] }) s)) s) s)

/-- KEY_READY_RECEIVE (R303): the partner has installed a slot for receive, and the sender may use it. -/
def execKeyReadyReceive (l : Fin 36) (it : Item) (s : State) : Out :=
  .next (withItem l it 0x04 (fun s => modLink l (fun k =>
    let b := bitOf it.w1 0
    if (vget k.txKeys (slotIx b) {}).valid then { k with keyTx := b } else k) s) s)

/-- FOLD_PARK_TIMEOUT (R309): operands of a pass that have waited 64 us for their siblings are parked in fast memory. -/
def execFoldParkTimeout (l : Fin 36) (pass : Nat) (s : State) : Out :=
  .next (if (linkOf l s).state != 3 then s else modPass pass (fun p => { p with
    nodes := p.nodes.map fun v => if decide (64000 ≤ nsSince v.since (mono s)) then { v with parked := true } else v }) s)

/-! ## The final status (R310 to R313) -/

/-- The final status of a pass, its DETAIL bits [6:0] and RESULT0: replayed work first (R311), then the flags. -/
def finalStatus (p : Pass) : BitVec 8 × BitVec 16 × Word :=
  if p.rerouted then (stReplayed, 0, 0)
  else if !p.fuse && flagged p.flags then (stFlagged, p.flags.setWidth 16, BitVec.ofNat 64 (p.firstFlag.getD 0))
  else (stDone, 0, 0)

/-- An all-gather delivered: the next exam may open (R18), and the CRC-64 of every owner's shard joins its working-copy value
(R385). -/
def gatherDone (p : Pass) (g : Group) (s : State) : State :=
  let crcs := (List.range (groupN g)).map fun r => (r, crc64 (vaRead p.slot (p.dst + r * p.length) p.length s))
  modGroup p.group (fun g => { g with
    committedSince := if g.committedSince == 1 then 2 else g.committedSince
    copyCrcs := crcs.foldl (fun t x => tset t x.1 (tgetD t x.1 0 ^^^ x.2)) g.copyCrcs }) s

/-- An EXCHANGE reaches its final status (R311): every byte due to an admitted pass's DST is in place and every segment it sent
acknowledged. -/
def finishExchange (p : Pass) (s : State) : State :=
  match groupOf p.group s, descOf p.desc s with
  | some g, some r =>
    if passFilled p g s && p.outstanding.isEmpty then
      let late := decide (p.promise.toNat < (now s).toNat)
      let o := finalStatus p
      let s := if late then noteLate p s else s
      let s := endFused p o.1 (cardPass p late (dropPass p s))
      let s := if p.coll == 2 then gatherDone p g s else s
      answerXpost p.desc false true o.1 o.2.2 (finish r o.1 (o.2.1 ||| (if late then 0x8000 else 0)) o.2.2 s)
    else s
  | _, _ => s

end Sys2Proof.Machine
end

