-- ==== Sys2Proof/Machine/Admit.lean ====
section
/-!
DEFINITION. Machine/Admit.lean: EXCHANGE and XPOST up to their admission, and admission itself with its promise (R153, R190,
R224, R243, R244, R306 to R308, R315 to R321).
-/

namespace Sys2Proof.Machine

/-! ## The fields of an EXCHANGE (Table 02-8, R308) -/

def exColl (d : Desc) : Nat := fieldNat d.w2 0 8
def exOp (d : Desc) : Nat := fieldNat d.w2 8 8
def exFmt (d : Desc) : Nat := fieldNat d.w2 16 8
def exFuse (d : Desc) : Bool := bitOf d.w2 24
def exGroup (d : Desc) : Nat := fieldNat d.w2 32 16
def exLen (d : Desc) : Nat := fieldNat d.w5 0 48
def exRoot (d : Desc) : Nat := fieldNat d.w7 0 14

/-- The signature of a collective (R306). -/
def passSig (d : Desc) : W32 :=
  crc32c (leBytes 1 (exColl d) ++ leBytes 1 (exOp d) ++ leBytes 1 (exFmt d) ++ leBytes 1 (if exFuse d then 1 else 0)
    ++ leBytes 6 (exLen d) ++ leBytes 2 (exRoot d) ++ List.replicate 4 0)

/-- The formats a reducing collective takes (Table 12-6). -/
def fmtReduces (f : Nat) : Bool := f == 0x01 || f == 0x02 || f == 0x03 || f == 0x04 || f == 0x05 || f == 0x0B || f == 0x0C

/-- Whether the fields of an EXCHANGE are in range (R190, R308): what they ask of a group of N members. -/
def exFieldsOk (d : Desc) (n : Nat) : Bool :=
  let c := exColl d
  decide (c ≤ 4) && decide (exOp d ≤ 2) && (exOp d == 0 || decide (c ≤ 1)) && fmtDefined (exFmt d)
    && (if c ≤ 1 then fmtReduces (exFmt d) && exLen d % fmtBytes (exFmt d) == 0 else exFmt d == 0 || exLen d % unitBytes (exFmt d) == 0)
    && (!exFuse d || (c == 1 && (exFmt d == 0x02 || exFmt d == 0x03)))
    && (c != 3 || exLen d % (32 * n) == 0) && (c != 4 || decide (exRoot d < n))

/-- The pass of an EXCHANGE as it is fetched or taken from XPOST: it consumes the group's next ordinal (R306, R307). -/
def newPass (r : DescRec) (g : Group) (s : State) : Pass :=
  let d := r.desc
  { id := s.nextPass, desc := r.id, slot := d.slot, tag := d.tag, ring := d.ring, group := g.id, ordinal := g.ordinals
    coll := exColl d, op := exOp d, fmt := exFmt d, fuse := exFuse d, codecOk := bitOf d.w2 25, prio := fieldNat d.w2 48 8
    src := d.w3.toNat, dst := d.w4.toNat, length := exLen d, root := exRoot d, deadline := d.w6, postedAt := r.fetchedAt
    step := r.step, sig := passSig d, srcData := [] }

/-- What the fetch of an EXCHANGE does. -/
def noteExchange (r : DescRec) (s : State) : State :=
  match groupOf (exGroup r.desc) s with
  | none => s
  | some g => modGroup g.id (fun x => { x with
      ordinals := x.ordinals + 1
      firstFuse := if exFuse r.desc then some (x.firstFuse.getD r.fetchedAt) else x.firstFuse })
      { s with nextPass := s.nextPass + 1, passes := s.passes ++ [newPass r g s] }

/-- The source region an EXCHANGE reads: a broadcast reads ROOT's alone. -/
def exSource (p : Pass) (g : Group) : Nat := if p.coll == 4 && p.root != g.rank then 0 else p.length

/-- EXCHANGE as it starts: its fields and regions checked, it waits for admission. -/
def startExchange (r : DescRec) (s : State) : State :=
  let d := r.desc
  let slot : Nat := d.slot
  match groupOf (exGroup d) s, s.passes.find? fun p => p.desc == r.id with
  | some g, some p =>
    if !exFieldsOk d (groupN g) then refuse r 0x0004 0 s
    else
      let src := exSource p g
      let dst := dueBytes p g
      match regionsFault slot [(p.src, src, false), (p.dst, dst, true)] s with
      | some a => refuse r 0x0101 a s
      | none =>
        if overlapsProtected slot p.dst dst s then refuse r 0x0103 p.dst s
        else match poisonVa slot p.src src s with
          | some a => refuse r 0x0104 a s
          | none => match forwardDesc r.group r.step slot [(p.src, src)] [(p.dst, dst)] s with
            | none => refuseCap r 0x0604 s
            | some s => holdAs r .admission (if r.step.isSome then protect g.id slot [(p.src, src)] s else s)
  | _, _ => refuse r 0x0004 0 s

/-- EXCHANGE (R306 to R308). -/
def execExchange (d : Desc) (s : State) : Out := .next (settlePasses (fetchWith 0x03 d noteExchange startExchange s))

/-! ## XPOST (R153, R160) -/

/-- The descriptor of an image, as one of the run's channel and of the ring of its LESSON_RUN. -/
def imageDesc (slot : Fin 4096) (ring : Fin 8) (bs : List Byte) : Desc :=
  let w (i : Nat) : Word := BitVec.ofNat 64 (wordAt bs i)
  { slot := slot, ring := ring, flags := BitVec.ofNat 24 (fieldNat (w 0) 8 24), handle := BitVec.ofNat 32 (fieldNat (w 0) 32 32)
    tag := w 1, w2 := w 2, w3 := w 3, w4 := w 4, w5 := w 5, w6 := w 6, w7 := w 7 }

/-- An image taken as a descriptor: an opcode that is not EXCHANGE consumes no ordinal. -/
def takeImage (r : DescRec) (c : Chan) (s : State) : State :=
  if r.opcode != 0x03 then
    let t := refuse r 0x0004 0 s
    answerXpost r.id true true stMalformed 0 t
  else
    let s := noteExchange r s
    let t := if r.desc.handle != c.handle then refuse r 0x0004 0 s
      else if reservedSet 0x03 r.desc then refuse r 0x0003 0 s
      else startExchange r s
    if s.passes.any fun p => p.desc == r.id then settlePasses t
    else answerXpost r.id true true stMalformed 0 t

/-- An XPOST that posts for the first time. -/
def postFirst (c : Fin 192) (w : Word) (u : Run) (lr : DescRec) (ch : Chan) (ta tf : Option (Fin 16)) (s : State) : State :=
  let k := coreOf c s
  let bs := vaRead u.slot (areg k.seq (fld w 12 4)) 64 s
  let d := imageDesc lr.desc.slot lr.desc.ring bs
  let r := recOf (BitVec.ofNat 8 (wordAt bs 0)) d ch s
  let x : XpostRec := { core := c, nth := k.xpostCount, desc := r.id, sd := fld w 16 5, ta := ta, tf := tf }
  let s := modRun u.id (fun v => { v with xposts := v.xposts ++ [x] }) { s with nextDesc := s.nextDesc + 1 }
  takeImage r ch (modChan u.slot (fun y => { y with tags := (d.tag, r.id) :: y.tags.filter fun t => t.1 != d.tag }) s)

/-- An XPOST issued again by a rerun: the first post's status and RESULT0, its tokens following the original exchange. -/
def postAgain (c : Fin 192) (w : Word) (u : Run) (x : XpostRec) (ta tf : Option (Fin 16)) (s : State) : State :=
  let y := { x with sd := fld w 16 5, ta := ta, tf := tf, live := true }
  let s := modRun u.id (fun v => { v with xposts := mapIf (fun z => z.desc == x.desc) (fun _ => y) v.xposts }) s
  match x.answer with
  | some (st, r0) => modCore c (answerPost y true x.final (BitVec.ofNat 8 st) r0) s
  | none => s

/-- The body of XPOST: the unit is occupied until TA is ready. -/
def xpostBody (c : Fin 192) (w : Word) (s : State) : State :=
  let sd := fld w 16 5
  if sd % 2 == 1 || (fld w 21 5 == fld w 26 5 && fld w 21 5 != 31) || tokReserved (fld w 21 5) || tokReserved (fld w 26 5) then stopCore c 0x0004 s
  else withCoreTok c (fld w 21 5) (fun ta s => withCoreTok c (fld w 26 5) (fun tf s =>
    if dispFull (coreOf c s) then holdIssue (.core c) 0x06 s
    else match readFault c (areg (coreOf c s).seq (fld w 12 4)) 64 s with
      | some x => stopCoreAt c x.1 x.2 s
      | none =>
        match coreRun c s, coreChan c s with
        | some u, some ch =>
          match descOf u.desc s with
          | none => stopCore c 0x0004 s
          | some lr =>
            let n := (coreOf c s).xpostCount
            let old := u.xposts.find? fun x => x.core == c.val && x.nth == n
            let id := (old.map fun x => x.desc).getD s.nextDesc
            let t := advance (.core c) (modCore c (fun k =>
              { k with seq := setTok tf false (setTok ta false k.seq)
                       disp := k.disp ++ [{ seq := k.nseq, tok := ta, writes := [], xpost := some id }], nseq := k.nseq + 1 }) s)
            let t := match old with
              | some x => postAgain c w u x ta tf t
              | none => postFirst c w u lr ch ta tf t
            modCore c (fun k => { k with xpostCount := n + 1 }) t
        | _, _ => stopCore c 0x0004 s) s) s

/-- XPOST (R153). -/
def execXpost (c : Fin 192) (w : Word) (s : State) : Out := instr (.core c) w 0x31 0x00 (xpostBody c w) s

/-! ## The quantities of R317 -/

/-- Bytes a segment counts in admission: its header and what it carries. -/
def segWire (p : Pass) (x : PlanSeg) : Nat := 64 + segLen p x

/-- The wire bytes of a pass, and those that leave by some links. -/
def passWire (p : Pass) (g : Group) (s : State) : Nat := sumNat ((outSegs p g s).map fun x => segWire p x.1)
def wireOn (p : Pass) (g : Group) (ls : List Nat) (s : State) : Nat :=
  if p.round.isSome then (if p.links.any fun l => ls.contains l then p.wire else 0)
  else sumNat (((outSegs p g s).filter fun x => match linkToRank g x.1.1 s with
    | some l => ls.contains l
    | none => false).map fun x => segWire p x.1)

/-- The ranks a pass sends to, and the links that lead to them. -/
def passDests (p : Pass) (g : Group) (s : State) : List Nat := ((outSegs p g s).map fun x => x.1.1).eraseDups
def passLinks (p : Pass) (g : Group) (s : State) : List Nat := ((passDests p g s).filterMap fun r => linkToRank g r s).eraseDups

/-- The links of a pass with the surplus over which its segments would go if one were lost. -/
def surplusLinks (p : Pass) (g : Group) (s : State) : List Nat :=
  let ls := passLinks p g s
  let alt := (passDests p g s).filterMap fun r =>
    (linkToRank g r s).bind fun l => match routeSkip (some l) (rankHolder g r) s with
      | some ((_, k, _) :: _) => some k
      | _ => none
  (ls ++ alt).eraseDups

/-- Bytes per nanosecond of a rate in hundredths of a Gb/s. -/
def bytesPerNs (rate : Nat) : ℚ := (rate : ℚ) / 800

/-- The data rate of some links. -/
def linksRate (ls : List Nat) (s : State) : Nat := sumNat (ls.map fun l => laneRate (laneCount (linkOf l s)))

/-- A frame's time in nanoseconds (Table 12-1). -/
def frameTime (l : Link) : ℚ := match laneCount l with | 4 => 4096 / 100 | 3 => 5461 / 100 | _ => 8192 / 100

/-- The analytic bound of one hop (Table 12-10). A further hop of a route counts as the first link's
(notes/assumptions/21.md). -/
def hopBound (l : Nat) (s : State) : ℚ :=
  let k := linkOf l s
  656 + 2 * frameTime k + 600 + 3 * (k.delayNs : ℚ) + 100

/-- The route to a rank. -/
def rankRoute (g : Group) (r : Nat) (s : State) : List (Nat × Nat × Bool) := (routeTo (rankHolder g r) s).getD []

/-- The analytic latency of a pass's longest route. -/
def routeBound (p : Pass) (g : Group) (s : State) : ℚ :=
  (passDests p g s).foldl (fun m r =>
    let rt := rankRoute g r s
    max m (match rt with | (_, l, _) :: _ => (rt.length : ℚ) * hopBound l s | [] => 0)) 0

/-- The mean hops per byte of a plan. -/
def meanHops (p : Pass) (g : Group) (s : State) : ℚ :=
  let b := sumNat ((outSegs p g s).map fun x => segWire p x.1)
  if b == 0 then 1
  else ((sumNat ((outSegs p g s).map fun x => segWire p x.1 * (rankRoute g x.1.1 s).length) : Nat) : ℚ) / (b : ℚ)

/-- The present load of links in percent: their committed share of capacity up to the latest promise (R318). -/
def linksLoad (ls : List Nat) (t : Word) (s : State) : Nat :=
  let qs := s.passes.filter fun q => q.admitted && q.links.any fun l => ls.contains l
  let horizon := qs.foldl (fun m q => max m (nsSince t q.promise)) 0
  let cap := linksRate ls s * horizon
  if cap == 0 then 0 else 100 * 800 * sumNat (qs.map fun q => q.wire) / cap

/-- A calibration record that applies: its load within 10 percentage points of the present one. -/
def calibFor (kind subject load : Nat) (s : State) : Option Nat :=
  (s.calib.find? fun c => c.kind == kind && c.subject == subject && decide (c.load ≤ load + 10) && decide (load ≤ c.load + 10)).map
    fun c => c.value

/-- The number that stands for a set of links as a calibration subject. -/
def linkSet (ls : List Nat) : Nat := sumNat (ls.map fun l => 2 ^ l)

/-- The throughput of a plan in bytes per nanosecond: a record in MB/s, or the analytic bound. -/
def planRate (p : Pass) (g : Group) (ls : List Nat) (load : Nat) (s : State) : ℚ :=
  match calibFor 0 (linkSet ls) load s with
  | some v => (v : ℚ) / 1000
  | none => bytesPerNs (linksRate ls s) * (65536 / 65600) / meanHops p g s

/-- The memory share m: paired or not, with a thermal record of every stack below 88 °C or not (Table 12-9). -/
def memShare (s : State) : ℚ :=
  let cool := (List.range 24).all fun i => match calibFor 5 i 0 s with
    | some c => decide (c < 88)
    | none => false
  let paired := s.mate.formed && !s.mate.degraded
  if cool then (if paired then 3 / 4 else 1 / 2) else (if paired then 1 / 2 else 1 / 4)

/-- The rate of a stream over every slot in bytes per nanosecond (R252): 28.60 TB/s, less where a channel holds twelve slots
or a stack is throttled or drained. -/
def memRate (s : State) : ℚ :=
  let n := (List.range 384).foldl (fun m c => max m (s.memory.map.countP fun e => e.channel == c)) 11
  let base : ℚ := if n ≤ 11 then 28600 else 768 / 10 * 4096 / (n : ℚ)
  let lvl := s.memory.stk.toList.foldl (fun m x => if x.level ≤ 4 then max m x.level else m) 0
  if lvl ≤ 1 then base else if lvl == 2 then base * 3 / 4 else if lvl == 3 then base / 2 else base / 4

/-- Bytes per parameter of a rule's records, read and written. -/
def recordBytes (rule n : Nat) : Nat := 2 * n * (if hasV rule then 13 else 9)

/-- A port's rate in bytes per nanosecond: lanes times GT/s by eight (R19). -/
def portRate (p : PortSt) : ℚ :=
  let gt : ℚ := match p.speed.toNat with | 1 => 5 / 2 | 2 => 5 | 3 => 8 | 4 => 16 | 5 => 32 | 6 => 64 | _ => 0
  (p.width.toNat : ℚ) * gt / 8

/-- The bytes of admitted passes that the sorter would place before a pass on its links; all of them when it asks for the
best or a sorter is fenced. -/
def aheadBytes (p : Pass) (ls : List Nat) (all : Bool) (s : State) : Nat :=
  let every := all || p.deadline == 0 || ls.any fun l => (linkOf l s).sorterFenced
  sumNat ((s.passes.filter fun q => q.admitted && (every || decide (q.promise.toNat < p.deadline.toNat)
      || (q.promise == p.deadline && decide (p.prio ≤ q.prio)))).map fun q =>
    match groupOf q.group s with
    | some g => wireOn q g ls s
    | none => 0)

/-- The policy values of a group: POST_SKEW and GRAIN in nanoseconds (Table 12-9). -/
def skewOf (g : Nat) (s : State) : Nat := 1000 * (((s.card.policy.find? fun e => e.group == g).map fun e => e.postSkewUs).getD 10)
def grainOf (g : Nat) (s : State) : Nat := 1000 * max 1 (((s.card.policy.find? fun e => e.group == g).map fun e => e.grainUs).getD 50)

/-- The capacity of a plan after the loss of one link: none when no link is free to the channel. -/
def passCap (p : Pass) (g : Group) (ls : List Nat) (load : Nat) (s : State) : ℚ :=
  let u := (surplusLinks p g s).length
  let f : ℚ := if 2 ≤ u then ((u : ℚ) - 1) / (u : ℚ) else 1
  let own := 100 * (((chanOf p.slot s).map fun c => c.linkGbps).getD 0)
  min (planRate p g ls load s * f) (bytesPerNs (own + linkFree s) * f)

/-- The largest of the bounds on a pass's transfer: links with `ahead` bytes before it, memory, engines, port (R317). -/
def passTime (p : Pass) (g : Group) (wire ahead : Nat) (cap : ℚ) (coded : Bool) (s : State) : ℚ :=
  let ls := passLinks p g s
  let link : ℚ := if wire == 0 then 0 else ((ahead + wire : Nat) : ℚ) / cap
  let units := passUnits p s
  let n := shareLen p (groupN g) g.rank
  let nmu := match units with | some (b, _, _) => if p.fuse then recordBytes b.rule n else 0 | none => 0
  let mem : ℚ := ((exSource p g + 3 * recvTotal p g s + dueBytes p g + nmu : Nat) : ℚ) / (memRate s * memShare s)
  let eng : ℚ := if coded then ((sumNat ((outSegs p g s).map fun x => segLen p x.1) : Nat) : ℚ) / ((max 1 ls.length : Nat) * 16) + 18400 else 0
  let port : ℚ := match units with
    | some (b, _, q) => match tierPort b with
      | some t => if p.fuse && portRate (portOf t s) != 0 then
          ((q * (if isBlockRule b.rule then 16 * stripeSize b.rule + blockSize b.rule else stripeSize b.rule) : Nat) : ℚ) / portRate (portOf t s) + 2000
        else 0
      | none => 0
    | none => 0
  max (max link mem) (max eng port)

/-- The earliest promise in nanoseconds after `t`, in whole grains (R317). -/
def earliest (p : Pass) (g : Group) (load : Nat) (x : ℚ) (s : State) : Nat :=
  let ls := passLinks p g s
  let lat : ℚ := match calibFor 1 (linkSet ls) load s with | some v => (v : ℚ) | none => routeBound p g s
  let fold : ℚ := match calibFor 2 0 load s with | some v => (v : ℚ) | none => 2500
  let levels := if reduces p then clog2 (groupN g) else 0
  let hop := ls.foldl (fun m l => max m (hopBound l s)) 0
  let far := (passDests p g s).any fun r => (rankRoute g r s).any fun h => h.2.2
  let e := (skewOf g.id s : ℚ) + x + lat + (levels : ℚ) * fold + hop + (if p.fuse then 20000 else 2000) + 150000
    + (if far then 250000000 else 0)
  let gr := grainOf g.id s
  gr * ⌈e / (gr : ℚ)⌉.toNat

/-- Whether a pass precedes an admitted one in the sorter. -/
def precedes (p q : Pass) : Bool :=
  decide (p.promise.toNat < q.promise.toNat) || (p.promise == q.promise && decide (q.prio < p.prio))

/-! ## ADMISSION_DECISION -/

/-- What refuses a fused exchange (R224): a binding of its channel and group holds its destination whole, it belongs to an open
step, and no other admitted exchange of the step names its units. -/
def fuseRefused (p : Pass) (g : Group) (s : State) : Bool :=
  p.fuse && match passUnits p s with
    | none => true
    | some (b, q, n) => p.step.isNone || p.step != g.open' ||
        g.stepPasses.any fun x => x.1 == b.num && decide (x.2.1 < q + n) && decide (q < x.2.1 + x.2.2)

/-- The stripes a fused pass names. -/
def stagedStripes (b : Binding) (n : Nat) : Nat := if isBlockRule b.rule then 16 * n else n

/-- The staging a tiered fused pass needs: none when it fits not, or its port is fenced (R243, R244). -/
def stagingFor (p : Pass) (s : State) : Option Nat :=
  if !p.fuse then some 0
  else match passUnits p s with
    | none => some 0
    | some (b, _, n) => match tierPort b with
      | none => some 0
      | some t =>
        let need := 2112 * stagedStripes b n
        if (portOf t s).fenced || decide (hyStageBytes b.hyper < b.stageUsed + need) then none else some need

/-- The bytes a collective that does not reduce copies within the device. -/
def localCopy (p : Pass) (g : Group) : Option (Nat × Nat × Nat) :=
  let blk := p.length / groupN g
  match p.coll with
  | 2 => some (g.rank * p.length, 0, p.length)
  | 3 => some (g.rank * blk, g.rank * blk, blk)
  | 4 => if p.root == g.rank then some (0, 0, p.length) else none
  | _ => none

/-- A pass admitted with its promise: its entry is taken, ADMITTED is written, its source captured, what came early acted on. -/
def grant (r : DescRec) (p : Pass) (g : Group) (promise e : Word) (wire : Nat) (coded : Bool) (staging : Nat) (s : State) : State :=
  let slot := p.slot
  let p := { p with srcData := vaRead slot p.src (exSource p g) s }
  let park := if reduces p then ceilDiv (recvTotal p g s) pageBytes else 0
  let copy := localCopy p g
  let p := { p with
    admitted := true, promise := promise, eVal := e.toNat, wire := wire
    order := (s.passes.map fun q => q.order).foldl max 0 + 1, links := passLinks p g s
    outstanding := (outSegs p g s).map Prod.snd, nodes := ownNodes p g s, parkFrames := park, staging := staging, coded := coded
    written := (copy.map fun x => x.2.2).getD 0 }
  let s := modMemory (fun m => { m with privateFrames := m.privateFrames + park }) (modPass p.id (fun _ => p) s)
  let s := match passUnits p s with
    | some (b, q, n) => if p.fuse then
        modGroup g.id (fun x => { x with stepPasses := x.stepPasses ++ [(b.num, q, n)] })
          (modBinding b.num (fun b => { b with stageUsed := b.stageUsed + staging }) s)
      else s
    | none => s
  let s := match copy with
    | some (pos, off, n) => vaStore slot (p.dst + pos) ((p.srcData.drop off).take n) s
    | none => s
  let s := if p.step.isSome then modGroup g.id (fun x => { x with stepSrc := x.stepSrc ++ [(p.ordinal, slot, p.src, exSource p g, fmtBytes p.fmt)] }) s
    else s
  let s := holdAs r .pass (interim r stAdmitted 0 promise s)
  let s := answerXpost r.id true false stAdmitted promise s
  let mine (x : Segment) : Bool := x.w1.toNat == p.ordinal
  let t := modGroup g.id (fun x => { x with early := x.early.filter fun y => !mine y }) s
  let t := (g.early.filter mine).foldl (fun s x => match passOf p.id s with
    | some q => acceptSeg 0 q g x x.data s
    | none => s) t
  match g.voids.find? fun v => v.1 == p.ordinal, passOf p.id t with
  | some v, some q => voidPass q v.2.1 v.2.2.1 v.2.2.2 t
  | _, _ => t

/-- The capacity that admission counts for a pass. -/
def admitCap (p : Pass) (g : Group) (s : State) : ℚ :=
  let ls := passLinks p g s
  passCap p g ls (linksLoad ls p.postedAt s) s

/-- The wire bytes that admission counts for a pass, and whether its segments are coded: where the codec may be used and a ratio is
recorded, when that makes its transfer shorter. -/
def admitWire (p : Pass) (g : Group) (s : State) : Nat × Bool :=
  let ls := passLinks p g s
  let ratio := if p.codecOk then calibFor 3 p.fmt (linksLoad ls p.postedAt s) s else none
  let cap := admitCap p g s
  let raw := passWire p g s
  let codedWire := match ratio with | some v => raw * v / 256 | none => raw
  let time (wire : Nat) (coded : Bool) : ℚ := passTime p g wire (aheadBytes p ls false s) cap coded s
  let coded := ratio.isSome && decide (time codedWire true < time raw false)
  (if coded then codedWire else raw, coded)

/-- The transfer time that a pass puts before others. -/
def admitCost (p : Pass) (g : Group) (s : State) : ℚ :=
  if (admitWire p g s).1 == 0 then 0 else ((admitWire p g s).1 : ℚ) / admitCap p g s

/-- The admitted passes that a pass with its DEADLINE would precede on its links. -/
def admitAhead (p : Pass) (g : Group) (s : State) : List Pass :=
  let ls := passLinks p g s
  s.passes.filter fun q => q.admitted && q.links.any (fun l => ls.contains l) && p.deadline != 0
    && !(ls.any fun l => (linkOf l s).sorterFenced) && precedes { p with promise := p.deadline } q

/-- The earliest promise of a pass: where preceding another would break that one's promise, behind all that waits. -/
def admitEarliest (p : Pass) (g : Group) (s : State) : Nat :=
  let ls := passLinks p g s
  let w := admitWire p g s
  let tight := (admitAhead p g s).any fun q => decide (((q.promise.toNat - q.eVal : Nat) : ℚ) < admitCost p g s)
  p.postedAt.toNat + earliest p g (linksLoad ls p.postedAt s) (passTime p g w.1 (aheadBytes p ls tight s) (admitCap p g s) w.2 s) s

/-- The frames that the operands of a pass may be parked in. -/
def parkFor (p : Pass) (g : Group) (s : State) : Nat := if reduces p then ceilDiv (recvTotal p g s) pageBytes else 0

/-- Admission (R317), the collective's conditions being met. -/
def admitPass (r : DescRec) (p : Pass) (g : Group) (s : State) : State :=
  let w := admitWire p g s
  if decide (w.1 != 0) && decide (admitCap p g s ≤ 0) then refuseCap r 0x0407 s
  else
    let d := p.deadline
    let e := admitEarliest p g s
    if d != 0 && decide (d.toNat < e) then finish r stDeadline 0x0406 (BitVec.ofNat 64 e) s
    else match stagingFor p s with
      | none => refuseCap r 0x0405 s
      | some staging =>
        if frameCapacity s.flash.variant < s.memory.framesUsed.length + s.memory.privateFrames + parkFor p g s then refuseCap r 0x0405 s
        else if 16384 ≤ s.passes.countP (fun q => q.admitted) then refuseCap r 0x0404 s
        else
          let pay (q : Pass) : Pass :=
            if (admitAhead p g s).any (fun a => a.id == q.id) then { q with eVal := q.eVal + ⌈admitCost p g s⌉.toNat } else q
          grant r p g (if d == 0 then BitVec.ofNat 64 e else d) (BitVec.ofNat 64 e) w.1 w.2 staging { s with passes := s.passes.map pay }

/-- ADMISSION_DECISION of an EXCHANGE. -/
def decideExchange (r : DescRec) (p : Pass) (s : State) : State :=
  match groupOf p.group s with
  | none => refuse r 0x0004 0 s
  | some g =>
    if fuseRefused p g s then refuse r 0x0004 0 s
    else if (List.range (groupN g)).any fun k => k != g.rank && (routeTo (rankHolder g k) s).isNone then refuseCap r 0x0402 s
    else admitPass r p g s

end Sys2Proof.Machine
end

