-- ==== Sys2Proof/Machine/Mirror.lean ====
section
/-!
DEFINITION. Machine/Mirror.lean: sending journalled records to the deskmate, and what it acknowledges (R380).
-/

namespace Sys2Proof.Machine

/-- The mirror links: L00 and L18 (R379). -/
def mateLink (second : Bool) : Nat := if second then 18 else 0

/-- Whether this device mirrors to a deskmate now. -/
def mirroring (s : State) : Bool := s.mate.formed && !s.mate.degraded

/-- A byte string as segments of COLL 6, GROUP 0xFFFF, cut at 65,536 bytes; `ordinal` is the first record's SEQ or the redo's
step (R375). -/
def mateSegs (ordinal : Word) (bs : List Byte) (t : Word) : List OutSeg :=
  (chunks 65536 bs).zipIdx.map fun x =>
    { pass := 0, num := 0, promise := t, prio := 3, order := 0, coll := 6, group := 0xFFFF, level := 15, ordinal := ordinal
      element := 65536 * x.2, sig := 0, srcRank := 0, dstRank := 0, postUs := t.toNat / 1024 % 2 ^ 36, coded := false, data := x.1 }

/-- Bytes queued for the deskmate on one mirror link. -/
def sendMate (second : Bool) (ordinal : Word) (bs : List Byte) (s : State) : State :=
  (mateSegs ordinal bs (now s + 50000)).foldl (fun s x => enqueueSeg (mateLink second) x s) s

/-- One record queued, over L00 and L18 in alternation. -/
def sendRecord (r : JRec) (s : State) : State :=
  modMate (fun m => { m with mirrorLink1 := !m.mirrorLink1, unacked := m.unacked ++ [r] })
    (sendMate s.mate.mirrorLink1 (BitVec.ofNat 64 r.seq) (recBytes r) s)

/-- Every record journalled and not yet queued is queued (R380). -/
def sendMirror (s : State) : State :=
  if mirroring s then s.mate.toSend.foldl (fun s r => sendRecord r s) (modMate (fun m => { m with toSend := [] }) s)
  else modMate (fun m => { m with toSend := [] }) s

/-- The digest of a segment's records, in unit order (R385): each block record follows its first stripe's. -/
def segDigest (b : Binding) (seg : Nat) (s : State) : List Byte :=
  shake256 32 (((List.range 64).filter fun j => 64 * seg + j < stripeCount b).flatMap fun j =>
    let i := 64 * seg + j
    stripeBytes b.rule (getStripe b i s)
      ++ (if isBlockRule b.rule && i % 16 == 0 then blockBytes b.rule (getBlock b (i / 16) s) else []))

/-- The DIGEST items of a group's segments, sent to the deskmate at the commit of every step that is a multiple of 1,024. -/
def sendDigests (g : Nat) (n : Word) (s : State) : State :=
  if !mirroring s || n.toNat % 1024 != 0 then s
  else
    (s.nmu.bindings.filter fun b => b.group == g).foldl (fun s b =>
      (List.range (ceilDiv b.count 65536)).foldl (fun s seg =>
        let d := segDigest b seg s
        let w (i : Nat) : Word := BitVec.ofNat 64 (wordAt d i)
        sendItem (mateLink false) (mkItem 0x18 0 (BitVec.ofNat 64 (b.num + seg * 2 ^ 16)) (w 0) (w 1) (w 2) (w 3)) s) s) s

end Sys2Proof.Machine
end

