-- ==== Sys2Proof/Machine/Update.lean ====
section
/-!
DEFINITION. Machine/Update.lean: bindings and the fused update (R190, R195, R219 to R226, R229 to R244, R269, R270).
-/

namespace Sys2Proof.Machine

/-! ## The Block Directory and its caches (R225, R269, R270) -/

/-- A cache with an entry used: most recently used first, sixteen ways in each set. -/
def useLine (e : Nat) (dirty : Bool) (c : List (Nat × Bool)) : List (Nat × Bool) :=
  let set (x : Nat) : Nat := x / 4 % 4096
  let was := (c.find? fun x => x.1 == e).any fun x => x.2
  let rest := c.filter fun x => x.1 != e
  let ways := (rest.filter fun x => set x.1 == set e).take 15
  (e, was || dirty) :: rest.filter fun x => set x.1 != set e || ways.contains x

/-- An entry used by its compute die: a miss is counted and read (R270). -/
def bdAccess (e : Nat) (dirty : Bool) (s : State) : State :=
  let hit := (vget s.nmu.cache (e % 4) []).any fun x => x.1 == e
  let s := modNmu (fun n => { n with cache := vmod n.cache (e % 4) (useLine e dirty) }) s
  if hit then s
  else countCard 8 1 (modNmu (fun n => { n with misses := if n.misses.contains e then n.misses else n.misses ++ [e] }) s)

/-- BD_MISS_FILL (R270): the entry's 32 bytes arrive. -/
def execBdMissFill (entry : Nat) (s : State) : Out :=
  .next (modNmu (fun n => { n with misses := n.misses.filter fun e => e != entry }) s)

/-- A directory entry written. -/
def setBd (e : Nat) (x : BdEntry) (s : State) : State := modNmu (fun n => { n with dir := tset n.dir e x }) s

/-- An entry after stripe `i` was updated in step `n`: TOUCHED is cleared when LAST_STEP changes. -/
def touchedBd (i : Nat) (n : Word) (x : BdEntry) : BdEntry :=
  let t : Word := if x.lastStep == n then x.touched else 0
  { x with lastStep := n, touched := t ||| BitVec.ofNat 64 (2 ^ (i % 64)) }

/-! ## Units -/

/-- Flags an NMU raised: in the card alone (R229). -/
def nmuFlags (f : BitVec 7) (s : State) : State := orCard 9 (f.toNat * 2 ^ 8) (modNmu (fun n => { n with nmuFlags := n.nmuFlags ||| f }) s)

/-- The coefficients of a step in a binding's ring. -/
def coefAt (b : Binding) (n : Word) : Coef := tgetD b.ring (n.toNat % 4096) {}

/-- A stripe of a binding changed in step `n` by a function, journalled with its directory entry, and listed for
publication. -/
def changeStripe (b : Binding) (i : Nat) (n : Word) (update : Bool) (f : Stripe → Stripe × BitVec 7) (s : State) : State :=
  let old := getStripe b i s
  let r := f old
  let d := dirOf b i
  let e := bdOf d s
  let e' := if update then touchedBd i n e else e
  let s := setBd d e' (putStripe b i r.1 (bdAccess d true s))
  let s := journalStripe 1 b i n old r.1 e e' s
  nmuFlags r.2 (modBinding b.num (fun b => { b with touchedNow := if b.touchedNow.contains i then b.touchedNow else b.touchedNow ++ [i] }) s)

/-- A block record changed in step `n`, journalled with its first stripe's directory entry. -/
def changeBlock (b : Binding) (q : Nat) (n : Word) (new : Block) (s : State) : State :=
  let old := getBlock b q s
  let e := bdOf (dirOf b (16 * q)) s
  journalBlock 1 b q n old new e e (putBlock b q new s)

/-- Rules 0 to 3 on a stripe: catch-up over the steps missed, then the rule for step `n` (R225). -/
def updateStripe (b : Binding) (i : Nat) (n : Word) (g : List NV) (s : State) : State :=
  changeStripe b i n true (fun x =>
    let c := catchStripe b.rule b.ring (x.step.toNat + 1) (n.toNat - 1) x
    let r := ruleStripe b.rule (coefAt b n) (hyNesterov b.hyper) n g c.1
    (r.1, c.2 ||| r.2)) s

/-- MODE 0 of rule 5: the preconditioned momentum applied (R234). -/
def precondApply (k : Coef) (u : Mat) (w : List NV) : List NV :=
  w.zipIdx.map fun x =>
    let v := nFma 0x01 (nv32 k.wd) x.1 (nDiv (nv32 (u.getD x.2 0)) (nv32 k.bc1))
    nFma 0x07 (nNeg (nv32 k.lr)) v x.1

/-- What a recomputation raises (R239, R240). -/
def raiseRoot (b : Binding) (q : Nat) (x : Block) (ev : RootEvent) (s : State) : State :=
  let args := [b.num, b.lbase / 16384 + q, x.damp.toNat, x.fails]
  match ev with
  | 1 => raiseDev 3 (raiseEvent 0x20 args s)
  | 2 => raiseDev 4 (raiseEvent 0x21 args (raiseDev 3 (raiseEvent 0x20 args s)))
  | 3 => raiseDev 5 (raiseEvent 0x22 args s)
  | _ => s

/-- The block record and masters of a block after step `n`: rule 4, or rule 5 with its precondition pass, from the caught-up
block, its moments before and after, and its masters. -/
def blockRule (b : Binding) (n : Word) (k : Coef) (x : Block) (g m w : List NV) : Block × List NV × RootEvent :=
  let fs := factorStats k g x.row x.col
  let row := fs.1.map to32
  let col := fs.2.map to32
  let factored := factorApply k fs.1 fs.2 m w
  let x := { x with step := n, row := row, col := col, statCount := min (2 ^ 32 - 1) (x.statCount + 1) }
  if b.rule == 4 then (x, factored, 0)
  else
    let ma := (m.map to32).toArray
    let pp := precondPass k (x.mode == 0) ma x.lstat.toArray x.rstat.toArray x.lroot.toArray x.rroot.toArray
    let w' := match pp.2.2 with
      | some u => precondApply k u w
      | none => factored
    let x := { x with lstat := pp.1.toList, rstat := pp.2.1.toList }
    let r := if rootDue (hyInterval b.hyper) n x then recompute (hyDamp b.hyper) n x else (x, 0)
    (matureMode (hyMature b.hyper) r.1, w', r.2)

/-- Rules 4 and 5 on a block: catch-up of its record and stripes, the moments, the statistics, the masters (R230, R234). -/
def updateBlock (b : Binding) (q : Nat) (n : Word) (g : List NV) (s : State) : State :=
  let k := coefAt b n
  let old := getBlock b q s
  let lo := old.step.toNat + 1
  let cb := catchBlock b.rule b.ring lo (n.toNat - 1) old
  let ss := (List.range 16).map fun j => catchStripe b.rule b.ring lo (n.toNat - 1) (getStripe b (16 * q + j) s)
  let w := (ss.flatMap fun x => x.1.w).map nv40
  let m := List.zipWith (fun x y => momentLine k x y) g ((ss.flatMap fun x => x.1.m).map nv32)
  let r := blockRule b n k cb.1 g m w
  let ws := (r.2.1.map to40).toArray
  let ms := (m.map to32).toArray
  let cut {α : Type} (xs : Array α) (j : Nat) : List α := ((xs.toList).drop (1024 * j)).take 1024
  let s := (List.range 16).foldl (fun s j =>
    changeStripe b (16 * q + j) n true (fun x => ({ x with step := n, w := cut ws j, m := cut ms j }, 0)) s) s
  let s := changeBlock b q n r.1 s
  raiseRoot b q r.1 r.2.2 (nmuFlags (cb.2 ||| orFlags (ss.map Prod.snd) ||| orFlags (m.map Prod.snd) ||| orFlags (r.2.1.map Prod.snd)) s)

/-- A unit updated in step `n` with its gradients. -/
def updateUnit (b : Binding) (u : Nat) (n : Word) (g : List NV) (s : State) : State :=
  if isBlockRule b.rule then updateBlock b u n g s else updateStripe b u n g s

/-- A unit caught up to step `n` (R230, R232): every element multiplied by its factor, state step `n`. -/
def catchUnit (b : Binding) (u : Nat) (n : Word) (s : State) : State :=
  if isBlockRule b.rule then
    let old := getBlock b u s
    let lo := old.step.toNat + 1
    let cb := catchBlock b.rule b.ring lo n.toNat old
    let s := (List.range 16).foldl (fun s j => changeStripe b (16 * u + j) n false (fun x =>
      let c := catchStripe b.rule b.ring lo n.toNat x
      ({ c.1 with step := n }, c.2)) s) s
    nmuFlags cb.2 (changeBlock b u n { cb.1 with step := n } s)
  else changeStripe b u n false (fun x =>
    let c := catchStripe b.rule b.ring (x.step.toNat + 1) n.toNat x
    ({ c.1 with step := n }, c.2)) s

/-- The state step of a unit. -/
def unitStep (b : Binding) (u : Nat) (s : State) : Word :=
  if isBlockRule b.rule then (getBlock b u s).step else (getStripe b u s).step

/-- Parameters of a unit. -/
def unitParams (b : Binding) : Nat := if isBlockRule b.rule then 16384 else 1024

/-- Units of a binding. -/
def unitCount (b : Binding) : Nat := if isBlockRule b.rule then blockCount b else stripeCount b

/-! ## NMU_UNIT_UPDATE (R190, R195, R225, R242) -/

/-- The element of a pass that updates parameter `q` of a binding, when the pass delivers it. -/
def paramElem (p : Pass) (g : Group) (b : Binding) (q : Nat) : Option Nat :=
  let first := (p.dst - b.base) / fmtBytes b.fmt
  let n := groupN g
  if first ≤ q && q < first + shareLen p n g.rank then some (shareLo p n g.rank + q - first) else none

/-- A reduced gradient as the rule uses it: times 2^-e, in BF16 for a tiered binding (R190, R241). -/
def scaledGrad (b : Binding) (e : Int) (code : Nat) : NV :=
  let x := nMul 0x01 (decodeCode 0x01 code, 0) (nvPow2 (-e))
  if (tierPort b).isSome then nvOf 0x02 (roundArith 0x02 x.1) x.2 else x

/-- A unit's reduced gradients as codes: +0 where nothing is delivered; none while one is still missing. -/
def unitGrads (p : Pass) (g : Group) (b : Binding) (u : Nat) : Option (List Nat) :=
  allSome ((List.range (unitParams b)).map fun i => match paramElem p g b (u * unitParams b + i) with
    | none => some 0
    | some e => (rootVal p g e).map fun v => v.1.toNat % 2 ^ 32)

/-- A unit of a pass done. -/
def markUnit (p : Pass) (u : Nat) (s : State) : State := modPass p.id (fun q => { q with journalled := q.journalled ++ [u] }) s

/-- A unit whose gradients are complete, of a binding in the fast tier or untouched; a touched tiered unit is staged until its
record lands. -/
def takeUnit (p : Pass) (g : Group) (b : Binding) (u : Nat) (n : Word) (codes : List Nat) (s : State) : State :=
  let s := if codes.any fun c => nonFiniteFp (decodeCode 0x01 c) then modGroup g.id (fun x => { x with overflow := true }) s else s
  let gs := codes.map (scaledGrad b g.scaleUsed)
  let stripes := if isBlockRule b.rule then 16 else 1
  let s := nmuFlags (orFlags (gs.map Prod.snd)) s
  if !hyTouchAll b.hyper && gs.all (fun x => isZeroFp x.1) then markUnit p u s
  else if (tierPort b).isSome then
    let d := dirOf b (stripes * u)
    modPass p.id (fun q => { q with staging := q.staging - 2112 * stripes })
      (setBd d { bdOf d s with fetching := true }
        (modBinding b.num (fun b => { b with staged := b.staged ++ [(u, gs.map to32)] }) s))
  else markUnit p u (updateUnit b u n gs s)

/-- NMU_UNIT_UPDATE (R225): the last reduced gradient of a unit of an admitted fused pass has arrived. -/
def execNmuUnitUpdate (pass unit : Nat) (s : State) : Out :=
  .next <| sendMirror <|
    match passOf pass s with
    | none => s
    | some p =>
      match groupOf p.group s, passUnits p s with
      | some g, some (b, q, k) =>
        if p.admitted && p.fuse && decide (q ≤ unit) && decide (unit < q + k) && !p.journalled.contains unit
            && !(b.staged.any fun x => x.1 == unit) && g.open'.isSome && g.open' == p.step && !unitHeld b unit s then
          match g.open', unitGrads p g b unit with
          | some n, some codes => takeUnit p g b unit n codes s
          | _, _ => s
        else s
      | _, _ => s

/-- The passes that name a unit of a binding have it journalled. -/
def markPasses (b : Binding) (u : Nat) (s : State) : State :=
  (s.passes.filter fun p => p.fuse && p.admitted && (match passUnits p s with
    | some (c, q, k) => c.num == b.num && decide (q ≤ u) && decide (u < q + k)
    | none => false)).foldl (fun s p => markUnit p u s) s

/-- RECORD_LANDS (R242): a tiered unit's record arrives; the unit is updated and written back. -/
def execRecordLands (binding unit : Nat) (s : State) : Out :=
  .next <| sendMirror <|
    match bindingOf binding s with
    | none => s
    | some b =>
      match b.staged.find? (fun x => x.1 == unit), (groupOf b.group s).bind fun g => g.open', tierPort b with
      | some x, some n, some t =>
        if (portOf t s).fenced then s
        else
          let s := updateUnit b unit n (x.2.map nv32) s
          let d := dirOf b (if isBlockRule b.rule then 16 * unit else unit)
          markPasses b unit (setBd d { bdOf d s with fetching := false }
            (modBinding b.num (fun b => { b with staged := b.staged.erase x, writeBack := b.writeBack ++ [unit] }) s))
      | _, _, _ => s

/-- WRITE_BACK_ACKNOWLEDGED (R242): the host has a unit's record back, and its staged bytes are freed. -/
def execWriteBackAcknowledged (binding unit : Nat) (s : State) : Out :=
  .next (modBinding binding (fun b =>
    if b.writeBack.contains unit then
      { b with writeBack := b.writeBack.erase unit, stageUsed := b.stageUsed - 2112 * (if isBlockRule b.rule then 16 else 1) }
    else b) s)

/-! ## RULE_BIND (R219, R220, R269) -/

/-- An FP32 code that is finite and not below zero. -/
def fpNonNeg (c : W32) : Bool := let x := decodeCode 0x01 c.toNat; !nonFiniteFp x && !ltFp x (.fin false 0 0)

/-- An FP32 code at least 0 and below 1. -/
def fpBelowOne (c : W32) : Bool := fpNonNeg c && ltFp (decodeCode 0x01 c.toNat) (.fin false 1 0)

/-- An FP32 code finite and above zero. -/
def fpPositive (c : W32) : Bool := let x := decodeCode 0x01 c.toNat; !nonFiniteFp x && ltFp (.fin false 0 0) x

/-- Whether the fields of a hyperparameter block read at STEP_OPEN are in range (Table 09-1). -/
def hyStepOk (rule : Nat) (h : List Word) : Bool :=
  fpNonNeg (hyLr h) && fpNonNeg (hyWd h) && fpBelowOne (hyBeta1 h) && (rule == 0 || fpBelowOne (hyBeta2 h))
    && (!(rule == 1 || rule == 2) || fpPositive (hyEps h)) && (!isBlockRule rule || fpPositive (hyEps1 h))

/-- Whether the fields read at RULE_BIND are in range. -/
def hyBindOk (rule : Nat) (h : List Word) : Bool :=
  let w4 := h.getD 4 0
  let tiered := hyTier h != 0
  hyLbase h % 65536 == 0 && decide (hyTier h ≤ 2) && fieldNat w4 4 4 == 0 && (rule != 5 || fpPositive (hyDamp h))
    && (!tiered || (hySlow h % pageBytes == 0 && hyStageBytes h % pageBytes == 0))
    && fieldNat (h.getD 6 0) 48 16 == 0 && fieldNat (h.getD 7 0) 48 16 == 0

/-- The part of a hyperparameter block that may not change after RULE_BIND (R221). -/
def hyBindPart (h : List Word) : List Word := h.drop 3

/-- A hyperparameter block as memory holds it. -/
def readHyper (slot va : Nat) (s : State) : List Word := (List.range 8).map fun i => vaWord slot (va + 8 * i) s

/-- Whether a binding's staging area lies in fast pages of its channel. -/
def stageFast (slot : Nat) (h : List Word) (s : State) : Bool :=
  hyTier h == 0 || ((badRegion slot (hyStageVa h) (hyStageBytes h) true s).isNone
    && (pieces slot (hyStageVa h) (hyStageBytes h) s).all fun x => x.1 == 0)

/-- The lowest run of `n` free directory entries. -/
def freeEntries (n : Nat) (s : State) : Option Nat :=
  let ends := 0 :: s.nmu.bindings.map fun b => b.dirFirst + ceilDiv b.count 65536
  let free (a : Nat) : Bool := decide (a + n ≤ 1048576) && s.nmu.bindings.all fun b =>
    decide (a + n ≤ b.dirFirst) || decide (b.dirFirst + ceilDiv b.count 65536 ≤ a)
  (ends.filter free).min?

/-- Fast frames that a binding's state takes (Table 09-2). -/
def stateFrames (rule count tier : Nat) : Nat :=
  if tier != 0 then 0
  else ceilDiv (ceilDiv count 1024 * stripeSize rule + (if isBlockRule rule then count / 16384 * blockSize rule else 0)) pageBytes

/-- The frames not yet in use. -/
def freeFrameCount (s : State) : Nat := frameCapacity s.flash.variant - s.memory.framesUsed.length - s.memory.privateFrames

/-- A BIND record's payload: the hyperparameter block and the first directory entry (Table 14-3). -/
def bindRec (b : Binding) (n : Word) (s : State) : JRec :=
  { kind := 9, journal := stackOfStripe b 0 s, step := n, binding := b.num, mirror := false, unit := b.lbase, seq := 0, postCrc := 0
    chain := 0, payload := b.hyper.flatMap wordBytes ++ leBytes 8 b.dirFirst }

/-- The masters of a new binding: the exact values of its working copy, one stripe record each (R220). -/
def bindStripes (b : Binding) (s : State) : State :=
  (List.range (stripeCount b)).foldl (fun s i =>
    let n := min 1024 (b.count - 1024 * i)
    let xs := decodeTensor b.fmt (vaRead b.slot (b.base + 1024 * i * fmtBytes b.fmt) (n * fmtBytes b.fmt) s)
    let w := (List.range 1024).map fun j => BitVec.ofNat 40 (match xs[j]? with | some x => (roundArith 0x07 x).1 | none => 0)
    putStripe b i { emptyStripe b.rule b.bindStep with w := w } s) s

/-- The directory entries of a new binding (R220, R269). Where records lie is the device's choice (notes/assumptions/22.md). -/
def bindEntries (b : Binding) (s : State) : State :=
  (List.range (ceilDiv b.count 65536)).foldl (fun s k =>
    let e := b.dirFirst + k
    let tiered := hyTier b.hyper != 0
    let bands := frameCapacity s.flash.variant / 1024
    setBd e { touched := 0, lastStep := b.bindStep, band := if tiered then 0 else bands - 1 - e / 64 % bands
              slotBase := if tiered then 0 else 4288 * e % 4096, offset := if tiered then 0 else 64 * (e / 65536) % 2048
              binding := b.num, rule := b.rule, tier := hyTier b.hyper, valid := true, chanSlot := b.slot } s) s

/-- A binding made, its checks passed. -/
def bindRule (r : DescRec) (b : Binding) (s : State) : State :=
  let s := modMemory (fun m => { m with privateFrames := m.privateFrames + b.frames })
    (modNmu (fun n => { n with bindings := n.bindings ++ [b], nextBinding := (b.num + 1) % 65536 }) s)
  let s := bindEntries b s
  let s := bindStripes b s
  let s := (List.range (blockCount b)).foldl (fun s q => putBlock b q (startBlock b q) s) s
  done r 0 (appendRec (bindRec b b.bindStep s) s)

/-- The binding numbers in use step over one another. -/
def freeBinding (s : State) : Nat :=
  (((List.range 65536).map fun i => (s.nmu.nextBinding + i) % 65536).find? fun i => !(s.nmu.bindings.any fun b => b.num == i)).getD 0

/-- A RULE_BIND whose group has no open step: its contents and capacity checked, the rule bound. -/
def applyBind (r : DescRec) (s : State) : State :=
  let d := r.desc
  let slot : Nat := d.slot
  let rule := fieldNat d.w4 0 8
  let fmt := fieldNat d.w4 8 8
  let base := d.w2.toNat
  let count := fieldNat d.w3 0 48
  let h := readHyper slot d.w5.toNat s
  let bytes := count * fmtBytes fmt
  let mine := pieces slot base bytes s
  match groupOf (hyGroup h) s with
  | none => refuse r 0x0004 0 s
  | some g =>
    if (s.nmu.bindings.any fun b => b.group == g.id && decide (b.lbase < hyLbase h + count) && decide (hyLbase h < b.lbase + b.count))
        || (s.nmu.bindings.any fun b => piecesMeet mine (pieces b.slot b.base (b.count * fmtBytes b.fmt) s)) then refuse r 0x0004 0 s
    else match freeEntries (ceilDiv count 65536) s with
      | none => refuseCap r 0 s
      | some first =>
        let frames := stateFrames rule count (hyTier h)
        if freeFrameCount s < frames then refuseCap r 0 s
        else match poisonVa slot base bytes s with
          | some a => refuse r 0x0104 a s
          | none => bindRule r
              { num := freeBinding s, slot := slot, base := base, count := count, rule := rule, fmt := fmt, hyperVa := d.w5.toNat, hyper := h
                group := g.id, lbase := hyLbase h, bindStep := g.lastStep, dirFirst := first, frames := frames } s

/-- A release with no step open: the binding's state and entries freed. -/
def applyRelease (r : DescRec) (b : Binding) (s : State) : State :=
  let s := appendRec (bindRec b (((groupOf b.group s).map fun g => g.lastStep).getD b.bindStep) s) s
  done r 0 (releaseBindings (fun x => x.num == b.num) s)

/-- Whether a step is open in a group. -/
def stepIsOpen (g : Nat) (s : State) : Bool := ((groupOf g s).map fun x => x.open'.isSome).getD false

/-- The fields of a RULE_BIND (R219, check 1). -/
def bindFieldsOk (d : Desc) : Bool :=
  let rule := fieldNat d.w4 0 8
  let fmt := fieldNat d.w4 8 8
  let count := fieldNat d.w3 0 48
  decide (rule ≤ 5) && decide (1 ≤ fmt ∧ fmt ≤ 5) && d.w2.toNat % (65536 * fmtBytes fmt) == 0 && count != 0
    && (!isBlockRule rule || count % 16384 == 0)

/-- RULE_BIND, or the release of a binding by RULE 0xFF, as it starts: held while a step is open in the binding's group. -/
def startRule (r : DescRec) (s : State) : State :=
  let d := r.desc
  let slot : Nat := d.slot
  if fieldNat d.w4 0 8 == 0xFF then
    match s.nmu.bindings.find? fun b => b.slot == slot && b.base == d.w2.toNat with
    | none => refuse r 0x0004 0 s
    | some b => if stepIsOpen b.group s then holdAs r .ruleBind s else applyRelease r b s
  else if !bindFieldsOk d then refuse r 0x0004 0 s
  else
    let bytes := fieldNat d.w3 0 48 * fmtBytes (fieldNat d.w4 8 8)
    match regionsFault slot [(d.w2.toNat, bytes, false), (d.w5.toNat, 64, false)] s with
    | some a => refuse r 0x0101 a s
    | none =>
      let h := readHyper slot d.w5.toNat s
      let rule := fieldNat d.w4 0 8
      if d.w5.toNat % 64 != 0 || !hyStepOk rule h || !hyBindOk rule h || !stageFast slot h s || (groupOf (hyGroup h) s).isNone then
        refuse r 0x0004 0 s
      else if stepIsOpen (hyGroup h) s then holdAs r .ruleBind s
      else applyBind r s

/-- RULE_BIND (R219). -/
def execRuleBind (d : Desc) (s : State) : Out := .next (sendMirror (fetchWith 0x05 d noFetchEffect startRule s))

/-- RULE_RELEASE (R219): RULE_BIND with RULE 0xFF. -/
def execRuleRelease (d : Desc) (s : State) : Out := .next (sendMirror (fetchWith 0x05 d noFetchEffect startRule s))

/-- RULE_BIND_RELEASE (R219): the open step that held a RULE_BIND or a release has completed, and it is checked afresh. -/
def execRuleBindRelease (id : Nat) (s : State) : Out :=
  .next <| sendMirror <|
    match descOf id s with
    | none => s
    | some r =>
      if r.hold == .ruleBind && (chanOf r.desc.slot s).isSome then
        let t := startRule { r with hold := .run } s
        if (descOf id t).any fun x => x.hold == .ruleBind then s else t
      else s

end Sys2Proof.Machine
end

