-- ==== Sys2Proof/Machine/Cards.lean ====
section
/-!
DEFINITION. Machine/Cards.lean: report cards and the rings that carry them (R430 to R436, R443), and the decisions the Policy
Engine logs (R437, R440).
-/

namespace Sys2Proof.Machine

/-! ## Capacities (R261, Table 17-3) -/

/-- GiB of a channel, and of the fast tier, of a variant (Table 10-1). -/
def channelGib (v : Variant) : Nat := match v with | .F => 4 | .E => 3 | .S => 2
def fastGib (v : Variant) : Nat := match v with | .F => 1344 | .E => 1008 | .S => 672

/-- The installed capacity in service: every channel not mapped out. -/
def installedGib (s : State) : Nat := channelGib s.flash.variant * (384 - s.memory.chans.countP fun c => c.2.out)

/-! ## The bytes of a card (R433 to R436, R440) -/

/-- An event record. -/
def eventBytes (e : EventRec) : List Byte :=
  leBytes 8 e.code ++ wordBytes e.dtime ++ (List.range 6).flatMap fun i => leBytes 8 (e.args.getD i 0)

/-- A decision record. -/
def decisionBytes (d : DecisionRec) : List Byte :=
  leBytes 8 (d.setting + (if d.applied then 256 else 0) + d.group * 2 ^ 16) ++ wordBytes d.dtime ++ leBytes 8 d.subject
    ++ leBytes 8 d.old ++ leBytes 8 d.new ++ leBytes 8 d.trigger ++ leBytes 8 d.measured ++ leBytes 8 0

/-- A phase: its number, start and end. -/
abbrev Phase := Nat × Word × Word

/-- A phase record. -/
def phaseBytes (p : Phase) : List Byte := leBytes 8 p.1 ++ wordBytes p.2.1 ++ wordBytes p.2.2 ++ leBytes 8 0

/-- A stall record. -/
def stallBytes (x : Nat × Nat × Nat) : List Byte := leBytes 8 (x.1 + x.2.1 % 2 ^ 32 * 2 ^ 32) ++ leBytes 8 x.2.2

/-- A counter word: MEM_READ, MEM_WRITE, PCIE_A and PCIE_B (words 0, 1, 5, 6) are free values, since the bytes every unit moves for a
step are not stated (notes/assumptions/35.md). -/
def counterWord (i : Nat) (s : State) : Nat :=
  if i == 0 || i == 1 || i == 5 || i == 6 then (Config.freeWord (s.free + i)).toNat else vget s.card.counters i 0

/-- The counter block: the words counted, then the capacities and scale codes. -/
def counterBytes (used next : Nat) (s : State) : List Byte :=
  ((List.range 12).flatMap fun i => leBytes 8 (counterWord i s))
    ++ leBytes 8 (enabledCores s % 256 + installedGib s * 2 ^ 16 + fastGib s.flash.variant * 2 ^ 32)
    ++ leBytes 8 (used + next * 2 ^ 8) ++ leBytes 16 0

/-- What a card says of itself: KIND, BY_DESKMATE, GROUP or WINDOW, STEP or VERSION, STATUS, ROLLBACKS. -/
abbrev CardHead := Nat × Bool × Nat × Word × Nat × Nat

/-- A card's bytes with a DROPPED count and its CRC (Table 17-2). -/
def cardBytes (h : CardHead) (used next : Nat) (ps : List Phase) (dropped : Nat) (s : State) : List Byte :=
  let es := s.card.events.take 255
  let ds := s.card.decisions.take 63
  let st := sortBy (fun a b => decide (a.1 ≤ b.1)) (s.card.stalls.filter fun x => x.2.2 != 0)
  let lost := min 0xFFFF (s.card.events.length - es.length)
  let body := counterBytes used next s ++ ps.flatMap phaseBytes ++ st.flatMap stallBytes ++ es.flatMap eventBytes ++ ds.flatMap decisionBytes
  let head (crc : Nat) : List Byte :=
    leBytes 8 (0x4C594B52 + 2 ^ 32 + h.1 * 2 ^ 40 + (if h.2.1 then 2 ^ 44 else 0)) ++ leBytes 8 (64 + body.length + h.2.2.1 * 2 ^ 32)
      ++ wordBytes h.2.2.2.1 ++ leBytes 8 s.card.seq ++ wordBytes s.mod.identity
      ++ leBytes 8 (ps.length + st.length * 2 ^ 8 + es.length * 2 ^ 16 + ds.length * 2 ^ 24 + lost * 2 ^ 32 + min 0xFFFF dropped * 2 ^ 48)
      ++ leBytes 8 (h.2.2.2.2.1 + h.2.2.2.2.2 * 2 ^ 8) ++ leBytes 8 crc
  head (crc32c (head 0 ++ body)).toNat ++ body

/-! ## The report rings (R430, R431) -/

/-- A card waits at a port whose ring is enabled; past 64 the oldest is dropped and counted. -/
def queueCard (p : Port) (mk : Nat → List Byte) (s : State) : State :=
  modPort p (fun q =>
    if !q.rcEnable then q
    else
      let cs := q.cards ++ [mk q.rcDroppedCard]
      if 64 < cs.length then { q with cards := cs.drop 1, rcDropped := q.rcDropped + 1, rcDroppedCard := 1 }
      else { q with cards := cs, rcDroppedCard := 0 }) s

/-- A card written: it waits at each enabled ring, and the next card begins. -/
def writeCard (h : CardHead) (used next : Nat) (ps : List Phase) (s : State) : State :=
  let mk (d : Nat) : List Byte := cardBytes h used next ps d s
  let s := queueCard .B mk (queueCard .A mk s)
  drawFree 7 <| modCard (fun k => { k with
    seq := k.seq + 1, counters := Vector.replicate 14 0, events := [], decisions := k.decisions.drop 63, stalls := [], boundary := now s }) s

/-- A pad card that reaches the end of the ring. -/
def padCard (n : Nat) : List Byte := leBytes 8 (0x4C594B52 + 2 ^ 32 + 15 * 2 ^ 40) ++ leBytes 8 n

/-- REPORT_CARD_PLACE (R431): the oldest waiting card is written once the ring has room, after a pad card where it would
cross the end. -/
def execReportCardPlace (p : Port) (s : State) : Out :=
  .next <|
    let q := portOf p s
    match q.cards with
    | [] => s
    | c :: rest =>
      let size := 2 ^ q.rcLog2.toNat
      let w := q.rcWrite.toNat
      let off := w % size
      let pad := if size < off + c.length then size - off else 0
      if !q.rcEnable || q.fenced || !q.linkUp || s.mod.stage != 7 || decide (size < w + pad + c.length - q.rcRead.toNat) then s
      else
        let base := q.rcBase.toNat
        let s := if pad == 0 then s else hostWrite p (base + off) ((padCard pad).take pad) s
        let s := hostWrite p (base + (off + pad) % size) c s
        let s := modPort p (fun q => { q with cards := rest, rcWrite := q.rcWrite + BitVec.ofNat 64 (pad + c.length) }) s
        if q.rcIrq then sendMsix p q.rcVector.toNat s else s

/-! ## New limits (R442) -/

/-- A value moved into new limits, the move logged (R442). -/
def clampTo (lo hi v : Nat) : Nat := max lo (min hi v)

/-- GROWTH_INTERVAL as the Policy Engine set it, moved into a group's limits. -/
def clampGrowth (g : Nat) (e : PolicyEntry) (s : State) : State :=
  match (groupOf g s).bind fun x => x.growthSet with
  | none => s
  | some v =>
    let c := clampTo e.growthMin e.growthMax v
    if c == v then s else logDecision 4 true g 0 v c 0 0 (modGroup g (fun x => { x with growthSet := some c }) s)

/-- A region's round length as the Policy Engine set it, moved into its group's limits. -/
def clampSteps (e : PolicyEntry) (s : State) (x : Region) : State :=
  let set := !(x.pals.any fun p => ((palOf p s).map fun q => q.localSteps) == some x.localSteps)
  let c := if set then clampTo e.localMin e.localMax x.localSteps else x.localSteps
  let s := if c == x.localSteps then s
    else logDecision 0 true x.group x.num x.localSteps c 0 0 (modRegion x.num (fun y => { y with localSteps := c }) s)
  match x.localChange with
  | none => s
  | some (k, v) =>
    let d := clampTo e.localMin e.localMax v
    if d == v then s else logDecision 0 true x.group x.num v d 0 0 (modRegion x.num (fun y => { y with localChange := some (k, d) }) s)

/-- At a group's step boundary the rest of an accepted image's limits takes effect for it (R442). -/
def takeLimits (g : Nat) (s : State) : State :=
  match s.card.nextPolicy with
  | none => s
  | some es =>
    let s := modCard (fun k => { k with policy := k.policy.filter (fun e => e.group != g) ++ es.filter fun e => e.group == g }) s
    let e := policyOf g s
    (s.regions.filter fun x => x.group == g).foldl (clampSteps e) (clampGrowth g e s)

end Sys2Proof.Machine
end

