-- ==== Sys2Proof/Machine/Links.lean ====
section
/-!
DEFINITION. Machine/Links.lean: the state of a link short of its frames and keys: lock, lanes, Down and hold-out
(R295 to R297, R329), the egress queue's flush, fence and watermarks (R323 to R326), link registers (R327), and link
avoidance (R437).
-/

namespace Sys2Proof.Machine

/-! ## Register accesses (R21, R445, R448) -/

/-- An access by a port ends its read latch (R445). -/
def endLatch (p : Port) (s : State) : State := modPort p (fun q => { q with latch := none }) s

/-- Whether the regions that answer from stage 4 answer; an offline module's do not. -/
def regionsUp (s : State) : Bool := decide (4 ≤ s.mod.stage.toNat) && decide (s.mod.stage.toNat ≤ 7)

/-- An access of a port to a register that answers from stage 4: nothing passes a fenced port. -/
def regAccess (p : Port) (f : State → State) (s : State) : State :=
  if (portOf p s).fenced then s else if regionsUp s then f (endLatch p s) else endLatch p s

/-- A read's data given to its port. -/
def readsAs (p : Port) (v : Word) (s : State) : State := modPort p (fun q => { q with readData := v }) s

/-- A read of a register that answers from stage 4: zero before, and a fenced port reads as any other (R21, R444, R448). -/
def readAccess (p : Port) (f : State → State) (s : State) : State :=
  if regionsUp s then f (endLatch p s) else readsAs p 0 (endLatch p s)

/-- LINK_MASK of the variant (Table 15-4). -/
def linkMask (v : Variant) : Nat := match v with | .F => 0xFFFFFFFFF | .E => 0xFFFFFFFFF | .S => 0xC0FFF03FF

/-- Whether the variant enables a link. -/
def linkInMask (l : Nat) (s : State) : Bool := (linkMask s.flash.variant).testBit l

/-- Whether a link may leave Down: in LINK_MASK, with ENABLE 1 (R297, R401). -/
def linkEnabled (l : Nat) (s : State) : Bool := linkInMask l s && (linkOf l s).enable

/-! ## Lock, lanes, Down (R295 to R297) -/

/-- LINK_LOCK (R295): an enabled Down link gains lock, from stage 4 on. -/
def execLinkLock (l : Fin 36) (s : State) : Out :=
  .next (if (linkOf l s).state == 0 && linkEnabled l s && regionsUp s then modLink l (fun k => { k with state := 1 }) s else s)

/-- A link Down under R297; a held-out link stays held out (Table 12-14). -/
def dropLink (l : Nat) (s : State) : State := if (linkOf l s).state == 4 || (linkOf l s).state == 0 then s else linkDown l s

/-- Calibration records whose subject includes a link discarded (R318). -/
def forgetLink (l : Nat) (s : State) : State :=
  { s with calib := s.calib.filter fun c => !((c.kind == 0 || c.kind == 1) && c.subject.testBit l) }

/-- A lane's status in the defect map (R403). -/
def noteLane (l lane : Nat) (s : State) : State :=
  modFlash (fun f => { f with laneFailed := tset f.laneFailed l (tgetD f.laneFailed l 0 ||| 2 ^ lane), rewrites := f.rewrites + 1 }) s

/-- LANE_LOST (R296): the link carries no frames while it retrains on its remaining lanes; with fewer than two it goes
Down. -/
def execLaneLost (l : Fin 36) (lane : Fin 4) (s : State) : Out :=
  .next <|
    let k := linkOf l s
    if decide (2 ≤ k.state) && k.lanes.getLsbD lane then
      let s := modLink l (fun k => { k with lanes := k.lanes &&& ~~~ BitVec.ofNat 4 (2 ^ lane.val), retrainUntil := some (mono s + 50000) }) s
      let s := raiseLink l 0 (raiseEvent 0x40 [l, lanesLeft l s] (forgetLink l (noteLane l lane s)))
      if lanesLeft l s < 2 then dropLink l s else s
    else s

/-- LANE_RETRAIN_DONE (R296): frames resume, and go-back-N sends again what was lost. -/
def execLaneRetrainDone (l : Fin 36) (s : State) : Out :=
  .next (if (linkOf l s).retrainUntil.isSome then
    modLink l (fun k => { k with retrainUntil := none, resend := k.retry }) s else s)

/-- LINK_ACK_TIMEOUT (R297): frames have been outstanding for 100 us without ACK_SEQ advancing. -/
def execLinkAckTimeout (l : Fin 36) (s : State) : Out :=
  .next <|
    let k := linkOf l s
    if !k.farActive && !k.retry.isEmpty && decide (100000 ≤ nsSince k.txAckedAt (mono s)) then dropLink l s else s

/-- LINK_AUTO_RETRAIN (R297): an enabled Down link begins another attempt every second. -/
def execLinkAutoRetrain (l : Fin 36) (s : State) : Out :=
  .next <|
    if (linkOf l s).state == 0 && linkEnabled l s && decide (1000000000 ≤ nsSince (linkOf l s).downAt (mono s)) then
      modLink l (fun k => { k with downAt := mono s }) s
    else s

/-- A hold-out's end: the link retrains (R329); one that has been disabled goes Down. -/
def endHoldOut (l : Nat) (s : State) : State :=
  if linkEnabled l s then modLink l (fun k => { k with state := 1, rollJudged := false, proved := 0 }) s else linkDown l s

/-- HOLD_OUT_EXPIRY (R329). -/
def execHoldOutExpiry (l : Fin 36) (s : State) : Out :=
  .next <|
    let k := linkOf l s
    if k.state == 4 && decide (k.holdOutS * 1000000000 ≤ nsSince k.holdOutAt (mono s)) then endHoldOut l s else s

/-- CREDIT_STALL_TIMEOUT (R328): CREDIT has been zero for 500 us while data waits. -/
def execCreditStallTimeout (l : Fin 36) (s : State) : Out :=
  .next <|
    match (linkOf l s).creditZeroSince with
    | some t => if (linkOf l s).state == 3 && decide (500000 ≤ nsSince t (mono s)) then holdOut l 5 s else s
    | none => s

/-! ## The egress queue (R322 to R326) -/

/-- SORTER_FENCE (R323): the queue becomes a FIFO in its sorted order until the next start. -/
def execSorterFence (l : Fin 36) (s : State) : Out :=
  .next (raiseLink l 3 (raiseEvent 0x44 [l, lanesLeft l s] (modLink l (fun k => { k with sorterFenced := true }) s)))

/-- Transit segments whose link holds no more leave the receive buffers they were kept in (R324). -/
def releaseTransit (k : Nat) (s : State) : State :=
  if (linkOf k s).hold && !(linkOf k s).farActive then s
  else
    let xs := s.links.flatMap fun e => e.2.transit.filter fun x => x.1 == k
    let s := if xs.isEmpty then s else
      { s with links := s.links.map fun e => (e.1, { e.2 with transit := e.2.transit.filter fun x => x.1 != k }) }
    xs.foldl (fun s x => enqueueSeg k x.2 s) s

/-- An ABORT for a segment that was cut off (Table 12-5). -/
def abortItem (x : OutSeg) : Item :=
  mkItem 0x01 0 (BitVec.ofNat 64 x.group) x.ordinal (BitVec.ofNat 64 x.element) 0 0

/-- What a flushed segment ends: a pass of this device, or another device's pass by its VOID. -/
def flushSeg (x : OutSeg) (s : State) : State :=
  if x.pass == 0 then
    match groupOf x.group s with
    | some g => if x.coll ≤ 4 then sendAll g (voidItem x.group x.ordinal.toNat (now s) stFlushed 0) s else s
    | none => s
  else match passOf (x.pass - 1) s with
    | some p => voidPass p stFlushed 0 (now s) (if p.round.isSome then s else sendVoid p stFlushed 0 s)
    | none => s

/-- A link's queue flushed (R326): FLUSHED is raised in any case, a part-sent segment is cut off with an ABORT, and the passes of
everything the queue held are void. -/
def flushLink (l : Nat) (s : State) : State :=
  let k := linkOf l s
  let xs := (match k.leaving with | some x => [x.1] | none => []) ++ k.egress
  let s := match k.leaving with
    | some x => sendItem l (abortItem x.1) s
    | none => s
  let s := settleHold l (modLink l (fun k => { k with egress := [], leaving := none, flushes := k.flushes + 1 }) (raiseLink l 7 s))
  releaseTransit l (xs.foldl (fun s x => flushSeg x s) s)

/-- LINK_FLUSH_WRITE (R326): every link whose bit is 1. -/
def execLinkFlushWrite (p : Port) (value : Word) (s : State) : Out :=
  .next (regAccess p (fun s => ((List.range 36).filter fun l => value.getLsbD l).foldl (fun s l => flushLink l s) s) s)

/-! ## Registers (R327) -/

/-- LINK_ENABLE_WRITE (R297, R401): 0 takes the link Down and keeps it there, 1 begins a retrain of a Down link at once. -/
def execLinkEnableWrite (p : Port) (l : Fin 36) (enable : Bool) (s : State) : Out :=
  .next (regAccess p (fun s =>
    if !linkInMask l s then s
    else
      let was := (linkOf l s).enable
      let s := modLink l (fun k => { k with enable := enable }) s
      if !enable then (if (linkOf l s).state == 0 then s else linkDown l s)
      else if !was then modLink l (fun k => { k with downAt := mono s }) s
      else s) s)

/-- LINK_RETRAIN_WRITE (R296, R297): an Up or Authenticating link goes Down to retrain; a hold-out is waited for. -/
def execLinkRetrainWrite (p : Port) (l : Fin 36) (s : State) : Out :=
  .next (regAccess p (fun s =>
    if !linkEnabled l s then s
    else match (linkOf l s).state with
      | 2 => linkDown l s
      | 3 => linkDown l s
      | 0 => modLink l (fun k => { k with downAt := mono s }) s
      | _ => s) s)

/-- LINK_RELEASE_WRITE (R327): a hold-out ends. -/
def execLinkReleaseWrite (p : Port) (l : Fin 36) (s : State) : Out :=
  .next (regAccess p (fun s => if (linkOf l s).state == 4 then endHoldOut l s else s) s)

/-- EGRESS_WM_WRITE (R324): ignored unless LOW_KIB + 256 ≤ HIGH_KIB ≤ 4,096. -/
def execEgressWmWrite (p : Port) (l : Fin 36) (value : W32) (s : State) : Out :=
  .next (regAccess p (fun s =>
    let high := fieldNat value 0 16
    let low := fieldNat value 16 16
    if decide (low + 256 ≤ high) && decide (high ≤ 4096) then
      releaseTransit l (settleHold l (modLink l (fun k => { k with highKib := high, lowKib := low }) s))
    else s) s)

/-- The hardware sets of a flag word that fall in the cycle of a clear, each counted (R7, R8). -/
def raiseEach (n : Nat) (bits : Nat) (raise : Nat → State → State) (s : State) : State :=
  ((List.range n).filter fun i => bits.testBit i).foldl (fun s i => raise i s) s

/-- LINK_FLAGS_CLEAR (R7, R327). -/
def execLinkFlagsClear (p : Port) (l : Fin 36) (value : BitVec 8) (coincident : BitVec 8) (s : State) : Out :=
  .next (raiseEach 8 coincident.toNat (raiseLink l)
    (regAccess p (fun s => modLink l (fun k => { k with flags := k.flags &&& ~~~ value }) s) s))

/-- RETRIED_READ (R446): a read of the whole field returns it and clears it; `coincident` is what is counted in that cycle. -/
def execRetriedRead (p : Port) (l : Fin 36) (whole : Bool) (coincident : BitVec 32) (s : State) : Out :=
  .next (modLink l (fun k => { k with retried := k.retried + coincident })
    (readAccess p (fun s => readsAs p ((linkOf l s).retried.setWidth 64)
      (if whole then modLink l (fun k => { k with retried := 0 }) s else s)) s))

/-- FEC_CORRECTED_READ (R446). -/
def execFecCorrectedRead (p : Port) (l : Fin 36) (whole : Bool) (coincident : BitVec 32) (s : State) : Out :=
  .next (modLink l (fun k => { k with fecCorrected := k.fecCorrected + coincident })
    (readAccess p (fun s => readsAs p ((linkOf l s).fecCorrected.setWidth 64)
      (if whole then modLink l (fun k => { k with fecCorrected := 0 }) s else s)) s))

/-- ABORT_RECEIVE (R304): the partial segment that begins at the element named is discarded, whole. -/
def execAbortReceive (l : Fin 36) (it : Item) (s : State) : Out :=
  .next (withItem l it 0x01 (fun s =>
    let d := (linkOf l s).rxData
    let w (i : Nat) : Word := BitVec.ofNat 64 (leNat ((d.drop (8 * i)).take 8))
    if fieldNat (w 0) 0 4 == 3 && fieldNat (w 0) 8 16 == fieldNat it.w1 0 16 && w 1 == it.w2
        && fieldNat (w 2) 0 48 == fieldNat it.w3 0 48 && decide (d.length < segBytesOf (fieldNat (w 3) 0 17)) then
      modLink l (fun k => { k with rxData := [] }) s
    else s) s)

/-! ## Link avoidance (R437, Table 17-7) -/

/-- Whether a link's record or its resent frames fall short under a group's limits: its throughput record below AVOID_RATIO of its
rate, or more than one frame in 10,000 resent over the second just ended. -/
def linkPoor (l : Nat) (g : Nat) (s : State) : Bool :=
  let k := linkOf l s
  (s.calib.any fun c => c.kind == 0 && c.subject == 2 ^ l
      && decide (c.value * 8 * 65536 < (policyOf g s).avoidRatio * laneRate (laneCount k) * 10))
    || decide (k.lastFrames < 10000 * k.lastRetried)

/-- The Policy Engine judges a link: it is avoided under the first group whose limits it breaks and whose policy allows it, fewer
than AVOID_MAX links being avoided. -/
def judgeAvoid (l : Nat) (s : State) : State :=
  let gs := (s.groups.map fun g => g.id).filter fun g => linkPoor l g s
  let n := s.links.countP fun e => e.2.avoidedAt.isSome
  if (linkOf l s).avoidedAt.isSome then s
  else match gs.find? fun g => policyAllows 2 g s && decide (n < (policyOf g s).avoidMax), gs with
    | some g, _ => logDecision 2 true g l 0 1 0 (linkOf l s).lastRetried (modLink l (fun k => { k with avoidedAt := some (mono s) }) s)
    | none, g :: _ => logDecision 2 false g l 0 1 0 (linkOf l s).lastRetried s
    | none, [] => s

/-- LINK_AVOID_REVIEW (R437): 60 s after a link was avoided it is judged again, and used once more unless it still falls short. -/
def execLinkAvoidReview (l : Fin 36) (s : State) : Out :=
  .next <|
    match (linkOf l s).avoidedAt with
    | none => s
    | some t =>
      if nsSince t (mono s) < 60000000000 then s
      else match s.groups.find? fun g => policyAllows 2 g.id s && linkPoor l g.id s with
        | some _ => modLink l (fun k => { k with avoidedAt := some (mono s) }) s
        | none => logDecision 2 true 0xFFFF l 1 0 0 (linkOf l s).lastRetried (modLink l (fun k => { k with avoidedAt := none }) s)

end Sys2Proof.Machine
end

