-- ==== Sys2Proof/Machine/Keys.lean ====
section
/-!
DEFINITION. Machine/Keys.lean: key agreement and its timers (R424 to R426), installed keys (R427, R428), a link's training
and coming Up (R295, R297, R299, R350), roll call and LEAVING (R399, R400, R405 to R408).
-/

namespace Sys2Proof.Machine

/-! ## Derived secrets (R412, R413) -/

/-- The bytes of an ASCII label. -/
def ascii (t : String) : List Byte := t.toList.map fun c => BitVec.ofNat 8 c.toNat

/-- The static KEM key pair (Table 16-1). -/
def staticKem : List Byte × List Byte := Config.kemKeys (shake256 64 (Config.deviceSecret ++ ascii "LYK-ID-KEM"))

/-- The identity an identity public key stands for (R413). -/
def identityOf (pk : List Byte) : Word := BitVec.ofNat 64 (leNat (shake256 8 pk))

/-- A Falcon signature of this device over the digest of some bytes (R415). -/
def signBytes (bs : List Byte) (s : State) : List Byte := Config.falconSign (shake256 64 bs) (freeBytes 64 s) s.free

/-- Whether a signature verifies: 1,280 bytes, over the digest of the signed bytes (R415). -/
def sigOk (pk bs sig : List Byte) : Bool := sig.length == 1280 && Config.falconVerify pk (shake256 64 bs) sig

/-- Whether an identity record is the vendor's (R414). -/
def recordOk (rec : List Byte) : Bool := rec.length == 3137 && sigOk Config.vendorKey (rec.take 1857) (rec.drop 1857)

/-- A hardware set of MBX_FLAGS bit `i` of a port (R421). -/
def raiseMbx (p : Port) (i : Nat) (s : State) : State :=
  modPort p (fun q => { q with mailbox := { q.mailbox with
    flags := q.mailbox.flags ||| BitVec.ofNat 4 (2 ^ i), counts := vmod q.mailbox.counts i (· + 1) } }) s

/-! ## The expected edge of a link (R405) -/

/-- The edge at this device's link: the partner's identity and link, and whether it is far. -/
def edgeAt (t : Topology) (l : Nat) : Option (Word × Nat × Bool) :=
  t.edges.findSome? fun e =>
    if e.1 == t.self && e.2.1 == l then some (((t.devices[e.2.2.1]?).map Prod.fst).getD 0, e.2.2.2.1, e.2.2.2.2)
    else if e.2.2.1 == t.self && e.2.2.2.1 == l then some (((t.devices[e.1]?).map Prod.fst).getD 0, e.2.1, e.2.2.2.2)
    else none

/-- Whether this end is the initiator: the lower identity of the two, as far as the partner's is known; where it is not, this end
offers (R424). -/
def isInitiator (l : Nat) (s : State) : Bool :=
  let k := linkOf l s
  let known := if k.proved != 0 then some k.proved
    else match s.flash.topology.bind fun t => edgeAt t l with
      | some e => some e.1
      | none => if k.partner != 0 then some k.partner else none
  match known with
  | some w => decide (s.mod.identity.toNat < w.toNat)
  | none => true

/-! ## Key agreement (R424, R425) -/

/-- A message of 6,017 bytes as 189 KEX_DATA items (Table 16-5). -/
def kexItems (msg : Nat) (session : Word) (bs : List Byte) : List Item :=
  (List.range 189).map fun i =>
    let w (j : Nat) : Word := BitVec.ofNat 64 (leNat ((bs.drop (32 * i + 8 * j)).take 8))
    mkItem 0x24 (msg * 2 ^ 12 + i * 2 ^ 16) (w 0) (w 1) (w 2) (w 3) session

/-- The pre-shared key in force on a link, 32 zero bytes when none is. -/
def pskOf (k : Link) : List Byte := if k.far.pskId == 0 then List.replicate 32 0 else k.far.psk

/-- The 72 bytes both ends derive. -/
def deriveKeys (k : Link) (shared offer accept : List Byte) : List Byte :=
  shake256 72 (shared ++ pskOf k ++ shake256 64 (offer ++ accept))

/-- CONFIRM of a role: 0 the initiator, 1 the responder. -/
def confirmOf (keys : List Byte) (role : Nat) : List Byte := shake256 16 (keys ++ [BitVec.ofNat 8 role])

/-- The KEX_DONE of an end. -/
def doneItem (k : Link) (x : Kex) : Item :=
  let c := confirmOf x.keys (if x.initiator then 0 else 1)
  mkItem 0x25 0 (BitVec.ofNat 64 (leNat (c.take 8))) (BitVec.ofNat 64 (leNat (c.drop 8))) (k.far.pskId.setWidth 64) 0 x.session

/-- An agreement begun by its initiator: OFFER is sent. One already running goes on. -/
def startKex (l : Nat) (slot : Bool) (s : State) : State :=
  if (linkOf l s).kex.isSome then s
  else
    let session := Config.freeWord s.free
    let kem := Config.kemKeys (freeBytes 64 (drawFree 1 s))
    let nonce := freeBytes 32 (drawFree 65 s)
    let s := drawFree 97 s
    let body := kem.1 ++ nonce ++ s.flash.identityRecord
    let offer := body ++ signBytes body s
    let s := drawFree 65 s
    let x : Kex := { session := session, initiator := true, slot := slot, started := mono s, offer := offer, dk := kem.2 }
    (kexItems 0 session offer).foldl (fun s it => sendItem l it s) (modLink l (fun k => { k with kexRetryAt := none, kex := some x }) s)

/-- An agreement asked for by this end: the initiator starts it, the responder sends KEX_REQUEST (R426). -/
def askKex (l : Nat) (s : State) : State :=
  let k := linkOf l s
  if k.kex.isSome then s
  else if isInitiator l s then startKex l (!k.keyTx) s
  else sendItem l (mkItem 0x27 0 (if k.keyTx then 0 else 1) 0 0 0 0) s

/-- An agreement ended: at link-up the link is held out with AUTH_FAIL; while rekeying the initiator tries again in 1 s (R425). -/
def endKex (l : Nat) (authFail : Bool) (s : State) : State :=
  match (linkOf l s).kex with
  | none => s
  | some x =>
    let up := (linkOf l s).state != 3
    let s := modLink l (fun k => { k with kex := none, kexRetryAt := if x.initiator && !up then some (mono s + 1000000000) else none }) s
    let s := if authFail || up then raiseLink l 4 s else s
    if up && (linkOf l s).state == 2 then holdOut l 0 s else s

/-- An agreement ended by this end with KEX_ABORT. -/
def abortKex (l cause : Nat) (authFail : Bool) (s : State) : State :=
  match (linkOf l s).kex with
  | none => s
  | some x => endKex l authFail (sendItem l (mkItem 0x26 0 (BitVec.ofNat 64 cause) 0 0 0 x.session) s)

/-- The fields of a message: key or ciphertext, record, and whether its proof holds; `before` is signed before it. -/
def proofOf (before bs : List Byte) : List Byte × List Byte × Bool :=
  let rec' := (bs.drop 1600).take 3137
  (bs.take 1568, rec', recordOk rec' && sigOk (rec'.take 1793) (before ++ bs.take 4737) ((bs.drop 4737).take 1280))

/-- A complete OFFER answered: checked, encapsulated to, ACCEPT and KEX_DONE sent. -/
def answerOffer (l : Nat) (x : Kex) (offer : List Byte) (s : State) : State :=
  let f := proofOf [] offer
  if !f.2.2 then abortKex l 2 true s
  else
    let partner := identityOf (f.2.1.take 1793)
    let e := Config.kemEncaps f.1 s.free
    let nonce := freeBytes 32 (drawFree 1 s)
    let s := drawFree 33 s
    let body := e.1 ++ nonce ++ s.flash.identityRecord
    let accept := body ++ signBytes (shake256 64 offer ++ body) s
    let s := drawFree 65 s
    let keys := deriveKeys (linkOf l s) e.2 offer accept
    let y : Kex := { x with offer := offer, accept := accept, keys := keys, partner := partner, doneSent := true }
    let s := modLink l (fun k => { k with kex := some y }) s
    sendItem l (doneItem (linkOf l s) y) ((kexItems 1 x.session accept).foldl (fun s it => sendItem l it s) s)

/-- A complete ACCEPT taken by the initiator: checked, keys derived, KEX_DONE sent. -/
def takeAccept (l : Nat) (x : Kex) (accept : List Byte) (s : State) : State :=
  let f := proofOf (shake256 64 x.offer) accept
  if !f.2.2 then abortKex l 2 true s
  else
    let keys := deriveKeys (linkOf l s) (Config.kemDecaps f.1 x.dk) x.offer accept
    let y : Kex := { x with accept := accept, keys := keys, partner := identityOf (f.2.1.take 1793), doneSent := true }
    let s := modLink l (fun k => { k with kex := some y }) s
    sendItem l (doneItem (linkOf l s) y) s

/-- The 32 bytes a KEX_DATA item carries. -/
def chunkBytes (it : Item) : List Byte := wordBytes it.w1 ++ wordBytes it.w2 ++ wordBytes it.w3 ++ wordBytes it.w4

/-- A chunk added to an agreement; the message when its 189 chunks are all here. -/
def addChunk (x : Kex) (it : Item) : Kex × Option (List Byte) :=
  let m := tset x.inMsg (fieldNat it.w0 16 8) (chunkBytes it)
  if m.length == 189 then ({ x with inMsg := [] }, some (m.flatMap Prod.snd)) else ({ x with inMsg := m }, none)

/-- The agreement an OFFER chunk belongs to: the one of its session, or a new one, unless this end's own offer is running and this
end is the initiator (Table 16-6). -/
def offerKex (l : Nat) (it : Item) (s : State) : Option Kex :=
  let k := linkOf l s
  let fresh : Kex := { session := it.w5, initiator := false, slot := if k.state == 3 then !k.keyTx else false, started := mono s }
  match k.kex with
  | none => some fresh
  | some x => if x.session == it.w5 then (if x.initiator then none else some x) else if x.initiator && isInitiator l s then none else some fresh

/-- KEX_DATA_RECEIVE (R424). -/
def execKexDataReceive (l : Fin 36) (it : Item) (s : State) : Out :=
  .next (withItem l it 0x24 (fun s =>
    if 189 ≤ fieldNat it.w0 16 8 then formFailure l s
    else if !bitOf it.w0 12 then
      match offerKex l it s with
      | none => s
      | some x =>
        let r := addChunk x it
        let s := modLink l (fun k => { k with kex := some r.1 }) s
        match r.2 with
        | some bs => answerOffer l r.1 bs s
        | none => s
    else match (linkOf l s).kex with
      | none => s
      | some x =>
        if !x.initiator || x.session != it.w5 then s
        else
          let r := addChunk x it
          let s := modLink l (fun k => { k with kex := some r.1 }) s
          match r.2 with
          | some bs => takeAccept l r.1 bs s
          | none => s) s)

/-! ## Roll call (R400, R405 to R408) -/

/-- Whether this device holds ranks of a partner. -/
def holdsRanksOf (w : Word) (s : State) : Bool := s.mate.partner == some w && !s.mate.takenOver.isEmpty

/-- ROLL_CALL sent on a link (Table 15-8). -/
def sendRollCall (l : Nat) (s : State) : State :=
  let k := linkOf l s
  let bit (b : Bool) (n : Nat) : Nat := if b then 2 ^ n else 0
  let gen := (s.flash.topology.map fun t => t.generation).getD 0
  let crc := (s.flash.topology.map fun t => t.imageCrc.setWidth 64).getD 0
  sendItem l (mkItem 0x30 (l * 2 ^ 12 + bit s.mod.ready 18 + bit (holdsRanksOf k.proved s) 19 + bit s.mod.warm 20)
    s.mod.identity gen crc (now s) 0) (modLink l (fun k => { k with rollSentAt := mono s }) s)

/-- A link Up (R295): chip to chip its delay must be at most 25 us (R299); in far mode its two buffers must find free memory
(R350). -/
def linkUp (l : Nat) (s : State) : State :=
  let k := linkOf l s
  if !k.farActive && decide (25000 < k.delayNs) then holdOut l 6 s
  else if k.farActive && decide (freeFrameCount s < 1024) then holdOut l 7 s
  else
    let s := if k.farActive then modMemory (fun m => { m with privateFrames := m.privateFrames + 1024 }) s else s
    settleHold l (modLink l (fun k => { k with
      state := 3, crypto := k.ctlCrypto && !k.farActive, partner := k.proved, creditZeroSince := none, rxData := []
      far := { k.far with reserved := k.farActive, heardAt := mono s, delays := [], fwds := [], skewSince := none
                          overSince := none, rekeyLate := false } }) s)

/-- A roll call's mismatch recorded (Table 15-7). -/
def rollMismatch (l outcome : Nat) (want : Word × Nat) (found : Word × Nat) (s : State) : State :=
  raiseDev 22 (raiseEvent 0x70 [outcome, l, want.1.toNat, found.1.toNat, want.2, found.2] s)

/-- The outcome of a link whose partner has been proved and has sent ROLL_CALL. -/
def rollFinding (l : Nat) (it : Item) (t : Topology) (s : State) : Nat :=
  match edgeAt t l with
  | none => 1
  | some e =>
    if e.1 != (linkOf l s).proved || e.2.1 != fieldNat it.w0 12 6 then 2
    else if t.generation != it.w2 || t.imageCrc.toNat != fieldNat it.w3 0 32 then 3
    else 0

/-- A link judged under R407 from its partner's last ROLL_CALL: matched it comes Up, otherwise it is held out. -/
def judgeLink (l : Nat) (s : State) : State :=
  match s.flash.topology, (linkOf l s).rollItem with
  | some t, some it =>
    let o := rollFinding l it t s
    let st := (linkOf l s).state
    let s := modLink l (fun k => { k with rollJudged := true, rollOutcome := o }) s
    if o == 0 then (if st == 2 then linkUp l s else s)
    else
      let want := ((edgeAt t l).map fun e => (e.1, e.2.1)).getD (0, 0)
      let s := rollMismatch l o want ((linkOf l s).proved, fieldNat it.w0 12 6) s
      if st == 2 || st == 3 then holdOut l 0 (if st == 2 then raiseLink l 4 s else s) else s
  | _, _ => s

/-- A link still below Authenticating judged: ABSENT where the image has an edge for it (Table 15-7). -/
def judgeAbsent (l : Nat) (s : State) : State :=
  match s.flash.topology with
  | none => s
  | some t =>
    let s := modLink l (fun k => { k with rollJudged := true, rollOutcome := 4 }) s
    match edgeAt t l with
    | some e => rollMismatch l 4 (e.1, e.2.1) (0, 0) s
    | none => s

/-- Every enabled link judged against the image. -/
def judgeAll (s : State) : State :=
  ((List.range 36).filter fun l => linkInMask l s).foldl (fun s l =>
    if (linkOf l s).state < 2 then judgeAbsent l s else judgeLink l s) s

/-- An image accepted after ready takes effect once no group of the device has a step open, and every link is judged again
(R406). -/
def applyTopology (s : State) : State :=
  match s.mod.pendingTopology with
  | none => s
  | some t =>
    if s.groups.any fun g => g.open'.isSome then s
    else judgeAll (modMod (fun m => { m with pendingTopology := none }) (modFlash (fun f => { f with topology := some t }) s))

/-- A device that its deskmate has taken over leaves every group it held (R400). -/
def leaveTaken (w : Word) (s : State) : State :=
  let gs := s.groups
  let ids := gs.map fun g => g.id
  let s := gs.foldl (fun s g => raiseEvent 0x68 [g.id, g.rank, w.toNat] s) (raiseDev 19 s)
  let s := releaseBindings (fun b => ids.contains b.group) s
  dropRegions (fun x => ids.contains x.group) { s with groups := [] }

/-- A device heard of again: STEP_OPENs held for it go on (R399). -/
def returned (w : Word) (s : State) : State :=
  { modMod (fun m => { m with leaving := m.leaving.filter fun x => x.1 != w }) s with
    groups := s.groups.map fun g => { g with leaveHold := g.leaveHold.filter fun x => x != w } }

/-- ROLL_CALL_RECEIVE (R407). -/
def execRollCallReceive (l : Fin 36) (it : Item) (s : State) : Out :=
  .next (withItem l it 0x30 (fun s =>
    let ready := bitOf it.w0 18
    let first := !(linkOf l s).rollJudged
    let s := modLink l (fun k => { k with
      rollItem := some it, rollReady := ready, partnerLink := fieldNat it.w0 12 6 }) s
    let s := if ready then returned it.w1 s else s
    let s := if bitOf it.w0 19 && s.mod.warm && s.mate.partner == some it.w1 && !s.groups.isEmpty then leaveTaken it.w1 s else s
    if first || (linkOf l s).state == 3 then judgeLink l s else s) s)

/-- ROLL_CALL_RESEND (R407): every 100 ms until both ends have decided. -/
def execRollCallResend (l : Fin 36) (s : State) : Out :=
  .next <|
    let k := linkOf l s
    if k.proved != 0 && (k.state == 2 || k.state == 4) && decide (100000000 ≤ nsSince k.rollSentAt (mono s)) then sendRollCall l s else s

/-- LEAVING toward a member of a group (R391). -/
def leavingItem (sender : Word) (t : Word) (dest : Word) : Item := mkItem 0x31 0 sender t 0 0 dest

/-- LEAVING_RECEIVE (R399): takeover waits, STEP_OPENs of the sender's groups are held, and a direct partner forwards the item
to every member of those groups. -/
def execLeavingReceive (l : Fin 36) (it : Item) (s : State) : Out :=
  .next (withItem l it 0x31 (fun s =>
    let w := it.w1
    if it.w5 != 0 && it.w5 != s.mod.identity then sendTo it.w5 it s
    else
      let gs := s.groups.filter fun g => g.members.contains w
      let s := modMod (fun m => { m with leaving := m.leaving.filter (fun x => x.1 != w) ++ [(w, it.w2)] }) s
      let s := gs.foldl (fun s g => modGroup g.id (fun g =>
        { g with leaveHold := if g.leaveHold.contains w then g.leaveHold else g.leaveHold ++ [w] }) s) s
      if it.w5 == 0 then
        ((gs.flatMap fun g => g.members).eraseDups.filter fun m => m != w && m != s.mod.identity).foldl
          (fun s m => sendTo m (leavingItem w it.w2 m) s) s
      else s) s)

/-- LEAVING_TIMEOUT (R399): 10 s after the LEAVING's DTIME the absence is a module loss, and nothing is held for it any more. -/
def execLeavingTimeout (sender : Word) (s : State) : Out :=
  .next <|
    match s.mod.leaving.find? fun x => x.1 == sender with
    | some x => if decide (10000000000 ≤ nsSince x.2 (now s)) then returned sender s else s
    | none => s

/-! ## Confirmation, aborts, timers -/

/-- The keys of a finished agreement put in their slot: the initiator transmits under the first, the responder under the
second; each direction has its constant (R303, R424). -/
def installKeys (l : Nat) (x : Kex) (s : State) : State :=
  let key (i : Nat) : BitVec 256 := BitVec.ofNat 256 (leNat ((x.keys.drop (32 * i)).take 32))
  let con (i : Nat) : W32 := BitVec.ofNat 32 (leNat ((x.keys.drop (64 + 4 * i)).take 4))
  let slot (i : Nat) : KeySlot := { key := key i, const := con i, valid := true, items := 0, since := mono s }
  let tx := if x.initiator then 0 else 1
  let n := slotIx x.slot
  modLink l (fun k => { k with
    txKeys := vset k.txKeys n (slot tx), rxKeys := vset k.rxKeys n (slot (1 - tx)), txNonce := vset k.txNonce n 0
    rxNonce := vset k.rxNonce n none, kex := none, kexRetryAt := none
    keyTx := if k.state == 3 && k.farActive then k.keyTx else x.slot
    far := { k.far with keyNext := if k.state == 3 && k.farActive then some x.slot else none, rekeyLate := false } }) s

/-- KEX_DONE_RECEIVE (R424): the partner's CONFIRM is checked and the new keys are held; at link-up the partner is proved and
ROLL_CALL follows. -/
def execKexDoneReceive (l : Fin 36) (it : Item) (s : State) : Out :=
  .next (withItem l it 0x25 (fun s =>
    let k := linkOf l s
    match k.kex with
    | none => s
    | some x =>
      if x.session != it.w5 || x.keys.isEmpty then s
      else if k.farActive && fieldNat it.w3 0 32 != k.far.pskId.toNat then abortKex l 3 false s
      else if wordBytes it.w1 ++ wordBytes it.w2 != confirmOf x.keys (if x.initiator then 1 else 0) then abortKex l 2 true s
      else
        let s := installKeys l x s
        if k.state == 2 then
          sendRollCall l (modLink l (fun k => { k with proved := x.partner, rollJudged := false, keyRx := x.slot }) s)
        else s) s)

/-- KEX_ABORT_RECEIVE (R425). -/
def execKexAbortReceive (l : Fin 36) (it : Item) (s : State) : Out :=
  .next (withItem l it 0x26 (fun s =>
    match (linkOf l s).kex with
    | some x => if x.session == it.w5 then endKex l (fieldNat it.w1 0 8 == 2) s else s
    | none => s) s)

/-- KEX_REQUEST_RECEIVE (R426): the initiator starts an agreement for the slot named, unless one runs. -/
def execKexRequestReceive (l : Fin 36) (it : Item) (s : State) : Out :=
  .next (withItem l it 0x27 (fun s =>
    if isInitiator l s && bitOf it.w1 0 != (linkOf l s).keyTx && (linkOf l s).state == 3 then startKex l (bitOf it.w1 0) s else s) s)

/-- KEX_TIMEOUT (R425): an agreement not complete within 100 ms of OFFER. -/
def execKexTimeout (l : Fin 36) (s : State) : Out :=
  .next <|
    match (linkOf l s).kex with
    | some x => if decide (100000000 ≤ nsSince x.started (mono s)) then abortKex l 1 false s else s
    | none => s

/-- KEX_RETRY (R425): 1 s after a failed rekey the initiator tries again. -/
def execKexRetry (l : Fin 36) (s : State) : Out :=
  .next <|
    match (linkOf l s).kexRetryAt with
    | some t => if decide (t.toNat ≤ (mono s).toNat) && (linkOf l s).state == 3 then startKex l (!(linkOf l s).keyTx) s else s
    | none => s

/-- The larger count of items carried in the slots in use, either direction. -/
def slotItems (k : Link) : Nat :=
  max (vget k.txKeys (slotIx k.keyTx) {}).items
    (match vget k.rxNonce (slotIx k.keyRx) none with | some n => n.toNat + 1 | none => 0)

/-- FAR_REKEY_TIMER (R355): the slot in use has carried 2^31 frames or is 540 s old. -/
def execFarRekeyTimer (l : Fin 36) (s : State) : Out :=
  .next <|
    let k := linkOf l s
    let x := vget k.txKeys (slotIx k.keyTx) {}
    if k.farActive && k.state == 3 && k.far.keyNext.isNone
        && (decide (2 ^ 31 ≤ slotItems k) || decide (540000000000 ≤ nsSince x.since (mono s))) then askKex l s
    else s

/-- KEY_SLOT_EXHAUSTED (R303, R355, R426): no new key is ready at the limit of the slot in use: a chip-to-chip link goes Down, a far
link stops its data frames and raises REKEY_LATE. -/
def execKeySlotExhausted (l : Fin 36) (s : State) : Out :=
  .next <|
    let k := linkOf l s
    let x := vget k.txKeys (slotIx k.keyTx) {}
    if k.state != 3 then s
    else if k.farActive then
      if k.far.keyNext.isNone && !k.far.rekeyLate
          && (decide (2 ^ 32 ≤ slotItems k) || decide (600000000000 ≤ nsSince x.since (mono s))) then
        raiseFar l 3 (raiseEvent 0x48 [l, 0, 0] (modLink l (fun k => { k with far := { k.far with rekeyLate := true } }) s))
      else s
    else if 2 ^ 32 ≤ slotItems k then linkDown l s else s

/-! ## Training done (R297, R299) -/

/-- LINK_TRAINING_DONE (R297, R404): with two or more lanes the link authenticates, its counters from 0 and its keys gone; with
fewer it is Down. The lanes that passed are good. The equaliser's coefficients are no data of the model
(notes/assumptions/33.md). -/
def execLinkTrainingDone (l : Fin 36) (lanes : BitVec 4) (delayNs : Nat) (s : State) : Out :=
  .next <|
    if (linkOf l s).state != 1 then s
    else if ((List.range 4).countP fun i => lanes.getLsbD i) < 2 then linkDown l s
    else
      let s := modFlash (fun f => { f with
        laneFailed := tset f.laneFailed l (15 - lanes.toNat), rewrites := f.rewrites + 1 }) (forgetLink l s)
      let s := modLink l (fun k => { k with
        state := 2, lanes := lanes, delayNs := delayNs, farActive := k.ctlFar && farCapable l, txSeq := 0, txAcked := 0, txAckedAt := mono s
        retry := [], resend := [], rxNext := 0, rxBad := false, nakDue := false, credit := 0, sentSinceCredit := 0, control := []
        rxData := [], txKeys := Vector.replicate 2 {}, rxKeys := Vector.replicate 2 {}, rxNonce := Vector.replicate 2 none
        txNonce := Vector.replicate 2 0, keyTx := false, keyRx := false, kex := none, kexRetryAt := none, rollItem := none, proved := 0
        far := { k.far with txStripe := 0, txShard := 0, txBody := [], retransmit := [], nextStripe := 0, rxStripes := [], resent := []
                            repairQ := [], sentAgain := [], keyNext := none, freeMib := 1024, heardAt := mono s } }) s
      if isInitiator l s then startKex l false s else s

/-! ## Installed keys (R427, R428) -/

/-- Whether a key block breaks the layout of R427. -/
def keyBlockBad (bs : List Byte) (link : Nat) (s : State) : Bool :=
  let w0 := leNat (bs.take 8)
  w0 % 2 ^ 32 != 0x4C594B4B || w0 / 2 ^ 32 % 256 != 1 || w0 / 2 ^ 49 != 0 || w0 / 2 ^ 40 % 64 != link || !linkInMask link s
    || (bs.drop 0x18).take 0x28 != List.replicate 0x28 0 || (bs.drop 0x66C).take 4 != List.replicate 4 0

/-- The wrapped key of a block, when its tag verifies. -/
def unwrapKey (bs : List Byte) : Option (List Byte) :=
  let wrap := shake256 32 (Config.kemDecaps ((bs.drop 0x40).take 1568) staticKem.2 ++ ascii "LYK-KWRAP")
  let iv := (bs.drop 0x660).take 12
  let ct := (bs.drop 0x670).take 32
  if (gcmTag wrap iv (bs.take 64) ct).toNat == leNat ((bs.drop 0x690).take 16) then some (gcmCrypt wrap iv ct) else none

/-- A key put in a slot of one direction of a chip-to-chip link; a receive slot is reported with KEY_READY (R428). -/
def fillSlot (l : Nat) (slot rx : Bool) (key : List Byte) (const : W32) (s : State) : State :=
  let n := slotIx slot
  let v : KeySlot := { key := BitVec.ofNat 256 (leNat key), const := const, valid := true, items := 0, since := mono s }
  let s := match (linkOf l s).kex with
    | some x => if x.slot == slot then modLink l (fun k => { k with kexRetryAt := none }) (abortKex l 4 false s) else s
    | none => s
  if rx then
    sendItem l (mkItem 0x04 0 (if slot then 1 else 0) 0 0 0 0)
      (modLink l (fun k => { k with rxKeys := vset k.rxKeys n v, rxNonce := vset k.rxNonce n none }) s)
  else modLink l (fun k => { k with txKeys := vset k.txKeys n v, txNonce := vset k.txNonce n 0 }) s

/-- KEY_INSTALL as it starts (R428). -/
def startKeyInstall (r : DescRec) (s : State) : State :=
  let link := fieldNat r.desc.w4 0 6
  let len := fieldNat r.desc.w3 0 32
  let bs := hostRead r.port r.desc.w2.toNat 1696 s
  let w0 := leNat (bs.take 8)
  let seq : Word := BitVec.ofNat 64 (leNat ((bs.drop 8).take 8))
  let w2 := leNat ((bs.drop 16).take 8)
  let slot := w0.testBit 46
  let rx := w0.testBit 47
  let psk := w0.testBit 48
  if len != 1696 || decide (36 ≤ link) || keyBlockBad bs link s then refuse r 0x0004 0 s
  else match unwrapKey bs with
    | none => finish r stAuth 0 (BitVec.ofNat 64 link) (raiseMbx r.port 3 s)
    | some key =>
      if seq.toNat ≤ s.flash.lastKeySeq.toNat then finish r stAuth 0 (BitVec.ofNat 64 link) (raiseMbx r.port 3 s)
      else
        let s := modFlash (fun f => { f with lastKeySeq := seq, counterWrites := f.counterWrites + 1 }) s
        let k := linkOf link s
        if k.ctlFar && farCapable link then
          if !psk || slot || rx then refuse r 0x0004 0 s
          else
            let s := modLink link (fun k => { k with far := { k.far with psk := key, pskId := BitVec.ofNat 32 (w2 / 2 ^ 32) } }) s
            done r 0 (if k.state == 3 then askKex link s else s)
        else if psk then refuse r 0x0004 0 s
        else if slot == (if rx then k.keyRx else k.keyTx) then refuse r 0x0801 0 s
        else done r 0 (fillSlot link slot rx key (BitVec.ofNat 32 (w2 % 2 ^ 32)) s)

/-- KEY_INSTALL (R428). -/
def execKeyInstall (d : Desc) (s : State) : Out := .next (fetchWith 0x49 d noFetchEffect startKeyInstall s)

end Sys2Proof.Machine
end

