-- ==== Sys2Proof/Machine/Swaps.lean ====
section
/-!
DEFINITION. Machine/Swaps.lean: the Policy Engine's expert swaps at a step boundary (R437, R439, R440).
-/

namespace Sys2Proof.Machine

/-- The rows that named an expert of a layer over the step, and those dropped or deferred. -/
def namedRows (slot layer e : Nat) (s : State) : Nat × Nat :=
  ((s.card.routeDrops.find? fun x => x.1 == slot && x.2.1 == layer && x.2.2.1 == e).map fun x => x.2.2.2).getD (0, 0)

/-- The rows that an expert received. -/
def receivedRows (slot layer e : Nat) (s : State) : Nat := (namedRows slot layer e s).1 - (namedRows slot layer e s).2

/-- RANK of an expert of a layer as a channel's page in memory gives it. -/
def expertRank (slot layer e : Nat) (s : State) : Nat := fieldNat (vaWord slot (routeVa slot layer e s) s) 0 14

/-- The partner of an overloaded expert: on another rank, with the fewest rows received; the lower number wins a tie. -/
def swapPartner (slot layer experts e : Nat) (s : State) : Option Nat :=
  let cs := (List.range experts).filter fun f => expertRank slot layer f s != expertRank slot layer e s
  match cs with
  | [] => none
  | c :: r => some (r.foldl (fun b f => if receivedRows slot layer f s < receivedRows slot layer b s then f else b) c)

/-- One swap made on this device and told to every other member. -/
def makeSwap (g : Group) (slot layer e f : Nat) (s : State) : State :=
  (g.members.eraseDups.filter fun m => m != s.mod.identity).foldl (fun s m =>
    match linkTo m s with
    | some l => enqueueSeg l (swapSeg g m layer e f s) s
    | none => s) (applySwap slot layer e f s)

/-- The swaps of a layer, at most `n` of them: each expert whose share of dropped and deferred rows exceeds DROP_LIMIT, in
ascending order. The second part of the answer is what is left of `n`. -/
def swapLayer (g : Group) (slot layer : Nat) (p : Nat × State) : Nat × State :=
  let s := p.2
  let lim := policyOf g.id s
  let experts := fieldNat (vaWord slot (expertPageVa + 0x1000 + 32 * layer + 8) s) 0 13
  (List.range experts).foldl (fun (p : Nat × State) e =>
    let x := namedRows slot layer e s
    if p.1 == 0 || !decide (lim.dropLimit * x.1 < 256 * x.2) then p
    else match swapPartner slot layer experts e p.2 with
      | none => p
      | some f =>
        let allow := policyAllows 3 g.id p.2
        let t := logDecision 3 allow g.id layer (expertRank slot layer e p.2) (expertRank slot layer f p.2) 0 (256 * x.2 / x.1) p.2
        (p.1 - 1, if allow then makeSwap g slot layer e f t else t)) (p.1, s)

/-- The swaps that rank 0 decides as a committed step ends (R439); the counts start again. -/
def expertSwaps (g : Group) (commit : Bool) (s : State) : State :=
  let s := if !commit || g.rank != 0 then s
    else
      let keys := (s.card.routeDrops.filter fun x => (pageChans g.id s).contains x.1).map fun x => (x.1, x.2.1)
      let keys := sortBy (fun a b => decide (a.1 < b.1) || (a.1 == b.1 && decide (a.2 ≤ b.2))) keys.eraseDups
      (keys.foldl (fun p k => swapLayer g k.1 k.2 p) ((policyOf g.id s).swapsMax, s)).2
  modCard (fun k => { k with routeDrops := k.routeDrops.filter fun x => !(pageChans g.id s).contains x.1 }) s

end Sys2Proof.Machine
end

