-- ==== Sys2Proof/Machine/Steps.lean ====
section
/-!
DEFINITION. Machine/Steps.lean: groups, steps and their commit (R14 to R17, R45, R191 to R199, R204, R221, R226 to R228, R232,
R233, R332, R339, R369, R374 to R378, R399, R432, R434).
-/

namespace Sys2Proof.Machine

/-! ## GROUP_DEFINE (R45, Table 02-9) -/

/-- GROUP_DEFINE as it starts. Defining a group again gives it a fresh start; one with an open step may not be. -/
def startGroup (r : DescRec) (s : State) : State :=
  let w := r.desc.w2
  let id := fieldNat w 0 16
  let rank := fieldNat w 16 14
  let size := fieldNat w 32 14
  let sites := fieldNat w 48 4
  let ms := (List.range (size + 1)).map fun i => hostWord r.port (r.desc.w3.toNat + 8 * i) s
  if id == 0xFFFF || size < rank || sites == 0 || decide (8 < sites) || ms.getD rank 0 != s.mod.identity || stepIsOpen id s then
    refuse r 0x0004 0 s
  else
    let g : Group := { id := id, rank := rank, sizeM1 := size, sites := sites, members := ms, lastStep := r.desc.w4 }
    done r 0 { s with groups := s.groups.filter (fun x => x.id != id) ++ [g] }

/-- GROUP_DEFINE (R45). -/
def execGroupDefine (d : Desc) (s : State) : Out := .next (fetchWith 0x44 d noFetchEffect startGroup s)

/-! ## The numerics page (R192 to R194) -/

/-- The control header as it applies, a zero field replaced by its default; none when it breaks Table 08-1. -/
def readCtl (slot : Nat) (s : State) : Option ScaleCtl :=
  let a := vaWord slot numericsVa s
  let b := vaWord slot (numericsVa + 8) s
  let dflt (x d : Nat) : Nat := if x == 0 then d else x
  let fc := dflt (fieldNat a 8 8) 127
  let lo := dflt (fieldNat a 16 8) 127
  let hi := dflt (fieldNat a 24 8) 151
  let rest := (List.range 6).any fun i => vaWord slot (numericsVa + 16 + 8 * i) s != 0
  if decide (hi < lo) || fc == 255 || lo == 255 || hi == 255 || fieldNat a 1 7 != 0 || fieldNat b 9 55 != 0 || rest then none
  else some { fixed := bitOf a 0, fixedCode := fc, minCode := lo, maxCode := hi, growth := dflt (fieldNat a 32 16) 2000
              fast := dflt (fieldNat a 48 16) 50, rollbackLimit := dflt (fieldNat b 0 8) 16, satIgnore := bitOf b 8 }

/-- 2^e as FP32 bits, or +0 below the least subnormal. -/
def scaleCode32 (e : Int) : Nat := if e < -149 then 0 else (roundArith 0x01 (.fin false 1 e)).1

/-- The status block of an open step (Table 08-2). -/
def statusBlock (g : Group) (n : Word) : List Byte :=
  wordBytes n ++ leBytes 8 ((g.e + 127).toNat + (if g.fast then 256 else 0) + g.origin * 2 ^ 9 + g.rollbacks % 65536 * 2 ^ 16
    + g.clean % 2 ^ 32 * 2 ^ 32) ++ leBytes 8 (scaleCode32 g.e + scaleCode32 (-g.e) * 2 ^ 32)

/-- A group's channels, and of these the ones that have their numerics page mapped (R192). -/
def groupSlots (g : Group) (s : State) : List Nat := ((liveChans s).map Prod.fst).filter fun i => decide (2 ≤ i) && groupChan g i s
def numericsSlots (g : Group) (s : State) : List Nat := (groupSlots g s).filter fun i => (locate i numericsVa s).isSome

/-- The status block in the numerics page of each of a group's channels, and their tag tables read; a channel whose page is
unmapped has none. -/
def writeStatus (g : Group) (n : Word) (s : State) : State :=
  (groupSlots g s).foldl (fun s i =>
    if (locate i numericsVa s).isNone then modChan i (fun k => { k with tagTable := [] }) s else
    let tags := ((List.range 65536).map fun t => (t, vaWord i (numericsVa + 0x100000 + 16 * t) s)).filter fun x => x.2 != 0
    modChan i (fun k => { k with tagTable := tags }) (vaForce i (numericsVa + 0x40) (statusBlock g n) s)) s

/-! ## STEP_OPEN -/

/-- Why a STEP_OPEN is held, as a stall cause of Table 17-5 (R18, R332, R339, R399, R439). -/
def openHold (r : DescRec) (g : Group) (s : State) : Option Nat :=
  let stale (x : Region) : Nat := (x.pals.filterMap fun p => (palOf p s).map fun q => q.staleness).min?.getD 0
  let mine := ((chanOf r.desc.slot s).map fun c => c.cores).getD []
  if s.regions.any fun x => x.group == g.id && decide (x.roundMerged + stale x < x.roundSent) then some 0x10
  else if s.mate.formed && !s.mate.degraded && (decide (s.mate.mirrorStep.toNat < g.lastStep.toNat) || !s.mate.repairing.isEmpty) then some 0x11
  else if !g.leaveHold.isEmpty then some 0x12
  else if s.nmu.exams.any fun e => match chanOf e.slot s with
      | some c => e.slot == r.desc.slot.val || c.cores.any fun k => mine.contains k
      | none => false then some 0x13
  else none

/-- The bindings of a group with their hyperparameter blocks as memory now holds them. -/
def rereadHyper (g : Nat) (s : State) : List (Binding × List Word) :=
  (s.nmu.bindings.filter fun b => b.group == g).map fun b => (b, readHyper b.slot b.hyperVa s)

/-- The scale of the step that opens (R197, R198): the default start, clamped, when none was decided. -/
def openScale (g : Group) (c : ScaleCtl) : Group :=
  if g.scaleKnown && g.origin == 0 then (if c.fixed then { g with e := (c.fixedCode : Int) - 127 } else g)
  else
    let e := if g.scaleKnown then g.e else 16
    let k := max c.minCode (min c.maxCode (e + 127).toNat)
    let g := if g.scaleKnown then g else { g with clean := 0, fast := true, rollbacks := 0, origin := 3 }
    { g with e := (if c.fixed then (c.fixedCode : Int) else (k : Int)) - 127 }

/-- A step opened: its scale, its status blocks, its coefficients, its protected blocks. -/
def openStep (r : DescRec) (g : Group) (c : ScaleCtl) (hs : List (Binding × List Word)) (s : State) : State :=
  let n := r.desc.w2
  let fresh := !g.scaleKnown
  let h := openScale g c
  let h : Group := { h with
    open' := some n, openSlot := r.desc.slot, scaleKnown := true, scaleUsed := h.e, ctl := c
    protected' := (hs.map fun b => (b.1.slot, b.1.hyperVa, 64))
      ++ (numericsSlots { g with openSlot := r.desc.slot } s).map fun i => (i, numericsVa, pageBytes), overflow := false, gradSat := false, faulted := false
    faultedPass := false, committing := none, reported := false, reports := [], decided := false, ackSeq := none, decision := none
    freshBytes := 0, forwarded := [], stepPasses := [], stepSrc := [], stepOuts := [], backward := none, firstFuse := none, lastRunEnd := none
    lastPassEnd := none, reportAt := none, openedAt := now s, replayed := false }
  let s := hs.foldl (fun s b => modBinding b.1.num (fun y => { y with
    hyper := b.2, ring := tset y.ring (n.toNat % 4096) (coefOf b.2 (n.toNat - y.bindStep.toNat)), touchedNow := [] }) s) s
  let s := modGroup g.id (fun _ => h) s
  let s := if fresh then raiseEvent 0x13 [g.id, (h.e + 127).toNat, h.rollbacks, h.origin] s else s
  done r 0 (writeStatus h n s)

/-- STEP_OPEN: checked, held, or opened. -/
def startOpen (r : DescRec) (s : State) : State :=
  let n := r.desc.w2
  match groupOf (fieldNat r.desc.w3 0 16) s with
  | none => refuse r 0x0004 0 s
  | some g =>
    if g.lost then refuseCap r 0x0602 s
    else if g.open'.isSome || n != g.lastStep + 1 then refuse r 0x0004 0 s
    else if (locate r.desc.slot numericsVa s).isNone then refuse r 0x0101 numericsVa s
    else match readCtl r.desc.slot s with
      | none => refuse r 0x0004 0 s
      | some c =>
        match openHold r g s with
        | some cause => if r.hold == .stepOpen then s else holdAs { r with aux := cause } .stepOpen s
        | none =>
          let hs := rereadHyper g.id s
          if hs.any fun b => hyBindPart b.1.hyper != hyBindPart b.2 || !hyStepOk b.1.rule b.2 then refuse r 0x0004 0 s
          else openStep r g c hs (if r.hold == .stepOpen then addStall r.aux (nsSince r.since (mono s)) s else s)

/-- STEP_OPEN (R14). -/
def execStepOpen (d : Desc) (s : State) : Out := .next (fetchWith 0x06 d noFetchEffect startOpen s)

/-- STEP_OPEN_RELEASE: the hold of a STEP_OPEN has ended. -/
def execStepOpenRelease (id : Nat) (s : State) : Out :=
  .next <|
    match descOf id s with
    | some r => if r.hold == .stepOpen && (chanOf r.desc.slot s).isSome then startOpen r s else s
    | none => s

/-! ## STEP_COMMIT (R16) -/

/-- STEP_COMMIT as it starts: it waits for the class. -/
def startCommit (r : DescRec) (s : State) : State :=
  match groupOf (fieldNat r.desc.w3 0 16) s with
  | none => refuse r 0x0004 0 s
  | some g =>
    if g.open' != some r.desc.w2 || g.committing.isSome then refuse r 0x0004 0 s
    else holdAs r .commit (modGroup g.id (fun g => { g with committing := some r.id }) s)

/-- STEP_COMMIT (R16). -/
def execStepCommit (d : Desc) (s : State) : Out := .next (fetchWith 0x07 d noFetchEffect startCommit s)

/-! ## The last work of a step (R232, R233) -/

/-- TOUCH_ALL: units that no fused exchange delivered are updated with +0 gradients, in ascending order. -/
def touchAll (n : Word) (b : Binding) (s : State) : State :=
  if !hyTouchAll b.hyper then s
  else (List.range (unitCount b)).foldl (fun s u =>
    if unitStep b u s == n then s else updateUnit b u n (List.replicate (unitParams b) (nv32 0)) s) s

/-- The aging sweep: units of segments congruent to `n` mod 64 that fell more than 3,968 steps behind are caught up. -/
def ageUnits (n : Word) (b : Binding) (s : State) : State :=
  ((List.range (unitCount b)).filter fun u => (u * unitParams b / 65536) % 64 == n.toNat % 64).foldl (fun s u =>
    let v := unitStep b u s
    if v != n && decide (v.toNat + 3968 < n.toNat) then catchUnit b u n s else s) s

/-- Both, over a group's bindings. -/
def lastWork (g : Nat) (n : Word) (s : State) : State :=
  (s.nmu.bindings.filter fun b => b.group == g).foldl (fun s b => ageUnits n b (touchAll n b s)) s

/-! ## Reports (R226, R375, R376) -/

/-- The ranks whose nodes report to a rank's node: r + 2^k below the lowest set bit of r. -/
def childRanks (n r : Nat) : List Nat :=
  ((List.range (clog2 n)).filter fun k => r % 2 ^ (k + 1) == 0 && decide (r + 2 ^ k < n)).map fun k => r + 2 ^ k

/-- The rank a rank's node reports to: its lowest set bit cleared. -/
def parentRank (n r : Nat) : Nat := match (List.range (clog2 n)).find? fun k => r.testBit k with | some k => r - 2 ^ k | none => 0

/-- The ranks of a group this device holds: its own, and any it has taken over (R383). -/
def heldRanks (g : Group) (s : State) : List Nat := g.rank :: (s.mate.takenOver.filter fun x => x.1 == g.id).map Prod.snd

/-- Two reports combined: OK of both, the other bits of either. -/
def joinReports (low : Nat) (a b : Report) : Report :=
  { low := low, ok := a.ok && b.ok, overflow := a.overflow || b.overflow, sat := a.sat || b.sat, fault := a.fault || b.fault
    members := a.members + b.members, crc := a.crc ^^^ b.crc }

/-- The report of a node, once its own leaf and every child are in. A leaf is kept under its rank plus 65,536. -/
def nodeReport (g : Group) (r : Nat) : Option Report :=
  match g.reports.find? (fun x => x.low == r + 65536), allSome ((childRanks (groupN g) r).map fun c => g.reports.find? fun x => x.low == c) with
  | some leaf, some cs => some { cs.foldl (joinReports r) leaf with low := r }
  | _, _ => none

/-- A COMMIT_REPORT item. -/
def reportItem (g : Group) (n : Word) (x : Report) : Item :=
  mkItem 0x10 0 (BitVec.ofNat 64 (g.id + x.low * 2 ^ 16)) n
    (BitVec.ofNat 64 ((if x.ok then 1 else 0) + (if x.overflow then 2 else 0) + (if x.sat then 4 else 0) + (if x.fault then 8 else 0)
      + x.members * 2 ^ 16)) x.crc 0

/-! ## The decision (R195 to R198, R376) -/

/-- What rank 0 decides of a step with overflow or without (R196, R197). -/
def nextScale (g : Group) (growth : Nat) (overflow fault : Bool) : Decision :=
  let c := g.ctl
  let lo : Int := (c.minCode : Int) - 127
  let hi : Int := (c.maxCode : Int) - 127
  if overflow then
    { commit := false, overflow := true, e := if c.fixed then g.e else max (g.e - 1) lo, fast := false, clean := 0
      rollbacks := g.rollbacks + 1, time := 0 }
  else if fault then
    { commit := false, overflow := false, e := g.e, fast := g.fast, clean := g.clean, rollbacks := g.rollbacks, time := 0 }
  else
    let clean := g.clean + 1
    let due := !c.fixed && decide ((if g.fast then c.fast else growth) ≤ clean)
    { commit := true, overflow := false, e := if due then min (g.e + 1) hi else g.e, fast := g.fast, clean := if due then 0 else clean
      rollbacks := 0, time := 0 }

/-- The events of an overflow. -/
def scaleEvents (g : Group) (d : Decision) (s : State) : State :=
  let args := [g.id, (d.e + 127).toNat, d.rollbacks, g.origin]
  if !d.overflow then s
  else
    let s := if g.ctl.fixed then raiseEvent 0x10 args s else s
    let s := if g.ctl.rollbackLimit ≤ d.rollbacks then raiseDev 1 (raiseEvent 0x11 args s) else s
    if !g.ctl.fixed && g.e == (g.ctl.minCode : Int) - 127 then raiseEvent 0x12 args s else s

/-- A COMMIT_DECISION item. -/
def decisionItem (g : Group) (n : Word) (d : Decision) (t : Word) : Item :=
  mkItem 0x11 0 (BitVec.ofNat 64 g.id) n
    (BitVec.ofNat 64 ((if d.commit then 1 else 0) + (if !d.commit && !d.overflow then 2 else 0) + (d.e + 127).toNat * 2 ^ 8
      + (if d.fast then 2 ^ 16 else 0)))
    (BitVec.ofNat 64 (d.clean % 2 ^ 32 + d.rollbacks % 65536 * 2 ^ 32)) t

/-- The payload of a COMMIT or ROLLBACK record (Table 14-4). -/
def commitPayload (g : Group) (d : Decision) (t crc : Word) (byMate : Bool) : List Byte :=
  leBytes 8 (g.id + (if byMate then 2 ^ 16 else 0)) ++ wordBytes t
    ++ leBytes 8 ((g.scaleUsed + 127).toNat + (d.e + 127).toNat * 2 ^ 8 + (if d.fast then 2 ^ 16 else 0) + d.clean % 2 ^ 32 * 2 ^ 32)
    ++ leBytes 8 (d.rollbacks % 65536) ++ wordBytes crc ++ leBytes 24 0

/-! ## Publication (R227) -/

/-- The stochastic rounding of a stripe's masters into its working copy: one draw for each parameter. -/
def stripeCopy (b : Binding) (c : Chan) (i : Nat) (stream : Word) (x : Stripe) : List Byte :=
  let n := min 1024 (b.count - 1024 * i)
  let lane := BitVec.ofNat 64 (2 ^ 63 + b.lbase / 1024 + i)
  let rs := genDraws c.srBits n (genSeed c.seed lane stream)
  (encodeTensor b.fmt (4, c.srBits, false, c.fp16Ieee) rs ((x.w.take n).map fun w => decodeCode 0x07 w.toNat)).1

/-- A stripe published for step `n`. -/
def publishStripe (b : Binding) (i : Nat) (n : Word) (s : State) : State :=
  match chanOf b.slot s with
  | none => s
  | some c =>
    let bs := stripeCopy b c i n (getStripe b i s)
    let va := b.base + 1024 * i * fmtBytes b.fmt
    vaForce b.slot va bs (unpoison (pieces b.slot va bs.length s) s)

/-- Every stripe updated or caught up in step `n` published. -/
def publish (g : Nat) (n : Word) (s : State) : State :=
  (s.nmu.bindings.filter fun b => b.group == g).foldl (fun s b =>
    modBinding b.num (fun b => { b with touchedNow := [] }) ((sortBy (fun a b => decide (a ≤ b)) b.touchedNow).foldl (fun s i =>
      publishStripe b i n s) s)) s

/-! ## The end of a step -/

/-- The silent-layer watch of a committed step (R204). -/
def watchSets (g : Nat) (commit : Bool) (s : State) : State :=
  s.stats.foldl (fun s x =>
    match chanOf x.slot s with
    | none => s
    | some c =>
      if !((groupOf g s).map fun h => groupChan h x.slot s).getD false then s
      else
        let w := tagEntry c x.tag
        let every := if fieldNat w 16 16 == 0 then 64 else fieldNat w 16 16
        let th := if fieldNat w 32 32 == 0 then 0x00FFBE76 else fieldNat w 32 32
        let seen := commit && bitOf w 1 && x.step.elements != 0
        let silent := decide (th * x.step.elements ≤ x.step.zeros * 2 ^ 24)
        let run := if seen then (if silent then x.silentRun + 1 else 0) else x.silentRun
        let y := { x with step := {}, silentRun := run
                          lastElements := if commit then x.step.elements else x.lastElements
                          lastZeros := if commit then x.step.zeros else x.lastZeros }
        let s := { s with stats := mapIf (fun z => z.slot == x.slot && z.tag == x.tag) (fun _ => y) s.stats }
        if seen && silent && run % every == 0 then
          raiseDev 2 (raiseEvent 0x14 [x.tag, run, x.step.zeros, x.step.elements]
            (if bitOf w 0 then modGroup g (fun h => { h with satStep := true }) s else s))
        else s) s

/-- The phases of a step card (Table 17-4). -/
def stepPhases (g : Group) (s : State) : List Phase :=
  let back := match g.backward with | some t => some t | none => g.firstFuse
  let fwd := match back, g.lastRunEnd with | some t, _ => some t | none, x => x
  let p0 : List Phase := match fwd with | some t => [(0, g.openedAt, t)] | none => []
  let p1 : List Phase := match back, g.lastRunEnd with | some t, some u => [(1, t, u)] | _, _ => []
  let p2 : List Phase := match back, g.lastRunEnd, g.lastPassEnd with | some _, some u, some v => [(2, u, v)] | _, _, _ => []
  let start3 := match g.lastPassEnd, g.lastRunEnd with | some v, _ => v | none, some u => u | none, none => g.openedAt
  let p3 : List Phase := match g.reportAt with | some t => [(3, start3, t), (4, t, now s)] | none => []
  p0 ++ p1 ++ p2 ++ p3

/-- The Policy Engine on the loss scale, at rank 0 alone, once a step has ended (Table 17-7, bit 4): GROWTH_INTERVAL doubled
after three overflow rollbacks within 1,000 steps, halved after four intervals without one; the next scale doubled on
SILENT_LAYER for a GRAD tag with no overflow in 100 steps. -/
def policyScale (g : Group) (n : Word) (d : Decision) (s : State) : State :=
  if g.rank != 0 then s
  else
    let e := policyOf g.id s
    let allow := policyAllows 4 g.id s
    let growth := g.growthSet.getD g.ctl.growth
    let ovf := (if d.overflow then g.overflowSteps ++ [n] else g.overflowSteps).filter fun t => decide (n.toNat < t.toNat + 1000)
    let last := (ovf.getLast?).getD g.lastStep
    let up := min e.growthMax (2 * growth)
    let down := max e.growthMin (growth / 2)
    let s := modGroup g.id (fun h => { h with overflowSteps := ovf, satStep := false }) s
    if d.overflow && decide (3 ≤ ovf.length) then
      let s := logDecision 4 allow g.id 0 growth up 0x10 ovf.length s
      if allow then modGroup g.id (fun h => { h with growthSet := some up, clean := 0, overflowSteps := [] }) s else s
    else if !d.overflow && ovf.isEmpty && growth != down && decide (4 * growth ≤ g.clean) then
      let s := logDecision 4 allow g.id 0 growth down 0 g.clean s
      if allow then modGroup g.id (fun h => { h with growthSet := some down, clean := 0 }) s else s
    else if g.satStep && !(ovf.any fun t => decide (n.toNat < t.toNat + 100)) && decide (last.toNat ≤ n.toNat) && !g.ctl.fixed then
      let hi : Int := (min e.scaleMax g.ctl.maxCode : Nat) - 127
      let s := logDecision 4 allow g.id 0 (d.e + 127).toNat (min (d.e + 1) hi + 127).toNat 0x14 0 s
      if allow then modGroup g.id (fun h => { h with e := min (d.e + 1) hi, clean := 0 }) s else s
    else s

/-- The deskmate pair dissolved (R379): its reserved frames return, and the DESKMATE_PAIR that asked completes. -/
def dissolvePair (s : State) : State :=
  let r := s.mate.dissolving.bind fun i => descOf i s
  let s := modMemory (fun m => { m with privateFrames := m.privateFrames - s.mate.reservedFrames }) { s with mate := {} }
  match r with
  | some r => done r 0 s
  | none => s

/-- A dissolution that waited for a step boundary takes effect once no step is open. -/
def settlePair (s : State) : State :=
  if s.mate.dissolving.isSome && !(s.groups.any fun g => g.open'.isSome) then dissolvePair s else s

/-- A member's end of a step, its record written: state, statistics, STEP_COMMIT and the card (R377, R432). -/
def closeStep (g : Group) (n : Word) (d : Decision) (t : Word) (s : State) : State :=
  let s := watchSets g.id d.commit (setShare s.card.moveMax s)
  let phases := stepPhases g s
  let r := g.committing.bind fun i => descOf i s
  let st := if d.commit then (if g.replayed then stReplayed else stDone) else stRolledBack
  let s := modGroup g.id (fun h => { h with
    open' := none, committing := none, decided := false, ackSeq := none, decision := none, reports := [], protected' := []
    lastStep := if d.commit then n else h.lastStep, e := d.e, fast := d.fast, clean := d.clean, rollbacks := d.rollbacks, origin := 0
    committedSince := if d.commit then 1 else h.committedSince, copyCrcs := if d.commit then [] else h.copyCrcs, forwarded := [], freshBytes := 0 }) s
  let s := if d.commit then { s with regions := mapIf (fun x => x.group == g.id) (fun x => { x with stepsSince := x.stepsSince + 1 }) s.regions } else s
  let s := expertSwaps g d.commit s
  let s := policyScale { g with satStep := ((groupOf g.id s).map fun h => h.satStep).getD false } n d s
  let s := match r with
    | some r => finish r st (if g.lost && !d.commit then 0x0401 else 0) (if d.commit then t else n) s
    | none => s
  applyTopology <| settlePair <| takeLimits g.id
    (writeCard (if d.commit then 0 else 1, false, g.id, n, st.toNat, d.rollbacks % 65536) (g.scaleUsed + 127).toNat (d.e + 127).toNat
      phases s)

/-- A member's own COMMIT or ROLLBACK record, written in journal 0. -/
def writeRecord (g : Group) (n : Word) (d : Decision) (t : Word) (byMate : Bool) (s : State) : State :=
  let crc := shardCrc g.id s
  appendRec { kind := if d.commit then 5 else 6, journal := 0, step := n, binding := 0, mirror := false, unit := 0, seq := 0, postCrc := crc
              chain := 0, payload := commitPayload g d t crc byMate } s

/-- STATE_LOST of every binding of a group whose undo failed a check (R371). -/
def stateLost (g : Nat) (s : State) : State :=
  (s.nmu.bindings.filter fun b => b.group == g).foldl (fun s b => raiseDev 13 (raiseEvent 0x37 [b.num, 0] s)) s

/-- A rolled-back step undone on this member (R369), its directory entries and records as they were. -/
def undoOpen (g : Group) (n : Word) (s : State) : State :=
  let r := undoStep false g.id n s
  let s := if r.2 then r.1 else stateLost g.id r.1
  { s with nmu := { s.nmu with bindings := mapIf (fun b => b.group == g.id) (fun b => { b with
      touchedNow := [], staged := [], writeBack := [], stageUsed := 0 }) s.nmu.bindings } }

/-- The decision sent to a rank's children in the tree. -/
def passDown (g : Group) (n : Word) (d : Decision) (t : Word) (s : State) : State :=
  (((heldRanks g s).flatMap (childRanks (groupN g))).map (rankHolder g)).eraseDups.foldl (fun s m =>
    if m == s.mod.identity then s else sendTo m (decisionItem g n d t) s) s

/-- A member acts on a decision: undo or not, its record, publication, the end of its step (R377). -/
def actDecision (g : Group) (n : Word) (d : Decision) (t : Word) (s : State) : State :=
  let s := if d.commit then s else undoOpen g n s
  let s := writeRecord g n d t false s
  let s := if d.commit then sendDigests g.id n (publish g.id n s) else s
  closeStep g n d t (passDown g n d t s)

/-- Rank 0's decision leaves, its record being held by its deskmate or needing no acknowledgment. -/
def releaseDecision (id : Nat) (s : State) : State :=
  match groupOf id s with
  | none => s
  | some g =>
    match g.decision, g.open' with
    | some d, some n =>
      let t := d.time
      let s := if d.commit then sendDigests g.id n (publish g.id n s) else s
      closeStep g n d t (passDown g n d t s)
    | _, _ => s

/-- Rank 0 decides once every rank is in (R376): undo, then its record; the decision waits for the deskmate's
acknowledgment. -/
def decideStep (g : Group) (n : Word) (x : Report) (s : State) : State :=
  let overflow := x.overflow || (x.sat && !g.ctl.satIgnore)
  let d := { nextScale g (g.growthSet.getD g.ctl.growth) overflow (!x.ok) with time := now s }
  let s := scaleEvents g d s
  let s := if d.commit then s else undoOpen g n s
  let seq := (journalOf 0 s).seq
  let s := writeRecord g n d (now s) (g.rank != 0) s
  let paired := s.mate.formed && !s.mate.degraded
  let s := modGroup g.id (fun h => { h with decided := true, decision := some d, ackSeq := if paired then some seq else none }) s
  if paired then s else releaseDecision g.id s

/-- Every report this device can now pass on is passed on: to the parent's holder, to another rank held here, or to the
decision. -/
def pushReports (id : Nat) : Nat → State → State
  | 0, s => s
  | fuel + 1, s =>
    match groupOf id s with
    | none => s
    | some g =>
      match g.open', (heldRanks g s).findSome? fun r => if g.reports.any fun x => x.low == r + 131072 then none else (nodeReport g r).map fun x => (r, x) with
      | some n, some (r, x) =>
        let s := modGroup id (fun h => { h with reports := h.reports ++ [{ x with low := r + 131072 }] }) s
        if r == 0 then (if g.decided then s else decideStep g n x s)
        else
          let up := rankHolder g (parentRank (groupN g) r)
          if up == s.mod.identity || (heldRanks g s).contains (parentRank (groupN g) r) then
            pushReports id fuel (modGroup id (fun h => { h with reports := h.reports ++ [x] }) s)
          else pushReports id fuel (sendTo up (reportItem g n x) s)
      | _, _ => s

/-- Whether a tiered binding has units in transit behind a fenced port: a fault (R244). -/
def stagedLost (g : Nat) (s : State) : Bool :=
  s.nmu.bindings.any fun b => b.group == g && !b.staged.isEmpty && (match tierPort b with | some t => (portOf t s).fenced | none => false)

/-- Whether the owner's report is due (R226). -/
def reportDue (g : Group) (s : State) : Bool :=
  g.open'.isSome && g.committing.isSome && !g.reported && !(s.passes.any fun p => p.fuse && p.group == g.id && p.step == g.open')
    && (stagedLost g.id s || s.nmu.bindings.all fun b => b.group != g.id || b.staged.isEmpty)

/-- A step of a group that has lost a member for good (Table 14-6): its admitted passes end, and every surviving member rolls it
back on its own as a fault, ROLLED_BACK with DETAIL 0x0401. -/
def loseStep (g : Group) (n : Word) (s : State) : State :=
  let s := (s.passes.filter fun p => p.group == g.id && p.admitted && p.round.isNone).foldl (fun s p =>
    voidPass p stRolledBack 0x0401 (p.step.getD (BitVec.allOnes 64)) s) s
  let s := modGroup g.id (fun h => { h with lost := true, decided := true }) s
  let h := (groupOf g.id s).getD g
  actDecision h n { nextScale h h.ctl.growth false true with time := now s } (now s) s

/-- OWNER_COMMIT_REPORT (R226, R376): the last work of the step is done and the report enters the tree. -/
def execOwnerCommitReport (group : BitVec 16) (s : State) : Out :=
  .next <| sendMirror <|
    match groupOf group.toNat s with
    | none => s
    | some g =>
      match g.open' with
      | none => s
      | some n =>
        if g.committing.isSome && !g.decided && memberLost g s then loseStep g n s
        else if !reportDue g s then s
        else
          let s := lastWork g.id n (setShare s.card.moveMax s)
          let s := modNmu (fun m => { m with cache := m.cache.map fun c => c.map fun x => (x.1, false) }) s
          let ok := !g.faulted && !g.faultedPass && !stagedLost g.id s
          let full := (groupOf g.id s).getD g
          let leaf (r : Nat) : Report :=
            { low := r + 65536, ok := ok && !full.faulted, overflow := full.overflow, sat := full.gradSat, fault := !(ok && !full.faulted), members := 1
              crc := if r == g.rank then shardCrc g.id s else s.mate.mirrorCrc }
          let s := modGroup g.id (fun h => { h with
            reported := true, reportAt := some (now s), reports := h.reports ++ (heldRanks g s).map leaf }) s
          pushReports g.id 64 s

/-- COMMIT_REPORT_RECEIVE (R376): a child's report is held under its rank; a later one replaces it. One whose
parent is elsewhere goes on toward it. -/
def execCommitReportReceive (l : Fin 36) (it : Item) (s : State) : Out :=
  .next <| sendMirror (withItem l it 0x10 (fun s =>
    let id := fieldNat it.w1 0 16
    match groupOf id s with
    | none => s
    | some g =>
      let low := fieldNat it.w1 16 14
      let up := rankHolder g (parentRank (groupN g) low)
      if up != s.mod.identity then sendTo up it s
      else if g.open' != some it.w2 || g.decided then s
      else
        let x : Report := { low := low, ok := bitOf it.w3 0, overflow := bitOf it.w3 1, sat := bitOf it.w3 2, fault := bitOf it.w3 3
                            members := fieldNat it.w3 16 16, crc := it.w4 }
        pushReports id 64 (modGroup id (fun h => { h with reports := h.reports.filter (fun y => y.low != low) ++ [x] }) s)) s)

/-- COMMIT_DECISION_RECEIVE (R377): acted on once. -/
def execCommitDecisionReceive (l : Fin 36) (it : Item) (s : State) : Out :=
  .next <| sendMirror (withItem l it 0x11 (fun s =>
    match groupOf (fieldNat it.w1 0 16) s with
    | none => s
    | some g =>
      if g.open' != some it.w2 || g.decided || g.committing.isNone then s
      else
        let commit := bitOf it.w3 0
        let d : Decision :=
          { commit := commit, overflow := !commit && !bitOf it.w3 1, e := (fieldNat it.w3 8 8 : Int) - 127, fast := bitOf it.w3 16
            clean := fieldNat it.w4 0 32, rollbacks := fieldNat it.w4 32 16, time := it.w5 }
        actDecision g it.w2 d it.w5 (sendBeyond l g it s)) s)

end Sys2Proof.Machine
end

