-- ==== Sys2Proof/Machine/Deskmate.lean ====
section
/-!
DEFINITION. Machine/Deskmate.lean: deskmates (R379 to R386): pairing, the mirror, heartbeats, takeover, moved ranks, redone
contributions, digests and repairs.
-/

namespace Sys2Proof.Machine

/-! ## Pairing (R379) -/

/-- The frames reserved for the partner's state: as many as this device's own, its shard being the adjacent one. -/
def mateFrames (s : State) : Nat :=
  let bs := sumNat (s.nmu.bindings.map fun b => b.frames)
  let rs := ceilDiv (sumNat (s.regions.map fun x => x.params.length * 38)) pageBytes
  bs + rs

/-- Whether a partner holds the adjacent rank in every group of this device. -/
def adjacent (w : Word) (s : State) : Bool := s.groups.all fun g => rankOf g w == some (Nat.xor g.rank 1)

/-- DESKMATE_PAIR as it starts: with ENABLE 1 it waits until the pair forms; with 0 the pair dissolves at the next step
boundary. -/
def startPair (r : DescRec) (s : State) : State :=
  if bitOf r.desc.w3 0 then
    if !adjacent r.desc.w2 s || (s.mate.partner.isSome && s.mate.partner != some r.desc.w2) then refuse r 0x0004 0 s
    else if s.mate.formed then done r 0 s
    else holdAs r .deskmate (modMate (fun m => { m with partner := some r.desc.w2 }) s)
  else if s.mate.partner != some r.desc.w2 then done r 0 s
  else if s.groups.any fun g => g.open'.isSome then
    holdAs { r with aux := 1 } .deskmate (modMate (fun m => { m with dissolving := some r.id }) s)
  else done r 0 (dissolvePair s)

/-- DESKMATE_PAIR (R379). -/
def execDeskmatePair (d : Desc) (s : State) : Out := .next (fetchWith 0x45 d noFetchEffect startPair s)

/-- Whether a mirror link is Up with the partner's same link behind it. -/
def mateUp (second : Bool) (w : Word) (s : State) : Bool :=
  let k := linkOf (mateLink second) s
  k.state == 3 && k.partner == w && k.partnerLink == mateLink second

/-- DESKMATE_PAIR_FORMED (R379): each side has authenticated the other over L00 and L18, and the frames are reserved. -/
def execDeskmatePairFormed (id : Nat) (s : State) : Out :=
  .next <|
    match descOf id s with
    | none => s
    | some r =>
      if r.hold == .deskmate && r.aux == 0 && mateUp false r.desc.w2 s && mateUp true r.desc.w2 s then
        if freeFrameCount s < mateFrames s then refuseCap r 0 { s with mate := {} }
        else
          let n := mateFrames s
          done r 0 (modMemory (fun m => { m with privateFrames := m.privateFrames + n }) { s with mate :=
            { partner := some r.desc.w2, formed := true, reservedFrames := n, sentBeat := Vector.replicate 2 (mono s)
              lastBeat := Vector.replicate 2 (some (mono s)) } })
      else s

/-! ## Reading records (R367) -/

/-- A record read from the start of a byte string, with the bytes after it. -/
def parseRec (bs : List Byte) : Option (JRec × List Byte) :=
  let w (i : Nat) : Word := BitVec.ofNat 64 (wordAt bs i)
  let n := fieldNat (w 0) 32 32
  if bs.length < 64 + n || fieldNat (w 7) 0 32 != (crc32c (bs.take 56)).toNat then none
  else some ({ kind := fieldNat (w 0) 0 8, journal := fieldNat (w 0) 8 5, step := w 1, binding := fieldNat (w 2) 0 16
               mirror := bitOf (w 2) 16, unit := fieldNat (w 3) 0 48, seq := (w 4).toNat, postCrc := w 5, chain := w 6
               payload := (bs.drop 64).take n }, bs.drop (64 + n))

/-- Every record at the start of a byte string, and what is left. -/
def parseRecs : Nat → List Byte → List JRec × List Byte
  | 0, bs => ([], bs)
  | fuel + 1, bs =>
    match parseRec bs with
    | some (r, rest) =>
      let q := parseRecs fuel rest
      (r :: q.1, q.2)
    | none => ([], bs)

/-! ## The mirror (R380) -/

/-- Whether a record has been applied to the mirror already. -/
def mirrorHas (j q : Nat) (m : MateSt) : Bool :=
  (match vget m.mirrorAt j none with | some n => decide (q ≤ n) | none => false) || m.ahead.contains (j, q)

/-- The last record applied in order, records that came ahead of it taken in. -/
def advanceMirror (j : Nat) : Nat → MateSt → MateSt
  | 0, m => m
  | fuel + 1, m =>
    match vget m.mirrorAt j none with
    | some n => if m.ahead.contains (j, n + 1) then
        advanceMirror j fuel { m with mirrorAt := vset m.mirrorAt j (some (n + 1)), ahead := m.ahead.erase (j, n + 1) }
      else m
    | none => m

/-- A unit's bytes in the mirror XORed with a payload: what the mirror held at pairing counts as zero bytes
(notes/assumptions/24.md). -/
def xorUnit (r : JRec) (us : List (Nat × Nat × List Byte)) : List (Nat × Nat × List Byte) :=
  let x := if r.kind == 1 || r.kind == 7 then r.payload.take (r.payload.length - 32) else r.payload
  if us.any fun u => u.1 == r.binding && u.2.1 == r.unit then
    us.map fun u => if u.1 == r.binding && u.2.1 == r.unit then (u.1, u.2.1, xorBytes u.2.2 x) else u
  else us ++ [(r.binding, r.unit, x)]

/-- A rolled-back step of the partner undone on the mirror: its records XORed back and marked (R369, R377). -/
def undoMirror (n : Word) (s : State) : State :=
  let mine (r : JRec) : Bool := r.mirror && r.kind == 1 && r.step == n && !r.undone
  let rs := (s.nmu.journals.toList.flatMap fun j => j.records).filter mine
  modNmu (fun m => { m with journals := m.journals.map fun j => { j with records := mapIf mine (fun r => { r with undone := true }) j.records } })
    (modMate (fun m => { m with units := rs.foldl (fun us r => xorUnit r us) m.units }) s)

/-- A partner's record applied to the mirror and journalled with MIRROR 1. -/
def mirrorRec (r : JRec) (s : State) : State :=
  if mirrorHas r.journal r.seq s.mate then s
  else
    let unit := r.kind == 1 || r.kind == 3 || r.kind == 7
    let commit := r.kind == 5 || r.kind == 6
    let s := modMate (fun m =>
      let m := match vget m.mirrorAt r.journal none with
        | none => { m with mirrorAt := vset m.mirrorAt r.journal (some r.seq) }
        | some _ => { m with ahead := m.ahead ++ [(r.journal, r.seq)] }
      let m := advanceMirror r.journal (m.ahead.length + 1) m
      { m with
        units := if unit then xorUnit r m.units else m.units
        mirrorCrc := if commit then r.postCrc else m.mirrorCrc
        mirrorStep := if r.kind == 5 then r.step else m.mirrorStep }) s
    appendRec { r with mirror := true } (if r.kind == 6 then undoMirror r.step s else s)

/-- MIRROR_ACK of a journal (Table 14-5). -/
def mirrorAck (j : Nat) (s : State) : Item :=
  mkItem 0x12 0 (BitVec.ofNat 64 j) (BitVec.ofNat 64 ((vget s.mate.mirrorAt j none).getD 0)) s.mate.mirrorStep s.mate.mirrorCrc 0

/-! ## Resolving a difference (R386) -/

/-- A unit of this device: its binding and its stripe or block number. -/
def ownUnit (binding unit : Nat) (s : State) : Option (Binding × Nat) :=
  match bindingOf binding s with
  | some b => if decide (b.lbase ≤ unit) && decide (unit < b.lbase + b.count) then some (b, (unit - b.lbase) / 1024) else none
  | none => none

/-- The bytes of a unit's record in this device's state, or in its mirror. -/
def copyBytes (binding unit : Nat) (s : State) : Option (List Byte) :=
  match ownUnit binding unit s with
  | some (b, i) => some (stripeBytes b.rule (getStripe b i s))
  | none => (s.mate.units.find? fun u => u.1 == binding && u.2.1 == unit).map fun u => u.2.2

/-- The latest record of a unit in the journals, own or mirrored. -/
def latestRec (binding unit : Nat) (mirror : Bool) (s : State) : Option JRec :=
  ((s.nmu.journals.toList.flatMap fun j => j.records).filter fun r =>
    r.binding == binding && r.unit == unit && r.mirror == mirror && (r.kind == 1 || r.kind == 7)).getLast?

/-- The first differing bit of two byte strings, as byte offset × 8 + bit. -/
def firstDiff (a b : List Byte) : Nat :=
  match (List.zip a b).findIdx? fun x => x.1 != x.2 with
  | some i =>
    let d := a.getD i 0 ^^^ b.getD i 0
    8 * i + ((List.range 8).findIdx? fun k => d.getLsbD k).getD 0
  | none => 0

/-- A repair recorded (R386). -/
def noteRepair (b : Binding) (i bit : Nat) (s : State) : State :=
  raiseDev 20 (raiseEvent 0x66 [b.num, i / 64, b.lbase + 1024 * i, bit] s)

/-- A unit whose copies cannot be told apart: the group behaves as for two faults in the pair (Table 14-6). -/
def lostReplica (b : Binding) (i bit : Nat) (s : State) : State :=
  modGroup b.group (fun g => { g with lost := true, faulted := g.faulted || g.open'.isSome })
    (raiseDev 21 (raiseEvent 0x67 [b.num, i / 64, b.lbase + 1024 * i, bit] s))

/-- The partner's copy of an own unit that differs compared with it (Table 14-7): the copy whose CRC equals POST_CRC of the unit's
latest record is the right one. -/
def resolveUnit (b : Binding) (i : Nat) (theirs : List Byte) (s : State) : State :=
  let mine := stripeBytes b.rule (getStripe b i s)
  let bit := firstDiff mine theirs
  let s := modMate (fun m => { m with repairing := m.repairing.filter fun x => x != (b.num, b.lbase + 1024 * i) }) s
  if mine == theirs then s
  else
    match latestRec b.num (b.lbase + 1024 * i) false s with
    | none => lostReplica b i bit s
    | some r =>
      if crc64 mine == r.postCrc then noteRepair b i bit s
      else if crc64 theirs == r.postCrc then
        let old := getStripe b i s
        let new := parseStripe b.rule theirs
        let e := bdOf (dirOf b i) s
        sendMirror (noteRepair b i bit (journalStripe 7 b i r.step old new e e (putStripe b i new s)))
      else lostReplica b i bit s

/-- Bytes that are no record: a unit sent for its resolution, headed by the record header that names it (notes/assumptions/25.md). -/
def takeRepair (bs : List Byte) (s : State) : State :=
  match parseRec bs with
  | some (r, _) =>
    match ownUnit r.binding r.unit s with
    | some (b, i) => resolveUnit b i r.payload s
    | none => s
  | none => s

/-- MIRROR_RECORD_RECEIVE (R380): the partner's records are applied, journalled and acknowledged; a unit under resolution is
compared. -/
def execMirrorRecordReceive (l : Fin 36) (sg : Segment) (s : State) : Out :=
  .next <| sendMirror (withSegment l sg (fun x data s =>
    let second := l.val == 18
    if sgColl x != 6 || !(l.val == 0 || l.val == 18) || s.mate.partner != some (linkOf l s).partner then s
    else
      let held := if sgElement x == 0 then [] else vget s.mate.parts (if second then 1 else 0) []
      if held.length != sgElement x then s
      else
        let bs := held ++ data
        let p := parseRecs (bs.length / 64 + 1) bs
        let s := modMate (fun m => { m with parts := vset m.parts (if second then 1 else 0) (if p.1.isEmpty then bs else []) }) s
        let asked (r : JRec) : Bool := s.mate.repairing.contains (r.binding, r.unit)
        let js := ((p.1.filter fun r => !asked r).map fun r => r.journal).eraseDups
        let s := p.1.foldl (fun s r => if asked r then takeRepair (recBytes r) s else if mirroring s then mirrorRec r s else s) s
        if mirroring s then js.foldl (fun s j => sendItem l (mirrorAck j s) s) s else s) s)

/-- Whether rank 0's decision record has been acknowledged. -/
def ackReached (q : Nat) (s : State) : Bool :=
  match vget s.mate.ackedSeq 0 none with
  | some n => decide (q ≤ n)
  | none => false

/-- MIRROR_ACK_RECEIVE (R376, R380): acknowledged records are let go, decisions that waited leave, and the mirror's SHARD_CRC is
compared with this member's own of that step. -/
def execMirrorAckReceive (l : Fin 36) (it : Item) (s : State) : Out :=
  .next <| sendMirror (withItem l it 0x12 (fun s =>
    if s.mate.partner != some (linkOf l s).partner then s
    else
      let j := fieldNat it.w1 0 5
      let q := it.w2.toNat
      let s := modMate (fun m => { m with
        ackedSeq := vset m.ackedSeq j (some (max q ((vget m.ackedSeq j none).getD 0)))
        unacked := m.unacked.filter fun r => !(r.journal == j && decide (r.seq ≤ q)) }) s
      let own := ((journalOf 0 s).records.filter fun r => r.kind == 5 && !r.mirror && r.step == it.w3).getLast?
      let differs := match own with | some r => r.postCrc != it.w4 | none => false
      let s := modMate (fun m => { m with repairing :=
        if own.isSome then (m.repairing.filter fun x => x != (0xFFFF, 0)) ++ (if differs then [(0xFFFF, 0)] else []) else m.repairing }) s
      (s.groups.filter fun g => match g.ackSeq with | some q => ackReached q s | none => false).foldl
        (fun s g => releaseDecision g.id (modGroup g.id (fun g => { g with ackSeq := none }) s)) s) s)

/-! ## Heartbeats and takeover (R381, R383, R384) -/

/-- The open or last step a heartbeat names. -/
def beatStep (s : State) : Word :=
  match s.groups.head? with
  | some g => g.open'.getD g.lastStep
  | none => 0

/-- HEARTBEAT_SEND (R381): every 100 us on L00 and L18. -/
def execHeartbeatSend (l : Fin 36) (s : State) : Out :=
  .next <|
    let i := if l.val == 18 then 1 else 0
    if s.mate.formed && (l.val == 0 || l.val == 18) && (linkOf l s).state == 3
        && decide (100000 ≤ nsSince (vget s.mate.sentBeat i 0) (mono s)) then
      sendItem l (mkItem 0x13 0 (beatStep s) (now s) 0 0 0) (modMate (fun m => { m with sentBeat := vset m.sentBeat i (mono s) }) s)
    else s

/-- HEARTBEAT_RECEIVE (R381). -/
def execHeartbeatReceive (l : Fin 36) (it : Item) (s : State) : Out :=
  .next (withItem l it 0x13 (fun s =>
    if s.mate.partner == some (linkOf l s).partner && (l.val == 0 || l.val == 18) then
      modMate (fun m => { m with lastBeat := vset m.lastBeat (if l.val == 18 then 1 else 0) (some (mono s)) }) s
    else s) s)

/-- Whether no heartbeat has come on either mirror link for 1 ms. -/
def beatsLost (s : State) : Bool :=
  s.mate.lastBeat.toList.all fun b => match b with | some t => decide (1000000 ≤ nsSince t (mono s)) | none => true

/-- The lowest-ranked member of a group outside the pair that can be reached. -/
def witness (g : Group) (w : Word) (s : State) : Option Word :=
  ((List.range (groupN g)).map (rankHolder g)).find? fun m => m != w && m != s.mod.identity && (linkTo m s).isSome

/-- HEARTBEAT_TIMEOUT (R381, R399): takeover is asked for, unless the partner said it was leaving less than 10 s ago. -/
def execHeartbeatTimeout (s : State) : Out :=
  .next <|
    match s.mate.partner with
    | none => s
    | some w =>
      if !s.mate.formed || s.mate.degraded || s.mate.takeoverAsked || !beatsLost s || s.mod.leaving.any fun x => x.1 == w then s
      else
        let last := s.mate.lastBeat.toList.foldl (fun m b => max m (b.getD 0).toNat) 0
        let at' : Word := now s - BitVec.ofNat 64 ((mono s).toNat - last)
        match s.groups.findSome? fun g => witness g w s with
        | some m => sendTo m (mkItem 0x14 0 w at' 0 0 0) (modMate (fun x => { x with takeoverAsked := true }) s)
        | none => s

/-- TAKEOVER_REQUEST_RECEIVE (R381): granted when this member too has heard nothing of the device for 1 ms. -/
def execTakeoverRequestReceive (l : Fin 36) (it : Item) (s : State) : Out :=
  .next (withItem l it 0x14 (fun s =>
    sendItem l (mkItem 0x15 0 it.w1 (if heardOf it.w1 s then 0 else 1) 0 0 0) s) s)

/-- What a member discards of a rank that has become absent: the parts of its contributions to passes it had not finished
(R384). -/
def dropAbsent (g : Group) (r : Nat) (s : State) : State :=
  let n := groupN g
  let l1 := (stageLevels g s).headD 0
  let due (p : Pass) : Nat := sumNat (((List.range n).filter fun o => holderAt n l1 o r == g.rank).map fun o => shareLen p n o)
  { s with passes := s.passes.map fun p =>
      if p.group != g.id || !reduces p then p
      else if (p.nodes.countP fun v => v.level == 0 && v.node == r) < due p then
        { p with nodes := p.nodes.filter (fun v => !(v.level == 0 && v.node == r)), late := some (p.late.getD 4), lateRank := r }
      else p }

/-- A rank moved to a new holder and absent from here on: it is recorded, and reports it should have received are sent again
(R378, R383, R384). -/
def moveRank (g : Group) (r : Nat) (holder : Word) (s : State) : State :=
  let s := modGroup g.id (fun g => { g with
    holders := g.holders.filter (fun x => x.1 != r) ++ [(r, holder)]
    absent := if g.absent.contains r then g.absent else g.absent ++ [r] }) s
  let s := raiseEvent 0x65 [g.id, r, (rankHolder g r).toNat] (dropAbsent g r s)
  match g.open' with
  | none => s
  | some n =>
    ((heldRanks g s).filter fun h => h != 0 && parentRank (groupN g) h == r).foldl (fun s h =>
      match g.reports.find? fun x => x.low == h + 131072 with
      | some x => sendTo holder (reportItem g n { x with low := h }) s
      | none => s) s

/-- The takeover of a partner's rank in a group (R383): every member is told, the OWNERSHIP record is written, and this device
reports for the rank. No forwarded descriptor of the step is held, so the rank is absent from the step on. -/
def takeRank (w : Word) (g : Group) (s : State) : State :=
  match rankOf g w with
  | none => s
  | some r =>
    let n := g.open'.getD (g.lastStep + 1)
    let s := sendAll g (mkItem 0x16 0 (BitVec.ofNat 64 (g.id + r * 2 ^ 16)) s.mod.identity n 0 0) s
    let s := moveRank g r s.mod.identity (modMate (fun m => { m with takenOver := m.takenOver ++ [(g.id, r)] }) s)
    let s := { s with passes := s.passes.map fun p =>
      if p.group == g.id && p.admitted then
        { p with outstanding := p.outstanding.filter fun i => ((planOf p g s)[i]?.map fun x => x.1) != some r }
      else p }
    let s := appendRec { kind := 8, journal := 0, step := n, binding := 0, mirror := false, unit := 0, seq := 0, postCrc := 0, chain := 0
                         payload := leBytes 8 g.id ++ leBytes 8 r ++ wordBytes w ++ wordBytes n } s
    let s := if g.reported then modGroup g.id (fun h => { h with reports := h.reports ++
        [{ low := r + 65536, ok := !h.faulted, overflow := false, sat := false, fault := h.faulted, members := 1, crc := s.mate.mirrorCrc }] }) s
      else s
    pushReports g.id 64 s

/-- TAKEOVER_REPLY_RECEIVE (R381): a grant starts the takeover; a refusal means that only the mirror links failed, and the pair runs
degraded. -/
def execTakeoverReplyReceive (l : Fin 36) (it : Item) (s : State) : Out :=
  .next (withItem l it 0x15 (fun s =>
    if !s.mate.takeoverAsked || s.mate.partner != some it.w1 then s
    else if bitOf it.w2 0 then
      let gs := s.groups
      modMate (fun m => { m with formed := false, takeoverAsked := false, toSend := [], unacked := [] })
        (gs.foldl (fun s g => takeRank it.w1 ((groupOf g.id s).getD g) s) s)
    else
      let s := raiseDev 18 (modMate (fun m => { m with degraded := true, takeoverAsked := false, toSend := [], unacked := [] }) s)
      let s := s.groups.foldl (fun s g => raiseEvent 0x64 [g.id, g.rank, it.w1.toNat] s) s
      (s.groups.filter fun g => g.ackSeq.isSome).foldl
        (fun s g => releaseDecision g.id (modGroup g.id (fun g => { g with ackSeq := none }) s)) s) s)

/-- RANK_MOVED_RECEIVE (R383). -/
def execRankMovedReceive (l : Fin 36) (it : Item) (s : State) : Out :=
  .next (withItem l it 0x16 (fun s =>
    match groupOf (fieldNat it.w1 0 16) s with
    | none => s
    | some g =>
      let r := fieldNat it.w1 16 14
      if r == g.rank || decide (groupN g ≤ r) || rankHolder g r == it.w2 then s
      else moveRank g r it.w2 (sendBeyond l g it s)) s)

/-! ## Redone contributions, digests, repairs (R378, R385, R386) -/

/-- REDO_REQUEST_RECEIVE (R378): the protected source elements asked for are sent back as COLL 6. -/
def execRedoRequestReceive (l : Fin 36) (it : Item) (s : State) : Out :=
  .next (withItem l it 0x17 (fun s =>
    match groupOf (fieldNat it.w1 0 16) s with
    | none => s
    | some g =>
      if g.open' != some it.w2 then s
      else match g.stepSrc.find? fun x => x.1 % 2 ^ 48 == fieldNat it.w1 16 48 with
        | none => s
        | some (_, slot, src, len, w) =>
          let first := w * fieldNat it.w3 0 48
          let n := min (w * fieldNat it.w4 0 48) (len - first)
          (mateSegs it.w2 (vaRead slot (src + first) n s) (now s)).foldl (fun s x => enqueueSeg l x s) s) s)

/-- DIGEST_RECEIVE (R385): a digest that differs from the local segment's asks for its units. -/
def execDigestReceive (l : Fin 36) (it : Item) (s : State) : Out :=
  .next (withItem l it 0x18 (fun s =>
    match bindingOf (fieldNat it.w1 0 16) s with
    | none => s
    | some b =>
      let seg := fieldNat it.w1 16 48
      if segDigest b seg s == wordBytes it.w2 ++ wordBytes it.w3 ++ wordBytes it.w4 ++ wordBytes it.w5 then s
      else
        let us := ((List.range 64).filter fun j => 64 * seg + j < stripeCount b).map fun j => b.lbase + 1024 * (64 * seg + j)
        let n := ((groupOf b.group s).map fun g => g.lastStep).getD 0
        us.foldl (fun s u => sendItem l (mkItem 0x19 0 (BitVec.ofNat 64 b.num) (BitVec.ofNat 64 u) n 0 0)
          (modMate (fun m => { m with repairing := if m.repairing.contains (b.num, u) then m.repairing else m.repairing ++ [(b.num, u)] }) s)) s) s)

/-- REPAIR_REQUEST_RECEIVE (R386): the unit is transferred for its resolution, headed by a REPAIR record header
(notes/assumptions/25.md). -/
def execRepairRequestReceive (l : Fin 36) (it : Item) (s : State) : Out :=
  .next (withItem l it 0x19 (fun s =>
    let b := fieldNat it.w1 0 16
    let u := fieldNat it.w2 0 48
    match copyBytes b u s with
    | none => s
    | some bs =>
      let r : JRec := { kind := 7, journal := 0, step := it.w3, binding := b, mirror := false, unit := u, seq := 0, postCrc := crc64 bs
                        chain := 0, payload := bs }
      (mateSegs it.w3 (recBytes r) (now s)).foldl (fun s x => enqueueSeg l x s) s) s)

end Sys2Proof.Machine
end

