-- ==== Sys2Proof/Machine/Destroy.lean ====
section
/-!
DEFINITION. Machine/Destroy.lean: CHANNEL_DESTROY (R23, R28).
-/

namespace Sys2Proof.Machine

/-- The next GEN of a slot (R23). -/
def nextGen (g : BitVec 16) : BitVec 16 := if g == 0xFFFF then 1 else g + 1

/-- A run that has not begun ends with its channel (R28). -/
def dropRun (u : Run) (s : State) : State :=
  match descOf u.desc s with
  | some x => finish x stGone 0 0 { s with runs := s.runs.filter fun y => y.id != u.id }
  | none => { s with runs := s.runs.filter fun y => y.id != u.id }

/-- The work of a destroyed channel ended as R28 says: what has not started is gone, runs that have not begun are gone,
with FORCE the running ones stop, and continuous exports are done. -/
def endWork (slot : Nat) (force : Bool) (s : State) : State :=
  let s := (s.descs.filter fun x => x.desc.slot == slot && unstarted x).foldl (fun s x => finish x stGone 0 0 s) s
  let s := (s.runs.filter fun u => u.slot == slot && !u.begun).foldl (fun s u => dropRun u s) s
  let s := if force then
      (s.runs.filter fun u => u.slot == slot).foldl (fun s u => stopRun u.id stGone 0 0 (modRun u.id (fun x => { x with gone := true }) s)) s
    else s
  (s.nmu.exports.filter fun e => e.slot == slot && e.continuous).foldl (fun s e =>
    let s := modNmu (fun n => { n with exports := n.exports.filter fun x => x.id != e.id }) s
    match descOf e.id s with
    | some x => done x e.write.toNat s
    | none => s) s

/-- CHANNEL_DESTROY as it starts: the GEN advances, the channel takes no more bells, its work ends, and the slot is freed
once its last completion is written. -/
def startDestroy (r : DescRec) (s : State) : State :=
  match ownedChan (r.desc.w2.setWidth 32) r s with
  | none => finishGone r s
  | some (slot, _, ok) =>
    if !ok then refuse r 0x0004 0 s
    else
      let force := bitOf r.desc.w2 32
      let s := modChan slot (fun c => { c with running := false, destroyId := some r.id, force := force }) s
      let s := modSlot slot (fun x => { x with gen := nextGen x.gen }) s
      beginReady (settleDestroy slot (endWork slot force (holdAs r .destroy s)))

/-- CHANNEL_DESTROY (R28). -/
def execChannelDestroy (d : Desc) (s : State) : Out := .next (settlePasses (fetchWith 0x41 d noFetchEffect startDestroy s))

end Sys2Proof.Machine
end

