-- ==== Sys2Proof/Machine/Moves.lean ====
section
/-!
DEFINITION. Machine/Moves.lean: TENSOR_MOVE and STATS_READ (R43, R54, R57, R60, R65, R69, R74, R201, R202, R205, R286, R289).
-/

namespace Sys2Proof.Machine

/-! ## TENSOR_MOVE -/

/-- The draws of a stochastic TENSOR_MOVE: one generator for each 1,024 source elements (Table 03-8). -/
def moveDraws (seed tag : Word) (k n : Nat) : List Nat :=
  (List.range (ceilDiv n 1024)).flatMap fun i =>
    genDraws k (min 1024 (n - 1024 * i)) (genSeed seed (BitVec.ofNat 64 (2 ^ 62 + i)) tag)

/-- The fields of a TENSOR_MOVE: source and destination formats, ROUND and CODEC. -/
def mvSrcFmt (d : Desc) : Nat := fieldNat d.w5 0 8
def mvDstFmt (d : Desc) : Nat := fieldNat d.w5 8 8
def mvRound (d : Desc) : Nat := fieldNat d.w5 16 3
def mvCodec (d : Desc) : Nat := fieldNat d.w5 20 2
def mvLen (d : Desc) : Nat := fieldNat d.w4 0 48

/-- Whether the fields of a TENSOR_MOVE are in range (R42, R54, R57, R60). -/
def moveFieldsOk (d : Desc) : Bool :=
  let sf := mvSrcFmt d
  let df := mvDstFmt d
  fmtDefined sf && fmtDefined df && df != 6 && df != 10 && decide (mvRound d ≤ 4) && mvCodec d != 3
    && (sf == 0) == (df == 0)
    && (mvCodec d == 2 || (mvLen d % unitBytes sf == 0 && tensorElems sf (mvLen d) % unitElems df == 0))

/-- A whole conversion under a move's rule: bytes and per-element flags. -/
def moveConvert (d : Desc) (c : Chan) (bs : List Byte) : List Byte × List (BitVec 7) :=
  let sf := mvSrcFmt d
  let n := tensorElems sf bs.length
  let k := c.srBits
  let rs := if mvRound d == 4 then moveDraws c.seed d.tag k n else List.replicate n 0
  convertTensor sf (mvDstFmt d) (mvRound d, k, false, c.fp16Ieee) rs (bs.take (bs.length / unitBytes sf * unitBytes sf))

/-- The index of the first group of 16,384 elements in which a flag of R48 was raised (R69). -/
def firstGroup (fs : List (BitVec 7)) : Nat := (fs.findIdx flagged) / 16384

/-- The engine that serves a move's stream (Table 11-1). -/
def moveEngine (s : State) : Nat := (leastLoaded (List.range 16) s).getD 0

/-- A stream that passed an engine within one descriptor, counted (R292). -/
def countStream (e raw stored : Nat) (s : State) : State :=
  modEngine e (fun x => { x with raw := x.raw + raw, stored := x.stored + stored, steps := x.steps + ceilDiv raw 64 }) s

/-- A move whose source and destination are checked: its bytes written, its completion by its flags. -/
def finishMove (r : DescRec) (c : Chan) (raw : List Byte) (fail : Option (Nat × Nat)) (s : State) : State :=
  let d := r.desc
  let slot : Nat := d.slot
  let src := d.w2.toNat
  let out := moveConvert d c raw
  let bytes := if mvCodec d == 1 then encodeStream 0 (mvDstFmt d) 16 out.1 else out.1
  let f := orFlags out.2
  match forwardDesc r.group r.step slot [(src, mvLen d)] [(d.w3.toNat, bytes.length)] s with
  | none => refuseCap r 0x0604 s
  | some s =>
    let e := moveEngine s
    let s := match r.group with
      | some g => protect g slot [(src, mvLen d)] s
      | none => s
    let s := if mvCodec d == 0 then s else countStream e out.1.length (if mvCodec d == 1 then bytes.length else mvLen d) s
    let s := vaStore slot d.w3.toNat bytes s
    match fail with
    | some (row, at') => refuse r 0x0105 (src + at') (rejectItem e row 0 s)
    | none =>
      if flagged f then finish r stFlagged (f.setWidth 16) (BitVec.ofNat 64 (firstGroup out.2)) s
      else done r (if mvCodec d == 1 then bytes.length else 0) s

/-- What refuses a move's destination of `n` bytes. -/
def moveDest (r : DescRec) (n : Nat) (go : State → State) (s : State) : State :=
  let dst := r.desc.w3.toNat
  match regionFault r.desc.slot dst n true s with
  | some a => refuse r 0x0101 a s
  | none => if overlapsProtected r.desc.slot dst n s then refuse r 0x0103 dst s else go s

/-- TENSOR_MOVE as it starts. -/
def startMove (r : DescRec) (s : State) : State :=
  let d := r.desc
  let slot : Nat := d.slot
  let src := d.w2.toNat
  let len := mvLen d
  match chanOf slot s with
  | none => finishGone r s
  | some c =>
    if !moveFieldsOk d || (mvCodec d == 2 && decide (len < 64)) then refuse r 0x0004 0 s
    else match regionFault slot src len false s with
      | some a => refuse r 0x0101 a s
      | none =>
        let read (go : State → State) (s : State) : State :=
          match poisonVa slot src len s with
          | some a => refuse r 0x0104 a s
          | none => go s
        if mvCodec d == 2 then
          read (fun s =>
            let h := vaRead slot src 64 s
            if !streamHeaderOk h then refuse r 0x0105 src (rejectItem (moveEngine s) 0 0 s)
            else if !streamAgrees h len (mvSrcFmt d) then refuse r 0x0004 0 s
            else
              let n := tensorBytes (mvDstFmt d) (tensorElems (mvSrcFmt d) (streamRaw h))
              moveDest r n (fun s =>
                let x := readStream (vaRead slot src len s)
                finishMove r c x.1 x.2 s) s) s
        else
          let n := tensorBytes (mvDstFmt d) (tensorElems (mvSrcFmt d) len)
          moveDest r (if mvCodec d == 1 then maxStored n else n)
            (read fun s => finishMove r c (vaRead slot src len s) none s) s

/-- TENSOR_MOVE (R69). -/
def execTensorMove (d : Desc) (s : State) : Out := .next (fetchWith 0x02 d noFetchEffect startMove s)

/-! ## STATS_READ (R201, R202, R205) -/

/-- The counter sets that SELECT names, in ascending tag order. -/
def selectedSets (slot sel : Nat) (s : State) : List StatSet :=
  sortBy (fun a b => decide (a.tag ≤ b.tag)) (s.stats.filter fun x => x.slot == slot && (sel == 0xFFFF || x.tag == sel))

/-- A statistics record (Table 08-4). -/
def statRecord (c : Chan) (x : StatSet) : List Byte :=
  let e := tagEntry c x.tag
  leBytes 8 (x.tag + (fieldNat e 0 2) * 2 ^ 16 + x.silentRun % 2 ^ 32 * 2 ^ 32) ++
  leBytes 8 x.merged.elements ++ leBytes 8 x.merged.zeros ++ leBytes 8 x.merged.nonFinite ++ leBytes 8 x.merged.sats ++
  leBytes 8 x.merged.maxMag.toNat ++ leBytes 8 x.lastElements ++ leBytes 8 x.lastZeros

/-- The header of a STATS_READ (R205). -/
def statHeader (n full : Nat) (t : Word) : List Byte :=
  leBytes 8 (n + (min full (2 ^ 32 - 1)) * 2 ^ 32) ++ wordBytes t ++ List.replicate 48 0

/-- STATS_READ as it starts. -/
def startStatsRead (r : DescRec) (s : State) : State :=
  let d := r.desc
  let slot : Nat := d.slot
  let sel := fieldNat d.w3 0 16
  let dst := d.w2.toNat
  let n := if sel == 0xFFFF then 64 + 64 * 16384 else 128
  match chanOf slot s with
  | none => finishGone r s
  | some c =>
    match regionFault slot dst n true s with
    | some a => refuse r 0x0101 a s
    | none =>
      let sets := selectedSets slot sel s
      let bytes := statHeader sets.length c.tsuFull (now s) ++ sets.flatMap (statRecord c)
      if overlapsProtected slot dst bytes.length s then refuse r 0x0103 dst s
      else
        let s := vaStore slot dst bytes s
        let s := if bitOf d.w3 16 then
            modChan slot (fun k => { k with tsuFull := 0 })
              { s with stats := s.stats.filter fun x => !(x.slot == slot && (sel == 0xFFFF || x.tag == sel)) }
          else s
        done r 0 s

/-- STATS_READ (R205). -/
def execStatsRead (d : Desc) (s : State) : Out := .next (fetchWith 0x0C d noFetchEffect startStatsRead s)

end Sys2Proof.Machine
end

