-- ==== Sys2Proof/Machine/Exams.lean ====
section
/-!
DEFINITION. Machine/Exams.lean: exam windows on the latest committed version and on rebuilt ones (R18, R216, R370, R374, R432).
-/

namespace Sys2Proof.Machine

/-! ## Rebuilding a version (R374) -/

/-- The state of a group after a committed step, rebuilt by undo on a copy of the device's state, from what has been changed
since the latest committed step downward. -/
def rebuilt (g : Group) (n : Word) (s : State) : State := undoTo g.id n (g.lastStep.toNat + 1 - n.toNat) (g.lastStep + 1) s

/-- A stripe's working copy as it was published: drawn under the step that last changed it, or, never changed, its exact
masters (notes/assumptions/23.md). -/
def rebuiltCopy (b : Binding) (c : Chan) (i : Nat) (old : State) : List Byte :=
  let x := getStripe b i old
  if x.step == b.bindStep then
    (encodeTensor b.fmt (0, c.srBits, false, c.fp16Ieee) [] ((x.w.take (min 1024 (b.count - 1024 * i))).map fun w => decodeCode 0x07 w.toNat)).1
  else stripeCopy b c i x.step x

/-- The working copy of a binding in an earlier version. -/
def rebuiltBytes (b : Binding) (c : Chan) (old : State) : List Byte :=
  (List.range (stripeCount b)).flatMap fun i => rebuiltCopy (((bindingOf b.num old)).getD b) c i old

/-- Where a binding's working copy lies: pieces of memory. -/
def copyPieces (b : Binding) (s : State) : List (Nat × Nat × Nat) := pieces b.slot b.base (b.count * fmtBytes b.fmt) s

/-- The pages of a channel that show working copies of a group's bindings. -/
def examPages (slot g : Nat) (s : State) : List (Nat × Page) :=
  match chanOf slot s with
  | none => []
  | some c => c.pages.filter fun p => piecesMeet (pieces slot (p.1 * pageBytes) pageBytes s)
      ((s.nmu.bindings.filter fun b => b.group == g).flatMap fun b => copyPieces b s)

/-- The bytes of a page with the working copies in it replaced. -/
def pageVersion (slot page : Nat) (copies : List (List (Nat × Nat × Nat) × List Byte)) (s : State) : List Byte :=
  match locate slot (page * pageBytes) s with
  | none => []
  | some (sp, a, _) =>
    (List.range pageBytes).map fun i =>
      let at' := a + i
      let hit := copies.findSome? fun c =>
        let rec find (off : Nat) : List (Nat × Nat × Nat) → Option Nat
          | [] => none
          | x :: r => if x.1 == sp && decide (x.2.1 ≤ at') && decide (at' < x.2.1 + x.2.2) then some (off + at' - x.2.1) else find (off + x.2.2) r
        (find 0 c.1).map fun o => c.2.getD o 0
      hit.getD (spaceGet sp at' s)

/-- A page replaced by a private frame that holds given bytes. -/
def swapPage (slot page frame : Nat) (bs : List Byte) (s : State) : State :=
  modChan slot (fun c => { c with pages := tset c.pages page { kind := .fast frame, readOnly := true } })
    (modMemory (fun m => { m with fast := memWrite (memClear m.fast (frame * pageBytes) pageBytes) (frame * pageBytes) bs
                                  framesUsed := m.framesUsed ++ [frame] }) s)

/-! ## EXAM_OPEN and EXAM_CLOSE -/

/-- Whether the cores of a channel meet those of a channel with an open step (R18). -/
def examHeld (slot : Nat) (s : State) : Bool :=
  let mine := ((chanOf slot s).map fun c => c.cores).getD []
  s.groups.any fun g => g.open'.isSome && (g.openSlot == slot || (((chanOf g.openSlot s).map fun c => c.cores).getD []).any fun k => mine.contains k)

/-- Whether the all-gather of the latest committed step has not yet delivered its last byte here (R216): one is in flight, or
none has ended since the commit. -/
def gatherPending (g : Group) (s : State) : Bool :=
  (s.passes.any fun p => p.group == g.id && p.coll == 2) || (decide (0 < g.sizeM1) && g.committedSince == 1)

/-- The window of an earlier version: its pages shown from private frames; none when the frames do not suffice. -/
def showVersion (slot : Nat) (g : Group) (n : Word) (s : State) : Option (State × List (Nat × Page) × List Nat) :=
  let old := rebuilt g n s
  let bs := s.nmu.bindings.filter fun b => b.group == g.id
  let copies := bs.map fun b => (copyPieces b s, match chanOf b.slot s with | some c => rebuiltBytes b c old | none => [])
  let ps := examPages slot g.id s
  let frames := lowestFrames s.memory.framesUsed (frameCapacity s.flash.variant) ps.length 0
  if frames.length < ps.length || freeFrameCount s < ps.length then none
  else
    let t := (ps.zip frames).foldl (fun t x => swapPage slot x.1.1 x.2 (pageVersion slot x.1.1 copies s) t) s
    some (t, ps, frames)

/-- A window opened. -/
def openExam (r : DescRec) (g : Group) (s : State) : State :=
  let n := r.desc.w2
  let slot : Nat := r.desc.slot
  let id := s.nmu.nextExam
  let add (t : State) (ps : List (Nat × Page)) (fs : List Nat) : State :=
    done r id (modNmu (fun m => { m with nextExam := (id + 1) % 65536, exams := m.exams ++
      [{ id := id, slot := slot, group := g.id, version := n, opened := now s, saved := ps, frames := fs }] }) t)
  if n == g.lastStep then add s [] []
  else if !canRebuild n s then refuseCap r 0 s
  else match showVersion slot g n s with
    | some (t, ps, fs) => add t ps fs
    | none => refuseCap r 0 s

/-- EXAM_OPEN as it starts: the version must be committed; held by an open step on its cores, or by its all-gather. -/
def startExam (r : DescRec) (s : State) : State :=
  match groupOf (fieldNat r.desc.w3 0 16) s with
  | none => refuse r 0x0004 0 s
  | some g =>
    if g.lastStep.toNat < r.desc.w2.toNat then refuse r 0x0004 0 s
    else if examHeld r.desc.slot s || (r.desc.w2 == g.lastStep && gatherPending g s) then
      if r.hold == .examOpen then s else holdAs r .examOpen s
    else openExam r g (if r.hold == .examOpen then addStall 0x13 (nsSince r.since (mono s)) s else s)

/-- EXAM_OPEN (R18). -/
def execExamOpen (d : Desc) (s : State) : Out := .next (fetchWith 0x08 d noFetchEffect startExam s)

/-- EXAM_OPEN_RELEASE (R216): the hold of an EXAM_OPEN has ended. -/
def execExamOpenRelease (id : Nat) (s : State) : Out :=
  .next <|
    match descOf id s with
    | some r => if r.hold == .examOpen && (chanOf r.desc.slot s).isSome then startExam r s else s
    | none => s

/-- EXAM_CLOSE as it starts: the channel's pages show live data again, and an exam card is written. -/
def startExamClose (r : DescRec) (s : State) : State :=
  let slot : Nat := r.desc.slot
  match s.nmu.exams.find? fun e => e.id == fieldNat r.desc.w2 0 16 && e.slot == slot with
  | none => refuse r 0x0004 0 s
  | some e =>
    let s := modChan slot (fun c => { c with pages := e.saved.foldl (fun t p => tset t p.1 p.2) c.pages }) s
    let s := freeFrames e.frames s
    let s := modNmu (fun m => { m with exams := m.exams.filter fun x => x.id != e.id }) s
    let g := groupOf e.group s
    let k := match g with | some g => (g.e + 127).toNat | none => 0
    writeCard (2, false, e.id, e.version, 0, 0) k k [(5, e.opened, now s)] (done r 0 s)

/-- EXAM_CLOSE (R18). -/
def execExamClose (d : Desc) (s : State) : Out := .next (fetchWith 0x09 d noFetchEffect startExamClose s)

end Sys2Proof.Machine
end

