-- ==== Sys2Proof/Machine/Exports.lean ====
section
/-!
DEFINITION. Machine/Exports.lean: DELTA_EXPORT with its units and SNAPSHOT (R370, R372 to R374).
-/

namespace Sys2Proof.Machine

/-- Whether a region lies in slow-tier pages throughout. -/
def slowRegion (slot va len : Nat) (s : State) : Bool := (pieces slot va len s).all fun x => x.1 != 0

/-- Whether a port behind which a region lies is fenced. -/
def regionFenced (slot va len : Nat) (s : State) : Bool := (pieces slot va len s).any fun x => pieceFenced x s

/-! ## The unit of a step (R372) -/

/-- The COMMIT record of a committed step of this device. -/
def commitRec (gs : List Group) (n : Word) (s : State) : Option JRec :=
  (journalOf 0 s).records.find? fun r => r.kind == 5 && !r.mirror && r.step == n && gs.any fun g => recGroup r s == some g.id

/-- The records of a step in journal and SEQ order, less its COMMIT, and less what a rollback undid. -/
def unitRecs (n : Word) (first : JRec) (s : State) : List JRec :=
  s.nmu.journals.toList.flatMap fun j => j.records.filter fun r => r.step == n && !r.undone && r.kind != 6 && r != first

/-- A unit's bytes and whether it is a gap: the header, then the stream when every record of the step is retained. -/
def unitOfStep (gs : List Group) (n : Word) (s : State) : List Byte × Bool :=
  let kept := s.nmu.journals.toList.all fun j => match j.lost with | some m => decide (m.toNat < n.toNat) | none => true
  match kept, commitRec gs n s with
  | true, some c =>
    let st := encodeStream 1 0 16 ((c :: unitRecs n c s).flatMap recBytes)
    (wordBytes n ++ leBytes 8 st.length ++ leBytes 48 0 ++ st, false)
  | _, _ => (wordBytes n ++ leBytes 8 0 ++ leBytes 8 1 ++ leBytes 40 0, true)

/-- Bytes put into the data ring of an export from a free-running count. -/
def ringPut (slot dst size : Nat) (bs : List Byte) (at' : Nat) (s : State) : State :=
  let room := size - 4096
  let off := at' % room
  let head := bs.take (room - off)
  let s := vaStore slot (dst + 4096 + off) head s
  if head.length < bs.length then vaStore slot (dst + 4096) (bs.drop head.length) s else s

/-! ## DELTA_EXPORT -/

/-- The control block's words the device writes: WRITE, GAPS, and LAST_STEP unless the unit was a gap; READ is the host's. -/
def exportControl (e : ExportSt) (last : Option Word) (s : State) : State :=
  let s := vaStore e.slot (e.dst + 24) (wordBytes e.gaps) (vaStore e.slot e.dst (wordBytes e.write) s)
  match last with
  | some n => vaStore e.slot (e.dst + 16) (wordBytes n) s
  | none => s

/-- Whether FROM_STEP is older than every retained record. -/
def tooOld (n : Word) (s : State) : Bool :=
  let steps := s.nmu.journals.toList.flatMap fun j => j.records.map fun r => r.step.toNat
  !steps.isEmpty && steps.all fun m => decide (n.toNat < m)

/-- DELTA_EXPORT as it starts. With nothing committed to export it is done at once unless continuous. -/
def startExport (r : DescRec) (s : State) : State :=
  let d := r.desc
  let slot : Nat := d.slot
  let size := fieldNat d.w3 0 48
  if size % 4096 != 0 || size < pageBytes then refuse r 0x0004 0 s
  else match regionFault slot d.w2.toNat size true s with
    | some a => refuse r 0x0101 a s
    | none =>
      if !slowRegion slot d.w2.toNat size s then refuse r 0x0004 0 s
      else if overlapsProtected slot d.w2.toNat size s then refuse r 0x0103 d.w2.toNat s
      else if tooOld d.w4 s then refuseCap r 0 s
      else
        let e : ExportSt := { id := r.id, slot := slot, dst := d.w2.toNat, size := size, fromStep := d.w4, lastAtFetch := BitVec.ofNat 64 r.aux
                              continuous := bitOf d.w5 0, nextStep := d.w4, write := 0, gaps := 0 }
        let s := exportControl e (some 0) s
        if !e.continuous && r.aux < d.w4.toNat then done r 0 s
        else holdAs r .exporting (modNmu (fun n => { n with exports := n.exports ++ [e] }) s)

/-- DELTA_EXPORT (R372). -/
def execDeltaExport (d : Desc) (s : State) : Out := .next (fetchWith 0x0A d noFetchEffect startExport s)

/-- A unit appended to an export: its bytes, the control block, and the end of one that is not continuous. -/
def appendUnit (r : DescRec) (e : ExportSt) (s : State) : State :=
  let u := unitOfStep (exportGroups e.slot s) e.nextStep s
  let read := (vaWord e.slot (e.dst + 8) s).toNat
  if e.size - 4096 < e.write.toNat + u.1.length - read then s
  else
    let f := { e with write := e.write + BitVec.ofNat 64 u.1.length, nextStep := e.nextStep + 1, gaps := if u.2 then e.gaps + 1 else e.gaps }
    let s := exportControl f (if u.2 then none else some e.nextStep) (ringPut e.slot e.dst e.size u.1 e.write.toNat s)
    let s := modNmu (fun n => { n with exports := mapIf (fun x => x.id == e.id) (fun _ => f) n.exports }) s
    if !e.continuous && e.lastAtFetch.toNat ≤ e.nextStep.toNat then
      done r f.write.toNat (modNmu (fun n => { n with exports := n.exports.filter fun x => x.id != e.id }) s)
    else s

/-- EXPORT_APPEND (R372): the next committed step's unit, once the host ring has room for it. -/
def execExportAppend (id : Nat) (s : State) : Out :=
  .next <|
    match s.nmu.exports.find? (fun e => e.id == id), descOf id s with
    | some e, some r =>
      if lastCommitted e.slot s < e.nextStep.toNat || regionFenced e.slot e.dst e.size s then s else appendUnit r e s
    | _, _ => s

/-! ## SNAPSHOT (R373, R374) -/

/-- The stripe and block records of a binding in unit order, a block's record after its first stripe's. -/
def bindingRaw (b : Binding) (s : State) : List Byte :=
  (List.range (stripeCount b)).flatMap fun i =>
    stripeBytes b.rule (getStripe b i s) ++
      (if isBlockRule b.rule && i % 16 == 0 then blockBytes b.rule (getBlock b (i / 16) s) else [])

/-- A_f, B_f and e of each parameter of a round region. -/
def regionRaw (x : Region) : List Byte :=
  x.params.flatMap fun q => leBytes 5 q.af.toNat ++ leBytes 4 q.bf.toNat ++ leBytes 4 q.e.toNat

/-- The section header of a binding, and of a round region. -/
def bindingHead (b : Binding) : List Byte := ((b.hyper.take 5).flatMap wordBytes) ++ wordBytes b.bindStep ++ leBytes 16 0
def regionHead (x : Region) : List Byte := ((x.header.take 2).flatMap wordBytes) ++ leBytes 48 0

/-- A section: its header and a stream of KIND 1. -/
def sectionBytes (h raw : List Byte) : List Byte := h ++ encodeStream 1 0 16 raw

/-- The sections of some groups' owned state as header and raw bytes. -/
def snapshotSections (gs : List Group) (s : State) : List (List Byte × List Byte) :=
  ((s.nmu.bindings.filter fun b => gs.any fun g => g.id == b.group).map fun b => (bindingHead b, bindingRaw b s))
    ++ ((s.regions.filter fun x => gs.any fun g => g.id == x.group).map fun x => (regionHead x, regionRaw x))

/-- The bound of R285 for a snapshot. -/
def snapshotBound (secs : List (List Byte × List Byte)) : Nat := 64 + sumNat (secs.map fun x => 64 + maxStored x.2.length)

/-- The state of some groups after step `n`, undone on a copy of the device's state. -/
def rebuiltAll (gs : List Group) (n : Word) (s : State) : State := gs.foldl (fun t g => rebuilt g n t) s

/-- SNAPSHOT as it starts. -/
def startSnapshot (r : DescRec) (s : State) : State :=
  let d := r.desc
  let slot : Nat := d.slot
  let n := d.w2
  let limit := fieldNat d.w4 0 48
  let gs := exportGroups slot s
  match regionFault slot d.w3.toNat limit true s with
  | some a => refuse r 0x0101 a s
  | none =>
    if lastCommitted slot s < n.toNat || !slowRegion slot d.w3.toNat limit s then refuse r 0x0004 0 s
    else if overlapsProtected slot d.w3.toNat limit s then refuse r 0x0103 d.w3.toNat s
    else match commitRec gs n s with
      | none => refuseCap r 0 s
      | some c =>
        if !canRebuild n s then refuseCap r 0 s
        else
          let secs := snapshotSections gs (rebuiltAll gs n s)
          if limit < snapshotBound secs then refuseCap r 0 s
          else
            let head := leBytes 8 0x4C594B53 ++ wordBytes n ++ c.payload.take 32 ++ leBytes 8 secs.length ++ leBytes 8 0
            let bs := head ++ secs.flatMap fun x => sectionBytes x.1 x.2
            done r bs.length (vaStore slot d.w3.toNat bs s)

/-- SNAPSHOT (R373). -/
def execSnapshot (d : Desc) (s : State) : Out := .next (fetchWith 0x0D d noFetchEffect startSnapshot s)

end Sys2Proof.Machine
end

