-- ==== Sys2Proof/Machine/Merge.lean ====
section
/-!
DEFINITION. Machine/Merge.lean: round pages, the forming of differences, merges, corrections and the ledger of a pen-pal region
(R330, R335, R341, R342, R344 to R346, R357, R358, R360, R438).
-/

namespace Sys2Proof.Machine

/-! ## The round page (Tables 13-1, 13-2) -/

/-- The device address of a channel's round page. -/
def roundPageVa : Nat := 0xFFFFFFA00000

/-- The control header as memory holds it. -/
def readRound (slot : Nat) (s : State) : List Word := (List.range 8).map fun i => vaWord slot (roundPageVa + 8 * i) s

def rhRule (h : List Word) : Nat := fieldNat (h.getD 0 0) 0 2
def rhSite (h : List Word) : Nat := fieldNat (h.getD 0 0) 2 3
def rhKeep (h : List Word) : Nat := let k := fieldNat (h.getD 0 0) 16 16; if k == 0 then 1024 else k
def rhDrift (h : List Word) : Nat := let k := fieldNat (h.getD 0 0) 32 8; if k == 0 then 64 else k
def rhWait (h : List Word) : Nat := let k := fieldNat (h.getD 0 0) 40 8; if k == 0 then 60 else k
def rhLr (h : List Word) : W32 := let k : W32 := (h.getD 1 0).setWidth 32; if k == 0 then 0x3F800000 else k
def rhMu (h : List Word) : W32 :=
  let k : W32 := BitVec.ofNat 32 (fieldNat (h.getD 1 0) 32 32)
  if rhRule h == 0 then 0 else if k == 0 then 0x3F666666 else k
def rhPals (h : List Word) : List Nat := (List.range 8).map fun j => fieldNat (h.getD (2 + j / 4) 0) (16 * (j % 4)) 16
def rhLedger (h : List Word) : Nat := fieldNat (h.getD 4 0) 0 48
def rhLedgerBytes (h : List Word) : Nat := fieldNat (h.getD 5 0) 0 48
def rhGroup (h : List Word) : Nat := fieldNat (h.getD 6 0) 0 16

/-- The header less its Round fields, KEEP, OUTER_LR and OUTER_MU. -/
def openPart (h : List Word) : List Word := (h.getD 0 0 &&& 0xFFFFFFFF0000FFFF) :: h.drop 2

/-- Whether the header's fields are in range for a group. -/
def roundHeaderOk (h : List Word) (g : Group) (s : State) : Bool :=
  decide (rhRule h ≤ 1) && decide (rhSite h < g.sites) && h.getD 0 0 &&& 0xFFFF00000000FFE0 == 0 && fpPositive (rhLr h)
    && (rhRule h == 0 || (fpPositive (rhMu h) && fpBelowOne (rhMu h))) && rhLedger h % pageBytes == 0 && rhLedgerBytes h % pageBytes == 0
    && fieldNat (h.getD 4 0) 48 16 == 0 && fieldNat (h.getD 5 0) 48 16 == 0 && fieldNat (h.getD 6 0) 16 48 == 0 && h.getD 7 0 == 0
    && (List.range g.sites).all fun j => j == rhSite h || (palOf ((rhPals h).getD j 0) s).isSome

/-- CONFIG_CRC (Table 13-4). -/
def configCrc (h : List Word) : W32 :=
  crc32c (leBytes 1 (rhRule h) ++ leBytes 1 0 ++ leBytes 2 (rhKeep h) ++ leBytes 4 (rhLr h).toNat ++ leBytes 4 (rhMu h).toNat)

/-- Whether a pen pal is reachable (R356). -/
def palReach (p : Pal) (s : State) : Bool := p.reachable && (palLink p s).isSome

/-- Whether a region's site is reachable. -/
def siteReach (x : Region) (j : Nat) (s : State) : Bool := ((sitePal x j s).map fun p => palReach p s).getD false

/-- The other sites of a region. -/
def otherSites (x : Region) : List Nat := (List.range x.sites).filter fun j => j != x.site

/-- The first 32 bits of SHAKE256 over A_f (Table 13-7). -/
def anchorDigest (x : Region) : W32 := BitVec.ofNat 32 (leNat (shake256 4 (packM40 (x.params.map fun q => q.af.toNat))))

/-- The round length in force for a round (R340). -/
def stepsInForce (x : Region) (r : Nat) : Nat :=
  match x.localChange with
  | some (n, v) => if n ≤ r then v else x.localSteps
  | none => x.localSteps

/-- The status block of a region. -/
def roundStatus (x : Region) (s : State) : List Byte :=
  let reach := sumNat ((otherSites x).map fun j => if siteReach x j s then 2 ^ j else 0)
  let rounds := ((x.ledger.map fun d => d.round).eraseDups).length
  leBytes 8 x.roundSent ++ leBytes 8 x.roundMerged ++ leBytes 8 x.roundFinal
    ++ leBytes 8 (stepsInForce x (x.roundSent + 1) + reach * 2 ^ 16 + x.drifted * 2 ^ 24 + rounds % 256 * 2 ^ 32 + (if x.joined then 2 ^ 40 else 0))

/-- The status block written where a round page is mapped, READ_ONLY or not: for each channel, that of the region its latest
ROUND_SEND named. -/
def showRounds (s : State) : State :=
  (s.regions.filter fun x => x.current && (locate x.slot roundPageVa s).isSome).foldl (fun s x =>
    vaForce x.slot (roundPageVa + 64) (roundStatus x s) s) s

/-! ## Regions and their bindings (R336) -/

/-- The binding of a compute channel of the same port whose whole segments a region resolves to, and the region's byte offset in
it. -/
def resolveRegion (slot base len : Nat) (s : State) : Option (Binding × Nat) :=
  match chanOf slot s with
  | none => none
  | some c => s.nmu.bindings.findSome? fun b =>
    let w := fmtBytes b.fmt
    let seg := 65536 * w
    let owner := (chanOf b.slot s).any fun k => k.cls == 1 && k.owner == c.owner
    if len == 0 || len % w != 0 || !owner then none
    else (((List.range (ceilDiv (b.count * w) seg)).map fun k => k * seg).find? fun off =>
      decide (off + len ≤ b.count * w) && (len % seg == 0 || off + len == b.count * w)
        && pieces slot base len s == pieces b.slot (b.base + off) len s).map fun off => (b, off)

/-- The masters of a region in logical order. -/
def regionMasters (b : Binding) (first n : Nat) (s : State) : List W40 :=
  (((List.range (ceilDiv (first + n) 1024 - first / 1024)).flatMap fun i => (getStripe b (first / 1024 + i) s).w).drop (first % 1024)).take n

/-! ## Changing a region: journal and publication (R346) -/

/-- The masters and round state of one unit changed by a function of the parameter's place in the region, journalled and
published when they differ. -/
def changeUnit (num : Nat) (f : Nat → W40 → RoundParam → W40 × RoundParam) (stream i : Nat) (s : State) : State :=
  match regionOf num s with
  | none => s
  | some y => match bindingOf y.binding s with
    | none => s
    | some b =>
      let st := getStripe b i s
      let old := roundUnit y b i s
      let place (k : Nat) : Nat := (y.firstParam + k) % 1024
      let res := (regionSpan y i).filterMap fun k => y.params[k]?.map fun q => (k, f k (st.w.getD (place k) 0) q)
      let w := res.foldl (fun w r => setAt w (place r.1) r.2.1) st.w
      let ps := res.foldl (fun ps r => setAt ps r.1 r.2.2) y.params
      let z := { y with params := ps }
      let t := modRegion num (fun _ => z) (putStripe b i { st with w := w } s)
      let new := roundUnit z b i t
      if ps == y.params && w == st.w then s
      else
        let n := ((groupOf b.group t).map fun g => g.lastStep + 1).getD 0
        let t := appendRec { kind := 3, journal := stackOfStripe b i t, step := n, binding := num, mirror := false, unit := b.lbase + 1024 * i, seq := 0
                             postCrc := crc64 (stripeBytes b.rule { st with w := w }), chain := 0, payload := xorBytes old new } t
        if w == st.w then t else publishStripe b i (BitVec.ofNat 64 (2 ^ 63 + stream)) t

/-- Every unit of a region changed. -/
def changeRegion (x : Region) (f : Nat → W40 → RoundParam → W40 × RoundParam) (stream : Nat) (s : State) : State :=
  ((List.range (ceilDiv (x.firstParam + x.params.length) 1024)).filter fun i => decide (x.firstParam / 1024 ≤ i)).foldl (fun s i => changeUnit x.num f stream i s) s

/-! ## Forming a difference (R341, R342) -/

/-- The latest reference of a parameter: the newest it holds, or the anchor. -/
def latestRef (q : RoundParam) : W40 :=
  (q.c.foldl (fun (m : Option (Nat × W40)) c => match m with | some x => if x.1 < c.1 then some c else m | none => some c) none).elim q.a Prod.snd

/-- x of one parameter: the progress since the latest reference, and the residual. -/
def progress (w : W40) (q : RoundParam) : NV := nAdd 0x01 (nAdd 0x01 (nv40 w) (nNeg (nv40 (latestRef q)))) (nv32 q.e)

/-- A chunk's score: the exact sum of squares, rounded once. -/
def chunkScore (xs : List Fp) : Fp := decodeCode 0x01 (roundArith 0x01 (sumExact (xs.map fun x => (mulExact x x).1)).1).1

/-- Chunks of a region, kept chunks, and the bytes of a record that keeps `kept` of them. -/
def chunkCount (n : Nat) : Nat := ceilDiv n 32
def keptMost (n keep : Nat) : Nat := ceilDiv (chunkCount n * keep) 65536
def recordSize (chunks kept : Nat) : Nat := 64 + ceilDiv chunks 512 * 64 + 33 * kept

/-- The header of a difference record (Table 13-4). -/
def diffHeader (x : Region) (base round stale kept : Nat) (empty : Bool) (crc : W32) : List Byte :=
  leBytes 8 round ++ leBytes 8 (x.site + (if empty then 8 else 0) + stale % 8 * 16) ++ leBytes 8 base
    ++ leBytes 8 (chunkCount x.params.length + kept * 2 ^ 32) ++ leBytes 8 crc.toNat ++ leBytes 24 0

/-- Bits as bytes, padded to whole 64-byte units. -/
def bitmapBytes (n : Nat) (set : Nat → Bool) : List Byte :=
  (List.range (ceilDiv n 512 * 64)).map fun i => BitVec.ofNat 8 (sumNat ((List.range 8).map fun j => if decide (8 * i + j < n) && set (8 * i + j) then 2 ^ j else 0))

/-- The order of chunks by score: the larger first, the lower number on a tie. -/
def scoreBefore (a b : Nat × Fp) : Bool := ltFp b.2 a.2 || (!ltFp a.2 b.2 && decide (a.1 ≤ b.1))

/-- What forming the difference of a round yields: the kept chunks with the 32 decoded codes of each, and the blocks' bytes; none
when a value is not finite. -/
def formDiff (xs : List Fp) (keep : Nat) : Option (List (Nat × List W32) × List Byte) :=
  if xs.any nonFiniteFp then none
  else
    let cs := (chunks 32 xs).zipIdx.map fun c => (c.2, c.1 ++ List.replicate (32 - c.1.length) (.fin false 0 0))
    let order := sortBy scoreBefore (cs.map fun c => (c.1, chunkScore c.2))
    let kept := sortBy (fun a b => decide (a ≤ b)) ((order.take (keptMost xs.length keep)).map Prod.fst)
    let vals := kept.flatMap fun j => (cs.find? fun c => c.1 == j).elim [] Prod.snd
    let bs := (encodeTensor 0x08 (0, 8, false, false) (List.replicate vals.length 0) vals).1
    let qs := (chunks 32 (decodeTensor 0x08 bs)).map fun q => q.map fun v => BitVec.ofNat 32 (roundArith 0x01 v).1
    some (List.zip kept qs, bs)

/-- A difference's value of a parameter; +0 in a chunk not kept. -/
def diffAt (d : List (Nat × List W32)) (i : Nat) : W32 := ((d.find? fun c => c.1 == i / 32).map fun c => c.2.getD (i % 32) 0).getD 0

/-- The difference of a round formed: residuals and references renewed, the record held. -/
def formRound (x : Region) (r : Nat) (h : List Word) (s : State) : State :=
  match bindingOf x.binding s with
  | none => s
  | some b =>
    let ws := regionMasters b x.firstParam x.params.length s
    let xs := List.zipWith (fun w q => (progress w q).1) ws x.params
    let crc := configCrc h
    let stale := r - 1 - x.roundMerged
    let base := b.lbase + x.firstParam
    let s := modRegion x.num (fun y => { y with
      roundSent := r, lrMu := tset y.lrMu r (rhLr h, rhMu h, crc), stepsSince := 0
      localSteps := stepsInForce y r, localChange := match y.localChange with | some (n, v) => if n ≤ r then none else some (n, v) | none => none }) s
    let hold (d : DiffRec) (s : State) : State := modRegion x.num (fun y => { y with ledger := y.ledger ++ [d] }) s
    match formDiff xs (rhKeep h) with
    | none =>
      let s := modRegion x.num (fun y => { y with params := y.params.map fun q => { q with c := q.c ++ [(r, latestRef q)] } }) s
      hold { round := r, site := x.site, empty := true, stale := stale, chunks := [], bytes := diffHeader x base r stale 0 true crc } s
    | some (cs, bs) =>
      let n := x.params.length
      let ps := (List.zip ws (List.zip xs x.params)).zipIdx.map fun p =>
        let q := p.1.2.2
        { q with e := to32 (nAdd 0x01 (p.1.2.1, 0) (nNeg (nv32 (diffAt cs p.2)))), c := q.c ++ [(r, p.1.1)] }
      let s := modRegion x.num (fun y => { y with params := ps }) s
      let rec' := diffHeader x base r stale cs.length false crc ++ bitmapBytes (chunkCount n) (fun j => cs.any fun c => c.1 == j) ++ bs
      hold { round := r, site := x.site, empty := false, stale := stale, chunks := cs, bytes := rec' } s

/-! ## Merging (R344) -/

/-- The record held of a site for a round. -/
def heldRec (x : Region) (k j : Nat) : Option DiffRec := x.ledger.find? fun d => d.round == k && d.site == j

/-- The sites whose non-empty difference for a round is held. -/
def heldSites (x : Region) (k : Nat) : List Nat := (List.range x.sites).filter fun j => (heldRec x k j).any fun d => !d.empty

/-- One level of the pairwise tree over sites: an absent site's partner passes up. -/
def pairUp : List (Option NV) → List (Option NV)
  | some a :: some b :: r => some (nAdd 0x01 a b) :: pairUp r
  | none :: b :: r => b :: pairUp r
  | a :: none :: r => a :: pairUp r
  | xs => xs

/-- g of a parameter: the weighted mean of the differences held. -/
def meanDiff (x : Region) (k i : Nat) : NV :=
  let held := (List.range 8).map fun j => (heldRec x k j).filter fun d => !d.empty && decide (j < x.sites)
  let ts := held.map fun d => d.map fun d => nMul 0x01 (nv32 (diffAt d.chunks i)) (nvPow2 (-(d.stale : Int)))
  let wsum : NV := (.fin false (sumNat (held.map fun d => match d with | some d => 2 ^ (7 - d.stale) | none => 0)) (-7), 0)
  match (pairUp (pairUp (pairUp ts))).headD none with
  | some d => nDiv d wsum
  | none => nv32 0

/-- OUTER_LR and OUTER_MU of a round: those read when it was formed, or those of the latest header. -/
def roundCfg (x : Region) (k : Nat) : W32 × W32 := ((tget? x.lrMu k).map fun c => (c.1, c.2.1)).getD (rhLr x.header, rhMu x.header)

/-- The anchor and momentum lines of a round. -/
def anchorStep (x : Region) (k i : Nat) (p : W40 × W32) : W40 × W32 :=
  let g := meanDiff x k i
  let lr := nv32 (roundCfg x k).1
  if x.outerRule == 0 then (to40 (nFma 0x07 lr g (nv40 p.1)), p.2)
  else
    let mu := nv32 (roundCfg x k).2
    let bm := nFma 0x01 mu (nv32 p.2) g
    let u := nFma 0x01 mu (nv32 (to32 bm)) g
    (to40 (nFma 0x07 lr u (nv40 p.1)), to32 bm)

/-- A code moved by a shift. -/
def shiftBy (sh : NV) (c : W40) : W40 := to40 (nAdd 0x07 (nv40 c) sh)

/-- One parameter merged: its anchor moves, its master and later references by the shift from the round's reference. -/
def mergeParam (x : Region) (k i : Nat) (w : W40) (q : RoundParam) : W40 × RoundParam :=
  let p := anchorStep x k i (q.a, q.bm)
  let ref := ((q.c.find? fun c => c.1 == k).map Prod.snd).getD q.a
  let sh := nAdd 0x01 (nv40 p.1) (nNeg (nv40 ref))
  (shiftBy sh w, { q with a := p.1, bm := p.2, c := (q.c.filter fun c => decide (k < c.1)).map fun c => (c.1, shiftBy sh c.2) })

/-- A round merged. -/
def mergeRound (x : Region) (k : Nat) (s : State) : State :=
  modRegion x.num (fun y => { y with roundMerged := k, mergedSets := tset y.mergedSets k (heldSites x k) })
    (changeRegion x (mergeParam x k) k s)

/-- Whether a round may be merged (R339): each site's difference is held, or the site counts as unreachable for it. -/
def mergeReady (x : Region) (k : Nat) (s : State) : Bool :=
  (List.range x.sites).all fun j => (heldRec x k j).isSome || (j != x.site && (!siteReach x j s || x.unreachFor.contains (k, j)))

/-- Rounds merged in ascending order, while the next one is ready. -/
def mergeAll (num : Nat) : Nat → State → State
  | 0, s => s
  | fuel + 1, s =>
    match regionOf num s with
    | none => s
    | some x =>
      if x.roundMerged < x.roundSent && mergeReady x (x.roundMerged + 1) s then mergeAll num fuel (mergeRound x (x.roundMerged + 1) s)
      else s

/-! ## Finality and correction (R345), the ledger (R357), the round length (R438) -/

/-- The rounds from ROUND_FINAL + 1 that are merged and complete. -/
def finalTo (x : Region) : Nat → Nat → Nat
  | 0, k => k
  | fuel + 1, k =>
    if k < x.roundMerged && (List.range x.sites).all fun j => (heldRec x (k + 1) j).isSome then finalTo x fuel (k + 1) else k

/-- The rounds a then b - 1 upward. -/
def roundsFrom (a b : Nat) : List Nat := (List.range (b - a)).map fun i => a + i

/-- One parameter at finality: A_f and B_f repeated to round `k`; corrected, the anchor repeated to ROUND_MERGED and the shift
applied. -/
def finalParam (x : Region) (k : Nat) (corrects : Bool) (i : Nat) (w : W40) (q : RoundParam) : W40 × RoundParam :=
  let f := (roundsFrom (x.roundFinal + 1) (k + 1)).foldl (fun p m => anchorStep x m i p) (q.af, q.bf)
  if corrects then
    let p := (roundsFrom (k + 1) (x.roundMerged + 1)).foldl (fun p m => anchorStep x m i p) f
    let sh := nAdd 0x01 (nv40 p.1) (nNeg (nv40 q.a))
    (shiftBy sh w, { q with af := f.1, bf := f.2, a := p.1, bm := p.2, c := q.c.map fun c => (c.1, shiftBy sh c.2) })
  else (w, { q with af := f.1, bf := f.2 })

/-- The round length judged at a final round that is a multiple of 16: the staleness of the records of the sixteen rounds. -/
def judgeSteps (k : Nat) (x : Region) (s : State) : State :=
  let ds := x.ledger.filter fun d => !d.empty && decide (d.round ≤ k) && decide (k < d.round + 16)
  let total := sumNat (ds.map fun d => d.stale)
  let e := policyOf x.group s
  let old := (x.localChange.map Prod.snd).getD x.localSteps
  let new := if ds.length < total then min (2 * old) e.localMax else if total == 0 then max (old / 2) e.localMin else old
  if k % 16 != 0 || new == old then s
  else
    let allow := policyAllows 0 x.group s
    let s := logDecision 0 allow x.group x.num old new 0 total s
    if allow then modRegion x.num (fun y => { y with localChange := some (k + 8, new) }) s else s

/-- The rounds of a ledger, oldest first. -/
def ledgerRounds (x : Region) : List Nat := sortBy (fun a b => decide (a ≤ b)) (x.ledger.map fun d => d.round).eraseDups

/-- The bytes that the rounds beyond the newest 64 take where they spill. -/
def spillBytes (x : Region) : List Byte :=
  let rs := ledgerRounds x
  (rs.take (rs.length - 64)).flatMap fun k => (x.ledger.filter fun d => d.round == k).flatMap fun d => d.bytes

/-- The oldest rounds discarded until the spilled ones fit; how many went. -/
def trimSpill (x : Region) : Nat → Region
  | 0 => x
  | fuel + 1 =>
    if (spillBytes x).length ≤ x.ledgerBytes then x
    else match ledgerRounds x with
      | [] => x
      | k :: _ => trimSpill { x with ledger := x.ledger.filter fun d => d.round != k } fuel

/-- The ledger brought within its rounds and its space (R357). -/
def trimLedger (num : Nat) (s : State) : State :=
  match regionOf num s with
  | none => s
  | some x =>
    let x := { x with ledger := x.ledger.filter fun d => decide (x.roundFinal < d.round + x.driftRounds) }
    let y := trimSpill x x.ledger.length
    let lost := (ledgerRounds x).filter fun k => !(ledgerRounds y).contains k
    let s := modRegion num (fun _ => y) s
    let s := if lost.isEmpty then s else raiseEvent 0x53 [num, 0, lost.headD 0, lost.getLastD 0] s
    vaStore y.slot y.ledgerVa (spillBytes y) s

/-- ROUND_FINAL advanced as far as it can, with a correction where a round was merged with another set (R345). -/
def advanceFinal (num : Nat) (s : State) : State :=
  match regionOf num s with
  | none => s
  | some x =>
    let k := finalTo x (x.roundMerged - x.roundFinal) x.roundFinal
    if k == x.roundFinal then s
    else
      let ks := roundsFrom (x.roundFinal + 1) (k + 1)
      let bad := ks.find? fun m => tget? x.mergedSets m != some (heldSites x m)
      let s := changeRegion x (finalParam x k bad.isSome) x.roundMerged s
      let s := match bad with
        | some m =>
          let was := (tget? x.mergedSets m).getD []
          raiseEvent 0x50 [num, ((heldSites x m).find? fun j => !was.contains j).getD 0, x.roundFinal + 1, x.roundMerged] s
        | none => s
      let sets := (roundsFrom (k + 1) (x.roundMerged + 1)).map fun m => (m, heldSites x m)
      let s := modRegion num (fun y => { y with
        roundFinal := k, mergedSets := if bad.isSome then sets else y.mergedSets.filter fun m => decide (k < m.1)
        unreachFor := y.unreachFor.filter (fun u => decide (k < u.1)), lrMu := y.lrMu.filter fun m => decide (k < m.1) }) s
      let s := ks.foldl (fun s m => judgeSteps m x s) s
      trimLedger num s

/-- Whether a region stands at a step boundary of its group. -/
def atBoundary (x : Region) (s : State) : Bool := !((groupOf x.group s).any fun g => g.open'.isSome)

/-! ## Drift (R358) -/

/-- The highest round of a site that is held. -/
def highestHeld (x : Region) (j : Nat) : Nat := ((x.ledger.filter fun d => d.site == j && !d.bytes.isEmpty).map fun d => d.round).foldl max 0

/-- A site counts as held empty for the rounds of a list that lack its difference. -/
def holdEmpty (ks : List Nat) (j : Nat) (x : Region) : Region :=
  { x with ledger := x.ledger ++ (ks.filter fun k => (heldRec x k j).isNone).map fun k =>
      { round := k, site := j, empty := true, stale := 0, chunks := [], bytes := [] } }

/-- Every site that lags too far declared drifted. -/
def declareDrift (num : Nat) (s : State) : State :=
  match regionOf num s with
  | none => s
  | some x => (otherSites x).foldl (fun s j =>
      if x.drifted.testBit j || !decide (highestHeld x j + x.driftRounds < x.roundSent) then s
      else raiseEvent 0x51 [num, j, x.roundFinal + 1, x.roundSent]
        (modRegion num (fun y => holdEmpty (roundsFrom (y.roundFinal + 1) (y.roundSent + 1)) j { y with drifted := y.drifted + 2 ^ j }) s)) s

/-! ## Joining another side (R360) -/

/-- The anchor of a pulled section: A_f, B_f of each parameter. -/
def parseAnchor (n : Nat) (raw : List Byte) : List (W40 × W32) :=
  (List.range n).map fun i => (BitVec.ofNat 40 (leNat ((raw.drop (13 * i)).take 5)), BitVec.ofNat 32 (leNat ((raw.drop (13 * i + 5)).take 4)))

/-- The rounds whose own difference the keeping side holds as empty: those it never acknowledged. -/
def carried (x : Region) (j : Nat) : List DiffRec :=
  x.ledger.filter fun d => d.site == x.site && !d.empty && decide (x.roundFinal < d.round) && !x.acked.contains (d.round, j)

/-- A residual with own differences added, each addition rounding once. -/
def carryInto (ds : List DiffRec) (i : Nat) (e : W32) : W32 := ds.foldl (fun e d => to32 (nAdd 0x01 (nv32 e) (nv32 (diffAt d.chunks i)))) e

/-- One parameter joined: the anchor rebuilt from the pulled state, the shift applied, or the master set to it when the region has
just opened. -/
def joinParam (x : Region) (anchor : Array (W40 × W32)) (ks : List Nat) (ds : List DiffRec) (i : Nat) (w : W40) (q : RoundParam) :
    W40 × RoundParam :=
  let f := anchor.getD i (q.af, q.bf)
  let p := ks.foldl (fun p m => anchorStep x m i p) f
  let sh := nAdd 0x01 (nv40 p.1) (nNeg (nv40 q.a))
  let r : RoundParam := { q with af := f.1, bf := f.2, a := p.1, bm := p.2 }
  if x.openId.isSome then (p.1, { r with e := 0, c := [] })
  else (shiftBy sh w, { r with e := carryInto ds i q.e, c := q.c.map fun c => (c.1, shiftBy sh c.2) })

/-- A region joins the side of a site whose anchor has come. -/
def joinRegion (x : Region) (j : Nat) (anchor : List (W40 × W32)) (s : State) : State :=
  let final := ((tget? x.said j).map fun y => y.2.1).getD 0
  let top := (x.ledger.filter fun d => d.site != x.site && !d.bytes.isEmpty).foldl (fun m d => max m d.round) final
  let ks := roundsFrom (final + 1) (top + 1)
  let ds := carried x j
  let y := holdEmpty ks x.site { x with
    roundFinal := final, drifted := 0
    ledger := x.ledger.filter fun d => !(d.site == x.site && ds.any fun e => e.round == d.round) && decide (final < d.round + x.driftRounds) }
  let s := modRegion x.num (fun _ => y) s
  let s := changeRegion y (joinParam y anchor.toArray ks ds) top s
  let s := modRegion x.num (fun y => { y with
    roundMerged := top, roundSent := max y.roundSent top, joined := true, joining := none, stepsSince := 0
    mergedSets := ks.map fun k => (k, heldSites y k), unreachFor := [] }) s
  raiseEvent 0x52 [x.num, j, final + 1, top] s

/-! ## Policing of differences (R330) -/

/-- The FP32 norm of a difference: the exact sum of its squares, rounded, and its root. -/
def diffNorm (cs : List (Nat × List W32)) : W32 :=
  let xs := cs.flatMap fun c => c.2.map fun v => decodeCode 0x01 v.toNat
  if xs.any nonFiniteFp then 0x7F800000
  else to32 (nSqrt (nvOf 0x01 (roundArith 0x01 (sumExact (xs.map fun x => (mulExact x x).1)).1) 0))

/-- The median of norms: the middle one, or half the sum of the middle two (notes/assumptions/30.md). -/
def medianOf (ns : List W32) : W32 :=
  let v := sortBy (fun a b => decide (a ≤ b)) (ns.map fun n => n.toNat)
  let k := v.length / 2
  if v.length % 2 == 1 then BitVec.ofNat 32 (v.getD k 0)
  else to32 (nMul 0x01 (nAdd 0x01 (nv32 (BitVec.ofNat 32 (v.getD (k - 1) 0))) (nv32 (BitVec.ofNat 32 (v.getD k 0)))) (nvPow2 (-1)))

/-- What policing makes of a norm: rejected, scaled by a factor, or accepted as it is. -/
def judgeNorm (norms : List W32) (n : W32) : Option (Option NV) :=
  let m := nv32 (medianOf norms)
  let x := decodeCode 0x01 n.toNat
  if norms.length < 4 then some none
  else if nonFiniteFp x then none
  else if ltFp (nMul 0x01 m (nvPow2 4)).1 x then none
  else if ltFp (nMul 0x01 m (nvPow2 2)).1 x then some (some (nDiv (nMul 0x01 m (nvPow2 2)) (nv32 n)))
  else some none

/-- A difference scaled. -/
def scaleDiff (f : NV) (cs : List (Nat × List W32)) : List (Nat × List W32) := cs.map fun c => (c.1, c.2.map fun v => to32 (nMul 0x01 (nv32 v) f))

end Sys2Proof.Machine
end

