-- ==== Sys2Proof/Machine/Rounds.lean ====
section
/-!
DEFINITION. Machine/Rounds.lean: pen pals and outer rounds (R334 to R343, R350, R351, R356 to R361), and the decision of admission
for both kinds of pass (R315, R338).
-/

namespace Sys2Proof.Machine

/-! ## PEN_PAL_DEFINE (R334) -/

/-- The four far links of FAR_LINKS, by bit. -/
def farLinkOf (i : Nat) : Nat := [16, 17, 34, 35].getD i 0

/-- PEN_PAL_DEFINE as it starts. Defining a pen pal again replaces it. -/
def startPal (r : DescRec) (s : State) : State :=
  let w := r.desc.w4
  let id := fieldNat r.desc.w2 0 16
  let steps := fieldNat w 0 13
  let links : BitVec 4 := BitVec.ofNat 4 (fieldNat w 24 4)
  let et : BitVec 16 := if fieldNat w 32 16 == 0 then 0x88B5 else BitVec.ofNat 16 (fieldNat w 32 16)
  let notFar := (List.range 4).any fun i => links.getLsbD i && !(linkOf (farLinkOf i) s).ctlFar
  let clash := s.pals.any fun p => p.id != id && p.farLinks &&& links != 0 && p.ethertype != et
  if steps == 0 || decide (4096 < steps) || decide (8 ≤ fieldNat w 16 4) || notFar || clash then refuse r 0x0004 0 s
  else
    let p : Pal := { id := id, partner := r.desc.w3, localSteps := steps, staleness := fieldNat w 16 4, farLinks := links, ethertype := et }
    done r 0 { s with pals := s.pals.filter (fun q => q.id != id) ++ [p] }

/-- PEN_PAL_DEFINE (R334). -/
def execPenPalDefine (d : Desc) (s : State) : Out := .next (fetchWith 0x46 d noFetchEffect startPal s)

/-! ## ROUND_STATE (Table 13-7) -/

/-- The words of a region's ROUND_STATE less its destination. -/
def stateWords (x : Region) : List Word :=
  let crc := ((tget? x.lrMu x.roundSent).map fun c => c.2.2).getD (configCrc x.header)
  [BitVec.ofNat 64 (x.site + x.drifted * 8), BitVec.ofNat 64 x.roundSent, BitVec.ofNat 64 x.roundFinal
  , BitVec.ofNat 64 (crc.toNat + (anchorDigest x).toNat * 2 ^ 32)]

/-- An item sent toward a pen pal. -/
def sendPal (p : Pal) (it : Item) (s : State) : State := match palLink p s with | some l => sendItem l it s | none => s

/-- ROUND_STATE of a region sent to a site. -/
def tellState (num j : Nat) (s : State) : State :=
  match regionOf num s with
  | none => s
  | some x => match sitePal x j s with
    | none => s
    | some p =>
      let ws := stateWords x
      modRegion num (fun y => { y with stateSent := tset y.stateSent j (mono s, ws) })
        (sendPal p (mkItem 0x22 0 (ws.getD 0 0) (ws.getD 1 0) (ws.getD 2 0) (ws.getD 3 0) p.partner) s)

/-- ROUND_STATE_SEND (R350): 100 ms after the last, or because its contents have changed. -/
def execRoundStateSend (pal : BitVec 16) (region : Nat) (s : State) : Out :=
  .next <|
    match regionOf region s with
    | none => s
    | some x => match (otherSites x).find? fun j => x.pals.getD j 0 == pal.toNat with
      | none => s
      | some j => match tget? x.stateSent j with
        | some (t, ws) => if decide (100000000 ≤ nsSince t (mono s)) || ws != stateWords x then tellState region j s else s
        | none => tellState region j s

/-- ROUND_PULL sent to a site: rounds `a` to `b`, the anchor first of all when `a` is 0. -/
def sendPull (x : Region) (j a b : Nat) (s : State) : State :=
  match sitePal x j s with
  | some p => sendPal p (mkItem 0x23 0 (BitVec.ofNat 64 a) (BitVec.ofNat 64 b) (BitVec.ofNat 64 x.num) 0 p.partner) s
  | none => s

/-! ## Opening a region (R336, R337) -/

/-- The ROUND_SEND 0 of a region ends: done, or refused with the region dropped. -/
def endOpen (x : Region) (detail : BitVec 16) (s : State) : State :=
  match x.openId.bind fun i => descOf i s with
  | none => s
  | some r =>
    if detail == 0 then done r 0 (modRegion x.num (fun y => { y with openId := none }) s)
    else refuse r detail 0 (dropRegions (fun y => y.num == x.num) s)

/-- An opening region goes on once every reachable pen pal has reported: it joins where one is ahead, fails where an anchor
differs, else it is open. -/
def tryOpen (num : Nat) (s : State) : State :=
  match regionOf num s with
  | none => s
  | some x =>
    if x.openId.isNone || x.joining.isSome then s
    else
      let js := (otherSites x).filter fun j => siteReach x j s
      if js.any fun j => (tget? x.said j).isNone then s
      else
        let said := js.filterMap fun j => (tget? x.said j).map fun y => (j, y)
        match said.find? fun y => decide (0 < y.2.2.1) with
        | some y => sendPull x y.1 0 y.2.1 (modRegion num (fun z => { z with joining := some y.1 }) s)
        | none => if said.any fun y => y.2.2.2.1 != anchorDigest x then endOpen x 0x0501 s else endOpen x 0 s

/-- The channel's status block follows a region. -/
def nameRegion (slot num : Nat) (s : State) : State :=
  { s with regions := mapIf (fun x => x.slot == slot) (fun x => { x with current := x.num == num }) s.regions }

/-- The smallest STALENESS among a header's pen pals. -/
def headerStale (h : List Word) (g : Group) (s : State) : Nat :=
  ((((List.range g.sites).filter fun j => j != rhSite h).filterMap fun j => (palOf ((rhPals h).getD j 0) s).map fun p => p.staleness).min?).getD 0

/-- Whether the ledger's space suffices (R357): LEDGER_VA in slow pages of the channel, LEDGER_BYTES for the rounds that spill. -/
def ledgerOk (slot : Nat) (h : List Word) (g : Group) (n : Nat) (s : State) : Bool :=
  let bound := maxStored (recordSize (chunkCount n) (keptMost n (rhKeep h)))
  (rhLedgerBytes h == 0 || ((badRegion slot (rhLedger h) (rhLedgerBytes h) true s).isNone && slowRegion slot (rhLedger h) (rhLedgerBytes h) s))
    && decide ((rhDrift h - 64) * g.sites * bound ≤ rhLedgerBytes h)

/-- The lowest region number not in use. -/
def freeRegion (s : State) : Nat := (((List.range (s.regions.length + 1)).find? fun i => !(s.regions.any fun x => x.num == i))).getD 0

/-- A region opened: its state allocated, its anchor the masters, and every reachable pen pal told. -/
def openRegion (r : DescRec) (h : List Word) (b : Binding) (off : Nat) (g : Group) (s : State) : State :=
  let d := r.desc
  let slot : Nat := d.slot
  let len := fieldNat d.w5 0 48
  let n := len / fmtBytes b.fmt
  let stale := headerStale h g s
  let frames := ceilDiv (n * (14 + 5 * (stale + 1) + (if rhRule h == 1 then 8 else 0))) pageBytes
  if !ledgerOk slot h g n s then refuse r 0x0004 0 s
  else if 64 ≤ s.regions.countP (fun x => x.slot == slot) || freeFrameCount s < frames then refuseCap r 0 s
  else
    let first := off / fmtBytes b.fmt
    let num := freeRegion s
    let steps := (((List.range g.sites).filter fun j => j != rhSite h).findSome? fun j => (palOf ((rhPals h).getD j 0) s).map fun p => p.localSteps).getD 1
    let x : Region :=
      { num := num, slot := slot, base := d.w4.toNat, length := len, binding := b.num, firstParam := first, header := h, group := g.id
        site := rhSite h, outerRule := rhRule h, driftRounds := rhDrift h, roundWaitS := rhWait h, pals := rhPals h, ledgerVa := rhLedger h
        ledgerBytes := rhLedgerBytes h, localSteps := steps, sites := g.sites, frames := frames, openId := some r.id
        params := (regionMasters b first n s).map fun w => { af := w, bf := 0, a := w, bm := 0, e := 0, c := [] } }
    let s := modMemory (fun m => { m with privateFrames := m.privateFrames + frames }) { s with regions := s.regions ++ [x] }
    let s := nameRegion slot num (holdAs { r with aux := 1 } .roundForm s)
    let s := ((otherSites x).filter fun j => siteReach x j s).foldl (fun s j => tellState num j s) s
    tryOpen num s

/-! ## ROUND_SEND as it starts (R335 to R340) -/

/-- Whether PEN_PAL names every pen pal of the page, or one of them. -/
def palNamed (d : Desc) (h : List Word) (g : Group) : Bool :=
  let p := fieldNat d.w3 0 16
  p == 0xFFFF || (List.range g.sites).any fun j => j != rhSite h && (rhPals h).getD j 0 == p

/-- A ROUND_SEND of an open region: sent again, formed when its steps are committed, or out of sequence. -/
def startLater (r : DescRec) (x : Region) (s : State) : State :=
  let n := r.desc.w2.toNat
  let slot : Nat := r.desc.slot
  if x.openId.isSome then refuse r 0x0502 0 s
  else if n == x.roundSent && n != 0 then holdAs r .admission (nameRegion slot x.num s)
  else if n != x.roundSent + 1 then refuse r 0x0502 0 s
  else if !atBoundary x s || x.stepsSince < stepsInForce x n then holdAs r .roundForm (nameRegion slot x.num s)
  else holdAs r .admission (nameRegion slot x.num s)

/-- ROUND_SEND as it starts. -/
def startRound (r : DescRec) (s : State) : State :=
  let d := r.desc
  let slot : Nat := d.slot
  let len := fieldNat d.w5 0 48
  let h := readRound slot s
  if (locate slot roundPageVa s).isNone then refuse r 0x0101 roundPageVa s
  else match regionFault slot d.w4.toNat len false s with
    | some a => refuse r 0x0101 a s
    | none => match resolveRegion slot d.w4.toNat len s, groupOf (rhGroup h) s with
      | none, _ => refuse r 0x0503 0 s
      | _, none => refuse r 0x0004 0 s
      | some (b, off), some g =>
        if !roundHeaderOk h g s || !palNamed d h g then refuse r 0x0004 0 s
        else match s.regions.find? fun x => x.slot == slot && x.base == d.w4.toNat && x.length == len with
          | none =>
            if d.w2 != 0 then refuse r 0x0502 0 s
            else if stepIsOpen g.id s then holdAs { r with aux := 0 } .roundForm s
            else openRegion r h b off g s
          | some x =>
            if d.w2 == 0 && x.roundSent == 0 && x.openId.isNone then
              if stepIsOpen g.id s then holdAs { r with aux := 0 } .roundForm s
              else openRegion r h b off g (dropRegions (fun y => y.num == x.num) s)
            else if openPart x.header != openPart h then refuse r 0x0004 0 s
            else startLater r x s

/-- ROUND_SEND (R338). -/
def execRoundSend (d : Desc) (s : State) : Out := .next (sendMirror (showRounds (fetchWith 0x04 d noFetchEffect startRound s)))

/-- ROUND_FORM_RELEASE (R340): a held ROUND_SEND proceeds at a step boundary, once the round's steps have committed or the pen
pals have reported. -/
def execRoundFormRelease (id : Nat) (s : State) : Out :=
  .next <| sendMirror <| showRounds <|
    match descOf id s with
    | none => s
    | some r =>
      if r.hold != .roundForm || (chanOf r.desc.slot s).isNone then s
      else if r.aux == 1 then (match s.regions.find? fun x => x.openId == some id with | some x => tryOpen x.num s | none => s)
      else
        let t := startRound r s
        if (descOf id t).any fun x => x.hold == .roundForm && x.aux == 0 then s else t

/-! ## Admission of a round (R338) -/

/-- Admission's rate of a far link in bytes per nanosecond (Table 13-8), by its parity and lanes. -/
def farRate (l : Nat) (s : State) : ℚ :=
  let k := linkOf l s
  100 * 65536 / ((16 * 4166 + k.far.parity * 4174 : Nat) : ℚ) * (127 / 128) * ((laneCount k : ℚ) / 4)

/-- The rate of the first link toward a pen pal: a far link's, or the data rate of a chip-to-chip one. -/
def palRate (l : Nat) (s : State) : ℚ := if (linkOf l s).farActive then farRate l s else bytesPerNs (laneRate (laneCount (linkOf l s)))

/-- The bound of a far hop: DELAY_MAX in place of the delay measured. -/
def farHop (l : Nat) (s : State) : ℚ :=
  let k := linkOf l s
  656 + 2 * frameTime k * (4166 / 4096) + 600 + 3 * (1000 * k.far.delayMaxUs.toNat : Nat) + 100

/-- The latency of the route to a pen pal. -/
def palLatency (p : Pal) (l : Nat) (s : State) : ℚ :=
  if p.farLinks != 0 then farHop l s
  else ((routeTo p.partner s).getD []).foldl (fun t h => t + (if h.2.2 then farHop (if h.2.1 == l then l else 16) s else hopBound l s)) 0

/-- The sites a ROUND_SEND sends to, with their links. -/
def roundTargets (x : Region) (pal : Nat) (s : State) : List (Nat × Nat) :=
  (otherSites x).filterMap fun j =>
    if (pal == 0xFFFF || x.pals.getD j 0 == pal) && siteReach x j s then (sitePal x j s).bind fun p => (palLink p s).map fun l => (j, l)
    else none

/-- A record's wire bytes. -/
def recordWire (n : Nat) : Nat := n + 64 * ceilDiv n 65536

/-- The segments of a record for a site (R343). -/
def recordSegs (p : Pass) (x : Region) (j first : Nat) (bs : List Byte) (crc : W32) : List OutSeg :=
  (chunks 65536 bs).zipIdx.map fun c =>
    { pass := p.id + 1, num := first + c.2, promise := p.promise, prio := 0, order := p.order, coll := 5, group := x.group, level := 15
      ordinal := BitVec.ofNat 64 p.ordinal, element := 65536 * c.2, sig := crc, srcRank := x.site, dstRank := j
      postUs := p.postedAt.toNat / 1024 % 2 ^ 36, coded := false, data := c.1 }

/-- Records sent to a site on a link as segments of a pass. -/
def sendRecords (id : Nat) (x : Region) (t : Nat × Nat) (rs : List (List Byte × W32)) (s : State) : State :=
  rs.foldl (fun s r => match passOf id s with
    | none => s
    | some p =>
      let segs := recordSegs p x t.1 p.queued.length r.1 r.2
      let nums := segs.map fun o => o.num
      segs.foldl (fun s o => enqueueSeg t.2 o s)
        (modPass id (fun q => { q with queued := q.queued ++ nums, outstanding := q.outstanding ++ nums }) s)) s

/-- A pass of a region, admitted: its ROOT holds the region's number. -/
def roundPass (desc slot ring : Nat) (tag deadline t promise e : Word) (x : Region) (round wire : Nat) (links : List Nat) (s : State) : Pass :=
  { id := s.nextPass, desc := desc, slot := slot, tag := tag, ring := ring, group := x.group, ordinal := round, coll := 5, op := 0, fmt := 0
    fuse := false, codecOk := false, prio := 0, src := 0, dst := 0, length := 0, root := x.num, deadline := deadline, postedAt := t, step := none
    sig := 0, srcData := [], admitted := true, promise := promise, eVal := e.toNat, wire := wire
    order := (s.passes.map fun q => q.order).foldl max 0 + 1, links := links, round := some round }

/-- A round of a site rejected: it counts as not sent; two in a row hold the partner out (Table 12-12). -/
def rejectRound (l : Nat) (x : Region) (k j : Nat) (s : State) : State :=
  let p := x.pals.getD j 0
  let twice := (palOf p s).any fun q => decide (1 ≤ q.rejected)
  let s := modPal p (fun q => { q with rejected := if twice then 0 else q.rejected + 1 }) s
  let s := modRegion x.num (fun y => { y with unreachFor := if y.unreachFor.contains (k, j) then y.unreachFor else y.unreachFor ++ [(k, j)] }) s
  if twice then holdOut l 4 s else s

/-- Records of a round that came before it was formed here, checked against its CONFIG_CRC now that it is known. -/
def recheckConfig (num r : Nat) (s : State) : State :=
  match regionOf num s with
  | none => s
  | some x => match tget? x.lrMu r with
    | none => s
    | some c =>
      let bad := x.ledger.filter fun d => d.round == r && d.site != x.site && !d.bytes.isEmpty && c.2.2 != BitVec.ofNat 32 (leNat ((d.bytes.drop 32).take 4))
      bad.foldl (fun s d => rejectRound (((sitePal x d.site s).bind fun p => palLink p s).getD 16) x r d.site
          (raiseEvent 0x54 [num, d.site, r, r] (modRegion num (fun y => { y with ledger := y.ledger.erase d }) s))) s

/-- A ROUND_SEND granted: ADMITTED, the difference formed when its round is new, its record sent to every target. -/
def grantRound (r : DescRec) (x : Region) (h : List Word) (ts : List (Nat × Nat)) (wire : Nat) (promise e : Word) (s : State) : State :=
  let n := r.desc.w2.toNat
  let p := roundPass r.id r.desc.slot r.desc.ring r.desc.tag r.desc.w6 r.fetchedAt promise e x n wire ((ts.map Prod.snd).eraseDups) s
  let s := holdAs r .pass (interim r stAdmitted 0 promise { s with nextPass := s.nextPass + 1, passes := s.passes ++ [p] })
  let s := if n == x.roundSent then s else declareDrift x.num (recheckConfig x.num n (formRound x n h s))
  let s := advanceFinal x.num s
  match regionOf x.num s with
  | none => s
  | some y => match heldRec y n y.site with
    | none => s
    | some d =>
      let crc := ((tget? y.lrMu n).map fun c => c.2.2).getD (BitVec.ofNat 32 (leNat ((d.bytes.drop 32).take 4)))
      let s := modPass p.id (fun q => { q with flags := if d.empty && !d.bytes.isEmpty then flagINV else 0 }) s
      if d.bytes.isEmpty then s else ts.foldl (fun s t => sendRecords p.id y t [(d.bytes, crc)] s) s

/-- Admission's promise of a round in nanoseconds after the fetch: POST_SKEW 0, each link at its far rate behind what the sorter
places ahead, 37 bytes of memory a parameter, DELAY_MAX for each far hop and FAR_MARGIN for the fault allowance. -/
def roundEarliest (x : Region) (p : Pass) (ts : List (Nat × Nat)) (bytes : Nat) (all : Bool) (s : State) : Nat :=
  let link := ts.foldl (fun m t =>
    let own := sumNat ((ts.filter fun u => u.2 == t.2).map fun _ => recordWire bytes)
    max m (((aheadBytes p [t.2] all s + own : Nat) : ℚ) / max 1 (palRate t.2 s))) 0
  let mem : ℚ := ((37 * x.params.length : Nat) : ℚ) / (memRate s * memShare s)
  let lat := ts.foldl (fun m t => max m (((sitePal x t.1 s).map fun q => palLatency q t.2 s).getD 0)) 0
  let e := max link mem + lat + 2000 + (if ts.isEmpty then 0 else 250000000)
  let gr := grainOf x.group s
  gr * ⌈e / (gr : ℚ)⌉.toNat

/-- ADMISSION_DECISION of a ROUND_SEND. -/
def decideRound (r : DescRec) (x : Region) (s : State) : State :=
  let h := readRound r.desc.slot s
  let n := r.desc.w2.toNat
  if n != x.roundSent && !atBoundary x s then holdAs { r with aux := 0 } .roundForm s
  else
    let ts := roundTargets x (fieldNat r.desc.w3 0 16) s
    let bytes := if n == x.roundSent then ((heldRec x n x.site).map fun d => d.bytes.length).getD 0
      else recordSize (chunkCount x.params.length) (keptMost x.params.length (rhKeep h))
    let wire := sumNat (ts.map fun _ => recordWire bytes)
    let d := r.desc.w6
    let trial := roundPass r.id r.desc.slot 0 0 d r.fetchedAt d 0 x n wire (ts.map Prod.snd) s
    let cost : ℚ := match ts with | t :: _ => (wire : ℚ) / max 1 (palRate t.2 s) | [] => 0
    let ahead := s.passes.filter fun q => q.admitted && q.links.any (fun l => trial.links.contains l) && d != 0 && precedes trial q
    let tight := ahead.any fun q => decide (((q.promise.toNat - q.eVal : Nat) : ℚ) < cost)
    let e := r.fetchedAt.toNat + roundEarliest x trial ts bytes tight s
    if d != 0 && decide (d.toNat < e) then finish r stDeadline 0x0406 (BitVec.ofNat 64 e) s
    else if 16384 ≤ s.passes.countP (fun q => q.admitted) then refuseCap r 0x0404 s
    else
      let pay (q : Pass) : Pass := if ahead.any (fun a => a.id == q.id) then { q with eVal := q.eVal + ⌈cost⌉.toNat } else q
      grantRound r x h ts wire (if d == 0 then BitVec.ofNat 64 e else d) (BitVec.ofNat 64 e) { s with passes := s.passes.map pay }

/-- The region a ROUND_SEND names. -/
def descRegion (r : DescRec) (s : State) : Option Region :=
  s.regions.find? fun x => x.slot == r.desc.slot.val && x.base == r.desc.w4.toNat && x.length == fieldNat r.desc.w5 0 48

/-- ADMISSION_DECISION (R315): admission decides an EXCHANGE or a ROUND_SEND. -/
def execAdmissionDecision (id : Nat) (s : State) : Out :=
  .next <|
    match descOf id s with
    | none => s
    | some r =>
      if r.hold != .admission then s
      else if r.opcode == 0x04 then
        match descRegion r s with
        | some x => sendMirror (showRounds (decideRound r x s))
        | none => refuse r 0x0502 0 s
      else match s.passes.find? fun p => p.desc == id with
        | some p => settlePasses (decideExchange r p s)
        | none => s

/-! ## What arrives from pen pals (R343, R350, R351, R359) -/

/-- Whether a sender may speak for a pen pal: its PARTNER, or the device the topology image pairs with it. -/
def palSender (p : Pal) (sender : Word) (s : State) : Bool :=
  sender == p.partner || s.flash.topology.any fun t => match deviceOf t sender, deviceOf t p.partner with
    | some a, some b => t.pairs.any fun q => q == (a, b) || q == (b, a)
    | _, _ => false

/-- PAL_MISMATCH on the link that delivered it (R351). -/
def palMismatch (l : Nat) (found expected : Word) (site : Nat) (s : State) : State :=
  raiseFar l 4 (raiseEvent 0x49 [l, found.toNat, expected.toNat, site] s)

/-- A pen pal has been heard of. -/
def hearPal (id : Nat) (s : State) : State := modPal id (fun p => { p with lastState := some (mono s), reachable := true }) s

/-- An item for another device sent on along its route. -/
def passOn (it : Item) (s : State) : State := sendTo it.w5 (mkItem (itemKind it) 0 it.w1 it.w2 it.w3 it.w4 it.w5) s

/-- The sites of a side, given by one of its sites and what that site has declared drifted. -/
def sideOf (x : Region) (drifted : Nat) : List Nat := (List.range x.sites).filter fun j => !drifted.testBit j

/-- Whether another site's side keeps its anchor against ours: more sites, or as many and the lowest (R360). -/
def theyKeep (x : Region) (j drifted : Nat) : Bool :=
  let a := sideOf x x.drifted
  let b := sideOf x drifted
  decide (a.length < b.length) || (a.length == b.length && decide (b.headD j < a.headD x.site))

/-- What a site's ROUND_STATE brings about: on reconnection the states are exchanged and missing rounds pulled; where a side has
declared the other drifted, the side that does not keep its anchor joins. -/
def onState (x : Region) (j : Nat) (fresh : Bool) (y : Nat × Nat × W32 × Nat) (s : State) : State :=
  if x.openId.isSome then tryOpen x.num s
  else if x.joining.isSome then s
  else if x.drifted.testBit j || y.2.2.2.testBit x.site then
    if theyKeep x j y.2.2.2 then sendPull x j 0 y.1 (modRegion x.num (fun z => { z with joining := some j }) s)
    else if fresh then tellState x.num j s else s
  else if fresh then
    let s := tellState x.num j s
    match (roundsFrom (x.roundFinal + 1) (y.1 + 1)).find? fun k => (heldRec x k j).isNone with
    | some k => sendPull x j k y.1 s
    | none => s
  else s

/-- ROUND_STATE_RECEIVE (R356, R359). -/
def execRoundStateReceive (l : Fin 36) (it : Item) (sender : Word) (region : Nat) (s : State) : Out :=
  .next (sendMirror (withItem l it 0x22 (fun s =>
    if it.w5 != s.mod.identity then passOn it s
    else match regionOf region s with
      | none => match s.pals.find? fun p => palSender p sender s with
        | some p => hearPal p.id s
        | none => s
      | some x =>
        let j := fieldNat it.w1 0 3
        match sitePal x j s with
        | none => palMismatch l sender 0 j s
        | some p =>
          if j == x.site || !palSender p sender s then palMismatch l sender p.partner j s
          else
            let y := (it.w2.toNat, it.w3.toNat, (BitVec.ofNat 32 (fieldNat it.w4 32 32) : W32), fieldNat it.w1 3 8)
            let s := modRegion region (fun z => { z with said := tset z.said j y }) (hearPal p.id s)
            match regionOf region s with
            | some x => showRounds (onState x j (!p.reachable) y s)
            | none => s) s))

/-- ROUND_PULL_RECEIVE (R359): the ledger's rounds, then for an anchor pull the region's section, returned as an admitted pass with
DEADLINE 0. -/
def execRoundPullReceive (l : Fin 36) (it : Item) (sender : Word) (s : State) : Out :=
  .next (withItem l it 0x23 (fun s =>
    if it.w5 != s.mod.identity then passOn it s
    else match regionOf (fieldNat it.w3 0 16) s with
      | none => s
      | some x =>
        match (otherSites x).find? fun j => (sitePal x j s).any fun p => palSender p sender s with
        | none => palMismatch l sender (((otherSites x).head?.bind fun j => sitePal x j s).elim 0 fun p => p.partner) 0 s
        | some j => match (sitePal x j s).bind fun p => palLink p s with
          | none => s
          | some k =>
            let lo := if it.w1 == 0 then x.roundFinal + 1 else it.w1.toNat
            let ds := sortBy (fun a b => decide (a.round ≤ b.round))
              (x.ledger.filter fun d => decide (lo ≤ d.round) && decide (d.round ≤ it.w2.toNat) && !d.bytes.isEmpty)
            let rs := (ds.map fun d => (d.bytes, BitVec.ofNat 32 (leNat ((d.bytes.drop 32).take 4)) )) ++
              (if it.w1 == 0 then [(sectionBytes (regionHead x) (regionRaw x), 0)] else [])
            let wire := sumNat (rs.map fun r => recordWire r.1.length)
            let e := (now s).toNat + 250000000
            let p := roundPass s.nextDesc x.slot 0 0 0 (now s) (BitVec.ofNat 64 e) (BitVec.ofNat 64 e) x it.w1.toNat wire [k] s
            if rs.isEmpty || 16384 ≤ s.passes.countP (fun q => q.admitted) then s
            else sendRecords p.id x (j, k) rs { s with nextDesc := s.nextDesc + 1, nextPass := s.nextPass + 1, passes := s.passes ++ [p] }) s)

/-! ## DIFFERENCE_RECEIVE (R330, R343, R351, R361) -/

/-- The fields of a difference record: its size must be what its header says. -/
def recordOk' (x : Region) (bs : List Byte) : Bool :=
  let w (i : Nat) : Word := BitVec.ofNat 64 (wordAt bs i)
  let n := chunkCount x.params.length
  let kept := fieldNat (w 3) 32 32
  let empty := bitOf (w 1) 3
  let bits := sumNat ((List.range n).map fun j => if (bs.getD (64 + j / 8) 0).getLsbD (j % 8) then 1 else 0)
  fieldNat (w 1) 7 57 == 0 && fieldNat (w 2) 48 16 == 0 && fieldNat (w 4) 32 32 == 0 && w 5 == 0 && w 6 == 0 && w 7 == 0
    && fieldNat (w 3) 0 32 == n && (if empty then kept == 0 && bs.length == 64 else bs.length == recordSize n kept && bits == kept)

/-- A record as it is held. -/
def parseDiff (x : Region) (bs : List Byte) : DiffRec :=
  let w1 := BitVec.ofNat 64 (wordAt bs 1)
  let n := chunkCount x.params.length
  let kept := (List.range n).filter fun j => (bs.getD (64 + j / 8) 0).getLsbD (j % 8)
  let qs := (chunks 32 (decodeTensor 0x08 (bs.drop (64 + ceilDiv n 512 * 64)))).map fun q => q.map fun v => BitVec.ofNat 32 (roundArith 0x01 v).1
  { round := wordAt bs 0, site := fieldNat w1 0 3, empty := bitOf w1 3, stale := fieldNat w1 4 3
    chunks := if bitOf w1 3 then [] else List.zip kept qs, bytes := bs }

/-- A difference taken into the ledger once policing has passed it. -/
def takeDiff (l : Nat) (x : Region) (d : DiffRec) (s : State) : State :=
  let pid := x.pals.getD d.site 0
  let norms := ((palOf pid s).map fun p => p.norms).getD []
  let norm := diffNorm d.chunks
  let hold (d : DiffRec) (s : State) : State :=
    let s := modPal pid (fun p => { p with rejected := 0, norms := if d.empty then p.norms else (p.norms ++ [norm]).drop (p.norms.length - 15) }) s
    let s := modRegion x.num (fun y => { y with
      ledger := y.ledger ++ [d], unreachFor := y.unreachFor.filter fun u => u != (d.round, d.site) }) s
    trimLedger x.num (if atBoundary x s then advanceFinal x.num s else s)
  let bad := match tget? x.lrMu d.round with
    | some c => c.2.2 != BitVec.ofNat 32 (leNat ((d.bytes.drop 32).take 4))
    | none => false
  if bad then rejectRound l x d.round d.site (raiseEvent 0x54 [x.num, d.site, d.round, d.round] s)
  else if d.empty then hold d s
  else match judgeNorm norms norm with
    | none => rejectRound l x d.round d.site s
    | some none => hold d s
    | some (some f) => hold { d with chunks := scaleDiff f d.chunks } (raiseEvent 0x45 [pid, norm.toNat, (medianOf norms).toNat] s)

/-- A pulled anchor: a round region's section, whose stream begins with the stream MAGIC; none when it does not decode. -/
def anchorOf (x : Region) (bs : List Byte) : Option (List (W40 × W32)) :=
  let st := bs.drop 64
  if leNat (st.take 4) != 0x4C594B43 then none
  else
    let r := decodeItems 16 none (st.length / 64 + 1) 0 (st.drop 64) {}
    if r.2.2.isSome || r.1.length != 13 * x.params.length then none else some (parseAnchor x.params.length r.1)

/-- DIFFERENCE_RECEIVE (R343): a record meets its region by class and logical base; an anchor meets one that joins. -/
def execDifferenceReceive (l : Fin 36) (sender : Word) (group : BitVec 16) (record : List Byte) (s : State) : Out :=
  .next <| sendMirror <| showRounds <|
    if (linkOf l s).state != 3 then s
    else
      let site := wordAt record 1 % 8
      let baseOf (x : Region) : Option Nat := (bindingOf x.binding s).map fun b => b.lbase + x.firstParam
      let joined := s.regions.findSome? fun x => if x.group == group.toNat then
          x.joining.bind fun j => (sitePal x j s).bind fun p => if palSender p sender s then (anchorOf x record).map fun a => (x, j, a) else none
        else none
      match joined with
      | some (x, j, a) =>
        let t := joinRegion x j a s
        match regionOf x.num t with
        | some y => endOpen y 0 t
        | none => t
      | none =>
        match s.regions.find? fun x => x.group == group.toNat && baseOf x == some (wordAt record 2 % 2 ^ 48) with
        | none => s
        | some x =>
          match sitePal x site s with
          | none => palMismatch l sender 0 site s
          | some p =>
            let pulled := x.joining.isSome
            if !pulled && (site == x.site || !palSender p sender s) then palMismatch l sender p.partner site s
            else if !recordOk' x record || decide (x.sites ≤ site) then formFailure l s
            else
              let d := parseDiff x record
              if d.round ≤ x.roundFinal && !pulled then s
              else if (heldRec x d.round d.site).any fun y => !y.bytes.isEmpty then s
              else if x.drifted.testBit site && (heldRec x d.round d.site).isSome && !pulled then s
              else takeDiff l x d s

/-! ## Boundaries and times -/

/-- ROUND_MERGE (R344, R345, R361): at a step boundary, a correction first, then the rounds that may be merged. -/
def execRoundMerge (region : Nat) (s : State) : Out :=
  .next <| sendMirror <| showRounds <|
    match regionOf region s with
    | none => s
    | some x =>
      if !atBoundary x s || x.openId.isSome then s
      else
        let s := advanceFinal region s
        advanceFinal region (mergeAll region (x.roundSent - x.roundMerged) s)

/-- Since when a STEP_OPEN of a group is held for its rounds. -/
def roundHoldSince (g : Nat) (s : State) : Option Word :=
  (s.descs.find? fun r => r.hold == .stepOpen && r.group == some g && r.aux == 0x10).map fun r => r.since

/-- ROUND_WAIT_TIMEOUT (R339): a reachable site's differences have not come within ROUND_WAIT_S of the hold, and it counts as
unreachable for those rounds. -/
def execRoundWaitTimeout (region : Nat) (site : Fin 8) (s : State) : Out :=
  .next <|
    match regionOf region s with
    | none => s
    | some x =>
      match roundHoldSince x.group s with
      | none => s
      | some t =>
        let stale := ((x.pals.filterMap fun p => (palOf p s).map fun q => q.staleness).min?).getD 0
        let ks := (roundsFrom (x.roundMerged + 1) (x.roundSent - stale + 1)).filter fun k => (heldRec x k site).isNone
        if site.val == x.site || !siteReach x site s || decide (nsSince t (mono s) < 1000000000 * x.roundWaitS) then s
        else modRegion region (fun y => { y with unreachFor := y.unreachFor ++ ((ks.map fun k => (k, site.val)).filter fun u => !y.unreachFor.contains u) }) s

/-- PAL_UNREACHABLE_TIMEOUT (R356): no ROUND_STATE of a pen pal for 1 s. -/
def execPalUnreachableTimeout (pal : BitVec 16) (s : State) : Out :=
  .next <| showRounds <|
    match palOf pal.toNat s with
    | none => s
    | some p =>
      if p.reachable && (match p.lastState with | some t => decide (1000000000 ≤ nsSince t (mono s)) | none => true) then
        let s := modPal p.id (fun q => { q with reachable := false }) s
        (s.regions.map fun x => x.num).foldl (fun s n => tryOpen n s) s
      else s

/-! ## EXCHANGE_FINAL (R311, R338) -/

/-- The end of a pass that carries records: the rounds are acknowledged by the sites it went to; one that answers a pull writes no
completion. -/
def finishRound (p : Pass) (s : State) : State :=
  let late := decide (p.promise.toNat < (now s).toNat)
  let o := finalStatus p
  let s := if late then noteLate p s else s
  let s := cardPass p late (dropPass p s)
  match descOf p.desc s with
  | none => s
  | some r =>
    let pal := fieldNat r.desc.w3 0 16
    let got (x : Region) : List (Nat × Nat) :=
      ((otherSites x).filter fun j => (pal == 0xFFFF || x.pals.getD j 0 == pal) && siteReach x j s).map fun j => (p.ordinal, j)
    let s := modRegion p.root (fun x => { x with acked := x.acked.filter (fun a => decide (x.roundFinal < a.1 + 255)) ++ got x }) s
    finish r o.1 (o.2.1 ||| (if late then 0x8000 else 0)) o.2.2 s

/-- EXCHANGE_FINAL (R311): an admitted pass reaches its final status. -/
def execExchangeFinal (id : Nat) (s : State) : Out :=
  .next <|
    match s.passes.find? fun p => p.desc == id && p.admitted with
    | none => s
    | some p =>
      if p.round.isSome then (if p.outstanding.isEmpty then finishRound p s else s) else finishExchange p s

end Sys2Proof.Machine
end

