-- ==== Sys2Proof/Machine/Stacks.lean ====
section
/-!
DEFINITION. Machine/Stacks.lean: channels out of service, moves of slots, retraining, stack temperature, uncorrectable data and
its rebuild, and the sweep instructions (R156, R247 to R268, R362, R437, R446, R455).
-/

namespace Sys2Proof.Machine

/-! ## The channel map and free positions (R250, R251, R262) -/

/-- The map in force, the canonical one before stage 3 has made any. -/
def fullMap (s : State) : List MapEntry := if s.memory.map.isEmpty then canonicalMap else s.memory.map

/-- The entry that a restart finds in flash: a move not finished never happened (R266). -/
def settledEntry (e : MapEntry) : MapEntry :=
  let home := e.channel == e.homeChannel && e.position == e.homePosition
  { e with state := if e.state == 1 then (if home then 0 else 2) else e.state, mark := 0, targetChannel := 0, targetPosition := 0 }

/-- An entry of the map changed; flash keeps the result of every change (R251). -/
def setMap (slot : Nat) (f : MapEntry → MapEntry) (s : State) : State :=
  let m := fullMap s
  let m := match m[slot]? with
    | some e => setAt m slot (f e)
    | none => m
  modFlash (fun x => { x with map := m.map settledEntry }) (modMemory (fun x => { x with map := m }) s)

/-- The places in use or spoken for at a channel: where slots lie, where moving ones go, where parked ones will return, and old
places that some copy of the map still names (R262, R264). -/
def placesAt (ch : Nat) (s : State) : List Nat :=
  let m := fullMap s
  ((m.filter fun e => e.channel == ch).map (fun e => e.position)
    ++ (m.filter fun e => e.state == 1 && e.targetChannel == ch).map (fun e => e.targetPosition)
    ++ (m.filter fun e => e.state != 0 && e.homeChannel == ch).map (fun e => e.homePosition)
    ++ (s.memory.acks.filter fun a => a.2.1 == ch).map fun a => a.2.2).eraseDups

/-- Whether a channel may take slots: in service, in a stack that is powered, below draining, and neither retraining nor
parked. -/
def channelServes (ch : Nat) (s : State) : Bool :=
  let k := vget s.memory.stk (ch / 16) {}
  !(memChanOf ch s).out && k.powered && decide (k.level < 4) && k.retraining == 0 && !k.parkedPolicy

/-- The channels that may take slots leaving a channel, with the places in use at each. -/
def takers (ch : Nat) (s : State) : List (Nat × List Nat) :=
  ((List.range 384).filter fun c => c / 16 != ch / 16 && channelServes c s).map fun c => (c, placesAt c s)

/-- The channel and position for a slot leaving a channel: the fewest slots, the same die, the lowest channel; the lowest free
position there (R262). -/
def destinationFor (ch : Nat) (s : State) : Option (Nat × Nat) :=
  let key (x : Nat × List Nat) : Nat := x.2.length * 1000 + (if x.1 / 96 == ch / 96 then 0 else 500) + x.1
  match (takers ch s).filter fun x => decide (x.2.length < 12) with
  | [] => none
  | x :: r =>
    let b := r.foldl (fun b y => if key y < key b then y else b) x
    ((List.range 12).find? fun p => !b.2.contains p).map fun p => (b.1, p)

/-- The spare positions for slots of a stack (R265). -/
def sparesFor (m : Nat) (s : State) : Nat := sumNat ((takers (16 * m) s).map fun x => 12 - x.2.length)

/-! ## Starting moves (R261 to R266) -/

/-- Event and flag of a channel that left service (R261). -/
def channelOutEvent (ch cause : Nat) (s : State) : State := raiseDev 7 (raiseEvent 0x31 [ch, cause, installedGib s, 0] s)

/-- The cause row of Table 10-4 with which a move of a kind reports a refusal. -/
def causeOfKind (kind : Nat) : Nat := match kind with | 1 => 5 | 2 => 6 | 3 => 7 | _ => 0

/-- A slot's move begun: its target chosen as it starts, or, with no channel holding fewer than 12 slots, refused (R262); a slot
on its way home goes home. -/
def beginMove (slot kind : Nat) (s : State) : State :=
  let e := mapEntry slot s
  let d := if kind == 4 then some (e.homeChannel, e.homePosition) else destinationFor e.channel s
  match d with
  | some (c, p) => setMap slot (fun e => { e with state := 1, mark := 0, targetChannel := c, targetPosition := p }) s
  | none =>
    let s := modMemory (fun m => { m with moving := m.moving.filter fun x => x.1 != slot }) s
    raiseDev 8 (raiseEvent 0x32 [e.channel, causeOfKind kind, installedGib s, slot] s)

/-- Moves that may start: the first waiting slot of each channel none of whose slots is being copied (R264). -/
def startMoves (s : State) : State :=
  s.memory.moving.foldl (fun s x =>
    let e := mapEntry x.1 s
    let busy := s.memory.moving.any fun y => (mapEntry y.1 s).channel == e.channel && (mapEntry y.1 s).state == 1
    if busy || !s.memory.moving.contains x then s else beginMove x.1 x.2 s) s

/-- The slots now at a channel, ascending. -/
def slotsAt (ch : Nat) (s : State) : List Nat :=
  ((fullMap s).zipIdx.filter fun e => e.1.channel == ch).map Prod.snd

/-- The parked slots whose home is a channel, ascending. -/
def parkedFrom (ch : Nat) (s : State) : List Nat :=
  ((fullMap s).zipIdx.filter fun e => e.1.homeChannel == ch && e.1.channel != ch && e.1.state != 0).map Prod.snd

/-- Slots put in the queue of moves; one already there takes the new kind. -/
def queueMoves (kind : Nat) (slots : List Nat) (s : State) : State :=
  let old := mapIf (fun x => slots.contains x.1) (fun x => (x.1, kind)) s.memory.moving
  let new := (slots.filter fun i => !(s.memory.moving.any fun x => x.1 == i)).map fun i => (i, kind)
  modMemory (fun m => { m with moving := old ++ new }) s

/-- Slots parked away from a channel that will not take them back stay where they are for good (R266). -/
def keepParked (ch : Nat) (s : State) : State :=
  (parkedFrom ch s).foldl (fun s i =>
    let s := modMemory (fun m => { m with moving := m.moving.filter fun x => !(x.1 == i && x.2 == 4) }) s
    setMap i (fun e =>
      if e.state == 1 && e.targetChannel == ch then
        { e with state := 0, mark := 0, homeChannel := e.channel, homePosition := e.position, targetChannel := 0, targetPosition := 0 }
      else if e.state == 2 then { e with state := 0, homeChannel := e.channel, homePosition := e.position } else e) s) s

/-- Moves to a channel cancelled: each slot waits to choose again (R266). -/
def cancelTo (ch : Nat) (s : State) : State :=
  s.memory.moving.foldl (fun s x =>
    let e := mapEntry x.1 s
    if e.state == 1 && e.targetChannel == ch then setMap x.1 settledEntry s else s) s

/-- A channel leaves service for good: parked slots of it stay away, moves to it choose again, its slots move (R261). -/
def leaveChannel (ch kind : Nat) (s : State) : State := queueMoves kind (slotsAt ch s) (cancelTo ch (keepParked ch s))

/-- A channel marked out of service, in the defect map too (R251, R261). -/
def markOut (ch : Nat) (s : State) : State :=
  modFlash (fun f =>
    let below := f.channelOut.filter fun c => decide (c < ch)
    let above := f.channelOut.filter fun c => decide (ch < c)
    { f with channelOut := below ++ [ch] ++ above })
    (modMemChan ch (fun c => { c with out := true }) s)

/-- Times within a span of device time. -/
def within (ns : Nat) (ts : List Word) (s : State) : List Word := ts.filter fun t => decide (nsSince t (now s) ≤ ns)

/-- Nanoseconds of 24 hours and of one hour. -/
def dayNs : Nat := 86400000000000
def hourNs : Nat := 3600000000000

/-- The spare repair lines of a channel's reserve (R258). -/
def spareLines (v : Variant) : Nat := match v with | .F => 32752 | .E => 24560 | .S => 16368

/-- Whether a cause of Table 10-4, by its row from 0, holds for a channel. -/
def causeHolds (ch cause : Nat) (s : State) : Bool :=
  let c := memChanOf ch s
  match cause with
  | 0 => decide (spareLines s.flash.variant ≤ c.sparesUsed)
  | 1 => decide (3 ≤ (within dayNs c.uncorrectable s).length)
  | 2 => decide (1024 < ((c.corrections.filter fun x => decide (nsSince x.2 (now s) ≤ hourNs)).map Prod.fst).eraseDups.length)
  | 3 => decide (2 ≤ c.trainFails)
  | 4 => decide (4096 ≤ c.poison.length)
  | 5 => decide (100 ≤ (vget s.memory.stk (ch / 16) {}).temp.toNat)
  | _ => false

/-- CHANNEL_MAP_OUT (R261): a cause holds for a channel in service, and its slots start to leave. -/
def execChannelMapOut (ch : Fin 384) (cause : Fin 8) (s : State) : Out :=
  .next <|
    if !(memChanOf ch s).out && causeHolds ch cause s then
      startMoves (leaveChannel ch 0 (channelOutEvent ch cause (markOut ch s)))
    else s

/-! ## Retraining (R265) and parking -/

/-- The slots parked away from a stack. -/
def parkedOf (m : Nat) (s : State) : List Nat := (List.range 16).flatMap fun k => parkedFrom (16 * m + k) s

/-- The slots now in a stack's channels. -/
def slotsOf (m : Nat) (s : State) : List Nat := (List.range 16).flatMap fun k => slotsAt (16 * m + k) s

/-- The channels that a phase of retraining covers. -/
def retrainChans (m r : Nat) : List Nat := if r < 16 then (List.range 16).map (16 * m + ·) else [16 * m + (r - 16) / 4]

/-- A phase of retraining on channels `cs`: parking begins, or training at once where nothing has to move. -/
def startPark (m base : Nat) (cs : List Nat) (s : State) : State :=
  let slots := cs.flatMap fun c => slotsAt c s
  startMoves (queueMoves 2 slots (modStack m (fun k => { k with retraining := base + if slots.isEmpty then 2 else 1 }) s))

/-- A stack's retraining starts: the whole stack when enough spare positions are free, else channel by channel. -/
def startRetrain (m : Nat) (s : State) : State :=
  if (slotsOf m s).length ≤ sparesFor m s then startPark m 0 (retrainChans m 0) s
  else startPark m 16 (retrainChans m 16) s

/-- The end of a retraining: of the stack, or of one channel and then the next. -/
def nextRetrain (m r : Nat) (s : State) : State :=
  if r < 16 || 15 ≤ (r - 16) / 4 then modStack m (fun k => { k with retraining := 0, parkedPolicy := false, parkedAt := none }) s
  else startPark m (20 + (r - 16) / 4 * 4) (retrainChans m (20 + (r - 16) / 4 * 4)) s

/-- A phase that has no slot left to move passes to the next: parked to training, returned to the end. -/
def settleRetrain (m : Nat) (s : State) : State :=
  let r := (vget s.memory.stk m {}).retraining
  let cs := retrainChans m r
  let left (kind : Nat) : Bool := s.memory.moving.any fun x => x.2 == kind
    && (cs.contains (mapEntry x.1 s).channel || cs.contains (mapEntry x.1 s).homeChannel)
  if r % 4 == 1 && !left 2 then modStack m (fun k => { k with retraining := k.retraining + 1 }) s
  else if r % 4 == 3 && !left 4 then nextRetrain m r s
  else s

/-- A draining stack whose last slot has left is mapped out, channel by channel (R267). -/
def settleDrain (m : Nat) (s : State) : State :=
  if (vget s.memory.stk m {}).level == 4 && (slotsOf m s).isEmpty then
    let s := modStack m (fun k => { k with level := 5 }) s
    (List.range 16).foldl (fun s k =>
      let ch := 16 * m + k
      if (memChanOf ch s).out then s else channelOutEvent ch 5 (markOut ch s)) s
  else s

/-- What may follow the end of a move: the next slot of the channel, the next phase of a retraining, the end of a drain. -/
def settleStacks (s : State) : State := (List.range 24).foldl (fun s m => settleDrain m (settleRetrain m s)) (startMoves s)

/-- SLOT_MOVE_DONE (R263): the last row is copied; the entry names the target, for good or until the slot goes home, and the old
place waits for every copy of the map (R264). -/
def execSlotMoveDone (slot : Fin 4096) (s : State) : Out :=
  .next <|
    let e := mapEntry slot s
    match s.memory.moving.find? fun x => x.1 == slot.val with
    | none => s
    | some x =>
      if e.state != 1 then s
      else
        let parks := x.2 == 2 || x.2 == 3
        let s := modMemory (fun m => { m with moving := m.moving.filter (fun y => y.1 != slot.val)
                                              acks := m.acks ++ [(slot.val, e.channel, e.position)] }) s
        settleStacks (setMap slot (fun e => { e with
          channel := e.targetChannel, position := e.targetPosition, mark := 0, targetChannel := 0, targetPosition := 0
          state := if parks then 2 else 0
          homeChannel := if parks then e.homeChannel else e.targetChannel
          homePosition := if parks then e.homePosition else e.targetPosition }) s)

/-- MAP_CHANGE_ACKED (R264): every copy of the map has a slot's change, and its old position is free. -/
def execMapChangeAcked (slot : Fin 4096) (s : State) : Out :=
  .next (modMemory (fun m => { m with acks := m.acks.filter fun a => a.1 != slot.val }) s)

/-- Whether some stack retrains. -/
def anyRetrain (s : State) : Bool := s.memory.stk.toList.any fun k => k.retraining != 0

/-- STACK_RETRAIN_PARK (R265): a stack has been more than 10 °C from its training temperature for 10 s. -/
def execStackRetrainPark (m : Fin 24) (s : State) : Out :=
  .next <|
    let k := vget s.memory.stk m {}
    match k.driftSince with
    | some t => if decide (10000000000 ≤ nsSince t (now s)) && decide (k.level < 4) && !anyRetrain s then startRetrain m s else s
    | none => s

/-- STACK_RETRAIN_DONE (R265): the channels are trained, their temperature recorded, and their slots return home. -/
def execStackRetrainDone (m : Fin 24) (s : State) : Out :=
  .next <|
    let k := vget s.memory.stk m {}
    if k.retraining % 4 != 2 then s
    else
      let cs := retrainChans m k.retraining
      let s := cs.foldl (fun s c => modMemChan c (fun x => { x with trainFails := 0 })
        (modFlash (fun f => { f with trainTemp := tset f.trainTemp c k.temp.toNat }) s)) s
      let back := cs.flatMap fun c => (parkedFrom c s).filter fun i => (mapEntry i s).state == 2
      let s := modStack m (fun k => { k with retraining := k.retraining + 1, driftSince := none }) s
      settleStacks (queueMoves 4 back s)

/-- MEM_CTRL_RETRAIN (R455): ignored while a stack retrains or a slot moves. -/
def execMemCtrlRetrain (p : Port) (m : Fin 32) (s : State) : Out :=
  .next <| regAccess p (fun s =>
    if decide (m.val < 24) && !anyRetrain s && s.memory.moving.isEmpty && decide ((vget s.memory.stk m {}).level < 4) then startRetrain m s
    else s) s

/-- PARK_RETURN (R437): a stack parked by policy has been at or below 80 °C for 60 s. -/
def execParkReturn (m : Fin 24) (s : State) : Out :=
  .next <|
    let k := vget s.memory.stk m {}
    match k.parkedAt with
    | none => s
    | some t =>
      if k.parkedPolicy && decide (60000000000 ≤ nsSince t (now s)) && k.retraining == 0 && decide (k.level < 4) then
        let ok := policyAllows 5 0xFFFF s
        let s := logDecision 5 ok 0xFFFF m 1 0 0 k.temp.toNat s
        if !ok then s
        else
          let back := (parkedOf m s).filter fun i => (mapEntry i s).state == 2
          let staying := s.memory.moving.filter fun x => x.2 == 3 && (mapEntry x.1 s).homeChannel / 16 == m.val
          let s := staying.foldl (fun s x => setMap x.1 settledEntry
            (modMemory (fun y => { y with moving := y.moving.filter fun z => z.1 != x.1 }) s)) s
          settleStacks (queueMoves 4 back (modStack m (fun k => { k with parkedPolicy := false, parkedAt := none }) s))
      else s

/-! ## Uncorrectable data and its rebuild (R257 to R260, Table 10-3) -/

/-- MEM_UNCORRECTABLE (R259): an uncorrectable burst of a 64-byte block; its consumers wait until it is rebuilt. -/
def execMemUncorrectable (fastAddr : Nat) (s : State) : Out :=
  .next <|
    let ch := channelOfFast fastAddr s
    if fastAddr < frameCapacity s.flash.variant * pageBytes && decide (3 ≤ s.mod.stage.toNat) && decide (s.mod.stage.toNat ≤ 7) then
      let b := fastAddr / 64 * 64
      let s := modMemChan ch (fun c => { c with uncorrectable := within dayNs c.uncorrectable s ++ [now s] }) s
      let s := modStack (ch / 16) (fun k => { k with uncorrectable := k.uncorrectable + 1 }) s
      let s := modMemory (fun m => { m with pendingErr := if m.pendingErr.contains b then m.pendingErr else m.pendingErr ++ [b] }) s
      raiseDev 6 (raiseEvent 0x30 [ch, channelAddress fastAddr s, fastAddr] s)
    else s

/-- REPAIR_LINE_REPLACE (R258): a repair line with two lane corrections within 24 hours has its spare line. The corrections that
caused it are logged with it (notes/assumptions/31.md). -/
def execRepairLineReplace (ch : Fin 384) (line : Nat) (s : State) : Out :=
  .next <|
    let c := memChanOf ch s
    if !c.out && decide (c.sparesUsed < spareLines s.flash.variant) && decide (line < channelGib s.flash.variant * 524288) then
      modStack (ch.val / 16) (fun k => { k with laneCorrected := k.laneCorrected + 2 })
        (modMemChan ch (fun c => { c with
          sparesUsed := c.sparesUsed + 1
          corrections := (c.corrections.filter fun x => decide (nsSince x.2 (now s) ≤ dayNs)) ++ [(line, now s), (line, now s)] }) s)
    else s

/-- The channel slot and device address at which a fast address is mapped. -/
def mappedAt (fa : Nat) (s : State) : Option (Nat × Nat) :=
  (liveChans s).findSome? fun x => (x.2.pages.find? fun p => match p.2.kind with
    | .fast f => f == fa / pageBytes
    | _ => false).map fun p => (x.1, p.1 * pageBytes + fa % pageBytes)

/-- Whether a block of a channel's space can be rebuilt: a working copy by publication, or what a descriptor of the open step
wrote by its rerun (Table 10-3). -/
def pageRebuilt (slot va : Nat) (s : State) : Bool :=
  (s.nmu.bindings.any fun b => b.slot == slot && decide (b.base ≤ va) && decide (va < b.base + tensorBytes b.fmt b.count))
  || s.groups.any fun g => g.open'.isSome && g.stepOuts.any fun r => r.1 == slot && decide (r.2.1 ≤ va) && decide (va + 64 ≤ r.2.1 + r.2.2)

/-- The open steps of the groups that a channel's descriptors have named will be rolled back. -/
def failSteps (gs : List Nat) (s : State) : State :=
  { s with groups := mapIf (fun g => g.open'.isSome && gs.contains g.id) (fun g => { g with faulted := true }) s.groups }

/-- A block entered in its channel's poison list (R260). -/
def poisonBlock (b : Nat) (s : State) : State :=
  modMemChan (channelOfFast b s) (fun c => { c with poison := if c.poison.contains b then c.poison else c.poison ++ [b] }) s

/-- The block of a lost record takes undefined bytes. -/
def spoilRecord (b : Binding) (i off : Nat) (s : State) : State :=
  let put (at' : Nat) (bs : List Byte) : List Byte := bs.take at' ++ (freeBytes 64 s).take (bs.length - at') ++ bs.drop (at' + 64)
  let n := stripeSize b.rule
  let s := if off < n then putStripe b i (parseStripe b.rule (put off (stripeBytes b.rule (getStripe b i s)))) s
    else putBlock b (i / 16) (parseBlock b.rule (put (off - n) (blockBytes b.rule (getBlock b (i / 16) s)))) s
  drawFree 64 s

/-- A record's block that no deskmate mirrors is lost: STATE_LOST with its segment, and the open step rolls back. -/
def loseRecord (b : Binding) (i off : Nat) (s : State) : State :=
  failSteps [b.group] (raiseDev 13 (raiseEvent 0x37 [b.num, i / 64] (spoilRecord b i off s)))

/-- A block's fate (Table 10-3): unchanged where it can be rebuilt, else lost or poisoned. -/
def rebuildBlock (b : Nat) (s : State) : State :=
  match mappedAt b s with
  | some (slot, va) =>
    if pageRebuilt slot va s then s
    else failSteps ((s.groups.filter fun g => groupChan g slot s).map fun g => g.id) (poisonBlock b s)
  | none =>
    match recordAt b s with
    | some (x, i, off) => if mirroring s then s else loseRecord x i off s
    | none => if s.memory.framesUsed.contains (b / pageBytes) then poisonBlock b s else s

/-- Whether a core has in flight a read of memory that touches a block. -/
def coreReads (c b : Nat) (s : State) : Bool :=
  let meets (va n : Nat) : Bool := (pieces (coreSlot c s) va n s).any fun x =>
    x.1 == 0 && decide (b < x.2.1 + x.2.2) && decide (x.2.1 < b + 64)
  (coreOf c s).dmas.any (fun o => !o.toMem && meets o.mem o.len)
    || (coreOf c s).narrows.any fun o => o.func != 1 && o.items.any fun x => meets x.1 itemSize

/-- The runs held at a block are replayed, or stop where it is poisoned (R259, R260). -/
def replayReaders (b : Nat) (s : State) : State :=
  let hit := s.runs.filter fun u => u.begun && u.cores.any fun c => coreReads c b s
  let bad := s.memory.chans.any fun c => c.2.poison.contains b
  hit.foldl (fun s u =>
    if bad then
      let va := ((mappedAt b s).map Prod.snd).getD b
      stopRun u.id stMalformed 0x0104 (BitVec.ofNat 64 va) (u.cores.foldl (fun s c => dropWork c s) s)
    else rerunRun u s) s

/-- DATA_REBUILD_DONE (R259): the data of a block is rebuilt or given up, and the work held at it goes on. -/
def execDataRebuildDone (fastAddr : Nat) (s : State) : Out :=
  .next <| sendMirror <|
    let b := fastAddr / 64 * 64
    if s.memory.pendingErr.contains b then
      replayReaders b (rebuildBlock b (modMemory (fun m => { m with pendingErr := m.pendingErr.filter fun x => x != b }) s))
    else s

/-! ## A stack lost (R267, R362, Table 14-6) -/

/-- The 64-byte blocks of a granule. -/
def granuleBlocks (fa : Nat) : List Nat := (List.range 4).map fun i => fa + 64 * i

/-- The granules of a frame that lie in lost places: `lost` says which slot is lost and below which row it was copied. -/
def lostGranules (lost : List (Nat × Nat)) (frame : Nat) : List Nat :=
  ((List.range 8192).map fun i => frame * pageBytes + 256 * i).filter fun fa =>
    lost.any fun x => x.1 == slotOfFast fa && decide (x.2 ≤ fa / 1048576)

/-- The bindings' stripes whose columns lie in lost slots. -/
def lostStripes (lost : List (Nat × Nat)) (s : State) : List (Binding × Nat) :=
  s.nmu.bindings.flatMap fun b => if hyTier b.hyper != 0 then []
    else ((List.range (stripeCount b)).filter fun i =>
      let e := bdOf (dirOf b i) s
      lost.any fun x => x.1 == (e.slotBase + 67 * (i % 64)) % 4096 && decide (x.2 ≤ e.band * 2048 + 2047)).map fun i => (b, i)

/-- The data of lost slots rebuilt or given up: pages block by block, records segment by segment. -/
def rebuildLost (lost : List (Nat × Nat)) (s : State) : State :=
  let s := s.memory.framesUsed.foldl (fun s f => (lostGranules lost f).foldl (fun s fa =>
    (granuleBlocks fa).foldl (fun s b => rebuildBlock b s) s) s) s
  if mirroring s then s
  else (lostStripes lost s).foldl (fun s x => loseRecord x.1 x.2 0 s) s

/-- A lost slot placed at once: a copy under way ends at its target, any other slot goes where R262 sends it. -/
def placeLost (slot : Nat) (s : State) : State :=
  let e := mapEntry slot s
  let d := if e.state == 1 && e.targetChannel / 16 != e.channel / 16 then some (e.targetChannel, e.targetPosition)
    else destinationFor e.channel s
  let s := modMemory (fun m => { m with moving := m.moving.filter fun x => x.1 != slot }) s
  match d with
  | some (c, p) => setMap slot (fun e => { e with
      channel := c, position := p, state := 0, homeChannel := c, homePosition := p, mark := 0, targetChannel := 0, targetPosition := 0 }) s
  | none => raiseDev 8 (raiseEvent 0x32 [e.channel, 5, installedGib s, slot] s)

/-- A stack that holds nothing any more: mapped out, its slots placed elsewhere, its data rebuilt, the work on it redone. -/
def loseStack (m : Fin 24) (level : Nat) (s : State) : State :=
  let chs := (List.range 16).map fun k => 16 * m.val + k
  let slots := slotsOf m s
  let lost := slots.map fun i => (i, if (mapEntry i s).state == 1 then (mapEntry i s).mark else 0)
  let s := chs.foldl (fun s c => cancelTo c (keepParked c s)) s
  let s := modStack m (fun k => { k with level := level, powered := false, retraining := 0, driftSince := none, parkedPolicy := false
                                         parkedAt := none }) s
  let s := chs.foldl (fun s c => if (memChanOf c s).out then s else channelOutEvent c 5 (markOut c s)) s
  let s := slots.foldl (fun s i => placeLost i s) s
  let s := rebuildLost lost s
  let hit := s.runs.filter fun u => u.begun && u.stop.isNone && u.cores.any fun c => !(coreIdle (coreOf c s))
  startMoves (hit.foldl (fun s u => rerunRun u s) (modSeq (.mem m) (fun q => { q with running := false }) s))

/-- MEMORY_SIDE_DIE_LOST (R362): the die is fenced and its stack lost. -/
def execMemorySideDieLost (m : Fin 24) (s : State) : Out :=
  .next (if (vget s.memory.stk m {}).powered then sendMirror (loseStack m 5 s) else s)

/-! ## Temperature (R267) and thermal parking (R437) -/

/-- The thresholds of Table 10-7 below draining: STACK_STATUS.LEVEL and degrees. -/
def throttleLevels : List (Nat × Nat) := [(1, 88), (2, 92), (3, 96)]

/-- The throttle level at a temperature from the level before: a level lasts until 3 °C below its threshold. -/
def throttleAt (old t : Nat) : Nat :=
  throttleLevels.foldl (fun n x => if x.2 ≤ t || (x.1 ≤ old && x.2 < t + 3) then x.1 else n) 0

/-- The flag bit, event code and channel limit of a level that begins. -/
def levelEvent (level : Nat) : Nat × Nat × Nat :=
  match level with
  | 1 => (9, 0x33, 100)
  | 2 => (10, 0x34, 75)
  | 3 => (10, 0x34, 50)
  | 4 => (11, 0x35, 25)
  | _ => (12, 0x36, 0)

/-- The levels above `a` up to `b` begin, one after another. -/
def raiseLevels (m t a b : Nat) (s : State) : State :=
  ([1, 2, 3, 4, 6].filter fun l => decide (a < l) && decide (l ≤ b)).foldl (fun s l =>
    raiseDev (levelEvent l).1 (raiseEvent (levelEvent l).2.1 [m, t, (levelEvent l).2.2] s)) s

/-- The Policy Engine parks a stack that has grown warm while fewer than PARK_MAX stacks are parked. -/
def parkStack (m t : Nat) (s : State) : State :=
  let parked := s.memory.stk.toList.countP fun k => k.parkedPolicy
  if parked < s.card.parkMax && !(vget s.memory.stk m {}).parkedPolicy then
    let ok := policyAllows 5 0xFFFF s
    let s := logDecision 5 ok 0xFFFF m 0 1 0x33 t s
    if ok then startMoves (queueMoves 3 (slotsOf m s) (modStack m (fun k => { k with parkedPolicy := true }) s)) else s
  else s

/-- A stack at 100 °C: its slots leave for good, parked slots stay away, moves to it choose again. -/
def drainStack (m : Nat) (s : State) : State :=
  let s := modStack m (fun k => { k with level := 4, retraining := 0, driftSince := none, parkedPolicy := false, parkedAt := none }) s
  settleStacks ((List.range 16).foldl (fun s k => leaveChannel (16 * m + k) 1 s) s)

/-- What a sample notes of a stack: its temperature, since when it has drifted, since when it has been cool while parked. -/
def noteTemp (m t : Nat) (s : State) : State :=
  let drift := (List.range 16).any fun k => !(memChanOf (16 * m + k) s).out && match tget? s.flash.trainTemp (16 * m + k) with
    | some x => decide (x + 10 < t) || decide (t + 10 < x)
    | none => false
  modStack m (fun k => { k with
    temp := BitVec.ofNat 8 t
    driftSince := if drift then some (k.driftSince.getD (now s)) else none
    parkedAt := if k.parkedPolicy && decide (t ≤ 80) then some (k.parkedAt.getD (now s)) else none }) s

/-- STACK_TEMP_SAMPLE (R267): the hottest reading of a stack, and what Table 10-7 does at it. -/
def execStackTempSample (m : Fin 24) (celsius : BitVec 8) (s : State) : Out :=
  .next <|
    let t := celsius.toNat
    let k := vget s.memory.stk m {}
    if !k.powered then s
    else
      let s := noteTemp m t s
      if 105 ≤ t then sendMirror (loseStack m 6 (raiseLevels m t k.level 6 s))
      else if 4 ≤ k.level then s
      else if 100 ≤ t then drainStack m (raiseLevels m t k.level 4 s)
      else
        let l := throttleAt k.level t
        let s := raiseLevels m t k.level l (modStack m (fun k => { k with level := l }) s)
        if k.level == 0 && decide (1 ≤ l) then parkStack m t s else s

/-! ## Sweep lessons (R156, R258) -/

/-- A SWEEP instruction with its token: a die's unit holds four operations (R137). -/
def sweepInstr (m : Fin 24) (w : Word) (func : Nat) (effect : Nat → Nat → Nat → State → State) (s : State) : Out :=
  instr (.mem m) w 0x3C func (fun s =>
    withTok (.mem m) (fld w 26 5) (fun _ s =>
      let q := seqOf (.mem m) s
      let a := (sreg q (fld w 12 5)).toNat
      let b := (sreg q (fld w 17 5)).toNat
      if 4 ≤ q.ops.length then holdIssue (.mem m) 0x01 s
      else beginPlaceOp (.mem m) func a b (fld w 22 4) (fld w 26 5) (effect a b (fld w 22 4) s)) s) s

/-- SCRUB (R156, R258): rows are read, and rewritten where they were corrected; what memory holds is unchanged. -/
def execScrub (m : Fin 24) (w : Word) (s : State) : Out := sweepInstr m w 0x00 (fun _ _ _ s => s) s

/-- The slot of a channel that is being copied. -/
def copyingSlot (ch : Nat) (s : State) : Option Nat :=
  (s.memory.moving.find? fun x => (mapEntry x.1 s).channel == ch && (mapEntry x.1 s).state == 1).map Prod.fst

/-- MOVE (R156, R263): the slot that leaves the channel has rows copied, from its MARK on. -/
def execMove (m : Fin 24) (w : Word) (s : State) : Out :=
  sweepInstr m w 0x01 (fun a b k s =>
    match copyingSlot (16 * m.val + k) s with
    | none => s
    | some i => setMap i (fun e => if decide (a ≤ e.mark) && decide (e.mark < a + b) then
        { e with mark := min (rowsPerSlot s.flash.variant) (a + b) } else e) s) s

/-- EXPORT (R156, R372): records are appended to the export stream; EXPORT_APPEND writes them. -/
def execExportRec (m : Fin 24) (w : Word) (s : State) : Out := sweepInstr m w 0x02 (fun _ _ _ s => s) s

/-- A segment's units that a CATCHUP names caught up to the open step of its group (R230, R232). -/
def catchSegment (e stripes : Nat) (s : State) : State :=
  let x := bdOf e s
  match bindingOf x.binding s with
  | none => s
  | some b =>
    match (groupOf b.group s).bind fun g => g.open' with
    | none => s
    | some n =>
      let first := 64 * (e - b.dirFirst)
      let units := (((List.range 64).filter fun i => stripes.testBit i && decide (first + i < stripeCount b)).map fun i =>
        if isBlockRule b.rule then (first + i) / 16 else first + i).eraseDups
      if x.valid then units.foldl (fun s u => if unitStep b u s == n then s else catchUnit b u n s) s else s

/-- CATCHUP (R156, R232): closed-form catch-up of a segment, named by its directory entry, for the stripes set. -/
def execCatchup (m : Fin 24) (w : Word) (s : State) : Out := sweepInstr m w 0x03 (fun a b _ s => sendMirror (catchSegment a b s)) s

/-- SWEEP_OP_COMPLETE (R156): an operation under a token (31: none) completes, and the token is ready. -/
def execSweepOpComplete (m : Fin 24) (tok : Fin 32) (s : State) : Out :=
  .next <|
    match (seqOf (.mem m) s).ops.find? fun o => o.2.2.2.2 == tok.val with
    | none => s
    | some o => modSeq (.mem m) (fun q => setTok (tokField tok.val) true { q with ops := q.ops.erase o }) s

/-- SCRUB_SWEEP_START (R258): every powered stack's die starts its scrub sweep. -/
def execScrubSweepStart (s : State) : Out :=
  .next <|
    if 4 ≤ s.mod.stage.toNat && decide (s.mod.stage.toNat ≤ 7) then
      (List.finRange 24).foldl (fun s (m : Fin 24) =>
        if (vget s.memory.stk m {}).powered then
          modSeq (.mem m) (fun q => { q with running := true, pc := 0, startTick := s.time.ticks }) s
        else s) (modMod (fun x => { x with scrubTick := s.time.ticks }) s)
    else s

end Sys2Proof.Machine
end

