-- ==== Sys2Proof/Machine/Start.lean ====
section
/-!
DEFINITION. Machine/Start.lean: the images of TOPOLOGY_LOAD (R405, R406) and POLICY_LIMITS (R441, R442), and the start of a
descriptor that was held (R34, R409).
-/

namespace Sys2Proof.Machine

/-! ## TOPOLOGY_LOAD -/

/-- The 16-byte entries of an image from an offset, as word pairs. -/
def entriesAt (bs : List Byte) (off n : Nat) : List (Word × Word) :=
  (chunks 16 ((bs.drop off).take (16 * n))).map fun e => (BitVec.ofNat 64 (leNat (e.take 8)), BitVec.ofNat 64 (leNat (e.drop 8)))

/-- An image with its IMAGE_CRC and SELF fields read as zero. -/
def topologyZeroed (bs : List Byte) : List Byte :=
  let w2 := BitVec.ofNat 64 (wordAt bs 2) &&& ~~~ (0x0001FFFF00000000 : Word)
  let w5 := BitVec.ofNat 64 (wordAt bs 5) &&& ~~~ (0x00000000FFFFFFFF : Word)
  bs.take 16 ++ wordBytes w2 ++ (bs.drop 24).take 16 ++ wordBytes w5 ++ bs.drop 48

/-- An image read under Table 15-6; none when its length or magic disagrees. -/
def parseTopology (bs : List Byte) : Option Topology :=
  let w (i : Nat) : Word := BitVec.ofNat 64 (wordAt bs i)
  let nd := fieldNat (w 2) 0 18
  let ne := fieldNat (w 3) 0 32
  let np := fieldNat (w 3) 32 32
  let nx := fieldNat (w 4) 0 16
  if bs.length < 64 || fieldNat (w 0) 0 40 != 0x014C594B54 || bs.length != 64 + 16 * (nd + ne + np + nx)
      || decide (67108864 < bs.length) || nd == 0 || decide (131072 < nd) then none
  else
    let es := entriesAt bs (64 + 16 * nd) ne
    let ps := entriesAt bs (64 + 16 * (nd + ne)) np
    let xs := entriesAt bs (64 + 16 * (nd + ne + np)) nx
    some
      { generation := w 1, imageCrc := BitVec.ofNat 32 (fieldNat (w 5) 0 32), self := fieldNat (w 2) 32 17
        devices := (entriesAt bs 64 nd).map fun e => (e.1, fieldNat e.2 0 3)
        edges := es.map fun e => (fieldNat e.1 0 17, fieldNat e.1 17 6, fieldNat e.1 23 17, fieldNat e.1 40 6, bitOf e.1 46)
        pairs := ps.map fun e => (fieldNat e.1 0 17, fieldNat e.1 17 17)
        domains := xs.map fun e => (fieldNat e.1 0 16, (List.range (fieldNat e.1 16 4)).map fun i => fieldNat e.2 (4 * i) 4) }

/-- The ends of an image's edges as (device, link). -/
def edgeEnds (t : Topology) : List (Nat × Nat) := t.edges.flatMap fun e => [(e.1, e.2.1), (e.2.2.1, e.2.2.2.1)]

/-- Whether an image has an edge between the same link of two devices. -/
def joined (t : Topology) (a b l : Nat) : Bool :=
  t.edges.any fun e => e.2.1 == l && e.2.2.2.1 == l && ((e.1 == a && e.2.2.1 == b) || (e.1 == b && e.2.2.1 == a))

/-- The checks of R405 on an image that has been read. -/
def topologyOk (bs : List Byte) (t : Topology) (s : State) : Bool :=
  let ends := edgeEnds t
  crc32c (topologyZeroed bs) == t.imageCrc
    && decide (t.self < t.devices.length) && (t.devices[t.self]?).map Prod.fst == some s.mod.identity
    && ends.eraseDups.length == ends.length
    && ends.all (fun e => e.1 != t.self || linkInMask e.2 s)
    && t.pairs.all (fun p => joined t p.1 p.2 0 && joined t p.1 p.2 18)
    && t.domains.all fun d => decide (d.2.length ≤ 14)

/-- An accepted image: in force at once before ready and judged by that start's roll call, after ready at the next step boundary
(R406, R408). -/
def acceptTopology (t : Topology) (s : State) : State :=
  if s.mod.stage == 7 then applyTopology (modMod (fun m => { m with pendingTopology := some t }) s)
  else
    let s := modMod (fun m => { m with topologyWait := false }) (modFlash (fun f => { f with topology := some t }) s)
    if s.mod.stage == 4 then
      (List.range 36).foldl (fun s l => if decide (2 ≤ (linkOf l s).state) then judgeLink l s else s) s
    else judgeAll s

/-- TOPOLOGY_LOAD as it starts. -/
def startTopology (r : DescRec) (s : State) : State :=
  let bs := hostRead r.port r.desc.w2.toNat (fieldNat r.desc.w3 0 32) s
  match parseTopology bs with
  | none => refuse r 0x0004 0 s
  | some t => if topologyOk bs t s then done r 0 (acceptTopology t s) else refuse r 0x0004 0 s

/-- TOPOLOGY_LOAD (R405). -/
def execTopologyLoad (d : Desc) (s : State) : Out := .next (fetchWith 0x47 d noFetchEffect startTopology s)

/-! ## POLICY_LIMITS -/

/-- An entry of the image (Table 17-8). -/
def limitsEntry (bs : List Byte) : PolicyEntry :=
  let w (i : Nat) : Word := BitVec.ofNat 64 (wordAt bs i)
  { group := fieldNat (w 0) 0 16, forbid := fieldNat (w 0) 16 8, postSkewUs := fieldNat (w 1) 0 32, grainUs := fieldNat (w 1) 32 32
    localMin := fieldNat (w 2) 0 13, localMax := fieldNat (w 2) 16 13, scaleMin := fieldNat (w 3) 0 8, scaleMax := fieldNat (w 3) 8 8
    growthMin := fieldNat (w 3) 16 16, growthMax := fieldNat (w 3) 32 16, minRatio := fieldNat (w 4) 0 16
    avoidRatio := fieldNat (w 4) 16 16, avoidMax := fieldNat (w 4) 32 8, swapsMax := fieldNat (w 4) 40 8, dropLimit := fieldNat (w 4) 48 8 }

/-- Whether a value lies in a range. -/
def inRange (lo hi v : Nat) : Bool := decide (lo ≤ v) && decide (v ≤ hi)

/-- The ranges of an entry. -/
def limitsEntryOk (e : PolicyEntry) : Bool :=
  decide (e.group ≤ 0xFFFE) && decide (e.postSkewUs ≤ 10000) && inRange 1 1000 e.grainUs && inRange 1 4096 e.localMin
    && inRange e.localMin 4096 e.localMax && inRange 1 254 e.scaleMin && inRange e.scaleMin 254 e.scaleMax
    && inRange 1 65535 e.growthMin && inRange e.growthMin 65535 e.growthMax && decide (256 ≤ e.minRatio)
    && decide (e.avoidMax ≤ 36) && inRange 1 255 e.dropLimit

/-- Whether the image's header and entries are in range and its CRC holds (R441). -/
def limitsOk (bs : List Byte) (es : List PolicyEntry) : Bool :=
  let w (i : Nat) : Word := BitVec.ofNat 64 (wordAt bs i)
  let zeroed := bs.take 24 ++ List.replicate 4 0 ++ bs.drop 28
  decide (64 ≤ bs.length) && fieldNat (w 0) 0 40 == 0x014C594B50 && decide (fieldNat (w 1) 0 16 ≤ 4096)
    && bs.length == 64 + 64 * fieldNat (w 1) 0 16
    && inRange 16 128 (fieldNat (w 2) 8 8) && inRange (fieldNat (w 2) 8 8) 128 (fieldNat (w 2) 16 8)
    && decide (fieldNat (w 2) 24 4 ≤ 2) && (crc32c zeroed).toNat == fieldNat (w 3) 0 32 && es.all limitsEntryOk

/-- A waiting round length that the new FORBID bits block is not made, and is logged so (R442, R443). -/
def blockChange (s : State) (x : Region) : State :=
  match x.localChange with
  | none => s
  | some (_, v) =>
    if policyAllows 0 x.group s then s
    else logDecision 0 false x.group x.num x.localSteps v 0 0 (modRegion x.num (fun y => { y with localChange := none }) s)

/-- An accepted image of limits: FORBID, POST_SKEW and GRAIN at once; the others now for groups this device does not belong to, else at
each group's next step boundary (R442). -/
def acceptLimits (bs : List Byte) (es : List PolicyEntry) (s : State) : State :=
  let w2 : Word := BitVec.ofNat 64 (wordAt bs 2)
  let entry (g : Nat) : PolicyEntry := (es.find? fun e => e.group == g).getD { group := g }
  let mine := s.groups.map fun g => g.id
  let kept := mine.map fun g =>
    { policyOf g s with group := g, forbid := (entry g).forbid, postSkewUs := (entry g).postSkewUs, grainUs := (entry g).grainUs }
  let others := es.filter fun e => !mine.contains e.group
  let s := modCard (fun k => { k with
    deviceForbid := fieldNat w2 0 8, moveMin := fieldNat w2 8 8, moveMax := fieldNat w2 16 8, parkMax := fieldNat w2 24 4
    policy := kept ++ others, nextPolicy := some es }) s
  s.regions.foldl blockChange s

/-- POLICY_LIMITS as it starts. -/
def startLimits (r : DescRec) (s : State) : State :=
  let bs := hostRead r.port r.desc.w2.toNat (fieldNat r.desc.w3 0 32) s
  let es := (chunks 64 (bs.drop 64)).map limitsEntry
  if limitsOk bs es then done r 0 (acceptLimits bs es s) else refuse r 0x0004 0 s

/-- POLICY_LIMITS (R441). -/
def execPolicyLimits (d : Desc) (s : State) : Out := .next (fetchWith 0x48 d noFetchEffect startLimits s)

/-! ## The start of a held descriptor -/

/-- What starts a descriptor of an opcode; an undefined one is refused before it starts. -/
def startOf (op : BitVec 8) : DescRec → State → State :=
  match op.toNat with
  | 0x01 => startLesson
  | 0x02 => startMove
  | 0x03 => startExchange
  | 0x04 => startRound
  | 0x05 => startRule
  | 0x06 => startOpen
  | 0x07 => startCommit
  | 0x08 => startExam
  | 0x09 => startExamClose
  | 0x0A => startExport
  | 0x0B => startWait
  | 0x0C => startStatsRead
  | 0x0D => startSnapshot
  | 0x40 => startCreate
  | 0x41 => startDestroy
  | 0x42 => startMap
  | 0x43 => startUnmap
  | 0x44 => startGroup
  | 0x45 => startPair
  | 0x46 => startPal
  | 0x47 => startTopology
  | 0x48 => startLimits
  | 0x49 => startKeyInstall
  | _ => fun _ s => s

/-- What follows any start: passes refused before admission are settled, journal records go to the deskmate, round status pages
show. -/
def afterStart (s : State) : State := sendMirror (showRounds (settlePasses s))

/-- FENCED_DESCRIPTOR_START (R34). -/
def execFencedDescriptorStart (id : Nat) (s : State) : Out :=
  .next <|
    match descOf id s with
    | some r => afterStart (startHeld id (startOf r.opcode) s)
    | none => s

end Sys2Proof.Machine
end

