-- ==== Sys2Proof/Machine/BringUp.lean ====
section
/-!
DEFINITION. Machine/BringUp.lean: cold and warm starts, their stages, roll call's end, and the ways the module goes offline
(R362, R389 to R410, R418, R464, R465, R471).
-/

namespace Sys2Proof.Machine

/-! ## What a start does to the state (R397, Table 15-3) -/

/-- Stacks as a cold start finds them: their temperature alone. -/
def freshStacks (s : State) : Vector StackSt 24 := s.memory.stk.map fun k => { temp := k.temp }

/-- The far links' own addresses, from module flash. -/
def freshLinks (s : State) : Tbl Link := s.flash.farMac.map fun x => (x.1, { far := { mac := BitVec.ofNat 48 x.2 } })

/-- A cold start begins (R389): everything returns to its reset values but module flash, host memory behind the ports, the time inputs,
and what the model keeps for itself. `reason` is COLD_REASON. -/
def coldStart (cause reason : Nat) (s : State) : State :=
  { pending := s.pending, free := s.free
    time := { ticks := s.time.ticks, ppsPresent := s.time.ppsPresent, ref10Present := s.time.ref10Present }
    mod := { cause := BitVec.ofNat 4 cause, coldReason := BitVec.ofNat 8 reason, startTick := s.time.ticks }
    flash := { s.flash with cleanStop := false }
    portA := { mem := s.portA.mem }, portB := { mem := s.portB.mem }
    memory := { stk := freshStacks s }
    links := freshLinks s
    msix := s.msix, sentFrames := s.sentFrames, sentFar := s.sentFar }

/-- Every link Down, with no keys, no frames and nothing queued; sorter fences clear, and configuration, flags and counters stay. -/
def restLinks (s : State) : State :=
  { s with links := s.links.map fun l => (l.1, { l.2 with
      state := 0, lanes := 0, keyTx := false, keyRx := false, sorterFenced := false, hold := false, farActive := false, egress := []
      leaving := none, unacked := [], control := [], retry := [], resend := [], rxData := [], transit := [], rxBad := false, nakDue := false
      txKeys := Vector.replicate 2 {}, rxKeys := Vector.replicate 2 {}, kex := none, kexRetryAt := none, retrainUntil := none
      creditZeroSince := none, rollJudged := false, rollReady := false, rollItem := none, proved := 0
      downAt := mono s, far := { l.2.far with
        rxStripes := [], retransmit := [], resent := [], txBody := [], repairQ := [], sentAgain := [], reserved := false, keyNext := none } }) }

/-- A mailbox command that a start cuts short; FW_STAGE leaves its slot marked empty (Table 16-6). -/
def dropMailbox (s : State) : State :=
  let cut (q : PortSt) : PortSt := { q with mailbox := { q.mailbox with busy := false, latched := none, outcome := none } }
  let staging := [Port.A, Port.B].any fun p => match (portOf p s).mailbox.latched with
    | some x => x.1 == 0x03
    | none => false
  let s := if staging then modFlash (fun f => if s.mod.fwRunningB then { f with slotA := { valid := false } }
      else { f with slotB := { valid := false } }) s else s
  modMod (fun m => { m with fwBusyPort := none }) { s with portA := cut s.portA, portB := cut s.portB }

/-- A warm start begins at stage 0 (R389, R391). -/
def warmStart (cause : Nat) (s : State) : State :=
  let s := dropMailbox s
  let s := match s.mod.pendingTopology with
    | some t => modFlash (fun f => { f with topology := some t }) s
    | none => s
  modMod (fun m => { m with
    stage := 0, ready := false, warm := true, topologyWait := false, failStage := 0, failCause := 0, startMs := 0
    cause := BitVec.ofNat 4 cause, coldReason := 0, startTick := s.time.ticks, offline := false, recoverable := false, warmHold := none
    pendingTopology := none }) s

/-- The module goes offline (R362, R389): every link is Down and both ports report link down. -/
def goOffline (failCause : Nat) (recoverable : Bool) (s : State) : State :=
  let s := restLinks s
  let down (q : PortSt) : PortSt := { q with linkUp := false, width := 0, speed := 0, latch := none
                                             downSince := if q.linkUp then some (mono s) else q.downSince }
  modMod (fun m => { m with
    failStage := m.stage, failCause := BitVec.ofNat 4 failCause, stage := 8, ready := false, offline := true
    offlineTick := s.time.ticks, recoverable := recoverable, warmHold := none }) { s with portA := down s.portA, portB := down s.portB }

/-! ## Starts and their causes (R389, R391, R464, R465, R471) -/

/-- MODULE_OFFLINE (R362): a die's clock or supply is lost, or the management processor's lockstep mismatches. -/
def execModuleOffline (s : State) : Out := .next (if s.mod.offline then s else goOffline 5 true s)

/-- INPUT_OUT_OF_RANGE (R465): a loss of supply; the capacitors hold the stacks for 50 ms. -/
def execInputOutOfRange (s : State) : Out :=
  .next <|
    if !s.mod.inputInRange then s
    else
      let s := if s.mod.offline then s else goOffline 5 true s
      modMod (fun m => { m with inputInRange := false, inputLostTick := s.time.ticks, pwrGood := false, statusUnread := true }) s

/-- Nanoseconds since a tick of the model's clock. -/
def sinceTick (t : Nat) (s : State) : Nat := 4 * (s.time.ticks - t)

/-- HOLD_UP_EXHAUSTED (R465): 50 ms without input, and the stacks lose self-refresh power. -/
def execHoldUpExhausted (s : State) : Out :=
  .next <|
    if !s.mod.inputInRange && decide (50000000 ≤ sinceTick s.mod.inputLostTick s) then
      modMod (fun m => { m with holdUpExhausted := true, stackPower := false, statusUnread := true }) s
    else s

/-- INPUT_IN_RANGE (R464, R465, R471): after more than 1 s, or from a module that was not offline for want of supply, a cold start; else
the recovery warm start that follows is a command of its own. -/
def execInputInRange (s : State) : Out :=
  .next <|
    if s.mod.inputInRange then s
    else modMod (fun m => { m with inputInRange := true, statusUnread := true })
      (if s.mod.thermTrip then (if s.mod.tripCooled then coldStart 0 0 s else s)
       else if s.mod.recoverable && decide (sinceTick s.mod.inputLostTick s ≤ 1000000000) then s
       else coldStart 0 0 s)

/-- MOD_RESET_N_LOW (R389, R472): ignored during a thermal trip until the sensors have cooled, and without input. -/
def execModResetNLow (s : State) : Out :=
  .next (if !s.mod.inputInRange || (s.mod.thermTrip && !s.mod.tripCooled) then s else coldStart 1 0 s)

/-- RESET_CTRL_COLD (R389, R390): a keyed write with WARM 0; a latched thermal trip is not ended by it (R471). -/
def execResetCtrlCold (p : Port) (key : BitVec 16) (warm : Bool) (s : State) : Out :=
  .next (if (portOf p s).fenced || key != 0x5A17 || warm || s.mod.thermTrip then endLatch p s else coldStart 2 0 s)

/-- RESET_CTRL_WARM (R390, R391, R410): a keyed write with COLD 0, ignored before ready; the start is held at most 10 s while a step is
open. -/
def execResetCtrlWarm (p : Port) (key : BitVec 16) (cold : Bool) (s : State) : Out :=
  .next <|
    if (portOf p s).fenced then s
    else
      let s := endLatch p s
      if key != 0x5A17 || cold || s.mod.stage != 7 || s.mod.warmHold.isSome then s
      else modMod (fun m => { m with warmHold := some (mono s) }) s

/-- WARM_HOLD_END (R391): no step is open, or 10 s have passed; the orderly stop: LEAVING to every partner, the directory caches written
back, a clean stop record. -/
def execWarmHoldEnd (s : State) : Out :=
  .next <|
    match s.mod.warmHold with
    | none => s
    | some t =>
      if (s.groups.any fun g => g.open'.isSome) && !decide (10000000000 ≤ nsSince t (mono s)) then s
      else
        let s := ((List.range 36).filter fun l => (linkOf l s).state == 3).foldl (fun s l =>
          sendItem l (leavingItem s.mod.identity (now s) 0) s) s
        let s := modNmu (fun m => { m with cache := m.cache.map fun c => c.map fun x => (x.1, false) }) s
        let s := modFlash (fun f => { f with cleanStop := true, lastDtime := now s }) s
        warmStart 3 s

/-- RECOVERY_WARM_START (R389): what was lost has returned within 1 s. -/
def execRecoveryWarmStart (s : State) : Out :=
  .next <|
    if s.mod.offline && s.mod.recoverable && s.mod.inputInRange && decide (sinceTick s.mod.offlineTick s ≤ 1000000000) then warmStart 4 s
    else s

/-- OFFLINE_RECOVERY_TIMEOUT (R389): 1 s has passed; the module stays offline until a cold start. -/
def execOfflineRecoveryTimeout (s : State) : Out :=
  .next <|
    if s.mod.offline && s.mod.recoverable && decide (1000000000 ≤ sinceTick s.mod.offlineTick s) then
      modMod (fun m => { m with recoverable := false }) s
    else s

/-- The limit of a sensor of TEMPS that trips the module: dies (2 to 7) and the hottest regulator (9). -/
def tripLimit (sensor : Nat) : Option Int :=
  if 2 ≤ sensor && decide (sensor ≤ 7) then some 110 else if sensor == 9 then some 125 else none

/-- THERMAL_TRIP (R471): the module goes offline past recovery, and every rail but management and time loses power. -/
def execThermalTrip (sensor : Fin 10) (celsius : Int) (s : State) : Out :=
  .next <|
    match tripLimit sensor.val with
    | none => s
    | some t =>
      if celsius < t || s.mod.thermTrip then s
      else modMod (fun m => { m with
        thermTrip := true, tripCooled := false, recoverable := false, pwrGood := false, stackPower := false, statusUnread := true })
        (if s.mod.offline then s else goOffline 5 false s)

/-- TRIP_SENSORS_COOLED (R471): every sensor of TEMPS reads 80 °C or below. -/
def execTripSensorsCooled (s : State) : Out := .next (if s.mod.thermTrip then modMod (fun m => { m with tripCooled := true }) s else s)

/-! ## Stages 0 to 2 (R392, R393, R411 to R418) -/

/-- STAGE_POWER (R392): the rails are good, or at a warm start the orderly stop is over. -/
def execStagePower (s : State) : Out :=
  .next <|
    if s.mod.stage == 0 && s.mod.inputInRange && !s.mod.thermTrip then
      let t := if s.mod.warm then restLinks s else s
      modMod (fun m => { m with stage := 1, statusUnread := m.statusUnread || !m.pwrGood, pwrGood := true }) t
    else s

/-- A firmware slot. -/
def fwSlot (b : Bool) (s : State) : FwImage := if b then s.flash.slotB else s.flash.slotA

/-- Whether a slot's image may run (R418). -/
def fwGood (b : Bool) (s : State) : Bool := (fwSlot b s).valid && decide (s.flash.minSvn.toNat ≤ (fwSlot b s).svn.toNat)

/-- The slot that R418 tries, and whether it falls back; the boot record after. -/
def fwCandidate (s : State) : Bool × Bool × State :=
  match s.flash.tryB with
  | some t =>
    if s.flash.tryCount == 0 then (t, false, modFlash (fun f => { f with tryCount := 1 }) s)
    else (s.flash.activeB, true, modFlash (fun f => { f with tryB := none }) s)
  | none => (s.flash.activeB, false, s)

/-- FW_FALLBACK and FW_SLOT_BAD raised with the slot that runs. -/
def fwEvents (fallback bad run : Bool) (s : State) : State :=
  let args := [if run then 1 else 0, (fwSlot run s).svn.toNat]
  let s := if fallback then raiseDev 25 (raiseEvent 0x71 args s) else s
  if bad then raiseDev 26 (raiseEvent 0x72 args s) else s

/-- The firmware chosen and started; none when neither slot will do (R418). -/
def chooseFirmware (s : State) : Option State :=
  let c := fwCandidate s
  let s := c.2.2
  let run := if fwGood c.1 s then some (c.1, false) else if fwGood (!c.1) s then some (!c.1, true) else none
  run.map fun r => fwEvents c.2.1 r.2 r.1 (modMod (fun m => { m with fwRunningB := r.1, fwMeasure := (fwSlot r.1 s).digest }) s)

/-- STAGE_FIRMWARE (R392, R401, R411 to R418): the PUF, the identity record, a firmware slot and the variant record are checked. -/
def execStageFirmware (s : State) : Out :=
  .next <|
    if s.mod.stage != 1 then s
    else if !s.flash.helperOk || !s.flash.identityRecordOk then goOffline 1 false s
    else match chooseFirmware s with
      | none => goOffline 1 false s
      | some t =>
        if !t.flash.variantOk then goOffline 2 false t
        else modMod (fun m => { m with stage := 2, identity := identityOf (s.flash.identityRecord.take 1793) }) t

/-- DTIME's first lock (R393): the grandmaster's time when one answers, else the stored one plus 1 s. -/
def firstLock (ptpTime : Option Word) (s : State) : State :=
  match ptpTime with
  | some t => modTime (fun x => { x with
      dtime := t, firstLock := true, source := if x.ppsPresent then 1 else 2, timeLocked := true, lastSourceAt := mono s }) s
  | none =>
    let s := modTime (fun x => { x with dtime := s.flash.lastDtime + 1000000000, firstLock := true, lastSourceAt := mono s }) s
    raiseDev 23 (raiseEvent 0x73 [if s.mod.fwRunningB then 1 else 0, (fwSlot s.mod.fwRunningB s).svn.toNat]
      (modMod (fun m => { m with timeUntraceable := true }) s))

/-- STAGE_CLOCKS (R392, R393): the PLLs are locked; at a cold start DTIME takes its one step. -/
def execStageClocks (ptpTime : Option Word) (s : State) : Out :=
  .next <|
    if s.mod.stage != 2 then s
    else
      let s := modTime (fun x => { x with clkLock := BitVec.allOnes 31, oscDisciplined := x.ref10Present }) s
      let s := if s.mod.warm then s else firstLock ptpTime s
      modMod (fun m => { m with stage := 3 }) s

/-! ## Stage 3 (R251, R392, R395, R396, R398) -/

/-- A slot placed where R262 sends it, its data going with it: before traffic, or at a drain with none. -/
def placeSlot (s : State) (slot : Nat) : State :=
  match destinationFor (mapEntry slot s).channel s with
  | some (c, p) => setMap slot (fun e => { e with
      channel := c, position := p, state := 0, homeChannel := c, homePosition := p, mark := 0, targetChannel := 0, targetPosition := 0 }) s
  | none => raiseDev 8 (raiseEvent 0x32 [(mapEntry slot s).channel, 5, installedGib s, slot] s)

/-- A stack at 100 °C or above at bring-up: drained and mapped out at once (R395). -/
def drainHot (s : State) (m : Nat) : State :=
  let k := vget s.memory.stk m {}
  if !decide (100 ≤ k.temp.toNat) || decide (4 ≤ k.level) then s
  else
    let s := modStack m (fun k => { k with level := 4 }) s
    settleDrain m ((slotsOf m s).foldl placeSlot ((List.range 16).foldl (fun s i => keepParked (16 * m + i) s) s))

/-- The training of a channel at a cold start: recorded, or failed twice and mapped out (R392, R403, Table 10-4). -/
def trainChannel (trained : BitVec 384) (s : State) (c : Nat) : State :=
  if trained.getLsbD c then
    modFlash (fun f => { f with channelOut := f.channelOut.filter (fun x => x != c)
                                trainTemp := tset f.trainTemp c (vget s.memory.stk (c / 16) {}).temp.toNat, rewrites := f.rewrites + 1 }) s
  else channelOutEvent c 3 (modMemChan c (fun x => { x with trainFails := 2 }) (markOut c s))

/-- Whether some stack has no trained channel. -/
def stackDead (trained : BitVec 384) : Bool := (List.range 24).any fun m => (List.range 16).all fun k => !trained.getLsbD (16 * m + k)

/-- Stage 3 of a cold start: training, memory cleared, the canonical map with the map-outs applied in ascending order. -/
def coldMemory (trained : BitVec 384) (s : State) : State :=
  let s := (List.range 384).foldl (trainChannel trained) s
  let s := modMemory (fun m => { m with fast := [], map := canonicalMap, moving := [], acks := [] }) s
  let s := (s.flash.channelOut.flatMap fun c => slotsAt c s).foldl placeSlot s
  (List.range 24).foldl drainHot (modFlash (fun f => { f with map := s.memory.map }) s)

/-- The conditions of R395 that fail, as COLD_REASON: stack power lost, identity changed, no clean stop, defect map changed, flash record
invalid. -/
def coldReasons (s : State) : Nat :=
  (if s.mod.stackPower then 0 else 1) + (if s.flash.cleanStop || s.mod.cause == 4 then 0 else 4) + (if s.flash.recordsOk then 0 else 16)

/-- A stack more than 10 °C from the training temperature of a channel of it retrained in place (R395). -/
def retrainInPlace (s : State) (m : Nat) : State :=
  let t := (vget s.memory.stk m {}).temp.toNat
  let cs := retrainChans m 0
  let far := cs.any fun c => match tget? s.flash.trainTemp c with
    | some x => decide (x + 10 < t) || decide (t + 10 < x)
    | none => false
  let s := modStack m (fun k => { k with retraining := 0, driftSince := none }) s
  if far then modFlash (fun f => { f with trainTemp := cs.foldl (fun x c => tset x c t) f.trainTemp, rewrites := f.rewrites + 1 }) s else s

/-- The map of flash in force again: no move under way, causes still present start theirs, slots parked for a retraining go home
(R266). -/
def warmMap (s : State) : State :=
  let s := modMemory (fun m => { m with map := s.flash.map, moving := [], acks := [] }) s
  let s := s.flash.channelOut.foldl (fun s c => queueMoves 0 (slotsAt c s) s) s
  let back := (List.range 24).flatMap fun m => if (vget s.memory.stk m {}).parkedPolicy then [] else parkedOf m s
  startMoves (queueMoves 4 back s)

/-- A pass ended by a start, its destination undefined. -/
def endPass (p : Pass) (detail : BitVec 16) (result0 : Word) (s : State) : State :=
  let s := dropPass p (if p.fuse then s else spoilDst p s)
  match descOf p.desc s with
  | some r => finish r stRolledBack detail result0 s
  | none => s

/-- A run taken off its cores and out of the table. -/
def endRun (u : Run) (detail : BitVec 16) (result0 : Word) (s : State) : State :=
  let s := { s with runs := s.runs.filter fun x => x.id != u.id }
  match descOf u.desc s with
  | some r => finish r stRolledBack detail result0 s
  | none => s

/-- An open step undone as a fault rollback: its runs, passes and STEP_COMMIT complete as ROLLED_BACK with the step (R396, R398). -/
def undoStart (s : State) (g : Group) : State :=
  match g.open' with
  | none => s
  | some n =>
    let s := (s.runs.filter fun u => u.group == some g.id && u.step == some n).foldl (fun s u => endRun u 0 n s) s
    let s := (s.passes.filter fun p => p.admitted && p.group == g.id && p.step == some n).foldl (fun s p => endPass p 0 n s) s
    let d := { nextScale g (g.growthSet.getD g.ctl.growth) false true with time := now s }
    closeStep g n d (now s) (writeRecord g n d (now s) false (undoOpen g n s))

/-- A run outside a step: it waits to be rerun after ready, or ends (R365, R398). -/
def keepRun (s : State) (u : Run) : State :=
  if !u.begun then s
  else if canRerun u s && u.stop.isNone then modRun u.id (fun u => { u with
      begun := false, rerun := true, stats := [], expertCount := [], routeSeq := [], deferred := [], gradSat := false
      xposts := u.xposts.map fun x => { x with live := false } }) s
  else endRun u 0x0701 (BitVec.allOnes 64) (spoilOutputs u s)

/-- Stage 3 of a warm start, its conditions holding: the map, the journals' undo, what descriptors come to, and units at rest. -/
def warmMemory (s : State) : State :=
  let s := (List.range 24).foldl retrainInPlace s
  let s : State := (List.range 24).foldl drainHot (warmMap s)
  let idle (e : Engine) : Engine := { e with open' := [], waiting := [], queue := 0, heldBytes := [] }
  let s : State := { s with cores := [], linkSeq := [], memSeq := [], engines := s.engines.map fun e => (e.1, idle e.2) }
  let s := s.groups.foldl undoStart s
  let s := (s.passes.filter fun p => p.admitted).foldl (fun s p => endPass p 0x0701 (BitVec.allOnes 64) s) s
  modFlash (fun f => { f with cleanStop := false }) (modNmu (fun m => { m with cache := Vector.replicate 4 [], misses := [] })
    (s.runs.foldl keepRun s))

/-- STAGE_MEMORY (R392, R395, R396): `trained` says which channels trained, at a cold start. -/
def execStageMemory (trained : BitVec 384) (s : State) : Out :=
  .next <|
    if s.mod.stage != 3 then s
    else if s.mod.warm then
      if coldReasons s != 0 then coldStart 5 (coldReasons s) s
      else sendMirror (modMod (fun m => { m with stage := 4 }) (warmMemory s))
    else if stackDead trained then goOffline 4 false s
    else modMod (fun m => { m with stage := 4 }) (coldMemory trained s)

/-! ## Stages 4 to 6 (R392, R402, R407 to R409) -/

/-- STAGE_LINKS (R392, R407): links still below Authenticating are judged absent. -/
def execStageLinks (s : State) : Out :=
  .next <|
    if s.mod.stage != 4 then s
    else
      let s := ((List.range 36).filter fun l => linkInMask l s && decide ((linkOf l s).state < 2)).foldl (fun s l => judgeAbsent l s) s
      modMod (fun m => { m with stage := 5 }) s

/-- CORES_PER_DIE (Table 15-4). -/
def coresPerDie (v : Variant) : Nat := match v with | .F => 44 | .E => 40 | .S => 32

/-- The good slots of a die in the order of R402: slot by slot, and within each form by form. -/
def goodOnDie (good : BitVec 192) (d : Nat) : List Nat :=
  ((List.range 8).flatMap fun s => (List.range 6).map fun f => 48 * d + 8 * f + s).filter fun p => good.getLsbD p

/-- The assignment of a cold start: logical numbers upward over the dies, each die's in the order of enablement. -/
def assignCores (good : BitVec 192) (v : Variant) : List Nat :=
  (List.range 4).flatMap fun d => (goodOnDie good d).take (coresPerDie v)

/-- Stage 5 of a cold start: slots that pass are good, the others defective, and the logical numbers are given out (R402). -/
def coldCores (good : BitVec 192) (s : State) : State :=
  let v := s.flash.variant
  let ps := assignCores good v
  let s := modFlash (fun f => { f with
    coreStatus := (List.range 192).filterMap fun p => if good.getLsbD p then none else some (p, 2)
    physOf := ps.zipIdx.map fun x => (x.2, x.1)
    rewrites := f.rewrites + 1 }) s
  if ps.length < 4 * coresPerDie v then raiseDev 15 (raiseEvent 0x61 [0, 0, 0, enabledCores s] s) else s

/-- Stage 5 of a warm start: enabled cores that fail the quick test are fenced (R402). -/
def warmCores (good : BitVec 192) (s : State) : State :=
  (s.flash.physOf.filter fun x => !good.getLsbD x.2).foldl (fun s x => fenceCore x.1 s) s

/-- STAGE_CORES (R402): `goodSlots` are the physical slots that pass their test. -/
def execStageCores (goodSlots : BitVec 192) (s : State) : Out :=
  .next <|
    if s.mod.stage != 5 then s
    else
      let s := if s.mod.warm then warmCores goodSlots s else coldCores goodSlots s
      modMod (fun m => { m with stage := 6, topologyWait := s.flash.topology.isNone }) s

/-- Whether roll call passes (R408): an image held, every enabled link judged, no rebuild outstanding. -/
def rollPasses (s : State) : Bool :=
  s.flash.topology.isSome && ((List.range 36).all fun l => !linkInMask l s || (linkOf l s).rollJudged) && s.memory.pendingErr.isEmpty

/-- A descriptor fetched before ready starts, or waits on its ring. -/
def startEarly (s : State) (r : DescRec) : State :=
  if mustWait r s then modDesc r.id (fun x => { x with hold := .fence }) s
  else checked { r with hold := .run } (startOf r.opcode) s

/-- Bells held through a start checked and taken (R409, R410). -/
def takeBells (p : Port) (s : State) : State :=
  let bs := (portOf p s).bells
  let s := modPort p (fun q => { q with bells := [] }) s
  bs.foldl (fun s b => match chanOf b.1 s with
    | some c => if c.owner == p then takeBell b.1 b.2.1 b.2.2 s else s
    | none => s) s

/-- Milliseconds from the start's origin. -/
def startMsNow (s : State) : W32 := BitVec.ofNat 32 (sinceTick s.mod.startTick s / 1000000)

/-- ROLL_CALL_PASS (R408): ready; what was held goes on. -/
def execRollCallPass (s : State) : Out :=
  .next <|
    if s.mod.stage != 6 || !rollPasses s then s
    else
      let s := modMod (fun m => { m with stage := 7, ready := true, startMs := startMsNow s }) s
      let s := raiseDev 0 (modFlash (fun f => { f with lastDtime := now s }) s)
      let s := ((List.range 36).filter fun l => (linkOf l s).proved != 0).foldl (fun s l => sendRollCall l s) s
      let s := takeBells .B (takeBells .A s)
      let s := (s.descs.filter fun r => r.hold == .notReady).foldl startEarly s
      afterStart (beginReady s)

end Sys2Proof.Machine
end

