-- ==== Sys2Proof/Machine/Frames.lean ====
section
/-!
DEFINITION. Machine/Frames.lean: frames and the items they carry chip to chip (R298 to R305), the far transport with its
stripes, parity and repairs (R347 to R352), and a far path's contract (R353, R354).
-/

namespace Sys2Proof.Machine

/-! ## Items as they leave (R302 to R304) -/

/-- A control item's 64 bytes, tagged under the slot in use; agreement items before any key carry a zero tag (R304, R424). -/
def sealItem (it : Item) (k : Link) : List Byte × Link :=
  let n := slotIx k.keyTx
  let key := vget k.txKeys n {}
  if !key.valid then (itemAad it ++ List.replicate 16 0, k)
  else
    let c := vget k.txNonce n 0
    let tag := gcmTag (keyBytes key.key) (itemIv key.const (BitVec.ofNat 64 c)) (itemAad it) []
    let items := if k.farActive then key.items else key.items + 1
    (itemAad it ++ leBytes 16 tag.toNat,
      { k with txNonce := vset k.txNonce n (c + 1), txKeys := vset k.txKeys n { key with items := items } })

/-- The header words of a segment (Table 12-4). -/
def segWords (x : OutSeg) (nonce : Nat) : List Byte :=
  let w (n : Nat) : List Byte := leBytes 8 n
  w (3 + (if x.coded then 16 else 0) + x.coll * 2 ^ 5 + x.group * 2 ^ 8 + x.level * 2 ^ 24) ++ wordBytes x.ordinal ++ w x.element
    ++ w (x.data.length + x.sig.toNat * 2 ^ 32) ++ w (x.srcRank + x.dstRank * 2 ^ 14 + x.postUs * 2 ^ 28) ++ w nonce

/-- A segment's bytes on the wire: header, data enciphered under GCM and plain under GMAC, padding (R302, R303). -/
def sealSeg (x : OutSeg) (k : Link) : List Byte × Link :=
  let n := slotIx k.keyTx
  let key := vget k.txKeys n {}
  let c := vget k.txNonce n 0
  let head := segWords x c
  let iv := itemIv key.const (BitVec.ofNat 64 c)
  let kb := keyBytes key.key
  let ct := if k.crypto then x.data else gcmCrypt kb iv x.data
  let tag := if k.crypto then gcmTag kb iv (head ++ x.data) [] else gcmTag kb iv head ct
  let items := if k.farActive then key.items else key.items + 1
  (head ++ leBytes 16 tag.toNat ++ ct ++ List.replicate (segBytesOf ct.length - 64 - ct.length) 0,
    { k with txNonce := vset k.txNonce n (c + 1), txKeys := vset k.txKeys n { key with items := items } })

/-- The raw bytes of a queued segment. -/
def rawLen (x : OutSeg) : Nat :=
  if x.coded then (decodeItems 16 none (x.data.length / 64 + 1) 0 x.data {}).1.length else x.data.length

/-- The control items that may leave in a link's state, at most 64, and the others. -/
def takeControl (k : Link) : List Item × List Item :=
  let ok := k.control.filter fun it => itemAllowed k.state (itemKind it)
  let no := k.control.filter fun it => !itemAllowed k.state (itemKind it)
  (ok.take 64, ok.drop 64 ++ no)

/-- A body padded to 4,096 bytes. -/
def padBody (bs : List Byte) : List Byte := bs ++ List.replicate (4096 - bs.length) 0

/-- The body of a control frame. -/
def controlBody (k : Link) : List Byte × Link :=
  let t := takeControl k
  let r := t.1.foldl (fun (p : List Byte × Link) it =>
    let q := sealItem it p.2
    (p.1 ++ q.1, q.2)) ([], k)
  (padBody r.1, { r.2 with control := t.2 })

/-- What fills a data body: bytes, the offset of the first item header in 64-byte units, the link, and the segments begun. -/
abbrev Fill := List Byte × Option Nat × Link × List OutSeg

/-- A data body filled from the segment that is leaving, then from the queue; `seq` numbers the frame or stripe. -/
def packBody (seq : Word) : Nat → Fill → Fill
  | 0, p => p
  | fuel + 1, (bs, first, k, begun) =>
    if 4096 ≤ bs.length then (bs, first, k, begun)
    else match k.leaving with
      | some (x, rest) =>
        let n := 4096 - bs.length
        if rest.length ≤ n then
          packBody seq fuel (bs ++ rest, first, { k with leaving := none, unacked := k.unacked ++ [(x, seq)] }, begun)
        else (bs ++ rest.take n, first, { k with leaving := some (x, rest.drop n) }, begun)
      | none =>
        match k.egress with
        | [] => (bs, first, k, begun)
        | x :: q =>
          let r := sealSeg x { k with egress := q }
          packBody seq fuel (bs, some (first.getD (bs.length / 64)), { r.2 with leaving := some (x, r.1) }, begun ++ [x])

/-- The body of a data frame and its FIRST_ITEM. -/
def dataBody (seq : Word) (k : Link) : List Byte × Nat × Link × List OutSeg :=
  let r := packBody seq 100 ([], none, k, [])
  (padBody r.1, r.2.1.getD 0x7F, r.2.2.1, r.2.2.2)

/-- The card's counts of segments that begin to leave (Table 17-3). -/
def countTx (begun : List OutSeg) (s : State) : State :=
  countCard 2 (sumNat (begun.map fun x => 64 + rawLen x)) (countCard 4 (sumNat (begun.map fun x => 64 + x.data.length)) s)

/-! ## Frames chip to chip (R298 to R300, R305) -/

/-- Free receive buffer in 4 KiB units (R298, R300). -/
def freeCredit (k : Link) : Nat :=
  let used := k.rxData.length + sumNat (k.transit.map fun x => segBytesOf x.2.data.length)
  min 0xFFFF ((8388608 - used) / 4096)

/-- A frame's header and body (Table 12-3): type, key slot and first item as given; NAK, CREDIT and ACK_SEQ as they stand. -/
def mkFrame (type first : Nat) (keyId : Bool) (seq : W32) (body : List Byte) (k : Link) : Frame :=
  let h0 : Word := BitVec.ofNat 64 (type + (if keyId then 16 else 0) + (if k.nakDue then 32 else 0) + first * 2 ^ 6
    + freeCredit k * 2 ^ 16 + (k.rxNext - 1).toNat * 2 ^ 32)
  let crc := crc32c (wordBytes h0 ++ leBytes 4 seq.toNat ++ body)
  { h0 := h0, h1 := BitVec.ofNat 64 (seq.toNat + crc.toNat * 2 ^ 32), body := body }

/-- Whether data waits on a link. -/
def dataWaits (k : Link) : Bool := k.state == 3 && (k.leaving.isSome || !k.egress.isEmpty)

/-- The presence timer of a partner whose CREDIT is zero while data waits (R328). -/
def settleCredit (l : Nat) (s : State) : State :=
  let since (k : Link) : Option Word :=
    if dataWaits k && k.credit == 0 && !k.farActive then some (k.creditZeroSince.getD (mono s)) else none
  modLink l (fun k => { k with creditZeroSince := since k }) s

/-- The one-second window of frames and resent frames that link avoidance and a far contract are judged by. -/
def tickWindow (l n r : Nat) (s : State) : State :=
  let k := linkOf l s
  if 1000000000 ≤ nsSince k.winStart (mono s) then
    let s := modLink l (fun k => { k with winStart := mono s, lastFrames := k.winFrames, lastRetried := k.winRetried
                                          winFrames := n, winRetried := r }) s
    if k.farActive then s else judgeAvoid l s
  else modLink l (fun k => { k with winFrames := k.winFrames + n, winRetried := k.winRetried + r }) s

/-- A new frame sent and kept in the retry buffer. -/
def putFrame (l : Nat) (type first : Nat) (body : List Byte) (k : Link) (s : State) : State :=
  let f := mkFrame type first k.keyTx k.txSeq body k
  let k := { k with
    txSeq := k.txSeq + 1, retry := k.retry ++ [(k.txSeq, f, 0)], nakDue := false
    txAckedAt := if k.retry.isEmpty then mono s else k.txAckedAt
    ctlGap := if type == 2 then 127 else k.ctlGap - 1 }
  tickWindow l 1 0 { s with links := tset s.links l k, sentFrames := s.sentFrames ++ [(l, f)] }

/-- The next frame resent from the retry buffer, with its KEY_ID as first sent and the header's own fields fresh (R299,
Table 12-14). -/
def resendFrame (l : Nat) (x : W32 × Frame × Nat) (rest : List (W32 × Frame × Nat)) (s : State) : State :=
  let k := linkOf l s
  let f := mkFrame (fieldNat x.2.1.h0 0 4) (fieldNat x.2.1.h0 6 7) (bitOf x.2.1.h0 4) x.1 x.2.1.body k
  let s := modLink l (fun k => { k with
    resend := rest, nakDue := false, retried := k.retried + 1
    retry := k.retry.map fun y => if y.1 == x.1 then (y.1, y.2.1, y.2.2 + 1) else y }) s
  tickWindow l 1 1 { s with sentFrames := s.sentFrames ++ [(l, f)] }

/-- A rekey started by the end whose slot reaches 2^31 items (R426). -/
def maybeRekey (l before : Nat) (s : State) : State :=
  let k := linkOf l s
  if k.state == 3 && !k.farActive && decide (before < 2 ^ 31) && decide (2 ^ 31 ≤ (vget k.txKeys (slotIx k.keyTx) {}).items) then askKex l s
  else s

/-- The next frame of a chip-to-chip link: a retry first, then control under its pacing, data under credit, or idle. -/
def sendFrame (l : Nat) (s : State) : State :=
  let k := linkOf l s
  let before := (vget k.txKeys (slotIx k.keyTx) {}).items
  match k.resend with
  | x :: rest => resendFrame l x rest s
  | [] =>
    if 2048 ≤ k.retry.length then s
    else
      let ctl := !(takeControl k).1.isEmpty
      let data := dataWaits k
      let s :=
        if ctl && (!data || k.ctlGap == 0) then
          let r := controlBody k
          putFrame l 2 0 r.1 r.2 s
        else if data && decide (k.sentSinceCredit < k.credit) then
          let r := dataBody (k.txSeq.setWidth 64) k
          countTx r.2.2.2 (putFrame l 1 r.2.1 r.1 { r.2.2.1 with sentSinceCredit := k.sentSinceCredit + 1 } s)
        else putFrame l 0 0x7F (List.replicate 4096 0) k s
      maybeRekey l before (releaseTransit l (settleHold l (settleCredit l s)))

/-- Segments acknowledged leave their passes' outstanding ones. -/
def ackSegs (l : Nat) (gone : Word → Bool) (s : State) : State :=
  let xs := (linkOf l s).unacked.filter fun x => gone x.2
  xs.foldl (fun s x => if x.1.pass == 0 then s else modPass (x.1.pass - 1) (fun p => { p with outstanding := p.outstanding.erase x.1.num }) s)
    (modLink l (fun k => { k with unacked := k.unacked.filter fun x => !gone x.2 }) s)

/-- Whether one frame number is at or before another, on the wrapping circle. -/
def seqLe (a b : W32) : Bool := decide ((b - a).toNat < 2 ^ 31)

/-- The header of a frame whose CRC holds: acknowledgment, NAK and CREDIT (R298 to R300). A frame already retried 16 times takes the
link Down (R297). -/
def takeHeader (l : Nat) (f : Frame) (s : State) : State :=
  let ack : W32 := BitVec.ofNat 32 (fieldNat f.h0 32 32)
  let moved := (linkOf l s).retry.any fun x => seqLe x.1 ack
  let s := modLink l (fun k => { k with
    retry := k.retry.filter fun x => !seqLe x.1 ack
    resend := k.resend.filter fun x => !seqLe x.1 ack
    txAcked := if moved then ack else k.txAcked
    txAckedAt := if moved then mono s else k.txAckedAt
    credit := fieldNat f.h0 16 16, sentSinceCredit := 0 }) s
  let s := settleCredit l (ackSegs l (fun q => seqLe (q.setWidth 32) ack) s)
  if bitOf f.h0 5 then
    if (linkOf l s).retry.any fun x => decide (16 ≤ x.2.2) then dropLink l s
    else modLink l (fun k => { k with resend := k.retry }) s
  else s

/-- Whether a frame's CRC holds. -/
def frameOk (f : Frame) : Bool :=
  f.body.length == 4096 && (crc32c (wordBytes f.h0 ++ leBytes 4 (fieldNat f.h1 0 32) ++ f.body)).toNat == fieldNat f.h1 32 32

/-- A frame that is lost: it and every later one are discarded until the retry arrives, and NAK is sent once (R299). -/
def loseFrame (l : Nat) (s : State) : State :=
  modLink l (fun k => if k.rxBad then k else { k with rxBad := true, nakDue := true }) s

/-- FRAME_RECEIVE (R298, R299): the CRC, the order of frames and the header; the items in the body are commands of their own. -/
def execFrameReceive (l : Fin 36) (f : Frame) (s : State) : Out :=
  .next <|
    let k := linkOf l s
    if k.state < 2 || k.farActive then s
    else if !frameOk f then loseFrame l s
    else if decide (2 < fieldNat f.h0 0 4) || fieldNat f.h0 13 3 != 0 then formFailure l s
    else
      let seq : W32 := BitVec.ofNat 32 (fieldNat f.h1 0 32)
      let s := takeHeader l f s
      if seq == k.rxNext then
        modLink l (fun k => if k.state < 2 then k else { k with
          rxNext := k.rxNext + 1, rxBad := false
          keyRx := if (vget k.rxKeys (slotIx (bitOf f.h0 4)) {}).valid then bitOf f.h0 4 else k.keyRx
          rxData := if fieldNat f.h0 0 4 == 1 && k.state == 3 then k.rxData ++ f.body else k.rxData }) s
      else if (k.rxNext - seq).toNat ≤ 2048 then s
      else if (seq - k.rxNext).toNat ≤ 2048 then loseFrame l s
      else if k.state == 3 then replayFailure l s
      else s

/-! ## Reed-Solomon parity (R349) -/

/-- Doubling in GF(2^8) with polynomial x^8 + x^4 + x^3 + x^2 + 1. -/
def rsDouble (a : Byte) : Byte := if a.getLsbD 7 then (a <<< 1) ^^^ 0x1D else a <<< 1

/-- A product in the field. -/
def rsMul (a b : Byte) : Byte :=
  ((List.range 8).foldl (fun (p : Byte × Byte) i => (if b.getLsbD i then p.1 ^^^ p.2 else p.1, rsDouble p.2)) (0, a)).1

/-- An inverse in the field: the 254th power. -/
def rsInv (a : Byte) : Byte :=
  (List.range 7).foldl (fun (p : Byte × Byte) _ => (rsMul p.1 (rsMul p.2 p.2), rsMul p.2 p.2)) (1, a) |>.1

/-- The Cauchy coefficient of parity shard `j` for data shard `k`. -/
def cauchy (j k : Nat) : Byte := rsInv (BitVec.ofNat 8 (16 + j) ^^^ BitVec.ofNat 8 k)

/-- A byte row added to another with a coefficient. -/
def rowAdd (c : Byte) (xs ys : List Byte) : List Byte := List.zipWith (fun x y => y ^^^ rsMul c x) xs ys

/-- The parity body of a stripe's shard images. -/
def parityBody (j : Nat) (images : List (Nat × List Byte)) : List Byte :=
  images.foldl (fun acc x => rowAdd (cauchy j x.1) x.2 acc) (List.replicate 4104 0)

/-- One column eliminated from the equations that remain: each is its coefficients for the missing shards and its bytes. -/
def eliminate (c : Nat) (pivot : List Byte × List Byte) (eqs : List (List Byte × List Byte)) : List (List Byte × List Byte) :=
  eqs.map fun e =>
    let f := e.1.getD c 0
    (rowAdd f pivot.1 e.1, rowAdd f pivot.2 e.2)

/-- The missing shards solved column by column: the solved equations in order, none when they do not determine them. -/
def solve : Nat → Nat → List (List Byte × List Byte) → List (List Byte × List Byte) → Option (List (List Byte × List Byte))
  | 0, _, done', _ => some done'
  | n + 1, c, done', eqs =>
    match eqs.findIdx? fun e => e.1.getD c 0 != 0 with
    | none => none
    | some i =>
      let e := eqs.getD i ([], [])
      let v := rsInv (e.1.getD c 0)
      let p := (e.1.map (rsMul v), e.2.map (rsMul v))
      solve n (c + 1) (eliminate c p done' ++ [p]) (eliminate c p (eqs.eraseIdx i))

/-- The shard images of a stripe rebuilt from any 16 of its frames. -/
def rebuildStripe (held : List (Nat × List Byte)) : Option (List (Nat × List Byte)) :=
  let data := held.filter fun x => x.1 < 16
  let miss := (List.range 16).filter fun i => !(data.any fun x => x.1 == i)
  let eqs := (held.filter fun x => 16 ≤ x.1).map fun p =>
    (miss.map fun m => cauchy (p.1 - 16) m, data.foldl (fun acc x => rowAdd (cauchy (p.1 - 16) x.1) x.2 acc) p.2)
  match solve miss.length 0 [] eqs with
  | some r => some (data ++ List.zipWith (fun m e => (m, e.2)) miss r)
  | none => none

/-! ## Far frames as they leave (R348, R349) -/

/-- The bit of FAR_LINKS that stands for a link (R334). -/
def farBit (l : Nat) : Nat := match l with | 16 => 0 | 17 => 1 | 34 => 2 | _ => 3

/-- The EtherType of a far link: that of the pen pals that use it. -/
def farType (l : Nat) (s : State) : Option (BitVec 16) :=
  (s.pals.find? fun p => p.farLinks.getLsbD (farBit l)).map fun p => p.ethertype

/-- A far frame sent (Table 13-6). -/
def putFar (l type first shard orig stripe : Nat) (keyId : Bool) (parity : Nat) (body : List Byte) (s : State) : State :=
  let k := linkOf l s
  let h0 := type + (if keyId then 16 else 0) + first * 2 ^ 5 + shard * 2 ^ 12 + parity * 2 ^ 17 + orig * 2 ^ 21
  let head := leBytes 8 h0 ++ leBytes 8 stripe ++ wordBytes (now s)
  let f : FarFrame := { dest := k.far.peerMac, src := k.far.mac, ethertype := (farType l s).getD 0, h0 := BitVec.ofNat 64 h0
                        h1 := BitVec.ofNat 64 stripe, h2 := now s, h3 := (crc32c (head ++ body)).setWidth 64, body := body, fcsOk := true }
  { s with sentFar := s.sentFar ++ [(l, f)] }

/-- The header word of a shard image. -/
def imageWord (img : List Byte) : Word := BitVec.ofNat 64 (leNat (img.take 8))

/-- One repair frame sent from the retransmit buffer, with the KEY_ID of its shard (R350, R355). -/
def sendRepair (l : Nat) (x : Nat × Nat) (rest : List (Nat × Nat)) (s : State) : State :=
  let s := modLink l (fun k => { k with far := { k.far with repairQ := rest } }) s
  match (tgetD (linkOf l s).far.retransmit x.1 []).find? fun y => y.1 == x.2 with
  | none => s
  | some (_, img) =>
    let w := imageWord img
    modLink l (fun k => { k with far := { k.far with repaired := k.far.repaired + 1 } })
      (putFar l 4 (fieldNat w 5 7) x.2 (fieldNat w 0 4) x.1 (bitOf w 4) (fieldNat w 17 4) (img.drop 8) s)

/-- A data or control shard of the open stripe sent and kept. -/
def sendShard (l type first : Nat) (body : List Byte) (k : Link) (s : State) : State :=
  let n := slotIx k.keyTx
  let key := vget k.txKeys n {}
  let f := k.far
  let h0 := type + (if k.keyTx then 16 else 0) + first * 2 ^ 5 + f.txShard * 2 ^ 12 + f.txParity * 2 ^ 17
  let img := (f.txShard, leBytes 8 h0 ++ body)
  let last := f.txShard == 15 && f.txParity == 0
  let k := { k with
    txKeys := vset k.txKeys n { key with items := key.items + 1 }, ctlGap := if type == 2 then 127 else k.ctlGap - 1
    far := { f with
      txShard := if last then 0 else f.txShard + 1, txStripe := if last then f.txStripe + 1 else f.txStripe
      txBody := if f.txShard == 15 then [] else f.txBody ++ [img]
      retransmit := tset f.retransmit f.txStripe (tgetD f.retransmit f.txStripe [] ++ [img]) } }
  putFar l type first f.txShard 0 f.txStripe k.keyTx f.txParity body { s with links := tset s.links l k }

/-- A parity frame sent; after the last the next stripe opens. -/
def sendParity (l : Nat) (s : State) : State :=
  let f := (linkOf l s).far
  let j := f.txShard - 16
  let body := parityBody j (tgetD f.retransmit f.txStripe [])
  let s := putFar l 3 0x7F f.txShard 0 f.txStripe (linkOf l s).keyTx f.txParity body s
  modLink l (fun k => { k with far := { k.far with
    txShard := if j + 1 == f.txParity then 0 else f.txShard + 1
    txStripe := if j + 1 == f.txParity then f.txStripe + 1 else f.txStripe } }) s

/-- A stripe opened: PARITY is taken and a new key comes into use (R349, R351, R355). -/
def openStripe (k : Link) : Link :=
  if k.far.txShard != 0 then k
  else { k with keyTx := k.far.keyNext.getD k.keyTx, far := { k.far with txParity := k.far.parity, keyNext := none } }

/-- The next far frame: a repair, parity of a full stripe, control under its pacing, or data that the receiver and the
retransmit buffer of 1 GiB have room for (R350). -/
def sendFar (l : Nat) (s : State) : State :=
  let k0 := linkOf l s
  match k0.far.repairQ with
  | x :: rest => sendRepair l x rest s
  | [] =>
    if 16 ≤ k0.far.txShard then sendParity l s
    else
      let k := openStripe k0
      let ctl := !(takeControl k).1.isEmpty
      let data := dataWaits k && !k.far.rekeyLate && decide (4096 * (k.sentSinceCredit + 1) ≤ k.far.freeMib * 1048576)
      let room := decide (65664 * (k.far.retransmit.length + 1) ≤ 1073741824)
      if !room then s
      else if ctl && (!data || k.ctlGap == 0) then
        let r := controlBody k
        sendShard l 2 0 r.1 r.2 s
      else if data then
        let r := dataBody (BitVec.ofNat 64 k.far.txStripe) k
        settleHold l (countTx r.2.2.2 (sendShard l 1 r.2.1 r.1 { r.2.2.1 with sentSinceCredit := k.sentSinceCredit + 1 } s))
      else s

/-- FRAME_TRANSMIT (R298, R300, R305, R348 to R350): the link's next frame, none while it retrains lanes or is Down. -/
def execFrameTransmit (l : Fin 36) (s : State) : Out :=
  .next <|
    let s := if l.val == 0 || l.val == 18 then sendMirror s else s
    let k := linkOf l s
    if k.state < 2 || k.retrainUntil.isSome then s
    else if k.farActive then releaseTransit l (sendFar l s)
    else sendFrame l s

/-! ## Far frames as they arrive (R349, R350, R352) -/

/-- The largest sample of the last millisecond, and the mean of those of the 100 ms before it. -/
def delayStats (xs : List (Word × Nat)) (s : State) : Nat × Option Nat :=
  let recent' := xs.filter fun x => nsSince x.1 (mono s) ≤ 1000000
  let before := xs.filter fun x => 1000000 < nsSince x.1 (mono s)
  (recent'.foldl (fun m x => max m x.2) 0, if before.isEmpty then none else some (sumNat (before.map Prod.snd) / before.length))

/-- A sample added to those of the last 101 ms. -/
def addSample (d : Nat) (xs : List (Word × Nat)) (s : State) : List (Word × Nat) :=
  (xs.filter fun x => nsSince x.1 (mono s) ≤ 101000000) ++ [(mono s, d)]

/-- FAR_DELAY, the skew and change flags, and the contract's delay timer brought up to date (R352, R353). -/
def judgeDelays (l : Nat) (s : State) : State :=
  let f := (linkOf l s).far
  let half := !s.time.timeLocked || !f.peerLocked
  let fwd := if half then f.rttNs.toNat / 2 else (delayStats f.fwds s).1
  let rev := if half then f.rttNs.toNat / 2 else (delayStats f.delays s).1
  let skewed := decide (fwd + 100000 < rev) || decide (rev + 100000 < fwd)
  let mean := (delayStats f.delays s).2
  let off := match mean with | some m => decide (m + 50000 < rev) || decide (rev + 50000 < m) | none => false
  let slow := decide (f.delayMaxUs.toNat * 1000 < rev)
  let s := if off && !f.delayOff then raiseFar l 1 (raiseEvent 0x46 [l, mean.getD 0, rev] s) else s
  let s := if skewed && (match f.skewSince with | some t => decide (1000000000 ≤ nsSince t (mono s)) | none => false) then
      raiseFar l 2 (modLink l (fun k => { k with far := { k.far with skewSince := some (mono s) } }) s) else s
  modLink l (fun k => { k with far := { k.far with
    fwdNs := BitVec.ofNat 32 fwd, revNs := BitVec.ofNat 32 rev, delayOff := off
    skewSince := if skewed then some (k.far.skewSince.getD (mono s)) else none
    overSince := if slow then some (k.far.overSince.getD (mono s)) else none
    inContractSince := if k.far.outOfContract && !slow && k.state == 3
        && decide (k.lastRetried * 2 ^ 20 ≤ k.far.lossMax.toNat * max 1 k.lastFrames) then
      some (k.far.inContractSince.getD (mono s)) else none } }) s

/-- Stripes delivered in order: the data bodies join the receive stream. -/
def deliverStripes : Nat → Link → Link
  | 0, k => k
  | fuel + 1, k =>
    match tget? k.far.rxStripes k.far.nextStripe with
    | none => k
    | some x =>
      if (List.range 16).all fun i => x.1.any fun y => y.1 == i then
        let body := (List.range 16).flatMap fun i =>
          match x.1.find? fun y => y.1 == i with
          | some y => if fieldNat (imageWord y.2) 0 4 == 1 then y.2.drop 8 else []
          | none => []
        deliverStripes fuel { k with
          rxData := if k.state == 3 then k.rxData ++ body else k.rxData
          far := { k.far with nextStripe := k.far.nextStripe + 1, rxStripes := tdel k.far.rxStripes k.far.nextStripe
                              resent := k.far.resent.filter fun y => y.1 != k.far.nextStripe } }
      else k

/-- Stripes of a link delivered. -/
def deliverFar (l : Nat) (s : State) : State := modLink l (fun k => deliverStripes (k.far.rxStripes.length + 1) k) s

/-- A shard kept in its stripe, unless it is held already or the stripe has been delivered. -/
def keepShard (stripe shard parity : Nat) (img : List Byte) (t : Word) (f : FarSt) : FarSt :=
  if stripe < f.nextStripe then f
  else
    let x := (tget? f.rxStripes stripe).getD ([], parity, t)
    if x.1.any fun y => y.1 == shard then f
    else { f with rxStripes := tset f.rxStripes stripe (x.1 ++ [(shard, img)], x.2) }

/-- Whether a far frame is taken: addressed to this link, its FCS and CRC holding, its type and length known (R348, R350). -/
def farOk (l : Nat) (f : FarFrame) (s : State) : Bool :=
  let t := fieldNat f.h0 0 4
  f.fcsOk && f.dest == (linkOf l s).far.mac && (match farType l s with | some e => e == f.ethertype | none => true)
    && decide (1 ≤ t) && decide (t ≤ 4) && f.body.length == (if t == 3 then 4104 else 4096)
    && (crc32c (wordBytes f.h0 ++ wordBytes f.h1 ++ wordBytes f.h2 ++ f.body)).toNat == fieldNat f.h3 0 32
    && (if t == 3 then decide (16 ≤ fieldNat f.h0 12 5) && decide (fieldNat f.h0 12 5 < 24) else decide (fieldNat f.h0 12 5 < 16))

/-- FAR_FRAME_RECEIVE (R348 to R352). -/
def execFarFrameReceive (l : Fin 36) (f : FarFrame) (s : State) : Out :=
  .next <|
    let k := linkOf l s
    if k.state < 2 || !k.farActive then s
    else if !farOk l f s then s
    else
      let t := fieldNat f.h0 0 4
      let w := if t == 4 then (f.h0 &&& ~~~ (0x1E0000F : Word)) ||| BitVec.ofNat 64 (fieldNat f.h0 21 4) else f.h0
      let img := if t == 3 then f.body else wordBytes w ++ f.body
      let d := nsSince f.h2 (now s)
      let s := modLink l (fun k => { k with
        keyRx := if t != 4 && (vget k.rxKeys (slotIx (bitOf f.h0 4)) {}).valid then bitOf f.h0 4 else k.keyRx
        far := { keepShard (fieldNat f.h1 0 48) (fieldNat f.h0 12 5) (fieldNat f.h0 17 4) img (mono s) k.far with
          lastFrame := f.h2, lastArrival := now s, heardAt := mono s, delays := addSample d k.far.delays s
          repaired := if t == 4 then k.far.repaired + 1 else k.far.repaired } }) s
      deliverFar l (judgeDelays l (tickWindow l 1 (if t == 4 then 1 else 0) s))

/-- Whether a stripe is overdue: 20 us after its first frame, or once a frame of stripe n + 8 has arrived. -/
def stripeDue (stripe : Nat) (k : Link) (s : State) : Bool :=
  decide (k.far.nextStripe ≤ stripe) &&
    ((match tget? k.far.rxStripes stripe with | some x => decide (20000 ≤ nsSince x.2.2 (mono s)) | none => false)
     || k.far.rxStripes.any fun x => decide (stripe + 8 ≤ x.1))

/-- FAR_RESEND for what a stripe lacks (Table 13-7). -/
def askRepair (l stripe : Nat) (s : State) : State :=
  let held := ((tget? (linkOf l s).far.rxStripes stripe).map fun x => x.1).getD []
  let mask := sumNat (((List.range 16).filter fun i => !(held.any fun y => y.1 == i)).map fun i => 2 ^ i)
  sendItem l (mkItem 0x21 0 (BitVec.ofNat 64 stripe) (BitVec.ofNat 64 mask) 0 0 0)
    (modLink l (fun k => { k with far := { k.far with resent := k.far.resent.filter (fun y => y.1 != stripe) ++ [(stripe, mono s)] } }) s)

/-- STRIPE_OVERDUE (R350): 16 frames held rebuild the missing shards; otherwise they are asked for. -/
def execStripeOverdue (l : Fin 36) (stripe : BitVec 48) (s : State) : Out :=
  .next <|
    let k := linkOf l s
    let n := stripe.toNat
    let held := ((tget? k.far.rxStripes n).map fun x => x.1).getD []
    if !k.farActive || !stripeDue n k s || k.far.resent.any (fun y => y.1 == n) then s
    else if held.length < 16 then askRepair l n s
    else match rebuildStripe held with
      | none => askRepair l n s
      | some imgs =>
        let made := imgs.length - held.countP fun x => x.1 < 16
        let s := modLink l (fun k => { k with far := { k.far with
          repaired := k.far.repaired + BitVec.ofNat 32 made
          rxStripes := match tget? k.far.rxStripes n with | some x => tset k.far.rxStripes n (imgs, x.2) | none => k.far.rxStripes } }) s
        deliverFar l (tickWindow l 0 made s)

/-- REPAIR_REREQUEST (R350): a repair has not come within twice the round trip plus 20 us. -/
def execRepairRerequest (l : Fin 36) (stripe : BitVec 48) (s : State) : Out :=
  .next <|
    let k := linkOf l s
    match k.far.resent.find? fun y => y.1 == stripe.toNat with
    | some y => if k.farActive && decide (2 * k.far.rttNs.toNat + 20000 ≤ nsSince y.2 (mono s)) then askRepair l stripe.toNat s else s
    | none => s

/-- FAR_ACK_SEND (R350): every 10 us while frames arrive, every 1 ms otherwise. -/
def execFarAckSend (l : Fin 36) (s : State) : Out :=
  .next <|
    let k := linkOf l s
    let f := k.far
    let due := if nsSince f.heardAt (mono s) ≤ 10000 then 10000 else 1000000
    if k.state != 3 || !k.farActive || decide (nsSince f.ackAt (mono s) < due) then s
    else
      let whole (n : Nat) : Bool := match tget? f.rxStripes n with
        | some x => (List.range 16).all fun i => x.1.any fun y => y.1 == i
        | none => false
      let bits := sumNat (((List.range 64).filter fun i => whole (f.nextStripe + 1 + i)).map fun i => 2 ^ i)
      let used := sumNat (f.rxStripes.map fun x => x.2.1.length * 4104)
      let free := (1073741824 - used) / 1048576
      sendItem l (mkItem 0x20 0 (BitVec.ofNat 64 (f.nextStripe % 2 ^ 48 + free * 2 ^ 48)) (BitVec.ofNat 64 bits) f.lastFrame f.lastArrival
        (if s.time.timeLocked then 1 else 0)) (modLink l (fun k => { k with far := { k.far with ackAt := mono s } }) s)

/-- FAR_ACK_RECEIVE (R350, R352): stripes covered leave the retransmit buffer, and the forward delay and round trip are known. -/
def execFarAckReceive (l : Fin 36) (it : Item) (t3 : Word) (s : State) : Out :=
  .next (withItem l it 0x20 (fun s =>
    if !(linkOf l s).farActive then s
    else
      let next := fieldNat it.w1 0 48
      let covered (n : Nat) : Bool := decide (n < next) || (decide (next < n) && decide (n ≤ next + 64) && it.w2.getLsbD (n - next - 1))
      let rtt := nsSince it.w3 (now s) - nsSince it.w4 t3
      let s := modLink l (fun k => { k with
        sentSinceCredit := 0
        far := { k.far with
          retransmit := k.far.retransmit.filter fun x => !covered x.1
          repairQ := k.far.repairQ.filter fun x => !covered x.1
          sentAgain := k.far.sentAgain.filter fun x => !covered x.1
          freeMib := fieldNat it.w1 48 16, rttNs := BitVec.ofNat 32 rtt, peerLocked := bitOf it.w5 0
          fwds := addSample (nsSince it.w3 it.w4) k.far.fwds s } }) s
      judgeDelays l (ackSegs l (fun q => covered q.toNat) s)) s)

/-- FAR_RESEND_RECEIVE (R350): the missing shards are sent as repair frames; a shard sent again 16 times takes the link Down
(R347). -/
def execFarResendReceive (l : Fin 36) (it : Item) (s : State) : Out :=
  .next (withItem l it 0x21 (fun s =>
    let n := fieldNat it.w1 0 48
    let held := tgetD (linkOf l s).far.retransmit n []
    let want := (List.range 16).filter fun i => it.w2.getLsbD i && held.any fun y => y.1 == i
    let times (i : Nat) : Nat := (((linkOf l s).far.sentAgain.find? fun y => y.1 == n && y.2.1 == i).map fun y => y.2.2).getD 0
    if want.any fun i => decide (16 ≤ times i) then dropLink l s
    else modLink l (fun k => { k with far := { k.far with
      repairQ := k.far.repairQ ++ want.map fun i => (n, i)
      sentAgain := k.far.sentAgain.filter (fun y => !(y.1 == n && want.contains y.2.1)) ++ want.map fun i => (n, i, times i + 1) } }) s) s)

/-- FAR_SILENCE_TIMEOUT (R347): no far frame for 220 ms. -/
def execFarSilenceTimeout (l : Fin 36) (s : State) : Out :=
  .next <|
    let k := linkOf l s
    if decide (2 ≤ k.state) && k.farActive && decide (220000000 ≤ nsSince k.far.heardAt (mono s)) then dropLink l s else s

/-! ## The contract (R353) -/

/-- Whether another far link to the same partner is Up and in contract. -/
def otherFarRoute (l : Nat) (s : State) : Bool :=
  [16, 17, 34, 35].any fun m => m != l && (linkOf m s).state == 3 && (linkOf m s).farActive && !(linkOf m s).far.outOfContract
    && (linkOf m s).partner == (linkOf l s).partner

/-- Whether a far path is out of its contract now: too slow for 100 ms, too many repairs over a second, or Down alone. -/
def pathBroken (l : Nat) (s : State) : Bool :=
  let k := linkOf l s
  (match k.far.overSince with | some t => decide (100000000 ≤ nsSince t (mono s)) | none => false)
    || decide (k.far.lossMax.toNat * k.lastFrames < k.lastRetried * 2 ^ 20)
    || (k.state == 0 && k.partner != 0 && !otherFarRoute l s)

/-- PATH_OUT_OF_CONTRACT (R353): every pass with an unacknowledged segment on the path ends as VOID_PATH at every member. -/
def execPathOutOfContract (l : Fin 36) (s : State) : Out :=
  .next <|
    let k := linkOf l s
    if !farCapable l || !k.ctlFar || k.far.outOfContract || !pathBroken l s then s
    else
      let ids := ((k.unacked.map fun x => x.1.pass) ++ (match k.leaving with | some x => [x.1.pass] | none => []) ++ k.egress.map fun x => x.pass).eraseDups
      let mean := (delayStats k.far.delays s).2
      let s := raiseFar l 0 (raiseEvent 0x47 [l, mean.getD 0, k.far.revNs.toNat] s)
      let s := modLink l (fun k => { k with far := { k.far with outOfContract := true, inContractSince := none } }) s
      (ids.filter fun i => i != 0).foldl (fun s i =>
        match passOf (i - 1) s with
        | some p => voidPass p stVoidPath 0 (now s) (if p.round.isSome then s else sendVoid p stVoidPath 0 s)
        | none => s) s

/-- PATH_BACK_IN_CONTRACT (R353): the path has been in contract for 10 s. -/
def execPathBackInContract (l : Fin 36) (s : State) : Out :=
  .next <|
    let k := linkOf l s
    match k.far.inContractSince with
    | some t =>
      if k.far.outOfContract && k.state == 3 && decide (10000000000 ≤ nsSince t (mono s)) then
        modLink l (fun k => { k with far := { k.far with outOfContract := false, inContractSince := none } }) s
      else s
    | none => s

/-! ## Far registers (R351) -/

/-- FAR_FLAGS_CLEAR (R7, R351). -/
def execFarFlagsClear (p : Port) (l : Fin 36) (value : BitVec 5) (coincident : BitVec 5) (s : State) : Out :=
  .next (if !farCapable l then regAccess p id s
    else raiseEach 5 coincident.toNat (raiseFar l)
      (regAccess p (fun s => modLink l (fun k => { k with far := { k.far with flags := k.far.flags &&& ~~~ value } }) s) s))

/-- FAR_REPAIRED_READ (R446). -/
def execFarRepairedRead (p : Port) (l : Fin 36) (whole : Bool) (coincident : BitVec 32) (s : State) : Out :=
  .next (if !farCapable l then readAccess p (readsAs p 0) s
    else modLink l (fun k => { k with far := { k.far with repaired := k.far.repaired + coincident } })
      (readAccess p (fun s => readsAs p ((linkOf l s).far.repaired.setWidth 64)
        (if whole then modLink l (fun k => { k with far := { k.far with repaired := 0 } }) s else s)) s))

/-- FAR_CONTRACT_WRITE (R351): a field outside its range keeps its value. -/
def execFarContractWrite (p : Port) (l : Fin 36) (value : Word) (s : State) : Out :=
  .next (regAccess p (fun s =>
    if !farCapable l then s
    else
      let d := fieldNat value 0 13
      let q := fieldNat value 32 4
      modLink l (fun k => { k with far := { k.far with
        delayMaxUs := if decide (1 ≤ d) && decide (d ≤ 5000) then BitVec.ofNat 13 d else k.far.delayMaxUs
        lossMax := BitVec.ofNat 16 (fieldNat value 16 16)
        parity := if q ≤ 8 then q else k.far.parity } }) s) s)

end Sys2Proof.Machine
end

