-- ==== Sys2Proof/Machine/Time.lean ====
section
/-!
DEFINITION. Machine/Time.lean: DTIME's advance and its alignment to PPS, 10 MHz and IEEE 1588 (R12, R454, R468, R469), and the
telemetry read over SMBus (R463). Intervals are measured by the model's own clock (notes/assumptions/7.md).
-/

namespace Sys2Proof.Machine

/-! ## One cycle of TCLK (R12) -/

/-- Cycles between two slewing cycles: 4 ns in 20,000 cycles of 4 ns is 50 ppm. -/
def slewCycles : Nat := 20000

/-- What is left of a slew once a slewing cycle has taken its 4 ns; less than 4 ns ends it. -/
def slewAfter (x : Int) : Int := if 4 ≤ x then x - 4 else if x ≤ -4 then x + 4 else x

/-- TIME_LOCKED once a source returns and the offset has slewed to 1 us or less (R469). -/
def relocked (x : TimeSt) : Bool := x.timeLocked || ((x.source == 1 || x.source == 2) && decide (x.slewLeft.natAbs ≤ 1000))

/-- A cycle of a slew: every 20,000th adds 8 ns or 0 ns in place of 4 ns. -/
def slewTick (x : TimeSt) : TimeSt :=
  if x.slewPhase + 1 < slewCycles then { x with dtime := x.dtime + 4, slewPhase := x.slewPhase + 1 }
  else
    let left := slewAfter x.slewLeft
    let y : TimeSt := { x with
      dtime := x.dtime + (if 0 < x.slewLeft then 8 else 0), slewPhase := 0, slewLeft := left, slewing := decide (4 ≤ left.natAbs) }
    { y with timeLocked := relocked y }

/-- One cycle of TCLK: what an idle step is (notes/assumptions/8.md). DTIME runs from its first lock. -/
def tickTime (x : TimeSt) : TimeSt :=
  let y := if !x.firstLock then x else if x.slewing then slewTick x else { x with dtime := x.dtime + 4 }
  { y with ticks := x.ticks + 1 }

/-- The block with no command waiting: a cycle of TCLK passes. -/
def tick (s : State) : State := modTime tickTime s

/-! ## Sources (R454, R468, R469) -/

/-- DTIME compared with a source: a slew of the difference begins. `src` is TIME_STATUS.SOURCE. -/
def compareTime (src : BitVec 2) (offset : Int) (at' : Word) (x : TimeSt) : TimeSt :=
  let y : TimeSt := { x with
    offset := offset, slewLeft := -offset, slewing := decide (4 ≤ offset.natAbs), slewPhase := if x.slewing then x.slewPhase else 0
    source := src, lastSourceAt := at', holdoverSince := none }
  { y with timeLocked := decide (offset.natAbs ≤ 1000) }

/-- DTIME minus the whole second nearest to it: the offset of a PPS edge. -/
def ppsOffset (d : Word) : Int :=
  let r : Nat := d.toNat % 1000000000
  if r ≤ 500000000 then (r : Int) else (r : Int) - 1000000000

/-- Whether two moments lie 1 s ± 1 ms apart. -/
def oneSecond (t u : Word) : Bool := decide (999000000 ≤ nsSince t u) && decide (nsSince t u ≤ 1001000000)

/-- The last PPS edge of any kind. -/
def lastEdge (x : TimeSt) : Option Word :=
  match x.lastPps, x.lastIgnored with
  | some a, some b => some (if a.toNat ≤ b.toNat then b else a)
  | some a, none => some a
  | none, y => y

/-- An accepted edge: from first lock on, and where SOURCE_SEL permits it, DTIME is compared with it. -/
def takeEdge (t : Word) (x : TimeSt) : TimeSt :=
  let y : TimeSt := { x with lastPps := some t, lastIgnored := none, ignoredPps := 0 }
  if y.firstLock && y.sourceSel != 2 then compareTime 1 (ppsOffset y.dtime) t y else y

/-- PPS_EDGE (R468): the edge is captured; one that is not 1 s ± 1 ms after the last accepted edge is ignored, until three ignored in a
row, 1 s ± 1 ms apart, make the new phase. -/
def execPpsEdge (s : State) : Out :=
  .next <|
    let t := mono s
    modTime (fun x =>
      let y : TimeSt := { x with ppsCapture := x.dtime, ppsPresent := true }
      let fits := match x.lastPps with | some a => oneSecond a t | none => true
      if fits then takeEdge t y
      else
        let n := match x.lastIgnored with | some b => if oneSecond b t then x.ignoredPps + 1 else 1 | none => 1
        if 3 ≤ n then takeEdge t y else { y with lastIgnored := some t, ignoredPps := n }) s

/-- Whether a moment lies within the last 1.5 s. -/
def heardLately (t : Option Word) (s : State) : Bool :=
  match t with
  | some u => decide (nsSince u (mono s) < 1500000000)
  | none => false

/-- PTP_MESSAGE (R469): a one-step or two-step time message of the domain in use; `offsetNs` is DTIME minus the grandmaster's time. Other
frames are discarded. -/
def execPtpMessage (domain : BitVec 8) (sync : Bool) (offsetNs : Int) (s : State) : Out :=
  .next <|
    if !sync || domain != s.time.ptpDomain then s
    else
      let s := modTime (fun x => { x with lastPtp := some (mono s) }) s
      if s.time.firstLock && (s.time.sourceSel == 2 || (s.time.sourceSel == 0 && !s.time.ppsPresent)) then
        modTime (compareTime 2 offsetNs (mono s)) s
      else s

/-- TIME_SOURCE_LOSS (R469): no permitted source for 1.5 s; the device is in holdover. -/
def execTimeSourceLoss (s : State) : Out :=
  .next <|
    if s.time.firstLock && s.time.source != 3 && decide (1500000000 ≤ nsSince s.time.lastSourceAt (mono s)) then
      raiseDev 24 (modTime (fun x => { x with source := 3, holdoverSince := some (mono s) }) s)
    else s

/-- HOLDOVER_EXPIRY (R469): 60 s of holdover. -/
def execHoldoverExpiry (s : State) : Out :=
  .next <|
    match s.time.holdoverSince with
    | some t =>
      if s.time.source == 3 && decide (60000000000 ≤ nsSince t (mono s)) then modTime (fun x => { x with timeLocked := false }) s else s
    | none => s

/-- Where the source in use is no longer permitted or present, the one that is takes its place at once (R454, R469). -/
def reselect (s : State) : State :=
  let ptp := s.time.sourceSel != 1 && heardLately s.time.lastPtp s
  let pps := s.time.sourceSel != 2 && s.time.ppsPresent
  if s.time.source == 1 && !pps && ptp then modTime (fun x => { x with source := 2, lastSourceAt := x.lastPtp.getD x.lastSourceAt }) s
  else if s.time.source == 2 && !ptp && pps then modTime (fun x => { x with source := 1, lastSourceAt := x.lastPps.getD x.lastSourceAt }) s
  else s

/-- TIME_CTRL_WRITE (R454): SOURCE_SEL 3 is ignored; a change takes effect by slewing alone. -/
def execTimeCtrlWrite (p : Port) (value : Word) (s : State) : Out :=
  .next (regAccess p (fun s =>
    let sel : BitVec 2 := value.setWidth 2
    reselect (modTime (fun x => { x with
      sourceSel := if sel == 3 then x.sourceSel else sel, ptpDomain := BitVec.ofNat 8 (fieldNat value 8 8) }) s)) s)

/-- PPS_PRESENT_LOST (R454, R469): no PPS edge for 1.5 s; with SOURCE_SEL 0 IEEE 1588 takes over where it is heard. -/
def execPpsPresentLost (s : State) : Out :=
  .next <|
    if s.time.ppsPresent && !heardLately (lastEdge s.time) s then reselect (modTime (fun x => { x with ppsPresent := false }) s) else s

/-- REF10_PRESENT_CHANGE (R468, R469): the 10 MHz input enters or leaves ±5 ppm; while within, it disciplines the oscillator. -/
def execRef10PresentChange (present : Bool) (s : State) : Out :=
  .next (modTime (fun x => { x with ref10Present := present, oscDisciplined := present }) s)

/-! ## SMBus telemetry (R463, Table 19-4) -/

/-- Whether the reset controller answers: from 20 ms after the input entered its range, whatever firmware does, until the capacitors are
empty. -/
def smbUp (s : State) : Bool :=
  (s.mod.inputInRange || !s.mod.holdUpExhausted)
    && !(s.mod.stage == 0 && !s.mod.warm && decide (sinceTick s.mod.startTick s < 20000000))

/-- A block read answered. -/
def smbRead (bs : List Byte) (s : State) : State := if smbUp s then modMod (fun m => { m with smbResponse := bs }) s else s

/-- A sensor the spec gives no value of: free bytes, drawn. -/
def smbSensor (n : Nat) (s : State) : State := drawFree n (smbRead (freeBytes n s) s)

/-- VIN (R463): the input voltage in mV. -/
def execVin (s : State) : Out := .next (smbSensor 2 s)

/-- IIN (R463): the input current in units of 10 mA. -/
def execIin (s : State) : Out := .next (smbSensor 2 s)

/-- PIN (R463): the input power in W, averaged over 1 s. -/
def execPin (s : State) : Out := .next (smbSensor 2 s)

/-- The hottest stack in degrees. -/
def hottestStack (s : State) : Nat := s.memory.stk.toList.foldl (fun m k => max m k.temp.toNat) 0

/-- TEMPS (R463): ten signed bytes; of these sensors only the stacks' are state (R267). -/
def execTemps (s : State) : Out :=
  .next (drawFree 10 (smbRead (setAt (freeBytes 10 s) 8 (BitVec.ofNat 8 (hottestStack s))) s))

/-- The STATUS word (Table 19-4). -/
def statusWord (s : State) : Nat :=
  (if s.mod.inputInRange then 1 else 0) + (if s.mod.pwrGood then 2 else 0) + (if s.mod.thermTrip then 4 else 0)
    + (if s.mod.holdUpExhausted then 8 else 0) + s.mod.stage.toNat * 16

/-- STATUS (R462, R463): the status word, and SMB_ALERT_N rises. -/
def execStatus (s : State) : Out :=
  .next (modMod (fun m => { m with statusUnread := m.statusUnread && !smbUp s }) (smbRead (leBytes 2 (statusWord s)) s))

/-- Whether stage 1 has derived the identity and verified the variant record (R449, R463). -/
def identified (s : State) : Bool :=
  (decide (2 ≤ s.mod.stage.toNat) && decide (s.mod.stage.toNat ≤ 7)) || (s.mod.stage == 8 && decide (2 ≤ s.mod.failStage.toNat))

/-- IDENTITY (R463): the device identity, zero until stage 1. -/
def execIdentity (s : State) : Out := .next (smbRead (wordBytes (if identified s then s.mod.identity else 0)) s)

end Sys2Proof.Machine
end

