-- ==== Sys2Proof/Machine/Mailbox.lean ====
section
/-!
DEFINITION. Machine/Mailbox.lean: the security mailboxes and their commands (R416 to R423, Tables 16-2 to 16-4).
-/

namespace Sys2Proof.Machine

/-! ## Results (Table 16-2) -/

/-- RESULT codes of Table 16-2. -/
def mbxOk : Nat := 0
def mbxBusy : Nat := 1
def mbxBadRequest : Nat := 2
def mbxSignatureBad : Nat := 3
def mbxSvnLow : Nat := 4
def mbxNotAllowed : Nat := 5

/-- A result with its response bytes. -/
abbrev MbxAnswer := Nat × List Byte

/-- The request bytes each command takes (Table 16-3); none for an opcode that is no command. -/
def requestLength (opcode : Nat) : Option Nat :=
  match opcode with
  | 1 => some 0
  | 2 => some 36
  | 3 => some 16
  | 4 => some 0
  | 5 => some 0
  | 6 => some 0
  | 7 => some 8
  | _ => none

/-! ## Firmware slots (R416 to R419) -/

/-- A slot number as a byte: 0 A, 1 B (notes/assumptions/34.md). -/
def slotByte (b : Bool) : Byte := if b then 1 else 0

/-- TRY as a byte; its code for none is not stated. -/
def tryByte (s : State) : Byte := match s.flash.tryB with | some b => slotByte b | none => Config.freeByte s.free

/-- The SVN of a slot in two bytes; that of an empty slot is not stated. -/
def svnBytes (b : Bool) (s : State) : List Byte :=
  if (fwSlot b s).valid then leBytes 2 (fwSlot b s).svn.toNat
  else [Config.freeByte (s.free + 1 + 2 * (slotByte b).toNat), Config.freeByte (s.free + 2 + 2 * (slotByte b).toNat)]

/-- The slot that is neither running nor ACTIVE; none while a TRY image runs unconfirmed. -/
def spareSlot (s : State) : Option Bool := if s.mod.fwRunningB == s.flash.activeB then some (!s.flash.activeB) else none

/-- A slot written. -/
def setFwSlot (b : Bool) (x : FwImage) (s : State) : State := modFlash (fun f => if b then { f with slotB := x } else { f with slotA := x }) s

/-- MAGIC, VERSION, size and signature of an image (R416, R418). -/
def imageVerifies (bs : List Byte) : Bool :=
  let body := leNat ((bs.drop 16).take 4)
  leNat (bs.take 4) == 0x4C594B46 && bs.getD 4 0 == 1 && bs.length == 128 + body + 1280 && decide (bs.length ≤ 33554432)
    && sigOk Config.vendorKey (bs.take (128 + body)) (bs.drop (128 + body))

/-- SVN of an image. -/
def imageSvn (bs : List Byte) : Nat := leNat ((bs.drop 8).take 2)

/-- FW_STAGE ends (R422): the image is read through the port, written to the spare slot and verified there. Nothing can be read
through a fenced port, and such an image does not verify. -/
def endFwStage (p : Port) (req : List Byte) (s : State) : MbxAnswer × State :=
  match spareSlot s with
  | none => ((mbxNotAllowed, []), s)
  | some b =>
    let n := leNat (req.drop 8)
    let img := if (portOf p s).fenced || decide (33554432 < n) then [] else hostRead p (leNat (req.take 8)) n s
    if !imageVerifies img then ((mbxSignatureBad, []), raiseMbx p 1 (setFwSlot b { valid := false } s))
    else if imageSvn img < s.flash.minSvn.toNat then ((mbxSvnLow, []), raiseMbx p 1 (setFwSlot b { valid := false } s))
    else
      ((mbxOk, slotByte b :: leBytes 2 (imageSvn img)),
        setFwSlot b { valid := true, svn := BitVec.ofNat 16 (imageSvn img), digest := shake256 64 img } s)

/-- FW_ACTIVATE ends (R422): the spare slot's verified image is to be tried at the next start. -/
def endFwActivate (s : State) : MbxAnswer × State :=
  match spareSlot s with
  | none => ((mbxNotAllowed, []), s)
  | some b =>
    if fwGood b s then ((mbxOk, [slotByte b]), modFlash (fun f => { f with tryB := some b, tryCount := 0 }) s)
    else ((mbxNotAllowed, []), s)

/-- FW_CONFIRM ends (R419): the running TRY slot becomes ACTIVE, and MIN_SVN never falls. -/
def endFwConfirm (s : State) : MbxAnswer × State :=
  if s.mod.ready && s.flash.tryB == some s.mod.fwRunningB then
    let m := max s.flash.minSvn.toNat (fwSlot s.mod.fwRunningB s).svn.toNat
    ((mbxOk, leBytes 2 m), modFlash (fun f => { f with
      activeB := s.mod.fwRunningB, tryB := none, tryCount := 0, minSvn := BitVec.ofNat 16 m, counterWrites := f.counterWrites + 1 }) s)
  else ((mbxNotAllowed, []), s)

/-! ## What the reading commands answer (R420, R422, R423) -/

/-- The live channel of a handle that a port owns. -/
def ownChannel (p : Port) (h : W32) (s : State) : Option Chan :=
  if h == 0 || handleStale h s then none else (chanOf (fieldNat h 0 12) s).filter fun c => c.owner == p

/-- GET_IDENTITY. -/
def answerIdentity (s : State) : MbxAnswer := (mbxOk, wordBytes s.mod.identity ++ s.flash.identityRecord ++ staticKem.1)

/-- BRINGUP_STATUS (Table 15-1). -/
def bringupStatus (s : State) : Nat :=
  s.mod.stage.toNat + (if s.mod.ready then 2 ^ 4 else 0) + (if s.mod.warm then 2 ^ 5 else 0) + (if s.mod.topologyWait then 2 ^ 6 else 0)
    + (if s.mod.timeUntraceable then 2 ^ 7 else 0) + s.mod.failStage.toNat * 2 ^ 8 + s.mod.failCause.toNat * 2 ^ 12
    + (if s.mod.ready then s.mod.startMs else startMsNow s).toNat * 2 ^ 32

/-- The channel fields of an attestation report: handle, listed entries, LOG_TRUNCATED, LOG_DIGEST. -/
def attestChannel (p : Port) (h : W32) (s : State) : List Byte :=
  match ownChannel p h s with
  | some c =>
    leBytes 4 h.toNat ++ leBytes 4 (min 1024 c.log.length) ++ leBytes 4 (if 1024 < c.log.length then 1 else 0) ++ leBytes 4 0 ++ c.logDigest
  | none => List.replicate 48 0

/-- The attestation report (Table 16-4). -/
def attestReport (p : Port) (req : List Byte) (s : State) : List Byte :=
  let topo := match s.flash.topology with
    | some t => wordBytes t.generation ++ leBytes 4 t.imageCrc.toNat
    | none => leBytes 12 0
  leBytes 4 0x4C594B41 ++ leBytes 4 1 ++ wordBytes s.mod.identity ++ wordBytes (now s) ++ req.take 32
    ++ [slotByte s.mod.fwRunningB, tryByte s] ++ leBytes 2 (fwSlot s.mod.fwRunningB s).svn.toNat ++ leBytes 2 s.flash.minSvn.toNat ++ leBytes 2 0
    ++ (s.mod.fwMeasure ++ List.replicate 64 0).take 64 ++ s.flash.romDigest ++ s.flash.variantDigest ++ topo
    ++ leBytes 4 (bringupStatus s % 2 ^ 16 + (if s.mod.timeUntraceable then 2 ^ 16 else 0))
    ++ attestChannel p (BitVec.ofNat 32 (leNat (req.drop 32))) s ++ List.replicate 32 0

/-- ATTEST: the report and the device's signature over it. -/
def answerAttest (p : Port) (req : List Byte) (s : State) : MbxAnswer × State :=
  let t := drawFree 1 s
  let r := attestReport p req s
  ((mbxOk, r ++ signBytes r t), drawFree 64 t)

/-- FW_STATUS. -/
def answerFwStatus (s : State) : MbxAnswer × State :=
  ((mbxOk, [slotByte s.flash.activeB, tryByte s, BitVec.ofNat 8 s.flash.tryCount, slotByte s.mod.fwRunningB]
    ++ svnBytes false s ++ svnBytes true s ++ leBytes 2 s.flash.minSvn.toNat), drawFree 5 s)

/-- GET_LOG: at most 255 of the listed entries; a channel the port does not own lists none (notes/assumptions/34.md). -/
def answerLog (p : Port) (req : List Byte) (s : State) : MbxAnswer :=
  let es := match ownChannel p (BitVec.ofNat 32 (leNat (req.take 4))) s with
    | some c => ((c.log.take 1024).drop (leNat (req.drop 4))).take 255
    | none => []
  (mbxOk, leBytes 4 es.length ++ es.flatten)

/-! ## A command from GO to its result (R422) -/

/-- The answer a command has as soon as it starts; none for a firmware command, which answers when it ends. -/
def startAnswer (p : Port) (opcode : Nat) (req : List Byte) (s : State) : Option MbxAnswer × State :=
  match opcode with
  | 1 => (some (answerIdentity s), s)
  | 2 => ((some (answerAttest p req s).1), (answerAttest p req s).2)
  | 6 => ((some (answerFwStatus s).1), (answerFwStatus s).2)
  | 7 => (some (answerLog p req s), s)
  | _ => (none, s)

/-- A firmware command takes the engine both ports share, or ends with result 1. -/
def startFirmware (p : Port) (s : State) : Option MbxAnswer × State :=
  if s.mod.fwBusyPort.isSome then (some (mbxBusy, []), s) else (none, modMod (fun m => { m with fwBusyPort := some p }) s)

/-- What a latched command comes to at once: BAD_REQUEST, a firmware command's start, or an answer. -/
def beginCommand (p : Port) (opcode len : Nat) (req : List Byte) (s : State) : Option MbxAnswer × State :=
  if requestLength opcode != some len then (some (mbxBadRequest, []), s)
  else if 3 ≤ opcode && opcode ≤ 5 then startFirmware p s
  else startAnswer p opcode req s

/-- A GO written (R422): discarded and flagged while BUSY, else MBX_CMD and the request buffer are latched and the command runs. -/
def mbxGo (p : Port) (s : State) : State :=
  let m := (portOf p s).mailbox
  if m.busy then raiseMbx p 0 s
  else
    let req := (List.range m.reqLength.toNat).map fun i => tgetD m.request i 0
    let r := beginCommand p m.opcode.toNat m.reqLength.toNat req s
    modPort p (fun q => { q with mailbox := { q.mailbox with
      busy := true, response := [], respLength := 0, latched := some (m.opcode, m.reqLength.toNat, m.tag, req), outcome := r.1 } }) r.2

/-- A GO whose MBX_CMD names a command of Table 16-3. -/
def goCommand (opcode : BitVec 8) (p : Port) (s : State) : State :=
  regAccess p (fun s => if (portOf p s).mailbox.opcode == opcode then mbxGo p s else s) s

/-- GET_IDENTITY (R422). -/
def execGetIdentity (p : Port) (s : State) : Out := .next (goCommand 0x01 p s)

/-- ATTEST (R423): the report is as things stand at GO (Table 16-6). -/
def execAttest (p : Port) (s : State) : Out := .next (goCommand 0x02 p s)

/-- FW_STAGE (R416, R422). -/
def execFwStage (p : Port) (s : State) : Out := .next (goCommand 0x03 p s)

/-- FW_ACTIVATE (R422). -/
def execFwActivate (p : Port) (s : State) : Out := .next (goCommand 0x04 p s)

/-- FW_CONFIRM (R419). -/
def execFwConfirm (p : Port) (s : State) : Out := .next (goCommand 0x05 p s)

/-- FW_STATUS (R422). -/
def execFwStatus (p : Port) (s : State) : Out := .next (goCommand 0x06 p s)

/-- GET_LOG (R420, R422). -/
def execGetLog (p : Port) (s : State) : Out := .next (goCommand 0x07 p s)

/-- How a latched command ends: the answer it has, or its firmware command's. -/
def endCommand (p : Port) (opcode : BitVec 8) (req : List Byte) (outcome : Option MbxAnswer) (s : State) : MbxAnswer × State :=
  match outcome with
  | some a => (a, s)
  | none =>
    let s := modMod (fun m => { m with fwBusyPort := none }) s
    if opcode == 0x03 then endFwStage p req s
    else if opcode == 0x04 then endFwActivate s
    else if opcode == 0x05 then endFwConfirm s
    else ((mbxBadRequest, []), s)

/-- A command's end (R422): response, RESULT and RESP_LENGTH, then DONE, then the message. -/
def mailboxEnd (p : Port) (s : State) : State :=
  let m := (portOf p s).mailbox
  match m.latched with
  | none => s
  | some (opcode, _, tag, req) =>
    if !m.busy then s
    else
      let r := endCommand p opcode req m.outcome s
      let s := modPort p (fun q => { q with mailbox := { q.mailbox with
        busy := false, done := true, latched := none, outcome := none, statusTag := tag, result := BitVec.ofNat 8 r.1.1
        response := r.1.2, respLength := BitVec.ofNat 14 r.1.2.length } }) r.2
      if (portOf p s).mbxEn then sendMsix p (portOf p s).mbxVector.toNat s else s

/-- MAILBOX_RESULT (R422). -/
def execMailboxResult (p : Port) (s : State) : Out := .next (mailboxEnd p s)

/-- MBX_STATUS_CLEAR (R7, R421): `coincident` says the hardware ends a command in the same cycle, and DONE stays set. -/
def execMbxStatusClear (p : Port) (value : Word) (coincident : Bool) (s : State) : Out :=
  .next <|
    let s := regAccess p (fun s => modPort p (fun q => { q with mailbox := { q.mailbox with
      done := q.mailbox.done && !bitOf value 1 } }) s) s
    if coincident then mailboxEnd p s else s

/-- MBX_FLAGS_CLEAR (R7, R8, R421). -/
def execMbxFlagsClear (p : Port) (value : BitVec 4) (coincident : BitVec 4) (s : State) : Out :=
  .next (raiseEach 4 coincident.toNat (raiseMbx p)
    (regAccess p (fun s => modPort p (fun q => { q with mailbox := { q.mailbox with flags := q.mailbox.flags &&& ~~~ value } }) s) s))

end Sys2Proof.Machine
end

