-- ==== Sys2Proof/Machine/Registers.lean ====
section
/-!
DEFINITION. Machine/Registers.lean: the register map of BAR0 as a whole (R6, R7, R430, R444 to R457, Tables 15-1, 15-5, 17-1, 18-1 to
18-7): what each offset reads, the read latch, and the writes of registers that have no row of their own.
-/

namespace Sys2Proof.Machine

/-- A truth value as a bit of a register. -/
def bitAt (b : Bool) (i : Nat) : Nat := if b then 2 ^ i else 0

/-- A word of a byte window. -/
def windowWord (byte : Nat → Nat) (off : Nat) : Nat := leNat ((List.range 8).map fun i => BitVec.ofNat 8 (byte (off + i)))

/-- Two 32-bit counters side by side. -/
def pairWord {n : Nat} (v : Vector W32 n) (i : Nat) : Nat := (vget v i 0).toNat + (vget v (i + 1) 0).toNat * 2 ^ 32

/-! ## Identity and global (Tables 15-1, 15-5, 18-2) -/

/-- A byte of the defect map window (Table 15-5). -/
def defectByte (s : State) (i : Nat) : Nat :=
  if i < 0x30 then sumNat ((List.range 4).map fun k => tgetD s.flash.coreStatus (4 * i + k) 0 % 4 * 4 ^ k)
  else if 0x40 ≤ i && i < 0x52 then
    tgetD s.flash.laneFailed (2 * (i - 0x40)) 0 % 16 + tgetD s.flash.laneFailed (2 * (i - 0x40) + 1) 0 % 16 * 16
  else if 0x60 ≤ i && i < 0x90 then sumNat ((List.range 8).map fun k => bitAt (s.flash.channelOut.contains (8 * (i - 0x60) + k)) k)
  else if 0xA0 ≤ i && i < 0x160 then ((tgetD s.flash.stackIdentity ((i - 0xA0) / 8) 0).toNat / 256 ^ ((i - 0xA0) % 8)) % 256
  else if 0x160 ≤ i && i < 0x2E0 then tgetD s.flash.trainTemp (i - 0x160) 0 % 256
  else if 0x2E0 ≤ i && i < 0x3A0 then tgetD s.flash.physOf (i - 0x2E0) 255 % 256
  else if 0x3A0 ≤ i && i < 0x3A8 then (s.flash.rewrites / 256 ^ (i - 0x3A0)) % 256
  else 0

/-- The registers of Table 18-2, zero until stage 1 is done (R449). -/
def identityWord (off : Nat) (s : State) : Nat :=
  if !identified s then 0
  else match off with
    | 0x00 => 0x3624 + (match s.flash.variant with | .F => 0 | .E => 1 | .S => 2) * 2 ^ 16 + 1 * 2 ^ 20 + 1 * 2 ^ 32
    | 0x08 => s.mod.identity.toNat
    | 0x10 => enabledCores s + (freeSubstitutes s).length * 2 ^ 8 + installedGib s * 2 ^ 16 + fastGib s.flash.variant * 2 ^ 32
    | 0x18 => linkMask s.flash.variant
    | 0x20 => bitAt s.mod.fwRunningB 0 + (fwSlot s.mod.fwRunningB s).svn.toNat * 2 ^ 16 + s.flash.minSvn.toNat * 2 ^ 32
    | 0x200 => s.mod.scratch.toNat
    | _ => 0

/-- The identity and global region: from stage 1 (R394, R448, R449). -/
def globalWord (off : Nat) (s : State) : Nat :=
  if s.mod.stage == 0 then 0
  else if off == 0x108 then bringupStatus s
  else if off == 0x110 then s.mod.cause.toNat + s.mod.coldReason.toNat * 2 ^ 4
  else if 0x1000 ≤ off && off < 0x1400 then windowWord (defectByte s) (off - 0x1000)
  else identityWord off s

/-! ## Host port (Tables 17-1, 18-3; R450) -/

/-- RC_CFG. -/
def rcCfgWord (q : PortSt) : Nat := q.rcLog2.toNat + bitAt q.rcEnable 5 + bitAt q.rcIrq 6 + q.rcVector.toNat * 2 ^ 16

/-- Dword `i` of the MSI-X table: an entry nothing has written is masked (notes/assumptions/4.md). -/
def msixDword (q : PortSt) (i : Nat) : Nat := (tgetD q.msixTable i (if i % 4 == 3 then 1 else 0)).toNat

/-- A port's own region. -/
def portWord (p : Port) (off : Nat) (s : State) : Nat :=
  let q := portOf p s
  let peer := portOf (peerOf p) s
  if 0x4000 ≤ off && off < 0xC000 then msixDword q ((off - 0x4000) / 4) + msixDword q ((off - 0x4000) / 4 + 1) * 2 ^ 32
  else if 0xC000 ≤ off && off < 0xC100 then
    sumNat ((List.range 64).map fun i => bitAt (q.msixPending.contains (8 * (off - 0xC000) + i)) i)
  else if 0x100 ≤ off && off < 0x180 then
    if off % 16 == 0 then (vget q.adminSqBase ((off - 0x100) / 16) 0).toNat else (vget q.adminSqCfg ((off - 0x100) / 16) 0).toNat
  else match off with
    | 0x000 => bitAt (p == .B) 0 + bitAt q.linkUp 1 + q.width.toNat * 2 ^ 2 + q.speed.toNat * 2 ^ 6 + bitAt peer.linkUp 10
    | 0x008 => bitAt q.fenced 0 + bitAt peer.fenced 1
    | 0x040 => q.fenceCount.toNat
    | 0x180 => q.adminCqBase.toNat
    | 0x188 => q.adminCqCfg.toNat
    | 0x190 => bitAt q.adminEnable 0 + bitAt q.cfgError 1
    | 0x200 => q.rcBase.toNat
    | 0x208 => rcCfgWord q
    | 0x210 => q.rcWrite.toNat
    | 0x218 => q.rcRead.toNat
    | 0x220 => q.rcDropped.toNat
    | 0x300 => q.mbxVector.toNat + bitAt q.mbxEn 16
    | _ => 0

/-! ## Channel window (Table 18-4), time (Table 18-5) -/

/-- CHAN_STATE of a slot; the admin channels' attributes read zero (R453). -/
def chanStateWord (i : Nat) (s : State) : Nat :=
  let sl := slotOf i s
  sl.lastHandle.toNat + match sl.chan with
    | none => 0
    | some c =>
      2 ^ 32 + bitAt (c.owner == .B) 33
        + (if i < 2 then 0 else bitAt c.shared 34 + bitAt c.legacy 35 + bitAt c.fp16Ieee 36 + c.srBits * 2 ^ 37 + c.cores.length * 2 ^ 48)

/-- Completions waiting in a slot's channel. -/
def waitingOf (i : Nat) (s : State) : Nat :=
  match chanOf i s with
  | some c => c.waiting.length
  | none => if i == 0 then s.portA.stale.length else if i == 1 then s.portB.stale.length else 0

/-- CHAN_BELL of a slot. -/
def chanBellWord (i : Nat) (s : State) : Nat :=
  (slotOf i s).bellCount.toNat + bitAt (slotOf i s).bellError 32 + waitingOf i s * 2 ^ 40

/-- The time region. -/
def timeWord (off : Nat) (s : State) : Nat :=
  let x := s.time
  match off with
  | 0x00 => x.dtime.toNat
  | 0x08 => bitAt x.firstLock 0 + x.source.toNat * 2 + bitAt x.timeLocked 3 + bitAt x.ppsPresent 4 + bitAt x.ref10Present 5 + bitAt x.slewing 6
  | 0x10 => (BitVec.ofInt 32 x.offset).toNat
  | 0x18 => x.sourceSel.toNat + x.ptpDomain.toNat * 2 ^ 8
  | 0x20 => x.ppsCapture.toNat
  | 0x28 => x.clkLock.toNat
  | _ => 0

/-! ## Links (Tables 12-11, 13-9) -/

/-- LINK_STATUS. -/
def linkStatusWord (k : Link) : Nat :=
  k.state + laneCount k * 2 ^ 3 + bitAt k.crypto 6 + bitAt k.keyTx 7 + bitAt k.keyRx 8 + bitAt k.sorterFenced 9 + bitAt k.hold 10
    + bitAt (k.farActive && k.state == 3) 11

/-- A far link's own registers. -/
def farWord (off : Nat) (x : FarSt) : Nat :=
  if 0x180 ≤ off && off < 0x198 then pairWord x.counts ((off - 0x180) / 4)
  else match off with
    | 0x100 => x.mac.toNat
    | 0x108 => x.peerMac.toNat
    | 0x110 => x.delayMaxUs.toNat + x.lossMax.toNat * 2 ^ 16 + x.parity * 2 ^ 32
    | 0x118 => x.fwdNs.toNat + x.revNs.toNat * 2 ^ 32
    | 0x120 => x.rttNs.toNat
    | 0x128 => x.repaired.toNat
    | 0x130 => x.flags.toNat
    | _ => 0

/-- A word of a link's block. -/
def linkWord (l off : Nat) (s : State) : Nat :=
  let k := linkOf l s
  if 0x40 ≤ off && off < 0x60 then pairWord k.counts ((off - 0x40) / 4)
  else if 0x100 ≤ off then (if farCapable l then farWord off k.far else 0)
  else match off with
    | 0x00 => linkStatusWord k
    | 0x08 => bitAt (k.enable && linkInMask l s) 0 + bitAt k.ctlCrypto 1 + bitAt (k.ctlFar && farCapable l) 2
    | 0x10 => k.highKib + k.lowKib * 2 ^ 16
    | 0x18 => egressOcc k
    | 0x20 => k.flags.toNat
    | 0x60 => k.retried.toNat
    | 0x68 => k.fecCorrected.toNat
    | 0x70 => k.partner.toNat
    | _ => 0

/-- PACE_OUT_STATE: the pins, low while PWR_GOOD is low (R325, R462). -/
def paceWord (s : State) : Nat :=
  if !s.mod.pwrGood then 0
  else bitAt (linkOf 16 s).pacePin 0 + bitAt (linkOf 17 s).pacePin 1 + bitAt (linkOf 34 s).pacePin 2 + bitAt (linkOf 35 s).pacePin 3

/-- The links region. -/
def linksWord (off : Nat) (s : State) : Nat :=
  if off < 0x24000 then linkWord (off / 0x1000) (off % 0x1000) s else if off == 0x30008 then paceWord s else 0

/-! ## Memory (Tables 10-2, 18-6) -/

/-- Words 0 and 1 of a channel-map entry (Table 10-2). -/
def mapWord (i : Nat) (high : Bool) (s : State) : Nat :=
  let e := mapEntry i s
  if high then e.targetChannel + e.targetPosition * 2 ^ 9
  else e.channel + e.position * 2 ^ 9 + e.state * 2 ^ 13 + e.homeChannel * 2 ^ 15 + e.homePosition * 2 ^ 24 + e.mark * 2 ^ 32

/-- A word of a stack's registers. -/
def stackWord (m off : Nat) (s : State) : Nat :=
  let k := vget s.memory.stk m {}
  let chs := (List.range 16).map fun i => memChanOf (16 * m + i) s
  match off with
  | 0x00 =>
    k.temp.toNat + k.level * 2 ^ 8 + sumNat ((List.range 16).map fun i => bitAt (memChanOf (16 * m + i) s).out (16 + i))
      + sumNat ((List.range 16).map fun i => bitAt (!(parkedFrom (16 * m + i) s).isEmpty) (32 + i))
  | 0x08 => k.laneCorrected.toNat + k.uncorrectable.toNat * 2 ^ 32
  | 0x10 =>
    sumNat (chs.map fun c => spareLines s.flash.variant - c.sparesUsed) + min 65536 (sumNat (chs.map fun c => c.poison.length)) * 2 ^ 32
  | _ => 0

/-- The memory region. -/
def memoryWord (off : Nat) (s : State) : Nat :=
  if off < 0x1800 then stackWord (off / 0x100) (off % 0x100) s
  else if 0x10000 ≤ off && off < 0x20000 then mapWord ((off - 0x10000) / 16) (off % 16 == 8) s
  else if off == 0x20000 then
    freeFrameCount s + s.memory.map.countP (fun e => e.state == 1) * 2 ^ 32 + s.memory.chans.countP (fun c => c.2.out) * 2 ^ 48
  else 0

/-! ## Mailbox (Table 16-2), flags (Table 18-7) -/

/-- The mailbox region of a port. -/
def mailboxWord (p : Port) (off : Nat) (s : State) : Nat :=
  let m := (portOf p s).mailbox
  if 0x1000 ≤ off && off < 0x2000 then windowWord (fun i => (tgetD m.request i 0).toNat) (off - 0x1000)
  else if 0x2000 ≤ off then windowWord (fun i => (m.response.getD i 0).toNat) (off - 0x2000)
  else if 0x40 ≤ off && off < 0x50 then pairWord m.counts ((off - 0x40) / 4)
  else match off with
    | 0x00 => m.opcode.toNat + m.reqLength.toNat * 2 ^ 16 + m.tag.toNat * 2 ^ 32
    | 0x10 => bitAt m.busy 0 + bitAt m.done 1 + m.result.toNat * 2 ^ 8 + m.respLength.toNat * 2 ^ 16 + m.statusTag.toNat * 2 ^ 32
    | 0x20 => m.flags.toNat
    | _ => 0

/-- The flags region. -/
def flagsWord (p : Port) (off : Nat) (s : State) : Nat :=
  let q := portOf p s
  if 0x100 ≤ off && off < 0x178 then pairWord s.devCounts ((off - 0x100) / 4)
  else match off with
    | 0x00 => s.devFlags.toNat
    | 0x08 => q.flagEnable.toNat
    | 0x10 => q.flagVector.toNat + bitAt q.flagEn 16
    | 0x18 => sumNat ((List.range 36).map fun l => bitAt ((linkOf l s).flags != 0 || (linkOf l s).far.flags != 0) l)
    | _ => 0

/-! ## Reads (R444 to R446, Table 18-1) -/

/-- The 8 bytes at an offset that is a multiple of 8, as they stand. -/
def regWord (p : Port) (off : Nat) (s : State) : Nat :=
  if off < 0x10000 then globalWord off s
  else if !regionsUp s then 0
  else if off < 0x20000 then portWord p (off - 0x10000) s
  else if off < 0x30000 then (if off % 16 == 0 then chanStateWord ((off - 0x20000) / 16) s else chanBellWord ((off - 0x20000) / 16) s)
  else if 0x100000 ≤ off && off < 0x110000 then timeWord (off - 0x100000) s
  else if 0x200000 ≤ off && off < 0x240000 then linksWord (off - 0x200000) s
  else if 0x300000 ≤ off && off < 0x330000 then memoryWord (off - 0x300000) s
  else if 0x400000 ≤ off && off < 0x404000 then mailboxWord p (off - 0x400000) s
  else if 0x500000 ≤ off && off < 0x500200 then flagsWord p (off - 0x500000) s
  else 0

/-- Whether BAR0 takes an access of this size and alignment (R444). -/
def regSize (off size : Nat) : Bool := (size == 4 || size == 8) && off % size == 0

/-- Bytes of a number. -/
def bytesOf (v off size : Nat) : Nat := v / 256 ^ off % 256 ^ size

/-- Whether an offset lies in an array of 32-bit counters, a byte window, the MSI-X table or its pending bits: nothing there is wider than
a read. -/
def narrowAt (off : Nat) : Bool :=
  (0x1000 ≤ off && off < 0x1400) || (0x10040 ≤ off && off < 0x10048) || (0x14000 ≤ off && off < 0x1C100)
    || (0x200000 ≤ off && off < 0x224000
        && ((0x40 ≤ off % 0x1000 && off % 0x1000 < 0x60) || (0x180 ≤ off % 0x1000 && off % 0x1000 < 0x198)))
    || (0x400040 ≤ off && off < 0x400050) || (0x401000 ≤ off && off < 0x404000) || (0x500100 ≤ off && off < 0x500178)

/-- Whether an offset lies in a window of 16-byte entries (Tables 10-2, 18-4). -/
def entryAt (off : Nat) : Bool := (0x20000 ≤ off && off < 0x30000) || (0x310000 ≤ off && off < 0x320000)

/-- Bytes of the register or entry that begins at an offset; 0 where none begins. -/
def regExtent (off : Nat) : Nat := if narrowAt off then 0 else if entryAt off then (if off % 16 == 0 then 16 else 0) else if off % 8 == 0 then 8 else 0

/-- The whole of a register or entry of 8 or 16 bytes. -/
def regWhole (p : Port) (off n : Nat) (s : State) : Nat := regWord p off s + (if n == 16 then regWord p (off + 8) s * 2 ^ 64 else 0)

/-- The bytes a latch held by the port gives a read, with what is left of the latch. -/
def fromLatch (p : Port) (off size : Nat) (s : State) : Option (Nat × Option (Nat × Nat × Nat)) :=
  match (portOf p s).latch with
  | some (b, n, v) =>
    if b ≤ off && decide (off + size ≤ b + n) then
      let used := off - b + size
      some (bytesOf v (off - b) size, if used < n then some (b + used, n - used, v / 256 ^ used) else none)
    else none
  | none => none

/-- A read with no latch: the bytes as they stand, the rest of a wider register latched. -/
def freshRead (p : Port) (off size : Nat) (s : State) : Nat × Option (Nat × Nat × Nat) :=
  let n := regExtent off
  let v := regWhole p off n s
  (bytesOf (regWord p (off / 8 * 8) s) (off % 8) size, if size < n then some (off + size, n - size, v / 256 ^ size) else none)

/-- What a read of RC fields takes from them: of each that the read covers whole, what it returned (R446). `v` are the bytes read. -/
def takeCounts (p : Port) (off size v : Nat) (s : State) : State :=
  let lo : W32 := BitVec.ofNat 32 v
  let hi : W32 := BitVec.ofNat 32 (v / 2 ^ 32)
  if !regionsUp s then s
  else if off == 0x10220 then modPort p (fun q => { q with rcDropped := q.rcDropped - lo }) s
  else if 0x200000 ≤ off && off < 0x224000 then
    let l := (off - 0x200000) / 0x1000
    if off % 0x1000 == 0x60 then modLink l (fun k => { k with retried := k.retried - lo }) s
    else if off % 0x1000 == 0x68 then modLink l (fun k => { k with fecCorrected := k.fecCorrected - lo }) s
    else if off % 0x1000 == 0x128 && farCapable l then modLink l (fun k => { k with far := { k.far with repaired := k.far.repaired - lo } }) s
    else s
  else if 0x300000 ≤ off && off < 0x301800 then
    let m := (off - 0x300000) / 0x100
    if off % 0x100 == 0x08 then modStack m (fun k => { k with
      laneCorrected := k.laneCorrected - lo, uncorrectable := if size == 8 then k.uncorrectable - hi else k.uncorrectable }) s
    else if off % 0x100 == 0x0C then modStack m (fun k => { k with uncorrectable := k.uncorrectable - lo }) s
    else s
  else s

/-- A read of BAR0. -/
def readAt (p : Port) (off size : Nat) (s : State) : State :=
  if !regSize off size then readsAs p 0 (endLatch p s)
  else
    let r := (fromLatch p off size s).getD (freshRead p off size s)
    let s := modPort p (fun q => { q with latch := r.2, readData := BitVec.ofNat 64 r.1 }) s
    takeCounts p off size r.1 s

/-- LATCHED_READ (R444, R445). -/
def execLatchedRead (p : Port) (offset : BitVec 24) (size : Nat) (s : State) : Out := .next (readAt p offset.toNat size s)

/-- STACK_COUNTS_READ (R445, R446): LANE_CORRECTED lies in the low half, UNCORRECTABLE in the high one; `coincident` is what is counted of
each in the cycle of the read, which stays. -/
def execStackCountsRead (p : Port) (m : Fin 24) (size : Nat) (high : Bool) (coincident : Word) (s : State) : Out :=
  .next (modStack m (fun k => { k with
      laneCorrected := k.laneCorrected + coincident.setWidth 32, uncorrectable := k.uncorrectable + (coincident >>> 32).setWidth 32 })
    (readAt p (0x300008 + 0x100 * m.val + (if high then 4 else 0)) size s))

/-- RC_DROPPED_READ (R446). -/
def execRcDroppedRead (p : Port) (whole : Bool) (coincident : BitVec 32) (s : State) : Out :=
  .next (modPort p (fun q => { q with rcDropped := q.rcDropped + coincident })
    (readAccess p (fun s => readsAs p ((portOf p s).rcDropped.setWidth 64)
      (if whole then modPort p (fun q => { q with rcDropped := 0 }) s else s)) s))

/-! ## Flag writes (R7, R8, R453, R456, R457) -/

/-- DEV_FLAGS_CLEAR (R7, R456, R457): a set in the same cycle leaves its bit at 1 and is counted; it sends no message where it finds the
bit at 1. -/
def execDevFlagsClear (p : Port) (value : BitVec 29) (coincident : BitVec 29) (s : State) : Out :=
  .next <|
    let s := raiseEach 29 coincident.toNat raiseDev s
    regAccess p (fun s => { s with devFlags := (s.devFlags &&& ~~~ value) ||| coincident }) s

/-- FLAG_ENABLE_WRITE (R457): one message when an enable bit rises whose flag is 1. -/
def execFlagEnableWrite (p : Port) (value : BitVec 29) (s : State) : Out :=
  .next (regAccess p (fun s =>
    let fresh := value &&& ~~~ (portOf p s).flagEnable &&& s.devFlags
    let s := modPort p (fun q => { q with flagEnable := value }) s
    if fresh != 0 && (portOf p s).flagEn then sendMsix p (portOf p s).flagVector.toNat s else s) s)

/-- The port that owns a slot's window entry; a free slot has none. -/
def slotOwner (slot : Nat) (s : State) : Option Port :=
  if slot == 0 then some .A else if slot == 1 then some .B else (chanOf slot s).map fun c => c.owner

/-- CHAN_BELL_CLEAR (R7, R453): from the owning port only. -/
def execChanBellClear (p : Port) (slot : Fin 4096) (coincident : Bool) (s : State) : Out :=
  .next <|
    let s := regAccess p (fun s => if slotOwner slot s == some p then modSlot slot (fun x => { x with bellError := false }) s else s) s
    if coincident then raiseBellError slot s else s

/-! ## The report ring (R430) -/

/-- RC_CFG_WRITE (R430): LOG2_BYTES changes only while ENABLE is 0; setting ENABLE takes RC_WRITE as equal to RC_READ; clearing it leaves
nothing waiting. -/
def execRcCfgWrite (p : Port) (value : W32) (s : State) : Out :=
  .next (regAccess p (modPort p (fun q =>
    let n := fieldNat value 0 5
    let on := bitOf value 5
    { q with
      rcLog2 := if !q.rcEnable && decide (16 ≤ n) && decide (n ≤ 30) then BitVec.ofNat 5 n else q.rcLog2
      rcWrite := if on && !q.rcEnable then q.rcRead else q.rcWrite
      cards := if on then q.cards else []
      rcEnable := on, rcIrq := bitOf value 6, rcVector := BitVec.ofNat 11 (fieldNat value 16 11) })) s)

/-! ## Other writes (R5, R6, R447, R448) -/

/-- A register's value with the bytes written taking the place of the old ones. -/
def mergeBytes (old off size v : Nat) : Nat := old % 256 ^ off + v % 256 ^ size * 256 ^ off + old / 256 ^ (off + size) * 256 ^ (off + size)

/-- A message that waited for its vector's mask leaves when the mask bit falls (R450). -/
def unmask (p : Port) (v : Nat) (s : State) : State :=
  if (portOf p s).msixPending.contains v && msixDword (portOf p s) (4 * v + 3) % 2 == 0 then
    sendMsix p v (modPort p (fun q => { q with msixPending := q.msixPending.filter fun x => x != v }) s)
  else s

/-- Dwords of the MSI-X table written. -/
def writeMsix (p : Port) (off size v : Nat) (s : State) : State :=
  let i := off / 4
  let s := modPort p (fun q => { q with msixTable := tset q.msixTable i (BitVec.ofNat 32 v) }) s
  let s := if size == 8 then modPort p (fun q => { q with msixTable := tset q.msixTable (i + 1) (BitVec.ofNat 32 (v / 2 ^ 32)) }) s else s
  unmask p (i / 4) s

/-- Admin ring fields, ignored while ENABLE is 1 (R451). -/
def writeAdmin (off v : Nat) (q : PortSt) : PortSt :=
  if q.adminEnable then q
  else if off == 0x180 then { q with adminCqBase := BitVec.ofNat 64 v }
  else if off == 0x188 then { q with adminCqCfg := BitVec.ofNat 64 v }
  else if off % 16 == 0 then { q with adminSqBase := vset q.adminSqBase ((off - 0x100) / 16) (BitVec.ofNat 64 v) }
  else { q with adminSqCfg := vset q.adminSqCfg ((off - 0x100) / 16) (BitVec.ofNat 16 v &&& 0xFF1F) }

/-- The other host-port registers that have no row of their own. -/
def writePort (off v : Nat) (q : PortSt) : PortSt :=
  match off with
  | 0x200 => if q.rcEnable then q else { q with rcBase := BitVec.ofNat 64 v }
  | 0x218 => { q with rcRead := BitVec.ofNat 64 v }
  | 0x300 => { q with mbxVector := BitVec.ofNat 11 v, mbxEn := v.testBit 16 }
  | _ => q

/-- LINK_CTRL's CRYPTO and FAR, and a far link's addresses. -/
def writeLink (l off v : Nat) (k : Link) : Link :=
  match off with
  | 0x008 => { k with ctlCrypto := v.testBit 1, ctlFar := v.testBit 2 && farCapable l }
  | 0x100 => if farCapable l then { k with far := { k.far with mac := BitVec.ofNat 48 v } } else k
  | 0x108 => if farCapable l then { k with far := { k.far with peerMac := BitVec.ofNat 48 v } } else k
  | _ => k

/-- Bytes of the request buffer written. -/
def writeRequest (p : Port) (off : Nat) (bs : List Byte) (s : State) : State :=
  modPort p (fun q => { q with mailbox := { q.mailbox with request := bs.zipIdx.foldl (fun t x => tset t (off + x.2) x.1) q.mailbox.request } }) s

/-- The mailbox registers: MBX_CMD, GO and the request buffer. `v` is the merged word, `raw` the bytes written in their place. -/
def writeMailbox (p : Port) (off size v raw : Nat) (s : State) : State :=
  if 0x1000 ≤ off && off < 0x2000 then writeRequest p (off - 0x1000) (leBytes size (raw / 256 ^ (off % 8))) s
  else if off / 8 == 0 then modPort p (fun q => { q with mailbox := { q.mailbox with
    opcode := BitVec.ofNat 8 v, reqLength := BitVec.ofNat 13 (v / 2 ^ 16), tag := BitVec.ofNat 32 (v / 2 ^ 32) } }) s
  else if off / 8 == 1 && raw.testBit 0 then mbxGo p s
  else s

/-- What a write of `size` bytes at `off` does where the region answers. -/
def writeAnswered (p : Port) (off size value : Nat) (s : State) : State :=
  let at8 := off / 8 * 8
  let v := mergeBytes (regWord p at8 s) (off % 8) size value
  let raw := value % 256 ^ size * 256 ^ (off % 8)
  if 0x14000 ≤ off && off < 0x1C000 then writeMsix p (off - 0x14000) size (value % 256 ^ size) s
  else if 0x10000 ≤ off && off < 0x20000 then modPort p (writePort (at8 - 0x10000) v) s
  else if 0x200000 ≤ off && off < 0x224000 then
    let l := (off - 0x200000) / 0x1000
    if linkInMask l s then modLink l (writeLink l (at8 % 0x1000) v) s else s
  else if 0x400000 ≤ off && off < 0x404000 then writeMailbox p (off - 0x400000) size v raw s
  else if at8 == 0x500010 then modPort p (fun q => { q with flagVector := BitVec.ofNat 11 v, flagEn := v.testBit 16 }) s
  else s

/-- Whether an offset is one of the admin ring fields, which may be written from stage 2 (Table 15-9). -/
def adminField (off : Nat) : Bool := 0x10100 ≤ off && off < 0x10190

/-- The register that software may write before its region reads (Table 15-9): the old value counts as it stands. -/
def adminWord (p : Port) (at8 : Nat) (s : State) : Nat := portWord p (at8 - 0x10000) s

/-- A write of BAR0 (R444, R448): a fenced port's is discarded (R21), as is one of another size or alignment. -/
def writeAt (p : Port) (off size value : Nat) (s : State) : State :=
  if (portOf p s).fenced then s
  else
    let s := endLatch p s
    let at8 := off / 8 * 8
    if !regSize off size then s
    else if at8 == 0x200 then
      (if s.mod.stage == 0 then s
       else modMod (fun m => { m with scratch := BitVec.ofNat 64 (mergeBytes m.scratch.toNat (off % 8) size value) }) s)
    else if adminField off then
      (if s.mod.stage.toNat < 2 then s
       else modPort p (writeAdmin (at8 - 0x10000) (mergeBytes (adminWord p at8 s) (off % 8) size value)) s)
    else if regionsUp s then writeAnswered p off size value s
    else s

/-- REGISTER_WRITE (R6): RW fields hold what is written, a 1 in a WO field acts, RO fields and reserved offsets ignore it. Registers and
fields that have a row of their own are written by that row. -/
def execRegisterWrite (p : Port) (offset : BitVec 24) (size : Nat) (value : Word) (s : State) : Out :=
  .next (writeAt p offset.toNat size value.toNat s)

end Sys2Proof.Machine
end

