-- ==== Sys2Proof/Machine/Vector.lean ====
section
/-!
DEFINITION. Machine/Vector.lean: the vector operations, LOAD, STORE and POP (chapter 05, R149, R150). Results, special
values and flags are those of Tables 05-2 to 05-5.
-/

namespace Sys2Proof.Machine

/-- The lanes in ascending order. -/
def lanes : List (Fin 128) := List.finRange 128

/-! ## Shared shape of a vector operation (R111 to R115, R125) -/

/-- What one lane of an operation gives: its new bits and its flags. -/
abbrev LaneOut := W32 × BitVec 7

/-- The fields of a VOP word (Table 06-8). -/
def vD (w : Word) : Nat := fld w 12 5
def vA (w : Word) : Nat := fld w 17 5
def vB (w : Word) : Nat := fld w 22 5
def vC (w : Word) : Nat := fld w 27 5
def vType (w : Word) : Nat := fld w 32 4
def vMask (w : Word) : Nat := fld w 36 3

/-- A lane of a register as a value of a type (R111). -/
def laneAt (t : Nat) (v : VecSt) (r : Nat) (l : Fin 128) : Fp := laneVal t (vreg v r)[l]

/-- The bits of a lane within a type's width. -/
def laneBits (t : Nat) (v : VecSt) (r : Nat) (l : Fin 128) : Nat := (vreg v r)[l].toNat % 2 ^ typeWidth t

/-- A lane result of a code and its flags. -/
def laneOut (r : Nat × BitVec 7) : LaneOut := (BitVec.ofNat 32 r.1, r.2)

/-- The lanes of a mask written into a register, with the flags of those lanes raised (R112, R125). -/
def applyLanes (d : Nat) (mask : BitVec 128) (f : Fin 128 → LaneOut) (v : VecSt) : VecSt :=
  let outs := Vector.ofFn f
  let fl := orFlags (lanes.map fun (l : Fin 128) => if mask.getLsbD l then outs[l].2 else 0)
  raiseVec fl (setV d mask (fun l => outs[l].1) v)

/-- A vector instruction that changes the vector state alone, or stops its lesson when a field is out of range. -/
def vecStep (c : Fin 192) (ok : Bool) (f : VecSt → VecSt) (s : State) : State :=
  if ok then advance (.core c) (modCore c (fun k => { k with vec := f k.vec }) s) else stopCore c 0x0004 s

/-- A lane-wise operation on the execution mask, for the types that `ok` accepts. -/
def laneOp (c : Fin 192) (w : Word) (ok : Nat → Bool) (f : Nat → VecSt → Fin 128 → LaneOut) (s : State) : State :=
  vecStep c (ok (vType w)) (fun v => applyLanes (vD w) (mreg v (vMask w)) (f (vType w) v) v) s

/-- A lane-wise operation of one floating-point operand. -/
def unaryOp (c : Fin 192) (w : Word) (f : Nat → Fp → Nat × BitVec 7) (s : State) : State :=
  laneOp c w floatType (fun t v l => laneOut (f t (laneAt t v (vA w) l))) s

/-- A lane-wise operation of two floating-point operands. -/
def binaryOp (c : Fin 192) (w : Word) (f : Nat → Fp → Fp → Nat × BitVec 7) (s : State) : State :=
  laneOp c w floatType (fun t v l => laneOut (f t (laneAt t v (vA w) l) (laneAt t v (vB w) l))) s

/-- A lane-wise operation on the bits of two operands, no flag raised. -/
def bitsOp (c : Fin 192) (w : Word) (ok : Nat → Bool) (f : Nat → Nat → Nat → Nat) (s : State) : State :=
  laneOp c w ok (fun t v l => (BitVec.ofNat 32 (f (typeWidth t) (laneBits t v (vA w) l) (laneBits t v (vB w) l)), 0)) s

/-- Only INT32 (R117). -/
def intType (t : Nat) : Bool := t == 0x0B

/-- A code of a type for an exact value that the type holds (MAX, MIN and MAX, MIN reductions). -/
def exactCode (t : Nat) (x : Fp) : Nat := (encodeElem t (0, 8, false, true) 0 x).1

/-- An FP32, BF16 or FP16 code with its sign bit changed; NaN gives the canonical NaN (Table 05-2). -/
def signOp (t : Nat) (f : Bool → Bool) (x : Fp) : Nat × BitVec 7 :=
  (match x with
   | .nan => nanCode t
   | .inf n => exactCode t (.inf (f n))
   | .fin n m e => exactCode t (.fin (f n) m e), 0)

/-! ## Arithmetic -/

/-- ADD: a + b (R118). -/
def execVopAdd (c : Fin 192) (w : Word) (s : State) : Out :=
  instr (.core c) w 0x20 0x00 (binaryOp c w addOp) s

/-- SUB: a - b (R118). -/
def execVopSub (c : Fin 192) (w : Word) (s : State) : Out :=
  instr (.core c) w 0x20 0x01 (binaryOp c w subOp) s

/-- MUL: a * b (R118). -/
def execVopMul (c : Fin 192) (w : Word) (s : State) : Out :=
  instr (.core c) w 0x20 0x02 (binaryOp c w mulOp) s

/-- FMA: a * b + c with one rounding (R118). -/
def execFma (c : Fin 192) (w : Word) (s : State) : Out :=
  instr (.core c) w 0x20 0x03 (laneOp c w floatType fun t v l =>
    laneOut (fmaOp t (laneAt t v (vA w) l) (laneAt t v (vB w) l) (laneAt t v (vC w) l))) s

/-- MAX (R76, R78). -/
def execVopMax (c : Fin 192) (w : Word) (s : State) : Out :=
  instr (.core c) w 0x20 0x04 (laneOp c w arithType fun t v l =>
    laneOut (exactCode t (maxFp (laneAt t v (vA w) l) (laneAt t v (vB w) l)), 0)) s

/-- MIN (R76, R78). -/
def execVopMin (c : Fin 192) (w : Word) (s : State) : Out :=
  instr (.core c) w 0x20 0x05 (laneOp c w arithType fun t v l =>
    laneOut (exactCode t (minFp (laneAt t v (vA w) l) (laneAt t v (vB w) l)), 0)) s

/-- ABS: the sign bit cleared (R115). -/
def execAbs (c : Fin 192) (w : Word) (s : State) : Out :=
  instr (.core c) w 0x20 0x06 (unaryOp c w fun t x => signOp t (fun _ => false) x) s

/-- NEG: the sign bit inverted (R115). -/
def execNeg (c : Fin 192) (w : Word) (s : State) : Out :=
  instr (.core c) w 0x20 0x07 (unaryOp c w fun t x => signOp t not x) s

/-- DIV: a / b, correctly rounded (R114, R118). -/
def execDiv (c : Fin 192) (w : Word) (s : State) : Out :=
  instr (.core c) w 0x20 0x08 (binaryOp c w divOp) s

/-- RCP: 1 / a, correctly rounded (R114, R118). -/
def execRcp (c : Fin 192) (w : Word) (s : State) : Out :=
  instr (.core c) w 0x20 0x09 (unaryOp c w rcpOp) s

/-- SQRT: the square root, correctly rounded (R114, R118). -/
def execSqrt (c : Fin 192) (w : Word) (s : State) : Out :=
  instr (.core c) w 0x20 0x0A (unaryOp c w sqrtOp) s

/-- RSQRT: 1 / the square root, correctly rounded (R114, R118). -/
def execRsqrt (c : Fin 192) (w : Word) (s : State) : Out :=
  instr (.core c) w 0x20 0x0B (unaryOp c w rsqrtOp) s

/-- EXP: e to the a, correctly rounded (R114, R118). -/
def execExp (c : Fin 192) (w : Word) (s : State) : Out :=
  instr (.core c) w 0x20 0x0C (unaryOp c w expOp) s

/-- EXP2: 2 to the a, correctly rounded (R114, R118). -/
def execExp2 (c : Fin 192) (w : Word) (s : State) : Out :=
  instr (.core c) w 0x20 0x0D (unaryOp c w exp2Op) s

/-- LOG: the natural logarithm, correctly rounded (R114, R118). -/
def execLog (c : Fin 192) (w : Word) (s : State) : Out :=
  instr (.core c) w 0x20 0x0E (unaryOp c w logOp) s

/-- LOG2: the base-2 logarithm, correctly rounded (R114, R118). -/
def execLog2 (c : Fin 192) (w : Word) (s : State) : Out :=
  instr (.core c) w 0x20 0x0F (unaryOp c w log2Op) s

/-- TANH: the hyperbolic tangent, correctly rounded (R114, R118). -/
def execTanh (c : Fin 192) (w : Word) (s : State) : Out :=
  instr (.core c) w 0x20 0x10 (unaryOp c w tanhOp) s

/-! ## Conversion (R64 to R68, R111, R113) -/

/-- Targets of CVT: the arithmetic types, E4M3 and E5M2 (R111). -/
def cvtTarget (f : Nat) : Bool := arithType f || f == 0x04 || f == 0x05

/-- The draws of an instruction with rounding mode 4: one of every lane; other modes draw nothing (R113). -/
def roundDraws (round k : Nat) (v : VecSt) : VecSt × List Nat :=
  if round == 4 then drawLanes k v else (v, List.replicate 128 0)

/-- The body of CVT. -/
def cvtBody (c : Fin 192) (w : Word) (s : State) : State :=
  let round := fld w 39 3
  let ovf := fld w 42 1 == 1
  let dst := fld w 43 4
  let t := vType w
  if !arithType t || !cvtTarget dst || decide (4 < round) || (ovf && !ovfAllowed dst) then stopCore c 0x0004 s
  else if round == 4 && (coreOf c s).reseed.isSome then holdIssue (.core c) 0x03 s
  else
    let rule := coreRule c round ovf s
    vecStep c true (fun v =>
      let d := roundDraws round rule.2.1 v
      applyLanes (vD w) (mreg v (vMask w))
        (fun l => laneOut (encodeElem dst rule (d.2.getD l 0) (laneAt t v (vA w) l))) d.1) s

/-- CVT (R64). -/
def execCvt (c : Fin 192) (w : Word) (s : State) : Out := instr (.core c) w 0x20 0x11 (cvtBody c w) s

/-! ## Comparison and selection (R112, R116) -/

/-- Whether a condition of CMP holds: 0 EQ, 1 NE, 2 LT, 3 LE, 4 UN (R116). -/
def cmpHolds (cond : Nat) (x y : Fp) : Bool :=
  let un := x == .nan || y == .nan
  let eq := !un && !ltFp x y && !ltFp y x
  match cond with
  | 0 => eq
  | 1 => !eq
  | 2 => !un && ltFp x y
  | 3 => !un && !ltFp y x
  | _ => un

/-- A mask of the lanes for which `p` holds. -/
def maskOf (p : Fin 128 → Bool) : BitVec 128 :=
  BitVec.ofNat 128 (lanes.foldl (fun a l => if p l then a + 2 ^ l.val else a) 0)

/-- CMP: mask bit set where the condition holds; a masked-off lane gets 0 (R112, R116). -/
def execCmp (c : Fin 192) (w : Word) (s : State) : Out :=
  instr (.core c) w 0x20 0x12 (vecStep c (arithType (vType w) && decide (fld w 47 4 ≤ 4)) fun v =>
    let t := vType w
    let mk := mreg v (vMask w)
    setM (fld w 12 3)
      (maskOf fun l => mk.getLsbD l && cmpHolds (fld w 47 4) (laneAt t v (vA w) l) (laneAt t v (vB w) l)) v) s

/-- SEL: A where mask C is 1, B where it is 0 (R115). -/
def execSel (c : Fin 192) (w : Word) (s : State) : Out :=
  instr (.core c) w 0x20 0x13 (laneOp c w arithType fun t v l =>
    (BitVec.ofNat 32 (laneBits t v (if (mreg v (fld w 27 3)).getLsbD l then vA w else vB w) l), 0)) s

/-! ## Integers and bits (R111, R117) -/

/-- A signed comparison of 32-bit numbers. -/
def sltNat (a b : Nat) : Bool := (BitVec.ofNat 32 a).slt (BitVec.ofNat 32 b)

/-- IADD: the sum, wrapping (R117). -/
def execIadd (c : Fin 192) (w : Word) (s : State) : Out :=
  instr (.core c) w 0x20 0x14 (bitsOp c w intType fun _ a b => (a + b) % 2 ^ 32) s

/-- ISUB: the difference, wrapping (R117). -/
def execIsub (c : Fin 192) (w : Word) (s : State) : Out :=
  instr (.core c) w 0x20 0x15 (bitsOp c w intType fun _ a b => (a + 2 ^ 32 - b) % 2 ^ 32) s

/-- IMUL: the low 32 bits of the product (R117). -/
def execImul (c : Fin 192) (w : Word) (s : State) : Out :=
  instr (.core c) w 0x20 0x16 (bitsOp c w intType fun _ a b => (a * b) % 2 ^ 32) s

/-- IMAX: the signed maximum (R117). -/
def execImax (c : Fin 192) (w : Word) (s : State) : Out :=
  instr (.core c) w 0x20 0x17 (bitsOp c w intType fun _ a b => if sltNat a b then b else a) s

/-- IMIN: the signed minimum (R117). -/
def execImin (c : Fin 192) (w : Word) (s : State) : Out :=
  instr (.core c) w 0x20 0x18 (bitsOp c w intType fun _ a b => if sltNat b a then b else a) s

/-- AND on the type's width (R111). -/
def execVopAnd (c : Fin 192) (w : Word) (s : State) : Out :=
  instr (.core c) w 0x20 0x19 (bitsOp c w arithType fun _ a b => a &&& b) s

/-- OR on the type's width (R111). -/
def execVopOr (c : Fin 192) (w : Word) (s : State) : Out :=
  instr (.core c) w 0x20 0x1A (bitsOp c w arithType fun _ a b => a ||| b) s

/-- XOR on the type's width (R111). -/
def execVopXor (c : Fin 192) (w : Word) (s : State) : Out :=
  instr (.core c) w 0x20 0x1B (bitsOp c w arithType fun _ a b => a ^^^ b) s

/-- SHL by a count mod 32, zeros shifted in (R111). -/
def execVopShl (c : Fin 192) (w : Word) (s : State) : Out :=
  instr (.core c) w 0x20 0x1C (bitsOp c w arithType fun t a b => a * 2 ^ (b % 32) % 2 ^ t) s

/-- SHR by a count mod 32, zeros shifted in (R111). -/
def execVopShr (c : Fin 192) (w : Word) (s : State) : Out :=
  instr (.core c) w 0x20 0x1D (bitsOp c w arithType fun _ a b => a / 2 ^ (b % 32)) s

/-- An arithmetic right shift of a `t`-bit value by a count mod 32: a count of `t` or more leaves copies of the sign. -/
def shiftSigned (t a b : Nat) : Nat :=
  let n := min (b % 32) t
  if a / 2 ^ (t - 1) % 2 == 1 then a / 2 ^ n + (2 ^ t - 2 ^ (t - n)) else a / 2 ^ n

/-- SRA by a count mod 32, copying the sign bit of the width (R111). -/
def execVopSra (c : Fin 192) (w : Word) (s : State) : Out :=
  instr (.core c) w 0x20 0x1E (bitsOp c w arithType shiftSigned) s

/-! ## Broadcast, lane numbers, rotation, masks, draws -/

/-- BCAST: bits [w - 1:0] of a scalar register in every lane (R115). -/
def execBcast (c : Fin 192) (w : Word) (s : State) : Out :=
  instr (.core c) w 0x20 0x1F (fun s =>
    let x := (sreg (coreOf c s).seq (fld w 51 5)).toNat
    laneOp c w arithType (fun t _ _ => (BitVec.ofNat 32 (x % 2 ^ typeWidth t), 0)) s) s

/-- IOTA: the lane's number (R115). -/
def execIota (c : Fin 192) (w : Word) (s : State) : Out :=
  instr (.core c) w 0x20 0x20 (laneOp c w intType fun _ _ l => (BitVec.ofNat 32 l.val, 0)) s

/-- ROT: lane l takes lane (l + s) mod 128 (R115). -/
def execRot (c : Fin 192) (w : Word) (s : State) : Out :=
  instr (.core c) w 0x20 0x21 (fun s =>
    let x := (sreg (coreOf c s).seq (fld w 51 5)).toNat
    laneOp c w arithType (fun t v l =>
      (BitVec.ofNat 32 (laneBits t v (vA w) ⟨(l.val + x) % 128, Nat.mod_lt _ (by decide)⟩), 0)) s) s

/-- A mask operation on mask registers A and B; a mask number above 7 is out of range (Table 06-9). -/
def maskOp (c : Fin 192) (w : Word) (two : Bool) (f : BitVec 128 → BitVec 128 → BitVec 128) (s : State) : State :=
  vecStep c (decide (vA w < 8) && (!two || decide (vB w < 8)))
    (fun v => setM (fld w 12 3) (f (mreg v (vA w)) (mreg v (vB w))) v) s

/-- MAND of two mask registers (R115). -/
def execMand (c : Fin 192) (w : Word) (s : State) : Out :=
  instr (.core c) w 0x20 0x22 (maskOp c w true fun a b => a &&& b) s

/-- MOR of two mask registers (R115). -/
def execMor (c : Fin 192) (w : Word) (s : State) : Out :=
  instr (.core c) w 0x20 0x23 (maskOp c w true fun a b => a ||| b) s

/-- MXOR of two mask registers (R115). -/
def execMxor (c : Fin 192) (w : Word) (s : State) : Out :=
  instr (.core c) w 0x20 0x24 (maskOp c w true fun a b => a ^^^ b) s

/-- MNOT of a mask register (R115). -/
def execMnot (c : Fin 192) (w : Word) (s : State) : Out :=
  instr (.core c) w 0x20 0x25 (maskOp c w false fun a _ => ~~~ a) s

/-- RAND: one draw of every lane; FP32 takes 24 bits as r * 2^-24, INT32 takes 32 bits (R113, R115). -/
def execRand (c : Fin 192) (w : Word) (s : State) : Out :=
  instr (.core c) w 0x20 0x26 (fun s =>
    let t := vType w
    if (coreOf c s).reseed.isSome then holdIssue (.core c) 0x03 s
    else vecStep c (t == 0x01 || t == 0x0B) (fun v =>
      let d := drawLanes (if t == 0x01 then 24 else 32) v
      applyLanes (vD w) (mreg v (vMask w)) (fun l =>
        let r := d.2.getD l 0
        (BitVec.ofNat 32 (if t == 0x01 then exactCode 0x01 (.fin false r (-24)) else r), 0)) d.1) s) s

/-! ## Reductions (R119, Table 05-4) -/

/-- The identity of a reduction, for an empty set. -/
def reduceEmpty (op t : Nat) : Nat :=
  match op with
  | 0 => 0
  | 1 => if intType t then 2 ^ 31 else exactCode t (.inf true)
  | 2 => if intType t then 2 ^ 31 - 1 else exactCode t (.inf false)
  | _ => if intType t then 1 else exactCode t (.fin false 1 0)

/-- An INT32 reduction of the set: SUM and PROD wrap. -/
def reduceInt (op : Nat) (xs : List Nat) : Nat :=
  match op with
  | 0 => sumNat xs % 2 ^ 32
  | 1 => xs.foldl (fun a b => if sltNat a b then b else a) (2 ^ 31)
  | 2 => xs.foldl (fun a b => if sltNat b a then b else a) (2 ^ 31 - 1)
  | _ => xs.foldl (fun a b => a * b % 2 ^ 32) 1

/-- A floating-point reduction of the set: `xs` are the unmasked lanes, `all` every position with 1 where masked off. -/
def reduceFloat (op t : Nat) (xs all : List Fp) : Nat × BitVec 7 :=
  match op with
  | 0 =>
    let r := sumExact xs
    withInv r.2 (roundArith t (match r.1 with | .fin _ 0 e => .fin false 0 e | x => x))
  | 1 => (exactCode t (xs.foldl maxFp (xs.headD (.inf true))), 0)
  | 2 => (exactCode t (xs.foldl minFp (xs.headD (.inf false))), 0)
  | _ =>
    let r := prodTree t 7 all
    (exactCode t r.1, r.2)

/-- A reduction of the lanes of a mask. -/
def reduceLanes (op t r : Nat) (mask : BitVec 128) (v : VecSt) : LaneOut :=
  let on := lanes.filter fun (l : Fin 128) => mask.getLsbD l
  if on.isEmpty then laneOut (reduceEmpty op t, flagEMPTY)
  else if intType t then laneOut (reduceInt op (on.map fun l => laneBits t v r l), 0)
  else laneOut (reduceFloat op t (on.map fun l => laneAt t v r l)
    (lanes.map fun (l : Fin 128) => if mask.getLsbD l then laneAt t v r l else .fin false 1 0))

/-- REDUCE: the reduction in every lane of vd (R119). -/
def execReduce (c : Fin 192) (w : Word) (s : State) : Out :=
  instr (.core c) w 0x20 0x27 (vecStep c (arithType (vType w) && decide (fld w 47 4 ≤ 3)) fun v =>
    let r := reduceLanes (fld w 47 4) (vType w) (vA w) (mreg v (vMask w)) v
    applyLanes (vD w) (BitVec.allOnes 128) (fun _ => r) v) s

/-! ## Softmax (R120 to R124) -/

/-- SMX.INIT: M = -∞ and L, N, Q zero in every lane (R121). -/
def execSmxInit (c : Fin 192) (w : Word) (s : State) : Out :=
  instr (.core c) w 0x20 0x28 (vecStep c (vD w % 4 == 0) fun v =>
    let all := BitVec.allOnes 128
    let b := vD w
    setV (b + 3) all (fun _ => 0) (setV (b + 2) all (fun _ => 0) (setV (b + 1) all (fun _ => 0)
      (setV b all (fun _ => 0xFF800000) v)))) s

/-- The exact difference of two values. -/
def diffFp (x y : Fp) : Fp := (addExact x (negExact y)).1

/-- One lane of SMX.STEP: the new M, L, N, Q and the flags of its exponentials and its fma (R122). -/
def smxLane (m l n q : W32) (x : Fp) : (W32 × W32 × W32 × W32) × BitVec 7 :=
  match x with
  | .nan => ((m, l, n, q ||| 1), 0)
  | .inf true => ((m, l, n, q ||| 2), 0)
  | .inf false => ((m, l, if n == 0x7FFFFFFF then n else n + 1, q), 0)
  | .fin _ _ _ =>
    let mv := decodeFloat 0x01 m.toNat
    let m' := maxFp mv x
    let e := if mv == .inf true then ((0 : Nat), (0 : BitVec 7)) else expOp 0x01 (diffFp mv m')
    let t := expOp 0x01 (diffFp x m')
    let r := fmaOp 0x01 (decodeFloat 0x01 l.toNat) (decodeFloat 0x01 e.1) (decodeFloat 0x01 t.1)
    ((BitVec.ofNat 32 (exactCode 0x01 m'), BitVec.ofNat 32 r.1, n, q ||| 4), e.2 ||| t.2 ||| r.2)

/-- SMX.STEP over the lanes of a mask. -/
def smxStep (b a : Nat) (mask : BitVec 128) (v : VecSt) : VecSt :=
  let out := Vector.ofFn fun l : Fin 128 =>
    smxLane (vreg v b)[l] (vreg v (b + 1))[l] (vreg v (b + 2))[l] (vreg v (b + 3))[l] (laneAt 0x01 v a l)
  let fl := orFlags (lanes.map fun (l : Fin 128) => if mask.getLsbD l then out[l].2 else 0)
  raiseVec fl (setV (b + 3) mask (fun l => out[l].1.2.2.2) (setV (b + 2) mask (fun l => out[l].1.2.2.1)
    (setV (b + 1) mask (fun l => out[l].1.2.1) (setV b mask (fun l => out[l].1.1) v))))

/-- SMX.STEP (R122). -/
def execSmxStep (c : Fin 192) (w : Word) (s : State) : Out :=
  instr (.core c) w 0x20 0x29
    (vecStep c (vD w % 4 == 0) fun v => smxStep (vD w) (vA w) (mreg v (vMask w)) v) s

/-- One lane of SMX.NORM: its result and flags by the state first (R124, Table 05-5). -/
def smxNormLane (m l n q : W32) (on : Bool) (x : Fp) : LaneOut :=
  let pos := !n.getLsbD 31 && n != 0
  if q.getLsbD 0 || (pos && q.getLsbD 1) then (BitVec.ofNat 32 (nanCode 0x01), flagINV)
  else if n == 0 && !q.getLsbD 2 then (0, flagEMPTY)
  else if pos then
    if on && x == .inf false then laneOut (divOp 0x01 (.fin false 1 0) (.fin false n.toNat 0)) else (0, 0)
  else if on then
    let e := expOp 0x01 (diffFp x (decodeFloat 0x01 m.toNat))
    let r := divOp 0x01 (decodeFloat 0x01 e.1) (decodeFloat 0x01 l.toNat)
    (BitVec.ofNat 32 r.1, e.2 ||| r.2)
  else (0, 0)

/-- SMX.NORM: every lane written from its state (R124). -/
def execSmxNorm (c : Fin 192) (w : Word) (s : State) : Out :=
  instr (.core c) w 0x20 0x2A (vecStep c (vB w % 4 == 0) fun v =>
    let b := vB w
    let mk := mreg v (vMask w)
    applyLanes (vD w) (BitVec.allOnes 128) (fun l =>
      smxNormLane (vreg v b)[l] (vreg v (b + 1))[l] (vreg v (b + 2))[l] (vreg v (b + 3))[l] (mk.getLsbD l)
        (laneAt 0x01 v (vA w) l)) v) s

/-- TILE: the output tile closes and one opens at the given coordinates (R126). -/
def execTile (c : Fin 192) (w : Word) (s : State) : Out :=
  instr (.core c) w 0x20 0x2B (fun s =>
    let x := sreg (coreOf c s).seq (fld w 51 5)
    vecStep c true (openTile (x.extractLsb' 0 16) (x.extractLsb' 16 16) 0) s) s

/-! ## LOAD and STORE (R111, R113, R129, R150) -/

/-- The fields of a VMEM word (Table 06-10). -/
def mType (w : Word) : Nat := fld w 22 4
def mFmt (w : Word) : Nat := fld w 26 4
def mMask (w : Word) : Nat := fld w 30 3
def mRound (w : Word) : Nat := fld w 33 3
def mOvf (w : Word) : Bool := fld w 36 1 == 1
def mSidx (w : Word) : Nat := fld w 40 5

/-- The Desk spans of a VMEM access as (address, bytes): one span, or the scales and the elements of four blocks of an
SSB32 tensor (R57, R150); none when the element index is out of range. -/
def vmemSpans (q : Seq) (w : Word) : Option (List (Nat × Nat)) :=
  let base := areg q (fld w 17 4)
  match ssbElem (mFmt w) with
  | none => some [((base + fld w 40 22) % 2 ^ 48, tensorBytes (mFmt w) 128)]
  | some _ =>
    let x := sreg q (mSidx w)
    let i := fieldNat x 0 32
    let blocks := fieldNat x 32 32
    let b := i / 32
    let g := b / 32
    let k := min 32 (blocks - 32 * g)
    let half := if mFmt w == 0x0A then 2 else 1
    let group := if mFmt w == 0x0A then 544 else 1056
    if i % 128 == 0 && decide (b + 4 ≤ blocks) then
      some [(base + group * g + b % 32, 4), (base + group * g + k + (i - 1024 * g) / half, 128 / half)]
    else none

/-- The post-increment of a VMEM access (R150). -/
def vmemInc (w : Word) (q : Seq) : Seq :=
  if fld w 21 1 == 0 then q
  else match ssbElem (mFmt w) with
    | none => setA (fld w 17 4) (areg q (fld w 17 4) + tensorBytes (mFmt w) 128) q
    | some _ =>
      let x := sreg q (mSidx w)
      setS (mSidx w) (BitVec.ofNat 64 ((fieldNat x 0 32 + 128) % 2 ^ 32 + fieldNat x 32 32 * 2 ^ 32)) q

/-- The 128 values a LOAD reads from the bytes of its spans. -/
def vmemValues (fmt : Nat) (parts : List (List Byte)) : List Fp :=
  match ssbElem fmt, parts with
  | some ef, [sc, es] =>
    (List.zip sc (chunks 32 (unpackCodes (elemBits fmt) es))).flatMap fun b =>
      b.2.map fun x => scaleBy b.1.toNat (decodeFloat ef x)
  | _, ps => (unpackCodes (elemBits fmt) ps.flatten).map (decodeCode fmt)

/-- Reading the spans of a VMEM access in turn. -/
def readSpans (k : Core) (free : Nat) (sps : List (Nat × Nat)) : List (List Byte) :=
  sps.map fun p => deskRead k free p.1 p.2

/-- The body of LOAD. A span behind a fence that is not resolved stops the lesson, one whose fence is about to lift holds
the sequencer (R151, R186). -/
def loadBody (c : Fin 192) (w : Word) (s : State) : State :=
  let k := coreOf c s
  let t := mType w
  let round := mRound w
  if !arithType t || !loadFmt (mFmt w) || decide (4 < round) || mOvf w then stopCore c 0x0004 s
  else match vmemSpans k.seq w with
    | none => stopCore c 0x0004 s
    | some sps =>
      if sps.any fun p => !deskSpan p.1 p.2 || openFenceMeets k p.1 p.2 then stopCore c 0x0004 s
      else if sps.any fun p => fenceMeets k p.1 p.2 then holdIssue (.core c) 0x05 s
      else if round == 4 && k.reseed.isSome then holdIssue (.core c) 0x03 s
      else
        let rule := coreRule c round false s
        let xs := (vmemValues (mFmt w) (readSpans k s.free sps)).toArray
        let d := roundDraws round rule.2.1 k.vec
        let v := applyLanes (fld w 12 5) (mreg k.vec (mMask w))
          (fun l => laneOut (encodeElem t rule (d.2.getD l 0) (xs.getD l (.fin false 0 0)))) d.1
        let s := sps.foldl (fun s p => deskDraw c p.1 p.2 s) s
        advance (.core c) (modCore c (fun k => { k with vec := v, seq := vmemInc w k.seq }) s)

/-- LOAD (R150). -/
def execLoad (c : Fin 192) (w : Word) (s : State) : Out := instr (.core c) w 0x21 0x00 (loadBody c w) s

/-- The codes and flags of a STORE to an unscaled format, lane by lane. -/
def storeCodes (k : Core) (w : Word) (rule : ConvRule) (rs : List Nat) : List (Nat × BitVec 7) :=
  lanes.map fun (l : Fin 128) =>
    encodeElem (mFmt w) rule (rs.getD l 0) (laneAt (mType w) k.vec (fld w 12 5) l)

/-- The Desk writes of a STORE as (address, bytes), its flags, and the values and flags of its unmasked elements as
written (R112, R129). -/
def storeWrites (k : Core) (w : Word) (rule : ConvRule) (rs : List Nat) (sps : List (Nat × Nat)) :
    List (Nat × List Byte) × List (Fp × BitVec 7) :=
  let mk := mreg k.vec (mMask w)
  match ssbElem (mFmt w), sps with
  | some ef, [sc, es] =>
    let xs := lanes.map fun (l : Fin 128) => laneAt (mType w) k.vec (fld w 12 5) l
    let bl := List.zipWith (encodeBlock ef rule) (chunks 32 rs) (chunks 32 xs)
    ([(sc.1, bl.map fun b => BitVec.ofNat 8 b.1), (es.1, bl.flatMap fun b => packCodes (elemBits (mFmt w)) (b.2.map Prod.fst))],
     bl.flatMap fun b => b.2.map fun x => (scaleBy b.1 (decodeFloat ef x.1), x.2))
  | _, _ =>
    let a := (sps.headD (0, 0)).1
    let n := elemBits (mFmt w) / 8
    let on := ((storeCodes k w rule rs).zipIdx).filter fun x => mk.getLsbD x.2
    (on.map fun x => (a + n * x.2, leBytes n x.1.1), on.map fun x => (decodeCode (mFmt w) x.1.1, x.1.2))

/-- The body of STORE. A span that is fenced stops the lesson (R186). -/
def storeBody (c : Fin 192) (w : Word) (s : State) : State :=
  let k := coreOf c s
  let round := mRound w
  let fmt := mFmt w
  if !arithType (mType w) || !storeFmt fmt || decide (4 < round) || (mOvf w && !ovfAllowed fmt)
      || ((ssbElem fmt).isSome && mMask w != 0) then stopCore c 0x0004 s
  else match vmemSpans k.seq w with
    | none => stopCore c 0x0004 s
    | some sps =>
      if sps.any fun p => !deskSpan p.1 p.2 || fenceMeets k p.1 p.2 then stopCore c 0x0004 s
      else if round == 4 && k.reseed.isSome then holdIssue (.core c) 0x03 s
      else
        let rule := coreRule c round (mOvf w) s
        let d := roundDraws round rule.2.1 k.vec
        let r := storeWrites k w rule d.2 sps
        let fs := r.2.map Prod.snd
        let s := match k.statTag with
          | some t => countWrite c t (countsOf (r.2.map Prod.fst) (fs.countP fun f => f.getLsbD 5)) s
          | none => s
        let s := modCore c (fun k => { k with vec := raiseVec (orFlags fs) d.1, seq := vmemInc w k.seq }) s
        advance (.core c) (r.1.foldl (fun s x => deskWrite c x.1 x.2 s) s)

/-- STORE (R150). -/
def execStore (c : Fin 192) (w : Word) (s : State) : Out := instr (.core c) w 0x21 0x01 (storeBody c w) s

/-! ## POP (R107 to R109) -/

/-- The next row of an entry taken into a register: the first row meets the output tile, the last frees the entry (R107,
R125, R126). -/
def takeRow (v : Nat) (e : Entry) (k : Core) : Core :=
  let row := (e.data.getD e.next []).toArray
  let vec := setV v (BitVec.allOnes 128) (fun l => row.getD l 0) k.vec
  let es := if e.next + 1 ≥ e.rows then k.tile.entries.filter fun x => x.seq != e.seq
    else mapIf (fun x => x.seq == e.seq) (fun x => { x with st := .popping, next := x.next + 1 }) k.tile.entries
  { k with vec := if e.next == 0 then popFlags e vec else vec, tile := { k.tile with entries := es }, waitPop := none }

/-- Whether an entry's rows can be popped now. -/
def poppable (e : Entry) : Bool := e.st == .visible || e.st == .popping

/-- The body of POP. -/
def popBody (c : Fin 192) (w : Word) (s : State) : State :=
  let t := (coreOf c s).tile
  let v := fld w 12 5
  let acc := fld w 37 3
  match (accEntries acc t).head? with
  | none => stopCore c 0x0004 s
  | some e =>
    if e.open' || (e.st == .waiting && tileStuck t) then stopCore c 0x0004 s
    else if (t.entries.any fun x => x.acc == acc && x.st == .draining) || !poppable e then
      modCore c (fun k => { k with waitPop := some (v, acc) }) (advance (.core c) s)
    else advance (.core c) (modCore c (takeRow v e) s)

/-- POP (R107). -/
def execPop (c : Fin 192) (w : Word) (s : State) : Out := instr (.core c) w 0x21 0x02 (popBody c w) s

/-- POP_ROW_DELIVER (R107): a POP that waits finds its entry visible and takes its row. -/
def execPopRowDeliver (c : Fin 192) (s : State) : Out :=
  .next <|
    match (coreOf c s).waitPop with
    | none => s
    | some (v, acc) =>
      let t := (coreOf c s).tile
      match (t.entries.filter fun e => e.acc == acc).head? with
      | none => s
      | some e => if poppable e then modCore c (takeRow v e) s else s

end Sys2Proof.Machine
end

