-- ==== Sys2Proof/Machine/Dispatch.lean ====
section
/-!
DEFINITION. Machine/Dispatch.lean: one arm per command of the table, in the table's order; each is one direct call of
that command's meaning.
-/

namespace Sys2Proof.Machine

/-- The effect of one command on the block, its queue apart. -/
def exec (i : Instr) (s : State) : Host.Outcome State Fault Refusal :=
  match i with
  | .lessonRun d => Sys2Proof.Machine.execLessonRun d s
  | .tensorMove d => Sys2Proof.Machine.execTensorMove d s
  | .exchange d => Sys2Proof.Machine.execExchange d s
  | .roundSend d => Sys2Proof.Machine.execRoundSend d s
  | .ruleBind d => Sys2Proof.Machine.execRuleBind d s
  | .ruleRelease d => Sys2Proof.Machine.execRuleRelease d s
  | .stepOpen d => Sys2Proof.Machine.execStepOpen d s
  | .stepCommit d => Sys2Proof.Machine.execStepCommit d s
  | .examOpen d => Sys2Proof.Machine.execExamOpen d s
  | .examClose d => Sys2Proof.Machine.execExamClose d s
  | .deltaExport d => Sys2Proof.Machine.execDeltaExport d s
  | .wait d => Sys2Proof.Machine.execWait d s
  | .statsRead d => Sys2Proof.Machine.execStatsRead d s
  | .snapshot d => Sys2Proof.Machine.execSnapshot d s
  | .undefinedOpcode opcode d => Sys2Proof.Machine.execUndefinedOpcode opcode d s
  | .channelCreate d => Sys2Proof.Machine.execChannelCreate d s
  | .channelAdopt d => Sys2Proof.Machine.execChannelAdopt d s
  | .channelDestroy d => Sys2Proof.Machine.execChannelDestroy d s
  | .mapMemory d => Sys2Proof.Machine.execMapMemory d s
  | .unmap d => Sys2Proof.Machine.execUnmap d s
  | .groupDefine d => Sys2Proof.Machine.execGroupDefine d s
  | .deskmatePair d => Sys2Proof.Machine.execDeskmatePair d s
  | .penPalDefine d => Sys2Proof.Machine.execPenPalDefine d s
  | .topologyLoad d => Sys2Proof.Machine.execTopologyLoad d s
  | .policyLimits d => Sys2Proof.Machine.execPolicyLimits d s
  | .keyInstall d => Sys2Proof.Machine.execKeyInstall d s
  | .fencedDescriptorStart id => Sys2Proof.Machine.execFencedDescriptorStart id s
  | .unmapRelease id => Sys2Proof.Machine.execUnmapRelease id s
  | .stepOpenRelease id => Sys2Proof.Machine.execStepOpenRelease id s
  | .examOpenRelease id => Sys2Proof.Machine.execExamOpenRelease id s
  | .ruleBindRelease id => Sys2Proof.Machine.execRuleBindRelease id s
  | .waitSatisfied id => Sys2Proof.Machine.execWaitSatisfied id s
  | .waitTimeout id => Sys2Proof.Machine.execWaitTimeout id s
  | .deskmatePairFormed id => Sys2Proof.Machine.execDeskmatePairFormed id s
  | .sqTailWrite p slot offset size value => Sys2Proof.Machine.execSqTailWrite p slot offset size value s
  | .cqHeadWrite p slot size value => Sys2Proof.Machine.execCqHeadWrite p slot size value s
  | .completionWrite slot => Sys2Proof.Machine.execCompletionWrite slot s
  | .coalesceTimerExpiry slot => Sys2Proof.Machine.execCoalesceTimerExpiry slot s
  | .portLinkDownTimeout p => Sys2Proof.Machine.execPortLinkDownTimeout p s
  | .peerFenceWrite p => Sys2Proof.Machine.execPeerFenceWrite p s
  | .selfFenceClear p coincident => Sys2Proof.Machine.execSelfFenceClear p coincident s
  | .adminEnable p => Sys2Proof.Machine.execAdminEnable p s
  | .adminDisable p => Sys2Proof.Machine.execAdminDisable p s
  | .portReset p => Sys2Proof.Machine.execPortReset p s
  | .admissionDecision id => Sys2Proof.Machine.execAdmissionDecision id s
  | .exchangeFinal id => Sys2Proof.Machine.execExchangeFinal id s
  | .saluAdd p w => Sys2Proof.Machine.execSaluAdd p w s
  | .saluSub p w => Sys2Proof.Machine.execSaluSub p w s
  | .saluMul p w => Sys2Proof.Machine.execSaluMul p w s
  | .saluMulhu p w => Sys2Proof.Machine.execSaluMulhu p w s
  | .saluDivu p w => Sys2Proof.Machine.execSaluDivu p w s
  | .saluRemu p w => Sys2Proof.Machine.execSaluRemu p w s
  | .saluAnd p w => Sys2Proof.Machine.execSaluAnd p w s
  | .saluOr p w => Sys2Proof.Machine.execSaluOr p w s
  | .saluXor p w => Sys2Proof.Machine.execSaluXor p w s
  | .saluShl p w => Sys2Proof.Machine.execSaluShl p w s
  | .saluShr p w => Sys2Proof.Machine.execSaluShr p w s
  | .saluSra p w => Sys2Proof.Machine.execSaluSra p w s
  | .saluMin p w => Sys2Proof.Machine.execSaluMin p w s
  | .saluMax p w => Sys2Proof.Machine.execSaluMax p w s
  | .saluMinu p w => Sys2Proof.Machine.execSaluMinu p w s
  | .saluMaxu p w => Sys2Proof.Machine.execSaluMaxu p w s
  | .scmpEq p w => Sys2Proof.Machine.execScmpEq p w s
  | .scmpNe p w => Sys2Proof.Machine.execScmpNe p w s
  | .scmpLt p w => Sys2Proof.Machine.execScmpLt p w s
  | .scmpLtu p w => Sys2Proof.Machine.execScmpLtu p w s
  | .scmpGe p w => Sys2Proof.Machine.execScmpGe p w s
  | .scmpGeu p w => Sys2Proof.Machine.execScmpGeu p w s
  | .li p w => Sys2Proof.Machine.execLi p w s
  | .lih p w => Sys2Proof.Machine.execLih p w s
  | .beqz p w => Sys2Proof.Machine.execBeqz p w s
  | .bnez p w => Sys2Proof.Machine.execBnez p w s
  | .bltz p w => Sys2Proof.Machine.execBltz p w s
  | .bgez p w => Sys2Proof.Machine.execBgez p w s
  | .btok p w => Sys2Proof.Machine.execBtok p w s
  | .nop p w => Sys2Proof.Machine.execNop p w s
  | .jmp p w => Sys2Proof.Machine.execJmp p w s
  | .call p w => Sys2Proof.Machine.execCall p w s
  | .jr p w => Sys2Proof.Machine.execJr p w s
  | .halt p w => Sys2Proof.Machine.execHalt p w s
  | .amov p w => Sys2Proof.Machine.execAmov p w s
  | .aadd p w => Sys2Proof.Machine.execAadd p w s
  | .aadds p w => Sys2Proof.Machine.execAadds p w s
  | .ard p w => Sys2Proof.Machine.execArd p w s
  | .rdtime p w => Sys2Proof.Machine.execRdtime p w s
  | .rdid p w => Sys2Proof.Machine.execRdid p w s
  | .rdflag c w => Sys2Proof.Machine.execRdflag c w s
  | .clrflag c w coincident => Sys2Proof.Machine.execClrflag c w coincident s
  | .setstream c w => Sys2Proof.Machine.execSetstream c w s
  | .rdcyc p w => Sys2Proof.Machine.execRdcyc p w s
  | .sld p w => Sys2Proof.Machine.execSld p w s
  | .sst p w => Sys2Proof.Machine.execSst p w s
  | .dld c w => Sys2Proof.Machine.execDld c w s
  | .dst c w => Sys2Proof.Machine.execDst c w s
  | .gather c w => Sys2Proof.Machine.execGather c w s
  | .scatter c w => Sys2Proof.Machine.execScatter c w s
  | .sadd c w => Sys2Proof.Machine.execSadd c w s
  | .smin c w => Sys2Proof.Machine.execSmin c w s
  | .smax c w => Sys2Proof.Machine.execSmax c w s
  | .fill c w => Sys2Proof.Machine.execFill c w s
  | .swap c w => Sys2Proof.Machine.execSwap c w s
  | .stream c w => Sys2Proof.Machine.execStream c w s
  | .drain c w => Sys2Proof.Machine.execDrain c w s
  | .vopAdd c w => Sys2Proof.Machine.execVopAdd c w s
  | .vopSub c w => Sys2Proof.Machine.execVopSub c w s
  | .vopMul c w => Sys2Proof.Machine.execVopMul c w s
  | .fma c w => Sys2Proof.Machine.execFma c w s
  | .vopMax c w => Sys2Proof.Machine.execVopMax c w s
  | .vopMin c w => Sys2Proof.Machine.execVopMin c w s
  | .abs c w => Sys2Proof.Machine.execAbs c w s
  | .neg c w => Sys2Proof.Machine.execNeg c w s
  | .div c w => Sys2Proof.Machine.execDiv c w s
  | .rcp c w => Sys2Proof.Machine.execRcp c w s
  | .sqrt c w => Sys2Proof.Machine.execSqrt c w s
  | .rsqrt c w => Sys2Proof.Machine.execRsqrt c w s
  | .exp c w => Sys2Proof.Machine.execExp c w s
  | .exp2 c w => Sys2Proof.Machine.execExp2 c w s
  | .log c w => Sys2Proof.Machine.execLog c w s
  | .log2 c w => Sys2Proof.Machine.execLog2 c w s
  | .tanh c w => Sys2Proof.Machine.execTanh c w s
  | .cvt c w => Sys2Proof.Machine.execCvt c w s
  | .cmp c w => Sys2Proof.Machine.execCmp c w s
  | .sel c w => Sys2Proof.Machine.execSel c w s
  | .iadd c w => Sys2Proof.Machine.execIadd c w s
  | .isub c w => Sys2Proof.Machine.execIsub c w s
  | .imul c w => Sys2Proof.Machine.execImul c w s
  | .imax c w => Sys2Proof.Machine.execImax c w s
  | .imin c w => Sys2Proof.Machine.execImin c w s
  | .vopAnd c w => Sys2Proof.Machine.execVopAnd c w s
  | .vopOr c w => Sys2Proof.Machine.execVopOr c w s
  | .vopXor c w => Sys2Proof.Machine.execVopXor c w s
  | .vopShl c w => Sys2Proof.Machine.execVopShl c w s
  | .vopShr c w => Sys2Proof.Machine.execVopShr c w s
  | .vopSra c w => Sys2Proof.Machine.execVopSra c w s
  | .bcast c w => Sys2Proof.Machine.execBcast c w s
  | .iota c w => Sys2Proof.Machine.execIota c w s
  | .rot c w => Sys2Proof.Machine.execRot c w s
  | .mand c w => Sys2Proof.Machine.execMand c w s
  | .mor c w => Sys2Proof.Machine.execMor c w s
  | .mxor c w => Sys2Proof.Machine.execMxor c w s
  | .mnot c w => Sys2Proof.Machine.execMnot c w s
  | .rand c w => Sys2Proof.Machine.execRand c w s
  | .reduce c w => Sys2Proof.Machine.execReduce c w s
  | .smxInit c w => Sys2Proof.Machine.execSmxInit c w s
  | .smxStep c w => Sys2Proof.Machine.execSmxStep c w s
  | .smxNorm c w => Sys2Proof.Machine.execSmxNorm c w s
  | .tile c w => Sys2Proof.Machine.execTile c w s
  | .load c w => Sys2Proof.Machine.execLoad c w s
  | .store c w => Sys2Proof.Machine.execStore c w s
  | .pop c w => Sys2Proof.Machine.execPop c w s
  | .route c w => Sys2Proof.Machine.execRoute c w s
  | .predict c w => Sys2Proof.Machine.execPredict c w s
  | .confirm c w => Sys2Proof.Machine.execConfirm c w s
  | .squash c w => Sys2Proof.Machine.execSquash c w s
  | .syncWait p w => Sys2Proof.Machine.execSyncWait p w s
  | .signal c w => Sys2Proof.Machine.execSignal c w s
  | .waitev c w => Sys2Proof.Machine.execWaitev c w s
  | .bar c w => Sys2Proof.Machine.execBar c w s
  | .xpost c w => Sys2Proof.Machine.execXpost c w s
  | .statTag c w => Sys2Proof.Machine.execStatTag c w s
  | .statRead c w => Sys2Proof.Machine.execStatRead c w s
  | .slot l w => Sys2Proof.Machine.execSlot l w s
  | .send l w => Sys2Proof.Machine.execSend l w s
  | .expect l w => Sys2Proof.Machine.execExpect l w s
  | .fold l w => Sys2Proof.Machine.execFold l w s
  | .deliver l w => Sys2Proof.Machine.execDeliver l w s
  | .scrub m w => Sys2Proof.Machine.execScrub m w s
  | .move m w => Sys2Proof.Machine.execMove m w s
  | .exportRec m w => Sys2Proof.Machine.execExportRec m w s
  | .catchup m w => Sys2Proof.Machine.execCatchup m w s
  | .dmaComplete c toMemory => Sys2Proof.Machine.execDmaComplete c toMemory s
  | .narrowComplete c seq => Sys2Proof.Machine.execNarrowComplete c seq s
  | .fillComplete c bank => Sys2Proof.Machine.execFillComplete c bank s
  | .passStart c => Sys2Proof.Machine.execPassStart c s
  | .passClose c => Sys2Proof.Machine.execPassClose c s
  | .drainComplete c => Sys2Proof.Machine.execDrainComplete c s
  | .popRowDeliver c => Sys2Proof.Machine.execPopRowDeliver c s
  | .routeComplete c => Sys2Proof.Machine.execRouteComplete c s
  | .predictLand c handle => Sys2Proof.Machine.execPredictLand c handle s
  | .predictCopyDone c handle => Sys2Proof.Machine.execPredictCopyDone c handle s
  | .squashShareFreed c handle => Sys2Proof.Machine.execSquashShareFreed c handle s
  | .signalLand c event => Sys2Proof.Machine.execSignalLand c event s
  | .waitevRelease c => Sys2Proof.Machine.execWaitevRelease c s
  | .barRelease run scope form => Sys2Proof.Machine.execBarRelease run scope form s
  | .setstreamReseedDone c => Sys2Proof.Machine.execSetstreamReseedDone c s
  | .slotRelease l => Sys2Proof.Machine.execSlotRelease l s
  | .linkOpComplete l tok => Sys2Proof.Machine.execLinkOpComplete l tok s
  | .sweepOpComplete m tok => Sys2Proof.Machine.execSweepOpComplete m tok s
  | .lessonRunComplete run => Sys2Proof.Machine.execLessonRunComplete run s
  | .sequencerWatchdog c => Sys2Proof.Machine.execSequencerWatchdog c s
  | .coreFence c => Sys2Proof.Machine.execCoreFence c s
  | .nmuUnitUpdate pass unit => Sys2Proof.Machine.execNmuUnitUpdate pass unit s
  | .ownerCommitReport group => Sys2Proof.Machine.execOwnerCommitReport group s
  | .commitReportReceive l it => Sys2Proof.Machine.execCommitReportReceive l it s
  | .mirrorAckReceive l it => Sys2Proof.Machine.execMirrorAckReceive l it s
  | .commitDecisionReceive l it => Sys2Proof.Machine.execCommitDecisionReceive l it s
  | .mirrorRecordReceive l sg => Sys2Proof.Machine.execMirrorRecordReceive l sg s
  | .heartbeatSend l => Sys2Proof.Machine.execHeartbeatSend l s
  | .heartbeatReceive l it => Sys2Proof.Machine.execHeartbeatReceive l it s
  | .heartbeatTimeout => Sys2Proof.Machine.execHeartbeatTimeout s
  | .takeoverRequestReceive l it => Sys2Proof.Machine.execTakeoverRequestReceive l it s
  | .takeoverReplyReceive l it => Sys2Proof.Machine.execTakeoverReplyReceive l it s
  | .rankMovedReceive l it => Sys2Proof.Machine.execRankMovedReceive l it s
  | .redoRequestReceive l it => Sys2Proof.Machine.execRedoRequestReceive l it s
  | .digestReceive l it => Sys2Proof.Machine.execDigestReceive l it s
  | .repairRequestReceive l it => Sys2Proof.Machine.execRepairRequestReceive l it s
  | .exportAppend id => Sys2Proof.Machine.execExportAppend id s
  | .memUncorrectable fastAddr => Sys2Proof.Machine.execMemUncorrectable fastAddr s
  | .dataRebuildDone fastAddr => Sys2Proof.Machine.execDataRebuildDone fastAddr s
  | .repairLineReplace ch line => Sys2Proof.Machine.execRepairLineReplace ch line s
  | .channelMapOut ch cause => Sys2Proof.Machine.execChannelMapOut ch cause s
  | .slotMoveDone slot => Sys2Proof.Machine.execSlotMoveDone slot s
  | .mapChangeAcked slot => Sys2Proof.Machine.execMapChangeAcked slot s
  | .stackTempSample m celsius => Sys2Proof.Machine.execStackTempSample m celsius s
  | .stackRetrainPark m => Sys2Proof.Machine.execStackRetrainPark m s
  | .stackRetrainDone m => Sys2Proof.Machine.execStackRetrainDone m s
  | .bdMissFill entry => Sys2Proof.Machine.execBdMissFill entry s
  | .streamContextGranted engine => Sys2Proof.Machine.execStreamContextGranted engine s
  | .engineQueueRelease engine => Sys2Proof.Machine.execEngineQueueRelease engine s
  | .engineFence engine => Sys2Proof.Machine.execEngineFence engine s
  | .linkLock l => Sys2Proof.Machine.execLinkLock l s
  | .linkTrainingDone l lanes delayNs => Sys2Proof.Machine.execLinkTrainingDone l lanes delayNs s
  | .laneLost l lane => Sys2Proof.Machine.execLaneLost l lane s
  | .laneRetrainDone l => Sys2Proof.Machine.execLaneRetrainDone l s
  | .linkAckTimeout l => Sys2Proof.Machine.execLinkAckTimeout l s
  | .linkAutoRetrain l => Sys2Proof.Machine.execLinkAutoRetrain l s
  | .frameTransmit l => Sys2Proof.Machine.execFrameTransmit l s
  | .frameReceive l f => Sys2Proof.Machine.execFrameReceive l f s
  | .segmentReceive l sg => Sys2Proof.Machine.execSegmentReceive l sg s
  | .abortReceive l it => Sys2Proof.Machine.execAbortReceive l it s
  | .voidReceive l it => Sys2Proof.Machine.execVoidReceive l it s
  | .resendReceive l it => Sys2Proof.Machine.execResendReceive l it s
  | .keyReadyReceive l it => Sys2Proof.Machine.execKeyReadyReceive l it s
  | .foldParkTimeout l pass => Sys2Proof.Machine.execFoldParkTimeout l pass s
  | .holdOutExpiry l => Sys2Proof.Machine.execHoldOutExpiry l s
  | .creditStallTimeout l => Sys2Proof.Machine.execCreditStallTimeout l s
  | .sorterFence l => Sys2Proof.Machine.execSorterFence l s
  | .linkFlushWrite p value => Sys2Proof.Machine.execLinkFlushWrite p value s
  | .linkEnableWrite p l enable => Sys2Proof.Machine.execLinkEnableWrite p l enable s
  | .linkRetrainWrite p l => Sys2Proof.Machine.execLinkRetrainWrite p l s
  | .linkReleaseWrite p l => Sys2Proof.Machine.execLinkReleaseWrite p l s
  | .egressWmWrite p l value => Sys2Proof.Machine.execEgressWmWrite p l value s
  | .linkFlagsClear p l value coincident => Sys2Proof.Machine.execLinkFlagsClear p l value coincident s
  | .retriedRead p l whole coincident => Sys2Proof.Machine.execRetriedRead p l whole coincident s
  | .fecCorrectedRead p l whole coincident => Sys2Proof.Machine.execFecCorrectedRead p l whole coincident s
  | .farFrameReceive l f => Sys2Proof.Machine.execFarFrameReceive l f s
  | .stripeOverdue l stripe => Sys2Proof.Machine.execStripeOverdue l stripe s
  | .repairRerequest l stripe => Sys2Proof.Machine.execRepairRerequest l stripe s
  | .farAckSend l => Sys2Proof.Machine.execFarAckSend l s
  | .farAckReceive l it t3 => Sys2Proof.Machine.execFarAckReceive l it t3 s
  | .farResendReceive l it => Sys2Proof.Machine.execFarResendReceive l it s
  | .farSilenceTimeout l => Sys2Proof.Machine.execFarSilenceTimeout l s
  | .pathOutOfContract l => Sys2Proof.Machine.execPathOutOfContract l s
  | .pathBackInContract l => Sys2Proof.Machine.execPathBackInContract l s
  | .roundStateSend pal region => Sys2Proof.Machine.execRoundStateSend pal region s
  | .roundStateReceive l it sender region => Sys2Proof.Machine.execRoundStateReceive l it sender region s
  | .roundPullReceive l it sender => Sys2Proof.Machine.execRoundPullReceive l it sender s
  | .differenceReceive l sender group record => Sys2Proof.Machine.execDifferenceReceive l sender group record s
  | .roundMerge region => Sys2Proof.Machine.execRoundMerge region s
  | .roundWaitTimeout region site => Sys2Proof.Machine.execRoundWaitTimeout region site s
  | .roundFormRelease id => Sys2Proof.Machine.execRoundFormRelease id s
  | .palUnreachableTimeout pal => Sys2Proof.Machine.execPalUnreachableTimeout pal s
  | .farRekeyTimer l => Sys2Proof.Machine.execFarRekeyTimer l s
  | .keySlotExhausted l => Sys2Proof.Machine.execKeySlotExhausted l s
  | .kexDataReceive l it => Sys2Proof.Machine.execKexDataReceive l it s
  | .kexDoneReceive l it => Sys2Proof.Machine.execKexDoneReceive l it s
  | .kexAbortReceive l it => Sys2Proof.Machine.execKexAbortReceive l it s
  | .kexRequestReceive l it => Sys2Proof.Machine.execKexRequestReceive l it s
  | .kexTimeout l => Sys2Proof.Machine.execKexTimeout l s
  | .kexRetry l => Sys2Proof.Machine.execKexRetry l s
  | .memorySideDieLost m => Sys2Proof.Machine.execMemorySideDieLost m s
  | .moduleOffline => Sys2Proof.Machine.execModuleOffline s
  | .inputInRange => Sys2Proof.Machine.execInputInRange s
  | .inputOutOfRange => Sys2Proof.Machine.execInputOutOfRange s
  | .modResetNLow => Sys2Proof.Machine.execModResetNLow s
  | .resetCtrlWarm p key cold => Sys2Proof.Machine.execResetCtrlWarm p key cold s
  | .resetCtrlCold p key warm => Sys2Proof.Machine.execResetCtrlCold p key warm s
  | .warmHoldEnd => Sys2Proof.Machine.execWarmHoldEnd s
  | .recoveryWarmStart => Sys2Proof.Machine.execRecoveryWarmStart s
  | .offlineRecoveryTimeout => Sys2Proof.Machine.execOfflineRecoveryTimeout s
  | .stagePower => Sys2Proof.Machine.execStagePower s
  | .stageFirmware => Sys2Proof.Machine.execStageFirmware s
  | .stageClocks ptpTime => Sys2Proof.Machine.execStageClocks ptpTime s
  | .stageMemory trained => Sys2Proof.Machine.execStageMemory trained s
  | .stageLinks => Sys2Proof.Machine.execStageLinks s
  | .stageCores goodSlots => Sys2Proof.Machine.execStageCores goodSlots s
  | .rollCallPass => Sys2Proof.Machine.execRollCallPass s
  | .rollCallReceive l it => Sys2Proof.Machine.execRollCallReceive l it s
  | .rollCallResend l => Sys2Proof.Machine.execRollCallResend l s
  | .leavingReceive l it => Sys2Proof.Machine.execLeavingReceive l it s
  | .leavingTimeout sender => Sys2Proof.Machine.execLeavingTimeout sender s
  | .thermalTrip sensor celsius => Sys2Proof.Machine.execThermalTrip sensor celsius s
  | .ppsEdge => Sys2Proof.Machine.execPpsEdge s
  | .ptpMessage domain sync offsetNs => Sys2Proof.Machine.execPtpMessage domain sync offsetNs s
  | .timeSourceLoss => Sys2Proof.Machine.execTimeSourceLoss s
  | .holdoverExpiry => Sys2Proof.Machine.execHoldoverExpiry s
  | .timeCtrlWrite p value => Sys2Proof.Machine.execTimeCtrlWrite p value s
  | .latchedRead p offset size => Sys2Proof.Machine.execLatchedRead p offset size s
  | .vin => Sys2Proof.Machine.execVin s
  | .iin => Sys2Proof.Machine.execIin s
  | .pin => Sys2Proof.Machine.execPin s
  | .temps => Sys2Proof.Machine.execTemps s
  | .status => Sys2Proof.Machine.execStatus s
  | .identity => Sys2Proof.Machine.execIdentity s
  | .getIdentity p => Sys2Proof.Machine.execGetIdentity p s
  | .attest p => Sys2Proof.Machine.execAttest p s
  | .fwStage p => Sys2Proof.Machine.execFwStage p s
  | .fwActivate p => Sys2Proof.Machine.execFwActivate p s
  | .fwConfirm p => Sys2Proof.Machine.execFwConfirm p s
  | .fwStatus p => Sys2Proof.Machine.execFwStatus p s
  | .getLog p => Sys2Proof.Machine.execGetLog p s
  | .mailboxResult p => Sys2Proof.Machine.execMailboxResult p s
  | .mbxStatusClear p value coincident => Sys2Proof.Machine.execMbxStatusClear p value coincident s
  | .mbxFlagsClear p value coincident => Sys2Proof.Machine.execMbxFlagsClear p value coincident s
  | .devFlagsClear p value coincident => Sys2Proof.Machine.execDevFlagsClear p value coincident s
  | .flagEnableWrite p value => Sys2Proof.Machine.execFlagEnableWrite p value s
  | .chanBellClear p slot coincident => Sys2Proof.Machine.execChanBellClear p slot coincident s
  | .farFlagsClear p l value coincident => Sys2Proof.Machine.execFarFlagsClear p l value coincident s
  | .farRepairedRead p l whole coincident => Sys2Proof.Machine.execFarRepairedRead p l whole coincident s
  | .farContractWrite p l value => Sys2Proof.Machine.execFarContractWrite p l value s
  | .rcCfgWrite p value => Sys2Proof.Machine.execRcCfgWrite p value s
  | .rcDroppedRead p whole coincident => Sys2Proof.Machine.execRcDroppedRead p whole coincident s
  | .stackCountsRead p m size high coincident => Sys2Proof.Machine.execStackCountsRead p m size high coincident s
  | .memCtrlRetrain p m => Sys2Proof.Machine.execMemCtrlRetrain p m s
  | .registerWrite p offset size value => Sys2Proof.Machine.execRegisterWrite p offset size value s
  | .reportCardPlace p => Sys2Proof.Machine.execReportCardPlace p s
  | .linkAvoidReview l => Sys2Proof.Machine.execLinkAvoidReview l s
  | .parkReturn m => Sys2Proof.Machine.execParkReturn m s
  | .portLinkDown p => Sys2Proof.Machine.execPortLinkDown p s
  | .portLinkUp p width speed => Sys2Proof.Machine.execPortLinkUp p width speed s
  | .holdUpExhausted => Sys2Proof.Machine.execHoldUpExhausted s
  | .tripSensorsCooled => Sys2Proof.Machine.execTripSensorsCooled s
  | .ppsPresentLost => Sys2Proof.Machine.execPpsPresentLost s
  | .ref10PresentChange present => Sys2Proof.Machine.execRef10PresentChange present s
  | .recordLands binding unit => Sys2Proof.Machine.execRecordLands binding unit s
  | .writeBackAcknowledged binding unit => Sys2Proof.Machine.execWriteBackAcknowledged binding unit s
  | .scrubSweepStart => Sys2Proof.Machine.execScrubSweepStart s

end Sys2Proof.Machine
end

