-- ==== Sys2Proof/WellFormed.lean ====
section
/-!
DEFINITION. WellFormed.lean: which terms of Instr name something the part does: a lesson instruction's word carries the MAJOR and FUNC of
its row (Tables 06-2 to 06-12, R153 to R156), and UNDEFINED_OPCODE an opcode that Tables 02-8 and 02-9 leave undefined.
-/

namespace Sys2Proof

open Sys2Proof.Machine

/-- The word of a lesson instruction with the MAJOR and FUNC of its row; none for the other commands. -/
def Instr.lessonWord (i : Instr) : Option (Word × Nat × Nat) :=
  match i with
  | .lessonRun _ => none
  | .tensorMove _ => none
  | .exchange _ => none
  | .roundSend _ => none
  | .ruleBind _ => none
  | .ruleRelease _ => none
  | .stepOpen _ => none
  | .stepCommit _ => none
  | .examOpen _ => none
  | .examClose _ => none
  | .deltaExport _ => none
  | .wait _ => none
  | .statsRead _ => none
  | .snapshot _ => none
  | .undefinedOpcode _ _ => none
  | .channelCreate _ => none
  | .channelAdopt _ => none
  | .channelDestroy _ => none
  | .mapMemory _ => none
  | .unmap _ => none
  | .groupDefine _ => none
  | .deskmatePair _ => none
  | .penPalDefine _ => none
  | .topologyLoad _ => none
  | .policyLimits _ => none
  | .keyInstall _ => none
  | .fencedDescriptorStart _ => none
  | .unmapRelease _ => none
  | .stepOpenRelease _ => none
  | .examOpenRelease _ => none
  | .ruleBindRelease _ => none
  | .waitSatisfied _ => none
  | .waitTimeout _ => none
  | .deskmatePairFormed _ => none
  | .sqTailWrite _ _ _ _ _ => none
  | .cqHeadWrite _ _ _ _ => none
  | .completionWrite _ => none
  | .coalesceTimerExpiry _ => none
  | .portLinkDownTimeout _ => none
  | .peerFenceWrite _ => none
  | .selfFenceClear _ _ => none
  | .adminEnable _ => none
  | .adminDisable _ => none
  | .portReset _ => none
  | .admissionDecision _ => none
  | .exchangeFinal _ => none
  | .saluAdd _ w => some (w, 0x01, 0x00)
  | .saluSub _ w => some (w, 0x01, 0x01)
  | .saluMul _ w => some (w, 0x01, 0x02)
  | .saluMulhu _ w => some (w, 0x01, 0x03)
  | .saluDivu _ w => some (w, 0x01, 0x04)
  | .saluRemu _ w => some (w, 0x01, 0x05)
  | .saluAnd _ w => some (w, 0x01, 0x06)
  | .saluOr _ w => some (w, 0x01, 0x07)
  | .saluXor _ w => some (w, 0x01, 0x08)
  | .saluShl _ w => some (w, 0x01, 0x09)
  | .saluShr _ w => some (w, 0x01, 0x0A)
  | .saluSra _ w => some (w, 0x01, 0x0B)
  | .saluMin _ w => some (w, 0x01, 0x0C)
  | .saluMax _ w => some (w, 0x01, 0x0D)
  | .saluMinu _ w => some (w, 0x01, 0x0E)
  | .saluMaxu _ w => some (w, 0x01, 0x0F)
  | .scmpEq _ w => some (w, 0x02, 0x00)
  | .scmpNe _ w => some (w, 0x02, 0x01)
  | .scmpLt _ w => some (w, 0x02, 0x02)
  | .scmpLtu _ w => some (w, 0x02, 0x03)
  | .scmpGe _ w => some (w, 0x02, 0x04)
  | .scmpGeu _ w => some (w, 0x02, 0x05)
  | .li _ w => some (w, 0x03, 0x00)
  | .lih _ w => some (w, 0x03, 0x01)
  | .beqz _ w => some (w, 0x04, 0x00)
  | .bnez _ w => some (w, 0x04, 0x01)
  | .bltz _ w => some (w, 0x04, 0x02)
  | .bgez _ w => some (w, 0x04, 0x03)
  | .btok _ w => some (w, 0x04, 0x04)
  | .nop _ w => some (w, 0x05, 0x00)
  | .jmp _ w => some (w, 0x05, 0x01)
  | .call _ w => some (w, 0x05, 0x02)
  | .jr _ w => some (w, 0x05, 0x03)
  | .halt _ w => some (w, 0x05, 0x04)
  | .amov _ w => some (w, 0x06, 0x00)
  | .aadd _ w => some (w, 0x06, 0x01)
  | .aadds _ w => some (w, 0x06, 0x02)
  | .ard _ w => some (w, 0x06, 0x03)
  | .rdtime _ w => some (w, 0x07, 0x00)
  | .rdid _ w => some (w, 0x07, 0x01)
  | .rdflag _ w => some (w, 0x07, 0x02)
  | .clrflag _ w _ => some (w, 0x07, 0x03)
  | .setstream _ w => some (w, 0x07, 0x04)
  | .rdcyc _ w => some (w, 0x07, 0x05)
  | .sld _ w => some (w, 0x08, 0x00)
  | .sst _ w => some (w, 0x08, 0x01)
  | .dld _ w => some (w, 0x10, 0x00)
  | .dst _ w => some (w, 0x10, 0x01)
  | .gather _ w => some (w, 0x11, 0x00)
  | .scatter _ w => some (w, 0x11, 0x01)
  | .sadd _ w => some (w, 0x11, 0x02)
  | .smin _ w => some (w, 0x11, 0x03)
  | .smax _ w => some (w, 0x11, 0x04)
  | .fill _ w => some (w, 0x18, 0x00)
  | .swap _ w => some (w, 0x18, 0x01)
  | .stream _ w => some (w, 0x18, 0x02)
  | .drain _ w => some (w, 0x18, 0x03)
  | .vopAdd _ w => some (w, 0x20, 0x00)
  | .vopSub _ w => some (w, 0x20, 0x01)
  | .vopMul _ w => some (w, 0x20, 0x02)
  | .fma _ w => some (w, 0x20, 0x03)
  | .vopMax _ w => some (w, 0x20, 0x04)
  | .vopMin _ w => some (w, 0x20, 0x05)
  | .abs _ w => some (w, 0x20, 0x06)
  | .neg _ w => some (w, 0x20, 0x07)
  | .div _ w => some (w, 0x20, 0x08)
  | .rcp _ w => some (w, 0x20, 0x09)
  | .sqrt _ w => some (w, 0x20, 0x0A)
  | .rsqrt _ w => some (w, 0x20, 0x0B)
  | .exp _ w => some (w, 0x20, 0x0C)
  | .exp2 _ w => some (w, 0x20, 0x0D)
  | .log _ w => some (w, 0x20, 0x0E)
  | .log2 _ w => some (w, 0x20, 0x0F)
  | .tanh _ w => some (w, 0x20, 0x10)
  | .cvt _ w => some (w, 0x20, 0x11)
  | .cmp _ w => some (w, 0x20, 0x12)
  | .sel _ w => some (w, 0x20, 0x13)
  | .iadd _ w => some (w, 0x20, 0x14)
  | .isub _ w => some (w, 0x20, 0x15)
  | .imul _ w => some (w, 0x20, 0x16)
  | .imax _ w => some (w, 0x20, 0x17)
  | .imin _ w => some (w, 0x20, 0x18)
  | .vopAnd _ w => some (w, 0x20, 0x19)
  | .vopOr _ w => some (w, 0x20, 0x1A)
  | .vopXor _ w => some (w, 0x20, 0x1B)
  | .vopShl _ w => some (w, 0x20, 0x1C)
  | .vopShr _ w => some (w, 0x20, 0x1D)
  | .vopSra _ w => some (w, 0x20, 0x1E)
  | .bcast _ w => some (w, 0x20, 0x1F)
  | .iota _ w => some (w, 0x20, 0x20)
  | .rot _ w => some (w, 0x20, 0x21)
  | .mand _ w => some (w, 0x20, 0x22)
  | .mor _ w => some (w, 0x20, 0x23)
  | .mxor _ w => some (w, 0x20, 0x24)
  | .mnot _ w => some (w, 0x20, 0x25)
  | .rand _ w => some (w, 0x20, 0x26)
  | .reduce _ w => some (w, 0x20, 0x27)
  | .smxInit _ w => some (w, 0x20, 0x28)
  | .smxStep _ w => some (w, 0x20, 0x29)
  | .smxNorm _ w => some (w, 0x20, 0x2A)
  | .tile _ w => some (w, 0x20, 0x2B)
  | .load _ w => some (w, 0x21, 0x00)
  | .store _ w => some (w, 0x21, 0x01)
  | .pop _ w => some (w, 0x21, 0x02)
  | .route _ w => some (w, 0x28, 0x00)
  | .predict _ w => some (w, 0x28, 0x01)
  | .confirm _ w => some (w, 0x28, 0x02)
  | .squash _ w => some (w, 0x28, 0x03)
  | .syncWait _ w => some (w, 0x30, 0x00)
  | .signal _ w => some (w, 0x30, 0x01)
  | .waitev _ w => some (w, 0x30, 0x02)
  | .bar _ w => some (w, 0x30, 0x03)
  | .xpost _ w => some (w, 0x31, 0x00)
  | .statTag _ w => some (w, 0x34, 0x00)
  | .statRead _ w => some (w, 0x34, 0x01)
  | .slot _ w => some (w, 0x38, 0x00)
  | .send _ w => some (w, 0x38, 0x01)
  | .expect _ w => some (w, 0x38, 0x02)
  | .fold _ w => some (w, 0x38, 0x03)
  | .deliver _ w => some (w, 0x38, 0x04)
  | .scrub _ w => some (w, 0x3C, 0x00)
  | .move _ w => some (w, 0x3C, 0x01)
  | .exportRec _ w => some (w, 0x3C, 0x02)
  | .catchup _ w => some (w, 0x3C, 0x03)
  | .dmaComplete _ _ => none
  | .narrowComplete _ _ => none
  | .fillComplete _ _ => none
  | .passStart _ => none
  | .passClose _ => none
  | .drainComplete _ => none
  | .popRowDeliver _ => none
  | .routeComplete _ => none
  | .predictLand _ _ => none
  | .predictCopyDone _ _ => none
  | .squashShareFreed _ _ => none
  | .signalLand _ _ => none
  | .waitevRelease _ => none
  | .barRelease _ _ _ => none
  | .setstreamReseedDone _ => none
  | .slotRelease _ => none
  | .linkOpComplete _ _ => none
  | .sweepOpComplete _ _ => none
  | .lessonRunComplete _ => none
  | .sequencerWatchdog _ => none
  | .coreFence _ => none
  | .nmuUnitUpdate _ _ => none
  | .ownerCommitReport _ => none
  | .commitReportReceive _ _ => none
  | .mirrorAckReceive _ _ => none
  | .commitDecisionReceive _ _ => none
  | .mirrorRecordReceive _ _ => none
  | .heartbeatSend _ => none
  | .heartbeatReceive _ _ => none
  | .heartbeatTimeout => none
  | .takeoverRequestReceive _ _ => none
  | .takeoverReplyReceive _ _ => none
  | .rankMovedReceive _ _ => none
  | .redoRequestReceive _ _ => none
  | .digestReceive _ _ => none
  | .repairRequestReceive _ _ => none
  | .exportAppend _ => none
  | .memUncorrectable _ => none
  | .dataRebuildDone _ => none
  | .repairLineReplace _ _ => none
  | .channelMapOut _ _ => none
  | .slotMoveDone _ => none
  | .mapChangeAcked _ => none
  | .stackTempSample _ _ => none
  | .stackRetrainPark _ => none
  | .stackRetrainDone _ => none
  | .bdMissFill _ => none
  | .streamContextGranted _ => none
  | .engineQueueRelease _ => none
  | .engineFence _ => none
  | .linkLock _ => none
  | .linkTrainingDone _ _ _ => none
  | .laneLost _ _ => none
  | .laneRetrainDone _ => none
  | .linkAckTimeout _ => none
  | .linkAutoRetrain _ => none
  | .frameTransmit _ => none
  | .frameReceive _ _ => none
  | .segmentReceive _ _ => none
  | .abortReceive _ _ => none
  | .voidReceive _ _ => none
  | .resendReceive _ _ => none
  | .keyReadyReceive _ _ => none
  | .foldParkTimeout _ _ => none
  | .holdOutExpiry _ => none
  | .creditStallTimeout _ => none
  | .sorterFence _ => none
  | .linkFlushWrite _ _ => none
  | .linkEnableWrite _ _ _ => none
  | .linkRetrainWrite _ _ => none
  | .linkReleaseWrite _ _ => none
  | .egressWmWrite _ _ _ => none
  | .linkFlagsClear _ _ _ _ => none
  | .retriedRead _ _ _ _ => none
  | .fecCorrectedRead _ _ _ _ => none
  | .farFrameReceive _ _ => none
  | .stripeOverdue _ _ => none
  | .repairRerequest _ _ => none
  | .farAckSend _ => none
  | .farAckReceive _ _ _ => none
  | .farResendReceive _ _ => none
  | .farSilenceTimeout _ => none
  | .pathOutOfContract _ => none
  | .pathBackInContract _ => none
  | .roundStateSend _ _ => none
  | .roundStateReceive _ _ _ _ => none
  | .roundPullReceive _ _ _ => none
  | .differenceReceive _ _ _ _ => none
  | .roundMerge _ => none
  | .roundWaitTimeout _ _ => none
  | .roundFormRelease _ => none
  | .palUnreachableTimeout _ => none
  | .farRekeyTimer _ => none
  | .keySlotExhausted _ => none
  | .kexDataReceive _ _ => none
  | .kexDoneReceive _ _ => none
  | .kexAbortReceive _ _ => none
  | .kexRequestReceive _ _ => none
  | .kexTimeout _ => none
  | .kexRetry _ => none
  | .memorySideDieLost _ => none
  | .moduleOffline => none
  | .inputInRange => none
  | .inputOutOfRange => none
  | .modResetNLow => none
  | .resetCtrlWarm _ _ _ => none
  | .resetCtrlCold _ _ _ => none
  | .warmHoldEnd => none
  | .recoveryWarmStart => none
  | .offlineRecoveryTimeout => none
  | .stagePower => none
  | .stageFirmware => none
  | .stageClocks _ => none
  | .stageMemory _ => none
  | .stageLinks => none
  | .stageCores _ => none
  | .rollCallPass => none
  | .rollCallReceive _ _ => none
  | .rollCallResend _ => none
  | .leavingReceive _ _ => none
  | .leavingTimeout _ => none
  | .thermalTrip _ _ => none
  | .ppsEdge => none
  | .ptpMessage _ _ _ => none
  | .timeSourceLoss => none
  | .holdoverExpiry => none
  | .timeCtrlWrite _ _ => none
  | .latchedRead _ _ _ => none
  | .vin => none
  | .iin => none
  | .pin => none
  | .temps => none
  | .status => none
  | .identity => none
  | .getIdentity _ => none
  | .attest _ => none
  | .fwStage _ => none
  | .fwActivate _ => none
  | .fwConfirm _ => none
  | .fwStatus _ => none
  | .getLog _ => none
  | .mailboxResult _ => none
  | .mbxStatusClear _ _ _ => none
  | .mbxFlagsClear _ _ _ => none
  | .devFlagsClear _ _ _ => none
  | .flagEnableWrite _ _ => none
  | .chanBellClear _ _ _ => none
  | .farFlagsClear _ _ _ _ => none
  | .farRepairedRead _ _ _ _ => none
  | .farContractWrite _ _ _ => none
  | .rcCfgWrite _ _ => none
  | .rcDroppedRead _ _ _ => none
  | .stackCountsRead _ _ _ _ _ => none
  | .memCtrlRetrain _ _ => none
  | .registerWrite _ _ _ _ => none
  | .reportCardPlace _ => none
  | .linkAvoidReview _ => none
  | .parkReturn _ => none
  | .portLinkDown _ => none
  | .portLinkUp _ _ _ => none
  | .holdUpExhausted => none
  | .tripSensorsCooled => none
  | .ppsPresentLost => none
  | .ref10PresentChange _ => none
  | .recordLands _ _ => none
  | .writeBackAcknowledged _ _ => none
  | .scrubSweepStart => none

/-- Whether a command is well-formed. -/
def Instr.wellFormed (i : Instr) : Bool :=
  (match i.lessonWord with | some (w, major, func) => wordIs w major func | none => true)
    && (match i with | .undefinedOpcode op _ => !opcodeDefined op | _ => true)

end Sys2Proof
end

