-- ==== Sys2Proof/Safety.lean ====
section
/-!
DEFINITION. Safety.lean: what counts as a safe state and a safe run of the block: memories in canonical form, a queue of
well-formed commands, and states joined by steps that answer a next state.
-/

namespace Sys2Proof.Machine

/-- The canonical form of a byte memory: addresses strictly rising and no entry equal to what an unlisted address reads. -/
def Memory.wf (m : List Host.Cell) : Bool := memWf m

/-- Host memory behind each port and the fast tier are in canonical form. -/
def MemoriesCanonical (s : State) : Prop :=
  Memory.wf s.portA.mem = true ∧ Memory.wf s.portB.mem = true ∧ Memory.wf s.memory.fast = true

/-- Every waiting command is well formed. -/
def QueueWellFormed (s : State) : Prop := ∀ c ∈ s.pending, c.wellFormed = true

/-- A safe state. -/
def Safe (s : State) : Prop := MemoriesCanonical s ∧ QueueWellFormed s

/-- A run: each state follows from the one before by a step that answers a next state. -/
inductive SafeRun : State → State → Prop
  | refl (s : State) : SafeRun s s
  | step {s t u : State} (h : step s = .next t) (r : SafeRun t u) : SafeRun s u

/-- What a command never takes from the state it finds: the queue stays as it is, the lowest security version accepted and
the count of its writes do not fall (R417), and memories that are canonical stay so. -/
def Steady (s t : State) : Prop :=
  t.pending = s.pending ∧ s.flash.minSvn.toNat ≤ t.flash.minSvn.toNat ∧ s.flash.counterWrites ≤ t.flash.counterWrites ∧
    (MemoriesCanonical s → MemoriesCanonical t)

/-! ## Words that the statements share -/

/-- A state without its lesson places and the stalls of its report card: what an instruction of a place leaves as it was. -/
def outsidePlaces (s : State) : State := { s with cores := [], linkSeq := [], memSeq := [], card := { s.card with stalls := [] } }

/-- A core without its scalar state and the time of its last issue. -/
def besideSeq (k : Core) : Core := { k with seq := {}, lastIssueTick := 0 }

/-- A core without its scalar and vector state and the time of its last issue. -/
def besideVec (k : Core) : Core := { k with seq := {}, vec := {}, lastIssueTick := 0 }

/-- From `s` to `t` only the scalar state of one place has changed, the report card's stalls and the core's last issue apart. -/
def OnlyPlace (p : Place) (s t : State) : Prop :=
  outsidePlaces t = outsidePlaces s ∧ (∀ q : Place, q ≠ p → seqOf q t = seqOf q s) ∧
    ∀ d : Fin 192, besideSeq (coreOf d t) = besideSeq (coreOf d s)

/-- From `s` to `t` only one core has changed, the report card's stalls apart. -/
def OnlyCore (c : Fin 192) (s t : State) : Prop :=
  outsidePlaces t = outsidePlaces s ∧ t.linkSeq = s.linkSeq ∧ t.memSeq = s.memSeq ∧ ∀ d : Nat, d ≠ c.val → coreOf d t = coreOf d s

/-- The scalar state of a place that has gone on to the next instruction. -/
def nextSeq (q : Seq) : Seq := { q with pc := q.pc + 1, stall := none }

/-- The word carries the MAJOR and FUNC of its row, stands at the program counter of a place that may issue, and reads no register
that is still to be written (R133, R136). -/
def Issues (p : Place) (w : Word) (major func : Nat) (s : State) : Prop :=
  wordIs w major func = true ∧ canIssue p w s = true ∧ readsPending p w s = false

/-- A word index lies inside the code of a core; no other place has such a bound (Table 06-3). -/
def TargetInside (p : Place) (n : Nat) (s : State) : Prop :=
  match p with
  | .core c => n < (coreOf c s).seq.code.length
  | _ => True

/-- The instruction after the one at the program counter lies inside the code. -/
def NextInside (p : Place) (s : State) : Prop := TargetInside p ((seqOf p s).pc + 1) s

/-- A command answers a next state, and that state is as described. -/
def Completes (i : Instr) (s : State) (P : State → Prop) : Prop := ∃ t, exec i s = .next t ∧ P t

/-- An instruction of a place writes one scalar register and goes on, changing nothing else. -/
def WritesS (p : Place) (d : Nat) (v : Word) (s t : State) : Prop := OnlyPlace p s t ∧ seqOf p t = nextSeq (setS d v (seqOf p s))

/-- An instruction of a place writes one address register modulo 2^48 and goes on, changing nothing else. -/
def WritesA (p : Place) (d : Nat) (v : Nat) (s t : State) : Prop := OnlyPlace p s t ∧ seqOf p t = nextSeq (setA d v (seqOf p s))

/-- A place goes to an instruction, its stall over, and changes nothing else. -/
def GoesTo (p : Place) (n : Nat) (s t : State) : Prop :=
  OnlyPlace p s t ∧ seqOf p t = { seqOf p s with pc := n, stall := none }

/-- The word index that an offset reaches from the instruction itself (R143). -/
def offsetTarget (p : Place) (off : Word) (s : State) : Int := (seqOf p s).pc + off.toInt

/-- A vector state without its registers, generators and flag words. -/
def besideLanes (v : VecSt) : VecSt :=
  { v with v := Vector.replicate 32 (Vector.replicate 128 0), gens := Vector.replicate 128 1, streamFlags := 0, lessonFlags := 0,
           tileFlags := 0 }

/-- Three flag words take the flags of some lanes, each flag once a lane has it (R125). -/
def RaisesFlags (lane : Fin 128 → Bool) (f : Fin 128 → BitVec 7) (v u : VecSt) : Prop :=
  ∃ fl : BitVec 7, (∀ i : Nat, i < 7 → (fl.getLsbD i = true ↔ ∃ l : Fin 128, lane l = true ∧ (f l).getLsbD i = true)) ∧
    u.streamFlags = v.streamFlags ||| fl ∧ u.lessonFlags = v.lessonFlags ||| fl ∧ u.tileFlags = v.tileFlags ||| fl

/-- From `v` to `u` the lanes of a mask in one register take new bits, their flags are raised in the three words, the generators
become `g`, and the rest stays. -/
def LanesWritten (d : Nat) (mask : BitVec 128) (f : Fin 128 → LaneOut) (g : Vector Word 128) (v u : VecSt) : Prop :=
  (∀ l : Fin 128, (vreg u d)[l] = if mask.getLsbD l then (f l).1 else (vreg v d)[l]) ∧ (∀ r : Nat, r ≠ d → vreg u r = vreg v r) ∧
    u.gens = g ∧ besideLanes u = besideLanes v ∧ RaisesFlags (fun l => mask.getLsbD l) (fun l => (f l).2) v u

/-- An instruction of a core changes its vector state alone and goes on. -/
def OnlyVec (c : Fin 192) (s t : State) : Prop :=
  OnlyCore c s t ∧ (coreOf c t).seq = nextSeq (coreOf c s).seq ∧ besideVec (coreOf c t) = besideVec (coreOf c s)

/-- A vector instruction writes the lanes of a mask in one register and goes on, changing nothing else. -/
def WritesLanes (c : Fin 192) (d : Nat) (mask : BitVec 128) (f : Fin 128 → LaneOut) (g : Vector Word 128) (s t : State) : Prop :=
  OnlyVec c s t ∧ LanesWritten d mask f g (coreOf c s).vec (coreOf c t).vec

/-- An instruction writes one mask register, m0 apart, and goes on, changing nothing else. -/
def WritesMask (c : Fin 192) (d : Nat) (f : Fin 128 → Bool) (s t : State) : Prop :=
  OnlyVec c s t ∧
    (∀ (r : Nat) (l : Fin 128), (mreg (coreOf c t).vec r).getLsbD l =
      if r = d ∧ r ≠ 0 then f l else (mreg (coreOf c s).vec r).getLsbD l) ∧
    { (coreOf c t).vec with m := Vector.replicate 8 0 } = { (coreOf c s).vec with m := Vector.replicate 8 0 }

/-- The generators after an instruction: advanced once in every lane when it draws (R113). -/
def drawnGens (draws : Bool) (v : VecSt) : Vector Word 128 := if draws then v.gens.map genStep else v.gens

/-- The bits of a draw in a lane; an instruction that does not draw has zero there. -/
def laneDraw (draws : Bool) (k : Nat) (v : VecSt) (l : Fin 128) : Nat := if draws then genTop k (genStep v.gens[l]) else 0

/-- The fast tier and host memory behind both ports are the same. -/
def SameMemory (s t : State) : Prop := t.memory = s.memory ∧ t.portA.mem = s.portA.mem ∧ t.portB.mem = s.portB.mem

/-- From `s` to `t` the bytes stored are those of one region of a channel's address space: memory is as storing them leaves it, and
every byte of the fast tier and of host memory outside the region's places is as before. -/
def Stores (slot va : Nat) (bs : List Byte) (s t : State) : Prop :=
  SameMemory (vaStore slot va bs s) t ∧
    ∀ sp a : Nat, (∀ p ∈ pieces slot va bs.length s, p.1 = sp → a < p.2.1 ∨ p.2.1 + p.2.2 ≤ a) → spaceGet sp a t = spaceGet sp a s

/-- The Desk of a core takes the bytes at an address, and every byte outside them is as before. -/
def DeskTakes (c a : Nat) (bs : List Byte) (s t : State) : Prop :=
  (coreOf c t).desk = memWrite (coreOf c s).desk a bs ∧
    ∀ x : Nat, x < a ∨ a + bs.length ≤ x → memGet (coreOf c t).desk x = memGet (coreOf c s).desk x

/-- No core's Desk has changed, one apart. -/
def OtherDesks (c : Nat) (s t : State) : Prop := ∀ d : Nat, d ≠ c → (coreOf d t).desk = (coreOf d s).desk

/-- The token field of a word names no reserved value, and its token is ready (R138). -/
def TokenFree (c : Fin 192) (n : Nat) (s : State) : Prop :=
  tokReserved n = false ∧ tokReady (coreOf c s).seq (tokField n) = true

/-- An operation of a core has issued: the next number is taken, its token is busy and the core goes on. -/
def Begun (c : Fin 192) (n : Nat) (q : Seq) (s t : State) : Prop :=
  (coreOf c t).seq = nextSeq (setTok (tokField n) false q) ∧ (coreOf c t).nseq = (coreOf c s).nseq + 1

/-- The token of an operation is ready, and every other token as before. -/
def TokenReady (c : Nat) (tok : Option (Fin 16)) (s t : State) : Prop :=
  ∀ i : Fin 16, (coreOf c t).seq.tok[i] = if tok = some i then true else (coreOf c s).seq.tok[i]

/-- A state without DEV_FLAGS, its counters, the MSI-X messages and the report card in the making: what raising a flag, recording
an event or a decision may change. -/
def quiet (s : State) : State :=
  { s with devFlags := 0, devCounts := Vector.replicate 29 0, msix := [], card := {}
           portA := { s.portA with msixPending := [] }, portB := { s.portB with msixPending := [] } }

/-- From `s` to `t` nothing has changed but flags, messages and the report card. -/
def OnlyFlags (s t : State) : Prop := quiet t = quiet s

/-- From `s` to `t` only one link has changed, flags, messages and the report card apart. -/
def OnlyLink (l : Nat) (s t : State) : Prop :=
  quiet { t with links := s.links } = quiet s ∧ ∀ k : Nat, k ≠ l → linkOf k t = linkOf k s

/-- An operation of a link engine or memory-side die has begun under a token, and its lesson goes on. -/
def PlaceBegun (p : Place) (op : Nat × Nat × Nat × Nat × Nat) (s t : State) : Prop :=
  seqOf p t = nextSeq (setTok (tokField op.2.2.2.2) false { seqOf p s with ops := (seqOf p s).ops ++ [op] })

/-- The token field of a word of a link engine or memory-side die is free, and its unit holds fewer than four operations. -/
def PlaceFree (p : Place) (n : Nat) (s : State) : Prop :=
  tokReserved n = false ∧ tokReady (seqOf p s) (tokField n) = true ∧ (seqOf p s).ops.length < 4

/-- A DEV_FLAGS bit is set, and every other bit as before (R8). -/
def DevRaised (i : Nat) (s t : State) : Prop := t.devFlags = s.devFlags ||| BitVec.ofNat 29 (2 ^ i)

/-- A port may reach the registers that answer from stage 4. -/
def RegistersAnswer (p : Port) (s : State) : Prop := (portOf p s).fenced = false ∧ regionsUp s = true

/-- A control item of a kind is policed and taken in the state `u`: its kind may come in the link's state, and its tag verifies under a
nonce that rises, or it belongs to an agreement that comes before any key (R303, R304, R424). -/
def Policed (l : Fin 36) (it : Item) (kind : Nat) (s u : State) : Prop :=
  fieldNat it.w0 0 4 = 4 ∧ itemKind it = kind ∧ itemAllowed (linkOf l s).state kind = true ∧
    ((isKexKind kind = true ∧ (vget (linkOf l s).rxKeys 0 {}).valid = false ∧ (vget (linkOf l s).rxKeys 1 {}).valid = false ∧ u = s) ∨
     (tagOk (linkOf l s) it.keyId it.nonce (itemAad it) [] it.tag = true ∧ nonceFresh (linkOf l s) it.keyId it.nonce = true ∧
       u = takeNonce l it.keyId it.nonce s))

/-- From `s` to `t` only one slot of the channel table has changed. -/
def OnlySlot (i : Nat) (s t : State) : Prop := { t with slots := s.slots } = s ∧ ∀ j : Nat, j ≠ i → slotOf j t = slotOf j s

/-- From `s` to `t` only one port has changed. -/
def OnlyPort (p : Port) (s t : State) : Prop := modPort p (fun _ => portOf p s) t = s

/-- A port as an access to one of its registers leaves it: the latch of an earlier one is gone. -/
def accessed (p : Port) (s : State) : State := modPort p (fun q => { q with latch := none }) s

/-- A descriptor is fetched in the state `u` as the record `r` and need not wait: its channel may be fetched from, the device is ready
and its handle is the channel's own (R24, R34, R38). -/
def Fetched (op : BitVec 8) (d : Desc) (s : State) (r : DescRec) (u : State) : Prop :=
  canFetch d.slot d.ring s = true ∧ s.mod.stage = 7 ∧ ∃ c : Chan, chanOf d.slot s = some c ∧ r = recOf op d c s ∧ u = noteFetch r s ∧
    mustWait r u = false ∧ handleStale d.handle u = false ∧ handleSlot d.handle = d.slot.val ∧ handleClass d.handle = c.cls

/-- A fetched descriptor that starts: its channel's class takes its opcode and no reserved field is set (R25, R41). -/
def Starts (op : BitVec 8) (d : Desc) (s : State) (r : DescRec) (u : State) : Prop :=
  Fetched op d s r u ∧ opcodeDefined op = true ∧ reservedSet op d = false ∧
    ∀ c : Chan, chanOf d.slot s = some c → classAccepts c.cls op = true

/-- A descriptor that is held starts again when its hold has ended. -/
def HeldAs (id : Nat) (h : Hold) (r : DescRec) (s : State) : Prop :=
  descOf id s = some r ∧ r.hold = h ∧ (chanOf r.desc.slot s).isSome = true

/-- A descriptor reaches its final completion as DONE with a result, after an effect that leaves a state as described. -/
def Finishes (r : DescRec) (result : Nat) (t : State) (P : State → Prop) : Prop := ∃ v : State, t = done r result v ∧ P v

/-- From `u` to `v` pages have been mapped in one channel, from page `q` upward with the kinds given, and nothing else has changed in
any channel. -/
def PagesMapped (slot q : Nat) (ro : Bool) (kinds : List PageKind) (u v : State) : Prop :=
  (∀ j : Nat, j ≠ slot → slotOf j v = slotOf j u) ∧ ∃ c k : Chan, chanOf slot u = some c ∧ chanOf slot v = some k ∧ { k with pages := c.pages } = c ∧
    ∀ x : Nat, tget? k.pages x = if q ≤ x ∧ x < q + kinds.length then (kinds[x - q]?).map fun y => { kind := y, readOnly := ro }
      else tget? c.pages x

/-- Pages of one channel are gone from its table and from that of every channel with aliases of them, and the bytes of their fast frames
read zero (R28, R29). -/
def PagesGone (slot q n : Nat) (u v : State) : Prop :=
  (∀ c : Chan, chanOf slot v = some c → ∀ x : Nat, q ≤ x → x < q + n → tget? c.pages x = none) ∧
    (∀ (j : Nat) (c : Chan) (x : Nat) (pg : Page), chanOf j v = some c → (x, pg) ∈ c.pages → ∀ y : Nat, q ≤ y → y < q + n → pg.kind ≠ .aliasOf slot y) ∧
    ∀ (c : Chan) (x f a : Nat) (ro : Bool), chanOf slot u = some c → (x, { kind := .fast f, readOnly := ro }) ∈ c.pages → q ≤ x → x < q + n →
      a / pageBytes = f → memGet v.memory.fast a = 0 ∧ f ∉ v.memory.framesUsed

/-- A stripe after step `n` of its rule, the steps missed caught up first (R225). -/
def updatedStripe (b : Binding) (n : Word) (gs : List NV) (x : Stripe) : Stripe :=
  (ruleStripe b.rule (coefAt b n) (hyNesterov b.hyper) n gs (catchStripe b.rule b.ring (x.step.toNat + 1) (n.toNat - 1) x).1).1

/-- No descriptor-less pass waits to be settled: each pass is admitted, carries a round or has its descriptor. -/
def PassesHeld (s : State) : Prop := ∀ p ∈ s.passes, p.admitted = true ∨ p.round.isSome = true ∨ (descOf p.desc s).isSome = true

/-- A cold start has begun for a cause: module flash, host memory behind the ports and what waits outside are kept, and every unit is as
after reset (R389, R397). -/
def ColdStarted (cause reason : Nat) (s t : State) : Prop :=
  { t.flash with cleanStop := s.flash.cleanStop } = s.flash ∧ t.flash.cleanStop = false ∧ t.mod.stage = 0 ∧ t.mod.ready = false ∧ t.mod.warm = false ∧
    t.mod.cause = BitVec.ofNat 4 cause ∧ t.mod.coldReason = BitVec.ofNat 8 reason ∧ t.portA = { mem := s.portA.mem } ∧ t.portB = { mem := s.portB.mem } ∧
    t.memory = { stk := t.memory.stk } ∧ t.slots = [] ∧ t.descs = [] ∧ t.cores = [] ∧ t.runs = [] ∧ t.groups = [] ∧ t.nmu = {} ∧ t.passes = [] ∧
    t.regions = [] ∧ t.pals = [] ∧ t.mate = {} ∧ t.card = {} ∧ t.devFlags = 0

/-- A warm start has begun: the module is at stage 0 again and not offline, and what channels, groups, bindings and memory hold is as
before (R389, R391). -/
def WarmStarted (cause : Nat) (s t : State) : Prop :=
  t.mod.stage = 0 ∧ t.mod.ready = false ∧ t.mod.warm = true ∧ t.mod.cause = BitVec.ofNat 4 cause ∧ t.mod.offline = false ∧ t.mod.warmHold = none ∧
    SameMemory s t ∧ t.slots = s.slots ∧ t.descs = s.descs ∧ t.groups = s.groups ∧ t.nmu.bindings = s.nmu.bindings ∧ t.regions = s.regions

/-- The module is offline from the stage it was at: every link Down, both ports down, and what channels and memory hold as before (R362,
R389). -/
def Offline (cause : Nat) (recoverable : Bool) (s t : State) : Prop :=
  t.mod.stage = 8 ∧ t.mod.ready = false ∧ t.mod.offline = true ∧ t.mod.recoverable = recoverable ∧ t.mod.failStage = s.mod.stage ∧
    t.mod.failCause = BitVec.ofNat 4 cause ∧ (∀ l : Nat, (linkOf l t).state = 0) ∧ (∀ p : Port, (portOf p t).linkUp = false) ∧ SameMemory s t ∧
    t.slots = s.slots ∧ t.descs = s.descs ∧ t.groups = s.groups ∧ t.nmu = s.nmu

end Sys2Proof.Machine
end

