-- ==== Sys2Proof/Certificates/Slice0/Obligations.lean ====
section
/-!
DEFINITION. Certificates/Slice0/Obligations.lean: the statements about the Kasyn block that the provers take up. Each says what the spec
says a command or the machine does, for every state and operand that meet its hypotheses.
-/

open Sys2Proof Sys2Proof.Machine

/-! ## Lesson instructions: scalar state (chapter 06) -/

/-- Every SALU and SCMP instruction that issues at a place whose next instruction lies inside its code answers a next state: SD holds
the operation of SA and operand b (SB, or IMM36 sign-extended when I is 1), shifts count modulo 64, DIVU by zero gives all ones and REMU
by zero the dividend; the program counter advances, and nothing else of the device changes. -/
def Obligations.ScalarArithmeticWritesResult : Prop :=
  ∀ (p : Place) (w : Word) (s : State), NextInside p s →
    let a := sreg (seqOf p s) (fld w 17 5)
    let b := if fld w 27 1 = 1 then sfld w 28 36 else sreg (seqOf p s) (fld w 22 5)
    ∀ x ∈ [(Instr.saluAdd p w, 0x01, 0x00, a + b), (.saluSub p w, 0x01, 0x01, a - b), (.saluMul p w, 0x01, 0x02, a * b),
        (.saluMulhu p w, 0x01, 0x03, BitVec.ofNat 64 (a.toNat * b.toNat / 2 ^ 64)),
        (.saluDivu p w, 0x01, 0x04, if b = 0 then BitVec.allOnes 64 else a / b),
        (.saluRemu p w, 0x01, 0x05, if b = 0 then a else a % b),
        (.saluAnd p w, 0x01, 0x06, a &&& b), (.saluOr p w, 0x01, 0x07, a ||| b), (.saluXor p w, 0x01, 0x08, a ^^^ b),
        (.saluShl p w, 0x01, 0x09, a <<< (b.toNat % 64)), (.saluShr p w, 0x01, 0x0A, a >>> (b.toNat % 64)),
        (.saluSra p w, 0x01, 0x0B, a.sshiftRight (b.toNat % 64)),
        (.saluMin p w, 0x01, 0x0C, if a.toInt < b.toInt then a else b), (.saluMax p w, 0x01, 0x0D, if a.toInt < b.toInt then b else a),
        (.saluMinu p w, 0x01, 0x0E, if a.toNat < b.toNat then a else b), (.saluMaxu p w, 0x01, 0x0F, if a.toNat < b.toNat then b else a),
        (.scmpEq p w, 0x02, 0x00, if a = b then 1 else 0), (.scmpNe p w, 0x02, 0x01, if a = b then 0 else 1),
        (.scmpLt p w, 0x02, 0x02, if a.toInt < b.toInt then 1 else 0), (.scmpLtu p w, 0x02, 0x03, if a.toNat < b.toNat then 1 else 0),
        (.scmpGe p w, 0x02, 0x04, if b.toInt ≤ a.toInt then 1 else 0),
        (.scmpGeu p w, 0x02, 0x05, if b.toNat ≤ a.toNat then 1 else 0)],
      Issues p w x.2.1 x.2.2.1 s → Completes x.1 s (WritesS p (fld w 12 5) x.2.2.2 s)

/-- LI, LIH, ARD, RDTIME and RDCYC write their value into a scalar register, AMOV, AADD and AADDS theirs, modulo 2^48, into an address
register, and NOP nothing; each goes on to the next instruction and changes nothing else of the device. -/
def Obligations.ImmediateAddressAndTimeInstructions : Prop :=
  ∀ (p : Place) (w : Word) (s : State), NextInside p s →
    let q := seqOf p s
    let sd := fld w 12 5
    (Issues p w 0x03 0x00 s → Completes (.li p w) s (WritesS p sd (sfld w 18 46) s)) ∧
    (Issues p w 0x03 0x01 s → Completes (.lih p w) s
      (WritesS p sd (BitVec.ofNat 64 ((sreg q sd).toNat % 2 ^ 46 + fld w 18 18 * 2 ^ 46)) s)) ∧
    (Issues p w 0x06 0x03 s → Completes (.ard p w) s (WritesS p (fld w 20 5) (BitVec.ofNat 64 (areg q (fld w 16 4))) s)) ∧
    (Issues p w 0x07 0x00 s → Completes (.rdtime p w) s (WritesS p sd s.time.dtime s)) ∧
    (Issues p w 0x07 0x05 s → Completes (.rdcyc p w) s
      (WritesS p sd (BitVec.ofNat 64 (placeCycles p (s.time.ticks - q.startTick))) s)) ∧
    (Issues p w 0x06 0x00 s → Completes (.amov p w) s (WritesA p (fld w 12 4) (sreg q (fld w 20 5)).toNat s)) ∧
    (Issues p w 0x06 0x01 s → Completes (.aadd p w) s
      (WritesA p (fld w 12 4) (areg q (fld w 16 4) + (sfld w 32 32).toNat) s)) ∧
    (Issues p w 0x06 0x02 s → Completes (.aadds p w) s
      (WritesA p (fld w 12 4) (areg q (fld w 16 4) + (sreg q (fld w 20 5)).toNat * 2 ^ fld w 25 3) s)) ∧
    (Issues p w 0x05 0x00 s → Completes (.nop p w) s (GoesTo p (q.pc + 1) s))

/-- The branches, jumps and CALL: a branch whose condition holds, JMP and CALL go to the instruction OFF32 words from themselves, JR to
the word index in SA, when that target lies inside the code; a branch whose condition fails goes on; BTOK is taken when its token is
ready; CALL also writes the index of the next instruction into SD. Nothing else of the device changes. -/
def Obligations.BranchesAndJumpsReachTheirTarget : Prop :=
  ∀ (p : Place) (w : Word) (s : State) (n : Nat), offsetTarget p (sfld w 32 32) s = n → TargetInside p n s →
    let q := seqOf p s
    let a := sreg q (fld w 12 5)
    (∀ x ∈ [(Instr.beqz p w, 0x00, decide (a = 0)), (.bnez p w, 0x01, decide (a ≠ 0)), (.bltz p w, 0x02, decide (a.toInt < 0)),
        (.bgez p w, 0x03, decide (0 ≤ a.toInt)), (.btok p w, 0x04, q.tok.toList.getD (fld w 12 4) true)],
      Issues p w 0x04 x.2.1 s →
        (x.2.2 = true → Completes x.1 s (GoesTo p n s)) ∧
        (x.2.2 = false → NextInside p s → Completes x.1 s (GoesTo p (q.pc + 1) s))) ∧
    (Issues p w 0x05 0x01 s → Completes (.jmp p w) s (GoesTo p n s)) ∧
    (Issues p w 0x05 0x02 s → Completes (.call p w) s fun t =>
      OnlyPlace p s t ∧ seqOf p t = { setS (fld w 12 5) (BitVec.ofNat 64 (q.pc + 1)) q with pc := n, stall := none }) ∧
    (Issues p w 0x05 0x03 s → TargetInside p a.toNat s → Completes (.jr p w) s (GoesTo p a.toNat s))

/-- RDID on a core writes the value that SEL names, RDFLAG the stream flag word, CLRFLAG clears the stream flags set in MASK7 but keeps
one raised in the same cycle, and SETSTREAM sets STREAM and starts the reseed; RDID on a link engine or memory-side die reads zero for
SEL 0 and 4 and all ones for SEL 3. SETSTREAM_RESEED_DONE gives all 128 lanes the generators of the new STREAM (R74). -/
def Obligations.SpecialInstructionsReadAndWrite : Prop :=
  (∀ (c : Fin 192) (w : Word) (s : State), NextInside (.core c) s →
    let k := coreOf c s
    let u := k.run.bind fun r => runOf r s
    (Issues (.core c) w 0x07 0x01 s → ∀ x ∈ [(0, BitVec.ofNat 64 c.val), (1, BitVec.ofNat 64 k.index),
        (2, BitVec.ofNat 64 ((u.map fun u => u.cores.length).getD 0)), (3, (u.bind fun u => u.step).getD (BitVec.allOnes 64)),
        (4, ((u.bind fun u => chanOf u.slot s).map fun h => h.handle.setWidth 64).getD 0)],
      fld w 17 3 = x.1 → Completes (.rdid (.core c) w) s (WritesS (.core c) (fld w 12 5) x.2 s)) ∧
    (Issues (.core c) w 0x07 0x02 s → Completes (.rdflag c w) s (WritesS (.core c) (fld w 12 5) (k.vec.streamFlags.setWidth 64) s)) ∧
    (Issues (.core c) w 0x07 0x03 s → ∀ co : BitVec 7, Completes (.clrflag c w co) s fun t =>
      OnlyCore c s t ∧ (coreOf c t).seq = nextSeq k.seq ∧ besideVec (coreOf c t) = besideVec k ∧
        (coreOf c t).vec.streamFlags = (k.vec.streamFlags &&& ~~~ BitVec.ofNat 7 (fld w 20 7)) ||| co ∧
        (coreOf c t).vec.lessonFlags = k.vec.lessonFlags ||| co) ∧
    (Issues (.core c) w 0x07 0x04 s → Completes (.setstream c w) s fun t =>
      OnlyCore c s t ∧ (coreOf c t).seq = nextSeq k.seq ∧ (coreOf c t).vec = { k.vec with stream := sreg k.seq (fld w 12 5) } ∧
        (coreOf c t).reseed = some (sreg k.seq (fld w 12 5)))) ∧
  (∀ (p : Place) (w : Word) (s : State), (∀ c, p ≠ .core c) → Issues p w 0x07 0x01 s →
    ∀ x ∈ [(0, (0 : Word)), (4, 0), (3, BitVec.allOnes 64)], fld w 17 3 = x.1 →
      Completes (.rdid p w) s (WritesS p (fld w 12 5) x.2 s)) ∧
  (∀ (c : Fin 192) (s : State) (v : Word), (coreOf c s).reseed = some v → Completes (.setstreamReseedDone c) s fun t =>
    OnlyCore c s t ∧ (coreOf c t).reseed = none ∧ ∀ l : Fin 128,
      (coreOf c t).vec.gens[l] = genSeed (coreSeed c s) (BitVec.ofNat 64 l.val) v)

/-- SLD at an aligned address inside the scratch writes the bytes it reads, extended by SEXT; SST stores the low bytes of S there and
every other byte of the scratch reads as before. Neither changes anything else of the device. -/
def Obligations.ScratchLoadAndStore : Prop :=
  ∀ (p : Place) (w : Word) (s : State) (a n : Nat), NextInside p s → smemAddr p w s = some (a, n) →
    (a = (areg (seqOf p s) (fld w 17 4) + (sfld w 32 32).toNat) % 2 ^ 48 ∧ n = 2 ^ fld w 21 3) ∧
    (Issues p w 0x08 0x00 s → Completes (.sld p w) s
      (WritesS p (fld w 12 5) (extendBytes (fld w 24 1 == 1) n (leNat (memRead (scratchOf p s) a n))) s)) ∧
    (Issues p w 0x08 0x01 s → Completes (.sst p w) s fun t =>
      (scratchOf p t = memWrite (scratchOf p s) a (leBytes n (sreg (seqOf p s) (fld w 12 5)).toNat)) ∧
      (∀ x : Nat, x < a ∨ a + n ≤ x → memGet (scratchOf p t) x = memGet (scratchOf p s) x) ∧
      (seqOf p t).pc = (seqOf p s).pc + 1 ∧ (seqOf p t).s = (seqOf p s).s ∧ (seqOf p t).a = (seqOf p s).a ∧
      outsidePlaces t = outsidePlaces s ∧ ∀ q : Place, q ≠ p → seqOf q t = seqOf q s)

/-- HALT on a link engine or memory-side die returns to its first word and counts cycles afresh. HALT on a core all of whose operations are
complete and that belongs to no run ends its lesson: the core runs no more, its output tile closes and its tile queue is empty. An
instruction of a core whose next program counter lies outside the code section stops its lesson as REFUSED_MALFORMED with DETAIL 0x0004
and the word index of the instruction as RESULT0: shown of NOP and of JMP (Table 06-3, R141). -/
def Obligations.LessonsEnd : Prop :=
  ((∀ (p : Place) (w : Word) (s : State), (∀ c, p ≠ .core c) → Issues p w 0x05 0x04 s →
     Completes (.halt p w) s fun t => OnlyPlace p s t ∧ seqOf p t = { seqOf p s with pc := 0, startTick := s.time.ticks }) ∧
   (∀ (c : Fin 192) (w : Word) (s : State), Issues (.core c) w 0x05 0x04 s → coreIdle (coreOf c s) = true → (coreOf c s).run = none →
     fillStuck (coreOf c s) = false →
     Completes (.halt (.core c) w) s fun t =>
       OnlyCore c s t ∧ (coreOf c t).halted = true ∧ (coreOf c t).halting = false ∧ (coreOf c t).seq.running = false ∧
         (coreOf c t).tile.entries = [] ∧ (coreOf c t).vec = closeTile (coreOf c s).vec ∧ (coreOf c t).desk = (coreOf c s).desk)) ∧
  (∀ (c : Fin 192) (w : Word) (s : State) (r : Nat) (u : Run), (coreOf c s).run = some r → runOf r s = some u → u.stop = none →
     (Issues (.core c) w 0x05 0x00 s → ¬ NextInside (.core c) s → Completes (.nop (.core c) w) s fun t =>
       (runOf r t).map (fun x => x.stop) = some (some (0x12, 0x0004, BitVec.ofNat 64 (coreOf c s).seq.pc)) ∧
       t.memory = s.memory) ∧
     (Issues (.core c) w 0x05 0x01 s → (∀ n : Nat, offsetTarget (.core c) (sfld w 32 32) s = n → ¬ TargetInside (.core c) n s) →
       Completes (.jmp (.core c) w) s fun t =>
         (runOf r t).map (fun x => x.stop) = some (some (0x12, 0x0004, BitVec.ofNat 64 (coreOf c s).seq.pc)) ∧
         t.memory = s.memory))

/-! ## Lesson instructions: vector state (chapter 05) -/

/-- The floating-point lane operations ADD to TANH with a TYPE of FP32, BF16 or FP16 write, in every lane of the execution mask, the
rounded result of the lanes of their operand registers, and raise that lane's flags in the stream, lesson and output-tile words; other
lanes, registers, masks and generators stay, and nothing else of the device changes. -/
def Obligations.FloatLaneOperations : Prop :=
  ∀ (c : Fin 192) (w : Word) (s : State), NextInside (.core c) s → floatType (vType w) = true →
    let v := (coreOf c s).vec
    let t := vType w
    let a := fun l : Fin 128 => laneVal t (vreg v (vA w))[l]
    let b := fun l : Fin 128 => laneVal t (vreg v (vB w))[l]
    let d := fun l : Fin 128 => laneVal t (vreg v (vC w))[l]
    ∀ x ∈ [(Instr.vopAdd c w, 0x00, fun l => addOp t (a l) (b l)), (.vopSub c w, 0x01, fun l => subOp t (a l) (b l)),
        (.vopMul c w, 0x02, fun l => mulOp t (a l) (b l)), (.fma c w, 0x03, fun l => fmaOp t (a l) (b l) (d l)),
        (.abs c w, 0x06, fun l => signOp t (fun _ => false) (a l)), (.neg c w, 0x07, fun l => signOp t not (a l)),
        (.div c w, 0x08, fun l => divOp t (a l) (b l)), (.rcp c w, 0x09, fun l => rcpOp t (a l)),
        (.sqrt c w, 0x0A, fun l => sqrtOp t (a l)), (.rsqrt c w, 0x0B, fun l => rsqrtOp t (a l)),
        (.exp c w, 0x0C, fun l => expOp t (a l)), (.exp2 c w, 0x0D, fun l => exp2Op t (a l)),
        (.log c w, 0x0E, fun l => logOp t (a l)), (.log2 c w, 0x0F, fun l => log2Op t (a l)),
        (.tanh c w, 0x10, fun l => tanhOp t (a l))],
      Issues (.core c) w 0x20 x.2.1 s →
        Completes x.1 s (WritesLanes c (vD w) (mreg v (vMask w)) (fun l => (BitVec.ofNat 32 (x.2.2 l).1, (x.2.2 l).2)) v.gens s)

/-- MAX, MIN, SEL, the integer and bit operations, BCAST, IOTA and ROT write their result in every lane of the mask and raise no flag.
INT32 arithmetic wraps modulo 2^32 with IMUL keeping the low 32 bits; the bit operations act on the low bits of TYPE's width, shift
counts taken modulo 32 and SRA copying the type's sign bit; bits above the width are written as zero. -/
def Obligations.IntegerAndBitLaneOperations : Prop :=
  ∀ (c : Fin 192) (w : Word) (s : State), NextInside (.core c) s →
    let v := (coreOf c s).vec
    let t := vType w
    let n := typeWidth t
    let lo := fun x : W32 => BitVec.ofNat 32 (x.toNat % 2 ^ n)
    let a := fun l : Fin 128 => (vreg v (vA w))[l]
    let b := fun l : Fin 128 => (vreg v (vB w))[l]
    let sc := sreg (coreOf c s).seq (fld w 51 5)
    let run := fun (i : Instr) (f : Nat) (r : Fin 128 → W32) => Issues (.core c) w 0x20 f s →
      Completes i s (WritesLanes c (vD w) (mreg v (vMask w)) (fun l => (r l, 0)) v.gens s)
    (t = 0x0B → ∀ x ∈ [(Instr.iadd c w, 0x14, fun l => a l + b l), (.isub c w, 0x15, fun l => a l - b l),
        (.imul c w, 0x16, fun l => a l * b l), (.imax c w, 0x17, fun l => if (a l).slt (b l) then b l else a l),
        (.imin c w, 0x18, fun l => if (b l).slt (a l) then b l else a l), (.iota c w, 0x20, fun l => BitVec.ofNat 32 l.val)],
      run x.1 x.2.1 x.2.2) ∧
    (arithType t = true → ∀ x ∈ [(Instr.vopAnd c w, 0x19, fun l => lo (a l &&& b l)), (.vopOr c w, 0x1A, fun l => lo (a l ||| b l)),
        (.vopXor c w, 0x1B, fun l => lo (a l ^^^ b l)), (.vopShl c w, 0x1C, fun l => lo (a l <<< ((b l).toNat % 32))),
        (.vopShr c w, 0x1D, fun l => lo (a l) >>> ((b l).toNat % 32)),
        (.vopSra c w, 0x1E, fun l => BitVec.ofNat 32 ((BitVec.ofNat n (a l).toNat).sshiftRight ((b l).toNat % 32)).toNat),
        (.sel c w, 0x13, fun l => lo (if (mreg v (fld w 27 3)).getLsbD l then a l else b l)),
        (.bcast c w, 0x1F, fun _ => lo (sc.setWidth 32)),
        (.rot c w, 0x21, fun l => lo (a ⟨(l.val + sc.toNat) % 128, Nat.mod_lt _ (by decide)⟩)),
        (.vopMax c w, 0x04, fun l => BitVec.ofNat 32 (exactCode t (maxFp (laneVal t (a l)) (laneVal t (b l))))),
        (.vopMin c w, 0x05, fun l => BitVec.ofNat 32 (exactCode t (minFp (laneVal t (a l)) (laneVal t (b l)))))],
      run x.1 x.2.1 x.2.2)

/-- CMP writes, in the mask register it names, 1 where the lane is unmasked and the condition holds of the two lanes and 0 elsewhere:
EQ, LT and LE are false and NE and UN true with a NaN operand, and the zeros compare equal. MAND, MOR, MXOR and MNOT act bit by bit.
Mask m0 keeps reading as all ones, and no flag is raised. -/
def Obligations.CompareAndMaskOperations : Prop :=
  ∀ (c : Fin 192) (w : Word) (s : State), NextInside (.core c) s →
    let v := (coreOf c s).vec
    let x := fun l : Fin 128 => laneVal (vType w) (vreg v (vA w))[l]
    let y := fun l : Fin 128 => laneVal (vType w) (vreg v (vB w))[l]
    let un := fun l => x l = .nan ∨ y l = .nan
    let le := fun l => ltFp (y l) (x l) = false
    let lt := fun l => ltFp (x l) (y l) = true
    let eq := fun l => ltFp (x l) (y l) = false ∧ ltFp (y l) (x l) = false
    let m := fun (r : Nat) (l : Fin 128) => (mreg v r).getLsbD l
    let cond := fld w 47 4
    (arithType (vType w) = true → cond ≤ 4 → Issues (.core c) w 0x20 0x12 s → ∃ f : Fin 128 → Bool,
      Completes (.cmp c w) s (WritesMask c (fld w 12 3) f s) ∧ ∀ l, (f l = true ↔ m (vMask w) l = true ∧
        ((cond = 0 ∧ ¬ un l ∧ eq l) ∨ (cond = 1 ∧ (un l ∨ ¬ eq l)) ∨ (cond = 2 ∧ ¬ un l ∧ lt l) ∨ (cond = 3 ∧ ¬ un l ∧ le l) ∨
          (cond = 4 ∧ un l)))) ∧
    (vA w < 8 → vB w < 8 → ∀ z ∈ [(Instr.mand c w, 0x22, fun l => m (vA w) l && m (vB w) l),
        (.mor c w, 0x23, fun l => m (vA w) l || m (vB w) l), (.mxor c w, 0x24, fun l => m (vA w) l != m (vB w) l)],
      Issues (.core c) w 0x20 z.2.1 s → Completes z.1 s (WritesMask c (fld w 12 3) z.2.2 s)) ∧
    (vA w < 8 → Issues (.core c) w 0x20 0x25 s → Completes (.mnot c w) s (WritesMask c (fld w 12 3) (fun l => !m (vA w) l) s))

/-- RAND advances the generators of all 128 lanes by one draw, whatever the mask, and writes in unmasked lanes 24 bits scaled by 2^-24
for FP32 or 32 bits for INT32. CVT writes each unmasked lane converted to FMT2 and advances all generators when it rounds stochastically. -/
def Obligations.RandomDrawsAndConversions : Prop :=
  ∀ (c : Fin 192) (w : Word) (s : State), NextInside (.core c) s →
    let v := (coreOf c s).vec
    let rule := coreRule c (fld w 39 3) (fld w 42 1 == 1) s
    let st := fld w 39 3 == 4
    ((coreOf c s).reseed = none → Issues (.core c) w 0x20 0x26 s →
      (vType w = 0x0B → Completes (.rand c w) s (WritesLanes c (vD w) (mreg v (vMask w))
        (fun l => (BitVec.ofNat 32 (laneDraw true 32 v l), 0)) (drawnGens true v) s)) ∧
      (vType w = 0x01 → Completes (.rand c w) s (WritesLanes c (vD w) (mreg v (vMask w))
        (fun l => (BitVec.ofNat 32 (exactCode 0x01 (.fin false (laneDraw true 24 v l) (-24))), 0)) (drawnGens true v) s))) ∧
    (arithType (vType w) = true → cvtTarget (fld w 43 4) = true → fld w 39 3 ≤ 4 → (fld w 42 1 = 1 → ovfAllowed (fld w 43 4) = true) →
      (st = true → (coreOf c s).reseed = none) → Issues (.core c) w 0x20 0x11 s →
      Completes (.cvt c w) s (WritesLanes c (vD w) (mreg v (vMask w))
        (fun l => laneOut (encodeElem (fld w 43 4) rule (laneDraw st rule.2.1 v l) (laneVal (vType w) (vreg v (vA w))[l])))
        (drawnGens st v) s))

/-- REDUCE writes the reduction of the lanes of its mask into every lane of vd; an empty set gives the identity of the operation and
raises EMPTY. SMX.NORM writes every lane from its softmax state. TILE closes the output tile and opens one at the given coordinates
with a clear flag word. -/
def Obligations.ReductionsNormalisationAndTile : Prop :=
  ∀ (c : Fin 192) (w : Word) (s : State), NextInside (.core c) s →
    let v := (coreOf c s).vec
    let all := BitVec.allOnes 128
    let st := fun (i : Nat) (l : Fin 128) => (vreg v (vB w + i))[l]
    let sc := sreg (coreOf c s).seq (fld w 51 5)
    (arithType (vType w) = true → fld w 47 4 ≤ 3 → Issues (.core c) w 0x20 0x27 s →
      (mreg v (vMask w) ≠ 0 → Completes (.reduce c w) s (WritesLanes c (vD w) all
        (fun _ => reduceLanes (fld w 47 4) (vType w) (vA w) (mreg v (vMask w)) v) v.gens s)) ∧
      (mreg v (vMask w) = 0 → Completes (.reduce c w) s (WritesLanes c (vD w) all
        (fun _ => (BitVec.ofNat 32 (reduceEmpty (fld w 47 4) (vType w)), 0x40)) v.gens s))) ∧
    (vB w % 4 = 0 → Issues (.core c) w 0x20 0x2A s → Completes (.smxNorm c w) s (WritesLanes c (vD w) all
      (fun l => smxNormLane (st 0 l) (st 1 l) (st 2 l) (st 3 l) ((mreg v (vMask w)).getLsbD l) (laneVal 0x01 (vreg v (vA w))[l]))
      v.gens s)) ∧
    (Issues (.core c) w 0x20 0x2B s → Completes (.tile c w) s fun t => OnlyVec c s t ∧
      let u := (coreOf c t).vec
      u.otcRow = sc.extractLsb' 0 16 ∧ u.otcCol = sc.extractLsb' 16 16 ∧ u.tileFlags = 0 ∧ u.streamFlags = v.streamFlags ∧
        u.lessonFlags = v.lessonFlags ∧ u.v = v.v ∧ u.m = v.m ∧ u.gens = v.gens ∧
        u.flagged = v.flagged + (if v.tileFlags &&& 0x67#7 = 0 then 0 else 1) ∧
        (u.firstFlagged = if v.tileFlags &&& 0x67#7 = 0 then v.firstFlagged else some (v.firstFlagged.getD (v.otcRow, v.otcCol))))

/-- SMX.INIT b sets M to minus infinity and L, N and Q to zero in all 128 lanes, whatever the mask; no other register changes. -/
def Obligations.SoftmaxInit : Prop :=
  ∀ (c : Fin 192) (w : Word) (s : State), NextInside (.core c) s → vD w % 4 = 0 → Issues (.core c) w 0x20 0x28 s →
    Completes (.smxInit c w) s fun t => OnlyVec c s t ∧
      let u := (coreOf c t).vec
      (∀ l : Fin 128, (vreg u (vD w))[l] = 0xFF800000#32 ∧ (vreg u (vD w + 1))[l] = 0 ∧ (vreg u (vD w + 2))[l] = 0 ∧
        (vreg u (vD w + 3))[l] = 0) ∧
      (∀ r : Nat, r < vD w ∨ vD w + 3 < r → vreg u r = vreg (coreOf c s).vec r) ∧
      u = { (coreOf c s).vec with v := u.v }

/-- SMX.STEP updates M, L, N and Q in the lanes of its mask: a NaN sets Q.nan and minus infinity Q.neginf; plus infinity counts in N;
a finite element sets Q.finite, M becomes the larger and L takes the scaled sum. Other lanes and registers stay. -/
def Obligations.SoftmaxStep : Prop :=
  ∀ (c : Fin 192) (w : Word) (s : State), NextInside (.core c) s → vD w % 4 = 0 → Issues (.core c) w 0x20 0x29 s →
    let v := (coreOf c s).vec
    let st := fun (i : Nat) (l : Fin 128) => (vreg v (vD w + i))[l]
    let x := fun l : Fin 128 => laneVal 0x01 (vreg v (vA w))[l]
    Completes (.smxStep c w) s fun t => OnlyVec c s t ∧
      let u := (coreOf c t).vec
      let nw := fun (i : Nat) (l : Fin 128) => (vreg u (vD w + i))[l]
      (∀ l : Fin 128, (mreg v (vMask w)).getLsbD l = false → ∀ i : Nat, i < 4 → nw i l = st i l) ∧
      (∀ l : Fin 128, (mreg v (vMask w)).getLsbD l = true →
        (x l = .nan → nw 0 l = st 0 l ∧ nw 1 l = st 1 l ∧ nw 2 l = st 2 l ∧ nw 3 l = st 3 l ||| 1) ∧
        (x l = .inf true → nw 0 l = st 0 l ∧ nw 1 l = st 1 l ∧ nw 2 l = st 2 l ∧ nw 3 l = st 3 l ||| 2) ∧
        (x l = .inf false → nw 0 l = st 0 l ∧ nw 1 l = st 1 l ∧ nw 3 l = st 3 l ∧
          nw 2 l = if st 2 l = 0x7FFFFFFF#32 then st 2 l else st 2 l + 1) ∧
        (∀ (n : Bool) (m : Nat) (e : Int), x l = .fin n m e →
          let mv := decodeFloat 0x01 (st 0 l).toNat
          let m' := maxFp mv (x l)
          let sc := if mv = .inf true then (0, 0) else expOp 0x01 (diffFp mv m')
          nw 0 l = BitVec.ofNat 32 (exactCode 0x01 m') ∧ nw 2 l = st 2 l ∧ nw 3 l = st 3 l ||| 4 ∧
          nw 1 l = BitVec.ofNat 32 (fmaOp 0x01 (decodeFloat 0x01 (st 1 l).toNat) (decodeFloat 0x01 sc.1)
            (decodeFloat 0x01 (expOp 0x01 (diffFp (x l) m')).1)).1)) ∧
      (∀ r : Nat, r < vD w ∨ vD w + 3 < r → vreg u r = vreg v r) ∧ u.m = v.m ∧ u.gens = v.gens ∧ u.stream = v.stream

/-- LOAD converts the 128 elements of its Desk spans to TYPE and writes them in the lanes of its mask, flags raised; with stochastic
rounding every generator advances by one draw; with INC its address or element index advances. The Desk and the rest of the device stay.
STORE writes its converted lanes to the Desk, masked-off elements apart; every Desk byte outside them, the vector registers and masks,
memory and the other cores stay, and with no statistics tag nothing else of the device changes. -/
def Obligations.LoadAndStoreMoveTheDesk : Prop :=
  (∀ (c : Fin 192) (w : Word) (s : State) (sps : List (Nat × Nat)), NextInside (.core c) s → Issues (.core c) w 0x21 0x00 s →
     arithType (mType w) = true → loadFmt (mFmt w) = true → mRound w ≤ 4 → mOvf w = false →
     vmemSpans (coreOf c s).seq w = some sps →
     (∀ p ∈ sps, p.1 + p.2 ≤ 4194304 ∧ fenceMeets (coreOf c s) p.1 p.2 = false) → (mRound w = 4 → (coreOf c s).reseed = none) →
     let k := coreOf c s
     let rule := coreRule c (mRound w) false s
     let st := mRound w == 4
     let xs := vmemValues (mFmt w) (readSpans k s.free sps)
     Completes (.load c w) s fun t =>
       OnlyCore c s { t with free := s.free } ∧ (coreOf c t).seq = nextSeq (vmemInc w k.seq) ∧
       besideVec (coreOf c t) = besideVec k ∧
       LanesWritten (fld w 12 5) (mreg k.vec (mMask w))
         (fun l => laneOut (encodeElem (mType w) rule (laneDraw st rule.2.1 k.vec l) (xs.getD l.val (.fin false 0 0))))
         (drawnGens st k.vec) k.vec (coreOf c t).vec) ∧
  (∀ (c : Fin 192) (w : Word) (s : State) (sps : List (Nat × Nat)), NextInside (.core c) s → Issues (.core c) w 0x21 0x01 s →
     arithType (mType w) = true → storeFmt (mFmt w) = true → mRound w ≤ 4 → (mOvf w = true → ovfAllowed (mFmt w) = true) →
     ((ssbElem (mFmt w)).isSome = true → mMask w = 0) → vmemSpans (coreOf c s).seq w = some sps →
     (∀ p ∈ sps, p.1 + p.2 ≤ 4194304 ∧ fenceMeets (coreOf c s) p.1 p.2 = false) → (mRound w = 4 → (coreOf c s).reseed = none) →
     let k := coreOf c s
     let rule := coreRule c (mRound w) (mOvf w) s
     let st := mRound w == 4
     let rs := if st then (List.finRange 128).map (fun (l : Fin 128) => laneDraw true rule.2.1 k.vec l) else List.replicate 128 0
     let ws := (storeWrites k w rule rs sps).1
     Completes (.store c w) s fun t =>
       (coreOf c t).desk = ws.foldl (fun m x => memWrite m x.1 x.2) k.desk ∧
       (∀ a : Nat, (∀ x ∈ ws, a < x.1 ∨ x.1 + x.2.length ≤ a) → memGet (coreOf c t).desk a = memGet k.desk a) ∧
       (coreOf c t).seq = nextSeq (vmemInc w k.seq) ∧ (coreOf c t).vec.v = k.vec.v ∧ (coreOf c t).vec.m = k.vec.m ∧
       (coreOf c t).vec.gens = drawnGens st k.vec ∧ (coreOf c t).tile = k.tile ∧ t.memory = s.memory ∧
       (∀ d : Nat, d ≠ c.val → coreOf d t = coreOf d s) ∧ (k.statTag = none → OnlyCore c s { t with free := s.free }))

/-- POP takes the next row of the oldest entry of ACC that may be popped into every lane of vd, and POP_ROW_DELIVER does so for a POP
that waits. The last valid row frees the entry; the first ORs the entry's flags into the stream and lesson words, and into the
output-tile word when its coordinates are those of the output tile, which closes otherwise. -/
def Obligations.PopTakesTheNextRow : Prop :=
  ∀ (c : Fin 192) (w : Word) (s : State) (e : Entry),
    let k := coreOf c s
    let taken := fun (r : Nat) (t : State) =>
      OnlyCore c s t ∧ (coreOf c t).waitPop = none ∧
      (∀ l : Fin 128, (vreg (coreOf c t).vec r)[l] = (e.data.getD e.next []).getD l.val 0) ∧
      (∀ x : Nat, x ≠ r → vreg (coreOf c t).vec x = vreg k.vec x) ∧
      ((coreOf c t).tile.entries = if e.rows ≤ e.next + 1 then k.tile.entries.filter (fun x => x.seq ≠ e.seq)
        else k.tile.entries.map fun x => if x.seq = e.seq then { x with st := .popping, next := x.next + 1 } else x) ∧
      (e.next ≠ 0 → (coreOf c t).vec.streamFlags = k.vec.streamFlags ∧ (coreOf c t).vec.tileFlags = k.vec.tileFlags) ∧
      (e.next = 0 → (coreOf c t).vec.streamFlags = k.vec.streamFlags ||| e.flags ∧
        (coreOf c t).vec.lessonFlags = k.vec.lessonFlags ||| e.flags ∧
        (coreOf c t).vec.otcRow = e.trow ∧ (coreOf c t).vec.otcCol = e.tcol ∧
        (coreOf c t).vec.tileFlags =
          if e.trow = k.vec.otcRow ∧ e.tcol = k.vec.otcCol then k.vec.tileFlags ||| e.flags else e.flags)
    (NextInside (.core c) s → Issues (.core c) w 0x21 0x02 s → (accEntries (fld w 37 3) k.tile).head? = some e → e.open' = false →
      poppable e = true → (k.tile.entries.any fun x => x.acc == fld w 37 3 && x.st == .draining) = false →
      Completes (.pop c w) s fun t => taken (fld w 12 5) t ∧ (coreOf c t).seq = nextSeq k.seq) ∧
    (∀ r acc : Nat, r < 32 → k.waitPop = some (r, acc) → (k.tile.entries.filter fun x => x.acc == acc).head? = some e →
      poppable e = true → Completes (.popRowDeliver c) s fun t => taken r t ∧ (coreOf c t).seq = k.seq)

/-! ## Lesson instructions: memory access and the Tile Array (chapters 04 and 06) -/

/-- DLD and DST that their fields, token, unit, memory and Desk allow issue: the operation joins the core's DMAs with its addresses and
lengths, its token is busy, and with INC both address registers advance by the bytes of their side. Nothing lands yet: memory and the
Desks stay. Where no fence meets the Desk span a DLD holds what memory gives and a DST what the Desk gives. DMA_COMPLETE lands the
oldest DMA of its direction that has its bytes and is due: it leaves its unit, its token is ready, a DLD's bytes stand on the Desk and a
DST's in memory, and every other byte of both is as before. -/
def Obligations.DmaIssuesAndLands : Prop :=
  (∀ (c : Fin 192) (w : Word) (s : State), NextInside (.core c) s → TokenFree c (fld w 25 5) s → (coreOf c s).dmas.length < 4 →
     let k := coreOf c s
     let len := (sreg k.seq (dSlen w)).toNat % 2 ^ 32
     let mem := areg k.seq (fld w 17 4)
     let desk := areg k.seq (fld w 21 4)
     let whole := tensorBytes (dDfmt w) (tensorElems (dSfmt w) len)
     let head := vaRead (coreSlot c s) mem 64 s
     let dlen := if dCodec w = 2 then tensorBytes (dDfmt w) (tensorElems (dSfmt w) (streamRaw head)) else whole
     let span := if dCodec w = 1 then maxStored whole else whole
     let inc := fun (m n : Nat) (q : Seq) => if fld w 30 1 = 1 then setA (fld w 21 4) (desk + n) (setA (fld w 17 4) (mem + m) q) else q
     (dmaFieldsOk w 2 len = true → Issues (.core c) w 0x10 0x00 s → readFault c mem len s = none → desk + dlen ≤ 4194304 →
       (dCodec w = 2 → 64 ≤ len ∧ streamHeaderOk head = true ∧ streamAgrees head len (dSfmt w) = true) →
       Completes (.dld c w) s fun t => SameMemory s t ∧ (∀ d : Nat, (coreOf d t).desk = (coreOf d s).desk) ∧
         Begun c (fld w 25 5) (inc len dlen k.seq) s t ∧ ∃ o : DmaOp, (coreOf c t).dmas = k.dmas ++ [o] ∧
           (o.toMem, o.mem, o.desk, o.len, o.dlen, o.tok) = (false, mem, desk, len, dlen, tokField (fld w 25 5)) ∧
           (fenceMeets k desk dlen = false → o.data = some (loadData c o s).1) ∧
           (fenceMeets k desk dlen = true → o.data = none)) ∧
     (dmaFieldsOk w 1 len = true → Issues (.core c) w 0x10 0x01 s → writeFault c mem span s = none → desk + len ≤ 4194304 →
       Completes (.dst c w) s fun t => SameMemory s t ∧ (∀ d : Nat, (coreOf d t).desk = (coreOf d s).desk) ∧
         Begun c (fld w 25 5) (inc whole len k.seq) s t ∧ ∃ o : DmaOp, (coreOf c t).dmas = k.dmas ++ [o] ∧
           (o.toMem, o.mem, o.desk, o.len, o.dlen, o.tok) = (true, mem, desk, len, whole, tokField (fld w 25 5)) ∧
           (fenceMeets k desk len = false →
             o.data = some (storedBytes o (convertWhole (dSfmt w) (dDfmt w) (dmaRule c (dRound w) s) (deskRead k s.free desk len)).1)) ∧
           (fenceMeets k desk len = true → o.data = none))) ∧
  (∀ (c : Fin 192) (s : State) (toMem : Bool) (o : DmaOp) (bs : List Byte),
     (coreOf c s).dmas.find? (fun o => o.toMem == toMem) = some o → o.data = some bs → o.toMem = toMem → dmaDue c o s = true →
     Completes (.dmaComplete c toMem) s fun t =>
       (coreOf c t).dmas.map (fun x => x.seq) = ((coreOf c s).dmas.filter fun x => x.seq ≠ o.seq).map (fun x => x.seq) ∧
       TokenReady c o.tok s t ∧ OtherDesks c s t ∧
       (toMem = false → SameMemory s t ∧ DeskTakes c o.desk bs s t) ∧
       (toMem = true → Stores (coreSlot c s) o.mem bs s t ∧ (coreOf c t).desk = (coreOf c s).desk))

/-- GATHER, SCATTER and the atomics SADD, SMIN and SMAX that their token, unit, Desk and memory allow issue with one item for each unmasked
lane: the operation joins the unit, its token is busy, and memory and the Desks stay. The atomics take FP32, BF16, FP16, INT32 or INT64
and stand in no lesson of a step. NARROW_COMPLETE of an operation that no fence holds and that reads no block being rebuilt: it leaves
its unit and its token is ready; a GATHER's items stand on the Desk lane after lane, a SCATTER's and the atomics' in memory, and neither
touches the other. -/
def Obligations.NarrowAccessesIssueAndLand : Prop :=
  (∀ (c : Fin 192) (w : Word) (s : State), NextInside (.core c) s → TokenFree c (fld w 25 5) s → (coreOf c s).narrows.length < 4 →
     let k := coreOf c s
     let items := narrowItems k w
     (∀ x ∈ items, x.2 + 32 ≤ 4194304) →
     ∀ x ∈ [(Instr.gather c w, 0), (.scatter c w, 1), (.sadd c w, 2), (.smin c w, 3), (.smax c w, 4)],
       narrowFault c (x.2 == 0 || decide (2 ≤ x.2)) (x.2 != 0) (decide (2 ≤ x.2)) items s = none →
       (2 ≤ x.2 → atomicType (fld w 33 4) = true ∧ ∀ u, coreRun c s = some u → u.step = none) → Issues (.core c) w 0x11 x.2 s →
       Completes x.1 s fun t => SameMemory s t ∧ (∀ d : Nat, (coreOf d t).desk = (coreOf d s).desk) ∧
         Begun c (fld w 25 5) k.seq s t ∧ ∃ o : NarrowOp, (coreOf c t).narrows = k.narrows ++ [o] ∧
           o.func = x.2 ∧ o.tok = tokField (fld w 25 5) ∧ o.items.map (fun i => (i.1, i.2.1)) = items ∧
           (x.2 = 0 → ∀ i ∈ o.items, i.2.2 = vaRead (coreSlot c s) i.1 32 s)) ∧
  (∀ (c : Fin 192) (s : State) (seq : Nat) (o : NarrowOp), (coreOf c s).narrows.find? (fun o => o.seq == seq) = some o →
     o.late = false → narrowHeld c o s = false →
     Completes (.narrowComplete c seq) s fun t =>
       (coreOf c t).narrows.map (fun x => x.seq) = ((coreOf c s).narrows.filter fun x => x.seq ≠ seq).map (fun x => x.seq) ∧
       TokenReady c o.tok s t ∧ OtherDesks c s t ∧
       (o.func = 0 → SameMemory s t ∧ (coreOf c t).desk = o.items.foldl (fun m i => memWrite m i.2.1 i.2.2) (coreOf c s).desk ∧
         ∀ a : Nat, (∀ i ∈ o.items, a < i.2.1 ∨ i.2.1 + i.2.2.length ≤ a) →
           memGet (coreOf c t).desk a = memGet (coreOf c s).desk a) ∧
       (o.func ≠ 0 → (coreOf c t).desk = (coreOf c s).desk) ∧
       (o.func = 1 → SameMemory (o.items.foldl (fun u i => vaStore (coreSlot c s) i.1 i.2.2 u) s) t) ∧
       (2 ≤ o.func → SameMemory (o.items.foldl (fun u i => vaStore (coreSlot c s) i.1
         (atomicItem o.func o.atype (vaRead (coreSlot c s) i.1 32 u) i.2.2).1 u) s) t))

/-- FILL stages the bank that its Desk bytes give and makes its token busy, SWAP exchanges the roles of the banks, and FILL_COMPLETE makes
the token of the oldest FILL of a bank ready once no waiting pass stands before it. The Desk, memory and the other bank stay. DRAIN of a
visible entry writes its converted rows to the Desk and makes its token busy; every other Desk byte, the banks and memory stay.
DRAIN_COMPLETE frees the entry, makes the token ready and ORs the entry's flags into the stream and lesson flag words. -/
def Obligations.BanksFillAndEntriesDrain : Prop :=
  (∀ (c : Fin 192) (w : Word) (s : State),
     let k := coreOf c s
     let fmt := fld w 16 4
     let pack := fld w 20 4
     let a := areg k.seq (fld w 12 4)
     (∀ (n : Nat) (b : Bank), NextInside (.core c) s → Issues (.core c) w 0x18 0x00 s → TokenFree c (fld w 24 5) s →
       feederFmt fmt = true → pack ≤ 8 → (coreLegacy c s = true → pack ≤ 1 ∧ (fmt = 2 ∨ fmt = 3)) → tileOps k.tile < 4 →
       a + max (8 * pack) (fillBytes k a fmt pack) ≤ 4194304 → fenceMeets k a (fillBytes k a fmt pack) = false →
       fillBank k s.free a fmt pack = some (n, b) → a + n ≤ 4194304 →
       Completes (.fill c w) s fun t => OnlyCore c s { t with free := s.free } ∧ Begun c (fld w 24 5) k.seq s t ∧
         bankOf (!k.tile.active1) (coreOf c t).tile = b ∧ bankOf k.tile.active1 (coreOf c t).tile = bankOf k.tile.active1 k.tile ∧
         (coreOf c t).tile.active1 = k.tile.active1 ∧ (coreOf c t).tile.entries = k.tile.entries ∧ (coreOf c t).desk = k.desk ∧
         (coreOf c t).tile.fills.map (fun f => (f.seq, f.bank, f.tok)) =
           k.tile.fills.map (fun f => (f.seq, f.bank, f.tok)) ++ [(k.nseq, !k.tile.active1, tokField (fld w 24 5))]) ∧
     (NextInside (.core c) s → Issues (.core c) w 0x18 0x01 s → Completes (.swap c w) s fun t =>
       OnlyCore c s t ∧ (coreOf c t).seq = nextSeq k.seq ∧ (coreOf c t).tile = { k.tile with active1 := !k.tile.active1 } ∧
         (coreOf c t).vec = k.vec ∧ (coreOf c t).desk = k.desk) ∧
     (∀ (bank : Bool) (f : FillOp), k.tile.fills.find? (fun f => f.bank == bank) = some f →
       (f.behind.any fun q => k.tile.entries.any fun e => e.seq == q && e.st == .waiting) = false →
       Completes (.fillComplete c bank) s fun t => SameMemory s t ∧ TokenReady c f.tok s t ∧ (coreOf c t).desk = k.desk ∧
         (coreOf c t).tile.fills = k.tile.fills.filter (fun x => x.seq ≠ f.seq) ∧
         (coreOf c t).tile.bank0 = k.tile.bank0 ∧ (coreOf c t).tile.bank1 = k.tile.bank1)) ∧
  (∀ (c : Fin 192) (w : Word) (s : State) (e : Entry),
     let k := coreOf c s
     let fmt := fld w 16 4
     let round := fld w 23 3
     let a := areg k.seq (fld w 12 4)
     let rule := coreRule c round (fld w 26 1 == 1) s
     let draws := if round == 4 then (drawRows rule.2.1 e.rows k.vec).2 else List.replicate (e.rows * 128) 0
     let bs := (drainTensor e fmt rule draws).1
     (NextInside (.core c) s → Issues (.core c) w 0x18 0x03 s → TokenFree c (fld w 27 5) s → drainFmt fmt = true → round ≤ 4 →
       (fld w 26 1 = 1 → ovfAllowed fmt = true) → (accEntries (fld w 20 3) k.tile).head? = some e → e.st = .visible →
       e.open' = false → a + tensorBytes fmt (e.rows * 128) ≤ 4194304 → fenceMeets k a (tensorBytes fmt (e.rows * 128)) = false →
       tileOps k.tile < 4 → (round = 4 → k.reseed = none) →
       Completes (.drain c w) s fun t => SameMemory s t ∧ OtherDesks c s t ∧ DeskTakes c a bs s t ∧
         Begun c (fld w 27 5) k.seq s t ∧ (coreOf c t).tile.bank0 = k.tile.bank0 ∧ (coreOf c t).tile.bank1 = k.tile.bank1 ∧
         (coreOf c t).vec.v = k.vec.v ∧
         (coreOf c t).tile.drains = k.tile.drains ++ [⟨k.nseq, e.seq, tokField (fld w 27 5)⟩] ∧
         (coreOf c t).tile.entries.map (fun x => (x.seq, x.st)) =
           k.tile.entries.map fun x => (x.seq, if x.seq = e.seq then .draining else x.st)) ∧
     (∀ (d : DrainOp) (r : List DrainOp), k.tile.drains = d :: r → k.tile.entries.find? (fun x => x.seq == d.entry) = some e →
       k.halting = false → Completes (.drainComplete c) s fun t => SameMemory s t ∧ (∀ d : Nat, (coreOf d t).desk = (coreOf d s).desk) ∧
         TokenReady c d.tok s t ∧ (coreOf c t).tile.entries = k.tile.entries.filter (fun x => x.seq ≠ e.seq) ∧
         (coreOf c t).tile.drains = k.tile.drains.filter (fun x => x.seq ≠ d.seq) ∧
         (coreOf c t).vec.streamFlags = k.vec.streamFlags ||| e.flags ∧ (coreOf c t).vec.lessonFlags = k.vec.lessonFlags ||| e.flags ∧
         (coreOf c t).vec.flagged = k.vec.flagged + (if e.flags &&& 0x67#7 = 0 then 0 else 1)))

/-- STREAM issues a pass of its rows against the active bank: without CHAIN it opens a Tile Queue entry of ACC with its coordinates, the
rows accumulated from +0; with CHAIN the open entry of ACC accumulates on. CLOSE closes it. The Desk, memory and the banks stay.
PASS_START lets the oldest waiting pass reserve an entry when fewer than eight are held; PASS_CLOSE makes the entry visible whose
closing pass issued first of those reserved and closed, once the FILLs it was issued behind are complete. The Desk, memory and the banks
stay. -/
def Obligations.StreamPassesIssueStartAndClose : Prop :=
  (∀ (c : Fin 192) (w : Word) (s : State), NextInside (.core c) s → Issues (.core c) w 0x18 0x02 s →
     let k := coreOf c s
     let fmt := fld w 16 4
     let n := fld w 20 7 + 1
     let acc := fld w 27 3
     let chain := fld w 30 1 == 1
     let a := areg k.seq (fld w 12 4)
     let sc := sreg k.seq (fld w 37 5)
     let width := 128 * (bankOf k.tile.active1 k.tile).p
     let bytes := tensorBytes fmt (n * width)
     let tok := if tokReady k.seq (tokField (fld w 32 5)) then none else tokField (fld w 32 5)
     let src := chased tok k
     let rows := (chunks width (decodeTensor fmt (deskRead src s.free a bytes))).map List.toArray
     let into := fun e : Entry =>
       let r := passRows (coreLegacy c s) (bankOf k.tile.active1 k.tile) e.rows rows e.data
       (e.acc, r.1, e.flags ||| r.2, sc.extractLsb' 0 16, sc.extractLsb' 16 16, !(fld w 31 1 == 1))
     let see := fun e : Entry => (e.acc, e.data, e.flags, e.trow, e.tcol, e.open')
     feederFmt fmt = true → (coreLegacy c s = true → fmt = 2 ∨ fmt = 3) → tokReserved (fld w 32 5) = false →
     (k.tile.entries.any fun e => e.acc == acc && e.open') = chain → a + bytes ≤ 4194304 → fenceMeets k a bytes = false →
     chaseHeld tok k = false →
     Completes (.stream c w) s fun t => OnlyCore c s { t with free := s.free } ∧ (coreOf c t).seq = nextSeq k.seq ∧
       (coreOf c t).nseq = k.nseq + 1 ∧ (coreOf c t).desk = k.desk ∧ (coreOf c t).vec = k.vec ∧
       (coreOf c t).tile.bank0 = k.tile.bank0 ∧ (coreOf c t).tile.bank1 = k.tile.bank1 ∧ (coreOf c t).tile.active1 = k.tile.active1 ∧
       (chain = true → (coreOf c t).tile.entries.map see =
         k.tile.entries.map fun e => if e.acc = acc ∧ e.open' = true then into e else see e) ∧
       (chain = false → ∃ e : Entry, (coreOf c t).tile.entries = k.tile.entries ++ [e] ∧ e.rows = n ∧ e.seq = k.nseq ∧
         see e = into { e with acc := acc, data := List.replicate n (List.replicate 128 0), flags := 0 } ∧
         (e.st = .waiting ↔ 8 ≤ heldEntries k.tile ∨ ∃ x ∈ k.tile.entries, x.st = .waiting))) ∧
  (∀ (c : Fin 192) (s : State) (e : Entry),
     let k := coreOf c s
     let becomes := fun (x : EntrySt) (t : State) =>
       SameMemory s t ∧ (∀ d : Nat, (coreOf d t).desk = (coreOf d s).desk) ∧ (coreOf c t).tile.bank0 = k.tile.bank0 ∧
         (coreOf c t).tile.bank1 = k.tile.bank1 ∧ (coreOf c t).tile.fills = k.tile.fills ∧
         (coreOf c t).tile.entries = k.tile.entries.map fun y => if y.seq = e.seq then { y with st := x } else y
     (k.tile.entries.find? (fun e => e.st == .waiting) = some e → heldEntries k.tile < 8 → k.halting = false →
       Completes (.passStart c) s (becomes .reserved)) ∧
     (nextClose k.tile = some e → (k.tile.fills.any fun f => f.bank == e.bank && decide (f.seq < e.closeSeq)) = false →
       Completes (.passClose c) s (becomes .visible)))

/-! ## Lesson instructions: experts, exchange posts, synchronisation and statistics (chapters 06, 07 and 08) -/

/-- ROUTE of rows whose experts the loaded page enables issues: each unmasked lane of vd becomes an outcome word (taken by its expert, by
its alternate, dropped or deferred) whose position is below the layer's CAP; masked-off lanes, the Desks and memory stay, the writes wait
in the dispatch unit under the busy token. ROUTE_COMPLETE then makes the oldest ROUTE's writes and readies its token. -/
def Obligations.RouteAndItsCompletion : Prop :=
  (∀ (c : Fin 192) (w : Word) (s : State) (pg : ExpertPage) (u : Run) (ch : Chan) (y : LayerEntry),
    NextInside (.core c) s → Issues (.core c) w 0x28 0x00 s → TokenFree c (fld w 29 5) s → dispFull (coreOf c s) = false →
    corePage c s = some pg → coreRun c s = some u → coreChan c s = some ch → layerEntry pg (fld w 39 12) = some y →
    let k := coreOf c s
    let mk := mreg k.vec (fld w 22 3)
    let x := fun l : Fin 128 => (vreg k.vec (fld w 12 5))[l]
    let plan := (routePlan c w u ch pg y s).2.2.2.2.1
    (sreg k.seq (fld w 34 5)).toNat % 2 ^ 32 = lyRow y →
    (∀ l : Fin 128, mk.getLsbD l = true → expertOk pg y (fieldNat (x l) 0 16) = true ∧
      (fieldNat (x l) 16 16 = 0xFFFF ∨ expertOk pg y (fieldNat (x l) 16 16) = true) ∧
      areg k.seq (fld w 25 4) + l.val * lyRow y + lyRow y ≤ 4194304) →
    (∀ a : Nat, routeTakes (fld w 39 12) u ch pg y k.index = some a → readFault c a (64 + lyDefer y * (32 + lyRow y)) s = none) →
    (∀ z ∈ plan, writeFault c z.1 z.2.length s = none) →
    Completes (.route c w) s fun t => SameMemory s t ∧ (∀ d : Nat, (coreOf d t).desk = (coreOf d s).desk) ∧
      Begun c (fld w 29 5) k.seq s t ∧
      (coreOf c t).disp = k.disp ++ [⟨k.nseq, tokField (fld w 29 5), plan, none⟩] ∧
      (∀ r : Nat, r ≠ fld w 12 5 → vreg (coreOf c t).vec r = vreg k.vec r) ∧
      ∀ l : Fin 128, let z := (vreg (coreOf c t).vec (fld w 12 5))[l]
        (mk.getLsbD l = false → z = x l) ∧
        (mk.getLsbD l = true → ∃ n : Nat, n < 2 ^ 14 ∧ let e := fieldNat (x l) 0 16; let alt := fieldNat (x l) 16 16
          (z = BitVec.ofNat 32 (e + n * 2 ^ 16) ∧ n < lyCap y) ∨ (z = BitVec.ofNat 32 (alt + n * 2 ^ 16 + 2 ^ 30) ∧ n < lyCap y ∧
            fieldNat pg.header 32 2 = 1 ∧ alt ≠ 0xFFFF) ∨ z = BitVec.ofNat 32 (e + 2 * 2 ^ 30) ∨
          (z = BitVec.ofNat 32 (e + 3 * 2 ^ 30) ∧ fieldNat pg.header 32 2 = 2))) ∧
  (∀ (c : Fin 192) (s : State) (o : DispOp), (coreOf c s).disp.find? (fun o => o.xpost.isNone) = some o →
    Completes (.routeComplete c) s fun t => TokenReady c o.tok s t ∧
      (coreOf c t).disp = (coreOf c s).disp.filter (fun x => x.seq ≠ o.seq) ∧ (∀ d : Nat, (coreOf d t).desk = (coreOf d s).desk) ∧
      SameMemory (o.writes.foldl (fun u x => vaStore (coreSlot c s) x.1 x.2 u) s) t)

/-- PREDICT of at most four unresolved predictions takes a handle, fences its Desk span and makes its token busy; CONFIRM answers 1 and
resolves the prediction when it holds every local expert now named, else answers 0 and lifts the fence; SQUASH lifts it. Only the core
changes. The events of a prediction: as its last unit lands its token is ready, and in a lesson that goes on a confirmed one starts its
copy; the copy puts its bytes on the Desk and ends it; a squashed one whose units have landed is gone. Memory stays. -/
def Obligations.PredictionsAndTheirEvents : Prop :=
  (∀ (c : Fin 192) (w : Word) (s : State) (pg : ExpertPage), NextInside (.core c) s → corePage c s = some pg →
     let k := coreOf c s
     let named := namedExperts k.vec (fld w 12 5) (mreg k.vec (fld w 22 3))
     (∀ y : LayerEntry, layerEntry pg (fld w 39 12) = some y → Issues (.core c) w 0x28 0x01 s → TokenFree c (fld w 29 5) s →
       dispFull k = false → k.preds.countP (fun p => !p.resolved) < 4 → 0 < lyWeight y → (∀ e ∈ named, e < lyExperts y) →
       let held := sumNat ((k.preds.filter fun p => !p.resolved).map fun p => (predSpan p).2)
       let es := (localExperts pg y named).take ((524288 - held) / lyWeight y)
       let desk := areg k.seq (fld w 25 4)
       desk + es.length * lyWeight y ≤ 4194304 → fenceMeets k desk (es.length * lyWeight y) = false →
       (∀ e ∈ es, badRegion (coreSlot c s) (weightVa pg y e) (lyWeight y) false s = none) →
       Completes (.predict c w) s fun t => OnlyCore c s t ∧ (coreOf c t).desk = k.desk ∧ (coreOf c t).vec = k.vec ∧
         Begun c (fld w 29 5) (setS (fld w 34 5) (BitVec.ofNat 64 k.predCount) k.seq) s t ∧ (coreOf c t).predCount = k.predCount + 1 ∧
         ∃ p : Prediction, (coreOf c t).preds = k.preds ++ [p] ∧ p.handle = k.predCount ∧ p.experts = es ∧ p.desk = desk ∧
           p.fenced = true ∧ p.resolved = false ∧ p.st = 0 ∧ p.data = es.flatMap fun e => vaRead (coreSlot c s) (weightVa pg y e) (lyWeight y) s) ∧
     (∀ (p : Prediction) (y : LayerEntry), unresolved k (fld w 34 5) = some p →
       (layerEntry pg p.layer = some y → (∀ e ∈ named, e < lyExperts y) → Issues (.core c) w 0x28 0x02 s → TokenFree c (fld w 29 5) s →
         let ok := !p.bad && (localExperts pg y named).all fun e => p.experts.contains e
         Completes (.confirm c w) s fun t => OnlyCore c s t ∧ (coreOf c t).desk = k.desk ∧ (coreOf c t).vec = k.vec ∧
           (coreOf c t).seq = nextSeq (setS (fld w 17 5) (if ok then 1 else 0) k.seq) ∧
           (∀ q ∈ (coreOf c t).preds, q.handle = p.handle → q.resolved = true ∧ (ok = false → q.fenced = false)) ∧
           (coreOf c t).preds.filter (fun q => q.handle ≠ p.handle) = k.preds.filter fun q => q.handle ≠ p.handle) ∧
       (Issues (.core c) w 0x28 0x03 s → Completes (.squash c w) s fun t =>
         OnlyCore c s t ∧ (coreOf c t).desk = k.desk ∧ (coreOf c t).vec = k.vec ∧ (coreOf c t).seq = nextSeq k.seq ∧
           (∀ q ∈ (coreOf c t).preds, q.handle = p.handle → q.resolved = true ∧ q.fenced = false) ∧
           (coreOf c t).preds.filter (fun q => q.handle ≠ p.handle) = k.preds.filter fun q => q.handle ≠ p.handle))) ∧
  (∀ (c : Fin 192) (s : State) (h : Nat) (p : Prediction),
     let k := coreOf c s
     (k.preds.find? (fun p => p.handle == h && p.st == 0) = some p → Completes (.predictLand c h) s fun t =>
       SameMemory s t ∧ (∀ d : Nat, (coreOf d t).desk = (coreOf d s).desk) ∧ TokenReady c p.tok s t ∧
       (k.halting = false → k.halted = false → OnlyCore c s t ∧
         (coreOf c t).preds = k.preds.map fun q => if q.handle = h then { q with st := if q.resolved then 2 else 1 } else q)) ∧
     (k.preds.find? (fun p => p.handle == h && p.st == 2) = some p → Completes (.predictCopyDone c h) s fun t =>
       SameMemory s t ∧ DeskTakes c p.desk p.data s t ∧ OtherDesks c s t ∧ ∀ q ∈ (coreOf c t).preds, q.handle ≠ h) ∧
     (k.preds.find? (fun p => p.handle == h && p.st == 3) = some p → Completes (.squashShareFreed c h) s fun t =>
       SameMemory s t ∧ (∀ d : Nat, (coreOf d t).desk = (coreOf d s).desk) ∧ TokenReady c p.tok s t ∧
         ∀ q ∈ (coreOf c t).preds, q.handle ≠ h))

/-- XPOST of a readable image by a lesson: it takes its place among the core's posts and, posted for the first time, a descriptor number
of its own and the next ordinal of the group an EXCHANGE image names; a post that a rerun issues again takes no number. The core goes on
and its Desk stays. -/
def Obligations.XpostPostsAnExchange : Prop :=
  ∀ (c : Fin 192) (w : Word) (s : State) (u : Run) (ch : Chan) (lr : DescRec), NextInside (.core c) s → Issues (.core c) w 0x31 0x00 s →
    fld w 16 5 % 2 = 0 → (fld w 21 5 = fld w 26 5 → fld w 21 5 = 31) → TokenFree c (fld w 21 5) s → TokenFree c (fld w 26 5) s →
    let k := coreOf c s
    let a := areg k.seq (fld w 12 4)
    let d := imageDesc lr.desc.slot lr.desc.ring (vaRead u.slot a 64 s)
    dispFull k = false → readFault c a 64 s = none → coreRun c s = some u → coreChan c s = some ch → descOf u.desc s = some lr →
    Completes (.xpost c w) s fun t => (coreOf c t).xpostCount = k.xpostCount + 1 ∧ (coreOf c t).nseq = k.nseq + 1 ∧
      (∀ d : Nat, (coreOf d t).desk = (coreOf d s).desk) ∧
      (u.xposts.find? (fun x => x.core == c.val && x.nth == k.xpostCount) = none → t.nextDesc = s.nextDesc + 1 ∧
        (∃ v : Run, runOf u.id t = some v ∧ ∃ x ∈ v.xposts, x.core = c ∧ x.nth = k.xpostCount ∧ x.desc = s.nextDesc ∧
          x.sd = fld w 16 5 ∧ x.ta = tokField (fld w 21 5) ∧ x.tf = tokField (fld w 26 5)) ∧
        (wordAt (vaRead u.slot a 64 s) 0 % 256 = 3 → ∀ g : Group, groupOf (exGroup d) s = some g →
          (groupOf (exGroup d) t).map (fun g => g.ordinals) = some (g.ordinals + 1))) ∧
      (u.xposts.find? (fun x => x.core == c.val && x.nth == k.xpostCount) ≠ none → t.nextDesc = s.nextDesc)

/-- WAIT goes on once every token it names is ready. SIGNAL sends an increment to the core of that index in its run, and SIGNAL_LAND adds
one to the counter, saturating, of a core that has not halted. WAITEV takes COUNT from a counter that has reached it, and WAITEV_RELEASE
does so for a waiting core. BAR of a core whose run waits for nothing hopeless arrives: the core goes on to the next instruction and
waits at the barrier for its scope and, with ORDER, for the tokens of its DSTs and NARROWs. BAR_RELEASE lets every core of the scope go
on once each has arrived with those tokens ready. -/
def Obligations.EventsAndBarriers : Prop :=
  ((∀ (p : Place) (w : Word) (s : State), NextInside p s → Issues p w 0x30 0x00 s →
     (∀ i : Fin 16, fld w (32 + i.val) 1 = 1 → (seqOf p s).tok[i] = true) →
     Completes (.syncWait p w) s (GoesTo p ((seqOf p s).pc + 1) s)) ∧
   (∀ (c : Fin 192) (w : Word) (s : State) (u : Run) (d : Nat), NextInside (.core c) s → Issues (.core c) w 0x30 0x01 s →
     coreRun c s = some u → u.cores[(sreg (coreOf c s).seq (fld w 12 5)).toNat]? = some d →
     Completes (.signal c w) s fun t => outsidePlaces t = outsidePlaces s ∧
       (coreOf d t).signals = (coreOf d s).signals ++ [(c.val, fld w 17 3)] ∧ (coreOf c t).seq = nextSeq (coreOf c s).seq ∧
       ∀ x : Nat, x ≠ c.val → x ≠ d → coreOf x t = coreOf x s) ∧
   (∀ (c : Fin 192) (e : Fin 8) (s : State) (x : Nat × Nat), (coreOf c s).signals.find? (fun x => x.2 == e.val) = some x →
     Completes (.signalLand c e) s fun t => SameMemory s t ∧ (coreOf c t).signals = (coreOf c s).signals.erase x ∧
       ∀ i : Fin 8, (coreOf c t).event[i] = if i = e ∧ (coreOf c s).halted = false ∧ (coreOf c s).event[i] ≠ BitVec.allOnes 32
         then (coreOf c s).event[i] + 1 else (coreOf c s).event[i]) ∧
   (∀ (c : Fin 192) (w : Word) (s : State), NextInside (.core c) s → Issues (.core c) w 0x30 0x02 s →
     fld w 32 32 ≤ (vget (coreOf c s).event (fld w 17 3) 0).toNat →
     Completes (.waitev c w) s fun t => OnlyCore c s t ∧ (coreOf c t).seq = nextSeq (coreOf c s).seq ∧ (coreOf c t).desk = (coreOf c s).desk ∧
       ∀ i : Fin 8, (coreOf c t).event[i] = if i.val = fld w 17 3 then (coreOf c s).event[i] - BitVec.ofNat 32 (fld w 32 32)
         else (coreOf c s).event[i]) ∧
   (∀ (c : Fin 192) (s : State) (e : Fin 8) (n : W32), (coreOf c s).waitEv = some (e.val, n) → n.toNat ≤ (coreOf c s).event[e].toNat →
     Completes (.waitevRelease c) s fun t => OnlyCore c s t ∧ (coreOf c t).waitEv = none ∧ (coreOf c t).seq = (coreOf c s).seq ∧
       ∀ i : Fin 8, (coreOf c t).event[i] = if i = e then (coreOf c s).event[i] - n else (coreOf c s).event[i])) ∧
  ((∀ (c : Fin 192) (w : Word) (s : State), NextInside (.core c) s → Issues (.core c) w 0x30 0x03 s → (coreOf c s).halted = false →
     (∀ u, coreRun c s = some u → c.val ∈ u.cores ∧ ∀ d ∈ u.cores, (coreOf d s).halted = false) →
     Completes (.bar c w) s fun t => OnlyCore c s t ∧ (coreOf c t).seq.pc = (coreOf c s).seq.pc + 1 ∧ (coreOf c t).desk = (coreOf c s).desk ∧
       (coreOf c t).seq.s = (coreOf c s).seq.s ∧ (coreOf c t).vec = (coreOf c s).vec ∧
       (coreOf c t).waitBar = some (decide (fld w 20 1 = 1), if fld w 21 1 = 1 then orderTokens (coreOf c s) else [])) ∧
   (∀ (s : State) (r : Nat) (scope : Bool) (f : Fin 24) (u : Run), runOf r s = some u →
     (∀ c ∈ u.cores, (scope = true ∨ formOf c s = f.val) → ∃ ts, (coreOf c s).waitBar = some (scope, ts) ∧
       ∀ i ∈ ts, (coreOf c s).seq.tok[i] = true) →
     Completes (.barRelease r scope f) s fun t => { t with cores := s.cores } = s ∧
       ∀ c : Nat, coreOf c t = if c ∈ u.cores ∧ (scope = true ∨ formOf c s = f.val) then { coreOf c s with waitBar := none } else coreOf c s))

/-- STAT.TAG with EN sets the core's statistics tag and without EN takes it away; STAT.READ writes the count that SEL names of the tag's
counts merged in the channel and of the core's own run. -/
def Obligations.StatisticsTagAndRead : Prop :=
  ∀ (c : Fin 192) (w : Word) (s : State), NextInside (.core c) s →
    let tag := fld w 32 16
    let x := statCounts c tag s
    (tag ≠ 0xFFFF → Issues (.core c) w 0x34 0x00 s → Completes (.statTag c w) s fun t =>
      (coreOf c t).statTag = (if fld w 20 1 = 1 then some tag else none) ∧ (coreOf c t).seq = nextSeq (coreOf c s).seq ∧
        (coreOf c t).desk = (coreOf c s).desk ∧ (coreOf c t).vec = (coreOf c s).vec ∧ t.memory.fast = s.memory.fast ∧
        (∀ d : Nat, d ≠ c.val → coreOf d t = coreOf d s) ∧ (fld w 20 1 = 0 → OnlyCore c s t)) ∧
    (Issues (.core c) w 0x34 0x01 s → ∀ z ∈ [(0, BitVec.ofNat 64 x.zeros), (1, BitVec.ofNat 64 x.sats), (2, BitVec.ofNat 64 x.nonFinite),
        (3, x.maxMag.setWidth 64), (4, BitVec.ofNat 64 x.elements)],
      fld w 17 3 = z.1 → Completes (.statRead c w) s (WritesS (.core c) (fld w 12 5) z.2 s))

/-! ## Timetable and sweep lessons (chapters 06, 10 and 12) -/

/-- SEND, EXPECT, FOLD and DELIVER of an admitted pass begin under their token: SEND with its data complete and its link not held queues
the segment, EXPECT and FOLD note theirs, and DELIVER marks a pass whose bytes are in place. A SLOT whose time has come goes on, one
whose time is to come waits for it, and SLOT_RELEASE ends the wait. -/
def Obligations.TimetableInstructionsBegin : Prop :=
  (∀ (l : Fin 36) (w : Word) (s : State) (p : Pass) (g : Group), PlaceFree (.link l) (lwTok w) s →
    passNumber (lwPass l w s) s = some p → groupOf p.group s = some g →
    let num := lwSeg l w s
    let k := lwLink w
    (∀ (x : PlanSeg) (data : List Byte), Issues (.link l) w 0x38 0x01 s → outgoing p g num s = some x →
      segData p g (passIeee p s) x = some data → (linkOf k s).hold = false ∨ (linkOf k s).farActive = true →
      Completes (.send l w) s fun t => PlaceBegun (.link l) (1, p.id, num, k, lwTok w) s t ∧ SameMemory s t ∧ t.cores = s.cores ∧
        (p.queued.contains num = true → t.links = s.links) ∧
        (p.queued.contains num = false → k < 36 → outSegOf p g x num p.coded data ∈ (linkOf k t).egress ∧
          (∀ y ∈ (linkOf k s).egress, y ∈ (linkOf k t).egress) ∧ ∀ j : Nat, j ≠ k → linkOf j t = linkOf j s)) ∧
    (Issues (.link l) w 0x38 0x02 s → Completes (.expect l w) s fun t =>
      PlaceBegun (.link l) (2, p.id, num, k, lwTok w) s t ∧ OnlyPlace (.link l) s t) ∧
    (Issues (.link l) w 0x38 0x03 s → Completes (.fold l w) s fun t =>
      PlaceBegun (.link l) (3, p.id, num, k, lwTok w) s t ∧ OnlyPlace (.link l) s t) ∧
    (Issues (.link l) w 0x38 0x04 s → passFilled p g s = true → Completes (.deliver l w) s fun t =>
      seqOf (.link l) t = nextSeq (seqOf (.link l) s) ∧ SameMemory s t ∧
        t.passes = s.passes.map fun q => if q.id = p.id then { q with delivered := true } else q)) ∧
  (∀ (l : Fin 36) (w : Word) (s : State), Issues (.link l) w 0x38 0x00 s →
    let v := sreg (seqOf (.link l) s) (fld w 12 5)
    (v.toNat ≤ s.time.dtime.toNat → Completes (.slot l w) s (GoesTo (.link l) ((seqOf (.link l) s).pc + 1) s)) ∧
    (s.time.dtime.toNat < v.toNat → Completes (.slot l w) s fun t =>
      OnlyPlace (.link l) s t ∧ seqOf (.link l) t = nextSeq { seqOf (.link l) s with slotUntil := some v })) ∧
  (∀ (l : Fin 36) (s : State) (v : Word), (seqOf (.link l) s).slotUntil = some v → v.toNat ≤ s.time.dtime.toNat →
    Completes (.slotRelease l) s fun t => OnlyPlace (.link l) s t ∧ seqOf (.link l) t = { seqOf (.link l) s with slotUntil := none })

/-- LINK_OP_COMPLETE ends the oldest finished operation under a token of a link engine, SWEEP_OP_COMPLETE that of a memory-side die, and
each makes the token ready; a sent or received segment's end and a sweep operation's end change nothing else. The sweep instructions
SCRUB, MOVE, EXPORT and CATCHUP of a memory-side die begin under their token: SCRUB and EXPORT leave what memory holds, MOVE advances
the mark of the slot that leaves its channel when the rows named begin where the copy stands and leaves every byte as it was, CATCHUP
catches its segment up. SCRUB_SWEEP_START starts the die of every powered stack. -/
def Obligations.PlaceAndSweepOperations : Prop :=
  ((∀ (l : Fin 36) (tok : Fin 32) (s : State) (o : Nat × Nat × Nat × Nat × Nat),
     (seqOf (.link l) s).ops.find? (fun o => o.2.2.2.2 == tok.val && linkOpDone o s) = some o →
     Completes (.linkOpComplete l tok) s fun t =>
       (seqOf (.link l) t).ops = (seqOf (.link l) s).ops.erase o ∧ (seqOf (.link l) t).pc = (seqOf (.link l) s).pc ∧
         (∀ i : Fin 16, (seqOf (.link l) t).tok[i] = if i.val = tok.val then true else (seqOf (.link l) s).tok[i]) ∧
         (o.1 ≠ 3 → OnlyPlace (.link l) s t)) ∧
   (∀ (m : Fin 24) (tok : Fin 32) (s : State) (o : Nat × Nat × Nat × Nat × Nat),
     (seqOf (.mem m) s).ops.find? (fun o => o.2.2.2.2 == tok.val) = some o →
     Completes (.sweepOpComplete m tok) s fun t => OnlyPlace (.mem m) s t ∧
       (seqOf (.mem m) t).ops = (seqOf (.mem m) s).ops.erase o ∧
         ∀ i : Fin 16, (seqOf (.mem m) t).tok[i] = if i.val = tok.val then true else (seqOf (.mem m) s).tok[i])) ∧
  ((∀ (m : Fin 24) (w : Word) (s : State), PlaceFree (.mem m) (fld w 26 5) s →
     let q := seqOf (.mem m) s
     let a := (sreg q (fld w 12 5)).toNat
     let b := (sreg q (fld w 17 5)).toNat
     let k := fld w 22 4
     let op := fun f : Nat => (f, a, b, k, fld w 26 5)
     (Issues (.mem m) w 0x3C 0x00 s → Completes (.scrub m w) s fun t => PlaceBegun (.mem m) (op 0) s t ∧ OnlyPlace (.mem m) s t) ∧
     (Issues (.mem m) w 0x3C 0x02 s → Completes (.exportRec m w) s fun t => PlaceBegun (.mem m) (op 2) s t ∧ OnlyPlace (.mem m) s t) ∧
     (Issues (.mem m) w 0x3C 0x03 s → Completes (.catchup m w) s fun t => PlaceBegun (.mem m) (op 3) s t ∧
       t.nmu = (sendMirror (catchSegment a b s)).nmu ∧ t.cores = s.cores) ∧
     (Issues (.mem m) w 0x3C 0x01 s → Completes (.move m w) s fun t => PlaceBegun (.mem m) (op 1) s t ∧
       t.memory.fast = s.memory.fast ∧ t.portA.mem = s.portA.mem ∧ t.portB.mem = s.portB.mem ∧
       (∀ i : Nat, copyingSlot (16 * m.val + k) s = some i → ∀ e : MapEntry, (fullMap s)[i]? = some e →
         (fullMap t)[i]? = some (if a ≤ e.mark ∧ e.mark < a + b then { e with mark := min (rowsPerSlot s.flash.variant) (a + b) } else e)))) ∧
   (∀ s : State, 4 ≤ s.mod.stage.toNat → s.mod.stage.toNat ≤ 7 → Completes .scrubSweepStart s fun t =>
     t.memory = s.memory ∧ t.linkSeq = s.linkSeq ∧ t.cores = s.cores ∧ t.mod.scrubTick = s.time.ticks ∧
       ∀ m : Fin 24, seqOf (.mem m) t = if (s.memory.stk[m]).powered then
         { seqOf (.mem m) s with running := true, pc := 0, startTick := s.time.ticks } else seqOf (.mem m) s))

/-! ## Links and their registers (chapter 12) -/

/-- A link short of its frames: an enabled Down link locks and tries again after a second, a lost lane is noted and the link retrains on
the rest, retraining ends, a silent link goes Down, a held-out link retrains when its time ends, and a link without credit is held out.
Only that link changes, the defect map of a lost lane, passes and records a Down link loses apart. -/
def Obligations.LinkStateEvents : Prop :=
  ∀ (l : Fin 36) (s : State),
    let k := linkOf l s
    (k.state = 0 → linkEnabled l s = true → regionsUp s = true → Completes (.linkLock l) s fun t =>
      OnlyLink l s t ∧ linkOf l t = { k with state := 1 }) ∧
    (k.state = 0 → linkEnabled l s = true → 1000000000 ≤ nsSince k.downAt (mono s) → Completes (.linkAutoRetrain l) s fun t =>
      OnlyLink l s t ∧ linkOf l t = { k with downAt := mono s }) ∧
    (∀ i : Fin 4, 2 ≤ k.state → k.lanes.getLsbD i.val = true → 2 ≤ lanesLeft l (modLink l (fun k =>
        { k with lanes := k.lanes &&& ~~~ BitVec.ofNat 4 (2 ^ i.val) }) s) → Completes (.laneLost l i) s fun t =>
      (linkOf l t).lanes = k.lanes &&& ~~~ BitVec.ofNat 4 (2 ^ i.val) ∧ (linkOf l t).state = k.state ∧
        (linkOf l t).retrainUntil = some (mono s + 50000) ∧ (linkOf l t).flags.getLsbD 0 = true ∧ t.devFlags.getLsbD 28 = true ∧
        (tgetD t.flash.laneFailed l 0).testBit i.val = true ∧ (∀ j : Nat, j ≠ l.val → linkOf j t = linkOf j s) ∧ t.memory = s.memory) ∧
    (∀ x : Word, k.retrainUntil = some x → Completes (.laneRetrainDone l) s fun t =>
      OnlyLink l s t ∧ linkOf l t = { k with retrainUntil := none, resend := k.retry }) ∧
    (k.farActive = false → k.retry ≠ [] → 100000 ≤ nsSince k.txAckedAt (mono s) → k.state ≠ 4 → k.state ≠ 0 →
      Completes (.linkAckTimeout l) s fun t => (linkOf l t).state = 0 ∧ t.memory.fast = s.memory.fast) ∧
    (k.state = 4 → k.holdOutS * 1000000000 ≤ nsSince k.holdOutAt (mono s) → linkEnabled l s = true →
      Completes (.holdOutExpiry l) s fun t => OnlyLink l s t ∧ linkOf l t = { k with state := 1, rollJudged := false, proved := 0 }) ∧
    (∀ x : Word, k.creditZeroSince = some x → k.state = 3 → 500000 ≤ nsSince x (mono s) → Completes (.creditStallTimeout l) s fun t =>
      (linkOf l t).state = 4 ∧ t.memory.fast = s.memory.fast)

/-- The link registers of a port that may reach them: ENABLE of 0 takes a link Down and of 1 retries a Down link at once, RETRAIN takes an
Up or authenticating link Down, RELEASE ends a hold-out, EGRESS_WM takes a legal pair of watermarks, LINK_FLAGS falls where written with
1 except for what is set in the same cycle, and the counters read as they stand and clear on a whole read. A fenced sorter keeps its
queue in the order it stands and raises its flag; a flush empties the egress queue of every link written with 1 and raises FLUSHED
there; a link avoided for a minute is avoided anew while it falls short under some group's limits and used again otherwise. -/
def Obligations.LinkRegistersFenceAndFlush : Prop :=
  (∀ (p : Port) (l : Fin 36) (s : State), RegistersAnswer p s →
     let k := linkOf l s
     (linkInMask l s = true → k.state ≠ 0 → Completes (.linkEnableWrite p l false) s fun t =>
       (linkOf l t).enable = false ∧ (linkOf l t).state = 0 ∧ t.memory.fast = s.memory.fast) ∧
     (linkInMask l s = true → k.enable = false → Completes (.linkEnableWrite p l true) s fun t =>
       linkOf l t = { k with enable := true, downAt := mono s } ∧ ∀ j : Nat, j ≠ l.val → linkOf j t = linkOf j s) ∧
     (linkEnabled l s = true → k.state = 2 ∨ k.state = 3 → Completes (.linkRetrainWrite p l) s fun t => (linkOf l t).state = 0) ∧
     (linkEnabled l s = true → k.state = 4 → Completes (.linkReleaseWrite p l) s fun t =>
       (linkOf l t).state = 1 ∧ ∀ j : Nat, j ≠ l.val → linkOf j t = linkOf j s) ∧
     (∀ v : W32, fieldNat v 16 16 + 256 ≤ fieldNat v 0 16 → fieldNat v 0 16 ≤ 4096 → Completes (.egressWmWrite p l v) s fun t =>
       (linkOf l t).highKib = fieldNat v 0 16 ∧ (linkOf l t).lowKib = fieldNat v 16 16 ∧ t.memory = s.memory) ∧
     (∀ v : W32, ¬ (fieldNat v 16 16 + 256 ≤ fieldNat v 0 16 ∧ fieldNat v 0 16 ≤ 4096) → Completes (.egressWmWrite p l v) s fun t =>
       t.links = s.links) ∧
     (∀ v co : BitVec 8, Completes (.linkFlagsClear p l v co) s fun t => (linkOf l t).flags = (k.flags &&& ~~~ v) ||| co ∧
       ∀ j : Nat, j ≠ l.val → linkOf j t = linkOf j s) ∧
     (∀ (whole : Bool) (co : BitVec 32), Completes (.retriedRead p l whole co) s fun t =>
       (portOf p t).readData = k.retried.setWidth 64 ∧ linkOf l t = { k with retried := (if whole then 0 else k.retried) + co } ∧
         ∀ j : Nat, j ≠ l.val → linkOf j t = linkOf j s) ∧
     (∀ (whole : Bool) (co : BitVec 32), Completes (.fecCorrectedRead p l whole co) s fun t =>
       (portOf p t).readData = k.fecCorrected.setWidth 64 ∧ linkOf l t = { k with fecCorrected := (if whole then 0 else k.fecCorrected) + co } ∧
         ∀ j : Nat, j ≠ l.val → linkOf j t = linkOf j s)) ∧
  ((∀ (l : Fin 36) (s : State), Completes (.sorterFence l) s fun t => OnlyLink l s t ∧ (linkOf l t).sorterFenced = true ∧
     (linkOf l t).egress = (linkOf l s).egress ∧ (linkOf l t).flags = (linkOf l s).flags ||| 0x08#8 ∧ t.devFlags.getLsbD 28 = true) ∧
   (∀ (p : Port) (v : Word) (l : Fin 36) (s : State), RegistersAnswer p s → v = BitVec.ofNat 64 (2 ^ l.val) →
     (∀ e ∈ s.links, e.2.transit = []) → Completes (.linkFlushWrite p v) s fun t => (linkOf l t).egress = [] ∧
       (linkOf l t).leaving = none ∧ (linkOf l t).flags.getLsbD 7 = true) ∧
   (∀ (l : Fin 36) (s : State) (x : Word), (linkOf l s).avoidedAt = some x → 60000000000 ≤ nsSince x (mono s) →
     let poor := s.groups.any fun g => policyAllows 2 g.id s && linkPoor l g.id s
     Completes (.linkAvoidReview l) s fun t => OnlyLink l s t ∧
       linkOf l t = { linkOf l s with avoidedAt := if poor then some (mono s) else none }))

/-! ## Frames, segments and items (chapters 12 and 16) -/

/-- A frame whose CRC and header hold and whose number is the next one is taken: its body joins the receive stream of an Up link when it is
a data frame. A frame that fails its CRC or skips one sets NAK once and every later one is discarded. Nothing but that link, what
acknowledgment ends, flags and records changes. A chip-to-chip link that may transmit sends one frame: a resent frame first, with its
number; else a new frame under the next number, kept for retry. A far link with repairs waiting sends one of them first. Memory stays as
it was before the frame. -/
def Obligations.FramesGoOutAndComeIn : Prop :=
  (∀ (l : Fin 36) (f : Frame) (s : State), 2 ≤ (linkOf l s).state → (linkOf l s).farActive = false →
     let k := linkOf l s
     let seq : W32 := BitVec.ofNat 32 (fieldNat f.h1 0 32)
     (frameOk f = true → fieldNat f.h0 0 4 ≤ 2 → fieldNat f.h0 13 3 = 0 → bitOf f.h0 5 = false → seq = k.rxNext →
       Completes (.frameReceive l f) s fun t => (linkOf l t).rxNext = k.rxNext + 1 ∧ (linkOf l t).rxBad = false ∧
         (linkOf l t).rxData = (if fieldNat f.h0 0 4 = 1 ∧ k.state = 3 then k.rxData ++ f.body else k.rxData) ∧
         (∀ x ∈ (linkOf l t).retry, seqLe x.1 (BitVec.ofNat 32 (fieldNat f.h0 32 32)) = false ∧ x ∈ k.retry) ∧
         (linkOf l t).state = k.state ∧ (∀ j : Nat, j ≠ l.val → linkOf j t = linkOf j s) ∧ t.memory = s.memory) ∧
     (frameOk f = false → Completes (.frameReceive l f) s fun t => OnlyLink l s t ∧
       linkOf l t = if k.rxBad then k else { k with rxBad := true, nakDue := true })) ∧
  (∀ (l : Fin 36) (s : State), 2 ≤ (linkOf l s).state → (linkOf l s).retrainUntil = none → l.val ≠ 0 → l.val ≠ 18 →
     let k := linkOf l s
     (∀ (x : W32 × Frame × Nat) (r : List (W32 × Frame × Nat)), k.farActive = false → k.resend = x :: r →
       Completes (.frameTransmit l) s fun t => t.memory = s.memory ∧ (linkOf l t).resend = r ∧ (linkOf l t).txSeq = k.txSeq ∧
         (linkOf l t).retried = k.retried + 1 ∧ ∃ f : Frame, t.sentFrames = s.sentFrames ++ [(l.val, f)] ∧
           f.body = x.2.1.body ∧ fieldNat f.h1 0 32 = x.1.toNat) ∧
     (k.farActive = false → k.resend = [] → k.retry.length < 2048 → Completes (.frameTransmit l) s fun t => t.memory = s.memory ∧
       ∃ f : Frame, t.sentFrames = s.sentFrames ++ [(l.val, f)] ∧ fieldNat f.h1 0 32 = k.txSeq.toNat ∧ f.body.length = 4096 ∧
         frameOk f = true) ∧
     (∀ (x : Nat × Nat) (r : List (Nat × Nat)) (b : List Byte), k.farActive = true → k.far.repairQ = x :: r →
       (tgetD k.far.retransmit x.1 []).find? (fun y => y.1 == x.2) = some (x.2, b) →
       Completes (.frameTransmit l) s fun t => t.memory = s.memory ∧ (linkOf l t).far.repairQ = r ∧
         ∃ f : FarFrame, t.sentFar = s.sentFar ++ [(l.val, f)] ∧ f.h1 = BitVec.ofNat 64 x.1 ∧ f.body = b.drop 8 ∧
           f.dest = k.far.peerMac ∧ f.src = k.far.mac))

/-- A segment that comes in on an Up link, verified, well formed and expected by an admitted pass of this member, is taken into the pass once:
its rank, level and element are noted and its bytes leave the receive stream. -/
def Obligations.SegmentsMeetTheirPass : Prop :=
  ∀ (l : Fin 36) (x : Segment) (s : State) (g : Group) (p : Pass), (linkOf l s).state = 3 →
    let k := linkOf l s
    tagOk k x.keyId x.w5 (if k.crypto then segAad x ++ x.data else segAad x) (if k.crypto then [] else x.data) x.tag = true →
    nonceFresh k x.keyId x.w5 = true → segFormOk x = true → bitOf x.w0 4 = false → sgColl x ≤ 4 → groupOf (sgGroup x) s = some g →
    sgDst x = g.rank → g.absent.contains (sgSrc x) = false → g.refused.contains x.w1.toNat = false →
    s.passes.find? (fun p => p.group == g.id && p.ordinal == x.w1.toNat && p.round.isNone) = some p → passOf p.id s = some p →
    p.admitted = true → sgSig x = p.sig.toNat → p.got.contains (sgSrc x, sgLevel x, sgElement x) = false →
    expectsSeg p g s (sgLevel x) (sgSrc x) (sgElement x) (sgLength x) = true →
    Completes (.segmentReceive l x) s fun t => (linkOf l t).rxData = k.rxData.drop (segBytesOf x.data.length) ∧
      (∀ j : Nat, j ≠ l.val → linkOf j t = linkOf j s) ∧ t.cores = s.cores ∧
      ∃ q : Pass, passOf p.id t = some q ∧ q.got = p.got ++ [(sgSrc x, sgLevel x, sgElement x)] ∧ q.arrivals = p.arrivals + 1

/-- The notices of an Up link, policed: ABORT discards the partial segment it names, VOID ends an admitted pass and its descriptor,
RESEND queues the named segment again, and KEY_READY brings a filled transmit slot into use. An operand of a pass that has waited 64 us
is parked. -/
def Obligations.NoticesAreActedOn : Prop :=
  ∀ (l : Fin 36) (it : Item) (s u : State),
    (Policed l it 0x04 s u → Completes (.keyReadyReceive l it) s fun t => OnlyLink l u t ∧
      linkOf l t = if (vget (linkOf l s).txKeys (slotIx (bitOf it.w1 0)) {}).valid then { linkOf l u with keyTx := bitOf it.w1 0 }
        else linkOf l u) ∧
    (let d := (linkOf l s).rxData
      let w := fun i : Nat => BitVec.ofNat 64 (leNat ((d.drop (8 * i)).take 8))
      fieldNat (w 0) 0 4 = 3 → fieldNat (w 0) 8 16 = fieldNat it.w1 0 16 → w 1 = it.w2 → fieldNat (w 2) 0 48 = fieldNat it.w3 0 48 →
      d.length < segBytesOf (fieldNat (w 3) 0 17) → Policed l it 0x01 s u → Completes (.abortReceive l it) s fun t => OnlyLink l u t ∧
        linkOf l t = { linkOf l u with rxData := [] }) ∧
    (∀ p : Pass, Policed l it 0x02 s u → noticePass it s = some p → p.admitted = true → Completes (.voidReceive l it) s fun t =>
      passOf p.id t = none ∧ descOf p.desc t = none) ∧
    (∀ (p : Pass) (g : Group) (x : PlanSeg) (n : Nat) (data : List Byte), Policed l it 0x03 s u → noticePass it s = some p →
      passOf p.id s = some p → groupOf p.group s = some g → (x, n) ∈ outSegs p g u →
      segElement p (groupN g) x = fieldNat it.w3 0 48 → linkToRank g x.1 u = some l.val → p.queued.contains n = true →
      segData p g (passIeee p u) x = some data → Completes (.resendReceive l it) s fun t => t.memory = s.memory ∧ t.cores = s.cores ∧
        ∃ q : Pass, passOf p.id t = some q ∧ q.rerouted = true ∧ n ∈ q.outstanding) ∧
    (∀ (n : Nat) (p : Pass), (linkOf l s).state = 3 → passOf n s = some p → Completes (.foldParkTimeout l n) s fun t =>
      { t with passes := s.passes } = s ∧ 
      let late := fun v : NodeVal => if 64000 ≤ nsSince v.since (mono s) then { v with parked := true } else v
      t.passes = s.passes.map fun q => if q.id = n then { q with nodes := q.nodes.map late } else q)

/-! ## Key agreement, training, roll call (chapters 15 and 16) -/

/-- Key agreement on a link: a chunk of a message is kept, a KEX_DONE whose CONFIRM holds puts the new keys in their slot and ends the
agreement, an abort of its session ends it, a request to the initiator of an Up link begins one, and an agreement of 100 ms ends. Timers
of keys: a failed rekey is tried again by an Up link after its second, a far link's slot of 2^31 items asks for new keys, and at the
limit of a slot a chip-to-chip link goes Down while a far link stops its data frames and raises REKEY_LATE. -/
def Obligations.KeysAreAgreed : Prop :=
  (∀ (l : Fin 36) (it : Item) (s u : State),
     (∀ x : Kex, Policed l it 0x24 s u → fieldNat it.w0 16 8 < 189 → bitOf it.w0 12 = false → offerKex l it u = some x →
       (addChunk x it).2 = none → Completes (.kexDataReceive l it) s fun t => OnlyLink l u t ∧
         linkOf l t = { linkOf l u with kex := some (addChunk x it).1 }) ∧
     (∀ x : Kex, Policed l it 0x25 s u → (linkOf l s).kex = some x → x.session = it.w5 → x.keys ≠ [] →
       ((linkOf l s).farActive = true → fieldNat it.w3 0 32 = (linkOf l s).far.pskId.toNat) →
       wordBytes it.w1 ++ wordBytes it.w2 = confirmOf x.keys (if x.initiator then 1 else 0) →
       Completes (.kexDoneReceive l it) s fun t => OnlyLink l u t ∧ (linkOf l t).kex = none ∧
         (vget (linkOf l t).rxKeys (slotIx x.slot) {}).valid = true ∧ (vget (linkOf l t).txKeys (slotIx x.slot) {}).valid = true ∧
         (vget (linkOf l t).txKeys (slotIx x.slot) {}).key =
           BitVec.ofNat 256 (leNat ((x.keys.drop (32 * (if x.initiator then 0 else 1))).take 32)) ∧
         ((linkOf l s).state = 2 → (linkOf l t).proved = x.partner)) ∧
     (∀ x : Kex, Policed l it 0x26 s u → (linkOf l s).kex = some x → x.session = it.w5 →
       Completes (.kexAbortReceive l it) s fun t => (linkOf l t).kex = none ∧ t.memory.fast = s.memory.fast) ∧
     (Policed l it 0x27 s u → isInitiator l u = true → bitOf it.w1 0 ≠ (linkOf l s).keyTx → (linkOf l s).state = 3 →
       (linkOf l s).kex = none → Completes (.kexRequestReceive l it) s fun t => ∃ x : Kex, (linkOf l t).kex = some x ∧
         x.initiator = true ∧ x.slot = bitOf it.w1 0 ∧ x.started = mono s ∧ ∀ j : Nat, j ≠ l.val → linkOf j t = linkOf j s) ∧
     (∀ x : Kex, (linkOf l s).kex = some x → 100000000 ≤ nsSince x.started (mono s) →
       Completes (.kexTimeout l) s fun t => (linkOf l t).kex = none ∧ t.memory.fast = s.memory.fast)) ∧
  (∀ (l : Fin 36) (s : State), (linkOf l s).state = 3 →
     let k := linkOf l s
     (∀ x : Word, k.kexRetryAt = some x → x.toNat ≤ (mono s).toNat → k.kex = none → Completes (.kexRetry l) s fun t =>
       ∃ y : Kex, (linkOf l t).kex = some y ∧ y.initiator = true ∧ y.slot = !k.keyTx ∧ ∀ j : Nat, j ≠ l.val → linkOf j t = linkOf j s) ∧
     (k.farActive = true → k.far.keyNext = none → 2 ^ 31 ≤ slotItems k → k.kex = none → Completes (.farRekeyTimer l) s fun t =>
       (isInitiator l s = true → ∃ y : Kex, (linkOf l t).kex = some y ∧ y.initiator = true ∧ y.slot = !k.keyTx) ∧
       (isInitiator l s = false → OnlyLink l s t ∧ (linkOf l t).control = k.control ++ [mkItem 0x27 0 (if k.keyTx then 0 else 1) 0 0 0 0])) ∧
     (k.farActive = false → 2 ^ 32 ≤ slotItems k → Completes (.keySlotExhausted l) s fun t => (linkOf l t).state = 0) ∧
     (k.farActive = true → k.far.keyNext = none → k.far.rekeyLate = false → 2 ^ 32 ≤ slotItems k → Completes (.keySlotExhausted l) s fun t =>
       OnlyLink l s t ∧ (linkOf l t).far.rekeyLate = true ∧ (linkOf l t).far.flags.getLsbD 3 = true ∧ (linkOf l t).state = 3))

/-- Training that ends with two or more lanes leaves the link authenticating with those lanes, its counters from zero and no key; with
fewer it is Down. -/
def Obligations.TrainingEndsInAuthenticationOrDown : Prop :=
  ∀ (l : Fin 36) (lanes : BitVec 4) (d : Nat) (s : State), (linkOf l s).state = 1 →
    (2 ≤ (List.range 4).countP (fun i => lanes.getLsbD i) → Completes (.linkTrainingDone l lanes d) s fun t =>
      let k := linkOf l t
      k.state = 2 ∧ k.lanes = lanes ∧ k.delayNs = d ∧ k.txSeq = 0 ∧ k.rxNext = 0 ∧ k.credit = 0 ∧ k.retry = [] ∧ k.proved = 0 ∧
        (∀ i : Fin 2, (k.txKeys[i]).valid = false ∧ (k.rxKeys[i]).valid = false) ∧
        (k.farActive = true ↔ (linkOf l s).ctlFar = true ∧ farCapable l = true) ∧
        tgetD t.flash.laneFailed l 0 = 15 - lanes.toNat ∧ (∀ j : Nat, j ≠ l.val → linkOf j t = linkOf j s) ∧ t.memory = s.memory) ∧
    ((List.range 4).countP (fun i => lanes.getLsbD i) < 2 → Completes (.linkTrainingDone l lanes d) s fun t =>
      (linkOf l t).state = 0 ∧ (linkOf l t).flags.getLsbD 1 = true)

/-- Roll call on a link: a partner's ROLL_CALL is noted with its link, one is sent again 100 ms after the last until both ends have
decided, LEAVING holds the STEP_OPENs of the sender's groups and is noted with its time, and ten seconds later nothing is held for
it. -/
def Obligations.RollCallAndLeaving : Prop :=
  ∀ (l : Fin 36) (it : Item) (s u : State),
    (Policed l it 0x30 s u → (linkOf l s).rollJudged = true → (linkOf l s).state ≠ 3 → bitOf it.w0 19 = false →
      Completes (.rollCallReceive l it) s fun t => linkOf l t = { linkOf l u with rollItem := some it, rollReady := bitOf it.w0 18, partnerLink := fieldNat it.w0 12 6 } ∧
        (∀ j : Nat, j ≠ l.val → linkOf j t = linkOf j s) ∧ t.memory = s.memory ∧
        (bitOf it.w0 18 = true → ∀ x ∈ t.mod.leaving, x.1 ≠ it.w1)) ∧
    ((linkOf l s).proved ≠ 0 → (linkOf l s).state = 2 ∨ (linkOf l s).state = 4 → 100000000 ≤ nsSince (linkOf l s).rollSentAt (mono s) →
      Completes (.rollCallResend l) s fun t => OnlyLink l s t ∧ (linkOf l t).rollSentAt = mono s ∧
        ∃ x : Item, (linkOf l t).control = (linkOf l s).control ++ [x] ∧ itemKind x = 0x30 ∧ x.w1 = s.mod.identity ∧ x.w4 = s.time.dtime) ∧
    (Policed l it 0x31 s u → it.w5 = s.mod.identity → it.w5 ≠ 0 → Completes (.leavingReceive l it) s fun t => t.links = u.links ∧
      t.mod.leaving = s.mod.leaving.filter (fun x => x.1 ≠ it.w1) ++ [(it.w1, it.w2)] ∧ t.memory = s.memory ∧
      ∀ g ∈ t.groups, g.members.contains it.w1 = true → g.leaveHold.contains it.w1 = true) ∧
    (∀ w t0 : Word, s.mod.leaving.find? (fun x => x.1 == w) = some (w, t0) → 10000000000 ≤ nsSince t0 s.time.dtime →
      Completes (.leavingTimeout w) s fun t => t.mod.leaving = s.mod.leaving.filter (fun x => x.1 ≠ w) ∧
        (∀ g ∈ t.groups, g.leaveHold.contains w = false) ∧ t.memory = s.memory ∧ t.links = s.links)

/-! ## Far links (chapter 13) -/

/-- The far transport: a frame that is addressed, checked and not held yet joins its stripe and its delay the samples; a stripe that is
overdue with fewer than 16 frames, or whose repair has not come, is asked for with FAR_RESEND; FAR_ACK goes out when due; an
acknowledged stripe leaves the retransmit buffer; a FAR_RESEND queues repairs of the shards held; 220 ms of silence take the link Down.
A far path's contract and registers: a broken path of a far link is out of contract with FAR_FLAGS bit 0 set, and every pass with an
unacknowledged segment on it ends; ten seconds in contract bring it back. FAR_FLAGS falls where written with 1 except for what is set in
the same cycle, FAR_REPAIRED reads and clears on a whole read, and FAR_CONTRACT takes the fields that are in range. -/
def Obligations.FarLinks : Prop :=
  (∀ (l : Fin 36) (s u : State),
     let k := linkOf l s
     let lacks := fun n : Nat => sumNat (((List.range 16).filter fun i => !(((tget? k.far.rxStripes n).map fun x => x.1).getD []).any
       fun y => y.1 == i).map fun i => 2 ^ i)
     let ask := fun (n : Nat) (t : State) => OnlyLink l s t ∧ (linkOf l t).far.resent = k.far.resent.filter (fun y => y.1 ≠ n) ++ [(n, mono s)] ∧
       (linkOf l t).control = k.control ++ [mkItem 0x21 0 (BitVec.ofNat 64 n) (BitVec.ofNat 64 (lacks n)) 0 0 0]
     (∀ f : FarFrame, 2 ≤ k.state → k.farActive = true → farOk l f s = true → Completes (.farFrameReceive l f) s fun t =>
       (linkOf l t).far.lastFrame = f.h2 ∧ (linkOf l t).far.lastArrival = s.time.dtime ∧ (linkOf l t).far.heardAt = mono s ∧
         k.far.nextStripe ≤ (linkOf l t).far.nextStripe ∧
         (linkOf l t).far.repaired = k.far.repaired + (if fieldNat f.h0 0 4 = 4 then 1 else 0) ∧
         (∀ j : Nat, j ≠ l.val → linkOf j t = linkOf j s) ∧ t.memory = s.memory) ∧
     (∀ n : BitVec 48, k.farActive = true → stripeDue n.toNat k s = true → (∀ y ∈ k.far.resent, y.1 ≠ n.toNat) →
       (((tget? k.far.rxStripes n.toNat).map fun x => x.1).getD []).length < 16 → Completes (.stripeOverdue l n) s (ask n.toNat)) ∧
     (∀ (n : BitVec 48) (x : Word), k.far.resent.find? (fun y => y.1 == n.toNat) = some (n.toNat, x) → k.farActive = true →
       2 * k.far.rttNs.toNat + 20000 ≤ nsSince x (mono s) → Completes (.repairRerequest l n) s (ask n.toNat)) ∧
     (k.state = 3 → k.farActive = true → 1000000 ≤ nsSince k.far.ackAt (mono s) → Completes (.farAckSend l) s fun t => OnlyLink l s t ∧
       (linkOf l t).far.ackAt = mono s ∧ ∃ x : Item, (linkOf l t).control = k.control ++ [x] ∧ itemKind x = 0x20 ∧
         fieldNat x.w1 0 48 = k.far.nextStripe % 2 ^ 48 ∧ x.w3 = k.far.lastFrame ∧ x.w4 = k.far.lastArrival) ∧
     (∀ (it : Item) (t3 : Word), Policed l it 0x20 s u → k.farActive = true → Completes (.farAckReceive l it t3) s fun t =>
       (∀ x ∈ (linkOf l t).far.retransmit, fieldNat it.w1 0 48 ≤ x.1 ∧ x ∈ k.far.retransmit) ∧
         (linkOf l t).far.freeMib = fieldNat it.w1 48 16 ∧ (linkOf l t).far.rttNs = BitVec.ofNat 32 (nsSince it.w3 s.time.dtime - nsSince it.w4 t3) ∧
         (∀ j : Nat, j ≠ l.val → linkOf j t = linkOf j s)) ∧
     (∀ it : Item, Policed l it 0x21 s u → (∀ y ∈ k.far.sentAgain, y.2.2 < 16) → Completes (.farResendReceive l it) s fun t => OnlyLink l u t ∧
       (linkOf l t).far.repairQ = k.far.repairQ ++ ((List.range 16).filter fun i => it.w2.getLsbD i &&
         (tgetD k.far.retransmit (fieldNat it.w1 0 48) []).any fun y => y.1 == i).map fun i => (fieldNat it.w1 0 48, i)) ∧
     (2 ≤ k.state → k.state ≠ 4 → k.farActive = true → 220000000 ≤ nsSince k.far.heardAt (mono s) →
       Completes (.farSilenceTimeout l) s fun t => (linkOf l t).state = 0)) ∧
  (∀ (p : Port) (l : Fin 36) (s : State), farCapable l = true →
     let k := linkOf l s
     (k.ctlFar = true → k.far.outOfContract = false → pathBroken l s = true → Completes (.pathOutOfContract l) s fun t =>
       (linkOf l t).far.outOfContract = true ∧ (linkOf l t).far.flags.getLsbD 0 = true ∧
         ∀ x ∈ k.egress, x.pass ≠ 0 → passOf (x.pass - 1) t = none) ∧
     (∀ x : Word, k.far.inContractSince = some x → k.far.outOfContract = true → k.state = 3 → 10000000000 ≤ nsSince x (mono s) →
       Completes (.pathBackInContract l) s fun t => OnlyLink l s t ∧
         linkOf l t = { k with far := { k.far with outOfContract := false, inContractSince := none } }) ∧
     (RegistersAnswer p s → (∀ v co : BitVec 5, Completes (.farFlagsClear p l v co) s fun t =>
         (linkOf l t).far.flags = (k.far.flags &&& ~~~ v) ||| co ∧ ∀ j : Nat, j ≠ l.val → linkOf j t = linkOf j s) ∧
       (∀ (whole : Bool) (co : BitVec 32), Completes (.farRepairedRead p l whole co) s fun t =>
         (portOf p t).readData = k.far.repaired.setWidth 64 ∧
           (linkOf l t).far.repaired = (if whole then 0 else k.far.repaired) + co ∧ ∀ j : Nat, j ≠ l.val → linkOf j t = linkOf j s) ∧
       (∀ v : Word, Completes (.farContractWrite p l v) s fun t =>
         (linkOf l t).far.delayMaxUs.toNat = (if 1 ≤ fieldNat v 0 13 ∧ fieldNat v 0 13 ≤ 5000 then fieldNat v 0 13 else k.far.delayMaxUs.toNat) ∧
           (linkOf l t).far.lossMax.toNat = fieldNat v 16 16 ∧
           (linkOf l t).far.parity = (if fieldNat v 32 4 ≤ 8 then fieldNat v 32 4 else k.far.parity) ∧
           ∀ j : Nat, j ≠ l.val → linkOf j t = linkOf j s)))

/-! ## Bells, completions, ports (chapters 02 and 18) -/

/-- A bell written by the port that owns a running channel of a ready module moves the tail of its ring when it lies in the window, and
otherwise sets BELL_ERROR and is discarded; CQ_HEAD moves likewise. The oldest waiting completion is written at the next entry of the
completion ring when the ring has room and the port can take it, and the coalescing timer sends the message that is due. A descriptor's
final completion is queued once, unless QUIET hides a DONE, and the descriptor is held no longer. -/
def Obligations.BellsAndCompletions : Prop :=
  ∀ (slot : Fin 4096) (c : Chan) (s : State), chanOf slot s = some c →
    (c.running = true → s.mod.stage = 7 → (portOf c.owner s).fenced = false → (portOf c.owner s).linkUp = true →
      (∀ (ring : Fin 8) (v : Word), (vget c.rings ring {}).log2 ≠ 0 →
        let r := vget c.rings ring {}
        let w : W32 := v.setWidth 32
        ((w - r.head).toNat ≤ 2 ^ r.log2 ∧ (w - r.tail).toNat ≤ 2 ^ r.log2 - (r.tail - r.head).toNat →
          Completes (.sqTailWrite c.owner slot (BitVec.ofNat 12 (64 * ring.val)) 4 v) s fun t => OnlySlot slot (accessed c.owner s) t ∧
            ∃ k : Chan, chanOf slot t = some k ∧ { k with rings := c.rings } = c ∧
              ∀ i : Nat, vget k.rings i {} = if i = ring.val then { r with tail := w } else vget c.rings i {}) ∧
        (2 ^ r.log2 < (w - r.head).toNat → Completes (.sqTailWrite c.owner slot (BitVec.ofNat 12 (64 * ring.val)) 4 v) s fun t =>
          (slotOf slot t).bellError = true ∧ t.devFlags.getLsbD 27 = true ∧ chanOf slot t = some c)) ∧
      (∀ v : Word, (v.setWidth 32 - c.cq.h).toNat ≤ (c.cq.w - c.cq.h).toNat → Completes (.cqHeadWrite c.owner slot 4 v) s fun t =>
        OnlySlot slot (accessed c.owner s) t ∧ chanOf slot t = some { c with cq := { c.cq with h := v.setWidth 32 } }) ∧
      (∀ (x : Compl) (rest : List Compl), c.waiting = x :: rest → c.destroyId = none → (c.cq.w - c.cq.h).toNat < 2 ^ c.cq.log2 →
        Completes (.completionWrite slot) s fun t => (∀ j : Nat, j ≠ slot.val → slotOf j t = slotOf j s) ∧
          (∃ k : Chan, chanOf slot t = some k ∧ k.waiting = rest ∧ k.cq.w = c.cq.w + 1 ∧ { k with waiting := c.waiting, cq := c.cq } = c) ∧
          (portOf c.owner t).mem = memWrite (portOf c.owner s).mem (c.cq.base.toNat + 32 * (c.cq.w.toNat % 2 ^ c.cq.log2))
            (complBytes x c.cq.w c.cq.log2 (complHead x s)) ∧ portOf (peerOf c.owner) t = portOf (peerOf c.owner) s ∧ t.memory = s.memory)) ∧
    (∀ t0 : Word, c.cq.oldest = some t0 → c.cq.irqEnable = true → c.cq.coalUs ≠ 0 → c.cq.coalUs * 1000 ≤ nsSince t0 (mono s) →
      (portOf c.owner s).fenced = false → (tgetD (portOf c.owner s).msixTable (4 * c.cq.vector + 3) 1).getLsbD 0 = false →
      Completes (.coalesceTimerExpiry slot) s fun t => { t with slots := s.slots, msix := s.msix } = s ∧
        t.msix = s.msix ++ [(c.owner == .B, c.cq.vector)] ∧ (∀ j : Nat, j ≠ slot.val → slotOf j t = slotOf j s) ∧
        chanOf slot t = some { c with cq := { c.cq with sinceMsg := 0, oldest := none } }) ∧
    (∀ (r : DescRec) (st : BitVec 8) (det : BitVec 16) (res : Word), r.desc.slot = slot → 2 ≤ slot.val → c.destroyId = none →
      c.waiting.length < 4096 →
      let t := finish r st det res s
      descOf r.id t = none ∧ (∀ i : Nat, i ≠ r.id → descOf i t = descOf i s) ∧
        chanOf slot t = some (if r.desc.flags.getLsbD 2 = true ∧ st = stDone then c
          else { c with waiting := c.waiting ++ [complOf r st det res s] }))

/-- Ports and their admin channels: a link goes down, comes up, or fences its port after 100 ms down; either port may fence the other and
clear its own fence; an admin channel is enabled from registers in range, taking the completions that waited, and disabled; a port
restarts alone. Nothing else changes. -/
def Obligations.PortsAndAdminChannels : Prop :=
  ∀ (p : Port) (s : State),
    let q := portOf p s
    (q.linkUp = true → Completes (.portLinkDown p) s fun t => OnlyPort p s t ∧
      portOf p t = { q with linkUp := false, width := 0, speed := 0, downSince := some (mono s) }) ∧
    (∀ width speed : BitVec 4, Completes (.portLinkUp p width speed) s fun t => OnlyPort p s t ∧
      portOf p t = { q with linkUp := true, width := width, speed := speed, downSince := none }) ∧
    (∀ t0 : Word, q.downSince = some t0 → q.linkUp = false → 100000000 ≤ nsSince t0 (mono s) →
      Completes (.portLinkDownTimeout p) s fun t => OnlyPort p s t ∧
        portOf p t = { q with downSince := none, fenced := true, fenceCount := q.fenceCount + 1 }) ∧
    (q.fenced = false → Completes (.peerFenceWrite p) s fun t => OnlyPort (peerOf p) (accessed p s) t ∧
      portOf (peerOf p) t = { portOf (peerOf p) s with fenced := true, fenceCount := (portOf (peerOf p) s).fenceCount + 1 }) ∧
    (∀ co : Bool, q.linkUp = true → Completes (.selfFenceClear p co) s fun t => OnlyPort p s t ∧
      portOf p t = { q with latch := none, fenced := co, fenceCount := if co then q.fenceCount + 1 else q.fenceCount }) ∧
    (q.fenced = false → q.adminEnable = false → 2 ≤ s.mod.stage.toNat →
      (adminInRange q = true → Completes (.adminEnable p) s fun t =>
        { t with slots := s.slots } = modPort p (fun q => { q with latch := none, adminEnable := true, cfgError := false, stale := [] }) s ∧
        (∀ j : Nat, j ≠ adminSlot p → slotOf j t = slotOf j s) ∧ ∃ c : Chan, chanOf (adminSlot p) t = some c ∧ c.cls = 0 ∧ c.owner = p ∧
          c.running = true ∧ c.waiting = q.stale ∧ c.handle = mkHandle 0 1 (adminSlot p) ∧
          ∀ i : Fin 8, (c.rings[i]).base = q.adminSqBase[i] ∧ (c.rings[i]).log2 = fieldNat q.adminSqCfg[i] 0 5) ∧
      (adminInRange q = false → Completes (.adminEnable p) s fun t => OnlyPort p s t ∧ portOf p t = { q with latch := none, cfgError := true })) ∧
    (∀ c : Chan, q.fenced = false → q.adminEnable = true → chanOf (adminSlot p) s = some c → Completes (.adminDisable p) s fun t =>
      { t with slots := s.slots } = modPort p (fun q => { q with latch := none, adminEnable := false, stale := c.waiting ++ q.stale }) s ∧
      (∀ j : Nat, j ≠ adminSlot p → slotOf j t = slotOf j s) ∧ chanOf (adminSlot p) t = none) ∧
    Completes (.portReset p) s fun t => OnlyPort p s t ∧ portOf p t =
      { q with linkUp := false, width := 0, speed := 0, latch := none, msixTable := [], msixPending := []
               downSince := if q.linkUp then some (mono s) else q.downSince }

/-! ## Descriptors (chapters 02 and 15) -/

/-- A WAIT whose condition holds is done and one whose condition does not is held; it is done once the condition holds and completes as
DEADLINE at its TIMEOUT. An opcode of no table completes as REFUSED_MALFORMED with DETAIL 0x0001, and a fenced descriptor with nothing
before it starts. -/
def Obligations.WaitsAndHeldDescriptors : Prop :=
  (∀ (d : Desc) (s : State) (r : DescRec) (u : State), Starts 0x0B d s r u → fieldNat d.w2 0 2 ≠ 3 →
    Completes (.wait d) s fun t =>
      (waitReady r u = true → t = done r 0 u) ∧ (waitReady r u = false → { t with descs := u.descs } = u ∧
        ∃ x : DescRec, descOf r.id t = some x ∧ x.hold = .wait ∧ x.since = mono s ∧ x.desc = d)) ∧
  (∀ (id : Nat) (s : State) (r : DescRec), descOf id s = some r → r.hold = .wait →
    (waitReady r s = true → Completes (.waitSatisfied id) s fun t => t = done r 0 s) ∧
    (waitReady r s = false → r.desc.w4 ≠ 0 → r.desc.w4.toNat ≤ s.time.dtime.toNat →
      Completes (.waitTimeout id) s fun t => t = finish r stDeadline 0x0201 0 s)) ∧
  (∀ (op : BitVec 8) (d : Desc) (s : State) (r : DescRec) (u : State), opcodeDefined op = false → Fetched op d s r u →
    Completes (.undefinedOpcode op d) s fun t => t = finish r stMalformed 0x0001 0 u) ∧
  (∀ (id : Nat) (s : State) (r : DescRec), HeldAs id .fence r s → mustWait r s = false → s.mod.stage = 7 →
    Completes (.fencedDescriptorStart id) s fun t => t = afterStart (checked { r with hold := .run } (startOf r.opcode) s))

/-- CHANNEL_CREATE gives the lowest free slot a channel as asked, ADOPT moves a channel from a fenced port to the asker, MAP_MEMORY adds
pages and UNMAP takes them out, at once or when no started descriptor names them, and CHANNEL_DESTROY of a channel with no work frees
its slot under the next GEN; freed frames read zero. Each is then done. -/
def Obligations.ChannelDescriptors : Prop :=
  (∀ (d : Desc) (s : State) (r : DescRec) (u : State), Starts 0x40 d s r u →
    (∀ (slot : Nat) (cs : List Nat) (rings : Vector Ring 8) (cq : CRing), bitOf d.w2 4 = false →
      let w := d.w2
      let mask := d.w3.toNat + d.w4.toNat * 2 ^ 64 + d.w5.toNat * 2 ^ 128
      1 ≤ fieldNat w 0 4 → fieldNat w 0 4 ≤ 3 → fieldNat w 48 5 ≤ 16 → (fieldNat w 0 4 = 1 ↔ mask ≠ 0 ∨ fieldNat w 16 16 ≠ 0) →
      readRingBlock r.port d.w6.toNat u = .ok (rings, cq) → freeSlotNo u = some slot →
      (if fieldNat w 0 4 = 1 then coresFor mask (fieldNat w 16 16) (bitOf w 5) u else some []) = some cs →
      100 * fieldNat w 32 16 ≤ linkFree u →
      Completes (.channelCreate d) s fun t => ∃ c : Chan, Finishes r c.handle.toNat t fun v => OnlySlot slot u v ∧ chanOf slot v = some c ∧
        c.handle = mkHandle (fieldNat w 0 4) (slotOf slot u).gen.toNat slot ∧ c.cls = fieldNat w 0 4 ∧ c.owner = r.port ∧ c.cores = cs ∧
        c.rings = rings ∧ c.cq = cq ∧ c.pages = [] ∧ c.waiting = [] ∧ c.seed = d.w7 ∧ (slotOf slot v).bellError = false) ∧
    (∀ (c : Chan) (rings : Vector Ring 8) (cq : CRing), bitOf d.w2 4 = true →
      let h : W32 := d.w3.setWidth 32
      handleStale h u = false → chanOf (handleSlot h) u = some c → 2 ≤ handleSlot h → handleClass h = c.cls →
      (portOf c.owner u).fenced = true → readRingBlock r.port d.w6.toNat u = .ok (rings, cq) →
      Completes (.channelAdopt d) s fun t => Finishes r (h.toNat + c.lost % 65536 * 2 ^ 32) t fun v =>
        chanOf (handleSlot h) v = some { c with owner := r.port, rings := rings, cq := cq, lost := 0 } ∧
        (∀ j : Nat, j ≠ handleSlot h → slotOf j v = slotOf j u) ∧
        (portOf r.port v).mem = memWrite (portOf r.port u).mem (d.w6.toNat + 0x100) (adoptHeads c))) ∧
  (∀ (d : Desc) (s : State) (r : DescRec) (u : State) (slot : Nat) (c : Chan), Starts 0x42 d s r u →
    ownedChan (d.w2.setWidth 32) r u = some (slot, c, true) →
    let va := fieldNat d.w3 0 48
    let n := fieldNat d.w4 0 27
    let q := va / pageBytes
    badRange va n = false → (∀ x : Nat, q ≤ x → x < q + n → tget? c.pages x = none) →
    (fieldNat d.w4 32 3 = 0 → u.memory.framesUsed.length + u.memory.privateFrames + n ≤ frameCapacity u.flash.variant →
      Completes (.mapMemory d) s fun t => Finishes r 0 t fun v => ∃ fs : List Nat, fs.length = n ∧ (∀ f ∈ fs, f ∉ u.memory.framesUsed) ∧
        v.memory.framesUsed = u.memory.framesUsed ++ fs ∧ v.memory.fast = u.memory.fast ∧
        PagesMapped slot q (bitOf d.w4 35) (fs.map .fast) u v) ∧
    (∀ p : Port, fieldNat d.w4 32 3 = (if p = .A then 1 else 2) → d.w5.toNat % pageBytes = 0 →
      Completes (.mapMemory d) s fun t => Finishes r 0 t fun v => v.memory = u.memory ∧
        PagesMapped slot q (bitOf d.w4 35) ((List.range n).map fun i => .slow p (d.w5.toNat + i * pageBytes)) u v) ∧
    (∀ a : Chan, fieldNat d.w4 32 3 = 3 → badAlias r n u = false →
      let aslot := handleSlot (d.w6.setWidth 32)
      let aq := fieldNat d.w7 0 48 / pageBytes
      chanOf aslot u = some a → (∀ x : Nat, aq ≤ x → x < aq + n → (locate aslot (x * pageBytes) u).isSome = true) →
      Completes (.mapMemory d) s fun t => Finishes r 0 t fun v => v.memory = u.memory ∧
        PagesMapped slot q (bitOf d.w4 35) ((List.range n).map fun i => resolveAlias aslot (aq + i) a) u v)) ∧
  (∀ (d : Desc) (s : State) (r : DescRec) (u : State) (slot : Nat) (c : Chan), Starts 0x43 d s r u →
    ownedChan (d.w2.setWidth 32) r u = some (slot, c, true) →
    let n := fieldNat d.w4 0 27
    let q := fieldNat d.w3 0 48 / pageBytes
    badRange (fieldNat d.w3 0 48) n = false → (∀ x : Nat, q ≤ x → x < q + n → (tget? c.pages x).isSome = true) →
    pagesInUse r.id slot q n u = false → Completes (.unmap d) s fun t => Finishes r 0 t fun v => PagesGone slot q n u v) ∧
  (∀ (id : Nat) (s : State) (r : DescRec), HeldAs id .unmap r s →
    let slot := handleSlot (r.desc.w2.setWidth 32)
    let n := fieldNat r.desc.w4 0 27
    let q := fieldNat r.desc.w3 0 48 / pageBytes
    pagesInUse r.id slot q n s = false → Completes (.unmapRelease id) s fun t => Finishes r 0 t fun v => PagesGone slot q n s v) ∧
  (∀ (d : Desc) (s : State) (r : DescRec) (u : State) (slot : Nat) (c : Chan), Starts 0x41 d s r u →
    ownedChan (d.w2.setWidth 32) r u = some (slot, c, true) → d.slot.val ≠ slot → c.waiting = [] → (∀ x ∈ u.descs, x.desc.slot.val ≠ slot) →
    (∀ x ∈ u.runs, x.slot ≠ slot) → (∀ p ∈ u.passes, p.slot ≠ slot ∧ p.admitted = true) → (∀ e ∈ u.nmu.exports, e.slot ≠ slot) →
    Completes (.channelDestroy d) s fun t => chanOf slot t = none ∧ (slotOf slot t).gen = nextGen (slotOf slot u).gen ∧ descOf r.id t = none ∧
      (∀ (x f a : Nat) (ro : Bool), (x, { kind := .fast f, readOnly := ro }) ∈ c.pages → a / pageBytes = f →
        memGet t.memory.fast a = 0 ∧ f ∉ t.memory.framesUsed) ∧ (∀ b ∈ t.nmu.bindings, b.slot ≠ slot))

/-- The admin descriptors that define things: GROUP_DEFINE starts a group afresh from its members, DESKMATE_PAIR holds until the pair forms
and frees it, PEN_PAL_DEFINE keeps a pen pal, TOPOLOGY_LOAD puts an image that passes its checks in force when no step is open,
POLICY_LIMITS takes the limits, and KEY_INSTALL raises the key sequence and fills the slot or the secret it names. -/
def Obligations.DefinitionDescriptors : Prop :=
  (∀ (d : Desc) (s : State) (r : DescRec) (u : State), Starts 0x44 d s r u →
    let id := fieldNat d.w2 0 16
    let rank := fieldNat d.w2 16 14
    let size := fieldNat d.w2 32 14
    let ms := (List.range (size + 1)).map fun i => hostWord r.port (d.w3.toNat + 8 * i) u
    id ≠ 0xFFFF → rank ≤ size → 1 ≤ fieldNat d.w2 48 4 → fieldNat d.w2 48 4 ≤ 8 → ms.getD rank 0 = u.mod.identity → stepIsOpen id u = false →
    Completes (.groupDefine d) s fun t => Finishes r 0 t fun v => { v with groups := u.groups } = u ∧
      (∀ j : Nat, j ≠ id → groupOf j v = groupOf j u) ∧ ∃ g : Group, groupOf id v = some g ∧ g.rank = rank ∧ g.sizeM1 = size ∧
        g.sites = fieldNat d.w2 48 4 ∧ g.members = ms ∧ g.lastStep = d.w4 ∧ g.open' = none ∧ g.ordinals = 0) ∧
  (∀ (d : Desc) (s : State) (r : DescRec) (u : State), Starts 0x45 d s r u →
    (bitOf d.w3 0 = true → adjacent d.w2 u = true → (u.mate.partner = none ∨ u.mate.partner = some d.w2) → u.mate.formed = false →
      Completes (.deskmatePair d) s fun t => { t with descs := u.descs, mate := u.mate } = u ∧
        t.mate = { u.mate with partner := some d.w2 } ∧ ∃ x : DescRec, descOf r.id t = some x ∧ x.hold = .deskmate ∧ x.desc = d) ∧
    (bitOf d.w3 0 = false → u.mate.partner = some d.w2 → (∀ g ∈ u.groups, g.open' = none) → u.mate.dissolving = none →
      Completes (.deskmatePair d) s fun t => Finishes r 0 t fun v => v.mate = {} ∧
        v.memory.privateFrames = u.memory.privateFrames - u.mate.reservedFrames)) ∧
  (∀ (id : Nat) (s : State) (r : DescRec), HeldAs id .deskmate r s → r.aux = 0 → mateUp false r.desc.w2 s = true →
    mateUp true r.desc.w2 s = true → mateFrames s ≤ freeFrameCount s →
    Completes (.deskmatePairFormed id) s fun t => Finishes r 0 t fun v => v.mate.partner = some r.desc.w2 ∧ v.mate.formed = true ∧
      v.mate.degraded = false ∧ v.mate.reservedFrames = mateFrames s ∧ v.memory.privateFrames = s.memory.privateFrames + mateFrames s) ∧
  (∀ (d : Desc) (s : State) (r : DescRec) (u : State), Starts 0x46 d s r u →
    let links : BitVec 4 := BitVec.ofNat 4 (fieldNat d.w4 24 4)
    let et : BitVec 16 := if fieldNat d.w4 32 16 = 0 then 0x88B5 else BitVec.ofNat 16 (fieldNat d.w4 32 16)
    1 ≤ fieldNat d.w4 0 13 → fieldNat d.w4 0 13 ≤ 4096 → fieldNat d.w4 16 4 < 8 →
    (∀ i : Nat, i < 4 → links.getLsbD i = true → (linkOf (farLinkOf i) u).ctlFar = true) →
    (∀ p ∈ u.pals, p.id ≠ fieldNat d.w2 0 16 → p.farLinks &&& links = 0 ∨ p.ethertype = et) →
    Completes (.penPalDefine d) s fun t => Finishes r 0 t fun v => { v with pals := u.pals } = u ∧
      (∀ j : Nat, j ≠ fieldNat d.w2 0 16 → palOf j v = palOf j u) ∧ palOf (fieldNat d.w2 0 16) v = some
        { id := fieldNat d.w2 0 16, partner := d.w3, localSteps := fieldNat d.w4 0 13, staleness := fieldNat d.w4 16 4
          farLinks := links, ethertype := et }) ∧
  (∀ (d : Desc) (s : State) (r : DescRec) (u : State) (img : Topology), Starts 0x47 d s r u →
    let bs := hostRead r.port d.w2.toNat (fieldNat d.w3 0 32) u
    parseTopology bs = some img → topologyOk bs img u = true →
    Completes (.topologyLoad d) s fun t => Finishes r 0 t fun v =>
      ((∃ g ∈ u.groups, g.open'.isSome = true) → v = { u with mod := { u.mod with pendingTopology := some img } }) ∧
      ((∀ g ∈ u.groups, g.open' = none) → v.flash.topology = some img ∧ v.mod.pendingTopology = none)) ∧
  (∀ (d : Desc) (s : State) (r : DescRec) (u : State), Starts 0x48 d s r u →
    let bs := hostRead r.port d.w2.toNat (fieldNat d.w3 0 32) u
    let es := (chunks 64 (bs.drop 64)).map limitsEntry
    let w2 : Word := BitVec.ofNat 64 (wordAt bs 2)
    limitsOk bs es = true → Completes (.policyLimits d) s fun t => Finishes r 0 t fun v => v.card.deviceForbid = fieldNat w2 0 8 ∧
      v.card.moveMin = fieldNat w2 8 8 ∧ v.card.moveMax = fieldNat w2 16 8 ∧ v.card.parkMax = fieldNat w2 24 4 ∧ v.card.nextPolicy = some es ∧
      (∀ e ∈ es, (∀ g ∈ u.groups, g.id ≠ e.group) → e ∈ v.card.policy) ∧ v.groups = u.groups ∧ v.memory = u.memory) ∧
  (∀ (d : Desc) (s : State) (r : DescRec) (u : State) (key : List Byte), Starts 0x49 d s r u →
    let l := fieldNat d.w4 0 6
    let bs := hostRead r.port d.w2.toNat 1696 u
    let w0 := leNat (bs.take 8)
    let seq : Word := BitVec.ofNat 64 (leNat ((bs.drop 8).take 8))
    let w2 := leNat ((bs.drop 16).take 8)
    fieldNat d.w3 0 32 = 1696 → l < 36 → keyBlockBad bs l u = false → unwrapKey bs = some key → u.flash.lastKeySeq.toNat < seq.toNat →
    ((linkOf l u).ctlFar = false → w0.testBit 48 = false →
      w0.testBit 46 ≠ (if w0.testBit 47 then (linkOf l u).keyRx else (linkOf l u).keyTx) →
      Completes (.keyInstall d) s fun t => Finishes r 0 t fun v => v.flash.lastKeySeq = seq ∧
        v.flash.counterWrites = u.flash.counterWrites + 1 ∧
        let x := vget (if w0.testBit 47 then (linkOf l v).rxKeys else (linkOf l v).txKeys) (slotIx (w0.testBit 46)) {}
        x.key = BitVec.ofNat 256 (leNat key) ∧ x.const = BitVec.ofNat 32 (w2 % 2 ^ 32) ∧ x.valid = true ∧ x.items = 0) ∧
    ((linkOf l u).ctlFar = true → farCapable l = true → w0.testBit 48 = true → w0.testBit 47 = false → w0.testBit 46 = false →
      Completes (.keyInstall d) s fun t => Finishes r 0 t fun v => v.flash.lastKeySeq = seq ∧ (linkOf l v).far.psk = key ∧
        (linkOf l v).far.pskId = BitVec.ofNat 32 (w2 / 2 ^ 32)))

/-- TENSOR_MOVE converts its source and stores the result, done or flagged; STATS_READ stores the sets it selects and clears them when
asked; DELTA_EXPORT opens an export, EXPORT_APPEND adds the next unit; SNAPSHOT stores the sections of a step; EXAM_OPEN shows the
latest version or a rebuilt one, at once or when its hold ends, and EXAM_CLOSE takes the window away with its frames cleared. -/
def Obligations.MovesExportsAndExams : Prop :=
  (∀ (d : Desc) (s : State) (r : DescRec) (u w : State) (c : Chan) (raw : List Byte), Starts 0x02 d s r u → chanOf d.slot u = some c →
    moveFieldsOk d = true → regionFault d.slot d.w2.toNat (mvLen d) false u = none → poisonVa d.slot d.w2.toNat (mvLen d) u = none →
    let head := vaRead d.slot d.w2.toNat 64 u
    let len := if mvCodec d = 2 then streamRaw head else mvLen d
    let n := tensorBytes (mvDstFmt d) (tensorElems (mvSrcFmt d) len)
    let span := if mvCodec d = 1 then maxStored n else n
    (mvCodec d = 2 → 64 ≤ mvLen d ∧ streamHeaderOk head = true ∧ streamAgrees head (mvLen d) (mvSrcFmt d) = true ∧
      readStream (vaRead d.slot d.w2.toNat (mvLen d) u) = (raw, none)) →
    (mvCodec d ≠ 2 → raw = vaRead d.slot d.w2.toNat (mvLen d) u) →
    regionFault d.slot d.w3.toNat span true u = none → overlapsProtected d.slot d.w3.toNat span u = false →
    let out := moveConvert d c raw
    let f := orFlags out.2
    let bytes := if mvCodec d = 1 then encodeStream 0 (mvDstFmt d) 16 out.1 else out.1
    forwardDesc r.group r.step d.slot [(d.w2.toNat, mvLen d)] [(d.w3.toNat, bytes.length)] u = some w →
    Completes (.tensorMove d) s fun t => ∃ v : State, SameMemory (vaStore d.slot d.w3.toNat bytes u) v ∧
      t = if flagged f then finish r stFlagged (f.setWidth 16) (BitVec.ofNat 64 (firstGroup out.2)) v
        else done r (if mvCodec d = 1 then bytes.length else 0) v) ∧
  (∀ (d : Desc) (s : State) (r : DescRec) (u : State) (c : Chan), Starts 0x0C d s r u → chanOf d.slot u = some c →
    let sel := fieldNat d.w3 0 16
    let sets := selectedSets d.slot sel u
    let bytes := statHeader sets.length c.tsuFull s.time.dtime ++ sets.flatMap (statRecord c)
    regionFault d.slot d.w2.toNat (if sel = 0xFFFF then 64 + 64 * 16384 else 128) true u = none →
    overlapsProtected d.slot d.w2.toNat bytes.length u = false →
    Completes (.statsRead d) s fun t => Finishes r 0 t fun v => SameMemory (vaStore d.slot d.w2.toNat bytes u) v ∧
      (bitOf d.w3 16 = false → v.stats = u.stats) ∧ (bitOf d.w3 16 = true → ∀ x : StatSet, x ∈ v.stats ↔ x ∈ u.stats ∧ x ∉ sets)) ∧
  (∀ (d : Desc) (s : State) (r : DescRec) (u : State), Starts 0x0A d s r u →
    let size := fieldNat d.w3 0 48
    let e : ExportSt := { id := r.id, slot := d.slot, dst := d.w2.toNat, size := size, fromStep := d.w4
                          lastAtFetch := BitVec.ofNat 64 (lastCommitted d.slot s), continuous := bitOf d.w5 0, nextStep := d.w4, write := 0, gaps := 0 }
    size % 4096 = 0 → pageBytes ≤ size → regionFault d.slot d.w2.toNat size true u = none → slowRegion d.slot d.w2.toNat size u = true →
    overlapsProtected d.slot d.w2.toNat size u = false → tooOld d.w4 u = false →
    (bitOf d.w5 0 = true ∨ d.w4.toNat ≤ lastCommitted d.slot s → Completes (.deltaExport d) s fun t =>
      SameMemory (exportControl e (some 0) u) t ∧ t.nmu.exports = u.nmu.exports ++ [e] ∧
        ∃ x : DescRec, descOf r.id t = some x ∧ x.hold = .exporting) ∧
    (bitOf d.w5 0 = false → lastCommitted d.slot s < d.w4.toNat → Completes (.deltaExport d) s fun t =>
      t = done r 0 (exportControl e (some 0) u))) ∧
  (∀ (id : Nat) (s : State) (e : ExportSt) (r : DescRec), s.nmu.exports.find? (fun e => e.id == id) = some e → descOf id s = some r →
    e.nextStep.toNat ≤ lastCommitted e.slot s → regionFenced e.slot e.dst e.size s = false →
    let x := unitOfStep (exportGroups e.slot s) e.nextStep s
    let f := { e with write := e.write + BitVec.ofNat 64 x.1.length, nextStep := e.nextStep + 1, gaps := if x.2 then e.gaps + 1 else e.gaps }
    e.write.toNat + x.1.length - (vaWord e.slot (e.dst + 8) s).toNat ≤ e.size - 4096 →
    Completes (.exportAppend id) s fun t => ∃ v : State,
      SameMemory (exportControl f (if x.2 then none else some e.nextStep) (ringPut e.slot e.dst e.size x.1 e.write.toNat s)) v ∧
      (e.continuous = false ∧ e.lastAtFetch.toNat ≤ e.nextStep.toNat → t = done r f.write.toNat v ∧ ∀ y ∈ v.nmu.exports, y.id ≠ id) ∧
      (e.continuous = true ∨ e.nextStep.toNat < e.lastAtFetch.toNat → t = v ∧ v.nmu.exports.find? (fun e => e.id == id) = some f)) ∧
  (∀ (d : Desc) (s : State) (r : DescRec) (u : State) (c : JRec), Starts 0x0D d s r u →
    let limit := fieldNat d.w4 0 48
    let gs := exportGroups d.slot u
    let secs := snapshotSections gs (rebuiltAll gs d.w2 u)
    let bs := leBytes 8 0x4C594B53 ++ wordBytes d.w2 ++ c.payload.take 32 ++ leBytes 8 secs.length ++ leBytes 8 0 ++
      secs.flatMap fun x => sectionBytes x.1 x.2
    regionFault d.slot d.w3.toNat limit true u = none → d.w2.toNat ≤ lastCommitted d.slot u → slowRegion d.slot d.w3.toNat limit u = true →
    overlapsProtected d.slot d.w3.toNat limit u = false → commitRec gs d.w2 u = some c → canRebuild d.w2 u = true → snapshotBound secs ≤ limit →
    Completes (.snapshot d) s fun t => Finishes r bs.length t fun v => v = vaStore d.slot d.w3.toNat bs u) ∧
  (∀ (d : Desc) (s : State) (r : DescRec) (u : State) (g : Group) (i : Instr), (i = .examOpen d ∧ Starts 0x08 d s r u) ∨
      (i = .examOpenRelease r.id ∧ HeldAs r.id .examOpen r s ∧ u = s ∧ r.desc = d) →
    groupOf (fieldNat d.w3 0 16) u = some g → d.w2.toNat ≤ g.lastStep.toNat → examHeld d.slot u = false →
    (d.w2 = g.lastStep → gatherPending g u = false) →
    let window := fun (ps : List (Nat × Page)) (fs : List Nat) =>
      ({ id := u.nmu.nextExam, slot := d.slot, group := g.id, version := d.w2, opened := s.time.dtime, saved := ps, frames := fs } : Exam)
    (d.w2 = g.lastStep → Completes i s fun t => Finishes r u.nmu.nextExam t fun v => v.nmu.exams = u.nmu.exams ++ [window [] []] ∧
      v.memory = u.memory ∧ v.slots = u.slots) ∧
    (∀ (x : State) (ps : List (Nat × Page)) (fs : List Nat), d.w2 ≠ g.lastStep → canRebuild d.w2 u = true →
      (∀ y : State, { y with card := u.card } = u → showVersion d.slot g d.w2 y = some ({ x with card := y.card }, ps, fs)) →
      Completes i s fun t => Finishes r u.nmu.nextExam t fun v => v.nmu.exams = x.nmu.exams ++ [window ps fs] ∧ v.memory = x.memory)) ∧
  (∀ (d : Desc) (s : State) (r : DescRec) (u : State) (e : Exam), Starts 0x09 d s r u →
    u.nmu.exams.find? (fun e => e.id == fieldNat d.w2 0 16 && e.slot == d.slot.val) = some e →
    Completes (.examClose d) s fun t => descOf r.id t = none ∧ (∀ x ∈ t.nmu.exams, x.id ≠ e.id) ∧
      (∀ f ∈ e.frames, ∀ a : Nat, a / pageBytes = f → memGet t.memory.fast a = 0) ∧
      ∀ (c : Chan) (x : Nat) (pg : Page), chanOf d.slot t = some c → (x, pg) ∈ e.saved → (∀ y ∈ e.saved, y.1 = x → y = (x, pg)) →
        tget? c.pages x = some pg)

/-- LESSON_RUN checked and admitted holds a run of its cores, code and arguments with its measure in the channel's log, and where its
cores are free each starts at ENTRY; the run completes by its cores' flags or stop, and its cores are free. A core fenced by a detector
or the watchdog is suspect and its logical number passes to the substitute. Engines grant contexts, release held bytes and are fenced
with nothing left in them. -/
def Obligations.RunsCoresAndEngines : Prop :=
  (∀ (d : Desc) (s : State) (r : DescRec) (u w : State) (c : Chan) (cores : List Nat) (cw db desk : Nat), Starts 0x01 d s r u →
    chanOf d.slot u = some c → runCores d c = some cores →
    let argc := fieldNat d.w5 0 6
    let nin := fieldNat d.w7 0 16
    let nreg := nin + fieldNat d.w7 16 16
    let regs := regionList d.slot d.w6.toNat nreg u
    let h := vaRead d.slot d.w2.toNat 64 u
    let code := vaRead d.slot (d.w2.toNat + 64) (8 * cw) u
    let data := vaRead d.slot (d.w2.toNat + 64 + 8 * cw) db u
    let pg := readExpertPage d.slot r.step u
    let loads := loadsPage d.slot r.step u
    argc ≤ 32 → regionsFault d.slot [(d.w4.toNat, 8 * argc, false), (d.w6.toNat, 16 * nreg, false)] u = none →
    regionsFault d.slot (regs.zipIdx.map fun x => (x.1.1, x.1.2, decide (nin ≤ x.2))) u = none → d.w2.toNat % 64 = 0 →
    regionFault d.slot d.w2.toNat 64 false u = none →
    poisonAmong d.slot [(d.w4.toNat, 8 * argc), (d.w6.toNat, 16 * nreg), (d.w2.toNat, 64)] u = none → imageHeader h = some (cw, db, desk) →
    fieldNat d.w3 0 32 < cw → regionFault d.slot d.w2.toNat (64 + 8 * cw + db) false u = none →
    poisonVa d.slot d.w2.toNat (64 + 8 * cw + db) u = none → shake256 32 (code ++ data) = h.drop 32 → firstBadWord (wordsOf code) = none →
    (loads = true → pageFits d.slot c pg u = true) → (∀ e ∈ u.nmu.exams, e.slot = d.slot.val → e.gap = false) →
    forwardDesc r.group r.step d.slot (regs.take nin ++ [(d.w2.toNat, 64 + 8 * (wordsOf code).length + data.length)] ++
      if loads then [(expertPageVa, pageBytes)] else []) (regs.drop nin) u = some w →
    Completes (.lessonRun d) s fun t => (∃ x : DescRec, descOf r.id t = some x ∧ x.hold = .run) ∧
      (∃ k : Chan, chanOf d.slot t = some k ∧ h.drop 32 ∈ k.log) ∧ SameMemory s t ∧
      (∃ x ∈ t.runs, x.id = r.id ∧ x.desc = r.id ∧ x.slot = d.slot.val ∧ x.cores = cores ∧ x.entry = fieldNat d.w3 0 32 ∧
        x.code = wordsOf code ∧ x.args = wordsOf (vaRead d.slot d.w4.toNat (8 * argc) u) ∧ x.ins = regs.take nin ∧ x.outs = regs.drop nin) ∧
      ((∀ v ∈ u.runs, v.id ≠ r.id ∧ ∀ a ∈ v.cores, ∀ b ∈ cores, a ≠ b ∧ physOf a u ≠ physOf b u) → ∀ a ∈ cores,
        (coreOf a t).run = some r.id ∧ (coreOf a t).seq.running = true ∧ (coreOf a t).seq.pc = fieldNat d.w3 0 32 ∧
          (coreOf a t).seq.code = wordsOf code ∧ (coreOf a t).vec.gens = seedLanes c.seed (startStream r.step a))) ∧
  (∀ (n : Nat) (s : State) (u : Run) (r : DescRec), runOf n s = some u → u.begun = true →
    (∀ c ∈ u.cores, coreFinished u.stop.isSome (coreOf c s) = true) → descOf u.desc s = some r →
    let f := runFlags u s
    Completes (.lessonRunComplete n) s fun t => ∃ (v : State) (st : BitVec 8) (det : BitVec 16) (res : Word),
      t = beginReady (finish r st det res v) ∧ (∀ x ∈ v.runs, x.id ≠ n) ∧ (∀ c ∈ u.cores, (coreOf c v).run = none) ∧ SameMemory s v ∧
      (∀ x, u.stop = some x → (st, det, res) = x) ∧
      (u.stop = none → flagged f = true → (st, det, res) = (stFlagged, f.setWidth 16, flaggedResult u s)) ∧
      (u.stop = none → flagged f = false → (st, det, res) = (if u.rerun then stReplayed else stDone, 0, 0))) ∧
  (∀ (c : Fin 192) (p q : Nat) (s : State), tget? s.flash.physOf c = some p → tgetD s.flash.coreStatus p 0 = 0 →
    (s.flash.physOf.filter fun x => x.2 == p).map Prod.fst = [c.val] → substituteFor p s = some q →
    ∀ i : Instr, (i = .coreFence c ∨ (i = .sequencerWatchdog c ∧ (coreOf c s).seq.running = true ∧ seqHeld (coreOf c s) = false ∧
        1000000 ≤ 4 * (s.time.ticks - (coreOf c s).lastIssueTick))) →
      Completes i s fun t => tgetD t.flash.coreStatus p 0 = 1 ∧ tget? t.flash.physOf c = some q ∧
        (∀ d : Nat, d ≠ c.val → tget? t.flash.physOf d = tget? s.flash.physOf d) ∧ (∃ e ∈ t.card.events, e.code = 0x60) ∧
        ((∀ u ∈ s.runs, u.begun = true → c.val ∉ u.cores) → OnlyFlags s { t with flash := s.flash })) ∧
  (∀ (e : Fin 28) (s : State),
    let x := engineOf e s
    (∀ (i : Nat) (rest : List Nat), x.waiting = i :: rest → x.open'.length < 64 → x.fenced = false → Completes (.streamContextGranted e) s fun t =>
      { t with engines := s.engines } = s ∧ (∀ j : Nat, j ≠ e.val → engineOf j t = engineOf j s) ∧
        engineOf e t = { x with open' := x.open' ++ [i], waiting := rest }) ∧
    (∀ (i : Nat × Nat) (rest : List (Nat × Nat)), x.heldBytes = i :: rest → x.queue + i.2 ≤ 4194304 → Completes (.engineQueueRelease e) s fun t =>
      { t with engines := s.engines } = s ∧ (∀ j : Nat, j ≠ e.val → engineOf j t = engineOf j s) ∧
        engineOf e t = { x with heldBytes := rest, queue := x.queue + i.2 }) ∧
    (x.fenced = false → Completes (.engineFence e) s fun t => (engineOf e t).fenced = true ∧ (engineOf e t).open' = [] ∧
      (engineOf e t).waiting = [] ∧ (engineOf e t).heldBytes = [] ∧ SameMemory s t ∧
      (x.open' = [] → x.waiting = [] → ∀ j : Nat, j ≠ e.val → engineOf j t = engineOf j s)))

/-! ## Exchanges, bindings, steps (chapters 08, 09, 12) -/

/-- EXCHANGE takes its group's next ordinal and, its fields and regions in order, waits for admission; admission that finds its terms met
admits the pass with its DEADLINE or the earliest promise and writes ADMITTED; when every byte is in place and every segment
acknowledged the pass is gone and its descriptor final, late or not. -/
def Obligations.ExchangesFromFetchToFinalStatus : Prop :=
  (∀ (d : Desc) (s : State) (r : DescRec) (u w : State) (g : Group), Starts 0x03 d s r u → groupOf (exGroup d) u = some g → PassesHeld u →
    (∀ p ∈ u.passes, p.desc ≠ r.id) → exFieldsOk d (groupN g) = true →
    let p := newPass r g u
    let x := noteExchange r u
    regionsFault d.slot [(d.w3.toNat, exSource p g, false), (d.w4.toNat, dueBytes p g, true)] x = none →
    overlapsProtected d.slot d.w4.toNat (dueBytes p g) x = false → poisonVa d.slot d.w3.toNat (exSource p g) x = none →
    forwardDesc r.group r.step d.slot [(d.w3.toNat, exSource p g)] [(d.w4.toNat, dueBytes p g)] x = some w →
    Completes (.exchange d) s fun t => t.passes = u.passes ++ [p] ∧ p.desc = r.id ∧ p.ordinal = g.ordinals ∧ p.admitted = false ∧
      (∃ h : Group, groupOf (exGroup d) t = some h ∧ h.ordinals = g.ordinals + 1) ∧ SameMemory s t ∧
      ∃ y : DescRec, descOf r.id t = some y ∧ y.hold = .admission ∧ y.desc = d) ∧
  (∀ (id : Nat) (s : State) (r : DescRec) (p : Pass) (g : Group) (staging : Nat) (c : Chan), descOf id s = some r → r.hold = .admission →
    r.opcode = 0x03 → s.passes.find? (fun p => p.desc == id) = some p → passOf p.id s = some p → groupOf p.group s = some g → PassesHeld s →
    fuseRefused p g s = false → (∀ k : Nat, k < groupN g → k ≠ g.rank → (routeTo (rankHolder g k) s).isSome = true) →
    ((admitWire p g s).1 = 0 ∨ 0 < admitCap p g s) → (p.deadline = 0 ∨ admitEarliest p g s ≤ p.deadline.toNat) →
    stagingFor p s = some staging → s.memory.framesUsed.length + s.memory.privateFrames + parkFor p g s ≤ frameCapacity s.flash.variant →
    s.passes.countP (fun q => q.admitted) < 16384 → (∀ x ∈ g.early, x.w1.toNat ≠ p.ordinal) → (∀ v ∈ g.voids, v.1 ≠ p.ordinal) →
    chanOf r.desc.slot s = some c → 2 ≤ r.desc.slot.val → c.waiting.length < 4096 →
    let promise := if p.deadline = 0 then BitVec.ofNat 64 (admitEarliest p g s) else p.deadline
    Completes (.admissionDecision id) s fun t => (∃ q : Pass, passOf p.id t = some q ∧ q.admitted = true ∧ q.promise = promise ∧
        q.wire = (admitWire p g s).1 ∧ q.coded = (admitWire p g s).2 ∧ q.outstanding = (outSegs p g s).map Prod.snd ∧
        q.srcData = vaRead p.slot p.src (exSource p g) s) ∧
      (∃ x : DescRec, descOf id t = some x ∧ x.hold = .pass) ∧
      (∃ k : Chan, chanOf r.desc.slot t = some k ∧ k.waiting = c.waiting ++ [{ complOf r stAdmitted 0 promise s with irq := false }]) ∧
      t.memory.privateFrames = s.memory.privateFrames + parkFor p g s) ∧
  (∀ (id : Nat) (s : State) (p : Pass) (r : DescRec), s.passes.find? (fun p => p.desc == id && p.admitted) = some p →
    descOf id s = some r → p.outstanding = [] →
    (p.round = none → ∃ g : Group, groupOf p.group s = some g ∧ passFilled p g s = true) →
    let late := decide (p.promise.toNat < s.time.dtime.toNat)
    let o := finalStatus p
    Completes (.exchangeFinal id) s fun t => passOf p.id t = none ∧ descOf id t = none ∧ ∃ v : State,
      (∀ l : Nat, ∀ x ∈ (linkOf l v).egress, x.pass ≠ p.id + 1) ∧
      (p.round.isSome = true → t = finish r o.1 (o.2.1 ||| (if late then 0x8000 else 0)) o.2.2 v) ∧
      (p.round = none → t = answerXpost id false true o.1 o.2.2 (finish r o.1 (o.2.1 ||| (if late then 0x8000 else 0)) o.2.2 v)))

/-- RULE_BIND, its checks passed and no step open, makes a binding at its group's last step with valid directory entries, at once or when
the step that held it is over; a release takes the binding away. A gradient complete for a unit updates it by its rule, or stages it for a
tiered binding until its record lands; overflow is noted; a record that lands is updated and written back, and the acknowledgment frees
its bytes. A miss of the Block Directory ends when its entry arrives. -/
def Obligations.BindingsAndUnits : Prop :=
  (∀ (d : Desc) (s : State) (r : DescRec) (u : State),
    let again := fun q : DescRec => HeldAs q.id .ruleBind q s ∧ r = { q with hold := .run } ∧ u = s ∧ q.desc = d
    let rule := fieldNat d.w4 0 8
    (∀ (i : Instr) (g : Group) (first : Nat), (i = .ruleBind d ∧ Starts 0x05 d s r u) ∨ (∃ q : DescRec, i = .ruleBindRelease q.id ∧ again q) →
      let h := readHyper d.slot d.w5.toNat u
      let count := fieldNat d.w3 0 48
      let bytes := count * fmtBytes (fieldNat d.w4 8 8)
      let mine := pieces d.slot d.w2.toNat bytes u
      rule ≠ 0xFF → bindFieldsOk d = true → regionsFault d.slot [(d.w2.toNat, bytes, false), (d.w5.toNat, 64, false)] u = none →
      d.w5.toNat % 64 = 0 → hyStepOk rule h = true → hyBindOk rule h = true → stageFast d.slot h u = true → groupOf (hyGroup h) u = some g →
      g.open' = none → (∀ b ∈ u.nmu.bindings, (b.group = g.id → b.lbase + b.count ≤ hyLbase h ∨ hyLbase h + count ≤ b.lbase) ∧
        piecesMeet mine (pieces b.slot b.base (b.count * fmtBytes b.fmt) u) = false) →
      freeEntries (ceilDiv count 65536) u = some first → stateFrames rule count (hyTier h) ≤ freeFrameCount u →
      poisonVa d.slot d.w2.toNat bytes u = none →
      Completes i s fun t => ∃ v : State, t = sendMirror (done r 0 v) ∧ (∃ b ∈ v.nmu.bindings, b.num = freeBinding u ∧ b.slot = d.slot.val ∧
          b.base = d.w2.toNat ∧ b.count = count ∧ b.rule = rule ∧ b.hyper = h ∧ b.group = g.id ∧ b.bindStep = g.lastStep ∧ b.dirFirst = first) ∧
        (∀ k : Nat, k < ceilDiv count 65536 → ∃ x : BdEntry, tget? v.nmu.dir (first + k) = some x ∧ x.valid = true ∧
          x.binding = freeBinding u ∧ x.lastStep = g.lastStep ∧ x.touched = 0) ∧
        v.memory.privateFrames = u.memory.privateFrames + stateFrames rule count (hyTier h)) ∧
    (∀ (i : Instr) (b : Binding), (i = .ruleRelease d ∧ Starts 0x05 d s r u) ∨ (∃ q : DescRec, i = .ruleBindRelease q.id ∧ again q) → rule = 0xFF →
      u.nmu.bindings.find? (fun b => b.slot == d.slot.val && b.base == d.w2.toNat) = some b → stepIsOpen b.group u = false →
      Completes i s fun t => ∃ v : State, t = sendMirror (done r 0 v) ∧ (∀ x ∈ v.nmu.bindings, x.num ≠ b.num) ∧
        ∀ e ∈ v.nmu.dir, e.2.binding ≠ b.num)) ∧
  (∀ (pass unit : Nat) (s : State) (p : Pass) (g : Group) (b : Binding) (q k : Nat) (n : Word) (codes : List Nat), passOf pass s = some p →
    groupOf p.group s = some g → passUnits p s = some (b, q, k) → p.admitted = true → p.fuse = true → q ≤ unit → unit < q + k →
    unit ∉ p.journalled → (∀ x ∈ b.staged, x.1 ≠ unit) → g.open' = some n → p.step = some n → unitHeld b unit s = false →
    unitGrads p g b unit = some codes →
    let gs := codes.map (scaledGrad b g.scaleUsed)
    let idle := hyTouchAll b.hyper = false ∧ ∀ x ∈ gs, isZeroFp x.1 = true
    Completes (.nmuUnitUpdate pass unit) s fun t =>
      ((tierPort b = none ∨ idle) → ∃ x : Pass, passOf pass t = some x ∧ unit ∈ x.journalled) ∧
      (tierPort b = none → isBlockRule b.rule = false → ¬ idle → getStripe b unit t = updatedStripe b n gs (getStripe b unit s)) ∧
      ((tierPort b).isSome = true → ¬ idle → ∃ x : Binding, bindingOf b.num t = some x ∧ (unit, gs.map to32) ∈ x.staged) ∧
      ((∃ c ∈ codes, nonFiniteFp (decodeCode 0x01 c) = true) → ∃ h : Group, groupOf p.group t = some h ∧ h.overflow = true)) ∧
  (∀ (num unit : Nat) (s : State) (b : Binding) (x : Nat × List W32) (g : Group) (n : Word) (p : Port), bindingOf num s = some b →
    (b.staged.find? fun x => x.1 == unit) = some x → groupOf b.group s = some g → g.open' = some n → tierPort b = some p →
    (portOf p s).fenced = false → Completes (.recordLands num unit) s fun t =>
      (∃ y : Binding, bindingOf num t = some y ∧ y.staged = b.staged.erase x ∧ y.writeBack = b.writeBack ++ [unit]) ∧
      (isBlockRule b.rule = false → (portOf p t).mem = memWrite (portOf p s).mem (slowStripe b unit)
        (stripeBytes b.rule (updatedStripe b n (x.2.map nv32) (getStripe b unit s))))) ∧
  (∀ (num unit : Nat) (s : State) (b : Binding), bindingOf num s = some b → unit ∈ b.writeBack →
    Completes (.writeBackAcknowledged num unit) s fun t => (∀ j : Nat, j ≠ num → bindingOf j t = bindingOf j s) ∧
      bindingOf num t = some { b with writeBack := b.writeBack.erase unit
                                      stageUsed := b.stageUsed - 2112 * (if isBlockRule b.rule then 16 else 1) }) ∧
  (∀ (e : Nat) (s : State), Completes (.bdMissFill e) s fun t => { t with nmu := { t.nmu with misses := s.nmu.misses } } = s ∧
    ∀ x : Nat, x ∈ t.nmu.misses ↔ x ∈ s.nmu.misses ∧ x ≠ e)

/-- STEP_OPEN, its page, scale and hyperparameters in order and nothing holding it, opens the step with its control block, at once or when
its hold ends; STEP_COMMIT of the open step joins the class. A member reports up the tree when its part is done; a report is held
under its rank; a decision ends the step, committed or rolled back, and so does rank 0's own in a group of one. -/
def Obligations.StepsFromOpenToDecision : Prop :=
  (∀ (d : Desc) (s : State) (r : DescRec) (u : State) (i : Instr) (g : Group) (c : ScaleCtl), (i = .stepOpen d ∧ Starts 0x06 d s r u) ∨
      (i = .stepOpenRelease r.id ∧ HeldAs r.id .stepOpen r s ∧ u = s ∧ r.desc = d) →
    groupOf (fieldNat d.w3 0 16) u = some g → g.lost = false → g.open' = none → d.w2 = g.lastStep + 1 →
    (locate d.slot numericsVa u).isSome = true → readCtl d.slot u = some c → openHold r g u = none →
    (∀ b ∈ rereadHyper g.id u, hyBindPart b.1.hyper = hyBindPart b.2 ∧ hyStepOk b.1.rule b.2 = true) →
    Completes i s fun t => Finishes r 0 t fun v => ∃ h : Group, groupOf g.id v = some h ∧ h.open' = some d.w2 ∧ h.openSlot = d.slot.val ∧
      h.ctl = c ∧ h.e = (openScale g c).e ∧ h.scaleUsed = h.e ∧ h.scaleKnown = true ∧ h.overflow = false ∧ h.faulted = false ∧
      h.committing = none ∧ h.reported = false ∧ h.lastStep = g.lastStep ∧ h.openedAt = s.time.dtime ∧
      ∀ j : Nat, j ≠ g.id → groupOf j v = groupOf j u) ∧
  (∀ (d : Desc) (s : State) (r : DescRec) (u : State) (g : Group), Starts 0x07 d s r u → groupOf (fieldNat d.w3 0 16) u = some g →
    g.open' = some d.w2 → g.committing = none → Completes (.stepCommit d) s fun t => { t with descs := u.descs, groups := u.groups } = u ∧
      groupOf g.id t = some { g with committing := some r.id } ∧ (∀ j : Nat, j ≠ g.id → groupOf j t = groupOf j u) ∧
      ∃ x : DescRec, descOf r.id t = some x ∧ x.hold = .commit ∧ x.desc = d) ∧
  (∀ (group : BitVec 16) (s : State) (g : Group) (n : Word), groupOf group.toNat s = some g → g.open' = some n → memberLost g s = false →
    reportDue g s = true → (∀ x ∈ s.mate.takenOver, x.1 ≠ g.id) → g.reports = [] →
    let w := lastWork g.id n (setShare s.card.moveMax s)
    (∀ (l : Nat), g.rank ≠ 0 → childRanks (groupN g) g.rank = [] → rankHolder g (parentRank (groupN g) g.rank) ≠ s.mod.identity →
      linkTo (rankHolder g (parentRank (groupN g) g.rank)) s = some l → parentRank (groupN g) g.rank ≠ g.rank →
      Completes (.ownerCommitReport group) s fun t => (∃ h : Group, groupOf g.id t = some h ∧ h.reported = true ∧ h.open' = some n) ∧
        ∃ it ∈ (linkOf l t).control, itemKind it = 0x10 ∧ it.w2 = n ∧ fieldNat it.w1 16 14 = g.rank % 16384 ∧ it.w4 = shardCrc g.id w) ∧
    (g.rank = 0 → groupN g = 1 → g.decided = false → s.mate.formed = false → g.faulted = false → g.faultedPass = false →
      stagedLost g.id s = false → (∀ h : Group, groupOf g.id w = some h → h.faulted = false ∧ h.overflow = false ∧ h.gradSat = false) →
      Completes (.ownerCommitReport group) s fun t =>
        ∃ h : Group, groupOf g.id t = some h ∧ h.open' = none ∧ h.committing = none ∧ h.lastStep = n)) ∧
  (∀ (l : Fin 36) (it : Item) (s u : State) (g : Group), Policed l it 0x10 s u → groupOf (fieldNat it.w1 0 16) u = some g →
    rankHolder g (parentRank (groupN g) (fieldNat it.w1 16 14)) = s.mod.identity → g.open' = some it.w2 → g.decided = false →
    (∀ r ∈ heldRanks g u, ∀ x ∈ g.reports, x.low ≠ r + 65536) →
    Completes (.commitReportReceive l it) s fun t => t.memory = s.memory ∧ groupOf g.id t = some { g with
      reports := g.reports.filter (fun y => y.low ≠ fieldNat it.w1 16 14) ++ [
        { low := fieldNat it.w1 16 14, ok := bitOf it.w3 0, overflow := bitOf it.w3 1, sat := bitOf it.w3 2, fault := bitOf it.w3 3
          members := fieldNat it.w3 16 16, crc := it.w4 }] }) ∧
  (∀ (l : Fin 36) (it : Item) (s u : State) (g : Group), Policed l it 0x11 s u → groupOf (fieldNat it.w1 0 16) u = some g →
    g.open' = some it.w2 → g.decided = false → g.committing.isSome = true →
    Completes (.commitDecisionReceive l it) s fun t => ∃ h : Group, groupOf g.id t = some h ∧ h.open' = none ∧ h.committing = none ∧
      h.lastStep = (if bitOf it.w3 0 then it.w2 else g.lastStep) ∧ ∀ x : Nat, g.committing = some x → descOf x t = none)

/-! ## Rounds (chapter 13) -/

/-- ROUND_SEND 0 opens a region with its masters as anchor; a ROUND_SEND whose round is due waits for admission, at once or when its hold
ends, and otherwise is held; the region it names is its channel's current one. ROUND_STATE goes out when due and what arrives is noted
with its pen pal heard; a pull is answered by a pass of the records asked for; a difference that policing accepts enters the ledger; at
a boundary the next ready round is merged; a site that is awaited too long, and a pen pal silent for 1 s, count as unreachable. -/
def Obligations.RoundsAndPenPals : Prop :=
  (∀ (d : Desc) (s : State) (r : DescRec) (u : State) (i : Instr) (b : Binding) (off : Nat) (g : Group),
    (i = .roundSend d ∧ Starts 0x04 d s r u) ∨
      (i = .roundFormRelease r.id ∧ HeldAs r.id .roundForm r s ∧ r.aux = 0 ∧ u = s ∧ r.desc = d) →
    let len := fieldNat d.w5 0 48
    let h := readRound d.slot u
    let here := fun x : Region => x.slot == d.slot.val && x.base == d.w4.toNat && x.length == len
    (locate d.slot roundPageVa u).isSome = true → regionFault d.slot d.w4.toNat len false u = none →
    resolveRegion d.slot d.w4.toNat len u = some (b, off) → groupOf (rhGroup h) u = some g → roundHeaderOk h g u = true → palNamed d h g = true →
    (u.regions.find? here = none → d.w2 = 0 → stepIsOpen g.id u = false → (∀ c : Chan, chanOf d.slot u = some c → c.destroyId = none) →
      let n := len / fmtBytes b.fmt
      ledgerOk d.slot h g n u = true → u.regions.countP (fun x => x.slot == d.slot.val) < 64 →
      ceilDiv (n * (14 + 5 * (headerStale h g u + 1) + (if rhRule h = 1 then 8 else 0))) pageBytes ≤ freeFrameCount u →
      Completes i s fun t => ∃ x ∈ t.regions, x.num = freeRegion u ∧ here x = true ∧ x.binding = b.num ∧ x.group = g.id ∧ x.site = rhSite h ∧
        x.roundSent = 0 ∧ x.header = h ∧ x.params.map (fun q => q.af) = regionMasters b (off / fmtBytes b.fmt) n u) ∧
    (∀ x : Region, u.regions.find? here = some x → openPart x.header = openPart h → x.openId = none → d.w2 ≠ 0 →
      let n := d.w2.toNat
      let named := fun t : State => ∀ y ∈ t.regions, y.slot = d.slot.val → (y.current = true ↔ y.num = x.num)
      (n = x.roundSent ∨ (n = x.roundSent + 1 ∧ atBoundary x u = true ∧ stepsInForce x n ≤ x.stepsSince) → Completes i s fun t =>
        named t ∧ ∃ y : DescRec, descOf r.id t = some y ∧ y.hold = .admission ∧ y.desc = d) ∧
      (i = .roundSend d → n = x.roundSent + 1 → (atBoundary x u = false ∨ x.stepsSince < stepsInForce x n) → Completes i s fun t =>
        named t ∧ ∃ y : DescRec, descOf r.id t = some y ∧ y.hold = .roundForm ∧ y.desc = d))) ∧
  (∀ (pal : BitVec 16) (num j l : Nat) (s : State) (x : Region) (p : Pal), regionOf num s = some x →
    (otherSites x).find? (fun j => x.pals.getD j 0 == pal.toNat) = some j → sitePal x j s = some p → palLink p s = some l →
    (∀ y : Word × List Word, tget? x.stateSent j = some y → 100000000 ≤ nsSince y.1 (mono s) ∨ y.2 ≠ stateWords x) →
    Completes (.roundStateSend pal num) s fun t => t.memory = s.memory ∧
      regionOf num t = some { x with stateSent := tset x.stateSent j (mono s, stateWords x) } ∧ ∃ it : Item,
        (linkOf l t).control = (linkOf l s).control ++ [it] ∧ itemKind it = 0x22 ∧ it.w5 = p.partner ∧
        [it.w1, it.w2, it.w3, it.w4] = stateWords x) ∧
  (∀ (l : Fin 36) (it : Item) (sender : Word) (num : Nat) (s u : State) (x : Region) (p : Pal), Policed l it 0x22 s u →
    it.w5 = s.mod.identity → regionOf num u = some x →
    let j := fieldNat it.w1 0 3
    sitePal x j u = some p → j ≠ x.site → palSender p sender u = true → Completes (.roundStateReceive l it sender num) s fun t =>
      (∃ q : Pal, palOf p.id t = some q ∧ q.lastState = some (mono s) ∧ q.reachable = true) ∧
      ∀ y : Region, regionOf num t = some y →
        tget? y.said j = some (it.w2.toNat, it.w3.toNat, BitVec.ofNat 32 (fieldNat it.w4 32 32), fieldNat it.w1 3 8)) ∧
  (∀ (l : Fin 36) (it : Item) (sender : Word) (s u : State) (x : Region) (p : Pal) (j k : Nat), Policed l it 0x23 s u →
    it.w5 = s.mod.identity → regionOf (fieldNat it.w3 0 16) u = some x →
    (otherSites x).find? (fun j => (sitePal x j u).any fun p => palSender p sender u) = some j → sitePal x j u = some p →
    palLink p u = some k → u.passes.countP (fun q => q.admitted) < 16384 →
    (it.w1 = 0 ∨ ∃ d ∈ x.ledger, it.w1.toNat ≤ d.round ∧ d.round ≤ it.w2.toNat ∧ d.bytes ≠ []) →
    Completes (.roundPullReceive l it sender) s fun t => t.nextPass = u.nextPass + 1 ∧ t.memory = s.memory ∧
      ∃ q ∈ t.passes, q.id = u.nextPass ∧ q.admitted = true ∧ q.round = some it.w1.toNat ∧ q.links = [k] ∧ q.root = x.num ∧ q.outstanding ≠ []) ∧
  (∀ (l : Fin 36) (sender : Word) (group : BitVec 16) (rec' : List Byte) (s : State) (x : Region) (p : Pal), (linkOf l s).state = 3 →
    (∀ y ∈ s.regions, y.joining = none) → s.regions.find? (fun x => x.group == group.toNat &&
      ((bindingOf x.binding s).map fun b => b.lbase + x.firstParam) == some (wordAt rec' 2 % 2 ^ 48)) = some x → regionOf x.num s = some x →
    let d := parseDiff x rec'
    sitePal x (wordAt rec' 1 % 8) s = some p → d.site ≠ x.site → palSender p sender s = true → recordOk' x rec' = true → d.site < x.sites →
    x.roundFinal < d.round → heldRec x d.round d.site = none →
    (∀ c : W32 × W32 × W32, tget? x.lrMu d.round = some c → c.2.2 = BitVec.ofNat 32 (leNat ((rec'.drop 32).take 4))) →
    (d.empty = true ∨ judgeNorm p.norms (diffNorm d.chunks) = some none) →
    Completes (.differenceReceive l sender group rec') s fun t => (∃ q : Pal, palOf p.id t = some q ∧ q.rejected = 0) ∧
      ∃ y : Region, regionOf x.num t = some y ∧ (d.round, d.site) ∉ y.unreachFor ∧
        (atBoundary x s = false → (spillBytes { x with
          ledger := (x.ledger ++ [d]).filter fun e => decide (x.roundFinal < e.round + x.driftRounds) }).length ≤ x.ledgerBytes → d ∈ y.ledger)) ∧
  (∀ (num : Nat) (s : State) (x : Region), regionOf num s = some x → atBoundary x s = true → x.openId = none →
    finalTo x (x.roundMerged - x.roundFinal) x.roundFinal = x.roundFinal → Completes (.roundMerge num) s fun t =>
      ∃ y : Region, regionOf num t = some y ∧ y.roundSent = x.roundSent ∧
        (x.roundMerged < x.roundSent ∧ mergeReady x (x.roundMerged + 1) s = true → x.roundMerged + 1 ≤ y.roundMerged ∧ y.roundMerged ≤ x.roundSent) ∧
        (x.roundSent ≤ x.roundMerged ∨ mergeReady x (x.roundMerged + 1) s = false → y = x)) ∧
  (∀ (num : Nat) (site : Fin 8) (s : State) (x : Region) (t0 : Word), regionOf num s = some x → roundHoldSince x.group s = some t0 →
    site.val ≠ x.site → siteReach x site s = true → 1000000000 * x.roundWaitS ≤ nsSince t0 (mono s) →
    Completes (.roundWaitTimeout num site) s fun t => { t with regions := s.regions } = s ∧ ∃ y : Region, regionOf num t = some y ∧
      (∀ k : Nat, x.roundMerged < k → k ≤ x.roundSent - ((x.pals.filterMap fun p => (palOf p s).map fun q => q.staleness).min?).getD 0 →
        heldRec x k site = none → (k, site.val) ∈ y.unreachFor) ∧ { y with unreachFor := x.unreachFor } = x) ∧
  (∀ (pal : BitVec 16) (s : State) (p : Pal) (t0 : Word), palOf pal.toNat s = some p → p.reachable = true → p.lastState = some t0 →
    1000000000 ≤ nsSince t0 (mono s) → Completes (.palUnreachableTimeout pal) s fun t =>
      palOf pal.toNat t = some { p with reachable := false })

/-! ## Deskmates (chapter 14) -/

/-- Deskmates: a heartbeat is sent every 100 us and noted as heard; 1 ms of silence asks a witness for takeover, who answers by what it has
heard; a refusal degrades the pair, a grant dissolves it with the ranks taken; moved ranks are recorded; the partner's records are
mirrored, its acknowledgments let records go; redone contributions, repairs and digests are answered. -/
def Obligations.DeskmatesKeepEachOther : Prop :=
  (∀ (l : Fin 36) (s : State),
    let i := if l.val = 18 then 1 else 0
    s.mate.formed = true → (l.val = 0 ∨ l.val = 18) → (linkOf l s).state = 3 → 100000 ≤ nsSince (vget s.mate.sentBeat i 0) (mono s) →
    Completes (.heartbeatSend l) s fun t => { t with links := s.links, mate := s.mate } = s ∧ vget t.mate.sentBeat i 0 = mono s ∧
      (∀ j : Nat, j ≠ l.val → linkOf j t = linkOf j s) ∧ ∃ it : Item, linkOf l t = { linkOf l s with control := (linkOf l s).control ++ [it] } ∧
        itemKind it = 0x13 ∧ it.w2 = s.time.dtime) ∧
  (∀ (l : Fin 36) (it : Item) (s u : State), Policed l it 0x13 s u → s.mate.partner = some (linkOf l s).partner → (l.val = 0 ∨ l.val = 18) →
    Completes (.heartbeatReceive l it) s fun t => { t with mate := s.mate } = u ∧
      vget t.mate.lastBeat (if l.val = 18 then 1 else 0) none = some (mono s) ∧ { t.mate with lastBeat := s.mate.lastBeat } = s.mate) ∧
  (∀ (s : State) (w m : Word) (l : Nat), s.mate.partner = some w → s.mate.formed = true → s.mate.degraded = false → s.mate.takeoverAsked = false →
    beatsLost s = true → (∀ x ∈ s.mod.leaving, x.1 ≠ w) → s.groups.findSome? (fun g => witness g w s) = some m → linkTo m s = some l →
    Completes .heartbeatTimeout s fun t => t.mate = { s.mate with takeoverAsked := true } ∧ { t with links := s.links, mate := s.mate } = s ∧
      ∃ it : Item, (linkOf l t).control = (linkOf l s).control ++ [it] ∧ itemKind it = 0x14 ∧ it.w1 = w) ∧
  (∀ (l : Fin 36) (it : Item) (s u : State), Policed l it 0x14 s u → Completes (.takeoverRequestReceive l it) s fun t => OnlyLink l u t ∧
    linkOf l t = { linkOf l u with control := (linkOf l u).control ++ [mkItem 0x15 0 it.w1 (if heardOf it.w1 u then 0 else 1) 0 0 0] }) ∧
  (∀ (l : Fin 36) (it : Item) (s u : State), Policed l it 0x15 s u → s.mate.takeoverAsked = true → s.mate.partner = some it.w1 →
    s.mate.dissolving = none → (bitOf it.w2 0 = false → ∀ g ∈ s.groups, g.ackSeq = none) → Completes (.takeoverReplyReceive l it) s fun t => t.mate.takeoverAsked = false ∧ t.mate.unacked = [] ∧
      (bitOf it.w2 0 = true → t.mate.formed = false ∧ ∀ g ∈ s.groups, ∀ r : Nat, rankOf g it.w1 = some r →
        groupOf g.id s = some g → (g.id, r) ∈ t.mate.takenOver) ∧
      (bitOf it.w2 0 = false → t.mate.degraded = true ∧ t.mate.formed = s.mate.formed ∧ t.devFlags.getLsbD 18 = true)) ∧
  (∀ (l : Fin 36) (it : Item) (s u : State) (g : Group), Policed l it 0x16 s u → groupOf (fieldNat it.w1 0 16) u = some g →
    let r := fieldNat it.w1 16 14
    r ≠ g.rank → r < groupN g → rankHolder g r ≠ it.w2 → Completes (.rankMovedReceive l it) s fun t => t.memory = s.memory ∧
      ∃ h : Group, groupOf g.id t = some h ∧ (r, it.w2) ∈ h.holders ∧ (∀ x ∈ h.holders, x.1 = r → x.2 = it.w2) ∧ r ∈ h.absent ∧
        h.open' = g.open' ∧ h.lastStep = g.lastStep) ∧
  (∀ (l : Fin 36) (sg : Segment) (s : State) (r : JRec),
    let k := linkOf l s
    let i := if l.val = 18 then 1 else 0
    k.state = 3 → k.crypto = true → tagOk k sg.keyId sg.w5 (segAad sg ++ sg.data) [] sg.tag = true → nonceFresh k sg.keyId sg.w5 = true →
    segFormOk sg = true → bitOf sg.w0 4 = false → sgColl sg = 6 → (l.val = 0 ∨ l.val = 18) → s.mate.partner = some k.partner → sgElement sg = 0 →
    mirroring s = true → s.mate.repairing = [] → parseRecs (sg.data.length / 64 + 1) sg.data = ([r], []) → r.journal < 24 → r.kind ≠ 6 →
    mirrorHas r.journal r.seq s.mate = false → Completes (.mirrorRecordReceive l sg) s fun t => mirrorHas r.journal r.seq t.mate = true ∧
      (r.kind = 5 → t.mate.mirrorStep = r.step ∧ t.mate.mirrorCrc = r.postCrc) ∧ vget t.mate.parts i [0] = [] ∧
      ∃ it ∈ (linkOf l t).control, itemKind it = 0x12 ∧ it.w1 = BitVec.ofNat 64 r.journal) ∧
  (∀ (l : Fin 36) (it : Item) (s u : State), Policed l it 0x12 s u → s.mate.partner = some (linkOf l s).partner → fieldNat it.w1 0 5 < 24 →
    (∀ g ∈ s.groups, g.ackSeq = none) → Completes (.mirrorAckReceive l it) s fun t =>
      (∃ n : Nat, vget t.mate.ackedSeq (fieldNat it.w1 0 5) none = some n ∧ it.w2.toNat ≤ n) ∧
      (∀ x ∈ s.mate.unacked, x ∈ t.mate.unacked ∨ (x.journal = fieldNat it.w1 0 5 ∧ x.seq ≤ it.w2.toNat)) ∧ t.groups = s.groups) ∧
  (∀ (l : Fin 36) (it : Item) (s u : State) (g : Group) (x : Nat × Nat × Nat × Nat × Nat), Policed l it 0x17 s u →
    groupOf (fieldNat it.w1 0 16) u = some g → g.open' = some it.w2 →
    g.stepSrc.find? (fun x => x.1 % 2 ^ 48 == fieldNat it.w1 16 48) = some x → Completes (.redoRequestReceive l it) s fun t =>
      let first := x.2.2.2.2 * fieldNat it.w3 0 48
      let data := vaRead x.2.1 (x.2.2.1 + first) (min (x.2.2.2.2 * fieldNat it.w4 0 48) (x.2.2.2.1 - first)) u
      t.memory = s.memory ∧ ∀ y ∈ mateSegs it.w2 data s.time.dtime, y ∈ (linkOf l t).egress) ∧
  (∀ (l : Fin 36) (it : Item) (s u : State) (b : Binding), Policed l it 0x18 s u → bindingOf (fieldNat it.w1 0 16) u = some b →
    let seg := fieldNat it.w1 16 48
    let mine := segDigest b seg u == wordBytes it.w2 ++ wordBytes it.w3 ++ wordBytes it.w4 ++ wordBytes it.w5
    Completes (.digestReceive l it) s fun t => (mine = true → t = u) ∧
      (mine = false → t.memory = s.memory ∧ ∀ j : Nat, j < 64 → 64 * seg + j < stripeCount b →
        (b.num, b.lbase + 1024 * (64 * seg + j)) ∈ t.mate.repairing ∧ ∃ q ∈ (linkOf l t).control, itemKind q = 0x19 ∧
          q.w2 = BitVec.ofNat 64 (b.lbase + 1024 * (64 * seg + j)))) ∧
  (∀ (l : Fin 36) (it : Item) (s u : State) (bs : List Byte), Policed l it 0x19 s u →
    let b := fieldNat it.w1 0 16
    let n := fieldNat it.w2 0 48
    copyBytes b n u = some bs → Completes (.repairRequestReceive l it) s fun t => t.memory = s.memory ∧ t.nmu = s.nmu ∧
      ∀ y ∈ mateSegs it.w3 (recBytes { kind := 7, journal := 0, step := it.w3, binding := b, mirror := false, unit := n, seq := 0
                                       postCrc := crc64 bs, chain := 0, payload := bs }) s.time.dtime, y ∈ (linkOf l t).egress)

/-! ## Stacks and the channel map (chapter 10) -/

/-- A channel for which a cause of Table 10-4 holds leaves service; a slot's move ends with the entry naming its target, and the old place
waits for every copy of the map; a stack retrains, whole where spares allow and else channel by channel, and its channels' training is
renewed; a parked stack returns. An uncorrectable burst is held until its block is rebuilt or poisoned; a repair line takes a spare. A
lost stack is unpowered and mapped out, and a temperature sample gives the level of Table 10-7. The fast tier's bytes stay in all that
rebuilds nothing. -/
def Obligations.StacksAndTheChannelMap : Prop :=
  (∀ (ch : Fin 384) (cause : Fin 8) (s : State), (memChanOf ch s).out = false → causeHolds ch cause s = true →
    Completes (.channelMapOut ch cause) s fun t => (memChanOf ch t).out = true ∧ ch.val ∈ t.flash.channelOut ∧ t.devFlags.getLsbD 7 = true ∧
      (∃ e ∈ t.card.events, e.code = 0x31) ∧ t.memory.fast = s.memory.fast ∧ ∀ d : Nat, d ≠ ch.val → memChanOf d t = memChanOf d s) ∧
  (∀ (slot : Fin 4096) (s : State) (x : Nat × Nat), s.memory.moving.find? (fun x => x.1 == slot.val) = some x → (mapEntry slot s).state = 1 →
    let e := mapEntry slot s
    Completes (.slotMoveDone slot) s fun t => t.memory.fast = s.memory.fast ∧ (mapEntry slot t).channel = e.targetChannel ∧
      (mapEntry slot t).position = e.targetPosition ∧ (slot.val, e.channel, e.position) ∈ t.memory.acks ∧
      (mapEntry slot t).homeChannel = if x.2 = 2 ∨ x.2 = 3 then e.homeChannel else e.targetChannel) ∧
  (∀ (slot : Fin 4096) (s : State), Completes (.mapChangeAcked slot) s fun t =>
    { t with memory := { t.memory with acks := s.memory.acks } } = s ∧ ∀ a : Nat × Nat × Nat, a ∈ t.memory.acks ↔ a ∈ s.memory.acks ∧ a.1 ≠ slot.val) ∧
  (∀ (m : Fin 24) (s : State) (i : Instr), (vget s.memory.stk m {}).level < 4 → anyRetrain s = false →
    ((∃ t0 : Word, (vget s.memory.stk m {}).driftSince = some t0 ∧ 10000000000 ≤ nsSince t0 (now s) ∧ i = .stackRetrainPark m) ∨
      (∃ p : Port, RegistersAnswer p s ∧ s.memory.moving = [] ∧ i = .memCtrlRetrain p (m.castLE (by decide)))) →
    let whole := (slotsOf m s).length ≤ sparesFor m s
    let left := if whole then slotsOf m s else slotsAt (16 * m) s
    Completes i s fun t => t.memory.fast = s.memory.fast ∧
      (vget t.memory.stk m {}).retraining = (if whole then 0 else 16) + (if left = [] then 2 else 1) ∧
      ∀ j : Nat, j ≠ m.val → vget t.memory.stk j {} = vget s.memory.stk j {}) ∧
  (∀ (m : Fin 24) (s : State),
    let k := vget s.memory.stk m {}
    k.retraining % 4 = 2 → Completes (.stackRetrainDone m) s fun t => t.memory.fast = s.memory.fast ∧
      (vget t.memory.stk m {}).driftSince = none ∧ ∀ c ∈ retrainChans m k.retraining,
        tget? t.flash.trainTemp c = some k.temp.toNat ∧ (memChanOf c t).trainFails = 0) ∧
  (∀ (m : Fin 24) (s : State) (t0 : Word),
    let k := vget s.memory.stk m {}
    k.parkedAt = some t0 → k.parkedPolicy = true → 60000000000 ≤ nsSince t0 (now s) → k.retraining = 0 → k.level < 4 →
    Completes (.parkReturn m) s fun t => t.memory.fast = s.memory.fast ∧
      (∃ d ∈ t.card.decisions, d.setting = 5 ∧ d.subject = m.val ∧ d.old = 1 ∧ d.new = 0 ∧ d.applied = policyAllows 5 0xFFFF s) ∧
      (policyAllows 5 0xFFFF s = true → (vget t.memory.stk m {}).parkedPolicy = false) ∧
      (policyAllows 5 0xFFFF s = false → { t with card := s.card } = s)) ∧
  (∀ (fastAddr : Nat) (s : State),
    let ch := channelOfFast fastAddr s
    fastAddr < frameCapacity s.flash.variant * pageBytes → 3 ≤ s.mod.stage.toNat → s.mod.stage.toNat ≤ 7 → ch < 384 →
    Completes (.memUncorrectable fastAddr) s fun t => fastAddr / 64 * 64 ∈ t.memory.pendingErr ∧ t.memory.fast = s.memory.fast ∧
      t.devFlags.getLsbD 6 = true ∧ (∃ e ∈ t.card.events, e.code = 0x30) ∧
      (vget t.memory.stk (ch / 16) {}).uncorrectable = (vget s.memory.stk (ch / 16) {}).uncorrectable + 1) ∧
  (∀ (ch : Fin 384) (line : Nat) (s : State), (memChanOf ch s).out = false → (memChanOf ch s).sparesUsed < spareLines s.flash.variant →
    line < channelGib s.flash.variant * 524288 → Completes (.repairLineReplace ch line) s fun t =>
      { t with memory := s.memory } = s ∧ t.memory.fast = s.memory.fast ∧ (memChanOf ch t).sparesUsed = (memChanOf ch s).sparesUsed + 1 ∧
      (∀ d : Nat, d ≠ ch.val → memChanOf d t = memChanOf d s) ∧
      (vget t.memory.stk (ch / 16) {}).laneCorrected = (vget s.memory.stk (ch / 16) {}).laneCorrected + 2) ∧
  (∀ (fastAddr : Nat) (s : State),
    let b := fastAddr / 64 * 64
    b ∈ s.memory.pendingErr → (∀ u ∈ s.runs, u.begun = false) → Completes (.dataRebuildDone fastAddr) s fun t => b ∉ t.memory.pendingErr ∧
      ∀ slot va : Nat, mappedAt b s = some (slot, va) → pageRebuilt slot va s = false → b ∈ (memChanOf (channelOfFast b s) t).poison ∧
        t.memory.fast = s.memory.fast) ∧
  (∀ (m : Fin 24) (s : State), (vget s.memory.stk m {}).powered = true → Completes (.memorySideDieLost m) s fun t =>
    (vget t.memory.stk m {}).powered = false ∧ (vget t.memory.stk m {}).level = 5 ∧ (seqOf (.mem m) t).running = false ∧
      ∀ k : Nat, k < 16 → (memChanOf (16 * m + k) t).out = true) ∧
  (∀ (m : Fin 24) (celsius : BitVec 8) (s : State), (vget s.memory.stk m {}).powered = true →
    let old := (vget s.memory.stk m {}).level
    let c := celsius.toNat
    Completes (.stackTempSample m celsius) s fun t => (vget t.memory.stk m {}).temp = celsius ∧
      (vget t.memory.stk m {}).powered = decide (c < 105) ∧ (c < 105 → t.memory.fast = s.memory.fast) ∧
      (vget t.memory.stk m {}).level = if 105 ≤ c then 6 else if 4 ≤ old then old
        else if 100 ≤ c then (if slotsOf m s = [] then 5 else 4) else throttleAt old c)

/-! ## Starts, bring-up, offline (chapters 15 and 19) -/

/-- The module goes offline when a die's clock or its input is lost, or at a thermal trip, and what was lost and returns within 1 s starts
it warm; a return of the input after longer, MOD_RESET_N and a keyed cold reset start it cold, unless a trip is still hot; a keyed warm
reset is held while a step is open, at most 10 s, and then starts it warm after LEAVING has gone to every partner. -/
def Obligations.OfflineAndStarts : Prop :=
  ∀ s : State,
    (s.mod.offline = false → Completes .moduleOffline s (Offline 5 true s)) ∧
    (s.mod.inputInRange = true → Completes .inputOutOfRange s fun t => t.mod.inputInRange = false ∧ t.mod.pwrGood = false ∧
      t.mod.inputLostTick = s.time.ticks ∧ t.mod.offline = true ∧ (s.mod.offline = false → Offline 5 true s t) ∧
      (s.mod.offline = true → { t with mod := s.mod } = s)) ∧
    (s.mod.inputInRange = false → 50000000 ≤ sinceTick s.mod.inputLostTick s → Completes .holdUpExhausted s fun t =>
      { t with mod := s.mod } = s ∧ t.mod.holdUpExhausted = true ∧ t.mod.stackPower = false) ∧
    (s.mod.inputInRange = false →
      (s.mod.thermTrip = false → (s.mod.recoverable = false ∨ 1000000000 < sinceTick s.mod.inputLostTick s) →
        Completes .inputInRange s (ColdStarted 0 0 s)) ∧
      (s.mod.thermTrip = true → s.mod.tripCooled = true → Completes .inputInRange s (ColdStarted 0 0 s)) ∧
      (s.mod.thermTrip = true → s.mod.tripCooled = false → Completes .inputInRange s fun t =>
        { t with mod := s.mod } = s ∧ t.mod.inputInRange = true ∧ t.mod.stage = s.mod.stage) ∧
      (s.mod.thermTrip = false → s.mod.recoverable = true → sinceTick s.mod.inputLostTick s ≤ 1000000000 → Completes .inputInRange s fun t =>
        { t with mod := s.mod } = s ∧ t.mod.inputInRange = true ∧ t.mod.stage = s.mod.stage)) ∧
    (s.mod.inputInRange = true → (s.mod.thermTrip = true → s.mod.tripCooled = true) → Completes .modResetNLow s (ColdStarted 1 0 s)) ∧
    (∀ p : Port, (portOf p s).fenced = false →
      (s.mod.thermTrip = false → Completes (.resetCtrlCold p 0x5A17 false) s (ColdStarted 2 0 s)) ∧
      (∀ key : BitVec 16, key ≠ 0x5A17 → Completes (.resetCtrlCold p key false) s fun t => t = accessed p s) ∧
      (s.mod.stage = 7 → s.mod.warmHold = none → Completes (.resetCtrlWarm p 0x5A17 false) s fun t =>
        { t with mod := s.mod } = accessed p s ∧ t.mod = { s.mod with warmHold := some (mono s) })) ∧
    (∀ t0 : Word, s.mod.warmHold = some t0 → ((∀ g ∈ s.groups, g.open' = none) ∨ 10000000000 ≤ nsSince t0 (mono s)) →
      Completes .warmHoldEnd s fun t => WarmStarted 3 s t ∧ t.flash.cleanStop = true ∧ ∀ l : Nat, l < 36 → (linkOf l s).state = 3 →
        ∃ it : Item, (linkOf l t).control = (linkOf l s).control ++ [it] ∧ itemKind it = 0x31 ∧ it.w1 = s.mod.identity) ∧
    (∀ (t0 : Word) (g : Group), s.mod.warmHold = some t0 → g ∈ s.groups → g.open'.isSome = true → nsSince t0 (mono s) < 10000000000 →
      Completes .warmHoldEnd s fun t => t = s) ∧
    (s.mod.offline = true → s.mod.recoverable = true → s.mod.inputInRange = true → sinceTick s.mod.offlineTick s ≤ 1000000000 →
      Completes .recoveryWarmStart s (WarmStarted 4 s)) ∧
    (s.mod.offline = true → 1000000000 ≤ sinceTick s.mod.offlineTick s → Completes .offlineRecoveryTimeout s fun t =>
      { t with mod := s.mod } = s ∧ t.mod = { s.mod with recoverable := false }) ∧
    (∀ (sensor : Fin 10) (celsius : Int), s.mod.thermTrip = false →
      ((2 ≤ sensor.val ∧ sensor.val ≤ 7 ∧ 110 ≤ celsius) ∨ (sensor.val = 9 ∧ 125 ≤ celsius)) → Completes (.thermalTrip sensor celsius) s fun t =>
        t.mod.thermTrip = true ∧ t.mod.tripCooled = false ∧ t.mod.pwrGood = false ∧ t.mod.stackPower = false ∧
        (s.mod.offline = false → Offline 5 false s t) ∧ (s.mod.offline = true → { t with mod := s.mod } = s ∧ t.mod.recoverable = false)) ∧
    (s.mod.thermTrip = true → Completes .tripSensorsCooled s fun t => { t with mod := s.mod } = s ∧ t.mod = { s.mod with tripCooled := true })

/-- Bring-up goes from stage to stage: power; a firmware slot that verifies with a version not below MIN_SVN and the identity, or offline
with the cause; clocks, with DTIME's one step at a cold start; memory, cleared with untrained channels out at a cold start, kept with
open steps rolled back at a warm one, which turns cold where a condition fails; links, those below Authenticating judged absent; cores;
and roll call's pass, which makes the module ready. -/
def Obligations.StagesOfBringUp : Prop :=
  ∀ s : State,
    (s.mod.stage = 0 → s.mod.inputInRange = true → s.mod.thermTrip = false → Completes .stagePower s fun t =>
      t.mod.stage = 1 ∧ t.mod.pwrGood = true ∧ SameMemory s t ∧ t.slots = s.slots ∧ t.groups = s.groups ∧
        (s.mod.warm = true → ∀ l : Nat, (linkOf l t).state = 0) ∧ (s.mod.warm = false → { t with mod := s.mod } = s)) ∧
    (s.mod.stage = 1 →
      ((s.flash.helperOk = false ∨ s.flash.identityRecordOk = false) → Completes .stageFirmware s (Offline 1 false s)) ∧
      (s.flash.helperOk = true → s.flash.identityRecordOk = true →
        (fwGood false s = false → fwGood true s = false → Completes .stageFirmware s fun t => t.mod.stage = 8 ∧ t.mod.failCause = 1) ∧
        (fwGood false s = true ∨ fwGood true s = true →
          (s.flash.variantOk = false → Completes .stageFirmware s fun t => t.mod.stage = 8 ∧ t.mod.failCause = 2) ∧
          (s.flash.variantOk = true → Completes .stageFirmware s fun t => t.mod.stage = 2 ∧ SameMemory s t ∧
            t.mod.identity = identityOf (s.flash.identityRecord.take 1793) ∧ fwGood t.mod.fwRunningB s = true ∧
            t.mod.fwMeasure = (fwSlot t.mod.fwRunningB s).digest ∧
            (s.flash.tryB = none → fwGood s.flash.activeB s = true → t.mod.fwRunningB = s.flash.activeB ∧ t.flash = s.flash) ∧
            (∀ b : Bool, s.flash.tryB = some b → s.flash.tryCount = 0 → fwGood b s = true →
              t.mod.fwRunningB = b ∧ t.flash = { s.flash with tryCount := 1 }) ∧
            (∀ b : Bool, s.flash.tryB = some b → s.flash.tryCount ≠ 0 → fwGood s.flash.activeB s = true →
              t.mod.fwRunningB = s.flash.activeB ∧ t.flash = { s.flash with tryB := none } ∧ t.devFlags.getLsbD 25 = true))))) ∧
    (s.mod.stage = 2 → ∀ ptpTime : Option Word, Completes (.stageClocks ptpTime) s fun t => t.mod.stage = 3 ∧
      t.time.clkLock = BitVec.allOnes 31 ∧ SameMemory s t ∧ (s.mod.warm = true → t.time.dtime = s.time.dtime) ∧
      (s.mod.warm = false → t.time.firstLock = true ∧ (∀ x : Word, ptpTime = some x → t.time.dtime = x ∧ t.time.timeLocked = true) ∧
        (ptpTime = none → t.time.dtime = s.flash.lastDtime + 1000000000 ∧ t.devFlags.getLsbD 23 = true))) ∧
    (s.mod.stage = 3 → ∀ trained : BitVec 384,
      (s.mod.warm = false →
        (stackDead trained = true → Completes (.stageMemory trained) s (Offline 4 false s)) ∧
        (stackDead trained = false → Completes (.stageMemory trained) s fun t => t.mod.stage = 4 ∧ t.memory.fast = [] ∧
          ∀ c : Nat, c < 384 → trained.getLsbD c = false → c ∈ t.flash.channelOut ∧ (memChanOf c t).out = true)) ∧
      (s.mod.warm = true →
        (coldReasons s ≠ 0 → Completes (.stageMemory trained) s (ColdStarted 5 (coldReasons s) s)) ∧
        (coldReasons s = 0 → Completes (.stageMemory trained) s fun t => t.mod.stage = 4 ∧ t.flash.cleanStop = false ∧ t.nmu.misses = [] ∧
          ∀ g ∈ t.groups, g.open' = none))) ∧
    (s.mod.stage = 4 → Completes .stageLinks s fun t => t.mod.stage = 5 ∧ SameMemory s t ∧ ∀ l : Nat, l < 36 → linkInMask l s = true →
      (linkOf l s).state < 2 → s.flash.topology.isSome = true → (linkOf l t).rollJudged = true ∧ (linkOf l t).rollOutcome = 4) ∧
    (s.mod.stage = 5 → ∀ good : BitVec 192, Completes (.stageCores good) s fun t => t.mod.stage = 6 ∧ t.mod.topologyWait = s.flash.topology.isNone ∧
      (s.mod.warm = true → (∀ x ∈ s.flash.physOf, good.getLsbD x.2 = true) → SameMemory s t ∧ t.flash = s.flash) ∧
      (s.mod.warm = false → SameMemory s t ∧ (∀ p : Nat, p < 192 → tgetD t.flash.coreStatus p 0 = if good.getLsbD p then 0 else 2) ∧
        ∀ c : Nat, tget? t.flash.physOf c = (assignCores good s.flash.variant)[c]?)) ∧
    (s.mod.stage = 6 → rollPasses s = true → Completes .rollCallPass s fun t => t.mod.stage = 7 ∧ t.mod.ready = true ∧
      t.devFlags.getLsbD 0 = true ∧ t.flash.lastDtime = now s)

/-! ## Time and telemetry (chapters 18 and 19) -/

/-- A PPS edge is captured, and one that fits, or the third of a new phase, compares DTIME, as does a time message of the domain where its
source is chosen; DTIME itself only slews. A source lost for 1.5 s is holdover, 60 s of it end TIME_LOCKED. TIME_CTRL keeps its source
on a 3, the inputs' presence is noted, and the SMBus commands answer while the reset controller is up, sensors with free bytes. -/
def Obligations.TimeAndTelemetry : Prop :=
  ∀ s : State,
    let x := s.time
    let compared := fun (src : BitVec 2) (off : Int) (y : TimeSt) => y.source = src ∧ y.offset = off ∧ y.slewLeft = -off ∧
      (y.timeLocked = true ↔ off.natAbs ≤ 1000) ∧ y.holdoverSince = none ∧ y.lastSourceAt = mono s
    (Completes .ppsEdge s fun t => { t with time := x } = s ∧ t.time.ppsCapture = x.dtime ∧ t.time.ppsPresent = true ∧ t.time.dtime = x.dtime ∧
      (let fits := x.lastPps = none ∨ (∃ a : Word, x.lastPps = some a ∧ oneSecond a (mono s) = true) ∨
        (x.ignoredPps = 2 ∧ ∃ b : Word, x.lastIgnored = some b ∧ oneSecond b (mono s) = true)
       (fits → t.time.lastPps = some (mono s) ∧ t.time.ignoredPps = 0 ∧
         (x.firstLock = true → x.sourceSel ≠ 2 → compared 1 (ppsOffset x.dtime) t.time)) ∧
       (¬ fits → x.ignoredPps < 2 → t.time.lastPps = x.lastPps ∧ t.time.offset = x.offset ∧ t.time.source = x.source ∧
         t.time.lastIgnored = some (mono s)))) ∧
    (∀ (domain : BitVec 8) (sync : Bool) (off : Int),
      (sync = false ∨ domain ≠ x.ptpDomain → Completes (.ptpMessage domain sync off) s fun t => t = s) ∧
      (sync = true → domain = x.ptpDomain → Completes (.ptpMessage domain sync off) s fun t => { t with time := x } = s ∧
        t.time.lastPtp = some (mono s) ∧ t.time.dtime = x.dtime ∧
        (x.firstLock = true → (x.sourceSel = 2 ∨ (x.sourceSel = 0 ∧ x.ppsPresent = false)) → compared 2 off t.time) ∧
        ((x.firstLock = false ∨ x.sourceSel = 1) → t.time = { x with lastPtp := some (mono s) }))) ∧
    (x.firstLock = true → x.source ≠ 3 → 1500000000 ≤ nsSince x.lastSourceAt (mono s) → Completes .timeSourceLoss s fun t =>
      t.time = { x with source := 3, holdoverSince := some (mono s) } ∧ t.devFlags.getLsbD 24 = true ∧ OnlyFlags s { t with time := x }) ∧
    (∀ t0 : Word, x.holdoverSince = some t0 → x.source = 3 → 60000000000 ≤ nsSince t0 (mono s) → Completes .holdoverExpiry s fun t =>
      { t with time := x } = s ∧ t.time = { x with timeLocked := false }) ∧
    (∀ (p : Port) (value : Word), RegistersAnswer p s → Completes (.timeCtrlWrite p value) s fun t =>
      { t with time := x } = accessed p s ∧ t.time.sourceSel = (if fieldNat value 0 2 = 3 then x.sourceSel else BitVec.ofNat 2 (fieldNat value 0 2)) ∧
      t.time.ptpDomain = BitVec.ofNat 8 (fieldNat value 8 8) ∧ t.time.dtime = x.dtime) ∧
    (x.ppsPresent = true → heardLately (lastEdge x) s = false → Completes .ppsPresentLost s fun t => { t with time := x } = s ∧
      t.time.ppsPresent = false ∧ t.time.dtime = x.dtime ∧
      t.time.source = if x.source = 1 ∧ x.sourceSel ≠ 1 ∧ heardLately x.lastPtp s = true then 2 else x.source) ∧
    (∀ present : Bool, Completes (.ref10PresentChange present) s fun t => { t with time := x } = s ∧
      t.time = { x with ref10Present := present, oscDisciplined := present }) ∧
    (smbUp s = true →
      (∀ i : Instr, (i = .vin ∨ i = .iin ∨ i = .pin) → Completes i s fun t => t.mod.smbResponse.length = 2 ∧ s.free ≤ t.free ∧
        { t with free := s.free, mod := { t.mod with smbResponse := s.mod.smbResponse } } = s) ∧
      (Completes .temps s fun t => t.mod.smbResponse.length = 10 ∧ t.mod.smbResponse[8]? = some (BitVec.ofNat 8 (hottestStack s)) ∧
        s.free ≤ t.free ∧ { t with free := s.free, mod := { t.mod with smbResponse := s.mod.smbResponse } } = s) ∧
      (Completes .status s fun t => { t with mod := s.mod } = s ∧
        t.mod = { s.mod with statusUnread := false, smbResponse := leBytes 2 (statusWord s) }) ∧
      (Completes .identity s fun t => { t with mod := s.mod } = s ∧
        t.mod = { s.mod with smbResponse := wordBytes (if identified s then s.mod.identity else 0) })) ∧
    (smbUp s = false → ∀ i : Instr, (i = .vin ∨ i = .iin ∨ i = .pin ∨ i = .temps ∨ i = .status ∨ i = .identity) →
      Completes i s fun t => t.mod = s.mod)

/-! ## Security mailboxes (chapter 16) -/

/-- A GO latches MBX_CMD and its request: a command of another length ends with BAD_REQUEST, a firmware command takes the shared engine or
ends BUSY, and the others have their answer at once; while BUSY it is discarded and flagged. A result gives RESULT, response and DONE:
FW_CONFIRM raises MIN_SVN, FW_ACTIVATE sets TRY, FW_STAGE leaves a verified image in the spare slot. Clears spare what is set at once. -/
def Obligations.SecurityMailboxes : Prop :=
  (∀ (p : Port) (s : State) (op : BitVec 8) (i : Instr), RegistersAnswer p s →
    ((op = 1 ∧ i = .getIdentity p) ∨ (op = 2 ∧ i = .attest p) ∨ (op = 3 ∧ i = .fwStage p) ∨ (op = 4 ∧ i = .fwActivate p) ∨
      (op = 5 ∧ i = .fwConfirm p) ∨ (op = 6 ∧ i = .fwStatus p) ∨ (op = 7 ∧ i = .getLog p)) →
    let m := (portOf p s).mailbox
    let req := (List.range m.reqLength.toNat).map fun i => tgetD m.request i 0
    m.opcode = op →
    (m.busy = true → Completes i s fun t => (portOf p t).mailbox.flags = m.flags ||| 1 ∧ (portOf p t).mailbox.latched = m.latched ∧
      OnlyPort p s t) ∧
    (m.busy = false → Completes i s fun t => SameMemory s t ∧ t.flash = s.flash ∧ portOf (peerOf p) t = portOf (peerOf p) s ∧
      ∃ out : Option MbxAnswer,
        (portOf p t).mailbox = { m with
          busy := true, response := [], respLength := 0, latched := some (op, m.reqLength.toNat, m.tag, req), outcome := out } ∧
        (requestLength op.toNat ≠ some m.reqLength.toNat → out = some (mbxBadRequest, [])) ∧
        (requestLength op.toNat = some m.reqLength.toNat →
          ((op = 3 ∨ op = 4 ∨ op = 5) → (s.mod.fwBusyPort = none → out = none ∧ t.mod.fwBusyPort = some p) ∧
            (s.mod.fwBusyPort.isSome = true → out = some (mbxBusy, []) ∧ t.mod = s.mod)) ∧
          (op = 1 → out = some (mbxOk, wordBytes s.mod.identity ++ s.flash.identityRecord ++ staticKem.1)) ∧
          (op = 2 → ∃ sig : List Byte, out = some (mbxOk, attestReport p req s ++ sig)) ∧
          (op = 6 → out = some (answerFwStatus s).1) ∧ (op = 7 → out = some (answerLog p req s))))) ∧
  (∀ (p : Port) (s : State) (op : BitVec 8) (len : Nat) (tag : W32) (req : List Byte),
    let m := (portOf p s).mailbox
    m.latched = some (op, len, tag, req) → m.busy = true →
    let ends := fun (res : Nat) (resp : List Byte) (t : State) => (portOf p t).mailbox.busy = false ∧ (portOf p t).mailbox.done = true ∧
      (portOf p t).mailbox.result = BitVec.ofNat 8 res ∧ (portOf p t).mailbox.response = resp ∧ (portOf p t).mailbox.statusTag = tag ∧
      (portOf p t).mailbox.respLength = BitVec.ofNat 14 resp.length ∧ SameMemory s t ∧ t.slots = s.slots
    (∀ (res : Nat) (resp : List Byte), m.outcome = some (res, resp) → Completes (.mailboxResult p) s fun t => ends res resp t ∧ t.flash = s.flash) ∧
    (m.outcome = none → op = 5 → s.mod.ready = true → s.flash.tryB = some s.mod.fwRunningB →
      let v := max s.flash.minSvn.toNat (fwSlot s.mod.fwRunningB s).svn.toNat
      Completes (.mailboxResult p) s fun t => ends mbxOk (leBytes 2 v) t ∧ t.mod.fwBusyPort = none ∧ t.flash = { s.flash with
        activeB := s.mod.fwRunningB, tryB := none, tryCount := 0, minSvn := BitVec.ofNat 16 v, counterWrites := s.flash.counterWrites + 1 }) ∧
    (m.outcome = none → op = 5 → (s.mod.ready = false ∨ s.flash.tryB ≠ some s.mod.fwRunningB) → Completes (.mailboxResult p) s fun t =>
      ends mbxNotAllowed [] t ∧ t.flash = s.flash) ∧
    (∀ b : Bool, m.outcome = none → op = 4 → spareSlot s = some b →
      (fwGood b s = true → Completes (.mailboxResult p) s fun t => ends mbxOk [slotByte b] t ∧
        t.flash = { s.flash with tryB := some b, tryCount := 0 }) ∧
      (fwGood b s = false → Completes (.mailboxResult p) s fun t => ends mbxNotAllowed [] t ∧ t.flash = s.flash)) ∧
    (∀ b : Bool, m.outcome = none → op = 3 → spareSlot s = some b →
      let n := leNat (req.drop 8)
      let img := if (portOf p s).fenced = true ∨ 33554432 < n then [] else hostRead p (leNat (req.take 8)) n s
      (imageVerifies img = false → Completes (.mailboxResult p) s fun t => ends mbxSignatureBad [] t ∧ (fwSlot b t).valid = false ∧
        fwSlot (!b) t = fwSlot (!b) s ∧ t.flash.minSvn = s.flash.minSvn) ∧
      (imageVerifies img = true → imageSvn img < s.flash.minSvn.toNat → Completes (.mailboxResult p) s fun t => ends mbxSvnLow [] t ∧
        (fwSlot b t).valid = false ∧ fwSlot (!b) t = fwSlot (!b) s) ∧
      (imageVerifies img = true → s.flash.minSvn.toNat ≤ imageSvn img → Completes (.mailboxResult p) s fun t =>
        ends mbxOk (slotByte b :: leBytes 2 (imageSvn img)) t ∧ fwSlot (!b) t = fwSlot (!b) s ∧
        fwSlot b t = { valid := true, svn := BitVec.ofNat 16 (imageSvn img), digest := shake256 64 img })) ∧
    (m.outcome = none → (op = 3 ∨ op = 4) → spareSlot s = none → Completes (.mailboxResult p) s fun t =>
      ends mbxNotAllowed [] t ∧ t.flash = s.flash)) ∧
  (∀ (p : Port) (value : Word) (s : State), RegistersAnswer p s →
    let m := (portOf p s).mailbox
    (Completes (.mbxStatusClear p value false) s fun t => OnlyPort p s t ∧
      portOf p t = { portOf p s with latch := none, mailbox := { m with done := m.done && !value.getLsbD 1 } }) ∧
    (m.busy = true → m.latched.isSome = true → Completes (.mbxStatusClear p value true) s fun t => (portOf p t).mailbox.done = true)) ∧
  (∀ (p : Port) (value coincident : BitVec 4) (s : State), RegistersAnswer p s → Completes (.mbxFlagsClear p value coincident) s fun t =>
    OnlyPort p s t ∧ (portOf p t).mailbox.flags = ((portOf p s).mailbox.flags &&& ~~~ value) ||| coincident ∧
    ∀ i : Fin 4, (portOf p t).mailbox.counts[i] = (portOf p s).mailbox.counts[i] + if coincident.getLsbD i then 1 else 0)

/-! ## Registers and report cards (chapters 17 and 18) -/

/-- A read of BAR0 gives the bytes as they stand, or those a latch still holds, and latches the rest of a wider register; counters clear as
they are read, keeping what is counted at once. Flag clears keep what is set at once, enables send one message, BELL_ERROR is cleared by
its owner, RC_CFG changes the ring, SCRATCH and the other RW registers take what is written and RO ones nothing. The oldest card is
written to its ring, after a pad card where it would cross the end. -/
def Obligations.RegistersAndReportCards : Prop :=
  (∀ (p : Port) (off : BitVec 24) (size : Nat) (s : State),
    let o := off.toNat
    (regSize o size = false → Completes (.latchedRead p off size) s fun t => OnlyPort p s t ∧ (portOf p t).readData = 0 ∧ (portOf p t).latch = none) ∧
    (regSize o size = true → (portOf p s).latch = none → Completes (.latchedRead p off size) s fun t =>
      (portOf p t).readData = BitVec.ofNat 64 (bytesOf (regWord p (o / 8 * 8) s) (o % 8) size) ∧
      (portOf p t).latch = (if size < regExtent o then some (o + size, regExtent o - size, regWhole p o (regExtent o) s / 256 ^ size) else none) ∧
      t.memory.fast = s.memory.fast ∧ (portOf p t).mem = (portOf p s).mem ∧ t.slots = s.slots ∧ t.flash = s.flash ∧ t.devFlags = s.devFlags ∧
      portOf (peerOf p) t = portOf (peerOf p) s) ∧
    (∀ b n v : Nat, regSize o size = true → (portOf p s).latch = some (b, n, v) → b ≤ o → o + size ≤ b + n →
      Completes (.latchedRead p off size) s fun t => (portOf p t).readData = BitVec.ofNat 64 (bytesOf v (o - b) size) ∧
        t.memory.fast = s.memory.fast ∧ (portOf p t).mem = (portOf p s).mem)) ∧
  (∀ (p : Port) (m : Fin 24) (coincident : Word) (s : State), regionsUp s = true → (portOf p s).latch = none →
    let k := vget s.memory.stk m {}
    (Completes (.stackCountsRead p m 8 false coincident) s fun t => SameMemory s { t with memory := s.memory } ∧
      t.memory.fast = s.memory.fast ∧ (portOf p t).readData = BitVec.ofNat 64 (k.laneCorrected.toNat + k.uncorrectable.toNat * 2 ^ 32) ∧
      (vget t.memory.stk m {}).laneCorrected = coincident.setWidth 32 ∧ (vget t.memory.stk m {}).uncorrectable = (coincident >>> 32).setWidth 32) ∧
    (Completes (.stackCountsRead p m 4 true coincident) s fun t => (portOf p t).readData = k.uncorrectable.setWidth 64 ∧
      (vget t.memory.stk m {}).laneCorrected = k.laneCorrected + coincident.setWidth 32 ∧
      (vget t.memory.stk m {}).uncorrectable = (coincident >>> 32).setWidth 32)) ∧
  (∀ (p : Port) (whole : Bool) (coincident : BitVec 32) (s : State), regionsUp s = true →
    Completes (.rcDroppedRead p whole coincident) s fun t => OnlyPort p s t ∧ portOf p t = { portOf p s with
      latch := none, readData := (portOf p s).rcDropped.setWidth 64
      rcDropped := if whole then coincident else (portOf p s).rcDropped + coincident }) ∧
  (∀ (p : Port) (value coincident : BitVec 29) (s : State), RegistersAnswer p s → Completes (.devFlagsClear p value coincident) s fun t =>
    t.devFlags = (s.devFlags &&& ~~~ value) ||| coincident ∧ SameMemory s t ∧ t.slots = s.slots ∧ t.links = s.links ∧
    (∀ i : Fin 29, t.devCounts[i] = s.devCounts[i] + if coincident.getLsbD i then 1 else 0) ∧ (coincident = 0 → t.msix = s.msix)) ∧
  (∀ (p : Port) (value : BitVec 29) (s : State), RegistersAnswer p s →
    let q := portOf p s
    let fresh := value &&& ~~~ q.flagEnable &&& s.devFlags
    Completes (.flagEnableWrite p value) s fun t => (portOf p t).flagEnable = value ∧ t.devFlags = s.devFlags ∧ SameMemory s t ∧
      (fresh = 0 ∨ q.flagEn = false → { t with msix := s.msix } = modPort p (fun q => { q with latch := none, flagEnable := value }) s ∧ t.msix = s.msix) ∧
      (fresh ≠ 0 → q.flagEn = true → (tgetD q.msixTable (4 * q.flagVector.toNat + 3) 1).getLsbD 0 = false →
        t.msix = s.msix ++ [(p == .B, q.flagVector.toNat)])) ∧
  (∀ (p : Port) (slot : Fin 4096) (s : State), RegistersAnswer p s →
    (slotOwner slot s = some p → Completes (.chanBellClear p slot false) s fun t => OnlySlot slot (accessed p s) t ∧
      slotOf slot t = { slotOf slot s with bellError := false }) ∧
    (slotOwner slot s ≠ some p → Completes (.chanBellClear p slot false) s fun t => t = accessed p s) ∧
    (Completes (.chanBellClear p slot true) s fun t => (slotOf slot t).bellError = true ∧
      (slotOf slot t).bellCount = (slotOf slot s).bellCount + 1 ∧ t.devFlags.getLsbD 27 = true)) ∧
  (∀ (p : Port) (value : W32) (s : State), RegistersAnswer p s →
    let q := portOf p s
    let n := fieldNat value 0 5
    let on := value.getLsbD 5
    Completes (.rcCfgWrite p value) s fun t => OnlyPort p s t ∧ portOf p t = { q with
      latch := none, rcEnable := on, rcIrq := value.getLsbD 6, rcVector := BitVec.ofNat 11 (fieldNat value 16 11)
      rcLog2 := if q.rcEnable = false ∧ 16 ≤ n ∧ n ≤ 30 then BitVec.ofNat 5 n else q.rcLog2
      rcWrite := if on = true ∧ q.rcEnable = false then q.rcRead else q.rcWrite
      cards := if on = true then q.cards else [] }) ∧
  (∀ (p : Port) (off : BitVec 24) (size : Nat) (value : Word) (s : State), (portOf p s).fenced = true →
    Completes (.registerWrite p off size value) s fun t => t = s) ∧
  (∀ (p : Port) (off : BitVec 24) (size : Nat) (value : Word) (s : State), (portOf p s).fenced = false → regSize off.toNat size = false →
    Completes (.registerWrite p off size value) s fun t => t = accessed p s) ∧
  (∀ (p : Port) (value : Word) (s : State), (portOf p s).fenced = false → s.mod.stage ≠ 0 → Completes (.registerWrite p 0x200 8 value) s fun t =>
    { t with mod := s.mod } = accessed p s ∧ t.mod = { s.mod with scratch := value }) ∧
  (∀ (p : Port) (value : Word) (i : Fin 8) (s : State), (portOf p s).fenced = false → 2 ≤ s.mod.stage.toNat →
    let off : BitVec 24 := BitVec.ofNat 24 (0x10100 + 16 * i.val)
    ((portOf p s).adminEnable = false → Completes (.registerWrite p off 8 value) s fun t => OnlyPort p s t ∧
      portOf p t = { portOf p s with latch := none, adminSqBase := (portOf p s).adminSqBase.set i value }) ∧
    ((portOf p s).adminEnable = true → Completes (.registerWrite p off 8 value) s fun t => t = accessed p s)) ∧
  (∀ (p : Port) (value : Word) (s : State), RegistersAnswer p s →
    (Completes (.registerWrite p 0x10200 8 value) s fun t => OnlyPort p s t ∧
      portOf p t = { portOf p s with latch := none, rcBase := if (portOf p s).rcEnable then (portOf p s).rcBase else value }) ∧
    (Completes (.registerWrite p 0x10210 8 value) s fun t => t = accessed p s) ∧
    (Completes (.registerWrite p 0x10218 8 value) s fun t => OnlyPort p s t ∧ portOf p t = { portOf p s with latch := none, rcRead := value }) ∧
    (Completes (.registerWrite p 0x10300 8 value) s fun t => OnlyPort p s t ∧
      portOf p t = { portOf p s with latch := none, mbxVector := BitVec.ofNat 11 (fieldNat value 0 11), mbxEn := value.getLsbD 16 }) ∧
    (Completes (.registerWrite p 0x500010 8 value) s fun t => OnlyPort p s t ∧
      portOf p t = { portOf p s with latch := none, flagVector := BitVec.ofNat 11 (fieldNat value 0 11), flagEn := value.getLsbD 16 })) ∧
  (∀ (p : Port) (s : State) (c : List Byte) (rest : List (List Byte)),
    let q := portOf p s
    let size := 2 ^ q.rcLog2.toNat
    let off := q.rcWrite.toNat % size
    let pad := if size < off + c.length then size - off else 0
    q.cards = c :: rest → q.rcEnable = true → q.fenced = false → q.linkUp = true → s.mod.stage = 7 →
    q.rcWrite.toNat + pad + c.length - q.rcRead.toNat ≤ size → Completes (.reportCardPlace p) s fun t =>
      (portOf p t).cards = rest ∧ (portOf p t).rcWrite = q.rcWrite + BitVec.ofNat 64 (pad + c.length) ∧ t.memory = s.memory ∧
      portOf (peerOf p) t = portOf (peerOf p) s ∧
      (portOf p t).mem = memWrite (memWrite q.mem (q.rcBase.toNat + off) ((padCard pad).take pad)) (q.rcBase.toNat + (off + pad) % size) c)

/-! ## Every command, every step -/

/-- FW_CONFIRM succeeds only while the running slot is TRY and the module is ready: its end then makes that slot ACTIVE, clears TRY and sets
MIN_SVN to the larger of MIN_SVN and the slot's SVN, and otherwise it ends NOT_ALLOWED with flash as it was. No step lowers MIN_SVN or the
write count, and bring-up passes stage 1 only with an image whose SVN is not below MIN_SVN: no image with a lower SVN boots from then on. -/
def Obligations.FirmwareFloorHolds : Prop :=
  (∀ (p : Port) (s : State) (len : Nat) (tag : W32) (req : List Byte), (portOf p s).mailbox.latched = some (0x05, len, tag, req) →
    (portOf p s).mailbox.busy = true → (portOf p s).mailbox.outcome = none →
    let allowed := s.mod.ready = true ∧ s.flash.tryB = some s.mod.fwRunningB
    Completes (.mailboxResult p) s fun t => ((portOf p t).mailbox.result = 0 ↔ allowed) ∧ (¬ allowed → t.flash = s.flash) ∧
      (allowed → t.flash.activeB = s.mod.fwRunningB ∧ t.flash.tryB = none ∧
        t.flash.minSvn.toNat = max s.flash.minSvn.toNat (fwSlot s.mod.fwRunningB s).svn.toNat)) ∧
  (∀ s t : State, step s = .next t → s.flash.minSvn.toNat ≤ t.flash.minSvn.toNat ∧ s.flash.counterWrites ≤ t.flash.counterWrites) ∧
  (∀ s : State, s.mod.stage = 1 → Completes .stageFirmware s fun t => t.mod.stage = 2 →
    (fwSlot t.mod.fwRunningB t).valid = true ∧ t.flash.minSvn.toNat ≤ (fwSlot t.mod.fwRunningB t).svn.toNat)

/-- A step with a command waiting takes the command at the front of the queue and is that command done with the queue's rest. -/
def Obligations.StepRunsTheFrontCommand : Prop :=
  ∀ (c : Instr) (cs : List Instr) (s : State), s.pending = c :: cs → step s = exec c { s with pending := cs }

/-- With no command waiting a step is one cycle of TCLK, the model's choice (log entry 8): nothing but time changes. From first lock DTIME
advances by 4 ns, and while it slews every 20,000th cycle adds 0 ns or 8 ns in its place, toward the offset, by which the slew then has
4 ns less to go. DTIME never decreases unless it wraps. -/
def Obligations.IdleStepIsACycle : Prop :=
  ∀ s : State, s.pending = [] → ∃ t, step s = .next t ∧ { t with time := s.time } = s ∧ t.time.ticks = s.time.ticks + 1 ∧
    (s.time.firstLock = false → t.time.dtime = s.time.dtime) ∧
    (s.time.firstLock = true → s.time.slewing = false → t.time.dtime = s.time.dtime + 4) ∧
    (s.time.firstLock = true → s.time.slewing = true →
      (s.time.slewPhase + 1 < 20000 → t.time.dtime = s.time.dtime + 4 ∧ t.time.slewLeft = s.time.slewLeft) ∧
      (20000 ≤ s.time.slewPhase + 1 → t.time.dtime = s.time.dtime + (if 0 < s.time.slewLeft then 8 else 0) ∧
        (4 ≤ s.time.slewLeft → t.time.slewLeft = s.time.slewLeft - 4) ∧ (s.time.slewLeft ≤ -4 → t.time.slewLeft = s.time.slewLeft + 4))) ∧
    (s.time.dtime.toNat + 8 < 2 ^ 64 → s.time.dtime.toNat ≤ t.time.dtime.toNat)

/-- Every well-formed command answers a next state, whatever state it meets, and leaves the queue of waiting commands alone. A term that is
not well-formed, a lesson word of another row or an opcode the tables define given as undefined, is a fault and changes nothing. -/
def Obligations.WellFormedCommandsRun : Prop :=
  ∀ (c : Instr) (s : State), (c.wellFormed = true → ∃ t, exec c s = .next t ∧ t.pending = s.pending) ∧
    (c.wellFormed = false → exec c s = .fault .illFormed)

/-- The state after reset is safe: its memories are in canonical form and no command waits; its module is at stage 0 and not ready, DTIME is
zero before first lock, no channel lives, no flag is set, MIN_SVN is zero. -/
def Obligations.ResetIsSafe : Prop :=
  Safe State.reset ∧ State.reset.pending = [] ∧ State.reset.mod.stage = 0 ∧ State.reset.mod.ready = false ∧ State.reset.time.dtime = 0 ∧
    State.reset.time.firstLock = false ∧ (∀ i : Nat, chanOf i State.reset = none) ∧ State.reset.devFlags = 0 ∧ State.reset.flash.minSvn = 0 ∧
    State.reset.memory.fast = [] ∧ ∀ p : Port, (portOf p State.reset).fenced = false ∧ (portOf p State.reset).mem = []

/-- From every safe state a step answers a next state, and that state is safe: the fast tier and host memory behind both ports stay in
canonical form, and every command that still waits is well-formed. -/
def Obligations.SafeStatesStayAndRun : Prop :=
  ∀ s : State, Safe s → ∃ t, step s = .next t ∧ Safe t
end

