-- ==== Sys2Proof/Laws/State.lean ====
section
/-!
SUPPORT. Laws/State.lean: for each operation that changes one unit of the state, one lemma per field it leaves alone, and what
reading the unit back gives.
-/

namespace Sys2Proof.Machine

/-! ## modSlot -/

@[simp] theorem modSlot_pending (i : Nat) (f : Slot → Slot) (s : State) : (modSlot i f s).pending = s.pending := rfl
@[simp] theorem modSlot_free (i : Nat) (f : Slot → Slot) (s : State) : (modSlot i f s).free = s.free := rfl
@[simp] theorem modSlot_time (i : Nat) (f : Slot → Slot) (s : State) : (modSlot i f s).time = s.time := rfl
@[simp] theorem modSlot_mod (i : Nat) (f : Slot → Slot) (s : State) : (modSlot i f s).mod = s.mod := rfl
@[simp] theorem modSlot_flash (i : Nat) (f : Slot → Slot) (s : State) : (modSlot i f s).flash = s.flash := rfl
@[simp] theorem modSlot_portA (i : Nat) (f : Slot → Slot) (s : State) : (modSlot i f s).portA = s.portA := rfl
@[simp] theorem modSlot_portB (i : Nat) (f : Slot → Slot) (s : State) : (modSlot i f s).portB = s.portB := rfl
@[simp] theorem modSlot_descs (i : Nat) (f : Slot → Slot) (s : State) : (modSlot i f s).descs = s.descs := rfl
@[simp] theorem modSlot_nextDesc (i : Nat) (f : Slot → Slot) (s : State) : (modSlot i f s).nextDesc = s.nextDesc := rfl
@[simp] theorem modSlot_cores (i : Nat) (f : Slot → Slot) (s : State) : (modSlot i f s).cores = s.cores := rfl
@[simp] theorem modSlot_linkSeq (i : Nat) (f : Slot → Slot) (s : State) : (modSlot i f s).linkSeq = s.linkSeq := rfl
@[simp] theorem modSlot_memSeq (i : Nat) (f : Slot → Slot) (s : State) : (modSlot i f s).memSeq = s.memSeq := rfl
@[simp] theorem modSlot_runs (i : Nat) (f : Slot → Slot) (s : State) : (modSlot i f s).runs = s.runs := rfl
@[simp] theorem modSlot_expertPages (i : Nat) (f : Slot → Slot) (s : State) : (modSlot i f s).expertPages = s.expertPages := rfl
@[simp] theorem modSlot_stats (i : Nat) (f : Slot → Slot) (s : State) : (modSlot i f s).stats = s.stats := rfl
@[simp] theorem modSlot_groups (i : Nat) (f : Slot → Slot) (s : State) : (modSlot i f s).groups = s.groups := rfl
@[simp] theorem modSlot_nmu (i : Nat) (f : Slot → Slot) (s : State) : (modSlot i f s).nmu = s.nmu := rfl
@[simp] theorem modSlot_memory (i : Nat) (f : Slot → Slot) (s : State) : (modSlot i f s).memory = s.memory := rfl
@[simp] theorem modSlot_engines (i : Nat) (f : Slot → Slot) (s : State) : (modSlot i f s).engines = s.engines := rfl
@[simp] theorem modSlot_links (i : Nat) (f : Slot → Slot) (s : State) : (modSlot i f s).links = s.links := rfl
@[simp] theorem modSlot_passes (i : Nat) (f : Slot → Slot) (s : State) : (modSlot i f s).passes = s.passes := rfl
@[simp] theorem modSlot_nextPass (i : Nat) (f : Slot → Slot) (s : State) : (modSlot i f s).nextPass = s.nextPass := rfl
@[simp] theorem modSlot_calib (i : Nat) (f : Slot → Slot) (s : State) : (modSlot i f s).calib = s.calib := rfl
@[simp] theorem modSlot_pals (i : Nat) (f : Slot → Slot) (s : State) : (modSlot i f s).pals = s.pals := rfl
@[simp] theorem modSlot_regions (i : Nat) (f : Slot → Slot) (s : State) : (modSlot i f s).regions = s.regions := rfl
@[simp] theorem modSlot_mate (i : Nat) (f : Slot → Slot) (s : State) : (modSlot i f s).mate = s.mate := rfl
@[simp] theorem modSlot_card (i : Nat) (f : Slot → Slot) (s : State) : (modSlot i f s).card = s.card := rfl
@[simp] theorem modSlot_devFlags (i : Nat) (f : Slot → Slot) (s : State) : (modSlot i f s).devFlags = s.devFlags := rfl
@[simp] theorem modSlot_devCounts (i : Nat) (f : Slot → Slot) (s : State) : (modSlot i f s).devCounts = s.devCounts := rfl
@[simp] theorem modSlot_msix (i : Nat) (f : Slot → Slot) (s : State) : (modSlot i f s).msix = s.msix := rfl
@[simp] theorem modSlot_sentFrames (i : Nat) (f : Slot → Slot) (s : State) : (modSlot i f s).sentFrames = s.sentFrames := rfl
@[simp] theorem modSlot_sentFar (i : Nat) (f : Slot → Slot) (s : State) : (modSlot i f s).sentFar = s.sentFar := rfl

/-! ## modCore -/

@[simp] theorem modCore_pending (c : Nat) (f : Core → Core) (s : State) : (modCore c f s).pending = s.pending := rfl
@[simp] theorem modCore_free (c : Nat) (f : Core → Core) (s : State) : (modCore c f s).free = s.free := rfl
@[simp] theorem modCore_time (c : Nat) (f : Core → Core) (s : State) : (modCore c f s).time = s.time := rfl
@[simp] theorem modCore_mod (c : Nat) (f : Core → Core) (s : State) : (modCore c f s).mod = s.mod := rfl
@[simp] theorem modCore_flash (c : Nat) (f : Core → Core) (s : State) : (modCore c f s).flash = s.flash := rfl
@[simp] theorem modCore_portA (c : Nat) (f : Core → Core) (s : State) : (modCore c f s).portA = s.portA := rfl
@[simp] theorem modCore_portB (c : Nat) (f : Core → Core) (s : State) : (modCore c f s).portB = s.portB := rfl
@[simp] theorem modCore_slots (c : Nat) (f : Core → Core) (s : State) : (modCore c f s).slots = s.slots := rfl
@[simp] theorem modCore_descs (c : Nat) (f : Core → Core) (s : State) : (modCore c f s).descs = s.descs := rfl
@[simp] theorem modCore_nextDesc (c : Nat) (f : Core → Core) (s : State) : (modCore c f s).nextDesc = s.nextDesc := rfl
@[simp] theorem modCore_linkSeq (c : Nat) (f : Core → Core) (s : State) : (modCore c f s).linkSeq = s.linkSeq := rfl
@[simp] theorem modCore_memSeq (c : Nat) (f : Core → Core) (s : State) : (modCore c f s).memSeq = s.memSeq := rfl
@[simp] theorem modCore_runs (c : Nat) (f : Core → Core) (s : State) : (modCore c f s).runs = s.runs := rfl
@[simp] theorem modCore_expertPages (c : Nat) (f : Core → Core) (s : State) : (modCore c f s).expertPages = s.expertPages := rfl
@[simp] theorem modCore_stats (c : Nat) (f : Core → Core) (s : State) : (modCore c f s).stats = s.stats := rfl
@[simp] theorem modCore_groups (c : Nat) (f : Core → Core) (s : State) : (modCore c f s).groups = s.groups := rfl
@[simp] theorem modCore_nmu (c : Nat) (f : Core → Core) (s : State) : (modCore c f s).nmu = s.nmu := rfl
@[simp] theorem modCore_memory (c : Nat) (f : Core → Core) (s : State) : (modCore c f s).memory = s.memory := rfl
@[simp] theorem modCore_engines (c : Nat) (f : Core → Core) (s : State) : (modCore c f s).engines = s.engines := rfl
@[simp] theorem modCore_links (c : Nat) (f : Core → Core) (s : State) : (modCore c f s).links = s.links := rfl
@[simp] theorem modCore_passes (c : Nat) (f : Core → Core) (s : State) : (modCore c f s).passes = s.passes := rfl
@[simp] theorem modCore_nextPass (c : Nat) (f : Core → Core) (s : State) : (modCore c f s).nextPass = s.nextPass := rfl
@[simp] theorem modCore_calib (c : Nat) (f : Core → Core) (s : State) : (modCore c f s).calib = s.calib := rfl
@[simp] theorem modCore_pals (c : Nat) (f : Core → Core) (s : State) : (modCore c f s).pals = s.pals := rfl
@[simp] theorem modCore_regions (c : Nat) (f : Core → Core) (s : State) : (modCore c f s).regions = s.regions := rfl
@[simp] theorem modCore_mate (c : Nat) (f : Core → Core) (s : State) : (modCore c f s).mate = s.mate := rfl
@[simp] theorem modCore_card (c : Nat) (f : Core → Core) (s : State) : (modCore c f s).card = s.card := rfl
@[simp] theorem modCore_devFlags (c : Nat) (f : Core → Core) (s : State) : (modCore c f s).devFlags = s.devFlags := rfl
@[simp] theorem modCore_devCounts (c : Nat) (f : Core → Core) (s : State) : (modCore c f s).devCounts = s.devCounts := rfl
@[simp] theorem modCore_msix (c : Nat) (f : Core → Core) (s : State) : (modCore c f s).msix = s.msix := rfl
@[simp] theorem modCore_sentFrames (c : Nat) (f : Core → Core) (s : State) : (modCore c f s).sentFrames = s.sentFrames := rfl
@[simp] theorem modCore_sentFar (c : Nat) (f : Core → Core) (s : State) : (modCore c f s).sentFar = s.sentFar := rfl

/-! ## modLink -/

@[simp] theorem modLink_pending (l : Nat) (f : Link → Link) (s : State) : (modLink l f s).pending = s.pending := rfl
@[simp] theorem modLink_free (l : Nat) (f : Link → Link) (s : State) : (modLink l f s).free = s.free := rfl
@[simp] theorem modLink_time (l : Nat) (f : Link → Link) (s : State) : (modLink l f s).time = s.time := rfl
@[simp] theorem modLink_mod (l : Nat) (f : Link → Link) (s : State) : (modLink l f s).mod = s.mod := rfl
@[simp] theorem modLink_flash (l : Nat) (f : Link → Link) (s : State) : (modLink l f s).flash = s.flash := rfl
@[simp] theorem modLink_portA (l : Nat) (f : Link → Link) (s : State) : (modLink l f s).portA = s.portA := rfl
@[simp] theorem modLink_portB (l : Nat) (f : Link → Link) (s : State) : (modLink l f s).portB = s.portB := rfl
@[simp] theorem modLink_slots (l : Nat) (f : Link → Link) (s : State) : (modLink l f s).slots = s.slots := rfl
@[simp] theorem modLink_descs (l : Nat) (f : Link → Link) (s : State) : (modLink l f s).descs = s.descs := rfl
@[simp] theorem modLink_nextDesc (l : Nat) (f : Link → Link) (s : State) : (modLink l f s).nextDesc = s.nextDesc := rfl
@[simp] theorem modLink_cores (l : Nat) (f : Link → Link) (s : State) : (modLink l f s).cores = s.cores := rfl
@[simp] theorem modLink_linkSeq (l : Nat) (f : Link → Link) (s : State) : (modLink l f s).linkSeq = s.linkSeq := rfl
@[simp] theorem modLink_memSeq (l : Nat) (f : Link → Link) (s : State) : (modLink l f s).memSeq = s.memSeq := rfl
@[simp] theorem modLink_runs (l : Nat) (f : Link → Link) (s : State) : (modLink l f s).runs = s.runs := rfl
@[simp] theorem modLink_expertPages (l : Nat) (f : Link → Link) (s : State) : (modLink l f s).expertPages = s.expertPages := rfl
@[simp] theorem modLink_stats (l : Nat) (f : Link → Link) (s : State) : (modLink l f s).stats = s.stats := rfl
@[simp] theorem modLink_groups (l : Nat) (f : Link → Link) (s : State) : (modLink l f s).groups = s.groups := rfl
@[simp] theorem modLink_nmu (l : Nat) (f : Link → Link) (s : State) : (modLink l f s).nmu = s.nmu := rfl
@[simp] theorem modLink_memory (l : Nat) (f : Link → Link) (s : State) : (modLink l f s).memory = s.memory := rfl
@[simp] theorem modLink_engines (l : Nat) (f : Link → Link) (s : State) : (modLink l f s).engines = s.engines := rfl
@[simp] theorem modLink_passes (l : Nat) (f : Link → Link) (s : State) : (modLink l f s).passes = s.passes := rfl
@[simp] theorem modLink_nextPass (l : Nat) (f : Link → Link) (s : State) : (modLink l f s).nextPass = s.nextPass := rfl
@[simp] theorem modLink_calib (l : Nat) (f : Link → Link) (s : State) : (modLink l f s).calib = s.calib := rfl
@[simp] theorem modLink_pals (l : Nat) (f : Link → Link) (s : State) : (modLink l f s).pals = s.pals := rfl
@[simp] theorem modLink_regions (l : Nat) (f : Link → Link) (s : State) : (modLink l f s).regions = s.regions := rfl
@[simp] theorem modLink_mate (l : Nat) (f : Link → Link) (s : State) : (modLink l f s).mate = s.mate := rfl
@[simp] theorem modLink_card (l : Nat) (f : Link → Link) (s : State) : (modLink l f s).card = s.card := rfl
@[simp] theorem modLink_devFlags (l : Nat) (f : Link → Link) (s : State) : (modLink l f s).devFlags = s.devFlags := rfl
@[simp] theorem modLink_devCounts (l : Nat) (f : Link → Link) (s : State) : (modLink l f s).devCounts = s.devCounts := rfl
@[simp] theorem modLink_msix (l : Nat) (f : Link → Link) (s : State) : (modLink l f s).msix = s.msix := rfl
@[simp] theorem modLink_sentFrames (l : Nat) (f : Link → Link) (s : State) : (modLink l f s).sentFrames = s.sentFrames := rfl
@[simp] theorem modLink_sentFar (l : Nat) (f : Link → Link) (s : State) : (modLink l f s).sentFar = s.sentFar := rfl

/-! ## modEngine -/

@[simp] theorem modEngine_pending (e : Nat) (f : Engine → Engine) (s : State) : (modEngine e f s).pending = s.pending := rfl
@[simp] theorem modEngine_free (e : Nat) (f : Engine → Engine) (s : State) : (modEngine e f s).free = s.free := rfl
@[simp] theorem modEngine_time (e : Nat) (f : Engine → Engine) (s : State) : (modEngine e f s).time = s.time := rfl
@[simp] theorem modEngine_mod (e : Nat) (f : Engine → Engine) (s : State) : (modEngine e f s).mod = s.mod := rfl
@[simp] theorem modEngine_flash (e : Nat) (f : Engine → Engine) (s : State) : (modEngine e f s).flash = s.flash := rfl
@[simp] theorem modEngine_portA (e : Nat) (f : Engine → Engine) (s : State) : (modEngine e f s).portA = s.portA := rfl
@[simp] theorem modEngine_portB (e : Nat) (f : Engine → Engine) (s : State) : (modEngine e f s).portB = s.portB := rfl
@[simp] theorem modEngine_slots (e : Nat) (f : Engine → Engine) (s : State) : (modEngine e f s).slots = s.slots := rfl
@[simp] theorem modEngine_descs (e : Nat) (f : Engine → Engine) (s : State) : (modEngine e f s).descs = s.descs := rfl
@[simp] theorem modEngine_nextDesc (e : Nat) (f : Engine → Engine) (s : State) : (modEngine e f s).nextDesc = s.nextDesc := rfl
@[simp] theorem modEngine_cores (e : Nat) (f : Engine → Engine) (s : State) : (modEngine e f s).cores = s.cores := rfl
@[simp] theorem modEngine_linkSeq (e : Nat) (f : Engine → Engine) (s : State) : (modEngine e f s).linkSeq = s.linkSeq := rfl
@[simp] theorem modEngine_memSeq (e : Nat) (f : Engine → Engine) (s : State) : (modEngine e f s).memSeq = s.memSeq := rfl
@[simp] theorem modEngine_runs (e : Nat) (f : Engine → Engine) (s : State) : (modEngine e f s).runs = s.runs := rfl
@[simp] theorem modEngine_expertPages (e : Nat) (f : Engine → Engine) (s : State) : (modEngine e f s).expertPages = s.expertPages := rfl
@[simp] theorem modEngine_stats (e : Nat) (f : Engine → Engine) (s : State) : (modEngine e f s).stats = s.stats := rfl
@[simp] theorem modEngine_groups (e : Nat) (f : Engine → Engine) (s : State) : (modEngine e f s).groups = s.groups := rfl
@[simp] theorem modEngine_nmu (e : Nat) (f : Engine → Engine) (s : State) : (modEngine e f s).nmu = s.nmu := rfl
@[simp] theorem modEngine_memory (e : Nat) (f : Engine → Engine) (s : State) : (modEngine e f s).memory = s.memory := rfl
@[simp] theorem modEngine_links (e : Nat) (f : Engine → Engine) (s : State) : (modEngine e f s).links = s.links := rfl
@[simp] theorem modEngine_passes (e : Nat) (f : Engine → Engine) (s : State) : (modEngine e f s).passes = s.passes := rfl
@[simp] theorem modEngine_nextPass (e : Nat) (f : Engine → Engine) (s : State) : (modEngine e f s).nextPass = s.nextPass := rfl
@[simp] theorem modEngine_calib (e : Nat) (f : Engine → Engine) (s : State) : (modEngine e f s).calib = s.calib := rfl
@[simp] theorem modEngine_pals (e : Nat) (f : Engine → Engine) (s : State) : (modEngine e f s).pals = s.pals := rfl
@[simp] theorem modEngine_regions (e : Nat) (f : Engine → Engine) (s : State) : (modEngine e f s).regions = s.regions := rfl
@[simp] theorem modEngine_mate (e : Nat) (f : Engine → Engine) (s : State) : (modEngine e f s).mate = s.mate := rfl
@[simp] theorem modEngine_card (e : Nat) (f : Engine → Engine) (s : State) : (modEngine e f s).card = s.card := rfl
@[simp] theorem modEngine_devFlags (e : Nat) (f : Engine → Engine) (s : State) : (modEngine e f s).devFlags = s.devFlags := rfl
@[simp] theorem modEngine_devCounts (e : Nat) (f : Engine → Engine) (s : State) : (modEngine e f s).devCounts = s.devCounts := rfl
@[simp] theorem modEngine_msix (e : Nat) (f : Engine → Engine) (s : State) : (modEngine e f s).msix = s.msix := rfl
@[simp] theorem modEngine_sentFrames (e : Nat) (f : Engine → Engine) (s : State) : (modEngine e f s).sentFrames = s.sentFrames := rfl
@[simp] theorem modEngine_sentFar (e : Nat) (f : Engine → Engine) (s : State) : (modEngine e f s).sentFar = s.sentFar := rfl

/-! ## modGroup -/

@[simp] theorem modGroup_pending (g : Nat) (f : Group → Group) (s : State) : (modGroup g f s).pending = s.pending := rfl
@[simp] theorem modGroup_free (g : Nat) (f : Group → Group) (s : State) : (modGroup g f s).free = s.free := rfl
@[simp] theorem modGroup_time (g : Nat) (f : Group → Group) (s : State) : (modGroup g f s).time = s.time := rfl
@[simp] theorem modGroup_mod (g : Nat) (f : Group → Group) (s : State) : (modGroup g f s).mod = s.mod := rfl
@[simp] theorem modGroup_flash (g : Nat) (f : Group → Group) (s : State) : (modGroup g f s).flash = s.flash := rfl
@[simp] theorem modGroup_portA (g : Nat) (f : Group → Group) (s : State) : (modGroup g f s).portA = s.portA := rfl
@[simp] theorem modGroup_portB (g : Nat) (f : Group → Group) (s : State) : (modGroup g f s).portB = s.portB := rfl
@[simp] theorem modGroup_slots (g : Nat) (f : Group → Group) (s : State) : (modGroup g f s).slots = s.slots := rfl
@[simp] theorem modGroup_descs (g : Nat) (f : Group → Group) (s : State) : (modGroup g f s).descs = s.descs := rfl
@[simp] theorem modGroup_nextDesc (g : Nat) (f : Group → Group) (s : State) : (modGroup g f s).nextDesc = s.nextDesc := rfl
@[simp] theorem modGroup_cores (g : Nat) (f : Group → Group) (s : State) : (modGroup g f s).cores = s.cores := rfl
@[simp] theorem modGroup_linkSeq (g : Nat) (f : Group → Group) (s : State) : (modGroup g f s).linkSeq = s.linkSeq := rfl
@[simp] theorem modGroup_memSeq (g : Nat) (f : Group → Group) (s : State) : (modGroup g f s).memSeq = s.memSeq := rfl
@[simp] theorem modGroup_runs (g : Nat) (f : Group → Group) (s : State) : (modGroup g f s).runs = s.runs := rfl
@[simp] theorem modGroup_expertPages (g : Nat) (f : Group → Group) (s : State) : (modGroup g f s).expertPages = s.expertPages := rfl
@[simp] theorem modGroup_stats (g : Nat) (f : Group → Group) (s : State) : (modGroup g f s).stats = s.stats := rfl
@[simp] theorem modGroup_nmu (g : Nat) (f : Group → Group) (s : State) : (modGroup g f s).nmu = s.nmu := rfl
@[simp] theorem modGroup_memory (g : Nat) (f : Group → Group) (s : State) : (modGroup g f s).memory = s.memory := rfl
@[simp] theorem modGroup_engines (g : Nat) (f : Group → Group) (s : State) : (modGroup g f s).engines = s.engines := rfl
@[simp] theorem modGroup_links (g : Nat) (f : Group → Group) (s : State) : (modGroup g f s).links = s.links := rfl
@[simp] theorem modGroup_passes (g : Nat) (f : Group → Group) (s : State) : (modGroup g f s).passes = s.passes := rfl
@[simp] theorem modGroup_nextPass (g : Nat) (f : Group → Group) (s : State) : (modGroup g f s).nextPass = s.nextPass := rfl
@[simp] theorem modGroup_calib (g : Nat) (f : Group → Group) (s : State) : (modGroup g f s).calib = s.calib := rfl
@[simp] theorem modGroup_pals (g : Nat) (f : Group → Group) (s : State) : (modGroup g f s).pals = s.pals := rfl
@[simp] theorem modGroup_regions (g : Nat) (f : Group → Group) (s : State) : (modGroup g f s).regions = s.regions := rfl
@[simp] theorem modGroup_mate (g : Nat) (f : Group → Group) (s : State) : (modGroup g f s).mate = s.mate := rfl
@[simp] theorem modGroup_card (g : Nat) (f : Group → Group) (s : State) : (modGroup g f s).card = s.card := rfl
@[simp] theorem modGroup_devFlags (g : Nat) (f : Group → Group) (s : State) : (modGroup g f s).devFlags = s.devFlags := rfl
@[simp] theorem modGroup_devCounts (g : Nat) (f : Group → Group) (s : State) : (modGroup g f s).devCounts = s.devCounts := rfl
@[simp] theorem modGroup_msix (g : Nat) (f : Group → Group) (s : State) : (modGroup g f s).msix = s.msix := rfl
@[simp] theorem modGroup_sentFrames (g : Nat) (f : Group → Group) (s : State) : (modGroup g f s).sentFrames = s.sentFrames := rfl
@[simp] theorem modGroup_sentFar (g : Nat) (f : Group → Group) (s : State) : (modGroup g f s).sentFar = s.sentFar := rfl

/-! ## modRun -/

@[simp] theorem modRun_pending (r : Nat) (f : Run → Run) (s : State) : (modRun r f s).pending = s.pending := rfl
@[simp] theorem modRun_free (r : Nat) (f : Run → Run) (s : State) : (modRun r f s).free = s.free := rfl
@[simp] theorem modRun_time (r : Nat) (f : Run → Run) (s : State) : (modRun r f s).time = s.time := rfl
@[simp] theorem modRun_mod (r : Nat) (f : Run → Run) (s : State) : (modRun r f s).mod = s.mod := rfl
@[simp] theorem modRun_flash (r : Nat) (f : Run → Run) (s : State) : (modRun r f s).flash = s.flash := rfl
@[simp] theorem modRun_portA (r : Nat) (f : Run → Run) (s : State) : (modRun r f s).portA = s.portA := rfl
@[simp] theorem modRun_portB (r : Nat) (f : Run → Run) (s : State) : (modRun r f s).portB = s.portB := rfl
@[simp] theorem modRun_slots (r : Nat) (f : Run → Run) (s : State) : (modRun r f s).slots = s.slots := rfl
@[simp] theorem modRun_descs (r : Nat) (f : Run → Run) (s : State) : (modRun r f s).descs = s.descs := rfl
@[simp] theorem modRun_nextDesc (r : Nat) (f : Run → Run) (s : State) : (modRun r f s).nextDesc = s.nextDesc := rfl
@[simp] theorem modRun_cores (r : Nat) (f : Run → Run) (s : State) : (modRun r f s).cores = s.cores := rfl
@[simp] theorem modRun_linkSeq (r : Nat) (f : Run → Run) (s : State) : (modRun r f s).linkSeq = s.linkSeq := rfl
@[simp] theorem modRun_memSeq (r : Nat) (f : Run → Run) (s : State) : (modRun r f s).memSeq = s.memSeq := rfl
@[simp] theorem modRun_expertPages (r : Nat) (f : Run → Run) (s : State) : (modRun r f s).expertPages = s.expertPages := rfl
@[simp] theorem modRun_stats (r : Nat) (f : Run → Run) (s : State) : (modRun r f s).stats = s.stats := rfl
@[simp] theorem modRun_groups (r : Nat) (f : Run → Run) (s : State) : (modRun r f s).groups = s.groups := rfl
@[simp] theorem modRun_nmu (r : Nat) (f : Run → Run) (s : State) : (modRun r f s).nmu = s.nmu := rfl
@[simp] theorem modRun_memory (r : Nat) (f : Run → Run) (s : State) : (modRun r f s).memory = s.memory := rfl
@[simp] theorem modRun_engines (r : Nat) (f : Run → Run) (s : State) : (modRun r f s).engines = s.engines := rfl
@[simp] theorem modRun_links (r : Nat) (f : Run → Run) (s : State) : (modRun r f s).links = s.links := rfl
@[simp] theorem modRun_passes (r : Nat) (f : Run → Run) (s : State) : (modRun r f s).passes = s.passes := rfl
@[simp] theorem modRun_nextPass (r : Nat) (f : Run → Run) (s : State) : (modRun r f s).nextPass = s.nextPass := rfl
@[simp] theorem modRun_calib (r : Nat) (f : Run → Run) (s : State) : (modRun r f s).calib = s.calib := rfl
@[simp] theorem modRun_pals (r : Nat) (f : Run → Run) (s : State) : (modRun r f s).pals = s.pals := rfl
@[simp] theorem modRun_regions (r : Nat) (f : Run → Run) (s : State) : (modRun r f s).regions = s.regions := rfl
@[simp] theorem modRun_mate (r : Nat) (f : Run → Run) (s : State) : (modRun r f s).mate = s.mate := rfl
@[simp] theorem modRun_card (r : Nat) (f : Run → Run) (s : State) : (modRun r f s).card = s.card := rfl
@[simp] theorem modRun_devFlags (r : Nat) (f : Run → Run) (s : State) : (modRun r f s).devFlags = s.devFlags := rfl
@[simp] theorem modRun_devCounts (r : Nat) (f : Run → Run) (s : State) : (modRun r f s).devCounts = s.devCounts := rfl
@[simp] theorem modRun_msix (r : Nat) (f : Run → Run) (s : State) : (modRun r f s).msix = s.msix := rfl
@[simp] theorem modRun_sentFrames (r : Nat) (f : Run → Run) (s : State) : (modRun r f s).sentFrames = s.sentFrames := rfl
@[simp] theorem modRun_sentFar (r : Nat) (f : Run → Run) (s : State) : (modRun r f s).sentFar = s.sentFar := rfl

/-! ## modPass -/

@[simp] theorem modPass_pending (p : Nat) (f : Pass → Pass) (s : State) : (modPass p f s).pending = s.pending := rfl
@[simp] theorem modPass_free (p : Nat) (f : Pass → Pass) (s : State) : (modPass p f s).free = s.free := rfl
@[simp] theorem modPass_time (p : Nat) (f : Pass → Pass) (s : State) : (modPass p f s).time = s.time := rfl
@[simp] theorem modPass_mod (p : Nat) (f : Pass → Pass) (s : State) : (modPass p f s).mod = s.mod := rfl
@[simp] theorem modPass_flash (p : Nat) (f : Pass → Pass) (s : State) : (modPass p f s).flash = s.flash := rfl
@[simp] theorem modPass_portA (p : Nat) (f : Pass → Pass) (s : State) : (modPass p f s).portA = s.portA := rfl
@[simp] theorem modPass_portB (p : Nat) (f : Pass → Pass) (s : State) : (modPass p f s).portB = s.portB := rfl
@[simp] theorem modPass_slots (p : Nat) (f : Pass → Pass) (s : State) : (modPass p f s).slots = s.slots := rfl
@[simp] theorem modPass_descs (p : Nat) (f : Pass → Pass) (s : State) : (modPass p f s).descs = s.descs := rfl
@[simp] theorem modPass_nextDesc (p : Nat) (f : Pass → Pass) (s : State) : (modPass p f s).nextDesc = s.nextDesc := rfl
@[simp] theorem modPass_cores (p : Nat) (f : Pass → Pass) (s : State) : (modPass p f s).cores = s.cores := rfl
@[simp] theorem modPass_linkSeq (p : Nat) (f : Pass → Pass) (s : State) : (modPass p f s).linkSeq = s.linkSeq := rfl
@[simp] theorem modPass_memSeq (p : Nat) (f : Pass → Pass) (s : State) : (modPass p f s).memSeq = s.memSeq := rfl
@[simp] theorem modPass_runs (p : Nat) (f : Pass → Pass) (s : State) : (modPass p f s).runs = s.runs := rfl
@[simp] theorem modPass_expertPages (p : Nat) (f : Pass → Pass) (s : State) : (modPass p f s).expertPages = s.expertPages := rfl
@[simp] theorem modPass_stats (p : Nat) (f : Pass → Pass) (s : State) : (modPass p f s).stats = s.stats := rfl
@[simp] theorem modPass_groups (p : Nat) (f : Pass → Pass) (s : State) : (modPass p f s).groups = s.groups := rfl
@[simp] theorem modPass_nmu (p : Nat) (f : Pass → Pass) (s : State) : (modPass p f s).nmu = s.nmu := rfl
@[simp] theorem modPass_memory (p : Nat) (f : Pass → Pass) (s : State) : (modPass p f s).memory = s.memory := rfl
@[simp] theorem modPass_engines (p : Nat) (f : Pass → Pass) (s : State) : (modPass p f s).engines = s.engines := rfl
@[simp] theorem modPass_links (p : Nat) (f : Pass → Pass) (s : State) : (modPass p f s).links = s.links := rfl
@[simp] theorem modPass_nextPass (p : Nat) (f : Pass → Pass) (s : State) : (modPass p f s).nextPass = s.nextPass := rfl
@[simp] theorem modPass_calib (p : Nat) (f : Pass → Pass) (s : State) : (modPass p f s).calib = s.calib := rfl
@[simp] theorem modPass_pals (p : Nat) (f : Pass → Pass) (s : State) : (modPass p f s).pals = s.pals := rfl
@[simp] theorem modPass_regions (p : Nat) (f : Pass → Pass) (s : State) : (modPass p f s).regions = s.regions := rfl
@[simp] theorem modPass_mate (p : Nat) (f : Pass → Pass) (s : State) : (modPass p f s).mate = s.mate := rfl
@[simp] theorem modPass_card (p : Nat) (f : Pass → Pass) (s : State) : (modPass p f s).card = s.card := rfl
@[simp] theorem modPass_devFlags (p : Nat) (f : Pass → Pass) (s : State) : (modPass p f s).devFlags = s.devFlags := rfl
@[simp] theorem modPass_devCounts (p : Nat) (f : Pass → Pass) (s : State) : (modPass p f s).devCounts = s.devCounts := rfl
@[simp] theorem modPass_msix (p : Nat) (f : Pass → Pass) (s : State) : (modPass p f s).msix = s.msix := rfl
@[simp] theorem modPass_sentFrames (p : Nat) (f : Pass → Pass) (s : State) : (modPass p f s).sentFrames = s.sentFrames := rfl
@[simp] theorem modPass_sentFar (p : Nat) (f : Pass → Pass) (s : State) : (modPass p f s).sentFar = s.sentFar := rfl

/-! ## modDesc -/

@[simp] theorem modDesc_pending (i : Nat) (f : DescRec → DescRec) (s : State) : (modDesc i f s).pending = s.pending := rfl
@[simp] theorem modDesc_free (i : Nat) (f : DescRec → DescRec) (s : State) : (modDesc i f s).free = s.free := rfl
@[simp] theorem modDesc_time (i : Nat) (f : DescRec → DescRec) (s : State) : (modDesc i f s).time = s.time := rfl
@[simp] theorem modDesc_mod (i : Nat) (f : DescRec → DescRec) (s : State) : (modDesc i f s).mod = s.mod := rfl
@[simp] theorem modDesc_flash (i : Nat) (f : DescRec → DescRec) (s : State) : (modDesc i f s).flash = s.flash := rfl
@[simp] theorem modDesc_portA (i : Nat) (f : DescRec → DescRec) (s : State) : (modDesc i f s).portA = s.portA := rfl
@[simp] theorem modDesc_portB (i : Nat) (f : DescRec → DescRec) (s : State) : (modDesc i f s).portB = s.portB := rfl
@[simp] theorem modDesc_slots (i : Nat) (f : DescRec → DescRec) (s : State) : (modDesc i f s).slots = s.slots := rfl
@[simp] theorem modDesc_nextDesc (i : Nat) (f : DescRec → DescRec) (s : State) : (modDesc i f s).nextDesc = s.nextDesc := rfl
@[simp] theorem modDesc_cores (i : Nat) (f : DescRec → DescRec) (s : State) : (modDesc i f s).cores = s.cores := rfl
@[simp] theorem modDesc_linkSeq (i : Nat) (f : DescRec → DescRec) (s : State) : (modDesc i f s).linkSeq = s.linkSeq := rfl
@[simp] theorem modDesc_memSeq (i : Nat) (f : DescRec → DescRec) (s : State) : (modDesc i f s).memSeq = s.memSeq := rfl
@[simp] theorem modDesc_runs (i : Nat) (f : DescRec → DescRec) (s : State) : (modDesc i f s).runs = s.runs := rfl
@[simp] theorem modDesc_expertPages (i : Nat) (f : DescRec → DescRec) (s : State) : (modDesc i f s).expertPages = s.expertPages := rfl
@[simp] theorem modDesc_stats (i : Nat) (f : DescRec → DescRec) (s : State) : (modDesc i f s).stats = s.stats := rfl
@[simp] theorem modDesc_groups (i : Nat) (f : DescRec → DescRec) (s : State) : (modDesc i f s).groups = s.groups := rfl
@[simp] theorem modDesc_nmu (i : Nat) (f : DescRec → DescRec) (s : State) : (modDesc i f s).nmu = s.nmu := rfl
@[simp] theorem modDesc_memory (i : Nat) (f : DescRec → DescRec) (s : State) : (modDesc i f s).memory = s.memory := rfl
@[simp] theorem modDesc_engines (i : Nat) (f : DescRec → DescRec) (s : State) : (modDesc i f s).engines = s.engines := rfl
@[simp] theorem modDesc_links (i : Nat) (f : DescRec → DescRec) (s : State) : (modDesc i f s).links = s.links := rfl
@[simp] theorem modDesc_passes (i : Nat) (f : DescRec → DescRec) (s : State) : (modDesc i f s).passes = s.passes := rfl
@[simp] theorem modDesc_nextPass (i : Nat) (f : DescRec → DescRec) (s : State) : (modDesc i f s).nextPass = s.nextPass := rfl
@[simp] theorem modDesc_calib (i : Nat) (f : DescRec → DescRec) (s : State) : (modDesc i f s).calib = s.calib := rfl
@[simp] theorem modDesc_pals (i : Nat) (f : DescRec → DescRec) (s : State) : (modDesc i f s).pals = s.pals := rfl
@[simp] theorem modDesc_regions (i : Nat) (f : DescRec → DescRec) (s : State) : (modDesc i f s).regions = s.regions := rfl
@[simp] theorem modDesc_mate (i : Nat) (f : DescRec → DescRec) (s : State) : (modDesc i f s).mate = s.mate := rfl
@[simp] theorem modDesc_card (i : Nat) (f : DescRec → DescRec) (s : State) : (modDesc i f s).card = s.card := rfl
@[simp] theorem modDesc_devFlags (i : Nat) (f : DescRec → DescRec) (s : State) : (modDesc i f s).devFlags = s.devFlags := rfl
@[simp] theorem modDesc_devCounts (i : Nat) (f : DescRec → DescRec) (s : State) : (modDesc i f s).devCounts = s.devCounts := rfl
@[simp] theorem modDesc_msix (i : Nat) (f : DescRec → DescRec) (s : State) : (modDesc i f s).msix = s.msix := rfl
@[simp] theorem modDesc_sentFrames (i : Nat) (f : DescRec → DescRec) (s : State) : (modDesc i f s).sentFrames = s.sentFrames := rfl
@[simp] theorem modDesc_sentFar (i : Nat) (f : DescRec → DescRec) (s : State) : (modDesc i f s).sentFar = s.sentFar := rfl

/-! ## modNmu -/

@[simp] theorem modNmu_pending (f : NmuSt → NmuSt) (s : State) : (modNmu f s).pending = s.pending := rfl
@[simp] theorem modNmu_free (f : NmuSt → NmuSt) (s : State) : (modNmu f s).free = s.free := rfl
@[simp] theorem modNmu_time (f : NmuSt → NmuSt) (s : State) : (modNmu f s).time = s.time := rfl
@[simp] theorem modNmu_mod (f : NmuSt → NmuSt) (s : State) : (modNmu f s).mod = s.mod := rfl
@[simp] theorem modNmu_flash (f : NmuSt → NmuSt) (s : State) : (modNmu f s).flash = s.flash := rfl
@[simp] theorem modNmu_portA (f : NmuSt → NmuSt) (s : State) : (modNmu f s).portA = s.portA := rfl
@[simp] theorem modNmu_portB (f : NmuSt → NmuSt) (s : State) : (modNmu f s).portB = s.portB := rfl
@[simp] theorem modNmu_slots (f : NmuSt → NmuSt) (s : State) : (modNmu f s).slots = s.slots := rfl
@[simp] theorem modNmu_descs (f : NmuSt → NmuSt) (s : State) : (modNmu f s).descs = s.descs := rfl
@[simp] theorem modNmu_nextDesc (f : NmuSt → NmuSt) (s : State) : (modNmu f s).nextDesc = s.nextDesc := rfl
@[simp] theorem modNmu_cores (f : NmuSt → NmuSt) (s : State) : (modNmu f s).cores = s.cores := rfl
@[simp] theorem modNmu_linkSeq (f : NmuSt → NmuSt) (s : State) : (modNmu f s).linkSeq = s.linkSeq := rfl
@[simp] theorem modNmu_memSeq (f : NmuSt → NmuSt) (s : State) : (modNmu f s).memSeq = s.memSeq := rfl
@[simp] theorem modNmu_runs (f : NmuSt → NmuSt) (s : State) : (modNmu f s).runs = s.runs := rfl
@[simp] theorem modNmu_expertPages (f : NmuSt → NmuSt) (s : State) : (modNmu f s).expertPages = s.expertPages := rfl
@[simp] theorem modNmu_stats (f : NmuSt → NmuSt) (s : State) : (modNmu f s).stats = s.stats := rfl
@[simp] theorem modNmu_groups (f : NmuSt → NmuSt) (s : State) : (modNmu f s).groups = s.groups := rfl
@[simp] theorem modNmu_memory (f : NmuSt → NmuSt) (s : State) : (modNmu f s).memory = s.memory := rfl
@[simp] theorem modNmu_engines (f : NmuSt → NmuSt) (s : State) : (modNmu f s).engines = s.engines := rfl
@[simp] theorem modNmu_links (f : NmuSt → NmuSt) (s : State) : (modNmu f s).links = s.links := rfl
@[simp] theorem modNmu_passes (f : NmuSt → NmuSt) (s : State) : (modNmu f s).passes = s.passes := rfl
@[simp] theorem modNmu_nextPass (f : NmuSt → NmuSt) (s : State) : (modNmu f s).nextPass = s.nextPass := rfl
@[simp] theorem modNmu_calib (f : NmuSt → NmuSt) (s : State) : (modNmu f s).calib = s.calib := rfl
@[simp] theorem modNmu_pals (f : NmuSt → NmuSt) (s : State) : (modNmu f s).pals = s.pals := rfl
@[simp] theorem modNmu_regions (f : NmuSt → NmuSt) (s : State) : (modNmu f s).regions = s.regions := rfl
@[simp] theorem modNmu_mate (f : NmuSt → NmuSt) (s : State) : (modNmu f s).mate = s.mate := rfl
@[simp] theorem modNmu_card (f : NmuSt → NmuSt) (s : State) : (modNmu f s).card = s.card := rfl
@[simp] theorem modNmu_devFlags (f : NmuSt → NmuSt) (s : State) : (modNmu f s).devFlags = s.devFlags := rfl
@[simp] theorem modNmu_devCounts (f : NmuSt → NmuSt) (s : State) : (modNmu f s).devCounts = s.devCounts := rfl
@[simp] theorem modNmu_msix (f : NmuSt → NmuSt) (s : State) : (modNmu f s).msix = s.msix := rfl
@[simp] theorem modNmu_sentFrames (f : NmuSt → NmuSt) (s : State) : (modNmu f s).sentFrames = s.sentFrames := rfl
@[simp] theorem modNmu_sentFar (f : NmuSt → NmuSt) (s : State) : (modNmu f s).sentFar = s.sentFar := rfl

/-! ## modBinding -/

@[simp] theorem modBinding_pending (b : Nat) (f : Binding → Binding) (s : State) : (modBinding b f s).pending = s.pending := rfl
@[simp] theorem modBinding_free (b : Nat) (f : Binding → Binding) (s : State) : (modBinding b f s).free = s.free := rfl
@[simp] theorem modBinding_time (b : Nat) (f : Binding → Binding) (s : State) : (modBinding b f s).time = s.time := rfl
@[simp] theorem modBinding_mod (b : Nat) (f : Binding → Binding) (s : State) : (modBinding b f s).mod = s.mod := rfl
@[simp] theorem modBinding_flash (b : Nat) (f : Binding → Binding) (s : State) : (modBinding b f s).flash = s.flash := rfl
@[simp] theorem modBinding_portA (b : Nat) (f : Binding → Binding) (s : State) : (modBinding b f s).portA = s.portA := rfl
@[simp] theorem modBinding_portB (b : Nat) (f : Binding → Binding) (s : State) : (modBinding b f s).portB = s.portB := rfl
@[simp] theorem modBinding_slots (b : Nat) (f : Binding → Binding) (s : State) : (modBinding b f s).slots = s.slots := rfl
@[simp] theorem modBinding_descs (b : Nat) (f : Binding → Binding) (s : State) : (modBinding b f s).descs = s.descs := rfl
@[simp] theorem modBinding_nextDesc (b : Nat) (f : Binding → Binding) (s : State) : (modBinding b f s).nextDesc = s.nextDesc := rfl
@[simp] theorem modBinding_cores (b : Nat) (f : Binding → Binding) (s : State) : (modBinding b f s).cores = s.cores := rfl
@[simp] theorem modBinding_linkSeq (b : Nat) (f : Binding → Binding) (s : State) : (modBinding b f s).linkSeq = s.linkSeq := rfl
@[simp] theorem modBinding_memSeq (b : Nat) (f : Binding → Binding) (s : State) : (modBinding b f s).memSeq = s.memSeq := rfl
@[simp] theorem modBinding_runs (b : Nat) (f : Binding → Binding) (s : State) : (modBinding b f s).runs = s.runs := rfl
@[simp] theorem modBinding_expertPages (b : Nat) (f : Binding → Binding) (s : State) : (modBinding b f s).expertPages = s.expertPages := rfl
@[simp] theorem modBinding_stats (b : Nat) (f : Binding → Binding) (s : State) : (modBinding b f s).stats = s.stats := rfl
@[simp] theorem modBinding_groups (b : Nat) (f : Binding → Binding) (s : State) : (modBinding b f s).groups = s.groups := rfl
@[simp] theorem modBinding_memory (b : Nat) (f : Binding → Binding) (s : State) : (modBinding b f s).memory = s.memory := rfl
@[simp] theorem modBinding_engines (b : Nat) (f : Binding → Binding) (s : State) : (modBinding b f s).engines = s.engines := rfl
@[simp] theorem modBinding_links (b : Nat) (f : Binding → Binding) (s : State) : (modBinding b f s).links = s.links := rfl
@[simp] theorem modBinding_passes (b : Nat) (f : Binding → Binding) (s : State) : (modBinding b f s).passes = s.passes := rfl
@[simp] theorem modBinding_nextPass (b : Nat) (f : Binding → Binding) (s : State) : (modBinding b f s).nextPass = s.nextPass := rfl
@[simp] theorem modBinding_calib (b : Nat) (f : Binding → Binding) (s : State) : (modBinding b f s).calib = s.calib := rfl
@[simp] theorem modBinding_pals (b : Nat) (f : Binding → Binding) (s : State) : (modBinding b f s).pals = s.pals := rfl
@[simp] theorem modBinding_regions (b : Nat) (f : Binding → Binding) (s : State) : (modBinding b f s).regions = s.regions := rfl
@[simp] theorem modBinding_mate (b : Nat) (f : Binding → Binding) (s : State) : (modBinding b f s).mate = s.mate := rfl
@[simp] theorem modBinding_card (b : Nat) (f : Binding → Binding) (s : State) : (modBinding b f s).card = s.card := rfl
@[simp] theorem modBinding_devFlags (b : Nat) (f : Binding → Binding) (s : State) : (modBinding b f s).devFlags = s.devFlags := rfl
@[simp] theorem modBinding_devCounts (b : Nat) (f : Binding → Binding) (s : State) : (modBinding b f s).devCounts = s.devCounts := rfl
@[simp] theorem modBinding_msix (b : Nat) (f : Binding → Binding) (s : State) : (modBinding b f s).msix = s.msix := rfl
@[simp] theorem modBinding_sentFrames (b : Nat) (f : Binding → Binding) (s : State) : (modBinding b f s).sentFrames = s.sentFrames := rfl
@[simp] theorem modBinding_sentFar (b : Nat) (f : Binding → Binding) (s : State) : (modBinding b f s).sentFar = s.sentFar := rfl

/-! ## modMemory -/

@[simp] theorem modMemory_pending (f : MemSt → MemSt) (s : State) : (modMemory f s).pending = s.pending := rfl
@[simp] theorem modMemory_free (f : MemSt → MemSt) (s : State) : (modMemory f s).free = s.free := rfl
@[simp] theorem modMemory_time (f : MemSt → MemSt) (s : State) : (modMemory f s).time = s.time := rfl
@[simp] theorem modMemory_mod (f : MemSt → MemSt) (s : State) : (modMemory f s).mod = s.mod := rfl
@[simp] theorem modMemory_flash (f : MemSt → MemSt) (s : State) : (modMemory f s).flash = s.flash := rfl
@[simp] theorem modMemory_portA (f : MemSt → MemSt) (s : State) : (modMemory f s).portA = s.portA := rfl
@[simp] theorem modMemory_portB (f : MemSt → MemSt) (s : State) : (modMemory f s).portB = s.portB := rfl
@[simp] theorem modMemory_slots (f : MemSt → MemSt) (s : State) : (modMemory f s).slots = s.slots := rfl
@[simp] theorem modMemory_descs (f : MemSt → MemSt) (s : State) : (modMemory f s).descs = s.descs := rfl
@[simp] theorem modMemory_nextDesc (f : MemSt → MemSt) (s : State) : (modMemory f s).nextDesc = s.nextDesc := rfl
@[simp] theorem modMemory_cores (f : MemSt → MemSt) (s : State) : (modMemory f s).cores = s.cores := rfl
@[simp] theorem modMemory_linkSeq (f : MemSt → MemSt) (s : State) : (modMemory f s).linkSeq = s.linkSeq := rfl
@[simp] theorem modMemory_memSeq (f : MemSt → MemSt) (s : State) : (modMemory f s).memSeq = s.memSeq := rfl
@[simp] theorem modMemory_runs (f : MemSt → MemSt) (s : State) : (modMemory f s).runs = s.runs := rfl
@[simp] theorem modMemory_expertPages (f : MemSt → MemSt) (s : State) : (modMemory f s).expertPages = s.expertPages := rfl
@[simp] theorem modMemory_stats (f : MemSt → MemSt) (s : State) : (modMemory f s).stats = s.stats := rfl
@[simp] theorem modMemory_groups (f : MemSt → MemSt) (s : State) : (modMemory f s).groups = s.groups := rfl
@[simp] theorem modMemory_nmu (f : MemSt → MemSt) (s : State) : (modMemory f s).nmu = s.nmu := rfl
@[simp] theorem modMemory_engines (f : MemSt → MemSt) (s : State) : (modMemory f s).engines = s.engines := rfl
@[simp] theorem modMemory_links (f : MemSt → MemSt) (s : State) : (modMemory f s).links = s.links := rfl
@[simp] theorem modMemory_passes (f : MemSt → MemSt) (s : State) : (modMemory f s).passes = s.passes := rfl
@[simp] theorem modMemory_nextPass (f : MemSt → MemSt) (s : State) : (modMemory f s).nextPass = s.nextPass := rfl
@[simp] theorem modMemory_calib (f : MemSt → MemSt) (s : State) : (modMemory f s).calib = s.calib := rfl
@[simp] theorem modMemory_pals (f : MemSt → MemSt) (s : State) : (modMemory f s).pals = s.pals := rfl
@[simp] theorem modMemory_regions (f : MemSt → MemSt) (s : State) : (modMemory f s).regions = s.regions := rfl
@[simp] theorem modMemory_mate (f : MemSt → MemSt) (s : State) : (modMemory f s).mate = s.mate := rfl
@[simp] theorem modMemory_card (f : MemSt → MemSt) (s : State) : (modMemory f s).card = s.card := rfl
@[simp] theorem modMemory_devFlags (f : MemSt → MemSt) (s : State) : (modMemory f s).devFlags = s.devFlags := rfl
@[simp] theorem modMemory_devCounts (f : MemSt → MemSt) (s : State) : (modMemory f s).devCounts = s.devCounts := rfl
@[simp] theorem modMemory_msix (f : MemSt → MemSt) (s : State) : (modMemory f s).msix = s.msix := rfl
@[simp] theorem modMemory_sentFrames (f : MemSt → MemSt) (s : State) : (modMemory f s).sentFrames = s.sentFrames := rfl
@[simp] theorem modMemory_sentFar (f : MemSt → MemSt) (s : State) : (modMemory f s).sentFar = s.sentFar := rfl

/-! ## modStack -/

@[simp] theorem modStack_pending (i : Nat) (f : StackSt → StackSt) (s : State) : (modStack i f s).pending = s.pending := rfl
@[simp] theorem modStack_free (i : Nat) (f : StackSt → StackSt) (s : State) : (modStack i f s).free = s.free := rfl
@[simp] theorem modStack_time (i : Nat) (f : StackSt → StackSt) (s : State) : (modStack i f s).time = s.time := rfl
@[simp] theorem modStack_mod (i : Nat) (f : StackSt → StackSt) (s : State) : (modStack i f s).mod = s.mod := rfl
@[simp] theorem modStack_flash (i : Nat) (f : StackSt → StackSt) (s : State) : (modStack i f s).flash = s.flash := rfl
@[simp] theorem modStack_portA (i : Nat) (f : StackSt → StackSt) (s : State) : (modStack i f s).portA = s.portA := rfl
@[simp] theorem modStack_portB (i : Nat) (f : StackSt → StackSt) (s : State) : (modStack i f s).portB = s.portB := rfl
@[simp] theorem modStack_slots (i : Nat) (f : StackSt → StackSt) (s : State) : (modStack i f s).slots = s.slots := rfl
@[simp] theorem modStack_descs (i : Nat) (f : StackSt → StackSt) (s : State) : (modStack i f s).descs = s.descs := rfl
@[simp] theorem modStack_nextDesc (i : Nat) (f : StackSt → StackSt) (s : State) : (modStack i f s).nextDesc = s.nextDesc := rfl
@[simp] theorem modStack_cores (i : Nat) (f : StackSt → StackSt) (s : State) : (modStack i f s).cores = s.cores := rfl
@[simp] theorem modStack_linkSeq (i : Nat) (f : StackSt → StackSt) (s : State) : (modStack i f s).linkSeq = s.linkSeq := rfl
@[simp] theorem modStack_memSeq (i : Nat) (f : StackSt → StackSt) (s : State) : (modStack i f s).memSeq = s.memSeq := rfl
@[simp] theorem modStack_runs (i : Nat) (f : StackSt → StackSt) (s : State) : (modStack i f s).runs = s.runs := rfl
@[simp] theorem modStack_expertPages (i : Nat) (f : StackSt → StackSt) (s : State) : (modStack i f s).expertPages = s.expertPages := rfl
@[simp] theorem modStack_stats (i : Nat) (f : StackSt → StackSt) (s : State) : (modStack i f s).stats = s.stats := rfl
@[simp] theorem modStack_groups (i : Nat) (f : StackSt → StackSt) (s : State) : (modStack i f s).groups = s.groups := rfl
@[simp] theorem modStack_nmu (i : Nat) (f : StackSt → StackSt) (s : State) : (modStack i f s).nmu = s.nmu := rfl
@[simp] theorem modStack_engines (i : Nat) (f : StackSt → StackSt) (s : State) : (modStack i f s).engines = s.engines := rfl
@[simp] theorem modStack_links (i : Nat) (f : StackSt → StackSt) (s : State) : (modStack i f s).links = s.links := rfl
@[simp] theorem modStack_passes (i : Nat) (f : StackSt → StackSt) (s : State) : (modStack i f s).passes = s.passes := rfl
@[simp] theorem modStack_nextPass (i : Nat) (f : StackSt → StackSt) (s : State) : (modStack i f s).nextPass = s.nextPass := rfl
@[simp] theorem modStack_calib (i : Nat) (f : StackSt → StackSt) (s : State) : (modStack i f s).calib = s.calib := rfl
@[simp] theorem modStack_pals (i : Nat) (f : StackSt → StackSt) (s : State) : (modStack i f s).pals = s.pals := rfl
@[simp] theorem modStack_regions (i : Nat) (f : StackSt → StackSt) (s : State) : (modStack i f s).regions = s.regions := rfl
@[simp] theorem modStack_mate (i : Nat) (f : StackSt → StackSt) (s : State) : (modStack i f s).mate = s.mate := rfl
@[simp] theorem modStack_card (i : Nat) (f : StackSt → StackSt) (s : State) : (modStack i f s).card = s.card := rfl
@[simp] theorem modStack_devFlags (i : Nat) (f : StackSt → StackSt) (s : State) : (modStack i f s).devFlags = s.devFlags := rfl
@[simp] theorem modStack_devCounts (i : Nat) (f : StackSt → StackSt) (s : State) : (modStack i f s).devCounts = s.devCounts := rfl
@[simp] theorem modStack_msix (i : Nat) (f : StackSt → StackSt) (s : State) : (modStack i f s).msix = s.msix := rfl
@[simp] theorem modStack_sentFrames (i : Nat) (f : StackSt → StackSt) (s : State) : (modStack i f s).sentFrames = s.sentFrames := rfl
@[simp] theorem modStack_sentFar (i : Nat) (f : StackSt → StackSt) (s : State) : (modStack i f s).sentFar = s.sentFar := rfl

/-! ## modMemChan -/

@[simp] theorem modMemChan_pending (c : Nat) (f : ChanMem → ChanMem) (s : State) : (modMemChan c f s).pending = s.pending := rfl
@[simp] theorem modMemChan_free (c : Nat) (f : ChanMem → ChanMem) (s : State) : (modMemChan c f s).free = s.free := rfl
@[simp] theorem modMemChan_time (c : Nat) (f : ChanMem → ChanMem) (s : State) : (modMemChan c f s).time = s.time := rfl
@[simp] theorem modMemChan_mod (c : Nat) (f : ChanMem → ChanMem) (s : State) : (modMemChan c f s).mod = s.mod := rfl
@[simp] theorem modMemChan_flash (c : Nat) (f : ChanMem → ChanMem) (s : State) : (modMemChan c f s).flash = s.flash := rfl
@[simp] theorem modMemChan_portA (c : Nat) (f : ChanMem → ChanMem) (s : State) : (modMemChan c f s).portA = s.portA := rfl
@[simp] theorem modMemChan_portB (c : Nat) (f : ChanMem → ChanMem) (s : State) : (modMemChan c f s).portB = s.portB := rfl
@[simp] theorem modMemChan_slots (c : Nat) (f : ChanMem → ChanMem) (s : State) : (modMemChan c f s).slots = s.slots := rfl
@[simp] theorem modMemChan_descs (c : Nat) (f : ChanMem → ChanMem) (s : State) : (modMemChan c f s).descs = s.descs := rfl
@[simp] theorem modMemChan_nextDesc (c : Nat) (f : ChanMem → ChanMem) (s : State) : (modMemChan c f s).nextDesc = s.nextDesc := rfl
@[simp] theorem modMemChan_cores (c : Nat) (f : ChanMem → ChanMem) (s : State) : (modMemChan c f s).cores = s.cores := rfl
@[simp] theorem modMemChan_linkSeq (c : Nat) (f : ChanMem → ChanMem) (s : State) : (modMemChan c f s).linkSeq = s.linkSeq := rfl
@[simp] theorem modMemChan_memSeq (c : Nat) (f : ChanMem → ChanMem) (s : State) : (modMemChan c f s).memSeq = s.memSeq := rfl
@[simp] theorem modMemChan_runs (c : Nat) (f : ChanMem → ChanMem) (s : State) : (modMemChan c f s).runs = s.runs := rfl
@[simp] theorem modMemChan_expertPages (c : Nat) (f : ChanMem → ChanMem) (s : State) : (modMemChan c f s).expertPages = s.expertPages := rfl
@[simp] theorem modMemChan_stats (c : Nat) (f : ChanMem → ChanMem) (s : State) : (modMemChan c f s).stats = s.stats := rfl
@[simp] theorem modMemChan_groups (c : Nat) (f : ChanMem → ChanMem) (s : State) : (modMemChan c f s).groups = s.groups := rfl
@[simp] theorem modMemChan_nmu (c : Nat) (f : ChanMem → ChanMem) (s : State) : (modMemChan c f s).nmu = s.nmu := rfl
@[simp] theorem modMemChan_engines (c : Nat) (f : ChanMem → ChanMem) (s : State) : (modMemChan c f s).engines = s.engines := rfl
@[simp] theorem modMemChan_links (c : Nat) (f : ChanMem → ChanMem) (s : State) : (modMemChan c f s).links = s.links := rfl
@[simp] theorem modMemChan_passes (c : Nat) (f : ChanMem → ChanMem) (s : State) : (modMemChan c f s).passes = s.passes := rfl
@[simp] theorem modMemChan_nextPass (c : Nat) (f : ChanMem → ChanMem) (s : State) : (modMemChan c f s).nextPass = s.nextPass := rfl
@[simp] theorem modMemChan_calib (c : Nat) (f : ChanMem → ChanMem) (s : State) : (modMemChan c f s).calib = s.calib := rfl
@[simp] theorem modMemChan_pals (c : Nat) (f : ChanMem → ChanMem) (s : State) : (modMemChan c f s).pals = s.pals := rfl
@[simp] theorem modMemChan_regions (c : Nat) (f : ChanMem → ChanMem) (s : State) : (modMemChan c f s).regions = s.regions := rfl
@[simp] theorem modMemChan_mate (c : Nat) (f : ChanMem → ChanMem) (s : State) : (modMemChan c f s).mate = s.mate := rfl
@[simp] theorem modMemChan_card (c : Nat) (f : ChanMem → ChanMem) (s : State) : (modMemChan c f s).card = s.card := rfl
@[simp] theorem modMemChan_devFlags (c : Nat) (f : ChanMem → ChanMem) (s : State) : (modMemChan c f s).devFlags = s.devFlags := rfl
@[simp] theorem modMemChan_devCounts (c : Nat) (f : ChanMem → ChanMem) (s : State) : (modMemChan c f s).devCounts = s.devCounts := rfl
@[simp] theorem modMemChan_msix (c : Nat) (f : ChanMem → ChanMem) (s : State) : (modMemChan c f s).msix = s.msix := rfl
@[simp] theorem modMemChan_sentFrames (c : Nat) (f : ChanMem → ChanMem) (s : State) : (modMemChan c f s).sentFrames = s.sentFrames := rfl
@[simp] theorem modMemChan_sentFar (c : Nat) (f : ChanMem → ChanMem) (s : State) : (modMemChan c f s).sentFar = s.sentFar := rfl

/-! ## modMod -/

@[simp] theorem modMod_pending (f : ModuleSt → ModuleSt) (s : State) : (modMod f s).pending = s.pending := rfl
@[simp] theorem modMod_free (f : ModuleSt → ModuleSt) (s : State) : (modMod f s).free = s.free := rfl
@[simp] theorem modMod_time (f : ModuleSt → ModuleSt) (s : State) : (modMod f s).time = s.time := rfl
@[simp] theorem modMod_flash (f : ModuleSt → ModuleSt) (s : State) : (modMod f s).flash = s.flash := rfl
@[simp] theorem modMod_portA (f : ModuleSt → ModuleSt) (s : State) : (modMod f s).portA = s.portA := rfl
@[simp] theorem modMod_portB (f : ModuleSt → ModuleSt) (s : State) : (modMod f s).portB = s.portB := rfl
@[simp] theorem modMod_slots (f : ModuleSt → ModuleSt) (s : State) : (modMod f s).slots = s.slots := rfl
@[simp] theorem modMod_descs (f : ModuleSt → ModuleSt) (s : State) : (modMod f s).descs = s.descs := rfl
@[simp] theorem modMod_nextDesc (f : ModuleSt → ModuleSt) (s : State) : (modMod f s).nextDesc = s.nextDesc := rfl
@[simp] theorem modMod_cores (f : ModuleSt → ModuleSt) (s : State) : (modMod f s).cores = s.cores := rfl
@[simp] theorem modMod_linkSeq (f : ModuleSt → ModuleSt) (s : State) : (modMod f s).linkSeq = s.linkSeq := rfl
@[simp] theorem modMod_memSeq (f : ModuleSt → ModuleSt) (s : State) : (modMod f s).memSeq = s.memSeq := rfl
@[simp] theorem modMod_runs (f : ModuleSt → ModuleSt) (s : State) : (modMod f s).runs = s.runs := rfl
@[simp] theorem modMod_expertPages (f : ModuleSt → ModuleSt) (s : State) : (modMod f s).expertPages = s.expertPages := rfl
@[simp] theorem modMod_stats (f : ModuleSt → ModuleSt) (s : State) : (modMod f s).stats = s.stats := rfl
@[simp] theorem modMod_groups (f : ModuleSt → ModuleSt) (s : State) : (modMod f s).groups = s.groups := rfl
@[simp] theorem modMod_nmu (f : ModuleSt → ModuleSt) (s : State) : (modMod f s).nmu = s.nmu := rfl
@[simp] theorem modMod_memory (f : ModuleSt → ModuleSt) (s : State) : (modMod f s).memory = s.memory := rfl
@[simp] theorem modMod_engines (f : ModuleSt → ModuleSt) (s : State) : (modMod f s).engines = s.engines := rfl
@[simp] theorem modMod_links (f : ModuleSt → ModuleSt) (s : State) : (modMod f s).links = s.links := rfl
@[simp] theorem modMod_passes (f : ModuleSt → ModuleSt) (s : State) : (modMod f s).passes = s.passes := rfl
@[simp] theorem modMod_nextPass (f : ModuleSt → ModuleSt) (s : State) : (modMod f s).nextPass = s.nextPass := rfl
@[simp] theorem modMod_calib (f : ModuleSt → ModuleSt) (s : State) : (modMod f s).calib = s.calib := rfl
@[simp] theorem modMod_pals (f : ModuleSt → ModuleSt) (s : State) : (modMod f s).pals = s.pals := rfl
@[simp] theorem modMod_regions (f : ModuleSt → ModuleSt) (s : State) : (modMod f s).regions = s.regions := rfl
@[simp] theorem modMod_mate (f : ModuleSt → ModuleSt) (s : State) : (modMod f s).mate = s.mate := rfl
@[simp] theorem modMod_card (f : ModuleSt → ModuleSt) (s : State) : (modMod f s).card = s.card := rfl
@[simp] theorem modMod_devFlags (f : ModuleSt → ModuleSt) (s : State) : (modMod f s).devFlags = s.devFlags := rfl
@[simp] theorem modMod_devCounts (f : ModuleSt → ModuleSt) (s : State) : (modMod f s).devCounts = s.devCounts := rfl
@[simp] theorem modMod_msix (f : ModuleSt → ModuleSt) (s : State) : (modMod f s).msix = s.msix := rfl
@[simp] theorem modMod_sentFrames (f : ModuleSt → ModuleSt) (s : State) : (modMod f s).sentFrames = s.sentFrames := rfl
@[simp] theorem modMod_sentFar (f : ModuleSt → ModuleSt) (s : State) : (modMod f s).sentFar = s.sentFar := rfl

/-! ## modFlash -/

@[simp] theorem modFlash_pending (f : FlashSt → FlashSt) (s : State) : (modFlash f s).pending = s.pending := rfl
@[simp] theorem modFlash_free (f : FlashSt → FlashSt) (s : State) : (modFlash f s).free = s.free := rfl
@[simp] theorem modFlash_time (f : FlashSt → FlashSt) (s : State) : (modFlash f s).time = s.time := rfl
@[simp] theorem modFlash_mod (f : FlashSt → FlashSt) (s : State) : (modFlash f s).mod = s.mod := rfl
@[simp] theorem modFlash_portA (f : FlashSt → FlashSt) (s : State) : (modFlash f s).portA = s.portA := rfl
@[simp] theorem modFlash_portB (f : FlashSt → FlashSt) (s : State) : (modFlash f s).portB = s.portB := rfl
@[simp] theorem modFlash_slots (f : FlashSt → FlashSt) (s : State) : (modFlash f s).slots = s.slots := rfl
@[simp] theorem modFlash_descs (f : FlashSt → FlashSt) (s : State) : (modFlash f s).descs = s.descs := rfl
@[simp] theorem modFlash_nextDesc (f : FlashSt → FlashSt) (s : State) : (modFlash f s).nextDesc = s.nextDesc := rfl
@[simp] theorem modFlash_cores (f : FlashSt → FlashSt) (s : State) : (modFlash f s).cores = s.cores := rfl
@[simp] theorem modFlash_linkSeq (f : FlashSt → FlashSt) (s : State) : (modFlash f s).linkSeq = s.linkSeq := rfl
@[simp] theorem modFlash_memSeq (f : FlashSt → FlashSt) (s : State) : (modFlash f s).memSeq = s.memSeq := rfl
@[simp] theorem modFlash_runs (f : FlashSt → FlashSt) (s : State) : (modFlash f s).runs = s.runs := rfl
@[simp] theorem modFlash_expertPages (f : FlashSt → FlashSt) (s : State) : (modFlash f s).expertPages = s.expertPages := rfl
@[simp] theorem modFlash_stats (f : FlashSt → FlashSt) (s : State) : (modFlash f s).stats = s.stats := rfl
@[simp] theorem modFlash_groups (f : FlashSt → FlashSt) (s : State) : (modFlash f s).groups = s.groups := rfl
@[simp] theorem modFlash_nmu (f : FlashSt → FlashSt) (s : State) : (modFlash f s).nmu = s.nmu := rfl
@[simp] theorem modFlash_memory (f : FlashSt → FlashSt) (s : State) : (modFlash f s).memory = s.memory := rfl
@[simp] theorem modFlash_engines (f : FlashSt → FlashSt) (s : State) : (modFlash f s).engines = s.engines := rfl
@[simp] theorem modFlash_links (f : FlashSt → FlashSt) (s : State) : (modFlash f s).links = s.links := rfl
@[simp] theorem modFlash_passes (f : FlashSt → FlashSt) (s : State) : (modFlash f s).passes = s.passes := rfl
@[simp] theorem modFlash_nextPass (f : FlashSt → FlashSt) (s : State) : (modFlash f s).nextPass = s.nextPass := rfl
@[simp] theorem modFlash_calib (f : FlashSt → FlashSt) (s : State) : (modFlash f s).calib = s.calib := rfl
@[simp] theorem modFlash_pals (f : FlashSt → FlashSt) (s : State) : (modFlash f s).pals = s.pals := rfl
@[simp] theorem modFlash_regions (f : FlashSt → FlashSt) (s : State) : (modFlash f s).regions = s.regions := rfl
@[simp] theorem modFlash_mate (f : FlashSt → FlashSt) (s : State) : (modFlash f s).mate = s.mate := rfl
@[simp] theorem modFlash_card (f : FlashSt → FlashSt) (s : State) : (modFlash f s).card = s.card := rfl
@[simp] theorem modFlash_devFlags (f : FlashSt → FlashSt) (s : State) : (modFlash f s).devFlags = s.devFlags := rfl
@[simp] theorem modFlash_devCounts (f : FlashSt → FlashSt) (s : State) : (modFlash f s).devCounts = s.devCounts := rfl
@[simp] theorem modFlash_msix (f : FlashSt → FlashSt) (s : State) : (modFlash f s).msix = s.msix := rfl
@[simp] theorem modFlash_sentFrames (f : FlashSt → FlashSt) (s : State) : (modFlash f s).sentFrames = s.sentFrames := rfl
@[simp] theorem modFlash_sentFar (f : FlashSt → FlashSt) (s : State) : (modFlash f s).sentFar = s.sentFar := rfl

/-! ## modTime -/

@[simp] theorem modTime_pending (f : TimeSt → TimeSt) (s : State) : (modTime f s).pending = s.pending := rfl
@[simp] theorem modTime_free (f : TimeSt → TimeSt) (s : State) : (modTime f s).free = s.free := rfl
@[simp] theorem modTime_mod (f : TimeSt → TimeSt) (s : State) : (modTime f s).mod = s.mod := rfl
@[simp] theorem modTime_flash (f : TimeSt → TimeSt) (s : State) : (modTime f s).flash = s.flash := rfl
@[simp] theorem modTime_portA (f : TimeSt → TimeSt) (s : State) : (modTime f s).portA = s.portA := rfl
@[simp] theorem modTime_portB (f : TimeSt → TimeSt) (s : State) : (modTime f s).portB = s.portB := rfl
@[simp] theorem modTime_slots (f : TimeSt → TimeSt) (s : State) : (modTime f s).slots = s.slots := rfl
@[simp] theorem modTime_descs (f : TimeSt → TimeSt) (s : State) : (modTime f s).descs = s.descs := rfl
@[simp] theorem modTime_nextDesc (f : TimeSt → TimeSt) (s : State) : (modTime f s).nextDesc = s.nextDesc := rfl
@[simp] theorem modTime_cores (f : TimeSt → TimeSt) (s : State) : (modTime f s).cores = s.cores := rfl
@[simp] theorem modTime_linkSeq (f : TimeSt → TimeSt) (s : State) : (modTime f s).linkSeq = s.linkSeq := rfl
@[simp] theorem modTime_memSeq (f : TimeSt → TimeSt) (s : State) : (modTime f s).memSeq = s.memSeq := rfl
@[simp] theorem modTime_runs (f : TimeSt → TimeSt) (s : State) : (modTime f s).runs = s.runs := rfl
@[simp] theorem modTime_expertPages (f : TimeSt → TimeSt) (s : State) : (modTime f s).expertPages = s.expertPages := rfl
@[simp] theorem modTime_stats (f : TimeSt → TimeSt) (s : State) : (modTime f s).stats = s.stats := rfl
@[simp] theorem modTime_groups (f : TimeSt → TimeSt) (s : State) : (modTime f s).groups = s.groups := rfl
@[simp] theorem modTime_nmu (f : TimeSt → TimeSt) (s : State) : (modTime f s).nmu = s.nmu := rfl
@[simp] theorem modTime_memory (f : TimeSt → TimeSt) (s : State) : (modTime f s).memory = s.memory := rfl
@[simp] theorem modTime_engines (f : TimeSt → TimeSt) (s : State) : (modTime f s).engines = s.engines := rfl
@[simp] theorem modTime_links (f : TimeSt → TimeSt) (s : State) : (modTime f s).links = s.links := rfl
@[simp] theorem modTime_passes (f : TimeSt → TimeSt) (s : State) : (modTime f s).passes = s.passes := rfl
@[simp] theorem modTime_nextPass (f : TimeSt → TimeSt) (s : State) : (modTime f s).nextPass = s.nextPass := rfl
@[simp] theorem modTime_calib (f : TimeSt → TimeSt) (s : State) : (modTime f s).calib = s.calib := rfl
@[simp] theorem modTime_pals (f : TimeSt → TimeSt) (s : State) : (modTime f s).pals = s.pals := rfl
@[simp] theorem modTime_regions (f : TimeSt → TimeSt) (s : State) : (modTime f s).regions = s.regions := rfl
@[simp] theorem modTime_mate (f : TimeSt → TimeSt) (s : State) : (modTime f s).mate = s.mate := rfl
@[simp] theorem modTime_card (f : TimeSt → TimeSt) (s : State) : (modTime f s).card = s.card := rfl
@[simp] theorem modTime_devFlags (f : TimeSt → TimeSt) (s : State) : (modTime f s).devFlags = s.devFlags := rfl
@[simp] theorem modTime_devCounts (f : TimeSt → TimeSt) (s : State) : (modTime f s).devCounts = s.devCounts := rfl
@[simp] theorem modTime_msix (f : TimeSt → TimeSt) (s : State) : (modTime f s).msix = s.msix := rfl
@[simp] theorem modTime_sentFrames (f : TimeSt → TimeSt) (s : State) : (modTime f s).sentFrames = s.sentFrames := rfl
@[simp] theorem modTime_sentFar (f : TimeSt → TimeSt) (s : State) : (modTime f s).sentFar = s.sentFar := rfl

/-! ## modCard -/

@[simp] theorem modCard_pending (f : CardSt → CardSt) (s : State) : (modCard f s).pending = s.pending := rfl
@[simp] theorem modCard_free (f : CardSt → CardSt) (s : State) : (modCard f s).free = s.free := rfl
@[simp] theorem modCard_time (f : CardSt → CardSt) (s : State) : (modCard f s).time = s.time := rfl
@[simp] theorem modCard_mod (f : CardSt → CardSt) (s : State) : (modCard f s).mod = s.mod := rfl
@[simp] theorem modCard_flash (f : CardSt → CardSt) (s : State) : (modCard f s).flash = s.flash := rfl
@[simp] theorem modCard_portA (f : CardSt → CardSt) (s : State) : (modCard f s).portA = s.portA := rfl
@[simp] theorem modCard_portB (f : CardSt → CardSt) (s : State) : (modCard f s).portB = s.portB := rfl
@[simp] theorem modCard_slots (f : CardSt → CardSt) (s : State) : (modCard f s).slots = s.slots := rfl
@[simp] theorem modCard_descs (f : CardSt → CardSt) (s : State) : (modCard f s).descs = s.descs := rfl
@[simp] theorem modCard_nextDesc (f : CardSt → CardSt) (s : State) : (modCard f s).nextDesc = s.nextDesc := rfl
@[simp] theorem modCard_cores (f : CardSt → CardSt) (s : State) : (modCard f s).cores = s.cores := rfl
@[simp] theorem modCard_linkSeq (f : CardSt → CardSt) (s : State) : (modCard f s).linkSeq = s.linkSeq := rfl
@[simp] theorem modCard_memSeq (f : CardSt → CardSt) (s : State) : (modCard f s).memSeq = s.memSeq := rfl
@[simp] theorem modCard_runs (f : CardSt → CardSt) (s : State) : (modCard f s).runs = s.runs := rfl
@[simp] theorem modCard_expertPages (f : CardSt → CardSt) (s : State) : (modCard f s).expertPages = s.expertPages := rfl
@[simp] theorem modCard_stats (f : CardSt → CardSt) (s : State) : (modCard f s).stats = s.stats := rfl
@[simp] theorem modCard_groups (f : CardSt → CardSt) (s : State) : (modCard f s).groups = s.groups := rfl
@[simp] theorem modCard_nmu (f : CardSt → CardSt) (s : State) : (modCard f s).nmu = s.nmu := rfl
@[simp] theorem modCard_memory (f : CardSt → CardSt) (s : State) : (modCard f s).memory = s.memory := rfl
@[simp] theorem modCard_engines (f : CardSt → CardSt) (s : State) : (modCard f s).engines = s.engines := rfl
@[simp] theorem modCard_links (f : CardSt → CardSt) (s : State) : (modCard f s).links = s.links := rfl
@[simp] theorem modCard_passes (f : CardSt → CardSt) (s : State) : (modCard f s).passes = s.passes := rfl
@[simp] theorem modCard_nextPass (f : CardSt → CardSt) (s : State) : (modCard f s).nextPass = s.nextPass := rfl
@[simp] theorem modCard_calib (f : CardSt → CardSt) (s : State) : (modCard f s).calib = s.calib := rfl
@[simp] theorem modCard_pals (f : CardSt → CardSt) (s : State) : (modCard f s).pals = s.pals := rfl
@[simp] theorem modCard_regions (f : CardSt → CardSt) (s : State) : (modCard f s).regions = s.regions := rfl
@[simp] theorem modCard_mate (f : CardSt → CardSt) (s : State) : (modCard f s).mate = s.mate := rfl
@[simp] theorem modCard_devFlags (f : CardSt → CardSt) (s : State) : (modCard f s).devFlags = s.devFlags := rfl
@[simp] theorem modCard_devCounts (f : CardSt → CardSt) (s : State) : (modCard f s).devCounts = s.devCounts := rfl
@[simp] theorem modCard_msix (f : CardSt → CardSt) (s : State) : (modCard f s).msix = s.msix := rfl
@[simp] theorem modCard_sentFrames (f : CardSt → CardSt) (s : State) : (modCard f s).sentFrames = s.sentFrames := rfl
@[simp] theorem modCard_sentFar (f : CardSt → CardSt) (s : State) : (modCard f s).sentFar = s.sentFar := rfl

/-! ## modMate -/

@[simp] theorem modMate_pending (f : MateSt → MateSt) (s : State) : (modMate f s).pending = s.pending := rfl
@[simp] theorem modMate_free (f : MateSt → MateSt) (s : State) : (modMate f s).free = s.free := rfl
@[simp] theorem modMate_time (f : MateSt → MateSt) (s : State) : (modMate f s).time = s.time := rfl
@[simp] theorem modMate_mod (f : MateSt → MateSt) (s : State) : (modMate f s).mod = s.mod := rfl
@[simp] theorem modMate_flash (f : MateSt → MateSt) (s : State) : (modMate f s).flash = s.flash := rfl
@[simp] theorem modMate_portA (f : MateSt → MateSt) (s : State) : (modMate f s).portA = s.portA := rfl
@[simp] theorem modMate_portB (f : MateSt → MateSt) (s : State) : (modMate f s).portB = s.portB := rfl
@[simp] theorem modMate_slots (f : MateSt → MateSt) (s : State) : (modMate f s).slots = s.slots := rfl
@[simp] theorem modMate_descs (f : MateSt → MateSt) (s : State) : (modMate f s).descs = s.descs := rfl
@[simp] theorem modMate_nextDesc (f : MateSt → MateSt) (s : State) : (modMate f s).nextDesc = s.nextDesc := rfl
@[simp] theorem modMate_cores (f : MateSt → MateSt) (s : State) : (modMate f s).cores = s.cores := rfl
@[simp] theorem modMate_linkSeq (f : MateSt → MateSt) (s : State) : (modMate f s).linkSeq = s.linkSeq := rfl
@[simp] theorem modMate_memSeq (f : MateSt → MateSt) (s : State) : (modMate f s).memSeq = s.memSeq := rfl
@[simp] theorem modMate_runs (f : MateSt → MateSt) (s : State) : (modMate f s).runs = s.runs := rfl
@[simp] theorem modMate_expertPages (f : MateSt → MateSt) (s : State) : (modMate f s).expertPages = s.expertPages := rfl
@[simp] theorem modMate_stats (f : MateSt → MateSt) (s : State) : (modMate f s).stats = s.stats := rfl
@[simp] theorem modMate_groups (f : MateSt → MateSt) (s : State) : (modMate f s).groups = s.groups := rfl
@[simp] theorem modMate_nmu (f : MateSt → MateSt) (s : State) : (modMate f s).nmu = s.nmu := rfl
@[simp] theorem modMate_memory (f : MateSt → MateSt) (s : State) : (modMate f s).memory = s.memory := rfl
@[simp] theorem modMate_engines (f : MateSt → MateSt) (s : State) : (modMate f s).engines = s.engines := rfl
@[simp] theorem modMate_links (f : MateSt → MateSt) (s : State) : (modMate f s).links = s.links := rfl
@[simp] theorem modMate_passes (f : MateSt → MateSt) (s : State) : (modMate f s).passes = s.passes := rfl
@[simp] theorem modMate_nextPass (f : MateSt → MateSt) (s : State) : (modMate f s).nextPass = s.nextPass := rfl
@[simp] theorem modMate_calib (f : MateSt → MateSt) (s : State) : (modMate f s).calib = s.calib := rfl
@[simp] theorem modMate_pals (f : MateSt → MateSt) (s : State) : (modMate f s).pals = s.pals := rfl
@[simp] theorem modMate_regions (f : MateSt → MateSt) (s : State) : (modMate f s).regions = s.regions := rfl
@[simp] theorem modMate_card (f : MateSt → MateSt) (s : State) : (modMate f s).card = s.card := rfl
@[simp] theorem modMate_devFlags (f : MateSt → MateSt) (s : State) : (modMate f s).devFlags = s.devFlags := rfl
@[simp] theorem modMate_devCounts (f : MateSt → MateSt) (s : State) : (modMate f s).devCounts = s.devCounts := rfl
@[simp] theorem modMate_msix (f : MateSt → MateSt) (s : State) : (modMate f s).msix = s.msix := rfl
@[simp] theorem modMate_sentFrames (f : MateSt → MateSt) (s : State) : (modMate f s).sentFrames = s.sentFrames := rfl
@[simp] theorem modMate_sentFar (f : MateSt → MateSt) (s : State) : (modMate f s).sentFar = s.sentFar := rfl

/-! ## modPal -/

@[simp] theorem modPal_pending (p : Nat) (f : Pal → Pal) (s : State) : (modPal p f s).pending = s.pending := rfl
@[simp] theorem modPal_free (p : Nat) (f : Pal → Pal) (s : State) : (modPal p f s).free = s.free := rfl
@[simp] theorem modPal_time (p : Nat) (f : Pal → Pal) (s : State) : (modPal p f s).time = s.time := rfl
@[simp] theorem modPal_mod (p : Nat) (f : Pal → Pal) (s : State) : (modPal p f s).mod = s.mod := rfl
@[simp] theorem modPal_flash (p : Nat) (f : Pal → Pal) (s : State) : (modPal p f s).flash = s.flash := rfl
@[simp] theorem modPal_portA (p : Nat) (f : Pal → Pal) (s : State) : (modPal p f s).portA = s.portA := rfl
@[simp] theorem modPal_portB (p : Nat) (f : Pal → Pal) (s : State) : (modPal p f s).portB = s.portB := rfl
@[simp] theorem modPal_slots (p : Nat) (f : Pal → Pal) (s : State) : (modPal p f s).slots = s.slots := rfl
@[simp] theorem modPal_descs (p : Nat) (f : Pal → Pal) (s : State) : (modPal p f s).descs = s.descs := rfl
@[simp] theorem modPal_nextDesc (p : Nat) (f : Pal → Pal) (s : State) : (modPal p f s).nextDesc = s.nextDesc := rfl
@[simp] theorem modPal_cores (p : Nat) (f : Pal → Pal) (s : State) : (modPal p f s).cores = s.cores := rfl
@[simp] theorem modPal_linkSeq (p : Nat) (f : Pal → Pal) (s : State) : (modPal p f s).linkSeq = s.linkSeq := rfl
@[simp] theorem modPal_memSeq (p : Nat) (f : Pal → Pal) (s : State) : (modPal p f s).memSeq = s.memSeq := rfl
@[simp] theorem modPal_runs (p : Nat) (f : Pal → Pal) (s : State) : (modPal p f s).runs = s.runs := rfl
@[simp] theorem modPal_expertPages (p : Nat) (f : Pal → Pal) (s : State) : (modPal p f s).expertPages = s.expertPages := rfl
@[simp] theorem modPal_stats (p : Nat) (f : Pal → Pal) (s : State) : (modPal p f s).stats = s.stats := rfl
@[simp] theorem modPal_groups (p : Nat) (f : Pal → Pal) (s : State) : (modPal p f s).groups = s.groups := rfl
@[simp] theorem modPal_nmu (p : Nat) (f : Pal → Pal) (s : State) : (modPal p f s).nmu = s.nmu := rfl
@[simp] theorem modPal_memory (p : Nat) (f : Pal → Pal) (s : State) : (modPal p f s).memory = s.memory := rfl
@[simp] theorem modPal_engines (p : Nat) (f : Pal → Pal) (s : State) : (modPal p f s).engines = s.engines := rfl
@[simp] theorem modPal_links (p : Nat) (f : Pal → Pal) (s : State) : (modPal p f s).links = s.links := rfl
@[simp] theorem modPal_passes (p : Nat) (f : Pal → Pal) (s : State) : (modPal p f s).passes = s.passes := rfl
@[simp] theorem modPal_nextPass (p : Nat) (f : Pal → Pal) (s : State) : (modPal p f s).nextPass = s.nextPass := rfl
@[simp] theorem modPal_calib (p : Nat) (f : Pal → Pal) (s : State) : (modPal p f s).calib = s.calib := rfl
@[simp] theorem modPal_regions (p : Nat) (f : Pal → Pal) (s : State) : (modPal p f s).regions = s.regions := rfl
@[simp] theorem modPal_mate (p : Nat) (f : Pal → Pal) (s : State) : (modPal p f s).mate = s.mate := rfl
@[simp] theorem modPal_card (p : Nat) (f : Pal → Pal) (s : State) : (modPal p f s).card = s.card := rfl
@[simp] theorem modPal_devFlags (p : Nat) (f : Pal → Pal) (s : State) : (modPal p f s).devFlags = s.devFlags := rfl
@[simp] theorem modPal_devCounts (p : Nat) (f : Pal → Pal) (s : State) : (modPal p f s).devCounts = s.devCounts := rfl
@[simp] theorem modPal_msix (p : Nat) (f : Pal → Pal) (s : State) : (modPal p f s).msix = s.msix := rfl
@[simp] theorem modPal_sentFrames (p : Nat) (f : Pal → Pal) (s : State) : (modPal p f s).sentFrames = s.sentFrames := rfl
@[simp] theorem modPal_sentFar (p : Nat) (f : Pal → Pal) (s : State) : (modPal p f s).sentFar = s.sentFar := rfl

/-! ## modRegion -/

@[simp] theorem modRegion_pending (r : Nat) (f : Region → Region) (s : State) : (modRegion r f s).pending = s.pending := rfl
@[simp] theorem modRegion_free (r : Nat) (f : Region → Region) (s : State) : (modRegion r f s).free = s.free := rfl
@[simp] theorem modRegion_time (r : Nat) (f : Region → Region) (s : State) : (modRegion r f s).time = s.time := rfl
@[simp] theorem modRegion_mod (r : Nat) (f : Region → Region) (s : State) : (modRegion r f s).mod = s.mod := rfl
@[simp] theorem modRegion_flash (r : Nat) (f : Region → Region) (s : State) : (modRegion r f s).flash = s.flash := rfl
@[simp] theorem modRegion_portA (r : Nat) (f : Region → Region) (s : State) : (modRegion r f s).portA = s.portA := rfl
@[simp] theorem modRegion_portB (r : Nat) (f : Region → Region) (s : State) : (modRegion r f s).portB = s.portB := rfl
@[simp] theorem modRegion_slots (r : Nat) (f : Region → Region) (s : State) : (modRegion r f s).slots = s.slots := rfl
@[simp] theorem modRegion_descs (r : Nat) (f : Region → Region) (s : State) : (modRegion r f s).descs = s.descs := rfl
@[simp] theorem modRegion_nextDesc (r : Nat) (f : Region → Region) (s : State) : (modRegion r f s).nextDesc = s.nextDesc := rfl
@[simp] theorem modRegion_cores (r : Nat) (f : Region → Region) (s : State) : (modRegion r f s).cores = s.cores := rfl
@[simp] theorem modRegion_linkSeq (r : Nat) (f : Region → Region) (s : State) : (modRegion r f s).linkSeq = s.linkSeq := rfl
@[simp] theorem modRegion_memSeq (r : Nat) (f : Region → Region) (s : State) : (modRegion r f s).memSeq = s.memSeq := rfl
@[simp] theorem modRegion_runs (r : Nat) (f : Region → Region) (s : State) : (modRegion r f s).runs = s.runs := rfl
@[simp] theorem modRegion_expertPages (r : Nat) (f : Region → Region) (s : State) : (modRegion r f s).expertPages = s.expertPages := rfl
@[simp] theorem modRegion_stats (r : Nat) (f : Region → Region) (s : State) : (modRegion r f s).stats = s.stats := rfl
@[simp] theorem modRegion_groups (r : Nat) (f : Region → Region) (s : State) : (modRegion r f s).groups = s.groups := rfl
@[simp] theorem modRegion_nmu (r : Nat) (f : Region → Region) (s : State) : (modRegion r f s).nmu = s.nmu := rfl
@[simp] theorem modRegion_memory (r : Nat) (f : Region → Region) (s : State) : (modRegion r f s).memory = s.memory := rfl
@[simp] theorem modRegion_engines (r : Nat) (f : Region → Region) (s : State) : (modRegion r f s).engines = s.engines := rfl
@[simp] theorem modRegion_links (r : Nat) (f : Region → Region) (s : State) : (modRegion r f s).links = s.links := rfl
@[simp] theorem modRegion_passes (r : Nat) (f : Region → Region) (s : State) : (modRegion r f s).passes = s.passes := rfl
@[simp] theorem modRegion_nextPass (r : Nat) (f : Region → Region) (s : State) : (modRegion r f s).nextPass = s.nextPass := rfl
@[simp] theorem modRegion_calib (r : Nat) (f : Region → Region) (s : State) : (modRegion r f s).calib = s.calib := rfl
@[simp] theorem modRegion_pals (r : Nat) (f : Region → Region) (s : State) : (modRegion r f s).pals = s.pals := rfl
@[simp] theorem modRegion_mate (r : Nat) (f : Region → Region) (s : State) : (modRegion r f s).mate = s.mate := rfl
@[simp] theorem modRegion_card (r : Nat) (f : Region → Region) (s : State) : (modRegion r f s).card = s.card := rfl
@[simp] theorem modRegion_devFlags (r : Nat) (f : Region → Region) (s : State) : (modRegion r f s).devFlags = s.devFlags := rfl
@[simp] theorem modRegion_devCounts (r : Nat) (f : Region → Region) (s : State) : (modRegion r f s).devCounts = s.devCounts := rfl
@[simp] theorem modRegion_msix (r : Nat) (f : Region → Region) (s : State) : (modRegion r f s).msix = s.msix := rfl
@[simp] theorem modRegion_sentFrames (r : Nat) (f : Region → Region) (s : State) : (modRegion r f s).sentFrames = s.sentFrames := rfl
@[simp] theorem modRegion_sentFar (r : Nat) (f : Region → Region) (s : State) : (modRegion r f s).sentFar = s.sentFar := rfl

/-! ## drawFree -/

@[simp] theorem drawFree_pending (n : Nat) (s : State) : (drawFree n s).pending = s.pending := rfl
@[simp] theorem drawFree_time (n : Nat) (s : State) : (drawFree n s).time = s.time := rfl
@[simp] theorem drawFree_mod (n : Nat) (s : State) : (drawFree n s).mod = s.mod := rfl
@[simp] theorem drawFree_flash (n : Nat) (s : State) : (drawFree n s).flash = s.flash := rfl
@[simp] theorem drawFree_portA (n : Nat) (s : State) : (drawFree n s).portA = s.portA := rfl
@[simp] theorem drawFree_portB (n : Nat) (s : State) : (drawFree n s).portB = s.portB := rfl
@[simp] theorem drawFree_slots (n : Nat) (s : State) : (drawFree n s).slots = s.slots := rfl
@[simp] theorem drawFree_descs (n : Nat) (s : State) : (drawFree n s).descs = s.descs := rfl
@[simp] theorem drawFree_nextDesc (n : Nat) (s : State) : (drawFree n s).nextDesc = s.nextDesc := rfl
@[simp] theorem drawFree_cores (n : Nat) (s : State) : (drawFree n s).cores = s.cores := rfl
@[simp] theorem drawFree_linkSeq (n : Nat) (s : State) : (drawFree n s).linkSeq = s.linkSeq := rfl
@[simp] theorem drawFree_memSeq (n : Nat) (s : State) : (drawFree n s).memSeq = s.memSeq := rfl
@[simp] theorem drawFree_runs (n : Nat) (s : State) : (drawFree n s).runs = s.runs := rfl
@[simp] theorem drawFree_expertPages (n : Nat) (s : State) : (drawFree n s).expertPages = s.expertPages := rfl
@[simp] theorem drawFree_stats (n : Nat) (s : State) : (drawFree n s).stats = s.stats := rfl
@[simp] theorem drawFree_groups (n : Nat) (s : State) : (drawFree n s).groups = s.groups := rfl
@[simp] theorem drawFree_nmu (n : Nat) (s : State) : (drawFree n s).nmu = s.nmu := rfl
@[simp] theorem drawFree_memory (n : Nat) (s : State) : (drawFree n s).memory = s.memory := rfl
@[simp] theorem drawFree_engines (n : Nat) (s : State) : (drawFree n s).engines = s.engines := rfl
@[simp] theorem drawFree_links (n : Nat) (s : State) : (drawFree n s).links = s.links := rfl
@[simp] theorem drawFree_passes (n : Nat) (s : State) : (drawFree n s).passes = s.passes := rfl
@[simp] theorem drawFree_nextPass (n : Nat) (s : State) : (drawFree n s).nextPass = s.nextPass := rfl
@[simp] theorem drawFree_calib (n : Nat) (s : State) : (drawFree n s).calib = s.calib := rfl
@[simp] theorem drawFree_pals (n : Nat) (s : State) : (drawFree n s).pals = s.pals := rfl
@[simp] theorem drawFree_regions (n : Nat) (s : State) : (drawFree n s).regions = s.regions := rfl
@[simp] theorem drawFree_mate (n : Nat) (s : State) : (drawFree n s).mate = s.mate := rfl
@[simp] theorem drawFree_card (n : Nat) (s : State) : (drawFree n s).card = s.card := rfl
@[simp] theorem drawFree_devFlags (n : Nat) (s : State) : (drawFree n s).devFlags = s.devFlags := rfl
@[simp] theorem drawFree_devCounts (n : Nat) (s : State) : (drawFree n s).devCounts = s.devCounts := rfl
@[simp] theorem drawFree_msix (n : Nat) (s : State) : (drawFree n s).msix = s.msix := rfl
@[simp] theorem drawFree_sentFrames (n : Nat) (s : State) : (drawFree n s).sentFrames = s.sentFrames := rfl
@[simp] theorem drawFree_sentFar (n : Nat) (s : State) : (drawFree n s).sentFar = s.sentFar := rfl

/-! ## raiseEvent -/

@[simp] theorem raiseEvent_pending (code : Nat) (args : List Nat) (s : State) : (raiseEvent code args s).pending = s.pending := rfl
@[simp] theorem raiseEvent_free (code : Nat) (args : List Nat) (s : State) : (raiseEvent code args s).free = s.free := rfl
@[simp] theorem raiseEvent_time (code : Nat) (args : List Nat) (s : State) : (raiseEvent code args s).time = s.time := rfl
@[simp] theorem raiseEvent_mod (code : Nat) (args : List Nat) (s : State) : (raiseEvent code args s).mod = s.mod := rfl
@[simp] theorem raiseEvent_flash (code : Nat) (args : List Nat) (s : State) : (raiseEvent code args s).flash = s.flash := rfl
@[simp] theorem raiseEvent_portA (code : Nat) (args : List Nat) (s : State) : (raiseEvent code args s).portA = s.portA := rfl
@[simp] theorem raiseEvent_portB (code : Nat) (args : List Nat) (s : State) : (raiseEvent code args s).portB = s.portB := rfl
@[simp] theorem raiseEvent_slots (code : Nat) (args : List Nat) (s : State) : (raiseEvent code args s).slots = s.slots := rfl
@[simp] theorem raiseEvent_descs (code : Nat) (args : List Nat) (s : State) : (raiseEvent code args s).descs = s.descs := rfl
@[simp] theorem raiseEvent_nextDesc (code : Nat) (args : List Nat) (s : State) : (raiseEvent code args s).nextDesc = s.nextDesc := rfl
@[simp] theorem raiseEvent_cores (code : Nat) (args : List Nat) (s : State) : (raiseEvent code args s).cores = s.cores := rfl
@[simp] theorem raiseEvent_linkSeq (code : Nat) (args : List Nat) (s : State) : (raiseEvent code args s).linkSeq = s.linkSeq := rfl
@[simp] theorem raiseEvent_memSeq (code : Nat) (args : List Nat) (s : State) : (raiseEvent code args s).memSeq = s.memSeq := rfl
@[simp] theorem raiseEvent_runs (code : Nat) (args : List Nat) (s : State) : (raiseEvent code args s).runs = s.runs := rfl
@[simp] theorem raiseEvent_expertPages (code : Nat) (args : List Nat) (s : State) : (raiseEvent code args s).expertPages = s.expertPages := rfl
@[simp] theorem raiseEvent_stats (code : Nat) (args : List Nat) (s : State) : (raiseEvent code args s).stats = s.stats := rfl
@[simp] theorem raiseEvent_groups (code : Nat) (args : List Nat) (s : State) : (raiseEvent code args s).groups = s.groups := rfl
@[simp] theorem raiseEvent_nmu (code : Nat) (args : List Nat) (s : State) : (raiseEvent code args s).nmu = s.nmu := rfl
@[simp] theorem raiseEvent_memory (code : Nat) (args : List Nat) (s : State) : (raiseEvent code args s).memory = s.memory := rfl
@[simp] theorem raiseEvent_engines (code : Nat) (args : List Nat) (s : State) : (raiseEvent code args s).engines = s.engines := rfl
@[simp] theorem raiseEvent_links (code : Nat) (args : List Nat) (s : State) : (raiseEvent code args s).links = s.links := rfl
@[simp] theorem raiseEvent_passes (code : Nat) (args : List Nat) (s : State) : (raiseEvent code args s).passes = s.passes := rfl
@[simp] theorem raiseEvent_nextPass (code : Nat) (args : List Nat) (s : State) : (raiseEvent code args s).nextPass = s.nextPass := rfl
@[simp] theorem raiseEvent_calib (code : Nat) (args : List Nat) (s : State) : (raiseEvent code args s).calib = s.calib := rfl
@[simp] theorem raiseEvent_pals (code : Nat) (args : List Nat) (s : State) : (raiseEvent code args s).pals = s.pals := rfl
@[simp] theorem raiseEvent_regions (code : Nat) (args : List Nat) (s : State) : (raiseEvent code args s).regions = s.regions := rfl
@[simp] theorem raiseEvent_mate (code : Nat) (args : List Nat) (s : State) : (raiseEvent code args s).mate = s.mate := rfl
@[simp] theorem raiseEvent_devFlags (code : Nat) (args : List Nat) (s : State) : (raiseEvent code args s).devFlags = s.devFlags := rfl
@[simp] theorem raiseEvent_devCounts (code : Nat) (args : List Nat) (s : State) : (raiseEvent code args s).devCounts = s.devCounts := rfl
@[simp] theorem raiseEvent_msix (code : Nat) (args : List Nat) (s : State) : (raiseEvent code args s).msix = s.msix := rfl
@[simp] theorem raiseEvent_sentFrames (code : Nat) (args : List Nat) (s : State) : (raiseEvent code args s).sentFrames = s.sentFrames := rfl
@[simp] theorem raiseEvent_sentFar (code : Nat) (args : List Nat) (s : State) : (raiseEvent code args s).sentFar = s.sentFar := rfl

/-! ## countCard -/

@[simp] theorem countCard_pending (word n : Nat) (s : State) : (countCard word n s).pending = s.pending := rfl
@[simp] theorem countCard_free (word n : Nat) (s : State) : (countCard word n s).free = s.free := rfl
@[simp] theorem countCard_time (word n : Nat) (s : State) : (countCard word n s).time = s.time := rfl
@[simp] theorem countCard_mod (word n : Nat) (s : State) : (countCard word n s).mod = s.mod := rfl
@[simp] theorem countCard_flash (word n : Nat) (s : State) : (countCard word n s).flash = s.flash := rfl
@[simp] theorem countCard_portA (word n : Nat) (s : State) : (countCard word n s).portA = s.portA := rfl
@[simp] theorem countCard_portB (word n : Nat) (s : State) : (countCard word n s).portB = s.portB := rfl
@[simp] theorem countCard_slots (word n : Nat) (s : State) : (countCard word n s).slots = s.slots := rfl
@[simp] theorem countCard_descs (word n : Nat) (s : State) : (countCard word n s).descs = s.descs := rfl
@[simp] theorem countCard_nextDesc (word n : Nat) (s : State) : (countCard word n s).nextDesc = s.nextDesc := rfl
@[simp] theorem countCard_cores (word n : Nat) (s : State) : (countCard word n s).cores = s.cores := rfl
@[simp] theorem countCard_linkSeq (word n : Nat) (s : State) : (countCard word n s).linkSeq = s.linkSeq := rfl
@[simp] theorem countCard_memSeq (word n : Nat) (s : State) : (countCard word n s).memSeq = s.memSeq := rfl
@[simp] theorem countCard_runs (word n : Nat) (s : State) : (countCard word n s).runs = s.runs := rfl
@[simp] theorem countCard_expertPages (word n : Nat) (s : State) : (countCard word n s).expertPages = s.expertPages := rfl
@[simp] theorem countCard_stats (word n : Nat) (s : State) : (countCard word n s).stats = s.stats := rfl
@[simp] theorem countCard_groups (word n : Nat) (s : State) : (countCard word n s).groups = s.groups := rfl
@[simp] theorem countCard_nmu (word n : Nat) (s : State) : (countCard word n s).nmu = s.nmu := rfl
@[simp] theorem countCard_memory (word n : Nat) (s : State) : (countCard word n s).memory = s.memory := rfl
@[simp] theorem countCard_engines (word n : Nat) (s : State) : (countCard word n s).engines = s.engines := rfl
@[simp] theorem countCard_links (word n : Nat) (s : State) : (countCard word n s).links = s.links := rfl
@[simp] theorem countCard_passes (word n : Nat) (s : State) : (countCard word n s).passes = s.passes := rfl
@[simp] theorem countCard_nextPass (word n : Nat) (s : State) : (countCard word n s).nextPass = s.nextPass := rfl
@[simp] theorem countCard_calib (word n : Nat) (s : State) : (countCard word n s).calib = s.calib := rfl
@[simp] theorem countCard_pals (word n : Nat) (s : State) : (countCard word n s).pals = s.pals := rfl
@[simp] theorem countCard_regions (word n : Nat) (s : State) : (countCard word n s).regions = s.regions := rfl
@[simp] theorem countCard_mate (word n : Nat) (s : State) : (countCard word n s).mate = s.mate := rfl
@[simp] theorem countCard_devFlags (word n : Nat) (s : State) : (countCard word n s).devFlags = s.devFlags := rfl
@[simp] theorem countCard_devCounts (word n : Nat) (s : State) : (countCard word n s).devCounts = s.devCounts := rfl
@[simp] theorem countCard_msix (word n : Nat) (s : State) : (countCard word n s).msix = s.msix := rfl
@[simp] theorem countCard_sentFrames (word n : Nat) (s : State) : (countCard word n s).sentFrames = s.sentFrames := rfl
@[simp] theorem countCard_sentFar (word n : Nat) (s : State) : (countCard word n s).sentFar = s.sentFar := rfl

/-! ## orCard -/

@[simp] theorem orCard_pending (word bits : Nat) (s : State) : (orCard word bits s).pending = s.pending := rfl
@[simp] theorem orCard_free (word bits : Nat) (s : State) : (orCard word bits s).free = s.free := rfl
@[simp] theorem orCard_time (word bits : Nat) (s : State) : (orCard word bits s).time = s.time := rfl
@[simp] theorem orCard_mod (word bits : Nat) (s : State) : (orCard word bits s).mod = s.mod := rfl
@[simp] theorem orCard_flash (word bits : Nat) (s : State) : (orCard word bits s).flash = s.flash := rfl
@[simp] theorem orCard_portA (word bits : Nat) (s : State) : (orCard word bits s).portA = s.portA := rfl
@[simp] theorem orCard_portB (word bits : Nat) (s : State) : (orCard word bits s).portB = s.portB := rfl
@[simp] theorem orCard_slots (word bits : Nat) (s : State) : (orCard word bits s).slots = s.slots := rfl
@[simp] theorem orCard_descs (word bits : Nat) (s : State) : (orCard word bits s).descs = s.descs := rfl
@[simp] theorem orCard_nextDesc (word bits : Nat) (s : State) : (orCard word bits s).nextDesc = s.nextDesc := rfl
@[simp] theorem orCard_cores (word bits : Nat) (s : State) : (orCard word bits s).cores = s.cores := rfl
@[simp] theorem orCard_linkSeq (word bits : Nat) (s : State) : (orCard word bits s).linkSeq = s.linkSeq := rfl
@[simp] theorem orCard_memSeq (word bits : Nat) (s : State) : (orCard word bits s).memSeq = s.memSeq := rfl
@[simp] theorem orCard_runs (word bits : Nat) (s : State) : (orCard word bits s).runs = s.runs := rfl
@[simp] theorem orCard_expertPages (word bits : Nat) (s : State) : (orCard word bits s).expertPages = s.expertPages := rfl
@[simp] theorem orCard_stats (word bits : Nat) (s : State) : (orCard word bits s).stats = s.stats := rfl
@[simp] theorem orCard_groups (word bits : Nat) (s : State) : (orCard word bits s).groups = s.groups := rfl
@[simp] theorem orCard_nmu (word bits : Nat) (s : State) : (orCard word bits s).nmu = s.nmu := rfl
@[simp] theorem orCard_memory (word bits : Nat) (s : State) : (orCard word bits s).memory = s.memory := rfl
@[simp] theorem orCard_engines (word bits : Nat) (s : State) : (orCard word bits s).engines = s.engines := rfl
@[simp] theorem orCard_links (word bits : Nat) (s : State) : (orCard word bits s).links = s.links := rfl
@[simp] theorem orCard_passes (word bits : Nat) (s : State) : (orCard word bits s).passes = s.passes := rfl
@[simp] theorem orCard_nextPass (word bits : Nat) (s : State) : (orCard word bits s).nextPass = s.nextPass := rfl
@[simp] theorem orCard_calib (word bits : Nat) (s : State) : (orCard word bits s).calib = s.calib := rfl
@[simp] theorem orCard_pals (word bits : Nat) (s : State) : (orCard word bits s).pals = s.pals := rfl
@[simp] theorem orCard_regions (word bits : Nat) (s : State) : (orCard word bits s).regions = s.regions := rfl
@[simp] theorem orCard_mate (word bits : Nat) (s : State) : (orCard word bits s).mate = s.mate := rfl
@[simp] theorem orCard_devFlags (word bits : Nat) (s : State) : (orCard word bits s).devFlags = s.devFlags := rfl
@[simp] theorem orCard_devCounts (word bits : Nat) (s : State) : (orCard word bits s).devCounts = s.devCounts := rfl
@[simp] theorem orCard_msix (word bits : Nat) (s : State) : (orCard word bits s).msix = s.msix := rfl
@[simp] theorem orCard_sentFrames (word bits : Nat) (s : State) : (orCard word bits s).sentFrames = s.sentFrames := rfl
@[simp] theorem orCard_sentFar (word bits : Nat) (s : State) : (orCard word bits s).sentFar = s.sentFar := rfl

/-! ## addStall -/

@[simp] theorem addStall_pending (cause ns : Nat) (s : State) : (addStall cause ns s).pending = s.pending := rfl
@[simp] theorem addStall_free (cause ns : Nat) (s : State) : (addStall cause ns s).free = s.free := rfl
@[simp] theorem addStall_time (cause ns : Nat) (s : State) : (addStall cause ns s).time = s.time := rfl
@[simp] theorem addStall_mod (cause ns : Nat) (s : State) : (addStall cause ns s).mod = s.mod := rfl
@[simp] theorem addStall_flash (cause ns : Nat) (s : State) : (addStall cause ns s).flash = s.flash := rfl
@[simp] theorem addStall_portA (cause ns : Nat) (s : State) : (addStall cause ns s).portA = s.portA := rfl
@[simp] theorem addStall_portB (cause ns : Nat) (s : State) : (addStall cause ns s).portB = s.portB := rfl
@[simp] theorem addStall_slots (cause ns : Nat) (s : State) : (addStall cause ns s).slots = s.slots := rfl
@[simp] theorem addStall_descs (cause ns : Nat) (s : State) : (addStall cause ns s).descs = s.descs := rfl
@[simp] theorem addStall_nextDesc (cause ns : Nat) (s : State) : (addStall cause ns s).nextDesc = s.nextDesc := rfl
@[simp] theorem addStall_cores (cause ns : Nat) (s : State) : (addStall cause ns s).cores = s.cores := rfl
@[simp] theorem addStall_linkSeq (cause ns : Nat) (s : State) : (addStall cause ns s).linkSeq = s.linkSeq := rfl
@[simp] theorem addStall_memSeq (cause ns : Nat) (s : State) : (addStall cause ns s).memSeq = s.memSeq := rfl
@[simp] theorem addStall_runs (cause ns : Nat) (s : State) : (addStall cause ns s).runs = s.runs := rfl
@[simp] theorem addStall_expertPages (cause ns : Nat) (s : State) : (addStall cause ns s).expertPages = s.expertPages := rfl
@[simp] theorem addStall_stats (cause ns : Nat) (s : State) : (addStall cause ns s).stats = s.stats := rfl
@[simp] theorem addStall_groups (cause ns : Nat) (s : State) : (addStall cause ns s).groups = s.groups := rfl
@[simp] theorem addStall_nmu (cause ns : Nat) (s : State) : (addStall cause ns s).nmu = s.nmu := rfl
@[simp] theorem addStall_memory (cause ns : Nat) (s : State) : (addStall cause ns s).memory = s.memory := rfl
@[simp] theorem addStall_engines (cause ns : Nat) (s : State) : (addStall cause ns s).engines = s.engines := rfl
@[simp] theorem addStall_links (cause ns : Nat) (s : State) : (addStall cause ns s).links = s.links := rfl
@[simp] theorem addStall_passes (cause ns : Nat) (s : State) : (addStall cause ns s).passes = s.passes := rfl
@[simp] theorem addStall_nextPass (cause ns : Nat) (s : State) : (addStall cause ns s).nextPass = s.nextPass := rfl
@[simp] theorem addStall_calib (cause ns : Nat) (s : State) : (addStall cause ns s).calib = s.calib := rfl
@[simp] theorem addStall_pals (cause ns : Nat) (s : State) : (addStall cause ns s).pals = s.pals := rfl
@[simp] theorem addStall_regions (cause ns : Nat) (s : State) : (addStall cause ns s).regions = s.regions := rfl
@[simp] theorem addStall_mate (cause ns : Nat) (s : State) : (addStall cause ns s).mate = s.mate := rfl
@[simp] theorem addStall_devFlags (cause ns : Nat) (s : State) : (addStall cause ns s).devFlags = s.devFlags := rfl
@[simp] theorem addStall_devCounts (cause ns : Nat) (s : State) : (addStall cause ns s).devCounts = s.devCounts := rfl
@[simp] theorem addStall_msix (cause ns : Nat) (s : State) : (addStall cause ns s).msix = s.msix := rfl
@[simp] theorem addStall_sentFrames (cause ns : Nat) (s : State) : (addStall cause ns s).sentFrames = s.sentFrames := rfl
@[simp] theorem addStall_sentFar (cause ns : Nat) (s : State) : (addStall cause ns s).sentFar = s.sentFar := rfl

/-! ## addDecision -/

@[simp] theorem addDecision_pending (d : DecisionRec) (s : State) : (addDecision d s).pending = s.pending := rfl
@[simp] theorem addDecision_free (d : DecisionRec) (s : State) : (addDecision d s).free = s.free := rfl
@[simp] theorem addDecision_time (d : DecisionRec) (s : State) : (addDecision d s).time = s.time := rfl
@[simp] theorem addDecision_mod (d : DecisionRec) (s : State) : (addDecision d s).mod = s.mod := rfl
@[simp] theorem addDecision_flash (d : DecisionRec) (s : State) : (addDecision d s).flash = s.flash := rfl
@[simp] theorem addDecision_portA (d : DecisionRec) (s : State) : (addDecision d s).portA = s.portA := rfl
@[simp] theorem addDecision_portB (d : DecisionRec) (s : State) : (addDecision d s).portB = s.portB := rfl
@[simp] theorem addDecision_slots (d : DecisionRec) (s : State) : (addDecision d s).slots = s.slots := rfl
@[simp] theorem addDecision_descs (d : DecisionRec) (s : State) : (addDecision d s).descs = s.descs := rfl
@[simp] theorem addDecision_nextDesc (d : DecisionRec) (s : State) : (addDecision d s).nextDesc = s.nextDesc := rfl
@[simp] theorem addDecision_cores (d : DecisionRec) (s : State) : (addDecision d s).cores = s.cores := rfl
@[simp] theorem addDecision_linkSeq (d : DecisionRec) (s : State) : (addDecision d s).linkSeq = s.linkSeq := rfl
@[simp] theorem addDecision_memSeq (d : DecisionRec) (s : State) : (addDecision d s).memSeq = s.memSeq := rfl
@[simp] theorem addDecision_runs (d : DecisionRec) (s : State) : (addDecision d s).runs = s.runs := rfl
@[simp] theorem addDecision_expertPages (d : DecisionRec) (s : State) : (addDecision d s).expertPages = s.expertPages := rfl
@[simp] theorem addDecision_stats (d : DecisionRec) (s : State) : (addDecision d s).stats = s.stats := rfl
@[simp] theorem addDecision_groups (d : DecisionRec) (s : State) : (addDecision d s).groups = s.groups := rfl
@[simp] theorem addDecision_nmu (d : DecisionRec) (s : State) : (addDecision d s).nmu = s.nmu := rfl
@[simp] theorem addDecision_memory (d : DecisionRec) (s : State) : (addDecision d s).memory = s.memory := rfl
@[simp] theorem addDecision_engines (d : DecisionRec) (s : State) : (addDecision d s).engines = s.engines := rfl
@[simp] theorem addDecision_links (d : DecisionRec) (s : State) : (addDecision d s).links = s.links := rfl
@[simp] theorem addDecision_passes (d : DecisionRec) (s : State) : (addDecision d s).passes = s.passes := rfl
@[simp] theorem addDecision_nextPass (d : DecisionRec) (s : State) : (addDecision d s).nextPass = s.nextPass := rfl
@[simp] theorem addDecision_calib (d : DecisionRec) (s : State) : (addDecision d s).calib = s.calib := rfl
@[simp] theorem addDecision_pals (d : DecisionRec) (s : State) : (addDecision d s).pals = s.pals := rfl
@[simp] theorem addDecision_regions (d : DecisionRec) (s : State) : (addDecision d s).regions = s.regions := rfl
@[simp] theorem addDecision_mate (d : DecisionRec) (s : State) : (addDecision d s).mate = s.mate := rfl
@[simp] theorem addDecision_devFlags (d : DecisionRec) (s : State) : (addDecision d s).devFlags = s.devFlags := rfl
@[simp] theorem addDecision_devCounts (d : DecisionRec) (s : State) : (addDecision d s).devCounts = s.devCounts := rfl
@[simp] theorem addDecision_msix (d : DecisionRec) (s : State) : (addDecision d s).msix = s.msix := rfl
@[simp] theorem addDecision_sentFrames (d : DecisionRec) (s : State) : (addDecision d s).sentFrames = s.sentFrames := rfl
@[simp] theorem addDecision_sentFar (d : DecisionRec) (s : State) : (addDecision d s).sentFar = s.sentFar := rfl

/-! ## modPort, modChan, modSeq -/

@[simp] theorem modPort_pending (p : Port) (f : PortSt → PortSt) (s : State) : (modPort p f s).pending = s.pending := by cases p <;> rfl
@[simp] theorem modPort_free (p : Port) (f : PortSt → PortSt) (s : State) : (modPort p f s).free = s.free := by cases p <;> rfl
@[simp] theorem modPort_time (p : Port) (f : PortSt → PortSt) (s : State) : (modPort p f s).time = s.time := by cases p <;> rfl
@[simp] theorem modPort_mod (p : Port) (f : PortSt → PortSt) (s : State) : (modPort p f s).mod = s.mod := by cases p <;> rfl
@[simp] theorem modPort_flash (p : Port) (f : PortSt → PortSt) (s : State) : (modPort p f s).flash = s.flash := by cases p <;> rfl
@[simp] theorem modPort_slots (p : Port) (f : PortSt → PortSt) (s : State) : (modPort p f s).slots = s.slots := by cases p <;> rfl
@[simp] theorem modPort_descs (p : Port) (f : PortSt → PortSt) (s : State) : (modPort p f s).descs = s.descs := by cases p <;> rfl
@[simp] theorem modPort_nextDesc (p : Port) (f : PortSt → PortSt) (s : State) : (modPort p f s).nextDesc = s.nextDesc := by cases p <;> rfl
@[simp] theorem modPort_cores (p : Port) (f : PortSt → PortSt) (s : State) : (modPort p f s).cores = s.cores := by cases p <;> rfl
@[simp] theorem modPort_linkSeq (p : Port) (f : PortSt → PortSt) (s : State) : (modPort p f s).linkSeq = s.linkSeq := by cases p <;> rfl
@[simp] theorem modPort_memSeq (p : Port) (f : PortSt → PortSt) (s : State) : (modPort p f s).memSeq = s.memSeq := by cases p <;> rfl
@[simp] theorem modPort_runs (p : Port) (f : PortSt → PortSt) (s : State) : (modPort p f s).runs = s.runs := by cases p <;> rfl
@[simp] theorem modPort_expertPages (p : Port) (f : PortSt → PortSt) (s : State) : (modPort p f s).expertPages = s.expertPages := by cases p <;> rfl
@[simp] theorem modPort_stats (p : Port) (f : PortSt → PortSt) (s : State) : (modPort p f s).stats = s.stats := by cases p <;> rfl
@[simp] theorem modPort_groups (p : Port) (f : PortSt → PortSt) (s : State) : (modPort p f s).groups = s.groups := by cases p <;> rfl
@[simp] theorem modPort_nmu (p : Port) (f : PortSt → PortSt) (s : State) : (modPort p f s).nmu = s.nmu := by cases p <;> rfl
@[simp] theorem modPort_memory (p : Port) (f : PortSt → PortSt) (s : State) : (modPort p f s).memory = s.memory := by cases p <;> rfl
@[simp] theorem modPort_engines (p : Port) (f : PortSt → PortSt) (s : State) : (modPort p f s).engines = s.engines := by cases p <;> rfl
@[simp] theorem modPort_links (p : Port) (f : PortSt → PortSt) (s : State) : (modPort p f s).links = s.links := by cases p <;> rfl
@[simp] theorem modPort_passes (p : Port) (f : PortSt → PortSt) (s : State) : (modPort p f s).passes = s.passes := by cases p <;> rfl
@[simp] theorem modPort_nextPass (p : Port) (f : PortSt → PortSt) (s : State) : (modPort p f s).nextPass = s.nextPass := by cases p <;> rfl
@[simp] theorem modPort_calib (p : Port) (f : PortSt → PortSt) (s : State) : (modPort p f s).calib = s.calib := by cases p <;> rfl
@[simp] theorem modPort_pals (p : Port) (f : PortSt → PortSt) (s : State) : (modPort p f s).pals = s.pals := by cases p <;> rfl
@[simp] theorem modPort_regions (p : Port) (f : PortSt → PortSt) (s : State) : (modPort p f s).regions = s.regions := by cases p <;> rfl
@[simp] theorem modPort_mate (p : Port) (f : PortSt → PortSt) (s : State) : (modPort p f s).mate = s.mate := by cases p <;> rfl
@[simp] theorem modPort_card (p : Port) (f : PortSt → PortSt) (s : State) : (modPort p f s).card = s.card := by cases p <;> rfl
@[simp] theorem modPort_devFlags (p : Port) (f : PortSt → PortSt) (s : State) : (modPort p f s).devFlags = s.devFlags := by cases p <;> rfl
@[simp] theorem modPort_devCounts (p : Port) (f : PortSt → PortSt) (s : State) : (modPort p f s).devCounts = s.devCounts := by cases p <;> rfl
@[simp] theorem modPort_msix (p : Port) (f : PortSt → PortSt) (s : State) : (modPort p f s).msix = s.msix := by cases p <;> rfl
@[simp] theorem modPort_sentFrames (p : Port) (f : PortSt → PortSt) (s : State) : (modPort p f s).sentFrames = s.sentFrames := by cases p <;> rfl
@[simp] theorem modPort_sentFar (p : Port) (f : PortSt → PortSt) (s : State) : (modPort p f s).sentFar = s.sentFar := by cases p <;> rfl
@[simp] theorem modChan_pending (i : Nat) (f : Chan → Chan) (s : State) : (modChan i f s).pending = s.pending := by
  unfold modChan; split <;> rfl
@[simp] theorem modChan_free (i : Nat) (f : Chan → Chan) (s : State) : (modChan i f s).free = s.free := by
  unfold modChan; split <;> rfl
@[simp] theorem modChan_time (i : Nat) (f : Chan → Chan) (s : State) : (modChan i f s).time = s.time := by
  unfold modChan; split <;> rfl
@[simp] theorem modChan_mod (i : Nat) (f : Chan → Chan) (s : State) : (modChan i f s).mod = s.mod := by
  unfold modChan; split <;> rfl
@[simp] theorem modChan_flash (i : Nat) (f : Chan → Chan) (s : State) : (modChan i f s).flash = s.flash := by
  unfold modChan; split <;> rfl
@[simp] theorem modChan_portA (i : Nat) (f : Chan → Chan) (s : State) : (modChan i f s).portA = s.portA := by
  unfold modChan; split <;> rfl
@[simp] theorem modChan_portB (i : Nat) (f : Chan → Chan) (s : State) : (modChan i f s).portB = s.portB := by
  unfold modChan; split <;> rfl
@[simp] theorem modChan_descs (i : Nat) (f : Chan → Chan) (s : State) : (modChan i f s).descs = s.descs := by
  unfold modChan; split <;> rfl
@[simp] theorem modChan_nextDesc (i : Nat) (f : Chan → Chan) (s : State) : (modChan i f s).nextDesc = s.nextDesc := by
  unfold modChan; split <;> rfl
@[simp] theorem modChan_cores (i : Nat) (f : Chan → Chan) (s : State) : (modChan i f s).cores = s.cores := by
  unfold modChan; split <;> rfl
@[simp] theorem modChan_linkSeq (i : Nat) (f : Chan → Chan) (s : State) : (modChan i f s).linkSeq = s.linkSeq := by
  unfold modChan; split <;> rfl
@[simp] theorem modChan_memSeq (i : Nat) (f : Chan → Chan) (s : State) : (modChan i f s).memSeq = s.memSeq := by
  unfold modChan; split <;> rfl
@[simp] theorem modChan_runs (i : Nat) (f : Chan → Chan) (s : State) : (modChan i f s).runs = s.runs := by
  unfold modChan; split <;> rfl
@[simp] theorem modChan_expertPages (i : Nat) (f : Chan → Chan) (s : State) : (modChan i f s).expertPages = s.expertPages := by
  unfold modChan; split <;> rfl
@[simp] theorem modChan_stats (i : Nat) (f : Chan → Chan) (s : State) : (modChan i f s).stats = s.stats := by
  unfold modChan; split <;> rfl
@[simp] theorem modChan_groups (i : Nat) (f : Chan → Chan) (s : State) : (modChan i f s).groups = s.groups := by
  unfold modChan; split <;> rfl
@[simp] theorem modChan_nmu (i : Nat) (f : Chan → Chan) (s : State) : (modChan i f s).nmu = s.nmu := by
  unfold modChan; split <;> rfl
@[simp] theorem modChan_memory (i : Nat) (f : Chan → Chan) (s : State) : (modChan i f s).memory = s.memory := by
  unfold modChan; split <;> rfl
@[simp] theorem modChan_engines (i : Nat) (f : Chan → Chan) (s : State) : (modChan i f s).engines = s.engines := by
  unfold modChan; split <;> rfl
@[simp] theorem modChan_links (i : Nat) (f : Chan → Chan) (s : State) : (modChan i f s).links = s.links := by
  unfold modChan; split <;> rfl
@[simp] theorem modChan_passes (i : Nat) (f : Chan → Chan) (s : State) : (modChan i f s).passes = s.passes := by
  unfold modChan; split <;> rfl
@[simp] theorem modChan_nextPass (i : Nat) (f : Chan → Chan) (s : State) : (modChan i f s).nextPass = s.nextPass := by
  unfold modChan; split <;> rfl
@[simp] theorem modChan_calib (i : Nat) (f : Chan → Chan) (s : State) : (modChan i f s).calib = s.calib := by
  unfold modChan; split <;> rfl
@[simp] theorem modChan_pals (i : Nat) (f : Chan → Chan) (s : State) : (modChan i f s).pals = s.pals := by
  unfold modChan; split <;> rfl
@[simp] theorem modChan_regions (i : Nat) (f : Chan → Chan) (s : State) : (modChan i f s).regions = s.regions := by
  unfold modChan; split <;> rfl
@[simp] theorem modChan_mate (i : Nat) (f : Chan → Chan) (s : State) : (modChan i f s).mate = s.mate := by
  unfold modChan; split <;> rfl
@[simp] theorem modChan_card (i : Nat) (f : Chan → Chan) (s : State) : (modChan i f s).card = s.card := by
  unfold modChan; split <;> rfl
@[simp] theorem modChan_devFlags (i : Nat) (f : Chan → Chan) (s : State) : (modChan i f s).devFlags = s.devFlags := by
  unfold modChan; split <;> rfl
@[simp] theorem modChan_devCounts (i : Nat) (f : Chan → Chan) (s : State) : (modChan i f s).devCounts = s.devCounts := by
  unfold modChan; split <;> rfl
@[simp] theorem modChan_msix (i : Nat) (f : Chan → Chan) (s : State) : (modChan i f s).msix = s.msix := by
  unfold modChan; split <;> rfl
@[simp] theorem modChan_sentFrames (i : Nat) (f : Chan → Chan) (s : State) : (modChan i f s).sentFrames = s.sentFrames := by
  unfold modChan; split <;> rfl
@[simp] theorem modChan_sentFar (i : Nat) (f : Chan → Chan) (s : State) : (modChan i f s).sentFar = s.sentFar := by
  unfold modChan; split <;> rfl
@[simp] theorem modSeq_pending (p : Place) (f : Seq → Seq) (s : State) : (modSeq p f s).pending = s.pending := by cases p <;> rfl
@[simp] theorem modSeq_free (p : Place) (f : Seq → Seq) (s : State) : (modSeq p f s).free = s.free := by cases p <;> rfl
@[simp] theorem modSeq_time (p : Place) (f : Seq → Seq) (s : State) : (modSeq p f s).time = s.time := by cases p <;> rfl
@[simp] theorem modSeq_mod (p : Place) (f : Seq → Seq) (s : State) : (modSeq p f s).mod = s.mod := by cases p <;> rfl
@[simp] theorem modSeq_flash (p : Place) (f : Seq → Seq) (s : State) : (modSeq p f s).flash = s.flash := by cases p <;> rfl
@[simp] theorem modSeq_portA (p : Place) (f : Seq → Seq) (s : State) : (modSeq p f s).portA = s.portA := by cases p <;> rfl
@[simp] theorem modSeq_portB (p : Place) (f : Seq → Seq) (s : State) : (modSeq p f s).portB = s.portB := by cases p <;> rfl
@[simp] theorem modSeq_slots (p : Place) (f : Seq → Seq) (s : State) : (modSeq p f s).slots = s.slots := by cases p <;> rfl
@[simp] theorem modSeq_descs (p : Place) (f : Seq → Seq) (s : State) : (modSeq p f s).descs = s.descs := by cases p <;> rfl
@[simp] theorem modSeq_nextDesc (p : Place) (f : Seq → Seq) (s : State) : (modSeq p f s).nextDesc = s.nextDesc := by cases p <;> rfl
@[simp] theorem modSeq_runs (p : Place) (f : Seq → Seq) (s : State) : (modSeq p f s).runs = s.runs := by cases p <;> rfl
@[simp] theorem modSeq_expertPages (p : Place) (f : Seq → Seq) (s : State) : (modSeq p f s).expertPages = s.expertPages := by cases p <;> rfl
@[simp] theorem modSeq_stats (p : Place) (f : Seq → Seq) (s : State) : (modSeq p f s).stats = s.stats := by cases p <;> rfl
@[simp] theorem modSeq_groups (p : Place) (f : Seq → Seq) (s : State) : (modSeq p f s).groups = s.groups := by cases p <;> rfl
@[simp] theorem modSeq_nmu (p : Place) (f : Seq → Seq) (s : State) : (modSeq p f s).nmu = s.nmu := by cases p <;> rfl
@[simp] theorem modSeq_memory (p : Place) (f : Seq → Seq) (s : State) : (modSeq p f s).memory = s.memory := by cases p <;> rfl
@[simp] theorem modSeq_engines (p : Place) (f : Seq → Seq) (s : State) : (modSeq p f s).engines = s.engines := by cases p <;> rfl
@[simp] theorem modSeq_links (p : Place) (f : Seq → Seq) (s : State) : (modSeq p f s).links = s.links := by cases p <;> rfl
@[simp] theorem modSeq_passes (p : Place) (f : Seq → Seq) (s : State) : (modSeq p f s).passes = s.passes := by cases p <;> rfl
@[simp] theorem modSeq_nextPass (p : Place) (f : Seq → Seq) (s : State) : (modSeq p f s).nextPass = s.nextPass := by cases p <;> rfl
@[simp] theorem modSeq_calib (p : Place) (f : Seq → Seq) (s : State) : (modSeq p f s).calib = s.calib := by cases p <;> rfl
@[simp] theorem modSeq_pals (p : Place) (f : Seq → Seq) (s : State) : (modSeq p f s).pals = s.pals := by cases p <;> rfl
@[simp] theorem modSeq_regions (p : Place) (f : Seq → Seq) (s : State) : (modSeq p f s).regions = s.regions := by cases p <;> rfl
@[simp] theorem modSeq_mate (p : Place) (f : Seq → Seq) (s : State) : (modSeq p f s).mate = s.mate := by cases p <;> rfl
@[simp] theorem modSeq_card (p : Place) (f : Seq → Seq) (s : State) : (modSeq p f s).card = s.card := by cases p <;> rfl
@[simp] theorem modSeq_devFlags (p : Place) (f : Seq → Seq) (s : State) : (modSeq p f s).devFlags = s.devFlags := by cases p <;> rfl
@[simp] theorem modSeq_devCounts (p : Place) (f : Seq → Seq) (s : State) : (modSeq p f s).devCounts = s.devCounts := by cases p <;> rfl
@[simp] theorem modSeq_msix (p : Place) (f : Seq → Seq) (s : State) : (modSeq p f s).msix = s.msix := by cases p <;> rfl
@[simp] theorem modSeq_sentFrames (p : Place) (f : Seq → Seq) (s : State) : (modSeq p f s).sentFrames = s.sentFrames := by cases p <;> rfl
@[simp] theorem modSeq_sentFar (p : Place) (f : Seq → Seq) (s : State) : (modSeq p f s).sentFar = s.sentFar := by cases p <;> rfl

/-! ## Tables -/

@[simp] theorem tget?_tset_same {α : Type} (t : Tbl α) (k : Nat) (v : α) : tget? (tset t k v) k = some v := by
  induction t with
  | nil => simp [tset, tget?]
  | cons e t ih =>
    obtain ⟨j, x⟩ := e
    unfold tset
    split
    · simp [tget?]
    · split
      · simp [tget?]
      · next h =>
        have hj : ¬ j = k := fun e => by simp [e] at h
        simp [tget?, hj, ih]

theorem tget?_tset_other {α : Type} (t : Tbl α) (k j : Nat) (v : α) (h : j ≠ k) : tget? (tset t k v) j = tget? t j := by
  have hk : ¬ k = j := fun e => h e.symm
  induction t with
  | nil => simp [tset, tget?, hk]
  | cons e t ih =>
    obtain ⟨i, x⟩ := e
    unfold tset
    split
    · simp [tget?, hk]
    · split
      · next hki =>
        have hki : k = i := by simpa using hki
        subst hki
        simp [tget?, hk]
      · simp only [tget?, ih]

@[simp] theorem tgetD_tset_same {α : Type} (t : Tbl α) (k : Nat) (v d : α) : tgetD (tset t k v) k d = v := by simp [tgetD]

theorem tgetD_tset_other {α : Type} (t : Tbl α) (k j : Nat) (v d : α) (h : j ≠ k) : tgetD (tset t k v) j d = tgetD t j d := by
  simp [tgetD, tget?_tset_other t k j v h]

/-! ## Units read back -/

@[simp] theorem slotOf_modSlot (i : Nat) (f : Slot → Slot) (s : State) : slotOf i (modSlot i f s) = f (slotOf i s) := by
  simp [slotOf, modSlot]

theorem slotOf_modSlot_other (i j : Nat) (f : Slot → Slot) (s : State) (h : j ≠ i) : slotOf j (modSlot i f s) = slotOf j s := by
  simp [slotOf, modSlot, tgetD_tset_other, h]

@[simp] theorem coreOf_modCore (c : Nat) (f : Core → Core) (s : State) : coreOf c (modCore c f s) = f (coreOf c s) := by
  simp [coreOf, modCore]

theorem coreOf_modCore_other (c j : Nat) (f : Core → Core) (s : State) (h : j ≠ c) : coreOf j (modCore c f s) = coreOf j s := by
  simp [coreOf, modCore, tgetD_tset_other, h]

@[simp] theorem linkOf_modLink (l : Nat) (f : Link → Link) (s : State) : linkOf l (modLink l f s) = f (linkOf l s) := by
  simp [linkOf, modLink]

theorem linkOf_modLink_other (l j : Nat) (f : Link → Link) (s : State) (h : j ≠ l) : linkOf j (modLink l f s) = linkOf j s := by
  simp [linkOf, modLink, tgetD_tset_other, h]

@[simp] theorem engineOf_modEngine (e : Nat) (f : Engine → Engine) (s : State) : engineOf e (modEngine e f s) = f (engineOf e s) := by
  simp [engineOf, modEngine]

theorem engineOf_modEngine_other (e j : Nat) (f : Engine → Engine) (s : State) (h : j ≠ e) : engineOf j (modEngine e f s) = engineOf j s := by
  simp [engineOf, modEngine, tgetD_tset_other, h]

@[simp] theorem portOf_modPort (p : Port) (f : PortSt → PortSt) (s : State) : portOf p (modPort p f s) = f (portOf p s) := by
  cases p <;> rfl

@[simp] theorem portOf_modPort_peer (p : Port) (f : PortSt → PortSt) (s : State) :
    portOf (peerOf p) (modPort p f s) = portOf (peerOf p) s := by cases p <;> rfl

theorem chanOf_modChan (i : Nat) (f : Chan → Chan) (s : State) : chanOf i (modChan i f s) = (chanOf i s).map f := by
  unfold modChan
  cases h : chanOf i s with
  | none => simp [h]
  | some c =>
    show (slotOf i (modSlot i _ s)).chan = _
    simp

theorem chanOf_modChan_other (i j : Nat) (f : Chan → Chan) (s : State) (h : j ≠ i) : chanOf j (modChan i f s) = chanOf j s := by
  unfold modChan
  cases chanOf i s with
  | none => rfl
  | some c => exact congrArg Slot.chan (slotOf_modSlot_other i j _ s h)

@[simp] theorem seqOf_modSeq (p : Place) (f : Seq → Seq) (s : State) : seqOf p (modSeq p f s) = f (seqOf p s) := by
  cases p <;> simp [seqOf, modSeq]

end Sys2Proof.Machine
end

