-- ==== Sys2Proof/Laws/Issue.lean ====
section
/-!
SUPPORT. Laws/Issue.lean: what issuing an instruction does (Machine/Lessons.lean): when it runs its body, and what going on to the
next instruction changes.
-/

namespace Sys2Proof.Machine

/-- An instruction that issues runs its body. -/
theorem instr_issues {p : Place} {w : Word} {major func : Nat} {s : State} (body : State → State) (h : Issues p w major func s) :
    instr p w major func body s = .next (body s) := by
  obtain ⟨h1, h2, h3⟩ := h
  simp [instr, h1, h2, h3]

theorem seqOf_core (c : Fin 192) (s : State) : seqOf (.core c) s = (coreOf c s).seq := rfl

theorem coreOf_modSeq_core (c : Fin 192) (f : Seq → Seq) (s : State) :
    coreOf c (modSeq (.core c) f s) = { coreOf c s with seq := f (coreOf c s).seq } := by simp [modSeq]

theorem coreOf_modSeq_other (p : Place) (f : Seq → Seq) (s : State) (d : Nat) (h : ∀ c : Fin 192, p = .core c → d ≠ c.val) :
    coreOf d (modSeq p f s) = coreOf d s := by
  cases p with
  | core c => exact coreOf_modCore_other _ _ _ _ (h c rfl)
  | link l => rfl
  | mem m => rfl

theorem outsidePlaces_modSeq (p : Place) (f : Seq → Seq) (s : State) : outsidePlaces (modSeq p f s) = outsidePlaces s := by
  cases p <;> rfl

theorem outsidePlaces_modCore (c : Nat) (f : Core → Core) (s : State) : outsidePlaces (modCore c f s) = outsidePlaces s := rfl

theorem outsidePlaces_addStall (a n : Nat) (s : State) : outsidePlaces (addStall a n s) = outsidePlaces s := rfl

theorem seqOf_addStall (p : Place) (a n : Nat) (s : State) : seqOf p (addStall a n s) = seqOf p s := by cases p <;> rfl

theorem seqOf_modSeq_other (p q : Place) (f : Seq → Seq) (s : State) (h : q ≠ p) : seqOf q (modSeq p f s) = seqOf q s := by
  cases p with
  | core c =>
    cases q with
    | core d =>
      have : d.val ≠ c.val := fun e => h (by rw [Fin.ext e])
      exact congrArg Core.seq (coreOf_modCore_other _ _ _ _ this)
    | link l => rfl
    | mem m => rfl
  | link l =>
    cases q with
    | core d => rfl
    | link k => exact tgetD_tset_other _ _ _ _ _ (fun e => h (by rw [Fin.ext e]))
    | mem m => rfl
  | mem m =>
    cases q with
    | core d => rfl
    | link k => rfl
    | mem k => exact tgetD_tset_other _ _ _ _ _ (fun e => h (by rw [Fin.ext e]))

theorem endStall_cases (p : Place) (s : State) :
    outsidePlaces (endStall p s) = outsidePlaces s ∧ (∀ q : Place, q ≠ p → seqOf q (endStall p s) = seqOf q s) ∧
      seqOf p (endStall p s) = { seqOf p s with stall := none } ∧
      (∀ d : Nat, besideSeq (coreOf d (endStall p s)) = besideSeq (coreOf d s)) ∧
      (∀ d : Nat, (∀ c : Fin 192, p = .core c → d ≠ c.val) → coreOf d (endStall p s) = coreOf d s) := by
  unfold endStall
  split
  · refine ⟨by rw [outsidePlaces_modSeq, outsidePlaces_addStall], fun q hq => by rw [seqOf_modSeq_other _ _ _ _ hq, seqOf_addStall],
      by rw [seqOf_modSeq, seqOf_addStall], ?_, ?_⟩
    · intro d
      cases p with
      | core c =>
        by_cases e : d = c.val
        · subst e; rw [coreOf_modSeq_core]; rfl
        · rw [coreOf_modSeq_other _ _ _ _ (fun c' h => by cases h; exact e)]; rfl
      | link l => rfl
      | mem m => rfl
    · intro d hd; rw [coreOf_modSeq_other _ _ _ _ hd]; rfl
  · rename_i h
    refine ⟨rfl, fun _ _ => rfl, ?_, fun _ => rfl, fun _ _ => rfl⟩
    cases hq : seqOf p s with
    | mk => rw [hq] at h; simp_all

theorem noteIssue_cases (p : Place) (s : State) :
    outsidePlaces (noteIssue p s) = outsidePlaces s ∧ (∀ q : Place, seqOf q (noteIssue p s) = seqOf q s) ∧
      (∀ d : Nat, besideSeq (coreOf d (noteIssue p s)) = besideSeq (coreOf d s)) ∧
      (∀ d : Nat, (∀ c : Fin 192, p = .core c → d ≠ c.val) → coreOf d (noteIssue p s) = coreOf d s) := by
  cases p with
  | core c =>
    refine ⟨rfl, fun q => ?_, fun d => ?_, fun d hd => coreOf_modCore_other _ _ _ _ (hd c rfl)⟩
    · cases q with
      | core d =>
        by_cases e : d = c
        · subst e; simp [noteIssue, seqOf]
        · exact congrArg Core.seq (coreOf_modCore_other _ _ _ _ (fun h => e (Fin.ext h)))
      | link l => rfl
      | mem m => rfl
    · by_cases e : d = c.val
      · subst e; simp [noteIssue, besideSeq]
      · rw [noteIssue, coreOf_modCore_other _ _ _ _ e]
  | link l => exact ⟨rfl, fun _ => rfl, fun _ => rfl, fun _ _ => rfl⟩
  | mem m => exact ⟨rfl, fun _ => rfl, fun _ => rfl, fun _ _ => rfl⟩

/-- Everything that going to an instruction inside the code changes. -/
theorem goTo_cases (p : Place) (n : Nat) (s : State) (h : TargetInside p n s) :
    outsidePlaces (goTo p n s) = outsidePlaces s ∧ (∀ q : Place, q ≠ p → seqOf q (goTo p n s) = seqOf q s) ∧
      seqOf p (goTo p n s) = { seqOf p s with pc := n, stall := none } ∧
      (∀ d : Nat, besideSeq (coreOf d (goTo p n s)) = besideSeq (coreOf d s)) ∧
      (∀ d : Nat, (∀ c : Fin 192, p = .core c → d ≠ c.val) → coreOf d (goTo p n s) = coreOf d s) := by
  have key : ∀ u : State, outsidePlaces u = outsidePlaces s → (∀ q : Place, seqOf q u = seqOf q s) →
      (∀ d : Nat, besideSeq (coreOf d u) = besideSeq (coreOf d s)) →
      (∀ d : Nat, (∀ c : Fin 192, p = .core c → d ≠ c.val) → coreOf d u = coreOf d s) →
      let v := modSeq p (fun q => { q with pc := n }) (endStall p u)
      outsidePlaces v = outsidePlaces s ∧ (∀ q : Place, q ≠ p → seqOf q v = seqOf q s) ∧
        seqOf p v = { seqOf p s with pc := n, stall := none } ∧ (∀ d : Nat, besideSeq (coreOf d v) = besideSeq (coreOf d s)) ∧
        (∀ d : Nat, (∀ c : Fin 192, p = .core c → d ≠ c.val) → coreOf d v = coreOf d s) := by
    intro u h1 h2 h3 h4
    obtain ⟨e1, e2, e3, e4, e5⟩ := endStall_cases p u
    refine ⟨by rw [outsidePlaces_modSeq, e1, h1], fun q hq => by rw [seqOf_modSeq_other _ _ _ _ hq, e2 q hq, h2], by
      rw [seqOf_modSeq, e3, h2], fun d => ?_, fun d hd => by rw [coreOf_modSeq_other _ _ _ _ hd, e5 d hd, h4 d hd]⟩
    rw [← h3, ← e4]
    cases p with
    | core c =>
      by_cases e : d = c.val
      · subst e; rw [coreOf_modSeq_core]; rfl
      · rw [coreOf_modSeq_other _ _ _ _ (fun c' h => by cases h; exact e)]
    | link l => rfl
    | mem m => rfl
  cases p with
  | core c =>
    obtain ⟨n1, n2, n3, n4⟩ := noteIssue_cases (.core c) s
    have : goTo (.core c) n s = modSeq (.core c) (fun q => { q with pc := n }) (endStall (.core c) (noteIssue (.core c) s)) := by
      simp only [goTo]; rw [if_pos (show n < _ from h)]
    rw [this]
    exact key _ n1 n2 n3 n4
  | link l => exact key s rfl (fun _ => rfl) (fun _ => rfl) (fun _ _ => rfl)
  | mem m => exact key s rfl (fun _ => rfl) (fun _ => rfl) (fun _ _ => rfl)

/-- Everything that a change of a place's scalar state and the step to the next instruction do. -/
theorem stepSeq_cases (p : Place) (f : Seq → Seq) (s : State) (hpc : ∀ q, (f q).pc = q.pc) (hcode : ∀ q, (f q).code = q.code)
    (h : NextInside p s) : OnlyPlace p s (stepSeq p f s) ∧ seqOf p (stepSeq p f s) = nextSeq (f (seqOf p s)) := by
  have e : stepSeq p f s = goTo p ((seqOf p s).pc + 1) (modSeq p f s) := by
    simp only [stepSeq, advance, seqOf_modSeq, hpc]
  have hn : TargetInside p ((seqOf p s).pc + 1) (modSeq p f s) := by
    cases p with
    | core c => simp only [TargetInside, coreOf_modSeq_core, hcode]; exact h
    | link l => trivial
    | mem m => trivial
  obtain ⟨g1, g2, g3, g4, -⟩ := goTo_cases p _ _ hn
  rw [e]
  refine ⟨⟨g1.trans (outsidePlaces_modSeq _ _ _), fun q hq => (g2 q hq).trans (seqOf_modSeq_other _ _ _ _ hq), fun d => (g4 d).trans ?_⟩, ?_⟩
  · cases p with
    | core c =>
      by_cases e : d = c
      · subst e; rw [coreOf_modSeq_core]; rfl
      · rw [coreOf_modSeq_other _ _ _ _ (fun c' h he => by cases h; exact e (Fin.ext he))]
    | link l => rfl
    | mem m => rfl
  · rw [g3, seqOf_modSeq]; simp [nextSeq, hpc]

theorem endStall_core_seqs (c : Fin 192) (s : State) :
    (endStall (.core c) s).linkSeq = s.linkSeq ∧ (endStall (.core c) s).memSeq = s.memSeq := by
  unfold endStall; split <;> exact ⟨rfl, rfl⟩

/-- Everything that a change of a core and the step to its next instruction do. -/
theorem advance_core_cases (c : Fin 192) (f : Core → Core) (s : State) (hpc : ∀ k, (f k).seq.pc = k.seq.pc)
    (hcode : ∀ k, (f k).seq.code = k.seq.code) (h : NextInside (.core c) s) :
    let t := advance (.core c) (modCore c f s)
    OnlyCore c s t ∧ (coreOf c t).seq = nextSeq (f (coreOf c s)).seq ∧ besideSeq (coreOf c t) = besideSeq (f (coreOf c s)) := by
  intro t
  have e : t = goTo (.core c) ((coreOf c s).seq.pc + 1) (modCore c f s) := by
    show advance (.core c) (modCore c f s) = _
    simp only [advance, seqOf_core, coreOf_modCore, hpc]
  have hn : TargetInside (.core c) ((coreOf c s).seq.pc + 1) (modCore c f s) := by
    simp only [TargetInside, coreOf_modCore, hcode]; exact h
  obtain ⟨g1, -, g3, g4, g5⟩ := goTo_cases _ _ _ hn
  have hl : (goTo (.core c) ((coreOf c s).seq.pc + 1) (modCore c f s)).linkSeq = s.linkSeq ∧
      (goTo (.core c) ((coreOf c s).seq.pc + 1) (modCore c f s)).memSeq = s.memSeq := by
    simp only [goTo]
    rw [if_pos (show (coreOf c s).seq.pc + 1 < _ from hn)]
    exact endStall_core_seqs c (noteIssue (.core c) (modCore c f s))
  rw [e]
  refine ⟨⟨g1, hl.1, hl.2, fun d hd => ?_⟩, ?_, ?_⟩
  · rw [g5 d (fun c' h => by cases h; exact hd), coreOf_modCore_other _ _ _ _ hd]
  · have := g3
    simp only [seqOf_core, coreOf_modCore] at this
    rw [this]; simp [nextSeq, hpc]
  · rw [g4, coreOf_modCore]

end Sys2Proof.Machine
end

