-- ==== Sys2Proof/Laws/Memory.lean ====
section
/-!
SUPPORT. Laws/Memory.lean: reading a byte after a write, and that every memory operation keeps the canonical form.
-/

namespace Sys2Proof.Machine

/-- Every listed address lies above `a`. -/
def Above (a : Nat) (m : List Host.Cell) : Prop := ∀ c ∈ m, a < c.1

theorem memWf_cons (a : Nat) (x : Byte) (t : List Host.Cell) : memWf ((a, x) :: t) = true ↔ x ≠ 0 ∧ Above a t ∧ memWf t = true := by
  induction t generalizing a x with
  | nil => simp [memWf, Above]
  | cons e t ih =>
    obtain ⟨b, y⟩ := e
    have hb := ih b y
    simp only [memWf, Bool.and_eq_true, bne_iff_ne, decide_eq_true_eq] at hb ⊢
    constructor
    · rintro ⟨⟨hx, hab⟩, hw⟩
      obtain ⟨-, hbt, -⟩ := hb.mp hw
      refine ⟨hx, ?_, hw⟩
      intro c hc
      rcases List.mem_cons.mp hc with rfl | hc
      · exact hab
      · exact Nat.lt_trans hab (hbt c hc)
    · rintro ⟨hx, hab, hw⟩
      exact ⟨⟨hx, hab (b, y) (by simp)⟩, hw⟩

theorem above_memSet (m : List Host.Cell) (a b : Nat) (v : Byte) (h : Above b m) (hab : b < a) : Above b (memSet m a v) := by
  induction m with
  | nil => unfold memSet; split <;> simp [Above, hab]
  | cons e t ih =>
    obtain ⟨c, x⟩ := e
    have hc : b < c := h (c, x) (by simp)
    have ht : Above b t := fun d hd => h d (by simp [hd])
    have keep : ∀ (y : Byte) (k : Nat), b < k → ∀ u, Above b u → Above b ((k, y) :: u) := by
      intro y k hk u hu d hd
      rcases List.mem_cons.mp hd with rfl | hd
      · exact hk
      · exact hu d hd
    unfold memSet
    split
    · split
      · exact keep x c hc t ht
      · exact keep v a hab _ (keep x c hc t ht)
    · split
      · split
        · exact ht
        · exact keep v a hab t ht
      · exact keep x c hc _ (ih ht)

theorem memSet_wf (m : List Host.Cell) (a : Nat) (v : Byte) (h : memWf m = true) : memWf (memSet m a v) = true := by
  induction m with
  | nil => unfold memSet; split <;> simp_all [memWf]
  | cons e t ih =>
    obtain ⟨c, x⟩ := e
    obtain ⟨hx, hat, hw⟩ := (memWf_cons c x t).mp h
    unfold memSet
    split
    · next hac =>
      split
      · exact h
      · next hv =>
        refine (memWf_cons _ _ _).mpr ⟨by simpa using hv, ?_, h⟩
        intro d hd
        rcases List.mem_cons.mp hd with rfl | hd
        · exact hac
        · exact Nat.lt_trans hac (hat d hd)
    · next hac =>
      split
      · next heq =>
        have heq : a = c := by simpa using heq
        subst heq
        split
        · exact hw
        · next hv => exact (memWf_cons _ _ _).mpr ⟨by simpa using hv, hat, hw⟩
      · next hne =>
        have hne : a ≠ c := by simpa using hne
        exact (memWf_cons _ _ _).mpr ⟨hx, above_memSet t a c v hat (by omega), ih hw⟩

theorem memWrite_wf (bs : List Byte) (m : List Host.Cell) (a : Nat) (h : memWf m = true) : memWf (memWrite m a bs) = true := by
  induction bs generalizing m a with
  | nil => exact h
  | cons b bs ih => exact ih _ _ (memSet_wf m a b h)

theorem filter_wf (p : Host.Cell → Bool) (m : List Host.Cell) (h : memWf m = true) : memWf (m.filter p) = true := by
  induction m with
  | nil => exact h
  | cons e t ih =>
    obtain ⟨c, x⟩ := e
    obtain ⟨hx, hat, hw⟩ := (memWf_cons c x t).mp h
    rw [List.filter_cons]
    split
    · exact (memWf_cons _ _ _).mpr ⟨hx, fun d hd => hat d (List.mem_filter.mp hd).1, ih hw⟩
    · exact ih hw

theorem memClear_wf (m : List Host.Cell) (a n : Nat) (h : memWf m = true) : memWf (memClear m a n) = true := filter_wf _ m h

theorem memGet_above (m : List Host.Cell) (a : Nat) (h : Above a m) : memGet m a = 0 := by
  induction m with
  | nil => rfl
  | cons e t ih =>
    obtain ⟨c, x⟩ := e
    have hc : a < c := h (c, x) (by simp)
    have hne : ¬ c = a := by omega
    simp only [memGet, beq_iff_eq, hne, if_false]
    exact ih fun d hd => h d (by simp [hd])

/-- A byte read where it was written, in a canonical memory. -/
theorem memGet_memSet_same (m : List Host.Cell) (a : Nat) (v : Byte) (h : memWf m = true) : memGet (memSet m a v) a = v := by
  induction m with
  | nil =>
    unfold memSet; split
    · next hv => simpa [memGet] using (by simpa using hv : v = 0).symm
    · simp [memGet]
  | cons e t ih =>
    obtain ⟨c, x⟩ := e
    obtain ⟨hx, hat, hw⟩ := (memWf_cons c x t).mp h
    unfold memSet
    split
    · next hac =>
      split
      · next hv =>
        have hv : v = 0 := by simpa using hv
        rw [hv]
        refine memGet_above _ a fun d hd => ?_
        rcases List.mem_cons.mp hd with rfl | hd
        · exact hac
        · exact Nat.lt_trans hac (hat d hd)
      · simp [memGet]
    · next hac =>
      split
      · next heq =>
        have heq : a = c := by simpa using heq
        subst heq
        split
        · next hv => rw [memGet_above t a hat]; exact (by simpa using hv : v = 0).symm
        · simp [memGet]
      · next hne =>
        have hne : ¬ c = a := fun e => by simp [e] at hne
        simp only [memGet, beq_iff_eq, hne, if_false]
        exact ih hw

/-- A byte read elsewhere than it was written. -/
theorem memGet_memSet_other (m : List Host.Cell) (a b : Nat) (v : Byte) (h : b ≠ a) : memGet (memSet m a v) b = memGet m b := by
  have hab : ¬ a = b := fun e => h e.symm
  induction m with
  | nil => unfold memSet; split <;> simp [memGet, hab]
  | cons e t ih =>
    obtain ⟨c, x⟩ := e
    unfold memSet
    split
    · split
      · rfl
      · simp [memGet, hab]
    · split
      · next heq =>
        have heq : a = c := by simpa using heq
        subst heq
        split <;> simp [memGet, hab]
      · simp only [memGet, ih]

/-- A byte outside the bytes written. -/
theorem memGet_memWrite_other (bs : List Byte) (m : List Host.Cell) (a b : Nat) (h : b < a ∨ a + bs.length ≤ b) :
    memGet (memWrite m a bs) b = memGet m b := by
  induction bs generalizing m a with
  | nil => rfl
  | cons x bs ih =>
    simp only [List.length_cons] at h
    rw [memWrite, ih _ _ (by omega), memGet_memSet_other _ _ _ _ (by omega)]

end Sys2Proof.Machine
end

