-- ==== Sys2Proof/Laws/Sort.lean ====
section
/-!
SUPPORT. Laws/Sort.lean: what sorting a list does: the same elements, as often, and in order where the order is total and transitive.
-/

namespace Sys2Proof.Machine

theorem insertBy_perm {α : Type} (le : α → α → Bool) (x : α) (xs : List α) : (insertBy le x xs).Perm (x :: xs) := by
  induction xs with
  | nil => exact .refl _
  | cons y r ih =>
    rw [insertBy]
    split
    · exact .refl _
    · exact (ih.cons y).trans (.swap x y r)

theorem sortBy_perm {α : Type} (le : α → α → Bool) (xs : List α) : (sortBy le xs).Perm xs := by
  induction xs with
  | nil => exact .refl _
  | cons x r ih => exact (insertBy_perm le x _).trans (ih.cons x)

@[simp] theorem mem_sortBy {α : Type} (le : α → α → Bool) (xs : List α) (x : α) : x ∈ sortBy le xs ↔ x ∈ xs := (sortBy_perm le xs).mem_iff

@[simp] theorem length_sortBy {α : Type} (le : α → α → Bool) (xs : List α) : (sortBy le xs).length = xs.length := (sortBy_perm le xs).length_eq

@[simp] theorem sortBy_eq_nil {α : Type} (le : α → α → Bool) (xs : List α) : sortBy le xs = [] ↔ xs = [] := by
  rw [← List.length_eq_zero_iff, length_sortBy, List.length_eq_zero_iff]

theorem insertBy_sorted {α : Type} (le : α → α → Bool) (total : ∀ a b : α, le a b = true ∨ le b a = true)
    (trans : ∀ a b c : α, le a b = true → le b c = true → le a c = true) (x : α) (xs : List α)
    (h : xs.Pairwise fun a b => le a b = true) : (insertBy le x xs).Pairwise fun a b => le a b = true := by
  induction xs with
  | nil => exact List.pairwise_singleton _ _
  | cons y r ih =>
    have hy := List.pairwise_cons.1 h
    rw [insertBy]
    split
    · next hxy =>
      refine List.pairwise_cons.2 ⟨fun b hb => ?_, h⟩
      rcases List.mem_cons.1 hb with rfl | hb
      · exact hxy
      · exact trans _ _ _ hxy (hy.1 b hb)
    · next hxy =>
      refine List.pairwise_cons.2 ⟨fun b hb => ?_, ih hy.2⟩
      rcases List.mem_cons.1 ((insertBy_perm le x r).mem_iff.1 hb) with rfl | hb
      · exact (total b y).resolve_left hxy
      · exact hy.1 b hb

theorem sortBy_sorted {α : Type} (le : α → α → Bool) (total : ∀ a b : α, le a b = true ∨ le b a = true)
    (trans : ∀ a b c : α, le a b = true → le b c = true → le a c = true) (xs : List α) :
    (sortBy le xs).Pairwise fun a b => le a b = true := by
  induction xs with
  | nil => exact .nil
  | cons x r ih => exact insertBy_sorted le total trans x _ ih

end Sys2Proof.Machine
end

