-- ==== Sys2Proof/Laws/Steady.lean ====
section
/-!
SUPPORT. Laws/Steady.lean: what no operation takes from the state it finds (Safety.lean, Steady): how the relation composes, and
that the operations changing one unit keep it.
-/

namespace Sys2Proof.Machine

theorem Steady.refl (s : State) : Steady s s := ⟨rfl, Nat.le_refl _, Nat.le_refl _, id⟩

theorem Steady.trans {s t u : State} (h : Steady s t) (k : Steady t u) : Steady s u :=
  ⟨k.1.trans h.1, Nat.le_trans h.2.1 k.2.1, Nat.le_trans h.2.2.1 k.2.2.1, fun w => k.2.2.2 (h.2.2.2 w)⟩

/-- A change of fields the relation does not speak of. -/
theorem Steady.same {s t u : State} (h : Steady s t) (hp : u.pending = t.pending) (hf : u.flash = t.flash) (ha : u.portA = t.portA)
    (hb : u.portB = t.portB) (hm : u.memory = t.memory) : Steady s u := by
  refine h.trans ⟨hp, ?_, ?_, ?_⟩
  · rw [hf]
  · rw [hf]
  · intro w; unfold MemoriesCanonical; rw [ha, hb, hm]; exact w

theorem Steady.foldl {α : Type} {z s : State} (f : State → α → State) (xs : List α)
    (hf : ∀ (t : State) (x : α), Steady z t → Steady z (f t x)) (h : Steady z s) : Steady z (xs.foldl f s) := by
  induction xs generalizing s with
  | nil => exact h
  | cons x xs ih => exact ih (hf s x h)

/-- A record that takes the five fields the relation speaks of from one state. -/
theorem Steady.record {z t : State} {free' : Nat} {time' : TimeSt} {mod' : ModuleSt} {slots' : Tbl Slot}
    {descs' : List DescRec} {nextDesc' : Nat} {cores' : Tbl Core} {linkSeq' : Tbl Seq} {memSeq' : Tbl Seq}
    {runs' : List Run} {expertPages' : List ExpertPage} {stats' : List StatSet} {groups' : List Group} {nmu' :
    NmuSt} {engines' : Tbl Engine} {links' : Tbl Link} {passes' : List Pass} {nextPass' : Nat} {calib' :
    List Calib} {pals' : List Pal} {regions' : List Region} {mate' : MateSt} {card' : CardSt} {devFlags' :
    BitVec 29} {devCounts' : Vector W32 29} {msix' : List (Bool × Nat)} {sentFrames' : List (Nat × Frame)}
    {sentFar' : List (Nat × FarFrame)} (h : Steady z t) :
    Steady z (State.mk t.pending free' time' mod' t.flash t.portA t.portB slots' descs' nextDesc' cores'
    linkSeq' memSeq' runs' expertPages' stats' groups' nmu' t.memory engines' links' passes' nextPass' calib'
    pals' regions' mate' card' devFlags' devCounts' msix' sentFrames' sentFar') := h.trans ⟨rfl, Nat.le_refl
    _, Nat.le_refl _, id⟩

/-- An intermediate state that is steady. -/
theorem Steady.cut {z x t : State} (h : Steady z x) (k : Steady z x → Steady z t) : Steady z t := k h

/-- A choice between two steady states. -/
theorem Steady.ite {z a b : State} {c : Prop} [Decidable c] (ha : Steady z a) (hb : Steady z b) :
    Steady z (if c then a else b) := by split <;> assumption

theorem Steady.foldl_fst {α β : Type} {z : State} {p : State × β} (f : State × β → α → State × β) (xs : List α)
    (hf : ∀ (q : State × β) (x : α), Steady z q.1 → Steady z (f q x).1) (h : Steady z p.1) : Steady z (xs.foldl f p).1 := by
  induction xs generalizing p with
  | nil => exact h
  | cons x xs ih => exact ih (hf p x h)

theorem Steady.foldl_snd {α β : Type} {z : State} {p : β × State} (f : β × State → α → β × State) (xs : List α)
    (hf : ∀ (q : β × State) (x : α), Steady z q.2 → Steady z (f q x).2) (h : Steady z p.2) : Steady z (xs.foldl f p).2 := by
  induction xs generalizing p with
  | nil => exact h
  | cons x xs ih => exact ih (hf p x h)

theorem Steady.cutFn {α : Type} {z t : State} {x : α → State → State} (h : ∀ a u, Steady z u → Steady z (x a u))
    (k : (∀ a u, Steady z u → Steady z (x a u)) → Steady z t) : Steady z t := k h

section
variable {z s : State}

theorem modSlot_steady {i : Nat} {f : Slot → Slot} (h : Steady z s) : Steady z (modSlot i f s) := h.same rfl rfl rfl rfl rfl
theorem modCore_steady {i : Nat} {f : Core → Core} (h : Steady z s) : Steady z (modCore i f s) := h.same rfl rfl rfl rfl rfl
theorem modLink_steady {i : Nat} {f : Link → Link} (h : Steady z s) : Steady z (modLink i f s) := h.same rfl rfl rfl rfl rfl
theorem modEngine_steady {i : Nat} {f : Engine → Engine} (h : Steady z s) : Steady z (modEngine i f s) := h.same rfl rfl rfl rfl rfl
theorem modGroup_steady {i : Nat} {f : Group → Group} (h : Steady z s) : Steady z (modGroup i f s) := h.same rfl rfl rfl rfl rfl
theorem modRun_steady {i : Nat} {f : Run → Run} (h : Steady z s) : Steady z (modRun i f s) := h.same rfl rfl rfl rfl rfl
theorem modPass_steady {i : Nat} {f : Pass → Pass} (h : Steady z s) : Steady z (modPass i f s) := h.same rfl rfl rfl rfl rfl
theorem modDesc_steady {i : Nat} {f : DescRec → DescRec} (h : Steady z s) : Steady z (modDesc i f s) := h.same rfl rfl rfl rfl rfl
theorem modNmu_steady {f : NmuSt → NmuSt} (h : Steady z s) : Steady z (modNmu f s) := h.same rfl rfl rfl rfl rfl
theorem modBinding_steady {i : Nat} {f : Binding → Binding} (h : Steady z s) : Steady z (modBinding i f s) := h.same rfl rfl rfl rfl rfl
theorem modMod_steady {f : ModuleSt → ModuleSt} (h : Steady z s) : Steady z (modMod f s) := h.same rfl rfl rfl rfl rfl
theorem modTime_steady {f : TimeSt → TimeSt} (h : Steady z s) : Steady z (modTime f s) := h.same rfl rfl rfl rfl rfl
theorem modCard_steady {f : CardSt → CardSt} (h : Steady z s) : Steady z (modCard f s) := h.same rfl rfl rfl rfl rfl
theorem modMate_steady {f : MateSt → MateSt} (h : Steady z s) : Steady z (modMate f s) := h.same rfl rfl rfl rfl rfl
theorem modPal_steady {i : Nat} {f : Pal → Pal} (h : Steady z s) : Steady z (modPal i f s) := h.same rfl rfl rfl rfl rfl
theorem modRegion_steady {i : Nat} {f : Region → Region} (h : Steady z s) : Steady z (modRegion i f s) := h.same rfl rfl rfl rfl rfl
theorem drawFree_steady {n : Nat} (h : Steady z s) : Steady z (drawFree n s) := h.same rfl rfl rfl rfl rfl
theorem raiseEvent_steady {c : Nat} {a : List Nat} (h : Steady z s) : Steady z (raiseEvent c a s) := h.same rfl rfl rfl rfl rfl
theorem countCard_steady {w n : Nat} (h : Steady z s) : Steady z (countCard w n s) := h.same rfl rfl rfl rfl rfl
theorem orCard_steady {w n : Nat} (h : Steady z s) : Steady z (orCard w n s) := h.same rfl rfl rfl rfl rfl
theorem addStall_steady {c n : Nat} (h : Steady z s) : Steady z (addStall c n s) := h.same rfl rfl rfl rfl rfl
theorem addDecision_steady {d : DecisionRec} (h : Steady z s) : Steady z (addDecision d s) := h.same rfl rfl rfl rfl rfl

theorem modSeq_steady {p : Place} {f : Seq → Seq} (h : Steady z s) : Steady z (modSeq p f s) := by
  cases p <;> exact h.same rfl rfl rfl rfl rfl

theorem modChan_steady {i : Nat} {f : Chan → Chan} (h : Steady z s) : Steady z (modChan i f s) := by
  unfold modChan
  split
  · exact modSlot_steady h
  · exact h

theorem modMemory_steady {f : MemSt → MemSt} (hf : ∀ m : MemSt, memWf m.fast = true → memWf (f m).fast = true) (h : Steady z s) :
    Steady z (modMemory f s) :=
  h.trans ⟨rfl, Nat.le_refl _, Nat.le_refl _, fun w => ⟨w.1, w.2.1, hf _ w.2.2⟩⟩

theorem modStack_steady {i : Nat} {f : StackSt → StackSt} (h : Steady z s) : Steady z (modStack i f s) :=
  modMemory_steady (fun _ w => w) h

theorem modMemChan_steady {i : Nat} {f : ChanMem → ChanMem} (h : Steady z s) : Steady z (modMemChan i f s) :=
  modMemory_steady (fun _ w => w) h

theorem modPort_steady {p : Port} {f : PortSt → PortSt} (hf : ∀ q : PortSt, memWf q.mem = true → memWf (f q).mem = true)
    (h : Steady z s) : Steady z (modPort p f s) := by
  refine h.trans ?_
  cases p
  · exact ⟨rfl, Nat.le_refl _, Nat.le_refl _, fun w => ⟨hf _ w.1, w.2⟩⟩
  · exact ⟨rfl, Nat.le_refl _, Nat.le_refl _, fun w => ⟨w.1, hf _ w.2.1, w.2.2⟩⟩

theorem modFlash_steady {f : FlashSt → FlashSt}
    (hf : ∀ x : FlashSt, x.minSvn.toNat ≤ (f x).minSvn.toNat ∧ x.counterWrites ≤ (f x).counterWrites) (h : Steady z s) :
    Steady z (modFlash f s) := h.trans ⟨rfl, (hf _).1, (hf _).2, fun w => w⟩

end

end Sys2Proof.Machine
end

