-- ==== Sys2Proof/Laws/SteadyUnits.lean ====
section
/-!
SUPPORT. Laws/SteadyUnits.lean: the operations of the block keep the relation Steady (Safety.lean), what changes one unit: descriptors, cores, lessons, tensors, channels and runs. One lemma per operation; the
commands themselves are not here.
-/

namespace Sys2Proof.Machine

theorem logDecision_steady {z : State} (setting : Nat) (applied : Bool) (g subject old new trigger measured : Nat)
    {s : State} (hz : Steady z s) : Steady z (logDecision setting applied g subject old new trigger measured s) := by
  unfold logDecision
  repeat' first
    | with_reducible assumption
    | with_reducible apply addDecision_steady

theorem setShare_steady {z : State} (v : Nat) {s : State} (hz : Steady z s) : Steady z (setShare v s) := by
  unfold setShare
  repeat' first
    | with_reducible assumption
    | with_reducible intro _
    | (extract_lets +onlyGivenNames x; refine Steady.cut (x := x) ?_ (fun hx => ?_); (on_goal 1 => subst x); (on_goal 2 => clear_value x))
    | (extract_lets +onlyGivenNames x; clear_value x)
    | with_reducible apply Steady.ite
    | with_reducible apply logDecision_steady
    | with_reducible apply modMemory_steady

theorem sendMsix_steady {z : State} (p : Port) (v : Nat) {s : State} (hz : Steady z s) : Steady z (sendMsix p v s) := by
  unfold sendMsix
  repeat' first
    | with_reducible assumption
    | with_reducible intro _
    | with_reducible apply Steady.ite
    | with_reducible apply modPort_steady
    | fail_if_no_progress with_reducible apply Steady.record

theorem flagMessage_steady {z : State} (p : Port) (i : Nat) {s : State} (hz : Steady z s) : Steady z (flagMessage p i s) := by
  unfold flagMessage
  repeat' first
    | with_reducible assumption
    | with_reducible apply Steady.ite
    | with_reducible apply sendMsix_steady

theorem raiseDev_steady {z : State} (i : Nat) {s : State} (hz : Steady z s) : Steady z (raiseDev i s) := by
  unfold raiseDev
  repeat' first
    | with_reducible assumption
    | (extract_lets +onlyGivenNames x; refine Steady.cut (x := x) ?_ (fun hx => ?_); (on_goal 1 => subst x); (on_goal 2 => clear_value x))
    | with_reducible apply Steady.ite
    | with_reducible apply flagMessage_steady
    | fail_if_no_progress with_reducible apply Steady.record

theorem raiseBellError_steady {z : State} (slot : Nat) {s : State} (hz : Steady z s) : Steady z (raiseBellError slot s) := by
  unfold raiseBellError
  repeat' first
    | with_reducible assumption
    | with_reducible apply raiseDev_steady
    | with_reducible apply modSlot_steady

theorem raiseLink_steady {z : State} (l i : Nat) {s : State} (hz : Steady z s) : Steady z (raiseLink l i s) := by
  unfold raiseLink
  repeat' first
    | with_reducible assumption
    | with_reducible apply raiseDev_steady
    | with_reducible apply modLink_steady

theorem raiseFar_steady {z : State} (l i : Nat) {s : State} (hz : Steady z s) : Steady z (raiseFar l i s) := by
  unfold raiseFar
  repeat' first
    | with_reducible assumption
    | with_reducible apply raiseDev_steady
    | with_reducible apply modLink_steady

theorem postCompl_steady {z : State} (slot : Nat) (c : Compl) {s : State} (hz : Steady z s) : Steady z (postCompl slot c s) := by
  unfold postCompl
  repeat' first
    | with_reducible assumption
    | with_reducible intro _
    | with_reducible apply Steady.ite
    | with_reducible apply modPort_steady
    | with_reducible apply modChan_steady

theorem spaceSet_steady {z : State} (sp : Nat) (a : Nat) (v : Byte) {s : State} (hs : Steady z s) : Steady z (spaceSet sp a v s) := by
  unfold spaceSet
  split
  · exact hs.trans ⟨rfl, Nat.le_refl _, Nat.le_refl _, fun w => ⟨w.1, w.2.1, memSet_wf _ _ _ w.2.2⟩⟩
  · split
    · exact hs
    · exact hs.trans ⟨rfl, Nat.le_refl _, Nat.le_refl _, fun w => ⟨memSet_wf _ _ _ w.1, w.2⟩⟩
  · split
    · exact hs
    · exact hs.trans ⟨rfl, Nat.le_refl _, Nat.le_refl _, fun w => ⟨w.1, memSet_wf _ _ _ w.2.1, w.2.2⟩⟩

theorem vaWrite_steady {z : State} (slot : Nat) (va : Nat) (bs : List Byte) {s : State} (hs : Steady z s) : Steady z (vaWrite slot va bs s) := by
  induction bs generalizing va s with
  | nil => exact hs
  | cons b bs ih =>
    unfold vaWrite
    apply ih
    split
    · exact spaceSet_steady _ _ _ hs
    · exact hs

theorem vaForce_steady {z : State} (slot : Nat) (va : Nat) (bs : List Byte) {s : State} (hs : Steady z s) : Steady z (vaForce slot va bs s) := by
  induction bs generalizing va s with
  | nil => exact hs
  | cons b bs ih =>
    unfold vaForce
    apply ih
    split
    · exact spaceSet_steady _ _ _ hs
    · exact hs

theorem unpoison_steady {z : State} (pcs : List (Nat × Nat × Nat)) {s : State} (hz : Steady z s) : Steady z (unpoison pcs s) := by
  unfold unpoison
  repeat' first
    | with_reducible assumption
    | with_reducible intro _
    | (extract_lets +onlyGivenNames x; clear_value x)
    | with_reducible apply modMemory_steady

theorem vaStore_steady {z : State} (slot va : Nat) (bs : List Byte) {s : State} (hz : Steady z s) : Steady z (vaStore slot va bs s) := by
  unfold vaStore
  repeat' first
    | with_reducible assumption
    | with_reducible apply vaWrite_steady
    | with_reducible apply unpoison_steady

theorem hostWrite_steady {z : State} (p : Port) (a : Nat) (bs : List Byte) {s : State} (hz : Steady z s) : Steady z (hostWrite p a bs s) := by
  unfold hostWrite
  repeat' first
    | with_reducible assumption
    | with_reducible intro _
    | with_reducible apply Steady.ite
    | with_reducible apply modPort_steady
    | exact memWrite_wf _ _ _ (by assumption)

theorem freeFrames_steady {z : State} (fs : List Nat) {s : State} (hz : Steady z s) : Steady z (freeFrames fs s) := by
  unfold freeFrames
  repeat' first
    | with_reducible assumption
    | with_reducible intro _
    | with_reducible apply modMemory_steady
    | exact filter_wf _ _ (by assumption)

theorem dropAliases_steady {z : State} (slot : Nat) (dead : Nat → Bool) {s : State} (hz : Steady z s) : Steady z
    (dropAliases slot dead s) := by
  unfold dropAliases
  repeat' first
    | with_reducible assumption
    | fail_if_no_progress with_reducible apply Steady.record

theorem releaseBindings_steady {z : State} (which : Binding → Bool) {s : State} (hz : Steady z s) : Steady z
    (releaseBindings which s) := by
  unfold releaseBindings
  repeat' first
    | with_reducible assumption
    | with_reducible intro _
    | (extract_lets +onlyGivenNames x; clear_value x)
    | with_reducible apply modMemory_steady
    | with_reducible apply modNmu_steady

theorem dropRegions_steady {z : State} (which : Region → Bool) {s : State} (hz : Steady z s) : Steady z (dropRegions which s) := by
  unfold dropRegions
  repeat' first
    | with_reducible assumption
    | with_reducible intro _
    | with_reducible apply modMemory_steady
    | fail_if_no_progress with_reducible apply Steady.record

theorem freeSlot_steady {z : State} (slot : Nat) {s : State} (hz : Steady z s) : Steady z (freeSlot slot s) := by
  unfold freeSlot
  repeat' first
    | with_reducible assumption
    | (extract_lets +onlyGivenNames x; refine Steady.cut (x := x) ?_ (fun hx => ?_); (on_goal 1 => subst x); (on_goal 2 => clear_value x))
    | with_reducible apply dropAliases_steady
    | with_reducible apply freeFrames_steady
    | with_reducible apply releaseBindings_steady
    | with_reducible apply dropRegions_steady
    | with_reducible apply modSlot_steady
    | split
    | fail_if_no_progress with_reducible apply Steady.record

theorem settleDestroy_steady {z : State} (slot : Nat) {s : State} (hz : Steady z s) : Steady z (settleDestroy slot s) := by
  unfold settleDestroy
  repeat' first
    | with_reducible assumption
    | (extract_lets +onlyGivenNames x; refine Steady.cut (x := x) ?_ (fun hx => ?_); (on_goal 1 => subst x); (on_goal 2 => clear_value x))
    | with_reducible apply Steady.ite
    | with_reducible apply freeSlot_steady
    | with_reducible apply postCompl_steady
    | split
    | fail_if_no_progress with_reducible apply Steady.record

theorem finish_steady {z : State} (r : DescRec) (status : BitVec 8) (detail : BitVec 16) (result0 : Word)
    {s : State} (hz : Steady z s) : Steady z (finish r status detail result0 s) := by
  unfold finish
  repeat' first
    | with_reducible assumption
    | (extract_lets +onlyGivenNames x; refine Steady.cut (x := x) ?_ (fun hx => ?_); (on_goal 1 => subst x); (on_goal 2 => clear_value x))
    | with_reducible apply Steady.ite
    | with_reducible apply settleDestroy_steady
    | with_reducible apply postCompl_steady
    | fail_if_no_progress with_reducible apply Steady.record

theorem interim_steady {z : State} (r : DescRec) (status : BitVec 8) (detail : BitVec 16) (result0 : Word)
    {s : State} (hz : Steady z s) : Steady z (interim r status detail result0 s) := by
  unfold interim
  repeat' first
    | with_reducible assumption
    | (extract_lets +onlyGivenNames x; clear_value x)
    | with_reducible apply postCompl_steady

theorem finishGone_steady {z : State} (r : DescRec) {s : State} (hz : Steady z s) : Steady z (finishGone r s) := by
  unfold finishGone
  repeat' first
    | with_reducible assumption
    | with_reducible apply settleDestroy_steady
    | with_reducible apply postCompl_steady
    | fail_if_no_progress with_reducible apply Steady.record

theorem refuse_steady {z : State} (r : DescRec) (detail : BitVec 16) (addr : Nat) {s : State} (hz : Steady z s) : Steady z
    (refuse r detail addr s) := by
  unfold refuse
  repeat' first
    | with_reducible assumption
    | with_reducible apply finish_steady

theorem refuseCap_steady {z : State} (r : DescRec) (detail : BitVec 16) {s : State} (hz : Steady z s) : Steady z (refuseCap r detail s) := by
  unfold refuseCap
  repeat' first
    | with_reducible assumption
    | with_reducible apply finish_steady

theorem done_steady {z : State} (r : DescRec) (result0 : Nat) {s : State} (hz : Steady z s) : Steady z (done r result0 s) := by
  unfold done
  repeat' first
    | with_reducible assumption
    | with_reducible apply finish_steady

theorem holdAs_steady {z : State} (r : DescRec) (h : Hold) {s : State} (hz : Steady z s) : Steady z (holdAs r h s) := by
  unfold holdAs
  repeat' first
    | with_reducible assumption
    | with_reducible apply Steady.ite
    | with_reducible apply modDesc_steady
    | fail_if_no_progress with_reducible apply Steady.record

theorem noteFetch_steady {z : State} (r : DescRec) {s : State} (hz : Steady z s) : Steady z (noteFetch r s) := by
  unfold noteFetch
  repeat' first
    | with_reducible assumption
    | (extract_lets +onlyGivenNames x; clear_value x)
    | with_reducible apply modChan_steady
    | fail_if_no_progress with_reducible apply Steady.record

theorem checked_steady {z : State} (r : DescRec) (start : DescRec → State → State) {s : State} (Hstart : ∀
    (a0 : DescRec) (t : State), Steady z t → Steady z (start a0 t)) (hz : Steady z s) : Steady z (checked r start s) := by
  unfold checked
  repeat' first
    | with_reducible assumption
    | (extract_lets +onlyGivenNames x; clear_value x)
    | with_reducible apply Steady.ite
    | with_reducible apply finishGone_steady
    | with_reducible apply refuse_steady
    | with_reducible apply Hstart
    | split

theorem fetchWith_steady {z : State} (op : BitVec 8) (d : Desc) (onFetch : DescRec → State → State)
    (start : DescRec → State → State) {s : State} (HonFetch : ∀ (a0 : DescRec) (t : State), Steady z t → Steady z (onFetch a0 t)) (Hstart : ∀ (a0 : DescRec) (t : State), Steady z t → Steady z (start a0 t)) (hz : Steady z s) : Steady z (fetchWith op d onFetch start s) := by
  unfold fetchWith
  repeat' first
    | with_reducible assumption
    | (extract_lets +onlyGivenNames x; refine Steady.cut (x := x) ?_ (fun hx => ?_); (on_goal 1 => subst x); (on_goal 2 => clear_value x))
    | (extract_lets +onlyGivenNames x; clear_value x)
    | with_reducible apply Steady.ite
    | with_reducible apply noteFetch_steady
    | with_reducible apply holdAs_steady
    | with_reducible apply checked_steady
    | with_reducible apply HonFetch
    | split

theorem noFetchEffect_steady {z : State} (_p00 : DescRec) {s : State} (hz : Steady z s) : Steady z (noFetchEffect _p00 s) := by
  unfold noFetchEffect
  repeat' first
    | with_reducible assumption

theorem startHeld_steady {z : State} (id : Nat) (start : DescRec → State → State) {s : State} (Hstart : ∀
    (a0 : DescRec) (t : State), Steady z t → Steady z (start a0 t)) (hz : Steady z s) : Steady z (startHeld id start s) := by
  unfold startHeld
  repeat' first
    | with_reducible assumption
    | with_reducible apply Steady.ite
    | with_reducible apply checked_steady
    | split

theorem stopRun_steady {z : State} (r : Nat) (status : BitVec 8) (detail : BitVec 16) (result0 : Word)
    {s : State} (hz : Steady z s) : Steady z (stopRun r status detail result0 s) := by
  unfold stopRun
  repeat' first
    | with_reducible assumption
    | with_reducible intro _
    | with_reducible apply Steady.foldl
    | with_reducible apply modCore_steady
    | with_reducible apply modRun_steady
    | split

theorem stopCoreAt_steady {z : State} (c : Nat) (detail : BitVec 16) (result0 : Word) {s : State} (hz : Steady z s) : Steady z
    (stopCoreAt c detail result0 s) := by
  unfold stopCoreAt
  repeat' first
    | with_reducible assumption
    | with_reducible apply modCore_steady
    | with_reducible apply stopRun_steady
    | split

theorem stopCore_steady {z : State} (c : Nat) (detail : BitVec 16) {s : State} (hz : Steady z s) : Steady z (stopCore c detail s) := by
  unfold stopCore
  repeat' first
    | with_reducible assumption
    | with_reducible apply stopCoreAt_steady

theorem stopPlace_steady {z : State} (p : Place) (detail : BitVec 16) {s : State} (hz : Steady z s) : Steady z (stopPlace p detail s) := by
  unfold stopPlace
  repeat' first
    | with_reducible assumption
    | with_reducible apply stopCore_steady
    | split

theorem endStall_steady {z : State} (p : Place) {s : State} (hz : Steady z s) : Steady z (endStall p s) := by
  unfold endStall
  repeat' first
    | with_reducible assumption
    | with_reducible apply modSeq_steady
    | with_reducible apply addStall_steady
    | split

theorem holdIssue_steady {z : State} (p : Place) (cause : Nat) {s : State} (hz : Steady z s) : Steady z (holdIssue p cause s) := by
  unfold holdIssue
  repeat' first
    | with_reducible assumption
    | with_reducible apply modSeq_steady

theorem noteIssue_steady {z : State} (p : Place) {s : State} (hz : Steady z s) : Steady z (noteIssue p s) := by
  unfold noteIssue
  repeat' first
    | with_reducible assumption
    | with_reducible apply modCore_steady
    | split

theorem goTo_steady {z : State} (p : Place) (pc : Nat) {s : State} (hz : Steady z s) : Steady z (goTo p pc s) := by
  unfold goTo
  repeat' first
    | with_reducible assumption
    | with_reducible apply Steady.ite
    | with_reducible apply modSeq_steady
    | with_reducible apply endStall_steady
    | with_reducible apply noteIssue_steady
    | with_reducible apply stopCore_steady
    | split

theorem advance_steady {z : State} (p : Place) {s : State} (hz : Steady z s) : Steady z (advance p s) := by
  unfold advance
  repeat' first
    | with_reducible assumption
    | with_reducible apply goTo_steady

theorem branchTo_steady {z : State} (p : Place) (off : Word) {s : State} (hz : Steady z s) : Steady z (branchTo p off s) := by
  unfold branchTo
  repeat' first
    | with_reducible assumption
    | (extract_lets +onlyGivenNames x; clear_value x)
    | with_reducible apply Steady.ite
    | with_reducible apply stopPlace_steady
    | with_reducible apply goTo_steady

theorem stepSeq_steady {z : State} (p : Place) (f : Seq → Seq) {s : State} (hz : Steady z s) : Steady z (stepSeq p f s) := by
  unfold stepSeq
  repeat' first
    | with_reducible assumption
    | with_reducible apply advance_steady
    | with_reducible apply modSeq_steady

theorem withTok_steady {z : State} (p : Place) (n : Nat) (body : Option (Fin 16) → State → State) {s : State}
    (Hbody : ∀ (a0 : Option (Fin 16)) (t : State), Steady z t → Steady z (body a0 t)) (hz : Steady z s) : Steady z (withTok p n body s) := by
  unfold withTok
  repeat' first
    | with_reducible assumption
    | with_reducible apply Steady.ite
    | with_reducible apply stopPlace_steady
    | with_reducible apply holdIssue_steady
    | with_reducible apply Hbody

theorem scalarOp_steady {z : State} (p : Place) (w : Word) (f : Word → Word → Word) {s : State} (hz : Steady z s) : Steady z (scalarOp p w f s) := by
  unfold scalarOp
  repeat' first
    | with_reducible assumption
    | with_reducible apply stepSeq_steady

theorem branchIf_steady {z : State} (p : Place) (w : Word) (taken : Bool) {s : State} (hz : Steady z s) : Steady z (branchIf p w taken s) := by
  unfold branchIf
  repeat' first
    | with_reducible assumption
    | with_reducible apply Steady.ite
    | with_reducible apply branchTo_steady
    | with_reducible apply advance_steady

theorem settleWaits_steady {z : State} (r : Nat) {s : State} (hz : Steady z s) : Steady z (settleWaits r s) := by
  unfold settleWaits
  repeat' first
    | with_reducible assumption
    | with_reducible apply stopCoreAt_steady
    | split

theorem settleCore_steady {z : State} (c : Nat) {s : State} (hz : Steady z s) : Steady z (settleCore c s) := by
  unfold settleCore
  repeat' first
    | with_reducible assumption
    | (extract_lets +onlyGivenNames x; refine Steady.cut (x := x) ?_ (fun hx => ?_); (on_goal 1 => subst x); (on_goal 2 => clear_value x))
    | with_reducible apply Steady.ite
    | with_reducible apply stopCore_steady
    | with_reducible apply modCore_steady
    | with_reducible apply settleWaits_steady
    | split

theorem scratchWrite_steady {z : State} (p : Place) (a : Nat) (bs : List Byte) {s : State} (hz : Steady z s) : Steady z (scratchWrite p a bs s) := by
  unfold scratchWrite
  repeat' first
    | with_reducible assumption
    | with_reducible apply modCore_steady
    | with_reducible apply modSeq_steady
    | split

theorem deskDraw_steady {z : State} (c a n : Nat) {s : State} (hz : Steady z s) : Steady z (deskDraw c a n s) := by
  unfold deskDraw
  repeat' first
    | with_reducible assumption
    | with_reducible apply Steady.ite
    | with_reducible apply drawFree_steady

theorem deskWrite_steady {z : State} (c a : Nat) (bs : List Byte) {s : State} (hz : Steady z s) : Steady z (deskWrite c a bs s) := by
  unfold deskWrite
  repeat' first
    | with_reducible assumption
    | with_reducible apply deskDraw_steady
    | with_reducible apply modCore_steady

theorem countWrite_steady {z : State} (c tag : Nat) (x : Counts) {s : State} (hz : Steady z s) : Steady z (countWrite c tag x s) := by
  unfold countWrite
  repeat' first
    | with_reducible assumption
    | (extract_lets +onlyGivenNames x; refine Steady.cut (x := x) ?_ (fun hx => ?_); (on_goal 1 => subst x); (on_goal 2 => clear_value x))
    | (extract_lets +onlyGivenNames x; clear_value x)
    | with_reducible apply Steady.ite
    | with_reducible apply modRun_steady
    | with_reducible apply raiseEvent_steady
    | with_reducible apply modChan_steady
    | split
    | fail_if_no_progress with_reducible apply Steady.record

theorem countTensor_steady {z : State} (c : Nat) (tag : Option Nat) (fmt : Nat) (bs : List Byte) (fs : List
    (BitVec 7)) {s : State} (hz : Steady z s) : Steady z (countTensor c tag fmt bs fs s) := by
  unfold countTensor
  repeat' first
    | with_reducible assumption
    | with_reducible apply Steady.ite
    | with_reducible apply countWrite_steady
    | split

theorem holdToken_steady {z : State} (c : Fin 192) (t : Option (Fin 16)) {s : State} (hz : Steady z s) : Steady z (holdToken c t s) := by
  unfold holdToken
  repeat' first
    | with_reducible assumption
    | with_reducible apply Steady.ite
    | with_reducible apply stopCore_steady
    | with_reducible apply holdIssue_steady

theorem withCoreTok_steady {z : State} (c : Fin 192) (n : Nat) (body : Option (Fin 16) → State → State)
    {s : State} (Hbody : ∀ (a0 : Option (Fin 16)) (t : State), Steady z t → Steady z (body a0 t)) (hz : Steady z s) : Steady z (withCoreTok c n body s) := by
  unfold withCoreTok
  repeat' first
    | with_reducible assumption
    | with_reducible apply Steady.ite
    | with_reducible apply stopCore_steady
    | with_reducible apply holdToken_steady
    | with_reducible apply Hbody

theorem fillBody_steady {z : State} (c : Fin 192) (w : Word) {s : State} (hz : Steady z s) : Steady z (fillBody c w s) := by
  unfold fillBody
  repeat' first
    | with_reducible assumption
    | (extract_lets +onlyGivenNames x; clear_value x)
    | with_reducible apply Steady.ite
    | with_reducible apply stopCore_steady
    | with_reducible apply holdToken_steady
    | with_reducible apply holdIssue_steady
    | with_reducible apply deskDraw_steady
    | with_reducible apply advance_steady
    | with_reducible apply modCore_steady
    | split

theorem streamBody_steady {z : State} (c : Fin 192) (w : Word) {s : State} (hz : Steady z s) : Steady z (streamBody c w s) := by
  unfold streamBody
  repeat' first
    | with_reducible assumption
    | (extract_lets +onlyGivenNames x; refine Steady.cut (x := x) ?_ (fun hx => ?_); (on_goal 1 => subst x); (on_goal 2 => clear_value x))
    | (extract_lets +onlyGivenNames x; clear_value x)
    | with_reducible apply Steady.ite
    | with_reducible apply stopCore_steady
    | with_reducible apply holdIssue_steady
    | with_reducible apply drawFree_steady
    | with_reducible apply advance_steady
    | with_reducible apply modCore_steady

theorem drainBody_steady {z : State} (c : Fin 192) (w : Word) {s : State} (hz : Steady z s) : Steady z (drainBody c w s) := by
  unfold drainBody
  repeat' first
    | with_reducible assumption
    | (extract_lets +onlyGivenNames x; refine Steady.cut (x := x) ?_ (fun hx => ?_); (on_goal 1 => subst x); (on_goal 2 => clear_value x))
    | (extract_lets +onlyGivenNames x; clear_value x)
    | with_reducible apply Steady.ite
    | with_reducible apply stopCore_steady
    | with_reducible apply holdToken_steady
    | with_reducible apply holdIssue_steady
    | with_reducible apply countTensor_steady
    | with_reducible apply modCore_steady
    | with_reducible apply advance_steady
    | with_reducible apply deskWrite_steady
    | split

theorem openStream_steady {z : State} (e id : Nat) {s : State} (hz : Steady z s) : Steady z (openStream e id s) := by
  unfold openStream
  repeat' first
    | with_reducible assumption
    | with_reducible apply modEngine_steady

theorem queueBytes_steady {z : State} (e id n : Nat) {s : State} (hz : Steady z s) : Steady z (queueBytes e id n s) := by
  unfold queueBytes
  repeat' first
    | with_reducible assumption
    | (extract_lets +onlyGivenNames x; clear_value x)
    | with_reducible apply modEngine_steady

theorem closeStream_steady {z : State} (e id n raw stored : Nat) {s : State} (hz : Steady z s) : Steady z
    (closeStream e id n raw stored s) := by
  unfold closeStream
  repeat' first
    | with_reducible assumption
    | with_reducible apply modEngine_steady

theorem rejectItem_steady {z : State} (e row kind : Nat) {s : State} (hz : Steady z s) : Steady z (rejectItem e row kind s) := by
  unfold rejectItem
  repeat' first
    | with_reducible assumption
    | with_reducible apply raiseDev_steady
    | with_reducible apply raiseEvent_steady
    | with_reducible apply modEngine_steady

theorem moveStream_steady {z : State} (src id : Nat) {s : State} (hz : Steady z s) : Steady z (moveStream src id s) := by
  unfold moveStream
  repeat' first
    | with_reducible assumption
    | (extract_lets +onlyGivenNames x; refine Steady.cut (x := x) ?_ (fun hx => ?_); (on_goal 1 => subst x); (on_goal 2 => clear_value x))
    | (extract_lets +onlyGivenNames x; clear_value x)
    | with_reducible apply openStream_steady
    | split
    | fail_if_no_progress with_reducible apply Steady.record

theorem noteWrite_steady {z : State} (c : Nat) (va len : Nat) {s : State} (hz : Steady z s) : Steady z (noteWrite c va len s) := by
  unfold noteWrite
  repeat' first
    | with_reducible assumption
    | with_reducible apply Steady.ite
    | with_reducible apply modRun_steady
    | split

theorem dmaEngine_steady {z : State} (c : Nat) (o : DmaOp) {s : State} (hz : Steady z s) : Steady z (dmaEngine c o s).2 := by
  unfold dmaEngine
  repeat' first
    | with_reducible assumption
    | with_reducible apply queueBytes_steady
    | with_reducible apply openStream_steady
    | split

theorem beginDma_steady {z : State} (c : Fin 192) (w : Word) (o : DmaOp) {s : State} (hz : Steady z s) : Steady z (beginDma c w o s) := by
  unfold beginDma
  repeat' first
    | with_reducible assumption
    | (extract_lets +onlyGivenNames x; refine Steady.cut (x := x.2) ?_ (fun hx => ?_); (on_goal 1 => subst x); (on_goal 2 => clear_value x))
    | (extract_lets +onlyGivenNames x; clear_value x)
    | with_reducible apply dmaEngine_steady
    | with_reducible apply advance_steady
    | with_reducible apply modCore_steady

theorem issueLoad_steady {z : State} (c : Fin 192) (w : Word) (o : DmaOp) {s : State} (hz : Steady z s) : Steady z (issueLoad c w o s) := by
  unfold issueLoad
  repeat' first
    | with_reducible assumption
    | (extract_lets +onlyGivenNames x; clear_value x)
    | with_reducible apply Steady.ite
    | with_reducible apply stopCore_steady
    | with_reducible apply beginDma_steady

theorem dldBody_steady {z : State} (c : Fin 192) (w : Word) {s : State} (hz : Steady z s) : Steady z (dldBody c w s) := by
  unfold dldBody
  repeat' first
    | with_reducible assumption
    | with_reducible intro _
    | (extract_lets +onlyGivenNames x; clear_value x)
    | with_reducible apply Steady.ite
    | with_reducible apply stopCore_steady
    | with_reducible apply withCoreTok_steady
    | with_reducible apply holdIssue_steady
    | with_reducible apply stopCoreAt_steady
    | with_reducible apply rejectItem_steady
    | with_reducible apply issueLoad_steady
    | split

theorem dstBody_steady {z : State} (c : Fin 192) (w : Word) {s : State} (hz : Steady z s) : Steady z (dstBody c w s) := by
  unfold dstBody
  repeat' first
    | with_reducible assumption
    | with_reducible intro _
    | (extract_lets +onlyGivenNames x; refine Steady.cut (x := x) ?_ (fun hx => ?_); (on_goal 1 => subst x); (on_goal 2 => clear_value x))
    | (extract_lets +onlyGivenNames x; clear_value x)
    | with_reducible apply Steady.ite
    | with_reducible apply stopCore_steady
    | with_reducible apply withCoreTok_steady
    | with_reducible apply holdIssue_steady
    | with_reducible apply stopCoreAt_steady
    | with_reducible apply noteWrite_steady
    | with_reducible apply beginDma_steady
    | with_reducible apply deskDraw_steady
    | with_reducible apply countTensor_steady
    | split

theorem lateDma_steady {z : State} (c : Nat) (o : DmaOp) {s : State} (hz : Steady z s) : Steady z (lateDma c o s).2 := by
  unfold lateDma
  repeat' first
    | with_reducible assumption
    | (extract_lets +onlyGivenNames x; clear_value x)
    | with_reducible apply countTensor_steady
    | split

theorem landDma_steady {z : State} (c : Nat) (o : DmaOp) {s : State} (hz : Steady z s) : Steady z (landDma c o s) := by
  unfold landDma
  repeat' first
    | with_reducible assumption
    | (extract_lets +onlyGivenNames x; refine Steady.cut (x := x) ?_ (fun hx => ?_); (on_goal 1 => subst x); (on_goal 2 => clear_value x))
    | (extract_lets +onlyGivenNames x; clear_value x)
    | with_reducible apply Steady.ite
    | with_reducible apply modCore_steady
    | with_reducible apply vaStore_steady
    | with_reducible apply deskWrite_steady
    | with_reducible apply closeStream_steady
    | with_reducible apply stopCoreAt_steady
    | with_reducible apply rejectItem_steady
    | split

theorem narrowBody_steady {z : State} (c : Fin 192) (w : Word) (func : Nat) {s : State} (hz : Steady z s) : Steady z (narrowBody c w func s) := by
  unfold narrowBody
  repeat' first
    | with_reducible assumption
    | with_reducible intro _
    | (extract_lets +onlyGivenNames x; refine Steady.cut (x := x) ?_ (fun hx => ?_); (on_goal 1 => subst x); (on_goal 2 => clear_value x))
    | (extract_lets +onlyGivenNames x; clear_value x)
    | with_reducible apply Steady.ite
    | with_reducible apply Steady.foldl
    | with_reducible apply stopCore_steady
    | with_reducible apply withCoreTok_steady
    | with_reducible apply holdIssue_steady
    | with_reducible apply stopCoreAt_steady
    | with_reducible apply noteWrite_steady
    | with_reducible apply deskDraw_steady
    | with_reducible apply advance_steady
    | with_reducible apply modCore_steady
    | split

theorem landItem_steady {z : State} (c : Nat) (o : NarrowOp) (x : Nat × Nat × List Byte) {s : State}
    (hz : Steady z s) : Steady z (landItem c o x s) := by
  unfold landItem
  repeat' first
    | with_reducible assumption
    | (extract_lets +onlyGivenNames x; clear_value x)
    | with_reducible apply deskWrite_steady
    | with_reducible apply vaStore_steady
    | with_reducible apply modCore_steady
    | split

theorem applySwap_steady {z : State} (slot layer e f : Nat) {s : State} (hz : Steady z s) : Steady z
    (applySwap slot layer e f s) := by
  unfold applySwap
  repeat' first
    | with_reducible assumption
    | (extract_lets +onlyGivenNames x; clear_value x)
    | with_reducible apply vaForce_steady

theorem noteDrops_steady {z : State} (slot layer : Nat) (outs : List (Nat × Bool)) {s : State} (hz : Steady z s) : Steady z
    (noteDrops slot layer outs s) := by
  unfold noteDrops
  repeat' first
    | with_reducible assumption
    | (extract_lets +onlyGivenNames x; clear_value x)
    | with_reducible apply modCard_steady

theorem routeIssue_steady {z : State} (c : Fin 192) (w : Word) (tok : Option (Fin 16)) (u : Run) (ch : Chan)
    (pg : ExpertPage) (y : LayerEntry) {s : State} (hz : Steady z s) : Steady z (routeIssue c w tok u ch pg y s) := by
  unfold routeIssue
  repeat' first
    | with_reducible assumption
    | with_reducible intro _
    | (extract_lets +onlyGivenNames x; refine Steady.cut (x := x) ?_ (fun hx => ?_); (on_goal 1 => subst x); (on_goal 2 => clear_value x))
    | (extract_lets +onlyGivenNames x; clear_value x)
    | with_reducible apply Steady.ite
    | with_reducible apply Steady.foldl
    | with_reducible apply stopCoreAt_steady
    | with_reducible apply noteWrite_steady
    | with_reducible apply raiseEvent_steady
    | with_reducible apply noteDrops_steady
    | with_reducible apply modRun_steady
    | with_reducible apply modChan_steady
    | with_reducible apply drawFree_steady
    | with_reducible apply advance_steady
    | with_reducible apply modCore_steady
    | split

theorem routeBody_steady {z : State} (c : Fin 192) (w : Word) {s : State} (hz : Steady z s) : Steady z (routeBody c w s) := by
  unfold routeBody
  repeat' first
    | with_reducible assumption
    | with_reducible intro _
    | (extract_lets +onlyGivenNames x; clear_value x)
    | with_reducible apply Steady.ite
    | with_reducible apply stopCore_steady
    | with_reducible apply withCoreTok_steady
    | with_reducible apply holdIssue_steady
    | with_reducible apply routeIssue_steady
    | split

theorem predictBody_steady {z : State} (c : Fin 192) (w : Word) {s : State} (hz : Steady z s) : Steady z (predictBody c w s) := by
  unfold predictBody
  repeat' first
    | with_reducible assumption
    | with_reducible intro _
    | (extract_lets +onlyGivenNames x; clear_value x)
    | with_reducible apply Steady.ite
    | with_reducible apply stopCore_steady
    | with_reducible apply withCoreTok_steady
    | with_reducible apply holdIssue_steady
    | with_reducible apply advance_steady
    | with_reducible apply modCore_steady
    | split

theorem confirmBody_steady {z : State} (c : Fin 192) (w : Word) {s : State} (hz : Steady z s) : Steady z (confirmBody c w s) := by
  unfold confirmBody
  repeat' first
    | with_reducible assumption
    | with_reducible intro _
    | (extract_lets +onlyGivenNames x; clear_value x)
    | with_reducible apply Steady.ite
    | with_reducible apply stopCore_steady
    | with_reducible apply withCoreTok_steady
    | with_reducible apply advance_steady
    | with_reducible apply modCore_steady
    | split

theorem waitBody_steady {z : State} (p : Place) (w : Word) {s : State} (hz : Steady z s) : Steady z (waitBody p w s) := by
  unfold waitBody
  repeat' first
    | with_reducible assumption
    | (extract_lets +onlyGivenNames x; clear_value x)
    | with_reducible apply Steady.ite
    | with_reducible apply advance_steady
    | with_reducible apply stopCore_steady
    | with_reducible apply holdIssue_steady
    | split

theorem settleRunOf_steady {z : State} (c : Nat) {s : State} (hz : Steady z s) : Steady z (settleRunOf c s) := by
  unfold settleRunOf
  repeat' first
    | with_reducible assumption
    | with_reducible apply settleWaits_steady
    | split

theorem noteBackward_steady {z : State} (c tag : Nat) {s : State} (hz : Steady z s) : Steady z (noteBackward c tag s) := by
  unfold noteBackward
  repeat' first
    | with_reducible assumption
    | (extract_lets +onlyGivenNames x; refine Steady.cut (x := x) ?_ (fun hx => ?_); (on_goal 1 => subst x); (on_goal 2 => clear_value x))
    | (extract_lets +onlyGivenNames x; clear_value x)
    | with_reducible apply Steady.ite
    | with_reducible apply modGroup_steady
    | with_reducible apply setShare_steady
    | split

theorem takeTail_steady {z : State} (slot ring : Nat) (v : W32) {s : State} (hz : Steady z s) : Steady z
    (takeTail slot ring v s) := by
  unfold takeTail
  repeat' first
    | with_reducible assumption
    | (extract_lets +onlyGivenNames x; clear_value x)
    | with_reducible apply Steady.ite
    | with_reducible apply raiseBellError_steady
    | with_reducible apply modChan_steady

theorem takeHead_steady {z : State} (slot : Nat) (v : W32) {s : State} (hz : Steady z s) : Steady z (takeHead slot v s) := by
  unfold takeHead
  repeat' first
    | with_reducible assumption
    | with_reducible apply Steady.ite
    | with_reducible apply modChan_steady
    | with_reducible apply raiseBellError_steady
    | split

theorem takeBell_steady {z : State} (slot ring : Nat) (v : W32) {s : State} (hz : Steady z s) : Steady z
    (takeBell slot ring v s) := by
  unfold takeBell
  repeat' first
    | with_reducible assumption
    | with_reducible apply Steady.ite
    | with_reducible apply takeHead_steady
    | with_reducible apply takeTail_steady

theorem keepBell_steady {z : State} (p : Port) (slot ring : Nat) (v : W32) {s : State} (hz : Steady z s) : Steady z
    (keepBell p slot ring v s) := by
  unfold keepBell
  repeat' first
    | with_reducible assumption
    | with_reducible intro _
    | with_reducible apply modPort_steady

theorem bellWrite_steady {z : State} (p : Port) (slot offset size : Nat) (value : Word) {s : State}
    (hz : Steady z s) : Steady z (bellWrite p slot offset size value s) := by
  unfold bellWrite
  repeat' first
    | with_reducible assumption
    | with_reducible intro _
    | (extract_lets +onlyGivenNames x; refine Steady.cut (x := x) ?_ (fun hx => ?_); (on_goal 1 => subst x); (on_goal 2 => clear_value x))
    | (extract_lets +onlyGivenNames x; clear_value x)
    | with_reducible apply Steady.ite
    | with_reducible apply modPort_steady
    | with_reducible apply raiseBellError_steady
    | with_reducible apply takeBell_steady
    | with_reducible apply keepBell_steady
    | split

theorem fencePort_steady {z : State} (p : Port) {s : State} (hz : Steady z s) : Steady z (fencePort p s) := by
  unfold fencePort
  repeat' first
    | with_reducible assumption
    | with_reducible intro _
    | with_reducible apply modPort_steady

theorem startWait_steady {z : State} (r : DescRec) {s : State} (hz : Steady z s) : Steady z (startWait r s) := by
  unfold startWait
  repeat' first
    | with_reducible assumption
    | with_reducible apply Steady.ite
    | with_reducible apply refuse_steady
    | with_reducible apply done_steady
    | with_reducible apply holdAs_steady

theorem createChannel_steady {z : State} (r : DescRec) {s : State} (hz : Steady z s) : Steady z (createChannel r s) := by
  unfold createChannel
  repeat' first
    | with_reducible assumption
    | (extract_lets +onlyGivenNames x; clear_value x)
    | with_reducible apply Steady.ite
    | with_reducible apply refuse_steady
    | with_reducible apply refuseCap_steady
    | with_reducible apply done_steady
    | with_reducible apply modSlot_steady
    | split

theorem adoptChannel_steady {z : State} (r : DescRec) {s : State} (hz : Steady z s) : Steady z (adoptChannel r s) := by
  unfold adoptChannel
  repeat' first
    | with_reducible assumption
    | (extract_lets +onlyGivenNames x; clear_value x)
    | with_reducible apply Steady.ite
    | with_reducible apply finishGone_steady
    | with_reducible apply refuse_steady
    | with_reducible apply done_steady
    | with_reducible apply modChan_steady
    | with_reducible apply hostWrite_steady
    | split

theorem startCreate_steady {z : State} (r : DescRec) {s : State} (hz : Steady z s) : Steady z (startCreate r s) := by
  unfold startCreate
  repeat' first
    | with_reducible assumption
    | with_reducible apply Steady.ite
    | with_reducible apply adoptChannel_steady
    | with_reducible apply createChannel_steady

theorem mapPages_steady {z : State} (slot q : Nat) (ro : Bool) (kinds : List PageKind) {s : State}
    (hz : Steady z s) : Steady z (mapPages slot q ro kinds s) := by
  unfold mapPages
  repeat' first
    | with_reducible assumption
    | with_reducible apply modChan_steady

theorem startMap_steady {z : State} (r : DescRec) {s : State} (hz : Steady z s) : Steady z (startMap r s) := by
  unfold startMap
  repeat' first
    | with_reducible assumption
    | with_reducible intro _
    | (extract_lets +onlyGivenNames x; clear_value x)
    | with_reducible apply Steady.ite
    | with_reducible apply finishGone_steady
    | with_reducible apply refuse_steady
    | with_reducible apply refuseCap_steady
    | with_reducible apply done_steady
    | with_reducible apply mapPages_steady
    | with_reducible apply modMemory_steady
    | split

theorem unmapPages_steady {z : State} (slot q n : Nat) {s : State} (hz : Steady z s) : Steady z (unmapPages slot q n s) := by
  unfold unmapPages
  repeat' first
    | with_reducible assumption
    | (extract_lets +onlyGivenNames x; refine Steady.cut (x := x) ?_ (fun hx => ?_); (on_goal 1 => subst x); (on_goal 2 => clear_value x))
    | (extract_lets +onlyGivenNames x; clear_value x)
    | with_reducible apply modChan_steady
    | with_reducible apply dropAliases_steady
    | with_reducible apply freeFrames_steady

theorem startUnmap_steady {z : State} (r : DescRec) {s : State} (hz : Steady z s) : Steady z (startUnmap r s) := by
  unfold startUnmap
  repeat' first
    | with_reducible assumption
    | (extract_lets +onlyGivenNames x; clear_value x)
    | with_reducible apply Steady.ite
    | with_reducible apply finishGone_steady
    | with_reducible apply refuse_steady
    | with_reducible apply holdAs_steady
    | with_reducible apply modChan_steady
    | with_reducible apply done_steady
    | with_reducible apply unmapPages_steady
    | split

theorem setPage_steady {z : State} (pg : ExpertPage) {s : State} (hz : Steady z s) : Steady z (setPage pg s) := by
  unfold setPage
  repeat' first
    | with_reducible assumption
    | fail_if_no_progress with_reducible apply Steady.record

theorem protect_steady {z : State} (g slot : Nat) (rs : List (Nat × Nat)) {s : State} (hz : Steady z s) : Steady z (protect g slot rs s) := by
  unfold protect
  repeat' first
    | with_reducible assumption
    | with_reducible apply modGroup_steady

theorem forwardDesc_steady {z : State} (g : Option Nat) (step : Option Word) (slot : Nat) (ins outs : List
    (Nat × Nat)) {s t : State} (hs : Steady z s) (ht : forwardDesc g step slot ins outs s = some t) : Steady z t := by
  unfold forwardDesc at ht
  split at ht
  · dsimp only at ht
    split at ht
    · split at ht
      · cases ht; exact modGroup_steady hs
      · split at ht
        · cases ht
        · cases ht; exact modGroup_steady (modGroup_steady hs)
    · cases ht; exact modGroup_steady hs
  · cases ht; exact hs

theorem beginRun_steady {z : State} (u : Run) {s : State} (hz : Steady z s) : Steady z (beginRun u s) := by
  unfold beginRun
  repeat' first
    | with_reducible assumption
    | with_reducible intro _
    | (extract_lets +onlyGivenNames x; clear_value x)
    | with_reducible apply Steady.foldl
    | with_reducible apply modRun_steady
    | fail_if_no_progress with_reducible apply Steady.record

theorem beginReady_steady {z : State}  {s : State} (hz : Steady z s) : Steady z (beginReady s) := by
  unfold beginReady
  repeat' first
    | with_reducible assumption
    | with_reducible intro _
    | with_reducible apply Steady.foldl
    | with_reducible apply beginRun_steady

theorem admitRun_steady {z : State} (r : DescRec) (c : Chan) (u : Run) (measure : List Byte) {s : State}
    (hz : Steady z s) : Steady z (admitRun r c u measure s) := by
  unfold admitRun
  repeat' first
    | with_reducible assumption
    | (extract_lets +onlyGivenNames x; refine Steady.cut (x := x) ?_ (fun hx => ?_); (on_goal 1 => subst x); (on_goal 2 => clear_value x))
    | (extract_lets +onlyGivenNames x; clear_value x)
    | with_reducible apply Steady.ite
    | with_reducible apply refuseCap_steady
    | with_reducible exact forwardDesc_steady _ _ _ _ _ (by assumption) (by assumption)
    | with_reducible apply setPage_steady
    | with_reducible apply protect_steady
    | with_reducible apply modChan_steady
    | with_reducible apply holdAs_steady
    | with_reducible apply beginReady_steady
    | split
    | fail_if_no_progress with_reducible apply Steady.record

theorem startLesson_steady {z : State} (r : DescRec) {s : State} (hz : Steady z s) : Steady z (startLesson r s) := by
  unfold startLesson
  repeat' first
    | with_reducible assumption
    | (extract_lets +onlyGivenNames x; clear_value x)
    | with_reducible apply Steady.ite
    | with_reducible apply finishGone_steady
    | with_reducible apply refuse_steady
    | with_reducible apply admitRun_steady
    | split

theorem mergeCounts_steady {z : State} (u : Run) {s : State} (hz : Steady z s) : Steady z (mergeCounts u s) := by
  unfold mergeCounts
  repeat' first
    | with_reducible assumption
    | with_reducible intro _
    | (extract_lets +onlyGivenNames x; clear_value x)
    | with_reducible apply Steady.ite
    | with_reducible apply Steady.foldl
    | with_reducible apply raiseEvent_steady
    | with_reducible apply modChan_steady
    | fail_if_no_progress with_reducible apply Steady.record

theorem noteRunEnd_steady {z : State} (u : Run) {s : State} (hz : Steady z s) : Steady z (noteRunEnd u s) := by
  unfold noteRunEnd
  repeat' first
    | with_reducible assumption
    | with_reducible apply modGroup_steady
    | split

theorem cardRun_steady {z : State} (u : Run) (f : BitVec 7) {s : State} (hz : Steady z s) : Steady z (cardRun u f s) := by
  unfold cardRun
  repeat' first
    | with_reducible assumption
    | (extract_lets +onlyGivenNames x; refine Steady.cut (x := x) ?_ (fun hx => ?_); (on_goal 1 => subst x); (on_goal 2 => clear_value x))
    | with_reducible apply orCard_steady
    | with_reducible apply countCard_steady

theorem reassign_steady {z : State} (c p : Nat) {s : State} (hz : Steady z s) : Steady z (reassign c p s) := by
  unfold reassign
  repeat' first
    | with_reducible assumption
    | with_reducible intro _
    | (extract_lets +onlyGivenNames x; refine Steady.cut (x := x) ?_ (fun hx => ?_); (on_goal 1 => subst x); (on_goal 2 => clear_value x))
    | (extract_lets +onlyGivenNames x; clear_value x)
    | with_reducible apply modFlash_steady
    | with_reducible apply raiseDev_steady
    | with_reducible apply raiseEvent_steady
    | exact ⟨Nat.le_refl _, Nat.le_refl _⟩
    | split

theorem dropStreams_steady {z : State} (c : Nat) {s : State} (hz : Steady z s) : Steady z (dropStreams c s) := by
  unfold dropStreams
  repeat' first
    | with_reducible assumption
    | with_reducible intro _
    | with_reducible apply Steady.foldl
    | with_reducible apply closeStream_steady
    | split

theorem dropWork_steady {z : State} (c : Nat) {s : State} (hz : Steady z s) : Steady z (dropWork c s) := by
  unfold dropWork
  repeat' first
    | with_reducible assumption
    | with_reducible apply modCore_steady
    | with_reducible apply dropStreams_steady

theorem spoilOutputs_steady {z : State} (u : Run) {s : State} (hz : Steady z s) : Steady z (spoilOutputs u s) := by
  unfold spoilOutputs
  repeat' first
    | with_reducible assumption
    | with_reducible intro _
    | with_reducible apply Steady.foldl
    | with_reducible apply drawFree_steady
    | with_reducible apply vaWrite_steady

theorem rerunRun_steady {z : State} (u : Run) {s : State} (hz : Steady z s) : Steady z (rerunRun u s) := by
  unfold rerunRun
  repeat' first
    | with_reducible assumption
    | with_reducible intro _
    | (extract_lets +onlyGivenNames x; refine Steady.cut (x := x) ?_ (fun hx => ?_); (on_goal 1 => subst x); (on_goal 2 => clear_value x))
    | (extract_lets +onlyGivenNames x; clear_value x)
    | with_reducible apply Steady.ite
    | with_reducible apply Steady.foldl
    | with_reducible apply dropWork_steady
    | with_reducible apply modCore_steady
    | with_reducible apply beginRun_steady
    | with_reducible apply modRun_steady
    | with_reducible apply stopRun_steady
    | with_reducible apply spoilOutputs_steady

theorem fenceSlot_steady {z : State} (c p : Nat) {s : State} (hz : Steady z s) : Steady z (fenceSlot c p s) := by
  unfold fenceSlot
  repeat' first
    | with_reducible assumption
    | with_reducible intro _
    | (extract_lets +onlyGivenNames x; refine Steady.cut (x := x) ?_ (fun hx => ?_); (on_goal 1 => subst x); (on_goal 2 => clear_value x))
    | (extract_lets +onlyGivenNames x; clear_value x)
    | with_reducible apply Steady.foldl
    | with_reducible apply modFlash_steady
    | with_reducible apply reassign_steady
    | with_reducible apply raiseEvent_steady
    | with_reducible apply rerunRun_steady
    | exact ⟨Nat.le_refl _, Nat.le_refl _⟩

theorem fenceCore_steady {z : State} (c : Nat) {s : State} (hz : Steady z s) : Steady z (fenceCore c s) := by
  unfold fenceCore
  repeat' first
    | with_reducible assumption
    | with_reducible apply Steady.ite
    | with_reducible apply fenceSlot_steady
    | split

theorem vecStep_steady {z : State} (c : Fin 192) (ok : Bool) (f : VecSt → VecSt) {s : State} (hz : Steady z s) : Steady z (vecStep c ok f s) := by
  unfold vecStep
  repeat' first
    | with_reducible assumption
    | with_reducible apply Steady.ite
    | with_reducible apply advance_steady
    | with_reducible apply modCore_steady
    | with_reducible apply stopCore_steady

theorem laneOp_steady {z : State} (c : Fin 192) (w : Word) (ok : Nat → Bool) (f : Nat → VecSt → Fin 128 → LaneOut)
    {s : State} (hz : Steady z s) : Steady z (laneOp c w ok f s) := by
  unfold laneOp
  repeat' first
    | with_reducible assumption
    | with_reducible apply vecStep_steady

theorem unaryOp_steady {z : State} (c : Fin 192) (w : Word) (f : Nat → Fp → Nat × BitVec 7) {s : State}
    (hz : Steady z s) : Steady z (unaryOp c w f s) := by
  unfold unaryOp
  repeat' first
    | with_reducible assumption
    | with_reducible apply laneOp_steady

theorem binaryOp_steady {z : State} (c : Fin 192) (w : Word) (f : Nat → Fp → Fp → Nat × BitVec 7) {s : State}
    (hz : Steady z s) : Steady z (binaryOp c w f s) := by
  unfold binaryOp
  repeat' first
    | with_reducible assumption
    | with_reducible apply laneOp_steady

theorem bitsOp_steady {z : State} (c : Fin 192) (w : Word) (ok : Nat → Bool) (f : Nat → Nat → Nat → Nat)
    {s : State} (hz : Steady z s) : Steady z (bitsOp c w ok f s) := by
  unfold bitsOp
  repeat' first
    | with_reducible assumption
    | with_reducible apply laneOp_steady

theorem cvtBody_steady {z : State} (c : Fin 192) (w : Word) {s : State} (hz : Steady z s) : Steady z (cvtBody c w s) := by
  unfold cvtBody
  repeat' first
    | with_reducible assumption
    | (extract_lets +onlyGivenNames x; clear_value x)
    | with_reducible apply Steady.ite
    | with_reducible apply stopCore_steady
    | with_reducible apply holdIssue_steady
    | with_reducible apply vecStep_steady

theorem maskOp_steady {z : State} (c : Fin 192) (w : Word) (two : Bool) (f : BitVec 128 → BitVec 128 → BitVec 128)
    {s : State} (hz : Steady z s) : Steady z (maskOp c w two f s) := by
  unfold maskOp
  repeat' first
    | with_reducible assumption
    | with_reducible apply vecStep_steady

theorem loadBody_steady {z : State} (c : Fin 192) (w : Word) {s : State} (hz : Steady z s) : Steady z (loadBody c w s) := by
  unfold loadBody
  repeat' first
    | with_reducible assumption
    | with_reducible intro _
    | (extract_lets +onlyGivenNames x; refine Steady.cut (x := x) ?_ (fun hx => ?_); (on_goal 1 => subst x); (on_goal 2 => clear_value x))
    | (extract_lets +onlyGivenNames x; clear_value x)
    | with_reducible apply Steady.ite
    | with_reducible apply Steady.foldl
    | with_reducible apply stopCore_steady
    | with_reducible apply holdIssue_steady
    | with_reducible apply deskDraw_steady
    | with_reducible apply advance_steady
    | with_reducible apply modCore_steady
    | split

theorem storeBody_steady {z : State} (c : Fin 192) (w : Word) {s : State} (hz : Steady z s) : Steady z (storeBody c w s) := by
  unfold storeBody
  repeat' first
    | with_reducible assumption
    | with_reducible intro _
    | (extract_lets +onlyGivenNames x; refine Steady.cut (x := x) ?_ (fun hx => ?_); (on_goal 1 => subst x); (on_goal 2 => clear_value x))
    | (extract_lets +onlyGivenNames x; clear_value x)
    | with_reducible apply Steady.ite
    | with_reducible apply Steady.foldl
    | with_reducible apply stopCore_steady
    | with_reducible apply holdIssue_steady
    | with_reducible apply countWrite_steady
    | with_reducible apply modCore_steady
    | with_reducible apply advance_steady
    | with_reducible apply deskWrite_steady
    | split

theorem popBody_steady {z : State} (c : Fin 192) (w : Word) {s : State} (hz : Steady z s) : Steady z (popBody c w s) := by
  unfold popBody
  repeat' first
    | with_reducible assumption
    | (extract_lets +onlyGivenNames x; clear_value x)
    | with_reducible apply Steady.ite
    | with_reducible apply stopCore_steady
    | with_reducible apply modCore_steady
    | with_reducible apply advance_steady
    | split

end Sys2Proof.Machine
end

