-- ==== Sys2Proof/Laws/SteadyPasses.lean ====
section
/-!
SUPPORT. Laws/SteadyPasses.lean: the operations of the block keep the relation Steady (Safety.lean), what changes groups: routes, journals, passes, updates, cards, links, keys, swaps, steps and exams. One lemma per operation; the
commands themselves are not here.
-/

namespace Sys2Proof.Machine

theorem settleHold_steady {z : State} (l : Nat) {s : State} (hz : Steady z s) : Steady z (settleHold l s) := by
  unfold settleHold
  repeat' first
    | with_reducible assumption
    | with_reducible apply modLink_steady

theorem enqueueSeg_steady {z : State} (l : Nat) (x : OutSeg) {s : State} (hz : Steady z s) : Steady z (enqueueSeg l x s) := by
  unfold enqueueSeg
  repeat' first
    | with_reducible assumption
    | with_reducible apply settleHold_steady
    | with_reducible apply modLink_steady

theorem sendItem_steady {z : State} (l : Nat) (it : Item) {s : State} (hz : Steady z s) : Steady z (sendItem l it s) := by
  unfold sendItem
  repeat' first
    | with_reducible assumption
    | with_reducible apply modLink_steady

theorem sendTo_steady {z : State} (ident : Word) (it : Item) {s : State} (hz : Steady z s) : Steady z (sendTo ident it s) := by
  unfold sendTo
  repeat' first
    | with_reducible assumption
    | with_reducible apply sendItem_steady
    | split

theorem sendAll_steady {z : State} (g : Group) (it : Item) {s : State} (hz : Steady z s) : Steady z (sendAll g it s) := by
  unfold sendAll
  repeat' first
    | with_reducible assumption
    | with_reducible intro _
    | with_reducible apply Steady.ite
    | with_reducible apply Steady.foldl
    | with_reducible apply sendTo_steady

theorem sendBeyond_steady {z : State} (l : Nat) (g : Group) (it : Item) {s : State} (hz : Steady z s) : Steady z (sendBeyond l g it s) := by
  unfold sendBeyond
  repeat' first
    | with_reducible assumption
    | with_reducible intro _
    | with_reducible apply Steady.foldl
    | with_reducible apply sendItem_steady

theorem rerouteSeg_steady {z : State} (l : Nat) (x : OutSeg) {s : State} (hz : Steady z s) : Steady z (rerouteSeg l x s) := by
  unfold rerouteSeg
  repeat' first
    | with_reducible assumption
    | with_reducible apply Steady.ite
    | with_reducible apply enqueueSeg_steady
    | with_reducible apply modPass_steady
    | with_reducible apply modLink_steady
    | split

theorem rerouteLink_steady {z : State} (l : Nat) {s : State} (hz : Steady z s) : Steady z (rerouteLink l s) := by
  unfold rerouteLink
  repeat' first
    | with_reducible assumption
    | with_reducible intro _
    | (extract_lets +onlyGivenNames x; refine Steady.cut (x := x) ?_ (fun hx => ?_); (on_goal 1 => subst x); (on_goal 2 => clear_value x))
    | (extract_lets +onlyGivenNames x; clear_value x)
    | with_reducible apply Steady.foldl
    | with_reducible apply modLink_steady
    | with_reducible apply rerouteSeg_steady

theorem notePasses_steady {z : State} (l : Nat) {s : State} (hz : Steady z s) : Steady z (notePasses l s) := by
  unfold notePasses
  repeat' first
    | with_reducible assumption
    | fail_if_no_progress with_reducible apply Steady.record

theorem stopFrames_steady {z : State} (l : Nat) {s : State} (hz : Steady z s) : Steady z (stopFrames l s) := by
  unfold stopFrames
  repeat' first
    | with_reducible assumption
    | with_reducible intro _
    | (extract_lets +onlyGivenNames x; refine Steady.cut (x := x) ?_ (fun hx => ?_); (on_goal 1 => subst x); (on_goal 2 => clear_value x))
    | with_reducible apply Steady.ite
    | with_reducible apply modMemory_steady
    | with_reducible apply modLink_steady

theorem linkDown_steady {z : State} (l : Nat) {s : State} (hz : Steady z s) : Steady z (linkDown l s) := by
  unfold linkDown
  repeat' first
    | with_reducible assumption
    | (extract_lets +onlyGivenNames x; refine Steady.cut (x := x) ?_ (fun hx => ?_); (on_goal 1 => subst x); (on_goal 2 => clear_value x))
    | with_reducible apply raiseLink_steady
    | with_reducible apply raiseEvent_steady
    | with_reducible apply modLink_steady
    | with_reducible apply stopFrames_steady
    | with_reducible apply settleHold_steady
    | with_reducible apply rerouteLink_steady
    | with_reducible apply notePasses_steady

theorem holdOut_steady {z : State} (l check : Nat) {s : State} (hz : Steady z s) : Steady z (holdOut l check s) := by
  unfold holdOut
  repeat' first
    | with_reducible assumption
    | (extract_lets +onlyGivenNames x; refine Steady.cut (x := x) ?_ (fun hx => ?_); (on_goal 1 => subst x); (on_goal 2 => clear_value x))
    | (extract_lets +onlyGivenNames x; clear_value x)
    | with_reducible apply raiseLink_steady
    | with_reducible apply raiseEvent_steady
    | with_reducible apply modLink_steady
    | with_reducible apply stopFrames_steady
    | with_reducible apply settleHold_steady
    | with_reducible apply rerouteLink_steady
    | with_reducible apply notePasses_steady

theorem tagFailure_steady {z : State} (l : Nat) {s : State} (hz : Steady z s) : Steady z (tagFailure l s) := by
  unfold tagFailure
  repeat' first
    | with_reducible assumption
    | (extract_lets +onlyGivenNames x; refine Steady.cut (x := x) ?_ (fun hx => ?_); (on_goal 1 => subst x); (on_goal 2 => clear_value x))
    | (extract_lets +onlyGivenNames x; clear_value x)
    | with_reducible apply Steady.ite
    | with_reducible apply modLink_steady
    | with_reducible apply holdOut_steady

theorem replayFailure_steady {z : State} (l : Nat) {s : State} (hz : Steady z s) : Steady z (replayFailure l s) := by
  unfold replayFailure
  repeat' first
    | with_reducible assumption
    | with_reducible apply holdOut_steady
    | with_reducible apply raiseLink_steady

theorem formFailure_steady {z : State} (l : Nat) {s : State} (hz : Steady z s) : Steady z (formFailure l s) := by
  unfold formFailure
  repeat' first
    | with_reducible assumption
    | (extract_lets +onlyGivenNames x; refine Steady.cut (x := x) ?_ (fun hx => ?_); (on_goal 1 => subst x); (on_goal 2 => clear_value x))
    | (extract_lets +onlyGivenNames x; clear_value x)
    | with_reducible apply Steady.ite
    | with_reducible apply raiseLink_steady
    | with_reducible apply modLink_steady
    | with_reducible apply holdOut_steady

theorem takeNonce_steady {z : State} (l : Nat) (keyId : Bool) (nonce : Word) {s : State} (hz : Steady z s) : Steady z
    (takeNonce l keyId nonce s) := by
  unfold takeNonce
  repeat' first
    | with_reducible assumption
    | with_reducible apply modLink_steady

theorem withItem_steady {z : State} (l : Nat) (it : Item) (kind : Nat) (act : State → State) {s : State}
    (Hact : ∀  (t : State), Steady z t → Steady z (act t)) (hz : Steady z s) : Steady z (withItem l it kind act s) := by
  unfold withItem
  repeat' first
    | with_reducible assumption
    | (extract_lets +onlyGivenNames x; clear_value x)
    | with_reducible apply Steady.ite
    | with_reducible apply tagFailure_steady
    | with_reducible apply replayFailure_steady
    | with_reducible apply takeNonce_steady
    | with_reducible apply Hact

theorem putStripe_steady {z : State} (b : Binding) (i : Nat) (x : Stripe) {s : State} (hz : Steady z s) : Steady z (putStripe b i x s) := by
  unfold putStripe
  repeat' first
    | with_reducible assumption
    | with_reducible apply modBinding_steady
    | with_reducible apply hostWrite_steady
    | split

theorem putBlock_steady {z : State} (b : Binding) (q : Nat) (x : Block) {s : State} (hz : Steady z s) : Steady z (putBlock b q x s) := by
  unfold putBlock
  repeat' first
    | with_reducible assumption
    | with_reducible apply modBinding_steady
    | with_reducible apply hostWrite_steady
    | split

theorem noteGap_steady {z : State} (j : Nat) (r : JRec) {s : State} (hz : Steady z s) : Steady z (noteGap j r s) := by
  unfold noteGap
  repeat' first
    | with_reducible assumption
    | with_reducible apply raiseDev_steady
    | with_reducible apply raiseEvent_steady
    | with_reducible apply modNmu_steady

theorem journalFull_steady {z : State} (j : Nat) {s : State} (hz : Steady z s) : Steady z (journalFull j s) := by
  unfold journalFull
  repeat' first
    | with_reducible assumption
    | with_reducible apply raiseDev_steady
    | with_reducible apply raiseEvent_steady
    | fail_if_no_progress with_reducible apply Steady.record

theorem trimJournal_steady {z : State} (j : Nat) (fuel : Nat)  {s : State} (hs : Steady z s) : Steady z (trimJournal j fuel  s) := by
  induction fuel generalizing  s with
  | zero => exact hs
  | succ fuel ih =>
    unfold trimJournal
    repeat' first
      | with_reducible assumption
      | (extract_lets +onlyGivenNames x; refine Steady.cut (x := x) ?_ (fun hx => ?_); (on_goal 1 => subst x); (on_goal 2 => clear_value x))
      | (extract_lets +onlyGivenNames x; clear_value x)
      | with_reducible apply Steady.ite
      | with_reducible apply ih
      | with_reducible apply journalFull_steady
      | with_reducible apply noteGap_steady
      | with_reducible apply modNmu_steady
      | split

theorem appendRec_steady {z : State} (r : JRec) {s : State} (hz : Steady z s) : Steady z (appendRec r s) := by
  unfold appendRec
  repeat' first
    | with_reducible assumption
    | (extract_lets +onlyGivenNames x; refine Steady.cut (x := x) ?_ (fun hx => ?_); (on_goal 1 => subst x); (on_goal 2 => clear_value x))
    | (extract_lets +onlyGivenNames x; clear_value x)
    | with_reducible apply Steady.ite
    | with_reducible apply modNmu_steady
    | with_reducible apply modMate_steady
    | with_reducible apply trimJournal_steady

theorem journalStripe_steady {z : State} (kind : Nat) (b : Binding) (i : Nat) (n : Word) (old new : Stripe)
    (e f : BdEntry) {s : State} (hz : Steady z s) : Steady z (journalStripe kind b i n old new e f s) := by
  unfold journalStripe
  repeat' first
    | with_reducible assumption
    | (extract_lets +onlyGivenNames x; clear_value x)
    | with_reducible apply appendRec_steady

theorem journalBlock_steady {z : State} (kind : Nat) (b : Binding) (q : Nat) (n : Word) (old new : Block)
    (e f : BdEntry) {s : State} (hz : Steady z s) : Steady z (journalBlock kind b q n old new e f s) := by
  unfold journalBlock
  repeat' first
    | with_reducible assumption
    | (extract_lets +onlyGivenNames x; clear_value x)
    | with_reducible apply appendRec_steady

theorem xorBd_steady {z : State} (e : Nat) (x : List Byte) {s : State} (hz : Steady z s) : Steady z (xorBd e x s) := by
  unfold xorBd
  repeat' first
    | with_reducible assumption
    | with_reducible apply modNmu_steady

theorem putRoundUnit_steady {z : State} (x : Region) (b : Binding) (i : Nat) (bs : List Byte) {s : State}
    (hz : Steady z s) : Steady z (putRoundUnit x b i bs s) := by
  unfold putRoundUnit
  repeat' first
    | with_reducible assumption
    | (extract_lets +onlyGivenNames x; refine Steady.cut (x := x) ?_ (fun hx => ?_); (on_goal 1 => subst x); (on_goal 2 => clear_value x))
    | (extract_lets +onlyGivenNames x; clear_value x)
    | with_reducible apply putStripe_steady
    | with_reducible apply modRegion_steady

theorem applyRoundRec_steady {z : State} (back : Bool) (r : JRec) {s : State} (hz : Steady z s) : Steady z
    (applyRoundRec back r s).1 := by
  unfold applyRoundRec
  repeat' first
    | with_reducible assumption
    | (extract_lets +onlyGivenNames x; refine Steady.cut (x := x) ?_ (fun hx => ?_); (on_goal 1 => subst x); (on_goal 2 => clear_value x))
    | (extract_lets +onlyGivenNames x; clear_value x)
    | with_reducible apply putRoundUnit_steady
    | split

theorem applyRec_steady {z : State} (back : Bool) (r : JRec) {s : State} (hz : Steady z s) : Steady z (applyRec back r s).1 := by
  unfold applyRec
  repeat' first
    | with_reducible assumption
    | (extract_lets +onlyGivenNames x; refine Steady.cut (x := x) ?_ (fun hx => ?_); (on_goal 1 => subst x); (on_goal 2 => clear_value x))
    | (extract_lets +onlyGivenNames x; clear_value x)
    | with_reducible apply applyRoundRec_steady
    | with_reducible apply xorBd_steady
    | with_reducible apply putStripe_steady
    | with_reducible apply putBlock_steady
    | split

theorem markUndone_steady {z : State} (rounds : Bool) (j g : Nat) (n : Word) {s : State} (hz : Steady z s) : Steady z
    (markUndone rounds j g n s) := by
  unfold markUndone
  repeat' first
    | with_reducible assumption
    | (extract_lets +onlyGivenNames x; clear_value x)
    | with_reducible apply modNmu_steady

theorem undoStep_steady {z : State} (rounds : Bool) (g : Nat) (n : Word) {s : State} (hz : Steady z s) : Steady z
    (undoStep rounds g n s).1 := by
  unfold undoStep
  repeat' first
    | with_reducible assumption
    | with_reducible intro _
    | (extract_lets +onlyGivenNames x; refine Steady.cut (x := x.1) ?_ (fun hx => ?_); (on_goal 1 => subst x); (on_goal 2 => clear_value x))
    | with_reducible apply Steady.foldl_fst
    | with_reducible apply applyRec_steady
    | with_reducible apply markUndone_steady

theorem undoTo_steady {z : State} (g : Nat) (n : Word) (fuel : Nat) (last : Word) {s : State} (hs : Steady z s) : Steady z
    (undoTo g n fuel last s) := by
  induction fuel generalizing last s with
  | zero => exact hs
  | succ fuel ih =>
    unfold undoTo
    repeat' first
      | with_reducible assumption
      | with_reducible apply Steady.ite
      | with_reducible apply ih
      | with_reducible apply undoStep_steady

theorem answerXpost_steady {z : State} (desc : Nat) (first final : Bool) (status : BitVec 8) (result0 : Word)
    {s : State} (hz : Steady z s) : Steady z (answerXpost desc first final status result0 s) := by
  unfold answerXpost
  repeat' first
    | with_reducible assumption
    | (extract_lets +onlyGivenNames x; refine Steady.cut (x := x) ?_ (fun hx => ?_); (on_goal 1 => subst x); (on_goal 2 => clear_value x))
    | with_reducible apply Steady.ite
    | with_reducible apply modRun_steady
    | with_reducible apply settleCore_steady
    | with_reducible apply modCore_steady
    | split

theorem sendVoid_steady {z : State} (p : Pass) (status : BitVec 8) (detail : BitVec 16) {s : State}
    (hz : Steady z s) : Steady z (sendVoid p status detail s) := by
  unfold sendVoid
  repeat' first
    | with_reducible assumption
    | with_reducible apply Steady.ite
    | with_reducible apply sendAll_steady
    | split

theorem releaseStaging_steady {z : State} (p : Pass) {s : State} (hz : Steady z s) : Steady z (releaseStaging p s) := by
  unfold releaseStaging
  repeat' first
    | with_reducible assumption
    | with_reducible apply Steady.ite
    | with_reducible apply modBinding_steady
    | split

theorem dropPass_steady {z : State} (p : Pass) {s : State} (hz : Steady z s) : Steady z (dropPass p s) := by
  unfold dropPass
  repeat' first
    | with_reducible assumption
    | with_reducible intro _
    | (extract_lets +onlyGivenNames x; refine Steady.cut (x := x) ?_ (fun hx => ?_); (on_goal 1 => subst x); (on_goal 2 => clear_value x))
    | with_reducible apply modMemory_steady
    | with_reducible apply releaseStaging_steady
    | fail_if_no_progress with_reducible apply Steady.record

theorem cardPass_steady {z : State} (p : Pass) (late : Bool) {s : State} (hz : Steady z s) : Steady z (cardPass p late s) := by
  unfold cardPass
  repeat' first
    | with_reducible assumption
    | with_reducible apply orCard_steady
    | with_reducible apply countCard_steady

theorem spoilDst_steady {z : State} (p : Pass) {s : State} (hz : Steady z s) : Steady z (spoilDst p s) := by
  unfold spoilDst
  repeat' first
    | with_reducible assumption
    | with_reducible apply drawFree_steady
    | with_reducible apply vaWrite_steady
    | split

theorem noteLate_steady {z : State} (p : Pass) {s : State} (hz : Steady z s) : Steady z (noteLate p s) := by
  unfold noteLate
  repeat' first
    | with_reducible assumption
    | with_reducible apply raiseEvent_steady

theorem endFused_steady {z : State} (p : Pass) (status : BitVec 8) {s : State} (hz : Steady z s) : Steady z (endFused p status s) := by
  unfold endFused
  repeat' first
    | with_reducible assumption
    | with_reducible apply Steady.ite
    | with_reducible apply modGroup_steady

theorem voidPass_steady {z : State} (p : Pass) (status : BitVec 8) (detail : BitVec 16) (result0 : Word)
    {s : State} (hz : Steady z s) : Steady z (voidPass p status detail result0 s) := by
  unfold voidPass
  repeat' first
    | with_reducible assumption
    | (extract_lets +onlyGivenNames x; refine Steady.cut (x := x) ?_ (fun hx => ?_); (on_goal 1 => subst x); (on_goal 2 => clear_value x))
    | with_reducible apply Steady.ite
    | with_reducible apply spoilDst_steady
    | with_reducible apply endFused_steady
    | with_reducible apply cardPass_steady
    | with_reducible apply dropPass_steady
    | with_reducible apply modGroup_steady
    | with_reducible apply answerXpost_steady
    | with_reducible apply finish_steady
    | split

theorem settleRefused_steady {z : State} (p : Pass) {s : State} (hz : Steady z s) : Steady z (settleRefused p s) := by
  unfold settleRefused
  repeat' first
    | with_reducible assumption
    | (extract_lets +onlyGivenNames x; refine Steady.cut (x := x) ?_ (fun hx => ?_); (on_goal 1 => subst x); (on_goal 2 => clear_value x))
    | (extract_lets +onlyGivenNames x; clear_value x)
    | with_reducible apply sendVoid_steady
    | with_reducible apply modGroup_steady
    | with_reducible apply answerXpost_steady
    | fail_if_no_progress with_reducible apply Steady.record

theorem settlePasses_steady {z : State}  {s : State} (hz : Steady z s) : Steady z (settlePasses s) := by
  unfold settlePasses
  repeat' first
    | with_reducible assumption
    | with_reducible intro _
    | with_reducible apply Steady.foldl
    | with_reducible apply settleRefused_steady

theorem queueSeg_steady {z : State} (p : Pass) (g : Group) (x : PlanSeg) (num l : Nat) (coded : Bool)
    (data : List Byte) {s : State} (hz : Steady z s) : Steady z (queueSeg p g x num l coded data s) := by
  unfold queueSeg
  repeat' first
    | with_reducible assumption
    | with_reducible apply enqueueSeg_steady
    | with_reducible apply modPass_steady

theorem deliverShare_steady {z : State} (p : Pass) (g : Group) (x : PlanSeg) (num : Nat) (data : List Byte)
    {s : State} (hz : Steady z s) : Steady z (deliverShare p g x num data s) := by
  unfold deliverShare
  repeat' first
    | with_reducible assumption
    | (extract_lets +onlyGivenNames x; clear_value x)
    | with_reducible apply modPass_steady
    | with_reducible apply vaStore_steady

theorem beginPlaceOp_steady {z : State} (p : Place) (kind a b c tok : Nat) {s : State} (hz : Steady z s) : Steady z
    (beginPlaceOp p kind a b c tok s) := by
  unfold beginPlaceOp
  repeat' first
    | with_reducible assumption
    | with_reducible apply stepSeq_steady

theorem foldEffect_steady {z : State} (pass num k : Nat) {s : State} (hz : Steady z s) : Steady z (foldEffect pass num k s) := by
  unfold foldEffect
  repeat' first
    | with_reducible assumption
    | with_reducible apply Steady.ite
    | with_reducible apply deliverShare_steady
    | with_reducible apply queueSeg_steady
    | split

theorem discardBytes_steady {z : State} (l n : Nat) {s : State} (hz : Steady z s) : Steady z (discardBytes l n s) := by
  unfold discardBytes
  repeat' first
    | with_reducible assumption
    | (extract_lets +onlyGivenNames x; refine Steady.cut (x := x) ?_ (fun hx => ?_); (on_goal 1 => subst x); (on_goal 2 => clear_value x))
    | (extract_lets +onlyGivenNames x; clear_value x)
    | with_reducible apply Steady.ite
    | with_reducible apply modLink_steady
    | with_reducible apply holdOut_steady

theorem withSegment_steady {z : State} (l : Nat) (x : Segment) (act : Segment → List Byte → State → State)
    {s : State} (Hact : ∀ (a0 : Segment) (a1 : List Byte) (t : State), Steady z t → Steady z (act a0 a1 t)) (hz : Steady z s) : Steady z (withSegment l x act s) := by
  unfold withSegment
  repeat' first
    | with_reducible assumption
    | (extract_lets +onlyGivenNames x; refine Steady.cut (x := x) ?_ (fun hx => ?_); (on_goal 1 => subst x); (on_goal 2 => clear_value x))
    | (extract_lets +onlyGivenNames x; clear_value x)
    | with_reducible apply Steady.ite
    | with_reducible apply modLink_steady
    | with_reducible apply tagFailure_steady
    | with_reducible apply replayFailure_steady
    | with_reducible apply takeNonce_steady
    | with_reducible apply sendItem_steady
    | with_reducible apply formFailure_steady
    | with_reducible apply rejectItem_steady
    | with_reducible apply countCard_steady
    | with_reducible apply Hact

theorem takeData_steady {z : State} (p : Pass) (g : Group) (x : Segment) (data : List Byte) {s : State}
    (hz : Steady z s) : Steady z (takeData p g x data s) := by
  unfold takeData
  repeat' first
    | with_reducible assumption
    | (extract_lets +onlyGivenNames x; refine Steady.cut (x := x) ?_ (fun hx => ?_); (on_goal 1 => subst x); (on_goal 2 => clear_value x))
    | (extract_lets +onlyGivenNames x; clear_value x)
    | with_reducible apply Steady.ite
    | with_reducible apply modPass_steady
    | with_reducible apply vaStore_steady

theorem acceptSeg_steady {z : State} (l : Nat) (p : Pass) (g : Group) (x : Segment) (data : List Byte)
    {s : State} (hz : Steady z s) : Steady z (acceptSeg l p g x data s) := by
  unfold acceptSeg
  repeat' first
    | with_reducible assumption
    | with_reducible apply Steady.ite
    | with_reducible apply voidPass_steady
    | with_reducible apply sendVoid_steady
    | with_reducible apply discardBytes_steady
    | with_reducible apply takeData_steady

theorem forwardSeg_steady {z : State} (l : Nat) (x : Segment) (data : List Byte) {s : State} (hz : Steady z s) : Steady z (forwardSeg l x data s) := by
  unfold forwardSeg
  repeat' first
    | with_reducible assumption
    | (extract_lets +onlyGivenNames x; clear_value x)
    | with_reducible apply Steady.ite
    | with_reducible apply discardBytes_steady
    | with_reducible apply modLink_steady
    | with_reducible apply enqueueSeg_steady
    | split

theorem takeSwap_steady {z : State} (x : Segment) (data : List Byte) {s : State} (hz : Steady z s) : Steady z (takeSwap x data s) := by
  unfold takeSwap
  repeat' first
    | with_reducible assumption
    | with_reducible intro _
    | (extract_lets +onlyGivenNames x; clear_value x)
    | with_reducible apply Steady.ite
    | with_reducible apply Steady.foldl
    | with_reducible apply enqueueSeg_steady
    | with_reducible apply applySwap_steady
    | split

theorem actSegment_steady {z : State} (l : Nat) (x : Segment) (data : List Byte) {s : State} (hz : Steady z s) : Steady z (actSegment l x data s) := by
  unfold actSegment
  repeat' first
    | with_reducible assumption
    | (extract_lets +onlyGivenNames x; refine Steady.cut (x := x) ?_ (fun hx => ?_); (on_goal 1 => subst x); (on_goal 2 => clear_value x))
    | (extract_lets +onlyGivenNames x; clear_value x)
    | with_reducible apply Steady.ite
    | with_reducible apply takeSwap_steady
    | with_reducible apply discardBytes_steady
    | with_reducible apply modGroup_steady
    | with_reducible apply forwardSeg_steady
    | with_reducible apply acceptSeg_steady
    | split

theorem passVoid_steady {z : State} (l : Nat) (it : Item) {s : State} (hz : Steady z s) : Steady z (passVoid l it s) := by
  unfold passVoid
  repeat' first
    | with_reducible assumption
    | with_reducible apply Steady.ite
    | with_reducible apply modGroup_steady
    | with_reducible apply sendBeyond_steady
    | split

theorem gatherDone_steady {z : State} (p : Pass) (g : Group) {s : State} (hz : Steady z s) : Steady z (gatherDone p g s) := by
  unfold gatherDone
  repeat' first
    | with_reducible assumption
    | (extract_lets +onlyGivenNames x; clear_value x)
    | with_reducible apply modGroup_steady

theorem finishExchange_steady {z : State} (p : Pass) {s : State} (hz : Steady z s) : Steady z (finishExchange p s) := by
  unfold finishExchange
  repeat' first
    | with_reducible assumption
    | (extract_lets +onlyGivenNames x; refine Steady.cut (x := x) ?_ (fun hx => ?_); (on_goal 1 => subst x); (on_goal 2 => clear_value x))
    | (extract_lets +onlyGivenNames x; clear_value x)
    | with_reducible apply Steady.ite
    | with_reducible apply noteLate_steady
    | with_reducible apply endFused_steady
    | with_reducible apply cardPass_steady
    | with_reducible apply dropPass_steady
    | with_reducible apply gatherDone_steady
    | with_reducible apply answerXpost_steady
    | with_reducible apply finish_steady
    | split

theorem noteExchange_steady {z : State} (r : DescRec) {s : State} (hz : Steady z s) : Steady z (noteExchange r s) := by
  unfold noteExchange
  repeat' first
    | with_reducible assumption
    | with_reducible apply modGroup_steady
    | split
    | fail_if_no_progress with_reducible apply Steady.record

theorem startExchange_steady {z : State} (r : DescRec) {s : State} (hz : Steady z s) : Steady z (startExchange r s) := by
  unfold startExchange
  repeat' first
    | with_reducible assumption
    | (extract_lets +onlyGivenNames x; clear_value x)
    | with_reducible apply Steady.ite
    | with_reducible apply refuse_steady
    | with_reducible exact forwardDesc_steady _ _ _ _ _ (by assumption) (by assumption)
    | with_reducible apply refuseCap_steady
    | with_reducible apply holdAs_steady
    | with_reducible apply protect_steady
    | split

theorem takeImage_steady {z : State} (r : DescRec) (c : Chan) {s : State} (hz : Steady z s) : Steady z (takeImage r c s) := by
  unfold takeImage
  repeat' first
    | with_reducible assumption
    | (extract_lets +onlyGivenNames x; refine Steady.cut (x := x) ?_ (fun hx => ?_); (on_goal 1 => subst x); (on_goal 2 => clear_value x))
    | with_reducible apply Steady.ite
    | with_reducible apply refuse_steady
    | with_reducible apply answerXpost_steady
    | with_reducible apply noteExchange_steady
    | with_reducible apply startExchange_steady
    | with_reducible apply settlePasses_steady

theorem postFirst_steady {z : State} (c : Fin 192) (w : Word) (u : Run) (lr : DescRec) (ch : Chan)
    (ta tf : Option (Fin 16)) {s : State} (hz : Steady z s) : Steady z (postFirst c w u lr ch ta tf s) := by
  unfold postFirst
  repeat' first
    | with_reducible assumption
    | (extract_lets +onlyGivenNames x; refine Steady.cut (x := x) ?_ (fun hx => ?_); (on_goal 1 => subst x); (on_goal 2 => clear_value x))
    | (extract_lets +onlyGivenNames x; clear_value x)
    | with_reducible apply modRun_steady
    | with_reducible apply takeImage_steady
    | with_reducible apply modChan_steady
    | fail_if_no_progress with_reducible apply Steady.record

theorem postAgain_steady {z : State} (c : Fin 192) (w : Word) (u : Run) (x : XpostRec) (ta tf : Option
    (Fin 16)) {s : State} (hz : Steady z s) : Steady z (postAgain c w u x ta tf s) := by
  unfold postAgain
  repeat' first
    | with_reducible assumption
    | (extract_lets +onlyGivenNames x; refine Steady.cut (x := x) ?_ (fun hx => ?_); (on_goal 1 => subst x); (on_goal 2 => clear_value x))
    | (extract_lets +onlyGivenNames x; clear_value x)
    | with_reducible apply modRun_steady
    | with_reducible apply modCore_steady
    | split

theorem xpostBody_steady {z : State} (c : Fin 192) (w : Word) {s : State} (hz : Steady z s) : Steady z (xpostBody c w s) := by
  unfold xpostBody
  repeat' first
    | with_reducible assumption
    | with_reducible intro _
    | (extract_lets +onlyGivenNames x; refine Steady.cut (x := x) ?_ (fun hx => ?_); (on_goal 1 => subst x); (on_goal 2 => clear_value x))
    | (extract_lets +onlyGivenNames x; clear_value x)
    | with_reducible apply Steady.ite
    | with_reducible apply stopCore_steady
    | with_reducible apply withCoreTok_steady
    | with_reducible apply holdIssue_steady
    | with_reducible apply stopCoreAt_steady
    | with_reducible apply advance_steady
    | with_reducible apply modCore_steady
    | with_reducible apply postAgain_steady
    | with_reducible apply postFirst_steady
    | split

theorem grant_steady {z : State} (r : DescRec) (p : Pass) (g : Group) (promise e : Word) (wire : Nat)
    (coded : Bool) (staging : Nat) {s : State} (hz : Steady z s) : Steady z (grant r p g promise e wire coded staging s) := by
  unfold grant
  repeat' first
    | with_reducible assumption
    | with_reducible intro _
    | (extract_lets +onlyGivenNames x; refine Steady.cut (x := x) ?_ (fun hx => ?_); (on_goal 1 => subst x); (on_goal 2 => clear_value x))
    | (extract_lets +onlyGivenNames x; clear_value x)
    | with_reducible apply Steady.ite
    | with_reducible apply Steady.foldl
    | with_reducible apply modMemory_steady
    | with_reducible apply modPass_steady
    | with_reducible apply modGroup_steady
    | with_reducible apply modBinding_steady
    | with_reducible apply vaStore_steady
    | with_reducible apply holdAs_steady
    | with_reducible apply interim_steady
    | with_reducible apply answerXpost_steady
    | with_reducible apply acceptSeg_steady
    | with_reducible apply voidPass_steady
    | split

theorem admitPass_steady {z : State} (r : DescRec) (p : Pass) (g : Group) {s : State} (hz : Steady z s) : Steady z (admitPass r p g s) := by
  unfold admitPass
  repeat' first
    | with_reducible assumption
    | (extract_lets +onlyGivenNames x; clear_value x)
    | with_reducible apply Steady.ite
    | with_reducible apply refuseCap_steady
    | with_reducible apply finish_steady
    | with_reducible apply grant_steady
    | split
    | fail_if_no_progress with_reducible apply Steady.record

theorem decideExchange_steady {z : State} (r : DescRec) (p : Pass) {s : State} (hz : Steady z s) : Steady z (decideExchange r p s) := by
  unfold decideExchange
  repeat' first
    | with_reducible assumption
    | with_reducible apply Steady.ite
    | with_reducible apply refuse_steady
    | with_reducible apply refuseCap_steady
    | with_reducible apply admitPass_steady
    | split

theorem sendMate_steady {z : State} (second : Bool) (ordinal : Word) (bs : List Byte) {s : State} (hz : Steady z s) : Steady z
    (sendMate second ordinal bs s) := by
  unfold sendMate
  repeat' first
    | with_reducible assumption
    | with_reducible intro _
    | with_reducible apply Steady.foldl
    | with_reducible apply enqueueSeg_steady

theorem sendRecord_steady {z : State} (r : JRec) {s : State} (hz : Steady z s) : Steady z (sendRecord r s) := by
  unfold sendRecord
  repeat' first
    | with_reducible assumption
    | with_reducible apply modMate_steady
    | with_reducible apply sendMate_steady

theorem sendMirror_steady {z : State}  {s : State} (hz : Steady z s) : Steady z (sendMirror s) := by
  unfold sendMirror
  repeat' first
    | with_reducible assumption
    | with_reducible intro _
    | with_reducible apply Steady.ite
    | with_reducible apply Steady.foldl
    | with_reducible apply sendRecord_steady
    | with_reducible apply modMate_steady

theorem sendDigests_steady {z : State} (g : Nat) (n : Word) {s : State} (hz : Steady z s) : Steady z (sendDigests g n s) := by
  unfold sendDigests
  repeat' first
    | with_reducible assumption
    | with_reducible intro _
    | (extract_lets +onlyGivenNames x; clear_value x)
    | with_reducible apply Steady.ite
    | with_reducible apply Steady.foldl
    | with_reducible apply sendItem_steady

theorem bdAccess_steady {z : State} (e : Nat) (dirty : Bool) {s : State} (hz : Steady z s) : Steady z (bdAccess e dirty s) := by
  unfold bdAccess
  repeat' first
    | with_reducible assumption
    | (extract_lets +onlyGivenNames x; refine Steady.cut (x := x) ?_ (fun hx => ?_); (on_goal 1 => subst x); (on_goal 2 => clear_value x))
    | (extract_lets +onlyGivenNames x; clear_value x)
    | with_reducible apply Steady.ite
    | with_reducible apply modNmu_steady
    | with_reducible apply countCard_steady

theorem setBd_steady {z : State} (e : Nat) (x : BdEntry) {s : State} (hz : Steady z s) : Steady z (setBd e x s) := by
  unfold setBd
  repeat' first
    | with_reducible assumption
    | with_reducible apply modNmu_steady

theorem nmuFlags_steady {z : State} (f : BitVec 7) {s : State} (hz : Steady z s) : Steady z (nmuFlags f s) := by
  unfold nmuFlags
  repeat' first
    | with_reducible assumption
    | with_reducible apply orCard_steady
    | with_reducible apply modNmu_steady

theorem changeStripe_steady {z : State} (b : Binding) (i : Nat) (n : Word) (update : Bool) (f : Stripe → Stripe × BitVec 7)
    {s : State} (hz : Steady z s) : Steady z (changeStripe b i n update f s) := by
  unfold changeStripe
  repeat' first
    | with_reducible assumption
    | (extract_lets +onlyGivenNames x; refine Steady.cut (x := x) ?_ (fun hx => ?_); (on_goal 1 => subst x); (on_goal 2 => clear_value x))
    | (extract_lets +onlyGivenNames x; clear_value x)
    | with_reducible apply setBd_steady
    | with_reducible apply putStripe_steady
    | with_reducible apply bdAccess_steady
    | with_reducible apply journalStripe_steady
    | with_reducible apply nmuFlags_steady
    | with_reducible apply modBinding_steady

theorem changeBlock_steady {z : State} (b : Binding) (q : Nat) (n : Word) (new : Block) {s : State}
    (hz : Steady z s) : Steady z (changeBlock b q n new s) := by
  unfold changeBlock
  repeat' first
    | with_reducible assumption
    | (extract_lets +onlyGivenNames x; clear_value x)
    | with_reducible apply journalBlock_steady
    | with_reducible apply putBlock_steady

theorem updateStripe_steady {z : State} (b : Binding) (i : Nat) (n : Word) (g : List NV) {s : State}
    (hz : Steady z s) : Steady z (updateStripe b i n g s) := by
  unfold updateStripe
  repeat' first
    | with_reducible assumption
    | with_reducible apply changeStripe_steady

theorem raiseRoot_steady {z : State} (b : Binding) (q : Nat) (x : Block) (ev : RootEvent) {s : State}
    (hz : Steady z s) : Steady z (raiseRoot b q x ev s) := by
  unfold raiseRoot
  repeat' first
    | with_reducible assumption
    | (extract_lets +onlyGivenNames x; clear_value x)
    | with_reducible apply raiseDev_steady
    | with_reducible apply raiseEvent_steady
    | split

theorem updateBlock_steady {z : State} (b : Binding) (q : Nat) (n : Word) (g : List NV) {s : State}
    (hz : Steady z s) : Steady z (updateBlock b q n g s) := by
  unfold updateBlock
  repeat' first
    | with_reducible assumption
    | with_reducible intro _
    | (extract_lets +onlyGivenNames x; refine Steady.cut (x := x) ?_ (fun hx => ?_); (on_goal 1 => subst x); (on_goal 2 => clear_value x))
    | (extract_lets +onlyGivenNames x; clear_value x)
    | with_reducible apply Steady.foldl
    | with_reducible apply changeStripe_steady
    | with_reducible apply changeBlock_steady
    | with_reducible apply raiseRoot_steady
    | with_reducible apply nmuFlags_steady

theorem updateUnit_steady {z : State} (b : Binding) (u : Nat) (n : Word) (g : List NV) {s : State}
    (hz : Steady z s) : Steady z (updateUnit b u n g s) := by
  unfold updateUnit
  repeat' first
    | with_reducible assumption
    | with_reducible apply Steady.ite
    | with_reducible apply updateBlock_steady
    | with_reducible apply updateStripe_steady

theorem catchUnit_steady {z : State} (b : Binding) (u : Nat) (n : Word) {s : State} (hz : Steady z s) : Steady z (catchUnit b u n s) := by
  unfold catchUnit
  repeat' first
    | with_reducible assumption
    | with_reducible intro _
    | (extract_lets +onlyGivenNames x; refine Steady.cut (x := x) ?_ (fun hx => ?_); (on_goal 1 => subst x); (on_goal 2 => clear_value x))
    | (extract_lets +onlyGivenNames x; clear_value x)
    | with_reducible apply Steady.ite
    | with_reducible apply Steady.foldl
    | with_reducible apply changeStripe_steady
    | with_reducible apply nmuFlags_steady
    | with_reducible apply changeBlock_steady

theorem markUnit_steady {z : State} (p : Pass) (u : Nat) {s : State} (hz : Steady z s) : Steady z (markUnit p u s) := by
  unfold markUnit
  repeat' first
    | with_reducible assumption
    | with_reducible apply modPass_steady

theorem takeUnit_steady {z : State} (p : Pass) (g : Group) (b : Binding) (u : Nat) (n : Word) (codes : List Nat)
    {s : State} (hz : Steady z s) : Steady z (takeUnit p g b u n codes s) := by
  unfold takeUnit
  repeat' first
    | with_reducible assumption
    | (extract_lets +onlyGivenNames x; refine Steady.cut (x := x) ?_ (fun hx => ?_); (on_goal 1 => subst x); (on_goal 2 => clear_value x))
    | (extract_lets +onlyGivenNames x; clear_value x)
    | with_reducible apply Steady.ite
    | with_reducible apply modGroup_steady
    | with_reducible apply nmuFlags_steady
    | with_reducible apply markUnit_steady
    | with_reducible apply modPass_steady
    | with_reducible apply setBd_steady
    | with_reducible apply modBinding_steady
    | with_reducible apply updateUnit_steady

theorem markPasses_steady {z : State} (b : Binding) (u : Nat) {s : State} (hz : Steady z s) : Steady z (markPasses b u s) := by
  unfold markPasses
  repeat' first
    | with_reducible assumption
    | with_reducible intro _
    | with_reducible apply Steady.foldl
    | with_reducible apply markUnit_steady

theorem bindStripes_steady {z : State} (b : Binding) {s : State} (hz : Steady z s) : Steady z (bindStripes b s) := by
  unfold bindStripes
  repeat' first
    | with_reducible assumption
    | with_reducible intro _
    | (extract_lets +onlyGivenNames x; clear_value x)
    | with_reducible apply Steady.foldl
    | with_reducible apply putStripe_steady

theorem bindEntries_steady {z : State} (b : Binding) {s : State} (hz : Steady z s) : Steady z (bindEntries b s) := by
  unfold bindEntries
  repeat' first
    | with_reducible assumption
    | with_reducible intro _
    | (extract_lets +onlyGivenNames x; clear_value x)
    | with_reducible apply Steady.foldl
    | with_reducible apply setBd_steady

theorem bindRule_steady {z : State} (r : DescRec) (b : Binding) {s : State} (hz : Steady z s) : Steady z (bindRule r b s) := by
  unfold bindRule
  repeat' first
    | with_reducible assumption
    | with_reducible intro _
    | (extract_lets +onlyGivenNames x; refine Steady.cut (x := x) ?_ (fun hx => ?_); (on_goal 1 => subst x); (on_goal 2 => clear_value x))
    | with_reducible apply Steady.foldl
    | with_reducible apply modMemory_steady
    | with_reducible apply modNmu_steady
    | with_reducible apply bindEntries_steady
    | with_reducible apply bindStripes_steady
    | with_reducible apply putBlock_steady
    | with_reducible apply done_steady
    | with_reducible apply appendRec_steady

theorem applyBind_steady {z : State} (r : DescRec) {s : State} (hz : Steady z s) : Steady z (applyBind r s) := by
  unfold applyBind
  repeat' first
    | with_reducible assumption
    | (extract_lets +onlyGivenNames x; clear_value x)
    | with_reducible apply Steady.ite
    | with_reducible apply refuse_steady
    | with_reducible apply refuseCap_steady
    | with_reducible apply bindRule_steady
    | split

theorem applyRelease_steady {z : State} (r : DescRec) (b : Binding) {s : State} (hz : Steady z s) : Steady z (applyRelease r b s) := by
  unfold applyRelease
  repeat' first
    | with_reducible assumption
    | (extract_lets +onlyGivenNames x; refine Steady.cut (x := x) ?_ (fun hx => ?_); (on_goal 1 => subst x); (on_goal 2 => clear_value x))
    | with_reducible apply appendRec_steady
    | with_reducible apply done_steady
    | with_reducible apply releaseBindings_steady

theorem startRule_steady {z : State} (r : DescRec) {s : State} (hz : Steady z s) : Steady z (startRule r s) := by
  unfold startRule
  repeat' first
    | with_reducible assumption
    | (extract_lets +onlyGivenNames x; clear_value x)
    | with_reducible apply Steady.ite
    | with_reducible apply refuse_steady
    | with_reducible apply holdAs_steady
    | with_reducible apply applyRelease_steady
    | with_reducible apply applyBind_steady
    | split

theorem queueCard_steady {z : State} (p : Port) (mk : Nat → List Byte) {s : State} (hz : Steady z s) : Steady z (queueCard p mk s) := by
  unfold queueCard
  repeat' first
    | with_reducible assumption
    | with_reducible intro _
    | (extract_lets +onlyGivenNames x; clear_value x)
    | with_reducible apply modPort_steady
    | split

theorem writeCard_steady {z : State} (h : CardHead) (used next : Nat) (ps : List Phase) {s : State}
    (hz : Steady z s) : Steady z (writeCard h used next ps s) := by
  unfold writeCard
  repeat' first
    | with_reducible assumption
    | (extract_lets +onlyGivenNames x; refine Steady.cut (x := x) ?_ (fun hx => ?_); (on_goal 1 => subst x); (on_goal 2 => clear_value x))
    | (extract_lets +onlyGivenNames x; clear_value x)
    | with_reducible apply queueCard_steady
    | with_reducible apply drawFree_steady
    | with_reducible apply modCard_steady

theorem clampGrowth_steady {z : State} (g : Nat) (e : PolicyEntry) {s : State} (hz : Steady z s) : Steady z (clampGrowth g e s) := by
  unfold clampGrowth
  repeat' first
    | with_reducible assumption
    | (extract_lets +onlyGivenNames x; clear_value x)
    | with_reducible apply Steady.ite
    | with_reducible apply logDecision_steady
    | with_reducible apply modGroup_steady
    | split

theorem clampSteps_steady {z : State} (e : PolicyEntry) (x : Region) {s : State} (hz : Steady z s) : Steady z (clampSteps e s x) := by
  unfold clampSteps
  repeat' first
    | with_reducible assumption
    | (extract_lets +onlyGivenNames x; refine Steady.cut (x := x) ?_ (fun hx => ?_); (on_goal 1 => subst x); (on_goal 2 => clear_value x))
    | (extract_lets +onlyGivenNames x; clear_value x)
    | with_reducible apply Steady.ite
    | with_reducible apply logDecision_steady
    | with_reducible apply modRegion_steady
    | split

theorem takeLimits_steady {z : State} (g : Nat) {s : State} (hz : Steady z s) : Steady z (takeLimits g s) := by
  unfold takeLimits
  repeat' first
    | with_reducible assumption
    | with_reducible intro _
    | (extract_lets +onlyGivenNames x; refine Steady.cut (x := x) ?_ (fun hx => ?_); (on_goal 1 => subst x); (on_goal 2 => clear_value x))
    | (extract_lets +onlyGivenNames x; clear_value x)
    | with_reducible apply Steady.foldl
    | with_reducible apply modCard_steady
    | with_reducible apply clampSteps_steady
    | with_reducible apply clampGrowth_steady
    | split

theorem endLatch_steady {z : State} (p : Port) {s : State} (hz : Steady z s) : Steady z (endLatch p s) := by
  unfold endLatch
  repeat' first
    | with_reducible assumption
    | with_reducible intro _
    | with_reducible apply modPort_steady

theorem regAccess_steady {z : State} (p : Port) (f : State → State) {s : State} (Hf : ∀  (t : State), Steady z t → Steady z
    (f t)) (hz : Steady z s) : Steady z (regAccess p f s) := by
  unfold regAccess
  repeat' first
    | with_reducible assumption
    | with_reducible apply Steady.ite
    | with_reducible apply endLatch_steady
    | with_reducible apply Hf

theorem readsAs_steady {z : State} (p : Port) (v : Word) {s : State} (hz : Steady z s) : Steady z (readsAs p v s) := by
  unfold readsAs
  repeat' first
    | with_reducible assumption
    | with_reducible intro _
    | with_reducible apply modPort_steady

theorem readAccess_steady {z : State} (p : Port) (f : State → State) {s : State} (Hf : ∀  (t : State), Steady z t → Steady z
    (f t)) (hz : Steady z s) : Steady z (readAccess p f s) := by
  unfold readAccess
  repeat' first
    | with_reducible assumption
    | with_reducible apply Steady.ite
    | with_reducible apply endLatch_steady
    | with_reducible apply readsAs_steady
    | with_reducible apply Hf

theorem dropLink_steady {z : State} (l : Nat) {s : State} (hz : Steady z s) : Steady z (dropLink l s) := by
  unfold dropLink
  repeat' first
    | with_reducible assumption
    | with_reducible apply Steady.ite
    | with_reducible apply linkDown_steady

theorem forgetLink_steady {z : State} (l : Nat) {s : State} (hz : Steady z s) : Steady z (forgetLink l s) := by
  unfold forgetLink
  repeat' first
    | with_reducible assumption
    | fail_if_no_progress with_reducible apply Steady.record

theorem noteLane_steady {z : State} (l lane : Nat) {s : State} (hz : Steady z s) : Steady z (noteLane l lane s) := by
  unfold noteLane
  repeat' first
    | with_reducible assumption
    | with_reducible intro _
    | with_reducible apply modFlash_steady
    | exact ⟨Nat.le_refl _, Nat.le_refl _⟩

theorem endHoldOut_steady {z : State} (l : Nat) {s : State} (hz : Steady z s) : Steady z (endHoldOut l s) := by
  unfold endHoldOut
  repeat' first
    | with_reducible assumption
    | with_reducible apply Steady.ite
    | with_reducible apply modLink_steady
    | with_reducible apply linkDown_steady

theorem releaseTransit_steady {z : State} (k : Nat) {s : State} (hz : Steady z s) : Steady z (releaseTransit k s) := by
  unfold releaseTransit
  repeat' first
    | with_reducible assumption
    | with_reducible intro _
    | (extract_lets +onlyGivenNames x; refine Steady.cut (x := x) ?_ (fun hx => ?_); (on_goal 1 => subst x); (on_goal 2 => clear_value x))
    | (extract_lets +onlyGivenNames x; clear_value x)
    | with_reducible apply Steady.ite
    | with_reducible apply Steady.foldl
    | with_reducible apply enqueueSeg_steady
    | fail_if_no_progress with_reducible apply Steady.record

theorem flushSeg_steady {z : State} (x : OutSeg) {s : State} (hz : Steady z s) : Steady z (flushSeg x s) := by
  unfold flushSeg
  repeat' first
    | with_reducible assumption
    | with_reducible apply Steady.ite
    | with_reducible apply sendAll_steady
    | with_reducible apply voidPass_steady
    | with_reducible apply sendVoid_steady
    | split

theorem flushLink_steady {z : State} (l : Nat) {s : State} (hz : Steady z s) : Steady z (flushLink l s) := by
  unfold flushLink
  repeat' first
    | with_reducible assumption
    | with_reducible intro _
    | (extract_lets +onlyGivenNames x; refine Steady.cut (x := x) ?_ (fun hx => ?_); (on_goal 1 => subst x); (on_goal 2 => clear_value x))
    | (extract_lets +onlyGivenNames x; clear_value x)
    | with_reducible apply Steady.foldl
    | with_reducible apply sendItem_steady
    | with_reducible apply settleHold_steady
    | with_reducible apply modLink_steady
    | with_reducible apply raiseLink_steady
    | with_reducible apply releaseTransit_steady
    | with_reducible apply flushSeg_steady
    | split

theorem raiseEach_steady {z : State} (n : Nat) (bits : Nat) (raise : Nat → State → State) {s : State}
    (Hraise : ∀ (a0 : Nat) (t : State), Steady z t → Steady z (raise a0 t)) (hz : Steady z s) : Steady z (raiseEach n bits raise s) := by
  unfold raiseEach
  repeat' first
    | with_reducible assumption
    | with_reducible intro _
    | with_reducible apply Steady.foldl
    | with_reducible apply Hraise

theorem judgeAvoid_steady {z : State} (l : Nat) {s : State} (hz : Steady z s) : Steady z (judgeAvoid l s) := by
  unfold judgeAvoid
  repeat' first
    | with_reducible assumption
    | (extract_lets +onlyGivenNames x; clear_value x)
    | with_reducible apply Steady.ite
    | with_reducible apply logDecision_steady
    | with_reducible apply modLink_steady
    | split

theorem raiseMbx_steady {z : State} (p : Port) (i : Nat) {s : State} (hz : Steady z s) : Steady z (raiseMbx p i s) := by
  unfold raiseMbx
  repeat' first
    | with_reducible assumption
    | with_reducible intro _
    | with_reducible apply modPort_steady

theorem startKex_steady {z : State} (l : Nat) (slot : Bool) {s : State} (hz : Steady z s) : Steady z (startKex l slot s) := by
  unfold startKex
  repeat' first
    | with_reducible assumption
    | with_reducible intro _
    | (extract_lets +onlyGivenNames x; refine Steady.cut (x := x) ?_ (fun hx => ?_); (on_goal 1 => subst x); (on_goal 2 => clear_value x))
    | (extract_lets +onlyGivenNames x; clear_value x)
    | with_reducible apply Steady.ite
    | with_reducible apply Steady.foldl
    | with_reducible apply drawFree_steady
    | with_reducible apply sendItem_steady
    | with_reducible apply modLink_steady

theorem askKex_steady {z : State} (l : Nat) {s : State} (hz : Steady z s) : Steady z (askKex l s) := by
  unfold askKex
  repeat' first
    | with_reducible assumption
    | (extract_lets +onlyGivenNames x; clear_value x)
    | with_reducible apply Steady.ite
    | with_reducible apply startKex_steady
    | with_reducible apply sendItem_steady

theorem endKex_steady {z : State} (l : Nat) (authFail : Bool) {s : State} (hz : Steady z s) : Steady z (endKex l authFail s) := by
  unfold endKex
  repeat' first
    | with_reducible assumption
    | (extract_lets +onlyGivenNames x; refine Steady.cut (x := x) ?_ (fun hx => ?_); (on_goal 1 => subst x); (on_goal 2 => clear_value x))
    | (extract_lets +onlyGivenNames x; clear_value x)
    | with_reducible apply Steady.ite
    | with_reducible apply modLink_steady
    | with_reducible apply raiseLink_steady
    | with_reducible apply holdOut_steady
    | split

theorem abortKex_steady {z : State} (l cause : Nat) (authFail : Bool) {s : State} (hz : Steady z s) : Steady z
    (abortKex l cause authFail s) := by
  unfold abortKex
  repeat' first
    | with_reducible assumption
    | with_reducible apply endKex_steady
    | with_reducible apply sendItem_steady
    | split

theorem answerOffer_steady {z : State} (l : Nat) (x : Kex) (offer : List Byte) {s : State} (hz : Steady z s) : Steady z
    (answerOffer l x offer s) := by
  unfold answerOffer
  repeat' first
    | with_reducible assumption
    | with_reducible intro _
    | (extract_lets +onlyGivenNames x; refine Steady.cut (x := x) ?_ (fun hx => ?_); (on_goal 1 => subst x); (on_goal 2 => clear_value x))
    | (extract_lets +onlyGivenNames x; clear_value x)
    | with_reducible apply Steady.ite
    | with_reducible apply Steady.foldl
    | with_reducible apply abortKex_steady
    | with_reducible apply drawFree_steady
    | with_reducible apply modLink_steady
    | with_reducible apply sendItem_steady

theorem takeAccept_steady {z : State} (l : Nat) (x : Kex) (accept : List Byte) {s : State} (hz : Steady z s) : Steady z
    (takeAccept l x accept s) := by
  unfold takeAccept
  repeat' first
    | with_reducible assumption
    | (extract_lets +onlyGivenNames x; refine Steady.cut (x := x) ?_ (fun hx => ?_); (on_goal 1 => subst x); (on_goal 2 => clear_value x))
    | (extract_lets +onlyGivenNames x; clear_value x)
    | with_reducible apply Steady.ite
    | with_reducible apply abortKex_steady
    | with_reducible apply modLink_steady
    | with_reducible apply sendItem_steady

theorem sendRollCall_steady {z : State} (l : Nat) {s : State} (hz : Steady z s) : Steady z (sendRollCall l s) := by
  unfold sendRollCall
  repeat' first
    | with_reducible assumption
    | (extract_lets +onlyGivenNames x; clear_value x)
    | with_reducible apply sendItem_steady
    | with_reducible apply modLink_steady

theorem linkUp_steady {z : State} (l : Nat) {s : State} (hz : Steady z s) : Steady z (linkUp l s) := by
  unfold linkUp
  repeat' first
    | with_reducible assumption
    | with_reducible intro _
    | (extract_lets +onlyGivenNames x; refine Steady.cut (x := x) ?_ (fun hx => ?_); (on_goal 1 => subst x); (on_goal 2 => clear_value x))
    | (extract_lets +onlyGivenNames x; clear_value x)
    | with_reducible apply Steady.ite
    | with_reducible apply holdOut_steady
    | with_reducible apply modMemory_steady
    | with_reducible apply settleHold_steady
    | with_reducible apply modLink_steady

theorem rollMismatch_steady {z : State} (l outcome : Nat) (want : Word × Nat) (found : Word × Nat)
    {s : State} (hz : Steady z s) : Steady z (rollMismatch l outcome want found s) := by
  unfold rollMismatch
  repeat' first
    | with_reducible assumption
    | with_reducible apply raiseDev_steady
    | with_reducible apply raiseEvent_steady

theorem judgeLink_steady {z : State} (l : Nat) {s : State} (hz : Steady z s) : Steady z (judgeLink l s) := by
  unfold judgeLink
  repeat' first
    | with_reducible assumption
    | (extract_lets +onlyGivenNames x; refine Steady.cut (x := x) ?_ (fun hx => ?_); (on_goal 1 => subst x); (on_goal 2 => clear_value x))
    | (extract_lets +onlyGivenNames x; clear_value x)
    | with_reducible apply Steady.ite
    | with_reducible apply modLink_steady
    | with_reducible apply linkUp_steady
    | with_reducible apply rollMismatch_steady
    | with_reducible apply holdOut_steady
    | with_reducible apply raiseLink_steady
    | split

theorem judgeAbsent_steady {z : State} (l : Nat) {s : State} (hz : Steady z s) : Steady z (judgeAbsent l s) := by
  unfold judgeAbsent
  repeat' first
    | with_reducible assumption
    | (extract_lets +onlyGivenNames x; refine Steady.cut (x := x) ?_ (fun hx => ?_); (on_goal 1 => subst x); (on_goal 2 => clear_value x))
    | with_reducible apply modLink_steady
    | with_reducible apply rollMismatch_steady
    | split

theorem judgeAll_steady {z : State}  {s : State} (hz : Steady z s) : Steady z (judgeAll s) := by
  unfold judgeAll
  repeat' first
    | with_reducible assumption
    | with_reducible intro _
    | with_reducible apply Steady.ite
    | with_reducible apply Steady.foldl
    | with_reducible apply judgeAbsent_steady
    | with_reducible apply judgeLink_steady

theorem applyTopology_steady {z : State}  {s : State} (hz : Steady z s) : Steady z (applyTopology s) := by
  unfold applyTopology
  repeat' first
    | with_reducible assumption
    | with_reducible intro _
    | with_reducible apply Steady.ite
    | with_reducible apply judgeAll_steady
    | with_reducible apply modMod_steady
    | with_reducible apply modFlash_steady
    | exact ⟨Nat.le_refl _, Nat.le_refl _⟩
    | split

theorem leaveTaken_steady {z : State} (w : Word) {s : State} (hz : Steady z s) : Steady z (leaveTaken w s) := by
  unfold leaveTaken
  repeat' first
    | with_reducible assumption
    | with_reducible intro _
    | (extract_lets +onlyGivenNames x; refine Steady.cut (x := x) ?_ (fun hx => ?_); (on_goal 1 => subst x); (on_goal 2 => clear_value x))
    | (extract_lets +onlyGivenNames x; clear_value x)
    | with_reducible apply Steady.foldl
    | with_reducible apply raiseEvent_steady
    | with_reducible apply raiseDev_steady
    | with_reducible apply releaseBindings_steady
    | with_reducible apply dropRegions_steady
    | fail_if_no_progress with_reducible apply Steady.record

theorem returned_steady {z : State} (w : Word) {s : State} (hz : Steady z s) : Steady z (returned w s) := by
  unfold returned
  repeat' first
    | with_reducible assumption
    | (extract_lets +onlyGivenNames x; refine Steady.cut (x := x) ?_ (fun hx => ?_); (on_goal 1 => subst x); (on_goal 2 => clear_value x))
    | with_reducible apply modMod_steady
    | fail_if_no_progress with_reducible apply Steady.record

theorem installKeys_steady {z : State} (l : Nat) (x : Kex) {s : State} (hz : Steady z s) : Steady z (installKeys l x s) := by
  unfold installKeys
  repeat' first
    | with_reducible assumption
    | (extract_lets +onlyGivenNames x; clear_value x)
    | with_reducible apply modLink_steady

theorem fillSlot_steady {z : State} (l : Nat) (slot rx : Bool) (key : List Byte) (const : W32) {s : State}
    (hz : Steady z s) : Steady z (fillSlot l slot rx key const s) := by
  unfold fillSlot
  repeat' first
    | with_reducible assumption
    | (extract_lets +onlyGivenNames x; refine Steady.cut (x := x) ?_ (fun hx => ?_); (on_goal 1 => subst x); (on_goal 2 => clear_value x))
    | (extract_lets +onlyGivenNames x; clear_value x)
    | with_reducible apply Steady.ite
    | with_reducible apply modLink_steady
    | with_reducible apply abortKex_steady
    | with_reducible apply sendItem_steady
    | split

theorem startKeyInstall_steady {z : State} (r : DescRec) {s : State} (hz : Steady z s) : Steady z (startKeyInstall r s) := by
  unfold startKeyInstall
  repeat' first
    | with_reducible assumption
    | with_reducible intro _
    | (extract_lets +onlyGivenNames x; refine Steady.cut (x := x) ?_ (fun hx => ?_); (on_goal 1 => subst x); (on_goal 2 => clear_value x))
    | (extract_lets +onlyGivenNames x; clear_value x)
    | with_reducible apply Steady.ite
    | with_reducible apply refuse_steady
    | with_reducible apply finish_steady
    | with_reducible apply raiseMbx_steady
    | with_reducible apply modFlash_steady
    | with_reducible apply modLink_steady
    | with_reducible apply done_steady
    | with_reducible apply askKex_steady
    | with_reducible apply fillSlot_steady
    | exact ⟨Nat.le_refl _, Nat.le_succ _⟩
    | split

theorem makeSwap_steady {z : State} (g : Group) (slot layer e f : Nat) {s : State} (hz : Steady z s) : Steady z
    (makeSwap g slot layer e f s) := by
  unfold makeSwap
  repeat' first
    | with_reducible assumption
    | with_reducible intro _
    | with_reducible apply Steady.foldl
    | with_reducible apply enqueueSeg_steady
    | with_reducible apply applySwap_steady
    | split

theorem swapLayer_steady {z : State} (g : Group) (slot layer : Nat) {p : Nat × State} (hs : Steady z p.2) : Steady z
    (swapLayer g slot layer p).2 := by
  unfold swapLayer
  extract_lets s lim experts
  have key : ∀ (xs : List Nat) (q : Nat × State), Steady z q.2 → Steady z (xs.foldl (fun (p : Nat × State) e =>
    let x := namedRows slot layer e s
    if p.1 == 0 || !decide (lim.dropLimit * x.1 < 256 * x.2) then p
    else match swapPartner slot layer experts e p.2 with
      | none => p
      | some f =>
        let allow := policyAllows 3 g.id p.2
        let t := logDecision 3 allow g.id layer (expertRank slot layer e p.2) (expertRank slot layer f p.2) 0 (256 * x.2 / x.1) p.2
        (p.1 - 1, if allow then makeSwap g slot layer e f t else t)) q).2 := by
    intro xs
    induction xs with
    | nil => intro q hq; exact hq
    | cons e xs ih =>
      intro q hq
      rw [List.foldl_cons]
      apply ih
      dsimp only
      split
      · exact hq
      · split
        · exact hq
        · split
          · exact makeSwap_steady _ _ _ _ _ (logDecision_steady _ _ _ _ _ _ _ _ hq)
          · exact logDecision_steady _ _ _ _ _ _ _ _ hq
  exact key _ _ hs

theorem expertSwaps_steady {z : State} (g : Group) (commit : Bool) {s : State} (hz : Steady z s) : Steady z
    (expertSwaps g commit s) := by
  unfold expertSwaps
  repeat' first
    | with_reducible assumption
    | with_reducible intro _
    | (extract_lets +onlyGivenNames x; refine Steady.cut (x := x) ?_ (fun hx => ?_); (on_goal 1 => subst x); (on_goal 2 => clear_value x))
    | (extract_lets +onlyGivenNames x; clear_value x)
    | with_reducible apply Steady.ite
    | with_reducible apply Steady.foldl_snd
    | with_reducible apply swapLayer_steady
    | with_reducible apply modCard_steady

theorem startGroup_steady {z : State} (r : DescRec) {s : State} (hz : Steady z s) : Steady z (startGroup r s) := by
  unfold startGroup
  repeat' first
    | with_reducible assumption
    | (extract_lets +onlyGivenNames x; clear_value x)
    | with_reducible apply Steady.ite
    | with_reducible apply refuse_steady
    | with_reducible apply done_steady
    | fail_if_no_progress with_reducible apply Steady.record

theorem writeStatus_steady {z : State} (g : Group) (n : Word) {s : State} (hz : Steady z s) : Steady z (writeStatus g n s) := by
  unfold writeStatus
  repeat' first
    | with_reducible assumption
    | with_reducible intro _
    | (extract_lets +onlyGivenNames x; clear_value x)
    | with_reducible apply Steady.ite
    | with_reducible apply Steady.foldl
    | with_reducible apply modChan_steady
    | with_reducible apply vaForce_steady

theorem openStep_steady {z : State} (r : DescRec) (g : Group) (c : ScaleCtl) (hs : List (Binding × List Word))
    {s : State} (hz : Steady z s) : Steady z (openStep r g c hs s) := by
  unfold openStep
  repeat' first
    | with_reducible assumption
    | with_reducible intro _
    | (extract_lets +onlyGivenNames x; refine Steady.cut (x := x) ?_ (fun hx => ?_); (on_goal 1 => subst x); (on_goal 2 => clear_value x))
    | (extract_lets +onlyGivenNames x; clear_value x)
    | with_reducible apply Steady.ite
    | with_reducible apply Steady.foldl
    | with_reducible apply modBinding_steady
    | with_reducible apply modGroup_steady
    | with_reducible apply raiseEvent_steady
    | with_reducible apply done_steady
    | with_reducible apply writeStatus_steady

theorem startOpen_steady {z : State} (r : DescRec) {s : State} (hz : Steady z s) : Steady z (startOpen r s) := by
  unfold startOpen
  repeat' first
    | with_reducible assumption
    | (extract_lets +onlyGivenNames x; clear_value x)
    | with_reducible apply Steady.ite
    | with_reducible apply refuse_steady
    | with_reducible apply refuseCap_steady
    | with_reducible apply holdAs_steady
    | with_reducible apply openStep_steady
    | with_reducible apply addStall_steady
    | split

theorem startCommit_steady {z : State} (r : DescRec) {s : State} (hz : Steady z s) : Steady z (startCommit r s) := by
  unfold startCommit
  repeat' first
    | with_reducible assumption
    | with_reducible apply Steady.ite
    | with_reducible apply refuse_steady
    | with_reducible apply holdAs_steady
    | with_reducible apply modGroup_steady
    | split

theorem touchAll_steady {z : State} (n : Word) (b : Binding) {s : State} (hz : Steady z s) : Steady z (touchAll n b s) := by
  unfold touchAll
  repeat' first
    | with_reducible assumption
    | with_reducible intro _
    | with_reducible apply Steady.ite
    | with_reducible apply Steady.foldl
    | with_reducible apply updateUnit_steady

theorem ageUnits_steady {z : State} (n : Word) (b : Binding) {s : State} (hz : Steady z s) : Steady z (ageUnits n b s) := by
  unfold ageUnits
  repeat' first
    | with_reducible assumption
    | with_reducible intro _
    | (extract_lets +onlyGivenNames x; clear_value x)
    | with_reducible apply Steady.ite
    | with_reducible apply Steady.foldl
    | with_reducible apply catchUnit_steady

theorem lastWork_steady {z : State} (g : Nat) (n : Word) {s : State} (hz : Steady z s) : Steady z (lastWork g n s) := by
  unfold lastWork
  repeat' first
    | with_reducible assumption
    | with_reducible intro _
    | with_reducible apply Steady.foldl
    | with_reducible apply ageUnits_steady
    | with_reducible apply touchAll_steady

theorem scaleEvents_steady {z : State} (g : Group) (d : Decision) {s : State} (hz : Steady z s) : Steady z (scaleEvents g d s) := by
  unfold scaleEvents
  repeat' first
    | with_reducible assumption
    | (extract_lets +onlyGivenNames x; refine Steady.cut (x := x) ?_ (fun hx => ?_); (on_goal 1 => subst x); (on_goal 2 => clear_value x))
    | (extract_lets +onlyGivenNames x; clear_value x)
    | with_reducible apply Steady.ite
    | with_reducible apply raiseEvent_steady
    | with_reducible apply raiseDev_steady

theorem publishStripe_steady {z : State} (b : Binding) (i : Nat) (n : Word) {s : State} (hz : Steady z s) : Steady z (publishStripe b i n s) := by
  unfold publishStripe
  repeat' first
    | with_reducible assumption
    | (extract_lets +onlyGivenNames x; clear_value x)
    | with_reducible apply vaForce_steady
    | with_reducible apply unpoison_steady
    | split

theorem publish_steady {z : State} (g : Nat) (n : Word) {s : State} (hz : Steady z s) : Steady z (publish g n s) := by
  unfold publish
  repeat' first
    | with_reducible assumption
    | with_reducible intro _
    | with_reducible apply Steady.foldl
    | with_reducible apply modBinding_steady
    | with_reducible apply publishStripe_steady

theorem watchSets_steady {z : State} (g : Nat) (commit : Bool) {s : State} (hz : Steady z s) : Steady z (watchSets g commit s) := by
  unfold watchSets
  repeat' first
    | with_reducible assumption
    | with_reducible intro _
    | (extract_lets +onlyGivenNames x; refine Steady.cut (x := x) ?_ (fun hx => ?_); (on_goal 1 => subst x); (on_goal 2 => clear_value x))
    | (extract_lets +onlyGivenNames x; clear_value x)
    | with_reducible apply Steady.ite
    | with_reducible apply Steady.foldl
    | with_reducible apply raiseDev_steady
    | with_reducible apply raiseEvent_steady
    | with_reducible apply modGroup_steady
    | split
    | fail_if_no_progress with_reducible apply Steady.record

theorem policyScale_steady {z : State} (g : Group) (n : Word) (d : Decision) {s : State} (hz : Steady z s) : Steady z (policyScale g n d s) := by
  unfold policyScale
  repeat' first
    | with_reducible assumption
    | (extract_lets +onlyGivenNames x; refine Steady.cut (x := x) ?_ (fun hx => ?_); (on_goal 1 => subst x); (on_goal 2 => clear_value x))
    | (extract_lets +onlyGivenNames x; clear_value x)
    | with_reducible apply Steady.ite
    | with_reducible apply modGroup_steady
    | with_reducible apply logDecision_steady

theorem dissolvePair_steady {z : State}  {s : State} (hz : Steady z s) : Steady z (dissolvePair s) := by
  unfold dissolvePair
  repeat' first
    | with_reducible assumption
    | with_reducible intro _
    | (extract_lets +onlyGivenNames x; refine Steady.cut (x := x) ?_ (fun hx => ?_); (on_goal 1 => subst x); (on_goal 2 => clear_value x))
    | (extract_lets +onlyGivenNames x; clear_value x)
    | with_reducible apply modMemory_steady
    | with_reducible apply done_steady
    | split
    | fail_if_no_progress with_reducible apply Steady.record

theorem settlePair_steady {z : State}  {s : State} (hz : Steady z s) : Steady z (settlePair s) := by
  unfold settlePair
  repeat' first
    | with_reducible assumption
    | with_reducible apply Steady.ite
    | with_reducible apply dissolvePair_steady

theorem closeStep_steady {z : State} (g : Group) (n : Word) (d : Decision) (t : Word) {s : State} (hz : Steady z s) : Steady z (closeStep g n d t s) := by
  unfold closeStep
  repeat' first
    | with_reducible assumption
    | (extract_lets +onlyGivenNames x; refine Steady.cut (x := x) ?_ (fun hx => ?_); (on_goal 1 => subst x); (on_goal 2 => clear_value x))
    | (extract_lets +onlyGivenNames x; clear_value x)
    | with_reducible apply Steady.ite
    | with_reducible apply watchSets_steady
    | with_reducible apply setShare_steady
    | with_reducible apply modGroup_steady
    | with_reducible apply expertSwaps_steady
    | with_reducible apply policyScale_steady
    | with_reducible apply finish_steady
    | with_reducible apply applyTopology_steady
    | with_reducible apply settlePair_steady
    | with_reducible apply takeLimits_steady
    | with_reducible apply writeCard_steady
    | split
    | fail_if_no_progress with_reducible apply Steady.record

theorem writeRecord_steady {z : State} (g : Group) (n : Word) (d : Decision) (t : Word) (byMate : Bool)
    {s : State} (hz : Steady z s) : Steady z (writeRecord g n d t byMate s) := by
  unfold writeRecord
  repeat' first
    | with_reducible assumption
    | (extract_lets +onlyGivenNames x; clear_value x)
    | with_reducible apply appendRec_steady

theorem stateLost_steady {z : State} (g : Nat) {s : State} (hz : Steady z s) : Steady z (stateLost g s) := by
  unfold stateLost
  repeat' first
    | with_reducible assumption
    | with_reducible intro _
    | with_reducible apply Steady.foldl
    | with_reducible apply raiseDev_steady
    | with_reducible apply raiseEvent_steady

theorem undoOpen_steady {z : State} (g : Group) (n : Word) {s : State} (hz : Steady z s) : Steady z (undoOpen g n s) := by
  unfold undoOpen
  repeat' first
    | with_reducible assumption
    | (extract_lets +onlyGivenNames x; refine Steady.cut (x := x) ?_ (fun hx => ?_); (on_goal 1 => subst x); (on_goal 2 => clear_value x))
    | (extract_lets +onlyGivenNames x; refine Steady.cut (x := x.1) ?_ (fun hx => ?_); (on_goal 1 => subst x); (on_goal 2 => clear_value x))
    | (extract_lets +onlyGivenNames x; clear_value x)
    | with_reducible apply Steady.ite
    | with_reducible apply undoStep_steady
    | with_reducible apply stateLost_steady
    | fail_if_no_progress with_reducible apply Steady.record

theorem passDown_steady {z : State} (g : Group) (n : Word) (d : Decision) (t : Word) {s : State} (hz : Steady z s) : Steady z (passDown g n d t s) := by
  unfold passDown
  repeat' first
    | with_reducible assumption
    | with_reducible intro _
    | with_reducible apply Steady.ite
    | with_reducible apply Steady.foldl
    | with_reducible apply sendTo_steady

theorem actDecision_steady {z : State} (g : Group) (n : Word) (d : Decision) (t : Word) {s : State}
    (hz : Steady z s) : Steady z (actDecision g n d t s) := by
  unfold actDecision
  repeat' first
    | with_reducible assumption
    | (extract_lets +onlyGivenNames x; refine Steady.cut (x := x) ?_ (fun hx => ?_); (on_goal 1 => subst x); (on_goal 2 => clear_value x))
    | with_reducible apply Steady.ite
    | with_reducible apply undoOpen_steady
    | with_reducible apply writeRecord_steady
    | with_reducible apply sendDigests_steady
    | with_reducible apply publish_steady
    | with_reducible apply closeStep_steady
    | with_reducible apply passDown_steady

theorem releaseDecision_steady {z : State} (id : Nat) {s : State} (hz : Steady z s) : Steady z (releaseDecision id s) := by
  unfold releaseDecision
  repeat' first
    | with_reducible assumption
    | (extract_lets +onlyGivenNames x; refine Steady.cut (x := x) ?_ (fun hx => ?_); (on_goal 1 => subst x); (on_goal 2 => clear_value x))
    | (extract_lets +onlyGivenNames x; clear_value x)
    | with_reducible apply Steady.ite
    | with_reducible apply sendDigests_steady
    | with_reducible apply publish_steady
    | with_reducible apply closeStep_steady
    | with_reducible apply passDown_steady
    | split

theorem decideStep_steady {z : State} (g : Group) (n : Word) (x : Report) {s : State} (hz : Steady z s) : Steady z (decideStep g n x s) := by
  unfold decideStep
  repeat' first
    | with_reducible assumption
    | (extract_lets +onlyGivenNames x; refine Steady.cut (x := x) ?_ (fun hx => ?_); (on_goal 1 => subst x); (on_goal 2 => clear_value x))
    | (extract_lets +onlyGivenNames x; clear_value x)
    | with_reducible apply Steady.ite
    | with_reducible apply scaleEvents_steady
    | with_reducible apply undoOpen_steady
    | with_reducible apply writeRecord_steady
    | with_reducible apply modGroup_steady
    | with_reducible apply releaseDecision_steady

theorem pushReports_steady {z : State} (id : Nat) (fuel : Nat)  {s : State} (hs : Steady z s) : Steady z
    (pushReports id fuel  s) := by
  induction fuel generalizing  s with
  | zero => exact hs
  | succ fuel ih =>
    unfold pushReports
    repeat' first
      | with_reducible assumption
      | (extract_lets +onlyGivenNames x; refine Steady.cut (x := x) ?_ (fun hx => ?_); (on_goal 1 => subst x); (on_goal 2 => clear_value x))
      | (extract_lets +onlyGivenNames x; clear_value x)
      | with_reducible apply Steady.ite
      | with_reducible apply ih
      | with_reducible apply modGroup_steady
      | with_reducible apply decideStep_steady
      | with_reducible apply sendTo_steady
      | split

theorem loseStep_steady {z : State} (g : Group) (n : Word) {s : State} (hz : Steady z s) : Steady z (loseStep g n s) := by
  unfold loseStep
  repeat' first
    | with_reducible assumption
    | with_reducible intro _
    | (extract_lets +onlyGivenNames x; refine Steady.cut (x := x) ?_ (fun hx => ?_); (on_goal 1 => subst x); (on_goal 2 => clear_value x))
    | (extract_lets +onlyGivenNames x; clear_value x)
    | with_reducible apply Steady.foldl
    | with_reducible apply voidPass_steady
    | with_reducible apply modGroup_steady
    | with_reducible apply actDecision_steady

theorem rebuilt_steady {z : State} (g : Group) (n : Word) {s : State} (hz : Steady z s) : Steady z (rebuilt g n s) := by
  unfold rebuilt
  repeat' first
    | with_reducible assumption
    | with_reducible apply undoTo_steady

theorem swapPage_steady {z : State} (slot page frame : Nat) (bs : List Byte) {s : State} (hz : Steady z s) : Steady z
    (swapPage slot page frame bs s) := by
  unfold swapPage
  repeat' first
    | with_reducible assumption
    | with_reducible intro _
    | with_reducible apply modChan_steady
    | with_reducible apply modMemory_steady
    | exact memWrite_wf _ _ _ (memClear_wf _ _ _ (by assumption))

theorem showVersion_steady {z : State} (slot : Nat) (g : Group) (n : Word) {s : State} {x : State × List
    (Nat × Page) × List Nat} (hs : Steady z s) (hx : showVersion slot g n s = some x) : Steady z x.1 := by
  unfold showVersion at hx
  extract_lets a b c d e at hx
  split at hx
  · cases hx
  · cases hx
    exact Steady.foldl _ _ (fun _ _ h => swapPage_steady _ _ _ _ h) hs

theorem openExam_steady {z : State} (r : DescRec) (g : Group) {s : State} (hz : Steady z s) : Steady z (openExam r g s) := by
  unfold openExam
  extract_lets n slot id add
  have hadd : ∀ t ps fs, Steady z t → Steady z (add t ps fs) := fun t ps fs h => done_steady _ _ (modNmu_steady h)
  refine Steady.ite (hadd _ _ _ hz) (Steady.ite (refuseCap_steady _ _ hz) ?_)
  split
  · exact hadd _ _ _ (showVersion_steady _ _ _ hz (by assumption))
  · exact refuseCap_steady _ _ hz

theorem startExam_steady {z : State} (r : DescRec) {s : State} (hz : Steady z s) : Steady z (startExam r s) := by
  unfold startExam
  repeat' first
    | with_reducible assumption
    | with_reducible apply Steady.ite
    | with_reducible apply refuse_steady
    | with_reducible apply holdAs_steady
    | with_reducible apply openExam_steady
    | with_reducible apply addStall_steady
    | split

theorem startExamClose_steady {z : State} (r : DescRec) {s : State} (hz : Steady z s) : Steady z (startExamClose r s) := by
  unfold startExamClose
  repeat' first
    | with_reducible assumption
    | (extract_lets +onlyGivenNames x; refine Steady.cut (x := x) ?_ (fun hx => ?_); (on_goal 1 => subst x); (on_goal 2 => clear_value x))
    | (extract_lets +onlyGivenNames x; clear_value x)
    | with_reducible apply refuse_steady
    | with_reducible apply modChan_steady
    | with_reducible apply freeFrames_steady
    | with_reducible apply modNmu_steady
    | with_reducible apply writeCard_steady
    | with_reducible apply done_steady
    | split

end Sys2Proof.Machine
end

