-- ==== Sys2Proof/Laws/SteadyRounds.lean ====
section
/-!
SUPPORT. Laws/SteadyRounds.lean: the operations of the block keep the relation Steady (Safety.lean), the rest: exports, rounds, deskmates, stacks, moves, starts, frames, time, mailbox and registers. One lemma per operation; the
commands themselves are not here.
-/

namespace Sys2Proof.Machine

theorem ringPut_steady {z : State} (slot dst size : Nat) (bs : List Byte) (at' : Nat) {s : State} (hz : Steady z s) : Steady z
    (ringPut slot dst size bs at' s) := by
  unfold ringPut
  repeat' first
    | with_reducible assumption
    | (extract_lets +onlyGivenNames x; refine Steady.cut (x := x) ?_ (fun hx => ?_); (on_goal 1 => subst x); (on_goal 2 => clear_value x))
    | (extract_lets +onlyGivenNames x; clear_value x)
    | with_reducible apply Steady.ite
    | with_reducible apply vaStore_steady

theorem exportControl_steady {z : State} (e : ExportSt) (last : Option Word) {s : State} (hz : Steady z s) : Steady z
    (exportControl e last s) := by
  unfold exportControl
  repeat' first
    | with_reducible assumption
    | (extract_lets +onlyGivenNames x; refine Steady.cut (x := x) ?_ (fun hx => ?_); (on_goal 1 => subst x); (on_goal 2 => clear_value x))
    | with_reducible apply vaStore_steady
    | split

theorem startExport_steady {z : State} (r : DescRec) {s : State} (hz : Steady z s) : Steady z (startExport r s) := by
  unfold startExport
  repeat' first
    | with_reducible assumption
    | (extract_lets +onlyGivenNames x; refine Steady.cut (x := x) ?_ (fun hx => ?_); (on_goal 1 => subst x); (on_goal 2 => clear_value x))
    | (extract_lets +onlyGivenNames x; clear_value x)
    | with_reducible apply Steady.ite
    | with_reducible apply refuse_steady
    | with_reducible apply refuseCap_steady
    | with_reducible apply exportControl_steady
    | with_reducible apply done_steady
    | with_reducible apply holdAs_steady
    | with_reducible apply modNmu_steady
    | split

theorem appendUnit_steady {z : State} (r : DescRec) (e : ExportSt) {s : State} (hz : Steady z s) : Steady z (appendUnit r e s) := by
  unfold appendUnit
  repeat' first
    | with_reducible assumption
    | (extract_lets +onlyGivenNames x; refine Steady.cut (x := x) ?_ (fun hx => ?_); (on_goal 1 => subst x); (on_goal 2 => clear_value x))
    | (extract_lets +onlyGivenNames x; clear_value x)
    | with_reducible apply Steady.ite
    | with_reducible apply exportControl_steady
    | with_reducible apply ringPut_steady
    | with_reducible apply modNmu_steady
    | with_reducible apply done_steady

theorem rebuiltAll_steady {z : State} (gs : List Group) (n : Word) {s : State} (hz : Steady z s) : Steady z (rebuiltAll gs n s) := by
  unfold rebuiltAll
  repeat' first
    | with_reducible assumption
    | with_reducible intro _
    | with_reducible apply Steady.foldl
    | with_reducible apply rebuilt_steady

theorem startSnapshot_steady {z : State} (r : DescRec) {s : State} (hz : Steady z s) : Steady z (startSnapshot r s) := by
  unfold startSnapshot
  repeat' first
    | with_reducible assumption
    | (extract_lets +onlyGivenNames x; clear_value x)
    | with_reducible apply Steady.ite
    | with_reducible apply refuse_steady
    | with_reducible apply refuseCap_steady
    | with_reducible apply done_steady
    | with_reducible apply vaStore_steady
    | split

theorem showRounds_steady {z : State}  {s : State} (hz : Steady z s) : Steady z (showRounds s) := by
  unfold showRounds
  repeat' first
    | with_reducible assumption
    | with_reducible intro _
    | with_reducible apply Steady.foldl
    | with_reducible apply vaForce_steady

theorem changeUnit_steady {z : State} (num : Nat) (f : Nat → W40 → RoundParam → W40 × RoundParam) (stream i : Nat)
    {s : State} (hz : Steady z s) : Steady z (changeUnit num f stream i s) := by
  unfold changeUnit
  repeat' first
    | with_reducible assumption
    | (extract_lets +onlyGivenNames x; refine Steady.cut (x := x) ?_ (fun hx => ?_); (on_goal 1 => subst x); (on_goal 2 => clear_value x))
    | (extract_lets +onlyGivenNames x; clear_value x)
    | with_reducible apply Steady.ite
    | with_reducible apply modRegion_steady
    | with_reducible apply putStripe_steady
    | with_reducible apply appendRec_steady
    | with_reducible apply publishStripe_steady
    | split

theorem changeRegion_steady {z : State} (x : Region) (f : Nat → W40 → RoundParam → W40 × RoundParam)
    (stream : Nat) {s : State} (hz : Steady z s) : Steady z (changeRegion x f stream s) := by
  unfold changeRegion
  repeat' first
    | with_reducible assumption
    | with_reducible intro _
    | with_reducible apply Steady.foldl
    | with_reducible apply changeUnit_steady

theorem formRound_steady {z : State} (x : Region) (r : Nat) (h : List Word) {s : State} (hz : Steady z s) : Steady z (formRound x r h s) := by
  unfold formRound
  repeat' first
    | with_reducible assumption
    | (extract_lets +onlyGivenNames x; refine Steady.cut (x := x) ?_ (fun hx => ?_); (on_goal 1 => subst x); (on_goal 2 => clear_value x))
    | (extract_lets +onlyGivenNames x; refine Steady.cutFn (x := x) ?_ (fun hx => ?_); (on_goal 1 => (subst x; intros; beta_reduce)); (on_goal 2 => clear_value x))
    | (extract_lets +onlyGivenNames x; clear_value x)
    | with_reducible apply modRegion_steady
    | with_reducible apply_assumption
    | split

theorem mergeRound_steady {z : State} (x : Region) (k : Nat) {s : State} (hz : Steady z s) : Steady z (mergeRound x k s) := by
  unfold mergeRound
  repeat' first
    | with_reducible assumption
    | with_reducible apply modRegion_steady
    | with_reducible apply changeRegion_steady

theorem mergeAll_steady {z : State} (num : Nat) (fuel : Nat)  {s : State} (hs : Steady z s) : Steady z (mergeAll num fuel  s) := by
  induction fuel generalizing  s with
  | zero => exact hs
  | succ fuel ih =>
    unfold mergeAll
    repeat' first
      | with_reducible assumption
      | with_reducible apply Steady.ite
      | with_reducible apply ih
      | with_reducible apply mergeRound_steady
      | split

theorem judgeSteps_steady {z : State} (k : Nat) (x : Region) {s : State} (hz : Steady z s) : Steady z (judgeSteps k x s) := by
  unfold judgeSteps
  repeat' first
    | with_reducible assumption
    | (extract_lets +onlyGivenNames x; refine Steady.cut (x := x) ?_ (fun hx => ?_); (on_goal 1 => subst x); (on_goal 2 => clear_value x))
    | (extract_lets +onlyGivenNames x; clear_value x)
    | with_reducible apply Steady.ite
    | with_reducible apply logDecision_steady
    | with_reducible apply modRegion_steady

theorem trimLedger_steady {z : State} (num : Nat) {s : State} (hz : Steady z s) : Steady z (trimLedger num s) := by
  unfold trimLedger
  repeat' first
    | with_reducible assumption
    | (extract_lets +onlyGivenNames x; refine Steady.cut (x := x) ?_ (fun hx => ?_); (on_goal 1 => subst x); (on_goal 2 => clear_value x))
    | (extract_lets +onlyGivenNames x; clear_value x)
    | with_reducible apply Steady.ite
    | with_reducible apply modRegion_steady
    | with_reducible apply raiseEvent_steady
    | with_reducible apply vaStore_steady
    | split

theorem advanceFinal_steady {z : State} (num : Nat) {s : State} (hz : Steady z s) : Steady z (advanceFinal num s) := by
  unfold advanceFinal
  repeat' first
    | with_reducible assumption
    | with_reducible intro _
    | (extract_lets +onlyGivenNames x; refine Steady.cut (x := x) ?_ (fun hx => ?_); (on_goal 1 => subst x); (on_goal 2 => clear_value x))
    | (extract_lets +onlyGivenNames x; clear_value x)
    | with_reducible apply Steady.ite
    | with_reducible apply Steady.foldl
    | with_reducible apply changeRegion_steady
    | with_reducible apply raiseEvent_steady
    | with_reducible apply modRegion_steady
    | with_reducible apply judgeSteps_steady
    | with_reducible apply trimLedger_steady
    | split

theorem declareDrift_steady {z : State} (num : Nat) {s : State} (hz : Steady z s) : Steady z (declareDrift num s) := by
  unfold declareDrift
  repeat' first
    | with_reducible assumption
    | with_reducible intro _
    | with_reducible apply Steady.ite
    | with_reducible apply Steady.foldl
    | with_reducible apply raiseEvent_steady
    | with_reducible apply modRegion_steady
    | split

theorem joinRegion_steady {z : State} (x : Region) (j : Nat) (anchor : List (W40 × W32)) {s : State}
    (hz : Steady z s) : Steady z (joinRegion x j anchor s) := by
  unfold joinRegion
  repeat' first
    | with_reducible assumption
    | (extract_lets +onlyGivenNames x; refine Steady.cut (x := x) ?_ (fun hx => ?_); (on_goal 1 => subst x); (on_goal 2 => clear_value x))
    | (extract_lets +onlyGivenNames x; clear_value x)
    | with_reducible apply modRegion_steady
    | with_reducible apply changeRegion_steady
    | with_reducible apply raiseEvent_steady

theorem startPal_steady {z : State} (r : DescRec) {s : State} (hz : Steady z s) : Steady z (startPal r s) := by
  unfold startPal
  repeat' first
    | with_reducible assumption
    | (extract_lets +onlyGivenNames x; clear_value x)
    | with_reducible apply Steady.ite
    | with_reducible apply refuse_steady
    | with_reducible apply done_steady
    | fail_if_no_progress with_reducible apply Steady.record

theorem sendPal_steady {z : State} (p : Pal) (it : Item) {s : State} (hz : Steady z s) : Steady z (sendPal p it s) := by
  unfold sendPal
  repeat' first
    | with_reducible assumption
    | with_reducible apply sendItem_steady
    | split

theorem tellState_steady {z : State} (num j : Nat) {s : State} (hz : Steady z s) : Steady z (tellState num j s) := by
  unfold tellState
  repeat' first
    | with_reducible assumption
    | (extract_lets +onlyGivenNames x; clear_value x)
    | with_reducible apply modRegion_steady
    | with_reducible apply sendPal_steady
    | split

theorem sendPull_steady {z : State} (x : Region) (j a b : Nat) {s : State} (hz : Steady z s) : Steady z (sendPull x j a b s) := by
  unfold sendPull
  repeat' first
    | with_reducible assumption
    | with_reducible apply sendPal_steady
    | split

theorem endOpen_steady {z : State} (x : Region) (detail : BitVec 16) {s : State} (hz : Steady z s) : Steady z (endOpen x detail s) := by
  unfold endOpen
  repeat' first
    | with_reducible assumption
    | with_reducible apply Steady.ite
    | with_reducible apply done_steady
    | with_reducible apply modRegion_steady
    | with_reducible apply refuse_steady
    | with_reducible apply dropRegions_steady
    | split

theorem tryOpen_steady {z : State} (num : Nat) {s : State} (hz : Steady z s) : Steady z (tryOpen num s) := by
  unfold tryOpen
  repeat' first
    | with_reducible assumption
    | (extract_lets +onlyGivenNames x; clear_value x)
    | with_reducible apply Steady.ite
    | with_reducible apply sendPull_steady
    | with_reducible apply modRegion_steady
    | with_reducible apply endOpen_steady
    | split

theorem nameRegion_steady {z : State} (slot num : Nat) {s : State} (hz : Steady z s) : Steady z (nameRegion slot num s) := by
  unfold nameRegion
  repeat' first
    | with_reducible assumption
    | fail_if_no_progress with_reducible apply Steady.record

theorem openRegion_steady {z : State} (r : DescRec) (h : List Word) (b : Binding) (off : Nat) (g : Group)
    {s : State} (hz : Steady z s) : Steady z (openRegion r h b off g s) := by
  unfold openRegion
  repeat' first
    | with_reducible assumption
    | with_reducible intro _
    | (extract_lets +onlyGivenNames x; refine Steady.cut (x := x) ?_ (fun hx => ?_); (on_goal 1 => subst x); (on_goal 2 => clear_value x))
    | (extract_lets +onlyGivenNames x; clear_value x)
    | with_reducible apply Steady.ite
    | with_reducible apply Steady.foldl
    | with_reducible apply refuse_steady
    | with_reducible apply refuseCap_steady
    | with_reducible apply modMemory_steady
    | with_reducible apply nameRegion_steady
    | with_reducible apply holdAs_steady
    | with_reducible apply tellState_steady
    | with_reducible apply tryOpen_steady
    | fail_if_no_progress with_reducible apply Steady.record

theorem startLater_steady {z : State} (r : DescRec) (x : Region) {s : State} (hz : Steady z s) : Steady z (startLater r x s) := by
  unfold startLater
  repeat' first
    | with_reducible assumption
    | (extract_lets +onlyGivenNames x; clear_value x)
    | with_reducible apply Steady.ite
    | with_reducible apply refuse_steady
    | with_reducible apply holdAs_steady
    | with_reducible apply nameRegion_steady

theorem startRound_steady {z : State} (r : DescRec) {s : State} (hz : Steady z s) : Steady z (startRound r s) := by
  unfold startRound
  repeat' first
    | with_reducible assumption
    | (extract_lets +onlyGivenNames x; clear_value x)
    | with_reducible apply Steady.ite
    | with_reducible apply refuse_steady
    | with_reducible apply holdAs_steady
    | with_reducible apply openRegion_steady
    | with_reducible apply dropRegions_steady
    | with_reducible apply startLater_steady
    | split

theorem sendRecords_steady {z : State} (id : Nat) (x : Region) (t : Nat × Nat) (rs : List (List Byte × W32))
    {s : State} (hz : Steady z s) : Steady z (sendRecords id x t rs s) := by
  unfold sendRecords
  repeat' first
    | with_reducible assumption
    | with_reducible intro _
    | (extract_lets +onlyGivenNames x; clear_value x)
    | with_reducible apply Steady.foldl
    | with_reducible apply enqueueSeg_steady
    | with_reducible apply modPass_steady
    | split

theorem rejectRound_steady {z : State} (l : Nat) (x : Region) (k j : Nat) {s : State} (hz : Steady z s) : Steady z (rejectRound l x k j s) := by
  unfold rejectRound
  repeat' first
    | with_reducible assumption
    | (extract_lets +onlyGivenNames x; refine Steady.cut (x := x) ?_ (fun hx => ?_); (on_goal 1 => subst x); (on_goal 2 => clear_value x))
    | (extract_lets +onlyGivenNames x; clear_value x)
    | with_reducible apply Steady.ite
    | with_reducible apply modPal_steady
    | with_reducible apply modRegion_steady
    | with_reducible apply holdOut_steady

theorem recheckConfig_steady {z : State} (num r : Nat) {s : State} (hz : Steady z s) : Steady z (recheckConfig num r s) := by
  unfold recheckConfig
  repeat' first
    | with_reducible assumption
    | with_reducible intro _
    | (extract_lets +onlyGivenNames x; clear_value x)
    | with_reducible apply Steady.foldl
    | with_reducible apply rejectRound_steady
    | with_reducible apply raiseEvent_steady
    | with_reducible apply modRegion_steady
    | split

theorem grantRound_steady {z : State} (r : DescRec) (x : Region) (h : List Word) (ts : List (Nat × Nat))
    (wire : Nat) (promise e : Word) {s : State} (hz : Steady z s) : Steady z (grantRound r x h ts wire promise e s) := by
  unfold grantRound
  repeat' first
    | with_reducible assumption
    | with_reducible intro _
    | (extract_lets +onlyGivenNames x; refine Steady.cut (x := x) ?_ (fun hx => ?_); (on_goal 1 => subst x); (on_goal 2 => clear_value x))
    | (extract_lets +onlyGivenNames x; clear_value x)
    | with_reducible apply Steady.ite
    | with_reducible apply Steady.foldl
    | with_reducible apply holdAs_steady
    | with_reducible apply interim_steady
    | with_reducible apply declareDrift_steady
    | with_reducible apply recheckConfig_steady
    | with_reducible apply formRound_steady
    | with_reducible apply advanceFinal_steady
    | with_reducible apply modPass_steady
    | with_reducible apply sendRecords_steady
    | split
    | fail_if_no_progress with_reducible apply Steady.record

theorem decideRound_steady {z : State} (r : DescRec) (x : Region) {s : State} (hz : Steady z s) : Steady z (decideRound r x s) := by
  unfold decideRound
  repeat' first
    | with_reducible assumption
    | (extract_lets +onlyGivenNames x; clear_value x)
    | with_reducible apply Steady.ite
    | with_reducible apply holdAs_steady
    | with_reducible apply finish_steady
    | with_reducible apply refuseCap_steady
    | with_reducible apply grantRound_steady
    | fail_if_no_progress with_reducible apply Steady.record

theorem palMismatch_steady {z : State} (l : Nat) (found expected : Word) (site : Nat) {s : State} (hz : Steady z s) : Steady z
    (palMismatch l found expected site s) := by
  unfold palMismatch
  repeat' first
    | with_reducible assumption
    | with_reducible apply raiseFar_steady
    | with_reducible apply raiseEvent_steady

theorem hearPal_steady {z : State} (id : Nat) {s : State} (hz : Steady z s) : Steady z (hearPal id s) := by
  unfold hearPal
  repeat' first
    | with_reducible assumption
    | with_reducible apply modPal_steady

theorem passOn_steady {z : State} (it : Item) {s : State} (hz : Steady z s) : Steady z (passOn it s) := by
  unfold passOn
  repeat' first
    | with_reducible assumption
    | with_reducible apply sendTo_steady

theorem onState_steady {z : State} (x : Region) (j : Nat) (fresh : Bool) (y : Nat × Nat × W32 × Nat)
    {s : State} (hz : Steady z s) : Steady z (onState x j fresh y s) := by
  unfold onState
  repeat' first
    | with_reducible assumption
    | (extract_lets +onlyGivenNames x; refine Steady.cut (x := x) ?_ (fun hx => ?_); (on_goal 1 => subst x); (on_goal 2 => clear_value x))
    | with_reducible apply Steady.ite
    | with_reducible apply tryOpen_steady
    | with_reducible apply sendPull_steady
    | with_reducible apply modRegion_steady
    | with_reducible apply tellState_steady
    | split

theorem takeDiff_steady {z : State} (l : Nat) (x : Region) (d : DiffRec) {s : State} (hz : Steady z s) : Steady z (takeDiff l x d s) := by
  unfold takeDiff
  repeat' first
    | with_reducible assumption
    | (extract_lets +onlyGivenNames x; refine Steady.cut (x := x) ?_ (fun hx => ?_); (on_goal 1 => subst x); (on_goal 2 => clear_value x))
    | (extract_lets +onlyGivenNames x; refine Steady.cutFn (x := x) ?_ (fun hx => ?_); (on_goal 1 => (subst x; intros; beta_reduce)); (on_goal 2 => clear_value x))
    | (extract_lets +onlyGivenNames x; clear_value x)
    | with_reducible apply Steady.ite
    | with_reducible apply modPal_steady
    | with_reducible apply modRegion_steady
    | with_reducible apply trimLedger_steady
    | with_reducible apply advanceFinal_steady
    | with_reducible apply rejectRound_steady
    | with_reducible apply raiseEvent_steady
    | with_reducible apply_assumption
    | split

theorem finishRound_steady {z : State} (p : Pass) {s : State} (hz : Steady z s) : Steady z (finishRound p s) := by
  unfold finishRound
  repeat' first
    | with_reducible assumption
    | (extract_lets +onlyGivenNames x; refine Steady.cut (x := x) ?_ (fun hx => ?_); (on_goal 1 => subst x); (on_goal 2 => clear_value x))
    | (extract_lets +onlyGivenNames x; clear_value x)
    | with_reducible apply Steady.ite
    | with_reducible apply noteLate_steady
    | with_reducible apply cardPass_steady
    | with_reducible apply dropPass_steady
    | with_reducible apply modRegion_steady
    | with_reducible apply finish_steady
    | split

theorem startPair_steady {z : State} (r : DescRec) {s : State} (hz : Steady z s) : Steady z (startPair r s) := by
  unfold startPair
  repeat' first
    | with_reducible assumption
    | with_reducible apply Steady.ite
    | with_reducible apply refuse_steady
    | with_reducible apply done_steady
    | with_reducible apply holdAs_steady
    | with_reducible apply modMate_steady
    | with_reducible apply dissolvePair_steady

theorem undoMirror_steady {z : State} (n : Word) {s : State} (hz : Steady z s) : Steady z (undoMirror n s) := by
  unfold undoMirror
  repeat' first
    | with_reducible assumption
    | (extract_lets +onlyGivenNames x; clear_value x)
    | with_reducible apply modNmu_steady
    | with_reducible apply modMate_steady

theorem mirrorRec_steady {z : State} (r : JRec) {s : State} (hz : Steady z s) : Steady z (mirrorRec r s) := by
  unfold mirrorRec
  repeat' first
    | with_reducible assumption
    | (extract_lets +onlyGivenNames x; refine Steady.cut (x := x) ?_ (fun hx => ?_); (on_goal 1 => subst x); (on_goal 2 => clear_value x))
    | (extract_lets +onlyGivenNames x; clear_value x)
    | with_reducible apply Steady.ite
    | with_reducible apply modMate_steady
    | with_reducible apply appendRec_steady
    | with_reducible apply undoMirror_steady

theorem noteRepair_steady {z : State} (b : Binding) (i bit : Nat) {s : State} (hz : Steady z s) : Steady z (noteRepair b i bit s) := by
  unfold noteRepair
  repeat' first
    | with_reducible assumption
    | with_reducible apply raiseDev_steady
    | with_reducible apply raiseEvent_steady

theorem lostReplica_steady {z : State} (b : Binding) (i bit : Nat) {s : State} (hz : Steady z s) : Steady z (lostReplica b i bit s) := by
  unfold lostReplica
  repeat' first
    | with_reducible assumption
    | with_reducible apply modGroup_steady
    | with_reducible apply raiseDev_steady
    | with_reducible apply raiseEvent_steady

theorem resolveUnit_steady {z : State} (b : Binding) (i : Nat) (theirs : List Byte) {s : State} (hz : Steady z s) : Steady z
    (resolveUnit b i theirs s) := by
  unfold resolveUnit
  repeat' first
    | with_reducible assumption
    | (extract_lets +onlyGivenNames x; refine Steady.cut (x := x) ?_ (fun hx => ?_); (on_goal 1 => subst x); (on_goal 2 => clear_value x))
    | (extract_lets +onlyGivenNames x; clear_value x)
    | with_reducible apply Steady.ite
    | with_reducible apply modMate_steady
    | with_reducible apply lostReplica_steady
    | with_reducible apply noteRepair_steady
    | with_reducible apply sendMirror_steady
    | with_reducible apply journalStripe_steady
    | with_reducible apply putStripe_steady
    | split

theorem takeRepair_steady {z : State} (bs : List Byte) {s : State} (hz : Steady z s) : Steady z (takeRepair bs s) := by
  unfold takeRepair
  repeat' first
    | with_reducible assumption
    | with_reducible apply resolveUnit_steady
    | split

theorem dropAbsent_steady {z : State} (g : Group) (r : Nat) {s : State} (hz : Steady z s) : Steady z (dropAbsent g r s) := by
  unfold dropAbsent
  repeat' first
    | with_reducible assumption
    | (extract_lets +onlyGivenNames x; clear_value x)
    | fail_if_no_progress with_reducible apply Steady.record

theorem moveRank_steady {z : State} (g : Group) (r : Nat) (holder : Word) {s : State} (hz : Steady z s) : Steady z (moveRank g r holder s) := by
  unfold moveRank
  repeat' first
    | with_reducible assumption
    | with_reducible intro _
    | (extract_lets +onlyGivenNames x; refine Steady.cut (x := x) ?_ (fun hx => ?_); (on_goal 1 => subst x); (on_goal 2 => clear_value x))
    | with_reducible apply Steady.foldl
    | with_reducible apply modGroup_steady
    | with_reducible apply raiseEvent_steady
    | with_reducible apply dropAbsent_steady
    | with_reducible apply sendTo_steady
    | split

theorem takeRank_steady {z : State} (w : Word) (g : Group) {s : State} (hz : Steady z s) : Steady z (takeRank w g s) := by
  unfold takeRank
  repeat' first
    | with_reducible assumption
    | (extract_lets +onlyGivenNames x; refine Steady.cut (x := x) ?_ (fun hx => ?_); (on_goal 1 => subst x); (on_goal 2 => clear_value x))
    | (extract_lets +onlyGivenNames x; clear_value x)
    | with_reducible apply Steady.ite
    | with_reducible apply sendAll_steady
    | with_reducible apply moveRank_steady
    | with_reducible apply modMate_steady
    | with_reducible apply appendRec_steady
    | with_reducible apply modGroup_steady
    | with_reducible apply pushReports_steady
    | split
    | fail_if_no_progress with_reducible apply Steady.record

theorem dropRun_steady {z : State} (u : Run) {s : State} (hz : Steady z s) : Steady z (dropRun u s) := by
  unfold dropRun
  repeat' first
    | with_reducible assumption
    | with_reducible apply finish_steady
    | split
    | fail_if_no_progress with_reducible apply Steady.record

theorem endWork_steady {z : State} (slot : Nat) (force : Bool) {s : State} (hz : Steady z s) : Steady z (endWork slot force s) := by
  unfold endWork
  repeat' first
    | with_reducible assumption
    | with_reducible intro _
    | (extract_lets +onlyGivenNames x; refine Steady.cut (x := x) ?_ (fun hx => ?_); (on_goal 1 => subst x); (on_goal 2 => clear_value x))
    | with_reducible apply Steady.ite
    | with_reducible apply Steady.foldl
    | with_reducible apply finish_steady
    | with_reducible apply dropRun_steady
    | with_reducible apply stopRun_steady
    | with_reducible apply modRun_steady
    | with_reducible apply modNmu_steady
    | with_reducible apply done_steady
    | split

theorem startDestroy_steady {z : State} (r : DescRec) {s : State} (hz : Steady z s) : Steady z (startDestroy r s) := by
  unfold startDestroy
  repeat' first
    | with_reducible assumption
    | (extract_lets +onlyGivenNames x; refine Steady.cut (x := x) ?_ (fun hx => ?_); (on_goal 1 => subst x); (on_goal 2 => clear_value x))
    | (extract_lets +onlyGivenNames x; clear_value x)
    | with_reducible apply Steady.ite
    | with_reducible apply finishGone_steady
    | with_reducible apply refuse_steady
    | with_reducible apply modChan_steady
    | with_reducible apply modSlot_steady
    | with_reducible apply beginReady_steady
    | with_reducible apply settleDestroy_steady
    | with_reducible apply endWork_steady
    | with_reducible apply holdAs_steady
    | split

theorem setMap_steady {z : State} (slot : Nat) (f : MapEntry → MapEntry) {s : State} (hz : Steady z s) : Steady z (setMap slot f s) := by
  unfold setMap
  repeat' first
    | with_reducible assumption
    | with_reducible intro _
    | (extract_lets +onlyGivenNames x; clear_value x)
    | with_reducible apply modFlash_steady
    | with_reducible apply modMemory_steady
    | exact ⟨Nat.le_refl _, Nat.le_refl _⟩

theorem channelOutEvent_steady {z : State} (ch cause : Nat) {s : State} (hz : Steady z s) : Steady z
    (channelOutEvent ch cause s) := by
  unfold channelOutEvent
  repeat' first
    | with_reducible assumption
    | with_reducible apply raiseDev_steady
    | with_reducible apply raiseEvent_steady

theorem beginMove_steady {z : State} (slot kind : Nat) {s : State} (hz : Steady z s) : Steady z (beginMove slot kind s) := by
  unfold beginMove
  repeat' first
    | with_reducible assumption
    | with_reducible intro _
    | (extract_lets +onlyGivenNames x; refine Steady.cut (x := x) ?_ (fun hx => ?_); (on_goal 1 => subst x); (on_goal 2 => clear_value x))
    | (extract_lets +onlyGivenNames x; clear_value x)
    | with_reducible apply setMap_steady
    | with_reducible apply modMemory_steady
    | with_reducible apply raiseDev_steady
    | with_reducible apply raiseEvent_steady
    | split

theorem startMoves_steady {z : State}  {s : State} (hz : Steady z s) : Steady z (startMoves s) := by
  unfold startMoves
  repeat' first
    | with_reducible assumption
    | with_reducible intro _
    | (extract_lets +onlyGivenNames x; clear_value x)
    | with_reducible apply Steady.ite
    | with_reducible apply Steady.foldl
    | with_reducible apply beginMove_steady

theorem queueMoves_steady {z : State} (kind : Nat) (slots : List Nat) {s : State} (hz : Steady z s) : Steady z
    (queueMoves kind slots s) := by
  unfold queueMoves
  repeat' first
    | with_reducible assumption
    | with_reducible intro _
    | (extract_lets +onlyGivenNames x; clear_value x)
    | with_reducible apply modMemory_steady

theorem keepParked_steady {z : State} (ch : Nat) {s : State} (hz : Steady z s) : Steady z (keepParked ch s) := by
  unfold keepParked
  repeat' first
    | with_reducible assumption
    | with_reducible intro _
    | (extract_lets +onlyGivenNames x; refine Steady.cut (x := x) ?_ (fun hx => ?_); (on_goal 1 => subst x); (on_goal 2 => clear_value x))
    | with_reducible apply Steady.foldl
    | with_reducible apply modMemory_steady
    | with_reducible apply setMap_steady

theorem cancelTo_steady {z : State} (ch : Nat) {s : State} (hz : Steady z s) : Steady z (cancelTo ch s) := by
  unfold cancelTo
  repeat' first
    | with_reducible assumption
    | with_reducible intro _
    | (extract_lets +onlyGivenNames x; clear_value x)
    | with_reducible apply Steady.ite
    | with_reducible apply Steady.foldl
    | with_reducible apply setMap_steady

theorem leaveChannel_steady {z : State} (ch kind : Nat) {s : State} (hz : Steady z s) : Steady z (leaveChannel ch kind s) := by
  unfold leaveChannel
  repeat' first
    | with_reducible assumption
    | with_reducible apply queueMoves_steady
    | with_reducible apply cancelTo_steady
    | with_reducible apply keepParked_steady

theorem markOut_steady {z : State} (ch : Nat) {s : State} (hz : Steady z s) : Steady z (markOut ch s) := by
  unfold markOut
  repeat' first
    | with_reducible assumption
    | with_reducible intro _
    | (extract_lets +onlyGivenNames x; clear_value x)
    | with_reducible apply modFlash_steady
    | with_reducible apply modMemChan_steady
    | exact ⟨Nat.le_refl _, Nat.le_refl _⟩

theorem startPark_steady {z : State} (m base : Nat) (cs : List Nat) {s : State} (hz : Steady z s) : Steady z (startPark m base cs s) := by
  unfold startPark
  repeat' first
    | with_reducible assumption
    | (extract_lets +onlyGivenNames x; clear_value x)
    | with_reducible apply startMoves_steady
    | with_reducible apply queueMoves_steady
    | with_reducible apply modStack_steady

theorem startRetrain_steady {z : State} (m : Nat) {s : State} (hz : Steady z s) : Steady z (startRetrain m s) := by
  unfold startRetrain
  repeat' first
    | with_reducible assumption
    | with_reducible apply Steady.ite
    | with_reducible apply startPark_steady

theorem nextRetrain_steady {z : State} (m r : Nat) {s : State} (hz : Steady z s) : Steady z (nextRetrain m r s) := by
  unfold nextRetrain
  repeat' first
    | with_reducible assumption
    | with_reducible apply Steady.ite
    | with_reducible apply modStack_steady
    | with_reducible apply startPark_steady

theorem settleRetrain_steady {z : State} (m : Nat) {s : State} (hz : Steady z s) : Steady z (settleRetrain m s) := by
  unfold settleRetrain
  repeat' first
    | with_reducible assumption
    | (extract_lets +onlyGivenNames x; clear_value x)
    | with_reducible apply Steady.ite
    | with_reducible apply modStack_steady
    | with_reducible apply nextRetrain_steady

theorem settleDrain_steady {z : State} (m : Nat) {s : State} (hz : Steady z s) : Steady z (settleDrain m s) := by
  unfold settleDrain
  repeat' first
    | with_reducible assumption
    | with_reducible intro _
    | (extract_lets +onlyGivenNames x; refine Steady.cut (x := x) ?_ (fun hx => ?_); (on_goal 1 => subst x); (on_goal 2 => clear_value x))
    | (extract_lets +onlyGivenNames x; clear_value x)
    | with_reducible apply Steady.ite
    | with_reducible apply Steady.foldl
    | with_reducible apply modStack_steady
    | with_reducible apply channelOutEvent_steady
    | with_reducible apply markOut_steady

theorem settleStacks_steady {z : State}  {s : State} (hz : Steady z s) : Steady z (settleStacks s) := by
  unfold settleStacks
  repeat' first
    | with_reducible assumption
    | with_reducible intro _
    | with_reducible apply Steady.foldl
    | with_reducible apply settleDrain_steady
    | with_reducible apply settleRetrain_steady
    | with_reducible apply startMoves_steady

theorem failSteps_steady {z : State} (gs : List Nat) {s : State} (hz : Steady z s) : Steady z (failSteps gs s) := by
  unfold failSteps
  repeat' first
    | with_reducible assumption
    | fail_if_no_progress with_reducible apply Steady.record

theorem poisonBlock_steady {z : State} (b : Nat) {s : State} (hz : Steady z s) : Steady z (poisonBlock b s) := by
  unfold poisonBlock
  repeat' first
    | with_reducible assumption
    | with_reducible apply modMemChan_steady

theorem spoilRecord_steady {z : State} (b : Binding) (i off : Nat) {s : State} (hz : Steady z s) : Steady z (spoilRecord b i off s) := by
  unfold spoilRecord
  repeat' first
    | with_reducible assumption
    | (extract_lets +onlyGivenNames x; refine Steady.cut (x := x) ?_ (fun hx => ?_); (on_goal 1 => subst x); (on_goal 2 => clear_value x))
    | (extract_lets +onlyGivenNames x; clear_value x)
    | with_reducible apply Steady.ite
    | with_reducible apply putStripe_steady
    | with_reducible apply putBlock_steady
    | with_reducible apply drawFree_steady

theorem loseRecord_steady {z : State} (b : Binding) (i off : Nat) {s : State} (hz : Steady z s) : Steady z (loseRecord b i off s) := by
  unfold loseRecord
  repeat' first
    | with_reducible assumption
    | with_reducible apply failSteps_steady
    | with_reducible apply raiseDev_steady
    | with_reducible apply raiseEvent_steady
    | with_reducible apply spoilRecord_steady

theorem rebuildBlock_steady {z : State} (b : Nat) {s : State} (hz : Steady z s) : Steady z (rebuildBlock b s) := by
  unfold rebuildBlock
  repeat' first
    | with_reducible assumption
    | with_reducible apply Steady.ite
    | with_reducible apply failSteps_steady
    | with_reducible apply poisonBlock_steady
    | with_reducible apply loseRecord_steady
    | split

theorem replayReaders_steady {z : State} (b : Nat) {s : State} (hz : Steady z s) : Steady z (replayReaders b s) := by
  unfold replayReaders
  repeat' first
    | with_reducible assumption
    | with_reducible intro _
    | (extract_lets +onlyGivenNames x; clear_value x)
    | with_reducible apply Steady.ite
    | with_reducible apply Steady.foldl
    | with_reducible apply stopRun_steady
    | with_reducible apply dropWork_steady
    | with_reducible apply rerunRun_steady

theorem rebuildLost_steady {z : State} (lost : List (Nat × Nat)) {s : State} (hz : Steady z s) : Steady z (rebuildLost lost s) := by
  unfold rebuildLost
  repeat' first
    | with_reducible assumption
    | with_reducible intro _
    | (extract_lets +onlyGivenNames x; refine Steady.cut (x := x) ?_ (fun hx => ?_); (on_goal 1 => subst x); (on_goal 2 => clear_value x))
    | with_reducible apply Steady.ite
    | with_reducible apply Steady.foldl
    | with_reducible apply rebuildBlock_steady
    | with_reducible apply loseRecord_steady

theorem placeLost_steady {z : State} (slot : Nat) {s : State} (hz : Steady z s) : Steady z (placeLost slot s) := by
  unfold placeLost
  repeat' first
    | with_reducible assumption
    | with_reducible intro _
    | (extract_lets +onlyGivenNames x; refine Steady.cut (x := x) ?_ (fun hx => ?_); (on_goal 1 => subst x); (on_goal 2 => clear_value x))
    | (extract_lets +onlyGivenNames x; clear_value x)
    | with_reducible apply modMemory_steady
    | with_reducible apply setMap_steady
    | with_reducible apply raiseDev_steady
    | with_reducible apply raiseEvent_steady
    | split

theorem loseStack_steady {z : State} (m : Fin 24) (level : Nat) {s : State} (hz : Steady z s) : Steady z (loseStack m level s) := by
  unfold loseStack
  repeat' first
    | with_reducible assumption
    | with_reducible intro _
    | (extract_lets +onlyGivenNames x; refine Steady.cut (x := x) ?_ (fun hx => ?_); (on_goal 1 => subst x); (on_goal 2 => clear_value x))
    | (extract_lets +onlyGivenNames x; clear_value x)
    | with_reducible apply Steady.ite
    | with_reducible apply Steady.foldl
    | with_reducible apply cancelTo_steady
    | with_reducible apply keepParked_steady
    | with_reducible apply modStack_steady
    | with_reducible apply channelOutEvent_steady
    | with_reducible apply markOut_steady
    | with_reducible apply placeLost_steady
    | with_reducible apply rebuildLost_steady
    | with_reducible apply startMoves_steady
    | with_reducible apply rerunRun_steady
    | with_reducible apply modSeq_steady

theorem raiseLevels_steady {z : State} (m t a b : Nat) {s : State} (hz : Steady z s) : Steady z (raiseLevels m t a b s) := by
  unfold raiseLevels
  repeat' first
    | with_reducible assumption
    | with_reducible intro _
    | with_reducible apply Steady.foldl
    | with_reducible apply raiseDev_steady
    | with_reducible apply raiseEvent_steady

theorem parkStack_steady {z : State} (m t : Nat) {s : State} (hz : Steady z s) : Steady z (parkStack m t s) := by
  unfold parkStack
  repeat' first
    | with_reducible assumption
    | (extract_lets +onlyGivenNames x; refine Steady.cut (x := x) ?_ (fun hx => ?_); (on_goal 1 => subst x); (on_goal 2 => clear_value x))
    | (extract_lets +onlyGivenNames x; clear_value x)
    | with_reducible apply Steady.ite
    | with_reducible apply logDecision_steady
    | with_reducible apply startMoves_steady
    | with_reducible apply queueMoves_steady
    | with_reducible apply modStack_steady

theorem drainStack_steady {z : State} (m : Nat) {s : State} (hz : Steady z s) : Steady z (drainStack m s) := by
  unfold drainStack
  repeat' first
    | with_reducible assumption
    | with_reducible intro _
    | (extract_lets +onlyGivenNames x; refine Steady.cut (x := x) ?_ (fun hx => ?_); (on_goal 1 => subst x); (on_goal 2 => clear_value x))
    | with_reducible apply Steady.foldl
    | with_reducible apply modStack_steady
    | with_reducible apply settleStacks_steady
    | with_reducible apply leaveChannel_steady

theorem noteTemp_steady {z : State} (m t : Nat) {s : State} (hz : Steady z s) : Steady z (noteTemp m t s) := by
  unfold noteTemp
  repeat' first
    | with_reducible assumption
    | (extract_lets +onlyGivenNames x; clear_value x)
    | with_reducible apply modStack_steady

theorem catchSegment_steady {z : State} (e stripes : Nat) {s : State} (hz : Steady z s) : Steady z
    (catchSegment e stripes s) := by
  unfold catchSegment
  repeat' first
    | with_reducible assumption
    | with_reducible intro _
    | (extract_lets +onlyGivenNames x; clear_value x)
    | with_reducible apply Steady.ite
    | with_reducible apply Steady.foldl
    | with_reducible apply catchUnit_steady
    | split

theorem countStream_steady {z : State} (e raw stored : Nat) {s : State} (hz : Steady z s) : Steady z
    (countStream e raw stored s) := by
  unfold countStream
  repeat' first
    | with_reducible assumption
    | with_reducible apply modEngine_steady

theorem finishMove_steady {z : State} (r : DescRec) (c : Chan) (raw : List Byte) (fail : Option (Nat × Nat))
    {s : State} (hz : Steady z s) : Steady z (finishMove r c raw fail s) := by
  unfold finishMove
  repeat' first
    | with_reducible assumption
    | (extract_lets +onlyGivenNames x; refine Steady.cut (x := x) ?_ (fun hx => ?_); (on_goal 1 => subst x); (on_goal 2 => clear_value x))
    | (extract_lets +onlyGivenNames x; clear_value x)
    | with_reducible apply Steady.ite
    | with_reducible exact forwardDesc_steady _ _ _ _ _ (by assumption) (by assumption)
    | with_reducible apply refuseCap_steady
    | with_reducible apply protect_steady
    | with_reducible apply countStream_steady
    | with_reducible apply vaStore_steady
    | with_reducible apply refuse_steady
    | with_reducible apply rejectItem_steady
    | with_reducible apply finish_steady
    | with_reducible apply done_steady
    | split

theorem moveDest_steady {z : State} (r : DescRec) (n : Nat) (go : State → State) {s : State} (Hgo : ∀ 
    (t : State), Steady z t → Steady z (go t)) (hz : Steady z s) : Steady z (moveDest r n go s) := by
  unfold moveDest
  repeat' first
    | with_reducible assumption
    | (extract_lets +onlyGivenNames x; clear_value x)
    | with_reducible apply Steady.ite
    | with_reducible apply refuse_steady
    | with_reducible apply Hgo
    | split

theorem startMove_steady {z : State} (r : DescRec) {s : State} (hz : Steady z s) : Steady z (startMove r s) := by
  unfold startMove
  extract_lets d slot src len read n
  have hread : ∀ (go : State → State) (t : State), (∀ u, Steady z u → Steady z (go u)) → Steady z t → Steady z (read go t) := by
    intro go t hgo ht
    subst read
    beta_reduce
    split
    · exact refuse_steady _ _ _ ht
    · exact hgo _ ht
  clear_value read n
  split
  · exact finishGone_steady _ hz
  · with_reducible apply Steady.ite
    · exact refuse_steady _ _ _ hz
    · split
      · exact refuse_steady _ _ _ hz
      · with_reducible apply Steady.ite
        · with_reducible apply hread
          · intro u hu
            extract_lets h n2
            repeat' first
              | with_reducible assumption
              | with_reducible apply Steady.ite
              | with_reducible apply refuse_steady
              | with_reducible apply rejectItem_steady
              | with_reducible apply moveDest_steady
              | with_reducible intro _
              | (extract_lets +onlyGivenNames x; clear_value x)
              | with_reducible apply finishMove_steady
          · exact hz
        · with_reducible apply moveDest_steady
          · intro t ht
            with_reducible apply hread
            · intro u hu
              exact finishMove_steady _ _ _ _ hu
            · exact ht
          · exact hz

theorem startStatsRead_steady {z : State} (r : DescRec) {s : State} (hz : Steady z s) : Steady z (startStatsRead r s) := by
  unfold startStatsRead
  repeat' first
    | with_reducible assumption
    | (extract_lets +onlyGivenNames x; refine Steady.cut (x := x) ?_ (fun hx => ?_); (on_goal 1 => subst x); (on_goal 2 => clear_value x))
    | (extract_lets +onlyGivenNames x; clear_value x)
    | with_reducible apply Steady.ite
    | with_reducible apply finishGone_steady
    | with_reducible apply refuse_steady
    | with_reducible apply vaStore_steady
    | with_reducible apply modChan_steady
    | with_reducible apply done_steady
    | split
    | fail_if_no_progress with_reducible apply Steady.record

theorem acceptTopology_steady {z : State} (t : Topology) {s : State} (hz : Steady z s) : Steady z (acceptTopology t s) := by
  unfold acceptTopology
  repeat' first
    | with_reducible assumption
    | with_reducible intro _
    | (extract_lets +onlyGivenNames x; refine Steady.cut (x := x) ?_ (fun hx => ?_); (on_goal 1 => subst x); (on_goal 2 => clear_value x))
    | with_reducible apply Steady.ite
    | with_reducible apply Steady.foldl
    | with_reducible apply applyTopology_steady
    | with_reducible apply modMod_steady
    | with_reducible apply modFlash_steady
    | with_reducible apply judgeLink_steady
    | with_reducible apply judgeAll_steady
    | exact ⟨Nat.le_refl _, Nat.le_refl _⟩

theorem startTopology_steady {z : State} (r : DescRec) {s : State} (hz : Steady z s) : Steady z (startTopology r s) := by
  unfold startTopology
  repeat' first
    | with_reducible assumption
    | (extract_lets +onlyGivenNames x; clear_value x)
    | with_reducible apply Steady.ite
    | with_reducible apply refuse_steady
    | with_reducible apply done_steady
    | with_reducible apply acceptTopology_steady
    | split

theorem blockChange_steady {z : State} (x : Region) {s : State} (hz : Steady z s) : Steady z (blockChange s x) := by
  unfold blockChange
  repeat' first
    | with_reducible assumption
    | with_reducible apply Steady.ite
    | with_reducible apply logDecision_steady
    | with_reducible apply modRegion_steady
    | split

theorem acceptLimits_steady {z : State} (bs : List Byte) (es : List PolicyEntry) {s : State} (hz : Steady z s) : Steady z (acceptLimits bs es s) := by
  unfold acceptLimits
  repeat' first
    | with_reducible assumption
    | with_reducible intro _
    | (extract_lets +onlyGivenNames x; refine Steady.cut (x := x) ?_ (fun hx => ?_); (on_goal 1 => subst x); (on_goal 2 => clear_value x))
    | (extract_lets +onlyGivenNames x; clear_value x)
    | with_reducible apply Steady.foldl
    | with_reducible apply modCard_steady
    | with_reducible apply blockChange_steady

theorem startLimits_steady {z : State} (r : DescRec) {s : State} (hz : Steady z s) : Steady z (startLimits r s) := by
  unfold startLimits
  repeat' first
    | with_reducible assumption
    | (extract_lets +onlyGivenNames x; clear_value x)
    | with_reducible apply Steady.ite
    | with_reducible apply done_steady
    | with_reducible apply acceptLimits_steady
    | with_reducible apply refuse_steady

theorem startOf_steady {z : State} (op : BitVec 8) (r : DescRec) {s : State} (hz : Steady z s) : Steady z (startOf op r s) := by
  have key : ∀ f : DescRec → State → State, f = startOf op → Steady z (f r s) := by
    intro f hf
    unfold startOf at hf
    split at hf <;> subst hf <;> first
      | exact hz
      | exact startLesson_steady _ hz
      | exact startMove_steady _ hz
      | exact startExchange_steady _ hz
      | exact startRound_steady _ hz
      | exact startRule_steady _ hz
      | exact startOpen_steady _ hz
      | exact startCommit_steady _ hz
      | exact startExam_steady _ hz
      | exact startExamClose_steady _ hz
      | exact startExport_steady _ hz
      | exact startWait_steady _ hz
      | exact startStatsRead_steady _ hz
      | exact startSnapshot_steady _ hz
      | exact startCreate_steady _ hz
      | exact startDestroy_steady _ hz
      | exact startMap_steady _ hz
      | exact startUnmap_steady _ hz
      | exact startGroup_steady _ hz
      | exact startPair_steady _ hz
      | exact startPal_steady _ hz
      | exact startTopology_steady _ hz
      | exact startLimits_steady _ hz
      | exact startKeyInstall_steady _ hz

  exact key _ rfl

theorem afterStart_steady {z : State}  {s : State} (hz : Steady z s) : Steady z (afterStart s) := by
  unfold afterStart
  repeat' first
    | with_reducible assumption
    | with_reducible apply sendMirror_steady
    | with_reducible apply showRounds_steady
    | with_reducible apply settlePasses_steady

theorem coldStart_steady {z : State} (cause reason : Nat) {s : State} (hz : Steady z s) : Steady z (coldStart cause reason s) :=
  hz.trans ⟨rfl, Nat.le_refl _, Nat.le_refl _, fun w => ⟨w.1, w.2.1, rfl⟩⟩

theorem restLinks_steady {z : State}  {s : State} (hz : Steady z s) : Steady z (restLinks s) := by
  unfold restLinks
  repeat' first
    | with_reducible assumption
    | fail_if_no_progress with_reducible apply Steady.record

theorem dropMailbox_steady {z : State} {s : State} (hz : Steady z s) : Steady z (dropMailbox s) := by
  unfold dropMailbox
  extract_lets cut staging s'
  have h' : Steady z s' := Steady.ite (modFlash_steady (fun x => by split <;> exact ⟨Nat.le_refl _, Nat.le_refl _⟩) hz) hz
  exact modMod_steady (h'.trans ⟨rfl, Nat.le_refl _, Nat.le_refl _, fun w => w⟩)

theorem warmStart_steady {z : State} (cause : Nat) {s : State} (hz : Steady z s) : Steady z (warmStart cause s) := by
  unfold warmStart
  repeat' first
    | with_reducible assumption
    | with_reducible intro _
    | (extract_lets +onlyGivenNames x; refine Steady.cut (x := x) ?_ (fun hx => ?_); (on_goal 1 => subst x); (on_goal 2 => clear_value x))
    | with_reducible apply dropMailbox_steady
    | with_reducible apply modFlash_steady
    | with_reducible apply modMod_steady
    | exact ⟨Nat.le_refl _, Nat.le_refl _⟩
    | split

theorem goOffline_steady {z : State} (failCause : Nat) (recoverable : Bool) {s : State} (hz : Steady z s) : Steady z
    (goOffline failCause recoverable s) := by
  unfold goOffline
  extract_lets s' down
  have h' : Steady z s' := restLinks_steady hz
  exact modMod_steady (h'.trans ⟨rfl, Nat.le_refl _, Nat.le_refl _, fun w => w⟩)

theorem fwCandidate_steady {z : State}  {s : State} (hz : Steady z s) : Steady z (fwCandidate s).2.2 := by
  unfold fwCandidate
  repeat' first
    | with_reducible assumption
    | with_reducible intro _
    | with_reducible apply modFlash_steady
    | exact ⟨Nat.le_refl _, Nat.le_refl _⟩
    | split

theorem fwEvents_steady {z : State} (fallback bad run : Bool) {s : State} (hz : Steady z s) : Steady z
    (fwEvents fallback bad run s) := by
  unfold fwEvents
  repeat' first
    | with_reducible assumption
    | (extract_lets +onlyGivenNames x; refine Steady.cut (x := x) ?_ (fun hx => ?_); (on_goal 1 => subst x); (on_goal 2 => clear_value x))
    | (extract_lets +onlyGivenNames x; clear_value x)
    | with_reducible apply Steady.ite
    | with_reducible apply raiseDev_steady
    | with_reducible apply raiseEvent_steady

theorem chooseFirmware_steady {z : State} {s t : State} (hs : Steady z s) (ht : chooseFirmware s = some t) : Steady z t := by
  unfold chooseFirmware at ht
  extract_lets c s' run at ht
  cases hr : run with
  | none => rw [hr] at ht; cases ht
  | some r =>
    rw [hr] at ht
    cases ht
    exact fwEvents_steady _ _ _ (modMod_steady (fwCandidate_steady hs))

theorem firstLock_steady {z : State} (ptpTime : Option Word) {s : State} (hz : Steady z s) : Steady z (firstLock ptpTime s) := by
  unfold firstLock
  repeat' first
    | with_reducible assumption
    | (extract_lets +onlyGivenNames x; refine Steady.cut (x := x) ?_ (fun hx => ?_); (on_goal 1 => subst x); (on_goal 2 => clear_value x))
    | with_reducible apply modTime_steady
    | with_reducible apply raiseDev_steady
    | with_reducible apply raiseEvent_steady
    | with_reducible apply modMod_steady
    | split

theorem placeSlot_steady {z : State} (slot : Nat) {s : State} (hz : Steady z s) : Steady z (placeSlot s slot) := by
  unfold placeSlot
  repeat' first
    | with_reducible assumption
    | with_reducible apply setMap_steady
    | with_reducible apply raiseDev_steady
    | with_reducible apply raiseEvent_steady
    | split

theorem drainHot_steady {z : State} (m : Nat) {s : State} (hz : Steady z s) : Steady z (drainHot s m) := by
  unfold drainHot
  repeat' first
    | with_reducible assumption
    | with_reducible intro _
    | (extract_lets +onlyGivenNames x; refine Steady.cut (x := x) ?_ (fun hx => ?_); (on_goal 1 => subst x); (on_goal 2 => clear_value x))
    | (extract_lets +onlyGivenNames x; clear_value x)
    | with_reducible apply Steady.ite
    | with_reducible apply Steady.foldl
    | with_reducible apply modStack_steady
    | with_reducible apply settleDrain_steady
    | with_reducible apply placeSlot_steady
    | with_reducible apply keepParked_steady

theorem trainChannel_steady {z : State} (trained : BitVec 384) (c : Nat) {s : State} (hz : Steady z s) : Steady z
    (trainChannel trained s c) := by
  unfold trainChannel
  repeat' first
    | with_reducible assumption
    | with_reducible intro _
    | with_reducible apply Steady.ite
    | with_reducible apply modFlash_steady
    | with_reducible apply channelOutEvent_steady
    | with_reducible apply modMemChan_steady
    | with_reducible apply markOut_steady
    | exact ⟨Nat.le_refl _, Nat.le_refl _⟩

theorem coldMemory_steady {z : State} (trained : BitVec 384) {s : State} (hz : Steady z s) : Steady z (coldMemory trained s) := by
  unfold coldMemory
  repeat' first
    | with_reducible assumption
    | with_reducible intro _
    | (extract_lets +onlyGivenNames x; refine Steady.cut (x := x) ?_ (fun hx => ?_); (on_goal 1 => subst x); (on_goal 2 => clear_value x))
    | with_reducible apply Steady.foldl
    | with_reducible apply trainChannel_steady
    | with_reducible apply modMemory_steady
    | with_reducible apply placeSlot_steady
    | with_reducible apply drainHot_steady
    | with_reducible apply modFlash_steady
    | exact (rfl : memWf [] = true)
    | exact ⟨Nat.le_refl _, Nat.le_refl _⟩

theorem retrainInPlace_steady {z : State} (m : Nat) {s : State} (hz : Steady z s) : Steady z (retrainInPlace s m) := by
  unfold retrainInPlace
  repeat' first
    | with_reducible assumption
    | with_reducible intro _
    | (extract_lets +onlyGivenNames x; refine Steady.cut (x := x) ?_ (fun hx => ?_); (on_goal 1 => subst x); (on_goal 2 => clear_value x))
    | (extract_lets +onlyGivenNames x; clear_value x)
    | with_reducible apply Steady.ite
    | with_reducible apply modStack_steady
    | with_reducible apply modFlash_steady
    | exact ⟨Nat.le_refl _, Nat.le_refl _⟩

theorem warmMap_steady {z : State}  {s : State} (hz : Steady z s) : Steady z (warmMap s) := by
  unfold warmMap
  repeat' first
    | with_reducible assumption
    | with_reducible intro _
    | (extract_lets +onlyGivenNames x; refine Steady.cut (x := x) ?_ (fun hx => ?_); (on_goal 1 => subst x); (on_goal 2 => clear_value x))
    | (extract_lets +onlyGivenNames x; clear_value x)
    | with_reducible apply Steady.foldl
    | with_reducible apply modMemory_steady
    | with_reducible apply queueMoves_steady
    | with_reducible apply startMoves_steady

theorem endPass_steady {z : State} (p : Pass) (detail : BitVec 16) (result0 : Word) {s : State} (hz : Steady z s) : Steady z
    (endPass p detail result0 s) := by
  unfold endPass
  repeat' first
    | with_reducible assumption
    | (extract_lets +onlyGivenNames x; refine Steady.cut (x := x) ?_ (fun hx => ?_); (on_goal 1 => subst x); (on_goal 2 => clear_value x))
    | with_reducible apply Steady.ite
    | with_reducible apply dropPass_steady
    | with_reducible apply spoilDst_steady
    | with_reducible apply finish_steady
    | split

theorem endRun_steady {z : State} (u : Run) (detail : BitVec 16) (result0 : Word) {s : State} (hz : Steady z s) : Steady z
    (endRun u detail result0 s) := by
  unfold endRun
  repeat' first
    | with_reducible assumption
    | (extract_lets +onlyGivenNames x; refine Steady.cut (x := x) ?_ (fun hx => ?_); (on_goal 1 => subst x); (on_goal 2 => clear_value x))
    | with_reducible apply finish_steady
    | split
    | fail_if_no_progress with_reducible apply Steady.record

theorem undoStart_steady {z : State} (g : Group) {s : State} (hz : Steady z s) : Steady z (undoStart s g) := by
  unfold undoStart
  repeat' first
    | with_reducible assumption
    | with_reducible intro _
    | (extract_lets +onlyGivenNames x; refine Steady.cut (x := x) ?_ (fun hx => ?_); (on_goal 1 => subst x); (on_goal 2 => clear_value x))
    | (extract_lets +onlyGivenNames x; clear_value x)
    | with_reducible apply Steady.foldl
    | with_reducible apply endRun_steady
    | with_reducible apply endPass_steady
    | with_reducible apply closeStep_steady
    | with_reducible apply writeRecord_steady
    | with_reducible apply undoOpen_steady
    | split

theorem keepRun_steady {z : State} (u : Run) {s : State} (hz : Steady z s) : Steady z (keepRun s u) := by
  unfold keepRun
  repeat' first
    | with_reducible assumption
    | with_reducible apply Steady.ite
    | with_reducible apply modRun_steady
    | with_reducible apply endRun_steady
    | with_reducible apply spoilOutputs_steady

theorem warmMemory_steady {z : State}  {s : State} (hz : Steady z s) : Steady z (warmMemory s) := by
  unfold warmMemory
  repeat' first
    | with_reducible assumption
    | with_reducible intro _
    | (extract_lets +onlyGivenNames x; refine Steady.cut (x := x) ?_ (fun hx => ?_); (on_goal 1 => subst x); (on_goal 2 => clear_value x))
    | (extract_lets +onlyGivenNames x; clear_value x)
    | with_reducible apply Steady.foldl
    | with_reducible apply retrainInPlace_steady
    | with_reducible apply drainHot_steady
    | with_reducible apply warmMap_steady
    | with_reducible apply undoStart_steady
    | with_reducible apply endPass_steady
    | with_reducible apply modFlash_steady
    | with_reducible apply modNmu_steady
    | with_reducible apply keepRun_steady
    | exact ⟨Nat.le_refl _, Nat.le_refl _⟩
    | fail_if_no_progress with_reducible apply Steady.record

theorem coldCores_steady {z : State} (good : BitVec 192) {s : State} (hz : Steady z s) : Steady z (coldCores good s) := by
  unfold coldCores
  repeat' first
    | with_reducible assumption
    | with_reducible intro _
    | (extract_lets +onlyGivenNames x; refine Steady.cut (x := x) ?_ (fun hx => ?_); (on_goal 1 => subst x); (on_goal 2 => clear_value x))
    | (extract_lets +onlyGivenNames x; clear_value x)
    | with_reducible apply Steady.ite
    | with_reducible apply modFlash_steady
    | with_reducible apply raiseDev_steady
    | with_reducible apply raiseEvent_steady
    | exact ⟨Nat.le_refl _, Nat.le_refl _⟩

theorem warmCores_steady {z : State} (good : BitVec 192) {s : State} (hz : Steady z s) : Steady z (warmCores good s) := by
  unfold warmCores
  repeat' first
    | with_reducible assumption
    | with_reducible intro _
    | with_reducible apply Steady.foldl
    | with_reducible apply fenceCore_steady

theorem startEarly_steady {z : State} (r : DescRec) {s : State} (hz : Steady z s) : Steady z (startEarly s r) := by
  unfold startEarly
  repeat' first
    | with_reducible assumption
    | with_reducible intro _
    | with_reducible apply Steady.ite
    | with_reducible apply modDesc_steady
    | with_reducible apply checked_steady
    | with_reducible apply startOf_steady

theorem takeBells_steady {z : State} (p : Port) {s : State} (hz : Steady z s) : Steady z (takeBells p s) := by
  unfold takeBells
  repeat' first
    | with_reducible assumption
    | with_reducible intro _
    | (extract_lets +onlyGivenNames x; refine Steady.cut (x := x) ?_ (fun hx => ?_); (on_goal 1 => subst x); (on_goal 2 => clear_value x))
    | (extract_lets +onlyGivenNames x; clear_value x)
    | with_reducible apply Steady.ite
    | with_reducible apply Steady.foldl
    | with_reducible apply modPort_steady
    | with_reducible apply takeBell_steady
    | split

theorem countTx_steady {z : State} (begun : List OutSeg) {s : State} (hz : Steady z s) : Steady z (countTx begun s) := by
  unfold countTx
  repeat' first
    | with_reducible assumption
    | with_reducible apply countCard_steady

theorem settleCredit_steady {z : State} (l : Nat) {s : State} (hz : Steady z s) : Steady z (settleCredit l s) := by
  unfold settleCredit
  repeat' first
    | with_reducible assumption
    | (extract_lets +onlyGivenNames x; clear_value x)
    | with_reducible apply modLink_steady

theorem tickWindow_steady {z : State} (l n r : Nat) {s : State} (hz : Steady z s) : Steady z (tickWindow l n r s) := by
  unfold tickWindow
  repeat' first
    | with_reducible assumption
    | (extract_lets +onlyGivenNames x; refine Steady.cut (x := x) ?_ (fun hx => ?_); (on_goal 1 => subst x); (on_goal 2 => clear_value x))
    | (extract_lets +onlyGivenNames x; clear_value x)
    | with_reducible apply Steady.ite
    | with_reducible apply modLink_steady
    | with_reducible apply judgeAvoid_steady

theorem putFrame_steady {z : State} (l : Nat) (type first : Nat) (body : List Byte) (k : Link) {s : State}
    (hz : Steady z s) : Steady z (putFrame l type first body k s) := by
  unfold putFrame
  repeat' first
    | with_reducible assumption
    | (extract_lets +onlyGivenNames x; clear_value x)
    | with_reducible apply tickWindow_steady
    | fail_if_no_progress with_reducible apply Steady.record

theorem resendFrame_steady {z : State} (l : Nat) (x : W32 × Frame × Nat) (rest : List (W32 × Frame × Nat))
    {s : State} (hz : Steady z s) : Steady z (resendFrame l x rest s) := by
  unfold resendFrame
  repeat' first
    | with_reducible assumption
    | (extract_lets +onlyGivenNames x; refine Steady.cut (x := x) ?_ (fun hx => ?_); (on_goal 1 => subst x); (on_goal 2 => clear_value x))
    | (extract_lets +onlyGivenNames x; clear_value x)
    | with_reducible apply modLink_steady
    | with_reducible apply tickWindow_steady
    | fail_if_no_progress with_reducible apply Steady.record

theorem maybeRekey_steady {z : State} (l before : Nat) {s : State} (hz : Steady z s) : Steady z (maybeRekey l before s) := by
  unfold maybeRekey
  repeat' first
    | with_reducible assumption
    | (extract_lets +onlyGivenNames x; clear_value x)
    | with_reducible apply Steady.ite
    | with_reducible apply askKex_steady

theorem sendFrame_steady {z : State} (l : Nat) {s : State} (hz : Steady z s) : Steady z (sendFrame l s) := by
  unfold sendFrame
  repeat' first
    | with_reducible assumption
    | (extract_lets +onlyGivenNames x; refine Steady.cut (x := x) ?_ (fun hx => ?_); (on_goal 1 => subst x); (on_goal 2 => clear_value x))
    | (extract_lets +onlyGivenNames x; clear_value x)
    | with_reducible apply Steady.ite
    | with_reducible apply resendFrame_steady
    | with_reducible apply putFrame_steady
    | with_reducible apply countTx_steady
    | with_reducible apply maybeRekey_steady
    | with_reducible apply releaseTransit_steady
    | with_reducible apply settleHold_steady
    | with_reducible apply settleCredit_steady
    | split

theorem ackSegs_steady {z : State} (l : Nat) (gone : Word → Bool) {s : State} (hz : Steady z s) : Steady z (ackSegs l gone s) := by
  unfold ackSegs
  repeat' first
    | with_reducible assumption
    | with_reducible intro _
    | (extract_lets +onlyGivenNames x; clear_value x)
    | with_reducible apply Steady.ite
    | with_reducible apply Steady.foldl
    | with_reducible apply modPass_steady
    | with_reducible apply modLink_steady

theorem takeHeader_steady {z : State} (l : Nat) (f : Frame) {s : State} (hz : Steady z s) : Steady z (takeHeader l f s) := by
  unfold takeHeader
  repeat' first
    | with_reducible assumption
    | (extract_lets +onlyGivenNames x; refine Steady.cut (x := x) ?_ (fun hx => ?_); (on_goal 1 => subst x); (on_goal 2 => clear_value x))
    | (extract_lets +onlyGivenNames x; clear_value x)
    | with_reducible apply Steady.ite
    | with_reducible apply modLink_steady
    | with_reducible apply settleCredit_steady
    | with_reducible apply ackSegs_steady
    | with_reducible apply dropLink_steady

theorem loseFrame_steady {z : State} (l : Nat) {s : State} (hz : Steady z s) : Steady z (loseFrame l s) := by
  unfold loseFrame
  repeat' first
    | with_reducible assumption
    | with_reducible apply modLink_steady

theorem putFar_steady {z : State} (l type first shard orig stripe : Nat) (keyId : Bool) (parity : Nat)
    (body : List Byte) {s : State} (hz : Steady z s) : Steady z (putFar l type first shard orig stripe keyId parity body s) := by
  unfold putFar
  repeat' first
    | with_reducible assumption
    | (extract_lets +onlyGivenNames x; clear_value x)
    | fail_if_no_progress with_reducible apply Steady.record

theorem sendRepair_steady {z : State} (l : Nat) (x : Nat × Nat) (rest : List (Nat × Nat)) {s : State}
    (hz : Steady z s) : Steady z (sendRepair l x rest s) := by
  unfold sendRepair
  repeat' first
    | with_reducible assumption
    | (extract_lets +onlyGivenNames x; refine Steady.cut (x := x) ?_ (fun hx => ?_); (on_goal 1 => subst x); (on_goal 2 => clear_value x))
    | (extract_lets +onlyGivenNames x; clear_value x)
    | with_reducible apply modLink_steady
    | with_reducible apply putFar_steady
    | split

theorem sendShard_steady {z : State} (l type first : Nat) (body : List Byte) (k : Link) {s : State}
    (hz : Steady z s) : Steady z (sendShard l type first body k s) := by
  unfold sendShard
  repeat' first
    | with_reducible assumption
    | (extract_lets +onlyGivenNames x; clear_value x)
    | with_reducible apply putFar_steady
    | fail_if_no_progress with_reducible apply Steady.record

theorem sendParity_steady {z : State} (l : Nat) {s : State} (hz : Steady z s) : Steady z (sendParity l s) := by
  unfold sendParity
  repeat' first
    | with_reducible assumption
    | (extract_lets +onlyGivenNames x; refine Steady.cut (x := x) ?_ (fun hx => ?_); (on_goal 1 => subst x); (on_goal 2 => clear_value x))
    | (extract_lets +onlyGivenNames x; clear_value x)
    | with_reducible apply putFar_steady
    | with_reducible apply modLink_steady

theorem sendFar_steady {z : State} (l : Nat) {s : State} (hz : Steady z s) : Steady z (sendFar l s) := by
  unfold sendFar
  repeat' first
    | with_reducible assumption
    | (extract_lets +onlyGivenNames x; clear_value x)
    | with_reducible apply Steady.ite
    | with_reducible apply sendRepair_steady
    | with_reducible apply sendParity_steady
    | with_reducible apply sendShard_steady
    | with_reducible apply settleHold_steady
    | with_reducible apply countTx_steady
    | split

theorem judgeDelays_steady {z : State} (l : Nat) {s : State} (hz : Steady z s) : Steady z (judgeDelays l s) := by
  unfold judgeDelays
  repeat' first
    | with_reducible assumption
    | (extract_lets +onlyGivenNames x; refine Steady.cut (x := x) ?_ (fun hx => ?_); (on_goal 1 => subst x); (on_goal 2 => clear_value x))
    | (extract_lets +onlyGivenNames x; clear_value x)
    | with_reducible apply Steady.ite
    | with_reducible apply raiseFar_steady
    | with_reducible apply raiseEvent_steady
    | with_reducible apply modLink_steady

theorem deliverFar_steady {z : State} (l : Nat) {s : State} (hz : Steady z s) : Steady z (deliverFar l s) := by
  unfold deliverFar
  repeat' first
    | with_reducible assumption
    | with_reducible apply modLink_steady

theorem askRepair_steady {z : State} (l stripe : Nat) {s : State} (hz : Steady z s) : Steady z (askRepair l stripe s) := by
  unfold askRepair
  repeat' first
    | with_reducible assumption
    | (extract_lets +onlyGivenNames x; clear_value x)
    | with_reducible apply sendItem_steady
    | with_reducible apply modLink_steady

theorem reselect_steady {z : State}  {s : State} (hz : Steady z s) : Steady z (reselect s) := by
  unfold reselect
  repeat' first
    | with_reducible assumption
    | (extract_lets +onlyGivenNames x; clear_value x)
    | with_reducible apply Steady.ite
    | with_reducible apply modTime_steady

theorem smbRead_steady {z : State} (bs : List Byte) {s : State} (hz : Steady z s) : Steady z (smbRead bs s) := by
  unfold smbRead
  repeat' first
    | with_reducible assumption
    | with_reducible apply Steady.ite
    | with_reducible apply modMod_steady

theorem smbSensor_steady {z : State} (n : Nat) {s : State} (hz : Steady z s) : Steady z (smbSensor n s) := by
  unfold smbSensor
  repeat' first
    | with_reducible assumption
    | with_reducible apply drawFree_steady
    | with_reducible apply smbRead_steady

theorem setFwSlot_steady {z : State} (b : Bool) (x : FwImage) {s : State} (hz : Steady z s) : Steady z (setFwSlot b x s) := by
  unfold setFwSlot
  repeat' first
    | with_reducible assumption
    | with_reducible intro _
    | with_reducible apply modFlash_steady
    | exact ⟨Nat.le_refl _, Nat.le_refl _⟩
    | split

theorem endFwStage_steady {z : State} (p : Port) (req : List Byte) {s : State} (hz : Steady z s) : Steady z (endFwStage p req s).2 := by
  unfold endFwStage
  repeat' first
    | with_reducible assumption
    | (extract_lets +onlyGivenNames x; clear_value x)
    | with_reducible apply raiseMbx_steady
    | with_reducible apply setFwSlot_steady
    | split

theorem endFwActivate_steady {z : State}  {s : State} (hz : Steady z s) : Steady z (endFwActivate s).2 := by
  unfold endFwActivate
  repeat' first
    | with_reducible assumption
    | with_reducible intro _
    | with_reducible apply modFlash_steady
    | exact ⟨Nat.le_refl _, Nat.le_refl _⟩
    | split

theorem endFwConfirm_steady {z : State} {s : State} (hz : Steady z s) : Steady z (endFwConfirm s).2 := by
  unfold endFwConfirm
  split
  · refine hz.trans ⟨rfl, ?_, Nat.le_succ _, fun w => w⟩
    have h1 := s.flash.minSvn.isLt
    have h2 := (fwSlot s.mod.fwRunningB s).svn.isLt
    have h3 : max s.flash.minSvn.toNat (fwSlot s.mod.fwRunningB s).svn.toNat < 2 ^ 16 := Nat.max_lt.2 ⟨h1, h2⟩
    show s.flash.minSvn.toNat ≤ (BitVec.ofNat 16 (max s.flash.minSvn.toNat (fwSlot s.mod.fwRunningB s).svn.toNat)).toNat
    rw [BitVec.toNat_ofNat, Nat.mod_eq_of_lt h3]
    exact Nat.le_max_left _ _
  · exact hz

theorem answerAttest_steady {z : State} (p : Port) (req : List Byte) {s : State} (hz : Steady z s) : Steady z
    (answerAttest p req s).2 := by
  unfold answerAttest
  repeat' first
    | with_reducible assumption
    | (extract_lets +onlyGivenNames x; refine Steady.cut (x := x) ?_ (fun hx => ?_); (on_goal 1 => subst x); (on_goal 2 => clear_value x))
    | (extract_lets +onlyGivenNames x; clear_value x)
    | with_reducible apply drawFree_steady

theorem answerFwStatus_steady {z : State}  {s : State} (hz : Steady z s) : Steady z (answerFwStatus s).2 := by
  unfold answerFwStatus
  repeat' first
    | with_reducible assumption
    | with_reducible apply drawFree_steady

theorem startAnswer_steady {z : State} (p : Port) (opcode : Nat) (req : List Byte) {s : State} (hz : Steady z s) : Steady z
    (startAnswer p opcode req s).2 := by
  unfold startAnswer
  repeat' first
    | with_reducible assumption
    | with_reducible apply answerAttest_steady
    | with_reducible apply answerFwStatus_steady
    | split

theorem startFirmware_steady {z : State} (p : Port) {s : State} (hz : Steady z s) : Steady z (startFirmware p s).2 := by
  unfold startFirmware
  repeat' first
    | with_reducible assumption
    | with_reducible apply modMod_steady
    | split

theorem beginCommand_steady {z : State} (p : Port) (opcode len : Nat) (req : List Byte) {s : State}
    (hz : Steady z s) : Steady z (beginCommand p opcode len req s).2 := by
  unfold beginCommand
  repeat' first
    | with_reducible assumption
    | with_reducible apply startFirmware_steady
    | with_reducible apply startAnswer_steady
    | split

theorem mbxGo_steady {z : State} (p : Port) {s : State} (hz : Steady z s) : Steady z (mbxGo p s) := by
  unfold mbxGo
  repeat' first
    | with_reducible assumption
    | with_reducible intro _
    | (extract_lets +onlyGivenNames x; refine Steady.cut (x := x.2) ?_ (fun hx => ?_); (on_goal 1 => subst x); (on_goal 2 => clear_value x))
    | (extract_lets +onlyGivenNames x; clear_value x)
    | with_reducible apply Steady.ite
    | with_reducible apply raiseMbx_steady
    | with_reducible apply beginCommand_steady
    | with_reducible apply modPort_steady

theorem goCommand_steady {z : State} (opcode : BitVec 8) (p : Port) {s : State} (hz : Steady z s) : Steady z (goCommand opcode p s) := by
  unfold goCommand
  repeat' first
    | with_reducible assumption
    | with_reducible intro _
    | with_reducible apply Steady.ite
    | with_reducible apply regAccess_steady
    | with_reducible apply mbxGo_steady

theorem endCommand_steady {z : State} (p : Port) (opcode : BitVec 8) (req : List Byte) (outcome : Option MbxAnswer)
    {s : State} (hz : Steady z s) : Steady z (endCommand p opcode req outcome s).2 := by
  unfold endCommand
  repeat' first
    | with_reducible assumption
    | (extract_lets +onlyGivenNames x; refine Steady.cut (x := x) ?_ (fun hx => ?_); (on_goal 1 => subst x); (on_goal 2 => clear_value x))
    | with_reducible apply modMod_steady
    | with_reducible apply endFwStage_steady
    | with_reducible apply endFwActivate_steady
    | with_reducible apply endFwConfirm_steady
    | split

theorem mailboxEnd_steady {z : State} (p : Port) {s : State} (hz : Steady z s) : Steady z (mailboxEnd p s) := by
  unfold mailboxEnd
  repeat' first
    | with_reducible assumption
    | with_reducible intro _
    | (extract_lets +onlyGivenNames x; refine Steady.cut (x := x) ?_ (fun hx => ?_); (on_goal 1 => subst x); (on_goal 2 => clear_value x))
    | (extract_lets +onlyGivenNames x; refine Steady.cut (x := x.2) ?_ (fun hx => ?_); (on_goal 1 => subst x); (on_goal 2 => clear_value x))
    | (extract_lets +onlyGivenNames x; clear_value x)
    | with_reducible apply Steady.ite
    | with_reducible apply endCommand_steady
    | with_reducible apply modPort_steady
    | with_reducible apply sendMsix_steady
    | split

theorem takeCounts_steady {z : State} (p : Port) (off size v : Nat) {s : State} (hz : Steady z s) : Steady z
    (takeCounts p off size v s) := by
  unfold takeCounts
  repeat' first
    | with_reducible assumption
    | with_reducible intro _
    | (extract_lets +onlyGivenNames x; clear_value x)
    | with_reducible apply Steady.ite
    | with_reducible apply modPort_steady
    | with_reducible apply modLink_steady
    | with_reducible apply modStack_steady

theorem readAt_steady {z : State} (p : Port) (off size : Nat) {s : State} (hz : Steady z s) : Steady z (readAt p off size s) := by
  unfold readAt
  repeat' first
    | with_reducible assumption
    | with_reducible intro _
    | (extract_lets +onlyGivenNames x; refine Steady.cut (x := x) ?_ (fun hx => ?_); (on_goal 1 => subst x); (on_goal 2 => clear_value x))
    | (extract_lets +onlyGivenNames x; clear_value x)
    | with_reducible apply Steady.ite
    | with_reducible apply readsAs_steady
    | with_reducible apply endLatch_steady
    | with_reducible apply modPort_steady
    | with_reducible apply takeCounts_steady

theorem unmask_steady {z : State} (p : Port) (v : Nat) {s : State} (hz : Steady z s) : Steady z (unmask p v s) := by
  unfold unmask
  repeat' first
    | with_reducible assumption
    | with_reducible intro _
    | with_reducible apply Steady.ite
    | with_reducible apply sendMsix_steady
    | with_reducible apply modPort_steady

theorem writeMsix_steady {z : State} (p : Port) (off size v : Nat) {s : State} (hz : Steady z s) : Steady z
    (writeMsix p off size v s) := by
  unfold writeMsix
  repeat' first
    | with_reducible assumption
    | with_reducible intro _
    | (extract_lets +onlyGivenNames x; refine Steady.cut (x := x) ?_ (fun hx => ?_); (on_goal 1 => subst x); (on_goal 2 => clear_value x))
    | (extract_lets +onlyGivenNames x; clear_value x)
    | with_reducible apply Steady.ite
    | with_reducible apply modPort_steady
    | with_reducible apply unmask_steady

theorem writeRequest_steady {z : State} (p : Port) (off : Nat) (bs : List Byte) {s : State} (hz : Steady z s) : Steady z
    (writeRequest p off bs s) := by
  unfold writeRequest
  repeat' first
    | with_reducible assumption
    | with_reducible intro _
    | with_reducible apply modPort_steady

theorem writeMailbox_steady {z : State} (p : Port) (off size v raw : Nat) {s : State} (hz : Steady z s) : Steady z
    (writeMailbox p off size v raw s) := by
  unfold writeMailbox
  repeat' first
    | with_reducible assumption
    | with_reducible intro _
    | with_reducible apply Steady.ite
    | with_reducible apply writeRequest_steady
    | with_reducible apply modPort_steady
    | with_reducible apply mbxGo_steady

theorem writePort_mem (off v : Nat) (q : PortSt) : (writePort off v q).mem = q.mem := by
  unfold writePort
  repeat' split
  all_goals rfl

theorem writeAdmin_mem (off v : Nat) (q : PortSt) : (writeAdmin off v q).mem = q.mem := by
  unfold writeAdmin
  repeat' split
  all_goals rfl

theorem writeAnswered_steady {z : State} (p : Port) (off size value : Nat) {s : State} (hz : Steady z s) : Steady z (writeAnswered p off size value s) := by
  unfold writeAnswered
  extract_lets at8 v raw l
  exact Steady.ite (writeMsix_steady _ _ _ _ hz) (Steady.ite (modPort_steady (fun q h => by rw [writePort_mem]; exact h) hz)
    (Steady.ite (Steady.ite (modLink_steady hz) hz) (Steady.ite (writeMailbox_steady _ _ _ _ _ hz)
      (Steady.ite (modPort_steady (fun _ h => h) hz) hz))))

theorem writeAt_steady {z : State} (p : Port) (off size value : Nat) {s : State} (hz : Steady z s) : Steady z
    (writeAt p off size value s) := by
  unfold writeAt
  refine Steady.ite hz ?_
  extract_lets s' at8
  have h' : Steady z s' := endLatch_steady _ hz
  exact Steady.ite h' (Steady.ite (Steady.ite h' (modMod_steady h')) (Steady.ite
    (Steady.ite h' (modPort_steady (fun q h => by rw [writeAdmin_mem]; exact h) h')) (Steady.ite (writeAnswered_steady _ _ _ _ h') h')))

end Sys2Proof.Machine
end

