-- ==== Sys2Proof/Tests/Slice0.lean ====
section
/-!
SUPPORT. Tests/Slice0.lean: the author's own tests. The well-formedness checks each refuse an ill-formed term; a few single steps have
the results that the spec's tables give; and for every statement with hypotheses a concrete state and operands meet them, clause by
clause (theorems witness_<statement>).
-/

namespace Sys2Proof.Tests

open Sys2Proof Sys2Proof.Machine

set_option Elab.async false

/-! ## Small states -/

/-- A lesson word of a MAJOR and FUNC with further fields. -/
def word (major func : Nat) (rest : Nat := 0) : Word := BitVec.ofNat 64 (major + func * 2 ^ 6 + rest)

/-- A place's scalar state about to run a word and then a NOP. -/
def seqAt (w : Word) : Seq := { running := true, code := [w, word 0x05 0x00] }

/-- Core 0 about to run a word, with changes to the core. -/
def onCore (w : Word) (f : Core → Core := id) : State := { cores := [(0, f { seq := seqAt w })] }

/-- A ready module. -/
def ready : State := { mod := { stage := 7, ready := true, pwrGood := true } }

/-! ## Well-formed terms -/

/-- A lesson word of another MAJOR, or of another FUNC, is no term of its row (Table 06-4). -/
theorem test_illFormed_word : (Instr.saluAdd (.core 0) (word 0x02 0x00)).wellFormed = false ∧
    (Instr.saluAdd (.core 0) (word 0x01 0x01)).wellFormed = false ∧ (Instr.saluAdd (.core 0) (word 0x01 0x00)).wellFormed = true := by
  decide +kernel

/-- UNDEFINED_OPCODE takes no opcode of Tables 02-8 and 02-9. -/
theorem test_illFormed_opcode (d : Desc) : (Instr.undefinedOpcode 0x0B d).wellFormed = false ∧
    (Instr.undefinedOpcode 0x49 d).wellFormed = false ∧ (Instr.undefinedOpcode 0x0E d).wellFormed = true :=
  ⟨rfl, rfl, rfl⟩

/-- No word of the table spells a command, and what is put in front of the queue is taken first. -/
theorem test_withFetchWord (nbits w : Nat) : decodeTableWord nbits w = none ∧ State.reset.withFetchWord nbits w = State.reset := ⟨rfl, rfl⟩

/-! ## Hypotheses met: scalar lesson instructions -/

theorem witness_ScalarArithmeticWritesResult :
    (∀ x ∈ [(0x01, 0x00), (0x01, 0x01), (0x01, 0x02), (0x01, 0x03), (0x01, 0x04), (0x01, 0x05), (0x01, 0x06), (0x01, 0x07), (0x01, 0x08),
        (0x01, 0x09), (0x01, 0x0A), (0x01, 0x0B), (0x01, 0x0C), (0x01, 0x0D), (0x01, 0x0E), (0x01, 0x0F), (0x02, 0x00), (0x02, 0x01),
        (0x02, 0x02), (0x02, 0x03), (0x02, 0x04), (0x02, 0x05)],
      NextInside (.core 0) (onCore (word x.1 x.2)) ∧ Issues (.core 0) (word x.1 x.2) x.1 x.2 (onCore (word x.1 x.2))) ∧
    (NextInside (.link 0) {} ∧ Issues (.link 0) (word 0x01 0x00) 0x01 0x00 {}) := by
  simp only [NextInside, Issues, TargetInside]
  decide +kernel

theorem witness_ImmediateAddressAndTimeInstructions :
    ∀ x ∈ [(0x03, 0x00), (0x03, 0x01), (0x06, 0x03), (0x07, 0x00), (0x07, 0x05), (0x06, 0x00), (0x06, 0x01), (0x06, 0x02), (0x05, 0x00)],
      NextInside (.core 0) (onCore (word x.1 x.2)) ∧ Issues (.core 0) (word x.1 x.2) x.1 x.2 (onCore (word x.1 x.2)) := by
  simp only [NextInside, Issues, TargetInside]
  decide +kernel

/-- Each branch taken and not taken: s0 is zero, so BEQZ and BGEZ are taken and BNEZ and BLTZ are not; the others with s0 all ones. -/
theorem witness_BranchesAndJumpsReachTheirTarget :
    (∀ x ∈ [(0x04, 0x00), (0x04, 0x01), (0x04, 0x02), (0x04, 0x03), (0x04, 0x04), (0x05, 0x01), (0x05, 0x02), (0x05, 0x03)],
      let w := word x.1 x.2 (2 ^ 32)
      offsetTarget (.core 0) (sfld w 32 32) (onCore w) = 1 ∧ TargetInside (.core 0) 1 (onCore w) ∧ NextInside (.core 0) (onCore w) ∧
        Issues (.core 0) w x.1 x.2 (onCore w) ∧ TargetInside (.core 0) (sreg (seqOf (.core 0) (onCore w)) (fld w 12 5)).toNat (onCore w)) ∧
    (sreg (seqOf (.core 0) (onCore (word 0x04 0x00))) 0 = 0 ∧ (seqAt (word 0x04 0x04)).tok.toList.getD 0 true = true) := by
  simp only [NextInside, Issues, TargetInside]
  decide +kernel

theorem witness_SpecialInstructionsReadAndWrite :
    (∀ x ∈ [0x01, 0x02, 0x03, 0x04], NextInside (.core 0) (onCore (word 0x07 x)) ∧ Issues (.core 0) (word 0x07 x) 0x07 x (onCore (word 0x07 x))) ∧
    (∀ sel ∈ [0, 1, 2, 3, 4], fld (word 0x07 0x01 (sel * 2 ^ 17)) 17 3 = sel ∧
      Issues (.link 3) (word 0x07 0x01 (sel * 2 ^ 17)) 0x07 0x01 {}) ∧
    (coreOf 0 (onCore 0 fun k => { k with reseed := some 5 })).reseed = some 5 := by
  simp only [NextInside, Issues, TargetInside]
  decide +kernel

/-- An access of eight bytes at the scratch's first and last word. -/
theorem witness_ScratchLoadAndStore :
    (∀ f ∈ [0x00, 0x01], ∀ a ∈ [0, 4194296],
      let w := word 0x08 f (3 * 2 ^ 21 + a * 2 ^ 32)
      NextInside (.core 0) (onCore w) ∧ smemAddr (.core 0) w (onCore w) = some (a, 8) ∧ Issues (.core 0) w 0x08 f (onCore w)) := by
  simp only [NextInside, Issues, TargetInside]
  decide +kernel

/-- A core in a run, its code the word alone. -/
def inRun (w : Word) : State :=
  { cores := [(0, { seq := { running := true, code := [w] }, run := some 7 })]
    runs := [{ id := 7, desc := 0, slot := 2, cores := [0], entry := 0, code := [w], dataDesk := 0, data := [], args := [], ins := [], outs := []
               group := none, step := none, begun := true }] }

theorem witness_LessonsEnd :
    (Issues (.link 0) (word 0x05 0x04) 0x05 0x04 {}) ∧
    (let s := onCore (word 0x05 0x04)
     Issues (.core 0) (word 0x05 0x04) 0x05 0x04 s ∧ coreIdle (coreOf 0 s) = true ∧ (coreOf 0 s).run = none ∧ fillStuck (coreOf 0 s) = false) ∧
    (let s := inRun (word 0x05 0x00)
     (coreOf 0 s).run = some 7 ∧ (runOf 7 s).map (fun u => u.stop) = some none ∧ Issues (.core 0) (word 0x05 0x00) 0x05 0x00 s ∧
      ¬ NextInside (.core 0) s) ∧
    (let w := word 0x05 0x01 (0xFFFFFFFF * 2 ^ 32)
     Issues (.core 0) w 0x05 0x01 (inRun w) ∧ offsetTarget (.core 0) (sfld w 32 32) (inRun w) = -1) := by
  simp only [NextInside, Issues, TargetInside]
  decide +kernel

/-! ## Hypotheses met: vector lesson instructions -/

theorem witness_FloatLaneOperations :
    ∀ f ∈ [0x00, 0x01, 0x02, 0x03, 0x06, 0x07, 0x08, 0x09, 0x0A, 0x0B, 0x0C, 0x0D, 0x0E, 0x0F, 0x10], ∀ t ∈ [0x01, 0x02, 0x03],
      let w := word 0x20 f (t * 2 ^ 32)
      NextInside (.core 0) (onCore w) ∧ floatType (vType w) = true ∧ Issues (.core 0) w 0x20 f (onCore w) := by
  simp only [NextInside, Issues, TargetInside]
  decide +kernel

theorem witness_IntegerAndBitLaneOperations :
    (∀ f ∈ [0x14, 0x15, 0x16, 0x17, 0x18, 0x20], let w := word 0x20 f (0x0B * 2 ^ 32)
      NextInside (.core 0) (onCore w) ∧ vType w = 0x0B ∧ Issues (.core 0) w 0x20 f (onCore w)) ∧
    (∀ f ∈ [0x19, 0x1A, 0x1B, 0x1C, 0x1D, 0x1E, 0x13, 0x1F, 0x21, 0x04, 0x05], ∀ t ∈ [0x01, 0x02, 0x03, 0x0B], let w := word 0x20 f (t * 2 ^ 32)
      NextInside (.core 0) (onCore w) ∧ arithType (vType w) = true ∧ Issues (.core 0) w 0x20 f (onCore w)) := by
  simp only [NextInside, Issues, TargetInside]
  decide +kernel

theorem witness_CompareAndMaskOperations :
    (∀ cond ∈ [0, 1, 2, 3, 4], let w := word 0x20 0x12 (0x01 * 2 ^ 32 + cond * 2 ^ 47)
      NextInside (.core 0) (onCore w) ∧ arithType (vType w) = true ∧ fld w 47 4 = cond ∧ Issues (.core 0) w 0x20 0x12 (onCore w)) ∧
    (∀ f ∈ [0x22, 0x23, 0x24, 0x25], let w := word 0x20 f (7 * 2 ^ 17 + 7 * 2 ^ 22)
      vA w < 8 ∧ vB w < 8 ∧ NextInside (.core 0) (onCore w) ∧ Issues (.core 0) w 0x20 f (onCore w)) := by
  simp only [NextInside, Issues, TargetInside]
  decide +kernel

/-- RAND in both types; CVT rounding to nearest with OVF into E4M3, and stochastically into BF16. -/
theorem witness_RandomDrawsAndConversions :
    (∀ t ∈ [0x0B, 0x01], let w := word 0x20 0x26 (t * 2 ^ 32)
      NextInside (.core 0) (onCore w) ∧ vType w = t ∧ (coreOf 0 (onCore w)).reseed = none ∧ Issues (.core 0) w 0x20 0x26 (onCore w)) ∧
    (∀ x ∈ [(0, 1, 0x04), (4, 0, 0x02)], let w := word 0x20 0x11 (0x01 * 2 ^ 32 + x.1 * 2 ^ 39 + x.2.1 * 2 ^ 42 + x.2.2 * 2 ^ 43)
      NextInside (.core 0) (onCore w) ∧ arithType (vType w) = true ∧ cvtTarget (fld w 43 4) = true ∧ fld w 39 3 ≤ 4 ∧
        (fld w 42 1 = 1 → ovfAllowed (fld w 43 4) = true) ∧ (coreOf 0 (onCore w)).reseed = none ∧ Issues (.core 0) w 0x20 0x11 (onCore w)) := by
  simp only [NextInside, Issues, TargetInside]
  decide +kernel

/-- REDUCE with m0, all ones, and with m1, empty. -/
theorem witness_ReductionsNormalisationAndTile :
    (∀ op ∈ [0, 1, 2, 3], ∀ m ∈ [0, 1], let w := word 0x20 0x27 (0x01 * 2 ^ 32 + m * 2 ^ 36 + op * 2 ^ 47)
      NextInside (.core 0) (onCore w) ∧ arithType (vType w) = true ∧ fld w 47 4 ≤ 3 ∧ Issues (.core 0) w 0x20 0x27 (onCore w) ∧
        (mreg (coreOf 0 (onCore w)).vec (vMask w) = 0 ↔ m = 1)) ∧
    (∀ f ∈ [0x2A, 0x2B], let w := word 0x20 f (28 * 2 ^ 22)
      vB w % 4 = 0 ∧ NextInside (.core 0) (onCore w) ∧ Issues (.core 0) w 0x20 f (onCore w)) := by
  simp only [NextInside, Issues, TargetInside]
  decide +kernel

theorem witness_SoftmaxInit_SoftmaxStep : ∀ f ∈ [0x28, 0x29], ∀ b ∈ [0, 28], let w := word 0x20 f (b * 2 ^ 12)
    NextInside (.core 0) (onCore w) ∧ vD w % 4 = 0 ∧ Issues (.core 0) w 0x20 f (onCore w) := by
  simp only [NextInside, Issues, TargetInside]
  decide +kernel

/-- LOAD and STORE of FP32 as FP32, to nearest and stochastically, at the Desk's first and last span. -/
theorem witness_LoadAndStoreMoveTheDesk : ∀ f ∈ [0x00, 0x01], ∀ r ∈ [0, 4], ∀ a ∈ [0, 4193792],
    let w := word 0x21 f (0x01 * 2 ^ 22 + 0x01 * 2 ^ 26 + r * 2 ^ 33 + a * 2 ^ 40)
    let s := onCore w
    NextInside (.core 0) s ∧ Issues (.core 0) w 0x21 f s ∧ arithType (mType w) = true ∧ loadFmt (mFmt w) = true ∧ storeFmt (mFmt w) = true ∧
      mRound w ≤ 4 ∧ mOvf w = false ∧ (ssbElem (mFmt w)).isSome = false ∧ vmemSpans (coreOf 0 s).seq w = some [(a, 512)] ∧
      a + 512 ≤ 4194304 ∧ fenceMeets (coreOf 0 s) a 512 = false ∧ (coreOf 0 s).reseed = none := by
  simp only [NextInside, Issues, TargetInside]
  decide +kernel

/-- A Tile Queue entry of one accumulator. -/
def entry (st : EntrySt) (rows next : Nat) : Entry :=
  { seq := 3, acc := 0, rows := rows, data := [], flags := 0, trow := 0, tcol := 0, st := st, open' := false, used0 := true, used1 := false
    bank := false, next := next }

/-- The first row and the last. -/
theorem witness_PopTakesTheNextRow :
    (∀ x ∈ [(EntrySt.visible, 0), (.popping, 1)], let w := word 0x21 0x02
      let s := onCore w fun k => { k with tile := { k.tile with entries := [entry x.1 2 x.2] } }
      NextInside (.core 0) s ∧ Issues (.core 0) w 0x21 0x02 s ∧ (accEntries (fld w 37 3) (coreOf 0 s).tile).head? = some (entry x.1 2 x.2) ∧
        poppable (entry x.1 2 x.2) = true ∧ ((coreOf 0 s).tile.entries.any fun x => x.acc == fld w 37 3 && x.st == .draining) = false) ∧
    (let s := onCore 0 fun k => { k with tile := { k.tile with entries := [entry .visible 2 0] }, waitPop := some (31, 0) }
     (coreOf 0 s).waitPop = some (31, 0) ∧ ((coreOf 0 s).tile.entries.filter fun x => x.acc == 0).head? = some (entry .visible 2 0)) := by
  simp only [NextInside, Issues, TargetInside]
  decide +kernel

/-! ## A core in a run of a channel -/

/-- A compute channel of slot 2 with core 0, page 0 and its expert page in the fast tier, and ring 0 of 64 entries with one to fetch. -/
def chan2 : Chan :=
  { handle := mkHandle 1 1 2, cls := 1, owner := .A, cores := [0]
    pages := [(0, { kind := .fast 1, readOnly := false }), (expertPageVa / pageBytes, { kind := .fast 2, readOnly := false })]
    rings := Vector.replicate 8 { base := 0x1000, log2 := 6, weight := 1, tail := 1 }, cq := { base := 0x2000, log2 := 6 } }

/-- A descriptor of channel 2. -/
def desc2 : Desc :=
  { slot := 2, ring := 0, flags := 0, handle := mkHandle 1 1 2, tag := 5, w2 := 0, w3 := 0, w4 := 0, w5 := 0, w6 := 0, w7 := 0 }

/-- A descriptor of an opcode held for a reason. -/
def held (op : BitVec 8) (h : Hold) (d : Desc := desc2) : DescRec := { id := 0, port := .A, opcode := op, desc := d, hold := h, fetchedAt := 0 }

/-- The run of core 0. -/
def run7 : Run :=
  { id := 7, desc := 0, slot := 2, cores := [0], entry := 0, code := [], dataDesk := 0, data := [], args := [], ins := [], outs := []
    group := none, step := none, begun := true }

/-- A layer of one expert of one rank, CAP 128, rows of 32 bytes, weights of 1 KiB in this device's memory. -/
def page2 : ExpertPage :=
  { slot := 2, step := none, header := 1, layers := [(0, BitVec.ofNat 64 (1 + 128 * 2 ^ 16 + 2 ^ 32 + 2 ^ 40), BitVec.ofNat 64 1, BitVec.ofNat 64 (2 ^ 48))]
    routes := [(BitVec.ofNat 64 (3 * 2 ^ 32), 0)] }

/-- Core 0 in run 7 about to run a word, with changes to the core. -/
def lab (w : Word) (f : Core → Core := id) : State :=
  { ready with
      cores := [(0, f { seq := seqAt w, run := some 7 })], runs := [run7], descs := [held 0x01 .run], expertPages := [page2]
      slots := [(2, { lastHandle := mkHandle 1 1 2, chan := some chan2 })] }

/-! ## Hypotheses met: memory access, the Tile Array, experts -/

/-- Registers of 64 in every scalar register. -/
def full64 (k : Core) : Core := { k with seq := { k.seq with s := Vector.replicate 32 64 } }

/-- A DMA of 16 FP32 elements either way, and one of each landing. -/
theorem witness_DmaIssuesAndLands :
    (∀ f ∈ [0x00, 0x01], let w := word 0x10 f (2 ^ 31 + 2 ^ 35)
      let s := lab w full64
      NextInside (.core 0) s ∧ TokenFree 0 (fld w 25 5) s ∧ (coreOf 0 s).dmas.length < 4 ∧ dmaFieldsOk w (2 - f) 64 = true ∧ dCodec w = 0 ∧
        Issues (.core 0) w 0x10 f s ∧ (sreg (coreOf 0 s).seq (dSlen w)).toNat % 2 ^ 32 = 64 ∧ readFault 0 0 64 s = none ∧
        writeFault 0 0 64 s = none ∧ fenceMeets (coreOf 0 s) 0 64 = false) ∧
    (∀ m : Bool, let o : DmaOp := { seq := 0, toMem := m, tok := some 3, mem := 0, desk := 0, len := 1, dlen := 1, sfmt := 0, dfmt := 0, round := 0
                                    codec := 0, tag := none, data := some [1], flags := 0 }
      let s := lab 0 fun k => { k with dmas := [o] }
      (coreOf 0 s).dmas.find? (fun o => o.toMem == m) = some o ∧ dmaDue 0 o s = true) := by
  simp only [NextInside, Issues, TargetInside, TokenFree]
  decide +kernel

/-- Every NARROW with one item for each lane, the atomics of FP32. -/
theorem witness_NarrowAccessesIssueAndLand :
    (∀ f ∈ [0, 1, 2, 3, 4], let w := word 0x11 f (0x01 * 2 ^ 33)
      let s := lab w
      NextInside (.core 0) s ∧ TokenFree 0 (fld w 25 5) s ∧ (coreOf 0 s).narrows.length < 4 ∧
        (∀ x ∈ narrowItems (coreOf 0 s) w, x.2 + 32 ≤ 4194304) ∧
        narrowFault 0 (f == 0 || decide (2 ≤ f)) (f != 0) (decide (2 ≤ f)) (narrowItems (coreOf 0 s) w) s = none ∧ atomicType (fld w 33 4) = true ∧
        (coreRun 0 s).map (fun u => u.step) = some none ∧ Issues (.core 0) w 0x11 f s) ∧
    (let o : NarrowOp := { seq := 4, func := 1, tok := none, atype := 0, items := [(0, 0, [1])] }
     let s := lab 0 fun k => { k with narrows := [o] }
     (coreOf 0 s).narrows.find? (fun o => o.seq == 4) = some o ∧ o.late = false ∧ narrowHeld 0 o s = false) := by
  simp only [NextInside, Issues, TargetInside, TokenFree]
  decide +kernel

/-- A dense FILL of E4M3, SWAP, a FILL's end, a DRAIN to FP32 and its end. -/
theorem witness_BanksFillAndEntriesDrain :
    (let w := word 0x18 0x00 (0x04 * 2 ^ 16)
     let s := lab w
     NextInside (.core 0) s ∧ Issues (.core 0) w 0x18 0x00 s ∧ TokenFree 0 (fld w 24 5) s ∧ feederFmt (fld w 16 4) = true ∧ fld w 20 4 ≤ 8 ∧
       coreLegacy 0 s = false ∧ tileOps (coreOf 0 s).tile < 4 ∧ 0 + max (8 * 0) (fillBytes (coreOf 0 s) 0 4 0) ≤ 4194304 ∧
       fenceMeets (coreOf 0 s) 0 (fillBytes (coreOf 0 s) 0 4 0) = false ∧ (fillBank (coreOf 0 s) s.free 0 4 0).map Prod.fst = some 16384) ∧
    (let w := word 0x18 0x01
     NextInside (.core 0) (lab w) ∧ Issues (.core 0) w 0x18 0x01 (lab w)) ∧
    (∀ b : Bool, let f : FillOp := { seq := 1, bank := b, tok := none, behind := [] }
     (coreOf 0 (lab 0 fun k => { k with tile := { k.tile with fills := [f] } })).tile.fills.find? (fun f => f.bank == b) = some f) ∧
    (let w := word 0x18 0x03 (0x01 * 2 ^ 16)
     let e := entry .visible 2 0
     let s := lab w fun k => { k with tile := { k.tile with entries := [e] } }
     NextInside (.core 0) s ∧ Issues (.core 0) w 0x18 0x03 s ∧ TokenFree 0 (fld w 27 5) s ∧ drainFmt (fld w 16 4) = true ∧ fld w 23 3 ≤ 4 ∧
       fld w 26 1 = 0 ∧ (accEntries (fld w 20 3) (coreOf 0 s).tile).head? = some e ∧ 0 + tensorBytes 1 (2 * 128) ≤ 4194304 ∧
       fenceMeets (coreOf 0 s) 0 (tensorBytes 1 (2 * 128)) = false ∧ tileOps (coreOf 0 s).tile < 4 ∧ (coreOf 0 s).reseed = none) ∧
    (let e := entry .draining 2 0
     let s := lab 0 fun k => { k with tile := { k.tile with entries := [e], drains := [⟨1, 3, none⟩] } }
     (coreOf 0 s).tile.drains = [⟨1, 3, none⟩] ∧ (coreOf 0 s).tile.entries.find? (fun x => x.seq == 3) = some e ∧ (coreOf 0 s).halting = false) := by
  simp only [NextInside, Issues, TargetInside, TokenFree]
  decide +kernel

/-- STREAM of the fewest and of the most rows, with CHAIN and without; a pass that starts and one that closes. -/
theorem witness_StreamPassesIssueStartAndClose :
    (∀ n ∈ [0, 127], ∀ c ∈ [0, 1], let w := word 0x18 0x02 (0x04 * 2 ^ 16 + n * 2 ^ 20 + c * 2 ^ 30 + 0x1F * 2 ^ 32)
     let s := lab w fun k => { k with tile := { k.tile with entries := if c == 1 then [{ entry .reserved 2 0 with open' := true }] else [] } }
     NextInside (.core 0) s ∧ Issues (.core 0) w 0x18 0x02 s ∧ feederFmt (fld w 16 4) = true ∧ coreLegacy 0 s = false ∧
       tokReserved (fld w 32 5) = false ∧ ((coreOf 0 s).tile.entries.any fun e => e.acc == fld w 27 3 && e.open') = (fld w 30 1 == 1) ∧
       0 + tensorBytes 4 ((fld w 20 7 + 1) * (128 * (bankOf (coreOf 0 s).tile.active1 (coreOf 0 s).tile).p)) ≤ 4194304 ∧
       (coreOf 0 s).preds = [] ∧ chaseHeld none (coreOf 0 s) = false ∧ tokReady (coreOf 0 s).seq (tokField (fld w 32 5)) = true) ∧
    (let s := lab 0 fun k => { k with tile := { k.tile with entries := [entry .waiting 2 0] } }
     (coreOf 0 s).tile.entries.find? (fun e => e.st == .waiting) = some (entry .waiting 2 0) ∧ heldEntries (coreOf 0 s).tile < 8 ∧
       (coreOf 0 s).halting = false) ∧
    (let s := lab 0 fun k => { k with tile := { k.tile with entries := [entry .reserved 2 0] } }
     nextClose (coreOf 0 s).tile = some (entry .reserved 2 0) ∧ (coreOf 0 s).tile.fills = []) := by
  simp only [NextInside, Issues, TargetInside]
  decide +kernel

/-- s1 holds the bytes of a row. -/
def rowBytes (k : Core) : Core := { k with seq := { k.seq with s := k.seq.s.set 1 32 } }

/-- A ROUTE of every lane to expert 0 of the layer. -/
theorem witness_RouteAndItsCompletion :
    (let w := word 0x28 0x00 (1 * 2 ^ 34)
     let s := lab w rowBytes
     let y : LayerEntry := (0, BitVec.ofNat 64 (1 + 128 * 2 ^ 16 + 2 ^ 32 + 2 ^ 40), BitVec.ofNat 64 1, BitVec.ofNat 64 (2 ^ 48))
     NextInside (.core 0) s ∧ Issues (.core 0) w 0x28 0x00 s ∧ TokenFree 0 (fld w 29 5) s ∧ dispFull (coreOf 0 s) = false ∧
       corePage 0 s = some page2 ∧ coreRun 0 s = some run7 ∧ coreChan 0 s = some chan2 ∧ layerEntry page2 (fld w 39 12) = some y ∧
       (sreg (coreOf 0 s).seq (fld w 34 5)).toNat % 2 ^ 32 = lyRow y ∧
       (∀ l : Fin 128, expertOk page2 y (fieldNat (vreg (coreOf 0 s).vec (fld w 12 5))[l] 0 16) = true ∧
         expertOk page2 y (fieldNat (vreg (coreOf 0 s).vec (fld w 12 5))[l] 16 16) = true ∧
         areg (coreOf 0 s).seq (fld w 25 4) + l.val * lyRow y + lyRow y ≤ 4194304) ∧
       routeTakes (fld w 39 12) run7 chan2 page2 y (coreOf 0 s).index = none ∧
       ∀ z ∈ (routePlan 0 w run7 chan2 page2 y s).2.2.2.2.1, writeFault 0 z.1 z.2.length s = none) ∧
    (let s := lab 0 fun k => { k with disp := [⟨0, none, [], none⟩] }
     (coreOf 0 s).disp.find? (fun o => o.xpost.isNone) = some ⟨0, none, [], none⟩) := by
  simp only [NextInside, Issues, TargetInside, TokenFree]
  decide +kernel

/-- An unresolved prediction of layer 0. -/
def pred0 (st : Nat) : Prediction :=
  { handle := 0, layer := 0, desk := 0, expertBytes := 1024, experts := [0], data := [], tok := none, st := st, resolved := st != 1 && st != 0
    fenced := false, bad := false }

/-- PREDICT of expert 0 with no other prediction; CONFIRM and SQUASH of one landed; the events of one in each state. -/
theorem witness_PredictionsAndTheirEvents :
    (let w := word 0x28 0x01 (1 * 2 ^ 34)
     let s := lab w
     let y : LayerEntry := (0, BitVec.ofNat 64 (1 + 128 * 2 ^ 16 + 2 ^ 32 + 2 ^ 40), BitVec.ofNat 64 1, BitVec.ofNat 64 (2 ^ 48))
     let named := namedExperts (coreOf 0 s).vec (fld w 12 5) (mreg (coreOf 0 s).vec (fld w 22 3))
     NextInside (.core 0) s ∧ corePage 0 s = some page2 ∧ layerEntry page2 (fld w 39 12) = some y ∧ Issues (.core 0) w 0x28 0x01 s ∧
       TokenFree 0 (fld w 29 5) s ∧ dispFull (coreOf 0 s) = false ∧ (coreOf 0 s).preds = [] ∧ 0 < lyWeight y ∧ (∀ e ∈ named, e < lyExperts y) ∧
       (∀ e ∈ localExperts page2 y named, badRegion (coreSlot 0 s) (weightVa page2 y e) (lyWeight y) false s = none)) ∧
    (∀ f ∈ [0x02, 0x03], let w := word 0x28 f
     let s := lab w fun k => { k with preds := [pred0 1] }
     NextInside (.core 0) s ∧ unresolved (coreOf 0 s) (fld w 34 5) = some (pred0 1) ∧ (layerEntry page2 (pred0 1).layer).isSome = true ∧
       Issues (.core 0) w 0x28 f s ∧ TokenFree 0 (fld w 29 5) s) ∧
    (∀ st ∈ [0, 2, 3], (coreOf 0 (lab 0 fun k => { k with preds := [pred0 st] })).preds.find? (fun p => p.handle == 0 && p.st == st) =
      some (pred0 st)) := by
  simp only [NextInside, Issues, TargetInside, TokenFree]
  decide +kernel

/-- XPOST under tokens 0 and 1, posted for the first time. -/
theorem witness_XpostPostsAnExchange :
    let w := word 0x31 0x00 (1 * 2 ^ 26)
    let s := lab w
    NextInside (.core 0) s ∧ Issues (.core 0) w 0x31 0x00 s ∧ fld w 16 5 % 2 = 0 ∧ fld w 21 5 ≠ fld w 26 5 ∧ TokenFree 0 (fld w 21 5) s ∧
      TokenFree 0 (fld w 26 5) s ∧ dispFull (coreOf 0 s) = false ∧ readFault 0 0 64 s = none ∧ coreRun 0 s = some run7 ∧
      coreChan 0 s = some chan2 ∧ descOf run7.desc s = some (held 0x01 .run) ∧ run7.xposts = [] := by
  simp only [NextInside, Issues, TargetInside, TokenFree]
  decide +kernel

theorem witness_EventsAndBarriers :
    (∀ x ∈ [(0x00, 0xFFFF * 2 ^ 32), (0x01, 0), (0x02, 0), (0x03, 3 * 2 ^ 20)], let w := word 0x30 x.1 x.2
     NextInside (.core 0) (lab w) ∧ Issues (.core 0) w 0x30 x.1 (lab w)) ∧
    (∀ i : Fin 16, (seqOf (.core 0) (lab 0)).tok[i] = true) ∧ coreRun 0 (lab 0) = some run7 ∧ run7.cores[0]? = some 0 ∧
    (coreOf 0 (lab 0 fun k => { k with signals := [(0, 7)] })).signals.find? (fun x => x.2 == 7) = some (0, 7) ∧
    (coreOf 0 (lab 0 fun k => { k with waitEv := some (7, 0) })).waitEv = some (7, 0) ∧ (coreOf 0 (lab 0)).halted = false ∧
    (∀ c ∈ run7.cores, (coreOf c (lab 0 fun k => { k with waitBar := some (true, [3]) })).waitBar = some (true, [3])) := by
  simp only [NextInside, Issues, TargetInside]
  decide +kernel

theorem witness_StatisticsTagAndRead :
    (∀ en ∈ [0, 1], ∀ tag ∈ [0, 0xFFFE], let w := word 0x34 0x00 (en * 2 ^ 20 + tag * 2 ^ 32)
     NextInside (.core 0) (lab w) ∧ fld w 32 16 ≠ 0xFFFF ∧ fld w 20 1 = en ∧ Issues (.core 0) w 0x34 0x00 (lab w)) ∧
    (∀ sel ∈ [0, 1, 2, 3, 4], let w := word 0x34 0x01 (sel * 2 ^ 17)
     NextInside (.core 0) (lab w) ∧ fld w 17 3 = sel ∧ Issues (.core 0) w 0x34 0x01 (lab w)) := by
  simp only [NextInside, Issues, TargetInside]
  decide +kernel
/-! ## Hypotheses met: timetable and sweep lessons -/

/-- Rank 0 of two ranks on two devices. -/
def grp0 : Group := { id := 1, rank := 0, sizeM1 := 1, sites := 1, members := [1, 2], lastStep := 0 }

/-- An admitted all-gather of 32 bytes in this group. -/
def pass0 : Pass :=
  { id := 0, desc := 0, slot := 2, tag := 5, ring := 0, group := 1, ordinal := 0, coll := 2, op := 0, fmt := 0, fuse := false, codecOk := false
    prio := 0, src := 0, dst := 0, length := 32, root := 0, deadline := 0, postedAt := 0, step := none, sig := 9, srcData := List.replicate 32 1
    admitted := true, written := 64 }

/-- Two devices with an edge from link 0 to link 0. -/
def topo2 : Topology :=
  { generation := 0, imageCrc := 0, self := 0, devices := [(1, 0), (2, 0)], edges := [(0, 0, 1, 0, false)], pairs := [], domains := [] }

/-- A member with this pass, with a link in a state of the caller's. -/
def member (l : Nat) (k : Link) : State := { ready with flash := { topology := some topo2 }, mod := { ready.mod with identity := 1 }, passes := [pass0], groups := [grp0], links := [(l, k)] }

theorem witness_TimetableInstructionsBegin :
    (let s := member 0 {}
     (∀ f ∈ [0, 1, 2, 3, 4], let w := word 0x38 f
       Issues (.link 0) w 0x38 f s ∧ PlaceFree (.link 0) (lwTok w) s ∧ passNumber (lwPass 0 w s) s = some pass0 ∧ lwSeg 0 w s = 0 ∧ lwLink w = 0) ∧
     groupOf pass0.group s = some grp0 ∧ outgoing pass0 grp0 0 s = some (1, 15, 0, 32) ∧
     segData pass0 grp0 (passIeee pass0 s) (1, 15, 0, 32) = some (List.replicate 32 1) ∧ (linkOf 0 s).hold = false ∧ pass0.queued = [] ∧
     passFilled pass0 grp0 s = true) ∧
    (let w := word 0x38 0x00
     let s : State := { linkSeq := [(0, { s := Vector.replicate 32 8 })], time := { dtime := 8 } }
     Issues (.link 0) w 0x38 0x00 s ∧ (sreg (seqOf (.link 0) s) (fld w 12 5)).toNat ≤ s.time.dtime.toNat ∧
       Issues (.link 0) w 0x38 0x00 { s with time := { dtime := 7 } } ∧ (7 : Word).toNat < (sreg (seqOf (.link 0) s) (fld w 12 5)).toNat) ∧
    (let s : State := { linkSeq := [(0, { slotUntil := some 8 })], time := { dtime := 8 } }
     (seqOf (.link 0) s).slotUntil = some 8 ∧ (8 : Word).toNat ≤ s.time.dtime.toNat) := by
  simp only [Issues, PlaceFree]
  decide +kernel

/-- An operation under token 3 ends on a link engine and on a memory-side die, where the first and the last sweep instruction issue. -/
theorem witness_PlaceAndSweepOperations :
    (let s : State := { linkSeq := [(0, { ops := [(1, 0, 0, 0, 3)] })], memSeq := [(0, { ops := [(0, 0, 0, 0, 3)] })] }
     (seqOf (.link 0) s).ops.find? (fun o => o.2.2.2.2 == 3 && linkOpDone o s) = some (1, 0, 0, 0, 3) ∧
       (seqOf (.mem 0) s).ops.find? (fun o => o.2.2.2.2 == 3) = some (0, 0, 0, 0, 3)) ∧
    (∀ f ∈ [0, 1, 2, 3], let w := word 0x3C f
     PlaceFree (.mem 23) (fld w 26 5) {} ∧ Issues (.mem 23) w 0x3C f {}) ∧
    (∀ n ∈ [4, 7], 4 ≤ (BitVec.ofNat 4 n).toNat ∧ (BitVec.ofNat 4 n).toNat ≤ 7) := by
  simp only [Issues, PlaceFree]
  decide +kernel

/-! ## Hypotheses met: links -/

/-- A ready module one second and more after its start, with link 0 as the caller says. -/
def onLink (k : Link) : State := { ready with time := { ticks := 15000000000, dtime := 60000000000 }, links := [(0, k)] }

theorem witness_LinkStateEvents :
    (let s := onLink {}
     (linkOf 0 s).state = 0 ∧ linkEnabled 0 s = true ∧ regionsUp s = true ∧ 1000000000 ≤ nsSince (linkOf 0 s).downAt (mono s)) ∧
    (let s := onLink { state := 3, lanes := 15 }
     2 ≤ (linkOf 0 s).state ∧ ∀ i : Fin 4, (linkOf 0 s).lanes.getLsbD i.val = true ∧ 2 ≤ lanesLeft 0 (modLink 0 (fun k =>
        { k with lanes := k.lanes &&& ~~~ BitVec.ofNat 4 (2 ^ i.val) }) s)) ∧
    (linkOf 0 (onLink { retrainUntil := some 5 })).retrainUntil = some 5 ∧
    (let s := onLink { state := 3, retry := [(0, ⟨0, 0, []⟩, 0)] }
     (linkOf 0 s).farActive = false ∧ (linkOf 0 s).retry ≠ [] ∧ 100000 ≤ nsSince (linkOf 0 s).txAckedAt (mono s) ∧ (linkOf 0 s).state ≠ 4 ∧
       (linkOf 0 s).state ≠ 0) ∧
    (let s := onLink { state := 4, holdOutS := 60 }
     (linkOf 0 s).state = 4 ∧ (linkOf 0 s).holdOutS * 1000000000 ≤ nsSince (linkOf 0 s).holdOutAt (mono s) ∧ linkEnabled 0 s = true) ∧
    (let s := onLink { state := 3, creditZeroSince := some 59999500000 }
     (linkOf 0 s).creditZeroSince = some 59999500000 ∧ (linkOf 0 s).state = 3 ∧ 500000 ≤ nsSince 59999500000 (mono s)) := by
  decide +kernel

/-- A port that may reach the registers; the closest legal watermarks and a pair that is too close; a link avoided for a minute. -/
theorem witness_LinkRegistersFenceAndFlush :
    (∀ p : Port, RegistersAnswer p (onLink {}) ∧ linkInMask 0 (onLink {}) = true) ∧
    (linkOf 0 (onLink { state := 3 })).state ≠ 0 ∧ (linkOf 0 (onLink { enable := false })).enable = false ∧
    (∀ n ∈ [2, 3, 4], linkEnabled 0 (onLink { state := n }) = true) ∧
    (let v : W32 := BitVec.ofNat 32 (4096 + 3840 * 2 ^ 16)
     fieldNat v 16 16 + 256 ≤ fieldNat v 0 16 ∧ fieldNat v 0 16 ≤ 4096) ∧
    (let v : W32 := BitVec.ofNat 32 (4096 + 3841 * 2 ^ 16)
     ¬ (fieldNat v 16 16 + 256 ≤ fieldNat v 0 16 ∧ fieldNat v 0 16 ≤ 4096)) ∧
    (∀ e ∈ (onLink {}).links, e.2.transit = []) ∧
    (let s := onLink { avoidedAt := some 0 }
     (linkOf 0 s).avoidedAt = some 0 ∧ 60000000000 ≤ nsSince 0 (mono s)) := by
  simp only [RegistersAnswer]
  refine ⟨fun p => ?_, by decide +kernel⟩
  cases p <;> decide +kernel

/-- A frame of a body with its CRC, under number 0. -/
def framed (b : List Byte) : Frame := { h0 := 0, h1 := BitVec.ofNat 64 ((crc32c (wordBytes 0 ++ leBytes 4 0 ++ b)).toNat * 2 ^ 32), body := b }

theorem framed_number (b : List Byte) : fieldNat (framed b).h1 0 32 = 0 := by
  simp only [framed]
  generalize crc32c _ = c
  have := c.isLt
  simp only [fieldNat, BitVec.toNat_ofNat]
  omega

theorem framed_frameOk (b : List Byte) (hb : b.length = 4096) : frameOk (framed b) = true := by
  have h : fieldNat (framed b).h1 32 32 = (crc32c (wordBytes 0 ++ leBytes 4 0 ++ b)).toNat := by
    simp only [framed]
    generalize crc32c _ = c
    have := c.isLt
    simp only [fieldNat, BitVec.toNat_ofNat]
    omega
  rw [frameOk, framed_number, h]
  simp only [framed, hb, beq_self_eq_true, Bool.and_self]

/-- A control frame of 4,096 bytes, and one whose CRC fails; a frame to resend, a new one, and a repair of a far link. -/
theorem witness_FramesGoOutAndComeIn :
    (∀ n ∈ [2, 3], let s := onLink { state := n }
     2 ≤ (linkOf 0 s).state ∧ (linkOf 0 s).farActive = false ∧ (linkOf 0 s).rxNext = 0) ∧
    (∀ b : List Byte, b.length = 4096 → frameOk (framed b) = true ∧ fieldNat (framed b).h0 0 4 ≤ 2 ∧ fieldNat (framed b).h0 13 3 = 0 ∧
       bitOf (framed b).h0 5 = false ∧ BitVec.ofNat 32 (fieldNat (framed b).h1 0 32) = 0) ∧ frameOk ⟨0, 0, []⟩ = false ∧
    (∀ r ∈ [[], [((0 : W32), framed [], 0)]], let s : State := { links := [(1, { state := 3, resend := r })] }
     2 ≤ (linkOf 1 s).state ∧ (linkOf 1 s).retrainUntil = none ∧ (linkOf 1 s).farActive = false ∧ (linkOf 1 s).resend = r ∧
       (linkOf 1 s).retry.length < 2048) ∧
    (let s : State := { links := [(16, { state := 3, farActive := true, far := { repairQ := [(0, 5)], retransmit := [(0, [(5, [1])])] } })] }
     2 ≤ (linkOf 16 s).state ∧ (linkOf 16 s).retrainUntil = none ∧ (linkOf 16 s).farActive = true ∧ (linkOf 16 s).far.repairQ = [(0, 5)] ∧
       (tgetD (linkOf 16 s).far.retransmit 0 []).find? (fun y => y.1 == 5) = some (5, [1])) := by
  refine ⟨by decide +kernel, fun b hb => ⟨framed_frameOk b hb, (by decide : fieldNat (0 : Word) 0 4 ≤ 2),
    (by decide : fieldNat (0 : Word) 13 3 = 0), (by decide : bitOf (0 : Word) 5 = false), by rw [framed_number]; rfl⟩, by decide +kernel,
    by decide +kernel, by decide +kernel⟩
/-- A receive slot in use with a key of zeros, no nonce taken yet. -/
def rxReady : Link := { state := 3, lanes := 15, rxKeys := Vector.replicate 2 { valid := true }, txKeys := Vector.replicate 2 { valid := true } }

theorem tagOk_zero (k : Link) (aad ct : List Byte) (h : vget k.rxKeys (slotIx false) {} = { valid := true }) :
    tagOk k false 1 aad ct (gcmTag (keyBytes 0) (itemIv 0 1) aad ct) = true := by
  rw [tagOk, h]
  simp only [beq_self_eq_true, Bool.and_self]

/-- The raw all-gather segment of rank 1 for the pass, tagged under the key of zeros. -/
def seg0 : Segment :=
  let x : Segment := { w0 := BitVec.ofNat 64 (3 + 2 * 2 ^ 5 + 2 ^ 8 + 15 * 2 ^ 24), w1 := 0, w2 := 0, w3 := BitVec.ofNat 64 (32 + 9 * 2 ^ 32)
                       w4 := 1, w5 := 1, tag := 0, keyId := false, data := List.replicate 32 7 }
  { x with tag := gcmTag (keyBytes 0) (itemIv 0 1) (segAad x) x.data }

theorem witness_SegmentsMeetTheirPass :
    let s := member 0 rxReady
    let k := linkOf 0 s
    tagOk k seg0.keyId seg0.w5 (if k.crypto then segAad seg0 ++ seg0.data else segAad seg0) (if k.crypto then [] else seg0.data) seg0.tag = true ∧
    k.state = 3 ∧ nonceFresh k seg0.keyId seg0.w5 = true ∧ segFormOk seg0 = true ∧ bitOf seg0.w0 4 = false ∧ sgColl seg0 ≤ 4 ∧
    groupOf (sgGroup seg0) s = some grp0 ∧ sgDst seg0 = grp0.rank ∧ grp0.absent.contains (sgSrc seg0) = false ∧
    grp0.refused.contains seg0.w1.toNat = false ∧
    s.passes.find? (fun p => p.group == grp0.id && p.ordinal == seg0.w1.toNat && p.round.isNone) = some pass0 ∧ passOf pass0.id s = some pass0 ∧
    pass0.admitted = true ∧ sgSig seg0 = pass0.sig.toNat ∧ pass0.got.contains (sgSrc seg0, sgLevel seg0, sgElement seg0) = false ∧
    expectsSeg pass0 grp0 s (sgLevel seg0) (sgSrc seg0) (sgElement seg0) (sgLength seg0) = true := by
  refine ⟨tagOk_zero _ _ _ (by decide +kernel), ?_⟩
  decide +kernel
/-! ## Hypotheses met: items, keys, roll call, far links -/

/-- A control item of a kind under nonce 1, tagged under the key of zeros. -/
def item (kind extra : Nat) (w1 w2 w3 w4 w5 : Word) : Item :=
  let it := { mkItem kind extra w1 w2 w3 w4 w5 with nonce := 1 }
  { it with tag := gcmTag (keyBytes 0) (itemIv 0 1) (itemAad it) [] }

/-- An item of a kind that may come in the link's state is policed where both receive slots hold the key of zeros. -/
theorem item_policed (l : Fin 36) (kind extra : Nat) (w1 w2 w3 w4 w5 : Word) (s : State)
    (h : fieldNat (item kind extra w1 w2 w3 w4 w5).w0 0 4 = 4 ∧ itemKind (item kind extra w1 w2 w3 w4 w5) = kind)
    (ha : itemAllowed (linkOf l s).state kind = true) (hk : vget (linkOf l s).rxKeys (slotIx false) {} = { valid := true })
    (hn : vget (linkOf l s).rxNonce (slotIx false) none = none) :
    Policed l (item kind extra w1 w2 w3 w4 w5) kind s (takeNonce l false 1 s) :=
  ⟨h.1, h.2, ha, .inr ⟨tagOk_zero _ _ _ hk, by
    have h0 : vget (linkOf l s).rxNonce (slotIx (item kind extra w1 w2 w3 w4 w5).keyId) none = none := hn
    rw [nonceFresh, h0], rfl⟩⟩

theorem witness_NoticesAreActedOn :
    (let it := item 0x04 0 1 0 0 0 0
     let s := onLink rxReady
     Policed 0 it 0x04 s (takeNonce 0 false 1 s) ∧ (vget (linkOf 0 s).txKeys (slotIx (bitOf it.w1 0)) {}).valid = true) ∧
    (let d := wordBytes 3 ++ wordBytes 0 ++ wordBytes 0 ++ wordBytes 32
     let it := item 0x01 0 0 0 0 0 0
     let s := onLink { rxReady with rxData := d }
     let w := fun i : Nat => BitVec.ofNat 64 (leNat ((d.drop (8 * i)).take 8))
     fieldNat (w 0) 0 4 = 3 ∧ fieldNat (w 0) 8 16 = fieldNat it.w1 0 16 ∧ w 1 = it.w2 ∧ fieldNat (w 2) 0 48 = fieldNat it.w3 0 48 ∧
       d.length < segBytesOf (fieldNat (w 3) 0 17) ∧ Policed 0 it 0x01 s (takeNonce 0 false 1 s)) ∧
    (let it := item 0x02 0 1 0 0 0 0
     let s := member 0 rxReady
     Policed 0 it 0x02 s (takeNonce 0 false 1 s) ∧ noticePass it s = some pass0 ∧ pass0.admitted = true) ∧
    (let it := item 0x03 0 1 0 0 0 0
     let s := member 0 { rxReady with partner := 2 }
     let u := takeNonce 0 false 1 s
     Policed 0 it 0x03 s u ∧ noticePass it s = some pass0 ∧ passOf pass0.id s = some pass0 ∧ groupOf pass0.group s = some grp0 ∧
       ((1, 15, 0, 32), 0) ∈ outSegs pass0 grp0 u ∧ segElement pass0 (groupN grp0) (1, 15, 0, 32) = fieldNat it.w3 0 48 ∧
       linkToRank grp0 1 u = some 0 ∧ pass0.queued.contains 0 = false ∧
       segData pass0 grp0 (passIeee pass0 u) (1, 15, 0, 32) = some (List.replicate 32 1)) := by
  refine ⟨⟨item_policed _ _ _ _ _ _ _ _ _ (by decide +kernel) (by decide +kernel) (by decide +kernel) (by decide +kernel), by decide +kernel⟩, ?_,
    ⟨item_policed _ _ _ _ _ _ _ _ _ (by decide +kernel) (by decide +kernel) (by decide +kernel) (by decide +kernel), by decide +kernel⟩,
    ⟨item_policed _ _ _ _ _ _ _ _ _ (by decide +kernel) (by decide +kernel) (by decide +kernel) (by decide +kernel), by decide +kernel⟩⟩
  refine ⟨by decide +kernel, by decide +kernel, by decide +kernel, by decide +kernel, by decide +kernel, ?_⟩
  exact item_policed _ _ _ _ _ _ _ _ _ (by decide +kernel) (by decide +kernel) (by decide +kernel) (by decide +kernel)

/-- A key agreement with the two ends of it. -/
def kex0 (ini : Bool) : Kex := { session := 5, initiator := ini, slot := false, started := 0, keys := [1] }

/-- Before any key: a first chunk, a KEX_DONE with its CONFIRM, an abort, a request; the timers at their moments. -/
theorem witness_KeysAreAgreed :
    (let s := onLink { state := 2 }
     let it : Item := mkItem 0x24 (188 * 2 ^ 16) 0 0 0 0 5
     Policed 0 it 0x24 s s ∧ fieldNat it.w0 16 8 < 189 ∧ bitOf it.w0 12 = false ∧
       offerKex 0 it s = some { kex0 false with started := mono s, keys := [] } ∧
       (addChunk { kex0 false with started := mono s, keys := [] } it).2 = none) ∧
    (let s := onLink { state := 2, kex := some (kex0 true) }
     let c := confirmOf [1] 1
     let it : Item := mkItem 0x25 0 (BitVec.ofNat 64 (leNat (c.take 8))) (BitVec.ofNat 64 (leNat (c.drop 8))) 0 0 5
     Policed 0 it 0x25 s s ∧ (linkOf 0 s).kex = some (kex0 true) ∧ (kex0 true).session = it.w5 ∧ (kex0 true).keys ≠ [] ∧
       (linkOf 0 s).farActive = false ∧ wordBytes it.w1 ++ wordBytes it.w2 = confirmOf (kex0 true).keys 1) ∧
    (let s := onLink { state := 2, kex := some (kex0 true) }
     Policed 0 (mkItem 0x26 0 0 0 0 0 5) 0x26 s s ∧ (linkOf 0 s).kex = some (kex0 true) ∧ 100000000 ≤ nsSince (kex0 true).started (mono s)) ∧
    (let s := onLink { state := 3, kexRetryAt := some 60000000000 }
     let it := mkItem 0x27 0 1 0 0 0 0
     Policed 0 it 0x27 s s ∧ isInitiator 0 s = true ∧ bitOf it.w1 0 ≠ (linkOf 0 s).keyTx ∧ (linkOf 0 s).state = 3 ∧ (linkOf 0 s).kex = none ∧
       (linkOf 0 s).kexRetryAt = some 60000000000 ∧ (60000000000 : Word).toNat ≤ (mono s).toNat) ∧
    (let s : State := { links := [(16, { state := 3, farActive := true, txKeys := Vector.replicate 2 { items := 2 ^ 32 } })] }
     (linkOf 16 s).state = 3 ∧ (linkOf 16 s).farActive = true ∧ (linkOf 16 s).far.keyNext = none ∧ 2 ^ 31 ≤ slotItems (linkOf 16 s) ∧
       (linkOf 16 s).kex = none ∧ (linkOf 16 s).far.rekeyLate = false ∧ 2 ^ 32 ≤ slotItems (linkOf 16 s) ∧ isInitiator 16 s = true) ∧
    (let s := onLink { state := 3, txKeys := Vector.replicate 2 { items := 2 ^ 32 } }
     (linkOf 0 s).farActive = false ∧ 2 ^ 32 ≤ slotItems (linkOf 0 s)) := by
  simp only [Policed]
  refine ⟨⟨by decide +kernel, by decide +kernel⟩, ⟨by decide +kernel, by decide +kernel⟩, ⟨by decide +kernel, by decide +kernel⟩,
    ⟨by decide +kernel, by decide +kernel⟩, by decide +kernel, by decide +kernel⟩

/-- Training that ends with two lanes, the fewest, and with one. -/
theorem witness_TrainingEndsInAuthenticationOrDown :
    (linkOf 0 (onLink { state := 1 })).state = 1 ∧ 2 ≤ (List.range 4).countP (fun i => (9 : BitVec 4).getLsbD i) ∧
      (List.range 4).countP (fun i => (8 : BitVec 4).getLsbD i) < 2 := by
  decide +kernel

theorem witness_RollCallAndLeaving :
    (let s := onLink { rxReady with state := 2, rollJudged := true }
     let it := item 0x30 0 2 0 0 0 0
     Policed 0 it 0x30 s (takeNonce 0 false 1 s) ∧ (linkOf 0 s).rollJudged = true ∧ (linkOf 0 s).state ≠ 3 ∧ bitOf it.w0 19 = false ∧
       bitOf (item 0x30 (2 ^ 18) 2 0 0 0 0).w0 18 = true) ∧
    (∀ n ∈ [2, 4], let s := onLink { state := n, proved := 2, rollSentAt := 59900000000 }
     (linkOf 0 s).proved ≠ 0 ∧ ((linkOf 0 s).state = 2 ∨ (linkOf 0 s).state = 4) ∧ 100000000 ≤ nsSince (linkOf 0 s).rollSentAt (mono s)) ∧
    (let s := member 0 rxReady
     Policed 0 (item 0x31 0 2 0 0 0 1) 0x31 s (takeNonce 0 false 1 s) ∧ (item 0x31 0 2 0 0 0 1).w5 = s.mod.identity ∧
       (item 0x31 0 2 0 0 0 1).w5 ≠ 0) ∧
    (let s : State := { time := { dtime := 10000000000 }, mod := { leaving := [(2, 0)] } }
     s.mod.leaving.find? (fun x => x.1 == 2) = some (2, 0) ∧ 10000000000 ≤ nsSince 0 s.time.dtime) := by
  refine ⟨⟨item_policed _ _ _ _ _ _ _ _ _ (by decide +kernel) (by decide +kernel) (by decide +kernel) (by decide +kernel), by decide +kernel⟩,
    by decide +kernel,
    ⟨item_policed _ _ _ _ _ _ _ _ _ (by decide +kernel) (by decide +kernel) (by decide +kernel) (by decide +kernel), by decide +kernel⟩,
    by decide +kernel⟩

/-- A far link in far mode with a far half of the caller's. -/
def farLink (f : FarSt) : Link := { rxReady with farActive := true, ctlFar := true, partner := 2, far := f }

/-- A device with far link 16. -/
def onFar (f : FarSt) (g : Link → Link := id) : State :=
  { ready with time := { ticks := 15000000000, dtime := 60000000000 }, links := [(16, g (farLink f))] }

/-- A far frame of a body with its CRC, shard 0 of its stripe. -/
def farFramed (b : List Byte) : FarFrame :=
  { dest := 0, src := 0, ethertype := 0, h0 := 1, h1 := 0, h2 := 0
    h3 := BitVec.ofNat 64 (crc32c (wordBytes 1 ++ wordBytes 0 ++ wordBytes 0 ++ b)).toNat, body := b, fcsOk := true }

theorem farFramed_farOk (b : List Byte) (hb : b.length = 4096) : farOk 16 (farFramed b) (onFar {}) = true := by
  have h : fieldNat (farFramed b).h3 0 32 = (crc32c (wordBytes 1 ++ wordBytes 0 ++ wordBytes 0 ++ b)).toNat := by
    simp only [farFramed]
    generalize crc32c _ = c
    have := c.isLt
    simp only [fieldNat, BitVec.toNat_ofNat]
    omega
  have e : farType 16 (onFar {}) = none := by decide +kernel
  have m : (linkOf 16 (onFar {})).far.mac = 0 := by decide +kernel
  have t : fieldNat (farFramed b).h0 0 4 = 1 := (by decide : fieldNat (1 : Word) 0 4 = 1)
  have q : fieldNat (farFramed b).h0 12 5 = 0 := (by decide : fieldNat (1 : Word) 12 5 = 0)
  rw [farOk, h, e, m, t, q]
  simp only [farFramed, hb, beq_self_eq_true, Bool.and_self]
  decide

theorem witness_FarLinks :
    (∀ b : List Byte, b.length = 4096 → farOk 16 (farFramed b) (onFar {}) = true) ∧
    (let s := onFar {}
     2 ≤ (linkOf 16 s).state ∧ (linkOf 16 s).farActive = true ∧ (linkOf 16 s).state = 3 ∧ 1000000 ≤ nsSince (linkOf 16 s).far.ackAt (mono s) ∧
       (linkOf 16 s).state ≠ 4 ∧ 220000000 ≤ nsSince (linkOf 16 s).far.heardAt (mono s) ∧ farCapable 16 = true ∧
       (∀ y ∈ (linkOf 16 s).far.sentAgain, y.2.2 < 16)) ∧
    (let s := onFar { rxStripes := [(0, [], 4, 59999980000)] }
     stripeDue 0 (linkOf 16 s) s = true ∧ (∀ y ∈ (linkOf 16 s).far.resent, y.1 ≠ 0) ∧
       (((tget? (linkOf 16 s).far.rxStripes 0).map fun x => x.1).getD []).length < 16) ∧
    (let s := onFar { resent := [(0, 59999980000)] }
     (linkOf 16 s).far.resent.find? (fun y => y.1 == 0) = some (0, 59999980000) ∧
       2 * (linkOf 16 s).far.rttNs.toNat + 20000 ≤ nsSince 59999980000 (mono s)) ∧
    (∀ kind ∈ [0x20, 0x21], Policed 16 (item kind 0 0 0 0 0 0) kind (onFar {}) (takeNonce 16 false 1 (onFar {}))) ∧
    (let s := onFar { overSince := some 59900000000 }
     (linkOf 16 s).ctlFar = true ∧ (linkOf 16 s).far.outOfContract = false ∧ pathBroken 16 s = true) ∧
    (let s := onFar { outOfContract := true, inContractSince := some 50000000000 }
     (linkOf 16 s).far.inContractSince = some 50000000000 ∧ (linkOf 16 s).far.outOfContract = true ∧
       10000000000 ≤ nsSince 50000000000 (mono s)) ∧
    (∀ p : Port, RegistersAnswer p (onFar {})) := by
  refine ⟨farFramed_farOk, by decide +kernel, by decide +kernel, by decide +kernel, ?_, by decide +kernel, by decide +kernel, ?_⟩
  · intro kind hk
    rw [List.mem_cons, List.mem_singleton] at hk
    rcases hk with rfl | rfl <;>
      exact item_policed _ _ _ _ _ _ _ _ _ (by decide +kernel) (by decide +kernel) (by decide +kernel) (by decide +kernel)
  · simp only [RegistersAnswer]
    intro p
    cases p <;> decide +kernel
/-! ## Hypotheses met: ports, completions, descriptors -/

/-- A ready module with port A up, the admin channel of port A in slot 0 and a channel of the caller's in slot 2. -/
def dev (c : Chan := chan2) : State :=
  { ready with
      mod := { ready.mod with identity := 1 }, time := { ticks := 1000, dtime := 8 }
      portA := { linkUp := true, adminEnable := true }
      slots := [(0, { chan := some { handle := mkHandle 0 1 0, cls := 0, owner := .A, rings := Vector.replicate 8 { log2 := 6, tail := 1 }
                                     cq := { log2 := 6 } } }),
                (2, { lastHandle := mkHandle 1 1 2, chan := some c })] }

/-- An administrative descriptor on ring 0 of the admin channel, and a descriptor on ring 0 of channel 2. -/
def admin (w2 w3 w4 w5 w6 w7 : Word := 0) : Desc :=
  { slot := 0, ring := 0, flags := 0, handle := mkHandle 0 1 0, tag := 5, w2 := w2, w3 := w3, w4 := w4, w5 := w5, w6 := w6, w7 := w7 }

def comp (w2 w3 w4 w5 w6 w7 : Word := 0) : Desc :=
  { slot := 2, ring := 0, flags := 0, handle := mkHandle 1 1 2, tag := 5, w2 := w2, w3 := w3, w4 := w4, w5 := w5, w6 := w6, w7 := w7 }

/-- The record of a descriptor and the state after its fetch. -/
def rec' (op : BitVec 8) (d : Desc) (s : State) : DescRec := recOf op d ((chanOf d.slot s).getD chan2) s

def got (op : BitVec 8) (d : Desc) (s : State) : State := noteFetch (rec' op d s) s

/-- Whether a descriptor is fetched, and starts. -/
def fetched (op : BitVec 8) (d : Desc) (s : State) : Bool :=
  canFetch d.slot d.ring s && s.mod.stage == 7 && (match chanOf d.slot s with | some c => handleClass d.handle == c.cls | none => false) &&
    !mustWait (rec' op d s) (got op d s) && !handleStale d.handle (got op d s) && handleSlot d.handle == d.slot.val

def starts (op : BitVec 8) (d : Desc) (s : State) : Bool :=
  fetched op d s && opcodeDefined op && !reservedSet op d && (match chanOf d.slot s with | some c => classAccepts c.cls op | none => false)

theorem fetched_iff {op : BitVec 8} {d : Desc} {s : State} (h : fetched op d s = true) : Fetched op d s (rec' op d s) (got op d s) := by
  simp only [fetched, Bool.and_eq_true, Bool.not_eq_true', beq_iff_eq] at h
  obtain ⟨⟨⟨⟨⟨h1, h2⟩, h3⟩, h4⟩, h5⟩, h6⟩ := h
  cases hc : chanOf d.slot s with
  | none => rw [hc] at h3; cases h3
  | some c =>
    rw [hc] at h3
    exact ⟨h1, h2, c, hc, by rw [rec', hc]; rfl, rfl, h4, h5, h6, by simpa using h3⟩

theorem starts_iff {op : BitVec 8} {d : Desc} {s : State} (h : starts op d s = true) : Starts op d s (rec' op d s) (got op d s) := by
  simp only [starts, Bool.and_eq_true, Bool.not_eq_true'] at h
  obtain ⟨⟨⟨h1, h2⟩, h3⟩, h4⟩ := h
  exact ⟨fetched_iff h1, h2, h3, fun c hc => by rw [hc] at h4; exact h4⟩

/-- A bell at the far end of the window and one past it, CQ_HEAD, a waiting completion, the timer, a descriptor that ends. -/
theorem witness_BellsAndCompletions :
    (chanOf 2 (dev)).isSome = true ∧
    (let c := { chan2 with cq := { chan2.cq with w := 1, oldest := some 3000, irqEnable := true, coalUs := 1 }
                           waiting := [⟨5, 0, 1, 0, 0, 0, 0, false, 2⟩] }
     let s := { dev c with portA := { linkUp := true, msixTable := [(3, 0)] } }
     chanOf 2 s = some c ∧ c.running = true ∧ s.mod.stage = 7 ∧ (portOf c.owner s).fenced = false ∧ (portOf c.owner s).linkUp = true ∧
       (∀ ring : Fin 8, (vget c.rings ring {}).log2 ≠ 0) ∧
       (let r := vget c.rings 0 {}
        (∀ n ∈ [1, 64], let w := BitVec.ofNat 32 n
         (w - r.head).toNat ≤ 2 ^ r.log2 ∧ (w - r.tail).toNat ≤ 2 ^ r.log2 - (r.tail - r.head).toNat) ∧
        2 ^ r.log2 < ((65 : W32) - r.head).toNat) ∧
       ((1 : Word).setWidth 32 - c.cq.h).toNat ≤ (c.cq.w - c.cq.h).toNat ∧ c.waiting ≠ [] ∧ c.destroyId = none ∧
       (c.cq.w - c.cq.h).toNat < 2 ^ c.cq.log2 ∧ c.cq.oldest = some 3000 ∧ c.cq.irqEnable = true ∧ c.cq.coalUs ≠ 0 ∧
       c.cq.coalUs * 1000 ≤ nsSince 3000 (mono s) ∧ (tgetD (portOf c.owner s).msixTable (4 * c.cq.vector + 3) 1).getLsbD 0 = false ∧
       (held 0x01 .run).desc.slot = 2 ∧ c.waiting.length < 4096) := by
  decide +kernel

/-- Admin registers in range are those of absent rings with a completion ring of 64 entries. -/
theorem witness_PortsAndAdminChannels :
    ∀ p : Port,
      (let s := modPort p (fun q => { q with linkUp := true, adminCqCfg := 6 }) ready
       (portOf p s).linkUp = true ∧ (portOf p s).fenced = false ∧ (portOf p s).adminEnable = false ∧ 2 ≤ s.mod.stage.toNat ∧
         adminInRange (portOf p s) = true ∧ adminInRange (portOf p ready) = false) ∧
      (let s := modPort p (fun q => { q with downSince := some 59900000000 }) { time := { ticks := 15000000000 } }
       (portOf p s).downSince = some 59900000000 ∧ (portOf p s).linkUp = false ∧ 100000000 ≤ nsSince 59900000000 (mono s)) ∧
      (let s := modPort p (fun q => { q with adminEnable := true }) { slots := [(adminSlot p, { chan := some chan2 })] }
       (portOf p s).adminEnable = true ∧ chanOf (adminSlot p) s = some chan2) := by
  intro p
  cases p <;> decide +kernel

/-- A WAIT for a DTIME that has come and for one that has not, one held that ends either way, an opcode of no table, a fenced descriptor. -/
theorem witness_WaitsAndHeldDescriptors :
    (∀ t ∈ [8, 9], let d := comp 1 (BitVec.ofNat 64 t)
     Starts 0x0B d dev (rec' 0x0B d dev) (got 0x0B d dev) ∧ fieldNat d.w2 0 2 ≠ 3 ∧
       waitReady (rec' 0x0B d dev) (got 0x0B d dev) = (t == 8)) ∧
    (∀ t ∈ [8, 9], let r := held 0x0B .wait (comp 1 (BitVec.ofNat 64 t) 8)
     let s := { dev with descs := [r] }
     descOf 0 s = some r ∧ r.hold = .wait ∧ waitReady r s = (t == 8) ∧ r.desc.w4 ≠ 0 ∧ r.desc.w4.toNat ≤ s.time.dtime.toNat) ∧
    (opcodeDefined 0x0E = false ∧ Fetched 0x0E comp dev (rec' 0x0E comp dev) (got 0x0E comp dev)) ∧
    (let r := held 0x0B .fence comp
     let s := { dev with descs := [r] }
     HeldAs 0 .fence r s ∧ mustWait r s = false ∧ s.mod.stage = 7) := by
  refine ⟨?_, by decide +kernel, ⟨by decide +kernel, fetched_iff (by decide +kernel)⟩, ?_⟩
  · intro t ht
    rw [List.mem_cons, List.mem_singleton] at ht
    rcases ht with rfl | rfl <;> exact ⟨starts_iff (by decide +kernel), by decide +kernel, by decide +kernel⟩
  · simp only [HeldAs]
    decide +kernel
/-! ## Hypotheses met: administrative descriptors -/

/-- The bytes of some words. -/
def image (ws : List Word) : List Byte := ws.flatMap wordBytes

/-- The device with bytes of host memory behind port A at an address, and with changes. -/
def devMem (a : Nat) (bs : List Byte) (f : State → State := id) : State :=
  let s := dev
  f { s with portA := { s.portA with mem := memWrite [] a bs } }

/-- A channel of port A in slot 3 and one of port B, fenced, in slot 4. -/
def two (s : State) : State :=
  { s with slots := s.slots ++ [(3, { chan := some { chan2 with handle := mkHandle 1 1 3 } }),
                                (4, { chan := some { chan2 with handle := mkHandle 1 1 4, owner := .B } })]
           portB := { fenced := true }, flash := { physOf := [(0, 0), (1, 1)] } }

/-- CHANNEL_CREATE of class 1 with a core and of class 2, ADOPT of slot 4, MAP_MEMORY of each kind, UNMAP of page 0, CHANNEL_DESTROY. -/
theorem witness_ChannelDescriptors :
    (∀ w ∈ [1 + 2 ^ 16, 2], let s := devMem 0x88 [6] two
     let d := admin (BitVec.ofNat 64 w)
     let u := got 0x40 d s
     starts 0x40 d s = true ∧ bitOf d.w2 4 = false ∧ 1 ≤ fieldNat d.w2 0 4 ∧ fieldNat d.w2 0 4 ≤ 3 ∧ fieldNat d.w2 48 5 ≤ 16 ∧
       (fieldNat d.w2 0 4 = 1 ↔ d.w3.toNat + d.w4.toNat * 2 ^ 64 + d.w5.toNat * 2 ^ 128 ≠ 0 ∨ fieldNat d.w2 16 16 ≠ 0) ∧
       (readRingBlock (rec' 0x40 d s).port d.w6.toNat u).toOption.isSome = true ∧ freeSlotNo u = some 5 ∧
       (if fieldNat d.w2 0 4 = 1 then coresFor 0 (fieldNat d.w2 16 16) (bitOf d.w2 5) u else some []) =
         (if fieldNat d.w2 0 4 = 1 then some [1] else some []) ∧ 100 * fieldNat d.w2 32 16 ≤ linkFree u) ∧
    (let s := devMem 0x88 [6] two
     let d := admin 16 (BitVec.ofNat 64 (mkHandle 1 1 4).toNat)
     let u := got 0x40 d s
     let h : W32 := d.w3.setWidth 32
     starts 0x40 d s = true ∧ bitOf d.w2 4 = true ∧ handleStale h u = false ∧
       (∃ c : Chan, chanOf (handleSlot h) u = some c ∧ handleClass h = c.cls ∧ (portOf c.owner u).fenced = true) ∧ 2 ≤ handleSlot h ∧
       (readRingBlock (rec' 0x40 d s).port d.w6.toNat u).toOption.isSome = true) ∧
    (∀ k ∈ [0, 1, 2, 3], let s := two dev
     let d := admin (BitVec.ofNat 64 (mkHandle 1 1 2).toNat) (BitVec.ofNat 64 (5 * pageBytes)) (BitVec.ofNat 64 (1 + k * 2 ^ 32)) 0
       (if k = 3 then BitVec.ofNat 64 (mkHandle 1 1 3).toNat else 0)
     let r := rec' 0x42 d s
     let u := got 0x42 d s
     starts 0x42 d s = true ∧ ownedChan (d.w2.setWidth 32) r u = some (2, chan2, true) ∧
       badRange (fieldNat d.w3 0 48) (fieldNat d.w4 0 27) = false ∧
       (∀ x : Nat, x < 6 → 5 ≤ x → tget? chan2.pages x = none) ∧ fieldNat d.w4 32 3 = k ∧
       u.memory.framesUsed.length + u.memory.privateFrames + 1 ≤ frameCapacity u.flash.variant ∧ d.w5.toNat % pageBytes = 0 ∧
       (k = 3 → badAlias r 1 u = false ∧ (chanOf 3 u).isSome = true ∧ (locate 3 0 u).isSome = true)) ∧
    (let s := two dev
     let d := admin (BitVec.ofNat 64 (mkHandle 1 1 2).toNat) 0 1
     let r := rec' 0x43 d s
     let u := got 0x43 d s
     starts 0x43 d s = true ∧ ownedChan (d.w2.setWidth 32) r u = some (2, chan2, true) ∧ badRange 0 1 = false ∧
       (tget? chan2.pages 0).isSome = true ∧ pagesInUse r.id 2 0 1 u = false) ∧
    (let r := held 0x43 .unmap (admin (BitVec.ofNat 64 (mkHandle 1 1 2).toNat) 0 1)
     let s := { dev with descs := [r] }
     HeldAs 0 .unmap r s ∧ pagesInUse r.id 2 0 1 s = false) ∧
    (let s := two dev
     let d := admin (BitVec.ofNat 64 (mkHandle 1 1 2).toNat)
     let r := rec' 0x41 d s
     let u := got 0x41 d s
     starts 0x41 d s = true ∧ ownedChan (d.w2.setWidth 32) r u = some (2, chan2, true) ∧ d.slot.val ≠ 2 ∧ chan2.waiting = [] ∧
       u.descs = [] ∧ u.runs = [] ∧ u.passes = [] ∧ u.nmu.exports = []) := by
  simp only [HeldAs]
  refine ⟨by decide +kernel, ⟨by decide +kernel, by decide +kernel, by decide +kernel, ⟨_, rfl, by decide +kernel, by decide +kernel⟩,
    by decide +kernel, by decide +kernel⟩, by decide +kernel, by decide +kernel, by decide +kernel, by decide +kernel⟩

/-- An image of one device, with its CRC. -/
def topoImage : List Byte := image [0x014C594B54, 1, 1, 0, 0, 3392174403, 0, 0, 1, 0]

/-- An image of limits without an entry, with its CRC. -/
def limitsImage : List Byte := image [0x014C594B50, 0, BitVec.ofNat 64 (16 * 2 ^ 8 + 128 * 2 ^ 16 + 2 * 2 ^ 24), 3324863281, 0, 0, 0, 0]

def topo1 : Topology :=
  { generation := 1, imageCrc := 3392174403, self := 0, devices := [(1, 0)], edges := [], pairs := [], domains := [] }

/-- Running values of a CRC-32C after each word of an image. -/
def runsTo : List (Word × W32) → W32 → Prop
  | [], _ => True
  | (w, d) :: r, c => (wordBytes w).foldl (crcByte 0x82F63B78) c = d ∧ runsTo r d

theorem crc_image (ws : List (Word × W32)) (c : W32) (h : runsTo ws c) :
    (image (ws.map Prod.fst)).foldl (crcByte 0x82F63B78) c = (ws.getLast?.map Prod.snd).getD c := by
  induction ws generalizing c with
  | nil => rfl
  | cons x r ih =>
    obtain ⟨w, d⟩ := x
    have e : image (((w, d) :: r).map Prod.fst) = wordBytes w ++ image (r.map Prod.fst) := rfl
    rw [e, List.foldl_append, h.1, ih d h.2]
    cases r with
    | nil => rfl
    | cons y r => rw [List.getLast?_cons_cons]; exact (by rw [List.getLast?_eq_some_getLast (List.cons_ne_nil y r)]; rfl)

theorem topoImage_crc : crc32c (topologyZeroed topoImage) = 3392174403 := by
  have z : topologyZeroed topoImage = image ([((0x014C594B54 : Word), (3458985739 : W32)), (1, 3971230142), (1, 2451353639), (0, 543843315), (0, 2819098464),
      (0, 3666767271), (0, 1905874145), (0, 3788069005), (1, 412543598), (0, 902792892)].map Prod.fst) := by decide +kernel
  rw [crc32c, crcOf, z, crc_image _ _ (by simp only [runsTo]; decide +kernel)]
  decide

theorem limitsImage_crc : crc32c (limitsImage.take 24 ++ List.replicate 4 0 ++ limitsImage.drop 28) = 3324863281 := by
  have z : limitsImage.take 24 ++ List.replicate 4 0 ++ limitsImage.drop 28 = image ([((0x014C594B50 : Word), (4013321574 : W32)), (0, 1670183026),
      (BitVec.ofNat 64 (16 * 2 ^ 8 + 128 * 2 ^ 16 + 2 * 2 ^ 24), 1002091788), (0, 17784345), (0, 2349361049), (0, 3405752833), (0, 1110380970),
      (0, 970104014)].map Prod.fst) := by decide +kernel
  rw [crc32c, crcOf, z, crc_image _ _ (by simp only [runsTo]; decide +kernel)]
  decide

theorem devMem_mem (a : Nat) (bs : List Byte) (f : State → State) (h : ∀ s : State, (f s).portA = s.portA) :
    (devMem a bs f).portA.mem = memWrite [] a bs := by
  rw [devMem, h]

theorem got_portA (op : BitVec 8) (d : Desc) (s : State) : (got op d s).portA = s.portA := by
  simp only [got, noteFetch, modChan]
  split <;> rfl

theorem memRead_memWrite (bs : List Byte) (m : List Host.Cell) (a : Nat) (h : memWf m = true) : memRead (memWrite m a bs) a bs.length = bs := by
  induction bs generalizing m a with
  | nil => rfl
  | cons b bs ih =>
    have hw := memSet_wf m a b h
    have i := ih (memSet m a b) (a + 1) hw
    simp only [memRead] at i ⊢
    rw [List.length_cons, List.range_succ_eq_map, List.map_cons, List.map_map]
    congr 1
    · rw [memWrite, memGet_memWrite_other _ _ _ _ (.inl (by omega))]
      exact memGet_memSet_same _ _ _ h
    · rw [memWrite]
      conv => rhs; rw [← i]
      refine List.map_congr_left fun j _ => ?_
      simp only [Function.comp]
      rw [Nat.succ_eq_add_one]
      congr 1
      omega

/-- What a fetched descriptor's port reads where bytes were placed. -/
theorem hostRead_placed (op : BitVec 8) (d : Desc) (s : State) (a : Nat) (bs : List Byte) (h : (rec' op d s).port = .A)
    (hm : s.portA.mem = memWrite [] a bs) : hostRead (rec' op d s).port a bs.length (got op d s) = bs := by
  rw [h]
  exact (congrArg (fun q : PortSt => memRead q.mem a bs.length) (got_portA op d s)).trans (hm ▸ memRead_memWrite bs [] a rfl)

theorem witness_DefinitionDescriptors :
    (let s := devMem 0x3000 [1]
     let d := admin (2 ^ 48) 0x3000
     let u := got 0x44 d s
     starts 0x44 d s = true ∧ fieldNat d.w2 0 16 ≠ 0xFFFF ∧ fieldNat d.w2 16 14 ≤ fieldNat d.w2 32 14 ∧ 1 ≤ fieldNat d.w2 48 4 ∧
       fieldNat d.w2 48 4 ≤ 8 ∧ hostWord (rec' 0x44 d s).port d.w3.toNat u = u.mod.identity ∧ stepIsOpen 0 u = false) ∧
    (let d := admin 2 1
     starts 0x45 d dev = true ∧ bitOf d.w3 0 = true ∧ adjacent d.w2 (got 0x45 d dev) = true ∧ (got 0x45 d dev).mate.partner = none ∧
       (got 0x45 d dev).mate.formed = false) ∧
    (let s := { dev with mate := { partner := some 2, formed := true, reservedFrames := 1 } }
     let d := admin 2 0
     starts 0x45 d s = true ∧ bitOf d.w3 0 = false ∧ (got 0x45 d s).mate.partner = some d.w2 ∧ (got 0x45 d s).groups = [] ∧
       (got 0x45 d s).mate.dissolving = none) ∧
    (let r := held 0x45 .deskmate (admin 2 1)
     let s := { dev with descs := [r], links := [(0, { state := 3, partner := 2 }), (18, { state := 3, partner := 2, partnerLink := 18 })] }
     HeldAs 0 .deskmate r s ∧ r.aux = 0 ∧ mateUp false r.desc.w2 s = true ∧ mateUp true r.desc.w2 s = true ∧ mateFrames s ≤ freeFrameCount s) ∧
    (∀ n ∈ [1, 4096], let s := { dev with links := [(16, { ctlFar := true })] }
     let d := admin 1 2 (BitVec.ofNat 64 (n + 7 * 2 ^ 16 + 2 ^ 24))
     starts 0x46 d s = true ∧ 1 ≤ fieldNat d.w4 0 13 ∧ fieldNat d.w4 0 13 ≤ 4096 ∧ fieldNat d.w4 16 4 < 8 ∧
       (∀ i : Nat, i < 4 → (BitVec.ofNat 4 (fieldNat d.w4 24 4)).getLsbD i = true → (linkOf (farLinkOf i) (got 0x46 d s)).ctlFar = true) ∧
       (got 0x46 d s).pals = []) ∧
    (let s := devMem 0x3000 topoImage
     let d := admin 0x3000 80
     starts 0x47 d s = true ∧ hostRead (rec' 0x47 d s).port 0x3000 topoImage.length (got 0x47 d s) = topoImage ∧ d.w2.toNat = 0x3000 ∧
       fieldNat d.w3 0 32 = topoImage.length ∧ parseTopology topoImage = some topo1 ∧ topologyOk topoImage topo1 (got 0x47 d s) = true) ∧
    (let s := devMem 0x3000 limitsImage
     let d := admin 0x3000 64
     starts 0x48 d s = true ∧ hostRead (rec' 0x48 d s).port 0x3000 limitsImage.length (got 0x48 d s) = limitsImage ∧ d.w2.toNat = 0x3000 ∧
       fieldNat d.w3 0 32 = limitsImage.length ∧ limitsOk limitsImage ((chunks 64 (limitsImage.drop 64)).map limitsEntry) = true) := by
  simp only [HeldAs]
  refine ⟨by decide +kernel, by decide +kernel, by decide +kernel, by decide +kernel, by decide +kernel,
    ⟨by decide +kernel, hostRead_placed _ _ _ _ _ (by decide +kernel) rfl, by decide +kernel, by decide +kernel, by decide +kernel, ?_⟩,
    ⟨by decide +kernel, hostRead_placed _ _ _ _ _ (by decide +kernel) rfl, by decide +kernel, by decide +kernel, ?_⟩⟩
  · rw [topologyOk, topoImage_crc]
    decide +kernel
  · rw [limitsOk, limitsImage_crc]
    decide +kernel

/-- A key block for link 0's transmit slot 1, or its far secret at link 16, without its tag, and with the tag that unwraps it. -/
def keyPre (far : Bool) : List Byte :=
  leBytes 8 (0x4C594B4B + 2 ^ 32 + (if far then 16 * 2 ^ 40 + 2 ^ 48 else 2 ^ 46)) ++ leBytes 8 1 ++ List.replicate 1664 0

def keyWrap (far : Bool) : List Byte := shake256 32 (Config.kemDecaps (((keyPre far).drop 0x40).take 1568) staticKem.2 ++ ascii "LYK-KWRAP")

def keyTag (far : Bool) : BitVec 128 := gcmTag (keyWrap far) (((keyPre far).drop 0x660).take 12) ((keyPre far).take 64) (((keyPre far).drop 0x670).take 32)

def keyBlock (far : Bool) : List Byte := keyPre far ++ leBytes 16 (keyTag far).toNat

theorem leNat_leBytes (n v : Nat) : leNat (leBytes n v) = v % 256 ^ n := by
  induction n generalizing v with
  | zero => simp [leBytes, leNat, Nat.mod_one]
  | succ n ih =>
    have p : 256 ^ (n + 1) = 256 * 256 ^ n := Nat.pow_succ'
    rw [leBytes, leNat, ih, BitVec.toNat_ofNat, p, Nat.mod_mul]

theorem leBytes_length (n v : Nat) : (leBytes n v).length = n := by
  induction n generalizing v with
  | zero => rfl
  | succ n ih => rw [leBytes, List.length_cons, ih]

theorem keyPre_length (far : Bool) : (keyPre far).length = 1680 := by cases far <;> decide +kernel

theorem keyBlock_unwraps (far : Bool) : (unwrapKey (keyBlock far)).isSome = true := by
  have n := keyPre_length far
  have a : ∀ i k : Nat, i + k ≤ 1680 → ((keyBlock far).drop i).take k = ((keyPre far).drop i).take k := fun i k h => by
    rw [keyBlock, List.drop_append_of_le_length (by omega), List.take_append_of_le_length (by rw [List.length_drop]; omega)]
  have b : (keyBlock far).take 64 = (keyPre far).take 64 := a 0 64 (by omega)
  have c : ((keyBlock far).drop 0x690).take 16 = leBytes 16 (keyTag far).toNat := by
    rw [keyBlock, List.drop_append, n, List.drop_eq_nil_of_le (by omega), List.nil_append, Nat.sub_self, List.drop_zero,
      List.take_of_length_le (by rw [leBytes_length])]
  have t : (keyTag far).toNat % 256 ^ 16 = (keyTag far).toNat := Nat.mod_eq_of_lt (by simpa using (keyTag far).isLt)
  simp only [unwrapKey, a 0x40 1568 (by omega), a 0x660 12 (by omega), a 0x670 32 (by omega), b, c, leNat_leBytes, t]
  simp [keyTag, keyWrap]

theorem witness_DefinitionDescriptors_keys :
    ∀ far : Bool, let s := { devMem 0x3000 (keyBlock far) with links := [(16, { ctlFar := true })] }
      let l := if far then 16 else 0
      let d := admin 0x3000 1696 (BitVec.ofNat 64 l)
      let u := got 0x49 d s
      let bs := hostRead (rec' 0x49 d s).port d.w2.toNat 1696 u
      bs = keyBlock far ∧ (unwrapKey bs).isSome = true ∧
      (starts 0x49 d s = true ∧ fieldNat d.w3 0 32 = 1696 ∧ l < 36 ∧ u.flash.lastKeySeq.toNat < 1) ∧
      (leNat ((keyBlock far).drop 8 |>.take 8) = 1 ∧ keyBlockBad (keyBlock far) l u = false ∧
        let w0 := leNat ((keyBlock far).take 8)
        (linkOf l u).ctlFar = far ∧ w0.testBit 48 = far ∧ w0.testBit 47 = false ∧ w0.testBit 46 = !far ∧ farCapable 16 = true ∧
          (linkOf l u).keyTx = false) := by
  intro far
  have n : (keyBlock far).length = 1696 := by rw [keyBlock, List.length_append, keyPre_length, leBytes_length]
  have h := hostRead_placed 0x49 (admin 0x3000 1696 (BitVec.ofNat 64 (if far then 16 else 0)))
    { devMem 0x3000 (keyBlock far) with links := [(16, { ctlFar := true })] } 0x3000 (keyBlock far) (by cases far <;> decide +kernel)
    (devMem_mem _ _ id fun _ => rfl)
  rw [n] at h
  refine ⟨h, (congrArg (fun x => (unwrapKey x).isSome) h).trans (keyBlock_unwraps far), ?_, ?_⟩
  · cases far <;> decide +kernel
  · cases far <;> decide +kernel
/-! ## Hypotheses met: compute descriptors -/

/-- Channel 2 with a page of host memory at page 5. -/
def slow5 : Chan := { chan2 with pages := chan2.pages ++ [(5, { kind := .slow .A 0, readOnly := false })] }

/-- Rank 0 of one rank, with its identity. -/
def solo : Group := { id := 0, rank := 0, sizeM1 := 0, sites := 1, members := [1], lastStep := 3, openSlot := 2 }

/-- A COMMIT record of group 0 and of step 3. -/
def commit3 : JRec :=
  { kind := 5, journal := 0, step := 3, binding := 0, mirror := false, unit := 0, seq := 0, postCrc := 0, chain := 0, payload := List.replicate 64 0 }

/-- An export of channel 2 to its page of host memory. -/
def export0 (cont : Bool) : ExportSt :=
  { id := 0, slot := 2, dst := 5 * pageBytes, size := pageBytes, fromStep := 0, lastAtFetch := 0, continuous := cont, nextStep := 0, write := 0, gaps := 0 }

/-- Raw moves with and without the codec; every set read; exports from the last step and beyond it; a gap unit; a snapshot; windows on the
latest version and on an earlier one; a window closed. -/
theorem witness_MovesExportsAndExams :
    (∀ k ∈ [0, 1], let d := comp 0 65536 64 (BitVec.ofNat 64 (k * 2 ^ 20))
     let u := got 0x02 d dev
     starts 0x02 d dev = true ∧ (chanOf d.slot u).isSome = true ∧ moveFieldsOk d = true ∧ mvCodec d = k ∧
       regionFault d.slot d.w2.toNat (mvLen d) false u = none ∧ poisonVa d.slot d.w2.toNat (mvLen d) u = none ∧
       (let n := tensorBytes (mvDstFmt d) (tensorElems (mvSrcFmt d) (mvLen d))
        let span := if mvCodec d = 1 then maxStored n else n
        regionFault d.slot d.w3.toNat span true u = none ∧ overlapsProtected d.slot d.w3.toNat span u = false) ∧
       (∀ out : List (Nat × Nat), forwardDesc (rec' 0x02 d dev).group (rec' 0x02 d dev).step d.slot [(d.w2.toNat, mvLen d)] out u = some u)) ∧
    (let d := comp 0 0xFFFF
     let u := got 0x0C d dev
     starts 0x0C d dev = true ∧ (chanOf d.slot u).isSome = true ∧ regionFault d.slot d.w2.toNat (64 + 64 * 16384) true u = none ∧
       ∀ n : Nat, overlapsProtected d.slot d.w2.toNat n u = false) ∧
    (∀ n ∈ [0, 1], let s := dev slow5
     let d := comp (BitVec.ofNat 64 (5 * pageBytes)) (BitVec.ofNat 64 pageBytes) (BitVec.ofNat 64 n)
     let u := got 0x0A d s
     starts 0x0A d s = true ∧ pageBytes % 4096 = 0 ∧ fieldNat d.w3 0 48 = pageBytes ∧
       regionFault d.slot d.w2.toNat pageBytes true u = none ∧ slowRegion d.slot d.w2.toNat pageBytes u = true ∧
       overlapsProtected d.slot d.w2.toNat pageBytes u = false ∧ tooOld d.w4 u = false ∧ bitOf d.w5 0 = false ∧
       lastCommitted d.slot s = 0 ∧ d.w4.toNat = n) ∧
    (∀ cont : Bool, let e := export0 cont
     let s := { dev slow5 with descs := [held 0x0A .exporting], nmu := { exports := [e] } }
     s.nmu.exports.find? (fun e => e.id == 0) = some e ∧ descOf 0 s = some (held 0x0A .exporting) ∧ e.nextStep.toNat ≤ lastCommitted e.slot s ∧
       regionFenced e.slot e.dst e.size s = false ∧
       e.write.toNat + (unitOfStep (exportGroups e.slot s) e.nextStep s).1.length - (vaWord e.slot (e.dst + 8) s).toNat ≤ e.size - 4096 ∧
       e.lastAtFetch.toNat ≤ e.nextStep.toNat) ∧
    (let s := { dev slow5 with groups := [solo], nmu := { journals := Vector.replicate 24 { records := [commit3] } } }
     let d := comp 3 (BitVec.ofNat 64 (5 * pageBytes)) (BitVec.ofNat 64 pageBytes)
     let u := got 0x0D d s
     starts 0x0D d s = true ∧ regionFault d.slot d.w3.toNat pageBytes true u = none ∧ d.w2.toNat ≤ lastCommitted d.slot u ∧
       slowRegion d.slot d.w3.toNat pageBytes u = true ∧ overlapsProtected d.slot d.w3.toNat pageBytes u = false ∧
       commitRec (exportGroups d.slot u) d.w2 u = some commit3 ∧ canRebuild d.w2 u = true ∧
       snapshotBound (snapshotSections (exportGroups d.slot u) (rebuiltAll (exportGroups d.slot u) d.w2 u)) ≤ fieldNat d.w4 0 48) ∧
    (∀ n ∈ [2, 3], let s := { dev with groups := [solo] }
     let d := comp (BitVec.ofNat 64 n) 0
     let u := got 0x08 d s
     let r := held 0x08 .examOpen d
     starts 0x08 d s = true ∧ groupOf (fieldNat d.w3 0 16) u = some solo ∧ d.w2.toNat ≤ solo.lastStep.toNat ∧ examHeld d.slot u = false ∧
       gatherPending solo u = false ∧ canRebuild d.w2 u = true ∧ HeldAs 0 .examOpen r { s with descs := [r] } ∧
       examHeld d.slot { s with descs := [r] } = false) ∧
    (let s := { dev with groups := [solo] }
     let d := comp 2 0
     let u := got 0x08 d s
     ∀ y : State, { y with card := u.card } = u → showVersion d.slot solo d.w2 y = some ({ u with card := y.card }, [], [])) ∧
    (let e : Exam := { id := 0, slot := 2, group := 0, version := 3 }
     let s := { dev with nmu := { exams := [e] } }
     let d := comp 0
     starts 0x09 d s = true ∧ (got 0x09 d s).nmu.exams.find? (fun e => e.id == fieldNat d.w2 0 16 && e.slot == d.slot.val) = some e) := by
  simp only [HeldAs]
  refine ⟨?_, ⟨by decide +kernel, by decide +kernel, by decide +kernel, fun _ => rfl⟩, by decide +kernel, by decide +kernel, by decide +kernel,
    by decide +kernel, ?_, by decide +kernel⟩
  · intro k hk
    rw [List.mem_cons, List.mem_singleton] at hk
    rcases hk with rfl | rfl <;>
      exact ⟨by decide +kernel, by decide +kernel, by decide +kernel, by decide +kernel, by decide +kernel, by decide +kernel, by decide +kernel,
        fun _ => rfl⟩
  · intro y hy
    have e : y = { (got 0x08 (comp 2 0) { dev with groups := [solo] }) with card := y.card } := by rw [← hy]
    rw [e]
    generalize y.card = k
    rfl
/-- A lesson image of one NOP with its SHAKE256 digest. -/
def lessonImage : List Byte :=
  image [0x4C594B4C + 2 ^ 32, 1, 0, 0, 232881322490685624, 2529187400871419962, 16862295967270944665, 15362784405385380799, word 0x05 0x00]

/-- A lesson of core 0 with the image at the start of page 0; its run ends by itself and by a stop; a core with a substitute; an engine. -/
theorem witness_RunsCoresAndEngines :
    (let s := { dev with memory := { fast := memWrite [] pageBytes lessonImage, framesUsed := [1, 2] } }
     let d := comp
     let u := got 0x01 d s
     let h := lessonImage.take 64
     let code := lessonImage.drop 64
     vaRead d.slot d.w2.toNat 64 u = h ∧ vaRead d.slot (d.w2.toNat + 64) 8 u = code ∧ shake256 32 (code ++ []) = h.drop 32 ∧
       starts 0x01 d s = true ∧ (∃ c : Chan, chanOf d.slot u = some c ∧ runCores d c = some [0] ∧ pageFits d.slot c (readExpertPage d.slot none u) u = true) ∧
       fieldNat d.w5 0 6 ≤ 32 ∧ regionsFault d.slot [(d.w4.toNat, 0, false), (d.w6.toNat, 0, false)] u = none ∧
       regionFault d.slot d.w2.toNat 64 false u = none ∧ poisonAmong d.slot [(d.w4.toNat, 0), (d.w6.toNat, 0), (d.w2.toNat, 64)] u = none ∧
       imageHeader h = some (1, 0, 0) ∧ fieldNat d.w3 0 32 < 1 ∧ regionFault d.slot d.w2.toNat 72 false u = none ∧
       poisonVa d.slot d.w2.toNat 72 u = none ∧ firstBadWord (wordsOf code) = none ∧ u.nmu.exams = [] ∧
       (rec' 0x01 d s).step = none ∧ u.runs = []) ∧
    (∀ b : Bool, let v := { run7 with stop := if b then some (stDone, 0, 0) else none }
     let s := { dev with runs := [v], descs := [held 0x01 .run], cores := [(0, { run := some 7, halted := true })] }
     runOf 7 s = some v ∧ v.begun = true ∧ (∀ c ∈ v.cores, coreFinished v.stop.isSome (coreOf c s) = true) ∧
       descOf v.desc s = some (held 0x01 .run)) ∧
    (let s := { onCore 0 with flash := { physOf := [(0, 0)] }, time := { ticks := 250000 } }
     tget? s.flash.physOf 0 = some 0 ∧ tgetD s.flash.coreStatus 0 0 = 0 ∧
       (s.flash.physOf.filter fun x => x.2 == 0).map Prod.fst = [0] ∧ substituteFor 0 s = some 1 ∧ (coreOf 0 s).seq.running = true ∧
       seqHeld (coreOf 0 s) = false ∧ 1000000 ≤ 4 * (s.time.ticks - (coreOf 0 s).lastIssueTick) ∧ s.runs = []) ∧
    (let s : State := { engines := [(27, { waiting := [1], heldBytes := [(0, 4194304)] })] }
     let x := engineOf 27 s
     x.waiting = [1] ∧ x.open'.length < 64 ∧ x.fenced = false ∧ x.heldBytes = [(0, 4194304)] ∧ x.queue + 4194304 ≤ 4194304 ∧ x.open' = []) := by
  refine ⟨⟨by decide +kernel, by decide +kernel, ?_, by decide +kernel, ⟨_, rfl, ?_, by decide +kernel⟩, by decide +kernel⟩, by decide +kernel,
    by decide +kernel, by decide +kernel⟩
  · decide +kernel
  · decide +kernel
/-! ## Hypotheses met: exchanges, bindings, steps -/

/-- An all-gather of 32 bytes fetched; admission in a group of one; the end of an exchange on time and late, and of a round's pass. -/
theorem witness_ExchangesFromFetchToFinalStatus :
    (let s := { dev with groups := [grp0] }
     let d := comp (BitVec.ofNat 64 (2 + 2 ^ 32)) 0 65536 32
     let r := rec' 0x03 d s
     let u := got 0x03 d s
     let p := newPass r grp0 u
     let x := noteExchange r u
     starts 0x03 d s = true ∧ groupOf (exGroup d) u = some grp0 ∧ u.passes = [] ∧ exFieldsOk d (groupN grp0) = true ∧
       regionsFault d.slot [(d.w3.toNat, exSource p grp0, false), (d.w4.toNat, dueBytes p grp0, true)] x = none ∧
       overlapsProtected d.slot d.w4.toNat (dueBytes p grp0) x = false ∧ poisonVa d.slot d.w3.toNat (exSource p grp0) x = none ∧
       r.step = none) ∧
    (let p := { pass0 with group := 0, admitted := false }
     let r := held 0x03 .admission
     let s := { dev with groups := [solo], passes := [p], descs := [r] }
     descOf 0 s = some r ∧ s.passes.find? (fun p => p.desc == 0) = some p ∧ passOf p.id s = some p ∧ groupOf p.group s = some solo ∧
       (descOf p.desc s).isSome = true ∧ fuseRefused p solo s = false ∧ (∀ k : Nat, k < groupN solo → k = solo.rank) ∧
       (admitWire p solo s).1 = 0 ∧ p.deadline = 0 ∧ stagingFor p s = some 0 ∧
       s.memory.framesUsed.length + s.memory.privateFrames + parkFor p solo s ≤ frameCapacity s.flash.variant ∧
       s.passes.countP (fun q => q.admitted) < 16384 ∧ solo.early = [] ∧ solo.voids = [] ∧ chanOf r.desc.slot s = some chan2 ∧
       2 ≤ r.desc.slot.val ∧ chan2.waiting.length < 4096) ∧
    (∀ n ∈ [7, 8], ∀ rd ∈ [none, some 1], let p := { pass0 with promise := BitVec.ofNat 64 n, round := rd }
     let s := { dev with groups := [grp0], passes := [p], descs := [held 0x03 .pass] }
     s.passes.find? (fun p => p.desc == 0 && p.admitted) = some p ∧ (descOf 0 s).isSome = true ∧ p.outstanding = [] ∧
       groupOf p.group s = some grp0 ∧ passFilled p grp0 s = true) := by
  decide +kernel

/-- A binding of 1,024 BF16 parameters of channel 2 at page 0 in group 0, of a tier. -/
def bind0 (tier : Nat) : Binding :=
  { num := 0, slot := 2, base := 0, count := 1024, rule := 0, fmt := 2, hyperVa := 65536, hyper := [0, 0, 0, 0, BitVec.ofNat 64 (4 * tier), 0, 0, 0]
    group := 0, lbase := 0, bindStep := 3, dirFirst := 0, frames := 0 }

/-- Group 0 with its step 4 open. -/
def soloOpen : Group := { solo with open' := some 4 }

/-- A fused pass with the gradient of one parameter. -/
def fused0 : Pass :=
  { pass0 with group := 0, coll := 1, fmt := 2, fuse := true, length := 2, step := some 4
               nodes := [{ elem := 0, level := 0, node := 0, val := 0x3F800000 }] }

/-- RULE_BIND of rule 0 and its release, each fetched and held; a unit complete for a binding of no tier and of one; a record that lands and
one that is acknowledged. -/
theorem witness_BindingsAndUnits :
    (let s := { dev with groups := [solo] }
     let d := comp 0 1024 (BitVec.ofNat 64 (2 * 2 ^ 8)) 131072
     let held0 := held 0x05 .ruleBind d
     ∀ again : Bool, let u := if again then { s with descs := [held0] } else got 0x05 d s
       let h := readHyper d.slot d.w5.toNat u
       starts 0x05 d s = true ∧ (HeldAs 0 .ruleBind held0 { s with descs := [held0] }) ∧ fieldNat d.w4 0 8 ≠ 0xFF ∧ bindFieldsOk d = true ∧
         fieldNat d.w3 0 48 * fmtBytes (fieldNat d.w4 8 8) = 2048 ∧ regionsFault d.slot [(d.w2.toNat, 2048, false), (d.w5.toNat, 64, false)] u = none ∧
         d.w5.toNat % 64 = 0 ∧ hyStepOk 0 h = true ∧ hyBindOk 0 h = true ∧ stageFast d.slot h u = true ∧ groupOf (hyGroup h) u = some solo ∧
         solo.open' = none ∧ u.nmu.bindings = [] ∧ freeEntries (ceilDiv 1024 65536) u = some 0 ∧ stateFrames 0 1024 (hyTier h) ≤ freeFrameCount u ∧
         poisonVa d.slot d.w2.toNat 2048 u = none) ∧
    (let s := { dev with groups := [solo], nmu := { bindings := [bind0 0] } }
     let d := comp 0 0 0xFF
     let held0 := held 0x05 .ruleBind d
     ∀ again : Bool, let u := if again then { s with descs := [held0] } else got 0x05 d s
       starts 0x05 d s = true ∧ (HeldAs 0 .ruleBind held0 { s with descs := [held0] }) ∧ fieldNat d.w4 0 8 = 0xFF ∧
         u.nmu.bindings.find? (fun b => b.slot == d.slot.val && b.base == d.w2.toNat) = some (bind0 0) ∧ stepIsOpen (bind0 0).group u = false) ∧
    (∀ tier ∈ [0, 1], let b := bind0 tier
     let s := { dev with groups := [soloOpen], passes := [fused0], nmu := { bindings := [b] } }
     passOf 0 s = some fused0 ∧ groupOf fused0.group s = some soloOpen ∧ passUnits fused0 s = some (b, 0, 1) ∧ fused0.admitted = true ∧
       fused0.fuse = true ∧ 0 ∉ fused0.journalled ∧ b.staged = [] ∧ soloOpen.open' = some 4 ∧ fused0.step = some 4 ∧ unitHeld b 0 s = false ∧
       (unitGrads fused0 soloOpen b 0).isSome = true) ∧
    (let b := { bind0 1 with staged := [(0, List.replicate 1024 0)], writeBack := [3] }
     let s := { dev with groups := [soloOpen], nmu := { bindings := [b] } }
     bindingOf 0 s = some b ∧ b.staged.find? (fun x => x.1 == 0) = some (0, List.replicate 1024 0) ∧ groupOf b.group s = some soloOpen ∧
       tierPort b = some .A ∧ (portOf .A s).fenced = false ∧ 3 ∈ b.writeBack) := by
  simp only [HeldAs]
  refine ⟨fun again => ?_, fun again => ?_, by decide +kernel, by decide +kernel⟩
  · cases again <;> decide +kernel
  · cases again <;> decide +kernel

/-- The device with a numerics page, in group 0 alone. -/
def stepDev (g : Group) : State :=
  { dev { chan2 with pages := chan2.pages ++ [(numericsVa / pageBytes, { kind := .fast 3, readOnly := false })] } with groups := [g] }

/-- The last rank of two, its step open and joined. -/
def grpDue : Group := { id := 0, rank := 1, sizeM1 := 1, sites := 1, members := [2, 1], lastStep := 3, open' := some 4, committing := some 9 }

theorem witness_StepsFromOpenToDecision :
    (let s := stepDev solo
     let d := comp 4
     let r := held 0x06 .stepOpen d
     ∀ again : Bool, let u := if again then { s with descs := [r] } else got 0x06 d s
       starts 0x06 d s = true ∧ HeldAs 0 .stepOpen r { s with descs := [r] } ∧ groupOf (fieldNat d.w3 0 16) u = some solo ∧ solo.lost = false ∧
         solo.open' = none ∧ d.w2 = solo.lastStep + 1 ∧ (locate d.slot numericsVa u).isSome = true ∧ (readCtl d.slot u).isSome = true ∧
         openHold (if again then r else rec' 0x06 d s) solo u = none ∧ u.nmu.bindings = []) ∧
    (let s := stepDev soloOpen
     let d := comp 4
     starts 0x07 d s = true ∧ groupOf (fieldNat d.w3 0 16) (got 0x07 d s) = some soloOpen ∧ soloOpen.open' = some d.w2 ∧
       soloOpen.committing = none) ∧
    (let g := grpDue
     let s := { member 0 { rxReady with partner := 2 } with groups := [g], passes := [] }
     groupOf 0 s = some g ∧ g.open' = some 4 ∧ memberLost g s = false ∧ reportDue g s = true ∧ s.mate.takenOver = [] ∧ g.reports = [] ∧
       g.rank ≠ 0 ∧ childRanks (groupN g) g.rank = [] ∧ rankHolder g (parentRank (groupN g) g.rank) ≠ s.mod.identity ∧
       linkTo (rankHolder g (parentRank (groupN g) g.rank)) s = some 0 ∧ parentRank (groupN g) g.rank ≠ g.rank) ∧
    (let g := { soloOpen with committing := some 9 }
     let s := stepDev g
     groupOf 0 s = some g ∧ memberLost g s = false ∧ reportDue g s = true ∧ g.rank = 0 ∧ groupN g = 1 ∧ g.decided = false ∧
       s.mate.formed = false ∧ g.faulted = false ∧ g.faultedPass = false ∧ stagedLost g.id s = false ∧
       groupOf g.id (lastWork g.id 4 (setShare s.card.moveMax s)) = some g ∧ g.overflow = false ∧ g.gradSat = false) ∧
    (let g := { grp0 with id := 0, open' := some 4, committing := some 9 }
     let s := { member 0 rxReady with groups := [g] }
     let u := takeNonce 0 false 1 s
     let it := item 0x10 0 (BitVec.ofNat 64 (2 ^ 16)) 4 0 0 0
     (Policed 0 it 0x10 s u ∧ Policed 0 (item 0x11 0 0 4 0 0 0) 0x11 s u) ∧ groupOf (fieldNat it.w1 0 16) u = some g ∧
       rankHolder g (parentRank (groupN g) (fieldNat it.w1 16 14)) = s.mod.identity ∧ g.open' = some it.w2 ∧ g.decided = false ∧
       g.reports = [] ∧ g.committing.isSome = true ∧ (item 0x11 0 0 4 0 0 0).w2 = 4) := by
  simp only [HeldAs]
  refine ⟨fun again => by cases again <;> decide +kernel, by decide +kernel, by decide +kernel, by decide +kernel, ⟨?_, ?_⟩, by decide +kernel⟩ <;>
    exact item_policed _ _ _ _ _ _ _ _ _ (by decide +kernel) (by decide +kernel) (by decide +kernel) (by decide +kernel)
/-! ## Hypotheses met: rounds, deskmates -/

/-- A pen-pal channel in slot 3 whose page 0 is that of channel 2 and which has its round page. -/
def palChan : Chan :=
  { chan2 with
      handle := mkHandle 3 1 3, cls := 3, cores := []
      pages := [(0, { kind := .aliasOf 2 0, readOnly := false }), (roundPageVa / pageBytes, { kind := .fast 4, readOnly := false })] }

/-- The device with it, in group 0, with a binding of page 0. -/
def roundDev (f : State → State := id) : State :=
  let s := dev
  f { s with
      slots := s.slots ++ [(3, { chan := some palChan })]
      groups := [solo], nmu := { bindings := [bind0 0] } }

/-- A ROUND_SEND of round `n` of the region at page 0. -/
def roundDesc (n : Nat) : Desc :=
  { slot := 3, ring := 0, flags := 0, handle := mkHandle 3 1 3, tag := 5, w2 := BitVec.ofNat 64 n, w3 := 0xFFFF, w4 := 0, w5 := 2048, w6 := 0, w7 := 0 }

/-- The region there, with the steps of a round and its sites. -/
def region0 (steps : Nat) (sites : Nat := 1) : Region :=
  { num := 0, slot := 3, base := 0, length := 2048, binding := 0, firstParam := 0, header := List.replicate 8 0, group := 0, site := 0, outerRule := 0
    driftRounds := 64, roundWaitS := 60, pals := [0, 7], ledgerVa := 0, ledgerBytes := 0, localSteps := steps, sites := sites }

def pal7 : Pal := { id := 7, partner := 2, localSteps := 1, staleness := 0, farLinks := 0, ethertype := 0, reachable := true, lastState := some 0 }

/-- A member with this region between two sites. -/
def siteDev : State := { member 0 rxReady with regions := [region0 1 2], pals := [pal7], time := { ticks := 15000000000 }, nmu := { bindings := [bind0 0] }
                                               groups := [solo] }

/-- An empty record of site 1 for round 1. -/
def emptyRec : List Byte := image [1, 9, 0, 0, 0, 0, 0, 0]

theorem witness_RoundsAndPenPals_sends :
    (∀ again : Bool, let d := roundDesc 0
     let s := roundDev
     let q := held 0x04 .roundForm d
     let u := if again then { s with descs := [q] } else got 0x04 d s
     let h := readRound d.slot u
     starts 0x04 d s = true ∧ HeldAs 0 .roundForm q { s with descs := [q] } ∧ q.aux = 0 ∧ (locate d.slot roundPageVa u).isSome = true ∧
       regionFault d.slot d.w4.toNat 2048 false u = none ∧ resolveRegion d.slot d.w4.toNat 2048 u = some (bind0 0, 0) ∧
       groupOf (rhGroup h) u = some solo ∧ roundHeaderOk h solo u = true ∧ palNamed d h solo = true ∧ u.regions = [] ∧ stepIsOpen solo.id u = false ∧
       ledgerOk d.slot h solo 1024 u = true ∧
       ceilDiv (1024 * (14 + 5 * (headerStale h solo u + 1) + (if rhRule h = 1 then 8 else 0))) pageBytes ≤ freeFrameCount u) ∧
    (∀ steps ∈ [0, 1], let d := roundDesc 1
     let x := region0 steps
     let s := roundDev fun s => { s with regions := [x] }
     let u := got 0x04 d s
     let h := readRound d.slot u
     starts 0x04 d s = true ∧ (locate d.slot roundPageVa u).isSome = true ∧ regionFault d.slot d.w4.toNat 2048 false u = none ∧
       resolveRegion d.slot d.w4.toNat 2048 u = some (bind0 0, 0) ∧ groupOf (rhGroup h) u = some solo ∧ roundHeaderOk h solo u = true ∧
       palNamed d h solo = true ∧
       u.regions.find? (fun x => x.slot == d.slot.val && x.base == d.w4.toNat && x.length == 2048) = some x ∧ openPart x.header = openPart h ∧
       x.openId = none ∧ d.w2.toNat = x.roundSent + 1 ∧ atBoundary x u = true ∧ stepsInForce x 1 = steps ∧ x.stepsSince = 0) := by
  simp only [HeldAs]
  refine ⟨fun again => ?_, by decide +kernel⟩
  cases again <;> decide +kernel

theorem witness_RoundsAndPenPals_items :
    (let s := siteDev
     let x := region0 1 2
     regionOf 0 s = some x ∧ (otherSites x).find? (fun j => x.pals.getD j 0 == 7) = some 1 ∧ sitePal x 1 s = some pal7 ∧ palLink pal7 s = some 0 ∧
       tget? x.stateSent 1 = none ∧ palSender pal7 2 s = true ∧ (1 : Nat) ≠ x.site) ∧
    (let s := siteDev
     let u := takeNonce 0 false 1 s
     Policed 0 (item 0x22 0 1 0 0 0 1) 0x22 s u ∧ Policed 0 (item 0x23 0 0 0 0 0 1) 0x23 s u) ∧
    (let u := takeNonce 0 false 1 siteDev
     let x := region0 1 2
     (item 0x22 0 1 0 0 0 1).w5 = siteDev.mod.identity ∧ regionOf 0 u = some x ∧ fieldNat (item 0x22 0 1 0 0 0 1).w1 0 3 = 1 ∧
       sitePal x 1 u = some pal7 ∧ palSender pal7 2 u = true ∧
       (otherSites x).find? (fun j => (sitePal x j u).any fun p => palSender p 2 u) = some 1 ∧ palLink pal7 u = some 0 ∧ u.passes = [pass0] ∧
       (item 0x23 0 0 0 0 0 1).w1 = 0) ∧
    (let s := siteDev
     let x := region0 1 2
     let d := parseDiff x emptyRec
     (linkOf 0 s).state = 3 ∧ (∀ y ∈ s.regions, y.joining = none) ∧ s.regions.find? (fun x => x.group == 0 &&
         ((bindingOf x.binding s).map fun b => b.lbase + x.firstParam) == some (wordAt emptyRec 2 % 2 ^ 48)) = some x ∧
       sitePal x (wordAt emptyRec 1 % 8) s = some pal7 ∧ d.site ≠ x.site ∧ recordOk' x emptyRec = true ∧ d.site < x.sites ∧
       x.roundFinal < d.round ∧ heldRec x d.round d.site = none ∧ x.lrMu = [] ∧ d.empty = true) ∧
    (let x := { region0 1 with roundSent := 1, ledger := [{ round := 1, site := 0, empty := true, stale := 0, chunks := [], bytes := [] }] }
     let s := roundDev fun s => { s with regions := [x] }
     regionOf 0 s = some x ∧ atBoundary x s = true ∧ x.openId = none ∧ finalTo x (x.roundMerged - x.roundFinal) x.roundFinal = x.roundFinal ∧
       x.roundMerged < x.roundSent ∧ mergeReady x (x.roundMerged + 1) s = true) ∧
    (let s := { siteDev with descs := [{ held 0x06 .stepOpen with group := some 0, aux := 0x10 }] }
     let x := region0 1 2
     regionOf 0 s = some x ∧ roundHoldSince x.group s = some 0 ∧ (1 : Fin 8).val ≠ x.site ∧ siteReach x 1 s = true ∧
       1000000000 * x.roundWaitS ≤ nsSince 0 (mono s)) ∧
    (palOf 7 siteDev = some pal7 ∧ pal7.reachable = true ∧ pal7.lastState = some 0 ∧ 1000000000 ≤ nsSince 0 (mono siteDev)) := by
  refine ⟨by decide +kernel, ⟨?_, ?_⟩, by decide +kernel, by decide +kernel, by decide +kernel, by decide +kernel, by decide +kernel⟩ <;>
    exact item_policed _ _ _ _ _ _ _ _ _ (by decide +kernel) (by decide +kernel) (by decide +kernel) (by decide +kernel)
/-- A device with its deskmate 2 on links 0 and 18, in a group of three with a witness behind link 1. -/
def mated : State :=
  let p := { rxReady with partner := 2 }
  let topo := { topo2 with devices := [(1, 0), (2, 0), (3, 0)], edges := [(0, 0, 1, 0, false), (0, 18, 1, 18, false), (0, 1, 2, 1, false)] }
  { ready with
      mod := { ready.mod with identity := 1 }, time := { ticks := 15000000000 }, flash := { topology := some topo }
      links := [(0, p), (18, p), (1, { rxReady with partner := 3 })]
      groups := [{ grp0 with id := 0, sizeM1 := 2, members := [1, 2, 3], open' := some 4, stepSrc := [(0, 2, 0, 64, 4)] }]
      mate := { partner := some 2, formed := true, lastBeat := Vector.replicate 2 (some 0) }
      slots := [(2, { lastHandle := mkHandle 1 1 2, chan := some chan2 })], nmu := { bindings := [bind0 0] } }

/-- A COMMIT record of step 3 as it travels, with its CRC. -/
def recImage : List Byte := image [5, 3, 0, 0, 1, 0, 0, 1741318374]

theorem recImage_crc : crc32c (recImage.take 56) = 1741318374 := by
  have z : recImage.take 56 = image ([((5 : Word), (469152319 : W32)), (3, 1388528489), (0, 810833590), (0, 1970236369), (1, 226729676),
      (0, 710862880), (0, 2553648921)].map Prod.fst) := by decide +kernel
  rw [crc32c, crcOf, z, crc_image _ _ (by simp only [runsTo]; decide +kernel)]
  decide

theorem recImage_parses : parseRecs 2 recImage = ([{ commit3 with seq := 1, payload := [] }], []) := by
  have p : parseRec recImage = some ({ commit3 with seq := 1, payload := [] }, []) := by
    rw [parseRec, recImage_crc]
    decide +kernel
  rw [parseRecs, p]
  decide +kernel

/-- The mirror segment that carries it, before it is tagged and after. -/
def mirrorBare : Segment :=
  { w0 := BitVec.ofNat 64 (3 + 6 * 2 ^ 5 + 15 * 2 ^ 24), w1 := 0, w2 := 0, w3 := 64, w4 := 0, w5 := 1, tag := 0, keyId := false, data := recImage }

def mirrorSeg : Segment := { mirrorBare with tag := gcmTag (keyBytes 0) (itemIv 0 1) (segAad mirrorBare ++ recImage) [] }

theorem mirrorSeg_tagOk (k : Link) (h : vget k.rxKeys (slotIx false) {} = { valid := true }) :
    tagOk k mirrorSeg.keyId mirrorSeg.w5 (segAad mirrorSeg ++ mirrorSeg.data) [] mirrorSeg.tag = true := by
  have e : segAad mirrorSeg = segAad mirrorBare := by simp only [segAad, mirrorSeg]
  have d : mirrorSeg.data = recImage := by simp only [mirrorSeg, mirrorBare]
  have t : mirrorSeg.tag = gcmTag (keyBytes 0) (itemIv 0 1) (segAad mirrorBare ++ recImage) [] := by simp only [mirrorSeg]
  rw [e, d, t]
  exact tagOk_zero k _ _ h

theorem witness_DeskmatesKeepEachOther :
    (∀ l ∈ [0, 18], mated.mate.formed = true ∧ (l = 0 ∨ l = 18) ∧ (linkOf l mated).state = 3 ∧
       100000 ≤ nsSince (vget mated.mate.sentBeat (if l = 18 then 1 else 0) 0) (mono mated) ∧ mated.mate.partner = some (linkOf l mated).partner) ∧
    (∀ kind ∈ [0x12, 0x13, 0x14, 0x18, 0x19], ∀ l : Fin 36, l ∈ [(0 : Fin 36), 18] →
       Policed l (item kind 0 0 0 0 0 0) kind mated (takeNonce l false 1 mated)) ∧
    (mated.mate.degraded = false ∧ mated.mate.takeoverAsked = false ∧ beatsLost mated = true ∧ mated.mod.leaving = [] ∧
       mated.groups.findSome? (fun g => witness g 2 mated) = some 3 ∧ linkTo 3 mated = some 1) ∧
    (let s := { mated with mate := { mated.mate with takeoverAsked := true } }
     (∀ r : Word, Policed 1 (item 0x15 0 2 r 0 0 0) 0x15 s (takeNonce 1 false 1 s)) ∧ s.mate.takeoverAsked = true ∧ s.mate.partner = some 2 ∧
       s.mate.dissolving = none ∧ ∀ g ∈ s.groups, g.ackSeq = none) ∧
    (let it := item 0x16 0 (BitVec.ofNat 64 (2 ^ 16)) 9 0 0 0
     Policed 1 it 0x16 mated (takeNonce 1 false 1 mated) ∧ ∃ g ∈ mated.groups, groupOf (fieldNat it.w1 0 16) (takeNonce 1 false 1 mated) = some g ∧
       fieldNat it.w1 16 14 ≠ g.rank ∧ fieldNat it.w1 16 14 < groupN g ∧ rankHolder g (fieldNat it.w1 16 14) ≠ it.w2) ∧
    (let s := { mated with links := [(0, { rxReady with partner := 2, crypto := true })] }
     let k := linkOf 0 s
     let r := { commit3 with seq := 1, payload := [] }
     tagOk k mirrorSeg.keyId mirrorSeg.w5 (segAad mirrorSeg ++ mirrorSeg.data) [] mirrorSeg.tag = true ∧
       parseRecs (mirrorSeg.data.length / 64 + 1) mirrorSeg.data = ([r], []) ∧
       (k.state = 3 ∧ k.crypto = true ∧ nonceFresh k mirrorSeg.keyId mirrorSeg.w5 = true ∧ segFormOk mirrorSeg = true ∧
         bitOf mirrorSeg.w0 4 = false ∧ sgColl mirrorSeg = 6 ∧ s.mate.partner = some k.partner ∧ sgElement mirrorSeg = 0 ∧ mirroring s = true ∧
         s.mate.repairing = [] ∧ r.journal < 24 ∧ r.kind ≠ 6 ∧ mirrorHas r.journal r.seq s.mate = false)) ∧
    (let it := item 0x17 0 0 4 0 1 0
     let u := takeNonce 1 false 1 mated
     Policed 1 it 0x17 mated u ∧ ∃ g ∈ mated.groups, groupOf (fieldNat it.w1 0 16) u = some g ∧ g.open' = some it.w2 ∧
       g.stepSrc.find? (fun x => x.1 % 2 ^ 48 == fieldNat it.w1 16 48) = some (0, 2, 0, 64, 4)) ∧
    (let u := takeNonce 0 false 1 mated
     fieldNat (item 0x12 0 0 0 0 0 0).w1 0 5 < 24 ∧ bindingOf (fieldNat (item 0x18 0 0 0 0 0 0).w1 0 16) u = some (bind0 0) ∧
       (copyBytes (fieldNat (item 0x19 0 0 0 0 0 0).w1 0 16) (fieldNat (item 0x19 0 0 0 0 0 0).w2 0 48) u).isSome = true) := by
  refine ⟨by decide +kernel, ?_, by decide +kernel, ⟨fun r => ?_, by decide +kernel⟩, ⟨?_, _, List.mem_singleton.2 rfl, by decide +kernel⟩,
    ⟨?_, ?_, by decide +kernel⟩, ⟨?_, _, List.mem_singleton.2 rfl, by decide +kernel⟩,
    by decide +kernel⟩
  · intro kind hk l hl
    simp only [List.mem_cons, List.not_mem_nil, or_false] at hk hl
    rcases hk with rfl | rfl | rfl | rfl | rfl <;> rcases hl with rfl | rfl <;>
      exact item_policed _ _ _ _ _ _ _ _ _ (by decide +kernel) (by decide +kernel) (by decide +kernel) (by decide +kernel)
  · exact item_policed _ _ _ _ _ _ _ _ _
      (by decide +kernel : fieldNat (item 0x15 0 2 0 0 0 0).w0 0 4 = 4 ∧ itemKind (item 0x15 0 2 0 0 0 0) = 0x15) (by decide +kernel) (by decide +kernel) (by decide +kernel)
  · exact item_policed _ _ _ _ _ _ _ _ _ (by decide +kernel) (by decide +kernel) (by decide +kernel) (by decide +kernel)
  · exact mirrorSeg_tagOk _ (by decide +kernel)
  · have n : mirrorSeg.data.length / 64 + 1 = 2 := by decide +kernel
    rw [n]
    exact recImage_parses
  · exact item_policed _ _ _ _ _ _ _ _ _ (by decide +kernel) (by decide +kernel) (by decide +kernel) (by decide +kernel)
/-! ## Hypotheses met: stacks, starts, bring-up -/

/-- Stack 0 as the caller says, a minute after the start. -/
def onStack (k : StackSt) (f : MemSt → MemSt := id) : State :=
  { ready with time := { ticks := 15000000000, dtime := 60000000000 }
               memory := f { stk := (Vector.replicate 24 ({} : StackSt)).set 0 k } }

/-- Each cause of Table 10-4, at its limit. -/
theorem witness_StacksAndTheChannelMap_causes :
    ∀ x ∈ [(0, ({ sparesUsed := 32752 } : ChanMem)), (1, { uncorrectable := List.replicate 3 0 }), (3, { trainFails := 2 }), (5, {})],
      let s := onStack { temp := 100 } fun m => { m with chans := [(0, x.2)] }
      (memChanOf 0 s).out = false ∧ causeHolds 0 x.1 s = true := by
  decide +kernel

theorem witness_StacksAndTheChannelMap :
    (∀ kind ∈ [0, 1, 2, 3, 4], let s : State := { memory := { moving := [(0, kind)], map := [⟨0, 0, 1, 0, 0, 0, 5, 0⟩] } }
     s.memory.moving.find? (fun x => x.1 == 0) = some (0, kind) ∧ (mapEntry 0 s).state = 1) ∧
    (let s := onStack { driftSince := some 50000000000 }
     (vget s.memory.stk 0 {}).level < 4 ∧ anyRetrain s = false ∧ (vget s.memory.stk 0 {}).driftSince = some 50000000000 ∧
       10000000000 ≤ nsSince 50000000000 (now s) ∧ RegistersAnswer .A s ∧ RegistersAnswer .B s ∧ s.memory.moving = []) ∧
    (∀ r ∈ [2, 18], (vget (onStack { retraining := r }).memory.stk 0 {}).retraining % 4 = 2) ∧
    (let s := onStack { parkedAt := some 0, parkedPolicy := true }
     let k := vget s.memory.stk 0 {}
     k.parkedAt = some 0 ∧ k.parkedPolicy = true ∧ 60000000000 ≤ nsSince 0 (now s) ∧ k.retraining = 0 ∧ k.level < 4) ∧
    (∀ n ∈ [3, 7], let s : State := { mod := { stage := BitVec.ofNat 4 n }, memory := { pendingErr := [64] } }
     127 < frameCapacity s.flash.variant * pageBytes ∧ 3 ≤ s.mod.stage.toNat ∧ s.mod.stage.toNat ≤ 7 ∧ channelOfFast 127 s < 384 ∧
       127 / 64 * 64 ∈ s.memory.pendingErr ∧ s.runs = []) ∧
    ((memChanOf 0 ready).out = false ∧ (memChanOf 0 ready).sparesUsed < spareLines ready.flash.variant ∧
       0 < channelGib ready.flash.variant * 524288 ∧ (vget ready.memory.stk 0 {}).powered = true) := by
  simp only [RegistersAnswer]
  decide +kernel

/-- A module whose input, trip and stage are as the caller says, a second and 4 ns after the start. -/
def modAt (m : ModuleSt) (n : Nat := 250000001) : State := { mod := m, time := { ticks := n, dtime := 10000000000 } }

theorem witness_OfflineAndStarts :
    ((modAt {}).mod.offline = false ∧ (modAt {}).mod.inputInRange = true ∧ (modAt {}).mod.thermTrip = false) ∧
    (let s := modAt { inputInRange := false, recoverable := true }
     s.mod.inputInRange = false ∧ 50000000 ≤ sinceTick s.mod.inputLostTick s ∧ s.mod.thermTrip = false ∧
       1000000000 < sinceTick s.mod.inputLostTick s) ∧
    (∀ c : Bool, let s := modAt { inputInRange := false, thermTrip := true, tripCooled := c }
     s.mod.inputInRange = false ∧ s.mod.thermTrip = true ∧ s.mod.tripCooled = c) ∧
    (let s := modAt { inputInRange := false, recoverable := true } 250000000
     s.mod.thermTrip = false ∧ s.mod.recoverable = true ∧ sinceTick s.mod.inputLostTick s ≤ 1000000000) ∧
    (∀ p : Port, (portOf p (modAt { stage := 7 })).fenced = false) ∧ ((modAt { stage := 7 }).mod.stage = 7 ∧ (modAt { stage := 7 }).mod.warmHold = none) ∧
    (let s := modAt { warmHold := some 0 }
     s.mod.warmHold = some 0 ∧ s.groups = [] ∧ nsSince 0 (mono { s with groups := [soloOpen] }) < 10000000000 ∧ soloOpen.open'.isSome = true) ∧
    (let s := modAt { offline := true, recoverable := true } 250000000
     s.mod.offline = true ∧ s.mod.recoverable = true ∧ s.mod.inputInRange = true ∧ sinceTick s.mod.offlineTick s ≤ 1000000000 ∧
       1000000000 ≤ sinceTick s.mod.offlineTick s) ∧
    ((2 ≤ (2 : Fin 10).val ∧ (2 : Fin 10).val ≤ 7 ∧ (110 : Int) ≤ 110) ∧ ((9 : Fin 10).val = 9 ∧ (125 : Int) ≤ 125)) := by
  refine ⟨by decide +kernel, by decide +kernel, by decide +kernel, by decide +kernel, fun p => ?_, by decide +kernel⟩
  cases p <;> decide +kernel

/-- The module at each stage of bring-up, cold and warm, with the flash that each clause asks for. -/
theorem witness_StagesOfBringUp :
    (∀ n ∈ [0, 1, 2, 3, 4, 5], ∀ w : Bool, let s := modAt { stage := BitVec.ofNat 4 n, warm := w }
     s.mod.stage.toNat = n ∧ s.mod.warm = w ∧ s.mod.inputInRange = true ∧ s.mod.thermTrip = false) ∧
    (let s : State := { mod := { stage := 1 } }
     s.flash.helperOk = true ∧ s.flash.identityRecordOk = true ∧ fwGood false s = true ∧ s.flash.variantOk = true ∧ s.flash.tryB = none ∧
       fwGood s.flash.activeB s = true) ∧
    (let s : State := { mod := { stage := 1 }, flash := { minSvn := 1 } }
     fwGood false s = false ∧ fwGood true s = false) ∧
    (∀ n ∈ [0, 1], let s : State := { mod := { stage := 1 }, flash := { tryB := some true, tryCount := n } }
     s.flash.tryB = some true ∧ s.flash.tryCount = n ∧ fwGood true s = true ∧ fwGood s.flash.activeB s = true) ∧
    (stackDead 0 = true ∧ stackDead (BitVec.allOnes 384) = false) ∧
    (coldReasons (modAt { stage := 3, warm := true }) ≠ 0 ∧ coldReasons { modAt { stage := 3, warm := true } with flash := { cleanStop := true } } = 0) ∧
    (let s := { modAt { stage := 4 } with flash := { topology := some topo1 } }
     linkInMask 0 s = true ∧ (linkOf 0 s).state < 2 ∧ s.flash.topology.isSome = true) ∧
    (let s := { modAt { stage := 6 } with
       flash := { topology := some topo1 }, links := (List.range 36).map fun l => (l, { rollJudged := true }) }
     rollPasses s = true) := by
  decide +kernel

/-! ## Hypotheses met: time, mailboxes, registers, steps -/

/-- Edges that fit, that fit after two ignored ones, and that do not; messages of the domain; sources that fall silent; the SMBus up and down. -/
theorem witness_TimeAndTelemetry :
    (∀ n ∈ [59000000000, 58999000000], let s : State := { time := { ticks := 15000000000, firstLock := true, lastPps := some (BitVec.ofNat 64 n) } }
     s.time.lastPps = some (BitVec.ofNat 64 n) ∧ oneSecond (BitVec.ofNat 64 n) (mono s) = true ∧ s.time.firstLock = true ∧ s.time.sourceSel ≠ 2) ∧
    (let s : State := { time := { ticks := 15000000000, lastPps := some 0, ignoredPps := 2, lastIgnored := some 59000000000 } }
     s.time.ignoredPps = 2 ∧ oneSecond 59000000000 (mono s) = true) ∧
    (let s : State := { time := { ticks := 15000000000, lastPps := some 0 } }
     s.time.lastPps ≠ none ∧ oneSecond 0 (mono s) = false ∧ s.time.ignoredPps < 2) ∧
    (let s : State := { time := { ticks := 15000000000, firstLock := true, source := 1, sourceSel := 0, ppsPresent := false } }
     s.time.ptpDomain = 0 ∧ s.time.firstLock = true ∧ s.time.sourceSel = 0 ∧ s.time.ppsPresent = false ∧ s.time.source ≠ 3 ∧
       1500000000 ≤ nsSince s.time.lastSourceAt (mono s)) ∧
    (let s : State := { time := { ticks := 15000000000, source := 3, holdoverSince := some 0, ppsPresent := true } }
     s.time.holdoverSince = some 0 ∧ s.time.source = 3 ∧ 60000000000 ≤ nsSince 0 (mono s) ∧ s.time.ppsPresent = true ∧
       heardLately (lastEdge s.time) s = false) ∧
    smbUp ready = true ∧ smbUp {} = false := by
  decide +kernel

/-- Port A with a mailbox of the caller's. -/
def onMbx (m : Mailbox) (f : FlashSt := {}) (up : Bool := true) : State := { (if up then ready else {}) with portA := { mailbox := m }, flash := f }

/-- Each command with its length and with another; the ends of the firmware commands. An image that verifies has a signature under Config.vendorKey,
a constant with no body. -/
theorem witness_SecurityMailboxes :
    (∀ x ∈ [1, 2, 3, 4, 5, 6, 7], ∀ b : Bool,
      let s := onMbx { opcode := BitVec.ofNat 8 x, busy := b, reqLength := BitVec.ofNat 13 ((requestLength x).getD 0) }
      RegistersAnswer .A s ∧ (portOf .A s).mailbox.opcode.toNat = x ∧ (portOf .A s).mailbox.busy = b ∧
        requestLength x = some (portOf .A s).mailbox.reqLength.toNat ∧ s.mod.fwBusyPort = none ∧ requestLength x ≠ some 5) ∧
    (let s := onMbx { busy := true, latched := some (5, 0, 9, []), outcome := some (0, [1]) }
     (portOf .A s).mailbox.latched = some (5, 0, 9, []) ∧ (portOf .A s).mailbox.busy = true ∧ (portOf .A s).mailbox.outcome = some (0, [1])) ∧
    (∀ up : Bool, let s := onMbx { busy := true, latched := some (5, 0, 9, []) } { tryB := some false } up
     (portOf .A s).mailbox.latched = some (5, 0, 9, []) ∧ (portOf .A s).mailbox.busy = true ∧ (portOf .A s).mailbox.outcome = none ∧
       s.mod.ready = up ∧ s.flash.tryB = some s.mod.fwRunningB) ∧
    (∀ good : Bool, let s := onMbx { busy := true, latched := some (4, 0, 9, []) } { slotB := { valid := good } }
     spareSlot s = some true ∧ fwGood true s = good) ∧
    (let s := onMbx { busy := true, latched := some (3, 16, 9, List.replicate 16 0) }
     spareSlot s = some true ∧ leNat ((List.replicate 16 (0 : Byte)).drop 8) = 0 ∧ imageVerifies [] = false) ∧
    spareSlot (onMbx {} { activeB := true }) = none := by
  simp only [RegistersAnswer]
  refine ⟨by decide +kernel, by decide +kernel, by decide +kernel, by decide +kernel, by decide +kernel, by decide +kernel⟩

theorem witness_RegistersAndReportCards :
    (regSize 3 4 = false ∧ regSize 0 3 = false ∧ regSize 8 8 = true ∧ regSize 4 4 = true) ∧
    (let s := modPort .A (fun q => { q with latch := some (8, 8, 7) }) ready
     (portOf .A s).latch = some (8, 8, 7) ∧ (8 : Nat) ≤ 12 ∧ 12 + 4 ≤ 8 + 8) ∧
    (∀ p : Port, RegistersAnswer p ready ∧ (portOf p ready).latch = none ∧ 2 ≤ ready.mod.stage.toNat ∧ ready.mod.stage ≠ 0) ∧
    (let s := { ready with devFlags := 1, portA := { flagEn := true, msixTable := [(3, 0)] } }
     RegistersAnswer .A s ∧ (1 : BitVec 29) &&& ~~~ (portOf .A s).flagEnable &&& s.devFlags ≠ 0 ∧ (portOf .A s).flagEn = true ∧
       (tgetD (portOf .A s).msixTable 3 1).getLsbD 0 = false) ∧
    (slotOwner 0 ready = some .A ∧ slotOwner 1 ready = some .B ∧ slotOwner 2 ready = none) ∧
    (portOf .A { ready with portA := { fenced := true } }).fenced = true ∧
    (let q : PortSt := { linkUp := true, rcEnable := true, cards := [List.replicate 64 1], rcWrite := 65504 }
     let s := { ready with portA := q }
     q.rcEnable = true ∧ q.fenced = false ∧ q.linkUp = true ∧ s.mod.stage = 7 ∧ 2 ^ q.rcLog2.toNat = 65536 ∧
       q.rcWrite.toNat + 32 + 64 - 65504 ≤ 65536) := by
  simp only [RegistersAnswer]
  refine ⟨by decide +kernel, by decide +kernel, fun p => ?_, by decide +kernel⟩
  cases p <;> decide +kernel

theorem witness_FirmwareFloorHolds :
    (∀ up : Bool, let s := onMbx { busy := true, latched := some (0x05, 0, 9, []) } { tryB := some false } up
     (portOf .A s).mailbox.latched = some (0x05, 0, 9, []) ∧ (portOf .A s).mailbox.busy = true ∧ (portOf .A s).mailbox.outcome = none ∧
       ((s.mod.ready = true ∧ s.flash.tryB = some s.mod.fwRunningB) ↔ up = true)) ∧
    (∃ t : State, step State.reset = .next t) ∧ (modAt { stage := 1 }).mod.stage = 1 :=
  ⟨by decide +kernel, ⟨_, rfl⟩, rfl⟩

/-- Elements of each kind that SMX.STEP tells apart, at the ends of the finite ones. -/
theorem witness_SoftmaxStep : laneVal 0x01 0x7FC00000 = .nan ∧ laneVal 0x01 0xFF800000 = .inf true ∧ laneVal 0x01 0x7F800000 = .inf false ∧
    (∃ n m e, laneVal 0x01 0x7F7FFFFF = .fin n m e) ∧ ∃ n m e, laneVal 0x01 0 = .fin n m e :=
  ⟨by decide +kernel, by decide +kernel, by decide +kernel, ⟨_, _, _, rfl⟩, ⟨_, _, _, rfl⟩⟩

theorem witness_WellFormedCommandsRun : Instr.stagePower.wellFormed = true ∧ (Instr.saluAdd (.core 0) 0).wellFormed = false := by
  decide +kernel

theorem witness_StepRunsTheFrontCommand : ({ pending := [.stagePower] } : State).pending = [.stagePower] := rfl

theorem witness_IdleStepIsACycle : State.reset.pending = [] := rfl

theorem witness_SafeStatesStayAndRun : Safe State.reset := ⟨⟨rfl, rfl, rfl⟩, fun _ h => nomatch h⟩

/-! ## A few single steps (expected values from the spec's tables) -/

/-- Reset: stage 0, DTIME 0 (R12, Table 15-1), every port down. -/
theorem test_reset : State.reset.mod.stage = 0 ∧ State.reset.time.dtime = 0 ∧ ∀ p : Port, (portOf p State.reset).linkUp = false := by
  refine ⟨rfl, rfl, fun p => ?_⟩
  cases p <;> rfl

/-- One cycle of TCLK adds 4 ns after first lock and nothing before it (R12). -/
theorem test_idle : (match step { time := { firstLock := true, dtime := 96 } } with | .next t => t.time.dtime | _ => 0) = 100 ∧
    (match step { time := { dtime := 96 } } with | .next t => t.time.dtime | _ => 0) = 96 := by
  decide +kernel

/-- A step takes the oldest command: the stage after power is 1 and the second command waits on (R389). -/
theorem test_front : (match step { pending := [.stagePower, .temps] } with | .next t => (t.mod.stage, t.pending) | _ => (0, [])) = (1, [.temps]) := by
  decide +kernel

/-- SALU ADD of s1 = 2^64 − 1 and s2 = 2 into s1, wrapping: s1 is 1 and the place is at the next word (Table 06-5). -/
theorem test_salu_wraps :
    let w := word 0x01 0x00 (1 * 2 ^ 12 + 1 * 2 ^ 17 + 2 * 2 ^ 22)
    let s := onCore w fun k => { k with seq := { k.seq with s := (k.seq.s.set 1 (BitVec.allOnes 64)).set 2 2 } }
    (match exec (.saluAdd (.core 0) w) s with | .next t => (sreg (coreOf 0 t).seq 1, (coreOf 0 t).seq.pc) | _ => (0, 0)) = (1, 1) := by
  decide +kernel

/-- A GO while BUSY is discarded and flagged (Table 16-2). -/
theorem test_mailbox_busy :
    (match exec (.getIdentity .A) (onMbx { opcode := 1, busy := true }) with | .next t => (t.portA.mailbox.flags, t.portA.mailbox.latched) | _ => (0, none)) =
      (1, none) := by
  decide +kernel
end Sys2Proof.Tests
end

section
/-!
The Vector Engine (Machine/Vector.lean, chapter 05): what its operations do to its registers and flag words, and the statements about
SMX.INIT and the integer and bit operations.
-/

namespace Sys2Proof.Machine

/-! ## Vector registers: one rule for each access -/

theorem vget_vset_same {α : Type} {n : Nat} (v : Vector α n) (i : Nat) (x d : α) (h : i < n) : vget (vset v i x) i d = x := by
  simp [vget, vset, h]

theorem vget_vset_other {α : Type} {n : Nat} (v : Vector α n) (i j : Nat) (x d : α) (h : j ≠ i) :
    vget (vset v i x) j d = vget v j d := by
  simp only [vget, vset, Vector.toList_setIfInBounds, List.getD_eq_getElem?_getD, List.getElem?_set_ne h.symm]

theorem fld_lt (w : Word) (lo len : Nat) : fld w lo len < 2 ^ len := Nat.mod_lt _ (Nat.two_pow_pos len)

/-- A vector register number names one of the 32 registers (R110). -/
theorem vD_lt (w : Word) : vD w < 32 := fld_lt w 12 5

theorem getElem_vreg_setV_same (d : Nat) (mask : BitVec 128) (f : Fin 128 → W32) (v : VecSt) (l : Fin 128) (h : d < 32) :
    (vreg (setV d mask f v) d)[l] = if mask.getLsbD l then f l else (vreg v d)[l] := by
  simp [vreg, setV, vget_vset_same, h]

theorem vreg_setV_other (d r : Nat) (mask : BitVec 128) (f : Fin 128 → W32) (v : VecSt) (h : r ≠ d) :
    vreg (setV d mask f v) r = vreg v r := vget_vset_other _ _ _ _ _ h

/-! ## A lane-wise operation -/

/-- A bit of an OR of flag words is set once one of them has it. -/
theorem getLsbD_orFlags (i : Nat) (fs : List (BitVec 7)) : (orFlags fs).getLsbD i = true ↔ ∃ f ∈ fs, f.getLsbD i = true := by
  have acc : ∀ a : BitVec 7, (fs.foldl (· ||| ·) a).getLsbD i = true ↔ a.getLsbD i = true ∨ ∃ f ∈ fs, f.getLsbD i = true := by
    induction fs with
    | nil => simp
    | cons f fs ih => intro a; simp [ih, or_assoc]
  simpa [orFlags] using acc 0

theorem raisesFlags_applyLanes (d : Nat) (mask : BitVec 128) (f : Fin 128 → LaneOut) (v : VecSt) :
    RaisesFlags (fun l => mask.getLsbD l) (fun l => (f l).2) v (applyLanes d mask f v) := by
  refine ⟨_, fun i _ => ?_, rfl, rfl, rfl⟩
  rw [getLsbD_orFlags]
  constructor
  · rintro ⟨x, hx, hi⟩
    obtain ⟨l, -, rfl⟩ := List.mem_map.1 hx
    by_cases hm : mask.getLsbD l = true
    · rw [if_pos hm] at hi
      exact ⟨l, hm, by simpa using hi⟩
    · rw [if_neg hm] at hi
      simp at hi
  · rintro ⟨l, hm, hi⟩
    refine ⟨(f l).2, List.mem_map.2 ⟨l, List.mem_finRange l, ?_⟩, hi⟩
    rw [if_pos hm, Fin.getElem_fin, Vector.getElem_ofFn]

theorem lanesWritten_applyLanes (d : Nat) (mask : BitVec 128) (f : Fin 128 → LaneOut) (v : VecSt) (h : d < 32) :
    LanesWritten d mask f v.gens v (applyLanes d mask f v) := by
  refine ⟨fun l => ?_, fun r hr => vreg_setV_other _ _ _ _ _ hr, rfl, rfl, raisesFlags_applyLanes d mask f v⟩
  exact (getElem_vreg_setV_same _ _ _ _ _ h).trans (by simp)

/-- A vector instruction whose fields are in range changes the vector state by its function and nothing else. -/
theorem vecStep_cases (c : Fin 192) (g : VecSt → VecSt) (s : State) (h : NextInside (.core c) s) :
    OnlyVec c s (vecStep c true g s) ∧ (coreOf c (vecStep c true g s)).vec = g (coreOf c s).vec := by
  obtain ⟨honly, hseq, hbeside⟩ := advance_core_cases c (fun k => { k with vec := g k.vec }) s (fun _ => rfl) (fun _ => rfl) h
  refine ⟨⟨honly, hseq, ?_⟩, congrArg Core.vec hbeside⟩
  exact congrArg (fun k : Core => { k with vec := {} }) hbeside

/-- A lane-wise operation of an accepted type writes its results in the lanes of the execution mask. -/
theorem completes_laneOp {c : Fin 192} {w : Word} {s : State} {i : Instr} {ok : Nat → Bool} {f : Nat → VecSt → Fin 128 → LaneOut}
    {r : Fin 128 → LaneOut} (hn : NextInside (.core c) s) (hexec : exec i s = .next (laneOp c w ok f s)) (hok : ok (vType w) = true)
    (hr : ∀ l, f (vType w) (coreOf c s).vec l = r l) :
    Completes i s (WritesLanes c (vD w) (mreg (coreOf c s).vec (vMask w)) r (coreOf c s).vec.gens s) := by
  obtain ⟨honly, hvec⟩ := vecStep_cases c (fun v => applyLanes (vD w) (mreg v (vMask w)) (f (vType w) v) v) s hn
  refine ⟨_, hexec, ?_⟩
  simp only [laneOp, hok]
  refine ⟨honly, ?_⟩
  rw [hvec, ← funext hr]
  exact lanesWritten_applyLanes _ _ _ _ (vD_lt w)

/-! ## SMX.INIT -/

/-- The vector state with M, L, N and Q of the four registers from `b` as SMX.INIT sets them. -/
def smxInitVec (b : Nat) (v : VecSt) : VecSt :=
  let all := BitVec.allOnes 128
  setV (b + 3) all (fun _ => 0) (setV (b + 2) all (fun _ => 0) (setV (b + 1) all (fun _ => 0) (setV b all (fun _ => 0xFF800000) v)))

/-- SMX.INIT of a group of four registers changes them alone (R121). -/
theorem completes_smxInit {c : Fin 192} {w : Word} {s : State} (hn : NextInside (.core c) s) (hb : vD w % 4 = 0)
    (hi : Issues (.core c) w 0x20 0x28 s) :
    Completes (.smxInit c w) s fun t => OnlyVec c s t ∧ (coreOf c t).vec = smxInitVec (vD w) (coreOf c s).vec := by
  refine ⟨_, instr_issues _ hi, ?_⟩
  simp only [hb, beq_self_eq_true]
  exact vecStep_cases c (smxInitVec (vD w)) s hn

theorem vreg_smxInitVec (b : Nat) (v : VecSt) (l : Fin 128) (h : b + 3 < 32) :
    (vreg (smxInitVec b v) b)[l] = 0xFF800000#32 ∧ (vreg (smxInitVec b v) (b + 1))[l] = 0 ∧
      (vreg (smxInitVec b v) (b + 2))[l] = 0 ∧ (vreg (smxInitVec b v) (b + 3))[l] = 0 := by
  have hone : (BitVec.allOnes 128).getLsbD l = true := by rw [BitVec.getLsbD_allOnes]; exact decide_eq_true l.isLt
  simp (disch := omega) only [smxInitVec, vreg_setV_other, getElem_vreg_setV_same, hone, if_true]
  exact ⟨rfl, trivial, trivial, trivial⟩

theorem vreg_smxInitVec_other (b r : Nat) (v : VecSt) (h : r < b ∨ b + 3 < r) : vreg (smxInitVec b v) r = vreg v r := by
  simp (disch := omega) only [smxInitVec, vreg_setV_other]

/-- Settles O12: the four registers from a multiple of four are written in all lanes, and 32 registers hold the last of them. -/
theorem softmaxInit : Obligations.SoftmaxInit := by
  intro c w s hn hb hi
  obtain ⟨t, hexec, honly, hvec⟩ := completes_smxInit hn hb hi
  have hd : vD w + 3 < 32 := by have := vD_lt w; omega
  refine ⟨t, hexec, honly, ?_⟩
  simp only [hvec]
  exact ⟨fun l => vreg_smxInitVec _ _ l hd, fun r hr => vreg_smxInitVec_other _ r _ hr, rfl⟩

/-! ## Codes of a type's width (R111) -/

/-- The low bits of a 32-bit word, those above written as zero. -/
def lowBits (n : Nat) (x : W32) : W32 := BitVec.ofNat 32 (x.toNat % 2 ^ n)

theorem typeWidth_eq (t : Nat) : typeWidth t = 16 ∨ typeWidth t = 32 := by
  unfold typeWidth
  split
  · exact .inl rfl
  · exact .inr rfl

theorem typeWidth_le (t : Nat) : typeWidth t ≤ 32 := by rcases typeWidth_eq t with h | h <;> omega

theorem le_typeWidth (t : Nat) : 5 ≤ typeWidth t := by rcases typeWidth_eq t with h | h <;> omega

theorem toNat_lowBits (n : Nat) (x : W32) : (lowBits n x).toNat = x.toNat % 2 ^ n :=
  Nat.mod_eq_of_lt ((Nat.mod_le _ _).trans_lt x.isLt)

theorem lowBits_and (n : Nat) (x y : W32) : BitVec.ofNat 32 (x.toNat % 2 ^ n &&& y.toNat % 2 ^ n) = lowBits n (x &&& y) := by
  rw [lowBits, BitVec.toNat_and, Nat.and_mod_two_pow]

theorem lowBits_or (n : Nat) (x y : W32) : BitVec.ofNat 32 (x.toNat % 2 ^ n ||| y.toNat % 2 ^ n) = lowBits n (x ||| y) := by
  rw [lowBits, BitVec.toNat_or, Nat.or_mod_two_pow]

theorem lowBits_xor (n : Nat) (x y : W32) : BitVec.ofNat 32 (x.toNat % 2 ^ n ^^^ y.toNat % 2 ^ n) = lowBits n (x ^^^ y) := by
  rw [lowBits, BitVec.toNat_xor, Nat.xor_mod_two_pow]

theorem lowBits_shiftLeft (n k : Nat) (x : W32) (hn : n ≤ 32) :
    BitVec.ofNat 32 (x.toNat % 2 ^ n * 2 ^ k % 2 ^ n) = lowBits n (x <<< k) := by
  rw [lowBits, BitVec.toNat_shiftLeft, Nat.shiftLeft_eq, Nat.mod_mod_of_dvd _ (Nat.pow_dvd_pow 2 hn), Nat.mod_mul_mod]

theorem lowBits_ushiftRight (n k : Nat) (x : W32) : BitVec.ofNat 32 (x.toNat % 2 ^ n / 2 ^ k) = lowBits n x >>> k := by
  apply BitVec.eq_of_toNat_eq
  have hlt : x.toNat % 2 ^ n / 2 ^ k < 2 ^ 32 := (Nat.div_le_self _ _).trans_lt ((Nat.mod_le _ _).trans_lt x.isLt)
  rw [BitVec.toNat_ushiftRight, toNat_lowBits, Nat.shiftRight_eq_div_pow, BitVec.toNat_ofNat, Nat.mod_eq_of_lt hlt]

theorem lowBits_setWidth (n : Nat) (x : Word) (hn : n ≤ 32) : BitVec.ofNat 32 (x.toNat % 2 ^ n) = lowBits n (x.setWidth 32) := by
  rw [lowBits, BitVec.toNat_setWidth, Nat.mod_mod_of_dvd _ (Nat.pow_dvd_pow 2 hn)]

/-- A shift count is taken modulo 32, which the low 5 bits decide. -/
theorem shiftCount_mod (n y : Nat) (hn : 5 ≤ n) : y % 2 ^ n % 32 = y % 32 := Nat.mod_mod_of_dvd y (Nat.pow_dvd_pow 2 hn)

/-- A count past the width shifts every bit out, as a count of the width does. -/
theorem div_two_pow_min (n k y : Nat) (hy : y < 2 ^ n) : y / 2 ^ min k n = y / 2 ^ k := by
  rcases Nat.le_total k n with h | h
  · rw [Nat.min_eq_left h]
  · rw [Nat.min_eq_right h, Nat.div_eq_of_lt hy, Nat.div_eq_of_lt (hy.trans_le (Nat.pow_le_pow_right (by omega) h))]

/-- The complement of a shifted complement: the places shifted in are ones. -/
theorem shifted_complement (n m a : Nat) (hm : m ≤ n) (ha : a < 2 ^ n) :
    2 ^ n - 1 - (2 ^ n - 1 - a) / 2 ^ m = a / 2 ^ m + (2 ^ n - 2 ^ (n - m)) := by
  have hpow : 2 ^ n = 2 ^ m * 2 ^ (n - m) := by rw [← Nat.pow_add, Nat.add_sub_cancel' hm]
  have hdiv : (2 ^ n - (a + 1)) / 2 ^ m = 2 ^ (n - m) - (a / 2 ^ m + 1) := by
    rw [hpow]; exact Nat.mul_sub_div a (2 ^ m) (2 ^ (n - m)) (hpow ▸ ha)
  have hlt : a / 2 ^ m < 2 ^ (n - m) := Nat.div_lt_of_lt_mul (hpow ▸ ha)
  have hle : 2 ^ (n - m) ≤ 2 ^ n := Nat.pow_le_pow_right (by omega) (Nat.sub_le _ _)
  rw [Nat.sub_sub _ 1 a, Nat.add_comm 1 a, hdiv]
  generalize 2 ^ n = N, 2 ^ (n - m) = Q, a / 2 ^ m = q at *
  omega

/-- The sign bit of a number below 2^n. -/
theorem signBit_eq_msb (n a : Nat) (hn : 0 < n) (ha : a < 2 ^ n) :
    (a / 2 ^ (n - 1) % 2 == 1) = (BitVec.ofNat n a).msb := by
  have hpow : 2 ^ n = 2 ^ (n - 1) * 2 := by rw [← Nat.pow_succ, Nat.succ_eq_add_one, Nat.sub_add_cancel hn]
  have hlt : a / 2 ^ (n - 1) < 2 := Nat.div_lt_of_lt_mul (hpow ▸ ha)
  have hone : 1 ≤ a / 2 ^ (n - 1) ↔ 2 ^ (n - 1) ≤ a := by
    rw [Nat.le_div_iff_mul_le (Nat.two_pow_pos _), Nat.one_mul]
  rw [BitVec.msb_eq_decide, BitVec.toNat_ofNat, Nat.mod_eq_of_lt ha, Nat.mod_eq_of_lt hlt, ← decide_eq_decide.2 hone,
    Bool.eq_iff_iff, beq_iff_eq, decide_eq_true_iff]
  omega

/-- SRA is the arithmetic shift of the type's width; a count past the width leaves the sign bit alone in every place. -/
theorem shiftSigned_mod (n x b : Nat) (hn : 0 < n) :
    shiftSigned n (x % 2 ^ n) b = ((BitVec.ofNat n x).sshiftRight (b % 32)).toNat := by
  have ha : x % 2 ^ n < 2 ^ n := Nat.mod_lt _ (Nat.two_pow_pos n)
  have hcompl : 2 ^ n - 1 - x % 2 ^ n < 2 ^ n := by omega
  have hmod : BitVec.ofNat n (x % 2 ^ n) = BitVec.ofNat n x := BitVec.eq_of_toNat_eq (by simp)
  rw [shiftSigned, signBit_eq_msb n _ hn ha, hmod, BitVec.toNat_sshiftRight, BitVec.toNat_ofNat,
    Nat.shiftRight_eq_div_pow, Nat.shiftRight_eq_div_pow, ← div_two_pow_min n (b % 32) _ ha,
    ← div_two_pow_min n (b % 32) _ hcompl, shifted_complement n _ _ (Nat.min_le_right _ _) ha]

/-! ## INT32 arithmetic (R117) -/

theorem ofNat_add_mod (x y : W32) : BitVec.ofNat 32 ((x.toNat + y.toNat) % 2 ^ 32) = x + y := by
  bv_omega

theorem ofNat_sub_mod (x y : W32) : BitVec.ofNat 32 ((x.toNat + 2 ^ 32 - y.toNat) % 2 ^ 32) = x - y := by
  bv_omega

theorem ofNat_mul_mod (x y : W32) : BitVec.ofNat 32 (x.toNat * y.toNat % 2 ^ 32) = x * y := by
  apply BitVec.eq_of_toNat_eq
  rw [BitVec.toNat_mul, BitVec.toNat_ofNat, Nat.mod_mod]

theorem sltNat_toNat (x y : W32) : sltNat x.toNat y.toNat = x.slt y := by
  simp only [sltNat, BitVec.ofNat_toNat, BitVec.setWidth_eq]

theorem ofNat_imax (x y : W32) : BitVec.ofNat 32 (if sltNat x.toNat y.toNat then y.toNat else x.toNat) = if x.slt y then y else x := by
  rw [sltNat_toNat, ← apply_ite BitVec.toNat, BitVec.ofNat_toNat, BitVec.setWidth_eq]

theorem ofNat_imin (x y : W32) : BitVec.ofNat 32 (if sltNat y.toNat x.toNat then y.toNat else x.toNat) = if y.slt x then y else x := by
  rw [sltNat_toNat, ← apply_ite BitVec.toNat, BitVec.ofNat_toNat, BitVec.setWidth_eq]

/-! ## The integer and bit operations -/

/-- An operation on the bits of two operands writes its result in the lanes of the execution mask and raises no flag. -/
theorem completes_bitsOp {c : Fin 192} {w : Word} {s : State} {i : Instr} {ok : Nat → Bool} {f : Nat → Nat → Nat → Nat}
    (g : W32 → W32 → W32) (hn : NextInside (.core c) s) (hexec : exec i s = .next (bitsOp c w ok f s)) (hok : ok (vType w) = true)
    (hg : ∀ x y : W32, BitVec.ofNat 32
      (f (typeWidth (vType w)) (x.toNat % 2 ^ typeWidth (vType w)) (y.toNat % 2 ^ typeWidth (vType w))) = g x y) :
    let v := (coreOf c s).vec
    Completes i s (WritesLanes c (vD w) (mreg v (vMask w)) (fun l => (g (vreg v (vA w))[l] (vreg v (vB w))[l], 0)) v.gens s) :=
  completes_laneOp hn hexec hok fun _ => Prod.ext (hg _ _) rfl

/-- An operation of INT32 alone takes all 32 bits of its operands. -/
theorem completes_intOp {c : Fin 192} {w : Word} {s : State} {i : Instr} {f : Nat → Nat → Nat → Nat}
    (g : W32 → W32 → W32) (hn : NextInside (.core c) s) (hexec : exec i s = .next (bitsOp c w intType f s)) (ht : vType w = 0x0B)
    (hg : ∀ x y : W32, BitVec.ofNat 32 (f 32 x.toNat y.toNat) = g x y) :
    let v := (coreOf c s).vec
    Completes i s (WritesLanes c (vD w) (mreg v (vMask w)) (fun l => (g (vreg v (vA w))[l] (vreg v (vB w))[l], 0)) v.gens s) := by
  refine completes_bitsOp g hn hexec (by rw [ht]; rfl) fun x y => ?_
  have hwidth : typeWidth (vType w) = 32 := by rw [ht]; rfl
  rw [hwidth, Nat.mod_eq_of_lt x.isLt, Nat.mod_eq_of_lt y.isLt, hg]

/-- SEL takes a lane of one register or of the other. -/
theorem ofNat_laneBits_ite (t : Nat) (v : VecSt) (m : Bool) (p q : Nat) (l : Fin 128) :
    BitVec.ofNat 32 (laneBits t v (if m then p else q) l) = lowBits (typeWidth t) (if m then (vreg v p)[l] else (vreg v q)[l]) := by
  cases m <;> rfl

/-- BCAST reads its scalar register once for all lanes. -/
theorem exec_bcast {c : Fin 192} {w : Word} {s : State} (hi : Issues (.core c) w 0x20 0x1F s) :
    exec (.bcast c w) s = .next (laneOp c w arithType
      (fun t _ _ => (BitVec.ofNat 32 ((sreg (coreOf c s).seq (fld w 51 5)).toNat % 2 ^ typeWidth t), 0)) s) := by
  have harm : exec (.bcast c w) s = execBcast c w s := rfl
  rw [harm, execBcast, instr_issues _ hi]

/-- ROT reads its scalar register once for all lanes. -/
theorem exec_rot {c : Fin 192} {w : Word} {s : State} (hi : Issues (.core c) w 0x20 0x21 s) :
    exec (.rot c w) s = .next (laneOp c w arithType
      (fun t v l => (BitVec.ofNat 32 (laneBits t v (vA w)
        ⟨(l.val + (sreg (coreOf c s).seq (fld w 51 5)).toNat) % 128, Nat.mod_lt _ (by decide)⟩), 0)) s) := by
  have harm : exec (.rot c w) s = execRot c w s := rfl
  rw [harm, execRot, instr_issues _ hi]

/-- Settles O8: each row is a lane-wise operation whose lane result is the law of its arithmetic above. -/
theorem integerAndBitLaneOperations : Obligations.IntegerAndBitLaneOperations := by
  intro c w s hn v t n lo a b sc run
  have hle : n ≤ 32 := typeWidth_le t
  have hcount : ∀ y : W32, y.toNat % 2 ^ n % 32 = y.toNat % 32 := fun y => shiftCount_mod n _ (le_typeWidth t)
  simp only [List.forall_mem_cons]
  refine ⟨fun ht => ⟨fun hi => ?iadd, fun hi => ?isub, fun hi => ?imul, fun hi => ?imax, fun hi => ?imin, fun hi => ?iota,
      List.forall_mem_nil _⟩,
    fun ht => ⟨fun hi => ?and, fun hi => ?or, fun hi => ?xor, fun hi => ?shl, fun hi => ?shr, fun hi => ?sra, fun hi => ?sel,
      fun hi => ?bcast, fun hi => ?rot, fun hi => ?max, fun hi => ?min, List.forall_mem_nil _⟩⟩
  case iadd => exact completes_intOp (· + ·) hn (instr_issues _ hi) ht ofNat_add_mod
  case isub => exact completes_intOp (· - ·) hn (instr_issues _ hi) ht ofNat_sub_mod
  case imul => exact completes_intOp (· * ·) hn (instr_issues _ hi) ht ofNat_mul_mod
  case imax => exact completes_intOp (fun x y => if x.slt y then y else x) hn (instr_issues _ hi) ht ofNat_imax
  case imin => exact completes_intOp (fun x y => if y.slt x then y else x) hn (instr_issues _ hi) ht ofNat_imin
  case iota => exact completes_laneOp hn (instr_issues _ hi) (by rw [show vType w = 0x0B from ht]; rfl) fun _ => rfl
  case and => exact completes_bitsOp (fun x y => lowBits n (x &&& y)) hn (instr_issues _ hi) ht (lowBits_and n)
  case or => exact completes_bitsOp (fun x y => lowBits n (x ||| y)) hn (instr_issues _ hi) ht (lowBits_or n)
  case xor => exact completes_bitsOp (fun x y => lowBits n (x ^^^ y)) hn (instr_issues _ hi) ht (lowBits_xor n)
  case shl =>
    refine completes_bitsOp (fun x y => lowBits n (x <<< (y.toNat % 32))) hn (instr_issues _ hi) ht fun x y => ?_
    rw [hcount, lowBits_shiftLeft _ _ _ hle]
  case shr =>
    refine completes_bitsOp (fun x y => lowBits n x >>> (y.toNat % 32)) hn (instr_issues _ hi) ht fun x y => ?_
    rw [hcount, lowBits_ushiftRight]
  case sra =>
    refine completes_bitsOp (fun x y => BitVec.ofNat 32 ((BitVec.ofNat n x.toNat).sshiftRight (y.toNat % 32)).toNat)
      hn (instr_issues _ hi) ht fun x y => ?_
    rw [shiftSigned_mod n _ _ (Nat.lt_of_lt_of_le (by decide) (le_typeWidth t)), hcount]
  case sel => exact completes_laneOp hn (instr_issues _ hi) ht fun _ => Prod.ext (ofNat_laneBits_ite _ _ _ _ _ _) rfl
  case bcast => exact completes_laneOp hn (exec_bcast hi) ht fun _ => Prod.ext (lowBits_setWidth n sc hle) rfl
  case rot => exact completes_laneOp hn (exec_rot hi) ht fun _ => rfl
  case max => exact completes_laneOp hn (instr_issues _ hi) ht fun _ => rfl
  case min => exact completes_laneOp hn (instr_issues _ hi) ht fun _ => rfl

end Sys2Proof.Machine
end

section
/-!
What no command takes from the state it finds (Safety.lean, Steady): the commands themselves, one lemma for each meaning that branches,
and all of them in one case split. The operations they are made of are in Laws/Steady.lean and Laws/SteadyUnits, SteadyPasses and
SteadyRounds.
-/

namespace Sys2Proof.Machine

/-! ## Outcomes -/

/-- Whatever next state an outcome answers, it keeps what `Steady` names. -/
def SteadyOut (s : State) (o : Out) : Prop := ∀ t : State, o = .next t → Steady s t

theorem SteadyOut.next {s t : State} (h : Steady s t) : SteadyOut s (.next t) := by
  rintro u ⟨⟩
  exact h

theorem SteadyOut.fault {s : State} (f : Fault) : SteadyOut s (.fault f) := by
  rintro u ⟨⟩

/-- A descriptor's command, once what starts it is steady. -/
theorem fetch_steady {s : State} {op : BitVec 8} {d : Desc} {start : DescRec → State → State}
    (h : ∀ (r : DescRec) {t : State}, Steady s t → Steady s (start r t)) : Steady s (fetchWith op d noFetchEffect start s) :=
  fetchWith_steady _ _ _ _ (fun r _ => noFetchEffect_steady r) (fun r _ => h r) (.refl s)

/-- An instruction, once its body is steady: where it cannot issue it waits or faults. -/
theorem instr_steady {s : State} {p : Place} {w : Word} {major func : Nat} {body : State → State}
    (h : ∀ t : State, Steady s t → Steady s (body t)) : SteadyOut s (instr p w major func body s) := by
  unfold instr
  split
  · exact .fault _
  · split
    · exact .next (.ite (holdIssue_steady _ _ (.refl s)) (h s (.refl s)))
    · exact .next (.refl s)

theorem linkInstr_steady {s : State} {l : Fin 36} {w : Word} {func : Nat} {body : Pass → Group → State → State}
    (h : ∀ p g (t : State), Steady s t → Steady s (body p g t)) : SteadyOut s (linkInstr l w func body s) := by
  refine instr_steady fun _ hu => withTok_steady _ _ _ (fun _ t ht => .ite (holdIssue_steady _ _ ht) ?_) hu
  split
  · exact advance_steady _ ht
  · split
    · exact advance_steady _ ht
    · exact h _ _ _ ht

theorem sweepInstr_steady {s : State} {m : Fin 24} {w : Word} {func : Nat} {effect : Nat → Nat → Nat → State → State}
    (h : ∀ a b k (t : State), Steady s t → Steady s (effect a b k t)) : SteadyOut s (sweepInstr m w func effect s) :=
  instr_steady fun _ hu =>
    withTok_steady _ _ _ (fun _ _ ht => .ite (holdIssue_steady _ _ ht) (beginPlaceOp_steady _ _ _ _ _ _ (h _ _ _ _ ht))) hu

/-! ## Channels, bells and ports -/

theorem execCompletionWrite_steady (slot : Fin 4096) (s : State) : SteadyOut s (execCompletionWrite slot s) := by
  refine .next ?_
  split
  · exact .refl s
  split
  · exact .refl s
  refine .ite ?_ (.refl s)
  extract_lets bytes at' cq q s₁ s₂ s₃
  have h : Steady s s₃ := modChan_steady (hostWrite_steady _ _ _ (.ite (drawFree_steady (.refl s)) (.refl s)))
  exact settleDestroy_steady _ (.ite (sendMsix_steady _ _ h) h)

theorem execCoalesceTimerExpiry_steady (slot : Fin 4096) (s : State) : SteadyOut s (execCoalesceTimerExpiry slot s) := by
  refine .next ?_
  split
  · exact .refl s
  split
  · exact .refl s
  exact .ite (sendMsix_steady _ _ (modChan_steady (.refl s))) (.refl s)

theorem execPortLinkDownTimeout_steady (p : Port) (s : State) : SteadyOut s (execPortLinkDownTimeout p s) := by
  refine .next ?_
  split
  · exact .ite (fencePort_steady _ (modPort_steady (fun _ h => h) (.refl s))) (.refl s)
  · exact .refl s

theorem execAdminEnable_steady (p : Port) (s : State) : SteadyOut s (execAdminEnable p s) := by
  refine .next (.ite (.refl s) ?_)
  have h := modPort_steady (p := p) (f := fun q => { q with latch := none }) (fun _ h => h) (.refl s)
  exact .ite (modSlot_steady (modPort_steady (fun _ h => h) h)) (modPort_steady (fun _ h => h) h)

theorem execWaitSatisfied_steady (id : Nat) (s : State) : SteadyOut s (execWaitSatisfied id s) := by
  refine .next ?_
  split
  · exact .ite (done_steady _ _ (.refl s)) (.refl s)
  · exact .refl s

theorem execWaitTimeout_steady (id : Nat) (s : State) : SteadyOut s (execWaitTimeout id s) := by
  refine .next ?_
  split
  · exact .ite (finish_steady _ _ _ _ (.refl s)) (.refl s)
  · exact .refl s

theorem execUndefinedOpcode_steady (opcode : BitVec 8) (d : Desc) (s : State) : SteadyOut s (execUndefinedOpcode opcode d s) := by
  unfold execUndefinedOpcode
  split
  · exact .fault _
  · exact .next (fetch_steady fun _ _ h => refuse_steady _ _ _ h)

theorem execUnmapRelease_steady (id : Nat) (s : State) : SteadyOut s (execUnmapRelease id s) := by
  refine .next ?_
  split
  · exact .refl s
  · exact .ite (done_steady _ _ (unmapPages_steady _ _ _ (.refl s))) (.refl s)

theorem execEngineFence_steady (engine : Fin 28) (s : State) : SteadyOut s (execEngineFence engine s) :=
  .next (.ite (.refl s) (.foldl _ _ (fun _ _ h => moveStream_steady _ _ h) (modEngine_steady (.refl s))))

/-! ## Lessons: scalar words, tiles, moves and waits -/

theorem execHalt_steady (p : Place) (w : Word) (s : State) : SteadyOut s (execHalt p w s) := by
  refine instr_steady fun t ht => ?_
  cases p with
  | core c => exact settleCore_steady _ (modCore_steady (endStall_steady _ (noteIssue_steady _ ht)))
  | link l => exact modSeq_steady ht
  | mem m => exact modSeq_steady ht

theorem execRdid_steady (p : Place) (w : Word) (s : State) : SteadyOut s (execRdid p w s) := by
  refine instr_steady fun t ht => ?_
  cases p with
  | core c =>
    dsimp only
    split
    · exact stepSeq_steady _ _ ht
    · exact stopCore_steady _ _ ht
  | link l | mem m => exact .ite (stepSeq_steady _ _ ht) (.ite (stepSeq_steady _ _ ht) (drawFree_steady (stepSeq_steady _ _ ht)))

theorem execSetstreamReseedDone_steady (c : Fin 192) (s : State) : SteadyOut s (execSetstreamReseedDone c s) := by
  unfold execSetstreamReseedDone
  split
  · exact .next (.refl s)
  · exact .next (modCore_steady (.refl s))

theorem execSld_steady (p : Place) (w : Word) (s : State) : SteadyOut s (execSld p w s) := by
  refine instr_steady fun t ht => ?_
  split
  · exact stopPlace_steady _ _ ht
  · exact stepSeq_steady _ _ ht

theorem execSst_steady (p : Place) (w : Word) (s : State) : SteadyOut s (execSst p w s) := by
  refine instr_steady fun t ht => ?_
  split
  · exact stopPlace_steady _ _ ht
  · exact advance_steady _ (scratchWrite_steady _ _ _ ht)

theorem execFillComplete_steady (c : Fin 192) (bank : Bool) (s : State) : SteadyOut s (execFillComplete c bank s) := by
  refine .next ?_
  dsimp only
  split
  · exact .refl s
  · exact .ite (.refl s) (settleCore_steady _ (modCore_steady (.refl s)))

theorem execPassStart_steady (c : Fin 192) (s : State) : SteadyOut s (execPassStart c s) := by
  refine .next ?_
  dsimp only
  split
  · exact .refl s
  · exact .ite (.refl s) (settleCore_steady _ (addStall_steady (modCore_steady (.refl s))))

theorem execPassClose_steady (c : Fin 192) (s : State) : SteadyOut s (execPassClose c s) := by
  refine .next ?_
  dsimp only
  split
  · exact .refl s
  · exact .ite (.refl s) (modCore_steady (.refl s))

theorem execDrainComplete_steady (c : Fin 192) (s : State) : SteadyOut s (execDrainComplete c s) := by
  refine .next ?_
  dsimp only
  split
  · exact .refl s
  split
  · exact modCore_steady (.refl s)
  · exact settleCore_steady _ (modCore_steady (.refl s))

theorem execDmaComplete_steady (c : Fin 192) (toMemory : Bool) (s : State) : SteadyOut s (execDmaComplete c toMemory s) := by
  refine .next ?_
  split
  · exact .refl s
  · exact .ite (settleCore_steady _ (landDma_steady _ _ (lateDma_steady _ _ (.refl s)))) (.refl s)

theorem execNarrowComplete_steady (c : Fin 192) (seq : Nat) (s : State) : SteadyOut s (execNarrowComplete c seq s) := by
  refine .next ?_
  dsimp only
  split
  · exact .refl s
  · exact .ite (.refl s)
      (settleCore_steady _ (.foldl _ _ (fun _ _ h => landItem_steady _ _ _ h) (countCard_steady (modCore_steady (.refl s)))))

theorem execRouteComplete_steady (c : Fin 192) (s : State) : SteadyOut s (execRouteComplete c s) := by
  refine .next ?_
  split
  · exact .refl s
  · exact settleCore_steady _ (.foldl _ _ (fun _ _ h => vaStore_steady _ _ _ h) (modCore_steady (.refl s)))

theorem execSquash_steady (c : Fin 192) (w : Word) (s : State) : SteadyOut s (execSquash c w s) := by
  refine instr_steady fun t ht => .ite (stopCore_steady _ _ ht) ?_
  split
  · exact stopCore_steady _ _ ht
  · exact advance_steady _ (modCore_steady ht)

theorem execPredictLand_steady (c : Fin 192) (handle : Nat) (s : State) : SteadyOut s (execPredictLand c handle s) := by
  refine .next ?_
  split
  · exact .refl s
  · exact settleCore_steady _ (modCore_steady (.refl s))

theorem execPredictCopyDone_steady (c : Fin 192) (handle : Nat) (s : State) : SteadyOut s (execPredictCopyDone c handle s) := by
  refine .next ?_
  split
  · exact .refl s
  · exact settleCore_steady _ (modCore_steady (.refl s))

theorem execSquashShareFreed_steady (c : Fin 192) (handle : Nat) (s : State) : SteadyOut s (execSquashShareFreed c handle s) := by
  refine .next ?_
  split
  · exact .refl s
  · exact settleCore_steady _ (modCore_steady (.refl s))

theorem execSignal_steady (c : Fin 192) (w : Word) (s : State) : SteadyOut s (execSignal c w s) := by
  refine instr_steady fun t ht => ?_
  split
  · exact stopCore_steady _ _ ht
  · exact advance_steady _ (modCore_steady ht)

theorem execSignalLand_steady (c : Fin 192) (event : Fin 8) (s : State) : SteadyOut s (execSignalLand c event s) := by
  refine .next ?_
  split
  · exact .refl s
  · exact settleRunOf_steady _ (modCore_steady (.refl s))

theorem execWaitev_steady (c : Fin 192) (w : Word) (s : State) : SteadyOut s (execWaitev c w s) := by
  refine instr_steady fun t ht => ?_
  have h : Steady s (advance (.core c) t) := advance_steady _ ht
  exact .ite (advance_steady _ (modCore_steady ht)) (.ite h (settleRunOf_steady _ (holdIssue_steady _ _ (modCore_steady h))))

theorem execWaitevRelease_steady (c : Fin 192) (s : State) : SteadyOut s (execWaitevRelease c s) := by
  refine .next ?_
  split
  · exact .refl s
  · exact .ite (modCore_steady (.refl s)) (.refl s)

theorem execBar_steady (c : Fin 192) (w : Word) (s : State) : SteadyOut s (execBar c w s) := by
  refine instr_steady fun t ht => ?_
  have h : Steady s (advance (.core c) t) := advance_steady _ ht
  exact .ite h (settleRunOf_steady _ (holdIssue_steady _ _ (modCore_steady h)))

theorem execBarRelease_steady (run : Nat) (scope : Bool) (form : Fin 24) (s : State) : SteadyOut s (execBarRelease run scope form s) := by
  refine .next ?_
  split
  · exact .refl s
  · exact .ite (.foldl _ _ (fun _ _ h => modCore_steady h) (.refl s)) (.refl s)

theorem execStatTag_steady (c : Fin 192) (w : Word) (s : State) : SteadyOut s (execStatTag c w s) :=
  instr_steady fun _ ht => .ite (stopCore_steady _ _ ht) (advance_steady _ (modCore_steady (.ite (noteBackward_steady _ _ ht) ht)))

theorem execStatRead_steady (c : Fin 192) (w : Word) (s : State) : SteadyOut s (execStatRead c w s) := by
  refine instr_steady fun t ht => ?_
  split
  · exact stopCore_steady _ _ ht
  · exact stepSeq_steady _ _ ht

theorem execSlotRelease_steady (l : Fin 36) (s : State) : SteadyOut s (execSlotRelease l s) := by
  refine .next ?_
  split
  · exact .refl s
  · exact .ite (modSeq_steady (.refl s)) (.refl s)

theorem execPopRowDeliver_steady (c : Fin 192) (s : State) : SteadyOut s (execPopRowDeliver c s) := by
  refine .next ?_
  split
  · exact .refl s
  dsimp only
  split
  · exact .refl s
  · exact .ite (modCore_steady (.refl s)) (.refl s)

theorem execBcast_steady (c : Fin 192) (w : Word) (s : State) : SteadyOut s (execBcast c w s) :=
  instr_steady fun _ ht => laneOp_steady _ _ _ _ ht

theorem execRot_steady (c : Fin 192) (w : Word) (s : State) : SteadyOut s (execRot c w s) :=
  instr_steady fun _ ht => laneOp_steady _ _ _ _ ht

theorem execBltz_steady (p : Place) (w : Word) (s : State) : SteadyOut s (execBltz p w s) :=
  instr_steady fun _ ht => branchIf_steady _ _ _ ht

theorem execBgez_steady (p : Place) (w : Word) (s : State) : SteadyOut s (execBgez p w s) :=
  instr_steady fun _ ht => branchIf_steady _ _ _ ht

theorem execTile_steady (c : Fin 192) (w : Word) (s : State) : SteadyOut s (execTile c w s) :=
  instr_steady fun _ ht => vecStep_steady _ _ _ ht

theorem execRand_steady (c : Fin 192) (w : Word) (s : State) : SteadyOut s (execRand c w s) :=
  instr_steady fun _ ht => .ite (holdIssue_steady _ _ ht) (vecStep_steady _ _ _ ht)

theorem execLessonRunComplete_steady (run : Nat) (s : State) : SteadyOut s (execLessonRunComplete run s) := by
  refine .next ?_
  split
  · exact .refl s
  rename_i u _
  refine .ite ?_ (.refl s)
  extract_lets o t₁ t₂ t₃ t₄
  have h₂ : Steady s t₂ :=
    .foldl _ _ (fun _ _ h => modCore_steady h) (cardRun_steady _ _ (noteRunEnd_steady _ (mergeCounts_steady _ (.refl s))))
  have h₃ : Steady s t₃ := .record h₂
  refine beginReady_steady ?_
  show Steady s (match descOf u.desc t₃ with | some r => finish r o.1 o.2.1 o.2.2 t₃ | none => t₃)
  split
  · exact finish_steady _ _ _ _ h₃
  · exact h₃

theorem execSequencerWatchdog_steady (c : Fin 192) (s : State) : SteadyOut s (execSequencerWatchdog c s) :=
  .next (.ite (fenceCore_steady _ (.refl s)) (.refl s))

/-! ## Exchanges, passes and links -/

theorem execSend_steady (l : Fin 36) (w : Word) (s : State) : SteadyOut s (execSend l w s) := by
  refine linkInstr_steady fun p g t ht => ?_
  dsimp only
  split
  · exact advance_steady _ ht
  split
  · exact holdIssue_steady _ _ ht
  · exact .ite (holdIssue_steady _ _ ht) (beginPlaceOp_steady _ _ _ _ _ _ (.ite ht (queueSeg_steady _ _ _ _ _ _ _ ht)))

theorem execDeliver_steady (l : Fin 36) (w : Word) (s : State) : SteadyOut s (execDeliver l w s) :=
  linkInstr_steady fun _ _ _ ht => .ite (advance_steady _ (modPass_steady ht)) (holdIssue_steady _ _ ht)

theorem execLinkOpComplete_steady (l : Fin 36) (tok : Fin 32) (s : State) : SteadyOut s (execLinkOpComplete l tok s) := by
  refine .next ?_
  split
  · exact .refl s
  · exact modSeq_steady (.ite (foldEffect_steady _ _ _ (.refl s)) (.refl s))

theorem execVoidReceive_steady (l : Fin 36) (it : Item) (s : State) : SteadyOut s (execVoidReceive l it s) := by
  refine .next (withItem_steady _ _ _ _ (fun t ht => ?_) (.refl s))
  extract_lets st det r0 keep u
  have hu : Steady s u := passVoid_steady _ _ ht
  have hkeep : Steady s (keep u) := modGroup_steady hu
  split
  · exact .ite (voidPass_steady _ _ _ _ hu) hkeep
  split
  · exact .ite hkeep hu
  · exact hu

theorem execResendReceive_steady (l : Fin 36) (it : Item) (s : State) : SteadyOut s (execResendReceive l it s) := by
  refine .next (withItem_steady _ _ _ _ (fun t ht => ?_) (.refl s))
  split
  · exact ht
  split
  · exact ht
  refine .foldl _ _ (fun u x hu => ?_) ht
  split
  · exact hu
  · exact queueSeg_steady _ _ _ _ _ _ _ (modPass_steady hu)

theorem execFoldParkTimeout_steady (l : Fin 36) (pass : Nat) (s : State) : SteadyOut s (execFoldParkTimeout l pass s) :=
  .next (.ite (.refl s) (modPass_steady (.refl s)))

theorem execExchangeFinal_steady (id : Nat) (s : State) : SteadyOut s (execExchangeFinal id s) := by
  refine .next ?_
  split
  · exact .refl s
  · exact .ite (.ite (finishRound_steady _ (.refl s)) (.refl s)) (finishExchange_steady _ (.refl s))

theorem execAdmissionDecision_steady (id : Nat) (s : State) : SteadyOut s (execAdmissionDecision id s) := by
  refine .next ?_
  split
  · exact .refl s
  refine .ite (.refl s) (.ite ?_ ?_)
  · split
    · exact sendMirror_steady (showRounds_steady (decideRound_steady _ _ (.refl s)))
    · exact refuse_steady _ _ _ (.refl s)
  · split
    · exact settlePasses_steady (decideExchange_steady _ _ (.refl s))
    · exact .refl s

theorem execLaneLost_steady (l : Fin 36) (lane : Fin 4) (s : State) : SteadyOut s (execLaneLost l lane s) := by
  refine .next (.ite ?_ (.refl s))
  extract_lets s₁ s₂
  have h : Steady s s₂ := raiseLink_steady _ _ (raiseEvent_steady (forgetLink_steady _ (noteLane_steady _ _ (modLink_steady (.refl s)))))
  exact .ite (dropLink_steady _ h) h

theorem execHoldOutExpiry_steady (l : Fin 36) (s : State) : SteadyOut s (execHoldOutExpiry l s) :=
  .next (.ite (endHoldOut_steady _ (.refl s)) (.refl s))

theorem execCreditStallTimeout_steady (l : Fin 36) (s : State) : SteadyOut s (execCreditStallTimeout l s) := by
  refine .next ?_
  split
  · exact .ite (holdOut_steady _ _ (.refl s)) (.refl s)
  · exact .refl s

theorem execLinkEnableWrite_steady (p : Port) (l : Fin 36) (enable : Bool) (s : State) :
    SteadyOut s (execLinkEnableWrite p l enable s) := by
  refine .next (regAccess_steady _ _ (fun t ht => .ite ht ?_) (.refl s))
  extract_lets was u
  have hu : Steady s u := modLink_steady ht
  exact .ite (.ite hu (linkDown_steady _ hu)) (.ite (modLink_steady hu) hu)

theorem execLinkRetrainWrite_steady (p : Port) (l : Fin 36) (s : State) : SteadyOut s (execLinkRetrainWrite p l s) := by
  refine .next (regAccess_steady _ _ (fun t ht => .ite ht ?_) (.refl s))
  split
  · exact linkDown_steady _ ht
  · exact linkDown_steady _ ht
  · exact modLink_steady ht
  · exact ht

theorem execAbortReceive_steady (l : Fin 36) (it : Item) (s : State) : SteadyOut s (execAbortReceive l it s) :=
  .next (withItem_steady _ _ _ _ (fun _ ht => .ite (modLink_steady ht) ht) (.refl s))

theorem execLinkAvoidReview_steady (l : Fin 36) (s : State) : SteadyOut s (execLinkAvoidReview l s) := by
  refine .next ?_
  split
  · exact .refl s
  refine .ite (.refl s) ?_
  split
  · exact modLink_steady (.refl s)
  · exact logDecision_steady _ _ _ _ _ _ _ _ (modLink_steady (.refl s))

theorem execLinkTrainingDone_steady (l : Fin 36) (lanes : BitVec 4) (delayNs : Nat) (s : State) :
    SteadyOut s (execLinkTrainingDone l lanes delayNs s) := by
  refine .next (.ite (.refl s) (.ite (linkDown_steady _ (.refl s)) ?_))
  extract_lets s₁ s₂
  have h : Steady s s₂ := modLink_steady (modFlash_steady (fun _ => ⟨Nat.le_refl _, Nat.le_refl _⟩) (forgetLink_steady _ (.refl s)))
  exact .ite (startKex_steady _ _ h) h

theorem execFrameReceive_steady (l : Fin 36) (f : Frame) (s : State) : SteadyOut s (execFrameReceive l f s) := by
  refine .next (.ite (.refl s) (.ite (loseFrame_steady _ (.refl s)) (.ite (formFailure_steady _ (.refl s)) ?_)))
  have h : Steady s (takeHeader l f s) := takeHeader_steady _ _ (.refl s)
  exact .ite (modLink_steady h) (.ite h (.ite (loseFrame_steady _ h) (.ite (replayFailure_steady _ h) h)))

theorem execFrameTransmit_steady (l : Fin 36) (s : State) : SteadyOut s (execFrameTransmit l s) := by
  refine .next ?_
  extract_lets t
  have ht : Steady s t := .ite (sendMirror_steady (.refl s)) (.refl s)
  exact .ite ht (.ite (releaseTransit_steady _ (sendFar_steady _ ht)) (sendFrame_steady _ ht))

/-! ## Keys and roll call -/

theorem execKexDataReceive_steady (l : Fin 36) (it : Item) (s : State) : SteadyOut s (execKexDataReceive l it s) := by
  refine .next (withItem_steady _ _ _ _ (fun t ht => .ite (formFailure_steady _ ht) (.ite ?_ ?_)) (.refl s))
  · split
    · exact ht
    extract_lets r u
    have hu : Steady s u := modLink_steady ht
    split
    · exact answerOffer_steady _ _ _ hu
    · exact hu
  · split
    · exact ht
    refine .ite ht ?_
    extract_lets r u
    have hu : Steady s u := modLink_steady ht
    split
    · exact takeAccept_steady _ _ _ hu
    · exact hu

theorem execKexDoneReceive_steady (l : Fin 36) (it : Item) (s : State) : SteadyOut s (execKexDoneReceive l it s) := by
  refine .next (withItem_steady _ _ _ _ (fun t ht => ?_) (.refl s))
  dsimp only
  split
  · exact ht
  refine .ite ht (.ite (abortKex_steady _ _ _ ht) (.ite (abortKex_steady _ _ _ ht) ?_))
  exact .ite (sendRollCall_steady _ (modLink_steady (installKeys_steady _ _ ht))) (installKeys_steady _ _ ht)

theorem execKexAbortReceive_steady (l : Fin 36) (it : Item) (s : State) : SteadyOut s (execKexAbortReceive l it s) := by
  refine .next (withItem_steady _ _ _ _ (fun t ht => ?_) (.refl s))
  split
  · exact .ite (endKex_steady _ _ ht) ht
  · exact ht

theorem execKexTimeout_steady (l : Fin 36) (s : State) : SteadyOut s (execKexTimeout l s) := by
  refine .next ?_
  split
  · exact .ite (abortKex_steady _ _ _ (.refl s)) (.refl s)
  · exact .refl s

theorem execKexRetry_steady (l : Fin 36) (s : State) : SteadyOut s (execKexRetry l s) := by
  refine .next ?_
  split
  · exact .ite (startKex_steady _ _ (.refl s)) (.refl s)
  · exact .refl s

theorem execKeySlotExhausted_steady (l : Fin 36) (s : State) : SteadyOut s (execKeySlotExhausted l s) :=
  .next (.ite (.refl s) (.ite (.ite (raiseFar_steady _ _ (raiseEvent_steady (modLink_steady (.refl s)))) (.refl s))
    (.ite (linkDown_steady _ (.refl s)) (.refl s))))

theorem execRollCallReceive_steady (l : Fin 36) (it : Item) (s : State) : SteadyOut s (execRollCallReceive l it s) := by
  refine .next (withItem_steady _ _ _ _ (fun t ht => ?_) (.refl s))
  extract_lets ready first t₁ t₂ t₃
  have h₁ : Steady s t₁ := modLink_steady ht
  have h₂ : Steady s t₂ := .ite (returned_steady _ h₁) h₁
  have h₃ : Steady s t₃ := .ite (leaveTaken_steady _ h₂) h₂
  exact .ite (judgeLink_steady _ h₃) h₃

theorem execLeavingReceive_steady (l : Fin 36) (it : Item) (s : State) : SteadyOut s (execLeavingReceive l it s) := by
  refine .next (withItem_steady _ _ _ _ (fun t ht => .ite (sendTo_steady _ _ ht) ?_) (.refl s))
  extract_lets gs t₁ t₂
  have h : Steady s t₂ := .foldl _ _ (fun _ _ hu => modGroup_steady hu) (modMod_steady ht)
  exact .ite (.foldl _ _ (fun _ _ hu => sendTo_steady _ _ hu) h) h

theorem execLeavingTimeout_steady (sender : Word) (s : State) : SteadyOut s (execLeavingTimeout sender s) := by
  refine .next ?_
  split
  · exact .ite (returned_steady _ (.refl s)) (.refl s)
  · exact .refl s

/-! ## Far links -/

theorem execFarFrameReceive_steady (l : Fin 36) (f : FarFrame) (s : State) : SteadyOut s (execFarFrameReceive l f s) :=
  .next (.ite (.refl s) (.ite (.refl s) (deliverFar_steady _ (judgeDelays_steady _ (tickWindow_steady _ _ _ (modLink_steady (.refl s)))))))

theorem execStripeOverdue_steady (l : Fin 36) (stripe : BitVec 48) (s : State) : SteadyOut s (execStripeOverdue l stripe s) := by
  refine .next (.ite (.refl s) (.ite (askRepair_steady _ _ (.refl s)) ?_))
  split
  · exact askRepair_steady _ _ (.refl s)
  · exact deliverFar_steady _ (tickWindow_steady _ _ _ (modLink_steady (.refl s)))

theorem execRepairRerequest_steady (l : Fin 36) (stripe : BitVec 48) (s : State) : SteadyOut s (execRepairRerequest l stripe s) := by
  refine .next ?_
  dsimp only
  split
  · exact .ite (askRepair_steady _ _ (.refl s)) (.refl s)
  · exact .refl s

theorem execFarAckSend_steady (l : Fin 36) (s : State) : SteadyOut s (execFarAckSend l s) :=
  .next (.ite (.refl s) (sendItem_steady _ _ (modLink_steady (.refl s))))

theorem execFarAckReceive_steady (l : Fin 36) (it : Item) (t3 : Word) (s : State) : SteadyOut s (execFarAckReceive l it t3 s) :=
  .next (withItem_steady _ _ _ _ (fun _ ht => .ite ht (judgeDelays_steady _ (ackSegs_steady _ _ (modLink_steady ht)))) (.refl s))

theorem execFarResendReceive_steady (l : Fin 36) (it : Item) (s : State) : SteadyOut s (execFarResendReceive l it s) :=
  .next (withItem_steady _ _ _ _ (fun _ ht => .ite (dropLink_steady _ ht) (modLink_steady ht)) (.refl s))

theorem execPathOutOfContract_steady (l : Fin 36) (s : State) : SteadyOut s (execPathOutOfContract l s) := by
  refine .next (.ite (.refl s) (.foldl _ _ (fun t i ht => ?_) (modLink_steady (raiseFar_steady _ _ (raiseEvent_steady (.refl s))))))
  split
  · exact voidPass_steady _ _ _ _ (.ite ht (sendVoid_steady _ _ _ ht))
  · exact ht

theorem execPathBackInContract_steady (l : Fin 36) (s : State) : SteadyOut s (execPathBackInContract l s) := by
  refine .next ?_
  dsimp only
  split
  · exact .ite (modLink_steady (.refl s)) (.refl s)
  · exact .refl s

/-! ## Parameter updates, steps and deskmates -/

theorem execNmuUnitUpdate_steady (pass unit : Nat) (s : State) : SteadyOut s (execNmuUnitUpdate pass unit s) := by
  refine .next (sendMirror_steady ?_)
  split
  · exact .refl s
  split
  · refine .ite ?_ (.refl s)
    split
    · exact takeUnit_steady _ _ _ _ _ _ (.refl s)
    · exact .refl s
  · exact .refl s

theorem execRecordLands_steady (binding unit : Nat) (s : State) : SteadyOut s (execRecordLands binding unit s) := by
  refine .next (sendMirror_steady ?_)
  split
  · exact .refl s
  split
  · exact .ite (.refl s) (markPasses_steady _ _ (setBd_steady _ _ (modBinding_steady (updateUnit_steady _ _ _ _ (.refl s)))))
  · exact .refl s

theorem execRuleBindRelease_steady (id : Nat) (s : State) : SteadyOut s (execRuleBindRelease id s) := by
  refine .next (sendMirror_steady ?_)
  split
  · exact .refl s
  · exact .ite (.ite (.refl s) (startRule_steady _ (.refl s))) (.refl s)

theorem execStepOpenRelease_steady (id : Nat) (s : State) : SteadyOut s (execStepOpenRelease id s) := by
  refine .next ?_
  split
  · exact .ite (startOpen_steady _ (.refl s)) (.refl s)
  · exact .refl s

theorem execOwnerCommitReport_steady (group : BitVec 16) (s : State) : SteadyOut s (execOwnerCommitReport group s) := by
  refine .next (sendMirror_steady ?_)
  split
  · exact .refl s
  split
  · exact .refl s
  · exact .ite (loseStep_steady _ _ (.refl s)) (.ite (.refl s)
      (pushReports_steady _ _ (modGroup_steady (modNmu_steady (lastWork_steady _ _ (setShare_steady _ (.refl s)))))))

theorem execCommitReportReceive_steady (l : Fin 36) (it : Item) (s : State) : SteadyOut s (execCommitReportReceive l it s) := by
  refine .next (sendMirror_steady (withItem_steady _ _ _ _ (fun t ht => ?_) (.refl s)))
  dsimp only
  split
  · exact ht
  · exact .ite (sendTo_steady _ _ ht) (.ite ht (pushReports_steady _ _ (modGroup_steady ht)))

theorem execCommitDecisionReceive_steady (l : Fin 36) (it : Item) (s : State) : SteadyOut s (execCommitDecisionReceive l it s) := by
  refine .next (sendMirror_steady (withItem_steady _ _ _ _ (fun t ht => ?_) (.refl s)))
  split
  · exact ht
  · exact .ite ht (actDecision_steady _ _ _ _ (sendBeyond_steady _ _ _ ht))

theorem execDeskmatePairFormed_steady (id : Nat) (s : State) : SteadyOut s (execDeskmatePairFormed id s) := by
  refine .next ?_
  split
  · exact .refl s
  · have h : ∀ m : MateSt, Steady s { s with mate := m } := fun _ => .record (.refl s)
    exact .ite (.ite (refuseCap_steady _ _ (h _)) (done_steady _ _ (modMemory_steady (fun _ h => h) (h _)))) (.refl s)

theorem execMirrorRecordReceive_steady (l : Fin 36) (sg : Segment) (s : State) : SteadyOut s (execMirrorRecordReceive l sg s) := by
  refine .next (sendMirror_steady (withSegment_steady _ _ _ (fun x data t ht => .ite ht (.ite ht ?_)) (.refl s)))
  extract_lets bs p t₁ asked js t₂
  have h : Steady s t₂ :=
    .foldl _ _ (fun _ _ hu => .ite (takeRepair_steady _ hu) (.ite (mirrorRec_steady _ hu) hu)) (modMate_steady ht)
  exact .ite (.foldl _ _ (fun _ _ hu => sendItem_steady _ _ hu) h) h

theorem execMirrorAckReceive_steady (l : Fin 36) (it : Item) (s : State) : SteadyOut s (execMirrorAckReceive l it s) :=
  .next (sendMirror_steady (withItem_steady _ _ _ _ (fun _ ht => .ite ht
    (.foldl _ _ (fun _ _ hu => releaseDecision_steady _ (modGroup_steady hu)) (modMate_steady (modMate_steady ht)))) (.refl s)))

theorem execHeartbeatTimeout_steady (s : State) : SteadyOut s (execHeartbeatTimeout s) := by
  refine .next ?_
  split
  · exact .refl s
  refine .ite (.refl s) ?_
  dsimp only
  split
  · exact sendTo_steady _ _ (modMate_steady (.refl s))
  · exact .refl s

theorem execTakeoverReplyReceive_steady (l : Fin 36) (it : Item) (s : State) : SteadyOut s (execTakeoverReplyReceive l it s) := by
  refine .next (withItem_steady _ _ _ _ (fun t ht => .ite ht (.ite ?_ ?_)) (.refl s))
  · exact modMate_steady (.foldl _ _ (fun _ _ hu => takeRank_steady _ _ hu) ht)
  · exact .foldl _ _ (fun _ _ hu => releaseDecision_steady _ (modGroup_steady hu))
      (.foldl _ _ (fun _ _ hu => raiseEvent_steady hu) (raiseDev_steady _ (modMate_steady ht)))

theorem execRankMovedReceive_steady (l : Fin 36) (it : Item) (s : State) : SteadyOut s (execRankMovedReceive l it s) := by
  refine .next (withItem_steady _ _ _ _ (fun t ht => ?_) (.refl s))
  split
  · exact ht
  · exact .ite ht (moveRank_steady _ _ _ (sendBeyond_steady _ _ _ ht))

theorem execRedoRequestReceive_steady (l : Fin 36) (it : Item) (s : State) : SteadyOut s (execRedoRequestReceive l it s) := by
  refine .next (withItem_steady _ _ _ _ (fun t ht => ?_) (.refl s))
  split
  · exact ht
  refine .ite ht ?_
  split
  · exact ht
  · exact .foldl _ _ (fun _ _ hu => enqueueSeg_steady _ _ hu) ht

theorem execDigestReceive_steady (l : Fin 36) (it : Item) (s : State) : SteadyOut s (execDigestReceive l it s) := by
  refine .next (withItem_steady _ _ _ _ (fun t ht => ?_) (.refl s))
  split
  · exact ht
  · exact .ite ht (.foldl _ _ (fun _ _ hu => sendItem_steady _ _ (modMate_steady hu)) ht)

theorem execRepairRequestReceive_steady (l : Fin 36) (it : Item) (s : State) : SteadyOut s (execRepairRequestReceive l it s) := by
  refine .next (withItem_steady _ _ _ _ (fun t ht => ?_) (.refl s))
  dsimp only
  split
  · exact ht
  · exact .foldl _ _ (fun _ _ hu => enqueueSeg_steady _ _ hu) ht

/-! ## Exams, exports and rounds -/

theorem execExamOpenRelease_steady (id : Nat) (s : State) : SteadyOut s (execExamOpenRelease id s) := by
  refine .next ?_
  split
  · exact .ite (startExam_steady _ (.refl s)) (.refl s)
  · exact .refl s

theorem execExportAppend_steady (id : Nat) (s : State) : SteadyOut s (execExportAppend id s) := by
  refine .next ?_
  split
  · exact .ite (.refl s) (appendUnit_steady _ _ (.refl s))
  · exact .refl s

theorem execRoundStateSend_steady (pal : BitVec 16) (region : Nat) (s : State) : SteadyOut s (execRoundStateSend pal region s) := by
  refine .next ?_
  split
  · exact .refl s
  split
  · exact .refl s
  split
  · exact .ite (tellState_steady _ _ (.refl s)) (.refl s)
  · exact tellState_steady _ _ (.refl s)

theorem execRoundFormRelease_steady (id : Nat) (s : State) : SteadyOut s (execRoundFormRelease id s) := by
  refine .next (sendMirror_steady (showRounds_steady ?_))
  split
  · exact .refl s
  refine .ite (.refl s) (.ite ?_ (.ite (.refl s) (startRound_steady _ (.refl s))))
  split
  · exact tryOpen_steady _ (.refl s)
  · exact .refl s

theorem execRoundStateReceive_steady (l : Fin 36) (it : Item) (sender : Word) (region : Nat) (s : State) :
    SteadyOut s (execRoundStateReceive l it sender region s) := by
  refine .next (sendMirror_steady (withItem_steady _ _ _ _ (fun t ht => .ite (passOn_steady _ ht) ?_) (.refl s)))
  split
  · split
    · exact hearPal_steady _ ht
    · exact ht
  dsimp only
  split
  · exact palMismatch_steady _ _ _ _ ht
  refine .ite (palMismatch_steady _ _ _ _ ht) ?_
  have h : ∀ {i f}, Steady s (modRegion region f (hearPal i t)) := fun {_ _} => modRegion_steady (hearPal_steady _ ht)
  split
  · exact showRounds_steady (onState_steady _ _ _ _ h)
  · exact h

theorem execRoundPullReceive_steady (l : Fin 36) (it : Item) (sender : Word) (s : State) :
    SteadyOut s (execRoundPullReceive l it sender s) := by
  refine .next (withItem_steady _ _ _ _ (fun t ht => .ite (passOn_steady _ ht) ?_) (.refl s))
  split
  · exact ht
  split
  · exact palMismatch_steady _ _ _ _ ht
  split
  · exact ht
  · exact .ite ht (sendRecords_steady _ _ _ _ (.record ht))

theorem execDifferenceReceive_steady (l : Fin 36) (sender : Word) (group : BitVec 16) (record : List Byte) (s : State) :
    SteadyOut s (execDifferenceReceive l sender group record s) := by
  refine .next (sendMirror_steady (showRounds_steady (.ite (.refl s) ?_)))
  extract_lets site baseOf joined
  clear_value joined
  rcases joined with _ | ⟨x, j, a⟩
  case some =>
    have ht : Steady s (joinRegion x j a s) := joinRegion_steady _ _ _ (.refl s)
    dsimp only
    split
    · exact endOpen_steady _ _ ht
    · exact ht
  dsimp only
  split
  · exact .refl s
  split
  · exact palMismatch_steady _ _ _ _ (.refl s)
  · exact .ite (palMismatch_steady _ _ _ _ (.refl s)) (.ite (formFailure_steady _ (.refl s))
      (.ite (.refl s) (.ite (.refl s) (.ite (.refl s) (takeDiff_steady _ _ _ (.refl s))))))

theorem execRoundMerge_steady (region : Nat) (s : State) : SteadyOut s (execRoundMerge region s) := by
  refine .next (sendMirror_steady (showRounds_steady ?_))
  split
  · exact .refl s
  · exact .ite (.refl s) (advanceFinal_steady _ (mergeAll_steady _ _ (advanceFinal_steady _ (.refl s))))

theorem execRoundWaitTimeout_steady (region : Nat) (site : Fin 8) (s : State) : SteadyOut s (execRoundWaitTimeout region site s) := by
  refine .next ?_
  split
  · exact .refl s
  split
  · exact .refl s
  · exact .ite (.refl s) (modRegion_steady (.refl s))

theorem execPalUnreachableTimeout_steady (pal : BitVec 16) (s : State) : SteadyOut s (execPalUnreachableTimeout pal s) := by
  refine .next (showRounds_steady ?_)
  split
  · exact .refl s
  · exact .ite (.foldl _ _ (fun _ _ ht => tryOpen_steady _ ht) (modPal_steady (.refl s))) (.refl s)

/-! ## Memory stacks -/

theorem execChannelMapOut_steady (ch : Fin 384) (cause : Fin 8) (s : State) : SteadyOut s (execChannelMapOut ch cause s) :=
  .next (.ite (startMoves_steady (leaveChannel_steady _ _ (channelOutEvent_steady _ _ (markOut_steady _ (.refl s))))) (.refl s))

theorem execSlotMoveDone_steady (slot : Fin 4096) (s : State) : SteadyOut s (execSlotMoveDone slot s) := by
  refine .next ?_
  dsimp only
  split
  · exact .refl s
  · exact .ite (.refl s) (settleStacks_steady (setMap_steady _ _ (modMemory_steady (fun _ h => h) (.refl s))))

theorem execStackRetrainPark_steady (m : Fin 24) (s : State) : SteadyOut s (execStackRetrainPark m s) := by
  refine .next ?_
  dsimp only
  split
  · exact .ite (startRetrain_steady _ (.refl s)) (.refl s)
  · exact .refl s

theorem execStackRetrainDone_steady (m : Fin 24) (s : State) : SteadyOut s (execStackRetrainDone m s) :=
  .next (.ite (.refl s) (settleStacks_steady (queueMoves_steady _ _ (modStack_steady (.foldl _ _
    (fun _ _ ht => modMemChan_steady (modFlash_steady (fun _ => ⟨Nat.le_refl _, Nat.le_refl _⟩) ht)) (.refl s))))))

theorem execParkReturn_steady (m : Fin 24) (s : State) : SteadyOut s (execParkReturn m s) := by
  refine .next ?_
  dsimp only
  split
  · exact .refl s
  refine .ite (.ite ?_ ?_) (.refl s)
  · exact logDecision_steady _ _ _ _ _ _ _ _ (.refl s)
  · exact settleStacks_steady (queueMoves_steady _ _ (modStack_steady (.foldl _ _
      (fun _ _ ht => setMap_steady _ _ (modMemory_steady (fun _ h => h) ht)) (logDecision_steady _ _ _ _ _ _ _ _ (.refl s)))))

theorem execMemUncorrectable_steady (fastAddr : Nat) (s : State) : SteadyOut s (execMemUncorrectable fastAddr s) :=
  .next (.ite (raiseDev_steady _ (raiseEvent_steady (modMemory_steady (fun _ h => h)
    (modStack_steady (modMemChan_steady (.refl s)))))) (.refl s))

theorem execStackTempSample_steady (m : Fin 24) (celsius : BitVec 8) (s : State) : SteadyOut s (execStackTempSample m celsius s) := by
  refine .next (.ite (.refl s) ?_)
  extract_lets u l v
  have hu : Steady s u := noteTemp_steady _ _ (.refl s)
  have hv : Steady s v := raiseLevels_steady _ _ _ _ (modStack_steady hu)
  exact .ite (sendMirror_steady (loseStack_steady _ _ (raiseLevels_steady _ _ _ _ hu)))
    (.ite hu (.ite (drainStack_steady _ (raiseLevels_steady _ _ _ _ hu)) (.ite (parkStack_steady _ _ hv) hv)))

theorem execScrub_steady (m : Fin 24) (w : Word) (s : State) : SteadyOut s (execScrub m w s) :=
  sweepInstr_steady fun _ _ _ _ ht => ht

theorem execExportRec_steady (m : Fin 24) (w : Word) (s : State) : SteadyOut s (execExportRec m w s) :=
  sweepInstr_steady fun _ _ _ _ ht => ht

theorem execCatchup_steady (m : Fin 24) (w : Word) (s : State) : SteadyOut s (execCatchup m w s) :=
  sweepInstr_steady fun _ _ _ _ ht => sendMirror_steady (catchSegment_steady _ _ ht)

theorem execMove_steady (m : Fin 24) (w : Word) (s : State) : SteadyOut s (execMove m w s) := by
  refine sweepInstr_steady fun a b k t ht => ?_
  split
  · exact ht
  · exact setMap_steady _ _ ht

theorem execSweepOpComplete_steady (m : Fin 24) (tok : Fin 32) (s : State) : SteadyOut s (execSweepOpComplete m tok s) := by
  refine .next ?_
  split
  · exact .refl s
  · exact modSeq_steady (.refl s)

theorem execScrubSweepStart_steady (s : State) : SteadyOut s (execScrubSweepStart s) :=
  .next (.ite (.foldl _ _ (fun _ _ ht => .ite (modSeq_steady ht) ht) (modMod_steady (.refl s))) (.refl s))

/-! ## Starts, stages and stops -/

theorem execFencedDescriptorStart_steady (id : Nat) (s : State) : SteadyOut s (execFencedDescriptorStart id s) := by
  refine .next ?_
  split
  · exact afterStart_steady (startHeld_steady _ _ (fun _ _ ht => startOf_steady _ _ ht) (.refl s))
  · exact .refl s

theorem execInputInRange_steady (s : State) : SteadyOut s (execInputInRange s) :=
  .next (.ite (.refl s) (modMod_steady
    (.ite (.ite (coldStart_steady _ _ (.refl s)) (.refl s)) (.ite (.refl s) (coldStart_steady _ _ (.refl s))))))

theorem execResetCtrlWarm_steady (p : Port) (key : BitVec 16) (cold : Bool) (s : State) :
    SteadyOut s (execResetCtrlWarm p key cold s) := by
  have h : Steady s (endLatch p s) := endLatch_steady _ (.refl s)
  exact .next (.ite (.refl s) (.ite h (modMod_steady h)))

theorem execWarmHoldEnd_steady (s : State) : SteadyOut s (execWarmHoldEnd s) := by
  refine .next ?_
  split
  · exact .refl s
  · exact .ite (.refl s) (warmStart_steady _ (modFlash_steady (fun _ => ⟨Nat.le_refl _, Nat.le_refl _⟩)
      (modNmu_steady (.foldl _ _ (fun _ _ ht => sendItem_steady _ _ ht) (.refl s)))))

theorem execThermalTrip_steady (sensor : Fin 10) (celsius : Int) (s : State) : SteadyOut s (execThermalTrip sensor celsius s) := by
  refine .next ?_
  split
  · exact .refl s
  · exact .ite (.refl s) (modMod_steady (.ite (.refl s) (goOffline_steady _ _ (.refl s))))

theorem execStageFirmware_steady (s : State) : SteadyOut s (execStageFirmware s) := by
  refine .next (.ite (.refl s) (.ite (goOffline_steady _ _ (.refl s)) ?_))
  split
  case h_1 => exact goOffline_steady _ _ (.refl s)
  case h_2 t ht =>
    have h : Steady s t := chooseFirmware_steady (.refl s) ht
    exact .ite (goOffline_steady _ _ h) (modMod_steady h)

theorem execStageClocks_steady (ptpTime : Option Word) (s : State) : SteadyOut s (execStageClocks ptpTime s) :=
  .next (.ite (.refl s) (modMod_steady (.ite (modTime_steady (.refl s)) (firstLock_steady _ (modTime_steady (.refl s))))))

theorem execStageMemory_steady (trained : BitVec 384) (s : State) : SteadyOut s (execStageMemory trained s) :=
  .next (.ite (.refl s) (.ite
    (.ite (coldStart_steady _ _ (.refl s)) (sendMirror_steady (modMod_steady (warmMemory_steady (.refl s)))))
    (.ite (goOffline_steady _ _ (.refl s)) (modMod_steady (coldMemory_steady _ (.refl s))))))

theorem execStageLinks_steady (s : State) : SteadyOut s (execStageLinks s) :=
  .next (.ite (.refl s) (modMod_steady (.foldl _ _ (fun _ _ ht => judgeAbsent_steady _ ht) (.refl s))))

theorem execStageCores_steady (goodSlots : BitVec 192) (s : State) : SteadyOut s (execStageCores goodSlots s) :=
  .next (.ite (.refl s) (modMod_steady (.ite (warmCores_steady _ (.refl s)) (coldCores_steady _ (.refl s)))))

theorem execRollCallPass_steady (s : State) : SteadyOut s (execRollCallPass s) := by
  refine .next (.ite (.refl s) ?_)
  extract_lets s₁ s₂ s₃ s₄ s₅
  have h₂ : Steady s s₂ := raiseDev_steady _ (modFlash_steady (fun _ => ⟨Nat.le_refl _, Nat.le_refl _⟩) (modMod_steady (.refl s)))
  have h₃ : Steady s s₃ := .foldl _ _ (fun _ _ ht => sendRollCall_steady _ ht) h₂
  have h₄ : Steady s s₄ := takeBells_steady _ (takeBells_steady _ h₃)
  exact afterStart_steady (beginReady_steady (.foldl _ _ (fun _ _ ht => startEarly_steady _ ht) h₄))

/-! ## Time, registers and report cards -/

theorem execPtpMessage_steady (domain : BitVec 8) (sync : Bool) (offsetNs : Int) (s : State) :
    SteadyOut s (execPtpMessage domain sync offsetNs s) :=
  .next (.ite (.refl s) (.ite (modTime_steady (modTime_steady (.refl s))) (modTime_steady (.refl s))))

theorem execHoldoverExpiry_steady (s : State) : SteadyOut s (execHoldoverExpiry s) := by
  refine .next ?_
  split
  · exact .ite (modTime_steady (.refl s)) (.refl s)
  · exact .refl s

theorem execMbxStatusClear_steady (p : Port) (value : Word) (coincident : Bool) (s : State) :
    SteadyOut s (execMbxStatusClear p value coincident s) := by
  refine .next ?_
  extract_lets t
  have ht : Steady s t := regAccess_steady _ _ (fun _ hu => modPort_steady (fun _ h => h) hu) (.refl s)
  exact .ite (mailboxEnd_steady _ ht) ht

theorem execFlagEnableWrite_steady (p : Port) (value : BitVec 29) (s : State) : SteadyOut s (execFlagEnableWrite p value s) := by
  refine .next (regAccess_steady _ _ (fun t ht => ?_) (.refl s))
  extract_lets fresh u
  have hu : Steady s u := modPort_steady (fun _ h => h) ht
  exact .ite (sendMsix_steady _ _ hu) hu

theorem execChanBellClear_steady (p : Port) (slot : Fin 4096) (coincident : Bool) (s : State) :
    SteadyOut s (execChanBellClear p slot coincident s) := by
  refine .next ?_
  extract_lets t
  have ht : Steady s t := regAccess_steady _ _ (fun _ hu => .ite (modSlot_steady hu) hu) (.refl s)
  exact .ite (raiseBellError_steady _ ht) ht

theorem execReportCardPlace_steady (p : Port) (s : State) : SteadyOut s (execReportCardPlace p s) := by
  refine .next ?_
  extract_lets q
  split
  · exact .refl s
  refine .ite (.refl s) ?_
  extract_lets s₁ s₂ s₃
  have h : Steady s s₃ := modPort_steady (fun _ h => h) (hostWrite_steady _ _ _ (.ite (.refl s) (hostWrite_steady _ _ _ (.refl s))))
  exact .ite (sendMsix_steady _ _ h) h

/-! ## Every command -/

/-- A command answers only states that keep what `Steady` names. Commands of one shape share an arm, and one whose meaning branches has
its lemma above. -/
theorem exec_steady (i : Instr) (s : State) : SteadyOut s (exec i s) := by
  cases i with
  | lessonRun d => exact .next (fetch_steady startLesson_steady)
  | tensorMove d => exact .next (fetch_steady startMove_steady)
  | exchange d =>
    exact .next (settlePasses_steady
      (fetchWith_steady _ _ _ _ (fun r _ => noteExchange_steady r) (fun r _ => startExchange_steady r) (.refl s)))
  | roundSend d => exact .next (sendMirror_steady (showRounds_steady (fetch_steady startRound_steady)))
  | ruleBind d | ruleRelease d => exact .next (sendMirror_steady (fetch_steady startRule_steady))
  | stepOpen d => exact .next (fetch_steady startOpen_steady)
  | stepCommit d => exact .next (fetch_steady startCommit_steady)
  | examOpen d => exact .next (fetch_steady startExam_steady)
  | examClose d => exact .next (fetch_steady startExamClose_steady)
  | deltaExport d => exact .next (fetch_steady startExport_steady)
  | wait d => exact .next (fetch_steady startWait_steady)
  | statsRead d => exact .next (fetch_steady startStatsRead_steady)
  | snapshot d => exact .next (fetch_steady startSnapshot_steady)
  | channelCreate d | channelAdopt d => exact .next (fetch_steady startCreate_steady)
  | channelDestroy d => exact .next (settlePasses_steady (fetch_steady startDestroy_steady))
  | mapMemory d => exact .next (fetch_steady startMap_steady)
  | unmap d => exact .next (fetch_steady startUnmap_steady)
  | groupDefine d => exact .next (fetch_steady startGroup_steady)
  | deskmatePair d => exact .next (fetch_steady startPair_steady)
  | penPalDefine d => exact .next (fetch_steady startPal_steady)
  | topologyLoad d => exact .next (fetch_steady startTopology_steady)
  | policyLimits d => exact .next (fetch_steady startLimits_steady)
  | keyInstall d => exact .next (fetch_steady startKeyInstall_steady)
  | sqTailWrite p slot offset size value | cqHeadWrite p slot size value => exact .next (bellWrite_steady _ _ _ _ _ (.refl s))
  | peerFenceWrite p => exact .next (.ite (.refl s) (fencePort_steady _ (modPort_steady (fun _ h => h) (.refl s))))
  | selfFenceClear p coincident | portReset p | portLinkUp p width speed => exact .next (modPort_steady (fun _ h => h) (.refl s))
  | portLinkDown p => exact .next (.ite (modPort_steady (fun _ h => h) (.refl s)) (.refl s))
  | adminDisable p => exact .next (.ite (.refl s) (modSlot_steady (modPort_steady (fun _ h => h) (.refl s))))
  -- lessons
  | saluAdd p w | saluSub p w | saluMul p w | saluMulhu p w | saluDivu p w | saluRemu p w | saluAnd p w | saluOr p w | saluXor p w
  | saluShl p w | saluShr p w | saluSra p w | saluMin p w | saluMax p w | saluMinu p w | saluMaxu p w
  | scmpEq p w | scmpNe p w | scmpLt p w | scmpLtu p w | scmpGe p w | scmpGeu p w => exact instr_steady fun _ ht => scalarOp_steady _ _ _ ht
  | li p w | lih p w | amov p w | aadd p w | aadds p w | ard p w | rdtime p w | rdflag c w | rdcyc p w =>
    exact instr_steady fun _ ht => stepSeq_steady _ _ ht
  | beqz p w | bnez p w | btok p w => exact instr_steady fun _ ht => branchIf_steady _ _ _ ht
  | nop p w => exact instr_steady fun _ ht => advance_steady _ ht
  | jmp p w => exact instr_steady fun _ ht => branchTo_steady _ _ ht
  | call p w => exact instr_steady fun _ ht => branchTo_steady _ _ (modSeq_steady ht)
  | jr p w => exact instr_steady fun _ ht => goTo_steady _ _ ht
  | clrflag c w coincident | setstream c w | swap c w => exact instr_steady fun _ ht => advance_steady _ (modCore_steady ht)
  | dld c w => exact instr_steady fun _ ht => dldBody_steady _ _ ht
  | dst c w => exact instr_steady fun _ ht => dstBody_steady _ _ ht
  | gather c w | scatter c w | sadd c w | smin c w | smax c w => exact instr_steady fun _ ht => narrowBody_steady _ _ _ ht
  | fill c w => exact instr_steady fun _ ht => fillBody_steady _ _ ht
  | stream c w => exact instr_steady fun _ ht => streamBody_steady _ _ ht
  | drain c w => exact instr_steady fun _ ht => drainBody_steady _ _ ht
  | vopAdd c w | vopSub c w | vopMul c w | div c w => exact instr_steady fun _ ht => binaryOp_steady _ _ _ ht
  | abs c w | neg c w | rcp c w | sqrt c w | rsqrt c w | exp c w | exp2 c w | log c w | log2 c w | tanh c w =>
    exact instr_steady fun _ ht => unaryOp_steady _ _ _ ht
  | fma c w | vopMax c w | vopMin c w | sel c w | iota c w => exact instr_steady fun _ ht => laneOp_steady _ _ _ _ ht
  | iadd c w | isub c w | imul c w | imax c w | imin c w | vopAnd c w | vopOr c w | vopXor c w | vopShl c w | vopShr c w | vopSra c w =>
    exact instr_steady fun _ ht => bitsOp_steady _ _ _ _ ht
  | mand c w | mor c w | mxor c w | mnot c w => exact instr_steady fun _ ht => maskOp_steady _ _ _ _ ht
  | cmp c w | reduce c w | smxInit c w | smxStep c w | smxNorm c w => exact instr_steady fun _ ht => vecStep_steady _ _ _ ht
  | cvt c w => exact instr_steady fun _ ht => cvtBody_steady _ _ ht
  | load c w => exact instr_steady fun _ ht => loadBody_steady _ _ ht
  | store c w => exact instr_steady fun _ ht => storeBody_steady _ _ ht
  | pop c w => exact instr_steady fun _ ht => popBody_steady _ _ ht
  | route c w => exact instr_steady fun _ ht => routeBody_steady _ _ ht
  | predict c w => exact instr_steady fun _ ht => predictBody_steady _ _ ht
  | confirm c w => exact instr_steady fun _ ht => confirmBody_steady _ _ ht
  | syncWait p w => exact instr_steady fun _ ht => waitBody_steady _ _ ht
  | xpost c w => exact instr_steady fun _ ht => xpostBody_steady _ _ ht
  | slot l w => exact instr_steady fun _ ht => .ite (advance_steady _ ht) (stepSeq_steady _ _ ht)
  | expect l w | fold l w => exact linkInstr_steady fun _ _ _ ht => beginPlaceOp_steady _ _ _ _ _ _ ht
  | coreFence c => exact .next (fenceCore_steady _ (.refl s))
  -- deskmates, memory stacks and links
  | heartbeatSend l => exact .next (.ite (sendItem_steady _ _ (modMate_steady (.refl s))) (.refl s))
  | heartbeatReceive l it => exact .next (withItem_steady _ _ _ _ (fun _ ht => .ite (modMate_steady ht) ht) (.refl s))
  | takeoverRequestReceive l it => exact .next (withItem_steady _ _ _ _ (fun _ ht => sendItem_steady _ _ ht) (.refl s))
  | dataRebuildDone fastAddr =>
    exact .next (sendMirror_steady
      (.ite (replayReaders_steady _ (rebuildBlock_steady _ (modMemory_steady (fun _ h => h) (.refl s)))) (.refl s)))
  | repairLineReplace ch line => exact .next (.ite (modStack_steady (modMemChan_steady (.refl s))) (.refl s))
  | mapChangeAcked slot => exact .next (modMemory_steady (fun _ h => h) (.refl s))
  | memorySideDieLost m => exact .next (.ite (sendMirror_steady (loseStack_steady _ _ (.refl s))) (.refl s))
  | memCtrlRetrain p m => exact .next (regAccess_steady _ _ (fun _ ht => .ite (startRetrain_steady _ ht) ht) (.refl s))
  | bdMissFill entry => exact .next (modNmu_steady (.refl s))
  | writeBackAcknowledged binding unit => exact .next (modBinding_steady (.refl s))
  | streamContextGranted engine | engineQueueRelease engine => exact .next (modEngine_steady (.refl s))
  | linkLock l | laneRetrainDone l | linkAutoRetrain l => exact .next (.ite (modLink_steady (.refl s)) (.refl s))
  | linkAckTimeout l | farSilenceTimeout l => exact .next (.ite (dropLink_steady _ (.refl s)) (.refl s))
  | segmentReceive l sg => exact .next (withSegment_steady _ _ _ (fun _ _ _ ht => actSegment_steady _ _ _ ht) (.refl s))
  | keyReadyReceive l it => exact .next (withItem_steady _ _ _ _ (fun _ ht => modLink_steady ht) (.refl s))
  | sorterFence l => exact .next (raiseLink_steady _ _ (raiseEvent_steady (modLink_steady (.refl s))))
  | linkFlushWrite p value => exact .next (regAccess_steady _ _ (fun _ ht => .foldl _ _ (fun _ _ hu => flushLink_steady _ hu) ht) (.refl s))
  | linkReleaseWrite p l => exact .next (regAccess_steady _ _ (fun _ ht => .ite (endHoldOut_steady _ ht) ht) (.refl s))
  | egressWmWrite p l value =>
    exact .next (regAccess_steady _ _ (fun _ ht => .ite (releaseTransit_steady _ (settleHold_steady _ (modLink_steady ht))) ht) (.refl s))
  | linkFlagsClear p l value coincident =>
    exact .next (raiseEach_steady _ _ _ (fun _ _ ht => raiseLink_steady _ _ ht)
      (regAccess_steady _ _ (fun _ ht => modLink_steady ht) (.refl s)))
  | retriedRead p l whole coincident | fecCorrectedRead p l whole coincident =>
    exact .next (modLink_steady (readAccess_steady _ _ (fun _ ht => readsAs_steady _ _ (.ite (modLink_steady ht) ht)) (.refl s)))
  | farRekeyTimer l => exact .next (.ite (askKex_steady _ (.refl s)) (.refl s))
  | kexRequestReceive l it => exact .next (withItem_steady _ _ _ _ (fun _ ht => .ite (startKex_steady _ _ ht) ht) (.refl s))
  | rollCallResend l => exact .next (.ite (sendRollCall_steady _ (.refl s)) (.refl s))
  | farFlagsClear p l value coincident =>
    exact .next (.ite (regAccess_steady _ _ (fun _ ht => ht) (.refl s))
      (raiseEach_steady _ _ _ (fun _ _ ht => raiseFar_steady _ _ ht) (regAccess_steady _ _ (fun _ ht => modLink_steady ht) (.refl s))))
  | farRepairedRead p l whole coincident =>
    exact .next (.ite (readAccess_steady _ _ (fun _ ht => readsAs_steady _ _ ht) (.refl s))
      (modLink_steady (readAccess_steady _ _ (fun _ ht => readsAs_steady _ _ (.ite (modLink_steady ht) ht)) (.refl s))))
  | farContractWrite p l value => exact .next (regAccess_steady _ _ (fun _ ht => .ite ht (modLink_steady ht)) (.refl s))
  -- the module, its time and its registers
  | moduleOffline => exact .next (.ite (.refl s) (goOffline_steady _ _ (.refl s)))
  | inputOutOfRange => exact .next (.ite (.refl s) (modMod_steady (.ite (.refl s) (goOffline_steady _ _ (.refl s)))))
  | modResetNLow => exact .next (.ite (.refl s) (coldStart_steady _ _ (.refl s)))
  | resetCtrlCold p key warm => exact .next (.ite (endLatch_steady _ (.refl s)) (coldStart_steady _ _ (.refl s)))
  | recoveryWarmStart => exact .next (.ite (warmStart_steady _ (.refl s)) (.refl s))
  | offlineRecoveryTimeout | holdUpExhausted | tripSensorsCooled => exact .next (.ite (modMod_steady (.refl s)) (.refl s))
  | stagePower => exact .next (.ite (modMod_steady (.ite (restLinks_steady (.refl s)) (.refl s))) (.refl s))
  | ppsEdge | ref10PresentChange present => exact .next (modTime_steady (.refl s))
  | timeSourceLoss => exact .next (.ite (raiseDev_steady _ (modTime_steady (.refl s))) (.refl s))
  | timeCtrlWrite p value => exact .next (regAccess_steady _ _ (fun _ ht => reselect_steady (modTime_steady ht)) (.refl s))
  | ppsPresentLost => exact .next (.ite (reselect_steady (modTime_steady (.refl s))) (.refl s))
  | latchedRead p offset size => exact .next (readAt_steady _ _ _ (.refl s))
  | vin | iin | pin => exact .next (smbSensor_steady _ (.refl s))
  | temps => exact .next (drawFree_steady (smbRead_steady _ (.refl s)))
  | status => exact .next (modMod_steady (smbRead_steady _ (.refl s)))
  | identity => exact .next (smbRead_steady _ (.refl s))
  | getIdentity p | attest p | fwStage p | fwActivate p | fwConfirm p | fwStatus p | getLog p =>
    exact .next (goCommand_steady _ _ (.refl s))
  | mailboxResult p => exact .next (mailboxEnd_steady _ (.refl s))
  | mbxFlagsClear p value coincident =>
    exact .next (raiseEach_steady _ _ _ (fun _ _ ht => raiseMbx_steady _ _ ht)
      (regAccess_steady _ _ (fun _ ht => modPort_steady (fun _ h => h) ht) (.refl s)))
  | devFlagsClear p value coincident =>
    exact .next (regAccess_steady _ _ (fun _ ht => .record ht) (raiseEach_steady _ _ _ (fun _ _ ht => raiseDev_steady _ ht) (.refl s)))
  | rcCfgWrite p value => exact .next (regAccess_steady _ _ (fun _ ht => modPort_steady (fun _ h => h) ht) (.refl s))
  | rcDroppedRead p whole coincident =>
    exact .next (modPort_steady (fun _ h => h)
      (readAccess_steady _ _ (fun _ ht => readsAs_steady _ _ (.ite (modPort_steady (fun _ h => h) ht) ht)) (.refl s)))
  | stackCountsRead p m size high coincident => exact .next (modStack_steady (readAt_steady _ _ _ (.refl s)))
  | registerWrite p offset size value => exact .next (writeAt_steady _ _ _ _ (.refl s))
  | undefinedOpcode opcode d => exact execUndefinedOpcode_steady opcode d s
  | fencedDescriptorStart id => exact execFencedDescriptorStart_steady id s
  | unmapRelease id => exact execUnmapRelease_steady id s
  | stepOpenRelease id => exact execStepOpenRelease_steady id s
  | examOpenRelease id => exact execExamOpenRelease_steady id s
  | ruleBindRelease id => exact execRuleBindRelease_steady id s
  | waitSatisfied id => exact execWaitSatisfied_steady id s
  | waitTimeout id => exact execWaitTimeout_steady id s
  | deskmatePairFormed id => exact execDeskmatePairFormed_steady id s
  | completionWrite slot => exact execCompletionWrite_steady slot s
  | coalesceTimerExpiry slot => exact execCoalesceTimerExpiry_steady slot s
  | portLinkDownTimeout p => exact execPortLinkDownTimeout_steady p s
  | adminEnable p => exact execAdminEnable_steady p s
  | admissionDecision id => exact execAdmissionDecision_steady id s
  | exchangeFinal id => exact execExchangeFinal_steady id s
  | halt p w => exact execHalt_steady p w s
  | rdid p w => exact execRdid_steady p w s
  | sld p w => exact execSld_steady p w s
  | sst p w => exact execSst_steady p w s
  | bltz p w => exact execBltz_steady p w s
  | bgez p w => exact execBgez_steady p w s
  | tile c w => exact execTile_steady c w s
  | bcast c w => exact execBcast_steady c w s
  | rot c w => exact execRot_steady c w s
  | rand c w => exact execRand_steady c w s
  | squash c w => exact execSquash_steady c w s
  | signal c w => exact execSignal_steady c w s
  | waitev c w => exact execWaitev_steady c w s
  | bar c w => exact execBar_steady c w s
  | statTag c w => exact execStatTag_steady c w s
  | statRead c w => exact execStatRead_steady c w s
  | send l w => exact execSend_steady l w s
  | deliver l w => exact execDeliver_steady l w s
  | scrub m w => exact execScrub_steady m w s
  | exportRec m w => exact execExportRec_steady m w s
  | catchup m w => exact execCatchup_steady m w s
  | move m w => exact execMove_steady m w s
  | dmaComplete c toMemory => exact execDmaComplete_steady c toMemory s
  | narrowComplete c seq => exact execNarrowComplete_steady c seq s
  | fillComplete c bank => exact execFillComplete_steady c bank s
  | passStart c => exact execPassStart_steady c s
  | passClose c => exact execPassClose_steady c s
  | drainComplete c => exact execDrainComplete_steady c s
  | popRowDeliver c => exact execPopRowDeliver_steady c s
  | routeComplete c => exact execRouteComplete_steady c s
  | predictLand c handle => exact execPredictLand_steady c handle s
  | predictCopyDone c handle => exact execPredictCopyDone_steady c handle s
  | squashShareFreed c handle => exact execSquashShareFreed_steady c handle s
  | signalLand c event => exact execSignalLand_steady c event s
  | waitevRelease c => exact execWaitevRelease_steady c s
  | barRelease run scope form => exact execBarRelease_steady run scope form s
  | setstreamReseedDone c => exact execSetstreamReseedDone_steady c s
  | slotRelease l => exact execSlotRelease_steady l s
  | linkOpComplete l tok => exact execLinkOpComplete_steady l tok s
  | sweepOpComplete m tok => exact execSweepOpComplete_steady m tok s
  | lessonRunComplete run => exact execLessonRunComplete_steady run s
  | sequencerWatchdog c => exact execSequencerWatchdog_steady c s
  | nmuUnitUpdate pass unit => exact execNmuUnitUpdate_steady pass unit s
  | ownerCommitReport group => exact execOwnerCommitReport_steady group s
  | commitReportReceive l it => exact execCommitReportReceive_steady l it s
  | mirrorAckReceive l it => exact execMirrorAckReceive_steady l it s
  | commitDecisionReceive l it => exact execCommitDecisionReceive_steady l it s
  | mirrorRecordReceive l sg => exact execMirrorRecordReceive_steady l sg s
  | heartbeatTimeout => exact execHeartbeatTimeout_steady s
  | takeoverReplyReceive l it => exact execTakeoverReplyReceive_steady l it s
  | rankMovedReceive l it => exact execRankMovedReceive_steady l it s
  | redoRequestReceive l it => exact execRedoRequestReceive_steady l it s
  | digestReceive l it => exact execDigestReceive_steady l it s
  | repairRequestReceive l it => exact execRepairRequestReceive_steady l it s
  | exportAppend id => exact execExportAppend_steady id s
  | memUncorrectable fastAddr => exact execMemUncorrectable_steady fastAddr s
  | channelMapOut ch cause => exact execChannelMapOut_steady ch cause s
  | slotMoveDone slot => exact execSlotMoveDone_steady slot s
  | stackTempSample m celsius => exact execStackTempSample_steady m celsius s
  | stackRetrainPark m => exact execStackRetrainPark_steady m s
  | stackRetrainDone m => exact execStackRetrainDone_steady m s
  | engineFence engine => exact execEngineFence_steady engine s
  | linkTrainingDone l lanes delayNs => exact execLinkTrainingDone_steady l lanes delayNs s
  | laneLost l lane => exact execLaneLost_steady l lane s
  | frameTransmit l => exact execFrameTransmit_steady l s
  | frameReceive l f => exact execFrameReceive_steady l f s
  | abortReceive l it => exact execAbortReceive_steady l it s
  | voidReceive l it => exact execVoidReceive_steady l it s
  | resendReceive l it => exact execResendReceive_steady l it s
  | foldParkTimeout l pass => exact execFoldParkTimeout_steady l pass s
  | holdOutExpiry l => exact execHoldOutExpiry_steady l s
  | creditStallTimeout l => exact execCreditStallTimeout_steady l s
  | linkEnableWrite p l enable => exact execLinkEnableWrite_steady p l enable s
  | linkRetrainWrite p l => exact execLinkRetrainWrite_steady p l s
  | farFrameReceive l f => exact execFarFrameReceive_steady l f s
  | stripeOverdue l stripe => exact execStripeOverdue_steady l stripe s
  | repairRerequest l stripe => exact execRepairRerequest_steady l stripe s
  | farAckSend l => exact execFarAckSend_steady l s
  | farAckReceive l it t3 => exact execFarAckReceive_steady l it t3 s
  | farResendReceive l it => exact execFarResendReceive_steady l it s
  | pathOutOfContract l => exact execPathOutOfContract_steady l s
  | pathBackInContract l => exact execPathBackInContract_steady l s
  | roundStateSend pal region => exact execRoundStateSend_steady pal region s
  | roundStateReceive l it sender region => exact execRoundStateReceive_steady l it sender region s
  | roundPullReceive l it sender => exact execRoundPullReceive_steady l it sender s
  | differenceReceive l sender group record => exact execDifferenceReceive_steady l sender group record s
  | roundMerge region => exact execRoundMerge_steady region s
  | roundWaitTimeout region site => exact execRoundWaitTimeout_steady region site s
  | roundFormRelease id => exact execRoundFormRelease_steady id s
  | palUnreachableTimeout pal => exact execPalUnreachableTimeout_steady pal s
  | keySlotExhausted l => exact execKeySlotExhausted_steady l s
  | kexDataReceive l it => exact execKexDataReceive_steady l it s
  | kexDoneReceive l it => exact execKexDoneReceive_steady l it s
  | kexAbortReceive l it => exact execKexAbortReceive_steady l it s
  | kexTimeout l => exact execKexTimeout_steady l s
  | kexRetry l => exact execKexRetry_steady l s
  | inputInRange => exact execInputInRange_steady s
  | resetCtrlWarm p key cold => exact execResetCtrlWarm_steady p key cold s
  | warmHoldEnd => exact execWarmHoldEnd_steady s
  | stageFirmware => exact execStageFirmware_steady s
  | stageClocks ptpTime => exact execStageClocks_steady ptpTime s
  | stageMemory trained => exact execStageMemory_steady trained s
  | stageLinks => exact execStageLinks_steady s
  | stageCores goodSlots => exact execStageCores_steady goodSlots s
  | rollCallPass => exact execRollCallPass_steady s
  | rollCallReceive l it => exact execRollCallReceive_steady l it s
  | leavingReceive l it => exact execLeavingReceive_steady l it s
  | leavingTimeout sender => exact execLeavingTimeout_steady sender s
  | thermalTrip sensor celsius => exact execThermalTrip_steady sensor celsius s
  | ptpMessage domain sync offsetNs => exact execPtpMessage_steady domain sync offsetNs s
  | holdoverExpiry => exact execHoldoverExpiry_steady s
  | mbxStatusClear p value coincident => exact execMbxStatusClear_steady p value coincident s
  | flagEnableWrite p value => exact execFlagEnableWrite_steady p value s
  | chanBellClear p slot coincident => exact execChanBellClear_steady p slot coincident s
  | reportCardPlace p => exact execReportCardPlace_steady p s
  | linkAvoidReview l => exact execLinkAvoidReview_steady l s
  | parkReturn m => exact execParkReturn_steady m s
  | recordLands binding unit => exact execRecordLands_steady binding unit s
  | scrubSweepStart => exact execScrubSweepStart_steady s

end Sys2Proof.Machine
end

section
/-!
The firmware floor (chapter 16, R417 to R419): what FW_CONFIRM raises, that no step lowers it, and that stage 1 starts no image below it.
-/

namespace Sys2Proof.Machine

/-! ## A step -/

theorem tick_steady (s : State) : Steady s (tick s) := modTime_steady (.refl s)

/-- A step lowers neither MIN_SVN nor the write count: the command taken meets the state of the step but for the queue. -/
theorem step_flash_le {s t : State} (h : step s = .next t) :
    s.flash.minSvn.toNat ≤ t.flash.minSvn.toNat ∧ s.flash.counterWrites ≤ t.flash.counterWrites := by
  unfold step at h
  split at h
  · cases h
    obtain ⟨-, hsvn, hwrites, -⟩ := tick_steady s
    exact ⟨hsvn, hwrites⟩
  · obtain ⟨-, hsvn, hwrites, -⟩ := exec_steady _ _ t h
    exact ⟨hsvn, hwrites⟩

/-! ## What flags, events and messages leave as it was -/

@[simp] theorem sendMsix_flash (p : Port) (v : Nat) (s : State) : (sendMsix p v s).flash = s.flash := by
  unfold sendMsix
  split
  · rfl
  · split <;> simp

@[simp] theorem sendMsix_mod (p : Port) (v : Nat) (s : State) : (sendMsix p v s).mod = s.mod := by
  unfold sendMsix
  split
  · rfl
  · split <;> simp

@[simp] theorem sendMsix_mailbox (p : Port) (v : Nat) (s : State) :
    (portOf p (sendMsix p v s)).mailbox = (portOf p s).mailbox := by
  unfold sendMsix
  split
  · rfl
  · split
    · simp
    · cases p <;> rfl

@[simp] theorem flagMessage_flash (p : Port) (i : Nat) (s : State) : (flagMessage p i s).flash = s.flash := by
  unfold flagMessage
  split <;> simp

@[simp] theorem flagMessage_mod (p : Port) (i : Nat) (s : State) : (flagMessage p i s).mod = s.mod := by
  unfold flagMessage
  split <;> simp

@[simp] theorem raiseDev_flash (i : Nat) (s : State) : (raiseDev i s).flash = s.flash := by
  unfold raiseDev
  split <;> simp

@[simp] theorem raiseDev_mod (i : Nat) (s : State) : (raiseDev i s).mod = s.mod := by
  unfold raiseDev
  split <;> simp

@[simp] theorem fwEvents_flash (fallback bad run : Bool) (s : State) : (fwEvents fallback bad run s).flash = s.flash := by
  cases fallback <;> cases bad <;> simp [fwEvents]

@[simp] theorem fwEvents_mod (fallback bad run : Bool) (s : State) : (fwEvents fallback bad run s).mod = s.mod := by
  cases fallback <;> cases bad <;> simp [fwEvents]

/-! ## FW_CONFIRM ends (R419) -/

/-- The running slot is TRY and the module is ready. -/
def MayConfirm (s : State) : Prop := s.mod.ready = true ∧ s.flash.tryB = some s.mod.fwRunningB

theorem endFwConfirm_allowed {s : State} (h : MayConfirm s) :
    (endFwConfirm s).1.1 = mbxOk ∧ (endFwConfirm s).2.flash.activeB = s.mod.fwRunningB ∧ (endFwConfirm s).2.flash.tryB = none ∧
      (endFwConfirm s).2.flash.minSvn.toNat = max s.flash.minSvn.toNat (fwSlot s.mod.fwRunningB s).svn.toNat := by
  obtain ⟨hready, htry⟩ := h
  have hlt : max s.flash.minSvn.toNat (fwSlot s.mod.fwRunningB s).svn.toNat < 2 ^ 16 :=
    Nat.max_lt.2 ⟨s.flash.minSvn.isLt, (fwSlot s.mod.fwRunningB s).svn.isLt⟩
  have hcond : (s.mod.ready && s.flash.tryB == some s.mod.fwRunningB) = true := by simp [hready, htry]
  rw [endFwConfirm, if_pos hcond]
  exact ⟨rfl, rfl, rfl, (BitVec.toNat_ofNat _ _).trans (Nat.mod_eq_of_lt hlt)⟩

theorem endFwConfirm_refused {s : State} (h : ¬ MayConfirm s) : endFwConfirm s = ((mbxNotAllowed, []), s) := by
  have hcond : ¬ (s.mod.ready && s.flash.tryB == some s.mod.fwRunningB) = true := by
    rwa [Bool.and_eq_true, beq_iff_eq]
  rw [endFwConfirm, if_neg hcond]

/-- The end of a command shows its result in the mailbox and leaves flash as the command's own end has it. -/
theorem mailboxEnd_busy {p : Port} {s : State} {op : BitVec 8} {len : Nat} {tag : W32} {req : List Byte}
    (hlatched : (portOf p s).mailbox.latched = some (op, len, tag, req)) (hbusy : (portOf p s).mailbox.busy = true) :
    let r := endCommand p op req (portOf p s).mailbox.outcome s
    (portOf p (mailboxEnd p s)).mailbox.result = BitVec.ofNat 8 r.1.1 ∧ (mailboxEnd p s).flash = r.2.flash := by
  simp only [mailboxEnd, hlatched, hbusy]
  simp only [Bool.not_true, Bool.false_eq_true, if_false]
  split <;> simp

theorem endCommand_fwConfirm (p : Port) (req : List Byte) (s : State) :
    endCommand p 0x05 req none s = endFwConfirm (modMod (fun m => { m with fwBusyPort := none }) s) := rfl

theorem mailboxEnd_fwConfirm {p : Port} {s : State} {len : Nat} {tag : W32} {req : List Byte}
    (hlatched : (portOf p s).mailbox.latched = some (0x05, len, tag, req)) (hbusy : (portOf p s).mailbox.busy = true)
    (hout : (portOf p s).mailbox.outcome = none) :
    let t := mailboxEnd p s
    ((portOf p t).mailbox.result = 0 ↔ MayConfirm s) ∧ (¬ MayConfirm s → t.flash = s.flash) ∧
      (MayConfirm s → t.flash.activeB = s.mod.fwRunningB ∧ t.flash.tryB = none ∧
        t.flash.minSvn.toNat = max s.flash.minSvn.toNat (fwSlot s.mod.fwRunningB s).svn.toNat) := by
  obtain ⟨hresult, hflash⟩ := mailboxEnd_busy hlatched hbusy
  rw [hout, endCommand_fwConfirm] at hresult hflash
  intro t
  rw [hresult, hflash]
  by_cases h : MayConfirm s
  · obtain ⟨hok, hconfirmed⟩ := endFwConfirm_allowed (s := modMod (fun m => { m with fwBusyPort := none }) s) h
    rw [hok]
    exact ⟨iff_of_true rfl h, fun hn => absurd h hn, fun _ => hconfirmed⟩
  · rw [endFwConfirm_refused (s := modMod (fun m => { m with fwBusyPort := none }) s) h]
    exact ⟨iff_of_false (show ¬ BitVec.ofNat 8 mbxNotAllowed = 0 by decide) h, fun _ => rfl, fun hy => absurd hy h⟩

/-! ## The image that stage 1 starts (R418) -/

/-- Whether an image is good rests on flash alone. -/
theorem fwGood_congr {s t : State} (b : Bool) (h : t.flash = s.flash) : fwGood b t = fwGood b s := by
  unfold fwGood fwSlot
  rw [h]

/-- The firmware chosen runs from a slot that holds a good image: the candidate's, or else the other one. -/
theorem chooseFirmware_good {s t : State} (h : chooseFirmware s = some t) : fwGood t.mod.fwRunningB t = true := by
  unfold chooseFirmware at h
  extract_lets c u run at h
  have hgood : ∀ r, run = some r → fwGood r.1 u = true := by
    intro r hr
    by_cases hfirst : fwGood c.1 u = true
    · obtain rfl : (c.1, false) = r := Option.some.inj ((if_pos hfirst).symm.trans hr)
      exact hfirst
    · obtain ⟨hother, hr'⟩ := Option.ite_none_right_eq_some.1 ((if_neg hfirst).symm.trans hr)
      obtain rfl : (!c.1, true) = r := Option.some.inj hr'
      exact hother
  obtain ⟨r, hr, rfl⟩ := Option.map_eq_some_iff.1 h
  simpa [fwGood_congr (s := u), modMod] using hgood r hr

theorem goOffline_stage (failCause : Nat) (recoverable : Bool) (s : State) : (goOffline failCause recoverable s).mod.stage = 8 := rfl

theorem goOffline_not_stage_two (failCause : Nat) (recoverable : Bool) (s : State) :
    ¬ (goOffline failCause recoverable s).mod.stage = 2 := by
  rw [goOffline_stage]
  decide

/-- STAGE_FIRMWARE passes stage 1 only with a good image running: every other outcome of it is offline. -/
theorem stageFirmware_good {s : State} (hstage : s.mod.stage = 1) :
    Completes .stageFirmware s fun t => t.mod.stage = 2 → fwGood t.mod.fwRunningB t = true := by
  refine ⟨_, rfl, ?_⟩
  have hat : ¬ (s.mod.stage != 1) = true := by simp [hstage]
  rw [if_neg hat]
  split
  · exact fun h => absurd h (goOffline_not_stage_two _ _ _)
  split
  case h_1 => exact fun h => absurd h (goOffline_not_stage_two _ _ _)
  case h_2 t ht =>
    have hgood : fwGood t.mod.fwRunningB t = true := chooseFirmware_good ht
    split
    · exact fun h => absurd h (goOffline_not_stage_two _ _ _)
    · exact fun _ => hgood

/-- Settles O54: FW_CONFIRM ends as R419 says, a step takes nothing from the floor since every command is steady, and stage 1 is passed
with a good image alone. -/
theorem firmwareFloorHolds : Obligations.FirmwareFloorHolds := by
  refine ⟨fun p s len tag req hlatched hbusy hout => ⟨_, rfl, mailboxEnd_fwConfirm hlatched hbusy hout⟩,
    fun s t => step_flash_le, fun s hstage => ?_⟩
  obtain ⟨t, hexec, hgood⟩ := stageFirmware_good hstage
  refine ⟨t, hexec, fun h => ?_⟩
  simpa only [fwGood, Bool.and_eq_true, decide_eq_true_eq] using hgood h

end Sys2Proof.Machine
end

section
/-!
Every step (Machine/Step.lean, Safety.lean): which commands answer a next state, what an idle step changes, and that a safe state steps
to a safe one.
-/

namespace Sys2Proof.Machine

/-! ## Which commands answer a next state -/

/-- An outcome is a next state where a term is well-formed, and the fault of an ill-formed one where it is not. -/
def RunsWhen (o : Out) (wellFormed : Bool) : Prop :=
  (wellFormed = true → ∃ t, o = .next t) ∧ (wellFormed = false → o = .fault .illFormed)

/-- A lesson instruction answers a next state whether it issues, is held or may not issue, once its word is of its row. -/
theorem instr_runsWhen {p : Place} {w : Word} {major func : Nat} {body : State → State} {s : State} :
    RunsWhen (instr p w major func body s) (wordIs w major func && true) := by
  rw [Bool.and_true]
  refine ⟨fun h => ?_, fun h => ?_⟩
  · unfold instr
    rw [h, Bool.not_true, if_neg Bool.false_ne_true]
    split <;> exact ⟨_, rfl⟩
  · rw [instr, h, Bool.not_false, if_pos rfl]

theorem next_runsWhen {t : State} : RunsWhen (.next t) (true && true) := ⟨fun _ => ⟨t, rfl⟩, (nomatch ·)⟩

theorem execUndefinedOpcode_runsWhen (opcode : BitVec 8) (d : Desc) (s : State) :
    RunsWhen (execUndefinedOpcode opcode d s) (true && !opcodeDefined opcode) := by
  unfold execUndefinedOpcode
  cases opcodeDefined opcode
  · exact next_runsWhen
  · exact ⟨(nomatch ·), fun _ => rfl⟩

theorem execSetstreamReseedDone_runsWhen (c : Fin 192) (s : State) : RunsWhen (execSetstreamReseedDone c s) (true && true) := by
  unfold execSetstreamReseedDone
  split <;> exact next_runsWhen

/-- A lesson instruction is `instr` of its row, UNDEFINED_OPCODE looks its opcode up, and every other command answers a next state. -/
theorem exec_runsWhen (i : Instr) (s : State) : RunsWhen (exec i s) i.wellFormed := by
  cases i with
  | saluAdd _ _ | saluSub _ _ | saluMul _ _ | saluMulhu _ _ | saluDivu _ _ | saluRemu _ _ | saluAnd _ _ | saluOr _ _
  | saluXor _ _ | saluShl _ _ | saluShr _ _ | saluSra _ _ | saluMin _ _ | saluMax _ _ | saluMinu _ _ | saluMaxu _ _ | scmpEq _ _
  | scmpNe _ _ | scmpLt _ _ | scmpLtu _ _ | scmpGe _ _ | scmpGeu _ _ | li _ _ | lih _ _ | beqz _ _ | bnez _ _ | bltz _ _
  | bgez _ _ | btok _ _ | nop _ _ | jmp _ _ | jr _ _ | amov _ _ | aadd _ _ | aadds _ _ | ard _ _ | rdtime _ _ | rdflag _ _
  | rdcyc _ _ | dld _ _ | dst _ _ | gather _ _ | scatter _ _ | sadd _ _ | smin _ _ | smax _ _ | fill _ _ | stream _ _ | drain _ _
  | vopAdd _ _ | vopSub _ _ | vopMul _ _ | fma _ _ | vopMax _ _ | vopMin _ _ | abs _ _ | neg _ _ | div _ _ | rcp _ _ | sqrt _ _
  | rsqrt _ _ | exp _ _ | exp2 _ _ | log _ _ | log2 _ _ | tanh _ _ | cvt _ _ | cmp _ _ | sel _ _ | iadd _ _ | isub _ _ | imul _ _
  | imax _ _ | imin _ _ | vopAnd _ _ | vopOr _ _ | vopXor _ _ | vopShl _ _ | vopShr _ _ | vopSra _ _ | iota _ _ | mand _ _
  | mor _ _ | mxor _ _ | mnot _ _ | reduce _ _ | smxInit _ _ | smxStep _ _ | smxNorm _ _ | tile _ _ | load _ _ | store _ _
  | pop _ _ | route _ _ | predict _ _ | confirm _ _ | syncWait _ _ | xpost _ _ | send _ _ | expect _ _ | fold _ _ | deliver _ _
  | scrub _ _ | move _ _ | exportRec _ _ | catchup _ _ => exact instr_runsWhen
  | call x w => exact (instr_runsWhen : RunsWhen (execCall x w s) _)
  | halt x w => exact (instr_runsWhen : RunsWhen (execHalt x w s) _)
  | rdid x w => exact (instr_runsWhen : RunsWhen (execRdid x w s) _)
  | clrflag x w y => exact (instr_runsWhen : RunsWhen (execClrflag x w y s) _)
  | setstream x w => exact (instr_runsWhen : RunsWhen (execSetstream x w s) _)
  | sld x w => exact (instr_runsWhen : RunsWhen (execSld x w s) _)
  | sst x w => exact (instr_runsWhen : RunsWhen (execSst x w s) _)
  | swap x w => exact (instr_runsWhen : RunsWhen (execSwap x w s) _)
  | bcast x w => exact (instr_runsWhen : RunsWhen (execBcast x w s) _)
  | rot x w => exact (instr_runsWhen : RunsWhen (execRot x w s) _)
  | rand x w => exact (instr_runsWhen : RunsWhen (execRand x w s) _)
  | squash x w => exact (instr_runsWhen : RunsWhen (execSquash x w s) _)
  | signal x w => exact (instr_runsWhen : RunsWhen (execSignal x w s) _)
  | waitev x w => exact (instr_runsWhen : RunsWhen (execWaitev x w s) _)
  | bar x w => exact (instr_runsWhen : RunsWhen (execBar x w s) _)
  | statTag x w => exact (instr_runsWhen : RunsWhen (execStatTag x w s) _)
  | statRead x w => exact (instr_runsWhen : RunsWhen (execStatRead x w s) _)
  | slot x w => exact (instr_runsWhen : RunsWhen (execSlot x w s) _)
  | undefinedOpcode opcode d => exact execUndefinedOpcode_runsWhen opcode d s
  | setstreamReseedDone c => exact execSetstreamReseedDone_runsWhen c s
  | _ => exact next_runsWhen

/-- Settles O57: which commands answer a next state is `exec_runsWhen`, and a command that does is steady. -/
theorem wellFormedCommandsRun : Obligations.WellFormedCommandsRun := by
  intro c s
  obtain ⟨hruns, hfault⟩ := exec_runsWhen c s
  refine ⟨fun h => ?_, hfault⟩
  obtain ⟨t, ht⟩ := hruns h
  exact ⟨t, ht, (exec_steady c s t ht).1⟩

/-! ## A step -/

/-- Settles O55: `step` on a queue that is not empty is `exec` of its front. -/
theorem stepRunsTheFrontCommand : Obligations.StepRunsTheFrontCommand := by
  intro c cs s h
  rw [step, h]

theorem step_idle {s : State} (h : s.pending = []) : step s = .next (tick s) := by
  rw [step, h]

/-- A safe state's step: a cycle of TCLK touches neither queue nor memories, and the front command is well-formed, so it answers a next
state, and steady. -/
theorem safe_step {s : State} (h : Safe s) : ∃ t, step s = .next t ∧ Safe t := by
  obtain ⟨hmem, hqueue⟩ := h
  cases hp : s.pending with
  | nil =>
    obtain ⟨hpending, -, -, hcanon⟩ := tick_steady s
    refine ⟨tick s, step_idle hp, hcanon hmem, ?_⟩
    rw [QueueWellFormed, hpending]
    exact hqueue
  | cons c cs =>
    rw [QueueWellFormed, hp] at hqueue
    obtain ⟨t, ht, hpending⟩ := (wellFormedCommandsRun c { s with pending := cs }).1 (hqueue c List.mem_cons_self)
    obtain ⟨-, -, -, hcanon⟩ := exec_steady _ _ t ht
    refine ⟨t, (stepRunsTheFrontCommand c cs s hp).trans ht, hcanon hmem, ?_⟩
    rw [QueueWellFormed, hpending]
    exact fun x hx => hqueue x (List.mem_cons_of_mem _ hx)

/-- Settles O59, as `safe_step` says. -/
theorem safeStatesStayAndRun : Obligations.SafeStatesStayAndRun := fun _ => safe_step

/-- Settles O58: each field of `State.reset` has the value named. -/
theorem resetIsSafe : Obligations.ResetIsSafe := by
  refine ⟨⟨⟨rfl, rfl, rfl⟩, fun _ h => nomatch h⟩, rfl, rfl, rfl, rfl, rfl, fun _ => rfl, rfl, rfl, rfl, fun p => ?_⟩
  cases p <;> exact ⟨rfl, rfl⟩

/-! ## A cycle of TCLK (R12) -/

theorem tickTime_before_lock {x : TimeSt} (h : x.firstLock = false) : (tickTime x).dtime = x.dtime := by
  simp [tickTime, h]

theorem tickTime_unslewed {x : TimeSt} (h : x.firstLock = true) (hs : x.slewing = false) : (tickTime x).dtime = x.dtime + 4 := by
  simp [tickTime, h, hs]

theorem tickTime_slewing {x : TimeSt} (h : x.firstLock = true) (hs : x.slewing = true) :
    (tickTime x).dtime = (slewTick x).dtime ∧ (tickTime x).slewLeft = (slewTick x).slewLeft := by
  simp [tickTime, h, hs]

theorem slewTick_between {x : TimeSt} (h : x.slewPhase + 1 < 20000) :
    (slewTick x).dtime = x.dtime + 4 ∧ (slewTick x).slewLeft = x.slewLeft := by
  rw [slewTick, if_pos (show x.slewPhase + 1 < slewCycles from h)]
  exact ⟨rfl, rfl⟩

theorem slewTick_due {x : TimeSt} (h : 20000 ≤ x.slewPhase + 1) :
    (slewTick x).dtime = x.dtime + (if 0 < x.slewLeft then 8 else 0) ∧ (slewTick x).slewLeft = slewAfter x.slewLeft := by
  rw [slewTick, if_neg (show ¬ x.slewPhase + 1 < slewCycles from Nat.not_lt.2 h)]
  exact ⟨rfl, rfl⟩

theorem slewAfter_of_le {x : Int} (h : 4 ≤ x) : slewAfter x = x - 4 := if_pos h

theorem slewAfter_of_ge {x : Int} (h : x ≤ -4) : slewAfter x = x + 4 := by
  rw [slewAfter, if_neg (by omega), if_pos h]

/-- A cycle adds 0, 4 or 8 ns to DTIME. -/
theorem tickTime_dtime_cases (x : TimeSt) :
    (tickTime x).dtime = x.dtime ∨ (tickTime x).dtime = x.dtime + 4 ∨ (tickTime x).dtime = x.dtime + 8 := by
  cases h : x.firstLock
  · exact .inl (tickTime_before_lock h)
  cases hs : x.slewing
  · exact .inr (.inl (tickTime_unslewed h hs))
  rw [(tickTime_slewing h hs).1]
  rcases Nat.lt_or_ge (x.slewPhase + 1) 20000 with hp | hp
  · exact .inr (.inl (slewTick_between hp).1)
  · rw [(slewTick_due hp).1]
    split
    · exact .inr (.inr rfl)
    · exact .inl (BitVec.add_zero _)

theorem tickTime_dtime_le {x : TimeSt} (h : x.dtime.toNat + 8 < 2 ^ 64) : x.dtime.toNat ≤ (tickTime x).dtime.toNat := by
  rcases tickTime_dtime_cases x with e | e | e <;> rw [e]
  all_goals bv_omega

/-- Settles O56: an idle step is `tick`, which changes time alone, by `tickTime`. -/
theorem idleStepIsACycle : Obligations.IdleStepIsACycle := by
  intro s hp
  refine ⟨tick s, step_idle hp, rfl, rfl, tickTime_before_lock, tickTime_unslewed, fun h hs => ?_, tickTime_dtime_le⟩
  obtain ⟨hdtime, hleft⟩ := tickTime_slewing h hs
  refine ⟨fun hc => ?_, fun hc => ?_⟩
  · obtain ⟨h1, h2⟩ := slewTick_between hc
    exact ⟨hdtime.trans h1, hleft.trans h2⟩
  · obtain ⟨h1, h2⟩ := slewTick_due hc
    exact ⟨hdtime.trans h1, fun h => (hleft.trans h2).trans (slewAfter_of_le h), fun h => (hleft.trans h2).trans (slewAfter_of_ge h)⟩

end Sys2Proof.Machine
end

section
/-!
Scalar instructions (Machine/Scalar.lean, chapter 06): the operations of SALU and SCMP as the tables word them, going on and branching,
special registers and local scratch.
-/

namespace Sys2Proof.Machine

/-! ## An instruction that writes one register -/

/-- A change of a place's scalar state leaves what stands beside it in every core. -/
theorem besideSeq_modSeq (p : Place) (f : Seq → Seq) (s : State) (d : Nat) :
    besideSeq (coreOf d (modSeq p f s)) = besideSeq (coreOf d s) := by
  cases p with
  | core c =>
    by_cases e : d = c.val
    · subst e; rw [coreOf_modSeq_core]; rfl
    · rw [coreOf_modSeq_other _ _ _ _ (fun c' h => by cases h; exact e)]
  | link l => rfl
  | mem m => rfl

/-- An instruction whose body writes a scalar register from the place's scalar state. -/
theorem completes_setS {p : Place} {d : Nat} {s : State} {i : Instr} {v : Word} (g : Seq → Word) (hn : NextInside p s)
    (hexec : exec i s = .next (stepSeq p (fun q => setS d (g q) q) s)) (hv : g (seqOf p s) = v) : Completes i s (WritesS p d v s) :=
  ⟨_, hexec, hv ▸ stepSeq_cases p (fun q => setS d (g q) q) s (fun _ => rfl) (fun _ => rfl) hn⟩

/-- An instruction whose body writes an address register from the place's scalar state. -/
theorem completes_setA {p : Place} {d : Nat} {s : State} {i : Instr} (g : Seq → Nat) (hn : NextInside p s)
    (hexec : exec i s = .next (stepSeq p (fun q => setA d (g q) q) s)) : Completes i s (WritesA p d (g (seqOf p s)) s) :=
  ⟨_, hexec, stepSeq_cases p (fun q => setA d (g q) q) s (fun _ => rfl) (fun _ => rfl) hn⟩

/-! ## SALU and SCMP (Table 06-4, R143) -/

theorem operandB_eq (w : Word) (q : Seq) : operandB w q = if fld w 27 1 = 1 then sfld w 28 36 else sreg q (fld w 22 5) := by
  simp only [operandB, beq_iff_eq]

/-- A scalar operation that issues writes its result, stated by the table's words `v`. -/
theorem completes_scalarOp {p : Place} {w : Word} {s : State} {i : Instr} {f : Word → Word → Word} {v : Word} (hn : NextInside p s)
    (hexec : exec i s = .next (scalarOp p w f s))
    (hv : f (sreg (seqOf p s) (fld w 17 5)) (if fld w 27 1 = 1 then sfld w 28 36 else sreg (seqOf p s) (fld w 22 5)) = v) :
    Completes i s (WritesS p (fld w 12 5) v s) :=
  completes_setS (fun q => f (sreg q (fld w 17 5)) (operandB w q)) hn hexec (by rw [operandB_eq]; exact hv)

theorem divu_eq (a b : Word) : divu a b = if b = 0 then BitVec.allOnes 64 else a / b := by
  rw [divu, ← BitVec.udiv_def]
  simp only [beq_iff_eq]

theorem remu_eq (a b : Word) : remu a b = if b = 0 then a else a % b := by
  rw [remu, ← BitVec.umod_def]
  simp only [beq_iff_eq]

theorem slt_eq_decide (a b : Word) : a.slt b = decide (a.toInt < b.toInt) := rfl

theorem ult_eq_decide (a b : Word) : a.ult b = decide (a.toNat < b.toNat) := rfl

theorem truth_ite (c : Prop) [Decidable c] : truth (decide c) = if c then 1 else 0 := by simp only [truth, decide_eq_true_eq]

theorem truth_not_ite (c : Prop) [Decidable c] : truth (!decide c) = if c then 0 else 1 := by
  by_cases h : c <;> simp [truth, h]

theorem truth_beq (a b : Word) : truth (a == b) = if a = b then 1 else 0 := by simp only [truth, beq_iff_eq]

theorem truth_bne (a b : Word) : truth (a != b) = if a = b then 0 else 1 := by
  rw [← truth_not_ite, bne, ← beq_eq_decide]

/-- Settles O1: each row is a scalar operation, whose result the lemmas above bring to the table's words. -/
theorem scalarArithmeticWritesResult : Obligations.ScalarArithmeticWritesResult := by
  intro p w s hn a b
  simp only [List.forall_mem_cons]
  refine ⟨fun hi => ?add, fun hi => ?sub, fun hi => ?mul, fun hi => ?mulhu, fun hi => ?divu, fun hi => ?remu, fun hi => ?and,
    fun hi => ?or, fun hi => ?xor, fun hi => ?shl, fun hi => ?shr, fun hi => ?sra, fun hi => ?min, fun hi => ?max, fun hi => ?minu,
    fun hi => ?maxu, fun hi => ?eq, fun hi => ?ne, fun hi => ?lt, fun hi => ?ltu, fun hi => ?ge, fun hi => ?geu, List.forall_mem_nil _⟩
  case add | sub | mul | mulhu | and | or | xor | shl | shr | sra => exact completes_scalarOp hn (instr_issues _ hi) rfl
  case divu => exact completes_scalarOp hn (instr_issues _ hi) (divu_eq a b)
  case remu => exact completes_scalarOp hn (instr_issues _ hi) (remu_eq a b)
  case min | max | minu | maxu =>
    exact completes_scalarOp hn (instr_issues _ hi) (by simp only [slt_eq_decide, ult_eq_decide, decide_eq_true_eq]; rfl)
  case eq => exact completes_scalarOp hn (instr_issues _ hi) (truth_beq a b)
  case ne => exact completes_scalarOp hn (instr_issues _ hi) (truth_bne a b)
  case lt | ltu => exact completes_scalarOp hn (instr_issues _ hi) (truth_ite _)
  case ge =>
    refine completes_scalarOp hn (instr_issues _ hi) ((truth_not_ite (a.toInt < b.toInt)).trans ?_)
    simp only [← not_le, ite_not]
  case geu =>
    refine completes_scalarOp hn (instr_issues _ hi) ((truth_not_ite (a.toNat < b.toNat)).trans ?_)
    simp only [← not_le, ite_not]

/-! ## Immediates, addresses and time -/

/-- An instruction that goes to a word inside the code. -/
theorem completes_goTo {p : Place} {n : Nat} {s : State} {i : Instr} (hn : TargetInside p n s) (hexec : exec i s = .next (goTo p n s)) :
    Completes i s (GoesTo p n s) := by
  obtain ⟨hout, hothers, hseq, hbeside, -⟩ := goTo_cases p n s hn
  exact ⟨_, hexec, ⟨hout, hothers, fun d => hbeside d⟩, hseq⟩

/-- Settles O2: each instruction writes one register by a function of its place's scalar state, and NOP only goes on. -/
theorem immediateAddressAndTimeInstructions : Obligations.ImmediateAddressAndTimeInstructions := by
  intro p w s hn q sd
  refine ⟨fun hi => ?li, fun hi => ?lih, fun hi => ?ard, fun hi => ?rdtime, fun hi => ?rdcyc, fun hi => ?amov, fun hi => ?aadd,
    fun hi => ?aadds, fun hi => completes_goTo hn (instr_issues _ hi)⟩
  case li => exact completes_setS (fun _ => sfld w 18 46) hn (instr_issues _ hi) rfl
  case lih =>
    exact completes_setS (fun q => BitVec.ofNat 64 ((sreg q (fld w 12 5)).toNat % 2 ^ 46 + fld w 18 18 * 2 ^ 46)) hn (instr_issues _ hi) rfl
  case ard => exact completes_setS (fun q => BitVec.ofNat 64 (areg q (fld w 16 4))) hn (instr_issues _ hi) rfl
  case rdtime => exact completes_setS (fun _ => now s) hn (instr_issues _ hi) rfl
  case rdcyc =>
    exact completes_setS (fun q => BitVec.ofNat 64 (placeCycles p (s.time.ticks - q.startTick))) hn (instr_issues _ hi) rfl
  case amov => exact completes_setA (fun q => (sreg q (fld w 20 5)).toNat) hn (instr_issues _ hi)
  case aadd => exact completes_setA (fun q => areg q (fld w 16 4) + (sfld w 32 32).toNat) hn (instr_issues _ hi)
  case aadds =>
    exact completes_setA (fun q => areg q (fld w 16 4) + (sreg q (fld w 20 5)).toNat * 2 ^ fld w 25 3) hn (instr_issues _ hi)

/-! ## Branches and jumps (R139, R143) -/

/-- A branch to a word that an offset reaches goes there. -/
theorem branchTo_eq {p : Place} {off : Word} {s : State} {n : Nat} (h : offsetTarget p off s = n) : branchTo p off s = goTo p n s := by
  unfold offsetTarget at h
  rw [branchTo, if_neg (by omega), h, Int.toNat_natCast]

/-- A conditional branch goes to its target when it is taken and on when it is not. -/
theorem completes_branchIf {p : Place} {w : Word} {s : State} {n : Nat} {i : Instr} {taken : Bool}
    (h : offsetTarget p (sfld w 32 32) s = n) (hn : TargetInside p n s) (hexec : exec i s = .next (branchIf p w taken s)) :
    (taken = true → Completes i s (GoesTo p n s)) ∧
      (taken = false → NextInside p s → Completes i s (GoesTo p ((seqOf p s).pc + 1) s)) := by
  refine ⟨?_, ?_⟩
  · rintro rfl
    exact completes_goTo hn (hexec.trans (congrArg Host.Outcome.next (branchTo_eq h)))
  · rintro rfl hnext
    exact completes_goTo hnext hexec

theorem beq_zero_eq_decide (x : Word) : (x == 0) = decide (x = 0) := beq_eq_decide _ _

theorem bne_zero_eq_decide (x : Word) : (x != 0) = decide (x ≠ 0) := by rw [bne, beq_zero_eq_decide, ← decide_not]

theorem msb_eq_decide (x : Word) : x.msb = decide (x.toInt < 0) := by
  rw [BitVec.msb_eq_toInt]

theorem not_msb_eq_decide (x : Word) : (!x.msb) = decide (0 ≤ x.toInt) := by
  rw [msb_eq_decide, ← decide_not]
  simp only [not_lt]

theorem tokReady_eq_getD (q : Seq) (n : Nat) : tokReady q (tokField n) = q.tok.toList.getD n true := by
  unfold tokField
  split
  case isTrue h => simp [tokReady, h]
  case isFalse h => simp [tokReady, h]

/-- What a change of a place's scalar state and then going to a word inside the code do. -/
theorem goTo_modSeq_cases (p : Place) (f : Seq → Seq) (s : State) (n : Nat) (hcode : ∀ q, (f q).code = q.code) (h : TargetInside p n s) :
    OnlyPlace p s (goTo p n (modSeq p f s)) ∧ seqOf p (goTo p n (modSeq p f s)) = { f (seqOf p s) with pc := n, stall := none } := by
  have hn : TargetInside p n (modSeq p f s) := by
    cases p with
    | core c =>
      show n < (coreOf c (modSeq (.core c) f s)).seq.code.length
      rw [coreOf_modSeq_core]
      exact (hcode _).symm ▸ h
    | link l => trivial
    | mem m => trivial
  obtain ⟨hout, hothers, hseq, hbeside, -⟩ := goTo_cases p n _ hn
  refine ⟨⟨hout.trans (outsidePlaces_modSeq _ _ _), fun q hq => (hothers q hq).trans (seqOf_modSeq_other _ _ _ _ hq), fun d => ?_⟩, ?_⟩
  · exact (hbeside d).trans (besideSeq_modSeq p f s d)
  · rw [hseq, seqOf_modSeq]

/-- The scalar state in which CALL has written where to come back to. -/
def withReturn (w : Word) (q : Seq) : Seq := setS (fld w 12 5) (BitVec.ofNat 64 (q.pc + 1)) q

/-- CALL writes its register where it stands and then goes to its target. -/
theorem completes_call {p : Place} {w : Word} {s : State} {n : Nat} (h : offsetTarget p (sfld w 32 32) s = n) (hn : TargetInside p n s)
    (hi : Issues p w 0x05 0x02 s) : Completes (.call p w) s fun t => OnlyPlace p s t ∧
      seqOf p t = { withReturn w (seqOf p s) with pc := n, stall := none } := by
  have htarget : offsetTarget p (sfld w 32 32) (modSeq p (withReturn w) s) = n := by rwa [offsetTarget, seqOf_modSeq]
  have hexec : execCall p w s = .next (branchTo p (sfld w 32 32) (modSeq p (withReturn w) s)) := instr_issues _ hi
  exact ⟨_, hexec.trans (congrArg Host.Outcome.next (branchTo_eq htarget)), goTo_modSeq_cases p _ s n (fun _ => rfl) hn⟩

/-- Settles O3: a branch that is taken, JMP, CALL and JR go to a word inside the code, and a branch that is not goes on. -/
theorem branchesAndJumpsReachTheirTarget : Obligations.BranchesAndJumpsReachTheirTarget := by
  intro p w s n h hn q a
  refine ⟨?branches, fun hi => ?jmp, fun hi => completes_call h hn hi, fun hi hr => completes_goTo hr (instr_issues _ hi)⟩
  case branches =>
    simp only [List.forall_mem_cons, ← beq_zero_eq_decide, ← bne_zero_eq_decide, ← msb_eq_decide, ← not_msb_eq_decide, ← tokReady_eq_getD]
    refine ⟨fun hi => ?_, fun hi => ?_, fun hi => ?_, fun hi => ?_, fun hi => ?_, List.forall_mem_nil _⟩
    all_goals exact completes_branchIf h hn (instr_issues _ hi)
  case jmp => exact completes_goTo hn ((instr_issues _ hi).trans (congrArg Host.Outcome.next (branchTo_eq h)))

/-! ## Special registers (R143, R144) -/

/-- What stands beside a core's scalar state holds what stands beside its vector state. -/
theorem besideVec_of_besideSeq {k j : Core} (h : besideSeq k = besideSeq j) : besideVec k = besideVec j :=
  congrArg (fun x : Core => { x with vec := {} }) h

theorem completes_rdid_core {c : Fin 192} {w : Word} {s : State} {v : Word} (hn : NextInside (.core c) s)
    (hi : Issues (.core c) w 0x07 0x01 s) (hv : rdidCore c (fld w 17 3) s = some v) :
    Completes (.rdid (.core c) w) s (WritesS (.core c) (fld w 12 5) v s) := by
  refine completes_setS (fun _ => v) hn (Eq.trans (b := execRdid (.core c) w s) rfl ?_) rfl
  rw [execRdid, instr_issues _ hi]
  simp only [hv]

theorem completes_rdid_place {p : Place} {w : Word} {s : State} {v : Word} (hp : ∀ c, p ≠ .core c) (hi : Issues p w 0x07 0x01 s)
    (hv : (fld w 17 3 = 0 ∨ fld w 17 3 = 4) ∧ v = 0 ∨ fld w 17 3 = 3 ∧ v = BitVec.allOnes 64) :
    Completes (.rdid p w) s (WritesS p (fld w 12 5) v s) := by
  have hn : NextInside p s := by
    cases p with
    | core c => exact absurd rfl (hp c)
    | link l => trivial
    | mem m => trivial
  refine completes_setS (fun _ => v) hn (Eq.trans (b := execRdid p w s) rfl ?_) rfl
  rw [execRdid, instr_issues _ hi]
  cases p with
  | core c => exact absurd rfl (hp c)
  | link l => rcases hv with ⟨hsel | hsel, rfl⟩ | ⟨hsel, rfl⟩ <;> simp only [hsel] <;> rfl
  | mem m => rcases hv with ⟨hsel | hsel, rfl⟩ | ⟨hsel, rfl⟩ <;> simp only [hsel] <;> rfl

theorem completes_clrflag {c : Fin 192} {w : Word} {s : State} (co : BitVec 7) (hn : NextInside (.core c) s)
    (hi : Issues (.core c) w 0x07 0x03 s) : Completes (.clrflag c w co) s fun t =>
      OnlyCore c s t ∧ (coreOf c t).seq = nextSeq (coreOf c s).seq ∧ besideVec (coreOf c t) = besideVec (coreOf c s) ∧
        (coreOf c t).vec = clearStream (BitVec.ofNat 7 (fld w 20 7)) co (coreOf c s).vec := by
  obtain ⟨honly, hseq, hbeside⟩ := advance_core_cases c
    (fun k => { k with vec := clearStream (BitVec.ofNat 7 (fld w 20 7)) co k.vec }) s (fun _ => rfl) (fun _ => rfl) hn
  have hexec : execClrflag c w co s = .next _ := instr_issues _ hi
  exact ⟨_, hexec, honly, hseq, (besideVec_of_besideSeq hbeside).trans rfl, congrArg Core.vec hbeside⟩

theorem completes_setstream {c : Fin 192} {w : Word} {s : State} (hn : NextInside (.core c) s) (hi : Issues (.core c) w 0x07 0x04 s) :
    Completes (.setstream c w) s fun t =>
      OnlyCore c s t ∧ (coreOf c t).seq = nextSeq (coreOf c s).seq ∧
        (coreOf c t).vec = { (coreOf c s).vec with stream := sreg (coreOf c s).seq (fld w 12 5) } ∧
        (coreOf c t).reseed = some (sreg (coreOf c s).seq (fld w 12 5)) := by
  obtain ⟨honly, hseq, hbeside⟩ := advance_core_cases c
    (fun k => { k with vec := { k.vec with stream := sreg (coreOf c s).seq (fld w 12 5) },
                       reseed := some (sreg (coreOf c s).seq (fld w 12 5)) }) s (fun _ => rfl) (fun _ => rfl) hn
  have hexec : execSetstream c w s = .next _ := instr_issues _ hi
  exact ⟨_, hexec, honly, hseq, congrArg Core.vec hbeside, congrArg Core.reseed hbeside⟩

/-- A change of one core changes only that core. -/
theorem onlyCore_modCore (c : Fin 192) (f : Core → Core) (s : State) : OnlyCore c s (modCore c f s) :=
  ⟨rfl, rfl, rfl, fun _ hd => coreOf_modCore_other _ _ _ _ hd⟩

theorem completes_setstreamReseedDone {c : Fin 192} {s : State} {v : Word} (h : (coreOf c s).reseed = some v) :
    Completes (.setstreamReseedDone c) s fun t => OnlyCore c s t ∧ (coreOf c t).reseed = none ∧ ∀ l : Fin 128,
      (coreOf c t).vec.gens[l] = genSeed (coreSeed c s) (BitVec.ofNat 64 l.val) v := by
  have hexec : execSetstreamReseedDone c s = .next
      (modCore c (fun k => { k with vec := { k.vec with gens := seedLanes (coreSeed c s) v }, reseed := none }) s) := by
    simp only [execSetstreamReseedDone, h]
  refine ⟨_, hexec, onlyCore_modCore _ _ _, ?_, fun l => ?_⟩
  · rw [coreOf_modCore]
  · rw [coreOf_modCore]
    exact Vector.getElem_ofFn l.isLt

/-- Settles O4: each special instruction goes on from a change of its core's registers, and the reseed gives each lane its generator. -/
theorem specialInstructionsReadAndWrite : Obligations.SpecialInstructionsReadAndWrite := by
  refine ⟨fun c w s hn => ⟨fun hi x hx hsel => ?rdid, fun hi => ?rdflag, fun hi co => ?clrflag, fun hi => completes_setstream hn hi⟩,
    fun p w s hp hi x hx hsel => ?place, fun c s v => completes_setstreamReseedDone⟩
  case rdid =>
    refine completes_rdid_core hn hi ?_
    rw [hsel]
    revert x
    simp only [List.forall_mem_cons]
    exact ⟨fun _ => rfl, fun _ => rfl, fun _ => rfl, fun _ => rfl, fun _ => rfl, List.forall_mem_nil _⟩
  case rdflag => exact completes_setS (fun _ => (coreOf c s).vec.streamFlags.setWidth 64) hn (instr_issues _ hi) rfl
  case clrflag =>
    obtain ⟨t, hexec, honly, hseq, hbeside, hvec⟩ := completes_clrflag co hn hi
    exact ⟨t, hexec, honly, hseq, hbeside, by rw [hvec]; rfl, by rw [hvec]; rfl⟩
  case place =>
    refine completes_rdid_place hp hi ?_
    rw [hsel]
    revert x
    simp only [List.forall_mem_cons]
    exact ⟨fun _ => .inl ⟨.inl trivial, trivial⟩, fun _ => .inl ⟨.inr trivial, trivial⟩, fun _ => .inr ⟨trivial, trivial⟩, List.forall_mem_nil _⟩

/-! ## Local scratch -/

theorem length_leBytes (n v : Nat) : (leBytes n v).length = n := by
  induction n generalizing v with
  | zero => rfl
  | succ n ih => rw [leBytes, List.length_cons, ih]

theorem smemAddr_some {p : Place} {w : Word} {s : State} {a n : Nat} (h : smemAddr p w s = some (a, n)) :
    a = (areg (seqOf p s) (fld w 17 4) + (sfld w 32 32).toNat) % 2 ^ 48 ∧ n = 2 ^ fld w 21 3 := by
  obtain ⟨-, heq⟩ := Option.ite_none_right_eq_some.1 h
  obtain ⟨rfl, rfl⟩ : _ ∧ _ := Prod.mk.inj (Option.some.inj heq)
  exact ⟨rfl, rfl⟩

/-- What a write to a place's scratch and the step to the next instruction do. -/
theorem advance_scratchWrite_cases (p : Place) (a : Nat) (bs : List Byte) (s : State) (hn : NextInside p s) :
    let t := advance p (scratchWrite p a bs s)
    scratchOf p t = memWrite (scratchOf p s) a bs ∧ (seqOf p t).pc = (seqOf p s).pc + 1 ∧ (seqOf p t).s = (seqOf p s).s ∧
      (seqOf p t).a = (seqOf p s).a ∧ outsidePlaces t = outsidePlaces s ∧ ∀ q : Place, q ≠ p → seqOf q t = seqOf q s := by
  intro t
  cases p with
  | core c =>
    obtain ⟨⟨hout, hlinks, hmems, hcores⟩, hseq, hbeside⟩ :=
      advance_core_cases c (fun k => { k with desk := memWrite k.desk a bs }) s (fun _ => rfl) (fun _ => rfl) hn
    refine ⟨congrArg Core.desk hbeside, ?_, ?_, ?_, hout, fun q hq => ?_⟩
    · exact congrArg Seq.pc hseq
    · exact (congrArg Seq.s hseq).trans rfl
    · exact (congrArg Seq.a hseq).trans rfl
    · cases q with
      | core d => exact congrArg Core.seq (hcores d fun e => hq (by rw [Fin.ext e]))
      | link l => exact congrArg (fun x => tgetD x l.val {}) hlinks
      | mem m => exact congrArg (fun x => tgetD x m.val {}) hmems
  | link l | mem m =>
    obtain ⟨⟨hout, hothers, -⟩, hseq⟩ :=
      stepSeq_cases _ (fun x => { x with scratch := memWrite x.scratch a bs }) s (fun _ => rfl) (fun _ => rfl) hn
    exact ⟨congrArg Seq.scratch hseq, congrArg Seq.pc hseq, (congrArg Seq.s hseq).trans rfl, (congrArg Seq.a hseq).trans rfl, hout, hothers⟩

/-- Settles O5: SLD writes a register, and SST writes scratch and goes on. -/
theorem scratchLoadAndStore : Obligations.ScratchLoadAndStore := by
  intro p w s a n hn haddr
  refine ⟨smemAddr_some haddr, fun hi => ?load, fun hi => ?store⟩
  case load =>
    refine completes_setS (fun _ => _) hn (Eq.trans (b := execSld p w s) rfl ?_) rfl
    rw [execSld, instr_issues _ hi]
    simp only [haddr]
  case store =>
    have hexec : execSst p w s = .next (advance p (scratchWrite p a (leBytes n (sreg (seqOf p s) (fld w 12 5)).toNat) s)) := by
      rw [execSst, instr_issues _ hi]
      simp only [haddr]
    obtain ⟨hscratch, hpc, hs, ha, hout, hothers⟩ :=
      advance_scratchWrite_cases p a (leBytes n (sreg (seqOf p s) (fld w 12 5)).toNat) s hn
    refine ⟨_, hexec, hscratch, fun x hx => ?_, hpc, hs, ha, hout, hothers⟩
    rw [hscratch, memGet_memWrite_other _ _ _ _ (by rwa [length_leBytes])]

end Sys2Proof.Machine
end

section
/-!
The Vector Engine again (Machine/Vector.lean, chapter 05): floating-point and mask operations, draws and conversions, reductions,
softmax and the output tile.
-/

namespace Sys2Proof.Machine

/-! ## Floating-point operations (Table 05-2) -/

/-- Settles O7: each row is a lane-wise operation that accepts the floating-point types. -/
theorem floatLaneOperations : Obligations.FloatLaneOperations := by
  intro c w s hn ht v t a b d
  simp only [List.forall_mem_cons]
  refine ⟨fun hi => ?_, fun hi => ?_, fun hi => ?_, fun hi => ?_, fun hi => ?_, fun hi => ?_, fun hi => ?_, fun hi => ?_, fun hi => ?_,
    fun hi => ?_, fun hi => ?_, fun hi => ?_, fun hi => ?_, fun hi => ?_, fun hi => ?_, List.forall_mem_nil _⟩
  all_goals exact completes_laneOp hn (instr_issues _ hi) ht fun _ => rfl

/-! ## Masks (R110, R112, R116) -/

/-- The number whose bits below `n` are those that `p` names. -/
theorem testBit_foldl_bits (p : Nat → Bool) (n : Nat) :
    ((List.range n).foldl (fun a i => if p i then a + 2 ^ i else a) 0) < 2 ^ n ∧
      ∀ i : Nat, i < n → ((List.range n).foldl (fun a i => if p i then a + 2 ^ i else a) 0).testBit i = p i := by
  induction n with
  | zero => exact ⟨Nat.one_pos, fun i h => absurd h (Nat.not_lt_zero i)⟩
  | succ n ih =>
    obtain ⟨hlt, hbit⟩ := ih
    rw [List.range_succ, List.foldl_append, List.foldl_cons, List.foldl_nil, Nat.pow_succ]
    generalize (List.range n).foldl (fun a i => if p i then a + 2 ^ i else a) 0 = x at hlt hbit ⊢
    split
    · next hp =>
      refine ⟨by omega, fun i hi => ?_⟩
      rw [Nat.add_comm]
      rcases Nat.lt_succ_iff_lt_or_eq.1 hi with h | rfl
      · rw [Nat.testBit_two_pow_add_gt h, hbit i h]
      · rw [Nat.testBit_two_pow_add_eq, Nat.testBit_lt_two_pow hlt, hp]
        rfl
    · next hp =>
      refine ⟨by omega, fun i hi => ?_⟩
      rcases Nat.lt_succ_iff_lt_or_eq.1 hi with h | rfl
      · exact hbit i h
      · rw [Nat.testBit_lt_two_pow hlt, Bool.eq_false_of_not_eq_true hp]

/-- A property of lanes as one of numbers. -/
def atLane (p : Fin 128 → Bool) (i : Nat) : Bool := if h : i < 128 then p ⟨i, h⟩ else false

theorem atLane_val (p : Fin 128 → Bool) (l : Fin 128) : atLane p l.val = p l := dif_pos l.isLt

theorem getLsbD_maskOf (p : Fin 128 → Bool) (l : Fin 128) : (maskOf p).getLsbD l = p l := by
  have hfold : lanes.foldl (fun a l => if p l then a + 2 ^ l.val else a) 0 =
      (List.range 128).foldl (fun a i => if atLane p i then a + 2 ^ i else a) 0 := by
    rw [← List.map_coe_finRange_eq_range, List.foldl_map]
    simp only [atLane_val]
    rfl
  rw [maskOf, hfold, BitVec.getLsbD_ofNat, (testBit_foldl_bits (atLane p) 128).2 l l.isLt, atLane_val, decide_eq_true l.isLt, Bool.true_and]

theorem mreg_setM (d r : Nat) (b : BitVec 128) (v : VecSt) (hd : d < 8) :
    mreg (setM d b v) r = if r = d ∧ r ≠ 0 then b else mreg v r := by
  unfold setM
  split
  · next h0 =>
    obtain rfl : d = 0 := eq_of_beq h0
    rw [if_neg (fun h => h.2 h.1)]
  · next h0 =>
    have hd0 : d ≠ 0 := fun h => h0 (by rw [h]; rfl)
    unfold mreg
    by_cases hr : r = d
    · subst hr
      rw [if_neg h0, if_pos ⟨rfl, hd0⟩]
      exact vget_vset_same _ _ _ _ hd
    · rw [if_neg (fun h : r = d ∧ r ≠ 0 => hr h.1)]
      exact congrArg (fun x => if (r == 0) = true then BitVec.allOnes 128 else x) (vget_vset_other _ _ _ _ _ hr)

theorem setM_beside (d : Nat) (b : BitVec 128) (v : VecSt) :
    { setM d b v with m := Vector.replicate 8 0 } = { v with m := Vector.replicate 8 0 } := by
  unfold setM
  split <;> rfl

/-- An instruction whose fields are in range and that writes one mask register, `r` lane by lane. -/
theorem completes_setM {c : Fin 192} {s : State} {i : Instr} {d : Nat} {b : VecSt → BitVec 128} {r : Fin 128 → Bool}
    (hn : NextInside (.core c) s) (hd : d < 8) (hexec : exec i s = .next (vecStep c true (fun v => setM d (b v) v) s))
    (hr : ∀ l : Fin 128, (b (coreOf c s).vec).getLsbD l = r l) : Completes i s (WritesMask c d r s) := by
  obtain ⟨honly, hvec⟩ := vecStep_cases c (fun v => setM d (b v) v) s hn
  refine ⟨_, hexec, honly, fun n l => ?_, ?_⟩
  · rw [hvec, mreg_setM _ _ _ _ hd, ← hr]
    split <;> rfl
  · rw [hvec, setM_beside]

/-- The conditions of CMP (R116): a NaN operand makes UN and NE hold and the others not. -/
theorem cmpHolds_iff (cond : Nat) (x y : Fp) (hc : cond ≤ 4) : cmpHolds cond x y = true ↔
    (cond = 0 ∧ ¬ (x = .nan ∨ y = .nan) ∧ ltFp x y = false ∧ ltFp y x = false) ∨
    (cond = 1 ∧ ((x = .nan ∨ y = .nan) ∨ ¬ (ltFp x y = false ∧ ltFp y x = false))) ∨
    (cond = 2 ∧ ¬ (x = .nan ∨ y = .nan) ∧ ltFp x y = true) ∨
    (cond = 3 ∧ ¬ (x = .nan ∨ y = .nan) ∧ ltFp y x = false) ∨ (cond = 4 ∧ (x = .nan ∨ y = .nan)) := by
  have hun : (x = .nan ∨ y = .nan) ↔ (x == .nan || y == .nan) = true := by simp
  rw [hun]
  unfold cmpHolds
  generalize (x == .nan || y == .nan) = un
  generalize ltFp x y = p
  generalize ltFp y x = q
  interval_cases cond <;> cases un <;> cases p <;> cases q <;> decide

/-- The mask that CMP writes: the unmasked lanes in which the condition holds. -/
def cmpMask (w : Word) (v : VecSt) : BitVec 128 :=
  maskOf fun l => (mreg v (vMask w)).getLsbD l && cmpHolds (fld w 47 4) (laneAt (vType w) v (vA w) l) (laneAt (vType w) v (vB w) l)

theorem execCmp_eq {c : Fin 192} {w : Word} {s : State} (ht : arithType (vType w) = true) (hc : fld w 47 4 ≤ 4)
    (hi : Issues (.core c) w 0x20 0x12 s) : execCmp c w s = .next (vecStep c true (fun v => setM (fld w 12 3) (cmpMask w v) v) s) := by
  rw [execCmp, instr_issues _ hi, ht, decide_eq_true hc]
  rfl

/-- A mask operation on mask registers in range writes its result. -/
theorem completes_maskOp {c : Fin 192} {w : Word} {s : State} {i : Instr} {two : Bool} {f : BitVec 128 → BitVec 128 → BitVec 128}
    {r : Fin 128 → Bool} (hn : NextInside (.core c) s) (ha : vA w < 8) (hb : two = true → vB w < 8)
    (hexec : exec i s = .next (maskOp c w two f s))
    (hr : ∀ l : Fin 128, (f (mreg (coreOf c s).vec (vA w)) (mreg (coreOf c s).vec (vB w))).getLsbD l = r l) :
    Completes i s (WritesMask c (fld w 12 3) r s) := by
  have hok : (decide (vA w < 8) && (!two || decide (vB w < 8))) = true := by
    cases two with
    | false => simp [ha]
    | true => simp [ha, hb]
  rw [maskOp, hok] at hexec
  exact completes_setM hn (fld_lt w 12 3) hexec hr

/-- Settles O9: CMP and the mask operations each write one mask register, bit by bit. -/
theorem compareAndMaskOperations : Obligations.CompareAndMaskOperations := by
  intro c w s hn v x y un le lt eq m cond
  refine ⟨fun ht hc hi => ⟨_, completes_setM hn (fld_lt w 12 3) (execCmp_eq ht hc hi) (getLsbD_maskOf _), fun l => ?cmp⟩,
    fun ha hb => ?two, fun ha hi => ?mnot⟩
  case cmp =>
    rw [Bool.and_eq_true]
    exact and_congr_right fun _ => cmpHolds_iff _ _ _ hc
  case two =>
    simp only [List.forall_mem_cons]
    refine ⟨fun hi => ?_, fun hi => ?_, fun hi => ?_, List.forall_mem_nil _⟩
    · exact completes_maskOp hn ha (fun _ => hb) (instr_issues _ hi) fun l => BitVec.getLsbD_and
    · exact completes_maskOp hn ha (fun _ => hb) (instr_issues _ hi) fun l => BitVec.getLsbD_or
    · exact completes_maskOp hn ha (fun _ => hb) (instr_issues _ hi) fun l => BitVec.getLsbD_xor
  case mnot =>
    refine completes_maskOp (two := false) hn ha (fun h => absurd h Bool.false_ne_true) (instr_issues _ hi) fun l => ?_
    rw [BitVec.getLsbD_not, decide_eq_true l.isLt, Bool.true_and]

/-! ## Instructions that draw (R113) -/

/-- Lanes written over a vector state whose generators have moved on. -/
theorem lanesWritten_applyLanes_gens (d : Nat) (mask : BitVec 128) (f : Fin 128 → LaneOut) (g : Vector Word 128) (v : VecSt) (h : d < 32) :
    LanesWritten d mask f g v (applyLanes d mask f { v with gens := g }) :=
  lanesWritten_applyLanes d mask f { v with gens := g } h

/-- A vector instruction that writes lanes and may draw. -/
theorem completes_drawnLanes {c : Fin 192} {s : State} {i : Instr} {F : VecSt → VecSt} {d : Nat} {mask : BitVec 128} {r : Fin 128 → LaneOut}
    {g : Vector Word 128} (hn : NextInside (.core c) s) (hd : d < 32) (hexec : exec i s = .next (vecStep c true F s))
    (hF : F (coreOf c s).vec = applyLanes d mask r { (coreOf c s).vec with gens := g }) :
    Completes i s (WritesLanes c d mask r g s) := by
  obtain ⟨honly, hvec⟩ := vecStep_cases c F s hn
  refine ⟨_, hexec, honly, ?_⟩
  rw [hvec, hF]
  exact lanesWritten_applyLanes_gens _ _ _ _ _ hd

theorem drawLanes_getD (k : Nat) (v : VecSt) (l : Fin 128) : (drawLanes k v).2.getD l.val 0 = laneDraw true k v l := by
  simp [drawLanes, laneDraw]

theorem roundDraws_fst (round k : Nat) (v : VecSt) : (roundDraws round k v).1 = { v with gens := drawnGens (round == 4) v } := by
  unfold roundDraws drawnGens
  split <;> rfl

theorem roundDraws_getD (round k : Nat) (v : VecSt) (l : Fin 128) :
    (roundDraws round k v).2.getD l.val 0 = laneDraw (round == 4) k v l := by
  unfold roundDraws
  split
  · next h => rw [h]; exact drawLanes_getD k v l
  · next h =>
    rw [laneDraw, if_neg h, List.getD_eq_getElem?_getD, List.getElem?_replicate, if_pos l.isLt]
    rfl

/-- The bits that a RAND takes of a draw, 24 for FP32 and 32 for INT32. -/
def randBits (t : Nat) : Nat := if t == 0x01 then 24 else 32

/-- What a RAND makes of a draw. -/
def randOut (t r : Nat) : LaneOut := (BitVec.ofNat 32 (if t == 0x01 then exactCode 0x01 (.fin false r (-24)) else r), 0)

/-- The vector state after a RAND. -/
def randVec (w : Word) (v : VecSt) : VecSt :=
  applyLanes (vD w) (mreg v (vMask w)) (fun l => randOut (vType w) ((drawLanes (randBits (vType w)) v).2.getD l 0))
    (drawLanes (randBits (vType w)) v).1

theorem execRand_eq {c : Fin 192} {w : Word} {s : State} (hreseed : (coreOf c s).reseed = none) (hi : Issues (.core c) w 0x20 0x26 s)
    (ht : (vType w == 0x01 || vType w == 0x0B) = true) : execRand c w s = .next (vecStep c true (randVec w) s) := by
  rw [execRand, instr_issues _ hi]
  simp only [hreseed, ht]
  rfl

theorem completes_rand {c : Fin 192} {w : Word} {s : State} (hn : NextInside (.core c) s) (hreseed : (coreOf c s).reseed = none)
    (hi : Issues (.core c) w 0x20 0x26 s) (ht : (vType w == 0x01 || vType w == 0x0B) = true) :
    let v := (coreOf c s).vec
    Completes (.rand c w) s (WritesLanes c (vD w) (mreg v (vMask w))
      (fun l => randOut (vType w) (laneDraw true (randBits (vType w)) v l)) (drawnGens true v) s) := by
  refine completes_drawnLanes hn (vD_lt w) (execRand_eq hreseed hi ht) ?_
  simp only [randVec, drawLanes_getD]
  rfl

/-- CVT of fields in range writes each lane converted with its draw. -/
theorem completes_cvt {c : Fin 192} {w : Word} {s : State} (hn : NextInside (.core c) s) (ht : arithType (vType w) = true)
    (hdst : cvtTarget (fld w 43 4) = true) (hround : fld w 39 3 ≤ 4) (hovf : fld w 42 1 = 1 → ovfAllowed (fld w 43 4) = true)
    (hreseed : (fld w 39 3 == 4) = true → (coreOf c s).reseed = none) (hi : Issues (.core c) w 0x20 0x11 s) :
    let v := (coreOf c s).vec
    let rule := coreRule c (fld w 39 3) (fld w 42 1 == 1) s
    Completes (.cvt c w) s (WritesLanes c (vD w) (mreg v (vMask w))
      (fun l => laneOut (encodeElem (fld w 43 4) rule (laneDraw (fld w 39 3 == 4) rule.2.1 v l) (laneVal (vType w) (vreg v (vA w))[l])))
      (drawnGens (fld w 39 3 == 4) v) s) := by
  intro v rule
  have hfields : (!arithType (vType w) || !cvtTarget (fld w 43 4) || decide (4 < fld w 39 3) ||
      (fld w 42 1 == 1 && !ovfAllowed (fld w 43 4))) = false := by
    simpa [ht, hdst, Nat.not_lt.2 hround] using hovf
  have hdraw : (fld w 39 3 == 4 && (coreOf c s).reseed.isSome) = false := by
    cases h : fld w 39 3 == 4 with
    | false => rfl
    | true => rw [hreseed h]; rfl
  have hexec : execCvt c w s = .next (cvtBody c w s) := instr_issues _ hi
  rw [cvtBody, hfields, hdraw, if_neg Bool.false_ne_true, if_neg Bool.false_ne_true] at hexec
  refine completes_drawnLanes hn (vD_lt w) hexec ?_
  simp only [roundDraws_getD, roundDraws_fst]
  rfl

/-- Settles O10: RAND and CVT write lanes by what each lane drew, over generators that have all moved on. -/
theorem randomDrawsAndConversions : Obligations.RandomDrawsAndConversions := by
  intro c w s hn v rule st
  refine ⟨fun hreseed hi => ⟨fun ht => ?int, fun ht => ?float⟩, fun ht hdst hround hovf hreseed hi =>
    completes_cvt hn ht hdst hround hovf hreseed hi⟩
  case int => simpa [ht, randOut, randBits] using completes_rand hn hreseed hi (by rw [ht]; rfl)
  case float => simpa [ht, randOut, randBits] using completes_rand hn hreseed hi (by rw [ht]; rfl)

/-! ## Reductions and normalisation -/

/-- A reduction of no lanes gives its identity and raises EMPTY. -/
theorem reduceLanes_empty (op t r : Nat) (v : VecSt) : reduceLanes op t r 0 v = (BitVec.ofNat 32 (reduceEmpty op t), 0x40) := by
  simp [reduceLanes, laneOut]
  rfl

/-- A vector instruction that writes lanes over the generators it finds. -/
theorem completes_lanes {c : Fin 192} {s : State} {i : Instr} {d : Nat} {mask : BitVec 128} {F : VecSt → Fin 128 → LaneOut}
    (hn : NextInside (.core c) s) (hd : d < 32) (hexec : exec i s = .next (vecStep c true (fun v => applyLanes d mask (F v) v) s)) :
    Completes i s (WritesLanes c d mask (F (coreOf c s).vec) (coreOf c s).vec.gens s) :=
  completes_drawnLanes hn hd hexec rfl

theorem execReduce_eq {c : Fin 192} {w : Word} {s : State} (ht : arithType (vType w) = true) (hop : fld w 47 4 ≤ 3)
    (hi : Issues (.core c) w 0x20 0x27 s) : execReduce c w s = .next (vecStep c true (fun v => applyLanes (vD w) (BitVec.allOnes 128)
      (fun _ => reduceLanes (fld w 47 4) (vType w) (vA w) (mreg v (vMask w)) v) v) s) := by
  rw [execReduce, instr_issues _ hi, ht, decide_eq_true hop]
  rfl

/-- The lanes of SMX.NORM, from the four registers of its state. -/
def smxNormLanes (w : Word) (v : VecSt) (l : Fin 128) : LaneOut :=
  smxNormLane (vreg v (vB w))[l] (vreg v (vB w + 1))[l] (vreg v (vB w + 2))[l] (vreg v (vB w + 3))[l]
    ((mreg v (vMask w)).getLsbD l) (laneAt 0x01 v (vA w) l)

theorem execSmxNorm_eq {c : Fin 192} {w : Word} {s : State} (hb : vB w % 4 = 0) (hi : Issues (.core c) w 0x20 0x2A s) :
    execSmxNorm c w s = .next (vecStep c true (fun v => applyLanes (vD w) (BitVec.allOnes 128) (smxNormLanes w v) v) s) := by
  rw [execSmxNorm, instr_issues _ hi, hb]
  rfl

/-- What closing the output tile and opening another leaves and changes. -/
theorem openTile_cases (row col : BitVec 16) (v : VecSt) :
    let u := openTile row col 0 v
    u.otcRow = row ∧ u.otcCol = col ∧ u.tileFlags = 0 ∧ u.streamFlags = v.streamFlags ∧ u.lessonFlags = v.lessonFlags ∧ u.v = v.v ∧
      u.m = v.m ∧ u.gens = v.gens ∧ u.flagged = v.flagged + (if v.tileFlags &&& 0x67#7 = 0 then 0 else 1) ∧
      (u.firstFlagged = if v.tileFlags &&& 0x67#7 = 0 then v.firstFlagged else some (v.firstFlagged.getD (v.otcRow, v.otcCol))) := by
  have hflag : flagged v.tileFlags = true ↔ ¬ v.tileFlags &&& 0x67#7 = 0 := decide_eq_true_iff
  by_cases h : v.tileFlags &&& 0x67#7 = 0
  · have hnote : noteTile v.tileFlags v.otcRow v.otcCol v = v := if_neg fun hf => hflag.1 hf h
    simp [openTile, hnote, h]
  · have hnote : noteTile v.tileFlags v.otcRow v.otcCol v = _ := if_pos (hflag.2 h)
    simp only [openTile, hnote, if_neg h]
    exact ⟨trivial, trivial, trivial, trivial, trivial, trivial, trivial, trivial, trivial, trivial⟩

/-- Settles O11: REDUCE and SMX.NORM write all lanes, and TILE closes one output tile and opens the next. -/
theorem reductionsNormalisationAndTile : Obligations.ReductionsNormalisationAndTile := by
  intro c w s hn v all st sc
  refine ⟨fun ht hop hi => ⟨fun _ => ?set, fun hm => ?empty⟩, fun hb hi => ?norm, fun hi => ?tile⟩
  case set =>
    have h := completes_lanes (i := .reduce c w) hn (vD_lt w) (execReduce_eq ht hop hi)
    exact h
  case empty =>
    have h := completes_lanes (i := .reduce c w) hn (vD_lt w) (execReduce_eq ht hop hi)
    rwa [hm, reduceLanes_empty] at h
  case norm =>
    have h := completes_lanes (i := .smxNorm c w) hn (vD_lt w) (execSmxNorm_eq hb hi)
    exact h
  case tile =>
    obtain ⟨honly, hvec⟩ := vecStep_cases c (openTile (sc.extractLsb' 0 16) (sc.extractLsb' 16 16) 0) s hn
    have hexec : execTile c w s = .next _ := instr_issues _ hi
    refine ⟨_, hexec, honly, ?_⟩
    rw [hvec]
    exact openTile_cases _ _ v

/-! ## SMX.STEP (R122) -/

/-- The lanes of SMX.STEP, from the four registers of its state. -/
def smxStepLanes (b a : Nat) (v : VecSt) (l : Fin 128) : (W32 × W32 × W32 × W32) × BitVec 7 :=
  smxLane (vreg v b)[l] (vreg v (b + 1))[l] (vreg v (b + 2))[l] (vreg v (b + 3))[l] (laneAt 0x01 v a l)

/-- The flags that SMX.STEP raises. -/
def smxStepFlags (b a : Nat) (mask : BitVec 128) (v : VecSt) : BitVec 7 :=
  orFlags (lanes.map fun (l : Fin 128) => if mask.getLsbD l then (smxStepLanes b a v l).2 else 0)

/-- SMX.STEP writes its four registers one after another and raises the flags of its lanes. -/
theorem smxStep_eq (b a : Nat) (mask : BitVec 128) (v : VecSt) :
    smxStep b a mask v = raiseVec (smxStepFlags b a mask v) (setV (b + 3) mask (fun l => (smxStepLanes b a v l).1.2.2.2)
      (setV (b + 2) mask (fun l => (smxStepLanes b a v l).1.2.2.1) (setV (b + 1) mask (fun l => (smxStepLanes b a v l).1.2.1)
        (setV b mask (fun l => (smxStepLanes b a v l).1.1) v)))) := by
  simp only [smxStep, Fin.getElem_fin, Vector.getElem_ofFn]
  rfl

theorem vreg_raiseVec (fl : BitVec 7) (v : VecSt) (r : Nat) : vreg (raiseVec fl v) r = vreg v r := (rfl)

/-- Each of the four registers after SMX.STEP: the lanes of the mask take what `smxLane` gives. -/
theorem vreg_smxStep (b a : Nat) (mask : BitVec 128) (v : VecSt) (l : Fin 128) (h : b + 3 < 32) :
    let u := smxStep b a mask v
    let x := (smxStepLanes b a v l).1
    (vreg u b)[l] = (if mask.getLsbD l then x.1 else (vreg v b)[l]) ∧
      (vreg u (b + 1))[l] = (if mask.getLsbD l then x.2.1 else (vreg v (b + 1))[l]) ∧
      (vreg u (b + 2))[l] = (if mask.getLsbD l then x.2.2.1 else (vreg v (b + 2))[l]) ∧
      (vreg u (b + 3))[l] = (if mask.getLsbD l then x.2.2.2 else (vreg v (b + 3))[l]) := by
  simp (disch := omega) only [smxStep_eq, vreg_raiseVec, vreg_setV_other, getElem_vreg_setV_same]
  exact ⟨trivial, trivial, trivial, trivial⟩

theorem vreg_smxStep_other (b a r : Nat) (mask : BitVec 128) (v : VecSt) (h : r < b ∨ b + 3 < r) :
    vreg (smxStep b a mask v) r = vreg v r := by
  simp (disch := omega) only [smxStep_eq, vreg_raiseVec, vreg_setV_other]

theorem smxStep_rest (b a : Nat) (mask : BitVec 128) (v : VecSt) :
    (smxStep b a mask v).m = v.m ∧ (smxStep b a mask v).gens = v.gens ∧ (smxStep b a mask v).stream = v.stream := by
  rw [smxStep_eq]
  exact ⟨rfl, rfl, rfl⟩

theorem completes_smxStep {c : Fin 192} {w : Word} {s : State} (hn : NextInside (.core c) s) (hb : vD w % 4 = 0)
    (hi : Issues (.core c) w 0x20 0x29 s) : Completes (.smxStep c w) s fun t =>
      OnlyVec c s t ∧ (coreOf c t).vec = smxStep (vD w) (vA w) (mreg (coreOf c s).vec (vMask w)) (coreOf c s).vec := by
  refine ⟨_, instr_issues _ hi, ?_⟩
  simp only [hb, beq_self_eq_true]
  exact vecStep_cases c (fun v => smxStep (vD w) (vA w) (mreg v (vMask w)) v) s hn

/-- A finite element: M is the larger, L the scaled sum, and Q.finite is set. -/
theorem smxLane_fin (m l n q : W32) {x : Fp} {g : Bool} {y : Nat} {e : Int} (hx : x = .fin g y e) :
    let mv := decodeFloat 0x01 m.toNat
    let m' := maxFp mv x
    let sc := if mv = .inf true then (0, 0) else expOp 0x01 (diffFp mv m')
    (smxLane m l n q x).1 = (BitVec.ofNat 32 (exactCode 0x01 m'), BitVec.ofNat 32 (fmaOp 0x01 (decodeFloat 0x01 l.toNat)
      (decodeFloat 0x01 sc.1) (decodeFloat 0x01 (expOp 0x01 (diffFp x m')).1)).1, n, q ||| 4) := by
  subst hx
  simp only [smxLane, beq_iff_eq]

/-- Settles O13: the lanes of the mask take what `smxLane` gives of their element, the other lanes and registers stay. -/
theorem softmaxStep : Obligations.SoftmaxStep := by
  intro c w s hn hb hi v st x
  obtain ⟨t, hexec, honly, hvec⟩ := completes_smxStep hn hb hi
  have hd : vD w + 3 < 32 := by have := vD_lt w; omega
  refine ⟨t, hexec, honly, ?_⟩
  simp only [hvec]
  refine ⟨fun l hm i hi4 => ?masked, fun l hm => ?lanes, fun r hr => vreg_smxStep_other _ _ r _ _ hr, smxStep_rest _ _ _ _⟩
  case masked =>
    obtain ⟨h0, h1, h2, h3⟩ := vreg_smxStep (vD w) (vA w) (mreg v (vMask w)) v l hd
    simp only [hm, Bool.false_eq_true, if_false] at h0 h1 h2 h3
    interval_cases i
    · exact h0
    · exact h1
    · exact h2
    · exact h3
  case lanes =>
    obtain ⟨h0, h1, h2, h3⟩ := vreg_smxStep (vD w) (vA w) (mreg v (vMask w)) v l hd
    simp only [hm, if_true] at h0 h1 h2 h3
    have hlane : (smxStepLanes (vD w) (vA w) v l).1 = (smxLane (st 0 l) (st 1 l) (st 2 l) (st 3 l) (x l)).1 := rfl
    rw [hlane] at h0 h1 h2 h3
    refine ⟨fun hx => ?_, fun hx => ?_, fun hx => ?_, fun n m e hx => ?_⟩
    · rw [hx] at h0 h1 h2 h3
      exact ⟨h0, h1, h2, h3⟩
    · rw [hx] at h0 h1 h2 h3
      exact ⟨h0, h1, h2, h3⟩
    · rw [hx] at h0 h1 h2 h3
      exact ⟨h0, h1, h3, h2.trans (by simp [smxLane])⟩
    · rw [smxLane_fin _ _ _ _ hx] at h0 h1 h2 h3
      exact ⟨h0, h2, h3, h1⟩

end Sys2Proof.Machine
end

section
/-!
What core instructions share (Machine/Lessons.lean, Machine/Desk.lean): the step to the next instruction from any state, changes of one
core one after another, free values and Desk writes. With them LOAD, STORE and POP (chapters 05 and 06).
-/

namespace Sys2Proof.Machine

/-! ## Changes of one core -/

theorem OnlyCore.refl (c : Fin 192) (s : State) : OnlyCore c s s := ⟨rfl, rfl, rfl, fun _ _ => rfl⟩

theorem OnlyCore.trans {c : Fin 192} {s t u : State} (h : OnlyCore c s t) (k : OnlyCore c t u) : OnlyCore c s u := by
  obtain ⟨hout, hlinks, hmems, hcores⟩ := h
  obtain ⟨kout, klinks, kmems, kcores⟩ := k
  exact ⟨kout.trans hout, klinks.trans hlinks, kmems.trans hmems, fun d hd => (kcores d hd).trans (hcores d hd)⟩

/-- From `s` to `t` only one core has changed and free values have been drawn. -/
def OnlyCoreDraws (c : Fin 192) (s t : State) : Prop := OnlyCore c s { t with free := s.free }

theorem OnlyCore.draws {c : Fin 192} {s t : State} (h : OnlyCore c s t) : OnlyCoreDraws c s t := by
  obtain ⟨hout, hlinks, hmems, hcores⟩ := h
  exact ⟨congrArg (fun u : State => { u with free := s.free }) hout, hlinks, hmems, hcores⟩

theorem OnlyCoreDraws.trans {c : Fin 192} {s t u : State} (h : OnlyCoreDraws c s t) (k : OnlyCoreDraws c t u) : OnlyCoreDraws c s u := by
  obtain ⟨hout, hlinks, hmems, hcores⟩ := h
  obtain ⟨kout, klinks, kmems, kcores⟩ := k
  exact ⟨(congrArg (fun x : State => { x with free := s.free }) kout).trans hout, klinks.trans hlinks, kmems.trans hmems,
    fun d hd => (kcores d hd).trans (hcores d hd)⟩

/-- Memory stands outside the lesson places. -/
theorem sameMemory_of_outsidePlaces {s t : State} (h : outsidePlaces t = outsidePlaces s) : SameMemory s t :=
  have hmem := congrArg State.memory h
  have hportA := congrArg (fun u : State => u.portA.mem) h
  have hportB := congrArg (fun u : State => u.portB.mem) h
  ⟨hmem, hportA, hportB⟩

theorem OnlyCoreDraws.sameMemory {c : Fin 192} {s t : State} (h : OnlyCoreDraws c s t) : SameMemory s t :=
  have hmem := sameMemory_of_outsidePlaces h.1
  hmem

/-- What the step of a core to its next instruction changes. -/
theorem advance_core (c : Fin 192) (s : State) (h : NextInside (.core c) s) :
    OnlyCore c s (advance (.core c) s) ∧ (coreOf c (advance (.core c) s)).seq = nextSeq (coreOf c s).seq ∧
      besideSeq (coreOf c (advance (.core c) s)) = besideSeq (coreOf c s) := by
  obtain ⟨g1, -, g3, g4, g5⟩ := goTo_cases (.core c) ((seqOf (.core c) s).pc + 1) s h
  have hseqs : (goTo (.core c) ((seqOf (.core c) s).pc + 1) s).linkSeq = s.linkSeq ∧
      (goTo (.core c) ((seqOf (.core c) s).pc + 1) s).memSeq = s.memSeq := by
    simp only [goTo]
    rw [if_pos (show (seqOf (.core c) s).pc + 1 < _ from h)]
    exact endStall_core_seqs c (noteIssue (.core c) s)
  exact ⟨⟨g1, hseqs.1, hseqs.2, fun d hd => g5 d fun c' e => by cases e; exact hd⟩, g3, g4 c⟩

/-! ## Free values and Desk writes (R130, R146) -/

theorem deskDraw_cases (c a n : Nat) (s : State) : ∃ m, deskDraw c a n s = { s with free := m } := by
  unfold deskDraw
  split
  · exact ⟨_, rfl⟩
  · exact ⟨s.free, rfl⟩

theorem foldl_deskDraw_cases (c : Nat) (sps : List (Nat × Nat)) (s : State) :
    ∃ m, sps.foldl (fun s p => deskDraw c p.1 p.2 s) s = { s with free := m } := by
  induction sps generalizing s with
  | nil => exact ⟨s.free, rfl⟩
  | cons p sps ih =>
    obtain ⟨m, hm⟩ := deskDraw_cases c p.1 p.2 s
    obtain ⟨n, hn⟩ := ih { s with free := m }
    exact ⟨n, by rw [List.foldl_cons, hm, hn]⟩

/-- A core without its Desk and what operations in flight will write there. -/
def besideDesk (k : Core) : Core := { k with desk := [], dmas := [], narrows := [] }

/-- What writing Desk bytes changes: they stand in the Desk, and operations in flight may lose a race. -/
theorem deskWrite_cases (c : Fin 192) (a : Nat) (bs : List Byte) (s : State) :
    OnlyCoreDraws c s (deskWrite c a bs s) ∧ (coreOf c (deskWrite c a bs s)).desk = memWrite (coreOf c s).desk a bs ∧
      besideDesk (coreOf c (deskWrite c a bs s)) = besideDesk (coreOf c s) := by
  obtain ⟨m, hm⟩ := deskDraw_cases c a bs.length (modCore c (deskPut s.free a bs) s)
  have hcore : coreOf c (deskWrite c a bs s) = deskPut s.free a bs (coreOf c s) := by
    rw [deskWrite, hm]
    exact coreOf_modCore _ _ _
  refine ⟨?_, by rw [hcore]; rfl, by rw [hcore]; rfl⟩
  rw [deskWrite, hm]
  exact (onlyCore_modCore c _ s).draws

theorem foldl_deskWrite_cases (c : Fin 192) (ws : List (Nat × List Byte)) (s : State) :
    let t := ws.foldl (fun s x => deskWrite c x.1 x.2 s) s
    OnlyCoreDraws c s t ∧ (coreOf c t).desk = ws.foldl (fun m x => memWrite m x.1 x.2) (coreOf c s).desk ∧
      besideDesk (coreOf c t) = besideDesk (coreOf c s) := by
  induction ws generalizing s with
  | nil => exact ⟨(OnlyCore.refl c s).draws, rfl, rfl⟩
  | cons x ws ih =>
    obtain ⟨honly, hdesk, hbeside⟩ := deskWrite_cases c x.1 x.2 s
    obtain ⟨konly, kdesk, kbeside⟩ := ih (deskWrite c x.1 x.2 s)
    exact ⟨honly.trans konly, kdesk.trans (by rw [hdesk]; rfl), kbeside.trans hbeside⟩

theorem memGet_foldl_memWrite_other (ws : List (Nat × List Byte)) (m : List Host.Cell) (a : Nat)
    (h : ∀ x ∈ ws, a < x.1 ∨ x.1 + x.2.length ≤ a) : memGet (ws.foldl (fun m x => memWrite m x.1 x.2) m) a = memGet m a := by
  induction ws generalizing m with
  | nil => rfl
  | cons x ws ih =>
    rw [List.foldl_cons, ih _ fun y hy => h y (List.mem_cons_of_mem _ hy), memGet_memWrite_other _ _ _ _ (h x List.mem_cons_self)]

/-! ## LOAD (R150) -/

theorem openFenceMeets_of_fenceMeets {k : Core} {a n : Nat} (h : fenceMeets k a n = false) : openFenceMeets k a n = false := by
  simp only [fenceMeets, openFenceMeets, List.any_eq_false, Bool.and_eq_true, not_and] at h ⊢
  exact fun p hp hf => h p hp hf.1

theorem vmemInc_pc (w : Word) (q : Seq) : (vmemInc w q).pc = q.pc := by
  unfold vmemInc
  split
  · rfl
  · split <;> rfl

theorem vmemInc_code (w : Word) (q : Seq) : (vmemInc w q).code = q.code := by
  unfold vmemInc
  split
  · rfl
  · split <;> rfl

/-- A rounding that draws finds the generators reseeded. -/
theorem draws_and_reseed {round : Nat} {k : Core} (h : round = 4 → k.reseed = none) : (round == 4 && k.reseed.isSome) = false := by
  by_cases hr : round = 4
  · rw [h hr, Option.isSome_none, Bool.and_false]
  · rw [beq_false_of_ne hr, Bool.false_and]

theorem getD_toArray {α : Type} (xs : List α) (i : Nat) (d : α) : xs.toArray.getD i d = xs.getD i d := by
  simp [Array.getD_eq_getD_getElem?]

/-- The lanes that a LOAD writes. -/
def loadLanes (c : Fin 192) (w : Word) (sps : List (Nat × Nat)) (s : State) (l : Fin 128) : LaneOut :=
  let k := coreOf c s
  let rule := coreRule c (mRound w) false s
  laneOut (encodeElem (mType w) rule (laneDraw (mRound w == 4) rule.2.1 k.vec l)
    ((vmemValues (mFmt w) (readSpans k s.free sps)).getD l.val (.fin false 0 0)))

/-- The vector state after a LOAD. -/
def loadVec (c : Fin 192) (w : Word) (sps : List (Nat × Nat)) (s : State) : VecSt :=
  let k := coreOf c s
  applyLanes (fld w 12 5) (mreg k.vec (mMask w)) (loadLanes c w sps s) { k.vec with gens := drawnGens (mRound w == 4) k.vec }

/-- A LOAD whose fields are in range and whose spans no fence meets writes its lanes and goes on. -/
theorem loadBody_eq {c : Fin 192} {w : Word} {s : State} {sps : List (Nat × Nat)} (ht : arithType (mType w) = true)
    (hf : loadFmt (mFmt w) = true) (hr : mRound w ≤ 4) (ho : mOvf w = false) (hs : vmemSpans (coreOf c s).seq w = some sps)
    (hin : ∀ p ∈ sps, p.1 + p.2 ≤ 4194304 ∧ fenceMeets (coreOf c s) p.1 p.2 = false) (hd : mRound w = 4 → (coreOf c s).reseed = none) :
    ∃ m, loadBody c w s = advance (.core c) (modCore c (fun k => { k with vec := loadVec c w sps s, seq := vmemInc w k.seq })
      { s with free := m }) := by
  have hfields : (!arithType (mType w) || !loadFmt (mFmt w) || decide (4 < mRound w) || mOvf w) = false := by
    simp [ht, hf, ho, hr]
  have hspan : (sps.any fun p => !deskSpan p.1 p.2 || openFenceMeets (coreOf c s) p.1 p.2) = false := by
    simp only [List.any_eq_false, Bool.or_eq_true, not_or]
    intro p hp
    obtain ⟨hle, hfence⟩ := hin p hp
    simp [deskSpan, deskBytes, hle, openFenceMeets_of_fenceMeets hfence]
  have hfence : (sps.any fun p => fenceMeets (coreOf c s) p.1 p.2) = false := by
    simp only [List.any_eq_false, Bool.not_eq_true]
    exact fun p hp => (hin p hp).2
  obtain ⟨m, hm⟩ := foldl_deskDraw_cases c sps s
  refine ⟨m, ?_⟩
  simp only [loadBody, hfields, hs, hspan, hfence, draws_and_reseed hd, Bool.false_eq_true, if_false, hm, roundDraws_getD,
    roundDraws_fst, getD_toArray]
  rfl

theorem completes_load {c : Fin 192} {w : Word} {s : State} {sps : List (Nat × Nat)} (hn : NextInside (.core c) s)
    (hi : Issues (.core c) w 0x21 0x00 s) (ht : arithType (mType w) = true) (hf : loadFmt (mFmt w) = true) (hr : mRound w ≤ 4)
    (ho : mOvf w = false) (hs : vmemSpans (coreOf c s).seq w = some sps)
    (hin : ∀ p ∈ sps, p.1 + p.2 ≤ 4194304 ∧ fenceMeets (coreOf c s) p.1 p.2 = false) (hd : mRound w = 4 → (coreOf c s).reseed = none) :
    Completes (.load c w) s fun t => OnlyCoreDraws c s t ∧ (coreOf c t).seq = nextSeq (vmemInc w (coreOf c s).seq) ∧
      besideVec (coreOf c t) = besideVec (coreOf c s) ∧ (coreOf c t).vec = loadVec c w sps s := by
  obtain ⟨m, hm⟩ := loadBody_eq ht hf hr ho hs hin hd
  have hexec : execLoad c w s = .next _ := (instr_issues _ hi).trans (congrArg _ hm)
  obtain ⟨honly, hseq, hbeside⟩ := advance_core_cases c (fun k => { k with vec := loadVec c w sps s, seq := vmemInc w k.seq })
    { s with free := m } (fun k => vmemInc_pc w k.seq) (fun k => vmemInc_code w k.seq) hn
  exact ⟨_, hexec, OnlyCoreDraws.trans (t := { s with free := m }) (OnlyCore.refl c s) honly.draws, hseq,
    (besideVec_of_besideSeq hbeside).trans rfl, congrArg Core.vec hbeside⟩

/-! ## STORE (R150) -/

/-- A state without what counting a tagged write changes: runs, channels, statistics sets and the report card. -/
def uncounted (s : State) : State := { s with runs := [], slots := [], stats := [], card := {} }

theorem uncounted_modChan (i : Nat) (f : Chan → Chan) (s : State) : uncounted (modChan i f s) = uncounted s := by
  unfold modChan
  split <;> rfl

theorem uncounted_countWrite (c tag : Nat) (x : Counts) (s : State) : uncounted (countWrite c tag x s) = uncounted s := by
  unfold countWrite
  split
  · rfl
  · extract_lets has grad z
    have hz : uncounted z = uncounted s := by
      subst z
      split <;> rfl
    clear_value z
    split
    · exact hz
    · split
      · split <;> exact hz
      · exact (uncounted_modChan _ _ z).trans hz

theorem cores_of_uncounted {s t : State} (h : uncounted t = uncounted s) : t.cores = s.cores := (congrArg State.cores h).trans rfl

theorem sameMemory_of_uncounted {s t : State} (h : uncounted t = uncounted s) : SameMemory s t :=
  have hmem := congrArg State.memory h
  have hportA := congrArg (fun u : State => u.portA.mem) h
  have hportB := congrArg (fun u : State => u.portB.mem) h
  ⟨hmem, hportA, hportB⟩

theorem uncounted_countTensor (c : Nat) (tag : Option Nat) (fmt : Nat) (bs : List Byte) (fs : List (BitVec 7)) (s : State) :
    uncounted (countTensor c tag fmt bs fs s) = uncounted s := by
  unfold countTensor
  split
  · rfl
  · split
    · rfl
    · exact uncounted_countWrite _ _ _ s

/-- The state in which the statistics of a STORE have been counted. -/
def storeCounted (c : Fin 192) (r : List (Nat × List Byte) × List (Fp × BitVec 7)) (s : State) : State :=
  match (coreOf c s).statTag with
  | some t => countWrite c t (countsOf (r.2.map Prod.fst) ((r.2.map Prod.snd).countP fun f => f.getLsbD 5)) s
  | none => s

/-- The draws of a STORE, lane by lane. -/
def storeDraws (c : Fin 192) (w : Word) (s : State) : List Nat :=
  if mRound w == 4 then (List.finRange 128).map fun (l : Fin 128) => laneDraw true (coreRule c (mRound w) (mOvf w) s).2.1 (coreOf c s).vec l
  else List.replicate 128 0

theorem roundDraws_snd (round k : Nat) (v : VecSt) :
    (roundDraws round k v).2 = if round == 4 then (List.finRange 128).map fun (l : Fin 128) => laneDraw true k v l else List.replicate 128 0 := by
  unfold roundDraws
  split
  · refine List.ext_getElem (by simp [drawLanes]) fun i hi hj => ?_
    simp [drawLanes, laneDraw]
  · rfl

/-- The Desk writes, values and flags of a STORE. -/
def stored (c : Fin 192) (w : Word) (sps : List (Nat × Nat)) (s : State) : List (Nat × List Byte) × List (Fp × BitVec 7) :=
  storeWrites (coreOf c s) w (coreRule c (mRound w) (mOvf w) s) (storeDraws c w s) sps

/-- The vector state after a STORE. -/
def storeVec (c : Fin 192) (w : Word) (sps : List (Nat × Nat)) (s : State) : VecSt :=
  raiseVec (orFlags ((stored c w sps s).2.map Prod.snd)) { (coreOf c s).vec with gens := drawnGens (mRound w == 4) (coreOf c s).vec }

theorem uncounted_storeCounted (c : Fin 192) (r : List (Nat × List Byte) × List (Fp × BitVec 7)) (s : State) :
    uncounted (storeCounted c r s) = uncounted s := by
  unfold storeCounted
  split
  · exact uncounted_countWrite _ _ _ s
  · rfl

theorem storeCounted_untagged {c : Fin 192} {r : List (Nat × List Byte) × List (Fp × BitVec 7)} {s : State} (h : (coreOf c s).statTag = none) :
    storeCounted c r s = s := by
  rw [storeCounted, h]

theorem coreOf_congr {s t : State} (h : t.cores = s.cores) (d : Nat) : coreOf d t = coreOf d s :=
  congrArg (fun cs => tgetD cs d ({} : Core)) h

theorem storeBody_eq {c : Fin 192} {w : Word} {s : State} {sps : List (Nat × Nat)} (ht : arithType (mType w) = true)
    (hf : storeFmt (mFmt w) = true) (hr : mRound w ≤ 4) (ho : mOvf w = true → ovfAllowed (mFmt w) = true)
    (hm : (ssbElem (mFmt w)).isSome = true → mMask w = 0) (hs : vmemSpans (coreOf c s).seq w = some sps)
    (hin : ∀ p ∈ sps, p.1 + p.2 ≤ 4194304 ∧ fenceMeets (coreOf c s) p.1 p.2 = false) (hd : mRound w = 4 → (coreOf c s).reseed = none) :
    storeBody c w s = advance (.core c) ((stored c w sps s).1.foldl (fun s x => deskWrite c x.1 x.2 s) (modCore c
      (fun k => { k with vec := storeVec c w sps s, seq := vmemInc w k.seq }) (storeCounted c (stored c w sps s) s))) := by
  have hfields : (!arithType (mType w) || !storeFmt (mFmt w) || decide (4 < mRound w) || (mOvf w && !ovfAllowed (mFmt w)) ||
      ((ssbElem (mFmt w)).isSome && mMask w != 0)) = false := by
    simp only [ht, hf, decide_eq_false (Nat.not_lt.2 hr), Bool.not_true, Bool.or_false, Bool.false_or, Bool.or_eq_false_iff,
      Bool.and_eq_false_imp, Bool.not_eq_false', bne_eq_false_iff_eq]
    exact ⟨ho, hm⟩
  have hspan : (sps.any fun p => !deskSpan p.1 p.2 || fenceMeets (coreOf c s) p.1 p.2) = false := by
    simp only [List.any_eq_false, Bool.or_eq_true, not_or]
    intro p hp
    obtain ⟨hle, hfence⟩ := hin p hp
    simp [deskSpan, deskBytes, hle, hfence]
  simp only [storeBody, hfields, hs, hspan, draws_and_reseed hd, Bool.false_eq_true, if_false, roundDraws_snd, roundDraws_fst]
  rfl

theorem memory_of_onlyCoreDraws {c : Fin 192} {s t : State} (h : OnlyCoreDraws c s t) : t.memory = s.memory := h.sameMemory.1

theorem completes_store {c : Fin 192} {w : Word} {s : State} {sps : List (Nat × Nat)} (hn : NextInside (.core c) s)
    (hi : Issues (.core c) w 0x21 0x01 s) (ht : arithType (mType w) = true)
    (hf : storeFmt (mFmt w) = true) (hr : mRound w ≤ 4) (ho : mOvf w = true → ovfAllowed (mFmt w) = true)
    (hm : (ssbElem (mFmt w)).isSome = true → mMask w = 0) (hs : vmemSpans (coreOf c s).seq w = some sps)
    (hin : ∀ p ∈ sps, p.1 + p.2 ≤ 4194304 ∧ fenceMeets (coreOf c s) p.1 p.2 = false) (hd : mRound w = 4 → (coreOf c s).reseed = none) :
    Completes (.store c w) s fun t => OnlyCoreDraws c (storeCounted c (stored c w sps s) s) t ∧
      (coreOf c t).desk = (stored c w sps s).1.foldl (fun m x => memWrite m x.1 x.2) (coreOf c s).desk ∧
      (coreOf c t).seq = nextSeq (vmemInc w (coreOf c s).seq) ∧ (coreOf c t).vec = storeVec c w sps s ∧
      (coreOf c t).tile = (coreOf c s).tile := by
  have hexec : execStore c w s = .next _ := (instr_issues _ hi).trans (congrArg _ (storeBody_eq ht hf hr ho hm hs hin hd))
  have hcounted := uncounted_storeCounted c (stored c w sps s) s
  generalize storeCounted c (stored c w sps s) s = u at hexec hcounted ⊢
  have hcore : coreOf c u = coreOf c s := coreOf_congr (cores_of_uncounted hcounted) c
  have hmod := coreOf_modCore c (fun k => { k with vec := storeVec c w sps s, seq := vmemInc w k.seq }) u
  have honly := onlyCore_modCore c (fun k => { k with vec := storeVec c w sps s, seq := vmemInc w k.seq }) u
  rw [hcore] at hmod
  generalize modCore c _ u = v at hexec hmod honly
  obtain ⟨donly, ddesk, dbeside⟩ := foldl_deskWrite_cases c (stored c w sps s).1 v
  generalize List.foldl (fun s x => deskWrite c x.1 x.2 s) v (stored c w sps s).1 = x at hexec donly ddesk dbeside
  rw [hmod] at ddesk dbeside
  have hseq : (coreOf c x).seq = vmemInc w (coreOf c s).seq := congrArg Core.seq dbeside
  obtain ⟨aonly, aseq, abeside⟩ := advance_core c x (by
    show (coreOf c x).seq.pc + 1 < (coreOf c x).seq.code.length
    rw [hseq, vmemInc_pc, vmemInc_code]
    exact hn)
  refine ⟨_, hexec, (honly.draws.trans donly).trans aonly.draws, ?_, aseq.trans (congrArg nextSeq hseq), ?_, ?_⟩
  · exact (congrArg Core.desk abeside).trans ddesk
  · exact (congrArg Core.vec abeside).trans (congrArg Core.vec dbeside)
  · have htile := congrArg Core.tile dbeside
    exact (congrArg Core.tile abeside).trans htile

/-- Settles O14: LOAD changes its core's vector state and registers alone, and STORE writes its spans to the Desk after its counts. -/
theorem loadAndStoreMoveTheDesk : Obligations.LoadAndStoreMoveTheDesk := by
  refine ⟨fun c w s sps hn hi ht hf hr ho hs hin hd => ?load, fun c w s sps hn hi ht hf hr ho hm hs hin hd => ?store⟩
  case load =>
    obtain ⟨t, hexec, honly, hseq, hbeside, hvec⟩ := completes_load hn hi ht hf hr ho hs hin hd
    refine ⟨t, hexec, honly, hseq, hbeside, ?_⟩
    rw [hvec]
    exact lanesWritten_applyLanes_gens _ _ _ _ _ (fld_lt w 12 5)
  case store =>
    obtain ⟨t, hexec, honly, hdesk, hseq, hvec, htile⟩ := completes_store hn hi ht hf hr ho hm hs hin hd
    have hcounted := uncounted_storeCounted c (stored c w sps s) s
    obtain ⟨hout, hlinks, hmems, hcores⟩ := id honly
    refine ⟨t, hexec, hdesk, fun a ha => ?_, hseq, by rw [hvec]; rfl, by rw [hvec]; rfl, by rw [hvec]; rfl, htile, ?_, fun d hd => ?_, fun hu => ?_⟩
    · rw [hdesk]
      exact memGet_foldl_memWrite_other _ _ _ ha
    · exact (memory_of_onlyCoreDraws honly).trans (sameMemory_of_uncounted hcounted).1
    · exact (hcores d hd).trans (coreOf_congr (cores_of_uncounted hcounted) d)
    · rw [storeCounted_untagged hu] at honly
      exact honly

/-! ## POP (R107) -/

/-- What the first row of an entry does to the flag words and the output tile. -/
theorem popFlags_cases (e : Entry) (v : VecSt) :
    let u := popFlags e v
    u.v = v.v ∧ u.streamFlags = v.streamFlags ||| e.flags ∧ u.lessonFlags = v.lessonFlags ||| e.flags ∧ u.otcRow = e.trow ∧
      u.otcCol = e.tcol ∧ u.tileFlags = if e.trow = v.otcRow ∧ e.tcol = v.otcCol then v.tileFlags ||| e.flags else e.flags := by
  intro u
  by_cases h : e.trow = v.otcRow ∧ e.tcol = v.otcCol
  · obtain ⟨hrow, hcol⟩ := h
    have hu : u = { raiseEntry e.flags v with tileFlags := v.tileFlags ||| e.flags } := by
      simp [u, popFlags, raiseEntry, hrow, hcol]
    rw [hu, if_pos ⟨hrow, hcol⟩]
    exact ⟨rfl, rfl, rfl, hrow.symm, hcol.symm, rfl⟩
  · have hu : u = openTile e.trow e.tcol e.flags (raiseEntry e.flags v) := by
      simpa [u, popFlags, raiseEntry] using fun hrow hcol => absurd ⟨hrow, hcol⟩ h
    rw [hu, if_neg h]
    refine ⟨?_, ?_, ?_, rfl, rfl, rfl⟩ <;> · unfold openTile noteTile; split <;> rfl

/-- The vector registers after a POP took a row. -/
theorem takeRow_vec (r : Nat) (e : Entry) (k : Core) :
    (takeRow r e k).vec.v = (setV r (BitVec.allOnes 128) (fun l => (e.data.getD e.next []).getD l.val 0) k.vec).v := by
  simp only [takeRow, getD_toArray]
  split
  · exact (popFlags_cases e _).1
  · rfl

theorem vreg_congr {u v : VecSt} (h : u.v = v.v) (r : Nat) : vreg u r = vreg v r :=
  congrArg (fun x => vget x r (Vector.replicate 128 0)) h

theorem getElem_vreg_takeRow (r : Nat) (e : Entry) (k : Core) (l : Fin 128) (hr : r < 32) :
    (vreg (takeRow r e k).vec r)[l] = (e.data.getD e.next []).getD l.val 0 := by
  rw [vreg_congr (takeRow_vec r e k), getElem_vreg_setV_same _ _ _ _ _ hr, BitVec.getLsbD_allOnes]
  simp

theorem vreg_takeRow_other (r x : Nat) (e : Entry) (k : Core) (h : x ≠ r) : vreg (takeRow r e k).vec x = vreg k.vec x := by
  rw [vreg_congr (takeRow_vec r e k), vreg_setV_other _ _ _ _ _ h]

theorem takeRow_entries (r : Nat) (e : Entry) (k : Core) :
    (takeRow r e k).tile.entries = if e.rows ≤ e.next + 1 then k.tile.entries.filter (fun x => x.seq ≠ e.seq)
      else k.tile.entries.map fun x => if x.seq = e.seq then { x with st := .popping, next := x.next + 1 } else x := by
  simp only [takeRow, mapIf, ge_iff_le, beq_iff_eq]
  congr 1
  exact List.filter_congr fun x _ => by simp [bne]; rfl

/-- A later row of an entry leaves flags and output tile. -/
theorem takeRow_later {r : Nat} {e : Entry} {k : Core} (h : e.next ≠ 0) :
    (takeRow r e k).vec.streamFlags = k.vec.streamFlags ∧ (takeRow r e k).vec.tileFlags = k.vec.tileFlags := by
  simp only [takeRow, beq_false_of_ne h, Bool.false_eq_true, if_false]
  exact ⟨rfl, rfl⟩

/-- The first row of an entry meets flags and output tile. -/
theorem takeRow_first {r : Nat} {e : Entry} {k : Core} (h : e.next = 0) :
    let u := (takeRow r e k).vec
    u.streamFlags = k.vec.streamFlags ||| e.flags ∧ u.lessonFlags = k.vec.lessonFlags ||| e.flags ∧ u.otcRow = e.trow ∧ u.otcCol = e.tcol ∧
      u.tileFlags = if e.trow = k.vec.otcRow ∧ e.tcol = k.vec.otcCol then k.vec.tileFlags ||| e.flags else e.flags := by
  intro u
  have hu : u = popFlags e (setV r (BitVec.allOnes 128) (fun l => (e.data.getD e.next []).toArray.getD l 0) k.vec) := by
    simp only [u, takeRow, h, BEq.rfl, if_true]
  rw [hu]
  exact (popFlags_cases e _).2

theorem popBody_eq {c : Fin 192} {w : Word} {s : State} {e : Entry} (he : (accEntries (fld w 37 3) (coreOf c s).tile).head? = some e)
    (ho : e.open' = false) (hp : poppable e = true)
    (hd : ((coreOf c s).tile.entries.any fun x => x.acc == fld w 37 3 && x.st == .draining) = false) :
    popBody c w s = advance (.core c) (modCore c (takeRow (fld w 12 5) e) s) := by
  have hw : (e.st == .waiting) = false := by
    cases hst : e.st <;> simp [poppable, hst] at hp ⊢
  simp only [popBody, he, ho, hp, hd, hw, Bool.not_true, Bool.false_and, Bool.or_false, Bool.false_eq_true, if_false]

/-- Settles O15: POP and POP_ROW_DELIVER take the row in their core and change nothing beside it. -/
theorem popTakesTheNextRow : Obligations.PopTakesTheNextRow := by
  intro c w s e k taken
  have htaken : ∀ (r : Nat) (t : State), r < 32 → OnlyCore c s t → besideSeq (coreOf c t) = besideSeq (takeRow r e k) → taken r t := by
    intro r t hr honly hbeside
    have hvec := congrArg Core.vec hbeside
    have hentries := congrArg (fun x : Core => x.tile.entries) hbeside
    replace hvec : (coreOf c t).vec = (takeRow r e k).vec := hvec
    have hwait := congrArg Core.waitPop hbeside
    refine ⟨honly, hwait, fun l => ?_, fun x hx => ?_, hentries.trans (takeRow_entries r e k), fun h => ?_, fun h => ?_⟩
    · rw [hvec]; exact getElem_vreg_takeRow r e k l hr
    · rw [hvec]; exact vreg_takeRow_other r x e k hx
    · rw [hvec]; exact takeRow_later h
    · rw [hvec]; exact takeRow_first h
  refine ⟨fun hn hi he ho hp hd => ?pop, fun r acc hr hw he hp => ?deliver⟩
  case pop =>
    have hexec : execPop c w s = .next _ := (instr_issues _ hi).trans (congrArg _ (popBody_eq he ho hp hd))
    obtain ⟨honly, hseq, hbeside⟩ := advance_core_cases c (takeRow (fld w 12 5) e) s (fun _ => rfl) (fun _ => rfl) hn
    exact ⟨_, hexec, htaken _ _ (fld_lt w 12 5) honly hbeside, hseq⟩
  case deliver =>
    have hexec : execPopRowDeliver c s = .next (modCore c (takeRow r e) s) := by
      simp only [execPopRowDeliver, show (coreOf c s).waitPop = some (r, acc) from hw]
      rw [show ((coreOf c s).tile.entries.filter fun x => x.acc == acc).head? = some e from he]
      simp only [hp, if_true]
    have hcore := coreOf_modCore c (takeRow r e) s
    exact ⟨_, hexec, htaken _ _ hr (onlyCore_modCore c _ s) (by rw [hcore]), by rw [hcore]; rfl⟩

end Sys2Proof.Machine
end

section
/-!
Frames that many commands share: what raising a flag or recording an event leaves (Machine/State.lean), what a store into a channel's
space changes, and what the end of a lesson leaves of its cores (Machine/Lessons.lean).
-/

namespace Sys2Proof.Machine

/-! ## Flags, messages and the report card (R8, R435, R450) -/

theorem OnlyFlags.refl (s : State) : OnlyFlags s s := rfl

theorem OnlyFlags.trans {s t u : State} (h : OnlyFlags s t) (k : OnlyFlags t u) : OnlyFlags s u := Eq.trans k h

theorem onlyFlags_sendMsix (p : Port) (v : Nat) (s : State) : OnlyFlags s (sendMsix p v s) := by
  unfold sendMsix
  split
  · rfl
  · split
    · cases p <;> rfl
    · rfl

theorem onlyFlags_flagMessage (p : Port) (i : Nat) (s : State) : OnlyFlags s (flagMessage p i s) := by
  unfold flagMessage
  split
  · exact onlyFlags_sendMsix _ _ s
  · rfl

theorem onlyFlags_raiseDev (i : Nat) (s : State) : OnlyFlags s (raiseDev i s) := by
  unfold raiseDev
  extract_lets t
  have ht : OnlyFlags s t := rfl
  split
  · exact ht
  · exact (ht.trans (onlyFlags_flagMessage .A i t)).trans (onlyFlags_flagMessage .B i _)

theorem devFlags_sendMsix (p : Port) (v : Nat) (s : State) : (sendMsix p v s).devFlags = s.devFlags := by
  unfold sendMsix
  split
  · rfl
  · split
    · cases p <;> rfl
    · rfl

theorem devFlags_flagMessage (p : Port) (i : Nat) (s : State) : (flagMessage p i s).devFlags = s.devFlags := by
  unfold flagMessage
  split
  · exact devFlags_sendMsix _ _ s
  · rfl

theorem devRaised_raiseDev (i : Nat) (s : State) : DevRaised i s (raiseDev i s) := by
  unfold raiseDev
  extract_lets t
  split
  · rfl
  · exact (devFlags_flagMessage _ _ _).trans ((devFlags_flagMessage _ _ t).trans rfl)

theorem onlyFlags_raiseEvent (code : Nat) (args : List Nat) (s : State) : OnlyFlags s (raiseEvent code args s) := rfl

theorem onlyFlags_countCard (word n : Nat) (s : State) : OnlyFlags s (countCard word n s) := rfl

theorem OnlyFlags.sameMemory {s t : State} (h : OnlyFlags s t) : SameMemory s t :=
  have hmem := congrArg State.memory h
  have hportA := congrArg (fun u : State => u.portA.mem) h
  have hportB := congrArg (fun u : State => u.portB.mem) h
  ⟨hmem, hportA, hportB⟩

theorem OnlyFlags.cores {s t : State} (h : OnlyFlags s t) : t.cores = s.cores := (congrArg State.cores h).trans rfl

theorem SameMemory.refl (s : State) : SameMemory s s := ⟨rfl, rfl, rfl⟩

theorem SameMemory.trans {s t u : State} (h : SameMemory s t) (k : SameMemory t u) : SameMemory s u := by
  obtain ⟨hmem, hportA, hportB⟩ := h
  obtain ⟨kmem, kportA, kportB⟩ := k
  exact ⟨kmem.trans hmem, kportA.trans hportA, kportB.trans hportB⟩

/-! ## Stores into a channel's space (R29, R30) -/

/-- What a store looks up and changes: the channels, the fast tier and the ports. -/
def storage (s : State) : Tbl Slot × MemSt × PortSt × PortSt := (s.slots, s.memory, s.portA, s.portB)

/-- A state with the storage of another. -/
def withStorage (s t : State) : State := { t with slots := s.slots, memory := s.memory, portA := s.portA, portB := s.portB }

theorem withStorage_of_eq {s t : State} (h : storage t = storage s) : withStorage s t = t := by
  simp only [storage, Prod.mk.injEq] at h
  obtain ⟨hslots, hmem, hportA, hportB⟩ := h
  rw [withStorage, ← hslots, ← hmem, ← hportA, ← hportB]

theorem withStorage_spaceSet (sp a : Nat) (v : Byte) (s t : State) :
    spaceSet sp a v (withStorage s t) = withStorage (spaceSet sp a v s) t := by
  unfold spaceSet
  split
  · rfl
  · show (if s.portA.fenced then _ else _) = withStorage (if s.portA.fenced then _ else _) t
    split <;> rfl
  · show (if s.portB.fenced then _ else _) = withStorage (if s.portB.fenced then _ else _) t
    split <;> rfl

theorem locate_withStorage (slot va : Nat) (s t : State) : locate slot va (withStorage s t) = locate slot va s := rfl

theorem withStorage_vaWrite (slot va : Nat) (bs : List Byte) (s t : State) :
    vaWrite slot va bs (withStorage s t) = withStorage (vaWrite slot va bs s) t := by
  induction bs generalizing va s with
  | nil => rfl
  | cons b bs ih =>
    rw [vaWrite, vaWrite, locate_withStorage]
    split
    · rw [withStorage_spaceSet, ih]
    · exact ih _ _

theorem piecesFrom_withStorage (slot : Nat) (s t : State) (n va stop : Nat) :
    piecesFrom slot (withStorage s t) n va stop = piecesFrom slot s n va stop := by
  induction n generalizing va with
  | zero => rfl
  | succ n ih => simp only [piecesFrom, locate_withStorage, ih]

theorem withStorage_vaStore (slot va : Nat) (bs : List Byte) (s t : State) :
    vaStore slot va bs (withStorage s t) = withStorage (vaStore slot va bs s) t := by
  rw [vaStore, pieces, piecesFrom_withStorage]
  exact withStorage_vaWrite slot va bs (unpoison (pieces slot va bs.length s) s) t

/-- Where channels, memory and ports agree, a store leaves them agreeing. -/
theorem storage_vaStore_congr {s t : State} (h : storage t = storage s) (slot va : Nat) (bs : List Byte) :
    storage (vaStore slot va bs t) = storage (vaStore slot va bs s) := by
  rw [← withStorage_of_eq h, withStorage_vaStore]
  rfl

theorem sameMemory_of_storage {s t : State} (h : storage t = storage s) : SameMemory s t := by
  simp only [storage, Prod.mk.injEq] at h
  obtain ⟨-, hmem, hportA, hportB⟩ := h
  exact ⟨hmem, congrArg PortSt.mem hportA, congrArg PortSt.mem hportB⟩

/-- A state without the fast tier and host memory. -/
def besideMemory (s : State) : State :=
  { s with memory := {}, portA := { s.portA with mem := [] }, portB := { s.portB with mem := [] } }

theorem besideMemory_spaceSet (sp a : Nat) (v : Byte) (s : State) : besideMemory (spaceSet sp a v s) = besideMemory s := by
  unfold spaceSet
  split
  · rfl
  · split <;> rfl
  · split <;> rfl

theorem besideMemory_vaWrite (slot va : Nat) (bs : List Byte) (s : State) : besideMemory (vaWrite slot va bs s) = besideMemory s := by
  induction bs generalizing va s with
  | nil => rfl
  | cons b bs ih =>
    rw [vaWrite, ih]
    split
    · exact besideMemory_spaceSet _ _ _ s
    · rfl

/-- A store changes memory alone. -/
theorem besideMemory_vaStore (slot va : Nat) (bs : List Byte) (s : State) : besideMemory (vaStore slot va bs s) = besideMemory s :=
  besideMemory_vaWrite _ _ _ _

theorem cores_vaStore (slot va : Nat) (bs : List Byte) (s : State) : (vaStore slot va bs s).cores = s.cores :=
  (congrArg State.cores (besideMemory_vaStore slot va bs s)).trans rfl

/-! ## DMA_COMPLETE (R145)

`Stores` speaks of every space number, and `spaceGet` reads host memory behind Port B for each one above 1. The pieces of a region name
it as space 2 alone, so a store behind Port B changes space 3 outside every piece. -/

/-- A DST of one byte that has its bytes and goes to host memory behind Port B. -/
def storeToPortB : DmaOp :=
  { seq := 0, toMem := true, tok := none, mem := 0, desk := 0, len := 1, dlen := 1, sfmt := 0, dfmt := 0, round := 0, codec := 0, tag := none
    data := some [1], flags := 0 }

/-- A channel whose page 0 lies behind Port B. -/
def chanBehindPortB : Chan := { handle := 0, cls := 0, owner := .A, pages := [(0, { kind := .slow .B 0, readOnly := false })] }

/-- A state in which that DST waits to land. -/
def beforePortBStore : State := { cores := [(0, { dmas := [storeToPortB] })], slots := [(0, { chan := some chanBehindPortB })] }

/-- Refutes O16: a DST that lands behind Port B changes what space 3 reads, which no piece of its region names. -/
theorem not_dmaIssuesAndLands : ¬ Obligations.DmaIssuesAndLands := by
  intro ⟨_, hlands⟩
  obtain ⟨t, -, -, -, -, -, hstores⟩ := hlands 0 beforePortBStore true storeToPortB [1] rfl rfl rfl (by decide)
  obtain ⟨⟨⟨-, -, hportB⟩, hothers⟩, -⟩ := hstores rfl
  have hkept : spaceGet 3 0 t = spaceGet 3 0 beforePortBStore :=
    hothers 3 0 fun p hp h3 => absurd h3 ((by decide : ∀ p ∈ pieces 0 0 1 beforePortBStore, p.1 ≠ 3) p hp)
  have hstored : memGet (vaStore 0 0 [1] beforePortBStore).portB.mem 0 = 1 := by decide
  exact absurd ((congrArg (memGet · 0) hportB).trans hstored) (by rw [show memGet t.portB.mem 0 = 0 from hkept]; decide)

end Sys2Proof.Machine
end

section
/-!
What the end of a lesson leaves of its cores (Machine/Lessons.lean, R105, R141, R159), tokens (R138), and the accesses of a core that
land later: NARROW (R147) and the operations of the Tile Array (chapter 04).
-/

namespace Sys2Proof.Machine

/-! ## Cores that stop or halt -/

/-- A core without what stopping its lesson changes. -/
def besideStop (k : Core) : Core :=
  { k with seq := { k.seq with running := false }, preds := [], waitPop := none, waitEv := none, waitBar := none, halting := false
           halted := false, reseed := none }

/-- A core without what stopping or ending its lesson changes. -/
def besideHalt (k : Core) : Core := { besideStop k with vec := {}, tile := { k.tile with entries := [] } }

/-- A state without cores and runs. -/
def besideLessons (s : State) : State := { s with cores := [], runs := [] }

/-- Each prediction of a core in `t` carries the handle of one in `s`. -/
def HandlesKept (s t : State) : Prop := ∀ d : Nat, ∀ q ∈ (coreOf d t).preds, ∃ p ∈ (coreOf d s).preds, p.handle = q.handle

/-- From `s` to `t` lessons may have stopped, and nothing else has changed. -/
def OnlyStops (s t : State) : Prop :=
  besideLessons t = besideLessons s ∧ (∀ d : Nat, besideStop (coreOf d t) = besideStop (coreOf d s)) ∧ HandlesKept s t

/-- From `s` to `t` lessons may have stopped or ended, and nothing else has changed. -/
def OnlyEnds (s t : State) : Prop :=
  besideLessons t = besideLessons s ∧ (∀ d : Nat, besideHalt (coreOf d t) = besideHalt (coreOf d s)) ∧ HandlesKept s t

theorem HandlesKept.refl (s : State) : HandlesKept s s := fun _ q hq => ⟨q, hq, rfl⟩

theorem HandlesKept.trans {s t u : State} (h : HandlesKept s t) (k : HandlesKept t u) : HandlesKept s u := by
  intro d q hq
  obtain ⟨p, hp, hpq⟩ := k d q hq
  obtain ⟨o, ho, hop⟩ := h d p hp
  exact ⟨o, ho, hop.trans hpq⟩

theorem OnlyStops.refl (s : State) : OnlyStops s s := ⟨rfl, fun _ => rfl, HandlesKept.refl s⟩

theorem OnlyStops.trans {s t u : State} (h : OnlyStops s t) (k : OnlyStops t u) : OnlyStops s u := by
  obtain ⟨hbeside, hcores, hpreds⟩ := h
  obtain ⟨kbeside, kcores, kpreds⟩ := k
  exact ⟨kbeside.trans hbeside, fun d => (kcores d).trans (hcores d), hpreds.trans kpreds⟩

theorem OnlyEnds.trans {s t u : State} (h : OnlyEnds s t) (k : OnlyEnds t u) : OnlyEnds s u := by
  obtain ⟨hbeside, hcores, hpreds⟩ := h
  obtain ⟨kbeside, kcores, kpreds⟩ := k
  exact ⟨kbeside.trans hbeside, fun d => (kcores d).trans (hcores d), hpreds.trans kpreds⟩

theorem besideHalt_of_besideStop {k j : Core} (h : besideStop k = besideStop j) : besideHalt k = besideHalt j :=
  congrArg (fun x : Core => { x with vec := {}, tile := { x.tile with entries := [] } }) h

theorem OnlyStops.ends {s t : State} (h : OnlyStops s t) : OnlyEnds s t := by
  obtain ⟨hbeside, hcores, hpreds⟩ := h
  exact ⟨hbeside, fun d => besideHalt_of_besideStop (hcores d), hpreds⟩

theorem handles_squashAll (k : Core) : ∀ q ∈ (squashAll k).preds, ∃ p ∈ k.preds, p.handle = q.handle := by
  intro q hq
  obtain ⟨p, hp, rfl⟩ := List.mem_map.1 hq
  refine ⟨p, List.mem_of_mem_filter hp, ?_⟩
  split <;> rfl

theorem handlesKept_modCore {c : Nat} {f : Core → Core} {s : State} (h : ∀ q ∈ (f (coreOf c s)).preds, ∃ p ∈ (coreOf c s).preds, p.handle = q.handle) :
    HandlesKept s (modCore c f s) := by
  intro d q hq
  by_cases hd : d = c
  · subst hd
    rw [coreOf_modCore] at hq
    exact h q hq
  · rw [coreOf_modCore_other _ _ _ _ hd] at hq
    exact ⟨q, hq, rfl⟩

theorem onlyStops_modCore_haltStopped (c : Nat) (s : State) : OnlyStops s (modCore c haltStopped s) := by
  refine ⟨rfl, fun d => ?_, handlesKept_modCore (handles_squashAll _)⟩
  by_cases hd : d = c
  · subst hd
    rw [coreOf_modCore]
    rfl
  · rw [coreOf_modCore_other _ _ _ _ hd]

theorem onlyStops_stopRun (r : Nat) (status : BitVec 8) (detail : BitVec 16) (result0 : Word) (s : State) :
    OnlyStops s (stopRun r status detail result0 s) := by
  have hcores : ∀ (cs : List Nat) (t : State), OnlyStops t (cs.foldl (fun s c => modCore c haltStopped s) t) := by
    intro cs
    induction cs with
    | nil => exact OnlyStops.refl
    | cons c cs ih => exact fun t => (onlyStops_modCore_haltStopped c t).trans (ih _)
  unfold stopRun
  split
  · exact OnlyStops.refl s
  · next u _ =>
    exact OnlyStops.trans (t := modRun r (fun x => { x with stop := some (x.stop.getD (status, detail, result0)) }) s)
      ⟨rfl, fun _ => rfl, HandlesKept.refl s⟩ (hcores u.cores _)

theorem onlyStops_stopCoreAt (c : Nat) (detail : BitVec 16) (result0 : Word) (s : State) : OnlyStops s (stopCoreAt c detail result0 s) := by
  unfold stopCoreAt
  split
  · exact onlyStops_modCore_haltStopped c s
  · exact onlyStops_stopRun _ _ _ _ s

theorem onlyStops_settleWaits (r : Nat) (s : State) : OnlyStops s (settleWaits r s) := by
  unfold settleWaits
  split
  · exact OnlyStops.refl s
  · split
    · exact OnlyStops.refl s
    · exact onlyStops_stopCoreAt _ _ _ s

theorem besideHalt_settleHalt (k : Core) : besideHalt (settleHalt k) = besideHalt k := by
  unfold settleHalt
  split <;> rfl

theorem handles_settleHalt (k : Core) : ∀ q ∈ (settleHalt k).preds, ∃ p ∈ k.preds, p.handle = q.handle := by
  unfold settleHalt
  split
  · exact handles_squashAll k
  · exact fun q hq => ⟨q, hq, rfl⟩

theorem onlyEnds_modCore_settleHalt (c : Nat) (s : State) : OnlyEnds s (modCore c settleHalt s) := by
  refine ⟨rfl, fun d => ?_, handlesKept_modCore (handles_settleHalt _)⟩
  by_cases hd : d = c
  · subst hd
    rw [coreOf_modCore, besideHalt_settleHalt]
  · rw [coreOf_modCore_other _ _ _ _ hd]

theorem onlyEnds_settleCore (c : Nat) (s : State) : OnlyEnds s (settleCore c s) := by
  unfold settleCore
  split
  · exact (onlyStops_stopCoreAt _ _ _ s).ends
  · extract_lets t
    have ht : OnlyEnds s t := onlyEnds_modCore_settleHalt c s
    split
    · split
      · exact ht.trans (onlyStops_settleWaits _ t).ends
      · exact ht
    · exact ht

/-- A core that is not halting keeps its vector state and entries as its run settles. -/
theorem onlyStops_settleCore {c : Nat} {s : State} (h : (coreOf c s).halting = false) : OnlyStops s (settleCore c s) := by
  have hkeep : OnlyStops s (modCore c settleHalt s) := by
    refine ⟨rfl, fun d => ?_, handlesKept_modCore (handles_settleHalt _)⟩
    by_cases hd : d = c
    · subst hd
      rw [coreOf_modCore, settleHalt, h, Bool.false_and, if_neg Bool.false_ne_true]
    · rw [coreOf_modCore_other _ _ _ _ hd]
  unfold settleCore
  rw [h, Bool.false_and, if_neg Bool.false_ne_true]
  extract_lets t
  split
  · split
    · exact hkeep.trans (onlyStops_settleWaits _ _)
    · exact hkeep
  · exact hkeep

theorem OnlyEnds.sameMemory {s t : State} (h : OnlyEnds s t) : SameMemory s t :=
  have hmem := congrArg State.memory h.1
  have hportA := congrArg (fun u : State => u.portA.mem) h.1
  have hportB := congrArg (fun u : State => u.portB.mem) h.1
  ⟨hmem, hportA, hportB⟩

theorem OnlyEnds.desk {s t : State} (h : OnlyEnds s t) (d : Nat) : (coreOf d t).desk = (coreOf d s).desk :=
  have hdesk := congrArg Core.desk (h.2.1 d)
  hdesk

theorem OnlyEnds.tok {s t : State} (h : OnlyEnds s t) (d : Nat) : (coreOf d t).seq.tok = (coreOf d s).seq.tok :=
  have htok := congrArg (fun k : Core => k.seq.tok) (h.2.1 d)
  htok

theorem OnlyEnds.narrows {s t : State} (h : OnlyEnds s t) (d : Nat) : (coreOf d t).narrows = (coreOf d s).narrows :=
  have hnarrows := congrArg Core.narrows (h.2.1 d)
  hnarrows

theorem OnlyEnds.disp {s t : State} (h : OnlyEnds s t) (d : Nat) : (coreOf d t).disp = (coreOf d s).disp :=
  have hdisp := congrArg Core.disp (h.2.1 d)
  hdisp

/-! ## Tokens (R138) -/

theorem getElem_tok_setTok (t : Option (Fin 16)) (b : Bool) (q : Seq) (i : Fin 16) :
    (setTok t b q).tok[i] = if t = some i then b else q.tok[i] := by
  cases t with
  | none => simp [setTok]
  | some j =>
    simp only [setTok, Option.some.injEq, Fin.getElem_fin, Fin.ext_iff]
    exact Vector.getElem_set ..

theorem setTok_pc (t : Option (Fin 16)) (b : Bool) (q : Seq) : (setTok t b q).pc = q.pc := by cases t <;> rfl

theorem setTok_code (t : Option (Fin 16)) (b : Bool) (q : Seq) : (setTok t b q).code = q.code := by cases t <;> rfl

/-- An operation that ends makes its token ready, whatever lessons end with it. -/
theorem tokenReady_of_ends {c : Nat} {tok : Option (Fin 16)} {s u t : State} (hu : (coreOf c u).seq.tok = (setTok tok true (coreOf c s).seq).tok)
    (h : OnlyEnds u t) : TokenReady c tok s t := by
  intro i
  rw [h.tok c, hu]
  exact getElem_tok_setTok tok true _ i

theorem withCoreTok_free {c : Fin 192} {n : Nat} {body : Option (Fin 16) → State → State} {s : State} (h : TokenFree c n s) :
    withCoreTok c n body s = body (tokField n) s := by
  obtain ⟨hreserved, hready⟩ := h
  simp only [withCoreTok, hreserved, hready, Bool.not_true, Bool.false_eq_true, if_false]

/-! ## The issue of an operation under a token (R137, R138) -/

/-- An operation of a core joins its units and the core goes on: what its registers and units then hold. -/
theorem advance_begun {c : Fin 192} {n : Nat} {f : Core → Core} {q : Seq} {s : State} (hn : NextInside (.core c) s)
    (hpc : ∀ k, (f k).seq.pc = k.seq.pc) (hcode : ∀ k, (f k).seq.code = k.seq.code)
    (hseq : (f (coreOf c s)).seq = setTok (tokField n) false q) (hnum : (f (coreOf c s)).nseq = (coreOf c s).nseq + 1) :
    let t := advance (.core c) (modCore c f s)
    OnlyCore c s t ∧ Begun c n q s t ∧ besideSeq (coreOf c t) = besideSeq (f (coreOf c s)) := by
  obtain ⟨honly, hq, hbeside⟩ := advance_core_cases c f s hpc hcode hn
  exact ⟨honly, ⟨hq.trans (congrArg nextSeq hseq), (congrArg Core.nseq hbeside).trans hnum⟩, hbeside⟩

theorem OnlyCore.desks {c : Fin 192} {s t : State} (h : OnlyCore c s t) (hdesk : (coreOf c t).desk = (coreOf c s).desk) (d : Nat) :
    (coreOf d t).desk = (coreOf d s).desk := by
  by_cases hd : d = c
  · rw [hd, hdesk]
  · rw [h.2.2.2 d hd]

/-! ## NARROW (R147, R255, R256) -/

/-- A state without runs and the free counter: what noting a write and drawing free values leave. -/
def besideNotes (s : State) : State := { s with runs := [], free := 0 }

theorem besideNotes_noteWrite (c va len : Nat) (s : State) : besideNotes (noteWrite c va len s) = besideNotes s := by
  unfold noteWrite
  split
  · split <;> rfl
  · rfl

theorem besideNotes_foldl_noteWrite (c : Nat) (items : List (Nat × Nat)) (s : State) :
    besideNotes (items.foldl (fun s x => noteWrite c x.1 itemSize s) s) = besideNotes s := by
  induction items generalizing s with
  | nil => rfl
  | cons x items ih => exact (ih _).trans (besideNotes_noteWrite c x.1 itemSize s)

theorem besideNotes_deskDraw (c a n : Nat) (s : State) : besideNotes (deskDraw c a n s) = besideNotes s := by
  obtain ⟨m, hm⟩ := deskDraw_cases c a n s
  rw [hm]
  rfl

/-- A NARROW joins its core's unit. -/
def beginNarrow (o : NarrowOp) (k : Core) : Core := { beginOp o.tok k with narrows := k.narrows ++ [o] }

theorem narrowData_addresses (c : Nat) (gather : Bool) (items : List (Nat × Nat)) (s : State) :
    (narrowData c gather items s).map (fun i => (i.1, i.2.1)) = items := by
  rw [narrowData, List.map_map]
  exact List.map_id items

theorem narrowData_gather {c : Nat} {items : List (Nat × Nat)} {s : State} :
    ∀ i ∈ narrowData c true items s, i.2.2 = vaRead (coreSlot c s) i.1 32 s := by
  intro i hi
  obtain ⟨x, -, rfl⟩ := List.mem_map.1 hi
  rfl

/-- A NARROW that its token, unit, Desk and memory allow joins its unit. -/
theorem narrowBody_eq {c : Fin 192} {w : Word} {func : Nat} {s : State} (ht : TokenFree c (fld w 25 5) s)
    (hl : (coreOf c s).narrows.length < 4) (hd : ∀ x ∈ narrowItems (coreOf c s) w, x.2 + 32 ≤ 4194304)
    (hf : narrowFault c (func == 0 || decide (2 ≤ func)) (func != 0) (decide (2 ≤ func)) (narrowItems (coreOf c s) w) s = none)
    (ha : 2 ≤ func → atomicType (fld w 33 4) = true ∧ ∀ u, coreRun c s = some u → u.step = none) :
    ∃ (u : State) (o : NarrowOp), besideNotes u = besideNotes s ∧ o.func = func ∧ o.tok = tokField (fld w 25 5) ∧
      o.items.map (fun i => (i.1, i.2.1)) = narrowItems (coreOf c s) w ∧
      (func = 0 → ∀ i ∈ o.items, i.2.2 = vaRead (coreSlot c s) i.1 32 s) ∧
      narrowBody c w func s = advance (.core c) (modCore c (beginNarrow o) u) := by
  have hatomic : (decide (2 ≤ func) && (!atomicType (fld w 33 4) || ((coreRun c s).bind fun u => u.step).isSome)) = false := by
    simp only [Bool.and_eq_false_imp, decide_eq_true_eq, Bool.or_eq_false_iff, Bool.not_eq_false']
    intro h
    obtain ⟨htype, hstep⟩ := ha h
    refine ⟨htype, ?_⟩
    cases hrun : coreRun c s with
    | none => rfl
    | some u => simp [hstep u hrun]
  have hspan : ((narrowItems (coreOf c s) w).any fun x => !deskSpan x.2 itemSize) = false := by
    refine List.any_eq_false.2 fun x hx => ?_
    rw [deskSpan, decide_eq_true (show x.2 + itemSize ≤ deskBytes from hd x hx)]
    exact Bool.false_ne_true
  simp only [bne] at hf
  simp only [narrowBody, hatomic, Bool.false_eq_true, if_false, withCoreTok_free ht, if_neg (Nat.not_le.2 hl), hspan, hf]
  refine ⟨_, ⟨_, func, tokField (fld w 25 5), _, _, _⟩, ?_, rfl, rfl, narrowData_addresses _ _ _ _, fun h0 => ?_, rfl⟩
  · split
    · split
      · rfl
      · exact besideNotes_foldl_noteWrite _ _ s
    · split
      · exact besideNotes_deskDraw _ _ _ s
      · exact (besideNotes_deskDraw _ _ _ _).trans (besideNotes_foldl_noteWrite _ _ s)
  · subst h0
    exact narrowData_gather

theorem completes_narrow {c : Fin 192} {w : Word} {func : Nat} {s : State} {i : Instr} (hn : NextInside (.core c) s)
    (ht : TokenFree c (fld w 25 5) s) (hl : (coreOf c s).narrows.length < 4)
    (hd : ∀ x ∈ narrowItems (coreOf c s) w, x.2 + 32 ≤ 4194304)
    (hexec : exec i s = instr (.core c) w 0x11 func (narrowBody c w func) s)
    (hf : narrowFault c (func == 0 || decide (2 ≤ func)) (func != 0) (decide (2 ≤ func)) (narrowItems (coreOf c s) w) s = none)
    (ha : 2 ≤ func → atomicType (fld w 33 4) = true ∧ ∀ u, coreRun c s = some u → u.step = none) (hi : Issues (.core c) w 0x11 func s) :
    Completes i s fun t => SameMemory s t ∧ (∀ d : Nat, (coreOf d t).desk = (coreOf d s).desk) ∧
      Begun c (fld w 25 5) (coreOf c s).seq s t ∧ ∃ o : NarrowOp, (coreOf c t).narrows = (coreOf c s).narrows ++ [o] ∧
        o.func = func ∧ o.tok = tokField (fld w 25 5) ∧ o.items.map (fun i => (i.1, i.2.1)) = narrowItems (coreOf c s) w ∧
        (func = 0 → ∀ i ∈ o.items, i.2.2 = vaRead (coreSlot c s) i.1 32 s) := by
  obtain ⟨u, o, hnotes, hfunc, htok, haddr, hdata, hbody⟩ := narrowBody_eq ht hl hd hf ha
  have hcores : u.cores = s.cores := (congrArg State.cores hnotes).trans rfl
  have hmem := congrArg State.memory hnotes
  have hportA := congrArg (fun x : State => x.portA.mem) hnotes
  have hportB := congrArg (fun x : State => x.portB.mem) hnotes
  have hcore := coreOf_congr hcores
  have hin : NextInside (.core c) u := by
    show (coreOf c u).seq.pc + 1 < (coreOf c u).seq.code.length
    rw [hcore]
    exact hn
  obtain ⟨honly, ⟨hseq, hnum⟩, hbeside⟩ := advance_begun (n := fld w 25 5) (f := beginNarrow o) (q := (coreOf c u).seq) hin
    (fun _ => setTok_pc _ _ _) (fun _ => setTok_code _ _ _) (by rw [← htok]; rfl) rfl
  have hdesk := congrArg Core.desk hbeside
  have hnarrows := congrArg Core.narrows hbeside
  rw [hcore] at hseq hnum
  refine ⟨_, hexec.trans ((instr_issues _ hi).trans (congrArg _ hbody)), ?_, fun d => ?_, ⟨hseq, hnum⟩, o, ?_, hfunc, htok, haddr, hdata⟩
  · exact SameMemory.trans (t := u) ⟨hmem, hportA, hportB⟩ honly.draws.sameMemory
  · rw [honly.desks hdesk d, hcore]
  · rw [← hcore]
    exact hnarrows

/-! ### NARROW_COMPLETE -/

/-- A core without what the items of a NARROW change as they land. -/
def besideLanding (k : Core) : Core := { k with desk := [], vec := {}, dmas := [], narrows := k.narrows.map fun o => { o with items := [] } }

/-- From `s` to `t` items of a NARROW of a core have landed: Desk, flags and memory may have changed. -/
def ItemsLand (c : Nat) (s t : State) : Prop :=
  t.runs = s.runs ∧ besideLanding (coreOf c t) = besideLanding (coreOf c s) ∧ ∀ d : Nat, d ≠ c → coreOf d t = coreOf d s

theorem ItemsLand.trans {c : Nat} {s t u : State} (h : ItemsLand c s t) (k : ItemsLand c t u) : ItemsLand c s u := by
  obtain ⟨hruns, hcore, hother⟩ := h
  obtain ⟨kruns, kcore, kother⟩ := k
  exact ⟨kruns.trans hruns, kcore.trans hcore, fun d hd => (kother d hd).trans (hother d hd)⟩

theorem itemsLand_deskWrite (c : Fin 192) (a : Nat) (bs : List Byte) (s : State) : ItemsLand c s (deskWrite c a bs s) := by
  obtain ⟨m, hm⟩ := deskDraw_cases c a bs.length (modCore c (deskPut s.free a bs) s)
  rw [deskWrite, hm]
  refine ⟨rfl, ?_, fun d hd => coreOf_modCore_other _ _ _ _ hd⟩
  have hcore : coreOf c { modCore c (deskPut s.free a bs) s with free := m } = deskPut s.free a bs (coreOf c s) := coreOf_modCore _ _ _
  rw [hcore]
  simp only [besideLanding, deskPut, List.map_map]
  congr 1
  refine List.map_congr_left fun o _ => ?_
  simp only [Function.comp_apply]
  split <;> rfl

theorem itemsLand_vaStore (c slot va : Nat) (bs : List Byte) (s : State) : ItemsLand c s (vaStore slot va bs s) := by
  have hcores := coreOf_congr (cores_vaStore slot va bs s)
  have hruns := congrArg State.runs (besideMemory_vaStore slot va bs s)
  exact ⟨hruns, by rw [hcores], fun d _ => hcores d⟩

theorem itemsLand_modVec (c : Nat) (f : VecSt → VecSt) (s : State) : ItemsLand c s (modCore c (fun k => { k with vec := f k.vec }) s) :=
  ⟨rfl, by rw [coreOf_modCore]; rfl, fun _ hd => coreOf_modCore_other _ _ _ _ hd⟩

theorem itemsLand_landItem (c : Fin 192) (o : NarrowOp) (x : Nat × Nat × List Byte) (s : State) : ItemsLand c s (landItem c o x s) := by
  unfold landItem
  extract_lets slot
  split
  · exact itemsLand_deskWrite c _ _ s
  · exact itemsLand_vaStore _ _ _ _ s
  · exact (itemsLand_vaStore _ _ _ _ s).trans (itemsLand_modVec _ _ _)

theorem coreSlot_of_itemsLand {c : Nat} {s t : State} (h : ItemsLand c s t) : coreSlot c t = coreSlot c s := by
  obtain ⟨hruns, hcore, -⟩ := h
  have hrun := congrArg Core.run hcore
  simp only [coreSlot, coreRun, runOf, hruns]
  rw [show (coreOf c t).run = (coreOf c s).run from hrun]

theorem itemsLand_foldl (c : Fin 192) (o : NarrowOp) (items : List (Nat × Nat × List Byte)) (s : State) :
    ItemsLand c s (items.foldl (fun s x => landItem c o x s) s) := by
  induction items generalizing s with
  | nil => exact ⟨rfl, rfl, fun _ _ => rfl⟩
  | cons x items ih => exact (itemsLand_landItem c o x s).trans (ih _)

theorem landItem_gather {c : Nat} {o : NarrowOp} (h : o.func = 0) (x : Nat × Nat × List Byte) (s : State) :
    landItem c o x s = deskWrite c x.2.1 x.2.2 s := by
  simp only [landItem, h]

theorem landItem_scatter {c : Nat} {o : NarrowOp} (h : o.func = 1) (x : Nat × Nat × List Byte) (s : State) :
    landItem c o x s = vaStore (coreSlot c s) x.1 x.2.2 s := by
  simp only [landItem, h]

/-- What an atomic stores for an item. -/
def atomicStore (slot : Nat) (o : NarrowOp) (x : Nat × Nat × List Byte) (s : State) : State :=
  vaStore slot x.1 (atomicItem o.func o.atype (vaRead slot x.1 32 s) x.2.2).1 s

theorem landItem_atomic {c : Nat} {o : NarrowOp} (h : 2 ≤ o.func) (x : Nat × Nat × List Byte) (s : State) :
    ∃ f : VecSt → VecSt, landItem c o x s = modCore c (fun k => { k with vec := f k.vec }) (atomicStore (coreSlot c s) o x s) := by
  refine ⟨raiseVec (atomicItem o.func o.atype (vaRead (coreSlot c s) x.1 32 s) x.2.2).2, ?_⟩
  unfold landItem
  split
  · omega
  · omega
  · rfl

/-- Items that go to memory leave the Desk. -/
theorem landItem_desk {c : Nat} {o : NarrowOp} (h : o.func ≠ 0) (x : Nat × Nat × List Byte) (s : State) :
    (coreOf c (landItem c o x s)).desk = (coreOf c s).desk := by
  by_cases h1 : o.func = 1
  · rw [landItem_scatter h1, coreOf_congr (cores_vaStore _ _ _ s)]
  · obtain ⟨f, hf⟩ := landItem_atomic (c := c) (o := o) (by omega) x s
    rw [hf, coreOf_modCore]
    show (coreOf c (vaStore _ _ _ s)).desk = _
    rw [coreOf_congr (cores_vaStore _ _ _ s)]

theorem foldl_landItem_desk {c : Nat} {o : NarrowOp} (h : o.func ≠ 0) (items : List (Nat × Nat × List Byte)) (s : State) :
    (coreOf c (items.foldl (fun s x => landItem c o x s) s)).desk = (coreOf c s).desk := by
  induction items generalizing s with
  | nil => rfl
  | cons x items ih => exact (ih _).trans (landItem_desk h x s)

theorem foldl_landItem_gather {c : Fin 192} {o : NarrowOp} (h : o.func = 0) (items : List (Nat × Nat × List Byte)) (s : State) :
    let t := items.foldl (fun s x => landItem c o x s) s
    SameMemory s t ∧ (coreOf c t).desk = items.foldl (fun m i => memWrite m i.2.1 i.2.2) (coreOf c s).desk := by
  have hfold : items.foldl (fun s x => landItem c o x s) s = (items.map fun x => x.2).foldl (fun s x => deskWrite c x.1 x.2 s) s := by
    simp only [landItem_gather h, List.foldl_map]
  obtain ⟨honly, hdesk, -⟩ := foldl_deskWrite_cases c (items.map fun x => x.2) s
  rw [hfold]
  exact ⟨honly.sameMemory, hdesk.trans (List.foldl_map ..)⟩

theorem vaRead_congr {s t : State} (h : storage t = storage s) (slot va n : Nat) : vaRead slot va n t = vaRead slot va n s := by
  rw [← withStorage_of_eq h]
  rfl

/-- Where a step that lands an item stores as `store` does, the items store as `store` does one after another. -/
theorem foldl_landItem_storage {c : Fin 192} {o : NarrowOp} {slot : Nat} {store : Nat × Nat × List Byte → State → State}
    (hstep : ∀ (x : Nat × Nat × List Byte) (u v : State), coreSlot c u = slot → storage u = storage v →
      storage (landItem c o x u) = storage (store x v))
    (items : List (Nat × Nat × List Byte)) (u v : State) (hslot : coreSlot c u = slot) (h : storage u = storage v) :
    storage (items.foldl (fun s x => landItem c o x s) u) = storage (items.foldl (fun s x => store x s) v) := by
  induction items generalizing u v with
  | nil => exact h
  | cons x items ih =>
    exact ih _ _ ((coreSlot_of_itemsLand (itemsLand_landItem c o x u)).trans hslot) (hstep x u v hslot h)

theorem storage_landItem_scatter {c : Fin 192} {o : NarrowOp} {slot : Nat} (ho : o.func = 1) (x : Nat × Nat × List Byte) (u v : State)
    (hslot : coreSlot c u = slot) (h : storage u = storage v) :
    storage (landItem c o x u) = storage (vaStore slot x.1 x.2.2 v) := by
  rw [landItem_scatter ho, hslot]
  exact storage_vaStore_congr h _ _ _

theorem storage_landItem_atomic {c : Fin 192} {o : NarrowOp} {slot : Nat} (ho : 2 ≤ o.func) (x : Nat × Nat × List Byte) (u v : State)
    (hslot : coreSlot c u = slot) (h : storage u = storage v) :
    storage (landItem c o x u) = storage (atomicStore slot o x v) := by
  obtain ⟨f, hf⟩ := landItem_atomic ho x u
  rw [hf, hslot]
  show storage (atomicStore slot o x u) = _
  rw [atomicStore, atomicStore, vaRead_congr h]
  exact storage_vaStore_congr h _ _ _

theorem map_seq_besideLanding (k : Core) : (besideLanding k).narrows.map (fun x => x.seq) = k.narrows.map fun x => x.seq := by
  rw [besideLanding, List.map_map]
  rfl

theorem bne_eq_decide_ne (a b : Nat) : (a != b) = decide (a ≠ b) := by
  rw [bne, decide_not]
  rfl

/-- A core whose NARROW has left its unit. -/
def leaveNarrow (seq : Nat) (o : NarrowOp) (k : Core) : Core := endOp o.tok { k with narrows := k.narrows.filter fun x => x.seq != seq }

/-- The state in which a NARROW has left its unit and its items begin to land. -/
def narrowLeaves (c : Fin 192) (seq : Nat) (o : NarrowOp) (s : State) : State :=
  countCard 7 o.items.length (modCore c (leaveNarrow seq o) s)

theorem execNarrowComplete_eq {c : Fin 192} {seq : Nat} {o : NarrowOp} {s : State}
    (ho : (coreOf c s).narrows.find? (fun o => o.seq == seq) = some o) (hlate : o.late = false) (hheld : narrowHeld c o s = false) :
    execNarrowComplete c seq s = .next (settleCore c (o.items.foldl (fun s x => landItem c o x s) (narrowLeaves c seq o s))) := by
  simp only [execNarrowComplete, ho, hlate, hheld, Bool.false_and, Bool.or_false, Bool.false_eq_true, if_false]
  rfl

/-- Settles O17: a NARROW joins its unit, and as it completes its items land one after another, whatever lessons end with it. -/
theorem narrowAccessesIssueAndLand : Obligations.NarrowAccessesIssueAndLand := by
  refine ⟨fun c w s hn ht hl hd => ?issue, fun c s seq o ho hlate hheld => ?land⟩
  case issue =>
    have hfunc : ∀ (i : Instr) (func : Nat), exec i s = instr (.core c) w 0x11 func (narrowBody c w func) s → _ :=
      fun i func hexec hf ha hi => completes_narrow (i := i) (func := func) hn ht hl hd hexec hf ha hi
    exact List.forall_mem_cons.2 ⟨hfunc (.gather c w) 0 rfl, List.forall_mem_cons.2 ⟨hfunc (.scatter c w) 1 rfl,
      List.forall_mem_cons.2 ⟨hfunc (.sadd c w) 2 rfl, List.forall_mem_cons.2 ⟨hfunc (.smin c w) 3 rfl,
      List.forall_mem_cons.2 ⟨hfunc (.smax c w) 4 rfl, List.forall_mem_nil _⟩⟩⟩⟩⟩
  case land =>
    have hexec := execNarrowComplete_eq ho hlate hheld
    have hcore : coreOf c (narrowLeaves c seq o s) = leaveNarrow seq o (coreOf c s) := coreOf_modCore c (leaveNarrow seq o) s
    have hrun : coreSlot c (narrowLeaves c seq o s) = coreSlot c s := by
      simp only [coreSlot, coreRun, hcore]
      rfl
    have hstore : storage (narrowLeaves c seq o s) = storage s := rfl
    obtain ⟨hruns, hland, hother⟩ := itemsLand_foldl c o o.items (narrowLeaves c seq o s)
    have hends := onlyEnds_settleCore c (o.items.foldl (fun s x => landItem c o x s) (narrowLeaves c seq o s))
    have htok := congrArg (fun k : Core => k.seq.tok) hland
    have hseqs := congrArg (fun k : Core => k.narrows.map fun x => x.seq) hland
    simp only [map_seq_besideLanding, hcore] at hseqs
    refine ⟨_, hexec, ?_, tokenReady_of_ends (htok.trans ?_) hends, fun d hd => ?_, fun h => ?_, fun h => ?_, fun h => ?_, fun h => ?_⟩
    · rw [hends.narrows c, hseqs]
      simp only [leaveNarrow, endOp, bne_eq_decide_ne]
    · rw [hcore]; rfl
    · rw [hends.desk d, hother d hd]
      exact congrArg Core.desk (coreOf_modCore_other _ _ _ _ hd)
    · obtain ⟨hmem, hdesk⟩ := foldl_landItem_gather (c := c) h o.items (narrowLeaves c seq o s)
      rw [hcore] at hdesk
      have hlanded := (hends.desk c).trans hdesk
      refine ⟨SameMemory.trans (sameMemory_of_storage hstore) (hmem.trans hends.sameMemory), hlanded, fun a ha => ?_⟩
      rw [hlanded, ← List.foldl_map (f := fun x : Nat × Nat × List Byte => x.2) (g := fun m x => memWrite m x.1 x.2)]
      refine memGet_foldl_memWrite_other _ _ _ fun x hx => ?_
      obtain ⟨i, hi, rfl⟩ := List.mem_map.1 hx
      exact ha i hi
    · rw [hends.desk c, foldl_landItem_desk h, hcore]; rfl
    · exact (sameMemory_of_storage (foldl_landItem_storage (storage_landItem_scatter h) o.items _ s hrun hstore)).trans hends.sameMemory
    · exact (sameMemory_of_storage (foldl_landItem_storage (storage_landItem_atomic h) o.items _ s hrun hstore)).trans hends.sameMemory

end Sys2Proof.Machine
end

section
/-!
The Tile Array (Machine/Tile.lean, chapter 04): FILL, SWAP, STREAM and DRAIN issue, and their fills, passes and drains end.
-/

namespace Sys2Proof.Machine

/-! ## Weight banks (R85, R100) -/

theorem fillBody_eq {c : Fin 192} {w : Word} {s : State} {n : Nat} {b : Bank} (ht : TokenFree c (fld w 24 5) s)
    (hf : feederFmt (fld w 16 4) = true) (hp : fld w 20 4 ≤ 8)
    (hl : coreLegacy c s = true → fld w 20 4 ≤ 1 ∧ (fld w 16 4 = 2 ∨ fld w 16 4 = 3)) (ho : tileOps (coreOf c s).tile < 4)
    (hd : areg (coreOf c s).seq (fld w 12 4) + max (8 * fld w 20 4)
      (fillBytes (coreOf c s) (areg (coreOf c s).seq (fld w 12 4)) (fld w 16 4) (fld w 20 4)) ≤ 4194304)
    (hfence : fenceMeets (coreOf c s) (areg (coreOf c s).seq (fld w 12 4))
      (fillBytes (coreOf c s) (areg (coreOf c s).seq (fld w 12 4)) (fld w 16 4) (fld w 20 4)) = false)
    (hb : fillBank (coreOf c s) s.free (areg (coreOf c s).seq (fld w 12 4)) (fld w 16 4) (fld w 20 4) = some (n, b))
    (hn : areg (coreOf c s).seq (fld w 12 4) + n ≤ 4194304) :
    fillBody c w s = advance (.core c) (deskDraw c (areg (coreOf c s).seq (fld w 12 4)) n
      (modCore c (beginFill (tokField (fld w 24 5)) b) s)) := by
  obtain ⟨hreserved, hready⟩ := ht
  have hlegacy : (coreLegacy c s && (decide (1 < fld w 20 4) || (fld w 16 4 != 2 && fld w 16 4 != 3))) = false := by
    rw [Bool.and_eq_false_imp]
    intro h
    obtain ⟨hpack, hfmt⟩ := hl h
    rcases hfmt with hfmt | hfmt <;> rw [hfmt, decide_eq_false (Nat.not_lt.2 hpack)] <;> rfl
  have hspan : deskSpan (areg (coreOf c s).seq (fld w 12 4)) (max (8 * fld w 20 4)
      (fillBytes (coreOf c s) (areg (coreOf c s).seq (fld w 12 4)) (fld w 16 4) (fld w 20 4))) = true := decide_eq_true hd
  have hspan' : deskSpan (areg (coreOf c s).seq (fld w 12 4)) n = true := decide_eq_true hn
  simp only [fillBody, hf, decide_eq_false (Nat.not_lt.2 hp), hlegacy, hreserved, hready, if_neg (Nat.not_le.2 ho), hspan, hspan', hfence, hb,
    Bool.not_true, Bool.or_false, Bool.false_eq_true, if_false]

theorem completes_swap {c : Fin 192} {w : Word} {s : State} (hn : NextInside (.core c) s) (hi : Issues (.core c) w 0x18 0x01 s) :
    Completes (.swap c w) s fun t => OnlyCore c s t ∧ (coreOf c t).seq = nextSeq (coreOf c s).seq ∧
      (coreOf c t).tile = { (coreOf c s).tile with active1 := !(coreOf c s).tile.active1 } ∧ (coreOf c t).vec = (coreOf c s).vec ∧
      (coreOf c t).desk = (coreOf c s).desk := by
  have hexec : execSwap c w s = .next _ := instr_issues _ hi
  obtain ⟨honly, hseq, hbeside⟩ := advance_core_cases c (fun k => { k with tile := { k.tile with active1 := !k.tile.active1 } }) s
    (fun _ => rfl) (fun _ => rfl) hn
  have htile := congrArg Core.tile hbeside
  have hvec := congrArg Core.vec hbeside
  have hdesk := congrArg Core.desk hbeside
  exact ⟨_, hexec, honly, hseq, htile, hvec, hdesk⟩

/-- A core whose FILL has written its last row. -/
def endFill (f : FillOp) (k : Core) : Core := endOp f.tok { k with tile := { k.tile with fills := k.tile.fills.filter fun x => x.seq != f.seq } }

theorem completes_fillComplete {c : Fin 192} {bank : Bool} {s : State} {f : FillOp}
    (hf : (coreOf c s).tile.fills.find? (fun f => f.bank == bank) = some f)
    (hw : (f.behind.any fun q => (coreOf c s).tile.entries.any fun e => e.seq == q && e.st == .waiting) = false) :
    Completes (.fillComplete c bank) s fun t => SameMemory s t ∧ TokenReady c f.tok s t ∧ (coreOf c t).desk = (coreOf c s).desk ∧
      (coreOf c t).tile.fills = (coreOf c s).tile.fills.filter (fun x => x.seq ≠ f.seq) ∧
      (coreOf c t).tile.bank0 = (coreOf c s).tile.bank0 ∧ (coreOf c t).tile.bank1 = (coreOf c s).tile.bank1 := by
  have hexec : execFillComplete c bank s = .next (settleCore c (modCore c (endFill f) s)) := by
    simp only [execFillComplete, hf, hw, Bool.false_eq_true, if_false]
    rfl
  have hcore : coreOf c (modCore c (endFill f) s) = endFill f (coreOf c s) := coreOf_modCore _ _ _
  have hends := onlyEnds_settleCore c (modCore c (endFill f) s)
  have hfills := congrArg (fun k : Core => k.tile.fills) (hends.2.1 c)
  have hbank0 := congrArg (fun k : Core => k.tile.bank0) (hends.2.1 c)
  have hbank1 := congrArg (fun k : Core => k.tile.bank1) (hends.2.1 c)
  rw [hcore] at hfills hbank0 hbank1
  refine ⟨_, hexec, SameMemory.trans (onlyCore_modCore c (endFill f) s).draws.sameMemory hends.sameMemory, tokenReady_of_ends (by rw [hcore]; rfl) hends,
    by rw [hends.desk c, hcore]; rfl, ?_, hbank0, hbank1⟩
  refine hfills.trans ?_
  simp only [besideHalt, besideStop, endFill, endOp, bne_eq_decide_ne]

/-- A FILL stages its bank and leaves the other one and the entries. -/
theorem beginFill_tile (tok : Option (Fin 16)) (b : Bank) (k : Core) :
    let t := (beginFill tok b k).tile
    bankOf (!k.tile.active1) t = b ∧ bankOf k.tile.active1 t = bankOf k.tile.active1 k.tile ∧ t.active1 = k.tile.active1 ∧
      t.entries = k.tile.entries ∧
      t.fills.map (fun f => (f.seq, f.bank, f.tok)) = k.tile.fills.map (fun f => (f.seq, f.bank, f.tok)) ++ [(k.nseq, !k.tile.active1, tok)] := by
  unfold beginFill
  cases h : k.tile.active1 <;> simp [beginOp, bankOf, setBank, h]

theorem completes_fill {c : Fin 192} {w : Word} {s : State} {n : Nat} {b : Bank} (hin : NextInside (.core c) s)
    (hi : Issues (.core c) w 0x18 0x00 s)
    (hbody : fillBody c w s = advance (.core c) (deskDraw c (areg (coreOf c s).seq (fld w 12 4)) n
      (modCore c (beginFill (tokField (fld w 24 5)) b) s))) :
    Completes (.fill c w) s fun t => OnlyCoreDraws c s t ∧ Begun c (fld w 24 5) (coreOf c s).seq s t ∧
      bankOf (!(coreOf c s).tile.active1) (coreOf c t).tile = b ∧
      bankOf (coreOf c s).tile.active1 (coreOf c t).tile = bankOf (coreOf c s).tile.active1 (coreOf c s).tile ∧
      (coreOf c t).tile.active1 = (coreOf c s).tile.active1 ∧ (coreOf c t).tile.entries = (coreOf c s).tile.entries ∧
      (coreOf c t).desk = (coreOf c s).desk ∧
      (coreOf c t).tile.fills.map (fun f => (f.seq, f.bank, f.tok)) = (coreOf c s).tile.fills.map (fun f => (f.seq, f.bank, f.tok)) ++
        [((coreOf c s).nseq, !(coreOf c s).tile.active1, tokField (fld w 24 5))] := by
  obtain ⟨m, hm⟩ := deskDraw_cases c (areg (coreOf c s).seq (fld w 12 4)) n (modCore c (beginFill (tokField (fld w 24 5)) b) s)
  rw [hm] at hbody
  have hexec : execFill c w s = .next (advance (.core c) (modCore c (beginFill (tokField (fld w 24 5)) b) { s with free := m })) :=
    (instr_issues _ hi).trans (congrArg _ hbody)
  obtain ⟨honly, hbegun, hbeside⟩ := advance_begun (n := fld w 24 5) (f := beginFill (tokField (fld w 24 5)) b) (q := (coreOf c s).seq)
    (s := { s with free := m }) hin (fun _ => setTok_pc _ _ _) (fun _ => setTok_code _ _ _) rfl rfl
  generalize advance _ _ = t at hexec honly hbegun hbeside
  have hdesk := congrArg Core.desk hbeside
  have htile := congrArg Core.tile hbeside
  replace htile : (coreOf c t).tile = (beginFill (tokField (fld w 24 5)) b (coreOf c s)).tile := htile
  obtain ⟨hstaged, hactive, hroles, hentries, hfills⟩ := beginFill_tile (tokField (fld w 24 5)) b (coreOf c s)
  refine ⟨t, hexec, OnlyCoreDraws.trans (t := { s with free := m }) (OnlyCore.refl c s) honly.draws, hbegun, ?_⟩
  rw [htile]
  exact ⟨hstaged, hactive, hroles, hentries, hdesk, hfills⟩

/-! ## DRAIN (R91, R148) -/

/-- The draws of a DRAIN: the vector state after them and what each element takes. -/
def drainDraws (c : Fin 192) (w : Word) (e : Entry) (s : State) : VecSt × List Nat :=
  let k := (coreRule c (fld w 23 3) (fld w 26 1 == 1) s).2.1
  if fld w 23 3 == 4 then drawRows k e.rows (coreOf c s).vec else ((coreOf c s).vec, List.replicate (e.rows * 128) 0)

/-- The Desk bytes and flags of a DRAIN. -/
def drained (c : Fin 192) (w : Word) (e : Entry) (s : State) : List Byte × List (BitVec 7) :=
  drainTensor e (fld w 16 4) (coreRule c (fld w 23 3) (fld w 26 1 == 1) s) (drainDraws c w e s).2

/-- A core whose DRAIN has issued, its Desk apart. -/
def drainIssued (c : Fin 192) (w : Word) (e : Entry) (s : State) (k : Core) : Core :=
  beginDrain (tokField (fld w 27 5)) e (orFlags (drained c w e s).2) { k with vec := (drainDraws c w e s).1 }

theorem drainBody_eq {c : Fin 192} {w : Word} {s : State} {e : Entry} (ht : TokenFree c (fld w 27 5) s) (hf : drainFmt (fld w 16 4) = true)
    (hr : fld w 23 3 ≤ 4) (hovf : fld w 26 1 = 1 → ovfAllowed (fld w 16 4) = true)
    (he : (accEntries (fld w 20 3) (coreOf c s).tile).head? = some e) (hst : e.st = .visible) (hopen : e.open' = false)
    (hd : areg (coreOf c s).seq (fld w 12 4) + tensorBytes (fld w 16 4) (e.rows * 128) ≤ 4194304)
    (hfence : fenceMeets (coreOf c s) (areg (coreOf c s).seq (fld w 12 4)) (tensorBytes (fld w 16 4) (e.rows * 128)) = false)
    (ho : tileOps (coreOf c s).tile < 4) (hreseed : fld w 23 3 = 4 → (coreOf c s).reseed = none) :
    drainBody c w s = advance (.core c) (deskWrite c (areg (coreOf c s).seq (fld w 12 4)) (drained c w e s).1
      (modCore c (drainIssued c w e s) (countTensor c (coreOf c s).statTag (fld w 16 4) (drained c w e s).1 (drained c w e s).2 s))) := by
  obtain ⟨hreserved, hready⟩ := ht
  have hfields : (!drainFmt (fld w 16 4) || decide (4 < fld w 23 3) || (fld w 26 1 == 1 && !ovfAllowed (fld w 16 4)) ||
      tokReserved (fld w 27 5)) = false := by
    simp only [hf, decide_eq_false (Nat.not_lt.2 hr), hreserved, Bool.not_true, Bool.or_false, Bool.false_or, Bool.and_eq_false_imp,
      Bool.not_eq_false', beq_iff_eq]
    exact hovf
  have hspan : deskSpan (areg (coreOf c s).seq (fld w 12 4)) (tensorBytes (fld w 16 4) (e.rows * 128)) = true := decide_eq_true hd
  have hentry : (e.st == .popping || e.open' || !deskSpan (areg (coreOf c s).seq (fld w 12 4)) (tensorBytes (fld w 16 4) (e.rows * 128)) ||
      fenceMeets (coreOf c s) (areg (coreOf c s).seq (fld w 12 4)) (tensorBytes (fld w 16 4) (e.rows * 128))) = false := by
    rw [hst, hopen, hspan, hfence]
    rfl
  have hvisible : (e.st != .visible) = false := by rw [hst]; rfl
  simp only [drainBody, hfields, he, hentry, hready, hvisible, if_neg (Nat.not_le.2 ho), draws_and_reseed hreseed, Bool.not_true,
    Bool.false_eq_true, if_false]
  rfl

theorem drawRows_v (k n : Nat) (v : VecSt) : (drawRows k n v).1.v = v.v := by
  induction n generalizing v with
  | zero => rfl
  | succ n ih => exact ih _

theorem drainDraws_v (c : Fin 192) (w : Word) (e : Entry) (s : State) : (drainDraws c w e s).1.v = (coreOf c s).vec.v := by
  unfold drainDraws
  split
  · exact drawRows_v _ _ _
  · rfl

theorem drainDraws_snd (c : Fin 192) (w : Word) (e : Entry) (s : State) :
    (drainDraws c w e s).2 = if fld w 23 3 == 4 then
      (drawRows (coreRule c (fld w 23 3) (fld w 26 1 == 1) s).2.1 e.rows (coreOf c s).vec).2 else List.replicate (e.rows * 128) 0 := by
  unfold drainDraws
  split <;> rfl

/-- The entries of a core whose DRAIN has issued. -/
theorem drainIssued_entries (c : Fin 192) (w : Word) (e : Entry) (s : State) (k : Core) :
    (drainIssued c w e s k).tile.entries.map (fun x => (x.seq, x.st)) =
      k.tile.entries.map fun x => (x.seq, if x.seq = e.seq then .draining else x.st) := by
  simp only [drainIssued, beginDrain, beginOp, mapIf, List.map_map]
  refine List.map_congr_left fun x _ => ?_
  by_cases h : x.seq = e.seq <;> simp [h]

theorem completes_drain {c : Fin 192} {w : Word} {s : State} {e : Entry} (hn : NextInside (.core c) s) (hi : Issues (.core c) w 0x18 0x03 s)
    (hbody : drainBody c w s = advance (.core c) (deskWrite c (areg (coreOf c s).seq (fld w 12 4)) (drained c w e s).1
      (modCore c (drainIssued c w e s) (countTensor c (coreOf c s).statTag (fld w 16 4) (drained c w e s).1 (drained c w e s).2 s)))) :
    Completes (.drain c w) s fun t => SameMemory s t ∧ OtherDesks c s t ∧
      DeskTakes c (areg (coreOf c s).seq (fld w 12 4)) (drained c w e s).1 s t ∧ Begun c (fld w 27 5) (coreOf c s).seq s t ∧
      (coreOf c t).tile.bank0 = (coreOf c s).tile.bank0 ∧ (coreOf c t).tile.bank1 = (coreOf c s).tile.bank1 ∧
      (coreOf c t).vec.v = (coreOf c s).vec.v ∧
      (coreOf c t).tile.drains = (coreOf c s).tile.drains ++ [⟨(coreOf c s).nseq, e.seq, tokField (fld w 27 5)⟩] ∧
      (coreOf c t).tile.entries.map (fun x => (x.seq, x.st)) =
        (coreOf c s).tile.entries.map fun x => (x.seq, if x.seq = e.seq then .draining else x.st) := by
  have hexec : execDrain c w s = .next _ := (instr_issues _ hi).trans (congrArg _ hbody)
  have hcounted := uncounted_countTensor c (coreOf c s).statTag (fld w 16 4) (drained c w e s).1 (drained c w e s).2 s
  generalize countTensor c (coreOf c s).statTag (fld w 16 4) (drained c w e s).1 (drained c w e s).2 s = u at hexec hcounted
  have hcores := coreOf_congr (cores_of_uncounted hcounted)
  have hmod := coreOf_modCore c (drainIssued c w e s) u
  have honly := onlyCore_modCore c (drainIssued c w e s) u
  rw [hcores] at hmod
  generalize modCore c _ u = v at hexec hmod honly
  obtain ⟨donly, ddesk, dbeside⟩ := deskWrite_cases c (areg (coreOf c s).seq (fld w 12 4)) (drained c w e s).1 v
  generalize deskWrite c _ _ v = x at hexec donly ddesk dbeside
  rw [hmod] at ddesk dbeside
  have hseq : (coreOf c x).seq = setTok (tokField (fld w 27 5)) false (coreOf c s).seq := congrArg Core.seq dbeside
  obtain ⟨aonly, aseq, abeside⟩ := advance_core c x (by
    show (coreOf c x).seq.pc + 1 < (coreOf c x).seq.code.length
    rw [hseq, setTok_pc, setTok_code]
    exact hn)
  generalize advance _ x = t at hexec aonly aseq abeside
  have hall := (honly.draws.trans donly).trans aonly.draws
  have hdesk : (coreOf c t).desk = memWrite (coreOf c s).desk (areg (coreOf c s).seq (fld w 12 4)) (drained c w e s).1 :=
    (congrArg Core.desk abeside).trans ddesk
  have dtile := congrArg Core.tile dbeside
  replace dtile : (coreOf c x).tile = (drainIssued c w e s (coreOf c s)).tile := dtile
  have dvec : (coreOf c x).vec = (drainDraws c w e s).1 := congrArg Core.vec dbeside
  have dnum : (coreOf c x).nseq = (coreOf c s).nseq + 1 := congrArg Core.nseq dbeside
  have htile : (coreOf c t).tile = (drainIssued c w e s (coreOf c s)).tile := (congrArg Core.tile abeside).trans dtile
  have hvec : (coreOf c t).vec = (drainDraws c w e s).1 := (congrArg Core.vec abeside).trans dvec
  have hnum : (coreOf c t).nseq = (coreOf c s).nseq + 1 := (congrArg Core.nseq abeside).trans dnum
  refine ⟨t, hexec, (sameMemory_of_uncounted hcounted).trans hall.sameMemory, fun d hd => ?_, ⟨hdesk, fun a ha => ?_⟩,
    ⟨aseq.trans (congrArg nextSeq hseq), hnum⟩, by rw [htile]; rfl, by rw [htile]; rfl, by rw [hvec, drainDraws_v], by rw [htile]; rfl, ?_⟩
  · have hother := hall.2.2.2 d hd
    exact congrArg Core.desk (hother.trans (hcores d))
  · rw [hdesk, memGet_memWrite_other _ _ _ _ ha]
  · rw [htile, drainIssued_entries]

/-- A core whose oldest DRAIN ends: flags, tile, entry and token. -/
theorem endDrain_cases (d : DrainOp) (e : Entry) (k : Core) :
    let j := endDrain d e k
    j.tile.entries = k.tile.entries.filter (fun x => x.seq ≠ e.seq) ∧ j.tile.drains = k.tile.drains.filter (fun x => x.seq ≠ d.seq) ∧
      j.vec.streamFlags = k.vec.streamFlags ||| e.flags ∧ j.vec.lessonFlags = k.vec.lessonFlags ||| e.flags ∧
      j.vec.flagged = k.vec.flagged + (if e.flags &&& 0x67#7 = 0 then 0 else 1) := by
  have hflag : flagged e.flags = true ↔ ¬ e.flags &&& 0x67#7 = 0 := decide_eq_true_iff
  intro j
  refine ⟨?_, ?_, ?_⟩
  · simp only [j, endDrain, endOp, bne_eq_decide_ne]
  · simp only [j, endDrain, endOp, bne_eq_decide_ne]
  · by_cases h : e.flags &&& 0x67#7 = 0
    · have hnote : j.vec = raiseEntry e.flags k.vec := if_neg fun hf => hflag.1 hf h
      rw [hnote, if_pos h]
      exact ⟨rfl, rfl, rfl⟩
    · have hnote : j.vec = { raiseEntry e.flags k.vec with
          flagged := k.vec.flagged + 1, firstFlagged := some (k.vec.firstFlagged.getD (e.trow, e.tcol)) } := if_pos (hflag.2 h)
      rw [hnote, if_neg h]
      exact ⟨rfl, rfl, rfl⟩

theorem completes_drainComplete {c : Fin 192} {s : State} {d : DrainOp} {r : List DrainOp} {e : Entry} (hd : (coreOf c s).tile.drains = d :: r)
    (he : (coreOf c s).tile.entries.find? (fun x => x.seq == d.entry) = some e) (hh : (coreOf c s).halting = false) :
    Completes (.drainComplete c) s fun t => SameMemory s t ∧ (∀ d : Nat, (coreOf d t).desk = (coreOf d s).desk) ∧
      TokenReady c d.tok s t ∧ (coreOf c t).tile.entries = (coreOf c s).tile.entries.filter (fun x => x.seq ≠ e.seq) ∧
      (coreOf c t).tile.drains = (coreOf c s).tile.drains.filter (fun x => x.seq ≠ d.seq) ∧
      (coreOf c t).vec.streamFlags = (coreOf c s).vec.streamFlags ||| e.flags ∧
      (coreOf c t).vec.lessonFlags = (coreOf c s).vec.lessonFlags ||| e.flags ∧
      (coreOf c t).vec.flagged = (coreOf c s).vec.flagged + (if e.flags &&& 0x67#7 = 0 then 0 else 1) := by
  have hexec : execDrainComplete c s = .next (settleCore c (modCore c (endDrain d e) s)) := by
    simp only [execDrainComplete, hd, he]
  have hcore : coreOf c (modCore c (endDrain d e) s) = endDrain d e (coreOf c s) := coreOf_modCore _ _ _
  have hstops := onlyStops_settleCore (c := c) (s := modCore c (endDrain d e) s) (by rw [hcore]; exact hh)
  have honly := onlyCore_modCore c (endDrain d e) s
  generalize settleCore c _ = t at hexec hstops
  have htile := congrArg Core.tile (hstops.2.1 c)
  have hvec := congrArg Core.vec (hstops.2.1 c)
  replace htile : (coreOf c t).tile = (coreOf c (modCore c (endDrain d e) s)).tile := htile
  replace hvec : (coreOf c t).vec = (coreOf c (modCore c (endDrain d e) s)).vec := hvec
  obtain ⟨hentries, hdrains, hflags⟩ := endDrain_cases d e (coreOf c s)
  refine ⟨t, hexec, honly.draws.sameMemory.trans hstops.ends.sameMemory, fun x => ?_, tokenReady_of_ends (by rw [hcore]; rfl) hstops.ends, ?_⟩
  · rw [hstops.ends.desk x, honly.desks (by rw [hcore]; rfl) x]
  · rw [htile, hvec, hcore]
    exact ⟨hentries, hdrains, hflags⟩

/-- Settles O18: FILL, SWAP and DRAIN change their core's tile state, and the ends of fills and drains settle its lesson. -/
theorem banksFillAndEntriesDrain : Obligations.BanksFillAndEntriesDrain := by
  refine ⟨fun c w s => ⟨fun n b hn hi ht hf hp hl ho hd hfence hb hin => ?fill, completes_swap,
      fun bank f => completes_fillComplete⟩,
    fun c w s e => ⟨fun hn hi ht hf hr hovf he hst hopen hd hfence ho hreseed => ?drain, fun d r => completes_drainComplete⟩⟩
  case fill => exact completes_fill hn hi (fillBody_eq ht hf hp hl ho hd hfence hb hin)
  case drain =>
    have hdrain := completes_drain hn hi (drainBody_eq ht hf hr hovf he hst hopen hd hfence ho hreseed)
    rw [drained, drainDraws_snd] at hdrain
    exact hdrain

/-! ## STREAM (R85, R95, R148, R474) -/

/-- The token that a STREAM chases: one that is still busy. -/
def streamTok (w : Word) (k : Core) : Option (Fin 16) := if tokReady k.seq (tokField (fld w 32 5)) then none else tokField (fld w 32 5)

/-- The Desk bytes of a STREAM. -/
def streamBytes (w : Word) (k : Core) : Nat := tensorBytes (fld w 16 4) ((fld w 20 7 + 1) * (128 * (bankOf k.tile.active1 k.tile).p))

/-- The rows of a STREAM. -/
def streamRows (w : Word) (k : Core) (free : Nat) : List (Array Fp) :=
  (chunks (128 * (bankOf k.tile.active1 k.tile).p) (decodeTensor (fld w 16 4)
    (deskRead (chased (streamTok w k) k) free (areg k.seq (fld w 12 4)) (streamBytes w k)))).map List.toArray

/-- The state in which a STREAM has drawn the free values of its Desk access. -/
def streamDrawn (w : Word) (k : Core) (s : State) : State :=
  if pendingMeets (chased (streamTok w k) k) (areg k.seq (fld w 12 4)) (streamBytes w k) then drawFree deskBytes s else s

theorem streamDrawn_cases (w : Word) (k : Core) (s : State) : ∃ m, streamDrawn w k s = { s with free := m } := by
  unfold streamDrawn
  split
  · exact ⟨_, rfl⟩
  · exact ⟨s.free, rfl⟩

/-- A core after a STREAM issued at a time, its program counter apart. -/
def streamed (c : Fin 192) (w : Word) (s : State) (since : Word) : Core → Core :=
  issuePass since (coreLegacy c s) (fld w 27 3) (fld w 20 7 + 1) (fld w 30 1 == 1) (fld w 31 1 == 1)
    ((sreg (coreOf c s).seq (fld w 37 5)).extractLsb' 0 16) ((sreg (coreOf c s).seq (fld w 37 5)).extractLsb' 16 16)
    (streamRows w (coreOf c s) s.free)

theorem streamBody_eq {c : Fin 192} {w : Word} {s : State} (hf : feederFmt (fld w 16 4) = true)
    (hl : coreLegacy c s = true → fld w 16 4 = 2 ∨ fld w 16 4 = 3) (ht : tokReserved (fld w 32 5) = false)
    (hc : ((coreOf c s).tile.entries.any fun e => e.acc == fld w 27 3 && e.open') = (fld w 30 1 == 1))
    (hd : areg (coreOf c s).seq (fld w 12 4) + streamBytes w (coreOf c s) ≤ 4194304)
    (hfence : fenceMeets (coreOf c s) (areg (coreOf c s).seq (fld w 12 4)) (streamBytes w (coreOf c s)) = false)
    (hchase : chaseHeld (streamTok w (coreOf c s)) (coreOf c s) = false) :
    ∃ m, streamBody c w s = advance (.core c) (modCore c (streamed c w s (mono s)) { s with free := m }) := by
  have hlegacy : (coreLegacy c s && fld w 16 4 != 2 && fld w 16 4 != 3) = false := by
    rw [Bool.and_assoc, Bool.and_eq_false_imp]
    intro h
    rcases hl h with hfmt | hfmt <;> rw [hfmt] <;> rfl
  have hspan : deskSpan (areg (coreOf c s).seq (fld w 12 4)) (streamBytes w (coreOf c s)) = true := decide_eq_true hd
  have hchain : (((coreOf c s).tile.entries.any fun e => e.acc == fld w 27 3 && e.open') != (fld w 30 1 == 1)) = false := by
    rw [hc, bne_self_eq_false]
  obtain ⟨m, hm⟩ := streamDrawn_cases w (coreOf c s) s
  have hbody : streamBody c w s = advance (.core c) (modCore c (streamed c w s (mono (streamDrawn w (coreOf c s) s))) (streamDrawn w (coreOf c s) s)) := by
    simp only [streamTok, streamBytes] at hspan hfence hchase
    simp only [streamBody, hf, hlegacy, ht, hchain, hspan, hfence, hchase, Bool.not_true, Bool.or_false, Bool.false_eq_true, if_false]
    rfl
  exact ⟨m, by rw [hbody, hm]; rfl⟩

/-- What of an entry a pass changes. -/
def entryView (e : Entry) : Nat × List (List W32) × BitVec 7 × BitVec 16 × BitVec 16 × Bool := (e.acc, e.data, e.flags, e.trow, e.tcol, e.open')

/-- What a pass of a STREAM makes of an entry. -/
def entryAfter (c : Fin 192) (w : Word) (s : State) (e : Entry) : Nat × List (List W32) × BitVec 7 × BitVec 16 × BitVec 16 × Bool :=
  let k := coreOf c s
  let sc := sreg k.seq (fld w 37 5)
  let r := passRows (coreLegacy c s) (bankOf k.tile.active1 k.tile) e.rows (streamRows w k s.free) e.data
  (e.acc, r.1, e.flags ||| r.2, sc.extractLsb' 0 16, sc.extractLsb' 16 16, !(fld w 31 1 == 1))

theorem streamed_chained {c : Fin 192} {w : Word} {s : State} (h : (fld w 30 1 == 1) = true) :
    (streamed c w s (mono s) (coreOf c s)).tile.entries.map entryView = (coreOf c s).tile.entries.map fun e =>
      if e.acc = fld w 27 3 ∧ e.open' = true then entryAfter c w s e else entryView e := by
  simp only [streamed, issuePass, h, if_true, mapIf, List.map_map]
  refine List.map_congr_left fun e _ => ?_
  by_cases he : e.acc = fld w 27 3 ∧ e.open' = true
  · obtain ⟨hacc, hopen⟩ := id he
    have hb : (e.acc == fld w 27 3 && e.open') = true := by rw [hacc, hopen, BEq.rfl]; rfl
    rw [Function.comp_apply, if_pos hb, if_pos he]
    rfl
  · have hb : (e.acc == fld w 27 3 && e.open') = false := by
      rw [Bool.and_eq_false_imp, beq_iff_eq]
      exact fun hacc => Bool.eq_false_iff.2 fun hopen => he ⟨hacc, hopen⟩
    simp only [Function.comp_apply, hb, if_neg he, Bool.false_eq_true, if_false]

theorem streamed_opened {c : Fin 192} {w : Word} {s : State} (h : (fld w 30 1 == 1) = false) :
    ∃ e : Entry, (streamed c w s (mono s) (coreOf c s)).tile.entries = (coreOf c s).tile.entries ++ [e] ∧ e.rows = fld w 20 7 + 1 ∧
      e.seq = (coreOf c s).nseq ∧
      entryView e = entryAfter c w s { e with acc := fld w 27 3, data := List.replicate (fld w 20 7 + 1) (List.replicate 128 0), flags := 0 } ∧
      (e.st = .waiting ↔ 8 ≤ heldEntries (coreOf c s).tile ∨ ∃ x ∈ (coreOf c s).tile.entries, x.st = .waiting) := by
  simp only [streamed, issuePass, h, Bool.false_eq_true, if_false]
  refine ⟨_, rfl, rfl, rfl, rfl, ?_⟩
  simp only [passInto, openEntry]
  rw [ite_eq_left_iff]
  simp only [Bool.or_eq_true, decide_eq_true_eq, List.any_eq_true, beq_iff_eq, reduceCtorEq, imp_false, not_not]

theorem completes_stream {c : Fin 192} {w : Word} {s : State} {m : Nat} (hn : NextInside (.core c) s) (hi : Issues (.core c) w 0x18 0x02 s)
    (hbody : streamBody c w s = advance (.core c) (modCore c (streamed c w s (mono s)) { s with free := m })) :
    Completes (.stream c w) s fun t => OnlyCoreDraws c s t ∧ (coreOf c t).seq = nextSeq (coreOf c s).seq ∧
      besideSeq (coreOf c t) = besideSeq (streamed c w s (mono s) (coreOf c s)) := by
  have hexec : execStream c w s = .next _ := (instr_issues _ hi).trans (congrArg _ hbody)
  obtain ⟨honly, hseq, hbeside⟩ := advance_core_cases c (streamed c w s (mono s)) { s with free := m } (fun _ => rfl) (fun _ => rfl) hn
  exact ⟨_, hexec, OnlyCoreDraws.trans (t := { s with free := m }) (OnlyCore.refl c s) honly.draws, hseq, hbeside⟩

/-! ## PASS_START and PASS_CLOSE (R87, R90, R94) -/

/-- A core in which the entry of a number has a new state. -/
def entryBecomes (n : Nat) (x : EntrySt) (k : Core) : Core :=
  { k with tile := { k.tile with entries := mapIf (fun y => y.seq == n) (fun y => { y with st := x }) k.tile.entries } }

theorem entryBecomes_entries (n : Nat) (x : EntrySt) (k : Core) :
    (entryBecomes n x k).tile.entries = k.tile.entries.map fun y => if y.seq = n then { y with st := x } else y := by
  simp only [entryBecomes, mapIf, beq_iff_eq]

/-- From `s` to `t` an entry of a core has a new state; Desks, banks, fills and memory stay. -/
theorem becomes_of_stops {c : Nat} {s u t : State} {n : Nat} {x : EntrySt} (hcore : coreOf c u = entryBecomes n x (coreOf c s))
    (hother : ∀ d, d ≠ c → coreOf d u = coreOf d s) (hmem : SameMemory s u) (h : OnlyStops u t) :
    SameMemory s t ∧ (∀ d : Nat, (coreOf d t).desk = (coreOf d s).desk) ∧ (coreOf c t).tile.bank0 = (coreOf c s).tile.bank0 ∧
      (coreOf c t).tile.bank1 = (coreOf c s).tile.bank1 ∧ (coreOf c t).tile.fills = (coreOf c s).tile.fills ∧
      (coreOf c t).tile.entries = (coreOf c s).tile.entries.map fun y => if y.seq = n then { y with st := x } else y := by
  have htile := congrArg Core.tile (h.2.1 c)
  replace htile : (coreOf c t).tile = (coreOf c u).tile := htile
  refine ⟨hmem.trans h.ends.sameMemory, fun d => (h.ends.desk d).trans ?_, ?_⟩
  · by_cases hd : d = c
    · rw [hd, hcore]; rfl
    · rw [hother d hd]
  · rw [htile, hcore]
    exact ⟨rfl, rfl, rfl, entryBecomes_entries n x _⟩

/-- The state in which the oldest waiting pass has reserved its entry. -/
def passStarted (c : Fin 192) (e : Entry) (s : State) : State :=
  addStall 0x02 (nsSince e.since (mono s)) (modCore c (entryBecomes e.seq .reserved) s)

/-- Settles O19: STREAM issues its pass, and the events of passes change the state of one entry. -/
theorem streamPassesIssueStartAndClose : Obligations.StreamPassesIssueStartAndClose := by
  refine ⟨fun c w s hn hi hf hl ht hc hd hfence hchase => ?stream, fun c s e => ⟨fun he hheld hh => ?start, fun he hfills => ?close⟩⟩
  case stream =>
    obtain ⟨m, hbody⟩ := streamBody_eq hf hl ht hc hd hfence hchase
    obtain ⟨t, hexec, honly, hseq, hbeside⟩ := completes_stream hn hi hbody
    have hnum := congrArg Core.nseq hbeside
    have hdesk := congrArg Core.desk hbeside
    have hvec := congrArg Core.vec hbeside
    have hbank0 := congrArg (fun k : Core => k.tile.bank0) hbeside
    have hbank1 := congrArg (fun k : Core => k.tile.bank1) hbeside
    have hactive := congrArg (fun k : Core => k.tile.active1) hbeside
    have hentries := congrArg (fun k : Core => k.tile.entries) hbeside
    replace hentries : (coreOf c t).tile.entries = (streamed c w s (mono s) (coreOf c s)).tile.entries := hentries
    refine ⟨t, hexec, honly, hseq, hnum, hdesk, hvec, hbank0, hbank1, hactive, fun h => ?_, fun h => ?_⟩
    · rw [hentries]
      exact streamed_chained h
    · rw [hentries]
      exact streamed_opened h
  case start =>
    have hexec : execPassStart c s = .next (settleCore c (passStarted c e s)) := by
      simp only [execPassStart, he, if_neg (Nat.not_le.2 hheld)]
      rfl
    have hcore : coreOf c (passStarted c e s) = entryBecomes e.seq .reserved (coreOf c s) := coreOf_modCore c (entryBecomes e.seq .reserved) s
    exact ⟨_, hexec, becomes_of_stops hcore (fun d hd => coreOf_modCore_other _ _ _ _ hd) ⟨rfl, rfl, rfl⟩
      (onlyStops_settleCore (by rw [hcore]; exact hh))⟩
  case close =>
    have hexec : execPassClose c s = .next (modCore c (entryBecomes e.seq .visible) s) := by
      simp only [execPassClose, he, hfills, Bool.false_eq_true, if_false]
      rfl
    exact ⟨_, hexec, becomes_of_stops (coreOf_modCore _ _ _) (fun d hd => coreOf_modCore_other _ _ _ _ hd) ⟨rfl, rfl, rfl⟩ (OnlyStops.refl _)⟩

end Sys2Proof.Machine
end

section
/-!
The Expert Dispatcher (Machine/Experts.lean, chapter 07): ROUTE and its completion, predictions and their events.
-/

namespace Sys2Proof.Machine

/-! ## The outcome of a row (R172, R173, R179) -/

theorem lyCap_lt (y : LayerEntry) : lyCap y < 2 ^ 14 := Nat.mod_lt _ (by decide)

/-- A row's outcome word: taken by its expert, by its alternate, dropped or deferred. -/
def RouteOutcome (pg : ExpertPage) (y : LayerEntry) (e alt : Nat) (z : W32) : Prop :=
  ∃ n : Nat, n < 2 ^ 14 ∧
    ((z = BitVec.ofNat 32 (e + n * 2 ^ 16) ∧ n < lyCap y) ∨ (z = BitVec.ofNat 32 (alt + n * 2 ^ 16 + 2 ^ 30) ∧ n < lyCap y ∧
      fieldNat pg.header 32 2 = 1 ∧ alt ≠ 0xFFFF) ∨ z = BitVec.ofNat 32 (e + 2 * 2 ^ 30) ∨
    (z = BitVec.ofNat 32 (e + 3 * 2 ^ 30) ∧ fieldNat pg.header 32 2 = 2))

theorem placeRow_lt {y : LayerEntry} {e k : Nat} {cs ds : List (Nat × Nat)} (h : placeRow y e cs = some (k, ds)) : k < lyCap y := by
  simp only [placeRow] at h
  split at h
  · next hk =>
    obtain ⟨rfl, -⟩ := Prod.mk.inj (Option.some.inj h)
    exact hk
  · exact absurd h nofun

theorem routeRow_outcome (pg : ExpertPage) (y : LayerEntry) (i half : Nat) (step : Word) (e alt : Nat) (hdr : Bool → Nat → List Byte)
    (row : List Byte) (a : RouteAcc) : RouteOutcome pg y e alt (routeRow pg y i half step e alt hdr row a).1 := by
  unfold routeRow
  split
  · next k cs hplace =>
    have hk := placeRow_lt hplace
    exact ⟨k, hk.trans (lyCap_lt y), .inl ⟨by simp, hk⟩⟩
  · split
    · next hmode =>
      split
      · next k cs hplace =>
        split at hplace
        · exact absurd hplace nofun
        · next halt =>
          have hk := placeRow_lt hplace
          exact ⟨k, hk.trans (lyCap_lt y), .inr (.inl ⟨by simp, hk, hmode, by simpa using halt⟩)⟩
      · exact ⟨0, by decide, .inr (.inr (.inl (by simp)))⟩
    · next hmode =>
      split
      · exact ⟨0, by decide, .inr (.inr (.inr ⟨by simp, hmode⟩))⟩
      · exact ⟨0, by decide, .inr (.inr (.inl (by simp)))⟩
    · exact ⟨0, by decide, .inr (.inr (.inl (by simp)))⟩

/-- Each row that a ROUTE lists is one of its lanes with an outcome of that lane. -/
theorem mem_routeRows {f : Fin 128 → RouteAcc → W32 × RouteAcc} {P : Fin 128 → W32 → Prop} (hP : ∀ l a, P l (f l a).1)
    (ls : List (Fin 128)) (a : RouteAcc) : ∀ x ∈ (routeRows f ls a).1, ∃ l ∈ ls, l.val = x.1 ∧ P l x.2 := by
  induction ls generalizing a with
  | nil => exact nofun
  | cons l ls ih =>
    intro x hx
    rcases List.mem_cons.1 hx with rfl | hx
    · exact ⟨l, List.mem_cons_self, rfl, hP l a⟩
    · obtain ⟨m, hm, hval, hout⟩ := ih _ x hx
      exact ⟨m, List.mem_cons_of_mem _ hm, hval, hout⟩

theorem routeRows_lanes (f : Fin 128 → RouteAcc → W32 × RouteAcc) (ls : List (Fin 128)) (a : RouteAcc) :
    (routeRows f ls a).1.map Prod.fst = ls.map fun l => l.val := by
  induction ls generalizing a with
  | nil => rfl
  | cons l ls ih => rw [routeRows, List.map_cons, List.map_cons, ih]

/-- The row found for a lane of a ROUTE has an outcome of that lane. -/
theorem routeRows_find {f : Fin 128 → RouteAcc → W32 × RouteAcc} {P : Fin 128 → W32 → Prop} (hP : ∀ l a, P l (f l a).1)
    {ls : List (Fin 128)} (a : RouteAcc) {l : Fin 128} (hl : l ∈ ls) :
    P l ((((routeRows f ls a).1.find? fun x => x.1 == l.val).map Prod.snd).getD 0) := by
  have hsome : ((routeRows f ls a).1.find? fun x => x.1 == l.val).isSome = true := by
    have hmem : l.val ∈ (routeRows f ls a).1.map Prod.fst := by
      rw [routeRows_lanes]
      exact List.mem_map_of_mem hl
    obtain ⟨x, hx, hxl⟩ := List.mem_map.1 hmem
    exact List.find?_isSome.2 ⟨x, hx, beq_iff_eq.2 hxl⟩
  obtain ⟨x, hx⟩ := Option.isSome_iff_exists.1 hsome
  obtain ⟨m, -, hval, hout⟩ := mem_routeRows hP ls a x (List.mem_of_find?_eq_some hx)
  have hxl : x.1 = l.val := by simpa using List.find?_some hx
  rw [hx]
  rwa [Fin.ext (hval.trans hxl)] at hout

/-! ## ROUTE (R171 to R180) -/

/-- A state without what a ROUTE notes of itself: run, channel, report card and the free counter. -/
def besideRouting (s : State) : State := { s with runs := [], slots := [], card := {}, free := 0 }

theorem besideRouting_noteWrite (c va len : Nat) (s : State) : besideRouting (noteWrite c va len s) = besideRouting s := by
  unfold noteWrite
  split
  · split <;> rfl
  · rfl

theorem besideRouting_noteWrites (c : Nat) (ws : List (Nat × List Byte)) (s : State) :
    besideRouting (ws.foldl (fun s x => noteWrite c x.1 x.2.length s) s) = besideRouting s := by
  induction ws generalizing s with
  | nil => rfl
  | cons x ws ih => exact (ih _).trans (besideRouting_noteWrite c x.1 x.2.length s)

theorem besideRouting_modChan (i : Nat) (f : Chan → Chan) (s : State) : besideRouting (modChan i f s) = besideRouting s := by
  unfold modChan
  split <;> rfl

/-- A note taken on a condition leaves what the note leaves. -/
theorem besideRouting_ite {p : Prop} [Decidable p] {a s : State} (h : besideRouting a = besideRouting s) :
    besideRouting (if p then a else s) = besideRouting s := by
  split
  · exact h
  · rfl

theorem besideRouting_ite_else {p : Prop} [Decidable p] {a s : State} (h : besideRouting a = besideRouting s) :
    besideRouting (if p then s else a) = besideRouting s := by
  split
  · rfl
  · exact h

theorem besideRouting_modRun (i : Nat) (f : Run → Run) (s : State) : besideRouting (modRun i f s) = besideRouting s := rfl

theorem besideRouting_noteDrops (slot layer : Nat) (outs : List (Nat × Bool)) (s : State) :
    besideRouting (noteDrops slot layer outs s) = besideRouting s := rfl

theorem besideRouting_raiseEvent (code : Nat) (args : List Nat) (s : State) : besideRouting (raiseEvent code args s) = besideRouting s := rfl

theorem besideRouting_draws (p : Prop) [Decidable p] (m n : Nat) (s : State) :
    besideRouting (if p then drawFree m s else drawFree n s) = besideRouting s := by
  split <;> rfl

/-- The outcome word of a lane. -/
def routeOut (c : Fin 192) (w : Word) (u : Run) (ch : Chan) (pg : ExpertPage) (y : LayerEntry) (s : State) (l : Fin 128) : W32 :=
  (((routePlan c w u ch pg y s).2.2.1.find? fun x => x.1 == l.val).map Prod.snd).getD 0

/-- A core whose ROUTE has issued, its program counter apart. -/
def routed (c : Fin 192) (w : Word) (u : Run) (ch : Chan) (pg : ExpertPage) (y : LayerEntry) (s : State) (k : Core) : Core :=
  { beginOp (tokField (fld w 29 5)) k with
    disp := k.disp ++ [⟨(coreOf c s).nseq, tokField (fld w 29 5), (routePlan c w u ch pg y s).2.2.2.2.1, none⟩]
    vec := setV (fld w 12 5) (mreg (coreOf c s).vec (fld w 22 3)) (routeOut c w u ch pg y s) k.vec }

theorem routeIssue_eq {c : Fin 192} {w : Word} {u : Run} {ch : Chan} {pg : ExpertPage} {y : LayerEntry} {s : State}
    (hread : ∀ a : Nat, routeTakes (fld w 39 12) u ch pg y (coreOf c s).index = some a →
      readFault c a (64 + lyDefer y * (32 + lyRow y)) s = none)
    (hwrite : ∀ z ∈ (routePlan c w u ch pg y s).2.2.2.2.1, writeFault c z.1 z.2.length s = none) :
    ∃ v, besideRouting v = besideRouting s ∧
      routeIssue c w (tokField (fld w 29 5)) u ch pg y s = advance (.core c) (modCore c (routed c w u ch pg y s) v) := by
  have hno : ((routeTakes (fld w 39 12) u ch pg y (coreOf c s).index).bind fun a => readFault c a (64 + lyDefer y * (32 + lyRow y)) s) = none :=
    Option.bind_eq_none_iff.2 hread
  have hnone : ((routePlan c w u ch pg y s).2.2.2.2.1.findSome? fun x => writeFault c x.1 x.2.length s) = none :=
    List.findSome?_eq_none_iff.2 hwrite
  simp only [routeIssue, hno, hnone]
  refine ⟨_, ?_, rfl⟩
  refine (besideRouting_draws _ _ _ _).trans ?_
  refine (besideRouting_ite_else (besideRouting_modChan _ _ _)).trans ?_
  refine (besideRouting_modRun _ _ _).trans ?_
  refine (besideRouting_ite_else (besideRouting_noteDrops _ _ _ _)).trans ?_
  refine (besideRouting_ite (besideRouting_raiseEvent _ _ _)).trans ?_
  refine (besideRouting_ite (besideRouting_raiseEvent _ _ _)).trans ?_
  exact besideRouting_noteWrites _ _ _

/-- What makes a ROUTE stop in a lane: an expert that may not be named, or a row outside the Desk. -/
def routeBad (c : Fin 192) (w : Word) (pg : ExpertPage) (y : LayerEntry) (s : State) (l : Fin 128) : Bool :=
  let x := (vreg (coreOf c s).vec (fld w 12 5))[l]
  !expertOk pg y (fieldNat x 0 16) || (fieldNat x 16 16 != 0xFFFF && !expertOk pg y (fieldNat x 16 16))
    || !deskSpan (areg (coreOf c s).seq (fld w 25 4) + l.val * lyRow y) (lyRow y)

/-- The lanes of a ROUTE. -/
def routeLanes (c : Fin 192) (w : Word) (s : State) : List (Fin 128) :=
  (List.finRange 128).filter fun (l : Fin 128) => (mreg (coreOf c s).vec (fld w 22 3)).getLsbD l

theorem mem_routeLanes {c : Fin 192} {w : Word} {s : State} {l : Fin 128} :
    l ∈ routeLanes c w s ↔ (mreg (coreOf c s).vec (fld w 22 3)).getLsbD l = true := by
  simp [routeLanes]

theorem routeBody_eq {c : Fin 192} {w : Word} {s : State} {pg : ExpertPage} {u : Run} {ch : Chan} {y : LayerEntry}
    (ht : TokenFree c (fld w 29 5) s) (hfull : dispFull (coreOf c s) = false) (hpage : corePage c s = some pg) (hrun : coreRun c s = some u)
    (hchan : coreChan c s = some ch) (hlayer : layerEntry pg (fld w 39 12) = some y)
    (hrow : (sreg (coreOf c s).seq (fld w 34 5)).toNat % 2 ^ 32 = lyRow y) (hlanes : ∀ l ∈ routeLanes c w s, routeBad c w pg y s l = false) :
    routeBody c w s = routeIssue c w (tokField (fld w 29 5)) u ch pg y s := by
  have hbad : ((sreg (coreOf c s).seq (fld w 34 5)).toNat % 2 ^ 32 != lyRow y || (routeLanes c w s).any (routeBad c w pg y s)) = false := by
    rw [hrow, bne_self_eq_false, Bool.false_or]
    exact List.any_eq_false.2 fun l hl => by rw [hlanes l hl]; exact Bool.false_ne_true
  unfold routeLanes routeBad at hbad
  simp only [routeBody, hpage, hrun, hchan, hlayer]
  rw [if_neg (by rw [hbad]; exact Bool.false_ne_true), withCoreTok_free ht, if_neg (by rw [hfull]; exact Bool.false_ne_true)]

theorem routeOut_outcome {c : Fin 192} {w : Word} {u : Run} {ch : Chan} {pg : ExpertPage} {y : LayerEntry} {s : State} {l : Fin 128}
    (hl : (mreg (coreOf c s).vec (fld w 22 3)).getLsbD l = true) :
    RouteOutcome pg y (fieldNat (vreg (coreOf c s).vec (fld w 12 5))[l] 0 16) (fieldNat (vreg (coreOf c s).vec (fld w 12 5))[l] 16 16)
      (routeOut c w u ch pg y s l) :=
  routeRows_find (P := fun l z => RouteOutcome pg y (fieldNat (vreg (coreOf c s).vec (fld w 12 5))[l] 0 16)
    (fieldNat (vreg (coreOf c s).vec (fld w 12 5))[l] 16 16) z) (fun _ _ => routeRow_outcome ..) _ (mem_routeLanes.2 hl)

theorem completes_route {c : Fin 192} {w : Word} {s v : State} {pg : ExpertPage} {u : Run} {ch : Chan} {y : LayerEntry}
    (hn : NextInside (.core c) s) (hi : Issues (.core c) w 0x28 0x00 s) (hv : besideRouting v = besideRouting s)
    (hbody : routeBody c w s = advance (.core c) (modCore c (routed c w u ch pg y s) v)) :
    Completes (.route c w) s fun t => SameMemory s t ∧ (∀ d : Nat, (coreOf d t).desk = (coreOf d s).desk) ∧
      Begun c (fld w 29 5) (coreOf c s).seq s t ∧ (coreOf c t).disp = (routed c w u ch pg y s (coreOf c s)).disp ∧
      (coreOf c t).vec = (routed c w u ch pg y s (coreOf c s)).vec := by
  have hexec : execRoute c w s = .next _ := (instr_issues _ hi).trans (congrArg _ hbody)
  have hcores : v.cores = s.cores := (congrArg State.cores hv).trans rfl
  have hmem := congrArg State.memory hv
  have hportA := congrArg (fun x : State => x.portA.mem) hv
  have hportB := congrArg (fun x : State => x.portB.mem) hv
  have hcore := coreOf_congr hcores
  have hin : NextInside (.core c) v := by
    show (coreOf c v).seq.pc + 1 < (coreOf c v).seq.code.length
    rw [hcore]
    exact hn
  obtain ⟨honly, ⟨hseq, hnum⟩, hbeside⟩ := advance_begun (n := fld w 29 5) (f := routed c w u ch pg y s) (q := (coreOf c v).seq) hin
    (fun _ => setTok_pc _ _ _) (fun _ => setTok_code _ _ _) rfl rfl
  have hdesk := congrArg Core.desk hbeside
  have hdisp := congrArg Core.disp hbeside
  have hvec := congrArg Core.vec hbeside
  replace hdisp := hdisp.trans (congrArg (fun k => (routed c w u ch pg y s k).disp) (hcore c))
  replace hvec := hvec.trans (congrArg (fun k => (routed c w u ch pg y s k).vec) (hcore c))
  rw [hcore] at hseq hnum
  refine ⟨_, hexec, ?_, fun d => ?_, ⟨hseq, hnum⟩, hdisp, hvec⟩
  · exact SameMemory.trans (t := v) ⟨hmem, hportA, hportB⟩ honly.draws.sameMemory
  · rw [honly.desks hdesk d, hcore]

/-- A core whose oldest ROUTE has left its unit. -/
def leaveRoute (o : DispOp) (k : Core) : Core := endOp o.tok { k with disp := k.disp.filter fun x => x.seq != o.seq }

theorem foldl_vaStore_cases (slot : Nat) (ws : List (Nat × List Byte)) (s : State) :
    (ws.foldl (fun s x => vaStore slot x.1 x.2 s) s).cores = s.cores := by
  induction ws generalizing s with
  | nil => rfl
  | cons x ws ih => exact (ih _).trans (cores_vaStore slot x.1 x.2 s)

theorem storage_foldl_vaStore_congr (slot : Nat) (ws : List (Nat × List Byte)) {s t : State} (h : storage t = storage s) :
    storage (ws.foldl (fun s x => vaStore slot x.1 x.2 s) t) = storage (ws.foldl (fun s x => vaStore slot x.1 x.2 s) s) := by
  induction ws generalizing s t with
  | nil => exact h
  | cons x ws ih => exact ih (storage_vaStore_congr h slot x.1 x.2)

theorem completes_routeComplete {c : Fin 192} {s : State} {o : DispOp} (ho : (coreOf c s).disp.find? (fun o => o.xpost.isNone) = some o) :
    Completes (.routeComplete c) s fun t => TokenReady c o.tok s t ∧ (coreOf c t).disp = (coreOf c s).disp.filter (fun x => x.seq ≠ o.seq) ∧
      (∀ d : Nat, (coreOf d t).desk = (coreOf d s).desk) ∧
      SameMemory (o.writes.foldl (fun u x => vaStore (coreSlot c s) x.1 x.2 u) s) t := by
  have hexec : execRouteComplete c s = .next (settleCore c (o.writes.foldl (fun u x => vaStore (coreSlot c s) x.1 x.2 u)
      (modCore c (leaveRoute o) s))) := by
    simp only [execRouteComplete, ho]
    rfl
  have hcores := coreOf_congr (foldl_vaStore_cases (coreSlot c s) o.writes (modCore c (leaveRoute o) s))
  have hstore := storage_foldl_vaStore_congr (coreSlot c s) o.writes (show storage (modCore c (leaveRoute o) s) = storage s from rfl)
  have hcore : coreOf c (modCore c (leaveRoute o) s) = leaveRoute o (coreOf c s) := coreOf_modCore _ _ _
  generalize List.foldl _ (modCore c (leaveRoute o) s) o.writes = u at hexec hcores hstore
  have hends := onlyEnds_settleCore c u
  refine ⟨_, hexec, tokenReady_of_ends (by rw [hcores, hcore]; rfl) hends, ?_, fun d => ?_, (sameMemory_of_storage hstore).trans hends.sameMemory⟩
  · rw [hends.disp c, hcores, hcore]
    simp only [leaveRoute, endOp, bne_eq_decide_ne]
  · rw [hends.desk d, hcores, (onlyCore_modCore c (leaveRoute o) s).desks (by rw [hcore]; rfl) d]

/-- Settles O20: a ROUTE notes itself beside the cores and joins its unit, and its writes land as it completes. -/
theorem routeAndItsCompletion : Obligations.RouteAndItsCompletion := by
  refine ⟨fun c w s pg u ch y hn hi ht hfull hpage hrun hchan hlayer => ?route, fun c s o => completes_routeComplete⟩
  intro k mk x plan hrow hlanes hread hwrite
  have hbad : ∀ l ∈ routeLanes c w s, routeBad c w pg y s l = false := by
    intro l hl
    obtain ⟨hexpert, halt, hdesk⟩ := hlanes l (mem_routeLanes.1 hl)
    have hspan : deskSpan (areg k.seq (fld w 25 4) + l.val * lyRow y) (lyRow y) = true := decide_eq_true hdesk
    have halt' : (fieldNat (x l) 16 16 != 0xFFFF && !expertOk pg y (fieldNat (x l) 16 16)) = false := by
      rcases halt with halt | halt <;> simp [halt]
    show (!expertOk pg y (fieldNat (x l) 0 16) || (fieldNat (x l) 16 16 != 0xFFFF && !expertOk pg y (fieldNat (x l) 16 16)) ||
      !deskSpan (areg k.seq (fld w 25 4) + l.val * lyRow y) (lyRow y)) = false
    rw [hexpert, halt', hspan]
    rfl
  obtain ⟨v, hv, hissue⟩ := routeIssue_eq hread hwrite
  obtain ⟨t, hexec, hmem, hdesks, hbegun, hdisp, hvec⟩ :=
    completes_route hn hi hv ((routeBody_eq ht hfull hpage hrun hchan hlayer hrow hbad).trans hissue)
  refine ⟨t, hexec, hmem, hdesks, hbegun, hdisp, fun r hr => ?_, fun l => ?_⟩
  · rw [hvec]
    exact vreg_setV_other _ _ _ _ _ hr
  · intro z
    have hz : z = if mk.getLsbD l then routeOut c w u ch pg y s l else x l := by
      simp only [z, hvec]
      exact getElem_vreg_setV_same _ _ _ _ _ (fld_lt w 12 5)
    refine ⟨fun h => ?_, fun h => ?_⟩
    · rw [hz, h]; rfl
    · rw [hz, h]
      exact routeOut_outcome h

end Sys2Proof.Machine
end

section
/-!
Predictions of the Expert Dispatcher (Machine/Experts.lean, R182 to R187): PREDICT, CONFIRM, SQUASH and their events.
-/

namespace Sys2Proof.Machine

/-! ## PREDICT (R182) -/

/-- The experts that a PREDICT takes: the local ones it names that fit the core's share. -/
def predictExperts (c : Fin 192) (w : Word) (pg : ExpertPage) (y : LayerEntry) (s : State) : List Nat :=
  let k := coreOf c s
  (localExperts pg y (namedExperts k.vec (fld w 12 5) (mreg k.vec (fld w 22 3)))).take
    ((524288 - sumNat ((k.preds.filter fun p => !p.resolved).map fun p => (predSpan p).2)) / lyWeight y)

/-- The prediction that a PREDICT opens. -/
def predictionOf (c : Fin 192) (w : Word) (pg : ExpertPage) (y : LayerEntry) (s : State) : Prediction :=
  let k := coreOf c s
  let es := predictExperts c w pg y s
  { handle := k.predCount, layer := fld w 39 12, desk := areg k.seq (fld w 25 4), expertBytes := lyWeight y, experts := es
    data := es.flatMap fun e => vaRead (coreSlot c s) (weightVa pg y e) (lyWeight y) s
    tok := tokField (fld w 29 5), st := 0, resolved := false, fenced := true
    bad := es.any fun e => (poisonVa (coreSlot c s) (weightVa pg y e) (lyWeight y) s).isSome }

/-- A core whose PREDICT has issued, its program counter apart. -/
def predicted (w : Word) (p : Prediction) (k : Core) : Core :=
  { beginOp (tokField (fld w 29 5)) k with
    preds := k.preds ++ [p], predCount := k.predCount + 1
    seq := setS (fld w 34 5) (BitVec.ofNat 64 p.handle) (setTok (tokField (fld w 29 5)) false k.seq) }

theorem predictBody_eq {c : Fin 192} {w : Word} {s : State} {pg : ExpertPage} {y : LayerEntry} (hpage : corePage c s = some pg)
    (hlayer : layerEntry pg (fld w 39 12) = some y) (ht : TokenFree c (fld w 29 5) s) (hfull : dispFull (coreOf c s) = false)
    (hopen : (coreOf c s).preds.countP (fun p => !p.resolved) < 4) (hw : 0 < lyWeight y)
    (hnamed : ∀ e ∈ namedExperts (coreOf c s).vec (fld w 12 5) (mreg (coreOf c s).vec (fld w 22 3)), e < lyExperts y)
    (hdesk : areg (coreOf c s).seq (fld w 25 4) + (predictExperts c w pg y s).length * lyWeight y ≤ 4194304)
    (hfence : fenceMeets (coreOf c s) (areg (coreOf c s).seq (fld w 25 4)) ((predictExperts c w pg y s).length * lyWeight y) = false)
    (hread : ∀ e ∈ predictExperts c w pg y s, badRegion (coreSlot c s) (weightVa pg y e) (lyWeight y) false s = none) :
    predictBody c w s = advance (.core c) (modCore c (predicted w (predictionOf c w pg y s)) s) := by
  have hspan : deskSpan (areg (coreOf c s).seq (fld w 25 4)) ((predictExperts c w pg y s).length * lyWeight y) = true := decide_eq_true hdesk
  have hany : ((namedExperts (coreOf c s).vec (fld w 12 5) (mreg (coreOf c s).vec (fld w 22 3))).any fun e => decide (lyExperts y ≤ e)) = false :=
    List.any_eq_false.2 fun e he => by rw [decide_eq_false (Nat.not_le.2 (hnamed e he))]; exact Bool.false_ne_true
  have hbad : ((predictExperts c w pg y s).any fun e => (badRegion (coreSlot c s) (weightVa pg y e) (lyWeight y) false s).isSome) = false :=
    List.any_eq_false.2 fun e he => by rw [hread e he]; exact Bool.false_ne_true
  have hcond : (lyWeight y == 0 || ((namedExperts (coreOf c s).vec (fld w 12 5) (mreg (coreOf c s).vec (fld w 22 3))).any fun e => decide (lyExperts y ≤ e)) ||
      decide (4 ≤ (coreOf c s).preds.countP fun p => !p.resolved) ||
      !deskSpan (areg (coreOf c s).seq (fld w 25 4)) ((predictExperts c w pg y s).length * lyWeight y) ||
      fenceMeets (coreOf c s) (areg (coreOf c s).seq (fld w 25 4)) ((predictExperts c w pg y s).length * lyWeight y)) = false := by
    rw [hany, hspan, hfence, decide_eq_false (Nat.not_le.2 hopen), beq_false_of_ne (Nat.ne_of_gt hw)]
    rfl
  unfold predictExperts at hcond hbad
  simp only [predictBody, hpage, hlayer]
  rw [if_neg (by rw [show shareBytes = 524288 from rfl, hcond]; exact Bool.false_ne_true), withCoreTok_free ht,
    if_neg (by rw [hfull]; exact Bool.false_ne_true), if_neg (by rw [show shareBytes = 524288 from rfl, hbad]; exact Bool.false_ne_true)]
  rfl

theorem setS_setTok (d : Nat) (v : Word) (t : Option (Fin 16)) (b : Bool) (q : Seq) : setS d v (setTok t b q) = setTok t b (setS d v q) := by
  cases t <;> rfl

/-! ## CONFIRM and SQUASH (R184, R185) -/

/-- A core whose CONFIRM answers, its program counter apart. -/
def confirmed (w : Word) (h : Nat) (ok : Bool) (k : Core) : Core :=
  { (if ok then confirmPred h k else squashPred h k) with
    seq := setS (fld w 17 5) (truth ok) (if ok then confirmPred h k else squashPred h k).seq }

theorem confirmBody_eq {c : Fin 192} {w : Word} {s : State} {pg : ExpertPage} {p : Prediction} {y : LayerEntry} (hpage : corePage c s = some pg)
    (hp : unresolved (coreOf c s) (fld w 34 5) = some p) (hlayer : layerEntry pg p.layer = some y) (ht : TokenFree c (fld w 29 5) s)
    (hnamed : ∀ e ∈ namedExperts (coreOf c s).vec (fld w 12 5) (mreg (coreOf c s).vec (fld w 22 3)), e < lyExperts y) :
    confirmBody c w s = advance (.core c) (modCore c (confirmed w p.handle (!p.bad &&
      (localExperts pg y (namedExperts (coreOf c s).vec (fld w 12 5) (mreg (coreOf c s).vec (fld w 22 3)))).all fun e => p.experts.contains e)) s) := by
  have hany : ((namedExperts (coreOf c s).vec (fld w 12 5) (mreg (coreOf c s).vec (fld w 22 3))).any fun e => decide (lyExperts y ≤ e)) = false :=
    List.any_eq_false.2 fun e he => by rw [decide_eq_false (Nat.not_le.2 (hnamed e he))]; exact Bool.false_ne_true
  simp only [confirmBody, hpage, hp, hlayer, hany, Bool.false_eq_true, if_false, withCoreTok_free ht]
  rfl

/-- The predictions of a handle are resolved, and those of the others as they were. -/
def Resolves (h : Nat) (fenced : Bool) (k j : Core) : Prop :=
  (∀ q ∈ j.preds, q.handle = h → q.resolved = true ∧ (fenced = false → q.fenced = false)) ∧
    j.preds.filter (fun q => q.handle ≠ h) = k.preds.filter fun q => q.handle ≠ h

/-- Changing the predictions of a handle, the handle kept, leaves the others. -/
theorem filter_mapIf_handle (h : Nat) (f : Prediction → Prediction) (hf : ∀ p, (f p).handle = p.handle) (ps : List Prediction) :
    (mapIf (fun p => p.handle == h) f ps).filter (fun q => q.handle ≠ h) = ps.filter fun q => q.handle ≠ h := by
  induction ps with
  | nil => rfl
  | cons p ps ih =>
    rw [mapIf, List.map_cons, ← mapIf, List.filter_cons, List.filter_cons, ih]
    by_cases hp : p.handle = h
    · simp [hp, hf]
    · simp [hp]

theorem mem_mapIf_handle {h : Nat} {f : Prediction → Prediction} {ps : List Prediction} {q : Prediction}
    (hq : q ∈ mapIf (fun p => p.handle == h) f ps) (hh : q.handle = h) : ∃ p, q = f p := by
  obtain ⟨p, -, rfl⟩ := List.mem_map.1 hq
  by_cases hp : (p.handle == h) = true
  · exact ⟨p, by rw [if_pos hp]⟩
  · rw [if_neg hp] at hh
    exact absurd (beq_iff_eq.2 hh) hp

theorem resolves_confirmPred (h : Nat) (k : Core) : Resolves h true k (confirmPred h k) := by
  refine ⟨fun q hq hh => ?_,
    filter_mapIf_handle h (fun p => { p with resolved := true, st := if p.st == 1 then 2 else p.st }) (fun _ => rfl) k.preds⟩
  obtain ⟨p, rfl⟩ := mem_mapIf_handle hq hh
  exact ⟨rfl, nofun⟩

theorem resolves_squashPred (h : Nat) (k : Core) : Resolves h false k (squashPred h k) := by
  refine ⟨fun q hq hh => ?_,
    (filter_mapIf_handle h (fun p => { p with st := 3, resolved := true, fenced := false }) (fun _ => rfl) _).trans ?_⟩
  · obtain ⟨p, rfl⟩ := mem_mapIf_handle hq hh
    exact ⟨rfl, fun _ => rfl⟩
  · rw [List.filter_filter]
    refine List.filter_congr fun p _ => ?_
    by_cases hp : p.handle = h <;> simp [hp]

theorem completes_core {c : Fin 192} {s : State} {i : Instr} {f : Core → Core} {q : Seq} (hn : NextInside (.core c) s)
    (hexec : exec i s = .next (advance (.core c) (modCore c f s))) (hpc : ∀ k, (f k).seq.pc = k.seq.pc)
    (hcode : ∀ k, (f k).seq.code = k.seq.code) (hq : (f (coreOf c s)).seq = q) :
    Completes i s fun t => OnlyCore c s t ∧ (coreOf c t).seq = nextSeq q ∧ besideSeq (coreOf c t) = besideSeq (f (coreOf c s)) := by
  obtain ⟨honly, hseq, hbeside⟩ := advance_core_cases c f s hpc hcode hn
  exact ⟨_, hexec, honly, hseq.trans (congrArg nextSeq hq), hbeside⟩

theorem completes_confirm {c : Fin 192} {w : Word} {s : State} {h : Nat} {ok : Bool} (hn : NextInside (.core c) s)
    (hi : Issues (.core c) w 0x28 0x02 s) (hbody : confirmBody c w s = advance (.core c) (modCore c (confirmed w h ok) s)) :
    Completes (.confirm c w) s fun t => OnlyCore c s t ∧ (coreOf c t).desk = (coreOf c s).desk ∧ (coreOf c t).vec = (coreOf c s).vec ∧
      (coreOf c t).seq = nextSeq (setS (fld w 17 5) (if ok then 1 else 0) (coreOf c s).seq) ∧ Resolves h ok (coreOf c s) (coreOf c t) := by
  have hexec : execConfirm c w s = .next _ := (instr_issues _ hi).trans (congrArg _ hbody)
  have hcore : ∀ k, ∃ ps, confirmed w h ok k = { k with preds := ps, seq := setS (fld w 17 5) (truth ok) k.seq } ∧ Resolves h ok k (confirmed w h ok k) := by
    intro k
    cases ok
    · exact ⟨_, rfl, resolves_squashPred h k⟩
    · exact ⟨_, rfl, resolves_confirmPred h k⟩
  obtain ⟨ps, hps, hres⟩ := hcore (coreOf c s)
  obtain ⟨t, hexec', honly, hseq, hbeside⟩ := completes_core (i := .confirm c w) (q := setS (fld w 17 5) (truth ok) (coreOf c s).seq) hn hexec
    (fun k => by obtain ⟨ps, hps, -⟩ := hcore k; rw [hps]; rfl) (fun k => by obtain ⟨ps, hps, -⟩ := hcore k; rw [hps]; rfl) (by rw [hps])
  have hpreds := congrArg Core.preds hbeside
  replace hpreds : (coreOf c t).preds = (confirmed w h ok (coreOf c s)).preds := hpreds
  rw [hps] at hbeside
  have hdesk := congrArg Core.desk hbeside
  have hvec := congrArg Core.vec hbeside
  refine ⟨t, hexec', honly, hdesk, hvec, hseq, ?_⟩
  rw [Resolves, hpreds]
  exact hres

theorem completes_squash {c : Fin 192} {w : Word} {s : State} {pg : ExpertPage} {p : Prediction} (hn : NextInside (.core c) s)
    (hi : Issues (.core c) w 0x28 0x03 s) (hpage : corePage c s = some pg) (hp : unresolved (coreOf c s) (fld w 34 5) = some p) :
    Completes (.squash c w) s fun t => OnlyCore c s t ∧ (coreOf c t).desk = (coreOf c s).desk ∧ (coreOf c t).vec = (coreOf c s).vec ∧
      (coreOf c t).seq = nextSeq (coreOf c s).seq ∧ Resolves p.handle false (coreOf c s) (coreOf c t) := by
  have hexec : execSquash c w s = .next (advance (.core c) (modCore c (squashPred p.handle) s)) := by
    rw [execSquash, instr_issues _ hi]
    simp only [hpage, hp, Option.isNone_some, Bool.false_eq_true, if_false]
  obtain ⟨t, hexec', honly, hseq, hbeside⟩ := completes_core (i := .squash c w) hn hexec (fun _ => rfl) (fun _ => rfl) rfl
  have hdesk := congrArg Core.desk hbeside
  have hvec := congrArg Core.vec hbeside
  have hpreds := congrArg Core.preds hbeside
  replace hpreds : (coreOf c t).preds = (squashPred p.handle (coreOf c s)).preds := hpreds
  refine ⟨t, hexec', honly, hdesk, hvec, hseq, ?_⟩
  rw [Resolves, hpreds]
  exact resolves_squashPred p.handle (coreOf c s)

theorem completes_predict {c : Fin 192} {w : Word} {s : State} {p : Prediction} (hn : NextInside (.core c) s)
    (hi : Issues (.core c) w 0x28 0x01 s) (hbody : predictBody c w s = advance (.core c) (modCore c (predicted w p) s)) :
    Completes (.predict c w) s fun t => OnlyCore c s t ∧ (coreOf c t).desk = (coreOf c s).desk ∧ (coreOf c t).vec = (coreOf c s).vec ∧
      Begun c (fld w 29 5) (setS (fld w 34 5) (BitVec.ofNat 64 p.handle) (coreOf c s).seq) s t ∧
      (coreOf c t).predCount = (coreOf c s).predCount + 1 ∧ (coreOf c t).preds = (coreOf c s).preds ++ [p] := by
  have hexec : execPredict c w s = .next _ := (instr_issues _ hi).trans (congrArg _ hbody)
  obtain ⟨t, hexec', honly, hseq, hbeside⟩ := completes_core (i := .predict c w) hn hexec (fun _ => setTok_pc _ _ _) (fun _ => setTok_code _ _ _)
    (setS_setTok _ _ _ _ _)
  have hdesk := congrArg Core.desk hbeside
  have hvec := congrArg Core.vec hbeside
  have hnum := congrArg Core.nseq hbeside
  have hcount := congrArg Core.predCount hbeside
  have hpreds := congrArg Core.preds hbeside
  exact ⟨t, hexec', honly, hdesk, hvec, ⟨hseq, hnum⟩, hcount, hpreds⟩

/-! ## The events of a prediction (R183 to R185) -/

/-- A core that neither halts nor has halted settles as it stands. -/
theorem settleCore_running {c : Nat} {s : State} (hhalting : (coreOf c s).halting = false) (hhalted : (coreOf c s).halted = false) :
    settleCore c s = modCore c settleHalt s ∧ settleHalt (coreOf c s) = coreOf c s := by
  have hkeep : settleHalt (coreOf c s) = coreOf c s := by
    rw [settleHalt, hhalting, Bool.false_and, if_neg Bool.false_ne_true]
  refine ⟨?_, hkeep⟩
  simp only [settleCore, hhalting, Bool.false_and, Bool.false_eq_true, if_false, coreOf_modCore, hkeep, hhalted]
  split <;> rfl

/-- A core in which the last unit of a prediction has landed. -/
def predictionLands (h : Nat) (p : Prediction) (k : Core) : Core :=
  endOp p.tok (modPred h (fun p => { p with st := if p.resolved then 2 else 1 }) k)

theorem completes_predictLand {c : Fin 192} {s : State} {h : Nat} {p : Prediction}
    (hp : (coreOf c s).preds.find? (fun p => p.handle == h && p.st == 0) = some p) :
    Completes (.predictLand c h) s fun t => SameMemory s t ∧ (∀ d : Nat, (coreOf d t).desk = (coreOf d s).desk) ∧ TokenReady c p.tok s t ∧
      ((coreOf c s).halting = false → (coreOf c s).halted = false → OnlyCore c s t ∧
        (coreOf c t).preds = (coreOf c s).preds.map fun q => if q.handle = h then { q with st := if q.resolved then 2 else 1 } else q) := by
  have hexec : execPredictLand c h s = .next (settleCore c (modCore c (predictionLands h p) s)) := by
    simp only [execPredictLand, hp]
    rfl
  have hcore : coreOf c (modCore c (predictionLands h p) s) = predictionLands h p (coreOf c s) := coreOf_modCore _ _ _
  have honly := onlyCore_modCore c (predictionLands h p) s
  have hends := onlyEnds_settleCore c (modCore c (predictionLands h p) s)
  refine ⟨_, hexec, honly.draws.sameMemory.trans hends.sameMemory, fun d => ?_, tokenReady_of_ends (by rw [hcore]; rfl) hends, fun hhalting hhalted => ?_⟩
  · rw [hends.desk d, honly.desks (by rw [hcore]; rfl) d]
  · obtain ⟨hsettle, hkeep⟩ := settleCore_running (c := c) (s := modCore c (predictionLands h p) s) (by rw [hcore]; exact hhalting)
      (by rw [hcore]; exact hhalted)
    rw [hsettle]
    refine ⟨honly.trans (onlyCore_modCore c settleHalt _), ?_⟩
    rw [coreOf_modCore, hkeep, hcore]
    simp only [predictionLands, endOp, modPred, mapIf, beq_iff_eq]

/-- The predictions of a core after an event that takes those of a handle out, and settles its lesson. -/
theorem handle_ne_of_settled {c : Nat} {s u t : State} {h : Nat} (hpreds : (coreOf c u).preds = (coreOf c s).preds.filter fun x => x.handle != h)
    (hends : OnlyEnds u t) : ∀ q ∈ (coreOf c t).preds, q.handle ≠ h := by
  intro q hq
  obtain ⟨p, hp, hpq⟩ := hends.2.2 c q hq
  rw [hpreds] at hp
  rw [← hpq]
  simpa using List.of_mem_filter hp

/-- A core to whose Desk a prediction has been copied. -/
def copyPrediction (h : Nat) (p : Prediction) (k : Core) : Core :=
  { k with desk := memWrite k.desk p.desk p.data, preds := k.preds.filter fun x => x.handle != h }

theorem completes_predictCopyDone {c : Fin 192} {s : State} {h : Nat} {p : Prediction}
    (hp : (coreOf c s).preds.find? (fun p => p.handle == h && p.st == 2) = some p) :
    Completes (.predictCopyDone c h) s fun t => SameMemory s t ∧ DeskTakes c p.desk p.data s t ∧ OtherDesks c s t ∧
      ∀ q ∈ (coreOf c t).preds, q.handle ≠ h := by
  have hexec : execPredictCopyDone c h s = .next (settleCore c (modCore c (copyPrediction h p) s)) := by
    simp only [execPredictCopyDone, hp]
    rfl
  have hcore : coreOf c (modCore c (copyPrediction h p) s) = copyPrediction h p (coreOf c s) := coreOf_modCore _ _ _
  have honly := onlyCore_modCore c (copyPrediction h p) s
  have hends := onlyEnds_settleCore c (modCore c (copyPrediction h p) s)
  have hdesk := hends.desk c
  rw [hcore] at hdesk
  refine ⟨_, hexec, honly.draws.sameMemory.trans hends.sameMemory, ⟨hdesk, fun a ha => ?_⟩, fun d hd => ?_,
    handle_ne_of_settled (s := s) (by rw [hcore]; rfl) hends⟩
  · rw [hdesk]
    exact memGet_memWrite_other _ _ _ _ ha
  · rw [hends.desk d]
    exact congrArg Core.desk (honly.2.2.2 d hd)

/-- A core whose squashed prediction has drained. -/
def freeShare (h : Nat) (p : Prediction) (k : Core) : Core := endOp p.tok { k with preds := k.preds.filter fun x => x.handle != h }

theorem completes_squashShareFreed {c : Fin 192} {s : State} {h : Nat} {p : Prediction}
    (hp : (coreOf c s).preds.find? (fun p => p.handle == h && p.st == 3) = some p) :
    Completes (.squashShareFreed c h) s fun t => SameMemory s t ∧ (∀ d : Nat, (coreOf d t).desk = (coreOf d s).desk) ∧ TokenReady c p.tok s t ∧
      ∀ q ∈ (coreOf c t).preds, q.handle ≠ h := by
  have hexec : execSquashShareFreed c h s = .next (settleCore c (modCore c (freeShare h p) s)) := by
    simp only [execSquashShareFreed, hp]
    rfl
  have hcore : coreOf c (modCore c (freeShare h p) s) = freeShare h p (coreOf c s) := coreOf_modCore _ _ _
  have honly := onlyCore_modCore c (freeShare h p) s
  have hends := onlyEnds_settleCore c (modCore c (freeShare h p) s)
  refine ⟨_, hexec, honly.draws.sameMemory.trans hends.sameMemory, fun d => ?_, tokenReady_of_ends (by rw [hcore]; rfl) hends,
    handle_ne_of_settled (s := s) (by rw [hcore]; rfl) hends⟩
  rw [hends.desk d, honly.desks (by rw [hcore]; rfl) d]

/-- Settles O21: the prediction instructions change their core, and the events of a prediction settle its lesson. -/
theorem predictionsAndTheirEvents : Obligations.PredictionsAndTheirEvents := by
  refine ⟨fun c w s pg hn hpage => ⟨fun y hlayer hi ht hfull hopen hw hnamed => ?predict, fun p y hp => ⟨fun hlayer hnamed hi ht => ?confirm, fun hi => ?squash⟩⟩,
    fun c s h p => ⟨completes_predictLand, completes_predictCopyDone, completes_squashShareFreed⟩⟩
  case predict =>
    intro held es desk hdesk hfence hread
    obtain ⟨t, hexec, honly, hdesks, hvec, hbegun, hcount, hpreds⟩ :=
      completes_predict hn hi (predictBody_eq hpage hlayer ht hfull hopen hw hnamed hdesk hfence hread)
    exact ⟨t, hexec, honly, hdesks, hvec, hbegun, hcount, predictionOf c w pg y s, hpreds, rfl, rfl, rfl, rfl, rfl, rfl, rfl⟩
  case confirm =>
    intro ok
    obtain ⟨t, hexec, honly, hdesk, hvec, hseq, hres⟩ := completes_confirm hn hi (confirmBody_eq hpage hp hlayer ht hnamed)
    exact ⟨t, hexec, honly, hdesk, hvec, hseq, hres⟩
  case squash =>
    obtain ⟨t, hexec, honly, hdesk, hvec, hseq, hres, hothers⟩ := completes_squash hn hi hpage hp
    exact ⟨t, hexec, honly, hdesk, hvec, hseq, fun q hq hh => ⟨(hres q hq hh).1, (hres q hq hh).2 rfl⟩, hothers⟩

end Sys2Proof.Machine
end

section
/-!
Synchronisation and statistics instructions (Machine/Sync.lean): WAIT, SIGNAL, WAITEV, BAR, STAT.TAG and STAT.READ.
-/

namespace Sys2Proof.Machine

/-! ## WAIT (R152) -/

theorem completes_syncWait {p : Place} {w : Word} {s : State} (hn : NextInside p s) (hi : Issues p w 0x30 0x00 s)
    (hready : ∀ i : Fin 16, fld w (32 + i.val) 1 = 1 → (seqOf p s).tok[i] = true) :
    Completes (.syncWait p w) s (GoesTo p ((seqOf p s).pc + 1) s) := by
  have hall : allReady (seqOf p s) (waitTokens w) = true := by
    refine List.all_eq_true.2 fun i hi => hready i ?_
    simpa [waitTokens] using hi
  have hexec : execSyncWait p w s = .next (goTo p ((seqOf p s).pc + 1) s) := by
    rw [execSyncWait, instr_issues _ hi]
    exact congrArg _ (if_pos hall)
  exact completes_goTo hn hexec

/-! ## SIGNAL and WAITEV (R152) -/

theorem getElem_vmod {α : Type} {n : Nat} (v : Vector α n) (i : Nat) (f : α → α) (j : Fin n) :
    (vmod v i f)[j] = if j.val = i then f v[j] else v[j] := by
  by_cases hi : i < n
  · have hget : v.toList[i]? = some v[i] := by simp [hi]
    simp only [vmod, hget, Fin.getElem_fin, Vector.getElem_setIfInBounds, eq_comm (a := i)]
    split
    · next h => simp only [h]
    · rfl
  · have hget : v.toList[i]? = none := by simp [Nat.not_lt.1 hi]
    rw [vmod, hget, if_neg (by omega)]

theorem vget_fin {α : Type} {n : Nat} (v : Vector α n) (i : Fin n) (d : α) : vget v i d = v[i] := by
  simp [vget]

/-- A change of one core that keeps a part of it keeps that part of every core. -/
theorem coreOf_modCore_part {α : Type} (g : Core → α) {d : Nat} {f : Core → Core} (h : ∀ k, g (f k) = g k) (s : State) (x : Nat) :
    g (coreOf x (modCore d f s)) = g (coreOf x s) := by
  by_cases hx : x = d
  · subst hx
    rw [coreOf_modCore, h]
  · rw [coreOf_modCore_other _ _ _ _ hx]

/-- A core to which a SIGNAL is on its way. -/
def addSignal (x : Nat × Nat) (k : Core) : Core := { k with signals := k.signals ++ [x] }

theorem completes_signal {c : Fin 192} {w : Word} {s : State} {u : Run} {d : Nat} (hn : NextInside (.core c) s) (hi : Issues (.core c) w 0x30 0x01 s)
    (hrun : coreRun c s = some u) (hd : u.cores[(sreg (coreOf c s).seq (fld w 12 5)).toNat]? = some d) :
    Completes (.signal c w) s fun t => outsidePlaces t = outsidePlaces s ∧
      (coreOf d t).signals = (coreOf d s).signals ++ [(c.val, fld w 17 3)] ∧ (coreOf c t).seq = nextSeq (coreOf c s).seq ∧
      ∀ x : Nat, x ≠ c.val → x ≠ d → coreOf x t = coreOf x s := by
  have hexec : execSignal c w s = .next (advance (.core c) (modCore d (addSignal (c.val, fld w 17 3)) s)) := by
    rw [execSignal, instr_issues _ hi]
    simp only [hrun, Option.bind_some, hd]
    rfl
  have hseq := coreOf_modCore_part (fun k => k.seq) (f := addSignal (c.val, fld w 17 3)) (fun _ => rfl) s (d := d) c
  have hsent : (coreOf d (modCore d (addSignal (c.val, fld w 17 3)) s)).signals = (coreOf d s).signals ++ [(c.val, fld w 17 3)] := by
    rw [coreOf_modCore]; rfl
  have hother : ∀ x, x ≠ d → coreOf x (modCore d (addSignal (c.val, fld w 17 3)) s) = coreOf x s := fun x => coreOf_modCore_other _ _ _ _
  have hout : outsidePlaces (modCore d (addSignal (c.val, fld w 17 3)) s) = outsidePlaces s := rfl
  generalize modCore d _ s = v at hexec hseq hsent hother hout
  obtain ⟨honly, haseq, hbeside⟩ := advance_core c v (by
    show (coreOf c v).seq.pc + 1 < (coreOf c v).seq.code.length
    rw [hseq]
    exact hn)
  obtain ⟨kout, -, -, kcores⟩ := honly
  refine ⟨_, hexec, kout.trans hout, ?_, haseq.trans (congrArg nextSeq hseq), fun x hx hxd => (kcores x hx).trans (hother x hxd)⟩
  by_cases hdc : d = c
  · have hsignals := congrArg Core.signals hbeside
    rw [hdc] at hsent ⊢
    exact hsignals.trans hsent
  · rw [kcores d hdc, hsent]

theorem onlyStops_settleRunOf (c : Nat) (s : State) : OnlyStops s (settleRunOf c s) := by
  unfold settleRunOf
  split
  · exact onlyStops_settleWaits _ s
  · exact OnlyStops.refl s

/-- A core at which a SIGNAL has landed. -/
def signalLands (e : Fin 8) (x : Nat × Nat) (k : Core) : Core :=
  if k.halted then { k with signals := k.signals.erase x } else bumpEvent e { k with signals := k.signals.erase x }

theorem signalLands_event (e : Fin 8) (x : Nat × Nat) (k : Core) :
    (signalLands e x k).event = if k.halted then k.event else vmod k.event e fun y => if y == BitVec.allOnes 32 then y else y + 1 := by
  unfold signalLands
  split <;> rfl

theorem completes_signalLand {c : Fin 192} {e : Fin 8} {s : State} {x : Nat × Nat}
    (hx : (coreOf c s).signals.find? (fun x => x.2 == e.val) = some x) :
    Completes (.signalLand c e) s fun t => SameMemory s t ∧ (coreOf c t).signals = (coreOf c s).signals.erase x ∧
      ∀ i : Fin 8, (coreOf c t).event[i] = if i = e ∧ (coreOf c s).halted = false ∧ (coreOf c s).event[i] ≠ BitVec.allOnes 32
        then (coreOf c s).event[i] + 1 else (coreOf c s).event[i] := by
  have hexec : execSignalLand c e s = .next (settleRunOf c (modCore c (signalLands e x) s)) := by
    simp only [execSignalLand, hx]
    rfl
  have hcore : coreOf c (modCore c (signalLands e x) s) = signalLands e x (coreOf c s) := coreOf_modCore _ _ _
  have hstops := onlyStops_settleRunOf c (modCore c (signalLands e x) s)
  have hsignals := congrArg Core.signals (hstops.2.1 c)
  have hevent := congrArg Core.event (hstops.2.1 c)
  rw [hcore] at hsignals hevent
  refine ⟨_, hexec, SameMemory.trans ⟨rfl, rfl, rfl⟩ hstops.ends.sameMemory, hsignals.trans ?_, fun i => ?_⟩
  · simp only [besideStop, signalLands]
    split <;> rfl
  · refine (congrArg (fun v : Vector W32 8 => v[i]) hevent).trans ?_
    show (signalLands e x (coreOf c s)).event[i] = _
    simp only [signalLands_event]
    by_cases hh : (coreOf c s).halted = true
    · simp only [hh, if_true, reduceCtorEq, false_and, and_false, if_false]
    · simp only [hh, Bool.false_eq_true, if_false, getElem_vmod, beq_iff_eq, Fin.ext_iff, true_and]
      by_cases hie : i.val = e.val
      · by_cases hfull : (coreOf c s).event[i] = BitVec.allOnes 32 <;> simp [hie, hfull]
      · simp [hie]

theorem getElem_event_takeEvent (e : Nat) (n : W32) (k : Core) (i : Fin 8) :
    (takeEvent e n k).event[i] = if i.val = e then k.event[i] - n else k.event[i] := getElem_vmod _ _ _ _

theorem completes_waitev {c : Fin 192} {w : Word} {s : State} (hn : NextInside (.core c) s) (hi : Issues (.core c) w 0x30 0x02 s)
    (hreached : fld w 32 32 ≤ (vget (coreOf c s).event (fld w 17 3) 0).toNat) :
    Completes (.waitev c w) s fun t => OnlyCore c s t ∧ (coreOf c t).seq = nextSeq (coreOf c s).seq ∧ (coreOf c t).desk = (coreOf c s).desk ∧
      ∀ i : Fin 8, (coreOf c t).event[i] = if i.val = fld w 17 3 then (coreOf c s).event[i] - BitVec.ofNat 32 (fld w 32 32)
        else (coreOf c s).event[i] := by
  have hcount : (BitVec.ofNat 32 (fld w 32 32)).toNat = fld w 32 32 := by
    rw [BitVec.toNat_ofNat, Nat.mod_eq_of_lt (fld_lt w 32 32)]
  have hev : eventReached (coreOf c s) (fld w 17 3) (BitVec.ofNat 32 (fld w 32 32)) = true := by
    rw [eventReached, hcount]
    exact decide_eq_true hreached
  have hexec : execWaitev c w s = .next (advance (.core c) (modCore c (takeEvent (fld w 17 3) (BitVec.ofNat 32 (fld w 32 32))) s)) := by
    rw [execWaitev, instr_issues _ hi]
    simp only [hev, if_true]
  obtain ⟨t, hexec', honly, hseq, hbeside⟩ := completes_core (i := .waitev c w) hn hexec (fun _ => rfl) (fun _ => rfl) rfl
  have hdesk := congrArg Core.desk hbeside
  have hevent := congrArg Core.event hbeside
  refine ⟨t, hexec', honly, hseq, hdesk, fun i => ?_⟩
  exact (congrArg (fun v : Vector W32 8 => v[i]) hevent).trans (getElem_event_takeEvent _ _ _ i)

theorem completes_waitevRelease {c : Fin 192} {s : State} {e : Fin 8} {n : W32} (hw : (coreOf c s).waitEv = some (e.val, n))
    (hreached : n.toNat ≤ (coreOf c s).event[e].toNat) :
    Completes (.waitevRelease c) s fun t => OnlyCore c s t ∧ (coreOf c t).waitEv = none ∧ (coreOf c t).seq = (coreOf c s).seq ∧
      ∀ i : Fin 8, (coreOf c t).event[i] = if i = e then (coreOf c s).event[i] - n else (coreOf c s).event[i] := by
  have hev : eventReached (coreOf c s) e.val n = true := by
    rw [eventReached, vget_fin]
    exact decide_eq_true hreached
  have hexec : execWaitevRelease c s = .next (modCore c (takeEvent e.val n) s) := by
    simp only [execWaitevRelease, hw, hev, if_true]
  have hcore : coreOf c (modCore c (takeEvent e.val n) s) = takeEvent e.val n (coreOf c s) := coreOf_modCore _ _ _
  refine ⟨_, hexec, onlyCore_modCore c _ s, by rw [hcore]; rfl, by rw [hcore]; rfl, fun i => ?_⟩
  rw [hcore, getElem_event_takeEvent]
  simp only [Fin.ext_iff]

/-! ## BAR (R152) -/

/-- A run none of whose cores has halted or waits for an event at a core's own side waits for nothing hopeless. -/
theorem hopelessWait_false {u : Run} {c x : Nat} {s : State} (hc : c ∈ u.cores) (hev : (coreOf c s).waitEv = none)
    (hall : ∀ d ∈ u.cores, (coreOf d s).halted = false) : hopelessWait u x s = false := by
  have hbar : ∀ scope, (u.cores.any fun d => d != x && inScope scope x d s && (coreOf d s).halted) = false := fun scope =>
    List.any_eq_false.2 fun d hd => by rw [hall d hd, Bool.and_false]; exact Bool.false_ne_true
  have hothers : x ≠ c → othersHalted u x s = false := by
    intro hx
    refine Bool.eq_false_iff.2 fun h => ?_
    have hxc := List.all_eq_true.1 h c hc
    rw [hall c hc, Bool.or_false, beq_iff_eq] at hxc
    exact hx hxc.symm
  simp only [hopelessWait, Bool.or_eq_false_iff]
  constructor
  · split
    · next e n he =>
      have hx : x ≠ c := fun h => by rw [h, hev] at he; exact absurd he nofun
      rw [hothers hx, Bool.false_and, Bool.false_and]
    · rfl
  · split
    · exact hbar _
    · rfl

theorem settleRunOf_keeps {c : Nat} {s : State} (hev : (coreOf c s).waitEv = none)
    (hrun : ∀ u, coreRun c s = some u → c ∈ u.cores ∧ ∀ d ∈ u.cores, (coreOf d s).halted = false) : settleRunOf c s = s := by
  unfold settleRunOf
  split
  · next r hr =>
    unfold settleWaits
    split
    · rfl
    · next u hu =>
      obtain ⟨hc, hall⟩ := hrun u (by rw [coreRun, hr]; exact hu)
      have hnone : (u.cores.find? fun x => hopelessWait u x s) = none :=
        List.find?_eq_none.2 fun x _ => by rw [hopelessWait_false hc hev hall]; exact Bool.false_ne_true
      rw [hnone]
  · rfl

/-- A core that waits at a barrier, held since a time or an earlier stall. -/
def barHeld (scope : Bool) (ts : List (Fin 16)) (now : Word) (k : Core) : Core :=
  { k with waitBar := some (scope, ts), seq := { k.seq with stall := some (k.seq.stall.getD (0x04, now)) } }

/-- The state in which a core has arrived at a barrier, its run not judged yet. -/
def barArrives (c : Fin 192) (scope : Bool) (ts : List (Fin 16)) (s : State) : State :=
  holdIssue (.core c) 0x04 (modCore c (fun k => { k with waitBar := some (scope, ts) }) s)

theorem barArrives_core (c : Fin 192) (scope : Bool) (ts : List (Fin 16)) (s : State) :
    coreOf c (barArrives c scope ts s) = barHeld scope ts (mono s) (coreOf c s) := by
  refine (coreOf_modCore _ _ _).trans ?_
  rw [coreOf_modCore]
  rfl

theorem onlyCore_barArrives (c : Fin 192) (scope : Bool) (ts : List (Fin 16)) (s : State) : OnlyCore c s (barArrives c scope ts s) :=
  (onlyCore_modCore c _ s).trans (onlyCore_modCore c _ _)

theorem OnlyCore.runs {c : Fin 192} {s t : State} (h : OnlyCore c s t) : t.runs = s.runs :=
  have hruns := congrArg State.runs h.1
  hruns

theorem completes_bar {c : Fin 192} {w : Word} {s : State} (hn : NextInside (.core c) s) (hi : Issues (.core c) w 0x30 0x03 s)
    (hh : (coreOf c s).halted = false)
    (hrun : ∀ u, coreRun c s = some u → c.val ∈ u.cores ∧ ∀ d ∈ u.cores, (coreOf d s).halted = false) :
    Completes (.bar c w) s fun t => OnlyCore c s t ∧ (coreOf c t).seq.pc = (coreOf c s).seq.pc + 1 ∧ (coreOf c t).desk = (coreOf c s).desk ∧
      (coreOf c t).seq.s = (coreOf c s).seq.s ∧ (coreOf c t).vec = (coreOf c s).vec ∧
      (coreOf c t).waitBar = some (decide (fld w 20 1 = 1), if fld w 21 1 = 1 then orderTokens (coreOf c s) else []) := by
  obtain ⟨aonly, aseq, hbeside⟩ := advance_core c s hn
  have hhalted := congrArg Core.halted hbeside
  replace hhalted : (coreOf c (advance (.core c) s)).halted = false := hhalted.trans hh
  have hdesk := congrArg Core.desk hbeside
  have hvec := congrArg Core.vec hbeside
  have hrunc := congrArg Core.run hbeside
  have hwait := congrArg Core.waitEv hbeside
  have hev : (coreOf c s).waitEv = none := by
    obtain ⟨-, hcan, -⟩ := hi
    simp only [canIssue, Bool.and_eq_true, Option.isNone_iff_eq_none] at hcan
    exact hcan.1.2
  have hexec : execBar c w s = .next (settleRunOf c (barArrives c (fld w 20 1 == 1) (if fld w 21 1 == 1 then orderTokens (coreOf c s) else [])
      (advance (.core c) s))) := by
    rw [execBar, instr_issues _ hi]
    simp only [hhalted, Bool.false_eq_true, if_false]
    rfl
  generalize advance (.core c) s = v at hexec aonly aseq hhalted hdesk hvec hrunc hwait
  have hcore := barArrives_core c (fld w 20 1 == 1) (if fld w 21 1 == 1 then orderTokens (coreOf c s) else []) v
  have honly := aonly.trans (onlyCore_barArrives c (fld w 20 1 == 1) (if fld w 21 1 == 1 then orderTokens (coreOf c s) else []) v)
  generalize barArrives c _ _ v = x at hexec hcore honly
  have hkeep : settleRunOf c x = x := by
    refine settleRunOf_keeps (by rw [hcore]; exact hwait.trans hev) fun u hu => ?_
    have hsame : coreRun c x = coreRun c s := by
      have hrunx : (coreOf c x).run = (coreOf c s).run := by rw [hcore]; exact hrunc
      simp only [coreRun, runOf, hrunx, honly.runs]
    obtain ⟨hc, hall⟩ := hrun u (hsame.symm.trans hu)
    refine ⟨hc, fun d hd => ?_⟩
    by_cases hdc : d = c
    · rw [hdc, hcore]; exact hhalted
    · rw [honly.2.2.2 d hdc]; exact hall d hd
  rw [hkeep] at hexec
  have hpc : (coreOf c x).seq.pc = (coreOf c s).seq.pc + 1 := by rw [hcore]; exact congrArg Seq.pc aseq
  have hs : (coreOf c x).seq.s = (coreOf c s).seq.s := by
    rw [hcore]
    show (coreOf c v).seq.s = _
    rw [aseq]
    rfl
  have hscope : (fld w 20 1 == 1) = decide (fld w 20 1 = 1) := rfl
  refine ⟨x, hexec, honly, hpc, by rw [hcore]; exact hdesk, hs, by rw [hcore]; exact hvec, ?_⟩
  rw [hcore]
  simp only [barHeld, beq_iff_eq, hscope]

/-! ### BAR_RELEASE -/

theorem foldl_release_cases (cs : List Nat) (s : State) :
    let t := cs.foldl (fun s c => modCore c (fun k => { k with waitBar := none }) s) s
    { t with cores := s.cores } = s ∧ ∀ c : Nat, coreOf c t = if c ∈ cs then { coreOf c s with waitBar := none } else coreOf c s := by
  induction cs generalizing s with
  | nil => exact ⟨rfl, fun _ => rfl⟩
  | cons d cs ih =>
    obtain ⟨hout, hcores⟩ := ih (modCore d (fun k => { k with waitBar := none }) s)
    refine ⟨?_, fun c => (hcores c).trans ?_⟩
    · exact congrArg (fun t : State => { t with cores := s.cores }) hout
    · by_cases hc : c = d
      · subst hc
        simp [coreOf_modCore]
      · simp [hc, coreOf_modCore_other _ _ _ _ hc]

theorem completes_barRelease {s : State} {r : Nat} {scope : Bool} {f : Fin 24} {u : Run} (hu : runOf r s = some u)
    (harrived : ∀ c ∈ u.cores, (scope = true ∨ formOf c s = f.val) → ∃ ts, (coreOf c s).waitBar = some (scope, ts) ∧
      ∀ i ∈ ts, (coreOf c s).seq.tok[i] = true) :
    Completes (.barRelease r scope f) s fun t => { t with cores := s.cores } = s ∧
      ∀ c : Nat, coreOf c t = if c ∈ u.cores ∧ (scope = true ∨ formOf c s = f.val) then { coreOf c s with waitBar := none } else coreOf c s := by
  have hall : ((u.cores.filter fun c => scope || formOf c s == f.val).all fun c => arrived scope (coreOf c s)) = true := by
    refine List.all_eq_true.2 fun c hc => ?_
    simp only [List.mem_filter, Bool.or_eq_true, beq_iff_eq] at hc
    obtain ⟨ts, hbar, hready⟩ := harrived c hc.1 hc.2
    simp only [arrived, hbar, BEq.rfl, Bool.true_and]
    exact List.all_eq_true.2 hready
  have hexec : execBarRelease r scope f s = .next
      ((u.cores.filter fun c => scope || formOf c s == f.val).foldl (fun s c => modCore c (fun k => { k with waitBar := none }) s) s) := by
    simp only [execBarRelease, hu, hall, if_true]
  obtain ⟨hout, hcores⟩ := foldl_release_cases (u.cores.filter fun c => scope || formOf c s == f.val) s
  refine ⟨_, hexec, hout, fun c => (hcores c).trans ?_⟩
  simp only [List.mem_filter, Bool.or_eq_true, beq_iff_eq]

/-- Settles O23: tokens, events and barriers let their cores go on, and a run is judged only where that can stop it. -/
theorem eventsAndBarriers : Obligations.EventsAndBarriers :=
  ⟨⟨fun _ _ _ => completes_syncWait, fun _ _ _ _ _ => completes_signal, fun _ _ _ _ => completes_signalLand, fun _ _ _ => completes_waitev,
    fun _ _ _ _ => completes_waitevRelease⟩, fun _ _ _ => completes_bar, fun _ _ _ _ _ => completes_barRelease⟩

/-! ## STAT.TAG and STAT.READ (R154, R188, R202) -/

/-- A state without what the beginning of a backward phase changes. -/
def besideBackward (s : State) : State := { s with groups := [], card := {}, memory := { s.memory with moveShare := 0 } }

theorem besideBackward_setShare (v : Nat) (s : State) : besideBackward (setShare v s) = besideBackward s := by
  unfold setShare
  split
  · rfl
  · extract_lets allow t
    split <;> rfl

theorem besideBackward_noteBackward (c tag : Nat) (s : State) : besideBackward (noteBackward c tag s) = besideBackward s := by
  unfold noteBackward
  split
  · split
    · split
      · extract_lets first t
        split
        · exact besideBackward_setShare _ t
        · rfl
      · rfl
    · rfl
  · rfl

theorem completes_statTag {c : Fin 192} {w : Word} {s : State} (hn : NextInside (.core c) s) (htag : fld w 32 16 ≠ 0xFFFF)
    (hi : Issues (.core c) w 0x34 0x00 s) :
    Completes (.statTag c w) s fun t =>
      (coreOf c t).statTag = (if fld w 20 1 = 1 then some (fld w 32 16) else none) ∧ (coreOf c t).seq = nextSeq (coreOf c s).seq ∧
        (coreOf c t).desk = (coreOf c s).desk ∧ (coreOf c t).vec = (coreOf c s).vec ∧ t.memory.fast = s.memory.fast ∧
        (∀ d : Nat, d ≠ c.val → coreOf d t = coreOf d s) ∧ (fld w 20 1 = 0 → OnlyCore c s t) := by
  have hexec : execStatTag c w s = .next (advance (.core c) (modCore c
      (fun k => { k with statTag := if fld w 20 1 == 1 then some (fld w 32 16) else none })
      (if fld w 20 1 == 1 then noteBackward c (fld w 32 16) s else s))) := by
    rw [execStatTag, instr_issues _ hi]
    simp only [beq_iff_eq, htag, if_false]
  have hnoted : besideBackward (if fld w 20 1 == 1 then noteBackward c (fld w 32 16) s else s) = besideBackward s := by
    split
    · exact besideBackward_noteBackward _ _ s
    · rfl
  have huntagged : fld w 20 1 = 0 → (if fld w 20 1 == 1 then noteBackward c (fld w 32 16) s else s) = s := fun h => by rw [h]; rfl
  generalize (if fld w 20 1 == 1 then noteBackward c (fld w 32 16) s else s) = u at hexec hnoted huntagged
  have hcores : u.cores = s.cores := (congrArg State.cores hnoted).trans rfl
  have hfast := congrArg (fun x : State => x.memory.fast) hnoted
  have hcore := coreOf_congr hcores
  obtain ⟨honly, hseq, hbeside⟩ := advance_core_cases c (fun k => { k with statTag := if fld w 20 1 == 1 then some (fld w 32 16) else none }) u
    (fun _ => rfl) (fun _ => rfl) (by
      show (coreOf c u).seq.pc + 1 < (coreOf c u).seq.code.length
      rw [hcore]
      exact hn)
  rw [hcore] at hseq hbeside
  have htagged := congrArg Core.statTag hbeside
  have hdesk := congrArg Core.desk hbeside
  have hvec := congrArg Core.vec hbeside
  have hmem := honly.draws.sameMemory.1
  refine ⟨_, hexec, htagged.trans ?_, hseq, hdesk, hvec,
    (congrArg MemSt.fast hmem).trans hfast, fun d hd => (honly.2.2.2 d hd).trans (hcore d), fun h => ?_⟩
  · simp only [besideSeq, beq_iff_eq]
  · rw [huntagged h] at honly ⊢
    exact honly

theorem completes_statRead {c : Fin 192} {w : Word} {s : State} {v : Word} (hn : NextInside (.core c) s) (hi : Issues (.core c) w 0x34 0x01 s)
    (hv : statSel (fld w 17 3) (statCounts c (fld w 32 16) s) = some v) : Completes (.statRead c w) s (WritesS (.core c) (fld w 12 5) v s) := by
  refine completes_setS (fun _ => v) hn (Eq.trans (b := execStatRead c w s) rfl ?_) rfl
  rw [execStatRead, instr_issues _ hi]
  simp only [hv]

/-- Settles O24: STAT.TAG sets its core's tag after a note beside the cores, and STAT.READ writes one register. -/
theorem statisticsTagAndRead : Obligations.StatisticsTagAndRead := by
  intro c w s hn tag x
  refine ⟨completes_statTag hn, fun hi => ?_⟩
  simp only [List.forall_mem_cons]
  refine ⟨fun h => ?_, fun h => ?_, fun h => ?_, fun h => ?_, fun h => ?_, List.forall_mem_nil _⟩ <;>
    exact completes_statRead hn hi (by rw [h]; rfl)

end Sys2Proof.Machine
end

section
/-!
Instructions and events of link engines and memory-side dies (Machine/Passes.lean, Sync.lean and Stacks.lean).
-/

namespace Sys2Proof.Machine

/-! ## Egress queues -/

theorem mem_insertSeg {x y : OutSeg} {xs : List OutSeg} : y ∈ insertSeg x xs ↔ y = x ∨ y ∈ xs := by
  induction xs with
  | nil => simp [insertSeg]
  | cons z zs ih =>
    unfold insertSeg
    split
    · exact List.mem_cons
    · simp only [List.mem_cons, ih, or_left_comm]

@[simp] theorem linkOf_settleHold_egress (l : Nat) (s : State) : (linkOf l (settleHold l s)).egress = (linkOf l s).egress := by
  rw [settleHold, linkOf_modLink]

theorem linkOf_settleHold_other (l j : Nat) (s : State) (h : j ≠ l) : linkOf j (settleHold l s) = linkOf j s :=
  linkOf_modLink_other _ _ _ _ h

theorem mem_egress_enqueueSeg {l : Nat} {x y : OutSeg} {s : State} :
    y ∈ (linkOf l (enqueueSeg l x s)).egress ↔ y = x ∨ y ∈ (linkOf l s).egress := by
  rw [enqueueSeg, linkOf_settleHold_egress, linkOf_modLink]
  dsimp only
  split
  · rw [List.mem_append, List.mem_singleton, or_comm]
  · exact mem_insertSeg

theorem linkOf_enqueueSeg_other (l j : Nat) (x : OutSeg) (s : State) (h : j ≠ l) : linkOf j (enqueueSeg l x s) = linkOf j s := by
  rw [enqueueSeg, linkOf_settleHold_other _ _ _ h, linkOf_modLink_other _ _ _ _ h]

/-- A state without its links and passes: what queueing a segment leaves. -/
def besideQueues (s : State) : State := { s with links := [], passes := [] }

theorem sameMemory_of_besideQueues {s t : State} (h : besideQueues t = besideQueues s) : SameMemory s t := by
  have hmem := congrArg State.memory h
  have hA := congrArg (fun u => u.portA.mem) h
  have hB := congrArg (fun u => u.portB.mem) h
  exact ⟨hmem, hA, hB⟩

theorem besideQueues_queueSeg (p : Pass) (g : Group) (x : PlanSeg) (num l : Nat) (coded : Bool) (data : List Byte) (s : State) :
    besideQueues (queueSeg p g x num l coded data s) = besideQueues s := rfl

/-! ## Operations of a link engine (R155) -/

/-- An operation of a link engine or memory-side die that begins in the state `v`. -/
theorem beginPlaceOp_cases {p : Place} (hp : ∀ c, p ≠ .core c) (kind a b c tok : Nat) (v : State) :
    OnlyPlace p v (beginPlaceOp p kind a b c tok v) ∧ PlaceBegun p (kind, a, b, c, tok) v (beginPlaceOp p kind a b c tok v) := by
  refine stepSeq_cases p _ v (fun q => setTok_pc _ _ _) (fun q => setTok_code _ _ _) ?_
  match p with
  | .core c => exact absurd rfl (hp c)
  | .link _ => trivial
  | .mem _ => trivial

theorem cores_goTo {p : Place} (hp : ∀ c, p ≠ .core c) (n : Nat) (s : State) : (goTo p n s).cores = s.cores := by
  match p with
  | .core c => exact absurd rfl (hp c)
  | .link l => simp only [goTo, endStall]; split <;> rfl
  | .mem m => simp only [goTo, endStall]; split <;> rfl

theorem cores_beginPlaceOp {p : Place} (hp : ∀ c, p ≠ .core c) (kind a b c tok : Nat) (v : State) :
    (beginPlaceOp p kind a b c tok v).cores = v.cores := by
  refine (cores_goTo hp _ _).trans ?_
  match p with
  | .core c => exact absurd rfl (hp c)
  | .link _ => rfl
  | .mem _ => rfl

theorem withTok_free {p : Place} {n : Nat} {s : State} {body : Option (Fin 16) → State → State} (h : PlaceFree p n s) :
    withTok p n body s = body (tokField n) s := by
  obtain ⟨hres, hready, -⟩ := h
  simp only [withTok, hres, hready, Bool.false_eq_true, if_false, Bool.not_true]

theorem linkInstr_free {l : Fin 36} {w : Word} {func : Nat} {s : State} {p : Pass} {g : Group} {body : Pass → Group → State → State}
    (hfree : PlaceFree (.link l) (lwTok w) s) (hp : passNumber (lwPass l w s) s = some p) (hg : groupOf p.group s = some g)
    (hi : Issues (.link l) w 0x38 func s) : linkInstr l w func body s = .next (body p g s) := by
  have hroom : linkFull l s = false := decide_eq_false (by have := hfree.2.2; omega)
  rw [linkInstr, instr_issues _ hi, withTok_free hfree]
  simp only [hroom, hp, hg, Bool.false_eq_true, if_false]

theorem notCore_link (l : Fin 36) (c : Fin 192) : Place.link l ≠ .core c := nofun

theorem notCore_mem (m : Fin 24) (c : Fin 192) : Place.mem m ≠ .core c := nofun

theorem links_of_onlyPlace {p : Place} {s t : State} (h : OnlyPlace p s t) : t.links = s.links := (congrArg State.links h.1).trans rfl

theorem completes_send {l : Fin 36} {w : Word} {s : State} {p : Pass} {g : Group} {x : PlanSeg} {data : List Byte}
    (hfree : PlaceFree (.link l) (lwTok w) s) (hp : passNumber (lwPass l w s) s = some p) (hg : groupOf p.group s = some g)
    (hi : Issues (.link l) w 0x38 0x01 s) (hx : outgoing p g (lwSeg l w s) s = some x) (hdata : segData p g (passIeee p s) x = some data)
    (hheld : (linkOf (lwLink w) s).hold = false ∨ (linkOf (lwLink w) s).farActive = true) :
    Completes (.send l w) s fun t => PlaceBegun (.link l) (1, p.id, lwSeg l w s, lwLink w, lwTok w) s t ∧ SameMemory s t ∧ t.cores = s.cores ∧
      (p.queued.contains (lwSeg l w s) = true → t.links = s.links) ∧
      (p.queued.contains (lwSeg l w s) = false → lwLink w < 36 → outSegOf p g x (lwSeg l w s) p.coded data ∈ (linkOf (lwLink w) t).egress ∧
        (∀ y ∈ (linkOf (lwLink w) s).egress, y ∈ (linkOf (lwLink w) t).egress) ∧ ∀ j : Nat, j ≠ lwLink w → linkOf j t = linkOf j s) := by
  have hhold : ((linkOf (lwLink w) s).hold && !(linkOf (lwLink w) s).farActive) = false := by
    rcases hheld with h | h <;> simp [h]
  have hexec : execSend l w s = .next (beginPlaceOp (.link l) 1 p.id (lwSeg l w s) (lwLink w) (lwTok w)
      (if p.queued.contains (lwSeg l w s) || decide (36 ≤ lwLink w) then s
        else queueSeg p g x (lwSeg l w s) (lwLink w) p.coded data s)) := by
    rw [execSend, linkInstr_free hfree hp hg hi]
    simp only [hx, hdata, hhold, Bool.false_eq_true, if_false]
  generalize lwSeg l w s = num, lwLink w = k at *
  have hsend (v : State) : besideQueues v = besideQueues s → PlaceBegun (.link l) (1, p.id, num, k, lwTok w) s
        (beginPlaceOp (.link l) 1 p.id num k (lwTok w) v) ∧ SameMemory s (beginPlaceOp (.link l) 1 p.id num k (lwTok w) v) ∧
        (beginPlaceOp (.link l) 1 p.id num k (lwTok w) v).cores = s.cores ∧
        (beginPlaceOp (.link l) 1 p.id num k (lwTok w) v).links = v.links := by
    intro hv
    obtain ⟨honly, hbegun⟩ := beginPlaceOp_cases (notCore_link l) 1 p.id num k (lwTok w) v
    have hlinkSeq := congrArg State.linkSeq hv
    have hseq : seqOf (.link l) v = seqOf (.link l) s := congrArg (fun q => tgetD q l.val ({} : Seq)) hlinkSeq
    have hcores := congrArg State.cores hv
    refine ⟨?_, (sameMemory_of_besideQueues hv).trans (sameMemory_of_outsidePlaces honly.1),
      (cores_beginPlaceOp (notCore_link l) _ _ _ _ _ _).trans hcores, links_of_onlyPlace honly⟩
    unfold PlaceBegun at hbegun ⊢
    rw [← hseq]
    exact hbegun
  cases hq : p.queued.contains num with
  | true =>
    rw [hq, Bool.true_or, if_pos rfl] at hexec
    obtain ⟨hbegun, hmem, hcores, hlinks⟩ := hsend s rfl
    exact ⟨_, hexec, hbegun, hmem, hcores, fun _ => hlinks, nofun⟩
  | false =>
    by_cases hk : k < 36
    · rw [hq, Bool.false_or, decide_eq_false (by omega), if_neg Bool.false_ne_true] at hexec
      obtain ⟨hbegun, hmem, hcores, hlinks⟩ := hsend _ (besideQueues_queueSeg p g x num k p.coded data s)
      have hlink (j : Nat) := congrArg (fun ls => tgetD ls j ({} : Link)) hlinks
      refine ⟨_, hexec, hbegun, hmem, hcores, nofun, fun _ _ => ⟨?_, fun y hy => ?_, fun j hj => ?_⟩⟩
      · rw [linkOf, hlinks]
        exact mem_egress_enqueueSeg.2 (.inl rfl)
      · rw [linkOf, hlinks]
        exact mem_egress_enqueueSeg.2 (.inr hy)
      · rw [linkOf, hlinks]
        exact linkOf_enqueueSeg_other _ _ _ _ hj
    · rw [decide_eq_true (by omega), Bool.or_true, if_pos rfl] at hexec
      obtain ⟨hbegun, hmem, hcores, hlinks⟩ := hsend s rfl
      exact ⟨_, hexec, hbegun, hmem, hcores, fun _ => hlinks, fun _ h => absurd h hk⟩

theorem completes_deliver {l : Fin 36} {w : Word} {s : State} {p : Pass} {g : Group} (hfree : PlaceFree (.link l) (lwTok w) s)
    (hp : passNumber (lwPass l w s) s = some p) (hg : groupOf p.group s = some g) (hi : Issues (.link l) w 0x38 0x04 s)
    (hfilled : passFilled p g s = true) :
    Completes (.deliver l w) s fun t => seqOf (.link l) t = nextSeq (seqOf (.link l) s) ∧ SameMemory s t ∧
      t.passes = s.passes.map fun q => if q.id = p.id then { q with delivered := true } else q := by
  have hexec : execDeliver l w s = .next (advance (.link l) (modPass p.id (fun q => { q with delivered := true }) s)) := by
    rw [execDeliver, linkInstr_free hfree hp hg hi, if_pos hfilled]
  obtain ⟨hout, -, hseq, -⟩ :=
    goTo_cases (.link l) ((seqOf (.link l) s).pc + 1) (modPass p.id (fun q => { q with delivered := true }) s) trivial
  have hpasses := congrArg State.passes hout
  refine ⟨_, hexec, hseq, SameMemory.trans (t := modPass p.id _ s) ⟨rfl, rfl, rfl⟩ (sameMemory_of_outsidePlaces hout), hpasses.trans ?_⟩
  simp only [outsidePlaces, modPass, mapIf, beq_iff_eq]

theorem completes_slot_due {l : Fin 36} {w : Word} {s : State} (hi : Issues (.link l) w 0x38 0x00 s)
    (hv : (sreg (seqOf (.link l) s) (fld w 12 5)).toNat ≤ s.time.dtime.toNat) :
    Completes (.slot l w) s (GoesTo (.link l) ((seqOf (.link l) s).pc + 1) s) := by
  have hexec : execSlot l w s = .next (goTo (.link l) ((seqOf (.link l) s).pc + 1) s) := by
    rw [execSlot, instr_issues _ hi]
    exact congrArg _ (if_pos hv)
  exact completes_goTo trivial hexec

theorem completes_slot_wait {l : Fin 36} {w : Word} {s : State} (hi : Issues (.link l) w 0x38 0x00 s)
    (hv : s.time.dtime.toNat < (sreg (seqOf (.link l) s) (fld w 12 5)).toNat) :
    Completes (.slot l w) s fun t => OnlyPlace (.link l) s t ∧
      seqOf (.link l) t = nextSeq { seqOf (.link l) s with slotUntil := some (sreg (seqOf (.link l) s) (fld w 12 5)) } := by
  have hexec : execSlot l w s = .next (stepSeq (.link l)
      (fun q => { q with slotUntil := some (sreg (seqOf (.link l) s) (fld w 12 5)) }) s) := by
    rw [execSlot, instr_issues _ hi]
    exact congrArg _ (if_neg (Nat.not_le.2 hv))
  exact ⟨_, hexec, stepSeq_cases (.link l) (fun q => { q with slotUntil := some (sreg (seqOf (.link l) s) (fld w 12 5)) }) s
    (fun _ => rfl) (fun _ => rfl) trivial⟩

theorem onlyPlace_modSeq (p : Place) (f : Seq → Seq) (s : State) : OnlyPlace p s (modSeq p f s) :=
  ⟨outsidePlaces_modSeq _ _ _, fun _ hq => seqOf_modSeq_other _ _ _ _ hq, fun _ => besideSeq_modSeq _ _ _ _⟩

/-- Settles O25: an operation with a free token begins by one step of its place's scalar state; SEND's segment joins the sorted or fenced
queue of its link. -/
theorem timetableInstructionsBegin : Obligations.TimetableInstructionsBegin := by
  refine ⟨fun l w s p g hfree hp hg => ⟨fun x data hi hx hdata hheld => ?_, fun hi => ?_, fun hi => ?_, fun hi hfilled => ?_⟩, fun l w s hi => ⟨fun hv => ?_, fun hv => ?_⟩, fun l s v hv hdue => ?_⟩
  · exact completes_send hfree hp hg hi hx hdata hheld
  · exact ⟨_, linkInstr_free hfree hp hg hi, (beginPlaceOp_cases (notCore_link l) _ _ _ _ _ s).symm⟩
  · exact ⟨_, linkInstr_free hfree hp hg hi, (beginPlaceOp_cases (notCore_link l) _ _ _ _ _ s).symm⟩
  · exact completes_deliver hfree hp hg hi hfilled
  · exact completes_slot_due hi hv
  · exact completes_slot_wait hi hv
  · have hexec : execSlotRelease l s = .next (modSeq (.link l) (fun q => { q with slotUntil := none }) s) := by
      simp only [execSlotRelease, hv]
      exact congrArg _ (if_pos hdue)
    exact ⟨_, hexec, onlyPlace_modSeq _ _ _, seqOf_modSeq _ _ _⟩

end Sys2Proof.Machine
end

section
/-!
Sweep instructions and the events of link engines and memory-side dies (Machine/Stacks.lean, R156), and what a change of optimizer records
leaves (Machine/Update.lean, Mirror.lean).
-/

namespace Sys2Proof.Machine

/-! ## What a change of optimizer records leaves -/

/-- A state without what changing, journalling and mirroring optimizer records may change. -/
def besideRecords (s : State) : State :=
  { s with nmu := {}, mate := {}, groups := [], links := [], portA := {}, portB := {}, card := {}, devFlags := 0
           devCounts := Vector.replicate 29 0, msix := [] }

theorem besideRecords_of_onlyFlags {s t : State} (h : OnlyFlags s t) : besideRecords t = besideRecords s := by
  have hmask := congrArg besideRecords (show quiet t = quiet s from h)
  exact hmask

theorem besideRecords_foldl {α : Type} {f : State → α → State} (h : ∀ s x, besideRecords (f s x) = besideRecords s) (xs : List α) (s : State) :
    besideRecords (xs.foldl f s) = besideRecords s := by
  induction xs generalizing s with
  | nil => rfl
  | cons x xs ih => exact (ih _).trans (h s x)

theorem besideRecords_ite {p : Prop} [Decidable p] {a b s : State} (ha : besideRecords a = besideRecords s) (hb : besideRecords b = besideRecords s) :
    besideRecords (if p then a else b) = besideRecords s := by
  split
  · exact ha
  · exact hb

@[simp] theorem besideRecords_modNmu (f : NmuSt → NmuSt) (s : State) : besideRecords (modNmu f s) = besideRecords s := rfl

@[simp] theorem besideRecords_modBinding (b : Nat) (f : Binding → Binding) (s : State) : besideRecords (modBinding b f s) = besideRecords s := rfl

@[simp] theorem besideRecords_modMate (f : MateSt → MateSt) (s : State) : besideRecords (modMate f s) = besideRecords s := rfl

@[simp] theorem besideRecords_nmuFlags (f : BitVec 7) (s : State) : besideRecords (nmuFlags f s) = besideRecords s := rfl

@[simp] theorem besideRecords_setBd (e : Nat) (x : BdEntry) (s : State) : besideRecords (setBd e x s) = besideRecords s := rfl

@[simp] theorem besideRecords_enqueueSeg (l : Nat) (x : OutSeg) (s : State) : besideRecords (enqueueSeg l x s) = besideRecords s := rfl

@[simp] theorem besideRecords_raiseEvent (code : Nat) (args : List Nat) (s : State) : besideRecords (raiseEvent code args s) = besideRecords s := rfl

@[simp] theorem besideRecords_countCard (word n : Nat) (s : State) : besideRecords (countCard word n s) = besideRecords s := rfl

@[simp] theorem besideRecords_raiseDev (i : Nat) (s : State) : besideRecords (raiseDev i s) = besideRecords s :=
  besideRecords_of_onlyFlags (onlyFlags_raiseDev i s)

@[simp] theorem besideRecords_modPort (p : Port) (f : PortSt → PortSt) (s : State) : besideRecords (modPort p f s) = besideRecords s := by
  cases p <;> rfl

@[simp] theorem besideRecords_hostWrite (p : Port) (a : Nat) (bs : List Byte) (s : State) :
    besideRecords (hostWrite p a bs s) = besideRecords s := by
  unfold hostWrite
  exact besideRecords_ite rfl (besideRecords_modPort _ _ _)

@[simp] theorem besideRecords_putStripe (b : Binding) (i : Nat) (x : Stripe) (s : State) : besideRecords (putStripe b i x s) = besideRecords s := by
  unfold putStripe
  split
  · exact besideRecords_modBinding _ _ _
  · exact besideRecords_hostWrite _ _ _ _

@[simp] theorem besideRecords_putBlock (b : Binding) (q : Nat) (x : Block) (s : State) : besideRecords (putBlock b q x s) = besideRecords s := by
  unfold putBlock
  split
  · exact besideRecords_modBinding _ _ _
  · exact besideRecords_hostWrite _ _ _ _

@[simp] theorem besideRecords_bdAccess (e : Nat) (dirty : Bool) (s : State) : besideRecords (bdAccess e dirty s) = besideRecords s :=
  besideRecords_ite rfl rfl

theorem besideRecords_journalFull (j : Nat) (s : State) : besideRecords (journalFull j s) = besideRecords s :=
  besideRecords_raiseDev _ _

theorem besideRecords_noteGap (j : Nat) (r : JRec) (s : State) : besideRecords (noteGap j r s) = besideRecords s :=
  besideRecords_raiseDev _ _

@[simp] theorem besideRecords_trimJournal (j fuel : Nat) (s : State) : besideRecords (trimJournal j fuel s) = besideRecords s := by
  induction fuel generalizing s with
  | zero => rfl
  | succ fuel ih =>
    unfold trimJournal
    extract_lets
    split
    · rfl
    · split
      · exact besideRecords_journalFull _ _
      · rw [ih, besideRecords_modNmu]
        exact besideRecords_ite (besideRecords_noteGap _ _ _) rfl

@[simp] theorem besideRecords_appendRec (r : JRec) (s : State) : besideRecords (appendRec r s) = besideRecords s := by
  unfold appendRec
  extract_lets j r' s₁ s₂
  rw [besideRecords_trimJournal]
  exact besideRecords_ite rfl rfl

@[simp] theorem besideRecords_changeStripe (b : Binding) (i : Nat) (n : Word) (update : Bool) (f : Stripe → Stripe × BitVec 7) (s : State) :
    besideRecords (changeStripe b i n update f s) = besideRecords s := by
  simp only [changeStripe, journalStripe, besideRecords_nmuFlags, besideRecords_modBinding, besideRecords_appendRec, besideRecords_setBd,
    besideRecords_putStripe, besideRecords_bdAccess]

@[simp] theorem besideRecords_changeBlock (b : Binding) (q : Nat) (n : Word) (new : Block) (s : State) :
    besideRecords (changeBlock b q n new s) = besideRecords s := by
  simp only [changeBlock, journalBlock, besideRecords_appendRec, besideRecords_putBlock]

@[simp] theorem besideRecords_catchUnit (b : Binding) (u : Nat) (n : Word) (s : State) : besideRecords (catchUnit b u n s) = besideRecords s := by
  unfold catchUnit
  split
  · simp only [besideRecords_nmuFlags, besideRecords_changeBlock]
    exact besideRecords_foldl (fun _ _ => besideRecords_changeStripe _ _ _ _ _ _) _ _
  · exact besideRecords_changeStripe _ _ _ _ _ _

theorem besideRecords_sendMate (second : Bool) (ordinal : Word) (bs : List Byte) (s : State) :
    besideRecords (sendMate second ordinal bs s) = besideRecords s :=
  besideRecords_foldl (fun _ _ => besideRecords_enqueueSeg _ _ _) _ _

theorem besideRecords_sendRecord (r : JRec) (s : State) : besideRecords (sendRecord r s) = besideRecords s :=
  (besideRecords_modMate _ _).trans (besideRecords_sendMate _ _ _ s)

@[simp] theorem besideRecords_sendMirror (s : State) : besideRecords (sendMirror s) = besideRecords s := by
  unfold sendMirror
  split
  · rw [besideRecords_foldl fun u r => besideRecords_sendRecord r u, besideRecords_modMate]
  · exact besideRecords_modMate _ _

theorem besideRecords_catchSegment (e stripes : Nat) (s : State) : besideRecords (catchSegment e stripes s) = besideRecords s := by
  unfold catchSegment
  extract_lets x
  rcases bindingOf x.binding s with _ | b
  · rfl
  · dsimp only
    rcases (groupOf b.group s).bind fun g => g.open' with _ | n
    · rfl
    · exact besideRecords_ite (besideRecords_foldl (fun u i => besideRecords_ite rfl (besideRecords_catchUnit _ _ _ _)) _ _) rfl

/-! ## Sweep instructions (R156) -/

theorem sweepInstr_free {m : Fin 24} {w : Word} {func : Nat} {s : State} {effect : Nat → Nat → Nat → State → State}
    (hfree : PlaceFree (.mem m) (fld w 26 5) s) (hi : Issues (.mem m) w 0x3C func s) :
    sweepInstr m w func effect s = .next (beginPlaceOp (.mem m) func (sreg (seqOf (.mem m) s) (fld w 12 5)).toNat
      (sreg (seqOf (.mem m) s) (fld w 17 5)).toNat (fld w 22 4) (fld w 26 5)
      (effect (sreg (seqOf (.mem m) s) (fld w 12 5)).toNat (sreg (seqOf (.mem m) s) (fld w 17 5)).toNat (fld w 22 4) s)) := by
  rw [sweepInstr, instr_issues _ hi, withTok_free hfree]
  exact congrArg _ (if_neg (Nat.not_le.2 hfree.2.2))

theorem placeBegun_congr {p : Place} {op : Nat × Nat × Nat × Nat × Nat} {s v t : State} (h : seqOf p v = seqOf p s) (hb : PlaceBegun p op v t) :
    PlaceBegun p op s t := by
  unfold PlaceBegun at hb ⊢
  rw [← h]
  exact hb

theorem seqOf_mem_congr {s t : State} (h : t.memSeq = s.memSeq) (m : Fin 24) : seqOf (.mem m) t = seqOf (.mem m) s :=
  congrArg (fun q => tgetD q m.val ({} : Seq)) h

theorem completes_catchup {m : Fin 24} {w : Word} {s : State} {a b k : Nat} (hfree : PlaceFree (.mem m) (fld w 26 5) s)
    (ha : a = (sreg (seqOf (.mem m) s) (fld w 12 5)).toNat) (hb : b = (sreg (seqOf (.mem m) s) (fld w 17 5)).toNat) (hk : k = fld w 22 4)
    (hi : Issues (.mem m) w 0x3C 0x03 s) :
    Completes (.catchup m w) s fun t => PlaceBegun (.mem m) (3, a, b, k, fld w 26 5) s t ∧
      t.nmu = (sendMirror (catchSegment a b s)).nmu ∧ t.cores = s.cores := by
  have hexec : execCatchup m w s = .next (beginPlaceOp (.mem m) 3 a b k (fld w 26 5) (sendMirror (catchSegment a b s))) := by
    rw [execCatchup, sweepInstr_free hfree hi, ← ha, ← hb, ← hk]
  have hv : besideRecords (sendMirror (catchSegment a b s)) = besideRecords s :=
    (besideRecords_sendMirror _).trans (besideRecords_catchSegment a b s)
  generalize sendMirror (catchSegment a b s) = v at *
  have hcores := congrArg State.cores hv
  have hmemSeq := congrArg State.memSeq hv
  obtain ⟨honly, hbegun⟩ := beginPlaceOp_cases (notCore_mem m) 3 a b k (fld w 26 5) v
  have hnmu := congrArg State.nmu honly.1
  exact ⟨_, hexec, placeBegun_congr (seqOf_mem_congr hmemSeq m) hbegun, hnmu, (cores_beginPlaceOp (notCore_mem m) _ _ _ _ _ _).trans hcores⟩

/-! ## MOVE (R263) -/

theorem setAt_eq_set {α : Type} (xs : List α) (i : Nat) (v : α) : setAt xs i v = xs.set i v := by
  induction xs generalizing i with
  | nil => rfl
  | cons x xs ih =>
    cases i with
    | zero => rfl
    | succ i => exact congrArg _ (ih i)

theorem fullMap_ne_nil (s : State) : fullMap s ≠ [] := by
  unfold fullMap
  split
  · intro h
    have hlen := congrArg List.length h
    simp [canonicalMap] at hlen
  · next h => simpa using h

theorem fullMap_of_map {s : State} (h : s.memory.map ≠ []) : fullMap s = s.memory.map := by
  rw [fullMap, if_neg (by simpa using h)]

theorem fullMap_setMap {i : Nat} {e : MapEntry} (f : MapEntry → MapEntry) {s : State} (he : (fullMap s)[i]? = some e) :
    fullMap (setMap i f s) = (fullMap s).set i (f e) := by
  have hmap : (setMap i f s).memory.map = (fullMap s).set i (f e) := by
    simp only [setMap, he, setAt_eq_set]
    rfl
  rw [fullMap_of_map, hmap]
  rw [hmap]
  intro h
  exact fullMap_ne_nil s ((List.set_eq_nil_iff _ _).1 h)

theorem setMap_of_none {i : Nat} (f : MapEntry → MapEntry) {s : State} (he : (fullMap s)[i]? = none) :
    setMap i f s = modFlash (fun x => { x with map := (fullMap s).map settledEntry }) (modMemory (fun x => { x with map := fullMap s }) s) := by
  simp only [setMap, he]

/-- A state without its channel map and the copy of it in flash. -/
def besideMap (s : State) : State := { s with memory := { s.memory with map := [] }, flash := { s.flash with map := [] } }

/-- An entry of the map after MOVE has copied rows `a` to `a + b` of its slot. -/
def markMoved (a b rows : Nat) (e : MapEntry) : MapEntry :=
  if a ≤ e.mark ∧ e.mark < a + b then { e with mark := min rows (a + b) } else e

theorem markMoved_eq (a b rows : Nat) : markMoved a b rows =
    fun e => if decide (a ≤ e.mark) && decide (e.mark < a + b) then { e with mark := min rows (a + b) } else e := by
  funext e
  simp only [markMoved, Bool.and_eq_true, decide_eq_true_eq]

/-- What MOVE does to the map. -/
def moveRows (ch a b : Nat) (s : State) : State :=
  match copyingSlot ch s with
  | none => s
  | some i => setMap i (markMoved a b (rowsPerSlot s.flash.variant)) s

theorem besideMap_moveRows (ch a b : Nat) (s : State) : besideMap (moveRows ch a b s) = besideMap s := by
  unfold moveRows
  split <;> rfl

theorem completes_move {m : Fin 24} {w : Word} {s : State} {a b k : Nat} (hfree : PlaceFree (.mem m) (fld w 26 5) s)
    (ha : a = (sreg (seqOf (.mem m) s) (fld w 12 5)).toNat) (hb : b = (sreg (seqOf (.mem m) s) (fld w 17 5)).toNat) (hk : k = fld w 22 4)
    (hi : Issues (.mem m) w 0x3C 0x01 s) :
    Completes (.move m w) s fun t => PlaceBegun (.mem m) (1, a, b, k, fld w 26 5) s t ∧
      t.memory.fast = s.memory.fast ∧ t.portA.mem = s.portA.mem ∧ t.portB.mem = s.portB.mem ∧
      (∀ i : Nat, copyingSlot (16 * m.val + k) s = some i → ∀ e : MapEntry, (fullMap s)[i]? = some e →
        (fullMap t)[i]? = some (markMoved a b (rowsPerSlot s.flash.variant) e)) := by
  have hexec : execMove m w s = .next (beginPlaceOp (.mem m) 1 a b k (fld w 26 5) (moveRows (16 * m.val + k) a b s)) := by
    rw [execMove, sweepInstr_free hfree hi, ← ha, ← hb, ← hk]
    unfold moveRows
    cases copyingSlot (16 * m.val + k) s with
    | none => rfl
    | some i => simp only [markMoved_eq]
  have hmark (i : Nat) : copyingSlot (16 * m.val + k) s = some i → ∀ e : MapEntry, (fullMap s)[i]? = some e →
      (fullMap (moveRows (16 * m.val + k) a b s))[i]? = some (markMoved a b (rowsPerSlot s.flash.variant) e) := by
    intro hcopy e he
    obtain ⟨hlt, -⟩ := List.getElem?_eq_some_iff.1 he
    rw [moveRows, hcopy]
    dsimp only
    rw [fullMap_setMap _ he, List.getElem?_set_self hlt]
  have hv := besideMap_moveRows (16 * m.val + k) a b s
  generalize moveRows (16 * m.val + k) a b s = v at *
  have hfast := congrArg (fun u => u.memory.fast) hv
  have hA := congrArg (fun u => u.portA.mem) hv
  have hB := congrArg (fun u => u.portB.mem) hv
  have hmemSeq := congrArg State.memSeq hv
  obtain ⟨honly, hbegun⟩ := beginPlaceOp_cases (notCore_mem m) 1 a b k (fld w 26 5) v
  obtain ⟨hmem, htA, htB⟩ := sameMemory_of_outsidePlaces honly.1
  refine ⟨_, hexec, placeBegun_congr (seqOf_mem_congr hmemSeq m) hbegun, (congrArg MemSt.fast hmem).trans hfast, htA.trans hA, htB.trans hB,
    fun i hcopy e he => ?_⟩
  rw [fullMap, hmem]
  exact hmark i hcopy e he

/-! ## Completions and the scrub sweep -/

theorem tokField_eq_some_iff {n : Nat} {i : Fin 16} : tokField n = some i ↔ i.val = n := by
  unfold tokField
  split
  · rw [Option.some_inj, Fin.ext_iff, eq_comm]
  · next h => exact ⟨nofun, fun he => absurd i.isLt (by omega)⟩

/-- The scalar state of a place at which an operation under a token has ended. -/
def endPlaceOp (tok : Nat) (o : Nat × Nat × Nat × Nat × Nat) (q : Seq) : Seq := setTok (tokField tok) true { q with ops := q.ops.erase o }

theorem endPlaceOp_ops (tok : Nat) (o : Nat × Nat × Nat × Nat × Nat) (q : Seq) : (endPlaceOp tok o q).ops = q.ops.erase o := by
  unfold endPlaceOp
  cases tokField tok <;> rfl

theorem endPlaceOp_tok (tok : Nat) (o : Nat × Nat × Nat × Nat × Nat) (q : Seq) (i : Fin 16) :
    (endPlaceOp tok o q).tok[i] = if i.val = tok then true else q.tok[i] := by
  rw [endPlaceOp, getElem_tok_setTok]
  simp only [tokField_eq_some_iff]

/-- A sweep sequencer that starts at a time. -/
def startSweep (ticks : Nat) (q : Seq) : Seq := { q with running := true, pc := 0, startTick := ticks }

/-- SCRUB_SWEEP_START at one die. -/
def startDie (s : State) (m : Fin 24) : State :=
  if (vget s.memory.stk m {}).powered then modSeq (.mem m) (startSweep s.time.ticks) s else s

theorem startDie_cases (s : State) (m : Fin 24) : { startDie s m with memSeq := s.memSeq } = s ∧
    ∀ n : Fin 24, seqOf (.mem n) (startDie s m) =
      if n = m ∧ (vget s.memory.stk m {}).powered = true then startSweep s.time.ticks (seqOf (.mem n) s) else seqOf (.mem n) s := by
  unfold startDie
  split
  · next h =>
    refine ⟨rfl, fun n => ?_⟩
    by_cases hn : n = m
    · subst hn
      rw [seqOf_modSeq, if_pos ⟨rfl, h⟩]
    · rw [seqOf_modSeq_other _ _ _ _ (by simpa using hn), if_neg (fun hc => hn hc.1)]
  · next h => exact ⟨rfl, fun n => by rw [if_neg (fun hc => h hc.2)]⟩

theorem startDies_cases (ms : List (Fin 24)) (s : State) : { ms.foldl startDie s with memSeq := s.memSeq } = s ∧
    ∀ n : Fin 24, seqOf (.mem n) (ms.foldl startDie s) =
      if n ∈ ms ∧ (vget s.memory.stk n {}).powered = true then startSweep s.time.ticks (seqOf (.mem n) s) else seqOf (.mem n) s := by
  induction ms generalizing s with
  | nil => exact ⟨rfl, fun n => by simp⟩
  | cons m ms ih =>
    obtain ⟨hframe, hseq⟩ := startDie_cases s m
    obtain ⟨ihframe, ihseq⟩ := ih (startDie s m)
    have hmem := congrArg State.memory hframe
    have htime := congrArg State.time hframe
    refine ⟨(congrArg (fun u : State => { u with memSeq := s.memSeq }) ihframe).trans hframe, fun n => ?_⟩
    simp only at hmem htime
    rw [List.foldl_cons, ihseq, hseq, hmem, htime]
    by_cases hp : (vget s.memory.stk n {}).powered = true
    · by_cases hn : n = m
      · subst hn
        simp only [hp, List.mem_cons, true_or, and_self, if_true, and_true]
        split <;> rfl
      · simp only [hp, List.mem_cons, hn, false_or, false_and, if_false, and_true]
    · have hm : ¬ (n = m ∧ (vget s.memory.stk m {}).powered = true) := by
        rintro ⟨rfl, h⟩
        exact hp h
      rw [if_neg (fun h => hp h.2), if_neg hm, if_neg (fun h => hp h.2)]

theorem completes_scrubSweepStart {s : State} (hlo : 4 ≤ s.mod.stage.toNat) (hhi : s.mod.stage.toNat ≤ 7) :
    Completes .scrubSweepStart s fun t => t.memory = s.memory ∧ t.linkSeq = s.linkSeq ∧ t.cores = s.cores ∧ t.mod.scrubTick = s.time.ticks ∧
      ∀ m : Fin 24, seqOf (.mem m) t = if (s.memory.stk[m]).powered then
        { seqOf (.mem m) s with running := true, pc := 0, startTick := s.time.ticks } else seqOf (.mem m) s := by
  obtain ⟨ms, hms⟩ : ∃ ms, ms = List.finRange 24 := ⟨_, rfl⟩
  have hexec : execScrubSweepStart s = .next (ms.foldl startDie (modMod (fun x => { x with scrubTick := s.time.ticks }) s)) := by
    rw [execScrubSweepStart, ← hms]
    exact congrArg _ (if_pos (by simp only [hlo, hhi, decide_true, Bool.and_self]))
  have hall (m : Fin 24) : m ∈ ms := hms ▸ List.mem_finRange m
  clear hms
  obtain ⟨hframe, hseq⟩ := startDies_cases ms (modMod (fun x => { x with scrubTick := s.time.ticks }) s)
  have hmem := congrArg State.memory hframe
  have hlinkSeq := congrArg State.linkSeq hframe
  have hcores := congrArg State.cores hframe
  have hmod := congrArg (fun u => u.mod.scrubTick) hframe
  refine ⟨_, hexec, hmem, hlinkSeq, hcores, hmod, fun m => ?_⟩
  rw [hseq]
  simp only [hall, true_and]
  rw [show (modMod (fun x => { x with scrubTick := s.time.ticks }) s).memory = s.memory from rfl, vget_fin]
  rfl

/-- What a finished FOLD does before its token turns ready; other operations do nothing. -/
def opEffect (o : Nat × Nat × Nat × Nat × Nat) (s : State) : State := if o.1 = 3 then foldEffect o.2.1 o.2.2.1 o.2.2.2.1 s else s

theorem linkSeq_vaStore (slot va : Nat) (bs : List Byte) (s : State) : (vaStore slot va bs s).linkSeq = s.linkSeq :=
  (congrArg State.linkSeq (besideMemory_vaStore slot va bs s)).trans rfl

theorem linkSeq_foldEffect (p num k : Nat) (s : State) : (foldEffect p num k s).linkSeq = s.linkSeq := by
  unfold foldEffect
  cases passOf p s with
  | none => rfl
  | some q =>
    dsimp only
    split
    · rfl
    · cases groupOf q.group s with
      | none => rfl
      | some g =>
        dsimp only
        cases (planOf q g s)[num]? with
        | none => rfl
        | some x =>
          dsimp only
          cases segData q g (passIeee q s) x with
          | none => rfl
          | some data =>
            dsimp only
            split
            · exact linkSeq_vaStore _ _ _ _
            · split <;> rfl

theorem completes_linkOpComplete {l : Fin 36} {tok : Fin 32} {s : State} {o : Nat × Nat × Nat × Nat × Nat}
    (ho : (seqOf (.link l) s).ops.find? (fun o => o.2.2.2.2 == tok.val && linkOpDone o s) = some o) :
    Completes (.linkOpComplete l tok) s fun t =>
      (seqOf (.link l) t).ops = (seqOf (.link l) s).ops.erase o ∧ (seqOf (.link l) t).pc = (seqOf (.link l) s).pc ∧
        (∀ i : Fin 16, (seqOf (.link l) t).tok[i] = if i.val = tok.val then true else (seqOf (.link l) s).tok[i]) ∧
        (o.1 ≠ 3 → OnlyPlace (.link l) s t) := by
  have hexec : execLinkOpComplete l tok s = .next (modSeq (.link l) (endPlaceOp tok.val o) (opEffect o s)) := by
    simp only [execLinkOpComplete, ho, beq_iff_eq]
    rfl
  have hlinkSeq : (opEffect o s).linkSeq = s.linkSeq := by
    unfold opEffect
    split
    · exact linkSeq_foldEffect _ _ _ _
    · rfl
  have hseq : seqOf (.link l) (modSeq (.link l) (endPlaceOp tok.val o) (opEffect o s)) = endPlaceOp tok.val o (seqOf (.link l) s) := by
    rw [seqOf_modSeq]
    exact congrArg (fun q => endPlaceOp tok.val o (tgetD q l.val ({} : Seq))) hlinkSeq
  refine ⟨_, hexec, ?_, ?_, fun i => ?_, fun h3 => ?_⟩
  · rw [hseq, endPlaceOp_ops]
  · rw [hseq, endPlaceOp, setTok_pc]
  · rw [hseq, endPlaceOp_tok]
  · rw [opEffect, if_neg h3]
    exact onlyPlace_modSeq _ _ _

theorem completes_sweepOpComplete {m : Fin 24} {tok : Fin 32} {s : State} {o : Nat × Nat × Nat × Nat × Nat}
    (ho : (seqOf (.mem m) s).ops.find? (fun o => o.2.2.2.2 == tok.val) = some o) :
    Completes (.sweepOpComplete m tok) s fun t => OnlyPlace (.mem m) s t ∧ (seqOf (.mem m) t).ops = (seqOf (.mem m) s).ops.erase o ∧
      ∀ i : Fin 16, (seqOf (.mem m) t).tok[i] = if i.val = tok.val then true else (seqOf (.mem m) s).tok[i] := by
  have hexec : execSweepOpComplete m tok s = .next (modSeq (.mem m) (endPlaceOp tok.val o) s) := by
    simp only [execSweepOpComplete, ho]
    rfl
  refine ⟨_, hexec, onlyPlace_modSeq _ _ _, ?_, fun i => ?_⟩
  · rw [seqOf_modSeq, endPlaceOp_ops]
  · rw [seqOf_modSeq, endPlaceOp_tok]

/-- Settles O26: an operation that ends leaves its place's list and readies its token, one that begins steps its place after its effect on
the map or the records. -/
theorem placeAndSweepOperations : Obligations.PlaceAndSweepOperations := by
  refine ⟨⟨fun l tok s o => completes_linkOpComplete, fun m tok s o => completes_sweepOpComplete⟩,
    fun m w s hfree => ⟨fun hi => ?_, fun hi => ?_, fun hi => ?_, fun hi => ?_⟩, fun s => completes_scrubSweepStart⟩
  · exact ⟨_, sweepInstr_free (effect := fun _ _ _ s => s) hfree hi, (beginPlaceOp_cases (notCore_mem m) _ _ _ _ _ s).symm⟩
  · exact ⟨_, sweepInstr_free (effect := fun _ _ _ s => s) hfree hi, (beginPlaceOp_cases (notCore_mem m) _ _ _ _ _ s).symm⟩
  · exact completes_catchup hfree rfl rfl rfl hi
  · exact completes_move hfree rfl rfl rfl hi

end Sys2Proof.Machine
end

section
/-!
Links: what flags, control items, rerouted segments and a link that goes Down leave (Machine/Route.lean), and links short of their frames
and their registers (Machine/Links.lean).
-/

namespace Sys2Proof.Machine

/-! ## One link changed -/

theorem linkOf_congr {s t : State} (h : t.links = s.links) (j : Nat) : linkOf j t = linkOf j s := congrArg (fun ls => tgetD ls j ({} : Link)) h

theorem OnlyFlags.links {s t : State} (h : OnlyFlags s t) : t.links = s.links := (congrArg State.links h).trans rfl

/-- A state without its links, flags, messages and report card. -/
def besideLinks (s : State) : State := quiet { s with links := [] }

theorem onlyLink_iff {l : Nat} {s t : State} : OnlyLink l s t ↔ besideLinks t = besideLinks s ∧ ∀ k : Nat, k ≠ l → linkOf k t = linkOf k s := by
  refine and_congr_left fun _ => ⟨fun h => ?_, fun h => ?_⟩
  · exact congrArg (fun u : State => { u with links := [] }) h
  · exact congrArg (fun u : State => { u with links := s.links }) h

theorem OnlyLink.refl (l : Nat) (s : State) : OnlyLink l s s := ⟨rfl, fun _ _ => rfl⟩

theorem OnlyLink.trans {l : Nat} {s t u : State} (h : OnlyLink l s t) (k : OnlyLink l t u) : OnlyLink l s u := by
  obtain ⟨hrest, hlinks⟩ := onlyLink_iff.1 h
  obtain ⟨krest, klinks⟩ := onlyLink_iff.1 k
  exact onlyLink_iff.2 ⟨krest.trans hrest, fun j hj => (klinks j hj).trans (hlinks j hj)⟩

theorem onlyLink_modLink (l : Nat) (f : Link → Link) (s : State) : OnlyLink l s (modLink l f s) :=
  ⟨rfl, fun _ hk => linkOf_modLink_other _ _ _ _ hk⟩

theorem OnlyFlags.onlyLink {s t : State} (h : OnlyFlags s t) (l : Nat) : OnlyLink l s t :=
  onlyLink_iff.2 ⟨congrArg (fun u : State => { u with links := [] }) h, fun k _ => linkOf_congr h.links k⟩

theorem OnlyLink.sameMemory {l : Nat} {s t : State} (h : OnlyLink l s t) : SameMemory s t := by
  have hrest := h.1
  have hmem := congrArg State.memory hrest
  have hA := congrArg (fun u => u.portA.mem) hrest
  have hB := congrArg (fun u => u.portB.mem) hrest
  exact ⟨hmem, hA, hB⟩

/-! ## Flags of a link (R327) -/

/-- A link with a flag raised and counted. -/
def flagLink (i : Nat) (k : Link) : Link := { k with flags := k.flags ||| BitVec.ofNat 8 (2 ^ i), counts := vmod k.counts i (· + 1) }

theorem linkOf_raiseDev (i j : Nat) (s : State) : linkOf j (raiseDev i s) = linkOf j s := linkOf_congr (onlyFlags_raiseDev i s).links j

@[simp] theorem linkOf_raiseLink (l i : Nat) (s : State) : linkOf l (raiseLink l i s) = flagLink i (linkOf l s) := by
  rw [raiseLink, linkOf_raiseDev, linkOf_modLink]
  rfl

theorem linkOf_raiseLink_other (l i j : Nat) (s : State) (h : j ≠ l) : linkOf j (raiseLink l i s) = linkOf j s := by
  rw [raiseLink, linkOf_raiseDev, linkOf_modLink_other _ _ _ _ h]

theorem onlyLink_raiseLink (l i : Nat) (s : State) : OnlyLink l s (raiseLink l i s) :=
  (onlyLink_modLink l _ s).trans ((onlyFlags_raiseDev 28 _).onlyLink l)

theorem devFlag_of_raised {i : Nat} {s t : State} (hi : i < 29) (h : DevRaised i s t) : t.devFlags.getLsbD i = true := by
  rw [h, BitVec.getLsbD_or, BitVec.getLsbD_ofNat]
  simp [hi]

theorem devFlag_raiseLink (l i : Nat) (s : State) : (raiseLink l i s).devFlags.getLsbD 28 = true :=
  devFlag_of_raised (by decide) (devRaised_raiseDev 28 _)

theorem getLsbD_flagLink {i : Nat} (k : Link) (hi : i < 8) : (flagLink i k).flags.getLsbD i = true := by
  rw [flagLink, BitVec.getLsbD_or, BitVec.getLsbD_ofNat]
  simp [hi]

/-! ## Segments rerouted, and a link that goes Down (R297, R329, R331) -/

/-- A link without its egress queue, the segment that leaves it, those it keeps until they are acknowledged, and HOLD. -/
def besideQueue (k : Link) : Link := { k with egress := [], leaving := none, unacked := [], hold := false, pacePin := false }

/-- From `s` to `t` segments have moved between queues, and passes have been noted. -/
def OnlyQueues (s t : State) : Prop := besideQueues t = besideQueues s ∧ ∀ j : Nat, besideQueue (linkOf j t) = besideQueue (linkOf j s)

theorem OnlyQueues.refl (s : State) : OnlyQueues s s := ⟨rfl, fun _ => rfl⟩

theorem OnlyQueues.trans {s t u : State} (h : OnlyQueues s t) (k : OnlyQueues t u) : OnlyQueues s u :=
  ⟨k.1.trans h.1, fun j => (k.2 j).trans (h.2 j)⟩

theorem onlyQueues_modLink {l : Nat} {f : Link → Link} {s : State} (h : besideQueue (f (linkOf l s)) = besideQueue (linkOf l s)) :
    OnlyQueues s (modLink l f s) := by
  refine ⟨rfl, fun j => ?_⟩
  by_cases hj : j = l
  · subst hj
    rw [linkOf_modLink, h]
  · rw [linkOf_modLink_other _ _ _ _ hj]

theorem onlyQueues_settleHold (l : Nat) (s : State) : OnlyQueues s (settleHold l s) := onlyQueues_modLink rfl

theorem onlyQueues_enqueueSeg (l : Nat) (x : OutSeg) (s : State) : OnlyQueues s (enqueueSeg l x s) :=
  (onlyQueues_modLink rfl).trans (onlyQueues_settleHold l _)

theorem onlyQueues_modPass (p : Nat) (f : Pass → Pass) (s : State) : OnlyQueues s (modPass p f s) := ⟨rfl, fun _ => rfl⟩

theorem onlyQueues_rerouteSeg (l : Nat) (x : OutSeg) (s : State) : OnlyQueues s (rerouteSeg l x s) := by
  unfold rerouteSeg
  split
  · refine OnlyQueues.trans ?_ (onlyQueues_enqueueSeg _ _ _)
    split
    · exact OnlyQueues.refl s
    · exact onlyQueues_modPass _ _ _
  · exact onlyQueues_modLink rfl

theorem onlyQueues_foldl {α : Type} {f : State → α → State} (h : ∀ s x, OnlyQueues s (f s x)) (xs : List α) (s : State) :
    OnlyQueues s (xs.foldl f s) := by
  induction xs generalizing s with
  | nil => exact OnlyQueues.refl s
  | cons x xs ih => exact (h s x).trans (ih _)

theorem onlyQueues_rerouteLink (l : Nat) (s : State) : OnlyQueues s (rerouteLink l s) :=
  (onlyQueues_modLink rfl).trans (onlyQueues_foldl (fun _ _ => onlyQueues_rerouteSeg _ _ _) _ _)

theorem onlyQueues_notePasses (l : Nat) (s : State) : OnlyQueues s (notePasses l s) := ⟨rfl, fun _ => rfl⟩

/-- The queues of a link that stops carrying frames are settled. -/
theorem onlyQueues_emptied (l : Nat) (s : State) : OnlyQueues s (settleHold l (rerouteLink l (notePasses l s))) :=
  ((onlyQueues_notePasses l s).trans (onlyQueues_rerouteLink l _)).trans (onlyQueues_settleHold l _)

/-- A state without its links, passes, flags, messages, report card and the count of frames kept privately: what a link that stops
carrying frames leaves. -/
def besideCarrying (s : State) : State := quiet { s with links := [], passes := [], memory := { s.memory with privateFrames := 0 } }

theorem besideCarrying_of_onlyQueues {s t : State} (h : OnlyQueues s t) : besideCarrying t = besideCarrying s := by
  have hmask : besideQueues t = besideQueues s := h.1
  have hquiet := congrArg besideCarrying hmask
  exact hquiet

theorem besideCarrying_of_onlyLink {l : Nat} {s t : State} (h : OnlyLink l s t) : besideCarrying t = besideCarrying s := by
  have hmask : besideLinks t = besideLinks s := (onlyLink_iff.1 h).1
  have hquiet := congrArg besideCarrying hmask
  exact hquiet

/-- A link that has stopped carrying frames. -/
def stoppedLink (k : Link) : Link :=
  { k with
    farActive := false, retry := [], resend := [], rxBad := false, nakDue := false, retrainUntil := none, rxData := []
    creditZeroSince := none, kex := none, kexRetryAt := none, rollReady := false, rollItem := none
    far := { k.far with
      retransmit := [], rxStripes := [], resent := [], txShard := 0, txBody := [], repairQ := [], sentAgain := [], reserved := false, keyNext := none } }

/-- A state with the count of frames kept privately changed. -/
def countPrivate (g : Nat → Nat) (s : State) : State := modMemory (fun m => { m with privateFrames := g m.privateFrames }) s

theorem linkOf_countPrivate (g : Nat → Nat) (j : Nat) (s : State) : linkOf j (countPrivate g s) = linkOf j s := rfl

/-- The count of frames kept privately once a link's buffers are free. -/
def buffersFreed (l : Nat) (s : State) (n : Nat) : Nat := if (linkOf l s).far.reserved then n - 1024 else n

theorem stopFrames_eq (l : Nat) (s : State) : stopFrames l s = modLink l stoppedLink (countPrivate (buffersFreed l s) s) := by
  have hfree : countPrivate (buffersFreed l s) s =
      if (linkOf l s).far.reserved then modMemory (fun m => { m with privateFrames := m.privateFrames - 1024 }) s else s := by
    cases h : (linkOf l s).far.reserved
    · simp only [countPrivate, buffersFreed, h, Bool.false_eq_true, if_false]
      rfl
    · simp only [countPrivate, buffersFreed, h, if_true]
  rw [hfree]
  rfl

/-- A link that stops carrying frames, changed by `f`. -/
def stopCarrying (l : Nat) (f : Link → Link) (u : State) : State := settleHold l (rerouteLink l (notePasses l (modLink l f (stopFrames l u))))

theorem stopCarrying_cases (l : Nat) (f : Link → Link) (u : State) : besideCarrying (stopCarrying l f u) = besideCarrying u ∧
    besideQueue (linkOf l (stopCarrying l f u)) = besideQueue (f (stoppedLink (linkOf l u))) ∧
      ∀ j : Nat, j ≠ l → besideQueue (linkOf j (stopCarrying l f u)) = besideQueue (linkOf j u) := by
  simp only [stopCarrying, stopFrames_eq]
  generalize buffersFreed l u = g
  have hqueues := onlyQueues_emptied l (modLink l f (modLink l stoppedLink (countPrivate g u)))
  refine ⟨(besideCarrying_of_onlyQueues hqueues).trans rfl, (hqueues.2 l).trans ?_, fun j hj => (hqueues.2 j).trans ?_⟩
  · rw [linkOf_modLink, linkOf_modLink, linkOf_countPrivate]
  · rw [linkOf_modLink_other _ _ _ _ hj, linkOf_modLink_other _ _ _ _ hj, linkOf_countPrivate]

theorem mono_of_onlyLink {l : Nat} {s t : State} (h : OnlyLink l s t) : mono t = mono s := by
  have htime := congrArg (fun u => u.time) h.1
  exact congrArg (fun x : TimeSt => BitVec.ofNat 64 (4 * x.ticks)) htime

/-- A link that has gone Down at a time. -/
def downLink (t : Word) (k : Link) : Link :=
  { stoppedLink (flagLink 1 k) with state := 0, lanes := 0, downAt := t, rollJudged := false, proved := 0 }

theorem linkDown_cases (l : Nat) (s : State) : besideCarrying (linkDown l s) = besideCarrying s ∧
    besideQueue (linkOf l (linkDown l s)) = besideQueue (downLink (mono s) (linkOf l s)) ∧
    ∀ j : Nat, j ≠ l → besideQueue (linkOf j (linkDown l s)) = besideQueue (linkOf j s) := by
  have honly : OnlyLink l s (raiseLink l 1 (raiseEvent 0x41 [l, lanesLeft l s] s)) :=
    OnlyLink.trans ((onlyFlags_raiseEvent _ _ s).onlyLink l) (onlyLink_raiseLink l 1 _)
  have hlink : linkOf l (raiseLink l 1 (raiseEvent 0x41 [l, lanesLeft l s] s)) = flagLink 1 (linkOf l s) := linkOf_raiseLink l 1 _
  simp only [linkDown]
  generalize raiseLink l 1 (raiseEvent 0x41 [l, lanesLeft l s] s) = u at *
  obtain ⟨hrest, hstop, hother⟩ := stopCarrying_cases l (fun k =>
    { k with state := 0, lanes := 0, downAt := mono u, rollJudged := false, proved := 0 }) u
  refine ⟨hrest.trans (besideCarrying_of_onlyLink honly), hstop.trans ?_, fun j hj => (hother j hj).trans (congrArg _ (honly.2 j hj))⟩
  rw [hlink, mono_of_onlyLink honly]
  rfl

/-- The seconds a partner is held out (R329). -/
def holdOutSecs (l : Nat) (s : State) : Nat :=
  if (linkOf l s).holdOutS != 0 && decide (nsSince (linkOf l s).holdOutAt (mono s) ≤ 60000000000) then min 64 (2 * (linkOf l s).holdOutS) else 1

theorem holdOut_eq (l check : Nat) (s : State) : holdOut l check s =
    stopCarrying l (fun k => { k with
        state := 4, holdOutS := holdOutSecs l s
        holdOutAt := mono (raiseLink l 2 (raiseEvent 0x42 [l, (linkOf l s).partner.toNat, check, holdOutSecs l s] s)) })
      (raiseLink l 2 (raiseEvent 0x42 [l, (linkOf l s).partner.toNat, check, holdOutSecs l s] s)) := rfl

/-- A link held out at a time for some seconds. -/
def heldOutLink (secs : Nat) (t : Word) (k : Link) : Link := { stoppedLink (flagLink 2 k) with state := 4, holdOutS := secs, holdOutAt := t }

theorem holdOut_cases (l check : Nat) (s : State) : besideCarrying (holdOut l check s) = besideCarrying s ∧
    besideQueue (linkOf l (holdOut l check s)) = besideQueue (heldOutLink (holdOutSecs l s) (mono s) (linkOf l s)) ∧
    ∀ j : Nat, j ≠ l → besideQueue (linkOf j (holdOut l check s)) = besideQueue (linkOf j s) := by
  have honly (args : List Nat) : OnlyLink l s (raiseLink l 2 (raiseEvent 0x42 args s)) :=
    OnlyLink.trans ((onlyFlags_raiseEvent _ _ s).onlyLink l) (onlyLink_raiseLink l 2 _)
  have hlink (args : List Nat) : linkOf l (raiseLink l 2 (raiseEvent 0x42 args s)) = flagLink 2 (linkOf l s) := linkOf_raiseLink l 2 _
  specialize honly [l, (linkOf l s).partner.toNat, check, holdOutSecs l s]
  specialize hlink [l, (linkOf l s).partner.toNat, check, holdOutSecs l s]
  rw [holdOut_eq]
  generalize raiseLink l 2 (raiseEvent 0x42 [l, (linkOf l s).partner.toNat, check, holdOutSecs l s] s) = u at *
  obtain ⟨hrest, hstop, hother⟩ := stopCarrying_cases l (fun k => { k with state := 4, holdOutS := holdOutSecs l s, holdOutAt := mono u }) u
  refine ⟨hrest.trans (besideCarrying_of_onlyLink honly), hstop.trans ?_, fun j hj => (hother j hj).trans (congrArg _ (honly.2 j hj))⟩
  rw [hlink, mono_of_onlyLink honly]
  rfl

theorem fast_of_besideCarrying {s t : State} (h : besideCarrying t = besideCarrying s) : t.memory.fast = s.memory.fast := by
  have hfast := congrArg (fun u => u.memory.fast) h
  exact hfast

theorem state_of_besideQueue {k j : Link} (h : besideQueue k = besideQueue j) : k.state = j.state := by
  have hstate := congrArg Link.state h
  exact hstate

theorem flags_of_besideQueue {k j : Link} (h : besideQueue k = besideQueue j) : k.flags = j.flags := by
  have hflags := congrArg Link.flags h
  exact hflags

theorem enable_of_besideQueue {k j : Link} (h : besideQueue k = besideQueue j) : k.enable = j.enable := by
  have henable := congrArg Link.enable h
  exact henable

theorem kex_of_besideQueue {k j : Link} (h : besideQueue k = besideQueue j) : k.kex = j.kex := by
  have hkex := congrArg Link.kex h
  exact hkex

theorem linkDown_state (l : Nat) (s : State) : (linkOf l (linkDown l s)).state = 0 := state_of_besideQueue (linkDown_cases l s).2.1

theorem linkDown_enable (l : Nat) (s : State) : (linkOf l (linkDown l s)).enable = (linkOf l s).enable :=
  Eq.trans (enable_of_besideQueue (linkDown_cases l s).2.1) rfl

theorem linkDown_flag (l : Nat) (s : State) : (linkOf l (linkDown l s)).flags.getLsbD 1 = true := by
  rw [flags_of_besideQueue (linkDown_cases l s).2.1]
  exact getLsbD_flagLink (linkOf l s) (by decide)

theorem linkDown_fast (l : Nat) (s : State) : (linkDown l s).memory.fast = s.memory.fast := fast_of_besideCarrying (linkDown_cases l s).1

theorem holdOut_state (l check : Nat) (s : State) : (linkOf l (holdOut l check s)).state = 4 := state_of_besideQueue (holdOut_cases l check s).2.1

theorem holdOut_kex (l check : Nat) (s : State) : (linkOf l (holdOut l check s)).kex = none := kex_of_besideQueue (holdOut_cases l check s).2.1

theorem holdOut_fast (l check : Nat) (s : State) : (holdOut l check s).memory.fast = s.memory.fast :=
  fast_of_besideCarrying (holdOut_cases l check s).1

end Sys2Proof.Machine
end

section
/-!
Links short of their frames and the link registers (Machine/Links.lean, Table 12-2, Table 12-11).
-/

namespace Sys2Proof.Machine

/-! ## Lock, lanes, Down and hold-out -/

theorem completes_modLink {i : Instr} {l : Nat} {f : Link → Link} {s : State} (hexec : exec i s = .next (modLink l f s)) :
    Completes i s fun t => OnlyLink l s t ∧ linkOf l t = f (linkOf l s) :=
  ⟨_, hexec, onlyLink_modLink l f s, linkOf_modLink l f s⟩

/-- A link that has lost a lane and retrains on the rest from a time on. -/
def laneGone (lane : Nat) (t : Word) (k : Link) : Link :=
  { k with lanes := k.lanes &&& ~~~ BitVec.ofNat 4 (2 ^ lane), retrainUntil := some (t + 50000) }

/-- A link that has lost a lane, with what is noted of it but the flag. -/
def laneNoted (l lane : Nat) (s : State) : State := forgetLink l (noteLane l lane (modLink l (laneGone lane (mono s)) s))

theorem completes_laneLost {l : Fin 36} {lane : Fin 4} {s : State} (hstate : 2 ≤ (linkOf l s).state)
    (hlane : (linkOf l s).lanes.getLsbD lane.val = true)
    (hleft : 2 ≤ lanesLeft l (modLink l (fun k => { k with lanes := k.lanes &&& ~~~ BitVec.ofNat 4 (2 ^ lane.val) }) s)) :
    Completes (.laneLost l lane) s fun t => (linkOf l t).lanes = (linkOf l s).lanes &&& ~~~ BitVec.ofNat 4 (2 ^ lane.val) ∧
      (linkOf l t).state = (linkOf l s).state ∧ (linkOf l t).retrainUntil = some (mono s + 50000) ∧ (linkOf l t).flags.getLsbD 0 = true ∧
      t.devFlags.getLsbD 28 = true ∧ (tgetD t.flash.laneFailed l 0).testBit lane.val = true ∧
      (∀ j : Nat, j ≠ l.val → linkOf j t = linkOf j s) ∧ t.memory = s.memory := by
  have honly (args : List Nat) := OnlyLink.trans ((onlyFlags_raiseEvent 0x40 args (laneNoted l lane s)).onlyLink l) (onlyLink_raiseLink l 0 _)
  have hlink (args : List Nat) : linkOf l (raiseLink l 0 (raiseEvent 0x40 args (laneNoted l lane s))) =
      flagLink 0 (laneGone lane (mono s) (linkOf l s)) := (linkOf_raiseLink l 0 _).trans (congrArg (flagLink 0) (linkOf_modLink l _ s))
  have hflag (args : List Nat) := devFlag_raiseLink l 0 (raiseEvent 0x40 args (laneNoted l lane s))
  have hleft' : ¬ laneCount (laneGone lane (mono s) (linkOf l s)) < 2 := by
    rw [lanesLeft, linkOf_modLink] at hleft
    exact Nat.not_lt.2 hleft
  obtain ⟨args, hexec⟩ : ∃ args, execLaneLost l lane s = .next (raiseLink l 0 (raiseEvent 0x40 args (laneNoted l lane s))) := by
    simp only [execLaneLost, hlane, decide_eq_true hstate, Bool.and_self, if_true]
    refine ⟨_, congrArg _ (if_neg fun hlt => hleft' ?_)⟩
    rw [lanesLeft, linkOf_raiseLink] at hlt
    have hkept := congrArg (fun k => laneCount (flagLink 0 k)) (linkOf_modLink l (laneGone lane (mono s)) s)
    exact Eq.trans_lt hkept.symm hlt
  specialize honly args
  specialize hlink args
  specialize hflag args
  generalize raiseLink l 0 (raiseEvent 0x40 args (laneNoted l lane s)) = t at *
  have hflash := congrArg State.flash honly.1
  have hmem := congrArg State.memory honly.1
  refine ⟨t, hexec, ?_, ?_, ?_, ?_, hflag, ?_, fun j hj => (honly.2 j hj).trans (linkOf_modLink_other _ _ _ _ hj), hmem⟩
  · rw [hlink]; rfl
  · rw [hlink]; rfl
  · rw [hlink]; rfl
  · rw [hlink]
    exact getLsbD_flagLink _ (by decide)
  · have hfailed : t.flash.laneFailed = tset s.flash.laneFailed l (tgetD s.flash.laneFailed l 0 ||| 2 ^ lane.val) := congrArg FlashSt.laneFailed hflash
    rw [hfailed, tgetD_tset_same, Nat.testBit_or, Nat.testBit_two_pow_self, Bool.or_true]

/-- Settles O27: each event changes its link by one update, or takes it out of service. -/
theorem linkStateEvents : Obligations.LinkStateEvents := by
  refine fun l s => ⟨fun h0 hen hup => ?_, fun h0 hen hdue => ?_, fun i hst hl hleft => completes_laneLost hst hl hleft, fun x hx => ?_,
    fun hfar hretry hdue h4 h0 => ?_, fun h4 hdue hen => ?_, fun x hx h3 hdue => ?_⟩
  · have hexec : execLinkLock l s = .next (modLink l (fun k => { k with state := 1 }) s) := by
      simp only [execLinkLock, h0, hen, hup, beq_self_eq_true, Bool.and_self, if_true]
    exact completes_modLink (i := .linkLock l) hexec
  · have hexec : execLinkAutoRetrain l s = .next (modLink l (fun k => { k with downAt := mono s }) s) := by
      simp only [execLinkAutoRetrain, h0, hen, hdue, beq_self_eq_true, decide_true, Bool.and_self, if_true]
    exact completes_modLink (i := .linkAutoRetrain l) hexec
  · have hexec : execLaneRetrainDone l s = .next (modLink l (fun k => { k with retrainUntil := none, resend := k.retry }) s) := by
      simp only [execLaneRetrainDone, hx, Option.isSome_some, if_true]
    exact completes_modLink (i := .laneRetrainDone l) hexec
  · have hexec : execLinkAckTimeout l s = .next (linkDown l s) := by
      simp only [execLinkAckTimeout, dropLink, hfar, hdue, List.isEmpty_eq_false_iff.2 hretry, beq_eq_false_iff_ne.2 h4, beq_eq_false_iff_ne.2 h0,
        decide_true, Bool.not_false, Bool.and_self, Bool.or_self, Bool.false_eq_true, if_true, if_false]
    exact ⟨_, hexec, linkDown_state _ _, linkDown_fast _ _⟩
  · have hexec : execHoldOutExpiry l s = .next (modLink l (fun k => { k with state := 1, rollJudged := false, proved := 0 }) s) := by
      simp only [execHoldOutExpiry, endHoldOut, h4, hdue, hen, beq_self_eq_true, decide_true, Bool.and_self, if_true]
    exact completes_modLink (i := .holdOutExpiry l) hexec
  · have hexec : execCreditStallTimeout l s = .next (holdOut l 5 s) := by
      simp only [execCreditStallTimeout, hx, h3, hdue, beq_self_eq_true, decide_true, Bool.and_self, if_true]
    exact ⟨_, hexec, holdOut_state _ _ _, holdOut_fast _ _ _⟩

end Sys2Proof.Machine
end

section
/-!
Descriptors and passes that end: what a final completion, the answer to an XPOST and the end of a pass leave (Machine/Descs.lean,
Machine/Passes.lean).
-/

namespace Sys2Proof.Machine

/-! ## What an end leaves -/

/-- A state without what the end of a descriptor or pass may change: links and passes stay. -/
def besideEnd (s : State) : State :=
  { s with slots := [], descs := [], cores := [], runs := [], stats := [], expertPages := [], groups := [], nmu := {}, memory := {}, portA := {}
           portB := {}, regions := [], card := {}, devFlags := 0, devCounts := Vector.replicate 29 0, msix := [], free := 0 }

theorem besideEnd_ite {p : Prop} [Decidable p] {a b s : State} (ha : besideEnd a = besideEnd s) (hb : besideEnd b = besideEnd s) :
    besideEnd (if p then a else b) = besideEnd s := by
  split
  · exact ha
  · exact hb

theorem besideEnd_of_onlyEnds {s t : State} (h : OnlyEnds s t) : besideEnd t = besideEnd s := by
  have hlessons : besideLessons t = besideLessons s := h.1
  have hmask := congrArg besideEnd hlessons
  exact hmask

theorem besideEnd_of_besideMemory {s t : State} (h : besideMemory t = besideMemory s) : besideEnd t = besideEnd s := by
  have hmask := congrArg besideEnd h
  exact hmask

@[simp] theorem besideEnd_modPort (p : Port) (f : PortSt → PortSt) (s : State) : besideEnd (modPort p f s) = besideEnd s := by cases p <;> rfl

@[simp] theorem besideEnd_modSlot (i : Nat) (f : Slot → Slot) (s : State) : besideEnd (modSlot i f s) = besideEnd s := rfl

@[simp] theorem besideEnd_modChan (i : Nat) (f : Chan → Chan) (s : State) : besideEnd (modChan i f s) = besideEnd s := by
  unfold modChan
  split <;> rfl

@[simp] theorem besideEnd_modGroup (g : Nat) (f : Group → Group) (s : State) : besideEnd (modGroup g f s) = besideEnd s := rfl

@[simp] theorem besideEnd_postCompl (slot : Nat) (c : Compl) (s : State) : besideEnd (postCompl slot c s) = besideEnd s :=
  besideEnd_ite (besideEnd_modPort _ _ _) (besideEnd_ite (besideEnd_modPort _ _ _) (besideEnd_modChan _ _ _))

theorem besideEnd_modMemory (f : MemSt → MemSt) (s : State) : besideEnd (modMemory f s) = besideEnd s := rfl

theorem besideEnd_freeFrames (fs : List Nat) (s : State) : besideEnd (freeFrames fs s) = besideEnd s := besideEnd_modMemory _ _

theorem besideEnd_dropAliases (slot : Nat) (dead : Nat → Bool) (s : State) : besideEnd (dropAliases slot dead s) = besideEnd s := rfl

theorem besideEnd_releaseBindings (which : Binding → Bool) (s : State) : besideEnd (releaseBindings which s) = besideEnd s := rfl

theorem besideEnd_dropRegions (which : Region → Bool) (s : State) : besideEnd (dropRegions which s) = besideEnd s := rfl

theorem besideEnd_withStats (xs : List StatSet) (es : List ExpertPage) (s : State) :
    besideEnd { s with stats := xs, expertPages := es } = besideEnd s := rfl

theorem besideEnd_freeSlot (slot : Nat) (s : State) : besideEnd (freeSlot slot s) = besideEnd s := by
  unfold freeSlot
  split
  · rfl
  · rw [besideEnd_modSlot, besideEnd_withStats, besideEnd_dropRegions, besideEnd_releaseBindings, besideEnd_dropAliases, besideEnd_freeFrames]

theorem besideEnd_withDescs (ds : List DescRec) (s : State) : besideEnd { s with descs := ds } = besideEnd s := rfl

@[simp] theorem besideEnd_settleDestroy (slot : Nat) (s : State) : besideEnd (settleDestroy slot s) = besideEnd s := by
  unfold settleDestroy
  split
  · rfl
  · split
    · rfl
    · refine besideEnd_ite (besideEnd_ite ?_ ?_) rfl
      · rw [besideEnd_withDescs, besideEnd_freeSlot]
      · rw [besideEnd_postCompl, besideEnd_withDescs, besideEnd_freeSlot]

@[simp] theorem besideEnd_finish (r : DescRec) (status : BitVec 8) (detail : BitVec 16) (result0 : Word) (s : State) :
    besideEnd (finish r status detail result0 s) = besideEnd s := by
  unfold finish
  rw [besideEnd_settleDestroy]
  exact besideEnd_ite rfl (besideEnd_postCompl _ _ _)

@[simp] theorem besideEnd_settleCore (c : Nat) (s : State) : besideEnd (settleCore c s) = besideEnd s := besideEnd_of_onlyEnds (onlyEnds_settleCore c s)

theorem besideEnd_modRun (r : Nat) (f : Run → Run) (s : State) : besideEnd (modRun r f s) = besideEnd s := rfl

theorem besideEnd_modCore (c : Nat) (f : Core → Core) (s : State) : besideEnd (modCore c f s) = besideEnd s := rfl

@[simp] theorem besideEnd_answerXpost (desc : Nat) (first final : Bool) (status : BitVec 8) (result0 : Word) (s : State) :
    besideEnd (answerXpost desc first final status result0 s) = besideEnd s := by
  unfold answerXpost
  split
  · rfl
  · split
    · rfl
    · extract_lets t
      have ht : besideEnd t = besideEnd s := besideEnd_modRun _ _ _
      refine besideEnd_ite ?_ ht
      rw [besideEnd_settleCore, besideEnd_modCore, ht]

@[simp] theorem besideEnd_vaWrite (slot va : Nat) (bs : List Byte) (s : State) : besideEnd (vaWrite slot va bs s) = besideEnd s :=
  besideEnd_of_besideMemory (besideMemory_vaWrite slot va bs s)

@[simp] theorem besideEnd_drawFree (n : Nat) (s : State) : besideEnd (drawFree n s) = besideEnd s := rfl

@[simp] theorem besideEnd_spoilDst (p : Pass) (s : State) : besideEnd (spoilDst p s) = besideEnd s := by
  unfold spoilDst
  split
  · rw [besideEnd_drawFree, besideEnd_vaWrite]
  · rfl

@[simp] theorem besideEnd_endFused (p : Pass) (status : BitVec 8) (s : State) : besideEnd (endFused p status s) = besideEnd s :=
  besideEnd_ite rfl (besideEnd_modGroup _ _ _)

@[simp] theorem besideEnd_cardPass (p : Pass) (late : Bool) (s : State) : besideEnd (cardPass p late s) = besideEnd s := rfl

/-- An admitted pass that ends leaves the links and passes that its leaving the hall-pass table leaves. -/
theorem besideEnd_voidPass (p : Pass) (status : BitVec 8) (detail : BitVec 16) (result0 : Word) (s : State) :
    besideEnd (voidPass p status detail result0 s) = besideEnd (dropPass p s) := by
  unfold voidPass
  extract_lets u v
  have hu : besideEnd u = besideEnd (dropPass p s) := by
    show besideEnd (spoilDst _ _) = _
    rw [besideEnd_spoilDst, besideEnd_endFused, besideEnd_cardPass]
  have hv : besideEnd v = besideEnd (dropPass p s) := (besideEnd_ite (besideEnd_modGroup _ _ _) rfl).trans hu
  split
  · rw [besideEnd_answerXpost, besideEnd_finish, hv]
  · exact hv

/-! ## Passes and their queued segments -/

theorem releaseStaging_keeps (p : Pass) (s : State) : (releaseStaging p s).passes = s.passes ∧ (releaseStaging p s).links = s.links := by
  unfold releaseStaging
  split
  · exact ⟨rfl, rfl⟩
  · split <;> exact ⟨rfl, rfl⟩

theorem passes_dropPass (p : Pass) (s : State) : (dropPass p s).passes = s.passes.filter fun q => q.id != p.id :=
  (releaseStaging_keeps p _).1

theorem links_dropPass (p : Pass) (s : State) :
    (dropPass p s).links = s.links.map fun l => (l.1, { l.2 with egress := l.2.egress.filter fun x => x.pass != p.id + 1 }) := by
  have hlinks := (releaseStaging_keeps p { s with passes := s.passes.filter fun q => q.id != p.id }).2
  exact congrArg (List.map fun l : Nat × Link => (l.1, { l.2 with egress := l.2.egress.filter fun x => x.pass != p.id + 1 })) hlinks

theorem passes_of_besideEnd {s t : State} (h : besideEnd t = besideEnd s) : t.passes = s.passes := by
  have hpasses := congrArg State.passes h
  exact hpasses

theorem links_of_besideEnd {s t : State} (h : besideEnd t = besideEnd s) : t.links = s.links := by
  have hlinks := congrArg State.links h
  exact hlinks

theorem passOf_voidPass (p : Pass) (status : BitVec 8) (detail : BitVec 16) (result0 : Word) (s : State) :
    passOf p.id (voidPass p status detail result0 s) = none := by
  rw [passOf, passes_of_besideEnd (besideEnd_voidPass p status detail result0 s), passes_dropPass]
  refine List.find?_eq_none.2 fun q hq => ?_
  obtain ⟨-, hne⟩ := List.mem_filter.1 hq
  simpa using hne

/-! ## Descriptors -/

/-- No descriptor is held in `t` that was not in `s`. -/
def DescsEnd (s t : State) : Prop := ∀ x ∈ t.descs, x ∈ s.descs

theorem descs_modChan (i : Nat) (f : Chan → Chan) (s : State) : (modChan i f s).descs = s.descs := by
  unfold modChan
  split <;> rfl

theorem descs_postCompl (slot : Nat) (c : Compl) (s : State) : (postCompl slot c s).descs = s.descs := by
  unfold postCompl
  split
  · exact modPort_descs _ _ _
  · split
    · exact modPort_descs _ _ _
    · exact descs_modChan _ _ _

theorem descsEnd_settleDestroy (slot : Nat) (s : State) : DescsEnd s (settleDestroy slot s) := by
  have hfilter (ds : List DescRec) (u : State) (f : DescRec → Bool) (h : u.descs = ds.filter f) (hds : ds = s.descs) : DescsEnd s u := by
    intro x hx
    rw [h, hds] at hx
    exact List.mem_of_mem_filter hx
  unfold settleDestroy
  split
  · exact fun x hx => hx
  · split
    · exact fun x hx => hx
    · split
      · extract_lets t
        split
        · exact hfilter _ _ _ rfl rfl
        · exact hfilter _ _ _ (descs_postCompl _ _ _) rfl
      · exact fun x hx => hx

theorem descs_finish {r x : DescRec} {status : BitVec 8} {detail : BitVec 16} {result0 : Word} {s : State}
    (h : x ∈ (finish r status detail result0 s).descs) : x ∈ s.descs ∧ x.id ≠ r.id := by
  unfold finish at h
  replace h := descsEnd_settleDestroy _ _ _ h
  have hfilter : x ∈ s.descs.filter fun x => x.id != r.id := by
    split at h
    · exact h
    · rw [descs_postCompl] at h
      exact h
  obtain ⟨hmem, hne⟩ := List.mem_filter.1 hfilter
  exact ⟨hmem, by simpa using hne⟩

theorem descs_settleCore (c : Nat) (s : State) : (settleCore c s).descs = s.descs := by
  have hlessons : besideLessons (settleCore c s) = besideLessons s := (onlyEnds_settleCore c s).1
  have hdescs := congrArg State.descs hlessons
  exact hdescs

theorem descs_answerXpost (desc : Nat) (first final : Bool) (status : BitVec 8) (result0 : Word) (s : State) :
    (answerXpost desc first final status result0 s).descs = s.descs := by
  unfold answerXpost
  split
  · rfl
  · split
    · rfl
    · extract_lets t
      split
      · exact descs_settleCore _ _
      · rfl

theorem descOf_eq_none_iff {i : Nat} {s : State} : descOf i s = none ↔ ∀ x ∈ s.descs, x.id ≠ i := by
  simp only [descOf, List.find?_eq_none, beq_iff_eq, ne_eq]

theorem id_of_descOf {i : Nat} {r : DescRec} {s : State} (h : descOf i s = some r) : r.id = i := by
  simpa using List.find?_some h

theorem descOf_voidPass (p : Pass) (status : BitVec 8) (detail : BitVec 16) (result0 : Word) (s : State) :
    descOf p.desc (voidPass p status detail result0 s) = none := by
  unfold voidPass
  extract_lets u v
  split
  · next r hr =>
    rw [descOf_eq_none_iff, descs_answerXpost]
    intro x hx
    rw [← id_of_descOf hr]
    exact (descs_finish hx).2
  · next hr => exact hr

end Sys2Proof.Machine
end

section
/-!
The link registers, the sorter fence, flush and avoidance (Machine/Links.lean, Table 12-11).
-/

namespace Sys2Proof.Machine

/-! ## Accesses to registers (R21, R445) -/

@[simp] theorem linkOf_modPort (p : Port) (f : PortSt → PortSt) (j : Nat) (s : State) : linkOf j (modPort p f s) = linkOf j s := by
  cases p <;> rfl

@[simp] theorem linkOf_endLatch (p : Port) (j : Nat) (s : State) : linkOf j (endLatch p s) = linkOf j s := linkOf_modPort _ _ _ _

@[simp] theorem linkOf_readsAs (p : Port) (v : Word) (j : Nat) (s : State) : linkOf j (readsAs p v s) = linkOf j s := linkOf_modPort _ _ _ _

@[simp] theorem mono_endLatch (p : Port) (s : State) : mono (endLatch p s) = mono s := by cases p <;> rfl

@[simp] theorem linkInMask_endLatch (p : Port) (l : Nat) (s : State) : linkInMask l (endLatch p s) = linkInMask l s := by cases p <;> rfl

@[simp] theorem linkEnabled_endLatch (p : Port) (l : Nat) (s : State) : linkEnabled l (endLatch p s) = linkEnabled l s := by cases p <;> rfl

@[simp] theorem memory_endLatch (p : Port) (s : State) : (endLatch p s).memory = s.memory := modPort_memory _ _ _

@[simp] theorem links_endLatch (p : Port) (s : State) : (endLatch p s).links = s.links := modPort_links _ _ _

theorem regAccess_answers {p : Port} {s : State} (h : RegistersAnswer p s) (f : State → State) : regAccess p f s = f (endLatch p s) := by
  obtain ⟨hfenced, hup⟩ := h
  rw [regAccess, hfenced, hup, if_neg Bool.false_ne_true, if_pos rfl]

theorem readAccess_answers {p : Port} {s : State} (h : RegistersAnswer p s) (f : State → State) : readAccess p f s = f (endLatch p s) := by
  rw [readAccess, h.2, if_pos rfl]

/-! ## ENABLE, RETRAIN, RELEASE and the watermarks -/

theorem completes_linkEnable_off {p : Port} {l : Fin 36} {s : State} (h : RegistersAnswer p s) (hmask : linkInMask l s = true)
    (hstate : (linkOf l s).state ≠ 0) : Completes (.linkEnableWrite p l false) s fun t =>
      (linkOf l t).enable = false ∧ (linkOf l t).state = 0 ∧ t.memory.fast = s.memory.fast := by
  have hlink : linkOf l (modLink l (fun k => { k with enable := false }) (endLatch p s)) = { linkOf l s with enable := false } := by
    rw [linkOf_modLink, linkOf_endLatch]
  have hexec : execLinkEnableWrite p l false s = .next (linkDown l (modLink l (fun k => { k with enable := false }) (endLatch p s))) := by
    rw [execLinkEnableWrite, regAccess_answers h]
    simp only [linkInMask_endLatch, hmask, hlink, beq_eq_false_iff_ne.2 hstate, Bool.not_true, Bool.not_false, Bool.false_eq_true, if_false, if_true]
  refine ⟨_, hexec, ?_, linkDown_state _ _, ?_⟩
  · rw [linkDown_enable, hlink]
  · rw [linkDown_fast]
    exact congrArg MemSt.fast (memory_endLatch p s)

theorem completes_linkEnable_on {p : Port} {l : Fin 36} {s : State} (h : RegistersAnswer p s) (hmask : linkInMask l s = true)
    (hoff : (linkOf l s).enable = false) : Completes (.linkEnableWrite p l true) s fun t =>
      linkOf l t = { linkOf l s with enable := true, downAt := mono s } ∧ ∀ j : Nat, j ≠ l.val → linkOf j t = linkOf j s := by
  have hexec : execLinkEnableWrite p l true s = .next (modLink l (fun k => { k with downAt := mono s })
      (modLink l (fun k => { k with enable := true }) (endLatch p s))) := by
    rw [execLinkEnableWrite, regAccess_answers h]
    simp only [linkInMask_endLatch, linkOf_endLatch, hmask, hoff, Bool.not_true, Bool.not_false, Bool.false_eq_true, if_false, if_true]
    rw [show mono (modLink l (fun k => { k with enable := true }) (endLatch p s)) = mono s from mono_endLatch p s]
  refine ⟨_, hexec, ?_, fun j hj => ?_⟩
  · rw [linkOf_modLink, linkOf_modLink, linkOf_endLatch]
  · rw [linkOf_modLink_other _ _ _ _ hj, linkOf_modLink_other _ _ _ _ hj, linkOf_endLatch]

theorem completes_linkRetrain {p : Port} {l : Fin 36} {s : State} (h : RegistersAnswer p s) (hen : linkEnabled l s = true)
    (hstate : (linkOf l s).state = 2 ∨ (linkOf l s).state = 3) : Completes (.linkRetrainWrite p l) s fun t => (linkOf l t).state = 0 := by
  have hexec : execLinkRetrainWrite p l s = .next (linkDown l (endLatch p s)) := by
    rw [execLinkRetrainWrite, regAccess_answers h]
    rcases hstate with hst | hst <;>
      simp only [linkEnabled_endLatch, linkOf_endLatch, hen, hst, Bool.not_true, Bool.false_eq_true, if_false]
  exact ⟨_, hexec, linkDown_state _ _⟩

theorem completes_linkRelease {p : Port} {l : Fin 36} {s : State} (h : RegistersAnswer p s) (hen : linkEnabled l s = true)
    (hstate : (linkOf l s).state = 4) : Completes (.linkReleaseWrite p l) s fun t =>
      (linkOf l t).state = 1 ∧ ∀ j : Nat, j ≠ l.val → linkOf j t = linkOf j s := by
  have hexec : execLinkReleaseWrite p l s = .next (modLink l (fun k => { k with state := 1, rollJudged := false, proved := 0 }) (endLatch p s)) := by
    rw [execLinkReleaseWrite, regAccess_answers h]
    simp only [endHoldOut, linkEnabled_endLatch, linkOf_endLatch, hen, hstate, beq_self_eq_true, if_true]
  refine ⟨_, hexec, ?_, fun j hj => ?_⟩
  · rw [linkOf_modLink]
  · rw [linkOf_modLink_other _ _ _ _ hj, linkOf_endLatch]

/-! ## Tables -/

theorem tget?_map {α : Type} (g : α → α) (t : Tbl α) (k : Nat) : tget? (t.map fun e => (e.1, g e.2)) k = (tget? t k).map g := by
  induction t with
  | nil => rfl
  | cons e t ih =>
    simp only [List.map_cons, tget?]
    split
    · rfl
    · exact ih

theorem mem_of_tget? {α : Type} {t : Tbl α} {k : Nat} {v : α} (h : tget? t k = some v) : (k, v) ∈ t := by
  induction t with
  | nil => exact absurd h nofun
  | cons e t ih =>
    rw [tget?] at h
    split at h
    · next hk =>
      have he : (k, v) = e := Prod.ext (beq_iff_eq.1 hk).symm (Option.some_inj.1 h).symm
      exact he ▸ List.mem_cons_self
    · exact List.mem_cons_of_mem _ (ih h)

theorem mem_tset {α : Type} {t : Tbl α} {k : Nat} {v : α} {e : Nat × α} (h : e ∈ tset t k v) : e = (k, v) ∨ e ∈ t := by
  induction t with
  | nil => exact .inl (List.mem_singleton.1 h)
  | cons x t ih =>
    rw [tset] at h
    split at h
    · exact (List.mem_cons.1 h).imp_right id
    · split at h
      · exact (List.mem_cons.1 h).imp_right (List.mem_cons_of_mem _)
      · rcases List.mem_cons.1 h with rfl | h
        · exact .inr List.mem_cons_self
        · exact (ih h).imp_right (List.mem_cons_of_mem _)

theorem linkOf_mapLinks (g : Link → Link) (hg : g {} = {}) (j : Nat) (s : State) :
    linkOf j { s with links := s.links.map fun e => (e.1, g e.2) } = g (linkOf j s) := by
  show (tget? _ j).getD {} = g ((tget? s.links j).getD {})
  rw [tget?_map]
  cases tget? s.links j with
  | none => exact hg.symm
  | some k => rfl

/-! ## Segments kept in transit (R324) -/

/-- A link without its queues and the segments it keeps in transit. -/
def besideTransit (k : Link) : Link := besideQueue { k with transit := [] }

theorem besideTransit_of_besideQueue {k j : Link} (h : besideQueue k = besideQueue j) : besideTransit k = besideTransit j := by
  have htransit := congrArg (fun x : Link => { x with transit := [] }) h
  exact htransit

theorem releaseTransit_cases (k : Nat) (s : State) : besideLinks (releaseTransit k s) = besideLinks s ∧
    ∀ j : Nat, besideTransit (linkOf j (releaseTransit k s)) = besideTransit (linkOf j s) := by
  unfold releaseTransit
  split
  · exact ⟨rfl, fun _ => rfl⟩
  · extract_lets xs u
    have hu : besideLinks u = besideLinks s ∧ ∀ j : Nat, besideTransit (linkOf j u) = besideTransit (linkOf j s) := by
      show besideLinks (ite _ _ _) = _ ∧ ∀ j : Nat, besideTransit (linkOf j (ite _ _ _)) = _
      split
      · exact ⟨rfl, fun _ => rfl⟩
      · refine ⟨rfl, fun j => ?_⟩
        rw [linkOf_mapLinks (fun y => { y with transit := y.transit.filter fun x => x.1 != k }) rfl]
        rfl
    have hqueue (ys : List (Nat × OutSeg)) (v : State) : besideLinks (ys.foldl (fun s x => enqueueSeg k x.2 s) v) = besideLinks v ∧
        ∀ j : Nat, besideTransit (linkOf j (ys.foldl (fun s x => enqueueSeg k x.2 s) v)) = besideTransit (linkOf j v) := by
      induction ys generalizing v with
      | nil => exact ⟨rfl, fun _ => rfl⟩
      | cons y ys ih =>
        obtain ⟨hrest, hlinks⟩ := ih (enqueueSeg k y.2 v)
        exact ⟨hrest.trans rfl, fun j => (hlinks j).trans (besideTransit_of_besideQueue ((onlyQueues_enqueueSeg k y.2 v).2 j))⟩
    obtain ⟨hrest, hlinks⟩ := hqueue xs u
    exact ⟨hrest.trans hu.1, fun j => (hlinks j).trans (hu.2 j)⟩

theorem completes_egressWm {p : Port} {l : Fin 36} {s : State} {v : W32} (h : RegistersAnswer p s)
    (hlow : fieldNat v 16 16 + 256 ≤ fieldNat v 0 16) (hhigh : fieldNat v 0 16 ≤ 4096) : Completes (.egressWmWrite p l v) s fun t =>
      (linkOf l t).highKib = fieldNat v 0 16 ∧ (linkOf l t).lowKib = fieldNat v 16 16 ∧ t.memory = s.memory := by
  have hexec : execEgressWmWrite p l v s = .next (releaseTransit l (settleHold l
      (modLink l (fun k => { k with highKib := fieldNat v 0 16, lowKib := fieldNat v 16 16 }) (endLatch p s)))) := by
    rw [execEgressWmWrite, regAccess_answers h]
    simp only [hlow, hhigh, decide_true, Bool.and_self, if_true]
  obtain ⟨hrest, hlinks⟩ := releaseTransit_cases l (settleHold l
      (modLink l (fun k => { k with highKib := fieldNat v 0 16, lowKib := fieldNat v 16 16 }) (endLatch p s)))
  have hlink := hlinks l
  rw [settleHold, linkOf_modLink, linkOf_modLink] at hlink
  have hhighKib := congrArg Link.highKib hlink
  have hlowKib := congrArg Link.lowKib hlink
  have hmem := congrArg State.memory hrest
  exact ⟨_, hexec, hhighKib, hlowKib, hmem.trans (memory_endLatch p s)⟩

/-! ## Flags and counters -/

/-- The flag word of a link after hardware sets that fall in one cycle. -/
theorem flags_raiseEach (l : Nat) (bits : List Nat) (s : State) :
    (linkOf l (bits.foldl (fun s i => raiseLink l i s) s)).flags = bits.foldl (fun f i => f ||| BitVec.ofNat 8 (2 ^ i)) (linkOf l s).flags ∧
      ∀ j : Nat, j ≠ l → linkOf j (bits.foldl (fun s i => raiseLink l i s) s) = linkOf j s := by
  induction bits generalizing s with
  | nil => exact ⟨rfl, fun _ _ => rfl⟩
  | cons i bits ih =>
    obtain ⟨hflags, hother⟩ := ih (raiseLink l i s)
    refine ⟨hflags.trans ?_, fun j hj => (hother j hj).trans (linkOf_raiseLink_other _ _ _ _ hj)⟩
    rw [linkOf_raiseLink, List.foldl_cons]
    rfl

theorem getLsbD_foldl_or {w : Nat} (bits : List Nat) (f : BitVec w) (i : Nat) :
    (bits.foldl (fun f i => f ||| BitVec.ofNat w (2 ^ i)) f).getLsbD i = (f.getLsbD i || (decide (i < w) && decide (i ∈ bits))) := by
  induction bits generalizing f with
  | nil => simp
  | cons b bits ih =>
    rw [List.foldl_cons, ih, BitVec.getLsbD_or, BitVec.getLsbD_ofNat, Nat.testBit_two_pow]
    simp only [List.mem_cons, Bool.decide_or, eq_comm (a := i), Bool.and_or_distrib_left, Bool.or_assoc]

/-- The sets of one cycle OR the word of the flags that fall in it. -/
theorem foldl_or_bits {w : Nat} (co f : BitVec w) :
    ((List.range w).filter fun i => co.toNat.testBit i).foldl (fun f i => f ||| BitVec.ofNat w (2 ^ i)) f = f ||| co := by
  refine BitVec.eq_of_getLsbD_eq fun i hi => ?_
  rw [getLsbD_foldl_or, BitVec.getLsbD_or]
  simp [hi, BitVec.getLsbD]

theorem completes_linkFlagsClear {p : Port} {l : Fin 36} {s : State} (h : RegistersAnswer p s) (v co : BitVec 8) :
    Completes (.linkFlagsClear p l v co) s fun t => (linkOf l t).flags = ((linkOf l s).flags &&& ~~~ v) ||| co ∧
      ∀ j : Nat, j ≠ l.val → linkOf j t = linkOf j s := by
  have hexec : execLinkFlagsClear p l v co s = .next (((List.range 8).filter fun i => co.toNat.testBit i).foldl (fun s i => raiseLink l i s)
      (modLink l (fun k => { k with flags := k.flags &&& ~~~ v }) (endLatch p s))) := by
    rw [execLinkFlagsClear, regAccess_answers h]
    rfl
  obtain ⟨hflags, hother⟩ := flags_raiseEach l ((List.range 8).filter fun i => co.toNat.testBit i)
    (modLink l (fun k => { k with flags := k.flags &&& ~~~ v }) (endLatch p s))
  rw [foldl_or_bits, linkOf_modLink, linkOf_endLatch] at hflags
  exact ⟨_, hexec, hflags, fun j hj => (hother j hj).trans ((linkOf_modLink_other _ _ _ _ hj).trans (linkOf_endLatch _ _ _))⟩

theorem portOf_readsAs (p : Port) (v : Word) (s : State) : (portOf p (readsAs p v s)).readData = v := by cases p <;> rfl

theorem portOf_modLink (p : Port) (l : Nat) (f : Link → Link) (s : State) : portOf p (modLink l f s) = portOf p s := by cases p <;> rfl

/-- A counter of a link read: its port takes what it held, and the link what the read leaves and the cycle counts. -/
def readCounter (p : Port) (l : Nat) (v : Word) (clear count : Link → Link) (whole : Bool) (s : State) : State :=
  modLink l count (readsAs p v (if whole then modLink l clear (endLatch p s) else endLatch p s))

theorem readCounter_cases (p : Port) (l : Fin 36) (v : Word) (clear count : Link → Link) (whole : Bool) (s : State) :
    (portOf p (readCounter p l v clear count whole s)).readData = v ∧
      linkOf l (readCounter p l v clear count whole s) = count (if whole then clear (linkOf l s) else linkOf l s) ∧
      ∀ j : Nat, j ≠ l.val → linkOf j (readCounter p l v clear count whole s) = linkOf j s := by
  unfold readCounter
  refine ⟨?_, ?_, fun j hj => ?_⟩
  · rw [portOf_modLink, portOf_readsAs]
  · rw [linkOf_modLink, linkOf_readsAs]
    cases whole
    · simp only [Bool.false_eq_true, if_false, linkOf_endLatch]
    · simp only [if_true, linkOf_modLink, linkOf_endLatch]
  · rw [linkOf_modLink_other _ _ _ _ hj, linkOf_readsAs]
    cases whole
    · exact linkOf_endLatch _ _ _
    · exact (linkOf_modLink_other _ _ _ _ hj).trans (linkOf_endLatch _ _ _)

theorem completes_retriedRead {p : Port} {l : Fin 36} {s : State} (h : RegistersAnswer p s) (whole : Bool) (co : BitVec 32) :
    Completes (.retriedRead p l whole co) s fun t => (portOf p t).readData = (linkOf l s).retried.setWidth 64 ∧
      linkOf l t = { linkOf l s with retried := (if whole then 0 else (linkOf l s).retried) + co } ∧
        ∀ j : Nat, j ≠ l.val → linkOf j t = linkOf j s := by
  have hexec : execRetriedRead p l whole co s = .next (readCounter p l ((linkOf l s).retried.setWidth 64) (fun k => { k with retried := 0 })
      (fun k => { k with retried := k.retried + co }) whole s) := by
    rw [execRetriedRead, readAccess_answers h, linkOf_endLatch]
    rfl
  obtain ⟨hdata, hlink, hother⟩ := readCounter_cases p l ((linkOf l s).retried.setWidth 64) (fun k => { k with retried := 0 })
    (fun k => { k with retried := k.retried + co }) whole s
  refine ⟨_, hexec, hdata, hlink.trans ?_, hother⟩
  cases whole <;> rfl

theorem completes_fecCorrectedRead {p : Port} {l : Fin 36} {s : State} (h : RegistersAnswer p s) (whole : Bool) (co : BitVec 32) :
    Completes (.fecCorrectedRead p l whole co) s fun t => (portOf p t).readData = (linkOf l s).fecCorrected.setWidth 64 ∧
      linkOf l t = { linkOf l s with fecCorrected := (if whole then 0 else (linkOf l s).fecCorrected) + co } ∧
        ∀ j : Nat, j ≠ l.val → linkOf j t = linkOf j s := by
  have hexec : execFecCorrectedRead p l whole co s = .next (readCounter p l ((linkOf l s).fecCorrected.setWidth 64) (fun k => { k with fecCorrected := 0 })
      (fun k => { k with fecCorrected := k.fecCorrected + co }) whole s) := by
    rw [execFecCorrectedRead, readAccess_answers h, linkOf_endLatch]
    rfl
  obtain ⟨hdata, hlink, hother⟩ := readCounter_cases p l ((linkOf l s).fecCorrected.setWidth 64) (fun k => { k with fecCorrected := 0 })
    (fun k => { k with fecCorrected := k.fecCorrected + co }) whole s
  refine ⟨_, hexec, hdata, hlink.trans ?_, hother⟩
  cases whole <;> rfl

/-! ## The sorter fence, flush and avoidance -/

theorem completes_sorterFence (l : Fin 36) (s : State) : Completes (.sorterFence l) s fun t => OnlyLink l s t ∧ (linkOf l t).sorterFenced = true ∧
    (linkOf l t).egress = (linkOf l s).egress ∧ (linkOf l t).flags = (linkOf l s).flags ||| 0x08#8 ∧ t.devFlags.getLsbD 28 = true := by
  have hlink (args : List Nat) : linkOf l (raiseLink l 3 (raiseEvent 0x44 args (modLink l (fun k => { k with sorterFenced := true }) s))) =
      flagLink 3 { linkOf l s with sorterFenced := true } :=
    (linkOf_raiseLink l 3 _).trans (congrArg (flagLink 3) (linkOf_modLink l (fun k => { k with sorterFenced := true }) s))
  refine ⟨_, rfl, ((onlyLink_modLink l _ s).trans ((onlyFlags_raiseEvent _ _ _).onlyLink l)).trans (onlyLink_raiseLink l 3 _), ?_, ?_, ?_,
    devFlag_raiseLink _ _ _⟩
  · exact (congrArg Link.sorterFenced (hlink _)).trans rfl
  · exact (congrArg Link.egress (hlink _)).trans rfl
  · exact (congrArg Link.flags (hlink _)).trans rfl

/-- A link whose queue has been flushed, in a state in which no link keeps a segment in transit. -/
def Flushed (l : Nat) (s : State) : Prop :=
  (∀ e ∈ s.links, e.2.transit = []) ∧ (linkOf l s).egress = [] ∧ (linkOf l s).leaving = none ∧ (linkOf l s).flags.getLsbD 7 = true

theorem transit_of_mem {s : State} (h : ∀ e ∈ s.links, e.2.transit = []) (j : Nat) : (linkOf j s).transit = [] := by
  cases hj : tget? s.links j with
  | none => simp [linkOf, tgetD, hj]
  | some k =>
    have hk := h _ (mem_of_tget? hj)
    simpa [linkOf, tgetD, hj] using hk

theorem noTransit_modLink {j : Nat} {f : Link → Link} {s : State} (hf : ∀ k, (f k).transit = k.transit) (h : ∀ e ∈ s.links, e.2.transit = []) :
    ∀ e ∈ (modLink j f s).links, e.2.transit = [] := by
  intro e he
  rcases mem_tset he with rfl | he
  · exact (hf _).trans (transit_of_mem h j)
  · exact h e he

theorem flushed_sendItem {l j : Nat} {it : Item} {s : State} (h : Flushed l s) : Flushed l (sendItem j it s) := by
  obtain ⟨htransit, hegress, hleaving, hflag⟩ := h
  refine ⟨noTransit_modLink (fun _ => rfl) htransit, ?_⟩
  by_cases hj : l = j
  · subst hj
    rw [sendItem, linkOf_modLink]
    exact ⟨hegress, hleaving, hflag⟩
  · rw [sendItem, linkOf_modLink_other _ _ _ _ hj]
    exact ⟨hegress, hleaving, hflag⟩

theorem flushed_sendAll {l : Nat} {g : Group} {it : Item} {s : State} (h : Flushed l s) : Flushed l (sendAll g it s) := by
  unfold sendAll
  generalize ((List.range (groupN g)).map (rankHolder g)).eraseDups = ms
  induction ms generalizing s with
  | nil => exact h
  | cons m ms ih =>
    refine ih ?_
    dsimp only
    split
    · exact h
    · unfold sendTo
      split
      · exact flushed_sendItem h
      · exact h

theorem flushed_sendVoid {l : Nat} {p : Pass} {status : BitVec 8} {detail : BitVec 16} {s : State} (h : Flushed l s) :
    Flushed l (sendVoid p status detail s) := by
  unfold sendVoid
  split
  · exact h
  · split
    · exact flushed_sendAll h
    · exact h

theorem flushed_of_links {l : Nat} {s t : State} (hl : t.links = s.links) (h : Flushed l s) : Flushed l t := by
  unfold Flushed at h ⊢
  rw [hl, linkOf_congr hl]
  exact h

theorem flushed_voidPass {l : Nat} {p : Pass} {status : BitVec 8} {detail : BitVec 16} {result0 : Word} {s : State} (h : Flushed l s) :
    Flushed l (voidPass p status detail result0 s) := by
  have hlinks := (links_of_besideEnd (besideEnd_voidPass p status detail result0 s)).trans (links_dropPass p s)
  obtain ⟨htransit, hegress, hleaving, hflag⟩ := h
  refine flushed_of_links (s := { s with links := s.links.map fun e =>
    (e.1, { e.2 with egress := e.2.egress.filter fun x => x.pass != p.id + 1 }) }) hlinks ⟨fun e he => ?_, ?_⟩
  · obtain ⟨x, hx, rfl⟩ := List.mem_map.1 he
    exact htransit x hx
  · rw [linkOf_mapLinks (fun y => { y with egress := y.egress.filter fun x => x.pass != p.id + 1 }) rfl]
    exact ⟨by simp only [hegress, List.filter_nil], hleaving, hflag⟩

theorem flushed_flushSeg {l : Nat} {x : OutSeg} {s : State} (h : Flushed l s) : Flushed l (flushSeg x s) := by
  unfold flushSeg
  split
  · split
    · split
      · exact flushed_sendAll h
      · exact h
    · exact h
  · split
    · refine flushed_voidPass ?_
      split
      · exact h
      · exact flushed_sendVoid h
    · exact h

theorem flushed_foldl_flushSeg {l : Nat} {xs : List OutSeg} {s : State} (h : Flushed l s) : Flushed l (xs.foldl (fun s x => flushSeg x s) s) := by
  induction xs generalizing s with
  | nil => exact h
  | cons x xs ih => exact ih (flushed_flushSeg h)

theorem releaseTransit_none {k : Nat} {s : State} (h : ∀ e ∈ s.links, e.2.transit = []) : releaseTransit k s = s := by
  have hnone : (s.links.flatMap fun e => e.2.transit.filter fun x => x.1 == k) = [] :=
    List.flatMap_eq_nil_iff.2 fun e he => by rw [h e he, List.filter_nil]
  simp only [releaseTransit, hnone, List.isEmpty_nil, if_true, List.foldl_nil, ite_self]

theorem flushed_flushLink {l : Nat} {s : State} (h : ∀ e ∈ s.links, e.2.transit = []) : Flushed l (flushLink l s) := by
  have hstart (v : State) (hv : ∀ e ∈ v.links, e.2.transit = []) : Flushed l (settleHold l
      (modLink l (fun k => { k with egress := [], leaving := none, flushes := k.flushes + 1 }) (raiseLink l 7 v))) := by
    have hraised : ∀ e ∈ (raiseLink l 7 v).links, e.2.transit = [] := by
      rw [raiseLink, (onlyFlags_raiseDev 28 _).links]
      exact noTransit_modLink (fun _ => rfl) hv
    refine ⟨noTransit_modLink (fun _ => rfl) (noTransit_modLink (fun _ => rfl) hraised), ?_⟩
    rw [settleHold, linkOf_modLink, linkOf_modLink, linkOf_raiseLink]
    exact ⟨rfl, rfl, getLsbD_flagLink _ (by decide)⟩
  have hcut (v : State) (hv : ∀ e ∈ v.links, e.2.transit = []) (it : Item) : ∀ e ∈ (sendItem l it v).links, e.2.transit = [] :=
    noTransit_modLink (fun _ => rfl) hv
  unfold flushLink
  extract_lets k xs u v
  have hv : Flushed l v := by
    refine hstart u ?_
    show ∀ e ∈ State.links (match k.leaving with
      | some x => sendItem l (abortItem x.1) s
      | none => s), _
    split
    · exact hcut s h _
    · exact h
  have hflushed : Flushed l (xs.foldl (fun s x => flushSeg x s) v) := flushed_foldl_flushSeg hv
  rw [releaseTransit_none hflushed.1]
  exact hflushed

theorem bits_of_one (l : Fin 36) : ((List.range 36).filter fun i => (BitVec.ofNat 64 (2 ^ l.val)).getLsbD i) = [l.val] := by
  revert l
  decide

theorem completes_linkFlush {p : Port} {l : Fin 36} {s : State} (h : RegistersAnswer p s) (htransit : ∀ e ∈ s.links, e.2.transit = []) :
    Completes (.linkFlushWrite p (BitVec.ofNat 64 (2 ^ l.val))) s fun t => (linkOf l t).egress = [] ∧ (linkOf l t).leaving = none ∧
      (linkOf l t).flags.getLsbD 7 = true := by
  have hexec : execLinkFlushWrite p (BitVec.ofNat 64 (2 ^ l.val)) s = .next (flushLink l (endLatch p s)) := by
    rw [execLinkFlushWrite, regAccess_answers h, bits_of_one]
    rfl
  have hflushed : Flushed l (flushLink l (endLatch p s)) := flushed_flushLink (by rwa [links_endLatch])
  exact ⟨_, hexec, hflushed.2⟩

theorem completes_linkAvoidReview {l : Fin 36} {s : State} {x : Word} (hx : (linkOf l s).avoidedAt = some x)
    (hdue : 60000000000 ≤ nsSince x (mono s)) : Completes (.linkAvoidReview l) s fun t => OnlyLink l s t ∧
      linkOf l t = { linkOf l s with
        avoidedAt := if s.groups.any fun g => policyAllows 2 g.id s && linkPoor l g.id s then some (mono s) else none } := by
  have hfind : (s.groups.find? fun g => policyAllows 2 g.id s && linkPoor l g.id s).isSome =
      s.groups.any fun g => policyAllows 2 g.id s && linkPoor l g.id s := List.isSome_find?
  rw [← hfind]
  cases hg : s.groups.find? fun g => policyAllows 2 g.id s && linkPoor l g.id s with
  | some g =>
    have hexec : execLinkAvoidReview l s = .next (modLink l (fun k => { k with avoidedAt := some (mono s) }) s) := by
      simp only [execLinkAvoidReview, hx, hg, if_neg (Nat.not_lt.2 hdue)]
    exact completes_modLink (i := .linkAvoidReview l) hexec
  | none =>
    have hexec : execLinkAvoidReview l s = .next (logDecision 2 true 0xFFFF l 1 0 0 (linkOf l s).lastRetried
        (modLink l (fun k => { k with avoidedAt := none }) s)) := by
      simp only [execLinkAvoidReview, hx, hg, if_neg (Nat.not_lt.2 hdue)]
    refine ⟨_, hexec, onlyLink_modLink l (fun k => { k with avoidedAt := none }) s, ?_⟩
    exact linkOf_modLink l (fun k => { k with avoidedAt := none }) s

/-- Settles O28: a register's write is one update of its link, a flush leaves a queue that nothing it ends fills again. -/
theorem linkRegistersFenceAndFlush : Obligations.LinkRegistersFenceAndFlush := by
  refine ⟨fun p l s h => ⟨completes_linkEnable_off h, completes_linkEnable_on h, completes_linkRetrain h, completes_linkRelease h,
    fun v => completes_egressWm h, fun v hv => ?_, completes_linkFlagsClear h, completes_retriedRead h, completes_fecCorrectedRead h⟩,
    completes_sorterFence, fun p v l s h hv htransit => hv ▸ completes_linkFlush h htransit, fun l s x => completes_linkAvoidReview⟩
  have hexec : execEgressWmWrite p l v s = .next (endLatch p s) := by
    rw [execEgressWmWrite, regAccess_answers h]
    exact congrArg _ (if_neg (by simpa using hv))
  exact ⟨_, hexec, links_endLatch p s⟩

end Sys2Proof.Machine
end

section
/-!
Control items policed and sent, key agreement and its timers, and the training of a link (Machine/Route.lean, Machine/Keys.lean).
-/

namespace Sys2Proof.Machine

/-! ## Control items -/

/-- An item whose tag verifies is under a key that is held. -/
theorem valid_of_tagOk {k : Link} {keyId : Bool} {nonce : Word} {aad ct : List Byte} {tag : BitVec 128} (h : tagOk k keyId nonce aad ct tag = true) :
    (vget k.rxKeys (slotIx keyId) {}).valid = true :=
  (Bool.and_eq_true_iff.1 h).1

/-- A control item that is policed is acted on in the state that has taken it. -/
theorem withItem_policed {l : Fin 36} {it : Item} {kind : Nat} {s u : State} (h : Policed l it kind s u) (act : State → State) :
    withItem l it kind act s = act u := by
  obtain ⟨hrecord, hkind, hallowed, hkeys⟩ := h
  have hshape : (fieldNat it.w0 0 4 != 4 || itemKind it != kind || !itemAllowed (linkOf l s).state kind) = false := by
    simp only [hrecord, hkind, hallowed, bne_self_eq_false, Bool.not_true, Bool.or_self]
  unfold withItem
  simp only [hshape, Bool.false_eq_true, if_false]
  rcases hkeys with ⟨hkex, h0, h1, rfl⟩ | ⟨htag, hfresh, rfl⟩
  · simp only [hkex, h0, h1, Bool.not_false, Bool.and_self, if_true]
  · have hheld : (isKexKind kind && !(vget (linkOf l s).rxKeys 0 {}).valid && !(vget (linkOf l s).rxKeys 1 {}).valid) = false := by
      have hvalid := valid_of_tagOk htag
      cases hid : it.keyId <;> simp only [hid, slotIx, Bool.false_eq_true, if_false, if_true] at hvalid <;>
        simp only [hvalid, Bool.not_true, Bool.and_false, Bool.false_and]
    simp only [hheld, htag, hfresh, Bool.not_true, Bool.false_eq_true, if_false]

/-- A link that has accepted a nonce. -/
def nonceLink (keyId : Bool) (nonce : Word) (k : Link) : Link := { k with rxNonce := vset k.rxNonce (slotIx keyId) (some nonce) }

/-- A policed item leaves its state as it was but for the nonces of its link. -/
theorem policed_cases {l : Fin 36} {it : Item} {kind : Nat} {s u : State} (h : Policed l it kind s u) :
    u = s ∨ u = modLink l (nonceLink it.keyId it.nonce) s := by
  obtain ⟨-, -, -, ⟨-, -, -, hu⟩ | ⟨-, -, hu⟩⟩ := h
  · exact .inl hu
  · exact .inr hu

theorem Policed.onlyLinks {l : Fin 36} {it : Item} {kind : Nat} {s u : State} (h : Policed l it kind s u) : { u with links := s.links } = s := by
  rcases policed_cases h with rfl | rfl <;> rfl

theorem Policed.linkOf {l : Fin 36} {it : Item} {kind : Nat} {s u : State} (h : Policed l it kind s u) :
    { Machine.linkOf l u with rxNonce := (Machine.linkOf l s).rxNonce } = Machine.linkOf l s ∧
      ∀ j : Nat, j ≠ l.val → Machine.linkOf j u = Machine.linkOf j s := by
  rcases policed_cases h with rfl | rfl
  · exact ⟨rfl, fun _ _ => rfl⟩
  · refine ⟨?_, fun j hj => linkOf_modLink_other _ _ _ _ hj⟩
    rw [linkOf_modLink]
    rfl

/-- A link with control items queued. -/
def queueControl (its : List Item) (k : Link) : Link := { k with control := k.control ++ its }

theorem foldl_sendItem_cases (l : Nat) (its : List Item) (s : State) :
    { its.foldl (fun s it => sendItem l it s) s with links := s.links } = s ∧
      linkOf l (its.foldl (fun s it => sendItem l it s) s) = queueControl its (linkOf l s) ∧
      ∀ j : Nat, j ≠ l → linkOf j (its.foldl (fun s it => sendItem l it s) s) = linkOf j s := by
  induction its generalizing s with
  | nil => exact ⟨rfl, by rw [queueControl, List.append_nil]; rfl, fun _ _ => rfl⟩
  | cons it its ih =>
    obtain ⟨hrest, hlink, hother⟩ := ih (sendItem l it s)
    refine ⟨?_, ?_, fun j hj => (hother j hj).trans (linkOf_modLink_other _ _ _ _ hj)⟩
    · have hback := congrArg (fun u : State => { u with links := s.links }) hrest
      exact hback
    · rw [List.foldl_cons, hlink, sendItem, linkOf_modLink]
      simp only [queueControl, List.append_assoc, List.singleton_append]

/-! ## Key agreement (R424, R425) -/

/-- A link whose end offers an agreement. -/
def offeringLink (x : Kex) (k : Link) : Link := { k with kexRetryAt := none, kex := some x }

/-- An agreement begun where none runs sends its offer. -/
theorem startKex_eq {l : Nat} {slot : Bool} {s : State} (h : (linkOf l s).kex = none) :
    ∃ (x : Kex) (its : List Item) (n : Nat), x.initiator = true ∧ x.slot = slot ∧ x.started = mono s ∧
      startKex l slot s = its.foldl (fun s it => sendItem l it s) (modLink l (offeringLink x) { s with free := n }) := by
  unfold startKex
  rw [h, Option.isSome_none, if_neg Bool.false_ne_true]
  exact ⟨_, _, _, rfl, rfl, rfl, rfl⟩

theorem startKex_cases {l : Nat} {slot : Bool} {s : State} (h : (linkOf l s).kex = none) :
    ∃ (x : Kex) (its : List Item), linkOf l (startKex l slot s) = queueControl its (offeringLink x (linkOf l s)) ∧
      x.initiator = true ∧ x.slot = slot ∧ x.started = mono s ∧ (∀ j : Nat, j ≠ l → linkOf j (startKex l slot s) = linkOf j s) ∧
      { startKex l slot s with links := s.links, free := s.free } = s := by
  obtain ⟨x, its, n, hinit, hslot, hstarted, heq⟩ := startKex_eq (slot := slot) h
  obtain ⟨hrest, hlink, hother⟩ := foldl_sendItem_cases l its (modLink l (offeringLink x) { s with free := n })
  rw [heq]
  refine ⟨x, its, hlink.trans (congrArg _ (linkOf_modLink _ _ _)), hinit, hslot, hstarted,
    fun j hj => (hother j hj).trans (linkOf_modLink_other _ _ _ _ hj), ?_⟩
  have hback := congrArg (fun u : State => { u with links := s.links, free := s.free }) hrest
  exact hback

theorem endKex_cases {l : Nat} {authFail : Bool} {s : State} {x : Kex} (h : (linkOf l s).kex = some x) :
    (linkOf l (endKex l authFail s)).kex = none ∧ (endKex l authFail s).memory.fast = s.memory.fast := by
  unfold endKex
  split
  · next hnone => exact absurd (h.symm.trans hnone) nofun
  · next y _ =>
    extract_lets up u v
    have hu : (linkOf l u).kex = none := congrArg Link.kex (linkOf_modLink l _ s)
    have hv : (linkOf l v).kex = none ∧ v.memory.fast = s.memory.fast := by
      show (linkOf l (ite _ _ _)).kex = none ∧ (ite _ _ _ : State).memory.fast = _
      split
      · refine ⟨?_, congrArg MemSt.fast (onlyLink_raiseLink l 4 u).sameMemory.1⟩
        rw [linkOf_raiseLink]
        exact hu
      · exact ⟨hu, rfl⟩
    split
    · exact ⟨holdOut_kex _ _ _, (holdOut_fast _ _ _).trans hv.2⟩
    · exact hv

theorem abortKex_cases {l cause : Nat} {authFail : Bool} {s : State} {x : Kex} (h : (linkOf l s).kex = some x) :
    (linkOf l (abortKex l cause authFail s)).kex = none ∧ (abortKex l cause authFail s).memory.fast = s.memory.fast := by
  unfold abortKex
  simp only [h]
  exact endKex_cases (x := x) (by rw [sendItem, linkOf_modLink]; exact h)

end Sys2Proof.Machine
end

section
/-!
Training, roll call, notices and key agreement on a link (Machine/Keys.lean, Machine/Passes.lean, chapters 12, 15 and 16).
-/

namespace Sys2Proof.Machine

/-! ## Training (R297, R404) -/

/-- A link as its training ends with lanes enough. -/
def trainedLink (l : Nat) (lanes : BitVec 4) (delayNs : Nat) (t : Word) (k : Link) : Link :=
  { k with
    state := 2, lanes := lanes, delayNs := delayNs, farActive := k.ctlFar && farCapable l, txSeq := 0, txAcked := 0, txAckedAt := t
    retry := [], resend := [], rxNext := 0, rxBad := false, nakDue := false, credit := 0, sentSinceCredit := 0, control := []
    rxData := [], txKeys := Vector.replicate 2 {}, rxKeys := Vector.replicate 2 {}, rxNonce := Vector.replicate 2 none
    txNonce := Vector.replicate 2 0, keyTx := false, keyRx := false, kex := none, kexRetryAt := none, rollItem := none, proved := 0
    far := { k.far with txStripe := 0, txShard := 0, txBody := [], retransmit := [], nextStripe := 0, rxStripes := [], resent := []
                        repairQ := [], sentAgain := [], keyNext := none, freeMib := 1024, heardAt := t } }

/-- A state in which the training of a link has ended with lanes enough. -/
def trainedState (l : Nat) (lanes : BitVec 4) (delayNs : Nat) (s : State) : State :=
  modLink l (trainedLink l lanes delayNs (mono s)) (modFlash (fun f => { f with
    laneFailed := tset f.laneFailed l (15 - lanes.toNat), rewrites := f.rewrites + 1 }) (forgetLink l s))

/-- What an agreement that begins changes of a link. -/
def besideKex (k : Link) : Link := { k with control := [], kex := none, kexRetryAt := none }

theorem besideKex_offered (its : List Item) (x : Kex) (k : Link) : besideKex (queueControl its (offeringLink x k)) = besideKex k := rfl

theorem trained_cases (l : Fin 36) (lanes : BitVec 4) (delayNs : Nat) (s : State) (hstate : (linkOf l s).state = 1)
    (hlanes : 2 ≤ (List.range 4).countP fun i => lanes.getLsbD i) : ∃ t, execLinkTrainingDone l lanes delayNs s = .next t ∧
      besideKex (linkOf l t) = besideKex (trainedLink l lanes delayNs (mono s) (linkOf l s)) ∧
      (∀ j : Nat, j ≠ l.val → linkOf j t = linkOf j s) ∧
      { t with links := s.links, free := s.free } = { trainedState l lanes delayNs s with links := s.links } := by
  have hlink : linkOf l (trainedState l lanes delayNs s) = trainedLink l lanes delayNs (mono s) (linkOf l s) := linkOf_modLink _ _ _
  have hother (j : Nat) (hj : j ≠ l.val) : linkOf j (trainedState l lanes delayNs s) = linkOf j s := linkOf_modLink_other _ _ _ _ hj
  have hexec : execLinkTrainingDone l lanes delayNs s = .next (if isInitiator l (trainedState l lanes delayNs s) then
      startKex l false (trainedState l lanes delayNs s) else trainedState l lanes delayNs s) := by
    simp only [execLinkTrainingDone, hstate, bne_self_eq_false, Bool.false_eq_true, if_false, if_neg (Nat.not_lt.2 hlanes)]
    rfl
  cases hinit : isInitiator l (trainedState l lanes delayNs s) with
  | false =>
    rw [hinit, if_neg Bool.false_ne_true] at hexec
    exact ⟨_, hexec, congrArg besideKex hlink, hother, rfl⟩
  | true =>
    rw [hinit, if_pos rfl] at hexec
    obtain ⟨x, its, hoffer, -, -, -, hkept, hrest⟩ := startKex_cases (slot := false) (congrArg Link.kex hlink)
    refine ⟨_, hexec, ?_, fun j hj => (hkept j hj).trans (hother j hj), ?_⟩
    · rw [hoffer, besideKex_offered, hlink]
    · have hback := congrArg (fun u : State => { u with links := s.links, free := s.free }) hrest
      exact hback

/-- Settles O33: the link's new state is written in one update, and an agreement that the initiator begins changes none of it. -/
theorem trainingEndsInAuthenticationOrDown : Obligations.TrainingEndsInAuthenticationOrDown := by
  refine fun l lanes d s hstate => ⟨fun hlanes => ?_, fun hlanes => ?_⟩
  · obtain ⟨t, hexec, hlink, hother, hrest⟩ := trained_cases l lanes d s hstate hlanes
    have htx : (linkOf l t).txKeys = Vector.replicate 2 {} := congrArg Link.txKeys hlink
    have hrx : (linkOf l t).rxKeys = Vector.replicate 2 {} := congrArg Link.rxKeys hlink
    have hfar : (linkOf l t).farActive = ((linkOf l s).ctlFar && farCapable l) := congrArg Link.farActive hlink
    have hflash := congrArg (fun u => u.flash.laneFailed) hrest
    have hfailed : t.flash.laneFailed = tset s.flash.laneFailed l (15 - lanes.toNat) := hflash
    have hmem := congrArg State.memory hrest
    refine ⟨t, hexec, congrArg Link.state hlink, congrArg Link.lanes hlink, congrArg Link.delayNs hlink, congrArg Link.txSeq hlink,
      congrArg Link.rxNext hlink, congrArg Link.credit hlink, congrArg Link.retry hlink, congrArg Link.proved hlink, fun i => ?_, ?_, ?_, hother,
      hmem⟩
    · rw [htx, hrx]
      simp
    · rw [hfar, Bool.and_eq_true]
    · rw [hfailed, tgetD_tset_same]
  · have hexec : execLinkTrainingDone l lanes d s = .next (linkDown l s) := by
      simp only [execLinkTrainingDone, hstate, bne_self_eq_false, Bool.false_eq_true, if_false, if_pos hlanes]
    exact ⟨_, hexec, linkDown_state _ _, linkDown_flag _ _⟩

/-! ## Roll call and LEAVING (R399, R407) -/

/-- What a returned partner leaves of a state. -/
theorem returned_cases (w : Word) (s : State) : (returned w s).links = s.links ∧ (returned w s).memory = s.memory ∧
    (returned w s).mod.leaving = (s.mod.leaving.filter fun x => x.1 != w) ∧ ∀ g ∈ (returned w s).groups, g.leaveHold.contains w = false := by
  refine ⟨rfl, rfl, rfl, fun g hg => ?_⟩
  obtain ⟨h, -, rfl⟩ := List.mem_map.1 hg
  refine Bool.eq_false_iff.2 fun hw => ?_
  simpa using (List.mem_filter.1 (List.contains_iff_mem.1 hw)).2

theorem linkOf_returned (w : Word) (j : Nat) (s : State) : linkOf j (returned w s) = linkOf j s := rfl

/-- A link that has had a ROLL_CALL. -/
def calledLink (it : Item) (k : Link) : Link :=
  { k with rollItem := some it, rollReady := bitOf it.w0 18, partnerLink := fieldNat it.w0 12 6 }

theorem completes_rollCallReceive {l : Fin 36} {it : Item} {s u : State} (h : Policed l it 0x30 s u) (hjudged : (linkOf l s).rollJudged = true)
    (hstate : (linkOf l s).state ≠ 3) (htaken : bitOf it.w0 19 = false) : Completes (.rollCallReceive l it) s fun t =>
      linkOf l t = { linkOf l u with rollItem := some it, rollReady := bitOf it.w0 18, partnerLink := fieldNat it.w0 12 6 } ∧
        (∀ j : Nat, j ≠ l.val → linkOf j t = linkOf j s) ∧ t.memory = s.memory ∧
        (bitOf it.w0 18 = true → ∀ x ∈ t.mod.leaving, x.1 ≠ it.w1) := by
  obtain ⟨hlink, hother⟩ := h.linkOf
  have hju : (linkOf l u).rollJudged = true := (congrArg Link.rollJudged hlink).trans hjudged
  have hsu : (linkOf l u).state ≠ 3 := fun h3 => hstate ((congrArg Link.state hlink).symm.trans h3)
  have hmem := congrArg State.memory h.onlyLinks
  have hcalled : linkOf l (modLink l (calledLink it) u) = calledLink it (linkOf l u) := linkOf_modLink _ _ _
  have hkept (j : Nat) (hj : j ≠ l.val) : linkOf j (modLink l (calledLink it) u) = linkOf j s :=
    (linkOf_modLink_other _ _ _ _ hj).trans (hother j hj)
  cases hready : bitOf it.w0 18 with
  | false =>
    have hexec : execRollCallReceive l it s = .next (modLink l (calledLink it) u) := by
      rw [execRollCallReceive, withItem_policed h]
      simp only [hready, htaken, hju, linkOf_modLink, beq_eq_false_iff_ne.2 hsu, Bool.not_true, Bool.false_and, Bool.or_self, Bool.false_eq_true, if_false]
      rw [← hready]
      rfl
    exact ⟨_, hexec, hcalled.trans (by rw [calledLink, hready]), hkept, hmem, nofun⟩
  | true =>
    have hexec : execRollCallReceive l it s = .next (returned it.w1 (modLink l (calledLink it) u)) := by
      rw [execRollCallReceive, withItem_policed h]
      simp only [hready, htaken, hju, linkOf_returned, linkOf_modLink, beq_eq_false_iff_ne.2 hsu, Bool.not_true, Bool.false_and, Bool.or_self,
        Bool.false_eq_true, if_false, if_true]
      rw [← hready]
      rfl
    obtain ⟨hlinks, hmemory, hleaving, -⟩ := returned_cases it.w1 (modLink l (calledLink it) u)
    refine ⟨_, hexec, (linkOf_congr hlinks l).trans (hcalled.trans (by rw [calledLink, hready])), fun j hj => (linkOf_congr hlinks j).trans (hkept j hj),
      hmemory.trans hmem, fun _ x hx => ?_⟩
    rw [hleaving] at hx
    simpa using (List.mem_filter.1 hx).2

theorem itemKind_mkItem {kind extra : Nat} (w1 w2 w3 w4 w5 : Word) (hk : kind < 256) (he : extra % 4096 = 0) :
    itemKind (mkItem kind extra w1 w2 w3 w4 w5) = kind := by
  simp only [itemKind, mkItem, fieldNat, BitVec.toNat_ofNat]
  omega

/-- A link that has sent a ROLL_CALL at a time. -/
def callingLink (t : Word) (it : Item) (k : Link) : Link := { k with rollSentAt := t, control := k.control ++ [it] }

/-- A bit of an item's first word that says `b`. -/
def sayBit (b : Bool) (n : Nat) : Nat := if b then 2 ^ n else 0

/-- The ROLL_CALL that a link sends (Table 15-8). -/
def rollCallItem (l : Nat) (s : State) : Item :=
  mkItem 0x30 (l * 2 ^ 12 + sayBit s.mod.ready 18 + sayBit (holdsRanksOf (linkOf l s).proved s) 19 + sayBit s.mod.warm 20) s.mod.identity
    ((s.flash.topology.map fun t => t.generation).getD 0) ((s.flash.topology.map fun t => t.imageCrc.setWidth 64).getD 0) (now s) 0

theorem sendRollCall_eq (l : Nat) (s : State) :
    sendRollCall l s = sendItem l (rollCallItem l s) (modLink l (fun k => { k with rollSentAt := mono s }) s) := rfl

theorem sayBit_mod (b : Bool) {n : Nat} (hn : 12 ≤ n) : sayBit b n % 4096 = 0 := by
  cases b
  · rfl
  · obtain ⟨m, rfl⟩ := Nat.exists_eq_add_of_le hn
    simp only [sayBit, if_true, Nat.pow_add]
    exact Nat.mul_mod_right _ _

theorem itemKind_rollCallItem (l : Nat) (s : State) : itemKind (rollCallItem l s) = 0x30 := by
  refine itemKind_mkItem _ _ _ _ _ (by decide) ?_
  have h18 := sayBit_mod s.mod.ready (n := 18) (by decide)
  have h19 := sayBit_mod (holdsRanksOf (linkOf l s).proved s) (n := 19) (by decide)
  have h20 := sayBit_mod s.mod.warm (n := 20) (by decide)
  omega

theorem sendRollCall_cases (l : Nat) (s : State) : OnlyLink l s (sendRollCall l s) ∧
    linkOf l (sendRollCall l s) = callingLink (mono s) (rollCallItem l s) (linkOf l s) := by
  rw [sendRollCall_eq]
  generalize rollCallItem l s = it
  refine ⟨(onlyLink_modLink l _ s).trans (onlyLink_modLink l _ _), ?_⟩
  rw [sendItem, linkOf_modLink, linkOf_modLink]
  rfl

theorem completes_rollCallResend {l : Fin 36} {s : State} (hproved : (linkOf l s).proved ≠ 0)
    (hstate : (linkOf l s).state = 2 ∨ (linkOf l s).state = 4) (hdue : 100000000 ≤ nsSince (linkOf l s).rollSentAt (mono s)) :
    Completes (.rollCallResend l) s fun t => OnlyLink l s t ∧ (linkOf l t).rollSentAt = mono s ∧
      ∃ x : Item, (linkOf l t).control = (linkOf l s).control ++ [x] ∧ itemKind x = 0x30 ∧ x.w1 = s.mod.identity ∧ x.w4 = s.time.dtime := by
  have hup : ((linkOf l s).state == 2 || (linkOf l s).state == 4) = true := by
    rcases hstate with h | h <;> rw [h] <;> rfl
  have hexec : execRollCallResend l s = .next (sendRollCall l s) := by
    simp only [execRollCallResend, bne_iff_ne.2 hproved, hup, hdue, decide_true, Bool.and_self, if_true]
  obtain ⟨honly, hlink⟩ := sendRollCall_cases l s
  exact ⟨_, hexec, honly, congrArg Link.rollSentAt hlink, _, congrArg Link.control hlink, itemKind_rollCallItem l s, rfl, rfl⟩

/-- A group that holds its STEP_OPENs for a device. -/
def holdLeaving (w : Word) (g : Group) : Group := { g with leaveHold := if g.leaveHold.contains w then g.leaveHold else g.leaveHold ++ [w] }

theorem holdLeaving_contains (w : Word) (g : Group) : (holdLeaving w g).leaveHold.contains w = true := by
  unfold holdLeaving
  dsimp only
  split
  · next h => exact h
  · exact List.contains_iff_mem.2 (List.mem_append_right _ (List.mem_singleton_self w))

theorem holdLeaving_holdLeaving (w : Word) (g : Group) : holdLeaving w (holdLeaving w g) = holdLeaving w g := by
  rw [holdLeaving, holdLeaving_contains, if_pos rfl]

theorem foldl_holdLeaving (w : Word) (gs : List Group) (s : State) : gs.foldl (fun s g => modGroup g.id (holdLeaving w) s) s =
    { s with groups := s.groups.map fun h => if gs.any fun x => x.id == h.id then holdLeaving w h else h } := by
  induction gs generalizing s with
  | nil => simp only [List.foldl_nil, List.any_nil, Bool.false_eq_true, if_false, List.map_id']
  | cons x gs ih =>
    have hone (h : Group) : (if gs.any (fun y => y.id == (if h.id == x.id then holdLeaving w h else h).id) then
          holdLeaving w (if h.id == x.id then holdLeaving w h else h) else if h.id == x.id then holdLeaving w h else h) =
        if (x :: gs).any fun y => y.id == h.id then holdLeaving w h else h := by
      rw [List.any_cons, Bool.beq_comm (a := x.id)]
      cases hx : h.id == x.id
      · rfl
      · simp only [Bool.true_or, if_true, holdLeaving_holdLeaving, ite_self]
    rw [List.foldl_cons, ih]
    simp only [modGroup, mapIf, List.map_map, Function.comp_def, hone]

/-- A state that has noted that a device leaves: the STEP_OPENs of its groups are held. -/
def noteLeaving (w t : Word) (s : State) : State :=
  (s.groups.filter fun g => g.members.contains w).foldl (fun s g => modGroup g.id (holdLeaving w) s)
    (modMod (fun m => { m with leaving := m.leaving.filter (fun x => x.1 != w) ++ [(w, t)] }) s)

theorem noteLeaving_rest (w t : Word) (s : State) : (noteLeaving w t s).links = s.links ∧ (noteLeaving w t s).memory = s.memory ∧
    (noteLeaving w t s).mod.leaving = s.mod.leaving.filter (fun x => x.1 != w) ++ [(w, t)] := by
  unfold noteLeaving
  rw [foldl_holdLeaving]
  exact ⟨rfl, rfl, rfl⟩

theorem noteLeaving_holds {w t : Word} {s : State} {g : Group} (hg : g ∈ (noteLeaving w t s).groups) (hw : g.members.contains w = true) :
    g.leaveHold.contains w = true := by
  rw [noteLeaving, foldl_holdLeaving] at hg
  obtain ⟨h, hh, rfl⟩ := List.mem_map.1 hg
  have hmember : h.members.contains w = true := by
    split at hw <;> exact hw
  have hany : ((s.groups.filter fun g => g.members.contains w).any fun x => x.id == h.id) = true :=
    List.any_eq_true.2 ⟨h, List.mem_filter.2 ⟨hh, hmember⟩, beq_self_eq_true _⟩
  rw [if_pos hany]
  exact holdLeaving_contains w h

theorem completes_leavingReceive {l : Fin 36} {it : Item} {s u : State} (h : Policed l it 0x31 s u) (hself : it.w5 = s.mod.identity)
    (hdest : it.w5 ≠ 0) : Completes (.leavingReceive l it) s fun t => t.links = u.links ∧
      t.mod.leaving = s.mod.leaving.filter (fun x => x.1 ≠ it.w1) ++ [(it.w1, it.w2)] ∧ t.memory = s.memory ∧
      ∀ g ∈ t.groups, g.members.contains it.w1 = true → g.leaveHold.contains it.w1 = true := by
  have hmod := congrArg State.mod h.onlyLinks
  have hmem := congrArg State.memory h.onlyLinks
  have hself' : it.w5 = u.mod.identity := hself.trans (congrArg ModuleSt.identity hmod).symm
  have hexec : execLeavingReceive l it s = .next (noteLeaving it.w1 it.w2 u) := by
    rw [execLeavingReceive, withItem_policed h]
    simp only [← hself', bne_self_eq_false, Bool.and_false, Bool.false_eq_true, if_false, beq_eq_false_iff_ne.2 hdest]
    rfl
  obtain ⟨hlinks, hmemory, hleaving⟩ := noteLeaving_rest it.w1 it.w2 u
  refine ⟨_, hexec, hlinks, hleaving.trans ?_, hmemory.trans hmem, fun g => noteLeaving_holds⟩
  rw [show u.mod = s.mod from hmod]
  simp only [bne, beq_eq_decide, decide_not]

/-- Settles O34: a partner's call is noted in one update, and a device that leaves or returns changes the holds of its groups alone. -/
theorem rollCallAndLeaving : Obligations.RollCallAndLeaving := by
  refine fun l it s u => ⟨completes_rollCallReceive, completes_rollCallResend, completes_leavingReceive, fun w t0 hfind hdue => ?_⟩
  have hexec : execLeavingTimeout w s = .next (returned w s) := by
    simp only [execLeavingTimeout, hfind]
    exact congrArg _ (if_pos (decide_eq_true hdue))
  obtain ⟨hlinks, hmem, hleaving, hholds⟩ := returned_cases w s
  refine ⟨_, hexec, hleaving.trans ?_, hholds, hmem, hlinks⟩
  simp only [bne, beq_eq_decide, decide_not]

end Sys2Proof.Machine
end

section
/-!
Notices of a link (Machine/Passes.lean, Machine/Links.lean; R303, R304, R307, R309).
-/

namespace Sys2Proof.Machine

theorem Policed.passes {l : Fin 36} {it : Item} {kind : Nat} {s u : State} (h : Policed l it kind s u) : u.passes = s.passes := by
  have hpasses := congrArg State.passes h.onlyLinks
  exact hpasses

theorem Policed.groups {l : Fin 36} {it : Item} {kind : Nat} {s u : State} (h : Policed l it kind s u) : u.groups = s.groups := by
  have hgroups := congrArg State.groups h.onlyLinks
  exact hgroups

/-- A link told that its partner has installed a slot. -/
def readyLink (slot : Bool) (k : Link) : Link := if (vget k.txKeys (slotIx slot) {}).valid then { k with keyTx := slot } else k

theorem completes_keyReadyReceive {l : Fin 36} {it : Item} {s u : State} (h : Policed l it 0x04 s u) :
    Completes (.keyReadyReceive l it) s fun t => OnlyLink l u t ∧
      linkOf l t = if (vget (linkOf l s).txKeys (slotIx (bitOf it.w1 0)) {}).valid then { linkOf l u with keyTx := bitOf it.w1 0 }
        else linkOf l u := by
  have hkeys : (linkOf l u).txKeys = (linkOf l s).txKeys := by
    have hlink := congrArg Link.txKeys h.linkOf.1
    exact hlink
  have hexec : execKeyReadyReceive l it s = .next (modLink l (readyLink (bitOf it.w1 0)) u) := by
    rw [execKeyReadyReceive, withItem_policed h]
    rfl
  refine ⟨_, hexec, onlyLink_modLink _ _ _, ?_⟩
  rw [linkOf_modLink, ← hkeys]
  rfl

theorem completes_abortReceive {l : Fin 36} {it : Item} {s u : State} (h : Policed l it 0x01 s u)
    (hshape : fieldNat (BitVec.ofNat 64 (leNat (((linkOf l s).rxData.drop (8 * 0)).take 8)) : Word) 0 4 = 3)
    (hgroup : fieldNat (BitVec.ofNat 64 (leNat (((linkOf l s).rxData.drop (8 * 0)).take 8)) : Word) 8 16 = fieldNat it.w1 0 16)
    (hordinal : (BitVec.ofNat 64 (leNat (((linkOf l s).rxData.drop (8 * 1)).take 8)) : Word) = it.w2)
    (helement : fieldNat (BitVec.ofNat 64 (leNat (((linkOf l s).rxData.drop (8 * 2)).take 8)) : Word) 0 48 = fieldNat it.w3 0 48)
    (hpart : (linkOf l s).rxData.length < segBytesOf (fieldNat (BitVec.ofNat 64 (leNat (((linkOf l s).rxData.drop (8 * 3)).take 8)) : Word) 0 17)) :
    Completes (.abortReceive l it) s fun t => OnlyLink l u t ∧ linkOf l t = { linkOf l u with rxData := [] } := by
  have hdata : (linkOf l u).rxData = (linkOf l s).rxData := by
    have hlink := congrArg Link.rxData h.linkOf.1
    exact hlink
  have hexec : execAbortReceive l it s = .next (modLink l (fun k => { k with rxData := [] }) u) := by
    rw [execAbortReceive, withItem_policed h]
    simp only [hdata, hshape, hgroup, hordinal, helement, hpart, beq_self_eq_true, decide_true, Bool.and_self, if_true]
  exact ⟨_, hexec, onlyLink_modLink _ _ _, linkOf_modLink _ _ _⟩

/-! ## VOID -/

/-- A state without its links and groups: what passing a notice on leaves. -/
def besideNotice (s : State) : State := { s with links := [], groups := [] }

theorem besideNotice_foldl_sendItem (ks : List Nat) (it : Item) (s : State) :
    besideNotice (ks.foldl (fun s k => sendItem k it s) s) = besideNotice s := by
  induction ks generalizing s with
  | nil => rfl
  | cons k ks ih => exact (ih (sendItem k it s)).trans rfl

theorem besideNotice_sendBeyond (l : Nat) (g : Group) (it : Item) (s : State) : besideNotice (sendBeyond l g it s) = besideNotice s :=
  besideNotice_foldl_sendItem _ it s

theorem passes_passVoid (l : Nat) (it : Item) (s : State) : (passVoid l it s).passes = s.passes := by
  unfold passVoid
  split
  · rfl
  · split
    · rfl
    · next g _ _ =>
      have hpasses := congrArg State.passes (besideNotice_sendBeyond l g it s)
      exact hpasses

theorem completes_voidReceive {l : Fin 36} {it : Item} {s u : State} {p : Pass} (h : Policed l it 0x02 s u) (hp : noticePass it s = some p)
    (hadm : p.admitted = true) : Completes (.voidReceive l it) s fun t => passOf p.id t = none ∧ descOf p.desc t = none := by
  have hnotice : noticePass it (passVoid l it u) = some p := by
    rw [noticePass, passes_passVoid, h.passes]
    exact hp
  have hexec : ∃ r0, execVoidReceive l it s = .next (voidPass p (BitVec.ofNat 8 (fieldNat it.w4 0 8)) (BitVec.ofNat 16 (fieldNat it.w4 16 16)) r0
      (passVoid l it u)) := by
    rw [execVoidReceive, withItem_policed h]
    simp only [hnotice, hadm, if_true]
    exact ⟨_, rfl⟩
  obtain ⟨r0, hexec⟩ := hexec
  exact ⟨_, hexec, passOf_voidPass _ _ _ _ _, descOf_voidPass _ _ _ _ _⟩

/-! ## Keyed lists -/

/-- Finding a key in a list in which the elements of one key have changed and kept it. -/
theorem find?_mapIf {α : Type} (key : α → Nat) {f : α → α} (hf : ∀ x, key (f x) = key x) (i j : Nat) (xs : List α) :
    (mapIf (fun x => key x == j) f xs).find? (fun x => key x == i) =
      if i = j then (xs.find? fun x => key x == i).map f else xs.find? fun x => key x == i := by
  have hkeys (x : α) : key (if key x == j then f x else x) = key x := by
    split
    · exact hf x
    · rfl
  induction xs with
  | nil => simp [mapIf]
  | cons x xs ih =>
    simp only [mapIf, List.map_cons, List.find?_cons, hkeys] at ih ⊢
    cases hx : key x == i with
    | false => exact ih
    | true =>
      rw [beq_iff_eq] at hx
      subst hx
      by_cases hj : key x = j <;> simp [hj]

theorem passOf_modPass {f : Pass → Pass} (hf : ∀ q, (f q).id = q.id) (i j : Nat) (s : State) :
    passOf i (modPass j f s) = if i = j then (passOf i s).map f else passOf i s := find?_mapIf (fun p : Pass => p.id) hf i j s.passes

/-! ## RESEND -/

/-- A pass that sends a segment again. -/
def resentPass (n : Nat) (q : Pass) : Pass :=
  { q with rerouted := true, outstanding := if q.outstanding.contains n then q.outstanding else q.outstanding ++ [n] }

/-- One of the segments that RESEND names sent again. -/
def resendSeg (p : Pass) (g : Group) (l : Nat) (coded : Bool) (s : State) (x : PlanSeg × Nat) : State :=
  match segData p g (passIeee p s) x.1 with
  | none => s
  | some data => queueSeg p g x.1 x.2 l coded data (modPass p.id (resentPass x.2) s)

/-- From `s` to `t` segments of a pass have been queued: the pass is still there, rerouted once it was, and waits for what it waited for. -/
def Requeued (p : Nat) (s t : State) : Prop := besideQueues t = besideQueues s ∧ ∀ q : Pass, passOf p s = some q →
  ∃ r : Pass, passOf p t = some r ∧ (q.rerouted = true → r.rerouted = true) ∧ ∀ n ∈ q.outstanding, n ∈ r.outstanding

theorem Requeued.refl (p : Nat) (s : State) : Requeued p s s := ⟨rfl, fun q hq => ⟨q, hq, id, fun _ => id⟩⟩

theorem Requeued.trans {p : Nat} {s t u : State} (h : Requeued p s t) (k : Requeued p t u) : Requeued p s u := by
  obtain ⟨hrest, hpass⟩ := h
  obtain ⟨krest, kpass⟩ := k
  refine ⟨krest.trans hrest, fun q hq => ?_⟩
  obtain ⟨r, hr, hrer, hout⟩ := hpass q hq
  obtain ⟨o, ho, korer, kout⟩ := kpass r hr
  exact ⟨o, ho, fun h => korer (hrer h), fun n hn => kout n (hout n hn)⟩

/-- A pass with one segment more queued. -/
def queuedPass (n : Nat) (q : Pass) : Pass := { q with queued := if q.queued.contains n then q.queued else q.queued ++ [n] }

theorem passOf_queueSeg (p : Pass) (g : Group) (x : PlanSeg) (num l : Nat) (coded : Bool) (data : List Byte) (s : State) :
    passOf p.id (queueSeg p g x num l coded data s) = (passOf p.id s).map (queuedPass num) :=
  (passOf_modPass (f := queuedPass num) (fun _ => rfl) p.id p.id s).trans (if_pos rfl)

theorem resendSeg_some {p : Pass} {g : Group} {l : Nat} {coded : Bool} {s : State} {x : PlanSeg × Nat} {data : List Byte} {q : Pass}
    (hdata : segData p g (passIeee p s) x.1 = some data) (hq : passOf p.id s = some q) :
    passOf p.id (resendSeg p g l coded s x) = some (queuedPass x.2 (resentPass x.2 q)) := by
  rw [resendSeg, hdata]
  dsimp only
  rw [passOf_queueSeg, passOf_modPass (f := resentPass x.2) (fun _ => rfl), if_pos rfl, hq]
  rfl

theorem mem_outstanding_resentPass (n : Nat) (q : Pass) : n ∈ (resentPass n q).outstanding := by
  unfold resentPass
  dsimp only
  split
  · next h => exact List.contains_iff_mem.1 h
  · exact List.mem_append_right _ (List.mem_singleton_self n)

theorem mem_outstanding_resentPass_of_mem {n : Nat} {q : Pass} (m : Nat) (h : n ∈ q.outstanding) : n ∈ (resentPass m q).outstanding := by
  unfold resentPass
  dsimp only
  split
  · exact h
  · exact List.mem_append_left _ h

theorem requeued_resendSeg (p : Pass) (g : Group) (l : Nat) (coded : Bool) (s : State) (x : PlanSeg × Nat) :
    Requeued p.id s (resendSeg p g l coded s x) := by
  cases hdata : segData p g (passIeee p s) x.1 with
  | none =>
    rw [resendSeg, hdata]
    exact Requeued.refl _ s
  | some data =>
    refine ⟨?_, fun q hq => ⟨_, resendSeg_some hdata hq, fun _ => rfl, fun n hn => ?_⟩⟩
    · rw [resendSeg, hdata]
      exact (besideQueues_queueSeg _ _ _ _ _ _ _ _).trans rfl
    · exact mem_outstanding_resentPass_of_mem x.2 hn

theorem requeued_foldl_resendSeg (p : Pass) (g : Group) (l : Nat) (coded : Bool) (xs : List (PlanSeg × Nat)) (s : State) :
    Requeued p.id s (xs.foldl (resendSeg p g l coded) s) := by
  induction xs generalizing s with
  | nil => exact Requeued.refl _ s
  | cons x xs ih => exact (requeued_resendSeg p g l coded s x).trans (ih _)

theorem passIeee_of_besideQueues {s t : State} (h : besideQueues t = besideQueues s) (p : Pass) : passIeee p t = passIeee p s := by
  have hslots := congrArg State.slots h
  exact congrArg (fun t : Tbl Slot => ((tgetD t p.slot ({} : Slot)).chan.map fun c => c.fp16Ieee).getD false) hslots

/-- A segment among those that RESEND names is sent again. -/
theorem foldl_resendSeg_mem {p q : Pass} {g : Group} {l : Nat} {coded : Bool} {xs : List (PlanSeg × Nat)} {x : PlanSeg × Nat} {data : List Byte}
    {s : State} (hx : x ∈ xs) (hq : passOf p.id s = some q) (hdata : segData p g (passIeee p s) x.1 = some data) :
    ∃ r : Pass, passOf p.id (xs.foldl (resendSeg p g l coded) s) = some r ∧ r.rerouted = true ∧ x.2 ∈ r.outstanding := by
  obtain ⟨ys, zs, rfl⟩ := List.append_of_mem hx
  rw [List.foldl_append, List.foldl_cons]
  obtain ⟨hrest, hpass⟩ := requeued_foldl_resendSeg p g l coded ys s
  obtain ⟨o, ho, -, -⟩ := hpass q hq
  rw [← passIeee_of_besideQueues hrest] at hdata
  obtain ⟨-, hlater⟩ := requeued_foldl_resendSeg p g l coded zs (resendSeg p g l coded (ys.foldl (resendSeg p g l coded) s) x)
  obtain ⟨r, hr, hrer, hout⟩ := hlater _ (resendSeg_some hdata ho)
  exact ⟨r, hr, hrer rfl, hout _ (mem_outstanding_resentPass x.2 o)⟩

theorem completes_resendReceive {l : Fin 36} {it : Item} {s u : State} {p : Pass} {g : Group} {x : PlanSeg} {n : Nat} {data : List Byte}
    (h : Policed l it 0x03 s u) (hp : noticePass it s = some p) (hpass : passOf p.id s = some p) (hg : groupOf p.group s = some g)
    (hx : (x, n) ∈ outSegs p g u) (hel : segElement p (groupN g) x = fieldNat it.w3 0 48) (hlink : linkToRank g x.1 u = some l.val)
    (hqueued : p.queued.contains n = true) (hdata : segData p g (passIeee p u) x = some data) :
    Completes (.resendReceive l it) s fun t => t.memory = s.memory ∧ t.cores = s.cores ∧
      ∃ q : Pass, passOf p.id t = some q ∧ q.rerouted = true ∧ n ∈ q.outstanding := by
  have hnotice : noticePass it u = some p := by
    rw [noticePass, h.passes]
    exact hp
  have hgroup : groupOf p.group u = some g := by
    rw [groupOf, h.groups]
    exact hg
  have hpassu : passOf p.id u = some p := by
    rw [passOf, h.passes]
    exact hpass
  have hexec : execResendReceive l it s = .next (((outSegs p g u).filter fun x =>
      segElement p (groupN g) x.1 == fieldNat it.w3 0 48 && linkToRank g x.1.1 u == some l.val && p.queued.contains x.2).foldl
        (resendSeg p g l (p.coded && !bitOf it.w4 0)) u) := by
    rw [execResendReceive, withItem_policed h]
    simp only [hnotice, hgroup]
    rfl
  have hmem : (x, n) ∈ (outSegs p g u).filter fun x =>
      segElement p (groupN g) x.1 == fieldNat it.w3 0 48 && linkToRank g x.1.1 u == some l.val && p.queued.contains x.2 :=
    List.mem_filter.2 ⟨hx, by simp only [hel, hlink, hqueued, beq_self_eq_true, Bool.and_self]⟩
  obtain ⟨hrest, -⟩ := requeued_foldl_resendSeg p g l (p.coded && !bitOf it.w4 0) ((outSegs p g u).filter fun x =>
      segElement p (groupN g) x.1 == fieldNat it.w3 0 48 && linkToRank g x.1.1 u == some l.val && p.queued.contains x.2) u
  have hmemory := congrArg State.memory hrest
  have hcores := congrArg State.cores hrest
  have humemory := congrArg State.memory h.onlyLinks
  have hucores := congrArg State.cores h.onlyLinks
  exact ⟨_, hexec, hmemory.trans humemory, hcores.trans hucores, foldl_resendSeg_mem hmem hpassu hdata⟩

/-- Settles O31: a policed notice acts on its link or its pass alone. -/
theorem noticesAreActedOn : Obligations.NoticesAreActedOn := by
  refine fun l it s u => ⟨completes_keyReadyReceive, fun hshape hgroup hordinal helement hpart h =>
      completes_abortReceive h hshape hgroup hordinal helement hpart,
    fun p => completes_voidReceive, fun p g x n data => completes_resendReceive, fun n p h3 hp => ?_⟩
  have hexec : execFoldParkTimeout l n s = .next (modPass n (fun p => { p with
      nodes := p.nodes.map fun v => if decide (64000 ≤ nsSince v.since (mono s)) then { v with parked := true } else v }) s) := by
    rw [execFoldParkTimeout, h3]
    rfl
  refine ⟨_, hexec, rfl, ?_⟩
  simp only [modPass, mapIf, beq_iff_eq, decide_eq_true_eq]

end Sys2Proof.Machine
end

section
/-!
Key agreement on a link and its timers (Machine/Keys.lean, R424 to R426).
-/

namespace Sys2Proof.Machine

theorem Policed.kex {l : Fin 36} {it : Item} {kind : Nat} {s u : State} (h : Policed l it kind s u) : (Machine.linkOf l u).kex = (Machine.linkOf l s).kex := by
  have hkex := congrArg Link.kex h.linkOf.1
  exact hkex

theorem Policed.state {l : Fin 36} {it : Item} {kind : Nat} {s u : State} (h : Policed l it kind s u) :
    (Machine.linkOf l u).state = (Machine.linkOf l s).state := by
  have hstate := congrArg Link.state h.linkOf.1
  exact hstate

theorem Policed.mono {l : Fin 36} {it : Item} {kind : Nat} {s u : State} (h : Policed l it kind s u) : Machine.mono u = Machine.mono s := by
  rcases policed_cases h with rfl | rfl <;> rfl

theorem Policed.memory {l : Fin 36} {it : Item} {kind : Nat} {s u : State} (h : Policed l it kind s u) : u.memory = s.memory := by
  rcases policed_cases h with rfl | rfl <;> rfl

/-! ## The messages of an agreement -/

theorem completes_kexDataReceive {l : Fin 36} {it : Item} {s u : State} {x : Kex} (h : Policed l it 0x24 s u) (hchunk : fieldNat it.w0 16 8 < 189)
    (hoffer : bitOf it.w0 12 = false) (hx : offerKex l it u = some x) (hpart : (addChunk x it).2 = none) :
    Completes (.kexDataReceive l it) s fun t => OnlyLink l u t ∧ linkOf l t = { linkOf l u with kex := some (addChunk x it).1 } := by
  have hexec : execKexDataReceive l it s = .next (modLink l (fun k => { k with kex := some (addChunk x it).1 }) u) := by
    rw [execKexDataReceive, withItem_policed h]
    simp only [if_neg (Nat.not_le.2 hchunk), hoffer, hx, hpart, Bool.not_false, if_true]
  exact ⟨_, hexec, onlyLink_modLink _ _ _, linkOf_modLink _ _ _⟩

/-- A link whose new keys stand in their slot. -/
def keyedLink (x : Kex) (t : Word) (k : Link) : Link :=
  let key (i : Nat) : BitVec 256 := BitVec.ofNat 256 (leNat ((x.keys.drop (32 * i)).take 32))
  let con (i : Nat) : W32 := BitVec.ofNat 32 (leNat ((x.keys.drop (64 + 4 * i)).take 4))
  let slot (i : Nat) : KeySlot := { key := key i, const := con i, valid := true, items := 0, since := t }
  let tx := if x.initiator then 0 else 1
  let n := slotIx x.slot
  { k with
    txKeys := vset k.txKeys n (slot tx), rxKeys := vset k.rxKeys n (slot (1 - tx)), txNonce := vset k.txNonce n 0
    rxNonce := vset k.rxNonce n none, kex := none, kexRetryAt := none
    keyTx := if k.state == 3 && k.farActive then k.keyTx else x.slot
    far := { k.far with keyNext := if k.state == 3 && k.farActive then some x.slot else none, rekeyLate := false } }

theorem installKeys_eq (l : Nat) (x : Kex) (s : State) : installKeys l x s = modLink l (keyedLink x (mono s)) s := rfl

theorem slotIx_lt (b : Bool) : slotIx b < 2 := by cases b <;> decide

theorem keyedLink_cases (x : Kex) (t : Word) (k : Link) : (keyedLink x t k).kex = none ∧
    (vget (keyedLink x t k).rxKeys (slotIx x.slot) {}).valid = true ∧ (vget (keyedLink x t k).txKeys (slotIx x.slot) {}).valid = true ∧
    (vget (keyedLink x t k).txKeys (slotIx x.slot) {}).key = BitVec.ofNat 256 (leNat ((x.keys.drop (32 * (if x.initiator then 0 else 1))).take 32)) := by
  simp only [keyedLink, vget_vset_same _ _ _ _ (slotIx_lt x.slot), and_self]

/-- A link whose partner is proved. -/
def provedLink (x : Kex) (k : Link) : Link := { k with proved := x.partner, rollJudged := false, keyRx := x.slot }

theorem completes_kexDoneReceive {l : Fin 36} {it : Item} {s u : State} {x : Kex} (h : Policed l it 0x25 s u) (hx : (linkOf l s).kex = some x)
    (hsession : x.session = it.w5) (hkeys : x.keys ≠ [])
    (hpsk : (linkOf l s).farActive = true → fieldNat it.w3 0 32 = (linkOf l s).far.pskId.toNat)
    (hconfirm : wordBytes it.w1 ++ wordBytes it.w2 = confirmOf x.keys (if x.initiator then 1 else 0)) :
    Completes (.kexDoneReceive l it) s fun t => OnlyLink l u t ∧ (linkOf l t).kex = none ∧
      (vget (linkOf l t).rxKeys (slotIx x.slot) {}).valid = true ∧ (vget (linkOf l t).txKeys (slotIx x.slot) {}).valid = true ∧
      (vget (linkOf l t).txKeys (slotIx x.slot) {}).key = BitVec.ofNat 256 (leNat ((x.keys.drop (32 * (if x.initiator then 0 else 1))).take 32)) ∧
      ((linkOf l s).state = 2 → (linkOf l t).proved = x.partner) := by
  have hfar : (linkOf l u).farActive = (linkOf l s).farActive := by
    have hlink := congrArg Link.farActive h.linkOf.1
    exact hlink
  have hid : (linkOf l u).far.pskId = (linkOf l s).far.pskId := by
    have hlink := congrArg (fun k : Link => k.far.pskId) h.linkOf.1
    exact hlink
  have hpsk' : ((linkOf l s).farActive && fieldNat it.w3 0 32 != (linkOf l s).far.pskId.toNat) = false := by
    cases hf : (linkOf l s).farActive
    · rfl
    · rw [hpsk hf, bne_self_eq_false, Bool.and_false]
  have hexec : execKexDoneReceive l it s = .next (if (linkOf l s).state == 2 then sendRollCall l (modLink l (provedLink x) (installKeys l x u))
      else installKeys l x u) := by
    rw [execKexDoneReceive, withItem_policed h]
    simp only [h.kex, h.state, hx, hsession, hfar, hid, hpsk', hconfirm, List.isEmpty_eq_false_iff.2 hkeys, bne_self_eq_false, Bool.or_self,
      Bool.false_eq_true, if_false]
    rfl
  obtain ⟨hnone, hrx, htx, hkey⟩ := keyedLink_cases x (mono u) (linkOf l u)
  rw [installKeys_eq] at hexec
  by_cases h2 : (linkOf l s).state = 2
  · rw [h2, beq_self_eq_true, if_pos rfl] at hexec
    obtain ⟨honly, hlink⟩ := sendRollCall_cases l (modLink l (provedLink x) (modLink l (keyedLink x (mono u)) u))
    rw [linkOf_modLink, linkOf_modLink] at hlink
    refine ⟨_, hexec, ((onlyLink_modLink l _ u).trans (onlyLink_modLink l _ _)).trans honly, ?_⟩
    rw [hlink]
    exact ⟨hnone, hrx, htx, hkey, fun _ => rfl⟩
  · rw [beq_eq_false_iff_ne.2 h2, if_neg Bool.false_ne_true] at hexec
    refine ⟨_, hexec, onlyLink_modLink _ _ _, ?_⟩
    rw [linkOf_modLink]
    exact ⟨hnone, hrx, htx, hkey, fun h => absurd h h2⟩

theorem completes_kexAbortReceive {l : Fin 36} {it : Item} {s u : State} {x : Kex} (h : Policed l it 0x26 s u) (hx : (linkOf l s).kex = some x)
    (hsession : x.session = it.w5) :
    Completes (.kexAbortReceive l it) s fun t => (linkOf l t).kex = none ∧ t.memory.fast = s.memory.fast := by
  have hexec : execKexAbortReceive l it s = .next (endKex l (fieldNat it.w1 0 8 == 2) u) := by
    rw [execKexAbortReceive, withItem_policed h]
    simp only [h.kex, hx, hsession, beq_self_eq_true, if_true]
  obtain ⟨hkex, hfast⟩ := endKex_cases (authFail := fieldNat it.w1 0 8 == 2) (h.kex.trans hx)
  exact ⟨_, hexec, hkex, hfast.trans (congrArg MemSt.fast h.memory)⟩

/-- An agreement that begins on a link, as the statements say it. -/
theorem startKex_begun {l : Nat} {slot : Bool} {s : State} (h : (linkOf l s).kex = none) : ∃ x : Kex, (linkOf l (startKex l slot s)).kex = some x ∧
    x.initiator = true ∧ x.slot = slot ∧ x.started = mono s ∧ ∀ j : Nat, j ≠ l → linkOf j (startKex l slot s) = linkOf j s := by
  obtain ⟨x, its, hlink, hinit, hslot, hstarted, hother, -⟩ := startKex_cases (slot := slot) h
  exact ⟨x, congrArg Link.kex hlink, hinit, hslot, hstarted, hother⟩

theorem completes_kexRequestReceive {l : Fin 36} {it : Item} {s u : State} (h : Policed l it 0x27 s u) (hinit : isInitiator l u = true)
    (hslot : bitOf it.w1 0 ≠ (linkOf l s).keyTx) (hstate : (linkOf l s).state = 3) (hkex : (linkOf l s).kex = none) :
    Completes (.kexRequestReceive l it) s fun t => ∃ x : Kex, (linkOf l t).kex = some x ∧
      x.initiator = true ∧ x.slot = bitOf it.w1 0 ∧ x.started = mono s ∧ ∀ j : Nat, j ≠ l.val → linkOf j t = linkOf j s := by
  have hkeyTx : (linkOf l u).keyTx = (linkOf l s).keyTx := by
    have hlink := congrArg Link.keyTx h.linkOf.1
    exact hlink
  have hexec : execKexRequestReceive l it s = .next (startKex l (bitOf it.w1 0) u) := by
    rw [execKexRequestReceive, withItem_policed h]
    simp only [hinit, hkeyTx, h.state, hstate, bne_iff_ne.2 hslot, beq_self_eq_true, Bool.and_self, if_true]
  obtain ⟨x, hx, hxinit, hxslot, hxstarted, hother⟩ := startKex_begun (slot := bitOf it.w1 0) (h.kex.trans hkex)
  exact ⟨_, hexec, x, hx, hxinit, hxslot, hxstarted.trans h.mono, fun j hj => (hother j hj).trans (h.linkOf.2 j hj)⟩

theorem completes_kexTimeout {l : Fin 36} {s : State} {x : Kex} (hx : (linkOf l s).kex = some x) (hdue : 100000000 ≤ nsSince x.started (mono s)) :
    Completes (.kexTimeout l) s fun t => (linkOf l t).kex = none ∧ t.memory.fast = s.memory.fast := by
  have hexec : execKexTimeout l s = .next (abortKex l 1 false s) := by
    simp only [execKexTimeout, hx]
    exact congrArg _ (if_pos (decide_eq_true hdue))
  exact ⟨_, hexec, abortKex_cases hx⟩

/-! ## The timers of keys -/

theorem completes_kexRetry {l : Fin 36} {s : State} {x : Word} (hstate : (linkOf l s).state = 3) (hx : (linkOf l s).kexRetryAt = some x)
    (hdue : x.toNat ≤ (mono s).toNat) (hkex : (linkOf l s).kex = none) : Completes (.kexRetry l) s fun t =>
      ∃ y : Kex, (linkOf l t).kex = some y ∧ y.initiator = true ∧ y.slot = !(linkOf l s).keyTx ∧ ∀ j : Nat, j ≠ l.val → linkOf j t = linkOf j s := by
  have hexec : execKexRetry l s = .next (startKex l (!(linkOf l s).keyTx) s) := by
    simp only [execKexRetry, hx, hstate, hdue, decide_true, beq_self_eq_true, Bool.and_self, if_true]
  obtain ⟨y, hy, hinit, hslot, -, hother⟩ := startKex_begun (slot := !(linkOf l s).keyTx) hkex
  exact ⟨_, hexec, y, hy, hinit, hslot, hother⟩

theorem completes_farRekeyTimer {l : Fin 36} {s : State} (hstate : (linkOf l s).state = 3) (hfar : (linkOf l s).farActive = true)
    (hnext : (linkOf l s).far.keyNext = none) (hitems : 2 ^ 31 ≤ slotItems (linkOf l s)) (hkex : (linkOf l s).kex = none) :
    Completes (.farRekeyTimer l) s fun t =>
      (isInitiator l s = true → ∃ y : Kex, (linkOf l t).kex = some y ∧ y.initiator = true ∧ y.slot = !(linkOf l s).keyTx) ∧
      (isInitiator l s = false → OnlyLink l s t ∧
        (linkOf l t).control = (linkOf l s).control ++ [mkItem 0x27 0 (if (linkOf l s).keyTx then 0 else 1) 0 0 0 0]) := by
  have hexec : execFarRekeyTimer l s = .next (askKex l s) := by
    simp only [execFarRekeyTimer, hfar, hstate, hnext, hitems, beq_self_eq_true, decide_true, Bool.true_or, Option.isNone_none, Bool.and_self, if_true]
  refine ⟨_, hexec, fun hinit => ?_, fun hinit => ?_⟩
  · simp only [askKex, hkex, hinit, Option.isSome_none, Bool.false_eq_true, if_false, if_true]
    obtain ⟨y, hy, hyinit, hslot, -, -⟩ := startKex_begun (slot := !(linkOf l s).keyTx) hkex
    exact ⟨y, hy, hyinit, hslot⟩
  · simp only [askKex, hkex, hinit, Option.isSome_none, Bool.false_eq_true, if_false]
    refine ⟨onlyLink_modLink _ _ _, ?_⟩
    rw [sendItem, linkOf_modLink]

theorem completes_keySlotExhausted {l : Fin 36} {s : State} (hstate : (linkOf l s).state = 3) (hfar : (linkOf l s).farActive = false)
    (hitems : 2 ^ 32 ≤ slotItems (linkOf l s)) : Completes (.keySlotExhausted l) s fun t => (linkOf l t).state = 0 := by
  have hexec : execKeySlotExhausted l s = .next (linkDown l s) := by
    simp only [execKeySlotExhausted, hstate, hfar, hitems, bne_self_eq_false, Bool.false_eq_true, if_false, if_true]
  exact ⟨_, hexec, linkDown_state _ _⟩

/-- A far link that stops its data frames for want of a key. -/
def lateLink (k : Link) : Link := { k with far := { k.far with rekeyLate := true } }

/-- A far link with a flag raised and counted. -/
def flagFar (i : Nat) (k : Link) : Link :=
  { k with far := { k.far with flags := k.far.flags ||| BitVec.ofNat 5 (2 ^ i), counts := vmod k.far.counts i (· + 1) } }

theorem linkOf_raiseFar (l i : Nat) (s : State) : linkOf l (raiseFar l i s) = flagFar i (linkOf l s) := by
  rw [raiseFar, linkOf_raiseDev, linkOf_modLink]
  rfl

theorem onlyLink_raiseFar (l i : Nat) (s : State) : OnlyLink l s (raiseFar l i s) :=
  (onlyLink_modLink l _ s).trans ((onlyFlags_raiseDev 28 _).onlyLink l)

theorem getLsbD_flagFar {i : Nat} (k : Link) (hi : i < 5) : (flagFar i k).far.flags.getLsbD i = true := by
  show (k.far.flags ||| BitVec.ofNat 5 (2 ^ i)).getLsbD i = true
  rw [BitVec.getLsbD_or, BitVec.getLsbD_ofNat]
  simp [hi]

theorem completes_keySlotExhausted_far {l : Fin 36} {s : State} (hstate : (linkOf l s).state = 3) (hfar : (linkOf l s).farActive = true)
    (hnext : (linkOf l s).far.keyNext = none) (hlate : (linkOf l s).far.rekeyLate = false) (hitems : 2 ^ 32 ≤ slotItems (linkOf l s)) :
    Completes (.keySlotExhausted l) s fun t =>
      OnlyLink l s t ∧ (linkOf l t).far.rekeyLate = true ∧ (linkOf l t).far.flags.getLsbD 3 = true ∧ (linkOf l t).state = 3 := by
  have hexec : execKeySlotExhausted l s = .next (raiseFar l 3 (raiseEvent 0x48 [l, 0, 0] (modLink l lateLink s))) := by
    simp only [execKeySlotExhausted, hstate, hfar, hnext, hlate, hitems, bne_self_eq_false, Bool.false_eq_true, if_false, if_true,
      Option.isNone_none, Bool.not_false, decide_true, Bool.true_or, Bool.and_self]
    rfl
  have hlink : linkOf l (raiseFar l 3 (raiseEvent 0x48 [l, 0, 0] (modLink l lateLink s))) = flagFar 3 (lateLink (linkOf l s)) :=
    (linkOf_raiseFar l 3 _).trans (congrArg (flagFar 3) (linkOf_modLink l lateLink s))
  refine ⟨_, hexec, ((onlyLink_modLink l _ s).trans ((onlyFlags_raiseEvent _ _ _).onlyLink l)).trans (onlyLink_raiseFar l 3 _), ?_⟩
  rw [hlink]
  exact ⟨rfl, getLsbD_flagFar _ (by decide), hstate⟩

/-- Settles O32: each message of an agreement and each timer acts on its link, and an agreement that ends is gone whatever it leaves. -/
theorem keysAreAgreed : Obligations.KeysAreAgreed :=
  ⟨fun _ _ _ _ => ⟨fun _ => completes_kexDataReceive, fun _ => completes_kexDoneReceive, fun _ => completes_kexAbortReceive,
    completes_kexRequestReceive, fun _ => completes_kexTimeout⟩,
   fun _ _ hstate => ⟨fun _ => completes_kexRetry hstate, completes_farRekeyTimer hstate, completes_keySlotExhausted hstate,
    completes_keySlotExhausted_far hstate⟩⟩

end Sys2Proof.Machine
end

section
/-!
Ports and their admin channels (Machine/Channels.lean, R21, R410, R451, R452).
-/

namespace Sys2Proof.Machine

theorem onlyPort_modPort (p : Port) (f : PortSt → PortSt) (s : State) : OnlyPort p s (modPort p f s) := by cases p <;> rfl

theorem modPort_modPort (p : Port) (f g : PortSt → PortSt) (s : State) : modPort p f (modPort p g s) = modPort p (fun q => f (g q)) s := by
  cases p <;> rfl

theorem portOf_peer_modPort (p : Port) (f : PortSt → PortSt) (s : State) : portOf (peerOf p) (modPort p f s) = portOf (peerOf p) s := by
  cases p <;> rfl

/-- A slot of the channel table and a port are apart. -/
theorem modSlot_beside_modPort (i : Nat) (f : Slot → Slot) (p : Port) (g : PortSt → PortSt) (s : State) :
    { modSlot i f (modPort p g s) with slots := s.slots } = modPort p g s := by cases p <;> rfl

theorem slotOf_modPort (j : Nat) (p : Port) (f : PortSt → PortSt) (s : State) : slotOf j (modPort p f s) = slotOf j s := by cases p <;> rfl

theorem chanOf_modPort (j : Nat) (p : Port) (f : PortSt → PortSt) (s : State) : chanOf j (modPort p f s) = chanOf j s := by cases p <;> rfl

theorem chanOf_modSlot (i : Nat) (f : Slot → Slot) (s : State) : chanOf i (modSlot i f s) = (f (slotOf i s)).chan :=
  congrArg Slot.chan (slotOf_modSlot i f s)

/-! ## The link of a port and its fence -/

theorem completes_onlyPort {i : Instr} {p : Port} {f : PortSt → PortSt} {s : State} (hexec : exec i s = .next (modPort p f s)) :
    Completes i s fun t => OnlyPort p s t ∧ portOf p t = f (portOf p s) :=
  ⟨_, hexec, onlyPort_modPort p f s, portOf_modPort p f s⟩

theorem execPortLinkDown_up {p : Port} {s : State} (h : (portOf p s).linkUp = true) : execPortLinkDown p s =
    .next (modPort p (fun q => { q with linkUp := false, width := 0, speed := 0, downSince := some (mono s) }) s) := by
  rw [execPortLinkDown, if_pos h]

theorem execPortLinkDownTimeout_due {p : Port} {s : State} {t0 : Word} (hsince : (portOf p s).downSince = some t0)
    (hdown : (portOf p s).linkUp = false) (hdue : 100000000 ≤ nsSince t0 (mono s)) : execPortLinkDownTimeout p s =
    .next (modPort p (fun q => { q with downSince := none, fenced := true, fenceCount := q.fenceCount + 1 }) s) := by
  simp only [execPortLinkDownTimeout, hsince, hdown, decide_eq_true hdue, Bool.not_false, Bool.and_self, if_true, fencePort, modPort_modPort]

theorem completes_peerFenceWrite {p : Port} {s : State} (h : (portOf p s).fenced = false) :
    Completes (.peerFenceWrite p) s fun t => OnlyPort (peerOf p) (accessed p s) t ∧
      portOf (peerOf p) t = { portOf (peerOf p) s with fenced := true, fenceCount := (portOf (peerOf p) s).fenceCount + 1 } := by
  have hexec : execPeerFenceWrite p s = .next (fencePort (peerOf p) (accessed p s)) := by
    rw [execPeerFenceWrite, if_neg (by simp only [h, Bool.false_eq_true, not_false_eq_true])]
    rfl
  refine ⟨_, hexec, onlyPort_modPort _ _ _, ?_⟩
  rw [fencePort, portOf_modPort, accessed, portOf_peer_modPort]

theorem execSelfFenceClear_up {p : Port} {s : State} (co : Bool) (h : (portOf p s).linkUp = true) : execSelfFenceClear p co s =
    .next (modPort p (fun q => { q with latch := none, fenced := co, fenceCount := if co then q.fenceCount + 1 else q.fenceCount }) s) := by
  cases p
  · simp only [portOf] at h
    simp only [execSelfFenceClear, modPort, h, Bool.not_true, Bool.and_false, Bool.or_false]
  · simp only [portOf] at h
    simp only [execSelfFenceClear, modPort, h, Bool.not_true, Bool.and_false, Bool.or_false]

/-! ## The admin channel of a port -/

theorem adminChan_ring (p : Port) (q : PortSt) (i : Fin 8) : ((adminChan p q).rings[i]).base = q.adminSqBase[i] ∧
    ((adminChan p q).rings[i]).log2 = fieldNat q.adminSqCfg[i] 0 5 := by
  simp [adminChan, ringFrom, fieldNat]

theorem completes_adminEnable {p : Port} {s : State} (hfence : (portOf p s).fenced = false) (hoff : (portOf p s).adminEnable = false)
    (hstage : 2 ≤ s.mod.stage.toNat) (hrange : adminInRange (portOf p s) = true) : Completes (.adminEnable p) s fun t =>
      { t with slots := s.slots } = modPort p (fun q => { q with latch := none, adminEnable := true, cfgError := false, stale := [] }) s ∧
      (∀ j : Nat, j ≠ adminSlot p → slotOf j t = slotOf j s) ∧ ∃ c : Chan, chanOf (adminSlot p) t = some c ∧ c.cls = 0 ∧ c.owner = p ∧
        c.running = true ∧ c.waiting = (portOf p s).stale ∧ c.handle = mkHandle 0 1 (adminSlot p) ∧
        ∀ i : Fin 8, (c.rings[i]).base = (portOf p s).adminSqBase[i] ∧ (c.rings[i]).log2 = fieldNat (portOf p s).adminSqCfg[i] 0 5 := by
  have hexec : execAdminEnable p s = .next
      (modSlot (adminSlot p) (fun x => { x with lastHandle := mkHandle 0 1 (adminSlot p), chan := some (adminChan p (portOf p s)) })
        (modPort p (fun q => { q with latch := none, adminEnable := true, cfgError := false, stale := [] }) s)) := by
    simp only [execAdminEnable, hfence, hoff, decide_eq_false (Nat.not_lt.2 hstage), Bool.or_self, Bool.false_eq_true, if_false,
      if_pos hrange, modPort_modPort]
  refine ⟨_, hexec, modSlot_beside_modPort _ _ _ _ _, fun j hj => ?_, adminChan p (portOf p s), ?_, rfl, rfl, rfl, rfl, rfl,
    adminChan_ring p (portOf p s)⟩
  · rw [slotOf_modSlot_other _ _ _ _ hj, slotOf_modPort]
  · rw [chanOf_modSlot]

theorem execAdminEnable_outOfRange {p : Port} {s : State} (hfence : (portOf p s).fenced = false) (hoff : (portOf p s).adminEnable = false)
    (hstage : 2 ≤ s.mod.stage.toNat) (hrange : adminInRange (portOf p s) = false) :
    execAdminEnable p s = .next (modPort p (fun q => { q with latch := none, cfgError := true }) s) := by
  simp only [execAdminEnable, hfence, hoff, decide_eq_false (Nat.not_lt.2 hstage), Bool.or_self, Bool.false_eq_true, if_false,
    hrange, modPort_modPort]

theorem completes_adminDisable {p : Port} {s : State} {c : Chan} (hfence : (portOf p s).fenced = false)
    (hon : (portOf p s).adminEnable = true) (hc : chanOf (adminSlot p) s = some c) : Completes (.adminDisable p) s fun t =>
      { t with slots := s.slots } = modPort p (fun q => { q with latch := none, adminEnable := false, stale := c.waiting ++ q.stale }) s ∧
      (∀ j : Nat, j ≠ adminSlot p → slotOf j t = slotOf j s) ∧ chanOf (adminSlot p) t = none := by
  have hexec : execAdminDisable p s = .next (modSlot (adminSlot p) (fun x => { x with chan := none })
      (modPort p (fun q => { q with latch := none, adminEnable := false, stale := c.waiting ++ q.stale }) s)) := by
    simp only [execAdminDisable, hfence, hon, hc, Bool.not_true, Bool.or_self, Bool.false_eq_true, if_false]
  refine ⟨_, hexec, modSlot_beside_modPort _ _ _ _ _, fun j hj => ?_, ?_⟩
  · rw [slotOf_modSlot_other _ _ _ _ hj, slotOf_modPort]
  · rw [chanOf_modSlot]

/-- Settles O37: each of these commands answers its port changed by one function, and the admin commands one slot besides. -/
theorem portsAndAdminChannels : Obligations.PortsAndAdminChannels := by
  refine fun p s => ⟨fun h => ?_, fun width speed => ?_, fun t0 hsince hdown hdue => ?_, completes_peerFenceWrite, fun co h => ?_,
    fun hfence hoff hstage => ⟨completes_adminEnable hfence hoff hstage, fun hrange => ?_⟩, fun c => completes_adminDisable, ?_⟩
  · exact completes_onlyPort (i := .portLinkDown p) (execPortLinkDown_up h)
  · exact completes_onlyPort (i := .portLinkUp p width speed) rfl
  · exact completes_onlyPort (i := .portLinkDownTimeout p) (execPortLinkDownTimeout_due hsince hdown hdue)
  · exact completes_onlyPort (i := .selfFenceClear p co) (execSelfFenceClear_up co h)
  · exact completes_onlyPort (i := .adminEnable p) (execAdminEnable_outOfRange hfence hoff hstage hrange)
  · exact completes_onlyPort (i := .portReset p) rfl

end Sys2Proof.Machine
end

section
/-!
Bells, completions and the ends of descriptors as their channel sees them (Machine/Channels.lean, R36 to R40).
-/

namespace Sys2Proof.Machine

/-! ## The channel of a slot -/

theorem modChan_of_chan {i : Nat} {c : Chan} {s : State} (f : Chan → Chan) (h : chanOf i s = some c) :
    modChan i f s = modSlot i (fun x => { x with chan := some (f c) }) s := by simp only [modChan, h]

theorem onlySlot_modSlot (i : Nat) (f : Slot → Slot) (s : State) : OnlySlot i s (modSlot i f s) :=
  ⟨rfl, fun j hj => slotOf_modSlot_other i j f s hj⟩

theorem onlySlot_modChan (i : Nat) (f : Chan → Chan) (s : State) : OnlySlot i s (modChan i f s) := by
  unfold modChan
  split
  · exact onlySlot_modSlot _ _ _
  · exact ⟨rfl, fun _ _ => rfl⟩

theorem slotOf_modChan_other (i j : Nat) (f : Chan → Chan) (s : State) (h : j ≠ i) : slotOf j (modChan i f s) = slotOf j s :=
  (onlySlot_modChan i f s).2 j h

theorem chanOf_modChan_some {i : Nat} {c : Chan} {s : State} (f : Chan → Chan) (h : chanOf i s = some c) :
    chanOf i (modChan i f s) = some (f c) := by rw [chanOf_modChan, h, Option.map_some]

theorem slotOf_congr {s t : State} (h : t.slots = s.slots) (j : Nat) : slotOf j t = slotOf j s := by rw [slotOf, slotOf, h]

theorem chanOf_congr {s t : State} (h : t.slots = s.slots) (j : Nat) : chanOf j t = chanOf j s := by rw [chanOf, chanOf, slotOf_congr h]

theorem slots_sendMsix (p : Port) (v : Nat) (s : State) : (sendMsix p v s).slots = s.slots := by
  unfold sendMsix
  split
  · rfl
  · split
    · exact modPort_slots _ _ _
    · rfl

theorem slots_of_onlyFlags {s t : State} (h : OnlyFlags s t) : t.slots = s.slots := by
  have hslots := congrArg State.slots h
  exact hslots

theorem slots_raiseDev (i : Nat) (s : State) : (raiseDev i s).slots = s.slots := slots_of_onlyFlags (onlyFlags_raiseDev i s)

/-- A channel that is not being destroyed has nothing to settle. -/
theorem settleDestroy_of_live {slot : Nat} {c : Chan} {s : State} (hc : chanOf slot s = some c) (hlive : c.destroyId = none) :
    settleDestroy slot s = s := by simp only [settleDestroy, hc, hlive, Option.bind_none]

theorem vget_vmod {α : Type} {n : Nat} (v : Vector α n) (i : Nat) (f : α → α) (j : Nat) (d : α) (hi : i < n) :
    vget (vmod v i f) j d = if j = i then f (vget v i d) else vget v j d := by
  have hv : vmod v i f = vset v i (f (vget v i d)) := by simp [vmod, vset, vget, hi]
  rw [hv]
  split
  · next h => rw [h, vget_vset_same _ _ _ _ hi]
  · next h => exact vget_vset_other _ _ _ _ _ h

/-! ## Bells -/

/-- A bell page's offset of a ring is aligned and names that ring. -/
theorem bellReg_offset : ∀ ring : Fin 8, (BitVec.ofNat 12 (64 * ring.val)).toNat % 4 = 0 ∧
    bellReg (BitVec.ofNat 12 (64 * ring.val)).toNat = some ring.val ∧ (ring.val == 8) = false := by decide

/-- A bell of a ready module from the port that owns the running channel is taken. -/
theorem bellWrite_ready {slot offset ring : Nat} {c : Chan} {s : State} (v : Word) (hc : chanOf slot s = some c) (hrun : c.running = true)
    (hstage : s.mod.stage = 7) (hfence : (portOf c.owner s).fenced = false) (hup : (portOf c.owner s).linkUp = true)
    (halign : offset % 4 = 0) (hreg : bellReg offset = some ring) :
    bellWrite c.owner slot offset 4 v s = takeBell slot ring (v.setWidth 32) (accessed c.owner s) := by
  have hc' : chanOf slot (modPort c.owner (fun q => { q with latch := none }) s) = some c := (chanOf_modPort _ _ _ _).trans hc
  simp only [bellWrite, hfence, hup, hc', hrun, halign, hreg, modPort_mod, hstage, bne_self_eq_false, Bool.not_true, Bool.or_self,
    Bool.false_eq_true, if_false, beq_self_eq_true, Bool.true_or, if_true, accessed]

theorem takeTail_accepted {slot ring : Nat} {c : Chan} {v : W32} {s : State} (hc : chanOf slot s = some c)
    (hring : (vget c.rings ring {}).log2 ≠ 0) (hhead : (v - (vget c.rings ring {}).head).toNat ≤ 2 ^ (vget c.rings ring {}).log2)
    (htail : (v - (vget c.rings ring {}).tail).toNat ≤
      2 ^ (vget c.rings ring {}).log2 - ((vget c.rings ring {}).tail - (vget c.rings ring {}).head).toNat) :
    takeTail slot ring v s = modChan slot (fun c => { c with rings := vmod c.rings ring (fun x => { x with tail := v }) }) s := by
  simp only [takeTail, ringOf, hc, beq_eq_false_iff_ne.2 hring, tailAccepted, decide_eq_true hhead, decide_eq_true htail, Bool.and_self,
    Bool.false_eq_true, if_false, if_true]

theorem takeTail_outside {slot ring : Nat} {c : Chan} {v : W32} {s : State} (hc : chanOf slot s = some c)
    (hhead : 2 ^ (vget c.rings ring {}).log2 < (v - (vget c.rings ring {}).head).toNat) : takeTail slot ring v s = raiseBellError slot s := by
  simp only [takeTail, ringOf, hc, tailAccepted, decide_eq_false (Nat.not_le.2 hhead), Bool.false_and, Bool.false_eq_true, if_false, ite_self]

theorem chanOf_accessed (j : Nat) (p : Port) (s : State) : chanOf j (accessed p s) = chanOf j s := chanOf_modPort _ _ _ _

theorem slotOf_raiseBellError (slot : Nat) (s : State) : slotOf slot (raiseBellError slot s) =
    { slotOf slot s with bellError := true, bellCount := (slotOf slot s).bellCount + 1 } := by
  rw [raiseBellError, slotOf_congr (slots_raiseDev _ _), slotOf_modSlot]

theorem completes_sqTailWrite_taken {slot : Fin 4096} {ring : Fin 8} {c : Chan} {s : State} {v : Word}
    (hbell : bellWrite c.owner slot.val (BitVec.ofNat 12 (64 * ring.val)).toNat 4 v s =
      takeBell slot.val ring.val (v.setWidth 32) (accessed c.owner s)) (hc : chanOf slot s = some c)
    (hring : (vget c.rings ring {}).log2 ≠ 0) (hhead : (v.setWidth 32 - (vget c.rings ring {}).head).toNat ≤ 2 ^ (vget c.rings ring {}).log2)
    (htail : (v.setWidth 32 - (vget c.rings ring {}).tail).toNat ≤
      2 ^ (vget c.rings ring {}).log2 - ((vget c.rings ring {}).tail - (vget c.rings ring {}).head).toNat) :
    Completes (.sqTailWrite c.owner slot (BitVec.ofNat 12 (64 * ring.val)) 4 v) s fun t => OnlySlot slot (accessed c.owner s) t ∧
      ∃ k : Chan, chanOf slot t = some k ∧ { k with rings := c.rings } = c ∧
        ∀ i : Nat, vget k.rings i {} = if i = ring.val then { vget c.rings ring {} with tail := v.setWidth 32 } else vget c.rings i {} := by
  have hc' := (chanOf_accessed slot c.owner s).trans hc
  have hexec : execSqTailWrite c.owner slot (BitVec.ofNat 12 (64 * ring.val)) 4 v s =
      .next (modChan slot (fun c => { c with rings := vmod c.rings ring.val (fun x => { x with tail := v.setWidth 32 }) }) (accessed c.owner s)) := by
    rw [execSqTailWrite, hbell, takeBell, (bellReg_offset ring).2.2, takeTail_accepted hc' hring hhead htail]
    rfl
  exact ⟨_, hexec, onlySlot_modChan _ _ _, _, chanOf_modChan_some _ hc', rfl, fun i => vget_vmod c.rings ring.val _ i {} ring.isLt⟩

theorem completes_sqTailWrite_discarded {slot : Fin 4096} {ring : Fin 8} {c : Chan} {s : State} {v : Word}
    (hbell : bellWrite c.owner slot.val (BitVec.ofNat 12 (64 * ring.val)).toNat 4 v s =
      takeBell slot.val ring.val (v.setWidth 32) (accessed c.owner s)) (hc : chanOf slot s = some c)
    (hhead : 2 ^ (vget c.rings ring {}).log2 < (v.setWidth 32 - (vget c.rings ring {}).head).toNat) :
    Completes (.sqTailWrite c.owner slot (BitVec.ofNat 12 (64 * ring.val)) 4 v) s fun t =>
      (slotOf slot t).bellError = true ∧ t.devFlags.getLsbD 27 = true ∧ chanOf slot t = some c := by
  have hc' := (chanOf_accessed slot c.owner s).trans hc
  have hexec : execSqTailWrite c.owner slot (BitVec.ofNat 12 (64 * ring.val)) 4 v s = .next (raiseBellError slot (accessed c.owner s)) := by
    rw [execSqTailWrite, hbell, takeBell, (bellReg_offset ring).2.2, takeTail_outside hc' hhead]
    rfl
  refine ⟨_, hexec, congrArg Slot.bellError (slotOf_raiseBellError _ _), ?_, (congrArg Slot.chan (slotOf_raiseBellError _ _)).trans hc'⟩
  have hflag : (raiseBellError slot (accessed c.owner s)).devFlags =
      (modSlot slot.val (fun x => { x with bellError := true, bellCount := x.bellCount + 1 }) (accessed c.owner s)).devFlags |||
        BitVec.ofNat 29 (2 ^ 27) := devRaised_raiseDev 27 _
  rw [hflag, BitVec.getLsbD_or]
  exact Bool.or_true _

theorem completes_cqHeadWrite_taken {slot : Fin 4096} {c : Chan} {s : State} {v : Word} (hc : chanOf slot s = some c) (hrun : c.running = true)
    (hstage : s.mod.stage = 7) (hfence : (portOf c.owner s).fenced = false) (hup : (portOf c.owner s).linkUp = true)
    (hhead : (v.setWidth 32 - c.cq.h).toNat ≤ (c.cq.w - c.cq.h).toNat) : Completes (.cqHeadWrite c.owner slot 4 v) s fun t =>
      OnlySlot slot (accessed c.owner s) t ∧ chanOf slot t = some { c with cq := { c.cq with h := v.setWidth 32 } } := by
  have hc' := (chanOf_accessed slot c.owner s).trans hc
  have hexec : execCqHeadWrite c.owner slot 4 v s =
      .next (modChan slot (fun c => { c with cq := { c.cq with h := v.setWidth 32 } }) (accessed c.owner s)) := by
    have hreg : bellReg 0x200 = some 8 := by decide
    rw [execCqHeadWrite, bellWrite_ready v hc hrun hstage hfence hup (by decide) hreg]
    simp only [takeBell, takeHead, hc', if_pos hhead, beq_self_eq_true, if_true]
  exact ⟨_, hexec, onlySlot_modChan _ _ _, chanOf_modChan_some _ hc'⟩

/-! ## Completions -/

theorem complDue_of {slot : Nat} {c : Chan} {x : Compl} {rest : List Compl} {s : State} (hw : c.waiting = x :: rest)
    (hroom : (c.cq.w - c.cq.h).toNat < 2 ^ c.cq.log2) (hfence : (portOf c.owner s).fenced = false) (hup : (portOf c.owner s).linkUp = true)
    (hstage : s.mod.stage = 7) : complDue slot c s = true := by
  simp only [complDue, hw, List.isEmpty_cons, decide_eq_true hroom, hfence, hup, stageServes, hstage, beq_self_eq_true, Bool.true_or,
    Bool.not_false, Bool.and_self]

/-- A message changes neither a port's memory nor the other port. -/
theorem sendMsix_cases (p : Port) (v : Nat) (s : State) : (portOf p (sendMsix p v s)).mem = (portOf p s).mem ∧
    portOf (peerOf p) (sendMsix p v s) = portOf (peerOf p) s ∧ (sendMsix p v s).memory = s.memory := by
  unfold sendMsix
  split
  · exact ⟨rfl, rfl, rfl⟩
  · split
    · exact ⟨by rw [portOf_modPort], portOf_peer_modPort _ _ _, modPort_memory _ _ _⟩
    · cases p <;> exact ⟨rfl, rfl, rfl⟩

theorem hostWrite_open {p : Port} {a : Nat} {bs : List Byte} {s : State} (h : (portOf p s).fenced = false) :
    hostWrite p a bs s = modPort p (fun q => { q with mem := memWrite q.mem a bs }) s := by
  simp only [hostWrite, h, Bool.false_eq_true, if_false]

theorem portOf_modChan (p : Port) (i : Nat) (f : Chan → Chan) (s : State) : portOf p (modChan i f s) = portOf p s := by
  unfold modChan
  split <;> cases p <;> rfl

theorem afterEntry_w (irq : Bool) (t : Word) (q : CRing) : (afterEntry irq t q).1.w = q.w := by
  unfold afterEntry
  extract_lets n
  split <;> rfl

theorem memory_modChan (i : Nat) (f : Chan → Chan) (s : State) : (modChan i f s).memory = s.memory := by
  unfold modChan
  split <;> rfl

/-- A completion entry written to its ring, the ring's free bytes drawn where its submission head is gone. -/
theorem completes_completionWrite {slot : Fin 4096} {c : Chan} {x : Compl} {rest : List Compl} {s : State} (hc : chanOf slot s = some c)
    (hstage : s.mod.stage = 7) (hfence : (portOf c.owner s).fenced = false) (hup : (portOf c.owner s).linkUp = true)
    (hw : c.waiting = x :: rest) (hlive : c.destroyId = none) (hroom : (c.cq.w - c.cq.h).toNat < 2 ^ c.cq.log2) :
    Completes (.completionWrite slot) s fun t => (∀ j : Nat, j ≠ slot.val → slotOf j t = slotOf j s) ∧
      (∃ k : Chan, chanOf slot t = some k ∧ k.waiting = rest ∧ k.cq.w = c.cq.w + 1 ∧ { k with waiting := c.waiting, cq := c.cq } = c) ∧
      (portOf c.owner t).mem = memWrite (portOf c.owner s).mem (c.cq.base.toNat + 32 * (c.cq.w.toNat % 2 ^ c.cq.log2))
        (complBytes x c.cq.w c.cq.log2 (complHead x s)) ∧ portOf (peerOf c.owner) t = portOf (peerOf c.owner) s ∧ t.memory = s.memory := by
  obtain ⟨u, hu⟩ : ∃ u, u = if (chanOf x.headSlot s).isNone = true then drawFree 1 s else s := ⟨_, rfl⟩
  have huslots : u.slots = s.slots ∧ (∀ p, portOf p u = portOf p s) ∧ u.memory = s.memory := by
    subst hu
    split
    · exact ⟨rfl, fun p => by cases p <;> rfl, rfl⟩
    · exact ⟨rfl, fun _ => rfl, rfl⟩
  obtain ⟨hslots, hports, hmem⟩ := huslots
  let a := c.cq.base.toNat + 32 * (c.cq.w.toNat % 2 ^ c.cq.log2)
  let bs := complBytes x c.cq.w c.cq.log2 (complHead x s)
  let q := afterEntry x.irq (mono s) { c.cq with w := c.cq.w + 1 }
  let v := modPort c.owner (fun k => { k with mem := memWrite k.mem a bs }) u
  let y := modChan slot (fun k => { k with waiting := rest, cq := q.1 }) v
  let z := if q.2 = true then sendMsix c.owner c.cq.vector y else y
  have hcv : chanOf slot v = some c := (chanOf_modPort _ _ _ _).trans ((chanOf_congr hslots _).trans hc)
  have hcy : chanOf slot y = some { c with waiting := rest, cq := q.1 } := chanOf_modChan_some _ hcv
  have hz : z.slots = y.slots ∧ (portOf c.owner z).mem = (portOf c.owner y).mem ∧ portOf (peerOf c.owner) z = portOf (peerOf c.owner) y ∧
      z.memory = y.memory := by
    show (ite _ _ _ : State).slots = _ ∧ (portOf c.owner (ite _ _ _)).mem = _ ∧ portOf (peerOf c.owner) (ite _ _ _) = _ ∧ (ite _ _ _ : State).memory = _
    split
    · exact ⟨slots_sendMsix _ _ _, sendMsix_cases _ _ _⟩
    · exact ⟨rfl, rfl, rfl, rfl⟩
  obtain ⟨hzslots, hzmem, hzpeer, hzfast⟩ := hz
  have hcz : chanOf slot z = some { c with waiting := rest, cq := q.1 } := (chanOf_congr hzslots _).trans hcy
  have hopen : hostWrite c.owner a bs u = v := hostWrite_open (by rw [hports, hfence])
  have hexec : execCompletionWrite slot s = .next (settleDestroy slot z) := by
    simp only [execCompletionWrite, hc, hw, complDue_of hw hroom hfence hup hstage, if_true, ← hu]
    rw [hopen]
  refine ⟨z, hexec.trans (congrArg _ (settleDestroy_of_live hcz hlive)), fun j hj => ?_, ⟨_, hcz, rfl, afterEntry_w _ _ _, rfl⟩, ?_, ?_, ?_⟩
  · rw [slotOf_congr hzslots, slotOf_modChan_other _ _ _ _ hj, slotOf_modPort, slotOf_congr hslots]
  · rw [hzmem, portOf_modChan, portOf_modPort, hports]
  · rw [hzpeer, portOf_modChan, portOf_peer_modPort, hports]
  · rw [hzfast, memory_modChan, modPort_memory, hmem]

theorem sendMsix_open {p : Port} {v : Nat} {s : State} (hfence : (portOf p s).fenced = false)
    (hmask : (tgetD (portOf p s).msixTable (4 * v + 3) 1).getLsbD 0 = false) : sendMsix p v s = { s with msix := s.msix ++ [(p == .B, v)] } := by
  simp only [sendMsix, hfence, hmask, Bool.false_eq_true, if_false]

theorem completes_coalesceTimerExpiry {slot : Fin 4096} {c : Chan} {s : State} {t0 : Word} (hc : chanOf slot s = some c)
    (hold : c.cq.oldest = some t0) (hirq : c.cq.irqEnable = true) (hus : c.cq.coalUs ≠ 0) (hdue : c.cq.coalUs * 1000 ≤ nsSince t0 (mono s))
    (hfence : (portOf c.owner s).fenced = false) (hmask : (tgetD (portOf c.owner s).msixTable (4 * c.cq.vector + 3) 1).getLsbD 0 = false) :
    Completes (.coalesceTimerExpiry slot) s fun t => { t with slots := s.slots, msix := s.msix } = s ∧
      t.msix = s.msix ++ [(c.owner == .B, c.cq.vector)] ∧ (∀ j : Nat, j ≠ slot.val → slotOf j t = slotOf j s) ∧
      chanOf slot t = some { c with cq := { c.cq with sinceMsg := 0, oldest := none } } := by
  let u := modSlot slot (fun x => { x with chan := some { c with cq := { c.cq with sinceMsg := 0, oldest := none } } }) s
  have hport : ∀ p, portOf p u = portOf p s := fun p => by cases p <;> rfl
  have hexec : execCoalesceTimerExpiry slot s = .next { u with msix := u.msix ++ [(c.owner == .B, c.cq.vector)] } := by
    have hcond : (c.cq.irqEnable && c.cq.coalUs != 0 && decide (c.cq.coalUs * 1000 ≤ nsSince t0 (mono s))) = true := by
      rw [hirq, bne_iff_ne.2 hus, decide_eq_true hdue, Bool.and_self, Bool.and_self]
    simp only [execCoalesceTimerExpiry, hc, hold]
    rw [if_pos hcond, modChan_of_chan _ hc]
    exact congrArg _ (sendMsix_open (s := u) (by rw [hport, hfence]) (by rw [hport, hmask]))
  refine ⟨_, hexec, rfl, rfl, fun j hj => ?_, ?_⟩
  · exact (slotOf_modSlot_other slot j _ s hj : slotOf j u = slotOf j s)
  · exact (chanOf_modSlot slot _ s : chanOf slot u = _)

/-! ## The end of a descriptor -/

theorem waitCompl_room {x : Compl} {c : Chan} (h : c.waiting.length < 4096) : waitCompl x c = { c with waiting := c.waiting ++ [x] } := by
  have hroom : ¬ (c.waiting ++ [x]).length > 4096 := by
    rw [List.length_append, List.length_singleton]
    omega
  simp only [waitCompl, decide_eq_false hroom, Bool.false_and, Bool.false_eq_true, if_false]

/-- A completion for a channel that is no admin channel waits in that channel. -/
theorem postCompl_channel {slot : Nat} (x : Compl) (s : State) (h : 2 ≤ slot) : postCompl slot x s = modChan slot (waitCompl x) s := by
  have h0 : (slot == 0) = false := beq_eq_false_iff_ne.2 (by omega)
  have h1 : (slot == 1) = false := beq_eq_false_iff_ne.2 (by omega)
  simp only [postCompl, h0, h1, Bool.false_and, Bool.false_eq_true, if_false]

/-- A state without a descriptor. -/
def withoutDesc (i : Nat) (s : State) : State := { s with descs := s.descs.filter fun x => x.id != i }

theorem descOf_withoutDesc (i : Nat) (s : State) : descOf i (withoutDesc i s) = none :=
  List.find?_eq_none.2 fun x hx => by
    have hne : (x.id != i) = true := (List.mem_filter.1 hx).2
    exact fun heq => absurd (beq_iff_eq.1 heq) (bne_iff_ne.1 hne)

theorem descOf_withoutDesc_other {i j : Nat} (s : State) (h : j ≠ i) : descOf j (withoutDesc i s) = descOf j s := by
  show (s.descs.filter fun x => x.id != i).find? _ = s.descs.find? _
  rw [List.find?_filter]
  congr 1
  funext x
  by_cases hx : x.id = j
  · simp [hx, h]
  · simp [hx]

theorem descOf_congr {s t : State} (h : t.descs = s.descs) (i : Nat) : descOf i t = descOf i s := by rw [descOf, descOf, h]

/-- The final completion of a descriptor of a live channel: QUIET hides a DONE, and every other waits in the channel. -/
theorem finish_live {r : DescRec} {st : BitVec 8} {det : BitVec 16} {res : Word} {slot : Nat} {c : Chan} {s : State}
    (hslot : r.desc.slot.val = slot) (hc : chanOf slot s = some c) (hadmin : 2 ≤ slot) (hlive : c.destroyId = none)
    (hroom : c.waiting.length < 4096) : finish r st det res s = if r.desc.flags.getLsbD 2 = true ∧ st = stDone then withoutDesc r.id s
      else modChan slot (fun c => { c with waiting := c.waiting ++ [complOf r st det res s] }) (withoutDesc r.id s) := by
  have hc' : chanOf slot (withoutDesc r.id s) = some c := hc
  have hcond : (r.desc.flags.getLsbD 2 && st == stDone) = true ↔ r.desc.flags.getLsbD 2 = true ∧ st = stDone := by
    rw [Bool.and_eq_true, beq_iff_eq]
  have hdef : finish r st det res s = settleDestroy r.desc.slot (if (r.desc.flags.getLsbD 2 && st == stDone) = true then withoutDesc r.id s
      else postCompl r.desc.slot (complOf r st det res s) (withoutDesc r.id s)) := rfl
  rw [hdef, hslot]
  by_cases hq : r.desc.flags.getLsbD 2 = true ∧ st = stDone
  · rw [if_pos (hcond.2 hq), if_pos hq, settleDestroy_of_live hc' hlive]
  · have hpost : modChan slot (waitCompl (complOf r st det res s)) (withoutDesc r.id s) =
        modChan slot (fun c => { c with waiting := c.waiting ++ [complOf r st det res s] }) (withoutDesc r.id s) := by
      rw [modChan_of_chan _ hc', modChan_of_chan _ hc', waitCompl_room hroom]
    rw [if_neg (mt hcond.1 hq), if_neg hq, postCompl_channel _ _ hadmin, hpost, settleDestroy_of_live (chanOf_modChan_some _ hc') hlive]

/-- Settles O36: a bell moves its ring's tail or the completion head within its window, the oldest completion is written at the next
entry, and a descriptor's end queues one completion. -/
theorem bellsAndCompletions : Obligations.BellsAndCompletions := by
  refine fun slot c s hc => ⟨fun hrun hstage hfence hup => ⟨fun ring v hring => ?_, fun v => completes_cqHeadWrite_taken hc hrun hstage hfence hup,
    fun x rest hw hlive hroom => completes_completionWrite hc hstage hfence hup hw hlive hroom⟩,
    fun t0 hold hirq hus hdue hfence hmask => completes_coalesceTimerExpiry hc hold hirq hus hdue hfence hmask,
    fun r st det res hslot hadmin hlive hroom => ?_⟩
  · have hbell := bellWrite_ready v hc hrun hstage hfence hup (bellReg_offset ring).1 (bellReg_offset ring).2.1
    exact ⟨fun ⟨hhead, htail⟩ => completes_sqTailWrite_taken hbell hc hring hhead htail, completes_sqTailWrite_discarded hbell hc⟩
  · have hend := finish_live (st := st) (det := det) (res := res) (congrArg Fin.val hslot) hc hadmin hlive hroom
    have hdescs : (finish r st det res s).descs = (withoutDesc r.id s).descs := by
      rw [hend]
      split
      · rfl
      · exact descs_modChan _ _ _
    refine ⟨(descOf_congr hdescs _).trans (descOf_withoutDesc _ _),
      fun i hi => (descOf_congr hdescs _).trans (descOf_withoutDesc_other _ hi), ?_⟩
    show chanOf slot (finish r st det res s) = _
    rw [hend]
    split
    · exact hc
    · exact chanOf_modChan_some _ hc

end Sys2Proof.Machine
end

section
/-!
Descriptors from fetch to start (Machine/Descs.lean, R24, R25, R34, R41) and WAIT (R44).
-/

namespace Sys2Proof.Machine

/-- What a fetch does to its channel. -/
def fetchedChan (r : DescRec) (c : Chan) : Chan :=
  { c with
    rings := vmod c.rings r.desc.ring (fun x => { x with head := x.head + 1 })
    tags := (r.desc.tag, r.id) :: c.tags.filter (fun t => t.1 != r.desc.tag)
    groups := match r.group with
      | some g => if r.opcode == 0x06 || r.opcode == 0x07 || c.groups.contains g then c.groups else c.groups ++ [g]
      | none => c.groups
    lessonGroups := match r.group with
      | some g => if r.opcode != 0x01 || c.lessonGroups.contains g then c.lessonGroups else c.lessonGroups ++ [g]
      | none => c.lessonGroups }

theorem noteFetch_eq (r : DescRec) (s : State) : noteFetch r s = modChan r.desc.slot (fetchedChan r) { s with nextDesc := s.nextDesc + 1 } := rfl

/-- A fetch changes the slots and the number of the next descriptor alone. -/
theorem noteFetch_frame (r : DescRec) (s : State) : { noteFetch r s with slots := s.slots, nextDesc := s.nextDesc } = s := by
  rw [noteFetch_eq]
  unfold modChan
  split <;> rfl

theorem Fetched.mono {op : BitVec 8} {d : Desc} {s u : State} {r : DescRec} (h : Fetched op d s r u) : Machine.mono u = Machine.mono s := by
  obtain ⟨_, _, _, _, _, rfl, _⟩ := h
  have htime := congrArg State.time (noteFetch_frame r s)
  rw [Machine.mono, Machine.mono, htime]

theorem Fetched.desc {op : BitVec 8} {d : Desc} {s u : State} {r : DescRec} (h : Fetched op d s r u) : r.desc = d ∧ r.opcode = op := by
  obtain ⟨_, _, _, _, rfl, _⟩ := h
  exact ⟨rfl, rfl⟩

/-- The channel of a fetched descriptor, after the fetch. -/
theorem Fetched.chan {op : BitVec 8} {d : Desc} {s u : State} {r : DescRec} (h : Fetched op d s r u) :
    ∃ c k : Chan, chanOf d.slot s = some c ∧ chanOf d.slot u = some k ∧ k = fetchedChan r c ∧ handleClass d.handle = k.cls := by
  obtain ⟨_, _, c, hc, rfl, rfl, _, _, _, hcls⟩ := h
  exact ⟨c, _, hc, chanOf_modChan_some (fetchedChan (recOf op d c s)) hc, rfl, hcls⟩

/-- A fetched descriptor that need not wait meets the checks, whatever the fetch itself did for its opcode. -/
theorem fetchWith_fetched {op : BitVec 8} {d : Desc} {s u : State} {r : DescRec} (h : Fetched op d s r u) (onFetch start : DescRec → State → State)
    (hstage : (onFetch r u).mod.stage = 7) (hwait : mustWait r (onFetch r u) = false) :
    fetchWith op d onFetch start s = checked r start (onFetch r u) := by
  obtain ⟨hfetch, _, c, hc, rfl, rfl, _⟩ := h
  simp only [fetchWith, hfetch, hc, hstage, hwait, if_true, bne_self_eq_false, Bool.false_and, Bool.false_eq_true, if_false]

theorem fetchWith_noEffect {op : BitVec 8} {d : Desc} {s u : State} {r : DescRec} (h : Fetched op d s r u) (start : DescRec → State → State) :
    fetchWith op d noFetchEffect start s = checked r start u := by
  have hstage : u.mod.stage = 7 := by
    obtain ⟨_, hstage, _, _, _, rfl, _⟩ := h
    have hmod := congrArg State.mod (noteFetch_frame r s)
    rw [show (noteFetch r s).mod = s.mod from hmod, hstage]
  have hwait : mustWait r u = false := by
    obtain ⟨_, _, _, _, _, _, hwait, _⟩ := h
    exact hwait
  exact fetchWith_fetched h noFetchEffect start hstage hwait

/-- The checks of a fetched descriptor in a state that keeps its channel's class and its handle come down to its opcode and fields. -/
theorem checked_fetched {op : BitVec 8} {d : Desc} {s u v : State} {r : DescRec} {k : Chan} (h : Fetched op d s r u)
    (start : DescRec → State → State) (hk : chanOf d.slot v = some k) (hcls : handleClass d.handle = k.cls)
    (hstale : handleStale d.handle v = false) : checked r start v = if opcodeDefined op = false then refuse r 0x0001 0 v
      else if classAccepts k.cls op = false then refuse r 0x0002 0 v else if reservedSet op d = true then refuse r 0x0003 0 v else start r v := by
  obtain ⟨hd, hop⟩ := h.desc
  obtain ⟨_, _, _, _, _, _, _, _, hslot, _⟩ := h
  simp only [checked, hd, hop, hstale, hslot, hk, hcls, bne_self_eq_false, Bool.false_eq_true, if_false, Bool.not_eq_true']

theorem Fetched.handleStale {op : BitVec 8} {d : Desc} {s u : State} {r : DescRec} (h : Fetched op d s r u) :
    Machine.handleStale d.handle u = false := by
  obtain ⟨_, _, _, _, _, _, _, hstale, _⟩ := h
  exact hstale

/-- A descriptor that starts passes the checks in every state that keeps its handle and its channel's class. -/
theorem Starts.checked_in {op : BitVec 8} {d : Desc} {s u v : State} {r : DescRec} {k : Chan} (h : Starts op d s r u)
    (start : DescRec → State → State) (hk : chanOf d.slot v = some k) (hcls : handleClass d.handle = k.cls)
    (hstale : handleStale d.handle v = false) : checked r start v = start r v := by
  obtain ⟨hfetched, hdefined, hreserved, haccepts⟩ := h
  obtain ⟨c, k', hc, _, rfl, hcls'⟩ := hfetched.chan
  have hacc : classAccepts k.cls op = true := (hcls.symm.trans hcls') ▸ haccepts c hc
  rw [checked_fetched hfetched start hk hcls hstale, if_neg (by rw [hdefined]; decide), if_neg (by rw [hacc]; decide),
    if_neg (by rw [hreserved]; decide)]

/-- A descriptor that starts is its opcode's start in the state after its fetch. -/
theorem Starts.fetchWith {op : BitVec 8} {d : Desc} {s u : State} {r : DescRec} (h : Starts op d s r u) (start : DescRec → State → State) :
    Machine.fetchWith op d noFetchEffect start s = start r u := by
  obtain ⟨_, k, _, hk, _, hcls⟩ := h.1.chan
  rw [fetchWith_noEffect h.1, h.checked_in start hk hcls h.1.handleStale]

theorem Starts.desc {op : BitVec 8} {d : Desc} {s u : State} {r : DescRec} (h : Starts op d s r u) : r.desc = d ∧ r.opcode = op := h.1.desc

/-! ## Holding -/

theorem descs_holdAs_frame (r : DescRec) (h : Hold) (s : State) : { holdAs r h s with descs := s.descs } = s := by
  unfold holdAs
  split <;> rfl

theorem descOf_holdAs (r : DescRec) (h : Hold) (s : State) : descOf r.id (holdAs r h s) = some { r with hold := h, since := mono s } := by
  unfold holdAs
  split
  · next hany =>
    obtain ⟨x, hx, hid⟩ := List.any_eq_true.1 hany
    obtain ⟨y, hy⟩ : ∃ y, s.descs.find? (fun x => x.id == r.id) = some y :=
      Option.isSome_iff_exists.1 (List.find?_isSome.2 ⟨x, hx, hid⟩)
    show (mapIf _ _ s.descs).find? _ = _
    rw [mapIf, List.find?_map]
    have hcomp : ((fun x : DescRec => x.id == r.id) ∘ fun x => if (x.id == r.id) = true then { r with hold := h, since := mono s } else x) =
        fun x => x.id == r.id := by
      funext z
      by_cases hz : (z.id == r.id) = true
      · simp only [Function.comp, hz, if_true, beq_self_eq_true]
      · simp only [Function.comp, hz, if_false, Bool.false_eq_true]
    rw [hcomp, hy, Option.map_some, if_pos (List.find?_some hy)]
  · next hany =>
    have hnone : s.descs.find? (fun x => x.id == r.id) = none :=
      List.find?_eq_none.2 fun x hx hid => hany (List.any_eq_true.2 ⟨x, hx, hid⟩)
    show (s.descs ++ _).find? _ = _
    rw [List.find?_append, hnone, Option.none_or, List.find?_singleton, if_pos (beq_self_eq_true _)]

/-! ## WAIT -/

theorem completes_wait {d : Desc} {s u : State} {r : DescRec} (h : Starts 0x0B d s r u) (hkind : fieldNat d.w2 0 2 ≠ 3) :
    Completes (.wait d) s fun t => (waitReady r u = true → t = done r 0 u) ∧ (waitReady r u = false → { t with descs := u.descs } = u ∧
      ∃ x : DescRec, descOf r.id t = some x ∧ x.hold = .wait ∧ x.since = mono s ∧ x.desc = d) := by
  have hexec : execWait d s = .next (if waitReady r u = true then done r 0 u else holdAs r .wait u) := by
    rw [execWait, h.fetchWith, startWait, h.desc.1, beq_eq_false_iff_ne.2 hkind]
    rfl
  refine ⟨_, hexec, fun hready => if_pos hready, fun hready => ?_⟩
  rw [if_neg (by rw [hready]; decide)]
  exact ⟨descs_holdAs_frame _ _ _, _, descOf_holdAs _ _ _, rfl, h.1.mono, h.desc.1⟩

theorem execWaitSatisfied_ready {id : Nat} {s : State} {r : DescRec} (hr : descOf id s = some r) (hhold : r.hold = .wait)
    (hready : waitReady r s = true) : execWaitSatisfied id s = .next (done r 0 s) := by
  simp only [execWaitSatisfied, hr, hhold, hready, beq_self_eq_true, Bool.and_self, if_true]

theorem execWaitTimeout_due {id : Nat} {s : State} {r : DescRec} (hr : descOf id s = some r) (hhold : r.hold = .wait)
    (hready : waitReady r s = false) (htime : r.desc.w4 ≠ 0) (hdue : r.desc.w4.toNat ≤ s.time.dtime.toNat) :
    execWaitTimeout id s = .next (finish r stDeadline 0x0201 0 s) := by
  have hnow : r.desc.w4.toNat ≤ (now s).toNat := hdue
  simp only [execWaitTimeout, hr, hhold, hready, bne_iff_ne.2 htime, decide_eq_true hnow, beq_self_eq_true, Bool.not_false,
    Bool.and_self, if_true]

theorem execUndefinedOpcode_fetched {op : BitVec 8} {d : Desc} {s u : State} {r : DescRec} (hop : opcodeDefined op = false)
    (h : Fetched op d s r u) : execUndefinedOpcode op d s = .next (finish r stMalformed 0x0001 0 u) := by
  obtain ⟨_, k, _, hk, _, hcls⟩ := h.chan
  rw [execUndefinedOpcode, if_neg (by rw [hop]; decide), fetchWith_noEffect h, checked_fetched h _ hk hcls h.handleStale, if_pos hop]
  rfl

theorem execFencedDescriptorStart_held {id : Nat} {s : State} {r : DescRec} (h : HeldAs id .fence r s) (hwait : mustWait r s = false)
    (hstage : s.mod.stage = 7) :
    execFencedDescriptorStart id s = .next (afterStart (checked { r with hold := .run } (startOf r.opcode) s)) := by
  obtain ⟨hr, hhold, hchan⟩ := h
  have hcond : (r.hold == .fence && !mustWait r s && s.mod.stage == 7 && (chanOf r.desc.slot s).isSome) = true := by
    rw [hhold, hwait, hstage, hchan]
    rfl
  simp only [execFencedDescriptorStart, hr, startHeld, if_pos hcond]

/-- Settles O38: a WAIT is done or held by its condition, the checks refuse an opcode of no table, and a fenced descriptor starts. -/
theorem waitsAndHeldDescriptors : Obligations.WaitsAndHeldDescriptors := by
  refine ⟨fun d s r u => completes_wait, fun id s r hr hhold => ⟨fun hready => ?_, fun hready htime hdue => ?_⟩,
    fun op d s r u hop h => ?_, fun id s r h hwait hstage => ?_⟩
  · exact ⟨_, execWaitSatisfied_ready hr hhold hready, rfl⟩
  · exact ⟨_, execWaitTimeout_due hr hhold hready htime hdue, rfl⟩
  · exact ⟨_, execUndefinedOpcode_fetched hop h, rfl⟩
  · exact ⟨_, execFencedDescriptorStart_held h hwait hstage, rfl⟩

end Sys2Proof.Machine
end

section
/-!
Device time, its sources and the telemetry over SMBus (Machine/Time.lean, R454, R463, R468, R469).
-/

namespace Sys2Proof.Machine

/-! ## PPS edges -/

/-- What a PPS edge at a moment does to the time. -/
def ppsEdged (t : Word) (x : TimeSt) : TimeSt :=
  let y : TimeSt := { x with ppsCapture := x.dtime, ppsPresent := true }
  let fits := match x.lastPps with | some a => oneSecond a t | none => true
  if fits then takeEdge t y
  else
    let n := match x.lastIgnored with | some b => if oneSecond b t then x.ignoredPps + 1 else 1 | none => 1
    if 3 ≤ n then takeEdge t y else { y with lastIgnored := some t, ignoredPps := n }

/-- An edge that fits the last accepted one, or is the third of a new phase. -/
def EdgeFits (x : TimeSt) (t : Word) : Prop :=
  x.lastPps = none ∨ (∃ a : Word, x.lastPps = some a ∧ oneSecond a t = true) ∨
    (x.ignoredPps = 2 ∧ ∃ b : Word, x.lastIgnored = some b ∧ oneSecond b t = true)

/-- An accepted edge keeps what the edge itself noted. -/
theorem takeEdge_kept (t : Word) (y : TimeSt) : (takeEdge t y).ppsCapture = y.ppsCapture ∧ (takeEdge t y).ppsPresent = y.ppsPresent ∧
    (takeEdge t y).dtime = y.dtime ∧ (takeEdge t y).lastPps = some t ∧ (takeEdge t y).ignoredPps = 0 := by
  unfold takeEdge
  extract_lets z
  split <;> exact ⟨rfl, rfl, rfl, rfl, rfl⟩

theorem ppsEdged_kept (t : Word) (x : TimeSt) :
    (ppsEdged t x).ppsCapture = x.dtime ∧ (ppsEdged t x).ppsPresent = true ∧ (ppsEdged t x).dtime = x.dtime := by
  have htaken (y : TimeSt) (hcapture : y.ppsCapture = x.dtime) (hpresent : y.ppsPresent = true) (hdtime : y.dtime = x.dtime) :
      (takeEdge t y).ppsCapture = x.dtime ∧ (takeEdge t y).ppsPresent = true ∧ (takeEdge t y).dtime = x.dtime := by
    obtain ⟨h1, h2, h3, _⟩ := takeEdge_kept t y
    exact ⟨h1.trans hcapture, h2.trans hpresent, h3.trans hdtime⟩
  unfold ppsEdged
  extract_lets y fits n
  split
  · exact htaken y rfl rfl rfl
  · split
    · exact htaken y rfl rfl rfl
    · exact ⟨rfl, rfl, rfl⟩

theorem ppsEdged_fits {t : Word} {x : TimeSt} (h : EdgeFits x t) :
    ppsEdged t x = takeEdge t { x with ppsCapture := x.dtime, ppsPresent := true } := by
  unfold ppsEdged
  extract_lets y fits n
  split
  · rfl
  · next hfits =>
    obtain hnone | ⟨a, ha, hsecond⟩ | ⟨htwo, b, hb, hsecond⟩ := h
    · exact absurd (show fits = true by simp only [fits, hnone]) hfits
    · exact absurd (show fits = true by simp only [fits, ha, hsecond]) hfits
    · have hn : n = 3 := by simp only [n, hb, hsecond, htwo, if_true]
      rw [if_pos (by rw [hn])]

theorem ppsEdged_ignored {t : Word} {x : TimeSt} (h : ¬ EdgeFits x t) (hfew : x.ignoredPps < 2) :
    ∃ n : Nat, ppsEdged t x = { x with ppsCapture := x.dtime, ppsPresent := true, lastIgnored := some t, ignoredPps := n } := by
  unfold ppsEdged
  extract_lets y fits n
  have hfits : fits = false := by
    show (match x.lastPps with | some a => oneSecond a t | none => true) = false
    split
    · next a ha => exact Bool.eq_false_iff.2 fun hsecond => h (.inr (.inl ⟨a, ha, hsecond⟩))
    · next hnone => exact absurd (.inl hnone) h
  have hn : n < 3 := by
    show (match x.lastIgnored with | some b => if oneSecond b t then x.ignoredPps + 1 else 1 | none => 1) < 3
    split
    · split <;> omega
    · omega
  rw [if_neg (by rw [hfits]; decide), if_neg (Nat.not_le.2 hn)]
  exact ⟨n, rfl⟩

/-- The time has been compared with a source. -/
def Compared (src : BitVec 2) (off : Int) (t : Word) (y : TimeSt) : Prop :=
  y.source = src ∧ y.offset = off ∧ y.slewLeft = -off ∧ (y.timeLocked = true ↔ off.natAbs ≤ 1000) ∧ y.holdoverSince = none ∧ y.lastSourceAt = t

theorem compared_compareTime (src : BitVec 2) (off : Int) (t : Word) (x : TimeSt) : Compared src off t (compareTime src off t x) :=
  ⟨rfl, rfl, rfl, decide_eq_true_iff, rfl, rfl⟩

theorem takeEdge_compared {t : Word} {y : TimeSt} (hlock : y.firstLock = true) (hsel : y.sourceSel ≠ 2) :
    Compared 1 (ppsOffset y.dtime) t (takeEdge t y) := by
  have hcond : (y.firstLock && y.sourceSel != 2) = true := by rw [hlock, bne_iff_ne.2 hsel, Bool.and_self]
  rw [takeEdge, if_pos hcond]
  exact compared_compareTime _ _ _ _

theorem completes_ppsEdge (s : State) : Completes .ppsEdge s fun t => { t with time := s.time } = s ∧ t.time.ppsCapture = s.time.dtime ∧
    t.time.ppsPresent = true ∧ t.time.dtime = s.time.dtime ∧
    (EdgeFits s.time (mono s) → t.time.lastPps = some (mono s) ∧ t.time.ignoredPps = 0 ∧
      (s.time.firstLock = true → s.time.sourceSel ≠ 2 → Compared 1 (ppsOffset s.time.dtime) (mono s) t.time)) ∧
    (¬ EdgeFits s.time (mono s) → s.time.ignoredPps < 2 → t.time.lastPps = s.time.lastPps ∧ t.time.offset = s.time.offset ∧
      t.time.source = s.time.source ∧ t.time.lastIgnored = some (mono s)) := by
  have hexec : execPpsEdge s = .next (modTime (ppsEdged (mono s)) s) := rfl
  obtain ⟨hcapture, hpresent, hdtime⟩ := ppsEdged_kept (mono s) s.time
  refine ⟨_, hexec, rfl, hcapture, hpresent, hdtime, fun hfits => ?_, fun hfits hfew => ?_⟩
  · show (ppsEdged (mono s) s.time).lastPps = _ ∧ (ppsEdged (mono s) s.time).ignoredPps = 0 ∧ (_ → _ → Compared _ _ _ (ppsEdged (mono s) s.time))
    rw [ppsEdged_fits hfits]
    obtain ⟨_, _, _, hlast, hignored⟩ := takeEdge_kept (mono s) { s.time with ppsCapture := s.time.dtime, ppsPresent := true }
    exact ⟨hlast, hignored, fun hlock hsel => takeEdge_compared hlock hsel⟩
  · obtain ⟨n, hn⟩ := ppsEdged_ignored hfits hfew
    show (ppsEdged (mono s) s.time).lastPps = _ ∧ (ppsEdged (mono s) s.time).offset = _ ∧ (ppsEdged (mono s) s.time).source = _ ∧
      (ppsEdged (mono s) s.time).lastIgnored = _
    rw [hn]
    exact ⟨rfl, rfl, rfl, rfl⟩

/-! ## Time messages, holdover and the choice of the source -/

theorem execPtpMessage_other {domain : BitVec 8} {sync : Bool} {off : Int} {s : State} (h : sync = false ∨ domain ≠ s.time.ptpDomain) :
    execPtpMessage domain sync off s = .next s := by
  have hcond : (!sync || domain != s.time.ptpDomain) = true := by
    rcases h with rfl | h
    · rfl
    · rw [bne_iff_ne.2 h, Bool.or_true]
  rw [execPtpMessage, if_pos hcond]

/-- Whether DTIME is compared with the time messages of its domain. -/
def ptpChosen (x : TimeSt) : Bool := x.firstLock && (x.sourceSel == 2 || (x.sourceSel == 0 && !x.ppsPresent))

/-- The time after a message of the domain. -/
def ptpHeard (off : Int) (t : Word) (x : TimeSt) : TimeSt :=
  if ptpChosen x then compareTime 2 off t { x with lastPtp := some t } else { x with lastPtp := some t }

theorem execPtpMessage_heard {off : Int} {s : State} : execPtpMessage s.time.ptpDomain true off s = .next (modTime (ptpHeard off (mono s)) s) := by
  let u := modTime (fun x => { x with lastPtp := some (mono s) }) s
  have hcond : ¬ (!true || s.time.ptpDomain != s.time.ptpDomain) = true := by rw [bne_self_eq_false]; decide
  have hexec : execPtpMessage s.time.ptpDomain true off s =
      .next (if ptpChosen s.time = true then modTime (compareTime 2 off (mono s)) u else u) := by
    rw [execPtpMessage, if_neg hcond]
    rfl
  by_cases h : ptpChosen s.time = true
  · have htime : ptpHeard off (mono s) s.time = compareTime 2 off (mono s) { s.time with lastPtp := some (mono s) } := if_pos h
    rw [hexec, if_pos h, modTime, modTime, htime]
    rfl
  · have htime : ptpHeard off (mono s) s.time = { s.time with lastPtp := some (mono s) } := if_neg h
    rw [hexec, if_neg h, modTime, htime]
    rfl

theorem ptpHeard_kept (off : Int) (t : Word) (x : TimeSt) : (ptpHeard off t x).lastPtp = some t ∧ (ptpHeard off t x).dtime = x.dtime := by
  unfold ptpHeard
  split <;> exact ⟨rfl, rfl⟩

theorem ptpHeard_chosen {off : Int} {t : Word} {x : TimeSt} (hlock : x.firstLock = true)
    (hsel : x.sourceSel = 2 ∨ (x.sourceSel = 0 ∧ x.ppsPresent = false)) : Compared 2 off t (ptpHeard off t x) := by
  have hchosen : ptpChosen x = true := by
    obtain h | ⟨h, hpps⟩ := hsel
    · rw [ptpChosen, hlock, h]
      rfl
    · rw [ptpChosen, hlock, h, hpps]
      rfl
  rw [ptpHeard, if_pos hchosen]
  exact compared_compareTime _ _ _ _

theorem ptpHeard_ignored {off : Int} {t : Word} {x : TimeSt} (h : x.firstLock = false ∨ x.sourceSel = 1) :
    ptpHeard off t x = { x with lastPtp := some t } := by
  have hchosen : ptpChosen x = false := by
    obtain h | h := h
    · rw [ptpChosen, h, Bool.false_and]
    · rw [ptpChosen, h, Bool.and_eq_false_iff]
      exact .inr rfl
  rw [ptpHeard, if_neg (by rw [hchosen]; decide)]

theorem completes_ptpMessage_heard (off : Int) (s : State) : Completes (.ptpMessage s.time.ptpDomain true off) s fun t =>
    { t with time := s.time } = s ∧ t.time.lastPtp = some (mono s) ∧ t.time.dtime = s.time.dtime ∧
    (s.time.firstLock = true → (s.time.sourceSel = 2 ∨ (s.time.sourceSel = 0 ∧ s.time.ppsPresent = false)) → Compared 2 off (mono s) t.time) ∧
    ((s.time.firstLock = false ∨ s.time.sourceSel = 1) → t.time = { s.time with lastPtp := some (mono s) }) :=
  have hkept := ptpHeard_kept off (mono s) s.time
  ⟨_, execPtpMessage_heard, rfl, hkept.1, hkept.2, ptpHeard_chosen, ptpHeard_ignored⟩

theorem time_of_onlyFlags {s t : State} (h : OnlyFlags s t) : t.time = s.time := by
  have htime := congrArg State.time h
  exact htime

theorem completes_timeSourceLoss {s : State} (hlock : s.time.firstLock = true) (hsource : s.time.source ≠ 3)
    (hlost : 1500000000 ≤ nsSince s.time.lastSourceAt (mono s)) : Completes .timeSourceLoss s fun t =>
      t.time = { s.time with source := 3, holdoverSince := some (mono s) } ∧ t.devFlags.getLsbD 24 = true ∧ OnlyFlags s { t with time := s.time } := by
  let u := modTime (fun x => { x with source := 3, holdoverSince := some (mono s) }) s
  have hexec : execTimeSourceLoss s = .next (raiseDev 24 u) := by
    have hcond : (s.time.firstLock && s.time.source != 3 && decide (1500000000 ≤ nsSince s.time.lastSourceAt (mono s))) = true := by
      rw [hlock, bne_iff_ne.2 hsource, decide_eq_true hlost, Bool.and_self, Bool.and_self]
    rw [execTimeSourceLoss, if_pos hcond]
  have hquiet : OnlyFlags u (raiseDev 24 u) := onlyFlags_raiseDev 24 u
  refine ⟨_, hexec, time_of_onlyFlags hquiet, ?_, ?_⟩
  · rw [devRaised_raiseDev 24 u, BitVec.getLsbD_or]
    exact Bool.or_true _
  · exact congrArg (fun y : State => { y with time := s.time }) hquiet

theorem execHoldoverExpiry_due {s : State} {t0 : Word} (hsince : s.time.holdoverSince = some t0) (hsource : s.time.source = 3)
    (hdue : 60000000000 ≤ nsSince t0 (mono s)) : execHoldoverExpiry s = .next (modTime (fun x => { x with timeLocked := false }) s) := by
  simp only [execHoldoverExpiry, hsince, hsource, decide_eq_true hdue, beq_self_eq_true, Bool.and_self, if_true]

/-- The time with another source in use. -/
def sourced (src : BitVec 2) (t : Word) (x : TimeSt) : TimeSt := { x with source := src, lastSourceAt := t }

theorem reselect_eq (s : State) : ∃ (src : BitVec 2) (t : Word), reselect s = modTime (sourced src t) s := by
  unfold reselect
  extract_lets ptp pps
  split
  · exact ⟨_, _, rfl⟩
  · split
    · exact ⟨_, _, rfl⟩
    · exact ⟨s.time.source, s.time.lastSourceAt, rfl⟩

/-- A change of the source in use leaves the choice, the domain and DTIME. -/
theorem reselect_kept (s : State) : { reselect s with time := s.time } = s ∧ (reselect s).time.sourceSel = s.time.sourceSel ∧
    (reselect s).time.ptpDomain = s.time.ptpDomain ∧ (reselect s).time.dtime = s.time.dtime ∧ (reselect s).time.ppsPresent = s.time.ppsPresent := by
  obtain ⟨src, t, h⟩ := reselect_eq s
  rw [h]
  exact ⟨rfl, rfl, rfl, rfl, rfl⟩

/-- Without PPS a source of PPS gives way to IEEE 1588 where that is permitted and heard. -/
theorem reselect_withoutPps {s : State} (h : s.time.ppsPresent = false) : (reselect s).time.source =
    if s.time.source = 1 ∧ s.time.sourceSel ≠ 1 ∧ heardLately s.time.lastPtp s = true then 2 else s.time.source := by
  have hcond : (s.time.source == 1 && !(s.time.sourceSel != 2 && s.time.ppsPresent) && (s.time.sourceSel != 1 && heardLately s.time.lastPtp s)) = true ↔
      s.time.source = 1 ∧ s.time.sourceSel ≠ 1 ∧ heardLately s.time.lastPtp s = true := by
    simp only [h, Bool.and_false, Bool.not_false, Bool.and_true, Bool.and_eq_true, beq_iff_eq, bne_iff_ne]
  unfold reselect
  extract_lets ptp pps
  split
  · next hc => rw [if_pos (hcond.1 hc)]; rfl
  · next hc =>
    rw [if_neg (mt hcond.2 hc), if_neg (by simp only [pps, h, Bool.and_false, Bool.false_eq_true, not_false_eq_true])]

theorem completes_timeCtrlWrite {p : Port} {s : State} (value : Word) (h : RegistersAnswer p s) : Completes (.timeCtrlWrite p value) s fun t =>
    { t with time := s.time } = accessed p s ∧
    t.time.sourceSel = (if fieldNat value 0 2 = 3 then s.time.sourceSel else BitVec.ofNat 2 (fieldNat value 0 2)) ∧
    t.time.ptpDomain = BitVec.ofNat 8 (fieldNat value 8 8) ∧ t.time.dtime = s.time.dtime := by
  let u := modTime (fun x => { x with
      sourceSel := if value.setWidth 2 == (3 : BitVec 2) then x.sourceSel else value.setWidth 2, ptpDomain := BitVec.ofNat 8 (fieldNat value 8 8) })
    (endLatch p s)
  have hexec : execTimeCtrlWrite p value s = .next (reselect u) := by rw [execTimeCtrlWrite, regAccess_answers h]
  have htime : (endLatch p s).time = s.time := modPort_time _ _ _
  have hfield : value.setWidth 2 = BitVec.ofNat 2 (fieldNat value 0 2) := by
    apply BitVec.eq_of_toNat_eq
    simp [fieldNat]
  have hthree : (value.setWidth 2 == (3 : BitVec 2)) = true ↔ fieldNat value 0 2 = 3 := by
    rw [beq_iff_eq, ← BitVec.toNat_inj]
    simp [fieldNat]
  obtain ⟨hframe, hsel, hdomain, hdtime, _⟩ := reselect_kept u
  refine ⟨_, hexec, ?_, hsel.trans ?_, hdomain, hdtime.trans (show (endLatch p s).time.dtime = _ by rw [htime])⟩
  · have hback := congrArg (fun y : State => { y with time := s.time }) hframe
    refine hback.trans ?_
    cases p <;> rfl
  · show (if (value.setWidth 2 == (3 : BitVec 2)) = true then (endLatch p s).time.sourceSel else value.setWidth 2) = _
    rw [htime, hfield]
    exact if_congr (by rw [← hfield]; exact hthree) rfl rfl

theorem completes_ppsPresentLost {s : State} (hpresent : s.time.ppsPresent = true) (hlate : heardLately (lastEdge s.time) s = false) :
    Completes .ppsPresentLost s fun t => { t with time := s.time } = s ∧ t.time.ppsPresent = false ∧ t.time.dtime = s.time.dtime ∧
      t.time.source = if s.time.source = 1 ∧ s.time.sourceSel ≠ 1 ∧ heardLately s.time.lastPtp s = true then 2 else s.time.source := by
  let u := modTime (fun x => { x with ppsPresent := false }) s
  have hexec : execPpsPresentLost s = .next (reselect u) := by
    rw [execPpsPresentLost, if_pos (by rw [hpresent, hlate]; rfl)]
  obtain ⟨hframe, _, _, hdtime, hpps⟩ := reselect_kept u
  exact ⟨_, hexec, congrArg (fun y : State => { y with time := s.time }) hframe, hpps, hdtime, reselect_withoutPps (s := u) rfl⟩

/-! ## SMBus -/

theorem smbRead_up {s : State} (bs : List Byte) (h : smbUp s = true) : smbRead bs s = modMod (fun m => { m with smbResponse := bs }) s := if_pos h

theorem smbRead_down {s : State} (bs : List Byte) (h : smbUp s = false) : smbRead bs s = s := by rw [smbRead, h, if_neg Bool.false_ne_true]

theorem length_freeBytes (n : Nat) (s : State) : (freeBytes n s).length = n := by rw [freeBytes, List.length_map, List.length_range]

theorem smbSensor_up {s : State} (n : Nat) (h : smbUp s = true) : (smbSensor n s).mod.smbResponse.length = n ∧ s.free ≤ (smbSensor n s).free ∧
    { smbSensor n s with free := s.free, mod := { (smbSensor n s).mod with smbResponse := s.mod.smbResponse } } = s := by
  rw [smbSensor, smbRead_up _ h]
  exact ⟨length_freeBytes n s, Nat.le_add_right _ _, rfl⟩

theorem smbSensor_down {s : State} (n : Nat) (h : smbUp s = false) : (smbSensor n s).mod = s.mod := by rw [smbSensor, smbRead_down _ h]; rfl

theorem completes_temps {s : State} (h : smbUp s = true) : Completes .temps s fun t => t.mod.smbResponse.length = 10 ∧
    t.mod.smbResponse[8]? = some (BitVec.ofNat 8 (hottestStack s)) ∧
    s.free ≤ t.free ∧ { t with free := s.free, mod := { t.mod with smbResponse := s.mod.smbResponse } } = s := by
  have hexec : execTemps s = .next (drawFree 10 (modMod (fun m =>
      { m with smbResponse := (freeBytes 10 s).set 8 (BitVec.ofNat 8 (hottestStack s)) }) s)) := by
    rw [execTemps, smbRead_up _ h, setAt_eq_set]
  have hlen := length_freeBytes 10 s
  refine ⟨_, hexec, ?_, ?_, Nat.le_add_right _ _, rfl⟩
  · exact (List.length_set ..).trans hlen
  · exact List.getElem?_set_self (by rw [hlen]; decide)

theorem completes_status {s : State} (h : smbUp s = true) : Completes .status s fun t => { t with mod := s.mod } = s ∧
    t.mod = { s.mod with statusUnread := false, smbResponse := leBytes 2 (statusWord s) } := by
  have hexec : execStatus s = .next (modMod (fun m => { m with statusUnread := false, smbResponse := leBytes 2 (statusWord s) }) s) := by
    rw [execStatus, smbRead_up _ h]
    simp only [modMod, h, Bool.not_true, Bool.and_false]
  exact ⟨_, hexec, rfl, rfl⟩

theorem completes_smbus_down {s : State} (h : smbUp s = false) (i : Instr)
    (hi : i = .vin ∨ i = .iin ∨ i = .pin ∨ i = .temps ∨ i = .status ∨ i = .identity) : Completes i s fun t => t.mod = s.mod := by
  rcases hi with rfl | rfl | rfl | rfl | rfl | rfl
  · exact ⟨_, rfl, smbSensor_down 2 h⟩
  · exact ⟨_, rfl, smbSensor_down 2 h⟩
  · exact ⟨_, rfl, smbSensor_down 2 h⟩
  · have hexec : execTemps s = .next (drawFree 10 s) := by rw [execTemps, smbRead_down _ h]
    exact ⟨_, hexec, rfl⟩
  · have hexec : execStatus s = .next (modMod (fun m => { m with statusUnread := m.statusUnread }) s) := by
      rw [execStatus, smbRead_down _ h]
      simp only [h, Bool.not_false, Bool.and_true]
    exact ⟨_, hexec, rfl⟩
  · have hexec : execIdentity s = .next s := by rw [execIdentity, smbRead_down _ h]
    exact ⟨_, hexec, rfl⟩

/-- Settles O51: each of these commands changes the time, or the SMBus answer, by one function. -/
theorem timeAndTelemetry : Obligations.TimeAndTelemetry := by
  refine fun s => ⟨completes_ppsEdge s, fun domain sync off => ⟨fun h => ⟨s, execPtpMessage_other h, rfl⟩, ?_⟩, completes_timeSourceLoss,
    fun t0 hsince hsource hdue => ⟨_, execHoldoverExpiry_due hsince hsource hdue, rfl, rfl⟩, fun p value h => completes_timeCtrlWrite value h,
    completes_ppsPresentLost, fun present => ⟨_, rfl, rfl, rfl⟩, fun h => ⟨fun i hi => ?_, completes_temps h, completes_status h, ?_⟩,
    completes_smbus_down⟩
  · rintro rfl rfl
    exact completes_ptpMessage_heard off s
  · rcases hi with rfl | rfl | rfl <;> exact ⟨_, rfl, smbSensor_up 2 h⟩
  · have hexec : execIdentity s =
        .next (modMod (fun m => { m with smbResponse := wordBytes (if identified s then s.mod.identity else 0) }) s) := by
      rw [execIdentity, smbRead_up _ h]
    exact ⟨_, hexec, rfl, rfl⟩

end Sys2Proof.Machine
end

section
/-!
Starts of the module and the ways it goes offline (Machine/BringUp.lean, R362, R389 to R391, R464, R465, R471).
-/

namespace Sys2Proof.Machine

/-! ## Offline -/

/-- A link at rest: Down, with no keys, no frames and nothing queued. -/
def restedLink (t : Word) (k : Link) : Link :=
  { k with
    state := 0, lanes := 0, keyTx := false, keyRx := false, sorterFenced := false, hold := false, farActive := false, egress := []
    leaving := none, unacked := [], control := [], retry := [], resend := [], rxData := [], transit := [], rxBad := false, nakDue := false
    txKeys := Vector.replicate 2 {}, rxKeys := Vector.replicate 2 {}, kex := none, kexRetryAt := none, retrainUntil := none
    creditZeroSince := none, rollJudged := false, rollReady := false, rollItem := none, proved := 0
    downAt := t, far := { k.far with
      rxStripes := [], retransmit := [], resent := [], txBody := [], repairQ := [], sentAgain := [], reserved := false, keyNext := none } }

theorem linkOf_restLinks_state (l : Nat) (s : State) : (linkOf l (restLinks s)).state = 0 := by
  show (tgetD (s.links.map fun e => (e.1, restedLink (mono s) e.2)) l {}).state = 0
  rw [tgetD, tget?_map]
  cases tget? s.links l <;> rfl

theorem offline_goOffline (cause : Nat) (recoverable : Bool) (s : State) : Offline cause recoverable s (goOffline cause recoverable s) :=
  ⟨rfl, rfl, rfl, rfl, rfl, rfl, fun l => linkOf_restLinks_state l s, fun p => by cases p <;> rfl, ⟨rfl, rfl, rfl⟩, rfl, rfl, rfl, rfl⟩

/-- A change of the module's other fields keeps it offline. -/
theorem Offline.modMod {cause : Nat} {recoverable : Bool} {s t : State} {f : ModuleSt → ModuleSt} (h : Offline cause recoverable s t)
    (hf : (f t.mod).stage = t.mod.stage ∧ (f t.mod).ready = t.mod.ready ∧ (f t.mod).offline = t.mod.offline ∧
      (f t.mod).recoverable = t.mod.recoverable ∧ (f t.mod).failStage = t.mod.failStage ∧ (f t.mod).failCause = t.mod.failCause) :
    Offline cause recoverable s (Machine.modMod f t) := by
  obtain ⟨hstage, hready, hoffline, hrecoverable, hfailStage, hfailCause, hrest⟩ := h
  obtain ⟨h1, h2, h3, h4, h5, h6⟩ := hf
  exact ⟨h1.trans hstage, h2.trans hready, h3.trans hoffline, h4.trans hrecoverable, h5.trans hfailStage, h6.trans hfailCause, hrest⟩

theorem completes_moduleOffline {s : State} (h : s.mod.offline = false) : Completes .moduleOffline s (Offline 5 true s) := by
  have hexec : execModuleOffline s = .next (goOffline 5 true s) := by rw [execModuleOffline, h, if_neg Bool.false_ne_true]
  exact ⟨_, hexec, offline_goOffline 5 true s⟩

theorem completes_inputOutOfRange {s : State} (h : s.mod.inputInRange = true) : Completes .inputOutOfRange s fun t =>
    t.mod.inputInRange = false ∧ t.mod.pwrGood = false ∧ t.mod.inputLostTick = s.time.ticks ∧ t.mod.offline = true ∧
      (s.mod.offline = false → Offline 5 true s t) ∧ (s.mod.offline = true → { t with mod := s.mod } = s) := by
  have hexec : execInputOutOfRange s = .next (modMod (fun m => { m with
      inputInRange := false, inputLostTick := (if s.mod.offline = true then s else goOffline 5 true s).time.ticks, pwrGood := false
      statusUnread := true }) (if s.mod.offline = true then s else goOffline 5 true s)) := by
    rw [execInputOutOfRange, h]
    rfl
  cases hoff : s.mod.offline
  · rw [hoff, if_neg Bool.false_ne_true] at hexec
    exact ⟨_, hexec, rfl, rfl, rfl, rfl, fun _ => (offline_goOffline 5 true s).modMod ⟨rfl, rfl, rfl, rfl, rfl, rfl⟩, nofun⟩
  · rw [hoff, if_pos rfl] at hexec
    exact ⟨_, hexec, rfl, rfl, rfl, hoff, nofun, fun _ => rfl⟩

theorem tripLimit_reached {sensor : Fin 10} {celsius : Int} (h : (2 ≤ sensor.val ∧ sensor.val ≤ 7 ∧ 110 ≤ celsius) ∨ (sensor.val = 9 ∧ 125 ≤ celsius)) :
    ∃ limit : Int, tripLimit sensor.val = some limit ∧ ¬ celsius < limit := by
  obtain ⟨hlow, hhigh, hhot⟩ | ⟨hnine, hhot⟩ := h
  · exact ⟨110, by simp only [tripLimit, decide_eq_true hlow, decide_eq_true hhigh, Bool.and_self, if_true], Int.not_lt.2 hhot⟩
  · refine ⟨125, ?_, Int.not_lt.2 hhot⟩
    rw [hnine]
    rfl

theorem completes_thermalTrip {s : State} {sensor : Fin 10} {celsius : Int} (htrip : s.mod.thermTrip = false)
    (h : (2 ≤ sensor.val ∧ sensor.val ≤ 7 ∧ 110 ≤ celsius) ∨ (sensor.val = 9 ∧ 125 ≤ celsius)) : Completes (.thermalTrip sensor celsius) s fun t =>
      t.mod.thermTrip = true ∧ t.mod.tripCooled = false ∧ t.mod.pwrGood = false ∧ t.mod.stackPower = false ∧
      (s.mod.offline = false → Offline 5 false s t) ∧ (s.mod.offline = true → { t with mod := s.mod } = s ∧ t.mod.recoverable = false) := by
  obtain ⟨limit, hlimit, hhot⟩ := tripLimit_reached h
  have hexec : execThermalTrip sensor celsius s = .next (modMod (fun m => { m with
      thermTrip := true, tripCooled := false, recoverable := false, pwrGood := false, stackPower := false, statusUnread := true })
      (if s.mod.offline = true then s else goOffline 5 false s)) := by
    have hcond : ¬ (decide (celsius < limit) || s.mod.thermTrip) = true := by
      rw [htrip, Bool.or_false, decide_eq_true_iff]
      exact hhot
    simp only [execThermalTrip, hlimit, if_neg hcond]
  cases hoff : s.mod.offline
  · rw [hoff, if_neg Bool.false_ne_true] at hexec
    exact ⟨_, hexec, rfl, rfl, rfl, rfl, fun _ => (offline_goOffline 5 false s).modMod ⟨rfl, rfl, rfl, rfl, rfl, rfl⟩, nofun⟩
  · rw [hoff, if_pos rfl] at hexec
    exact ⟨_, hexec, rfl, rfl, rfl, rfl, nofun, fun _ => ⟨rfl, rfl⟩⟩

theorem completes_holdUpExhausted {s : State} (h : s.mod.inputInRange = false) (hdue : 50000000 ≤ sinceTick s.mod.inputLostTick s) :
    Completes .holdUpExhausted s fun t => { t with mod := s.mod } = s ∧ t.mod.holdUpExhausted = true ∧ t.mod.stackPower = false := by
  have hexec : execHoldUpExhausted s = .next (modMod (fun m => { m with holdUpExhausted := true, stackPower := false, statusUnread := true }) s) := by
    simp only [execHoldUpExhausted, h, decide_eq_true hdue, Bool.not_false, Bool.and_self, if_true]
  exact ⟨_, hexec, rfl, rfl, rfl⟩

/-! ## Cold starts -/

theorem coldStarted_coldStart (cause reason : Nat) (s : State) : ColdStarted cause reason s (coldStart cause reason s) :=
  ⟨rfl, rfl, rfl, rfl, rfl, rfl, rfl, rfl, rfl, rfl, rfl, rfl, rfl, rfl, rfl, rfl, rfl, rfl, rfl, rfl, rfl, rfl⟩

/-- The input back in its range: the module as it then starts or stays, with the input noted. -/
def inputBack (s : State) : State := modMod (fun m => { m with inputInRange := true, statusUnread := true }) s

theorem coldStarted_inputBack (s : State) : ColdStarted 0 0 s (inputBack (coldStart 0 0 s)) :=
  ⟨rfl, rfl, rfl, rfl, rfl, rfl, rfl, rfl, rfl, rfl, rfl, rfl, rfl, rfl, rfl, rfl, rfl, rfl, rfl, rfl, rfl, rfl⟩

theorem execInputInRange_trip {s : State} (h : s.mod.inputInRange = false) (htrip : s.mod.thermTrip = true) :
    execInputInRange s = .next (inputBack (if s.mod.tripCooled = true then coldStart 0 0 s else s)) := by
  simp only [execInputInRange, h, htrip, Bool.false_eq_true, if_false, if_true, inputBack]

theorem execInputInRange_supply {s : State} (h : s.mod.inputInRange = false) (htrip : s.mod.thermTrip = false) :
    execInputInRange s = .next (inputBack
      (if s.mod.recoverable && decide (sinceTick s.mod.inputLostTick s ≤ 1000000000) then s else coldStart 0 0 s)) := by
  simp only [execInputInRange, h, htrip, Bool.false_eq_true, if_false, inputBack]

theorem completes_inputInRange_cold {s : State} (h : s.mod.inputInRange = false) (htrip : s.mod.thermTrip = false)
    (hlong : s.mod.recoverable = false ∨ 1000000000 < sinceTick s.mod.inputLostTick s) : Completes .inputInRange s (ColdStarted 0 0 s) := by
  have hcond : ¬ (s.mod.recoverable && decide (sinceTick s.mod.inputLostTick s ≤ 1000000000)) = true := by
    rw [Bool.and_eq_true, decide_eq_true_iff]
    rintro ⟨hrec, hshort⟩
    rcases hlong with h | h
    · exact absurd (hrec.symm.trans h) nofun
    · omega
  exact ⟨_, (execInputInRange_supply h htrip).trans (by rw [if_neg hcond]), coldStarted_inputBack s⟩

theorem completes_inputInRange_warm {s : State} (h : s.mod.inputInRange = false) (htrip : s.mod.thermTrip = false) (hrec : s.mod.recoverable = true)
    (hshort : sinceTick s.mod.inputLostTick s ≤ 1000000000) : Completes .inputInRange s fun t =>
      { t with mod := s.mod } = s ∧ t.mod.inputInRange = true ∧ t.mod.stage = s.mod.stage := by
  have hcond : (s.mod.recoverable && decide (sinceTick s.mod.inputLostTick s ≤ 1000000000)) = true := by
    rw [hrec, decide_eq_true hshort, Bool.and_self]
  have hexec : execInputInRange s = .next (inputBack s) := (execInputInRange_supply h htrip).trans (by rw [if_pos hcond])
  exact ⟨_, hexec, rfl, rfl, rfl⟩

theorem execModResetNLow_taken {s : State} (h : s.mod.inputInRange = true) (htrip : s.mod.thermTrip = true → s.mod.tripCooled = true) :
    execModResetNLow s = .next (coldStart 1 0 s) := by
  have hcond : ¬ (!s.mod.inputInRange || (s.mod.thermTrip && !s.mod.tripCooled)) = true := by
    rw [h]
    cases hhot : s.mod.thermTrip
    · simp
    · simp [htrip hhot]
  rw [execModResetNLow, if_neg hcond]

/-! ## Keyed resets -/

theorem execResetCtrlCold_keyed {p : Port} {s : State} (h : (portOf p s).fenced = false) (htrip : s.mod.thermTrip = false) :
    execResetCtrlCold p 0x5A17 false s = .next (coldStart 2 0 s) := by
  simp only [execResetCtrlCold, h, htrip, bne_self_eq_false, Bool.or_self, Bool.false_eq_true, if_false]

theorem execResetCtrlCold_unkeyed {p : Port} {key : BitVec 16} {s : State} (h : key ≠ 0x5A17) :
    execResetCtrlCold p key false s = .next (accessed p s) := by
  simp only [execResetCtrlCold, bne_iff_ne.2 h, Bool.or_true, Bool.true_or, if_true]
  rfl

theorem completes_resetCtrlWarm {p : Port} {s : State} (h : (portOf p s).fenced = false) (hstage : s.mod.stage = 7) (hhold : s.mod.warmHold = none) :
    Completes (.resetCtrlWarm p 0x5A17 false) s fun t =>
      { t with mod := s.mod } = accessed p s ∧ t.mod = { s.mod with warmHold := some (mono s) } := by
  have hmod : (endLatch p s).mod = s.mod := modPort_mod _ _ _
  have hexec : execResetCtrlWarm p 0x5A17 false s = .next (modMod (fun m => { m with warmHold := some (mono s) }) (endLatch p s)) := by
    have hcond : ¬ ((0x5A17 : BitVec 16) != 0x5A17 || false || (endLatch p s).mod.stage != 7 || (endLatch p s).mod.warmHold.isSome) = true := by
      rw [hmod, hstage, hhold]
      decide
    rw [execResetCtrlWarm, h, if_neg Bool.false_ne_true]
    exact (congrArg _ (if_neg hcond)).trans (by rw [mono_endLatch])
  refine ⟨_, hexec, ?_, ?_⟩
  · cases p <;> rfl
  · show { (endLatch p s).mod with warmHold := some (mono s) } = _
    rw [hmod]

/-! ## Warm starts -/

/-- A port whose mailbox command has been cut short. -/
def cutMailbox (q : PortSt) : PortSt := { q with mailbox := { q.mailbox with busy := false, latched := none, outcome := none } }

/-- The module as a warm start begins. -/
def warmMod (cause ticks : Nat) (m : ModuleSt) : ModuleSt :=
  { m with
    stage := 0, ready := false, warm := true, topologyWait := false, failStage := 0, failCause := 0, startMs := 0
    cause := BitVec.ofNat 4 cause, coldReason := 0, startTick := ticks, offline := false, recoverable := false, warmHold := none
    pendingTopology := none, fwBusyPort := none }

/-- The firmware slot that an FW_STAGE cut short leaves empty. -/
theorem dropMailbox_eq (s : State) : ∃ f : FlashSt, f.cleanStop = s.flash.cleanStop ∧ dropMailbox s =
    { s with flash := f, portA := cutMailbox s.portA, portB := cutMailbox s.portB, mod := { s.mod with fwBusyPort := none } } := by
  unfold dropMailbox
  extract_lets cut staging u
  obtain ⟨f, hf, hu⟩ : ∃ f : FlashSt, f.cleanStop = s.flash.cleanStop ∧ u = { s with flash := f } := by
    show ∃ f : FlashSt, _ ∧ (ite _ _ _ : State) = _
    split
    · refine ⟨_, ?_, rfl⟩
      split <;> rfl
    · exact ⟨_, rfl, rfl⟩
  exact ⟨f, hf, by rw [hu]; rfl⟩

theorem warmStart_eq (cause : Nat) (s : State) : ∃ f : FlashSt, f.cleanStop = s.flash.cleanStop ∧ warmStart cause s =
    { s with flash := f, portA := cutMailbox s.portA, portB := cutMailbox s.portB, mod := warmMod cause s.time.ticks s.mod } := by
  obtain ⟨f, hf, hdrop⟩ := dropMailbox_eq s
  unfold warmStart
  generalize dropMailbox s = u at hdrop ⊢
  extract_lets _ v
  obtain ⟨g, hg, hv⟩ : ∃ g : FlashSt, g.cleanStop = u.flash.cleanStop ∧ v = { u with flash := g } := by
    show ∃ g : FlashSt, _ ∧ (match u.mod.pendingTopology with | some t => modFlash (fun f => { f with topology := some t }) u | none => u) = _
    split
    · next t _ => exact ⟨{ u.flash with topology := some t }, rfl, rfl⟩
    · exact ⟨u.flash, rfl, rfl⟩
  exact ⟨g, hg.trans (by rw [hdrop, hf]), by rw [hv, hdrop]; rfl⟩

theorem warmStarted_warmStart (cause : Nat) (s : State) : WarmStarted cause s (warmStart cause s) ∧
    (warmStart cause s).flash.cleanStop = s.flash.cleanStop ∧ (warmStart cause s).links = s.links := by
  obtain ⟨f, hf, h⟩ := warmStart_eq cause s
  rw [h]
  exact ⟨⟨rfl, rfl, rfl, rfl, rfl, rfl, ⟨rfl, rfl, rfl⟩, rfl, rfl, rfl, rfl, rfl⟩, hf, rfl⟩

/-- LEAVING sent on each of some links: nothing but their control items changes. -/
theorem foldl_sendLeaving (ls : List Nat) (s : State) (hls : ls.Nodup) :
    { ls.foldl (fun s l => sendItem l (leavingItem s.mod.identity (now s) 0) s) s with links := s.links } = s ∧
      ∀ l : Nat, linkOf l (ls.foldl (fun s l => sendItem l (leavingItem s.mod.identity (now s) 0) s) s) =
        if l ∈ ls then queueControl [leavingItem s.mod.identity (now s) 0] (linkOf l s) else linkOf l s := by
  induction ls generalizing s with
  | nil => exact ⟨rfl, fun _ => rfl⟩
  | cons k ls ih =>
    obtain ⟨hk, hls⟩ := List.nodup_cons.1 hls
    let u := sendItem k (leavingItem s.mod.identity (now s) 0) s
    obtain ⟨hrest, hlinks⟩ := ih u hls
    refine ⟨?_, fun l => (hlinks l).trans ?_⟩
    · have hback := congrArg (fun y : State => { y with links := s.links }) hrest
      exact hback
    · by_cases hl : l = k
      · rw [hl, if_neg hk, if_pos (List.mem_cons_self ..)]
        exact linkOf_modLink _ _ _
      · have hu : linkOf l u = linkOf l s := linkOf_modLink_other _ _ _ _ hl
        have hmem : l ∈ k :: ls ↔ l ∈ ls := by rw [List.mem_cons, or_iff_right hl]
        rw [hu]
        exact if_congr hmem.symm rfl rfl

/-- The partners of the links that are Up. -/
def upLinks (s : State) : List Nat := (List.range 36).filter fun l => (linkOf l s).state == 3

/-- The orderly stop of a warm reset: LEAVING to every partner, the directory caches written back, a clean stop record. -/
def orderlyStop (s : State) : State :=
  let s := (upLinks s).foldl (fun s l => sendItem l (leavingItem s.mod.identity (now s) 0) s) s
  let s := modNmu (fun m => { m with cache := m.cache.map fun c => c.map fun x => (x.1, false) }) s
  modFlash (fun f => { f with cleanStop := true, lastDtime := now s }) s

theorem execWarmHoldEnd_over {s : State} {t0 : Word} (hhold : s.mod.warmHold = some t0)
    (hover : (∀ g ∈ s.groups, g.open' = none) ∨ 10000000000 ≤ nsSince t0 (mono s)) : execWarmHoldEnd s = .next (warmStart 3 (orderlyStop s)) := by
  have hcond : ¬ ((s.groups.any fun g => g.open'.isSome) && !decide (10000000000 ≤ nsSince t0 (mono s))) = true := by
    rw [Bool.and_eq_true, List.any_eq_true, Bool.not_eq_true', decide_eq_false_iff_not]
    rintro ⟨⟨g, hg, hopen⟩, hearly⟩
    rcases hover with h | h
    · rw [h g hg] at hopen
      exact absurd hopen nofun
    · exact hearly h
  simp only [execWarmHoldEnd, hhold, if_neg hcond]
  rfl

theorem completes_warmHoldEnd {s : State} {t0 : Word} (hhold : s.mod.warmHold = some t0)
    (hover : (∀ g ∈ s.groups, g.open' = none) ∨ 10000000000 ≤ nsSince t0 (mono s)) :
    Completes .warmHoldEnd s fun t => WarmStarted 3 s t ∧ t.flash.cleanStop = true ∧ ∀ l : Nat, l < 36 → (linkOf l s).state = 3 →
      ∃ it : Item, (linkOf l t).control = (linkOf l s).control ++ [it] ∧ itemKind it = 0x31 ∧ it.w1 = s.mod.identity := by
  have hnodup : (upLinks s).Nodup := List.nodup_range.filter _
  obtain ⟨hframe, hlinks⟩ := foldl_sendLeaving (upLinks s) s hnodup
  obtain ⟨hwarm, hclean, hkept⟩ := warmStarted_warmStart 3 (orderlyStop s)
  obtain ⟨v, hv⟩ : ∃ v, v = (upLinks s).foldl (fun s l => sendItem l (leavingItem s.mod.identity (now s) 0) s) s := ⟨_, rfl⟩
  have hstop : orderlyStop s = modFlash (fun f => { f with cleanStop := true, lastDtime := now v })
      (modNmu (fun m => { m with cache := m.cache.map fun c => c.map fun x => (x.1, false) }) v) := by rw [hv]; rfl
  rw [← hv] at hframe hlinks
  have hrest : v = { s with links := v.links } := by
    have hback := congrArg (fun y : State => { y with links := v.links }) hframe
    exact hback
  obtain ⟨h0, h1, h2, h3, h4, h5, hmem, hslots, hdescs, hgroups, hbindings, hregions⟩ := hwarm
  have hbase : SameMemory s (orderlyStop s) ∧ (orderlyStop s).slots = s.slots ∧ (orderlyStop s).descs = s.descs ∧
      (orderlyStop s).groups = s.groups ∧ (orderlyStop s).nmu.bindings = s.nmu.bindings ∧ (orderlyStop s).regions = s.regions := by
    rw [hstop, hrest]
    exact ⟨⟨rfl, rfl, rfl⟩, rfl, rfl, rfl, rfl, rfl⟩
  obtain ⟨gmem, gslots, gdescs, ggroups, gbindings, gregions⟩ := hbase
  have hcleanStop : (orderlyStop s).flash.cleanStop = true := by rw [hstop]; rfl
  refine ⟨_, execWarmHoldEnd_over hhold hover, ⟨h0, h1, h2, h3, h4, h5, gmem.trans hmem, hslots.trans gslots, hdescs.trans gdescs,
    hgroups.trans ggroups, hbindings.trans gbindings, hregions.trans gregions⟩, hclean.trans hcleanStop, fun l hl hup => ?_⟩
  have hmem : l ∈ upLinks s := List.mem_filter.2 ⟨List.mem_range.2 hl, beq_iff_eq.2 hup⟩
  have hlink : linkOf l (warmStart 3 (orderlyStop s)) = queueControl [leavingItem s.mod.identity (now s) 0] (linkOf l s) := by
    have hstopLinks : (orderlyStop s).links = v.links := by rw [hstop]; rfl
    rw [linkOf_congr (hkept.trans hstopLinks), hlinks, if_pos hmem]
  exact ⟨_, congrArg Link.control hlink, itemKind_mkItem _ _ _ _ _ (by decide) (by decide), rfl⟩

theorem execWarmHoldEnd_held {s : State} {t0 : Word} {g : Group} (hhold : s.mod.warmHold = some t0) (hg : g ∈ s.groups)
    (hopen : g.open'.isSome = true) (hearly : nsSince t0 (mono s) < 10000000000) : execWarmHoldEnd s = .next s := by
  have hany : (s.groups.any fun g => g.open'.isSome) = true := List.any_eq_true.2 ⟨g, hg, hopen⟩
  simp only [execWarmHoldEnd, hhold, hany, decide_eq_false (Nat.not_le.2 hearly), Bool.not_false, Bool.and_self, if_true]

theorem completes_recoveryWarmStart {s : State} (hoff : s.mod.offline = true) (hrec : s.mod.recoverable = true) (hin : s.mod.inputInRange = true)
    (hsoon : sinceTick s.mod.offlineTick s ≤ 1000000000) : Completes .recoveryWarmStart s (WarmStarted 4 s) := by
  have hexec : execRecoveryWarmStart s = .next (warmStart 4 s) := by
    simp only [execRecoveryWarmStart, hoff, hrec, hin, decide_eq_true hsoon, Bool.and_self, if_true]
  exact ⟨_, hexec, (warmStarted_warmStart 4 s).1⟩

theorem completes_offlineRecoveryTimeout {s : State} (hoff : s.mod.offline = true) (hdue : 1000000000 ≤ sinceTick s.mod.offlineTick s) :
    Completes .offlineRecoveryTimeout s fun t => { t with mod := s.mod } = s ∧ t.mod = { s.mod with recoverable := false } := by
  cases hrec : s.mod.recoverable
  · have hexec : execOfflineRecoveryTimeout s = .next s := by
      simp only [execOfflineRecoveryTimeout, hrec, Bool.and_false, Bool.false_and, Bool.false_eq_true, if_false]
    refine ⟨s, hexec, rfl, ?_⟩
    rw [← hrec]
  · have hexec : execOfflineRecoveryTimeout s = .next (modMod (fun m => { m with recoverable := false }) s) := by
      simp only [execOfflineRecoveryTimeout, hoff, hrec, decide_eq_true hdue, Bool.and_self, if_true]
    exact ⟨_, hexec, rfl, rfl⟩

theorem completes_tripSensorsCooled {s : State} (h : s.mod.thermTrip = true) : Completes .tripSensorsCooled s fun t =>
    { t with mod := s.mod } = s ∧ t.mod = { s.mod with tripCooled := true } := by
  have hexec : execTripSensorsCooled s = .next (modMod (fun m => { m with tripCooled := true }) s) := by rw [execTripSensorsCooled, if_pos h]
  exact ⟨_, hexec, rfl, rfl⟩

/-- Settles O49: each loss takes the module offline, and each return or reset starts it cold or warm by its conditions. -/
theorem offlineAndStarts : Obligations.OfflineAndStarts := by
  refine fun s => ⟨completes_moduleOffline, completes_inputOutOfRange, completes_holdUpExhausted,
    fun h => ⟨completes_inputInRange_cold h, fun htrip hcool => ?_, fun htrip hcool => ?_, completes_inputInRange_warm h⟩,
    fun h htrip => ⟨_, execModResetNLow_taken h htrip, coldStarted_coldStart 1 0 s⟩,
    fun p h => ⟨fun htrip => ⟨_, execResetCtrlCold_keyed h htrip, coldStarted_coldStart 2 0 s⟩,
      fun key hkey => ⟨_, execResetCtrlCold_unkeyed hkey, rfl⟩, completes_resetCtrlWarm h⟩,
    fun t0 => completes_warmHoldEnd, fun t0 g hhold hg hopen hearly => ⟨_, execWarmHoldEnd_held hhold hg hopen hearly, rfl⟩,
    completes_recoveryWarmStart, completes_offlineRecoveryTimeout, fun sensor celsius => completes_thermalTrip, completes_tripSensorsCooled⟩
  · exact ⟨_, (execInputInRange_trip h htrip).trans (by rw [if_pos hcool]), coldStarted_inputBack s⟩
  · have hexec : execInputInRange s = .next (inputBack s) :=
      (execInputInRange_trip h htrip).trans (by rw [hcool, if_neg Bool.false_ne_true])
    exact ⟨_, hexec, rfl, rfl, rfl⟩

end Sys2Proof.Machine
end

section
/-!
The security mailboxes (Machine/Mailbox.lean, R416 to R423, Tables 16-2 to 16-4).
-/

namespace Sys2Proof.Machine

/-! ## From GO to the answer -/

theorem portOf_endLatch (p : Port) (s : State) : portOf p (endLatch p s) = { portOf p s with latch := none } := portOf_modPort _ _ _

/-- What a command may come to at once: its answer, the free bytes drawn for it and the shared engine. -/
theorem beginCommand_frame (p : Port) (op len : Nat) (req : List Byte) (s : State) : ∃ (n : Nat) (b : Option Port),
    (beginCommand p op len req s).2 = { s with free := n, mod := { s.mod with fwBusyPort := b } } := by
  unfold beginCommand
  split
  · exact ⟨s.free, s.mod.fwBusyPort, rfl⟩
  · split
    · unfold startFirmware
      split
      · exact ⟨s.free, s.mod.fwBusyPort, rfl⟩
      · exact ⟨s.free, some p, rfl⟩
    · unfold startAnswer
      split
      · exact ⟨s.free, s.mod.fwBusyPort, rfl⟩
      · exact ⟨s.free + 1 + 64, s.mod.fwBusyPort, rfl⟩
      · exact ⟨s.free + 5, s.mod.fwBusyPort, rfl⟩
      · exact ⟨s.free, s.mod.fwBusyPort, rfl⟩
      · exact ⟨s.free, s.mod.fwBusyPort, rfl⟩

theorem beginCommand_badLength {p : Port} {op len : Nat} {req : List Byte} {s : State} (h : requestLength op ≠ some len) :
    beginCommand p op len req s = (some (mbxBadRequest, []), s) := by rw [beginCommand, if_pos (bne_iff_ne.2 h)]

theorem beginCommand_firmware {p : Port} {op len : Nat} {req : List Byte} {s : State} (h : requestLength op = some len)
    (hlow : 3 ≤ op) (hhigh : op ≤ 5) : beginCommand p op len req s = startFirmware p s := by
  have hcond : ¬ (requestLength op != some len) = true := by rw [h, bne_self_eq_false]; decide
  rw [beginCommand, if_neg hcond, if_pos (by simp only [decide_eq_true hlow, decide_eq_true hhigh, Bool.and_self])]

theorem beginCommand_answer {p : Port} {op len : Nat} {req : List Byte} {s : State} (h : requestLength op = some len)
    (hop : (decide (3 ≤ op) && decide (op ≤ 5)) = false) : beginCommand p op len req s = startAnswer p op req s := by
  have hcond : ¬ (requestLength op != some len) = true := by rw [h, bne_self_eq_false]; decide
  rw [beginCommand, if_neg hcond, hop, if_neg Bool.false_ne_true]

theorem attestReport_endLatch (p : Port) (req : List Byte) (s : State) : attestReport p req (endLatch p s) = attestReport p req s := by
  cases p <;> rfl

theorem answerFwStatus_endLatch (p : Port) (s : State) : (answerFwStatus (endLatch p s)).1 = (answerFwStatus s).1 := by cases p <;> rfl

theorem answerLog_endLatch (p : Port) (req : List Byte) (s : State) : answerLog p req (endLatch p s) = answerLog p req s := by cases p <;> rfl

theorem answerIdentity_endLatch (p : Port) (s : State) : answerIdentity (endLatch p s) = answerIdentity s := by cases p <;> rfl

theorem startFirmware_free {p : Port} {s : State} (h : s.mod.fwBusyPort = none) :
    startFirmware p s = (none, modMod (fun m => { m with fwBusyPort := some p }) s) := by
  rw [startFirmware, h, Option.isSome_none, if_neg Bool.false_ne_true]

theorem startFirmware_busy {p : Port} {s : State} (h : s.mod.fwBusyPort.isSome = true) : startFirmware p s = (some (mbxBusy, []), s) := by
  rw [startFirmware, if_pos h]

/-- The request bytes that a GO latches. -/
def requestOf (m : Mailbox) : List Byte := (List.range m.reqLength.toNat).map fun i => tgetD m.request i 0

/-- A mailbox with a command latched and running. -/
def runningMailbox (out : Option MbxAnswer) (m : Mailbox) : Mailbox :=
  { m with busy := true, response := [], respLength := 0, latched := some (m.opcode, m.reqLength.toNat, m.tag, requestOf m), outcome := out }

/-- What a GO begins. -/
def begun (p : Port) (s : State) : Option MbxAnswer × State :=
  beginCommand p (portOf p s).mailbox.opcode.toNat (portOf p s).mailbox.reqLength.toNat (requestOf (portOf p s).mailbox) (endLatch p s)

theorem goCommand_answers {op : BitVec 8} {p : Port} {s : State} (h : RegistersAnswer p s) (hop : (portOf p s).mailbox.opcode = op) :
    goCommand op p s = mbxGo p (endLatch p s) := by
  have hop' : (portOf p (endLatch p s)).mailbox.opcode = op := by rw [portOf_endLatch, hop]
  rw [goCommand, regAccess_answers h, hop', beq_self_eq_true, if_pos rfl]

theorem mbxGo_busy {p : Port} {s : State} (h : (portOf p s).mailbox.busy = true) : mbxGo p (endLatch p s) = raiseMbx p 0 (endLatch p s) := by
  have hbusy : (portOf p (endLatch p s)).mailbox.busy = true := by rw [portOf_endLatch, h]
  rw [mbxGo, if_pos hbusy]

theorem mbxGo_idle {p : Port} {s : State} (h : (portOf p s).mailbox.busy = false) : mbxGo p (endLatch p s) =
    modPort p (fun q => { q with mailbox := { q.mailbox with
      busy := true, response := [], respLength := 0
      latched := some ((portOf p s).mailbox.opcode, (portOf p s).mailbox.reqLength.toNat, (portOf p s).mailbox.tag, requestOf (portOf p s).mailbox)
      outcome := (begun p s).1 } }) (begun p s).2 := by
  simp only [mbxGo, portOf_endLatch, h, Bool.false_eq_true, if_false]
  rfl

theorem completes_go_busy {op : BitVec 8} {i : Instr} {p : Port} {s : State} (hexec : exec i s = .next (goCommand op p s)) (h : RegistersAnswer p s)
    (hop : (portOf p s).mailbox.opcode = op) (hbusy : (portOf p s).mailbox.busy = true) : Completes i s fun t =>
      (portOf p t).mailbox.flags = (portOf p s).mailbox.flags ||| 1 ∧ (portOf p t).mailbox.latched = (portOf p s).mailbox.latched ∧
      OnlyPort p s t := by
  rw [goCommand_answers h hop, mbxGo_busy hbusy] at hexec
  refine ⟨_, hexec, ?_, ?_, ?_⟩
  · rw [raiseMbx, portOf_modPort, portOf_endLatch]
    rfl
  · rw [raiseMbx, portOf_modPort, portOf_endLatch]
  · rw [raiseMbx, endLatch, modPort_modPort]
    exact onlyPort_modPort _ _ _

/-- What a command's begin gives, by its opcode. -/
theorem begun_cases {p : Port} {s : State} :
    let m := (portOf p s).mailbox
    (requestLength m.opcode.toNat ≠ some m.reqLength.toNat → (begun p s).1 = some (mbxBadRequest, [])) ∧
    (requestLength m.opcode.toNat = some m.reqLength.toNat →
      ((m.opcode = 3 ∨ m.opcode = 4 ∨ m.opcode = 5) →
        (s.mod.fwBusyPort = none → (begun p s).1 = none ∧ (begun p s).2.mod.fwBusyPort = some p) ∧
        (s.mod.fwBusyPort.isSome = true → (begun p s).1 = some (mbxBusy, []) ∧ (begun p s).2.mod = s.mod)) ∧
      (m.opcode = 1 → (begun p s).1 = some (mbxOk, wordBytes s.mod.identity ++ s.flash.identityRecord ++ staticKem.1)) ∧
      (m.opcode = 2 → ∃ sig : List Byte, (begun p s).1 = some (mbxOk, attestReport p (requestOf m) s ++ sig)) ∧
      (m.opcode = 6 → (begun p s).1 = some (answerFwStatus s).1) ∧ (m.opcode = 7 → (begun p s).1 = some (answerLog p (requestOf m) s))) := by
  have hmod : (endLatch p s).mod = s.mod := modPort_mod _ _ _
  refine ⟨fun hlen => by rw [begun, beginCommand_badLength hlen], fun hlen => ⟨fun hop => ?_, fun hop => ?_, fun hop => ?_, fun hop => ?_, fun hop => ?_⟩⟩
  · have hfirmware : begun p s = startFirmware p (endLatch p s) := by
      rcases hop with hop | hop | hop <;> exact beginCommand_firmware hlen (by rw [hop]; decide) (by rw [hop]; decide)
    rw [hfirmware]
    refine ⟨fun hfree => ?_, fun hbusy => ?_⟩
    · rw [startFirmware_free (by rw [hmod, hfree])]
      exact ⟨rfl, rfl⟩
    · rw [startFirmware_busy (by rw [hmod, hbusy])]
      exact ⟨rfl, hmod⟩
  · rw [begun, beginCommand_answer hlen (by rw [hop]; rfl), hop]
    exact congrArg some (answerIdentity_endLatch p s)
  · refine ⟨signBytes (attestReport p (requestOf (portOf p s).mailbox) (endLatch p s)) (drawFree 1 (endLatch p s)), ?_⟩
    rw [begun, beginCommand_answer hlen (by rw [hop]; rfl), hop, ← attestReport_endLatch p _ s]
    rfl
  · rw [begun, beginCommand_answer hlen (by rw [hop]; rfl), hop]
    exact congrArg some (answerFwStatus_endLatch p s)
  · rw [begun, beginCommand_answer hlen (by rw [hop]; rfl), hop]
    exact congrArg some (answerLog_endLatch p _ s)

/-- A GO that finds its mailbox idle latches the command, and only free bytes, the shared engine and its port change. -/
theorem mbxGo_idle_cases {p : Port} {s : State} (h : (portOf p s).mailbox.busy = false) :
    SameMemory s (mbxGo p (endLatch p s)) ∧ (mbxGo p (endLatch p s)).flash = s.flash ∧
      portOf (peerOf p) (mbxGo p (endLatch p s)) = portOf (peerOf p) s ∧ (mbxGo p (endLatch p s)).mod = (begun p s).2.mod ∧
      (portOf p (mbxGo p (endLatch p s))).mailbox = runningMailbox (begun p s).1 (portOf p s).mailbox := by
  obtain ⟨n, b, hframe⟩ := beginCommand_frame p (portOf p s).mailbox.opcode.toNat (portOf p s).mailbox.reqLength.toNat
    (requestOf (portOf p s).mailbox) (endLatch p s)
  have hbegun : (begun p s).2 = { endLatch p s with free := n, mod := { (endLatch p s).mod with fwBusyPort := b } } := hframe
  rw [mbxGo_idle h]
  generalize (begun p s).1 = out at hbegun ⊢
  rw [hbegun]
  cases p <;> exact ⟨⟨rfl, rfl, rfl⟩, rfl, rfl, rfl, rfl⟩

/-! ## From the answer to its result -/

/-- A mailbox with the result of its command. -/
def endedMailbox (tag : W32) (a : MbxAnswer) (m : Mailbox) : Mailbox :=
  { m with
    busy := false, done := true, latched := none, outcome := none, statusTag := tag, result := BitVec.ofNat 8 a.1, response := a.2
    respLength := BitVec.ofNat 14 a.2.length }

/-- A result given to its port, with the message. -/
def deliver (p : Port) (tag : W32) (a : MbxAnswer) (s : State) : State :=
  let s := modPort p (fun q => { q with mailbox := endedMailbox tag a q.mailbox }) s
  if (portOf p s).mbxEn then sendMsix p (portOf p s).mbxVector.toNat s else s

theorem mailboxEnd_latched {p : Port} {s : State} {op : BitVec 8} {len : Nat} {tag : W32} {req : List Byte}
    (hlatched : (portOf p s).mailbox.latched = some (op, len, tag, req)) (hbusy : (portOf p s).mailbox.busy = true) :
    mailboxEnd p s = deliver p tag (endCommand p op req (portOf p s).mailbox.outcome s).1 (endCommand p op req (portOf p s).mailbox.outcome s).2 := by
  simp only [mailboxEnd, hlatched, hbusy, Bool.not_true, Bool.false_eq_true, if_false]
  rfl

theorem mailbox_sendMsix (p : Port) (v : Nat) (s : State) : (portOf p (sendMsix p v s)).mailbox = (portOf p s).mailbox := by
  unfold sendMsix
  split
  · rfl
  · split
    · rw [portOf_modPort]
    · cases p <;> rfl

theorem flash_sendMsix (p : Port) (v : Nat) (s : State) : (sendMsix p v s).flash = s.flash ∧ (sendMsix p v s).mod = s.mod := by
  have hquiet := onlyFlags_sendMsix p v s
  have hflash := congrArg State.flash hquiet
  have hmod := congrArg State.mod hquiet
  exact ⟨hflash, hmod⟩

/-- A mailbox command has ended with a result and a response. -/
def MailboxEnds (p : Port) (tag : W32) (res : Nat) (resp : List Byte) (s t : State) : Prop :=
  (portOf p t).mailbox.busy = false ∧ (portOf p t).mailbox.done = true ∧ (portOf p t).mailbox.result = BitVec.ofNat 8 res ∧
    (portOf p t).mailbox.response = resp ∧ (portOf p t).mailbox.statusTag = tag ∧
    (portOf p t).mailbox.respLength = BitVec.ofNat 14 resp.length ∧ SameMemory s t ∧ t.slots = s.slots

theorem deliver_cases (p : Port) (tag : W32) (a : MbxAnswer) (s : State) :
    MailboxEnds p tag a.1 a.2 s (deliver p tag a s) ∧ (deliver p tag a s).flash = s.flash ∧ (deliver p tag a s).mod = s.mod := by
  let u := modPort p (fun q => { q with mailbox := endedMailbox tag a q.mailbox }) s
  have hmailbox : (portOf p u).mailbox = endedMailbox tag a (portOf p s).mailbox := congrArg PortSt.mailbox (portOf_modPort _ _ _)
  have hu : SameMemory s u ∧ u.slots = s.slots ∧ u.flash = s.flash ∧ u.mod = s.mod := by cases p <;> exact ⟨⟨rfl, rfl, rfl⟩, rfl, rfl, rfl⟩
  have hended (t : State) (hm : (portOf p t).mailbox = (portOf p u).mailbox) (hmem : SameMemory u t) (hslots : t.slots = u.slots)
      (hflash : t.flash = u.flash ∧ t.mod = u.mod) : MailboxEnds p tag a.1 a.2 s t ∧ t.flash = s.flash ∧ t.mod = s.mod := by
    refine ⟨?_, hflash.1.trans hu.2.2.1, hflash.2.trans hu.2.2.2⟩
    unfold MailboxEnds
    rw [hm, hmailbox]
    exact ⟨rfl, rfl, rfl, rfl, rfl, rfl, hu.1.trans hmem, hslots.trans hu.2.1⟩
  show MailboxEnds p tag a.1 a.2 s (ite _ _ _) ∧ (ite _ _ _ : State).flash = _ ∧ (ite _ _ _ : State).mod = _
  split
  · exact hended _ (mailbox_sendMsix _ _ _) (onlyFlags_sendMsix _ _ _).sameMemory (slots_sendMsix _ _ _) (flash_sendMsix _ _ _)
  · exact hended _ rfl ⟨rfl, rfl, rfl⟩ rfl ⟨rfl, rfl⟩

theorem MailboxEnds.of_sameMemory {p : Port} {tag : W32} {res : Nat} {resp : List Byte} {s u t : State} (h : MailboxEnds p tag res resp u t)
    (hmem : SameMemory s u) (hslots : u.slots = s.slots) : MailboxEnds p tag res resp s t := by
  obtain ⟨h1, h2, h3, h4, h5, h6, h7, h8⟩ := h
  exact ⟨h1, h2, h3, h4, h5, h6, hmem.trans h7, h8.trans hslots⟩

/-- A latched command that ends with an answer, in a state that keeps memory and the channels, gives that answer as its result. -/
theorem completes_mailboxResult {p : Port} {s u : State} {op : BitVec 8} {len : Nat} {tag : W32} {req : List Byte} {a : MbxAnswer}
    (hlatched : (portOf p s).mailbox.latched = some (op, len, tag, req)) (hbusy : (portOf p s).mailbox.busy = true)
    (hend : endCommand p op req (portOf p s).mailbox.outcome s = (a, u)) (hmem : SameMemory s u) (hslots : u.slots = s.slots) :
    Completes (.mailboxResult p) s fun t => MailboxEnds p tag a.1 a.2 s t ∧ t.flash = u.flash ∧ t.mod = u.mod := by
  have hexec : execMailboxResult p s = .next (deliver p tag a u) := by rw [execMailboxResult, mailboxEnd_latched hlatched hbusy, hend]
  obtain ⟨hends, hflash, hmod⟩ := deliver_cases p tag a u
  exact ⟨_, hexec, hends.of_sameMemory hmem hslots, hflash, hmod⟩

/-- The shared engine released as a firmware command ends. -/
def engineFreed (s : State) : State := modMod (fun m => { m with fwBusyPort := none }) s

theorem endCommand_stage (p : Port) (req : List Byte) (s : State) : endCommand p 3 req none s = endFwStage p req (engineFreed s) := rfl

theorem endCommand_activate (p : Port) (req : List Byte) (s : State) : endCommand p 4 req none s = endFwActivate (engineFreed s) := rfl

theorem endFwConfirm_try {s : State} (hready : s.mod.ready = true) (htry : s.flash.tryB = some s.mod.fwRunningB) :
    endFwConfirm s = ((mbxOk, leBytes 2 (max s.flash.minSvn.toNat (fwSlot s.mod.fwRunningB s).svn.toNat)), modFlash (fun f => { f with
      activeB := s.mod.fwRunningB, tryB := none, tryCount := 0
      minSvn := BitVec.ofNat 16 (max s.flash.minSvn.toNat (fwSlot s.mod.fwRunningB s).svn.toNat), counterWrites := f.counterWrites + 1 }) s) := by
  rw [endFwConfirm, if_pos (by rw [hready, htry, beq_self_eq_true, Bool.and_self])]

theorem fwSlot_congr {s t : State} (h : t.flash = s.flash) (b : Bool) : fwSlot b t = fwSlot b s := by rw [fwSlot, fwSlot, h]

theorem fwSlot_setFwSlot (b : Bool) (x : FwImage) (s : State) :
    fwSlot b (setFwSlot b x s) = x ∧ fwSlot (!b) (setFwSlot b x s) = fwSlot (!b) s ∧ (setFwSlot b x s).flash.minSvn = s.flash.minSvn := by
  cases b <;> exact ⟨rfl, rfl, rfl⟩

theorem raiseMbx_frame (p : Port) (i : Nat) (s : State) :
    SameMemory s (raiseMbx p i s) ∧ (raiseMbx p i s).slots = s.slots ∧ (raiseMbx p i s).flash = s.flash := by
  cases p <;> exact ⟨⟨rfl, rfl, rfl⟩, rfl, rfl⟩

/-- The image that an FW_STAGE reads through its port. -/
def stagedImage (p : Port) (req : List Byte) (s : State) : List Byte :=
  if (portOf p s).fenced = true ∨ 33554432 < leNat (req.drop 8) then [] else hostRead p (leNat (req.take 8)) (leNat (req.drop 8)) s

theorem endFwStage_spare {p : Port} {req : List Byte} {s : State} {b : Bool} (h : spareSlot s = some b) : endFwStage p req s =
    if imageVerifies (stagedImage p req s) = false then ((mbxSignatureBad, []), raiseMbx p 1 (setFwSlot b { valid := false } s))
    else if imageSvn (stagedImage p req s) < s.flash.minSvn.toNat then ((mbxSvnLow, []), raiseMbx p 1 (setFwSlot b { valid := false } s))
    else ((mbxOk, slotByte b :: leBytes 2 (imageSvn (stagedImage p req s))),
      setFwSlot b { valid := true, svn := BitVec.ofNat 16 (imageSvn (stagedImage p req s)), digest := shake256 64 (stagedImage p req s) } s) := by
  simp only [endFwStage, h, stagedImage, Bool.or_eq_true, decide_eq_true_eq, Bool.not_eq_true']
  rfl

theorem endFwActivate_good {s : State} {b : Bool} (h : spareSlot s = some b) (hgood : fwGood b s = true) :
    endFwActivate (engineFreed s) = ((mbxOk, [slotByte b]), modFlash (fun f => { f with tryB := some b, tryCount := 0 }) (engineFreed s)) := by
  rw [endFwActivate, show spareSlot (engineFreed s) = some b from h]
  exact if_pos hgood

theorem endFwActivate_bad {s : State} {b : Bool} (h : spareSlot s = some b) (hgood : fwGood b s = false) :
    endFwActivate (engineFreed s) = ((mbxNotAllowed, []), engineFreed s) := by
  rw [endFwActivate, show spareSlot (engineFreed s) = some b from h]
  exact if_neg (by rw [show fwGood b (engineFreed s) = false from hgood]; decide)

/-- An FW_STAGE ends with its image in the spare slot where it verifies and is not too old, and with the slot empty otherwise. -/
theorem completes_fwStage {p : Port} {s : State} {len : Nat} {tag : W32} {req : List Byte} {b : Bool}
    (hlatched : (portOf p s).mailbox.latched = some (3, len, tag, req)) (hbusy : (portOf p s).mailbox.busy = true)
    (hout : (portOf p s).mailbox.outcome = none) (hspare : spareSlot s = some b) :
    (imageVerifies (stagedImage p req s) = false → Completes (.mailboxResult p) s fun t => MailboxEnds p tag mbxSignatureBad [] s t ∧
      (fwSlot b t).valid = false ∧ fwSlot (!b) t = fwSlot (!b) s ∧ t.flash.minSvn = s.flash.minSvn) ∧
    (imageVerifies (stagedImage p req s) = true → imageSvn (stagedImage p req s) < s.flash.minSvn.toNat →
      Completes (.mailboxResult p) s fun t => MailboxEnds p tag mbxSvnLow [] s t ∧ (fwSlot b t).valid = false ∧ fwSlot (!b) t = fwSlot (!b) s) ∧
    (imageVerifies (stagedImage p req s) = true → s.flash.minSvn.toNat ≤ imageSvn (stagedImage p req s) →
      Completes (.mailboxResult p) s fun t =>
        MailboxEnds p tag mbxOk (slotByte b :: leBytes 2 (imageSvn (stagedImage p req s))) s t ∧ fwSlot (!b) t = fwSlot (!b) s ∧
        fwSlot b t = { valid := true, svn := BitVec.ofNat 16 (imageSvn (stagedImage p req s)), digest := shake256 64 (stagedImage p req s) }) := by
  have himage : stagedImage p req (engineFreed s) = stagedImage p req s := by cases p <;> rfl
  have hend : endCommand p 3 req (portOf p s).mailbox.outcome s = endFwStage p req (engineFreed s) := by rw [hout]; rfl
  rw [endFwStage_spare (show spareSlot (engineFreed s) = some b from hspare), himage, show (engineFreed s).flash.minSvn = s.flash.minSvn from rfl] at hend
  have hslot (x : FwImage) := fwSlot_setFwSlot b x (engineFreed s)
  have hempty (res : Nat) (hres : endCommand p 3 req (portOf p s).mailbox.outcome s =
      ((res, []), raiseMbx p 1 (setFwSlot b { valid := false } (engineFreed s)))) :
      Completes (.mailboxResult p) s fun t => MailboxEnds p tag res [] s t ∧
        (fwSlot b t).valid = false ∧ fwSlot (!b) t = fwSlot (!b) s ∧ t.flash.minSvn = s.flash.minSvn := by
    obtain ⟨hmem, hslots, hflash⟩ := raiseMbx_frame p 1 (setFwSlot b { valid := false } (engineFreed s))
    obtain ⟨t, hexec, hends, htflash, _⟩ := completes_mailboxResult hlatched hbusy hres hmem hslots
    have ht := htflash.trans hflash
    obtain ⟨h1, h2, h3⟩ := hslot { valid := false }
    exact ⟨t, hexec, hends, congrArg FwImage.valid ((fwSlot_congr ht b).trans h1), (fwSlot_congr ht (!b)).trans h2,
      (congrArg FlashSt.minSvn ht).trans h3⟩
  refine ⟨fun hbad => ?_, fun hgood hlow => ?_, fun hgood hhigh => ?_⟩
  · rw [if_pos hbad] at hend
    exact hempty _ hend
  · rw [if_neg (by rw [hgood]; decide), if_pos hlow] at hend
    obtain ⟨t, hexec, hends, hvalid, hother, _⟩ := hempty _ hend
    exact ⟨t, hexec, hends, hvalid, hother⟩
  · rw [if_neg (by rw [hgood]; decide), if_neg (Nat.not_lt.2 hhigh)] at hend
    obtain ⟨t, hexec, hends, hflash, _⟩ := completes_mailboxResult hlatched hbusy hend ⟨rfl, rfl, rfl⟩ rfl
    obtain ⟨h1, h2, _⟩ := hslot { valid := true, svn := BitVec.ofNat 16 (imageSvn (stagedImage p req s)), digest := shake256 64 (stagedImage p req s) }
    exact ⟨t, hexec, hends, (fwSlot_congr hflash (!b)).trans h2, (fwSlot_congr hflash b).trans h1⟩

/-! ## Clears -/

theorem execMbxStatusClear_answers {p : Port} {value : Word} {s : State} (h : RegistersAnswer p s) (co : Bool) :
    execMbxStatusClear p value co s = .next (if co = true then
      mailboxEnd p (modPort p (fun q => { q with latch := none, mailbox := { q.mailbox with done := q.mailbox.done && !bitOf value 1 } }) s)
      else modPort p (fun q => { q with latch := none, mailbox := { q.mailbox with done := q.mailbox.done && !bitOf value 1 } }) s) := by
  rw [execMbxStatusClear, regAccess_answers h, endLatch, modPort_modPort]

theorem completes_mbxStatusClear_coincident {p : Port} {value : Word} {s : State} (h : RegistersAnswer p s)
    (hbusy : (portOf p s).mailbox.busy = true) (hlatched : (portOf p s).mailbox.latched.isSome = true) :
    Completes (.mbxStatusClear p value true) s fun t => (portOf p t).mailbox.done = true := by
  obtain ⟨⟨op, len, tag, req⟩, hl⟩ := Option.isSome_iff_exists.1 hlatched
  let u := modPort p (fun q => { q with latch := none, mailbox := { q.mailbox with done := q.mailbox.done && !bitOf value 1 } }) s
  have hport : (portOf p u).mailbox = { (portOf p s).mailbox with done := (portOf p s).mailbox.done && !bitOf value 1 } :=
    congrArg PortSt.mailbox (portOf_modPort _ _ _)
  have hend := mailboxEnd_latched (s := u) (by rw [hport]; exact hl) (by rw [hport]; exact hbusy)
  refine ⟨mailboxEnd p u, execMbxStatusClear_answers h true, ?_⟩
  obtain ⟨⟨_, hdone, _⟩, _⟩ := deliver_cases p tag (endCommand p op req (portOf p u).mailbox.outcome u).1
    (endCommand p op req (portOf p u).mailbox.outcome u).2
  rw [hend]
  exact hdone

/-- A mailbox with a flag raised and counted. -/
def flaggedMailbox (i : Nat) (m : Mailbox) : Mailbox := { m with flags := m.flags ||| BitVec.ofNat 4 (2 ^ i), counts := vmod m.counts i (· + 1) }

theorem foldl_raiseMbx (p : Port) (is : List Nat) (s : State) : is.foldl (fun s i => raiseMbx p i s) s =
    modPort p (fun q => { q with mailbox := is.foldl (fun m i => flaggedMailbox i m) q.mailbox }) s := by
  induction is generalizing s with
  | nil => cases p <;> rfl
  | cons i is ih =>
    rw [List.foldl_cons, ih, raiseMbx, modPort_modPort]
    rfl

theorem flags_foldl_flagged (is : List Nat) (m : Mailbox) :
    (is.foldl (fun m i => flaggedMailbox i m) m).flags = is.foldl (fun f i => f ||| BitVec.ofNat 4 (2 ^ i)) m.flags := by
  induction is generalizing m with
  | nil => rfl
  | cons i is ih => rw [List.foldl_cons, ih, List.foldl_cons, flaggedMailbox]

theorem counts_foldl_flagged (is : List Nat) (hnodup : is.Nodup) (m : Mailbox) (j : Fin 4) :
    (is.foldl (fun m i => flaggedMailbox i m) m).counts[j] = m.counts[j] + if j.val ∈ is then 1 else 0 := by
  induction is generalizing m with
  | nil => simp
  | cons i is ih =>
    obtain ⟨hi, hnodup⟩ := List.nodup_cons.1 hnodup
    have hcount : (flaggedMailbox i m).counts[j] = if j.val = i then m.counts[j] + 1 else m.counts[j] := getElem_vmod _ _ _ _
    rw [List.foldl_cons, ih hnodup, hcount]
    by_cases hij : j.val = i
    · simp [hij, hi]
    · simp [hij]

theorem completes_mbxFlagsClear {p : Port} {value co : BitVec 4} {s : State} (h : RegistersAnswer p s) :
    Completes (.mbxFlagsClear p value co) s fun t => OnlyPort p s t ∧
      (portOf p t).mailbox.flags = ((portOf p s).mailbox.flags &&& ~~~ value) ||| co ∧
      ∀ i : Fin 4, (portOf p t).mailbox.counts[i] = (portOf p s).mailbox.counts[i] + if co.getLsbD i then 1 else 0 := by
  let is := (List.range 4).filter fun i => co.toNat.testBit i
  have hexec : execMbxFlagsClear p value co s = .next (modPort p (fun q => { q with
      latch := none
      mailbox := is.foldl (fun m i => flaggedMailbox i m) { q.mailbox with flags := q.mailbox.flags &&& ~~~ value } }) s) := by
    rw [execMbxFlagsClear, regAccess_answers h, raiseEach, foldl_raiseMbx, endLatch, modPort_modPort, modPort_modPort]
  have hmailbox : (portOf p (modPort p (fun q => { q with
      latch := none
      mailbox := is.foldl (fun m i => flaggedMailbox i m) { q.mailbox with flags := q.mailbox.flags &&& ~~~ value } }) s)).mailbox =
      is.foldl (fun m i => flaggedMailbox i m) { (portOf p s).mailbox with flags := (portOf p s).mailbox.flags &&& ~~~ value } :=
    congrArg PortSt.mailbox (portOf_modPort _ _ _)
  refine ⟨_, hexec, onlyPort_modPort _ _ _, ?_, fun i => ?_⟩
  · rw [hmailbox, flags_foldl_flagged]
    exact foldl_or_bits co _
  · rw [hmailbox, counts_foldl_flagged is (List.nodup_range.filter _)]
    have hmem : i.val ∈ is ↔ co.getLsbD i = true := by
      rw [List.mem_filter, List.mem_range, and_iff_right i.isLt]
      rfl
    exact congrArg _ (if_congr hmem rfl rfl)

/-- Settles O52: a GO latches its command, and a result gives its answer, its response and DONE. -/
theorem securityMailboxes : Obligations.SecurityMailboxes := by
  refine ⟨fun p s op i h hi => ?_, fun p s op len tag req => ?_, fun p value s h => ⟨?_, completes_mbxStatusClear_coincident h⟩,
    fun p value co s => completes_mbxFlagsClear⟩
  · intro m req hop
    have hexec : exec i s = .next (goCommand op p s) := by
      rcases hi with ⟨rfl, rfl⟩ | ⟨rfl, rfl⟩ | ⟨rfl, rfl⟩ | ⟨rfl, rfl⟩ | ⟨rfl, rfl⟩ | ⟨rfl, rfl⟩ | ⟨rfl, rfl⟩ <;> rfl
    refine ⟨completes_go_busy hexec h hop, fun hidle => ?_⟩
    rw [goCommand_answers h hop] at hexec
    obtain ⟨hmem, hflash, hpeer, hmod, hmailbox⟩ := mbxGo_idle_cases hidle
    obtain ⟨hbad, hgood⟩ := begun_cases (p := p) (s := s)
    refine ⟨_, hexec, hmem, hflash, hpeer, (begun p s).1, ?_, fun hlen => hbad (hop ▸ hlen), fun hlen => ?_⟩
    · rw [hmailbox, ← hop]
      rfl
    · obtain ⟨hfirmware, hidentity, hattest, hstatus, hlog⟩ := hgood (hop ▸ hlen)
      rw [← hop, hmod]
      exact ⟨hfirmware, hidentity, hattest, hstatus, hlog⟩
  · intro m hlatched hbusy ends
    have hresult {a : MbxAnswer} {u : State} (hend : endCommand p op req m.outcome s = (a, u)) (hmem : SameMemory s u) (hslots : u.slots = s.slots) :
        Completes (.mailboxResult p) s fun t => MailboxEnds p tag a.1 a.2 s t ∧ t.flash = u.flash ∧ t.mod = u.mod :=
      completes_mailboxResult hlatched hbusy hend hmem hslots
    have hends (op : BitVec 8) (hout : m.outcome = none) : endCommand p op req m.outcome s = endCommand p op req none s := by rw [hout]
    refine ⟨fun res resp hout => ?_, fun hout hop hready htry => ?_, fun hout hop hno => ?_, fun b hout hop hspare => ⟨fun hgood => ?_, fun hgood => ?_⟩,
      fun b hout hop hspare => ?_, fun hout hop hspare => ?_⟩
    · obtain ⟨t, hexec, hends, hflash, _⟩ := hresult (a := (res, resp)) (u := s) (by rw [hout]; rfl) ⟨rfl, rfl, rfl⟩ rfl
      exact ⟨t, hexec, hends, hflash⟩
    · subst hop
      obtain ⟨t, hexec, hends, hflash, hmod⟩ := hresult
        ((hends 5 hout).trans (endFwConfirm_try (s := engineFreed s) hready htry)) ⟨rfl, rfl, rfl⟩ rfl
      exact ⟨t, hexec, hends, congrArg ModuleSt.fwBusyPort hmod, hflash⟩
    · subst hop
      have hrefuse : ¬ MayConfirm (engineFreed s) := fun ⟨hready, htry⟩ => hno.elim (fun h => absurd (hready.symm.trans h) nofun) (fun h => h htry)
      obtain ⟨t, hexec, hends, hflash, _⟩ := hresult ((hends 5 hout).trans (endFwConfirm_refused hrefuse)) ⟨rfl, rfl, rfl⟩ rfl
      exact ⟨t, hexec, hends, hflash⟩
    · subst hop
      obtain ⟨t, hexec, hends, hflash, _⟩ := hresult ((hends 4 hout).trans (endFwActivate_good hspare hgood)) ⟨rfl, rfl, rfl⟩ rfl
      exact ⟨t, hexec, hends, hflash⟩
    · subst hop
      obtain ⟨t, hexec, hends, hflash, _⟩ := hresult ((hends 4 hout).trans (endFwActivate_bad hspare hgood)) ⟨rfl, rfl, rfl⟩ rfl
      exact ⟨t, hexec, hends, hflash⟩
    · subst hop
      exact completes_fwStage hlatched hbusy hout hspare
    · have hend : endCommand p op req m.outcome s = ((mbxNotAllowed, []), engineFreed s) := by
        rw [hout]
        rcases hop with rfl | rfl
        · rw [endCommand_stage, endFwStage, show spareSlot (engineFreed s) = none from hspare]
        · rw [endCommand_activate, endFwActivate, show spareSlot (engineFreed s) = none from hspare]
      obtain ⟨t, hexec, hends, hflash, _⟩ := hresult hend ⟨rfl, rfl, rfl⟩ rfl
      exact ⟨t, hexec, hends, hflash⟩
  · exact completes_onlyPort (i := .mbxStatusClear p value false)
      ((execMbxStatusClear_answers h false).trans (by rw [if_neg Bool.false_ne_true]))

end Sys2Proof.Machine
end

section
/-!
The register map of BAR0 and the report ring (Machine/Registers.lean, R6, R7, R430, R431, R444 to R457).
-/

namespace Sys2Proof.Machine

/-! ## Reads -/

/-- A port that a read has answered. -/
def readPort (r : Nat × Option (Nat × Nat × Nat)) (q : PortSt) : PortSt := { q with latch := r.2, readData := BitVec.ofNat 64 r.1 }

theorem readAt_sized {p : Port} {off size : Nat} {s : State} (h : regSize off size = true) : readAt p off size s =
    takeCounts p off size ((fromLatch p off size s).getD (freshRead p off size s)).1
      (modPort p (readPort ((fromLatch p off size s).getD (freshRead p off size s))) s) := by
  rw [readAt, h]
  rfl

theorem fromLatch_none {p : Port} {off size : Nat} {s : State} (h : (portOf p s).latch = none) : fromLatch p off size s = none := by
  rw [fromLatch, h]

theorem fromLatch_held {p : Port} {off size b n v : Nat} {s : State} (h : (portOf p s).latch = some (b, n, v)) (hlow : b ≤ off)
    (hhigh : off + size ≤ b + n) : ∃ l, fromLatch p off size s = some (bytesOf v (off - b) size, l) := by
  simp only [fromLatch, h, decide_eq_true hlow, decide_eq_true hhigh, Bool.and_self, if_true]
  exact ⟨_, rfl⟩

/-- What a read takes from its counters changes neither what it answered nor memory, channels, flash and flags. -/
def ReadKeeps (p : Port) (s t : State) : Prop :=
  (portOf p t).readData = (portOf p s).readData ∧ (portOf p t).latch = (portOf p s).latch ∧ t.memory.fast = s.memory.fast ∧
    (portOf p t).mem = (portOf p s).mem ∧ t.slots = s.slots ∧ t.flash = s.flash ∧ t.devFlags = s.devFlags ∧
    portOf (peerOf p) t = portOf (peerOf p) s

theorem ReadKeeps.refl (p : Port) (s : State) : ReadKeeps p s s := ⟨rfl, rfl, rfl, rfl, rfl, rfl, rfl, rfl⟩

theorem readKeeps_modLink (p : Port) (l : Nat) (f : Link → Link) (s : State) : ReadKeeps p s (modLink l f s) := by
  cases p <;> exact ⟨rfl, rfl, rfl, rfl, rfl, rfl, rfl, rfl⟩

theorem readKeeps_modStack (p : Port) (m : Nat) (f : StackSt → StackSt) (s : State) : ReadKeeps p s (modStack m f s) := by
  cases p <;> exact ⟨rfl, rfl, rfl, rfl, rfl, rfl, rfl, rfl⟩

theorem readKeeps_takeCounts (p : Port) (off size v : Nat) (s : State) : ReadKeeps p s (takeCounts p off size v s) := by
  unfold takeCounts
  extract_lets lo hi l m
  split
  · exact .refl p s
  · split
    · cases p <;> exact ⟨rfl, rfl, rfl, rfl, rfl, rfl, rfl, rfl⟩
    · split
      · split
        · exact readKeeps_modLink _ _ _ _
        · split
          · exact readKeeps_modLink _ _ _ _
          · split
            · exact readKeeps_modLink _ _ _ _
            · exact .refl p s
      · split
        · split
          · exact readKeeps_modStack _ _ _ _
          · split
            · exact readKeeps_modStack _ _ _ _
            · exact .refl p s
        · exact .refl p s

/-- A read of BAR0 answers what its latch or its register gives. -/
theorem readAt_cases {p : Port} {off size : Nat} {s : State} {r : Nat × Option (Nat × Nat × Nat)} (h : regSize off size = true)
    (hr : (fromLatch p off size s).getD (freshRead p off size s) = r) :
    (portOf p (readAt p off size s)).readData = BitVec.ofNat 64 r.1 ∧ (portOf p (readAt p off size s)).latch = r.2 ∧
      (readAt p off size s).memory.fast = s.memory.fast ∧ (portOf p (readAt p off size s)).mem = (portOf p s).mem ∧
      (readAt p off size s).slots = s.slots ∧ (readAt p off size s).flash = s.flash ∧ (readAt p off size s).devFlags = s.devFlags ∧
      portOf (peerOf p) (readAt p off size s) = portOf (peerOf p) s := by
  obtain ⟨hdata, hlatch, hfast, hmem, hslots, hflash, hflags, hpeer⟩ := readKeeps_takeCounts p off size r.1 (modPort p (readPort r) s)
  rw [readAt_sized h, hr]
  refine ⟨hdata.trans ?_, hlatch.trans ?_, hfast.trans ?_, hmem.trans ?_, hslots.trans ?_, hflash.trans ?_, hflags.trans ?_, hpeer.trans ?_⟩ <;>
    cases p <;> rfl

theorem completes_latchedRead_badSize {p : Port} {off : BitVec 24} {size : Nat} {s : State} (h : regSize off.toNat size = false) :
    Completes (.latchedRead p off size) s fun t => OnlyPort p s t ∧ (portOf p t).readData = 0 ∧ (portOf p t).latch = none := by
  have hexec : execLatchedRead p off size s = .next (readsAs p 0 (endLatch p s)) := by
    rw [execLatchedRead, readAt, h]
    rfl
  refine ⟨_, hexec, ?_, ?_, ?_⟩ <;> cases p <;> rfl

/-! ## The counters of a stack -/

theorem vget_stk_modStack (m : Fin 24) (f : StackSt → StackSt) (s : State) :
    vget (modStack m f s).memory.stk m {} = f (vget s.memory.stk m {}) := by
  show vget (vmod s.memory.stk m f) m {} = _
  rw [vget_vmod _ _ _ _ _ m.isLt, if_pos rfl]

/-- A read of a stack's counter register at an offset. -/
theorem stackCount_offset (m : Fin 24) (high : Bool) :
    let off := 0x300008 + 0x100 * m.val + (if high then 4 else 0)
    regSize off (if high then 4 else 8) = true ∧ off / 8 * 8 = 0x300008 + 0x100 * m.val ∧ off % 8 = (if high then 4 else 0) := by
  revert m
  cases high <;> decide

theorem regWord_stackCounts {p : Port} {s : State} (m : Fin 24) (hup : regionsUp s = true) : regWord p (0x300008 + 0x100 * m.val) s =
    (vget s.memory.stk m {}).laneCorrected.toNat + (vget s.memory.stk m {}).uncorrectable.toNat * 2 ^ 32 := by
  have hm := m.isLt
  have hnot {a b x : Nat} (h : b ≤ x) : (decide (a ≤ x) && decide (x < b)) = false := by
    rw [decide_eq_false (Nat.not_lt.2 h), Bool.and_false]
  have hmem : memoryWord (0x300008 + 0x100 * m.val - 0x300000) s = stackWord m.val 8 s := by
    have hstack : (0x300008 + 0x100 * m.val - 0x300000) / 0x100 = m.val := by omega
    have hoff : (0x300008 + 0x100 * m.val - 0x300000) % 0x100 = 8 := by omega
    rw [memoryWord, if_pos (by omega), hstack, hoff]
  rw [regWord, if_neg (by omega), hup, if_neg (by decide), if_neg (by omega), if_neg (by omega), hnot (by omega), if_neg (by decide),
    hnot (by omega), if_neg (by decide)]
  rw [if_pos (by rw [Bool.and_eq_true, decide_eq_true_iff, decide_eq_true_iff]; omega), hmem]
  rfl

theorem takeCounts_stackBoth {p : Port} {s : State} (m : Fin 24) (v : Nat) (hup : regionsUp s = true) :
    takeCounts p (0x300008 + 0x100 * m.val) 8 v s = modStack m (fun k => { k with
      laneCorrected := k.laneCorrected - BitVec.ofNat 32 v, uncorrectable := k.uncorrectable - BitVec.ofNat 32 (v / 2 ^ 32) }) s := by
  have hm := m.isLt
  unfold takeCounts
  extract_lets lo hi l n
  have hn : n = m.val := by show (0x300008 + 0x100 * m.val - 0x300000) / 0x100 = _; omega
  rw [hup, if_neg (by decide), if_neg (by rw [beq_iff_eq]; omega),
    if_neg (by rw [Bool.and_eq_true, decide_eq_true_iff, decide_eq_true_iff]; omega),
    if_pos (by rw [Bool.and_eq_true, decide_eq_true_iff, decide_eq_true_iff]; omega), if_pos (by rw [beq_iff_eq]; omega), hn]
  rfl

theorem takeCounts_stackHigh {p : Port} {s : State} (m : Fin 24) (v : Nat) (hup : regionsUp s = true) :
    takeCounts p (0x300008 + 0x100 * m.val + 4) 4 v s =
      modStack m (fun k => { k with uncorrectable := k.uncorrectable - BitVec.ofNat 32 v }) s := by
  have hm := m.isLt
  unfold takeCounts
  extract_lets lo hi l n
  have hn : n = m.val := by show (0x300008 + 0x100 * m.val + 4 - 0x300000) / 0x100 = _; omega
  rw [hup, if_neg (by decide), if_neg (by rw [beq_iff_eq]; omega),
    if_neg (by rw [Bool.and_eq_true, decide_eq_true_iff, decide_eq_true_iff]; omega),
    if_pos (by rw [Bool.and_eq_true, decide_eq_true_iff, decide_eq_true_iff]; omega), if_neg (by rw [beq_iff_eq]; omega),
    if_pos (by rw [beq_iff_eq]; omega), hn]

/-- The halves of a word of two counters. -/
theorem bytesOf_pair (lo hi : W32) : bytesOf (lo.toNat + hi.toNat * 2 ^ 32) 0 8 = lo.toNat + hi.toNat * 2 ^ 32 ∧
    bytesOf (lo.toNat + hi.toNat * 2 ^ 32) 4 4 = hi.toNat := by
  have h1 := lo.isLt
  have h2 := hi.isLt
  simp only [bytesOf]
  omega

theorem pair_halves (lo hi : W32) : BitVec.ofNat 32 (lo.toNat + hi.toNat * 2 ^ 32) = lo ∧
    BitVec.ofNat 32 ((lo.toNat + hi.toNat * 2 ^ 32) / 2 ^ 32) = hi := by
  have h1 := lo.isLt
  have h2 := hi.isLt
  constructor <;> apply BitVec.eq_of_toNat_eq <;> rw [BitVec.toNat_ofNat] <;> omega

/-- What is counted of a stack in the cycle of a read of its counters. -/
def countedStack (co : Word) (k : StackSt) : StackSt :=
  { k with laneCorrected := k.laneCorrected + co.setWidth 32, uncorrectable := k.uncorrectable + (co >>> 32).setWidth 32 }

theorem regionsUp_modPort (p : Port) (f : PortSt → PortSt) (s : State) : regionsUp (modPort p f s) = regionsUp s := by cases p <;> rfl

theorem sameMemory_modStack_modPort {p : Port} {f : PortSt → PortSt} (hf : ∀ q, (f q).mem = q.mem) (m : Nat) (g h : StackSt → StackSt) (s : State) :
    SameMemory s { modStack m g (modStack m h (modPort p f s)) with memory := s.memory } := by
  cases p
  · exact ⟨rfl, hf _, rfl⟩
  · exact ⟨rfl, rfl, hf _⟩

theorem fast_modStack_modPort {p : Port} {f : PortSt → PortSt} (m : Nat) (g h : StackSt → StackSt) (s : State) :
    (modStack m g (modStack m h (modPort p f s))).memory.fast = s.memory.fast := by cases p <;> rfl

theorem readData_modStack_readPort (p : Port) (r : Nat × Option (Nat × Nat × Nat)) (m : Nat) (g h : StackSt → StackSt) (s : State) :
    (portOf p (modStack m g (modStack m h (modPort p (readPort r) s)))).readData = BitVec.ofNat 64 r.1 := by cases p <;> rfl

theorem stk_modStack_modPort (p : Port) (f : PortSt → PortSt) (m : Fin 24) (g h : StackSt → StackSt) (s : State) :
    vget (modStack m g (modStack m h (modPort p f s))).memory.stk m {} = g (h (vget s.memory.stk m {})) := by
  rw [vget_stk_modStack, vget_stk_modStack]
  cases p <;> rfl

theorem completes_stackCountsRead_both {p : Port} (m : Fin 24) (co : Word) {s : State} (hup : regionsUp s = true) (hlatch : (portOf p s).latch = none) :
    Completes (.stackCountsRead p m 8 false co) s fun t => SameMemory s { t with memory := s.memory } ∧ t.memory.fast = s.memory.fast ∧
      (portOf p t).readData = BitVec.ofNat 64
        ((vget s.memory.stk m {}).laneCorrected.toNat + (vget s.memory.stk m {}).uncorrectable.toNat * 2 ^ 32) ∧
      (vget t.memory.stk m {}).laneCorrected = co.setWidth 32 ∧ (vget t.memory.stk m {}).uncorrectable = (co >>> 32).setWidth 32 := by
  obtain ⟨hsize, hbase, hbyte⟩ := stackCount_offset m false
  let v := (vget s.memory.stk m {}).laneCorrected.toNat + (vget s.memory.stk m {}).uncorrectable.toNat * 2 ^ 32
  obtain ⟨l, hr⟩ : ∃ l, (fromLatch p (0x300008 + 0x100 * m.val) 8 s).getD (freshRead p (0x300008 + 0x100 * m.val) 8 s) = (v, l) := by
    refine ⟨(freshRead p (0x300008 + 0x100 * m.val) 8 s).2, ?_⟩
    rw [fromLatch_none hlatch, Option.getD_none]
    refine Prod.ext ?_ rfl
    show bytesOf (regWord p ((0x300008 + 0x100 * m.val) / 8 * 8) s) ((0x300008 + 0x100 * m.val) % 8) 8 = v
    rw [show (0x300008 + 0x100 * m.val) / 8 * 8 = 0x300008 + 0x100 * m.val from hbase, show (0x300008 + 0x100 * m.val) % 8 = 0 from hbyte,
      regWord_stackCounts m hup]
    exact (bytesOf_pair _ _).1
  have hexec : execStackCountsRead p m 8 false co s = .next (modStack m (countedStack co) (modStack m (fun k => { k with
      laneCorrected := k.laneCorrected - BitVec.ofNat 32 v, uncorrectable := k.uncorrectable - BitVec.ofNat 32 (v / 2 ^ 32) })
      (modPort p (readPort (v, l)) s))) := by
    have hread : readAt p (0x300008 + 0x100 * m.val) 8 s = _ := readAt_sized hsize
    rw [hr, takeCounts_stackBoth m _ ((regionsUp_modPort _ _ _).trans hup)] at hread
    exact congrArg (fun t => Host.Outcome.next (modStack m (countedStack co) t)) hread
  refine ⟨_, hexec, sameMemory_modStack_modPort (f := readPort (v, l)) (fun _ => rfl) _ _ _ _, fast_modStack_modPort _ _ _ _, readData_modStack_readPort _ _ _ _ _ _, ?_, ?_⟩
  · rw [stk_modStack_modPort, countedStack, (pair_halves _ _).1, BitVec.sub_self, BitVec.zero_add]
  · rw [stk_modStack_modPort, countedStack, (pair_halves _ _).2, BitVec.sub_self, BitVec.zero_add]

theorem completes_stackCountsRead_high {p : Port} (m : Fin 24) (co : Word) {s : State} (hup : regionsUp s = true) (hlatch : (portOf p s).latch = none) :
    Completes (.stackCountsRead p m 4 true co) s fun t => (portOf p t).readData = (vget s.memory.stk m {}).uncorrectable.setWidth 64 ∧
      (vget t.memory.stk m {}).laneCorrected = (vget s.memory.stk m {}).laneCorrected + co.setWidth 32 ∧
      (vget t.memory.stk m {}).uncorrectable = (co >>> 32).setWidth 32 := by
  obtain ⟨hsize, hbase, hbyte⟩ := stackCount_offset m true
  let v := (vget s.memory.stk m {}).uncorrectable.toNat
  obtain ⟨l, hr⟩ : ∃ l, (fromLatch p (0x300008 + 0x100 * m.val + 4) 4 s).getD (freshRead p (0x300008 + 0x100 * m.val + 4) 4 s) = (v, l) := by
    refine ⟨(freshRead p (0x300008 + 0x100 * m.val + 4) 4 s).2, ?_⟩
    rw [fromLatch_none hlatch, Option.getD_none]
    refine Prod.ext ?_ rfl
    show bytesOf (regWord p ((0x300008 + 0x100 * m.val + 4) / 8 * 8) s) ((0x300008 + 0x100 * m.val + 4) % 8) 4 = v
    rw [show (0x300008 + 0x100 * m.val + 4) / 8 * 8 = 0x300008 + 0x100 * m.val from hbase,
      show (0x300008 + 0x100 * m.val + 4) % 8 = 4 from hbyte, regWord_stackCounts m hup]
    exact (bytesOf_pair _ _).2
  have hexec : execStackCountsRead p m 4 true co s = .next (modStack m (countedStack co)
      (modStack m (fun k => { k with uncorrectable := k.uncorrectable - BitVec.ofNat 32 v }) (modPort p (readPort (v, l)) s))) := by
    have hread : readAt p (0x300008 + 0x100 * m.val + 4) 4 s = _ := readAt_sized hsize
    rw [hr, takeCounts_stackHigh m _ ((regionsUp_modPort _ _ _).trans hup)] at hread
    exact congrArg (fun t => Host.Outcome.next (modStack m (countedStack co) t)) hread
  refine ⟨_, hexec, ?_, ?_, ?_⟩
  · rw [readData_modStack_readPort]
    exact BitVec.eq_of_toNat_eq (by rw [BitVec.toNat_ofNat, BitVec.toNat_setWidth])
  · rw [stk_modStack_modPort, countedStack]
  · rw [stk_modStack_modPort, countedStack, BitVec.ofNat_toNat, BitVec.setWidth_eq, BitVec.sub_self, BitVec.zero_add]

end Sys2Proof.Machine
end

section
/-!
Flag clears, enables, the report ring and register writes (Machine/Registers.lean, R6 to R8, R430, R431, R447 to R457).
-/

namespace Sys2Proof.Machine

/-! ## DEV_FLAGS and its enables -/

theorem execRcDroppedRead_up {p : Port} {s : State} (whole : Bool) (co : BitVec 32) (h : regionsUp s = true) :
    execRcDroppedRead p whole co s = .next (modPort p (fun q => { q with
      latch := none, readData := q.rcDropped.setWidth 64, rcDropped := if whole then co else q.rcDropped + co }) s) := by
  rw [execRcDroppedRead, readAccess, h, if_pos rfl, portOf_endLatch]
  cases whole
  · cases p <;> rfl
  · cases p <;> simp [modPort, readsAs, endLatch, portOf]

/-- Flags raised one after another. -/
theorem foldl_raiseDev_cases (is : List Nat) (s : State) : OnlyFlags s (is.foldl (fun s i => raiseDev i s) s) ∧
    (is.foldl (fun s i => raiseDev i s) s).devFlags = is.foldl (fun f i => f ||| BitVec.ofNat 29 (2 ^ i)) s.devFlags := by
  induction is generalizing s with
  | nil => exact ⟨.refl s, rfl⟩
  | cons i is ih =>
    obtain ⟨hrest, hflags⟩ := ih (raiseDev i s)
    exact ⟨(onlyFlags_raiseDev i s).trans hrest, hflags.trans (by rw [List.foldl_cons, devRaised_raiseDev])⟩

theorem devCounts_sendMsix (p : Port) (v : Nat) (s : State) : (sendMsix p v s).devCounts = s.devCounts := by
  unfold sendMsix
  split
  · rfl
  · split
    · exact modPort_devCounts _ _ _
    · rfl

theorem devCounts_flagMessage (p : Port) (i : Nat) (s : State) : (flagMessage p i s).devCounts = s.devCounts := by
  unfold flagMessage
  split
  · exact devCounts_sendMsix _ _ _
  · rfl

theorem devCounts_raiseDev (i : Nat) (s : State) : (raiseDev i s).devCounts = vmod s.devCounts i (· + 1) := by
  unfold raiseDev
  extract_lets t
  split
  · rfl
  · rw [devCounts_flagMessage, devCounts_flagMessage]

theorem devCounts_foldl_raiseDev (is : List Nat) (hnodup : is.Nodup) (s : State) (j : Fin 29) :
    (is.foldl (fun s i => raiseDev i s) s).devCounts[j] = s.devCounts[j] + if j.val ∈ is then 1 else 0 := by
  induction is generalizing s with
  | nil => simp
  | cons i is ih =>
    obtain ⟨hi, hnodup⟩ := List.nodup_cons.1 hnodup
    have hcount : (raiseDev i s).devCounts[j] = if j.val = i then s.devCounts[j] + 1 else s.devCounts[j] := by
      rw [devCounts_raiseDev]
      exact getElem_vmod _ _ _ _
    rw [List.foldl_cons, ih hnodup, hcount]
    by_cases hij : j.val = i
    · simp [hij, hi]
    · simp [hij]

theorem RegistersAnswer.of_onlyFlags {p : Port} {s t : State} (h : RegistersAnswer p s) (hflags : OnlyFlags s t) : RegistersAnswer p t := by
  have hmod := congrArg State.mod hflags
  have hA := congrArg State.portA hflags
  have hB := congrArg State.portB hflags
  obtain ⟨hfenced, hup⟩ := h
  refine ⟨?_, by rw [regionsUp, show t.mod = s.mod from hmod]; exact hup⟩
  cases p
  · exact (congrArg PortSt.fenced hA).trans hfenced
  · exact (congrArg PortSt.fenced hB).trans hfenced

theorem or_clear_or {w : Nat} (d v c : BitVec w) : ((d ||| c) &&& ~~~ v) ||| c = (d &&& ~~~ v) ||| c := by
  refine BitVec.eq_of_getLsbD_eq fun i hi => ?_
  simp only [BitVec.getLsbD_or, BitVec.getLsbD_and, BitVec.getLsbD_not]
  cases d.getLsbD i <;> cases c.getLsbD i <;> simp

theorem completes_devFlagsClear {p : Port} (value co : BitVec 29) {s : State} (h : RegistersAnswer p s) :
    Completes (.devFlagsClear p value co) s fun t => t.devFlags = (s.devFlags &&& ~~~ value) ||| co ∧ SameMemory s t ∧ t.slots = s.slots ∧
      t.links = s.links ∧ (∀ i : Fin 29, t.devCounts[i] = s.devCounts[i] + if co.getLsbD i then 1 else 0) ∧ (co = 0 → t.msix = s.msix) := by
  let is := (List.range 29).filter fun i => co.toNat.testBit i
  obtain ⟨u, hu⟩ : ∃ u, u = is.foldl (fun s i => raiseDev i s) s := ⟨_, rfl⟩
  have hflags := (foldl_raiseDev_cases is s).1
  have hdev := (foldl_raiseDev_cases is s).2
  have hcounts := devCounts_foldl_raiseDev is (List.nodup_range.filter _) s
  rw [← hu] at hflags hdev hcounts
  rw [foldl_or_bits] at hdev
  have hexec : execDevFlagsClear p value co s = .next { endLatch p u with devFlags := (u.devFlags &&& ~~~ value) ||| co } := by
    have hraise : raiseEach 29 co.toNat raiseDev s = u := hu.symm
    rw [execDevFlagsClear, hraise, regAccess_answers (h.of_onlyFlags hflags), endLatch, modPort_devFlags]
  refine ⟨_, hexec, ?_, ?_, ?_, ?_, fun i => ?_, fun hzero => ?_⟩
  · exact (congrArg (fun d => (d &&& ~~~ value) ||| co) hdev).trans (or_clear_or _ _ _)
  · refine hflags.sameMemory.trans ?_
    cases p <;> exact ⟨rfl, rfl, rfl⟩
  · exact (modPort_slots _ _ _).trans (slots_of_onlyFlags hflags)
  · exact (links_endLatch p u).trans hflags.links
  · have hmem : i.val ∈ is ↔ co.getLsbD i = true := by
      rw [List.mem_filter, List.mem_range, and_iff_right i.isLt]
      rfl
    have hi : (endLatch p u).devCounts[i] = u.devCounts[i] := by rw [endLatch, modPort_devCounts]
    exact hi.trans ((hcounts i).trans (congrArg _ (if_congr hmem rfl rfl)))
  · have hempty : is = [] := by
      show (List.range 29).filter (fun i => co.toNat.testBit i) = []
      rw [hzero]
      decide
    rw [hempty] at hu
    exact (modPort_msix _ _ _).trans (by rw [hu]; rfl)

/-- The flags whose enable bit a write raises. -/
def freshFlags (p : Port) (value : BitVec 29) (s : State) : BitVec 29 := value &&& ~~~ (portOf p s).flagEnable &&& s.devFlags

/-- A port with its enables written. -/
def enabledPort (value : BitVec 29) (q : PortSt) : PortSt := { q with latch := none, flagEnable := value }

theorem execFlagEnableWrite_answers {p : Port} (value : BitVec 29) {s : State} (h : RegistersAnswer p s) : execFlagEnableWrite p value s =
    .next (if freshFlags p value s != 0 && (portOf p s).flagEn then sendMsix p (portOf p s).flagVector.toNat (modPort p (enabledPort value) s)
      else modPort p (enabledPort value) s) := by
  rw [execFlagEnableWrite, regAccess_answers h]
  cases p <;> rfl

theorem completes_flagEnableWrite {p : Port} (value : BitVec 29) {s : State} (h : RegistersAnswer p s) :
    Completes (.flagEnableWrite p value) s fun t => (portOf p t).flagEnable = value ∧ t.devFlags = s.devFlags ∧ SameMemory s t ∧
      (freshFlags p value s = 0 ∨ (portOf p s).flagEn = false →
        { t with msix := s.msix } = modPort p (fun q => { q with latch := none, flagEnable := value }) s ∧ t.msix = s.msix) ∧
      (freshFlags p value s ≠ 0 → (portOf p s).flagEn = true →
        (tgetD (portOf p s).msixTable (4 * (portOf p s).flagVector.toNat + 3) 1).getLsbD 0 = false →
        t.msix = s.msix ++ [(p == .B, (portOf p s).flagVector.toNat)]) := by
  let u := modPort p (enabledPort value) s
  have hu : (portOf p u).flagEnable = value ∧ u.devFlags = s.devFlags ∧ SameMemory s u ∧ u.msix = s.msix := by
    cases p <;> exact ⟨rfl, rfl, ⟨rfl, rfl, rfl⟩, rfl⟩
  obtain ⟨hval, hdev, hmem, hmsix⟩ := hu
  have hexec := execFlagEnableWrite_answers value h
  by_cases hsend : (freshFlags p value s != 0 && (portOf p s).flagEn) = true
  · rw [if_pos hsend] at hexec
    obtain ⟨hfresh, hen⟩ := Bool.and_eq_true_iff.1 hsend
    refine ⟨_, hexec, ?_, (devFlags_sendMsix _ _ _).trans hdev, hmem.trans (onlyFlags_sendMsix _ _ _).sameMemory, ?_, fun _ _ hmask => ?_⟩
    · refine Eq.trans ?_ hval
      unfold sendMsix
      split
      · rfl
      · split
        · rw [portOf_modPort]
        · cases p <;> rfl
    · rintro (hzero | hoff)
      · exact absurd hzero (bne_iff_ne.1 hfresh)
      · exact absurd (hen.symm.trans hoff) nofun
    · have hport : portOf p u = enabledPort value (portOf p s) := portOf_modPort _ _ _
      show (sendMsix p _ u).msix = _
      rw [sendMsix_open (by rw [hport]; exact h.1) (by rw [hport]; exact hmask)]
      exact congrArg (· ++ _) hmsix
  · rw [if_neg hsend] at hexec
    refine ⟨_, hexec, hval, hdev, hmem, fun _ => ⟨?_, hmsix⟩, fun hfresh hen => absurd (by rw [bne_iff_ne.2 hfresh, hen, Bool.and_self]) hsend⟩
    cases p <;> rfl

/-! ## BELL_ERROR -/

theorem slotOwner_endLatch (p : Port) (slot : Nat) (s : State) : slotOwner slot (endLatch p s) = slotOwner slot s := by
  rw [slotOwner, slotOwner, endLatch, chanOf_modPort]

/-- A slot whose error its owner clears. -/
def clearBell (p : Port) (slot : Nat) (s : State) : State :=
  if slotOwner slot s == some p then modSlot slot (fun x => { x with bellError := false }) (endLatch p s) else endLatch p s

theorem execChanBellClear_answers {p : Port} (slot : Fin 4096) (co : Bool) {s : State} (h : RegistersAnswer p s) :
    execChanBellClear p slot co s = .next (if co then raiseBellError slot (clearBell p slot s) else clearBell p slot s) := by
  rw [execChanBellClear, regAccess_answers h, slotOwner_endLatch]
  rfl

theorem completes_chanBellClear_owner {p : Port} {slot : Fin 4096} {s : State} (h : RegistersAnswer p s) (howner : slotOwner slot s = some p) :
    Completes (.chanBellClear p slot false) s fun t => OnlySlot slot (accessed p s) t ∧
      slotOf slot t = { slotOf slot s with bellError := false } := by
  have hexec : execChanBellClear p slot false s = .next (modSlot slot (fun x => { x with bellError := false }) (accessed p s)) := by
    rw [execChanBellClear_answers slot false h, clearBell, howner, beq_self_eq_true, if_pos rfl, if_neg Bool.false_ne_true]
    rfl
  refine ⟨_, hexec, onlySlot_modSlot _ _ _, ?_⟩
  rw [slotOf_modSlot, accessed, slotOf_modPort]

theorem execChanBellClear_other {p : Port} {slot : Fin 4096} {s : State} (h : RegistersAnswer p s) (howner : slotOwner slot s ≠ some p) :
    execChanBellClear p slot false s = .next (accessed p s) := by
  rw [execChanBellClear_answers slot false h, clearBell, beq_eq_false_iff_ne.2 howner, if_neg Bool.false_ne_true, if_neg Bool.false_ne_true]
  rfl

theorem completes_chanBellClear_coincident {p : Port} {slot : Fin 4096} {s : State} (h : RegistersAnswer p s) :
    Completes (.chanBellClear p slot true) s fun t => (slotOf slot t).bellError = true ∧
      (slotOf slot t).bellCount = (slotOf slot s).bellCount + 1 ∧ t.devFlags.getLsbD 27 = true := by
  have hcount : (slotOf slot (clearBell p slot s)).bellCount = (slotOf slot s).bellCount := by
    unfold clearBell
    split
    · rw [slotOf_modSlot, endLatch, slotOf_modPort]
    · rw [endLatch, slotOf_modPort]
  have hslot := slotOf_raiseBellError slot (clearBell p slot s)
  refine ⟨_, execChanBellClear_answers slot true h, congrArg Slot.bellError hslot, (congrArg Slot.bellCount hslot).trans (by rw [hcount]), ?_⟩
  show (raiseBellError slot (clearBell p slot s)).devFlags.getLsbD 27 = true
  rw [raiseBellError, devRaised_raiseDev, BitVec.getLsbD_or]
  exact Bool.or_true _

/-! ## The report ring -/

theorem execRcCfgWrite_answers {p : Port} (value : W32) {s : State} (h : RegistersAnswer p s) : execRcCfgWrite p value s =
    .next (modPort p (fun q => { q with
      latch := none, rcEnable := value.getLsbD 5, rcIrq := value.getLsbD 6, rcVector := BitVec.ofNat 11 (fieldNat value 16 11)
      rcLog2 := if q.rcEnable = false ∧ 16 ≤ fieldNat value 0 5 ∧ fieldNat value 0 5 ≤ 30 then BitVec.ofNat 5 (fieldNat value 0 5) else q.rcLog2
      rcWrite := if value.getLsbD 5 = true ∧ q.rcEnable = false then q.rcRead else q.rcWrite
      cards := if value.getLsbD 5 = true then q.cards else [] }) s) := by
  rw [execRcCfgWrite, regAccess_answers h, endLatch, modPort_modPort]
  simp only [bitOf, Bool.and_eq_true, Bool.not_eq_true', decide_eq_true_eq, and_assoc]
  rfl

theorem onlyFlags_portOf {s t : State} (h : OnlyFlags s t) (p : Port) : { portOf p t with msixPending := [] } = { portOf p s with msixPending := [] } := by
  have hA := congrArg State.portA h
  have hB := congrArg State.portB h
  cases p
  · exact hA
  · exact hB

/-- A card placed in its ring. -/
def placedPort (pad base off size : Nat) (c : List Byte) (rest : List (List Byte)) (q : PortSt) : PortSt :=
  { q with
    cards := rest, rcWrite := q.rcWrite + BitVec.ofNat 64 (pad + c.length)
    mem := memWrite (memWrite q.mem (base + off) ((padCard pad).take pad)) (base + (off + pad) % size) c }

theorem placeCard_eq {p : Port} {pad base off size : Nat} {c : List Byte} {rest : List (List Byte)} {s : State} (hfence : (portOf p s).fenced = false) :
    modPort p (fun q => { q with cards := rest, rcWrite := q.rcWrite + BitVec.ofNat 64 (pad + c.length) })
      (hostWrite p (base + (off + pad) % size) c
        (if pad == 0 then s else hostWrite p (base + off) ((padCard pad).take pad) s)) = modPort p (placedPort pad base off size c rest) s := by
  have hpad : (if pad == 0 then s else hostWrite p (base + off) ((padCard pad).take pad) s) =
      modPort p (fun q => { q with mem := memWrite q.mem (base + off) ((padCard pad).take pad) }) s := by
    by_cases h : pad = 0
    · rw [h, if_pos (beq_self_eq_true 0), List.take_zero]
      cases p <;> rfl
    · rw [if_neg (by rw [beq_iff_eq]; exact h), hostWrite_open hfence]
  rw [hpad, hostWrite_open (by rw [portOf_modPort]; exact hfence), modPort_modPort, modPort_modPort]
  cases p <;> rfl

theorem completes_reportCardPlace {p : Port} {s : State} {c : List Byte} {rest : List (List Byte)} :
    let q := portOf p s
    let size := 2 ^ q.rcLog2.toNat
    let off := q.rcWrite.toNat % size
    let pad := if size < off + c.length then size - off else 0
    q.cards = c :: rest → q.rcEnable = true → q.fenced = false → q.linkUp = true → s.mod.stage = 7 →
    q.rcWrite.toNat + pad + c.length - q.rcRead.toNat ≤ size → Completes (.reportCardPlace p) s fun t =>
      (portOf p t).cards = rest ∧ (portOf p t).rcWrite = q.rcWrite + BitVec.ofNat 64 (pad + c.length) ∧ t.memory = s.memory ∧
      portOf (peerOf p) t = portOf (peerOf p) s ∧
      (portOf p t).mem = memWrite (memWrite q.mem (q.rcBase.toNat + off) ((padCard pad).take pad)) (q.rcBase.toNat + (off + pad) % size) c := by
  intro q size off pad hcards hen hfence hup hstage hroom
  let u := modPort p (placedPort pad q.rcBase.toNat off size c rest) s
  have hcond : ¬ (!q.rcEnable || q.fenced || !q.linkUp || s.mod.stage != 7 ||
      decide (size < q.rcWrite.toNat + pad + c.length - q.rcRead.toNat)) = true := by
    rw [hen, hfence, hup, hstage, decide_eq_false (Nat.not_lt.2 hroom)]
    decide
  have hexec : execReportCardPlace p s = .next (if (portOf p u).rcIrq then sendMsix p (portOf p s).rcVector.toNat u else u) := by
    have hirq : (portOf p u).rcIrq = q.rcIrq := by
      show (portOf p (modPort p (placedPort pad q.rcBase.toNat off size c rest) s)).rcIrq = _
      rw [portOf_modPort]
      rfl
    rw [hirq]
    unfold execReportCardPlace
    extract_lets q'
    split
    · next hnil => exact absurd (hcards.symm.trans hnil) nofun
    · next c' rest' hcons =>
      obtain ⟨rfl, rfl⟩ := List.cons.inj (hcards.symm.trans hcons)
      refine congrArg _ ((if_neg hcond).trans ?_)
      have hplace := placeCard_eq (pad := pad) (base := q.rcBase.toNat) (off := off) (size := size) (c := c) (rest := rest) hfence
      exact congrArg (fun y => if q.rcIrq then sendMsix p q.rcVector.toNat y else y) hplace
  have hport : portOf p u = placedPort pad q.rcBase.toNat off size c rest q := portOf_modPort _ _ _
  have hu : u.memory = s.memory ∧ portOf (peerOf p) u = portOf (peerOf p) s := ⟨modPort_memory _ _ _, portOf_peer_modPort _ _ _⟩
  refine ⟨_, hexec, ?_⟩
  split
  · have hsame := onlyFlags_portOf (onlyFlags_sendMsix p (portOf p s).rcVector.toNat u) p
    obtain ⟨hmem, hpeer, hfast⟩ := sendMsix_cases p (portOf p s).rcVector.toNat u
    have hcards' := congrArg PortSt.cards hsame
    have hwrite := congrArg PortSt.rcWrite hsame
    exact ⟨hcards'.trans (congrArg PortSt.cards hport), hwrite.trans (congrArg PortSt.rcWrite hport), hfast.trans hu.1, hpeer.trans hu.2,
      hmem.trans (congrArg PortSt.mem hport)⟩
  · rw [hport]
    exact ⟨rfl, rfl, hu.1, hu.2, rfl⟩

/-! ## Register writes -/

/-- A whole word written takes the old one's place. -/
theorem mergeBytes_whole (old v : Nat) : BitVec.ofNat 64 (mergeBytes old 0 8 v) = BitVec.ofNat 64 v := by
  apply BitVec.eq_of_toNat_eq
  simp only [mergeBytes, BitVec.toNat_ofNat]
  omega

theorem execRegisterWrite_fenced {p : Port} {off : BitVec 24} {size : Nat} {value : Word} {s : State} (h : (portOf p s).fenced = true) :
    execRegisterWrite p off size value s = .next s := by rw [execRegisterWrite, writeAt, if_pos h]

theorem execRegisterWrite_badSize {p : Port} {off : BitVec 24} {size : Nat} {value : Word} {s : State} (h : (portOf p s).fenced = false)
    (hsize : regSize off.toNat size = false) : execRegisterWrite p off size value s = .next (accessed p s) := by
  rw [execRegisterWrite, writeAt, h, hsize, if_neg Bool.false_ne_true]
  rfl

theorem completes_registerWrite_scratch {p : Port} {value : Word} {s : State} (h : (portOf p s).fenced = false) (hstage : s.mod.stage ≠ 0) :
    Completes (.registerWrite p 0x200 8 value) s fun t => { t with mod := s.mod } = accessed p s ∧ t.mod = { s.mod with scratch := value } := by
  have hmod : (endLatch p s).mod = s.mod := modPort_mod _ _ _
  have hexec : execRegisterWrite p 0x200 8 value s = .next (modMod (fun m => { m with scratch := value }) (endLatch p s)) := by
    have hstage' : ¬ ((endLatch p s).mod.stage == 0) = true := by rw [hmod, beq_iff_eq]; exact hstage
    have hmerge (m : ModuleSt) : BitVec.ofNat 64 (mergeBytes m.scratch.toNat 0 8 value.toNat) = value := by
      rw [mergeBytes_whole, BitVec.ofNat_toNat, BitVec.setWidth_eq]
    rw [execRegisterWrite, writeAt, h, if_neg Bool.false_ne_true]
    have hinner : (if ((endLatch p s).mod.stage == 0) = true then endLatch p s else modMod (fun m => { m with
        scratch := BitVec.ofNat 64 (mergeBytes m.scratch.toNat 0 8 value.toNat) }) (endLatch p s)) =
        modMod (fun m => { m with scratch := value }) (endLatch p s) := by
      rw [if_neg hstage']
      simp only [hmerge]
    exact congrArg _ hinner
  refine ⟨_, hexec, ?_, ?_⟩
  · cases p <;> rfl
  · show { (endLatch p s).mod with scratch := value } = _
    rw [hmod]

theorem adminOffset : ∀ i : Fin 8, (BitVec.ofNat 24 (0x10100 + 16 * i.val)).toNat / 8 * 8 = 0x10100 + 16 * i.val ∧
    (BitVec.ofNat 24 (0x10100 + 16 * i.val)).toNat % 8 = 0 ∧ regSize (BitVec.ofNat 24 (0x10100 + 16 * i.val)).toNat 8 = true ∧
    adminField (BitVec.ofNat 24 (0x10100 + 16 * i.val)).toNat = true ∧ (0x10100 + 16 * i.val == 0x200) = false ∧
    (0x10100 + 16 * i.val - 0x10000 == 0x180) = false ∧ (0x10100 + 16 * i.val - 0x10000 == 0x188) = false ∧
    ((0x10100 + 16 * i.val - 0x10000) % 16 == 0) = true ∧ (0x10100 + 16 * i.val - 0x10000 - 0x100) / 16 = i.val := by decide

theorem execRegisterWrite_admin {p : Port} {value : Word} (i : Fin 8) {s : State} (h : (portOf p s).fenced = false) (hstage : 2 ≤ s.mod.stage.toNat) :
    ∃ old : Nat, execRegisterWrite p (BitVec.ofNat 24 (0x10100 + 16 * i.val)) 8 value s =
      .next (modPort p (writeAdmin (0x10100 + 16 * i.val - 0x10000) (mergeBytes old 0 8 value.toNat)) (endLatch p s)) := by
  obtain ⟨hbase, hbyte, hsize, hadmin, hne, _⟩ := adminOffset i
  have hstage' : ¬ (endLatch p s).mod.stage.toNat < 2 := by rw [endLatch, modPort_mod]; omega
  refine ⟨adminWord p (0x10100 + 16 * i.val) (endLatch p s), ?_⟩
  simp only [execRegisterWrite, writeAt, h, hbase, hbyte, hsize, hadmin, hne, if_neg hstage', Bool.not_true, Bool.false_eq_true, if_false, if_true]

theorem writeAdmin_sqBase {i : Fin 8} {old : Nat} {value : Word} {q : PortSt} (h : q.adminEnable = false) :
    writeAdmin (0x10100 + 16 * i.val - 0x10000) (mergeBytes old 0 8 value.toNat) q = { q with adminSqBase := q.adminSqBase.set i value } := by
  obtain ⟨_, _, _, _, _, hcq, hcfg, heven, hindex⟩ := adminOffset i
  have hvalue : BitVec.ofNat 64 (mergeBytes old 0 8 value.toNat) = value := by rw [mergeBytes_whole, BitVec.ofNat_toNat, BitVec.setWidth_eq]
  have hset : vset q.adminSqBase i.val value = q.adminSqBase.set i value := by
    refine Vector.ext fun j hj => ?_
    simp only [vset, Vector.getElem_setIfInBounds, Vector.getElem_set]
  simp only [writeAdmin, h, hcq, hcfg, heven, hindex, hvalue, hset, Bool.false_eq_true, if_false, if_true]

theorem writeAdmin_enabled {off v : Nat} {q : PortSt} (h : q.adminEnable = true) : writeAdmin off v q = q := by rw [writeAdmin, if_pos h]

theorem completes_registerWrite_admin {p : Port} {value : Word} (i : Fin 8) {s : State} (h : (portOf p s).fenced = false)
    (hstage : 2 ≤ s.mod.stage.toNat) :
    ((portOf p s).adminEnable = false → Completes (.registerWrite p (BitVec.ofNat 24 (0x10100 + 16 * i.val)) 8 value) s fun t => OnlyPort p s t ∧
      portOf p t = { portOf p s with latch := none, adminSqBase := (portOf p s).adminSqBase.set i value }) ∧
    ((portOf p s).adminEnable = true → Completes (.registerWrite p (BitVec.ofNat 24 (0x10100 + 16 * i.val)) 8 value) s fun t => t = accessed p s) := by
  obtain ⟨old, hexec⟩ := execRegisterWrite_admin (value := value) i h hstage
  refine ⟨fun hoff => ⟨_, hexec, ?_, ?_⟩, fun hon => ⟨_, hexec, ?_⟩⟩
  · rw [endLatch, modPort_modPort]
    exact onlyPort_modPort _ _ _
  · rw [portOf_modPort, portOf_endLatch, writeAdmin_sqBase (q := { portOf p s with latch := none }) hoff]
  · have hid : modPort p (writeAdmin (0x10100 + 16 * i.val - 0x10000) (mergeBytes old 0 8 value.toNat)) (endLatch p s) =
        modPort p (fun q => { q with latch := none }) s := by
      cases p
      · exact congrArg (fun q => { s with portA := q }) (writeAdmin_enabled (q := { s.portA with latch := none }) hon)
      · exact congrArg (fun q => { s with portB := q }) (writeAdmin_enabled (q := { s.portB with latch := none }) hon)
    exact hid

/-- A write of a whole word where the region answers. -/
theorem execRegisterWrite_answered {p : Port} {off : BitVec 24} {value : Word} {s : State} (h : RegistersAnswer p s)
    (hoff : regSize off.toNat 8 = true ∧ off.toNat / 8 * 8 = off.toNat ∧ (off.toNat == 0x200) = false ∧ adminField off.toNat = false) :
    execRegisterWrite p off 8 value s = .next (writeAnswered p off.toNat 8 value.toNat (endLatch p s)) := by
  obtain ⟨hfenced, hup⟩ := h
  obtain ⟨hsize, hbase, hne, hadmin⟩ := hoff
  have hup' : regionsUp (endLatch p s) = true := (regionsUp_modPort _ _ _).trans hup
  simp only [execRegisterWrite, writeAt, hfenced, hsize, hbase, hne, hadmin, hup', Bool.not_true, Bool.false_eq_true, if_false, if_true]

/-- A whole word written to a host-port register that has no row of its own. -/
theorem execRegisterWrite_port {p : Port} {off : BitVec 24} {value : Word} {s : State} (h : RegistersAnswer p s)
    (hoff : regSize off.toNat 8 = true ∧ off.toNat / 8 * 8 = off.toNat ∧ (off.toNat == 0x200) = false ∧ adminField off.toNat = false)
    (hbyte : off.toNat % 8 = 0) (hport : 0x10000 ≤ off.toNat ∧ off.toNat < 0x14000) : ∃ old : Nat, execRegisterWrite p off 8 value s =
      .next (modPort p (writePort (off.toNat - 0x10000) (mergeBytes old 0 8 value.toNat)) (endLatch p s)) := by
  obtain ⟨hlow, hhigh⟩ := hport
  refine ⟨regWord p off.toNat (endLatch p s), ?_⟩
  rw [execRegisterWrite_answered h hoff, writeAnswered, hoff.2.1, hbyte, if_neg (by rw [Bool.and_eq_true, decide_eq_true_iff]; omega),
    if_pos (by rw [Bool.and_eq_true, decide_eq_true_iff, decide_eq_true_iff]; omega)]

theorem ofNat_mergeBytes (old : Nat) (value : Word) : BitVec.ofNat 64 (mergeBytes old 0 8 value.toNat) = value := by
  rw [mergeBytes_whole, BitVec.ofNat_toNat, BitVec.setWidth_eq]

/-- The vector number and enable bit that a word written holds. -/
theorem messageFields (old : Nat) (value : Word) : BitVec.ofNat 11 (mergeBytes old 0 8 value.toNat) = BitVec.ofNat 11 (fieldNat value 0 11) ∧
    (mergeBytes old 0 8 value.toNat).testBit 16 = value.getLsbD 16 := by
  have hmerge : mergeBytes old 0 8 value.toNat = value.toNat + old / 2 ^ 64 * 2 ^ 64 := by
    have hlt := value.isLt
    simp only [mergeBytes]
    omega
  rw [hmerge]
  constructor
  · apply BitVec.eq_of_toNat_eq
    simp only [fieldNat, BitVec.toNat_ofNat]
    omega
  · have hhigh : value.toNat + old / 2 ^ 64 * 2 ^ 64 = 2 ^ 64 * (old / 2 ^ 64) + value.toNat := by omega
    rw [hhigh, Nat.testBit_two_pow_mul_add _ value.isLt, if_pos (by decide)]
    rfl

theorem writePort_other {off v : Nat} {q : PortSt} (h : off = 0x210) : writePort off v q = q := by rw [h]; rfl

theorem modPort_endLatch (p : Port) (f : PortSt → PortSt) (s : State) : OnlyPort p s (modPort p f (endLatch p s)) ∧
    portOf p (modPort p f (endLatch p s)) = f { portOf p s with latch := none } := by
  rw [endLatch, modPort_modPort]
  exact ⟨onlyPort_modPort _ _ _, portOf_modPort _ _ _⟩

theorem completes_registerWrite_port {p : Port} (value : Word) {s : State} (h : RegistersAnswer p s) :
    (Completes (.registerWrite p 0x10200 8 value) s fun t => OnlyPort p s t ∧
      portOf p t = { portOf p s with latch := none, rcBase := if (portOf p s).rcEnable then (portOf p s).rcBase else value }) ∧
    (Completes (.registerWrite p 0x10210 8 value) s fun t => t = accessed p s) ∧
    (Completes (.registerWrite p 0x10218 8 value) s fun t => OnlyPort p s t ∧ portOf p t = { portOf p s with latch := none, rcRead := value }) ∧
    (Completes (.registerWrite p 0x10300 8 value) s fun t => OnlyPort p s t ∧
      portOf p t = { portOf p s with latch := none, mbxVector := BitVec.ofNat 11 (fieldNat value 0 11), mbxEn := value.getLsbD 16 }) := by
  refine ⟨?_, ?_, ?_, ?_⟩
  · obtain ⟨old, hexec⟩ := execRegisterWrite_port (off := 0x10200) (value := value) h (by decide) (by decide) (by decide)
    obtain ⟨honly, hport⟩ := modPort_endLatch p (writePort 0x200 (mergeBytes old 0 8 value.toNat)) s
    refine ⟨_, hexec, honly, hport.trans ?_⟩
    show (if (portOf p s).rcEnable = true then _ else _) = _
    rw [ofNat_mergeBytes]
    split <;> rfl
  · obtain ⟨old, hexec⟩ := execRegisterWrite_port (off := 0x10210) (value := value) h (by decide) (by decide) (by decide)
    have hoff : (0x10210 : BitVec 24).toNat - 0x10000 = 0x210 := by simp
    have hid : modPort p (writePort 0x210 (mergeBytes old 0 8 value.toNat)) (endLatch p s) = accessed p s := by
      cases p
      · exact congrArg (fun q => { s with portA := q }) (writePort_other rfl)
      · exact congrArg (fun q => { s with portB := q }) (writePort_other rfl)
    rw [hoff, hid] at hexec
    exact ⟨_, hexec, rfl⟩
  · obtain ⟨old, hexec⟩ := execRegisterWrite_port (off := 0x10218) (value := value) h (by decide) (by decide) (by decide)
    obtain ⟨honly, hport⟩ := modPort_endLatch p (writePort 0x218 (mergeBytes old 0 8 value.toNat)) s
    refine ⟨_, hexec, honly, hport.trans ?_⟩
    show { portOf p s with latch := none, rcRead := BitVec.ofNat 64 (mergeBytes old 0 8 value.toNat) } = _
    rw [ofNat_mergeBytes]
  · obtain ⟨old, hexec⟩ := execRegisterWrite_port (off := 0x10300) (value := value) h (by decide) (by decide) (by decide)
    obtain ⟨honly, hport⟩ := modPort_endLatch p (writePort 0x300 (mergeBytes old 0 8 value.toNat)) s
    obtain ⟨hvector, hen⟩ := messageFields old value
    refine ⟨_, hexec, honly, hport.trans ?_⟩
    show { portOf p s with
      latch := none, mbxVector := BitVec.ofNat 11 (mergeBytes old 0 8 value.toNat), mbxEn := (mergeBytes old 0 8 value.toNat).testBit 16 } = _
    rw [hvector, hen]

theorem completes_registerWrite_flagVector {p : Port} (value : Word) {s : State} (h : RegistersAnswer p s) :
    Completes (.registerWrite p 0x500010 8 value) s fun t => OnlyPort p s t ∧
      portOf p t = { portOf p s with latch := none, flagVector := BitVec.ofNat 11 (fieldNat value 0 11), flagEn := value.getLsbD 16 } := by
  obtain ⟨old, hold⟩ : ∃ old, old = regWord p 0x500010 (endLatch p s) := ⟨_, rfl⟩
  have hexec : execRegisterWrite p 0x500010 8 value s = .next (modPort p (fun q => { q with
      flagVector := BitVec.ofNat 11 (mergeBytes old 0 8 value.toNat), flagEn := (mergeBytes old 0 8 value.toNat).testBit 16 }) (endLatch p s)) := by
    have hoff : (0x500010 : BitVec 24).toNat = 0x500010 := by simp
    rw [execRegisterWrite_answered h (by decide), hoff, writeAnswered, ← hold, if_neg (by decide), if_neg (by decide), if_neg (by decide),
      if_neg (by decide), if_pos (by decide)]
  obtain ⟨hvector, hen⟩ := messageFields old value
  rw [hvector, hen] at hexec
  obtain ⟨honly, hport⟩ := modPort_endLatch p (fun q => { q with flagVector := BitVec.ofNat 11 (fieldNat value 0 11), flagEn := value.getLsbD 16 }) s
  exact ⟨_, hexec, honly, hport⟩

/-- Settles O53: a read answers from its latch or its register, a clear keeps what is set at once, and a write changes its register alone. -/
theorem registersAndReportCards : Obligations.RegistersAndReportCards := by
  refine ⟨fun p off size s => ⟨completes_latchedRead_badSize, fun hsize hlatch => ?_, fun b n v hsize hlatch hlow hhigh => ?_⟩,
    fun p m co s hup hlatch => ⟨completes_stackCountsRead_both m co hup hlatch, completes_stackCountsRead_high m co hup hlatch⟩,
    fun p whole co s hup => completes_onlyPort (i := .rcDroppedRead p whole co) (execRcDroppedRead_up whole co hup),
    fun p value co s => completes_devFlagsClear value co, fun p value s => completes_flagEnableWrite value,
    fun p slot s h => ⟨completes_chanBellClear_owner h, fun howner => ⟨_, execChanBellClear_other h howner, rfl⟩, completes_chanBellClear_coincident h⟩,
    fun p value s h => completes_onlyPort (i := .rcCfgWrite p value) (execRcCfgWrite_answers value h),
    fun p off size value s h => ⟨s, execRegisterWrite_fenced h, rfl⟩, fun p off size value s h hsize => ⟨_, execRegisterWrite_badSize h hsize, rfl⟩,
    fun p value s => completes_registerWrite_scratch, fun p value i s => completes_registerWrite_admin i, fun p value s h => ?_,
    fun p s c rest => completes_reportCardPlace⟩
  · exact ⟨_, rfl, readAt_cases hsize (by rw [fromLatch_none hlatch, Option.getD_none])⟩
  · obtain ⟨l, hl⟩ := fromLatch_held hlatch hlow hhigh
    obtain ⟨hdata, _, hfast, hmem, _⟩ := readAt_cases hsize (by rw [hl, Option.getD_some])
    exact ⟨_, rfl, hdata, hfast, hmem⟩
  · obtain ⟨h1, h2, h3, h4⟩ := completes_registerWrite_port value h
    exact ⟨h1, h2, h3, h4, completes_registerWrite_flagVector value h⟩

end Sys2Proof.Machine
end

/-! ## Far links (chapter 13) -/

section

/-! ### Far links: stripes, acknowledgment, repair and the contract (R347 to R353)

A frame, a repair and an acknowledgment are each one change of the far link, after which its window and its delays are judged:
`OnlyPath` says what that judging leaves of the link. -/

namespace Sys2Proof.Machine

/-! ## What judging a path leaves -/

/-- A link without its one-second window, the delays measured on its path and its far flags. -/
def besidePath (k : Link) : Link :=
  { k with winStart := 0, winFrames := 0, winRetried := 0, lastFrames := 0, lastRetried := 0
           far := { k.far with fwdNs := 0, revNs := 0, delayOff := false, skewSince := none, overSince := none, inContractSince := none
                               flags := 0, counts := Vector.replicate 5 0 } }

/-- From `s` to `t` only the path of one link has been judged. -/
def OnlyPath (l : Nat) (s t : State) : Prop := OnlyLink l s t ∧ besidePath (linkOf l t) = besidePath (linkOf l s)

theorem OnlyPath.refl (l : Nat) (s : State) : OnlyPath l s s := ⟨OnlyLink.refl l s, rfl⟩

theorem OnlyPath.trans {l : Nat} {s t u : State} (h : OnlyPath l s t) (k : OnlyPath l t u) : OnlyPath l s u :=
  ⟨h.1.trans k.1, k.2.trans h.2⟩

theorem onlyPath_modLink (l : Nat) {f : Link → Link} (hf : ∀ k, besidePath (f k) = besidePath k) (s : State) : OnlyPath l s (modLink l f s) :=
  ⟨onlyLink_modLink l f s, by rw [linkOf_modLink]; exact hf _⟩

theorem OnlyFlags.onlyPath {s t : State} (h : OnlyFlags s t) (l : Nat) : OnlyPath l s t :=
  ⟨h.onlyLink l, by rw [linkOf_congr h.links]⟩

theorem onlyPath_raiseFar (l i : Nat) (s : State) : OnlyPath l s (raiseFar l i s) :=
  ⟨onlyLink_raiseFar l i s, by rw [linkOf_raiseFar]; rfl⟩

theorem onlyPath_ite {l : Nat} {s t : State} (c : Bool) (h : OnlyPath l s t) : OnlyPath l s (if c then t else s) := by
  cases c
  · exact OnlyPath.refl l s
  · exact h

theorem onlyPath_judgeDelays (l : Nat) (s : State) : OnlyPath l s (judgeDelays l s) := by
  unfold judgeDelays
  extract_lets f half fwd rev skewed mean off slow u v
  have hu : OnlyPath l s u :=
    onlyPath_ite _ (((onlyFlags_raiseEvent 0x46 [l, mean.getD 0, rev] s).onlyPath l).trans (onlyPath_raiseFar l 1 _))
  have hv : OnlyPath l u v := onlyPath_ite _ ((onlyPath_modLink l (by intro k; rfl) u).trans (onlyPath_raiseFar l 2 _))
  exact (hu.trans hv).trans (onlyPath_modLink l (by intro k; rfl) v)

theorem onlyPath_tickWindow {l : Nat} (n r : Nat) {s : State} (hfar : (linkOf l s).farActive = true) : OnlyPath l s (tickWindow l n r s) := by
  unfold tickWindow
  dsimp only
  rw [hfar, if_pos rfl]
  split
  · exact onlyPath_modLink l (by intro k; rfl) s
  · exact onlyPath_modLink l (by intro k; rfl) s

/-! ## Stripes delivered and shards kept (R350) -/

/-- What delivering stripes leaves of a far link. -/
def DeliversFrom (k j : Link) : Prop :=
  k.far.nextStripe ≤ j.far.nextStripe ∧
    j = { k with rxData := j.rxData
                 far := { k.far with nextStripe := j.far.nextStripe, rxStripes := j.far.rxStripes, resent := j.far.resent } }

theorem DeliversFrom.trans {k j i : Link} (h : DeliversFrom k j) (g : DeliversFrom j i) : DeliversFrom k i := by
  obtain ⟨hle, heq⟩ := h
  obtain ⟨gle, geq⟩ := g
  refine ⟨hle.trans gle, geq.trans ?_⟩
  rw [heq]

theorem deliversFrom_deliverStripes (fuel : Nat) (k : Link) : DeliversFrom k (deliverStripes fuel k) := by
  induction fuel generalizing k with
  | zero => exact ⟨Nat.le_refl _, rfl⟩
  | succ fuel ih =>
    unfold deliverStripes
    split
    · exact ⟨Nat.le_refl _, rfl⟩
    · split
      · exact DeliversFrom.trans ⟨Nat.le_succ _, rfl⟩ (ih _)
      · exact ⟨Nat.le_refl _, rfl⟩

theorem keepShard_eq (stripe shard parity : Nat) (img : List Byte) (t : Word) (f : FarSt) :
    keepShard stripe shard parity img t f = { f with rxStripes := (keepShard stripe shard parity img t f).rxStripes } := by
  unfold keepShard
  split
  · rfl
  · dsimp only
    split <;> rfl

/-! ## Frames, repairs and acknowledgments -/

/-- A far link that has taken a frame in a state. -/
def framedLink (f : FarFrame) (s : State) (k : Link) : Link :=
  let t := fieldNat f.h0 0 4
  let w := if t == 4 then (f.h0 &&& ~~~ (0x1E0000F : Word)) ||| BitVec.ofNat 64 (fieldNat f.h0 21 4) else f.h0
  let img := if t == 3 then f.body else wordBytes w ++ f.body
  { k with
    keyRx := if t != 4 && (vget k.rxKeys (slotIx (bitOf f.h0 4)) {}).valid then bitOf f.h0 4 else k.keyRx
    far := { keepShard (fieldNat f.h1 0 48) (fieldNat f.h0 12 5) (fieldNat f.h0 17 4) img (mono s) k.far with
      lastFrame := f.h2, lastArrival := now s, heardAt := mono s, delays := addSample (nsSince f.h2 (now s)) k.far.delays s
      repaired := if t == 4 then k.far.repaired + 1 else k.far.repaired } }

theorem completes_farFrameReceive {l : Fin 36} {f : FarFrame} {s : State} (hstate : 2 ≤ (linkOf l s).state)
    (hfar : (linkOf l s).farActive = true) (hok : farOk l f s = true) : Completes (.farFrameReceive l f) s fun t =>
      (linkOf l t).far.lastFrame = f.h2 ∧ (linkOf l t).far.lastArrival = s.time.dtime ∧ (linkOf l t).far.heardAt = mono s ∧
        (linkOf l s).far.nextStripe ≤ (linkOf l t).far.nextStripe ∧
        (linkOf l t).far.repaired = (linkOf l s).far.repaired + (if fieldNat f.h0 0 4 = 4 then 1 else 0) ∧
        (∀ j : Nat, j ≠ l.val → linkOf j t = linkOf j s) ∧ t.memory = s.memory := by
  have hexec : execFarFrameReceive l f s = .next (deliverFar l (judgeDelays l (tickWindow l 1 (if fieldNat f.h0 0 4 == 4 then 1 else 0)
      (modLink l (framedLink f s) s)))) := by
    simp only [execFarFrameReceive, Nat.not_lt.2 hstate, hfar, hok, decide_false, Bool.not_true, Bool.or_self, Bool.false_eq_true, if_false]
    rfl
  generalize (if fieldNat f.h0 0 4 == 4 then 1 else 0) = r at hexec
  have hpath : OnlyPath l (modLink l (framedLink f s) s) (judgeDelays l (tickWindow l 1 r (modLink l (framedLink f s) s))) :=
    (onlyPath_tickWindow 1 r (by rw [linkOf_modLink]; exact hfar)).trans (onlyPath_judgeDelays l _)
  revert hexec hpath
  generalize judgeDelays l (tickWindow l 1 r (modLink l (framedLink f s) s)) = u
  intro hexec ⟨honly, hlink⟩
  have hall : OnlyLink l s (deliverFar l u) := ((onlyLink_modLink l _ s).trans honly).trans (onlyLink_modLink l _ u)
  rw [linkOf_modLink] at hlink
  obtain ⟨hnext, hdel⟩ := deliversFrom_deliverStripes ((linkOf l u).far.rxStripes.length + 1) (linkOf l u)
  have hend : linkOf l (deliverFar l u) = deliverStripes ((linkOf l u).far.rxStripes.length + 1) (linkOf l u) := linkOf_modLink l _ u
  rw [← hend] at hnext hdel
  have hkeep : besidePath (linkOf l (deliverFar l u)) = besidePath { framedLink f s (linkOf l s) with
      rxData := (linkOf l (deliverFar l u)).rxData
      far := { (framedLink f s (linkOf l s)).far with
        nextStripe := (linkOf l (deliverFar l u)).far.nextStripe, rxStripes := (linkOf l (deliverFar l u)).far.rxStripes
        resent := (linkOf l (deliverFar l u)).far.resent } } := by
    rw [hdel]
    exact congrArg (fun k : Link => { k with
      rxData := (linkOf l (deliverFar l u)).rxData
      far := { k.far with
        nextStripe := (linkOf l (deliverFar l u)).far.nextStripe, rxStripes := (linkOf l (deliverFar l u)).far.rxStripes
        resent := (linkOf l (deliverFar l u)).far.resent } }) hlink
  have hmem := congrArg State.memory hall.1
  have hstripe := congrArg (fun k : Link => k.far.nextStripe) hlink
  have hlast := congrArg (fun k : Link => k.far.lastFrame) hkeep
  have harrival := congrArg (fun k : Link => k.far.lastArrival) hkeep
  have hheard := congrArg (fun k : Link => k.far.heardAt) hkeep
  have hrepaired := congrArg (fun k : Link => k.far.repaired) hkeep
  have hsame : (framedLink f s (linkOf l s)).far.nextStripe = (linkOf l s).far.nextStripe := by
    unfold framedLink
    dsimp only
    rw [keepShard_eq]
  have hcount : (framedLink f s (linkOf l s)).far.repaired = (linkOf l s).far.repaired + (if fieldNat f.h0 0 4 = 4 then 1 else 0) := by
    unfold framedLink
    by_cases ht : fieldNat f.h0 0 4 = 4
    · simp [ht]
    · simp [ht]
  exact ⟨_, hexec, hlast, harrival, hheard, (hsame.symm.trans hstripe.symm).le.trans hnext, hrepaired.trans hcount, hall.2, hmem⟩

/-- The mask of the shards a stripe lacks. -/
def lackMask (k : Link) (n : Nat) : Nat :=
  sumNat (((List.range 16).filter fun i => !(((tget? k.far.rxStripes n).map fun x => x.1).getD []).any fun y => y.1 == i).map fun i => 2 ^ i)

/-- A far link that asks for a repair at a time. -/
def askedLink (n : Nat) (t : Word) (k : Link) : Link :=
  { k with far := { k.far with resent := k.far.resent.filter (fun y => y.1 != n) ++ [(n, t)] } }

/-- A state that has asked for a repair. -/
def Asked (l : Fin 36) (n : Nat) (s t : State) : Prop :=
  OnlyLink l s t ∧ (linkOf l t).far.resent = (linkOf l s).far.resent.filter (fun y => y.1 ≠ n) ++ [(n, mono s)] ∧
    (linkOf l t).control = (linkOf l s).control ++ [mkItem 0x21 0 (BitVec.ofNat 64 n) (BitVec.ofNat 64 (lackMask (linkOf l s) n)) 0 0 0]

theorem asked_askRepair (l : Fin 36) (n : Nat) (s : State) : Asked l n s (askRepair l n s) := by
  have heq : askRepair l n s = sendItem l (mkItem 0x21 0 (BitVec.ofNat 64 n) (BitVec.ofNat 64 (lackMask (linkOf l s) n)) 0 0 0)
      (modLink l (askedLink n (mono s)) s) := rfl
  have hlink : linkOf l (askRepair l n s) = queueControl
      [mkItem 0x21 0 (BitVec.ofNat 64 n) (BitVec.ofNat 64 (lackMask (linkOf l s) n)) 0 0 0] (askedLink n (mono s) (linkOf l s)) := by
    rw [heq, sendItem, linkOf_modLink, linkOf_modLink]
    rfl
  have hfilter : (linkOf l s).far.resent.filter (fun y => y.1 != n) = (linkOf l s).far.resent.filter (fun y => y.1 ≠ n) :=
    List.filter_congr fun y _ => by simp only [bne, ne_eq, decide_not, beq_eq_decide]
  refine ⟨?_, ?_, ?_⟩
  · rw [heq]
    exact (onlyLink_modLink l _ s).trans (onlyLink_modLink l _ _)
  · rw [hlink, ← hfilter]
    rfl
  · rw [hlink]
    rfl

theorem completes_stripeOverdue {l : Fin 36} {n : BitVec 48} {s : State} (hfar : (linkOf l s).farActive = true)
    (hdue : stripeDue n.toNat (linkOf l s) s = true) (hnew : ∀ y ∈ (linkOf l s).far.resent, y.1 ≠ n.toNat)
    (hfew : (((tget? (linkOf l s).far.rxStripes n.toNat).map fun x => x.1).getD []).length < 16) :
    Completes (.stripeOverdue l n) s (Asked l n.toNat s) := by
  have hany : ((linkOf l s).far.resent.any fun y => y.1 == n.toNat) = false :=
    List.any_eq_false.2 fun y hy => by rw [beq_iff_eq]; exact hnew y hy
  have hexec : execStripeOverdue l n s = .next (askRepair l n.toNat s) := by
    simp only [execStripeOverdue, hfar, hdue, hany, hfew, Bool.not_true, Bool.or_self, Bool.false_eq_true, if_false, if_true]
  exact ⟨_, hexec, asked_askRepair l n.toNat s⟩

theorem completes_repairRerequest {l : Fin 36} {n : BitVec 48} {x : Word} {s : State}
    (hx : (linkOf l s).far.resent.find? (fun y => y.1 == n.toNat) = some (n.toNat, x)) (hfar : (linkOf l s).farActive = true)
    (hdue : 2 * (linkOf l s).far.rttNs.toNat + 20000 ≤ nsSince x (mono s)) : Completes (.repairRerequest l n) s (Asked l n.toNat s) := by
  have hexec : execRepairRerequest l n s = .next (askRepair l n.toNat s) := by
    simp only [execRepairRerequest, hx, hfar, hdue, decide_true, Bool.and_self, if_true]
  exact ⟨_, hexec, asked_askRepair l n.toNat s⟩

/-- A far link that acknowledges at a time. -/
def ackedLink (t : Word) (k : Link) : Link := { k with far := { k.far with ackAt := t } }

theorem completes_farAckSend {l : Fin 36} {s : State} (hstate : (linkOf l s).state = 3) (hfar : (linkOf l s).farActive = true)
    (hdue : 1000000 ≤ nsSince (linkOf l s).far.ackAt (mono s)) : Completes (.farAckSend l) s fun t => OnlyLink l s t ∧
      (linkOf l t).far.ackAt = mono s ∧ ∃ x : Item, (linkOf l t).control = (linkOf l s).control ++ [x] ∧ itemKind x = 0x20 ∧
        fieldNat x.w1 0 48 = (linkOf l s).far.nextStripe % 2 ^ 48 ∧ x.w3 = (linkOf l s).far.lastFrame ∧ x.w4 = (linkOf l s).far.lastArrival := by
  have hlate (b : Prop) [Decidable b] : ¬ nsSince (linkOf l s).far.ackAt (mono s) < if b then 10000 else 1000000 := by
    split <;> omega
  obtain ⟨w2, w5, free, hexec⟩ : ∃ (w2 w5 : Word) (free : Nat), execFarAckSend l s = .next (sendItem l
      (mkItem 0x20 0 (BitVec.ofNat 64 ((linkOf l s).far.nextStripe % 2 ^ 48 + free * 2 ^ 48)) w2 (linkOf l s).far.lastFrame
        (linkOf l s).far.lastArrival w5) (modLink l (ackedLink (mono s)) s)) := by
    unfold execFarAckSend
    extract_lets k f due whole bits used free
    have hgo : ¬ (k.state != 3 || !k.farActive || decide (nsSince f.ackAt (mono s) < due)) = true := by
      have hpast : ¬ nsSince f.ackAt (mono s) < due := hlate _
      simp only [k, hstate, hfar, hpast, bne_self_eq_false, Bool.not_true, decide_false, Bool.or_self, Bool.false_eq_true, not_false_eq_true]
    exact ⟨_, _, free, congrArg Host.Outcome.next (if_neg hgo)⟩
  have hlink (x : Item) : linkOf l (sendItem l x (modLink l (ackedLink (mono s)) s)) =
      queueControl [x] (ackedLink (mono s) (linkOf l s)) := by
    rw [sendItem, linkOf_modLink, linkOf_modLink]
    rfl
  refine ⟨_, hexec, (onlyLink_modLink l _ s).trans (onlyLink_modLink l _ _), by rw [hlink]; rfl, _, by rw [hlink]; rfl, ?_⟩
  refine ⟨itemKind_mkItem _ _ _ _ _ (by decide) (by decide), ?_, rfl, rfl⟩
  show fieldNat (BitVec.ofNat 64 ((linkOf l s).far.nextStripe % 2 ^ 48 + free * 2 ^ 48)) 0 48 = _
  rw [fieldNat]
  simp only [BitVec.toNat_ofNat]
  omega

/-! ## Segments acknowledged, and repairs asked for -/

theorem links_ackSegs (l : Nat) (gone : Word → Bool) (s : State) : (ackSegs l gone s).links =
    (modLink l (fun k => { k with unacked := k.unacked.filter fun x => !gone x.2 }) s).links := by
  have hfold (xs : List (OutSeg × Word)) (u : State) : (xs.foldl (fun s x => if x.1.pass == 0 then s
      else modPass (x.1.pass - 1) (fun p => { p with outstanding := p.outstanding.erase x.1.num }) s) u).links = u.links := by
    induction xs generalizing u with
    | nil => rfl
    | cons x xs ih =>
      rw [List.foldl_cons, ih]
      split <;> rfl
  exact hfold _ _

/-- Whether an acknowledgment covers a stripe. -/
def ackCovers (it : Item) (n : Nat) : Bool :=
  decide (n < fieldNat it.w1 0 48) || (decide (fieldNat it.w1 0 48 < n) && decide (n ≤ fieldNat it.w1 0 48 + 64)
    && it.w2.getLsbD (n - fieldNat it.w1 0 48 - 1))

/-- A far link that has taken an acknowledgment in a state. -/
def heardAckLink (it : Item) (t3 : Word) (s : State) (k : Link) : Link :=
  { k with
    sentSinceCredit := 0
    far := { k.far with
      retransmit := k.far.retransmit.filter fun x => !ackCovers it x.1
      repairQ := k.far.repairQ.filter fun x => !ackCovers it x.1
      sentAgain := k.far.sentAgain.filter fun x => !ackCovers it x.1
      freeMib := fieldNat it.w1 48 16, rttNs := BitVec.ofNat 32 (nsSince it.w3 (now s) - nsSince it.w4 t3), peerLocked := bitOf it.w5 0
      fwds := addSample (nsSince it.w3 it.w4) k.far.fwds s } }

theorem Policed.far {l : Fin 36} {it : Item} {kind : Nat} {s u : State} (h : Policed l it kind s u) :
    (Machine.linkOf l u).far = (Machine.linkOf l s).far ∧ (Machine.linkOf l u).farActive = (Machine.linkOf l s).farActive := by
  have hfar := congrArg Link.far h.linkOf.1
  have hactive := congrArg Link.farActive h.linkOf.1
  exact ⟨hfar, hactive⟩

theorem completes_farAckReceive {l : Fin 36} {it : Item} {t3 : Word} {s u : State} (h : Policed l it 0x20 s u)
    (hactive : (linkOf l s).farActive = true) : Completes (.farAckReceive l it t3) s fun t =>
      (∀ x ∈ (linkOf l t).far.retransmit, fieldNat it.w1 0 48 ≤ x.1 ∧ x ∈ (linkOf l s).far.retransmit) ∧
        (linkOf l t).far.freeMib = fieldNat it.w1 48 16 ∧
        (linkOf l t).far.rttNs = BitVec.ofNat 32 (nsSince it.w3 s.time.dtime - nsSince it.w4 t3) ∧
        (∀ j : Nat, j ≠ l.val → linkOf j t = linkOf j s) := by
  obtain ⟨hfar, hon⟩ := h.far
  have hnow : now u = s.time.dtime := by
    have htime := congrArg (fun u : State => u.time.dtime) h.onlyLinks
    exact htime
  have hexec : execFarAckReceive l it t3 s = .next (judgeDelays l (ackSegs l (fun q => ackCovers it q.toNat) (modLink l (heardAckLink it t3 u) u))) := by
    rw [execFarAckReceive, withItem_policed h]
    simp only [hon, hactive, Bool.not_true, Bool.false_eq_true, if_false]
    rfl
  obtain ⟨honly, hlink⟩ := onlyPath_judgeDelays l (ackSegs l (fun q => ackCovers it q.toNat) (modLink l (heardAckLink it t3 u) u))
  revert hexec honly hlink
  generalize judgeDelays l (ackSegs l (fun q => ackCovers it q.toNat) (modLink l (heardAckLink it t3 u) u)) = t
  intro hexec honly hlink
  rw [linkOf_congr (links_ackSegs _ _ _), linkOf_modLink, linkOf_modLink] at hlink
  have hkept : (linkOf l t).far.retransmit = (linkOf l u).far.retransmit.filter fun x => !ackCovers it x.1 :=
    congrArg (fun k : Link => k.far.retransmit) hlink
  have hfree := congrArg (fun k : Link => k.far.freeMib) hlink
  have hrtt := congrArg (fun k : Link => k.far.rttNs) hlink
  refine ⟨t, hexec, fun x hx => ?_, hfree, hrtt.trans (by rw [← hnow]; rfl), fun j hj => ?_⟩
  · rw [hkept] at hx
    obtain ⟨hmem, hcover⟩ := List.mem_filter.1 hx
    refine ⟨?_, hfar ▸ hmem⟩
    simp only [ackCovers, Bool.not_or, Bool.and_eq_true, Bool.not_eq_true', decide_eq_false_iff_not, not_lt] at hcover
    exact hcover.1
  · rw [honly.2 j hj, linkOf_congr (links_ackSegs _ _ _), linkOf_modLink_other _ _ _ _ hj, linkOf_modLink_other _ _ _ _ hj]
    exact h.linkOf.2 j hj

/-- The shards asked for in a FAR_RESEND that a far link still holds. -/
def heldShards (it : Item) (k : Link) : List Nat :=
  (List.range 16).filter fun i => it.w2.getLsbD i && (tgetD k.far.retransmit (fieldNat it.w1 0 48) []).any fun y => y.1 == i

theorem completes_farResendReceive {l : Fin 36} {it : Item} {s u : State} (h : Policed l it 0x21 s u)
    (htimes : ∀ y ∈ (linkOf l s).far.sentAgain, y.2.2 < 16) : Completes (.farResendReceive l it) s fun t => OnlyLink l u t ∧
      (linkOf l t).far.repairQ = (linkOf l s).far.repairQ ++ (heldShards it (linkOf l s)).map fun i => (fieldNat it.w1 0 48, i) := by
  obtain ⟨hfar, -⟩ := h.far
  have hfew (p : Nat × Nat × Nat → Bool) : (((linkOf l u).far.sentAgain.find? p).map fun y => y.2.2).getD 0 < 16 := by
    rw [hfar]
    cases hf : (linkOf l s).far.sentAgain.find? p with
    | none => exact Nat.zero_lt_succ _
    | some y => exact htimes y (List.mem_of_find?_eq_some hf)
  obtain ⟨again, hexec⟩ : ∃ again : List (Nat × Nat × Nat), execFarResendReceive l it s = .next (modLink l (fun k => { k with far := { k.far with
      repairQ := k.far.repairQ ++ (heldShards it (linkOf l u)).map fun i => (fieldNat it.w1 0 48, i), sentAgain := again } }) u) := by
    rw [execFarResendReceive, withItem_policed h]
    extract_lets n held want times
    have hgo : ¬ (want.any fun i => decide (16 ≤ times i)) = true := by
      rw [Bool.not_eq_true, List.any_eq_false]
      intro i _
      rw [decide_eq_true_iff, not_le]
      exact hfew _
    refine ⟨(linkOf l u).far.sentAgain.filter (fun y => !(y.1 == n && want.contains y.2.1)) ++ want.map fun i => (n, i, times i + 1), ?_⟩
    rw [if_neg hgo]
    rfl
  refine ⟨_, hexec, onlyLink_modLink l _ u, ?_⟩
  rw [linkOf_modLink, heldShards, heldShards, hfar]

theorem completes_farSilence {l : Fin 36} {s : State} (hstate : 2 ≤ (linkOf l s).state) (hheld : (linkOf l s).state ≠ 4)
    (hfar : (linkOf l s).farActive = true) (hdue : 220000000 ≤ nsSince (linkOf l s).far.heardAt (mono s)) :
    Completes (.farSilenceTimeout l) s fun t => (linkOf l t).state = 0 := by
  have hdown : ((linkOf l s).state == 4 || (linkOf l s).state == 0) = false := by
    simp only [Bool.or_eq_false_iff, beq_eq_false_iff_ne]
    exact ⟨hheld, by omega⟩
  have hexec : execFarSilenceTimeout l s = .next (linkDown l s) := by
    simp only [execFarSilenceTimeout, hstate, hfar, hdue, decide_true, Bool.and_self, if_true, dropLink, hdown, Bool.false_eq_true, if_false]
  exact ⟨_, hexec, linkDown_state l s⟩

/-! ## Control items queued -/

/-- From `s` to `t` only control items have been queued. -/
def OnlyControl (s t : State) : Prop :=
  { t with links := [] } = { s with links := [] } ∧ ∀ j : Nat, { linkOf j t with control := [] } = { linkOf j s with control := [] }

theorem OnlyControl.refl (s : State) : OnlyControl s s := ⟨rfl, fun _ => rfl⟩

theorem OnlyControl.trans {s t u : State} (h : OnlyControl s t) (k : OnlyControl t u) : OnlyControl s u :=
  ⟨k.1.trans h.1, fun j => (k.2 j).trans (h.2 j)⟩

theorem onlyControl_sendItem (l : Nat) (it : Item) (s : State) : OnlyControl s (sendItem l it s) := by
  refine ⟨rfl, fun j => ?_⟩
  by_cases hj : j = l
  · subst hj
    rw [sendItem, linkOf_modLink]
  · rw [sendItem, linkOf_modLink_other _ _ _ _ hj]

theorem onlyControl_sendTo (m : Word) (it : Item) (s : State) : OnlyControl s (sendTo m it s) := by
  unfold sendTo
  split
  · exact onlyControl_sendItem _ it s
  · exact OnlyControl.refl s

theorem onlyControl_foldl {α : Type} {f : State → α → State} (h : ∀ s x, OnlyControl s (f s x)) (xs : List α) (s : State) :
    OnlyControl s (xs.foldl f s) := by
  induction xs generalizing s with
  | nil => exact OnlyControl.refl s
  | cons x xs ih => exact (h s x).trans (ih _)

theorem onlyControl_sendAll (g : Group) (it : Item) (s : State) : OnlyControl s (sendAll g it s) := by
  refine onlyControl_foldl (fun u m => ?_) _ s
  split
  · exact OnlyControl.refl u
  · exact onlyControl_sendTo m it u

theorem onlyControl_sendVoid (p : Pass) (status : BitVec 8) (detail : BitVec 16) (s : State) : OnlyControl s (sendVoid p status detail s) := by
  unfold sendVoid
  split
  · exact OnlyControl.refl s
  · split
    · exact onlyControl_sendAll _ _ s
    · exact OnlyControl.refl s

/-! ## The contract of a path (R353) -/

/-- A far link out of its contract, its flag up, in a state whose passes all stood in another. -/
def OutOfContract (l : Nat) (s t : State) : Prop :=
  (linkOf l t).far.outOfContract = true ∧ (linkOf l t).far.flags.getLsbD 0 = true ∧ ∀ i : Nat, passOf i s = none → passOf i t = none

theorem OutOfContract.control {l : Nat} {s t u : State} (h : OutOfContract l s t) (hu : OnlyControl t u) : OutOfContract l s u := by
  obtain ⟨hout, hflag, hpasses⟩ := h
  have hfar := congrArg Link.far (hu.2 l)
  replace hfar : (linkOf l u).far = (linkOf l t).far := hfar
  have hsame := congrArg State.passes hu.1
  replace hsame : u.passes = t.passes := hsame
  exact ⟨by rw [hfar]; exact hout, by rw [hfar]; exact hflag, fun i hi => by rw [passOf, hsame]; exact hpasses i hi⟩

theorem OutOfContract.voidPass {l : Nat} {s t : State} (h : OutOfContract l s t) (p : Pass) (status : BitVec 8) (detail : BitVec 16)
    (result0 : Word) : OutOfContract l s (voidPass p status detail result0 t) := by
  obtain ⟨hout, hflag, hpasses⟩ := h
  have hend := besideEnd_voidPass p status detail result0 t
  have hfar : (linkOf l (Machine.voidPass p status detail result0 t)).far = (linkOf l t).far := by
    have hlink := linkOf_congr (t := Machine.voidPass p status detail result0 t) (s := { t with links := t.links.map fun e =>
      (e.1, { e.2 with egress := e.2.egress.filter fun x => x.pass != p.id + 1 }) }) ((links_of_besideEnd hend).trans (links_dropPass p t)) l
    rw [hlink, linkOf_mapLinks (fun y => { y with egress := y.egress.filter fun x => x.pass != p.id + 1 }) rfl]
  refine ⟨by rw [hfar]; exact hout, by rw [hfar]; exact hflag, fun i hi => ?_⟩
  rw [passOf, passes_of_besideEnd hend, passes_dropPass, List.find?_eq_none]
  intro q hq
  exact List.find?_eq_none.1 (hpasses i hi) q (List.mem_of_mem_filter hq)

/-- A pass that a path out of its contract ends. -/
def endOnPath (s : State) (i : Nat) : State :=
  match passOf (i - 1) s with
  | some p => voidPass p stVoidPath 0 (now s) (if p.round.isSome then s else sendVoid p stVoidPath 0 s)
  | none => s

theorem endOnPath_cases {l : Nat} {s t : State} (h : OutOfContract l s t) (i : Nat) :
    OutOfContract l s (endOnPath t i) ∧ passOf (i - 1) (endOnPath t i) = none := by
  unfold endOnPath
  split
  · next p hp =>
    have hid : p.id = i - 1 := by simpa using List.find?_some hp
    refine ⟨OutOfContract.voidPass ?_ p _ _ _, hid ▸ passOf_voidPass _ _ _ _ _⟩
    split
    · exact h
    · exact h.control (onlyControl_sendVoid _ _ _ t)
  · next hp => exact ⟨h, hp⟩

theorem foldl_endOnPath_cases {l : Nat} {s t : State} (h : OutOfContract l s t) (ids : List Nat) :
    OutOfContract l s (ids.foldl endOnPath t) ∧ ∀ i ∈ ids, passOf (i - 1) (ids.foldl endOnPath t) = none := by
  induction ids generalizing s t with
  | nil => exact ⟨h, nofun⟩
  | cons i ids ih =>
    obtain ⟨hone, hgone⟩ := endOnPath_cases h i
    obtain ⟨hall, hrest⟩ := ih hone
    obtain ⟨⟨_, _, hkeep⟩, -⟩ := ih (s := endOnPath t i) ⟨hone.1, hone.2.1, fun _ => id⟩
    refine ⟨hall, fun j hj => ?_⟩
    rcases List.mem_cons.1 hj with rfl | hj
    · exact hkeep _ hgone
    · exact hrest j hj

/-- A far link out of its contract. -/
def outLink (k : Link) : Link := { k with far := { k.far with outOfContract := true, inContractSince := none } }

theorem completes_pathOutOfContract {l : Fin 36} {s : State} (hcap : farCapable l = true) (hctl : (linkOf l s).ctlFar = true)
    (hin : (linkOf l s).far.outOfContract = false) (hbroken : pathBroken l s = true) : Completes (.pathOutOfContract l) s fun t =>
      (linkOf l t).far.outOfContract = true ∧ (linkOf l t).far.flags.getLsbD 0 = true ∧
        ∀ x ∈ (linkOf l s).egress, x.pass ≠ 0 → passOf (x.pass - 1) t = none := by
  obtain ⟨ids, args, hids, hexec⟩ : ∃ (ids args : List Nat), (∀ x ∈ (linkOf l s).egress, x.pass ≠ 0 → x.pass ∈ ids) ∧ execPathOutOfContract l s =
      .next (ids.foldl endOnPath (modLink l outLink (raiseFar l 0 (raiseEvent 0x47 args s)))) := by
    unfold execPathOutOfContract
    extract_lets k ids mean u v
    have hgo : ¬ (!farCapable l || !k.ctlFar || k.far.outOfContract || !pathBroken l s) = true := by
      simp only [k, hcap, hctl, hin, hbroken, Bool.not_true, Bool.or_self, Bool.false_eq_true, not_false_eq_true]
    refine ⟨ids.filter fun i => i != 0, _, fun x hx hne => ?_, congrArg Host.Outcome.next (if_neg hgo)⟩
    refine List.mem_filter.2 ⟨List.mem_eraseDups.2 (List.mem_append_right _ (List.mem_map.2 ⟨x, hx, rfl⟩)), ?_⟩
    exact bne_iff_ne.2 hne
  have hlink : linkOf l (modLink l outLink (raiseFar l 0 (raiseEvent 0x47 args s))) = outLink (flagFar 0 (linkOf l s)) := by
    rw [linkOf_modLink, linkOf_raiseFar, linkOf_congr (onlyFlags_raiseEvent 0x47 args s).links]
  have hstart : OutOfContract l s (modLink l outLink (raiseFar l 0 (raiseEvent 0x47 args s))) := by
    have hpasses := congrArg State.passes (((onlyFlags_raiseEvent 0x47 args s).onlyLink l).trans (onlyLink_raiseFar l 0 _)).1
    refine ⟨by rw [hlink]; rfl, by rw [hlink]; exact getLsbD_flagFar (linkOf l s) (by decide), fun i hi => ?_⟩
    exact (congrArg (List.find? fun x : Pass => x.id == i) hpasses).trans hi
  obtain ⟨⟨hout, hflag, -⟩, hgone⟩ := foldl_endOnPath_cases hstart ids
  exact ⟨_, hexec, hout, hflag, fun x hx hne => hgone _ (hids x hx hne)⟩

theorem completes_pathBackInContract {l : Fin 36} {s : State} {x : Word} (hx : (linkOf l s).far.inContractSince = some x)
    (hout : (linkOf l s).far.outOfContract = true) (hstate : (linkOf l s).state = 3) (hdue : 10000000000 ≤ nsSince x (mono s)) :
    Completes (.pathBackInContract l) s fun t => OnlyLink l s t ∧
      linkOf l t = { linkOf l s with far := { (linkOf l s).far with outOfContract := false, inContractSince := none } } := by
  have hexec : execPathBackInContract l s = .next (modLink l (fun k => { k with far := { k.far with
      outOfContract := false, inContractSince := none } }) s) := by
    simp only [execPathBackInContract, hx, hout, hstate, hdue, beq_self_eq_true, decide_true, Bool.and_self, if_true]
  exact ⟨_, hexec, onlyLink_modLink l _ s, linkOf_modLink l _ s⟩

/-! ## The far registers -/

/-- The far flags of a link after hardware sets that fall in one cycle. -/
theorem farFlags_raiseEach (l : Nat) (bits : List Nat) (s : State) :
    (linkOf l (bits.foldl (fun s i => raiseFar l i s) s)).far.flags =
        bits.foldl (fun f i => f ||| BitVec.ofNat 5 (2 ^ i)) (linkOf l s).far.flags ∧
      ∀ j : Nat, j ≠ l → linkOf j (bits.foldl (fun s i => raiseFar l i s) s) = linkOf j s := by
  induction bits generalizing s with
  | nil => exact ⟨rfl, fun _ _ => rfl⟩
  | cons i bits ih =>
    obtain ⟨hflags, hother⟩ := ih (raiseFar l i s)
    refine ⟨hflags.trans ?_, fun j hj => (hother j hj).trans ((onlyLink_raiseFar l i s).2 j hj)⟩
    rw [linkOf_raiseFar, List.foldl_cons]
    rfl

/-- A far link whose flags have been written with 1 where they fall. -/
def clearedFar (v : BitVec 5) (k : Link) : Link := { k with far := { k.far with flags := k.far.flags &&& ~~~ v } }

theorem completes_farFlagsClear {p : Port} {l : Fin 36} {s : State} (h : RegistersAnswer p s) (hcap : farCapable l = true) (v co : BitVec 5) :
    Completes (.farFlagsClear p l v co) s fun t => (linkOf l t).far.flags = ((linkOf l s).far.flags &&& ~~~ v) ||| co ∧
      ∀ j : Nat, j ≠ l.val → linkOf j t = linkOf j s := by
  have hexec : execFarFlagsClear p l v co s = .next (((List.range 5).filter fun i => co.toNat.testBit i).foldl (fun s i => raiseFar l i s)
      (modLink l (clearedFar v) (endLatch p s))) := by
    rw [execFarFlagsClear, if_neg (by simp [hcap]), regAccess_answers h]
    rfl
  obtain ⟨hflags, hother⟩ := farFlags_raiseEach l ((List.range 5).filter fun i => co.toNat.testBit i) (modLink l (clearedFar v) (endLatch p s))
  rw [foldl_or_bits, linkOf_modLink, linkOf_endLatch] at hflags
  exact ⟨_, hexec, hflags, fun j hj => (hother j hj).trans ((linkOf_modLink_other _ _ _ _ hj).trans (linkOf_endLatch _ _ _))⟩

theorem completes_farRepairedRead {p : Port} {l : Fin 36} {s : State} (h : RegistersAnswer p s) (hcap : farCapable l = true) (whole : Bool)
    (co : BitVec 32) : Completes (.farRepairedRead p l whole co) s fun t => (portOf p t).readData = (linkOf l s).far.repaired.setWidth 64 ∧
      (linkOf l t).far.repaired = (if whole then 0 else (linkOf l s).far.repaired) + co ∧ ∀ j : Nat, j ≠ l.val → linkOf j t = linkOf j s := by
  have hexec : execFarRepairedRead p l whole co s = .next (readCounter p l ((linkOf l s).far.repaired.setWidth 64)
      (fun k => { k with far := { k.far with repaired := 0 } }) (fun k => { k with far := { k.far with repaired := k.far.repaired + co } }) whole s) := by
    rw [execFarRepairedRead, if_neg (by simp [hcap]), readAccess_answers h, linkOf_endLatch]
    rfl
  obtain ⟨hdata, hlink, hother⟩ := readCounter_cases p l ((linkOf l s).far.repaired.setWidth 64)
    (fun k => { k with far := { k.far with repaired := 0 } }) (fun k => { k with far := { k.far with repaired := k.far.repaired + co } }) whole s
  refine ⟨_, hexec, hdata, ?_, hother⟩
  rw [hlink]
  cases whole <;> rfl

/-- A far link's contract written: a field outside its range keeps its value. -/
def contractLink (v : Word) (k : Link) : Link :=
  { k with far := { k.far with
      delayMaxUs := if decide (1 ≤ fieldNat v 0 13) && decide (fieldNat v 0 13 ≤ 5000) then BitVec.ofNat 13 (fieldNat v 0 13) else k.far.delayMaxUs
      lossMax := BitVec.ofNat 16 (fieldNat v 16 16)
      parity := if fieldNat v 32 4 ≤ 8 then fieldNat v 32 4 else k.far.parity } }

theorem completes_farContractWrite {p : Port} {l : Fin 36} {s : State} (h : RegistersAnswer p s) (hcap : farCapable l = true) (v : Word) :
    Completes (.farContractWrite p l v) s fun t =>
      (linkOf l t).far.delayMaxUs.toNat =
          (if 1 ≤ fieldNat v 0 13 ∧ fieldNat v 0 13 ≤ 5000 then fieldNat v 0 13 else (linkOf l s).far.delayMaxUs.toNat) ∧
        (linkOf l t).far.lossMax.toNat = fieldNat v 16 16 ∧
        (linkOf l t).far.parity = (if fieldNat v 32 4 ≤ 8 then fieldNat v 32 4 else (linkOf l s).far.parity) ∧
        ∀ j : Nat, j ≠ l.val → linkOf j t = linkOf j s := by
  have hexec : execFarContractWrite p l v s = .next (modLink l (contractLink v) (endLatch p s)) := by
    rw [execFarContractWrite, regAccess_answers h, hcap]
    rfl
  have hdelay : fieldNat v 0 13 < 2 ^ 13 := Nat.mod_lt _ (by decide)
  have hloss : fieldNat v 16 16 < 2 ^ 16 := Nat.mod_lt _ (by decide)
  refine ⟨_, hexec, ?_, ?_, ?_, fun j hj => (linkOf_modLink_other _ _ _ _ hj).trans (linkOf_endLatch _ _ _)⟩
  · rw [linkOf_modLink, linkOf_endLatch, contractLink]
    dsimp only
    rw [← Bool.decide_and]
    by_cases hrange : 1 ≤ fieldNat v 0 13 ∧ fieldNat v 0 13 ≤ 5000
    · rw [if_pos hrange, if_pos (decide_eq_true hrange), BitVec.toNat_ofNat, Nat.mod_eq_of_lt hdelay]
    · rw [if_neg hrange, if_neg (by simpa using hrange)]
  · rw [linkOf_modLink, contractLink]
    exact (BitVec.toNat_ofNat _ _).trans (Nat.mod_eq_of_lt hloss)
  · rw [linkOf_modLink, linkOf_endLatch, contractLink]

/-- Settles O35: each event of the far transport changes its link as named, and judging the path touches only its window and delays. -/
theorem farLinks : Obligations.FarLinks := by
  refine ⟨fun l s u => ⟨fun f => completes_farFrameReceive, fun n => completes_stripeOverdue, fun n x => completes_repairRerequest,
    completes_farAckSend, fun it t3 => completes_farAckReceive, fun it => completes_farResendReceive, completes_farSilence⟩,
    fun p l s hcap => ⟨completes_pathOutOfContract hcap, fun x => completes_pathBackInContract, fun h =>
      ⟨completes_farFlagsClear h hcap, completes_farRepairedRead h hcap, completes_farContractWrite h hcap⟩⟩⟩

end Sys2Proof.Machine
end

/-! ## Frames (chapters 12 and 13) -/

section

/-! ### Frames sent and taken (R298 to R300, R305, R350)

A frame's number, length and CRC are read off the header it is made with. What follows a frame sent, the second's window, credit,
holds and a rekey, touches links and flags alone: `SameSent`. -/

namespace Sys2Proof.Machine

/-! ## Memory and the frames sent stay -/

/-- From `s` to `t` memory and the frames sent so far stay. -/
def SameSent (s t : State) : Prop := t.memory = s.memory ∧ t.sentFrames = s.sentFrames ∧ t.sentFar = s.sentFar

theorem SameSent.refl (s : State) : SameSent s s := ⟨rfl, rfl, rfl⟩

theorem SameSent.trans {s t u : State} (h : SameSent s t) (k : SameSent t u) : SameSent s u :=
  ⟨k.1.trans h.1, k.2.1.trans h.2.1, k.2.2.trans h.2.2⟩

theorem sameSent_of_besideLinks {s t : State} (h : besideLinks t = besideLinks s) : SameSent s t := by
  have hmem := congrArg State.memory h
  have hframes := congrArg State.sentFrames h
  have hfar := congrArg State.sentFar h
  exact ⟨hmem, hframes, hfar⟩

theorem OnlyLink.sameSent {l : Nat} {s t : State} (h : OnlyLink l s t) : SameSent s t := sameSent_of_besideLinks (onlyLink_iff.1 h).1

theorem OnlyFlags.sameSent {s t : State} (h : OnlyFlags s t) : SameSent s t := (h.onlyLink 0).sameSent

/-! ## The window of frames and link avoidance -/

/-- A link without its one-second window and whether it is avoided. -/
def besideWindow (k : Link) : Link :=
  { k with winStart := 0, winFrames := 0, winRetried := 0, lastFrames := 0, lastRetried := 0, avoidedAt := none }

/-- From `s` to `t` only the window of one link has moved on, and the link has been judged by it. -/
def OnlyWindow (l : Nat) (s t : State) : Prop := OnlyLink l s t ∧ besideWindow (linkOf l t) = besideWindow (linkOf l s)

theorem OnlyWindow.refl (l : Nat) (s : State) : OnlyWindow l s s := ⟨OnlyLink.refl l s, rfl⟩

theorem OnlyWindow.trans {l : Nat} {s t u : State} (h : OnlyWindow l s t) (k : OnlyWindow l t u) : OnlyWindow l s u :=
  ⟨h.1.trans k.1, k.2.trans h.2⟩

theorem onlyWindow_modLink (l : Nat) {f : Link → Link} (hf : ∀ k, besideWindow (f k) = besideWindow k) (s : State) :
    OnlyWindow l s (modLink l f s) :=
  ⟨onlyLink_modLink l f s, by rw [linkOf_modLink]; exact hf _⟩

theorem OnlyFlags.onlyWindow {s t : State} (h : OnlyFlags s t) (l : Nat) : OnlyWindow l s t :=
  ⟨h.onlyLink l, by rw [linkOf_congr h.links]⟩

theorem onlyFlags_logDecision (setting : Nat) (applied : Bool) (g subject old new trigger measured : Nat) (s : State) :
    OnlyFlags s (logDecision setting applied g subject old new trigger measured s) := rfl

theorem onlyWindow_judgeAvoid (l : Nat) (s : State) : OnlyWindow l s (judgeAvoid l s) := by
  unfold judgeAvoid
  extract_lets gs n
  split
  · exact OnlyWindow.refl l s
  · split
    · exact (onlyWindow_modLink l (by intro k; rfl) s).trans ((onlyFlags_logDecision _ _ _ _ _ _ _ _ _).onlyWindow l)
    · exact (onlyFlags_logDecision _ _ _ _ _ _ _ _ s).onlyWindow l
    · exact OnlyWindow.refl l s

/-- A link whose second ends at a time, the next one beginning with the frame at hand. -/
def newWindow (t : Word) (n r : Nat) (k : Link) : Link :=
  { k with winStart := t, lastFrames := k.winFrames, lastRetried := k.winRetried, winFrames := n, winRetried := r }

theorem onlyWindow_tickWindow (l n r : Nat) (s : State) : OnlyWindow l s (tickWindow l n r s) := by
  unfold tickWindow
  dsimp only
  split
  · have hmove : OnlyWindow l s (modLink l (newWindow (mono s) n r) s) := onlyWindow_modLink l (by intro k; rfl) s
    split
    · exact hmove
    · exact hmove.trans (onlyWindow_judgeAvoid l _)
  · exact onlyWindow_modLink l (by intro k; rfl) s

/-! ## A frame's number, body and CRC -/

theorem leNat_fieldSeq (seq crc : W32) : fieldNat (BitVec.ofNat 64 (seq.toNat + crc.toNat * 2 ^ 32) : Word) 0 32 = seq.toNat := by
  rw [fieldNat, BitVec.toNat_ofNat]
  omega

theorem leNat_fieldCrc (seq crc : W32) : fieldNat (BitVec.ofNat 64 (seq.toNat + crc.toNat * 2 ^ 32) : Word) 32 32 = crc.toNat := by
  rw [fieldNat, BitVec.toNat_ofNat]
  omega

theorem seq_mkFrame (type first : Nat) (keyId : Bool) (seq : W32) (body : List Byte) (k : Link) :
    fieldNat (mkFrame type first keyId seq body k).h1 0 32 = seq.toNat := leNat_fieldSeq seq _

theorem body_mkFrame (type first : Nat) (keyId : Bool) (seq : W32) (body : List Byte) (k : Link) :
    (mkFrame type first keyId seq body k).body = body := rfl

theorem frameOk_mkFrame (type first : Nat) (keyId : Bool) (seq : W32) {body : List Byte} (k : Link) (hbody : body.length = 4096) :
    frameOk (mkFrame type first keyId seq body k) = true := by
  have hlength : ((mkFrame type first keyId seq body k).body.length == 4096) = true := beq_iff_eq.2 hbody
  rw [frameOk, seq_mkFrame, hlength, Bool.true_and, beq_iff_eq]
  exact (leNat_fieldCrc seq _).symm

/-! ## Bodies of 4,096 bytes -/

theorem length_padBody {bs : List Byte} (h : bs.length ≤ 4096) : (padBody bs).length = 4096 := by
  rw [padBody, List.length_append, List.length_replicate]
  omega

theorem length_itemAad (it : Item) : (itemAad it).length = 48 := by
  simp only [itemAad, wordBytes, List.length_append, length_leBytes]

theorem sealItem_cases (it : Item) (k : Link) : (sealItem it k).1.length = 64 ∧ (sealItem it k).2.txSeq = k.txSeq := by
  unfold sealItem
  extract_lets n key c tag items
  split
  · exact ⟨by rw [List.length_append, length_itemAad, List.length_replicate], rfl⟩
  · exact ⟨by rw [List.length_append, length_itemAad, length_leBytes], rfl⟩

/-- A control item sealed behind those before it. -/
def sealNext (p : List Byte × Link) (it : Item) : List Byte × Link := (p.1 ++ (sealItem it p.2).1, (sealItem it p.2).2)

theorem foldl_sealNext_cases (its : List Item) (p : List Byte × Link) :
    (its.foldl sealNext p).1.length = p.1.length + 64 * its.length ∧ (its.foldl sealNext p).2.txSeq = p.2.txSeq := by
  induction its generalizing p with
  | nil => exact ⟨rfl, rfl⟩
  | cons it its ih =>
    obtain ⟨hlength, hseq⟩ := ih (sealNext p it)
    obtain ⟨hitem, hkeep⟩ := sealItem_cases it p.2
    refine ⟨hlength.trans ?_, hseq.trans hkeep⟩
    rw [sealNext, List.length_append, hitem, List.length_cons]
    omega

theorem controlBody_cases (k : Link) : (controlBody k).1.length = 4096 ∧ (controlBody k).2.txSeq = k.txSeq := by
  obtain ⟨hlength, hseq⟩ := foldl_sealNext_cases (takeControl k).1 ([], k)
  have hfew : (takeControl k).1.length ≤ 64 := List.length_take_le _ _
  refine ⟨length_padBody ?_, hseq⟩
  refine hlength.le.trans ?_
  rw [List.length_nil]
  omega

theorem sealSeg_txSeq (x : OutSeg) (k : Link) : (sealSeg x k).2.txSeq = k.txSeq := rfl

theorem packBody_cases (seq : Word) (fuel : Nat) (p : Fill) (h : p.1.length ≤ 4096) :
    (packBody seq fuel p).1.length ≤ 4096 ∧ (packBody seq fuel p).2.2.1.txSeq = p.2.2.1.txSeq := by
  induction fuel generalizing p with
  | zero => exact ⟨h, rfl⟩
  | succ fuel ih =>
    obtain ⟨bs, first, k, begun⟩ := p
    replace h : bs.length ≤ 4096 := h
    unfold packBody
    split
    · exact ⟨h, rfl⟩
    · split
      · next x rest _ =>
        extract_lets n
        split
        · next hfits =>
          refine ih _ ?_
          rw [List.length_append]
          omega
        · refine ⟨?_, rfl⟩
          rw [List.length_append, List.length_take]
          omega
      · split
        · exact ⟨h, rfl⟩
        · next x q _ =>
          obtain ⟨hlength, hseq⟩ := ih (bs, some (first.getD (bs.length / 64)),
            { (sealSeg x { k with egress := q }).2 with leaving := some (x, (sealSeg x { k with egress := q }).1) }, begun ++ [x]) h
          exact ⟨hlength, hseq.trans (sealSeg_txSeq x _)⟩

theorem dataBody_cases (seq : Word) (k : Link) : (dataBody seq k).1.length = 4096 ∧ (dataBody seq k).2.2.1.txSeq = k.txSeq := by
  obtain ⟨hlength, hseq⟩ := packBody_cases seq 100 ([], none, k, []) (Nat.zero_le _)
  exact ⟨length_padBody hlength, hseq⟩

/-! ## Frames sent -/

/-- One frame has been sent on a link, and memory stays. -/
def SentFrame (l : Nat) (f : Frame) (s t : State) : Prop := t.memory = s.memory ∧ t.sentFrames = s.sentFrames ++ [(l, f)]

theorem SentFrame.then {l : Nat} {f : Frame} {s t u : State} (h : SentFrame l f s t) (k : SameSent t u) : SentFrame l f s u :=
  ⟨k.1.trans h.1, k.2.1.trans h.2⟩

theorem sentFrame_putFrame (l type first : Nat) (body : List Byte) (k : Link) (s : State) :
    SentFrame l (mkFrame type first k.keyTx k.txSeq body k) s (putFrame l type first body k s) := by
  unfold putFrame
  extract_lets f j
  exact SentFrame.then (t := { s with links := tset s.links l j, sentFrames := s.sentFrames ++ [(l, f)] }) ⟨rfl, rfl⟩
    (onlyWindow_tickWindow l 1 0 _).1.sameSent

theorem onlyFlags_countTx (begun : List OutSeg) (s : State) : OnlyFlags s (countTx begun s) :=
  (onlyFlags_countCard _ _ s).trans (onlyFlags_countCard _ _ _)

theorem sameSent_askKex (l : Nat) (s : State) : SameSent s (askKex l s) := by
  unfold askKex
  dsimp only
  split
  · exact SameSent.refl s
  · next hnone =>
    split
    · obtain ⟨x, its, -, -, -, -, -, hrest⟩ := startKex_cases (l := l) (slot := !(linkOf l s).keyTx) (s := s)
        (Option.not_isSome_iff_eq_none.1 hnone)
      have hmem := congrArg State.memory hrest
      have hframes := congrArg State.sentFrames hrest
      have hfar := congrArg State.sentFar hrest
      exact ⟨hmem, hframes, hfar⟩
    · exact ⟨rfl, rfl, rfl⟩

theorem sameSent_maybeRekey (l before : Nat) (s : State) : SameSent s (maybeRekey l before s) := by
  unfold maybeRekey
  dsimp only
  split
  · exact sameSent_askKex l s
  · exact SameSent.refl s

theorem sameSent_afterFrame (l before : Nat) (s : State) :
    SameSent s (maybeRekey l before (releaseTransit l (settleHold l (settleCredit l s)))) := by
  have hsettled : SameSent s (settleHold l (settleCredit l s)) := ⟨rfl, rfl, rfl⟩
  exact (hsettled.trans (sameSent_of_besideLinks (releaseTransit_cases l _).1)).trans (sameSent_maybeRekey l before _)

/-- What a frame sent anew is: its number, a whole body and a CRC that holds. -/
def NewFrame (seq : W32) (f : Frame) : Prop := fieldNat f.h1 0 32 = seq.toNat ∧ f.body.length = 4096 ∧ frameOk f = true

theorem newFrame_mkFrame (type first : Nat) (keyId : Bool) (seq : W32) {body : List Byte} (k : Link) (hbody : body.length = 4096) :
    NewFrame seq (mkFrame type first keyId seq body k) :=
  ⟨seq_mkFrame _ _ _ _ _ _, hbody, frameOk_mkFrame _ _ _ _ _ hbody⟩

theorem putFrame_new (l type first : Nat) {body : List Byte} {seq : W32} {k : Link} (s : State) (hbody : body.length = 4096)
    (hseq : k.txSeq = seq) : ∃ f, SentFrame l f s (putFrame l type first body k s) ∧ NewFrame seq f :=
  ⟨_, sentFrame_putFrame l type first body k s, hseq ▸ newFrame_mkFrame _ _ _ _ _ hbody⟩

theorem completes_frameTransmit_new {l : Fin 36} {s : State} (hstate : 2 ≤ (linkOf l s).state) (htrain : (linkOf l s).retrainUntil = none)
    (h0 : l.val ≠ 0) (h18 : l.val ≠ 18) (hfar : (linkOf l s).farActive = false) (hresend : (linkOf l s).resend = [])
    (hroom : (linkOf l s).retry.length < 2048) : Completes (.frameTransmit l) s fun t =>
      ∃ f : Frame, SentFrame l f s t ∧ NewFrame (linkOf l s).txSeq f := by
  have hexec : execFrameTransmit l s = .next (sendFrame l s) := by
    simp only [execFrameTransmit, beq_eq_false_iff_ne.2 h0, beq_eq_false_iff_ne.2 h18, Nat.not_lt.2 hstate, htrain, hfar, decide_false,
      Option.isSome_none, Bool.or_self, Bool.false_eq_true, if_false]
  refine ⟨_, hexec, ?_⟩
  obtain ⟨t, ht⟩ : ∃ t, sendFrame l s = t := ⟨_, rfl⟩
  rw [ht]
  unfold sendFrame at ht
  extract_lets k before ctl data r q src u at ht
  rw [show k.resend = [] from hresend] at ht
  replace ht : (if 2048 ≤ k.retry.length then s else _) = t := ht
  rw [if_neg (Nat.not_le.2 hroom)] at ht
  subst ht
  have hu : ∃ f : Frame, SentFrame l f s u ∧ NewFrame (linkOf l s).txSeq f := by
    show ∃ f : Frame, SentFrame l f s (ite _ _ _) ∧ _
    split
    · obtain ⟨hlength, hseq⟩ := controlBody_cases (linkOf l s)
      exact putFrame_new l 2 0 s hlength hseq
    · split
      · obtain ⟨hlength, hseq⟩ := dataBody_cases ((linkOf l s).txSeq.setWidth 64) (linkOf l s)
        obtain ⟨f, hsent, hnew⟩ := putFrame_new l 1 (dataBody ((linkOf l s).txSeq.setWidth 64) (linkOf l s)).2.1 (k :=
          { (dataBody ((linkOf l s).txSeq.setWidth 64) (linkOf l s)).2.2.1 with sentSinceCredit := (linkOf l s).sentSinceCredit + 1 }) s hlength hseq
        exact ⟨f, hsent.then (onlyFlags_countTx _ _).sameSent, hnew⟩
      · exact putFrame_new l 0 0x7F s List.length_replicate rfl
  obtain ⟨f, hsent, hnew⟩ := hu
  exact ⟨f, hsent.then (sameSent_afterFrame l before u), hnew⟩

/-- A link that sends a frame again. -/
def resentLink (x : W32 × Frame × Nat) (rest : List (W32 × Frame × Nat)) (k : Link) : Link :=
  { k with resend := rest, nakDue := false, retried := k.retried + 1
           retry := k.retry.map fun y => if y.1 == x.1 then (y.1, y.2.1, y.2.2 + 1) else y }

/-- A frame of the retry buffer as it is sent again. -/
def resentFrame (x : W32 × Frame × Nat) (k : Link) : Frame :=
  mkFrame (fieldNat x.2.1.h0 0 4) (fieldNat x.2.1.h0 6 7) (bitOf x.2.1.h0 4) x.1 x.2.1.body k

theorem seq_resentFrame (x : W32 × Frame × Nat) (k : Link) : fieldNat (resentFrame x k).h1 0 32 = x.1.toNat := seq_mkFrame _ _ _ _ _ _

theorem resendFrame_eq (l : Nat) (x : W32 × Frame × Nat) (r : List (W32 × Frame × Nat)) (s : State) :
    resendFrame l x r s = tickWindow l 1 1 { modLink l (resentLink x r) s with sentFrames := s.sentFrames ++ [(l, resentFrame x (linkOf l s))] } := rfl

theorem resendFrame_cases (l : Nat) (x : W32 × Frame × Nat) (r : List (W32 × Frame × Nat)) (s : State) : ∃ f : Frame,
    resendFrame l x r s = tickWindow l 1 1 { modLink l (resentLink x r) s with sentFrames := s.sentFrames ++ [(l, f)] } ∧
      f.body = x.2.1.body ∧ fieldNat f.h1 0 32 = x.1.toNat :=
  ⟨resentFrame x (linkOf l s), resendFrame_eq l x r s, body_mkFrame _ _ _ _ x.2.1.body _, seq_resentFrame x (linkOf l s)⟩

theorem sendFrame_resend {l : Nat} {s : State} {x : W32 × Frame × Nat} {r : List (W32 × Frame × Nat)} (h : (linkOf l s).resend = x :: r) :
    sendFrame l s = resendFrame l x r s := by
  unfold sendFrame
  extract_lets k before
  rw [show k.resend = x :: r from h]

theorem completes_frameTransmit_resent {l : Fin 36} {s : State} {x : W32 × Frame × Nat} {r : List (W32 × Frame × Nat)}
    (hstate : 2 ≤ (linkOf l s).state) (htrain : (linkOf l s).retrainUntil = none) (h0 : l.val ≠ 0) (h18 : l.val ≠ 18)
    (hfar : (linkOf l s).farActive = false) (hresend : (linkOf l s).resend = x :: r) : Completes (.frameTransmit l) s fun t =>
      t.memory = s.memory ∧ (linkOf l t).resend = r ∧ (linkOf l t).txSeq = (linkOf l s).txSeq ∧
        (linkOf l t).retried = (linkOf l s).retried + 1 ∧ ∃ f : Frame, t.sentFrames = s.sentFrames ++ [(l.val, f)] ∧
          f.body = x.2.1.body ∧ fieldNat f.h1 0 32 = x.1.toNat := by
  have hexec : execFrameTransmit l s = .next (resendFrame l x r s) := by
    simp only [execFrameTransmit, beq_eq_false_iff_ne.2 h0, beq_eq_false_iff_ne.2 h18, Nat.not_lt.2 hstate, htrain, hfar, decide_false,
      Option.isSome_none, Bool.or_self, Bool.false_eq_true, if_false, sendFrame_resend hresend]
  obtain ⟨f, hf, hbody, hseq⟩ := resendFrame_cases l x r s
  rw [hf] at hexec
  obtain ⟨honly, hlink⟩ := onlyWindow_tickWindow l 1 1 { modLink l (resentLink x r) s with sentFrames := s.sentFrames ++ [(l.val, f)] }
  generalize tickWindow l 1 1 { modLink l (resentLink x r) s with sentFrames := s.sentFrames ++ [(l.val, f)] } = t at hexec honly hlink
  obtain ⟨hmem, hsent, -⟩ := honly.sameSent
  have hstart : linkOf l { modLink l (resentLink x r) s with sentFrames := s.sentFrames ++ [(l.val, f)] } = resentLink x r (linkOf l s) :=
    linkOf_modLink l (resentLink x r) s
  rw [hstart] at hlink
  have hresent := congrArg Link.resend hlink
  have htxSeq := congrArg Link.txSeq hlink
  have hretried := congrArg Link.retried hlink
  exact ⟨t, hexec, hmem, hresent, htxSeq, hretried, f, hsent, hbody, hseq⟩

theorem completes_frameTransmit_repair {l : Fin 36} {s : State} {x : Nat × Nat} {r : List (Nat × Nat)} {b : List Byte}
    (hstate : 2 ≤ (linkOf l s).state) (htrain : (linkOf l s).retrainUntil = none) (h0 : l.val ≠ 0) (h18 : l.val ≠ 18)
    (hfar : (linkOf l s).farActive = true) (hqueue : (linkOf l s).far.repairQ = x :: r)
    (hheld : (tgetD (linkOf l s).far.retransmit x.1 []).find? (fun y => y.1 == x.2) = some (x.2, b)) :
    Completes (.frameTransmit l) s fun t => t.memory = s.memory ∧ (linkOf l t).far.repairQ = r ∧
      ∃ f : FarFrame, t.sentFar = s.sentFar ++ [(l.val, f)] ∧ f.h1 = BitVec.ofNat 64 x.1 ∧ f.body = b.drop 8 ∧
        f.dest = (linkOf l s).far.peerMac ∧ f.src = (linkOf l s).far.mac := by
  have hexec : execFrameTransmit l s = .next (releaseTransit l (sendRepair l x r s)) := by
    simp only [execFrameTransmit, beq_eq_false_iff_ne.2 h0, beq_eq_false_iff_ne.2 h18, Nat.not_lt.2 hstate, htrain, hfar, decide_false,
      Option.isSome_none, Bool.or_self, Bool.false_eq_true, if_false, if_true, sendFar, hqueue]
  obtain ⟨f, hrepair, hh1, hbody, hdest, hsrc⟩ : ∃ f : FarFrame, (sendRepair l x r s).sentFar = s.sentFar ++ [(l.val, f)] ∧
      f.h1 = BitVec.ofNat 64 x.1 ∧ f.body = b.drop 8 ∧ f.dest = (linkOf l s).far.peerMac ∧ f.src = (linkOf l s).far.mac := by
    unfold sendRepair
    extract_lets u
    have hlink : linkOf l u = { linkOf l s with far := { (linkOf l s).far with repairQ := r } } := linkOf_modLink l _ s
    rw [hlink, hheld]
    exact ⟨_, rfl, rfl, rfl, by rw [hlink], by rw [hlink]⟩
  have hkeep : (sendRepair l x r s).memory = s.memory ∧ (linkOf l (sendRepair l x r s)).far.repairQ = r := by
    unfold sendRepair
    extract_lets u
    have hlink : linkOf l u = { linkOf l s with far := { (linkOf l s).far with repairQ := r } } := linkOf_modLink l _ s
    rw [hlink, hheld]
    refine ⟨rfl, ?_⟩
    dsimp only
    rw [linkOf_modLink]
    exact congrArg (fun k : Link => k.far.repairQ) hlink
  obtain ⟨hrest, hlinks⟩ := releaseTransit_cases l (sendRepair l x r s)
  obtain ⟨hmem, -, hsent⟩ := sameSent_of_besideLinks hrest
  have hrepairQ := congrArg (fun k : Link => k.far.repairQ) (hlinks l)
  replace hrepairQ : (linkOf l (releaseTransit l (sendRepair l x r s))).far.repairQ = (linkOf l (sendRepair l x r s)).far.repairQ := hrepairQ
  exact ⟨_, hexec, hmem.trans hkeep.1, hrepairQ.trans hkeep.2, f, hsent.trans hrepair, hh1, hbody, hdest, hsrc⟩

/-! ## Frames taken -/

/-- What a frame that is no NAK leaves of the link whose header it is. -/
def besideHeader (k : Link) : Link :=
  { k with retry := [], resend := [], txAcked := 0, txAckedAt := 0, credit := 0, sentSinceCredit := 0, creditZeroSince := none, unacked := [] }

/-- The frames of a link's retry buffer that an acknowledgment leaves. -/
def unackedFrames (f : Frame) (k : Link) : List (W32 × Frame × Nat) :=
  k.retry.filter fun x => !seqLe x.1 (BitVec.ofNat 32 (fieldNat f.h0 32 32))

theorem links_ackSegs_link (l : Nat) (gone : Word → Bool) (s : State) :
    linkOf l (ackSegs l gone s) = { linkOf l s with unacked := (linkOf l s).unacked.filter fun x => !gone x.2 } :=
  (linkOf_congr (links_ackSegs l gone s) l).trans (linkOf_modLink l _ s)

theorem linkOf_ackSegs_other (l : Nat) (gone : Word → Bool) (s : State) {j : Nat} (hj : j ≠ l) : linkOf j (ackSegs l gone s) = linkOf j s :=
  (linkOf_congr (links_ackSegs l gone s) j).trans (linkOf_modLink_other _ _ _ _ hj)

theorem memory_ackSegs (l : Nat) (gone : Word → Bool) (s : State) : (ackSegs l gone s).memory = s.memory := by
  have hfold (xs : List (OutSeg × Word)) (u : State) : (xs.foldl (fun s x => if x.1.pass == 0 then s
      else modPass (x.1.pass - 1) (fun p => { p with outstanding := p.outstanding.erase x.1.num }) s) u).memory = u.memory := by
    induction xs generalizing u with
    | nil => rfl
    | cons x xs ih =>
      rw [List.foldl_cons, ih]
      split <;> rfl
  exact hfold _ _

theorem takeHeader_cases {l : Nat} {f : Frame} {s : State} (hnak : bitOf f.h0 5 = false) :
    besideHeader (linkOf l (takeHeader l f s)) = besideHeader (linkOf l s) ∧
      (linkOf l (takeHeader l f s)).retry = unackedFrames f (linkOf l s) ∧
      (∀ j : Nat, j ≠ l → linkOf j (takeHeader l f s) = linkOf j s) ∧ (takeHeader l f s).memory = s.memory := by
  unfold takeHeader
  extract_lets ack moved u v
  rw [if_neg (by rw [hnak]; exact Bool.false_ne_true)]
  have hu : linkOf l u = { linkOf l s with
      retry := unackedFrames f (linkOf l s), resend := (linkOf l s).resend.filter fun x => !seqLe x.1 ack
      txAcked := if moved then ack else (linkOf l s).txAcked, txAckedAt := if moved then mono s else (linkOf l s).txAckedAt
      credit := fieldNat f.h0 16 16, sentSinceCredit := 0 } := linkOf_modLink l _ s
  have hv : linkOf l v = _ := linkOf_modLink l _ (ackSegs l (fun q => seqLe (q.setWidth 32) ack) u)
  rw [hv, links_ackSegs_link, hu]
  refine ⟨rfl, rfl, fun j hj => ?_, ?_⟩
  · exact (linkOf_modLink_other _ _ _ _ hj).trans ((linkOf_ackSegs_other l _ u hj).trans (linkOf_modLink_other _ _ _ _ hj))
  · exact (memory_ackSegs l _ u).trans rfl

/-- A link that has taken the frame whose turn it is. -/
def tookLink (f : Frame) (k : Link) : Link :=
  if k.state < 2 then k
  else { k with
    rxNext := k.rxNext + 1, rxBad := false
    keyRx := if (vget k.rxKeys (slotIx (bitOf f.h0 4)) {}).valid then bitOf f.h0 4 else k.keyRx
    rxData := if fieldNat f.h0 0 4 == 1 && k.state == 3 then k.rxData ++ f.body else k.rxData }

theorem completes_frameReceive_next {l : Fin 36} {f : Frame} {s : State} (hstate : 2 ≤ (linkOf l s).state)
    (hfar : (linkOf l s).farActive = false) (hok : frameOk f = true) (htype : fieldNat f.h0 0 4 ≤ 2) (hzero : fieldNat f.h0 13 3 = 0)
    (hnak : bitOf f.h0 5 = false) (hseq : (BitVec.ofNat 32 (fieldNat f.h1 0 32) : W32) = (linkOf l s).rxNext) :
    Completes (.frameReceive l f) s fun t => (linkOf l t).rxNext = (linkOf l s).rxNext + 1 ∧ (linkOf l t).rxBad = false ∧
      (linkOf l t).rxData = (if fieldNat f.h0 0 4 = 1 ∧ (linkOf l s).state = 3 then (linkOf l s).rxData ++ f.body else (linkOf l s).rxData) ∧
      (∀ x ∈ (linkOf l t).retry, seqLe x.1 (BitVec.ofNat 32 (fieldNat f.h0 32 32)) = false ∧ x ∈ (linkOf l s).retry) ∧
      (linkOf l t).state = (linkOf l s).state ∧ (∀ j : Nat, j ≠ l.val → linkOf j t = linkOf j s) ∧ t.memory = s.memory := by
  have hexec : execFrameReceive l f s = .next (modLink l (tookLink f) (takeHeader l f s)) := by
    simp only [execFrameReceive, Nat.not_lt.2 hstate, hfar, hok, Nat.not_lt.2 htype, hzero, hseq, decide_false, bne_self_eq_false, Bool.or_self,
      Bool.not_true, Bool.false_eq_true, if_false, beq_self_eq_true, if_true]
    rfl
  obtain ⟨hlink, hretry, hother, hmem⟩ := takeHeader_cases (l := l) (s := s) hnak
  have hnext := congrArg Link.rxNext hlink
  have hdata := congrArg Link.rxData hlink
  have hkeeps := congrArg Link.state hlink
  replace hnext : (linkOf l (takeHeader l f s)).rxNext = (linkOf l s).rxNext := hnext
  replace hdata : (linkOf l (takeHeader l f s)).rxData = (linkOf l s).rxData := hdata
  replace hkeeps : (linkOf l (takeHeader l f s)).state = (linkOf l s).state := hkeeps
  have htook : linkOf l (modLink l (tookLink f) (takeHeader l f s)) = { linkOf l (takeHeader l f s) with
      rxNext := (linkOf l (takeHeader l f s)).rxNext + 1, rxBad := false
      keyRx := if (vget (linkOf l (takeHeader l f s)).rxKeys (slotIx (bitOf f.h0 4)) {}).valid then bitOf f.h0 4
        else (linkOf l (takeHeader l f s)).keyRx
      rxData := if fieldNat f.h0 0 4 == 1 && (linkOf l (takeHeader l f s)).state == 3 then (linkOf l (takeHeader l f s)).rxData ++ f.body
        else (linkOf l (takeHeader l f s)).rxData } := by
    rw [linkOf_modLink, tookLink, if_neg (by rw [hkeeps]; exact Nat.not_lt.2 hstate)]
  refine ⟨_, hexec, ?_, ?_, ?_, fun x hx => ?_, ?_, fun j hj => (linkOf_modLink_other _ _ _ _ hj).trans (hother j hj), hmem⟩
  · rw [htook, hnext]
  · rw [htook]
  · rw [htook, hdata, hkeeps]
    exact if_congr (by rw [Bool.and_eq_true, beq_iff_eq, beq_iff_eq]) rfl rfl
  · rw [htook] at hx
    replace hx : x ∈ (linkOf l (takeHeader l f s)).retry := hx
    rw [hretry] at hx
    obtain ⟨hmem, hcover⟩ := List.mem_filter.1 hx
    exact ⟨by simpa using hcover, hmem⟩
  · rw [htook]
    exact hkeeps

theorem completes_frameReceive_lost {l : Fin 36} {f : Frame} {s : State} (hstate : 2 ≤ (linkOf l s).state)
    (hfar : (linkOf l s).farActive = false) (hok : frameOk f = false) : Completes (.frameReceive l f) s fun t => OnlyLink l s t ∧
      linkOf l t = if (linkOf l s).rxBad then linkOf l s else { linkOf l s with rxBad := true, nakDue := true } := by
  have hexec : execFrameReceive l f s = .next (loseFrame l s) := by
    simp only [execFrameReceive, Nat.not_lt.2 hstate, hfar, hok, decide_false, Bool.or_self, Bool.not_false, Bool.false_eq_true, if_false, if_true]
  exact ⟨_, hexec, onlyLink_modLink l _ s, linkOf_modLink l _ s⟩

/-- Settles O29: a frame taken moves its link on by one, and one sent carries its number, a whole body and a CRC that holds. -/
theorem framesGoOutAndComeIn : Obligations.FramesGoOutAndComeIn := by
  refine ⟨fun l f s hstate hfar => ⟨completes_frameReceive_next hstate hfar, completes_frameReceive_lost hstate hfar⟩,
    fun l s hstate htrain h0 h18 => ⟨fun x r => completes_frameTransmit_resent hstate htrain h0 h18, fun hfar hresend hroom => ?_,
      fun x r b => completes_frameTransmit_repair hstate htrain h0 h18⟩⟩
  obtain ⟨t, hexec, f, ⟨hmem, hsent⟩, hnew⟩ := completes_frameTransmit_new hstate htrain h0 h18 hfar hresend hroom
  exact ⟨t, hexec, hmem, f, hsent, hnew⟩

end Sys2Proof.Machine
end

/-! ## Segments (chapter 12) -/

section

/-! ### A segment that meets its pass (R302, R303, R306, R328)

Deciphering keeps the length of the data, because each of the fifteen round keys that AES-256 expands a key to has 16 bytes. -/

namespace Sys2Proof.Machine

/-! ## Pieces of a list -/

theorem getD_chunksOf {α : Type} {n : Nat} {k i : Nat} (xs : List α) (hi : i < k) :
    (chunksOf n k xs).getD i [] = (xs.drop (n * i)).take n := by
  induction k generalizing xs i with
  | zero => exact absurd hi (Nat.not_lt_zero i)
  | succ k ih =>
    cases xs with
    | nil => simp only [chunksOf, List.getD_nil, List.drop_nil, List.take_nil]
    | cons x xs =>
      rw [chunksOf]
      cases i with
      | zero => rfl
      | succ i =>
        rw [List.getD_cons_succ, ih _ (Nat.lt_of_succ_lt_succ hi), List.drop_drop, Nat.mul_succ, Nat.add_comm]

theorem chunksOf_cases {α : Type} {n : Nat} (hn : 0 < n) {k : Nat} {xs : List α} (hk : xs.length ≤ k) :
    (∀ b ∈ chunksOf n k xs, b.length ≤ n) ∧ ((chunksOf n k xs).map List.length).sum = xs.length := by
  induction k generalizing xs with
  | zero =>
    rw [List.eq_nil_of_length_eq_zero (Nat.le_zero.1 hk)]
    exact ⟨nofun, rfl⟩
  | succ k ih =>
    cases xs with
    | nil => exact ⟨nofun, rfl⟩
    | cons x xs =>
      have hrest : ((x :: xs).drop n).length ≤ k := by
        rw [List.length_drop]
        omega
      obtain ⟨hsmall, hsum⟩ := ih hrest
      rw [chunksOf]
      refine ⟨fun b hb => ?_, ?_⟩
      · rcases List.mem_cons.1 hb with rfl | hb
        · exact List.length_take_le _ _
        · exact hsmall b hb
      · rw [List.map_cons, List.sum_cons, hsum, List.length_take, List.length_drop]
        omega

/-! ## Deciphering keeps the length (R303) -/

/-- Words of four bytes. -/
def FourBytes (ws : List (List Byte)) : Prop := ∀ w ∈ ws, w.length = 4

theorem fourBytes_aesExpand (n i : Nat) (rc : BitVec 8) {ws : List (List Byte)} (h : FourBytes ws) (h8 : 8 ≤ ws.length) :
    FourBytes (aesExpand n i rc ws) ∧ (aesExpand n i rc ws).length = ws.length + n := by
  induction n generalizing i rc ws with
  | zero => exact ⟨h, rfl⟩
  | succ n ih =>
    have hword (j : Nat) (hj : j < ws.length) : (ws.getD j []).length = 4 := by
      rw [List.getD_eq_getElem _ _ hj]
      exact h _ (List.getElem_mem hj)
    have hhead : (ws.headD []).length = 4 := by
      rw [List.headD_eq_head?_getD, List.head?_eq_getElem?, ← List.getD_eq_getElem?_getD]
      exact hword 0 (by omega)
    obtain ⟨a, b, c, d, habcd⟩ : ∃ a b c d, ws.headD [] = [a, b, c, d] := by
      revert hhead
      generalize ws.headD [] = w
      match w with
      | [a, b, c, d] => exact fun _ => ⟨a, b, c, d, rfl⟩
      | [] | [_] | [_, _] | [_, _, _] | _ :: _ :: _ :: _ :: _ :: _ => exact fun h => by simp at h
    unfold aesExpand
    extract_lets prev t
    have ht : t.length = 4 := by
      show List.length (ite _ _ _) = 4
      split
      · show List.length (match prev.map aesSbox with | [a, b, c, d] => [b ^^^ rc, c, d, a] | l => l) = 4
        rw [show prev = [a, b, c, d] from habcd]
        rfl
      · split
        · rw [List.length_map]
          exact hhead
        · exact hhead
    have hnew : FourBytes (List.zipWith (· ^^^ ·) (ws.getD 7 []) t :: ws) := by
      intro w hw
      rcases List.mem_cons.1 hw with rfl | hw
      · rw [List.length_zipWith, hword 7 (by omega), ht]
        rfl
      · exact h w hw
    obtain ⟨hfour, hlength⟩ := ih (i + 1) (if i % 8 == 0 then gfX rc else rc) hnew (Nat.le_succ_of_le h8)
    refine ⟨hfour, hlength.trans ?_⟩
    rw [List.length_cons]
    omega

theorem length_flatMap_four {ws : List (List Byte)} (h : FourBytes ws) : (ws.flatMap id).length = 4 * ws.length := by
  induction ws with
  | nil => rfl
  | cons w ws ih =>
    rw [List.flatMap_cons, List.length_append, ih fun v hv => h v (List.mem_cons_of_mem _ hv), List.length_cons,
      show (id w).length = 4 from h w List.mem_cons_self]
    omega

/-- The words of a key of 32 bytes. -/
theorem fourBytes_keyWords {key : List Byte} (h : key.length = 32) : FourBytes (chunks 4 key) ∧ 8 ≤ (chunks 4 key).length := by
  match key with
  | [_, _, _, _, _, _, _, _, _, _, _, _, _, _, _, _, _, _, _, _, _, _, _, _, _, _, _, _, _, _, _, _] =>
    refine ⟨fun w hw => ?_, Nat.le_refl _⟩
    fin_cases hw <;> rfl

theorem length_lastRoundKey (k : BitVec 256) : ((aesRoundKeys (keyBytes k)).getD 14 []).length = 16 := by
  obtain ⟨hfour, h8⟩ := fourBytes_keyWords (length_leBytes 32 k.toNat)
  have hrev : FourBytes (chunks 4 (keyBytes k)).reverse := fun w hw => hfour w (List.mem_reverse.1 hw)
  obtain ⟨hwords, hcount⟩ := fourBytes_aesExpand 52 8 1 hrev (by rwa [List.length_reverse])
  have hbytes : ((aesExpand 52 8 1 (chunks 4 (keyBytes k)).reverse).reverse.flatMap id).length =
      4 * (aesExpand 52 8 1 (chunks 4 (keyBytes k)).reverse).length := by
    rw [length_flatMap_four fun w hw => hwords w (List.mem_reverse.1 hw), List.length_reverse]
  have h8' : 8 ≤ (chunks 4 (keyBytes k)).reverse.length := by rwa [List.length_reverse]
  rw [aesRoundKeys, chunks, getD_chunksOf _ (by omega), List.length_take, List.length_drop]
  omega

theorem length_aesBlock {rks : List (List Byte)} (blk : List Byte) (h : (rks.getD 14 []).length = 16) : (aesBlock rks blk).length = 16 := by
  rw [aesBlock, List.length_zipWith, h, aesShiftRows, List.length_map, List.length_range, Nat.min_self]

theorem length_gcmCtr {rks : List (List Byte)} (iv : List Byte) (ctr : Nat) {bs : List (List Byte)} (h : (rks.getD 14 []).length = 16)
    (hb : ∀ b ∈ bs, b.length ≤ 16) : (gcmCtr rks iv ctr bs).length = (bs.map List.length).sum := by
  induction bs generalizing ctr with
  | nil => rfl
  | cons b bs ih =>
    have hone := hb b List.mem_cons_self
    rw [gcmCtr, List.length_append, List.length_zipWith, length_aesBlock _ h, ih (ctr + 1) fun c hc => hb c (List.mem_cons_of_mem _ hc),
      List.map_cons, List.sum_cons]
    omega

theorem length_gcmCrypt (k : BitVec 256) (iv data : List Byte) : (gcmCrypt (keyBytes k) iv data).length = data.length := by
  obtain ⟨hsmall, hsum⟩ := chunksOf_cases (n := 16) (by decide) (Nat.le_refl data.length)
  exact (length_gcmCtr iv 2 (length_lastRoundKey k) hsmall).trans hsum

/-! ## The segment and its pass -/

/-- A segment as its pass takes it: its data plain, its coded bit clear. -/
def plainSeg (x : Segment) (data : List Byte) : Segment := { x with data := data, w0 := x.w0 &&& ~~~ (0x10 : Word) }

theorem clearBit_of_clear {w : Word} (h : bitOf w 4 = false) : w &&& ~~~ (0x10 : Word) = w := by
  refine BitVec.eq_of_getLsbD_eq fun i hi => ?_
  have hmask : (0x10 : Word).getLsbD i = decide (i = 4) := by
    rw [show (0x10 : Word) = BitVec.ofNat 64 (2 ^ 4) from rfl, BitVec.getLsbD_ofNat, Nat.testBit_two_pow]
    simp only [hi, decide_true, Bool.true_and, eq_comm]
  rw [BitVec.getLsbD_and, BitVec.getLsbD_not, hmask]
  by_cases h4 : i = 4
  · subst h4
    rw [show w.getLsbD 4 = false from h, Bool.false_and]
  · simp [hi, h4]

theorem plainSeg_eq {x : Segment} (data : List Byte) (h : bitOf x.w0 4 = false) : plainSeg x data = { x with data := data } := by
  rw [plainSeg, clearBit_of_clear h]

theorem expectsElem_congr {s t : State} (h : t.flash = s.flash) (p : Pass) (g : Group) (level src e : Nat) :
    expectsElem p g t level src e = expectsElem p g s level src e := by
  unfold expectsElem stageLevels
  rw [h]

theorem expectsSeg_congr {s t : State} (h : t.flash = s.flash) (p : Pass) (g : Group) (level src element len : Nat) :
    expectsSeg p g t level src element len = expectsSeg p g s level src element len := by
  simp only [expectsSeg, expectsElem_congr h]

/-- A segment taken into its pass: links and cores stay, and the pass notes it. -/
def TakenInto (p : Pass) (x : Segment) (s t : State) : Prop :=
  t.links = s.links ∧ t.cores = s.cores ∧
    ∃ q : Pass, passOf p.id t = some q ∧ q.got = p.got ++ [(sgSrc x, sgLevel x, sgElement x)] ∧ q.arrivals = p.arrivals + 1

/-- A pass that has noted a segment. -/
def gotPass (x : Segment) (q : Pass) : Pass := { q with got := q.got ++ [(sgSrc x, sgLevel x, sgElement x)], arrivals := q.arrivals + 1 }

theorem takenInto_modPass {p : Pass} {x : Segment} {s t : State} {f : Pass → Pass} (hf : ∀ q, (f q).id = q.id)
    (hgot : ∀ q, (f q).got = q.got ∧ (f q).arrivals = q.arrivals) (hlinks : t.links = s.links) (hcores : t.cores = s.cores)
    (hpass : passOf p.id t = some (gotPass x p)) : TakenInto p x s (modPass p.id f t) :=
  ⟨hlinks, hcores, f (gotPass x p), by rw [passOf_modPass hf, if_pos rfl, hpass]; rfl, (hgot _).1, (hgot _).2⟩

theorem takeData_cases {p : Pass} {g : Group} {x : Segment} {data : List Byte} {s : State} (h : passOf p.id s = some p) :
    TakenInto p x s (takeData p g x data s) := by
  have hpass : passOf p.id (modPass p.id (gotPass x) s) = some (gotPass x p) := by
    rw [passOf_modPass (f := gotPass x) (fun _ => rfl), if_pos rfl, h]
    rfl
  unfold takeData
  extract_lets src el u buffered vs off
  have hu : passOf p.id u = some (gotPass x p) := hpass
  split
  · exact takenInto_modPass (fun _ => rfl) (fun _ => ⟨rfl, rfl⟩) rfl rfl hu
  · have hstore := besideMemory_vaStore p.slot (p.dst + off) data u
    have hlinks := congrArg State.links hstore
    have hcores := congrArg State.cores hstore
    have hpasses := congrArg State.passes hstore
    replace hlinks : (vaStore p.slot (p.dst + off) data u).links = u.links := hlinks
    replace hcores : (vaStore p.slot (p.dst + off) data u).cores = u.cores := hcores
    replace hpasses : (vaStore p.slot (p.dst + off) data u).passes = u.passes := hpasses
    refine takenInto_modPass (fun _ => rfl) (fun _ => ⟨rfl, rfl⟩) hlinks hcores ?_
    rw [passOf, hpasses]
    exact hu

/-- What a segment needs to meet its pass. -/
structure Expected (x : Segment) (g : Group) (p : Pass) (s : State) : Prop where
  plain : bitOf x.w0 4 = false
  coll : sgColl x ≤ 4
  group : groupOf (sgGroup x) s = some g
  dst : sgDst x = g.rank
  present : g.absent.contains (sgSrc x) = false
  accepted : g.refused.contains x.w1.toNat = false
  pass : s.passes.find? (fun p => p.group == g.id && p.ordinal == x.w1.toNat && p.round.isNone) = some p
  byId : passOf p.id s = some p
  admitted : p.admitted = true
  sig : sgSig x = p.sig.toNat
  new : p.got.contains (sgSrc x, sgLevel x, sgElement x) = false
  expects : expectsSeg p g s (sgLevel x) (sgSrc x) (sgElement x) (sgLength x) = true

/-- A group that has heard from a rank at a time. -/
def heardGroup (src : Nat) (t : Word) (g : Group) : Group := { g with heard := tset g.heard src t }

theorem actSegment_expected {l : Nat} {x : Segment} {data : List Byte} {g : Group} {p : Pass} {s u : State} (h : Expected x g p s)
    (hlength : data.length = sgLength x) (hgroups : u.groups = s.groups) (hpasses : u.passes = s.passes) (hflash : u.flash = s.flash) :
    actSegment l x data u = takeData p g { x with data := data } data (modGroup g.id (heardGroup (sgSrc x) (mono u)) u) := by
  have hgroup : groupOf (sgGroup x) u = some g := by
    rw [groupOf, hgroups]
    exact h.group
  have hfind : (modGroup g.id (heardGroup (sgSrc x) (mono u)) u).passes.find?
      (fun p => p.group == g.id && p.ordinal == x.w1.toNat && p.round.isNone) = some p :=
    (congrArg (List.find? fun p : Pass => p.group == g.id && p.ordinal == x.w1.toNat && p.round.isNone) hpasses).trans h.pass
  have hexpects : expectsSeg p g (modGroup g.id (heardGroup (sgSrc x) (mono u)) u) (sgLevel x) (sgSrc x) (sgElement x) data.length = true := by
    rw [expectsSeg_congr (s := s) (t := modGroup g.id (heardGroup (sgSrc x) (mono u)) u) hflash, hlength]
    exact h.expects
  have hcoll := h.coll
  have h7 : (sgColl x == 7) = false := beq_eq_false_iff_ne.2 (by omega)
  have haccept : acceptSeg l p g { x with data := data } data (modGroup g.id (heardGroup (sgSrc x) (mono u)) u) =
      takeData p g { x with data := data } data (modGroup g.id (heardGroup (sgSrc x) (mono u)) u) := by
    have hsig : (sgSig { x with data := data } != p.sig.toNat) = false := bne_eq_false_iff_eq.2 h.sig
    have hnew : (p.got.contains (sgSrc { x with data := data }, sgLevel { x with data := data }, sgElement { x with data := data }) ||
        !expectsSeg p g (modGroup g.id (heardGroup (sgSrc x) (mono u)) u) (sgLevel { x with data := data }) (sgSrc { x with data := data })
          (sgElement { x with data := data }) data.length) = false := by
      rw [Bool.or_eq_false_iff, Bool.not_eq_false']
      exact ⟨h.new, hexpects⟩
    rw [acceptSeg, hsig, hnew, if_neg Bool.false_ne_true, if_neg Bool.false_ne_true]
  rw [← haccept, ← plainSeg_eq data h.plain]
  unfold actSegment
  rw [h7, if_neg Bool.false_ne_true, if_neg (Nat.not_lt.2 hcoll), hgroup]
  dsimp only
  rw [if_neg (by rw [bne_iff_ne, ne_eq, not_not]; exact h.dst), if_neg (by rw [h.present]; exact Bool.false_ne_true),
    if_neg (by rw [h.accepted]; exact Bool.false_ne_true)]
  rw [show (modGroup g.id (fun k => { k with heard := tset k.heard (sgSrc x) (mono u) }) u).passes.find?
    (fun p => p.group == g.id && p.ordinal == x.w1.toNat && p.round.isNone) = some p from hfind]
  dsimp only
  rw [if_pos h.admitted]
  rfl

/-- A link that has given up the bytes of a segment. -/
def drainedLink (n : Nat) (k : Link) : Link := { k with rxData := k.rxData.drop (segBytesOf n) }

/-- The data of a segment as its link receives it. -/
def clearData (k : Link) (x : Segment) : List Byte :=
  if k.crypto then x.data else gcmCrypt (keyBytes (vget k.rxKeys (slotIx x.keyId) {}).key) (itemIv (vget k.rxKeys (slotIx x.keyId) {}).const x.w5) x.data

theorem length_clearData (k : Link) (x : Segment) : (clearData k x).length = x.data.length := by
  unfold clearData
  split
  · rfl
  · exact length_gcmCrypt _ _ _

theorem withSegment_plain {l : Nat} {x : Segment} {s : State} (act : Segment → List Byte → State → State) (hstate : (linkOf l s).state = 3)
    (htag : tagOk (linkOf l s) x.keyId x.w5 (if (linkOf l s).crypto then segAad x ++ x.data else segAad x)
      (if (linkOf l s).crypto then [] else x.data) x.tag = true)
    (hnonce : nonceFresh (linkOf l s) x.keyId x.w5 = true) (hform : segFormOk x = true) (hplain : bitOf x.w0 4 = false) :
    withSegment l x act s = act x (clearData (linkOf l s) x) (countCard 3 (64 + (clearData (linkOf l s) x).length)
      (modLink l (nonceLink x.keyId x.w5) (modLink l (drainedLink x.data.length) s))) := by
  have hok : (if (linkOf l s).crypto then tagOk (linkOf l s) x.keyId x.w5 (segAad x ++ x.data) [] x.tag
      else tagOk (linkOf l s) x.keyId x.w5 (segAad x) x.data x.tag) = true := by
    cases hc : (linkOf l s).crypto
    · rw [hc] at htag
      exact htag
    · rw [hc] at htag
      exact htag
  have hup : ((linkOf l s).state != 3) = false := bne_eq_false_iff_eq.2 hstate
  simp only [withSegment, hup, Bool.false_eq_true, if_false, hok, hnonce, hform, hplain, Bool.not_true]
  rfl

theorem segLength_of_formOk {x : Segment} (h : segFormOk x = true) : x.data.length = sgLength x := by
  simp only [segFormOk, Bool.and_eq_true, beq_iff_eq] at h
  exact h.2.symm

/-- Settles O30: what precedes the pass touches only the link, a group and the card, and deciphering keeps the length that is expected. -/
theorem segmentsMeetTheirPass : Obligations.SegmentsMeetTheirPass := by
  refine fun l x s g p hstate htag hnonce hform hplain hcoll hgroup hdst hpresent haccepted hpass hid hadmitted hsig hnew hexpects => ?_
  have hneeds : Expected x g p s := ⟨hplain, hcoll, hgroup, hdst, hpresent, haccepted, hpass, hid, hadmitted, hsig, hnew, hexpects⟩
  have hlength : (clearData (linkOf l s) x).length = sgLength x := (length_clearData _ x).trans (segLength_of_formOk hform)
  have hexec : execSegmentReceive l x s = .next _ := congrArg Host.Outcome.next (withSegment_plain (actSegment l) hstate htag hnonce hform hplain)
  revert hexec hlength
  generalize clearData (linkOf l s) x = data
  intro hlength hexec
  obtain ⟨u, hu⟩ : ∃ u, u = modLink l (nonceLink x.keyId x.w5) (modLink l (drainedLink x.data.length) s) := ⟨_, rfl⟩
  rw [← hu] at hexec
  have hcard := onlyFlags_countCard 3 (64 + data.length) u
  have hcores : (countCard 3 (64 + data.length) u).cores = s.cores := (congrArg State.cores hcard).trans (by rw [hu]; rfl)
  have hgroups : (countCard 3 (64 + data.length) u).groups = s.groups := (congrArg State.groups hcard).trans (by rw [hu]; rfl)
  have hpasses : (countCard 3 (64 + data.length) u).passes = s.passes := (congrArg State.passes hcard).trans (by rw [hu]; rfl)
  have hflash : (countCard 3 (64 + data.length) u).flash = s.flash := (congrArg State.flash hcard).trans (by rw [hu]; rfl)
  rw [actSegment_expected hneeds hlength hgroups hpasses hflash] at hexec
  have hid' : passOf p.id (modGroup g.id (heardGroup (sgSrc x) (mono (countCard 3 (64 + data.length) u))) (countCard 3 (64 + data.length) u)) =
      some p := (congrArg (List.find? fun q : Pass => q.id == p.id) hpasses).trans hid
  obtain ⟨hlinks, hcoresEnd, q, hq, hgot, harrivals⟩ := takeData_cases (g := g) (x := { x with data := data }) (data := data) hid'
  have hlink (j : Nat) : linkOf j (takeData p g { x with data := data } data (modGroup g.id (heardGroup (sgSrc x)
      (mono (countCard 3 (64 + data.length) u))) (countCard 3 (64 + data.length) u))) = linkOf j u :=
    (linkOf_congr hlinks j).trans (linkOf_congr hcard.links j)
  refine ⟨_, hexec, ?_, fun j hj => ?_, hcoresEnd.trans hcores, q, hq, hgot, harrivals⟩
  · rw [hlink, hu, linkOf_modLink, linkOf_modLink]
    rfl
  · rw [hlink, hu, linkOf_modLink_other _ _ _ _ hj, linkOf_modLink_other _ _ _ _ hj]

end Sys2Proof.Machine
end

/-! ## Channels and their memory (chapter 02) -/

section

/-! ### Channels created, adopted, mapped, unmapped and destroyed (R23, R26, R28, R29, R31, R50)

Each descriptor's effect is an equation of its `start` function; what its pages and frames are afterwards is said of the table of
pages alone. A channel destroyed with no work is freed at once, and what begins in the cores it leaves touches only runs and cores. -/

namespace Sys2Proof.Machine

/-! ## Fetching leaves the port that serves the channel -/

theorem Fetched.port_open {op : BitVec 8} {d : Desc} {s u : State} {r : DescRec} (h : Fetched op d s r u) : (portOf r.port u).fenced = false := by
  obtain ⟨hfetch, _, c, hc, rfl, rfl, _⟩ := h
  simp only [canFetch, hc, Bool.and_eq_true, Bool.not_eq_true'] at hfetch
  obtain ⟨⟨⟨⟨⟨⟨⟨_, _⟩, _⟩, hopen⟩, _⟩, _⟩, _⟩, _⟩ := hfetch
  rw [noteFetch_eq, portOf_modChan]
  exact hopen

/-! ## Creation and adoption (R26, R50) -/

/-- The channel that a CHANNEL_CREATE makes. -/
def createdChan (r : DescRec) (gen slot : Nat) (cs : List Nat) (rings : Vector Ring 8) (cq : CRing) : Chan :=
  let w := r.desc.w2
  { handle := mkHandle (fieldNat w 0 4) gen slot, cls := fieldNat w 0 4, owner := r.port, shared := bitOf w 5, legacy := bitOf w 53
    fp16Ieee := bitOf w 54, srBits := if fieldNat w 48 5 == 0 then 8 else fieldNat w 48 5, linkGbps := fieldNat w 32 16, seed := r.desc.w7
    cores := cs, rings := rings, cq := cq }

/-- A slot given to a channel. -/
def givenSlot (c : Chan) (x : Slot) : Slot := { x with lastHandle := c.handle, bellError := false, bellCount := 0, chan := some c }

theorem createChannel_eq {r : DescRec} {u : State} {slot : Nat} {cs : List Nat} {rings : Vector Ring 8} {cq : CRing}
    (hlow : 1 ≤ fieldNat r.desc.w2 0 4) (hhigh : fieldNat r.desc.w2 0 4 ≤ 3) (hsr : fieldNat r.desc.w2 48 5 ≤ 16)
    (hnamed : fieldNat r.desc.w2 0 4 = 1 ↔
      r.desc.w3.toNat + r.desc.w4.toNat * 2 ^ 64 + r.desc.w5.toNat * 2 ^ 128 ≠ 0 ∨ fieldNat r.desc.w2 16 16 ≠ 0)
    (hring : readRingBlock r.port r.desc.w6.toNat u = .ok (rings, cq)) (hslot : freeSlotNo u = some slot)
    (hcores : (if fieldNat r.desc.w2 0 4 = 1 then coresFor (r.desc.w3.toNat + r.desc.w4.toNat * 2 ^ 64 + r.desc.w5.toNat * 2 ^ 128)
      (fieldNat r.desc.w2 16 16) (bitOf r.desc.w2 5) u else some []) = some cs)
    (hlinks : 100 * fieldNat r.desc.w2 32 16 ≤ linkFree u) :
    createChannel r u = done r (createdChan r (slotOf slot u).gen.toNat slot cs rings cq).handle.toNat
      (modSlot slot (givenSlot (createdChan r (slotOf slot u).gen.toNat slot cs rings cq)) u) := by
  have hfields : (fieldNat r.desc.w2 0 4 == 0 || decide (3 < fieldNat r.desc.w2 0 4) || decide (16 < fieldNat r.desc.w2 48 5) ||
      (r.desc.w3.toNat + r.desc.w4.toNat * 2 ^ 64 + r.desc.w5.toNat * 2 ^ 128 != 0 || fieldNat r.desc.w2 16 16 != 0) !=
        (fieldNat r.desc.w2 0 4 == 1)) = false := by
    have hsame : (r.desc.w3.toNat + r.desc.w4.toNat * 2 ^ 64 + r.desc.w5.toNat * 2 ^ 128 != 0 || fieldNat r.desc.w2 16 16 != 0) =
        (fieldNat r.desc.w2 0 4 == 1) := by
      rw [Bool.eq_iff_iff, Bool.or_eq_true, bne_iff_ne, bne_iff_ne, beq_iff_eq]
      exact hnamed.symm
    rw [hsame]
    simp only [bne_self_eq_false, Bool.or_false, Bool.or_eq_false_iff, beq_eq_false_iff_ne, decide_eq_false_iff_not]
    omega
  have hcores' : (if (fieldNat r.desc.w2 0 4 == 1) = true then coresFor (r.desc.w3.toNat + r.desc.w4.toNat * 2 ^ 64 + r.desc.w5.toNat * 2 ^ 128)
      (fieldNat r.desc.w2 16 16) (bitOf r.desc.w2 5) u else some []) = some cs := by
    rw [← hcores]
    exact if_congr beq_iff_eq rfl rfl
  simp only [createChannel, hfields, Bool.false_eq_true, if_false, hring, hcores', hslot, if_neg (Nat.not_lt.2 hlinks)]
  rfl

theorem completes_channelCreate {d : Desc} {s u : State} {r : DescRec} {slot : Nat} {cs : List Nat} {rings : Vector Ring 8} {cq : CRing}
    (h : Starts 0x40 d s r u) (hnew : bitOf d.w2 4 = false) (hlow : 1 ≤ fieldNat d.w2 0 4) (hhigh : fieldNat d.w2 0 4 ≤ 3)
    (hsr : fieldNat d.w2 48 5 ≤ 16)
    (hnamed : fieldNat d.w2 0 4 = 1 ↔ d.w3.toNat + d.w4.toNat * 2 ^ 64 + d.w5.toNat * 2 ^ 128 ≠ 0 ∨ fieldNat d.w2 16 16 ≠ 0)
    (hring : readRingBlock r.port d.w6.toNat u = .ok (rings, cq)) (hslot : freeSlotNo u = some slot)
    (hcores : (if fieldNat d.w2 0 4 = 1 then coresFor (d.w3.toNat + d.w4.toNat * 2 ^ 64 + d.w5.toNat * 2 ^ 128) (fieldNat d.w2 16 16)
      (bitOf d.w2 5) u else some []) = some cs)
    (hlinks : 100 * fieldNat d.w2 32 16 ≤ linkFree u) :
    Completes (.channelCreate d) s fun t => ∃ c : Chan, Finishes r c.handle.toNat t fun v => OnlySlot slot u v ∧ chanOf slot v = some c ∧
      c.handle = mkHandle (fieldNat d.w2 0 4) (slotOf slot u).gen.toNat slot ∧ c.cls = fieldNat d.w2 0 4 ∧ c.owner = r.port ∧ c.cores = cs ∧
      c.rings = rings ∧ c.cq = cq ∧ c.pages = [] ∧ c.waiting = [] ∧ c.seed = d.w7 ∧ (slotOf slot v).bellError = false := by
  obtain rfl := h.desc.1
  have hexec : execChannelCreate r.desc s = .next (done r (createdChan r (slotOf slot u).gen.toNat slot cs rings cq).handle.toNat
      (modSlot slot (givenSlot (createdChan r (slotOf slot u).gen.toNat slot cs rings cq)) u)) := by
    rw [execChannelCreate, h.fetchWith, startCreate, if_neg (by rw [hnew]; exact Bool.false_ne_true),
      createChannel_eq hlow hhigh hsr hnamed hring hslot hcores hlinks]
  exact ⟨_, hexec, createdChan r (slotOf slot u).gen.toNat slot cs rings cq, _, rfl, onlySlot_modSlot _ _ _, chanOf_modSlot _ _ _,
    rfl, rfl, rfl, rfl, rfl, rfl, rfl, rfl, rfl, congrArg Slot.bellError (slotOf_modSlot _ _ _)⟩

/-- A channel in the hands of another port. -/
def adoptedChan (p : Port) (rings : Vector Ring 8) (cq : CRing) (c : Chan) : Chan := { c with owner := p, rings := rings, cq := cq, lost := 0 }

theorem completes_channelAdopt {d : Desc} {s u : State} {r : DescRec} {c : Chan} {rings : Vector Ring 8} {cq : CRing}
    (h : Starts 0x40 d s r u) (hadopt : bitOf d.w2 4 = true) (hstale : handleStale (d.w3.setWidth 32) u = false)
    (hc : chanOf (handleSlot (d.w3.setWidth 32)) u = some c) (h2 : 2 ≤ handleSlot (d.w3.setWidth 32))
    (hcls : handleClass (d.w3.setWidth 32) = c.cls) (hfenced : (portOf c.owner u).fenced = true)
    (hring : readRingBlock r.port d.w6.toNat u = .ok (rings, cq)) :
    Completes (.channelAdopt d) s fun t => Finishes r ((d.w3.setWidth 32 : W32).toNat + c.lost % 65536 * 2 ^ 32) t fun v =>
      chanOf (handleSlot (d.w3.setWidth 32)) v = some { c with owner := r.port, rings := rings, cq := cq, lost := 0 } ∧
      (∀ j : Nat, j ≠ handleSlot (d.w3.setWidth 32) → slotOf j v = slotOf j u) ∧
      (portOf r.port v).mem = memWrite (portOf r.port u).mem (d.w6.toNat + 0x100) (adoptHeads c) := by
  obtain rfl := h.desc.1
  have hopen := h.1.port_open
  have hexec : execChannelAdopt r.desc s = .next (done r ((r.desc.w3.setWidth 32 : W32).toNat + c.lost % 65536 * 2 ^ 32)
      (modChan (handleSlot (r.desc.w3.setWidth 32)) (adoptedChan r.port rings cq)
        (hostWrite r.port (r.desc.w6.toNat + 0x100) (adoptHeads c) u))) := by
    have hfields : (decide (handleSlot (r.desc.w3.setWidth 32) < 2) || handleClass (r.desc.w3.setWidth 32) != c.cls) = false := by
      rw [hcls, bne_self_eq_false, Bool.or_false, decide_eq_false_iff_not, Nat.not_lt]
      exact h2
    rw [execChannelAdopt, h.fetchWith, startCreate, if_pos hadopt]
    simp only [adoptChannel, hstale, hc, hfields, hfenced, hring, Bool.not_true, Bool.false_eq_true, if_false]
    rfl
  have hwrite : hostWrite r.port (r.desc.w6.toNat + 0x100) (adoptHeads c) u =
      modPort r.port (fun q => { q with mem := memWrite q.mem (r.desc.w6.toNat + 0x100) (adoptHeads c) }) u := by
    rw [hostWrite, hopen, if_neg Bool.false_ne_true]
  rw [hwrite] at hexec
  refine ⟨_, hexec, _, rfl, ?_, fun j hj => ?_, ?_⟩
  · exact chanOf_modChan_some (adoptedChan r.port rings cq) ((chanOf_modPort _ _ _ _).trans hc)
  · exact (slotOf_modChan_other _ _ _ _ hj).trans (slotOf_modPort _ _ _ _)
  · rw [portOf_modChan, portOf_modPort]

/-! ## Pages mapped (R31) -/

theorem firstPage_eq_none {p : Nat → Bool} {n q : Nat} (h : ∀ x : Nat, q ≤ x → x < q + n → p x = false) : firstPage p n q = none := by
  induction n generalizing q with
  | zero => rfl
  | succ n ih =>
    rw [firstPage, h q (Nat.le_refl q) (by omega), if_neg Bool.false_ne_true]
    exact ih fun x hlow hhigh => h x (by omega) (by omega)

theorem tget?_foldl_tset {α β : Type} (f : β → α) (q i : Nat) (ks : List β) (t : Tbl α) (x : Nat) :
    tget? ((ks.zipIdx i).foldl (fun t k => tset t (q + k.2) (f k.1)) t) x =
      if q + i ≤ x ∧ x < q + i + ks.length then (ks[x - q - i]?).map f else tget? t x := by
  induction ks generalizing i t with
  | nil =>
    rw [if_neg (by rw [List.length_nil]; omega)]
    rfl
  | cons k ks ih =>
    rw [List.zipIdx_cons, List.foldl_cons, ih]
    by_cases hx : x = q + i
    · subst hx
      rw [if_neg (by omega), if_pos (by rw [List.length_cons]; omega), tget?_tset_same, show q + i - q - i = 0 by omega]
      rfl
    · rw [tget?_tset_other _ _ _ _ hx]
      by_cases hin : q + (i + 1) ≤ x ∧ x < q + (i + 1) + ks.length
      · rw [if_pos hin, if_pos (by rw [List.length_cons]; omega), show x - q - i = x - q - (i + 1) + 1 by omega, List.getElem?_cons_succ]
      · rw [if_neg hin, if_neg (by rw [List.length_cons]; omega)]

/-- A channel with pages mapped. -/
def mappedChan (q : Nat) (ro : Bool) (kinds : List PageKind) (c : Chan) : Chan :=
  { c with pages := kinds.zipIdx.foldl (fun t k => tset t (q + k.2) { kind := k.1, readOnly := ro }) c.pages }

theorem pagesMapped_mapPages {slot q : Nat} {ro : Bool} {kinds : List PageKind} {c : Chan} {u v : State} (hc : chanOf slot u = some c)
    (hv : v.slots = u.slots) : PagesMapped slot q ro kinds u (mapPages slot q ro kinds v) := by
  have hc' := (chanOf_congr hv slot).trans hc
  refine ⟨fun j hj => (slotOf_modChan_other _ _ _ _ hj).trans (slotOf_congr hv j), c, mappedChan q ro kinds c, hc,
    chanOf_modChan_some (mappedChan q ro kinds) hc', rfl, fun x => ?_⟩
  exact tget?_foldl_tset (fun y => ({ kind := y, readOnly := ro } : Page)) q 0 kinds c.pages x

theorem ownedChan_some {h : W32} {r : DescRec} {s : State} {slot : Nat} {c : Chan} (hown : ownedChan h r s = some (slot, c, true)) :
    chanOf slot s = some c ∧ 2 ≤ slot := by
  unfold ownedChan at hown
  split at hown
  · exact absurd hown nofun
  · obtain ⟨k, hk, heq⟩ := Option.map_eq_some_iff.1 hown
    simp only [Prod.mk.injEq, Bool.and_eq_true, decide_eq_true_eq] at heq
    obtain ⟨rfl, rfl, -, h2⟩ := heq
    exact ⟨hk, h2⟩

/-- What a MAP_MEMORY that passes the checks does. -/
def startMapChecked (r : DescRec) (slot : Nat) (u : State) : State :=
  let n := fieldNat r.desc.w4 0 27
  let ro := bitOf r.desc.w4 35
  let q := fieldNat r.desc.w3 0 48 / pageBytes
  let aslot := handleSlot (r.desc.w6.setWidth 32)
  match fieldNat r.desc.w4 32 3 with
  | 0 =>
    let fs := lowestFrames u.memory.framesUsed (n + u.memory.framesUsed.length) n 0
    if frameCapacity u.flash.variant < u.memory.framesUsed.length + u.memory.privateFrames + n then refuseCap r 0 u
    else done r 0 (mapPages slot q ro (fs.map .fast) (modMemory (fun m => { m with framesUsed := m.framesUsed ++ fs }) u))
  | 3 =>
    match chanOf aslot u with
    | none => refuse r 0x0004 0 u
    | some a =>
      done r 0 (mapPages slot q ro ((List.range n).map fun i => resolveAlias aslot (fieldNat r.desc.w7 0 48 / pageBytes + i) a) u)
  | k => done r 0 (mapPages slot q ro
      ((List.range n).map fun i => .slow (if k == 1 then Port.A else Port.B) (r.desc.w5.toNat + i * pageBytes)) u)

theorem startMap_checks {r : DescRec} {u : State} {slot : Nat} {c : Chan} (hown : ownedChan (r.desc.w2.setWidth 32) r u = some (slot, c, true))
    (hrange : badRange (fieldNat r.desc.w3 0 48) (fieldNat r.desc.w4 0 27) = false)
    (hfree : ∀ x : Nat, fieldNat r.desc.w3 0 48 / pageBytes ≤ x → x < fieldNat r.desc.w3 0 48 / pageBytes + fieldNat r.desc.w4 0 27 →
      tget? c.pages x = none)
    (hkind : fieldNat r.desc.w4 32 3 ≤ 3) (halias : fieldNat r.desc.w4 32 3 = 3 → badAlias r (fieldNat r.desc.w4 0 27) u = false ∧
      ∀ x : Nat, fieldNat r.desc.w7 0 48 / pageBytes ≤ x → x < fieldNat r.desc.w7 0 48 / pageBytes + fieldNat r.desc.w4 0 27 →
        (locate (handleSlot (r.desc.w6.setWidth 32)) (x * pageBytes) u).isSome = true)
    (hslow : fieldNat r.desc.w4 32 3 = 1 ∨ fieldNat r.desc.w4 32 3 = 2 → r.desc.w5.toNat % pageBytes = 0) :
    startMap r u = startMapChecked r slot u := by
  have hfields : (!true || badRange (fieldNat r.desc.w3 0 48) (fieldNat r.desc.w4 0 27) || decide (3 < fieldNat r.desc.w4 32 3) ||
      (fieldNat r.desc.w4 32 3 == 3 && badAlias r (fieldNat r.desc.w4 0 27) u) ||
      ((fieldNat r.desc.w4 32 3 == 1 || fieldNat r.desc.w4 32 3 == 2) && r.desc.w5.toNat % pageBytes != 0)) = false := by
    have hbad : (fieldNat r.desc.w4 32 3 == 3 && badAlias r (fieldNat r.desc.w4 0 27) u) = false := by
      rw [Bool.and_eq_false_imp, beq_iff_eq]
      exact fun h3 => (halias h3).1
    have hport : ((fieldNat r.desc.w4 32 3 == 1 || fieldNat r.desc.w4 32 3 == 2) && r.desc.w5.toNat % pageBytes != 0) = false := by
      rw [Bool.and_eq_false_imp, Bool.or_eq_true, beq_iff_eq, beq_iff_eq, bne_eq_false_iff_eq]
      exact hslow
    rw [hrange, hbad, hport, decide_eq_false (Nat.not_lt.2 hkind)]
    rfl
  have hmapped : firstPage (fun x => (tget? c.pages x).isSome) (fieldNat r.desc.w4 0 27) (fieldNat r.desc.w3 0 48 / pageBytes) = none :=
    firstPage_eq_none fun x hlow hhigh => by rw [hfree x hlow hhigh, Option.isSome_none]
  have haliased : (if (fieldNat r.desc.w4 32 3 == 3) = true then
      firstPage (fun x => (locate (handleSlot (r.desc.w6.setWidth 32)) (x * pageBytes) u).isNone) (fieldNat r.desc.w4 0 27)
        (fieldNat r.desc.w7 0 48 / pageBytes) else none) = none := by
    split
    · next h3 =>
      exact firstPage_eq_none fun x hlow hhigh => by
        rw [← Option.not_isSome, (halias (beq_iff_eq.1 h3)).2 x hlow hhigh, Bool.not_true]
    · rfl
  unfold startMap
  rw [hown]
  dsimp only
  rw [if_neg (by rw [hfields]; exact Bool.false_ne_true), haliased]
  dsimp only
  rw [if_neg (by rw [hmapped]; exact Bool.false_ne_true)]
  rfl

/-- The frames in use among those from frame `i` on. -/
theorem length_lowestFrames {used : List Nat} {fuel n i : Nat} (h : n + (List.range' i fuel).countP (used.contains ·) ≤ fuel) :
    (lowestFrames used fuel n i).length = n := by
  induction fuel generalizing n i with
  | zero =>
    rw [lowestFrames]
    exact (Nat.le_zero.1 ((Nat.le_add_right _ _).trans h)).symm
  | succ fuel ih =>
    cases n with
    | zero => rfl
    | succ n =>
      rw [List.range'_succ, List.countP_cons] at h
      rw [lowestFrames]
      cases hused : used.contains i
      · rw [hused, if_neg Bool.false_ne_true] at h
        rw [if_neg Bool.false_ne_true, List.length_cons, ih (by omega)]
      · rw [hused, if_pos rfl] at h
        rw [if_pos rfl, ih (by omega)]

theorem countP_contains_le (used : List Nat) (i fuel : Nat) : (List.range' i fuel).countP (used.contains ·) ≤ used.length := by
  rw [List.countP_eq_length_filter]
  have hnodup : ((List.range' i fuel).filter (used.contains ·)).Nodup := (List.nodup_range' (step := 1)).filter _
  have hsub : (List.range' i fuel).filter (used.contains ·) ⊆ used := fun x hx => List.contains_iff_mem.1 (List.mem_filter.1 hx).2
  exact (hnodup.subperm hsub).length_le

theorem lowestFrames_unused {used : List Nat} {fuel n i f : Nat} (h : f ∈ lowestFrames used fuel n i) : f ∉ used := by
  induction fuel generalizing n i with
  | zero => exact absurd h nofun
  | succ fuel ih =>
    cases n with
    | zero => exact absurd h nofun
    | succ n =>
      rw [lowestFrames] at h
      split at h
      · exact ih h
      · next hnew =>
        rcases List.mem_cons.1 h with rfl | h
        · exact fun hmem => hnew (List.contains_iff_mem.2 hmem)
        · exact ih h

section

variable {d : Desc} {s u : State} {r : DescRec} {slot : Nat} {c : Chan}

theorem completes_mapMemory_fast (h : Starts 0x42 d s r u) (hown : ownedChan (d.w2.setWidth 32) r u = some (slot, c, true))
    (hrange : badRange (fieldNat d.w3 0 48) (fieldNat d.w4 0 27) = false)
    (hfree : ∀ x : Nat, fieldNat d.w3 0 48 / pageBytes ≤ x → x < fieldNat d.w3 0 48 / pageBytes + fieldNat d.w4 0 27 → tget? c.pages x = none)
    (hkind : fieldNat d.w4 32 3 = 0)
    (hroom : u.memory.framesUsed.length + u.memory.privateFrames + fieldNat d.w4 0 27 ≤ frameCapacity u.flash.variant) :
    Completes (.mapMemory d) s fun t => Finishes r 0 t fun v => ∃ fs : List Nat, fs.length = fieldNat d.w4 0 27 ∧
      (∀ f ∈ fs, f ∉ u.memory.framesUsed) ∧ v.memory.framesUsed = u.memory.framesUsed ++ fs ∧ v.memory.fast = u.memory.fast ∧
      PagesMapped slot (fieldNat d.w3 0 48 / pageBytes) (bitOf d.w4 35) (fs.map .fast) u v := by
  obtain rfl := h.desc.1
  obtain ⟨hc, -⟩ := ownedChan_some hown
  obtain ⟨fs, hfs⟩ : ∃ fs, fs = lowestFrames u.memory.framesUsed (fieldNat r.desc.w4 0 27 + u.memory.framesUsed.length) (fieldNat r.desc.w4 0 27) 0 :=
    ⟨_, rfl⟩
  have hexec : execMapMemory r.desc s = .next (done r 0 (mapPages slot (fieldNat r.desc.w3 0 48 / pageBytes) (bitOf r.desc.w4 35) (fs.map .fast)
      (modMemory (fun m => { m with framesUsed := m.framesUsed ++ fs }) u))) := by
    rw [execMapMemory, h.fetchWith, startMap_checks hown hrange hfree (by omega) (by omega) (by omega), startMapChecked, hkind]
    dsimp only
    rw [if_neg (Nat.not_lt.2 hroom), ← hfs]
    rfl
  refine ⟨_, hexec, _, rfl, fs, ?_, fun f hf => lowestFrames_unused (hfs ▸ hf), ?_, ?_, pagesMapped_mapPages hc rfl⟩
  · rw [hfs]
    exact length_lowestFrames (Nat.add_le_add_left (countP_contains_le _ _ _) _)
  · rw [mapPages, memory_modChan]
    rfl
  · rw [mapPages, memory_modChan]
    rfl

theorem completes_mapMemory_slow (h : Starts 0x42 d s r u) (hown : ownedChan (d.w2.setWidth 32) r u = some (slot, c, true))
    (hrange : badRange (fieldNat d.w3 0 48) (fieldNat d.w4 0 27) = false)
    (hfree : ∀ x : Nat, fieldNat d.w3 0 48 / pageBytes ≤ x → x < fieldNat d.w3 0 48 / pageBytes + fieldNat d.w4 0 27 → tget? c.pages x = none)
    (p : Port) (hkind : fieldNat d.w4 32 3 = (if p = .A then 1 else 2)) (hpage : d.w5.toNat % pageBytes = 0) :
    Completes (.mapMemory d) s fun t => Finishes r 0 t fun v => v.memory = u.memory ∧ PagesMapped slot (fieldNat d.w3 0 48 / pageBytes)
      (bitOf d.w4 35) ((List.range (fieldNat d.w4 0 27)).map fun i => .slow p (d.w5.toNat + i * pageBytes)) u v := by
  obtain rfl := h.desc.1
  obtain ⟨hc, -⟩ := ownedChan_some hown
  have hexec : execMapMemory r.desc s = .next (done r 0 (mapPages slot (fieldNat r.desc.w3 0 48 / pageBytes) (bitOf r.desc.w4 35)
      ((List.range (fieldNat r.desc.w4 0 27)).map fun i => .slow p (r.desc.w5.toNat + i * pageBytes)) u)) := by
    rw [execMapMemory, h.fetchWith, startMap_checks hown hrange hfree (by rw [hkind]; split <;> omega)
      (fun h3 => by rw [hkind] at h3; split at h3 <;> omega) (fun _ => hpage), startMapChecked, hkind]
    cases p <;> rfl
  refine ⟨_, hexec, _, rfl, ?_, pagesMapped_mapPages hc rfl⟩
  rw [mapPages, memory_modChan]

theorem completes_mapMemory_alias (h : Starts 0x42 d s r u) (hown : ownedChan (d.w2.setWidth 32) r u = some (slot, c, true))
    (hrange : badRange (fieldNat d.w3 0 48) (fieldNat d.w4 0 27) = false)
    (hfree : ∀ x : Nat, fieldNat d.w3 0 48 / pageBytes ≤ x → x < fieldNat d.w3 0 48 / pageBytes + fieldNat d.w4 0 27 → tget? c.pages x = none)
    {a : Chan} (hkind : fieldNat d.w4 32 3 = 3) (hgood : badAlias r (fieldNat d.w4 0 27) u = false)
    (ha : chanOf (handleSlot (d.w6.setWidth 32)) u = some a)
    (hmapped : ∀ x : Nat, fieldNat d.w7 0 48 / pageBytes ≤ x → x < fieldNat d.w7 0 48 / pageBytes + fieldNat d.w4 0 27 →
      (locate (handleSlot (d.w6.setWidth 32)) (x * pageBytes) u).isSome = true) :
    Completes (.mapMemory d) s fun t => Finishes r 0 t fun v => v.memory = u.memory ∧ PagesMapped slot (fieldNat d.w3 0 48 / pageBytes)
      (bitOf d.w4 35) ((List.range (fieldNat d.w4 0 27)).map fun i =>
        resolveAlias (handleSlot (d.w6.setWidth 32)) (fieldNat d.w7 0 48 / pageBytes + i) a) u v := by
  obtain rfl := h.desc.1
  obtain ⟨hc, -⟩ := ownedChan_some hown
  have hexec : execMapMemory r.desc s = .next (done r 0 (mapPages slot (fieldNat r.desc.w3 0 48 / pageBytes) (bitOf r.desc.w4 35)
      ((List.range (fieldNat r.desc.w4 0 27)).map fun i =>
        resolveAlias (handleSlot (r.desc.w6.setWidth 32)) (fieldNat r.desc.w7 0 48 / pageBytes + i) a) u)) := by
    rw [execMapMemory, h.fetchWith, startMap_checks hown hrange hfree (by omega) (fun _ => ⟨hgood, hmapped⟩) (by omega), startMapChecked, hkind]
    dsimp only
    rw [ha]
    rfl
  refine ⟨_, hexec, _, rfl, ?_, pagesMapped_mapPages hc rfl⟩
  rw [mapPages, memory_modChan]

end

/-! ## Pages gone (R28, R29) -/

theorem memGet_filter_zero {p : Host.Cell → Bool} {m : List Host.Cell} {a : Nat} (h : ∀ e ∈ m, e.1 = a → p e = false) :
    memGet (m.filter p) a = 0 := by
  induction m with
  | nil => rfl
  | cons e m ih =>
    have hrest := ih fun x hx => h x (List.mem_cons_of_mem _ hx)
    rw [List.filter_cons]
    split
    · next hp =>
      have hne : (e.1 == a) = false := beq_eq_false_iff_ne.2 fun he => absurd hp (by rw [h e List.mem_cons_self he]; exact Bool.false_ne_true)
      rw [memGet, hne, if_neg Bool.false_ne_true, hrest]
    · exact hrest

theorem freeFrames_cases (fs : List Nat) (s : State) {f : Nat} (hf : f ∈ fs) :
    (∀ a : Nat, a / pageBytes = f → memGet (freeFrames fs s).memory.fast a = 0) ∧ f ∉ (freeFrames fs s).memory.framesUsed := by
  have hcontains : fs.contains f = true := List.contains_iff_mem.2 hf
  refine ⟨fun a ha => memGet_filter_zero fun e _ hea => ?_, fun hmem => ?_⟩
  · rw [hea, ha, hcontains]
    rfl
  · have hkept := (List.mem_filter.1 hmem).2
    rw [hcontains] at hkept
    exact absurd hkept nofun

theorem mem_chanFrames {c : Chan} {x f : Nat} {ro : Bool} (h : (x, { kind := .fast f, readOnly := ro }) ∈ c.pages) : f ∈ chanFrames c :=
  List.mem_filterMap.2 ⟨_, h, rfl⟩

/-- A slot whose channel aliases none of the named pages. -/
def unaliasedSlot (slot : Nat) (dead : Nat → Bool) (x : Slot) : Slot :=
  { x with chan := x.chan.map fun c => { c with pages := c.pages.filter fun p => match p.2.kind with
      | .aliasOf t q => !(t == slot && dead q)
      | _ => true } }

theorem slotOf_dropAliases (slot : Nat) (dead : Nat → Bool) (s : State) (j : Nat) :
    slotOf j (dropAliases slot dead s) = unaliasedSlot slot dead (slotOf j s) := by
  show (tget? (s.slots.map fun e => (e.1, unaliasedSlot slot dead e.2)) j).getD {} = unaliasedSlot slot dead ((tget? s.slots j).getD {})
  rw [tget?_map]
  cases tget? s.slots j <;> rfl

theorem chanOf_dropAliases {slot j : Nat} {dead : Nat → Bool} {s : State} {c : Chan} (h : chanOf j (dropAliases slot dead s) = some c) :
    ∃ k : Chan, chanOf j s = some k ∧ (∀ e ∈ c.pages, e ∈ k.pages) ∧
      ∀ (x : Nat) (pg : Page), (x, pg) ∈ c.pages → ∀ y : Nat, dead y = true → pg.kind ≠ .aliasOf slot y := by
  rw [chanOf, slotOf_dropAliases] at h
  obtain ⟨k, hk, rfl⟩ := Option.map_eq_some_iff.1 h
  refine ⟨k, hk, fun e he => List.mem_of_mem_filter he, fun x pg hmem y hy hkind => ?_⟩
  have hkept := (List.mem_filter.1 hmem).2
  simp only [hkind, hy, beq_self_eq_true, Bool.and_self, Bool.not_true, Bool.false_eq_true] at hkept

/-- Whether a page lies among `n` from `q`. -/
def inPages (q n x : Nat) : Bool := decide (q ≤ x) && decide (x < q + n)

/-- A channel without `n` pages from `q`. -/
def unmappedChan (q n : Nat) (c : Chan) : Chan :=
  { c with pages := c.pages.filter (fun x => !inPages q n x.1), closing := c.closing.erase (q, n) }

/-- The fast frames of a slot's pages in a range. -/
def framesIn (slot q n : Nat) (s : State) : List Nat :=
  match chanOf slot s with
  | some c => chanFrames { c with pages := c.pages.filter fun x => inPages q n x.1 }
  | none => []

theorem unmapPages_eq (slot q n : Nat) (s : State) : unmapPages slot q n s =
    dropAliases slot (inPages q n) (freeFrames (framesIn slot q n s) (modChan slot (unmappedChan q n) s)) := by
  unfold unmapPages framesIn
  cases chanOf slot s <;> rfl

theorem memory_dropAliases (slot : Nat) (dead : Nat → Bool) (s : State) : (dropAliases slot dead s).memory = s.memory := rfl

theorem chanOf_freeFrames (fs : List Nat) (j : Nat) (s : State) : chanOf j (freeFrames fs s) = chanOf j s := rfl

theorem pagesGone_unmapPages (slot q n : Nat) (s : State) : PagesGone slot q n s (unmapPages slot q n s) := by
  rw [unmapPages_eq]
  have hin {x : Nat} (hlow : q ≤ x) (hhigh : x < q + n) : inPages q n x = true := by
    rw [inPages, decide_eq_true hlow, decide_eq_true hhigh, Bool.and_self]
  refine ⟨fun c hc x hlow hhigh => ?_, fun j c x pg hc hmem y hlow hhigh => ?_, fun c x f a ro hc hmem hlow hhigh ha => ?_⟩
  · obtain ⟨k, hk, hsub, -⟩ := chanOf_dropAliases hc
    rw [chanOf_freeFrames, chanOf_modChan] at hk
    obtain ⟨c', -, rfl⟩ := Option.map_eq_some_iff.1 hk
    cases hx : tget? c.pages x with
    | none => rfl
    | some pg =>
      obtain ⟨-, hkept⟩ := List.mem_filter.1 (hsub _ (mem_of_tget? hx))
      rw [hin hlow hhigh] at hkept
      exact absurd hkept nofun
  · obtain ⟨-, -, -, halias⟩ := chanOf_dropAliases hc
    exact halias x pg hmem y (hin hlow hhigh)
  · have hf : f ∈ framesIn slot q n s := by
      unfold framesIn
      rw [hc]
      exact mem_chanFrames (c := { c with pages := c.pages.filter fun x => inPages q n x.1 }) (List.mem_filter.2 ⟨hmem, hin hlow hhigh⟩)
    rw [memory_dropAliases]
    obtain ⟨hzero, hunused⟩ := freeFrames_cases (framesIn slot q n s) (modChan slot (unmappedChan q n) s) hf
    exact ⟨hzero a ha, hunused⟩

theorem completes_unmap {d : Desc} {s u : State} {r : DescRec} {slot : Nat} {c : Chan} (h : Starts 0x43 d s r u)
    (hown : ownedChan (d.w2.setWidth 32) r u = some (slot, c, true)) (hrange : badRange (fieldNat d.w3 0 48) (fieldNat d.w4 0 27) = false)
    (hmapped : ∀ x : Nat, fieldNat d.w3 0 48 / pageBytes ≤ x → x < fieldNat d.w3 0 48 / pageBytes + fieldNat d.w4 0 27 →
      (tget? c.pages x).isSome = true)
    (hfree : pagesInUse r.id slot (fieldNat d.w3 0 48 / pageBytes) (fieldNat d.w4 0 27) u = false) :
    Completes (.unmap d) s fun t => Finishes r 0 t fun v => PagesGone slot (fieldNat d.w3 0 48 / pageBytes) (fieldNat d.w4 0 27) u v := by
  obtain rfl := h.desc.1
  have hall : firstPage (fun x => (tget? c.pages x).isNone) (fieldNat r.desc.w4 0 27) (fieldNat r.desc.w3 0 48 / pageBytes) = none :=
    firstPage_eq_none fun x hlow hhigh => by rw [← Option.not_isSome, hmapped x hlow hhigh, Bool.not_true]
  have hexec : execUnmap r.desc s = .next (done r 0 (unmapPages slot (fieldNat r.desc.w3 0 48 / pageBytes) (fieldNat r.desc.w4 0 27) u)) := by
    rw [execUnmap, h.fetchWith]
    simp only [startUnmap, hown, hrange, hall, hfree, Bool.not_true, Bool.or_self, Bool.false_eq_true, if_false]
  exact ⟨_, hexec, _, rfl, pagesGone_unmapPages _ _ _ u⟩

theorem completes_unmapRelease {id : Nat} {s : State} {r : DescRec} (h : HeldAs id .unmap r s)
    (hfree : pagesInUse r.id (handleSlot (r.desc.w2.setWidth 32)) (fieldNat r.desc.w3 0 48 / pageBytes) (fieldNat r.desc.w4 0 27) s = false) :
    Completes (.unmapRelease id) s fun t => Finishes r 0 t fun v =>
      PagesGone (handleSlot (r.desc.w2.setWidth 32)) (fieldNat r.desc.w3 0 48 / pageBytes) (fieldNat r.desc.w4 0 27) s v := by
  obtain ⟨hr, hhold, -⟩ := h
  have hexec : execUnmapRelease id s = .next (done r 0 (unmapPages (handleSlot (r.desc.w2.setWidth 32)) (fieldNat r.desc.w3 0 48 / pageBytes)
      (fieldNat r.desc.w4 0 27) s)) := by
    simp only [execUnmapRelease, hr, hhold, hfree, beq_self_eq_true, Bool.not_false, Bool.and_self, if_true]
  exact ⟨_, hexec, _, rfl, pagesGone_unmapPages _ _ _ s⟩

/-! ## Destruction (R28) -/

/-- A slot whose channel is destroyed: it takes no more bells, and its GEN is the next one. -/
def closingSlot (r : DescRec) (slot : Nat) (s : State) : State :=
  modSlot slot (fun x => { x with gen := nextGen x.gen })
    (modChan slot (fun c => { c with running := false, destroyId := some r.id, force := bitOf r.desc.w2 32 }) s)

theorem startDestroy_eq {r : DescRec} {u : State} {slot : Nat} {c : Chan} (hown : ownedChan (r.desc.w2.setWidth 32) r u = some (slot, c, true)) :
    startDestroy r u = beginReady (settleDestroy slot (endWork slot (bitOf r.desc.w2 32) (holdAs r .destroy (closingSlot r slot u)))) := by
  simp only [startDestroy, hown, Bool.not_true, Bool.false_eq_true, if_false]
  rfl

/-- A channel without work: nothing of the device names its slot. -/
structure Idle (slot : Nat) (s : State) : Prop where
  descs : ∀ x ∈ s.descs, x.desc.slot.val ≠ slot
  runs : ∀ x ∈ s.runs, x.slot ≠ slot
  exports : ∀ e ∈ s.nmu.exports, e.slot ≠ slot

theorem endWork_idle {slot : Nat} (force : Bool) {s : State} (h : Idle slot s) : endWork slot force s = s := by
  have hdescs : (s.descs.filter fun x => x.desc.slot == slot && unstarted x) = [] := List.filter_eq_nil_iff.2 fun x hx => by
    rw [beq_eq_false_iff_ne.2 (h.descs x hx), Bool.false_and]
    exact Bool.false_ne_true
  have hwaiting : (s.runs.filter fun u => u.slot == slot && !u.begun) = [] := List.filter_eq_nil_iff.2 fun x hx => by
    rw [beq_eq_false_iff_ne.2 (h.runs x hx), Bool.false_and]
    exact Bool.false_ne_true
  have hruns : (s.runs.filter fun u => u.slot == slot) = [] := List.filter_eq_nil_iff.2 fun x hx => by
    rw [beq_eq_false_iff_ne.2 (h.runs x hx)]
    exact Bool.false_ne_true
  have hexports : (s.nmu.exports.filter fun e => e.slot == slot && e.continuous) = [] := List.filter_eq_nil_iff.2 fun e he => by
    rw [beq_eq_false_iff_ne.2 (h.exports e he), Bool.false_and]
    exact Bool.false_ne_true
  simp only [endWork, hdescs, hwaiting, hruns, hexports, List.foldl_nil, ite_self]

theorem descs_of_holdAs {r x : DescRec} {h : Hold} {s : State} (hx : x ∈ (holdAs r h s).descs) : x ∈ s.descs ∨ x.desc = r.desc := by
  unfold holdAs at hx
  split at hx
  · obtain ⟨y, hy, rfl⟩ := List.mem_map.1 hx
    split
    · exact .inr rfl
    · exact .inl hy
  · rcases List.mem_append.1 hx with hx | hx
    · exact .inl hx
    · exact .inr (by rw [List.mem_singleton.1 hx])

theorem holdAs_eq (r : DescRec) (h : Hold) (s : State) : ∃ ds : List DescRec, holdAs r h s = { s with descs := ds } := by
  unfold holdAs
  split
  · exact ⟨_, rfl⟩
  · exact ⟨_, rfl⟩

/-- What a freed slot leaves: its channel gone, its frames zero and unused, its bindings gone. -/
structure Freed (slot : Nat) (c : Chan) (gen : BitVec 16) (t : State) : Prop where
  gone : chanOf slot t = none
  gen : (slotOf slot t).gen = gen
  frames : ∀ (x f a : Nat) (ro : Bool), (x, { kind := .fast f, readOnly := ro }) ∈ c.pages → a / pageBytes = f →
    memGet t.memory.fast a = 0 ∧ f ∉ t.memory.framesUsed
  bindings : ∀ b ∈ t.nmu.bindings, b.slot ≠ slot

theorem freed_freeSlot {slot : Nat} {c k : Chan} {s : State} (hc : chanOf slot s = some k) (hpages : k.pages = c.pages) :
    Freed slot c (slotOf slot s).gen (freeSlot slot s) := by
  unfold freeSlot
  rw [hc]
  dsimp only
  have hslot := slotOf_dropAliases slot (fun _ => true) (freeFrames (chanFrames k) s) slot
  refine ⟨chanOf_modSlot _ _ _, ?_, fun x f a ro hmem ha => ?_, fun b hb => ?_⟩
  · rw [slotOf_modSlot]
    exact (congrArg Slot.gen hslot).trans rfl
  · obtain ⟨hzero, hunused⟩ := freeFrames_cases (chanFrames k) s (mem_chanFrames (hpages ▸ hmem))
    exact ⟨hzero a ha, hunused⟩
  · have hkept := (List.mem_filter.1 hb).2
    simpa using hkept

/-- What the completion of a descriptor and the runs that begin leave of a freed slot. -/
theorem Freed.of_keeps {slot : Nat} {c : Chan} {gen : BitVec 16} {s t : State} (h : Freed slot c gen s) (hslot : slotOf slot t = slotOf slot s)
    (hmem : t.memory = s.memory) (hnmu : t.nmu = s.nmu) : Freed slot c gen t :=
  ⟨by rw [chanOf, hslot]; exact h.gone, by rw [hslot]; exact h.gen, by rw [hmem]; exact h.frames, by rw [hnmu]; exact h.bindings⟩

theorem freed_postCompl {slot i : Nat} {c : Chan} {gen : BitVec 16} {s : State} (x : Compl) (hi : slot ≠ i) (h : Freed slot c gen s) :
    Freed slot c gen (postCompl i x s) := by
  unfold postCompl
  split
  · exact h.of_keeps (slotOf_modPort _ _ _ _) (modPort_memory _ _ _) (modPort_nmu _ _ _)
  · split
    · exact h.of_keeps (slotOf_modPort _ _ _ _) (modPort_memory _ _ _) (modPort_nmu _ _ _)
    · have hnmu := congrArg State.nmu (onlySlot_modChan i (waitCompl x) s).1
      exact h.of_keeps (slotOf_modChan_other _ _ _ _ hi) (memory_modChan _ _ _) hnmu

/-- A state without its cores and runs. -/
def besideRuns (s : State) : State := { s with cores := [], runs := [] }

theorem besideRuns_foldl {α : Type} {f : State → α → State} (h : ∀ s x, besideRuns (f s x) = besideRuns s) (xs : List α) (s : State) :
    besideRuns (xs.foldl f s) = besideRuns s := by
  induction xs generalizing s with
  | nil => rfl
  | cons x xs ih => exact (ih _).trans (h s x)

theorem besideRuns_beginRun (u : Run) (s : State) : besideRuns (beginRun u s) = besideRuns s :=
  (besideRuns_foldl (by intro t x; rfl) _ _).trans rfl

/-- Runs that begin change cores and runs alone. -/
theorem besideRuns_beginReady (s : State) : besideRuns (beginReady s) = besideRuns s := besideRuns_foldl (fun t u => besideRuns_beginRun u t) _ s

theorem slots_beginReady (s : State) : (beginReady s).slots = s.slots :=
  (congrArg (fun u => u.slots) (besideRuns_beginReady s) :)

theorem memory_beginReady (s : State) : (beginReady s).memory = s.memory :=
  (congrArg (fun u => u.memory) (besideRuns_beginReady s) :)

theorem nmu_beginReady (s : State) : (beginReady s).nmu = s.nmu :=
  (congrArg (fun u => u.nmu) (besideRuns_beginReady s) :)

theorem descs_beginReady (s : State) : (beginReady s).descs = s.descs :=
  (congrArg (fun u => u.descs) (besideRuns_beginReady s) :)

theorem passes_beginReady (s : State) : (beginReady s).passes = s.passes :=
  (congrArg (fun u => u.passes) (besideRuns_beginReady s) :)

theorem settlePasses_admitted {s : State} (h : ∀ p ∈ s.passes, p.admitted = true) : settlePasses s = s := by
  have hnone : (s.passes.filter fun p => !p.admitted && p.round.isNone && (descOf p.desc s).isNone) = [] :=
    List.filter_eq_nil_iff.2 fun p hp => by
      rw [h p hp]
      exact Bool.false_ne_true
  rw [settlePasses, hnone, List.foldl_nil]

/-- The state a CHANNEL_DESTROY of an idle channel leaves before runs begin in the cores it held. -/
def destroyed (r : DescRec) (slot : Nat) (s : State) : State :=
  let t := { freeSlot slot s with descs := s.descs.filter fun x => x.id != r.id }
  if r.desc.flags.getLsbD 2 then t else postCompl r.desc.slot (complOf r stDone 0 0 s) t

theorem settleDestroy_due {slot : Nat} {k : Chan} {s : State} {r : DescRec} (hk : chanOf slot s = some k) (hid : k.destroyId = some r.id)
    (hr : descOf r.id s = some r) (hdue : destroyDue slot k s = true) : settleDestroy slot s = destroyed r slot s := by
  simp only [settleDestroy, hk, hid, Option.bind_some, hr, hdue, if_true]
  rfl

theorem passes_freeSlot (slot : Nat) (s : State) : (freeSlot slot s).passes = s.passes := by
  unfold freeSlot
  split <;> rfl

theorem passes_postCompl (i : Nat) (x : Compl) (s : State) : (postCompl i x s).passes = s.passes := by
  unfold postCompl
  split
  · exact modPort_passes _ _ _
  · split
    · exact modPort_passes _ _ _
    · have hpasses := congrArg State.passes (onlySlot_modChan i (waitCompl x) s).1
      exact hpasses

/-- A channel destroyed with no work is freed, and the descriptor that asked for it held no longer. -/
theorem destroyed_cases {r : DescRec} {slot : Nat} {c k : Chan} {s : State} (hk : chanOf slot s = some k) (hpages : k.pages = c.pages)
    (hslot : slot ≠ r.desc.slot.val) : Freed slot c (slotOf slot s).gen (destroyed r slot s) ∧ descOf r.id (destroyed r slot s) = none ∧
      (destroyed r slot s).passes = s.passes := by
  have hfreed : Freed slot c (slotOf slot s).gen { freeSlot slot s with descs := s.descs.filter fun x => x.id != r.id } :=
    (freed_freeSlot hk hpages).of_keeps rfl rfl rfl
  have hgone : ∀ x ∈ s.descs.filter (fun x => x.id != r.id), x.id ≠ r.id := fun x hx => bne_iff_ne.1 (List.mem_filter.1 hx).2
  unfold destroyed
  dsimp only
  split
  · exact ⟨hfreed, descOf_eq_none_iff.2 hgone, passes_freeSlot _ _⟩
  · refine ⟨freed_postCompl _ hslot hfreed, ?_, (passes_postCompl _ _ _).trans (passes_freeSlot _ _)⟩
    rw [descOf_eq_none_iff, descs_postCompl]
    exact hgone

theorem completes_channelDestroy {d : Desc} {s u : State} {r : DescRec} {slot : Nat} {c : Chan} (h : Starts 0x41 d s r u)
    (hown : ownedChan (d.w2.setWidth 32) r u = some (slot, c, true)) (hother : d.slot.val ≠ slot) (hwaiting : c.waiting = [])
    (hdescs : ∀ x ∈ u.descs, x.desc.slot.val ≠ slot) (hruns : ∀ x ∈ u.runs, x.slot ≠ slot)
    (hpasses : ∀ p ∈ u.passes, p.slot ≠ slot ∧ p.admitted = true) (hexports : ∀ e ∈ u.nmu.exports, e.slot ≠ slot) :
    Completes (.channelDestroy d) s fun t => chanOf slot t = none ∧ (slotOf slot t).gen = nextGen (slotOf slot u).gen ∧ descOf r.id t = none ∧
      (∀ (x f a : Nat) (ro : Bool), (x, { kind := .fast f, readOnly := ro }) ∈ c.pages → a / pageBytes = f →
        memGet t.memory.fast a = 0 ∧ f ∉ t.memory.framesUsed) ∧ (∀ b ∈ t.nmu.bindings, b.slot ≠ slot) := by
  obtain rfl := h.desc.1
  obtain ⟨hc, -⟩ := ownedChan_some hown
  have hclose : (closingSlot r slot u).descs = u.descs ∧ (closingSlot r slot u).passes = u.passes ∧ (closingSlot r slot u).runs = u.runs ∧
      (closingSlot r slot u).nmu = u.nmu :=
    ⟨modChan_descs _ _ _, modChan_passes _ _ _, modChan_runs _ _ _, modChan_nmu _ _ _⟩
  obtain ⟨hcdescs, hcpasses, hcruns, hcnmu⟩ := hclose
  have hchan : chanOf slot (closingSlot r slot u) = some { c with running := false, destroyId := some r.id, force := bitOf r.desc.w2 32 } := by
    rw [closingSlot, chanOf_modSlot]
    exact chanOf_modChan_some (fun c => { c with running := false, destroyId := some r.id, force := bitOf r.desc.w2 32 }) hc
  have hgen : (slotOf slot (closingSlot r slot u)).gen = nextGen (slotOf slot u).gen := by
    rw [closingSlot, slotOf_modSlot, modChan_of_chan _ hc, slotOf_modSlot]
  have hdesc := descOf_holdAs r .destroy (closingSlot r slot u)
  have hvdescs : ∀ x ∈ (holdAs r .destroy (closingSlot r slot u)).descs, x.desc.slot.val ≠ slot := by
    intro x hx
    rcases descs_of_holdAs hx with hx | hx
    · exact hdescs x (hcdescs ▸ hx)
    · rw [hx]
      exact hother
  obtain ⟨ds, hds⟩ := holdAs_eq r .destroy (closingSlot r slot u)
  rw [hds] at hdesc hvdescs
  obtain ⟨v, hv⟩ : ∃ v, v = { closingSlot r slot u with descs := ds } := ⟨_, rfl⟩
  replace hchan : chanOf slot v = _ := (congrArg (chanOf slot) hv).trans hchan
  replace hgen : (slotOf slot v).gen = _ := (congrArg (fun w => (slotOf slot w).gen) hv).trans hgen
  have hvpasses : v.passes = u.passes := (congrArg State.passes hv).trans hcpasses
  have hvruns : v.runs = u.runs := (congrArg State.runs hv).trans hcruns
  have hvnmu : v.nmu = u.nmu := (congrArg State.nmu hv).trans hcnmu
  rw [← hv] at hds hdesc hvdescs
  have hidle : Idle slot v := ⟨hvdescs, by rw [hvruns]; exact hruns, by rw [hvnmu]; exact hexports⟩
  have hdue : destroyDue slot { c with running := false, destroyId := some r.id, force := bitOf r.desc.w2 32 } v = true := by
    have hnodesc : (v.descs.any fun x => x.desc.slot == slot) = false :=
      List.any_eq_false.2 fun x hx => by rw [beq_iff_eq]; exact hvdescs x hx
    have hnopass : (v.passes.any fun x => x.slot == slot) = false :=
      List.any_eq_false.2 fun p hp => by rw [beq_iff_eq]; exact (hpasses p (hvpasses ▸ hp)).1
    rw [destroyDue, hnodesc, hnopass]
    simp only [hwaiting, List.isEmpty_nil, Bool.not_false, Bool.and_self]
  obtain ⟨hfreed, hgone, hkeep⟩ := destroyed_cases (r := { r with hold := .destroy, since := mono (closingSlot r slot u) }) (c := c) hchan rfl
    hother.symm
  have hsettled := settleDestroy_due (r := { r with hold := .destroy, since := mono (closingSlot r slot u) }) hchan rfl hdesc hdue
  revert hfreed hgone hkeep hsettled
  generalize destroyed { r with hold := .destroy, since := mono (closingSlot r slot u) } slot v = w
  intro hfreed hgone hkeep hsettled
  have hadmitted : ∀ p ∈ (beginReady w).passes, p.admitted = true := fun p hp =>
    (hpasses p (hvpasses ▸ hkeep ▸ passes_beginReady w ▸ hp)).2
  have hexec : execChannelDestroy r.desc s = .next (beginReady w) := by
    rw [execChannelDestroy, h.fetchWith, startDestroy_eq hown, hds, endWork_idle _ hidle, hsettled, settlePasses_admitted hadmitted]
  have hend : Freed slot c (slotOf slot v).gen (beginReady w) :=
    hfreed.of_keeps (slotOf_congr (slots_beginReady w) slot) (memory_beginReady w) (nmu_beginReady w)
  refine ⟨_, hexec, hend.gone, hend.gen.trans hgen, ?_, hend.frames, hend.bindings⟩
  rw [descOf, descs_beginReady]
  exact hgone

/-- Settles O39: a channel is made, moved, mapped or freed by one change of its slot and of the frames its pages name. -/
theorem channelDescriptors : Obligations.ChannelDescriptors := by
  refine ⟨fun d s r u h => ⟨fun slot cs rings cq hnew => completes_channelCreate h hnew, fun c rings cq hadopt => completes_channelAdopt h hadopt⟩,
    fun d s r u slot c h hown => ?_, fun d s r u slot c => completes_unmap, fun id s r => completes_unmapRelease,
    fun d s r u slot c => completes_channelDestroy⟩
  exact fun hrange hfree => ⟨completes_mapMemory_fast h hown hrange hfree, completes_mapMemory_slow h hown hrange hfree,
    fun a hkind hgood => completes_mapMemory_alias h hown hrange hfree hkind hgood⟩

end Sys2Proof.Machine
end

/-! ## Definitions (chapters 02, 13, 15, 16 and 17) -/

section

/-! ### Groups, deskmates, pen pals, topology, limits and keys (R45, R334, R379, R405, R406, R428, R441, R442) -/

namespace Sys2Proof.Machine

/-! ## A list with one entry defined anew -/

theorem find?_define_same {α : Type} (key : α → Nat) (xs : List α) (x : α) :
    (xs.filter (fun y => key y != key x) ++ [x]).find? (fun y => key y == key x) = some x := by
  have hnone : (xs.filter fun y => key y != key x).find? (fun y => key y == key x) = none :=
    List.find?_eq_none.2 fun y hy => by simpa using (List.mem_filter.1 hy).2
  rw [List.find?_append, hnone, Option.none_or, List.find?_cons, beq_self_eq_true]

theorem find?_define_other {α : Type} (key : α → Nat) (xs : List α) (x : α) {j : Nat} (hj : j ≠ key x) :
    (xs.filter (fun y => key y != key x) ++ [x]).find? (fun y => key y == j) = xs.find? fun y => key y == j := by
  rw [List.find?_append]
  have hlast : [x].find? (fun y => key y == j) = none := by
    rw [List.find?_cons, beq_eq_false_iff_ne.2 (Ne.symm hj)]
    rfl
  rw [hlast, Option.or_none]
  induction xs with
  | nil => rfl
  | cons y xs ih =>
    rw [List.filter_cons, List.find?_cons]
    by_cases hy : key y = j
    · rw [if_pos (by rw [hy]; exact bne_iff_ne.2 hj), List.find?_cons, beq_iff_eq.2 hy]
    · rw [beq_eq_false_iff_ne.2 hy, ← ih]
      split
      · rw [List.find?_cons, beq_eq_false_iff_ne.2 hy]
      · rfl

section

variable {d : Desc} {s u : State} {r : DescRec}

/-! ## Groups -/

/-- The members that a GROUP_DEFINE names. -/
def definedMembers (r : DescRec) (u : State) : List Word :=
  (List.range (fieldNat r.desc.w2 32 14 + 1)).map fun i => hostWord r.port (r.desc.w3.toNat + 8 * i) u

/-- The group that a GROUP_DEFINE starts afresh. -/
def definedGroup (r : DescRec) (u : State) : Group :=
  { id := fieldNat r.desc.w2 0 16, rank := fieldNat r.desc.w2 16 14, sizeM1 := fieldNat r.desc.w2 32 14, sites := fieldNat r.desc.w2 48 4
    members := definedMembers r u, lastStep := r.desc.w4 }

/-- A group defined, in the place of one of the same number. -/
def defineGroup (g : Group) (s : State) : State := { s with groups := s.groups.filter (fun x => x.id != g.id) ++ [g] }

theorem completes_groupDefine (h : Starts 0x44 d s r u) (hid : fieldNat d.w2 0 16 ≠ 0xFFFF) (hrank : fieldNat d.w2 16 14 ≤ fieldNat d.w2 32 14)
    (hlow : 1 ≤ fieldNat d.w2 48 4) (hhigh : fieldNat d.w2 48 4 ≤ 8)
    (hself : (((List.range (fieldNat d.w2 32 14 + 1)).map fun i => hostWord r.port (d.w3.toNat + 8 * i) u).getD (fieldNat d.w2 16 14) 0) =
      u.mod.identity) (hclosed : stepIsOpen (fieldNat d.w2 0 16) u = false) :
    Completes (.groupDefine d) s fun t => Finishes r 0 t fun v => { v with groups := u.groups } = u ∧
      (∀ j : Nat, j ≠ fieldNat d.w2 0 16 → groupOf j v = groupOf j u) ∧ ∃ g : Group, groupOf (fieldNat d.w2 0 16) v = some g ∧
        g.rank = fieldNat d.w2 16 14 ∧ g.sizeM1 = fieldNat d.w2 32 14 ∧ g.sites = fieldNat d.w2 48 4 ∧
        g.members = ((List.range (fieldNat d.w2 32 14 + 1)).map fun i => hostWord r.port (d.w3.toNat + 8 * i) u) ∧ g.lastStep = d.w4 ∧
        g.open' = none ∧ g.ordinals = 0 := by
  obtain rfl := h.desc.1
  have hfields : (fieldNat r.desc.w2 0 16 == 0xFFFF || fieldNat r.desc.w2 32 14 < fieldNat r.desc.w2 16 14 || fieldNat r.desc.w2 48 4 == 0 ||
      decide (8 < fieldNat r.desc.w2 48 4) || ((List.range (fieldNat r.desc.w2 32 14 + 1)).map fun i =>
        hostWord r.port (r.desc.w3.toNat + 8 * i) u).getD (fieldNat r.desc.w2 16 14) 0 != u.mod.identity ||
      stepIsOpen (fieldNat r.desc.w2 0 16) u) = false := by
    rw [hself, hclosed, beq_eq_false_iff_ne.2 hid, decide_eq_false (Nat.not_lt.2 hrank), beq_eq_false_iff_ne.2 (Nat.ne_of_gt hlow),
      decide_eq_false (Nat.not_lt.2 hhigh), bne_self_eq_false]
    rfl
  have hexec : execGroupDefine r.desc s = .next (done r 0 (defineGroup (definedGroup r u) u)) := by
    rw [execGroupDefine, h.fetchWith]
    simp only [startGroup, hfields, Bool.false_eq_true, if_false]
    rfl
  exact ⟨_, hexec, _, rfl, rfl, fun j hj => find?_define_other Group.id u.groups (definedGroup r u) hj, definedGroup r u,
    find?_define_same Group.id u.groups (definedGroup r u), rfl, rfl, rfl, rfl, rfl, rfl, rfl⟩

/-! ## Deskmates -/

theorem completes_deskmatePair_waits (h : Starts 0x45 d s r u) (henable : bitOf d.w3 0 = true) (hadjacent : adjacent d.w2 u = true)
    (hpartner : u.mate.partner = none ∨ u.mate.partner = some d.w2) (hformed : u.mate.formed = false) :
    Completes (.deskmatePair d) s fun t => { t with descs := u.descs, mate := u.mate } = u ∧ t.mate = { u.mate with partner := some d.w2 } ∧
      ∃ x : DescRec, descOf r.id t = some x ∧ x.hold = .deskmate ∧ x.desc = d := by
  obtain rfl := h.desc.1
  have hsame : (u.mate.partner.isSome && u.mate.partner != some r.desc.w2) = false := by
    rcases hpartner with hp | hp
    · rw [hp]
      rfl
    · rw [hp, bne_self_eq_false, Bool.and_false]
  have hexec : execDeskmatePair r.desc s = .next (holdAs r .deskmate (modMate (fun m => { m with partner := some r.desc.w2 }) u)) := by
    rw [execDeskmatePair, h.fetchWith]
    simp only [startPair, henable, hadjacent, hsame, hformed, Bool.not_true, Bool.or_self, Bool.false_eq_true, if_false, if_true]
  obtain ⟨ds, hds⟩ := holdAs_eq r .deskmate (modMate (fun m => { m with partner := some r.desc.w2 }) u)
  have hdesc := descOf_holdAs r .deskmate (modMate (fun m => { m with partner := some r.desc.w2 }) u)
  rw [hds] at hexec hdesc
  exact ⟨_, hexec, rfl, rfl, _, hdesc, rfl, rfl⟩

theorem completes_deskmatePair_dissolves (h : Starts 0x45 d s r u) (hdisable : bitOf d.w3 0 = false) (hpartner : u.mate.partner = some d.w2)
    (hclosed : ∀ g ∈ u.groups, g.open' = none) (hfirst : u.mate.dissolving = none) :
    Completes (.deskmatePair d) s fun t => Finishes r 0 t fun v => v.mate = {} ∧
      v.memory.privateFrames = u.memory.privateFrames - u.mate.reservedFrames := by
  obtain rfl := h.desc.1
  have hnone : (u.groups.any fun g => g.open'.isSome) = false := List.any_eq_false.2 fun g hg => by
    rw [hclosed g hg]
    exact Bool.false_ne_true
  have hexec : execDeskmatePair r.desc s = .next (done r 0 (dissolvePair u)) := by
    rw [execDeskmatePair, h.fetchWith]
    simp only [startPair, hdisable, hpartner, hnone, bne_self_eq_false, Bool.false_eq_true, if_false]
  refine ⟨_, hexec, _, rfl, ?_⟩
  simp only [dissolvePair, hfirst, Option.bind_none]
  exact ⟨rfl, rfl⟩

theorem completes_deskmatePairFormed {id : Nat} (h : HeldAs id .deskmate r s) (haux : r.aux = 0) (hfirst : mateUp false r.desc.w2 s = true)
    (hsecond : mateUp true r.desc.w2 s = true) (hroom : mateFrames s ≤ freeFrameCount s) :
    Completes (.deskmatePairFormed id) s fun t => Finishes r 0 t fun v => v.mate.partner = some r.desc.w2 ∧ v.mate.formed = true ∧
      v.mate.degraded = false ∧ v.mate.reservedFrames = mateFrames s ∧ v.memory.privateFrames = s.memory.privateFrames + mateFrames s := by
  obtain ⟨hr, hhold, -⟩ := h
  have hexec : execDeskmatePairFormed id s = .next (done r 0 (modMemory (fun m => { m with privateFrames := m.privateFrames + mateFrames s })
      { s with mate := { partner := some r.desc.w2, formed := true, reservedFrames := mateFrames s, sentBeat := Vector.replicate 2 (mono s)
                         lastBeat := Vector.replicate 2 (some (mono s)) } })) := by
    simp only [execDeskmatePairFormed, hr, hhold, haux, hfirst, hsecond, beq_self_eq_true, Bool.and_self, if_true, if_neg (Nat.not_lt.2 hroom)]
  exact ⟨_, hexec, _, rfl, rfl, rfl, rfl, rfl, rfl⟩

/-! ## Pen pals -/

/-- The far links of a PEN_PAL_DEFINE. -/
def palLinks (d : Desc) : BitVec 4 := BitVec.ofNat 4 (fieldNat d.w4 24 4)

/-- The EtherType of a PEN_PAL_DEFINE. -/
def palType (d : Desc) : BitVec 16 := if fieldNat d.w4 32 16 = 0 then 0x88B5 else BitVec.ofNat 16 (fieldNat d.w4 32 16)

/-- The pen pal that a PEN_PAL_DEFINE keeps. -/
def definedPal (d : Desc) : Pal :=
  { id := fieldNat d.w2 0 16, partner := d.w3, localSteps := fieldNat d.w4 0 13, staleness := fieldNat d.w4 16 4
    farLinks := palLinks d, ethertype := palType d }

/-- A pen pal kept, in the place of one of the same number. -/
def definePal (p : Pal) (s : State) : State := { s with pals := s.pals.filter (fun q => q.id != p.id) ++ [p] }

theorem completes_penPalDefine (h : Starts 0x46 d s r u) (hlow : 1 ≤ fieldNat d.w4 0 13) (hhigh : fieldNat d.w4 0 13 ≤ 4096)
    (hstale : fieldNat d.w4 16 4 < 8) (hfar : ∀ i : Nat, i < 4 → (palLinks d).getLsbD i = true → (linkOf (farLinkOf i) u).ctlFar = true)
    (hclash : ∀ p ∈ u.pals, p.id ≠ fieldNat d.w2 0 16 → p.farLinks &&& palLinks d = 0 ∨ p.ethertype = palType d) :
    Completes (.penPalDefine d) s fun t => Finishes r 0 t fun v => { v with pals := u.pals } = u ∧
      (∀ j : Nat, j ≠ fieldNat d.w2 0 16 → palOf j v = palOf j u) ∧ palOf (fieldNat d.w2 0 16) v = some (definedPal d) := by
  obtain rfl := h.desc.1
  have htype : (if (fieldNat r.desc.w4 32 16 == 0) = true then (0x88B5 : BitVec 16) else BitVec.ofNat 16 (fieldNat r.desc.w4 32 16)) =
      palType r.desc := if_congr beq_iff_eq rfl rfl
  have hnotFar : ((List.range 4).any fun i => (palLinks r.desc).getLsbD i && !(linkOf (farLinkOf i) u).ctlFar) = false :=
    List.any_eq_false.2 fun i hi => by
      rw [Bool.and_eq_true, Bool.not_eq_true']
      exact fun hbad => Bool.false_ne_true (hbad.2.symm.trans (hfar i (List.mem_range.1 hi) hbad.1))
  have hnone : (u.pals.any fun p => p.id != fieldNat r.desc.w2 0 16 && p.farLinks &&& palLinks r.desc != 0 && p.ethertype != palType r.desc) =
      false := List.any_eq_false.2 fun p hp => by
    rw [Bool.and_eq_true, Bool.and_eq_true, bne_iff_ne, bne_iff_ne, bne_iff_ne]
    rintro ⟨⟨hid, hlinks⟩, htype⟩
    exact (hclash p hp hid).elim hlinks htype
  have hexec : execPenPalDefine r.desc s = .next (done r 0 (definePal (definedPal r.desc) u)) := by
    rw [execPenPalDefine, h.fetchWith, startPal]
    dsimp only
    rw [htype]
    rw [show BitVec.ofNat 4 (fieldNat r.desc.w4 24 4) = palLinks r.desc from rfl, hnotFar, hnone, beq_eq_false_iff_ne.2 (Nat.ne_of_gt hlow),
      decide_eq_false (Nat.not_lt.2 hhigh), decide_eq_false (Nat.not_le.2 hstale)]
    rfl
  exact ⟨_, hexec, _, rfl, rfl, fun j hj => find?_define_other Pal.id u.pals (definedPal r.desc) hj,
    find?_define_same Pal.id u.pals (definedPal r.desc)⟩

end

/-! ## Topology -/

theorem besideCarrying_of_onlyFlags {s t : State} (h : OnlyFlags s t) : besideCarrying t = besideCarrying s :=
  besideCarrying_of_onlyLink (h.onlyLink 0)

theorem besideCarrying_linkUp (l : Nat) (s : State) : besideCarrying (linkUp l s) = besideCarrying s := by
  unfold linkUp
  dsimp only
  split
  · exact (holdOut_cases l 6 s).1
  · split
    · exact (holdOut_cases l 7 s).1
    · split <;> rfl

theorem besideCarrying_rollMismatch (l outcome : Nat) (want found : Word × Nat) (s : State) :
    besideCarrying (rollMismatch l outcome want found s) = besideCarrying s :=
  besideCarrying_of_onlyFlags ((onlyFlags_raiseEvent _ _ s).trans (onlyFlags_raiseDev 22 _))

theorem besideCarrying_judgeLink (l : Nat) (s : State) : besideCarrying (judgeLink l s) = besideCarrying s := by
  unfold judgeLink
  split
  · next t it _ _ =>
    extract_lets o st u want v
    have hu : besideCarrying u = besideCarrying s := rfl
    have hv : besideCarrying v = besideCarrying s := (besideCarrying_rollMismatch _ _ _ _ u).trans hu
    split
    · split
      · exact (besideCarrying_linkUp l u).trans hu
      · exact hu
    · split
      · split
        · exact (holdOut_cases l 0 _).1.trans ((besideCarrying_of_onlyLink (onlyLink_raiseLink l 4 v)).trans hv)
        · exact (holdOut_cases l 0 v).1.trans hv
      · exact hv
  · rfl

theorem besideCarrying_judgeAbsent (l : Nat) (s : State) : besideCarrying (judgeAbsent l s) = besideCarrying s := by
  unfold judgeAbsent
  split
  · rfl
  · extract_lets u
    split
    · exact (besideCarrying_rollMismatch _ _ _ _ u).trans rfl
    · rfl

theorem besideCarrying_judgeAll (s : State) : besideCarrying (judgeAll s) = besideCarrying s := by
  have hfold (ls : List Nat) (t : State) : besideCarrying (ls.foldl (fun s l =>
      if (linkOf l s).state < 2 then judgeAbsent l s else judgeLink l s) t) = besideCarrying t := by
    induction ls generalizing t with
    | nil => rfl
    | cons l ls ih =>
      rw [List.foldl_cons, ih]
      split
      · exact besideCarrying_judgeAbsent l t
      · exact besideCarrying_judgeLink l t
  exact hfold _ s

theorem flash_of_besideCarrying {s t : State} (h : besideCarrying t = besideCarrying s) : t.flash = s.flash :=
  (congrArg (fun u => u.flash) h :)

theorem mod_of_besideCarrying {s t : State} (h : besideCarrying t = besideCarrying s) : t.mod = s.mod :=
  (congrArg (fun u => u.mod) h :)

theorem Fetched.stage {op : BitVec 8} {d : Desc} {s u : State} {r : DescRec} (h : Fetched op d s r u) : u.mod.stage = 7 := by
  obtain ⟨-, hstage, _, _, _, rfl, _⟩ := h
  rw [noteFetch_eq, modChan_mod]
  exact hstage

theorem completes_topologyLoad {d : Desc} {s u : State} {r : DescRec} {img : Topology} (h : Starts 0x47 d s r u)
    (hparse : parseTopology (hostRead r.port d.w2.toNat (fieldNat d.w3 0 32) u) = some img)
    (hok : topologyOk (hostRead r.port d.w2.toNat (fieldNat d.w3 0 32) u) img u = true) :
    Completes (.topologyLoad d) s fun t => Finishes r 0 t fun v =>
      ((∃ g ∈ u.groups, g.open'.isSome = true) → v = { u with mod := { u.mod with pendingTopology := some img } }) ∧
      ((∀ g ∈ u.groups, g.open' = none) → v.flash.topology = some img ∧ v.mod.pendingTopology = none) := by
  obtain rfl := h.desc.1
  have hstage : (u.mod.stage == 7) = true := beq_iff_eq.2 h.1.stage
  have hexec : execTopologyLoad r.desc s = .next (done r 0 (applyTopology (modMod (fun m => { m with pendingTopology := some img }) u))) := by
    rw [execTopologyLoad, h.fetchWith]
    simp only [startTopology, hparse, hok, if_true, acceptTopology, hstage]
  refine ⟨_, hexec, _, rfl, fun ⟨g, hg, hopen⟩ => ?_, fun hclosed => ?_⟩
  · have hany : (u.groups.any fun g => g.open'.isSome) = true := List.any_eq_true.2 ⟨g, hg, hopen⟩
    exact if_pos hany
  · have hnone : (u.groups.any fun g => g.open'.isSome) = false := List.any_eq_false.2 fun g hg => by
      rw [hclosed g hg]
      exact Bool.false_ne_true
    have happly : applyTopology (modMod (fun m => { m with pendingTopology := some img }) u) =
        judgeAll (modMod (fun m => { m with pendingTopology := none }) (modFlash (fun f => { f with topology := some img })
          (modMod (fun m => { m with pendingTopology := some img }) u))) := if_neg (by
      show ¬ (u.groups.any fun g => g.open'.isSome) = true
      rw [hnone]
      exact Bool.false_ne_true)
    rw [happly]
    have hjudged := besideCarrying_judgeAll (modMod (fun m => { m with pendingTopology := none }) (modFlash (fun f => { f with topology := some img })
      (modMod (fun m => { m with pendingTopology := some img }) u)))
    rw [flash_of_besideCarrying hjudged, mod_of_besideCarrying hjudged]
    exact ⟨rfl, rfl⟩

/-! ## Limits -/

/-- What blocking a waiting change leaves: everything but pen-pal regions and the log of decisions. -/
def besideDecisions (s : State) : State := { s with regions := [], card := { s.card with decisions := [] } }

theorem besideDecisions_blockChange (s : State) (x : Region) : besideDecisions (blockChange s x) = besideDecisions s := by
  unfold blockChange
  split
  · rfl
  · split
    · rfl
    · rfl

/-- The policy of each group of this device that new limits change at once. -/
def keptPolicy (es : List PolicyEntry) (s : State) : List PolicyEntry :=
  (s.groups.map fun g => g.id).map fun g =>
    let e : PolicyEntry := (es.find? fun e => e.group == g).getD { group := g }
    { policyOf g s with group := g, forbid := e.forbid, postSkewUs := e.postSkewUs, grainUs := e.grainUs }

/-- The card as new limits leave it. -/
def limitedCard (w2 : Word) (kept es : List PolicyEntry) (mine : List Nat) (k : CardSt) : CardSt :=
  { k with
    deviceForbid := fieldNat w2 0 8, moveMin := fieldNat w2 8 8, moveMax := fieldNat w2 16 8, parkMax := fieldNat w2 24 4
    policy := kept ++ es.filter fun e => !mine.contains e.group, nextPolicy := some es }

theorem besideDecisions_acceptLimits (bs : List Byte) (es : List PolicyEntry) (s : State) : besideDecisions (acceptLimits bs es s) =
    besideDecisions (modCard (limitedCard (BitVec.ofNat 64 (wordAt bs 2)) (keptPolicy es s) es (s.groups.map fun g => g.id)) s) := by
  have hfold (xs : List Region) (t : State) : besideDecisions (xs.foldl blockChange t) = besideDecisions t := by
    induction xs generalizing t with
    | nil => rfl
    | cons x xs ih => exact (ih _).trans (besideDecisions_blockChange t x)
  exact hfold s.regions _

theorem completes_policyLimits {d : Desc} {s u : State} {r : DescRec} {bs : List Byte} {es : List PolicyEntry} (h : Starts 0x48 d s r u)
    (hbs : hostRead r.port d.w2.toNat (fieldNat d.w3 0 32) u = bs) (hes : (chunks 64 (bs.drop 64)).map limitsEntry = es)
    (hok : limitsOk bs es = true) :
    Completes (.policyLimits d) s fun t => Finishes r 0 t fun v => v.card.deviceForbid = fieldNat (BitVec.ofNat 64 (wordAt bs 2) : Word) 0 8 ∧
      v.card.moveMin = fieldNat (BitVec.ofNat 64 (wordAt bs 2) : Word) 8 8 ∧ v.card.moveMax = fieldNat (BitVec.ofNat 64 (wordAt bs 2) : Word) 16 8 ∧
      v.card.parkMax = fieldNat (BitVec.ofNat 64 (wordAt bs 2) : Word) 24 4 ∧ v.card.nextPolicy = some es ∧
      (∀ e ∈ es, (∀ g ∈ u.groups, g.id ≠ e.group) → e ∈ v.card.policy) ∧ v.groups = u.groups ∧ v.memory = u.memory := by
  obtain rfl := h.desc.1
  have hexec : execPolicyLimits r.desc s = .next (done r 0 (acceptLimits bs es u)) := by
    rw [execPolicyLimits, h.fetchWith]
    simp only [startLimits, hbs, hes, hok, if_true]
  have hcard := besideDecisions_acceptLimits bs es u
  have hforbid := congrArg (fun t : State => t.card.deviceForbid) hcard
  have hmin := congrArg (fun t : State => t.card.moveMin) hcard
  have hmax := congrArg (fun t : State => t.card.moveMax) hcard
  have hpark := congrArg (fun t : State => t.card.parkMax) hcard
  have hnext := congrArg (fun t : State => t.card.nextPolicy) hcard
  have hgroups := congrArg (fun t : State => t.groups) hcard
  have hmem := congrArg (fun t : State => t.memory) hcard
  have hpolicy : (acceptLimits bs es u).card.policy = keptPolicy es u ++ es.filter fun e => !(u.groups.map fun g => g.id).contains e.group :=
    congrArg (fun t : State => t.card.policy) hcard
  refine ⟨_, hexec, _, rfl, hforbid, hmin, hmax, hpark, hnext, fun e he hother => ?_, hgroups, hmem⟩
  rw [hpolicy]
  refine List.mem_append_right _ (List.mem_filter.2 ⟨he, ?_⟩)
  rw [Bool.not_eq_true', ← Bool.not_eq_true, List.contains_iff_mem]
  intro hmine
  obtain ⟨g, hg, hid⟩ := List.mem_map.1 hmine
  exact hother g hg hid

/-! ## Keys installed -/

theorem besideCarrying_endKex (l : Nat) (authFail : Bool) (s : State) : besideCarrying (endKex l authFail s) = besideCarrying s := by
  unfold endKex
  split
  · rfl
  · extract_lets up u v
    have hv : besideCarrying v = besideCarrying s := by
      show besideCarrying (ite _ _ _) = _
      split
      · exact (besideCarrying_of_onlyLink (onlyLink_raiseLink l 4 u)).trans rfl
      · rfl
    split
    · exact (holdOut_cases l 0 v).1.trans hv
    · exact hv

theorem besideCarrying_abortKex (l cause : Nat) (authFail : Bool) (s : State) : besideCarrying (abortKex l cause authFail s) = besideCarrying s := by
  unfold abortKex
  split
  · rfl
  · exact (besideCarrying_endKex l authFail _).trans rfl

/-- The key slot that a KEY_INSTALL fills. -/
def installedKey (key : List Byte) (const : W32) (t : Word) : KeySlot :=
  { key := BitVec.ofNat 256 (leNat key), const := const, valid := true, items := 0, since := t }

/-- A link with a key slot filled in one direction. -/
def filledLink (slot rx : Bool) (v : KeySlot) (k : Link) : Link :=
  if rx then { k with rxKeys := vset k.rxKeys (slotIx slot) v, rxNonce := vset k.rxNonce (slotIx slot) none }
  else { k with txKeys := vset k.txKeys (slotIx slot) v, txNonce := vset k.txNonce (slotIx slot) 0 }

/-- A key slot filled: what is left of an agreement under way ends first, and KEY_READY may follow. -/
theorem fillSlot_eq (l : Nat) (slot rx : Bool) (key : List Byte) (const : W32) (s : State) : ∃ (u : State) (its : List Item),
    besideCarrying u = besideCarrying s ∧ fillSlot l slot rx key const s =
      its.foldl (fun s it => sendItem l it s) (modLink l (filledLink slot rx (installedKey key const (mono s))) u) := by
  unfold fillSlot
  extract_lets n v u
  have hu : besideCarrying u = besideCarrying s := by
    show besideCarrying (match (linkOf l s).kex with
      | some x => if x.slot == slot then modLink l (fun k => { k with kexRetryAt := none }) (abortKex l 4 false s) else s
      | none => s) = _
    split
    · split
      · exact (besideCarrying_abortKex l 4 false s)
      · rfl
    · rfl
  cases rx
  · exact ⟨u, [], hu, rfl⟩
  · exact ⟨u, [mkItem 0x04 0 (if slot then 1 else 0) 0 0 0 0], hu, rfl⟩

theorem fillSlot_cases (l : Nat) (slot rx : Bool) (key : List Byte) (const : W32) (s : State) :
    besideCarrying (fillSlot l slot rx key const s) = besideCarrying s ∧
      vget (if rx then (linkOf l (fillSlot l slot rx key const s)).rxKeys else (linkOf l (fillSlot l slot rx key const s)).txKeys) (slotIx slot) {} =
        installedKey key const (mono s) := by
  obtain ⟨u, its, hu, heq⟩ := fillSlot_eq l slot rx key const s
  obtain ⟨hrest, hlink, -⟩ := foldl_sendItem_cases l its (modLink l (filledLink slot rx (installedKey key const (mono s))) u)
  rw [← heq, linkOf_modLink] at hlink
  rw [← heq] at hrest
  refine ⟨?_, ?_⟩
  · have hmask : besideCarrying (fillSlot l slot rx key const s) = besideCarrying (modLink l (filledLink slot rx (installedKey key const (mono s))) u) :=
      (congrArg besideCarrying hrest :)
    exact hmask.trans hu
  · rw [hlink]
    cases rx
    · exact vget_vset_same _ _ _ _ (slotIx_lt slot)
    · exact vget_vset_same _ _ _ _ (slotIx_lt slot)

/-- Flash once a key block of a sequence number has been taken. -/
def keySeqTaken (seq : Word) (s : State) : State := modFlash (fun f => { f with lastKeySeq := seq, counterWrites := f.counterWrites + 1 }) s

/-- A far link with an installed secret. -/
def secretLink (key : List Byte) (id : W32) (k : Link) : Link := { k with far := { k.far with psk := key, pskId := id } }

theorem far_askKex (l : Nat) (s : State) : (linkOf l (askKex l s)).far = (linkOf l s).far ∧ (askKex l s).flash = s.flash := by
  unfold askKex
  dsimp only
  split
  · exact ⟨rfl, rfl⟩
  · next hnone =>
    split
    · obtain ⟨x, its, hlink, -, -, -, -, hrest⟩ := startKex_cases (slot := !(linkOf l s).keyTx) (Option.not_isSome_iff_eq_none.1 hnone)
      exact ⟨by rw [hlink]; rfl, (congrArg (fun t => t.flash) hrest :)⟩
    · exact ⟨by rw [sendItem, linkOf_modLink], rfl⟩

section

variable {d : Desc} {s u : State} {r : DescRec} {key bs : List Byte}

/-- A KEY_INSTALL whose block passes the checks. -/
theorem startKeyInstall_ok (hbs : hostRead r.port r.desc.w2.toNat 1696 u = bs) (hlen : fieldNat r.desc.w3 0 32 = 1696)
    (hl : fieldNat r.desc.w4 0 6 < 36) (hgood : keyBlockBad bs (fieldNat r.desc.w4 0 6) u = false) (hkey : unwrapKey bs = some key)
    (hseq : u.flash.lastKeySeq.toNat < (BitVec.ofNat 64 (leNat ((bs.drop 8).take 8)) : Word).toNat) :
    ((linkOf (fieldNat r.desc.w4 0 6) u).ctlFar = false → (leNat (bs.take 8)).testBit 48 = false →
      (leNat (bs.take 8)).testBit 46 ≠ (if (leNat (bs.take 8)).testBit 47 then (linkOf (fieldNat r.desc.w4 0 6) u).keyRx
        else (linkOf (fieldNat r.desc.w4 0 6) u).keyTx) →
      startKeyInstall r u = done r 0 (fillSlot (fieldNat r.desc.w4 0 6) ((leNat (bs.take 8)).testBit 46) ((leNat (bs.take 8)).testBit 47) key
        (BitVec.ofNat 32 (leNat ((bs.drop 16).take 8) % 2 ^ 32)) (keySeqTaken (BitVec.ofNat 64 (leNat ((bs.drop 8).take 8))) u))) ∧
    ((linkOf (fieldNat r.desc.w4 0 6) u).ctlFar = true → farCapable (fieldNat r.desc.w4 0 6) = true → (leNat (bs.take 8)).testBit 48 = true →
      (leNat (bs.take 8)).testBit 47 = false → (leNat (bs.take 8)).testBit 46 = false →
      startKeyInstall r u = done r 0 (if (linkOf (fieldNat r.desc.w4 0 6) u).state == 3 then askKex (fieldNat r.desc.w4 0 6)
          (modLink (fieldNat r.desc.w4 0 6) (secretLink key (BitVec.ofNat 32 (leNat ((bs.drop 16).take 8) / 2 ^ 32)))
            (keySeqTaken (BitVec.ofNat 64 (leNat ((bs.drop 8).take 8))) u))
        else modLink (fieldNat r.desc.w4 0 6) (secretLink key (BitVec.ofNat 32 (leNat ((bs.drop 16).take 8) / 2 ^ 32)))
          (keySeqTaken (BitVec.ofNat 64 (leNat ((bs.drop 8).take 8))) u))) := by
  have hfields : (fieldNat r.desc.w3 0 32 != 1696 || decide (36 ≤ fieldNat r.desc.w4 0 6) || keyBlockBad bs (fieldNat r.desc.w4 0 6) u) = false := by
    rw [hlen, hgood, decide_eq_false (Nat.not_le.2 hl)]
    rfl
  have hlink (l : Nat) (f : FlashSt → FlashSt) : linkOf l (modFlash f u) = linkOf l u := rfl
  refine ⟨fun hctl hpsk hslot => ?_, fun hctl hcap hpsk hrx hslot => ?_⟩
  · have hother : ((leNat (bs.take 8)).testBit 46 == (if (leNat (bs.take 8)).testBit 47 then (linkOf (fieldNat r.desc.w4 0 6) u).keyRx
        else (linkOf (fieldNat r.desc.w4 0 6) u).keyTx)) = false := beq_eq_false_iff_ne.2 hslot
    simp only [startKeyInstall, hbs, hfields, hkey, if_neg (Nat.not_le.2 hseq), hlink, hctl, hpsk, hother, Bool.false_and, Bool.false_eq_true, if_false]
    rfl
  · simp only [startKeyInstall, hbs, hfields, hkey, if_neg (Nat.not_le.2 hseq), hlink, hctl, hcap, hpsk, hrx, hslot, Bool.and_self,
      Bool.not_true, Bool.or_self, Bool.false_eq_true, if_false, if_true]
    rfl

theorem completes_keyInstall_slot (h : Starts 0x49 d s r u) (hbs : hostRead r.port d.w2.toNat 1696 u = bs) (hlen : fieldNat d.w3 0 32 = 1696)
    (hl : fieldNat d.w4 0 6 < 36) (hgood : keyBlockBad bs (fieldNat d.w4 0 6) u = false) (hkey : unwrapKey bs = some key)
    (hseq : u.flash.lastKeySeq.toNat < (BitVec.ofNat 64 (leNat ((bs.drop 8).take 8)) : Word).toNat)
    (hctl : (linkOf (fieldNat d.w4 0 6) u).ctlFar = false) (hpsk : (leNat (bs.take 8)).testBit 48 = false)
    (hslot : (leNat (bs.take 8)).testBit 46 ≠ (if (leNat (bs.take 8)).testBit 47 then (linkOf (fieldNat d.w4 0 6) u).keyRx
      else (linkOf (fieldNat d.w4 0 6) u).keyTx)) :
    Completes (.keyInstall d) s fun t => Finishes r 0 t fun v => v.flash.lastKeySeq = BitVec.ofNat 64 (leNat ((bs.drop 8).take 8)) ∧
      v.flash.counterWrites = u.flash.counterWrites + 1 ∧
      let x := vget (if (leNat (bs.take 8)).testBit 47 then (linkOf (fieldNat d.w4 0 6) v).rxKeys else (linkOf (fieldNat d.w4 0 6) v).txKeys)
        (slotIx ((leNat (bs.take 8)).testBit 46)) {}
      x.key = BitVec.ofNat 256 (leNat key) ∧ x.const = BitVec.ofNat 32 (leNat ((bs.drop 16).take 8) % 2 ^ 32) ∧ x.valid = true ∧ x.items = 0 := by
  obtain rfl := h.desc.1
  have hexec : execKeyInstall r.desc s = .next (startKeyInstall r u) := by rw [execKeyInstall, h.fetchWith]
  rw [(startKeyInstall_ok hbs hlen hl hgood hkey hseq).1 hctl hpsk hslot] at hexec
  obtain ⟨hrest, hfilled⟩ := fillSlot_cases (fieldNat r.desc.w4 0 6) ((leNat (bs.take 8)).testBit 46) ((leNat (bs.take 8)).testBit 47) key
    (BitVec.ofNat 32 (leNat ((bs.drop 16).take 8) % 2 ^ 32)) (keySeqTaken (BitVec.ofNat 64 (leNat ((bs.drop 8).take 8))) u)
  have hflash := flash_of_besideCarrying hrest
  refine ⟨_, hexec, _, rfl, congrArg FlashSt.lastKeySeq hflash, congrArg FlashSt.counterWrites hflash, ?_⟩
  dsimp only
  rw [hfilled]
  exact ⟨rfl, rfl, rfl, rfl⟩

theorem completes_keyInstall_secret (h : Starts 0x49 d s r u) (hbs : hostRead r.port d.w2.toNat 1696 u = bs) (hlen : fieldNat d.w3 0 32 = 1696)
    (hl : fieldNat d.w4 0 6 < 36) (hgood : keyBlockBad bs (fieldNat d.w4 0 6) u = false) (hkey : unwrapKey bs = some key)
    (hseq : u.flash.lastKeySeq.toNat < (BitVec.ofNat 64 (leNat ((bs.drop 8).take 8)) : Word).toNat)
    (hctl : (linkOf (fieldNat d.w4 0 6) u).ctlFar = true) (hcap : farCapable (fieldNat d.w4 0 6) = true)
    (hpsk : (leNat (bs.take 8)).testBit 48 = true) (hrx : (leNat (bs.take 8)).testBit 47 = false) (hslot : (leNat (bs.take 8)).testBit 46 = false) :
    Completes (.keyInstall d) s fun t => Finishes r 0 t fun v => v.flash.lastKeySeq = BitVec.ofNat 64 (leNat ((bs.drop 8).take 8)) ∧
      (linkOf (fieldNat d.w4 0 6) v).far.psk = key ∧ (linkOf (fieldNat d.w4 0 6) v).far.pskId = BitVec.ofNat 32 (leNat ((bs.drop 16).take 8) / 2 ^ 32) := by
  obtain rfl := h.desc.1
  have hexec : execKeyInstall r.desc s = .next (startKeyInstall r u) := by rw [execKeyInstall, h.fetchWith]
  rw [(startKeyInstall_ok hbs hlen hl hgood hkey hseq).2 hctl hcap hpsk hrx hslot] at hexec
  refine ⟨_, hexec, _, rfl, ?_⟩
  obtain ⟨v, hv⟩ : ∃ v, modLink (fieldNat r.desc.w4 0 6) (secretLink key (BitVec.ofNat 32 (leNat ((bs.drop 16).take 8) / 2 ^ 32)))
      (keySeqTaken (BitVec.ofNat 64 (leNat ((bs.drop 8).take 8))) u) = v := ⟨_, rfl⟩
  have hflash : v.flash.lastKeySeq = BitVec.ofNat 64 (leNat ((bs.drop 8).take 8)) := hv ▸ rfl
  have hfar : (linkOf (fieldNat r.desc.w4 0 6) v).far.psk = key ∧
      (linkOf (fieldNat r.desc.w4 0 6) v).far.pskId = BitVec.ofNat 32 (leNat ((bs.drop 16).take 8) / 2 ^ 32) := by
    rw [← hv, linkOf_modLink]
    exact ⟨rfl, rfl⟩
  rw [hv]
  split
  · obtain ⟨hkeep, hsame⟩ := far_askKex (fieldNat r.desc.w4 0 6) v
    rw [hkeep, hsame]
    exact ⟨hflash, hfar⟩
  · exact ⟨hflash, hfar⟩

end

/-- Settles O40: each definition is one change of its table, and what judging links or ending an agreement adds leaves flash alone. -/
theorem definitionDescriptors : Obligations.DefinitionDescriptors := by
  refine ⟨fun d s r u => completes_groupDefine, fun d s r u h => ⟨completes_deskmatePair_waits h, completes_deskmatePair_dissolves h⟩,
    fun id s r => completes_deskmatePairFormed, fun d s r u => completes_penPalDefine, fun d s r u img => completes_topologyLoad,
    fun d s r u h hok => completes_policyLimits h rfl rfl hok, fun d s r u key h hlen hl hgood hkey hseq =>
      ⟨completes_keyInstall_slot h rfl hlen hl hgood hkey hseq, completes_keyInstall_secret h rfl hlen hl hgood hkey hseq⟩⟩

end Sys2Proof.Machine
end

section
/-!
Stacks and the channel map (Machine/Stacks.lean): what moving slots and settling stacks leave, and what becomes of a stack that retrains,
warms or is lost.
-/

namespace Sys2Proof.Machine

/-! ## The map read as lists -/

/-- The places of a slot: where it lies and where it belongs. -/
def placeOf (e : MapEntry) : Nat × Nat × Nat × Nat := (e.channel, e.position, e.homeChannel, e.homePosition)

theorem mapEntry_eq (slot : Nat) (s : State) : mapEntry slot s = ((fullMap s)[slot]?).getD (canonicalEntry slot) := by
  rw [mapEntry, fullMap, List.getD_eq_getElem?_getD]
  split
  · next h =>
    rw [List.isEmpty_iff.1 h, canonicalMap, List.getElem?_map]
    rcases Nat.lt_or_ge slot 4096 with hlt | hge
    · simp [hlt]
    · simp [hge]
  · rfl

theorem fullMap_map_setMap {α : Type} {p : MapEntry → α} {f : MapEntry → MapEntry} (slot : Nat) (s : State)
    (hf : ∀ e : MapEntry, (fullMap s)[slot]? = some e → p (f e) = p e) : (fullMap (setMap slot f s)).map p = (fullMap s).map p := by
  cases he : (fullMap s)[slot]? with
  | none =>
    rw [setMap_of_none f he]
    exact congrArg _ (fullMap_of_map (fullMap_ne_nil s))
  | some e =>
    rw [fullMap_setMap f he, List.map_set, hf e he]
    refine List.ext_getElem? fun i => ?_
    rw [List.getElem?_set]
    split
    · next hi =>
      subst hi
      obtain ⟨hlt, -⟩ := List.getElem?_eq_some_iff.1 he
      rw [if_pos (by simpa using hlt), List.getElem?_map, he, Option.map_some]
    · rfl

theorem mapEntry_congr {α : Type} {p : MapEntry → α} {s t : State} (h : (fullMap t).map p = (fullMap s).map p) (slot : Nat) :
    p (mapEntry slot t) = p (mapEntry slot s) := by
  have hat := congrArg (fun l : List α => l[slot]?.getD (p (canonicalEntry slot))) h
  simp only [List.getElem?_map] at hat
  rw [mapEntry_eq, mapEntry_eq]
  cases ht : (fullMap t)[slot]? <;> cases hs : (fullMap s)[slot]? <;> simp only [ht, hs, Option.map_none, Option.map_some,
    Option.getD_none, Option.getD_some] at hat ⊢ <;> exact hat

/-- The channels of the slots. -/
def slotChannels (s : State) : List Nat := (fullMap s).map fun e => e.channel

theorem slotsAt_eq (ch : Nat) (s : State) : slotsAt ch s = ((slotChannels s).zipIdx.filter fun x => x.1 == ch).map Prod.snd := by
  rw [slotsAt, slotChannels, List.zipIdx_map, List.filter_map, List.map_map]
  rfl

theorem slotsAt_congr {s t : State} (h : slotChannels t = slotChannels s) (ch : Nat) : slotsAt ch t = slotsAt ch s := by
  rw [slotsAt_eq, slotsAt_eq, h]

theorem slotsOf_congr {s t : State} (h : slotChannels t = slotChannels s) (m : Nat) : slotsOf m t = slotsOf m s :=
  congrArg (List.flatMap · (List.range 16)) (funext fun _ => slotsAt_congr h _)

/-! ## What moves of slots leave -/

theorem card_sendMsix (p : Port) (v : Nat) (s : State) : (sendMsix p v s).card = s.card := by
  unfold sendMsix
  split
  · rfl
  · split
    · cases p <;> rfl
    · rfl

theorem card_flagMessage (p : Port) (i : Nat) (s : State) : (flagMessage p i s).card = s.card := by
  unfold flagMessage
  split
  · exact card_sendMsix _ _ s
  · rfl

theorem card_raiseDev (i : Nat) (s : State) : (raiseDev i s).card = s.card := by
  unfold raiseDev
  extract_lets t
  split
  · rfl
  · exact (card_flagMessage _ _ _).trans ((card_flagMessage _ _ t).trans rfl)

/-- A state without the map, the queue of moves, flags, messages and the report card. -/
def besideSlots (s : State) : State :=
  quiet { s with memory := { s.memory with map := [], moving := [] }, flash := { s.flash with map := [] } }

/-- From `s` to `t` only the map and the queue of moves have changed, with events and flags raised. -/
structure OnlySlots (s t : State) : Prop where
  rest : besideSlots t = besideSlots s
  events : ∃ es : List EventRec, t.card = { s.card with events := s.card.events ++ es }
  raised : ∀ i : Nat, s.devFlags.getLsbD i = true → t.devFlags.getLsbD i = true

namespace OnlySlots

theorem refl (s : State) : OnlySlots s s := ⟨rfl, ⟨[], by rw [List.append_nil]⟩, fun _ h => h⟩

theorem trans {s t u : State} (h : OnlySlots s t) (k : OnlySlots t u) : OnlySlots s u := by
  obtain ⟨es, hes⟩ := h.events
  obtain ⟨fs, hfs⟩ := k.events
  exact ⟨k.rest.trans h.rest, ⟨es ++ fs, by rw [hfs, hes, List.append_assoc]⟩, fun i hi => k.raised i (h.raised i hi)⟩

theorem foldl {α : Type} {f : State → α → State} (h : ∀ s x, OnlySlots s (f s x)) (xs : List α) (s : State) : OnlySlots s (xs.foldl f s) := by
  induction xs generalizing s with
  | nil => exact refl s
  | cons x xs ih => exact (h s x).trans (ih _)

theorem of_same {s t : State} (hrest : besideSlots t = besideSlots s) (hcard : t.card = s.card) (hflags : t.devFlags = s.devFlags) : OnlySlots s t :=
  ⟨hrest, ⟨[], by rw [hcard, List.append_nil]⟩, fun i hi => (congrArg (·.getLsbD i) hflags).trans hi⟩

theorem setMap (slot : Nat) (f : MapEntry → MapEntry) (s : State) : OnlySlots s (setMap slot f s) := of_same rfl rfl rfl

theorem setMoving (f : List (Nat × Nat) → List (Nat × Nat)) (s : State) : OnlySlots s (modMemory (fun m => { m with moving := f m.moving }) s) :=
  of_same rfl rfl rfl

theorem raiseDev (i : Nat) (s : State) : OnlySlots s (raiseDev i s) := by
  have hq : quiet (Machine.raiseDev i s) = quiet s := onlyFlags_raiseDev i s
  have hrest := congrArg besideSlots hq
  refine ⟨hrest, ⟨[], by rw [card_raiseDev, List.append_nil]⟩, fun j hj => ?_⟩
  rw [devRaised_raiseDev i s, BitVec.getLsbD_or, hj, Bool.true_or]

theorem raiseEvent (code : Nat) (args : List Nat) (s : State) : OnlySlots s (raiseEvent code args s) := ⟨rfl, ⟨_, rfl⟩, fun _ h => h⟩

theorem channelOutEvent (ch cause : Nat) (s : State) : OnlySlots s (channelOutEvent ch cause s) := (raiseEvent _ _ s).trans (raiseDev _ _)

theorem memory {s t : State} (h : OnlySlots s t) : { t.memory with map := [], moving := [] } = { s.memory with map := [], moving := [] } :=
  (congrArg State.memory h.rest :)

theorem fast {s t : State} (h : OnlySlots s t) : t.memory.fast = s.memory.fast := (congrArg MemSt.fast h.memory :)

theorem stk {s t : State} (h : OnlySlots s t) : t.memory.stk = s.memory.stk := (congrArg MemSt.stk h.memory :)

theorem chans {s t : State} (h : OnlySlots s t) : t.memory.chans = s.memory.chans := (congrArg MemSt.chans h.memory :)

theorem acks {s t : State} (h : OnlySlots s t) : t.memory.acks = s.memory.acks := (congrArg MemSt.acks h.memory :)

theorem pendingErr {s t : State} (h : OnlySlots s t) : t.memory.pendingErr = s.memory.pendingErr := (congrArg MemSt.pendingErr h.memory :)

theorem memSeq {s t : State} (h : OnlySlots s t) : t.memSeq = s.memSeq := (congrArg State.memSeq h.rest :)

theorem channelOut {s t : State} (h : OnlySlots s t) : t.flash.channelOut = s.flash.channelOut := (congrArg (fun u => u.flash.channelOut) h.rest :)

theorem trainTemp {s t : State} (h : OnlySlots s t) : t.flash.trainTemp = s.flash.trainTemp := (congrArg (fun u => u.flash.trainTemp) h.rest :)

theorem decisions {s t : State} (h : OnlySlots s t) : t.card.decisions = s.card.decisions := by
  obtain ⟨es, hes⟩ := h.events
  rw [hes]

theorem memChanOf {s t : State} (h : OnlySlots s t) (c : Nat) : memChanOf c t = memChanOf c s :=
  congrArg (fun x => tgetD x c ({} : ChanMem)) h.chans

end OnlySlots

theorem onlySlots_beginMove (slot kind : Nat) (s : State) : OnlySlots s (beginMove slot kind s) := by
  unfold beginMove
  extract_lets e d s₁
  clear_value d
  rcases d with _ | ⟨c, p⟩
  · exact ((OnlySlots.setMoving (fun m => m.filter fun x => x.1 != slot) s).trans (OnlySlots.raiseEvent _ _ _)).trans (OnlySlots.raiseDev _ _)
  · exact OnlySlots.setMap _ _ s

theorem onlySlots_startMoves (s : State) : OnlySlots s (startMoves s) := by
  unfold startMoves
  refine OnlySlots.foldl (fun t x => ?_) _ s
  dsimp only
  split
  · exact OnlySlots.refl t
  · exact onlySlots_beginMove _ _ t

theorem onlySlots_queueMoves (kind : Nat) (slots : List Nat) (s : State) : OnlySlots s (queueMoves kind slots s) := OnlySlots.of_same rfl rfl rfl

theorem onlySlots_keepParked (ch : Nat) (s : State) : OnlySlots s (keepParked ch s) :=
  OnlySlots.foldl (fun t i => (OnlySlots.setMoving (fun m => m.filter fun x => !(x.1 == i && x.2 == 4)) t).trans (OnlySlots.setMap _ _ _)) _ s

theorem onlySlots_cancelTo (ch : Nat) (s : State) : OnlySlots s (cancelTo ch s) := by
  unfold cancelTo
  refine OnlySlots.foldl (fun t x => ?_) _ s
  dsimp only
  split
  · exact OnlySlots.setMap _ _ t
  · exact OnlySlots.refl t

theorem onlySlots_leaveChannel (ch kind : Nat) (s : State) : OnlySlots s (leaveChannel ch kind s) :=
  ((onlySlots_keepParked ch s).trans (onlySlots_cancelTo ch _)).trans (onlySlots_queueMoves kind _ _)

theorem onlySlots_placeLost (slot : Nat) (s : State) : OnlySlots s (placeLost slot s) := by
  unfold placeLost
  extract_lets e d s₁
  have hs₁ : OnlySlots s s₁ := OnlySlots.setMoving (fun m => m.filter fun x => x.1 != slot) s
  clear_value d
  rcases d with _ | ⟨c, p⟩
  · exact (hs₁.trans (OnlySlots.raiseEvent _ _ _)).trans (OnlySlots.raiseDev _ _)
  · exact hs₁.trans (OnlySlots.setMap _ _ _)

/-! ### Places and channels that moves keep -/

/-- The places of the slots. -/
def slotPlaces (s : State) : List (Nat × Nat × Nat × Nat) := (fullMap s).map placeOf

theorem fullMap_congr {s t : State} (h : t.memory.map = s.memory.map) : fullMap t = fullMap s := by rw [fullMap, fullMap, h]

theorem memory_raiseDev (i : Nat) (s : State) : (raiseDev i s).memory = s.memory := (onlyFlags_raiseDev i s).sameMemory.1

theorem slotPlaces_beginMove (slot kind : Nat) (s : State) : slotPlaces (beginMove slot kind s) = slotPlaces s := by
  unfold beginMove
  extract_lets e d s₁
  clear_value d
  rcases d with _ | ⟨c, p⟩
  · exact congrArg (List.map placeOf) (fullMap_congr ((congrArg MemSt.map (memory_raiseDev 8 _)).trans rfl))
  · exact fullMap_map_setMap slot s fun _ _ => rfl

theorem slotPlaces_startMoves (s : State) : slotPlaces (startMoves s) = slotPlaces s := by
  unfold startMoves
  generalize s.memory.moving = xs
  induction xs generalizing s with
  | nil => rfl
  | cons x xs ih =>
    rw [List.foldl_cons, ih]
    dsimp only
    split
    · rfl
    · exact slotPlaces_beginMove _ _ s

theorem slotChannels_eq (s : State) : slotChannels s = (slotPlaces s).map fun x => x.1 := by
  rw [slotChannels, slotPlaces, List.map_map]
  rfl

theorem slotChannels_of_places {s t : State} (h : slotPlaces t = slotPlaces s) : slotChannels t = slotChannels s := by
  rw [slotChannels_eq, slotChannels_eq, h]

theorem slotChannels_cancelTo (ch : Nat) (s : State) : slotChannels (cancelTo ch s) = slotChannels s := by
  unfold cancelTo
  generalize s.memory.moving = xs
  induction xs generalizing s with
  | nil => rfl
  | cons x xs ih =>
    rw [List.foldl_cons, ih]
    dsimp only
    split
    · exact fullMap_map_setMap _ s fun _ _ => rfl
    · rfl

theorem slotChannels_keepParked (ch : Nat) (s : State) : slotChannels (keepParked ch s) = slotChannels s := by
  unfold keepParked
  generalize parkedFrom ch s = xs
  induction xs generalizing s with
  | nil => rfl
  | cons x xs ih =>
    rw [List.foldl_cons, ih]
    dsimp only
    refine fullMap_map_setMap _ _ fun e _ => ?_
    split
    · rfl
    · split <;> rfl

theorem slotChannels_leaveChannel (ch kind : Nat) (s : State) : slotChannels (leaveChannel ch kind s) = slotChannels s :=
  (slotChannels_cancelTo ch _).trans (slotChannels_keepParked ch s)

/-! ## What the settling of stacks leaves (R265 to R267) -/

/-- The state of a stack. -/
def stackAt (m : Nat) (s : State) : StackSt := vget s.memory.stk m {}

theorem stackAt_congr {s t : State} (h : t.memory.stk = s.memory.stk) (m : Nat) : stackAt m t = stackAt m s :=
  congrArg (fun v => vget v m ({} : StackSt)) h

theorem stackAt_modStack (m j : Nat) (f : StackSt → StackSt) (s : State) (hm : m < 24) :
    stackAt j (modStack m f s) = if j = m then f (stackAt m s) else stackAt j s :=
  vget_vmod s.memory.stk m f j {} hm

theorem memChanOf_modMemChan (c j : Nat) (f : ChanMem → ChanMem) (s : State) :
    memChanOf j (modMemChan c f s) = if j = c then f (memChanOf c s) else memChanOf j s := by
  by_cases hj : j = c
  · subst hj
    rw [if_pos rfl]
    exact tgetD_tset_same _ _ _ _
  · rw [if_neg hj]
    exact tgetD_tset_other _ _ _ _ _ hj

/-- A stack's state without its level and the phase of its training. -/
def besideTraining (k : StackSt) : StackSt := { k with level := 0, retraining := 0, parkedPolicy := false, parkedAt := none }

/-- From `s` to `t` slots keep their places, channels may have left service, and of the stacks only levels and phases have changed. -/
structure Settles (s t : State) : Prop where
  fast : t.memory.fast = s.memory.fast
  acks : t.memory.acks = s.memory.acks
  decisions : t.card.decisions = s.card.decisions
  trainTemp : t.flash.trainTemp = s.flash.trainTemp
  places : slotPlaces t = slotPlaces s
  trainFails : ∀ c : Nat, (memChanOf c t).trainFails = (memChanOf c s).trainFails
  stack : ∀ j : Nat, besideTraining (stackAt j t) = besideTraining (stackAt j s)
  parked : ∀ j : Nat, (stackAt j s).parkedPolicy = false → (stackAt j t).parkedPolicy = false

namespace Settles

theorem refl (s : State) : Settles s s := ⟨rfl, rfl, rfl, rfl, rfl, fun _ => rfl, fun _ => rfl, fun _ h => h⟩

theorem trans {s t u : State} (h : Settles s t) (k : Settles t u) : Settles s u where
  fast := k.fast.trans h.fast
  acks := k.acks.trans h.acks
  decisions := k.decisions.trans h.decisions
  trainTemp := k.trainTemp.trans h.trainTemp
  places := k.places.trans h.places
  trainFails c := (k.trainFails c).trans (h.trainFails c)
  stack j := (k.stack j).trans (h.stack j)
  parked j hj := k.parked j (h.parked j hj)

theorem foldl {α : Type} {f : State → α → State} {xs : List α} (h : ∀ s, ∀ x ∈ xs, Settles s (f s x)) (s : State) : Settles s (xs.foldl f s) := by
  induction xs generalizing s with
  | nil => exact refl s
  | cons x xs ih => exact (h s x (List.mem_cons_self ..)).trans (ih (fun t y hy => h t y (List.mem_cons_of_mem _ hy)) _)

theorem driftSince {s t : State} (h : Settles s t) (j : Nat) : (stackAt j t).driftSince = (stackAt j s).driftSince :=
  (congrArg StackSt.driftSince (h.stack j) :)

theorem temp {s t : State} (h : Settles s t) (j : Nat) : (stackAt j t).temp = (stackAt j s).temp := (congrArg StackSt.temp (h.stack j) :)

theorem powered {s t : State} (h : Settles s t) (j : Nat) : (stackAt j t).powered = (stackAt j s).powered :=
  (congrArg StackSt.powered (h.stack j) :)

theorem of_onlySlots {s t : State} (h : OnlySlots s t) (hp : slotPlaces t = slotPlaces s) : Settles s t where
  fast := h.fast
  acks := h.acks
  decisions := h.decisions
  trainTemp := h.trainTemp
  places := hp
  trainFails c := congrArg _ (h.memChanOf c)
  stack j := congrArg _ (stackAt_congr h.stk j)
  parked j hj := by rw [stackAt_congr h.stk j]; exact hj

theorem startMoves (s : State) : Settles s (startMoves s) := of_onlySlots (onlySlots_startMoves s) (slotPlaces_startMoves s)

theorem queueMoves (kind : Nat) (slots : List Nat) (s : State) : Settles s (queueMoves kind slots s) :=
  of_onlySlots (onlySlots_queueMoves kind slots s) rfl

theorem modStack {m : Nat} (hm : m < 24) {f : StackSt → StackSt} (hf : ∀ k, besideTraining (f k) = besideTraining k)
    (hp : ∀ k, k.parkedPolicy = false → (f k).parkedPolicy = false) (s : State) : Settles s (modStack m f s) where
  fast := rfl
  acks := rfl
  decisions := rfl
  trainTemp := rfl
  places := rfl
  trainFails _ := rfl
  stack j := by
    rw [stackAt_modStack m j f s hm]
    split
    · next h => rw [h, hf]
    · rfl
  parked j hj := by
    rw [stackAt_modStack m j f s hm]
    split
    · next h => exact hp _ (h ▸ hj)
    · exact hj

theorem markOut (ch : Nat) (s : State) : Settles s (markOut ch s) where
  fast := rfl
  acks := rfl
  decisions := rfl
  trainTemp := rfl
  places := rfl
  trainFails c := by
    have hc := memChanOf_modMemChan ch c (fun x => { x with out := true }) s
    refine (congrArg ChanMem.trainFails hc).trans ?_
    split
    · next h => rw [h]
    · rfl
  stack _ := rfl
  parked _ hj := hj

theorem channelOutEvent (ch cause : Nat) (s : State) : Settles s (channelOutEvent ch cause s) :=
  of_onlySlots (OnlySlots.channelOutEvent ch cause s)
    (congrArg (List.map placeOf) (fullMap_congr ((congrArg MemSt.map (memory_raiseDev 7 _)).trans rfl)))

end Settles

/-- A channel of a stack that is mapped out, unless it is out already. -/
def outChannel (ch : Nat) (s : State) : State := if (memChanOf ch s).out then s else channelOutEvent ch 5 (markOut ch s)

theorem settles_outChannel (ch : Nat) (s : State) : Settles s (outChannel ch s) := by
  unfold outChannel
  split
  · exact Settles.refl s
  · exact (Settles.markOut ch s).trans (Settles.channelOutEvent ch 5 _)

theorem stk_outChannel (ch : Nat) (s : State) : (outChannel ch s).memory.stk = s.memory.stk := by
  unfold outChannel
  split
  · rfl
  · exact (OnlySlots.channelOutEvent ch 5 _).stk

theorem stk_foldl_outChannel {α : Type} (g : α → Nat) (xs : List α) (s : State) :
    (xs.foldl (fun s k => outChannel (g k) s) s).memory.stk = s.memory.stk := by
  induction xs generalizing s with
  | nil => rfl
  | cons x xs ih => exact (ih _).trans (stk_outChannel _ s)

/-- The phase of a stack's training with which a phase on channels begins. -/
def beginPhase (base : Nat) (left : Bool) (k : StackSt) : StackSt := { k with retraining := base + if left then 2 else 1 }

theorem startPark_eq (m base : Nat) (cs : List Nat) (s : State) : startPark m base cs s =
    startMoves (queueMoves 2 (cs.flatMap fun c => slotsAt c s) (modStack m (beginPhase base (cs.flatMap fun c => slotsAt c s).isEmpty) s)) := rfl

theorem stk_startPark (m base : Nat) (cs : List Nat) (s : State) : (startPark m base cs s).memory.stk =
    (modStack m (beginPhase base (cs.flatMap fun c => slotsAt c s).isEmpty) s).memory.stk := by
  rw [startPark_eq]
  exact (onlySlots_startMoves _).stk.trans (onlySlots_queueMoves _ _ _).stk

theorem settles_startPark {m : Nat} (hm : m < 24) (base : Nat) (cs : List Nat) (s : State) : Settles s (startPark m base cs s) := by
  rw [startPark_eq]
  exact ((Settles.modStack hm (by intro _; rfl) (by intro _ h; exact h) s).trans (Settles.queueMoves _ _ _)).trans (Settles.startMoves _)

theorem settles_nextRetrain {m : Nat} (hm : m < 24) (r : Nat) (s : State) : Settles s (nextRetrain m r s) := by
  unfold nextRetrain
  split
  · exact Settles.modStack hm (by intro _; rfl) (by intro _ _; rfl) s
  · exact settles_startPark hm _ _ s

theorem settles_settleRetrain {m : Nat} (hm : m < 24) (s : State) : Settles s (settleRetrain m s) := by
  unfold settleRetrain
  extract_lets r cs left
  split
  · exact Settles.modStack hm (by intro _; rfl) (by intro _ h; exact h) s
  · split
    · exact settles_nextRetrain hm r s
    · exact Settles.refl s

theorem settles_settleDrain {m : Nat} (hm : m < 24) (s : State) : Settles s (settleDrain m s) := by
  unfold settleDrain
  split
  · have hall (u : State) := Settles.foldl (f := fun s k => outChannel (16 * m + k) s) (xs := List.range 16)
      (fun t k _ => settles_outChannel (16 * m + k) t) u
    exact (Settles.modStack hm (by intro _; rfl) (by intro _ h; exact h) s).trans (hall _)
  · exact Settles.refl s

theorem settles_settleStacks (s : State) : Settles s (settleStacks s) :=
  (Settles.startMoves s).trans (Settles.foldl (fun u m hm =>
    have hm : m < 24 := List.mem_range.1 hm
    (settles_settleRetrain hm u).trans (settles_settleDrain hm _)) _)

/-! ### The levels of settling stacks -/

theorem level_modStack {m : Nat} (hm : m < 24) {f : StackSt → StackSt} (hf : ∀ k, (f k).level = k.level) (j : Nat) (s : State) :
    (stackAt j (modStack m f s)).level = (stackAt j s).level := by
  rw [stackAt_modStack m j f s hm]
  split
  · next h => rw [h, hf]
  · rfl

theorem level_nextRetrain {m : Nat} (hm : m < 24) (r j : Nat) (s : State) :
    (stackAt j (nextRetrain m r s)).level = (stackAt j s).level := by
  unfold nextRetrain
  split
  · exact level_modStack hm (by intro _; rfl) j s
  · rw [stackAt_congr (stk_startPark m _ _ s)]
    exact level_modStack hm (by intro _; rfl) j s

theorem level_settleRetrain {m : Nat} (hm : m < 24) (j : Nat) (s : State) :
    (stackAt j (settleRetrain m s)).level = (stackAt j s).level := by
  unfold settleRetrain
  extract_lets r cs left
  split
  · exact level_modStack hm (by intro _; rfl) j s
  · split
    · exact level_nextRetrain hm r j s
    · rfl

/-- The level of a stack that drains until its last slot has left. -/
def drainedLevel (m : Nat) (s : State) : Nat :=
  if (stackAt m s).level = 4 ∧ slotsOf m s = [] then 5 else (stackAt m s).level

theorem level_settleDrain {m : Nat} (hm : m < 24) (j : Nat) (s : State) :
    (stackAt j (settleDrain m s)).level = if j = m then drainedLevel m s else (stackAt j s).level := by
  have hout (u : State) := stk_foldl_outChannel (fun k : Nat => 16 * m + k) (List.range 16) u
  by_cases h : (stackAt m s).level = 4 ∧ slotsOf m s = []
  · have hdrain : settleDrain m s = (List.range 16).foldl (fun s k => outChannel (16 * m + k) s) (modStack m (fun k => { k with level := 5 }) s) := by
      have hc : ((stackAt m s).level == 4 && (slotsOf m s).isEmpty) = true := by simp [h]
      exact if_pos hc
    rw [hdrain, stackAt_congr (hout _), stackAt_modStack m j _ s hm, drainedLevel, if_pos h]
    split <;> rfl
  · have hdrain : settleDrain m s = s := by
      have hc : ¬ ((stackAt m s).level == 4 && (slotsOf m s).isEmpty) = true := by simpa using h
      exact if_neg hc
    rw [hdrain, drainedLevel, if_neg h]
    split
    · next hj => rw [hj]
    · rfl

theorem level_settleStacks {m : Nat} (hm : m < 24) (s : State) : (stackAt m (settleStacks s)).level = drainedLevel m s := by
  have hstep (ms : List Nat) (hms : ∀ i ∈ ms, i < 24) (u : State) :
      (stackAt m (ms.foldl (fun s m => settleDrain m (settleRetrain m s)) u)).level =
        if m ∈ ms then drainedLevel m u else (stackAt m u).level := by
    induction ms generalizing u with
    | nil => rfl
    | cons i ms ih =>
      have hi := hms i (List.mem_cons_self ..)
      have hslots : slotsOf m (settleDrain i (settleRetrain i u)) = slotsOf m u :=
        slotsOf_congr (slotChannels_of_places ((settles_settleRetrain hi u).trans (settles_settleDrain hi _)).places) m
      have hslots' : slotsOf i (settleRetrain i u) = slotsOf i u :=
        slotsOf_congr (slotChannels_of_places (settles_settleRetrain hi u).places) i
      have hlevel := level_settleDrain hi m (settleRetrain i u)
      simp only [drainedLevel, level_settleRetrain hi, hslots'] at hlevel
      rw [List.foldl_cons, ih (fun k hk => hms k (List.mem_cons_of_mem _ hk))]
      simp only [drainedLevel, hslots, hlevel, List.mem_cons]
      by_cases hmi : m = i
      · subst hmi
        by_cases hc : (stackAt m u).level = 4 ∧ slotsOf m u = []
        · simp [hc]
        · simp [hc]
      · simp [hmi]
  rw [settleStacks, hstep _ (fun i hi => List.mem_range.1 hi), if_pos (List.mem_range.2 hm)]
  simp only [drainedLevel, stackAt_congr (onlySlots_startMoves s).stk, slotsOf_congr (slotChannels_of_places (slotPlaces_startMoves s)) m]

/-! ## Channels and slots (R261 to R264) -/

theorem completes_channelMapOut {ch : Fin 384} {cause : Fin 8} {s : State} (hin : (memChanOf ch s).out = false)
    (hcause : causeHolds ch cause s = true) : Completes (.channelMapOut ch cause) s fun t =>
      (memChanOf ch t).out = true ∧ ch.val ∈ t.flash.channelOut ∧ t.devFlags.getLsbD 7 = true ∧
      (∃ e ∈ t.card.events, e.code = 0x31) ∧ t.memory.fast = s.memory.fast ∧ ∀ d : Nat, d ≠ ch.val → memChanOf d t = memChanOf d s := by
  have hexec : execChannelMapOut ch cause s = .next (startMoves (leaveChannel ch 0 (channelOutEvent ch cause (markOut ch s)))) := by
    simp only [execChannelMapOut, hin, hcause, Bool.not_false, Bool.true_and, if_true]
  have hmark := OnlySlots.channelOutEvent ch cause (markOut ch s)
  have hflag : (channelOutEvent ch cause (markOut ch s)).devFlags.getLsbD 7 = true := devFlag_of_raised (by decide) (devRaised_raiseDev 7 _)
  have hevent : (channelOutEvent ch cause (markOut ch s)).card = (raiseEvent 0x31 [ch, cause, installedGib (markOut ch s), 0] (markOut ch s)).card :=
    card_raiseDev _ _
  have hchan (d : Nat) : memChanOf d (markOut ch s) = if d = ch.val then { memChanOf ch s with out := true } else memChanOf d s :=
    memChanOf_modMemChan ch d (fun c => { c with out := true }) s
  have hmem : ch.val ∈ (markOut ch s).flash.channelOut := by simp [markOut, modFlash]
  have hfast : (markOut ch s).memory.fast = s.memory.fast := rfl
  have hleave := (onlySlots_leaveChannel ch 0 (channelOutEvent ch cause (markOut ch s))).trans (onlySlots_startMoves _)
  have hall := hmark.trans hleave
  refine ⟨_, hexec, ?_⟩
  obtain ⟨es, hes⟩ := hleave.events
  refine ⟨?_, by rw [hall.channelOut]; exact hmem, hleave.raised 7 hflag, ?_, hall.fast.trans hfast, fun d hd => ?_⟩
  · rw [hall.memChanOf, hchan, if_pos rfl]
  · rw [hes, hevent]
    exact ⟨_, List.mem_append_left _ (List.mem_append_right _ (List.mem_singleton_self _)), rfl⟩
  · rw [hall.memChanOf, hchan, if_neg hd]

/-- The entry of a slot that has moved, for good or until it goes home. -/
def movedEntry (parks : Bool) (e : MapEntry) : MapEntry :=
  { channel := e.targetChannel, position := e.targetPosition, mark := 0, targetChannel := 0, targetPosition := 0
    state := if parks then 2 else 0
    homeChannel := if parks then e.homeChannel else e.targetChannel
    homePosition := if parks then e.homePosition else e.targetPosition }

/-- A state in which a slot waits for a move no more and its old place for every copy of the map. -/
def leftPlace (slot : Nat) (e : MapEntry) (s : State) : State :=
  modMemory (fun m => { m with moving := m.moving.filter (fun y => y.1 != slot), acks := m.acks ++ [(slot, e.channel, e.position)] }) s

theorem fullMap_of_moving {slot : Nat} {s : State} (h : (mapEntry slot s).state = 1) : (fullMap s)[slot]? = some (mapEntry slot s) := by
  rw [mapEntry_eq] at h ⊢
  cases he : (fullMap s)[slot]? with
  | some e => rfl
  | none =>
    rw [he] at h
    exact absurd h (by simp [canonicalEntry])

theorem mapEntry_setMap {slot : Nat} {e : MapEntry} (f : MapEntry → MapEntry) {s : State} (he : (fullMap s)[slot]? = some e) :
    mapEntry slot (setMap slot f s) = f e := by
  obtain ⟨hlt, -⟩ := List.getElem?_eq_some_iff.1 he
  rw [mapEntry_eq, fullMap_setMap f he, List.getElem?_set_self hlt, Option.getD_some]

theorem completes_slotMoveDone {slot : Fin 4096} {s : State} {x : Nat × Nat} (hx : s.memory.moving.find? (fun x => x.1 == slot.val) = some x)
    (hstate : (mapEntry slot s).state = 1) : Completes (.slotMoveDone slot) s fun t => t.memory.fast = s.memory.fast ∧
      (mapEntry slot t).channel = (mapEntry slot s).targetChannel ∧ (mapEntry slot t).position = (mapEntry slot s).targetPosition ∧
      (slot.val, (mapEntry slot s).channel, (mapEntry slot s).position) ∈ t.memory.acks ∧
      (mapEntry slot t).homeChannel = if x.2 = 2 ∨ x.2 = 3 then (mapEntry slot s).homeChannel else (mapEntry slot s).targetChannel := by
  have hexec : execSlotMoveDone slot s = .next
      (settleStacks (setMap slot (movedEntry (x.2 == 2 || x.2 == 3)) (leftPlace slot (mapEntry slot s) s))) := by
    simp only [execSlotMoveDone, hx, hstate]
    rfl
  have hentry := mapEntry_setMap (movedEntry (x.2 == 2 || x.2 == 3)) (s := leftPlace slot (mapEntry slot s) s) (fullMap_of_moving hstate)
  have hleft : mapEntry slot (leftPlace slot (mapEntry slot s) s) = mapEntry slot s := rfl
  rw [hleft] at hentry
  have hslots := OnlySlots.setMap slot (movedEntry (x.2 == 2 || x.2 == 3)) (leftPlace slot (mapEntry slot s) s)
  have hsettle := settles_settleStacks (setMap slot (movedEntry (x.2 == 2 || x.2 == 3)) (leftPlace slot (mapEntry slot s) s))
  have hplace := mapEntry_congr (p := placeOf) hsettle.places slot.val
  rw [hentry] at hplace
  simp only [placeOf, movedEntry, Prod.mk.injEq] at hplace
  obtain ⟨hchannel, hposition, hhome, -⟩ := hplace
  refine ⟨_, hexec, hsettle.fast.trans (hslots.fast.trans rfl), hchannel, hposition, ?_, ?_⟩
  · rw [hsettle.acks, hslots.acks]
    exact List.mem_append_right _ (List.mem_singleton_self _)
  · rw [hhome]
    simp only [Bool.or_eq_true, beq_iff_eq]

theorem completes_mapChangeAcked (slot : Fin 4096) (s : State) : Completes (.mapChangeAcked slot) s fun t =>
    { t with memory := { t.memory with acks := s.memory.acks } } = s ∧
      ∀ a : Nat × Nat × Nat, a ∈ t.memory.acks ↔ a ∈ s.memory.acks ∧ a.1 ≠ slot.val := by
  refine ⟨_, rfl, rfl, fun a => ?_⟩
  simp only [modMemory, List.mem_filter, bne_iff_ne]

/-! ## Retraining and parking (R265, R437, R455) -/

theorem flatMap_slotsAt_retrainChans_whole (m : Nat) (s : State) : ((retrainChans m 0).flatMap fun c => slotsAt c s) = slotsOf m s := by
  rw [retrainChans, if_pos (by decide), List.flatMap_map, slotsOf]

theorem flatMap_slotsAt_retrainChans_first (m : Nat) (s : State) : ((retrainChans m 16).flatMap fun c => slotsAt c s) = slotsAt (16 * m) s := by
  simp [retrainChans]

/-- The slots that a stack's retraining has to move first. -/
def firstToLeave (m : Nat) (s : State) : List Nat := if (slotsOf m s).length ≤ sparesFor m s then slotsOf m s else slotsAt (16 * m) s

/-- A stack's retraining has begun, whole where spares allow and else with its first channel. -/
def RetrainBegun (m : Nat) (s t : State) : Prop :=
  t.memory.fast = s.memory.fast ∧
    (stackAt m t).retraining = (if (slotsOf m s).length ≤ sparesFor m s then 0 else 16) + (if firstToLeave m s = [] then 2 else 1) ∧
    ∀ j : Nat, j ≠ m → stackAt j t = stackAt j s

theorem retrainBegun_startRetrain {m : Nat} (hm : m < 24) (s : State) : RetrainBegun m s (startRetrain m s) := by
  have hpark (base : Nat) (cs : List Nat) (j : Nat) := (stackAt_congr (stk_startPark m base cs s) j).trans (stackAt_modStack m j _ s hm)
  unfold startRetrain RetrainBegun firstToLeave
  split
  · refine ⟨(settles_startPark hm _ _ s).fast, ?_, fun j hj => (hpark _ _ j).trans (if_neg hj)⟩
    rw [hpark, if_pos rfl, beginPhase, flatMap_slotsAt_retrainChans_whole]
    simp only [List.isEmpty_iff]
  · refine ⟨(settles_startPark hm _ _ s).fast, ?_, fun j hj => (hpark _ _ j).trans (if_neg hj)⟩
    rw [hpark, if_pos rfl, beginPhase, flatMap_slotsAt_retrainChans_first]
    simp only [List.isEmpty_iff]

theorem completes_stackRetrainPark {m : Fin 24} {s : State} {t0 : Word} (hlevel : (stackAt m s).level < 4) (hany : anyRetrain s = false)
    (hdrift : (stackAt m s).driftSince = some t0) (hlong : 10000000000 ≤ nsSince t0 (now s)) :
    Completes (.stackRetrainPark m) s (RetrainBegun m s) := by
  have hexec : execStackRetrainPark m s = .next (startRetrain m s) := by
    unfold stackAt at hlevel hdrift
    simp only [execStackRetrainPark, hdrift, hlong, hlevel, hany, decide_true, Bool.not_false, Bool.and_self, if_true]
  exact ⟨_, hexec, retrainBegun_startRetrain m.isLt s⟩

theorem completes_memCtrlRetrain {m : Fin 24} {s : State} {p : Port} (hlevel : (stackAt m s).level < 4) (hany : anyRetrain s = false)
    (hp : RegistersAnswer p s) (hmoving : s.memory.moving = []) :
    Completes (.memCtrlRetrain p (m.castLE (by decide))) s (RetrainBegun m s) := by
  have hmem : (endLatch p s).memory = s.memory := memory_endLatch p s
  have hexec : execMemCtrlRetrain p (m.castLE (by decide)) s = .next (startRetrain m (endLatch p s)) := by
    have hok : (decide ((m.castLE (by decide : 24 ≤ 32)).val < 24) && !anyRetrain (endLatch p s) && (endLatch p s).memory.moving.isEmpty &&
        decide ((stackAt m (endLatch p s)).level < 4)) = true := by
      have hany' : anyRetrain (endLatch p s) = false := by rw [anyRetrain, hmem]; exact hany
      have hlevel' : (stackAt m (endLatch p s)).level < 4 := by rw [stackAt_congr (congrArg MemSt.stk hmem)]; exact hlevel
      simp [hany', hlevel', hmoving]
    rw [execMemCtrlRetrain, regAccess_answers hp]
    exact congrArg Host.Outcome.next (if_pos hok)
  have hbegun := retrainBegun_startRetrain m.isLt (endLatch p s)
  have hfull : fullMap (endLatch p s) = fullMap s := fullMap_congr (congrArg MemSt.map hmem)
  have hchans : slotChannels (endLatch p s) = slotChannels s := congrArg (List.map fun e : MapEntry => e.channel) hfull
  have hslots : slotsOf m (endLatch p s) = slotsOf m s := slotsOf_congr hchans m
  have hspares : sparesFor m (endLatch p s) = sparesFor m s := by
    simp only [sparesFor, takers, channelServes, placesAt, memChanOf, hfull, hmem]
  have hfirst : firstToLeave m (endLatch p s) = firstToLeave m s := by
    rw [firstToLeave, firstToLeave, hslots, hspares, slotsAt_congr hchans]
  obtain ⟨hfast, hphase, hother⟩ := hbegun
  rw [hslots, hspares, hfirst] at hphase
  exact ⟨_, hexec, hfast.trans (congrArg MemSt.fast hmem), hphase, fun j hj =>
    (hother j hj).trans (stackAt_congr (congrArg MemSt.stk hmem) j)⟩

/-- A channel whose training is renewed at a temperature. -/
def renewChannel (temp : Nat) (s : State) (c : Nat) : State :=
  modMemChan c (fun x => { x with trainFails := 0 }) (modFlash (fun f => { f with trainTemp := tset f.trainTemp c temp }) s)

theorem foldl_renewChannel_cases (temp : Nat) (cs : List Nat) (s : State) :
    (cs.foldl (renewChannel temp) s).memory.fast = s.memory.fast ∧ (cs.foldl (renewChannel temp) s).memory.stk = s.memory.stk ∧
    ∀ c : Nat, (c ∈ cs ∨ (tget? s.flash.trainTemp c = some temp ∧ (memChanOf c s).trainFails = 0)) →
      tget? (cs.foldl (renewChannel temp) s).flash.trainTemp c = some temp ∧ (memChanOf c (cs.foldl (renewChannel temp) s)).trainFails = 0 := by
  induction cs generalizing s with
  | nil => exact ⟨rfl, rfl, fun c hc => hc.resolve_left (List.not_mem_nil)⟩
  | cons d cs ih =>
    obtain ⟨hfast, hstk, hc⟩ := ih (renewChannel temp s d)
    refine ⟨hfast, hstk, fun c hin => hc c ?_⟩
    have htemp : tget? (renewChannel temp s d).flash.trainTemp c = if c = d then some temp else tget? s.flash.trainTemp c := by
      by_cases hcd : c = d
      · rw [if_pos hcd, hcd]
        exact tget?_tset_same _ _ _
      · rw [if_neg hcd]
        exact tget?_tset_other _ _ _ _ hcd
    have hfails : memChanOf c (renewChannel temp s d) = if c = d then { memChanOf d s with trainFails := 0 } else memChanOf c s :=
      memChanOf_modMemChan d c _ (modFlash _ s)
    rw [htemp, hfails]
    by_cases hcd : c = d
    · exact .inr ⟨if_pos hcd, by rw [if_pos hcd]⟩
    · rw [if_neg hcd, if_neg hcd]
      exact hin.imp_left fun h => (List.mem_cons.1 h).resolve_left hcd

/-- A stack whose trained slots go home. -/
def trainedStack (k : StackSt) : StackSt := { k with retraining := k.retraining + 1, driftSince := none }

theorem completes_stackRetrainDone {m : Fin 24} {s : State} (hphase : (stackAt m s).retraining % 4 = 2) :
    Completes (.stackRetrainDone m) s fun t => t.memory.fast = s.memory.fast ∧ (stackAt m t).driftSince = none ∧
      ∀ c ∈ retrainChans m (stackAt m s).retraining,
        tget? t.flash.trainTemp c = some (stackAt m s).temp.toNat ∧ (memChanOf c t).trainFails = 0 := by
  obtain ⟨hfast, hstk, htrained⟩ := foldl_renewChannel_cases (stackAt m s).temp.toNat (retrainChans m (stackAt m s).retraining) s
  have hexec : ∃ back : List Nat, execStackRetrainDone m s = .next (settleStacks (queueMoves 4 back (modStack m trainedStack
      ((retrainChans m (stackAt m s).retraining).foldl (renewChannel (stackAt m s).temp.toNat) s)))) := by
    have hne : ¬ ((stackAt m s).retraining % 4 != 2) = true := by simp [hphase]
    exact ⟨_, congrArg Host.Outcome.next (if_neg hne)⟩
  obtain ⟨back, hexec⟩ := hexec
  generalize (retrainChans m (stackAt m s).retraining).foldl (renewChannel (stackAt m s).temp.toNat) s = v at *
  have hsettle := (Settles.queueMoves 4 back (modStack m trainedStack v)).trans (settles_settleStacks _)
  refine ⟨_, hexec, hsettle.fast.trans hfast, ?_, fun c hc => ?_⟩
  · rw [hsettle.driftSince, stackAt_modStack m m trainedStack v m.isLt, if_pos rfl]
    rfl
  · obtain ⟨htemp, hfails⟩ := htrained c (.inl hc)
    exact ⟨(congrArg (tget? · c) hsettle.trainTemp).trans htemp, (hsettle.trainFails c).trans hfails⟩

/-- A slot that stays where it is, its move called off. -/
def stayPut (s : State) (x : Nat × Nat) : State :=
  setMap x.1 settledEntry (modMemory (fun y => { y with moving := y.moving.filter fun z => z.1 != x.1 }) s)

theorem onlySlots_stayPut (s : State) (x : Nat × Nat) : OnlySlots s (stayPut s x) :=
  (OnlySlots.setMoving (fun m => m.filter fun z => z.1 != x.1) s).trans (OnlySlots.setMap _ _ _)

/-- The slots parked away from a stack that are to go home. -/
def goingHome (m : Nat) (s : State) : List Nat := (parkedOf m s).filter fun i => (mapEntry i s).state == 2

/-- The moves of slots that were to be parked away from a stack and now stay. -/
def stayingAt (m : Nat) (s : State) : List (Nat × Nat) :=
  s.memory.moving.filter fun x => x.2 == 3 && (mapEntry x.1 s).homeChannel / 16 == m

/-- A stack that returns from being parked by policy. -/
def returnedStack (k : StackSt) : StackSt := { k with parkedPolicy := false, parkedAt := none }

/-- The decision that a parked stack may return. -/
def returnDecision (m : Nat) (s : State) : DecisionRec :=
  { setting := 5, applied := policyAllows 5 0xFFFF s, group := 0xFFFF, dtime := now s, subject := m, old := 1, new := 0
    trigger := 0, measured := (stackAt m s).temp.toNat }

theorem execParkReturn_due {m : Fin 24} {s : State} {t0 : Word} (hat : (stackAt m s).parkedAt = some t0)
    (hpol : (stackAt m s).parkedPolicy = true) (hlong : 60000000000 ≤ nsSince t0 (now s)) (hphase : (stackAt m s).retraining = 0)
    (hlevel : (stackAt m s).level < 4) : execParkReturn m s =
      .next (if !policyAllows 5 0xFFFF s then addDecision (returnDecision m s) s
        else settleStacks (queueMoves 4 (goingHome m (addDecision (returnDecision m s) s)) (modStack m returnedStack
          ((stayingAt m (addDecision (returnDecision m s) s)).foldl stayPut (addDecision (returnDecision m s) s))))) := by
  have hdue : ((stackAt m s).parkedPolicy && decide (60000000000 ≤ nsSince t0 (now s)) && (stackAt m s).retraining == 0 &&
      decide ((stackAt m s).level < 4)) = true := by simp [hpol, hlong, hphase, hlevel]
  unfold stackAt at hat
  simp only [execParkReturn, hat]
  exact congrArg Host.Outcome.next (if_pos hdue)

theorem completes_parkReturn {m : Fin 24} {s : State} {t0 : Word} (hat : (stackAt m s).parkedAt = some t0)
    (hpol : (stackAt m s).parkedPolicy = true) (hlong : 60000000000 ≤ nsSince t0 (now s)) (hphase : (stackAt m s).retraining = 0)
    (hlevel : (stackAt m s).level < 4) : Completes (.parkReturn m) s fun t => t.memory.fast = s.memory.fast ∧
      (∃ d ∈ t.card.decisions, d.setting = 5 ∧ d.subject = m.val ∧ d.old = 1 ∧ d.new = 0 ∧ d.applied = policyAllows 5 0xFFFF s) ∧
      (policyAllows 5 0xFFFF s = true → (stackAt m t).parkedPolicy = false) ∧
      (policyAllows 5 0xFFFF s = false → { t with card := s.card } = s) := by
  have hexec := execParkReturn_due hat hpol hlong hphase hlevel
  generalize goingHome m (addDecision (returnDecision m s) s) = back at hexec
  generalize stayingAt m (addDecision (returnDecision m s) s) = staying at hexec
  have hlogged : returnDecision m s ∈ (addDecision (returnDecision m s) s).card.decisions :=
    List.mem_append_right _ (List.mem_singleton_self _)
  cases hok : policyAllows 5 0xFFFF s with
  | false =>
    rw [hok] at hexec
    exact ⟨_, hexec, rfl, ⟨_, hlogged, rfl, rfl, rfl, rfl, hok⟩, fun h => absurd h (by decide), fun _ => rfl⟩
  | true =>
    rw [hok, if_neg (by decide)] at hexec
    have hslots := OnlySlots.foldl onlySlots_stayPut staying (addDecision (returnDecision m s) s)
    refine ⟨_, hexec, ?_⟩
    generalize staying.foldl stayPut (addDecision (returnDecision m s) s) = v at *
    have hsettle := (Settles.queueMoves 4 back (modStack m returnedStack v)).trans (settles_settleStacks _)
    have hfast : v.memory.fast = s.memory.fast := hslots.fast
    refine ⟨hsettle.fast.trans hfast, ⟨returnDecision m s, ?_, rfl, rfl, rfl, rfl, hok⟩, fun _ => hsettle.parked m ?_,
      fun h => absurd h (by decide)⟩
    · rw [hsettle.decisions]
      exact hslots.decisions ▸ hlogged
    · have hstack := stackAt_modStack m m returnedStack v m.isLt
      rw [if_pos rfl] at hstack
      exact congrArg StackSt.parkedPolicy hstack

/-! ## Uncorrectable data (R258 to R260) -/

/-- A stack with an uncorrectable burst counted. -/
def burstStack (k : StackSt) : StackSt := { k with uncorrectable := k.uncorrectable + 1 }

/-- A state in which a block's consumers wait until it is rebuilt. -/
def awaitRebuild (b : Nat) (s : State) : State :=
  modMemory (fun m => { m with pendingErr := if m.pendingErr.contains b then m.pendingErr else m.pendingErr ++ [b] }) s

theorem mem_awaitRebuild (b : Nat) (s : State) : b ∈ (awaitRebuild b s).memory.pendingErr := by
  simp only [awaitRebuild, modMemory]
  split
  · next h => simpa using h
  · exact List.mem_append_right _ (List.mem_singleton_self _)

theorem completes_memUncorrectable {fastAddr : Nat} {s : State} (hin : fastAddr < frameCapacity s.flash.variant * pageBytes)
    (hlo : 3 ≤ s.mod.stage.toNat) (hhi : s.mod.stage.toNat ≤ 7) (hch : channelOfFast fastAddr s < 384) :
    Completes (.memUncorrectable fastAddr) s fun t => fastAddr / 64 * 64 ∈ t.memory.pendingErr ∧ t.memory.fast = s.memory.fast ∧
      t.devFlags.getLsbD 6 = true ∧ (∃ e ∈ t.card.events, e.code = 0x30) ∧
      (stackAt (channelOfFast fastAddr s / 16) t).uncorrectable = (stackAt (channelOfFast fastAddr s / 16) s).uncorrectable + 1 := by
  have hexec : ∃ (f : ChanMem → ChanMem) (args : List Nat), execMemUncorrectable fastAddr s = .next (raiseDev 6 (raiseEvent 0x30 args
      (awaitRebuild (fastAddr / 64 * 64) (modStack (channelOfFast fastAddr s / 16) burstStack (modMemChan (channelOfFast fastAddr s) f s))))) := by
    let f (c : ChanMem) : ChanMem := { c with uncorrectable := within dayNs c.uncorrectable s ++ [now s] }
    let v := awaitRebuild (fastAddr / 64 * 64) (modStack (channelOfFast fastAddr s / 16) burstStack (modMemChan (channelOfFast fastAddr s) f s))
    refine ⟨f, [channelOfFast fastAddr s, channelAddress fastAddr v, fastAddr], ?_⟩
    rw [execMemUncorrectable, if_pos (by simp [hin, hlo, hhi])]
    rfl
  obtain ⟨f, args, hexec⟩ := hexec
  have hstack := stackAt_modStack (channelOfFast fastAddr s / 16) (channelOfFast fastAddr s / 16) burstStack
    (modMemChan (channelOfFast fastAddr s) f s) (by omega)
  have hwait := mem_awaitRebuild (fastAddr / 64 * 64) (modStack (channelOfFast fastAddr s / 16) burstStack (modMemChan (channelOfFast fastAddr s) f s))
  refine ⟨_, hexec, ?_, ?_, devFlag_of_raised (by decide) (devRaised_raiseDev 6 _), ?_, ?_⟩
  · rw [memory_raiseDev]
    exact hwait
  · rw [memory_raiseDev]
    rfl
  · rw [card_raiseDev]
    exact ⟨_, List.mem_append_right _ (List.mem_singleton_self _), rfl⟩
  · rw [if_pos rfl] at hstack
    rw [stackAt_congr (congrArg MemSt.stk (memory_raiseDev 6 _))]
    exact congrArg StackSt.uncorrectable hstack

/-- A channel one of whose repair lines takes a spare. -/
def repairedChan (line : Nat) (t : Word) (recent : Word → Bool) (c : ChanMem) : ChanMem :=
  { c with sparesUsed := c.sparesUsed + 1, corrections := (c.corrections.filter fun x => recent x.2) ++ [(line, t), (line, t)] }

/-- A stack with the two corrections of a repair line counted. -/
def correctedStack (k : StackSt) : StackSt := { k with laneCorrected := k.laneCorrected + 2 }

theorem completes_repairLineReplace {ch : Fin 384} {line : Nat} {s : State} (hin : (memChanOf ch s).out = false)
    (hspare : (memChanOf ch s).sparesUsed < spareLines s.flash.variant) (hline : line < channelGib s.flash.variant * 524288) :
    Completes (.repairLineReplace ch line) s fun t =>
      { t with memory := s.memory } = s ∧ t.memory.fast = s.memory.fast ∧ (memChanOf ch t).sparesUsed = (memChanOf ch s).sparesUsed + 1 ∧
      (∀ d : Nat, d ≠ ch.val → memChanOf d t = memChanOf d s) ∧
      (stackAt (ch / 16) t).laneCorrected = (stackAt (ch / 16) s).laneCorrected + 2 := by
  have hexec : execRepairLineReplace ch line s = .next (modStack (ch.val / 16) correctedStack
      (modMemChan ch (repairedChan line (now s) fun t => decide (nsSince t (now s) ≤ dayNs)) s)) := by
    rw [execRepairLineReplace, if_pos (by simp [hin, hspare, hline])]
    rfl
  have hchan (d : Nat) := memChanOf_modMemChan ch d (repairedChan line (now s) fun t => decide (nsSince t (now s) ≤ dayNs)) s
  have hstack := stackAt_modStack (ch.val / 16) (ch.val / 16) correctedStack
    (modMemChan ch (repairedChan line (now s) fun t => decide (nsSince t (now s) ≤ dayNs)) s) (by omega)
  rw [if_pos rfl] at hstack
  refine ⟨_, hexec, rfl, rfl, ?_, fun d hd => (hchan d).trans (if_neg hd), congrArg StackSt.laneCorrected hstack⟩
  exact (congrArg ChanMem.sparesUsed ((hchan ch.val).trans (if_pos rfl)))

/-! ## Rebuilding and losing data (R257, R259, R260, R267, R362) -/

theorem memory_spaceSet (sp a : Nat) (v : Byte) (s : State) : { (spaceSet sp a v s).memory with fast := [] } = { s.memory with fast := [] } := by
  unfold spaceSet
  split
  · rfl
  · split <;> rfl
  · split <;> rfl

theorem memory_vaWrite (slot va : Nat) (bs : List Byte) (s : State) :
    { (vaWrite slot va bs s).memory with fast := [] } = { s.memory with fast := [] } := by
  induction bs generalizing va s with
  | nil => rfl
  | cons b bs ih =>
    rw [vaWrite, ih]
    split
    · exact memory_spaceSet _ _ _ s
    · rfl

/-- From `s` to `t` stacks, memory-side dies and the blocks that wait stay, and a channel out of service stays out. -/
structure KeepsStacks (s t : State) : Prop where
  stk : t.memory.stk = s.memory.stk
  memSeq : t.memSeq = s.memSeq
  pendingErr : t.memory.pendingErr = s.memory.pendingErr
  out : ∀ c : Nat, (memChanOf c s).out = true → (memChanOf c t).out = true

namespace KeepsStacks

theorem refl (s : State) : KeepsStacks s s := ⟨rfl, rfl, rfl, fun _ h => h⟩

theorem trans {s t u : State} (h : KeepsStacks s t) (k : KeepsStacks t u) : KeepsStacks s u :=
  ⟨k.stk.trans h.stk, k.memSeq.trans h.memSeq, k.pendingErr.trans h.pendingErr, fun c hc => k.out c (h.out c hc)⟩

theorem foldl {α : Type} {f : State → α → State} (h : ∀ s x, KeepsStacks s (f s x)) (xs : List α) (s : State) : KeepsStacks s (xs.foldl f s) := by
  induction xs generalizing s with
  | nil => exact refl s
  | cons x xs ih => exact (h s x).trans (ih _)

theorem of_memory {s t : State} (hmem : { t.memory with fast := [] } = { s.memory with fast := [] }) (hseq : t.memSeq = s.memSeq) : KeepsStacks s t :=
  ⟨(congrArg MemSt.stk hmem :), hseq, (congrArg MemSt.pendingErr hmem :), fun c hc =>
    ((congrArg (fun m : MemSt => (tgetD m.chans c ({} : ChanMem)).out) hmem :) : (memChanOf c t).out = (memChanOf c s).out).trans hc⟩

theorem of_onlySlots {s t : State} (h : OnlySlots s t) : KeepsStacks s t :=
  ⟨h.stk, h.memSeq, h.pendingErr, fun c hc => (congrArg ChanMem.out (h.memChanOf c)).trans hc⟩

theorem of_besideRecords {s t : State} (h : besideRecords t = besideRecords s) : KeepsStacks s t :=
  of_memory (congrArg (fun u : State => { u.memory with fast := [] }) h :) (congrArg State.memSeq h :)

theorem of_besideRuns {s t : State} (h : besideRuns t = besideRuns s) : KeepsStacks s t :=
  of_memory (congrArg (fun u : State => { u.memory with fast := [] }) h :) (congrArg State.memSeq h :)

end KeepsStacks

theorem keepsStacks_poisonBlock (b : Nat) (s : State) : KeepsStacks s (poisonBlock b s) := by
  refine ⟨rfl, rfl, rfl, fun c hc => ?_⟩
  rw [poisonBlock, memChanOf_modMemChan]
  split
  · next h => exact h ▸ hc
  · exact hc

theorem keepsStacks_failSteps (gs : List Nat) (s : State) : KeepsStacks s (failSteps gs s) := .of_memory rfl rfl

theorem keepsStacks_spoilRecord (b : Binding) (i off : Nat) (s : State) : KeepsStacks s (spoilRecord b i off s) := by
  unfold spoilRecord
  extract_lets put n s₁
  have hs₁ : KeepsStacks s s₁ := by
    refine .of_besideRecords ?_
    exact besideRecords_ite (besideRecords_putStripe _ _ _ s) (besideRecords_putBlock _ _ _ s)
  exact hs₁.trans (.of_memory rfl rfl)

theorem keepsStacks_loseRecord (b : Binding) (i off : Nat) (s : State) : KeepsStacks s (loseRecord b i off s) := by
  have hevent := ((OnlySlots.raiseEvent 0x37 [b.num, i / 64] (spoilRecord b i off s)).trans (OnlySlots.raiseDev 13 _))
  exact ((keepsStacks_spoilRecord b i off s).trans (.of_onlySlots hevent)).trans (keepsStacks_failSteps [b.group] _)

theorem keepsStacks_rebuildBlock (b : Nat) (s : State) : KeepsStacks s (rebuildBlock b s) := by
  unfold rebuildBlock
  split
  · split
    · exact .refl s
    · exact (keepsStacks_poisonBlock b s).trans (keepsStacks_failSteps _ _)
  · split
    · split
      · exact .refl s
      · exact keepsStacks_loseRecord _ _ _ s
    · split
      · exact keepsStacks_poisonBlock b s
      · exact .refl s

theorem keepsStacks_rebuildLost (lost : List (Nat × Nat)) (s : State) : KeepsStacks s (rebuildLost lost s) := by
  unfold rebuildLost
  extract_lets s₁
  have hblocks (bs : List Nat) (u : State) : KeepsStacks u (bs.foldl (fun s b => rebuildBlock b s) u) :=
    .foldl (fun u b => keepsStacks_rebuildBlock b u) bs u
  have hgranules (fas : List Nat) (u : State) :
      KeepsStacks u (fas.foldl (fun s fa => (granuleBlocks fa).foldl (fun s b => rebuildBlock b s) s) u) :=
    .foldl (fun u fa => hblocks (granuleBlocks fa) u) fas u
  have hframes (fs : List Nat) (u : State) : KeepsStacks u (fs.foldl (fun s f => (lostGranules lost f).foldl (fun s fa =>
      (granuleBlocks fa).foldl (fun s b => rebuildBlock b s) s) s) u) :=
    .foldl (fun u f => hgranules (lostGranules lost f) u) fs u
  have hrecord (u : State) (x : Binding × Nat) : KeepsStacks u (loseRecord x.1 x.2 0 u) := keepsStacks_loseRecord x.1 x.2 0 u
  have hrecords (xs : List (Binding × Nat)) (u : State) : KeepsStacks u (xs.foldl (fun s x => loseRecord x.1 x.2 0 s) u) := .foldl hrecord xs u
  have hs₁ : KeepsStacks s s₁ := hframes s.memory.framesUsed s
  split
  · exact hs₁
  · exact hs₁.trans (hrecords (lostStripes lost s₁) s₁)

theorem keepsStacks_dropWork (c : Nat) (s : State) : KeepsStacks s (dropWork c s) := by
  have hstreams : KeepsStacks s (dropStreams c s) := by
    unfold dropStreams
    refine .foldl (fun u o => ?_) _ s
    split
    · exact .of_memory rfl rfl
    · exact .refl u
  unfold dropWork
  generalize dropStreams c s = v at *
  exact hstreams.trans (.of_memory rfl rfl)

theorem keepsStacks_haltCores (cs : List Nat) (s : State) : KeepsStacks s (cs.foldl (fun s c => modCore c haltStopped s) s) := by
  have hcore (u : State) (c : Nat) : KeepsStacks u (modCore c haltStopped u) := .of_memory rfl rfl
  exact .foldl hcore cs s

theorem keepsStacks_stopRun (r : Nat) (status : BitVec 8) (detail : BitVec 16) (result0 : Word) (s : State) :
    KeepsStacks s (stopRun r status detail result0 s) := by
  unfold stopRun
  split
  · exact .refl s
  · exact KeepsStacks.trans (t := modRun r _ s) (.of_memory rfl rfl) (keepsStacks_haltCores _ _)

theorem keepsStacks_spoilOutputs (u : Run) (s : State) : KeepsStacks s (spoilOutputs u s) := by
  have hstep (v : State) (r : Nat × Nat) : KeepsStacks v (drawFree r.2 (vaWrite u.slot r.1 (freeBytes r.2 v) v)) :=
    .of_memory (memory_vaWrite _ _ _ v) (congrArg State.memSeq (besideMemory_vaWrite u.slot r.1 (freeBytes r.2 v) v) :)
  exact .foldl hstep u.outs s

theorem keepsStacks_rerunRun (u : Run) (s : State) : KeepsStacks s (rerunRun u s) := by
  unfold rerunRun
  extract_lets s₁ v
  have hs₁ : KeepsStacks s s₁ := .foldl (fun w c => keepsStacks_dropWork c w) _ s
  refine hs₁.trans ?_
  split
  · exact keepsStacks_haltCores _ s₁
  · split
    · exact KeepsStacks.trans (t := modRun u.id (fun _ => v) s₁) (.of_memory rfl rfl) (.of_besideRuns (besideRuns_beginRun v _))
    · exact (keepsStacks_spoilOutputs u s₁).trans (keepsStacks_stopRun _ _ _ _ _)

theorem keepsStacks_sendMirror (s : State) : KeepsStacks s (sendMirror s) := .of_besideRecords (besideRecords_sendMirror s)

theorem runs_of_besideRecords {s t : State} (h : besideRecords t = besideRecords s) : t.runs = s.runs := (congrArg State.runs h :)

theorem runs_loseRecord (b : Binding) (i off : Nat) (s : State) : (loseRecord b i off s).runs = s.runs := by
  have hspoil : besideRecords (spoilRecord b i off s) = besideRecords { s with free := s.free + 64 } := by
    unfold spoilRecord
    extract_lets put n s₁
    have hs₁ : besideRecords s₁ = besideRecords s := besideRecords_ite (besideRecords_putStripe _ _ _ s) (besideRecords_putBlock _ _ _ s)
    exact congrArg (fun u : State => { u with free := u.free + 64 }) hs₁
  have hflag := runs_of_besideRecords (besideRecords_raiseDev 13 (raiseEvent 0x37 [b.num, i / 64] (spoilRecord b i off s)))
  have hspoiled : (spoilRecord b i off s).runs = s.runs := (runs_of_besideRecords hspoil :)
  exact hflag.trans hspoiled

theorem runs_rebuildBlock (b : Nat) (s : State) : (rebuildBlock b s).runs = s.runs := by
  unfold rebuildBlock
  split
  · split <;> rfl
  · split
    · split
      · rfl
      · exact runs_loseRecord _ _ _ s
    · split <;> rfl

/-- A state in which a block waits for its rebuild no more. -/
def rebuildDone (b : Nat) (s : State) : State := modMemory (fun m => { m with pendingErr := m.pendingErr.filter fun x => x != b }) s

theorem completes_dataRebuildDone {fastAddr b : Nat} {s : State} (hb : b = fastAddr / 64 * 64) (hpending : b ∈ s.memory.pendingErr)
    (hruns : ∀ u ∈ s.runs, u.begun = false) : Completes (.dataRebuildDone fastAddr) s fun t => b ∉ t.memory.pendingErr ∧
      ∀ slot va : Nat, mappedAt b s = some (slot, va) → pageRebuilt slot va s = false → b ∈ (memChanOf (channelOfFast b s) t).poison ∧
        t.memory.fast = s.memory.fast := by
  subst hb
  generalize hb : fastAddr / 64 * 64 = b at *
  have hruns' (v : State) (hv : v.runs = s.runs) : replayReaders b v = v := by
    have hhit : (v.runs.filter fun u => u.begun && u.cores.any fun c => coreReads c b v) = [] := by
      refine List.filter_eq_nil_iff.2 fun u hu => ?_
      simp [hruns u (hv ▸ hu)]
    rw [replayReaders, hhit]
    rfl
  have hsame : (rebuildBlock b (rebuildDone b s)).runs = s.runs := runs_rebuildBlock b (rebuildDone b s)
  have hexec : execDataRebuildDone fastAddr s = .next (sendMirror (rebuildBlock b (rebuildDone b s))) := by
    have hcont : s.memory.pendingErr.contains b = true := by simpa using hpending
    simp only [execDataRebuildDone, hb, hcont, if_true]
    exact congrArg (fun v => Host.Outcome.next (sendMirror v)) (hruns' _ hsame)
  have hmirror := besideRecords_sendMirror (rebuildBlock b (rebuildDone b s))
  have hmem : (sendMirror (rebuildBlock b (rebuildDone b s))).memory = (rebuildBlock b (rebuildDone b s)).memory :=
    (congrArg State.memory hmirror :)
  refine ⟨_, hexec, ?_, fun slot va hmap hpage => ?_⟩
  · rw [hmem, (keepsStacks_rebuildBlock b _).pendingErr]
    simp [rebuildDone, modMemory]
  · have hpoison : rebuildBlock b (rebuildDone b s) =
        failSteps (((rebuildDone b s).groups.filter fun g => groupChan g slot (rebuildDone b s)).map fun g => g.id)
          (poisonBlock b (rebuildDone b s)) := by
      have hmap' : mappedAt b (rebuildDone b s) = some (slot, va) := hmap
      have hpage' : ¬ pageRebuilt slot va (rebuildDone b s) = true := Bool.not_eq_true _ ▸ (hpage : pageRebuilt slot va (rebuildDone b s) = false)
      rw [rebuildBlock, hmap']
      exact if_neg hpage'
    have hchan := memChanOf_modMemChan (channelOfFast b s) (channelOfFast b s)
      (fun c => { c with poison := if c.poison.contains b then c.poison else c.poison ++ [b] }) (rebuildDone b s)
    rw [if_pos rfl] at hchan
    refine ⟨?_, ?_⟩
    · rw [memChanOf, hmem, hpoison]
      refine (congrArg (b ∈ ChanMem.poison ·) hchan).mpr ?_
      dsimp only
      split
      · next h => simpa using h
      · exact List.mem_append_right _ (List.mem_singleton_self _)
    · rw [hmem, hpoison]
      rfl

/-! ### A stack lost -/

theorem keepsStacks_outChannel (ch : Nat) (s : State) : KeepsStacks s (outChannel ch s) ∧ (memChanOf ch (outChannel ch s)).out = true := by
  unfold outChannel
  split
  · next h => exact ⟨.refl s, h⟩
  · have hchan (c : Nat) : memChanOf c (markOut ch s) = if c = ch then { memChanOf ch s with out := true } else memChanOf c s :=
      memChanOf_modMemChan ch c (fun c => { c with out := true }) s
    have hmark : KeepsStacks s (markOut ch s) := by
      refine ⟨rfl, rfl, rfl, fun c hc => ?_⟩
      rw [hchan]
      split
      · rfl
      · exact hc
    have hevent := OnlySlots.channelOutEvent ch 5 (markOut ch s)
    refine ⟨hmark.trans (.of_onlySlots hevent), ?_⟩
    rw [hevent.memChanOf, hchan, if_pos rfl]

theorem foldl_outChannel_cases (cs : List Nat) (s : State) : KeepsStacks s (cs.foldl (fun s c => outChannel c s) s) ∧
    ∀ c ∈ cs, (memChanOf c (cs.foldl (fun s c => outChannel c s) s)).out = true := by
  induction cs generalizing s with
  | nil => exact ⟨.refl s, fun c hc => absurd hc List.not_mem_nil⟩
  | cons d cs ih =>
    obtain ⟨hkeep, hout⟩ := ih (outChannel d s)
    obtain ⟨hd, hdout⟩ := keepsStacks_outChannel d s
    refine ⟨hd.trans hkeep, fun c hc => ?_⟩
    rcases List.mem_cons.1 hc with rfl | hc
    · exact hkeep.out c hdout
    · exact hout c hc

/-- A stack without power at a level. -/
def lostStack (level : Nat) (k : StackSt) : StackSt :=
  { k with level := level, powered := false, retraining := 0, driftSince := none, parkedPolicy := false, parkedAt := none }

/-- The channels of a stack. -/
def stackChans (m : Nat) : List Nat := (List.range 16).map fun k => 16 * m + k

/-- What becomes of a lost stack's slots, data, die and runs once its channels are out. -/
def afterLoss (m : Fin 24) (slots : List Nat) (lost : List (Nat × Nat)) (s : State) : State :=
  let s := slots.foldl (fun s i => placeLost i s) s
  let s := rebuildLost lost s
  let hit := s.runs.filter fun u => u.begun && u.stop.isNone && u.cores.any fun c => !(coreIdle (coreOf c s))
  startMoves (hit.foldl (fun s u => rerunRun u s) (modSeq (.mem m) (fun q => { q with running := false }) s))

theorem afterLoss_cases (m : Fin 24) (slots : List Nat) (lost : List (Nat × Nat)) (s : State) :
    (afterLoss m slots lost s).memory.stk = s.memory.stk ∧ (∀ c : Nat, (memChanOf c s).out = true → (memChanOf c (afterLoss m slots lost s)).out = true) ∧
      (seqOf (.mem m) (afterLoss m slots lost s)).running = false := by
  unfold afterLoss
  extract_lets s₁ s₂ hit
  have hplace : KeepsStacks s s₁ := .of_onlySlots (OnlySlots.foldl (fun u i => onlySlots_placeLost i u) slots s)
  have hrebuild : KeepsStacks s₁ s₂ := keepsStacks_rebuildLost lost s₁
  have hreruns (us : List Run) (v : State) : KeepsStacks v (us.foldl (fun s u => rerunRun u s) v) :=
    .foldl (fun v u => keepsStacks_rerunRun u v) us v
  have hrerun := (hreruns hit (modSeq (.mem m) (fun q => { q with running := false }) s₂)).trans (.of_onlySlots (onlySlots_startMoves _))
  have hall := hplace.trans hrebuild
  refine ⟨hrerun.stk.trans hall.stk, fun c hc => hrerun.out c (hall.out c hc), ?_⟩
  have hseq := seqOf_mem_congr hrerun.memSeq m
  refine (congrArg Seq.running hseq).trans ?_
  simp only [seqOf, modSeq, tgetD_tset_same]

theorem loseStack_eq (m : Fin 24) (level : Nat) (s : State) : ∃ lost : List (Nat × Nat), loseStack m level s = afterLoss m (slotsOf m s) lost
    ((stackChans m).foldl (fun s c => outChannel c s) (modStack m (lostStack level)
      ((stackChans m).foldl (fun s c => cancelTo c (keepParked c s)) s))) := ⟨_, rfl⟩

theorem loseStack_cases (m : Fin 24) (level : Nat) (s : State) :
    stackAt m (loseStack m level s) = lostStack level (stackAt m s) ∧ (seqOf (.mem m) (loseStack m level s)).running = false ∧
      ∀ k : Nat, k < 16 → (memChanOf (16 * m + k) (loseStack m level s)).out = true := by
  obtain ⟨lost, heq⟩ := loseStack_eq m level s
  have hcancels (cs : List Nat) (u : State) : OnlySlots u (cs.foldl (fun s c => cancelTo c (keepParked c s)) u) :=
    .foldl (fun u c => (onlySlots_keepParked c u).trans (onlySlots_cancelTo c _)) cs u
  have hcancel := hcancels (stackChans m) s
  generalize (stackChans m).foldl (fun s c => cancelTo c (keepParked c s)) s = v at *
  obtain ⟨houts, hout⟩ := foldl_outChannel_cases (stackChans m) (modStack m (lostStack level) v)
  generalize (stackChans m).foldl (fun s c => outChannel c s) (modStack m (lostStack level) v) = w at *
  obtain ⟨hstk, hkept, hrunning⟩ := afterLoss_cases m (slotsOf m s) lost w
  rw [heq]
  refine ⟨?_, hrunning, fun k hk => hkept _ (hout _ (List.mem_map.2 ⟨k, List.mem_range.2 hk, rfl⟩))⟩
  rw [stackAt_congr (hstk.trans houts.stk), stackAt_modStack m m (lostStack level) v m.isLt, if_pos rfl, stackAt_congr hcancel.stk]

theorem completes_memorySideDieLost {m : Fin 24} {s : State} (hpow : (stackAt m s).powered = true) :
    Completes (.memorySideDieLost m) s fun t => (stackAt m t).powered = false ∧ (stackAt m t).level = 5 ∧ (seqOf (.mem m) t).running = false ∧
      ∀ k : Nat, k < 16 → (memChanOf (16 * m + k) t).out = true := by
  have hexec : execMemorySideDieLost m s = .next (sendMirror (loseStack m 5 s)) := congrArg Host.Outcome.next (if_pos hpow)
  obtain ⟨hstack, hrunning, hout⟩ := loseStack_cases m 5 s
  have hmirror := keepsStacks_sendMirror (loseStack m 5 s)
  generalize loseStack m 5 s = v at *
  have hlost := (stackAt_congr hmirror.stk m).trans hstack
  exact ⟨_, hexec, congrArg StackSt.powered hlost, congrArg StackSt.level hlost, (congrArg Seq.running (seqOf_mem_congr hmirror.memSeq m)).trans hrunning,
    fun k hk => hmirror.out _ (hout k hk)⟩

/-! ## Temperature (R267, R437) -/

theorem onlySlots_raiseLevels (m t a b : Nat) (s : State) : OnlySlots s (raiseLevels m t a b s) :=
  OnlySlots.foldl (fun u _ => (OnlySlots.raiseEvent _ _ u).trans (OnlySlots.raiseDev _ _)) _ s

theorem slotChannels_raiseLevels (m t a b : Nat) (s : State) : slotChannels (raiseLevels m t a b s) = slotChannels s := by
  have hmap (ls : List Nat) (u : State) : (ls.foldl (fun s l =>
      raiseDev (levelEvent l).1 (raiseEvent (levelEvent l).2.1 [m, t, (levelEvent l).2.2] s)) u).memory = u.memory := by
    induction ls generalizing u with
    | nil => rfl
    | cons l ls ih => exact (ih _).trans (memory_raiseDev _ _)
  exact congrArg (List.map fun e : MapEntry => e.channel) (fullMap_congr (congrArg MemSt.map (hmap _ s)))

theorem noteTemp_cases {m : Nat} (hm : m < 24) (t : Nat) (s : State) : (noteTemp m t s).memory.fast = s.memory.fast ∧
    slotChannels (noteTemp m t s) = slotChannels s ∧ (stackAt m (noteTemp m t s)).temp = BitVec.ofNat 8 t ∧
    (stackAt m (noteTemp m t s)).powered = (stackAt m s).powered ∧ (stackAt m (noteTemp m t s)).level = (stackAt m s).level := by
  unfold noteTemp
  extract_lets drift
  refine ⟨rfl, rfl, ?_, ?_, ?_⟩ <;> rw [stackAt_modStack m m _ s hm, if_pos rfl]

/-- A stack's state without what parking by policy may change. -/
def besideParking (k : StackSt) : StackSt := { k with parkedPolicy := false }

theorem parkStack_cases {m : Nat} (hm : m < 24) (t : Nat) (s : State) : (parkStack m t s).memory.fast = s.memory.fast ∧
    besideParking (stackAt m (parkStack m t s)) = besideParking (stackAt m s) := by
  unfold parkStack
  extract_lets parked ok s₁
  have hs₁ : s₁.memory = s.memory := rfl
  clear_value s₁
  split
  · split
    · have hmoves := (onlySlots_queueMoves 3 (slotsOf m s₁) (modStack m (fun k => { k with parkedPolicy := true }) s₁)).trans (onlySlots_startMoves _)
      have hfast : s₁.memory.fast = s.memory.fast := congrArg MemSt.fast hs₁
      refine ⟨hmoves.fast.trans hfast, ?_⟩
      rw [stackAt_congr hmoves.stk, stackAt_modStack m m _ s₁ hm, if_pos rfl, stackAt_congr (congrArg MemSt.stk hs₁)]
      rfl
    · exact ⟨congrArg MemSt.fast hs₁, congrArg besideParking (stackAt_congr (congrArg MemSt.stk hs₁) m)⟩
  · exact ⟨rfl, rfl⟩

/-- A stack that starts to drain. -/
def drainingStack (k : StackSt) : StackSt :=
  { k with level := 4, retraining := 0, driftSince := none, parkedPolicy := false, parkedAt := none }

theorem drainStack_cases {m : Nat} (hm : m < 24) (s : State) : (drainStack m s).memory.fast = s.memory.fast ∧
    (stackAt m (drainStack m s)).temp = (stackAt m s).temp ∧ (stackAt m (drainStack m s)).powered = (stackAt m s).powered ∧
    (stackAt m (drainStack m s)).level = if slotsOf m s = [] then 5 else 4 := by
  have hleaves (ks : List Nat) (u : State) : OnlySlots u (ks.foldl (fun s k => leaveChannel (16 * m + k) 1 s) u) ∧
      slotChannels (ks.foldl (fun s k => leaveChannel (16 * m + k) 1 s) u) = slotChannels u := by
    induction ks generalizing u with
    | nil => exact ⟨.refl u, rfl⟩
    | cons k ks ih =>
      obtain ⟨hslots, hchans⟩ := ih (leaveChannel (16 * m + k) 1 u)
      exact ⟨(onlySlots_leaveChannel _ _ u).trans hslots, hchans.trans (slotChannels_leaveChannel _ _ u)⟩
  have heq : drainStack m s = settleStacks ((List.range 16).foldl (fun s k => leaveChannel (16 * m + k) 1 s) (modStack m drainingStack s)) := rfl
  obtain ⟨hslots, hchans⟩ := hleaves (List.range 16) (modStack m drainingStack s)
  rw [heq]
  generalize (List.range 16).foldl (fun s k => leaveChannel (16 * m + k) 1 s) (modStack m drainingStack s) = v at *
  have hsettle := settles_settleStacks v
  have hstack : stackAt m v = drainingStack (stackAt m s) := by
    rw [stackAt_congr hslots.stk, stackAt_modStack m m _ s hm, if_pos rfl]
  have hsame : slotsOf m v = slotsOf m s := slotsOf_congr hchans m
  have hvfast : v.memory.fast = s.memory.fast := hslots.fast
  refine ⟨hsettle.fast.trans hvfast, (hsettle.temp m).trans (congrArg StackSt.temp hstack :),
    (hsettle.powered m).trans (congrArg StackSt.powered hstack :), ?_⟩
  rw [level_settleStacks hm, drainedLevel, hstack, hsame]
  simp only [drainingStack, true_and]

theorem completes_stackTempSample {m : Fin 24} {celsius : BitVec 8} {s : State} (hpow : (stackAt m s).powered = true) :
    Completes (.stackTempSample m celsius) s fun t => (stackAt m t).temp = celsius ∧
      (stackAt m t).powered = decide (celsius.toNat < 105) ∧ (celsius.toNat < 105 → t.memory.fast = s.memory.fast) ∧
      (stackAt m t).level = if 105 ≤ celsius.toNat then 6 else if 4 ≤ (stackAt m s).level then (stackAt m s).level
        else if 100 ≤ celsius.toNat then (if slotsOf m s = [] then 5 else 4) else throttleAt (stackAt m s).level celsius.toNat := by
  obtain ⟨hfast, hchans, htemp, hpowered, hlevel⟩ := noteTemp_cases m.isLt celsius.toNat s
  rw [BitVec.ofNat_toNat, BitVec.setWidth_eq] at htemp
  rw [hpow] at hpowered
  have hexec : ∃ t : State, execStackTempSample m celsius s = .next t ∧ t =
      if 105 ≤ celsius.toNat then
        sendMirror (loseStack m 6 (raiseLevels m celsius.toNat (stackAt m s).level 6 (noteTemp m celsius.toNat s)))
      else if 4 ≤ (stackAt m s).level then noteTemp m celsius.toNat s
      else if 100 ≤ celsius.toNat then drainStack m (raiseLevels m celsius.toNat (stackAt m s).level 4 (noteTemp m celsius.toNat s))
      else if (stackAt m s).level == 0 && decide (1 ≤ throttleAt (stackAt m s).level celsius.toNat) then
        parkStack m celsius.toNat (raiseLevels m celsius.toNat (stackAt m s).level (throttleAt (stackAt m s).level celsius.toNat)
          (modStack m (fun k => { k with level := throttleAt (stackAt m s).level celsius.toNat }) (noteTemp m celsius.toNat s)))
      else raiseLevels m celsius.toNat (stackAt m s).level (throttleAt (stackAt m s).level celsius.toNat)
          (modStack m (fun k => { k with level := throttleAt (stackAt m s).level celsius.toNat }) (noteTemp m celsius.toNat s)) := by
    have hne : ¬ (!(stackAt m s).powered) = true := by simp [hpow]
    exact ⟨_, congrArg Host.Outcome.next (if_neg hne), rfl⟩
  obtain ⟨t, hexec, ht⟩ := hexec
  refine ⟨t, hexec, ?_⟩
  generalize noteTemp m celsius.toNat s = u at *
  by_cases h105 : 105 ≤ celsius.toNat
  · rw [if_pos h105] at ht ⊢
    have hlevels := onlySlots_raiseLevels m celsius.toNat (stackAt m s).level 6 u
    generalize raiseLevels m celsius.toNat (stackAt m s).level 6 u = v at *
    obtain ⟨hstack, -, -⟩ := loseStack_cases m 6 v
    have hlost : stackAt m t = lostStack 6 (stackAt m u) := by
      rw [ht, stackAt_congr (keepsStacks_sendMirror _).stk, hstack, stackAt_congr hlevels.stk]
    rw [hlost]
    exact ⟨htemp, (decide_eq_false (by omega)).symm, fun h => absurd h (by omega), rfl⟩
  · rw [if_neg h105] at ht ⊢
    have hcool : decide (celsius.toNat < 105) = true := decide_eq_true (by omega)
    rw [hcool]
    by_cases h4 : 4 ≤ (stackAt m s).level
    · rw [if_pos h4] at ht ⊢
      rw [ht]
      exact ⟨htemp, hpowered, fun _ => hfast, hlevel⟩
    · rw [if_neg h4] at ht ⊢
      by_cases h100 : 100 ≤ celsius.toNat
      · rw [if_pos h100] at ht ⊢
        have hlevels := onlySlots_raiseLevels m celsius.toNat (stackAt m s).level 4 u
        have hlchans := slotChannels_raiseLevels m celsius.toNat (stackAt m s).level 4 u
        generalize raiseLevels m celsius.toNat (stackAt m s).level 4 u = v at *
        obtain ⟨hdfast, hdtemp, hdpowered, hdlevel⟩ := drainStack_cases m.isLt v
        rw [stackAt_congr hlevels.stk] at hdtemp hdpowered
        rw [slotsOf_congr (hlchans.trans hchans)] at hdlevel
        rw [ht]
        exact ⟨hdtemp.trans htemp, hdpowered.trans hpowered, fun _ => hdfast.trans (hlevels.fast.trans hfast), hdlevel⟩
      · rw [if_neg h100] at ht ⊢
        have hset := stackAt_modStack m m (fun k => { k with level := throttleAt (stackAt m s).level celsius.toNat }) u m.isLt
        rw [if_pos rfl] at hset
        have hlevels := onlySlots_raiseLevels m celsius.toNat (stackAt m s).level (throttleAt (stackAt m s).level celsius.toNat)
          (modStack m (fun k => { k with level := throttleAt (stackAt m s).level celsius.toNat }) u)
        have hv := (stackAt_congr hlevels.stk m).trans hset
        have hvfast := hlevels.fast
        generalize raiseLevels m celsius.toNat (stackAt m s).level (throttleAt (stackAt m s).level celsius.toNat)
          (modStack m (fun k => { k with level := throttleAt (stackAt m s).level celsius.toNat }) u) = v at *
        have hpark := parkStack_cases m.isLt celsius.toNat v
        have htv : t.memory.fast = v.memory.fast ∧ besideParking (stackAt m t) = besideParking (stackAt m v) := by
          rw [ht]
          split
          · exact hpark
          · exact ⟨rfl, rfl⟩
        obtain ⟨htfast, hstack⟩ := htv
        rw [hv] at hstack
        exact ⟨(congrArg StackSt.temp hstack :).trans htemp, (congrArg StackSt.powered hstack :).trans hpowered,
          fun _ => htfast.trans (hvfast.trans hfast), (congrArg StackSt.level hstack :)⟩

/-- Settles O48, clause by clause: a settled stack keeps its slots' places and the fast tier's bytes, and what a loss rebuilds leaves the
stacks alone. -/
theorem stacksAndTheChannelMap : Obligations.StacksAndTheChannelMap := by
  unfold Obligations.StacksAndTheChannelMap
  refine ⟨fun ch cause s => completes_channelMapOut, fun slot s x hx hstate => completes_slotMoveDone hx hstate, completes_mapChangeAcked,
    fun m s i hlevel hany hi => ?_, fun m s => completes_stackRetrainDone, fun m s t0 => completes_parkReturn,
    fun fastAddr s => completes_memUncorrectable, fun ch line s => completes_repairLineReplace, fun fastAddr s => completes_dataRebuildDone rfl,
    fun m s => completes_memorySideDieLost, fun m celsius s => completes_stackTempSample⟩
  rcases hi with ⟨t0, hdrift, hlong, rfl⟩ | ⟨p, hp, hmoving, rfl⟩
  · exact completes_stackRetrainPark hlevel hany hdrift hlong
  · exact completes_memCtrlRetrain hlevel hany hp hmoving

end Sys2Proof.Machine
end

section
/-!
TENSOR_MOVE, STATS_READ, exports, snapshots and exam windows (Machine/Moves.lean, Machine/Exams.lean, Machine/Exports.lean).
-/

namespace Sys2Proof.Machine

/-! ## TENSOR_MOVE (R69) -/

theorem storage_forwardDesc {g : Option Nat} {step : Option Word} {slot : Nat} {ins outs : List (Nat × Nat)} {s t : State}
    (h : forwardDesc g step slot ins outs s = some t) : storage t = storage s := by
  unfold forwardDesc at h
  split at h
  · extract_lets s₁ f n at h
    split at h
    · split at h
      · exact (Option.some.inj h) ▸ rfl
      · split at h
        · exact absurd h nofun
        · exact (Option.some.inj h) ▸ rfl
    · exact (Option.some.inj h) ▸ rfl
  · exact (Option.some.inj h) ▸ rfl

/-- A move's sources protected in the step of its group. -/
def protectFor (g : Option Nat) (slot : Nat) (rs : List (Nat × Nat)) (s : State) : State :=
  match g with
  | some g => protect g slot rs s
  | none => s

theorem storage_protectFor (g : Option Nat) (slot : Nat) (rs : List (Nat × Nat)) (s : State) : storage (protectFor g slot rs s) = storage s := by
  unfold protectFor
  split <;> rfl

/-- What a move stores. -/
def movedBytes (d : Desc) (c : Chan) (raw : List Byte) : List Byte :=
  if mvCodec d = 1 then encodeStream 0 (mvDstFmt d) 16 (moveConvert d c raw).1 else (moveConvert d c raw).1

/-- How a move without a fault in its stream ends in a state. -/
def moveEnd (r : DescRec) (d : Desc) (c : Chan) (raw : List Byte) (v : State) : State :=
  if flagged (orFlags (moveConvert d c raw).2) then
    finish r stFlagged ((orFlags (moveConvert d c raw).2).setWidth 16) (BitVec.ofNat 64 (firstGroup (moveConvert d c raw).2)) v
  else done r (if mvCodec d = 1 then (movedBytes d c raw).length else 0) v

/-- The stream of a move through an engine, counted there when the move has a codec. -/
def countMove (d : Desc) (e raw stored : Nat) (s : State) : State :=
  if mvCodec d = 0 then s else countStream e raw (if mvCodec d = 1 then stored else mvLen d) s

theorem storage_countMove (d : Desc) (e raw stored : Nat) (s : State) : storage (countMove d e raw stored s) = storage s := by
  unfold countMove
  split <;> rfl

/-- A move's source protected and its stream counted. -/
def beforeMove (r : DescRec) (c : Chan) (raw : List Byte) (w : State) : State :=
  countMove r.desc (moveEngine w) (moveConvert r.desc c raw).1.length (movedBytes r.desc c raw).length
    (protectFor r.group r.desc.slot [(r.desc.w2.toNat, mvLen r.desc)] w)

theorem finishMove_eq {r : DescRec} {c : Chan} {raw : List Byte} {u w : State}
    (hfwd : forwardDesc r.group r.step r.desc.slot [(r.desc.w2.toNat, mvLen r.desc)] [(r.desc.w3.toNat, (movedBytes r.desc c raw).length)] u = some w) :
    finishMove r c raw none u = moveEnd r r.desc c raw (vaStore r.desc.slot r.desc.w3.toNat (movedBytes r.desc c raw) (beforeMove r c raw w)) := by
  have hbytes : (if (mvCodec r.desc == 1) = true then encodeStream 0 (mvDstFmt r.desc) 16 (moveConvert r.desc c raw).1
      else (moveConvert r.desc c raw).1) = movedBytes r.desc c raw := by
    simp only [movedBytes, beq_iff_eq]
  unfold finishMove
  simp only [hbytes, hfwd]
  unfold moveEnd beforeMove countMove protectFor
  cases r.group <;> simp only [beq_iff_eq]

theorem finishMove_stores {r : DescRec} {c : Chan} {raw : List Byte} {u w : State}
    (hfwd : forwardDesc r.group r.step r.desc.slot [(r.desc.w2.toNat, mvLen r.desc)] [(r.desc.w3.toNat, (movedBytes r.desc c raw).length)] u = some w) :
    ∃ v : State, SameMemory (vaStore r.desc.slot r.desc.w3.toNat (movedBytes r.desc c raw) u) v ∧
      finishMove r c raw none u = moveEnd r r.desc c raw v := by
  have hbefore : storage (beforeMove r c raw w) = storage u :=
    (storage_countMove _ _ _ _ _).trans ((storage_protectFor _ _ _ w).trans (storage_forwardDesc hfwd))
  exact ⟨_, sameMemory_of_storage (storage_vaStore_congr hbefore _ _ _), finishMove_eq hfwd⟩

theorem moveDest_open {r : DescRec} {n : Nat} {u : State} (go : State → State) (hregion : regionFault r.desc.slot r.desc.w3.toNat n true u = none)
    (hover : overlapsProtected r.desc.slot r.desc.w3.toNat n u = false) : moveDest r n go u = go u := by
  simp only [moveDest, hregion, hover, Bool.false_eq_true, if_false]

theorem startMove_stream {r : DescRec} {u : State} {c : Chan} (hc : chanOf r.desc.slot u = some c) (hfields : moveFieldsOk r.desc = true)
    (hsrc : regionFault r.desc.slot r.desc.w2.toNat (mvLen r.desc) false u = none)
    (hpoison : poisonVa r.desc.slot r.desc.w2.toNat (mvLen r.desc) u = none) (hcodec : mvCodec r.desc = 2) (hlen : 64 ≤ mvLen r.desc)
    (hhead : streamHeaderOk (vaRead r.desc.slot r.desc.w2.toNat 64 u) = true)
    (hagree : streamAgrees (vaRead r.desc.slot r.desc.w2.toNat 64 u) (mvLen r.desc) (mvSrcFmt r.desc) = true)
    (hdst : regionFault r.desc.slot r.desc.w3.toNat (tensorBytes (mvDstFmt r.desc) (tensorElems (mvSrcFmt r.desc)
      (streamRaw (vaRead r.desc.slot r.desc.w2.toNat 64 u)))) true u = none)
    (hover : overlapsProtected r.desc.slot r.desc.w3.toNat (tensorBytes (mvDstFmt r.desc) (tensorElems (mvSrcFmt r.desc)
      (streamRaw (vaRead r.desc.slot r.desc.w2.toNat 64 u)))) u = false) :
    startMove r u = finishMove r c (readStream (vaRead r.desc.slot r.desc.w2.toNat (mvLen r.desc) u)).1
      (readStream (vaRead r.desc.slot r.desc.w2.toNat (mvLen r.desc) u)).2 u := by
  have hok : ¬ (!moveFieldsOk r.desc || (mvCodec r.desc == 2 && decide (mvLen r.desc < 64))) = true := by
    simp only [hfields, hcodec]
    simpa using hlen
  rw [startMove, hc]
  dsimp only
  rw [if_neg hok, hsrc]
  dsimp only
  rw [if_pos (beq_iff_eq.2 hcodec), hpoison]
  simp only [hhead, hagree, Bool.not_true, Bool.false_eq_true, if_false]
  rw [moveDest_open _ hdst hover]

theorem startMove_plain {r : DescRec} {u : State} {c : Chan} (hc : chanOf r.desc.slot u = some c) (hfields : moveFieldsOk r.desc = true)
    (hsrc : regionFault r.desc.slot r.desc.w2.toNat (mvLen r.desc) false u = none)
    (hpoison : poisonVa r.desc.slot r.desc.w2.toNat (mvLen r.desc) u = none) (hcodec : mvCodec r.desc ≠ 2) {n : Nat}
    (hn : n = if mvCodec r.desc = 1 then maxStored (tensorBytes (mvDstFmt r.desc) (tensorElems (mvSrcFmt r.desc) (mvLen r.desc)))
      else tensorBytes (mvDstFmt r.desc) (tensorElems (mvSrcFmt r.desc) (mvLen r.desc)))
    (hdst : regionFault r.desc.slot r.desc.w3.toNat n true u = none) (hover : overlapsProtected r.desc.slot r.desc.w3.toNat n u = false) :
    startMove r u = finishMove r c (vaRead r.desc.slot r.desc.w2.toNat (mvLen r.desc) u) none u := by
  have hok : ¬ (!moveFieldsOk r.desc || (mvCodec r.desc == 2 && decide (mvLen r.desc < 64))) = true := by
    simp [hfields, hcodec]
  rw [startMove, hc]
  dsimp only
  rw [if_neg hok, hsrc]
  dsimp only
  rw [if_neg (by simpa using hcodec)]
  simp only [beq_iff_eq]
  rw [← hn, moveDest_open _ hdst hover, hpoison]

theorem completes_tensorMove {d : Desc} {s u w : State} {r : DescRec} {c : Chan} {raw : List Byte} (h : Starts 0x02 d s r u)
    (hc : chanOf d.slot u = some c) (hfields : moveFieldsOk d = true) (hsrc : regionFault d.slot d.w2.toNat (mvLen d) false u = none)
    (hpoison : poisonVa d.slot d.w2.toNat (mvLen d) u = none) {len span : Nat}
    (hlen : len = if mvCodec d = 2 then streamRaw (vaRead d.slot d.w2.toNat 64 u) else mvLen d)
    (hspan : span = if mvCodec d = 1 then maxStored (tensorBytes (mvDstFmt d) (tensorElems (mvSrcFmt d) len))
      else tensorBytes (mvDstFmt d) (tensorElems (mvSrcFmt d) len))
    (hstream : mvCodec d = 2 → 64 ≤ mvLen d ∧ streamHeaderOk (vaRead d.slot d.w2.toNat 64 u) = true ∧
      streamAgrees (vaRead d.slot d.w2.toNat 64 u) (mvLen d) (mvSrcFmt d) = true ∧
      readStream (vaRead d.slot d.w2.toNat (mvLen d) u) = (raw, none))
    (hplain : mvCodec d ≠ 2 → raw = vaRead d.slot d.w2.toNat (mvLen d) u)
    (hdst : regionFault d.slot d.w3.toNat span true u = none) (hover : overlapsProtected d.slot d.w3.toNat span u = false)
    (hfwd : forwardDesc r.group r.step d.slot [(d.w2.toNat, mvLen d)] [(d.w3.toNat, (movedBytes d c raw).length)] u = some w) :
    Completes (.tensorMove d) s fun t => ∃ v : State, SameMemory (vaStore d.slot d.w3.toNat (movedBytes d c raw) u) v ∧ t = moveEnd r d c raw v := by
  have hexec : execTensorMove d s = .next (startMove r u) := by rw [execTensorMove, h.fetchWith]
  obtain rfl := h.desc.1
  refine ⟨_, hexec, ?_⟩
  have hstart : startMove r u = finishMove r c raw none u := by
    by_cases hcodec : mvCodec r.desc = 2
    · obtain ⟨h64, hhead, hagree, hread⟩ := hstream hcodec
      rw [if_pos hcodec] at hlen
      rw [if_neg (by omega), hlen] at hspan
      rw [hspan] at hdst hover
      rw [startMove_stream hc hfields hsrc hpoison hcodec h64 hhead hagree hdst hover, hread]
    · rw [if_neg hcodec] at hlen
      rw [hlen] at hspan
      rw [startMove_plain hc hfields hsrc hpoison hcodec hspan hdst hover, hplain hcodec]
  rw [hstart]
  exact finishMove_stores hfwd

/-! ## STATS_READ (R205) -/

/-- Whether STATS_READ of a slot selects a counter set. -/
def selects (slot sel : Nat) (x : StatSet) : Bool := x.slot == slot && (sel == 0xFFFF || x.tag == sel)

theorem mem_selectedSets {slot sel : Nat} {s : State} {x : StatSet} : x ∈ selectedSets slot sel s ↔ x ∈ s.stats ∧ selects slot sel x = true := by
  rw [selectedSets, mem_sortBy, List.mem_filter]
  rfl

theorem stats_vaStore (slot va : Nat) (bs : List Byte) (s : State) : (vaStore slot va bs s).stats = s.stats :=
  (congrArg State.stats (besideMemory_vaStore slot va bs s) :)

/-- A channel's selected counter sets and its full count cleared. -/
def clearSets (slot sel : Nat) (s : State) : State :=
  modChan slot (fun k => { k with tsuFull := 0 }) { s with stats := s.stats.filter fun x => !selects slot sel x }

theorem sameMemory_clearSets (slot sel : Nat) (s : State) : SameMemory s (clearSets slot sel s) :=
  ⟨(memory_modChan _ _ _).trans rfl, (congrArg PortSt.mem (portOf_modChan .A _ _ _)).trans rfl,
    (congrArg PortSt.mem (portOf_modChan .B _ _ _)).trans rfl⟩

theorem stats_clearSets (slot sel : Nat) (s : State) : (clearSets slot sel s).stats = s.stats.filter fun x => !selects slot sel x := by
  unfold clearSets modChan
  split <;> rfl

theorem completes_statsRead {d : Desc} {s u : State} {r : DescRec} {c : Chan} (h : Starts 0x0C d s r u) (hc : chanOf d.slot u = some c)
    {sel : Nat} (hsel : sel = fieldNat d.w3 0 16) {bytes : List Byte}
    (hbytes : bytes = statHeader (selectedSets d.slot sel u).length c.tsuFull s.time.dtime ++ (selectedSets d.slot sel u).flatMap (statRecord c))
    (hregion : regionFault d.slot d.w2.toNat (if sel = 0xFFFF then 64 + 64 * 16384 else 128) true u = none)
    (hover : overlapsProtected d.slot d.w2.toNat bytes.length u = false) :
    Completes (.statsRead d) s fun t => Finishes r 0 t fun v => SameMemory (vaStore d.slot d.w2.toNat bytes u) v ∧
      (bitOf d.w3 16 = false → v.stats = u.stats) ∧
      (bitOf d.w3 16 = true → ∀ x : StatSet, x ∈ v.stats ↔ x ∈ u.stats ∧ x ∉ selectedSets d.slot sel u) := by
  have hnow : now u = s.time.dtime := by
    obtain ⟨_, _, _, _, _, rfl, _⟩ := h.1
    exact (congrArg (fun x : State => x.time.dtime) (noteFetch_frame r s) :)
  have hexec : execStatsRead d s = .next (done r 0 (if bitOf d.w3 16 then clearSets d.slot sel (vaStore d.slot d.w2.toNat bytes u)
      else vaStore d.slot d.w2.toNat bytes u)) := by
    rw [execStatsRead, h.fetchWith]
    obtain rfl := h.desc.1
    simp only [startStatsRead, hc, ← hsel, beq_iff_eq, hregion, hnow, ← hbytes, hover, Bool.false_eq_true, if_false]
    rfl
  refine ⟨_, hexec, _, rfl, ?_, fun hkeep => ?_, fun hclear x => ?_⟩
  · split
    · exact sameMemory_clearSets _ _ _
    · exact SameMemory.refl _
  · rw [if_neg (by rw [hkeep]; decide)]
    exact stats_vaStore _ _ _ u
  · rw [if_pos hclear, stats_clearSets, stats_vaStore, List.mem_filter, mem_selectedSets]
    cases hx : selects d.slot sel x <;> simp

/-! ## Exports (R372) -/

theorem storage_holdAs (r : DescRec) (h : Hold) (s : State) : storage (holdAs r h s) = storage s := by
  obtain ⟨ds, hds⟩ := holdAs_eq r h s
  rw [hds]
  rfl

theorem nmu_vaStore (slot va : Nat) (bs : List Byte) (s : State) : (vaStore slot va bs s).nmu = s.nmu :=
  (congrArg State.nmu (besideMemory_vaStore slot va bs s) :)

/-- A state with one more of its exports. -/
def addExport (e : ExportSt) (s : State) : State := modNmu (fun n => { n with exports := n.exports ++ [e] }) s

theorem storage_addExport (e : ExportSt) (s : State) : storage (addExport e s) = storage s := rfl

theorem nmu_holdAs (r : DescRec) (h : Hold) (s : State) : (holdAs r h s).nmu = s.nmu := by
  obtain ⟨ds, hds⟩ := holdAs_eq r h s
  rw [hds]

theorem nmu_exportControl (e : ExportSt) (last : Option Word) (s : State) : (exportControl e last s).nmu = s.nmu := by
  unfold exportControl
  split <;> simp only [nmu_vaStore]

/-- What a DELTA_EXPORT adds to the exports. -/
def openedExport (d : Desc) (r : DescRec) (last : Nat) : ExportSt :=
  { id := r.id, slot := d.slot, dst := d.w2.toNat, size := fieldNat d.w3 0 48, fromStep := d.w4, lastAtFetch := BitVec.ofNat 64 last
    continuous := bitOf d.w5 0, nextStep := d.w4, write := 0, gaps := 0 }

theorem execDeltaExport_opens {d : Desc} {s u : State} {r : DescRec} (h : Starts 0x0A d s r u) (halign : fieldNat d.w3 0 48 % 4096 = 0)
    (hsize : pageBytes ≤ fieldNat d.w3 0 48) (hregion : regionFault d.slot d.w2.toNat (fieldNat d.w3 0 48) true u = none)
    (hslow : slowRegion d.slot d.w2.toNat (fieldNat d.w3 0 48) u = true)
    (hover : overlapsProtected d.slot d.w2.toNat (fieldNat d.w3 0 48) u = false) (hold : tooOld d.w4 u = false) :
    execDeltaExport d s = .next (if !bitOf d.w5 0 && decide (lastCommitted d.slot s < d.w4.toNat)
      then done r 0 (exportControl (openedExport d r (lastCommitted d.slot s)) (some 0) u)
      else holdAs r .exporting (addExport (openedExport d r (lastCommitted d.slot s))
        (exportControl (openedExport d r (lastCommitted d.slot s)) (some 0) u))) := by
  have haux : r.aux = lastCommitted d.slot s := by
    obtain ⟨_, _, c, _, rfl, _⟩ := h.1
    rfl
  have hbad : ¬ (fieldNat d.w3 0 48 % 4096 != 0 || decide (fieldNat d.w3 0 48 < pageBytes)) = true := by
    simp [halign, hsize]
  rw [execDeltaExport, h.fetchWith]
  obtain rfl := h.desc.1
  rw [startExport]
  dsimp only
  rw [if_neg hbad, hregion]
  simp only [hslow, hover, hold, haux, Bool.not_true, Bool.false_eq_true, if_false]
  rfl

theorem completes_deltaExport_opened {d : Desc} {s u : State} {r : DescRec} {e : ExportSt} (he : e = openedExport d r (lastCommitted d.slot s))
    (hexec : execDeltaExport d s = .next (if !bitOf d.w5 0 && decide (lastCommitted d.slot s < d.w4.toNat)
      then done r 0 (exportControl (openedExport d r (lastCommitted d.slot s)) (some 0) u)
      else holdAs r .exporting (addExport (openedExport d r (lastCommitted d.slot s))
        (exportControl (openedExport d r (lastCommitted d.slot s)) (some 0) u)))) :
    (bitOf d.w5 0 = true ∨ d.w4.toNat ≤ lastCommitted d.slot s → Completes (.deltaExport d) s fun t =>
      SameMemory (exportControl e (some 0) u) t ∧ t.nmu.exports = u.nmu.exports ++ [e] ∧
        ∃ x : DescRec, descOf r.id t = some x ∧ x.hold = .exporting) ∧
    (bitOf d.w5 0 = false → lastCommitted d.slot s < d.w4.toNat → Completes (.deltaExport d) s fun t =>
      t = done r 0 (exportControl e (some 0) u)) := by
  rw [← he] at hexec
  refine ⟨fun hopen => ⟨_, hexec, ?_⟩, fun hcont hlast => ⟨_, hexec, if_pos (by simp [hcont, hlast])⟩⟩
  rw [if_neg (by rcases hopen with h | h <;> simp [h])]
  generalize hv : exportControl e (some 0) u = v
  have hnmu : v.nmu = u.nmu := by rw [← hv, nmu_exportControl]
  have hstorage := (storage_holdAs r .exporting (addExport e v)).trans (storage_addExport e v)
  have hexports : (addExport e v).nmu.exports = v.nmu.exports ++ [e] := rfl
  refine ⟨sameMemory_of_storage hstorage, ?_, _, descOf_holdAs _ _ _, rfl⟩
  rw [nmu_holdAs, hexports, hnmu]

theorem nmu_ringPut (slot dst size : Nat) (bs : List Byte) (at' : Nat) (s : State) : (ringPut slot dst size bs at' s).nmu = s.nmu := by
  simp only [ringPut]
  split
  · rw [nmu_vaStore, nmu_vaStore]
  · rw [nmu_vaStore]

/-- One of the exports after a unit has been appended to it. -/
def appended (x : List Byte × Bool) (e : ExportSt) : ExportSt :=
  { e with write := e.write + BitVec.ofNat 64 x.1.length, nextStep := e.nextStep + 1, gaps := if x.2 then e.gaps + 1 else e.gaps }

/-- A unit put into the ring of one of the exports, and the words of its control block. -/
def unitPut (x : List Byte × Bool) (e : ExportSt) (s : State) : State :=
  exportControl (appended x e) (if x.2 then none else some e.nextStep) (ringPut e.slot e.dst e.size x.1 e.write.toNat s)

/-- One of the exports takes the place of another. -/
def putExport (e f : ExportSt) (s : State) : State := modNmu (fun n => { n with exports := mapIf (fun x => x.id == e.id) (fun _ => f) n.exports }) s

/-- One of the exports taken away. -/
def endExport (e : ExportSt) (s : State) : State := modNmu (fun n => { n with exports := n.exports.filter fun x => x.id != e.id }) s

theorem sameMemory_putExport (e f : ExportSt) (s : State) : SameMemory s (putExport e f s) := ⟨rfl, rfl, rfl⟩

theorem sameMemory_endExport (e : ExportSt) (s : State) : SameMemory s (endExport e s) := ⟨rfl, rfl, rfl⟩

theorem completes_exportAppend {id : Nat} {s : State} {e : ExportSt} {r : DescRec} (he : s.nmu.exports.find? (fun e => e.id == id) = some e)
    (hr : descOf id s = some r) (hcommitted : e.nextStep.toNat ≤ lastCommitted e.slot s) (hopen : regionFenced e.slot e.dst e.size s = false)
    {x : List Byte × Bool} (hx : x = unitOfStep (exportGroups e.slot s) e.nextStep s)
    (hroom : e.write.toNat + x.1.length - (vaWord e.slot (e.dst + 8) s).toNat ≤ e.size - 4096) :
    Completes (.exportAppend id) s fun t => ∃ v : State,
      SameMemory (exportControl (appended x e) (if x.2 then none else some e.nextStep) (ringPut e.slot e.dst e.size x.1 e.write.toNat s)) v ∧
      (e.continuous = false ∧ e.lastAtFetch.toNat ≤ e.nextStep.toNat → t = done r (appended x e).write.toNat v ∧ ∀ y ∈ v.nmu.exports, y.id ≠ id) ∧
      (e.continuous = true ∨ e.nextStep.toNat < e.lastAtFetch.toNat → t = v ∧ v.nmu.exports.find? (fun e => e.id == id) = some (appended x e)) := by
  have hid : e.id = id := by simpa using List.find?_some he
  have hdue : ¬ (decide (lastCommitted e.slot s < e.nextStep.toNat) || regionFenced e.slot e.dst e.size s) = true := by
    simp [hopen, hcommitted]
  have happend : appendUnit r e s = if !e.continuous && decide (e.lastAtFetch.toNat ≤ e.nextStep.toNat) then
      done r (appended x e).write.toNat (endExport e (putExport e (appended x e) (unitPut x e s)))
      else putExport e (appended x e) (unitPut x e s) := by
    unfold appendUnit
    rw [← hx]
    extract_lets read f v w
    rw [if_neg (Nat.not_lt.2 hroom)]
    rfl
  have hexec : execExportAppend id s = .next (appendUnit r e s) := by
    simp only [execExportAppend, he, hr]
    exact congrArg Host.Outcome.next (if_neg hdue)
  rw [happend] at hexec
  have hw : (unitPut x e s).nmu = s.nmu := (nmu_exportControl _ _ _).trans (nmu_ringPut _ _ _ _ _ s)
  have hput : SameMemory (unitPut x e s) (putExport e (appended x e) (unitPut x e s)) := sameMemory_putExport _ _ _
  refine ⟨_, hexec, ?_⟩
  by_cases hend : e.continuous = false ∧ e.lastAtFetch.toNat ≤ e.nextStep.toNat
  · rw [if_pos (show (!e.continuous && decide (e.lastAtFetch.toNat ≤ e.nextStep.toNat)) = true by simp [hend])]
    refine ⟨endExport e (putExport e (appended x e) (unitPut x e s)), hput.trans (sameMemory_endExport _ _), fun _ => ⟨rfl, fun y hy => ?_⟩,
      fun h => ?_⟩
    · have hkept := (List.mem_filter.1 hy).2
      rw [hid] at hkept
      simpa using hkept
    · rcases h with h | h
      · exact absurd (hend.1.symm.trans h) (by decide)
      · exact absurd hend.2 (Nat.not_le.2 h)
  · rw [if_neg (show ¬ (!e.continuous && decide (e.lastAtFetch.toNat ≤ e.nextStep.toNat)) = true by simpa using hend)]
    refine ⟨putExport e (appended x e) (unitPut x e s), hput, fun h => absurd h hend, fun _ => ⟨rfl, ?_⟩⟩
    show (mapIf (fun x => x.id == e.id) (fun _ => appended x e) (unitPut x e s).nmu.exports).find? _ = _
    rw [hw, mapIf, List.find?_map]
    have hcomp : ((fun y : ExportSt => y.id == id) ∘ fun y => if (y.id == e.id) = true then appended x e else y) = fun y => y.id == id := by
      funext y
      simp only [Function.comp]
      split
      · next hy => rw [show (appended x e).id = id from hid, beq_iff_eq.1 hy, hid]
      · rfl
    rw [hcomp, he, Option.map_some, if_pos (beq_self_eq_true _)]

/-! ## SNAPSHOT (R373) -/

/-- The bytes of a snapshot of sections of a step with its commit record. -/
def snapshotBytes (n : Word) (c : JRec) (secs : List (List Byte × List Byte)) : List Byte :=
  leBytes 8 0x4C594B53 ++ wordBytes n ++ c.payload.take 32 ++ leBytes 8 secs.length ++ leBytes 8 0 ++
    secs.flatMap fun x => sectionBytes x.1 x.2

theorem completes_snapshot {d : Desc} {s u : State} {r : DescRec} {c : JRec} (h : Starts 0x0D d s r u)
    {secs : List (List Byte × List Byte)} (hsecs : secs = snapshotSections (exportGroups d.slot u) (rebuiltAll (exportGroups d.slot u) d.w2 u))
    (hregion : regionFault d.slot d.w3.toNat (fieldNat d.w4 0 48) true u = none) (hlast : d.w2.toNat ≤ lastCommitted d.slot u)
    (hslow : slowRegion d.slot d.w3.toNat (fieldNat d.w4 0 48) u = true)
    (hover : overlapsProtected d.slot d.w3.toNat (fieldNat d.w4 0 48) u = false) (hc : commitRec (exportGroups d.slot u) d.w2 u = some c)
    (hcan : canRebuild d.w2 u = true) (hbound : snapshotBound secs ≤ fieldNat d.w4 0 48) :
    Completes (.snapshot d) s fun t => Finishes r (snapshotBytes d.w2 c secs).length t fun v =>
      v = vaStore d.slot d.w3.toNat (snapshotBytes d.w2 c secs) u := by
  have hexec : execSnapshot d s = .next (startSnapshot r u) := by rw [execSnapshot, h.fetchWith]
  obtain rfl := h.desc.1
  refine ⟨_, hexec, vaStore r.desc.slot r.desc.w3.toNat (snapshotBytes r.desc.w2 c secs) u, ?_, rfl⟩
  have hok : ¬ (decide (lastCommitted r.desc.slot u < r.desc.w2.toNat) || !slowRegion r.desc.slot r.desc.w3.toNat (fieldNat r.desc.w4 0 48) u) = true := by
    simp [hslow, hlast]
  rw [startSnapshot]
  simp only [hregion]
  rw [if_neg hok]
  simp only [hover, hc, hcan, Bool.not_true, Bool.false_eq_true, if_false, ← hsecs]
  rw [if_neg (Nat.not_lt.2 hbound)]
  rfl

/-! ## EXAM_OPEN (R18) -/

/-- A state from which an exam window opens: that of the descriptor, with the stall of a hold recorded. -/
def examFrom (r : DescRec) (u : State) : State := if r.hold == .examOpen then addStall 0x13 (nsSince r.since (mono u)) u else u

theorem examFrom_card (r : DescRec) (u : State) : { examFrom r u with card := u.card } = u := by
  unfold examFrom
  split <;> rfl

/-- A window opened under the next number. -/
def addExam (x : Exam) (s : State) : State := modNmu (fun m => { m with nextExam := (x.id + 1) % 65536, exams := m.exams ++ [x] }) s

/-- The window that an EXAM_OPEN opens. -/
def examOf (id slot group : Nat) (version opened : Word) (ps : List (Nat × Page)) (fs : List Nat) : Exam :=
  { id := id, slot := slot, group := group, version := version, opened := opened, saved := ps, frames := fs }

theorem startExam_opens {r : DescRec} {g : Group} {u : State} (hg : groupOf (fieldNat r.desc.w3 0 16) u = some g)
    (hstep : r.desc.w2.toNat ≤ g.lastStep.toNat) (hheld : examHeld r.desc.slot u = false)
    (hgather : r.desc.w2 = g.lastStep → gatherPending g u = false) : startExam r u = openExam r g (examFrom r u) := by
  have hfree : ¬ (examHeld r.desc.slot u || (r.desc.w2 == g.lastStep && gatherPending g u)) = true := by
    by_cases h : r.desc.w2 = g.lastStep
    · simp [hheld, hgather h]
    · simp [hheld, h]
  unfold startExam
  simp only [hg]
  rw [if_neg (Nat.not_lt.2 hstep), if_neg hfree]
  rfl

theorem openExam_latest {r : DescRec} {g : Group} {y : State} (h : r.desc.w2 = g.lastStep) :
    openExam r g y = done r y.nmu.nextExam (addExam (examOf y.nmu.nextExam r.desc.slot g.id r.desc.w2 (now y) [] []) y) :=
  if_pos (beq_iff_eq.2 h)

theorem openExam_rebuilt {r : DescRec} {g : Group} {y x : State} {ps : List (Nat × Page)} {fs : List Nat} (h : r.desc.w2 ≠ g.lastStep)
    (hcan : canRebuild r.desc.w2 y = true) (hshow : showVersion r.desc.slot g r.desc.w2 y = some (x, ps, fs)) :
    openExam r g y = done r y.nmu.nextExam (addExam (examOf y.nmu.nextExam r.desc.slot g.id r.desc.w2 (now y) ps fs) x) := by
  unfold openExam
  simp only [hcan, hshow, beq_eq_false_iff_ne.2 h, Bool.not_true, Bool.false_eq_true, if_false]
  rfl

/-- A descriptor that opens an exam window from a state, as it starts or when its hold has ended. -/
def OpensExam (d : Desc) (s : State) (r : DescRec) (u : State) (i : Instr) : Prop :=
  (i = .examOpen d ∧ Starts 0x08 d s r u) ∨ (i = .examOpenRelease r.id ∧ HeldAs r.id .examOpen r s ∧ u = s ∧ r.desc = d)

theorem OpensExam.facts {d : Desc} {s u : State} {r : DescRec} {i : Instr} (h : OpensExam d s r u i) :
    r.desc = d ∧ now u = s.time.dtime ∧ ∀ P : State → Prop, P (startExam r u) → Completes i s P := by
  rcases h with ⟨rfl, h⟩ | ⟨rfl, ⟨hr, hhold, hchan⟩, rfl, rfl⟩
  · have hexec : execExamOpen d s = .next (startExam r u) := by rw [execExamOpen, h.fetchWith]
    refine ⟨h.desc.1, ?_, fun P hP => ⟨_, hexec, hP⟩⟩
    obtain ⟨_, _, _, _, _, rfl, _⟩ := h.1
    exact (congrArg (fun x : State => x.time.dtime) (noteFetch_frame r s) :)
  · have hexec : execExamOpenRelease r.id u = .next (startExam r u) := by
      have hok : (r.hold == .examOpen && (chanOf r.desc.slot u).isSome) = true := by rw [hhold, hchan]; rfl
      simp only [execExamOpenRelease, hr]
      exact congrArg Host.Outcome.next (if_pos hok)
    exact ⟨rfl, rfl, fun P hP => ⟨_, hexec, hP⟩⟩

theorem completes_examOpen {d : Desc} {s u : State} {r : DescRec} {g : Group} {i : Instr} (h : OpensExam d s r u i)
    (hg : groupOf (fieldNat d.w3 0 16) u = some g) (hstep : d.w2.toNat ≤ g.lastStep.toNat) (hheld : examHeld d.slot u = false)
    (hgather : d.w2 = g.lastStep → gatherPending g u = false) :
    (d.w2 = g.lastStep → Completes i s fun t => Finishes r u.nmu.nextExam t fun v =>
      v.nmu.exams = u.nmu.exams ++ [examOf u.nmu.nextExam d.slot g.id d.w2 s.time.dtime [] []] ∧ v.memory = u.memory ∧ v.slots = u.slots) ∧
    (∀ (x : State) (ps : List (Nat × Page)) (fs : List Nat), d.w2 ≠ g.lastStep → canRebuild d.w2 u = true →
      (∀ y : State, { y with card := u.card } = u → showVersion d.slot g d.w2 y = some ({ x with card := y.card }, ps, fs)) →
      Completes i s fun t => Finishes r u.nmu.nextExam t fun v =>
        v.nmu.exams = x.nmu.exams ++ [examOf u.nmu.nextExam d.slot g.id d.w2 s.time.dtime ps fs] ∧ v.memory = x.memory) := by
  obtain ⟨rfl, hnow, hcompletes⟩ := h.facts
  have hstart := startExam_opens hg hstep hheld hgather
  have hy := examFrom_card r u
  generalize examFrom r u = y at *
  have hnmu : y.nmu = u.nmu := (congrArg State.nmu hy :)
  have hmem : y.memory = u.memory := (congrArg State.memory hy :)
  have hslots : y.slots = u.slots := (congrArg State.slots hy :)
  have htime : now y = s.time.dtime := ((congrArg (fun x : State => x.time.dtime) hy :) : now y = now u).trans hnow
  refine ⟨fun hlatest => hcompletes _ ?_, fun x ps fs hearlier hcan hshow => hcompletes _ ?_⟩
  · rw [hstart, openExam_latest hlatest, hnmu, htime]
    exact ⟨_, rfl, congrArg (fun n : NmuSt => n.exams ++ _) hnmu, hmem, hslots⟩
  · have hcan' : canRebuild r.desc.w2 y = true := by rw [canRebuild, hnmu]; exact hcan
    rw [hstart, openExam_rebuilt hearlier hcan' (hshow y hy), hnmu, htime]
    exact ⟨_, rfl, rfl, rfl⟩

/-! ## EXAM_CLOSE (R18) -/

theorem memGet_filter_addr {p : Nat → Bool} {m : List Host.Cell} {a : Nat} (h : memGet m a = 0) : memGet (m.filter fun c => p c.1) a = 0 := by
  induction m with
  | nil => rfl
  | cons e m ih =>
    rw [memGet] at h
    rw [List.filter_cons]
    by_cases he : (e.1 == a) = true
    · rw [if_pos he] at h
      split
      · rw [memGet, if_pos he, h]
      · next hp =>
        refine memGet_filter_zero fun x _ hxa => ?_
        rw [hxa, ← beq_iff_eq.1 he]
        simpa using hp
    · rw [if_neg he] at h
      split
      · rw [memGet, if_neg he, ih h]
      · exact ih h

/-- What the end of a descriptor keeps of zeroed memory, of the windows and of its channel's pages. -/
structure EndKeeps (slot : Nat) (s t : State) : Prop where
  zero : ∀ a : Nat, memGet s.memory.fast a = 0 → memGet t.memory.fast a = 0
  exams : t.nmu.exams = s.nmu.exams
  pages : ∀ c : Chan, chanOf slot t = some c → ∃ k : Chan, chanOf slot s = some k ∧ c.pages = k.pages

theorem EndKeeps.trans {slot : Nat} {s t u : State} (h : EndKeeps slot s t) (k : EndKeeps slot t u) : EndKeeps slot s u := by
  refine ⟨fun a ha => k.zero a (h.zero a ha), k.exams.trans h.exams, fun c hc => ?_⟩
  obtain ⟨c₁, hc₁, hp₁⟩ := k.pages c hc
  obtain ⟨c₂, hc₂, hp₂⟩ := h.pages c₁ hc₁
  exact ⟨c₂, hc₂, hp₁.trans hp₂⟩

theorem EndKeeps.of_same {slot : Nat} {s t : State} (hmem : t.memory = s.memory) (hnmu : t.nmu = s.nmu) (hslots : t.slots = s.slots) :
    EndKeeps slot s t :=
  ⟨fun a ha => by rw [hmem]; exact ha, by rw [hnmu], fun c hc => ⟨c, (chanOf_congr hslots slot).symm.trans hc, rfl⟩⟩

theorem EndKeeps.refl (slot : Nat) (s : State) : EndKeeps slot s s := .of_same rfl rfl rfl

theorem pages_waitCompl (x : Compl) (c : Chan) : (waitCompl x c).pages = c.pages := by
  unfold waitCompl
  extract_lets w
  split <;> rfl

theorem endKeeps_postCompl (slot i : Nat) (x : Compl) (s : State) : EndKeeps slot s (postCompl i x s) := by
  unfold postCompl
  split
  · exact .of_same (modPort_memory _ _ _) (modPort_nmu _ _ _) (modPort_slots _ _ _)
  · split
    · exact .of_same (modPort_memory _ _ _) (modPort_nmu _ _ _) (modPort_slots _ _ _)
    · have hnmu := congrArg State.nmu (onlySlot_modChan i (waitCompl x) s).1
      refine ⟨fun a ha => by rw [memory_modChan]; exact ha, congrArg NmuSt.exams hnmu, fun c hc => ?_⟩
      by_cases hi : slot = i
      · subst hi
        rw [chanOf_modChan, Option.map_eq_some_iff] at hc
        obtain ⟨k, hk, rfl⟩ := hc
        exact ⟨k, hk, pages_waitCompl x k⟩
      · rw [chanOf, slotOf_modChan_other _ _ _ _ hi] at hc
        exact ⟨c, hc, rfl⟩

theorem endKeeps_freeSlot (slot : Nat) (s : State) : EndKeeps slot s (freeSlot slot s) := by
  unfold freeSlot
  split
  · exact .refl slot s
  · next k hk =>
    refine ⟨fun a ha => memGet_filter_addr (p := fun a => !(chanFrames k).contains (a / pageBytes)) ha, rfl, fun c hc => ?_⟩
    rw [chanOf_modSlot] at hc
    exact absurd hc nofun

theorem endKeeps_settleDestroy (slot : Nat) (s : State) : EndKeeps slot s (settleDestroy slot s) := by
  unfold settleDestroy
  split
  · exact .refl slot s
  · split
    · exact .refl slot s
    · split
      · extract_lets src t
        have ht : EndKeeps slot s t := (endKeeps_freeSlot slot s).trans (.of_same rfl rfl rfl)
        split
        · exact ht
        · exact ht.trans (endKeeps_postCompl _ _ _ _)
      · exact .refl slot s

theorem endKeeps_finish (r : DescRec) (status : BitVec 8) (detail : BitVec 16) (result0 : Word) (s : State) :
    EndKeeps r.desc.slot s (finish r status detail result0 s) := by
  unfold finish
  extract_lets t
  have ht : EndKeeps r.desc.slot s t := .of_same rfl rfl rfl
  split
  · exact ht.trans (endKeeps_settleDestroy _ _)
  · exact (ht.trans (endKeeps_postCompl _ _ _ _)).trans (endKeeps_settleDestroy _ _)

theorem writeCard_keeps (h : CardHead) (used next : Nat) (ps : List Phase) (s : State) :
    (writeCard h used next ps s).memory = s.memory ∧ (writeCard h used next ps s).nmu = s.nmu ∧
      (writeCard h used next ps s).slots = s.slots ∧ (writeCard h used next ps s).descs = s.descs := by
  simp only [writeCard, queueCard, drawFree, modCard, modPort_memory, modPort_nmu, modPort_slots, modPort_descs, and_self]

theorem tget?_foldl_pages (ps : List (Nat × Page)) (t : Tbl Page) {x : Nat} {pg : Page} (hin : (x, pg) ∈ ps ∨ tget? t x = some pg)
    (honly : ∀ y ∈ ps, y.1 = x → y = (x, pg)) : tget? (ps.foldl (fun t p => tset t p.1 p.2) t) x = some pg := by
  induction ps generalizing t with
  | nil => exact hin.resolve_left List.not_mem_nil
  | cons p ps ih =>
    refine ih _ ?_ fun y hy => honly y (List.mem_cons_of_mem _ hy)
    by_cases hp : p.1 = x
    · rw [honly p List.mem_cons_self hp]
      exact .inr (tget?_tset_same _ _ _)
    · rw [tget?_tset_other _ _ _ _ (Ne.symm hp)]
      exact hin.imp_left fun h => (List.mem_cons.1 h).resolve_left fun he => hp (by rw [← he])

/-- A channel whose pages show live data again. -/
def restoredChan (ps : List (Nat × Page)) (c : Chan) : Chan := { c with pages := ps.foldl (fun t p => tset t p.1 p.2) c.pages }

/-- A state in which a window is closed. -/
def closedExam (slot : Nat) (e : Exam) (s : State) : State :=
  modNmu (fun m => { m with exams := m.exams.filter fun x => x.id != e.id }) (freeFrames e.frames (modChan slot (restoredChan e.saved) s))

theorem completes_examClose {d : Desc} {s u : State} {r : DescRec} {e : Exam} (h : Starts 0x09 d s r u)
    (he : u.nmu.exams.find? (fun e => e.id == fieldNat d.w2 0 16 && e.slot == d.slot.val) = some e) :
    Completes (.examClose d) s fun t => descOf r.id t = none ∧ (∀ x ∈ t.nmu.exams, x.id ≠ e.id) ∧
      (∀ f ∈ e.frames, ∀ a : Nat, a / pageBytes = f → memGet t.memory.fast a = 0) ∧
      ∀ (c : Chan) (x : Nat) (pg : Page), chanOf d.slot t = some c → (x, pg) ∈ e.saved → (∀ y ∈ e.saved, y.1 = x → y = (x, pg)) →
        tget? c.pages x = some pg := by
  have hexec : execExamClose d s = .next (startExamClose r u) := by rw [execExamClose, h.fetchWith]
  obtain rfl := h.desc.1
  have hstart : ∃ (hd : CardHead) (k : Nat) (ps : List Phase), startExamClose r u = writeCard hd k k ps (done r 0 (closedExam r.desc.slot e u)) := by
    unfold startExamClose
    simp only [he]
    exact ⟨_, _, _, rfl⟩
  obtain ⟨hd, k, ps, hstart⟩ := hstart
  rw [hstart] at hexec
  obtain ⟨hmem, hnmu, hslots, hdescs⟩ := writeCard_keeps hd k k ps (done r 0 (closedExam r.desc.slot e u))
  have hkeeps := endKeeps_finish r stDone 0 (BitVec.ofNat 64 0) (closedExam r.desc.slot e u)
  refine ⟨_, hexec, ?_, fun x hx => ?_, fun f hf a ha => ?_, fun c x pg hc hsaved honly => ?_⟩
  · rw [descOf_congr hdescs]
    exact descOf_eq_none_iff.2 fun x hx => (descs_finish hx).2
  · rw [hnmu, done, hkeeps.exams] at hx
    simpa using (List.mem_filter.1 hx).2
  · rw [hmem]
    exact hkeeps.zero a ((freeFrames_cases e.frames _ hf).1 a ha)
  · rw [chanOf_congr hslots] at hc
    obtain ⟨k', hk', hpages⟩ := hkeeps.pages c hc
    have hchan : chanOf r.desc.slot (closedExam r.desc.slot e u) = (chanOf r.desc.slot u).map (restoredChan e.saved) :=
      chanOf_modChan r.desc.slot (restoredChan e.saved) u
    rw [hchan, Option.map_eq_some_iff] at hk'
    obtain ⟨c₀, _, rfl⟩ := hk'
    rw [hpages]
    exact tget?_foldl_pages e.saved c₀.pages (.inl hsaved) honly

/-- Settles O41, clause by clause: each descriptor's checks passed, its start stores what it says and finishes. -/
theorem movesExportsAndExams : Obligations.MovesExportsAndExams := by
  unfold Obligations.MovesExportsAndExams
  refine ⟨?_, ?_, ?_, ?_, ?_, ?_, ?_⟩
  · intro d s r u w c raw h hc hfields hsrc hpoison head len n span hstream hplain hdst hover out f bytes hfwd
    exact completes_tensorMove h hc hfields hsrc hpoison rfl rfl hstream hplain hdst hover hfwd
  · intro d s r u c h hc sel sets bytes hregion hover
    exact completes_statsRead h hc rfl rfl hregion hover
  · intro d s r u h size e halign hsize hregion hslow hover hold
    exact completes_deltaExport_opened rfl (execDeltaExport_opens h halign hsize hregion hslow hover hold)
  · intro id s e r he hr hcommitted hopen x f hroom
    exact completes_exportAppend he hr hcommitted hopen rfl hroom
  · intro d s r u c h limit gs secs bs hregion hlast hslow hover hc hcan hbound
    exact completes_snapshot h rfl hregion hlast hslow hover hc hcan hbound
  · intro d s r u g i h hg hstep hheld hgather window
    exact completes_examOpen h hg hstep hheld hgather
  · intro d s r u e h he
    exact completes_examClose h he

end Sys2Proof.Machine
end

section
/-!
Runs, cores and engines (Machine/Runs.lean, Machine/Engines.lean): LESSON_RUN to its completion, the fencing of a core, and an engine's
contexts, queue and fencing.
-/

namespace Sys2Proof.Machine

/-! ## LESSON_RUN (R473) -/

/-- A measure noted in a channel's log. -/
def loggedChan (measure : List Byte) (k : Chan) : Chan :=
  if k.log.contains measure then k else { k with log := k.log ++ [measure], logDigest := shake256 32 (k.logDigest ++ measure) }

theorem loggedChan_cases (measure : List Byte) (k : Chan) : measure ∈ (loggedChan measure k).log ∧ (loggedChan measure k).seed = k.seed := by
  unfold loggedChan
  split
  · next h => exact ⟨by simpa using h, rfl⟩
  · exact ⟨List.mem_append_right _ (List.mem_singleton_self _), rfl⟩

/-- An expert page loaded, when a run loads it. -/
def loadPage (loads : Bool) (pg : ExpertPage) (s : State) : State := if loads then setPage pg s else s

/-- A run admitted: its page, its protection, its measure and its descriptor held. -/
def heldRun (r : DescRec) (loads : Bool) (pg : ExpertPage) (u : Run) (page : List (Nat × Nat)) (measure : List Byte) (w : State) : State :=
  holdAs r .run (modChan r.desc.slot (loggedChan measure) (protectFor r.group r.desc.slot (u.ins ++ page) (loadPage loads pg w)))

/-- A state with another run. -/
def addRun (u : Run) (s : State) : State := { s with runs := s.runs ++ [u] }

/-- The page that a run reads when it loads it. -/
def pageRead (loads : Bool) : List (Nat × Nat) := if loads then [(expertPageVa, pageBytes)] else []

theorem admitRun_eq {r : DescRec} {c : Chan} {u : Run} {measure : List Byte} {s w : State}
    (hfit : loadsPage r.desc.slot r.step s = true → pageFits r.desc.slot c (readExpertPage r.desc.slot r.step s) s = true)
    (hgap : ∀ e ∈ s.nmu.exams, e.slot = r.desc.slot.val → e.gap = false)
    (hfwd : forwardDesc r.group r.step r.desc.slot (u.ins ++ [(r.desc.w2.toNat, 64 + 8 * u.code.length + u.data.length)] ++
      pageRead (loadsPage r.desc.slot r.step s)) u.outs s = some w) :
    admitRun r c u measure s = beginReady (addRun u (heldRun r (loadsPage r.desc.slot r.step s) (readExpertPage r.desc.slot r.step s) u
      (pageRead (loadsPage r.desc.slot r.step s)) measure w)) := by
  have hpage : ¬ (loadsPage r.desc.slot r.step s && !pageFits r.desc.slot c (readExpertPage r.desc.slot r.step s) s) = true := by
    cases hl : loadsPage r.desc.slot r.step s with
    | false => simp
    | true => simp [hfit hl]
  have hexam : ¬ (s.nmu.exams.any fun e => e.slot == r.desc.slot.val && e.gap) = true := by
    rw [List.any_eq_true]
    rintro ⟨e, he, hbad⟩
    rw [Bool.and_eq_true, beq_iff_eq] at hbad
    rw [hgap e he hbad.1] at hbad
    exact absurd hbad.2 (by decide)
  rw [pageRead] at hfwd
  unfold admitRun
  simp only [hfwd]
  rw [if_neg hpage, if_neg hexam]
  unfold heldRun protectFor
  cases r.group <;> rfl

/-- What admitting a run leaves: memory, other runs, cores and the physical cores, with the descriptor held and the measure logged. -/
theorem heldRun_cases {r : DescRec} {loads : Bool} {pg : ExpertPage} {u : Run} {page : List (Nat × Nat)} {measure : List Byte} {s w : State} {c : Chan}
    (hw : storage w = storage s ∧ w.runs = s.runs ∧ w.flash = s.flash) (hc : chanOf r.desc.slot s = some c) :
    SameMemory s (heldRun r loads pg u page measure w) ∧ (heldRun r loads pg u page measure w).runs = s.runs ∧
      (heldRun r loads pg u page measure w).flash = s.flash ∧
      (∃ x : DescRec, descOf r.id (heldRun r loads pg u page measure w) = some x ∧ x.hold = .run) ∧
      ∃ k : Chan, chanOf r.desc.slot (heldRun r loads pg u page measure w) = some k ∧ measure ∈ k.log ∧ k.seed = c.seed := by
  obtain ⟨hstorage, hruns, hflash⟩ := hw
  let p := protectFor r.group r.desc.slot (u.ins ++ page) (loadPage loads pg w)
  have hp : storage p = storage w ∧ p.runs = w.runs ∧ p.flash = w.flash := by
    have hload : storage (loadPage loads pg w) = storage w ∧ (loadPage loads pg w).runs = w.runs ∧ (loadPage loads pg w).flash = w.flash := by
      unfold loadPage
      split <;> exact ⟨rfl, rfl, rfl⟩
    show storage (protectFor _ _ _ _) = _ ∧ (protectFor _ _ _ _).runs = _ ∧ (protectFor _ _ _ _).flash = _
    unfold protectFor
    split
    · exact hload
    · exact hload
  have heq : heldRun r loads pg u page measure w = holdAs r .run (modChan r.desc.slot (loggedChan measure) p) := rfl
  rw [heq]
  clear_value p
  obtain ⟨hpstorage, hpruns, hpflash⟩ := hp
  have hslot := (onlySlot_modChan r.desc.slot (loggedChan measure) p).1
  obtain ⟨ds, hds⟩ := holdAs_eq r .run (modChan r.desc.slot (loggedChan measure) p)
  have hmem : SameMemory s p := sameMemory_of_storage (hpstorage.trans hstorage)
  have hslots : p.slots = s.slots := congrArg Prod.fst (hpstorage.trans hstorage)
  refine ⟨hmem.trans ?_, ?_, ?_, ⟨_, descOf_holdAs _ _ _, rfl⟩, loggedChan measure c, ?_, (loggedChan_cases measure c).1, (loggedChan_cases measure c).2⟩
  · rw [hds]
    exact ⟨memory_modChan _ _ _, congrArg PortSt.mem (portOf_modChan .A _ _ _), congrArg PortSt.mem (portOf_modChan .B _ _ _)⟩
  · rw [hds]
    exact (congrArg State.runs hslot :).trans (hpruns.trans hruns)
  · rw [hds]
    exact (congrArg State.flash hslot :).trans (hpflash.trans hflash)
  · rw [hds]
    exact chanOf_modChan_some (loggedChan measure) ((chanOf_congr hslots _).trans hc)

/-! ### The cores of a run that begins -/

/-- A state in which a core starts its part of a run. -/
def startCore (u : Run) (seed : Word) (s : State) (x : Nat × Nat) : State :=
  { s with cores := tset s.cores x.1 (startedCore u x.1 x.2 seed s.time.ticks) }

theorem coreOf_foldl_startCore (u : Run) (seed : Word) (xs : List (Nat × Nat)) (s : State) (a : Nat) :
    ((∃ i : Nat, (a, i) ∈ xs) → ∃ i : Nat, coreOf a (xs.foldl (startCore u seed) s) = startedCore u a i seed s.time.ticks) ∧
    ((∀ i : Nat, (a, i) ∉ xs) → coreOf a (xs.foldl (startCore u seed) s) = coreOf a s) := by
  induction xs generalizing s with
  | nil => exact ⟨fun ⟨_, h⟩ => absurd h List.not_mem_nil, fun _ => rfl⟩
  | cons x xs ih =>
    obtain ⟨hin, hout⟩ := ih (startCore u seed s x)
    have hone : coreOf a (startCore u seed s x) = if a = x.1 then startedCore u x.1 x.2 seed s.time.ticks else coreOf a s := by
      by_cases ha : a = x.1
      · rw [if_pos ha, ha]
        exact tgetD_tset_same _ _ _ _
      · rw [if_neg ha]
        exact tgetD_tset_other _ _ _ _ _ ha
    refine ⟨fun ⟨i, hi⟩ => ?_, fun hno => ?_⟩
    · by_cases hrest : ∃ i : Nat, (a, i) ∈ xs
      · exact hin hrest
      · have hno : ∀ i : Nat, (a, i) ∉ xs := fun i h => hrest ⟨i, h⟩
        have hx : (a, i) = x := (List.mem_cons.1 hi).resolve_right (hno i)
        subst hx
        exact ⟨i, (hout hno).trans (hone.trans (if_pos rfl))⟩
    · have hne : a ≠ x.1 := fun h => hno x.2 (by rw [h]; exact List.mem_cons_self ..)
      rw [List.foldl_cons, hout fun i h => hno i (List.mem_cons_of_mem _ h), hone, if_neg hne]

theorem beginRun_eq (u : Run) (s : State) : beginRun u s =
    u.cores.zipIdx.foldl (startCore u (((chanOf u.slot s).map fun c => c.seed).getD 0))
      (modRun u.id (fun r => { r with begun := true, startedAt := now s }) s) := rfl

theorem coreOf_beginRun {u : Run} {a : Nat} (s : State) (ha : a ∈ u.cores) : ∃ i : Nat,
    coreOf a (beginRun u s) = startedCore u a i (((chanOf u.slot s).map fun c => c.seed).getD 0) s.time.ticks := by
  rw [beginRun_eq]
  refine (coreOf_foldl_startCore u _ u.cores.zipIdx _ a).1 ?_
  obtain ⟨i, hi, rfl⟩ := List.getElem_of_mem ha
  exact ⟨i, List.mk_mem_zipIdx_iff_getElem?.2 (List.getElem?_eq_getElem hi)⟩

/-- A run's record but for when it began. -/
def besideBegin (u : Run) : Run := { u with begun := false, startedAt := 0 }

theorem runs_beginRun (u : Run) (s : State) : ∃ f : Run → Run, (∀ x, besideBegin (f x) = besideBegin x) ∧ (beginRun u s).runs = s.runs.map f := by
  refine ⟨fun x => if x.id == u.id then { x with begun := true, startedAt := now s } else x, fun x => ?_, ?_⟩
  · dsimp only
    split <;> rfl
  · have hfold (xs : List (Nat × Nat)) (seed : Word) (v : State) : (xs.foldl (startCore u seed) v).runs = v.runs := by
      induction xs generalizing v with
      | nil => rfl
      | cons x xs ih => exact (ih _).trans rfl
    rw [beginRun_eq, hfold]
    rfl

theorem runs_beginReady (s : State) : ∃ f : Run → Run, (∀ x, besideBegin (f x) = besideBegin x) ∧ (beginReady s).runs = s.runs.map f := by
  have hfold (us : List Run) (v : State) : ∃ f : Run → Run, (∀ x, besideBegin (f x) = besideBegin x) ∧
      (us.foldl (fun s u => beginRun u s) v).runs = v.runs.map f := by
    induction us generalizing v with
    | nil => exact ⟨id, fun _ => rfl, (List.map_id _).symm⟩
    | cons u us ih =>
      obtain ⟨f, hf, hruns⟩ := ih (beginRun u v)
      obtain ⟨g, hg, hruns'⟩ := runs_beginRun u v
      refine ⟨f ∘ g, fun x => (hf _).trans (hg x), ?_⟩
      rw [List.foldl_cons, hruns, hruns', List.map_map]
  exact hfold _ s

/-- A run that is the last to have come and whose cores no other run holds or needs begins with them. -/
theorem beginReady_last {u : Run} {s : State} {a : Nat} {c : Chan} (hbegun : u.begun = false)
    (hfree : ∀ v ∈ s.runs, ∀ a ∈ v.cores, ∀ b ∈ u.cores, a ≠ b ∧ physOf a s ≠ physOf b s) (hc : chanOf u.slot s = some c) (ha : a ∈ u.cores) :
    ∃ i : Nat, coreOf a (beginReady (addRun u s)) = startedCore u a i c.seed s.time.ticks := by
  have htaken : coresTaken u (addRun u s) = false := by
    rw [coresTaken, List.any_eq_false]
    intro v hv
    rw [Bool.and_eq_true, decide_eq_true_eq]
    rintro ⟨hid, hmeet⟩
    rcases List.mem_append.1 hv with hv | hv
    · obtain ⟨x, hx, hmeet⟩ := List.any_eq_true.1 hmeet
      obtain ⟨y, hy, hphys⟩ := List.any_eq_true.1 hmeet
      exact (hfree v hv x hx y hy).2 (beq_iff_eq.1 hphys)
    · rw [List.mem_singleton.1 hv] at hid
      exact absurd hid (Nat.lt_irrefl _)
  have hsplit : (addRun u s).runs.filter (fun v => !v.begun && !coresTaken v (addRun u s)) =
      s.runs.filter (fun v => !v.begun && !coresTaken v (addRun u s)) ++ [u] := by
    show (s.runs ++ [u]).filter _ = _
    rw [List.filter_append]
    congr 1
    rw [List.filter_cons, if_pos (by rw [hbegun, htaken]; rfl), List.filter_nil]
  rw [beginReady, hsplit, List.foldl_append, List.foldl_cons, List.foldl_nil]
  generalize (s.runs.filter (fun v => !v.begun && !coresTaken v (addRun u s))) = vs
  have hrest := besideRuns_foldl (fun t u => besideRuns_beginRun u t) vs (addRun u s)
  generalize vs.foldl (fun s u => beginRun u s) (addRun u s) = v at *
  have hslots : v.slots = s.slots := (congrArg State.slots hrest :)
  have htime : v.time = s.time := (congrArg State.time hrest :)
  obtain ⟨i, hi⟩ := coreOf_beginRun v ha
  rw [chanOf_congr hslots, hc, htime] at hi
  exact ⟨i, hi⟩

/-- The run that a LESSON_RUN makes. -/
def lessonRun (r : DescRec) (cores : List Nat) (cw db desk : Nat) (u : State) : Run :=
  { id := r.id, desc := r.id, slot := r.desc.slot, cores := cores, entry := fieldNat r.desc.w3 0 32
    code := wordsOf (vaRead r.desc.slot (r.desc.w2.toNat + 64) (8 * cw) u), dataDesk := desk
    data := vaRead r.desc.slot (r.desc.w2.toNat + 64 + 8 * cw) db u
    args := wordsOf (vaRead r.desc.slot r.desc.w4.toNat (8 * fieldNat r.desc.w5 0 6) u)
    ins := (regionList r.desc.slot r.desc.w6.toNat (fieldNat r.desc.w7 0 16 + fieldNat r.desc.w7 16 16) u).take (fieldNat r.desc.w7 0 16)
    outs := (regionList r.desc.slot r.desc.w6.toNat (fieldNat r.desc.w7 0 16 + fieldNat r.desc.w7 16 16) u).drop (fieldNat r.desc.w7 0 16)
    group := r.group, step := r.step }

/-- The checks of a LESSON_RUN passed: its regions, its image's header, its code and its data (R30, R157, R158). -/
structure RunChecks (d : Desc) (c : Chan) (cores : List Nat) (cw db desk : Nat) (u : State) : Prop where
  chan : chanOf d.slot u = some c
  cores : runCores d c = some cores
  args : fieldNat d.w5 0 6 ≤ 32
  base : regionsFault d.slot [(d.w4.toNat, 8 * fieldNat d.w5 0 6, false),
    (d.w6.toNat, 16 * (fieldNat d.w7 0 16 + fieldNat d.w7 16 16), false)] u = none
  regions : regionsFault d.slot ((regionList d.slot d.w6.toNat (fieldNat d.w7 0 16 + fieldNat d.w7 16 16) u).zipIdx.map
    fun x => (x.1.1, x.1.2, decide (fieldNat d.w7 0 16 ≤ x.2))) u = none
  aligned : d.w2.toNat % 64 = 0
  header : regionFault d.slot d.w2.toNat 64 false u = none
  clean : poisonAmong d.slot [(d.w4.toNat, 8 * fieldNat d.w5 0 6), (d.w6.toNat, 16 * (fieldNat d.w7 0 16 + fieldNat d.w7 16 16)),
    (d.w2.toNat, 64)] u = none
  image : imageHeader (vaRead d.slot d.w2.toNat 64 u) = some (cw, db, desk)
  entry : fieldNat d.w3 0 32 < cw
  body : regionFault d.slot d.w2.toNat (64 + 8 * cw + db) false u = none
  bodyClean : poisonVa d.slot d.w2.toNat (64 + 8 * cw + db) u = none
  measure : shake256 32 (vaRead d.slot (d.w2.toNat + 64) (8 * cw) u ++ vaRead d.slot (d.w2.toNat + 64 + 8 * cw) db u) =
    (vaRead d.slot d.w2.toNat 64 u).drop 32
  words : firstBadWord (wordsOf (vaRead d.slot (d.w2.toNat + 64) (8 * cw) u)) = none

theorem startLesson_admits {r : DescRec} {c : Chan} {cores : List Nat} {cw db desk : Nat} {u : State} (h : RunChecks r.desc c cores cw db desk u) :
    startLesson r u = admitRun r c (lessonRun r cores cw db desk u) ((vaRead r.desc.slot r.desc.w2.toNat 64 u).drop 32) u := by
  have haligned : ¬ (r.desc.w2.toNat % 64 != 0) = true := by simp [h.aligned]
  have hmeasure : ¬ (shake256 32 (vaRead r.desc.slot (r.desc.w2.toNat + 64) (8 * cw) u ++ vaRead r.desc.slot (r.desc.w2.toNat + 64 + 8 * cw) db u) !=
      (vaRead r.desc.slot r.desc.w2.toNat 64 u).drop 32) = true := by simp [h.measure]
  unfold startLesson
  simp only [h.chan, h.cores, h.base, h.regions, h.header, h.clean, h.image, h.body, h.bodyClean, h.words]
  rw [if_neg (Nat.not_lt.2 h.args), if_neg haligned, if_neg (Nat.not_le.2 h.entry), if_neg hmeasure]
  rfl

theorem forwardDesc_keeps {g : Option Nat} {step : Option Word} {slot : Nat} {ins outs : List (Nat × Nat)} {s t : State}
    (h : forwardDesc g step slot ins outs s = some t) : { t with groups := s.groups } = s := by
  unfold forwardDesc at h
  split at h
  · extract_lets s₁ f n at h
    split at h
    · split at h
      · exact (Option.some.inj h) ▸ rfl
      · split at h
        · exact absurd h nofun
        · exact (Option.some.inj h) ▸ rfl
    · exact (Option.some.inj h) ▸ rfl
  · exact (Option.some.inj h) ▸ rfl

theorem completes_lessonRun {d : Desc} {s u w : State} {r : DescRec} {c : Chan} {cores : List Nat} {cw db desk : Nat} (h : Starts 0x01 d s r u)
    (hchecks : RunChecks d c cores cw db desk u)
    (hfit : loadsPage d.slot r.step u = true → pageFits d.slot c (readExpertPage d.slot r.step u) u = true)
    (hgap : ∀ e ∈ u.nmu.exams, e.slot = d.slot.val → e.gap = false)
    (hfwd : forwardDesc r.group r.step d.slot ((lessonRun r cores cw db desk u).ins ++
      [(d.w2.toNat, 64 + 8 * (lessonRun r cores cw db desk u).code.length + (lessonRun r cores cw db desk u).data.length)] ++
      pageRead (loadsPage d.slot r.step u)) (lessonRun r cores cw db desk u).outs u = some w) :
    Completes (.lessonRun d) s fun t => (∃ x : DescRec, descOf r.id t = some x ∧ x.hold = .run) ∧
      (∃ k : Chan, chanOf d.slot t = some k ∧ (vaRead d.slot d.w2.toNat 64 u).drop 32 ∈ k.log) ∧ SameMemory s t ∧
      (∃ x ∈ t.runs, besideBegin x = lessonRun r cores cw db desk u) ∧
      ((∀ v ∈ u.runs, v.id ≠ r.id ∧ ∀ a ∈ v.cores, ∀ b ∈ cores, a ≠ b ∧ physOf a u ≠ physOf b u) → ∀ a ∈ cores, ∃ i ticks : Nat,
        coreOf a t = startedCore (lessonRun r cores cw db desk u) a i c.seed ticks) := by
  have hexec : execLessonRun d s = .next (startLesson r u) := by rw [execLessonRun, h.fetchWith]
  have hsu : SameMemory s u := by
    obtain ⟨_, _, _, _, _, rfl, _⟩ := h.1
    have hframe := noteFetch_frame r s
    exact ⟨(congrArg State.memory hframe :), (congrArg (fun x : State => x.portA.mem) hframe :), (congrArg (fun x : State => x.portB.mem) hframe :)⟩
  obtain rfl := h.desc.1
  have hw := forwardDesc_keeps hfwd
  have hkeep : storage w = storage u ∧ w.runs = u.runs ∧ w.flash = u.flash :=
    ⟨storage_forwardDesc hfwd, (congrArg State.runs hw :), (congrArg State.flash hw :)⟩
  rw [startLesson_admits hchecks, admitRun_eq hfit hgap hfwd] at hexec
  obtain ⟨hmem, hruns, hflash, ⟨x, hx, hhold⟩, k, hk, hlog, hseed⟩ := heldRun_cases (loads := loadsPage r.desc.slot r.step u)
    (pg := readExpertPage r.desc.slot r.step u) (u := lessonRun r cores cw db desk u) (page := pageRead (loadsPage r.desc.slot r.step u))
    (measure := (vaRead r.desc.slot r.desc.w2.toNat 64 u).drop 32) hkeep hchecks.chan
  refine ⟨_, hexec, ?_⟩
  generalize heldRun r (loadsPage r.desc.slot r.step u) (readExpertPage r.desc.slot r.step u) (lessonRun r cores cw db desk u)
    (pageRead (loadsPage r.desc.slot r.step u)) ((vaRead r.desc.slot r.desc.w2.toNat 64 u).drop 32) w = v at *
  have hbeside := besideRuns_beginReady (addRun (lessonRun r cores cw db desk u) v)
  refine ⟨⟨x, ?_, hhold⟩, ⟨k, ?_, hlog⟩, (hsu.trans hmem).trans ?_, ?_, fun hfree a ha => ?_⟩
  · rw [descOf_congr (descs_beginReady _)]
    exact hx
  · rw [chanOf_congr (slots_beginReady _)]
    exact hk
  · exact ⟨(congrArg State.memory hbeside :), (congrArg (fun x : State => x.portA.mem) hbeside :), (congrArg (fun x : State => x.portB.mem) hbeside :)⟩
  · obtain ⟨f, hf, hmap⟩ := runs_beginReady (addRun (lessonRun r cores cw db desk u) v)
    refine ⟨f (lessonRun r cores cw db desk u), ?_, hf _⟩
    rw [hmap]
    exact List.mem_map_of_mem (List.mem_append_right _ (List.mem_singleton_self _))
  · have hphys (b : Nat) : physOf b v = physOf b u := by rw [physOf, physOf, hflash]
    obtain ⟨i, hi⟩ := beginReady_last (u := lessonRun r cores cw db desk u) (s := v) (a := a) rfl (fun y hy p hp q hq => by
      rw [hphys, hphys]
      exact (hfree y (hruns ▸ hy)).2 p hp q hq) hk ha
    rw [hseed] at hi
    exact ⟨i, _, hi⟩

/-! ## LESSON_RUN_COMPLETE (R159) -/

/-- A state without what a run that completes counts and marks: its channel, counts, groups and the card. -/
def besideCounts (s : State) : State := { s with slots := [], stats := [], groups := [], card := {} }

theorem besideCounts_modChan (i : Nat) (f : Chan → Chan) (s : State) : besideCounts (modChan i f s) = besideCounts s := by
  unfold modChan
  split <;> rfl

/-- One record of counts merged into its channel's set. -/
def mergeCount (u : Run) (s : State) (x : Nat × Counts) : State :=
  let upd (z : StatSet) : StatSet := { z with
    merged := addCounts z.merged x.2
    step := if u.step.isSome then addCounts z.step x.2 else z.step }
  if s.stats.any fun z => z.slot == u.slot && z.tag == x.1 then
    { s with stats := mapIf (fun z => z.slot == u.slot && z.tag == x.1) upd s.stats }
  else if s.stats.length < 16384 then { s with stats := s.stats ++ [upd { slot := u.slot, tag := x.1 }] }
  else raiseEvent 0x15 [x.2.elements] (modChan u.slot (fun k => { k with tsuFull := k.tsuFull + x.2.elements }) s)

theorem besideCounts_mergeCounts (u : Run) (s : State) : besideCounts (mergeCounts u s) = besideCounts s := by
  have hone (v : State) (x : Nat × Counts) : besideCounts (mergeCount u v x) = besideCounts v := by
    unfold mergeCount
    extract_lets upd
    split
    · rfl
    · split
      · rfl
      · exact besideCounts_modChan _ _ v
  have hfold (xs : List (Nat × Counts)) (v : State) : besideCounts (xs.foldl (mergeCount u) v) = besideCounts v := by
    induction xs generalizing v with
    | nil => rfl
    | cons x xs ih => exact (ih _).trans (hone v x)
  exact hfold u.stats s

theorem besideCounts_noteRunEnd (u : Run) (s : State) : besideCounts (noteRunEnd u s) = besideCounts s := by
  unfold noteRunEnd
  split <;> rfl

/-- The cores of a run that hold it no more. -/
def leaveCores (cs : List Nat) (s : State) : State := cs.foldl (fun s c => modCore c (fun k => { k with run := none }) s) s

theorem leaveCores_cases (cs : List Nat) (s : State) : { leaveCores cs s with cores := s.cores } = s ∧
    ∀ c : Nat, (c ∈ cs ∨ (coreOf c s).run = none) → (coreOf c (leaveCores cs s)).run = none := by
  induction cs generalizing s with
  | nil => exact ⟨rfl, fun c hc => hc.resolve_left List.not_mem_nil⟩
  | cons d cs ih =>
    obtain ⟨hrest, hrun⟩ := ih (modCore d (fun k => { k with run := none }) s)
    refine ⟨(congrArg (fun u : State => { u with cores := s.cores }) hrest :), fun c hc => hrun c ?_⟩
    by_cases hcd : c = d
    · refine .inr ?_
      rw [hcd, coreOf_modCore]
    · rw [coreOf_modCore_other _ _ _ _ hcd]
      exact hc.imp_left fun h => (List.mem_cons.1 h).resolve_left hcd

/-- A state whose run is over: its counts merged, its cores free, its record gone. -/
def endedRun (u : Run) (s : State) : State :=
  let t := leaveCores u.cores (cardRun u (runFlags u s) (noteRunEnd u (mergeCounts u s)))
  { t with runs := t.runs.filter fun x => x.id != u.id }

theorem endedRun_cases (u : Run) (s : State) : SameMemory s (endedRun u s) ∧ (endedRun u s).descs = s.descs ∧
    (∀ x ∈ (endedRun u s).runs, x.id ≠ u.id) ∧ ∀ c ∈ u.cores, (coreOf c (endedRun u s)).run = none := by
  have hcounts : besideCounts (cardRun u (runFlags u s) (noteRunEnd u (mergeCounts u s))) = besideCounts s := by
    have hcard (f : BitVec 7) (v : State) : besideCounts (cardRun u f v) = besideCounts v := rfl
    rw [hcard, besideCounts_noteRunEnd, besideCounts_mergeCounts]
  unfold endedRun
  generalize cardRun u (runFlags u s) (noteRunEnd u (mergeCounts u s)) = v at *
  obtain ⟨hrest, hcores⟩ := leaveCores_cases u.cores v
  refine ⟨⟨?_, ?_, ?_⟩, ?_, fun x hx => bne_iff_ne.1 (List.mem_filter.1 hx).2, fun c hc => hcores c (.inl hc)⟩
  · exact (congrArg State.memory hrest :).trans (congrArg State.memory hcounts :)
  · exact (congrArg (fun x : State => x.portA.mem) hrest :).trans (congrArg (fun x : State => x.portA.mem) hcounts :)
  · exact (congrArg (fun x : State => x.portB.mem) hrest :).trans (congrArg (fun x : State => x.portB.mem) hcounts :)
  · exact (congrArg State.descs hrest :).trans (congrArg State.descs hcounts :)

theorem runOutcome_cases (u : Run) (s : State) : (∀ x, u.stop = some x → runOutcome u s = x) ∧
    (u.stop = none → flagged (runFlags u s) = true → runOutcome u s = (stFlagged, (runFlags u s).setWidth 16, flaggedResult u s)) ∧
    (u.stop = none → flagged (runFlags u s) = false → runOutcome u s = (if u.rerun then stReplayed else stDone, 0, 0)) := by
  unfold runOutcome
  refine ⟨fun x hx => by simp only [hx], fun hstop hflag => by simp only [hstop, hflag, if_true], fun hstop hflag => ?_⟩
  simp only [hstop, hflag, Bool.false_eq_true, if_false]

theorem completes_lessonRunComplete {n : Nat} {s : State} {u : Run} {r : DescRec} (hu : runOf n s = some u) (hbegun : u.begun = true)
    (hcores : ∀ c ∈ u.cores, coreFinished u.stop.isSome (coreOf c s) = true) (hr : descOf u.desc s = some r) :
    Completes (.lessonRunComplete n) s fun t => ∃ (v : State) (st : BitVec 8) (det : BitVec 16) (res : Word),
      t = beginReady (finish r st det res v) ∧ (∀ x ∈ v.runs, x.id ≠ n) ∧ (∀ c ∈ u.cores, (coreOf c v).run = none) ∧ SameMemory s v ∧
      (∀ x, u.stop = some x → (st, det, res) = x) ∧
      (u.stop = none → flagged (runFlags u s) = true → (st, det, res) = (stFlagged, (runFlags u s).setWidth 16, flaggedResult u s)) ∧
      (u.stop = none → flagged (runFlags u s) = false → (st, det, res) = (if u.rerun then stReplayed else stDone, 0, 0)) := by
  have hid : u.id = n := by simpa using List.find?_some hu
  obtain ⟨hmem, hdescs, hruns, hfree⟩ := endedRun_cases u s
  have hdone : (u.begun && u.cores.all fun c => coreFinished u.stop.isSome (coreOf c s)) = true := by
    rw [hbegun, Bool.true_and, List.all_eq_true]
    exact hcores
  have hdesc : descOf u.desc (endedRun u s) = some r := (descOf_congr hdescs _).trans hr
  have hexec : execLessonRunComplete n s = .next (beginReady (finish r (runOutcome u s).1 (runOutcome u s).2.1 (runOutcome u s).2.2 (endedRun u s))) := by
    have hend : execLessonRunComplete n s = .next (beginReady (match descOf u.desc (endedRun u s) with
        | some r => finish r (runOutcome u s).1 (runOutcome u s).2.1 (runOutcome u s).2.2 (endedRun u s)
        | none => endedRun u s)) := by
      simp only [execLessonRunComplete, hu]
      rw [if_pos hdone]
      rfl
    rw [hend, hdesc]
  exact ⟨_, hexec, endedRun u s, _, _, _, rfl, hid ▸ hruns, hfree, hmem, runOutcome_cases u s⟩

/-! ## Fencing a core (R362, R363) -/

/-- A state without what rerunning or stopping a run may change. -/
def besideWork (s : State) : State :=
  { s with cores := [], runs := [], engines := [], memory := {}, portA := { s.portA with mem := [] }, portB := { s.portB with mem := [] }, free := 0 }

theorem besideWork_foldl {α : Type} {f : State → α → State} (h : ∀ s x, besideWork (f s x) = besideWork s) (xs : List α) (s : State) :
    besideWork (xs.foldl f s) = besideWork s := by
  induction xs generalizing s with
  | nil => rfl
  | cons x xs ih => exact (ih _).trans (h s x)

theorem besideWork_modCore (c : Nat) (f : Core → Core) (s : State) : besideWork (modCore c f s) = besideWork s := rfl

theorem besideWork_haltCores (cs : List Nat) (s : State) : besideWork (cs.foldl (fun s c => modCore c haltStopped s) s) = besideWork s :=
  besideWork_foldl (fun v c => besideWork_modCore c haltStopped v) cs s

theorem besideWork_dropWork (c : Nat) (s : State) : besideWork (dropWork c s) = besideWork s := by
  have hstreams : besideWork (dropStreams c s) = besideWork s := by
    unfold dropStreams
    refine besideWork_foldl (fun u o => ?_) _ s
    split <;> rfl
  exact (besideWork_modCore c _ (dropStreams c s)).trans hstreams

theorem besideWork_stopRun (r : Nat) (status : BitVec 8) (detail : BitVec 16) (result0 : Word) (s : State) :
    besideWork (stopRun r status detail result0 s) = besideWork s := by
  unfold stopRun
  split
  · rfl
  · exact (besideWork_haltCores _ _).trans rfl

theorem besideWork_vaWrite (slot va : Nat) (bs : List Byte) (s : State) : besideWork (vaWrite slot va bs s) = besideWork s := by
  have hmem := congrArg besideWork (besideMemory_vaWrite slot va bs s)
  exact hmem

theorem besideWork_drawFree (n : Nat) (s : State) : besideWork (drawFree n s) = besideWork s := rfl

theorem besideWork_rerunRun (u : Run) (s : State) : besideWork (rerunRun u s) = besideWork s := by
  unfold rerunRun
  extract_lets s₁ v
  have hs₁ : besideWork s₁ = besideWork s := besideWork_foldl (fun w c => besideWork_dropWork c w) u.cores s
  have hspoil : besideWork (spoilOutputs u s₁) = besideWork s₁ := by
    have hone (w : State) (r : Nat × Nat) : besideWork (drawFree r.2 (vaWrite u.slot r.1 (freeBytes r.2 w) w)) = besideWork w :=
      (besideWork_drawFree _ _).trans (besideWork_vaWrite _ _ _ w)
    exact besideWork_foldl hone u.outs s₁
  have hbegin : besideWork (beginRun v (modRun u.id (fun _ => v) s₁)) = besideWork s₁ := by
    have hruns := congrArg besideWork (besideRuns_beginRun v (modRun u.id (fun _ => v) s₁))
    exact hruns
  split
  · exact (besideWork_haltCores _ s₁).trans hs₁
  · split
    · exact hbegin.trans hs₁
    · exact ((besideWork_stopRun _ _ _ _ _).trans hspoil).trans hs₁

/-- A slot of the flash's table of cores marked suspect. -/
def suspectSlot (p : Nat) (f : FlashSt) : FlashSt := { f with coreStatus := tset f.coreStatus p 1, rewrites := f.rewrites + 1 }

/-- A logical number passed to a substitute. -/
def passCore (c q : Nat) (f : FlashSt) : FlashSt := { f with physOf := tset f.physOf c q, rewrites := f.rewrites + 1 }

theorem substituteFor_suspect {c p : Nat} {s : State} (hphys : tget? s.flash.physOf c = some p) :
    substituteFor p (modFlash (suspectSlot p) s) = substituteFor p s := by
  have hused : (s.flash.physOf.any fun x => x.2 == p) = true := List.any_eq_true.2 ⟨_, mem_of_tget? hphys, beq_self_eq_true _⟩
  have hfree : freeSubstitutes (modFlash (suspectSlot p) s) = freeSubstitutes s := by
    refine List.filter_congr fun x _ => ?_
    show (tgetD (tset s.flash.coreStatus p 1) x 0 == 0 && !(s.flash.physOf.any fun y => y.2 == x)) = _
    by_cases hx : x = p
    · rw [hx, hused]
      simp
    · rw [tgetD_tset_other _ _ _ _ _ hx]
  rw [substituteFor, substituteFor, hfree]

theorem fenceCore_cases {c p q : Nat} {s : State} (hphys : tget? s.flash.physOf c = some p) (hgood : tgetD s.flash.coreStatus p 0 = 0)
    (hone : (s.flash.physOf.filter fun x => x.2 == p).map Prod.fst = [c]) (hsub : substituteFor p s = some q) :
    ∃ args : List Nat, fenceCore c s = (s.runs.filter fun u => u.begun && u.cores.any fun d => [c].contains d).foldl (fun s u => rerunRun u s)
      (raiseEvent 0x60 args (modFlash (passCore c q) (modFlash (suspectSlot p) s))) := by
  have hsub' : substituteFor p (modFlash (suspectSlot p) s) = some q := (substituteFor_suspect hphys).trans hsub
  have hreassign : reassign c p (modFlash (suspectSlot p) s) = modFlash (passCore c q) (modFlash (suspectSlot p) s) := by
    rw [reassign, hsub']
    rfl
  refine ⟨[c, p, 0, enabledCores (modFlash (passCore c q) (modFlash (suspectSlot p) s))], ?_⟩
  rw [← hreassign, fenceCore, hphys]
  dsimp only
  rw [if_pos (beq_iff_eq.2 hgood), fenceSlot, hone]
  rfl

theorem completes_fenceCore {c p q : Nat} {s : State} {i : Instr} (hphys : tget? s.flash.physOf c = some p)
    (hgood : tgetD s.flash.coreStatus p 0 = 0) (hone : (s.flash.physOf.filter fun x => x.2 == p).map Prod.fst = [c])
    (hsub : substituteFor p s = some q) (hexec : exec i s = .next (fenceCore c s)) :
    Completes i s fun t => tgetD t.flash.coreStatus p 0 = 1 ∧ tget? t.flash.physOf c = some q ∧
      (∀ d : Nat, d ≠ c → tget? t.flash.physOf d = tget? s.flash.physOf d) ∧ (∃ e ∈ t.card.events, e.code = 0x60) ∧
      ((∀ u ∈ s.runs, u.begun = true → c ∉ u.cores) → OnlyFlags s { t with flash := s.flash }) := by
  obtain ⟨args, hfence⟩ := fenceCore_cases hphys hgood hone hsub
  rw [hfence] at hexec
  have hrest (us : List Run) (v : State) := besideWork_foldl (fun w u => besideWork_rerunRun u w) us v
  have hrest := hrest (s.runs.filter fun u => u.begun && u.cores.any fun d => [c].contains d)
    (raiseEvent 0x60 args (modFlash (passCore c q) (modFlash (suspectSlot p) s)))
  have hflash := congrArg State.flash hrest
  have hcard := congrArg State.card hrest
  refine ⟨_, hexec, ?_, ?_, fun d hd => ?_, ?_, fun hnone => ?_⟩
  · refine (congrArg (fun f : FlashSt => tgetD f.coreStatus p 0) hflash).trans ?_
    exact tgetD_tset_same _ _ _ _
  · refine (congrArg (fun f : FlashSt => tget? f.physOf c) hflash).trans ?_
    exact tget?_tset_same _ _ _
  · refine (congrArg (fun f : FlashSt => tget? f.physOf d) hflash).trans ?_
    exact tget?_tset_other _ _ _ _ hd
  · exact ⟨_, (congrArg (fun k : CardSt => _ ∈ k.events) hcard).mpr (List.mem_append_right _ (List.mem_singleton_self _)), rfl⟩
  · have hhit : (s.runs.filter fun u => u.begun && u.cores.any fun d => [c].contains d) = [] := by
      refine List.filter_eq_nil_iff.2 fun u hu hbad => ?_
      rw [Bool.and_eq_true, List.any_eq_true] at hbad
      obtain ⟨hbegun, d, hd, hdc⟩ := hbad
      rw [List.contains_iff_mem, List.mem_singleton] at hdc
      exact hnone u hu hbegun (hdc ▸ hd)
    rw [hhit]
    rfl

/-! ## Engines (R273, R291, R293) -/

theorem completes_modEngine {e : Fin 28} {i : Instr} {s : State} {f : Engine → Engine} {x : Engine} (hexec : exec i s = .next (modEngine e f s))
    (hx : f (engineOf e s) = x) : Completes i s fun t => { t with engines := s.engines } = s ∧
      (∀ j : Nat, j ≠ e.val → engineOf j t = engineOf j s) ∧ engineOf e t = x :=
  ⟨_, hexec, rfl, fun _ hj => engineOf_modEngine_other _ _ _ _ hj, (engineOf_modEngine _ _ _).trans hx⟩

/-- An engine as it is fenced. -/
def fencedEngine (x : Engine) : Engine := { x with fenced := true, open' := [], waiting := [], queue := 0, heldBytes := [] }

theorem leastLoaded_open {es : List Nat} {s : State} {e : Nat} (h : leastLoaded es s = some e) : (engineOf e s).fenced = false := by
  have hfold (xs : List Nat) (b : Nat) : xs.foldl (fun b x => if engineLoad x s < engineLoad b s then x else b) b ∈ b :: xs := by
    induction xs generalizing b with
    | nil => exact List.mem_singleton_self b
    | cons x xs ih =>
      rw [List.foldl_cons]
      rcases List.mem_cons.1 (ih (if engineLoad x s < engineLoad b s then x else b)) with hb | hxs
      · rw [hb]
        split
        · exact List.mem_cons_of_mem _ (List.mem_cons_self ..)
        · exact List.mem_cons_self ..
      · exact List.mem_cons_of_mem _ (List.mem_cons_of_mem _ hxs)
  unfold leastLoaded at h
  split at h
  · exact absurd h nofun
  · next b xs hfilter =>
    have hmem := hfold xs b
    rw [← hfilter, Option.some.inj h] at hmem
    simpa using (List.mem_filter.1 hmem).2

theorem moveStream_cases (src id : Nat) {e : Nat} {s : State} (he : (engineOf e s).fenced = true) :
    SameMemory s (moveStream src id s) ∧ engineOf e (moveStream src id s) = engineOf e s := by
  unfold moveStream
  extract_lets pool
  split
  · exact ⟨SameMemory.refl s, rfl⟩
  · next f hf =>
    have hne : e ≠ f := by
      rintro rfl
      rw [leastLoaded_open hf] at he
      exact absurd he (by decide)
    have hother : engineOf e (openStream f id s) = engineOf e s := engineOf_modEngine_other f e _ s hne
    exact ⟨⟨rfl, rfl, rfl⟩, hother⟩

theorem completes_engineFence {e : Fin 28} {s : State} (hopen : (engineOf e s).fenced = false) :
    Completes (.engineFence e) s fun t => (engineOf e t).fenced = true ∧ (engineOf e t).open' = [] ∧
      (engineOf e t).waiting = [] ∧ (engineOf e t).heldBytes = [] ∧ SameMemory s t ∧
      ((engineOf e s).open' = [] → (engineOf e s).waiting = [] → ∀ j : Nat, j ≠ e.val → engineOf j t = engineOf j s) := by
  have hexec : execEngineFence e s = .next (((engineOf e s).open' ++ (engineOf e s).waiting).foldl (fun s i => moveStream e i s)
      (modEngine e fencedEngine s)) := by
    have hne : ¬ (engineOf e s).fenced = true := by simp [hopen]
    exact congrArg Host.Outcome.next (if_neg hne)
  have hfenced : engineOf e (modEngine e fencedEngine s) = fencedEngine (engineOf e s) := engineOf_modEngine _ _ _
  have hmoves (ids : List Nat) (v : State) (hv : (engineOf e v).fenced = true) :
      SameMemory v (ids.foldl (fun s i => moveStream e i s) v) ∧ engineOf e (ids.foldl (fun s i => moveStream e i s) v) = engineOf e v := by
    induction ids generalizing v with
    | nil => exact ⟨SameMemory.refl v, rfl⟩
    | cons i ids ih =>
      obtain ⟨hmem, heng⟩ := moveStream_cases e i hv
      obtain ⟨hmem', heng'⟩ := ih (moveStream e i v) (by rw [heng]; exact hv)
      exact ⟨hmem.trans hmem', heng'.trans heng⟩
  obtain ⟨hmem, heng⟩ := hmoves ((engineOf e s).open' ++ (engineOf e s).waiting) (modEngine e fencedEngine s) (by rw [hfenced]; rfl)
  rw [hfenced] at heng
  have hsame : SameMemory s (modEngine e fencedEngine s) := ⟨rfl, rfl, rfl⟩
  refine ⟨_, hexec, ?_, ?_, ?_, ?_, hsame.trans hmem, fun hno hnw j hj => ?_⟩
  · rw [heng]
    rfl
  · rw [heng]
    rfl
  · rw [heng]
    rfl
  · rw [heng]
    rfl
  · rw [hno, hnw]
    exact engineOf_modEngine_other _ _ _ _ hj

/-- Settles O42, clause by clause: a run's checks and start, its completion, a core's fencing and an engine's operations. -/
theorem runsCoresAndEngines : Obligations.RunsCoresAndEngines := by
  unfold Obligations.RunsCoresAndEngines
  refine ⟨?_, fun n s u r => completes_lessonRunComplete, fun c p q s hphys hgood hone hsub i hi => ?_, fun e s => ⟨fun i rest hwait hlt hopen => ?_,
    fun i rest hheld hfits => ?_, completes_engineFence⟩⟩
  · intro d s r u w c cores cw db desk h hc hcores argc nin nreg regs hd code data pg loads hargs hbase hregions haligned hheader hclean himage
      hentry hbody hbodyClean hmeasure hwords hfit hgap hfwd
    have hchecks : RunChecks d c cores cw db desk u :=
      ⟨hc, hcores, hargs, hbase, hregions, haligned, hheader, hclean, himage, hentry, hbody, hbodyClean, hmeasure, hwords⟩
    obtain ⟨t, hexec, hheld, hlog, hmem, ⟨x, hx, hrun⟩, hstarts⟩ := completes_lessonRun h hchecks hfit hgap (by
      obtain rfl := h.desc.1
      exact hfwd)
    obtain rfl := h.desc.1
    refine ⟨t, hexec, hheld, hlog, hmem, ⟨x, hx, ?_⟩, fun hfree a ha => ?_⟩
    · exact ⟨(congrArg Run.id hrun :), (congrArg Run.desc hrun :), (congrArg Run.slot hrun :), (congrArg Run.cores hrun :),
        (congrArg Run.entry hrun :), (congrArg Run.code hrun :), (congrArg Run.args hrun :), (congrArg Run.ins hrun :), (congrArg Run.outs hrun :)⟩
    · obtain ⟨i, ticks, hcore⟩ := hstarts hfree a ha
      rw [hcore]
      exact ⟨rfl, rfl, rfl, rfl, rfl⟩
  · rcases hi with rfl | ⟨rfl, hrunning, hheld, hlong⟩
    · exact completes_fenceCore hphys hgood hone hsub rfl
    · have hexec : execSequencerWatchdog c s = .next (fenceCore c s) := by
        have hok : ((coreOf c s).seq.running && !seqHeld (coreOf c s) && decide (1000000 ≤ 4 * (s.time.ticks - (coreOf c s).lastIssueTick))) = true := by
          simp [hrunning, hheld, hlong]
        exact congrArg Host.Outcome.next (if_pos hok)
      exact completes_fenceCore hphys hgood hone hsub hexec
  · refine completes_modEngine rfl ?_
    simp only [hwait]
    exact if_pos (by simp [hlt, hopen])
  · refine completes_modEngine rfl ?_
    simp only [hheld]
    exact if_pos hfits

end Sys2Proof.Machine
end

section
/-!
Exchanges from fetch through admission to their final status (Machine/Admit.lean, Machine/Passes.lean, Machine/Rounds.lean).
-/

namespace Sys2Proof.Machine

/-! ## Passes that are held -/

theorem settlePasses_held {s : State} (h : PassesHeld s) : settlePasses s = s := by
  have hnone : (s.passes.filter fun p => !p.admitted && p.round.isNone && (descOf p.desc s).isNone) = [] := by
    refine List.filter_eq_nil_iff.2 fun p hp hbad => ?_
    simp only [Bool.and_eq_true, Bool.not_eq_true', Option.isNone_iff_eq_none] at hbad
    obtain ⟨⟨hadmitted, hround⟩, hdesc⟩ := hbad
    rcases h p hp with h | h | h
    · rw [hadmitted] at h
      exact absurd h (by decide)
    · rw [hround] at h
      exact absurd h (by decide)
    · rw [hdesc] at h
      exact absurd h (by decide)
  rw [settlePasses, hnone, List.foldl_nil]

theorem descOf_isSome_holdAs {i : Nat} (r : DescRec) (h : Hold) (s : State) (hi : (descOf i s).isSome = true) :
    (descOf i (holdAs r h s)).isSome = true := by
  obtain ⟨x, hx, hid⟩ := List.find?_isSome.1 hi
  unfold holdAs
  split
  · refine List.find?_isSome.2 ⟨if x.id == r.id then { r with hold := h, since := mono s } else x, List.mem_map_of_mem hx, ?_⟩
    split
    · next hxr => rw [← beq_iff_eq.1 hxr]; exact hid
    · exact hid
  · exact List.find?_isSome.2 ⟨x, List.mem_append_left _ hx, hid⟩

theorem passes_holdAs (r : DescRec) (h : Hold) (s : State) : (holdAs r h s).passes = s.passes := by
  obtain ⟨ds, hds⟩ := holdAs_eq r h s
  rw [hds]

theorem groups_holdAs (r : DescRec) (h : Hold) (s : State) : (holdAs r h s).groups = s.groups := by
  obtain ⟨ds, hds⟩ := holdAs_eq r h s
  rw [hds]

/-! ## EXCHANGE (R306 to R308) -/

/-- From `s` to `t` no group's ordinals have changed, nor which groups there are. -/
def SameOrdinals (s t : State) : Prop := ∀ i : Nat, (groupOf i t).map (fun g => g.ordinals) = (groupOf i s).map fun g => g.ordinals

theorem sameOrdinals_modGroup (g : Nat) {f : Group → Group} (hf : ∀ x, (f x).id = x.id ∧ (f x).ordinals = x.ordinals) (s : State) :
    SameOrdinals s (modGroup g f s) := by
  intro i
  have hfind : groupOf i (modGroup g f s) = if i = g then (groupOf i s).map f else groupOf i s :=
    find?_mapIf (fun x : Group => x.id) (fun x => (hf x).1) i g s.groups
  rw [hfind]
  split
  · rw [Option.map_map]
    exact congrArg (fun f => (groupOf i s).map f) (funext fun x => (hf x).2)
  · rfl

theorem SameOrdinals.trans {s t u : State} (h : SameOrdinals s t) (k : SameOrdinals t u) : SameOrdinals s u := fun i => (k i).trans (h i)

theorem sameOrdinals_forwardDesc {g : Option Nat} {step : Option Word} {slot : Nat} {ins outs : List (Nat × Nat)} {s t : State}
    (h : forwardDesc g step slot ins outs s = some t) : SameOrdinals s t := by
  unfold forwardDesc at h
  split at h
  · next g _ =>
    extract_lets s₁ f n at h
    have hs₁ : SameOrdinals s s₁ := sameOrdinals_modGroup g (by intro _; exact ⟨rfl, rfl⟩) s
    clear_value s₁
    split at h
    · split at h
      · exact Option.some.inj h ▸ hs₁
      · split at h
        · exact absurd h nofun
        · exact Option.some.inj h ▸ hs₁.trans (sameOrdinals_modGroup g (by intro _; exact ⟨rfl, rfl⟩) s₁)
    · exact Option.some.inj h ▸ hs₁
  · exact Option.some.inj h ▸ fun _ => rfl

/-- A group whose next ordinal an EXCHANGE has taken. -/
def takenGroup (r : DescRec) (g : Group) : Group :=
  { g with ordinals := g.ordinals + 1, firstFuse := if exFuse r.desc then some (g.firstFuse.getD r.fetchedAt) else g.firstFuse }

/-- A state with another pass, under the next number. -/
def addPass (p : Pass) (s : State) : State := { s with nextPass := s.nextPass + 1, passes := s.passes ++ [p] }

theorem noteExchange_eq {r : DescRec} {g : Group} {s : State} (hg : groupOf (exGroup r.desc) s = some g) :
    noteExchange r s = modGroup g.id (takenGroup r) (addPass (newPass r g s) s) := by
  rw [noteExchange, hg]
  rfl

/-- A source protected in the open step of its group. -/
def protectSource (r : DescRec) (g : Nat) (rs : List (Nat × Nat)) (s : State) : State := if r.step.isSome then protect g r.desc.slot rs s else s

theorem protectSource_keeps (r : DescRec) (g : Nat) (rs : List (Nat × Nat)) (s : State) :
    { protectSource r g rs s with groups := s.groups } = s ∧ SameOrdinals s (protectSource r g rs s) := by
  unfold protectSource
  split
  · refine ⟨rfl, sameOrdinals_modGroup g (fun x => ?_) s⟩
    split <;> exact ⟨rfl, rfl⟩
  · exact ⟨rfl, fun _ => rfl⟩

theorem startExchange_waits {r : DescRec} {p : Pass} {g : Group} {x w : State} (hg : groupOf (exGroup r.desc) x = some g)
    (hp : x.passes.find? (fun p => p.desc == r.id) = some p) (hfields : exFieldsOk r.desc (groupN g) = true)
    (hregions : regionsFault r.desc.slot [(p.src, exSource p g, false), (p.dst, dueBytes p g, true)] x = none)
    (hover : overlapsProtected r.desc.slot p.dst (dueBytes p g) x = false) (hpoison : poisonVa r.desc.slot p.src (exSource p g) x = none)
    (hfwd : forwardDesc r.group r.step r.desc.slot [(p.src, exSource p g)] [(p.dst, dueBytes p g)] x = some w) :
    startExchange r x = holdAs r .admission (protectSource r g.id [(p.src, exSource p g)] w) := by
  unfold startExchange
  simp only [hg, hp, hfields, hregions, hover, hpoison, hfwd, Bool.not_true, Bool.false_eq_true, if_false]
  rfl

theorem completes_exchange {d : Desc} {s u w : State} {r : DescRec} {g : Group} (h : Starts 0x03 d s r u)
    (hg : groupOf (exGroup d) u = some g) (hheld : PassesHeld u) (hnew : ∀ p ∈ u.passes, p.desc ≠ r.id)
    (hfields : exFieldsOk d (groupN g) = true)
    (hregions : regionsFault d.slot [(d.w3.toNat, exSource (newPass r g u) g, false), (d.w4.toNat, dueBytes (newPass r g u) g, true)]
      (noteExchange r u) = none)
    (hover : overlapsProtected d.slot d.w4.toNat (dueBytes (newPass r g u) g) (noteExchange r u) = false)
    (hpoison : poisonVa d.slot d.w3.toNat (exSource (newPass r g u) g) (noteExchange r u) = none)
    (hfwd : forwardDesc r.group r.step d.slot [(d.w3.toNat, exSource (newPass r g u) g)] [(d.w4.toNat, dueBytes (newPass r g u) g)]
      (noteExchange r u) = some w) :
    Completes (.exchange d) s fun t => t.passes = u.passes ++ [newPass r g u] ∧ (newPass r g u).desc = r.id ∧ (newPass r g u).ordinal = g.ordinals ∧
      (newPass r g u).admitted = false ∧ (∃ h : Group, groupOf (exGroup d) t = some h ∧ h.ordinals = g.ordinals + 1) ∧ SameMemory s t ∧
      ∃ y : DescRec, descOf r.id t = some y ∧ y.hold = .admission ∧ y.desc = d := by
  obtain rfl := h.desc.1
  obtain ⟨_, k, _, hk, _, hcls⟩ := h.1.chan
  have hid : g.id = exGroup r.desc := by simpa using List.find?_some hg
  have hx := noteExchange_eq hg
  have hrest : { noteExchange r u with nextPass := u.nextPass, passes := u.passes, groups := u.groups } = u := by rw [hx]; rfl
  have hxpasses : (noteExchange r u).passes = u.passes ++ [newPass r g u] := by rw [hx]; rfl
  have hxgroup : groupOf (exGroup r.desc) (noteExchange r u) = some (takenGroup r g) := by
    have hfind : groupOf (exGroup r.desc) (modGroup g.id (takenGroup r) (addPass (newPass r g u) u)) =
        if exGroup r.desc = g.id then (groupOf (exGroup r.desc) u).map (takenGroup r) else groupOf (exGroup r.desc) u :=
      find?_mapIf (fun x : Group => x.id) (f := takenGroup r) (fun _ => rfl) (exGroup r.desc) g.id u.groups
    rw [hx, hfind, if_pos hid.symm, hg]
    rfl
  have hstage : (noteExchange r u).mod.stage = 7 := by
    obtain ⟨_, hstage, _, _, _, rfl, _⟩ := h.1
    rw [(congrArg State.mod hrest :), (congrArg State.mod (noteFetch_frame r s) :)]
    exact hstage
  have hslots : (noteExchange r u).slots = u.slots := (congrArg State.slots hrest :)
  have hwait : mustWait r (noteExchange r u) = false := by
    obtain ⟨_, _, _, _, _, _, hwait, _⟩ := h.1
    rw [mustWait, (congrArg State.descs hrest :)]
    exact hwait
  have hstale : handleStale r.desc.handle (noteExchange r u) = false := by
    rw [handleStale, slotOf_congr hslots]
    exact h.1.handleStale
  have hfind : (noteExchange r u).passes.find? (fun p => p.desc == r.id) = some (newPass r g u) := by
    have hnone : u.passes.find? (fun p => p.desc == r.id) = none := List.find?_eq_none.2 fun p hp hid => hnew p hp (beq_iff_eq.1 hid)
    rw [hxpasses, List.find?_append, hnone, Option.none_or, List.find?_singleton]
    exact if_pos (beq_self_eq_true r.id)
  have hstart := startExchange_waits (g := takenGroup r g) hxgroup hfind hfields hregions hover hpoison hfwd
  have hfetch : fetchWith 0x03 r.desc noteExchange startExchange s =
      holdAs r .admission (protectSource r g.id [(r.desc.w3.toNat, exSource (newPass r g u) g)] w) := by
    rw [fetchWith_fetched h.1 noteExchange startExchange hstage hwait,
      h.checked_in startExchange ((chanOf_congr hslots _).trans hk) hcls hstale]
    exact hstart
  have hw := forwardDesc_keeps hfwd
  obtain ⟨hprot, hprotOrd⟩ := protectSource_keeps r g.id [(r.desc.w3.toNat, exSource (newPass r g u) g)] w
  generalize protectSource r g.id [(r.desc.w3.toNat, exSource (newPass r g u) g)] w = v at *
  have hall : { v with nextPass := u.nextPass, passes := u.passes, groups := u.groups } = u := by
    have h₁ := congrArg (fun z : State => { z with nextPass := u.nextPass, passes := u.passes, groups := u.groups }) hprot
    have h₂ := congrArg (fun z : State => { z with nextPass := u.nextPass, passes := u.passes, groups := u.groups }) hw
    exact (h₁ :).trans ((h₂ :).trans hrest)
  have hvpasses : v.passes = u.passes ++ [newPass r g u] := ((congrArg State.passes hprot :).trans (congrArg State.passes hw :)).trans hxpasses
  have hpasses : (holdAs r .admission v).passes = u.passes ++ [newPass r g u] := (passes_holdAs _ _ _).trans hvpasses
  have hdesc := descOf_holdAs r .admission v
  have hsettled : PassesHeld (holdAs r .admission v) := by
    intro p hp
    rw [hpasses] at hp
    rcases List.mem_append.1 hp with hp | hp
    · rcases hheld p hp with h | h | h
      · exact .inl h
      · exact .inr (.inl h)
      · refine .inr (.inr (descOf_isSome_holdAs _ _ _ ?_))
        have hdescs : v.descs = u.descs := (congrArg State.descs hall :)
        rw [descOf_congr hdescs]
        exact h
    · rw [List.mem_singleton.1 hp]
      refine .inr (.inr ?_)
      show (descOf r.id (holdAs r .admission v)).isSome = true
      rw [hdesc]
      rfl
  have hexec : execExchange r.desc s = .next (holdAs r .admission v) := by
    rw [execExchange, hfetch, settlePasses_held hsettled]
  refine ⟨_, hexec, hpasses, rfl, rfl, rfl, ?_, ?_, _, hdesc, rfl, rfl⟩
  · have hord := ((sameOrdinals_forwardDesc hfwd).trans hprotOrd) (exGroup r.desc)
    rw [hxgroup] at hord
    obtain ⟨q, hq, hqord⟩ := Option.map_eq_some_iff.1 hord
    refine ⟨q, ?_, hqord⟩
    rw [groupOf, groups_holdAs]
    exact hq
  · have hsu : SameMemory s u := by
      obtain ⟨_, _, _, _, _, rfl, _⟩ := h.1
      have hframe := noteFetch_frame r s
      exact ⟨(congrArg State.memory hframe :), (congrArg (fun x : State => x.portA.mem) hframe :), (congrArg (fun x : State => x.portB.mem) hframe :)⟩
    have huv : SameMemory u v := ⟨(congrArg State.memory hall :), (congrArg (fun x : State => x.portA.mem) hall :),
      (congrArg (fun x : State => x.portB.mem) hall :)⟩
    exact (hsu.trans huv).trans (sameMemory_of_storage (storage_holdAs r .admission v))

/-! ## Admission (R317, R318) -/

/-- A pass as it is admitted. -/
def grantedPass (p : Pass) (g : Group) (promise e : Word) (wire : Nat) (coded : Bool) (staging : Nat) (s : State) : Pass :=
  let q := { p with srcData := vaRead p.slot p.src (exSource p g) s }
  { q with
    admitted := true, promise := promise, eVal := e.toNat, wire := wire
    order := (s.passes.map fun q => q.order).foldl max 0 + 1, links := passLinks q g s
    outstanding := (outSegs q g s).map Prod.snd, nodes := ownNodes q g s, parkFrames := if reduces q then ceilDiv (recvTotal q g s) pageBytes else 0
    staging := staging, coded := coded, written := ((localCopy q g).map fun x => x.2.2).getD 0 }

/-- A state whose hall-pass table holds a pass as it is admitted, with the frames its operands may take. -/
def enterPass (q : Pass) (s : State) : State :=
  modMemory (fun m => { m with privateFrames := m.privateFrames + q.parkFrames }) (modPass q.id (fun _ => q) s)

/-- A state with the units of a fused pass named in its step and their staging taken. -/
def stageUnits (q : Pass) (g : Group) (s : State) : State :=
  match passUnits q s with
  | some (b, f, n) =>
    if q.fuse then
      modGroup g.id (fun x => { x with stepPasses := x.stepPasses ++ [(b.num, f, n)] })
        (modBinding b.num (fun b => { b with stageUsed := b.stageUsed + q.staging }) s)
    else s
  | none => s

/-- A state in which a pass has copied what stays within the device. -/
def copyLocal (q : Pass) (g : Group) (s : State) : State :=
  match localCopy q g with
  | some (pos, off, n) => vaStore q.slot (q.dst + pos) ((q.srcData.drop off).take n) s
  | none => s

/-- A state in which the source of a pass is noted in its open step. -/
def noteSource (q : Pass) (g : Group) (n : Nat) (s : State) : State :=
  if q.step.isSome then modGroup g.id (fun x => { x with stepSrc := x.stepSrc ++ [(q.ordinal, q.slot, q.src, n, fmtBytes q.fmt)] }) s else s

/-- A pass entered with its units, its local copy and its source. -/
def enterAll (q : Pass) (g : Group) (n : Nat) (s : State) : State := noteSource q g n (copyLocal q g (stageUnits q g (enterPass q s)))

/-- A pass whose ADMITTED is written and its descriptor held for it. -/
def tellAdmitted (r : DescRec) (promise : Word) (s : State) : State :=
  answerXpost r.id true false stAdmitted promise (holdAs r .pass (interim r stAdmitted 0 promise s))

theorem grant_eq {r : DescRec} {p : Pass} {g : Group} {promise e : Word} {wire : Nat} {coded : Bool} {staging : Nat} {s : State}
    (hearly : ∀ x ∈ g.early, x.w1.toNat ≠ p.ordinal) (hvoids : ∀ v ∈ g.voids, v.1 ≠ p.ordinal) :
    grant r p g promise e wire coded staging s = modGroup g.id (fun x => { x with early := x.early.filter fun y => !(y.w1.toNat == p.ordinal) })
      (tellAdmitted r promise (enterAll (grantedPass p g promise e wire coded staging s) g (exSource p g) s)) := by
  have hno : (g.early.filter fun x => x.w1.toNat == p.ordinal) = [] := by
    refine List.filter_eq_nil_iff.2 fun x hx hbad => hearly x hx (beq_iff_eq.1 hbad)
  have hnov : g.voids.find? (fun v => v.1 == p.ordinal) = none := List.find?_eq_none.2 fun v hv hbad => hvoids v hv (beq_iff_eq.1 hbad)
  unfold grant
  extract_lets slot q park copy q' s₁ s₂ s₃ s₄ s₅ s₆ mine t t'
  have ht' : t' = t := by
    show List.foldl _ t (g.early.filter fun x => x.w1.toNat == p.ordinal) = t
    rw [hno, List.foldl_nil]
  have hv : g.voids.find? (fun v => v.1 == q'.ordinal) = none := hnov
  rw [hv]
  exact ht'

theorem memory_vaStore (slot va : Nat) (bs : List Byte) (s : State) :
    { (vaStore slot va bs s).memory with fast := [], chans := [] } = { s.memory with fast := [], chans := [] } := by
  have hwrite := congrArg (fun m : MemSt => { m with chans := [] }) (memory_vaWrite slot va bs (unpoison (pieces slot va bs.length s) s))
  exact (hwrite :).trans rfl

/-- A state without memory, groups and bindings. -/
def besideStaging (s : State) : State := besideMemory { s with groups := [], nmu := {} }

theorem besideStaging_stageUnits (q : Pass) (g : Group) (s : State) : besideStaging (stageUnits q g s) = besideStaging s ∧
    (stageUnits q g s).memory = s.memory := by
  unfold stageUnits
  split
  · split <;> exact ⟨rfl, rfl⟩
  · exact ⟨rfl, rfl⟩

theorem besideStaging_copyLocal (q : Pass) (g : Group) (s : State) : besideStaging (copyLocal q g s) = besideStaging s ∧
    (copyLocal q g s).memory.privateFrames = s.memory.privateFrames := by
  unfold copyLocal
  split
  · exact ⟨(congrArg (fun u : State => { u with groups := [], nmu := {} }) (besideMemory_vaStore _ _ _ s) :),
      (congrArg MemSt.privateFrames (memory_vaStore _ _ _ s) :)⟩
  · exact ⟨rfl, rfl⟩

theorem besideStaging_noteSource (q : Pass) (g : Group) (n : Nat) (s : State) : besideStaging (noteSource q g n s) = besideStaging s ∧
    (noteSource q g n s).memory = s.memory := by
  unfold noteSource
  split <;> exact ⟨rfl, rfl⟩

/-- Entering a pass leaves all but its entry, its frames and staging, its local copy and its group. -/
theorem enterAll_cases (q : Pass) (g : Group) (n : Nat) (s : State) : (enterAll q g n s).passes = mapIf (fun x => x.id == q.id) (fun _ => q) s.passes ∧
    (enterAll q g n s).memory.privateFrames = s.memory.privateFrames + q.parkFrames ∧ (enterAll q g n s).slots = s.slots ∧
    (enterAll q g n s).descs = s.descs ∧ (enterAll q g n s).time = s.time := by
  have henter : besideStaging (enterPass q s) = besideStaging (modPass q.id (fun _ => q) s) ∧
      (enterPass q s).memory.privateFrames = s.memory.privateFrames + q.parkFrames := ⟨rfl, rfl⟩
  unfold enterAll
  generalize enterPass q s = v₁ at *
  obtain ⟨hunits, hunitsMem⟩ := besideStaging_stageUnits q g v₁
  generalize stageUnits q g v₁ = v₂ at *
  obtain ⟨hcopy, hcopyMem⟩ := besideStaging_copyLocal q g v₂
  generalize copyLocal q g v₂ = v₃ at *
  obtain ⟨hnote, hnoteMem⟩ := besideStaging_noteSource q g n v₃
  generalize noteSource q g n v₃ = v₄ at *
  have hall := ((hnote.trans hcopy).trans hunits).trans henter.1
  refine ⟨(congrArg State.passes hall :), ?_, (congrArg State.slots hall :), (congrArg State.descs hall :), (congrArg State.time hall :)⟩
  rw [hnoteMem, hcopyMem, hunitsMem, henter.2]

theorem besideLessons_answerXpost (desc : Nat) (first final : Bool) (status : BitVec 8) (result0 : Word) (s : State) :
    besideLessons (answerXpost desc first final status result0 s) = besideLessons s := by
  unfold answerXpost
  split
  · rfl
  · split
    · rfl
    · extract_lets t
      have ht : besideLessons t = besideLessons s := rfl
      split
      · exact ((onlyEnds_settleCore _ _).1.trans rfl).trans ht
      · exact ht

theorem tellAdmitted_cases {r : DescRec} {c : Chan} {s : State} (promise : Word) (hc : chanOf r.desc.slot s = some c)
    (hslot : 2 ≤ r.desc.slot.val) (hroom : c.waiting.length < 4096) : (tellAdmitted r promise s).passes = s.passes ∧
    (tellAdmitted r promise s).memory = s.memory ∧
    (∀ i : Nat, (descOf i s).isSome = true → (descOf i (tellAdmitted r promise s)).isSome = true) ∧
    (∃ x : DescRec, descOf r.id (tellAdmitted r promise s) = some x ∧ x.hold = .pass) ∧
    ∃ k : Chan, chanOf r.desc.slot (tellAdmitted r promise s) = some k ∧
      k.waiting = c.waiting ++ [{ complOf r stAdmitted 0 promise s with irq := false }] := by
  have hpost : interim r stAdmitted 0 promise s = modChan r.desc.slot (waitCompl { complOf r stAdmitted 0 promise s with irq := false }) s :=
    postCompl_channel _ s hslot
  have hrest := (onlySlot_modChan r.desc.slot (waitCompl { complOf r stAdmitted 0 promise s with irq := false }) s).1
  have hchan := chanOf_modChan_some (waitCompl { complOf r stAdmitted 0 promise s with irq := false }) hc
  have hmem := memory_modChan r.desc.slot (waitCompl { complOf r stAdmitted 0 promise s with irq := false }) s
  unfold tellAdmitted
  rw [hpost]
  generalize modChan r.desc.slot (waitCompl { complOf r stAdmitted 0 promise s with irq := false }) s = v at *
  have hanswer := besideLessons_answerXpost r.id true false stAdmitted promise (holdAs r .pass v)
  generalize answerXpost r.id true false stAdmitted promise (holdAs r .pass v) = t at *
  obtain ⟨ds, hds⟩ := holdAs_eq r .pass v
  have hframe : besideLessons { t with descs := v.descs } = besideLessons v := by
    have hdescs := congrArg (fun u : State => { u with descs := v.descs }) hanswer
    rw [hds] at hdescs
    exact hdescs
  have htdescs : t.descs = (holdAs r .pass v).descs := (congrArg State.descs hanswer :)
  have hvdescs : v.descs = s.descs := (congrArg State.descs hrest :)
  refine ⟨(congrArg State.passes hframe :).trans (congrArg State.passes hrest :), (congrArg State.memory hframe :).trans hmem, fun i hi => ?_,
    ⟨_, (descOf_congr htdescs _).trans (descOf_holdAs r .pass v), rfl⟩, waitCompl { complOf r stAdmitted 0 promise s with irq := false } c, ?_,
    by rw [waitCompl_room hroom]⟩
  · rw [descOf_congr htdescs]
    exact descOf_isSome_holdAs _ _ _ (by rw [descOf_congr hvdescs]; exact hi)
  · have hslots : t.slots = v.slots := (congrArg State.slots hframe :)
    rw [chanOf_congr hslots]
    exact hchan

/-- A pass that a later one precedes pays for it in its earliest promise. -/
def paidPass (ahead : List Pass) (cost : Nat) (q : Pass) : Pass := if ahead.any (fun a => a.id == q.id) then { q with eVal := q.eVal + cost } else q

/-- Of a pass, what tells whether it is held. -/
def passKey (q : Pass) : Nat × Nat × Bool × Option Nat := (q.id, q.desc, q.admitted, q.round)

theorem passKey_paidPass (ahead : List Pass) (cost : Nat) (q : Pass) : passKey (paidPass ahead cost q) = passKey q := by
  unfold paidPass
  split <;> rfl

/-- A state in which passes have paid for one that precedes them. -/
def paidState (ahead : List Pass) (cost : Nat) (s : State) : State := { s with passes := s.passes.map (paidPass ahead cost) }

theorem stageSegs_srcData (p : Pass) (x : List Byte) (n me : Nat) (ls : List Nat) :
    stageSegs { p with srcData := x } n me ls = stageSegs p n me ls := by
  induction ls with
  | nil => rfl
  | cons a ls ih =>
    cases ls with
    | nil => rfl
    | cons b ls =>
      rw [stageSegs, stageSegs, ih]
      rfl

theorem planOf_srcData (p : Pass) (x : List Byte) (g : Group) (s : State) : planOf { p with srcData := x } g s = planOf p g s := by
  simp only [planOf, stageSegs_srcData]
  rfl

theorem outSegs_paidState (p : Pass) (x : List Byte) (g : Group) (ahead : List Pass) (cost : Nat) (s : State) :
    outSegs { p with srcData := x } g (paidState ahead cost s) = outSegs p g s := by
  rw [outSegs, planOf_srcData]
  rfl

theorem recvTotal_paidState (p : Pass) (x : List Byte) (g : Group) (ahead : List Pass) (cost : Nat) (s : State) :
    recvTotal { p with srcData := x } g (paidState ahead cost s) = recvTotal p g s := rfl

theorem vaRead_paidState (slot va n : Nat) (ahead : List Pass) (cost : Nat) (s : State) :
    vaRead slot va n (paidState ahead cost s) = vaRead slot va n s := rfl

theorem passOf_entered {q : Pass} {ps : List Pass} (h : (ps.find? fun x => x.id == q.id).isSome = true) :
    (mapIf (fun x => x.id == q.id) (fun _ => q) ps).find? (fun x => x.id == q.id) = some q := by
  obtain ⟨x, hx⟩ := Option.isSome_iff_exists.1 h
  have hkey : ((fun y : Pass => y.id == q.id) ∘ fun y => if y.id == q.id then q else y) = fun y => y.id == q.id := by
    funext y
    show ((if y.id == q.id then q else y).id == q.id) = (y.id == q.id)
    cases hy : y.id == q.id
    · exact hy
    · exact beq_self_eq_true q.id
  rw [mapIf, List.find?_map, hkey, hx, Option.map_some, if_pos (List.find?_some hx)]

theorem find?_paidPass (ahead : List Pass) (cost id : Nat) (ps : List Pass) :
    (ps.map (paidPass ahead cost)).find? (fun x => x.id == id) = (ps.find? fun x => x.id == id).map (paidPass ahead cost) := by
  have hkey : ((fun y : Pass => y.id == id) ∘ paidPass ahead cost) = fun y => y.id == id :=
    funext fun y => congrArg (fun k : Nat × Nat × Bool × Option Nat => k.1 == id) (passKey_paidPass ahead cost y)
  rw [List.find?_map, hkey]

/-- A pass of a paid state is held when the pass it was is. -/
theorem held_paidPass {ahead : List Pass} {cost : Nat} {y : Pass} {t : State}
    (h : y.admitted = true ∨ y.round.isSome = true ∨ (descOf y.desc t).isSome = true) :
    (paidPass ahead cost y).admitted = true ∨ (paidPass ahead cost y).round.isSome = true ∨ (descOf (paidPass ahead cost y).desc t).isSome = true := by
  have hkey := passKey_paidPass ahead cost y
  have hdesc : (paidPass ahead cost y).desc = y.desc := congrArg (fun k => k.2.1) hkey
  have hadmitted : (paidPass ahead cost y).admitted = y.admitted := congrArg (fun k => k.2.2.1) hkey
  have hround : (paidPass ahead cost y).round = y.round := congrArg (fun k => k.2.2.2) hkey
  rw [hdesc, hadmitted, hround]
  exact h

/-- The promise of a pass whose terms are met: its DEADLINE, or the earliest. -/
def promiseFor (p : Pass) (g : Group) (s : State) : Word := if p.deadline = 0 then BitVec.ofNat 64 (admitEarliest p g s) else p.deadline

/-- The state in which the passes that a pass precedes have paid for it. -/
def aheadPaid (p : Pass) (g : Group) (s : State) : State := paidState (admitAhead p g s) ⌈admitCost p g s⌉.toNat s

theorem decideExchange_grants {r : DescRec} {p : Pass} {g : Group} {staging : Nat} {s : State} (hg : groupOf p.group s = some g)
    (hfuse : fuseRefused p g s = false) (hroute : ∀ k : Nat, k < groupN g → k ≠ g.rank → (routeTo (rankHolder g k) s).isSome = true)
    (hcap : (admitWire p g s).1 = 0 ∨ 0 < admitCap p g s) (hdead : p.deadline = 0 ∨ admitEarliest p g s ≤ p.deadline.toNat)
    (hstaging : stagingFor p s = some staging)
    (hframes : s.memory.framesUsed.length + s.memory.privateFrames + parkFor p g s ≤ frameCapacity s.flash.variant)
    (hcount : s.passes.countP (fun q => q.admitted) < 16384) : decideExchange r p s =
      grant r p g (promiseFor p g s) (BitVec.ofNat 64 (admitEarliest p g s)) (admitWire p g s).1 (admitWire p g s).2 staging (aheadPaid p g s) := by
  have hno : ((List.range (groupN g)).any fun k => k != g.rank && (routeTo (rankHolder g k) s).isNone) = false := by
    refine List.any_eq_false.2 fun k hk hbad => ?_
    simp only [Bool.and_eq_true, bne_iff_ne, Option.isNone_iff_eq_none] at hbad
    have h := hroute k (List.mem_range.1 hk) hbad.1
    rw [hbad.2] at h
    exact absurd h (by decide)
  have hmeets : (decide ((admitWire p g s).1 ≠ 0) && decide (admitCap p g s ≤ 0)) = false := by
    rcases hcap with h | h
    · simp [h]
    · simp [not_le.2 h]
  have hintime : (p.deadline != 0 && decide (p.deadline.toNat < admitEarliest p g s)) = false := by
    rcases hdead with h | h
    · simp [h]
    · simp [not_lt.2 h]
  have hpromise : (if (p.deadline == 0) = true then BitVec.ofNat 64 (admitEarliest p g s) else p.deadline) = promiseFor p g s :=
    if_congr (beq_iff_eq) rfl rfl
  unfold decideExchange
  simp only [hg, hfuse, hno, Bool.false_eq_true, if_false]
  unfold admitPass
  extract_lets w d e pay
  have hmeets' : (decide ((w.1 != 0) = true) && decide (admitCap p g s ≤ 0)) = false := by simpa [w] using hmeets
  have hd : d = p.deadline := rfl
  have he : e = admitEarliest p g s := rfl
  have hw : w = admitWire p g s := rfl
  have hpay : pay = paidPass (admitAhead p g s) ⌈admitCost p g s⌉.toNat := rfl
  clear_value pay w d e
  subst hd he hw hpay
  rw [if_neg (by simpa using hmeets'), if_neg (by rw [hintime]; decide), hstaging]
  simp only
  rw [if_neg (not_lt.2 hframes), if_neg (not_le.2 hcount), hpromise]
  rfl

theorem completes_admissionDecision {id : Nat} {s : State} {r : DescRec} {p : Pass} {g : Group} {staging : Nat} {c : Chan}
    (hr : descOf id s = some r) (hhold : r.hold = .admission) (hop : r.opcode = 0x03)
    (hfind : s.passes.find? (fun p => p.desc == id) = some p) (hp : passOf p.id s = some p)
    (hheld : PassesHeld s) (hearly : ∀ x ∈ g.early, x.w1.toNat ≠ p.ordinal) (hvoids : ∀ v ∈ g.voids, v.1 ≠ p.ordinal)
    (hc : chanOf r.desc.slot s = some c) (hslot : 2 ≤ r.desc.slot.val) (hroom : c.waiting.length < 4096)
    (hdecide : decideExchange r p s = grant r p g (promiseFor p g s) (BitVec.ofNat 64 (admitEarliest p g s)) (admitWire p g s).1
      (admitWire p g s).2 staging (aheadPaid p g s)) :
    Completes (.admissionDecision id) s fun t => (∃ q : Pass, passOf p.id t = some q ∧ q.admitted = true ∧ q.promise = promiseFor p g s ∧
        q.wire = (admitWire p g s).1 ∧ q.coded = (admitWire p g s).2 ∧ q.outstanding = (outSegs p g s).map Prod.snd ∧
        q.srcData = vaRead p.slot p.src (exSource p g) s) ∧
      (∃ x : DescRec, descOf id t = some x ∧ x.hold = .pass) ∧
      (∃ k : Chan, chanOf r.desc.slot t = some k ∧ k.waiting = c.waiting ++ [{ complOf r stAdmitted 0 (promiseFor p g s) s with irq := false }]) ∧
      t.memory.privateFrames = s.memory.privateFrames + parkFor p g s := by
  have hrid : r.id = id := id_of_descOf hr
  rw [grant_eq hearly hvoids] at hdecide
  have hexec : execAdmissionDecision id s = .next (settlePasses (decideExchange r p s)) := by
    rw [execAdmissionDecision, hr]
    simp only [hhold, hop, hfind, bne_self_eq_false, Bool.false_eq_true, if_false]
    rfl
  generalize hq : grantedPass p g (promiseFor p g s) (BitVec.ofNat 64 (admitEarliest p g s)) (admitWire p g s).1 (admitWire p g s).2 staging
    (aheadPaid p g s) = q at hdecide
  have hqid : q.id = p.id := by rw [← hq]; rfl
  obtain ⟨hpasses, hframes, hslots, hdescs, htime⟩ := enterAll_cases q g (exSource p g) (aheadPaid p g s)
  generalize enterAll q g (exSource p g) (aheadPaid p g s) = v at *
  have hchan : chanOf r.desc.slot v = some c := (chanOf_congr (hslots.trans rfl) _).trans hc
  have hdescs' : v.descs = s.descs := hdescs.trans rfl
  obtain ⟨htpasses, htmem, htdescs, ⟨x, hx, hxhold⟩, k, hk, hwaiting⟩ := tellAdmitted_cases (promiseFor p g s) hchan hslot hroom
  generalize tellAdmitted r (promiseFor p g s) v = w at *
  generalize ht : modGroup g.id (fun x => { x with early := x.early.filter fun y => !(y.w1.toNat == p.ordinal) }) w = t at *
  have htw : { t with groups := w.groups } = w := by rw [← ht]; rfl
  have hpassesAll : t.passes = mapIf (fun x => x.id == q.id) (fun _ => q) (s.passes.map (paidPass (admitAhead p g s) ⌈admitCost p g s⌉.toNat)) :=
    ((congrArg State.passes htw :).trans htpasses).trans hpasses
  have hdescsAll : t.descs = w.descs := (congrArg State.descs htw :)
  have hsettled : PassesHeld t := by
    intro y hy
    rw [hpassesAll] at hy
    obtain ⟨z, hz, rfl⟩ := List.mem_map.1 hy
    split
    · refine .inl ?_
      rw [← hq]
      rfl
    · obtain ⟨y, hold, rfl⟩ := List.mem_map.1 hz
      refine held_paidPass ((hheld y hold).imp_right fun h => h.imp_right fun h => ?_)
      rw [descOf_congr hdescsAll]
      refine htdescs _ ?_
      rw [descOf_congr hdescs']
      exact h
  rw [hdecide, settlePasses_held hsettled] at hexec
  refine ⟨t, hexec, ⟨q, ?_, ?_⟩, ⟨x, ?_, hxhold⟩, ⟨k, ?_, ?_⟩, ?_⟩
  · have hfound : ((s.passes.map (paidPass (admitAhead p g s) ⌈admitCost p g s⌉.toNat)).find? fun x => x.id == q.id).isSome = true := by
      have hp' : (s.passes.find? fun x => x.id == q.id) = some p := by rw [hqid]; exact hp
      rw [find?_paidPass, hp']
      rfl
    have hof : (t.passes.find? fun x => x.id == q.id) = some q := by rw [hpassesAll]; exact passOf_entered hfound
    rw [hqid] at hof
    exact hof
  · rw [← hq]
    exact ⟨rfl, rfl, rfl, rfl, congrArg (List.map Prod.snd) (outSegs_paidState p _ g _ _ s), vaRead_paidState _ _ _ _ _ s⟩
  · rw [descOf_congr hdescsAll, ← hrid]
    exact hx
  · have htslots : t.slots = w.slots := (congrArg State.slots htw :)
    rw [chanOf_congr htslots]
    exact hk
  · have hcompl : complOf r stAdmitted 0 (promiseFor p g s) v = complOf r stAdmitted 0 (promiseFor p g s) s := by
      rw [complOf, complOf, now, now, htime]
      rfl
    rw [hwaiting, hcompl]
  · have hpark : q.parkFrames = parkFor p g s := by
      rw [← hq]
      exact congrArg (fun n => if reduces p then ceilDiv n pageBytes else 0) (recvTotal_paidState p _ g _ _ s)
    have hmem : t.memory = v.memory := (congrArg State.memory htw :).trans htmem
    rw [hmem, hframes, hpark]
    rfl

/-! ## The final status (R311, R338) -/

/-- In `t` the pass `p` of `s` has left the hall-pass table and the egress queues. -/
def Dropped (p : Pass) (s t : State) : Prop :=
  t.passes = s.passes.filter (fun q => q.id != p.id) ∧ t.descs = s.descs ∧
    t.links = s.links.map fun l => (l.1, { l.2 with egress := l.2.egress.filter fun x => x.pass != p.id + 1 })

theorem dropped_dropPass (p : Pass) (s : State) : Dropped p s (dropPass p s) := by
  refine ⟨passes_dropPass p s, ?_, links_dropPass p s⟩
  have hrelease (v : State) : (releaseStaging p v).descs = v.descs := by
    unfold releaseStaging
    split
    · rfl
    · split <;> rfl
  exact hrelease { s with passes := s.passes.filter fun q => q.id != p.id }

theorem Dropped.trans {p : Pass} {s t u : State} (h : Dropped p s t) (hpasses : u.passes = t.passes) (hdescs : u.descs = t.descs)
    (hlinks : u.links = t.links) : Dropped p s u := ⟨hpasses.trans h.1, hdescs.trans h.2.1, hlinks.trans h.2.2⟩

theorem Dropped.egress {p : Pass} {s t : State} (h : Dropped p s t) (l : Nat) : ∀ x ∈ (linkOf l t).egress, x.pass ≠ p.id + 1 := by
  intro x hx
  rw [linkOf_congr (s := { s with links := s.links.map fun e => (e.1, { e.2 with egress := e.2.egress.filter fun x => x.pass != p.id + 1 }) }) h.2.2,
    linkOf_mapLinks (fun y => { y with egress := y.egress.filter fun x => x.pass != p.id + 1 }) rfl] at hx
  exact bne_iff_ne.1 (List.mem_filter.1 hx).2

theorem Dropped.passOf {p : Pass} {s t : State} (h : Dropped p s t) : passOf p.id t = none := by
  rw [Machine.passOf, h.1]
  exact List.find?_eq_none.2 fun q hq hid => bne_iff_ne.1 (List.mem_filter.1 hq).2 (beq_iff_eq.1 hid)

/-- A pass that leaves the hall-pass table, its late end noted and the card's counts made. -/
def leavePass (p : Pass) (late : Bool) (s : State) : State := cardPass p late (dropPass p (if late then noteLate p s else s))

theorem dropped_leavePass (p : Pass) (late : Bool) (s : State) : Dropped p s (leavePass p late s) := by
  have hnote : Dropped p s (dropPass p (if late then noteLate p s else s)) := by
    split
    · exact dropped_dropPass p (noteLate p s)
    · exact dropped_dropPass p s
  exact hnote.trans rfl rfl rfl

/-- The end of an EXCHANGE's pass for its group. -/
def endForGroup (p : Pass) (g : Group) (s : State) : State :=
  if p.coll == 2 then gatherDone p g (endFused p (finalStatus p).1 s) else endFused p (finalStatus p).1 s

theorem endForGroup_frame (p : Pass) (g : Group) (s : State) : { endForGroup p g s with groups := s.groups } = s := by
  have hfused : { endFused p (finalStatus p).1 s with groups := s.groups } = s := by
    unfold endFused
    split <;> rfl
  unfold endForGroup
  split
  · exact (rfl : _ = { endFused p (finalStatus p).1 s with groups := s.groups }).trans hfused
  · exact hfused

theorem dropped_endForGroup {p : Pass} {s t : State} (h : Dropped p s t) (g : Group) : Dropped p s (endForGroup p g t) := by
  have hframe := endForGroup_frame p g t
  exact h.trans (congrArg State.passes hframe :) (congrArg State.descs hframe :) (congrArg State.links hframe :)

/-- The DETAIL of a pass's completion: its flags, and bit 15 when it is late. -/
def finalDetail (p : Pass) (late : Bool) : BitVec 16 := (finalStatus p).2.1 ||| (if late then 0x8000 else 0)

/-- Whether a pass ends after its promise (R313). -/
def endsLate (p : Pass) (s : State) : Bool := decide (p.promise.toNat < s.time.dtime.toNat)

theorem finishRound_eq {p : Pass} {r : DescRec} {s : State} (hr : descOf p.desc s = some r) :
    ∃ v : State, Dropped p s v ∧ finishRound p s = finish r (finalStatus p).1 (finalDetail p (endsLate p s)) (finalStatus p).2.2 v := by
  have hend := dropped_leavePass p (endsLate p s) s
  unfold finishRound
  extract_lets late o s₁ s₂
  have hs₂ : s₂ = leavePass p (endsLate p s) s := rfl
  clear_value s₂
  subst hs₂
  have hdesc : descOf p.desc (leavePass p (endsLate p s) s) = some r := (descOf_congr hend.2.1 _).trans hr
  rw [hdesc]
  dsimp only
  refine ⟨_, ?_, rfl⟩
  exact hend.trans rfl rfl rfl

theorem finishExchange_eq {p : Pass} {r : DescRec} {g : Group} {s : State} (hr : descOf p.desc s = some r) (hg : groupOf p.group s = some g)
    (hfilled : passFilled p g s = true) (hsent : p.outstanding = []) :
    ∃ v : State, Dropped p s v ∧ finishExchange p s =
      answerXpost p.desc false true (finalStatus p).1 (finalStatus p).2.2
        (finish r (finalStatus p).1 (finalDetail p (endsLate p s)) (finalStatus p).2.2 v) := by
  refine ⟨endForGroup p g (leavePass p (endsLate p s) s), dropped_endForGroup (dropped_leavePass p (endsLate p s) s) g, ?_⟩
  have hdone : (passFilled p g s && p.outstanding.isEmpty) = true := by rw [hfilled, hsent]; rfl
  unfold finishExchange
  rw [hg, hr]
  simp only
  rw [if_pos hdone]
  rfl

theorem descOf_finish (r : DescRec) (status : BitVec 8) (detail : BitVec 16) (result0 : Word) (s : State) :
    descOf r.id (finish r status detail result0 s) = none := descOf_eq_none_iff.2 fun _ hx => (descs_finish hx).2

theorem passOf_of_besideEnd {s t : State} (h : besideEnd t = besideEnd s) (i : Nat) : passOf i t = passOf i s := by
  rw [passOf, passOf, passes_of_besideEnd h]

theorem completes_exchangeFinal {id : Nat} {s : State} {p : Pass} {r : DescRec}
    (hp : s.passes.find? (fun p => p.desc == id && p.admitted) = some p) (hr : descOf id s = some r) (hsent : p.outstanding = [])
    (hfilled : p.round = none → ∃ g : Group, groupOf p.group s = some g ∧ passFilled p g s = true) :
    Completes (.exchangeFinal id) s fun t => passOf p.id t = none ∧ descOf id t = none ∧ ∃ v : State,
      (∀ l : Nat, ∀ x ∈ (linkOf l v).egress, x.pass ≠ p.id + 1) ∧
      (p.round.isSome = true → t = finish r (finalStatus p).1 (finalDetail p (endsLate p s)) (finalStatus p).2.2 v) ∧
      (p.round = none → t = answerXpost id false true (finalStatus p).1 (finalStatus p).2.2
        (finish r (finalStatus p).1 (finalDetail p (endsLate p s)) (finalStatus p).2.2 v)) := by
  have hdesc : p.desc = id := by
    have h := List.find?_some hp
    simp only [Bool.and_eq_true, beq_iff_eq] at h
    exact h.1
  have hid : r.id = id := id_of_descOf hr
  have hexec : execExchangeFinal id s = .next (if p.round.isSome then finishRound p s else finishExchange p s) := by
    rw [execExchangeFinal, hp]
    simp only [hsent, List.isEmpty_nil, if_true]
  rw [← hdesc] at hr
  cases hround : p.round with
  | some j =>
    obtain ⟨v, hv, heq⟩ := finishRound_eq hr
    rw [hround] at hexec
    refine ⟨finishRound p s, hexec, ?_, ?_, v, hv.egress, fun _ => heq, nofun⟩
    · rw [heq, passOf_of_besideEnd (besideEnd_finish _ _ _ _ v)]
      exact hv.passOf
    · rw [heq, ← hid]
      exact descOf_finish _ _ _ _ _
  | none =>
    obtain ⟨g, hg, hall⟩ := hfilled hround
    obtain ⟨v, hv, heq⟩ := finishExchange_eq hr hg hall hsent
    rw [hround] at hexec
    refine ⟨finishExchange p s, hexec, ?_, ?_, v, hv.egress, nofun, fun _ => by rw [heq, hdesc]⟩
    · rw [heq, passOf_of_besideEnd ((besideEnd_answerXpost _ _ _ _ _ _).trans (besideEnd_finish _ _ _ _ v))]
      exact hv.passOf
    · rw [heq, descOf_congr (descs_answerXpost _ _ _ _ _ _), ← hid]
      exact descOf_finish _ _ _ _ _

/-! ## The obligation -/

/-- Settles O43, by the pass that each command makes, admits and ends. -/
theorem exchangesFromFetchToFinalStatus : Obligations.ExchangesFromFetchToFinalStatus := by
  unfold Obligations.ExchangesFromFetchToFinalStatus
  refine ⟨fun d s r u w g h hg hheld hnew hfields => ?_, ?_, ?_⟩
  · intro p x hregions hover hpoison hfwd
    exact completes_exchange h hg hheld hnew hfields hregions hover hpoison hfwd
  · intro id s r p g staging c hr hhold hop hfind hp hg hheld hfuse hroute hcap hdead hstaging hframes hcount hearly hvoids hc hslot hroom
    exact completes_admissionDecision hr hhold hop hfind hp hheld hearly hvoids hc hslot hroom
      (decideExchange_grants hg hfuse hroute hcap hdead hstaging hframes hcount)
  · intro id s p r hp hr hsent hfilled
    exact completes_exchangeFinal hp hr hsent hfilled

end Sys2Proof.Machine
end

section
/-!
XPOST (Machine/Admit.lean): what the end of a descriptor, of a pass and of a core leaves of the cores' counts, the posts and the ordinals.
-/

namespace Sys2Proof.Machine

/-! ## What finishing a descriptor leaves -/

/-- A state without what finishing a descriptor may change. -/
def besideFinish (s : State) : State :=
  { s with slots := [], descs := [], stats := [], expertPages := [], nmu := {}, memory := {}, portA := {}, portB := {}, regions := [] }

theorem besideFinish_postCompl (slot : Nat) (c : Compl) (s : State) : besideFinish (postCompl slot c s) = besideFinish s := by
  have hport (p : Port) (f : PortSt → PortSt) : besideFinish (modPort p f s) = besideFinish s := by cases p <;> rfl
  unfold postCompl
  split
  · exact hport _ _
  · split
    · exact hport _ _
    · unfold modChan
      split <;> rfl

theorem besideFinish_freeFrames (fs : List Nat) (s : State) : besideFinish (freeFrames fs s) = besideFinish s := rfl

theorem besideFinish_dropAliases (slot : Nat) (dead : Nat → Bool) (s : State) : besideFinish (dropAliases slot dead s) = besideFinish s := rfl

theorem besideFinish_releaseBindings (which : Binding → Bool) (s : State) : besideFinish (releaseBindings which s) = besideFinish s := rfl

theorem besideFinish_dropRegions (which : Region → Bool) (s : State) : besideFinish (dropRegions which s) = besideFinish s := rfl

theorem besideFinish_unmake (slot : Nat) (xs : List StatSet) (es : List ExpertPage) (s : State) :
    besideFinish (modSlot slot (fun x => { x with chan := none }) { s with stats := xs, expertPages := es }) = besideFinish s := rfl

theorem besideFinish_freeSlot (slot : Nat) (s : State) : besideFinish (freeSlot slot s) = besideFinish s := by
  unfold freeSlot
  split
  · rfl
  · rw [besideFinish_unmake, besideFinish_dropRegions, besideFinish_releaseBindings, besideFinish_dropAliases, besideFinish_freeFrames]

theorem besideFinish_settleDestroy (slot : Nat) (s : State) : besideFinish (settleDestroy slot s) = besideFinish s := by
  unfold settleDestroy
  split
  · rfl
  · split
    · rfl
    · split
      · have hfree := besideFinish_freeSlot slot s
        split
        · exact hfree
        · exact (besideFinish_postCompl _ _ _).trans hfree
      · rfl

theorem besideFinish_finish (r : DescRec) (status : BitVec 8) (detail : BitVec 16) (result0 : Word) (s : State) :
    besideFinish (finish r status detail result0 s) = besideFinish s := by
  unfold finish
  rw [besideFinish_settleDestroy]
  split
  · rfl
  · exact besideFinish_postCompl _ _ _

/-! ## The posts of the runs -/

/-- Of a post, what its answer leaves. -/
def postKey (x : XpostRec) : Nat × Nat × Nat × Nat × Option (Fin 16) × Option (Fin 16) := (x.core, x.nth, x.desc, x.sd, x.ta, x.tf)

/-- A run's number and its posts. -/
def postsOf (u : Run) : Nat × List (Nat × Nat × Nat × Nat × Option (Fin 16) × Option (Fin 16)) := (u.id, u.xposts.map postKey)

theorem posts_modRun (r : Nat) {f : Run → Run} (hf : ∀ u, postsOf (f u) = postsOf u) (s : State) :
    (modRun r f s).runs.map postsOf = s.runs.map postsOf := by
  show (mapIf _ _ s.runs).map postsOf = _
  rw [mapIf, List.map_map]
  refine List.map_congr_left fun u _ => ?_
  show postsOf (if u.id == r then f u else u) = postsOf u
  split
  · exact hf u
  · rfl

theorem posts_stopCoreAt (c : Nat) (detail : BitVec 16) (result0 : Word) (s : State) :
    (stopCoreAt c detail result0 s).runs.map postsOf = s.runs.map postsOf := by
  have hcores (cs : List Nat) (t : State) : (cs.foldl (fun s c => modCore c haltStopped s) t).runs = t.runs := by
    induction cs generalizing t with
    | nil => rfl
    | cons c cs ih => exact ih (modCore c haltStopped t)
  unfold stopCoreAt
  split
  · rfl
  · unfold stopRun
    split
    · rfl
    · rw [hcores]
      exact posts_modRun _ (by intro _; rfl) s

theorem posts_settleCore (c : Nat) (s : State) : (settleCore c s).runs.map postsOf = s.runs.map postsOf := by
  unfold settleCore
  split
  · exact posts_stopCoreAt _ _ _ s
  · extract_lets t
    have ht : t.runs = s.runs := rfl
    split
    · split
      · unfold settleWaits
        split
        · rw [ht]
        · split
          · rw [ht]
          · rw [posts_stopCoreAt, ht]
      · rw [ht]
    · rw [ht]

/-- A post as its answer reaches the run. -/
def answered (first final : Bool) (status : BitVec 8) (result0 : Word) (y : XpostRec) : XpostRec :=
  { y with answer := if first then some (status.toNat, result0) else y.answer, final := y.final || final }

theorem postsOf_mapIf {f : XpostRec → XpostRec} (hf : ∀ x, postKey (f x) = postKey x) (q : XpostRec → Bool) (u : Run) :
    postsOf { u with xposts := mapIf q f u.xposts } = postsOf u := by
  refine Prod.ext rfl ?_
  show (mapIf q f u.xposts).map postKey = u.xposts.map postKey
  rw [mapIf, List.map_map]
  refine List.map_congr_left fun x _ => ?_
  show postKey (if q x then f x else x) = postKey x
  split
  · exact hf x
  · rfl

/-- From `s` to `t` the Desks, the operation numbers, the posts, the descriptor numbers and the groups' ordinals stay. -/
structure KeepsPosts (s t : State) : Prop where
  cores : ∀ d : Nat, (coreOf d t).desk = (coreOf d s).desk ∧ (coreOf d t).nseq = (coreOf d s).nseq
  posts : t.runs.map postsOf = s.runs.map postsOf
  nextDesc : t.nextDesc = s.nextDesc
  ordinals : SameOrdinals s t

theorem KeepsPosts.trans {s t u : State} (h : KeepsPosts s t) (k : KeepsPosts t u) : KeepsPosts s u where
  cores d := ⟨(k.cores d).1.trans (h.cores d).1, (k.cores d).2.trans (h.cores d).2⟩
  posts := k.posts.trans h.posts
  nextDesc := k.nextDesc.trans h.nextDesc
  ordinals := h.ordinals.trans k.ordinals

theorem KeepsPosts.of_same {s t : State} (hcores : t.cores = s.cores) (hruns : t.runs = s.runs) (hnext : t.nextDesc = s.nextDesc)
    (hord : SameOrdinals s t) : KeepsPosts s t :=
  ⟨fun d => by rw [coreOf_congr hcores]; exact ⟨rfl, rfl⟩, by rw [hruns], hnext, hord⟩

theorem sameOrdinals_of_groups {s t : State} (h : t.groups = s.groups) : SameOrdinals s t := fun i => by rw [groupOf, groupOf, h]

theorem KeepsPosts.refl (s : State) : KeepsPosts s s := .of_same rfl rfl rfl fun _ => rfl

theorem KeepsPosts.foldl {α : Type} {f : State → α → State} (h : ∀ s x, KeepsPosts s (f s x)) (xs : List α) (s : State) :
    KeepsPosts s (xs.foldl f s) := by
  induction xs generalizing s with
  | nil => exact .refl s
  | cons x xs ih => exact (h s x).trans (ih _)

theorem keepsPosts_finish (r : DescRec) (status : BitVec 8) (detail : BitVec 16) (result0 : Word) (s : State) :
    KeepsPosts s (finish r status detail result0 s) := by
  have h := besideFinish_finish r status detail result0 s
  exact .of_same (congrArg State.cores h :) (congrArg State.runs h :) (congrArg State.nextDesc h :) (sameOrdinals_of_groups (congrArg State.groups h :))

theorem keepsPosts_settleCore (c : Nat) (s : State) : KeepsPosts s (settleCore c s) := by
  have h := onlyEnds_settleCore c s
  refine ⟨fun d => ⟨(congrArg Core.desk (h.2.1 d) :), (congrArg Core.nseq (h.2.1 d) :)⟩, posts_settleCore c s, (congrArg State.nextDesc h.1 :), ?_⟩
  exact sameOrdinals_of_groups (congrArg State.groups h.1 :)

theorem keepsPosts_modCore (c : Nat) {f : Core → Core} (hf : ∀ k, (f k).desk = k.desk ∧ (f k).nseq = k.nseq) (s : State) :
    KeepsPosts s (modCore c f s) := by
  refine ⟨fun d => ?_, rfl, rfl, fun _ => rfl⟩
  by_cases hd : d = c
  · subst hd
    rw [coreOf_modCore]
    exact hf _
  · rw [coreOf_modCore_other _ _ _ _ hd]
    exact ⟨rfl, rfl⟩

theorem answerPost_keeps (x : XpostRec) (first final : Bool) (status : BitVec 8) (result0 : Word) (k : Core) :
    (answerPost x first final status result0 k).desk = k.desk ∧ (answerPost x first final status result0 k).nseq = k.nseq := by
  unfold answerPost
  split <;> split <;> exact ⟨rfl, rfl⟩

theorem keepsPosts_answerXpost (desc : Nat) (first final : Bool) (status : BitVec 8) (result0 : Word) (s : State) :
    KeepsPosts s (answerXpost desc first final status result0 s) := by
  unfold answerXpost
  split
  · exact .refl s
  · next u _ =>
    split
    · exact .refl s
    · next x _ =>
      extract_lets t
      have ht : KeepsPosts s t := ⟨fun _ => ⟨rfl, rfl⟩, posts_modRun u.id (fun v => postsOf_mapIf (f := answered first final status result0)
        (fun _ => rfl) (fun y => y.desc == desc) v) s, rfl, fun _ => rfl⟩
      split
      · exact (ht.trans (keepsPosts_modCore x.core (answerPost_keeps x first final status result0) t)).trans (keepsPosts_settleCore _ _)
      · exact ht

theorem keepsPosts_modGroup (g : Nat) {f : Group → Group} (hf : ∀ x, (f x).id = x.id ∧ (f x).ordinals = x.ordinals) (s : State) :
    KeepsPosts s (modGroup g f s) := .of_same rfl rfl rfl (sameOrdinals_modGroup g hf s)

theorem keepsPosts_settleRefused (p : Pass) (s : State) : KeepsPosts s (settleRefused p s) := by
  unfold settleRefused
  extract_lets c st t t'
  have hvoid : KeepsPosts s t := by
    have h := (onlyControl_sendVoid p st ((c.map fun c => c.detail).getD 0) { s with passes := s.passes.filter fun q => q.id != p.id }).1
    exact .of_same (congrArg State.cores h :) (congrArg State.runs h :) (congrArg State.nextDesc h :)
      (sameOrdinals_of_groups (congrArg State.groups h :))
  exact (hvoid.trans (keepsPosts_modGroup p.group (by intro _; exact ⟨rfl, rfl⟩) t)).trans (keepsPosts_answerXpost _ _ _ _ _ t')

theorem keepsPosts_settlePasses (s : State) : KeepsPosts s (settlePasses s) := .foldl (fun t p => keepsPosts_settleRefused p t) _ s

theorem keepsPosts_holdAs (r : DescRec) (h : Hold) (s : State) : KeepsPosts s (holdAs r h s) := by
  obtain ⟨ds, hds⟩ := holdAs_eq r h s
  rw [hds]
  exact .of_same rfl rfl rfl fun _ => rfl

theorem keepsPosts_forwardDesc {g : Option Nat} {step : Option Word} {slot : Nat} {ins outs : List (Nat × Nat)} {s t : State}
    (h : forwardDesc g step slot ins outs s = some t) : KeepsPosts s t := by
  have hrest := forwardDesc_keeps h
  exact .of_same (congrArg State.cores hrest :) (congrArg State.runs hrest :) (congrArg State.nextDesc hrest :) (sameOrdinals_forwardDesc h)

theorem keepsPosts_protectSource (r : DescRec) (g : Nat) (rs : List (Nat × Nat)) (s : State) : KeepsPosts s (protectSource r g rs s) := by
  obtain ⟨hrest, hord⟩ := protectSource_keeps r g rs s
  exact .of_same (congrArg State.cores hrest :) (congrArg State.runs hrest :) (congrArg State.nextDesc hrest :) hord

/-- A descriptor that is refused, or waits for admission, keeps the posts. -/
theorem keepsPosts_startExchange (r : DescRec) (s : State) : KeepsPosts s (startExchange r s) := by
  unfold startExchange
  extract_lets d slot
  split
  · next g p _ _ =>
    split
    · exact keepsPosts_finish _ _ _ _ s
    · extract_lets src dst
      split
      · exact keepsPosts_finish _ _ _ _ s
      · split
        · exact keepsPosts_finish _ _ _ _ s
        · split
          · exact keepsPosts_finish _ _ _ _ s
          · split
            · exact keepsPosts_finish _ _ _ _ s
            · next t ht =>
              exact ((keepsPosts_forwardDesc ht).trans (keepsPosts_protectSource r g.id [(p.src, src)] t)).trans (keepsPosts_holdAs _ _ _)
  · exact keepsPosts_finish _ _ _ _ s

/-! ## The image of a post -/

/-- An EXCHANGE image as it is taken, its ordinal consumed. -/
def takeExchange (r : DescRec) (c : Chan) (s : State) : State :=
  let t := if r.desc.handle != c.handle then refuse r 0x0004 0 s
    else if reservedSet 0x03 r.desc then refuse r 0x0003 0 s
    else startExchange r s
  if s.passes.any fun p => p.desc == r.id then settlePasses t else answerXpost r.id true true stMalformed 0 t

theorem takeImage_exchange {r : DescRec} (h : r.opcode = 0x03) (c : Chan) (s : State) : takeImage r c s = takeExchange r c (noteExchange r s) := by
  unfold takeImage
  rw [h, if_neg (by decide)]
  rfl

theorem keepsPosts_takeExchange (r : DescRec) (c : Chan) (s : State) : KeepsPosts s (takeExchange r c s) := by
  unfold takeExchange
  extract_lets t
  have ht : KeepsPosts s t := by
    show KeepsPosts s (if _ then _ else if _ then _ else _)
    split
    · exact keepsPosts_finish _ _ _ _ s
    · split
      · exact keepsPosts_finish _ _ _ _ s
      · exact keepsPosts_startExchange r s
  split
  · exact ht.trans (keepsPosts_settlePasses t)
  · exact ht.trans (keepsPosts_answerXpost _ _ _ _ _ t)

/-- What an image taken as a descriptor leaves, its group's ordinal apart. -/
theorem takeImage_cases (r : DescRec) (c : Chan) (s : State) :
    (∀ d : Nat, (coreOf d (takeImage r c s)).desk = (coreOf d s).desk ∧ (coreOf d (takeImage r c s)).nseq = (coreOf d s).nseq) ∧
      (takeImage r c s).runs.map postsOf = s.runs.map postsOf ∧ (takeImage r c s).nextDesc = s.nextDesc := by
  by_cases hop : r.opcode = 0x03
  · have hnote : { noteExchange r s with nextPass := s.nextPass, passes := s.passes, groups := s.groups } = s := by
      unfold noteExchange
      split <;> rfl
    have hkeep := keepsPosts_takeExchange r c (noteExchange r s)
    have hcores : (noteExchange r s).cores = s.cores := (congrArg State.cores hnote :)
    have hruns : (noteExchange r s).runs = s.runs := (congrArg State.runs hnote :)
    rw [takeImage_exchange hop]
    refine ⟨fun d => ?_, hkeep.posts.trans (by rw [hruns]), hkeep.nextDesc.trans (congrArg State.nextDesc hnote :)⟩
    rw [← coreOf_congr hcores]
    exact hkeep.cores d
  · have hne : (r.opcode != 0x03) = true := bne_iff_ne.2 hop
    have hkeep := (keepsPosts_finish r stMalformed 0x0004 (BitVec.ofNat 64 0) s).trans (keepsPosts_answerXpost r.id true true stMalformed 0 _)
    unfold takeImage
    rw [if_pos hne]
    exact ⟨hkeep.cores, hkeep.posts, hkeep.nextDesc⟩

theorem ordinals_takeImage {r : DescRec} {g : Group} {s : State} (hop : r.opcode = 0x03) (hg : groupOf (exGroup r.desc) s = some g) (c : Chan) :
    (groupOf (exGroup r.desc) (takeImage r c s)).map (fun g => g.ordinals) = some (g.ordinals + 1) := by
  have hid : g.id = exGroup r.desc := by simpa using List.find?_some hg
  have hfind : groupOf (exGroup r.desc) (modGroup g.id (takenGroup r) (addPass (newPass r g s) s)) =
      if exGroup r.desc = g.id then (groupOf (exGroup r.desc) s).map (takenGroup r) else groupOf (exGroup r.desc) s :=
    find?_mapIf (fun x : Group => x.id) (f := takenGroup r) (fun _ => rfl) (exGroup r.desc) g.id s.groups
  rw [takeImage_exchange hop, (keepsPosts_takeExchange r c (noteExchange r s)).ordinals, noteExchange_eq hg, hfind, if_pos hid.symm, hg]
  rfl

/-! ## XPOST (R153, R160) -/

/-- A core whose XPOST has issued: its tokens are busy and its operation waits for the post `id`. -/
def posting (ta tf : Option (Fin 16)) (id : Nat) (k : Core) : Core :=
  { k with seq := setTok tf false (setTok ta false k.seq)
           disp := k.disp ++ [{ seq := k.nseq, tok := ta, writes := [], xpost := some id }], nseq := k.nseq + 1 }

/-- The post that an earlier run of the lesson made in place of the core's next one. -/
def postedBefore (c : Fin 192) (u : Run) (k : Core) : Option XpostRec := u.xposts.find? fun x => x.core == c.val && x.nth == k.xpostCount

/-- The state after an XPOST's post, made for the first time or found. -/
def posted (c : Fin 192) (w : Word) (u : Run) (lr : DescRec) (ch : Chan) (s : State) : State :=
  let t := advance (.core c) (modCore c (posting (tokField (fld w 21 5)) (tokField (fld w 26 5))
    (((postedBefore c u (coreOf c s)).map fun x => x.desc).getD s.nextDesc)) s)
  match postedBefore c u (coreOf c s) with
  | some x => postAgain c w u x (tokField (fld w 21 5)) (tokField (fld w 26 5)) t
  | none => postFirst c w u lr ch (tokField (fld w 21 5)) (tokField (fld w 26 5)) t

theorem xpostBody_eq {c : Fin 192} {w : Word} {s : State} {u : Run} {ch : Chan} {lr : DescRec} (hsd : fld w 16 5 % 2 = 0)
    (htoks : fld w 21 5 = fld w 26 5 → fld w 21 5 = 31) (hta : TokenFree c (fld w 21 5) s) (htf : TokenFree c (fld w 26 5) s)
    (hfull : dispFull (coreOf c s) = false) (hread : readFault c (areg (coreOf c s).seq (fld w 12 4)) 64 s = none)
    (hu : coreRun c s = some u) (hch : coreChan c s = some ch) (hlr : descOf u.desc s = some lr) :
    xpostBody c w s = modCore c (fun k => { k with xpostCount := (coreOf c s).xpostCount + 1 }) (posted c w u lr ch s) := by
  have hform : (fld w 16 5 % 2 == 1 || (fld w 21 5 == fld w 26 5 && fld w 21 5 != 31) || tokReserved (fld w 21 5) || tokReserved (fld w 26 5)) =
      false := by
    rw [hta.1, htf.1, hsd]
    simpa using htoks
  unfold xpostBody
  extract_lets sd
  rw [if_neg (Bool.eq_false_iff.1 hform)]
  unfold withCoreTok
  simp only [hta.1, hta.2, htf.1, htf.2, hfull, hread, hu, hch, hlr, Bool.false_eq_true, if_false, Bool.not_true]
  rfl

/-- The core of an XPOST that has issued. -/
theorem posting_cases {c : Fin 192} {s : State} (hn : NextInside (.core c) s) (ta tf : Option (Fin 16)) (id : Nat) :
    let t := advance (.core c) (modCore c (posting ta tf id) s)
    OnlyCore c s t ∧ (∀ d : Nat, (coreOf d t).desk = (coreOf d s).desk) ∧ (coreOf c t).nseq = (coreOf c s).nseq + 1 ∧
      (coreOf c t).xpostCount = (coreOf c s).xpostCount ∧ ∀ i : Nat, areg (coreOf c t).seq i = areg (coreOf c s).seq i := by
  obtain ⟨honly, hseq, hbeside⟩ := advance_core_cases c (posting ta tf id) s
    (fun _ => (setTok_pc _ _ _).trans (setTok_pc _ _ _)) (fun _ => (setTok_code _ _ _).trans (setTok_code _ _ _)) hn
  have hareg (t : Option (Fin 16)) (b : Bool) (q : Seq) (i : Nat) : areg (setTok t b q) i = areg q i := by cases t <;> rfl
  refine ⟨honly, honly.desks (congrArg Core.desk hbeside :), (congrArg Core.nseq hbeside :), (congrArg Core.xpostCount hbeside :), fun i => ?_⟩
  rw [hseq]
  exact (hareg _ _ _ i).trans (hareg _ _ _ i)

/-- The record of an XPOST that posts for the first time. -/
def firstPost (c : Fin 192) (w : Word) (nth desc : Nat) (ta tf : Option (Fin 16)) : XpostRec :=
  { core := c, nth := nth, desc := desc, sd := fld w 16 5, ta := ta, tf := tf }

theorem exists_run_of_posts {s t : State} {r : Nat} {u : Run} (h : t.runs.map postsOf = s.runs.map postsOf) (hu : runOf r s = some u) :
    ∃ v : Run, runOf r t = some v ∧ v.xposts.map postKey = u.xposts.map postKey := by
  have hfind (xs : List Run) : (xs.map postsOf).find? (fun x => x.1 == r) = (xs.find? fun x => x.id == r).map postsOf := List.find?_map
  have hmap : (runOf r t).map postsOf = (runOf r s).map postsOf := by
    rw [runOf, runOf, ← hfind, ← hfind, h]
  rw [hu] at hmap
  obtain ⟨v, hv, hkey⟩ := Option.map_eq_some_iff.1 hmap
  exact ⟨v, hv, congrArg Prod.snd hkey⟩

/-- What a first post does. -/
theorem postFirst_cases {c : Fin 192} (w : Word) {u : Run} (lr : DescRec) (ch : Chan) (ta tf : Option (Fin 16)) {s : State}
    (hu : runOf u.id s = some u) :
    let d := imageDesc lr.desc.slot lr.desc.ring (vaRead u.slot (areg (coreOf c s).seq (fld w 12 4)) 64 s)
    let t := postFirst c w u lr ch ta tf s
    (∀ d : Nat, (coreOf d t).desk = (coreOf d s).desk ∧ (coreOf d t).nseq = (coreOf d s).nseq) ∧ t.nextDesc = s.nextDesc + 1 ∧
      (∃ v : Run, runOf u.id t = some v ∧ ∃ x ∈ v.xposts, postKey x = postKey (firstPost c w (coreOf c s).xpostCount s.nextDesc ta tf)) ∧
      (wordAt (vaRead u.slot (areg (coreOf c s).seq (fld w 12 4)) 64 s) 0 % 256 = 3 → ∀ g : Group, groupOf (exGroup d) s = some g →
        (groupOf (exGroup d) t).map (fun g => g.ordinals) = some (g.ordinals + 1)) := by
  intro d
  unfold postFirst
  extract_lets k bs d' r x s₁ t
  have hd : d' = d := rfl
  have hs₁ : s₁ = modRun u.id (fun v => { v with xposts := v.xposts ++ [x] }) { s with nextDesc := s.nextDesc + 1 } := rfl
  have hrun : runOf u.id s₁ = some { u with xposts := u.xposts ++ [x] } := by
    have hfind : runOf u.id s₁ = if u.id = u.id then (runOf u.id s).map (fun v => { v with xposts := v.xposts ++ [x] }) else runOf u.id s :=
      find?_mapIf (fun x : Run => x.id) (f := fun v => { v with xposts := v.xposts ++ [x] }) (fun _ => rfl) u.id u.id s.runs
    rw [hfind, if_pos rfl, hu]
    rfl
  obtain ⟨s₂, hs₂⟩ : ∃ s₂, s₂ = modChan u.slot (fun y => { y with tags := (d'.tag, r.id) :: y.tags.filter fun t => t.1 != d'.tag }) s₁ := ⟨_, rfl⟩
  have ht : t = takeImage r ch s₂ := by rw [hs₂]
  have hframe : { s₂ with slots := s₁.slots } = s₁ := by
    rw [hs₂]
    unfold modChan
    split <;> rfl
  obtain ⟨hcores, hposts, hnext⟩ := takeImage_cases r ch s₂
  have hcores₂ : s₂.cores = s.cores := (congrArg State.cores hframe :)
  have hruns₂ : s₂.runs = s₁.runs := (congrArg State.runs hframe :)
  have hgroups₂ : s₂.groups = s.groups := (congrArg State.groups hframe :)
  rw [ht]
  refine ⟨fun i => ?_, hnext.trans (congrArg State.nextDesc hframe :), ?_, fun hop g hg => ?_⟩
  · rw [← coreOf_congr hcores₂]
    exact hcores i
  · obtain ⟨v, hv, hkeys⟩ := exists_run_of_posts (hposts.trans (by rw [hruns₂])) hrun
    refine ⟨v, hv, ?_⟩
    have hmem : postKey x ∈ v.xposts.map postKey := by
      rw [hkeys]
      exact List.mem_map_of_mem (List.mem_append_right _ (List.mem_singleton_self x))
    obtain ⟨y, hy, hkey⟩ := List.mem_map.1 hmem
    exact ⟨y, hy, hkey⟩
  · have hopcode : r.opcode = 0x03 := by
      refine BitVec.eq_of_toNat_eq ?_
      show wordAt bs 0 % 2 ^ 8 = 3
      exact hop
    have hg₂ : groupOf (exGroup r.desc) s₂ = some g := by
      rw [groupOf, hgroups₂]
      exact hg
    exact ordinals_takeImage hopcode hg₂ ch

theorem postAgain_cases (c : Fin 192) (w : Word) (u : Run) (x : XpostRec) (ta tf : Option (Fin 16)) (s : State) :
    (∀ d : Nat, (coreOf d (postAgain c w u x ta tf s)).desk = (coreOf d s).desk ∧ (coreOf d (postAgain c w u x ta tf s)).nseq = (coreOf d s).nseq) ∧
      (postAgain c w u x ta tf s).nextDesc = s.nextDesc := by
  unfold postAgain
  extract_lets y t
  split
  · next status result0 _ =>
    have hkeep := keepsPosts_modCore c (answerPost_keeps y true x.final (BitVec.ofNat 8 status) result0) t
    exact ⟨hkeep.cores, rfl⟩
  · exact ⟨fun _ => ⟨rfl, rfl⟩, rfl⟩

/-- Settles O22: the XPOST goes on with its tokens busy, and its image is taken as a descriptor the first time alone. -/
theorem xpostPostsAnExchange : Obligations.XpostPostsAnExchange := by
  intro c w s u ch lr hn hi hsd htoks hta htf k a d hfull hread hu hch hlr
  have hexec : execXpost c w s = .next (modCore c (fun k => { k with xpostCount := (coreOf c s).xpostCount + 1 }) (posted c w u lr ch s)) :=
    (instr_issues _ hi).trans (congrArg Host.Outcome.next (xpostBody_eq hsd htoks hta htf hfull hread hu hch hlr))
  have hcount : (coreOf c (modCore c (fun k => { k with xpostCount := (coreOf c s).xpostCount + 1 }) (posted c w u lr ch s))).xpostCount =
      k.xpostCount + 1 := by rw [coreOf_modCore]
  have hkeep := keepsPosts_modCore c (f := fun k => { k with xpostCount := (coreOf c s).xpostCount + 1 }) (fun _ => ⟨rfl, rfl⟩) (posted c w u lr ch s)
  have hrun : runOf u.id s = some u := by
    obtain ⟨r, _, hr⟩ := Option.bind_eq_some_iff.1 hu
    have hid : u.id = r := by simpa using List.find?_some hr
    rw [hid]
    exact hr
  refine ⟨_, hexec, hcount, ?_⟩
  generalize modCore c (fun k => { k with xpostCount := (coreOf c s).xpostCount + 1 }) (posted c w u lr ch s) = t at *
  unfold posted at hkeep
  cases hold : postedBefore c u (coreOf c s) with
  | some x =>
    rw [hold] at hkeep
    obtain ⟨honly, hdesks, hnseq, -, -⟩ := posting_cases hn (tokField (fld w 21 5)) (tokField (fld w 26 5)) (((some x).map fun x => x.desc).getD s.nextDesc)
    dsimp only at hkeep honly hdesks hnseq
    generalize advance (.core c) _ = v at hkeep honly hdesks hnseq
    obtain ⟨hcores, hnext⟩ := postAgain_cases c w u x (tokField (fld w 21 5)) (tokField (fld w 26 5)) v
    have hout : v.nextDesc = s.nextDesc := (congrArg State.nextDesc honly.1 :)
    refine ⟨((hkeep.cores c).2.trans (hcores c).2).trans hnseq, fun d => ((hkeep.cores d).1.trans (hcores d).1).trans (hdesks d), fun h => ?_,
      fun _ => (hkeep.nextDesc.trans hnext).trans hout⟩
    rw [postedBefore, h] at hold
    exact absurd hold nofun
  | none =>
    rw [hold] at hkeep
    obtain ⟨honly, hdesks, hnseq, hxposts, hareg⟩ := posting_cases hn (tokField (fld w 21 5)) (tokField (fld w 26 5))
      (((none : Option XpostRec).map fun x => x.desc).getD s.nextDesc)
    dsimp only at hkeep honly hdesks hnseq hxposts hareg
    generalize advance (.core c) _ = v at hkeep honly hdesks hnseq hxposts hareg
    have hruns : v.runs = s.runs := honly.runs
    have hgroups : v.groups = s.groups := (congrArg State.groups honly.1 :)
    have hout : v.nextDesc = s.nextDesc := (congrArg State.nextDesc honly.1 :)
    have hnth : (coreOf c v).xpostCount = k.xpostCount := hxposts
    have hread : vaRead u.slot (areg (coreOf c v).seq (fld w 12 4)) 64 v = vaRead u.slot a 64 s := by
      rw [hareg]
      exact vaRead_congr (congrArg storage honly.1 :) u.slot a 64
    have hrunv : runOf u.id v = some u := by rw [runOf, hruns]; exact hrun
    obtain ⟨hcores, hnext, hpost, hord⟩ := postFirst_cases w lr ch (tokField (fld w 21 5)) (tokField (fld w 26 5)) hrunv
    rw [hread, groupOf, hgroups] at hord
    refine ⟨((hkeep.cores c).2.trans (hcores c).2).trans hnseq, fun d => ((hkeep.cores d).1.trans (hcores d).1).trans (hdesks d),
      fun _ => ⟨(hkeep.nextDesc.trans hnext).trans (congrArg (· + 1) hout), ?_, fun hop g hg => ?_⟩, fun h => absurd hold h⟩
    · obtain ⟨r, hr, x, hx, hkey⟩ := hpost
      obtain ⟨r', hr', hkeys⟩ := exists_run_of_posts hkeep.posts hr
      have hmem : postKey x ∈ r'.xposts.map postKey := by
        rw [hkeys]
        exact List.mem_map_of_mem hx
      obtain ⟨y, hy, hykey⟩ := List.mem_map.1 hmem
      have hall := hykey.trans hkey
      simp only [postKey, firstPost, Prod.mk.injEq] at hall
      obtain ⟨hcore, hn', hdesc, hsd', hta', htf'⟩ := hall
      exact ⟨r', hr', y, hy, hcore, hn'.trans hnth, hdesc.trans hout, hsd', hta', htf'⟩
    · exact (hkeep.ordinals _).trans (hord hop g hg)

end Sys2Proof.Machine
end

section
/-!
What the machinery of a step keeps (Machine/Steps.lean, Machine/Journal.lean, Machine/Update.lean): the groups, the pair and the descriptors
under the journal, the optimizer's updates, undo, publication and the end of a step.
-/

namespace Sys2Proof.Machine

/-! ## Groups, the pair and the descriptors -/

/-- A group without what the machinery of a step may change beside opening and closing it. -/
def stepKey (g : Group) : Group := { g with faulted := false, satStep := false, growthSet := none, overflowSteps := [], e := 0, clean := 0 }

/-- The pair without its queues of records. -/
def mateKey (m : MateSt) : MateSt := { m with toSend := [], unacked := [], mirrorLink1 := false }

/-- From `s` to `t` the groups keep their steps, the pair stands unless it is dissolving, and no descriptor has come. -/
structure StepKeeps (s t : State) : Prop where
  groups : t.groups.map stepKey = s.groups.map stepKey
  descs : ∀ x ∈ t.descs, x ∈ s.descs
  mate : s.mate.dissolving = none → mateKey t.mate = mateKey s.mate

theorem StepKeeps.trans {s t u : State} (h : StepKeeps s t) (k : StepKeeps t u) : StepKeeps s u where
  groups := k.groups.trans h.groups
  descs x hx := h.descs x (k.descs x hx)
  mate hs := (k.mate ((congrArg MateSt.dissolving (h.mate hs) :).trans hs)).trans (h.mate hs)

theorem StepKeeps.of_same {s t : State} (hgroups : t.groups = s.groups) (hdescs : t.descs = s.descs) (hmate : t.mate = s.mate) : StepKeeps s t :=
  ⟨by rw [hgroups], by rw [hdescs]; exact fun _ h => h, fun _ => by rw [hmate]⟩

theorem StepKeeps.refl (s : State) : StepKeeps s s := .of_same rfl rfl rfl

theorem StepKeeps.foldl {α : Type} {f : State → α → State} (h : ∀ s x, StepKeeps s (f s x)) (xs : List α) (s : State) :
    StepKeeps s (xs.foldl f s) := by
  induction xs generalizing s with
  | nil => exact .refl s
  | cons x xs ih => exact (h s x).trans (ih _)

theorem OnlyFlags.stepKeeps {s t : State} (h : OnlyFlags s t) : StepKeeps s t := by
  have hquiet : quiet t = quiet s := h
  exact .of_same (congrArg State.groups hquiet :) (congrArg State.descs hquiet :) (congrArg State.mate hquiet :)

theorem OnlyControl.stepKeeps {s t : State} (h : OnlyControl s t) : StepKeeps s t :=
  .of_same (congrArg State.groups h.1 :) (congrArg State.descs h.1 :) (congrArg State.mate h.1 :)

theorem stepKeeps_of_besideMemory {s t : State} (h : besideMemory t = besideMemory s) : StepKeeps s t :=
  .of_same (congrArg State.groups h :) (congrArg State.descs h :) (congrArg State.mate h :)

theorem groups_map_key {f : Group → Group} (hf : ∀ x, stepKey (f x) = stepKey x) (gs : List Group) : (gs.map f).map stepKey = gs.map stepKey := by
  rw [List.map_map]
  exact List.map_congr_left fun x _ => hf x

theorem stepKeeps_modGroup (g : Nat) {f : Group → Group} (hf : ∀ x, stepKey (f x) = stepKey x) (s : State) : StepKeeps s (modGroup g f s) := by
  refine ⟨groups_map_key (f := fun x => if x.id == g then f x else x) (fun x => ?_) s.groups, fun _ h => h, fun _ => rfl⟩
  show stepKey (if x.id == g then f x else x) = stepKey x
  split
  · exact hf x
  · rfl

theorem stepKeeps_modNmu (f : NmuSt → NmuSt) (s : State) : StepKeeps s (modNmu f s) := .of_same rfl rfl rfl

theorem stepKeeps_modBinding (b : Nat) (f : Binding → Binding) (s : State) : StepKeeps s (modBinding b f s) := .of_same rfl rfl rfl

theorem stepKeeps_modRegion (r : Nat) (f : Region → Region) (s : State) : StepKeeps s (modRegion r f s) := .of_same rfl rfl rfl

theorem stepKeeps_enqueueSeg (l : Nat) (x : OutSeg) (s : State) : StepKeeps s (enqueueSeg l x s) := .of_same rfl rfl rfl

theorem stepKeeps_countCard (word n : Nat) (s : State) : StepKeeps s (countCard word n s) := .of_same rfl rfl rfl

theorem stepKeeps_unpoison (pcs : List (Nat × Nat × Nat)) (s : State) : StepKeeps s (unpoison pcs s) := .of_same rfl rfl rfl

theorem stepKeeps_raise (i code : Nat) (args : List Nat) (s : State) : StepKeeps s (raiseDev i (raiseEvent code args s)) :=
  ((onlyFlags_raiseEvent _ _ _).trans (onlyFlags_raiseDev _ _)).stepKeeps

theorem stepKeeps_modMate {f : MateSt → MateSt} (hf : ∀ m, mateKey (f m) = mateKey m) (s : State) : StepKeeps s (modMate f s) :=
  ⟨rfl, fun _ h => h, fun _ => hf s.mate⟩

theorem stepKeeps_modPort (p : Port) (f : PortSt → PortSt) (s : State) : StepKeeps s (modPort p f s) := by
  cases p <;> exact .of_same rfl rfl rfl

/-! ## The journal -/

theorem stepKeeps_journalFull (j : Nat) (s : State) : StepKeeps s (journalFull j s) := by
  unfold journalFull
  refine StepKeeps.trans ?_ (stepKeeps_raise _ _ _ _)
  refine ⟨groups_map_key (fun g => ?_) s.groups, fun _ h => h, fun _ => rfl⟩
  split <;> rfl

theorem stepKeeps_noteGap (j : Nat) (r : JRec) (s : State) : StepKeeps s (noteGap j r s) := by
  unfold noteGap
  exact (stepKeeps_modNmu _ s).trans (stepKeeps_raise _ _ _ _)

theorem stepKeeps_trimJournal (j fuel : Nat) (s : State) : StepKeeps s (trimJournal j fuel s) := by
  induction fuel generalizing s with
  | zero => exact .refl s
  | succ fuel ih =>
    unfold trimJournal
    extract_lets rs
    split
    · exact .refl s
    · split
      · exact stepKeeps_journalFull j s
      · next r _ =>
        refine StepKeeps.trans ?_ (ih _)
        split
        · exact (stepKeeps_noteGap j r s).trans (stepKeeps_modNmu _ _)
        · exact stepKeeps_modNmu _ s

theorem stepKeeps_appendRec (r : JRec) (s : State) : StepKeeps s (appendRec r s) := by
  unfold appendRec
  extract_lets j r' s₁ s₂
  have hs₁ : StepKeeps s s₁ := stepKeeps_modNmu _ s
  have hs₂ : StepKeeps s s₂ := by
    show StepKeeps s (if _ then _ else _)
    split
    · exact hs₁.trans (stepKeeps_modMate (by intro _; rfl) s₁)
    · exact hs₁
  exact hs₂.trans (stepKeeps_trimJournal _ _ s₂)

theorem stepKeeps_sendMirror (s : State) : StepKeeps s (sendMirror s) := by
  have hqueue (l : Nat) (xs : List OutSeg) (t : State) : StepKeeps t (xs.foldl (fun s x => enqueueSeg l x s) t) :=
    .foldl (fun v x => stepKeeps_enqueueSeg l x v) xs t
  unfold sendMirror
  split
  · refine (stepKeeps_modMate (by intro _; rfl) s).trans (.foldl (fun t r => ?_) _ _)
    exact (hqueue _ _ t).trans (stepKeeps_modMate (by intro _; rfl) _)
  · exact stepKeeps_modMate (by intro _; rfl) s

/-! ## Units -/

theorem stepKeeps_hostWrite (p : Port) (a : Nat) (bs : List Byte) (s : State) : StepKeeps s (hostWrite p a bs s) := by
  unfold hostWrite
  split
  · exact .refl s
  · exact stepKeeps_modPort _ _ s

theorem stepKeeps_putStripe (b : Binding) (i : Nat) (x : Stripe) (s : State) : StepKeeps s (putStripe b i x s) := by
  unfold putStripe
  split
  · exact .of_same rfl rfl rfl
  · exact stepKeeps_hostWrite _ _ _ s

theorem stepKeeps_putBlock (b : Binding) (q : Nat) (x : Block) (s : State) : StepKeeps s (putBlock b q x s) := by
  unfold putBlock
  split
  · exact .of_same rfl rfl rfl
  · exact stepKeeps_hostWrite _ _ _ s

theorem stepKeeps_bdAccess (e : Nat) (dirty : Bool) (s : State) : StepKeeps s (bdAccess e dirty s) := by
  unfold bdAccess
  extract_lets hit t
  have ht : StepKeeps s t := stepKeeps_modNmu _ s
  split
  · exact ht
  · exact (ht.trans (stepKeeps_modNmu _ t)).trans (stepKeeps_countCard _ _ _)

theorem stepKeeps_setBd (e : Nat) (x : BdEntry) (s : State) : StepKeeps s (setBd e x s) := stepKeeps_modNmu _ s

theorem stepKeeps_nmuFlags (f : BitVec 7) (s : State) : StepKeeps s (nmuFlags f s) := .of_same rfl rfl rfl

theorem stepKeeps_changeStripe (b : Binding) (i : Nat) (n : Word) (update : Bool) (f : Stripe → Stripe × BitVec 7) (s : State) :
    StepKeeps s (changeStripe b i n update f s) := by
  unfold changeStripe
  extract_lets old r d e e' s₁ s₂
  have hs₁ : StepKeeps s s₁ := ((stepKeeps_bdAccess d true s).trans (stepKeeps_putStripe b i r.1 _)).trans (stepKeeps_setBd d e' _)
  exact ((hs₁.trans (stepKeeps_appendRec _ s₁)).trans (stepKeeps_modBinding b.num _ s₂)).trans (stepKeeps_nmuFlags r.2 _)

theorem stepKeeps_changeBlock (b : Binding) (q : Nat) (n : Word) (new : Block) (s : State) : StepKeeps s (changeBlock b q n new s) :=
  (stepKeeps_putBlock b q new s).trans (stepKeeps_appendRec _ _)

theorem stepKeeps_raiseRoot (b : Binding) (q : Nat) (x : Block) (ev : RootEvent) (s : State) : StepKeeps s (raiseRoot b q x ev s) := by
  unfold raiseRoot
  extract_lets args
  split
  · exact stepKeeps_raise _ _ _ s
  · exact (stepKeeps_raise _ _ _ s).trans (stepKeeps_raise _ _ _ _)
  · exact stepKeeps_raise _ _ _ s
  · exact .refl s

theorem stepKeeps_updateUnit (b : Binding) (u : Nat) (n : Word) (g : List NV) (s : State) : StepKeeps s (updateUnit b u n g s) := by
  unfold updateUnit
  split
  · unfold updateBlock
    extract_lets k old lo cb ss w m r ws ms cut t t'
    have ht : StepKeeps s t := by
      refine StepKeeps.foldl (fun v j => ?_) _ s
      exact stepKeeps_changeStripe _ _ _ _ _ v
    have ht' : StepKeeps s t' := ht.trans (stepKeeps_changeBlock b u n r.1 t)
    exact (ht'.trans (stepKeeps_nmuFlags _ t')).trans (stepKeeps_raiseRoot _ _ _ _ _)
  · exact stepKeeps_changeStripe _ _ _ _ _ s

theorem stepKeeps_catchUnit (b : Binding) (u : Nat) (n : Word) (s : State) : StepKeeps s (catchUnit b u n s) := by
  unfold catchUnit
  split
  · extract_lets old lo cb t
    have ht : StepKeeps s t := by
      refine StepKeeps.foldl (fun v j => ?_) _ s
      exact stepKeeps_changeStripe _ _ _ _ _ v
    exact (ht.trans (stepKeeps_changeBlock b u n _ t)).trans (stepKeeps_nmuFlags _ _)
  · exact stepKeeps_changeStripe _ _ _ _ _ s

theorem stepKeeps_lastWork (g : Nat) (n : Word) (s : State) : StepKeeps s (lastWork g n s) := by
  have htouch (b : Binding) (t : State) : StepKeeps t (touchAll n b t) := by
    unfold touchAll
    split
    · exact .refl t
    · refine .foldl (fun v u => ?_) _ t
      split
      · exact .refl v
      · exact stepKeeps_updateUnit b u n _ v
  have hage (b : Binding) (t : State) : StepKeeps t (ageUnits n b t) := by
    refine .foldl (fun v u => ?_) _ t
    dsimp only
    split
    · exact stepKeeps_catchUnit b u n v
    · exact .refl v
  exact .foldl (fun t b => (htouch b t).trans (hage b _)) _ s

/-! ## Undo and publication -/

theorem stepKeeps_foldl_pair {α : Type} {f : State × Bool → α → State × Bool} (h : ∀ p x, StepKeeps p.1 (f p x).1) (xs : List α) (p : State × Bool) :
    StepKeeps p.1 (xs.foldl f p).1 := by
  induction xs generalizing p with
  | nil => exact .refl _
  | cons x xs ih => exact (h p x).trans (ih _)

theorem stepKeeps_applyRec (back : Bool) (r : JRec) (s : State) : StepKeeps s (applyRec back r s).1 := by
  unfold applyRec
  split
  · unfold applyRoundRec
    split
    · exact .refl s
    · split
      · exact .refl s
      · exact (stepKeeps_putStripe _ _ _ s).trans (.of_same rfl rfl rfl)
  · split
    · exact .refl s
    · next b _ =>
      extract_lets n x rel t
      have ht : StepKeeps s t := .of_same rfl rfl rfl
      split
      · exact ht.trans (stepKeeps_putStripe _ _ _ t)
      · exact ht.trans (stepKeeps_putBlock _ _ _ t)

theorem stepKeeps_undoStep (rounds : Bool) (g : Nat) (n : Word) (s : State) : StepKeeps s (undoStep rounds g n s).1 := by
  refine stepKeeps_foldl_pair (fun p j => ?_) _ (s, true)
  have hrecs := stepKeeps_foldl_pair (f := fun p r => ((applyRec true r p.1).1, p.2 && (applyRec true r p.1).2))
    (fun p r => stepKeeps_applyRec true r p.1) (stepRecs rounds j g n p.1).reverse p
  exact hrecs.trans (.of_same rfl rfl rfl)

theorem stepKeeps_stateLost (g : Nat) (s : State) : StepKeeps s (stateLost g s) := by
  unfold stateLost
  refine .foldl (fun v b => ?_) _ s
  exact stepKeeps_raise _ _ _ v

theorem stepKeeps_withNmu (m : NmuSt) (s : State) : StepKeeps s { s with nmu := m } := .of_same rfl rfl rfl

theorem stepKeeps_undoOpen (g : Group) (n : Word) (s : State) : StepKeeps s (undoOpen g n s) := by
  have hundo := stepKeeps_undoStep false g.id n s
  unfold undoOpen
  extract_lets r t
  have ht : StepKeeps s t := by
    show StepKeeps s (if _ then _ else _)
    split
    · exact hundo
    · exact hundo.trans (stepKeeps_stateLost g.id r.1)
  clear_value t
  exact ht.trans (stepKeeps_withNmu _ t)

theorem besideMemory_vaForce (slot va : Nat) (bs : List Byte) (s : State) : besideMemory (vaForce slot va bs s) = besideMemory s := by
  induction bs generalizing va s with
  | nil => rfl
  | cons b bs ih =>
    rw [vaForce, ih]
    split
    · exact besideMemory_spaceSet _ _ _ s
    · rfl

theorem stepKeeps_vaForce (slot va : Nat) (bs : List Byte) (s : State) : StepKeeps s (vaForce slot va bs s) :=
  stepKeeps_of_besideMemory (besideMemory_vaForce slot va bs s)

theorem stepKeeps_publish (g : Nat) (n : Word) (s : State) : StepKeeps s (publish g n s) := by
  have hstripe (b : Binding) (t : State) (i : Nat) : StepKeeps t (publishStripe b i n t) := by
    unfold publishStripe
    split
    · exact .refl t
    · extract_lets bs va
      exact (stepKeeps_unpoison _ t).trans (stepKeeps_vaForce _ _ _ _)
  unfold publish
  refine .foldl (fun t b => ?_) _ s
  exact (StepKeeps.foldl (hstripe b) _ t).trans (stepKeeps_modBinding _ _ _)

theorem stepKeeps_sendDigests (g : Nat) (n : Word) (s : State) : StepKeeps s (sendDigests g n s) := by
  unfold sendDigests
  split
  · exact .refl s
  · exact .foldl (fun t b => .foldl (fun v seg => (onlyControl_sendItem _ _ v).stepKeeps) _ t) _ s

theorem stepKeeps_passDown (g : Group) (n : Word) (d : Decision) (t : Word) (s : State) : StepKeeps s (passDown g n d t s) := by
  refine .foldl (fun v m => ?_) _ s
  split
  · exact .refl v
  · exact (onlyControl_sendTo _ _ v).stepKeeps

/-! ## The end of a step -/

theorem stepKeeps_setShare (v : Nat) (s : State) : StepKeeps s (setShare v s) := by
  unfold setShare
  split
  · exact .refl s
  · extract_lets allow t
    have ht : StepKeeps s t := .of_same rfl rfl rfl
    split
    · exact ht.trans (.of_same rfl rfl rfl)
    · exact ht

theorem stepKeeps_watchSets (g : Nat) (commit : Bool) (s : State) : StepKeeps s (watchSets g commit s) := by
  unfold watchSets
  refine .foldl (fun t x => ?_) _ s
  split
  · exact .refl t
  · split
    · exact .refl t
    · extract_lets w every th seen silent run y v
      have hv : StepKeeps t v := .of_same rfl rfl rfl
      split
      · refine StepKeeps.trans ?_ (stepKeeps_raise _ _ _ _)
        split
        · exact hv.trans (stepKeeps_modGroup g (by intro _; rfl) v)
        · exact hv
      · exact hv

theorem stepKeeps_makeSwap (g : Group) (slot layer e f : Nat) (s : State) : StepKeeps s (makeSwap g slot layer e f s) := by
  have hswap : StepKeeps s (applySwap slot layer e f s) := (stepKeeps_vaForce _ _ _ s).trans (stepKeeps_vaForce _ _ _ _)
  refine hswap.trans (.foldl (fun v m => ?_) _ _)
  split
  · exact .of_same rfl rfl rfl
  · exact .refl v

theorem stepKeeps_swapLayer (g : Group) (slot layer : Nat) (p : Nat × State) : StepKeeps p.2 (swapLayer g slot layer p).2 := by
  have hfold {α : Type} {f : Nat × State → α → Nat × State} (h : ∀ p x, StepKeeps p.2 (f p x).2) (xs : List α) (p : Nat × State) :
      StepKeeps p.2 (xs.foldl f p).2 := by
    induction xs generalizing p with
    | nil => exact .refl _
    | cons x xs ih => exact (h p x).trans (ih _)
  unfold swapLayer
  extract_lets s lim experts
  refine hfold (fun q e => ?_) _ (p.1, s)
  extract_lets x
  split
  · exact .refl _
  · split
    · exact .refl _
    · extract_lets v
      have hv : StepKeeps q.2 v := (onlyFlags_logDecision _ _ _ _ _ _ _ _ q.2).stepKeeps
      show StepKeeps q.2 (if _ then _ else _)
      split
      · exact hv.trans (stepKeeps_makeSwap _ _ _ _ _ v)
      · exact hv

theorem stepKeeps_expertSwaps (g : Group) (commit : Bool) (s : State) : StepKeeps s (expertSwaps g commit s) := by
  have hfold (ks : List (Nat × Nat)) (p : Nat × State) : StepKeeps p.2 (ks.foldl (fun p k => swapLayer g k.1 k.2 p) p).2 := by
    induction ks generalizing p with
    | nil => exact .refl _
    | cons k ks ih => exact (stepKeeps_swapLayer g k.1 k.2 p).trans (ih _)
  unfold expertSwaps
  extract_lets keys keys' t
  have ht : StepKeeps s t := by
    show StepKeeps s (if _ then _ else _)
    split
    · exact .refl s
    · exact hfold _ (_, s)
  exact ht.trans (.of_same rfl rfl rfl)

theorem stepKeeps_policyScale (g : Group) (n : Word) (d : Decision) (s : State) : StepKeeps s (policyScale g n d s) := by
  unfold policyScale
  split
  · exact .refl s
  · extract_lets e allow growth ovf last up down t v₁ v₂ hi v₃
    have ht : StepKeeps s t := stepKeeps_modGroup g.id (by intro _; rfl) s
    have hlog (trigger old new measured : Nat) : StepKeeps s (logDecision 4 allow g.id 0 old new trigger measured t) :=
      ht.trans (onlyFlags_logDecision _ _ _ _ _ _ _ _ t).stepKeeps
    have hset (f : Group → Group) (hf : ∀ x, stepKey (f x) = stepKey x) (v : State) (hv : StepKeeps s v) :
        StepKeeps s (if allow then modGroup g.id f v else v) := by
      split
      · exact hv.trans (stepKeeps_modGroup g.id hf v)
      · exact hv
    split
    · exact hset _ (by intro _; rfl) v₁ (hlog _ _ _ _)
    · split
      · exact hset _ (by intro _; rfl) v₂ (hlog _ _ _ _)
      · split
        · exact hset _ (by intro _; rfl) v₃ (hlog _ _ _ _)
        · exact ht

theorem descs_of_finish (r : DescRec) (status : BitVec 8) (detail : BitVec 16) (result0 : Word) (s : State) :
    ∀ x ∈ (finish r status detail result0 s).descs, x ∈ s.descs := fun _ hx => (descs_finish hx).1

theorem stepKeeps_finish (r : DescRec) (status : BitVec 8) (detail : BitVec 16) (result0 : Word) (s : State) :
    StepKeeps s (finish r status detail result0 s) := by
  have h := besideFinish_finish r status detail result0 s
  have hgroups : (finish r status detail result0 s).groups = s.groups := (congrArg State.groups h :)
  have hmate : (finish r status detail result0 s).mate = s.mate := (congrArg State.mate h :)
  exact ⟨by rw [hgroups], descs_of_finish r status detail result0 s, fun _ => by rw [hmate]⟩

theorem stepKeeps_writeCard (h : CardHead) (used next : Nat) (ps : List Phase) (s : State) : StepKeeps s (writeCard h used next ps s) :=
  by
  unfold writeCard
  extract_lets mk t
  have ht : StepKeeps s t := (stepKeeps_modPort .A _ s).trans (stepKeeps_modPort .B _ _)
  exact ht.trans (.of_same rfl rfl rfl)

theorem stepKeeps_takeLimits (g : Nat) (s : State) : StepKeeps s (takeLimits g s) := by
  unfold takeLimits
  split
  · exact .refl s
  · extract_lets t e
    have ht : StepKeeps s t := .of_same rfl rfl rfl
    have hgrowth : StepKeeps t (clampGrowth g e t) := by
      unfold clampGrowth
      split
      · exact .refl t
      · extract_lets c
        split
        · exact .refl t
        · exact (stepKeeps_modGroup g (by intro _; rfl) t).trans (onlyFlags_logDecision _ _ _ _ _ _ _ _ _).stepKeeps
    have hsteps (v : State) (x : Region) : StepKeeps v (clampSteps e v x) := by
      unfold clampSteps
      extract_lets set c v' 
      have hv' : StepKeeps v v' := by
        show StepKeeps v (if _ then _ else _)
        split
        · exact .refl v
        · exact (stepKeeps_modRegion _ _ v).trans (onlyFlags_logDecision _ _ _ _ _ _ _ _ _).stepKeeps
      split
      · exact hv'
      · extract_lets d
        split
        · exact hv'
        · exact (hv'.trans (stepKeeps_modRegion _ _ v')).trans (onlyFlags_logDecision _ _ _ _ _ _ _ _ _).stepKeeps
    exact (ht.trans hgrowth).trans (.foldl hsteps _ _)

theorem stepKeeps_settlePair (s : State) : StepKeeps s (settlePair s) := by
  unfold settlePair
  split
  · next hset =>
    have hsome : s.mate.dissolving ≠ none := by
      rw [Bool.and_eq_true] at hset
      exact Option.isSome_iff_ne_none.1 hset.1
    refine ⟨?_, ?_, fun h => absurd h hsome⟩
    · unfold dissolvePair
      extract_lets r t
      cases r with
      | some r => exact (stepKeeps_finish _ _ _ _ t).groups
      | none => rfl
    · unfold dissolvePair
      extract_lets r t
      cases r with
      | some r => exact (stepKeeps_finish _ _ _ _ t).descs
      | none => exact fun _ h => h
  · exact .refl s

theorem stepKeeps_applyTopology (s : State) : StepKeeps s (applyTopology s) := by
  unfold applyTopology
  split
  · exact .refl s
  · next t _ =>
    split
    · exact .refl s
    · have hjudge := besideCarrying_judgeAll (modMod (fun m => { m with pendingTopology := none }) (modFlash (fun f => { f with topology := some t }) s))
      exact .of_same (congrArg State.groups hjudge :) (congrArg State.descs hjudge :) (congrArg State.mate hjudge :)

/-! ## Groups by their keys -/

theorem StepKeeps.groupOf {s t : State} (h : StepKeeps s t) (i : Nat) : (groupOf i t).map stepKey = (groupOf i s).map stepKey := by
  have hfind (gs : List Group) : (gs.map stepKey).find? (fun g => g.id == i) = (gs.find? fun g => g.id == i).map stepKey := List.find?_map
  rw [Machine.groupOf, Machine.groupOf, ← hfind, ← hfind, h.groups]

theorem StepKeeps.exists_group {s t : State} (h : StepKeeps s t) {i : Nat} {g : Group} (hg : Machine.groupOf i s = some g) :
    ∃ k : Group, Machine.groupOf i t = some k ∧ stepKey k = stepKey g := by
  have hkey := h.groupOf i
  rw [hg] at hkey
  exact Option.map_eq_some_iff.1 hkey

theorem StepKeeps.modGroup {s t : State} (h : StepKeeps s t) (i : Nat) {f : Group → Group} (hf : ∀ x, stepKey (f x) = stepKey (f (stepKey x))) :
    StepKeeps (modGroup i f s) (modGroup i f t) := by
  have hmap (gs : List Group) : (mapIf (fun g => g.id == i) f gs).map stepKey =
      (gs.map stepKey).map fun k => stepKey (if k.id == i then f k else k) := by
    rw [mapIf, List.map_map, List.map_map]
    refine List.map_congr_left fun x _ => ?_
    show stepKey (if x.id == i then f x else x) = stepKey (if x.id == i then f (stepKey x) else stepKey x)
    split
    · exact hf x
    · rfl
  refine ⟨?_, h.descs, h.mate⟩
  show (mapIf _ _ t.groups).map stepKey = (mapIf _ _ s.groups).map stepKey
  rw [hmap, hmap, h.groups]

/-- A group whose step has ended. -/
def closedGroup (n : Word) (d : Decision) (h : Group) : Group :=
  { h with
    open' := none, committing := none, decided := false, ackSeq := none, decision := none, reports := [], protected' := []
    lastStep := if d.commit then n else h.lastStep, e := d.e, fast := d.fast, clean := d.clean, rollbacks := d.rollbacks, origin := 0
    committedSince := if d.commit then 1 else h.committedSince, copyCrcs := if d.commit then [] else h.copyCrcs, forwarded := [], freshBytes := 0 }

theorem stepKeeps_withRegions (xs : List Region) (s : State) : StepKeeps s { s with regions := xs } := .of_same rfl rfl rfl

/-- The end of a step closes its group's step, and ends the descriptor that committed it. -/
theorem closeStep_cases (g : Group) (n : Word) (d : Decision) (t : Word) (s : State) :
    StepKeeps (modGroup g.id (closedGroup n d) s) (closeStep g n d t s) ∧
      ∀ x : Nat, g.committing = some x → descOf x (closeStep g n d t s) = none := by
  unfold closeStep
  extract_lets s₁ phases r st s₂ s₃ s₄ s₅ s₆
  have hs₁ : StepKeeps s s₁ := (stepKeeps_setShare _ s).trans (stepKeeps_watchSets _ _ _)
  have hs₂ : StepKeeps (modGroup g.id (closedGroup n d) s) s₂ := hs₁.modGroup g.id (fun _ => rfl)
  have hs₃ : StepKeeps (modGroup g.id (closedGroup n d) s) s₃ := by
    show StepKeeps _ (if _ then _ else _)
    split
    · exact hs₂.trans (stepKeeps_withRegions _ s₂)
    · exact hs₂
  have hs₅ : StepKeeps (modGroup g.id (closedGroup n d) s) s₅ :=
    (hs₃.trans (stepKeeps_expertSwaps g d.commit s₃)).trans (stepKeeps_policyScale _ n d s₄)
  have hs₆ : StepKeeps s₅ s₆ := by
    show StepKeeps s₅ (match r with | some r => _ | none => _)
    cases r with
    | some r => exact stepKeeps_finish _ _ _ _ s₅
    | none => exact .refl s₅
  have hdescs : ∀ x ∈ s₅.descs, x ∈ s₁.descs := by
    have hs₁₅ : StepKeeps s₂ s₅ := by
      refine StepKeeps.trans ?_ ((stepKeeps_expertSwaps g d.commit s₃).trans (stepKeeps_policyScale _ n d s₄))
      show StepKeeps _ (if _ then _ else _)
      split
      · exact stepKeeps_withRegions _ s₂
      · exact .refl s₂
    exact hs₁₅.descs
  have hend (v : State) (c : CardHead) (a b : Nat) (ps : List Phase) :
      StepKeeps v (applyTopology (settlePair (takeLimits g.id (writeCard c a b ps v)))) :=
    (((stepKeeps_writeCard c a b ps v).trans (stepKeeps_takeLimits _ _)).trans (stepKeeps_settlePair _)).trans (stepKeeps_applyTopology _)
  refine ⟨(hs₅.trans hs₆).trans (hend s₆ _ _ _ _), fun x hx => descOf_eq_none_iff.2 fun y hy hid => ?_⟩
  have hy₆ := (hend s₆ _ _ _ _).descs y hy
  have hr : r = descOf x s₁ := by
    show g.committing.bind (fun i => descOf i s₁) = _
    rw [hx]
    rfl
  cases hdesc : descOf x s₁ with
  | none => exact descOf_eq_none_iff.1 hdesc y (hdescs y (hs₆.descs y hy₆)) hid
  | some q =>
    have hs₆eq : ∃ (status : BitVec 8) (detail : BitVec 16) (result0 : Word), s₆ = finish q status detail result0 s₅ := by
      have hrq : r = some q := hr.trans hdesc
      exact ⟨st, if g.lost && !d.commit then 0x0401 else 0, if d.commit then t else n, by
        show (match r with | some r => _ | none => _) = _
        rw [hrq]⟩
    obtain ⟨status, detail, result0, hs₆eq⟩ := hs₆eq
    rw [hs₆eq] at hy₆
    exact (descs_finish hy₆).2 (hid.trans (id_of_descOf hdesc).symm)

end Sys2Proof.Machine
end

section
/-!
Deskmates (Machine/Deskmate.lean; R379 to R386).
-/

namespace Sys2Proof.Machine

/-! ## Segments and records queued for the partner -/

/-- From `s` to `t` segments have been queued, and records noted as sent. -/
structure MirrorSent (s t : State) : Prop where
  rest : { t with links := s.links, mate := s.mate } = s
  mate : mateKey t.mate = mateKey s.mate
  unacked : ∀ r ∈ s.mate.unacked, r ∈ t.mate.unacked
  control : ∀ j : Nat, (linkOf j t).control = (linkOf j s).control
  egress : ∀ (j : Nat), ∀ y ∈ (linkOf j s).egress, y ∈ (linkOf j t).egress

theorem MirrorSent.refl (s : State) : MirrorSent s s := ⟨rfl, rfl, fun _ h => h, fun _ => rfl, fun _ _ h => h⟩

theorem MirrorSent.trans {s t u : State} (h : MirrorSent s t) (k : MirrorSent t u) : MirrorSent s u where
  rest := by
    have hback := congrArg (fun v : State => { v with links := s.links, mate := s.mate }) k.rest
    exact hback.trans h.rest
  mate := k.mate.trans h.mate
  unacked r hr := k.unacked r (h.unacked r hr)
  control j := (k.control j).trans (h.control j)
  egress j y hy := k.egress j y (h.egress j y hy)

theorem MirrorSent.foldl {α : Type} {f : State → α → State} (h : ∀ s x, MirrorSent s (f s x)) (xs : List α) (s : State) :
    MirrorSent s (xs.foldl f s) := by
  induction xs generalizing s with
  | nil => exact .refl s
  | cons x xs ih => exact (h s x).trans (ih _)

theorem control_enqueueSeg (l j : Nat) (x : OutSeg) (s : State) : (linkOf j (enqueueSeg l x s)).control = (linkOf j s).control := by
  by_cases hj : j = l
  · subst hj
    rw [enqueueSeg, settleHold, linkOf_modLink, linkOf_modLink]
  · rw [linkOf_enqueueSeg_other _ _ _ _ hj]

theorem mirrorSent_enqueueSeg (l : Nat) (x : OutSeg) (s : State) : MirrorSent s (enqueueSeg l x s) := by
  refine ⟨rfl, rfl, fun _ h => h, fun j => control_enqueueSeg l j x s, fun j y hy => ?_⟩
  by_cases hj : j = l
  · subst hj
    exact mem_egress_enqueueSeg.2 (.inr hy)
  · rw [linkOf_enqueueSeg_other _ _ _ _ hj]
    exact hy

theorem mirrorSent_noteSent (r : JRec) (s : State) :
    MirrorSent s (modMate (fun m => { m with mirrorLink1 := !m.mirrorLink1, unacked := m.unacked ++ [r] }) s) :=
  ⟨rfl, rfl, fun _ h => List.mem_append_left _ h, fun _ => rfl, fun _ _ h => h⟩

theorem mirrorSent_sendRecord (r : JRec) (s : State) : MirrorSent s (sendRecord r s) := by
  have hqueued : MirrorSent s (sendMate s.mate.mirrorLink1 (BitVec.ofNat 64 r.seq) (recBytes r) s) :=
    .foldl (fun v x => mirrorSent_enqueueSeg _ x v) _ s
  exact hqueued.trans (mirrorSent_noteSent r _)

theorem mirrorSent_sendMirror (s : State) : MirrorSent s (sendMirror s) := by
  have hclear : MirrorSent s (modMate (fun m => { m with toSend := [] }) s) := ⟨rfl, rfl, fun _ h => h, fun _ => rfl, fun _ _ h => h⟩
  unfold sendMirror
  split
  · exact hclear.trans (.foldl (fun v r => mirrorSent_sendRecord r v) _ _)
  · exact hclear

/-- Segments queued one after another on a link all stand in its queue. -/
theorem mem_egress_foldl_enqueueSeg {l : Nat} {xs : List OutSeg} {y : OutSeg} (s : State) (hy : y ∈ xs) :
    y ∈ (linkOf l (xs.foldl (fun s x => enqueueSeg l x s) s)).egress := by
  induction xs generalizing s with
  | nil => exact absurd hy List.not_mem_nil
  | cons x xs ih =>
    rcases List.mem_cons.1 hy with rfl | hy
    · exact (MirrorSent.foldl (fun v x => mirrorSent_enqueueSeg l x v) xs _).egress l y (mem_egress_enqueueSeg.2 (.inl rfl))
    · exact ih _ hy

theorem mirrorSent_foldl_enqueueSeg (l : Nat) (xs : List OutSeg) (s : State) : MirrorSent s (xs.foldl (fun s x => enqueueSeg l x s) s) :=
  .foldl (fun v x => mirrorSent_enqueueSeg l x v) xs s

theorem MirrorSent.memory {s t : State} (h : MirrorSent s t) : t.memory = s.memory := (congrArg State.memory h.rest :)
theorem MirrorSent.nmu {s t : State} (h : MirrorSent s t) : t.nmu = s.nmu := (congrArg State.nmu h.rest :)
theorem MirrorSent.groups {s t : State} (h : MirrorSent s t) : t.groups = s.groups := (congrArg State.groups h.rest :)

theorem Policed.time {l : Fin 36} {it : Item} {kind : Nat} {s u : State} (h : Policed l it kind s u) : u.time = s.time :=
  (congrArg State.time h.onlyLinks :)

theorem Policed.mate {l : Fin 36} {it : Item} {kind : Nat} {s u : State} (h : Policed l it kind s u) : u.mate = s.mate :=
  (congrArg State.mate h.onlyLinks :)

theorem Policed.partner {l : Fin 36} {it : Item} {kind : Nat} {s u : State} (h : Policed l it kind s u) :
    (Machine.linkOf l u).partner = (Machine.linkOf l s).partner :=
  (congrArg Link.partner h.linkOf.1 :)

/-! ## Heartbeats (R381) -/

theorem hopsFrom_modMate (f : MateSt → MateSt) (t : Topology) (avoided : Bool) (skip : Option Nat) (s : State) (fuel d : Nat) (front : List Nat)
    (dist : Tbl Nat) : hopsFrom t avoided skip (modMate f s) fuel d front dist = hopsFrom t avoided skip s fuel d front dist := by
  induction fuel generalizing d front dist with
  | zero => rfl
  | succ fuel ih =>
    rw [hopsFrom, hopsFrom]
    simp only [ih]
    rfl

theorem descend_modMate (f : MateSt → MateSt) (t : Topology) (avoided : Bool) (skip : Option Nat) (dist : Tbl Nat) (s : State) (fuel v : Nat) :
    descend t avoided skip dist (modMate f s) fuel v = descend t avoided skip dist s fuel v := by
  induction fuel generalizing v with
  | zero => rfl
  | succ fuel ih =>
    rw [descend, descend]
    simp only [ih]
    rfl

theorem pathOver_modMate (f : MateSt → MateSt) (avoided : Bool) (skip : Option Nat) (ident : Word) (s : State) :
    pathOver avoided skip ident (modMate f s) = pathOver avoided skip ident s := by
  unfold pathOver
  simp only [hopsFrom_modMate, descend_modMate]
  rfl

/-- What is known of the pair does not enter a route. -/
theorem linkTo_modMate (f : MateSt → MateSt) (ident : Word) (s : State) : linkTo ident (modMate f s) = linkTo ident s := by
  simp only [linkTo, routeTo, routeSkip, pathOver_modMate]

/-- The mirror link of a number: 1 for L18 and 0 for L00. -/
theorem mirrorIndex_eq (l : Fin 36) : (if l.val == 18 then 1 else 0) = if l.val = 18 then 1 else 0 := by simp only [beq_iff_eq]

theorem mirrorIndex_lt (l : Fin 36) : (if l.val = 18 then 1 else 0) < 2 := by split <;> decide

theorem mirrorLink_true {l : Fin 36} (h : l.val = 0 ∨ l.val = 18) : (l.val == 0 || l.val == 18) = true := by
  simpa only [Bool.or_eq_true, beq_iff_eq] using h

/-- A pair whose heartbeat has gone out on a mirror link. -/
def beatSent (i : Nat) (t : Word) (m : MateSt) : MateSt := { m with sentBeat := vset m.sentBeat i t }

theorem completes_heartbeatSend {l : Fin 36} {s : State} (hformed : s.mate.formed = true) (hl : l.val = 0 ∨ l.val = 18) (hup : (linkOf l s).state = 3)
    (hdue : 100000 ≤ nsSince (vget s.mate.sentBeat (if l.val = 18 then 1 else 0) 0) (mono s)) :
    Completes (.heartbeatSend l) s fun t => { t with links := s.links, mate := s.mate } = s ∧
      vget t.mate.sentBeat (if l.val = 18 then 1 else 0) 0 = mono s ∧
      (∀ j : Nat, j ≠ l.val → linkOf j t = linkOf j s) ∧ ∃ it : Item, linkOf l t = { linkOf l s with control := (linkOf l s).control ++ [it] } ∧
        itemKind it = 0x13 ∧ it.w2 = s.time.dtime := by
  have hok : (s.mate.formed && (l.val == 0 || l.val == 18) && (linkOf l s).state == 3 &&
      decide (100000 ≤ nsSince (vget s.mate.sentBeat (if l.val == 18 then 1 else 0) 0) (mono s))) = true := by
    rw [mirrorIndex_eq, hformed, mirrorLink_true hl, hup, decide_eq_true hdue]
    rfl
  have hexec : execHeartbeatSend l s = .next (sendItem l (mkItem 0x13 0 (beatStep s) (now s) 0 0 0)
      (modMate (beatSent (if l.val == 18 then 1 else 0) (mono s)) s)) := congrArg Host.Outcome.next (if_pos hok)
  rw [mirrorIndex_eq] at hexec
  refine ⟨_, hexec, rfl, vget_vset_same _ _ _ _ (mirrorIndex_lt l), fun j hj => linkOf_modLink_other _ _ _ _ hj, _, linkOf_modLink _ _ _,
    itemKind_mkItem _ _ _ _ _ (by decide) (by decide), rfl⟩

theorem completes_heartbeatReceive {l : Fin 36} {it : Item} {s u : State} (h : Policed l it 0x13 s u)
    (hpartner : s.mate.partner = some (linkOf l s).partner) (hl : l.val = 0 ∨ l.val = 18) :
    Completes (.heartbeatReceive l it) s fun t => { t with mate := s.mate } = u ∧
      vget t.mate.lastBeat (if l.val = 18 then 1 else 0) none = some (mono s) ∧ { t.mate with lastBeat := s.mate.lastBeat } = s.mate := by
  have hok : (u.mate.partner == some (linkOf l u).partner && (l.val == 0 || l.val == 18)) = true := by
    rw [h.mate, h.partner, hpartner, mirrorLink_true hl, beq_self_eq_true]
    rfl
  have hexec : execHeartbeatReceive l it s = .next (modMate (fun m => { m with
      lastBeat := vset m.lastBeat (if l.val == 18 then 1 else 0) (some (mono u)) }) u) :=
    (congrArg Host.Outcome.next (withItem_policed h _)).trans (congrArg Host.Outcome.next (if_pos hok))
  rw [mirrorIndex_eq, h.mono] at hexec
  have hmate := h.mate
  refine ⟨_, hexec, ?_, vget_vset_same _ _ _ _ (mirrorIndex_lt l), ?_⟩
  · rw [← hmate]
    rfl
  · show { u.mate with lastBeat := s.mate.lastBeat } = s.mate
    rw [hmate]

theorem completes_heartbeatTimeout {s : State} {w m : Word} {l : Nat} (hpartner : s.mate.partner = some w) (hformed : s.mate.formed = true)
    (hwhole : s.mate.degraded = false) (hasked : s.mate.takeoverAsked = false) (hlost : beatsLost s = true) (hstays : ∀ x ∈ s.mod.leaving, x.1 ≠ w)
    (hm : s.groups.findSome? (fun g => witness g w s) = some m) (hlink : linkTo m s = some l) :
    Completes .heartbeatTimeout s fun t => t.mate = { s.mate with takeoverAsked := true } ∧ { t with links := s.links, mate := s.mate } = s ∧
      ∃ it : Item, (linkOf l t).control = (linkOf l s).control ++ [it] ∧ itemKind it = 0x14 ∧ it.w1 = w := by
  have hleaving : (s.mod.leaving.any fun x => x.1 == w) = false := by
    rw [List.any_eq_false]
    exact fun x hx => by simpa only [beq_iff_eq] using hstays x hx
  have hexec : ∃ at' : Word, execHeartbeatTimeout s = .next (sendItem l (mkItem 0x14 0 w at' 0 0 0)
      (modMate (fun x => { x with takeoverAsked := true }) s)) := by
    refine ⟨now s - BitVec.ofNat 64 ((mono s).toNat - s.mate.lastBeat.toList.foldl (fun m b => max m (b.getD 0).toNat) 0), ?_⟩
    have hlink' : linkTo m (modMate (fun x => { x with takeoverAsked := true }) s) = some l := (linkTo_modMate _ m s).trans hlink
    simp only [execHeartbeatTimeout, hpartner, hformed, hwhole, hasked, hlost, hleaving, hm, sendTo, hlink', Bool.not_true, Bool.or_false,
      Bool.false_eq_true, if_false]
  obtain ⟨at', hexec⟩ := hexec
  exact ⟨_, hexec, rfl, rfl, _, congrArg Link.control (linkOf_modLink _ _ _), itemKind_mkItem _ _ _ _ _ (by decide) (by decide), rfl⟩

theorem completes_takeoverRequestReceive {l : Fin 36} {it : Item} {s u : State} (h : Policed l it 0x14 s u) :
    Completes (.takeoverRequestReceive l it) s fun t => OnlyLink l u t ∧
      linkOf l t = { linkOf l u with control := (linkOf l u).control ++ [mkItem 0x15 0 it.w1 (if heardOf it.w1 u then 0 else 1) 0 0 0] } := by
  have hexec : execTakeoverRequestReceive l it s = .next (sendItem l (mkItem 0x15 0 it.w1 (if heardOf it.w1 u then 0 else 1) 0 0 0) u) :=
    congrArg Host.Outcome.next (withItem_policed h _)
  exact ⟨_, hexec, onlyLink_modLink _ _ _, linkOf_modLink _ _ _⟩

/-! ## Redone contributions, digests and repairs (R378, R385, R386) -/

theorem completes_redoRequestReceive {l : Fin 36} {it : Item} {s u : State} {g : Group} {x : Nat × Nat × Nat × Nat × Nat} (h : Policed l it 0x17 s u)
    (hg : groupOf (fieldNat it.w1 0 16) u = some g) (hopen : g.open' = some it.w2)
    (hx : g.stepSrc.find? (fun x => x.1 % 2 ^ 48 == fieldNat it.w1 16 48) = some x) : Completes (.redoRequestReceive l it) s fun t =>
      t.memory = s.memory ∧ ∀ y ∈ mateSegs it.w2 (vaRead x.2.1 (x.2.2.1 + x.2.2.2.2 * fieldNat it.w3 0 48)
        (min (x.2.2.2.2 * fieldNat it.w4 0 48) (x.2.2.2.1 - x.2.2.2.2 * fieldNat it.w3 0 48)) u) s.time.dtime, y ∈ (linkOf l t).egress := by
  have hok : (g.open' != some it.w2) = false := bne_eq_false_iff_eq.2 hopen
  have hexec : execRedoRequestReceive l it s = .next ((mateSegs it.w2 (vaRead x.2.1 (x.2.2.1 + x.2.2.2.2 * fieldNat it.w3 0 48)
      (min (x.2.2.2.2 * fieldNat it.w4 0 48) (x.2.2.2.1 - x.2.2.2.2 * fieldNat it.w3 0 48)) u) (now u)).foldl (fun s x => enqueueSeg l x s) u) := by
    refine (congrArg Host.Outcome.next (withItem_policed h _)).trans ?_
    simp only [hg, hok, hx, Bool.false_eq_true, if_false]
  have hnow : now u = s.time.dtime := congrArg (fun v => v.dtime) h.time
  rw [hnow] at hexec
  exact ⟨_, hexec, (mirrorSent_foldl_enqueueSeg _ _ u).memory.trans h.memory, fun y hy => mem_egress_foldl_enqueueSeg u hy⟩

theorem completes_repairRequestReceive {l : Fin 36} {it : Item} {s u : State} {bs : List Byte} (h : Policed l it 0x19 s u)
    (hbytes : copyBytes (fieldNat it.w1 0 16) (fieldNat it.w2 0 48) u = some bs) : Completes (.repairRequestReceive l it) s fun t =>
      t.memory = s.memory ∧ t.nmu = s.nmu ∧
      ∀ y ∈ mateSegs it.w3 (recBytes { kind := 7, journal := 0, step := it.w3, binding := fieldNat it.w1 0 16, mirror := false
                                       unit := fieldNat it.w2 0 48, seq := 0, postCrc := crc64 bs, chain := 0, payload := bs }) s.time.dtime,
        y ∈ (linkOf l t).egress := by
  have hexec : execRepairRequestReceive l it s = .next ((mateSegs it.w3 (recBytes { kind := 7, journal := 0, step := it.w3, binding := fieldNat it.w1 0 16, mirror := false, unit := fieldNat it.w2 0 48, seq := 0, postCrc := crc64 bs, chain := 0, payload := bs }) (now u)).foldl (fun s x => enqueueSeg l x s) u) := by
    refine (congrArg Host.Outcome.next (withItem_policed h _)).trans ?_
    simp only [hbytes]
  have hnow : now u = s.time.dtime := congrArg (fun v => v.dtime) h.time
  rw [hnow] at hexec
  have hnmu : u.nmu = s.nmu := (congrArg State.nmu h.onlyLinks :)
  exact ⟨_, hexec, (mirrorSent_foldl_enqueueSeg _ _ u).memory.trans h.memory, (mirrorSent_foldl_enqueueSeg _ _ u).nmu.trans hnmu,
    fun y hy => mem_egress_foldl_enqueueSeg u hy⟩

/-- A unit noted as one to be resolved, and asked for. -/
def askUnit (l : Nat) (b : Binding) (n : Word) (s : State) (u : Nat) : State :=
  sendItem l (mkItem 0x19 0 (BitVec.ofNat 64 b.num) (BitVec.ofNat 64 u) n 0 0)
    (modMate (fun m => { m with repairing := if m.repairing.contains (b.num, u) then m.repairing else m.repairing ++ [(b.num, u)] }) s)

/-- Units asked for from `s` to `t`: what was noted stays, and what was queued too. -/
structure UnitsAsked (l : Nat) (s t : State) : Prop where
  memory : t.memory = s.memory
  repairing : ∀ x ∈ s.mate.repairing, x ∈ t.mate.repairing
  control : ∀ q ∈ (linkOf l s).control, q ∈ (linkOf l t).control

theorem unitsAsked_askUnit (l : Nat) (b : Binding) (n : Word) (u : Nat) (s : State) : UnitsAsked l s (askUnit l b n s u) := by
  refine ⟨rfl, fun x hx => ?_, fun q hq => ?_⟩
  · show x ∈ if s.mate.repairing.contains (b.num, u) then s.mate.repairing else s.mate.repairing ++ [(b.num, u)]
    split
    · exact hx
    · exact List.mem_append_left _ hx
  · rw [askUnit, sendItem, linkOf_modLink]
    exact List.mem_append_left _ hq

theorem unitsAsked_foldl (l : Nat) (b : Binding) (n : Word) (us : List Nat) (s : State) : UnitsAsked l s (us.foldl (askUnit l b n) s) := by
  induction us generalizing s with
  | nil => exact ⟨rfl, fun _ h => h, fun _ h => h⟩
  | cons u us ih =>
    have h := unitsAsked_askUnit l b n u s
    have k := ih (askUnit l b n s u)
    exact ⟨k.memory.trans h.memory, fun x hx => k.repairing x (h.repairing x hx), fun q hq => k.control q (h.control q hq)⟩

theorem askUnit_asks (l : Nat) (b : Binding) (n : Word) (u : Nat) (s : State) : (b.num, u) ∈ (askUnit l b n s u).mate.repairing ∧
    ∃ q ∈ (linkOf l (askUnit l b n s u)).control, itemKind q = 0x19 ∧ q.w2 = BitVec.ofNat 64 u := by
  constructor
  · show (b.num, u) ∈ if s.mate.repairing.contains (b.num, u) then s.mate.repairing else s.mate.repairing ++ [(b.num, u)]
    split
    · next hin => exact List.contains_iff_mem.1 hin
    · exact List.mem_append_right _ (List.mem_singleton.2 rfl)
  · rw [askUnit, sendItem, linkOf_modLink]
    exact ⟨_, List.mem_append_right _ (List.mem_singleton.2 rfl), itemKind_mkItem _ _ _ _ _ (by decide) (by decide), rfl⟩

theorem foldl_askUnit_asks {l : Nat} {b : Binding} {n : Word} {us : List Nat} {u : Nat} (s : State) (hu : u ∈ us) :
    (b.num, u) ∈ (us.foldl (askUnit l b n) s).mate.repairing ∧
      ∃ q ∈ (linkOf l (us.foldl (askUnit l b n) s)).control, itemKind q = 0x19 ∧ q.w2 = BitVec.ofNat 64 u := by
  induction us generalizing s with
  | nil => exact absurd hu List.not_mem_nil
  | cons v us ih =>
    rcases List.mem_cons.1 hu with rfl | hu
    · obtain ⟨hnoted, q, hq, hkind, hw⟩ := askUnit_asks l b n u s
      have hkeeps := unitsAsked_foldl l b n us (askUnit l b n s u)
      exact ⟨hkeeps.repairing _ hnoted, q, hkeeps.control q hq, hkind, hw⟩
    · exact ih _ hu

theorem completes_digestReceive {l : Fin 36} {it : Item} {s u : State} {b : Binding} (h : Policed l it 0x18 s u)
    (hb : bindingOf (fieldNat it.w1 0 16) u = some b) :
    let seg := fieldNat it.w1 16 48
    let mine := segDigest b seg u == wordBytes it.w2 ++ wordBytes it.w3 ++ wordBytes it.w4 ++ wordBytes it.w5
    Completes (.digestReceive l it) s fun t => (mine = true → t = u) ∧
      (mine = false → t.memory = s.memory ∧ ∀ j : Nat, j < 64 → 64 * seg + j < stripeCount b →
        (b.num, b.lbase + 1024 * (64 * seg + j)) ∈ t.mate.repairing ∧ ∃ q ∈ (linkOf l t).control, itemKind q = 0x19 ∧
          q.w2 = BitVec.ofNat 64 (b.lbase + 1024 * (64 * seg + j))) := by
  intro seg mine
  have hexec : execDigestReceive l it s = .next (if mine then u else
      (((List.range 64).filter fun j => 64 * seg + j < stripeCount b).map fun j => b.lbase + 1024 * (64 * seg + j)).foldl
        (askUnit l b (((groupOf b.group u).map fun g => g.lastStep).getD 0)) u) := by
    refine (congrArg Host.Outcome.next (withItem_policed h _)).trans ?_
    simp only [hb]
    rfl
  refine ⟨_, hexec, fun hmine => if_pos hmine, fun hmine => ?_⟩
  rw [if_neg (by rw [hmine]; exact Bool.false_ne_true)]
  refine ⟨(unitsAsked_foldl _ _ _ _ u).memory.trans h.memory, fun j hj hstripe => foldl_askUnit_asks u ?_⟩
  exact List.mem_map.2 ⟨j, List.mem_filter.2 ⟨List.mem_range.2 hj, decide_eq_true hstripe⟩, rfl⟩

end Sys2Proof.Machine
end

section
/-!
Moved ranks, mirrored records, acknowledgments and takeover (Machine/Deskmate.lean; R380 to R384).
-/

namespace Sys2Proof.Machine

/-! ## Moved ranks (R383) -/

theorem groupOf_modGroup {f : Group → Group} (hf : ∀ g, (f g).id = g.id) (i j : Nat) (s : State) :
    groupOf i (modGroup j f s) = if i = j then (groupOf i s).map f else groupOf i s := find?_mapIf (f := f) (fun g : Group => g.id) hf i j s.groups

theorem id_of_groupOf {i : Nat} {s : State} {g : Group} (h : groupOf i s = some g) : g.id = i :=
  beq_iff_eq.1 (List.find?_some (p := fun g : Group => g.id == i) h)

/-- A group in which a rank has moved to another holder. -/
def movedGroup (r : Nat) (holder : Word) (g : Group) : Group :=
  { g with
    holders := g.holders.filter (fun x => x.1 != r) ++ [(r, holder)]
    absent := if g.absent.contains r then g.absent else g.absent ++ [r] }

theorem moveRank_cases (g : Group) (r : Nat) (holder : Word) (s : State) :
    StepKeeps (modGroup g.id (movedGroup r holder) s) (moveRank g r holder s) ∧ (moveRank g r holder s).memory = s.memory := by
  have hdrop (t : State) : StepKeeps t (dropAbsent g r t) := .of_same rfl rfl rfl
  unfold moveRank
  extract_lets v w
  have hw : StepKeeps v w := (hdrop v).trans (onlyFlags_raiseEvent _ _ _).stepKeeps
  have hwm : w.memory = s.memory := rfl
  clear_value w
  split
  · exact ⟨hw, hwm⟩
  · next n _ =>
    have hsent : OnlyControl w (((heldRanks g w).filter fun h => h != 0 && parentRank (groupN g) h == r).foldl (fun s h =>
        match g.reports.find? fun x => x.low == h + 131072 with
        | some x => sendTo holder (reportItem g n { x with low := h }) s
        | none => s) w) := by
      refine onlyControl_foldl (fun u h => ?_) _ w
      split
      · exact onlyControl_sendTo _ _ u
      · exact OnlyControl.refl u
    exact ⟨hw.trans hsent.stepKeeps, (congrArg State.memory hsent.1 :).trans hwm⟩

theorem onlyControl_sendBeyond (l : Nat) (g : Group) (it : Item) (s : State) : OnlyControl s (sendBeyond l g it s) :=
  onlyControl_foldl (fun u k => onlyControl_sendItem k it u) _ s

theorem completes_rankMovedReceive {l : Fin 36} {it : Item} {s u : State} {g : Group} (h : Policed l it 0x16 s u)
    (hg : groupOf (fieldNat it.w1 0 16) u = some g) (hother : fieldNat it.w1 16 14 ≠ g.rank) (hrank : fieldNat it.w1 16 14 < groupN g)
    (hmoved : rankHolder g (fieldNat it.w1 16 14) ≠ it.w2) : Completes (.rankMovedReceive l it) s fun t => t.memory = s.memory ∧
      ∃ h : Group, groupOf g.id t = some h ∧ (fieldNat it.w1 16 14, it.w2) ∈ h.holders ∧
        (∀ x ∈ h.holders, x.1 = fieldNat it.w1 16 14 → x.2 = it.w2) ∧ fieldNat it.w1 16 14 ∈ h.absent ∧
        h.open' = g.open' ∧ h.lastStep = g.lastStep := by
  have hok : (fieldNat it.w1 16 14 == g.rank || decide (groupN g ≤ fieldNat it.w1 16 14) || rankHolder g (fieldNat it.w1 16 14) == it.w2) = false := by
    rw [beq_eq_false_iff_ne.2 hother, beq_eq_false_iff_ne.2 hmoved, decide_eq_false (Nat.not_le.2 hrank)]
    rfl
  have hexec : execRankMovedReceive l it s = .next (moveRank g (fieldNat it.w1 16 14) it.w2 (sendBeyond l g it u)) := by
    refine (congrArg Host.Outcome.next (withItem_policed h _)).trans ?_
    simp only [hg, hok, Bool.false_eq_true, if_false]
  generalize fieldNat it.w1 16 14 = r at hexec
  have hsent := onlyControl_sendBeyond l g it u
  obtain ⟨hkeeps, hmem⟩ := moveRank_cases g r it.w2 (sendBeyond l g it u)
  have hgroup : groupOf g.id (modGroup g.id (movedGroup r it.w2) (sendBeyond l g it u)) = some (movedGroup r it.w2 g) := by
    have hgroups : (sendBeyond l g it u).groups = u.groups := (congrArg State.groups hsent.1 :)
    have hsame : groupOf g.id (sendBeyond l g it u) = some g := by
      rw [groupOf, hgroups, id_of_groupOf hg]
      exact hg
    rw [groupOf_modGroup (by intro _; rfl), if_pos rfl, hsame]
    rfl
  obtain ⟨k, hk, hkey⟩ := hkeeps.exists_group hgroup
  have hholders : k.holders = g.holders.filter (fun x => x.1 != r) ++ [(r, it.w2)] := (congrArg Group.holders hkey :)
  have habsent : k.absent = if g.absent.contains r then g.absent else g.absent ++ [r] := (congrArg Group.absent hkey :)
  refine ⟨_, hexec, hmem.trans ((congrArg State.memory hsent.1 :).trans h.memory), k, hk, ?_, fun x hx hxr => ?_, ?_, (congrArg Group.open' hkey :),
    (congrArg Group.lastStep hkey :)⟩
  · rw [hholders]
    exact List.mem_append_right _ (List.mem_singleton.2 rfl)
  · rw [hholders, List.mem_append, List.mem_filter, List.mem_singleton] at hx
    rcases hx with ⟨-, hne⟩ | rfl
    · exact absurd hxr (bne_iff_ne.1 hne)
    · rfl
  · rw [habsent]
    split
    · next hin => exact List.contains_iff_mem.1 hin
    · exact List.mem_append_right _ (List.mem_singleton.2 rfl)

/-! ## Acknowledgments (R376, R380) -/

/-- A pair whose partner has acknowledged a journal to a record. -/
def ackedMate (j q : Nat) (m : MateSt) : MateSt :=
  { m with
    ackedSeq := vset m.ackedSeq j (some (max q ((vget m.ackedSeq j none).getD 0)))
    unacked := m.unacked.filter fun r => !(r.journal == j && decide (r.seq ≤ q)) }

theorem completes_mirrorAckReceive {l : Fin 36} {it : Item} {s u : State} (h : Policed l it 0x12 s u)
    (hpartner : s.mate.partner = some (linkOf l s).partner) (hj : fieldNat it.w1 0 5 < 24) (hquiet : ∀ g ∈ s.groups, g.ackSeq = none) :
    Completes (.mirrorAckReceive l it) s fun t =>
      (∃ n : Nat, vget t.mate.ackedSeq (fieldNat it.w1 0 5) none = some n ∧ it.w2.toNat ≤ n) ∧
      (∀ x ∈ s.mate.unacked, x ∈ t.mate.unacked ∨ (x.journal = fieldNat it.w1 0 5 ∧ x.seq ≤ it.w2.toNat)) ∧ t.groups = s.groups := by
  have hok : (u.mate.partner != some (linkOf l u).partner) = false := by
    rw [h.mate, h.partner]
    exact bne_eq_false_iff_eq.2 hpartner
  have hnone (waits : Group → Bool) (hwaits : ∀ g, g.ackSeq = none → waits g = false) : s.groups.filter waits = [] := by
    rw [List.filter_eq_nil_iff]
    intro g hg
    rw [hwaits g (hquiet g hg)]
    exact Bool.false_ne_true
  have hexec : ∃ v, execMirrorAckReceive l it s = .next (sendMirror v) ∧ v.groups = s.groups ∧
      v.mate.ackedSeq = (ackedMate (fieldNat it.w1 0 5) it.w2.toNat u.mate).ackedSeq ∧
      v.mate.unacked = (ackedMate (fieldNat it.w1 0 5) it.w2.toNat u.mate).unacked := by
    unfold execMirrorAckReceive
    rw [withItem_policed h, if_neg (by rw [hok]; exact Bool.false_ne_true)]
    extract_lets j q v own differs w
    have hgroups : w.groups = s.groups := h.groups
    rw [hgroups, hnone _ (fun g hg => by rw [hg])]
    exact ⟨w, rfl, hgroups, rfl, rfl⟩
  obtain ⟨v, hexec, hgroups, hacked, hunacked⟩ := hexec
  have hsent := mirrorSent_sendMirror v
  have hmate := h.mate
  have hreached : vget (ackedMate (fieldNat it.w1 0 5) it.w2.toNat u.mate).ackedSeq (fieldNat it.w1 0 5) none =
      some (max it.w2.toNat ((vget u.mate.ackedSeq (fieldNat it.w1 0 5) none).getD 0)) := vget_vset_same _ _ _ _ hj
  refine ⟨_, hexec, ⟨_, ?_, Nat.le_max_left _ ((vget u.mate.ackedSeq (fieldNat it.w1 0 5) none).getD 0)⟩, fun x hx => ?_, hsent.groups.trans hgroups⟩
  · rw [show (sendMirror v).mate.ackedSeq = v.mate.ackedSeq from (congrArg MateSt.ackedSeq hsent.mate :), hacked]
    exact hreached
  · by_cases hx' : x.journal = fieldNat it.w1 0 5 ∧ x.seq ≤ it.w2.toNat
    · exact .inr hx'
    · refine .inl (hsent.unacked x ?_)
      rw [hunacked, hmate, ackedMate, List.mem_filter]
      refine ⟨hx, ?_⟩
      simpa only [Bool.not_eq_true', Bool.and_eq_false_iff, beq_eq_false_iff_ne, decide_eq_false_iff_not, ← not_and_or] using hx'

/-! ## The mirror (R380) -/

theorem OnlyFlags.mate {s t : State} (h : OnlyFlags s t) : t.mate = s.mate := by
  have hquiet : quiet t = quiet s := h
  exact (congrArg State.mate hquiet :)

theorem mate_raise (i code : Nat) (args : List Nat) (s : State) : (raiseDev i (raiseEvent code args s)).mate = s.mate :=
  ((onlyFlags_raiseEvent _ _ _).trans (onlyFlags_raiseDev _ _)).mate

theorem mate_journalFull (j : Nat) (s : State) : (journalFull j s).mate = s.mate := by
  unfold journalFull
  rw [mate_raise]

theorem mate_noteGap (j : Nat) (r : JRec) (s : State) : (noteGap j r s).mate = s.mate := by
  unfold noteGap
  rw [mate_raise]
  rfl

/-- From `s` to `t` the pair is the same. -/
def SameMate (s t : State) : Prop := t.mate = s.mate

theorem sameMate_modNmu (f : NmuSt → NmuSt) (s : State) : SameMate s (modNmu f s) := rfl

theorem sameMate_trimJournal (j fuel : Nat) (s : State) : SameMate s (trimJournal j fuel s) := by
  induction fuel generalizing s with
  | zero => rfl
  | succ fuel ih =>
    unfold trimJournal
    extract_lets rs
    split
    · rfl
    · split
      · exact mate_journalFull j s
      · next r _ =>
        refine (ih _).trans ?_
        split
        · exact (sameMate_modNmu _ _).trans (mate_noteGap j r s)
        · exact sameMate_modNmu _ s

/-- A record of the mirror is kept for no partner. -/
theorem mate_appendRec_mirror {r : JRec} (h : r.mirror = true) (s : State) : (appendRec r s).mate = s.mate := by
  show SameMate s (appendRec r s)
  unfold appendRec
  extract_lets j r' v w
  have hw : w = v := by
    have hmirror : r'.mirror = true := h
    refine if_neg ?_
    rw [hmirror, Bool.not_true, Bool.and_false]
    exact Bool.false_ne_true
  refine (sameMate_trimJournal _ _ w).trans ?_
  rw [hw]
  exact sameMate_modNmu _ s

theorem mirrorHas_advanceMirror {i q : Nat} (j fuel : Nat) {m : MateSt} (h : mirrorHas i q m = true) (hj : j < 24) :
    mirrorHas i q (advanceMirror j fuel m) = true := by
  induction fuel generalizing m with
  | zero => exact h
  | succ fuel ih =>
    unfold advanceMirror
    split
    · next n hn =>
      split
      · refine ih ?_
        simp only [mirrorHas, Bool.or_eq_true] at h ⊢
        by_cases hi : i = j
        · subst hi
          rw [vget_vset_same _ _ _ _ hj]
          rw [hn] at h
          rcases h with h | h
          · exact .inl (decide_eq_true (by have := of_decide_eq_true h; omega))
          · by_cases hq : q = n + 1
            · exact .inl (decide_eq_true (by omega))
            · refine .inr (List.contains_iff_mem.2 ((List.mem_erase_of_ne ?_).2 (List.contains_iff_mem.1 h)))
              exact fun heq => hq (congrArg Prod.snd heq :)
        · rw [vget_vset_other _ _ _ _ _ hi]
          refine h.imp id fun h => List.contains_iff_mem.2 ((List.mem_erase_of_ne ?_).2 (List.contains_iff_mem.1 h))
          exact fun heq => hi (congrArg Prod.fst heq :)
      · exact h
    · exact h

theorem advanceMirror_rest (j fuel : Nat) (m : MateSt) : { advanceMirror j fuel m with mirrorAt := m.mirrorAt, ahead := m.ahead } = m := by
  induction fuel generalizing m with
  | zero => rfl
  | succ fuel ih =>
    unfold advanceMirror
    split
    · next n _ =>
      split
      · have hback := congrArg (fun k : MateSt => { k with mirrorAt := m.mirrorAt, ahead := m.ahead })
          (ih { m with mirrorAt := vset m.mirrorAt j (some (n + 1)), ahead := m.ahead.erase (j, n + 1) })
        exact hback
      · rfl
    · rfl

/-- A pair that holds a record of its partner's journal, in order or ahead. -/
def heldMate (r : JRec) (m : MateSt) : MateSt :=
  match vget m.mirrorAt r.journal none with
  | none => { m with mirrorAt := vset m.mirrorAt r.journal (some r.seq) }
  | some _ => { m with ahead := m.ahead ++ [(r.journal, r.seq)] }

theorem mirrorHas_heldMate {r : JRec} (hj : r.journal < 24) (m : MateSt) : mirrorHas r.journal r.seq (heldMate r m) = true := by
  unfold heldMate
  split
  · rw [mirrorHas, vget_vset_same _ _ _ _ hj]
    simp only [le_refl, decide_true, Bool.true_or]
  · rw [mirrorHas, Bool.or_eq_true]
    exact .inr (List.contains_iff_mem.2 (List.mem_append_right _ (List.mem_singleton.2 rfl)))

theorem heldMate_rest (r : JRec) (m : MateSt) : { heldMate r m with mirrorAt := m.mirrorAt, ahead := m.ahead } = m := by
  unfold heldMate
  split <;> rfl

/-- A pair that holds a record, and those that came ahead of it. -/
def advancedMate (r : JRec) (m : MateSt) : MateSt := advanceMirror r.journal ((heldMate r m).ahead.length + 1) (heldMate r m)

theorem advancedMate_rest (r : JRec) (m : MateSt) : { advancedMate r m with mirrorAt := m.mirrorAt, ahead := m.ahead } = m := by
  have hback := congrArg (fun k : MateSt => { k with mirrorAt := m.mirrorAt, ahead := m.ahead })
    (advanceMirror_rest r.journal ((heldMate r m).ahead.length + 1) (heldMate r m))
  exact hback.trans (heldMate_rest r m)

/-- A pair whose mirror has taken a record. -/
def mirroredMate (r : JRec) (m : MateSt) : MateSt :=
  { advancedMate r m with
    units := if r.kind == 1 || r.kind == 3 || r.kind == 7 then xorUnit r (advancedMate r m).units else (advancedMate r m).units
    mirrorCrc := if r.kind == 5 || r.kind == 6 then r.postCrc else (advancedMate r m).mirrorCrc
    mirrorStep := if r.kind == 5 then r.step else (advancedMate r m).mirrorStep }

theorem mirrorRec_eq {r : JRec} {s : State} (hnew : mirrorHas r.journal r.seq s.mate = false) (hkind : r.kind ≠ 6) :
    mirrorRec r s = appendRec { r with mirror := true } (modMate (mirroredMate r) s) := by
  have hstays : ¬(r.kind == 6) = true := by rw [beq_iff_eq]; exact hkind
  unfold mirrorRec
  rw [if_neg (by rw [hnew]; exact Bool.false_ne_true)]
  extract_lets unit commit v
  rw [if_neg hstays]
  rfl

theorem mirrorHas_mirroredMate {r : JRec} (hj : r.journal < 24) (m : MateSt) : mirrorHas r.journal r.seq (mirroredMate r m) = true :=
  mirrorHas_advanceMirror r.journal _ (mirrorHas_heldMate hj m) hj

end Sys2Proof.Machine
end

section
/-!
Records of the partner that come in, and takeover (Machine/Deskmate.lean; R380 to R384).
-/

namespace Sys2Proof.Machine

/-! ## A record of the partner (R380) -/

/-- A pair that has taken the bytes of a segment whole. -/
def tookParts (i : Nat) (m : MateSt) : MateSt := { m with parts := vset m.parts i [] }

theorem mate_mirrorRec {r : JRec} {s : State} (hnew : mirrorHas r.journal r.seq s.mate = false) (hkind : r.kind ≠ 6) :
    (mirrorRec r s).mate = mirroredMate r s.mate := by
  rw [mirrorRec_eq hnew hkind]
  exact mate_appendRec_mirror rfl _

theorem mirroring_eq_of_mirrored {r : JRec} {m : MateSt} :
    ((mirroredMate r m).formed && !(mirroredMate r m).degraded) = (m.formed && !m.degraded) := by
  have hformed : (mirroredMate r m).formed = m.formed := (congrArg MateSt.formed (advancedMate_rest r m) :)
  have hwhole : (mirroredMate r m).degraded = m.degraded := (congrArg MateSt.degraded (advancedMate_rest r m) :)
  rw [hformed, hwhole]

/-- The records of a segment taken from the partner: one record that is new is applied and acknowledged. -/
theorem mirrorOne {l i : Nat} {r : JRec} {v : State} {asked : JRec → Bool} (hasked : asked r = false) (hon : mirroring v = true)
    (hnew : mirrorHas r.journal r.seq v.mate = false) (hkind : r.kind ≠ 6) (hj : r.journal < 24) (hparts : vget v.mate.parts i [0] = []) :
    let s := [r].foldl (fun s r => if asked r then takeRepair (recBytes r) s else if mirroring s then mirrorRec r s else s) v
    let js := (([r].filter fun r => !asked r).map fun r => r.journal).eraseDups
    let t := sendMirror (if mirroring s then js.foldl (fun s j => sendItem l (mirrorAck j s) s) s else s)
    mirrorHas r.journal r.seq t.mate = true ∧ (r.kind = 5 → t.mate.mirrorStep = r.step ∧ t.mate.mirrorCrc = r.postCrc) ∧
      vget t.mate.parts i [0] = [] ∧ (l < 36 → ∃ it ∈ (linkOf l t).control, itemKind it = 0x12 ∧ it.w1 = BitVec.ofNat 64 r.journal) := by
  intro s js t
  have hs : s = mirrorRec r v := by
    show (if asked r then takeRepair (recBytes r) v else if mirroring v then mirrorRec r v else v) = _
    rw [hasked, hon, if_neg Bool.false_ne_true, if_pos rfl]
  have hjs : js = [r.journal] := by
    show (([r].filter fun r => !asked r).map fun r => r.journal).eraseDups = _
    rw [List.filter_cons_of_pos (by rw [hasked]; rfl)]
    rfl
  have hmate : s.mate = mirroredMate r v.mate := by
    rw [hs]
    exact mate_mirrorRec hnew hkind
  have hstill : mirroring s = true := by
    show (s.mate.formed && !s.mate.degraded) = true
    rw [hmate, mirroring_eq_of_mirrored]
    exact hon
  have ht : t = sendMirror (sendItem l (mirrorAck r.journal s) s) := by
    show sendMirror (if mirroring s then js.foldl (fun s j => sendItem l (mirrorAck j s) s) s else s) = _
    rw [if_pos hstill, hjs]
    rfl
  have hsent := mirrorSent_sendMirror (sendItem l (mirrorAck r.journal s) s)
  rw [← ht] at hsent
  have hkey : mateKey t.mate = mateKey (mirroredMate r v.mate) := by
    rw [← hmate]
    exact hsent.mate
  have hhas : mirrorHas r.journal r.seq t.mate = mirrorHas r.journal r.seq (mirroredMate r v.mate) := by
    have hat : t.mate.mirrorAt = (mirroredMate r v.mate).mirrorAt := (congrArg MateSt.mirrorAt hkey :)
    have hahead : t.mate.ahead = (mirroredMate r v.mate).ahead := (congrArg MateSt.ahead hkey :)
    rw [mirrorHas, hat, hahead]
    rfl
  have hrest := advancedMate_rest r v.mate
  refine ⟨hhas.trans (mirrorHas_mirroredMate hj _), fun h5 => ?_, ?_, fun hl => ?_⟩
  · have hfive : (r.kind == 5) = true := beq_iff_eq.2 h5
    have hstep : t.mate.mirrorStep = (mirroredMate r v.mate).mirrorStep := (congrArg MateSt.mirrorStep hkey :)
    have hcrc : t.mate.mirrorCrc = (mirroredMate r v.mate).mirrorCrc := (congrArg MateSt.mirrorCrc hkey :)
    rw [hstep, hcrc]
    exact ⟨if_pos hfive, if_pos (by rw [hfive]; rfl)⟩
  · have hsame : t.mate.parts = v.mate.parts := (congrArg MateSt.parts hkey :).trans (congrArg MateSt.parts hrest :)
    rw [hsame]
    exact hparts
  · refine ⟨mirrorAck r.journal s, ?_, itemKind_mkItem _ _ _ _ _ (by decide) (by decide), rfl⟩
    rw [hsent.control, sendItem, linkOf_modLink]
    exact List.mem_append_right _ (List.mem_singleton.2 rfl)

theorem completes_mirrorRecordReceive {l : Fin 36} {sg : Segment} {s : State} {r : JRec} (hstate : (linkOf l s).state = 3)
    (hcrypto : (linkOf l s).crypto = true) (htag : tagOk (linkOf l s) sg.keyId sg.w5 (segAad sg ++ sg.data) [] sg.tag = true)
    (hnonce : nonceFresh (linkOf l s) sg.keyId sg.w5 = true) (hform : segFormOk sg = true) (hplain : bitOf sg.w0 4 = false)
    (hcoll : sgColl sg = 6) (hl : l.val = 0 ∨ l.val = 18) (hpartner : s.mate.partner = some (linkOf l s).partner) (hfirst : sgElement sg = 0)
    (hon : mirroring s = true) (hrepair : s.mate.repairing = []) (hrec : parseRecs (sg.data.length / 64 + 1) sg.data = ([r], []))
    (hj : r.journal < 24) (hkind : r.kind ≠ 6) (hnew : mirrorHas r.journal r.seq s.mate = false) :
    Completes (.mirrorRecordReceive l sg) s fun t => mirrorHas r.journal r.seq t.mate = true ∧
      (r.kind = 5 → t.mate.mirrorStep = r.step ∧ t.mate.mirrorCrc = r.postCrc) ∧ vget t.mate.parts (if l.val = 18 then 1 else 0) [0] = [] ∧
      ∃ it ∈ (linkOf l t).control, itemKind it = 0x12 ∧ it.w1 = BitVec.ofNat 64 r.journal := by
  have htag' : tagOk (linkOf l s) sg.keyId sg.w5 (if (linkOf l s).crypto then segAad sg ++ sg.data else segAad sg)
      (if (linkOf l s).crypto then [] else sg.data) sg.tag = true := by
    rw [hcrypto]
    exact htag
  have hclear : clearData (linkOf l s) sg = sg.data := if_pos hcrypto
  have hseg := fun act => withSegment_plain (l := l) act hstate htag' hnonce hform hplain
  rw [hclear] at hseg
  obtain ⟨u, hu⟩ : ∃ u, u = countCard 3 (64 + sg.data.length) (modLink l (nonceLink sg.keyId sg.w5) (modLink l (drainedLink sg.data.length) s)) :=
    ⟨_, rfl⟩
  rw [← hu] at hseg
  have hmate : u.mate = s.mate := by rw [hu]; rfl
  have hbehind : (linkOf l u).partner = (linkOf l s).partner := by
    rw [hu]
    refine (congrArg Link.partner (linkOf_modLink l _ _) :).trans ?_
    exact (congrArg Link.partner (linkOf_modLink l _ _) :)
  have hmine : (sgColl sg != 6 || !(l.val == 0 || l.val == 18) || u.mate.partner != some (linkOf l u).partner) = false := by
    rw [hmate, hbehind, hpartner, hcoll, mirrorLink_true hl]
    simp only [bne_self_eq_false, Bool.not_true, Bool.or_self]
  have hwhole : (([] : List Byte).length != sgElement sg) = false := by rw [hfirst]; rfl
  have hexec : execMirrorRecordReceive l sg s = .next (
      let v := modMate (tookParts (if l.val == 18 then 1 else 0)) u
      let asked (r : JRec) : Bool := v.mate.repairing.contains (r.binding, r.unit)
      let w := [r].foldl (fun s r => if asked r then takeRepair (recBytes r) s else if mirroring s then mirrorRec r s else s) v
      let js := (([r].filter fun r => !asked r).map fun r => r.journal).eraseDups
      sendMirror (if mirroring w then js.foldl (fun s j => sendItem l (mirrorAck j s) s) w else w)) := by
    refine congrArg (fun v => Host.Outcome.next (sendMirror v)) ((hseg _).trans ?_)
    simp only [hmine, hfirst, beq_self_eq_true, if_true, Bool.false_eq_true, if_false, List.length_nil, bne_self_eq_false, List.nil_append, hrec,
      List.isEmpty_cons]
    rfl
  rw [mirrorIndex_eq] at hexec
  have hmates : (modMate (tookParts (if l.val = 18 then 1 else 0)) u).mate = tookParts (if l.val = 18 then 1 else 0) s.mate :=
    congrArg (tookParts (if l.val = 18 then 1 else 0)) hmate
  obtain ⟨hhas, h5, hparts, hack⟩ := mirrorOne (l := l) (i := if l.val = 18 then 1 else 0) (r := r)
    (v := modMate (tookParts (if l.val = 18 then 1 else 0)) u)
    (asked := fun r => (modMate (tookParts (if l.val = 18 then 1 else 0)) u).mate.repairing.contains (r.binding, r.unit))
    (by rw [hmates, tookParts, hrepair]; rfl) (by rw [mirroring, hmates]; exact hon) (by rw [hmates]; exact hnew) hkind hj
    (by rw [hmates]; exact vget_vset_same _ _ _ _ (mirrorIndex_lt l))
  exact ⟨_, hexec, hhas, h5, hparts, hack l.isLt⟩

/-! ## Takeover (R381, R383) -/

/-- What a takeover reads of a group. -/
def seatKey (g : Group) : Nat × List Word := (g.id, g.members)

/-- From `s` to `t` the groups keep their members, and a pair that is not dissolving keeps the ranks it has taken. -/
structure SeatsKeep (s t : State) : Prop where
  seats : t.groups.map seatKey = s.groups.map seatKey
  stands : s.mate.dissolving = none → t.mate.dissolving = none
  taken : s.mate.dissolving = none → ∀ x ∈ s.mate.takenOver, x ∈ t.mate.takenOver

theorem SeatsKeep.refl (s : State) : SeatsKeep s s := ⟨rfl, id, fun _ _ h => h⟩

theorem SeatsKeep.trans {s t u : State} (h : SeatsKeep s t) (k : SeatsKeep t u) : SeatsKeep s u :=
  ⟨k.seats.trans h.seats, fun hs => k.stands (h.stands hs), fun hs x hx => k.taken (h.stands hs) x (h.taken hs x hx)⟩

theorem SeatsKeep.foldl {α : Type} {f : State → α → State} (h : ∀ s x, SeatsKeep s (f s x)) (xs : List α) (s : State) :
    SeatsKeep s (xs.foldl f s) := by
  induction xs generalizing s with
  | nil => exact .refl s
  | cons x xs ih => exact (h s x).trans (ih _)

theorem StepKeeps.seatsKeep {s t : State} (h : StepKeeps s t) : SeatsKeep s t := by
  have hmap (gs : List Group) : (gs.map stepKey).map seatKey = gs.map seatKey := List.map_map
  refine ⟨?_, fun hs => (congrArg MateSt.dissolving (h.mate hs) :).trans hs, fun hs x hx => ?_⟩
  · rw [← hmap, h.groups, hmap]
  · have htaken : t.mate.takenOver = s.mate.takenOver := (congrArg MateSt.takenOver (h.mate hs) :)
    rw [htaken]
    exact hx

theorem seatsKeep_modGroup (i : Nat) {f : Group → Group} (hf : ∀ g, seatKey (f g) = seatKey g) (s : State) : SeatsKeep s (modGroup i f s) := by
  refine ⟨?_, id, fun _ _ h => h⟩
  show (mapIf (fun g => g.id == i) f s.groups).map seatKey = _
  rw [mapIf, List.map_map]
  refine List.map_congr_left fun g _ => ?_
  show seatKey (if g.id == i then f g else g) = seatKey g
  split
  · exact hf g
  · rfl

theorem SeatsKeep.groupOf {s t : State} (h : SeatsKeep s t) (i : Nat) : (groupOf i t).map seatKey = (groupOf i s).map seatKey := by
  have hfind (gs : List Group) : (gs.map seatKey).find? (fun k => k.1 == i) = (gs.find? fun g => g.id == i).map seatKey := List.find?_map
  rw [Machine.groupOf, Machine.groupOf, ← hfind, ← hfind, h.seats]

theorem seatsKeep_closeStep (g : Group) (n : Word) (d : Decision) (t : Word) (s : State) : SeatsKeep s (closeStep g n d t s) :=
  (seatsKeep_modGroup g.id (by intro _; rfl) s).trans (closeStep_cases g n d t s).1.seatsKeep

theorem seatsKeep_releaseDecision (i : Nat) (s : State) : SeatsKeep s (releaseDecision i s) := by
  unfold releaseDecision
  split
  · exact .refl s
  · next g _ =>
    split
    · next d n _ _ =>
      extract_lets t v
      have hv : StepKeeps s v := by
        show StepKeeps s (if _ then _ else _)
        split
        · exact (stepKeeps_publish _ _ s).trans (stepKeeps_sendDigests _ _ _)
        · exact .refl s
      exact (hv.trans (stepKeeps_passDown g n d t v)).seatsKeep.trans (seatsKeep_closeStep g n d t _)
    · exact .refl s

theorem stepKeeps_scaleEvents (g : Group) (d : Decision) (s : State) : StepKeeps s (scaleEvents g d s) := by
  have hraise (code : Nat) (args : List Nat) (t : State) : StepKeeps t (raiseEvent code args t) := (onlyFlags_raiseEvent _ _ _).stepKeeps
  unfold scaleEvents
  extract_lets args v w
  have hv : StepKeeps s v := by
    show StepKeeps s (if _ then _ else _)
    split
    · exact hraise _ _ s
    · exact .refl s
  have hw : StepKeeps s w := by
    show StepKeeps s (if _ then _ else _)
    split
    · exact hv.trans (stepKeeps_raise _ _ _ v)
    · exact hv
  split
  · exact .refl s
  · split
    · exact hw.trans (hraise _ _ w)
    · exact hw

theorem stepKeeps_writeRecord (g : Group) (n : Word) (d : Decision) (t : Word) (byMate : Bool) (s : State) :
    StepKeeps s (writeRecord g n d t byMate s) := stepKeeps_appendRec _ s

theorem seatsKeep_decideStep (g : Group) (n : Word) (x : Report) (s : State) : SeatsKeep s (decideStep g n x s) := by
  unfold decideStep
  extract_lets overflow d₀ d v w seq y paired z
  have hw : StepKeeps v w := by
    show StepKeeps v (if _ then _ else _)
    split
    · exact .refl v
    · exact stepKeeps_undoOpen g n v
  have hz : SeatsKeep s z := (((stepKeeps_scaleEvents g d s).trans hw).trans (stepKeeps_writeRecord _ _ _ _ _ w)).seatsKeep.trans
    (seatsKeep_modGroup g.id (by intro _; rfl) y)
  split
  · exact hz
  · exact hz.trans (seatsKeep_releaseDecision _ z)

theorem seatsKeep_pushReports (i fuel : Nat) (s : State) : SeatsKeep s (pushReports i fuel s) := by
  induction fuel generalizing s with
  | zero => exact .refl s
  | succ fuel ih =>
    unfold pushReports
    split
    · exact .refl s
    · next g _ =>
      split
      · next n r x _ _ =>
        extract_lets v up
        have hv : SeatsKeep s v := seatsKeep_modGroup i (by intro _; rfl) s
        split
        · split
          · exact hv
          · exact hv.trans (seatsKeep_decideStep g n x v)
        · split
          · exact (hv.trans (seatsKeep_modGroup i (by intro _; rfl) v)).trans (ih _)
          · exact (hv.trans (onlyControl_sendTo _ _ v).stepKeeps.seatsKeep).trans (ih _)
      · exact .refl s

theorem seatsKeep_moveRank (g : Group) (r : Nat) (holder : Word) (s : State) : SeatsKeep s (moveRank g r holder s) :=
  (seatsKeep_modGroup g.id (by intro _; rfl) s).trans (moveRank_cases g r holder s).1.seatsKeep

/-- A pair that has taken a rank of its partner. -/
def takenMate (i r : Nat) (m : MateSt) : MateSt := { m with takenOver := m.takenOver ++ [(i, r)] }

theorem seatsKeep_takenMate (i r : Nat) (s : State) : SeatsKeep s (modMate (takenMate i r) s) :=
  ⟨rfl, id, fun _ _ h => List.mem_append_left _ h⟩

theorem takeRank_cases (w : Word) (g : Group) (s : State) : SeatsKeep s (takeRank w g s) ∧
    ∀ r : Nat, s.mate.dissolving = none → rankOf g w = some r → (g.id, r) ∈ (takeRank w g s).mate.takenOver := by
  unfold takeRank
  split
  · next hnone => exact ⟨.refl s, fun r _ hr => absurd (hnone.symm.trans hr) nofun⟩
  · next r hr =>
    extract_lets n v y z rec' a
    have hv : SeatsKeep s (modMate (takenMate g.id r) v) :=
      (onlyControl_sendAll _ _ s).stepKeeps.seatsKeep.trans (seatsKeep_takenMate g.id r v)
    have hz : StepKeeps y z := .of_same rfl rfl rfl
    have ha : SeatsKeep rec' a := by
      show SeatsKeep rec' (if _ then _ else _)
      split
      · exact seatsKeep_modGroup g.id (by intro _; rfl) rec'
      · exact .refl rec'
    have hend : SeatsKeep (modMate (takenMate g.id r) v) (pushReports g.id 64 a) :=
      (((seatsKeep_moveRank g r _ _).trans (hz.trans (stepKeeps_appendRec _ z)).seatsKeep).trans ha).trans (seatsKeep_pushReports _ _ a)
    refine ⟨hv.trans hend, fun q hs hq => hend.taken (hv.stands hs) _ ?_⟩
    rw [show q = r from Option.some.inj (hq.symm.trans hr)]
    exact List.mem_append_right _ (List.mem_singleton.2 rfl)

/-- Every rank of the partner is taken over, in each group that stands under its identity. -/
theorem takenOver_foldl {w : Word} {gs pre post : List Group} {g : Group} {s : State} {r : Nat} (hgs : gs = pre ++ g :: post)
    (hs : s.mate.dissolving = none) (hg : groupOf g.id s = some g) (hr : rankOf g w = some r) :
    (g.id, r) ∈ (gs.foldl (fun s g => takeRank w ((groupOf g.id s).getD g) s) s).mate.takenOver := by
  have hstep (t : State) (x : Group) : SeatsKeep t (takeRank w ((groupOf x.id t).getD x) t) := (takeRank_cases w _ t).1
  have hpre : SeatsKeep s (pre.foldl (fun s g => takeRank w ((groupOf g.id s).getD g) s) s) := .foldl hstep pre s
  rw [hgs, List.foldl_append, List.foldl_cons]
  generalize pre.foldl (fun s g => takeRank w ((groupOf g.id s).getD g) s) s = v at hpre
  have hkey := hpre.groupOf g.id
  rw [hg] at hkey
  obtain ⟨k, hk, hseat⟩ := Option.map_eq_some_iff.1 hkey
  have hid : k.id = g.id := congrArg Prod.fst hseat
  have hmembers : k.members = g.members := congrArg Prod.snd hseat
  have hkr : rankOf k w = some r := by
    rw [rankOf, hmembers]
    exact hr
  have hhere := (takeRank_cases w k v).2 r (hpre.stands hs) hkr
  rw [hid] at hhere
  rw [hk]
  exact (SeatsKeep.foldl hstep post _).taken ((takeRank_cases w k v).1.stands (hpre.stands hs)) _ hhere

theorem completes_takeoverReplyReceive {l : Fin 36} {it : Item} {s u : State} (h : Policed l it 0x15 s u) (hasked : s.mate.takeoverAsked = true)
    (hpartner : s.mate.partner = some it.w1) (hstands : s.mate.dissolving = none) (hquiet : bitOf it.w2 0 = false → ∀ g ∈ s.groups, g.ackSeq = none) :
    Completes (.takeoverReplyReceive l it) s fun t => t.mate.takeoverAsked = false ∧ t.mate.unacked = [] ∧
      (bitOf it.w2 0 = true → t.mate.formed = false ∧ ∀ g ∈ s.groups, ∀ r : Nat, rankOf g it.w1 = some r →
        groupOf g.id s = some g → (g.id, r) ∈ t.mate.takenOver) ∧
      (bitOf it.w2 0 = false → t.mate.degraded = true ∧ t.mate.formed = s.mate.formed ∧ t.devFlags.getLsbD 18 = true) := by
  have hok : (!u.mate.takeoverAsked || u.mate.partner != some it.w1) = false := by
    rw [h.mate, hasked, hpartner, Bool.not_true, Bool.false_or]
    exact bne_eq_false_iff_eq.2 rfl
  have hstart (act : State → State) : withItem l it 0x15 (fun s => if !s.mate.takeoverAsked || s.mate.partner != some it.w1 then s else act s) s =
      act u := (withItem_policed h _).trans (if_neg (by rw [hok]; exact Bool.false_ne_true))
  cases hgrant : bitOf it.w2 0 with
  | true =>
    have hexec : execTakeoverReplyReceive l it s = .next (modMate (fun m => { m with formed := false, takeoverAsked := false, toSend := [], unacked := [] })
        (u.groups.foldl (fun s g => takeRank it.w1 ((groupOf g.id s).getD g) s) u)) :=
      congrArg Host.Outcome.next ((hstart _).trans (if_pos hgrant))
    refine ⟨_, hexec, rfl, rfl, fun _ => ⟨rfl, fun g hg r hr hfind => ?_⟩, nofun⟩
    rw [← h.groups] at hg
    obtain ⟨pre, post, hgs⟩ := List.append_of_mem hg
    have hfind' : groupOf g.id u = some g := by
      rw [groupOf, h.groups]
      exact hfind
    exact takenOver_foldl hgs (by rw [h.mate]; exact hstands) hfind' hr
  | false =>
    have hnone (waits : Group → Bool) (hwaits : ∀ g, g.ackSeq = none → waits g = false) : s.groups.filter waits = [] := by
      rw [List.filter_eq_nil_iff]
      intro g hg
      rw [hwaits g (hquiet hgrant g hg)]
      exact Bool.false_ne_true
    have hflag := onlyFlags_raiseDev 18 (modMate (fun m => { m with degraded := true, takeoverAsked := false, toSend := [], unacked := [] }) u)
    have hraised := devRaised_raiseDev 18 (modMate (fun m => { m with degraded := true, takeoverAsked := false, toSend := [], unacked := [] }) u)
    generalize hv : raiseDev 18 (modMate (fun m => { m with degraded := true, takeoverAsked := false, toSend := [], unacked := [] }) u) = v at hflag hraised
    have hlog (gs : List Group) (t : State) : { gs.foldl (fun s g => raiseEvent 0x64 [g.id, g.rank, it.w1.toNat] s) t with card := t.card } = t := by
      induction gs generalizing t with
      | nil => rfl
      | cons g gs ih =>
        have hback := congrArg (fun x : State => { x with card := t.card }) (ih (raiseEvent 0x64 [g.id, g.rank, it.w1.toNat] t))
        exact hback
    have hexec : ∃ w, execTakeoverReplyReceive l it s = .next w ∧ { w with card := v.card } = v := by
      unfold execTakeoverReplyReceive
      rw [hstart, hgrant, if_neg Bool.false_ne_true, hv]
      extract_lets v' w
      have hw : { w with card := v.card } = v := hlog _ v
      have hgroups : w.groups = s.groups := by
        have hquiet : quiet v = quiet _ := hflag
        exact ((congrArg State.groups hw :).trans (congrArg State.groups hquiet :)).trans h.groups
      rw [hgroups, hnone _ (fun g hg => by rw [hg]; rfl)]
      exact ⟨w, rfl, hw⟩
    obtain ⟨w, hexec, hw⟩ := hexec
    have hmate : w.mate = { s.mate with degraded := true, takeoverAsked := false, toSend := [], unacked := [] } := by
      rw [← h.mate]
      exact (congrArg State.mate hw :).trans hflag.mate
    have hdev : w.devFlags = v.devFlags := (congrArg State.devFlags hw :)
    refine ⟨_, hexec, ?_, ?_, nofun, fun _ => ⟨?_, ?_, ?_⟩⟩
    · rw [hmate]
    · rw [hmate]
    · rw [hmate]
    · rw [hmate]
    · rw [hdev]
      exact devFlag_of_raised (by decide) hraised

/-- Settles O47: each clause is the operation's own lemma. -/
theorem deskmatesKeepEachOther : Obligations.DeskmatesKeepEachOther :=
  ⟨fun _ _ hformed hl hup hdue => completes_heartbeatSend hformed hl hup hdue,
    fun _ _ _ _ h hpartner hl => completes_heartbeatReceive h hpartner hl,
    fun _ _ _ _ hpartner hformed hwhole hasked hlost hstays hm hlink => completes_heartbeatTimeout hpartner hformed hwhole hasked hlost hstays hm hlink,
    fun _ _ _ _ h => completes_takeoverRequestReceive h,
    fun _ _ _ _ h hasked hpartner hstands hquiet => completes_takeoverReplyReceive h hasked hpartner hstands hquiet,
    fun _ _ _ _ _ h hg hother hrank hmoved => completes_rankMovedReceive h hg hother hrank hmoved,
    fun _ _ _ _ hstate hcrypto htag hnonce hform hplain hcoll hl hpartner hfirst hon hrepair hrec hj hkind hnew =>
      completes_mirrorRecordReceive hstate hcrypto htag hnonce hform hplain hcoll hl hpartner hfirst hon hrepair hrec hj hkind hnew,
    fun _ _ _ _ h hpartner hj hquiet => completes_mirrorAckReceive h hpartner hj hquiet,
    fun _ _ _ _ _ _ h hg hopen hx => completes_redoRequestReceive h hg hopen hx,
    fun _ _ _ _ _ h hb => completes_digestReceive h hb,
    fun _ _ _ _ _ h hbytes => completes_repairRequestReceive h hbytes⟩

end Sys2Proof.Machine
end

section
/-!
Bindings and the fused update (Machine/Update.lean; R190, R195, R219 to R226, R229 to R244, R269, R270).
-/

namespace Sys2Proof.Machine

/-! ## What a record leaves of the bindings -/

/-- A binding without the list of what is to be published. -/
def bodyKey (b : Binding) : Binding := { b with touchedNow := [] }

/-- A binding without its records. -/
def headKey (b : Binding) : Binding := { b with touchedNow := [], stripes := [], blocks := [] }

/-- From `s` to `t` the bindings keep their records, and memory its bytes. -/
structure RecordsStay (s t : State) : Prop where
  bodies : t.nmu.bindings.map bodyKey = s.nmu.bindings.map bodyKey
  memory : SameMemory s t

theorem RecordsStay.refl (s : State) : RecordsStay s s := ⟨rfl, .refl s⟩

theorem RecordsStay.trans {s t u : State} (h : RecordsStay s t) (k : RecordsStay t u) : RecordsStay s u :=
  ⟨k.bodies.trans h.bodies, h.memory.trans k.memory⟩

/-- From `s` to `t` the bindings stand, their records aside. -/
def HeadsStay (s t : State) : Prop := t.nmu.bindings.map headKey = s.nmu.bindings.map headKey

theorem HeadsStay.refl (s : State) : HeadsStay s s := rfl

theorem HeadsStay.trans {s t u : State} (h : HeadsStay s t) (k : HeadsStay t u) : HeadsStay s u := Eq.trans k h

theorem HeadsStay.foldl {α : Type} {f : State → α → State} (h : ∀ s x, HeadsStay s (f s x)) (xs : List α) (s : State) :
    HeadsStay s (xs.foldl f s) := by
  induction xs generalizing s with
  | nil => exact .refl s
  | cons x xs ih => exact (h s x).trans (ih _)

theorem RecordsStay.heads {s t : State} (h : RecordsStay s t) : HeadsStay s t := by
  have hmap (bs : List Binding) : (bs.map bodyKey).map headKey = bs.map headKey := List.map_map
  show t.nmu.bindings.map headKey = s.nmu.bindings.map headKey
  rw [← hmap, h.bodies, hmap]

theorem OnlyFlags.recordsStay {s t : State} (h : OnlyFlags s t) : RecordsStay s t := by
  have hquiet : quiet t = quiet s := h
  have hnmu : t.nmu = s.nmu := (congrArg State.nmu hquiet :)
  exact ⟨by rw [hnmu], h.sameMemory⟩

theorem map_mapIf {α β : Type} {key : α → β} {f : α → α} {which : α → Bool} (hf : ∀ x, key (f x) = key x) (xs : List α) :
    (mapIf which f xs).map key = xs.map key := by
  rw [mapIf, List.map_map]
  refine List.map_congr_left fun x _ => ?_
  show key (if which x then f x else x) = key x
  split
  · exact hf x
  · rfl

theorem recordsStay_modBinding (i : Nat) {f : Binding → Binding} (hf : ∀ b, bodyKey (f b) = bodyKey b) (s : State) :
    RecordsStay s (modBinding i f s) := ⟨map_mapIf hf _, rfl, rfl, rfl⟩

theorem headsStay_modBinding (i : Nat) {f : Binding → Binding} (hf : ∀ b, headKey (f b) = headKey b) (s : State) :
    HeadsStay s (modBinding i f s) := map_mapIf hf _

theorem recordsStay_setBd (e : Nat) (x : BdEntry) (s : State) : RecordsStay s (setBd e x s) := ⟨rfl, rfl, rfl, rfl⟩

theorem recordsStay_nmuFlags (f : BitVec 7) (s : State) : RecordsStay s (nmuFlags f s) := ⟨rfl, rfl, rfl, rfl⟩

theorem recordsStay_bdAccess (e : Nat) (dirty : Bool) (s : State) : RecordsStay s (bdAccess e dirty s) := by
  unfold bdAccess
  extract_lets hit t
  split
  · exact ⟨rfl, rfl, rfl, rfl⟩
  · exact ⟨rfl, rfl, rfl, rfl⟩

theorem recordsStay_raise (i code : Nat) (args : List Nat) (s : State) : RecordsStay s (raiseDev i (raiseEvent code args s)) :=
  ((onlyFlags_raiseEvent _ _ _).trans (onlyFlags_raiseDev _ _)).recordsStay

theorem recordsStay_modMate (f : MateSt → MateSt) (s : State) : RecordsStay s (modMate f s) := ⟨rfl, rfl, rfl, rfl⟩

/-- A journal changed. -/
theorem recordsStay_journal (j : Nat) (f : Journal → Journal) (s : State) :
    RecordsStay s (modNmu (fun n => { n with journals := vmod n.journals j f }) s) := ⟨rfl, rfl, rfl, rfl⟩

theorem recordsStay_modNmu {f : NmuSt → NmuSt} (hf : ∀ n, (f n).bindings = n.bindings) (s : State) : RecordsStay s (modNmu f s) :=
  ⟨congrArg (List.map bodyKey) (hf s.nmu), rfl, rfl, rfl⟩

theorem recordsStay_withGroups (gs : List Group) (s : State) : RecordsStay s { s with groups := gs } := ⟨rfl, rfl, rfl, rfl⟩

theorem recordsStay_noteGap (j : Nat) (r : JRec) (s : State) : RecordsStay s (noteGap j r s) := by
  unfold noteGap
  exact (recordsStay_modNmu (by intro _; rfl) s).trans (recordsStay_raise _ _ _ _)

theorem recordsStay_journalFull (j : Nat) (s : State) : RecordsStay s (journalFull j s) := by
  unfold journalFull
  exact (recordsStay_withGroups _ s).trans (recordsStay_raise _ _ _ _)

theorem recordsStay_trimJournal (j fuel : Nat) (s : State) : RecordsStay s (trimJournal j fuel s) := by
  induction fuel generalizing s with
  | zero => exact .refl s
  | succ fuel ih =>
    unfold trimJournal
    extract_lets rs
    split
    · exact .refl s
    · split
      · exact recordsStay_journalFull j s
      · next r _ =>
        refine RecordsStay.trans ?_ (ih _)
        split
        · exact (recordsStay_noteGap j r s).trans (recordsStay_journal _ _ _)
        · exact recordsStay_journal _ _ s

theorem recordsStay_appendRec (r : JRec) (s : State) : RecordsStay s (appendRec r s) := by
  unfold appendRec
  extract_lets j r' v w
  have hv : RecordsStay s v := recordsStay_journal _ _ s
  have hw : RecordsStay v w := by
    show RecordsStay v (if _ then _ else _)
    split
    · exact recordsStay_modMate _ v
    · exact .refl v
  exact (hv.trans hw).trans (recordsStay_trimJournal _ _ w)

theorem MirrorSent.recordsStay {s t : State} (h : MirrorSent s t) : RecordsStay s t := by
  have hA : t.portA.mem = s.portA.mem := (congrArg (fun u : State => u.portA.mem) h.rest :)
  have hB : t.portB.mem = s.portB.mem := (congrArg (fun u : State => u.portB.mem) h.rest :)
  exact ⟨by rw [h.nmu], h.memory, hA, hB⟩

/-! ## A binding found by its number -/

theorem RecordsStay.bindingOf {s t : State} (h : RecordsStay s t) (i : Nat) : (bindingOf i t).map bodyKey = (bindingOf i s).map bodyKey := by
  have hfind (bs : List Binding) : (bs.map bodyKey).find? (fun b => b.num == i) = (bs.find? fun b => b.num == i).map bodyKey := List.find?_map
  rw [Machine.bindingOf, Machine.bindingOf, ← hfind, ← hfind, h.bodies]

theorem HeadsStay.bindingOf {s t : State} (h : HeadsStay s t) (i : Nat) : (bindingOf i t).map headKey = (bindingOf i s).map headKey := by
  have hfind (bs : List Binding) : (bs.map headKey).find? (fun b => b.num == i) = (bs.find? fun b => b.num == i).map headKey := List.find?_map
  have heads : t.nmu.bindings.map headKey = s.nmu.bindings.map headKey := h
  rw [Machine.bindingOf, Machine.bindingOf, ← hfind, ← hfind, heads]

theorem bindingOf_modBinding {f : Binding → Binding} (hf : ∀ b, (f b).num = b.num) (i j : Nat) (s : State) :
    bindingOf i (modBinding j f s) = if i = j then (bindingOf i s).map f else bindingOf i s :=
  find?_mapIf (f := f) (fun b : Binding => b.num) hf i j s.nmu.bindings

theorem num_of_bindingOf {i : Nat} {s : State} {b : Binding} (h : bindingOf i s = some b) : b.num = i :=
  beq_iff_eq.1 (List.find?_some (p := fun b : Binding => b.num == i) h)

theorem bindingOf_isSome_of_mem {b : Binding} {s : State} (h : b ∈ s.nmu.bindings) : (bindingOf b.num s).isSome = true :=
  List.find?_isSome.2 ⟨b, h, beq_self_eq_true _⟩

/-- What is published and written elsewhere does not enter a stripe. -/
theorem getStripe_of_recordsStay {s t : State} (h : RecordsStay s t) (b : Binding) (i : Nat) : getStripe b i t = getStripe b i s := by
  unfold getStripe
  split
  · have hkey := h.bindingOf b.num
    cases hs : bindingOf b.num s with
    | none =>
      rw [hs] at hkey
      rw [Option.map_eq_none_iff.1 hkey]
    | some x =>
      rw [hs] at hkey
      obtain ⟨y, hy, hxy⟩ := Option.map_eq_some_iff.1 hkey
      have hstripes : y.stripes = x.stripes := (congrArg Binding.stripes hxy :)
      rw [hy]
      show tgetD y.stripes _ _ = tgetD x.stripes _ _
      rw [hstripes]
  · next p _ =>
    have hmem : (portOf p t).mem = (portOf p s).mem := by
      obtain ⟨-, hA, hB⟩ := h.memory
      cases p
      · exact hA
      · exact hB
    simp only [hostRead, hmem]

theorem getStripe_putStripe {b : Binding} {i : Nat} {x : Stripe} {s : State} (htier : tierPort b = none) (hb : (bindingOf b.num s).isSome = true) :
    getStripe b i (putStripe b i x s) = x := by
  obtain ⟨y, hy⟩ := Option.isSome_iff_exists.1 hb
  unfold getStripe putStripe
  simp only [htier]
  rw [bindingOf_modBinding (by intro _; rfl), if_pos rfl, hy]
  exact tgetD_tset_same _ _ _ _

/-! ## The bindings under an update -/

theorem headsStay_hostWrite (p : Port) (a : Nat) (bs : List Byte) (s : State) : HeadsStay s (hostWrite p a bs s) := by
  unfold hostWrite
  split
  · exact .refl s
  · cases p <;> rfl

theorem headsStay_putStripe (b : Binding) (i : Nat) (x : Stripe) (s : State) : HeadsStay s (putStripe b i x s) := by
  unfold putStripe
  split
  · exact headsStay_modBinding _ (by intro _; rfl) s
  · exact headsStay_hostWrite _ _ _ s

theorem headsStay_putBlock (b : Binding) (q : Nat) (x : Block) (s : State) : HeadsStay s (putBlock b q x s) := by
  unfold putBlock
  split
  · exact headsStay_modBinding _ (by intro _; rfl) s
  · exact headsStay_hostWrite _ _ _ s

/-- What follows the stripe that a change writes leaves the records as it wrote them. -/
theorem changeStripe_writes (b : Binding) (i : Nat) (n : Word) (update : Bool) (f : Stripe → Stripe × BitVec 7) (s : State) :
    RecordsStay (putStripe b i (f (getStripe b i s)).1 (bdAccess (dirOf b i) true s)) (changeStripe b i n update f s) := by
  unfold changeStripe
  extract_lets old r d e e' v w
  have hv : RecordsStay (putStripe b i r.1 (bdAccess d true s)) v := recordsStay_setBd _ _ _
  have hw : RecordsStay v w := recordsStay_appendRec _ v
  exact ((hv.trans hw).trans (recordsStay_modBinding b.num (by intro _; rfl) w)).trans (recordsStay_nmuFlags _ _)

theorem headsStay_changeStripe (b : Binding) (i : Nat) (n : Word) (update : Bool) (f : Stripe → Stripe × BitVec 7) (s : State) :
    HeadsStay s (changeStripe b i n update f s) :=
  ((recordsStay_bdAccess _ _ s).heads.trans (headsStay_putStripe _ _ _ _)).trans (changeStripe_writes b i n update f s).heads

theorem recordsStay_raiseRoot (b : Binding) (q : Nat) (x : Block) (ev : RootEvent) (s : State) : RecordsStay s (raiseRoot b q x ev s) := by
  unfold raiseRoot
  extract_lets args
  split
  · exact recordsStay_raise _ _ _ s
  · exact (recordsStay_raise _ _ _ s).trans (recordsStay_raise _ _ _ _)
  · exact recordsStay_raise _ _ _ s
  · exact .refl s

theorem headsStay_updateUnit (b : Binding) (u : Nat) (n : Word) (g : List NV) (s : State) : HeadsStay s (updateUnit b u n g s) := by
  unfold updateUnit
  split
  · unfold updateBlock
    extract_lets k old lo cb ss w m r ws ms cut t t'
    have ht : HeadsStay s t := by
      refine HeadsStay.foldl (fun v j => ?_) _ s
      exact headsStay_changeStripe _ _ _ _ _ v
    have ht' : HeadsStay t t' := (headsStay_putBlock b u r.1 t).trans (recordsStay_appendRec _ _).heads
    exact (ht.trans ht').trans ((recordsStay_nmuFlags _ t').trans (recordsStay_raiseRoot _ _ _ _ _)).heads
  · exact headsStay_changeStripe _ _ _ _ _ s

/-- A stripe after its rule, with the flags raised. -/
def stripeUpdate (b : Binding) (n : Word) (g : List NV) (x : Stripe) : Stripe × BitVec 7 :=
  (updatedStripe b n g x, (catchStripe b.rule b.ring (x.step.toNat + 1) (n.toNat - 1) x).2 |||
    (ruleStripe b.rule (coefAt b n) (hyNesterov b.hyper) n g (catchStripe b.rule b.ring (x.step.toNat + 1) (n.toNat - 1) x).1).2)

theorem updateStripe_eq (b : Binding) (i : Nat) (n : Word) (g : List NV) (s : State) :
    updateStripe b i n g s = changeStripe b i n true (stripeUpdate b n g) s := rfl

/-- A stripe updated by its rule. -/
theorem updateUnit_writes {b : Binding} (h : isBlockRule b.rule = false) (u : Nat) (n : Word) (g : List NV) (s : State) :
    RecordsStay (putStripe b u (updatedStripe b n g (getStripe b u s)) (bdAccess (dirOf b u) true s)) (updateUnit b u n g s) := by
  rw [updateUnit, if_neg (by rw [h]; exact Bool.false_ne_true), updateStripe_eq]
  exact changeStripe_writes b u n true (stripeUpdate b n g) s

theorem besideRecords_updateUnit (b : Binding) (u : Nat) (n : Word) (g : List NV) (s : State) :
    besideRecords (updateUnit b u n g s) = besideRecords s := by
  unfold updateUnit
  split
  · unfold updateBlock
    extract_lets k old lo cb ss w m r ws ms cut t t'
    have ht : besideRecords t = besideRecords s := by
      refine besideRecords_foldl (fun v j => ?_) _ s
      exact besideRecords_changeStripe _ _ _ _ _ v
    have hroot (ev : RootEvent) (v : State) : besideRecords (raiseRoot b u r.1 ev v) = besideRecords v := by
      unfold raiseRoot
      extract_lets args
      split <;> simp only [besideRecords_raiseDev, besideRecords_raiseEvent]
    rw [hroot, besideRecords_nmuFlags, besideRecords_changeBlock, ht]
  · exact besideRecords_changeStripe _ _ _ _ _ s

end Sys2Proof.Machine
end

section
/-!
The obligation on bindings and units (Machine/Update.lean; R190, R195, R219 to R225, R242, R269, R270).
-/

namespace Sys2Proof.Machine

/-! ## RULE_BIND and the release of a binding (R219, R220) -/

/-- A RULE_BIND or a release that starts, at its fetch or when the step that held it is over. -/
theorem completes_rule {i : Instr} {d : Desc} {r : DescRec} {s u v : State}
    (hi : ((i = .ruleBind d ∨ i = .ruleRelease d) ∧ Starts 0x05 d s r u) ∨
      (∃ q : DescRec, i = .ruleBindRelease q.id ∧ HeldAs q.id .ruleBind q s ∧ r = { q with hold := .run } ∧ u = s))
    (hstart : startRule r u = done r 0 v) : Completes i s fun t => t = sendMirror (done r 0 v) := by
  rcases hi with ⟨hi, hstarts⟩ | ⟨q, rfl, ⟨hq, hhold, hchan⟩, rfl, rfl⟩
  · have hfetch : fetchWith 0x05 d noFetchEffect startRule s = done r 0 v := (hstarts.fetchWith startRule).trans hstart
    rcases hi with rfl | rfl
    · exact ⟨_, (congrArg (fun t => Host.Outcome.next (sendMirror t)) hfetch : execRuleBind d s = _), rfl⟩
    · exact ⟨_, (congrArg (fun t => Host.Outcome.next (sendMirror t)) hfetch : execRuleRelease d s = _), rfl⟩
  · have hwaits : (q.hold == .ruleBind && (chanOf q.desc.slot u).isSome) = true := by
      rw [hhold, hchan]
      rfl
    have hends : ((descOf q.id (done { q with hold := .run } 0 v)).any fun x => x.hold == .ruleBind) = false := by
      have hgone : descOf q.id (done { q with hold := .run } 0 v) = none := descOf_finish { q with hold := .run } _ _ _ v
      rw [hgone]
      rfl
    refine ⟨_, (?_ : execRuleBindRelease q.id u = _), rfl⟩
    unfold execRuleBindRelease
    rw [hq]
    dsimp only
    rw [if_pos hwaits, hstart, if_neg (by rw [hends]; exact Bool.false_ne_true)]

/-- The directory entry of a new binding's segment. -/
def bindEntry (v : Variant) (b : Binding) (k : Nat) : BdEntry :=
  { touched := 0, lastStep := b.bindStep, band := if hyTier b.hyper != 0 then 0 else frameCapacity v / 1024 - 1 - (b.dirFirst + k) / 64 % (frameCapacity v / 1024)
    slotBase := if hyTier b.hyper != 0 then 0 else 4288 * (b.dirFirst + k) % 4096
    offset := if hyTier b.hyper != 0 then 0 else 64 * ((b.dirFirst + k) / 65536) % 2048
    binding := b.num, rule := b.rule, tier := hyTier b.hyper, valid := true, chanSlot := b.slot }

/-- The directory entries of the first segments of a binding. -/
def entriesSet (b : Binding) (n : Nat) (s : State) : State :=
  (List.range n).foldl (fun s k => setBd (b.dirFirst + k) (bindEntry s.flash.variant b k) s) s

theorem entriesSet_succ (b : Binding) (n : Nat) (s : State) :
    entriesSet b (n + 1) s = setBd (b.dirFirst + n) (bindEntry (entriesSet b n s).flash.variant b n) (entriesSet b n s) := by
  rw [entriesSet, List.range_succ, List.foldl_append]
  rfl

theorem entriesSet_cases (b : Binding) (n : Nat) (s : State) :
    { entriesSet b n s with nmu := s.nmu } = s ∧ (entriesSet b n s).nmu.bindings = s.nmu.bindings ∧
      ∀ k : Nat, k < n → tget? (entriesSet b n s).nmu.dir (b.dirFirst + k) = some (bindEntry s.flash.variant b k) := by
  induction n with
  | zero => exact ⟨rfl, rfl, fun k hk => absurd hk (Nat.not_lt_zero k)⟩
  | succ n ih =>
    obtain ⟨hrest, hbinds, hdir⟩ := ih
    rw [entriesSet_succ]
    generalize entriesSet b n s = v at hrest hbinds hdir
    have hflash : v.flash = s.flash := (congrArg State.flash hrest :)
    refine ⟨hrest, hbinds, fun k hk => ?_⟩
    show tget? (tset v.nmu.dir (b.dirFirst + n) _) (b.dirFirst + k) = _
    by_cases hkn : k = n
    · rw [hkn, tget?_tset_same, hflash]
    · rw [tget?_tset_other _ _ _ _ (by omega)]
      exact hdir k (by omega)

/-- From `s` to `t` the bindings stand, and the directory and memory are the same. -/
structure BoundStays (s t : State) : Prop where
  heads : HeadsStay s t
  dir : t.nmu.dir = s.nmu.dir
  memory : t.memory = s.memory

theorem BoundStays.trans {s t u : State} (h : BoundStays s t) (k : BoundStays t u) : BoundStays s u :=
  ⟨h.heads.trans k.heads, k.dir.trans h.dir, k.memory.trans h.memory⟩

theorem BoundStays.foldl {α : Type} {f : State → α → State} (h : ∀ s x, BoundStays s (f s x)) (xs : List α) (s : State) :
    BoundStays s (xs.foldl f s) := by
  induction xs generalizing s with
  | nil => exact ⟨.refl s, rfl, rfl⟩
  | cons x xs ih => exact (h s x).trans (ih _)

theorem memory_of_besideRecords {s t : State} (h : besideRecords t = besideRecords s) : t.memory = s.memory := (congrArg State.memory h :)

theorem dir_hostWrite (p : Port) (a : Nat) (bs : List Byte) (s : State) : (hostWrite p a bs s).nmu.dir = s.nmu.dir := by
  unfold hostWrite
  split
  · rfl
  · cases p <;> rfl

theorem boundStays_putStripe (b : Binding) (i : Nat) (x : Stripe) (s : State) : BoundStays s (putStripe b i x s) := by
  refine ⟨headsStay_putStripe b i x s, ?_, memory_of_besideRecords (besideRecords_putStripe b i x s)⟩
  unfold putStripe
  split
  · rfl
  · exact dir_hostWrite _ _ _ s

theorem boundStays_putBlock (b : Binding) (q : Nat) (x : Block) (s : State) : BoundStays s (putBlock b q x s) := by
  refine ⟨headsStay_putBlock b q x s, ?_, memory_of_besideRecords (besideRecords_putBlock b q x s)⟩
  unfold putBlock
  split
  · rfl
  · exact dir_hostWrite _ _ _ s

/-- From `s` to `t` the directory is the same. -/
def SameDir (s t : State) : Prop := t.nmu.dir = s.nmu.dir

theorem sameDir_raise (i code : Nat) (args : List Nat) (s : State) : SameDir s (raiseDev i (raiseEvent code args s)) := by
  have hflags : OnlyFlags s (raiseDev i (raiseEvent code args s)) := (onlyFlags_raiseEvent _ _ _).trans (onlyFlags_raiseDev _ _)
  have hquiet : quiet (raiseDev i (raiseEvent code args s)) = quiet s := hflags
  exact (congrArg (fun u : State => u.nmu.dir) hquiet :)

theorem sameDir_modNmu {f : NmuSt → NmuSt} (hf : ∀ n, (f n).dir = n.dir) (s : State) : SameDir s (modNmu f s) := hf s.nmu

theorem SameDir.trans {s t u : State} (h : SameDir s t) (k : SameDir t u) : SameDir s u := Eq.trans k h

theorem sameDir_withGroups (gs : List Group) (s : State) : SameDir s { s with groups := gs } := rfl

theorem sameDir_trimJournal (j fuel : Nat) (s : State) : SameDir s (trimJournal j fuel s) := by
  have hgap (r : JRec) (t : State) : SameDir t (noteGap j r t) := by
    unfold noteGap
    exact (sameDir_modNmu (by intro _; rfl) t).trans (sameDir_raise _ _ _ _)
  have hfull (t : State) : SameDir t (journalFull j t) := by
    unfold journalFull
    exact (sameDir_withGroups _ t).trans (sameDir_raise _ _ _ _)
  induction fuel generalizing s with
  | zero => rfl
  | succ fuel ih =>
    unfold trimJournal
    extract_lets rs
    split
    · rfl
    · split
      · exact hfull s
      · next r _ =>
        refine SameDir.trans ?_ (ih _)
        split
        · exact (hgap r s).trans (sameDir_modNmu (by intro _; rfl) _)
        · exact sameDir_modNmu (by intro _; rfl) s

theorem sameDir_appendRec (r : JRec) (s : State) : SameDir s (appendRec r s) := by
  unfold appendRec
  extract_lets j r' v w
  have hw : SameDir s w := by
    show SameDir s (if _ then _ else _)
    split
    · exact rfl
    · exact rfl
  exact hw.trans (sameDir_trimJournal _ _ w)

theorem boundStays_appendRec (r : JRec) (s : State) : BoundStays s (appendRec r s) :=
  ⟨(recordsStay_appendRec r s).heads, sameDir_appendRec r s, memory_of_besideRecords (besideRecords_appendRec r s)⟩

theorem boundStays_bindStripes (b : Binding) (s : State) : BoundStays s (bindStripes b s) := by
  refine BoundStays.foldl (fun v i => ?_) _ s
  exact boundStays_putStripe _ _ _ v

theorem bindRule_cases (r : DescRec) (b : Binding) (s : State) : ∃ v, bindRule r b s = done r 0 v ∧
    (∃ y ∈ v.nmu.bindings, headKey y = headKey b) ∧
    (∀ k : Nat, k < ceilDiv b.count 65536 → tget? v.nmu.dir (b.dirFirst + k) = some (bindEntry s.flash.variant b k)) ∧
    v.memory.privateFrames = s.memory.privateFrames + b.frames := by
  unfold bindRule
  extract_lets v w x y
  have hblocks : BoundStays x y := .foldl (fun u q => boundStays_putBlock b q _ u) _ x
  have hw : w = entriesSet b (ceilDiv b.count 65536) v := rfl
  obtain ⟨hrest, hbinds, hdir⟩ := entriesSet_cases b (ceilDiv b.count 65536) v
  rw [← hw] at hrest hbinds hdir
  have hend : BoundStays w (appendRec (bindRec b b.bindStep y) y) := ((boundStays_bindStripes b w).trans hblocks).trans (boundStays_appendRec _ y)
  refine ⟨_, rfl, ?_, fun k hk => ?_, ?_⟩
  · have hheads : (appendRec (bindRec b b.bindStep y) y).nmu.bindings.map headKey = w.nmu.bindings.map headKey := hend.heads
    have hmem : headKey b ∈ (appendRec (bindRec b b.bindStep y) y).nmu.bindings.map headKey := by
      rw [hheads, hbinds]
      exact List.mem_map_of_mem (List.mem_append_right _ (List.mem_singleton.2 rfl))
    exact List.mem_map.1 hmem
  · rw [hend.dir]
    exact hdir k hk
  · have hmem : w.memory = v.memory := (congrArg State.memory hrest :)
    rw [hend.memory, hmem]
    rfl

theorem applyRelease_cases (r : DescRec) (b : Binding) (s : State) : ∃ v, applyRelease r b s = done r 0 v ∧
    (b ∈ s.nmu.bindings → (∀ x ∈ v.nmu.bindings, x.num ≠ b.num) ∧ ∀ e ∈ v.nmu.dir, e.2.binding ≠ b.num) := by
  unfold applyRelease
  extract_lets v
  refine ⟨_, rfl, fun hb => ⟨fun x hx => ?_, fun e he hnum => ?_⟩⟩
  · obtain ⟨-, hother⟩ := List.mem_filter.1 hx
    simpa only [Bool.not_eq_true', beq_eq_false_iff_ne] using hother
  · obtain ⟨-, hother⟩ := List.mem_filter.1 he
    have hheads : v.nmu.bindings.map headKey = s.nmu.bindings.map headKey := (recordsStay_appendRec _ s).heads
    have hkey : headKey b ∈ v.nmu.bindings.map headKey := by
      rw [hheads]
      exact List.mem_map_of_mem hb
    obtain ⟨y, hy, hyb⟩ := List.mem_map.1 hkey
    have hynum : y.num = b.num := (congrArg Binding.num hyb :)
    rw [Bool.not_eq_true', List.contains_eq_mem, decide_eq_false_iff_not] at hother
    exact hother (List.mem_map.2 ⟨y, List.mem_filter.2 ⟨hy, beq_iff_eq.2 hynum⟩, hynum.trans hnum.symm⟩)

theorem startRule_release {r : DescRec} {b : Binding} {u : State} (hrule : fieldNat r.desc.w4 0 8 = 0xFF)
    (hb : u.nmu.bindings.find? (fun b => b.slot == r.desc.slot.val && b.base == r.desc.w2.toNat) = some b) (hopen : stepIsOpen b.group u = false) :
    startRule r u = applyRelease r b u := by
  have hff : (fieldNat r.desc.w4 0 8 == 0xFF) = true := beq_iff_eq.2 hrule
  unfold startRule
  extract_lets d slot
  rw [if_pos hff]
  rw [show u.nmu.bindings.find? (fun b => b.slot == slot && b.base == d.w2.toNat) = some b from hb]
  dsimp only
  rw [if_neg (by rw [hopen]; exact Bool.false_ne_true)]

/-- The binding a RULE_BIND makes. -/
def newBinding (d : Desc) (g : Group) (first num : Nat) (u : State) : Binding :=
  { num := num, slot := d.slot, base := d.w2.toNat, count := fieldNat d.w3 0 48, rule := fieldNat d.w4 0 8, fmt := fieldNat d.w4 8 8
    hyperVa := d.w5.toNat, hyper := readHyper d.slot d.w5.toNat u, group := g.id, lbase := hyLbase (readHyper d.slot d.w5.toNat u)
    bindStep := g.lastStep, dirFirst := first
    frames := stateFrames (fieldNat d.w4 0 8) (fieldNat d.w3 0 48) (hyTier (readHyper d.slot d.w5.toNat u)) }

theorem startRule_bind {r : DescRec} {u : State} {g : Group} {first : Nat} (hrule : fieldNat r.desc.w4 0 8 ≠ 0xFF) (hfields : bindFieldsOk r.desc = true)
    (hregions : regionsFault r.desc.slot [(r.desc.w2.toNat, fieldNat r.desc.w3 0 48 * fmtBytes (fieldNat r.desc.w4 8 8), false),
      (r.desc.w5.toNat, 64, false)] u = none)
    (halign : r.desc.w5.toNat % 64 = 0) (hstep : hyStepOk (fieldNat r.desc.w4 0 8) (readHyper r.desc.slot r.desc.w5.toNat u) = true)
    (hbind : hyBindOk (fieldNat r.desc.w4 0 8) (readHyper r.desc.slot r.desc.w5.toNat u) = true)
    (hstage : stageFast r.desc.slot (readHyper r.desc.slot r.desc.w5.toNat u) u = true)
    (hg : groupOf (hyGroup (readHyper r.desc.slot r.desc.w5.toNat u)) u = some g) (hopen : g.open' = none)
    (hapart : ∀ b ∈ u.nmu.bindings, (b.group = g.id → b.lbase + b.count ≤ hyLbase (readHyper r.desc.slot r.desc.w5.toNat u) ∨
        hyLbase (readHyper r.desc.slot r.desc.w5.toNat u) + fieldNat r.desc.w3 0 48 ≤ b.lbase) ∧
      piecesMeet (pieces r.desc.slot r.desc.w2.toNat (fieldNat r.desc.w3 0 48 * fmtBytes (fieldNat r.desc.w4 8 8)) u)
        (pieces b.slot b.base (b.count * fmtBytes b.fmt) u) = false)
    (hfirst : freeEntries (ceilDiv (fieldNat r.desc.w3 0 48) 65536) u = some first)
    (hframes : stateFrames (fieldNat r.desc.w4 0 8) (fieldNat r.desc.w3 0 48) (hyTier (readHyper r.desc.slot r.desc.w5.toNat u)) ≤ freeFrameCount u)
    (hpoison : poisonVa r.desc.slot r.desc.w2.toNat (fieldNat r.desc.w3 0 48 * fmtBytes (fieldNat r.desc.w4 8 8)) u = none) :
    startRule r u = bindRule r (newBinding r.desc g first (freeBinding u) u) u := by
  have hff : (fieldNat r.desc.w4 0 8 == 0xFF) = false := beq_eq_false_iff_ne.2 hrule
  have halign' : (r.desc.w5.toNat % 64 != 0) = false := bne_eq_false_iff_eq.2 halign
  have hclosed : stepIsOpen (hyGroup (readHyper r.desc.slot r.desc.w5.toNat u)) u = false := by
    rw [stepIsOpen, hg]
    show (g.open').isSome = false
    rw [hopen]
    rfl
  have hranges : (u.nmu.bindings.any fun b => b.group == g.id &&
      decide (b.lbase < hyLbase (readHyper r.desc.slot r.desc.w5.toNat u) + fieldNat r.desc.w3 0 48) &&
      decide (hyLbase (readHyper r.desc.slot r.desc.w5.toNat u) < b.lbase + b.count)) = false := by
    rw [List.any_eq_false]
    intro b hb hmeets
    simp only [Bool.and_eq_true, beq_iff_eq, decide_eq_true_eq] at hmeets
    obtain ⟨⟨hgroup, hlow⟩, hhigh⟩ := hmeets
    have := (hapart b hb).1 hgroup
    omega
  have hpieces : (u.nmu.bindings.any fun b => piecesMeet (pieces r.desc.slot r.desc.w2.toNat (fieldNat r.desc.w3 0 48 * fmtBytes (fieldNat r.desc.w4 8 8)) u)
      (pieces b.slot b.base (b.count * fmtBytes b.fmt) u)) = false := by
    rw [List.any_eq_false]
    intro b hb
    rw [(hapart b hb).2]
    exact Bool.false_ne_true
  have hbinding : applyBind r u = bindRule r (newBinding r.desc g first (freeBinding u) u) u := by
    unfold applyBind
    simp only [hg, hranges, hpieces, hfirst, Nat.not_lt.2 hframes, hpoison, Bool.or_self, Bool.false_eq_true, if_false]
    rfl
  unfold startRule
  simp only [hff, hfields, hregions, halign', hstep, hbind, hstage, hg, hclosed, hbinding, Option.isNone_some, Bool.not_true, Bool.or_self,
    Bool.false_eq_true, if_false]

/-! ## Units (R190, R195, R225, R242) -/

theorem recordsStay_withPasses (ps : List Pass) (s : State) : RecordsStay s { s with passes := ps } := ⟨rfl, rfl, rfl, rfl⟩

theorem stepKeeps_withPasses (ps : List Pass) (s : State) : StepKeeps s { s with passes := ps } := .of_same rfl rfl rfl

theorem recordsStay_modPass (i : Nat) (f : Pass → Pass) (s : State) : RecordsStay s (modPass i f s) := recordsStay_withPasses _ s

theorem recordsStay_markUnit (p : Pass) (u : Nat) (s : State) : RecordsStay s (markUnit p u s) := recordsStay_withPasses _ s

theorem stepKeeps_markUnit (p : Pass) (u : Nat) (s : State) : StepKeeps s (markUnit p u s) := stepKeeps_withPasses _ s

theorem passOf_markUnit {p : Pass} {s : State} (u : Nat) (h : passOf p.id s = some p) :
    passOf p.id (markUnit p u s) = some { p with journalled := p.journalled ++ [u] } := by
  rw [markUnit, passOf_modPass (by intro _; rfl), if_pos rfl, h]
  rfl

theorem passes_sendMirror (s : State) : (sendMirror s).passes = s.passes := (congrArg State.passes (mirrorSent_sendMirror s).rest :)

theorem id_of_passOf {i : Nat} {s : State} {p : Pass} (h : passOf i s = some p) : p.id = i :=
  beq_iff_eq.1 (List.find?_some (p := fun p : Pass => p.id == i) h)

/-- A state whose group has overflowed when a gradient is not finite. -/
def overflowNoted (g : Group) (codes : List Nat) (s : State) : State :=
  if codes.any fun c => nonFiniteFp (decodeCode 0x01 c) then modGroup g.id (fun x => { x with overflow := true }) s else s

theorem recordsStay_modGroup (i : Nat) (f : Group → Group) (s : State) : RecordsStay s (modGroup i f s) := ⟨rfl, rfl, rfl, rfl⟩

theorem overflowNoted_cases (g : Group) (codes : List Nat) (s : State) : RecordsStay s (overflowNoted g codes s) ∧
    (overflowNoted g codes s).passes = s.passes ∧ (overflowNoted g codes s).nmu = s.nmu := by
  unfold overflowNoted
  split
  · exact ⟨recordsStay_modGroup _ _ s, rfl, rfl⟩
  · exact ⟨.refl s, rfl, rfl⟩

theorem groupOf_overflowNoted {g : Group} {codes : List Nat} {s : State} (hg : groupOf g.id s = some g)
    (hover : ∃ c ∈ codes, nonFiniteFp (decodeCode 0x01 c) = true) :
    groupOf g.id (overflowNoted g codes s) = some { g with overflow := true } := by
  rw [overflowNoted, if_pos (List.any_eq_true.2 hover), groupOf_modGroup (by intro _; rfl), if_pos rfl, hg]
  rfl

/-- What a unit of a pass does once its gradients are complete. -/
structure UnitTaken (p : Pass) (b : Binding) (unit : Nat) (n : Word) (gs : List NV) (s v t : State) : Prop where
  keeps : StepKeeps v t
  marked : (tierPort b = none ∨ hyTouchAll b.hyper = false ∧ ∀ x ∈ gs, isZeroFp x.1 = true) → ∃ x : Pass, passOf p.id t = some x ∧ unit ∈ x.journalled
  updated : tierPort b = none → isBlockRule b.rule = false → ¬(hyTouchAll b.hyper = false ∧ ∀ x ∈ gs, isZeroFp x.1 = true) →
    getStripe b unit t = updatedStripe b n gs (getStripe b unit s)
  staged : (tierPort b).isSome = true → ¬(hyTouchAll b.hyper = false ∧ ∀ x ∈ gs, isZeroFp x.1 = true) →
    ∃ x : Binding, bindingOf b.num t = some x ∧ (unit, gs.map to32) ∈ x.staged

theorem mem_journalled_markUnit {p : Pass} {s : State} (u : Nat) (h : passOf p.id s = some p) :
    ∃ x : Pass, passOf p.id (markUnit p u s) = some x ∧ u ∈ x.journalled :=
  ⟨_, passOf_markUnit u h, List.mem_append_right _ (List.mem_singleton.2 rfl)⟩

theorem takeUnit_cases {p : Pass} {b : Binding} {s : State} (g : Group) (unit : Nat) (n : Word) (codes : List Nat) (hp : passOf p.id s = some p)
    (hb : b ∈ s.nmu.bindings) :
    UnitTaken p b unit n (codes.map (scaledGrad b g.scaleUsed)) s (overflowNoted g codes s) (sendMirror (takeUnit p g b unit n codes s)) := by
  have hover := overflowNoted_cases g codes s
  have heq : takeUnit p g b unit n codes s = (
      let gs := codes.map (scaledGrad b g.scaleUsed)
      let stripes := if isBlockRule b.rule then 16 else 1
      let s := nmuFlags (orFlags (gs.map Prod.snd)) (overflowNoted g codes s)
      if !hyTouchAll b.hyper && gs.all (fun x => isZeroFp x.1) then markUnit p unit s
      else if (tierPort b).isSome then
        modPass p.id (fun q => { q with staging := q.staging - 2112 * stripes })
          (setBd (dirOf b (stripes * unit)) { bdOf (dirOf b (stripes * unit)) s with fetching := true }
            (modBinding b.num (fun b => { b with staged := b.staged ++ [(unit, gs.map to32)] }) s))
      else markUnit p unit (updateUnit b unit n gs s)) := rfl
  rw [heq]
  generalize overflowNoted g codes s = v at hover
  obtain ⟨hrec, hpasses, hnmu⟩ := hover
  extract_lets gs stripes w
  have hw : RecordsStay s w := hrec.trans (recordsStay_nmuFlags _ v)
  have hwk : StepKeeps v w := stepKeeps_nmuFlags _ v
  have hwp : passOf p.id w = some p := (congrArg (List.find? fun q : Pass => q.id == p.id) hpasses).trans hp
  have hwb : (bindingOf b.num w).isSome = true := by
    refine bindingOf_isSome_of_mem (?_ : b ∈ v.nmu.bindings)
    rw [hnmu]
    exact hb
  have hsent (t : State) (i : Nat) : passOf i (sendMirror t) = passOf i t := congrArg (List.find? fun q : Pass => q.id == i) (passes_sendMirror t)
  have hidle : (!hyTouchAll b.hyper && gs.all (fun x => isZeroFp x.1)) = true ↔ hyTouchAll b.hyper = false ∧ ∀ x ∈ gs, isZeroFp x.1 = true := by
    rw [Bool.and_eq_true, Bool.not_eq_true', List.all_eq_true]
  split
  · next h =>
    refine ⟨(hwk.trans (stepKeeps_markUnit p unit w)).trans (stepKeeps_sendMirror _), fun _ => ?_, fun _ _ hn => absurd (hidle.1 h) hn,
      fun _ hn => absurd (hidle.1 h) hn⟩
    rw [hsent]
    exact mem_journalled_markUnit unit hwp
  · next h =>
    split
    · next htier =>
      have hnone : tierPort b ≠ none := Option.isSome_iff_ne_none.1 htier
      refine ⟨?_, fun hor => absurd hor ?_, fun hn => absurd hn hnone, fun _ _ => ?_⟩
      · exact ((hwk.trans ((stepKeeps_modBinding _ _ w).trans (stepKeeps_setBd _ _ _))).trans (stepKeeps_withPasses _ _)).trans (stepKeeps_sendMirror _)
      · rintro (hn | hz)
        · exact hnone hn
        · exact h (hidle.2 hz)
      · obtain ⟨y, hy⟩ := Option.isSome_iff_exists.1 hwb
        have hstaged (f : Pass → Pass) (e : BdEntry) : ∃ x : Binding, bindingOf b.num (sendMirror (modPass p.id f (setBd (dirOf b (stripes * unit)) e
            (modBinding b.num (fun b => { b with staged := b.staged ++ [(unit, gs.map to32)] }) w)))) = some x ∧ (unit, gs.map to32) ∈ x.staged := by
          have hkey := (((recordsStay_setBd (dirOf b (stripes * unit)) e (modBinding b.num (fun b => { b with
            staged := b.staged ++ [(unit, gs.map to32)] }) w)).trans (recordsStay_modPass p.id f _)).trans (mirrorSent_sendMirror _).recordsStay).bindingOf b.num
          rw [bindingOf_modBinding (by intro _; rfl), if_pos rfl, hy] at hkey
          obtain ⟨x, hx, hxy⟩ := Option.map_eq_some_iff.1 hkey
          have hlist : x.staged = y.staged ++ [(unit, gs.map to32)] := (congrArg Binding.staged hxy :)
          refine ⟨x, hx, ?_⟩
          rw [hlist]
          exact List.mem_append_right _ (List.mem_singleton.2 rfl)
        exact hstaged _ _
    · next htier =>
      refine ⟨?_, fun _ => ?_, fun hn hblock _ => ?_, fun hsome => absurd hsome htier⟩
      · exact ((hwk.trans (stepKeeps_updateUnit b unit n gs w)).trans (stepKeeps_markUnit p unit _)).trans (stepKeeps_sendMirror _)
      · rw [hsent]
        refine mem_journalled_markUnit unit ?_
        have hpasses' : (updateUnit b unit n gs w).passes = w.passes := (congrArg State.passes (besideRecords_updateUnit b unit n gs w) :)
        exact (congrArg (List.find? fun q : Pass => q.id == p.id) hpasses').trans hwp
      · have hwrites := updateUnit_writes hblock unit n gs w
        have hx := recordsStay_bdAccess (dirOf b unit) true w
        have hend := (hwrites.trans (recordsStay_markUnit p unit _)).trans (mirrorSent_sendMirror _).recordsStay
        have hxb : (bindingOf b.num (bdAccess (dirOf b unit) true w)).isSome = true := by
          rw [← Option.isSome_map (f := bodyKey), hx.bindingOf, Option.isSome_map]
          exact hwb
        rw [getStripe_of_recordsStay hend, getStripe_putStripe hn hxb, getStripe_of_recordsStay hw]

theorem mem_of_passUnits {p : Pass} {s : State} {b : Binding} {q k : Nat} (h : passUnits p s = some (b, q, k)) : b ∈ s.nmu.bindings := by
  obtain ⟨g, -, hg⟩ := Option.bind_eq_some_iff.1 h
  obtain ⟨c, hc, heq⟩ := Option.map_eq_some_iff.1 hg
  have hcb : c = b := (congrArg Prod.fst heq :)
  rw [← hcb]
  exact List.mem_of_find?_eq_some hc

theorem completes_nmuUnitUpdate {pass unit : Nat} {s : State} {p : Pass} {g : Group} {b : Binding} {q k : Nat} {n : Word} {codes : List Nat}
    (hp : passOf pass s = some p) (hg : groupOf p.group s = some g) (hunits : passUnits p s = some (b, q, k)) (hadm : p.admitted = true)
    (hfuse : p.fuse = true) (hlow : q ≤ unit) (hhigh : unit < q + k) (hnew : unit ∉ p.journalled) (hunstaged : ∀ x ∈ b.staged, x.1 ≠ unit)
    (hopen : g.open' = some n) (hstep : p.step = some n) (hheld : unitHeld b unit s = false) (hcodes : unitGrads p g b unit = some codes) :
    Completes (.nmuUnitUpdate pass unit) s fun t =>
      UnitTaken p b unit n (codes.map (scaledGrad b g.scaleUsed)) s (overflowNoted g codes s) t := by
  have hjournal : p.journalled.contains unit = false := by
    rw [List.contains_eq_mem, decide_eq_false_iff_not]
    exact hnew
  have hstaged : (b.staged.any fun x => x.1 == unit) = false := by
    rw [List.any_eq_false]
    exact fun x hx => by simpa only [beq_iff_eq] using hunstaged x hx
  have hexec : execNmuUnitUpdate pass unit s = .next (sendMirror (takeUnit p g b unit n codes s)) := by
    unfold execNmuUnitUpdate
    simp only [hp, hg, hunits, hadm, hfuse, hlow, hhigh, hjournal, hstaged, hopen, hstep, hheld, hcodes, decide_true, Bool.not_false,
      Option.isSome_some, beq_self_eq_true, Bool.and_self, if_true]
  rw [← id_of_passOf hp] at hp
  exact ⟨_, hexec, takeUnit_cases g unit n codes hp (mem_of_passUnits hunits)⟩

theorem foldl_markUnit_cases (ps : List Pass) (u : Nat) (s : State) : RecordsStay s (ps.foldl (fun s p => markUnit p u s) s) := by
  induction ps generalizing s with
  | nil => exact .refl s
  | cons p ps ih => exact (recordsStay_markUnit p u s).trans (ih _)

/-- A staged unit whose record has been updated, on its way back. -/
def landUnit (b : Binding) (unit : Nat) (x : Nat × List W32) (v : State) : State :=
  let d := dirOf b (if isBlockRule b.rule then 16 * unit else unit)
  markPasses b unit (setBd d { bdOf d v with fetching := false }
    (modBinding b.num (fun b => { b with staged := b.staged.erase x, writeBack := b.writeBack ++ [unit] }) v))

theorem landUnit_cases (b : Binding) (unit : Nat) (x : Nat × List W32) (v : State) :
    RecordsStay (modBinding b.num (fun b => { b with staged := b.staged.erase x, writeBack := b.writeBack ++ [unit] }) v)
      (sendMirror (landUnit b unit x v)) :=
  ((recordsStay_setBd _ _ _).trans (foldl_markUnit_cases _ unit _)).trans (mirrorSent_sendMirror _).recordsStay

theorem fenced_bdAccess (p : Port) (e : Nat) (dirty : Bool) (s : State) : (portOf p (bdAccess e dirty s)).fenced = (portOf p s).fenced := by
  unfold bdAccess
  extract_lets hit t
  split
  · cases p <;> rfl
  · cases p <;> rfl

theorem mem_putStripe {b : Binding} {p : Port} {i : Nat} {x : Stripe} {s : State} (htier : tierPort b = some p) (hport : (portOf p s).fenced = false) :
    (portOf p (putStripe b i x s)).mem = memWrite (portOf p s).mem (slowStripe b i) (stripeBytes b.rule x) := by
  unfold putStripe hostWrite
  simp only [htier, hport, Bool.false_eq_true, if_false, portOf_modPort]

theorem RecordsStay.portMem {s t : State} (h : RecordsStay s t) (p : Port) : (portOf p t).mem = (portOf p s).mem := by
  obtain ⟨-, hA, hB⟩ := h.memory
  cases p
  · exact hA
  · exact hB

theorem completes_recordLands {num unit : Nat} {s : State} {b : Binding} {x : Nat × List W32} {g : Group} {n : Word} {p : Port}
    (hb : bindingOf num s = some b) (hx : (b.staged.find? fun x => x.1 == unit) = some x) (hg : groupOf b.group s = some g)
    (hopen : g.open' = some n) (htier : tierPort b = some p) (hport : (portOf p s).fenced = false) :
    Completes (.recordLands num unit) s fun t =>
      (∃ y : Binding, bindingOf num t = some y ∧ y.staged = b.staged.erase x ∧ y.writeBack = b.writeBack ++ [unit]) ∧
      (isBlockRule b.rule = false → (portOf p t).mem = memWrite (portOf p s).mem (slowStripe b unit)
        (stripeBytes b.rule (updatedStripe b n (x.2.map nv32) (getStripe b unit s)))) := by
  have hexec : execRecordLands num unit s = .next (sendMirror (landUnit b unit x (updateUnit b unit n (x.2.map nv32) s))) := by
    unfold execRecordLands
    simp only [hb, hx, hg, Option.bind_some, hopen, htier, hport, Bool.false_eq_true, if_false]
    rfl
  have hend := landUnit_cases b unit x (updateUnit b unit n (x.2.map nv32) s)
  refine ⟨_, hexec, ?_, fun hblock => ?_⟩
  · have hkey := (headsStay_updateUnit b unit n (x.2.map nv32) s).bindingOf num
    rw [hb] at hkey
    obtain ⟨y, hy, hyb⟩ := Option.map_eq_some_iff.1 hkey
    have hkey' := hend.bindingOf num
    rw [bindingOf_modBinding (by intro _; rfl), if_pos (num_of_bindingOf hb).symm, hy] at hkey'
    obtain ⟨z, hz, hzy⟩ := Option.map_eq_some_iff.1 hkey'
    have hstaged : z.staged = y.staged.erase x := (congrArg Binding.staged hzy :)
    have hback : z.writeBack = y.writeBack ++ [unit] := (congrArg Binding.writeBack hzy :)
    have hstaged' : y.staged = b.staged := (congrArg Binding.staged hyb :)
    have hback' : y.writeBack = b.writeBack := (congrArg Binding.writeBack hyb :)
    exact ⟨z, hz, by rw [hstaged, hstaged'], by rw [hback, hback']⟩
  · have hbound : (portOf p (modBinding b.num (fun b => { b with staged := b.staged.erase x, writeBack := b.writeBack ++ [unit] })
        (updateUnit b unit n (x.2.map nv32) s))).mem = (portOf p (updateUnit b unit n (x.2.map nv32) s)).mem := by
      cases p <;> rfl
    rw [hend.portMem, hbound, (updateUnit_writes hblock unit n (x.2.map nv32) s).portMem,
      mem_putStripe htier ((fenced_bdAccess _ _ _ s).trans hport), (recordsStay_bdAccess _ _ s).portMem]

theorem completes_writeBackAcknowledged {num unit : Nat} {s : State} {b : Binding} (hb : bindingOf num s = some b) (hback : unit ∈ b.writeBack) :
    Completes (.writeBackAcknowledged num unit) s fun t => (∀ j : Nat, j ≠ num → bindingOf j t = bindingOf j s) ∧
      bindingOf num t = some { b with writeBack := b.writeBack.erase unit
                                      stageUsed := b.stageUsed - 2112 * (if isBlockRule b.rule then 16 else 1) } := by
  have hnum (x : Binding) : (if x.writeBack.contains unit then { x with
      writeBack := x.writeBack.erase unit, stageUsed := x.stageUsed - 2112 * (if isBlockRule x.rule then 16 else 1) } else x).num = x.num := by
    split <;> rfl
  refine ⟨_, (rfl : execWriteBackAcknowledged num unit s = _), fun j hj => ?_, ?_⟩
  · rw [bindingOf_modBinding hnum, if_neg hj]
  · rw [bindingOf_modBinding hnum, if_pos rfl, hb]
    exact congrArg some (if_pos (List.contains_iff_mem.2 hback))

theorem completes_bdMissFill (e : Nat) (s : State) : Completes (.bdMissFill e) s fun t => { t with nmu := { t.nmu with misses := s.nmu.misses } } = s ∧
    ∀ x : Nat, x ∈ t.nmu.misses ↔ x ∈ s.nmu.misses ∧ x ≠ e := by
  refine ⟨_, (rfl : execBdMissFill e s = _), rfl, fun x => ?_⟩
  show x ∈ s.nmu.misses.filter _ ↔ _
  rw [List.mem_filter, bne_iff_ne]

/-- Settles O44: a binding's number, directory and frames stand under the records that are written after it; an updated unit stands under the
journal, the passes and the mirror. -/
theorem bindingsAndUnits : Obligations.BindingsAndUnits := by
  refine ⟨fun d s r u => ⟨?_, ?_⟩, ?_, fun _ _ _ _ _ _ _ _ hb hx hg hopen htier hport => completes_recordLands hb hx hg hopen htier hport,
    fun _ _ _ _ hb hback => completes_writeBackAcknowledged hb hback, completes_bdMissFill⟩
  · intro i g first hi h count bytes mine hrule hfields hregions halign hstep hbind hstage hg hopen hapart hfirst hframes hpoison
    have hdesc : r.desc = d := by
      rcases hi with ⟨-, hstarts⟩ | ⟨q, -, -, rfl, -, rfl⟩
      · exact hstarts.desc.1
      · rfl
    subst hdesc
    obtain ⟨v, hv, ⟨y, hy, hkey⟩, hdir, hframes'⟩ := bindRule_cases r (newBinding r.desc g first (freeBinding u) u) u
    have hstart : startRule r u = done r 0 v :=
      (startRule_bind hrule hfields hregions halign hstep hbind hstage hg hopen hapart hfirst hframes hpoison).trans hv
    obtain ⟨t, hexec, ht⟩ := completes_rule (hi.imp (fun h => ⟨.inl h.1, h.2⟩) fun ⟨q, h, hheld, hr, hu, _⟩ => ⟨q, h, hheld, hr, hu⟩) hstart
    clear hv hstart
    generalize freeBinding u = num at hkey hdir hframes' ⊢
    exact ⟨t, hexec, v, ht, ⟨y, hy, (congrArg Binding.num hkey :), (congrArg Binding.slot hkey :), (congrArg Binding.base hkey :),
      (congrArg Binding.count hkey :), (congrArg Binding.rule hkey :), (congrArg Binding.hyper hkey :), (congrArg Binding.group hkey :),
      (congrArg Binding.bindStep hkey :), (congrArg Binding.dirFirst hkey :)⟩, fun k hk => ⟨_, hdir k hk, rfl, rfl, rfl, rfl⟩, hframes'⟩
  · intro i b hi hrule hb hopen
    have hdesc : r.desc = d := by
      rcases hi with ⟨-, hstarts⟩ | ⟨q, -, -, rfl, -, rfl⟩
      · exact hstarts.desc.1
      · rfl
    subst hdesc
    obtain ⟨v, hv, hgone⟩ := applyRelease_cases r b u
    have hstart : startRule r u = done r 0 v := (startRule_release hrule hb hopen).trans hv
    obtain ⟨t, hexec, ht⟩ := completes_rule (hi.imp (fun h => ⟨.inr h.1, h.2⟩) fun ⟨q, h, hheld, hr, hu, _⟩ => ⟨q, h, hheld, hr, hu⟩) hstart
    exact ⟨t, hexec, v, ht, hgone (List.mem_of_find?_eq_some hb)⟩
  · intro pass unit s p g b q k n codes hp hg hunits hadm hfuse hlow hhigh hnew hunstaged hopen hstep hheld hcodes
    obtain ⟨t, hexec, htaken⟩ := completes_nmuUnitUpdate hp hg hunits hadm hfuse hlow hhigh hnew hunstaged hopen hstep hheld hcodes
    have hpid := id_of_passOf hp
    have hgid := id_of_groupOf hg
    refine ⟨t, hexec, fun h => ?_, htaken.updated, htaken.staged, fun hover => ?_⟩
    · rw [← hpid]
      exact htaken.marked h
    · rw [← hgid] at hg ⊢
      obtain ⟨k, hk, hkey⟩ := htaken.keeps.exists_group (groupOf_overflowNoted hg hover)
      exact ⟨k, hk, (congrArg Group.overflow hkey :)⟩

end Sys2Proof.Machine
end

section
/-!
Steps (Machine/Steps.lean; R14, R16, R192 to R198, R226, R232, R233, R374 to R378): what the last work of a step leaves, and routes.
-/

namespace Sys2Proof.Machine

/-! ## What the last work of a step leaves -/

/-- A port without its bytes of host memory and the messages it owes. -/
def portShell (q : PortSt) : PortSt := { q with mem := [], msixPending := [] }

/-- A state without what the last work of a step may change: records, groups, memory, flags and cards. -/
def besideUpkeep (s : State) : State :=
  { s with nmu := {}, mate := mateKey s.mate, groups := [], memory := {}, portA := portShell s.portA, portB := portShell s.portB, card := {}
           devFlags := 0, devCounts := Vector.replicate 29 0, msix := [] }

/-- From `s` to `t` nothing has changed but records, groups, memory, flags and cards. -/
def Upkeep (s t : State) : Prop := besideUpkeep t = besideUpkeep s

theorem Upkeep.refl (s : State) : Upkeep s s := rfl

theorem Upkeep.trans {s t u : State} (h : Upkeep s t) (k : Upkeep t u) : Upkeep s u := Eq.trans k h

theorem Upkeep.foldl {α : Type} {f : State → α → State} (h : ∀ s x, Upkeep s (f s x)) (xs : List α) (s : State) : Upkeep s (xs.foldl f s) := by
  induction xs generalizing s with
  | nil => exact .refl s
  | cons x xs ih => exact (h s x).trans (ih _)

theorem Upkeep.ite {p : Prop} [Decidable p] {s a b : State} (ha : Upkeep s a) (hb : Upkeep s b) : Upkeep s (if p then a else b) := by
  split
  · exact ha
  · exact hb

theorem OnlyFlags.upkeep {s t : State} (h : OnlyFlags s t) : Upkeep s t := by
  have hquiet : quiet t = quiet s := h
  have hmask := congrArg besideUpkeep hquiet
  exact hmask

theorem upkeep_modNmu (f : NmuSt → NmuSt) (s : State) : Upkeep s (modNmu f s) := rfl

theorem upkeep_modBinding (i : Nat) (f : Binding → Binding) (s : State) : Upkeep s (modBinding i f s) := rfl

theorem upkeep_modGroup (i : Nat) (f : Group → Group) (s : State) : Upkeep s (modGroup i f s) := rfl

theorem upkeep_withGroups (gs : List Group) (s : State) : Upkeep s { s with groups := gs } := rfl

theorem upkeep_modMemory (f : MemSt → MemSt) (s : State) : Upkeep s (modMemory f s) := rfl

theorem upkeep_nmuFlags (f : BitVec 7) (s : State) : Upkeep s (nmuFlags f s) := rfl

theorem upkeep_setBd (e : Nat) (x : BdEntry) (s : State) : Upkeep s (setBd e x s) := rfl

theorem upkeep_modMate {f : MateSt → MateSt} (hf : ∀ m, mateKey (f m) = mateKey m) (s : State) : Upkeep s (modMate f s) := by
  show besideUpkeep (modMate f s) = besideUpkeep s
  simp only [besideUpkeep, modMate, hf]

theorem upkeep_raise (i code : Nat) (args : List Nat) (s : State) : Upkeep s (raiseDev i (raiseEvent code args s)) :=
  ((onlyFlags_raiseEvent _ _ _).trans (onlyFlags_raiseDev _ _)).upkeep

theorem upkeep_hostWrite (p : Port) (a : Nat) (bs : List Byte) (s : State) : Upkeep s (hostWrite p a bs s) := by
  refine Upkeep.ite (.refl s) ?_
  cases p <;> rfl

theorem upkeep_putStripe (b : Binding) (i : Nat) (x : Stripe) (s : State) : Upkeep s (putStripe b i x s) := by
  unfold putStripe
  split
  · exact upkeep_modBinding _ _ s
  · exact upkeep_hostWrite _ _ _ s

theorem upkeep_putBlock (b : Binding) (q : Nat) (x : Block) (s : State) : Upkeep s (putBlock b q x s) := by
  unfold putBlock
  split
  · exact upkeep_modBinding _ _ s
  · exact upkeep_hostWrite _ _ _ s

theorem upkeep_countCard (word n : Nat) (s : State) : Upkeep s (countCard word n s) := rfl

theorem upkeep_bdAccess (e : Nat) (dirty : Bool) (s : State) : Upkeep s (bdAccess e dirty s) := by
  unfold bdAccess
  extract_lets hit t
  have ht : Upkeep s t := upkeep_modNmu _ s
  exact Upkeep.ite ht ((ht.trans (upkeep_modNmu _ t)).trans (upkeep_countCard _ _ _))

theorem upkeep_noteGap (j : Nat) (r : JRec) (s : State) : Upkeep s (noteGap j r s) := by
  unfold noteGap
  exact (upkeep_modNmu _ s).trans (upkeep_raise _ _ _ _)

theorem upkeep_journalFull (j : Nat) (s : State) : Upkeep s (journalFull j s) := by
  unfold journalFull
  exact (upkeep_withGroups _ s).trans (upkeep_raise _ _ _ _)

theorem upkeep_trimJournal (j fuel : Nat) (s : State) : Upkeep s (trimJournal j fuel s) := by
  induction fuel generalizing s with
  | zero => exact .refl s
  | succ fuel ih =>
    unfold trimJournal
    extract_lets rs
    split
    · exact .refl s
    · split
      · exact upkeep_journalFull j s
      · next r _ =>
        refine Upkeep.trans ?_ (ih _)
        split
        · exact (upkeep_noteGap j r s).trans (upkeep_modNmu _ _)
        · exact upkeep_modNmu _ s

theorem upkeep_appendRec (r : JRec) (s : State) : Upkeep s (appendRec r s) := by
  unfold appendRec
  extract_lets j r' v w
  have hv : Upkeep s v := upkeep_modNmu _ s
  have hw : Upkeep s w := Upkeep.ite (hv.trans (upkeep_modMate (by intro _; rfl) v)) hv
  exact hw.trans (upkeep_trimJournal _ _ w)

theorem upkeep_changeStripe (b : Binding) (i : Nat) (n : Word) (update : Bool) (f : Stripe → Stripe × BitVec 7) (s : State) :
    Upkeep s (changeStripe b i n update f s) := by
  unfold changeStripe
  extract_lets old r d e e' v w
  have hv : Upkeep s v := ((upkeep_bdAccess d true s).trans (upkeep_putStripe b i r.1 _)).trans (upkeep_setBd d e' _)
  exact ((hv.trans (upkeep_appendRec _ v)).trans (upkeep_modBinding b.num _ w)).trans (upkeep_nmuFlags r.2 _)

theorem upkeep_changeBlock (b : Binding) (q : Nat) (n : Word) (new : Block) (s : State) : Upkeep s (changeBlock b q n new s) :=
  (upkeep_putBlock b q new s).trans (upkeep_appendRec _ _)

theorem upkeep_raiseRoot (b : Binding) (q : Nat) (x : Block) (ev : RootEvent) (s : State) : Upkeep s (raiseRoot b q x ev s) := by
  unfold raiseRoot
  extract_lets args
  split
  · exact upkeep_raise _ _ _ s
  · exact (upkeep_raise _ _ _ s).trans (upkeep_raise _ _ _ _)
  · exact upkeep_raise _ _ _ s
  · exact .refl s

theorem upkeep_updateUnit (b : Binding) (u : Nat) (n : Word) (g : List NV) (s : State) : Upkeep s (updateUnit b u n g s) := by
  unfold updateUnit
  split
  · unfold updateBlock
    extract_lets k old lo cb ss w m r ws ms cut t t'
    have ht : Upkeep s t := by
      refine Upkeep.foldl (fun v j => ?_) _ s
      exact upkeep_changeStripe _ _ _ _ _ v
    have ht' : Upkeep s t' := ht.trans (upkeep_changeBlock b u n r.1 t)
    exact (ht'.trans (upkeep_nmuFlags _ t')).trans (upkeep_raiseRoot _ _ _ _ _)
  · exact upkeep_changeStripe _ _ _ _ _ s

theorem upkeep_catchUnit (b : Binding) (u : Nat) (n : Word) (s : State) : Upkeep s (catchUnit b u n s) := by
  unfold catchUnit
  split
  · extract_lets old lo cb t
    have ht : Upkeep s t := by
      refine Upkeep.foldl (fun v j => ?_) _ s
      exact upkeep_changeStripe _ _ _ _ _ v
    exact (ht.trans (upkeep_changeBlock b u n _ t)).trans (upkeep_nmuFlags _ _)
  · exact upkeep_changeStripe _ _ _ _ _ s

theorem headsStay_catchUnit (b : Binding) (u : Nat) (n : Word) (s : State) : HeadsStay s (catchUnit b u n s) := by
  unfold catchUnit
  split
  · extract_lets old lo cb t
    have ht : HeadsStay s t := by
      refine HeadsStay.foldl (fun v j => ?_) _ s
      exact headsStay_changeStripe _ _ _ _ _ v
    exact (ht.trans ((headsStay_putBlock b u _ t).trans (recordsStay_appendRec _ _).heads)).trans (recordsStay_nmuFlags _ _).heads
  · exact headsStay_changeStripe _ _ _ _ _ s

/-- What holds across an update and a catch-up of any unit holds across the last work of a step. -/
theorem lastWork_rel {rel : State → State → Prop} (hrefl : ∀ s, rel s s) (htrans : ∀ {s t u}, rel s t → rel t u → rel s u)
    (hupdate : ∀ b u n g s, rel s (updateUnit b u n g s)) (hcatch : ∀ b u n s, rel s (catchUnit b u n s)) (g : Nat) (n : Word) (s : State) :
    rel s (lastWork g n s) := by
  have hfold {α : Type} {f : State → α → State} (h : ∀ s x, rel s (f s x)) (xs : List α) (t : State) : rel t (xs.foldl f t) := by
    induction xs generalizing t with
    | nil => exact hrefl t
    | cons x xs ih => exact htrans (h t x) (ih _)
  have htouch (b : Binding) (t : State) : rel t (touchAll n b t) := by
    unfold touchAll
    split
    · exact hrefl t
    · refine hfold (fun v u => ?_) _ t
      split
      · exact hrefl v
      · exact hupdate b u n _ v
  have hage (b : Binding) (t : State) : rel t (ageUnits n b t) := by
    refine hfold (fun v u => ?_) _ t
    dsimp only
    split
    · exact hcatch b u n v
    · exact hrefl v
  exact hfold (fun t b => htrans (htouch b t) (hage b _)) _ s

theorem upkeep_lastWork (g : Nat) (n : Word) (s : State) : Upkeep s (lastWork g n s) :=
  lastWork_rel .refl .trans upkeep_updateUnit upkeep_catchUnit g n s

theorem headsStay_lastWork (g : Nat) (n : Word) (s : State) : HeadsStay s (lastWork g n s) :=
  lastWork_rel .refl .trans headsStay_updateUnit headsStay_catchUnit g n s

theorem setShare_cases (v : Nat) (s : State) : Upkeep s (setShare v s) ∧ (setShare v s).nmu = s.nmu := by
  unfold setShare
  split
  · exact ⟨.refl s, rfl⟩
  · extract_lets allow t
    have ht : Upkeep s t := (onlyFlags_logDecision _ _ _ _ _ _ _ _ s).upkeep
    split
    · exact ⟨ht.trans (upkeep_modMemory _ t), rfl⟩
    · exact ⟨ht, rfl⟩

theorem Upkeep.fenced {s t : State} (h : Upkeep s t) (p : Port) : (portOf p t).fenced = (portOf p s).fenced := by
  have hA : (portShell t.portA).fenced = (portShell s.portA).fenced := (congrArg (fun u : State => u.portA.fenced) h :)
  have hB : (portShell t.portB).fenced = (portShell s.portB).fenced := (congrArg (fun u : State => u.portB.fenced) h :)
  cases p
  · exact hA
  · exact hB

theorem Upkeep.mateKey {s t : State} (h : Upkeep s t) : Machine.mateKey t.mate = Machine.mateKey s.mate := (congrArg State.mate h :)

/-- Whether a binding's units are in transit behind a fenced port. -/
def lostBehind (g : Nat) (s : State) (b : Binding) : Bool :=
  b.group == g && !b.staged.isEmpty && (match tierPort b with | some t => (portOf t s).fenced | none => false)

theorem stagedLost_eq (g : Nat) (s : State) : stagedLost g s = s.nmu.bindings.any (lostBehind g s) := rfl

/-- The last work of a step takes no unit out of transit. -/
theorem stagedLost_congr {s t : State} (hheads : HeadsStay s t) (hup : Upkeep s t) (g : Nat) : stagedLost g t = stagedLost g s := by
  have hany (bs : List Binding) : bs.any (lostBehind g s) = (bs.map headKey).any (lostBehind g s) := by
    rw [List.any_map]
    rfl
  have hlost : lostBehind g t = lostBehind g s := by
    funext b
    simp only [lostBehind, hup.fenced]
  have heads : t.nmu.bindings.map headKey = s.nmu.bindings.map headKey := hheads
  rw [stagedLost_eq, stagedLost_eq, hlost, hany, heads, ← hany]

/-! ## Routes -/

theorem edgesFrom_congr {s t : State} (hlinks : t.links = s.links) (x : Topology) (avoided : Bool) (skip : Option Nat) (v : Nat) :
    edgesFrom x avoided skip v t = edgesFrom x avoided skip v s := by
  simp only [edgesFrom, linkUsable, linkOf_congr hlinks]

theorem hopsFrom_congr {s t : State} (hlinks : t.links = s.links) (x : Topology) (avoided : Bool) (skip : Option Nat) (fuel d : Nat) (front : List Nat)
    (dist : Tbl Nat) : hopsFrom x avoided skip t fuel d front dist = hopsFrom x avoided skip s fuel d front dist := by
  induction fuel generalizing d front dist with
  | zero => rfl
  | succ fuel ih => simp only [hopsFrom, edgesFrom_congr hlinks, ih]

theorem descend_congr {s t : State} (hlinks : t.links = s.links) (x : Topology) (avoided : Bool) (skip : Option Nat) (dist : Tbl Nat) (fuel v : Nat) :
    descend x avoided skip dist t fuel v = descend x avoided skip dist s fuel v := by
  induction fuel generalizing v with
  | zero => rfl
  | succ fuel ih => simp only [descend, edgesFrom_congr hlinks, ih]

/-- A route depends on the links, the topology and the identity alone. -/
theorem linkTo_congr {s t : State} (hlinks : t.links = s.links) (hmod : t.mod = s.mod) (hflash : t.flash = s.flash) (m : Word) :
    linkTo m t = linkTo m s := by
  have hpath (avoided : Bool) : pathOver avoided none m t = pathOver avoided none m s := by
    simp only [pathOver, hopsFrom_congr hlinks, descend_congr hlinks, hmod, hflash]
  simp only [linkTo, routeTo, routeSkip, hpath]

theorem Upkeep.linkTo {s t : State} (h : Upkeep s t) (m : Word) : linkTo m t = linkTo m s := by
  have hlinks : t.links = s.links := (congrArg State.links h :)
  have hmod : t.mod = s.mod := (congrArg State.mod h :)
  have hflash : t.flash = s.flash := (congrArg State.flash h :)
  exact linkTo_congr hlinks hmod hflash m

end Sys2Proof.Machine
end

section
/-!
Steps from STEP_OPEN to the decision (Machine/Steps.lean; R14, R16, R226, R374 to R378).
-/

namespace Sys2Proof.Machine

/-! ## STEP_OPEN (R14, R192 to R198) -/

theorem openScale_keeps (g : Group) (c : ScaleCtl) : (openScale g c).id = g.id ∧ (openScale g c).lastStep = g.lastStep := by
  unfold openScale
  split
  · split <;> exact ⟨rfl, rfl⟩
  · extract_lets e k h
    have hh : h.id = g.id ∧ h.lastStep = g.lastStep := by
      show (ite _ _ _ : Group).id = _ ∧ (ite _ _ _ : Group).lastStep = _
      split <;> exact ⟨rfl, rfl⟩
    exact hh

theorem groups_foldl {α : Type} {f : State → α → State} (h : ∀ s x, (f s x).groups = s.groups) (xs : List α) (s : State) :
    (xs.foldl f s).groups = s.groups := by
  induction xs generalizing s with
  | nil => rfl
  | cons x xs ih => exact (ih _).trans (h s x)

theorem groups_vaForce (slot va : Nat) (bs : List Byte) (s : State) : (vaForce slot va bs s).groups = s.groups :=
  (congrArg State.groups (besideMemory_vaForce slot va bs s) :)

theorem groups_writeStatus (g : Group) (n : Word) (s : State) : (writeStatus g n s).groups = s.groups := by
  refine groups_foldl (fun v i => ?_) _ s
  split
  · exact modChan_groups _ _ _
  · extract_lets tags
    exact (modChan_groups _ _ _).trans (groups_vaForce _ _ _ v)

/-- A group whose step is open under its control block. -/
structure StepOpened (n : Word) (slot : Nat) (c : ScaleCtl) (t : Word) (g h : Group) : Prop where
  id : h.id = g.id
  open' : h.open' = some n
  openSlot : h.openSlot = slot
  ctl : h.ctl = c
  e : h.e = (openScale g c).e
  scaleUsed : h.scaleUsed = h.e
  scaleKnown : h.scaleKnown = true
  overflow : h.overflow = false
  faulted : h.faulted = false
  committing : h.committing = none
  reported : h.reported = false
  lastStep : h.lastStep = g.lastStep
  openedAt : h.openedAt = t

theorem openStep_cases (r : DescRec) (g : Group) (c : ScaleCtl) (hs : List (Binding × List Word)) (s : State) :
    ∃ (v : State) (h : Group), openStep r g c hs s = done r 0 v ∧ StepOpened r.desc.w2 r.desc.slot c (now s) g h ∧
      v.groups = mapIf (fun x => x.id == g.id) (fun _ => h) s.groups := by
  obtain ⟨hid, hlast⟩ := openScale_keeps g c
  unfold openStep
  extract_lets n fresh h₀ h v w x
  have hv : v.groups = s.groups := by
    refine groups_foldl (fun u b => ?_) _ s
    rfl
  have hw : w.groups = mapIf (fun x => x.id == g.id) (fun _ => h) s.groups := by
    show mapIf _ _ v.groups = _
    rw [hv]
  have hx : x.groups = w.groups := by
    show (ite _ _ _ : State).groups = _
    split <;> rfl
  exact ⟨_, h, rfl, ⟨hid, rfl, rfl, rfl, rfl, rfl, rfl, rfl, rfl, rfl, rfl, hlast, rfl⟩, (groups_writeStatus h n x).trans (hx.trans hw)⟩

/-- Replacing the group of a number by one of that number. -/
theorem find?_replaceGroup {g h : Group} (hid : h.id = g.id) (j : Nat) (gs : List Group) :
    (mapIf (fun x => x.id == g.id) (fun _ => h) gs).find? (fun x => x.id == j) =
      if j = g.id then (gs.find? fun x => x.id == j).map (fun _ => h) else gs.find? fun x => x.id == j := by
  have hsame : mapIf (fun x => x.id == g.id) (fun _ => h) gs = mapIf (fun x => x.id == g.id) (fun x => { h with id := x.id }) gs := by
    refine List.map_congr_left fun x _ => ?_
    split
    · next hx =>
      have hxid : x.id = h.id := (beq_iff_eq.1 hx).trans hid.symm
      show h = { h with id := x.id }
      rw [hxid]
    · rfl
  rw [hsame, find?_mapIf (f := fun x => { h with id := x.id }) (fun x : Group => x.id) (by intro _; rfl)]
  split
  · next hj =>
    cases hfind : gs.find? fun x => x.id == j with
    | none => rfl
    | some x =>
      have hxid : x.id = h.id := ((beq_iff_eq.1 (List.find?_some (p := fun x : Group => x.id == j) hfind)).trans hj).trans hid.symm
      show some { h with id := x.id } = some h
      rw [hxid]
  · rfl

theorem startOpen_eq {r : DescRec} {u : State} {g : Group} {c : ScaleCtl} (hg : groupOf (fieldNat r.desc.w3 0 16) u = some g) (hkept : g.lost = false)
    (hclosed : g.open' = none) (hnext : r.desc.w2 = g.lastStep + 1) (hpage : (locate r.desc.slot numericsVa u).isSome = true)
    (hctl : readCtl r.desc.slot u = some c) (hfree : openHold r g u = none)
    (hhyper : ∀ b ∈ rereadHyper g.id u, hyBindPart b.1.hyper = hyBindPart b.2 ∧ hyStepOk b.1.rule b.2 = true) :
    startOpen r u = openStep r g c (rereadHyper g.id u) (if r.hold == .stepOpen then addStall r.aux (nsSince r.since (mono u)) u else u) := by
  have hmapped : (locate r.desc.slot numericsVa u).isNone = false := by
    rw [← Option.not_isSome, hpage]
    rfl
  have horder : (r.desc.w2 != g.lastStep + 1) = false := bne_eq_false_iff_eq.2 hnext
  have hsame : ((rereadHyper g.id u).any fun b => hyBindPart b.1.hyper != hyBindPart b.2 || !hyStepOk b.1.rule b.2) = false := by
    rw [List.any_eq_false]
    intro b hb
    obtain ⟨hpart, hok⟩ := hhyper b hb
    rw [hpart, hok, bne_self_eq_false]
    exact Bool.false_ne_true
  unfold startOpen
  simp only [hg, hkept, hclosed, horder, hmapped, hctl, hfree, hsame, Option.isSome_none, Bool.or_self, Bool.false_eq_true, if_false]

theorem Fetched.time {op : BitVec 8} {d : Desc} {s u : State} {r : DescRec} (h : Fetched op d s r u) : u.time = s.time := by
  obtain ⟨-, -, c, -, -, hu, -⟩ := h
  rw [hu]
  exact modChan_time _ _ _

theorem completes_stepOpen {d : Desc} {s u : State} {r : DescRec} {i : Instr} {g : Group} {c : ScaleCtl}
    (hi : (i = .stepOpen d ∧ Starts 0x06 d s r u) ∨ (i = .stepOpenRelease r.id ∧ HeldAs r.id .stepOpen r s ∧ u = s ∧ r.desc = d))
    (hg : groupOf (fieldNat d.w3 0 16) u = some g) (hkept : g.lost = false) (hclosed : g.open' = none) (hnext : d.w2 = g.lastStep + 1)
    (hpage : (locate d.slot numericsVa u).isSome = true) (hctl : readCtl d.slot u = some c) (hfree : openHold r g u = none)
    (hhyper : ∀ b ∈ rereadHyper g.id u, hyBindPart b.1.hyper = hyBindPart b.2 ∧ hyStepOk b.1.rule b.2 = true) :
    Completes i s fun t => Finishes r 0 t fun v => ∃ h : Group, groupOf g.id v = some h ∧ StepOpened d.w2 d.slot c s.time.dtime g h ∧
      ∀ j : Nat, j ≠ g.id → groupOf j v = groupOf j u := by
  have hdesc : r.desc = d := by
    rcases hi with ⟨-, hstarts⟩ | ⟨-, -, -, hdesc⟩
    · exact hstarts.desc.1
    · exact hdesc
  have htime : u.time = s.time := by
    rcases hi with ⟨-, hstarts⟩ | ⟨-, -, rfl, -⟩
    · exact hstarts.1.time
    · rfl
  have hexec : exec i s = .next (startOpen r u) := by
    rcases hi with ⟨rfl, hstarts⟩ | ⟨rfl, ⟨hr, hhold, hchan⟩, rfl, -⟩
    · exact (congrArg Host.Outcome.next (hstarts.fetchWith startOpen) : execStepOpen d s = _)
    · have hwaits : (r.hold == .stepOpen && (chanOf r.desc.slot u).isSome) = true := by
        rw [hhold, hchan]
        rfl
      refine (?_ : execStepOpenRelease r.id u = _)
      unfold execStepOpenRelease
      rw [hr]
      exact congrArg Host.Outcome.next (if_pos hwaits)
  subst hdesc
  rw [startOpen_eq hg hkept hclosed hnext hpage hctl hfree hhyper] at hexec
  have hstall : (if r.hold == .stepOpen then addStall r.aux (nsSince r.since (mono u)) u else u).groups = u.groups ∧
      now (if r.hold == .stepOpen then addStall r.aux (nsSince r.since (mono u)) u else u) = s.time.dtime := by
    rw [← htime]
    split <;> exact ⟨rfl, rfl⟩
  obtain ⟨v, h, hopen, hopened, hgroups⟩ := openStep_cases r g c (rereadHyper g.id u)
    (if r.hold == .stepOpen then addStall r.aux (nsSince r.since (mono u)) u else u)
  rw [hstall.1] at hgroups
  rw [hstall.2] at hopened
  have hfind (j : Nat) : groupOf j v = if j = g.id then (groupOf j u).map (fun _ => h) else groupOf j u := by
    rw [groupOf, hgroups]
    exact find?_replaceGroup hopened.id j u.groups
  refine ⟨_, hexec, v, hopen, h, ?_, hopened, fun j hj => ?_⟩
  · rw [hfind, if_pos rfl, id_of_groupOf hg, hg]
    rfl
  · rw [hfind, if_neg hj]

/-! ## STEP_COMMIT (R16) -/

theorem completes_stepCommit {d : Desc} {s u : State} {r : DescRec} {g : Group} (h : Starts 0x07 d s r u)
    (hg : groupOf (fieldNat d.w3 0 16) u = some g) (hopen : g.open' = some d.w2) (hfree : g.committing = none) :
    Completes (.stepCommit d) s fun t => { t with descs := u.descs, groups := u.groups } = u ∧
      groupOf g.id t = some { g with committing := some r.id } ∧ (∀ j : Nat, j ≠ g.id → groupOf j t = groupOf j u) ∧
      ∃ x : DescRec, descOf r.id t = some x ∧ x.hold = .commit ∧ x.desc = d := by
  have hdesc := h.desc.1
  have hok : (g.open' != some r.desc.w2 || g.committing.isSome) = false := by
    rw [hopen, hdesc, hfree, bne_self_eq_false]
    rfl
  have hexec : execStepCommit d s = .next (holdAs r .commit (modGroup g.id (fun g => { g with committing := some r.id }) u)) := by
    refine congrArg Host.Outcome.next ((h.fetchWith startCommit).trans ?_)
    unfold startCommit
    rw [hdesc, hg]
    dsimp only
    rw [← hdesc, if_neg (by rw [hok]; exact Bool.false_ne_true)]
  have hframe := descs_holdAs_frame r .commit (modGroup g.id (fun g => { g with committing := some r.id }) u)
  generalize ht : holdAs r .commit (modGroup g.id (fun g => { g with committing := some r.id }) u) = t at hexec hframe
  have hgroups : t.groups = (modGroup g.id (fun g => { g with committing := some r.id }) u).groups := (congrArg State.groups hframe :)
  have hfind (j : Nat) : groupOf j t = if j = g.id then (groupOf j u).map (fun g => { g with committing := some r.id }) else groupOf j u := by
    rw [groupOf, hgroups]
    exact groupOf_modGroup (by intro _; rfl) j g.id u
  refine ⟨t, hexec, ?_, ?_, fun j hj => ?_, ?_⟩
  · have hback := congrArg (fun v : State => { v with descs := u.descs, groups := u.groups }) hframe
    exact hback
  · have hgid : groupOf g.id u = some g := by rw [id_of_groupOf hg, hg]
    rw [hfind, if_pos rfl, hgid]
    rfl
  · rw [hfind, if_neg hj]
  · rw [← ht]
    exact ⟨_, descOf_holdAs r .commit _, rfl, hdesc⟩

end Sys2Proof.Machine
end

section
/-!
Reports and the decision of a step (Machine/Steps.lean; R226, R374 to R378), and the obligation on steps.
-/

namespace Sys2Proof.Machine

/-! ## Reports -/

/-- A rank with no report of its own passes nothing on. -/
theorem pushReports_idle {i : Nat} {s : State} {g : Group} (hg : groupOf i s = some g)
    (hidle : ∀ r ∈ heldRanks g s, (g.reports.any fun x => x.low == r + 131072) = true ∨ nodeReport g r = none) (fuel : Nat) :
    pushReports i fuel s = s := by
  cases fuel with
  | zero => rfl
  | succ fuel =>
    have hnone : (heldRanks g s).findSome? (fun r => if g.reports.any fun x => x.low == r + 131072 then none else (nodeReport g r).map fun x => (r, x)) =
        none := by
      rw [List.findSome?_eq_none_iff]
      intro r hr
      split
      · rfl
      · next hnew =>
        rcases hidle r hr with h | h
        · exact absurd h hnew
        · rw [h]
          rfl
    unfold pushReports
    rw [hg]
    dsimp only
    rw [hnone]
    cases g.open' <;> rfl

theorem nodeReport_leaf {g : Group} {leaf : Report} {r : Nat} (hreports : g.reports = [leaf]) (hlow : leaf.low = r + 65536)
    (hleaf : childRanks (groupN g) r = []) : nodeReport g r = some { leaf with low := r } := by
  have hfind : [leaf].find? (fun x => x.low == r + 65536) = some leaf := List.find?_cons_of_pos (beq_iff_eq.2 hlow)
  unfold nodeReport
  rw [hreports, hfind, hleaf]
  rfl

/-- A group that has noted a node's report as passed on. -/
def passedOn (x : Report) (r : Nat) (g : Group) : Group := { g with reports := g.reports ++ [{ x with low := r + 131072 }] }

/-- A member alone in its part of the tree passes its report on, or decides at rank 0. -/
theorem pushReports_leaf {i fuel : Nat} {s : State} {g : Group} {n : Word} {leaf : Report} (hg : groupOf i s = some g) (hopen : g.open' = some n)
    (hheld : heldRanks g s = [g.rank]) (hreports : g.reports = [leaf]) (hlow : leaf.low = g.rank + 65536)
    (hleaf : childRanks (groupN g) g.rank = []) :
    pushReports i (fuel + 1) s =
      let x := { leaf with low := g.rank }
      let v := modGroup i (passedOn x g.rank) s
      if g.rank == 0 then (if g.decided then v else decideStep g n x v)
      else if rankHolder g (parentRank (groupN g) g.rank) == s.mod.identity || (heldRanks g s).contains (parentRank (groupN g) g.rank) then
        pushReports i fuel (modGroup i (fun h => { h with reports := h.reports ++ [x] }) v)
      else pushReports i fuel (sendTo (rankHolder g (parentRank (groupN g) g.rank)) (reportItem g n x) v) := by
  have hnew : (g.reports.any fun x => x.low == g.rank + 131072) = false := by
    rw [hreports, List.any_eq_false]
    intro x hx
    rw [List.mem_singleton.1 hx, hlow, beq_iff_eq]
    omega
  have hsome : (heldRanks g s).findSome? (fun r => if g.reports.any fun x => x.low == r + 131072 then none else (nodeReport g r).map fun x => (r, x)) =
      some (g.rank, { leaf with low := g.rank }) := by
    rw [hheld, List.findSome?_cons, hnew, if_neg Bool.false_ne_true, nodeReport_leaf hreports hlow hleaf]
    rfl
  rw [pushReports, hg]
  dsimp only
  rw [hopen, hsome]
  rfl

/-! ## OWNER_COMMIT_REPORT (R226, R376) -/

/-- The last work of a step, done. -/
def workDone (g : Group) (n : Word) (s : State) : State :=
  modNmu (fun m => { m with cache := m.cache.map fun c => c.map fun x => (x.1, false) }) (lastWork g.id n (setShare s.card.moveMax s))

/-- The report of a member's own rank, or of one it has taken over. -/
def leafReport (g : Group) (w : State) (r : Nat) : Report :=
  { low := r + 65536, ok := (!g.faulted && !g.faultedPass && !stagedLost g.id w) && !((groupOf g.id w).getD g).faulted
    overflow := ((groupOf g.id w).getD g).overflow, sat := ((groupOf g.id w).getD g).gradSat
    fault := !((!g.faulted && !g.faultedPass && !stagedLost g.id w) && !((groupOf g.id w).getD g).faulted), members := 1
    crc := if r == g.rank then shardCrc g.id w else w.mate.mirrorCrc }

/-- A group whose owner has reported. -/
def reportedGroup (g : Group) (w : State) (h : Group) : Group :=
  { h with reported := true, reportAt := some (now w), reports := h.reports ++ (heldRanks g w).map (leafReport g w) }

theorem ownerCommitReport_eq {group : BitVec 16} {s : State} {g : Group} {n : Word} (hg : groupOf group.toNat s = some g) (hopen : g.open' = some n)
    (hmembers : memberLost g s = false) (hdue : reportDue g s = true) :
    execOwnerCommitReport group s = .next (sendMirror (pushReports g.id 64 (modGroup g.id (reportedGroup g (workDone g n s)) (workDone g n s)))) := by
  unfold execOwnerCommitReport
  simp only [hg, hopen, hmembers, hdue, Bool.and_false, Bool.not_true, Bool.false_eq_true, if_false]
  rfl

/-- What the report of a member stands on: its group as it was, with its own leaf. -/
structure Reported (g : Group) (n : Word) (s v : State) (h : Group) (leaf : Report) : Prop where
  group : groupOf g.id v = some h
  key : stepKey h = stepKey (reportedGroup g (workDone g n s) g)
  reports : h.reports = [leaf]
  leaf : leaf = leafReport g (workDone g n s) g.rank
  held : heldRanks h v = [h.rank]
  upkeep : Upkeep s v

theorem upkeep_workDone (g : Group) (n : Word) (s : State) : Upkeep s (workDone g n s) :=
  ((setShare_cases s.card.moveMax s).1.trans (upkeep_lastWork _ _ _)).trans (upkeep_modNmu _ _)

theorem stepKeeps_workDone (g : Group) (n : Word) (s : State) : StepKeeps s (workDone g n s) :=
  ((stepKeeps_setShare s.card.moveMax s).trans (stepKeeps_lastWork _ _ _)).trans (stepKeeps_modNmu _ _)

theorem heldRanks_of_none {g : Group} {s : State} (h : ∀ x ∈ s.mate.takenOver, x.1 ≠ g.id) : heldRanks g s = [g.rank] := by
  have hnone : (s.mate.takenOver.filter fun x => x.1 == g.id) = [] := by
    rw [List.filter_eq_nil_iff]
    exact fun x hx => by simpa only [beq_iff_eq] using h x hx
  rw [heldRanks, hnone]
  rfl

theorem Upkeep.takenOver {s t : State} (h : Upkeep s t) : t.mate.takenOver = s.mate.takenOver := (congrArg MateSt.takenOver h.mateKey :)

theorem reported {s : State} {g : Group} {n : Word} {i : Nat} (hg : groupOf i s = some g) (htaken : ∀ x ∈ s.mate.takenOver, x.1 ≠ g.id)
    (hreports : g.reports = []) : ∃ h leaf, Reported g n s (modGroup g.id (reportedGroup g (workDone g n s)) (workDone g n s)) h leaf := by
  have hgid : groupOf g.id s = some g := by rw [id_of_groupOf hg, hg]
  have hup := upkeep_workDone g n s
  have hheld : heldRanks g (workDone g n s) = [g.rank] := heldRanks_of_none (by rw [hup.takenOver]; exact htaken)
  obtain ⟨k, hk, hkey⟩ := (stepKeeps_workDone g n s).exists_group hgid
  have hkid : k.id = g.id := (congrArg Group.id hkey :)
  have hkrank : k.rank = g.rank := (congrArg Group.rank hkey :)
  have hkreports : k.reports = [] := (congrArg Group.reports hkey :).trans hreports
  refine ⟨reportedGroup g (workDone g n s) k, leafReport g (workDone g n s) g.rank, ?_, ?_, ?_, rfl, ?_, hup.trans (upkeep_modGroup _ _ _)⟩
  · rw [groupOf_modGroup (by intro _; rfl), if_pos rfl, hk]
    rfl
  · have hsame := congrArg (fun x => stepKey (reportedGroup g (workDone g n s) x)) hkey
    exact hsame
  · show k.reports ++ (heldRanks g (workDone g n s)).map _ = _
    rw [hkreports, hheld]
    rfl
  · refine heldRanks_of_none (fun x hx => ?_)
    have hx' : x ∈ (workDone g n s).mate.takenOver := hx
    rw [hup.takenOver] at hx'
    show x.1 ≠ k.id
    rw [hkid]
    exact htaken x hx'

theorem shardCrc_workDone (g : Group) (n : Word) (s : State) :
    shardCrc g.id (workDone g n s) = shardCrc g.id (lastWork g.id n (setShare s.card.moveMax s)) := rfl

theorem w1_reportItem {g : Group} {n : Word} {x : Report} (hid : g.id < 65536) : fieldNat (reportItem g n x).w1 16 14 = x.low % 16384 := by
  simp only [reportItem, mkItem, fieldNat, BitVec.toNat_ofNat]
  omega

theorem completes_ownerCommitReport_leaf {group : BitVec 16} {s : State} {g : Group} {n : Word} {l : Nat} (hg : groupOf group.toNat s = some g)
    (hopen : g.open' = some n) (hmembers : memberLost g s = false) (hdue : reportDue g s = true) (htaken : ∀ x ∈ s.mate.takenOver, x.1 ≠ g.id)
    (hreports : g.reports = []) (hrank : g.rank ≠ 0) (hleaf : childRanks (groupN g) g.rank = [])
    (hup : rankHolder g (parentRank (groupN g) g.rank) ≠ s.mod.identity)
    (hlink : linkTo (rankHolder g (parentRank (groupN g) g.rank)) s = some l) (hparent : parentRank (groupN g) g.rank ≠ g.rank) :
    Completes (.ownerCommitReport group) s fun t => (∃ h : Group, groupOf g.id t = some h ∧ h.reported = true ∧ h.open' = some n) ∧
      ∃ it ∈ (linkOf l t).control, itemKind it = 0x10 ∧ it.w2 = n ∧ fieldNat it.w1 16 14 = g.rank % 16384 ∧
        it.w4 = shardCrc g.id (lastWork g.id n (setShare s.card.moveMax s)) := by
  have hexec := ownerCommitReport_eq hg hopen hmembers hdue
  obtain ⟨h, leaf, hreported⟩ := reported (n := n) hg htaken hreports
  generalize hv : modGroup g.id (reportedGroup g (workDone g n s)) (workDone g n s) = v at hexec hreported
  obtain ⟨hgroup, hkey, hleaves, hleafEq, hheld, hupkeep⟩ := hreported
  have hid : h.id = g.id := (congrArg Group.id hkey :)
  have hhrank : h.rank = g.rank := (congrArg Group.rank hkey :)
  have hhopen : h.open' = some n := (congrArg Group.open' hkey :).trans hopen
  have hsize : groupN h = groupN g := (congrArg groupN hkey :)
  have hholder : rankHolder h = rankHolder g := (congrArg rankHolder hkey :)
  have hdone : h.reported = true := (congrArg Group.reported hkey :)
  have hlow : leaf.low = h.rank + 65536 := by rw [hleafEq, hhrank]; rfl
  have hstep := pushReports_leaf (fuel := 63) hgroup hhopen hheld hleaves hlow (by rw [hsize, hhrank]; exact hleaf)
  have hzero : (h.rank == 0) = false := beq_eq_false_iff_ne.2 (by rw [hhrank]; exact hrank)
  have hmod : v.mod = s.mod := (congrArg State.mod hupkeep :)
  have haway : (rankHolder h (parentRank (groupN h) h.rank) == v.mod.identity || (heldRanks h v).contains (parentRank (groupN h) h.rank)) = false := by
    rw [hheld, hsize, hhrank, hholder, hmod, beq_eq_false_iff_ne.2 hup, Bool.false_or, List.contains_eq_mem, decide_eq_false_iff_not, List.mem_singleton]
    exact hparent
  simp only [hzero, haway, Bool.false_eq_true, if_false] at hstep
  have hsends (m : Word) (it : Item) (w : State) (hm : linkTo m w = some l) : sendTo m it w = sendItem l it w := by
    unfold sendTo
    rw [hm]
  have hlink' : linkTo (rankHolder h (parentRank (groupN h) h.rank)) (modGroup g.id (passedOn { leaf with low := h.rank } h.rank) v) = some l := by
    rw [(hupkeep.trans (upkeep_modGroup _ _ v)).linkTo, hsize, hhrank, hholder]
    exact hlink
  rw [hsends _ _ _ hlink'] at hstep
  generalize hw : sendItem l (reportItem h n { leaf with low := h.rank }) (modGroup g.id (passedOn { leaf with low := h.rank } h.rank) v) = w at hstep
  have hwg : groupOf g.id w = some (passedOn { leaf with low := h.rank } h.rank h) := by
    rw [← hw]
    refine (groupOf_modGroup (by intro _; rfl) g.id g.id v).trans ?_
    rw [if_pos rfl, hgroup]
    rfl
  have hheldw : heldRanks (passedOn { leaf with low := h.rank } h.rank h) w = [h.rank] := by
    rw [← hw]
    exact hheld
  have hidle := pushReports_idle hwg (fun r hr => .inl (by
    rw [hheldw] at hr
    rw [List.mem_singleton.1 hr]
    exact List.any_eq_true.2 ⟨_, List.mem_append_right _ (List.mem_singleton.2 rfl), beq_self_eq_true _⟩)) 63
  rw [hstep, hidle] at hexec
  have hsent := mirrorSent_sendMirror w
  refine ⟨_, hexec, ⟨passedOn { leaf with low := h.rank } h.rank h, ?_, hdone, hhopen⟩, reportItem h n { leaf with low := h.rank }, ?_, itemKind_mkItem _ _ _ _ _ (by decide) (by decide), rfl, ?_, ?_⟩
  · rw [groupOf, hsent.groups]
    exact hwg
  · rw [hsent.control, ← hw, sendItem, linkOf_modLink]
    exact List.mem_append_right _ (List.mem_singleton.2 rfl)
  · rw [w1_reportItem (by rw [hid, id_of_groupOf hg]; exact group.isLt)]
    exact congrArg (· % 16384) hhrank
  · show leaf.crc = _
    rw [hleafEq, ← shardCrc_workDone]
    exact if_pos (beq_self_eq_true _)

/-! ## The decision (R376, R377) -/

theorem closeStep_group {g k : Group} {s : State} (n : Word) (d : Decision) (t : Word) (hk : groupOf g.id s = some k) :
    ∃ h : Group, groupOf g.id (closeStep g n d t s) = some h ∧ h.open' = none ∧ h.committing = none ∧
      h.lastStep = if d.commit then n else k.lastStep := by
  have hclosed : groupOf g.id (modGroup g.id (closedGroup n d) s) = some (closedGroup n d k) := by
    rw [groupOf_modGroup (by intro _; rfl), if_pos rfl, hk]
    rfl
  obtain ⟨h, hh, hkey⟩ := (closeStep_cases g n d t s).1.exists_group hclosed
  exact ⟨h, hh, (congrArg Group.open' hkey :), (congrArg Group.committing hkey :), (congrArg Group.lastStep hkey :)⟩

theorem stepKeeps_published (g : Nat) (n : Word) (d : Decision) (s : State) :
    StepKeeps s (if d.commit then sendDigests g n (publish g n s) else s) := by
  split
  · exact (stepKeeps_publish _ _ s).trans (stepKeeps_sendDigests _ _ _)
  · exact .refl s

theorem releaseDecision_group {i : Nat} {s : State} {g : Group} {d : Decision} {n : Word} (hg : groupOf i s = some g) (hd : g.decision = some d)
    (hopen : g.open' = some n) : ∃ h : Group, groupOf i (releaseDecision i s) = some h ∧ h.open' = none ∧ h.committing = none ∧
      h.lastStep = if d.commit then n else g.lastStep := by
  have heq : releaseDecision i s = closeStep g n d d.time (passDown g n d d.time (if d.commit then sendDigests g.id n (publish g.id n s) else s)) := by
    unfold releaseDecision
    rw [hg]
    dsimp only
    rw [hd, hopen]
  rw [heq]
  obtain rfl := id_of_groupOf hg
  obtain ⟨k, hk, hkey⟩ := ((stepKeeps_published g.id n d s).trans (stepKeeps_passDown g n d d.time _)).exists_group hg
  obtain ⟨h, hh, hopen', hcommitting, hlast⟩ := closeStep_group n d d.time hk
  have hklast : k.lastStep = g.lastStep := (congrArg Group.lastStep hkey :)
  rw [hklast] at hlast
  exact ⟨h, hh, hopen', hcommitting, hlast⟩

/-- A report without overflow or fault in a group of one commits its step at once. -/
theorem decideStep_commits {g k : Group} {n : Word} {x : Report} {s : State} (hk : groupOf g.id s = some k) (hopen : k.open' = some n)
    (hover : x.overflow = false) (hsat : x.sat = false) (hok : x.ok = true) (hmate : s.mate.formed = false) :
    ∃ h : Group, groupOf g.id (decideStep g n x s) = some h ∧ h.open' = none ∧ h.committing = none ∧ h.lastStep = n := by
  unfold decideStep
  extract_lets overflow d₀ d v w seq y paired z
  have hcommit : d.commit = true := by
    show (nextScale g _ (x.overflow || (x.sat && !g.ctl.satIgnore)) (!x.ok)).commit = true
    rw [hover, hsat, hok]
    rfl
  have hclean : d.overflow = false := by
    show (nextScale g _ (x.overflow || (x.sat && !g.ctl.satIgnore)) (!x.ok)).overflow = false
    rw [hover, hsat, hok]
    rfl
  have hv : v = s := by
    show scaleEvents g d s = s
    unfold scaleEvents
    exact if_pos (by rw [hclean]; rfl)
  have hw : w = s := by
    show (if d.commit then v else undoOpen g n v) = s
    rw [hcommit, if_pos rfl, hv]
  have hy : StepKeeps s y ∧ Upkeep s y := by
    have hrec : StepKeeps w y ∧ Upkeep w y := ⟨stepKeeps_appendRec _ w, upkeep_appendRec _ w⟩
    rw [hw] at hrec
    exact hrec
  have hpaired : paired = false := by
    have hformed : y.mate.formed = s.mate.formed := (congrArg MateSt.formed hy.2.mateKey :)
    show (y.mate.formed && !y.mate.degraded) = false
    rw [hformed, hmate]
    rfl
  obtain ⟨q, hq, hkey⟩ := hy.1.exists_group hk
  have hqopen : q.open' = some n := (congrArg Group.open' hkey :).trans hopen
  have hz : groupOf g.id z = some { q with decided := true, decision := some d, ackSeq := if paired then some seq else none } := by
    refine (groupOf_modGroup (by intro _; rfl) g.id g.id y).trans ?_
    rw [if_pos rfl, hq]
    rfl
  rw [if_neg (by rw [hpaired]; exact Bool.false_ne_true)]
  obtain ⟨h, hh, hopen', hcommitting, hlast⟩ := releaseDecision_group hz rfl hqopen
  rw [if_pos hcommit] at hlast
  exact ⟨h, hh, hopen', hcommitting, hlast⟩

theorem childRanks_one (r : Nat) : childRanks 1 r = [] := rfl

theorem completes_ownerCommitReport_alone {group : BitVec 16} {s : State} {g : Group} {n : Word} (hg : groupOf group.toNat s = some g)
    (hopen : g.open' = some n) (hmembers : memberLost g s = false) (hdue : reportDue g s = true) (htaken : ∀ x ∈ s.mate.takenOver, x.1 ≠ g.id)
    (hreports : g.reports = []) (hrank : g.rank = 0) (hone : groupN g = 1) (hundecided : g.decided = false) (hmate : s.mate.formed = false)
    (hfault : g.faulted = false) (hpass : g.faultedPass = false) (hstaged : stagedLost g.id s = false)
    (hclean : ∀ h : Group, groupOf g.id (lastWork g.id n (setShare s.card.moveMax s)) = some h →
      h.faulted = false ∧ h.overflow = false ∧ h.gradSat = false) :
    Completes (.ownerCommitReport group) s fun t => ∃ h : Group, groupOf g.id t = some h ∧ h.open' = none ∧ h.committing = none ∧ h.lastStep = n := by
  have hexec := ownerCommitReport_eq hg hopen hmembers hdue
  obtain ⟨h, leaf, hreported⟩ := reported (n := n) hg htaken hreports
  have hgid : groupOf g.id s = some g := by rw [id_of_groupOf hg, hg]
  have hlost : stagedLost g.id (workDone g n s) = false := by
    have hheads : HeadsStay s (workDone g n s) := by
      have hshare : HeadsStay s (setShare s.card.moveMax s) := congrArg (fun m : NmuSt => m.bindings.map headKey) (setShare_cases s.card.moveMax s).2
      exact hshare.trans (headsStay_lastWork g.id n _)
    rw [stagedLost_congr hheads (upkeep_workDone g n s)]
    exact hstaged
  obtain ⟨q, hq, -⟩ := (stepKeeps_workDone g n s).exists_group hgid
  obtain ⟨hqfault, hqover, hqsat⟩ := hclean q hq
  generalize hv : modGroup g.id (reportedGroup g (workDone g n s)) (workDone g n s) = v at hexec hreported
  obtain ⟨hgroup, hkey, hleaves, hleafEq, hheld, hupkeep⟩ := hreported
  have hid : h.id = g.id := (congrArg Group.id hkey :)
  have hhrank : h.rank = g.rank := (congrArg Group.rank hkey :)
  have hhopen : h.open' = some n := (congrArg Group.open' hkey :).trans hopen
  have hsize : groupN h = 1 := (congrArg groupN hkey :).trans hone
  have hhdecided : h.decided = false := (congrArg Group.decided hkey :).trans hundecided
  have hlow : leaf.low = h.rank + 65536 := by rw [hleafEq, hhrank]; rfl
  have hstep := pushReports_leaf (fuel := 63) hgroup hhopen hheld hleaves hlow (by rw [hsize]; exact childRanks_one _)
  have hzero : (h.rank == 0) = true := beq_iff_eq.2 (hhrank.trans hrank)
  simp only [hzero, hhdecided, if_true, Bool.false_eq_true, if_false] at hstep
  have hok : leaf.ok = true := by
    rw [hleafEq, leafReport, hfault, hpass, hlost, hq]
    show (true && !q.faulted) = true
    rw [hqfault]
    rfl
  have hover : leaf.overflow = false := by rw [hleafEq, leafReport, hq]; exact hqover
  have hsat : leaf.sat = false := by rw [hleafEq, leafReport, hq]; exact hqsat
  have hformed : v.mate.formed = false := (congrArg MateSt.formed hupkeep.mateKey :).trans hmate
  have hwg : groupOf h.id (modGroup g.id (passedOn { leaf with low := h.rank } h.rank) v) = some (passedOn { leaf with low := h.rank } h.rank h) := by
    rw [hid, groupOf_modGroup (by intro _; rfl), if_pos rfl, hgroup]
    rfl
  obtain ⟨k, hk, hkopen, hkcommitting, hklast⟩ := decideStep_commits (x := { leaf with low := h.rank }) hwg hhopen hover hsat hok hformed
  rw [hid] at hk
  rw [hstep] at hexec
  refine ⟨_, hexec, k, ?_, hkopen, hkcommitting, hklast⟩
  rw [groupOf, (mirrorSent_sendMirror _).groups]
  exact hk

/-! ## COMMIT_REPORT and COMMIT_DECISION (R376, R377) -/

/-- A group that holds a child's report. -/
def childReported (low : Nat) (x : Report) (g : Group) : Group := { g with reports := g.reports.filter (fun y => y.low ≠ low) ++ [x] }

theorem completes_commitReportReceive {l : Fin 36} {it : Item} {s u : State} {g : Group} (h : Policed l it 0x10 s u)
    (hg : groupOf (fieldNat it.w1 0 16) u = some g) (hparent : rankHolder g (parentRank (groupN g) (fieldNat it.w1 16 14)) = s.mod.identity)
    (hopen : g.open' = some it.w2) (hundecided : g.decided = false) (hleaf : ∀ r ∈ heldRanks g u, ∀ x ∈ g.reports, x.low ≠ r + 65536) :
    Completes (.commitReportReceive l it) s fun t => t.memory = s.memory ∧ groupOf g.id t = some { g with
      reports := g.reports.filter (fun y => y.low ≠ fieldNat it.w1 16 14) ++ [
        { low := fieldNat it.w1 16 14, ok := bitOf it.w3 0, overflow := bitOf it.w3 1, sat := bitOf it.w3 2, fault := bitOf it.w3 3
          members := fieldNat it.w3 16 16, crc := it.w4 }] } := by
  have hid := id_of_groupOf hg
  have hmod : u.mod = s.mod := (congrArg State.mod h.onlyLinks :)
  have hmine : (rankHolder g (parentRank (groupN g) (fieldNat it.w1 16 14)) != u.mod.identity) = false := by
    rw [hmod]
    exact bne_eq_false_iff_eq.2 hparent
  have hok : (g.open' != some it.w2 || g.decided) = false := by
    rw [hopen, hundecided, bne_self_eq_false]
    rfl
  have hlow : fieldNat it.w1 16 14 < 16384 := Nat.mod_lt _ (by decide)
  generalize hx : ({ low := fieldNat it.w1 16 14, ok := bitOf it.w3 0, overflow := bitOf it.w3 1, sat := bitOf it.w3 2, fault := bitOf it.w3 3
                     members := fieldNat it.w3 16 16, crc := it.w4 } : Report) = x
  have hxlow : x.low = fieldNat it.w1 16 14 := by rw [← hx]
  have hexec : execCommitReportReceive l it s = .next (sendMirror (pushReports g.id 64 (modGroup g.id (childReported (fieldNat it.w1 16 14) x) u))) := by
    refine congrArg (fun t => Host.Outcome.next (sendMirror t)) ((withItem_policed h _).trans ?_)
    dsimp only
    rw [hg]
    dsimp only
    rw [if_neg (by rw [hmine]; exact Bool.false_ne_true), if_neg (by rw [hok]; exact Bool.false_ne_true), hx, hid]
    refine congrArg (fun f => pushReports (fieldNat it.w1 0 16) 64 (modGroup (fieldNat it.w1 0 16) f u)) (funext fun k => ?_)
    simp only [childReported, ne_eq, decide_not]
    rfl
  have hwg : groupOf g.id (modGroup g.id (childReported (fieldNat it.w1 16 14) x) u) = some (childReported (fieldNat it.w1 16 14) x g) := by
    rw [groupOf_modGroup (by intro _; rfl), if_pos rfl, hid, hg]
    rfl
  have hidle := pushReports_idle hwg (fun r hr => .inr (by
    have hnone : (childReported (fieldNat it.w1 16 14) x g).reports.find? (fun y => y.low == r + 65536) = none := by
      rw [List.find?_eq_none]
      intro y hy hyr
      rw [beq_iff_eq] at hyr
      rcases List.mem_append.1 hy with hy | hy
      · exact hleaf r hr y (List.mem_filter.1 hy).1 hyr
      · rw [List.mem_singleton.1 hy, hxlow] at hyr
        omega
    unfold nodeReport
    rw [hnone])) 64
  rw [hidle] at hexec
  have hsent := mirrorSent_sendMirror (modGroup g.id (childReported (fieldNat it.w1 16 14) x) u)
  refine ⟨_, hexec, hsent.memory.trans h.memory, ?_⟩
  rw [groupOf, hsent.groups]
  exact hwg

theorem actDecision_group {g : Group} {s : State} (n : Word) (d : Decision) (t : Word) (hg : groupOf g.id s = some g) :
    (∃ h : Group, groupOf g.id (actDecision g n d t s) = some h ∧ h.open' = none ∧ h.committing = none ∧
      h.lastStep = if d.commit then n else g.lastStep) ∧ ∀ x : Nat, g.committing = some x → descOf x (actDecision g n d t s) = none := by
  unfold actDecision
  extract_lets v w y
  have hv : StepKeeps s v := by
    show StepKeeps s (if _ then _ else _)
    split
    · exact .refl s
    · exact stepKeeps_undoOpen g n s
  have hy : StepKeeps s y := (hv.trans (stepKeeps_writeRecord g n d t false v)).trans (stepKeeps_published g.id n d w)
  obtain ⟨k, hk, hkey⟩ := (hy.trans (stepKeeps_passDown g n d t y)).exists_group hg
  have hklast : k.lastStep = g.lastStep := (congrArg Group.lastStep hkey :)
  obtain ⟨h, hh, hopen, hcommitting, hlast⟩ := closeStep_group n d t hk
  rw [hklast] at hlast
  exact ⟨⟨h, hh, hopen, hcommitting, hlast⟩, (closeStep_cases g n d t _).2⟩

theorem completes_commitDecisionReceive {l : Fin 36} {it : Item} {s u : State} {g : Group} (h : Policed l it 0x11 s u)
    (hg : groupOf (fieldNat it.w1 0 16) u = some g) (hopen : g.open' = some it.w2) (hundecided : g.decided = false)
    (hcommitting : g.committing.isSome = true) :
    Completes (.commitDecisionReceive l it) s fun t => ∃ h : Group, groupOf g.id t = some h ∧ h.open' = none ∧ h.committing = none ∧
      h.lastStep = (if bitOf it.w3 0 then it.w2 else g.lastStep) ∧ ∀ x : Nat, g.committing = some x → descOf x t = none := by
  have hok : (g.open' != some it.w2 || g.decided || g.committing.isNone) = false := by
    rw [hopen, hundecided, bne_self_eq_false, ← Option.not_isSome, hcommitting]
    rfl
  have hexec : ∃ d : Decision, execCommitDecisionReceive l it s = .next (sendMirror (actDecision g it.w2 d it.w5 (sendBeyond l g it u))) ∧
      d.commit = bitOf it.w3 0 := by
    unfold execCommitDecisionReceive
    rw [withItem_policed h]
    dsimp only
    rw [hg]
    dsimp only
    rw [if_neg (by rw [hok]; exact Bool.false_ne_true)]
    exact ⟨_, rfl, rfl⟩
  obtain ⟨d, hexec, hcommit⟩ := hexec
  have hgid : groupOf g.id (sendBeyond l g it u) = some g := by
    have hgroups : (sendBeyond l g it u).groups = u.groups := (congrArg State.groups (onlyControl_sendBeyond l g it u).1 :)
    rw [groupOf, hgroups, id_of_groupOf hg]
    exact hg
  obtain ⟨⟨k, hk, hkopen, hkcommitting, hklast⟩, hdesc⟩ := actDecision_group it.w2 d it.w5 hgid
  have hsent := mirrorSent_sendMirror (actDecision g it.w2 d it.w5 (sendBeyond l g it u))
  rw [hcommit] at hklast
  refine ⟨_, hexec, k, ?_, hkopen, hkcommitting, hklast, fun x hx => ?_⟩
  · rw [groupOf, hsent.groups]
    exact hk
  · have hdescs : (sendMirror (actDecision g it.w2 d it.w5 (sendBeyond l g it u))).descs = (actDecision g it.w2 d it.w5 (sendBeyond l g it u)).descs :=
      (congrArg State.descs hsent.rest :)
    exact (descOf_congr hdescs x).trans (hdesc x hx)

/-- Settles O45: the machinery of a step keeps the groups' steps, so each instruction ends in the group it was aimed at. -/
theorem stepsFromOpenToDecision : Obligations.StepsFromOpenToDecision := by
  refine ⟨?_, fun _ _ _ _ _ h hg hopen hfree => completes_stepCommit h hg hopen hfree, fun group s g n hg hopen hmembers hdue htaken hreports => ⟨?_, ?_⟩,
    fun _ _ _ _ _ h hg hparent hopen hundecided hleaf => completes_commitReportReceive h hg hparent hopen hundecided hleaf,
    fun _ _ _ _ _ h hg hopen hundecided hcommitting => completes_commitDecisionReceive h hg hopen hundecided hcommitting⟩
  · intro d s r u i g c hi hg hkept hclosed hnext hpage hctl hfree hhyper
    obtain ⟨t, hexec, v, hv, h, hh, hopened, hothers⟩ := completes_stepOpen hi hg hkept hclosed hnext hpage hctl hfree hhyper
    exact ⟨t, hexec, v, hv, h, hh, hopened.open', hopened.openSlot, hopened.ctl, hopened.e, hopened.scaleUsed, hopened.scaleKnown, hopened.overflow,
      hopened.faulted, hopened.committing, hopened.reported, hopened.lastStep, hopened.openedAt, hothers⟩
  · exact fun l hrank hleaf hup hlink hparent =>
      completes_ownerCommitReport_leaf hg hopen hmembers hdue htaken hreports hrank hleaf hup hlink hparent
  · exact fun hrank hone hundecided hmate hfault hpass hstaged hclean =>
      completes_ownerCommitReport_alone hg hopen hmembers hdue htaken hreports hrank hone hundecided hmate hfault hpass hstaged hclean

end Sys2Proof.Machine
end

section
/-!
Regions and pen pals (Machine/Merge.lean, Machine/Rounds.lean; R334 to R346, R350, R351, R356 to R361): what opening, merging and final rounds leave.
-/

namespace Sys2Proof.Machine

/-! ## Regions by their number -/

theorem regionOf_congr {s t : State} (h : t.regions = s.regions) (i : Nat) : regionOf i t = regionOf i s := by rw [regionOf, regionOf, h]

theorem palOf_congr {s t : State} (h : t.pals = s.pals) (i : Nat) : palOf i t = palOf i s := by rw [palOf, palOf, h]

theorem num_of_regionOf {i : Nat} {s : State} {x : Region} (h : regionOf i s = some x) : x.num = i :=
  beq_iff_eq.1 (List.find?_some (p := fun x : Region => x.num == i) h)

theorem id_of_palOf {i : Nat} {s : State} {p : Pal} (h : palOf i s = some p) : p.id = i :=
  beq_iff_eq.1 (List.find?_some (p := fun p : Pal => p.id == i) h)

theorem regionOf_modRegion {f : Region → Region} (hf : ∀ x, (f x).num = x.num) (i j : Nat) (s : State) :
    regionOf i (modRegion j f s) = if i = j then (regionOf i s).map f else regionOf i s :=
  find?_mapIf (f := f) (fun x : Region => x.num) hf i j s.regions

theorem palOf_modPal {f : Pal → Pal} (hf : ∀ p, (f p).id = p.id) (i j : Nat) (s : State) :
    palOf i (modPal j f s) = if i = j then (palOf i s).map f else palOf i s :=
  find?_mapIf (f := f) (fun p : Pal => p.id) hf i j s.pals

/-- A region replaced by one of its number. -/
theorem regionOf_replace {i : Nat} {x z : Region} {s : State} (hx : regionOf i s = some x) (hz : z.num = i) :
    regionOf i (modRegion i (fun _ => z) s) = some z := by
  have hsame : modRegion i (fun _ => z) s = modRegion i (fun x => { z with num := x.num }) s := by
    have hlist : mapIf (fun x : Region => x.num == i) (fun _ => z) s.regions = mapIf (fun x : Region => x.num == i) (fun x => { z with num := x.num }) s.regions := by
      refine List.map_congr_left fun y _ => ?_
      split
      · next hy =>
        have hyz : y.num = z.num := (beq_iff_eq.1 hy).trans hz.symm
        show z = { z with num := y.num }
        rw [hyz]
      · rfl
    exact congrArg (fun xs => { s with regions := xs }) hlist
  have hxz : x.num = z.num := (num_of_regionOf hx).trans hz.symm
  rw [hsame, regionOf_modRegion (by intro _; rfl), if_pos rfl, hx]
  show some { z with num := x.num } = some z
  rw [hxz]

/-! ## Showing and mirroring -/

theorem besideMemory_showRounds (s : State) : besideMemory (showRounds s) = besideMemory s := by
  have hfold (f : State → Region → List Byte) (xs : List Region) (t : State) :
      besideMemory (xs.foldl (fun s x => vaForce x.slot (roundPageVa + 64) (f s x) s) t) = besideMemory t := by
    induction xs generalizing t with
    | nil => rfl
    | cons x xs ih => exact (ih _).trans (besideMemory_vaForce _ _ _ t)
  exact hfold (fun s x => roundStatus x s) _ s

theorem regions_showRounds (s : State) : (showRounds s).regions = s.regions := (congrArg State.regions (besideMemory_showRounds s) :)
theorem pals_showRounds (s : State) : (showRounds s).pals = s.pals := (congrArg State.pals (besideMemory_showRounds s) :)
theorem descs_showRounds (s : State) : (showRounds s).descs = s.descs := (congrArg State.descs (besideMemory_showRounds s) :)

theorem MirrorSent.regions {s t : State} (h : MirrorSent s t) : t.regions = s.regions := (congrArg State.regions h.rest :)
theorem MirrorSent.pals {s t : State} (h : MirrorSent s t) : t.pals = s.pals := (congrArg State.pals h.rest :)
theorem MirrorSent.descs {s t : State} (h : MirrorSent s t) : t.descs = s.descs := (congrArg State.descs h.rest :)

/-- The status blocks written and the records mirrored leave regions, pen pals and descriptors. -/
theorem shown (s : State) : (sendMirror (showRounds s)).regions = s.regions ∧ (sendMirror (showRounds s)).pals = s.pals ∧
    (sendMirror (showRounds s)).descs = s.descs := by
  have h := mirrorSent_sendMirror (showRounds s)
  exact ⟨h.regions.trans (regions_showRounds s), h.pals.trans (pals_showRounds s), h.descs.trans (descs_showRounds s)⟩

/-! ## What changing a region keeps (R344 to R346) -/

/-- From `s` to `t` the pen pals are the same, and the region of a number stands at its rounds with no site added to those it holds unreachable. -/
structure RegionHolds (num : Nat) (s t : State) : Prop where
  pals : t.pals = s.pals
  region : ∀ x : Region, regionOf num s = some x → ∃ y : Region, regionOf num t = some y ∧ y.roundMerged = x.roundMerged ∧
    y.roundSent = x.roundSent ∧ ∀ u ∈ y.unreachFor, u ∈ x.unreachFor

theorem RegionHolds.of_same {num : Nat} {s t : State} (hregions : t.regions = s.regions) (hpals : t.pals = s.pals) : RegionHolds num s t :=
  ⟨hpals, fun x hx => ⟨x, (regionOf_congr hregions num).trans hx, rfl, rfl, fun _ h => h⟩⟩

theorem RegionHolds.refl (num : Nat) (s : State) : RegionHolds num s s := .of_same rfl rfl

theorem RegionHolds.trans {num : Nat} {s t u : State} (h : RegionHolds num s t) (k : RegionHolds num t u) : RegionHolds num s u := by
  refine ⟨k.pals.trans h.pals, fun x hx => ?_⟩
  obtain ⟨y, hy, hym, hys, hyu⟩ := h.region x hx
  obtain ⟨z, hz, hzm, hzs, hzu⟩ := k.region y hy
  exact ⟨z, hz, hzm.trans hym, hzs.trans hys, fun u hu => hyu u (hzu u hu)⟩

theorem RegionHolds.foldl {num : Nat} {α : Type} {f : State → α → State} (h : ∀ s x, RegionHolds num s (f s x)) (xs : List α) (s : State) :
    RegionHolds num s (xs.foldl f s) := by
  induction xs generalizing s with
  | nil => exact .refl num s
  | cons x xs ih => exact (h s x).trans (ih _)

theorem regionHolds_of_besideMemory {num : Nat} {s t : State} (h : besideMemory t = besideMemory s) : RegionHolds num s t :=
  .of_same (congrArg State.regions h :) (congrArg State.pals h :)

theorem regionHolds_of_besideRecords {num : Nat} {s t : State} (h : besideRecords t = besideRecords s) : RegionHolds num s t :=
  .of_same (congrArg State.regions h :) (congrArg State.pals h :)

theorem regionHolds_modMemory (num : Nat) (f : MemSt → MemSt) (s : State) : RegionHolds num s (modMemory f s) := .of_same rfl rfl

theorem regionHolds_modRegion {num : Nat} {f : Region → Region} (hf : ∀ x, (f x).num = x.num ∧ (f x).roundMerged = x.roundMerged ∧
    (f x).roundSent = x.roundSent ∧ ∀ u ∈ (f x).unreachFor, u ∈ x.unreachFor) (s : State) : RegionHolds num s (modRegion num f s) := by
  refine ⟨rfl, fun x hx => ⟨f x, ?_, (hf x).2⟩⟩
  rw [regionOf_modRegion (fun x => (hf x).1), if_pos rfl, hx]
  rfl

theorem regionHolds_publishStripe (num : Nat) (b : Binding) (i : Nat) (n : Word) (s : State) : RegionHolds num s (publishStripe b i n s) := by
  unfold publishStripe
  split
  · exact .refl num s
  · extract_lets bs va
    exact (regionHolds_modMemory num _ s).trans (regionHolds_of_besideMemory (besideMemory_vaForce _ _ _ _))

theorem regions_putStripe (b : Binding) (i : Nat) (x : Stripe) (s : State) : (putStripe b i x s).regions = s.regions :=
  (congrArg State.regions (besideRecords_putStripe b i x s) :)

theorem regionHolds_changeUnit (num : Nat) (f : Nat → W40 → RoundParam → W40 × RoundParam) (stream i : Nat) (s : State) :
    RegionHolds num s (changeUnit num f stream i s) := by
  unfold changeUnit
  split
  · exact .refl num s
  · next y hy =>
    split
    · exact .refl num s
    · next b _ =>
      extract_lets st old place res w ps z t new n t'
      have ht : RegionHolds num s t := by
        have hput : RegionHolds num s (putStripe b i { st with w := w } s) := regionHolds_of_besideRecords (besideRecords_putStripe _ _ _ s)
        have hyput : regionOf num (putStripe b i { st with w := w } s) = some y :=
          (regionOf_congr (regions_putStripe b i _ s) num).trans hy
        have hz : z.num = num := by
          have hynum := num_of_regionOf hy
          exact hynum
        have hreplaced : regionOf num t = some z := by
          show regionOf num (modRegion num (fun _ => z) _) = some z
          exact regionOf_replace hyput hz
        refine ⟨hput.pals, fun x hx => ⟨z, hreplaced, ?_⟩⟩
        obtain rfl := Option.some.inj (hy.symm.trans hx)
        exact ⟨rfl, rfl, fun _ h => h⟩
      have ht' : RegionHolds num t t' := regionHolds_of_besideRecords (besideRecords_appendRec _ t)
      split
      · exact .refl num s
      · split
        · exact ht.trans ht'
        · exact (ht.trans ht').trans (regionHolds_publishStripe num _ _ _ _)

theorem regionHolds_changeRegion (x : Region) (f : Nat → W40 → RoundParam → W40 × RoundParam) (stream : Nat) (s : State) :
    RegionHolds x.num s (changeRegion x f stream s) := .foldl (fun v i => regionHolds_changeUnit x.num f stream i v) _ s

theorem regionHolds_logDecision (num setting : Nat) (applied : Bool) (g subject old new trigger measured : Nat) (s : State) :
    RegionHolds num s (logDecision setting applied g subject old new trigger measured s) := .of_same rfl rfl

theorem regionHolds_raiseEvent (num code : Nat) (args : List Nat) (s : State) : RegionHolds num s (raiseEvent code args s) := .of_same rfl rfl

theorem regionHolds_judgeSteps (k : Nat) (x : Region) (s : State) : RegionHolds x.num s (judgeSteps k x s) := by
  unfold judgeSteps
  extract_lets ds total e old new allow v
  have hv : RegionHolds x.num s v := regionHolds_logDecision _ _ _ _ _ _ _ _ _ s
  split
  · exact .refl _ s
  · split
    · exact hv.trans (regionHolds_modRegion (by intro _; exact ⟨rfl, rfl, rfl, fun _ h => h⟩) v)
    · exact hv

theorem trimSpill_rest (fuel : Nat) (x : Region) : { trimSpill x fuel with ledger := x.ledger } = x := by
  induction fuel generalizing x with
  | zero => rfl
  | succ fuel ih =>
    unfold trimSpill
    split
    · rfl
    · split
      · rfl
      · next k _ _ =>
        have hback := congrArg (fun y : Region => { y with ledger := x.ledger }) (ih { x with ledger := x.ledger.filter fun d => d.round != k })
        exact hback

/-- A region whose ledger keeps its rounds. -/
def ledgerKept (x : Region) : Region := { x with ledger := x.ledger.filter fun d => decide (x.roundFinal < d.round + x.driftRounds) }

theorem regions_vaStore (slot va : Nat) (bs : List Byte) (s : State) :
    (vaStore slot va bs s).regions = s.regions ∧ (vaStore slot va bs s).pals = s.pals := by
  have h := besideMemory_vaStore slot va bs s
  generalize vaStore slot va bs s = t at h ⊢
  exact ⟨(congrArg State.regions h :), (congrArg State.pals h :)⟩

theorem trimLedger_region {num : Nat} {s : State} {x : Region} (hx : regionOf num s = some x) :
    (trimLedger num s).pals = s.pals ∧ regionOf num (trimLedger num s) = some (trimSpill (ledgerKept x) (ledgerKept x).ledger.length) := by
  have hxnum := num_of_regionOf hx
  have hnum : (trimSpill (ledgerKept x) (ledgerKept x).ledger.length).num = num :=
    (congrArg Region.num (trimSpill_rest (ledgerKept x).ledger.length (ledgerKept x)) :).trans hxnum
  obtain ⟨w, htrim, hwr, hwp⟩ : ∃ w, trimLedger num s = vaStore (trimSpill (ledgerKept x) (ledgerKept x).ledger.length).slot
      (trimSpill (ledgerKept x) (ledgerKept x).ledger.length).ledgerVa (spillBytes (trimSpill (ledgerKept x) (ledgerKept x).ledger.length)) w ∧
      w.regions = (modRegion num (fun _ => trimSpill (ledgerKept x) (ledgerKept x).ledger.length) s).regions ∧ w.pals = s.pals := by
    unfold trimLedger
    rw [hx]
    refine ⟨_, rfl, ?_, ?_⟩
    · split <;> rfl
    · split <;> rfl
  rw [htrim]
  generalize trimSpill (ledgerKept x) (ledgerKept x).ledger.length = y at hnum hwr ⊢
  obtain ⟨hregions, hpals⟩ := regions_vaStore y.slot y.ledgerVa (spillBytes y) w
  have hreplaced := regionOf_replace (z := y) hx hnum
  have hall : (vaStore y.slot y.ledgerVa (spillBytes y) w).regions = (modRegion num (fun _ => y) s).regions := hregions.trans hwr
  generalize vaStore y.slot y.ledgerVa (spillBytes y) w = t at hpals hall ⊢
  exact ⟨hpals.trans hwp, (regionOf_congr hall num).trans hreplaced⟩

theorem regionHolds_trimLedger (num : Nat) (s : State) : RegionHolds num s (trimLedger num s) := by
  cases hx : regionOf num s with
  | none =>
    unfold trimLedger
    rw [hx]
    exact .refl num s
  | some x =>
    obtain ⟨hpals, hregion⟩ := trimLedger_region hx
    refine ⟨hpals, fun z hz => ⟨_, hregion, ?_⟩⟩
    obtain rfl := Option.some.inj (hx.symm.trans hz)
    have hrest := trimSpill_rest (ledgerKept x).ledger.length (ledgerKept x)
    have hunreach : (trimSpill (ledgerKept x) (ledgerKept x).ledger.length).unreachFor = x.unreachFor := (congrArg Region.unreachFor hrest :)
    exact ⟨(congrArg Region.roundMerged hrest :), (congrArg Region.roundSent hrest :), fun u hu => by rw [← hunreach]; exact hu⟩

theorem regionHolds_advanceFinal (num : Nat) (s : State) : RegionHolds num s (advanceFinal num s) := by
  unfold advanceFinal
  split
  · exact .refl num s
  · next x hx =>
    obtain rfl := num_of_regionOf hx
    extract_lets k ks bad v w sets y z
    have hv : RegionHolds x.num s v := regionHolds_changeRegion x _ _ s
    have hw : RegionHolds x.num v w := by
      show RegionHolds x.num v (match bad with | some m => _ | none => v)
      cases bad with
      | some m => exact regionHolds_raiseEvent _ _ _ v
      | none => exact .refl _ v
    have hy : RegionHolds x.num w y := regionHolds_modRegion (by intro q; exact ⟨rfl, rfl, rfl, fun u hu => (List.mem_filter.1 hu).1⟩) w
    have hz : RegionHolds x.num y z := .foldl (fun u m => regionHolds_judgeSteps m x u) _ y
    split
    · exact .refl _ s
    · exact (((hv.trans hw).trans hy).trans hz).trans (regionHolds_trimLedger _ z)

/-! ## Opening a region (R337) -/

/-- Every region of a number holds what a site has said. -/
def SaidBy (num j : Nat) (v : Nat × Nat × W32 × Nat) (s : State) : Prop := ∀ z ∈ s.regions, z.num = num → tget? z.said j = some v

/-- From `s` to `t` the pen pals are the same, and what sites have said stands. -/
structure SaidStays (s t : State) : Prop where
  pals : t.pals = s.pals
  said : ∀ num j v, SaidBy num j v s → SaidBy num j v t

theorem SaidStays.refl (s : State) : SaidStays s s := ⟨rfl, fun _ _ _ h => h⟩

theorem SaidStays.trans {s t u : State} (h : SaidStays s t) (k : SaidStays t u) : SaidStays s u :=
  ⟨k.pals.trans h.pals, fun num j v hs => k.said num j v (h.said num j v hs)⟩

theorem SaidStays.foldl {α : Type} {f : State → α → State} (h : ∀ s x, SaidStays s (f s x)) (xs : List α) (s : State) : SaidStays s (xs.foldl f s) := by
  induction xs generalizing s with
  | nil => exact .refl s
  | cons x xs ih => exact (h s x).trans (ih _)

theorem SaidStays.of_subset {s t : State} (hpals : t.pals = s.pals) (hregions : ∀ z ∈ t.regions, z ∈ s.regions) : SaidStays s t :=
  ⟨hpals, fun _ _ _ hs z hz hnum => hs z (hregions z hz) hnum⟩

theorem SaidStays.of_same {s t : State} (hpals : t.pals = s.pals) (hregions : t.regions = s.regions) : SaidStays s t :=
  .of_subset hpals (by rw [hregions]; exact fun _ h => h)

theorem saidStays_modRegion (i : Nat) {f : Region → Region} (hf : ∀ x, (f x).num = x.num ∧ (f x).said = x.said) (s : State) :
    SaidStays s (modRegion i f s) := by
  refine ⟨rfl, fun num j v hs z hz hnum => ?_⟩
  obtain ⟨y, hy, hyz⟩ := List.mem_map.1 hz
  have hboth : z.num = y.num ∧ z.said = y.said := by
    rw [← hyz]
    show (if y.num == i then f y else y).num = _ ∧ (if y.num == i then f y else y).said = _
    split
    · exact hf y
    · exact ⟨rfl, rfl⟩
  rw [hboth.2]
  exact hs y hy (hboth.1.symm.trans hnum)

theorem regions_postCompl (slot : Nat) (c : Compl) (s : State) : (postCompl slot c s).regions = s.regions := by
  have hport (p : Port) (f : PortSt → PortSt) : (modPort p f s).regions = s.regions := by cases p <;> rfl
  unfold postCompl
  split
  · exact hport _ _
  · split
    · exact hport _ _
    · exact modChan_regions _ _ _

theorem regions_freeSlot_subset (slot : Nat) (s : State) : ∀ z ∈ (freeSlot slot s).regions, z ∈ s.regions := by
  unfold freeSlot
  split
  · exact fun _ h => h
  · exact fun z hz => (List.mem_filter.1 hz).1

theorem regions_settleDestroy_subset (slot : Nat) (s : State) : ∀ z ∈ (settleDestroy slot s).regions, z ∈ s.regions := by
  unfold settleDestroy
  split
  · exact fun _ h => h
  · split
    · exact fun _ h => h
    · next r _ =>
      split
      · extract_lets t
        have ht : ∀ z ∈ t.regions, z ∈ s.regions := regions_freeSlot_subset slot s
        split
        · exact ht
        · rw [regions_postCompl]
          exact ht
      · exact fun _ h => h

theorem regions_finish_subset (r : DescRec) (status : BitVec 8) (detail : BitVec 16) (result0 : Word) (s : State) :
    ∀ z ∈ (finish r status detail result0 s).regions, z ∈ s.regions := by
  unfold finish
  extract_lets t
  intro z hz
  have hmem := regions_settleDestroy_subset _ _ z hz
  split at hmem
  · exact hmem
  · rw [regions_postCompl] at hmem
    exact hmem

theorem saidStays_finish (r : DescRec) (status : BitVec 8) (detail : BitVec 16) (result0 : Word) (s : State) :
    SaidStays s (finish r status detail result0 s) :=
  .of_subset (congrArg State.pals (besideFinish_finish r status detail result0 s) :) (regions_finish_subset r status detail result0 s)

theorem saidStays_sendItem (l : Nat) (it : Item) (s : State) : SaidStays s (sendItem l it s) := .of_same rfl rfl

theorem saidStays_sendPal (p : Pal) (it : Item) (s : State) : SaidStays s (sendPal p it s) := by
  unfold sendPal
  split
  · exact saidStays_sendItem _ it s
  · exact .refl s

theorem saidStays_tellState (num j : Nat) (s : State) : SaidStays s (tellState num j s) := by
  unfold tellState
  split
  · exact .refl s
  · split
    · exact .refl s
    · extract_lets ws
      exact (saidStays_sendPal _ _ s).trans (saidStays_modRegion num (by intro _; exact ⟨rfl, rfl⟩) _)

theorem saidStays_sendPull (x : Region) (j a b : Nat) (s : State) : SaidStays s (sendPull x j a b s) := by
  unfold sendPull
  split
  · exact saidStays_sendPal _ _ s
  · exact .refl s

theorem saidStays_dropRegions (which : Region → Bool) (s : State) : SaidStays s (dropRegions which s) :=
  .of_subset rfl fun _ hz => (List.mem_filter.1 hz).1

theorem saidStays_endOpen (x : Region) (detail : BitVec 16) (s : State) : SaidStays s (endOpen x detail s) := by
  unfold endOpen
  split
  · exact .refl s
  · split
    · exact (saidStays_modRegion x.num (by intro _; exact ⟨rfl, rfl⟩) s).trans (saidStays_finish _ _ _ _ _)
    · exact (saidStays_dropRegions _ s).trans (saidStays_finish _ _ _ _ _)

theorem saidStays_tryOpen (num : Nat) (s : State) : SaidStays s (tryOpen num s) := by
  unfold tryOpen
  split
  · exact .refl s
  · next x _ =>
    split
    · exact .refl s
    · extract_lets js said
      split
      · exact .refl s
      · split
        · exact (saidStays_modRegion num (by intro _; exact ⟨rfl, rfl⟩) s).trans (saidStays_sendPull _ _ _ _ _)
        · split
          · exact saidStays_endOpen x _ s
          · exact saidStays_endOpen x _ s

theorem saidStays_onState (x : Region) (j : Nat) (fresh : Bool) (y : Nat × Nat × W32 × Nat) (s : State) : SaidStays s (onState x j fresh y s) := by
  unfold onState
  split
  · exact saidStays_tryOpen _ s
  · split
    · exact .refl s
    · split
      · split
        · exact (saidStays_modRegion _ (by intro _; exact ⟨rfl, rfl⟩) s).trans (saidStays_sendPull _ _ _ _ _)
        · split
          · exact saidStays_tellState _ _ s
          · exact .refl s
      · split
        · extract_lets v
          have hv : SaidStays s v := saidStays_tellState _ _ s
          split
          · exact hv.trans (saidStays_sendPull _ _ _ _ v)
          · exact hv
        · exact .refl s

end Sys2Proof.Machine
end

section
/-!
Pen pals heard, told and answered, differences taken and rounds merged (Machine/Rounds.lean; R330, R343 to R345, R350, R356, R359).
-/

namespace Sys2Proof.Machine

/-! ## ROUND_STATE (R350, R356) -/

theorem tellState_eq {num j : Nat} {s : State} {x : Region} {p : Pal} {l : Nat} (hx : regionOf num s = some x) (hp : sitePal x j s = some p)
    (hl : palLink p s = some l) : tellState num j s = modRegion num (fun y => { y with stateSent := tset y.stateSent j (mono s, stateWords x) })
      (sendItem l (mkItem 0x22 0 ((stateWords x).getD 0 0) ((stateWords x).getD 1 0) ((stateWords x).getD 2 0) ((stateWords x).getD 3 0) p.partner) s) := by
  unfold tellState
  simp only [hx, hp, sendPal, hl]

theorem linkOf_modRegion (l i : Nat) (f : Region → Region) (s : State) : linkOf l (modRegion i f s) = linkOf l s := rfl

theorem completes_roundStateSend {pal : BitVec 16} {num j l : Nat} {s : State} {x : Region} {p : Pal} (hx : regionOf num s = some x)
    (hj : (otherSites x).find? (fun j => x.pals.getD j 0 == pal.toNat) = some j) (hp : sitePal x j s = some p) (hl : palLink p s = some l)
    (hdue : ∀ y : Word × List Word, tget? x.stateSent j = some y → 100000000 ≤ nsSince y.1 (mono s) ∨ y.2 ≠ stateWords x) :
    Completes (.roundStateSend pal num) s fun t => t.memory = s.memory ∧
      regionOf num t = some { x with stateSent := tset x.stateSent j (mono s, stateWords x) } ∧ ∃ it : Item,
        (linkOf l t).control = (linkOf l s).control ++ [it] ∧ itemKind it = 0x22 ∧ it.w5 = p.partner ∧
        [it.w1, it.w2, it.w3, it.w4] = stateWords x := by
  have hexec : execRoundStateSend pal num s = .next (tellState num j s) := by
    unfold execRoundStateSend
    simp only [hx, hj]
    split
    · next t ws hsent =>
      refine congrArg Host.Outcome.next (if_pos ?_)
      rw [Bool.or_eq_true, decide_eq_true_eq, bne_iff_ne]
      exact hdue (t, ws) hsent
    · rfl
  rw [tellState_eq hx hp hl] at hexec
  refine ⟨_, hexec, rfl, ?_, mkItem 0x22 0 ((stateWords x).getD 0 0) ((stateWords x).getD 1 0) ((stateWords x).getD 2 0) ((stateWords x).getD 3 0) p.partner,
    ?_, itemKind_mkItem _ _ _ _ _ (by decide) (by decide), rfl, rfl⟩
  · rw [regionOf_modRegion (by intro _; rfl), if_pos rfl]
    exact congrArg (Option.map _) hx
  · rw [linkOf_modRegion, sendItem, linkOf_modLink]

theorem saidBy_modRegion (num j : Nat) (v : Nat × Nat × W32 × Nat) (s : State) :
    SaidBy num j v (modRegion num (fun z => { z with said := tset z.said j v }) s) := by
  intro z hz hnum
  obtain ⟨y, -, hyz⟩ := List.mem_map.1 hz
  have hynum : y.num = num := by
    rw [← hnum, ← hyz]
    show y.num = (if y.num == num then { y with said := tset y.said j v } else y).num
    split <;> rfl
  rw [← hyz]
  show tget? (if y.num == num then { y with said := tset y.said j v } else y).said j = some v
  rw [if_pos (beq_iff_eq.2 hynum)]
  exact tget?_tset_same _ _ _

theorem saidStays_shown (s : State) : SaidStays s (sendMirror (showRounds s)) := .of_same (shown s).2.1 (shown s).1

theorem completes_roundStateReceive {l : Fin 36} {it : Item} {sender : Word} {num : Nat} {s u : State} {x : Region} {p : Pal} (h : Policed l it 0x22 s u)
    (hself : it.w5 = s.mod.identity) (hx : regionOf num u = some x) (hp : sitePal x (fieldNat it.w1 0 3) u = some p)
    (hother : fieldNat it.w1 0 3 ≠ x.site) (hsender : palSender p sender u = true) : Completes (.roundStateReceive l it sender num) s fun t =>
      (∃ q : Pal, palOf p.id t = some q ∧ q.lastState = some (mono s) ∧ q.reachable = true) ∧
      ∀ y : Region, regionOf num t = some y →
        tget? y.said (fieldNat it.w1 0 3) = some (it.w2.toNat, it.w3.toNat, BitVec.ofNat 32 (fieldNat it.w4 32 32), fieldNat it.w1 3 8) := by
  have hmod : u.mod = s.mod := (congrArg State.mod h.onlyLinks :)
  have hmine : (it.w5 != u.mod.identity) = false := by
    rw [hmod]
    exact bne_eq_false_iff_eq.2 hself
  have hok : (fieldNat it.w1 0 3 == x.site || !palSender p sender u) = false := by
    rw [beq_eq_false_iff_ne.2 hother, hsender]
    rfl
  generalize hv : (it.w2.toNat, it.w3.toNat, (BitVec.ofNat 32 (fieldNat it.w4 32 32) : W32), fieldNat it.w1 3 8) = v
  have hpid : palOf p.id u = some p := by
    rw [id_of_palOf (i := x.pals.getD (fieldNat it.w1 0 3) 0) hp]
    exact hp
  have hsaid (j : Nat) : regionOf num (modRegion num (fun z => { z with said := tset z.said j v }) (hearPal p.id u)) =
      some { x with said := tset x.said j v } := by
    rw [regionOf_modRegion (by intro _; rfl), if_pos rfl]
    exact congrArg (Option.map _) hx
  have hexec : ∃ y : Region, execRoundStateReceive l it sender num s = .next (sendMirror (showRounds (onState y (fieldNat it.w1 0 3) (!p.reachable) v
      (modRegion num (fun z => { z with said := tset z.said (fieldNat it.w1 0 3) v }) (hearPal p.id u))))) := by
    refine ⟨{ x with said := tset x.said (fieldNat it.w1 0 3) v }, congrArg (fun t => Host.Outcome.next (sendMirror t)) ((withItem_policed h _).trans ?_)⟩
    simp only [hmine, hx, hp, hok, hv, hsaid, Bool.false_eq_true, if_false]
  generalize fieldNat it.w1 0 3 = j at hexec hsaid ⊢
  obtain ⟨y, hexec⟩ := hexec
  have hstays := (saidStays_onState y j (!p.reachable) v (modRegion num (fun z => { z with said := tset z.said j v }) (hearPal p.id u))).trans
    (saidStays_shown _)
  refine ⟨_, hexec, ⟨{ p with lastState := some (mono u), reachable := true }, ?_, congrArg some h.mono, rfl⟩, fun z hz => ?_⟩
  · rw [palOf_congr hstays.pals]
    show palOf p.id (hearPal p.id u) = _
    rw [hearPal, palOf_modPal (by intro _; rfl), if_pos rfl, hpid]
    rfl
  · exact hstays.said num j v (saidBy_modRegion num j v _) z (List.mem_of_find?_eq_some hz) (num_of_regionOf hz)

/-! ## ROUND_PULL (R359) -/

/-- A pass without its queued and outstanding segments. -/
def unsentKey (p : Pass) : Pass := { p with queued := [], outstanding := [] }

/-- A record sent to a site as segments of a pass. -/
def sendRecordOn (id : Nat) (x : Region) (t : Nat × Nat) (s : State) (r : List Byte × W32) : State :=
  match passOf id s with
  | none => s
  | some p =>
    let segs := recordSegs p x t.1 p.queued.length r.1 r.2
    let nums := segs.map fun o => o.num
    segs.foldl (fun s o => enqueueSeg t.2 o s)
      (modPass id (fun q => { q with queued := q.queued ++ nums, outstanding := q.outstanding ++ nums }) s)

theorem sendRecords_eq (id : Nat) (x : Region) (t : Nat × Nat) (rs : List (List Byte × W32)) (s : State) :
    sendRecords id x t rs s = rs.foldl (sendRecordOn id x t) s := rfl

theorem recordSegs_ne_nil {p : Pass} {x : Region} {j first : Nat} {bs : List Byte} {crc : W32} (h : bs ≠ []) : recordSegs p x j first bs crc ≠ [] := by
  cases bs with
  | nil => exact absurd rfl h
  | cons b bs => exact fun hnil => absurd (congrArg List.length hnil) (Nat.succ_ne_zero _)

/-- From `s` to `t` a pass has gained segments: it stands under its number, and what is outstanding stays so. -/
structure PassSends (id : Nat) (s t : State) : Prop where
  nextPass : t.nextPass = s.nextPass
  memory : t.memory = s.memory
  passes : ∀ q ∈ s.passes, q.id = id → ∃ q' ∈ t.passes, unsentKey q' = unsentKey q ∧ (q.outstanding ≠ [] → q'.outstanding ≠ [])

theorem PassSends.refl (id : Nat) (s : State) : PassSends id s s := ⟨rfl, rfl, fun q hq _ => ⟨q, hq, rfl, fun h => h⟩⟩

theorem PassSends.trans {id : Nat} {s t u : State} (h : PassSends id s t) (k : PassSends id t u) : PassSends id s u := by
  refine ⟨k.nextPass.trans h.nextPass, k.memory.trans h.memory, fun q hq hid => ?_⟩
  obtain ⟨q', hq', hkey, hout⟩ := h.passes q hq hid
  have hid' : q'.id = id := (congrArg Pass.id hkey :).trans hid
  obtain ⟨q'', hq'', hkey', hout'⟩ := k.passes q' hq' hid'
  exact ⟨q'', hq'', hkey'.trans hkey, fun h => hout' (hout h)⟩

/-- What a record's segments are to its pass. -/
theorem sendRecordOn_cases {id : Nat} {x : Region} {t : Nat × Nat} {s : State} {r : List Byte × W32} {q : Pass} (hq : q ∈ s.passes) (hid : q.id = id) :
    ∃ q' ∈ (sendRecordOn id x t s r).passes, unsentKey q' = unsentKey q ∧ (q.outstanding ≠ [] ∨ r.1 ≠ [] → q'.outstanding ≠ []) := by
  have hsome : (passOf id s).isSome = true := List.find?_isSome.2 ⟨q, hq, beq_iff_eq.2 hid⟩
  obtain ⟨p, hp⟩ := Option.isSome_iff_exists.1 hsome
  unfold sendRecordOn
  rw [hp]
  dsimp only
  generalize hnums : (recordSegs p x t.1 p.queued.length r.1 r.2).map (fun o => o.num) = nums
  have hpasses := (congrArg State.passes (mirrorSent_foldl_enqueueSeg t.2 (recordSegs p x t.1 p.queued.length r.1 r.2)
    (modPass id (fun q => { q with queued := q.queued ++ nums, outstanding := q.outstanding ++ nums }) s)).rest :)
  refine ⟨{ q with queued := q.queued ++ nums, outstanding := q.outstanding ++ nums }, ?_, rfl, fun h => ?_⟩
  · rw [hpasses]
    refine List.mem_map.2 ⟨q, hq, if_pos (beq_iff_eq.2 hid)⟩
  · rcases h with h | h
    · exact List.append_ne_nil_of_left_ne_nil h _
    · refine List.append_ne_nil_of_right_ne_nil _ ?_
      rw [← hnums]
      exact fun hnil => recordSegs_ne_nil h (List.map_eq_nil_iff.1 hnil)

theorem passSends_sendRecordOn (id : Nat) (x : Region) (t : Nat × Nat) (s : State) (r : List Byte × W32) : PassSends id s (sendRecordOn id x t s r) := by
  refine ⟨?_, ?_, fun q hq hid => ?_⟩
  · unfold sendRecordOn
    split
    · rfl
    · exact (congrArg State.nextPass (mirrorSent_foldl_enqueueSeg _ _ _).rest :)
  · unfold sendRecordOn
    split
    · rfl
    · exact (mirrorSent_foldl_enqueueSeg _ _ _).memory
  · obtain ⟨q', hq', hkey, hout⟩ := sendRecordOn_cases (x := x) (t := t) (r := r) hq hid
    exact ⟨q', hq', hkey, fun h => hout (.inl h)⟩

theorem sendRecords_cases {id : Nat} {x : Region} {t : Nat × Nat} {rs : List (List Byte × W32)} {s : State} {q : Pass} (hq : q ∈ s.passes)
    (hid : q.id = id) (hrs : rs ≠ []) (hbytes : ∀ r ∈ rs, r.1 ≠ []) :
    (sendRecords id x t rs s).nextPass = s.nextPass ∧ (sendRecords id x t rs s).memory = s.memory ∧
      ∃ q' ∈ (sendRecords id x t rs s).passes, unsentKey q' = unsentKey q ∧ q'.outstanding ≠ [] := by
  have hfold (rs : List (List Byte × W32)) (s : State) : PassSends id s (rs.foldl (sendRecordOn id x t) s) := by
    induction rs generalizing s with
    | nil => exact .refl id s
    | cons r rs ih => exact (passSends_sendRecordOn id x t s r).trans (ih _)
  rw [sendRecords_eq]
  have hall := hfold rs s
  refine ⟨hall.nextPass, hall.memory, ?_⟩
  cases rs with
  | nil => exact absurd rfl hrs
  | cons r rs =>
    obtain ⟨q', hq', hkey, hout⟩ := sendRecordOn_cases (x := x) (t := t) (r := r) hq hid
    obtain ⟨q'', hq'', hkey', hout'⟩ := (hfold rs (sendRecordOn id x t s r)).passes q' hq' ((congrArg Pass.id hkey :).trans hid)
    exact ⟨q'', hq'', hkey'.trans hkey, hout' (hout (.inr (hbytes r List.mem_cons_self)))⟩

theorem sectionBytes_ne_nil (x : Region) (raw : List Byte) : sectionBytes (regionHead x) raw ≠ [] := by
  have hzeros : leBytes 48 0 ≠ [] := fun h => absurd (congrArg List.length h) (by decide)
  exact List.append_ne_nil_of_left_ne_nil (List.append_ne_nil_of_right_ne_nil _ hzeros) _

/-- The records that answer a pull. -/
def pulledRecords (x : Region) (a b : Word) : List (List Byte × W32) :=
  ((sortBy (fun a b => decide (a.round ≤ b.round)) (x.ledger.filter fun d =>
      decide ((if a == 0 then x.roundFinal + 1 else a.toNat) ≤ d.round) && decide (d.round ≤ b.toNat) && !d.bytes.isEmpty)).map fun d =>
    (d.bytes, BitVec.ofNat 32 (leNat ((d.bytes.drop 32).take 4)))) ++ (if a == 0 then [(sectionBytes (regionHead x) (regionRaw x), 0)] else [])

theorem pulledRecords_bytes {x : Region} {a b : Word} : ∀ r ∈ pulledRecords x a b, r.1 ≠ [] := by
  intro r hr
  rcases List.mem_append.1 hr with hr | hr
  · obtain ⟨d, hd, rfl⟩ := List.mem_map.1 hr
    rw [mem_sortBy, List.mem_filter, Bool.and_eq_true, Bool.not_eq_true', List.isEmpty_eq_false_iff] at hd
    exact hd.2.2
  · split at hr
    · rw [List.mem_singleton.1 hr]
      exact sectionBytes_ne_nil x _
    · exact absurd hr List.not_mem_nil

theorem pulledRecords_ne_nil {x : Region} {a b : Word}
    (h : a = 0 ∨ ∃ d ∈ x.ledger, a.toNat ≤ d.round ∧ d.round ≤ b.toNat ∧ d.bytes ≠ []) : pulledRecords x a b ≠ [] := by
  unfold pulledRecords
  by_cases ha : a = 0
  · refine List.append_ne_nil_of_right_ne_nil _ ?_
    rw [if_pos (beq_iff_eq.2 ha)]
    exact List.cons_ne_nil _ _
  · obtain ⟨d, hd, hlow, hhigh, hbytes⟩ := h.resolve_left ha
    refine List.append_ne_nil_of_left_ne_nil (List.ne_nil_of_mem (List.mem_map_of_mem (a := d) ?_)) _
    have ha' : ¬(a == 0) = true := by rw [beq_iff_eq]; exact ha
    rw [mem_sortBy, List.mem_filter, if_neg ha', decide_eq_true hlow, decide_eq_true hhigh, Bool.true_and, Bool.true_and, Bool.not_eq_true',
      List.isEmpty_eq_false_iff]
    exact ⟨hd, hbytes⟩

theorem completes_roundPullReceive {l : Fin 36} {it : Item} {sender : Word} {s u : State} {x : Region} {p : Pal} {j k : Nat} (h : Policed l it 0x23 s u)
    (hself : it.w5 = s.mod.identity) (hx : regionOf (fieldNat it.w3 0 16) u = some x)
    (hj : (otherSites x).find? (fun j => (sitePal x j u).any fun p => palSender p sender u) = some j) (hp : sitePal x j u = some p)
    (hk : palLink p u = some k) (hroom : u.passes.countP (fun q => q.admitted) < 16384)
    (hsome : it.w1 = 0 ∨ ∃ d ∈ x.ledger, it.w1.toNat ≤ d.round ∧ d.round ≤ it.w2.toNat ∧ d.bytes ≠ []) :
    Completes (.roundPullReceive l it sender) s fun t => t.nextPass = u.nextPass + 1 ∧ t.memory = s.memory ∧
      ∃ q ∈ t.passes, q.id = u.nextPass ∧ q.admitted = true ∧ q.round = some it.w1.toNat ∧ q.links = [k] ∧ q.root = x.num ∧ q.outstanding ≠ [] := by
  have hmod : u.mod = s.mod := (congrArg State.mod h.onlyLinks :)
  have hmine : (it.w5 != u.mod.identity) = false := by
    rw [hmod]
    exact bne_eq_false_iff_eq.2 hself
  have hempty : ((pulledRecords x it.w1 it.w2).isEmpty || decide (16384 ≤ u.passes.countP (fun q => q.admitted))) = false := by
    rw [List.isEmpty_eq_false_iff.2 (pulledRecords_ne_nil hsome), decide_eq_false (Nat.not_le.2 hroom)]
    rfl
  have hexec : ∃ (wire : Nat) (e : Word), execRoundPullReceive l it sender s = .next
      (let q := roundPass u.nextDesc x.slot 0 0 0 (now u) e e x it.w1.toNat wire [k] u
       sendRecords q.id x (j, k) (pulledRecords x it.w1 it.w2)
        { u with nextDesc := u.nextDesc + 1, nextPass := u.nextPass + 1, passes := u.passes ++ [q] }) := by
    refine ⟨sumNat ((pulledRecords x it.w1 it.w2).map fun r => recordWire r.1.length), BitVec.ofNat 64 ((now u).toNat + 250000000),
      congrArg Host.Outcome.next ((withItem_policed h _).trans ?_)⟩
    simp only [hmine, hx, hj, hp, hk, Option.bind_some, Bool.false_eq_true, if_false]
    exact if_neg (ne_true_of_eq_false hempty)
  obtain ⟨wire, e, hexec⟩ := hexec
  obtain ⟨hnext, hmem, q, hq, hkey, hout⟩ := sendRecords_cases (x := x) (t := (j, k))
    (s := { u with nextDesc := u.nextDesc + 1, nextPass := u.nextPass + 1
                   passes := u.passes ++ [roundPass u.nextDesc x.slot 0 0 0 (now u) e e x it.w1.toNat wire [k] u] })
    (List.mem_append_right _ (List.mem_singleton.2 rfl)) rfl (pulledRecords_ne_nil hsome) pulledRecords_bytes
  exact ⟨_, hexec, hnext, hmem.trans h.memory, q, hq, (congrArg Pass.id hkey :), (congrArg Pass.admitted hkey :), (congrArg Pass.round hkey :),
    (congrArg Pass.links hkey :), (congrArg Pass.root hkey :), hout⟩

end Sys2Proof.Machine
end

section
/-!
Differences taken, rounds merged and sites awaited too long (Machine/Rounds.lean; R339, R343 to R345, R356, R357).
-/

namespace Sys2Proof.Machine

/-! ## A difference received (R343, R357) -/

/-- The norms of a pen pal after a difference: those of the last sixteen that are not empty. -/
def normsAfter (d : DiffRec) (norms : List W32) : List W32 :=
  if d.empty then norms else (norms ++ [diffNorm d.chunks]).drop (norms.length - 15)

/-- A region with a difference in its ledger. -/
def withDiff (d : DiffRec) (y : Region) : Region :=
  { y with ledger := y.ledger ++ [d], unreachFor := y.unreachFor.filter fun u => u != (d.round, d.site) }

/-- A difference noted with its pen pal and its region. -/
def noteDiff (x : Region) (d : DiffRec) (s : State) : State :=
  modRegion x.num (withDiff d) (modPal (x.pals.getD d.site 0) (fun p => { p with rejected := 0, norms := normsAfter d p.norms }) s)

/-- A difference held: noted, what became final advanced at a boundary, the ledger trimmed. -/
def holdDiff (x : Region) (d : DiffRec) (s : State) : State :=
  trimLedger x.num (if atBoundary x (noteDiff x d s) then advanceFinal x.num (noteDiff x d s) else noteDiff x d s)

theorem takeDiff_eq {l : Nat} {x : Region} {d : DiffRec} {s : State} {p : Pal} (hp : palOf (x.pals.getD d.site 0) s = some p)
    (hcfg : ∀ c : W32 × W32 × W32, tget? x.lrMu d.round = some c → c.2.2 = BitVec.ofNat 32 (leNat ((d.bytes.drop 32).take 4)))
    (hnorm : d.empty = true ∨ judgeNorm p.norms (diffNorm d.chunks) = some none) : takeDiff l x d s = holdDiff x d s := by
  unfold takeDiff
  extract_lets pid norms norm hold bad
  have hbad : bad = false := by
    show (match tget? x.lrMu d.round with | some c => _ | none => false) = false
    split
    · next c hc => exact bne_eq_false_iff_eq.2 (hcfg c hc)
    · rfl
  have hnorms : norms = p.norms := congrArg (fun o : Option Pal => (o.map fun p => p.norms).getD []) hp
  rw [hbad, if_neg Bool.false_ne_true]
  split
  · rfl
  · next hempty =>
    rw [hnorms, hnorm.resolve_left hempty]
    rfl

theorem palOf_noteDiff {x : Region} {d : DiffRec} {s : State} {p : Pal} (hp : palOf (x.pals.getD d.site 0) s = some p) :
    palOf p.id (noteDiff x d s) = some { p with rejected := 0, norms := normsAfter d p.norms } := by
  show palOf p.id (modPal (x.pals.getD d.site 0) _ s) = _
  generalize x.pals.getD d.site 0 = pid at hp ⊢
  obtain rfl := id_of_palOf hp
  rw [palOf_modPal (by intro _; rfl), if_pos rfl, hp]
  rfl

theorem regionOf_noteDiff {x : Region} {d : DiffRec} {s : State} (hx : regionOf x.num s = some x) :
    regionOf x.num (noteDiff x d s) = some (withDiff d x) := by
  rw [noteDiff, regionOf_modRegion (by intro _; rfl), if_pos rfl]
  exact congrArg (Option.map (withDiff d)) hx

theorem holdDiff_cases {x : Region} {d : DiffRec} {s : State} {p : Pal} (hx : regionOf x.num s = some x) (hp : palOf (x.pals.getD d.site 0) s = some p)
    (hlate : x.roundFinal < d.round) :
    (∃ q : Pal, palOf p.id (holdDiff x d s) = some q ∧ q.rejected = 0) ∧
    ∃ y : Region, regionOf x.num (holdDiff x d s) = some y ∧ (d.round, d.site) ∉ y.unreachFor ∧
      (atBoundary x s = false → (spillBytes { x with
        ledger := (x.ledger ++ [d]).filter fun e => decide (x.roundFinal < e.round + x.driftRounds) }).length ≤ x.ledgerBytes → d ∈ y.ledger) := by
  have hpal := palOf_noteDiff (d := d) hp
  have hregion := regionOf_noteDiff (d := d) hx
  have hbound : atBoundary x (noteDiff x d s) = atBoundary x s := rfl
  have hgone : (d.round, d.site) ∉ (withDiff d x).unreachFor := fun hmem => by
    have hne := (List.mem_filter.1 hmem).2
    rw [bne_self_eq_false] at hne
    exact absurd hne Bool.false_ne_true
  unfold holdDiff
  rw [hbound]
  generalize noteDiff x d s = w at hpal hregion ⊢
  have hholds : RegionHolds x.num w (trimLedger x.num (if atBoundary x s then advanceFinal x.num w else w)) := by
    refine .trans ?_ (regionHolds_trimLedger _ _)
    split
    · exact regionHolds_advanceFinal _ _
    · exact .refl _ _
  obtain ⟨y, hy, -, -, hunreach⟩ := hholds.region _ hregion
  refine ⟨⟨_, (palOf_congr hholds.pals _).trans hpal, rfl⟩, y, hy, fun hmem => hgone (hunreach _ hmem), fun hopen hfits => ?_⟩
  rw [hopen, if_neg Bool.false_ne_true] at hy
  have htrim := (trimLedger_region hregion).2
  have hfit : (spillBytes (ledgerKept (withDiff d x))).length ≤ (ledgerKept (withDiff d x)).ledgerBytes := hfits
  have hspill (fuel : Nat) : trimSpill (ledgerKept (withDiff d x)) fuel = ledgerKept (withDiff d x) := by
    cases fuel with
    | zero => rfl
    | succ fuel => exact if_pos hfit
  rw [hspill] at htrim
  obtain rfl := Option.some.inj (htrim.symm.trans hy)
  refine List.mem_filter.2 ⟨List.mem_append_right _ (List.mem_singleton.2 rfl), decide_eq_true ?_⟩
  show x.roundFinal < d.round + x.driftRounds
  omega

theorem completes_differenceReceive {l : Fin 36} {sender : Word} {group : BitVec 16} {record : List Byte} {s : State} {x : Region} {p : Pal}
    (hup : (linkOf l s).state = 3) (hjoins : ∀ y ∈ s.regions, y.joining = none) (hfind : s.regions.find? (fun x => x.group == group.toNat &&
      ((bindingOf x.binding s).map fun b => b.lbase + x.firstParam) == some (wordAt record 2 % 2 ^ 48)) = some x) (hx : regionOf x.num s = some x)
    (hp : sitePal x (wordAt record 1 % 8) s = some p) (hother : (parseDiff x record).site ≠ x.site) (hsender : palSender p sender s = true)
    (hform : recordOk' x record = true) (hsite : (parseDiff x record).site < x.sites) (hlate : x.roundFinal < (parseDiff x record).round)
    (hnew : heldRec x (parseDiff x record).round (parseDiff x record).site = none)
    (hcfg : ∀ c : W32 × W32 × W32, tget? x.lrMu (parseDiff x record).round = some c → c.2.2 = BitVec.ofNat 32 (leNat ((record.drop 32).take 4)))
    (hnorm : (parseDiff x record).empty = true ∨ judgeNorm p.norms (diffNorm (parseDiff x record).chunks) = some none) :
    Completes (.differenceReceive l sender group record) s fun t => (∃ q : Pal, palOf p.id t = some q ∧ q.rejected = 0) ∧
      ∃ y : Region, regionOf x.num t = some y ∧ ((parseDiff x record).round, (parseDiff x record).site) ∉ y.unreachFor ∧
        (atBoundary x s = false → (spillBytes { x with
          ledger := (x.ledger ++ [parseDiff x record]).filter fun e => decide (x.roundFinal < e.round + x.driftRounds) }).length ≤ x.ledgerBytes →
            parseDiff x record ∈ y.ledger) := by
  have hsiteEq : (parseDiff x record).site = wordAt record 1 % 8 := by
    show (BitVec.ofNat 64 (wordAt record 1)).toNat / 2 ^ 0 % 2 ^ 3 = _
    rw [BitVec.toNat_ofNat]
    omega
  have hbytes : (parseDiff x record).bytes = record := rfl
  generalize hd : parseDiff x record = d at hother hsite hlate hnew hcfg hnorm hsiteEq hbytes ⊢
  have hjoined : (s.regions.findSome? fun x => if x.group == group.toNat then
      x.joining.bind fun j => (sitePal x j s).bind fun p => if palSender p sender s then (anchorOf x record).map fun a => (x, j, a) else none
    else none) = none := by
    refine List.findSome?_eq_none_iff.2 fun y hy => ?_
    rw [hjoins y hy]
    split <;> rfl
  have hjoining : x.joining = none := hjoins x (List.mem_of_find?_eq_some hfind)
  have hpal : palOf (x.pals.getD d.site 0) s = some p := by
    rw [hsiteEq]
    exact hp
  obtain ⟨hq, y, hy, hgone, hledger⟩ := holdDiff_cases hx hpal hlate
  have htake : takeDiff l x d s = holdDiff x d s := takeDiff_eq hpal (by rw [hbytes]; exact hcfg) hnorm
  have hexec : execDifferenceReceive l sender group record s = .next (sendMirror (showRounds (holdDiff x d s))) := by
    have hup' : ((linkOf l s).state != 3) = false := bne_eq_false_iff_eq.2 hup
    have hne : (d.site == x.site) = false := beq_eq_false_iff_ne.2 hother
    have hinside : decide (x.sites ≤ d.site) = false := decide_eq_false (Nat.not_le.2 hsite)
    have hround : decide (d.round ≤ x.roundFinal) = false := decide_eq_false (Nat.not_le.2 hlate)
    unfold execDifferenceReceive
    rw [← hsiteEq] at hp
    simp only [hup', hjoined, hfind, ← hsiteEq, hp, hjoining, hne, hsender, hform, hinside, hd, hround, hnew, htake, Option.isSome_none,
      Option.any_none, Bool.not_true, Bool.not_false, Bool.and_false, Bool.or_self, Bool.and_true, Bool.false_eq_true, if_false]
  refine ⟨_, hexec, ?_, y, (regionOf_congr (shown _).1 _).trans hy, hgone, hledger⟩
  rw [palOf_congr (shown _).2.1]
  exact hq

/-! ## ROUND_MERGE (R344, R345) -/

theorem advanceFinal_idle {num : Nat} {s : State} {x : Region} (hx : regionOf num s = some x)
    (hfinal : finalTo x (x.roundMerged - x.roundFinal) x.roundFinal = x.roundFinal) : advanceFinal num s = s := by
  unfold advanceFinal
  rw [hx]
  exact if_pos (beq_iff_eq.2 hfinal)

theorem mergeRound_region {s : State} {x : Region} {k : Nat} (hx : regionOf x.num s = some x) :
    ∃ y : Region, regionOf x.num (mergeRound x k s) = some y ∧ y.roundMerged = k ∧ y.roundSent = x.roundSent := by
  obtain ⟨y, hy, -, hsent, -⟩ := (regionHolds_changeRegion x (mergeParam x k) k s).region x hx
  refine ⟨{ y with roundMerged := k, mergedSets := tset y.mergedSets k (heldSites x k) }, ?_, rfl, hsent⟩
  rw [mergeRound, regionOf_modRegion (by intro _; rfl), if_pos rfl, hy]
  rfl

/-- Rounds merge up to the highest sent, one after the other. -/
theorem mergeAll_region {num fuel : Nat} {s : State} {x : Region} (hx : regionOf num s = some x) (hle : x.roundMerged ≤ x.roundSent) :
    ∃ y : Region, regionOf num (mergeAll num fuel s) = some y ∧ y.roundSent = x.roundSent ∧ x.roundMerged ≤ y.roundMerged ∧
      y.roundMerged ≤ x.roundSent := by
  induction fuel generalizing s x with
  | zero => exact ⟨x, hx, rfl, Nat.le_refl _, hle⟩
  | succ fuel ih =>
    unfold mergeAll
    rw [hx]
    dsimp only
    split
    · next hready =>
      rw [Bool.and_eq_true, decide_eq_true_eq] at hready
      obtain rfl := num_of_regionOf hx
      obtain ⟨z, hz, hmerged, hsent⟩ := mergeRound_region (k := x.roundMerged + 1) hx
      obtain ⟨y, hy, hysent, hlow, hhigh⟩ := ih hz (by omega)
      exact ⟨y, hy, hysent.trans hsent, by omega, by omega⟩
    · exact ⟨x, hx, rfl, Nat.le_refl _, hle⟩

theorem mergeAll_ready {num fuel : Nat} {s : State} {x : Region} (hx : regionOf num s = some x) (hle : x.roundMerged < x.roundSent)
    (hready : mergeReady x (x.roundMerged + 1) s = true) :
    ∃ y : Region, regionOf num (mergeAll num (fuel + 1) s) = some y ∧ y.roundSent = x.roundSent ∧ x.roundMerged + 1 ≤ y.roundMerged ∧
      y.roundMerged ≤ x.roundSent := by
  obtain rfl := num_of_regionOf hx
  have hstep : mergeAll x.num (fuel + 1) s = mergeAll x.num fuel (mergeRound x (x.roundMerged + 1) s) := by
    rw [mergeAll, hx]
    dsimp only
    rw [if_pos (by rw [decide_eq_true hle, hready]; rfl)]
  obtain ⟨z, hz, hmerged, hsent⟩ := mergeRound_region (k := x.roundMerged + 1) hx
  rw [hstep]
  obtain ⟨y, hy, hysent, hlow, hhigh⟩ := mergeAll_region (fuel := fuel) hz (by omega)
  exact ⟨y, hy, hysent.trans hsent, by omega, by omega⟩

theorem mergeAll_idle {num fuel : Nat} {s : State} {x : Region} (hx : regionOf num s = some x)
    (hidle : x.roundSent ≤ x.roundMerged ∨ mergeReady x (x.roundMerged + 1) s = false) : mergeAll num fuel s = s := by
  cases fuel with
  | zero => rfl
  | succ fuel =>
    rw [mergeAll, hx]
    refine if_neg ?_
    rw [Bool.and_eq_true, decide_eq_true_eq, not_and_or, Bool.not_eq_true, Nat.not_lt]
    exact hidle

theorem completes_roundMerge {num : Nat} {s : State} {x : Region} (hx : regionOf num s = some x) (hbound : atBoundary x s = true)
    (hopen : x.openId = none) (hfinal : finalTo x (x.roundMerged - x.roundFinal) x.roundFinal = x.roundFinal) : Completes (.roundMerge num) s fun t =>
      ∃ y : Region, regionOf num t = some y ∧ y.roundSent = x.roundSent ∧
        (x.roundMerged < x.roundSent ∧ mergeReady x (x.roundMerged + 1) s = true → x.roundMerged + 1 ≤ y.roundMerged ∧ y.roundMerged ≤ x.roundSent) ∧
        (x.roundSent ≤ x.roundMerged ∨ mergeReady x (x.roundMerged + 1) s = false → y = x) := by
  have hidle := advanceFinal_idle hx hfinal
  have hexec : execRoundMerge num s = .next (sendMirror (showRounds (advanceFinal num (mergeAll num (x.roundSent - x.roundMerged) s)))) := by
    unfold execRoundMerge
    simp only [hx, hbound, hopen, hidle, Option.isSome_none, Bool.not_true, Bool.or_self, Bool.false_eq_true, if_false]
  refine ⟨_, hexec, ?_⟩
  show ∃ y : Region, regionOf num (sendMirror _) = some y ∧ _
  rw [regionOf_congr (shown _).1]
  by_cases hready : x.roundMerged < x.roundSent ∧ mergeReady x (x.roundMerged + 1) s = true
  · obtain ⟨hlt, hmerge⟩ := hready
    obtain ⟨fuel, hfuel⟩ := Nat.exists_eq_add_of_lt (Nat.sub_pos_of_lt hlt)
    rw [Nat.zero_add] at hfuel
    rw [hfuel]
    obtain ⟨y, hy, hsent, hlow, hhigh⟩ := mergeAll_ready (fuel := fuel) hx hlt hmerge
    obtain ⟨z, hz, hzmerged, hzsent, -⟩ := (regionHolds_advanceFinal num _).region y hy
    refine ⟨z, hz, hzsent.trans hsent, fun _ => ⟨by omega, by omega⟩, fun hnot => ?_⟩
    rcases hnot with hnot | hnot
    · omega
    · rw [hmerge] at hnot
      exact absurd hnot.symm Bool.false_ne_true
  · have hnot : x.roundSent ≤ x.roundMerged ∨ mergeReady x (x.roundMerged + 1) s = false := by
      rw [not_and_or, Bool.not_eq_true, Nat.not_lt] at hready
      exact hready
    rw [mergeAll_idle hx hnot, hidle]
    exact ⟨x, hx, rfl, fun h => absurd h hready, fun _ => rfl⟩

/-! ## Sites awaited too long and pen pals silent (R339, R356) -/

theorem mem_roundsFrom {a b k : Nat} (hlow : a ≤ k) (hhigh : k < b) : k ∈ roundsFrom a b := by
  refine List.mem_map.2 ⟨k - a, List.mem_range.2 (by omega), by omega⟩

/-- A region whose site counts as unreachable for rounds. -/
def awaitedLong (ks : List Nat) (site : Nat) (y : Region) : Region :=
  { y with unreachFor := y.unreachFor ++ (ks.map fun k => (k, site)).filter fun u => !y.unreachFor.contains u }

theorem completes_roundWaitTimeout {num : Nat} {site : Fin 8} {s : State} {x : Region} {t0 : Word} (hx : regionOf num s = some x)
    (hheld : roundHoldSince x.group s = some t0) (hother : site.val ≠ x.site) (hreach : siteReach x site s = true)
    (hdue : 1000000000 * x.roundWaitS ≤ nsSince t0 (mono s)) :
    Completes (.roundWaitTimeout num site) s fun t => { t with regions := s.regions } = s ∧ ∃ y : Region, regionOf num t = some y ∧
      (∀ k : Nat, x.roundMerged < k → k ≤ x.roundSent - ((x.pals.filterMap fun p => (palOf p s).map fun q => q.staleness).min?).getD 0 →
        heldRec x k site = none → (k, site.val) ∈ y.unreachFor) ∧ { y with unreachFor := x.unreachFor } = x := by
  generalize hstale : ((x.pals.filterMap fun p => (palOf p s).map fun q => q.staleness).min?).getD 0 = stale
  generalize hks : (roundsFrom (x.roundMerged + 1) (x.roundSent - stale + 1)).filter (fun k => (heldRec x k site).isNone) = ks
  have hexec : execRoundWaitTimeout num site s = .next (modRegion num (awaitedLong ks site) s) := by
    have hne : (site.val == x.site) = false := beq_eq_false_iff_ne.2 hother
    have hlt : ¬nsSince t0 (mono s) < 1000000000 * x.roundWaitS := Nat.not_lt.2 hdue
    unfold execRoundWaitTimeout
    simp only [hx, hheld, hne, hreach, hlt, hstale, hks, decide_false, Bool.not_true, Bool.or_self, Bool.false_eq_true, if_false]
    rfl
  refine ⟨_, hexec, rfl, awaitedLong ks site x, ?_, fun k hlow hhigh hnone => ?_, rfl⟩
  · rw [regionOf_modRegion (by intro _; rfl), if_pos rfl, hx]
    rfl
  · have hk : k ∈ ks := by
      rw [← hks, List.mem_filter, hnone]
      exact ⟨mem_roundsFrom hlow (by omega), rfl⟩
    show (k, site.val) ∈ x.unreachFor ++ ((ks.map fun k => (k, site.val)).filter fun u => !x.unreachFor.contains u)
    by_cases hmem : (k, site.val) ∈ x.unreachFor
    · exact List.mem_append_left _ hmem
    · refine List.mem_append_right _ (List.mem_filter.2 ⟨List.mem_map_of_mem hk, ?_⟩)
      rw [Bool.not_eq_true', List.contains_eq_mem, decide_eq_false hmem]

theorem completes_palUnreachableTimeout {pal : BitVec 16} {s : State} {p : Pal} {t0 : Word} (hp : palOf pal.toNat s = some p)
    (hreach : p.reachable = true) (hlast : p.lastState = some t0) (hdue : 1000000000 ≤ nsSince t0 (mono s)) :
    Completes (.palUnreachableTimeout pal) s fun t => palOf pal.toNat t = some { p with reachable := false } := by
  have hpid := id_of_palOf hp
  have hexec : execPalUnreachableTimeout pal s = .next (showRounds ((s.regions.map fun x => x.num).foldl (fun s n => tryOpen n s)
      (modPal p.id (fun q => { q with reachable := false }) s))) := by
    unfold execPalUnreachableTimeout
    simp only [hp, hreach, hlast, hdue, decide_true, Bool.and_self, if_true]
    rfl
  have htried : SaidStays (modPal p.id (fun q => { q with reachable := false }) s) ((s.regions.map fun x => x.num).foldl (fun s n => tryOpen n s)
      (modPal p.id (fun q => { q with reachable := false }) s)) := .foldl (fun v n => saidStays_tryOpen n v) _ _
  have hsilent : palOf pal.toNat (modPal p.id (fun q => { q with reachable := false }) s) = some { p with reachable := false } := by
    rw [palOf_modPal (by intro _; rfl), if_pos hpid.symm, hp]
    rfl
  exact ⟨_, hexec, (palOf_congr ((pals_showRounds _).trans htried.pals) _).trans hsilent⟩

end Sys2Proof.Machine
end

section
/-!
ROUND_SEND as it starts (Machine/Rounds.lean; R335 to R340): what opening a region leaves of it.
-/

namespace Sys2Proof.Machine

/-! ## The number of a new region -/

theorem regionOf_freeRegion (s : State) : regionOf (freeRegion s) s = none := by
  have hfree : ∃ i ∈ List.range (s.regions.length + 1), (!(s.regions.any fun x => x.num == i)) = true := by
    by_contra hall
    have hused : List.range (s.regions.length + 1) ⊆ s.regions.map fun x => x.num := fun i hi => by
      have hany : (s.regions.any fun x => x.num == i) = true := by
        by_contra hany
        exact hall ⟨i, hi, by rw [Bool.eq_false_iff.2 hany]; rfl⟩
      obtain ⟨x, hx, hnum⟩ := List.any_eq_true.1 hany
      exact List.mem_map.2 ⟨x, hx, beq_iff_eq.1 hnum⟩
    have hlen := (List.nodup_range.subperm hused).length_le
    rw [List.length_range, List.length_map] at hlen
    omega
  obtain ⟨i, hi⟩ := Option.isSome_iff_exists.1 (List.find?_isSome.2 hfree)
  have hnone := List.find?_some hi
  rw [Bool.not_eq_true', List.any_eq_false] at hnone
  have hnum : freeRegion s = i := congrArg (fun o : Option Nat => o.getD 0) hi
  rw [hnum]
  exact List.find?_eq_none.2 hnone

/-! ## A region while it opens (R337) -/

/-- A region less what opening changes of it. -/
def openKey (x : Region) : Region := { x with current := false, stateSent := [], openId := none, joining := none }

/-- A region opens for a descriptor: it stands under its number with what it was given, its sites have said nothing, the descriptor waits for
them, and the descriptor's channel is not being destroyed. -/
structure Opens (r : DescRec) (x : Region) (s : State) : Prop where
  region : ∃ y : Region, regionOf x.num s = some y ∧ openKey y = openKey x ∧ y.openId = some r.id
  desc : ∀ y ∈ s.descs, y.id = r.id → y.aux = 1 ∧ y.desc = r.desc
  live : ∀ c : Chan, chanOf r.desc.slot s = some c → c.destroyId = none

/-- A region is open or opens: it stands with what it was given, and a descriptor that opens it waits for its sites. -/
structure Opened (r : DescRec) (x : Region) (s : State) : Prop where
  region : ∃ y ∈ s.regions, openKey y = openKey x
  desc : ∀ y ∈ s.descs, y.id = r.id → y.aux = 1

theorem Opens.opened {r : DescRec} {x : Region} {s : State} (h : Opens r x s) : Opened r x s := by
  obtain ⟨y, hy, hkey, -⟩ := h.region
  exact ⟨⟨y, List.mem_of_find?_eq_some hy, hkey⟩, fun z hz hid => (h.desc z hz hid).1⟩

theorem Opens.of_same {r : DescRec} {x : Region} {s t : State} (h : Opens r x s) (hregions : t.regions = s.regions) (hdescs : t.descs = s.descs)
    (hslots : t.slots = s.slots) : Opens r x t := by
  refine ⟨?_, ?_, ?_⟩
  · rw [regionOf_congr hregions]
    exact h.region
  · rw [hdescs]
    exact h.desc
  · rw [chanOf_congr hslots]
    exact h.live

theorem Opens.modRegion {r : DescRec} {x : Region} {s : State} (h : Opens r x s) {f : Region → Region} (i : Nat)
    (hf : ∀ y, (f y).num = y.num ∧ openKey (f y) = openKey y ∧ (f y).openId = y.openId) : Opens r x (modRegion i f s) := by
  refine ⟨?_, h.desc, h.live⟩
  obtain ⟨y, hy, hkey, hopen⟩ := h.region
  rw [regionOf_modRegion (fun y => (hf y).1), hy]
  split
  · exact ⟨f y, rfl, (hf y).2.1.trans hkey, (hf y).2.2.trans hopen⟩
  · exact ⟨y, rfl, hkey, hopen⟩

theorem opens_sendPal {r : DescRec} {x : Region} {s : State} (h : Opens r x s) (p : Pal) (it : Item) : Opens r x (sendPal p it s) := by
  unfold sendPal
  split
  · exact h.of_same rfl rfl rfl
  · exact h

theorem opens_tellState {r : DescRec} {x : Region} {s : State} (h : Opens r x s) (num j : Nat) : Opens r x (tellState num j s) := by
  unfold tellState
  split
  · exact h
  · split
    · exact h
    · exact (opens_sendPal h _ _).modRegion num (by intro _; exact ⟨rfl, rfl, rfl⟩)

theorem opens_tellAll {r : DescRec} {x : Region} {s : State} (h : Opens r x s) (num : Nat) (js : List Nat) :
    Opens r x (js.foldl (fun s j => tellState num j s) s) := by
  induction js generalizing s with
  | nil => exact h
  | cons j js ih => exact ih (opens_tellState h num j)

theorem live_postCompl {slot : Nat} {x : Compl} {s : State} (h : ∀ c : Chan, chanOf slot s = some c → c.destroyId = none) :
    ∀ c : Chan, chanOf slot (postCompl slot x s) = some c → c.destroyId = none := by
  have hport (p : Port) (f : PortSt → PortSt) : ∀ c : Chan, chanOf slot (modPort p f s) = some c → c.destroyId = none := by
    rw [chanOf_congr (modPort_slots p f s)]
    exact h
  have hwait (c : Chan) : (waitCompl x c).destroyId = c.destroyId := by
    unfold waitCompl
    extract_lets w
    split <;> rfl
  unfold postCompl
  split
  · exact hport _ _
  · split
    · exact hport _ _
    · intro c hc
      rw [chanOf_modChan] at hc
      obtain ⟨k, hk, rfl⟩ := Option.map_eq_some_iff.1 hc
      exact (hwait k).trans (h k hk)

theorem settleDestroy_live {slot : Nat} {s : State} (h : ∀ c : Chan, chanOf slot s = some c → c.destroyId = none) : settleDestroy slot s = s := by
  cases hc : chanOf slot s with
  | none => simp only [settleDestroy, hc]
  | some c => exact settleDestroy_of_live hc (h c hc)

/-- A descriptor of a channel that is not being destroyed ends: no region goes. -/
theorem finish_keeps {r : DescRec} {status : BitVec 8} {detail : BitVec 16} {result0 : Word} {s : State}
    (h : ∀ c : Chan, chanOf r.desc.slot s = some c → c.destroyId = none) : (finish r status detail result0 s).regions = s.regions := by
  unfold finish
  extract_lets t
  have ht : ∀ c : Chan, chanOf r.desc.slot t = some c → c.destroyId = none := h
  split
  · rw [settleDestroy_live ht]
  · rw [settleDestroy_live (live_postCompl ht), regions_postCompl]

theorem opened_endOpen {r : DescRec} {x y : Region} {s : State} (h : Opens r x s) (hy : regionOf x.num s = some y) : Opened r x (endOpen y 0 s) := by
  unfold endOpen
  split
  · exact h.opened
  · next k hk =>
    obtain ⟨z, hz, hkey, hopen⟩ := h.region
    obtain rfl := Option.some.inj (hy.symm.trans hz)
    rw [hopen, Option.bind_some] at hk
    have hkmem := List.mem_of_find?_eq_some hk
    obtain ⟨haux, hdesc⟩ := h.desc k hkmem (beq_iff_eq.1 (List.find?_some (p := fun x : DescRec => x.id == r.id) hk))
    rw [if_pos (by rfl)]
    have hnum : y.num = x.num := (congrArg Region.num hkey :)
    have hregions := finish_keeps (r := k) (status := stDone) (detail := 0) (result0 := BitVec.ofNat 64 0)
      (s := modRegion y.num (fun y => { y with openId := none }) s) (by rw [hdesc]; exact h.live)
    refine ⟨⟨{ y with openId := none }, ?_, hkey⟩, fun w hw hid => (h.desc w (descs_finish hw).1 hid).1⟩
    show _ ∈ (finish k stDone 0 _ _).regions
    rw [hregions]
    exact List.mem_map.2 ⟨y, List.mem_of_find?_eq_some hy, if_pos (beq_self_eq_true _)⟩

theorem opened_tryOpen {r : DescRec} {x : Region} {s : State} (h : Opens r x s) (hsaid : x.said = []) : Opened r x (tryOpen x.num s) := by
  obtain ⟨y, hy, hkey, hopen⟩ := h.region
  have hysaid : y.said = [] := (congrArg Region.said hkey :).trans hsaid
  unfold tryOpen
  rw [hy]
  dsimp only
  split
  · exact h.opened
  · rw [hysaid]
    cases hjs : (otherSites y).filter (fun j => siteReach y j s) with
    | cons j js => exact h.opened
    | nil => exact opened_endOpen h hy

/-! ## What ROUND_SEND names and holds -/

/-- A region of a channel whose latest ROUND_SEND named a region. -/
def namedIn (slot num : Nat) (y : Region) : Region := if y.slot == slot then { y with current := y.num == num } else y

theorem namedIn_keeps (slot num : Nat) (y : Region) : openKey (namedIn slot num y) = openKey y ∧ (namedIn slot num y).openId = y.openId := by
  unfold namedIn
  split <;> exact ⟨rfl, rfl⟩

theorem regionOf_nameRegion (i slot num : Nat) (s : State) :
    regionOf i (nameRegion slot num s) = (regionOf i s).map (namedIn slot num) := by
  have hnum : ((fun y : Region => y.num == i) ∘ namedIn slot num) = fun y : Region => y.num == i := by
    funext y
    show ((namedIn slot num y).num == i) = (y.num == i)
    unfold namedIn
    split <;> rfl
  show (s.regions.map (namedIn slot num)).find? (fun y => y.num == i) = _
  rw [List.find?_map, hnum]
  rfl

/-- The region named is the current one of its channel. -/
theorem current_nameRegion {slot num : Nat} {s : State} : ∀ y ∈ (nameRegion slot num s).regions, y.slot = slot → (y.current = true ↔ y.num = num) := by
  intro y hy hslot
  obtain ⟨z, -, rfl⟩ := List.mem_map.1 hy
  have hz : (z.slot == slot) = true := by
    rw [← hslot, beq_iff_eq]
    split <;> rfl
  rw [if_pos hz]
  exact beq_iff_eq

theorem mem_descs_holdAs {r y : DescRec} {h : Hold} {s : State} (hy : y ∈ (holdAs r h s).descs) (hid : y.id = r.id) :
    y = { r with hold := h, since := mono s } := by
  unfold holdAs at hy
  split at hy
  · obtain ⟨z, -, hz⟩ := List.mem_map.1 hy
    split at hz
    · exact hz.symm
    · next hne =>
      rw [← hz] at hid
      exact absurd (beq_iff_eq.2 hid) hne
  · next hnone =>
    rcases List.mem_append.1 hy with hmem | hmem
    · exact absurd (List.any_eq_true (p := fun x : DescRec => x.id == r.id) |>.2 ⟨y, hmem, beq_iff_eq.2 hid⟩) hnone
    · exact List.mem_singleton.1 hmem

theorem regions_holdAs (r : DescRec) (h : Hold) (s : State) : (holdAs r h s).regions = s.regions :=
  (congrArg State.regions (descs_holdAs_frame r h s) :)

theorem slots_holdAs (r : DescRec) (h : Hold) (s : State) : (holdAs r h s).slots = s.slots := (congrArg State.slots (descs_holdAs_frame r h s) :)

/-- A region added and named, its descriptor held until its sites have reported. -/
theorem opens_nameRegion {r : DescRec} {x : Region} {u v : State} (hx : x.num = freeRegion u) (hopen : x.openId = some r.id)
    (hregions : v.regions = u.regions ++ [x]) (hslots : v.slots = u.slots) (hlive : ∀ c : Chan, chanOf r.desc.slot u = some c → c.destroyId = none)
    (slot : Nat) : Opens r x (nameRegion slot x.num (holdAs { r with aux := 1 } .roundForm v)) := by
  have hnew : regionOf x.num v = some x := by
    have hnone : u.regions.find? (fun y => y.num == x.num) = none := by
      rw [hx]
      exact regionOf_freeRegion u
    rw [regionOf, hregions, List.find?_append, hnone, Option.none_or]
    exact List.find?_cons_of_pos (beq_self_eq_true x.num)
  obtain ⟨hkey, hsame⟩ := namedIn_keeps slot x.num x
  refine ⟨⟨namedIn slot x.num x, ?_, hkey, hsame.trans hopen⟩, fun y hy hid => ?_, ?_⟩
  · rw [regionOf_nameRegion, regionOf_congr (regions_holdAs _ _ v), hnew]
    rfl
  · have hheld := mem_descs_holdAs (r := { r with aux := 1 }) hy hid
    exact ⟨(congrArg DescRec.aux hheld :), (congrArg DescRec.desc hheld :)⟩
  · show ∀ c : Chan, chanOf r.desc.slot (holdAs { r with aux := 1 } .roundForm v) = some c → c.destroyId = none
    rw [chanOf_congr ((slots_holdAs _ _ v).trans hslots)]
    exact hlive

theorem modMemory_regionsSet (f : MemSt → MemSt) (xs : List Region) (s : State) :
    (modMemory f { s with regions := xs }).regions = xs ∧ (modMemory f { s with regions := xs }).slots = s.slots := ⟨rfl, rfl⟩

/-- Opening a region whose ledger fits and whose channel has room. -/
theorem opened_openRegion {r : DescRec} {h : List Word} {b : Binding} {off : Nat} {g : Group} {u : State}
    (hlive : ∀ c : Chan, chanOf r.desc.slot u = some c → c.destroyId = none)
    (hledger : ledgerOk r.desc.slot h g (fieldNat r.desc.w5 0 48 / fmtBytes b.fmt) u = true)
    (hcount : u.regions.countP (fun x => x.slot == r.desc.slot.val) < 64)
    (hframes : ceilDiv (fieldNat r.desc.w5 0 48 / fmtBytes b.fmt * (14 + 5 * (headerStale h g u + 1) + (if rhRule h = 1 then 8 else 0))) pageBytes ≤
      freeFrameCount u) : ∃ x : Region, Opened r x (openRegion r h b off g u) ∧ x.num = freeRegion u ∧ x.slot = r.desc.slot.val ∧
        x.base = r.desc.w4.toNat ∧ x.length = fieldNat r.desc.w5 0 48 ∧ x.binding = b.num ∧ x.group = g.id ∧ x.site = rhSite h ∧ x.roundSent = 0 ∧
        x.header = h ∧ x.params.map (fun q => q.af) =
          regionMasters b (off / fmtBytes b.fmt) (fieldNat r.desc.w5 0 48 / fmtBytes b.fmt) u := by
  unfold openRegion
  extract_lets d slot len n stale frames first num steps x s1 s2 s3
  have hled : (!ledgerOk slot h g n u) = false := by
    rw [Bool.not_eq_false']
    exact hledger
  have hfits : (decide (64 ≤ u.regions.countP (fun x => x.slot == slot)) || decide (freeFrameCount u < frames)) = false := by
    rw [Bool.or_eq_false_iff, decide_eq_false_iff_not, decide_eq_false_iff_not, Nat.not_le, Nat.not_lt]
    refine ⟨hcount, ?_⟩
    have hrule : (if (rhRule h == 1) = true then 8 else 0) = if rhRule h = 1 then 8 else 0 := if_congr beq_iff_eq rfl rfl
    have hneeded : frames = ceilDiv (n * (14 + 5 * (stale + 1) + (if (rhRule h == 1) = true then 8 else 0))) pageBytes := rfl
    rw [hneeded, hrule]
    exact hframes
  rw [hled, hfits, if_neg Bool.false_ne_true, if_neg Bool.false_ne_true]
  have hnum : x.num = num := rfl
  have hopen : x.openId = some r.id := rfl
  have hsaid : x.said = [] := rfl
  have hmasters : x.params.map (fun q => q.af) = regionMasters b first n u := (List.map_map ..).trans (List.map_id _)
  have hfields : x.slot = slot ∧ x.base = d.w4.toNat ∧ x.length = len ∧ x.binding = b.num ∧ x.group = g.id ∧ x.site = rhSite h ∧ x.roundSent = 0 ∧
      x.header = h := ⟨rfl, rfl, rfl, rfl, rfl, rfl, rfl, rfl⟩
  obtain ⟨hregions, hslots⟩ : s1.regions = u.regions ++ [x] ∧ s1.slots = u.slots := modMemory_regionsSet _ _ u
  have hs2 : s2 = nameRegion slot num (holdAs { r with aux := 1 } .roundForm s1) := rfl
  have hs3 : s3 = ((otherSites x).filter fun j => siteReach x j s2).foldl (fun s j => tellState num j s) s2 := rfl
  clear_value s3 s2 s1 x
  subst hs3 hs2
  rw [← hnum]
  have hopens := opens_tellAll (opens_nameRegion hnum hopen hregions hslots hlive slot) x.num
    ((otherSites x).filter fun j => siteReach x j (nameRegion slot x.num (holdAs { r with aux := 1 } .roundForm s1)))
  obtain ⟨hslot, hbase, hlen, hbinding, hgroup, hsite, hsent, hheader⟩ := hfields
  exact ⟨x, opened_tryOpen hopens hsaid, hnum, hslot, hbase, hlen, hbinding, hgroup, hsite, hsent, hheader, hmasters⟩

/-! ## ROUND_SEND fetched or proceeding (R338, R340) -/

theorem descOf_ne_some {i : Nat} {s : State} {p : DescRec → Bool} (h : ∀ y : DescRec, descOf i s = some y → p y = false) :
    (descOf i s).any p = false := by
  cases hy : descOf i s with
  | none => rfl
  | some y => exact h y hy

/-- A ROUND_SEND starts as it is fetched, and again when it is released unless it would only be held anew. -/
theorem completes_startRound {d : Desc} {s u : State} {r : DescRec} {i : Instr} {P : State → Prop}
    (hi : (i = .roundSend d ∧ Starts 0x04 d s r u) ∨
      (i = .roundFormRelease r.id ∧ HeldAs r.id .roundForm r s ∧ r.aux = 0 ∧ u = s ∧ r.desc = d))
    (hgoes : i = .roundFormRelease r.id → ∀ y : DescRec, descOf r.id (startRound r u) = some y → (y.hold == .roundForm && y.aux == 0) = false)
    (hP : P (sendMirror (showRounds (startRound r u)))) : Completes i s P := by
  rcases hi with ⟨rfl, hstarts⟩ | ⟨rfl, ⟨hdesc, hhold, hchan⟩, haux, rfl, -⟩
  · have hexec : execRoundSend d s = .next (sendMirror (showRounds (startRound r u))) := by rw [execRoundSend, hstarts.fetchWith]
    exact ⟨_, hexec, hP⟩
  · have hheld : (r.hold != .roundForm || (chanOf r.desc.slot u).isNone) = false := by
      rw [hhold, Option.isNone_eq_false_iff.2 hchan]
      rfl
    have hnew : (r.aux == 1) = false := by rw [haux]; rfl
    have hexec : execRoundFormRelease r.id u = .next (sendMirror (showRounds (startRound r u))) := by
      unfold execRoundFormRelease
      simp only [hdesc, hheld, hnew, descOf_ne_some (hgoes rfl), Bool.false_eq_true, if_false]
    exact ⟨_, hexec, hP⟩

/-- Whether a region is the one a descriptor names. -/
def isHere (d : Desc) (x : Region) : Bool := x.slot == d.slot.val && x.base == d.w4.toNat && x.length == fieldNat d.w5 0 48

section
variable {d : Desc} {u : State} {r : DescRec} {b : Binding} {off : Nat} {g : Group}
  (hd : r.desc = d) (hpage : (locate d.slot roundPageVa u).isSome = true) (hfault : regionFault d.slot d.w4.toNat (fieldNat d.w5 0 48) false u = none)
  (hbinding : resolveRegion d.slot d.w4.toNat (fieldNat d.w5 0 48) u = some (b, off)) (hg : groupOf (rhGroup (readRound d.slot u)) u = some g)
  (hheader : roundHeaderOk (readRound d.slot u) g u = true) (hpal : palNamed d (readRound d.slot u) g = true)
include hd hpage hfault hbinding hg hheader hpal

theorem startRound_new (hnone : u.regions.find? (isHere d) = none) (hzero : d.w2 = 0) (hclosed : stepIsOpen g.id u = false) :
    startRound r u = openRegion r (readRound d.slot u) b off g u := by
  subst hd
  have hfind : (u.regions.find? fun x => x.slot == r.desc.slot.val && x.base == r.desc.w4.toNat && x.length == fieldNat r.desc.w5 0 48) = none := hnone
  have hpage' : (locate r.desc.slot roundPageVa u).isNone = false := Option.isNone_eq_false_iff.2 hpage
  unfold startRound
  simp only [hpage', hfault, hbinding, hg, hheader, hpal, hfind, hzero, hclosed, bne_self_eq_false, Bool.not_true, Bool.or_self, Bool.false_eq_true,
    if_false]

theorem startRound_later {x : Region} (hfind : u.regions.find? (isHere d) = some x) (hopen : openPart x.header = openPart (readRound d.slot u))
    (hround : d.w2 ≠ 0) : startRound r u = startLater r x u := by
  subst hd
  have hfind' : (u.regions.find? fun x => x.slot == r.desc.slot.val && x.base == r.desc.w4.toNat && x.length == fieldNat r.desc.w5 0 48) = some x := hfind
  have hpage' : (locate r.desc.slot roundPageVa u).isNone = false := Option.isNone_eq_false_iff.2 hpage
  have hnonzero : (r.desc.w2 == 0) = false := beq_eq_false_iff_ne.2 hround
  have hsame : (openPart x.header != openPart (readRound r.desc.slot u)) = false := bne_eq_false_iff_eq.2 hopen
  unfold startRound
  simp only [hpage', hfault, hbinding, hg, hheader, hpal, hfind', hnonzero, hsame, Bool.false_and, Bool.not_true, Bool.or_self, Bool.false_eq_true,
    if_false]

theorem completes_roundSend_new {s : State} {i : Instr}
    (hi : (i = .roundSend d ∧ Starts 0x04 d s r u) ∨
      (i = .roundFormRelease r.id ∧ HeldAs r.id .roundForm r s ∧ r.aux = 0 ∧ u = s ∧ r.desc = d))
    (hnone : u.regions.find? (isHere d) = none) (hzero : d.w2 = 0) (hclosed : stepIsOpen g.id u = false)
    (hlive : ∀ c : Chan, chanOf d.slot u = some c → c.destroyId = none)
    (hledger : ledgerOk d.slot (readRound d.slot u) g (fieldNat d.w5 0 48 / fmtBytes b.fmt) u = true)
    (hcount : u.regions.countP (fun x => x.slot == d.slot.val) < 64)
    (hframes : ceilDiv (fieldNat d.w5 0 48 / fmtBytes b.fmt * (14 + 5 * (headerStale (readRound d.slot u) g u + 1) +
      (if rhRule (readRound d.slot u) = 1 then 8 else 0))) pageBytes ≤ freeFrameCount u) :
    Completes i s fun t => ∃ x ∈ t.regions, x.num = freeRegion u ∧ isHere d x = true ∧ x.binding = b.num ∧ x.group = g.id ∧
      x.site = rhSite (readRound d.slot u) ∧ x.roundSent = 0 ∧ x.header = readRound d.slot u ∧
      x.params.map (fun q => q.af) = regionMasters b (off / fmtBytes b.fmt) (fieldNat d.w5 0 48 / fmtBytes b.fmt) u := by
  have hstart := startRound_new hd hpage hfault hbinding hg hheader hpal hnone hzero hclosed
  subst hd
  obtain ⟨x, ⟨⟨y, hy, hkey⟩, hdesc⟩, hnum, hslot, hbase, hlen, hbind, hgroup, hsite, hsent, hhead, hmasters⟩ :=
    opened_openRegion (off := off) hlive hledger hcount hframes
  rw [← hstart] at hy hdesc
  refine completes_startRound hi (fun _ z hz => ?_) ⟨y, ?_, (congrArg Region.num hkey :).trans hnum, ?_, (congrArg Region.binding hkey :).trans hbind,
    (congrArg Region.group hkey :).trans hgroup, (congrArg Region.site hkey :).trans hsite, (congrArg Region.roundSent hkey :).trans hsent,
    (congrArg Region.header hkey :).trans hhead, ?_⟩
  · rw [hdesc z (List.mem_of_find?_eq_some hz) (beq_iff_eq.1 (List.find?_some (p := fun x : DescRec => x.id == r.id) hz))]
    exact Bool.and_false _
  · rw [(shown _).1]
    exact hy
  · have hyslot : y.slot = r.desc.slot.val := (congrArg Region.slot hkey :).trans hslot
    have hybase : y.base = r.desc.w4.toNat := (congrArg Region.base hkey :).trans hbase
    have hylen : y.length = fieldNat r.desc.w5 0 48 := (congrArg Region.length hkey :).trans hlen
    rw [isHere, hyslot, hybase, hylen, beq_self_eq_true, beq_self_eq_true, beq_self_eq_true]
    rfl
  · have hyparams : y.params = x.params := (congrArg Region.params hkey :)
    rw [hyparams]
    exact hmasters

/-- A later ROUND_SEND names its region and waits. -/
theorem completes_roundSend_held {s : State} {i : Instr} {x : Region} {k : Hold}
    (hi : (i = .roundSend d ∧ Starts 0x04 d s r u) ∨
      (i = .roundFormRelease r.id ∧ HeldAs r.id .roundForm r s ∧ r.aux = 0 ∧ u = s ∧ r.desc = d))
    (hfind : u.regions.find? (isHere d) = some x) (hopen : openPart x.header = openPart (readRound d.slot u)) (hround : d.w2 ≠ 0)
    (hlater : startLater r x u = holdAs r k (nameRegion d.slot x.num u)) (hgoes : i = .roundFormRelease r.id → k ≠ .roundForm) :
    Completes i s fun t => (∀ y ∈ t.regions, y.slot = d.slot.val → (y.current = true ↔ y.num = x.num)) ∧
      ∃ y : DescRec, descOf r.id t = some y ∧ y.hold = k ∧ y.desc = d := by
  have hstart := startRound_later hd hpage hfault hbinding hg hheader hpal hfind hopen hround
  rw [hlater] at hstart
  have hheld : descOf r.id (startRound r u) = some { r with hold := k, since := mono (nameRegion d.slot x.num u) } := by
    rw [hstart]
    exact descOf_holdAs r k _
  refine completes_startRound hi (fun hrel z hz => ?_) ⟨fun y hy => ?_, _, (descOf_congr (shown _).2.2 r.id).trans hheld, rfl, hd⟩
  · obtain rfl := Option.some.inj (hheld.symm.trans hz)
    show (k == .roundForm && r.aux == 0) = false
    rw [beq_eq_false_iff_ne.2 (hgoes hrel)]
    rfl
  · rw [(shown _).1, hstart, regions_holdAs] at hy
    exact current_nameRegion y hy

end

theorem startLater_admission {r : DescRec} {x : Region} {u : State} (hopen : x.openId = none) (hround : r.desc.w2 ≠ 0)
    (hdue : r.desc.w2.toNat = x.roundSent ∨
      (r.desc.w2.toNat = x.roundSent + 1 ∧ atBoundary x u = true ∧ stepsInForce x r.desc.w2.toNat ≤ x.stepsSince)) :
    startLater r x u = holdAs r .admission (nameRegion r.desc.slot x.num u) := by
  have hnonzero : r.desc.w2.toNat ≠ 0 := fun h => hround (BitVec.eq_of_toNat_eq h)
  unfold startLater
  extract_lets n slot
  rw [hopen, if_neg (by exact Bool.false_ne_true)]
  rcases hdue with hagain | ⟨hnext, hbound, hsteps⟩
  · refine if_pos ?_
    rw [Bool.and_eq_true, beq_iff_eq, bne_iff_ne]
    exact ⟨hagain, hnonzero⟩
  · have hfirst : (n == x.roundSent && n != 0) = false := by
      rw [beq_eq_false_iff_ne.2 (show n ≠ x.roundSent by omega)]
      rfl
    have hseq : (n != x.roundSent + 1) = false := bne_eq_false_iff_eq.2 hnext
    have hready : (!atBoundary x u || decide (x.stepsSince < stepsInForce x n)) = false := by
      rw [hbound, decide_eq_false (Nat.not_lt.2 hsteps)]
      rfl
    rw [hfirst, hseq, hready, if_neg Bool.false_ne_true, if_neg Bool.false_ne_true, if_neg Bool.false_ne_true]

theorem startLater_roundForm {r : DescRec} {x : Region} {u : State} (hopen : x.openId = none) (hnext : r.desc.w2.toNat = x.roundSent + 1)
    (hwaits : atBoundary x u = false ∨ x.stepsSince < stepsInForce x r.desc.w2.toNat) :
    startLater r x u = holdAs r .roundForm (nameRegion r.desc.slot x.num u) := by
  unfold startLater
  extract_lets n slot
  have hfirst : (n == x.roundSent && n != 0) = false := by
    rw [beq_eq_false_iff_ne.2 (show n ≠ x.roundSent by omega)]
    rfl
  have hseq : (n != x.roundSent + 1) = false := bne_eq_false_iff_eq.2 hnext
  have hready : (!atBoundary x u || decide (x.stepsSince < stepsInForce x n)) = true := by
    rw [Bool.or_eq_true, Bool.not_eq_true', decide_eq_true_eq]
    exact hwaits
  rw [hopen, if_neg (by exact Bool.false_ne_true), hfirst, hseq, hready, if_neg Bool.false_ne_true, if_neg Bool.false_ne_true, if_pos rfl]

/-- Settles O46: a region that opens keeps what it was given while its sites are told, and every other event changes one region or pen pal. -/
theorem roundsAndPenPals : Obligations.RoundsAndPenPals := by
  unfold Obligations.RoundsAndPenPals
  refine ⟨fun d s r u i b off g hi => ?_, fun pal num j l s x p hx hj hp hl hdue => completes_roundStateSend hx hj hp hl hdue,
    fun l it sender num s u x p hpol hself hx => fun hp hother hsender => completes_roundStateReceive hpol hself hx hp hother hsender,
    fun l it sender s u x p j k hpol hself hx hj hp hk hroom hsome => completes_roundPullReceive hpol hself hx hj hp hk hroom hsome,
    fun l sender group rec' s x p hup hjoins hfind hx => fun hp hother hsender hform hsite hlate hnew hcfg hnorm =>
      completes_differenceReceive hup hjoins hfind hx hp hother hsender hform hsite hlate hnew hcfg hnorm,
    fun num s x hx hbound hopen hfinal => completes_roundMerge hx hbound hopen hfinal,
    fun num site s x t0 hx hheld hother hreach hdue => completes_roundWaitTimeout hx hheld hother hreach hdue,
    fun pal s p t0 hp hreach hlast hdue => completes_palUnreachableTimeout hp hreach hlast hdue⟩
  intro len h here hpage hfault hbinding hg hheader hpal
  have hd : r.desc = d := by
    rcases hi with ⟨-, hstarts⟩ | ⟨-, -, -, -, hd⟩
    · exact hstarts.desc.1
    · exact hd
  constructor
  · intro hnone hzero hclosed hlive n hledger hcount hframes
    exact completes_roundSend_new hd hpage hfault hbinding hg hheader hpal hi hnone hzero hclosed hlive hledger hcount hframes
  · intro x hfind hopenPart hopen hround n named
    subst hd
    constructor
    · intro hdue
      exact completes_roundSend_held rfl hpage hfault hbinding hg hheader hpal hi hfind hopenPart hround (startLater_admission hopen hround hdue)
        (fun _ hk => by cases hk)
    · intro hsend hnext hwaits
      exact completes_roundSend_held rfl hpage hfault hbinding hg hheader hpal hi hfind hopenPart hround (startLater_roundForm hopen hnext hwaits)
        (fun hrel => by rw [hsend] at hrel; cases hrel)

end Sys2Proof.Machine
end

section
/-!
The stages of bring-up up to the links (Machine/BringUp.lean; R392, R393, R407, R411 to R418).
-/

namespace Sys2Proof.Machine

/-! ## Stages 0 to 2 -/

theorem completes_stagePower {s : State} (hstage : s.mod.stage = 0) (hin : s.mod.inputInRange = true) (htrip : s.mod.thermTrip = false) :
    Completes .stagePower s fun t => t.mod.stage = 1 ∧ t.mod.pwrGood = true ∧ SameMemory s t ∧ t.slots = s.slots ∧ t.groups = s.groups ∧
      (s.mod.warm = true → ∀ l : Nat, (linkOf l t).state = 0) ∧ (s.mod.warm = false → { t with mod := s.mod } = s) := by
  have hexec : execStagePower s = .next (modMod (fun m => { m with stage := 1, statusUnread := m.statusUnread || !m.pwrGood, pwrGood := true })
      (if s.mod.warm = true then restLinks s else s)) := by
    simp only [execStagePower, hstage, hin, htrip, beq_self_eq_true, Bool.not_false, Bool.and_self, if_true]
  cases hwarm : s.mod.warm
  · rw [hwarm, if_neg Bool.false_ne_true] at hexec
    exact ⟨_, hexec, rfl, rfl, ⟨rfl, rfl, rfl⟩, rfl, rfl, nofun, fun _ => rfl⟩
  · rw [hwarm, if_pos rfl] at hexec
    exact ⟨_, hexec, rfl, rfl, ⟨rfl, rfl, rfl⟩, rfl, rfl, fun _ l => linkOf_restLinks_state l s, nofun⟩

/-- From `s` to `t` only what a flag raised with its event changes, so memory and flash stay. -/
theorem raised_cases (i code : Nat) (args : List Nat) (s : State) : OnlyFlags s (raiseDev i (raiseEvent code args s)) ∧
    DevRaised i s (raiseDev i (raiseEvent code args s)) :=
  ⟨(onlyFlags_raiseEvent code args s).trans (onlyFlags_raiseDev i _), devRaised_raiseDev i _⟩

theorem OnlyFlags.mod {s t : State} (h : OnlyFlags s t) : t.mod = s.mod := by
  have hquiet : quiet t = quiet s := h
  exact (congrArg State.mod hquiet :)

theorem OnlyFlags.flash {s t : State} (h : OnlyFlags s t) : t.flash = s.flash := by
  have hquiet : quiet t = quiet s := h
  exact (congrArg State.flash hquiet :)

theorem OnlyFlags.time {s t : State} (h : OnlyFlags s t) : t.time = s.time := by
  have hquiet : quiet t = quiet s := h
  exact (congrArg State.time hquiet :)

theorem fwEvents_cases (fallback bad run : Bool) (s : State) : OnlyFlags s (fwEvents fallback bad run s) ∧
    (fallback = true → (fwEvents fallback bad run s).devFlags.getLsbD 25 = true) := by
  unfold fwEvents
  extract_lets args u
  have hu : OnlyFlags s u ∧ (fallback = true → u.devFlags.getLsbD 25 = true) := by
    show OnlyFlags s (if fallback = true then _ else s) ∧ (_ → (if fallback = true then _ else s : State).devFlags.getLsbD 25 = true)
    split
    · exact ⟨(raised_cases 25 0x71 args s).1, fun _ => devFlag_of_raised (by decide) (raised_cases 25 0x71 args s).2⟩
    · next h => exact ⟨.refl s, fun hf => absurd hf h⟩
  split
  · refine ⟨hu.1.trans (raised_cases 26 0x72 args u).1, fun hf => ?_⟩
    rw [(raised_cases 26 0x72 args u).2, BitVec.getLsbD_or, hu.2 hf, Bool.true_or]
  · exact hu

/-- What a choice of firmware notes of the boot record: nothing, a first try, or a fallback. -/
structure BootNoted (s v : State) : Prop where
  rest : { v with flash := s.flash } = s
  flash : { v.flash with tryB := s.flash.tryB, tryCount := s.flash.tryCount } = s.flash

theorem fwCandidate_noted (s : State) : BootNoted s (fwCandidate s).2.2 := by
  unfold fwCandidate
  split
  · split <;> exact ⟨rfl, rfl⟩
  · exact ⟨rfl, rfl⟩

theorem BootNoted.fwSlot {s v : State} (h : BootNoted s v) (b : Bool) : fwSlot b v = fwSlot b s := by
  have hA : v.flash.slotA = s.flash.slotA := (congrArg FlashSt.slotA h.flash :)
  have hB : v.flash.slotB = s.flash.slotB := (congrArg FlashSt.slotB h.flash :)
  rw [Machine.fwSlot, Machine.fwSlot, hA, hB]

theorem BootNoted.fwGood {s v : State} (h : BootNoted s v) (b : Bool) : fwGood b v = fwGood b s := by
  have hmin : v.flash.minSvn = s.flash.minSvn := (congrArg FlashSt.minSvn h.flash :)
  rw [Machine.fwGood, Machine.fwGood, h.fwSlot, hmin]

/-- The firmware that runs once a slot has been chosen. -/
def startFw (fallback bad run : Bool) (v : State) : State :=
  fwEvents fallback bad run (modMod (fun m => { m with fwRunningB := run, fwMeasure := (fwSlot run v).digest }) v)

theorem chooseFirmware_none {s : State} (hA : fwGood false s = false) (hB : fwGood true s = false) : chooseFirmware s = none := by
  have hbad (b : Bool) : fwGood b (fwCandidate s).2.2 = false := by
    rw [(fwCandidate_noted s).fwGood]
    cases b
    · exact hA
    · exact hB
  unfold chooseFirmware
  extract_lets c v run
  have hrun : run = none := by
    show (if fwGood c.1 v = true then _ else _) = _
    rw [hbad, hbad]
    rfl
  rw [hrun]
  rfl

/-- The firmware chosen runs an image that may run: the candidate's where that may, else the other slot's. -/
theorem chooseFirmware_some {s : State} (h : fwGood false s = true ∨ fwGood true s = true) : ∃ bad run : Bool, fwGood run s = true ∧
    (fwGood (fwCandidate s).1 s = true → run = (fwCandidate s).1) ∧
    chooseFirmware s = some (startFw (fwCandidate s).2.1 bad run (fwCandidate s).2.2) := by
  have hgood := (fwCandidate_noted s).fwGood
  unfold chooseFirmware
  extract_lets c v run
  have hv (b : Bool) : fwGood b v = fwGood b s := hgood b
  cases hc : fwGood c.1 s with
  | true =>
    have hrun : run = some (c.1, false) := if_pos ((hv c.1).trans hc)
    rw [hrun]
    exact ⟨false, c.1, hc, fun _ => rfl, rfl⟩
  | false =>
    have hother : fwGood (!c.1) s = true := by
      cases hb : c.1 <;> rw [hb] at hc
      · exact h.resolve_left (by rw [hc]; exact Bool.false_ne_true)
      · exact h.resolve_right (by rw [hc]; exact Bool.false_ne_true)
    have hrun : run = some (!c.1, true) :=
      (if_neg (by rw [hv, hc]; exact Bool.false_ne_true)).trans (if_pos ((hv _).trans hother))
    rw [hrun]
    exact ⟨true, !c.1, hother, fun h => absurd h Bool.false_ne_true, rfl⟩

theorem startFw_cases {s v : State} (h : BootNoted s v) (fallback bad run : Bool) :
    (startFw fallback bad run v).mod = { s.mod with fwRunningB := run, fwMeasure := (fwSlot run s).digest } ∧
    (startFw fallback bad run v).flash = v.flash ∧ SameMemory s (startFw fallback bad run v) ∧
    (fallback = true → (startFw fallback bad run v).devFlags.getLsbD 25 = true) := by
  obtain ⟨hflags, hraised⟩ := fwEvents_cases fallback bad run (modMod (fun m => { m with fwRunningB := run, fwMeasure := (fwSlot run v).digest }) v)
  have hmod : v.mod = s.mod := (congrArg State.mod h.rest :)
  have hmem : v.memory = s.memory := (congrArg State.memory h.rest :)
  have hA : v.portA = s.portA := (congrArg State.portA h.rest :)
  have hB : v.portB = s.portB := (congrArg State.portB h.rest :)
  obtain ⟨hmemory, hmemA, hmemB⟩ := hflags.sameMemory
  refine ⟨hflags.mod.trans ?_, hflags.flash, ⟨hmemory.trans hmem, hmemA.trans (congrArg PortSt.mem hA), hmemB.trans (congrArg PortSt.mem hB)⟩, hraised⟩
  show { v.mod with fwRunningB := run, fwMeasure := (fwSlot run v).digest } = _
  rw [hmod, h.fwSlot]

theorem execStageFirmware_chosen {s t : State} (hstage : s.mod.stage = 1) (hhelper : s.flash.helperOk = true)
    (hrecord : s.flash.identityRecordOk = true) (ht : chooseFirmware s = some t) : execStageFirmware s = .next (if !t.flash.variantOk then
      goOffline 2 false t else modMod (fun m => { m with stage := 2, identity := identityOf (s.flash.identityRecord.take 1793) }) t) := by
  simp only [execStageFirmware, hstage, hhelper, hrecord, ht, bne_self_eq_false, Bool.not_true, Bool.or_self, Bool.false_eq_true, if_false]

theorem completes_stageFirmware {s : State} (hstage : s.mod.stage = 1) (hhelper : s.flash.helperOk = true) (hrecord : s.flash.identityRecordOk = true)
    (hgood : fwGood false s = true ∨ fwGood true s = true) :
    (s.flash.variantOk = false → Completes .stageFirmware s fun t => t.mod.stage = 8 ∧ t.mod.failCause = 2) ∧
    (s.flash.variantOk = true → Completes .stageFirmware s fun t =>
      t.mod.stage = 2 ∧ SameMemory s t ∧ t.mod.identity = identityOf (s.flash.identityRecord.take 1793) ∧ fwGood t.mod.fwRunningB s = true ∧
      t.mod.fwMeasure = (fwSlot t.mod.fwRunningB s).digest ∧
      (fwGood (fwCandidate s).1 s = true → t.mod.fwRunningB = (fwCandidate s).1) ∧ t.flash = (fwCandidate s).2.2.flash ∧
      ((fwCandidate s).2.1 = true → t.devFlags.getLsbD 25 = true)) := by
  obtain ⟨bad, run, hrun, hfirst, hchosen⟩ := chooseFirmware_some hgood
  have hnoted := fwCandidate_noted s
  obtain ⟨hmod, hflash, hmem, hraised⟩ := startFw_cases hnoted (fwCandidate s).2.1 bad run
  have hexec := execStageFirmware_chosen hstage hhelper hrecord hchosen
  generalize startFw (fwCandidate s).2.1 bad run (fwCandidate s).2.2 = t at hmod hflash hmem hraised hexec
  have hvariant : t.flash.variantOk = s.flash.variantOk := by
    rw [hflash]
    exact (congrArg FlashSt.variantOk hnoted.flash :)
  rw [hvariant] at hexec
  refine ⟨fun hbad => ?_, fun hok => ?_⟩
  · rw [hbad] at hexec
    exact ⟨_, hexec, rfl, rfl⟩
  · rw [hok] at hexec
    refine ⟨_, hexec, rfl, hmem, rfl, ?_, ?_, fun h => ?_, hflash, hraised⟩
    · show fwGood t.mod.fwRunningB s = true
      rw [hmod]
      exact hrun
    · show t.mod.fwMeasure = (fwSlot t.mod.fwRunningB s).digest
      rw [hmod]
    · show t.mod.fwRunningB = _
      rw [hmod]
      exact hfirst h

theorem fwCandidate_settled {s : State} (h : s.flash.tryB = none) : fwCandidate s = (s.flash.activeB, false, s) := by
  unfold fwCandidate
  rw [h]

theorem fwCandidate_first {s : State} {b : Bool} (h : s.flash.tryB = some b) (hcount : s.flash.tryCount = 0) :
    fwCandidate s = (b, false, modFlash (fun f => { f with tryCount := 1 }) s) := by
  unfold fwCandidate
  rw [h]
  exact if_pos (beq_iff_eq.2 hcount)

theorem fwCandidate_again {s : State} {b : Bool} (h : s.flash.tryB = some b) (hcount : s.flash.tryCount ≠ 0) :
    fwCandidate s = (s.flash.activeB, true, modFlash (fun f => { f with tryB := none }) s) := by
  unfold fwCandidate
  rw [h]
  exact if_neg fun hzero => hcount (beq_iff_eq.1 hzero)

theorem stageFirmware_settles {s : State} (hstage : s.mod.stage = 1) :
    ((s.flash.helperOk = false ∨ s.flash.identityRecordOk = false) → Completes .stageFirmware s (Offline 1 false s)) ∧
    (s.flash.helperOk = true → s.flash.identityRecordOk = true → fwGood false s = false → fwGood true s = false →
      Completes .stageFirmware s fun t => t.mod.stage = 8 ∧ t.mod.failCause = 1) := by
  refine ⟨fun hbad => ?_, fun hhelper hrecord hA hB => ?_⟩
  · have hcond : (!s.flash.helperOk || !s.flash.identityRecordOk) = true := by
      rw [Bool.or_eq_true, Bool.not_eq_true', Bool.not_eq_true']
      exact hbad
    have hexec : execStageFirmware s = .next (goOffline 1 false s) := by
      simp only [execStageFirmware, hstage, hcond, bne_self_eq_false, Bool.false_eq_true, if_false, if_true]
    exact ⟨_, hexec, offline_goOffline 1 false s⟩
  · have hexec : execStageFirmware s = .next (goOffline 1 false s) := by
      simp only [execStageFirmware, hstage, hhelper, hrecord, chooseFirmware_none hA hB, bne_self_eq_false, Bool.not_true, Bool.or_self,
        Bool.false_eq_true, if_false]
    exact ⟨_, hexec, rfl, rfl⟩

/-- DTIME locked at a time that no grandmaster gave. -/
def lockedAt (d : Word) (u : State) : State :=
  modMod (fun m => { m with timeUntraceable := true }) (modTime (fun x => { x with dtime := d, firstLock := true, lastSourceAt := mono u }) u)

theorem firstLock_untimed (u : State) :
    ∃ args : List Nat, firstLock none u = raiseDev 23 (raiseEvent 0x73 args (lockedAt (u.flash.lastDtime + 1000000000) u)) := ⟨_, rfl⟩

theorem lockedAt_cases (d : Word) (u : State) : SameMemory u (lockedAt d u) ∧ (lockedAt d u).time.clkLock = u.time.clkLock ∧
    (lockedAt d u).time.firstLock = true ∧ (lockedAt d u).time.dtime = d := ⟨⟨rfl, rfl, rfl⟩, rfl, rfl, rfl⟩

theorem completes_stageClocks {s : State} (hstage : s.mod.stage = 2) (ptpTime : Option Word) : Completes (.stageClocks ptpTime) s fun t =>
    t.mod.stage = 3 ∧ t.time.clkLock = BitVec.allOnes 31 ∧ SameMemory s t ∧ (s.mod.warm = true → t.time.dtime = s.time.dtime) ∧
      (s.mod.warm = false → t.time.firstLock = true ∧ (∀ x : Word, ptpTime = some x → t.time.dtime = x ∧ t.time.timeLocked = true) ∧
        (ptpTime = none → t.time.dtime = s.flash.lastDtime + 1000000000 ∧ t.devFlags.getLsbD 23 = true)) := by
  have hexec : execStageClocks ptpTime s = .next (modMod (fun m => { m with stage := 3 }) (if s.mod.warm = true
      then modTime (fun x => { x with clkLock := BitVec.allOnes 31, oscDisciplined := x.ref10Present }) s
      else firstLock ptpTime (modTime (fun x => { x with clkLock := BitVec.allOnes 31, oscDisciplined := x.ref10Present }) s))) := by
    simp only [execStageClocks, hstage, bne_self_eq_false, Bool.false_eq_true, if_false]
    rfl
  cases hwarm : s.mod.warm
  · rw [hwarm, if_neg Bool.false_ne_true] at hexec
    refine ⟨_, hexec, rfl, ?_⟩
    cases ptpTime with
    | some x => exact ⟨rfl, ⟨rfl, rfl, rfl⟩, nofun, fun _ => ⟨rfl, fun y hy => ⟨Option.some.inj hy, rfl⟩, nofun⟩⟩
    | none =>
      generalize hu : modTime (fun x => { x with clkLock := BitVec.allOnes 31, oscDisciplined := x.ref10Present }) s = u
      have hclock : u.time.clkLock = BitVec.allOnes 31 := by rw [← hu]; rfl
      have hflash : u.flash = s.flash := by rw [← hu]; rfl
      obtain ⟨umem, umemA, umemB⟩ : SameMemory s u := by rw [← hu]; exact ⟨rfl, rfl, rfl⟩
      obtain ⟨args, hlock⟩ := firstLock_untimed u
      obtain ⟨⟨vmem, vmemA, vmemB⟩, hclk, hfirst, hdtime⟩ := lockedAt_cases (u.flash.lastDtime + 1000000000) u
      rw [hlock]
      generalize lockedAt (u.flash.lastDtime + 1000000000) u = v at vmem vmemA vmemB hclk hfirst hdtime ⊢
      obtain ⟨hflags, hraised⟩ := raised_cases 23 0x73 args v
      replace hraised := devFlag_of_raised (by decide) hraised
      obtain ⟨kmem, kmemA, kmemB⟩ := hflags.sameMemory
      have htime := hflags.time
      generalize raiseDev 23 (raiseEvent 0x73 args v) = t at kmem kmemA kmemB htime hraised
      refine ⟨?_, ⟨kmem.trans (vmem.trans umem), kmemA.trans (vmemA.trans umemA), kmemB.trans (vmemB.trans umemB)⟩, nofun, fun _ => ⟨?_, nofun, fun _ => ⟨?_, hraised⟩⟩⟩
      · show t.time.clkLock = _
        rw [htime, hclk, hclock]
      · show t.time.firstLock = _
        rw [htime, hfirst]
      · show t.time.dtime = _
        rw [htime, hdtime, hflash]
  · rw [hwarm, if_pos rfl] at hexec
    exact ⟨_, hexec, rfl, rfl, ⟨rfl, rfl, rfl⟩, fun _ => rfl, nofun⟩

/-! ## Stage 4: links below Authenticating judged absent (R407) -/

/-- A link judged absent. -/
def absentLink (k : Link) : Link := { k with rollJudged := true, rollOutcome := 4 }

theorem judgeAbsent_cases {l : Nat} {t : Topology} {s : State} (ht : s.flash.topology = some t) :
    OnlyFlags (modLink l absentLink s) (judgeAbsent l s) := by
  unfold judgeAbsent
  rw [ht]
  dsimp only
  split
  · exact (raised_cases 22 0x70 _ _).1
  · exact .refl _

/-- Links judged absent where an image is held; nothing else but flags changes. -/
theorem foldl_judgeAbsent (ls : List Nat) (s : State) : SameMemory s (ls.foldl (fun s l => judgeAbsent l s) s) ∧
    (s.flash.topology.isSome = true → ∀ l : Nat, (l ∈ ls ∨ ((linkOf l s).rollJudged = true ∧ (linkOf l s).rollOutcome = 4)) →
      (linkOf l (ls.foldl (fun s l => judgeAbsent l s) s)).rollJudged = true ∧ (linkOf l (ls.foldl (fun s l => judgeAbsent l s) s)).rollOutcome = 4) := by
  cases htop : s.flash.topology with
  | none =>
    refine ⟨?_, nofun⟩
    have hidle (l : Nat) : judgeAbsent l s = s := by rw [judgeAbsent, htop]
    have hall : ls.foldl (fun s l => judgeAbsent l s) s = s := by
      induction ls with
      | nil => rfl
      | cons k ls ih =>
        rw [List.foldl_cons, hidle]
        exact ih
    rw [hall]
    exact ⟨rfl, rfl, rfl⟩
  | some t =>
    induction ls generalizing s with
    | nil => exact ⟨⟨rfl, rfl, rfl⟩, fun _ l hl => hl.resolve_left List.not_mem_nil⟩
    | cons k ls ih =>
      have hflags := judgeAbsent_cases (l := k) htop
      have hlinks (l : Nat) : linkOf l (judgeAbsent k s) = linkOf l (modLink k absentLink s) := linkOf_congr hflags.links l
      obtain ⟨hmem, hmemA, hmemB⟩ := hflags.sameMemory
      obtain ⟨⟨kmem, kmemA, kmemB⟩, hjudged⟩ := ih (judgeAbsent k s) (by rw [hflags.flash]; exact htop)
      refine ⟨⟨kmem.trans hmem, kmemA.trans hmemA, kmemB.trans hmemB⟩, fun hsome l hl => hjudged hsome l ?_⟩
      rw [hlinks]
      by_cases hlk : l = k
      · rw [hlk, linkOf_modLink]
        exact .inr ⟨rfl, rfl⟩
      · rw [linkOf_modLink_other _ _ _ _ hlk]
        exact hl.imp_left fun h => (List.mem_cons.1 h).resolve_left hlk

theorem completes_stageLinks {s : State} (hstage : s.mod.stage = 4) : Completes .stageLinks s fun t => t.mod.stage = 5 ∧ SameMemory s t ∧
    ∀ l : Nat, l < 36 → linkInMask l s = true → (linkOf l s).state < 2 → s.flash.topology.isSome = true →
      (linkOf l t).rollJudged = true ∧ (linkOf l t).rollOutcome = 4 := by
  have hexec : execStageLinks s = .next (modMod (fun m => { m with stage := 5 })
      (((List.range 36).filter fun l => linkInMask l s && decide ((linkOf l s).state < 2)).foldl (fun s l => judgeAbsent l s) s)) := by
    simp only [execStageLinks, hstage, bne_self_eq_false, Bool.false_eq_true, if_false]
  obtain ⟨hmem, hjudged⟩ := foldl_judgeAbsent ((List.range 36).filter fun l => linkInMask l s && decide ((linkOf l s).state < 2)) s
  refine ⟨_, hexec, rfl, hmem, fun l hl hmask hdown hsome => hjudged hsome l (.inl ?_)⟩
  rw [List.mem_filter, List.mem_range, hmask, decide_eq_true hdown]
  exact ⟨hl, rfl⟩

end Sys2Proof.Machine
end

section
/-!
The stages of bring-up from memory to the cores (Machine/BringUp.lean; R251, R395, R396, R398, R402).
-/

namespace Sys2Proof.Machine

/-! ## What placing slots and draining stacks keep -/

/-- A state without its memory, its flash, flags, messages and the report card. -/
def besideStore (s : State) : State := quiet { s with memory := {}, flash := {} }

/-- From `s` to `t` only memory and flash have changed, with events and flags raised: the fast tier's bytes stay, and a channel that is out stays
out. -/
structure MapsOut (s t : State) : Prop where
  rest : besideStore t = besideStore s
  fast : t.memory.fast = s.memory.fast
  channelOut : ∀ c ∈ s.flash.channelOut, c ∈ t.flash.channelOut
  out : ∀ c : Nat, (memChanOf c s).out = true → (memChanOf c t).out = true

theorem MapsOut.refl (s : State) : MapsOut s s := ⟨rfl, rfl, fun _ h => h, fun _ h => h⟩

theorem MapsOut.trans {s t u : State} (h : MapsOut s t) (k : MapsOut t u) : MapsOut s u :=
  ⟨k.rest.trans h.rest, k.fast.trans h.fast, fun c hc => k.channelOut c (h.channelOut c hc), fun c hc => k.out c (h.out c hc)⟩

theorem MapsOut.foldl {α : Type} {f : State → α → State} (h : ∀ s x, MapsOut s (f s x)) (xs : List α) (s : State) : MapsOut s (xs.foldl f s) := by
  induction xs generalizing s with
  | nil => exact .refl s
  | cons x xs ih => exact (h s x).trans (ih _)

theorem OnlySlots.mapsOut {s t : State} (h : OnlySlots s t) : MapsOut s t :=
  ⟨(congrArg besideStore h.rest :), h.fast, by rw [h.channelOut]; exact fun _ h => h, fun c hc => by rw [h.memChanOf]; exact hc⟩

theorem MapsOut.stepKeeps {s t : State} (h : MapsOut s t) : StepKeeps s t :=
  .of_same (congrArg State.groups h.rest :) (congrArg State.descs h.rest :) (congrArg State.mate h.rest :)

theorem mapsOut_modStack (m : Nat) (f : StackSt → StackSt) (s : State) : MapsOut s (modStack m f s) := ⟨rfl, rfl, fun _ h => h, fun _ h => h⟩

theorem mem_markOut {ch c : Nat} {s : State} (h : c = ch ∨ c ∈ s.flash.channelOut) : c ∈ (markOut ch s).flash.channelOut := by
  show c ∈ (s.flash.channelOut.filter fun c => decide (c < ch)) ++ [ch] ++ s.flash.channelOut.filter fun c => decide (ch < c)
  rw [List.mem_append, List.mem_append, List.mem_filter, List.mem_filter, List.mem_singleton, decide_eq_true_iff, decide_eq_true_iff]
  rcases h with h | h
  · exact .inl (.inr h)
  · rcases Nat.lt_trichotomy c ch with hlt | heq | hgt
    · exact .inl (.inl ⟨h, hlt⟩)
    · exact .inl (.inr heq)
    · exact .inr ⟨h, hgt⟩

theorem out_markOut {ch c : Nat} {s : State} (h : c = ch ∨ (memChanOf c s).out = true) : (memChanOf c (markOut ch s)).out = true := by
  show (memChanOf c (modMemChan ch (fun c => { c with out := true }) s)).out = true
  rw [memChanOf_modMemChan]
  split
  · rfl
  · next hne => exact h.resolve_left fun heq => hne heq

theorem mapsOut_markOut (ch : Nat) (s : State) : MapsOut s (markOut ch s) := ⟨rfl, rfl, fun _ h => mem_markOut (.inr h), fun _ h => out_markOut (.inr h)⟩

theorem mapsOut_outChannel (ch : Nat) (s : State) : MapsOut s (outChannel ch s) := by
  unfold outChannel
  split
  · exact .refl s
  · exact (mapsOut_markOut ch s).trans (OnlySlots.channelOutEvent ch 5 _).mapsOut

theorem mapsOut_placeSlot (slot : Nat) (s : State) : MapsOut s (placeSlot s slot) := by
  unfold placeSlot
  split
  · exact (OnlySlots.setMap _ _ s).mapsOut
  · exact ((OnlySlots.raiseEvent _ _ s).trans (OnlySlots.raiseDev 8 _)).mapsOut

theorem mapsOut_settleDrain (m : Nat) (s : State) : MapsOut s (settleDrain m s) := by
  unfold settleDrain
  split
  · exact (mapsOut_modStack m _ s).trans (.foldl (f := fun s k => outChannel (16 * m + k) s) (fun v k => mapsOut_outChannel (16 * m + k) v) _ _)
  · exact .refl s

theorem mapsOut_drainHot (m : Nat) (s : State) : MapsOut s (drainHot s m) := by
  have hkept (v : State) : MapsOut v ((List.range 16).foldl (fun s i => keepParked (16 * m + i) s) v) :=
    .foldl (fun u i => (onlySlots_keepParked (16 * m + i) u).mapsOut) _ v
  have hplaced (xs : List Nat) (v : State) : MapsOut v (xs.foldl placeSlot v) := .foldl (fun u i => mapsOut_placeSlot i u) xs v
  unfold drainHot
  extract_lets k u
  split
  · exact .refl s
  · exact (((mapsOut_modStack m _ s).trans (hkept u)).trans (hplaced _ _)).trans (mapsOut_settleDrain m _)

/-! ## Stage 3 of a cold start (R251, R392) -/

/-- A channel that training has mapped out. -/
def LeftOut (c : Nat) (s : State) : Prop := c ∈ s.flash.channelOut ∧ (memChanOf c s).out = true

theorem MapsOut.leftOut {s t : State} (h : MapsOut s t) {c : Nat} (hc : LeftOut c s) : LeftOut c t := ⟨h.channelOut c hc.1, h.out c hc.2⟩

theorem leftOut_trainChannel {trained : BitVec 384} {c d : Nat} {s : State} (hc : trained.getLsbD c = false) (h : c = d ∨ LeftOut c s) :
    LeftOut c (trainChannel trained s d) := by
  unfold trainChannel
  split
  · next hd =>
    have hne : c ≠ d := fun heq => by rw [heq, hd] at hc; exact absurd hc.symm Bool.false_ne_true
    obtain ⟨hmem, hout⟩ := h.resolve_left hne
    exact ⟨List.mem_filter.2 ⟨hmem, bne_iff_ne.2 hne⟩, hout⟩
  · refine (OnlySlots.channelOutEvent d 3 _).mapsOut.leftOut ⟨mem_markOut (h.imp_right And.left), ?_⟩
    rw [memChanOf_modMemChan]
    have hout : (memChanOf c (markOut d s)).out = true := out_markOut (h.imp_right And.right)
    split
    · next heq =>
      rw [heq] at hout
      exact hout
    · exact hout

theorem leftOut_foldl_trainChannel {trained : BitVec 384} {c : Nat} (hc : trained.getLsbD c = false) (ds : List Nat) (s : State)
    (h : c ∈ ds ∨ LeftOut c s) : LeftOut c (ds.foldl (trainChannel trained) s) := by
  induction ds generalizing s with
  | nil => exact h.resolve_left List.not_mem_nil
  | cons d ds ih =>
    refine ih _ ?_
    rcases h with h | h
    · rcases List.mem_cons.1 h with heq | hmem
      · exact .inr (leftOut_trainChannel hc (.inl heq))
      · exact .inl hmem
    · exact .inr (leftOut_trainChannel hc (.inr h))

theorem coldMemory_cases (trained : BitVec 384) (s : State) : (coldMemory trained s).memory.fast = [] ∧
    ∀ c : Nat, c < 384 → trained.getLsbD c = false → LeftOut c (coldMemory trained s) := by
  unfold coldMemory
  extract_lets s₁ s₂ s₃
  have hplaced (xs : List Nat) (v : State) : MapsOut v (xs.foldl placeSlot v) := .foldl (fun u i => mapsOut_placeSlot i u) xs v
  have hdrained (xs : List Nat) (v : State) : MapsOut v (xs.foldl drainHot v) := .foldl (fun u m => mapsOut_drainHot m u) xs v
  have hmap (f : FlashSt → FlashSt) (hf : ∀ x, (f x).channelOut = x.channelOut) (v : State) : MapsOut v (modFlash f v) :=
    ⟨rfl, rfl, fun c hc => by show c ∈ (f v.flash).channelOut; rw [hf]; exact hc, fun _ h => h⟩
  have hs₃ : MapsOut s₂ s₃ := hplaced _ s₂
  have hall := (hs₃.trans (hmap (fun f => { f with map := s₃.memory.map }) (fun _ => rfl) s₃)).trans (hdrained (List.range 24) _)
  refine ⟨hall.fast, fun c hlt hc => hall.leftOut ?_⟩
  have hs₁ : LeftOut c s₁ := leftOut_foldl_trainChannel hc _ s (.inl (List.mem_range.2 hlt))
  exact hs₁

theorem completes_stageMemory_cold {s : State} (hstage : s.mod.stage = 3) (hwarm : s.mod.warm = false) (trained : BitVec 384) :
    (stackDead trained = true → Completes (.stageMemory trained) s (Offline 4 false s)) ∧
    (stackDead trained = false → Completes (.stageMemory trained) s fun t => t.mod.stage = 4 ∧ t.memory.fast = [] ∧
      ∀ c : Nat, c < 384 → trained.getLsbD c = false → c ∈ t.flash.channelOut ∧ (memChanOf c t).out = true) := by
  refine ⟨fun hdead => ?_, fun hlive => ?_⟩
  · have hexec : execStageMemory trained s = .next (goOffline 4 false s) := by
      simp only [execStageMemory, hstage, hwarm, hdead, bne_self_eq_false, Bool.false_eq_true, if_false, if_true]
    exact ⟨_, hexec, offline_goOffline 4 false s⟩
  · have hexec : execStageMemory trained s = .next (modMod (fun m => { m with stage := 4 }) (coldMemory trained s)) := by
      simp only [execStageMemory, hstage, hwarm, hlive, bne_self_eq_false, Bool.false_eq_true, if_false]
    obtain ⟨hfast, hout⟩ := coldMemory_cases trained s
    generalize coldMemory trained s = u at hexec hfast hout
    exact ⟨_, hexec, rfl, hfast, hout⟩

/-! ## Stage 3 of a warm start (R395, R396, R398) -/

theorem stepKeeps_vaWrite (slot va : Nat) (bs : List Byte) (s : State) : StepKeeps s (vaWrite slot va bs s) :=
  stepKeeps_of_besideMemory (besideMemory_vaWrite slot va bs s)

theorem stepKeeps_releaseStaging (p : Pass) (s : State) : StepKeeps s (releaseStaging p s) := by
  unfold releaseStaging
  split
  · exact .refl s
  · split
    · exact .refl s
    · exact .of_same rfl rfl rfl

theorem stepKeeps_dropPass (p : Pass) (s : State) : StepKeeps s (dropPass p s) := by
  unfold dropPass
  extract_lets s₁ s₂
  have hs₁ : StepKeeps s s₁ := .of_same rfl rfl rfl
  have hs₂ : StepKeeps (releaseStaging p s₁) s₂ := .of_same rfl rfl rfl
  exact ((hs₁.trans (stepKeeps_releaseStaging p s₁)).trans hs₂).trans (.of_same rfl rfl rfl)

theorem stepKeeps_drawFree (n : Nat) (s : State) : StepKeeps s (drawFree n s) := .of_same rfl rfl rfl

theorem stepKeeps_endPass (p : Pass) (detail : BitVec 16) (result0 : Word) (s : State) : StepKeeps s (endPass p detail result0 s) := by
  have hspoil : StepKeeps s (spoilDst p s) := by
    unfold spoilDst
    split
    · exact (stepKeeps_vaWrite _ _ _ s).trans (stepKeeps_drawFree _ _)
    · exact .refl s
  unfold endPass
  extract_lets u
  have hu : StepKeeps s u := by
    refine StepKeeps.trans ?_ (stepKeeps_dropPass p _)
    split
    · exact .refl s
    · exact hspoil
  split
  · exact hu.trans (stepKeeps_finish _ _ _ _ u)
  · exact hu

theorem stepKeeps_endRun (u : Run) (detail : BitVec 16) (result0 : Word) (s : State) : StepKeeps s (endRun u detail result0 s) := by
  unfold endRun
  extract_lets v
  have hv : StepKeeps s v := .of_same rfl rfl rfl
  split
  · exact hv.trans (stepKeeps_finish _ _ _ _ v)
  · exact hv

theorem stepKeeps_spoilOutputs (u : Run) (s : State) : StepKeeps s (spoilOutputs u s) := by
  have hone (v : State) (r : Nat × Nat) : StepKeeps v (drawFree r.2 (vaWrite u.slot r.1 (freeBytes r.2 v) v)) :=
    (stepKeeps_vaWrite u.slot r.1 _ v).trans (stepKeeps_drawFree r.2 _)
  exact .foldl hone u.outs s

theorem stepKeeps_keepRun (u : Run) (s : State) : StepKeeps s (keepRun s u) := by
  unfold keepRun
  split
  · exact .refl s
  · split
    · exact .of_same rfl rfl rfl
    · exact (stepKeeps_spoilOutputs u s).trans (stepKeeps_endRun u _ _ _)

theorem StepKeeps.group {s t : State} (k : StepKeeps s t) {h : Group} (hh : h ∈ t.groups) : ∃ g ∈ s.groups, g.id = h.id ∧ g.open' = h.open' := by
  have hmem : stepKey h ∈ s.groups.map stepKey := by
    rw [← k.groups]
    exact List.mem_map_of_mem hh
  obtain ⟨g, hg, hkey⟩ := List.mem_map.1 hmem
  exact ⟨g, hg, (congrArg Group.id hkey :), (congrArg Group.open' hkey :)⟩

/-- A step undone at a start closes its group's step. -/
theorem undoStart_group {s : State} {g h : Group} (hh : h ∈ (undoStart s g).groups) : h.open' = none ∨
    ((∃ k ∈ s.groups, k.id = h.id ∧ k.open' = h.open') ∧ (g.open'.isSome = true → g.id ≠ h.id)) := by
  unfold undoStart at hh
  split at hh
  · next hnone => exact .inr ⟨⟨h, hh, rfl, rfl⟩, fun hsome => by rw [hnone] at hsome; exact absurd hsome Bool.false_ne_true⟩
  · next n _ =>
    extract_lets s₁ s₂ d₀ d at hh
    have hs₁ : StepKeeps s s₁ := .foldl (fun v u => stepKeeps_endRun u 0 n v) _ s
    have hs₂ : StepKeeps s₁ s₂ := .foldl (fun v p => stepKeeps_endPass p 0 n v) _ s₁
    have hs₃ := ((hs₁.trans hs₂).trans (stepKeeps_undoOpen g n s₂)).trans (stepKeeps_writeRecord g n d (now s₂) false _)
    generalize writeRecord g n d (now s₂) false (undoOpen g n s₂) = w at hh hs₃
    clear_value d s₂
    obtain ⟨k, hk, hid, hopen⟩ := (closeStep_cases g n d (now s₂) w).1.group hh
    obtain ⟨j, hj, rfl⟩ := List.mem_map.1 hk
    by_cases hg : (j.id == g.id) = true
    · rw [if_pos hg] at hopen
      exact .inl hopen.symm
    · rw [if_neg hg] at hid hopen
      obtain ⟨i, hi, hiid, hiopen⟩ := hs₃.group hj
      exact .inr ⟨⟨i, hi, hiid.trans hid, hiopen.trans hopen⟩, fun _ heq => hg (beq_iff_eq.2 (hid.trans heq.symm))⟩

theorem foldl_undoStart_group (gs : List Group) {s : State} {h : Group} (hh : h ∈ (gs.foldl undoStart s).groups) : h.open' = none ∨
    ((∃ k ∈ s.groups, k.id = h.id ∧ k.open' = h.open') ∧ ∀ g ∈ gs, g.open'.isSome = true → g.id ≠ h.id) := by
  induction gs generalizing s with
  | nil => exact .inr ⟨⟨h, hh, rfl, rfl⟩, fun _ hg => absurd hg List.not_mem_nil⟩
  | cons g gs ih =>
    rcases ih hh with hnone | ⟨⟨k, hk, hid, hopen⟩, hrest⟩
    · exact .inl hnone
    · rcases undoStart_group hk with hnone | ⟨⟨j, hj, hjid, hjopen⟩, hfirst⟩
      · exact .inl (hopen.symm.trans hnone)
      · refine .inr ⟨⟨j, hj, hjid.trans hid, hjopen.trans hopen⟩, fun x hx hsome => ?_⟩
        rcases List.mem_cons.1 hx with rfl | hmem
        · rw [← hid]
          exact hfirst hsome
        · exact hrest x hmem hsome

/-- Every step that was open is undone at a start. -/
theorem foldl_undoStart_closed {s : State} {h : Group} (hh : h ∈ (s.groups.foldl undoStart s).groups) : h.open' = none := by
  rcases foldl_undoStart_group s.groups hh with hnone | ⟨⟨k, hk, hid, hopen⟩, hrest⟩
  · exact hnone
  · cases hk' : k.open' with
    | none => exact hopen.symm.trans hk'
    | some n => exact absurd hid (hrest k hk (by rw [hk']; rfl))

theorem warmMemory_cases (s : State) : (warmMemory s).flash.cleanStop = false ∧ (warmMemory s).nmu.misses = [] ∧
    ∀ g ∈ (warmMemory s).groups, g.open' = none := by
  unfold warmMemory
  extract_lets s₁ s₂ idle s₃ s₄ s₅
  refine ⟨rfl, rfl, fun g hg => ?_⟩
  have hpasses : StepKeeps s₄ s₅ := .foldl (fun v p => stepKeeps_endPass p _ _ v) _ s₄
  have hruns : StepKeeps s₅ (s₅.runs.foldl keepRun s₅) := .foldl (fun v u => stepKeeps_keepRun u v) _ s₅
  have hkept := hpasses.trans hruns
  generalize s₅.runs.foldl keepRun s₅ = w at hg hkept
  obtain ⟨k, hk, -, hopen⟩ := hkept.group hg
  exact hopen.symm.trans (foldl_undoStart_closed hk)

theorem completes_stageMemory_warm {s : State} (hstage : s.mod.stage = 3) (hwarm : s.mod.warm = true) (trained : BitVec 384) :
    (coldReasons s ≠ 0 → Completes (.stageMemory trained) s (ColdStarted 5 (coldReasons s) s)) ∧
    (coldReasons s = 0 → Completes (.stageMemory trained) s fun t => t.mod.stage = 4 ∧ t.flash.cleanStop = false ∧ t.nmu.misses = [] ∧
      ∀ g ∈ t.groups, g.open' = none) := by
  refine ⟨fun hcold => ?_, fun hkept => ?_⟩
  · have hcond : (coldReasons s != 0) = true := bne_iff_ne.2 hcold
    have hexec : execStageMemory trained s = .next (coldStart 5 (coldReasons s) s) := by
      simp only [execStageMemory, hstage, hwarm, hcond, bne_self_eq_false, Bool.false_eq_true, if_false, if_true]
    exact ⟨_, hexec, coldStarted_coldStart 5 (coldReasons s) s⟩
  · have hexec : execStageMemory trained s = .next (sendMirror (modMod (fun m => { m with stage := 4 }) (warmMemory s))) := by
      simp only [execStageMemory, hstage, hwarm, hkept, bne_self_eq_false, Bool.false_eq_true, if_false, if_true]
    obtain ⟨hclean, hmisses, hgroups⟩ := warmMemory_cases s
    generalize warmMemory s = u at hexec hclean hmisses hgroups
    have hsent := mirrorSent_sendMirror (modMod (fun m => { m with stage := 4 }) u)
    refine ⟨_, hexec, (congrArg (fun u => u.mod.stage) hsent.rest :), (congrArg (fun u => u.flash.cleanStop) hsent.rest :).trans hclean,
      (congrArg NmuSt.misses hsent.nmu).trans hmisses, fun g hg => hgroups g ?_⟩
    have hsame : (sendMirror (modMod (fun m => { m with stage := 4 }) u)).groups = u.groups := hsent.groups
    rw [← hsame]
    exact hg

/-! ## Stage 5: the cores (R402) -/

theorem topology_of_besideWork {s t : State} (h : besideWork t = besideWork s) : t.flash.topology = s.flash.topology :=
  (congrArg (fun u => u.flash.topology) h :)

theorem topology_foldl {α : Type} {f : State → α → State} (h : ∀ s x, (f s x).flash.topology = s.flash.topology) (xs : List α) (s : State) :
    (xs.foldl f s).flash.topology = s.flash.topology := by
  induction xs generalizing s with
  | nil => rfl
  | cons x xs ih => exact (ih _).trans (h s x)

theorem topology_reassign (c p : Nat) (s : State) : (reassign c p s).flash.topology = s.flash.topology := by
  unfold reassign
  split
  · rfl
  · extract_lets mates mates' u
    rw [(raised_cases 15 0x61 _ u).1.flash]
    rfl

theorem topology_fenceCore (c : Nat) (s : State) : (fenceCore c s).flash.topology = s.flash.topology := by
  unfold fenceCore
  split
  · next p _ =>
    split
    · unfold fenceSlot
      extract_lets lgs hit s₁ s₂ s₃
      have hs₁ : s₁.flash.topology = s.flash.topology := rfl
      have hs₂ : s₂.flash.topology = s₁.flash.topology := topology_foldl (fun v d => topology_reassign d p v) lgs s₁
      have hs₃ : s₃.flash.topology = s₂.flash.topology := rfl
      exact (topology_foldl (fun v u => topology_of_besideWork (besideWork_rerunRun u v)) hit s₃).trans (hs₃.trans (hs₂.trans hs₁))
    · rfl
  · rfl

/-- The table of slots that have failed their test. -/
theorem tget?_failedSlots (good : BitVec 192) (ps : List Nat) (p : Nat) :
    tget? (ps.filterMap fun q => if good.getLsbD q then none else some (q, 2)) p = if p ∈ ps ∧ good.getLsbD p = false then some 2 else none := by
  induction ps with
  | nil => rfl
  | cons q ps ih =>
    cases hq : good.getLsbD q with
    | true =>
      rw [List.filterMap_cons_none (by rw [hq]; rfl), ih]
      refine if_congr ⟨fun h => ⟨List.mem_cons_of_mem _ h.1, h.2⟩, fun h => ⟨(List.mem_cons.1 h.1).resolve_left fun heq => ?_, h.2⟩⟩ rfl rfl
      rw [← heq, h.2] at hq
      exact Bool.false_ne_true hq
    | false =>
      rw [List.filterMap_cons_some (b := (q, 2)) (by rw [hq]; rfl), tget?]
      by_cases hqp : q = p
      · rw [if_pos (beq_iff_eq.2 hqp), if_pos ⟨by rw [hqp]; exact List.mem_cons_self, by rw [← hqp]; exact hq⟩]
      · rw [if_neg (fun h => hqp (beq_iff_eq.1 h)), ih]
        refine if_congr ⟨fun h => ⟨List.mem_cons_of_mem _ h.1, h.2⟩, fun h => ⟨(List.mem_cons.1 h.1).resolve_left fun heq => hqp heq.symm, h.2⟩⟩ rfl rfl

theorem tget?_numbered (ps : List Nat) (i c : Nat) : tget? ((ps.zipIdx i).map fun x => (x.2, x.1)) c = if i ≤ c then ps[c - i]? else none := by
  induction ps generalizing i with
  | nil =>
    rw [List.getElem?_nil, ite_self]
    rfl
  | cons p ps ih =>
    rw [List.zipIdx_cons, List.map_cons, tget?, ih]
    by_cases hic : i = c
    · rw [if_pos (beq_iff_eq.2 hic), if_pos (by omega), hic, Nat.sub_self]
      rfl
    · rw [if_neg (fun h => hic (beq_iff_eq.1 h))]
      by_cases hlt : i < c
      · rw [if_pos (by omega), if_pos (by omega), show c - i = c - (i + 1) + 1 by omega, List.getElem?_cons_succ]
      · rw [if_neg (by omega), if_neg (by omega)]

theorem coldCores_cases (good : BitVec 192) (s : State) : SameMemory s (coldCores good s) ∧
    (coldCores good s).flash.coreStatus = ((List.range 192).filterMap fun q => if good.getLsbD q then none else some (q, 2)) ∧
    (coldCores good s).flash.physOf = ((assignCores good s.flash.variant).zipIdx.map fun x => (x.2, x.1)) ∧
    (coldCores good s).flash.topology = s.flash.topology := by
  unfold coldCores
  extract_lets v ps u
  split
  · have hflags := (raised_cases 15 0x61 [0, 0, 0, enabledCores u] u).1
    have hflash := hflags.flash
    have hmem := hflags.sameMemory
    generalize raiseDev 15 (raiseEvent 0x61 [0, 0, 0, enabledCores u] u) = t at hflash hmem
    rw [hflash]
    exact ⟨hmem, rfl, rfl, rfl⟩
  · exact ⟨⟨rfl, rfl, rfl⟩, rfl, rfl, rfl⟩

theorem warmCores_good {good : BitVec 192} {s : State} (h : ∀ x ∈ s.flash.physOf, good.getLsbD x.2 = true) : warmCores good s = s := by
  have hnone : (s.flash.physOf.filter fun x => !good.getLsbD x.2) = [] :=
    List.filter_eq_nil_iff.2 fun x hx hbad => by rw [h x hx] at hbad; exact Bool.false_ne_true hbad
  rw [warmCores, hnone]
  rfl

theorem completes_stageCores {s : State} (hstage : s.mod.stage = 5) (good : BitVec 192) : Completes (.stageCores good) s fun t =>
    t.mod.stage = 6 ∧ t.mod.topologyWait = s.flash.topology.isNone ∧
      (s.mod.warm = true → (∀ x ∈ s.flash.physOf, good.getLsbD x.2 = true) → SameMemory s t ∧ t.flash = s.flash) ∧
      (s.mod.warm = false → SameMemory s t ∧ (∀ p : Nat, p < 192 → tgetD t.flash.coreStatus p 0 = if good.getLsbD p then 0 else 2) ∧
        ∀ c : Nat, tget? t.flash.physOf c = (assignCores good s.flash.variant)[c]?) := by
  have hexec (u : State) (hu : (if s.mod.warm = true then warmCores good s else coldCores good s) = u) : execStageCores good s =
      .next (modMod (fun m => { m with stage := 6, topologyWait := u.flash.topology.isNone }) u) := by
    rw [← hu]
    simp only [execStageCores, hstage, bne_self_eq_false, Bool.false_eq_true, if_false]
  cases hwarm : s.mod.warm
  · obtain ⟨hmem, hstatus, hphys, htopology⟩ := coldCores_cases good s
    have hcold := hexec (coldCores good s) (by rw [hwarm]; rfl)
    generalize coldCores good s = u at hcold hmem hstatus hphys htopology
    refine ⟨_, hcold, rfl, congrArg Option.isNone htopology, nofun, fun _ => ⟨hmem, fun p hp => ?_, fun c => ?_⟩⟩
    · show tgetD u.flash.coreStatus p 0 = _
      rw [hstatus, tgetD, tget?_failedSlots]
      cases hgood : good.getLsbD p with
      | true =>
        rw [if_neg fun h => Bool.false_ne_true h.2.symm]
        rfl
      | false =>
        rw [if_pos ⟨List.mem_range.2 hp, rfl⟩]
        rfl
    · show tget? u.flash.physOf c = _
      rw [hphys, tget?_numbered, if_pos (Nat.zero_le _), Nat.sub_zero]
  · have htopology : (warmCores good s).flash.topology = s.flash.topology := 
      topology_foldl (f := fun (s : State) (x : Nat × Nat) => fenceCore x.1 s) (fun v x => topology_fenceCore x.1 v) _ s
    have hkept := fun h => warmCores_good (good := good) (s := s) h
    have hwarmed := hexec (warmCores good s) (by rw [hwarm]; rfl)
    generalize warmCores good s = u at hwarmed htopology hkept
    refine ⟨_, hwarmed, rfl, congrArg Option.isNone htopology, fun _ h => ?_, nofun⟩
    rw [hkept h]
    exact ⟨⟨rfl, rfl, rfl⟩, rfl⟩

end Sys2Proof.Machine
end

section
/-!
What starting descriptors at ready keeps of the module (R408): its stage, that it is ready, the device flags that are set and the time noted in
flash. This file: the operations that descriptors share.
-/

namespace Sys2Proof.Machine

/-- From `s` to `t` the module stands at its stage, no device flag has fallen, and the time noted in flash stays. -/
structure UpStays (s t : State) : Prop where
  stage : t.mod.stage = s.mod.stage
  ready : t.mod.ready = s.mod.ready
  raised : ∀ i : Nat, s.devFlags.getLsbD i = true → t.devFlags.getLsbD i = true
  lastDtime : t.flash.lastDtime = s.flash.lastDtime

namespace UpStays

theorem of_same {s t : State} (hmod : t.mod = s.mod) (hflags : t.devFlags = s.devFlags) (hflash : t.flash = s.flash) : UpStays s t :=
  ⟨congrArg ModuleSt.stage hmod, congrArg ModuleSt.ready hmod, fun i hi => by rw [hflags]; exact hi, congrArg FlashSt.lastDtime hflash⟩

theorem refl (s : State) : UpStays s s := of_same rfl rfl rfl

theorem trans {s t u : State} (h : UpStays s t) (k : UpStays t u) : UpStays s u :=
  ⟨k.stage.trans h.stage, k.ready.trans h.ready, fun i hi => k.raised i (h.raised i hi), k.lastDtime.trans h.lastDtime⟩

theorem foldl {α : Type} {f : State → α → State} (h : ∀ s x, UpStays s (f s x)) (xs : List α) (s : State) : UpStays s (xs.foldl f s) := by
  induction xs generalizing s with
  | nil => exact refl s
  | cons x xs ih => exact (h s x).trans (ih _)

theorem ite {p : Prop} [Decidable p] {s a b : State} (ha : UpStays s a) (hb : UpStays s b) : UpStays s (if p then a else b) := by
  split
  · exact ha
  · exact hb

theorem of_besideFinish {s t : State} (h : besideFinish t = besideFinish s) : UpStays s t :=
  of_same (congrArg State.mod h :) (congrArg State.devFlags h :) (congrArg State.flash h :)

theorem of_besideMemory {s t : State} (h : besideMemory t = besideMemory s) : UpStays s t :=
  of_same (congrArg State.mod h :) (congrArg State.devFlags h :) (congrArg State.flash h :)

theorem of_besideRuns {s t : State} (h : besideRuns t = besideRuns s) : UpStays s t :=
  of_same (congrArg State.mod h :) (congrArg State.devFlags h :) (congrArg State.flash h :)

theorem of_besideDecisions {s t : State} (h : besideDecisions t = besideDecisions s) : UpStays s t :=
  of_same (congrArg State.mod h :) (congrArg State.devFlags h :) (congrArg State.flash h :)

theorem of_onlyControl {s t : State} (h : OnlyControl s t) : UpStays s t :=
  of_same (congrArg State.mod h.1 :) (congrArg State.devFlags h.1 :) (congrArg State.flash h.1 :)

theorem of_onlyQueues {s t : State} (h : OnlyQueues s t) : UpStays s t :=
  of_same (congrArg State.mod h.1 :) (congrArg State.devFlags h.1 :) (congrArg State.flash h.1 :)

theorem of_onlyStops {s t : State} (h : OnlyStops s t) : UpStays s t :=
  of_same (congrArg State.mod h.1 :) (congrArg State.devFlags h.1 :) (congrArg State.flash h.1 :)

theorem of_onlyEnds {s t : State} (h : OnlyEnds s t) : UpStays s t :=
  of_same (congrArg State.mod h.1 :) (congrArg State.devFlags h.1 :) (congrArg State.flash h.1 :)

theorem of_mirrorSent {s t : State} (h : MirrorSent s t) : UpStays s t :=
  of_same (congrArg State.mod h.rest :) (congrArg State.devFlags h.rest :) (congrArg State.flash h.rest :)

/-! ### The state's operations -/

theorem modSlot (i : Nat) (f : Slot → Slot) (s : State) : UpStays s (modSlot i f s) := of_same rfl rfl rfl
theorem modLink (l : Nat) (f : Link → Link) (s : State) : UpStays s (modLink l f s) := of_same rfl rfl rfl
theorem modEngine (i : Nat) (f : Engine → Engine) (s : State) : UpStays s (modEngine i f s) := of_same rfl rfl rfl
theorem modGroup (i : Nat) (f : Group → Group) (s : State) : UpStays s (modGroup i f s) := of_same rfl rfl rfl
theorem modRun (i : Nat) (f : Run → Run) (s : State) : UpStays s (modRun i f s) := of_same rfl rfl rfl
theorem modCore (i : Nat) (f : Core → Core) (s : State) : UpStays s (modCore i f s) := of_same rfl rfl rfl
theorem modDesc (i : Nat) (f : DescRec → DescRec) (s : State) : UpStays s (modDesc i f s) := of_same rfl rfl rfl
theorem modNmu (f : NmuSt → NmuSt) (s : State) : UpStays s (modNmu f s) := of_same rfl rfl rfl
theorem modBinding (i : Nat) (f : Binding → Binding) (s : State) : UpStays s (modBinding i f s) := of_same rfl rfl rfl
theorem modMemory (f : MemSt → MemSt) (s : State) : UpStays s (modMemory f s) := of_same rfl rfl rfl
theorem modMate (f : MateSt → MateSt) (s : State) : UpStays s (modMate f s) := of_same rfl rfl rfl
theorem modCard (f : CardSt → CardSt) (s : State) : UpStays s (modCard f s) := of_same rfl rfl rfl
theorem modRegion (i : Nat) (f : Region → Region) (s : State) : UpStays s (modRegion i f s) := of_same rfl rfl rfl
theorem withRuns (us : List Run) (s : State) : UpStays s { s with runs := us } := of_same rfl rfl rfl
theorem withPasses (ps : List Pass) (s : State) : UpStays s { s with passes := ps } := of_same rfl rfl rfl
theorem withGroups (gs : List Group) (s : State) : UpStays s { s with groups := gs } := of_same rfl rfl rfl
theorem withRegions (xs : List Region) (s : State) : UpStays s { s with regions := xs } := of_same rfl rfl rfl
theorem withStats (xs : List StatSet) (s : State) : UpStays s { s with stats := xs } := of_same rfl rfl rfl
theorem withDescs (xs : List DescRec) (s : State) : UpStays s { s with descs := xs } := of_same rfl rfl rfl
theorem drawFree (n : Nat) (s : State) : UpStays s (drawFree n s) := of_same rfl rfl rfl

theorem modChan (i : Nat) (f : Chan → Chan) (s : State) : UpStays s (modChan i f s) :=
  of_same (modChan_mod i f s) (modChan_devFlags i f s) (modChan_flash i f s)

theorem modPort (p : Port) (f : PortSt → PortSt) (s : State) : UpStays s (modPort p f s) :=
  of_same (modPort_mod p f s) (modPort_devFlags p f s) (modPort_flash p f s)

theorem modMod {f : ModuleSt → ModuleSt} (hf : ∀ m, (f m).stage = m.stage ∧ (f m).ready = m.ready) (s : State) : UpStays s (modMod f s) :=
  ⟨(hf _).1, (hf _).2, fun _ h => h, rfl⟩

theorem modFlash {f : FlashSt → FlashSt} (hf : ∀ x, (f x).lastDtime = x.lastDtime) (s : State) : UpStays s (modFlash f s) :=
  ⟨rfl, rfl, fun _ h => h, hf _⟩

theorem raiseEvent (code : Nat) (args : List Nat) (s : State) : UpStays s (raiseEvent code args s) := of_same rfl rfl rfl

theorem raiseDev (i : Nat) (s : State) : UpStays s (raiseDev i s) :=
  have hflags := onlyFlags_raiseDev i s
  ⟨congrArg ModuleSt.stage hflags.mod, congrArg ModuleSt.ready hflags.mod,
    fun j hj => by rw [devRaised_raiseDev i s, BitVec.getLsbD_or, hj, Bool.true_or], congrArg FlashSt.lastDtime hflags.flash⟩

theorem raise (i code : Nat) (args : List Nat) (s : State) : UpStays s (Machine.raiseDev i (Machine.raiseEvent code args s)) :=
  (raiseEvent code args s).trans (raiseDev i _)

end UpStays

/-! ## Ending and holding descriptors -/

theorem upStays_finish (r : DescRec) (status : BitVec 8) (detail : BitVec 16) (result0 : Word) (s : State) :
    UpStays s (finish r status detail result0 s) := .of_besideFinish (besideFinish_finish r status detail result0 s)

theorem upStays_done (r : DescRec) (result0 : Nat) (s : State) : UpStays s (done r result0 s) := upStays_finish _ _ _ _ s

theorem upStays_refuse (r : DescRec) (detail : BitVec 16) (addr : Nat) (s : State) : UpStays s (refuse r detail addr s) := upStays_finish _ _ _ _ s

theorem upStays_refuseCap (r : DescRec) (detail : BitVec 16) (s : State) : UpStays s (refuseCap r detail s) := upStays_finish _ _ _ _ s

theorem upStays_finishGone (r : DescRec) (s : State) : UpStays s (finishGone r s) := by
  unfold finishGone
  have hposted := besideFinish_postCompl (adminSlot r.port) (complOf r stGone 0 0 s) { s with descs := s.descs.filter fun x => x.id != r.id }
  exact ((UpStays.withDescs _ s).trans (.of_besideFinish hposted)).trans (.of_besideFinish (besideFinish_settleDestroy _ _))

theorem upStays_holdAs (r : DescRec) (h : Hold) (s : State) : UpStays s (holdAs r h s) := by
  have hframe := descs_holdAs_frame r h s
  exact .of_same (congrArg State.mod hframe :) (congrArg State.devFlags hframe :) (congrArg State.flash hframe :)

/-- A descriptor checked: refused, or started. -/
theorem upStays_checked {start : DescRec → State → State} (h : ∀ r s, UpStays s (start r s)) (r : DescRec) (s : State) :
    UpStays s (checked r start s) := by
  unfold checked
  extract_lets k
  refine .ite (upStays_finishGone r s) (.ite (upStays_refuse _ _ _ s) ?_)
  split
  · exact upStays_finishGone r s
  · exact .ite (upStays_refuse _ _ _ s) (.ite (upStays_refuse _ _ _ s) (.ite (upStays_refuse _ _ _ s) (.ite (upStays_refuse _ _ _ s) (h r s))))

/-! ## Memory, mappings and records -/

theorem upStays_vaStore (slot va : Nat) (bs : List Byte) (s : State) : UpStays s (vaStore slot va bs s) := .of_besideMemory (besideMemory_vaStore slot va bs s)

theorem upStays_hostWrite (p : Port) (a : Nat) (bs : List Byte) (s : State) : UpStays s (hostWrite p a bs s) := .ite (.refl s) (.modPort p _ s)

theorem upStays_freeFrames (fs : List Nat) (s : State) : UpStays s (freeFrames fs s) := .of_besideFinish (besideFinish_freeFrames fs s)

theorem upStays_dropRegions (which : Region → Bool) (s : State) : UpStays s (dropRegions which s) := .of_besideFinish (besideFinish_dropRegions which s)

theorem upStays_releaseBindings (which : Binding → Bool) (s : State) : UpStays s (releaseBindings which s) :=
  .of_besideFinish (besideFinish_releaseBindings which s)

theorem upStays_putStripe (b : Binding) (i : Nat) (x : Stripe) (s : State) : UpStays s (putStripe b i x s) := by
  unfold putStripe
  split
  · exact .modBinding _ _ s
  · exact upStays_hostWrite _ _ _ s

theorem upStays_putBlock (b : Binding) (q : Nat) (x : Block) (s : State) : UpStays s (putBlock b q x s) := by
  unfold putBlock
  split
  · exact .modBinding _ _ s
  · exact upStays_hostWrite _ _ _ s

theorem upStays_trimJournal (j fuel : Nat) (s : State) : UpStays s (trimJournal j fuel s) := by
  induction fuel generalizing s with
  | zero => exact .refl s
  | succ fuel ih =>
    unfold trimJournal
    extract_lets rs
    refine .ite (.refl s) ?_
    split
    · exact (UpStays.withGroups _ s).trans (.raise 16 0x63 _ _)
    · next r _ =>
      extract_lets u
      have hu : UpStays s u := .ite ((UpStays.modNmu _ s).trans (.raise 17 0x62 _ _)) (.refl s)
      exact (hu.trans (.modNmu _ u)).trans (ih _)

theorem upStays_appendRec (r : JRec) (s : State) : UpStays s (appendRec r s) := by
  unfold appendRec
  extract_lets j q u v
  have hv : UpStays u v := .ite (.modMate _ u) (.refl u)
  exact ((UpStays.modNmu _ s).trans hv).trans (upStays_trimJournal _ _ v)

theorem upStays_writeCard (h : CardHead) (used next : Nat) (ps : List Phase) (s : State) : UpStays s (writeCard h used next ps s) := by
  unfold writeCard
  extract_lets mk u
  have hqueue (p : Port) (v : State) : UpStays v (queueCard p mk v) := .modPort p _ v
  exact (((hqueue .A s).trans (hqueue .B _)).trans (.modCard _ u)).trans (.drawFree 7 _)

/-! ## Groups, runs and posts -/

theorem upStays_forwardDesc {g : Option Nat} {step : Option Word} {slot : Nat} {ins outs : List (Nat × Nat)} {s t : State}
    (h : forwardDesc g step slot ins outs s = some t) : UpStays s t := by
  have hrest := forwardDesc_keeps h
  exact .of_same (congrArg State.mod hrest :) (congrArg State.devFlags hrest :) (congrArg State.flash hrest :)

theorem upStays_protect (g slot : Nat) (rs : List (Nat × Nat)) (s : State) : UpStays s (protect g slot rs s) := .modGroup g _ s

theorem upStays_beginReady (s : State) : UpStays s (beginReady s) := .of_besideRuns (besideRuns_beginReady s)

theorem upStays_stopRun (r : Nat) (status : BitVec 8) (detail : BitVec 16) (result0 : Word) (s : State) : UpStays s (stopRun r status detail result0 s) :=
  .of_onlyStops (onlyStops_stopRun r status detail result0 s)

theorem upStays_settleCore (c : Nat) (s : State) : UpStays s (settleCore c s) := .of_onlyEnds (onlyEnds_settleCore c s)

theorem upStays_answerXpost (desc : Nat) (first final : Bool) (status : BitVec 8) (result0 : Word) (s : State) :
    UpStays s (answerXpost desc first final status result0 s) := by
  unfold answerXpost
  split
  · exact .refl s
  · next u _ =>
    split
    · exact .refl s
    · next x _ =>
      extract_lets v
      have hv : UpStays s v := .modRun u.id _ s
      exact .ite ((hv.trans (.modCore x.core _ v)).trans (upStays_settleCore x.core _)) hv

theorem upStays_settlePasses (s : State) : UpStays s (settlePasses s) := by
  refine UpStays.foldl (fun v p => ?_) _ s
  unfold settleRefused
  extract_lets c st w w'
  have hw : UpStays v w := (UpStays.withPasses _ v).trans (.of_onlyControl (onlyControl_sendVoid p st _ _))
  exact (hw.trans (.modGroup p.group _ w)).trans (upStays_answerXpost _ _ _ _ _ w')

theorem upStays_afterStart (s : State) : UpStays s (afterStart s) :=
  ((upStays_settlePasses s).trans (.of_besideMemory (besideMemory_showRounds _))).trans (.of_mirrorSent (mirrorSent_sendMirror _))

/-! ## Links, keys and the image -/

theorem upStays_sendItem (l : Nat) (it : Item) (s : State) : UpStays s (sendItem l it s) := .modLink l _ s

theorem upStays_raiseLink (l i : Nat) (s : State) : UpStays s (raiseLink l i s) := (UpStays.modLink l _ s).trans (.raiseDev 28 _)

theorem upStays_holdOut (l check : Nat) (s : State) : UpStays s (holdOut l check s) := by
  have hstop (v : State) : UpStays v (stopFrames l v) := by
    unfold stopFrames
    extract_lets w
    have hw : UpStays v w := .ite (.modMemory _ v) (.refl v)
    exact hw.trans (.modLink l _ w)
  unfold holdOut
  extract_lets k again secs u w
  have hu : UpStays s u := (UpStays.raiseEvent _ _ s).trans (upStays_raiseLink l 2 _)
  have hw : UpStays u w := (hstop u).trans (.modLink l _ _)
  exact (hu.trans hw).trans (.of_onlyQueues (onlyQueues_emptied l w))

theorem upStays_linkUp (l : Nat) (s : State) : UpStays s (linkUp l s) := by
  unfold linkUp
  extract_lets k u
  refine .ite (upStays_holdOut l 6 s) (.ite (upStays_holdOut l 7 s) ?_)
  have hu : UpStays s u := .ite (.modMemory _ s) (.refl s)
  exact (hu.trans (.modLink l _ u)).trans (.of_onlyQueues (onlyQueues_settleHold l _))

theorem upStays_rollMismatch (l outcome : Nat) (want found : Word × Nat) (s : State) : UpStays s (rollMismatch l outcome want found s) := .raise 22 0x70 _ s

theorem upStays_judgeLink (l : Nat) (s : State) : UpStays s (judgeLink l s) := by
  unfold judgeLink
  split
  · next t it _ _ =>
    extract_lets o st u want v
    have hu : UpStays s u := .modLink l _ s
    have hv : UpStays s v := hu.trans (upStays_rollMismatch _ _ _ _ u)
    refine .ite (.ite (hu.trans (upStays_linkUp l u)) hu) (.ite (.trans ?_ (upStays_holdOut l 0 _)) hv)
    exact .ite (hv.trans (upStays_raiseLink l 4 v)) hv
  · exact .refl s

theorem upStays_judgeAbsent (l : Nat) (s : State) : UpStays s (judgeAbsent l s) := by
  unfold judgeAbsent
  split
  · exact .refl s
  · extract_lets u
    have hu : UpStays s u := .modLink l _ s
    split
    · exact hu.trans (upStays_rollMismatch _ _ _ _ u)
    · exact hu

theorem upStays_judgeAll (s : State) : UpStays s (judgeAll s) :=
  .foldl (fun v l => .ite (upStays_judgeAbsent l v) (upStays_judgeLink l v)) _ s

theorem upStays_applyTopology (s : State) : UpStays s (applyTopology s) := by
  unfold applyTopology
  split
  · exact .refl s
  · exact .ite (.refl s) (((UpStays.modFlash (by intro _; rfl) s).trans (.modMod (by intro _; exact ⟨rfl, rfl⟩) _)).trans (upStays_judgeAll _))

theorem upStays_acceptTopology (t : Topology) (s : State) : UpStays s (acceptTopology t s) := by
  unfold acceptTopology
  extract_lets u
  have hu : UpStays s u := (UpStays.modFlash (by intro _; rfl) s).trans (.modMod (by intro _; exact ⟨rfl, rfl⟩) _)
  refine .ite ((UpStays.modMod (by intro _; exact ⟨rfl, rfl⟩) s).trans (upStays_applyTopology _)) (.ite ?_ (hu.trans (upStays_judgeAll u)))
  exact hu.trans (.foldl (fun v l => .ite (upStays_judgeLink l v) (.refl v)) _ u)

theorem upStays_startKex (l : Nat) (slot : Bool) (s : State) : UpStays s (startKex l slot s) := by
  unfold startKex
  extract_lets session kem nonce u body offer v x
  refine .ite (.refl s) ?_
  have hv : UpStays s v := (UpStays.drawFree 97 s).trans (.drawFree 65 u)
  exact (hv.trans (.modLink l _ v)).trans (.foldl (fun w it => upStays_sendItem l it w) _ _)

theorem upStays_askKex (l : Nat) (s : State) : UpStays s (askKex l s) := by
  unfold askKex
  extract_lets k
  exact .ite (.refl s) (.ite (upStays_startKex l _ s) (upStays_sendItem l _ s))

theorem upStays_abortKex (l cause : Nat) (authFail : Bool) (s : State) : UpStays s (abortKex l cause authFail s) := by
  have hend (v : State) : UpStays v (endKex l authFail v) := by
    unfold endKex
    split
    · exact .refl v
    · extract_lets up u w
      have hu : UpStays v u := .modLink l _ v
      have hw : UpStays v w := hu.trans (.ite (upStays_raiseLink l 4 u) (.refl u))
      exact .ite (hw.trans (upStays_holdOut l 0 w)) hw
  unfold abortKex
  split
  · exact .refl s
  · exact (upStays_sendItem l _ s).trans (hend _)

theorem upStays_fillSlot (l : Nat) (slot rx : Bool) (key : List Byte) (const : W32) (s : State) : UpStays s (fillSlot l slot rx key const s) := by
  unfold fillSlot
  extract_lets n v u
  have hu : UpStays s u := by
    show UpStays s (match (linkOf l s).kex with | some x => _ | none => s)
    split
    · exact .ite ((upStays_abortKex l 4 false s).trans (.modLink l _ _)) (.refl s)
    · exact .refl s
  exact .ite ((hu.trans (.modLink l _ u)).trans (upStays_sendItem l _ _)) (hu.trans (.modLink l _ u))

theorem upStays_sendRollCall (l : Nat) (s : State) : UpStays s (sendRollCall l s) := (UpStays.modLink l _ s).trans (upStays_sendItem l _ _)

end Sys2Proof.Machine
end

section
/-!
What starting descriptors at ready keeps of the module (R408): the starts of Tables 02-8 and 02-9, and the passing of roll call.
-/

namespace Sys2Proof.Machine

/-! ## Work descriptors (Table 02-8) -/

theorem upStays_admitRun (r : DescRec) (c : Chan) (u : Run) (measure : List Byte) (s : State) : UpStays s (admitRun r c u measure s) := by
  unfold admitRun
  extract_lets d slot pg loads page image
  refine .ite (upStays_refuseCap r 0 s) (.ite (upStays_refuseCap r 0 s) ?_)
  split
  · exact upStays_refuseCap r _ s
  · next t ht =>
    extract_lets v w x y
    have hv : UpStays t v := .ite (.of_same rfl rfl rfl) (.refl t)
    have hw : UpStays v w := by
      show UpStays v (match r.group with | some g => _ | none => v)
      split
      · exact upStays_protect _ _ _ v
      · exact .refl v
    have hx : UpStays w x := .modChan slot _ w
    exact ((((((upStays_forwardDesc ht).trans hv).trans hw).trans hx).trans (upStays_holdAs r .run x)).trans (.withRuns _ y)).trans (upStays_beginReady _)

theorem upStays_startLesson (r : DescRec) (s : State) : UpStays s (startLesson r s) := by
  have hrefuse (detail : BitVec 16) (addr : Nat) : UpStays s (refuse r detail addr s) := upStays_refuse r detail addr s
  unfold startLesson
  extract_lets d slot image argc nin nreg base regs h entry measure
  split
  · exact upStays_finishGone r s
  · split
    · exact hrefuse _ _
    · refine .ite (hrefuse _ _) ?_
      split
      · exact hrefuse _ _
      · split
        · exact hrefuse _ _
        · refine .ite (hrefuse _ _) ?_
          split
          · exact hrefuse _ _
          · split
            · exact hrefuse _ _
            · split
              · exact hrefuse _ _
              · refine .ite (hrefuse _ _) ?_
                split
                · exact hrefuse _ _
                · split
                  · exact hrefuse _ _
                  · extract_lets code data
                    refine .ite (hrefuse _ _) ?_
                    split
                    · exact hrefuse _ _
                    · exact upStays_admitRun r _ _ measure s

theorem upStays_rejectItem (e row kind : Nat) (s : State) : UpStays s (rejectItem e row kind s) := (UpStays.modEngine e _ s).trans (.raise 14 0x38 _ _)

theorem upStays_finishMove (r : DescRec) (c : Chan) (raw : List Byte) (fail : Option (Nat × Nat)) (s : State) : UpStays s (finishMove r c raw fail s) := by
  unfold finishMove
  extract_lets d slot src out bytes f
  split
  · exact upStays_refuseCap r _ s
  · next t ht =>
    extract_lets e v w x
    have hv : UpStays t v := by
      show UpStays t (match r.group with | some g => _ | none => t)
      split
      · exact upStays_protect _ _ _ t
      · exact .refl t
    have hw : UpStays v w := .ite (.refl v) (.modEngine e _ v)
    have hx : UpStays s x := (((upStays_forwardDesc ht).trans hv).trans hw).trans (upStays_vaStore _ _ _ w)
    split
    · exact (hx.trans (upStays_rejectItem _ _ _ x)).trans (upStays_refuse _ _ _ _)
    · exact .ite (hx.trans (upStays_finish _ _ _ _ x)) (hx.trans (upStays_done _ _ x))

theorem upStays_moveDest (r : DescRec) (n : Nat) {go : State → State} (s : State) (h : UpStays s (go s)) : UpStays s (moveDest r n go s) := by
  unfold moveDest
  extract_lets dst
  split
  · exact upStays_refuse _ _ _ s
  · exact .ite (upStays_refuse _ _ _ s) h

theorem upStays_startMove (r : DescRec) (s : State) : UpStays s (startMove r s) := by
  unfold startMove
  extract_lets d slot src len read n
  split
  · exact upStays_finishGone r s
  · next c _ =>
    refine .ite (upStays_refuse _ _ _ s) ?_
    split
    · exact upStays_refuse _ _ _ s
    · have hread (go : State → State) (h : UpStays s (go s)) : UpStays s (read go s) := by
        show UpStays s (match poisonVa slot src len s with | some a => _ | none => _)
        split
        · exact upStays_refuse _ _ _ s
        · exact h
      clear_value read
      split
      · refine hread _ ?_
        extract_lets h k
        have hbad := (upStays_rejectItem (moveEngine s) 0 0 s).trans (upStays_refuse r 0x0105 src _)
        clear_value h
        split
        · exact hbad
        · split
          · exact upStays_refuse _ _ _ s
          · exact upStays_moveDest r k s (upStays_finishMove r c _ _ s)
      · exact upStays_moveDest r _ s (hread _ (upStays_finishMove r c _ _ s))

theorem upStays_startExchange (r : DescRec) (s : State) : UpStays s (startExchange r s) := by
  have hrefuse (detail : BitVec 16) (addr : Nat) : UpStays s (refuse r detail addr s) := upStays_refuse r detail addr s
  unfold startExchange
  extract_lets d slot
  split
  · refine .ite (hrefuse _ _) ?_
    extract_lets src dst
    split
    · exact hrefuse _ _
    · refine .ite (hrefuse _ _) ?_
      split
      · exact hrefuse _ _
      · split
        · exact upStays_refuseCap r _ s
        · next t ht => exact ((upStays_forwardDesc ht).trans (.ite (upStays_protect _ _ _ t) (.refl t))).trans (upStays_holdAs r .admission _)
  · exact hrefuse _ _

theorem upStays_sendPal (p : Pal) (it : Item) (s : State) : UpStays s (sendPal p it s) := by
  unfold sendPal
  split
  · exact upStays_sendItem _ it s
  · exact .refl s

theorem upStays_tellState (num j : Nat) (s : State) : UpStays s (tellState num j s) := by
  unfold tellState
  split
  · exact .refl s
  · split
    · exact .refl s
    · exact (upStays_sendPal _ _ s).trans (.modRegion num _ _)

theorem upStays_endOpen (x : Region) (detail : BitVec 16) (s : State) : UpStays s (endOpen x detail s) := by
  unfold endOpen
  split
  · exact .refl s
  · exact .ite ((UpStays.modRegion x.num _ s).trans (upStays_done _ 0 _)) ((upStays_dropRegions _ s).trans (upStays_refuse _ _ _ _))

theorem upStays_tryOpen (num : Nat) (s : State) : UpStays s (tryOpen num s) := by
  unfold tryOpen
  split
  · exact .refl s
  · next x _ =>
    refine .ite (.refl s) ?_
    extract_lets js said
    refine .ite (.refl s) ?_
    split
    · have hpull (j a b : Nat) (v : State) : UpStays v (sendPull x j a b v) := by
        unfold sendPull
        split
        · exact upStays_sendPal _ _ v
        · exact .refl v
      exact (UpStays.modRegion num _ s).trans (hpull _ _ _ _)
    · exact .ite (upStays_endOpen x _ s) (upStays_endOpen x _ s)

theorem upStays_nameRegion (slot num : Nat) (s : State) : UpStays s (nameRegion slot num s) := .withRegions _ s

theorem upStays_openRegion (r : DescRec) (h : List Word) (b : Binding) (off : Nat) (g : Group) (s : State) : UpStays s (openRegion r h b off g s) := by
  unfold openRegion
  extract_lets d slot len n stale frames first num steps x u v w
  refine .ite (upStays_refuse _ _ _ s) (.ite (upStays_refuseCap _ _ s) ?_)
  have hu : UpStays s u := (UpStays.withRegions _ s).trans (.modMemory _ _)
  have hv : UpStays u v := (upStays_holdAs _ .roundForm u).trans (upStays_nameRegion slot num _)
  have hw : UpStays v w := .foldl (fun y j => upStays_tellState num j y) _ v
  exact ((hu.trans hv).trans hw).trans (upStays_tryOpen num w)

theorem upStays_startLater (r : DescRec) (x : Region) (s : State) : UpStays s (startLater r x s) := by
  have hheld (k : Hold) : UpStays s (holdAs r k (nameRegion r.desc.slot x.num s)) := (upStays_nameRegion _ _ s).trans (upStays_holdAs r k _)
  unfold startLater
  extract_lets n slot
  exact .ite (upStays_refuse _ _ _ s) (.ite (hheld _) (.ite (upStays_refuse _ _ _ s) (.ite (hheld _) (hheld _))))

theorem upStays_startRound (r : DescRec) (s : State) : UpStays s (startRound r s) := by
  have hrefuse (detail : BitVec 16) (addr : Nat) : UpStays s (refuse r detail addr s) := upStays_refuse r detail addr s
  unfold startRound
  extract_lets d slot len h
  refine .ite (hrefuse _ _) ?_
  split
  · exact hrefuse _ _
  · split
    · exact hrefuse _ _
    · exact hrefuse _ _
    · refine .ite (hrefuse _ _) ?_
      split
      · exact .ite (hrefuse _ _) (.ite (upStays_holdAs _ _ s) (upStays_openRegion _ _ _ _ _ s))
      · next x _ =>
        refine .ite (.ite (upStays_holdAs _ _ s) ?_) (.ite (hrefuse _ _) (upStays_startLater r x s))
        exact (upStays_dropRegions _ s).trans (upStays_openRegion _ _ _ _ _ _)

theorem upStays_applyBind (r : DescRec) (s : State) : UpStays s (applyBind r s) := by
  have hbind (b : Binding) : UpStays s (bindRule r b s) := by
    unfold bindRule
    extract_lets u v w x
    have hu : UpStays s u := (UpStays.modNmu _ s).trans (.modMemory _ _)
    have hv : UpStays u v := .foldl (fun y k => .modNmu _ y) _ u
    have hw : UpStays v w := .foldl (fun y i => upStays_putStripe b i _ y) _ v
    have hx : UpStays w x := .foldl (fun y q => upStays_putBlock b q _ y) _ w
    exact ((((hu.trans hv).trans hw).trans hx).trans (upStays_appendRec _ x)).trans (upStays_done _ _ _)
  unfold applyBind
  extract_lets d slot rule fmt base count h bytes mine frames
  split
  · exact upStays_refuse _ _ _ s
  · refine .ite (upStays_refuse _ _ _ s) ?_
    split
    · exact upStays_refuseCap _ _ s
    · refine .ite (upStays_refuseCap _ _ s) ?_
      split
      · exact upStays_refuse _ _ _ s
      · exact hbind _

theorem upStays_startRule (r : DescRec) (s : State) : UpStays s (startRule r s) := by
  have hrelease (b : Binding) : UpStays s (applyRelease r b s) :=
    ((upStays_appendRec _ s).trans (upStays_releaseBindings _ _)).trans (upStays_done r 0 _)
  unfold startRule
  extract_lets d slot bytes h rule
  refine .ite ?_ (.ite (upStays_refuse _ _ _ s) ?_)
  · split
    · exact upStays_refuse _ _ _ s
    · exact .ite (upStays_holdAs _ _ s) (hrelease _)
  · split
    · exact upStays_refuse _ _ _ s
    · exact .ite (upStays_refuse _ _ _ s) (.ite (upStays_holdAs _ _ s) (upStays_applyBind r s))

theorem upStays_writeStatus (g : Group) (n : Word) (s : State) : UpStays s (writeStatus g n s) := by
  refine UpStays.foldl (fun v i => .ite (.modChan i _ v) ?_) _ s
  exact UpStays.trans (.of_besideMemory (besideMemory_vaForce i (numericsVa + 0x40) (statusBlock g n) v)) (.modChan i _ _)

theorem upStays_startOpen (r : DescRec) (s : State) : UpStays s (startOpen r s) := by
  have hopen (g : Group) (c : ScaleCtl) (hs : List (Binding × List Word)) (v : State) : UpStays v (openStep r g c hs v) := by
    unfold openStep
    extract_lets n fresh h h' v₁ v₂ v₃
    have hv₁ : UpStays v v₁ := .foldl (fun w b => .modBinding _ _ w) _ v
    have hv₂ : UpStays v₁ v₂ := .modGroup g.id _ v₁
    have hv₃ : UpStays v₂ v₃ := .ite (.raiseEvent _ _ v₂) (.refl v₂)
    exact (((hv₁.trans hv₂).trans hv₃).trans (upStays_writeStatus _ _ v₃)).trans (upStays_done _ _ _)
  unfold startOpen
  extract_lets n
  split
  · exact upStays_refuse _ _ _ s
  · refine .ite (upStays_refuseCap _ _ s) (.ite (upStays_refuse _ _ _ s) (.ite (upStays_refuse _ _ _ s) ?_))
    split
    · exact upStays_refuse _ _ _ s
    · split
      · exact .ite (.refl s) (upStays_holdAs _ _ s)
      · extract_lets hs
        exact .ite (upStays_refuse _ _ _ s) (.trans (.ite (.modCard _ s) (.refl s)) (hopen _ _ _ _))

theorem upStays_startCommit (r : DescRec) (s : State) : UpStays s (startCommit r s) := by
  unfold startCommit
  split
  · exact upStays_refuse _ _ _ s
  · exact .ite (upStays_refuse _ _ _ s) ((UpStays.modGroup _ _ s).trans (upStays_holdAs _ _ _))

theorem upStays_startExam (r : DescRec) (s : State) : UpStays s (startExam r s) := by
  have hopen (g : Group) (v : State) : UpStays v (openExam r g v) := by
    unfold openExam
    extract_lets n slot id add
    have hadd (t : State) (ps : List (Nat × Page)) (fs : List Nat) : UpStays t (add t ps fs) := (UpStays.modNmu _ t).trans (upStays_done r id _)
    refine .ite (hadd v [] []) (.ite (upStays_refuseCap _ _ v) ?_)
    split
    · next t ps fs hshow =>
      have ht : UpStays v t := by
        unfold showVersion at hshow
        extract_lets old bs copies qs frames w at hshow
        split at hshow
        · cases hshow
        · obtain ⟨rfl, -⟩ := Prod.mk.inj (Option.some.inj hshow)
          have hswap (y : State) (p : (Nat × Page) × Nat) : UpStays y (swapPage slot p.1.1 p.2 (pageVersion slot p.1.1 copies v) y) :=
            (UpStays.modMemory _ y).trans (.modChan slot _ _)
          exact .foldl hswap _ v
      exact ht.trans (hadd t ps fs)
    · exact upStays_refuseCap _ _ v
  unfold startExam
  split
  · exact upStays_refuse _ _ _ s
  · refine .ite (upStays_refuse _ _ _ s) (.ite (.ite (.refl s) (upStays_holdAs _ _ s)) ?_)
    exact UpStays.trans (.ite (.modCard _ s) (.refl s)) (hopen _ _)

theorem upStays_startExamClose (r : DescRec) (s : State) : UpStays s (startExamClose r s) := by
  unfold startExamClose
  extract_lets slot
  split
  · exact upStays_refuse _ _ _ s
  · extract_lets u v w g k
    have hw : UpStays s w := ((UpStays.modChan slot _ s).trans (upStays_freeFrames _ u)).trans (.modNmu _ v)
    exact (hw.trans (upStays_done r 0 w)).trans (upStays_writeCard _ _ _ _ _)

theorem upStays_startExport (r : DescRec) (s : State) : UpStays s (startExport r s) := by
  have hcontrol (e : ExportSt) (last : Option Word) (v : State) : UpStays v (exportControl e last v) := by
    unfold exportControl
    extract_lets w
    have hw : UpStays v w := (upStays_vaStore _ _ _ v).trans (upStays_vaStore _ _ _ _)
    split
    · exact hw.trans (upStays_vaStore _ _ _ w)
    · exact hw
  unfold startExport
  extract_lets d slot size e u
  refine .ite (upStays_refuse _ _ _ s) ?_
  split
  · exact upStays_refuse _ _ _ s
  · refine .ite (upStays_refuse _ _ _ s) (.ite (upStays_refuse _ _ _ s) (.ite (upStays_refuseCap _ _ s) ?_))
    have hu : UpStays s u := hcontrol e (some 0) s
    exact .ite (hu.trans (upStays_done r 0 u)) ((hu.trans (.modNmu _ u)).trans (upStays_holdAs _ _ _))

theorem upStays_startWait (r : DescRec) (s : State) : UpStays s (startWait r s) :=
  .ite (upStays_refuse _ _ _ s) (.ite (upStays_done _ _ s) (upStays_holdAs _ _ s))

theorem upStays_startStatsRead (r : DescRec) (s : State) : UpStays s (startStatsRead r s) := by
  unfold startStatsRead
  extract_lets d slot sel dst n sets
  split
  · exact upStays_finishGone r s
  · split
    · exact upStays_refuse _ _ _ s
    · extract_lets bytes u v
      have hu : UpStays s u := upStays_vaStore _ _ _ s
      have hv : UpStays u v := .ite ((UpStays.withStats _ u).trans (.modChan slot _ _)) (.refl u)
      exact .ite (upStays_refuse _ _ _ s) ((hu.trans hv).trans (upStays_done _ _ v))

theorem upStays_startSnapshot (r : DescRec) (s : State) : UpStays s (startSnapshot r s) := by
  unfold startSnapshot
  extract_lets d slot n limit gs secs
  split
  · exact upStays_refuse _ _ _ s
  · refine .ite (upStays_refuse _ _ _ s) (.ite (upStays_refuse _ _ _ s) ?_)
    split
    · exact upStays_refuseCap _ _ s
    · refine .ite (upStays_refuseCap _ _ s) ?_
      extract_lets head bs
      exact .ite (upStays_refuseCap _ _ s) ((upStays_vaStore _ _ _ s).trans (upStays_done _ _ _))

end Sys2Proof.Machine
end

section
/-!
What starting descriptors at ready keeps of the module (R408): the starts of Table 02-9, and the passing of roll call.
-/

namespace Sys2Proof.Machine

/-! ## Admin descriptors (Table 02-9) -/

theorem upStays_startCreate (r : DescRec) (s : State) : UpStays s (startCreate r s) := by
  have hadopt : UpStays s (adoptChannel r s) := by
    unfold adoptChannel
    extract_lets h slot
    refine .ite (upStays_finishGone r s) ?_
    split
    · exact upStays_finishGone r s
    · refine .ite (upStays_refuse _ _ _ s) (.ite (upStays_refuse _ _ _ s) ?_)
      split
      · exact upStays_refuse _ _ _ s
      · exact ((upStays_hostWrite _ _ _ s).trans (.modChan slot _ _)).trans (upStays_done _ _ _)
  have hcreate : UpStays s (createChannel r s) := by
    unfold createChannel
    extract_lets w cls count mask sr named
    refine .ite (upStays_refuse _ _ _ s) ?_
    split
    · exact upStays_refuse _ _ _ s
    · split
      · refine .ite (upStays_refuseCap _ _ s) ?_
        exact (UpStays.modSlot _ _ s).trans (upStays_done _ _ _)
      · exact upStays_refuseCap _ _ s
  exact .ite hadopt hcreate

theorem upStays_startMap (r : DescRec) (s : State) : UpStays s (startMap r s) := by
  have hrefuse (detail : BitVec 16) (addr : Nat) : UpStays s (refuse r detail addr s) := upStays_refuse r detail addr s
  have hmap (slot q : Nat) (ro : Bool) (kinds : List PageKind) (v : State) : UpStays v (done r 0 (mapPages slot q ro kinds v)) :=
    (UpStays.modChan slot _ v).trans (upStays_done _ _ _)
  unfold startMap
  split
  · exact upStays_finishGone r s
  · extract_lets va n kind ro q aslot aq used fs
    refine .ite (hrefuse _ _) ?_
    clear_value kind used fs
    split
    · exact hrefuse _ _
    · refine .ite (hrefuse _ _) ?_
      split
      · exact .ite (upStays_refuseCap _ _ s) ((UpStays.modMemory _ s).trans (hmap _ _ _ _ _))
      · split
        · exact hrefuse _ _
        · exact hmap _ _ _ _ s
      · exact hmap _ _ _ _ s

theorem upStays_startUnmap (r : DescRec) (s : State) : UpStays s (startUnmap r s) := by
  have hunmap (slot q n : Nat) : UpStays s (unmapPages slot q n s) := by
    unfold unmapPages
    extract_lets inR fs v
    exact ((UpStays.modChan slot _ s).trans (upStays_freeFrames fs v)).trans (.of_besideFinish (besideFinish_dropAliases slot inR _))
  unfold startUnmap
  split
  · exact upStays_finishGone r s
  · extract_lets va n q
    refine .ite (upStays_refuse _ _ _ s) ?_
    split
    · exact upStays_refuse _ _ _ s
    · exact .ite ((UpStays.modChan _ _ s).trans (upStays_holdAs _ _ _)) ((hunmap _ _ _).trans (upStays_done _ _ _))

theorem upStays_endWork (slot : Nat) (force : Bool) (s : State) : UpStays s (endWork slot force s) := by
  have hdrop (v : State) (u : Run) : UpStays v (dropRun u v) := by
    unfold dropRun
    split
    · exact (UpStays.withRuns _ v).trans (upStays_finish _ _ _ _ _)
    · exact .withRuns _ v
  have hgone (v : State) (u : Run) : UpStays v (stopRun u.id stGone 0 0 (modRun u.id (fun x => { x with gone := true }) v)) :=
    (UpStays.modRun u.id _ v).trans (upStays_stopRun _ _ _ _ _)
  have hexport (v : State) (e : ExportSt) : UpStays v (let w := modNmu (fun n => { n with exports := n.exports.filter fun x => x.id != e.id }) v
      match descOf e.id w with | some x => done x e.write.toNat w | none => w) := by
    extract_lets w
    have hw : UpStays v w := .modNmu _ v
    split
    · exact hw.trans (upStays_done _ _ w)
    · exact hw
  unfold endWork
  extract_lets s₁ s₂ s₃
  have hs₁ : UpStays s s₁ := .foldl (fun v x => upStays_finish x stGone 0 0 v) _ s
  have hs₂ : UpStays s₁ s₂ := .foldl hdrop _ s₁
  have hs₃ : UpStays s₂ s₃ := .ite (UpStays.foldl hgone _ s₂) (.refl s₂)
  exact ((hs₁.trans hs₂).trans hs₃).trans (.foldl hexport _ s₃)

theorem upStays_startDestroy (r : DescRec) (s : State) : UpStays s (startDestroy r s) := by
  unfold startDestroy
  split
  · exact upStays_finishGone r s
  · next slot _ _ _ =>
    extract_lets force u v
    have hv : UpStays s v := (UpStays.modChan slot _ s).trans (.modSlot slot _ u)
    have hend := ((hv.trans (upStays_holdAs r .destroy v)).trans (upStays_endWork slot force _)).trans
      (.of_besideFinish (besideFinish_settleDestroy slot _))
    exact .ite (upStays_refuse _ _ _ s) (hend.trans (upStays_beginReady _))

theorem upStays_startGroup (r : DescRec) (s : State) : UpStays s (startGroup r s) := by
  unfold startGroup
  extract_lets w id rank size sites ms g
  exact .ite (upStays_refuse _ _ _ s) ((UpStays.withGroups _ s).trans (upStays_done _ _ _))

theorem upStays_startPair (r : DescRec) (s : State) : UpStays s (startPair r s) := by
  have hdissolve : UpStays s (dissolvePair s) := by
    unfold dissolvePair
    extract_lets q u
    have hu : UpStays s u := .of_same rfl rfl rfl
    clear_value q
    cases q with
    | some d => exact hu.trans (upStays_done _ _ u)
    | none => exact hu
  unfold startPair
  refine .ite (.ite (upStays_refuse _ _ _ s) (.ite (upStays_done _ _ s) ?_)) (.ite (upStays_done _ _ s) (.ite ?_ ?_))
  · exact (UpStays.modMate _ s).trans (upStays_holdAs _ _ _)
  · exact (UpStays.modMate _ s).trans (upStays_holdAs _ _ _)
  · exact hdissolve.trans (upStays_done _ _ _)

theorem upStays_startPal (r : DescRec) (s : State) : UpStays s (startPal r s) := by
  have hpals (xs : List Pal) : UpStays s { s with pals := xs } := .of_same rfl rfl rfl
  unfold startPal
  extract_lets w id steps links et notFar clash p
  exact .ite (upStays_refuse _ _ _ s) ((hpals _).trans (upStays_done _ _ _))

theorem upStays_startTopology (r : DescRec) (s : State) : UpStays s (startTopology r s) := by
  unfold startTopology
  extract_lets bs
  split
  · exact upStays_refuse _ _ _ s
  · exact .ite ((upStays_acceptTopology _ s).trans (upStays_done _ _ _)) (upStays_refuse _ _ _ s)

theorem upStays_startLimits (r : DescRec) (s : State) : UpStays s (startLimits r s) := by
  have haccept (bs : List Byte) (es : List PolicyEntry) : UpStays s (acceptLimits bs es s) :=
    (UpStays.modCard _ s).trans (.of_besideDecisions (besideDecisions_acceptLimits bs es s))
  unfold startLimits
  extract_lets bs es
  exact .ite ((haccept bs es).trans (upStays_done _ _ _)) (upStays_refuse _ _ _ s)

theorem upStays_startKeyInstall (r : DescRec) (s : State) : UpStays s (startKeyInstall r s) := by
  have hbad (link : Nat) : UpStays s (finish r stAuth 0 (BitVec.ofNat 64 link) (raiseMbx r.port 3 s)) :=
    (UpStays.modPort r.port _ s).trans (upStays_finish _ _ _ _ _)
  unfold startKeyInstall
  extract_lets link len bs w0 seq w2 slot rx psk u k
  refine .ite (upStays_refuse _ _ _ s) ?_
  split
  · exact hbad link
  · next key _ =>
    refine .ite (hbad link) ?_
    have hu : UpStays s u := .modFlash (by intro _; rfl) s
    have hrefuse (detail : BitVec 16) (addr : Nat) : UpStays s (refuse r detail addr u) := hu.trans (upStays_refuse r detail addr u)
    refine .ite (.ite (hrefuse _ _) ?_) (.ite (hrefuse _ _) (.ite (hrefuse _ _) ?_))
    · extract_lets v
      have hv : UpStays s v := hu.trans (.modLink link _ u)
      exact (hv.trans (.ite (upStays_askKex link v) (.refl v))).trans (upStays_done _ _ _)
    · exact (hu.trans (upStays_fillSlot _ _ _ _ _ u)).trans (upStays_done _ _ _)

/-! ## Every start -/

/-- A start of a descriptor that keeps the module up. -/
def KeepsUp (start : DescRec → State → State) : Prop := ∀ r s, UpStays s (start r s)

theorem keepsUp_startOf (op : BitVec 8) : KeepsUp (startOf op) := by
  unfold startOf
  split
  · exact upStays_startLesson
  · exact upStays_startMove
  · exact upStays_startExchange
  · exact upStays_startRound
  · exact upStays_startRule
  · exact upStays_startOpen
  · exact upStays_startCommit
  · exact upStays_startExam
  · exact upStays_startExamClose
  · exact upStays_startExport
  · exact upStays_startWait
  · exact upStays_startStatsRead
  · exact upStays_startSnapshot
  · exact upStays_startCreate
  · exact upStays_startDestroy
  · exact upStays_startMap
  · exact upStays_startUnmap
  · exact upStays_startGroup
  · exact upStays_startPair
  · exact upStays_startPal
  · exact upStays_startTopology
  · exact upStays_startLimits
  · exact upStays_startKeyInstall
  · exact fun _ s => .refl s

theorem upStays_startEarly (s : State) (r : DescRec) : UpStays s (startEarly s r) :=
  .ite (.modDesc r.id _ s) (upStays_checked (keepsUp_startOf r.opcode) _ s)

theorem upStays_takeBells (p : Port) (s : State) : UpStays s (takeBells p s) := by
  have hbell (slot ring : Nat) (v : W32) (u : State) : UpStays u (takeBell slot ring v u) := by
    have herror : UpStays u (raiseBellError slot u) := (UpStays.modSlot slot _ u).trans (.raiseDev 27 _)
    have hhead : UpStays u (takeHead slot v u) := by
      unfold takeHead
      split
      · exact .refl u
      · exact .ite (.modChan slot _ u) herror
    exact .ite hhead (.ite herror (.ite (.modChan slot _ u) herror))
  unfold takeBells
  extract_lets bs u
  refine (UpStays.modPort p _ s).trans (.foldl (fun v b => ?_) bs u)
  split
  · exact .ite (hbell _ _ _ v) (.refl v)
  · exact .refl v

/-! ## Roll call passes (R408) -/

/-- The module as it becomes ready. -/
def madeReady (s : State) : State :=
  raiseDev 0 (modFlash (fun f => { f with lastDtime := now s })
    (modMod (fun m => { m with stage := 7, ready := true, startMs := startMsNow s }) s))

theorem madeReady_up (s : State) : (madeReady s).mod.stage = 7 ∧ (madeReady s).mod.ready = true ∧ (madeReady s).devFlags.getLsbD 0 = true ∧
    (madeReady s).flash.lastDtime = now s := by
  have hflags := onlyFlags_raiseDev 0 (modFlash (fun f => { f with lastDtime := now s })
    (modMod (fun m => { m with stage := 7, ready := true, startMs := startMsNow s }) s))
  exact ⟨congrArg ModuleSt.stage hflags.mod, congrArg ModuleSt.ready hflags.mod, devFlag_of_raised (by decide) (devRaised_raiseDev 0 _),
    congrArg FlashSt.lastDtime hflags.flash⟩

/-- The module's work as it becomes ready: reports, held bells and waiting descriptors. -/
def readyWork (s : State) : State :=
  let s := ((List.range 36).filter fun l => (linkOf l s).proved != 0).foldl (fun s l => sendRollCall l s) s
  let s := takeBells .B (takeBells .A s)
  let s := (s.descs.filter fun r => r.hold == .notReady).foldl startEarly s
  afterStart (beginReady s)

theorem upStays_readyWork (s : State) : UpStays s (readyWork s) := by
  unfold readyWork
  extract_lets s₁ s₂ s₃
  have hs₁ : UpStays s s₁ := .foldl (fun v l => upStays_sendRollCall l v) _ s
  have hs₂ : UpStays s₁ s₂ := (upStays_takeBells .A s₁).trans (upStays_takeBells .B _)
  have hs₃ : UpStays s₂ s₃ := .foldl upStays_startEarly _ s₂
  exact ((hs₁.trans hs₂).trans hs₃).trans ((upStays_beginReady s₃).trans (upStays_afterStart _))

theorem completes_rollCallPass {s : State} (hstage : s.mod.stage = 6) (hpass : rollPasses s = true) : Completes .rollCallPass s fun t =>
    t.mod.stage = 7 ∧ t.mod.ready = true ∧ t.devFlags.getLsbD 0 = true ∧ t.flash.lastDtime = now s := by
  have hwaits : ¬ (s.mod.stage != 6 || !rollPasses s) = true := by simp [hstage, hpass]
  have hexec : execRollCallPass s = .next (readyWork (madeReady s)) := congrArg Host.Outcome.next (if_neg hwaits)
  obtain ⟨hstage', hready, hflag, htime⟩ := madeReady_up s
  have hup := upStays_readyWork (madeReady s)
  exact ⟨_, hexec, hup.stage.trans hstage', hup.ready.trans hready, hup.raised 0 hflag, hup.lastDtime.trans htime⟩

/-! ## The stages together -/

/-- Settles O50: one lemma per stage. The firmware that stage 1 picks is `fwCandidate`, whose three cases are those of the trial. -/
theorem stagesOfBringUp : Obligations.StagesOfBringUp := by
  unfold Obligations.StagesOfBringUp
  intro s
  refine ⟨completes_stagePower, fun hstage => ⟨(stageFirmware_settles hstage).1, fun hhelper hrecord =>
    ⟨(stageFirmware_settles hstage).2 hhelper hrecord, fun hgood => ?_⟩⟩, completes_stageClocks, fun hstage trained =>
    ⟨fun hcold => completes_stageMemory_cold hstage hcold trained, fun hwarm => completes_stageMemory_warm hstage hwarm trained⟩, completes_stageLinks, completes_stageCores,
    completes_rollCallPass⟩
  obtain ⟨hvariantBad, hvariantOk⟩ := completes_stageFirmware hstage hhelper hrecord hgood
  refine ⟨hvariantBad, fun hvariant => ?_⟩
  obtain ⟨t, hexec, hstage', hmem, hidentity, hruns, hmeasure, hchosen, hflash, hfallback⟩ := hvariantOk hvariant
  refine ⟨t, hexec, hstage', hmem, hidentity, hruns, hmeasure, fun htry hactive => ?_, fun b htry hcount hb => ?_,
    fun b htry hcount hactive => ?_⟩
  · rw [fwCandidate_settled htry] at hchosen hflash
    exact ⟨hchosen hactive, hflash⟩
  · rw [fwCandidate_first htry hcount] at hchosen hflash
    exact ⟨hchosen hb, hflash⟩
  · rw [fwCandidate_again htry hcount] at hchosen hflash hfallback
    exact ⟨hchosen hactive, hflash, hfallback rfl⟩

end Sys2Proof.Machine
end
